-- ==== Sys2Proof/Word.lean ====
section
/-!
DEFINITION. Sys2Proof/Word.lean: the word types of the device: a register is 32 bits wide (Notation of spec/00_scope.md), memories
are byte-addressed (R5, R537).
-/
namespace Sys2Proof

/-- One 32-bit register or record word. -/
abbrev Word := BitVec 32

/-- One byte of a memory window, a frame or host memory. -/
abbrev Byte := BitVec 8

end Sys2Proof
end

