-- ==== Sys2Proof/Types.lean ====
section
/-!
DEFINITION. Sys2Proof/Types.lean: the plain vocabulary that commands and state share: who asks (R580), how an access ends (R7), supplies,
rails, clocks and power states (R54-R70).
-/
namespace Sys2Proof

/-- Who makes an access to the local space (R580, R113, R441): the housekeeping controller, the fabric node with the given ID, or this
device's own host (BAR0, or a descriptor that addresses the gateway itself). -/
inductive Requester
  | hk
  | node (id : Nat)
  | host
  deriving DecidableEq, Repr, Inhabited

/-- The completion statuses of R7. -/
inductive Status
  | ok
  | delayed
  | refusedBusy
  | refusedFenced
  | noRoute
  | timeout
  | nodeReset
  | checkFail
  | lifecycleDenied
  | badAddress
  | incomplete
  deriving DecidableEq, Repr, Inhabited

/-- The 8-bit code of a completion status (R7). -/
def Status.code : Status → Nat
  | .ok => 0x00
  | .delayed => 0x01
  | .refusedBusy => 0x02
  | .refusedFenced => 0x03
  | .noRoute => 0x04
  | .timeout => 0x05
  | .nodeReset => 0x06
  | .checkFail => 0x07
  | .lifecycleDenied => 0x08
  | .badAddress => 0x09
  | .incomplete => 0x0A

/-- The status that a received code stands for; any other code is a failure whose effect is unknown (R8), kept as `incomplete`. -/
def Status.ofCode (n : Nat) : Status :=
  match n with
  | 0x00 => .ok
  | 0x01 => .delayed
  | 0x02 => .refusedBusy
  | 0x03 => .refusedFenced
  | 0x04 => .noRoute
  | 0x05 => .timeout
  | 0x06 => .nodeReset
  | 0x07 => .checkFail
  | 0x08 => .lifecycleDenied
  | 0x09 => .badAddress
  | _ => .incomplete

/-- The VMOD thresholds of R54: the AON supply at 4.0 V / 3.5 V, and the buck input at 15.0 V / 13.5 V. -/
inductive VmodThreshold
  | aonSupply
  | buckInput
  deriving DecidableEq, Repr, Inhabited

/-- The two input legs of the buck (R55). -/
inductive Leg
  | vmod
  | vin
  deriving DecidableEq, Repr, Inhabited

/-- The rails with a brown-out threshold (R58). -/
inductive Rail
  | vcc5
  | avdd
  | dvdd
  deriving DecidableEq, Repr, Inhabited

/-- The PLLs whose loss of lock raises source 8 (R59). -/
inductive Pll
  | core
  | timebase
  | link
  | pwm
  deriving DecidableEq, Repr, Inhabited

/-- The targets of `SYS_PWRCMD.TARGET` other than ACTIVE (R78). -/
inductive LowState
  | shelf
  | sentinel
  | standby
  deriving DecidableEq, Repr, Inhabited

/-- The code of a low-power target in `SYS_PWRCMD.TARGET` and `SYS_PWRSTAT.PENDTGT` (R78, R79). -/
def LowState.code : LowState → Nat
  | .shelf => 0
  | .sentinel => 1
  | .standby => 2

/-- The temperature bands (Scope and Reading Guide; R521). -/
inductive Band
  | cold
  | normal
  | warm
  | hot
  deriving DecidableEq, Repr, Inhabited

/-- The code of a band in `THM_STAT.BAND` and of its chopping rate in `CMS_STAT.CHOP` (R133, R529). -/
def Band.code : Band → Nat
  | .cold => 0
  | .normal => 1
  | .warm => 2
  | .hot => 3

/-- The frame types of R353. -/
inductive FrameType
  | lack
  | lpar
  | delay
  | hoof
  | alarm
  | pairtick
  | rein
  | stream
  | read
  | write
  | cpl
  | session
  | event
  | enumeration
  deriving DecidableEq, Repr, Inhabited

/-- The TYPE code of a frame type (R353). -/
def FrameType.code : FrameType → Nat
  | .lack => 0x01
  | .lpar => 0x02
  | .delay => 0x03
  | .hoof => 0x04
  | .alarm => 0x05
  | .pairtick => 0x06
  | .rein => 0x07
  | .stream => 0x08
  | .read => 0x09
  | .write => 0x0A
  | .cpl => 0x0B
  | .session => 0x0C
  | .event => 0x0D
  | .enumeration => 0x0E

/-- The frame type of a TYPE code; none for the reserved codes 0x00 and 0x0F to 0x1F. -/
def FrameType.ofCode (n : Nat) : Option FrameType :=
  match n with
  | 0x01 => some .lack
  | 0x02 => some .lpar
  | 0x03 => some .delay
  | 0x04 => some .hoof
  | 0x05 => some .alarm
  | 0x06 => some .pairtick
  | 0x07 => some .rein
  | 0x08 => some .stream
  | 0x09 => some .read
  | 0x0A => some .write
  | 0x0B => some .cpl
  | 0x0C => some .session
  | 0x0D => some .event
  | 0x0E => some .enumeration
  | _ => none

/-- Whether frames of a type are numbered and replayed (R353). -/
def FrameType.sequenced : FrameType → Bool
  | .lack | .lpar | .delay => false
  | _ => true

/-- The traffic classes of R10. -/
inductive Cls
  | a
  | b
  | c
  | d
  deriving DecidableEq, Repr, Inhabited

/-- The CLASS code of R351. -/
def Cls.code : Cls → Nat
  | .a => 0
  | .b => 1
  | .c => 2
  | .d => 3

/-- The class of a CLASS code. -/
def Cls.ofCode (n : Nat) : Cls :=
  match n with
  | 0 => .a
  | 1 => .b
  | 2 => .c
  | _ => .d

/-- The header MODE of R351 and R384. -/
inductive Mode
  | routeWord
  | nodeId
  | broadcast
  | linkLocal
  deriving DecidableEq, Repr, Inhabited

/-- The MODE code of R351. -/
def Mode.code : Mode → Nat
  | .routeWord => 0
  | .nodeId => 1
  | .broadcast => 2
  | .linkLocal => 3

/-- The mode of a MODE code; none for the reserved codes. -/
def Mode.ofCode (n : Nat) : Option Mode :=
  match n with
  | 0 => some .routeWord
  | 1 => some .nodeId
  | 2 => some .broadcast
  | 3 => some .linkLocal
  | _ => none

/-- A frame as the nodes pass it on: the header fields of R351 that do not belong to one link, and the payload in 32-bit words,
least significant byte first (R5). -/
structure Frame where
  type : FrameType
  cls : Cls
  mode : Mode
  route : Word
  hop : Nat
  src : Nat
  dst : Nat
  epoch : Nat
  tag : Nat
  payload : List Word
  deriving DecidableEq, Repr, Inhabited

/-- How the completion of a command reaches whoever gave it: at once at the block's boundary; as a CPL frame, with what R391 needs for
it and for the replay cache of R397; or in a completion slot of this gateway's host (R447). -/
inductive Ticket
  | direct
  | fabric (src : Nat) (tag : Nat) (epoch : Nat) (cls : Cls) (rroute : Word) (rhop : Nat) (posted : Bool)
  | host (slot : Nat)
  deriving DecidableEq, Repr, Inhabited

/-- One sample of the internal stream that a step demodulates (R200, R201): the fabric time of its represented instant, and the 25 channels after
vendor trim as left-aligned codes. -/
structure ImpSample where
  t : Nat
  codes : List Int
  deriving DecidableEq, Repr, Inhabited

/-- The capabilities of R439 and R440 in configuration space. -/
inductive Capability
  | power
  | msix
  | express
  | aer
  deriving DecidableEq, Repr, Inhabited

/-- A PCI Express configuration request (R439, R440, R442, R466): a read of a doubleword of the header, or a write of what the host sets:
Memory Space Enable and Bus Master Enable, BAR0/BAR1, MSI-X enable and function mask, the power state with PME_En and a clear of
PME_Status, the Max Payload Size and Max Read Request Size codes, ASPM control, and a clear of AER status bits. -/
inductive CfgAccess
  | readHeader (dword : Fin 16)
  | readCapability (c : Capability) (dword : Fin 16)
  | writeCommand (mem busMaster : Bool)
  | writeBar (v : Fin 18446744073709551616)
  | writeMsix (enable mask : Bool)
  | writePower (d3 pmeEn clearPme : Bool)
  | writeDevice (mps mrrs : Fin 8)
  | writeLink (aspm : Fin 4)
  | clearAer (bits : Word)
  | writeAer (mask severity : Word)
  | writeTimeout (range : Fin 16) (off : Bool)
  deriving DecidableEq, Repr, Inhabited

/-- Why an SPI transaction is rejected (R424, R426, R432-R434): generation 2 with a failed header check, an unknown OP, CSN risen within the header after
some whole bytes or before the frame's end, generation 1 with a failed CRC, or the form of the other generation. -/
inductive SpiReject
  | headerCheck
  | unknownOp
  | cutHeader (bytes : Fin 4)
  | cutFrame
  | crc16
  | otherForm
  deriving DecidableEq, Repr, Inhabited

/-- One secondary result before correction (R145): the mean after vendor trim as an exact left-aligned code, and whether a conversion of it
returned an extreme code (R146). -/
structure Reading where
  code : Int
  ovr : Bool
  deriving DecidableEq, Repr, Inhabited

/-- One conversion of XA or XB (R142): the 16-bit code that the converter returned, signed on a signed range, and its value after vendor trim
as a left-aligned code. -/
structure Conversion where
  raw : Int
  code : Int
  deriving DecidableEq, Repr, Inhabited

/-- The three signal levels (R335). -/
inductive Level
  | minus
  | zero
  | plus
  deriving DecidableEq, Repr, Inhabited

/-- Two consecutive symbols (R335, R336). -/
abbrev Pair := Level × Level

end Sys2Proof
end

