-- ==== Sys2Proof/Syntax.lean ====
section
/-!
DEFINITION. Sys2Proof/Syntax.lean: the commands of the device: one constructor of `Instr` for each row of the spec's table of
operations and events. What a row's operands are is this model's choice, since the table gives no fields (notes/assumptions/2.md).
-/
namespace Sys2Proof

/-- The commands and events that act on the device: one constructor for each row of the spec's table of operations and events, with
what the step's environment supplies (pin levels, analog readings, who asks, the frame or descriptor that arrived). -/
inductive Instr
  /-- `REGISTER_WRITE` (R1): who writes, the local byte address, the words for consecutive word addresses, and for each word the W1C bits that hardware sets in the same clock cycle (R3); the host writes through BAR0. -/
  | registerWrite (req : Requester) (a : Fin 1048576) (words : List Word) (sets : List Word)
  /-- `REGISTER_READ_CLEAR` (R3): who reads, the local byte address, how many consecutive words, and for each word what hardware adds to its RC fields in the same clock cycle (R3); the host reads through BAR0. -/
  | registerReadClear (req : Requester) (a : Fin 1048576) (n : Fin 257) (gains : List Word)
  /-- `GEN3_LINK_UP` (R16): whether the link runs at 5.0 GT/s. -/
  | gen3LinkUp (fast : Bool)
  /-- `HARNESS_WIRE_CHANGE` (R38): the wire, and whether it is now open. -/
  | harnessWireChange (wire : Nat) (isOpen : Bool)
  /-- `LCM_PIN_CHANGE` (R90): the new level. -/
  | lcmPinChange (level : Bool)
  /-- `VMOD_THRESHOLD_CROSS` (R54): which threshold, and the direction. -/
  | vmodThresholdCross (q : VmodThreshold) (rising : Bool)
  /-- `VIN_THRESHOLD_CROSS` (R54): the direction. -/
  | vinThresholdCross (rising : Bool)
  /-- `VIN_QUALIFIED` (R54). -/
  | vinQualified
  /-- `BUCK_LIMIT_TIMEOUT` (R59). -/
  | buckLimitTimeout
  /-- `RAIL_WARNING` (R58): the rail, and whether it now lies outside its window. -/
  | railWarning (rail : Rail) (outside : Bool)
  /-- `REFERENCE_MISMATCH` (R58): whether the references now differ by more than 2.5 mV. -/
  | referenceMismatch (differ : Bool)
  /-- `RAIL_BROWN_OUT` (R58): the rail. -/
  | railBrownOut (rail : Rail)
  /-- `POWER_ON_RESET` (R72): the levels at the release of the power-on reset: WAKE, VIN, and VMOD against the thresholds of the AON supply and of the buck input. -/
  | powerOnReset (wakeHigh : Bool) (vinAbove : Bool) (vmodAon : Bool) (vmodOk : Bool)
  /-- `PWRCMD_SHELF` (R63). -/
  | pwrcmdShelf
  /-- `PWRCMD_SENTINEL` (R63). -/
  | pwrcmdSentinel
  /-- `PWRCMD_STANDBY` (R63). -/
  | pwrcmdStandby
  /-- `PWRCMD_ACTIVE` (R616). -/
  | pwrcmdActive
  /-- `POWER_TRANSITION_START` (R63). -/
  | powerTransitionStart
  /-- `POWER_STATE_ENTRY` (R63). -/
  | powerStateEntry
  /-- `WAKE_RISING_EDGE` (R75). -/
  | wakeRisingEdge
  /-- `WAKE_STUCK_TIMEOUT` (R75). -/
  | wakeStuckTimeout
  /-- `WAKE_LOW_CLEAR` (R76). -/
  | wakeLowClear
  /-- `WAKE_TIMER_EXPIRY` (R80). -/
  | wakeTimerExpiry
  /-- `LINK_WAKE_DETECT` (R348): the port. -/
  | linkWakeDetect (port : Nat)
  /-- `LINK_WAKE_TRAIN_TIMEOUT` (R69). -/
  | linkWakeTrainTimeout
  /-- `WAKE_FILTER_PASS` (R74). -/
  | wakeFilterPass
  /-- `BUCK_SOFT_START_DONE` (R74). -/
  | buckSoftStartDone
  /-- `CORE_RESET_RELEASE` (R72): whether the controller's ROM passes its check. -/
  | coreResetRelease (romOk : Bool)
  /-- `CPLL_LOCK` (R74). -/
  | cpllLock
  /-- `TPLL_LOCK` (R74). -/
  | tpllLock
  /-- `NVM_CHECK_DONE` (R540): whether the vendor trim passes its CRC. -/
  | nvmCheckDone (trimOk : Bool)
  /-- `PROFILE_APPLY` (R542). -/
  | profileApply
  /-- `ACTIVE_ENTRY` (R74). -/
  | activeEntry
  /-- `SCLK_FAILURE` (R71). -/
  | sclkFailure
  /-- `MOSC_FAILURE` (R71). -/
  | moscFailure
  /-- `PLL_LOSS_OF_LOCK` (R59): the PLL. -/
  | pllLossOfLock (pll : Pll)
  /-- `DEVICE_RESET_COMMAND` (R85). -/
  | deviceResetCommand
  /-- `CONTROLLER_RESTART` (R85). -/
  | controllerRestart
  /-- `CONTROLLER_WATCHDOG_EXPIRY` (R72). -/
  | controllerWatchdogExpiry
  /-- `CONTROLLER_RESTART_DONE` (R574): whether the controller's ROM passes its check. -/
  | controllerRestartDone (romOk : Bool)
  /-- `RSTN_ASSERT` (R75). -/
  | rstnAssert
  /-- `RSTN_RELEASE` (R617). -/
  | rstnRelease
  /-- `PERSTN_ASSERT` (R75). -/
  | perstnAssert
  /-- `PERSTN_STUCK_TIMEOUT` (R75). -/
  | perstnStuckTimeout
  /-- `WORD_BOUNDARY` (R100): the 25 filter outputs after vendor trim as exact left-aligned codes, and whether VMOD lies below 2 V. -/
  | wordBoundary (outs : List Int) (vmodLow : Bool)
  /-- `CMS_CFG_WRITE` (R105): the value written. -/
  | cmsCfgWrite (w : Word)
  /-- `FILTER_SETTING_APPLY` (R105). -/
  | filterSettingApply
  /-- `CMS_CHEN_WRITE` (R118): the value written. -/
  | cmsChenWrite (w : Word)
  /-- `HISTORY_LAYOUT_CHANGE` (R118). -/
  | historyLayoutChange
  /-- `CHOP_RATE_CHANGE` (R96). -/
  | chopRateChange
  /-- `RECORD_VALUE_READ` (R112): the requester and the record address. -/
  | recordValueRead (req : Requester) (a : Nat)
  /-- `RECORD_TAG_READ` (R112): the requester and the record address. -/
  | recordTagRead (req : Requester) (a : Nat)
  /-- `HWIDX_READ` (R134): the requester. -/
  | hwidxRead (req : Requester)
  /-- `CMS_SNAPSHOT_LATCH` (R121). -/
  | cmsSnapshotLatch
  /-- `MODULATOR_OVERLOAD` (R111): the channel. -/
  | modulatorOverload (c : Nat)
  /-- `MODULATOR_STUCK` (R122): the channel. -/
  | modulatorStuck (c : Nat)
  /-- `FILTER_PARITY_FAIL` (R122): the channel. -/
  | filterParityFail (c : Nat)
  /-- `INTERVAL_BOUNDARY` (R145): for each of the cells 1 to 24, the samples of its internal stream at the 640 Hz setting whose instants lie in the interval, after vendor trim as left-aligned codes. -/
  | intervalBoundary (prim : List (List Int))
  /-- `XB_FRAME_END` (R145): the conversions of each slot of XA and of XB in the frame, in the order of time. -/
  | xbFrameEnd (xa : List (List Conversion)) (xb : List (List Conversion))
  /-- `FALLBACK_RESULT` (R145). -/
  | fallbackResult
  /-- `AUX_CONFIG_APPLY` (R152). -/
  | auxConfigApply
  /-- `CONVERTER_SELF_CHECK` (R177): the converter whose self-check is judged: XA or XB. -/
  | converterSelfCheck (xb : Bool)
  /-- `CROSS_CHECK_COMPARISON` (R155). -/
  | crossCheckComparison
  /-- `OPEN_WIRE_SWEEP_START` (R163). -/
  | openWireSweepStart
  /-- `OPEN_WIRE_TEST` (R144, R162): the conversions of slots 43, 44, 48 and 49 in the frame's window, in the order of time; none where the slot stands before the first cell or past the last. -/
  | openWireTest (slot43 : List Conversion) (slot44 : List Conversion) (slot48 : List Conversion) (slot49 : List Conversion)
  /-- `SUSPECT_HOLD_EXPIRY` (R166): the tap. -/
  | suspectHoldExpiry (k : Nat)
  /-- `BALANCING_GATE_START` (R173). -/
  | balancingGateStart
  /-- `BALANCING_GATE_END` (R173). -/
  | balancingGateEnd
  /-- `HARNESS_MEASUREMENT_START` (R175): who gave the command. -/
  | harnessMeasurementStart (tk : Ticket)
  /-- `HARNESS_MEASUREMENT_DONE` (R175). -/
  | harnessMeasurementDone
  /-- `IMP_START` (R195). -/
  | impStart
  /-- `IMP_STOP` (R198). -/
  | impStop
  /-- `PLAN_START` (R196). -/
  | planStart
  /-- `STEP_START` (R191). -/
  | stepStart
  /-- `WINDOW_OPEN` (R190). -/
  | windowOpen
  /-- `WINDOW_CLOSE` (R201): the samples of the internal stream that the step demodulates. -/
  | windowClose (samples : List ImpSample)
  /-- `STEP_END` (R190). -/
  | stepEnd
  /-- `RESULTS_WRITTEN` (R205). -/
  | resultsWritten
  /-- `EXCITATION_FADE_DONE` (R198). -/
  | excitationFadeDone
  /-- `PAIR_TICK_RECEIVE` (R208): the source and epoch of the frame and its payload word. -/
  | pairTickReceive (src : Nat) (epoch : Nat) (w : Word)
  /-- `PAIR_TICK_MISSING` (R208). -/
  | pairTickMissing
  /-- `IMP_ENGINE_FAULT` (R211): whether the result window failed parity. -/
  | impEngineFault (results : Bool)
  /-- `COMPARATOR_TRIP` (R223): the cell, and whether its over-voltage comparator trips. -/
  | comparatorTrip (n : Nat) (isOv : Bool)
  /-- `COMPARATOR_RELEASE` (R220): the cell and the comparator. -/
  | comparatorRelease (n : Nat) (isOv : Bool)
  /-- `SENTINEL_COMPARATOR_SAMPLE` (R222): the comparator outputs, bit n for cell n. -/
  | sentinelComparatorSample (ov : Word) (uv : Word)
  /-- `CPB_FLAG_CLEAR` (R224): which flag register, the bits written, and the bits that hardware sets in the same clock cycle (R3). -/
  | cpbFlagClear (isOv : Bool) (bits : Word) (sets : Word)
  /-- `COMPARATOR_CHECK` (R227): whether the comparators under check flipped. -/
  | comparatorCheck (ovFlips : Bool) (uvFlips : Bool)
  /-- `TONE_RESUME` (R229). -/
  | toneResume
  /-- `FAULT_PAIR_READBACK_ERROR` (R230). -/
  | faultPairReadbackError
  /-- `NEIGHBOUR_STATE_CHANGE` (R232): the classified state: 0 Healthy, 1 Fault level, 2 Invalid, 3 Toggling. -/
  | neighbourStateChange (cause : Fin 4)
  /-- `NEIGHBOUR_STUCK_TIMEOUT` (R232). -/
  | neighbourStuckTimeout
  /-- `FAULT_PAIR_MODE_CHANGE` (R233). -/
  | faultPairModeChange
  /-- `BALANCING_HALF_BOUNDARY` (R236). -/
  | balancingHalfBoundary
  /-- `SWITCH_OVERCURRENT` (R239): the switch. -/
  | switchOvercurrent (n : Nat)
  /-- `SWITCH_CHECK` (R240): the switch and the voltage across it in uV. -/
  | switchCheck (n : Nat) (v : Int)
  /-- `CLTCFG_WRITE` (R242): the period written. -/
  | cltcfgWrite (period : Fin 1024)
  /-- `COMMUNICATION_LOSS_EXPIRY` (R243). -/
  | communicationLossExpiry
  /-- `CNV_START` (R294). -/
  | cnvStart
  /-- `CNV_STOP` (R276). -/
  | cnvStop
  /-- `CNV_CLRFLT` (R282). -/
  | cnvClrflt
  /-- `CNV_LOADC` (R269). -/
  | cnvLoadc
  /-- `COEFFICIENT_LOAD` (R269). -/
  | coefficientLoad
  /-- `CNV_VSELSW_WRITE` (R262): the code written. -/
  | cnvVselswWrite (code : Fin 4)
  /-- `CNV_VTGT_WRITE` (R262): which target, and the value in mV. -/
  | cnvVtgtWrite (k : Fin 4) (mv : Fin 65536)
  /-- `VSEL_CODE_ACCEPT` (R262): the pin code. -/
  | vselCodeAccept (code : Fin 4)
  /-- `BUS_PRESENT` (R263): the lowest VBS of the last 10 ms in mV. -/
  | busPresent (vbs : Nat)
  /-- `BUS_LOSS` (R283): the highest VBS of the last 1 ms in mV. -/
  | busLoss (vbs : Nat)
  /-- `CHECK_SAMPLE_END` (R272): the mean sense voltage of each phase in uV. -/
  | checkSampleEnd (means : List Int)
  /-- `DRIVER_WAKE_DONE` (R272): VBS in mV. -/
  | driverWakeDone (vbs : Nat)
  /-- `SHS_TEST_PART_END` (R273): the mean sense voltage of each phase in uV, the rise of VBS and VBS in mV. -/
  | shsTestPartEnd (means : List Int) (vbsRise : Int) (vbs : Nat)
  /-- `SOFT_START_COMPLETE` (R274). -/
  | softStartComplete
  /-- `SHORT_DETECT` (R275). -/
  | shortDetect
  /-- `HICCUP_OFF_ELAPSED` (R275). -/
  | hiccupOffElapsed
  /-- `HICCUP_COUNT_CLEAR` (R275). -/
  | hiccupCountClear
  /-- `RAMP_DOWN_COMPLETE` (R276). -/
  | rampDownComplete
  /-- `SWITCHING_PERIOD` (R268): the sense voltage of each phase and its lowest value while the low side conducted in uV, and the sensed voltages in mV. -/
  | switchingPeriod (sense : List Int) (valley : List Int) (vbs : Nat) (vmod : Nat)
  /-- `PHASE_EQUALISATION` (R270). -/
  | phaseEqualisation
  /-- `TRIM_LIMIT_TIMEOUT` (R270): the phase. -/
  | trimLimitTimeout (n : Fin 4)
  /-- `SHED_DECISION` (R279). -/
  | shedDecision
  /-- `SHED_WINDOW_END` (R279). -/
  | shedWindowEnd
  /-- `LOAD_STEP_DETECT` (R280). -/
  | loadStepDetect
  /-- `SHED_HOLD_EXPIRY` (R280). -/
  | shedHoldExpiry
  /-- `BRAKING_START` (R281). -/
  | brakingStart
  /-- `BRAKING_END` (R281). -/
  | brakingEnd
  /-- `CROWBAR_FIRE` (R282): the lowest VBS of the last 2 us in mV. -/
  | crowbarFire (vbs : Nat)
  /-- `CYCLE_LIMIT` (R283): the phase and its sense voltage in uV. -/
  | cycleLimit (n : Fin 4) (sense : Int)
  /-- `CURRENT_LIMIT_SUSTAINED` (R283). -/
  | currentLimitSustained
  /-- `HARD_TRIP` (R283): the phase and its sense voltage in uV. -/
  | hardTrip (n : Fin 4) (sense : Int)
  /-- `TRANSFER_OVERVOLTAGE` (R283): the lowest VBS of the last 2 us in mV. -/
  | transferOvervoltage (vbs : Nat)
  /-- `MODULE_VOLTAGE_FAULT` (R283): VMOD over the last 100 us in mV. -/
  | moduleVoltageFault (vmod : Nat)
  /-- `PIN_READBACK_MISMATCH` (R283): the phase. -/
  | pinReadbackMismatch (n : Fin 4)
  /-- `COMPENSATOR_MISMATCH` (R290). -/
  | compensatorMismatch
  /-- `CSYNC_EDGE` (R284). -/
  | csyncEdge
  /-- `SYNC_LOSS` (R285). -/
  | syncLoss
  /-- `CSYNC_STUCK` (R286). -/
  | csyncStuck
  /-- `CONTROL_TICK` (R301): the means over the tick in mV, and of the total current in the LSB of R260. -/
  | controlTick (vbs : Nat) (vmod : Nat) (itot : Int)
  /-- `SUMMING_UPDATE` (R316). -/
  | summingUpdate
  /-- `LOADLUT` (R314). -/
  | loadlut
  /-- `TARGET_WRITE` (R309): the target written, two's complement. -/
  | targetWrite (w : Fin 65536)
  /-- `TRACKING_FAULT` (R325). -/
  | trackingFault
  /-- `OUTPUT_AT_LIMIT` (R325). -/
  | outputAtLimit
  /-- `CTL_ENGINE_FAULT` (R303): whether a parity check failed. -/
  | ctlEngineFault (parity : Bool)
  /-- `PARTNER_TRAINING_DETECT` (R344): the port. -/
  | partnerTrainingDetect (n : Fin 4)
  /-- `LINK_UP` (R344, R356): the port, the payload of the partner's LPAR frame, and the IDLE codes received on which the descrambler synchronised. -/
  | linkUp (n : Fin 4) (lpar : List Word) (idles : List Pair)
  /-- `TRAINING_ABANDON` (R345): the port, the cause of R345 minus 1, and the payload of the partner's LPAR frame where one has passed its checks. -/
  | trainingAbandon (n : Fin 4) (cause : Fin 6) (lpar : Option (List Word))
  /-- `TRAINING_SIGNAL_CYCLE` (R346): the port. -/
  | trainingSignalCycle (n : Fin 4)
  /-- `PRESET_APPLY` (R342): the port. -/
  | presetApply (n : Fin 4)
  /-- `LPI_ENTRY` (R347): the port. -/
  | lpiEntry (n : Fin 4)
  /-- `LPI_RECEIVE` (R347): the port. -/
  | lpiReceive (n : Fin 4)
  /-- `LPI_EXIT` (R347): the port. -/
  | lpiExit (n : Fin 4)
  /-- `LINK_WAKE_COMMAND` (R349): the port. -/
  | linkWakeCommand (n : Fin 4)
  /-- `WAKE_PATTERN_END` (R349): the port. -/
  | wakePatternEnd (n : Fin 4)
  /-- `RETRAIN` (R372): the port. -/
  | retrain (n : Fin 4)
  /-- `FRAME_RECEIVE` (R360): the port, and the symbol pairs received since the last such event. -/
  | frameReceive (n : Fin 4) (pairs : List Pair)
  /-- `FRAME_TRANSMIT` (R398): the port. -/
  | frameTransmit (n : Fin 4)
  /-- `ACK_TIMEOUT` (R361): the port, and whether the class A space timed out. -/
  | ackTimeout (n : Fin 4) (a : Bool)
  /-- `SIGNAL_ENERGY_LOSS` (R365): the port. -/
  | signalEnergyLoss (n : Fin 4)
  /-- `RECEIVE_LOCK_LOSS` (R365): the port. -/
  | receiveLockLoss (n : Fin 4)
  /-- `RETRY_BUFFER_PARITY` (R365): the port. -/
  | retryBufferParity (n : Fin 4)
  /-- `LEGACY_COMMAND_FRAME` (R371): the bytes received on P0, and whether a code violation was seen in them. -/
  | legacyCommandFrame (bytes : List Byte) (codeViolation : Bool)
  /-- `LEGACY_RESPONSE_FRAME` (R371): the frame. -/
  | legacyResponseFrame (bytes : List Byte)
  /-- `READ_REQUEST` (R390): the port it arrived on, and the frame. -/
  | readRequest (arrival : Fin 4) (f : Frame)
  /-- `WRITE_REQUEST` (R390): the port it arrived on, and the frame. -/
  | writeRequest (arrival : Fin 4) (f : Frame)
  /-- `PROBE` (R401): the port it arrived on, and the frame. -/
  | probe (arrival : Fin 4) (f : Frame)
  /-- `ASSIGN` (R401): the port it arrived on, and the frame. -/
  | assign (arrival : Fin 4) (f : Frame)
  /-- `ROUTES` (R401): the port it arrived on, and the frame. -/
  | routes (arrival : Fin 4) (f : Frame)
  /-- `SESSION_OPEN` (R411): the port it arrived on, and the frame. -/
  | sessionOpen (arrival : Fin 4) (f : Frame)
  /-- `SESSION_CLOSE` (R411): the port it arrived on, and the frame. -/
  | sessionClose (arrival : Fin 4) (f : Frame)
  /-- `SESSION_RESUME` (R413): the port it arrived on, and the frame. -/
  | sessionResume (arrival : Fin 4) (f : Frame)
  /-- `SESSION_SUSPEND` (R414): the port it arrived on, and the frame. -/
  | sessionSuspend (arrival : Fin 4) (f : Frame)
  /-- `CPL_RECEIVE` (R391): the port of arrival and the frame. -/
  | cplReceive (arrival : Fin 4) (f : Frame)
  /-- `TRANSACTION_TIMEOUT` (R395): the TAG. -/
  | transactionTimeout (tag : Fin 256)
  /-- `TAG_RELEASE` (R395): the TAG. -/
  | tagRelease (tag : Fin 256)
  /-- `BROADCAST_PAIR_EXPIRY` (R387): the pair. -/
  | broadcastPairExpiry (src : Fin 1024) (tag : Fin 256)
  /-- `ENUM_FULL` (R399): who gave the command. -/
  | enumFull (tk : Ticket)
  /-- `ENUM_VERIFY` (R399): who gave the command. -/
  | enumVerify (tk : Ticket)
  /-- `ENUM_RECOVER` (R399): who gave the command. -/
  | enumRecover (tk : Ticket)
  /-- `ENUM_HOLD_EXPIRY` (R399). -/
  | enumHoldExpiry
  /-- `ENUMERATION_DONE` (R402). -/
  | enumerationDone
  /-- `PROBE_REPORT_RECEIVE` (R402): the port of arrival and the CPL frame. -/
  | probeReportReceive (arrival : Fin 4) (f : Frame)
  /-- `PLANNED_SWITCH_RESUME` (R403): the home set. -/
  | plannedSwitchResume (k : Fin 2)
  /-- `BEAT_SEND` (R406). -/
  | beatSend
  /-- `STATUS_SEND` (R406). -/
  | statusSend
  /-- `BEAT_RECEIVE` (R406): the port of arrival and the frame. -/
  | beatReceive (n : Fin 4) (f : Frame)
  /-- `STATUS_RECEIVE` (R415): the port of arrival and the frame. -/
  | statusReceive (arrival : Fin 4) (f : Frame)
  /-- `LINKDOWN_RECEIVE` (R408): the port of arrival and the frame. -/
  | linkdownReceive (arrival : Fin 4) (f : Frame)
  /-- `LINKUP_RECEIVE` (R410): the port of arrival and the frame. -/
  | linkupReceive (arrival : Fin 4) (f : Frame)
  /-- `LEAVE_RECEIVE` (R408): the port of arrival and the frame. -/
  | leaveReceive (arrival : Fin 4) (f : Frame)
  /-- `ROLEEND_RECEIVE` (R414): the port of arrival and the frame. -/
  | roleendReceive (arrival : Fin 4) (f : Frame)
  /-- `HOOFBEAT_LOST` (R407): the port. -/
  | hoofbeatLost (n : Fin 4)
  /-- `STATUS_MISSED` (R407): the node. -/
  | statusMissed (id : Fin 1023)
  /-- `STREAM_FRAME_SEND` (R412): the session. -/
  | streamFrameSend (k : Fin 256)
  /-- `EVENT_FRAME_SEND` (R417): the BLOCK code. -/
  | eventFrameSend (block : Fin 6)
  /-- `GEN1_READ` (R426): the emulated device, bits [4:0] of byte 0, the first register, and how many. -/
  | gen1Read (dev : Fin 2) (low : Fin 32) (r : Fin 256) (count : Fin 256)
  /-- `GEN1_WRITE` (R426): the emulated device, bits [4:0] of byte 0, the first register, and the words. -/
  | gen1Write (dev : Fin 2) (low : Fin 32) (r : Fin 256) (words : List (Fin 65536))
  /-- `CMD` (R425, R435): ARG, and the bits that SDI carries after the header until CSN rises. -/
  | cmd (arg : Fin 256) (bits : List Bool)
  /-- `GETCPL` (R432). -/
  | getcpl
  /-- `GETEVT` (R432). -/
  | getevt
  /-- `GETSTR` (R432): ARG. -/
  | getstr (arg : Fin 256)
  /-- `ACK` (R433): the bits of ARG. -/
  | ack (cpl : Bool) (evt : Bool) (str : Bool)
  /-- `GEN2_HOST_TIMEOUT` (R437). -/
  | gen2HostTimeout
  /-- `DOORBELL_WRITE` (R449): the ring and the index. -/
  | doorbellWrite (r : Fin 11) (idx : Fin 1048576)
  /-- `RING_ENABLE` (R456): the ring, or 11 for the writeback block. -/
  | ringEnable (r : Fin 12)
  /-- `DESCRIPTOR_FETCH` (R448): the next descriptors of host memory, 16 words each. -/
  | descriptorFetch (descs : List (List Word))
  /-- `NOP` (R445). -/
  | nop
  /-- `READ` (R445). -/
  | read
  /-- `WRITE` (R445): the words that the DMA read from DPTR returns. -/
  | write (dma : List Word)
  /-- `SESSION` (R445). -/
  | session
  /-- `ENUM` (R445). -/
  | enum
  /-- `STREAM_FRAME_RECEIVE` (R451): the port of arrival and the frame. -/
  | streamFrameReceive (arrival : Fin 4) (f : Frame)
  /-- `STREAM_ENTRY_WRITE` (R451): the stream ring. -/
  | streamEntryWrite (k : Fin 8)
  /-- `EVENT_FRAME_RECEIVE` (R452): the port of arrival and the frame. -/
  | eventFrameReceive (arrival : Fin 4) (f : Frame)
  /-- `ALARM_RECEIVE` (R452): the port of arrival and the frame. -/
  | alarmReceive (arrival : Fin 4) (f : Frame)
  /-- `EVENT_ENTRY_WRITE` (R452). -/
  | eventEntryWrite
  /-- `WRITEBACK` (R453). -/
  | writeback
  /-- `MODERATION_TIMEOUT` (R454): the ring. -/
  | moderationTimeout (r : Fin 11)
  /-- `CONFIG_REQUEST` (R440): the request. -/
  | configRequest (c : CfgAccess)
  /-- `PME_REQUEST` (R442). -/
  | pmeRequest
  /-- `PCIE_LINK_DOWN` (R443). -/
  | pcieLinkDown
  /-- `AER_UNCORRECTABLE` (R459): the status bits that AER logs. -/
  | aerUncorrectable (bits : Word)
  /-- `DMA_READ_ERROR` (R459). -/
  | dmaReadError
  /-- `HOST_PARITY_ERROR` (R459). -/
  | hostParityError
  /-- `DELAY_REQUEST_SEND` (R469). -/
  | delayRequestSend
  /-- `DELAY_REQUEST_RECEIVE` (R357, R469): the port, the frame, and how many ns ago its first symbol crossed the pin. -/
  | delayRequestReceive (n : Fin 4) (f : Frame) (ago : Nat)
  /-- `DELAY_RESPONSE_RECEIVE` (R357, R470): the port, the frame, and how many ns ago its first symbol crossed the pin. -/
  | delayResponseReceive (n : Fin 4) (f : Frame) (ago : Nat)
  /-- `ANNOUNCE_RECEIVE` (R474): the port and the frame. -/
  | announceReceive (n : Fin 4) (f : Frame)
  /-- `HOLDOVER_PARENT_SEARCH` (R474). -/
  | holdoverParentSearch
  /-- `HOLDOVER_TIMEOUT` (R472). -/
  | holdoverTimeout
  /-- `ROOT_CONFLICT_DELAY` (R476). -/
  | rootConflictDelay
  /-- `STEP` (R468). -/
  | step
  /-- `ROOT_TIME_STEP` (R468). -/
  | rootTimeStep
  /-- `REIN_GO` (R477): the BCAST and IMM bits of the write. -/
  | reinGo (bcast : Bool) (imm : Bool)
  /-- `SNAP_EDGE` (R482): how long ago the edge stood at the pin, ns. -/
  | snapEdge (ago : Nat)
  /-- `REIN_RECEIVE` (R478): the port of arrival and the frame. -/
  | reinReceive (arrival : Fin 4) (f : Frame)
  /-- `REIN_LATCH` (R480). -/
  | reinLatch
  /-- `FULL_CLEAR` (R481). -/
  | fullClear
  /-- `SNAP_STUCK_TIMEOUT` (R482). -/
  | snapStuckTimeout
  /-- `SNAP_STUCK_CLEAR` (R482). -/
  | snapStuckClear
  /-- `SOURCE_EVENT` (R493): the source whose event the collector accepts, and for source 103 the route table entry, if any, whose parity has failed. -/
  | sourceEvent (src : Fin 128) (entry : Option (Fin 1023))
  /-- `RAIL_ERROR` (R491): the source whose rail pair disagrees. -/
  | railError (src : Fin 128)
  /-- `RAIL_ERROR_END` (R491): the source whose rail pair agrees again. -/
  | railErrorEnd (src : Fin 128)
  /-- `HISTORY_PARITY_ERROR` (R488): the record slot that fails its check. -/
  | historyParityError (k : Fin 2)
  /-- `SEVERE_CLEAR` (R503): the register FLT_SEV0 to FLT_SEV3, the bits written, and the bits that hardware sets in the same clock cycle (R3). -/
  | severeClear (j : Fin 4) (bits : Word) (sets : Word)
  /-- `STICKY_CLEAR` (R503): the register FLT_STK0 to FLT_STK3, the bits written, and the bits that hardware sets in the same clock cycle (R3). -/
  | stickyClear (j : Fin 4) (bits : Word) (sets : Word)
  /-- `CLRALL` (R504). -/
  | clrall
  /-- `FLT_CFG_WRITE` (R496): the source, and the word written to its configuration. -/
  | fltCfgWrite (src : Fin 128) (w : Word)
  /-- `INJECTION_GO` (R507): the fields of FLT_INJCTL. -/
  | injectionGo (src : Fin 128) (dur : Fin 256) (full : Bool)
  /-- `INJECTION_END` (R507). -/
  | injectionEnd
  /-- `TEMPERATURE_SAMPLE` (R519): the readings of TS0 to TS2 in 0.01 degrees C, and whether each bias self-check passed. -/
  | temperatureSample (dies : List Int) (biasOk : List Bool)
  /-- `GALLOP_EXIT` (R520). -/
  | gallopExit
  /-- `SENSOR_DISAGREE` (R518). -/
  | sensorDisagree
  /-- `THERMAL_SHUTDOWN` (R523): the sensor and its reading in 0.1 degrees C. -/
  | thermalShutdown (n : Fin 3) (temp : Fin 65536)
  /-- `THERMAL_RESTART` (R524). -/
  | thermalRestart
  /-- `EVENT_LOG_WRITE` (R525). -/
  | eventLogWrite
  /-- `LOG_CLEAR` (R526): who gave the command. -/
  | logClear (tk : Ticket)
  /-- `RUN` (R533): who gave the command. -/
  | run (tk : Ticket)
  /-- `CAL_RUN_BEGIN` (R534). -/
  | calRunBegin
  /-- `CAL_ZERO_PHASE_END` (R534): the zero-phase means of the 113 inputs as left-aligned codes, in the order of R531. -/
  | calZeroPhaseEnd (zero : List Int)
  /-- `CAL_REFERENCE_PHASE_END` (R535): the means of the two halves of the reference phase, and the ratios of the auxiliary gains 4 and 16. -/
  | calReferencePhaseEnd (first : List Int) (second : List Int) (r4 : Word) (r16 : Word)
  /-- `CAL_COPY_WRITTEN` (R534): the sector that failed twice, if any. -/
  | calCopyWritten (bad : Option (Fin 128))
  /-- `CAL_COPY_IN_USE` (R534). -/
  | calCopyInUse
  /-- `HSAVE` (R543): who gave the command. -/
  | hsave (tk : Ticket)
  /-- `PSAVE` (R543): the profile, and who gave the command. -/
  | psave (arg : Fin 4) (tk : Ticket)
  /-- `PSELECT` (R543): ARG, and who gave the command. -/
  | pselect (arg : Fin 8) (tk : Ticket)
  /-- `TSAVE` (R543): who gave the command. -/
  | tsave (tk : Ticket)
  /-- `PATCHWE` (R545). -/
  | patchwe
  /-- `PATCH` (R545): how the completion reaches whoever gave the command. -/
  | patch (tk : Ticket)
  /-- `NVM_WRITE_DONE` (R547): the sector that failed twice, if any. -/
  | nvmWriteDone (bad : Option (Fin 128))
  /-- `COPY_REPAIR` (R540). -/
  | copyRepair
  /-- `EPOCH_WRITE` (R544). -/
  | epochWrite
  /-- `CRC_DATA_WRITE` (R549): the register: DATA8, DATA16, DATA32, and the value written. -/
  | crcDataWrite (size : Fin 3) (data : Word)
  /-- `SELFTEST_GO` (R569): MEM, LOG, ALG and MODE of the write. -/
  | selftestGo (mem : Fin 256) (log : Fin 64) (ss : Bool) (compat : Bool)
  /-- `SELFTEST_ABORT` (R570). -/
  | selftestAbort
  /-- `SEGMENT_TEST_DONE` (R561): the first word of the segment that failed, if any. -/
  | segmentTestDone (fail : Option (Fin 64))
  /-- `PARTITION_DONE` (R567): the final signature. -/
  | partitionDone (misr : Word)
  /-- `SELFTEST_RUN_END` (R568). -/
  | selftestRunEnd
  /-- `SLICE_START` (R563). -/
  | sliceStart
  /-- `OFFLINE_PARTITION_START` (R565). -/
  | offlinePartitionStart
  /-- `AUTO_RUN_DUE` (R572). -/
  | autoRunDue
  /-- `LIFECYCLE_CHANGE` (R555): TARGET and FORCE of the write, and who gave the command. -/
  | lifecycleChange (target : Fin 4) (force : Bool) (tk : Ticket)
  /-- `FUSE_PROGRAM_DONE` (R556): whether each copy of the fuse reads burned. -/
  | fuseProgramDone (a : Bool) (b : Bool)
  /-- `LOCK_ARM` (R597): the requester and the FLT and TGT bits of the write. -/
  | lockArm (req : Requester) (flt : Bool) (tgt : Bool)
  /-- `LOCK` (R597): the requester and the FLT and TGT bits of the write. -/
  | lock (req : Requester) (flt : Bool) (tgt : Bool)
  /-- `LOCK_ARM_EXPIRY` (R597). -/
  | lockArmExpiry
  /-- `AON_POWER_LOSS` (R61). -/
  | aonPowerLoss
  /-- `PERSTN_RELEASE` (R75). -/
  | perstnRelease
  /-- `LPI_EXIT_TIMEOUT` (R347): the port. -/
  | lpiExitTimeout (n : Fin 4)
  /-- `CONTINUOUS_CONDUCTION_START` (R192). -/
  | continuousConductionStart
  /-- `SPI_TRANSACTION_REJECTED` (R433): why the transaction is rejected. -/
  | spiTransactionRejected (why : SpiReject)
  deriving DecidableEq, Repr

end Sys2Proof
end

