-- ==== Sys2Proof/Decode.lean ====
section
/-!
DEFINITION. Sys2Proof/Decode.lean: the command that a word of the table of operations and events spells. The table gives none of its rows bits.
-/
namespace Sys2Proof

/-- The table of operations and events gives no row an encoding, so no word spells a command. -/
def decodeTableWord (_nbits _w : Nat) : Option Instr := none

end Sys2Proof
end

