-- ==== Sys2Proof/Config.lean ====
section
/-!
DEFINITION. Sys2Proof/Config.lean: what the spec leaves open. Every constant here is opaque: it has no body a proof could use, so a
statement about the machine holds whatever its value is.
-/
namespace Sys2Proof.Config

/-- The stream of values that the spec leaves open, one for each time such a value is needed: `State.free` counts them. -/
opaque freeValue : Nat → Word

/-- The last digit of the 18-bit sine of the turn n / d: how the engine rounds it is not stated (R201). -/
opaque tableDigit : Nat → Nat → Nat

/-- Whether a quotient or root whose last digit the spec leaves open is rounded up from its floor, by its operands. -/
opaque roundUp : Int → Int → Bool

/-- What a quotient with a divisor of 0 gives, where the spec does not say. -/
opaque divByZero : Int → Int

/-- The fractional bits beyond 16 that the profile generator carries (R306: at least 16). -/
opaque extraBits : Nat

/-- The vendor trim area of NVM by offset, 0x0000 to 0x03FF (R537): the spec gives its size and no layout. -/
opaque vendorTrim : Nat → BitVec 8

/-- The low and high word of the device's UID, with the vendor trim good or on the nominal values of ROM (R530, R540). -/
opaque uidLow : Bool → Word
opaque uidHigh : Bool → Word

/-- The 23 bits with which a transmitter seeds its scrambler, by the NONCE of its LPAR frame (R337, R356): the spec does not say which. -/
opaque scramblerSeed : Word → BitVec 23

/-- How many IDLE codes beyond the two of the smallest gap fill a line from one time to another (R339): rates are nominal. -/
opaque idleFill : Nat → Nat → Nat

/-- The bits of a capability's doubleword that PCI Express leaves to a device and the spec does not give (R439). -/
opaque pcieOpen : Capability → Nat → Word

/-- The version of the housekeeping controller's ROM (R574, R575). -/
opaque romVersion : BitVec 8

/-- The signature that ROM holds for a logic partition (R567). -/
opaque signature : Nat → Word

end Sys2Proof.Config
end

