-- ==== Sys2Proof/Machine/Regs.lean ====
section
/-!
DEFINITION. Sys2Proof/Machine/Regs.lean: the register map of the device, as the register tables of the spec give it (R77-R90, R131-R140, R179-R186,
R193, R213-R218, R248-R254, R292-R300, R327-R332, R374-R383, R421-R423, R463-R466, R485-R487, R511-R513, R529, R548, R551,
R575-R576, R577-R598): one row for each register or register array, and one named constant for each register address and field.
A row's masks say which bits carry which access code of R1.
-/
namespace Sys2Proof.Machine

/-- A field of a register: the register's local byte address, the field's lowest bit and its width. -/
structure Field where
  addr : Nat
  lo : Nat
  w : Nat
  deriving DecidableEq, Repr

/-- One row of the register map: the address of the first register, the stride and the count of the array, the value after a device
reset (after POR for an AON register), the bits that carry each access code of R1, and whether the register is in the always-on
domain. Bits in no mask are RO. -/
structure RegRow where
  base : Nat
  stride : Nat
  count : Nat
  reset : Nat
  rw : Nat
  w1c : Nat
  rc : Nat
  rwl : Nat
  wo : Nat
  rsv : Nat
  aon : Bool
  deriving DecidableEq, Repr

/-- Whether a local address is one of a row's registers. -/
def RegRow.covers (r : RegRow) (a : Nat) : Bool :=
  r.base ≤ a && (a - r.base) % r.stride == 0 && (a - r.base) / r.stride < r.count

namespace Reg

/-- Address of `SYS_ID` (R77). -/
def SYS_ID : Nat := 0x0
def SYS_ID_PART : Field := ⟨SYS_ID, 16, 16⟩
def SYS_ID_REV : Field := ⟨SYS_ID, 8, 8⟩
/-- Address of `SYS_PWRCMD` (R78). -/
def SYS_PWRCMD : Nat := 0x4
def SYS_PWRCMD_KEY : Field := ⟨SYS_PWRCMD, 8, 8⟩
def SYS_PWRCMD_TARGET : Field := ⟨SYS_PWRCMD, 0, 3⟩
/-- Address of `SYS_PWRSTAT` (R79). -/
def SYS_PWRSTAT : Nat := 0x8
def SYS_PWRSTAT_LASTWAKE : Field := ⟨SYS_PWRSTAT, 20, 4⟩
def SYS_PWRSTAT_ABORT : Field := ⟨SYS_PWRSTAT, 15, 1⟩
def SYS_PWRSTAT_PEND : Field := ⟨SYS_PWRSTAT, 14, 1⟩
def SYS_PWRSTAT_PENDTGT : Field := ⟨SYS_PWRSTAT, 12, 2⟩
def SYS_PWRSTAT_SRC : Field := ⟨SYS_PWRSTAT, 8, 1⟩
def SYS_PWRSTAT_VINOK : Field := ⟨SYS_PWRSTAT, 7, 1⟩
def SYS_PWRSTAT_VMODOK : Field := ⟨SYS_PWRSTAT, 6, 1⟩
def SYS_PWRSTAT_STATE : Field := ⟨SYS_PWRSTAT, 0, 2⟩
/-- Address of `SYS_PWRCFG` (R80). -/
def SYS_PWRCFG : Nat := 0xc
def SYS_PWRCFG_WAKETMR : Field := ⟨SYS_PWRCFG, 24, 8⟩
def SYS_PWRCFG_THWAKE : Field := ⟨SYS_PWRCFG, 3, 1⟩
def SYS_PWRCFG_OUVWAKE : Field := ⟨SYS_PWRCFG, 2, 1⟩
def SYS_PWRCFG_LW1 : Field := ⟨SYS_PWRCFG, 1, 1⟩
def SYS_PWRCFG_LW0 : Field := ⟨SYS_PWRCFG, 0, 1⟩
/-- Address of `SYS_SUPCFG` (R81). -/
def SYS_SUPCFG : Nat := 0x10
def SYS_SUPCFG_VINQUAL : Field := ⟨SYS_SUPCFG, 2, 2⟩
def SYS_SUPCFG_PREF : Field := ⟨SYS_SUPCFG, 0, 2⟩
/-- Address of `SYS_SUPSTAT` (R82). -/
def SYS_SUPSTAT : Nat := 0x14
def SYS_SUPSTAT_SWCNT : Field := ⟨SYS_SUPSTAT, 24, 8⟩
def SYS_SUPSTAT_BUCKFLT : Field := ⟨SYS_SUPSTAT, 2, 1⟩
def SYS_SUPSTAT_VINLOSS : Field := ⟨SYS_SUPSTAT, 1, 1⟩
def SYS_SUPSTAT_VMODLOSS : Field := ⟨SYS_SUPSTAT, 0, 1⟩
/-- Address of `SYS_CLKCFG` (R83). -/
def SYS_CLKCFG : Nat := 0x18
def SYS_CLKCFG_PWMSSD : Field := ⟨SYS_CLKCFG, 8, 2⟩
def SYS_CLKCFG_LINKSS : Field := ⟨SYS_CLKCFG, 1, 1⟩
def SYS_CLKCFG_CORESS : Field := ⟨SYS_CLKCFG, 0, 1⟩
/-- Address of `SYS_CLKSTAT` (R84). -/
def SYS_CLKSTAT : Nat := 0x1c
def SYS_CLKSTAT_SCLKOK : Field := ⟨SYS_CLKSTAT, 9, 1⟩
def SYS_CLKSTAT_MOSCOK : Field := ⟨SYS_CLKSTAT, 8, 1⟩
def SYS_CLKSTAT_PCIELK : Field := ⟨SYS_CLKSTAT, 4, 1⟩
def SYS_CLKSTAT_PPLLLK : Field := ⟨SYS_CLKSTAT, 3, 1⟩
def SYS_CLKSTAT_LPLLLK : Field := ⟨SYS_CLKSTAT, 2, 1⟩
def SYS_CLKSTAT_TPLLLK : Field := ⟨SYS_CLKSTAT, 1, 1⟩
def SYS_CLKSTAT_CPLLLK : Field := ⟨SYS_CLKSTAT, 0, 1⟩
/-- Address of `SYS_RSTCMD` (R85). -/
def SYS_RSTCMD : Nat := 0x20
def SYS_RSTCMD_KEY : Field := ⟨SYS_RSTCMD, 8, 8⟩
def SYS_RSTCMD_ACTION : Field := ⟨SYS_RSTCMD, 0, 2⟩
/-- Address of `SYS_RSTCAUSE` (R86). -/
def SYS_RSTCAUSE : Nat := 0x24
def SYS_RSTCAUSE_CTLRST : Field := ⟨SYS_RSTCAUSE, 8, 1⟩
def SYS_RSTCAUSE_WDOG : Field := ⟨SYS_RSTCAUSE, 7, 1⟩
def SYS_RSTCAUSE_THERM : Field := ⟨SYS_RSTCAUSE, 6, 1⟩
def SYS_RSTCAUSE_SOFT : Field := ⟨SYS_RSTCAUSE, 5, 1⟩
def SYS_RSTCAUSE_RSTN : Field := ⟨SYS_RSTCAUSE, 4, 1⟩
def SYS_RSTCAUSE_BOR : Field := ⟨SYS_RSTCAUSE, 3, 1⟩
def SYS_RSTCAUSE_SENTEXIT : Field := ⟨SYS_RSTCAUSE, 2, 1⟩
def SYS_RSTCAUSE_SHELFEXIT : Field := ⟨SYS_RSTCAUSE, 1, 1⟩
def SYS_RSTCAUSE_POR : Field := ⟨SYS_RSTCAUSE, 0, 1⟩
/-- Address of `SYS_EPOCH` (R87). -/
def SYS_EPOCH : Nat := 0x28
def SYS_EPOCH_EPOCH : Field := ⟨SYS_EPOCH, 0, 8⟩
/-- Address of `SYS_PINCFG` (R88). -/
def SYS_PINCFG : Nat := 0x2c
def SYS_PINCFG_PERSTTO : Field := ⟨SYS_PINCFG, 16, 8⟩
def SYS_PINCFG_WAKETO : Field := ⟨SYS_PINCFG, 8, 8⟩
/-- Address of `SYS_PINSTAT` (R89). -/
def SYS_PINSTAT : Nat := 0x30
def SYS_PINSTAT_PERSTCNT : Field := ⟨SYS_PINSTAT, 24, 8⟩
def SYS_PINSTAT_WAKECNT : Field := ⟨SYS_PINSTAT, 16, 8⟩
def SYS_PINSTAT_FWAKE1 : Field := ⟨SYS_PINSTAT, 8, 4⟩
def SYS_PINSTAT_FWAKE0 : Field := ⟨SYS_PINSTAT, 4, 4⟩
def SYS_PINSTAT_LWDIS1 : Field := ⟨SYS_PINSTAT, 2, 1⟩
def SYS_PINSTAT_LWDIS0 : Field := ⟨SYS_PINSTAT, 1, 1⟩
def SYS_PINSTAT_WAKELVL : Field := ⟨SYS_PINSTAT, 0, 1⟩
/-- Address of `SYS_STRAPSTAT` (R90). -/
def SYS_STRAPSTAT : Nat := 0x34
def SYS_STRAPSTAT_LCMCHG : Field := ⟨SYS_STRAPSTAT, 8, 8⟩
def SYS_STRAPSTAT_LCMNOW : Field := ⟨SYS_STRAPSTAT, 1, 1⟩
def SYS_STRAPSTAT_LCM : Field := ⟨SYS_STRAPSTAT, 0, 1⟩
/-- Address of `CMS_CFG` (R131). -/
def CMS_CFG : Nat := 0x1000
def CMS_CFG_NOTCH : Field := ⟨CMS_CFG, 8, 2⟩
def CMS_CFG_OFFBIN : Field := ⟨CMS_CFG, 5, 1⟩
def CMS_CFG_ALIGN : Field := ⟨CMS_CFG, 4, 1⟩
def CMS_CFG_RATE : Field := ⟨CMS_CFG, 0, 2⟩
/-- Address of `CMS_CHEN` (R132). -/
def CMS_CHEN : Nat := 0x1004
def CMS_CHEN_CELL : Field := ⟨CMS_CHEN, 1, 24⟩
def CMS_CHEN_CUR : Field := ⟨CMS_CHEN, 0, 1⟩
/-- Address of `CMS_STAT` (R133). -/
def CMS_STAT : Nat := 0x1008
def CMS_STAT_SETLEFT : Field := ⟨CMS_STAT, 24, 8⟩
def CMS_STAT_TBLOCK : Field := ⟨CMS_STAT, 17, 1⟩
def CMS_STAT_SETTLING : Field := ⟨CMS_STAT, 16, 1⟩
def CMS_STAT_CHOP : Field := ⟨CMS_STAT, 12, 2⟩
def CMS_STAT_NOTCHACT : Field := ⟨CMS_STAT, 8, 2⟩
def CMS_STAT_RATEACT : Field := ⟨CMS_STAT, 0, 2⟩
/-- Address of `CMS_HWIDX` (R134). -/
def CMS_HWIDX : Nat := 0x100c
def CMS_HWIDX_WIDX : Field := ⟨CMS_HWIDX, 0, 32⟩
/-- Address of `CMS_HDEPTH` (R135). -/
def CMS_HDEPTH : Nat := 0x1010
def CMS_HDEPTH_NCH : Field := ⟨CMS_HDEPTH, 16, 5⟩
def CMS_HDEPTH_DEPTH : Field := ⟨CMS_HDEPTH, 0, 13⟩
/-- Address of `CMS_HSTART` (R136). -/
def CMS_HSTART : Nat := 0x1014
def CMS_HSTART_START : Field := ⟨CMS_HSTART, 0, 32⟩
/-- Address of `CMS_OVRCNT` (R137). -/
def CMS_OVRCNT : Nat := 0x1018
def CMS_OVRCNT_OVR : Field := ⟨CMS_OVRCNT, 0, 16⟩
/-- Address of `CMS_FENCE` (R138). -/
def CMS_FENCE : Nat := 0x101c
def CMS_FENCE_CELL : Field := ⟨CMS_FENCE, 1, 24⟩
def CMS_FENCE_CUR : Field := ⟨CMS_FENCE, 0, 1⟩
/-- Address of `CMS_HTIMEL` (R139). -/
def CMS_HTIMEL : Nat := 0x1020
def CMS_HTIMEL_TLO : Field := ⟨CMS_HTIMEL, 0, 32⟩
/-- Address of `CMS_HTIMEH` (R139). -/
def CMS_HTIMEH : Nat := 0x1024
def CMS_HTIMEH_THI : Field := ⟨CMS_HTIMEH, 0, 32⟩
/-- Address of `CMS_SNAPSTAT` (R140). -/
def CMS_SNAPSTAT : Nat := 0x1028
def CMS_SNAPSTAT_PEND : Field := ⟨CMS_SNAPSTAT, 1, 1⟩
def CMS_SNAPSTAT_DONE : Field := ⟨CMS_SNAPSTAT, 0, 1⟩
/-- Address of `XCK_CFG` (R179). -/
def XCK_CFG : Nat := 0x1800
def XCK_CFG_SUMLIM : Field := ⟨XCK_CFG, 24, 8⟩
def XCK_CFG_VMSW : Field := ⟨XCK_CFG, 12, 1⟩
def XCK_CFG_PERS : Field := ⟨XCK_CFG, 8, 4⟩
def XCK_CFG_XLIM : Field := ⟨XCK_CFG, 0, 8⟩
/-- Address of `XCK_STAT` (R180). -/
def XCK_STAT : Nat := 0x1804
def XCK_STAT_MODE : Field := ⟨XCK_STAT, 0, 2⟩
/-- Address of `XCK_XMIS` (R181). -/
def XCK_XMIS : Nat := 0x1808
def XCK_XMIS_CELL : Field := ⟨XCK_XMIS, 1, 24⟩
/-- Address of `XCK_BLAMEP` (R181). -/
def XCK_BLAMEP : Nat := 0x180c
def XCK_BLAMEP_CELL : Field := ⟨XCK_BLAMEP, 1, 24⟩
/-- Address of `XCK_BLAMES` (R181). -/
def XCK_BLAMES : Nat := 0x1810
def XCK_BLAMES_CELL : Field := ⟨XCK_BLAMES, 1, 24⟩
/-- Address of `XCK_OWCFG` (R182). -/
def XCK_OWCFG : Nat := 0x1814
def XCK_OWCFG_PER : Field := ⟨XCK_OWCFG, 0, 2⟩
/-- Address of `XCK_OWSTAT` (R182). -/
def XCK_OWSTAT : Nat := 0x1818
def XCK_OWSTAT_TAP : Field := ⟨XCK_OWSTAT, 0, 25⟩
/-- Address of `XCK_OWLAST` (R182). -/
def XCK_OWLAST : Nat := 0x181c
def XCK_OWLAST_TAP : Field := ⟨XCK_OWLAST, 24, 5⟩
def XCK_OWLAST_DLO : Field := ⟨XCK_OWLAST, 12, 12⟩
def XCK_OWLAST_DHI : Field := ⟨XCK_OWLAST, 0, 12⟩
/-- Address of `XCK_AUXCTL` (R184). -/
def XCK_AUXCTL : Nat := 0x1828
def XCK_AUXCTL_VAUXEN : Field := ⟨XCK_AUXCTL, 0, 1⟩
/-- Address of `XCK_BALCFG` (R184). -/
def XCK_BALCFG : Nat := 0x182c
def XCK_BALCFG_GATEPER : Field := ⟨XCK_BALCFG, 4, 2⟩
def XCK_BALCFG_MODE : Field := ⟨XCK_BALCFG, 0, 2⟩
/-- Address of `XCK_RBAL` (R184). -/
def XCK_RBAL : Nat := 0x1830
def XCK_RBAL_RBAL : Field := ⟨XCK_RBAL, 0, 16⟩
/-- Address of `XCK_HRCMD` (R185). -/
def XCK_HRCMD : Nat := 0x1834
def XCK_HRCMD_FAIL : Field := ⟨XCK_HRCMD, 3, 1⟩
def XCK_HRCMD_DONE : Field := ⟨XCK_HRCMD, 2, 1⟩
def XCK_HRCMD_BUSY : Field := ⟨XCK_HRCMD, 1, 1⟩
def XCK_HRCMD_START : Field := ⟨XCK_HRCMD, 0, 1⟩
/-- Address of `IMP_PLAN_W0` (R193). -/
def IMP_PLAN_W0 (n : Nat) : Nat := 0x2100 + 0x10 * n
def IMP_PLAN_W0_LINK (n : Nat) : Field := ⟨IMP_PLAN_W0 n, 31, 1⟩
def IMP_PLAN_W0_FREQ (n : Nat) : Field := ⟨IMP_PLAN_W0 n, 0, 22⟩
/-- Address of `IMP_PLAN_W1` (R193). -/
def IMP_PLAN_W1 (n : Nat) : Nat := 0x2104 + 0x10 * n
def IMP_PLAN_W1_PHASE (n : Nat) : Field := ⟨IMP_PLAN_W1 n, 16, 16⟩
def IMP_PLAN_W1_AMP (n : Nat) : Field := ⟨IMP_PLAN_W1 n, 0, 13⟩
/-- Address of `IMP_PLAN_W2` (R193). -/
def IMP_PLAN_W2 (n : Nat) : Nat := 0x2108 + 0x10 * n
def IMP_PLAN_W2_INTEG (n : Nat) : Field := ⟨IMP_PLAN_W2 n, 16, 16⟩
def IMP_PLAN_W2_SETTLE (n : Nat) : Field := ⟨IMP_PLAN_W2 n, 0, 16⟩
/-- Address of `IMP_PLAN_W3` (R193). -/
def IMP_PLAN_W3 (n : Nat) : Nat := 0x210c + 0x10 * n
/-- Address of `IMP_CFG` (R213). -/
def IMP_CFG : Nat := 0x2000
def IMP_CFG_NPTS : Field := ⟨IMP_CFG, 16, 5⟩
def IMP_CFG_REPEAT : Field := ⟨IMP_CFG, 8, 8⟩
def IMP_CFG_PAIR : Field := ⟨IMP_CFG, 3, 1⟩
def IMP_CFG_INV : Field := ⟨IMP_CFG, 2, 1⟩
def IMP_CFG_BALHOLD : Field := ⟨IMP_CFG, 1, 1⟩
def IMP_CFG_IPOL : Field := ⟨IMP_CFG, 0, 1⟩
/-- Address of `IMP_CMD` (R214). -/
def IMP_CMD : Nat := 0x2004
def IMP_CMD_STOP : Field := ⟨IMP_CMD, 1, 1⟩
def IMP_CMD_START : Field := ⟨IMP_CMD, 0, 1⟩
/-- Address of `IMP_STAT` (R215). -/
def IMP_STAT : Nat := 0x2008
def IMP_STAT_RUN : Field := ⟨IMP_STAT, 24, 8⟩
def IMP_STAT_POINT : Field := ⟨IMP_STAT, 19, 5⟩
def IMP_STAT_ERRPT : Field := ⟨IMP_STAT, 14, 5⟩
def IMP_STAT_ABRT : Field := ⟨IMP_STAT, 10, 4⟩
def IMP_STAT_ERR : Field := ⟨IMP_STAT, 6, 4⟩
def IMP_STAT_STATE : Field := ⟨IMP_STAT, 0, 3⟩
/-- Address of `IMP_EVT` (R216). -/
def IMP_EVT : Nat := 0x200c
def IMP_EVT_ABORT : Field := ⟨IMP_EVT, 3, 1⟩
def IMP_EVT_DONE : Field := ⟨IMP_EVT, 2, 1⟩
def IMP_EVT_PASS : Field := ⟨IMP_EVT, 1, 1⟩
def IMP_EVT_STEP : Field := ⟨IMP_EVT, 0, 1⟩
/-- Address of `IMP_EVTEN` (R216). -/
def IMP_EVTEN : Nat := 0x2010
def IMP_EVTEN_EN : Field := ⟨IMP_EVTEN, 0, 4⟩
/-- Address of `IMP_T0L` (R217). -/
def IMP_T0L : Nat := 0x2014
def IMP_T0L_T0LO : Field := ⟨IMP_T0L, 0, 32⟩
/-- Address of `IMP_T0H` (R217). -/
def IMP_T0H : Nat := 0x2018
def IMP_T0H_T0HI : Field := ⟨IMP_T0H, 0, 32⟩
/-- Address of `IMP_PAIRCFG` (R217). -/
def IMP_PAIRCFG : Nat := 0x201c
def IMP_PAIRCFG_AHOP : Field := ⟨IMP_PAIRCFG, 24, 5⟩
def IMP_PAIRCFG_PHOP : Field := ⟨IMP_PAIRCFG, 16, 5⟩
def IMP_PAIRCFG_PARTNER : Field := ⟨IMP_PAIRCFG, 0, 10⟩
/-- Address of `IMP_PROUTE` (R217). -/
def IMP_PROUTE : Nat := 0x2020
def IMP_PROUTE_ROUTE : Field := ⟨IMP_PROUTE, 0, 32⟩
/-- Address of `IMP_AROUTE` (R217). -/
def IMP_AROUTE : Nat := 0x2024
def IMP_AROUTE_ROUTE : Field := ⟨IMP_AROUTE, 0, 32⟩
/-- Address of `IMP_RSHUNT` (R217). -/
def IMP_RSHUNT : Nat := 0x2028
def IMP_RSHUNT_RSH : Field := ⟨IMP_RSHUNT, 0, 32⟩
/-- Address of `IMP_PAIRSTAT` (R218). -/
def IMP_PAIRSTAT : Nat := 0x202c
def IMP_PAIRSTAT_PRUN : Field := ⟨IMP_PAIRSTAT, 24, 8⟩
def IMP_PAIRSTAT_PPOINT : Field := ⟨IMP_PAIRSTAT, 19, 5⟩
def IMP_PAIRSTAT_PSTATE : Field := ⟨IMP_PAIRSTAT, 16, 3⟩
def IMP_PAIRSTAT_MISSED : Field := ⟨IMP_PAIRSTAT, 8, 8⟩
def IMP_PAIRSTAT_TICKOK : Field := ⟨IMP_PAIRSTAT, 0, 1⟩
/-- Address of `IMP_SNAP` (R218). -/
def IMP_SNAP : Nat := 0x2030
def IMP_SNAP_RUN : Field := ⟨IMP_SNAP, 24, 8⟩
def IMP_SNAP_POINT : Field := ⟨IMP_SNAP, 19, 5⟩
def IMP_SNAP_STATE : Field := ⟨IMP_SNAP, 16, 3⟩
def IMP_SNAP_TURN : Field := ⟨IMP_SNAP, 0, 16⟩
/-- Address of `CPB_CFG` (R248). -/
def CPB_CFG : Nat := 0x2800
def CPB_CFG_DEB : Field := ⟨CPB_CFG, 8, 2⟩
def CPB_CFG_HYST : Field := ⟨CPB_CFG, 4, 2⟩
def CPB_CFG_UVEN : Field := ⟨CPB_CFG, 1, 1⟩
def CPB_CFG_OVEN : Field := ⟨CPB_CFG, 0, 1⟩
/-- Address of `CPB_OVTH` (R249). -/
def CPB_OVTH : Nat := 0x2804
def CPB_OVTH_TH : Field := ⟨CPB_OVTH, 0, 11⟩
/-- Address of `CPB_UVTH` (R249). -/
def CPB_UVTH : Nat := 0x2808
def CPB_UVTH_TH : Field := ⟨CPB_UVTH, 0, 11⟩
/-- Address of `CPB_BALCFG` (R251). -/
def CPB_BALCFG : Nat := 0x2824
def CPB_BALCFG_TLIM : Field := ⟨CPB_BALCFG, 20, 2⟩
def CPB_BALCFG_MAXON : Field := ⟨CPB_BALCFG, 8, 4⟩
def CPB_BALCFG_DUTY : Field := ⟨CPB_BALCFG, 0, 6⟩
/-- Address of `CPB_BALSTAT` (R251). -/
def CPB_BALSTAT : Nat := 0x2828
def CPB_BALSTAT_THROT : Field := ⟨CPB_BALSTAT, 31, 1⟩
def CPB_BALSTAT_TOFF : Field := ⟨CPB_BALSTAT, 30, 1⟩
def CPB_BALSTAT_HOLD : Field := ⟨CPB_BALSTAT, 25, 5⟩
def CPB_BALSTAT_ON : Field := ⟨CPB_BALSTAT, 1, 24⟩
/-- Address of `CPB_CLTCFG` (R252). -/
def CPB_CLTCFG : Nat := 0x2838
def CPB_CLTCFG_PERIOD : Field := ⟨CPB_CLTCFG, 0, 10⟩
/-- Address of `CPB_CLTSTAT` (R252). -/
def CPB_CLTSTAT : Nat := 0x283c
def CPB_CLTSTAT_CNT : Field := ⟨CPB_CLTSTAT, 24, 8⟩
def CPB_CLTSTAT_CLOST : Field := ⟨CPB_CLTSTAT, 23, 1⟩
def CPB_CLTSTAT_LEFT : Field := ⟨CPB_CLTSTAT, 0, 10⟩
/-- Address of `CPB_FPCFG` (R253). -/
def CPB_FPCFG : Nat := 0x2840
def CPB_FPCFG_STUCKTO : Field := ⟨CPB_FPCFG, 8, 8⟩
def CPB_FPCFG_FORCE : Field := ⟨CPB_FPCFG, 1, 1⟩
def CPB_FPCFG_MODE : Field := ⟨CPB_FPCFG, 0, 1⟩
/-- Address of `CPB_FPSTAT` (R253). -/
def CPB_FPSTAT : Nat := 0x2844
def CPB_FPSTAT_LOSSCNT : Field := ⟨CPB_FPSTAT, 24, 8⟩
def CPB_FPSTAT_STUCK : Field := ⟨CPB_FPSTAT, 7, 1⟩
def CPB_FPSTAT_CAUSE : Field := ⟨CPB_FPSTAT, 4, 3⟩
def CPB_FPSTAT_RBERR : Field := ⟨CPB_FPSTAT, 2, 1⟩
def CPB_FPSTAT_TONE : Field := ⟨CPB_FPSTAT, 1, 1⟩
def CPB_FPSTAT_NBROK : Field := ⟨CPB_FPSTAT, 0, 1⟩
/-- Address of `CPB_EVT` (R254). -/
def CPB_EVT : Nat := 0x2848
def CPB_EVT_SWFLT : Field := ⟨CPB_EVT, 3, 1⟩
def CPB_EVT_NBR : Field := ⟨CPB_EVT, 2, 1⟩
def CPB_EVT_CLOST : Field := ⟨CPB_EVT, 1, 1⟩
def CPB_EVT_TRIP : Field := ⟨CPB_EVT, 0, 1⟩
/-- Address of `CPB_EVTEN` (R254). -/
def CPB_EVTEN : Nat := 0x284c
def CPB_EVTEN_EN : Field := ⟨CPB_EVTEN, 0, 4⟩
/-- Address of `CNV_CFG` (R292). -/
def CNV_CFG : Nat := 0x3000
def CNV_CFG_VSRC : Field := ⟨CNV_CFG, 4, 2⟩
def CNV_CFG_CLASS : Field := ⟨CNV_CFG, 0, 2⟩
/-- Address of `CNV_CMD` (R293). -/
def CNV_CMD : Nat := 0x3004
def CNV_CMD_LOADC : Field := ⟨CNV_CMD, 3, 1⟩
def CNV_CMD_CLRFLT : Field := ⟨CNV_CMD, 2, 1⟩
def CNV_CMD_STOP : Field := ⟨CNV_CMD, 1, 1⟩
def CNV_CMD_START : Field := ⟨CNV_CMD, 0, 1⟩
/-- Address of `CNV_STAT` (R295). -/
def CNV_STAT : Nat := 0x3008
def CNV_STAT_PHFEN : Field := ⟨CNV_STAT, 28, 4⟩
def CNV_STAT_ACT : Field := ⟨CNV_STAT, 24, 4⟩
def CNV_STAT_DEGR : Field := ⟨CNV_STAT, 23, 1⟩
def CNV_STAT_SYNCSTK : Field := ⟨CNV_STAT, 22, 1⟩
def CNV_STAT_SYNCLK : Field := ⟨CNV_STAT, 21, 1⟩
def CNV_STAT_BRK : Field := ⟨CNV_STAT, 20, 1⟩
def CNV_STAT_LEVEL : Field := ⟨CNV_STAT, 18, 2⟩
def CNV_STAT_VSELACT : Field := ⟨CNV_STAT, 16, 2⟩
def CNV_STAT_ERR : Field := ⟨CNV_STAT, 8, 4⟩
def CNV_STAT_STATE : Field := ⟨CNV_STAT, 0, 4⟩
/-- Address of `CNV_PHCFG` (R296). -/
def CNV_PHCFG : Nat := 0x300c
def CNV_PHCFG_FSW : Field := ⟨CNV_PHCFG, 16, 10⟩
def CNV_PHCFG_CPL : Field := ⟨CNV_PHCFG, 8, 1⟩
def CNV_PHCFG_PHEN : Field := ⟨CNV_PHCFG, 0, 4⟩
/-- Address of `CNV_DT` (R296). -/
def CNV_DT : Nat := 0x3010
def CNV_DT_DTC : Field := ⟨CNV_DT, 24, 8⟩
def CNV_DT_DTN : Field := ⟨CNV_DT, 16, 8⟩
def CNV_DT_DTW : Field := ⟨CNV_DT, 8, 8⟩
def CNV_DT_DTH : Field := ⟨CNV_DT, 0, 8⟩
/-- Address of `CNV_SSCFG` (R296). -/
def CNV_SSCFG : Nat := 0x3014
def CNV_SSCFG_HICNT : Field := ⟨CNV_SSCFG, 24, 4⟩
def CNV_SSCFG_SSBAND : Field := ⟨CNV_SSCFG, 12, 4⟩
def CNV_SSCFG_TSS : Field := ⟨CNV_SSCFG, 0, 9⟩
/-- Address of `CNV_ILIM` (R296). -/
def CNV_ILIM : Nat := 0x3018
def CNV_ILIM_INEG : Field := ⟨CNV_ILIM, 16, 10⟩
def CNV_ILIM_IPK : Field := ⟨CNV_ILIM, 0, 10⟩
/-- Address of `CNV_IAVG` (R296). -/
def CNV_IAVG : Nat := 0x301c
def CNV_IAVG_IAVG : Field := ⟨CNV_IAVG, 0, 10⟩
/-- Address of `CNV_CSGn` (R296). -/
def CNV_CSG (n : Nat) : Nat := 0x3020 + 0x4 * n
def CNV_CSG_CSG (n : Nat) : Field := ⟨CNV_CSG n, 0, 16⟩
/-- Address of `CNV_VTGTk` (R297). -/
def CNV_VTGT (n : Nat) : Nat := 0x3030 + 0x4 * n
def CNV_VTGT_VT (n : Nat) : Field := ⟨CNV_VTGT n, 0, 16⟩
/-- Address of `CNV_VSELSW` (R297). -/
def CNV_VSELSW : Nat := 0x3040
def CNV_VSELSW_CODE : Field := ⟨CNV_VSELSW, 0, 2⟩
/-- Address of `CNV_BUS` (R297). -/
def CNV_BUS : Nat := 0x3044
def CNV_BUS_BUSMIN : Field := ⟨CNV_BUS, 16, 16⟩
def CNV_BUS_UVP : Field := ⟨CNV_BUS, 8, 8⟩
def CNV_BUS_OVP : Field := ⟨CNV_BUS, 0, 8⟩
/-- Address of `CNV_DROOP` (R297). -/
def CNV_DROOP : Nat := 0x3048
def CNV_DROOP_DROOP : Field := ⟨CNV_DROOP, 0, 16⟩
/-- Address of `CNV_LL` (R298). -/
def CNV_LL : Nat := 0x304c
def CNV_LL_SHED2 : Field := ⟨CNV_LL, 24, 8⟩
def CNV_LL_SHED1 : Field := ⟨CNV_LL, 16, 8⟩
def CNV_LL_BRKEN : Field := ⟨CNV_LL, 3, 1⟩
def CNV_LL_SHEDEN : Field := ⟨CNV_LL, 1, 1⟩
def CNV_LL_DEMEN : Field := ⟨CNV_LL, 0, 1⟩
/-- Address of `CNV_LSD` (R298). -/
def CNV_LSD : Nat := 0x3050
def CNV_LSD_LSI : Field := ⟨CNV_LSD, 8, 8⟩
def CNV_LSD_LSV : Field := ⟨CNV_LSD, 0, 8⟩
/-- Address of `CNV_SYNC` (R298). -/
def CNV_SYNC : Nat := 0x3054
def CNV_SYNC_STUCKTO : Field := ⟨CNV_SYNC, 16, 8⟩
def CNV_SYNC_PHOFF : Field := ⟨CNV_SYNC, 8, 8⟩
def CNV_SYNC_SYNCEN : Field := ⟨CNV_SYNC, 0, 1⟩
/-- Address of `CNV_TRIMCFG` (R298). -/
def CNV_TRIMCFG : Nat := 0x3058
def CNV_TRIMCFG_TMAX : Field := ⟨CNV_TRIMCFG, 8, 8⟩
def CNV_TRIMCFG_EN : Field := ⟨CNV_TRIMCFG, 0, 1⟩
/-- Address of `CNV_TRIMST` (R298). -/
def CNV_TRIMST : Nat := 0x305c
def CNV_TRIMST_TRIM : Field := ⟨CNV_TRIMST, 0, 32⟩
/-- Address of `CNV_DLIM` (R298). -/
def CNV_DLIM : Nat := 0x3060
def CNV_DLIM_DMAX : Field := ⟨CNV_DLIM, 16, 16⟩
def CNV_DLIM_DMIN : Field := ⟨CNV_DLIM, 0, 16⟩
/-- Address of `CNV_PHFLT` (R299). -/
def CNV_PHFLT : Nat := 0x3070
def CNV_PHFLT_SHS : Field := ⟨CNV_PHFLT, 12, 4⟩
def CNV_PHFLT_RB : Field := ⟨CNV_PHFLT, 8, 4⟩
def CNV_PHFLT_SENSE : Field := ⟨CNV_PHFLT, 4, 4⟩
def CNV_PHFLT_IMB : Field := ⟨CNV_PHFLT, 0, 4⟩
/-- Address of `CNV_EVTCNT` (R299). -/
def CNV_EVTCNT : Nat := 0x3074
def CNV_EVTCNT_SYNCLOSS : Field := ⟨CNV_EVTCNT, 24, 8⟩
def CNV_EVTCNT_BRAKE : Field := ⟨CNV_EVTCNT, 16, 8⟩
def CNV_EVTCNT_SHEDABT : Field := ⟨CNV_EVTCNT, 8, 8⟩
def CNV_EVTCNT_HICCUP : Field := ⟨CNV_EVTCNT, 0, 8⟩
/-- Address of `CNV_EVT` (R299). -/
def CNV_EVT : Nat := 0x3078
def CNV_EVT_SYNC : Field := ⟨CNV_EVT, 5, 1⟩
def CNV_EVT_SHEDABT : Field := ⟨CNV_EVT, 4, 1⟩
def CNV_EVT_CROWBAR : Field := ⟨CNV_EVT, 3, 1⟩
def CNV_EVT_FAULT : Field := ⟨CNV_EVT, 2, 1⟩
def CNV_EVT_STOP : Field := ⟨CNV_EVT, 1, 1⟩
def CNV_EVT_RUN : Field := ⟨CNV_EVT, 0, 1⟩
/-- Address of `CNV_EVTEN` (R299). -/
def CNV_EVTEN : Nat := 0x307c
def CNV_EVTEN_EN : Field := ⟨CNV_EVTEN, 0, 6⟩
/-- Address of `CTL_CFG` (R327). -/
def CTL_CFG : Nat := 0x3800
def CTL_CFG_CLZERO : Field := ⟨CTL_CFG, 7, 1⟩
def CTL_CFG_VFFEN : Field := ⟨CTL_CFG, 6, 1⟩
def CTL_CFG_AFFEN : Field := ⟨CTL_CFG, 5, 1⟩
def CTL_CFG_LUTEN : Field := ⟨CTL_CFG, 4, 1⟩
def CTL_CFG_RATE : Field := ⟨CTL_CFG, 0, 2⟩
/-- Address of `CTL_CMD` (R328). -/
def CTL_CMD : Nat := 0x3804
def CTL_CMD_LOADLUT : Field := ⟨CTL_CMD, 0, 1⟩
/-- Address of `CTL_STAT` (R329). -/
def CTL_STAT : Nat := 0x3808
def CTL_STAT_FEN : Field := ⟨CTL_STAT, 7, 1⟩
def CTL_STAT_DEGR : Field := ⟨CTL_STAT, 6, 1⟩
def CTL_STAT_LUTPEND : Field := ⟨CTL_STAT, 5, 1⟩
def CTL_STAT_TGTCLP : Field := ⟨CTL_STAT, 4, 1⟩
def CTL_STAT_CLIP : Field := ⟨CTL_STAT, 3, 1⟩
def CTL_STAT_PMOVE : Field := ⟨CTL_STAT, 2, 1⟩
def CTL_STAT_MODE : Field := ⟨CTL_STAT, 0, 2⟩
/-- Address of `CTL_TGT` (R330). -/
def CTL_TGT : Nat := 0x380c
def CTL_TGT_TGT : Field := ⟨CTL_TGT, 0, 16⟩
/-- Address of `CTL_SMAX` (R330). -/
def CTL_SMAX : Nat := 0x3810
def CTL_SMAX_SMAX : Field := ⟨CTL_SMAX, 0, 16⟩
/-- Address of `CTL_AMAX` (R330). -/
def CTL_AMAX : Nat := 0x3814
def CTL_AMAX_AMAX : Field := ⟨CTL_AMAX, 0, 16⟩
/-- Address of `CTL_JMAX` (R330). -/
def CTL_JMAX : Nat := 0x3818
def CTL_JMAX_JMAX : Field := ⟨CTL_JMAX, 0, 16⟩
/-- Address of `CTL_KP` (R330). -/
def CTL_KP : Nat := 0x381c
def CTL_KP_KP : Field := ⟨CTL_KP, 0, 16⟩
/-- Address of `CTL_KI` (R330). -/
def CTL_KI : Nat := 0x3820
def CTL_KI_KI : Field := ⟨CTL_KI, 0, 16⟩
/-- Address of `CTL_KAFF` (R330). -/
def CTL_KAFF : Nat := 0x3824
def CTL_KAFF_KAFF : Field := ⟨CTL_KAFF, 0, 16⟩
/-- Address of `CTL_LIM` (R330). -/
def CTL_LIM : Nat := 0x3828
def CTL_LIM_NEG : Field := ⟨CTL_LIM, 16, 10⟩
def CTL_LIM_POS : Field := ⟨CTL_LIM, 0, 10⟩
/-- Address of `CTL_LUTCFG` (R330). -/
def CTL_LUTCFG : Nat := 0x382c
def CTL_LUTCFG_NENT : Field := ⟨CTL_LUTCFG, 0, 7⟩
/-- Address of `CTL_TRK` (R330). -/
def CTL_TRK : Nat := 0x3830
def CTL_TRK_TRK : Field := ⟨CTL_TRK, 0, 8⟩
/-- Address of `CTL_SP` (R331). -/
def CTL_SP : Nat := 0x3834
def CTL_SP_PROF : Field := ⟨CTL_SP, 16, 16⟩
def CTL_SP_OUT : Field := ⟨CTL_SP, 0, 16⟩
/-- Address of `CTL_PSTATE` (R331). -/
def CTL_PSTATE : Nat := 0x3838
def CTL_PSTATE_SLOPE : Field := ⟨CTL_PSTATE, 16, 16⟩
def CTL_PSTATE_ACC : Field := ⟨CTL_PSTATE, 0, 16⟩
/-- Address of `CTL_INTEG` (R331). -/
def CTL_INTEG : Nat := 0x383c
def CTL_INTEG_INTEG : Field := ⟨CTL_INTEG, 0, 16⟩
/-- Address of `CTL_DFF` (R331). -/
def CTL_DFF : Nat := 0x3840
def CTL_DFF_DFF : Field := ⟨CTL_DFF, 0, 16⟩
/-- Address of `CTL_VERR` (R331). -/
def CTL_VERR : Nat := 0x3844
def CTL_VERR_ERR : Field := ⟨CTL_VERR, 16, 16⟩
def CTL_VERR_GAIN : Field := ⟨CTL_VERR, 0, 16⟩
/-- Address of `CTL_CNT` (R331). -/
def CTL_CNT : Nat := 0x3850
def CTL_CNT_CLIPCNT : Field := ⟨CTL_CNT, 16, 16⟩
def CTL_CNT_TRKCNT : Field := ⟨CTL_CNT, 0, 16⟩
/-- Address of `CTL_SNAP` (R331). -/
def CTL_SNAP : Nat := 0x3854
def CTL_SNAP_PROF : Field := ⟨CTL_SNAP, 16, 16⟩
def CTL_SNAP_OUT : Field := ⟨CTL_SNAP, 0, 16⟩
/-- Address of `CTL_EVT` (R332). -/
def CTL_EVT : Nat := 0x3848
def CTL_EVT_CLTZERO : Field := ⟨CTL_EVT, 3, 1⟩
def CTL_EVT_TRACK : Field := ⟨CTL_EVT, 2, 1⟩
def CTL_EVT_CLIP : Field := ⟨CTL_EVT, 1, 1⟩
def CTL_EVT_ARRIVE : Field := ⟨CTL_EVT, 0, 1⟩
/-- Address of `CTL_EVTEN` (R332). -/
def CTL_EVTEN : Nat := 0x384c
def CTL_EVTEN_EN : Field := ⟨CTL_EVTEN, 0, 4⟩
/-- Address of `LNK_CFG` (R374). -/
def LNK_CFG : Nat := 0x4000
def LNK_CFG_ACKTO : Field := ⟨LNK_CFG, 16, 8⟩
def LNK_CFG_RETRYLIM : Field := ⟨LNK_CFG, 12, 4⟩
def LNK_CFG_CUTEN : Field := ⟨LNK_CFG, 8, 1⟩
def LNK_CFG_LPITO : Field := ⟨LNK_CFG, 0, 4⟩
/-- Address of `LNK_STAT` (R375). -/
def LNK_STAT : Nat := 0x4004
def LNK_STAT_LEGACY : Field := ⟨LNK_STAT, 8, 1⟩
def LNK_STAT_UP : Field := ⟨LNK_STAT, 0, 4⟩
/-- Address of `LNK_EQCFG` (R376). -/
def LNK_EQCFG : Nat := 0x4008
def LNK_EQCFG_HOT : Field := ⟨LNK_EQCFG, 24, 8⟩
def LNK_EQCFG_WARM : Field := ⟨LNK_EQCFG, 16, 8⟩
def LNK_EQCFG_NORMAL : Field := ⟨LNK_EQCFG, 8, 8⟩
def LNK_EQCFG_COLD : Field := ⟨LNK_EQCFG, 0, 8⟩
/-- Address of `LNK_EVT` (R377). -/
def LNK_EVT : Nat := 0x400c
def LNK_EVT_TRFAIL : Field := ⟨LNK_EVT, 8, 4⟩
def LNK_EVT_DOWN : Field := ⟨LNK_EVT, 4, 4⟩
def LNK_EVT_UP : Field := ⟨LNK_EVT, 0, 4⟩
/-- Address of `LNK_EVTEN` (R377). -/
def LNK_EVTEN : Nat := 0x4010
def LNK_EVTEN_EN : Field := ⟨LNK_EVTEN, 0, 12⟩
/-- Address of `LNK_SNAP` (R378). -/
def LNK_SNAP : Nat := 0x4014
def LNK_SNAP_ERRSUM : Field := ⟨LNK_SNAP, 16, 16⟩
def LNK_SNAP_UP : Field := ⟨LNK_SNAP, 0, 4⟩
/-- Address of `LNK_PCFGn` (R379). -/
def LNK_PCFG (n : Nat) : Nat := 0x4100 + 0x40 * n
def LNK_PCFG_EQVAL (n : Nat) : Field := ⟨LNK_PCFG n, 8, 8⟩
def LNK_PCFG_EQOVR (n : Nat) : Field := ⟨LNK_PCFG n, 7, 1⟩
def LNK_PCFG_SLEW (n : Nat) : Field := ⟨LNK_PCFG n, 4, 2⟩
def LNK_PCFG_LPIEN (n : Nat) : Field := ⟨LNK_PCFG n, 2, 1⟩
def LNK_PCFG_WAKETX (n : Nat) : Field := ⟨LNK_PCFG n, 1, 1⟩
def LNK_PCFG_EN (n : Nat) : Field := ⟨LNK_PCFG n, 0, 1⟩
/-- Address of `LNK_PCMDn` (R380). -/
def LNK_PCMD (n : Nat) : Nat := 0x4104 + 0x40 * n
def LNK_PCMD_WAKE (n : Nat) : Field := ⟨LNK_PCMD n, 1, 1⟩
def LNK_PCMD_RETRAIN (n : Nat) : Field := ⟨LNK_PCMD n, 0, 1⟩
/-- Address of `LNK_PSTATn` (R381). -/
def LNK_PSTAT (n : Nat) : Nat := 0x4108 + 0x40 * n
def LNK_PSTAT_PEPOCH (n : Nat) : Field := ⟨LNK_PSTAT n, 24, 8⟩
def LNK_PSTAT_PPORT (n : Nat) : Field := ⟨LNK_PSTAT n, 22, 2⟩
def LNK_PSTAT_TRCAUSE (n : Nat) : Field := ⟨LNK_PSTAT n, 16, 4⟩
def LNK_PSTAT_EQACT (n : Nat) : Field := ⟨LNK_PSTAT n, 8, 8⟩
def LNK_PSTAT_LOCK (n : Nat) : Field := ⟨LNK_PSTAT n, 4, 1⟩
def LNK_PSTAT_STATE (n : Nat) : Field := ⟨LNK_PSTAT n, 0, 3⟩
/-- Address of `LNK_ERRAn` (R382). -/
def LNK_ERRA (n : Nat) : Nat := 0x410c + 0x40 * n
def LNK_ERRA_HCRC (n : Nat) : Field := ⟨LNK_ERRA n, 16, 16⟩
def LNK_ERRA_PCRC (n : Nat) : Field := ⟨LNK_ERRA n, 0, 16⟩
/-- Address of `LNK_ERRBn` (R382). -/
def LNK_ERRB (n : Nat) : Nat := 0x4110 + 0x40 * n
def LNK_ERRB_CODE (n : Nat) : Field := ⟨LNK_ERRB n, 16, 16⟩
def LNK_ERRB_FRAMING (n : Nat) : Field := ⟨LNK_ERRB n, 0, 16⟩
/-- Address of `LNK_RTYn` (R382). -/
def LNK_RTY (n : Nat) : Nat := 0x4114 + 0x40 * n
def LNK_RTY_REPLAY (n : Nat) : Field := ⟨LNK_RTY n, 16, 16⟩
def LNK_RTY_TIMEOUT (n : Nat) : Field := ⟨LNK_RTY n, 8, 8⟩
def LNK_RTY_NAKTX (n : Nat) : Field := ⟨LNK_RTY n, 0, 8⟩
/-- Address of `LNK_LOSSn` (R382). -/
def LNK_LOSS (n : Nat) : Nat := 0x4118 + 0x40 * n
def LNK_LOSS_LOSSCNT (n : Nat) : Field := ⟨LNK_LOSS n, 24, 8⟩
def LNK_LOSS_LASTCAUSE (n : Nat) : Field := ⟨LNK_LOSS n, 20, 4⟩
def LNK_LOSS_TRFAIL (n : Nat) : Field := ⟨LNK_LOSS n, 8, 8⟩
/-- Address of `LNK_TXFn` (R382). -/
def LNK_TXF (n : Nat) : Nat := 0x411c + 0x40 * n
def LNK_TXF_TXF (n : Nat) : Field := ⟨LNK_TXF n, 0, 32⟩
/-- Address of `LNK_RXFn` (R382). -/
def LNK_RXF (n : Nat) : Nat := 0x4120 + 0x40 * n
def LNK_RXF_RXF (n : Nat) : Field := ⟨LNK_RXF n, 0, 32⟩
/-- Address of `LNK_RBUFn` (R383). -/
def LNK_RBUF (n : Nat) : Nat := 0x4124 + 0x40 * n
def LNK_RBUF_NOW (n : Nat) : Field := ⟨LNK_RBUF n, 16, 6⟩
def LNK_RBUF_HWM (n : Nat) : Field := ⟨LNK_RBUF n, 8, 6⟩
/-- Address of `FAB_CFG` (R421). -/
def FAB_CFG : Nat := 0x4800
def FAB_CFG_BHOP : Field := ⟨FAB_CFG, 16, 5⟩
def FAB_CFG_EVGW : Field := ⟨FAB_CFG, 0, 2⟩
/-- Address of `FAB_ID` (R421). -/
def FAB_ID : Nat := 0x4804
def FAB_ID_VALID : Field := ⟨FAB_ID, 15, 1⟩
def FAB_ID_ID : Field := ⟨FAB_ID, 0, 10⟩
/-- Address of `FAB_UID0` (R421). -/
def FAB_UID0 : Nat := 0x4808
def FAB_UID0_UID : Field := ⟨FAB_UID0, 0, 32⟩
/-- Address of `FAB_UID1` (R421). -/
def FAB_UID1 : Nat := 0x480c
def FAB_UID1_UID : Field := ⟨FAB_UID1, 0, 32⟩
/-- Address of `FAB_HOOF` (R421). -/
def FAB_HOOF : Nat := 0x4810
def FAB_HOOF_RPT : Field := ⟨FAB_HOOF, 0, 8⟩
/-- Address of `FAB_SCFG` (R421). -/
def FAB_SCFG : Nat := 0x4814
def FAB_SCFG_REWIND : Field := ⟨FAB_SCFG, 0, 8⟩
/-- Address of `FAB_ARB` (R421). -/
def FAB_ARB : Nat := 0x4818
def FAB_ARB_DWM : Field := ⟨FAB_ARB, 0, 6⟩
/-- Address of `FAB_TCFG` (R421). -/
def FAB_TCFG : Nat := 0x481c
def FAB_TCFG_DLYTH : Field := ⟨FAB_TCFG, 8, 8⟩
def FAB_TCFG_TMO : Field := ⟨FAB_TCFG, 0, 8⟩
/-- Address of `FAB_ENCFG` (R421). -/
def FAB_ENCFG : Nat := 0x4820
def FAB_ENCFG_HOLD : Field := ⟨FAB_ENCFG, 8, 8⟩
def FAB_ENCFG_AUTO : Field := ⟨FAB_ENCFG, 0, 1⟩
/-- Address of `FAB_ENCMD` (R421). -/
def FAB_ENCMD : Nat := 0x4824
def FAB_ENCMD_OP : Field := ⟨FAB_ENCMD, 0, 2⟩
/-- Address of `FAB_ENSTAT` (R422). -/
def FAB_ENSTAT : Nat := 0x4828
def FAB_ENSTAT_RESULT : Field := ⟨FAB_ENSTAT, 24, 8⟩
def FAB_ENSTAT_RUNNING : Field := ⟨FAB_ENSTAT, 15, 1⟩
def FAB_ENSTAT_DIFF : Field := ⟨FAB_ENSTAT, 14, 1⟩
def FAB_ENSTAT_NOALT : Field := ⟨FAB_ENSTAT, 13, 1⟩
def FAB_ENSTAT_NODES : Field := ⟨FAB_ENSTAT, 0, 11⟩
/-- Address of `FAB_PNODE01` (R422). -/
def FAB_PNODE01 : Nat := 0x4830
def FAB_PNODE01_V1 : Field := ⟨FAB_PNODE01, 31, 1⟩
def FAB_PNODE01_ID1 : Field := ⟨FAB_PNODE01, 16, 10⟩
def FAB_PNODE01_V0 : Field := ⟨FAB_PNODE01, 15, 1⟩
def FAB_PNODE01_ID0 : Field := ⟨FAB_PNODE01, 0, 10⟩
/-- Address of `FAB_PNODE23` (R422). -/
def FAB_PNODE23 : Nat := 0x4834
def FAB_PNODE23_V3 : Field := ⟨FAB_PNODE23, 31, 1⟩
def FAB_PNODE23_ID3 : Field := ⟨FAB_PNODE23, 16, 10⟩
def FAB_PNODE23_V2 : Field := ⟨FAB_PNODE23, 15, 1⟩
def FAB_PNODE23_ID2 : Field := ⟨FAB_PNODE23, 0, 10⟩
/-- Address of `FAB_ERR` (R422). -/
def FAB_ERR : Nat := 0x4838
def FAB_ERR_LOOP : Field := ⟨FAB_ERR, 24, 8⟩
def FAB_ERR_NOPORT : Field := ⟨FAB_ERR, 16, 8⟩
def FAB_ERR_MISDELIV : Field := ⟨FAB_ERR, 8, 8⟩
def FAB_ERR_HOPERR : Field := ⟨FAB_ERR, 0, 8⟩
/-- Address of `FAB_LATE` (R422). -/
def FAB_LATE : Nat := 0x483c
def FAB_LATE_LATE : Field := ⟨FAB_LATE, 16, 16⟩
def FAB_LATE_NOTAG : Field := ⟨FAB_LATE, 0, 16⟩
/-- Address of `FAB_FOCNT` (R422). -/
def FAB_FOCNT : Nat := 0x48c0
def FAB_FOCNT_REISSUE : Field := ⟨FAB_FOCNT, 16, 16⟩
def FAB_FOCNT_SWITCH : Field := ⟨FAB_FOCNT, 0, 16⟩
/-- Address of `FAB_EVT` (R422). -/
def FAB_EVT : Nat := 0x48c4
def FAB_EVT_EV : Field := ⟨FAB_EVT, 0, 5⟩
/-- Address of `FAB_EVTEN` (R422). -/
def FAB_EVTEN : Nat := 0x48c8
def FAB_EVTEN_EN : Field := ⟨FAB_EVTEN, 0, 5⟩
/-- Address of `FAB_SNAP` (R422). -/
def FAB_SNAP : Nat := 0x48cc
def FAB_SNAP_SWITCH : Field := ⟨FAB_SNAP, 16, 16⟩
def FAB_SNAP_USE : Field := ⟨FAB_SNAP, 0, 2⟩
/-- Address of `FAB_DROP` (R422). -/
def FAB_DROP : Nat := 0x48d0
def FAB_DROP_EVDROP : Field := ⟨FAB_DROP, 16, 16⟩
def FAB_DROP_QFULL : Field := ⟨FAB_DROP, 0, 16⟩
/-- Address of `FAB_HOMEk_PROUTE` (R423). -/
def FAB_HOME_PROUTE (n : Nat) : Nat := 0x4840 + 0x40 * n
def FAB_HOME_PROUTE_ROUTE (n : Nat) : Field := ⟨FAB_HOME_PROUTE n, 0, 32⟩
/-- Address of `FAB_HOMEk_AROUTE` (R423). -/
def FAB_HOME_AROUTE (n : Nat) : Nat := 0x4844 + 0x40 * n
def FAB_HOME_AROUTE_ROUTE (n : Nat) : Field := ⟨FAB_HOME_AROUTE n, 0, 32⟩
/-- Address of `FAB_HOMEk_HCTL` (R423). -/
def FAB_HOME_HCTL (n : Nat) : Nat := 0x4848 + 0x40 * n
def FAB_HOME_HCTL_VALID (n : Nat) : Field := ⟨FAB_HOME_HCTL n, 31, 1⟩
def FAB_HOME_HCTL_GWID (n : Nat) : Field := ⟨FAB_HOME_HCTL n, 20, 10⟩
def FAB_HOME_HCTL_AFAIL (n : Nat) : Field := ⟨FAB_HOME_HCTL n, 19, 1⟩
def FAB_HOME_HCTL_PFAIL (n : Nat) : Field := ⟨FAB_HOME_HCTL n, 18, 1⟩
def FAB_HOME_HCTL_USE (n : Nat) : Field := ⟨FAB_HOME_HCTL n, 16, 1⟩
def FAB_HOME_HCTL_AHOP (n : Nat) : Field := ⟨FAB_HOME_HCTL n, 8, 5⟩
def FAB_HOME_HCTL_PHOP (n : Nat) : Field := ⟨FAB_HOME_HCTL n, 0, 5⟩
/-- Address of `FAB_HOMEk_PLIST0` (R423). -/
def FAB_HOME_PLIST0 (n : Nat) : Nat := 0x4850 + 0x40 * n
def FAB_HOME_PLIST0_LIST (n : Nat) : Field := ⟨FAB_HOME_PLIST0 n, 0, 32⟩
/-- Address of `FAB_HOMEk_PLIST1` (R423). -/
def FAB_HOME_PLIST1 (n : Nat) : Nat := 0x4854 + 0x40 * n
def FAB_HOME_PLIST1_LIST (n : Nat) : Field := ⟨FAB_HOME_PLIST1 n, 0, 32⟩
/-- Address of `FAB_HOMEk_PLIST2` (R423). -/
def FAB_HOME_PLIST2 (n : Nat) : Nat := 0x4858 + 0x40 * n
def FAB_HOME_PLIST2_LIST (n : Nat) : Field := ⟨FAB_HOME_PLIST2 n, 0, 32⟩
/-- Address of `FAB_HOMEk_PLIST3` (R423). -/
def FAB_HOME_PLIST3 (n : Nat) : Nat := 0x485c + 0x40 * n
def FAB_HOME_PLIST3_LIST (n : Nat) : Field := ⟨FAB_HOME_PLIST3 n, 0, 32⟩
/-- Address of `FAB_HOMEk_PLIST4` (R423). -/
def FAB_HOME_PLIST4 (n : Nat) : Nat := 0x4860 + 0x40 * n
def FAB_HOME_PLIST4_LIST (n : Nat) : Field := ⟨FAB_HOME_PLIST4 n, 0, 32⟩
/-- Address of `FAB_HOMEk_ALIST0` (R423). -/
def FAB_HOME_ALIST0 (n : Nat) : Nat := 0x4864 + 0x40 * n
def FAB_HOME_ALIST0_LIST (n : Nat) : Field := ⟨FAB_HOME_ALIST0 n, 0, 32⟩
/-- Address of `FAB_HOMEk_ALIST1` (R423). -/
def FAB_HOME_ALIST1 (n : Nat) : Nat := 0x4868 + 0x40 * n
def FAB_HOME_ALIST1_LIST (n : Nat) : Field := ⟨FAB_HOME_ALIST1 n, 0, 32⟩
/-- Address of `FAB_HOMEk_ALIST2` (R423). -/
def FAB_HOME_ALIST2 (n : Nat) : Nat := 0x486c + 0x40 * n
def FAB_HOME_ALIST2_LIST (n : Nat) : Field := ⟨FAB_HOME_ALIST2 n, 0, 32⟩
/-- Address of `FAB_HOMEk_ALIST3` (R423). -/
def FAB_HOME_ALIST3 (n : Nat) : Nat := 0x4870 + 0x40 * n
def FAB_HOME_ALIST3_LIST (n : Nat) : Field := ⟨FAB_HOME_ALIST3 n, 0, 32⟩
/-- Address of `FAB_HOMEk_ALIST4` (R423). -/
def FAB_HOME_ALIST4 (n : Nat) : Nat := 0x4874 + 0x40 * n
def FAB_HOME_ALIST4_LIST (n : Nat) : Field := ⟨FAB_HOME_ALIST4 n, 0, 32⟩
/-- Address of `HST_STAT` (R463). -/
def HST_STAT : Nat := 0x5000
def HST_STAT_LRATE : Field := ⟨HST_STAT, 16, 2⟩
def HST_STAT_L0 : Field := ⟨HST_STAT, 8, 1⟩
def HST_STAT_ROLE : Field := ⟨HST_STAT, 4, 1⟩
def HST_STAT_GEN : Field := ⟨HST_STAT, 0, 2⟩
/-- Address of `HST_ERR` (R463). -/
def HST_ERR : Nat := 0x5004
def HST_ERR_PAR : Field := ⟨HST_ERR, 7, 1⟩
def HST_ERR_CFGERR : Field := ⟨HST_ERR, 6, 1⟩
def HST_ERR_LINKDN : Field := ⟨HST_ERR, 5, 1⟩
def HST_ERR_AER : Field := ⟨HST_ERR, 4, 1⟩
def HST_ERR_DMAERR : Field := ⟨HST_ERR, 3, 1⟩
def HST_ERR_G2PCRC : Field := ⟨HST_ERR, 2, 1⟩
def HST_ERR_G2HCRC : Field := ⟨HST_ERR, 1, 1⟩
def HST_ERR_G1CRC : Field := ⟨HST_ERR, 0, 1⟩
/-- Address of `HST_WBL` (R463). -/
def HST_WBL : Nat := 0x5008
def HST_WBL_ADDR : Field := ⟨HST_WBL, 6, 26⟩
def HST_WBL_EN : Field := ⟨HST_WBL, 0, 1⟩
/-- Address of `HST_WBH` (R463). -/
def HST_WBH : Nat := 0x500c
def HST_WBH_ADDR : Field := ⟨HST_WBH, 0, 32⟩
/-- Address of `HST_WBCFG` (R463). -/
def HST_WBCFG : Nat := 0x5010
def HST_WBCFG_WBINT : Field := ⟨HST_WBCFG, 0, 8⟩
/-- Address of `HST_IRQ` (R463). -/
def HST_IRQ : Nat := 0x5014
def HST_IRQ_ERRIEN : Field := ⟨HST_IRQ, 3, 1⟩
def HST_IRQ_ERRVEC : Field := ⟨HST_IRQ, 0, 3⟩
/-- Address of `HST_DWM` (R463). -/
def HST_DWM : Nat := 0x5018
def HST_DWM_DWM : Field := ⟨HST_DWM, 0, 6⟩
/-- Address of `HST_G2CFG` (R463). -/
def HST_G2CFG : Nat := 0x501c
def HST_G2CFG_STRTH : Field := ⟨HST_G2CFG, 8, 8⟩
def HST_G2CFG_HTO : Field := ⟨HST_G2CFG, 0, 8⟩
/-- Address of `HST_CNT` (R463). -/
def HST_CNT : Nat := 0x5020
def HST_CNT_OTHER : Field := ⟨HST_CNT, 24, 8⟩
def HST_CNT_NOMAP : Field := ⟨HST_CNT, 16, 8⟩
def HST_CNT_FRERR : Field := ⟨HST_CNT, 0, 16⟩
/-- Address of `HST_OUT` (R463). -/
def HST_OUT : Nat := 0x5024
def HST_OUT_FETCHED : Field := ⟨HST_OUT, 16, 9⟩
def HST_OUT_TAGS : Field := ⟨HST_OUT, 0, 9⟩
/-- Address of `HST_SRMAP` (R464). -/
def HST_SRMAP (n : Nat) : Nat := 0x5080 + 0x4 * n
def HST_SRMAP_MAP (n : Nat) : Field := ⟨HST_SRMAP n, 0, 32⟩
/-- Address of `HST_RBASELr` (R465). -/
def HST_RBASEL (n : Nat) : Nat := 0x5100 + 0x20 * n
def HST_RBASEL_BASE (n : Nat) : Field := ⟨HST_RBASEL n, 0, 32⟩
/-- Address of `HST_RBASEHr` (R465). -/
def HST_RBASEH (n : Nat) : Nat := 0x5104 + 0x20 * n
def HST_RBASEH_BASE (n : Nat) : Field := ⟨HST_RBASEH n, 0, 32⟩
/-- Address of `HST_RSIZEr` (R465). -/
def HST_RSIZE (n : Nat) : Nat := 0x5108 + 0x20 * n
def HST_RSIZE_SIZE (n : Nat) : Field := ⟨HST_RSIZE n, 0, 17⟩
/-- Address of `HST_RCFGr` (R465). -/
def HST_RCFG (n : Nat) : Nat := 0x510c + 0x20 * n
def HST_RCFG_EN (n : Nat) : Field := ⟨HST_RCFG n, 31, 1⟩
def HST_RCFG_MODCNT (n : Nat) : Field := ⟨HST_RCFG n, 16, 8⟩
def HST_RCFG_VEC (n : Nat) : Field := ⟨HST_RCFG n, 8, 3⟩
def HST_RCFG_IEN (n : Nat) : Field := ⟨HST_RCFG n, 0, 1⟩
/-- Address of `HST_RMODr` (R465). -/
def HST_RMOD (n : Nat) : Nat := 0x5110 + 0x20 * n
def HST_RMOD_MODT (n : Nat) : Field := ⟨HST_RMOD n, 0, 16⟩
/-- Address of `HST_RDIDXr` (R465). -/
def HST_RDIDX (n : Nat) : Nat := 0x5114 + 0x20 * n
def HST_RDIDX_DIDX (n : Nat) : Field := ⟨HST_RDIDX n, 0, 20⟩
/-- Address of `HST_RLOSTr` (R465). -/
def HST_RLOST (n : Nat) : Nat := 0x5118 + 0x20 * n
def HST_RLOST_LOST (n : Nat) : Field := ⟨HST_RLOST n, 16, 16⟩
def HST_RLOST_IDLE (n : Nat) : Field := ⟨HST_RLOST n, 0, 1⟩
/-- Address of `HST_RDBr` (R465). -/
def HST_RDB (n : Nat) : Nat := 0x511c + 0x20 * n
def HST_RDB_IDX (n : Nat) : Field := ⟨HST_RDB n, 0, 20⟩
/-- Address of `TBS_CFG` (R485). -/
def TBS_CFG : Nat := 0x5800
def TBS_CFG_LEAD : Field := ⟨TBS_CFG, 24, 4⟩
def TBS_CFG_HOLDMAX : Field := ⟨TBS_CFG, 16, 8⟩
def TBS_CFG_SNAPTO : Field := ⟨TBS_CFG, 12, 4⟩
def TBS_CFG_SNAPSP : Field := ⟨TBS_CFG, 10, 2⟩
def TBS_CFG_MERGE : Field := ⟨TBS_CFG, 8, 2⟩
def TBS_CFG_OVRMODE : Field := ⟨TBS_CFG, 7, 1⟩
def TBS_CFG_FLTBC : Field := ⟨TBS_CFG, 6, 1⟩
def TBS_CFG_SNAPBC : Field := ⟨TBS_CFG, 5, 1⟩
def TBS_CFG_SNAPEN : Field := ⟨TBS_CFG, 4, 1⟩
def TBS_CFG_ROOT : Field := ⟨TBS_CFG, 0, 2⟩
/-- Address of `TBS_STAT` (R486). -/
def TBS_STAT : Nat := 0x5804
def TBS_STAT_ROOTCONF : Field := ⟨TBS_STAT, 15, 1⟩
def TBS_STAT_ISROOT : Field := ⟨TBS_STAT, 14, 1⟩
def TBS_STAT_PARENT : Field := ⟨TBS_STAT, 12, 2⟩
def TBS_STAT_HOPS : Field := ⟨TBS_STAT, 5, 5⟩
def TBS_STAT_STATE : Field := ⟨TBS_STAT, 0, 2⟩
/-- Address of `TBS_TIMEL` (R486). -/
def TBS_TIMEL : Nat := 0x5808
def TBS_TIMEL_TLO : Field := ⟨TBS_TIMEL, 0, 32⟩
/-- Address of `TBS_TIMEH` (R486). -/
def TBS_TIMEH : Nat := 0x580c
def TBS_TIMEH_THI : Field := ⟨TBS_TIMEH, 0, 32⟩
/-- Address of `TBS_SETL` (R486). -/
def TBS_SETL : Nat := 0x5810
def TBS_SETL_SLO : Field := ⟨TBS_SETL, 0, 32⟩
/-- Address of `TBS_SETH` (R486). -/
def TBS_SETH : Nat := 0x5814
def TBS_SETH_SHI : Field := ⟨TBS_SETH, 0, 32⟩
/-- Address of `TBS_TCMD` (R486). -/
def TBS_TCMD : Nat := 0x5818
def TBS_TCMD_STEP : Field := ⟨TBS_TCMD, 0, 1⟩
/-- Address of `TBS_RATE` (R486). -/
def TBS_RATE : Nat := 0x581c
def TBS_RATE_RATE : Field := ⟨TBS_RATE, 0, 32⟩
/-- Address of `TBS_OFFS` (R486). -/
def TBS_OFFS : Nat := 0x5820
def TBS_OFFS_OFFS : Field := ⟨TBS_OFFS, 0, 32⟩
/-- Address of `TBS_PDLY` (R486). -/
def TBS_PDLY : Nat := 0x5824
def TBS_PDLY_DLY : Field := ⟨TBS_PDLY, 0, 32⟩
/-- Address of `TBS_REINCMD` (R487). -/
def TBS_REINCMD : Nat := 0x5828
def TBS_REINCMD_BCAST : Field := ⟨TBS_REINCMD, 2, 1⟩
def TBS_REINCMD_IMM : Field := ⟨TBS_REINCMD, 1, 1⟩
def TBS_REINCMD_GO : Field := ⟨TBS_REINCMD, 0, 1⟩
/-- Address of `TBS_REINTL` (R487). -/
def TBS_REINTL : Nat := 0x582c
def TBS_REINTL_TLO : Field := ⟨TBS_REINTL, 0, 32⟩
/-- Address of `TBS_REINTH` (R487). -/
def TBS_REINTH : Nat := 0x5830
def TBS_REINTH_THI : Field := ⟨TBS_REINTH, 0, 32⟩
/-- Address of `TBS_RSTAT` (R487). -/
def TBS_RSTAT : Nat := 0x5834
def TBS_RSTAT_OVRCNT : Field := ⟨TBS_RSTAT, 24, 8⟩
def TBS_RSTAT_MERGECNT : Field := ⟨TBS_RSTAT, 16, 8⟩
def TBS_RSTAT_REMOTE : Field := ⟨TBS_RSTAT, 11, 1⟩
def TBS_RSTAT_SRC : Field := ⟨TBS_RSTAT, 8, 3⟩
def TBS_RSTAT_UNSYNC : Field := ⟨TBS_RSTAT, 4, 1⟩
def TBS_RSTAT_LATE : Field := ⟨TBS_RSTAT, 3, 1⟩
def TBS_RSTAT_OVR : Field := ⟨TBS_RSTAT, 2, 1⟩
def TBS_RSTAT_BUSY : Field := ⟨TBS_RSTAT, 1, 1⟩
def TBS_RSTAT_FULL : Field := ⟨TBS_RSTAT, 0, 1⟩
/-- Address of `TBS_RTIMEL` (R487). -/
def TBS_RTIMEL : Nat := 0x5838
def TBS_RTIMEL_TLO : Field := ⟨TBS_RTIMEL, 0, 32⟩
/-- Address of `TBS_RTIMEH` (R487). -/
def TBS_RTIMEH : Nat := 0x583c
def TBS_RTIMEH_THI : Field := ⟨TBS_RTIMEH, 0, 32⟩
/-- Address of `TBS_RID` (R487). -/
def TBS_RID : Nat := 0x5840
def TBS_RID_IDV : Field := ⟨TBS_RID, 31, 1⟩
def TBS_RID_ORIGIN : Field := ⟨TBS_RID, 16, 10⟩
def TBS_RID_COUNT : Field := ⟨TBS_RID, 8, 8⟩
def TBS_RID_LATEUS : Field := ⟨TBS_RID, 0, 8⟩
/-- Address of `TBS_PINSTAT` (R487). -/
def TBS_PINSTAT : Nat := 0x5844
def TBS_PINSTAT_SNAPIGN : Field := ⟨TBS_PINSTAT, 16, 16⟩
def TBS_PINSTAT_STUCK : Field := ⟨TBS_PINSTAT, 1, 1⟩
def TBS_PINSTAT_SNAPLVL : Field := ⟨TBS_PINSTAT, 0, 1⟩
/-- Address of `FLT_STAT` (R511). -/
def FLT_STAT : Nat := 0x6000
def FLT_STAT_SAFE : Field := ⟨FLT_STAT, 31, 1⟩
def FLT_STAT_FENCED : Field := ⟨FLT_STAT, 30, 1⟩
def FLT_STAT_RAIL : Field := ⟨FLT_STAT, 29, 1⟩
def FLT_STAT_NSEV : Field := ⟨FLT_STAT, 16, 8⟩
def FLT_STAT_NSTK : Field := ⟨FLT_STAT, 8, 8⟩
def FLT_STAT_LAST : Field := ⟨FLT_STAT, 0, 7⟩
/-- Address of `FLT_CMD` (R511). -/
def FLT_CMD : Nat := 0x6004
def FLT_CMD_KEY : Field := ⟨FLT_CMD, 8, 8⟩
def FLT_CMD_CLRALL : Field := ⟨FLT_CMD, 0, 1⟩
/-- Address of `FLT_FENCE0` (R511). -/
def FLT_FENCE0 : Nat := 0x6008
def FLT_FENCE0_HBANK : Field := ⟨FLT_FENCE0, 16, 2⟩
def FLT_FENCE0_PORT : Field := ⟨FLT_FENCE0, 12, 4⟩
def FLT_FENCE0_PHASE : Field := ⟨FLT_FENCE0, 8, 4⟩
def FLT_FENCE0_CUR : Field := ⟨FLT_FENCE0, 7, 1⟩
def FLT_FENCE0_HST : Field := ⟨FLT_FENCE0, 6, 1⟩
def FLT_FENCE0_CTL : Field := ⟨FLT_FENCE0, 5, 1⟩
def FLT_FENCE0_CNV : Field := ⟨FLT_FENCE0, 4, 1⟩
def FLT_FENCE0_BLEED : Field := ⟨FLT_FENCE0, 3, 1⟩
def FLT_FENCE0_IMP : Field := ⟨FLT_FENCE0, 2, 1⟩
def FLT_FENCE0_XB : Field := ⟨FLT_FENCE0, 1, 1⟩
def FLT_FENCE0_XA : Field := ⟨FLT_FENCE0, 0, 1⟩
/-- Address of `FLT_FENCE1` (R511). -/
def FLT_FENCE1 : Nat := 0x600c
def FLT_FENCE1_SCELL : Field := ⟨FLT_FENCE1, 1, 24⟩
/-- Address of `FLT_INJCTL` (R511). -/
def FLT_INJCTL : Nat := 0x6010
def FLT_INJCTL_MODE : Field := ⟨FLT_INJCTL, 24, 1⟩
def FLT_INJCTL_SRC : Field := ⟨FLT_INJCTL, 16, 7⟩
def FLT_INJCTL_DUR : Field := ⟨FLT_INJCTL, 8, 8⟩
def FLT_INJCTL_GO : Field := ⟨FLT_INJCTL, 0, 1⟩
/-- Address of `FLT_INJSTAT` (R511). -/
def FLT_INJSTAT : Nat := 0x6014
def FLT_INJSTAT_ACTIVE : Field := ⟨FLT_INJSTAT, 31, 1⟩
def FLT_INJSTAT_REAL : Field := ⟨FLT_INJSTAT, 30, 1⟩
def FLT_INJSTAT_SRC : Field := ⟨FLT_INJSTAT, 16, 7⟩
def FLT_INJSTAT_INJCNT : Field := ⟨FLT_INJSTAT, 0, 16⟩
/-- Address of `FLT_ALCNT` (R511). -/
def FLT_ALCNT : Nat := 0x6018
def FLT_ALCNT_ASEQ : Field := ⟨FLT_ALCNT, 16, 16⟩
def FLT_ALCNT_DROP : Field := ⟨FLT_ALCNT, 0, 16⟩
/-- Address of `FLT_CFGs` (R513). -/
def FLT_CFG (n : Nat) : Nat := 0x6100 + 0x4 * n
def FLT_CFG_REIN (n : Nat) : Field := ⟨FLT_CFG n, 15, 1⟩
def FLT_CFG_SVR (n : Nat) : Field := ⟨FLT_CFG n, 12, 3⟩
def FLT_CFG_WIN (n : Nat) : Field := ⟨FLT_CFG n, 8, 4⟩
def FLT_CFG_N (n : Nat) : Field := ⟨FLT_CFG n, 4, 4⟩
def FLT_CFG_EVI (n : Nat) : Field := ⟨FLT_CFG n, 1, 1⟩
def FLT_CFG_EN (n : Nat) : Field := ⟨FLT_CFG n, 0, 1⟩
/-- Address of `THM_CFG` (R529). -/
def THM_CFG : Nat := 0x6800
def THM_CFG_WARN : Field := ⟨THM_CFG, 16, 8⟩
def THM_CFG_GALEN : Field := ⟨THM_CFG, 0, 1⟩
/-- Address of `THM_STAT` (R529). -/
def THM_STAT : Nat := 0x6804
def THM_STAT_HOT : Field := ⟨THM_STAT, 16, 16⟩
def THM_STAT_GALLOP : Field := ⟨THM_STAT, 6, 1⟩
def THM_STAT_FAIL : Field := ⟨THM_STAT, 3, 3⟩
def THM_STAT_BAND : Field := ⟨THM_STAT, 0, 2⟩
/-- Address of `THM_DIEn` (R529). -/
def THM_DIE (n : Nat) : Nat := 0x6808 + 0x4 * n
def THM_DIE_TEMP (n : Nat) : Field := ⟨THM_DIE n, 0, 16⟩
/-- Address of `THM_NTCCFG` (R529). -/
def THM_NTCCFG : Nat := 0x6814
def THM_NTCCFG_NTCEN : Field := ⟨THM_NTCCFG, 16, 16⟩
/-- Address of `THM_NTCPAR` (R529). -/
def THM_NTCPAR : Nat := 0x6818
def THM_NTCPAR_BETA : Field := ⟨THM_NTCPAR, 16, 16⟩
def THM_NTCPAR_RATIO : Field := ⟨THM_NTCPAR, 0, 16⟩
/-- Address of `THM_NTCLIM` (R529). -/
def THM_NTCLIM : Nat := 0x681c
def THM_NTCLIM_HI : Field := ⟨THM_NTCLIM, 8, 8⟩
def THM_NTCLIM_LO : Field := ⟨THM_NTCLIM, 0, 8⟩
/-- Address of `THM_SDTL` (R529). -/
def THM_SDTL : Nat := 0x6820
def THM_SDTL_TLO : Field := ⟨THM_SDTL, 0, 32⟩
/-- Address of `THM_SDTH` (R529). -/
def THM_SDTH : Nat := 0x6824
def THM_SDTH_THI : Field := ⟨THM_SDTH, 0, 32⟩
/-- Address of `THM_SDINFO` (R529). -/
def THM_SDINFO : Nat := 0x6828
def THM_SDINFO_SDCNT : Field := ⟨THM_SDINFO, 24, 8⟩
def THM_SDINFO_UNSYNC : Field := ⟨THM_SDINFO, 23, 1⟩
def THM_SDINFO_SENSOR : Field := ⟨THM_SDINFO, 16, 2⟩
def THM_SDINFO_TEMP : Field := ⟨THM_SDINFO, 0, 16⟩
/-- Address of `THM_SNAP` (R529). -/
def THM_SNAP : Nat := 0x682c
def THM_SNAP_HOT : Field := ⟨THM_SNAP, 16, 16⟩
def THM_SNAP_BAND : Field := ⟨THM_SNAP, 0, 2⟩
/-- Address of `THM_LOGSTAT` (R529). -/
def THM_LOGSTAT : Nat := 0x6830
def THM_LOGSTAT_LSEQ : Field := ⟨THM_LOGSTAT, 16, 16⟩
def THM_LOGSTAT_SKIP : Field := ⟨THM_LOGSTAT, 8, 8⟩
/-- Address of `THM_LOGCMD` (R529). -/
def THM_LOGCMD : Nat := 0x6834
def THM_LOGCMD_KEY : Field := ⟨THM_LOGCMD, 8, 8⟩
def THM_LOGCMD_CLEAR : Field := ⟨THM_LOGCMD, 0, 1⟩
/-- Address of `THM_NTCk` (R529). -/
def THM_NTC (n : Nat) : Nat := 0x6840 + 0x4 * n
def THM_NTC_FAIL (n : Nat) : Field := ⟨THM_NTC n, 16, 1⟩
def THM_NTC_TEMP (n : Nat) : Field := ⟨THM_NTC n, 0, 16⟩
/-- Address of `CAL_CMD` (R548). -/
def CAL_CMD : Nat := 0x7000
def CAL_CMD_ARG : Field := ⟨CAL_CMD, 16, 3⟩
def CAL_CMD_KEY : Field := ⟨CAL_CMD, 8, 8⟩
def CAL_CMD_ACTION : Field := ⟨CAL_CMD, 0, 3⟩
/-- Address of `CAL_STAT` (R548). -/
def CAL_STAT : Nat := 0x7004
def CAL_STAT_ERRCH : Field := ⟨CAL_STAT, 24, 8⟩
def CAL_STAT_ERR : Field := ⟨CAL_STAT, 20, 4⟩
def CAL_STAT_PROF : Field := ⟨CAL_STAT, 13, 3⟩
def CAL_STAT_PROFBAD : Field := ⟨CAL_STAT, 12, 1⟩
def CAL_STAT_SYSBAD : Field := ⟨CAL_STAT, 11, 1⟩
def CAL_STAT_PATCHWE : Field := ⟨CAL_STAT, 10, 1⟩
def CAL_STAT_BBAD : Field := ⟨CAL_STAT, 9, 1⟩
def CAL_STAT_ABAD : Field := ⟨CAL_STAT, 8, 1⟩
def CAL_STAT_TRIMBAD : Field := ⟨CAL_STAT, 7, 1⟩
def CAL_STAT_PHASE : Field := ⟨CAL_STAT, 4, 3⟩
def CAL_STAT_BUSY : Field := ⟨CAL_STAT, 3, 1⟩
def CAL_STAT_SRC : Field := ⟨CAL_STAT, 0, 2⟩
/-- Address of `CAL_GENA` (R548). -/
def CAL_GENA : Nat := 0x7008
def CAL_GENA_GEN : Field := ⟨CAL_GENA, 0, 32⟩
/-- Address of `CAL_GENB` (R548). -/
def CAL_GENB : Nat := 0x700c
def CAL_GENB_GEN : Field := ⟨CAL_GENB, 0, 32⟩
/-- Address of `CAL_NVMSTAT` (R548). -/
def CAL_NVMSTAT : Nat := 0x7010
def CAL_NVMSTAT_SECT : Field := ⟨CAL_NVMSTAT, 16, 16⟩
def CAL_NVMSTAT_FAILCNT : Field := ⟨CAL_NVMSTAT, 0, 8⟩
/-- Address of `CAL_REFn` (R548). -/
def CAL_REF (n : Nat) : Nat := 0x7040 + 0x4 * n
def CAL_REF_REF (n : Nat) : Field := ⟨CAL_REF n, 0, 32⟩
/-- Address of `CAL_IREF` (R548). -/
def CAL_IREF : Nat := 0x70a0
def CAL_IREF_REF : Field := ⟨CAL_IREF, 0, 32⟩
/-- Address of `CAL_AXREF` (R548). -/
def CAL_AXREF : Nat := 0x70a4
def CAL_AXREF_REF : Field := ⟨CAL_AXREF, 0, 32⟩
/-- Address of `CAL_AXMASK` (R548). -/
def CAL_AXMASK : Nat := 0x70a8
def CAL_AXMASK_MASK : Field := ⟨CAL_AXMASK, 0, 16⟩
/-- Address of `CRC_CFG` (R551). -/
def CRC_CFG : Nat := 0x7800
def CRC_CFG_WIDTH : Field := ⟨CRC_CFG, 8, 6⟩
def CRC_CFG_REFOUT : Field := ⟨CRC_CFG, 1, 1⟩
def CRC_CFG_REFIN : Field := ⟨CRC_CFG, 0, 1⟩
/-- Address of `CRC_POLY` (R551). -/
def CRC_POLY : Nat := 0x7804
def CRC_POLY_POLY : Field := ⟨CRC_POLY, 0, 32⟩
/-- Address of `CRC_VAL` (R551). -/
def CRC_VAL : Nat := 0x7808
def CRC_VAL_VAL : Field := ⟨CRC_VAL, 0, 32⟩
/-- Address of `CRC_XOROUT` (R551). -/
def CRC_XOROUT : Nat := 0x780c
def CRC_XOROUT_XOROUT : Field := ⟨CRC_XOROUT, 0, 32⟩
/-- Address of `CRC_RESULT` (R551). -/
def CRC_RESULT : Nat := 0x7810
def CRC_RESULT_RESULT : Field := ⟨CRC_RESULT, 0, 32⟩
/-- Address of `CRC_DATA8` (R551). -/
def CRC_DATA8 : Nat := 0x7814
def CRC_DATA8_DATA : Field := ⟨CRC_DATA8, 0, 32⟩
/-- Address of `CRC_DATA16` (R551). -/
def CRC_DATA16 : Nat := 0x7818
def CRC_DATA16_DATA : Field := ⟨CRC_DATA16, 0, 32⟩
/-- Address of `CRC_DATA32` (R551). -/
def CRC_DATA32 : Nat := 0x781c
def CRC_DATA32_DATA : Field := ⟨CRC_DATA32, 0, 32⟩
/-- Address of `BST_CMD` (R575). -/
def BST_CMD : Nat := 0x8000
def BST_CMD_LOG : Field := ⟨BST_CMD, 24, 6⟩
def BST_CMD_MEM : Field := ⟨BST_CMD, 16, 8⟩
def BST_CMD_KEY : Field := ⟨BST_CMD, 8, 8⟩
def BST_CMD_MODE : Field := ⟨BST_CMD, 3, 1⟩
def BST_CMD_ALG : Field := ⟨BST_CMD, 2, 1⟩
def BST_CMD_ABORT : Field := ⟨BST_CMD, 1, 1⟩
def BST_CMD_GO : Field := ⟨BST_CMD, 0, 1⟩
/-- Address of `BST_STAT` (R575). -/
def BST_STAT : Nat := 0x8004
def BST_STAT_BUSY : Field := ⟨BST_STAT, 31, 1⟩
def BST_STAT_CUR : Field := ⟨BST_STAT, 24, 5⟩
def BST_STAT_RUNS : Field := ⟨BST_STAT, 16, 8⟩
def BST_STAT_SLICES : Field := ⟨BST_STAT, 8, 8⟩
def BST_STAT_RESULT : Field := ⟨BST_STAT, 0, 8⟩
/-- Address of `BST_CFG` (R575). -/
def BST_CFG : Nat := 0x8008
def BST_CFG_AUTOPER : Field := ⟨BST_CFG, 8, 8⟩
def BST_CFG_AUTOALG : Field := ⟨BST_CFG, 0, 1⟩
/-- Address of `BST_CTLSTAT` (R575). -/
def BST_CTLSTAT : Nat := 0x800c
def BST_CTLSTAT_ROMVER : Field := ⟨BST_CTLSTAT, 24, 8⟩
def BST_CTLSTAT_ROMBAD : Field := ⟨BST_CTLSTAT, 2, 1⟩
def BST_CTLSTAT_PATCHBAD : Field := ⟨BST_CTLSTAT, 1, 1⟩
def BST_CTLSTAT_PATCHED : Field := ⟨BST_CTLSTAT, 0, 1⟩
/-- Address of `BST_LCSTAT` (R575). -/
def BST_LCSTAT : Nat := 0x8010
def BST_LCSTAT_K : Field := ⟨BST_LCSTAT, 8, 5⟩
def BST_LCSTAT_LCFERR : Field := ⟨BST_LCSTAT, 7, 1⟩
def BST_LCSTAT_RETFUSE : Field := ⟨BST_LCSTAT, 6, 1⟩
def BST_LCSTAT_STATE : Field := ⟨BST_LCSTAT, 0, 2⟩
/-- Address of `BST_LCCMD` (R575). -/
def BST_LCCMD : Nat := 0x8014
def BST_LCCMD_KEY : Field := ⟨BST_LCCMD, 8, 8⟩
def BST_LCCMD_FORCE : Field := ⟨BST_LCCMD, 2, 1⟩
def BST_LCCMD_TARGET : Field := ⟨BST_LCCMD, 0, 2⟩
/-- Address of `SYS_LOCK` (R596). -/
def SYS_LOCK : Nat := 0x40
def SYS_LOCK_KEY : Field := ⟨SYS_LOCK, 8, 8⟩
def SYS_LOCK_FLT : Field := ⟨SYS_LOCK, 1, 1⟩
def SYS_LOCK_TGT : Field := ⟨SYS_LOCK, 0, 1⟩
/-- Address of `SYS_LOCKSTAT` (R598). -/
def SYS_LOCKSTAT : Nat := 0x44
def SYS_LOCKSTAT_VIOL : Field := ⟨SYS_LOCKSTAT, 24, 8⟩
def SYS_LOCKSTAT_ADDR : Field := ⟨SYS_LOCKSTAT, 4, 18⟩
def SYS_LOCKSTAT_ARMED : Field := ⟨SYS_LOCKSTAT, 3, 1⟩
def SYS_LOCKSTAT_LFLT : Field := ⟨SYS_LOCKSTAT, 1, 1⟩
def SYS_LOCKSTAT_LTGT : Field := ⟨SYS_LOCKSTAT, 0, 1⟩
/-- Address of `XCK_AXCFG` (R183). -/
def XCK_AXCFG (n : Nat) : Nat := 0x1820 + 0x4 * n
def XCK_AXCFG_IN (n : Nat) : Field := ⟨XCK_AXCFG n, 0, 32⟩
/-- Address of `XCK_HRES` (R186). -/
def XCK_HRES (n : Nat) : Nat := 0x1840 + 0x4 * n
def XCK_HRES_RH (n : Nat) : Field := ⟨XCK_HRES n, 0, 16⟩
/-- Address of `XCK_CELL` (R186). -/
def XCK_CELL (n : Nat) : Nat := 0x1904 + 0x4 * n
def XCK_CELL_RES (n : Nat) : Field := ⟨XCK_CELL n, 0, 32⟩
/-- Address of `XCK_PAIR` (R186). -/
def XCK_PAIR (n : Nat) : Nat := 0x1984 + 0x4 * n
def XCK_PAIR_RES (n : Nat) : Field := ⟨XCK_PAIR n, 0, 32⟩
/-- Address of `XCK_AX` (R186). -/
def XCK_AX (n : Nat) : Nat := 0x1a00 + 0x4 * n
def XCK_AX_RES (n : Nat) : Field := ⟨XCK_AX n, 0, 32⟩
/-- Address of `XCK_AXF` (R186). -/
def XCK_AXF (n : Nat) : Nat := 0x1a40 + 0x4 * n
def XCK_AXF_RES (n : Nat) : Field := ⟨XCK_AXF n, 0, 32⟩
/-- Address of `XCK_VMOD` (R186). -/
def XCK_VMOD : Nat := 0x1a80
def XCK_VMOD_RES : Field := ⟨XCK_VMOD, 0, 32⟩
/-- Address of `XCK_SUMDIFF` (R186). -/
def XCK_SUMDIFF : Nat := 0x1a84
def XCK_SUMDIFF_DIFF : Field := ⟨XCK_SUMDIFF, 0, 32⟩
/-- Address of `CMS_LAST` (R141). -/
def CMS_LAST (n : Nat) : Nat := 0x1100 + 0x4 * n
def CMS_LAST_W (n : Nat) : Field := ⟨CMS_LAST n, 0, 32⟩
/-- Address of `CMS_SNAP` (R141). -/
def CMS_SNAP (n : Nat) : Nat := 0x1200 + 0x4 * n
def CMS_SNAP_W (n : Nat) : Field := ⟨CMS_SNAP n, 0, 32⟩
/-- Address of `CPB_CELLEN` (R250). -/
def CPB_CELLEN : Nat := 0x280c
def CPB_CELLEN_CELL : Field := ⟨CPB_CELLEN, 1, 24⟩
/-- Address of `CPB_OVFLAG` (R250). -/
def CPB_OVFLAG : Nat := 0x2810
def CPB_OVFLAG_CELL : Field := ⟨CPB_OVFLAG, 1, 24⟩
/-- Address of `CPB_UVFLAG` (R250). -/
def CPB_UVFLAG : Nat := 0x2814
def CPB_UVFLAG_CELL : Field := ⟨CPB_UVFLAG, 1, 24⟩
/-- Address of `CPB_OCFLT` (R250). -/
def CPB_OCFLT : Nat := 0x282c
def CPB_OCFLT_CELL : Field := ⟨CPB_OCFLT, 1, 24⟩
/-- Address of `CPB_SWCHK` (R250). -/
def CPB_SWCHK : Nat := 0x2830
def CPB_SWCHK_CELL : Field := ⟨CPB_SWCHK, 1, 24⟩
/-- Address of `CPB_CMPFLT` (R250). -/
def CPB_CMPFLT : Nat := 0x2834
def CPB_CMPFLT_CELL : Field := ⟨CPB_CMPFLT, 1, 24⟩
/-- Address of `CPB_OVRAW` (R250). -/
def CPB_OVRAW : Nat := 0x2818
def CPB_OVRAW_CELL : Field := ⟨CPB_OVRAW, 1, 24⟩
/-- Address of `CPB_UVRAW` (R250). -/
def CPB_UVRAW : Nat := 0x281c
def CPB_UVRAW_CELL : Field := ⟨CPB_UVRAW, 1, 24⟩
/-- Address of `CPB_BALCMD` (R250). -/
def CPB_BALCMD : Nat := 0x2820
def CPB_BALCMD_CELL : Field := ⟨CPB_BALCMD, 1, 24⟩
/-- Address of `CNV_IPHn` (R300). -/
def CNV_IPH (n : Nat) : Nat := 0x3080 + 0x4 * n
def CNV_IPH_IPH (n : Nat) : Field := ⟨CNV_IPH n, 0, 32⟩
/-- Address of `CNV_ITOT` (R300). -/
def CNV_ITOT : Nat := 0x3090
def CNV_ITOT_ITOT : Field := ⟨CNV_ITOT, 0, 32⟩
/-- Address of `CNV_VBS` (R300). -/
def CNV_VBS : Nat := 0x3094
def CNV_VBS_VBS : Field := ⟨CNV_VBS, 0, 32⟩
/-- Address of `CNV_VREF` (R300). -/
def CNV_VREF : Nat := 0x3098
def CNV_VREF_VREF : Field := ⟨CNV_VREF, 0, 32⟩
/-- Address of `CNV_SNAP0` (R300). -/
def CNV_SNAP0 : Nat := 0x30a0
def CNV_SNAP0_S : Field := ⟨CNV_SNAP0, 0, 32⟩
/-- Address of `CNV_SNAP1` (R300). -/
def CNV_SNAP1 : Nat := 0x30a4
def CNV_SNAP1_S : Field := ⟨CNV_SNAP1, 0, 32⟩
/-- Address of `CNV_COEF0` (R300). -/
def CNV_COEF0 (n : Nat) : Nat := 0x3100 + 0x20 * n
def CNV_COEF0_C (n : Nat) : Field := ⟨CNV_COEF0 n, 0, 32⟩
/-- Address of `CNV_COEF1` (R300). -/
def CNV_COEF1 (n : Nat) : Nat := 0x3104 + 0x20 * n
def CNV_COEF1_C (n : Nat) : Field := ⟨CNV_COEF1 n, 0, 32⟩
/-- Address of `CNV_COEF2` (R300). -/
def CNV_COEF2 (n : Nat) : Nat := 0x3108 + 0x20 * n
def CNV_COEF2_C (n : Nat) : Field := ⟨CNV_COEF2 n, 0, 32⟩
/-- Address of `CNV_COEF3` (R300). -/
def CNV_COEF3 (n : Nat) : Nat := 0x310c + 0x20 * n
def CNV_COEF3_C (n : Nat) : Field := ⟨CNV_COEF3 n, 0, 32⟩
/-- Address of `CNV_COEF4` (R300). -/
def CNV_COEF4 (n : Nat) : Nat := 0x3110 + 0x20 * n
def CNV_COEF4_C (n : Nat) : Field := ⟨CNV_COEF4 n, 0, 32⟩
/-- Address of `CNV_COEF5` (R300). -/
def CNV_COEF5 (n : Nat) : Nat := 0x3114 + 0x20 * n
def CNV_COEF5_C (n : Nat) : Field := ⟨CNV_COEF5 n, 0, 32⟩
/-- Address of `CNV_COEF6` (R300). -/
def CNV_COEF6 (n : Nat) : Nat := 0x3118 + 0x20 * n
def CNV_COEF6_C (n : Nat) : Field := ⟨CNV_COEF6 n, 0, 32⟩
/-- Address of `CTL_LUT` (R312). -/
def CTL_LUT (n : Nat) : Nat := 0x3c00 + 0x4 * n
def CTL_LUT_X (n : Nat) : Field := ⟨CTL_LUT n, 16, 16⟩
def CTL_LUT_G (n : Nat) : Field := ⟨CTL_LUT n, 0, 16⟩
/-- Address of `HST_MSIXCTL` (R466). -/
def HST_MSIXCTL (n : Nat) : Nat := 0x540c + 0x10 * n
def HST_MSIXCTL_CTL (n : Nat) : Field := ⟨HST_MSIXCTL n, 0, 32⟩
/-- Address of `HST_MSIX` (R466). -/
def HST_MSIX (n : Nat) : Nat := 0x5400 + 0x4 * n
def HST_MSIX_W (n : Nat) : Field := ⟨HST_MSIX n, 0, 32⟩
/-- Address of `HST_PBA` (R466). -/
def HST_PBA (n : Nat) : Nat := 0x5600 + 0x4 * n
def HST_PBA_PB (n : Nat) : Field := ⟨HST_PBA n, 0, 32⟩
/-- Address of `FLT_ACTj` (R512). -/
def FLT_ACT (n : Nat) : Nat := 0x6020 + 0x4 * n
def FLT_ACT_S (n : Nat) : Field := ⟨FLT_ACT n, 0, 32⟩
/-- Address of `FLT_STKj` (R512). -/
def FLT_STK (n : Nat) : Nat := 0x6030 + 0x4 * n
def FLT_STK_S (n : Nat) : Field := ⟨FLT_STK n, 0, 32⟩
/-- Address of `FLT_SEVj` (R512). -/
def FLT_SEV (n : Nat) : Nat := 0x6040 + 0x4 * n
def FLT_SEV_S (n : Nat) : Field := ⟨FLT_SEV n, 0, 32⟩
/-- Address of `FLT_RAILj` (R512). -/
def FLT_RAIL (n : Nat) : Nat := 0x6050 + 0x4 * n
def FLT_RAIL_S (n : Nat) : Field := ⟨FLT_RAIL n, 0, 32⟩
/-- Address of `FLT_SNAPj` (R512). -/
def FLT_SNAP (n : Nat) : Nat := 0x6060 + 0x4 * n
def FLT_SNAP_S (n : Nat) : Field := ⟨FLT_SNAP n, 0, 32⟩
/-- Address of `BST_MREC3` (R576). -/
def BST_MREC3 (n : Nat) : Nat := 0x810c + 0x10 * n
def BST_MREC3_W (n : Nat) : Field := ⟨BST_MREC3 n, 0, 32⟩
/-- Address of `BST_MREC` (R576). -/
def BST_MREC (n : Nat) : Nat := 0x8100 + 0x4 * n
def BST_MREC_W (n : Nat) : Field := ⟨BST_MREC n, 0, 32⟩
/-- Address of `BST_LREC` (R576). -/
def BST_LREC (n : Nat) : Nat := 0x8200 + 0x4 * n
def BST_LREC_W (n : Nat) : Field := ⟨BST_LREC n, 0, 32⟩
/-- Address of `BST_LREC5` (R576). -/
def BST_LREC5 (n : Nat) : Nat := 0x8250 + 0x4 * n
def BST_LREC5_W (n : Nat) : Field := ⟨BST_LREC5 n, 0, 32⟩
end Reg

/-- Registers of the SYS block. -/
def rowsSys0 : List RegRow := [
  ⟨0, 4, 1, 0x24640100, 0, 0, 0, 0, 0, 0xff, false⟩,  -- SYS_ID R77
  ⟨4, 4, 1, 0, 0, 0, 0, 0, 0xff07, 0xffff00f8, false⟩,  -- SYS_PWRCMD R78
  ⟨8, 4, 1, 3, 0, 0x8000, 0, 0, 0, 0xff0f0e3c, false⟩,  -- SYS_PWRSTAT R79
  ⟨0xc, 4, 1, 0xf, 0xff00000f, 0, 0, 0, 0, 0xfffff0, true⟩,  -- SYS_PWRCFG R80
  ⟨0x10, 4, 1, 4, 0xf, 0, 0, 0, 0, 0xfffffff0, false⟩,  -- SYS_SUPCFG R81
  ⟨0x14, 4, 1, 0, 0, 7, 0xff000000, 0, 0, 0xfffff8, false⟩,  -- SYS_SUPSTAT R82
  ⟨0x18, 4, 1, 3, 0x303, 0, 0, 0, 0, 0xfffffcfc, false⟩,  -- SYS_CLKCFG R83
  ⟨0x1c, 4, 1, 0x307, 0, 0, 0, 0, 0, 0xfffffce0, false⟩,  -- SYS_CLKSTAT R84
  ⟨0x20, 4, 1, 0, 0, 0, 0, 0, 0xff03, 0xffff00fc, false⟩,  -- SYS_RSTCMD R85
  ⟨0x24, 4, 1, 1, 0, 0x1ff, 0, 0, 0, 0xfffffe00, true⟩,  -- SYS_RSTCAUSE R86
  ⟨0x28, 4, 1, 0, 0, 0, 0, 0, 0, 0xffffff00, true⟩,  -- SYS_EPOCH R87
  ⟨0x2c, 4, 1, 0xa0a00, 0xffff00, 0, 0, 0, 0, 0xff0000ff, true⟩,  -- SYS_PINCFG R88
  ⟨0x30, 4, 1, 0, 0, 0, 0xffff0000, 0, 0, 0xf008, false⟩,  -- SYS_PINSTAT R89
  ⟨0x34, 4, 1, 0, 0, 0, 0xff00, 0, 0, 0xffff00fc, false⟩,  -- SYS_STRAPSTAT R90
  ⟨0x40, 4, 1, 0, 0, 0, 0, 0, 0xff03, 0xffff00fc, false⟩,  -- SYS_LOCK R596
  ⟨0x44, 4, 1, 0, 0, 0, 0xff000000, 0, 0, 0xc00004, false⟩   -- SYS_LOCKSTAT R598
  ]

/-- All register rows of the SYS block. -/
def rowsSys : List RegRow := rowsSys0

/-- Registers of the CMS block. -/
def rowsCms0 : List RegRow := [
  ⟨0x1000, 4, 1, 1, 0x333, 0, 0, 0, 0, 0xfffffccc, false⟩,  -- CMS_CFG R131
  ⟨0x1004, 4, 1, 0x1ffffff, 0x1ffffff, 0, 0, 0, 0, 0xfe000000, false⟩,  -- CMS_CHEN R132
  ⟨0x1008, 4, 1, 0xc011001, 0, 0, 0, 0, 0, 0xfcccfc, false⟩,  -- CMS_STAT R133
  ⟨0x100c, 4, 1, 0, 0, 0, 0, 0, 0, 0, false⟩,  -- CMS_HWIDX R134
  ⟨0x1010, 4, 1, 0x190147, 0, 0, 0, 0, 0, 0xffe0e000, false⟩,  -- CMS_HDEPTH R135
  ⟨0x1014, 4, 1, 0, 0, 0, 0, 0, 0, 0, false⟩,  -- CMS_HSTART R136
  ⟨0x1018, 4, 1, 0, 0, 0, 0xffff, 0, 0, 0xffff0000, false⟩,  -- CMS_OVRCNT R137
  ⟨0x101c, 4, 1, 0, 0, 0, 0, 0, 0, 0xfe000000, false⟩,  -- CMS_FENCE R138
  ⟨0x1020, 4, 1, 0, 0, 0, 0, 0, 0, 0, false⟩,  -- CMS_HTIMEL R139
  ⟨0x1024, 4, 1, 0, 0, 0, 0, 0, 0, 0, false⟩,  -- CMS_HTIMEH R139
  ⟨0x1028, 4, 1, 0, 0, 0, 0, 0, 0, 0xfffffffc, false⟩,  -- CMS_SNAPSTAT R140
  ⟨0x1100, 4, 50, 0, 0, 0, 0, 0, 0, 0, false⟩,  -- CMS_LAST R141
  ⟨0x1200, 4, 50, 0, 0, 0, 0, 0, 0, 0, false⟩   -- CMS_SNAP R141
  ]

/-- All register rows of the CMS block. -/
def rowsCms : List RegRow := rowsCms0

/-- Registers of the XCK block. -/
def rowsXck0 : List RegRow := [
  ⟨0x1800, 4, 1, 0x32001410, 0xff001fff, 0, 0, 0, 0, 0xffe000, false⟩,  -- XCK_CFG R179
  ⟨0x1804, 4, 1, 0, 0, 0, 0, 0, 0, 0xfffffffc, false⟩,  -- XCK_STAT R180
  ⟨0x1808, 4, 1, 0, 0, 0, 0, 0, 0, 0xfe000001, false⟩,  -- XCK_XMIS R181
  ⟨0x180c, 4, 1, 0, 0, 0x1fffffe, 0, 0, 0, 0xfe000001, false⟩,  -- XCK_BLAMEP R181
  ⟨0x1810, 4, 1, 0, 0, 0x1fffffe, 0, 0, 0, 0xfe000001, false⟩,  -- XCK_BLAMES R181
  ⟨0x1814, 4, 1, 1, 3, 0, 0, 0, 0, 0xfffffffc, false⟩,  -- XCK_OWCFG R182
  ⟨0x1818, 4, 1, 0, 0, 0, 0, 0, 0, 0xfe000000, false⟩,  -- XCK_OWSTAT R182
  ⟨0x181c, 4, 1, 0, 0, 0, 0, 0, 0, 0xe0000000, false⟩,  -- XCK_OWLAST R182
  ⟨0x1828, 4, 1, 0, 1, 0, 0, 0, 0, 0xfffffffe, false⟩,  -- XCK_AUXCTL R184
  ⟨0x182c, 4, 1, 0x11, 0x33, 0, 0, 0, 0, 0xffffffcc, false⟩,  -- XCK_BALCFG R184
  ⟨0x1830, 4, 1, 0x7d0, 0xffff, 0, 0, 0, 0, 0xffff0000, false⟩,  -- XCK_RBAL R184
  ⟨0x1834, 4, 1, 0, 0, 0, 0, 0, 1, 0xfffffff0, false⟩,  -- XCK_HRCMD R185
  ⟨0x1820, 4, 2, 0, 0xffffffff, 0, 0, 0, 0, 0, false⟩,  -- XCK_AXCFG R183
  ⟨0x1840, 4, 25, 0, 0xffff, 0, 0, 0, 0, 0xffff0000, false⟩,  -- XCK_HRES R186
  ⟨0x1904, 4, 24, 0, 0, 0, 0, 0, 0, 0, false⟩,  -- XCK_CELL R186
  ⟨0x1984, 4, 23, 0, 0, 0, 0, 0, 0, 0, false⟩,  -- XCK_PAIR R186
  ⟨0x1a00, 4, 16, 0, 0, 0, 0, 0, 0, 0, false⟩,  -- XCK_AX R186
  ⟨0x1a40, 4, 16, 0, 0, 0, 0, 0, 0, 0, false⟩,  -- XCK_AXF R186
  ⟨0x1a80, 4, 1, 0, 0, 0, 0, 0, 0, 0, false⟩,  -- XCK_VMOD R186
  ⟨0x1a84, 4, 1, 0, 0, 0, 0, 0, 0, 0, false⟩   -- XCK_SUMDIFF R186
  ]

/-- All register rows of the XCK block. -/
def rowsXck : List RegRow := rowsXck0

/-- Registers of the IMP block. -/
def rowsImp0 : List RegRow := [
  ⟨0x2100, 0x10, 32, 0, 0x803fffff, 0, 0, 0, 0, 0x7fc00000, false⟩,  -- IMP_PLAN_W0 R193
  ⟨0x2104, 0x10, 32, 0, 0xffff1fff, 0, 0, 0, 0, 0xe000, false⟩,  -- IMP_PLAN_W1 R193
  ⟨0x2108, 0x10, 32, 0, 0xffffffff, 0, 0, 0, 0, 0, false⟩,  -- IMP_PLAN_W2 R193
  ⟨0x210c, 0x10, 32, 0, 0, 0, 0, 0, 0, 0xffffffff, false⟩,  -- IMP_PLAN_W3 R193
  ⟨0x2000, 4, 1, 0x102, 0x1fff0f, 0, 0, 0, 0, 0xffe000f0, false⟩,  -- IMP_CFG R213
  ⟨0x2004, 4, 1, 0, 0, 0, 0, 0, 3, 0xfffffffc, false⟩,  -- IMP_CMD R214
  ⟨0x2008, 4, 1, 0, 0, 0, 0, 0, 0, 0x38, false⟩,  -- IMP_STAT R215
  ⟨0x200c, 4, 1, 0, 0, 0xf, 0, 0, 0, 0xfffffff0, false⟩,  -- IMP_EVT R216
  ⟨0x2010, 4, 1, 0, 0xf, 0, 0, 0, 0, 0xfffffff0, false⟩,  -- IMP_EVTEN R216
  ⟨0x2014, 4, 1, 0, 0xffffffff, 0, 0, 0, 0, 0, false⟩,  -- IMP_T0L R217
  ⟨0x2018, 4, 1, 0, 0xffffffff, 0, 0, 0, 0, 0, false⟩,  -- IMP_T0H R217
  ⟨0x201c, 4, 1, 0x3ff, 0x1f1f03ff, 0, 0, 0, 0, 0xe0e0fc00, false⟩,  -- IMP_PAIRCFG R217
  ⟨0x2020, 4, 1, 0, 0xffffffff, 0, 0, 0, 0, 0, false⟩,  -- IMP_PROUTE R217
  ⟨0x2024, 4, 1, 0, 0xffffffff, 0, 0, 0, 0, 0, false⟩,  -- IMP_AROUTE R217
  ⟨0x2028, 4, 1, 0x186a0, 0xffffffff, 0, 0, 0, 0, 0, false⟩,  -- IMP_RSHUNT R217
  ⟨0x202c, 4, 1, 0, 0, 0, 0xff00, 0, 0, 0xfe, false⟩,  -- IMP_PAIRSTAT R218
  ⟨0x2030, 4, 1, 0, 0, 0, 0, 0, 0, 0, false⟩   -- IMP_SNAP R218
  ]

/-- All register rows of the IMP block. -/
def rowsImp : List RegRow := rowsImp0

/-- Registers of the CPB block. -/
def rowsCpb0 : List RegRow := [
  ⟨0x2800, 4, 1, 0x123, 0x333, 0, 0, 0, 0, 0xfffffccc, true⟩,  -- CPB_CFG R248
  ⟨0x2804, 4, 1, 0x352, 0x7ff, 0, 0, 0, 0, 0xfffff800, true⟩,  -- CPB_OVTH R249
  ⟨0x2808, 4, 1, 0x1f4, 0x7ff, 0, 0, 0, 0, 0xfffff800, true⟩,  -- CPB_UVTH R249
  ⟨0x2824, 4, 1, 0x200c3f, 0x300f3f, 0, 0, 0, 0, 0xffcff0c0, false⟩,  -- CPB_BALCFG R251
  ⟨0x2828, 4, 1, 0, 0, 0, 0, 0, 0, 1, false⟩,  -- CPB_BALSTAT R251
  ⟨0x2838, 4, 1, 0x63, 0x3ff, 0, 0, 0, 0, 0xfffffc00, false⟩,  -- CPB_CLTCFG R252
  ⟨0x283c, 4, 1, 0x63, 0, 0x800000, 0xff000000, 0, 0, 0x7ffc00, false⟩,  -- CPB_CLTSTAT R252
  ⟨0x2840, 4, 1, 0xa00, 0xff03, 0, 0, 0, 0, 0xffff00fc, false⟩,  -- CPB_FPCFG R253
  ⟨0x2844, 4, 1, 0, 0, 4, 0xff000000, 0, 0, 0xffff08, false⟩,  -- CPB_FPSTAT R253
  ⟨0x2848, 4, 1, 0, 0, 0xf, 0, 0, 0, 0xfffffff0, false⟩,  -- CPB_EVT R254
  ⟨0x284c, 4, 1, 0, 0xf, 0, 0, 0, 0, 0xfffffff0, false⟩,  -- CPB_EVTEN R254
  ⟨0x280c, 4, 1, 0x1fffffe, 0x1fffffe, 0, 0, 0, 0, 0xfe000001, true⟩,  -- CPB_CELLEN R250
  ⟨0x2810, 4, 1, 0, 0, 0x1fffffe, 0, 0, 0, 0xfe000001, true⟩,  -- CPB_OVFLAG R250
  ⟨0x2814, 4, 1, 0, 0, 0x1fffffe, 0, 0, 0, 0xfe000001, true⟩,  -- CPB_UVFLAG R250
  ⟨0x282c, 4, 1, 0, 0, 0x1fffffe, 0, 0, 0, 0xfe000001, false⟩,  -- CPB_OCFLT R250
  ⟨0x2830, 4, 1, 0, 0, 0x1fffffe, 0, 0, 0, 0xfe000001, false⟩,  -- CPB_SWCHK R250
  ⟨0x2834, 4, 1, 0, 0, 0x1fffffe, 0, 0, 0, 0xfe000001, false⟩,  -- CPB_CMPFLT R250
  ⟨0x2818, 4, 1, 0, 0, 0, 0, 0, 0, 0xfe000001, false⟩,  -- CPB_OVRAW R250
  ⟨0x281c, 4, 1, 0, 0, 0, 0, 0, 0, 0xfe000001, false⟩,  -- CPB_UVRAW R250
  ⟨0x2820, 4, 1, 0, 0x1fffffe, 0, 0, 0, 0, 0xfe000001, false⟩   -- CPB_BALCMD R250
  ]

/-- All register rows of the CPB block. -/
def rowsCpb : List RegRow := rowsCpb0

/-- Registers of the CNV block. -/
def rowsCnv0 : List RegRow := [
  ⟨0x3000, 4, 1, 0, 0x33, 0, 0, 0, 0, 0xffffffcc, false⟩,  -- CNV_CFG R292
  ⟨0x3004, 4, 1, 0, 0, 0, 0, 0, 0xf, 0xfffffff0, false⟩,  -- CNV_CMD R293
  ⟨0x3008, 4, 1, 0, 0, 0, 0, 0, 0, 0xf0f0, false⟩,  -- CNV_STAT R295
  ⟨0x300c, 4, 1, 0xfa000f, 0x3ff010f, 0, 0, 0, 0, 0xfc00fef0, false⟩,  -- CNV_PHCFG R296
  ⟨0x3010, 4, 1, 0x2d1e2328, 0xffffffff, 0, 0, 0, 0, 0, false⟩,  -- CNV_DT R296
  ⟨0x3014, 4, 1, 0x3005032, 0xf00f1ff, 0, 0, 0, 0, 0xf0ff0e00, false⟩,  -- CNV_SSCFG R296
  ⟨0x3018, 4, 1, 0x960096, 0x3ff03ff, 0, 0, 0, 0, 0xfc00fc00, false⟩,  -- CNV_ILIM R296
  ⟨0x301c, 4, 1, 0x64, 0x3ff, 0, 0, 0, 0, 0xfffffc00, false⟩,  -- CNV_IAVG R296
  ⟨0x3020, 4, 4, 0x2710, 0xffff, 0, 0, 0, 0, 0xffff0000, false⟩,  -- CNV_CSGn R296
  ⟨0x3030, 4, 4, 0, 0, 0, 0, 0xffff, 0, 0xffff0000, false⟩,  -- CNV_VTGTk R297
  ⟨0x3040, 4, 1, 0, 3, 0, 0, 0, 0, 0xfffffffc, false⟩,  -- CNV_VSELSW R297
  ⟨0x3044, 4, 1, 0x2710281e, 0xffffffff, 0, 0, 0, 0, 0, false⟩,  -- CNV_BUS R297
  ⟨0x3048, 4, 1, 0, 0xffff, 0, 0, 0, 0, 0xffff0000, false⟩,  -- CNV_DROOP R297
  ⟨0x304c, 4, 1, 0x2810000b, 0xffff000b, 0, 0, 0, 0, 0xfff4, false⟩,  -- CNV_LL R298
  ⟨0x3050, 4, 1, 0x1032, 0xffff, 0, 0, 0, 0, 0xffff0000, false⟩,  -- CNV_LSD R298
  ⟨0x3054, 4, 1, 0xa0000, 0xffff01, 0, 0, 0, 0, 0xff0000fe, false⟩,  -- CNV_SYNC R298
  ⟨0x3058, 4, 1, 0x2001, 0xff01, 0, 0, 0, 0, 0xffff00fe, false⟩,  -- CNV_TRIMCFG R298
  ⟨0x305c, 4, 1, 0, 0, 0, 0, 0, 0, 0, false⟩,  -- CNV_TRIMST R298
  ⟨0x3060, 4, 1, 0xeb850a3d, 0xffffffff, 0, 0, 0, 0, 0, false⟩,  -- CNV_DLIM R298
  ⟨0x3070, 4, 1, 0, 0, 0xffff, 0, 0, 0, 0xffff0000, false⟩   -- CNV_PHFLT R299
  ]

/-- Registers of the CNV block. -/
def rowsCnv1 : List RegRow := [
  ⟨0x3074, 4, 1, 0, 0, 0, 0xffffffff, 0, 0, 0, false⟩,  -- CNV_EVTCNT R299
  ⟨0x3078, 4, 1, 0, 0, 0x3f, 0, 0, 0, 0xffffffc0, false⟩,  -- CNV_EVT R299
  ⟨0x307c, 4, 1, 0, 0x3f, 0, 0, 0, 0, 0xffffffc0, false⟩,  -- CNV_EVTEN R299
  ⟨0x3080, 4, 4, 0, 0, 0, 0, 0, 0, 0, false⟩,  -- CNV_IPHn R300
  ⟨0x3090, 4, 1, 0, 0, 0, 0, 0, 0, 0, false⟩,  -- CNV_ITOT R300
  ⟨0x3094, 4, 1, 0, 0, 0, 0, 0, 0, 0, false⟩,  -- CNV_VBS R300
  ⟨0x3098, 4, 1, 0, 0, 0, 0, 0, 0, 0, false⟩,  -- CNV_VREF R300
  ⟨0x30a0, 4, 1, 0, 0, 0, 0, 0, 0, 0, false⟩,  -- CNV_SNAP0 R300
  ⟨0x30a4, 4, 1, 0, 0, 0, 0, 0, 0, 0, false⟩,  -- CNV_SNAP1 R300
  ⟨0x3100, 0x20, 4, 0, 0xffffffff, 0, 0, 0, 0, 0, false⟩,  -- CNV_COEF0 R300
  ⟨0x3104, 0x20, 4, 0, 0xffffffff, 0, 0, 0, 0, 0, false⟩,  -- CNV_COEF1 R300
  ⟨0x3108, 0x20, 4, 0, 0xffffffff, 0, 0, 0, 0, 0, false⟩,  -- CNV_COEF2 R300
  ⟨0x310c, 0x20, 4, 0, 0xffffffff, 0, 0, 0, 0, 0, false⟩,  -- CNV_COEF3 R300
  ⟨0x3110, 0x20, 4, 0, 0xffffffff, 0, 0, 0, 0, 0, false⟩,  -- CNV_COEF4 R300
  ⟨0x3114, 0x20, 4, 0, 0xffffffff, 0, 0, 0, 0, 0, false⟩,  -- CNV_COEF5 R300
  ⟨0x3118, 0x20, 4, 0, 0xffffffff, 0, 0, 0, 0, 0, false⟩   -- CNV_COEF6 R300
  ]

/-- All register rows of the CNV block. -/
def rowsCnv : List RegRow := rowsCnv0 ++ rowsCnv1

/-- Registers of the CTL block. -/
def rowsCtl0 : List RegRow := [
  ⟨0x3800, 4, 1, 0xc0, 0xf3, 0, 0, 0, 0, 0xffffff0c, false⟩,  -- CTL_CFG R327
  ⟨0x3804, 4, 1, 0, 0, 0, 0, 0, 1, 0xfffffffe, false⟩,  -- CTL_CMD R328
  ⟨0x3808, 4, 1, 0, 0, 0, 0, 0, 0, 0xffffff00, false⟩,  -- CTL_STAT R329
  ⟨0x380c, 4, 1, 0, 0xffff, 0, 0, 0, 0, 0xffff0000, false⟩,  -- CTL_TGT R330
  ⟨0x3810, 4, 1, 0x3e8, 0xffff, 0, 0, 0, 0, 0xffff0000, false⟩,  -- CTL_SMAX R330
  ⟨0x3814, 4, 1, 0x1f4, 0xffff, 0, 0, 0, 0, 0xffff0000, false⟩,  -- CTL_AMAX R330
  ⟨0x3818, 4, 1, 0x3e8, 0xffff, 0, 0, 0, 0, 0xffff0000, false⟩,  -- CTL_JMAX R330
  ⟨0x381c, 4, 1, 0x800, 0xffff, 0, 0, 0, 0, 0xffff0000, false⟩,  -- CTL_KP R330
  ⟨0x3820, 4, 1, 0x100, 0xffff, 0, 0, 0, 0, 0xffff0000, false⟩,  -- CTL_KI R330
  ⟨0x3824, 4, 1, 0, 0xffff, 0, 0, 0, 0, 0xffff0000, false⟩,  -- CTL_KAFF R330
  ⟨0x3828, 4, 1, 0x1900190, 0x3ff03ff, 0, 0, 0, 0, 0xfc00fc00, false⟩,  -- CTL_LIM R330
  ⟨0x382c, 4, 1, 0x40, 0x7f, 0, 0, 0, 0, 0xffffff80, false⟩,  -- CTL_LUTCFG R330
  ⟨0x3830, 4, 1, 0x14, 0xff, 0, 0, 0, 0, 0xffffff00, false⟩,  -- CTL_TRK R330
  ⟨0x3834, 4, 1, 0, 0, 0, 0, 0, 0, 0, false⟩,  -- CTL_SP R331
  ⟨0x3838, 4, 1, 0, 0, 0, 0, 0, 0, 0, false⟩,  -- CTL_PSTATE R331
  ⟨0x383c, 4, 1, 0, 0, 0, 0, 0, 0, 0xffff0000, false⟩,  -- CTL_INTEG R331
  ⟨0x3840, 4, 1, 0, 0, 0, 0, 0, 0, 0xffff0000, false⟩,  -- CTL_DFF R331
  ⟨0x3844, 4, 1, 0x1000, 0, 0, 0, 0, 0, 0, false⟩,  -- CTL_VERR R331
  ⟨0x3850, 4, 1, 0, 0, 0, 0xffffffff, 0, 0, 0, false⟩,  -- CTL_CNT R331
  ⟨0x3854, 4, 1, 0, 0, 0, 0, 0, 0, 0, false⟩   -- CTL_SNAP R331
  ]

/-- Registers of the CTL block. -/
def rowsCtl1 : List RegRow := [
  ⟨0x3848, 4, 1, 0, 0, 0xf, 0, 0, 0, 0xfffffff0, false⟩,  -- CTL_EVT R332
  ⟨0x384c, 4, 1, 0, 0xf, 0, 0, 0, 0, 0xfffffff0, false⟩,  -- CTL_EVTEN R332
  ⟨0x3c00, 4, 64, 0, 0xffffffff, 0, 0, 0, 0, 0, false⟩   -- CTL_LUT R312
  ]

/-- All register rows of the CTL block. -/
def rowsCtl : List RegRow := rowsCtl0 ++ rowsCtl1

/-- Registers of the LNK block. -/
def rowsLnk0 : List RegRow := [
  ⟨0x4000, 4, 1, 0x328102, 0xfff10f, 0, 0, 0, 0, 0xff000ef0, false⟩,  -- LNK_CFG R374
  ⟨0x4004, 4, 1, 0, 0, 0, 0, 0, 0, 0xfffffef0, false⟩,  -- LNK_STAT R375
  ⟨0x4008, 4, 1, 0x4a382604, 0xffffffff, 0, 0, 0, 0, 0, false⟩,  -- LNK_EQCFG R376
  ⟨0x400c, 4, 1, 0, 0, 0xfff, 0, 0, 0, 0xfffff000, false⟩,  -- LNK_EVT R377
  ⟨0x4010, 4, 1, 0, 0xfff, 0, 0, 0, 0, 0xfffff000, false⟩,  -- LNK_EVTEN R377
  ⟨0x4014, 4, 1, 0, 0, 0, 0, 0, 0, 0xfff0, false⟩,  -- LNK_SNAP R378
  ⟨0x4100, 0x40, 4, 0x2617, 0xffb7, 0, 0, 0, 0, 0xffff0048, false⟩,  -- LNK_PCFGn R379
  ⟨0x4104, 0x40, 4, 0, 0, 0, 0, 0, 3, 0xfffffffc, false⟩,  -- LNK_PCMDn R380
  ⟨0x4108, 0x40, 4, 0x2601, 0, 0, 0, 0, 0, 0x3000e8, false⟩,  -- LNK_PSTATn R381
  ⟨0x410c, 0x40, 4, 0, 0, 0, 0xffffffff, 0, 0, 0, false⟩,  -- LNK_ERRAn R382
  ⟨0x4110, 0x40, 4, 0, 0, 0, 0xffffffff, 0, 0, 0, false⟩,  -- LNK_ERRBn R382
  ⟨0x4114, 0x40, 4, 0, 0, 0, 0xffffffff, 0, 0, 0, false⟩,  -- LNK_RTYn R382
  ⟨0x4118, 0x40, 4, 0, 0, 0, 0xff00ff00, 0, 0, 0xf00ff, false⟩,  -- LNK_LOSSn R382
  ⟨0x411c, 0x40, 4, 0, 0, 0, 0, 0, 0, 0, false⟩,  -- LNK_TXFn R382
  ⟨0x4120, 0x40, 4, 0, 0, 0, 0, 0, 0, 0, false⟩,  -- LNK_RXFn R382
  ⟨0x4124, 0x40, 4, 0, 0, 0, 0x3f00, 0, 0, 0xffc0c0ff, false⟩   -- LNK_RBUFn R383
  ]

/-- All register rows of the LNK block. -/
def rowsLnk : List RegRow := rowsLnk0

/-- Registers of the FAB block. -/
def rowsFab0 : List RegRow := [
  ⟨0x4800, 4, 1, 0x180000, 0x1f0003, 0, 0, 0, 0, 0xffe0fffc, false⟩,  -- FAB_CFG R421
  ⟨0x4804, 4, 1, 0, 0, 0, 0, 0, 0, 0xffff7c00, false⟩,  -- FAB_ID R421
  ⟨0x4808, 4, 1, 0, 0, 0, 0, 0, 0, 0, false⟩,  -- FAB_UID0 R421
  ⟨0x480c, 4, 1, 0, 0, 0, 0, 0, 0, 0, false⟩,  -- FAB_UID1 R421
  ⟨0x4810, 4, 1, 0xa, 0xff, 0, 0, 0, 0, 0xffffff00, false⟩,  -- FAB_HOOF R421
  ⟨0x4814, 4, 1, 0xa, 0xff, 0, 0, 0, 0, 0xffffff00, false⟩,  -- FAB_SCFG R421
  ⟨0x4818, 4, 1, 0x18, 0x3f, 0, 0, 0, 0, 0xffffffc0, false⟩,  -- FAB_ARB R421
  ⟨0x481c, 4, 1, 0xa14, 0xffff, 0, 0, 0, 0, 0xffff0000, false⟩,  -- FAB_TCFG R421
  ⟨0x4820, 4, 1, 0x6401, 0xff01, 0, 0, 0, 0, 0xffff00fe, false⟩,  -- FAB_ENCFG R421
  ⟨0x4824, 4, 1, 0, 0, 0, 0, 0, 3, 0xfffffffc, false⟩,  -- FAB_ENCMD R421
  ⟨0x4828, 4, 1, 0, 0, 0, 0, 0, 0, 0xff1800, false⟩,  -- FAB_ENSTAT R422
  ⟨0x4830, 4, 1, 0, 0, 0, 0, 0, 0, 0, false⟩,  -- FAB_PNODE01 R422
  ⟨0x4834, 4, 1, 0, 0, 0, 0, 0, 0, 0, false⟩,  -- FAB_PNODE23 R422
  ⟨0x4838, 4, 1, 0, 0, 0, 0xffffffff, 0, 0, 0, false⟩,  -- FAB_ERR R422
  ⟨0x483c, 4, 1, 0, 0, 0, 0xffffffff, 0, 0, 0, false⟩,  -- FAB_LATE R422
  ⟨0x48c0, 4, 1, 0, 0, 0, 0xffffffff, 0, 0, 0, false⟩,  -- FAB_FOCNT R422
  ⟨0x48c4, 4, 1, 0, 0, 0x1f, 0, 0, 0, 0xffffffe0, false⟩,  -- FAB_EVT R422
  ⟨0x48c8, 4, 1, 0, 0x1f, 0, 0, 0, 0, 0xffffffe0, false⟩,  -- FAB_EVTEN R422
  ⟨0x48cc, 4, 1, 0, 0, 0, 0, 0, 0, 0xfffc, false⟩,  -- FAB_SNAP R422
  ⟨0x48d0, 4, 1, 0, 0, 0, 0xffffffff, 0, 0, 0, false⟩   -- FAB_DROP R422
  ]

/-- Registers of the FAB block. -/
def rowsFab1 : List RegRow := [
  ⟨0x4840, 0x40, 2, 0, 0xffffffff, 0, 0, 0, 0, 0, false⟩,  -- FAB_HOMEk_PROUTE R423
  ⟨0x4844, 0x40, 2, 0, 0xffffffff, 0, 0, 0, 0, 0, false⟩,  -- FAB_HOMEk_AROUTE R423
  ⟨0x4848, 0x40, 2, 0x3ff00000, 0xbff01f1f, 0, 0, 0, 0, 0x4002e0e0, false⟩,  -- FAB_HOMEk_HCTL R423
  ⟨0x4850, 0x40, 2, 0, 0xffffffff, 0, 0, 0, 0, 0, false⟩,  -- FAB_HOMEk_PLIST0 R423
  ⟨0x4854, 0x40, 2, 0, 0xffffffff, 0, 0, 0, 0, 0, false⟩,  -- FAB_HOMEk_PLIST1 R423
  ⟨0x4858, 0x40, 2, 0, 0xffffffff, 0, 0, 0, 0, 0, false⟩,  -- FAB_HOMEk_PLIST2 R423
  ⟨0x485c, 0x40, 2, 0, 0xffffffff, 0, 0, 0, 0, 0, false⟩,  -- FAB_HOMEk_PLIST3 R423
  ⟨0x4860, 0x40, 2, 0, 0xffffffff, 0, 0, 0, 0, 0, false⟩,  -- FAB_HOMEk_PLIST4 R423
  ⟨0x4864, 0x40, 2, 0, 0xffffffff, 0, 0, 0, 0, 0, false⟩,  -- FAB_HOMEk_ALIST0 R423
  ⟨0x4868, 0x40, 2, 0, 0xffffffff, 0, 0, 0, 0, 0, false⟩,  -- FAB_HOMEk_ALIST1 R423
  ⟨0x486c, 0x40, 2, 0, 0xffffffff, 0, 0, 0, 0, 0, false⟩,  -- FAB_HOMEk_ALIST2 R423
  ⟨0x4870, 0x40, 2, 0, 0xffffffff, 0, 0, 0, 0, 0, false⟩,  -- FAB_HOMEk_ALIST3 R423
  ⟨0x4874, 0x40, 2, 0, 0xffffffff, 0, 0, 0, 0, 0, false⟩   -- FAB_HOMEk_ALIST4 R423
  ]

/-- All register rows of the FAB block. -/
def rowsFab : List RegRow := rowsFab0 ++ rowsFab1

/-- Registers of the HST block. -/
def rowsHst0 : List RegRow := [
  ⟨0x5000, 4, 1, 0, 0, 0, 0, 0, 0, 0xfffcfeec, false⟩,  -- HST_STAT R463
  ⟨0x5004, 4, 1, 0, 0, 0xff, 0, 0, 0, 0xffffff00, false⟩,  -- HST_ERR R463
  ⟨0x5008, 4, 1, 0, 0xffffffc1, 0, 0, 0, 0, 0x3e, false⟩,  -- HST_WBL R463
  ⟨0x500c, 4, 1, 0, 0xffffffff, 0, 0, 0, 0, 0, false⟩,  -- HST_WBH R463
  ⟨0x5010, 4, 1, 8, 0xff, 0, 0, 0, 0, 0xffffff00, false⟩,  -- HST_WBCFG R463
  ⟨0x5014, 4, 1, 7, 0xf, 0, 0, 0, 0, 0xfffffff0, false⟩,  -- HST_IRQ R463
  ⟨0x5018, 4, 1, 0x10, 0x3f, 0, 0, 0, 0, 0xffffffc0, false⟩,  -- HST_DWM R463
  ⟨0x501c, 4, 1, 0x32, 0xffff, 0, 0, 0, 0, 0xffff0000, false⟩,  -- HST_G2CFG R463
  ⟨0x5020, 4, 1, 0, 0, 0, 0xffffffff, 0, 0, 0, false⟩,  -- HST_CNT R463
  ⟨0x5024, 4, 1, 0, 0, 0, 0, 0, 0, 0xfe00fe00, false⟩,  -- HST_OUT R463
  ⟨0x5080, 4, 32, 0, 0xffffffff, 0, 0, 0, 0, 0, false⟩,  -- HST_SRMAP R464
  ⟨0x5100, 0x20, 11, 0, 0xffffffff, 0, 0, 0, 0, 0, false⟩,  -- HST_RBASELr R465
  ⟨0x5104, 0x20, 11, 0, 0xffffffff, 0, 0, 0, 0, 0, false⟩,  -- HST_RBASEHr R465
  ⟨0x5108, 0x20, 11, 0, 0x1ffff, 0, 0, 0, 0, 0xfffe0000, false⟩,  -- HST_RSIZEr R465
  ⟨0x510c, 0x20, 11, 0x10000, 0x80ff0701, 0, 0, 0, 0, 0x7f00f8fe, false⟩,  -- HST_RCFGr R465
  ⟨0x5110, 0x20, 11, 0, 0xffff, 0, 0, 0, 0, 0xffff0000, false⟩,  -- HST_RMODr R465
  ⟨0x5114, 0x20, 11, 0, 0, 0, 0, 0, 0, 0xfff00000, false⟩,  -- HST_RDIDXr R465
  ⟨0x5118, 0x20, 11, 1, 0, 0, 0xffff0000, 0, 0, 0xfffe, false⟩,  -- HST_RLOSTr R465
  ⟨0x511c, 0x20, 11, 0, 0, 0, 0, 0, 0xfffff, 0xfff00000, false⟩,  -- HST_RDBr R465
  ⟨0x540c, 0x10, 8, 1, 0xffffffff, 0, 0, 0, 0, 0, false⟩   -- HST_MSIXCTL R466
  ]

/-- Registers of the HST block. -/
def rowsHst1 : List RegRow := [
  ⟨0x5400, 4, 32, 0, 0xffffffff, 0, 0, 0, 0, 0, false⟩,  -- HST_MSIX R466
  ⟨0x5600, 4, 2, 0, 0, 0, 0, 0, 0, 0, false⟩   -- HST_PBA R466
  ]

/-- All register rows of the HST block. -/
def rowsHst : List RegRow := rowsHst0 ++ rowsHst1

/-- Registers of the TBS block. -/
def rowsTbs0 : List RegRow := [
  ⟨0x5800, 4, 1, 0xa14a570, 0xffffff3, 0, 0, 0, 0, 0xf000000c, false⟩,  -- TBS_CFG R485
  ⟨0x5804, 4, 1, 0x3e0, 0, 0x8000, 0, 0, 0, 0xffff0c1c, false⟩,  -- TBS_STAT R486
  ⟨0x5808, 4, 1, 0, 0, 0, 0, 0, 0, 0, false⟩,  -- TBS_TIMEL R486
  ⟨0x580c, 4, 1, 0, 0, 0, 0, 0, 0, 0, false⟩,  -- TBS_TIMEH R486
  ⟨0x5810, 4, 1, 0, 0xffffffff, 0, 0, 0, 0, 0, false⟩,  -- TBS_SETL R486
  ⟨0x5814, 4, 1, 0, 0xffffffff, 0, 0, 0, 0, 0, false⟩,  -- TBS_SETH R486
  ⟨0x5818, 4, 1, 0, 0, 0, 0, 0, 1, 0xfffffffe, false⟩,  -- TBS_TCMD R486
  ⟨0x581c, 4, 1, 0, 0xffffffff, 0, 0, 0, 0, 0, false⟩,  -- TBS_RATE R486
  ⟨0x5820, 4, 1, 0, 0, 0, 0, 0, 0, 0, false⟩,  -- TBS_OFFS R486
  ⟨0x5824, 4, 1, 0xffffffff, 0, 0, 0, 0, 0, 0, false⟩,  -- TBS_PDLY R486
  ⟨0x5828, 4, 1, 0, 0, 0, 0, 0, 7, 0xfffffff8, false⟩,  -- TBS_REINCMD R487
  ⟨0x582c, 4, 1, 0, 0xffffffff, 0, 0, 0, 0, 0, false⟩,  -- TBS_REINTL R487
  ⟨0x5830, 4, 1, 0, 0xffffffff, 0, 0, 0, 0, 0, false⟩,  -- TBS_REINTH R487
  ⟨0x5834, 4, 1, 0, 0, 1, 0xffff0000, 0, 0, 0xf0e0, false⟩,  -- TBS_RSTAT R487
  ⟨0x5838, 4, 1, 0, 0, 0, 0, 0, 0, 0, false⟩,  -- TBS_RTIMEL R487
  ⟨0x583c, 4, 1, 0, 0, 0, 0, 0, 0, 0, false⟩,  -- TBS_RTIMEH R487
  ⟨0x5840, 4, 1, 0, 0, 0, 0, 0, 0, 0x7c000000, false⟩,  -- TBS_RID R487
  ⟨0x5844, 4, 1, 0, 0, 0, 0xffff0000, 0, 0, 0xfffc, false⟩   -- TBS_PINSTAT R487
  ]

/-- All register rows of the TBS block. -/
def rowsTbs : List RegRow := rowsTbs0

/-- Registers of the FLT block. -/
def rowsFlt0 : List RegRow := [
  ⟨0x6000, 4, 1, 0, 0, 0, 0, 0, 0, 0x1f000080, false⟩,  -- FLT_STAT R511
  ⟨0x6004, 4, 1, 0, 0, 0, 0, 0, 0xff01, 0xffff00fe, false⟩,  -- FLT_CMD R511
  ⟨0x6008, 4, 1, 0, 0, 0, 0, 0, 0, 0xfffc0000, false⟩,  -- FLT_FENCE0 R511
  ⟨0x600c, 4, 1, 0, 0, 0, 0, 0, 0, 0xfe000001, false⟩,  -- FLT_FENCE1 R511
  ⟨0x6010, 4, 1, 0xa00, 0x17fff00, 0, 0, 0, 1, 0xfe8000fe, false⟩,  -- FLT_INJCTL R511
  ⟨0x6014, 4, 1, 0, 0, 0x40000000, 0xffff, 0, 0, 0x3f800000, false⟩,  -- FLT_INJSTAT R511
  ⟨0x6018, 4, 1, 0, 0, 0, 0xffff, 0, 0, 0, false⟩,  -- FLT_ALCNT R511
  ⟨0x6100, 4, 128, 0, 0, 0, 0, 0xfff3, 0, 0xffff000c, false⟩,  -- FLT_CFGs R513
  ⟨0x6020, 4, 4, 0, 0, 0, 0, 0, 0, 0, false⟩,  -- FLT_ACTj R512
  ⟨0x6030, 4, 4, 0, 0, 0xffffffff, 0, 0, 0, 0, true⟩,  -- FLT_STKj R512
  ⟨0x6040, 4, 4, 0, 0, 0xffffffff, 0, 0, 0, 0, false⟩,  -- FLT_SEVj R512
  ⟨0x6050, 4, 4, 0, 0, 0xffffffff, 0, 0, 0, 0, false⟩,  -- FLT_RAILj R512
  ⟨0x6060, 4, 4, 0, 0, 0, 0, 0, 0, 0, false⟩   -- FLT_SNAPj R512
  ]

/-- All register rows of the FLT block. -/
def rowsFlt : List RegRow := rowsFlt0

/-- Registers of the THM block. -/
def rowsThm0 : List RegRow := [
  ⟨0x6800, 4, 1, 0x7d0001, 0xff0001, 0, 0, 0, 0, 0xff00fffe, false⟩,  -- THM_CFG R529
  ⟨0x6804, 4, 1, 1, 0, 0, 0, 0, 0, 0xff84, false⟩,  -- THM_STAT R529
  ⟨0x6808, 4, 3, 0, 0, 0, 0, 0, 0, 0xffff0000, false⟩,  -- THM_DIEn R529
  ⟨0x6814, 4, 1, 0, 0xffff0000, 0, 0, 0, 0, 0xffff, false⟩,  -- THM_NTCCFG R529
  ⟨0x6818, 4, 1, 0xd6b1000, 0xffffffff, 0, 0, 0, 0, 0, false⟩,  -- THM_NTCPAR R529
  ⟨0x681c, 4, 1, 0x3cec, 0xffff, 0, 0, 0, 0, 0xffff0000, false⟩,  -- THM_NTCLIM R529
  ⟨0x6820, 4, 1, 0, 0, 0, 0, 0, 0, 0, true⟩,  -- THM_SDTL R529
  ⟨0x6824, 4, 1, 0, 0, 0, 0, 0, 0, 0, true⟩,  -- THM_SDTH R529
  ⟨0x6828, 4, 1, 0, 0, 0, 0xff000000, 0, 0, 0x7c0000, true⟩,  -- THM_SDINFO R529
  ⟨0x682c, 4, 1, 1, 0, 0, 0, 0, 0, 0xfffc, false⟩,  -- THM_SNAP R529
  ⟨0x6830, 4, 1, 0, 0, 0, 0xff00, 0, 0, 0xff, false⟩,  -- THM_LOGSTAT R529
  ⟨0x6834, 4, 1, 0, 0, 0, 0, 0, 0xff01, 0xffff00fe, false⟩,  -- THM_LOGCMD R529
  ⟨0x6840, 4, 16, 0, 0, 0, 0, 0, 0, 0xfffe0000, false⟩   -- THM_NTCk R529
  ]

/-- All register rows of the THM block. -/
def rowsThm : List RegRow := rowsThm0

/-- Registers of the CAL block. -/
def rowsCal0 : List RegRow := [
  ⟨0x7000, 4, 1, 0, 0, 0, 0, 0, 0x7ff07, 0xfff800f8, false⟩,  -- CAL_CMD R548
  ⟨0x7004, 4, 1, 0xe000, 0, 0, 0, 0, 0, 0xf0004, false⟩,  -- CAL_STAT R548
  ⟨0x7008, 4, 1, 0xffffffff, 0, 0, 0, 0, 0, 0, false⟩,  -- CAL_GENA R548
  ⟨0x700c, 4, 1, 0xffffffff, 0, 0, 0, 0, 0, 0, false⟩,  -- CAL_GENB R548
  ⟨0x7010, 4, 1, 0, 0, 0, 0xff, 0, 0, 0xff00, false⟩,  -- CAL_NVMSTAT R548
  ⟨0x7040, 4, 24, 0x3d0900, 0xffffffff, 0, 0, 0, 0, 0, false⟩,  -- CAL_REFn R548
  ⟨0x70a0, 4, 1, 0x2faf080, 0xffffffff, 0, 0, 0, 0, 0, false⟩,  -- CAL_IREF R548
  ⟨0x70a4, 4, 1, 0x1e8480, 0xffffffff, 0, 0, 0, 0, 0, false⟩,  -- CAL_AXREF R548
  ⟨0x70a8, 4, 1, 0, 0xffff, 0, 0, 0, 0, 0xffff0000, false⟩   -- CAL_AXMASK R548
  ]

/-- All register rows of the CAL block. -/
def rowsCal : List RegRow := rowsCal0

/-- Registers of the CRC block. -/
def rowsCrc0 : List RegRow := [
  ⟨0x7800, 4, 1, 0x2003, 0x3f03, 0, 0, 0, 0, 0xffffc0fc, false⟩,  -- CRC_CFG R551
  ⟨0x7804, 4, 1, 0x1edc6f41, 0xffffffff, 0, 0, 0, 0, 0, false⟩,  -- CRC_POLY R551
  ⟨0x7808, 4, 1, 0xffffffff, 0xffffffff, 0, 0, 0, 0, 0, false⟩,  -- CRC_VAL R551
  ⟨0x780c, 4, 1, 0xffffffff, 0xffffffff, 0, 0, 0, 0, 0, false⟩,  -- CRC_XOROUT R551
  ⟨0x7810, 4, 1, 0, 0, 0, 0, 0, 0, 0, false⟩,  -- CRC_RESULT R551
  ⟨0x7814, 4, 1, 0, 0, 0, 0, 0, 0xffffffff, 0, false⟩,  -- CRC_DATA8 R551
  ⟨0x7818, 4, 1, 0, 0, 0, 0, 0, 0xffffffff, 0, false⟩,  -- CRC_DATA16 R551
  ⟨0x781c, 4, 1, 0, 0, 0, 0, 0, 0xffffffff, 0, false⟩   -- CRC_DATA32 R551
  ]

/-- All register rows of the CRC block. -/
def rowsCrc : List RegRow := rowsCrc0

/-- Registers of the BST block. -/
def rowsBst0 : List RegRow := [
  ⟨0x8000, 4, 1, 0, 0, 0, 0, 0, 0x3fffff0f, 0xc00000f0, false⟩,  -- BST_CMD R575
  ⟨0x8004, 4, 1, 0x1f000000, 0, 0, 0, 0, 0, 0x60000000, false⟩,  -- BST_STAT R575
  ⟨0x8008, 4, 1, 0, 0xff01, 0, 0, 0, 0, 0xffff00fe, false⟩,  -- BST_CFG R575
  ⟨0x800c, 4, 1, 0, 0, 0, 0, 0, 0, 0xfffff8, false⟩,  -- BST_CTLSTAT R575
  ⟨0x8010, 4, 1, 0, 0, 0, 0, 0, 0, 0xffffe03c, false⟩,  -- BST_LCSTAT R575
  ⟨0x8014, 4, 1, 0, 0, 0, 0, 0, 0xff07, 0xffff00f8, false⟩,  -- BST_LCCMD R575
  ⟨0x810c, 0x10, 9, 0xfffff, 0, 0, 0, 0, 0, 0, false⟩,  -- BST_MREC3 R576
  ⟨0x8100, 4, 36, 0, 0, 0, 0, 0, 0, 0, false⟩,  -- BST_MREC R576
  ⟨0x8200, 4, 20, 0, 0, 0, 0, 0, 0, 0, false⟩,  -- BST_LREC R576
  ⟨0x8250, 4, 4, 0, 0, 0, 0, 0, 0, 0, true⟩   -- BST_LREC5 R576
  ]

/-- All register rows of the BST block. -/
def rowsBst : List RegRow := rowsBst0

/-- The reset values of `FLT_CFG0` to `FLT_CFG127` (R488). -/
def fltCfgReset (s : Nat) : Nat :=
  if s < 11 then 0x1913 else
  if s < 12 then 0x1f33 else
  if s < 16 then 0x1913 else
  if s < 40 then 0x2943 else
  if s < 42 then 0x2913 else
  if s < 43 then 0x1913 else
  if s < 45 then 0x2913 else
  if s < 51 then 0x1913 else
  if s < 63 then 0x1912 else
  if s < 64 then 0x2943 else
  if s < 66 then 0x1913 else
  if s < 68 then 0x2913 else
  if s < 70 then 0xc913 else
  if s < 71 then 0x2913 else
  if s < 72 then 0x1c33 else
  if s < 74 then 0x2913 else
  if s < 75 then 0x1913 else
  if s < 76 then 0x2913 else
  if s < 78 then 0x1913 else
  if s < 81 then 0x2913 else
  if s < 82 then 0x1913 else
  if s < 85 then 0x2913 else
  if s < 86 then 0x1913 else
  if s < 87 then 0x2913 else
  if s < 88 then 0x1913 else
  if s < 92 then 0x2c83 else
  if s < 96 then 0x26f3 else
  if s < 100 then 0x2c43 else
  if s < 104 then 0x1913 else
  if s < 106 then 0x2913 else
  if s < 110 then 0x1913 else
  if s < 111 then 0x2913 else
  if s < 112 then 0x1913 else
  if s < 116 then 0x3913 else
  if s < 120 then 0x1913 else
  if s < 122 then 0x2913 else
  0x1913

/-- The register rows of the block that holds a local address (R577: each block takes 2 KiB). -/
def rowsOf (a : Nat) : List RegRow :=
  match a / 0x800 with
  | 0 => rowsSys
  | 2 => rowsCms
  | 3 => rowsXck
  | 4 => rowsImp
  | 5 => rowsCpb
  | 6 => rowsCnv
  | 7 => rowsCtl
  | 8 => rowsLnk
  | 9 => rowsFab
  | 10 => rowsHst
  | 11 => rowsTbs
  | 12 => rowsFlt
  | 13 => rowsThm
  | 14 => rowsCal
  | 15 => rowsCrc
  | 16 => rowsBst
  | _ => []

/-- The register row of a local address, if a register stands there (R578). -/
def rowAt (a : Nat) : Option RegRow := (rowsOf a).find? (fun r => r.covers a)

/-- The value a register has after reset: what an address that the register file does not list reads as. -/
def resetOf (a : Nat) : Word :=
  if 0x6100 ≤ a ∧ a < 0x6300 then BitVec.ofNat 32 (fltCfgReset ((a - 0x6100) / 4))
  else if a = 0x3030 then 0x5DC0#32
  else if a = 0x3034 then 0x8CA0#32
  else if a = 0x3038 then 0xBB80#32
  else if a = 0x303C then 0xD2F0#32
  else match rowAt a with
    | some r => BitVec.ofNat 32 r.reset
    | none => 0#32

end Sys2Proof.Machine
end

