-- ==== Sys2Proof/Machine/State.lean ====
section
/-!
DEFINITION. Sys2Proof/Machine/State.lean: everything the spec gives the device: its register file, the state behind the registers of each
block, its memories, its pins, the queue of waiting commands, and the reasons a step can stop.
-/
namespace Sys2Proof.Machine

/-- Why a step stops. -/
inductive Fault
  /-- Raised by every register access path when firmware writes a value other than 0 to an RSV field, or a field value that the owning
  chapter lists as reserved (R2: the result is unpredictable). Safe: the machine stops where the hardware does something unstated. -/
  | reservedWrite (addr : Nat)
  deriving DecidableEq, Repr, Inhabited

/-- Why a command has no meaning here. -/
inductive Refusal
  /-- Raised by an arm of `exec` for a command whose meaning has not been written. Safe: the machine stops. -/
  | notModelled (mnemonic : String)
  deriving DecidableEq, Repr, Inhabited

/-- The completion of the latest register access, self-standing command or host descriptor (R7): its status, the words a read returned,
and the queuing time or the retry-after in ns. -/
structure Resp where
  status : Status
  data : List Word
  tval : Nat
  deriving DecidableEq, Repr, Inhabited

/-- How the PWMHn and PWMLn pins are driven (R48, R271, R282): the crowbar holds on the low sides of the phases of a mask. -/
inductive PwmDrive
  | hiZ
  | low
  | switching
  | startTests
  | lowSidesOn (phases : Nat)
  deriving DecidableEq, Repr, Inhabited

/-- How the fault pair FLTP/FLTN is driven (R48, R228, R229). -/
inductive PairDrive
  | tone
  | faultLevel
  | released
  deriving DecidableEq, Repr, Inhabited

/-- How the GDEN pin is driven (R48, R272, R277). -/
inductive GateDrive
  | hiZ
  | low
  | high
  deriving DecidableEq, Repr, Inhabited

/-- The output pins of the device that the state drives itself (R48): power stage and fault pair. HIRQN, WAKEN and VAUXREF follow other
state and are read by `hirqnLow`, `wakenLow` and `vauxrefDriven`; the bleed pins by `CPB_BALSTAT.ON`, the ports by their own state. -/
structure Pins where
  pwm : PwmDrive
  gden : GateDrive
  fault : PairDrive
  deriving DecidableEq, Repr, Inhabited

/-- Where the device stands between no supply and ACTIVE (R60, R72, R74). -/
inductive Phase
  | off            -- the AON rail lies below its power-on threshold (R61)
  | shelf
  | sentinel
  | standby
  | wakeFilter     -- SHELF left on a WAKE edge, the WAKE filter has not passed (R74, row 0)
  | waitLeg        -- waiting for a usable buck leg (R74, 1.1 ms row)
  | softStart      -- the buck soft start runs
  | rails          -- VCC5 has reached 4.75 V, the LDOs start; the core is in reset
  | rstHeld        -- RSTN holds the core in reset (R75, R617)
  | core           -- the core reset is released; PLLs lock, NVM is read, the profile is applied
  | resume         -- STANDBY left, not yet ACTIVE (R62)
  | active
  | thermal        -- thermal shutdown holds the core in reset (R523)
  deriving DecidableEq, Repr, Inhabited

/-- A power-state transition in progress (R63): its target, and whether its stop steps have begun. -/
structure Transition where
  target : LowState
  stopping : Bool
  deriving DecidableEq, Repr, Inhabited

/-- SYS: supplies, pins and sequencing behind the SYS registers. -/
structure SysState where
  phase : Phase
  cpll : Bool                            -- start-up milestones of R74
  tpll : Bool
  nvmChecked : Bool
  profileApplied : Bool
  porStart : Bool                        -- the epoch has not been read from NVM since POR (R73)
  porReleased : Bool                     -- the core reset has been released since POR (R73)
  aonFromVin : Bool                      -- AON supply (R54)
  vmodOk : Bool                          -- VMOD buck input threshold
  vinAbove : Bool                        -- VIN above its VINOK threshold
  vinAt : Nat                            -- since when, ns
  vinQual : Bool                         -- VIN qualified
  leg : Option Leg                       -- buck leg in use (R55)
  lostLeg : Option Leg                   -- the leg in use before the buck stopped for want of one (R55, R56)
  wakeArmed : Bool                       -- WAKE may wake (R76)
  wakeHigh : Bool                        -- filtered WAKE level
  wakeAt : Nat                           -- when WAKE last rose, ns (R75)
  lastWakeEdge : Option Nat              -- time of the last valid WAKE edge, ns (R75)
  lastWake : Option (Nat × Nat)          -- slow-clock cycle and code of the latest wake (R65)
  wakeFrom : Option LowState             -- the low-power state that the latest wake left, or whose entry it abandoned (R65)
  nextOv : Word                          -- the cells whose next sample would have tripped when SENTINEL was left (R65, R222)
  nextUv : Word
  fwake0 : Nat                           -- consecutive false wakes from P0 and P1 (R69)
  fwake1 : Nat
  lwdis0 : Bool                          -- link wake disabled on P0 and P1 (R69)
  lwdis1 : Bool
  wakePort : Option Nat                  -- the port whose link wake left SENTINEL (R69)
  activeAt : Nat                         -- when ACTIVE was last entered, ns (R69)
  transition : Option Transition
  coreSpread : Bool                      -- spread settings in force (R71): the core's
  pwmSpread : Nat                        -- PWMSSD of the present 1 ms modulation period
  sclkFailed : Bool                      -- SENTINEL timing from MOSC until reset (R71)
  rstnLow : Bool
  perstLow : Bool
  perstAt : Nat                          -- when PERSTN last fell, ns (R75)
  perstSeenHigh : Bool                   -- PERSTN has been high since reset (R45)
  perstTimes : List Nat                  -- times of the assertions of the last second (R59)
  openWires : List Nat                   -- harness wires that are open (R38)
  lcmPin : Bool                          -- LCM pin level
  ctlBusy : Bool                         -- the housekeeping controller restarts or loads a patch (R23)
  lockArm : Option (Requester × Nat)     -- who armed the lock, and when (R597)
  deriving DecidableEq, Repr, Inhabited

def SysState.reset : SysState where
  phase := .waitLeg
  cpll := false
  tpll := false
  nvmChecked := false
  profileApplied := false
  porStart := true
  porReleased := false
  aonFromVin := true
  vmodOk := false
  vinAbove := true
  vinAt := 0
  vinQual := false
  leg := none
  lostLeg := none
  wakeArmed := true
  wakeHigh := false
  wakeAt := 0
  lastWakeEdge := none
  lastWake := none
  wakeFrom := none
  nextOv := 0#32
  nextUv := 0#32
  fwake0 := 0
  fwake1 := 0
  lwdis0 := false
  lwdis1 := false
  wakePort := none
  activeAt := 0
  transition := none
  coreSpread := true
  pwmSpread := 0
  sclkFailed := false
  rstnLow := false
  perstLow := true
  perstAt := 0
  perstSeenHigh := false
  perstTimes := []
  openWires := []
  lcmPin := false
  ctlBusy := false
  lockArm := none

/-- A measurement record (R107): the value in left-aligned two's complement, before the presentation of R109, and the tag word. -/
structure Record where
  value : Word
  tag : Word
  deriving DecidableEq, Repr, Inhabited

/-- CMS: the primary paths behind the CMS registers. The lists have one entry for each channel 0 to 24. -/
structure CmsState where
  running : Bool                         -- the modulators run
  calCfg : Option Word                   -- writes of CMS_CFG and CMS_CHEN held by a calibration run (R130)
  calChen : Option Word
  layoutHeld : Bool                      -- a layout change waits for a 64 Sa/s boundary (R118, R500)
  chen : Word                            -- channels recorded at present
  histBase : Nat                         -- first slot and number of slots of the layout in force (R116, R500)
  histSize : Nat
  settle : List Nat                      -- settle words left (R102)
  settleAt : List (List (Nat × Nat))     -- the latest spans of represented instants that settle in an internal stream at the 640 Hz setting
                                         -- (R102, R155): above the first fabric time, up to the second
  overload : List (Option Nat)           -- when the channel's latest overload was, ns (R111)
  overMark : List Bool                   -- its end, the first record whose window begins after it, is still to come (R102, R111)
  pulsed : List (Option Nat)             -- when the latest open-wire test pulse was, ns (R167)
  balSeen : List (Option Nat)            -- when bleed path n last conducted, entry n − 1, ns (R170)
  hist : List (Nat × Record)             -- history slots, by slot number, rising; an unlisted slot holds 0
  lastInstant : Nat                      -- fabric time of the represented instant of the latest word
  spans : List (Nat × Nat × Nat × Nat)   -- for each setting of words still in history, oldest first: next word index, latest instant, RATE, NOTCH
  snapT : Nat                            -- timestamp of the rein whose snapshot is pending
  snapNext : Option (List Record)        -- the first records at or after it, not yet in `CMS_SNAP` (R121)
  startT : Nat                           -- fabric time at which the paths last started
  hkShadow : Option (Nat × Word)         -- tag shadow of the housekeeping controller: record address, tag (R113)
  shadows : List (Requester × Nat × Word)  -- tag shadows of remote requesters, latest first, at most four
  hkTime : Option Nat                    -- HTIME shadow of the housekeeping controller (R134)
  times : List (Requester × Nat)         -- HTIME shadows of remote requesters, latest first, at most four
  firstLow : List (Option Bool)          -- R20: first record without SETTLE of each cell, and whether it read below 0.1 V
  unused : Option Bool                   -- R20: none before the test; some true: cell inputs unused
  deriving DecidableEq, Repr, Inhabited

def CmsState.reset : CmsState where
  running := false
  calCfg := none
  calChen := none
  layoutHeld := false
  chen := 0x01FFFFFF#32
  histBase := 0
  histSize := 8192
  settle := List.replicate 25 12
  settleAt := List.replicate 25 []
  overload := List.replicate 25 none
  overMark := List.replicate 25 false
  pulsed := List.replicate 25 none
  balSeen := List.replicate 24 none
  hist := []
  lastInstant := 0
  spans := []
  snapT := 0
  snapNext := none
  startT := 0
  hkShadow := none
  shadows := []
  hkTime := none
  times := []
  firstLow := List.replicate 24 none
  unused := none

/-- A tap that the step rule of R163 suspects: how many of its tests have passed and have failed, and whether its hold of R166 stands. -/
structure Suspect where
  tap : Nat
  passed : Nat
  failed : Nat
  hold : Bool
  since : Nat
  deriving DecidableEq, Repr, Inhabited

/-- A harness measurement in progress (R175): who waits for it, the switch it closes at present, and the readings of each step: for each
cell, the baselines and the loaded readings of the cells in µV. -/
structure HarnessRun where
  ticket : Ticket
  closed : Option Nat
  interval : Nat
  baseline : List Int
  estLow : List Int
  estHigh : List Int
  sums : List Int
  deriving DecidableEq, Repr, Inhabited

/-- What one secondary input has been measured at in the present interval (R144, R145): the sum of its slot results, how many there are, whether a
conversion of them returned an extreme code, and the latest slot results, latest first, at most eight. A slot result is held in 1/342 of a code, so
that a mean of 18 and one of 19 conversions are both exact. -/
structure SlotSum where
  sum : Int
  count : Nat
  ovr : Bool
  last : List (Int × Bool)
  deriving DecidableEq, Repr, Inhabited

/-- How a bleed path conducted in the present interval (R171, R236): through how many of its halves from end to end, through a part of one, and
whether at any time. -/
structure Bled where
  full : Nat
  part : Bool
  seen : Bool
  deriving DecidableEq, Repr, Inhabited

/-- The self-check of one converter (R177): consecutive failing cycles, and for each of its 16 output bits the conversions since it last changed,
with the latest code. -/
structure SelfCheck where
  fails : Nat
  still : List Nat
  code : Int
  deriving DecidableEq, Repr, Inhabited

/-- XCK: the secondary side behind its registers. Lists of cells have entry n − 1 for cell n, lists of pairs entry k − 1 for pair k,
lists of taps entry k for tap Ck. Voltages are in µV. -/
structure XckState where
  pmean : List Int                       -- primary interval means (R155), with calibration
  pprev : List Int                       -- those of the interval before
  psettle : List Bool                    -- the interval mean carries SETTLE
  uncorrected : List Int                 -- latest uncorrected interval means, for R171
  pairMean : List Int                    -- pair interval results, µV
  pairPrev : List Int
  vmsns : Int                            -- VMSNS interval result, µV
  vmsnsPrev : Int
  intervals : Nat                        -- interval means seen, up to 2
  fails : List Nat                       -- consecutive failing comparisons (R158)
  passed : List Bool                     -- last comparison passed
  sumFail : Nat                          -- consecutive intervals beyond, and within, the sum limit (R154)
  sumPass : Nat
  pairFail : List Nat                    -- consecutive intervals of source 46
  owFail : List Nat                      -- consecutive failing and passing tests of each tap (R164)
  owPass : List Nat
  owWeak : List Nat                      -- consecutive tests without response (source 48)
  c0Fail : Nat                           -- consecutive intervals with, and without, the C0 condition
  c0Pass : Nat
  suspects : List Suspect
  sweepTap : Nat                         -- next tap of the sweep, 0 between sweeps
  sweepPend : Bool                       -- a sweep is due as soon as the present one ends
  due : List (Nat × Bool)                -- taps to test in this interval, and whether the test is the sweep's (R163)
  later : List Nat                       -- suspect taps whose test takes a frame of the following interval (R163)
  counted : List Nat                     -- sources that have counted their event of this interval (R177)
  slots : List SlotSum                   -- 24 cells, 23 pairs, VMSNS and 16 auxiliary inputs (R145)
  frame : Nat                            -- XB frames that have ended in this interval (R143, R149)
  gainTurn : Nat                         -- which gain slot 42 of the present frame uses: 0 ×1, 1 ×4, 2 ×16 (R143)
  checkA : SelfCheck
  checkB : SelfCheck
  second : List Word                     -- the cells' latest interval results as measured (R155)
  fall : List (Option Word)              -- the latest fallback result of each cell since its primary path was fenced (R160)
  balInt : List Bled                     -- bleed paths in this interval (R171)
  balRun : List (Nat × Nat)              -- halves conducted in each of the latest intervals alike, and the number of those intervals
  intervalAt : Nat                       -- fabric time at which the latest interval closed
  halfOn : Word                          -- bleed paths that conducted as the present half began
  halfAt : Option Nat                    -- fabric time at which it began
  pairOv : Word                          -- cells whose pair check of R165 crosses
  pairUv : Word
  gate : Option Nat                      -- when the balancing gate that stands began, ns (R173)
  harness : Option HarnessRun
  modeChanged : Bool                     -- the next interval, fast and fallback results follow a change of converter (R149)
  fastChanged : Bool
  fallChanged : Bool
  secSettle : List Bool                  -- the next interval, and fallback, result of a secondary measurement follows the lift of its fence (R499)
  fallSettle : List Bool
  ax0 : Word                             -- auxiliary configuration in force (R152)
  ax1 : Word
  axChanged : List Bool                  -- inputs whose setting changed in this interval
  firstInterval : Bool                   -- no interval has closed since ACTIVE entry (R150)
  deriving DecidableEq, Repr, Inhabited

def XckState.reset : XckState where
  pmean := List.replicate 24 0
  pprev := List.replicate 24 0
  psettle := List.replicate 24 true
  uncorrected := List.replicate 24 0
  pairMean := List.replicate 23 0
  pairPrev := List.replicate 23 0
  vmsns := 0
  vmsnsPrev := 0
  intervals := 0
  fails := List.replicate 24 0
  passed := List.replicate 24 false
  sumFail := 0
  sumPass := 0
  pairFail := List.replicate 23 0
  owFail := List.replicate 25 0
  owPass := List.replicate 25 0
  owWeak := List.replicate 25 0
  c0Fail := 0
  c0Pass := 0
  suspects := []
  sweepTap := 0
  sweepPend := false
  due := []
  later := []
  counted := []
  slots := List.replicate 64 ⟨0, 0, false, []⟩
  frame := 0
  gainTurn := 0
  checkA := ⟨0, List.replicate 16 0, 0⟩
  checkB := ⟨0, List.replicate 16 0, 0⟩
  second := List.replicate 24 0#32
  fall := List.replicate 24 none
  balInt := List.replicate 24 ⟨0, false, false⟩
  balRun := List.replicate 24 (0, 0)
  intervalAt := 0
  halfOn := 0#32
  halfAt := none
  pairOv := 0#32
  pairUv := 0#32
  gate := none
  harness := none
  modeChanged := false
  fastChanged := false
  fallChanged := false
  secSettle := List.replicate 24 false
  fallSettle := List.replicate 24 false
  ax0 := 0#32
  ax1 := 0#32
  axChanged := List.replicate 16 false
  firstInterval := true

/-- Where a plan step stands on the timeline of R190. -/
inductive ImpPhase
  | idle           -- no step runs
  | rising         -- the envelope rises, then the settle phase
  | window         -- the integration window is open
  | falling        -- the window has closed and the envelope falls
  deriving DecidableEq, Repr, Inhabited

/-- One tone of a step (R189): its frequency in mHz, its phase in 1/65536 turn with INV taken in, and its amplitude in mA. -/
structure Tone where
  freq : Nat
  phase : Nat
  amp : Nat
  deriving DecidableEq, Repr, Inhabited

/-- The fall of the envelope after an early end (R198): its cause, when the fall begins, the step that it ends with its start and window end, and
whether the plan holds the bleed switches open meanwhile (R210). -/
structure Fade where
  code : Nat
  start : Nat
  ts : Nat
  we : Nat
  tones : List Tone
  hold : Bool
  deriving DecidableEq, Repr, Inhabited

/-- What demodulation delivers for one tone (R201): the phasors 2·s/n of the channels 0 to 24, in-phase and quadrature, and each channel's mean over
the first and the second half of the window; in 1/65536 nV, so that their rounding stays far below the 0.01 % of R201. -/
structure ImpTone where
  phasor : List (Int × Int)
  halves : List (Int × Int)
  deriving DecidableEq, Repr, Inhabited

/-- A span of represented instants of the step's internal stream that carries OVR or SETTLE on a channel (R102, R111, R204): above the first fabric
time, up to the second. -/
structure Mark where
  chan : Nat
  ovr : Bool
  lo : Nat
  hi : Nat
  deriving DecidableEq, Repr, Inhabited

/-- IMP: the impedance engine behind its registers. Times are fabric times in ns. -/
structure ImpState where
  phase : ImpPhase
  next : Nat                             -- first entry of the next step
  last : Nat                             -- last entry of the step; `IMP_STAT.POINT` holds the first
  ts : Nat                               -- step start, window start and end, step end
  ws : Nat
  we : Nat
  stepEnd : Nat
  start : Nat                            -- start time of the plan (R196)
  passes : Nat                           -- passes begun
  fades : List Fade                      -- the envelopes of steps that ended early, while they fall, oldest first
  ccm : Bool                             -- the converter is held in continuous conduction (R192)
  balHold : Bool                         -- bleed switches held open (R210)
  results : List (Nat × Word)            -- result window by local address, rising; an unlisted word reads 0
  waiting : Option (List ImpTone × List Nat)  -- demodulated, not yet written; the instants of the window's samples
  wOpen : Word                           -- what happened in the window: bit n for channel n (R204)
  wFenced : Word
  marks : List Mark
  wBal : Word
  wXmis : Word
  wClip : Bool
  wMove : Bool
  partnerEpoch : Option Nat
  missed : Nat                           -- ticks missing in a row (R208)
  own : List (Nat × Nat)                 -- own boundaries, latest first, and the STATE, POINT and RUN sent for each
  awaited : List Nat                     -- boundaries whose partner tick has neither arrived nor been counted missing, oldest first (R208)
  tick : Option (Nat × Nat)              -- boundary and STATE of the partner's latest matching tick (R209)
  finalTick : Bool                       -- the partner still has to be told ABORTED
  deriving DecidableEq, Repr, Inhabited

def ImpState.reset : ImpState where
  phase := .idle
  next := 0
  last := 0
  ts := 0
  ws := 0
  we := 0
  stepEnd := 0
  start := 0
  passes := 0
  fades := []
  ccm := false
  balHold := false
  results := []
  waiting := none
  wOpen := 0#32
  wFenced := 0#32
  marks := []
  wBal := 0#32
  wXmis := 0#32
  wClip := false
  wMove := false
  partnerEpoch := none
  missed := 0
  own := []
  awaited := []
  tick := none
  finalTick := false

/-- CPB: protection and balancing behind its registers. -/
structure CpbState where
  balCmd : Word                          -- BALCMD and BALCFG in force (R238)
  balCfg : Word
  selFirst : List Nat                    -- switches selected for the period in each half (R237)
  selSecond : List Nat
  lastFirst : Nat                        -- last switch that conducted in each half of this period
  lastSecond : Nat
  prevFirst : Nat                        -- and of the previous period
  prevSecond : Nat
  duty2 : Bool                           -- the halved duty is in force for this period (R241)
  cool : Bool                            -- every TS0 sample of this period lay below TLIM − 10 °C
  clStart : Nat                          -- when the communication-loss timer last restarted, ns (R242)
  faultSince : Nat                       -- when the fault level began, ns (R229)
  sense : Bool                           -- the pair mode in force is SENSE (R233)
  nbrSince : Nat                         -- when the non-healthy condition began, ns (R232)
  checkCell : Nat                        -- cell of the next comparator check (R227)
  checkFails : List Nat                  -- consecutive failed checks of each cell
  prevOv : Word                          -- comparator samples of the last SENTINEL second (R222)
  prevUv : Word
  waitOv : Word                          -- cells whose comparator has tripped while R20 kept the trip's actions waiting
  waitUv : Word
  stuckOn : Word                         -- switches that their latest check found conducting while off (R240)
  deriving DecidableEq, Repr, Inhabited

def CpbState.reset : CpbState where
  balCmd := 0#32
  balCfg := 0x00200C3F#32
  selFirst := []
  selSecond := []
  lastFirst := 24
  lastSecond := 24
  prevFirst := 24
  prevSecond := 24
  duty2 := false
  cool := false
  clStart := 0
  faultSince := 0
  sense := false
  nbrSince := 0
  checkCell := 1
  checkFails := List.replicate 24 0
  prevOv := 0#32
  prevUv := 0#32
  waitOv := 0#32
  waitUv := 0#32
  stuckOn := 0#32

/-- The edges of one phase's period (R264), in steps of the delay line from the start of the common period: PWMLn falls, PWMHn rises, PWMHn falls
and PWMLn rises. -/
structure PwmEdges where
  lFall : Nat
  hRise : Nat
  hFall : Nat
  lRise : Nat
  deriving DecidableEq, Repr, Inhabited

/-- CNV: the converter behind its registers. `CNV_STAT` holds the state, the accepted code, the shedding level and the switching phases.
Lists have one entry for each phase 0 to 3. Currents are in the LSB of R260, voltages in mV, duties in 2^-16 of the period. -/
structure CnvState where
  cls : Nat                              -- class read at START (R259)
  part : Nat                             -- step of CHECK: 1 and 2 the test parts, 3 the driver wake (R272, R273)
  hic : Nat                              -- hiccup count (R275)
  busOk : Bool                           -- the bus has stood at BUSMIN for 10 ms (R263)
  vmod : Nat                             -- latest sensed module voltage
  iset : Int                             -- set-point after every clamp
  dff : Nat                              -- duty feed-forward in use
  rampV : Nat                            -- ramp value of R261 at rampT (ns), from which it moves to the target
  rampT : Nat
  softT : Nat                            -- when SOFTSTART began, or from its end when RUN began, ns
  stopT : Nat                            -- when STOPPING, HICCUP or the present step of CHECK began, ns, and the total current when STOPPING began
  stopI : Nat
  samples : List (Nat × Int)             -- total current of the periods of the last 1 ms, with their times, latest first
  phSum : List Int                       -- sums of the phase currents since the last equalisation, and their number (R270)
  phCnt : Nat
  coef : List (List Int)                 -- coefficients in use: b0 to b3, a1 to a3 (R269)
  loadPend : Bool                        -- LOADC waits for a period of phase 0
  errs : List (List Int)                 -- e1, e2, e3 and u1, u2, u3 of each phase (R268)
  outs : List (List Int)
  duty : List Nat                        -- duty of each phase's next period
  dead : List Nat                        -- dead time in use, ns (R265)
  trim : List Int                        -- phase trims (R270)
  trimSince : List (Option Nat)          -- since when the trim has stood at its limit, ns
  cutHigh : Nat                          -- phases whose high-side, and low-side, pulse the cycle limit has ended in this period (R283)
  cutLow : Nat
  limits : List (Nat × Nat)              -- when the latest periods ended, and the phases limited in each, latest first: the last 16 and those of 1 ms
  lowOff : Nat                           -- phases whose low side diode emulation has held off for the rest of the period (R278)
  clearPend : Nat                        -- phases whose history a coefficient load clears at their next period (R269)
  pinCode : Nat                          -- the code that the VSEL pins have shown for 1 ms (R262)
  brakeLeft : Nat                        -- periods of braking left (R281)
  faultAt : Option Nat                   -- when a stop last entered FAULT, ns (R289)
  setPoints : List (Nat × Int)           -- set-points of the last 20 µs, with their times, latest first (R280)
  offsets : List Nat                     -- interleave offset of each phase, in steps (R264)
  edges : List PwmEdges
  shed : Option (Nat × Nat)              -- shed window: the level it leads to, and the periods left (R279)
  shedHold : Option Nat                  -- until when no shedding is permitted after a load step, ns (R280)
  csyncAt : Option Nat                   -- last CSYNC rising edge, accepted or not, ns (R286)
  edge : Option Nat                      -- last accepted CSYNC edge, ns (R284)
  inRange : Nat                          -- consecutive periods in range, and out of range
  outRange : Nat
  csync : Nat                            -- latest CSYNC period, ns
  tracking : Bool                        -- the period tracks CSYNC (R284)
  alignLeft : Nat                        -- periods until phase 0 stands aligned to CSYNC
  syncOff : Nat                          -- offset of phase 0 from the CSYNC edge, steps
  slew : Bool                            -- the period slews back to FSW after a loss of sync (R285)
  spreadFrom : Nat                       -- spread spectrum resumes at this time, ns
  period : Nat                           -- PWM period in steps of the delay line (R264)
  deriving DecidableEq, Repr, Inhabited

def CnvState.reset : CnvState where
  cls := 0
  part := 0
  hic := 0
  busOk := false
  vmod := 0
  iset := 0
  dff := 0
  rampV := 0
  rampT := 0
  softT := 0
  stopT := 0
  stopI := 0
  samples := []
  phSum := List.replicate 4 0
  phCnt := 0
  coef := List.replicate 4 (List.replicate 7 0)
  loadPend := false
  errs := List.replicate 4 (List.replicate 3 0)
  outs := List.replicate 4 (List.replicate 3 0)
  duty := List.replicate 4 0
  dead := List.replicate 4 30
  trim := List.replicate 4 0
  trimSince := List.replicate 4 none
  cutHigh := 0
  cutLow := 0
  limits := []
  lowOff := 0
  clearPend := 0
  pinCode := 0
  brakeLeft := 0
  faultAt := none
  setPoints := []
  offsets := List.replicate 4 0
  edges := List.replicate 4 ⟨0, 0, 0, 0⟩
  shed := none
  shedHold := none
  csyncAt := none
  edge := none
  inRange := 0
  outRange := 0
  csync := 0
  tracking := false
  alignLeft := 0
  syncOff := 0
  slew := false
  spreadFrom := 0
  period := 33280

/-- CTL: the control engine behind its registers. x, v, a, the limits in force and the integrator are scaled: the unit is
1 / (12 800 · 2^(16 + extra)) of A, A/ms and A/ms² (R306). -/
structure CtlState where
  x : Int
  v : Int
  a : Int
  smax : Int                             -- limits in force (R308)
  amax : Int
  integ : Int
  base : Int                             -- latest engine output, LSB of R260
  lastBase : Int                         -- base at the latest summing update (R317)
  vbs : Nat                              -- inputs latched at the last tick (R305): the mean bus and module voltage, mV, and total current
  vmod : Nat
  itot : Int
  ratioNum : Int                         -- the ratio r of the last tick (R316)
  ratioDen : Int
  lastTick : Option Nat                  -- when the last tick was taken, ns (R302)
  stepped : Bool                         -- fabric time has stepped since (R302)
  trk : Nat                              -- `CTL_TRK` and `CTL_EVTEN` as the last tick took them (R304)
  evten : Word
  outs : List (Nat × Int)                -- outputs of the summing stage in the last 1 ms, with their times, latest first (R325)
  lneg : Nat                             -- limits at the last tick, × 0.1 A (R304)
  lpos : Nat
  limited : Int                          -- 1, −1: the summing stage limited the last set-point above, below (R311)
  table : List Word                      -- gain table in use and its entries (R314)
  nent : Nat
  deriving DecidableEq, Repr, Inhabited

def CtlState.reset : CtlState where
  x := 0
  v := 0
  a := 0
  smax := 0
  amax := 0
  integ := 0
  base := 0
  lastBase := 0
  vbs := 0
  vmod := 0
  itot := 0
  ratioNum := 0
  ratioDen := 1
  lastTick := none
  stepped := false
  trk := 20
  evten := 0#32
  outs := []
  lneg := 400
  lpos := 400
  limited := 0
  table := List.replicate 64 0#32
  nent := 64
/-- One sequence space of one port, in both directions (R359-R362). -/
structure Space where
  txNext : Nat                           -- number of the next new frame
  buf : List (Nat × Nat × Frame)         -- retry buffer, oldest first: number, input, frame
  ends : List Nat                        -- for each of these, the time at which its latest transmission ends (R361)
  replays : Nat                          -- consecutive replays that left the oldest frame unacknowledged
  rxNext : Nat                           -- number of the next expected frame
  rxAny : Bool                           -- a frame has been received in order
  ackPend : Bool                         -- an acknowledgement has to be sent
  nakPend : Bool                         -- with a NAK
  nakSent : Bool                         -- the NAK for the expected frame has been sent
  deriving DecidableEq, Repr, Inhabited

def Space.reset : Space where
  txNext := 0
  buf := []
  ends := []
  replays := 0
  rxNext := 0
  rxAny := false
  ackPend := false
  nakPend := false
  nakSent := false

/-- What a port drives on its line (R343, R346, R347, R349, R366, R368). -/
inductive LineDrive
  | silent
  | training
  | frames
  | wakePattern
  | legacy
  deriving DecidableEq, Repr, Inhabited

/-- What a line carries before scrambling: a control code, or three bits of a frame (R336, R338). -/
inductive LineItem
  | code (c : Nat)
  | group (g : Nat)
  deriving DecidableEq, Repr, Inhabited

/-- A frame on the line: when it begins, how much insertions have put off what is left of it, when it ends with its two IDLE codes, where
its groups stand among the port's line items, its payload in words (0 for a class A frame, which is not interrupted), and the payload
boundary at which class A frames were last inserted (R339, R350, R358). -/
structure Sent where
  begun : Nat
  shift : Nat
  stop : Nat
  at_ : Nat
  words : Nat
  last : Option Nat
  deriving DecidableEq, Repr, Inhabited

/-- What a receiver has of the line: its descrambler, whether the last pair was a prefix, the groups of the frame in reception and of the
frame it interrupts, each with its code errors (R337, R358, R360). -/
structure Receiver where
  scr : BitVec 23
  pre : Bool
  frame : Option (List Nat × Bool)
  outer : Option (List Nat × Bool)
  deriving DecidableEq, Repr, Inhabited

def Receiver.reset : Receiver := ⟨0#23, false, none, none⟩

/-- One port of the link layer behind its registers. The forwarding queues hold, with each frame, the input it came from: a port, or 4
for this node's own traffic. -/
structure PortState where
  qa : List (Nat × Frame)
  qb : List (Nat × Frame)
  qc : List (Nat × Frame)
  qd : List (Nat × Frame)
  turn : List Nat                        -- input served last in each class (R398)
  credB : Int                            -- credits in tenths of a bit-time (R398)
  credC : Int
  credD : Int
  spA : Space
  spBd : Space
  drive : LineDrive
  line : List (List Byte)                -- the frames that the port's latest transmission put on the line, check codes included
  items : List LineItem                  -- the same transmission as codes and groups
  levels : List Bool                     -- in legacy mode: the same transmission as line levels, two for each bit (R368)
  sending : List Sent                    -- and its frames in time
  scr : BitVec 23                        -- the scrambler before the first of these items (R337)
  rx : Receiver
  lastFrame : Nat                        -- time of the last frame sent or received (R347)
  beatAt : Nat                           -- when the partner's latest BEAT arrived, or the port reached UP, ns (R407)
  downAt : Nat                           -- when the port entered DOWN (R346)
  trainAt : Nat                          -- when it entered TRAIN or WAKE (R344, R349)
  hush : Nat                             -- until when it stays silent after a link loss (R366)
  spread : Bool                          -- down-spread in force (R71)
  fromLpi : Bool                         -- TRAIN entered from low-power idle (R347)
  slew : Nat                             -- edge rate in force (R341)
  beatSeen : Bool                        -- the partner's first BEAT since the last link loss has arrived (R406)
  fenced : Bool                          -- a fence holds the port in OFF (R367, R419)
  deriving DecidableEq, Repr, Inhabited

def PortState.reset : PortState where
  qa := []
  qb := []
  qc := []
  qd := []
  turn := [4, 4, 4, 4]
  credB := 0
  credC := 0
  credD := 0
  spA := Space.reset
  spBd := Space.reset
  drive := .silent
  line := []
  items := []
  levels := []
  sending := []
  scr := 0#23
  rx := Receiver.reset
  lastFrame := 0
  beatAt := 0
  downAt := 0
  trainAt := 0
  hush := 0
  spread := false
  fromLpi := false
  slew := 1
  beatSeen := false
  fenced := false

/-- LNK: the four ports. -/
structure LnkState where
  ports : List PortState
  nonce : Word                           -- random value drawn at each device reset (R356)
  errSum : Nat                           -- running total of link errors, modulo 2^16 (R378)
  band : Band                            -- the temperature band whose preset applies (R342)
  chain : Option Nat                     -- first of the two chain positions held in legacy mode (R371)
  deriving DecidableEq, Repr, Inhabited

def LnkState.reset : LnkState where
  ports := List.replicate 4 PortState.reset
  nonce := 0#32
  errSum := 0
  band := .normal
  chain := none

/-- A delivered frame that has not been acted on: the port it arrived on, its time of arrival in ns, and for a class D request whether
the queue was at its watermark on arrival (R393). -/
structure Arrived where
  arrival : Nat
  since : Nat
  tooMany : Bool
  frame : Frame
  deriving DecidableEq, Repr, Inhabited

/-- A completion held in a replay cache (R397): tag, status, wait in ns, up to four data words, and whether a re-issue runs again. -/
structure Cached where
  tag : Nat
  status : Status
  tval : Nat
  data : List Word
  rerun : Bool
  deriving DecidableEq, Repr, Inhabited

/-- The replay cache of one gateway: its ID, its epoch, and its last 16 completions, latest first. -/
structure ReplayCache where
  src : Nat
  epoch : Nat
  entries : List Cached
  deriving DecidableEq, Repr, Inhabited

/-- A stream session (R411-R414). -/
structure Session where
  gw : Nat
  div : Nat
  fill : Nat
  mask : Word
  state : Nat                            -- 0 closed, 1 open, 2 suspended
  next : Nat                             -- next word index to send
  frames : Word
  sent : List (Nat × Nat)                -- first word index and time (ns) of the frames first sent, latest first
  resentTo : Nat                         -- words below this one have been sent before
  deriving DecidableEq, Repr, Inhabited

/-- An entry of a gateway's route table (R404). -/
structure RouteEntry where
  proute : Word
  aroute : Word
  epoch : Nat
  state : Nat                            -- 0 EMPTY, 1 VALID, 2 NOROUTE, 3 SILENT
  noalt : Bool
  afail : Bool
  pfail : Bool
  use : Bool
  ahop : Nat
  phop : Nat
  miss : Nat
  flags : Nat
  uid0 : Word
  uid1 : Word
  plist : List Nat
  alist : List Nat
  deriving DecidableEq, Repr, Inhabited

/-- A fabric request of this gateway that has not completed (R395, R396). -/
structure Req where
  tag : Nat
  slot : Option Nat                      -- the host command it serves; none: the enumeration run
  node : Option Nat                      -- target ID in node ID mode
  frame : Frame
  words : Nat                            -- words of a READ
  reissued : Bool
  issued : Nat                           -- when it was queued or re-issued, and when it left, ns
  sent : Option Nat
  waited : Nat                           -- the egress wait of copies sent before a re-issue, ns (R394, R396)
  deriving DecidableEq, Repr, Inhabited

/-- A node found by enumeration (R401, R402). Entry 0 of a run is the gateway itself. -/
structure EnumNode where
  uid0 : Word
  uid1 : Word
  path : List Nat                        -- ports from the gateway to the node
  back : List Nat                        -- ports from the node to the gateway
  id : Option Nat                        -- the ID it reported, then the ID of the run
  role : Nat
  enumr : Bool
  epoch : Nat
  ports : List (Option Nat)              -- for each port that is UP, the partner's port number
  nbr : List (Option Nat)                -- for each port, the node found behind it
  deriving DecidableEq, Repr, Inhabited

/-- A request that a run has still to send after probing (R402): ASSIGN for a node of the run, ROUTES for an ID of the second gateway's table, or home set
`k` of node `t`, with the routes whose node lists the node has been sent. -/
inductive RunItem
  | assign (i : Nat)
  | entry (id : Nat)
  | home (k t : Nat) (listed : Option Nat)
  deriving DecidableEq, Repr, Inhabited

/-- An enumeration run in progress (R399-R402). -/
structure EnumRun where
  mode : Nat                             -- 1 full, 2 verify, 3 recover
  ticket : Option Ticket
  commanded : Bool
  nodes : List EnumNode
  todo : List (Nat × Nat)                -- node and port still to probe
  out : List (Nat × Nat × Nat)           -- tag, node and port of the probes outstanding
  planned : Bool                         -- probing has ended; the requests below follow
  written : Bool                         -- the IDs are assigned and this gateway's own table is written (R402, step 4)
  work : List RunItem
  short : Bool                           -- some node stays without ID, or a request to a node went unanswered
  cuts : List (Nat × Option Nat)         -- links (none: all of a node's) that failed during the run (R418)
  deriving DecidableEq, Repr, Inhabited

/-- FAB: the fabric layer behind its registers. -/
structure FabState where
  evPend : List (Nat × Nat × Nat)        -- event bits not yet reported: block code, bits, fabric time of the first (R417)
  evLast : List (Nat × Nat)              -- when each block last sent an EVENT frame, ns (R417)
  statusAt : Option Nat                  -- when the latest STATUS reports left, ns (R406)
  bcount : Nat                           -- broadcast counter (R387)
  bms : Nat                              -- the millisecond in which broadcasts are counted, and their number
  bsent : Nat
  bwait : List (FrameType × Cls × List Word)  -- broadcasts beyond 64 in a millisecond
  bpairs : List (Nat × Nat × Nat)        -- kept (SRC, TAG) pairs, and since when, ns (R387)
  inbox : List Arrived
  caches : List ReplayCache
  sessions : List (Nat × Session)        -- by session number, rising; unlisted: never opened
  planned : List (Option Nat)            -- home set k waits in a planned switch; since when its stream frames are acknowledged, ns (R403)
  rerouted : List Bool                   -- home set k: its primary route has been written in place of one that did not work (R403)
  table : List (Nat × RouteEntry)        -- route table by ID, rising; unlisted: EMPTY
  tableHeld : List (Nat × RouteEntry)    -- entries that change when the requests to their node have completed (R402)
  reqs : List Req
  tagsHeld : List (Nat × Nat)            -- TAGs kept out of use after a timeout, and since when, ns (R395)
  run : Option EnumRun
  runEnd : Option Nat                    -- when the latest run ended, ns (R476)
  enumr : Bool                           -- ENUMR of R400
  withdrawn : Bool                       -- withdrew from its latest enumeration (R400, R467)
  epochChanges : Nat                     -- epoch changes counted (R415)
  holdSince : Option Nat                 -- the last LINKUP notice whose hold-off runs, ns (R399)
  switches : Nat                         -- running total of route changes, modulo 2^16 (R422)
  deriving DecidableEq, Repr, Inhabited

def FabState.reset : FabState where
  evPend := []
  evLast := []
  statusAt := none
  bcount := 0
  bms := 0
  bsent := 0
  bwait := []
  bpairs := []
  inbox := []
  caches := []
  sessions := []
  planned := [none, none]
  rerouted := [false, false]
  table := []
  tableHeld := []
  reqs := []
  tagsHeld := []
  run := none
  runEnd := none
  enumr := false
  withdrawn := false
  epochChanges := 0
  holdSince := none
  switches := 0

/-- A command of the host that has been fetched or accepted and has not completed (R444, R448). -/
structure HostCmd where
  slot : Nat                             -- the model's own name of its completion slot
  desc : List Word                       -- the 16 words of the descriptor
  data : List Word                       -- data words of a WRITE that follow it
  begun : Bool
  since : Nat                            -- when it was fetched, ns
  deriving DecidableEq, Repr, Inhabited

/-- What a completion of R447 reports. -/
structure HostDone where
  cid : Nat
  status : Status
  tval : Nat
  rdata : Bool
  reissued : Bool
  cached : Bool
  node : Option Nat
  epoch : Nat
  tag : Nat
  words : Nat
  result : Word
  data : List Word
  dptr : Nat                             -- where READ data go in host memory (R444)
  deriving DecidableEq, Repr, Inhabited

/-- An entry for a stream ring that waits for room in it (R451, R455): KIND 1 STREAM or 3 LOSS, and for LOSS the frames lost. -/
structure StreamEntry where
  ring : Nat
  kind : Nat
  src : Nat
  sess : Nat
  epoch : Nat
  lost : Nat
  payload : List Word
  deriving DecidableEq, Repr, Inhabited

/-- An entry for the event ring that waits for room (R452): KIND 1 EVENT, 2 ALARM or 3 LOSS, and for LOSS the entries lost. -/
structure EventEntry where
  src : Nat
  kind : Nat
  epoch : Nat
  rtime : Nat
  lost : Nat
  payload : List Word
  deriving DecidableEq, Repr, Inhabited

/-- The PCI Express function (R439-R443): what configuration space holds. -/
structure PcieState where
  memEn : Bool                           -- Memory Space Enable (R441)
  busMaster : Bool                       -- Bus Master Enable (R455)
  bar : Nat                              -- what the two words of the memory BAR hold (R439)
  msixEn : Bool                          -- MSI-X Enable and Function Mask (R439, R454)
  msixMask : Bool
  pmeEn : Bool                           -- PME_En and PME_Status (R442)
  pmeStat : Bool
  pmeOwed : Bool                         -- a PM_PME message that the link could not carry yet (R442)
  pmeSent : Nat                          -- PM_PME messages sent (R442)
  d3 : Bool                              -- D3hot (R439, R442)
  mps : Nat                              -- Max Payload Size and Max Read Request Size codes (R439)
  mrrs : Nat
  aspm : Nat                             -- ASPM Control (R439)
  aer : Word                             -- AER uncorrectable status, mask and severity (R439)
  aerMask : Word
  aerSev : Word
  timeout : Nat                          -- Completion Timeout Value and Completion Timeout Disable (R439)
  timeoutOff : Bool
  deriving DecidableEq, Repr, Inhabited

def PcieState.reset : PcieState where
  memEn := false
  busMaster := false
  bar := 0
  msixEn := false
  msixMask := false
  pmeEn := false
  pmeStat := false
  pmeOwed := false
  pmeSent := 0
  d3 := false
  mps := 0
  mrrs := 2
  aspm := 0
  aer := 0#32
  aerMask := 0#32
  aerSev := 0x00062030#32
  timeout := 0
  timeoutOff := false

/-- HST: the host interface behind its registers. Lists of rings have an entry for each ring 0 to 10. -/
structure HstState where
  spi : Nat                              -- generation that the SPI pins have settled: 0 none, 1, 2
  phyDown : Bool                         -- the PCI Express PHY is powered down until the next device reset (R45, R424)
  cmds : List HostCmd
  nextSlot : Nat                         -- the model's own
  waiting : List HostDone                -- completions not yet written or taken
  mem : List (Nat × Byte)                -- host memory, as far as the device has written it: byte address, byte
  hidx : List Nat                        -- the host's index of each ring (R449)
  phase : List Bool                      -- PH of the next entry of each ring (R450)
  unsig : List (Nat × Nat)               -- entries written and not signalled, and when the oldest was written, ns (R454)
  dirty : Bool                           -- an index has changed since the last writeback
  writebacks : Word                      -- writebacks since EN rose
  wbAt : Option Nat                      -- when the block was last written, ns (R453)
  msi : List Nat                         -- messages sent for each vector (the model's own)
  sbuf : List StreamEntry
  evq : List EventEntry
  lost : List Nat                        -- entries discarded since the last entry of each ring
  pcie : PcieState
  lastErr : Nat                          -- generation 2: LASTERR, CSEQ, BUSY of R434
  cseq : Nat
  g2At : Nat                             -- when the latest valid generation 2 header arrived, ns (R437)
  g2busy : Bool
  gotCpl : Bool                          -- what the last GET of each kind returned
  gotEvt : Bool
  gotStr : Nat
  reply : List Byte                      -- what the device shifted out in the latest SPI transaction (R426, R432)
  g1crc : Bool                           -- STAT bits 4 and 5 of the next generation 1 response (R429)
  g1reg : Bool
  g1new : List Bool                      -- NEW of each emulated device
  g1latch : List Nat                     -- latched FAULT bits of each emulated device
  deriving DecidableEq, Repr, Inhabited

def HstState.reset : HstState where
  spi := 0
  phyDown := false
  cmds := []
  nextSlot := 0
  waiting := []
  mem := []
  hidx := List.replicate 11 0
  phase := List.replicate 11 true
  unsig := List.replicate 11 (0, 0)
  dirty := false
  writebacks := 0#32
  wbAt := none
  msi := List.replicate 8 0
  sbuf := []
  evq := []
  lost := List.replicate 11 0
  pcie := PcieState.reset
  lastErr := 0
  cseq := 0
  g2At := 0
  g2busy := false
  gotCpl := false
  gotEvt := false
  gotStr := 0
  reply := []
  g1crc := false
  g1reg := false
  g1new := [false, false]
  g1latch := [0, 0]

/-- The delay exchange of one port (R469, R470) and what its partner last reported. -/
structure DelayState where
  seq : Nat                              -- SEQ of the next request
  asked : Option Nat                     -- SEQ of the request not yet answered
  sent : Option Nat                      -- when that request left, in fabric time: t1 (R357, R470)
  report : Option (Nat × Bool × Nat)     -- the partner's STATE, PLINK and HOPS
  delays : List Int                      -- delays of the last 16 responses, latest first, ns
  slow : Bool                            -- the mean exceeds 500 ns and source 14 has been raised for it
  better : Option Nat                    -- since when HOPS lies at least 2 below the parent's, ns (R471)
  deriving DecidableEq, Repr, Inhabited

def DelayState.reset : DelayState where
  seq := 0
  asked := none
  sent := none
  report := none
  delays := []
  slow := false
  better := none

/-- TBS: the timebase behind its registers. -/
structure TbsState where
  ports : List DelayState
  parent : Bool                          -- a parent is chosen (`TBS_STAT.PARENT` names it)
  changed : Option Nat                   -- when the parent last changed, ns
  good : Nat                             -- consecutive exchanges within 20 ns, and above 250 ns (R472)
  bad : Nat
  held : Nat                             -- when HOLDOVER began, ns
  stepReq : Bool                         -- STEP waits for the 64 Sa/s boundary (R468)
  shadows : List (Requester × Word)      -- shadows of `TBS_TIMEH`, latest first, at most four, and the housekeeping controller's
  latch : Option Nat                     -- T of a taken rein that has not latched (R480)
  skipped : Bool                         -- a step of fabric time has skipped that T (R483)
  taken : Bool                           -- a rein has been taken since reset
  rein : Nat                             -- this node's rein count, modulo 256 (R478)
  edge : Option Nat                      -- when the last SNAP edge that issued a rein stood at the pin, ns (R482)
  snapAt : Option Nat                    -- when SNAP last rose, ns (R482)
  ignored : Nat                          -- consecutive ignored edges
  track : Option Int                     -- the rate that tracks the parent, ppb, once drawn (R473)
  slew : Int                             -- TPLL's correction while the node follows a parent or holds over, ppb (R472, R473)
  frac : Nat                             -- fabric time below 1 ns, in 10⁻⁹ ns
  hostRef : Bool                         -- TPLL references REFCLKP/REFCLKN instead of MOSC (R468)
  deriving DecidableEq, Repr, Inhabited

def TbsState.reset : TbsState where
  ports := List.replicate 4 DelayState.reset
  parent := false
  changed := none
  good := 0
  bad := 0
  held := 0
  stepReq := false
  shadows := []
  latch := none
  skipped := false
  taken := false
  rein := 0
  edge := none
  snapAt := none
  ignored := 0
  track := none
  slew := 0
  frac := 0
  hostRef := false


/-- An occurrence for the thermal event log (R525): fabric time, whether it is local time, kind, sensor and reading. -/
structure LogEntry where
  time : Nat
  unsync : Bool
  kind : Nat
  sensor : Nat
  temp : Nat
  deriving DecidableEq, Repr, Inhabited

/-- What a write of the NVM is for (R526, R537-R544): a system record with a new epoch, profile or targets, a configuration profile, a
customer copy by HSAVE, by a calibration run or by a repair, an entry of the event log, and the erasure of the log. -/
inductive NvmJob
  | epoch (e : Nat)
  | select (v : Nat)
  | targets
  | profile (k : Nat)
  | harness
  | run
  | repair (toB : Bool)
  | log (e : LogEntry)
  | logClear
  deriving DecidableEq, Repr, Inhabited

/-- A write of the NVM in progress: its purpose, where it writes, the bytes, what stood there before, and who waits for it. -/
structure NvmOp where
  job : NvmJob
  base : Nat
  bytes : List Byte
  undo : List Byte
  ticket : Option Ticket
  deriving DecidableEq, Repr, Inhabited

/-- A calibration run (R533-R536): who waits for it, the harness values at time 0, the zero-phase offsets, and the new coefficients. -/
structure CalRun where
  ticket : Ticket
  hres : List Nat
  rbal : Nat
  zero : List Int
  coef : List (Word × Word)
  ratio4 : Word
  ratio16 : Word
  written : Option Bool                  -- the new copy stands in NVM: copy B, or copy A
  begun : Nat                            -- time 0 of R534, ns
  deriving DecidableEq, Repr, Inhabited

/-- CAL: calibration and NVM behind the CAL registers. -/
structure CalState where
  coef : List (Word × Word)              -- offsets and gains in use, in the order of R531; empty: vendor trim alone
  ratio4 : Word                          -- ratios of the auxiliary gains ×4 and ×16 to ×1 (R531), 1.0 = 0x4000_0000
  ratio16 : Word
  span : List (Nat × Option Nat)         -- start and end of the latest calibration runs, latest first, fabric time (R107)
  nvm : List (Nat × Byte)                -- NVM by offset from 0x400, rising; an unlisted byte is erased, 0xFF (R537)
  op : Option NvmOp
  queue : List (NvmJob × Option Ticket)  -- writes that wait (R544)
  epochPend : Option Nat                 -- a node epoch still to be stored (R73, R544)
  run : Option CalRun
  patch : Option Ticket                  -- who waits for a patch load (R545)
  patchErased : List Nat                 -- sectors erased since the patch area was opened
  deriving DecidableEq, Repr, Inhabited

def CalState.reset : CalState where
  coef := []
  ratio4 := 0x40000000#32
  ratio16 := 0x40000000#32
  span := []
  nvm := []
  op := none
  queue := []
  epochPend := none
  run := none
  patch := none
  patchErased := []

/-- THM: the thermal block behind its registers. Lists have an entry for each die sensor. -/
structure ThmState where
  first : Bool                           -- no sample since the device reset (R521)
  die : List Int                         -- latest readings, 0.01 °C
  outside : List Nat                     -- consecutive samples out of range, with a failed self-check, and good (R515)
  biasBad : List Nat
  good : List Nat
  warned : List Bool                     -- the condition of source 112 + n stands (R522)
  beyond : Word                          -- thermistors whose condition of source 115 stands
  disagree : Bool                        -- source 117 stands (R518)
  differAt : Option Nat                  -- since which sample two good sensors have differed by more than 30 °C, ns (R518)
  clearAt : Option Nat                   -- since which sample every reading has stood more than 8 °C clear in gallop, ns (R520)
  logQ : List LogEntry                   -- occurrences still to be written (R525)
  logLast : List (Nat × Nat)             -- when each kind was last taken, ns
  restarted : Bool                       -- source 118 is due at the collector's first sample (R524)
  deriving DecidableEq, Repr, Inhabited

def ThmState.reset : ThmState where
  first := true
  die := [0, 0, 0]
  outside := [0, 0, 0]
  biasBad := [0, 0, 0]
  good := [0, 0, 0]
  warned := [false, false, false]
  beyond := 0#32
  disagree := false
  differAt := none
  clearAt := none
  logQ := []
  logLast := []
  restarted := false


/-- A self-test run in progress (R562-R571): March SS, compatibility mode, the items still to start, the item in progress (0 to 8 a memory,
16 to 21 a partition) with its start in ns, its segments ended, failed segments and first failing word, whether an item has failed or is
incomplete, and whether partition 5 has begun to stop service. -/
structure BstRun where
  ss : Bool
  compat : Bool
  todo : List Nat
  cur : Option Nat
  start : Nat
  segs : Nat
  fsegs : Nat
  fword : Option Nat
  failed : Bool
  short : Bool
  leaving : Bool
  deriving DecidableEq, Repr, Inhabited

/-- BST: self-test and the life-cycle fuses (R553): burned transition bits, the RETURN fuse, and whether two copies of a fuse disagree. -/
structure BstState where
  fuseK : Nat
  fuseRet : Bool
  fuseErr : Bool
  run : Option BstRun
  lc : Option (Nat × Ticket)             -- life-cycle change whose fuse is being programmed (R556)
  runAt : Nat                            -- start of the last run of either kind, or the last device reset (R572, R573), ns
  deriving DecidableEq, Repr, Inhabited

def BstState.reset : BstState where
  fuseK := 1
  fuseRet := false
  fuseErr := false
  run := none
  lc := none
  runAt := 0

/-- FLT: the collector behind the FLT registers. -/
structure FltState where
  lines : List Nat                       -- sources whose rail pair shows an active condition, rising
  waiting : List Nat                     -- events not yet accepted, oldest first
  react : List (Nat × Nat)               -- severe sources with the reaction each took (R496), rising
  counts : List (Nat × Nat × Nat)        -- events counted and window start in MOSC cycles of each source (R493), rising
  blamedP : Word                         -- cells that source 40, and 41, fences (R497)
  blamedS : Word
  phases : List (Nat × Nat)              -- phases that sources 79, 80 and 82 fence, as masks (R290)
  railErr : List Nat                     -- sources whose rail error stands, rising (R491)
  alarmed : List (Nat × Nat)             -- when each source's last ALARM of kind EVENT left, ns (R506)
  injEnd : Nat                           -- when the injection in progress ends, ns (R507)
  deriving DecidableEq, Repr, Inhabited

def FltState.reset : FltState where
  lines := []
  waiting := []
  react := []
  counts := []
  blamedP := 0#32
  blamedS := 0#32
  phases := []
  railErr := []
  alarmed := []
  injEnd := 0

/-- The state of the device: the register file (a sorted list of the registers that do not stand at their reset value), the state behind
the registers of each block, the memories, the pins, the time, and the commands that wait. -/
structure State where
  regs : List (Nat × Word)
  now : Nat            -- ns since power was first applied (the device's own oscillator time)
  ft : Nat             -- fabric time in ns, modulo 2^64
  free : Nat           -- the model's own: how many free values have been used
  resp : Option Resp   -- the model's own: the latest completion
  pins : Pins
  sys : SysState
  cms : CmsState
  xck : XckState
  imp : ImpState
  cpb : CpbState
  flt : FltState
  lnk : LnkState
  fab : FabState
  hst : HstState
  cnv : CnvState
  ctl : CtlState
  tbs : TbsState
  cal : CalState
  thm : ThmState
  bst : BstState
  pending : List Instr
  deriving DecidableEq, Repr, Inhabited

def Pins.reset : Pins where
  pwm := .low
  gden := .low
  fault := .faultLevel

/-- The pins in SHELF and SENTINEL, and without supply (R48, R229). -/
def Pins.unpowered : Pins where
  pwm := .hiZ
  gden := .hiZ
  fault := .released

/-- The device right after power-on reset with VIN present: every register at its reset value, start-up waiting for a buck leg (R72,
R74). DESIGN CHOICE notes/assumptions/3.md. -/
def State.reset : State where
  regs := []
  now := 0
  ft := 0
  free := 0
  resp := none
  pins := Pins.reset
  sys := SysState.reset
  cms := CmsState.reset
  xck := XckState.reset
  imp := ImpState.reset
  cpb := CpbState.reset
  flt := FltState.reset
  lnk := LnkState.reset
  fab := FabState.reset
  hst := HstState.reset
  cnv := CnvState.reset
  ctl := CtlState.reset
  tbs := TbsState.reset
  cal := CalState.reset
  thm := ThmState.reset
  bst := BstState.reset
  pending := []

end Sys2Proof.Machine
end

