-- ==== Sys2Proof/Machine/Ops.lean ====
section
/-!
DEFINITION. Sys2Proof/Machine/Ops.lean: the named operations every block uses: sorted lists, the register file and its fields, free
values, time, fault sources and event bits.
-/
namespace Sys2Proof.Machine

/-- What a meaning answers. -/
abbrev Out := Host.Outcome State Fault Refusal

/-! ## Sorted association lists -/

/-- The entry of a key in an association list. -/
def assoc {β : Type} (k : Nat) : List (Nat × β) → Option β
  | [] => none
  | (a, v) :: t => if a = k then some v else assoc k t

/-- A sorted association list without a key. -/
def assocErase {β : Type} (k : Nat) : List (Nat × β) → List (Nat × β)
  | [] => []
  | (a, v) :: t => if a = k then assocErase k t else (a, v) :: assocErase k t

/-- A sorted association list with a key set to a value. -/
def assocPut {β : Type} (k : Nat) (v : β) : List (Nat × β) → List (Nat × β)
  | [] => [(k, v)]
  | (a, w) :: t =>
    if k < a then (k, v) :: (a, w) :: t
    else if a = k then (k, v) :: t
    else (a, w) :: assocPut k v t

/-- Keys strictly rise. -/
def assocSorted {β : Type} : List (Nat × β) → Bool
  | [] => true
  | [_] => true
  | (a, _) :: (b, w) :: t => a < b && assocSorted ((b, w) :: t)

/-- Whether a number is listed. -/
def natMem (k : Nat) (l : List Nat) : Bool := l.any (· == k)

/-- A rising list of numbers with one more. -/
def natPut (k : Nat) : List Nat → List Nat
  | [] => [k]
  | a :: t => if k < a then k :: a :: t else if a = k then a :: t else a :: natPut k t

/-- A list of numbers without one. -/
def natErase (k : Nat) (l : List Nat) : List Nat := l.filter (fun a => a != k)

/-- The entry of a list at an index, with a default. -/
def nth {α : Type} (l : List α) (i : Nat) (d : α) : α := l.getD i d

/-- A list with the entry at an index replaced; a list too short for it is filled up first, so that the entry is there in every state. -/
def setNth {α : Type} [Inhabited α] : List α → Nat → α → List α
  | [], 0, v => [v]
  | [], i + 1, v => default :: setNth [] i v
  | _ :: t, 0, v => v :: t
  | a :: t, i + 1, v => a :: setNth t i v

/-- 0 or 1. -/
def b2n (b : Bool) : Nat := if b then 1 else 0

/-! ## The register file -/

/-- What a register reads as: its entry, or its reset value. -/
def RegFile.get (l : List (Nat × Word)) (a : Nat) : Word := (assoc a l).getD (resetOf a)

/-- The register file with one register set; a register at its reset value is not listed. -/
def RegFile.set (l : List (Nat × Word)) (a : Nat) (v : Word) : List (Nat × Word) :=
  if v = resetOf a then assocErase a l else assocPut a v l

/-- The canonical form of a register file: addresses strictly rise, and no entry stands at its reset value. -/
def RegFile.wf (l : List (Nat × Word)) : Bool := assocSorted l && l.all (fun e => e.2 != resetOf e.1)

/-- The register at a local address. -/
def reg (s : State) (a : Nat) : Word := RegFile.get s.regs a

/-- A state with the register at a local address set. -/
def setReg (a : Nat) (v : Word) (s : State) : State := { s with regs := RegFile.set s.regs a v }

/-- A word with a bit field replaced. -/
def putBits (r : Word) (lo w v : Nat) : Word :=
  let m := BitVec.ofNat 32 (2 ^ w - 1)
  (r &&& ~~~(m <<< lo)) ||| ((BitVec.ofNat 32 v &&& m) <<< lo)

/-- A bit field of a word. -/
def getBits (r : Word) (lo w : Nat) : Nat := (r >>> lo).toNat % 2 ^ w

/-- The value of a field. -/
def getF (f : Field) (s : State) : Nat := getBits (reg s f.addr) f.lo f.w

/-- Whether a one-bit field is set. -/
def bit (f : Field) (s : State) : Bool := getF f s == 1

/-- A state with a field set to a value, modulo its width. -/
def setF (f : Field) (v : Nat) (s : State) : State := setReg f.addr (putBits (reg s f.addr) f.lo f.w v) s

/-- A state with a one-bit field set to a truth value. -/
def setB (f : Field) (b : Bool) (s : State) : State := setF f (b2n b) s

/-- A counter field advanced by `n`, saturating at its largest value. -/
def addSat (f : Field) (n : Nat) (s : State) : State := setF f (min (getF f s + n) (2 ^ f.w - 1)) s

/-- A counter field advanced by 1, saturating at its largest value. -/
def incSat (f : Field) (s : State) : State := addSat f 1 s

/-- A counter register advanced by 1, wrapping. -/
def incWrap (a : Nat) (s : State) : State := setReg a (reg s a + 1#32) s

/-- A bit of a register. -/
def regBit (a k : Nat) (s : State) : Bool := (reg s a).getLsbD k

/-- A state with a bit of a register set to a truth value. -/
def setRegBit (a k : Nat) (b : Bool) (s : State) : State := setReg a (putBits (reg s a) k 1 (b2n b)) s

/-- A two's-complement field as an integer. -/
def signed (w v : Nat) : Int := if v < 2 ^ (w - 1) then v else (v : Int) - 2 ^ w

/-- An integer as a two's-complement field. -/
def unsigned (w : Nat) (v : Int) : Nat := (v % 2 ^ w).toNat

/-- An integer limited to a range. -/
def clampI (v lo hi : Int) : Int := if v < lo then lo else if hi < v then hi else v

/-- The magnitude of an integer. -/
def mag (v : Int) : Int := v.natAbs

/-- The bits of a word from `lo` up, `n` of them, as a list of truth values. -/
def bitsOf (r : Word) (lo n : Nat) : List Bool := (List.range n).map (fun k => r.getLsbD (lo + k))

/-- How many bits of a word are set. -/
def popCount (r : Word) : Nat := ((List.range 32).filter (fun k => r.getLsbD k)).length

/-! ## Arithmetic whose last digit the spec leaves open -/

/-- A quotient whose rounding the spec does not state: the floor, or where it is not exact one more, as Config decides. -/
def openDiv (num den : Int) : Int :=
  if den = 0 then Config.divByZero num
  else if num % den = 0 then num / den
  else num / den + b2n (Config.roundUp num den)

/-- A quotient rounded to the nearest integer, ties away from zero (R306); `den` is positive. -/
def roundAway (num den : Int) : Int :=
  if 0 ≤ num then (2 * num + den) / (2 * den) else -((2 * -num + den) / (2 * den))

/-- The whole part of a square root, by bits from the highest. -/
def sqrtBits (n : Nat) (r : Nat) : Nat → Nat
  | 0 => r
  | k + 1 => if (r + 2 ^ k) * (r + 2 ^ k) ≤ n then sqrtBits n (r + 2 ^ k) k else sqrtBits n r k

/-- The whole part of a square root. -/
def isqrt (n : Nat) : Nat := sqrtBits n 0 (Nat.log2 n / 2 + 1)

/-- A square root whose rounding the spec does not state. -/
def openSqrt (n : Nat) : Nat := if isqrt n * isqrt n = n then isqrt n else isqrt n + b2n (Config.roundUp n 2)

/-- A byte of NVM set; an erased byte is not listed. -/
def nvmPut (o : Nat) (b : Byte) (m : List (Nat × Byte)) : List (Nat × Byte) := if b = 0xFF#8 then assocErase o m else assocPut o b m

/-! ## The sine -/

/-- A quarter turn in radians, times 2^64. -/
def quarterTurn : Nat := 28976077832308491369

/-- The sine of an angle of the first quarter turn, in radians times 2^64, by 14 terms of its series: it is off by less than 2^-56. -/
def sineSeries (x : Nat) : Nat :=
  let x2 := x * x / 2 ^ 64
  x * ((List.range 13).foldl (fun acc i => 2 ^ 64 - x2 * acc / 2 ^ 64 / ((26 - 2 * i) * (27 - 2 * i))) (2 ^ 64)) / 2 ^ 64

/-- The sine of the turn n / d, times 2^64 (R189). -/
def sine64 (n d : Nat) : Int :=
  let t := n % d * 4
  let r := t % d * 2 ^ 64 / d
  let up : Int := sineSeries (r * quarterTurn / 2 ^ 64)
  let down : Int := sineSeries ((2 ^ 64 - r) * quarterTurn / 2 ^ 64)
  match t / d with
  | 0 => up
  | 1 => down
  | 2 => -up
  | _ => -down

/-- The 18-bit value of the sine of the turn n / d (R201): its last digit is open. -/
def sine18 (n d : Nat) : Int := sine64 n d / 2 ^ 47 + ((Config.tableDigit n d % 3 : Nat) : Int) - 1

/-! ## Calibration -/

/-- The calibration of input k (R530): with no customer copy in use the offset is 0 and the gain 1. -/
def calCorrect (k : Nat) (x : Int) (s : State) : Int :=
  match s.cal.coef[k]? with
  | some (o, g) => ((x - o.toInt) * (g.toNat : Int)) / 2 ^ 30
  | none => x

/-! ## Free values, completions, time -/

/-- The next free value. -/
def freeWord (s : State) : Word := Config.freeValue s.free

/-- The state after a free value has been used. -/
def useFree (s : State) : State := { s with free := s.free + 1 }

/-- How an access ended: the state, the status of R7, the words read, the queuing time or retry-after in ns, and whether the completion
follows later (a run that completes at its end). -/
structure Done where
  st : State
  status : Status
  data : List Word
  tval : Nat
  held : Bool

/-- An access that completes with OK. -/
def Done.ok (s : State) : Done := ⟨s, .ok, [], 0, false⟩

/-- A read that completes with OK and the words it read. -/
def Done.read (d : List Word) (s : State) : Done := ⟨s, .ok, d, 0, false⟩

/-- A command that has started and completes later. -/
def Done.later (s : State) : Done := ⟨s, .ok, [], 0, true⟩

/-- An access that is refused with a status. -/
def Done.refuse (st : Status) (s : State) : Done := ⟨s, st, [], 0, false⟩

/-- An access that is refused with REFUSED_BUSY and a retry-after in ns. -/
def Done.busy (tval : Nat) (s : State) : Done := ⟨s, .refusedBusy, [], tval, false⟩

/-- An access refused with REFUSED_BUSY whose retry-after the spec does not fix: it is a free value. -/
def Done.busyFree (s : State) : Done := ⟨useFree s, .refusedBusy, [], (freeWord s).toNat, false⟩

/-- The state after an access, with its completion recorded unless it follows later. -/
def Done.finish (d : Done) : State := if d.held then d.st else { d.st with resp := some ⟨d.status, d.data, d.tval⟩ }

/-- A meaning that is one access. -/
def Done.out (d : Done) : Out := .next d.finish

/-! ## Host errors (R6) -/

/-- The states in which a host error may leave the device, one for each time one is made: R6 calls the results unpredictable. -/
opaque hostErrorResult : Nat → State

/-- The register blocks whose content the hardware protections rest on: SYS, XCK, CPB and THM. -/
def protectionReg (a : Nat) : Bool := a < 0x1000 || (0x1800 ≤ a && a < 0x2000) || (0x2800 ≤ a && a < 0x3000) || (0x6800 ≤ a && a < 0x7000)

/-- What a host error does (R6): the results are unpredictable, but the stand-alone protection of the cells and the thermal shutdown keep acting.
So power state and supplies, sense integrity, protection and temperature sensing with their registers, the mark of R20, the fault pair, time and the
waiting commands stay, and all else is one free state (DESIGN CHOICE notes/assumptions/64.md). -/
def upset (s : State) : State :=
  let w := hostErrorResult s.free
  { w with
    regs := w.regs.foldl (fun l e => if protectionReg e.1 then l else RegFile.set l e.1 e.2) (s.regs.filter (fun e => protectionReg e.1))
    now := s.now
    ft := s.ft
    free := s.free + 1
    pins := { w.pins with fault := s.pins.fault }
    sys := s.sys
    cms := { w.cms with unused := s.cms.unused }
    xck := s.xck
    cpb := s.cpb
    thm := s.thm
    cal := { w.cal with nvm := w.cal.nvm.foldl (fun m e => nvmPut e.1 e.2 m) [] }
    pending := s.pending }

/-- One microsecond in ns. -/
def us : Nat := 1000

/-- One millisecond in ns. -/
def ms : Nat := 1000000

/-- The least device time in which `t` ns of fabric time pass: it runs at most 2.5 % fast (R473). -/
def leastSpan (t : Nat) : Nat := t * 40 / 41

/-! ## Fault sources and event bits -/

/-- A device with unused cell inputs never raises these sources (R489). -/
def muted (src : Nat) (s : State) : Bool :=
  s.cms.unused == some true &&
    ((16 ≤ src && src ≤ 43) || (45 ≤ src && src ≤ 48) || src == 50 || (63 ≤ src && src ≤ 83))

/-- Self-test runs the given item at present: 0 to 8 a memory, 16 to 21 a logic partition (R575). -/
def testing (item : Nat) (s : State) : Bool := getF Reg.BST_STAT_CUR s == item

/-- A source's rail pair shows an active condition, or no longer does; `FLT_ACT` follows a source that ends, unless its rail error stands
(R490, R491). -/
def setLine (src : Nat) (active : Bool) (s : State) : State :=
  if active then if muted src s then s else { s with flt := { s.flt with lines := natPut src s.flt.lines } }
  else setRegBit (Reg.FLT_ACT (src / 32)) (src % 32) (natMem src s.flt.railErr) { s with flt := { s.flt with lines := natErase src s.flt.lines } }

/-- A source reports one event to the collector, which accepts it at its next SOURCE_EVENT. -/
def pulse (src : Nat) (s : State) : State := if muted src s then s else { s with flt := { s.flt with waiting := s.flt.waiting ++ [src] } }

/-- A source becomes active: one event, counted only when it was inactive (R492). -/
def raise (src : Nat) (s : State) : State :=
  if natMem src s.flt.lines then s else pulse src (setLine src true s)

/-- A source becomes inactive. -/
def drop (src : Nat) (s : State) : State := setLine src false s

/-- A source follows a condition. -/
def follow (src : Nat) (active : Bool) (s : State) : State := if active then raise src s else drop src s

/-- The blocks with an event register, by the order of their bases (R417). -/
inductive EvtBlock
  | imp
  | cpb
  | cnv
  | ctl
  | lnk
  | fab
  deriving DecidableEq, Repr

/-- The local address of a block's event register. -/
def EvtBlock.evt : EvtBlock → Nat
  | .imp => Reg.IMP_EVT
  | .cpb => Reg.CPB_EVT
  | .cnv => Reg.CNV_EVT
  | .ctl => Reg.CTL_EVT
  | .lnk => Reg.LNK_EVT
  | .fab => Reg.FAB_EVT

/-- The local address of a block's event enable register: the word after its event register. -/
def EvtBlock.en (b : EvtBlock) : Nat := b.evt + 4

/-- The BLOCK code of an EVENT frame (R417). -/
def EvtBlock.code : EvtBlock → Nat
  | .imp => 0
  | .cpb => 1
  | .cnv => 2
  | .ctl => 3
  | .lnk => 4
  | .fab => 5

/-- The event bits that a block reports: those of its event enable register; of CTL as the last tick took it (R304). -/
def EvtBlock.enabled (b : EvtBlock) (s : State) : Word := if b = .ctl then s.ctl.evten else reg s b.en

/-- Event bits of a block set: those that were 0 and are enabled wait for an EVENT frame, with the time of the first (R216, R417). -/
def setEvt (b : EvtBlock) (bits : Nat) (s : State) : State :=
  let old := reg s b.evt
  let rep := ((BitVec.ofNat 32 bits &&& ~~~old) &&& b.enabled s).toNat
  let s1 := setReg b.evt (old ||| BitVec.ofNat 32 bits) s
  if rep = 0 then s1
  else
    let e := match assoc b.code s1.fab.evPend with
      | some (w, t) => (w ||| rep, t)
      | none => (rep, s1.ft)
    { s1 with fab := { s1.fab with evPend := assocPut b.code e s1.fab.evPend } }

end Sys2Proof.Machine
end

