-- ==== Sys2Proof/Machine/Rings.lean ====
section
/-!
DEFINITION. Sys2Proof/Machine/Rings.lean: how the device writes to host memory: rings, completions, the writeback block and MSI-X
messages (spec/12_host_interface.md R442, R447-R456).
-/
namespace Sys2Proof.Machine

/-! ## Bytes -/

/-- The four bytes of a word, least significant first (R5). -/
def wordBytes (w : Word) : List Byte := (List.range 4).map (fun i => BitVec.ofNat 8 (getBits w (8 * i) 8))

/-- The bytes of a list of words. -/
def wordsBytes (l : List Word) : List Byte := l.flatMap wordBytes

/-- The low `n` bytes of a number, least significant first. -/
def natBytes (n v : Nat) : List Byte := (List.range n).map (fun i => BitVec.ofNat 8 (v / 256 ^ i))

/-- The number that bytes spell, least significant first. -/
def bytesNat : List Byte → Nat
  | [] => 0
  | b :: t => b.toNat + 256 * bytesNat t

/-- The words that bytes spell; an incomplete last word is dropped. -/
def bytesWords : List Byte → List Word
  | a :: b :: c :: d :: t => BitVec.ofNat 32 (bytesNat [a, b, c, d]) :: bytesWords t
  | _ => []

/-! ## Host memory -/

/-- Bytes set from an address up, in a memory sorted by address. -/
def memPut (a : Nat) (bs : List Byte) (m : List (Nat × Byte)) : List (Nat × Byte) :=
  match bs with
  | [] => m
  | b :: t => memPut (a + 1) t (assocPut a b m)

/-- The device writes bytes to host memory. -/
def dmaWrite (a : Nat) (bs : List Byte) (s : State) : State := { s with hst := { s.hst with mem := memPut a bs s.hst.mem } }

/-! ## Rings -/

/-- The gateway role (R16, R463). -/
def hasRole (s : State) : Bool := bit Reg.HST_STAT_ROLE s

/-- Generation 2 holds the role, or held it last (R434, R437). -/
def isGen2 (s : State) : Bool := getF Reg.HST_STAT_GEN s == 2

/-- DMA may run: Bus Master Enable, not in D3hot, and no fence of the host interface (R441, R442, R460). -/
def dmaAllowed (s : State) : Bool := s.hst.pcie.busMaster && !s.hst.pcie.d3 && !bit Reg.FLT_FENCE0_HST s

/-- A ring that is in use and may run DMA (R441, R465). -/
def ringRuns (r : Nat) (s : State) : Bool := bit (Reg.HST_RCFG_EN r) s && dmaAllowed s

/-- The size of a ring in entries or units. -/
def ringSize (r : Nat) (s : State) : Nat := getF (Reg.HST_RSIZE_SIZE r) s

/-- The base address of a ring. -/
def ringBase (r : Nat) (s : State) : Nat := (reg s (Reg.HST_RBASEL r)).toNat + 2 ^ 32 * (reg s (Reg.HST_RBASEH r)).toNat

/-- The device index of a ring. -/
def deviceIndex (r : Nat) (s : State) : Nat := getF (Reg.HST_RDIDX_DIDX r) s

/-- The host's index of a ring. -/
def hostIndex (r : Nat) (s : State) : Nat := nth s.hst.hidx r 0

/-- The entries or units from one index up to another in a ring. -/
def ringGap (size lo hi : Nat) : Nat := if size = 0 then 0 else (hi + size - lo % size) % size

/-- The free entries or units of a device-written ring: at most SIZE − 1 are in use (R449). -/
def ringRoom (r : Nat) (s : State) : Nat := ringSize r s - 1 - ringGap (ringSize r s) (hostIndex r s) (deviceIndex r s)

/-- The bytes of one entry or unit of a ring (R449). -/
def unitBytes (r : Nat) : Nat := if r = 0 then 64 else if r = 1 then 16 else if r = 2 then 80 else 16

/-- The device index moves on; a new pass inverts PH (R450). -/
def advanceRing (r n : Nat) (s : State) : State :=
  let size := ringSize r s
  let i := deviceIndex r s + n
  let wrap := decide (size ≤ i)
  let s1 := setF (Reg.HST_RDIDX_DIDX r) (if wrap then i - size else i) s
  { s1 with hst := { s1.hst with
      dirty := true
      phase := if wrap then setNth s1.hst.phase r (!(nth s1.hst.phase r true)) else s1.hst.phase } }

/-! ## Writeback and messages -/

/-- The 16 words of the writeback block (R453). -/
def writebackWords (n : Word) (s : State) : List Word :=
  [reg s (Reg.HST_RDIDX 0), reg s (Reg.HST_RDIDX 1), reg s (Reg.HST_RDIDX 2), reg s Reg.HST_ERR] ++
    (List.range 8).map (fun k => reg s (Reg.HST_RDIDX (3 + k))) ++ [n, 0#32, 0#32, 0#32]

/-- The writeback block is written, when it is in use (R453). -/
def writeback (s : State) : State :=
  if bit Reg.HST_WBL_EN s && dmaAllowed s then
    let a := getF Reg.HST_WBL_ADDR s * 64 + 2 ^ 32 * (reg s Reg.HST_WBH).toNat
    let n := s.hst.writebacks + 1#32
    dmaWrite a (wordsBytes (writebackWords n s)) { s with hst := { s.hst with writebacks := n, wbAt := some s.now, dirty := false } }
  else s

/-- One MSI-X message leaves, after the writeback block (R453, R454): the vector's data word goes to its address (R466). -/
def sendVector (v : Nat) (s0 : State) : State :=
  let s := writeback s0
  let a := (reg s (Reg.HST_MSIX (4 * v))).toNat + 2 ^ 32 * (reg s (Reg.HST_MSIX (4 * v + 1))).toNat
  dmaWrite a (wordBytes (reg s (Reg.HST_MSIX (4 * v + 2)))) { s with hst := { s.hst with msi := setNth s.hst.msi v (nth s.hst.msi v 0 + 1) } }

/-- A vector is masked: its own mask bit, or the function's. -/
def vectorMasked (v : Nat) (s : State) : Bool := s.hst.pcie.msixMask || regBit (Reg.HST_MSIXCTL v) 0 s

/-- An MSI-X message; a masked vector sets its PBA bit instead (R454). -/
def message (v : Nat) (s : State) : State :=
  if s.hst.pcie.msixEn && dmaAllowed s then
    if vectorMasked v s then setRegBit (Reg.HST_PBA 0) v true s else sendVector v s
  else s

/-- Messages that waited for their mask to lift are sent (R454). -/
def releaseMasked (s : State) : State :=
  (List.range 8).foldl (fun t v =>
    if regBit (Reg.HST_PBA 0) v t && !vectorMasked v t && t.hst.pcie.msixEn && dmaAllowed t then
      sendVector v (setRegBit (Reg.HST_PBA 0) v false t)
    else t) s

/-- A bit of `HST_ERR` sets: the error vector is sent when enabled (R454). -/
def setHostErr (f : Field) (s : State) : State :=
  if bit f s then s
  else if bit Reg.HST_IRQ_ERRIEN s then message (getF Reg.HST_IRQ_ERRVEC s) (setB f true s) else setB f true s

/-- The message of a ring is sent and its count clears (R454); while the function may send none, the count stands. -/
def signalRing (r : Nat) (s : State) : State :=
  if s.hst.pcie.msixEn && dmaAllowed s then
    message (getF (Reg.HST_RCFG_VEC r) s) { s with hst := { s.hst with unsig := setNth s.hst.unsig r (0, 0) } }
  else s

/-- The message of a ring leaves once its count has reached MODCNT, while IEN is 1; MODCNT 0 acts as 1 (R454). -/
def signalCounted (r : Nat) (s : State) : State :=
  if bit (Reg.HST_RCFG_IEN r) s && decide (max 1 (getF (Reg.HST_RCFG_MODCNT r) s) ≤ (nth s.hst.unsig r (0, 0)).1) then signalRing r s else s

/-- The messages of rings whose count was reached while none could be sent (R441, R454, R461). -/
def signalDue (s : State) : State := ((List.range 11).drop 1).foldl (fun t r => signalCounted r t) s

/-- An entry of a ring has been written: it counts towards the ring's message (R454). -/
def countEntry (r : Nat) (s : State) : State :=
  let (n, t) := nth s.hst.unsig r (0, 0)
  signalCounted r { s with hst := { s.hst with unsig := setNth s.hst.unsig r (n + 1, if n = 0 then s.now else t) } }

/-- An entry of whole units enters a ring at its device index (R449, R450); byte 3 of `mk` carries PH. -/
def ringWrite (r n : Nat) (mk : Bool → List Byte) (s : State) : State :=
  countEntry r (advanceRing r n
    (dmaWrite (ringBase r s + unitBytes r * deviceIndex r s) (mk (nth s.hst.phase r true)) s))

/-! ## Completions -/

/-- TUNIT and TVAL of R391 for a time in ns: the smallest unit that holds the value, saturating at 16383 units of 1 s. -/
def tvalBits (ns : Nat) : Nat :=
  if ns / 1000 < 16384 then (ns / 1000) <<< 16
  else if ns / 100000 < 16384 then (1 <<< 30) + ((ns / 100000) <<< 16)
  else if ns / 10000000 < 16384 then (2 <<< 30) + ((ns / 10000000) <<< 16)
  else (3 <<< 30) + ((min (ns / 1000000000) 16383) <<< 16)

/-- The 16 bytes of a completion (R447). -/
def completionBytes (d : HostDone) (ph : Bool) : List Byte :=
  natBytes 2 d.cid ++ natBytes 1 d.status.code
    ++ natBytes 1 (b2n ph + 2 * b2n d.cached + 4 * b2n d.reissued + 8 * b2n d.rdata)
    ++ natBytes 2 (tvalBits d.tval >>> 16)
    ++ natBytes 2 (match d.node with | some n => 0x8000 + n | none => 0)
    ++ natBytes 1 d.epoch ++ natBytes 1 d.tag ++ natBytes 2 d.words ++ wordBytes d.result

/-- Completions that wait enter the completion ring while it runs and has room, each after its READ data (R445, R447, R454-R456). -/
def flushCompletions : Nat → State → State
  | 0, s => s
  | k + 1, s =>
    match s.hst.waiting with
    | [] => s
    | d :: rest =>
      if !isGen2 s && ringRuns 1 s && decide (0 < ringRoom 1 s) then
        let s1 := if d.rdata then dmaWrite d.dptr (wordsBytes d.data) s else s
        flushCompletions k (ringWrite 1 1 (completionBytes d) { s1 with hst := { s1.hst with waiting := rest } })
      else s

/-- Word `i` of a command's descriptor (R444). -/
def HostCmd.word (c : HostCmd) (i : Nat) : Word := nth c.desc i 0#32

/-- The register view of the commands and requests outstanding (R463); a broadcast, which holds no TAG, is none. -/
def refreshOut (s : State) : State :=
  s |> setF Reg.HST_OUT_FETCHED s.hst.cmds.length |> setF Reg.HST_OUT_TAGS (s.fab.reqs.filter (fun r => decide (r.tag < 256))).length

/-- A command of the host ends (R447): its slot is freed; its READ data and its completion are written, or wait for the ring, or for
the host in generation 2. While the host interface is fenced the completion is discarded (R460), and with it the BUSY of generation 2
(DESIGN CHOICE notes/assumptions/94.md). -/
def finishHost (slot : Nat) (mk : HostCmd → HostDone) (s : State) : State :=
  match s.hst.cmds.find? (fun c => c.slot == slot) with
  | none => s
  | some c =>
    let d := mk c
    let s1 := { s with hst := { s.hst with cmds := s.hst.cmds.filter (fun e => e.slot != slot) } }
    let s2 := if bit Reg.FLT_FENCE0_HST s then { s1 with hst := { s1.hst with g2busy := false } }
      else { s1 with hst := { s1.hst with waiting := s1.hst.waiting ++ [d] } }
    refreshOut (flushCompletions s2.hst.waiting.length s2)

/-- The completion of a command that the gateway ended itself: no reply from a node (R446, R447). -/
def localDone (st : Status) (data : List Word) (tval : Nat) (c : HostCmd) : HostDone :=
  let op := getBits (c.word 0) 16 8
  let byNode := getBits (c.word 1) 14 2 == 1
  { cid := getBits (c.word 0) 0 16
    status := st
    tval := if st = .delayed ∨ st = .refusedBusy then tval else 0
    rdata := op == 1 && !data.isEmpty
    reissued := false
    cached := false
    node := if byNode then some (getBits (c.word 1) 0 10) else none
    epoch := 0
    tag := 0
    words := if op = 1 then data.length else 0
    result := if op = 1 ∨ op = 4 then nth data 0 0#32 else 0#32
    data := if op = 1 then data else []
    dptr := (c.word 5).toNat + 2 ^ 32 * (c.word 6).toNat }

end Sys2Proof.Machine
end

