-- ==== Sys2Proof/Machine/Frames.lean ====
section
/-!
DEFINITION. Sys2Proof/Machine/Frames.lean: how this node sends: egress queues, routes home, broadcasts and completions
(spec/11_fabric_discovery_and_routing.md R385-R391, R405; spec/10_izarlink_links.md R351, R353).
-/
namespace Sys2Proof.Machine

/-- The state code of a port (R343, R381). -/
def portState (n : Nat) (s : State) : Nat := getF (Reg.LNK_PSTAT_STATE n) s

/-- Whether a port is UP. -/
def portUp (n : Nat) (s : State) : Bool := n < 4 && portState n s == 3

/-- Whether frames may be queued at a port: it is UP, or in low-power idle or on its way out of it, where they wait (R347, R372). -/
def portOpen (n : Nat) (s : State) : Bool :=
  portUp n s || (n < 4 && (portState n s == 4 || (portState n s == 2 && (nth s.lnk.ports n PortState.reset).fromLpi)))

/-- One port's hidden state. -/
def port (n : Nat) (s : State) : PortState := nth s.lnk.ports n PortState.reset

/-- A state with one port's hidden state changed. -/
def modPort (n : Nat) (f : PortState → PortState) (s : State) : State :=
  { s with lnk := { s.lnk with ports := (List.range 4).map (fun m => if m = n then f (port n s) else port m s) } }

/-- The bytes a frame takes in a queue or buffer: header, payload and payload check (R350). -/
def frameBytes (f : Frame) : Nat := if f.payload.length = 0 then 16 else 20 + 4 * f.payload.length

/-- The bytes a queue holds. -/
def queueBytes (q : List (Nat × Frame)) : Nat := (q.map (fun e => frameBytes e.2)).sum

/-- The queue of a class at a port. -/
def PortState.queue (p : PortState) : Cls → List (Nat × Frame)
  | .a => p.qa
  | .b => p.qb
  | .c => p.qc
  | .d => p.qd

/-- A port with the queue of a class replaced. -/
def PortState.setQueue (p : PortState) (cl : Cls) (q : List (Nat × Frame)) : PortState :=
  match cl with
  | .a => { p with qa := q }
  | .b => { p with qb := q }
  | .c => { p with qc := q }
  | .d => { p with qd := q }

/-- The room of a class's forwarding queue in bytes; class A frames are never discarded for lack of room (R389). -/
def queueRoom : Cls → Option Nat
  | .a => none
  | .b => some 16384
  | .c => some 8192
  | .d => some 8192

/-- The words of payload that a frame of a class carries at most: 64 bytes in class A, 1024 bytes else (R354). -/
def payloadLimit (cl : Cls) : Nat := if cl = .a then 16 else 256

/-- A frame within the limit of R354: what would exceed it is not sent (DESIGN CHOICE notes/assumptions/89.md). -/
def fitPayload (f : Frame) : Frame := { f with payload := f.payload.take (payloadLimit f.cls) }

/-- A frame enters the queue of its class at a port, or is discarded and counted in `FAB_DROP.QFULL` when the queue has no room (R389). -/
def enqueue (n input : Nat) (g : Frame) (s : State) : State :=
  let f := fitPayload g
  let q := (port n s).queue f.cls
  let full := match queueRoom f.cls with
    | some r => decide (r < queueBytes q + frameBytes f)
    | none => false
  if full then incSat Reg.FAB_DROP_QFULL s else modPort n (fun p => p.setQueue f.cls (q ++ [(input, f)])) s

/-- The port that a route word names for its next hop (R386). -/
def routePort (route : Word) : Nat := getBits route 0 2

/-- This node's epoch (R73). -/
def ownEpoch (s : State) : Nat := getF Reg.SYS_EPOCH_EPOCH s

/-- The source ID this node sends with: its node ID, or 1023 while it has none (R385). -/
def ownSrc (s : State) : Nat := if bit Reg.FAB_ID_VALID s then getF Reg.FAB_ID_ID s else 1023

/-- A frame by route word leaves on the port that ROUTE names, with its first hop still to be taken at the next node (R386). -/
def sendRouted (f : Frame) (s : State) : State :=
  if f.hop = 0 ∨ 16 < f.hop then incSat Reg.FAB_ERR_HOPERR s
  else if portOpen (routePort f.route) s then enqueue (routePort f.route) 4 f s
  else incSat Reg.FAB_ERR_NOPORT s

/-- A frame on every UP port but one. -/
def flood (input : Nat) (f : Frame) (s : State) : State :=
  (List.range 4).foldl (fun t n => if n ≠ input ∧ portOpen n t then enqueue n input f t else t) s

/-- The broadcasts originated in the present millisecond (R387). -/
def broadcastsNow (s : State) : Nat := if s.fab.bms = s.now / ms then s.fab.bsent else 0

/-- A broadcast of this node leaves: HOP from `FAB_CFG.BHOP`, TAG from the broadcast counter, on every UP port; the node keeps its pair
(R387). -/
def originate (t : FrameType) (cl : Cls) (payload : List Word) (s : State) : State :=
  let f : Frame := ⟨t, cl, .broadcast, 0#32, getF Reg.FAB_CFG_BHOP s, ownSrc s, 1023, ownEpoch s, s.fab.bcount, payload⟩
  flood 4 f { s with fab := { s.fab with
    bcount := (s.fab.bcount + 1) % 256
    bms := s.now / ms
    bsent := broadcastsNow s + 1
    bpairs := (f.src, f.tag, s.now) :: s.fab.bpairs } }

/-- A broadcast of this node: at most 64 leave in a millisecond, further ones wait (R387). -/
def broadcast (t : FrameType) (cl : Cls) (payload : List Word) (s : State) : State :=
  if broadcastsNow s < 64 ∧ s.fab.bwait = [] then originate t cl payload s
  else { s with fab := { s.fab with bwait := s.fab.bwait ++ [(t, cl, payload)] } }

/-- Broadcasts that wait leave as far as the limit of the present millisecond allows (R387). -/
def releaseBroadcasts (s : State) : State :=
  (s.fab.bwait.take (64 - broadcastsNow s)).foldl
    (fun t e => originate e.1 e.2.1 e.2.2 { t with fab := { t.fab with bwait := t.fab.bwait.tail } }) s

/-- A link-local frame for a port's partner (R384). -/
def linkLocal (n : Nat) (t : FrameType) (cl : Cls) (payload : List Word) (s : State) : State :=
  enqueue n 4 ⟨t, cl, .linkLocal, 0#32, 0, ownSrc s, 1023, ownEpoch s, 0, payload⟩ s

/-- The home set whose gateway has a given ID (R391, R405). -/
def homeSet (gw : Nat) (s : State) : Option Nat :=
  (List.range 2).find? (fun k => bit (Reg.FAB_HOME_HCTL_VALID k) s && getF (Reg.FAB_HOME_HCTL_GWID k) s == gw)

/-- The route of a home set in use: its route word and hops, or none when that route has failed (R405, R408). -/
def homeRoute (k : Nat) (s : State) : Option (Word × Nat) :=
  if bit (Reg.FAB_HOME_HCTL_USE k) s then
    if bit (Reg.FAB_HOME_HCTL_AFAIL k) s then none else some (reg s (Reg.FAB_HOME_AROUTE k), getF (Reg.FAB_HOME_HCTL_AHOP k) s)
  else
    if bit (Reg.FAB_HOME_HCTL_PFAIL k) s then none else some (reg s (Reg.FAB_HOME_PROUTE k), getF (Reg.FAB_HOME_HCTL_PHOP k) s)

/-- A frame to the gateway of a home set, by its route in use; `drop` says what happens without a working route. -/
def sendHome (k : Nat) (t : FrameType) (cl : Cls) (tag : Nat) (payload : List Word) (drop : State → State) (s : State) : State :=
  match homeRoute k s with
  | some (r, h) => sendRouted ⟨t, cl, .nodeId, r, h, ownSrc s, getF (Reg.FAB_HOME_HCTL_GWID k) s, ownEpoch s, tag, payload⟩ s
  | none => drop s

/-- Word 0 of a CPL payload (R391). -/
def cplWord (st : Status) (tval : Nat) (cached : Bool) : Word := BitVec.ofNat 32 (tvalBits tval + 256 * b2n cached + st.code)

/-- The CPL of a request leaves by the reply route, or by the home route of the requesting gateway (R391). -/
def sendCpl (src tag : Nat) (cls : Cls) (rroute : Word) (rhop : Nat) (payload : List Word) (s : State) : State :=
  if rhop ≠ 0 then sendRouted ⟨.cpl, cls, .routeWord, rroute, rhop, ownSrc s, src, ownEpoch s, tag, payload⟩ s
  else
    match homeSet src s with
    | some k => sendHome k .cpl cls tag payload (incSat Reg.FAB_ERR_NOPORT) s
    | none => incSat Reg.FAB_ERR_NOPORT s

/-- The replay cache of a gateway (R397): empty when there is none, or when it belongs to another epoch of the gateway. -/
def cacheOf (src epoch : Nat) (s : State) : List Cached :=
  match s.fab.caches.find? (fun c => c.src == src) with
  | some c => if c.epoch = epoch then c.entries else []
  | none => []

/-- A completion enters the replay cache of its gateway: the last 16, and the caches of two gateways (R397). -/
def cachePut (src epoch : Nat) (e : Cached) (s : State) : State :=
  let entries := (e :: (cacheOf src epoch s).filter (fun x => x.tag != e.tag)).take 16
  { s with fab := { s.fab with caches := (⟨src, epoch, entries⟩ :: s.fab.caches.filter (fun c => c.src != src)).take 2 } }

/-- The completion of a command reaches whoever gave it (R391, R447), and enters the replay cache of a fabric requester (R397). -/
def complete (tk : Ticket) (st : Status) (data : List Word) (tval : Nat) (s : State) : State :=
  match tk with
  | .direct => { s with resp := some ⟨st, data, tval⟩ }
  | .fabric src tag epoch cls rroute rhop posted =>
    if posted then s
    else cachePut src epoch ⟨tag, st, tval, data.take 4, decide (4 < data.length)⟩ (sendCpl src tag cls rroute rhop (cplWord st tval false :: data) s)
  | .host slot => finishHost slot (localDone st data tval) s

end Sys2Proof.Machine
end

