-- ==== Sys2Proof/Machine/Sys.lean ====
section
/-!
DEFINITION. Sys2Proof/Machine/Sys.lean: supplies, wake, clocks, the control pins and the lock sequence (spec/03_power_states_clocks_reset.md,
R54-R90, R616-R617; spec/02_pins_and_package.md R45-R48; spec/18_register_map.md R596-R598).
-/
namespace Sys2Proof.Machine

/-! ## Supplies -/

/-- Whether the phase runs the buck, so that a leg is selected (R60, R74). -/
def wantsBuck : Phase → Bool
  | .off | .shelf | .sentinel | .wakeFilter => false
  | _ => true

/-- Whether the core and its registers run. -/
def coreUp (s : State) : Bool :=
  match s.sys.phase with
  | .standby | .core | .resume | .active => true
  | _ => false

/-- A time of whole periods of `per` ns lies between two times. -/
def crosses (per a b : Nat) : Bool := a / per != b / per

/-- Written spread settings come into force (R71): CORESS at the zero crossings of its 32 kHz triangle, PWMSSD at the start of each 1 ms modulation
period. The triangles are taken to start with `now` at 0 (DESIGN CHOICE notes/assumptions/65.md). -/
def takeSpread (before : Nat) (s : State) : State :=
  let y := s.sys
  let core := if crosses 15625 before s.now then bit Reg.SYS_CLKCFG_CORESS s else y.coreSpread
  let pwm := if crosses ms before s.now then getF Reg.SYS_CLKCFG_PWMSSD s else y.pwmSpread
  { s with sys := { y with coreSpread := core, pwmSpread := pwm } }

/-- Whether a buck leg is usable (R54). -/
def legUsable (s : State) : Leg → Bool
  | .vmod => s.sys.vmodOk
  | .vin => s.sys.vinQual

/-- The leg that R55 selects: the preferred one while usable, else the other while usable; AUTO prefers VIN. -/
def legChoice (s : State) : Option Leg :=
  if !wantsBuck s.sys.phase then none
  else
    let pref := if getF Reg.SYS_SUPCFG_PREF s = 1 then Leg.vmod else Leg.vin
    let other := if pref = .vmod then Leg.vin else Leg.vmod
    if legUsable s pref then some pref else if legUsable s other then some other else none

/-- The supply bits of `SYS_PWRSTAT` report the present supplies (R79). While neither leg is in use SRC reads 0 (DESIGN CHOICE
notes/assumptions/66.md: R79 gives a value for each leg only). -/
def reportSupply (s : State) : State :=
  let src := b2n (s.sys.leg = some .vin)
  s |> setF Reg.SYS_PWRSTAT_SRC src |> setB Reg.SYS_PWRSTAT_VINOK s.sys.vinQual |> setB Reg.SYS_PWRSTAT_VMODOK s.sys.vmodOk

/-- The loss of the leg in use: its record in `SYS_SUPSTAT`, and source 5 (R55, R82). -/
def legLost (old : Leg) (s : State) : State :=
  pulse 5 (match old with
    | .vmod => setB Reg.SYS_SUPSTAT_VMODLOSS true s
    | .vin => setB Reg.SYS_SUPSTAT_VINLOSS true s)

/-- BUCK_LEG_CHANGE: the buck takes the leg of R55, counts a change between legs and raises source 5 when the leg in use was lost
(R55, R56); a change counts also where the buck stopped in between for want of a leg. A device that waited for a leg begins its soft start (R74). -/
def selectLeg (s : State) : State :=
  let new := legChoice s
  let before := if s.sys.leg.isSome then s.sys.leg else s.sys.lostLeg
  let s1 := match s.sys.leg with
    | some o => if legUsable s o || new = some o || !coreUp s then s else legLost o s
    | none => s
  let s2 := match before, new with
    | some o, some n => if o = n || !coreUp s then s1 else incSat Reg.SYS_SUPSTAT_SWCNT s1
    | _, _ => s1
  let ph := if s.sys.phase = .waitLeg ∧ new ≠ none then Phase.softStart else s.sys.phase
  reportSupply { s2 with sys := { s2.sys with leg := new, lostLeg := if new.isSome || !coreUp s then none else before, phase := ph } }

/-- VMOD_THRESHOLD_CROSS (R20, R54, R55, R61). A trip that R20 has made wait goes on waiting for the test when VMOD rises above the AON threshold
before it (DESIGN CHOICE notes/assumptions/13.md). -/
def execVmodThresholdCross (q : VmodThreshold) (rising : Bool) (s : State) : Out :=
  match q with
  | .aonSupply => .next { s with sys := { s.sys with aonFromVin := !rising } }
  | .buckInput => .next (selectLeg { s with sys := { s.sys with vmodOk := rising } })

/-- VIN_THRESHOLD_CROSS (R54): a rise starts the qualification time; a fall makes the leg unusable at once. -/
def execVinThresholdCross (rising : Bool) (s : State) : Out :=
  if rising then .next { s with sys := { s.sys with vinAbove := true, vinAt := if s.sys.vinAbove then s.sys.vinAt else s.now } }
  else .next (selectLeg { s with sys := { s.sys with vinAbove := false, vinQual := false } })

/-- The qualification time that `SYS_SUPCFG.VINQUAL` selects, ns (R54, R82). -/
def vinQualTime (s : State) : Nat := nth [1, 10, 100] (getF Reg.SYS_SUPCFG_VINQUAL s) 0 * ms

/-- VIN_QUALIFIED (R54): the qualification time ends with VIN still above its threshold. -/
def execVinQualified (s : State) : Out :=
  if s.sys.vinAbove ∧ s.sys.vinAt + vinQualTime s ≤ s.now then .next (selectLeg { s with sys := { s.sys with vinQual := true } }) else .next s

/-- BUCK_LIMIT_TIMEOUT (R59, R82). -/
def execBuckLimitTimeout (s : State) : Out :=
  if coreUp s && s.sys.leg.isSome then .next (pulse 4 (setB Reg.SYS_SUPSTAT_BUCKFLT true s)) else .next s

/-- The fault source of a rail's warning window (R58). -/
def railSource : Rail → Nat
  | .vcc5 => 0
  | .avdd => 1
  | .dvdd => 2

/-- RAIL_WARNING (R58): the rail's source follows its warning window. -/
def execRailWarning (rail : Rail) (outside : Bool) (s : State) : Out :=
  if coreUp s then .next (follow (railSource rail) outside s) else .next s

/-- REFERENCE_MISMATCH (R58): source 3 follows the difference of VREFP and VREFS. -/
def execReferenceMismatch (differ : Bool) (s : State) : Out :=
  if coreUp s then .next (follow 3 differ s) else .next s

/-! ## Reset -/

/-- The register entries of the always-on domain: what every device reset but POR keeps (R72). -/
def keepAon (l : List (Nat × Word)) : List (Nat × Word) :=
  l.filter (fun e => (rowAt e.1).any (fun r => r.aon))

/-- What a device reset keeps of SYS: supplies, pins and the always-on link-wake counts; the rest starts anew (R66, R69, R72). -/
def sysAfterReset (ph : Phase) (y : SysState) : SysState :=
  { SysState.reset with
    phase := ph
    porStart := y.porStart
    porReleased := y.porReleased
    aonFromVin := y.aonFromVin
    vmodOk := y.vmodOk
    vinAbove := y.vinAbove
    vinAt := y.vinAt
    vinQual := y.vinQual
    leg := if wantsBuck ph then y.leg else none
    wakeHigh := y.wakeHigh
    wakeAt := y.wakeAt
    lastWakeEdge := y.lastWakeEdge
    lastWake := y.lastWake
    wakeFrom := y.wakeFrom
    nextOv := y.nextOv
    nextUv := y.nextUv
    fwake0 := y.fwake0
    fwake1 := y.fwake1
    lwdis0 := y.lwdis0
    lwdis1 := y.lwdis1
    rstnLow := y.rstnLow
    perstLow := y.perstLow
    lcmPin := y.lcmPin }

/-- The node epoch that is still to be stored in NVM, also while its write is in progress (R73, R544). -/
def pendingEpoch (s : State) : Option Nat :=
  match s.cal.epochPend, s.cal.op.map NvmOp.job with
  | some e, _ => some e
  | none, some (.epoch e) => some e
  | none, _ => none

/-- What every reset keeps outside the device's own domains: time since power, the model's counters, the queue, what lies outside the
device or does not lose its content without power, a node epoch still to be stored (R73), and since when the fault pair stands at the fault level (R229). -/
def keepOutside (s r : State) : State :=
  { r with
    now := s.now
    free := s.free
    resp := s.resp
    pending := s.pending
    cpb := { r.cpb with faultSince := if s.pins.fault = .faultLevel then s.cpb.faultSince else s.now }
    hst := { r.hst with mem := s.hst.mem, msi := s.hst.msi }
    cal := { r.cal with nvm := s.cal.nvm, epochPend := pendingEpoch s }
    bst := { r.bst with runAt := s.now, fuseK := s.bst.fuseK, fuseRet := s.bst.fuseRet, fuseErr := s.bst.fuseErr } }

/-- As `keepOutside`, where the device loses its supply: what it had still to store is lost too. -/
def keepUnpowered (s r : State) : State := keepOutside { s with cal := { s.cal with op := none, epochPend := none } } r

/-- The random value drawn at each device reset (R356): a free value. -/
def drawNonce (s : State) : State := { useFree s with lnk := { s.lnk with nonce := freeWord s } }

/-- A device reset other than POR (R72): every register outside the always-on domain takes its reset value, every block its state after
reset, and the cause bit is set. The device goes on from phase `ph`. -/
def deviceReset (cause : Field) (ph : Phase) (s : State) : State :=
  reportSupply (setB cause true (drawNonce
    (keepOutside s { State.reset with regs := keepAon s.regs, sys := sysAfterReset ph s.sys })))

/-- Where start-up continues after a reset that leaves the rails up or brings them up again (R72, R74). -/
def restartPhase (s : State) : Phase := if (legChoice { s with sys := { s.sys with phase := .waitLeg } }).isSome then .softStart else .waitLeg

/-- RAIL_BROWN_OUT (R55, R58, R72, R523): a reset with cause BOR; ACTIVE follows once supplies recover. The rails run in thermal shutdown too. -/
def execRailBrownOut (_rail : Rail) (s : State) : Out :=
  match s.sys.phase with
  | .standby | .core | .resume | .active | .rails | .rstHeld | .thermal => .next (selectLeg (deviceReset Reg.SYS_RSTCAUSE_BOR .waitLeg s))
  | _ => .next s

/-- AON_POWER_LOSS (R54, R61): the always-on state is lost with everything else. -/
def execAonPowerLoss (s : State) : Out :=
  .next (keepUnpowered s { State.reset with pins := Pins.unpowered, sys := { SysState.reset with phase := .off, vinAbove := false, perstLow := s.sys.perstLow, lcmPin := s.sys.lcmPin } })

/-- The ports of an unpowered device are OFF (R343). -/
def portsOff (s : State) : State := (List.range 4).foldl (fun t n => setF (Reg.LNK_PSTAT_STATE n) 0 t) s

/-- POWER_ON_RESET (R72, R343): the whole device resets, the always-on domain included. It ends in SHELF when WAKE is low and VIN lies below
its rising threshold; otherwise start-up waits for a buck leg. `vmodAon`: VMOD lies above the AON supply's rising threshold (R54), as it does wherever it
lies above the buck input's. -/
def execPowerOnReset (wakeHigh vinAbove vmodAon vmodOk : Bool) (s : State) : Out :=
  let ph := if !wakeHigh && !vinAbove then Phase.shelf else Phase.waitLeg
  let y := { SysState.reset with phase := ph, vinAbove := vinAbove, vinAt := s.now, vmodOk := vmodOk, aonFromVin := !(vmodAon || vmodOk), wakeHigh := wakeHigh, wakeAt := s.now,
                                 perstLow := s.sys.perstLow, rstnLow := s.sys.rstnLow, lcmPin := s.sys.lcmPin }
  let pins := if ph = .shelf then Pins.unpowered else Pins.reset
  let r := keepUnpowered s { State.reset with sys := y, pins := pins }
  .next (selectLeg (drawNonce (if ph = .shelf then portsOff r else r)))

/-- HARNESS_WIRE_CHANGE (R37, R38, R614, R615): the device takes no damage and no state changes at the change itself; what the wire does to
readings and comparators arrives with those events. The change is kept as the wire's condition. -/
def execHarnessWireChange (wire : Nat) (isOpen : Bool) (s : State) : Out :=
  .next { s with sys := { s.sys with openWires := if isOpen then natPut wire s.sys.openWires else natErase wire s.sys.openWires } }

/-- LCM_PIN_CHANGE (R46, R90): LCMCHG counts the change, LCMNOW shows the level and source 12 is active while it differs from the sampled
level. The mode stays as sampled. -/
def execLcmPinChange (level : Bool) (s : State) : Out :=
  let s1 := { s with sys := { s.sys with lcmPin := level } }
  if s.sys.lcmPin = level then .next s
  else if coreUp s then
    let s2 := s1 |> incSat Reg.SYS_STRAPSTAT_LCMCHG |> setB Reg.SYS_STRAPSTAT_LCMNOW level
    .next (follow 12 (level != bit Reg.SYS_STRAPSTAT_LCM s2) s2)
  else .next s1

/-! ## Wake -/

/-- The slow-clock cycle the present time lies in (R65, R70). -/
def sclkCycle (s : State) : Nat := s.now * 32768 / 1000000000

/-- `SYS_PWRSTAT.LASTWAKE` takes a wake code; of several in one slow-clock cycle the lowest (R65). -/
def recordWake (code : Nat) (s : State) : State :=
  let c := match s.sys.lastWake with
    | some (cyc, old) => if cyc = sclkCycle s then min old code else code
    | none => code
  setF Reg.SYS_PWRSTAT_LASTWAKE c { s with sys := { s.sys with lastWake := some (sclkCycle s, c) } }

/-- As `recordWake`, for a wake that leaves the state `st` or abandons the entry into it. -/
def recordWakeFrom (st : LowState) (code : Nat) (s : State) : State := recordWake code { s with sys := { s.sys with wakeFrom := some st } }

/-- Whether a wake code is a wake source of a low-power state: 1 WAKE, 2 and 3 link wake, 4 OV/UV trip, 5 thermal limit, 6 wake timer,
7 `SYS_PWRCMD` (R60, R79, R80). -/
def wakeSourceOf (st : LowState) (code : Nat) (s : State) : Bool :=
  match st with
  | .shelf => code == 1
  | .sentinel =>
    match code with
    | 1 => true
    | 2 => bit Reg.SYS_PWRCFG_LW0 s && !s.sys.lwdis0
    | 3 => bit Reg.SYS_PWRCFG_LW1 s && !s.sys.lwdis1
    | 4 => bit Reg.SYS_PWRCFG_OUVWAKE s
    | 5 => bit Reg.SYS_PWRCFG_THWAKE s
    | 6 => getF Reg.SYS_PWRCFG_WAKETMR s != 0
    | _ => false
  | .standby => code == 1 || code == 4 || code == 5 || code == 7

/-- POWER_STATE_ABORT (R65): the entry is abandoned, ABORT is set and the wake source recorded. -/
def abandonEntry (st : LowState) (code : Nat) (s : State) : State :=
  recordWakeFrom st code (setB Reg.SYS_PWRSTAT_ABORT true { s with sys := { s.sys with transition := none } })

/-- A further wake source in the slow-clock cycle of a wake that has begun: LASTWAKE takes the lowest code (R65). -/
def joinWake (code : Nat) (s : State) : State :=
  match s.sys.lastWake, s.sys.wakeFrom with
  | some (cyc, _), some st => if cyc = sclkCycle s && wakeSourceOf st code s then recordWake code s else s
  | _, _ => s

/-- What is kept of the comparators' samples in SENTINEL when another source wakes the device (R65, R222): the cells whose condition at the sample of the same
slow-clock cycle would be the second in a row. None, where the inputs are unused or R20 keeps the actions waiting. -/
def noteNextTrips (s : State) : State :=
  let dead := s.cms.unused == some true || (s.cms.unused == none && s.sys.aonFromVin)
  { s with sys := { s.sys with
    nextOv := if dead || !bit Reg.CPB_CFG_OVEN s then 0#32 else s.cpb.prevOv &&& reg s Reg.CPB_CELLEN
    nextUv := if dead || !bit Reg.CPB_CFG_UVEN s then 0#32 else s.cpb.prevUv &&& reg s Reg.CPB_CELLEN } }

/-- A wake source becomes valid (R60, R65, R72, R74): it leaves the low-power state through the reset and start-up of that state, or
abandons the entry in progress. -/
def wakeBy (code : Nat) (s : State) : State :=
  match s.sys.phase with
  | .shelf => if wakeSourceOf .shelf code s then recordWakeFrom .shelf code (deviceReset Reg.SYS_RSTCAUSE_SHELFEXIT .wakeFilter s) else s
  | .sentinel =>
    if wakeSourceOf .sentinel code s then
      recordWakeFrom .sentinel code (selectLeg (deviceReset Reg.SYS_RSTCAUSE_SENTEXIT .waitLeg (noteNextTrips s)))
    else s
  | .standby =>
    match s.sys.transition with
    | none => if wakeSourceOf .standby code s then recordWakeFrom .standby code { s with sys := { s.sys with phase := .resume } } else s
    | some t =>
      if code == 7 || wakeSourceOf t.target code s then abandonEntry t.target code { s with sys := { s.sys with phase := .resume } } else s
  | .active | .core | .resume =>
    match s.sys.transition with
    | some t => if code == 7 || wakeSourceOf t.target code s then abandonEntry t.target code s else s
    | none => joinWake code s
  | _ => joinWake code s

/-- The filtered WAKE level as registers and hidden state hold it. -/
def setWakeLevel (h : Bool) (s : State) : State :=
  let s1 := { s with sys := { s.sys with wakeHigh := h } }
  if coreUp s1 then setB Reg.SYS_PINSTAT_WAKELVL h s1 else s1

/-- WAKE_RISING_EDGE (R65, R75, R76): an edge within 100 ms of the last valid one is ignored, as is one before WAKE has been low for 1 ms
after an entry with WAKE high. A valid edge wakes; in ACTIVE it is only counted. -/
def execWakeRisingEdge (s : State) : Out :=
  let tooSoon := match s.sys.lastWakeEdge with
    | some t => decide (s.now < t + 100 * ms)
    | none => false
  let s1 := setWakeLevel true { s with sys := { s.sys with wakeAt := s.now } }
  if s.sys.phase == .off || tooSoon || !s.sys.wakeArmed then .next s1
  else
    let s2 := { s1 with sys := { s1.sys with lastWakeEdge := some s.now } }
    let s3 := wakeBy 1 s2
    .next (if coreUp s3 then incSat Reg.SYS_PINSTAT_WAKECNT s3 else s3)

/-- WAKE_STUCK_TIMEOUT (R75): WAKE has been high for WAKETO seconds, which are not 0. -/
def execWakeStuckTimeout (s : State) : Out :=
  if coreUp s && s.sys.wakeHigh && getF Reg.SYS_PINCFG_WAKETO s != 0 && decide (s.sys.wakeAt + getF Reg.SYS_PINCFG_WAKETO s * 1000 * ms ≤ s.now) then .next (raise 9 s) else .next s

/-- WAKE_LOW_CLEAR (R76): WAKE low for 1 ms clears source 9 and arms wake by WAKE. -/
def execWakeLowClear (s : State) : Out :=
  let s1 := setWakeLevel false s
  .next (drop 9 { s1 with sys := { s1.sys with wakeArmed := true } })

/-- WAKE_TIMER_EXPIRY (R60, R80). -/
def execWakeTimerExpiry (s : State) : Out := .next (wakeBy 6 s)

/-- LINK_WAKE_DETECT (R348, R60): a wake pattern of 1 ms on P0 or P1 wakes from SENTINEL; the waking port is kept for R69. -/
def execLinkWakeDetect (port : Nat) (s : State) : Out :=
  if port < 2 then
    let s1 := wakeBy (2 + port) s
    .next (if s.sys.phase = .sentinel ∧ s1.sys.phase ≠ .sentinel then { s1 with sys := { s1.sys with wakePort := some port } } else s1)
  else .next s

/-- The counts of false wakes and the link-wake disables as `SYS_PINSTAT` shows them (R69, R89). -/
def reportLinkWake (s : State) : State :=
  s |> setF Reg.SYS_PINSTAT_FWAKE0 s.sys.fwake0 |> setF Reg.SYS_PINSTAT_FWAKE1 s.sys.fwake1
    |> setB Reg.SYS_PINSTAT_LWDIS0 s.sys.lwdis0 |> setB Reg.SYS_PINSTAT_LWDIS1 s.sys.lwdis1

/-- A false wake of a port is counted; the eighth in a row disables link wake there and raises source 13 (LINK_WAKE_DISABLE, R69). The count goes on
past 8 up to the end of its field, and each false wake from the eighth on disables link wake anew (DESIGN CHOICE notes/assumptions/67.md). -/
def countFalseWake (port : Nat) (s : State) : State :=
  let n := (if port = 0 then s.sys.fwake0 else s.sys.fwake1) + 1
  let dis := 8 ≤ n
  let s1 := if port = 0 then { s with sys := { s.sys with fwake0 := min n 15, lwdis0 := s.sys.lwdis0 || dis } }
            else { s with sys := { s.sys with fwake1 := min n 15, lwdis1 := s.sys.lwdis1 || dis } }
  reportLinkWake (if dis then pulse 13 s1 else s1)

/-- A successful training of a port clears its count of false wakes, and the wake it answered is no longer pending (R69). -/
def clearFalseWake (port : Nat) (s : State) : State :=
  let y := if port = 0 then { s.sys with fwake0 := 0 } else if port = 1 then { s.sys with fwake1 := 0 } else s.sys
  reportLinkWake { s with sys := { y with wakePort := if s.sys.wakePort = some port then none else s.sys.wakePort } }

/-! ## Start-up and clocks -/

/-- WAKE_FILTER_PASS (R74, 1.0 ms row): SCLK runs and start-up waits for a buck leg. -/
def execWakeFilterPass (s : State) : Out :=
  if s.sys.phase = .wakeFilter then .next (selectLeg { s with sys := { s.sys with phase := .waitLeg } }) else .next s

/-- BUCK_SOFT_START_DONE (R74, 3.1 ms row): VCC5 reaches 4.75 V and the LDOs start. -/
def execBuckSoftStartDone (s : State) : Out :=
  if s.sys.phase = .softStart ∧ s.sys.leg.isSome then .next { s with sys := { s.sys with phase := .rails } } else .next s

/-- CPLL_LOCK (R74, R84). -/
def execCpllLock (s : State) : Out :=
  match s.sys.phase with
  | .core => .next (setB Reg.SYS_CLKSTAT_CPLLLK true { s with sys := { s.sys with cpll := true } })
  | .active => .next (drop 8 (setB Reg.SYS_CLKSTAT_CPLLLK true s))
  | _ => .next s

/-- TPLL_LOCK (R74, R84). -/
def execTpllLock (s : State) : Out :=
  match s.sys.phase with
  | .core => .next (setB Reg.SYS_CLKSTAT_TPLLLK true { s with sys := { s.sys with tpll := true } })
  | .active | .standby => .next (drop 8 (setB Reg.SYS_CLKSTAT_TPLLLK true s))
  | _ => .next s

/-- SCLK_FAILURE (R59, R71): source 6; the SENTINEL functions are timed from MOSC until the next reset. -/
def execSclkFailure (s : State) : Out :=
  if coreUp s then .next (raise 6 (setB Reg.SYS_CLKSTAT_SCLKOK false { s with sys := { s.sys with sclkFailed := true } })) else .next s

/-- MOSC_FAILURE (R59, R71): source 7; CPLL and TPLL hold their last control word. -/
def execMoscFailure (s : State) : Out :=
  if coreUp s then .next (raise 7 (setB Reg.SYS_CLKSTAT_MOSCOK false s)) else .next s

/-- The lock bit of a PLL (R84). -/
def pllBit : Pll → Field
  | .core => Reg.SYS_CLKSTAT_CPLLLK
  | .timebase => Reg.SYS_CLKSTAT_TPLLLK
  | .link => Reg.SYS_CLKSTAT_LPLLLK
  | .pwm => Reg.SYS_CLKSTAT_PPLLLK

/-- PLL_LOSS_OF_LOCK (R59, R84): an enabled PLL loses lock. A PLL that reads as not locked is not enabled or has lost lock already. The source
of LPLL and PPLL, whose relocking no command reports, is one event (DESIGN CHOICE notes/assumptions/5.md). -/
def execPllLossOfLock (pll : Pll) (s : State) : Out :=
  if coreUp s && bit (pllBit pll) s then
    .next (match pll with
      | .core | .timebase => raise 8 (setB (pllBit pll) false s)
      | .link | .pwm => pulse 8 (setB (pllBit pll) false s))
  else .next s

/-! ## The housekeeping controller -/

/-- A command that needs the housekeeping controller: refused with REFUSED_FENCED while its ROM is bad, and with REFUSED_BUSY while it
restarts or loads a patch (R23, R574). -/
def withController (s : State) (d : Done) : Done :=
  if bit Reg.BST_CTLSTAT_ROMBAD s then Done.refuse .refusedFenced s
  else if s.sys.ctlBusy then Done.busyFree s
  else d

/-! ## The lock sequence -/

/-- Whether a locking write that arrives `dt` ns after the arming write locks: always up to 0.99 ms, never beyond 1.01 ms, and a free
choice between (R597). -/
def lockInTime (dt : Nat) (s : State) : Bool :=
  if dt ≤ 990000 then true else if 1010000 < dt then false else (freeWord s).getLsbD 0

/-- The lock as registers show it. -/
def disarm (s : State) : State := setB Reg.SYS_LOCKSTAT_ARMED false { s with sys := { s.sys with lockArm := none } }

/-- A write to `SYS_LOCK` (R597): KEY 0x4C arms for the requester (DEDUCED: again, when a sequence was armed already); KEY 0xB3 by the
same requester in time locks the named groups; any other write disarms. Every write completes with OK. -/
def lockWrite (req : Requester) (key : Nat) (flt tgt : Bool) (s : State) : State :=
  if key = 0x4C then setB Reg.SYS_LOCKSTAT_ARMED true { s with sys := { s.sys with lockArm := some (req, s.now) } }
  else
    match s.sys.lockArm with
    | none => s
    | some (r, t) =>
      let s1 := disarm (if 990000 < s.now - t ∧ s.now - t ≤ 1010000 then useFree s else s)
      if key = 0xB3 ∧ r = req ∧ lockInTime (s.now - t) s then
        s1 |> setB Reg.SYS_LOCKSTAT_LFLT (flt || bit Reg.SYS_LOCKSTAT_LFLT s1) |> setB Reg.SYS_LOCKSTAT_LTGT (tgt || bit Reg.SYS_LOCKSTAT_LTGT s1)
      else s1

/-- LOCK_ARM (R597): a write of `SYS_LOCK` with KEY 0x4C. -/
def execLockArm (req : Requester) (flt tgt : Bool) (s : State) : Out :=
  if coreUp s then (Done.ok (lockWrite req 0x4C flt tgt s)).out else .next s

/-- LOCK (R597): a write of `SYS_LOCK` with KEY 0xB3. -/
def execLock (req : Requester) (flt tgt : Bool) (s : State) : Out :=
  if coreUp s then (Done.ok (lockWrite req 0xB3 flt tgt s)).out else .next s

/-- LOCK_ARM_EXPIRY (R597): 1 ms passes without the second write, as MOSC times it. -/
def execLockArmExpiry (s : State) : Out :=
  if s.sys.lockArm.any (fun e => decide (e.2 + 990000 < s.now)) then .next (disarm s) else .next s

end Sys2Proof.Machine
end

