-- ==== Sys2Proof/Machine/Cpb.lean ====
section
/-!
DEFINITION. Sys2Proof/Machine/Cpb.lean: stand-alone protection and passive balancing
(spec/07_cell_protection_and_passive_balancing.md, R219-R254; spec/05_crosscheck_and_sense_integrity.md R165, R166, R176).
-/
namespace Sys2Proof.Machine

/-! ## Windows -/

/-- The settle count of a filter setting (R97, R98). It is also the number of words that a record's filter window spans: twice the group
delay of six words (DEDUCED, notes/assumptions/10.md). -/
def settleCount (rate notch : Nat) : Nat :=
  if notch = 0 then 12 else if rate = 0 then 33 else if rate = 1 then 176 else 12

/-- The setting in force. -/
def rateNow (s : State) : Nat := getF Reg.CMS_STAT_RATEACT s
def notchNow (s : State) : Nat := getF Reg.CMS_STAT_NOTCHACT s
def settleNow (s : State) : Nat := settleCount (rateNow s) (notchNow s)

/-- The length of a 64 Sa/s interval in ns (R100). -/
def interval64 : Nat := 15625000

/-- The number of words of a filter setting in a 64 Sa/s interval (R97, R100). -/
def wordsPerInterval (rate : Nat) : Nat :=
  match rate with
  | 0 => 1
  | 1 => 8
  | 2 => 64
  | _ => 256

/-- The word period of a setting, ns (R97). -/
def wordPeriod (rate : Nat) : Nat := interval64 / wordsPerInterval rate

/-- The time that a record's filter window spans at the setting in force, ns. -/
def windowTime (s : State) : Nat := settleNow s * interval64 / wordsPerInterval (rateNow s)

/-- Whether what was last so at a time lies in the filter window of a record that is output now (R111, R167, R170). -/
def inWindow (last : Option Nat) (s : State) : Bool := last.any (fun t => decide (s.now ≤ t + windowTime s))

/-! ## What decides about a cell -/

/-- A word with the bits of the cells that satisfy a condition: bit n for cell n. -/
def cellMask (p : Nat → Bool) : Word :=
  (List.range 24).foldl (fun w k => if p (k + 1) then w ||| (1#32 <<< (k + 1)) else w) 0#32

/-- Whether the cell inputs are marked unused (R20). -/
def unusedCells (s : State) : Bool := s.cms.unused == some true

/-- Until the test of R20, while VMOD lies below the AON threshold, comparators only report and no switch closes. -/
def r20Waits (s : State) : Bool := s.cms.unused == none && s.sys.aonFromVin

/-- Whether tap Ck is declared open (R164). -/
def tapOpen (k : Nat) (s : State) : Bool := regBit Reg.XCK_OWSTAT k s

/-- The cells that an open tap Ck affects (R161): cells k and k + 1, within 1 to 24. -/
def tapCells (k : Nat) : List Nat := [k, k + 1].filter (fun n => 1 ≤ n ∧ n ≤ 24)

/-- Whether an open tap is declared that affects cell n (R165). -/
def openAt (n : Nat) (s : State) : Bool := tapOpen (n - 1) s || tapOpen n s

/-- Whether a suspect tap holds the reactions of cell n (R166). -/
def suspectHolds (n : Nat) (s : State) : Bool := s.xck.suspects.any (fun x => x.hold && (tapCells x.tap).contains n)

/-- Whether the reactions of cell n's comparators are suspended or held (R226). -/
def reactionsOff (n : Nat) (s : State) : Bool := openAt n s || suspectHolds n s

/-! ## Eligibility of a switch (R244) -/

/-- Whether an impedance plan holds the bleed switches open (R210): until its last step ends, also where that ends early. -/
def balHeld (s : State) : Bool := s.imp.balHold || s.imp.fades.any (·.hold)

/-- The first row of R244 that fails for switch n, or 0; row 10 is left to the caller. -/
def failingRow (n : Nat) (s : State) : Nat :=
  if s.sys.phase ≠ .active ∨ s.sys.transition.isSome ∨ testing 21 s then 1
  else if bit Reg.FLT_STAT_SAFE s ∨ bit Reg.FLT_FENCE0_BLEED s then 2
  else if getF Reg.CAL_STAT_PHASE s ≠ 0 then 3
  else if bit Reg.CPB_BALSTAT_TOFF s then 4
  else if regBit Reg.CPB_CELLEN n s = false ∨ unusedCells s ∨ r20Waits s then 5
  else if regBit Reg.CPB_UVFLAG n s ∨ regBit Reg.CPB_OCFLT n s ∨ regBit Reg.CPB_SWCHK n s then 6
  else if openAt n s then 7
  else if balHeld s then 8
  else if s.xck.gate.isSome then 9
  else 0

/-- Whether switch n is commanded: by `CPB_BALCMD` in force, or closed by a harness measurement, which takes over the switches (R175,
R244 row 10). -/
def commanded (n : Nat) (s : State) : Bool :=
  match s.xck.harness with
  | some h => h.closed == some n
  | none => s.cpb.balCmd.getLsbD n

/-- Whether switch n is eligible (R244). -/
def eligible (n : Nat) (s : State) : Bool := commanded n s && failingRow n s == 0

/-- `CPB_BALSTAT.HOLD`: the first failing row among the commanded switches, 0 when none is held (R244). -/
def holdRow (s : State) : Nat :=
  (List.range 24).foldl (fun m k =>
    let r := failingRow (k + 1) s
    if commanded (k + 1) s && r != 0 && (m == 0 || r < m) then r else m) 0

/-- Whether the device holds switch n closed. -/
def conducts (n : Nat) (s : State) : Bool := 1 ≤ n && n ≤ 24 && (getF Reg.CPB_BALSTAT_ON s).testBit (n - 1)

/-- Whether current flows in bleed path n: the switch is closed, or stuck on (R240). -/
def flows (n : Nat) (s : State) : Bool := conducts n s || (1 ≤ n && n ≤ 24 && s.cpb.stuckOn.getLsbD n)

/-- The bleed paths that conduct now leave their mark on the filter windows, the interval and the integration window that hold the present time
(R170, R171, R204). -/
def noteBleed (s : State) : State :=
  let near := cellMask (fun n => flows (n - 1) s || flows n s || flows (n + 1) s)
  { s with
    cms := { s.cms with balSeen := s.cms.balSeen.zipIdx.map (fun e => if flows (e.2 + 1) s then some s.now else e.1) }
    xck := { s.xck with balInt := s.xck.balInt.zipIdx.map (fun e => { e.1 with seen := e.1.seen || flows (e.2 + 1) s }) }
    imp := if s.imp.phase = .window then { s.imp with wBal := s.imp.wBal ||| near } else s.imp }

/-- A half of an interval ends (R236): the paths that conducted at both its ends conducted through it. -/
def closeHalf (s : State) : State :=
  if s.xck.halfAt.isNone then s
  else
    let l := s.xck.balInt.zipIdx.map (fun e =>
      let was := s.xck.halfOn.getLsbD (e.2 + 1)
      let still := flows (e.2 + 1) s
      if was && still then { e.1 with full := e.1.full + 1 } else { e.1 with part := e.1.part || was || still })
    { s with xck := { s.xck with balInt := l, halfAt := none } }

/-- A half begins at the present fabric time. -/
def openHalf (s : State) : State := { s with xck := { s.xck with halfOn := cellMask (fun n => flows n s), halfAt := some s.ft } }

/-- Switches that are no longer eligible open, and HOLD shows the row that holds (R238, R244). -/
def enforceSwitches (s : State) : State :=
  let on := getF Reg.CPB_BALSTAT_ON s
  let keep := cellMask (fun n => on.testBit (n - 1) && eligible n s)
  noteBleed s |> setF Reg.CPB_BALSTAT_ON (getBits keep 1 24) |> setF Reg.CPB_BALSTAT_HOLD (holdRow s)

/-! ## The fault pair -/

/-- Whether a cause for the fault level stands (R229). While the device leaves STANDBY none does, so that the tone may resume before ACTIVE is reached (DESIGN
CHOICE notes/assumptions/68.md). -/
def pairCause (s : State) : Bool :=
  reg s Reg.CPB_OVFLAG != 0#32 || reg s Reg.CPB_UVFLAG != 0#32 || bit Reg.FLT_STAT_SAFE s || bit Reg.CPB_FPCFG_FORCE s || testing 21 s ||
  !(s.sys.phase == .active || s.sys.phase == .resume || s.sys.phase == .core)

/-- FAULT_LEVEL_DRIVE (R229): in DRIVE mode a standing cause drives the fault level. -/
def driveFaultLevel (s : State) : State :=
  if !s.cpb.sense && pairCause s && s.pins.fault != .faultLevel then
    setB Reg.CPB_FPSTAT_TONE false { s with pins := { s.pins with fault := .faultLevel }, cpb := { s.cpb with faultSince := s.now } }
  else s

/-- A millisecond boundary of the fault pair (R229, R233), up to one core clock past it: whole milliseconds of `now` (DESIGN CHOICE
notes/assumptions/4.md). -/
def onMillisecond (s : State) : Bool := decide (s.now % ms < 5)

/-- TONE_RESUME (R229): in DRIVE mode, at a millisecond boundary after every cause has gone and the 10 ms have passed. -/
def execToneResume (s : State) : Out :=
  if !s.cpb.sense && !pairCause s && s.pins.fault == .faultLevel && onMillisecond s && decide (s.cpb.faultSince + 10 * ms ≤ s.now) then
    .next (setB Reg.CPB_FPSTAT_TONE true { s with pins := { s.pins with fault := .tone } })
  else .next s

/-- A latched bit of the FAULT register of emulated device d, or of both (R429). -/
def latchG1 (d : Option Nat) (k : Nat) (s : State) : State :=
  { s with hst := { s.hst with g1latch := s.hst.g1latch.zipIdx.map (fun e => if d.all (· == e.2) then e.1 ||| 2 ^ k else e.1) } }

/-- Source 71 is raised, which generation 1 shows as FLTPAIR (R230, R232, R429). -/
def pairFault (s : State) : State := latchG1 none 9 (pulse 71 s)

/-- FAULT_PAIR_READBACK_ERROR (R230). -/
def execFaultPairReadbackError (s : State) : Out :=
  if coreUp s && !s.cpb.sense then .next (pairFault (setB Reg.CPB_FPSTAT_RBERR true s)) else .next s

/-- NEIGHBOUR_STATE_CHANGE (R231, R232): the classified state of the sensed pair: 0 Healthy, 1 Fault level, 2 Invalid, 3 Toggling. A loss of
Healthy is counted once; a return clears STUCK. -/
def execNeighbourStateChange (cause : Fin 4) (s : State) : Out :=
  if coreUp s && s.cpb.sense then
    let s1 := setF Reg.CPB_FPSTAT_CAUSE cause.val s
    if cause.val = 0 then
      .next (s1 |> setB Reg.CPB_FPSTAT_NBROK true |> setB Reg.CPB_FPSTAT_STUCK false |> drop 71)
    else if bit Reg.CPB_FPSTAT_NBROK s then
      .next (setEvt .cpb 4 (pairFault (s1 |> incSat Reg.CPB_FPSTAT_LOSSCNT |> setB Reg.CPB_FPSTAT_NBROK false
        |> fun t => { t with cpb := { t.cpb with nbrSince := t.now } })))
    else .next s1
  else .next s

/-- NEIGHBOUR_STUCK_TIMEOUT (R232, R233): STUCKTO seconds, which are not 0, have passed since the loss or the change to SENSE. -/
def execNeighbourStuckTimeout (s : State) : Out :=
  if coreUp s && s.cpb.sense && !bit Reg.CPB_FPSTAT_NBROK s && !bit Reg.CPB_FPSTAT_STUCK s && getF Reg.CPB_FPCFG_STUCKTO s != 0 &&
      decide (s.cpb.nbrSince + getF Reg.CPB_FPCFG_STUCKTO s * 1000 * ms ≤ s.now) then
    .next (pairFault (setB Reg.CPB_FPSTAT_STUCK true s))
  else .next s

/-- The pair mode of `CPB_FPCFG.MODE` comes into force (R233): SENSE begins without a Healthy state, DRIVE with the fault level. CAUSE keeps its value until the
first classification, and STUCK clears (DESIGN CHOICE notes/assumptions/82.md). -/
def applyPairMode (s : State) : State :=
  let sense := bit Reg.CPB_FPCFG_MODE s
  if sense = s.cpb.sense then s
  else
    let s1 := s |> setB Reg.CPB_FPSTAT_NBROK false |> setB Reg.CPB_FPSTAT_TONE false |> setB Reg.CPB_FPSTAT_STUCK false
    { s1 with pins := { s1.pins with fault := if sense then .released else .faultLevel }
              cpb := { s1.cpb with sense := sense, faultSince := s1.now, nbrSince := s1.now } }

/-- FAULT_PAIR_MODE_CHANGE (R233): at a millisecond boundary. -/
def execFaultPairModeChange (s : State) : Out := if coreUp s && onMillisecond s then .next (applyPairMode s) else .next s

/-! ## Comparators -/

/-- The flag register of a comparator kind: over-voltage or under-voltage. -/
def flagReg (isOv : Bool) : Nat := if isOv then Reg.CPB_OVFLAG else Reg.CPB_UVFLAG

/-- The raw register of a comparator kind. -/
def rawReg (isOv : Bool) : Nat := if isOv then Reg.CPB_OVRAW else Reg.CPB_UVRAW

/-- The fault source of a comparator kind (R223). -/
def tripSource (isOv : Bool) : Nat := if isOv then 68 else 69

/-- A harness measurement ends early (R176): with a failure, FAIL is set and source 50 raised. -/
def endHarness (st : Status) (failed : Bool) (s : State) : State :=
  match s.xck.harness with
  | none => s
  | some h =>
    let s1 := setB Reg.XCK_HRCMD_BUSY false { s with xck := { s.xck with harness := none } }
    let s2 := if failed then pulse 50 (setB Reg.XCK_HRCMD_FAIL true s1) else s1
    complete h.ticket st [] 0 (enforceSwitches s2)

/-- A harness measurement that balancing stops ends with FAIL, source 50 and INCOMPLETE (R176). -/
def harnessAbort (s : State) : State := endHarness .incomplete true s

/-- The actions of a trip (R223): the flag, one event of source 68 or 69, the fault level, for UV the open switch, and `CPB_EVT.TRIP`. A trip
ends a harness measurement (R176). -/
def tripActions (n : Nat) (isOv : Bool) (s : State) : State :=
  let s1 := setRegBit (flagReg isOv) n true s
  let s2 := pulse (tripSource isOv) (setLine (tripSource isOv) true s1)
  harnessAbort (setEvt .cpb 1 (enforceSwitches (driveFaultLevel s2)))

/-- Whether the comparators of cell n run (R225, R248). -/
def comparatorOn (n : Nat) (isOv : Bool) (s : State) : Bool :=
  1 ≤ n && n ≤ 24 && regBit Reg.CPB_CELLEN n s && !unusedCells s &&
  (if isOv then bit Reg.CPB_CFG_OVEN s else bit Reg.CPB_CFG_UVEN s)

/-- The continuous comparators run (R60, R74, R221): from the application of the profile on, in ACTIVE, and in STANDBY until ACTIVE is entered. -/
def comparatorsRun (s : State) : Bool :=
  match s.sys.phase with
  | .active | .standby | .resume => true
  | .core => s.sys.profileApplied
  | _ => false

/-- The mark of R20 on a cell whose trip waits for the test. -/
def markWaiting (n : Nat) (isOv w : Bool) (s : State) : State :=
  let b : Word := 1#32 <<< n
  let put (m : Word) : Word := if w then m ||| b else m &&& ~~~b
  { s with cpb := if isOv then { s.cpb with waitOv := put s.cpb.waitOv } else { s.cpb with waitUv := put s.cpb.waitUv } }

/-- A comparator that stands tripped acts (R223) unless the reactions of its cell are suspended or held (R226), or wait for the test of R20. -/
def actTripped (n : Nat) (isOv : Bool) (s : State) : State :=
  if reactionsOff n s then s else if r20Waits s then markWaiting n isOv true s else tripActions n isOv s

/-- COMPARATOR_TRIP (R20, R74, R221, R223, R226): the raw bit sets; a trip that acts wakes in STANDBY and during an entry (R60, R65). -/
def execComparatorTrip (n : Nat) (isOv : Bool) (s : State) : Out :=
  if comparatorsRun s && comparatorOn n isOv s then
    let s1 := setRegBit (rawReg isOv) n true s
    let s2 := actTripped n isOv s1
    .next (if reactionsOff n s1 || r20Waits s1 then s2 else wakeBy 4 s2)
  else .next s

/-- COMPARATOR_RELEASE (R220). -/
def execComparatorRelease (n : Nat) (isOv : Bool) (s : State) : Out :=
  if coreUp s && 1 ≤ n && n ≤ 24 then .next (markWaiting n isOv false (setRegBit (rawReg isOv) n false s)) else .next s

/-- The comparators of the named cells that stand tripped act now: at the end of a hold and at the clear of a declaration (R226). -/
def standingTrips (cells : List Nat) (s : State) : State :=
  cells.foldl (fun t n =>
    let t1 := if regBit Reg.CPB_OVRAW n t then actTripped n true t else t
    if regBit Reg.CPB_UVRAW n t1 then actTripped n false t1 else t1) s

/-- The trips that waited for the test of R20 act once it has found cells in use. -/
def waitingTrips (s : State) : State :=
  let s1 := { s with cpb := { s.cpb with waitOv := 0#32, waitUv := 0#32 } }
  (List.range 24).foldl (fun t k =>
    let t1 := if s.cpb.waitOv.getLsbD (k + 1) then actTripped (k + 1) true t else t
    if s.cpb.waitUv.getLsbD (k + 1) then actTripped (k + 1) false t1 else t1) s1

/-- Comparators that have been turned off trip no longer (R225). -/
def dropComparators (s : State) : State :=
  let on (isOv : Bool) : Word := cellMask (fun n => comparatorOn n isOv s)
  let s1 := s |> setReg Reg.CPB_OVRAW (reg s Reg.CPB_OVRAW &&& on true) |> setReg Reg.CPB_UVRAW (reg s Reg.CPB_UVRAW &&& on false)
  { s1 with cpb := { s1.cpb with waitOv := s1.cpb.waitOv &&& on true, waitUv := s1.cpb.waitUv &&& on false } }

/-- SENTINEL_COMPARATOR_SAMPLE (R20, R61, R65, R222): of the enabled cells, a condition at two consecutive samples sets the flag and wakes as
`SYS_PWRCFG.OUVWAKE` allows; while R20 keeps the actions waiting, neither. In the slow-clock cycle in which another source has taken the device out of
SENTINEL, a second condition is one more wake source. -/
def execSentinelComparatorSample (ov uv : Word) (s : State) : Out :=
  if s.sys.phase = .sentinel ∧ unusedCells s = false then
    let o := cellMask (fun n => ov.getLsbD n && comparatorOn n true s)
    let u := cellMask (fun n => uv.getLsbD n && comparatorOn n false s)
    let tov := o &&& s.cpb.prevOv
    let tu := u &&& s.cpb.prevUv
    let s1 := { s with cpb := { s.cpb with prevOv := o, prevUv := u } }
    let s2 := s1 |> setReg Reg.CPB_OVFLAG (reg s Reg.CPB_OVFLAG ||| tov) |> setReg Reg.CPB_UVFLAG (reg s Reg.CPB_UVFLAG ||| tu)
    .next (if r20Waits s then s1 else if tov = 0#32 ∧ tu = 0#32 then s2 else wakeBy 4 s2)
  else if coreUp s then .next s
  else .next (if ov &&& s.sys.nextOv = 0#32 ∧ uv &&& s.sys.nextUv = 0#32 then s else joinWake 4 s)

/-- A W1C write to a flag register clears only the bits whose comparator, and pair check, stands released (R224, R226); source 68 or 69 ends
with the last flag. -/
def clearFlags (isOv : Bool) (bits : Word) (s : State) : State :=
  let cross := if isOv then s.xck.pairOv else s.xck.pairUv
  let f := reg s (flagReg isOv)
  let f' := f &&& ~~~(bits &&& ~~~(reg s (rawReg isOv)) &&& ~~~cross)
  let s1 := setReg (flagReg isOv) f' s
  let s2 := if f' = 0#32 then drop (tripSource isOv) s1 else s1
  enforceSwitches s2

/-- CPB_FLAG_CLEAR (R3, R224): the flags that hardware sets in the clock cycle of the clear stay set. -/
def execCpbFlagClear (isOv : Bool) (bits sets : Word) (s : State) : Out :=
  if coreUp s then
    let t := setReg (flagReg isOv) (reg s (flagReg isOv) ||| (sets &&& 0x01FFFFFE#32)) s
    (Done.ok (clearFlags isOv (bits &&& ~~~sets) t)).out
  else .next s

/-- Source 70 is raised and `CPB_EVT.SWFLT` set (R246, R254). -/
def switchFault (s : State) : State := setEvt .cpb 8 (pulse 70 s)

/-- As `switchFault`, for cell n: generation 1 shows it as BALFLT of the cell's emulated device (R427, R429). -/
def cellSwitchFault (n : Nat) (s : State) : State := latchG1 (some ((n - 1) / 12)) 7 (switchFault s)

/-- COMPARATOR_CHECK (R227): the next cell in cyclic order is checked unless it is masked, flagged, named for an open or suspect tap, out of
range, or a calibration run is in progress. Two failed checks in a row set its bit in `CPB_CMPFLT`. `ovFlips` and `uvFlips`: whether the
comparators flipped. -/
def execComparatorCheck (ovFlips uvFlips : Bool) (s : State) : Out :=
  let n := s.cpb.checkCell
  let s1 := { s with cpb := { s.cpb with checkCell := n % 24 + 1 } }
  let m := nth s.xck.pmean (n - 1) 0
  let skip := !regBit Reg.CPB_CELLEN n s || regBit Reg.CPB_OVFLAG n s || regBit Reg.CPB_UVFLAG n s ||
    openAt n s || s.xck.suspects.any (fun x => (tapCells x.tap).contains n) || m < 600000 || 5400000 < m || getF Reg.CAL_STAT_PHASE s != 0
  if s.sys.phase ≠ .active ∨ unusedCells s then .next s
  else if skip then .next s1
  else
    let ok := ovFlips && uvFlips
    let c := if ok then 0 else nth s.cpb.checkFails (n - 1) 0 + 1
    let s2 := { s1 with cpb := { s1.cpb with checkFails := setNth s1.cpb.checkFails (n - 1) c } }
    if 2 ≤ c && !regBit Reg.CPB_CMPFLT n s then .next (cellSwitchFault n (setRegBit Reg.CPB_CMPFLT n true s2)) else .next s2

/-! ## Balancing -/

/-- The switches 1 to 24 in ascending cyclic order after switch p. -/
def cyclicFrom (p : Nat) : List Nat := (List.range 24).map (fun i => (p + i) % 24 + 1)

/-- The interval of the balancing period at fabric time t, and whether its second half runs (R236). -/
def balancePosition (t : Nat) : Nat × Bool :=
  let r := t % 1000000000
  (r / 15625000, decide (7812500 ≤ r % 15625000))

/-- The intervals of the period in which switches may conduct: DUTY + 1, or half of it, at least 1, under R241. -/
def dutyIntervals (s : State) : Nat :=
  let d := getBits s.cpb.balCfg 0 6 + 1
  if s.cpb.duty2 then max 1 (d / 2) else d

/-- Whether switch n would conduct in a half of an interval (R236): eligible, within the duty, and in its own half unless no neighbour is
eligible. A harness measurement holds its switch closed in both halves. -/
def wouldConduct (n interval : Nat) (second : Bool) (s : State) : Bool :=
  eligible n s &&
  (s.xck.harness.isSome ||
    (interval < dutyIntervals s &&
      ((n % 2 == (if second then 0 else 1)) || (!(1 < n && eligible (n - 1) s) && !(n < 24 && eligible (n + 1) s)))))

/-- The switches that conduct when more than MAXON would (R237): those already selected in this period, then in cyclic order. -/
def limitSwitches (cands selected : List Nat) (limit prev : Nat) : List Nat :=
  if cands.length ≤ limit then cands
  else
    let kept := selected.filter (fun n => cands.contains n)
    let rest := (cyclicFrom prev).filter (fun n => cands.contains n && !kept.contains n)
    (kept ++ rest).take limit

/-- Pending balancing writes come into force (R238), and at the start of a period the throttle of R241 and the selections of R237. -/
def startHalf (interval : Nat) (second : Bool) (s : State) : State :=
  let s1 := { s with cpb := { s.cpb with balCmd := reg s Reg.CPB_BALCMD, balCfg := reg s Reg.CPB_BALCFG } }
  if interval = 0 ∧ second = false then
    let cooled := s1.cpb.cool
    let s2 := if cooled then s1 |> setB Reg.CPB_BALSTAT_THROT false |> setB Reg.CPB_BALSTAT_TOFF false else s1
    { s2 with cpb := { s2.cpb with
        selFirst := [], selSecond := [], prevFirst := s2.cpb.lastFirst, prevSecond := s2.cpb.lastSecond
        duty2 := bit Reg.CPB_BALSTAT_THROT s2, cool := true } }
  else s1

/-- BALANCING_HALF_BOUNDARY (R236, R237, R238, R241, R244): the half that begins at the present fabric time. -/
def execBalancingHalfBoundary (s : State) : Out :=
  if coreUp s then
    let (interval, second) := balancePosition s.ft
    let s1 := startHalf interval second (closeHalf (noteBleed s))
    let cands := (List.range 24).map (· + 1) |>.filter (fun n => wouldConduct n interval second s1)
    let sel := if second then s1.cpb.selSecond else s1.cpb.selFirst
    let prev := if second then s1.cpb.prevSecond else s1.cpb.prevFirst
    let on := limitSwitches cands sel (getBits s1.cpb.balCfg 8 4) prev
    let last := ((cyclicFrom prev).filter (fun n => on.contains n)).getLastD (if second then s1.cpb.lastSecond else s1.cpb.lastFirst)
    let b := if second then { s1.cpb with selSecond := if cands.length = on.length then sel else on, lastSecond := last }
             else { s1.cpb with selFirst := if cands.length = on.length then sel else on, lastFirst := last }
    let s2 := { s1 with cpb := b }
    let mask := cellMask (fun n => on.contains n)
    .next (openHalf (noteBleed (s2 |> setF Reg.CPB_BALSTAT_ON (getBits mask 1 24) |> setF Reg.CPB_BALSTAT_HOLD (holdRow s2))))
  else .next s

/-- SWITCH_OVERCURRENT (R239): the switch opens, its bit in `CPB_OCFLT` sets and source 70 is raised. -/
def execSwitchOvercurrent (n : Nat) (s : State) : Out :=
  if coreUp s && conducts n s then .next (enforceSwitches (cellSwitchFault n (setRegBit Reg.CPB_OCFLT n true s))) else .next s

/-- SWITCH_CHECK (R240, R246): the voltage `v` in µV across switch n, judged by whether the switch is on; a bit that `CPB_SWCHK` gains raises source
70. Masked cells raise no switch fault (R225). -/
def execSwitchCheck (n : Nat) (v : Int) (s : State) : Out :=
  let m := nth s.xck.pmean (n - 1) 0
  let on := conducts n s
  let bad := if on then decide (m < 2 * v) else decide (10 * v < 3 * m)
  if s.sys.phase = .active ∧ 1 ≤ n ∧ n ≤ 24 ∧ regBit Reg.CPB_CELLEN n s ∧ unusedCells s = false then
    let b : Word := 1#32 <<< n
    let stuck := if on then s.cpb.stuckOn else if bad then s.cpb.stuckOn ||| b else s.cpb.stuckOn &&& ~~~b
    let s1 := noteBleed { s with cpb := { s.cpb with stuckOn := stuck } }
    .next (if bad && !regBit Reg.CPB_SWCHK n s then enforceSwitches (cellSwitchFault n (setRegBit Reg.CPB_SWCHK n true s1)) else s1)
  else .next s

/-- The limit of R241 in 0.01 °C, by the `CPB_BALCFG` in force (R238). -/
def bleedLimit (s : State) : Int := 10000 + 1000 * getBits s.cpb.balCfg Reg.CPB_BALCFG_TLIM.lo Reg.CPB_BALCFG_TLIM.w

/-- BLEED_THROTTLE (R241): one sample of TS0, in 0.01 °C, against the limit. -/
def bleedThermal (ts0 : Int) (s : State) : State :=
  let tlim : Int := bleedLimit s
  let s1 := if tlim ≤ ts0 then setB Reg.CPB_BALSTAT_THROT true s else s
  let s2 := if tlim + 1000 ≤ ts0 ∧ bit Reg.CPB_BALSTAT_TOFF s = false then
      enforceSwitches (switchFault (setB Reg.CPB_BALSTAT_TOFF true s1)) else s1
  if ts0 < tlim - 1000 then s2 else { s2 with cpb := { s2.cpb with cool := false } }

/-! ## The communication-loss timer -/

/-- The timer restarts from full (R242). -/
def restartTimer (s : State) : State := { s with cpb := { s.cpb with clStart := s.now } }

/-- `CPB_CLTSTAT.LEFT` in units of 10 ms (R252): in ACTIVE the time left; the timer does not run otherwise (R60). -/
def timerLeft (s : State) : Nat :=
  let p := getF Reg.CPB_CLTCFG_PERIOD s
  if s.sys.phase = .active then min p (((p + 1) * 10 * ms - (s.now - s.cpb.clStart)) / (10 * ms)) else p

/-- A write of `CPB_CLTCFG.PERIOD` restarts the timer from the new period (R242). -/
def writeTimerPeriod (period : Nat) (s : State) : State :=
  restartTimer (setF Reg.CPB_CLTCFG_PERIOD period s)

/-- CLTCFG_WRITE (R242): the codes 1000 to 1023 are reserved (R252, R2). -/
def execCltcfgWrite (period : Fin 1024) (s : State) : Out :=
  if coreUp s = false then .next s
  else if 1000 ≤ period.val then .fault (.reservedWrite Reg.CPB_CLTCFG)
  else (Done.ok (writeTimerPeriod period.val s)).out

end Sys2Proof.Machine
end

