-- ==== Sys2Proof/Machine/Imp.lean ====
section
/-!
DEFINITION. Sys2Proof/Machine/Imp.lean: in-service cell impedance (spec/06_impedance_engine.md, R189-R218; R355).
-/
namespace Sys2Proof.Machine

/-! ## The plan -/

/-- The latest 64 Sa/s boundary at or before a fabric time. -/
def boundaryAt (t : Nat) : Nat := t / interval64 * interval64

/-- The first 64 Sa/s boundary at or after a fabric time. -/
def boundaryAfter (t : Nat) : Nat := (t + interval64 - 1) / interval64 * interval64

/-- The fields of plan entry p (R193). -/
def planLink (p : Nat) (s : State) : Bool := bit (Reg.IMP_PLAN_W0_LINK p) s
def planFreq (p : Nat) (s : State) : Nat := getF (Reg.IMP_PLAN_W0_FREQ p) s
def planPhase (p : Nat) (s : State) : Nat := getF (Reg.IMP_PLAN_W1_PHASE p) s
def planAmp (p : Nat) (s : State) : Nat := getF (Reg.IMP_PLAN_W1_AMP p) s
def planInteg (p : Nat) (s : State) : Nat := getF (Reg.IMP_PLAN_W2_INTEG p) s
def planSettle (p : Nat) (s : State) : Nat := getF (Reg.IMP_PLAN_W2_SETTLE p) s

/-- The number of entries of the plan (R213). -/
def planCount (s : State) : Nat := getF Reg.IMP_CFG_NPTS s + 1

/-- The last entry of the step that begins with entry p: entries joined by LINK, within the plan. -/
def stepLast (p n : Nat) (s : State) : Nat → Nat
  | 0 => p
  | k + 1 => if planLink p s ∧ p + 1 < n then stepLast (p + 1) n s k else p

/-- The first entry of the step that holds entry p. -/
def stepFirst (p : Nat) (s : State) : Nat :=
  match p with
  | 0 => 0
  | q + 1 => if planLink q s then stepFirst q s else q + 1

/-- The entries of the step that begins with entry p. -/
def stepEntries (p : Nat) (s : State) : List Nat := (List.range (stepLast p (planCount s) s 32 + 1 - p)).map (· + p)

/-- FREQ, AMP or INTEG of entry p is out of range (R193, R195 RANGE); INTEG belongs to the first entry of a step. -/
def rangeBad (s : State) (p : Nat) : Bool :=
  planFreq p s < 50 || 2000000 < planFreq p s || planAmp p s < 50 || 5000 < planAmp p s || (stepFirst p s == p && planInteg p s == 0)

/-- Entry p breaks a grouping rule of R194 (R195 GROUP). Which entry fails where a rule belongs to the whole step is this model's choice (DESIGN CHOICE
notes/assumptions/71.md): the fifth entry of a step that is too long, and the later of two tones at 2 or 3 times one another. -/
def groupBad (s : State) (p : Nat) : Bool :=
  let f0 := planFreq (stepFirst p s) s
  let f := planFreq p s
  let earlier := (List.range (p - stepFirst p s)).map (· + stepFirst p s)
  (p - stepFirst p s == 4) || (p + 1 == planCount s && planLink p s) ||
  (stepFirst p s != p &&
    (f0 == 0 || f % f0 != 0 || f < 2 * f0 || reg s (Reg.IMP_PLAN_W2 p) != 0#32 ||
      earlier.any (fun q => f == 2 * planFreq q s || f == 3 * planFreq q s || planFreq q s == 2 * f || planFreq q s == 3 * f)))

/-- The amplitudes of the step that begins with entry p add up to more than 5000 mA (R195 AMPSUM); the step's first entry is the one that fails
(DESIGN CHOICE notes/assumptions/71.md). -/
def ampBad (s : State) (p : Nat) : Bool :=
  stepFirst p s == p && 5000 < ((stepEntries p s).map (fun q => planAmp q s)).sum

/-- INTEG / f0 or SETTLE / f0 of the step that begins with entry p exceeds 400 s (R195 DURATION); f0 in mHz. -/
def durationBad (s : State) (p : Nat) : Bool :=
  stepFirst p s == p && (400 * planFreq p s < planInteg p s * 1000 || 400 * planFreq p s < planSettle p s * 1000)

/-- The first reason of R195 that an entry gives, and the lowest entry that fails for it. -/
def entryError (s : State) : Option (Nat × Nat) :=
  let ps := List.range (planCount s)
  match ps.find? (rangeBad s) with
  | some p => some (1, p)
  | none =>
    match ps.find? (groupBad s) with
    | some p => some (2, p)
    | none =>
      match ps.find? (ampBad s) with
      | some p => some (3, p)
      | none => (ps.find? (durationBad s)).map (fun p => (4, p))

/-- The time from the start of a step to its end, ns (R190); f0 in mHz. -/
def stepLength (p : Nat) (s : State) : Nat :=
  40 * ms + (planSettle p s + planInteg p s) * 1000000000000 / planFreq p s

/-- The end of the pass whose step p starts at fabric time t (R191), over at most `fuel` steps. -/
def passEnd (p t : Nat) (s : State) : Nat → Nat
  | 0 => t
  | k + 1 =>
    let e := t + stepLength p s
    let q := stepLast p (planCount s) s 32 + 1
    if q < planCount s then passEnd q (boundaryAfter e) s k else e

/-- The start time of `IMP_T0H`:`IMP_T0L` (R196). -/
def planT0 (s : State) : Nat := (reg s Reg.IMP_T0H).toNat * 2 ^ 32 + (reg s Reg.IMP_T0L).toNat

/-- Whether a plan is ARMED or RUNNING. -/
def planActive (s : State) : Bool := getF Reg.IMP_STAT_STATE s == 1 || getF Reg.IMP_STAT_STATE s == 2

/-- Whether the converter runs in the transfer class and is not held off (R195, R20, R28). -/
def transferRunning (s : State) : Bool :=
  getF Reg.CNV_STAT_STATE s == 4 && getF Reg.CNV_CFG_CLASS s == 2 && !unusedCells s && !bit Reg.SYS_STRAPSTAT_LCM s

/-- The reason of R195 that does not belong to an entry, 0 when none. -/
def startError (s : State) : Nat :=
  let t0 := planT0 s
  let pair := bit Reg.IMP_CFG_PAIR s
  let partner := getF Reg.IMP_PAIRCFG_PARTNER s
  let hopBad (h : Nat) : Bool := h < 1 || 16 < h
  if t0 ≠ 0 ∧ t0 % interval64 ≠ 0 then 5
  else if t0 ≠ 0 ∧ t0 < s.ft + (if pair then 50 * ms else ms) then 6
  else if bit Reg.CMS_STAT_TBLOCK s = false then 7
  else if transferRunning s = false ∨ bit Reg.FLT_FENCE0_CUR s then 8
  else if pair ∧ (t0 = 0 ∨ partner = 1023 ∨ (bit Reg.FAB_ID_VALID s ∧ partner = getF Reg.FAB_ID_ID s) ∨
      hopBad (getF Reg.IMP_PAIRCFG_PHOP s) ∨ hopBad (getF Reg.IMP_PAIRCFG_AHOP s)) then 9
  else 0

/-- A START that fails a check records the reason and the entry and leaves STATE (R195). -/
def rejectStart (err pt : Nat) (s : State) : Done :=
  Done.refuse .checkFail (s |> setF Reg.IMP_STAT_ERR err |> setF Reg.IMP_STAT_ERRPT pt)

/-- The time a harness measurement still takes (R175): its remaining intervals, without what has passed of the present one. -/
def harnessLeft (h : HarnessRun) (s : State) : Nat := (192 - h.interval) * interval64 - (s.ft - s.xck.intervalAt)

/-- The time to the end of the present pass, plan wait, harness measurement or calibration run, where the spec fixes it (R191, R195). -/
def startBusy (s : State) : Done :=
  if getF Reg.IMP_STAT_STATE s = 2 ∧ s.imp.phase ≠ .idle then
    Done.busy (passEnd (getF Reg.IMP_STAT_POINT s) s.imp.ts s 32 - s.ft) s
  else if getF Reg.IMP_STAT_STATE s = 2 ∧ s.imp.passes ≠ 0 then
    Done.busy (passEnd s.imp.next (boundaryAfter s.imp.stepEnd) s 32 - s.ft) s
  else if planActive s then Done.busy (passEnd 0 s.imp.start s 32 - s.ft) s
  else match s.xck.harness with
    | some h => Done.busy (harnessLeft h s) s
    | none => Done.busyFree s

/-- An accepted plan becomes ARMED with its start time (R195, R196). -/
def armPlan (s : State) : State :=
  let start := if planT0 s = 0 then boundaryAfter (s.ft + ms) else planT0 s
  let s1 := s |> setF Reg.IMP_STAT_ERR 0 |> setF Reg.IMP_STAT_STATE 1
  { s1 with imp := { s1.imp with start := start, stepEnd := start, passes := 0, next := 0, partnerEpoch := none, missed := 0, own := [], awaited := [], tick := none,
                                 finalTick := false, waiting := none } }

/-- A write of 1 to `IMP_CMD.START` (R195). -/
def startPlan (s : State) : Done :=
  if bit Reg.FLT_FENCE0_IMP s then Done.refuse .refusedFenced s
  else if planActive s ∨ s.xck.harness.isSome ∨ getF Reg.CAL_STAT_PHASE s ≠ 0 then startBusy s
  else
    match entryError s with
    | some (e, p) => rejectStart e p s
    | none => if startError s ≠ 0 then rejectStart (startError s) 0 s else Done.ok (armPlan s)

/-! ## Early ends -/

/-- The end of an early end: the excitation has stopped, `IMP_EVT.ABORT` sets, and source 64 is raised for the causes of R211. -/
def finishAbort (code : Nat) (s : State) : State :=
  setEvt .imp 8 (if code = 0xA ∨ (4 ≤ code ∧ code ≤ 8) then pulse 64 s else s)

/-- Whether the converter switches, so that an excitation can fade (R198). -/
def converterSwitches (s : State) : Bool :=
  getF Reg.CNV_STAT_STATE s == 3 || getF Reg.CNV_STAT_STATE s == 4 || getF Reg.CNV_STAT_STATE s == 6

/-- The tones of the step that begins with entry p (R189). -/
def stepTones (p : Nat) (s : State) : List Tone :=
  (stepEntries p s).map (fun q => ⟨planFreq q s, planPhase q s + (if bit Reg.IMP_CFG_INV s then 32768 else 0), planAmp q s⟩)

/-- PLAN_ABORT (R198, R199): the cause is recorded, the state becomes ABORTED, no result of the step in progress is written, and the
envelope of a step in progress falls where the converter still carries it. It begins to fall within 1 ms: when is open. -/
def planAbort (code : Nat) (s : State) : State :=
  if planActive s then
    let excites := s.imp.phase != .idle && converterSwitches s
    let fade : Fade := ⟨code, s.ft + (freeWord s).toNat % (ms + 1), s.imp.ts, s.imp.we, stepTones (getF Reg.IMP_STAT_POINT s) s, s.imp.balHold⟩
    let s1 := (if excites then useFree s else s) |> setF Reg.IMP_STAT_ABRT code |> setF Reg.IMP_STAT_STATE 4
    let s2 := { s1 with imp := { s1.imp with ccm := false, balHold := false, waiting := none, finalTick := bit Reg.IMP_CFG_PAIR s
                                             phase := .idle, fades := if excites then s.imp.fades ++ [fade] else s.imp.fades } }
    if excites then s2 else finishAbort code s2
  else s

/-- Where the converter stops, the excitation ends with it (R198). -/
def excitationStops (s : State) : State :=
  if converterSwitches s then s
  else s.imp.fades.foldl (fun t f => finishAbort f.code t) { s with imp := { s.imp with fades := [] } }

/-- Whether the converter is held in continuous conduction (R192): until the plan's last step ends, also where that ends early. -/
def continuous (s : State) : Bool := s.imp.ccm || !s.imp.fades.isEmpty

/-- IMP_STOP (R198). -/
def execImpStop (s : State) : Out :=
  if coreUp s then (Done.ok (planAbort 1 s)).out else .next s

/-- EXCITATION_FADE_DONE (R198): the 20 ms of the oldest fall are over. -/
def execExcitationFadeDone (s : State) : Out :=
  match s.imp.fades with
  | [] => .next s
  | f :: rest => if s.ft < f.start + 20 * ms then .next s else .next (finishAbort f.code { s with imp := { s.imp with fades := rest } })

/-! ## The timeline -/

/-- PLAN_START (R196, R209, R210): at the start time the plan becomes RUNNING; a paired plan only when the tick of the boundary before the start reported
ARMED. -/
def execPlanStart (s : State) : Out :=
  if getF Reg.IMP_STAT_STATE s ≠ 1 ∨ s.ft < s.imp.start then .next s
  else if bit Reg.IMP_CFG_PAIR s ∧ s.imp.tick ≠ some (s.imp.start - interval64, 1) then .next (planAbort 7 s)
  else
    let s1 := setF Reg.IMP_STAT_STATE 2 s
    .next (enforceSwitches { s1 with imp := { s1.imp with next := 0, passes := 0, balHold := bit Reg.IMP_CFG_BALHOLD s } })

/-- STEP_START (R190, R191): a step starts on a 64 Sa/s boundary at or after the end of the step before; the first step of a pass begins the pass (R196).
The times that divide by f0 are rounded down to whole ns (DESIGN CHOICE notes/assumptions/87.md). -/
def execStepStart (s : State) : Out :=
  if getF Reg.IMP_STAT_STATE s = 2 ∧ s.imp.phase = .idle ∧ s.imp.stepEnd ≤ boundaryAt s.ft then
    let p := s.imp.next
    let ts := boundaryAt s.ft
    let f0 := planFreq p s
    let ws := ts + 20 * ms + planSettle p s * 1000000000000 / f0
    let we := ts + 20 * ms + (planSettle p s + planInteg p s) * 1000000000000 / f0
    let s1 := setF Reg.IMP_STAT_POINT p s
    let s2 := if p = 0 then setF Reg.IMP_STAT_RUN (getF Reg.IMP_STAT_RUN s + 1) s1 else s1
    .next { s2 with imp := { s2.imp with
      phase := .rising, last := stepLast p (planCount s) s 32, ts := ts, ws := ws, we := we, stepEnd := ts + stepLength p s
      passes := if p = 0 then s.imp.passes + 1 else s.imp.passes
      wOpen := 0#32, wFenced := 0#32, marks := [], wBal := 0#32, wXmis := 0#32, wClip := false, wMove := false } }
  else .next s

/-! ## The internal stream -/

/-- Half the filter window, six words, of the internal stream at the 640 Hz setting or at the 2.5 kHz setting, ns (R97). -/
def halfWindow (fast : Bool) : Nat := if fast then 366210 else 1464843

/-- Whether the step in progress has a tone above 250 Hz, so that its internal stream runs at the 2.5 kHz setting (R200). -/
def fastStep (s : State) : Bool := (stepEntries (getF Reg.IMP_STAT_POINT s) s).any (fun q => 250000 < planFreq q s)

/-- The represented instants that an event at fabric time t settles in an internal stream whose half filter window is d (R97, R102): the 12 words
after it, or after an overload the 12 words whose windows begin after it. -/
def settleSpan (overload : Bool) (t d : Nat) : Nat × Nat := if overload then (t + d, t + 3 * d) else (t - d, t + d)

/-- During a step, an event of a channel leaves its marks on the step's internal stream (R200, R204): an overload's OVR, and the settle count. -/
def markStream (overload : Bool) (p : Nat → Bool) (s : State) : State :=
  if s.imp.phase = .idle then s
  else
    let d := halfWindow (fastStep s)
    let (lo, hi) := settleSpan overload s.ft d
    let new := ((List.range 25).filter p).flatMap (fun c =>
      (if overload then [(⟨c, true, s.ft - d, s.ft + d⟩ : Mark)] else []) ++ [⟨c, false, lo, hi⟩])
    { s with imp := { s.imp with marks := s.imp.marks ++ new } }

/-- Whether a sample of a channel at one of the given instants carries OVR, or SETTLE. -/
def streamMarked (ovr : Bool) (c : Nat) (times : List Nat) (s : State) : Bool :=
  s.imp.marks.any (fun m => m.chan == c && m.ovr == ovr && times.any (fun t => decide (m.lo < t) && decide (t ≤ m.hi)))

/-- While the integration window is open, what stands now belongs to the window (R204). -/
def noteWindow (s : State) : State :=
  if s.imp.phase = .window then
    let i := s.imp
    { s with imp := { i with
      wOpen := i.wOpen ||| cellMask (fun n => openAt n s)
      wFenced := i.wFenced ||| cellMask (fun n => regBit Reg.CMS_FENCE n s)
      wBal := i.wBal ||| cellMask (fun n => flows (n - 1) s || flows n s || flows (n + 1) s)
      wXmis := i.wXmis ||| reg s Reg.XCK_XMIS } }
  else s

/-- WINDOW_OPEN (R190): the settle phase is over. -/
def execWindowOpen (s : State) : Out :=
  if s.imp.phase = .rising ∧ s.imp.ws ≤ s.ft then .next (noteWindow { s with imp := { s.imp with phase := .window } }) else .next s

/-- How many units of a phasor make 1 nV (R201). -/
def phasorScale : Nat := 65536

/-- A sum over the codes of a channel divided by `scale`, in 1/65536 nV (R109, R201): a cell's code is 1000/256 nV, the shunt's 1/16 nV. -/
def inPhasorUnits (c : Nat) (sum scale : Int) : Int :=
  if c = 0 then openDiv (sum * phasorScale) (16 * scale) else openDiv (sum * 1000 * phasorScale) (256 * scale)

/-- The phasors and the half-window means of tone j of the step over the samples of its window (R201): `xs` holds the calibrated codes. -/
def demodulate (f ph : Nat) (xs : List ImpSample) (s : State) : ImpTone :=
  let d := 1000000000000 * 65536
  let turn (t : Nat) : Nat := f * (t - s.imp.ts) * 65536 + ph * 1000000000000
  let refs := xs.map (fun x => (sine18 (turn x.t) d, sine18 (turn x.t + d / 4) d))
  let dot (c : Nat) (r : Int × Int → Int) : Int := ((xs.zip refs).map (fun e => nth e.1.codes c 0 * r e.2)).sum
  let n : Int := xs.length
  let mid := (s.imp.ws + s.imp.we) / 2
  let mean (c : Nat) (l : List ImpSample) : Int := inPhasorUnits c (l.map (fun x => nth x.codes c 0)).sum l.length
  ⟨(List.range 25).map (fun c => (inPhasorUnits c (2 * dot c (·.1)) (n * 2 ^ 17), inPhasorUnits c (2 * dot c (·.2)) (n * 2 ^ 17))),
   (List.range 25).map (fun c => (mean c (xs.filter (fun x => x.t < mid)), mean c (xs.filter (fun x => mid ≤ x.t))))⟩

/-- WINDOW_CLOSE (R190, R200, R201): the samples of the internal stream whose represented instants lie in the window, with the calibration
coefficients in use, are demodulated for every tone of the step. -/
def execWindowClose (samples : List ImpSample) (s : State) : Out :=
  if s.imp.phase = .window ∧ s.imp.we ≤ s.ft then
    let s1 := noteWindow s
    let xs := (samples.filter (fun x => s.imp.ws ≤ x.t ∧ x.t < s.imp.we)).map (fun x =>
      { x with codes := (List.range 25).map (fun c => calCorrect c (nth x.codes c 0) s) })
    let tones := (stepEntries (getF Reg.IMP_STAT_POINT s) s).map (fun q => demodulate (planFreq q s) (planPhase q s) xs s)
    .next { s1 with imp := { s1.imp with phase := .falling, waiting := some (tones, xs.map (·.t)) } }
  else .next s

/-- STEP_END (R190, R191, R196): the envelope reaches 0; the pass or the plan may end with the step. -/
def execStepEnd (s : State) : Out :=
  if s.imp.phase = .falling ∧ getF Reg.IMP_STAT_STATE s = 2 ∧ s.imp.stepEnd ≤ s.ft then
    let idle := { s with imp := { s.imp with phase := .idle } }
    if s.imp.last + 1 < planCount s then .next { idle with imp := { idle.imp with next := s.imp.last + 1 } }
    else
      let s1 := setEvt .imp 2 { idle with imp := { idle.imp with next := 0 } }
      let rep := getF Reg.IMP_CFG_REPEAT s
      if rep ≠ 0 ∧ rep ≤ s.imp.passes then
        let s2 := setEvt .imp 4 (setF Reg.IMP_STAT_STATE 3 s1)
        .next { s2 with imp := { s2.imp with ccm := false, balHold := false } }
      else .next s1
  else .next s

/-! ## Results -/

/-- A word of the result window set; a word at 0 is not listed. -/
def putResult (a : Nat) (w : Word) (l : List (Nat × Word)) : List (Nat × Word) :=
  if w = 0#32 then assocErase a l else assocPut a w l

/-- The status word of a slot (R204), for channel `ch`, 0 for slot 0; `times` are the instants of the window's samples. -/
def impStatus (ch : Nat) (times : List Nat) (lowsig drift track : Bool) (s : State) : Word :=
  let i := s.imp
  let cell := ch != 0
  let o := cell && i.wOpen.getLsbD ch
  let f := cell && i.wFenced.getLsbD ch
  let v := streamMarked true ch times s
  let e := streamMarked false ch times s
  BitVec.ofNat 32 (getF Reg.IMP_STAT_RUN s * 2 ^ 24 + b2n (!(o || f || v || e)) * 2 ^ 23 + b2n o * 2 ^ 22 + b2n f * 2 ^ 21 +
    b2n v * 2 ^ 20 + b2n e * 2 ^ 19 + b2n (cell && i.wBal.getLsbD ch) * 2 ^ 18 + b2n (cell && i.wXmis.getLsbD ch) * 2 ^ 17 +
    b2n i.wClip * 2 ^ 16 + b2n lowsig * 2 ^ 15 + b2n drift * 2 ^ 14 + b2n i.wMove * 2 ^ 13 + b2n track * 2 ^ 12)

/-- Whether a channel's mean moved between the window's halves by more than 25 % of its phasor (R204 DRIFT). -/
def impDrift (t : ImpTone) (ch : Nat) : Bool :=
  let (a, b) := nth t.halves ch (0, 0)
  let (r, q) := nth t.phasor ch (0, 0)
  r * r + q * q < 16 * (b - a) * (b - a)

/-- Whether slot 0 of entry p carries TRACK (R204): the current's magnitude or phase is off. -/
def impTrack (p : Nat) (t : ImpTone) (s : State) : Bool :=
  let (pr0, pi0) := nth t.phasor 0 (0, 0)
  let flip := bit Reg.IMP_CFG_IPOL s
  let pr := if flip then -pr0 else pr0
  let pi := if flip then -pi0 else pi0
  let r : Int := (reg s Reg.IMP_RSHUNT).toNat
  let want := (planAmp p s : Int) * 1000 * r * phasorScale
  let m := (pr * pr + pi * pi) * 1000000000000
  let x := if bit Reg.IMP_CFG_INV s then -pr else pr
  16 * m < 9 * want * want || 25 * want * want < 16 * m || !(0 < x && 3 * pi * pi ≤ pr * pr)

/-- Whether slot 0 of a tone carries LOWSIG (R204): a shunt amplitude below 20 µV. -/
def impLow (t : ImpTone) : Bool :=
  let (pr, pi) := nth t.phasor 0 (0, 0)
  pr * pr + pi * pi < (20000 * phasorScale) ^ 2

/-- The words of slot 0 of entry p (R203): the current phasor in µA. -/
def impCurrent (t : ImpTone) (times : List Nat) (track : Bool) (s : State) : List Word :=
  let (pr0, pi0) := nth t.phasor 0 (0, 0)
  let flip := bit Reg.IMP_CFG_IPOL s
  let r : Int := (reg s Reg.IMP_RSHUNT).toNat
  let q (x : Int) : Word := BitVec.ofInt 32 (openDiv ((if flip then -x else x) * 1000000) (r * phasorScale))
  [q pr0, q pi0, impStatus 0 times (impLow t) (impDrift t 0) track s,
   BitVec.ofNat 32 (min (openDiv (openSqrt (pr0 * pr0 + pi0 * pi0).toNat) phasorScale).toNat 0xFFFFFFFF)]

/-- The words of the slot of cell n of entry p (R201, R203): the impedance in nΩ. -/
def impCell (p n : Nat) (t : ImpTone) (times : List Nat) (track : Bool) (s : State) : List Word :=
  let (pr0, pi0) := nth t.phasor 0 (0, 0)
  let (vr, vi) := nth t.phasor n (0, 0)
  let flip := bit Reg.IMP_CFG_IPOL s
  let pr := if flip then -pr0 else pr0
  let pi := if flip then -pi0 else pi0
  let r : Int := (reg s Reg.IMP_RSHUNT).toNat
  let d := pr * pr + pi * pi
  let amp2 := vr * vr + vi * vi
  let f := stepFirst p s
  let low := impLow t || amp2 * (planInteg f s * 1000 : Nat) < 250000000000 * phasorScale ^ 2 * (planFreq f s : Nat)
  [BitVec.ofInt 32 (openDiv ((vr * pr + vi * pi) * r) d),
   BitVec.ofInt 32 (openDiv ((vi * pr - vr * pi) * r) d),
   impStatus n times low (impDrift t n) track s,
   BitVec.ofNat 32 (min (openDiv (openSqrt amp2.toNat) (1000 * phasorScale)).toNat 0xFFFFFFFF)]

/-- The four words of a slot enter the result window (R202). -/
def putSlot (p slot : Nat) (ws : List Word) (l : List (Nat × Word)) : List (Nat × Word) :=
  (List.range 4).foldl (fun m k => putResult (0x30000 + 512 * p + 16 * slot + 4 * k) (nth ws k 0#32) m) l

/-- The slots of entry p (R202, R203). -/
def putEntry (p : Nat) (t : ImpTone) (times : List Nat) (s : State) (l : List (Nat × Word)) : List (Nat × Word) :=
  let track := impTrack p t s
  let l1 := putSlot p 0 (impCurrent t times track s) l
  let l2 := (List.range 24).foldl (fun m k => putSlot p (k + 1) (impCell p (k + 1) t times track s) m) l1
  putSlot p 25 [BitVec.ofNat 32 (planFreq p s), BitVec.ofNat 32 s.imp.ws, BitVec.ofNat 32 (s.imp.ws / 2 ^ 32), BitVec.ofNat 32 times.length] l2

/-- RESULTS_WRITTEN (R205, R211): the slots of every entry of the step are written, `IMP_EVT.STEP` sets, and each tone whose slot 0 carries TRACK
raises source 65 once (DESIGN CHOICE notes/assumptions/71.md). -/
def execResultsWritten (s : State) : Out :=
  match s.imp.waiting with
  | none => .next s
  | some (tones, times) =>
    let es := (stepEntries (getF Reg.IMP_STAT_POINT s) s).zip tones
    let res := es.foldl (fun m e => putEntry e.1 e.2 times s m) s.imp.results
    let s1 := { s with imp := { s.imp with waiting := none, results := res } }
    .next (setEvt .imp 1 (es.foldl (fun t e => if impTrack e.1 e.2 s then pulse 65 t else t) s1))

/-! ## Counter-phase pairing -/

/-- The word of a pair tick without TSF: RUN, POINT and STATE in bits [31:16] (R355). -/
def tickHead (s : State) : Nat :=
  getF Reg.IMP_STAT_RUN s * 256 + getF Reg.IMP_STAT_POINT s * 8 + getF Reg.IMP_STAT_STATE s

/-- PAIR_TICK_SEND (R207, R355): at a 64 Sa/s boundary, a paired node whose plan is ARMED or RUNNING, or has just ended, sends its tick by
`IMP_PROUTE`, or by `IMP_AROUTE` while the first hop of that route is down. -/
def sendPairTick (s : State) : State :=
  if bit Reg.IMP_CFG_PAIR s ∧ (planActive s ∨ s.imp.finalTick) then
    let b := boundaryAt s.ft
    let word := BitVec.ofNat 32 (tickHead s * 2 ^ 16 + b / 2 ^ 16 % 2 ^ 16)
    let alt := !portUp (routePort (reg s Reg.IMP_PROUTE)) s
    let route := if alt then reg s Reg.IMP_AROUTE else reg s Reg.IMP_PROUTE
    let hop := if alt then getF Reg.IMP_PAIRCFG_AHOP s else getF Reg.IMP_PAIRCFG_PHOP s
    let s1 := { s with imp := { s.imp with own := ((b, tickHead s) :: s.imp.own).take 4, awaited := s.imp.awaited ++ [b], finalTick := false } }
    sendRouted ⟨.pairtick, .a, .routeWord, route, hop, ownSrc s, getF Reg.IMP_PAIRCFG_PARTNER s, ownEpoch s, 0, [word]⟩
      (setB Reg.IMP_PAIRSTAT_TICKOK false s1)
  else s

/-- PAIR_TICK_RECEIVE (R208, R209, R355): a tick of the partner is recorded; while a plan is ARMED or RUNNING, a partner in ABORTED, a state
that differs from this node's own at the boundary, or a changed epoch aborts the plan with PARTNER. A tick that was counted missing before it came
ends no row of missing ticks. -/
def execPairTickReceive (src epoch : Nat) (w : Word) (s : State) : Out :=
  if coreUp s && bit Reg.IMP_CFG_PAIR s && src == getF Reg.IMP_PAIRCFG_PARTNER s then
    let head := w.toNat / 2 ^ 16
    let s1 := s |> setF Reg.IMP_PAIRSTAT_PRUN (head / 256) |> setF Reg.IMP_PAIRSTAT_PPOINT (head / 8) |> setF Reg.IMP_PAIRSTAT_PSTATE head
    match s.imp.own.find? (fun e => e.1 / 2 ^ 16 % 2 ^ 16 == w.toNat % 2 ^ 16) with
    | none => .next s1
    | some (b, mine) =>
      let changed := match s.imp.partnerEpoch with
        | some e => e != epoch
        | none => false
      let latest := s.imp.own.head?.map (·.1) == some b
      let row := if s.imp.awaited.contains b then 0 else s.imp.missed
      let s2 := { s1 with imp := { s1.imp with
        partnerEpoch := some epoch, tick := some (b, head % 8), missed := row, awaited := s.imp.awaited.filter (· != b) } }
      let s3 := if latest then setB Reg.IMP_PAIRSTAT_TICKOK true s2 else s2
      .next (if planActive s && (changed || head % 8 == 4 || head != mine) then planAbort 5 s3 else s3)
  else .next s

/-- PAIR_TICK_MISSING (R208): the oldest tick awaited has not arrived 15.625 ms after its boundary; three in a row abort the plan with PARTNERLOST. -/
def execPairTickMissing (s : State) : Out :=
  match s.imp.awaited with
  | b :: rest =>
    if planActive s ∧ bit Reg.IMP_CFG_PAIR s ∧ b + interval64 ≤ s.ft then
      let s1 := s |> incSat Reg.IMP_PAIRSTAT_MISSED |> setB Reg.IMP_PAIRSTAT_TICKOK false
      let s2 := { s1 with imp := { s1.imp with missed := s.imp.missed + 1, awaited := rest } }
      .next (if 3 ≤ s.imp.missed + 1 then planAbort 6 s2 else s2)
    else .next s
  | [] => .next s

/-- IMP_ENGINE_FAULT (R211): the phase generators disagree or the plan fails parity (source 66), or the result window fails parity
(source 67). -/
def execImpEngineFault (results : Bool) (s : State) : Out :=
  if coreUp s then .next (pulse (if results then 67 else 66) s) else .next s

/-! ## Excitation -/

/-- The envelope of a step at fabric time t (R190), times 20 ms: it rises from the step start ts and falls from the window end we. -/
def envelope (ts we t : Nat) : Nat := min (20 * ms) (t - ts) - (t - we)

/-- The envelope of a step that ended early (R198), times the square of 20 ms: from the start of its fall on, it falls from what it then is to 0
over 20 ms. -/
def fadeEnvelope (f : Fade) (t : Nat) : Nat :=
  if t ≤ f.start then 20 * ms * envelope f.ts f.we t else envelope f.ts f.we f.start * (20 * ms - (t - f.start))

/-- The sum of tones at fabric time t of a step that started at ts (R189), in mA times 2^64. -/
def toneSum (tones : List Tone) (ts t : Nat) : Int :=
  (tones.map (fun x => (x.amp : Int) * sine64 (x.freq * (t - ts) * 65536 + x.phase * 1000000000000) (1000000000000 * 65536))).sum

/-- The excitation current at fabric time t (R189, R190, R198), in mA times 2^64. -/
def excitation (t : Nat) (s : State) : Int :=
  let now : Int := if s.imp.phase = .idle then 0
    else (20 * ms * envelope s.imp.ts s.imp.we t : Nat) * toneSum (stepTones (getF Reg.IMP_STAT_POINT s) s) s.imp.ts t
  let fading : Int := (s.imp.fades.map (fun f => (fadeEnvelope f t : Int) * toneSum f.tones f.ts t)).sum
  (now + fading) / ((20 * ms) * (20 * ms) : Nat)

end Sys2Proof.Machine
end

