-- ==== Sys2Proof/Machine/Cms.lean ====
section
/-!
DEFINITION. Sys2Proof/Machine/Cms.lean: the primary paths, their records and history (spec/04_cell_measurement.md, R91-R141; R20, R160, R167,
R170, R171, R530).
-/
namespace Sys2Proof.Machine

/-! ## Filter settings -/

/-- The group delay of a filter setting in ns (R97), with the notch's delay while a notch is in force (R98). -/
def groupDelay (rate notch : Nat) : Nat :=
  (match rate with
    | 0 => 93750000
    | 1 => 11718750
    | 2 => 1464843
    | _ => 366210) + (if notch = 0 then 0 else 312500)

/-- The fabric time of the latest word boundary of a setting (R100), in whole ns. -/
def wordBoundaryAt (rate t : Nat) : Nat :=
  ((t + 1) * wordsPerInterval rate - 1) / interval64 * interval64 / wordsPerInterval rate

/-- `CMS_STAT` reports the settle counts (R133). -/
def reportSettle (s : State) : State :=
  let m := s.cms.settle.foldl max 0
  s |> setF Reg.CMS_STAT_SETLEFT (min m 255) |> setB Reg.CMS_STAT_SETTLING (m != 0)

/-- A settle count of the words starts on the channels that satisfy a condition; it never shortens (R102, R104). -/
def startCount (p : Nat → Bool) (s : State) : State :=
  let n := settleNow s
  reportSettle { s with cms := { s.cms with settle := s.cms.settle.zipIdx.map (fun e => if p e.2 then max e.1 n else e.1) } }

/-- The internal streams of the channels that satisfy a condition settle from now on (R102, R155, R204): spans that no interval mean can reach any more
are forgotten. -/
def settleStreams (overload : Bool) (p : Nat → Bool) (s : State) : State :=
  let fresh (l : List (Nat × Nat)) : List (Nat × Nat) := l.filter (fun x => s.ft < x.2 + 3 * interval64)
  markStream overload p { s with cms := { s.cms with
  settleAt := s.cms.settleAt.zipIdx.map (fun e => if p e.2 then fresh e.1 ++ [settleSpan overload s.ft (halfWindow false)] else e.1) } }

/-- A settle count starts on the channels that satisfy a condition, in the words and in the internal streams (R102). -/
def startSettle (p : Nat → Bool) (s : State) : State := settleStreams false p (startCount p s)

/-- A settle count starts on every channel. -/
def startSettleAll (s : State) : State := startSettle (fun _ => true) s

/-- Whether a calibration run is in progress (R534). -/
def calRunning (s : State) : Bool := getF Reg.CAL_STAT_PHASE s != 0

/-- The words so far keep their instants when the setting or fabric time changes after them (R100, R105, R412): what is noted of words that have left
history goes. -/
def closeSpan (s : State) : State :=
  let h := (reg s Reg.CMS_HWIDX).toNat
  { s with cms := { s.cms with
    spans := s.cms.spans.filter (fun e => decide ((h + 2 ^ 32 - e.1) % 2 ^ 32 < 8192)) ++ [(h, s.cms.lastInstant, rateNow s, notchNow s)] } }

/-- The RATE and NOTCH of `CMS_CFG` come into force (R99, R105); they do not reach the internal streams (R155, R200). -/
def applyFilter (s : State) : State :=
  let rate := getF Reg.CMS_CFG_RATE s
  let notch := if rate < 2 then getF Reg.CMS_CFG_NOTCH s else 0
  if rate = rateNow s ∧ notch = notchNow s then s
  else startCount (fun _ => true) (closeSpan s |> setF Reg.CMS_STAT_RATEACT rate |> setF Reg.CMS_STAT_NOTCHACT notch)

/-- FILTER_SETTING_APPLY (R102, R104, R105, R130): at a 64 Sa/s boundary; what a calibration run held is written first, once it has ended. While
the paths stand still only that write happens: they start at the settings that they find. -/
def execFilterSettingApply (s : State) : Out :=
  if coreUp s && !calRunning s then
    let s1 := match s.cms.calCfg with
      | some w => { (setReg Reg.CMS_CFG w s) with cms := { s.cms with calCfg := none } }
      | none => s
    .next (if s.cms.running then applyFilter s1 else s1)
  else .next s

/-- A write of `CMS_CFG` (R105, R106, R130): ALIGN and OFFBIN act at once; RATE and NOTCH wait. NOTCH 0b11 is a host error (R129). -/
def writeCmsCfg (w : Word) (s : State) : Done :=
  let v := w &&& 0x333#32
  if calRunning s then Done.ok { s with cms := { s.cms with calCfg := some v } }
  else Done.ok { (setReg Reg.CMS_CFG v s) with cms := { s.cms with calCfg := none } }

/-- CMS_CFG_WRITE (R105, R106, R129, R130): a reserved NOTCH is a host error (R6). -/
def execCmsCfgWrite (w : Word) (s : State) : Out :=
  if coreUp s = false then .next s
  else if w &&& 0xFFFFFCCC#32 ≠ 0#32 then .fault (.reservedWrite Reg.CMS_CFG)
  else if getBits w 8 2 = 3 then .next (upset s)
  else (writeCmsCfg w s).out

/-- A fabric stream of this node is open (R129, R411). -/
def streamOpen (s : State) : Bool := s.fab.sessions.any (fun e => e.2.state == 1)

/-- A write of `CMS_CHEN` (R118, R130). -/
def writeCmsChen (w : Word) (s : State) : Done :=
  if calRunning s then Done.ok { s with cms := { s.cms with calChen := some w } }
  else Done.ok { (setReg Reg.CMS_CHEN w s) with cms := { s.cms with calChen := none, layoutHeld := true } }

/-- CMS_CHEN_WRITE (R118, R129, R130): with a stream open it is a host error (R6). -/
def execCmsChenWrite (w : Word) (s : State) : Out :=
  if coreUp s = false then .next s
  else if w &&& 0xFE000000#32 ≠ 0#32 then .fault (.reservedWrite Reg.CMS_CHEN)
  else if streamOpen s then .next (upset s)
  else (writeCmsChen w s).out

/-- The slots that the banks in service give history (R116, R500): first slot and number. -/
def historyBanks (s : State) : Nat × Nat :=
  match getF Reg.FLT_FENCE0_HBANK s with
  | 0 => (0, 8192)
  | 1 => (4096, 4096)
  | 2 => (0, 4096)
  | _ => (0, 0)

/-- The channels enabled for history, and the depth of each (R116). -/
def historyChannels (s : State) : Nat := popCount s.cms.chen
def historyDepth (s : State) : Nat := s.cms.histSize / historyChannels s

/-- The steps of a layout change (R118): history is discarded, `CMS_HSTART` set, and the slots laid out anew. With one channel enabled the depth 8192
does not fit the 13 bits of DEPTH, which then reads 0 (DESIGN CHOICE notes/assumptions/70.md). -/
def layoutHistory (s : State) : State :=
  let (b, n) := historyBanks s
  let s1 := { s with cms := { s.cms with hist := [], chen := reg s Reg.CMS_CHEN, histBase := b, histSize := n, layoutHeld := false } }
  s1 |> setReg Reg.CMS_HSTART (reg s Reg.CMS_HWIDX) |> setF Reg.CMS_HDEPTH_NCH (historyChannels s1)
   |> setF Reg.CMS_HDEPTH_DEPTH (historyDepth s1)

/-- HISTORY_LAYOUT_CHANGE (R118, R130, R500): at a 64 Sa/s boundary, where a write or a fence has asked for one. What a calibration run holds waits for
its end. -/
def execHistoryLayoutChange (s : State) : Out :=
  if coreUp s then
    let s1 := match if calRunning s then none else s.cms.calChen with
      | some w => { (setReg Reg.CMS_CHEN w s) with cms := { s.cms with calChen := none, layoutHeld := true } }
      | none => s
    .next (if s1.cms.layoutHeld then layoutHistory s1 else s1)
  else .next s

/-- CHOP_RATE_CHANGE (R95, R96): the chopping rate follows the temperature band. -/
def execChopRateChange (s : State) : Out :=
  if s.cms.running then .next (setF Reg.CMS_STAT_CHOP (getF Reg.THM_STAT_BAND s) s) else .next s

/-! ## Records -/

/-- A left-aligned code with saturation to full scale (R110). -/
def saturate (x : Int) : Int := clampI x (-2147483648) 2147483647

/-- The wire resistance Rh(k) in 0.1 mΩ and the bleed path resistance in 10 mΩ (R184, R186). -/
def wireRes (k : Nat) (s : State) : Int := getBits (reg s (Reg.XCK_HRES k)) 0 16
def bleedRes (s : State) : Int := getF Reg.XCK_RBAL_RBAL s

/-- The error that bleeding puts on cell n (R171), in the unit of the cell voltages times `scale`: `f k` is the weighted fraction of the
window in which switch k conducted, in 1/65536. -/
def balError (n : Nat) (f : Nat → Int) (scale : Int) (s : State) : Int :=
  let v (k : Nat) : Int := nth s.xck.uncorrected (k - 1) 0
  let lower := if 1 < n then f (n - 1) * v (n - 1) * wireRes (n - 1) s else 0
  let upper := if n < 24 then f (n + 1) * v (n + 1) * wireRes n s else 0
  (lower + upper - f n * v n * (wireRes (n - 1) s + wireRes n s)) * scale / (65536 * 100 * bleedRes s)

/-- A fraction that the filter's weights decide and the spec does not give: a free value between 0 and 1, in 1/65536. -/
def openFraction (k free : Nat) : Int := (Config.freeValue (free + k)).toNat % 65537

/-- Through how many halves of the present interval path k has conducted, the half in progress among them; none where it conducted through a part of
one (R236). -/
def halvesNow (k : Nat) (s : State) : Option Nat :=
  let b := nth s.xck.balInt (k - 1) ⟨0, false, false⟩
  let was := s.xck.halfOn.getLsbD k
  if b.part || (s.xck.halfAt.isSome && was != flows k s) then none
  else some (b.full + b2n (s.xck.halfAt.any (· != s.ft) && was))

/-- The weighted fraction of a record's filter window in which switch k conducted (R171, R236), in 1/65536: 0 where it did not, 1 where it conducted
throughout, a half where it conducted in one half of every interval of a window of whole intervals; else it is open. -/
def recordFraction (k : Nat) (s : State) : Int :=
  let (h, n) := nth s.xck.balRun (k - 1) (0, 0)
  let begun := (s.ft - s.xck.intervalAt + 7812499) / 7812500
  let covered := decide (windowTime s ≤ n * interval64)
  if !(inWindow (nth s.cms.balSeen (k - 1) none) s || flows k s) then 0
  else if covered && h == 2 && halvesNow k s == some begun then 65536
  else if covered && h == 1 && rateNow s == 0 && (begun == 0 || halvesNow k s == some 1) then 32768
  else openFraction k s.free

/-- Whether compensation is selected (R171). -/
def compensates (s : State) : Bool := getF Reg.XCK_BALCFG_MODE s == 1

/-- The fault source of a primary channel (R122). -/
def channelSource (c : Nat) : Nat := if c = 0 then 63 else 15 + c

/-- Whether bleed path n − 1, n or n + 1 conducted in the filter window of a record that is output now (R170). -/
def balFlag (n : Nat) (s : State) : Bool :=
  [n - 1, n, n + 1].any (fun k => 1 ≤ k && k ≤ 24 && (inWindow (nth s.cms.balSeen (k - 1) none) s || flows k s))

/-- Whether the cell inputs are measured by the secondary side at present. -/
def cellsServed (s : State) : Bool := getF Reg.XCK_STAT_MODE s != 3 && !unusedCells s

/-- A secondary cell measurement has a result (R146, R149, R159). -/
def cellMeasured (n : Nat) (s : State) : Bool := cellsServed s && !regBit Reg.FLT_FENCE1 n s

/-- The fabric time a is at or after the fabric time b, which wraps at 2^64. -/
def atOrAfter (a b : Nat) : Bool := (a + 2 ^ 64 - b) % 2 ^ 64 < 2 ^ 63

/-- What a record of a fenced path shows (R160): the cell's latest fallback result; before the first one the last interval result (DESIGN CHOICE
notes/assumptions/72.md). None, where it holds no measurement or no converter serves the cell. -/
def fencedResult (n : Nat) (s : State) : Option Word :=
  let w := (nth s.xck.fall (n - 1) none).getD (nth s.xck.second (n - 1) 0#32)
  if w.getLsbD 31 && cellMeasured n s then some w else none

/-- Whether the instant of a record lies in a calibration run (R107). -/
def inCalRun (inst : Nat) (s : State) : Bool := s.cal.span.any (fun e => atOrAfter inst e.1 && e.2.all (fun b => !atOrAfter inst b))

/-- The record of channel c (R107, R109-R111, R123, R124, R157, R160, R165, R167, R170, R171): `x` is its filter output after vendor trim,
as an exact left-aligned code, and `inst` the represented instant. The value word of a fenced channel 0 is the code 0, which an offset binary format
presents as its middle (DESIGN CHOICE notes/assumptions/83.md). -/
def makeRecord (c : Nat) (x : Int) (inst : Nat) (s : State) : Record :=
  let cell := c != 0
  let fenced := regBit Reg.CMS_FENCE c s
  let w := if fenced && cell then fencedResult c s else none
  let own : Int :=
    if x < -2147483648 ∨ 2147483647 < x then saturate x
    else
      let y := calCorrect c x s
      saturate (if cell && compensates s then y - balError c (fun k => recordFraction k s) 256 s else y)
  let value : Word :=
    if fenced then (match w with | some v => v <<< (8 : Nat) | none => 0#32) else BitVec.ofInt 32 own
  let settle := bit Reg.CMS_STAT_TBLOCK s == false || 0 < nth s.cms.settle c 0 ||
    (if fenced then cell && w.all (·.getLsbD 30) else rateNow s != 0 && inWindow (nth s.cms.pulsed c none) s)
  ⟨value, BitVec.ofNat 32 (
  (reg s Reg.CMS_HWIDX).toNat % 256 * 2 ^ 24 + b2n (inWindow (nth s.cms.overload c none) s) * 2 ^ 22 + b2n settle * 2 ^ 21 +
  b2n (cell && balFlag c s) * 2 ^ 20 + b2n (cell && regBit Reg.XCK_XMIS c s) * 2 ^ 19 + b2n (cell && openAt c s) * 2 ^ 18 +
  b2n (inCalRun inst s) * 2 ^ 17 + b2n fenced * 2 ^ 16 + inst / 2 ^ 16 % 2 ^ 16)⟩

/-- Both history banks are fenced: no history is written, and none is sent (R500). -/
def historyOut (s : State) : Bool := getF Reg.FLT_FENCE0_HBANK s == 3

/-- A record enters the history slot of its channel (R116, R500). -/
def writeHistory (c : Nat) (r : Record) (s : State) : State :=
  let d := historyDepth s
  if s.cms.chen.getLsbD c ∧ d ≠ 0 ∧ historyOut s = false then
    let rank := ((List.range c).filter (fun k => s.cms.chen.getLsbD k)).length
    let slot := s.cms.histBase + rank * d + (reg s Reg.CMS_HWIDX).toNat % d
    { s with cms := { s.cms with hist := assocPut slot r s.cms.hist } }
  else s

/-- A record enters `CMS_LAST`. -/
def writeLast (c : Nat) (r : Record) (s : State) : State :=
  s |> setReg (Reg.CMS_LAST (2 * c)) r.value |> setReg (Reg.CMS_LAST (2 * c + 1)) r.tag

/-- A channel's overload marks records: its source is active, and its end is to come (R111, R122). -/
def markOverload (c : Nat) (s : State) : State :=
  setLine (channelSource c) true { s with cms := { s.cms with overMark := setNth s.cms.overMark c true } }

/-- What a record with OVR does beside being stored: it counts and is one event of its channel's source (R111, R122). -/
def countOverload (c : Nat) (s : State) : State :=
  if inWindow (nth s.cms.overload c none) s then pulse (channelSource c) (incSat Reg.CMS_OVRCNT_OVR (markOverload c s)) else s

/-- The first record whose window begins after an overload starts the channel's settle count, and the source is active no longer (R102, R111). -/
def endOverload (c : Nat) (s : State) : State :=
  if nth s.cms.overMark c false && !inWindow (nth s.cms.overload c none) s then
    startCount (· == c) (drop (channelSource c) { s with cms := { s.cms with overMark := setNth s.cms.overMark c false } })
  else s

/-- The test for unused cell inputs (R20), on the records of one word boundary. -/
def testUnused (rs : List Record) (vmodLow : Bool) (s : State) : State :=
  if s.cms.unused.isSome then s
  else
    let l := s.cms.firstLow.zipIdx.map (fun e =>
      match e.1 with
      | some b => some b
      | none =>
        let r := nth rs (e.2 + 1) ⟨0#32, 0#32⟩
        if r.tag.getLsbD 21 then none else some (decide (r.value.toInt < 25600000)))
    let s1 := { s with cms := { s.cms with firstLow := l } }
    if l.all (fun x => x.isSome) then
      let u := vmodLow && l.all (fun x => x == some true)
      let s2 := enforceSwitches { s1 with cms := { s1.cms with unused := some u } }
      if u then dropComparators s2 else waitingTrips s2
    else s1

/-- The first records at or after the timestamp of a pending rein are kept for `CMS_SNAP` (R121). -/
def catchSnapshot (rs : List Record) (s : State) : State :=
  if bit Reg.CMS_SNAPSTAT_PEND s && s.cms.snapNext.isNone && atOrAfter s.cms.lastInstant s.cms.snapT then
    { s with cms := { s.cms with snapNext := some rs } }
  else s

/-- The effect of a word boundary on the measurement (R100, R101, R107, R115-R117, R121, R141): every channel's record is formed from its filter output `outs`, written to history and
`CMS_LAST`, and the word index advances. `vmodLow`: VMOD lies below 2 V (R20). -/
def wordBoundary (outs : List Int) (vmodLow : Bool) (s : State) : State :=
  let s0 := (List.range 25).foldl (fun t c => endOverload c t) (noteBleed s)
  let inst := (wordBoundaryAt (rateNow s) s.ft + 2 ^ 64 - groupDelay (rateNow s) (notchNow s)) % 2 ^ 64
  let rs := (List.range 25).map (fun c => makeRecord c (nth outs c 0) inst s0)
  let s1 := rs.zipIdx.foldl (fun t e => writeLast e.2 e.1 (writeHistory e.2 e.1 t)) s0
  let s2 := (List.range 25).foldl (fun t c => countOverload c t) s1
  let s3 : State := { s2 with
    free := if compensates s then s2.free + 32 else s2.free
    cms := { s2.cms with lastInstant := inst, settle := s2.cms.settle.map (· - 1) }
    hst := { s2.hst with g1new := [true, true] } }
  noteWindow (testUnused rs vmodLow (catchSnapshot rs (reportSettle (incWrap Reg.CMS_HWIDX s3))))

/-! ## Snapshot -/

/-- `TBS_RSTAT.BUSY` clears once every block has latched (R480). -/
def clearBusy (s : State) : State :=
  if s.tbs.latch.isNone && !bit Reg.CMS_SNAPSTAT_PEND s then setB Reg.TBS_RSTAT_BUSY false s else s

/-- CMS_SNAPSHOT_LATCH (R121): the first records at or after the rein's time, of all channels at one instant, are latched. -/
def execCmsSnapshotLatch (s : State) : Out :=
  match s.cms.snapNext with
  | none => .next s
  | some rs =>
    let s1 := rs.zipIdx.foldl (fun t e => setReg (Reg.CMS_SNAP (2 * e.2 + 1)) e.1.tag (setReg (Reg.CMS_SNAP (2 * e.2)) e.1.value t))
      { s with cms := { s.cms with snapNext := none } }
    .next (clearBusy (s1 |> setB Reg.CMS_SNAPSTAT_PEND false |> setB Reg.CMS_SNAPSTAT_DONE true))

/-- The paths stop: channels still to latch keep what they hold, and the block counts as latched (R121), unless the records have been kept;
no overload goes on. -/
def stopPaths (s : State) : State :=
  let s1 := (List.range 25).foldl (fun t c => if nth t.cms.overMark c false then drop (channelSource c) t else t) s
  let s2 := { s1 with cms := { s1.cms with running := false, overload := List.replicate 25 none, overMark := List.replicate 25 false } }
  clearBusy (if s.cms.snapNext.isSome then s2 else setB Reg.CMS_SNAPSTAT_PEND false s2)

/-- The modulators start on entry to ACTIVE, at the settings they find (R102, R105). R70 has them start when TPLL first locks, R74 and R102 on entry to
ACTIVE: the model follows the latter (DESIGN CHOICE notes/assumptions/73.md). A `CMS_CHEN` that the profile has changed is laid out now; a write that
waits for its 64 Sa/s boundary goes on waiting (R118). -/
def startPaths (s : State) : State :=
  let s1 := closeSpan s |> setF Reg.CMS_STAT_RATEACT (getF Reg.CMS_CFG_RATE s)
              |> setF Reg.CMS_STAT_NOTCHACT (if getF Reg.CMS_CFG_RATE s < 2 then getF Reg.CMS_CFG_NOTCH s else 0)
  let s2 := { s1 with cms := { s1.cms with
    running := true, startT := s.ft, overload := List.replicate 25 none, overMark := List.replicate 25 false, pulsed := List.replicate 25 none, balSeen := List.replicate 24 none } }
  startSettleAll (if reg s2 Reg.CMS_CHEN = s2.cms.chen ∨ s2.cms.layoutHeld then s2 else layoutHistory s2)

/-! ## Faults of a path -/

/-- A modulator overloads or its bit stream sticks (R111, R122): every record whose window holds the event carries OVR. -/
def overloadChannel (c : Nat) (s : State) : State :=
  settleStreams true (· == c) (markOverload c { s with cms := { s.cms with overload := setNth s.cms.overload c (some s.now) } })

/-- MODULATOR_OVERLOAD (R111). -/
def execModulatorOverload (c : Nat) (s : State) : Out :=
  if s.cms.running && c ≤ 24 then .next (overloadChannel c s) else .next s

/-- MODULATOR_STUCK (R122): no transition for 1024 modulator clocks counts as an overload. -/
def execModulatorStuck (c : Nat) (s : State) : Out :=
  if s.cms.running && c ≤ 24 then .next (overloadChannel c s) else .next s

/-- FILTER_PARITY_FAIL (R122). -/
def execFilterParityFail (c : Nat) (s : State) : Out :=
  if s.cms.running && c ≤ 24 then .next (pulse (channelSource c) s) else .next s

/-! ## Reading records -/

/-- The value word in the format that `CMS_CFG` selects (R109). -/
def present (v : Word) (s : State) : Word :=
  if bit Reg.CMS_CFG_ALIGN s then
    if bit Reg.CMS_CFG_OFFBIN s then v ^^^ 0x80000000#32 else v
  else
    let r := v.sshiftRight 8
    if bit Reg.CMS_CFG_OFFBIN s then (r ^^^ 0x00800000#32) &&& 0x00FFFFFF#32 else r

/-- Whether an 8-byte-aligned address is a record's. -/
def isRecordAddr (a : Nat) : Bool :=
  a % 8 == 0 && ((0x10000 ≤ a && a ≤ 0x1FFFF) || (0x1100 ≤ a && a < 0x11C8) || (0x1200 ≤ a && a < 0x12C8))

/-- The record at a record address, its value as presented: history, `CMS_LAST` or `CMS_SNAP`. An empty history slot reads 0, and with both
banks fenced every slot does (R117, R500). -/
def recordAt (a : Nat) (s : State) : Word × Word :=
  if 0x10000 ≤ a then
    match if getF Reg.FLT_FENCE0_HBANK s = 3 then none else assoc ((a - 0x10000) / 8) s.cms.hist with
    | some r => (present r.value s, r.tag)
    | none => (0#32, 0#32)
  else (present (reg s a) s, reg s (a + 4))

/-- A requester's tag shadow takes a record's tag (R112, R113). -/
def putShadow (req : Requester) (a : Nat) (tag : Word) (s : State) : State :=
  match req with
  | .hk => { s with cms := { s.cms with hkShadow := some (a, tag) } }
  | _ => { s with cms := { s.cms with shadows := ((req, a, tag) :: s.cms.shadows.filter (fun e => e.1 != req)).take 4 } }

/-- A requester's tag shadow. -/
def getShadow (req : Requester) (s : State) : Option (Nat × Word) :=
  match req with
  | .hk => s.cms.hkShadow
  | _ => (s.cms.shadows.find? (fun e => e.1 == req)).map (fun e => e.2)

/-- A read of the value word of the record at `a` (R112): its word, and the shadow taken. -/
def readValue (req : Requester) (a : Nat) (s : State) : Word × State := ((recordAt a s).1, putShadow req a (recordAt a s).2 s)

/-- A 4-byte read of the tag word of the record at `a` (R112, R113): the requester's shadow of that address, which is then its most
recently used one, or the live tag. -/
def readTag (req : Requester) (a : Nat) (s : State) : Word × State :=
  match getShadow req s with
  | some (b, tag) => if b = a then (tag, putShadow req a tag s) else ((recordAt a s).2, s)
  | none => ((recordAt a s).2, s)

/-- RECORD_VALUE_READ (R109, R112, R113). -/
def execRecordValueRead (req : Requester) (a : Nat) (s : State) : Out :=
  if coreUp s && isRecordAddr a then (Done.read [(readValue req a s).1] (readValue req a s).2).out else .next s

/-- RECORD_TAG_READ (R112, R113). -/
def execRecordTagRead (req : Requester) (a : Nat) (s : State) : Out :=
  if coreUp s && isRecordAddr a then (Done.read [(readTag req a s).1] (readTag req a s).2).out else .next s

/-- The fabric time of the represented instant of the latest complete word; 0 before the first (R139). -/
def latestInstant (s : State) : Nat := s.cms.lastInstant

/-- A requester's copy of that time (R134). -/
def timeShadow (req : Requester) (s : State) : Option Nat :=
  match req with
  | .hk => s.cms.hkTime
  | _ => (s.cms.times.find? (fun e => e.1 == req)).map (fun e => e.2)

/-- A requester's copy of that time, or the live one (R139). -/
def htime (req : Requester) (s : State) : Nat := (timeShadow req s).getD (latestInstant s)

/-- A requester's copy takes a time; a fifth remote requester takes over the copy used least recently (R113, R134). -/
def putTime (req : Requester) (t : Nat) (s : State) : State :=
  match req with
  | .hk => { s with cms := { s.cms with hkTime := some t } }
  | _ => { s with cms := { s.cms with times := ((req, t) :: s.cms.times.filter (fun e => e.1 != req)).take 4 } }

/-- A read of `CMS_HTIMEL` or `CMS_HTIMEH` uses the requester's copy, which is then its most recently used one (R113, R139). -/
def useTime (req : Requester) (s : State) : State :=
  match timeShadow req s with
  | some t => putTime req t s
  | none => s

/-- A read of `CMS_HWIDX` (R134): the time of the latest word is copied for the requester. -/
def readHwidx (req : Requester) (s : State) : Word × State := (reg s Reg.CMS_HWIDX, putTime req (latestInstant s) s)

/-- HWIDX_READ (R134, R113). -/
def execHwidxRead (req : Requester) (s : State) : Out :=
  if coreUp s then (Done.read [(readHwidx req s).1] (readHwidx req s).2).out else .next s

end Sys2Proof.Machine
end

