-- ==== Sys2Proof/Machine/Xck.lean ====
section
/-!
DEFINITION. Sys2Proof/Machine/Xck.lean: the secondary side: interval, fast and fallback results, the cross-check, open sense wires, the harness
measurement and the fences of cell paths (spec/05_crosscheck_and_sense_integrity.md, R142-R186, R614; spec/14_fault_collection_and_reaction.md R497).
-/
namespace Sys2Proof.Machine

/-! ## Fences of cell paths and converters -/

/-- The reaction that a severe source took is a fence (R496). -/
def fencedBy (src : Nat) (s : State) : Bool := assoc src s.flt.react == some 2

/-- The cells of a word: bits 24 to 1. -/
def cellBits (w : Word) : Word := w &&& 0x01FFFFFE#32

/-- The primary paths, channel 0 among them, that fences hold (R488, R497). -/
def fencedPaths (s : State) : Word :=
  cellMask (fun n => fencedBy (15 + n) s || (fencedBy 40 s && s.flt.blamedP.getLsbD n)) ||| (if fencedBy 63 s then 1#32 else 0#32)

/-- The secondary measurements that fences hold. -/
def fencedSecondaries (s : State) : Word := if fencedBy 41 s then cellBits s.flt.blamedS else 0#32

/-- `XCK_STAT.MODE` by the fences of XA and XB (R180): bit 0 XB out, bit 1 XA out. -/
def converterMode (s : State) : Nat := 2 * b2n (fencedBy 43 s) + b2n (fencedBy 44 s)

/-- A secondary result without measurement: VALID reads 0, the rest stays (R146). -/
def invalidate (a : Nat) (s : State) : State := setRegBit a 31 false s

/-- A result word without measurement. -/
def voidWord (w : Word) : Word := putBits w 31 1 0

/-- Every secondary result loses VALID (R149). -/
def invalidateAll (s : State) : State :=
  let cells := (List.range 24).foldl (fun t k => invalidate (Reg.XCK_CELL k) t) s
  let pairs := (List.range 23).foldl (fun t k => invalidate (Reg.XCK_PAIR k) t) cells
  let aux := (List.range 16).foldl (fun t k => invalidate (Reg.XCK_AXF k) (invalidate (Reg.XCK_AX k) t)) pairs
  invalidate Reg.XCK_VMOD { aux with xck := { aux.xck with second := aux.xck.second.map voidWord, fall := List.replicate 24 none } }

/-- `FLT_STAT.FENCED` shows whether a unit is fenced (R511). -/
def showFenced (s : State) : State :=
  setB Reg.FLT_STAT_FENCED (reg s Reg.FLT_FENCE0 != 0#32 || reg s Reg.FLT_FENCE1 != 0#32 || reg s Reg.CMS_FENCE != 0#32) s

/-- The fences of primary paths, secondary measurements and converters come into force or lift (R149, R157, R159, R497-R499). A fence of XB ends a
harness measurement with REFUSED_FENCED (R176; DESIGN CHOICE notes/assumptions/74.md). A cell whose fence begins counts its failing comparisons anew
(DESIGN CHOICE notes/assumptions/84.md). -/
def applyCellFences (s : State) : State :=
  let oldP := reg s Reg.CMS_FENCE
  let newP := fencedPaths s
  let oldS := reg s Reg.FLT_FENCE1
  let newS := fencedSecondaries s
  let mode := converterMode s
  let began := cellBits ((newP &&& ~~~oldP) ||| (newS &&& ~~~oldS))
  let s1 := s |> setReg Reg.CMS_FENCE newP |> setReg Reg.FLT_FENCE1 newS |> setB Reg.FLT_FENCE0_CUR (newP.getLsbD 0)
              |> setB Reg.FLT_FENCE0_XA (fencedBy 43 s) |> setB Reg.FLT_FENCE0_XB (fencedBy 44 s)
              |> setReg Reg.XCK_XMIS (reg s Reg.XCK_XMIS &&& ~~~began)
  let s2 := (List.range 24).foldl (fun t k => if newS.getLsbD (k + 1) then invalidate (Reg.XCK_CELL k) t else t) s1
  let s3 := { s2 with xck := { s2.xck with
      fails := s2.xck.fails.zipIdx.map (fun e => if began.getLsbD (e.2 + 1) then 0 else e.1)
      secSettle := s2.xck.secSettle.zipIdx.map (fun e => e.1 || (oldS &&& ~~~newS).getLsbD (e.2 + 1))
      fallSettle := s2.xck.fallSettle.zipIdx.map (fun e => e.1 || (oldS &&& ~~~newS).getLsbD (e.2 + 1))
      fall := s2.xck.fall.zipIdx.map (fun e => if (newP &&& ~~~oldP).getLsbD (e.2 + 1) then none else e.1) } }
  let s4 := if mode = getF Reg.XCK_STAT_MODE s then s3
    else
      let t := setF Reg.XCK_STAT_MODE mode { s3 with xck := { s3.xck with modeChanged := true, fastChanged := true, fallChanged := true } }
      if mode = 3 then invalidateAll t else t
  let lifted := oldP &&& ~~~newP
  let s5 := if lifted = 0#32 then s4 else startSettle (fun c => lifted.getLsbD c) s4
  let s6 := if newP.getLsbD 0 && !oldP.getLsbD 0 then planAbort 3 s5 else s5
  showFenced (noteWindow (if fencedBy 44 s && !bit Reg.FLT_FENCE0_XB s then endHarness .refusedFenced false s6 else s6))

/-- Cells newly blamed while source 40 or 41 stands severe by a fence join it (R497). -/
def extendBlame (s : State) : State :=
  let p := if fencedBy 40 s then s.flt.blamedP ||| reg s Reg.XCK_BLAMEP else s.flt.blamedP
  let q := if fencedBy 41 s then s.flt.blamedS ||| reg s Reg.XCK_BLAMES else s.flt.blamedS
  applyCellFences { s with flt := { s.flt with blamedP := p, blamedS := q } }

/-! ## Result words -/

/-- A source counts its one event of this interval (R177). -/
def countOnce (src : Nat) (s : State) : State :=
  let s1 := setLine src true s
  if natMem src s.xck.counted then s1
  else pulse src { s1 with xck := { s1.xck with counted := natPut src s1.xck.counted } }

/-- The word of a secondary result (R146). -/
def resultWord (old : Word) (valid settle isOpen ovr : Bool) (value : Int) : Word :=
  if valid then
    BitVec.ofNat 32 (2 ^ 31 + b2n settle * 2 ^ 30 + b2n isOpen * 2 ^ 29 + b2n ovr * 2 ^ 28 + (getBits old 24 4 + 1) % 16 * 2 ^ 24 +
      unsigned 24 value)
  else voidWord old

/-- The value of a result word whose coding is two's complement (R147). -/
def resultValue (w : Word) : Int := signed 24 (getBits w 0 24)

/-- Whether a result word holds a measurement, and whether it carries SETTLE. -/
def resultValid (w : Word) : Bool := w.getLsbD 31
def resultSettle (w : Word) : Bool := w.getLsbD 30

/-- Whether the secondary side runs (R150). -/
def secondaryRuns (s : State) : Bool := s.sys.phase == .active && s.cms.running

/-- Whether the converter that serves the cells stands with its self-check source active; the others are served by XB, or by the one
converter in service (R146, R149). -/
def cellsSuspect (s : State) : Bool := natMem (if getF Reg.XCK_STAT_MODE s = 2 then 44 else 43) s.flt.lines
def othersSuspect (s : State) : Bool := natMem (if getF Reg.XCK_STAT_MODE s = 1 then 43 else 44) s.flt.lines

/-- The fraction of the present interval in which switch k conducted (R171, R236), in 1/65536: by the halves it conducted from end to end; where it
conducted through a part of one, it is open. -/
def intervalFraction (s : State) (k : Nat) : Int :=
  let b := nth s.xck.balInt (k - 1) ⟨0, false, false⟩
  if b.part then openFraction k s.free else b.full * 32768

/-- The fraction of a fallback result's span (R145) in which switch k conducted, in 1/65536: open where it conducted in a part of it. -/
def fallbackFraction (s : State) (k : Nat) : Int :=
  let recent := (nth s.cms.balSeen (k - 1) none).any (fun t => decide (s.now < t + 1953125))
  if !flows k s && !recent then 0
  else if flows k s && s.xck.halfOn.getLsbD k && s.xck.halfAt.any (fun t => decide (t + 1953125 ≤ s.ft)) then 65536
  else openFraction k s.free

/-- The calibrated value of cell n's secondary reading, without compensation, as a left-aligned code (R530, R531). -/
def secondaryCode (n : Nat) (r : Reading) (s : State) : Int :=
  calCorrect ((if getF Reg.XCK_STAT_MODE s = 2 then 48 else 24) + n) r.code s

/-- The secondary value of cell n in µV, compensated where selected (R147, R171); `f`: the fraction in which each switch conducted. -/
def secondaryValue (n : Nat) (r : Reading) (f : Nat → Int) (s : State) : Int :=
  let c := secondaryCode n r s
  (if compensates s then c - balError n f 256 s else c) / 256

/-- The value of pair k in units of 2 µV, compensated where selected. -/
def pairValue (k : Nat) (r : Reading) (s : State) : Int :=
  let c := calCorrect (72 + k) r.code s
  let f := intervalFraction s
  (if compensates s then c - (balError k f 128 s + balError (k + 1) f 128 s) else c) / 256

/-! ## Auxiliary inputs -/

/-- The configuration in force of input k (R151, R183): EN, DIFF and GAIN. -/
def auxField (k : Nat) (s : State) : Nat := getBits (if k < 8 then s.xck.ax0 else s.xck.ax1) (4 * (k % 8)) 4
def auxEnabled (k : Nat) (s : State) : Bool := (auxField k s).testBit 3
def auxDiff (k : Nat) (s : State) : Bool := k % 2 == 0 && (auxField k s).testBit 2

/-- Whether results of input k read as measurements: enabled, not the odd half of a differential pair, and served (R146, R151). -/
def auxServed (k : Nat) (s : State) : Bool :=
  auxEnabled k s && !(k % 2 == 1 && auxDiff (k - 1) s) && getF Reg.XCK_STAT_MODE s != 3

/-- The value of input k in µV at the pins (R147, R530, R531); a single-ended reading is unsigned. -/
def auxValue (k : Nat) (r : Reading) (s : State) : Int :=
  let ratio : Nat := match auxField k s % 4 with
    | 1 => s.cal.ratio4.toNat
    | 2 => s.cal.ratio16.toNat
    | _ => 2 ^ 30
  let v := match s.cal.coef[97 + k]? with
    | some (o, g) => ((r.code - o.toInt) * ((g.toNat * ratio / 2 ^ 30 : Nat) : Int)) / 2 ^ 30 / 256
    | none => r.code / 256
  if auxDiff k s then v else max v 0

/-! ## Slots -/

/-- What a slot converts (R143): an input, or a level of the self-check; what the slots of the open-wire window give is OPEN_WIRE_TEST's. -/
inductive Slot
  | cell (n : Nat)
  | pair (k : Nat)
  | vmsns
  | aux (k : Nat)
  | zero
  | half
  | level
  | window
  deriving DecidableEq, Repr

/-- The slots of an XA cycle (R143): the self-check takes its two levels in alternate cycles. -/
def cycleSlots (odd : Bool) : List Slot := (List.range 24).map (fun k => .cell (k + 1)) ++ [if odd then .half else .zero]

/-- The slots of an XB frame (R143). -/
def frameSlots : List Slot :=
  (List.range 16).map .aux ++ [.vmsns] ++ (List.range 23).map (fun k => .pair (k + 1)) ++ [.zero, .half, .level] ++ List.replicate 7 .window

/-- The slots that XA, or XB, converts in one XB frame, in the order of time: two cycles beside the frame, or on the one converter in service a cycle
before each half of it (R143, R149). -/
def converterSlots (mode : Nat) (xb : Bool) : List Slot :=
  match mode, xb with
  | 0, false => cycleSlots false ++ cycleSlots true
  | 0, true => frameSlots
  | 1, false | 2, true => cycleSlots false ++ frameSlots.take 25 ++ cycleSlots true ++ frameSlots.drop 25
  | _, _ => []

/-- The gain field that a slot of input k takes: that of the pair in both slots of a differential pair (R151). -/
def auxGain (k : Nat) (s : State) : Nat := (if k % 2 = 1 ∧ auxDiff (k - 1) s then auxField (k - 1) s else auxField k s) % 4

/-- The gain field of a slot: a slot without auxiliary input has gain ×1, and an idle slot of a disabled input the gain configured for it (DESIGN CHOICE
notes/assumptions/75.md). -/
def slotGain (x : Slot) (s : State) : Nat :=
  match x with
  | .aux k => auxGain k s
  | .level => s.xck.gainTurn
  | _ => 0

/-- The entry of `XckState.slots` that a slot's result enters, none for an idle slot and the self-check's (R145, R150, R151). -/
def slotEntry (x : Slot) (s : State) : Option Nat :=
  match x with
  | .cell n => if cellsServed s then some (n - 1) else none
  | .pair k => if cellsServed s then some (23 + k) else none
  | .vmsns => if cellsServed s then some 47 else none
  | .aux k =>
    let j := if k % 2 = 1 ∧ auxDiff (k - 1) s then k - 1 else k
    if auxEnabled j s then some (48 + j) else none
  | _ => none

/-- Whether a slot's input has a range with two signs (R147). -/
def slotSigned (x : Slot) (s : State) : Bool :=
  match x with
  | .vmsns => false
  | .aux k => auxDiff (k - k % 2) s
  | _ => true

/-- A code at an end of the range beyond which the converter cannot measure (R146). -/
def extremeCode (sgn : Bool) (raw : Int) : Bool := if sgn then raw == 32767 || raw == -32768 else raw == 65535

/-- The slot result of the conversions that a slot keeps, in 1/342 of a code (R144): the first is discarded, or the first two in an auxiliary slot
whose gain differs from that of the slot before it. -/
def keptConversions (before x : Slot) (cs : List Conversion) (s : State) : List Conversion :=
  cs.drop (match x with
    | .aux _ => if slotGain x s = slotGain before s then 1 else 2
    | _ => 1)

def slotResult (cs : List Conversion) : Int := openDiv (342 * (cs.map (·.code)).sum) cs.length

/-- A slot result enters the sums of its input (R145). -/
def SlotSum.add (x : SlotSum) (r : Int) (ovr : Bool) : SlotSum := ⟨x.sum + r, x.count + 1, x.ovr || ovr, ((r, ovr) :: x.last).take 8⟩

/-- The self-check of a converter follows the output bits of its conversions (R177). -/
def SelfCheck.follow (x : SelfCheck) (cs : List Conversion) : SelfCheck :=
  cs.foldl (fun c v =>
    { c with
      still := c.still.zipIdx.map (fun e => if (unsigned 16 v.raw).testBit e.2 = (unsigned 16 c.code).testBit e.2 then min (e.1 + 1) 4096 else 0)
      code := v.raw }) x

/-- Whether a level of the self-check lies beyond its limit (R177): zero beyond ±2 mV, VREFP / 2, 1.25 V, beyond ±0.3 %. The internal 1.25 V level has no
limit of its own in the spec and is held to the same (DESIGN CHOICE notes/assumptions/75.md). -/
def levelBad (x : Slot) (r : Int) : Bool :=
  match x with
  | .zero => decide (2000 * 256 * 342 < mag r)
  | .half | .level => decide (3750 * 256 * 342 < mag (r - 1250000 * 256 * 342))
  | _ => false

/-- What the walk over the slots of a converter keeps: the slot before, whether a level of the present cycle was off, the self-check and the sums. -/
structure Walk where
  before : Slot
  bad : Bool
  check : SelfCheck
  sums : List SlotSum

/-- A check cycle ends with XA's level or with the last of XB's: failing cycles in a row are counted (R177). -/
def endsCheck (xa : Bool) (x : Slot) : Bool := x == .level || (xa && (x == .zero || x == .half))

/-- One slot (R143-R146, R177). -/
def walkSlot (inCycle : Bool) (s : State) (w : Walk) (x : Slot) (cs : List Conversion) : Walk :=
  let kept := keptConversions w.before x cs s
  let r := slotResult kept
  let idle := x != .zero && x != .half && x != .level && x != .window && (slotEntry x s).isNone
  if idle then { w with before := x }
  else
    let bad := w.bad || levelBad x r
    let check := w.check.follow cs
    let sums := match slotEntry x s with
      | some j => setNth w.sums j ((nth w.sums j ⟨0, 0, false, []⟩).add r (kept.any (fun c => extremeCode (slotSigned x s) c.raw)))
      | none => w.sums
    if endsCheck inCycle x then ⟨x, false, { check with fails := if bad then min (check.fails + 1) 4 else 0 }, sums⟩ else ⟨x, bad, check, sums⟩

/-- Whether slot i of a converter's slots in one frame belongs to an XA cycle. -/
def inCycle (mode i : Nat) (xb : Bool) : Bool := if mode = 0 then !xb else i < 25 || (50 ≤ i && i < 75)

/-- The slots of one converter in a frame. -/
def walkSlots (xb : Bool) (l : List (List Conversion)) (s : State) : State :=
  let mode := getF Reg.XCK_STAT_MODE s
  let w := ((converterSlots mode xb).zip l).zipIdx.foldl (fun w e => walkSlot (inCycle mode e.2 xb) s w e.1.1 e.1.2)
    ⟨.window, false, if xb then s.xck.checkB else s.xck.checkA, s.xck.slots⟩
  { s with xck := if xb then { s.xck with slots := w.sums, checkB := w.check } else { s.xck with slots := w.sums, checkA := w.check } }

/-- The mean of slot results, in 1/342 of a code, as a reading. -/
def meanReading (sum : Int) (count : Nat) (ovr : Bool) : Reading := ⟨openDiv sum (342 * count), ovr⟩

/-- The interval reading of an input (R145). -/
def intervalReading (j : Nat) (s : State) : Reading :=
  let x := nth s.xck.slots j ⟨0, 0, false, []⟩
  meanReading x.sum x.count x.ovr

/-- The mean over the latest n slot results of an input (R145). -/
def latestReading (j n : Nat) (s : State) : Reading :=
  let l := (nth s.xck.slots j ⟨0, 0, false, []⟩).last.take n
  meanReading (l.map (·.1)).sum l.length (l.any (·.2))

/-- XB_FRAME_END (R142-R145, R149, R177): the conversions of the frame form the slot results; the fast results of the enabled inputs close, and an
over-range result is source 49's condition. `xa`, `xb`: the conversions of each slot of the converter. -/
def execXbFrameEnd (xa xb : List (List Conversion)) (s : State) : Out :=
  if secondaryRuns s && getF Reg.XCK_STAT_MODE s != 3 then
    let s0 := walkSlots true xb (walkSlots false xa s)
    let s1 := (List.range 16).foldl (fun t k =>
      let r := latestReading (48 + k) 1 t
      setReg (Reg.XCK_AXF k) (resultWord (reg t (Reg.XCK_AXF k)) (auxServed k t) (t.xck.fastChanged || othersSuspect t) false r.ovr (auxValue k r t)) t) s0
    let anyOvr := (List.range 16).any (fun k => auxServed k s && (latestReading (48 + k) 1 s0).ovr)
    let s2 := { s1 with xck := { s1.xck with fastChanged := false, frame := s.xck.frame + 1, gainTurn := (s.xck.gainTurn + 1) % 3 } }
    .next (if anyOvr then countOnce 49 s2 else s2)
  else .next s

/-- AUX_CONFIG_APPLY (R152): at the start of an XB frame. -/
def execAuxConfigApply (s : State) : Out :=
  if secondaryRuns s then
    let new0 := reg s (Reg.XCK_AXCFG 0)
    let new1 := reg s (Reg.XCK_AXCFG 1)
    let s1 := { s with xck := { s.xck with ax0 := new0, ax1 := new1 } }
    let ch := s.xck.axChanged.zipIdx.map (fun e => e.1 || auxField e.2 s1 != auxField e.2 s ||
      (e.2 % 2 == 1 && auxDiff (e.2 - 1) s1 != auxDiff (e.2 - 1) s))
    .next { s1 with xck := { s1.xck with axChanged := ch } }
  else .next s

/-! ## The interval -/

/-- The 24 primary interval means of the interval that ends now (R155, R171), in µV, and their uncorrected values. `prim`: for each cell the samples of
its internal stream in the interval. -/
def primaryMeans (prim : List (List Int)) (s : State) : List Int × List Int :=
  let mean (k : Nat) : Int := calCorrect (k + 1) (openDiv (nth prim k []).sum (nth prim k []).length) s
  let f := intervalFraction s
  ((List.range 24).map (fun k => (if compensates s then mean k - balError (k + 1) f 256 s else mean k) / 256), (List.range 24).map (fun k => mean k / 256))

/-- Whether the primary mean of the interval that ended at fabric time b carries SETTLE: a sample of the internal stream in it falls in a settle count
(R97, R102, R155), or the timebase is not locked (R103). -/
def meanSettles (c b : Nat) (s : State) : Bool :=
  !bit Reg.CMS_STAT_TBLOCK s ||
  (nth s.cms.settleAt c []).any (fun e => (List.range 64).any (fun i =>
    let t := b - interval64 + i * interval64 / 64
    decide (e.1 < t) && decide (t ≤ e.2)))

/-- A secondary cell measurement has its result of an interval with SETTLE (R146, R149, R499). -/
def cellUnsettled (n : Nat) (s : State) : Bool := s.xck.firstInterval || s.xck.modeChanged || nth s.xck.secSettle (n - 1) false || cellsSuspect s

/-- The interval results of the cells as measured (R145, R146), which the comparisons use (R154, R155). -/
def measureCells (rs : List Reading) (s : State) : State :=
  { s with xck := { s.xck with second := (List.range 24).map (fun k =>
    let r := nth rs k ⟨0, false⟩
    resultWord (nth s.xck.second k 0#32) (cellMeasured (k + 1) s) (cellUnsettled (k + 1) s) (openAt (k + 1) s) r.ovr
      (secondaryValue (k + 1) r (intervalFraction s) s)) } }

/-- Interval results of the cells (R145, R146, R165). A fenced primary path leaves its word to the fallback results (R186). -/
def closeCells (rs : List Reading) (s : State) : State :=
  (List.range 24).foldl (fun t k =>
    let n := k + 1
    let r := nth rs k ⟨0, false⟩
    if regBit Reg.CMS_FENCE n t then t
    else setReg (Reg.XCK_CELL k) (resultWord (reg t (Reg.XCK_CELL k)) (cellMeasured n t) (cellUnsettled n t) (openAt n t) r.ovr
      (secondaryValue n r (intervalFraction t) t)) t) (measureCells rs s)

/-- Interval results of the pairs, the auxiliary inputs and VMSNS. -/
def closeOthers (rs : List Reading) (s : State) : State :=
  let settle := s.xck.firstInterval || s.xck.modeChanged || othersSuspect s
  let s1 := (List.range 23).foldl (fun t k =>
    let r := nth rs (24 + k) ⟨0, false⟩
    setReg (Reg.XCK_PAIR k) (resultWord (reg t (Reg.XCK_PAIR k)) (cellsServed t) settle (tapOpen k t || tapOpen (k + 2) t) r.ovr
      (pairValue (k + 1) r t)) t) s
  let v := nth rs 47 ⟨0, false⟩
  let s2 := setReg Reg.XCK_VMOD (resultWord (reg s1 Reg.XCK_VMOD) (cellsServed s1) settle (tapOpen 24 s1 && !bit Reg.XCK_CFG_VMSW s1) v.ovr
    (max (calCorrect 96 v.code s1 / 256) 0)) s1
  let s3 := (List.range 16).foldl (fun t k =>
    let r := nth rs (48 + k) ⟨0, false⟩
    setReg (Reg.XCK_AX k) (resultWord (reg t (Reg.XCK_AX k)) (auxServed k t) (settle || nth t.xck.axChanged k false) false r.ovr (auxValue k r t)) t) s2
  { s3 with xck := { s3.xck with axChanged := List.replicate 16 false } }

/-- VMSNS minus the primary sum of cells 1 to 23, in µV (R163, R165). -/
def residue24 (means : List Int) (vm : Int) : Int := vm * 10 - (means.take 23).sum

/-- The module sum check (R154): the difference goes to `XCK_SUMDIFF`, rounded down to its LSB (DESIGN CHOICE notes/assumptions/25.md); intervals in which a
value that it takes carries SETTLE count neither way; source 45 follows the persistence counts and counts one event for each interval in which it
stands. -/
def sumCheck (s : State) : State :=
  if unusedCells s || getF Reg.XCK_STAT_MODE s == 3 then s
  else
    let w := reg s Reg.XCK_VMOD
    let vm : Int := getBits w 0 24
    let sec (k : Nat) : Word := nth s.xck.second k 0#32
    let fenced (k : Nat) : Bool := regBit Reg.CMS_FENCE (k + 1) s
    let sum := ((List.range 24).map (fun k => if fenced k then resultValue (sec k) else nth s.xck.pmean k 0)).sum
    let s1 := setReg Reg.XCK_SUMDIFF (BitVec.ofInt 32 ((vm * 10 - sum) / 10)) s
    let skip := resultSettle w || !resultValid w ||
      (List.range 24).any (fun k => if fenced k then resultSettle (sec k) || !resultValid (sec k) else nth s.xck.psettle k true)
    if skip then s1
    else
      let beyond := decide ((getF Reg.XCK_CFG_SUMLIM s : Int) * 10000 < mag (vm * 10 - sum))
      let pers := getF Reg.XCK_CFG_PERS s
      let f := if beyond then min (s.xck.sumFail + 1) 15 else 0
      let p := if beyond then 0 else min (s.xck.sumPass + 1) 15
      let s2 := { s1 with xck := { s1.xck with sumFail := f, sumPass := p } }
      let s3 := if natMem 45 s2.flt.lines && pers ≤ p then drop 45 s2 else s2
      if pers ≤ f || natMem 45 s3.flt.lines then pulse 45 (setLine 45 true s3) else s3

/-- The OV or UV crossing of one supervised value (R20, R165, R226): it acts as a trip when it begins, or when the test of R20 no longer keeps the actions
waiting. -/
def supervise (n : Nat) (v : Int) (parts : Int) (s : State) : State :=
  let ov := decide (parts * (getF Reg.CPB_OVTH_TH s : Int) * 5000 < v) && comparatorOn n true s && !r20Waits s
  let uv := decide (v < parts * (getF Reg.CPB_UVTH_TH s : Int) * 5000) && comparatorOn n false s && !r20Waits s
  let hadO := s.xck.pairOv.getLsbD n
  let hadU := s.xck.pairUv.getLsbD n
  let s1 := { s with xck := { s.xck with pairOv := putBits s.xck.pairOv n 1 (b2n ov), pairUv := putBits s.xck.pairUv n 1 (b2n uv) } }
  let s2 := if ov && !hadO then tripActions n true s1 else s1
  if uv && !hadU then tripActions n false s2 else s2

/-- A supervision that no longer applies leaves no crossing. -/
def unsupervise (n : Nat) (s : State) : State :=
  { s with xck := { s.xck with pairOv := putBits s.xck.pairOv n 1 0, pairUv := putBits s.xck.pairUv n 1 0 } }

/-- Whether tap Ck is open and both taps beside it are not, so that its cells can be supervised (R165). -/
def openAlone (k : Nat) (s : State) : Bool := tapOpen k s && !tapOpen (k - 1) s && !(k < 24 && tapOpen (k + 1) s)

/-- The word of cell 24 while VMSNS stands in for it (R165): the new result of its interval, with the substitute's value; with the cell's secondary
measurement fenced VALID reads 0 all the same (R159). While its primary path is fenced too, this word and the fallback results of R186 replace each
other as they arise (DESIGN CHOICE notes/assumptions/85.md). -/
def substituteWord (v : Int) (s : State) : Word :=
  let old := reg s (Reg.XCK_CELL 23)
  let w := resultWord old true (resultSettle (reg s Reg.XCK_VMOD)) true false v
  if regBit Reg.FLT_FENCE1 24 s then voidWord w
  else if regBit Reg.CMS_FENCE 24 s then w
  else putBits w 24 4 (getBits old 24 4)

/-- The substitute supervision of open taps (R165), at every interval: pair n for Cn, and VMSNS for C24 on its own wire, whose value
`XCK_CELL` then shows for cell 24 with OPEN. -/
def superviseOpen (s : State) : State :=
  let s1 := (List.range 23).foldl (fun t k =>
    let n := k + 1
    let w := reg t (Reg.XCK_PAIR k)
    if openAlone n t && resultValid w then supervise n (2 * resultValue w) 2 t else unsupervise n t) s
  if openAlone 24 s1 && bit Reg.XCK_CFG_VMSW s1 && resultValid (reg s1 Reg.XCK_VMOD) then
    let v := residue24 s1.xck.pmean (getBits (reg s1 Reg.XCK_VMOD) 0 24)
    supervise 24 v 1 (setReg (Reg.XCK_CELL 23) (substituteWord v s1) s1)
  else unsupervise 24 s1

/-! ## The harness measurement -/

/-- A list of numbers added to another, entry by entry. -/
def addLists (a b : List Int) : List Int := a.zipIdx.map (fun e => e.1 + nth b e.2 0)

/-- The switch that a harness measurement closes in its interval i: for each cell four intervals open, then four closed (R175). -/
def harnessSwitch (i : Nat) : Option Nat := if i < 192 ∧ 4 ≤ i % 8 then some (i / 8 + 1) else none

/-- One interval of a harness measurement ends (R175): of each four intervals the last three count; after a cell's eight its estimates
follow, in 0.1 mΩ. `v`: the secondary values of the cells, in µV, without the compensation of R171 whatever MODE selects (DESIGN CHOICE
notes/assumptions/86.md). The rows of R244 bind the switch that it closes: where one
fails, balancing is stopped and the run ends (R176, R244). -/
def harnessInterval (v : List Int) (s : State) : State :=
  match s.xck.harness with
  | none => s
  | some h =>
    if 192 ≤ h.interval then s
    else
      let i := h.interval
      let n := i / 8 + 1
      let h1 := match i % 8 with
        | 0 => { h with baseline := List.replicate 24 0, sums := List.replicate 24 0 }
        | 4 => h
        | 1 | 2 | 3 => { h with baseline := addLists h.baseline v }
        | _ => { h with sums := addLists h.sums v }
      let d (k : Nat) : Int := nth h1.sums (k - 1) 0 - nth h1.baseline (k - 1) 0
      let est (x : Int) : Int := openDiv (x * bleedRes s * 100) (nth h1.baseline (n - 1) 0)
      let broken := h.closed.any (fun k => !conducts k s) || (harnessSwitch (i + 1)).any (fun k => failingRow k s != 0)
      let h2 := if i % 8 = 7 then
          { h1 with
            estLow := setNth h1.estLow (n - 1) (if n = 1 then est (-(d 1)) else est (d (n - 1)))
            estHigh := setNth h1.estHigh n (if n = 24 then est (-(d 24)) else est (d (n + 1))) }
        else h1
      let s1 := { s with xck := { s.xck with harness := some { h2 with interval := i + 1, closed := harnessSwitch (i + 1) } } }
      let on := cellMask (fun k => eligible k s1)
      if broken then harnessAbort s
      else noteBleed (s1 |> setF Reg.CPB_BALSTAT_ON (getBits on 1 24) |> setF Reg.CPB_BALSTAT_HOLD (holdRow s1))

/-- The life-cycle state (R553): 0 MANUFACTURE, 1 CALIBRATE, 2 FIELD, 3 RETURN. -/
def lifecycle (s : State) : Nat := getF Reg.BST_LCSTAT_STATE s

/-- A row of R244 that concerns every switch fails, so that none can be closed. -/
def bleedStopped (s : State) : Bool :=
  s.sys.phase != .active || s.sys.transition.isSome || testing 21 s || bit Reg.FLT_STAT_SAFE s || bit Reg.FLT_FENCE0_BLEED s || calRunning s ||
  bit Reg.CPB_BALSTAT_TOFF s || r20Waits s || balHeld s || s.xck.gate.isSome

/-- A write of 1 to `XCK_HRCMD.START` (R175, R176). Where a row of R244 stops balancing as it is written, outside ACTIVE too, the run ends as it begins
(R244). -/
def startHarness (tk : Ticket) (s : State) : Done :=
  if !(lifecycle s == 1 || lifecycle s == 2) then Done.refuse .lifecycleDenied s
  else if bit Reg.FLT_FENCE0_XB s ∨ unusedCells s then Done.refuse .refusedFenced s
  else if planActive s then startBusy s
  else match s.xck.harness with
    | some h => Done.busy (harnessLeft h s) s
    | none =>
      let s1 := s |> setB Reg.XCK_HRCMD_FAIL false |> setB Reg.XCK_HRCMD_DONE false
      let z := List.replicate 24 (0 : Int)
      let e := List.replicate 25 (0 : Int)
      if bleedStopped s then Done.refuse .incomplete (pulse 50 (setB Reg.XCK_HRCMD_FAIL true s1))
      else Done.later (enforceSwitches (setB Reg.XCK_HRCMD_BUSY true { s1 with xck := { s1.xck with harness := some ⟨tk, none, 0, z, e, e, z⟩ } }))

/-- A command's completion goes to whoever gave it, unless it follows later. -/
def Done.via (d : Done) (tk : Ticket) : Out := .next (if d.held then d.st else complete tk d.status d.data d.tval d.st)

/-- HARNESS_MEASUREMENT_START (R175, R176). -/
def execHarnessMeasurementStart (tk : Ticket) (s : State) : Out :=
  if coreUp s then (startHarness tk s).via tk else .next s

/-- Whether two estimates of one wire differ by more than 20 %. The spec does not say of which value, so between 20 % of the smaller and
20 % of the larger the answer is a free value. -/
def estimatesDiffer (a b : Int) (free : Word) : Bool :=
  let d := mag (a - b)
  if 5 * d ≤ min a b then false else if max a b < 5 * d then true else free.getLsbD 0

/-- The resistances of the 25 wires from their estimates (R175), in 0.1 mΩ. -/
def harnessResult (h : HarnessRun) : List Int :=
  let mid (k : Nat) : Int := openDiv (nth h.estLow k 0 + nth h.estHigh k 0) 2
  (List.range 25).map (fun k =>
    if k = 0 then nth h.estLow 0 0 - mid 1 else if k = 24 then nth h.estHigh 24 0 - mid 23 else mid k)

/-- Whether an estimate is negative or above 6.5535 Ω, or a wire's two estimates differ too much (R176). -/
def harnessBad (h : HarnessRun) (free : Nat) : Bool :=
  let r := harnessResult h
  r.any (fun x => x < 0 || 65535 < x) ||
  (List.range 23).any (fun k =>
    let a := nth h.estLow (k + 1) 0
    let b := nth h.estHigh (k + 1) 0
    a < 0 || b < 0 || 65535 < a || 65535 < b || estimatesDiffer a b (Config.freeValue (free + k)))

/-- HARNESS_MEASUREMENT_DONE (R175, R176). -/
def execHarnessMeasurementDone (s : State) : Out :=
  match s.xck.harness with
  | none => .next s
  | some h =>
    if h.interval < 192 then .next s
    else
      let s1 := enforceSwitches (setB Reg.XCK_HRCMD_BUSY false { s with free := s.free + 32, xck := { s.xck with harness := none } })
      if harnessBad h s.free then
        .next (complete h.ticket .checkFail [] 0 (pulse 50 (setB Reg.XCK_HRCMD_FAIL true s1)))
      else
        let s2 := (harnessResult h).zipIdx.foldl (fun t e => setReg (Reg.XCK_HRES e.2) (BitVec.ofInt 32 e.1) t) s1
        .next (complete h.ticket .ok [] 0 (setB Reg.XCK_HRCMD_DONE true s2))

/-! ## Open sense wires -/

/-- Whether open-wire tests are suspended (R149, R150, R168). -/
def testsSuspended (s : State) : Bool :=
  planActive s || calRunning s || s.xck.harness.isSome || !cellsServed s

/-- The tests of the interval that begins (R163): suspect taps in ascending order, each in two intervals, after those that found no frame in the interval
before; then the sweep's tap. An interval holds 32 frames, or 16 in single-converter mode (R149). With PER 0b11 no sweep runs (R182). A suspect's
test that a suspension has cut off is still to be made (R168). -/
def scheduleTests (s : State) : State :=
  let x := s.xck
  let per := getF Reg.XCK_OWCFG_PER s
  let sweep := if per = 3 then 0 else if x.sweepTap = 0 ∧ (x.sweepPend ∨ per = 0) then 1 else x.sweepTap
  let pend := x.sweepPend && x.sweepTap != 0 && per != 3
  if testsSuspended s then { s with xck := { x with due := [], sweepTap := sweep, sweepPend := pend } }
  else
    let frames := if getF Reg.XCK_STAT_MODE s = 0 then 32 else 16
    let fresh := (x.suspects.filter (fun y => y.passed + y.failed < 2 && !x.later.contains y.tap)).map (·.tap)
    let queue := x.later ++ fresh
    let taps := (queue.take frames).map (fun k => (k, false))
    { s with xck := { x with
      due := (taps ++ (if sweep = 0 then [] else [(sweep, true)])).take frames
      later := queue.drop frames
      sweepTap := sweep, sweepPend := pend } }

/-- OPEN_WIRE_SWEEP_START (R163): the period expires; a sweep that still runs is followed at once. -/
def execOpenWireSweepStart (s : State) : Out :=
  if secondaryRuns s && cellsServed s && getF Reg.XCK_OWCFG_PER s != 3 then
    .next { s with xck := if s.xck.sweepTap = 0 then { s.xck with sweepTap := 1 } else { s.xck with sweepPend := true } }
  else .next s

/-- Tap Ck is declared open (R164, R165). -/
def declareOpen (k : Nat) (s : State) : State :=
  let s1 := setRegBit Reg.XCK_OWSTAT k true { s with xck := { s.xck with suspects := s.xck.suspects.filter (fun x => x.tap != k) } }
  noteWindow (enforceSwitches (countOnce 47 s1))

/-- The declaration of tap Ck clears (R164, R226). -/
def clearOpen (k : Nat) (s : State) : State :=
  let s1 := setRegBit Reg.XCK_OWSTAT k false s
  let s2 := if reg s1 Reg.XCK_OWSTAT = 0#32 then drop 47 s1 else s1
  standingTrips (tapCells k) (enforceSwitches s2)

/-- The suspects after a test of tap k (R163, R166): with the second test the suspicion ends where it passes, or where the hold is over. -/
def judgeSuspect (k : Nat) (failed : Bool) (l : List Suspect) : List Suspect :=
  (l.map (fun x => if x.tap = k then (if failed then { x with failed := x.failed + 1 } else { x with passed := x.passed + 1 }) else x)).filter
    (fun x => !(x.tap == k && (!failed || !x.hold) && 2 ≤ x.passed + x.failed))

/-- The two counts of consecutive tests of a kind: one goes on, the other starts anew. -/
def bump (l : List Nat) (k : Nat) (b : Bool) : List Nat := setNth l k (if b then min (nth l k 0 + 1) 15 else 0)

/-- The reading of cell n in a slot of the open-wire window, in µV (R144, R162): the slot result of its conversions by the converter that runs the frame
(R149), with calibration. -/
def windowReading (n : Nat) (cs : List Conversion) (s : State) : Int :=
  let r := openDiv (slotResult (keptConversions .window .window cs s)) 342
  calCorrect ((if getF Reg.XCK_STAT_MODE s = 1 then 24 else 48) + n) r s / 256

/-- OPEN_WIRE_TEST (R144, R162-R164, R166, R167, R177): the next scheduled tap k is tested. Operands: the conversions of slots 43, 44, 48 and 49, the
baselines of cells k and k + 1 and their readings with the current flowing. A response is rounded down to the 0.1 mV of `XCK_OWLAST` (DESIGN CHOICE
notes/assumptions/48.md). -/
def execOpenWireTest (baseLo baseHi withLo withHi : List Conversion) (s : State) : Out :=
  match s.xck.due with
  | [] => .next s
  | (k, isSweep) :: rest =>
    if !secondaryRuns s || testsSuspended s then .next s
    else
      let dl := windowReading k withLo s - windowReading k baseLo s
      let dh := if k = 24 then 0 else windowReading (k + 1) withHi s - windowReading (k + 1) baseHi s
      let failed := decide (12000 ≤ dl) && (k == 24 || decide (dh ≤ -12000))
      let weak := decide (mag dl < 2000) && (k == 24 || decide (mag dh < 2000))
      let pulsed := s.cms.pulsed.zipIdx.map (fun e => if e.2 = k ∨ (e.2 = k + 1 ∧ k < 24) then some s.now else e.1)
      let x := s.xck
      let s1 := { s with
        cms := { s.cms with pulsed := pulsed }
        xck := { x with
          due := rest, suspects := judgeSuspect k failed x.suspects
          owFail := bump x.owFail k failed, owPass := bump x.owPass k (!failed), owWeak := bump x.owWeak k weak
          sweepTap := if isSweep then (if k = 24 then 0 else k + 1) else x.sweepTap } }
      let s2 := s1 |> setF Reg.XCK_OWLAST_TAP k |> setF Reg.XCK_OWLAST_DLO (unsigned 12 (clampI (dl / 100) (-2048) 2047))
                   |> setF Reg.XCK_OWLAST_DHI (unsigned 12 (clampI (dh / 100) (-2048) 2047))
      let s3 := if 2 ≤ nth s2.xck.owWeak k 0 then countOnce 48 s2 else if natMem 48 s2.flt.lines && s2.xck.owWeak.all (· < 2) then drop 48 s2 else s2
      let s4 := if 2 ≤ nth s3.xck.owFail k 0 && !tapOpen k s3 then declareOpen k s3
                else if 2 ≤ nth s3.xck.owPass k 0 && tapOpen k s3 then clearOpen k s3 else s3
      .next (if s4.xck.suspects.length < s.xck.suspects.length then standingTrips (tapCells k) s4 else s4)

/-- SUSPECT_HOLD_EXPIRY (R166, R226): 40 ms after tap k became suspect. -/
def execSuspectHoldExpiry (k : Nat) (s : State) : Out :=
  if s.xck.suspects.any (fun x => x.tap == k && x.hold && decide (x.since + 40 * ms ≤ s.now)) then
    let l := (s.xck.suspects.map (fun x => if x.tap = k then { x with hold := false } else x)).filter
      (fun x => !(x.tap == k && 2 ≤ x.passed + x.failed))
    .next (standingTrips (tapCells k) { s with xck := { s.xck with suspects := l } })
  else .next s

/-- Whether tap Cn looks suspect between the last two interval means (R163). -/
def looksSuspect (n : Nat) (s : State) : Bool :=
  let x := s.xck
  let d (k : Nat) : Int := nth x.pmean (k - 1) 0 - nth x.pprev (k - 1) 0
  let big := decide (50000 ≤ mag (d n))
  if n < 24 then
    big && decide (d n * d (n + 1) < 0) && decide (mag (d n + d (n + 1)) ≤ 10000) && decide (mag (nth x.pairMean (n - 1) 0 - nth x.pairPrev (n - 1) 0) ≤ 10000)
  else
    big && bit Reg.XCK_CFG_VMSW s && decide (mag (residue24 x.pmean x.vmsns - residue24 x.pprev x.vmsnsPrev) ≤ 10000)

/-- The suspect check of every tap (R163, R166, R210): a new suspect holds the reactions of its cells and ends a plan with SENSE. -/
def suspectCheck (s : State) : State :=
  if s.xck.intervals < 2 || !cellsServed s then s
  else
    let new := ((List.range 24).map (· + 1)).filter (fun n =>
      looksSuspect n s && !tapOpen n s && !(s.xck.suspects.any (fun x => x.tap == n)))
    if new = [] then s
    else
      let l := ((List.range 24).map (· + 1)).filterMap (fun n =>
        match s.xck.suspects.find? (fun x => x.tap == n) with
        | some x => some x
        | none => if new.contains n then some ⟨n, 0, 0, true, s.now⟩ else none)
      planAbort 10 { s with xck := { s.xck with suspects := l } }

/-- The rule for C0 (R164), at every interval comparison. -/
def checkC0 (s : State) : State :=
  if !cellsServed s then s
  else
    let cond := decide (nth s.xck.pmean 0 0 < -600000) && decide (1000000 < nth s.xck.pairMean 0 0)
    let f := if cond then min (s.xck.c0Fail + 1) 15 else 0
    let p := if cond then 0 else min (s.xck.c0Pass + 1) 15
    let s1 := { s with xck := { s.xck with c0Fail := f, c0Pass := p } }
    if 2 ≤ f && !tapOpen 0 s1 then declareOpen 0 s1 else if 2 ≤ p && tapOpen 0 s1 then clearOpen 0 s1 else s1

/-! ## INTERVAL_BOUNDARY -/

/-- Sources whose condition holds through an interval count one event in it (R177); then a new interval begins. -/
def countInterval (s : State) : State :=
  let s1 := [43, 44, 47, 48].foldl (fun t src => if natMem src t.flt.lines then countOnce src t else t) s
  let s2 := if natMem 49 s1.xck.counted then s1 else drop 49 s1
  { s2 with xck := { s2.xck with counted := [] } }

/-- The interval's record of the bleed paths closes (R171, R236): in how many halves of it each conducted, and in how many intervals alike; a half whose
time is over closes with it. -/
def closeBleed (s : State) : State :=
  let s1 := if s.xck.halfAt.any (fun t => decide (t + 7812500 ≤ s.ft)) then closeHalf (noteBleed s) else noteBleed s
  let run := s1.xck.balRun.zipIdx.map (fun e =>
    let b := nth s1.xck.balInt e.2 ⟨0, false, false⟩
    if b.part then (3, 0) else if e.1.1 = b.full then (b.full, e.1.2 + 1) else (b.full, 1))
  { s1 with xck := { s1.xck with balRun := run } }

/-- An enabled auxiliary input's result of the interval that ends carries OVR, which is source 49's condition in it (R177). -/
def countAuxOver (s : State) : State :=
  if getF Reg.XCK_STAT_MODE s != 3 && (List.range 16).any (fun k => auxServed k s && (intervalReading (48 + k) s).ovr) then countOnce 49 s else s

/-- A new interval begins on the secondary side (R143): no slot result, no conduction. -/
def openInterval (s : State) : State :=
  noteBleed { s with xck := { s.xck with
    slots := s.xck.slots.map (fun x => ⟨0, 0, false, x.last⟩), frame := 0, intervalAt := s.ft
    balInt := List.replicate 24 ⟨0, false, false⟩, modeChanged := false, firstInterval := false, secSettle := List.replicate 24 false
    fallSettle := List.replicate 24 false } }

/-- The secondary side starts at ACTIVE entry (R146, R150): its results hold no measurement, and its first interval, which has no slot result yet, lasts
to the next 64 Sa/s boundary. -/
def startSecondary (s : State) : State :=
  let r := XckState.reset
  invalidateAll { s with xck := { s.xck with
    firstInterval := true, intervals := 0, slots := r.slots, frame := 0, gainTurn := 0, due := [], later := [], counted := []
    balInt := r.balInt, balRun := r.balRun, halfAt := none } }

/-- INTERVAL_BOUNDARY (R143, R145, R154, R155, R163, R165, R175, R177, R207): the interval that ends now closes its results from its slots. `prim`: for
each cell the samples of its internal stream in the interval, after vendor trim. -/
def execIntervalBoundary (prim : List (List Int)) (s : State) : Out :=
  if secondaryRuns s then
    let s0 := closeBleed (countInterval (countAuxOver s))
    let (cor, un) := primaryMeans prim s0
    let rs := (List.range 64).map (fun j => intervalReading j s0)
    let raw := (List.range 24).map (fun k => secondaryCode (k + 1) (nth rs k ⟨0, false⟩) s0 / 256)
    let s1 := if getF Reg.XCK_STAT_MODE s0 = 3 then s0 else closeOthers rs (closeCells rs s0)
    let x := s1.xck
    let s2 := { s1 with
      free := if compensates s1 then s1.free + 32 else s1.free
      xck := { x with
        pprev := x.pmean, pmean := cor, uncorrected := un
        psettle := (List.range 24).map (fun k => x.firstInterval || meanSettles (k + 1) s1.ft s1)
        pairPrev := x.pairMean
        pairMean := (List.range 23).map (fun k => 2 * resultValue (reg s1 (Reg.XCK_PAIR k)))
        vmsnsPrev := x.vmsns, vmsns := getBits (reg s1 Reg.XCK_VMOD) 0 24
        intervals := min (x.intervals + 1) 2 } }
    let s3 := openInterval (superviseOpen (sumCheck s2))
    .next (noteWindow (sendPairTick (scheduleTests (harnessInterval raw s3))))
  else .next s

/-- FALLBACK_RESULT (R145, R149, R160, R499): a result closes for each cell whose primary path is fenced: the mean of its last 8 slot results, or of its last
4 in single-converter mode. -/
def execFallbackResult (s : State) : Out :=
  if secondaryRuns s then
    let s1 := (List.range 24).foldl (fun t k =>
      let n := k + 1
      let r := latestReading k (if getF Reg.XCK_STAT_MODE s = 0 then 8 else 4) s
      if regBit Reg.CMS_FENCE n t then
        let w := resultWord (reg t (Reg.XCK_CELL k)) (cellMeasured n t) (t.xck.fallChanged || nth t.xck.fallSettle k false || cellsSuspect t) (openAt n t) r.ovr
          (secondaryValue n r (fallbackFraction s) t)
        setReg (Reg.XCK_CELL k) w { t with xck := { t.xck with fall := setNth t.xck.fall k (some w) } }
      else t) s
    .next { s1 with
      free := if compensates s then s1.free + 32 else s1.free
      xck := { s1.xck with fallChanged := false, fallSettle := s1.xck.fallSettle.zipIdx.map (fun e => e.1 && !(regBit Reg.CMS_FENCE (e.2 + 1) s && cellMeasured (e.2 + 1) s)) } }
  else .next s

/-- Whether a converter's self-check fails (R177): in four cycles in a row, or with an output bit that has not changed over 4096 conversions. -/
def SelfCheck.failing (x : SelfCheck) : Bool := 4 ≤ x.fails || x.still.any (4096 ≤ ·)

/-- CONVERTER_SELF_CHECK (R177): source 43 or 44 follows the self-check of XA or XB. -/
def execConverterSelfCheck (xb : Bool) (s : State) : Out :=
  let src := if xb then 44 else 43
  if secondaryRuns s && !(unusedCells s && !xb) then
    .next (if (if xb then s.xck.checkB else s.xck.checkA).failing then countOnce src s else drop src s)
  else .next s

/-! ## The cross-check -/

/-- The limit in force in µV (R156). -/
def crossLimit (s : State) : Int :=
  let l : Int := (getF Reg.XCK_CFG_XLIM s : Int) * 250
  if getF Reg.CAL_STAT_SRC s = 0 then max l 6500 else l

/-- The primary mean of cell n in this interval carries no SETTLE (R155): a settling event after the boundary can still reach the interval's last
samples. -/
def meanSettled (n : Nat) (s : State) : Bool := !nth s.xck.psettle (n - 1) true && !meanSettles n s.xck.intervalAt s

/-- Whether cell n is compared in this interval (R155, R157). -/
def compared (n : Nat) (s : State) : Bool :=
  let w := nth s.xck.second (n - 1) 0#32
  !regBit Reg.CMS_FENCE n s && !regBit Reg.FLT_FENCE1 n s && resultValid w && !resultSettle w && meanSettled n s

/-- Whether the comparison of cell n fails. -/
def comparisonFails (n : Nat) (s : State) : Bool :=
  decide (crossLimit s < mag (nth s.xck.pmean (n - 1) 0 - resultValue (nth s.xck.second (n - 1) 0#32)))

/-- Whether a pair result can be used (R158). -/
def pairAvailable (k : Nat) (s : State) : Bool :=
  let w := reg s (Reg.XCK_PAIR (k - 1))
  resultValid w && !resultSettle w && !w.getLsbD 29

/-- Whether pair k agrees with the primary sum of its cells within twice the limit. -/
def pairAgrees (k : Nat) (s : State) : Bool :=
  decide (mag (nth s.xck.pmean (k - 1) 0 + nth s.xck.pmean k 0 - nth s.xck.pairMean (k - 1) 0) ≤ 2 * crossLimit s)

/-- Who is at fault in a failing comparison. -/
inductive Blame
  | primary
  | secondary
  | unresolved
  deriving DecidableEq, Repr

/-- The decision of R158 for cell n; a pair whose other cell's primary mean carries SETTLE takes no part in it (R155). -/
def decideBlame (n : Nat) (s : State) : Blame :=
  let usable (k other : Nat) : Bool := 1 ≤ k && k ≤ 23 && pairAvailable k s && nth s.xck.passed (other - 1) false && meanSettled other s
  let l := (if usable (n - 1) (n - 1) && 2 ≤ n then [pairAgrees (n - 1) s] else []) ++ (if usable n (n + 1) then [pairAgrees n s] else [])
  if l.any (· == true) && !l.any (· == false) then .secondary
  else if l.any (· == false) && !l.any (· == true) then .primary
  else .unresolved

/-- Source 46 (R177): a pair differs from its cells while both pass, in PERS consecutive intervals. -/
def pairChecks (s : State) : State :=
  let upd := (List.range 23).map (fun j =>
    let k := j + 1
    let old := nth s.xck.pairFail j 0
    if compared k s && compared (k + 1) s && pairAvailable k s then
      if nth s.xck.passed (k - 1) false && nth s.xck.passed k false && !pairAgrees k s then min (old + 1) 15 else 0
    else old)
  let active := upd.any (fun c => getF Reg.XCK_CFG_PERS s ≤ c)
  let s1 := { s with xck := { s.xck with pairFail := upd } }
  if active then pulse 46 (setLine 46 true s1) else drop 46 s1

/-- A source of the cross-check stands in this interval, or not (R177). -/
def intervalSource (src : Nat) (active : Bool) (s : State) : State := if active then pulse src (setLine src true s) else drop src s

/-- The comparisons of one interval (R155-R159). -/
def crossCheck (s : State) : State :=
  let cells := ((List.range 24).map (· + 1)).filter (fun n => compared n s)
  let failing := cells.filter (fun n => comparisonFails n s)
  let x := s.xck
  let fails := x.fails.zipIdx.map (fun e =>
    if cells.contains (e.2 + 1) then (if failing.contains (e.2 + 1) then min (e.1 + 1) 15 else 0) else e.1)
  let passed := x.passed.zipIdx.map (fun e => if cells.contains (e.2 + 1) then !failing.contains (e.2 + 1) else e.1)
  let mis := cellMask (fun n => if cells.contains n then failing.contains n else regBit Reg.XCK_XMIS n s)
  let s1 := setReg Reg.XCK_XMIS mis { s with xck := { x with fails := fails, passed := passed } }
  let verdicts := (failing.filter (fun n => getF Reg.XCK_CFG_PERS s ≤ nth fails (n - 1) 0)).map (fun n => (n, decideBlame n s1))
  let named (b : Blame) : List Nat := (verdicts.filter (fun e => e.2 == b)).map (·.1)
  let s2 := s1 |> setReg Reg.XCK_BLAMEP (reg s1 Reg.XCK_BLAMEP ||| cellMask (fun n => (named .primary).contains n))
               |> setReg Reg.XCK_BLAMES (reg s1 Reg.XCK_BLAMES ||| cellMask (fun n => (named .secondary).contains n))
  let s3 := if cells = [] ∧ cellMask (fun n => regBit Reg.CMS_FENCE n s || regBit Reg.FLT_FENCE1 n s) = 0#32 then s2
    else s2 |> intervalSource 40 (named .primary != []) |> intervalSource 41 (named .secondary != []) |> intervalSource 42 (named .unresolved != [])
  extendBlame (pairChecks s3)

/-- CROSS_CHECK_COMPARISON (R155-R159, R163, R164): within 2 ms after the boundary; suspended during a calibration run and a harness
measurement (R157, R175), and without secondary results (R149, R150), while the suspect and C0 rules go on. -/
def execCrossCheckComparison (s : State) : Out :=
  if secondaryRuns s then
    let s1 := if calRunning s || s.xck.harness.isSome || !cellsServed s then s else crossCheck s
    .next (noteWindow (checkC0 (suspectCheck s1)))
  else .next s

/-! ## The balancing gate -/

/-- The gate period that `XCK_BALCFG.GATEPER` selects, ns (R173). -/
def gatePeriod (s : State) : Nat := nth [250, 1000, 10000] (getF Reg.XCK_BALCFG_GATEPER s) 0 * ms

/-- BALANCING_GATE_START (R173): in gate mode every switch opens at a whole multiple of the gate period, up to one core clock past it, at most 6 ns. -/
def execBalancingGateStart (s : State) : Out :=
  if s.sys.phase = .active ∧ getF Reg.XCK_BALCFG_MODE s = 2 ∧ s.ft % gatePeriod s < 6 then
    .next (enforceSwitches { s with xck := { s.xck with gate := some s.now } })
  else .next s

/-- How long a gate holds the switches open (R173): the settle time in force, one word period and 2 ms. -/
def gateTime (s : State) : Nat := windowTime s + wordPeriod (rateNow s) + 2 * ms

/-- BALANCING_GATE_END (R173). -/
def execBalancingGateEnd (s : State) : Out :=
  if s.xck.gate.any (fun t => decide (t + leastSpan (gateTime s) ≤ s.now)) then
    .next (enforceSwitches { s with xck := { s.xck with gate := none } })
  else .next s

end Sys2Proof.Machine
end

