-- ==== Sys2Proof/Machine/Cnv.lean ====
section
/-!
DEFINITION. Sys2Proof/Machine/Cnv.lean: the module-to-bus converter (spec/08_converter.md, R255-R300; R71, R192), and the word boundary, whose test
of R20 can hold it off.
-/
namespace Sys2Proof.Machine

/-! ## Phases -/

/-- The phases whose bit is set in a 4-bit mask. -/
def phasesOf (m : Nat) : List Nat := (List.range 4).filter (fun n => m.testBit n)

/-- The mask of a list of phases. -/
def phaseMask (l : List Nat) : Nat := (l.map (fun n => 2 ^ n)).sum

/-- The phases that may switch (R256, R272, R287): fitted, not fenced, and without a bit in SENSE, RB or IMB; of a coupled pair, only both. -/
def availablePhases (s : State) : List Nat :=
  let free (n : Nat) : Bool := (getF Reg.CNV_PHCFG_PHEN s).testBit n && !(getF Reg.CNV_STAT_PHFEN s).testBit n &&
    !(getF Reg.CNV_PHFLT_SENSE s).testBit n && !(getF Reg.CNV_PHFLT_RB s).testBit n && !(getF Reg.CNV_PHFLT_IMB s).testBit n
  (List.range 4).filter (fun n => free n &&
    (!bit Reg.CNV_PHCFG_CPL s || !(getF Reg.CNV_STAT_PHFEN s).testBit ((n + 2) % 4)))

/-- The phases that switch at a shedding level (R279). -/
def phasesAtLevel (level : Nat) (l : List Nat) : List Nat :=
  match level with
  | 0 => l
  | 1 => if l.length ≤ 3 then l.take 2 else l.take 1 ++ (l.drop 2).take 1
  | _ => l.take 1

/-- The converter's state code (R271). -/
def cnvState (s : State) : Nat := getF Reg.CNV_STAT_STATE s

/-- Whether the phases switch. -/
def switching (s : State) : Bool := cnvState s == 3 || cnvState s == 4 || cnvState s == 6

/-- Whether the converter acts in bus regulation: the class read at START, or while it is OFF the class selected. -/
def busRegulation (s : State) : Bool := if cnvState s = 0 then getF Reg.CNV_CFG_CLASS s == 1 else s.cnv.cls == 1

/-! ## Target, ramp and reference -/

/-- The selected bus target in mV (R262). -/
def busTarget (s : State) : Nat := getF (Reg.CNV_VTGT_VT (getF Reg.CNV_STAT_VSELACT s)) s

/-- The soft-start time in ns (R274). -/
def softTime (s : State) : Nat := getF Reg.CNV_SSCFG_TSS s * 100000

/-- The ramp value of R261 now: it moves from its last value to the target at the target / TSS per unit of time (R262, R274). -/
def rampValue (s : State) : Int :=
  let step := openDiv (busTarget s * (s.now - s.cnv.rampT)) (softTime s)
  if s.cnv.rampV ≤ busTarget s then min (s.cnv.rampV + step) (busTarget s) else max (s.cnv.rampV - step) (busTarget s)

/-- The mean of the total current over the last 1 ms as a sum and a number of periods. -/
def meanTotal (s : State) : Int × Nat := ((s.cnv.samples.map (·.2)).sum, s.cnv.samples.length)

/-- The voltage reference of R261 in mV. -/
def voltageReference (s : State) : Int :=
  let (sum, n) := meanTotal s
  let droop : Int := getF Reg.CNV_DROOP_DROOP s
  min (rampValue s) (busTarget s) - (if n = 0 then 0 else openDiv (sum * droop) (5120 * n))

/-- A new target begins to act (R262): while the ramp runs, it goes on from its present value. -/
def moveTarget (s0 s : State) : State :=
  if busRegulation s0 && (cnvState s0 == 3 || cnvState s0 == 4) then
    { s with cnv := { s.cnv with rampV := (rampValue s0).toNat, rampT := s.now } }
  else s

/-- The latest sensed bus voltage in mV (R300). -/
def busVoltage (s : State) : Nat := getF Reg.CNV_VBS_VBS s % 65536

/-- A target code is accepted (R262). -/
def acceptCode (code : Nat) (s : State) : State := moveTarget s (setF Reg.CNV_STAT_VSELACT code s)

/-- The clamps of the total set-point of R260, R274 and R288, in the LSB of R260. -/
def classClamp (s : State) : Int :=
  let full : Int := getF Reg.CNV_IAVG_IAVG s * (phasesOf (getF Reg.CNV_STAT_ACT s)).length * 512
  let base := if bit Reg.CNV_STAT_DEGR s then openDiv full 20 else openDiv full 10
  if cnvState s = 3 ∧ s.cnv.cls = 2 then min base (openDiv (full * (s.now - s.cnv.softT)) (10 * softTime s)) else base

/-- The clamp of the total set-point: in STOPPING the ramp of R276 beside the others. -/
def setPointClamp (s : State) : Int :=
  if cnvState s = 6 then
    min (classClamp s) (max 0 ((s.cnv.stopI : Int) - openDiv (s.cnv.stopI * (s.now - s.cnv.stopT)) (softTime s)))
  else classClamp s

/-! ## Stops and starts -/

/-- No trim (R270). -/
def clearTrims (s : State) : State :=
  setReg Reg.CNV_TRIMST 0#32 { s with cnv := { s.cnv with trim := List.replicate 4 0, trimSince := List.replicate 4 none } }

/-- Every switch off and GDEN low; nothing of the running state stays, no trim among it, since the active phases change (R270, R277). -/
def quiet (s : State) : State :=
  let s1 := clearTrims s |> setF Reg.CNV_STAT_ACT 0 |> setF Reg.CNV_STAT_LEVEL 0 |> setB Reg.CNV_STAT_BRK false |> setB Reg.SYS_CLKSTAT_PPLLLK false
  { s1 with
    pins := { s1.pins with pwm := .low, gden := .low }
    cnv := { s1.cnv with
      shed := none, cutHigh := 0, cutLow := 0, limits := [], lowOff := 0, iset := 0, setPoints := [], part := 0, brakeLeft := 0 } }

/-- The converter leaves its switching states for a state without switching: `CNV_EVT.STOP` or FAULT, and the end of a plan (R198, R299). -/
def leaveRunning (dest : Nat) (s : State) : State :=
  let ran := switching s
  let s1 := if planActive s && cnvState s != 0 then planAbort 4 s else s
  let s2 := setF Reg.CNV_STAT_STATE dest (quiet s1)
  let s3 := if ran && (dest == 0 || dest == 1) then setEvt .cnv 2 s2 else s2
  let s4 := if dest = 8 then setEvt .cnv 4 { s3 with cnv := { s3.cnv with faultAt := some s.now } } else s3
  excitationStops s4

/-- IMMEDIATE_STOP (R277): from any state but OFF, FAULT and CROWBAR. -/
def immediateStop (dest : Nat) (s : State) : State :=
  if cnvState s = 0 ∨ cnvState s = 8 ∨ cnvState s = 7 then s else leaveRunning dest s

/-- A commanded stop (R271, R276). -/
def commandedStop (s : State) : State :=
  let s1 := { s with cnv := { s.cnv with hic := 0 } }
  match cnvState s with
  | 1 | 2 | 5 => leaveRunning 0 s1
  | 3 | 4 =>
    let s2 := if planActive s1 then planAbort 4 s1 else s1
    setF Reg.CNV_STAT_STATE 6 { s2 with cnv := { s2.cnv with stopT := s.now, stopI := (signed 16 (getF Reg.CNV_ITOT_ITOT s % 65536)).natAbs, shed := none } }
  | _ => s

/-- CHECK begins (R272, R273): the first sampling, with GDEN low. -/
def enterCheck (s : State) : State :=
  let s1 := setF Reg.CNV_STAT_STATE 2 (quiet s)
  { s1 with pins := { s1.pins with pwm := .startTests }, cnv := { s1.cnv with part := 1, stopT := s.now } }

/-! ## PWM -/

/-- The nominal PWM period in steps of the delay line, without spread (R264). -/
def nominalPeriod (s : State) : Nat :=
  let f := getF Reg.CNV_PHCFG_FSW s
  (2 * 260000 + f) / (2 * f) * 32

/-- The depth of the PWM spread in 1/8000 (R83). -/
def spreadDepth (code : Nat) : Nat :=
  match code with
  | 0 => 0
  | 1 => 100
  | 2 => 200
  | _ => 400

/-- The triangle of the spread at a time in ns (R267), in 1/250000: one period each millisecond, rising from 0. -/
def triangle (t : Nat) : Int :=
  let r : Int := (t % ms : Nat)
  if r < 250000 then r else if r < 750000 then 500000 - r else r - 1000000

/-- The period at the internal frequency, with the spread in force (R267); after a loss of sync there is none until its time (R285). -/
def internalPeriod (s : State) : Nat :=
  let p : Int := nominalPeriod s
  if s.now < s.cnv.spreadFrom then p.toNat else (p + openDiv (p * spreadDepth s.sys.pwmSpread * triangle s.now) (8000 * 250000)).toNat

/-- The period that the PWM moves to (R284, R285): the CSYNC period while it tracks, else that of the internal frequency. A CSYNC period in ns is
8.32 steps to the ns. -/
def wantedPeriod (s : State) : Nat := if s.cnv.tracking then s.cnv.csync * 832 / 100 else internalPeriod s

/-- The next period: tracking CSYNC, or on the way back from it, it changes by at most 0.1 % (R284, R285). -/
def nextPeriod (s : State) : Nat :=
  let p := s.cnv.period
  let want := wantedPeriod s
  if s.cnv.tracking || s.cnv.slew then (if p < want then min want (p + p / 1000) else max want (p - p / 1000)) else want

/-- The offset of the k-th of `count` active phases from phase 0, in steps, ties rounded up (R264). -/
def phaseOffset (k count period : Nat) : Nat := (2 * k * period + count) / (2 * count)

/-- The edges of a phase's period (R264): duty in 2^-16 of the period, dead time in ns, which is 8.32 steps to the ns; each edge on the nearest step. -/
def phaseEdges (offset period duty dead : Nat) : PwmEdges :=
  let gap := (2 * dead * 832 + 100) / 200
  let fall := offset + (2 * duty * period + 65536) / 131072
  ⟨offset, offset + gap, fall, fall + gap⟩

/-- The interleave offsets and edges of the active phases, from the period in force (R256, R264, R287); other phases have none. While CSYNC is locked
phase 0 stands off its edge by PHOFF / 256 of that period (R284). -/
def placeEdges (s : State) : State :=
  let act := phasesOf (getF Reg.CNV_STAT_ACT s)
  let off := (List.range 4).map (fun n => if act.contains n then phaseOffset (act.filter (· < n)).length act.length s.cnv.period else 0)
  let edges := (List.range 4).map (fun n =>
    if act.contains n then phaseEdges (nth off n 0) s.cnv.period (nth s.cnv.duty n 0) (nth s.cnv.dead n 0) else ⟨0, 0, 0, 0⟩)
  { s with cnv := { s.cnv with
    offsets := off, edges := edges
    syncOff := if bit Reg.CNV_STAT_SYNCLK s then getF Reg.CNV_SYNC_PHOFF s * s.cnv.period / 256 else s.cnv.syncOff } }

/-- The dead time of the present temperature band in ns, at least 10 (R265). -/
def deadTime (s : State) : Nat :=
  max 10 (match getF Reg.THM_STAT_BAND s with
    | 0 => getF Reg.CNV_DT_DTC s
    | 1 => getF Reg.CNV_DT_DTN s
    | 2 => getF Reg.CNV_DT_DTW s
    | _ => getF Reg.CNV_DT_DTH s)

/-- The duty of the first period, before a compensator has run: dff alone within DMIN to DMAX (R266, R268; DESIGN CHOICE notes/assumptions/88.md). -/
def firstDuty (s : State) : Nat := (clampI s.cnv.dff (getF Reg.CNV_DLIM_DMIN s) (getF Reg.CNV_DLIM_DMAX s)).toNat

/-- SOFTSTART begins (R274) with VBS at `vbs` mV. The first period is the one wanted, without spread while CSYNC is locked (R267, R284). -/
def enterSoftStart (vbs : Nat) (s : State) : State :=
  let s1 := clearTrims s |> setF Reg.CNV_STAT_STATE 3 |> setF Reg.CNV_STAT_ACT (phaseMask (availablePhases s)) |> setF Reg.CNV_STAT_LEVEL 0
    |> setB Reg.SYS_CLKSTAT_PPLLLK true |> setReg Reg.CNV_VBS (BitVec.ofNat 32 (min vbs 65535))
  placeEdges { s1 with
    pins := { s1.pins with pwm := .switching, gden := .high }
    cnv := { s1.cnv with
      part := 0, softT := s.now, rampT := s.now, rampV := min vbs (busTarget s), samples := [], phSum := List.replicate 4 0, phCnt := 0
      period := wantedPeriod s, slew := false, dead := List.replicate 4 (deadTime s), duty := List.replicate 4 (firstDuty s)
      errs := List.replicate 4 (List.replicate 3 0), outs := List.replicate 4 (List.replicate 3 0) } }

/-- Whether R20 or R28 holds the converter off. -/
def converterHeldOff (s : State) : Bool := unusedCells s || bit Reg.SYS_STRAPSTAT_LCM s

/-- The reason of R294 for which a START fails its checks, 0 when none. -/
def startReason (s : State) : Nat :=
  let cls := getF Reg.CNV_CFG_CLASS s
  let t := busTarget s
  let peak := max (getF Reg.CNV_ILIM_IPK s) (getF Reg.CNV_ILIM_INEG s)
  if cls = 0 then 1
  else if cls = 1 ∧ (t < 12000 ∨ 60000 < t) then 2
  else if (phasesOf (getF Reg.CNV_PHCFG_PHEN s)).any (fun n => decide (5000000 < 3 * peak * getF (Reg.CNV_CSG_CSG n) s)) then 3
  else if s.cnv.vmod < 20000 ∨ 140000 < s.cnv.vmod then 4
  else if cnvState s = 8 ∨ cnvState s = 7 then 5
  else if availablePhases s = [] then 6
  else if cls = 1 ∧ (t * 65536 < getF Reg.CNV_DLIM_DMIN s * s.cnv.vmod ∨ getF Reg.CNV_DLIM_DMAX s * s.cnv.vmod < t * 65536) then 7
  else 0

/-- A write of 1 to `CNV_CMD.START` (R294). Outside ACTIVE the converter does not run (R259): DESIGN CHOICE notes/assumptions/16.md, the
write completes with OK and has no effect. -/
def startConverter (s : State) : Done :=
  if bit Reg.FLT_FENCE0_CNV s || converterHeldOff s then Done.refuse .refusedFenced s
  else if cnvState s = 6 then Done.busy (s.cnv.stopT + softTime s - s.now) s
  else if s.sys.transition.isSome then Done.busyFree s
  else if s.sys.phase ≠ .active then Done.ok s
  else if startReason s ≠ 0 then Done.refuse .checkFail (setF Reg.CNV_STAT_ERR (startReason s) s)
  else if cnvState s ≠ 0 then Done.ok s
  else
    let s1 := setF Reg.CNV_STAT_ERR 0 s
    let s2 := clearTrims { s1 with cnv := { s1.cnv with cls := getF Reg.CNV_CFG_CLASS s, hic := 0 } }
    if s2.cnv.cls = 1 ∨ s2.cnv.busOk then Done.ok (enterCheck s2) else Done.ok (setF Reg.CNV_STAT_STATE 1 s2)

/-- Whether writes of `CNV_CMD` are refused (R288). -/
def cnvRefuses (s : State) : Bool := bit Reg.FLT_FENCE0_CNV s && cnvState s != 7

/-- A write of 1 to `CNV_CMD.CLRFLT` (R282, R293). -/
def clearConverterFault (s : State) : State :=
  if cnvState s = 8 then setF Reg.CNV_STAT_STATE 0 (quiet s)
  else if cnvState s = 7 ∧ busVoltage s < busTarget s then setF Reg.CNV_STAT_STATE 0 (quiet s)
  else s

/-- CNV_START (R294). -/
def execCnvStart (s : State) : Out := if coreUp s then (startConverter s).out else .next s

/-- CNV_STOP (R276, R288, R293). -/
def execCnvStop (s : State) : Out :=
  if coreUp s = false then .next s
  else if cnvRefuses s then (Done.refuse .refusedFenced s).out else (Done.ok (commandedStop s)).out

/-- CNV_CLRFLT (R282, R288, R293). -/
def execCnvClrflt (s : State) : Out :=
  if coreUp s = false then .next s
  else if cnvRefuses s then (Done.refuse .refusedFenced s).out else (Done.ok (clearConverterFault s)).out

/-- CNV_LOADC (R269, R288). -/
def execCnvLoadc (s : State) : Out :=
  if coreUp s = false then .next s
  else if cnvRefuses s then (Done.refuse .refusedFenced s).out
  else (Done.ok { s with cnv := { s.cnv with loadPend := true } }).out

/-- The shadow coefficient i of phase n as an integer (R269). -/
def shadowCoef (n i : Nat) (s : State) : Int := signed 24 (getBits (reg s (Reg.CNV_COEF0 n + 4 * i)) 0 24)

/-- A coefficient word as it is held (R269): the low 24 bits, sign-extended. -/
def coefWord (w : Word) : Word := (w <<< 8).sshiftRight 8

/-- COEFFICIENT_LOAD (R269): at the start of a period of phase 0; each other phase's history is cleared from its next period on. -/
def execCoefficientLoad (s : State) : Out :=
  if s.cnv.loadPend then
    .next { s with cnv := { s.cnv with
      loadPend := false, clearPend := 0xE
      coef := (List.range 4).map (fun n => (List.range 7).map (fun i => shadowCoef n i s)) } }
  else .next s

/-- A write of `CNV_CFG` (R262, R292): the source chosen gives the target code. -/
def writeCnvCfg (w : Word) (s : State) : State :=
  let s1 := setReg Reg.CNV_CFG w s
  let code := if getF Reg.CNV_CFG_VSRC s1 = 1 then getF Reg.CNV_VSELSW_CODE s1 else s.cnv.pinCode
  if code = getF Reg.CNV_STAT_VSELACT s1 then s1 else moveTarget s (setF Reg.CNV_STAT_VSELACT code s1)

/-- A write of `CNV_TRIMCFG` (R270): with EN 0 every trim stays 0. -/
def writeTrimCfg (w : Word) (s : State) : State :=
  let s1 := setReg Reg.CNV_TRIMCFG w s
  if bit Reg.CNV_TRIMCFG_EN s1 then s1 else clearTrims s1

/-- A CNV configuration register takes a value (R262, R269, R270). -/
def storeCnv (a : Nat) (w : Word) (s : State) : State :=
  if a = Reg.CNV_CFG then writeCnvCfg w s
  else if a = Reg.CNV_TRIMCFG then writeTrimCfg w s
  else if Reg.CNV_COEF0 0 ≤ a ∧ a < Reg.CNV_COEF0 4 then setReg a (coefWord w) s
  else setReg a w s

/-- A write of `CNV_VSELSW.CODE` (R262). -/
def writeVselsw (code : Nat) (s : State) : State :=
  let s1 := setF Reg.CNV_VSELSW_CODE code s
  if getF Reg.CNV_CFG_VSRC s1 = 1 then acceptCode code s1 else s1

/-- CNV_VSELSW_WRITE (R262). -/
def execCnvVselswWrite (code : Fin 4) (s : State) : Out :=
  if coreUp s then (Done.ok (writeVselsw code.val s)).out else .next s

/-- A write to a locked RWL register has no effect and is counted with its address (R4, R598). -/
def countViolation (a : Nat) (s : State) : State := s |> incSat Reg.SYS_LOCKSTAT_VIOL |> setF Reg.SYS_LOCKSTAT_ADDR (a / 4)

/-- A write of `CNV_VTGTk` (R262, R297, R4). -/
def writeVtgt (k mv : Nat) (s : State) : State :=
  if bit Reg.SYS_LOCKSTAT_LTGT s then countViolation (Reg.CNV_VTGT k) s
  else
    let s1 := setF (Reg.CNV_VTGT_VT k) mv s
    if getF Reg.CNV_STAT_VSELACT s = k then moveTarget s s1 else s1

/-- CNV_VTGT_WRITE (R262, R597). -/
def execCnvVtgtWrite (k : Fin 4) (mv : Fin 65536) (s : State) : Out :=
  if coreUp s then (Done.ok (writeVtgt k.val mv.val s)).out else .next s

/-- VSEL_CODE_ACCEPT (R262): a pin code has stood for 1 ms. -/
def execVselCodeAccept (code : Fin 4) (s : State) : Out :=
  if coreUp s then
    let s1 := { s with cnv := { s.cnv with pinCode := code.val } }
    .next (if getF Reg.CNV_CFG_VSRC s = 0 then acceptCode code.val s1 else s1)
  else .next s

/-- BUS_PRESENT (R263, R271): for 10 ms VBS has not lain below `vbs` mV. -/
def execBusPresent (vbs : Nat) (s : State) : Out :=
  if s.sys.phase = .active ∧ getF Reg.CNV_BUS_BUSMIN s ≤ vbs then
    let s1 := { s with cnv := { s.cnv with busOk := true } }
    .next (if cnvState s = 1 then enterCheck s1 else s1)
  else .next s

/-- BUS_LOSS (R271, R283): for 1 ms VBS has not lain above `vbs` mV. -/
def execBusLoss (vbs : Nat) (s : State) : Out :=
  let s1 := { s with cnv := { s.cnv with busOk := false } }
  if getF Reg.CNV_BUS_BUSMIN s ≤ vbs then .next s
  else if s.cnv.cls = 2 ∧ (cnvState s = 3 ∨ cnvState s = 4) then .next (pulse 77 (leaveRunning 1 s1)) else .next s1

/-! ## Start tests -/

/-- Whether a mean sense voltage in µV lies beyond 5 % of IPK on phase n (R272, R273): above, below. -/
def beyondTest (n : Nat) (v : Int) (s : State) : Bool :=
  decide (((getF Reg.CNV_ILIM_IPK s * getF (Reg.CNV_CSG_CSG n) s : Nat) : Int) < v * 200)

/-- Phases join a field of `CNV_PHFLT`. -/
def markPhases (f : Field) (l : List Nat) (s : State) : State := setF f (getF f s ||| phaseMask l) s

/-- Phases with a sense offset are excluded, with source 80 (R272). -/
def excludePhases (l : List Nat) (s : State) : State := if l = [] then s else pulse 80 (markPhases Reg.CNV_PHFLT_SENSE l s)

/-- The phases that are fitted and enabled (R256). -/
def enabledPhases (s : State) : List Nat := phasesOf (getF Reg.CNV_PHCFG_PHEN s)

/-- CHECK_SAMPLE_END (R272): bus regulation; `means`: the mean sense voltage of each phase over the 100 µs, in µV. With no phase left the converter
returns to OFF. -/
def execCheckSampleEnd (means : List Int) (s : State) : Out :=
  if cnvState s = 2 ∧ s.cnv.cls = 1 ∧ s.cnv.part = 1 ∧ s.cnv.stopT + 100 * us ≤ s.now then
    let s1 := excludePhases ((enabledPhases s).filter (fun n => beyondTest n (nth means n 0) s || beyondTest n (-(nth means n 0)) s)) s
    .next (if availablePhases s1 = [] then leaveRunning 0 s1
      else { s1 with pins := { s1.pins with gden := .high }, cnv := { s1.cnv with part := 3, stopT := s.now } })
  else .next s

/-- DRIVER_WAKE_DONE (R272, R274): 20 µs after GDEN rose; `vbs` is VBS in mV. -/
def execDriverWakeDone (vbs : Nat) (s : State) : Out :=
  if cnvState s = 2 ∧ s.cnv.part = 3 ∧ s.cnv.stopT + 20 * us ≤ s.now then .next (if availablePhases s = [] then leaveRunning 0 s else enterSoftStart vbs s) else .next s

/-- SHS_TEST_PART_END (R273): transfer class; `means` as above for this part, `vbsRise` the rise of VBS across the two parts and `vbs` VBS, in mV. -/
def execShsTestPartEnd (means : List Int) (vbsRise : Int) (vbs : Nat) (s : State) : Out :=
  if cnvState s = 2 ∧ s.cnv.cls = 2 ∧ (s.cnv.part = 1 ∧ s.cnv.stopT + 100 * us ≤ s.now ∨ s.cnv.part = 2 ∧ s.cnv.stopT + 50 * us ≤ s.now) then
    let shorted := (enabledPhases s).filter (fun n => beyondTest n (nth means n 0) s)
    let rose := decide (1000 < vbsRise)
    if shorted ≠ [] ∨ rose then
      let l := if shorted = [] then enabledPhases s else shorted
      .next (leaveRunning 8 (pulse 72 (markPhases Reg.CNV_PHFLT_SHS l s)))
    else
      let s1 := excludePhases ((enabledPhases s).filter (fun n => beyondTest n (-(nth means n 0)) s)) s
      if availablePhases s1 = [] then .next (leaveRunning 0 s1)
      else if s.cnv.part = 1 then .next { s1 with pins := { s1.pins with gden := .high }, cnv := { s1.cnv with part := 2, stopT := s.now } }
      else .next (enterSoftStart vbs s1)
  else .next s

/-- SOFT_START_COMPLETE (R271, R274): TSS after SOFTSTART began. -/
def execSoftStartComplete (s : State) : Out :=
  if cnvState s = 3 ∧ s.cnv.softT + softTime s ≤ s.now then
    .next (setEvt .cnv 1 (setF Reg.CNV_STAT_STATE 4 { s with cnv := { s.cnv with softT := s.now } }))
  else .next s

/-- In how many of the given periods the cycle limit acted on phase n. -/
def limitedPeriods (n : Nat) (l : List Nat) : Nat := (l.filter (fun m => m.testBit n)).length

/-- The phases limited in the present period and in those before it, latest first. -/
def limitHistory (s : State) : List Nat := (s.cnv.cutHigh ||| s.cnv.cutLow) :: s.cnv.limits.map (·.2)

/-- What a short is (R275): in SOFTSTART the cycle limit acts in 8 of the last 16 periods of an active phase while VBS lies more than BAND below the
reference; in RUN, VBS lies below the under-voltage limit. -/
def shortStands (s : State) : Bool :=
  let band : Nat := max 500 (getF Reg.CNV_SSCFG_SSBAND s * busTarget s / 50)
  if cnvState s = 3 then
    (phasesOf (getF Reg.CNV_STAT_ACT s)).any (fun n => 8 ≤ limitedPeriods n ((limitHistory s).take 16)) &&
      decide (((busVoltage s + band : Nat) : Int) < voltageReference s)
  else decide (busVoltage s * 200 < busTarget s * (200 - getF Reg.CNV_BUS_UVP s))

/-- SHORT_DETECT (R271, R275): in bus regulation. -/
def execShortDetect (s : State) : Out :=
  if s.cnv.cls = 1 ∧ (cnvState s = 3 ∨ cnvState s = 4) ∧ shortStands s then
    let s1 := pulse 77 s
    if s.cnv.hic < getF Reg.CNV_SSCFG_HICNT s then
      let s2 := pulse 74 (incSat Reg.CNV_EVTCNT_HICCUP (leaveRunning 5 s1))
      .next { s2 with cnv := { s2.cnv with hic := s.cnv.hic + 1, stopT := s.now } }
    else .next (pulse 75 (leaveRunning 8 s1))
  else .next s

/-- The off time of HICCUP in ns (R275). -/
def hiccupTime (s : State) : Nat := max (10 * ms) (10 * softTime s)

/-- HICCUP_OFF_ELAPSED (R271, R275). -/
def execHiccupOffElapsed (s : State) : Out :=
  if cnvState s = 5 ∧ s.cnv.stopT + hiccupTime s ≤ s.now then .next (enterCheck s) else .next s

/-- HICCUP_COUNT_CLEAR (R275): RUN has lasted 1 s; a short would have ended it. -/
def execHiccupCountClear (s : State) : Out :=
  if cnvState s = 4 ∧ s.cnv.softT + 1000 * ms ≤ s.now then .next { s with cnv := { s.cnv with hic := 0 } } else .next s

/-- RAMP_DOWN_COMPLETE (R271, R276): TSS after STOPPING began. -/
def execRampDownComplete (s : State) : Out :=
  if cnvState s = 6 ∧ s.cnv.stopT + softTime s ≤ s.now then .next (leaveRunning 0 s) else .next s

/-! ## Switching -/

/-- Whether no enabled phase remains unfenced (R287). -/
def allFenced (s : State) : Bool :=
  (enabledPhases s).all (fun n => (getF Reg.CNV_STAT_PHFEN s).testBit n || (bit Reg.CNV_PHCFG_CPL s && (getF Reg.CNV_STAT_PHFEN s).testBit ((n + 2) % 4)))

/-- The set of switching phases follows what may switch and the shedding level, and the interleave with it (R270, R279, R287); with none left, an
immediate stop. -/
def refreshPhases (s : State) : State :=
  if switching s then
    let l := phasesAtLevel (getF Reg.CNV_STAT_LEVEL s) (availablePhases s)
    let m := phaseMask l
    if l = [] then immediateStop 0 s
    else if m = getF Reg.CNV_STAT_ACT s then s
    else placeEdges (clearTrims (setF Reg.CNV_STAT_ACT m s))
  else if allFenced s then immediateStop 0 s else s

/-- Saturation to 18 bits (R268). -/
def sat18 (v : Int) : Int := clampI v (-131072) 131071

/-- The share of the set-point that phase n follows (R268, R279): while a shed window is open, the share of the departing phases falls
linearly over its eight periods and the others carry the rest. -/
def phaseReference (n : Nat) (s : State) : Int :=
  let act := phasesOf (getF Reg.CNV_STAT_ACT s)
  let even := s.cnv.iset.tdiv act.length
  match s.cnv.shed with
  | none => even
  | some (level, left) =>
    let stay := phasesAtLevel level (availablePhases s)
    let part := (even * left).tdiv 8
    if stay.contains n then (s.cnv.iset - part * (act.length - stay.length : Nat)).tdiv stay.length else part

/-- One run of a phase's compensator (R268): the new error and output histories and the duty. -/
def compensate (c e u : List Int) (iref imeas dff trim : Int) (dmin dmax : Nat) : List Int × List Int × Nat :=
  let g (l : List Int) (i : Nat) : Int := nth l i 0
  let e0 := sat18 (iref - imeas)
  let acc := g c 0 * e0 + g c 1 * g e 0 + g c 2 * g e 1 + g c 3 * g e 2 - g c 4 * g u 0 - g c 5 * g u 1 - g c 6 * g u 2
  let u0 := sat18 (acc / 2 ^ 20)
  let d := clampI (u0 + dff + trim) dmin dmax
  let u1 := if d = u0 + dff + trim then u0 else d - dff - trim
  ([e0, g e 0, g e 1], [u1, g u 0, g u 1], d.toNat)

/-- Whether diode emulation acts on the phases (R278): forced in a soft start in bus regulation and while stopping (R274, R276), and in RUN as DEMEN
selects at a set-point of 0 or above (DEDUCED notes/assumptions/76.md); never while R192 holds continuous conduction. -/
def diodeEmulation (s : State) : Bool :=
  !continuous s &&
    (cnvState s == 6 || (cnvState s == 3 && s.cnv.cls == 1) || (cnvState s == 4 && bit Reg.CNV_LL_DEMEN s && decide (0 ≤ s.cnv.iset)))

/-- The phases of a mask get no history (R269, R281). -/
def clearHistory (mask : Nat) (l : List (List Int)) : List (List Int) := l.zipIdx.map (fun e => if mask.testBit e.2 then List.replicate 3 0 else e.1)

/-- CSYNC is locked once the period has reached its period and phase 0 stands aligned to its edge plus PHOFF / 256 of a period (R284, R286). A stop of
the converter leaves the lock as it is (DESIGN CHOICE notes/assumptions/88.md). -/
def lockSync (s : State) : State :=
  if s.cnv.tracking && s.cnv.alignLeft == 0 && s.cnv.period == wantedPeriod s && !bit Reg.CNV_STAT_SYNCLK s then
    s |> setB Reg.CNV_STAT_SYNCLK true |> setB Reg.CNV_STAT_SYNCSTK false
  else s

/-- SWITCHING_PERIOD (R261, R264, R265, R267-R270, R278, R279): every active phase samples its sense voltage `sense` (µV) and runs its compensator for
its next period; `valley` is the lowest sense voltage of each phase while its low side conducted. `vbs` and `vmod`: the sensed voltages in mV. -/
def execSwitchingPeriod (sense valley : List Int) (vbs vmod : Nat) (s : State) : Out :=
  if switching s then
    let im := (List.range 4).map (fun n => openDiv (nth sense n 0 * 512) (getF (Reg.CNV_CSG_CSG n) s))
    let act := phasesOf (getF Reg.CNV_STAT_ACT s)
    let tot := (act.map (fun n => nth im n 0)).sum
    let c := { s.cnv with errs := clearHistory s.cnv.clearPend s.cnv.errs, outs := clearHistory s.cnv.clearPend s.cnv.outs, clearPend := 0 }
    let runs := (List.range 4).map (fun n =>
      if act.contains n && !bit Reg.CNV_STAT_BRK s then
        compensate (nth c.coef n []) (nth c.errs n []) (nth c.outs n []) (phaseReference n s) (nth im n 0) c.dff (nth c.trim n 0)
          (getF Reg.CNV_DLIM_DMIN s) (getF Reg.CNV_DLIM_DMAX s)
      else (nth c.errs n [], nth c.outs n [], nth c.duty n 0))
    let low := act.filter (fun n => diodeEmulation s && decide (nth valley n 0 * 500 < (getF Reg.CNV_ILIM_IPK s * getF (Reg.CNV_CSG_CSG n) s : Nat)))
    let s1 := { s with cnv := { c with
      vmod := vmod
      samples := ((s.now, tot) :: c.samples).filter (fun e => s.now < e.1 + ms)
      phSum := (List.range 4).map (fun n => nth c.phSum n 0 + nth im n 0), phCnt := c.phCnt + 1
      errs := runs.map (·.1), outs := runs.map (·.2.1), duty := runs.map (·.2.2)
      dead := List.replicate 4 (deadTime s), lowOff := phaseMask low
      limits := ((s.now, c.cutHigh ||| c.cutLow) :: c.limits.take 15) ++ (c.limits.drop 15).filter (fun e => s.now < e.1 + ms)
      cutHigh := 0, cutLow := 0, brakeLeft := c.brakeLeft - 1, alignLeft := c.alignLeft - 1
      shed := c.shed.map (fun e => (e.1, e.2 - 1)), period := nextPeriod s, slew := c.slew && nextPeriod s != wantedPeriod s } }
    let s2 := (List.range 4).foldl (fun t n => setReg (Reg.CNV_IPH n) (BitVec.ofInt 32 (clampI (nth im n 0) (-32768) 32767)) t) s1
    .next (placeEdges (lockSync
      (s2 |> setReg Reg.CNV_ITOT (BitVec.ofInt 32 (clampI tot (-32768) 32767)) |> setReg Reg.CNV_VBS (BitVec.ofNat 32 (min vbs 65535)))))
  else .next s

/-- `CNV_TRIMST` reports the trims (R270, R298). -/
def reportTrims (s : State) : State :=
  setReg Reg.CNV_TRIMST (BitVec.ofNat 32 ((List.range 4).map (fun n => unsigned 8 (openDiv (nth s.cnv.trim n 0) 16) * 2 ^ (8 * n))).sum) s

/-- PHASE_EQUALISATION (R270): the means since the last equalisation. A trim that its clamp holds stands at its limit. -/
def execPhaseEqualisation (s : State) : Out :=
  let act := phasesOf (getF Reg.CNV_STAT_ACT s)
  let c := s.cnv
  let restart (t : State) : State := { t with cnv := { t.cnv with phSum := List.replicate 4 0, phCnt := 0 } }
  if cnvState s = 4 ∧ 2 ≤ act.length ∧ c.shed = none ∧ bit Reg.CNV_TRIMCFG_EN s ∧ c.phCnt ≠ 0 then
    let tmax : Int := getF Reg.CNV_TRIMCFG_TMAX s * 16
    let n : Int := act.length
    let sum := (act.map (fun k => nth c.phSum k 0)).sum
    let t1 := (List.range 4).map (fun k =>
      if act.contains k then clampI (nth c.trim k 0 + openDiv (sum - n * nth c.phSum k 0) (16 * n * c.phCnt)) (-tmax) tmax else nth c.trim k 0)
    let since := (List.range 4).map (fun k =>
      if act.contains k && decide (tmax ≤ mag (nth t1 k 0)) then some ((nth c.trimSince k none).getD s.now) else none)
    let mean := openDiv ((act.map (fun k => nth t1 k 0)).sum) n
    let t2 := (List.range 4).map (fun k => if act.contains k then nth t1 k 0 - mean else nth t1 k 0)
    .next (reportTrims (restart { s with cnv := { c with trim := t2, trimSince := since } }))
  else .next (restart s)

/-- TRIM_LIMIT_TIMEOUT (R270): phase n's trim has stood at its limit for 10 ms. -/
def execTrimLimitTimeout (n : Fin 4) (s : State) : Out :=
  if cnvState s = 4 ∧ (nth s.cnv.trimSince n.val none).any (fun t => decide (t + 10 * ms ≤ s.now)) then .next (refreshPhases (pulse 79 (markPhases Reg.CNV_PHFLT_IMB [n.val] s)))
  else .next s

/-! ## Light load, load steps, braking -/

/-- Whether shedding is permitted now (R192, R279, R280, R288). -/
def mayShed (s : State) : Bool :=
  cnvState s == 4 && bit Reg.CNV_LL_SHEDEN s && !bit Reg.CNV_STAT_DEGR s && !continuous s && s.cnv.shedHold == none && s.cnv.shed == none

/-- The full level, or the level above, is restored at once (R279, R280). -/
def setLevel (level : Nat) (s : State) : State := refreshPhases (setF Reg.CNV_STAT_LEVEL level s)

/-- SHED_DECISION (R279): the 1 ms mean of the magnitude of the total current has crossed a threshold; thresholds are in 0.25 A. A return to a higher
level does not depend on whether shedding is permitted. -/
def execShedDecision (s : State) : Out :=
  let l := s.cnv.samples
  let sum := (l.map (fun e => e.2.natAbs)).sum
  let below (t : Nat) : Bool := mayShed s && decide (sum < t * 128 * l.length)
  let above (t : Nat) : Bool := decide (t * 160 * l.length < sum)
  let avail := (availablePhases s).length
  let s2 := getF Reg.CNV_LL_SHED2 s
  let s1 := getF Reg.CNV_LL_SHED1 s
  let openTo (level : Nat) : Out := .next { s with cnv := { s.cnv with shed := some (level, 8) } }
  if l = [] ∨ cnvState s ≠ 4 ∨ s.cnv.shed.isSome then .next s
  else
    match getF Reg.CNV_STAT_LEVEL s with
    | 0 =>
      if 2 < avail then (if below s2 then openTo 1 else .next s)
      else if avail = 2 ∧ bit Reg.CNV_PHCFG_CPL s = false ∧ below s1 then openTo 2 else .next s
    | 1 =>
      if above s2 then .next (setLevel 0 s)
      else if bit Reg.CNV_PHCFG_CPL s = false ∧ below s1 then openTo 2 else .next s
    | _ => if above s1 then .next (setLevel (if 2 < avail then 1 else 0) s) else .next s

/-- SHED_WINDOW_END (R279): after the eight periods of the window the departing phases stop switching. -/
def execShedWindowEnd (s : State) : Out :=
  match s.cnv.shed with
  | some (level, 0) => .next (setLevel level { s with cnv := { s.cnv with shed := none } })
  | _ => .next s

/-- Braking ends: switching resumes with every compensator's history cleared (R281). -/
def endBraking (s : State) : State :=
  if bit Reg.CNV_STAT_BRK s then
    let s1 := setB Reg.CNV_STAT_BRK false s
    { s1 with
      pins := { s1.pins with pwm := .switching }
      cnv := { s1.cnv with brakeLeft := 0, errs := List.replicate 4 (List.replicate 3 0), outs := List.replicate 4 (List.replicate 3 0) } }
  else s

/-- VBS lies above the voltage reference by more than so many times LSV, in mV (R280, R281). -/
def busAbove (k : Int) (s : State) : Bool := decide (voltageReference s + k * getF Reg.CNV_LSD_LSV s < busVoltage s)

/-- The load-step detector's condition (R280): by VBS in bus regulation, by the set-points of the last 20 µs in transfer. -/
def loadStepStands (s : State) : Bool :=
  if s.cnv.cls = 1 then decide ((busVoltage s : Int) + 10 * getF Reg.CNV_LSD_LSV s < voltageReference s)
  else s.cnv.setPoints.any (fun e => decide (s.now ≤ e.1 + 20000) && decide ((getF Reg.CNV_LSD_LSI s * 128 : Nat) < mag (s.cnv.iset - e.2)))

/-- LOAD_STEP_DETECT (R280, R289): while the phases switch. -/
def execLoadStepDetect (s : State) : Out :=
  if switching s && loadStepStands s then
    let s1 := endBraking s
    if s1.cnv.shed.isSome then
      .next (setEvt .cnv 16 (incSat Reg.CNV_EVTCNT_SHEDABT { s1 with cnv := { s1.cnv with shed := none, shedHold := some (s.now + 10 * ms) } }))
    else if getF Reg.CNV_STAT_LEVEL s1 ≠ 0 then .next (setLevel 0 { s1 with cnv := { s1.cnv with shedHold := some (s.now + 10 * ms) } })
    else .next s1
  else .next s

/-- SHED_HOLD_EXPIRY (R280): 10 ms after the load step. -/
def execShedHoldExpiry (s : State) : Out :=
  if s.cnv.shedHold.any (· ≤ s.now) then .next { s with cnv := { s.cnv with shedHold := none } } else .next s

/-- BRAKING_START (R266, R281): in bus regulation, VBS lies above the reference by more than LSV × 10 mV while the total current is positive: both
switches of every active phase are held off. -/
def execBrakingStart (s : State) : Out :=
  if s.cnv.cls = 1 ∧ switching s ∧ bit Reg.CNV_LL_BRKEN s ∧ bit Reg.CNV_STAT_BRK s = false ∧ busAbove 10 s ∧
      0 < signed 16 (getF Reg.CNV_ITOT_ITOT s % 65536) then
    let s1 := incSat Reg.CNV_EVTCNT_BRAKE (setB Reg.CNV_STAT_BRK true s)
    .next { s1 with pins := { s1.pins with pwm := .low }, cnv := { s1.cnv with brakeLeft := 64 } }
  else .next s

/-- BRAKING_END (R281): VBS has fallen below the reference + LSV × 5 mV, or 64 periods have passed. -/
def execBrakingEnd (s : State) : Out :=
  if s.cnv.brakeLeft = 0 ∨ (busVoltage s : Int) < voltageReference s + 5 * getF Reg.CNV_LSD_LSV s then .next (endBraking s) else .next s

/-- CONTINUOUS_CONDUCTION_START (R192): 1 ms before the first step of a plan; shedding ends and the full level returns. -/
def execContinuousConductionStart (s : State) : Out :=
  if planActive s ∧ s.imp.start ≤ s.ft + ms then
    .next (setLevel 0 { s with imp := { s.imp with ccm := true }, cnv := { s.cnv with shed := none } })
  else .next s

/-! ## Protections -/

/-- The low sides that the crowbar holds on: those of every fitted phase not fenced (R282). -/
def crowbarPhases (s : State) : Nat := phaseMask ((enabledPhases s).filter (fun n => !(getF Reg.CNV_STAT_PHFEN s).testBit n))

/-- CROWBAR_FIRE (R271, R282, R289): for 2 µs VBS has not lain below `vbs` mV, which exceeds the lower of 62.0 V and the target × (1 + OVP × 0.5 %): from
any state in bus regulation but FAULT, and also from a FAULT entered at this very time; not while R20 or R28 holds the converter off. -/
def execCrowbarFire (vbs : Nat) (s : State) : Out :=
  if s.sys.phase = .active ∧ converterHeldOff s = false ∧ busRegulation s ∧ (cnvState s ≠ 8 ∨ s.cnv.faultAt = some s.now) ∧ cnvState s ≠ 7 ∧
      (62000 < vbs ∨ busTarget s * (200 + getF Reg.CNV_BUS_OVP s) < vbs * 200) then
    let s1 := setEvt .cnv 8 (pulse 76 (leaveRunning 7 s)) |> setReg Reg.CNV_VBS (BitVec.ofNat 32 (min vbs 65535))
    .next { s1 with pins := { s1.pins with pwm := .lowSidesOn (crowbarPhases s), gden := .high }, cnv := { s1.cnv with cls := 1 } }
  else .next s

/-- CYCLE_LIMIT (R283): phase n's sense voltage, in µV, passes a limit: its high-side or its low-side pulse ends for the rest of its period. -/
def execCycleLimit (n : Fin 4) (sense : Int) (s : State) : Out :=
  let csg := getF (Reg.CNV_CSG_CSG n.val) s
  if switching s = false then .next s
  else if ((getF Reg.CNV_ILIM_IPK s * csg : Nat) : Int) < sense * 10 then
    .next { s with cnv := { s.cnv with cutHigh := s.cnv.cutHigh ||| 2 ^ n.val } }
  else if sense * 10 < -((getF Reg.CNV_ILIM_INEG s * csg : Nat) : Int) then
    .next { s with cnv := { s.cnv with cutLow := s.cnv.cutLow ||| 2 ^ n.val } }
  else .next s

/-- Whether the cycle limit has acted on a phase in more than half of its periods over 1 ms (R283). -/
def limitSustained (s : State) : Bool :=
  let l := (s.cnv.limits.filter (fun e => s.now < e.1 + ms)).map (·.2)
  (phasesOf (getF Reg.CNV_STAT_ACT s)).any (fun n => l.length < 2 * limitedPeriods n l)

/-- CURRENT_LIMIT_SUSTAINED (R283): a protection trips, which ends a plan (R198). -/
def execCurrentLimitSustained (s : State) : Out :=
  if cnvState s = 4 ∧ limitSustained s then .next (pulse 73 (planAbort 4 s)) else .next s

/-- HARD_TRIP (R277, R283): phase n's sense voltage, in µV, passes 1.5 × IPK or −1.5 × INEG. Where R271 has no immediate stop, source 73 alone is
raised. -/
def execHardTrip (n : Fin 4) (sense : Int) (s : State) : Out :=
  let csg := getF (Reg.CNV_CSG_CSG n.val) s
  if s.sys.phase = .active ∧ (((3 * getF Reg.CNV_ILIM_IPK s * csg : Nat) : Int) < sense * 20 ∨
      sense * 20 < -((3 * getF Reg.CNV_ILIM_INEG s * csg : Nat) : Int)) then .next (pulse 73 (immediateStop 8 s))
  else .next s

/-- TRANSFER_OVERVOLTAGE (R277, R283): for 2 µs VBS has not lain below `vbs` mV. -/
def execTransferOvervoltage (vbs : Nat) (s : State) : Out :=
  if s.cnv.cls = 2 ∧ cnvState s ≠ 0 ∧ cnvState s ≠ 8 ∧ cnvState s ≠ 7 ∧ 62000 < vbs then .next (pulse 76 (immediateStop 0 s)) else .next s

/-- MODULE_VOLTAGE_FAULT (R277, R283): for 100 µs VMOD has lain beyond a limit, at `vmod` mV. -/
def execModuleVoltageFault (vmod : Nat) (s : State) : Out :=
  if cnvState s ≠ 0 ∧ cnvState s ≠ 8 ∧ cnvState s ≠ 7 ∧ (vmod < 20000 ∨ 145000 < vmod) then
    .next (pulse 78 (immediateStop 0 { s with cnv := { s.cnv with vmod := vmod } }))
  else .next s

/-- PIN_READBACK_MISMATCH (R198, R283): phase n is held off; the trip ends an impedance plan. -/
def execPinReadbackMismatch (n : Fin 4) (s : State) : Out :=
  if s.sys.phase = .active then .next (refreshPhases (pulse 82 (markPhases Reg.CNV_PHFLT_RB [n.val] (planAbort 4 s)))) else .next s

/-- COMPENSATOR_MISMATCH (R290, R571). -/
def execCompensatorMismatch (s : State) : Out := if s.sys.phase = .active ∧ testing 17 s = false then .next (pulse 83 s) else .next s

/-! ## External synchronisation -/

/-- CSYNC_EDGE (R284): an edge less than 0.8 nominal periods after the last accepted one is ignored and counts as out of range. After 16 periods in range
the PWM tracks CSYNC; when within the next 64 periods phase 0 stands aligned is open. -/
def execCsyncEdge (s : State) : Out :=
  if s.sys.phase = .active ∧ bit Reg.CNV_SYNC_SYNCEN s then
    let c := { s.cnv with csyncAt := some s.now }
    match c.edge with
    | none => .next { s with cnv := { c with edge := some s.now, inRange := 0, outRange := 0 } }
    | some t =>
      let dt := (s.now - t) * getF Reg.CNV_PHCFG_FSW s
      if dt < 800000 then .next { s with cnv := { c with inRange := 0, outRange := c.outRange + 1 } }
      else if 1250000 < dt then .next { s with cnv := { c with edge := some s.now, inRange := 0, outRange := c.outRange + 1 } }
      else
        let s1 := { s with cnv := { c with edge := some s.now, inRange := min (c.inRange + 1) 16, outRange := 0, csync := s.now - t } }
        .next (if 16 ≤ c.inRange + 1 && !c.tracking then
            useFree { s1 with cnv := { s1.cnv with tracking := true, slew := false, alignLeft := (freeWord s).toNat % 65 } }
          else s1)
  else .next s

/-- Whether sync is lost (R285): no accepted edge for 2 periods, or 4 consecutive periods out of range. -/
def syncLost (s : State) : Bool :=
  4 ≤ s.cnv.outRange || s.cnv.edge.all (fun t => decide (2 * s.cnv.period * 100 ≤ (s.now - t) * 832))

/-- SYNC_LOSS (R285): the last period is kept, and slews back from there; spread resumes with the next 1 ms modulation period. Before the lock only the
tracking ends. -/
def execSyncLoss (s : State) : Out :=
  if s.cnv.tracking && syncLost s then
    let s1 := if bit Reg.CNV_STAT_SYNCLK s then
        s |> setB Reg.CNV_STAT_SYNCLK false |> incSat Reg.CNV_EVTCNT_SYNCLOSS |> pulse 81 |> setEvt .cnv 32
      else s
    .next { s1 with cnv := { s1.cnv with
      inRange := 0, outRange := 0, edge := none, tracking := false, alignLeft := 0, slew := true, spreadFrom := (s.now / ms + 1) * ms } }
  else .next s

/-- CSYNC_STUCK (R286): no edge for STUCKTO × 10 ms. -/
def execCsyncStuck (s : State) : Out :=
  if s.sys.phase = .active ∧ bit Reg.CNV_SYNC_SYNCEN s ∧ getF Reg.CNV_SYNC_STUCKTO s ≠ 0 ∧ bit Reg.CNV_STAT_SYNCSTK s = false ∧
      s.cnv.csyncAt.all (fun t => decide (t + getF Reg.CNV_SYNC_STUCKTO s * 10 * ms ≤ s.now)) then
    .next (setEvt .cnv 32 (pulse 81 (setB Reg.CNV_STAT_SYNCSTK true s)))
  else .next s

/-! ## The word boundary -/

/-- WORD_BOUNDARY (R20, R100, R259): where the test of R20 finds the cell inputs unused, the converter is held off from then on: one that runs makes an
immediate stop (DESIGN CHOICE notes/assumptions/77.md). -/
def execWordBoundary (outs : List Int) (vmodLow : Bool) (s : State) : Out :=
  if s.cms.running then
    let t := wordBoundary outs vmodLow s
    .next (if unusedCells t && !unusedCells s then immediateStop 0 t else t)
  else .next s

end Sys2Proof.Machine
end

