-- ==== Sys2Proof/Machine/Ctl.lean ====
section
/-!
DEFINITION. Sys2Proof/Machine/Ctl.lean: the closed-loop control engine (spec/09_control_engine.md, R301-R333).
-/
namespace Sys2Proof.Machine

/-! ## Scale -/

/-- The scale of the engine's values: a common multiple of the LSBs of R260, `CTL_PSTATE` and the limits, with at least 16 fractional bits
below each of them (R306). -/
def ctlScale : Int := 12800 * 2 ^ (16 + Config.extraBits)

/-- The tick period in ns (R301). -/
def tickPeriod (s : State) : Int := 20000 * 2 ^ getF Reg.CTL_CFG_RATE s

/-- A 16-bit two's-complement register half. -/
def half16 (v : Int) : Nat := unsigned 16 (clampI v (-32768) 32767)

/-! ## The profile generator -/

/-- Where the profile stands: set-point, slope, acceleration, and the slope and acceleration limits in force. -/
structure Profile where
  x : Int
  v : Int
  a : Int
  smax : Int
  amax : Int
  deriving DecidableEq, Repr

/-- A limit in force (R308): the written one as soon as the present magnitude meets it, until then one that falls towards it. -/
def fallingLimit (written magnitude step : Int) : Int := if magnitude ≤ written then written else max written (magnitude - step)

/-- The sign of an integer: −1, 0 or 1. -/
def signOf (v : Int) : Int := if v < 0 then -1 else if v = 0 then 0 else 1

/-- One tick of the profile (R306, R308) towards `xt`: `sw`, `aw` and `jm` are the written limits, `per` the tick period in ns. -/
def profileTick (p : Profile) (xt sw aw jm per : Int) : Profile :=
  let overTick (r : Int) : Int := openDiv (r * per) 1000000
  let am := fallingLimit aw (mag p.a) (overTick jm)
  let sm := fallingLimit sw (mag p.v) (overTick am)
  let d := xt - p.x
  let root : Int := openSqrt (am ^ 4 + 8 * am * mag d * jm ^ 2).toNat
  let vs := openDiv (root - am ^ 2) (2 * jm)
  let vt := signOf d * min sm vs
  let dv := vt - p.v
  let at' := signOf dv * min am (openSqrt (2 * jm * mag dv).toNat : Int)
  let a := clampI (p.a + clampI (at' - p.a) (-overTick jm) (overTick jm)) (-am) am
  let v := clampI (p.v + overTick a) (-sm) sm
  let xn := p.x + overTick v
  if (xn - xt) * (p.x - xt) ≤ 0 then ⟨xt, 0, 0, sm, am⟩ else ⟨xn, v, a, sm, am⟩

/-- The target in scaled units, limited to −NEG to +POS (R309). -/
def scaledTarget (s : State) : Int :=
  let u := ctlScale
  clampI (signed 16 (getF Reg.CTL_TGT_TGT s) * u / 512) (-(getF Reg.CTL_LIM_NEG s * u / 10)) (getF Reg.CTL_LIM_POS s * u / 10)

/-- The profile at this tick (R306-R308, R321). -/
def nextProfile (s : State) : Profile :=
  let u := ctlScale
  let c := s.ctl
  let half (v : Int) : Int := if bit Reg.CTL_STAT_DEGR s then v / 2 else v
  profileTick ⟨c.x, c.v, c.a, c.smax, c.amax⟩ (scaledTarget s) (half (getF Reg.CTL_SMAX_SMAX s * u / 100)) (half (getF Reg.CTL_AMAX_AMAX s * u / 10))
    (getF Reg.CTL_JMAX_JMAX s * u) (tickPeriod s)

/-- The engine output of the profile (R306, R310), in the LSB of R260. -/
def profileBase (p : Profile) (s : State) : Int :=
  let ff := if bit Reg.CTL_CFG_AFFEN s then roundAway (getF Reg.CTL_KAFF_KAFF s * p.a * 512) (1000000 * ctlScale) else 0
  roundAway (p.x * 512) ctlScale + ff

/-! ## The voltage loop -/

/-- X and G of an entry of the gain table (R312). -/
def lutX (w : Word) : Int := signed 16 (getBits w 16 16)
def lutG (w : Word) : Int := getBits w 0 16

/-- The interpolation of R313 over the entries in use, for an error beyond the first of them. -/
def interpolate (e : Int) : List Word → Int
  | [] => 0
  | [w] => lutG w
  | w :: w2 :: t =>
    if e < lutX w2 then lutG w + ((lutG w2 - lutG w) * (e - lutX w)).tdiv (lutX w2 - lutX w) else interpolate e (w2 :: t)

/-- The gain of an error (R311, R313, R321), in 2^-12. -/
def lutGain (e : Int) (s : State) : Int :=
  let l := s.ctl.table.take s.ctl.nent
  if bit Reg.CTL_CFG_LUTEN s = false ∨ bit Reg.CTL_STAT_DEGR s then 4096
  else match l with
    | [] => 4096
    | w :: _ => if e ≤ lutX w then lutG w else interpolate e l

/-- Whether the integrator is frozen (R311). -/
def integratorFrozen (e : Int) (s : State) : Bool :=
  (s.ctl.limited == 1 && decide (0 < e)) || (s.ctl.limited == -1 && decide (e < 0)) || bit Reg.CNV_STAT_BRK s || cnvState s == 6

/-- The integrator at this tick (R311). -/
def nextIntegrator (e : Int) (s : State) : Int :=
  if integratorFrozen e s then s.ctl.integ
  else
    clampI (s.ctl.integ + openDiv (getF Reg.CTL_KI_KI s * e * tickPeriod s * ctlScale) (256 * 1000 * 1000000))
      (-(getF Reg.CTL_LIM_NEG s * ctlScale / 10)) (getF Reg.CTL_LIM_POS s * ctlScale / 10)

/-- The engine output of the voltage loop (R311), in the LSB of R260. -/
def voltageBase (e g integ : Int) (s : State) : Int :=
  roundAway ((getF Reg.CTL_KP_KP s * g * e * ctlScale + integ * 1048576000) * 512) (1048576000 * ctlScale)

/-! ## Ticks -/

/-- The duty feed-forward (R315), in 2^-16 of the period. -/
def dutyFeedForward (vref : Int) (vbs vmod : Nat) (s : State) : Nat :=
  let v := if busRegulation s then vref else vbs
  let q := if vmod = 0 then Config.divByZero v else (v * 65536).tdiv vmod
  if bit Reg.CTL_CFG_VFFEN s then (clampI q (getF Reg.CNV_DLIM_DMIN s) (getF Reg.CNV_DLIM_DMAX s)).toNat else 0

/-- The shadow of the gain table (R314). -/
def shadowTable (s : State) : List Word := (List.range 64).map (fun k => reg s (Reg.CTL_LUT k))

/-- A pending table copy takes place (R314). -/
def copyTable (s : State) : State :=
  setB Reg.CTL_STAT_LUTPEND false { s with ctl := { s.ctl with table := shadowTable s, nent := getF Reg.CTL_LUTCFG_NENT s } }

/-- The X values of the entries of a table do not increase strictly (R326). -/
def tableFalls (n : Nat) (l : List Word) : Bool := ((l.take n).zip ((l.take n).drop 1)).any (fun e => decide (lutX e.2 ≤ lutX e.1))

/-- The engine in reset (R319): x, v, a and the integrator at 0. -/
def resetEngine (s : State) : State :=
  let s1 := s |> setF Reg.CTL_STAT_MODE 0 |> setB Reg.CTL_STAT_PMOVE false |> setF Reg.CTL_SP_PROF 0 |> setReg Reg.CTL_PSTATE 0#32 |> setF Reg.CTL_INTEG_INTEG 0
  { s1 with ctl := { s1.ctl with
    x := 0, v := 0, a := 0, integ := 0, base := 0
    smax := getF Reg.CTL_SMAX_SMAX s * ctlScale / 100, amax := getF Reg.CTL_AMAX_AMAX s * ctlScale / 10 } }

/-- The profile runs in this tick (R306, R310, R319). -/
def runProfile (s : State) : State :=
  let p := nextProfile s
  let xt := scaledTarget s
  let base := profileBase p s
  let s1 := { s with ctl := { s.ctl with x := p.x, v := p.v, a := p.a, smax := p.smax, amax := p.amax, base := base } }
  let s2 := s1 |> setF Reg.CTL_STAT_MODE 2 |> setB Reg.CTL_STAT_PMOVE (p.x != s.ctl.x && p.x != xt) |> setF Reg.CTL_SP_PROF (half16 base)
    |> setF Reg.CTL_PSTATE_SLOPE (half16 (openDiv (p.v * 100) ctlScale)) |> setF Reg.CTL_PSTATE_ACC (half16 (openDiv (p.a * 10) ctlScale))
  if p.x = xt ∧ s.ctl.x ≠ xt then setEvt .ctl 1 s2 else s2

/-- The voltage loop runs in this tick (R311, R319). -/
def runVoltage (e g : Int) (s : State) : State :=
  let integ := nextIntegrator e s
  let base := voltageBase e g integ s
  let s1 := { s with ctl := { s.ctl with integ := integ, base := base } }
  s1 |> setF Reg.CTL_STAT_MODE 1 |> setB Reg.CTL_STAT_PMOVE false |> setF Reg.CTL_SP_PROF (half16 base)
     |> setF Reg.CTL_INTEG_INTEG (half16 (openDiv (integ * 512) ctlScale))

/-- The ratio r of R316 as a fraction: VMOD / VBS within 65536 / DMAX to 65536 / DMIN. Where a limit of 0 makes the bound itself undefined, the
denominator is 0. -/
def moduleRatio (vbs vmod : Nat) (s : State) : Int × Int :=
  let dmax : Int := getF Reg.CNV_DLIM_DMAX s
  let dmin : Int := getF Reg.CNV_DLIM_DMIN s
  if (vmod : Int) * dmax < 65536 * vbs then (65536, dmax)
  else if 65536 * (vbs : Int) < vmod * dmin ∨ vbs = 0 then (65536, dmin)
  else (vmod, vbs)

/-- A tick is taken now (R301, R302): fabric time stands at a grid point, up to one core clock past it, which is 6 ns at the highest rate of R473. No
second tick belongs to that point; after a step of fabric time at least half a period has passed since the last tick. A tick of the grid before a step
stands at none. -/
def tickDue (s : State) : Bool :=
  decide (s.ft % (tickPeriod s).toNat < 6) &&
    s.ctl.lastTick.all (fun t => if s.ctl.stepped then decide ((tickPeriod s).toNat ≤ 2 * (s.now - t)) else decide (10 ≤ s.now - t))

/-- CONTROL_TICK (R301, R302, R304, R305, R314, R315, R319, R320): the inputs are latched and the loop of the converter's state runs. `vbs`, `vmod` and
`itot`: means over the tick, mV and LSB of R260. A fenced engine holds its outputs; so does one whose computation of this tick is not good, for which
CTL_ENGINE_FAULT stands in place of this command (R303). From a tick on `CTL_TRK` and `CTL_EVTEN` act as written. A falling table that comes into use is a host error (R6, R326). -/
def execControlTick (vbs vmod : Nat) (itot : Int) (s : State) : Out :=
  if s.sys.phase ≠ .active ∨ tickDue s = false then .next s
  else
    let s0 := { s with
      cnv := { s.cnv with vmod := vmod, busOk := s.cnv.busOk && getF Reg.CNV_BUS_BUSMIN s ≤ vbs }
      ctl := { s.ctl with lastTick := some s.now, stepped := false, itot := itot, trk := getF Reg.CTL_TRK_TRK s, evten := reg s Reg.CTL_EVTEN } }
    let s1 := setReg Reg.CNV_VBS (BitVec.ofNat 32 (min vbs 65535)) s0
    let vref := if busRegulation s1 && switching s1 then voltageReference s1 else 0
    let s2 := setReg Reg.CNV_VREF (BitVec.ofNat 32 (clampI vref 0 65535).toNat) s1
    let s3 := if bit Reg.CTL_STAT_LUTPEND s2 then copyTable s2 else s2
    if bit Reg.CTL_STAT_LUTPEND s2 && bit Reg.CTL_CFG_LUTEN s2 && tableFalls s3.ctl.nent s3.ctl.table then .next (upset s3)
    else if bit Reg.CTL_STAT_FEN s3 then .next s3
    else
      let e := vref - vbs
      let (num, den) := moduleRatio vbs vmod s3
      let g := lutGain e s3
      let dff := dutyFeedForward vref vbs vmod s3
      let s4 := { s3 with
        cnv := { s3.cnv with dff := dff }
        ctl := { s3.ctl with vbs := vbs, vmod := vmod, ratioNum := num, ratioDen := den, lneg := getF Reg.CTL_LIM_NEG s3, lpos := getF Reg.CTL_LIM_POS s3 } }
      let s5 := setF Reg.CTL_DFF_DFF dff s4
      .next (match cnvState s5 with
        | 3 | 4 =>
          if busRegulation s5 then runVoltage e g (s5 |> setF Reg.CTL_VERR_ERR (half16 e) |> setF Reg.CTL_VERR_GAIN g.toNat) else runProfile s5
        | 6 => s5 |> setF Reg.CTL_STAT_MODE 3 |> setB Reg.CTL_STAT_PMOVE false
        | _ => resetEngine s5)

/-! ## The summing stage -/

/-- A span of clip begins or goes on (R317); in the window of a plan step it belongs to the step (R204). -/
def noteClip (clip move : Bool) (s : State) : State :=
  let s1 := if clip && !bit Reg.CTL_STAT_CLIP s then setEvt .ctl 2 (incSat Reg.CTL_CNT_CLIPCNT s) else s
  let s2 := setB Reg.CTL_STAT_CLIP clip s1
  if s2.imp.phase ≠ .window then s2
  else { s2 with imp := { s2.imp with wClip := s2.imp.wClip || clip, wMove := s2.imp.wMove || move } }

/-- SUMMING_UPDATE (R316, R317): base, the excitation and the limits give the set-point; clip names the clamps of R260, R274 and R288, not the ramp of
R276. -/
def execSummingUpdate (s : State) : Out :=
  if s.sys.phase ≠ .active then .next s
  else
    let exc := excitation s.ft s
    let sum := s.ctl.base -
      (if s.ctl.ratioDen = 0 ∧ exc ≠ 0 then Config.divByZero (exc * s.ctl.ratioNum)
       else roundAway (exc * s.ctl.ratioNum * 512) (s.ctl.ratioDen * 1000 * 2 ^ 64))
    let out := clampI sum (-openDiv (s.ctl.lneg * 512) 10) (openDiv (s.ctl.lpos * 512) 10)
    let fin := clampI out (-(setPointClamp s)) (setPointClamp s)
    let clipped := clampI out (-(classClamp s)) (classClamp s)
    let move := bit Reg.CTL_STAT_PMOVE s || (busRegulation s && switching s && s.ctl.base != s.ctl.lastBase)
    let lim : Int := if out < sum then 1 else if sum < out then -1 else 0
    let s1 := { s with
      cnv := { s.cnv with
        iset := if switching s then fin else 0
        setPoints := if switching s then ((s.now, fin) :: s.cnv.setPoints).filter (fun e => s.now ≤ e.1 + 20000) else [] }
      ctl := { s.ctl with lastBase := s.ctl.base, limited := lim, outs := ((s.now, out) :: s.ctl.outs).filter (fun e => s.now < e.1 + ms) } }
    .next (noteClip (out != sum || (switching s && clipped != out)) move (setF Reg.CTL_SP_OUT (half16 out) s1))

/-! ## Commands and faults -/

/-- A write of 1 to `CTL_CMD.LOADLUT` (R314, R320). -/
def loadLut (s : State) : Done :=
  if bit Reg.CTL_STAT_FEN s then Done.refuse .refusedFenced s else Done.ok (setB Reg.CTL_STAT_LUTPEND true s)

/-- LOADLUT (R314, R320). -/
def execLoadlut (s : State) : Out := if coreUp s then (loadLut s).out else .next s

/-- A write of `CTL_TGT` (R309, R320). -/
def writeTarget (w : Nat) (s : State) : Done :=
  if bit Reg.CTL_STAT_FEN s then Done.refuse .refusedFenced s
  else
    let t := signed 16 w * 10
    let outside := decide (t < -(getF Reg.CTL_LIM_NEG s * 512 : Nat)) || decide ((getF Reg.CTL_LIM_POS s * 512 : Nat) < t)
    Done.ok (s |> setF Reg.CTL_TGT_TGT w |> setB Reg.CTL_STAT_TGTCLP outside)

/-- TARGET_WRITE (R309, R320). -/
def execTargetWrite (w : Fin 65536) (s : State) : Out := if coreUp s then (writeTarget w.val s).out else .next s

/-- The 1 ms means of the total current and of the summing stage's output differ by more than `CTL_TRK` (R304, R325), compared without division. -/
def tracksBadly (s : State) : Bool :=
  let (i, n) := meanTotal s
  let o := (s.ctl.outs.map (·.2)).sum
  let m := s.ctl.outs.length
  n != 0 && m != 0 && decide (((s.ctl.trk * 512 * n * m : Nat) : Int) < 10 * mag (i * m - o * n))

/-- TRACKING_FAULT (R325): in RUN, outside braking and a shed window, while clip does not hold. -/
def execTrackingFault (s : State) : Out :=
  if cnvState s = 4 ∧ bit Reg.CNV_STAT_BRK s = false ∧ s.cnv.shed = none ∧ bit Reg.CTL_STAT_CLIP s = false ∧ tracksBadly s then
    .next (setEvt .ctl 4 (incSat Reg.CTL_CNT_TRKCNT (pulse 85 s)))
  else .next s

/-- The summing stage's output stands at a limit of the last tick (R325). -/
def atLimit (s : State) : Bool :=
  s.ctl.outs.head?.any (fun e => e.2 == openDiv (s.ctl.lpos * 512) 10 || e.2 == -openDiv (s.ctl.lneg * 512) 10)

/-- OUTPUT_AT_LIMIT (R325). -/
def execOutputAtLimit (s : State) : Out := if cnvState s = 4 ∧ atLimit s then .next (pulse 87 s) else .next s

/-- CTL_ENGINE_FAULT (R303, R325, R571): a lockstep mismatch or an overrun, or a parity failure; the outputs of the last good tick are held. -/
def execCtlEngineFault (parity : Bool) (s : State) : Out :=
  if s.sys.phase = .active ∧ (parity ∨ testing 16 s = false) then .next (pulse (if parity then 86 else 84) s) else .next s

end Sys2Proof.Machine
end

