-- ==== Sys2Proof/Machine/Crc.lean ====
section
/-!
DEFINITION. Sys2Proof/Machine/Crc.lean: the check unit for firmware (spec/16_calibration_nvm_crc.md R549-R551).
-/
namespace Sys2Proof.Machine

/-- The width in force. -/
def crcWidth (s : State) : Nat := getF Reg.CRC_CFG_WIDTH s

/-- The lowest `w` bits of a word: what bits above the width read as and are written as (R549). -/
def crcMask (w : Nat) (v : Word) : Word := BitVec.ofNat 32 (v.toNat % 2 ^ w)

/-- A word of `w` bits in reverse order. -/
def reflect (w : Nat) (v : Word) : Word :=
  (List.range w).foldl (fun r k => if v.getLsbD k then r ||| (1#32 <<< (w - 1 - k)) else r) 0#32

/-- One bit of a feed (R549). -/
def crcBit (refin : Bool) (w : Nat) (p v : Word) : Word :=
  if refin then (if v.getLsbD 0 then (v >>> 1) ^^^ reflect w p else v >>> 1)
  else crcMask w (if v.getLsbD (w - 1) then (v <<< 1) ^^^ p else v <<< 1)

/-- `n` bits of a feed. -/
def crcBits (refin : Bool) (w : Nat) (p : Word) : Nat → Word → Word
  | 0, v => v
  | n + 1, v => crcBits refin w p n (crcBit refin w p v)

/-- One byte of a feed (R549). -/
def crcByte (refin : Bool) (w : Nat) (p v : Word) (b : Nat) : Word :=
  crcBits refin w p 8 (v ^^^ (if refin then BitVec.ofNat 32 b else BitVec.ofNat 32 b <<< (w - 8)))

/-- A write of `n` bytes of data, the lowest first (R549, R550). -/
def crcFeed (n : Nat) (data : Word) (s : State) : State :=
  let w := crcWidth s
  let p := crcMask w (reg s Reg.CRC_POLY)
  setReg Reg.CRC_VAL ((List.range n).foldl (fun v k => crcByte (bit Reg.CRC_CFG_REFIN s) w p v (getBits data (8 * k) 8)) (crcMask w (reg s Reg.CRC_VAL))) s

/-- What `CRC_RESULT` reads (R549). -/
def crcResult (s : State) : Word :=
  let w := crcWidth s
  let v := crcMask w (reg s Reg.CRC_VAL)
  (if bit Reg.CRC_CFG_REFOUT s = bit Reg.CRC_CFG_REFIN s then v else reflect w v) ^^^ crcMask w (reg s Reg.CRC_XOROUT)

/-- CRC_DATA_WRITE (R549, R550): a write of `CRC_DATA8`, `CRC_DATA16` or `CRC_DATA32`. A width outside 8 to 32 is a host error (R552, R6). -/
def execCrcDataWrite (size : Fin 3) (data : Word) (s : State) : Out :=
  if coreUp s = false then .next s
  else if crcWidth s < 8 ∨ 32 < crcWidth s then .next (upset s)
  else (Done.ok (crcFeed (2 ^ size.val) data s)).out

end Sys2Proof.Machine
end

