-- ==== Sys2Proof/Machine/Wire.lean ====
section
/-!
DEFINITION. Sys2Proof/Machine/Wire.lean: the check functions and the bytes of a frame (spec/10_izarlink_links.md R350-R352, R370).
-/
namespace Sys2Proof.Machine

/-! ## Checks -/

/-- One byte of the CRC-8 of R352, most significant bit first: polynomial 0x2F. -/
def crc8Shift : Nat → Byte → Byte
  | 0, c => c
  | k + 1, c => crc8Shift k (if c.getLsbD 7 then (c <<< 1) ^^^ 0x2F#8 else c <<< 1)

/-- The CRC-8 of R352: initial value 0xFF, no reflection, final XOR 0xFF. -/
def crc8 (bs : List Byte) : Byte := bs.foldl (fun c b => crc8Shift 8 (c ^^^ b)) 0xFF#8 ^^^ 0xFF#8

/-- One byte of the CRC-32C of R352 in reflected form: polynomial 0x1EDC6F41, reflected 0x82F63B78. -/
def crc32Shift : Nat → Word → Word
  | 0, c => c
  | k + 1, c => crc32Shift k (if c.getLsbD 0 then (c >>> 1) ^^^ 0x82F63B78#32 else c >>> 1)

/-- The CRC-32C of R352: initial value and final XOR 0xFFFFFFFF. -/
def crc32c (bs : List Byte) : Word :=
  bs.foldl (fun c b => crc32Shift 8 (c ^^^ BitVec.ofNat 32 b.toNat)) 0xFFFFFFFF#32 ^^^ 0xFFFFFFFF#32

/-- One byte of the legacy CRC-16 of R370: polynomial 0x1021. -/
def crc16Shift : Nat → BitVec 16 → BitVec 16
  | 0, c => c
  | k + 1, c => crc16Shift k (if c.getLsbD 15 then (c <<< 1) ^^^ 0x1021#16 else c <<< 1)

/-- The legacy CRC-16 of R370: initial value 0xFFFF, no reflection, no final XOR. -/
def crc16 (bs : List Byte) : BitVec 16 :=
  bs.foldl (fun c b => crc16Shift 8 (c ^^^ (BitVec.ofNat 16 b.toNat <<< 8))) 0xFFFF#16

/-! ## The header -/

/-- What a header carries for one link: number, replay mark and acknowledgements (R351, R359). -/
structure LinkFields where
  seq : Nat
  retx : Bool
  akb : Nat
  akbv : Bool
  nakb : Bool
  aka : Nat
  akav : Bool
  naka : Bool
  deriving DecidableEq, Repr

/-- Header bytes 0 to 14 (R351). -/
def headerBytes (f : Frame) (l : LinkFields) : List Byte :=
  let len := f.payload.length
  natBytes 1 (f.type.code + 32 * f.cls.code + 128 * (len / 256))
    ++ natBytes 1 (4 * l.seq + 2 * b2n l.retx)
    ++ natBytes 1 (4 * l.akb + 2 * b2n l.akbv + b2n l.nakb)
    ++ natBytes 1 (4 * l.aka + 2 * b2n l.akav + b2n l.naka)
    ++ wordBytes f.route
    ++ natBytes 1 (f.hop + 32 * f.mode.code)
    ++ natBytes 3 (f.dst % 1024 + 1024 * (f.src % 1024))
    ++ natBytes 1 f.epoch ++ natBytes 1 f.tag ++ natBytes 1 (len % 256)

/-- A frame between its start and end codes: header, HCRC, payload and PCRC (R350-R352). -/
def frameLine (f : Frame) (l : LinkFields) : List Byte :=
  let h := headerBytes f l
  let p := wordsBytes f.payload
  h ++ [crc8 h] ++ (if f.payload.isEmpty then [] else p ++ wordBytes (crc32c p))

/-- A byte of a frame. -/
def byteAt (bs : List Byte) (i : Nat) : Nat := (nth bs i 0#8).toNat

/-- A little-endian number of a frame. -/
def numAt (bs : List Byte) (i n : Nat) : Nat := bytesNat ((bs.drop i).take n)

/-- The acknowledgement fields and number of a received header. -/
def readLink (bs : List Byte) : LinkFields where
  seq := byteAt bs 1 / 4
  retx := byteAt bs 1 / 2 % 2 = 1
  akb := byteAt bs 2 / 4
  akbv := byteAt bs 2 / 2 % 2 = 1
  nakb := byteAt bs 2 % 2 = 1
  aka := byteAt bs 3 / 4
  akav := byteAt bs 3 / 2 % 2 = 1
  naka := byteAt bs 3 % 2 = 1

/-- The TYPE and MODE codes, the class and LEN of a received header. -/
def typeCode (bs : List Byte) : Nat := byteAt bs 0 % 32

def modeCode (bs : List Byte) : Nat := byteAt bs 8 / 32

def headerClass (bs : List Byte) : Cls := Cls.ofCode (byteAt bs 0 / 32 % 4)

def headerLen (bs : List Byte) : Nat := byteAt bs 14 + 256 * (byteAt bs 0 / 128)

/-- The HCRC of a received frame holds. -/
def headerGood (bs : List Byte) : Bool := 16 ≤ bs.length && crc8 (bs.take 15) == nth bs 15 0#8

/-- The payload bytes of a received frame. -/
def payloadBytes (bs : List Byte) : List Byte := (bs.drop 16).take (4 * headerLen bs)

/-- The PCRC of a received frame can be read and differs (R352). -/
def payloadBad (bs : List Byte) : Bool :=
  headerLen bs != 0 && 20 + 4 * headerLen bs ≤ bs.length &&
    numAt bs (16 + 4 * headerLen bs) 4 != (crc32c (payloadBytes bs)).toNat

/-- The frame ends where LEN says, and LEN lies within the limit of its class (R354, R360; DEDUCED notes/assumptions/89.md). -/
def lengthGood (bs : List Byte) : Bool :=
  decide (headerLen bs ≤ payloadLimit (headerClass bs)) && bs.length == (if headerLen bs = 0 then 16 else 20 + 4 * headerLen bs)

/-- The frame that bytes spell, with a known type and mode. -/
def readFrame (bs : List Byte) (t : FrameType) (m : Mode) : Frame where
  type := t
  cls := headerClass bs
  mode := m
  route := BitVec.ofNat 32 (numAt bs 4 4)
  hop := byteAt bs 8 % 32
  src := numAt bs 9 3 / 1024 % 1024
  dst := numAt bs 9 3 % 1024
  epoch := byteAt bs 12
  tag := byteAt bs 13
  payload := bytesWords (payloadBytes bs)

/-- The line time of a frame in bit-times: four control codes, header, payload and PCRC, padded to a multiple of three bits (R350). -/
def lineTime (f : Frame) : Nat :=
  let bits := if f.payload.isEmpty then 128 else 160 + 32 * f.payload.length
  24 + (bits + 2) / 3 * 3

end Sys2Proof.Machine
end

