-- ==== Sys2Proof/Machine/Code.lean ====
section
/-!
DEFINITION. Sys2Proof/Machine/Code.lean: the line code (spec/10_izarlink_links.md R335-R339, R350): symbol pairs, control codes, the
scrambler, and how a receiver reads frames off the line.
-/
namespace Sys2Proof.Machine

/-! ## Pairs and control codes -/

/-- The symbol pair of a 3-bit group (R336). -/
def groupPair : Nat → Pair
  | 0 => (.minus, .minus)
  | 1 => (.minus, .zero)
  | 2 => (.minus, .plus)
  | 3 => (.zero, .minus)
  | 4 => (.zero, .plus)
  | 5 => (.plus, .minus)
  | 6 => (.plus, .zero)
  | _ => (.plus, .plus)

/-- The prefix of a control code, which carries no data (R336). -/
def prefixPair : Pair := (.zero, .zero)

/-- The group that a pair stands for; the prefix stands for none (R336). -/
def pairGroup : Pair → Option Nat
  | (.minus, .minus) => some 0
  | (.minus, .zero) => some 1
  | (.minus, .plus) => some 2
  | (.zero, .minus) => some 3
  | (.zero, .plus) => some 4
  | (.plus, .minus) => some 5
  | (.plus, .zero) => some 6
  | (.plus, .plus) => some 7
  | (.zero, .zero) => none

/-- The control codes (R338). -/
def codeIdle : Nat := 0
def codeSof : Nat := 1
def codeEof : Nat := 2
def codeAbt : Nat := 3
def codePre : Nat := 4
def codeRes : Nat := 5
def codeLpi : Nat := 6

/-! ## The scrambler -/

/-- One bit of the side-stream scrambler of polynomial x²³ + x¹⁸ + 1 (R337): bit k of the register holds the bit made k + 1 bits ago. -/
def scramblerBit (x : BitVec 23) : Bool := x.getLsbD 22 ^^ x.getLsbD 17

/-- The scrambler after one bit. -/
def scramblerNext (x : BitVec 23) : BitVec 23 := (x <<< 1) ||| (if scramblerBit x then 1#23 else 0#23)

/-- The three bits that scramble one group, the first for b0 (DEDUCED notes/assumptions/78.md), and the scrambler after them. -/
def scramblerGroup (x : BitVec 23) : Nat × BitVec 23 :=
  let y := scramblerNext x
  let z := scramblerNext y
  (b2n (scramblerBit x) + 2 * b2n (scramblerBit y) + 4 * b2n (scramblerBit z), scramblerNext z)

/-- The scrambler after a number of groups. -/
def scramblerSkip : Nat → BitVec 23 → BitVec 23
  | 0, x => x
  | k + 1, x => scramblerSkip k (scramblerGroup x).2

/-- The pairs of a line item, its group or code scrambled and the prefix not (R337), and the scrambler after it. -/
def itemPairs (x : BitVec 23) (i : LineItem) : List Pair × BitVec 23 :=
  let k := scramblerGroup x
  match i with
  | .code c => ([prefixPair, groupPair ((c % 8) ^^^ k.1)], k.2)
  | .group g => ([groupPair ((g % 8) ^^^ k.1)], k.2)

/-- The pairs of a line (R336, R337). -/
def linePairs : BitVec 23 → List LineItem → List Pair
  | _, [] => []
  | x, i :: t => (itemPairs x i).1 ++ linePairs (itemPairs x i).2 t

/-! ## Groups of bytes -/

/-- The bits of bytes, each byte least significant bit first (R337). -/
def bytesBits (bs : List Byte) : List Bool := bs.flatMap (fun b => (List.range 8).map b.getLsbD)

/-- Bits in groups of three, the first bit as b0, the last group completed with padding bits of value 0 (R337, R350). -/
def bitsGroups : List Bool → List Nat
  | [] => []
  | [a] => [b2n a]
  | [a, b] => [b2n a + 2 * b2n b]
  | a :: b :: c :: t => (b2n a + 2 * b2n b + 4 * b2n c) :: bitsGroups t

/-- The groups of a frame's bytes (R337, R350). -/
def bytesGroups (bs : List Byte) : List LineItem := (bitsGroups (bytesBits bs)).map .group

/-- The bits of groups. -/
def groupsBits (gs : List Nat) : List Bool := gs.flatMap (fun g => (List.range 3).map g.testBit)

/-- A byte from its bits, least significant first. -/
def bitsByte (l : List Bool) : Byte := BitVec.ofNat 8 (l.foldr (fun b v => b2n b + 2 * v) 0)

/-- The whole bytes of bits; fewer than eight left over are padding (R350). `n`: how many bytes. -/
def bitsBytes : Nat → List Bool → List Byte
  | 0, _ => []
  | n + 1, l => bitsByte (l.take 8) :: bitsBytes n (l.drop 8)

/-- The bytes of received groups. -/
def groupsBytes (gs : List Nat) : List Byte := bitsBytes (3 * gs.length / 8) (groupsBits gs)

/-- A frame on the line after a start code: SOF or PRE, its groups, and its end code (R350). -/
def frameItems (start stop : Nat) (bs : List Byte) : List LineItem := .code start :: bytesGroups bs ++ [.code stop]

/-! ## Reception -/

/-- What reception ends with: the bytes of a frame, whether a code error lay inside it, and whether ABT ended it (R360). -/
abbrev FrameEnd := List Byte × Bool × Bool

/-- A code error marks the frame in reception (R338, R360). -/
def Receiver.spoil (r : Receiver) : Receiver := { r with frame := r.frame.map (fun e => (e.1, true)) }

/-- Frames that SOF finds unfinished, the interrupted one last: SOF inside a frame is a code error in it (DEDUCED notes/assumptions/78.md). -/
def Receiver.broken (r : Receiver) : List FrameEnd := (r.frame.toList ++ r.outer.toList).map (fun e => (groupsBytes e.1, true, false))

/-- A frame ends: an interrupted one waits for RES (R350, R358). -/
def Receiver.finish (abt : Bool) (r : Receiver) : Receiver × List FrameEnd :=
  match r.frame with
  | none => (r, [])
  | some e => ({ r with frame := none }, [(groupsBytes e.1, e.2, abt)])

/-- A descrambled control code (R338, R350, R358). IDLE and LPI change nothing here: IDLE codes are added or dropped between frames by the
elastic buffer of R339, and LPI_RECEIVE tells of the LPI codes. -/
def Receiver.takeCode (c : Nat) (r : Receiver) : Receiver × List FrameEnd :=
  if c = codeSof then ({ r with frame := some ([], false), outer := none }, r.broken)
  else if c = codeEof then r.finish false
  else if c = codeAbt then r.finish true
  else if c = codePre then ({ r with frame := some ([], false), outer := if r.frame.isSome then r.frame else r.outer }, [])
  else if c = codeRes then ({ r with frame := r.outer, outer := none }, [])
  else if c = 7 then (r.spoil, [])
  else (r, [])

/-- A descrambled group of a frame; between frames none is expected. -/
def Receiver.takeGroup (g : Nat) (r : Receiver) : Receiver := { r with frame := r.frame.map (fun e => (e.1 ++ [g], e.2)) }

/-- One received pair (R336, R337, R338): a second prefix where a code belongs is a code error (DEDUCED notes/assumptions/78.md). -/
def Receiver.takePair (p : Pair) (r : Receiver) : Receiver × List FrameEnd :=
  let k := scramblerGroup r.scr
  match pairGroup p with
  | none => if r.pre then ({ r with pre := false, scr := k.2 }.spoil, []) else ({ r with pre := true }, [])
  | some g =>
    let r1 := { r with pre := false, scr := k.2 }
    if r.pre then r1.takeCode (g ^^^ k.1) else (r1.takeGroup (g ^^^ k.1), [])

/-- Received pairs in order: the receiver after them, and the frames that ended among them. -/
def Receiver.takePairs : List Pair → Receiver → Receiver × List FrameEnd
  | [], r => (r, [])
  | p :: t, r =>
    let a := r.takePair p
    let b := Receiver.takePairs t a.1
    (b.1, a.2 ++ b.2)

/-- The scrambler register that a group of an IDLE code leaves: an IDLE code is 0b000, so its group is the scrambler's own bits (R337). -/
def syncGroup (x : BitVec 23) (g : Nat) : BitVec 23 := (x <<< 3) ||| BitVec.ofNat 23 (4 * (g % 2) + 2 * (g / 2 % 2) + g / 4 % 2)

/-- The receiver that the IDLE codes of a training leave synchronised (R337, R344). -/
def syncIdles (ps : List Pair) : Receiver :=
  { Receiver.reset with scr := (ps.filterMap pairGroup).foldl syncGroup 0#23 }

end Sys2Proof.Machine
end

