-- ==== Sys2Proof/Machine/Routes.lean ====
section
/-!
DEFINITION. Sys2Proof/Machine/Routes.lean: the route table of a gateway, node lists, and the routes and requests that an enumeration run
works out (spec/11_fabric_discovery_and_routing.md R401, R402, R404, R405, R408, R418).
-/
namespace Sys2Proof.Machine

/-! ## The route table -/

/-- The route table entry of an ID; an ID without entry is EMPTY (R404). -/
def RouteEntry.empty : RouteEntry where
  proute := 0#32
  aroute := 0#32
  epoch := 0
  state := 0
  noalt := false
  afail := false
  pfail := false
  use := false
  ahop := 0
  phop := 0
  miss := 0
  flags := 0
  uid0 := 0#32
  uid1 := 0#32
  plist := []
  alist := []

/-- The entry of a node in this gateway's route table. -/
def entryOf (id : Nat) (s : State) : RouteEntry := (assoc id s.fab.table).getD RouteEntry.empty

/-- A route table with one entry set; an empty entry is not listed. -/
def tablePut (id : Nat) (e : RouteEntry) (t : List (Nat × RouteEntry)) : List (Nat × RouteEntry) :=
  if e = RouteEntry.empty then assocErase id t else assocPut id e t

/-- A state with the entry of a node set. -/
def setEntry (id : Nat) (e : RouteEntry) (s : State) : State := { s with fab := { s.fab with table := tablePut id e s.fab.table } }

/-- The route in use of an entry: route word and hops (R404). -/
def RouteEntry.route (e : RouteEntry) : Word × Nat := if e.use then (e.aroute, e.ahop) else (e.proute, e.phop)

/-- The ID under which this node stands in node lists: its ID, or 1023 (R404, R408). -/
def listId (s : State) : Nat := ownSrc s

/-- A node list names two nodes as consecutive entries (R408). -/
def listCrosses (a b : Nat) : List Nat → Bool
  | x :: y :: t => ((x == a && y == b) || (x == b && y == a)) || listCrosses a b (y :: t)
  | _ => false

/-- Entry i of a node list stands in bits [10i+9:10i] of its 160-bit field (R404). -/
def listEntries (ws : List Word) (n : Nat) : List Nat :=
  let v := bytesNat (wordsBytes ws)
  (List.range n).map (fun i => v / 2 ^ (10 * i) % 1024)

/-- Whether a failed link, or a node that left, lies on a node list. -/
def cutHits (a : Nat) (b : Option Nat) (l : List Nat) : Bool :=
  match b with
  | some y => listCrosses a y l
  | none => l.contains a

/-- An entry with the routes marked failed whose node lists `hit` recognises (R408): the other route where the one in use has failed, NOROUTE where both
have. -/
def RouteEntry.mark (hit : List Nat → Bool) (self : Nat) (e : RouteEntry) : RouteEntry :=
  let pf := e.pfail || hit (self :: e.plist.take e.phop)
  let af := e.afail || (!e.noalt && hit (self :: e.alist.take e.ahop))
  let dead := af || e.noalt
  { e with
    pfail := pf
    afail := af
    use := if !(pf && dead) && (if e.use then dead else pf) then !e.use else e.use
    state := if pf && dead then 2 else e.state }

/-- An entry as a run writes it, with the links that have failed since it began (R410, R418): VALID, its routes tested again. -/
def testedEntry (cuts : List (Nat × Option Nat)) (self : Nat) (e : RouteEntry) : RouteEntry :=
  { e with state := 1, pfail := false, afail := false, use := false }.mark (fun l => cuts.any (fun c => cutHits c.1 c.2 l)) self

/-! ## Routes -/

/-- The route word of a list of ports (R386). -/
def routeWord : List Nat → Nat
  | [] => 0
  | p :: t => p + 4 * routeWord t

/-- A node without any knowledge of it. -/
def EnumNode.none : EnumNode where
  uid0 := 0#32
  uid1 := 0#32
  path := []
  back := []
  id := .none
  role := 0
  enumr := false
  epoch := 0
  ports := []
  nbr := []

/-- A node of a run. -/
def nodeAt (l : List EnumNode) (i : Nat) : EnumNode := nth l i EnumNode.none

/-- A route through the nodes of a run: its ports and the nodes it reaches, in path order. -/
structure RunPath where
  ports : List Nat
  nodes : List Nat
  deriving DecidableEq, Repr

/-- The better of two routes of the same length: the lower route word (R402). -/
def lowerRoute (a : Option RunPath) (b : RunPath) : Option RunPath :=
  match a with
  | some x => if routeWord b.ports < routeWord x.ports then some b else some x
  | none => some b

/-- One more hop: the nodes not yet reached that have a neighbour among the last reached, each with its lowest route word. -/
def nextHop (l : List EnumNode) (ban : Nat → Bool) (banned : Nat → Nat → Bool) (reached : List Nat) (last : List (Nat × RunPath)) :
    List (Nat × RunPath) :=
  ((List.range l.length).filter (fun v => !natMem v reached && !ban v)).filterMap (fun v =>
    (last.foldl (fun best e =>
      (List.range 4).foldl (fun b p =>
        if nth (nodeAt l e.1).nbr p .none == some v && !banned e.1 p then lowerRoute b ⟨e.2.ports ++ [p], e.2.nodes ++ [v]⟩ else b) best)
      .none).map (fun r => (v, r)))

/-- The fewest-hops routes from a node to every node it reaches within `k` more hops. -/
def routesFrom (l : List EnumNode) (ban : Nat → Bool) (banned : Nat → Nat → Bool) : Nat → List Nat → List (Nat × RunPath) → List (Nat × RunPath)
  | 0, _, _ => []
  | k + 1, reached, last =>
    let new := nextHop l ban banned reached last
    new ++ routesFrom l ban banned k (reached ++ new.map (fun e => e.1)) new

/-- The primary routes of a gateway, which is node `g` of the run (R402): at most 16 hops. -/
def primaries (l : List EnumNode) (g : Nat) : List (Nat × RunPath) := routesFrom l (fun _ => false) (fun _ _ => false) 16 [g] [(g, ⟨[], []⟩)]

/-- The alternate route to node `t` beside its primary (R402): it shares no link and no intermediate node with it. -/
def alternate (l : List EnumNode) (g t : Nat) (p : RunPath) : Option RunPath :=
  let mid := p.nodes.filter (fun v => v != t)
  let direct := if mid.isEmpty then p.ports.head? else .none
  let banned (u q : Nat) : Bool := (u == g && direct == some q)
  (assoc t (routesFrom l (fun v => natMem v mid) banned 16 [g] [(g, ⟨[], []⟩)]))

/-- The ports of a route taken backwards: at each hop the port on which the frame arrived. -/
def backPorts (l : List EnumNode) (g : Nat) (p : RunPath) : List Nat :=
  (((g :: p.nodes).zip p.ports).map (fun e => (nth (nodeAt l e.1).ports e.2 .none).getD 0)).reverse

/-- The IDs of the nodes of a route; a node without ID stands as 1023. -/
def pathIds (l : List EnumNode) (p : RunPath) : List Nat := p.nodes.map (fun v => (nodeAt l v).id.getD 1023)

/-- The entry for node `t` in the table of the gateway that is node `g` (R402, R404). -/
def runEntry (l : List EnumNode) (g t : Nat) (p : RunPath) : RouteEntry :=
  let a := alternate l g t p
  let n := nodeAt l t
  { RouteEntry.empty with
    proute := BitVec.ofNat 32 (routeWord p.ports)
    phop := p.ports.length
    plist := pathIds l p
    aroute := BitVec.ofNat 32 (match a with | some x => routeWord x.ports | .none => 0)
    ahop := match a with | some x => x.ports.length | .none => 0
    alist := match a with | some x => pathIds l x | .none => []
    noalt := a.isNone
    epoch := n.epoch
    state := 1
    uid0 := n.uid0
    uid1 := n.uid1 }

/-- The entries of the table of gateway `g`, by ID. -/
def runTable (l : List EnumNode) (g : Nat) : List (Nat × RouteEntry) :=
  (primaries l g).filterMap (fun e =>
    if e.1 = 0 then .none else (nodeAt l e.1).id.map (fun id => (id, runEntry l g e.1 e.2)))

/-- A node list in words: entry k in bits 10k up (R404). -/
def packList (ids : List Nat) : List Word :=
  let v := ((ids.take 16).zipIdx.map (fun e => e.1 % 1024 * 2 ^ (10 * e.2))).sum
  (List.range 5).map (fun j => BitVec.ofNat 32 (v / 2 ^ (32 * j)))

/-- The 16 words of an entry (R404). -/
def entryWords (e : RouteEntry) : List Word :=
  [e.proute, e.aroute,
   BitVec.ofNat 32 (e.phop + 256 * e.ahop + 65536 * b2n e.use + 2 ^ 17 * b2n e.pfail + 2 ^ 18 * b2n e.afail + 2 ^ 19 * b2n e.noalt
     + 2 ^ 20 * e.state + 2 ^ 24 * e.epoch),
   BitVec.ofNat 32 (e.flags + 256 * e.miss), e.uid0, e.uid1] ++ packList e.plist ++ packList e.alist

/-- The entry that 16 words spell. -/
def readEntry (ws : List Word) : RouteEntry :=
  let w2 := nth ws 2 0#32
  let w3 := nth ws 3 0#32
  let ph := getBits w2 0 5
  let ah := getBits w2 8 5
  { proute := nth ws 0 0#32
    aroute := nth ws 1 0#32
    epoch := getBits w2 24 8
    state := getBits w2 20 2
    noalt := w2.getLsbD 19
    afail := w2.getLsbD 18
    pfail := w2.getLsbD 17
    use := w2.getLsbD 16
    ahop := ah
    phop := ph
    miss := getBits w3 8 8
    flags := getBits w3 0 8
    uid0 := nth ws 4 0#32
    uid1 := nth ws 5 0#32
    plist := listEntries ((ws.drop 6).take 5) ph
    alist := listEntries ((ws.drop 11).take 5) ah }

/-! ## The requests of a run -/

/-- The prefix of an enumeration request (R390, R401): ANYEP, and the way back. -/
def enumPrefix (back : List Nat) : List Word := [BitVec.ofNat 32 (routeWord back), BitVec.ofNat 32 (2 ^ 18 + back.length)]

/-- A request by route word of the run; its TAG is filled in when it leaves. -/
def runFrame (t : FrameType) (path back : List Nat) (body : List Word) (s : State) : Frame :=
  ⟨t, .c, .routeWord, BitVec.ofNat 32 (routeWord path), path.length, ownSrc s, 1023, ownEpoch s, 0, enumPrefix back ++ body⟩

/-- The second gateway of a run: a node with the gateway role (R401, R402). -/
def secondGateway (l : List EnumNode) : Option Nat :=
  (List.range l.length).find? (fun i => i != 0 && (nodeAt l i).role == 1)

/-- The routes of a home set or table entry that no link lost since the run began lies on (R418): 1 the primary, 2 the alternate, 3 both. -/
def homePick (l : List EnumNode) (g t self : Nat) (p : RunPath) (cuts : List (Nat × Option Nat)) : Nat :=
  let fails (x : RunPath) : Bool := cuts.any (fun c => cutHits c.1 c.2 (self :: pathIds l x))
  b2n (!fails p) + 2 * b2n ((alternate l g t p).any (fun a => !fails a))

/-- A WRITE of the run to node `t`, in node ID mode. -/
def homeWrite (l : List EnumNode) (t addr : Nat) (ws : List Word) (s : State) : Frame :=
  let n := nodeAt l t
  { runFrame .write n.path n.back ([BitVec.ofNat 32 addr, BitVec.ofNat 32 ws.length] ++ ws) s with mode := .nodeId, dst := n.id.getD 1023 }

/-- The two WRITEs that give node `t` its home set `k` towards gateway `g` (R402, R405): its node lists, then its routes. Of the routes of R402 it takes those that
`pick` names; with one of them failed, the other is its primary (DESIGN CHOICE notes/assumptions/93.md). -/
def homeFrame (lists : Bool) (l : List EnumNode) (g k t gwid : Nat) (p : RunPath) (pick : Nat) (s : State) : Frame :=
  let al := (alternate l g t p).getD ⟨[], []⟩
  let r1 := if pick = 2 then al else p
  let r2 : RunPath := if pick = 3 then al else ⟨[], []⟩
  let hctl := 2 ^ 31 + 2 ^ 20 * gwid + 256 * r2.ports.length + r1.ports.length
  if lists then homeWrite l t (Reg.FAB_HOME_PLIST0 k) (packList (pathIds l r1) ++ packList (pathIds l r2)) s
  else homeWrite l t (Reg.FAB_HOME_PROUTE k)
    [BitVec.ofNat 32 (routeWord (backPorts l g r1)), BitVec.ofNat 32 (routeWord (backPorts l g r2)), BitVec.ofNat 32 hctl] s

/-- ASSIGN for node `i` of a run (R401). -/
def assignFrame (l : List EnumNode) (i : Nat) (s : State) : Frame :=
  let n := nodeAt l i
  runFrame .enumeration n.path n.back [2#32, n.uid0, n.uid1, BitVec.ofNat 32 (n.id.getD 0)] s

/-- ROUTES with an entry for the second gateway `g` (R401, R402). -/
def routesFrame (l : List EnumNode) (g id : Nat) (e : RouteEntry) (s : State) : Frame :=
  let n := nodeAt l g
  runFrame .enumeration n.path n.back ([3#32, BitVec.ofNat 32 id] ++ entryWords e) s

/-- The requests of a full or recover run that follow probing (R402, step 2): ASSIGN. -/
def assignWork (l : List EnumNode) : List RunItem :=
  ((List.range l.length).filter (fun i => i != 0 && (nodeAt l i).id.isSome)).map .assign

/-- The requests that follow the writing of this gateway's own table (R402, steps 4 and 5): the second gateway's table, the home sets. -/
def routeWork (l : List EnumNode) : List RunItem :=
  let routes := match secondGateway l with
    | some g => ((runTable l g).filter (fun e => some e.1 != (nodeAt l g).id)).map (fun e => RunItem.entry e.1)
    | .none => []
  let homes (k g : Nat) : List RunItem :=
    ((primaries l g).filter (fun e => e.1 != 0 && (nodeAt l e.1).id.isSome)).map (fun e => RunItem.home k e.1 .none)
  routes ++ homes 0 0 ++ (match secondGateway l with | some g => homes 1 g | .none => [])

/-- The next request of a run's work and the work then left. Each route is tested against the links lost since the run began as it is written (R418): a
home set that has no route left is passed over. -/
def popWork (l : List EnumNode) (cuts : List (Nat × Option Nat)) (s : State) : List RunItem → Option (Frame × List RunItem)
  | [] => .none
  | .assign i :: rest => some (assignFrame l i s, rest)
  | .entry id :: rest =>
    let g := (secondGateway l).getD 0
    match assoc id (runTable l g) with
    | some e => some (routesFrame l g id (testedEntry cuts ((nodeAt l g).id.getD 1023) e) s, rest)
    | .none => popWork l cuts s rest
  | .home k t listed :: rest =>
    let g := if k = 0 then 0 else (secondGateway l).getD 0
    let gwid := if k = 0 then 1023 else (nodeAt l g).id.getD 1023
    match assoc t (primaries l g) with
    | some p =>
      let pick := homePick l g t gwid p cuts
      if pick = 0 then popWork l cuts s rest
      else if listed = some pick then some (homeFrame false l g k t gwid p pick s, rest)
      else some (homeFrame true l g k t gwid p pick s, .home k t (some pick) :: rest)
    | .none => popWork l cuts s rest

end Sys2Proof.Machine
end

