-- ==== Sys2Proof/Machine/Reqs.lean ====
section
/-!
DEFINITION. Sys2Proof/Machine/Reqs.lean: the fabric requests of a gateway that have not completed
(spec/11_fabric_discovery_and_routing.md R390, R394-R396, R402; spec/12_host_interface.md R445, R447).
-/
namespace Sys2Proof.Machine

/-- The free TAGs of this gateway (R395). -/
def freeTags (s : State) : List Nat :=
  (List.range 256).filter (fun t => !(s.fab.tagsHeld.any (fun h => h.1 == t) || s.fab.reqs.any (fun r => r.tag == t)))

/-- Whether a request awaits no completion (R390). -/
def isPosted (f : Frame) : Bool := (nth f.payload 1 0#32).getLsbD 17

/-- A request's frame with REISSUE set, on another route (R396). -/
def reissueFrame (f : Frame) (route : Word × Nat) : Frame :=
  { f with route := route.1, hop := route.2, payload := setNth f.payload 1 (putBits (nth f.payload 1 0#32) 16 1 1) }

/-- What is learnt of a node goes into its entry, and into the one that is held back for it (R402, R407, R415). -/
def modEntry (id : Nat) (f : RouteEntry → RouteEntry) (s : State) : State :=
  setEntry id (f (entryOf id s)) { s with fab := { s.fab with tableHeld := s.fab.tableHeld.map (fun e => if e.1 = id then (id, f e.2) else e) } }

/-- An entry held back until the requests to its node have completed is written (R402). -/
def applyHeld (id : Nat) (s : State) : State :=
  if s.fab.reqs.any (fun r => r.node == some id) then s
  else
    match assoc id s.fab.tableHeld with
    | some e => setEntry id e { s with fab := { s.fab with tableHeld := assocErase id s.fab.tableHeld } }
    | none => s

/-- A TAG for a new request: which of the free ones is a free value (R395, R445). -/
def pickTag (s : State) : Option Nat :=
  match freeTags s with
  | [] => none
  | t :: ts => some (nth (t :: ts) ((freeWord s).toNat % (ts.length + 1)) t)

/-- A request of the run leaves with a TAG. -/
def sendRunReq (f : Frame) (tag : Nat) (s : State) : State :=
  let g := { f with tag := tag }
  let r : Req := ⟨tag, none, if f.mode = .nodeId then some f.dst else none, g, 0, false, s.now, none, 0⟩
  sendRouted g (refreshOut { s with fab := { s.fab with reqs := s.fab.reqs ++ [r] } })

/-- The requests of the run that are outstanding. -/
def runReqs (s : State) : List Req := s.fab.reqs.filter (fun q => q.slot.isNone)

/-- The run with its state changed. -/
def modRun (f : EnumRun → EnumRun) (s : State) : State := { s with fab := { s.fab with run := s.fab.run.map f } }

/-- A probe of the run, across port `p` of node `i` (R401). -/
def probeFrame (l : List EnumNode) (i p : Nat) (s : State) : Frame :=
  let n := nodeAt l i
  runFrame .enumeration (n.path ++ [p]) ((nth n.ports p none).getD 0 :: n.back) [1#32] s

/-- The run sends its next request, a probe or one of its work, where fewer than 16 are outstanding and a TAG is free (R395, R402). -/
def runSend (s : State) : State :=
  match s.fab.run with
  | none => s
  | some r =>
    if 16 ≤ (runReqs s).length then s
    else if !r.planned then
      match r.todo, pickTag s with
      | (i, p) :: rest, some tag =>
        sendRunReq (probeFrame r.nodes i p s) tag (useFree (modRun (fun x => { x with todo := rest, out := r.out ++ [(tag, i, p)] }) s))
      | _, _ => s
    else
      match popWork r.nodes r.cuts s r.work, pickTag s with
      | none, _ => modRun (fun x => { x with work := [] }) s
      | some (f, rest), some tag => sendRunReq f tag (useFree (modRun (fun x => { x with work := rest }) s))
      | _, none => s

/-- What a completion reports for a fabric request (R447). -/
def reqDone (r : Req) (st : Status) (data : List Word) (tval : Nat) (cached : Bool) (epoch : Nat) (c : HostCmd) : HostDone :=
  { localDone st data tval c with
    reissued := r.reissued
    cached := cached
    node := r.node
    epoch := epoch
    tag := if r.tag < 256 then r.tag else 0 }

/-- A request of the run is over, performed or not; one that was not leaves the run short of its end (R402). -/
def runDone (r : Req) (good : Bool) (s : State) : State :=
  modRun (fun x => { x with out := x.out.filter (fun e => e.1 != r.tag), short := x.short || !good }) s

/-- A request no longer outstanding: its TAG is free, and an entry that waited for it is written (R395, R402). -/
def dropReq (r : Req) (s : State) : State :=
  let s1 := { s with fab := { s.fab with reqs := s.fab.reqs.filter (fun e => e.tag != r.tag) } }
  refreshOut (match r.node with
    | some id => applyHeld id s1
    | none => s1)

/-- An outstanding request ends and its command completes (R447); the run, which may have waited for a TAG, goes on sending (R402). -/
def finishReq (r : Req) (st : Status) (data : List Word) (tval : Nat) (cached : Bool) (epoch : Nat) (s : State) : State :=
  let s1 := dropReq r s
  runSend (match r.slot with
    | some k => finishHost k (reqDone r st data tval cached epoch) s1
    | none => runDone r (st == .ok || st == .delayed) s1)

/-- The request, not yet sent, that a frame leaving a port carries. -/
def Req.isFrame (r : Req) (f : Frame) : Bool :=
  r.sent.isNone && r.frame.type == f.type && r.frame.mode == f.mode &&
    (if f.mode = .broadcast then r.frame.payload == f.payload else r.tag == f.tag)

/-- A request that has not left still waits in a queue here. -/
def Req.waits (r : Req) (s : State) : Bool :=
  s.lnk.ports.any (fun p => (p.qa ++ p.qb ++ p.qc ++ p.qd).any (fun e => r.isFrame e.2)) || s.fab.bwait.any (fun e => r.frame.payload == e.2.2)

/-- When the time limit of R395 begins: as the request leaves; for one whose frame has been discarded here (R386, R389), as it was issued
(DEDUCED notes/assumptions/58.md). -/
def Req.start (r : Req) (s : State) : Option Nat :=
  match r.sent with
  | some t => some t
  | none => if r.waits s then none else some r.issued

/-- A frame of this node's own traffic has left: its request is outstanding from now on, and a posted or broadcast WRITE completes with
OK (R394, R395, R445). -/
def frameLeft (f : Frame) (s : State) : State :=
  match s.fab.reqs.find? (fun r => r.isFrame f) with
  | none => s
  | some r =>
    if isPosted f || f.mode == .broadcast then finishReq r .ok [] 0 false 0 s
    else { s with fab := { s.fab with reqs := s.fab.reqs.map (fun e => if e.tag = r.tag then { e with sent := some s.now } else e) } }

/-- A request goes on the route now in use (R396): one that has left is sent again, with REISSUE set and its time limit restarted; one that still waits
here moves to the new route as it is. The egress waits of its copies add up (R394; DESIGN CHOICE notes/assumptions/58.md). -/
def reissueReq (r : Req) (route : Word × Nat) (s : State) : State :=
  let left := r.sent.isSome
  let f := if left then reissueFrame r.frame route else { r.frame with route := route.1, hop := route.2 }
  let e1 := fun (e : Req) => { e with
    frame := f
    reissued := r.reissued || left
    sent := none
    issued := if left then s.now else e.issued
    waited := match r.sent with | some t => r.waited + (t - r.issued) | none => r.waited }
  let keep (q : List (Nat × Frame)) := q.filter (fun e => !(e.1 == 4 && e.2.type == f.type && e.2.tag == r.tag && e.2.mode == f.mode))
  let s1 := { s with
    lnk := { s.lnk with ports := s.lnk.ports.map (fun p => { p with qc := keep p.qc, qd := keep p.qd }) }
    fab := { s.fab with reqs := s.fab.reqs.map (fun e => if e.tag = r.tag then e1 e else e) } }
  sendRouted f (if left then incSat Reg.FAB_FOCNT_REISSUE s1 else s1)

/-- Every request to a node goes on its route in use (R396). -/
def reissueTo (id : Nat) (s : State) : State :=
  (s.fab.reqs.filter (fun r => r.node == some id)).foldl (fun t r => reissueReq r (entryOf id t).route t) s

/-- Every request to a node completes with a status (R408, R415). -/
def endRequestsTo (id : Nat) (st : Status) (epoch : Nat) (s : State) : State :=
  (s.fab.reqs.filter (fun r => r.node == some id)).foldl (fun t r => finishReq r st [] 0 false epoch t) s

end Sys2Proof.Machine
end

