-- ==== Sys2Proof/Machine/Lnk.lean ====
section
/-!
DEFINITION. Sys2Proof/Machine/Lnk.lean: port states, training, low-power idle, link wake, transmission and the legacy chain
(spec/10_izarlink_links.md R334-R372; spec/11_fabric_discovery_and_routing.md R398). Link loss and reception stand in Loss.lean.
-/
namespace Sys2Proof.Machine

/-! ## Port states -/

/-- The code of a port state (R343). -/
def portOff : Nat := 0
def portDown : Nat := 1
def portTrain : Nat := 2
def portUpCode : Nat := 3
def portLpi : Nat := 4
def portLegacy : Nat := 5
def portWake : Nat := 6

/-- The device's ports run: it is in ACTIVE or STANDBY, or on its way between them, and the offline self-test does not hold
them idle (R343, R347, R565). -/
def linksRun (s : State) : Bool :=
  match s.sys.phase with
  | .active | .standby | .resume => !testing 21 s
  | _ => false

/-- Whether the link PLL runs (R70): in STANDBY for a port that has left low-power idle, or is not in it yet (DESIGN CHOICE
notes/assumptions/21.md). -/
def linkClock (s : State) : Bool :=
  s.sys.phase != .standby || (List.range 4).any (fun n => portState n s == 2 || portState n s == 3)

/-- A port enters a state; `LNK_STAT.UP` and LOCK follow, and in STANDBY the link PLL (R70, R84, R343, R375, R381). -/
def enterPort (n code : Nat) (d : LineDrive) (s : State) : State :=
  let t := s |> setF (Reg.LNK_PSTAT_STATE n) code
    |> setB (Reg.LNK_PSTAT_LOCK n) (code == 3)
    |> setRegBit Reg.LNK_STAT n (code == 3)
    |> modPort n (fun p => { p with drive := d })
  if t.sys.phase = .standby then setB Reg.SYS_CLKSTAT_LPLLLK (linkClock t) t else t

/-- The preset that R342 wants at a port: EQVAL, or the field of the present band. -/
def wantedPreset (n : Nat) (s : State) : Nat :=
  if bit (Reg.LNK_PCFG_EQOVR n) s then getF (Reg.LNK_PCFG_EQVAL n) s
  else
    match s.lnk.band with
    | .cold => getF Reg.LNK_EQCFG_COLD s
    | .normal => getF Reg.LNK_EQCFG_NORMAL s
    | .warm => getF Reg.LNK_EQCFG_WARM s
    | .hot => getF Reg.LNK_EQCFG_HOT s

/-- A port begins to train: it takes the preset, the slew and the spread setting of that moment, and seeds its scrambler from its NONCE
(R71, R337, R341, R342, R344, R356). -/
def beginTraining (n : Nat) (fromLpi : Bool) (s : State) : State :=
  enterPort n portTrain .training s
    |> (fun t => if fromLpi then t else setF (Reg.LNK_PSTAT_EQACT n) (wantedPreset n t) t)
    |> modPort n (fun p => { p with
      fromLpi := fromLpi
      trainAt := s.now
      slew := getF (Reg.LNK_PCFG_SLEW n) s
      spread := bit Reg.SYS_CLKCFG_LINKSS s
      scr := Config.scramblerSeed s.lnk.nonce
      items := []
      sending := []
      rx := Receiver.reset })

/-- What a port in DOWN drives: from the moment it entered that state, its training signal for the first 5 ms of each 50 ms, but nothing in
the 10 µs after a link loss (R346, R366; DESIGN CHOICE notes/assumptions/78.md: the cycle begins on entry). -/
def downDrive (p : PortState) (now : Nat) : LineDrive :=
  if p.hush ≤ now ∧ (now - p.downAt) % (50 * ms) < 5 * ms then .training else .silent

/-- A port enters DOWN. -/
def enterDown (n : Nat) (s : State) : State :=
  modPort n (fun p => { p with downAt := s.now, drive := downDrive { p with downAt := s.now } s.now }) (enterPort n portDown .silent s)

/-- Where a port goes when it does not stay up: in legacy mode P0 and P1 to LEGACY and P2 and P3 to OFF; else OFF while EN is 0 or a fence
holds it, DOWN otherwise (R343, R366). -/
def restPort (n : Nat) (s : State) : State :=
  if bit Reg.LNK_STAT_LEGACY s then
    if n < 2 ∧ bit (Reg.LNK_PCFG_EN n) s ∧ (port n s).fenced = false then enterPort n portLegacy .legacy s else enterPort n portOff .silent s
  else if bit (Reg.LNK_PCFG_EN n) s && !(port n s).fenced then enterDown n s else enterPort n portOff .silent s

/-- PARTNER_TRAINING_DETECT (R344, R346, R347, R366): a port in DOWN trains, once its 10 µs of silence after a link loss are over; one in
low-power idle retrains from its kept coefficients. -/
def execPartnerTrainingDetect (n : Fin 4) (s : State) : Out :=
  if !linksRun s || decide (s.now < (port n s).hush) then .next s
  else if portState n s = portDown then .next (beginTraining n false s)
  else if portState n s = portLpi then .next (beginTraining n true s)
  else .next s

/-- Every credit at 0 (R398). -/
def noCredit (p : PortState) : PortState := { p with credB := 0, credC := 0, credD := 0 }

/-- Sequence spaces and retry buffers start empty, and every credit at 0 (R344, R398). -/
def freshPort (p : PortState) : PortState := { noCredit p with spA := Space.reset, spBd := Space.reset }

/-- A port that reaches UP: fresh, but after low-power idle it keeps its spaces and buffers, as R344's table holds for a training
from DOWN only (DESIGN CHOICE notes/assumptions/57.md). -/
def PortState.comeUp (p : PortState) : PortState := if p.fromLpi then noCredit p else freshPort p

/-! ## Frames on the line -/

/-- The acknowledgements that a port's next frame carries (R351, R358). -/
def acks (p : PortState) (seq : Nat) (retx : Bool) : LinkFields where
  seq := seq
  retx := retx
  akb := (p.spBd.rxNext + 63) % 64
  akbv := p.spBd.rxAny
  nakb := p.spBd.nakPend
  aka := (p.spA.rxNext + 63) % 64
  akav := p.spA.rxAny
  naka := p.spA.nakPend

/-- The pending acknowledgement of a space has left. -/
def Space.acked (sp : Space) : Space := { sp with ackPend := false, nakPend := false, nakSent := sp.nakSent || sp.nakPend }

/-- Both pending acknowledgements of a port have left, with a frame. -/
def PortState.acked (p : PortState) : PortState := { p with spA := p.spA.acked, spBd := p.spBd.acked }

/-- When the transmission of a port ends, two IDLE codes included. -/
def PortState.stop (p : PortState) : Nat := (p.sending.getLast?.map (fun e => e.stop)).getD 0

/-- A frame is still on the line. -/
def PortState.busy (p : PortState) (now : Nat) : Bool := decide (now < p.stop)

/-- A new transmission begins: the scrambler has run on through the last one and through the IDLE codes that filled the line (R337). -/
def PortState.clearLine (p : PortState) (now : Nat) : PortState :=
  { p with
    line := []
    items := []
    sending := []
    scr := scramblerSkip (p.items.length + Config.idleFill p.stop now) p.scr }

/-- The nanoseconds of a number of bit-times at 250 Mbit/s (R335). -/
def bitTimes (n : Nat) : Nat := 4 * n

/-- Bytes go on the line as a frame after what stands there: SOF, the bytes, an end code and two IDLE codes (R339, R350). -/
def PortState.putBytes (p : PortState) (f : Frame) (bs : List Byte) (end_ : Nat) (now : Nat) : PortState :=
  let begun := max now p.stop
  let stop := begun + bitTimes (lineTime f)
  { p.acked with
    line := p.line ++ [bs]
    items := p.items ++ frameItems codeSof end_ bs ++ [.code codeIdle, .code codeIdle]
    sending := p.sending ++ [⟨begun, 0, stop, p.items.length + 1, if f.cls = .a then 0 else f.payload.length, none⟩]
    lastFrame := stop }

/-- A frame goes on the line whole (R350). -/
def PortState.put (p : PortState) (f : Frame) (seq : Nat) (retx : Bool) (now : Nat) : PortState :=
  p.putBytes f (frameLine f (acks p seq retx)) codeEof now

/-- The next payload boundary at which a frame in transmission can be interrupted, in words from the start of its payload: SOF and header
take 134 bit-times, and a header is never interrupted (R358). -/
def Sent.boundary (e : Sent) (now : Nat) : Option Nat :=
  let pos := (now - (e.begun + e.shift)) / 4
  let j := max (if pos ≤ 134 then 0 else (pos - 134 + 31) / 32) (e.last.getD 0)
  if e.words = 0 ∨ e.words < j then none else some j

/-- The frame in transmission at a time, with its place among the frames of the transmission. -/
def PortState.present (p : PortState) (now : Nat) : Option (Nat × Sent) :=
  (p.sending.zipIdx.find? (fun e => decide (now < e.1.stop))).map (fun e => (e.2, e.1))

/-- What an insertion adds to the line time of the interrupted frame: PRE, the class A frame and EOF, and RES where this is the first at
its boundary (R350, R358). -/
def insertTime (first : Bool) (f : Frame) : Nat := bitTimes (lineTime f - 12 + if first then 6 else 0)

/-- Where a class A frame can be inserted: the interrupted frame's place, itself, and the boundary. The insertion waits where it would
leave more than 160 µs of line time without two consecutive IDLE codes (R339). -/
def PortState.room (p : PortState) (f : Frame) (now : Nat) : Option (Nat × Sent × Nat) :=
  match p.present now with
  | none => none
  | some (i, e) =>
    match e.boundary now with
    | none => none
    | some j => if e.stop + insertTime (e.last != some j) f ≤ e.begun + 160 * us then some (i, e, j) else none

/-- The place among the line items of the first group after a payload boundary: the group that holds the boundary's last bit is sent whole
(DESIGN CHOICE notes/assumptions/78.md). -/
def Sent.place (e : Sent) (j : Nat) : Nat := e.at_ + (128 + 32 * j + 2) / 3

/-- A class A frame is inserted into the frame in transmission: PRE, the frame and EOF, and after the last such frame RES (R358). -/
def PortState.insert (p : PortState) (f : Frame) (seq : Nat) (now : Nat) : PortState :=
  match p.room f now with
  | none => p
  | some (i, e, j) =>
    let bs := frameLine f (acks p seq false)
    let first := e.last != some j
    let put := frameItems codePre codeEof bs ++ (if first then [.code codeRes] else [])
    let k := if first then e.place j else e.place j - 1
    let t := insertTime first f
    let later (x : Sent) : Sent := { x with begun := x.begun + t, stop := x.stop + t, at_ := x.at_ + put.length }
    let now' := { e with shift := e.shift + t, stop := e.stop + t, at_ := e.at_ + put.length, last := some j }
    { p.acked with
      line := p.line ++ [bs]
      items := p.items.take k ++ put ++ p.items.drop k
      sending := p.sending.take i ++ [now'] ++ (p.sending.drop (i + 1)).map later
      spBd := { p.spBd.acked with ends := p.spBd.ends.map (fun x => if now < x then x + t else x) }
      lastFrame := p.lastFrame + t }

/-- The symbol pairs of a port's latest transmission (R336, R337). -/
def portPairs (p : PortState) : List Pair := linePairs p.scr p.items

/-- The NAKs that a port's next frame carries. -/
def PortState.naks (p : PortState) : Nat := b2n p.spA.nakPend + b2n p.spBd.nakPend

/-- A frame goes on the line of a port with number `seq`, after what stands there or inserted into it (R350, R358): it carries the pending
acknowledgements. -/
def putLine (n : Nat) (ins : Bool) (f : Frame) (seq : Nat) (retx : Bool) (s : State) : State :=
  let naks := (port n s).naks
  s |> modPort n (fun q => if ins then q.insert f seq s.now else q.put f seq retx s.now)
    |> incWrap (Reg.LNK_TXF n) |> addSat (Reg.LNK_RTY_NAKTX n) naks

/-- The LPAR frame of a port (R356). -/
def lparFrame (n : Nat) (s : State) : Frame :=
  ⟨.lpar, .a, .linkLocal, 0#32, 0, ownSrc s, 1023, ownEpoch s, 0,
    [s.lnk.nonce, BitVec.ofNat 32 (n + 256 * ownEpoch s + 65536), 0#32, 0#32]⟩

/-- The partner's NONCE in an LPAR payload is this device's own (R345 SELF). -/
def lparSelf (w : List Word) (s : State) : Bool := nth w 0 0#32 == s.lnk.nonce

/-- An LPAR payload is of the known version (R345 PARAM, R356). -/
def lparKnown (w : List Word) : Bool := getBits (nth w 1 0#32) 16 16 == 1

/-- The partner's port and epoch are stored (R356, R381). -/
def takeLpar (n : Nat) (w : List Word) (s : State) : State :=
  s |> setF (Reg.LNK_PSTAT_PPORT n) (getBits (nth w 1 0#32) 0 2) |> setF (Reg.LNK_PSTAT_PEPOCH n) (getBits (nth w 1 0#32) 8 8)

/-- LINK_UP (R337, R344, R345, R356, R69): training completes; the descrambler is synchronised on the IDLE codes received, this port's LPAR frame
has left and the partner's has been checked; one that fails keeps the port in TRAIN. -/
def execLinkUp (n : Fin 4) (lpar : List Word) (idles : List Pair) (s : State) : Out :=
  if linksRun s && portState n s == portTrain && lparKnown lpar && !lparSelf lpar s then
    .next (enterPort n portUpCode .frames s
      |> takeLpar n lpar
      |> setF (Reg.LNK_RBUF_NOW n) (port n s).comeUp.spBd.buf.length
      |> modPort n (fun p => { (p.clearLine s.now).comeUp with fromLpi := false, beatAt := s.now, rx := syncIdles idles })
      |> (fun t => putLine n false (lparFrame n t) 0 false t)
      |> incWrap (Reg.LNK_RXF n)
      |> setEvt .lnk (2 ^ n.val) |> clearFalseWake n)
  else .next s

/-- Whether the LPAR frame received gives a cause of R345: SELF its NONCE, PARAM that it is missing or of an unknown version. -/
def causeStands (cause : Nat) (lpar : Option (List Word)) (s : State) : Bool :=
  match cause with
  | 6 => lpar.any (fun w => lparSelf w s)
  | 4 => lpar.all (fun w => !lparKnown w)
  | _ => true

/-- TRAINING_ABANDON (R344, R345): 5 ms after it began, a training that has not reached UP ends: what the partner's LPAR frame told is stored, the
cause 1 to 6 is recorded and the port returns to DOWN. -/
def execTrainingAbandon (n : Fin 4) (cause : Fin 6) (lpar : Option (List Word)) (s : State) : Out :=
  if linksRun s && portState n s == portTrain && !(port n s).fromLpi && decide ((port n s).trainAt + 5 * ms ≤ s.now) &&
      causeStands (cause + 1) lpar s then
    .next (restPort n (match lpar with | some w => takeLpar n w s | none => s) |> incSat (Reg.LNK_LOSS_TRFAIL n) |> setF (Reg.LNK_PSTAT_TRCAUSE n) (cause + 1)
      |> setEvt .lnk (2 ^ (8 + n.val)))
  else .next s

/-- TRAINING_SIGNAL_CYCLE (R346): a port in DOWN takes up its cycle of 50 ms. -/
def execTrainingSignalCycle (n : Fin 4) (s : State) : Out :=
  if linksRun s && portState n s == portDown then .next (modPort n (fun p => { p with drive := downDrive p s.now }) s)
  else .next s

/-- PRESET_APPLY (R342): at an inter-frame gap of a port that is UP, the preset wanted now applies without retraining. -/
def execPresetApply (n : Fin 4) (s : State) : Out :=
  if portUp n s then .next (setF (Reg.LNK_PSTAT_EQACT n) (wantedPreset n s) s) else .next s

/-! ## Low-power idle and wake -/

/-- No frame waits to be sent at a port. -/
def PortState.quiet (p : PortState) : Bool :=
  p.qa.isEmpty && p.qb.isEmpty && p.qc.isEmpty && p.qd.isEmpty

/-- LPI_ENTRY (R347): with LPIEN at 1, a port of a device in STANDBY that has sent and received no frame for LPITO × 10 µs, and has none
to send, sends three LPI codes and falls silent. -/
def execLpiEntry (n : Fin 4) (s : State) : Out :=
  if s.sys.phase == .standby && portUp n s && bit (Reg.LNK_PCFG_LPIEN n) s && (port n s).quiet &&
      decide ((port n s).lastFrame + getF Reg.LNK_CFG_LPITO s * (10 * us) ≤ s.now) then
    .next (modPort n (fun p => { p.clearLine s.now with items := List.replicate 3 (.code codeLpi) }) (enterPort n portLpi .silent s))
  else .next s

/-- LPI_RECEIVE (R347): the partner falls silent on the reverse direction too. -/
def execLpiReceive (n : Fin 4) (s : State) : Out :=
  if portUp n s then .next (enterPort n portLpi .silent s) else .next s

/-- LPI_EXIT (R347): a side with a frame to send, or the entry to ACTIVE, sends the training signal; the port retrains from its kept
coefficients. -/
def execLpiExit (n : Fin 4) (s : State) : Out :=
  if linksRun s && portState n s == portLpi then .next (beginTraining n true s) else .next s

/-- A port sends the wake pattern (R349). -/
def sendWake (n : Nat) (s : State) : State :=
  if portState n s = portDown ∧ bit (Reg.LNK_PCFG_WAKETX n) s then modPort n ({ · with trainAt := s.now }) (enterPort n portWake .wakePattern s) else s

/-- LINK_WAKE_COMMAND (R349): in any state but DOWN, or with WAKETX at 0, no effect; the write completes with OK. -/
def linkWakeCommand (n : Nat) (s : State) : Done := .ok (sendWake n s)

def execLinkWakeCommand (n : Fin 4) (s : State) : Out := if linksRun s then (linkWakeCommand n s).out else .next s

/-- WAKE_PATTERN_END (R349): after 2.0 ms the port returns to DOWN. -/
def execWakePatternEnd (n : Fin 4) (s : State) : Out :=
  if portState n s = portWake ∧ (port n s).trainAt + 2 * ms ≤ s.now then .next (restPort n s) else .next s

/-! ## Transmission -/

/-- The sequence space of a class (R359). -/
def PortState.space (p : PortState) : Cls → Space
  | .a => p.spA
  | _ => p.spBd

/-- A port with the sequence space of a class changed. -/
def PortState.modSpace (p : PortState) (cl : Cls) (f : Space → Space) : PortState :=
  match cl with
  | .a => { p with spA := f p.spA }
  | _ => { p with spBd := f p.spBd }

/-- The size of the retry buffer of a class's space in bytes (R359). -/
def bufferSize : Cls → Nat
  | .a => 1024
  | _ => 4096

/-- The bytes a retry buffer holds. -/
def Space.bytes (sp : Space) : Nat := (sp.buf.map (fun e => frameBytes e.2.2)).sum

/-- Whether the retry buffer of a frame's space takes it: at most 31 unacknowledged frames (R359). -/
def canSend (p : PortState) (f : Frame) : Bool :=
  !f.type.sequenced ||
    ((p.space f.cls).buf.length < 31 && (p.space f.cls).bytes + frameBytes f ≤ bufferSize f.cls)

/-- The present number of unacknowledged B–D frames, and its highest since the last read (R383). -/
def refreshRbuf (n : Nat) (s : State) : State :=
  let k := (port n s).spBd.buf.length
  s |> setF (Reg.LNK_RBUF_NOW n) k |> setF (Reg.LNK_RBUF_HWM n) (max k (getF (Reg.LNK_RBUF_HWM n) s))

/-- When the frame that a port has just begun to send ends: an inserted one at the start of what is left of the interrupted frame. -/
def PortState.endOf (p : PortState) (ins : Bool) (now : Nat) : Nat :=
  if ins then
    match p.present now with
    | some (_, e) => e.begun + e.shift + bitTimes (134 + 32 * e.last.getD 0)
    | none => now
  else p.stop

/-- One hidden delay state. -/
def delayOf (n : Nat) (s : State) : DelayState := nth s.tbs.ports n DelayState.reset

/-- A state with one port's delay state changed. -/
def modDelay (n : Nat) (f : DelayState → DelayState) (s : State) : State :=
  { s with tbs := { s.tbs with ports := (List.range 4).map (fun m => if m = n then f (delayOf n s) else delayOf m s) } }

/-- The fabric time at which a frame that leaves a port now crosses the pin with its first symbol: at once, after what stands on the line, or at the
payload boundary where it is inserted (R357, R358). -/
def leaveTime (n : Nat) (ins : Bool) (f : Frame) (s : State) : Nat :=
  let p := port n s
  let at_ := if ins then
      match p.room f s.now with
      | some (_, e, j) => e.begun + e.shift + bitTimes (134 + 32 * j)
      | none => s.now
    else p.stop
  (s.ft + (at_ - s.now)) % 2 ^ 64

/-- A DELAY frame takes its timestamp as it leaves (R357, R469, R470): a response its TURN, and the sender of a request keeps t1. -/
def stampDelay (n : Nat) (ins : Bool) (f : Frame) (s : State) : Frame × State :=
  let t := leaveTime n ins f s
  let t2 := (nth f.payload 1 0#32).toNat + 2 ^ 32 * (nth f.payload 2 0#32).toNat
  if f.type ≠ .delay then (f, s)
  else
    match getBits (nth f.payload 0 0#32) 4 4 with
    | 1 => (f, modDelay n (fun d => { d with sent := some t }) s)
    | 2 => ({ f with payload := setNth f.payload 3 (BitVec.ofNat 32 (t + 2 ^ 64 - t2)) }, s)
    | _ => (f, s)

/-- A new frame leaves a port, after what stands on its line or inserted into it: a sequenced one takes the next number of its space and
stays in the retry buffer (R353, R359). -/
def sendNew (n : Nat) (ins : Bool) (input : Nat) (f0 : Frame) (s0 : State) : State :=
  let f := (stampDelay n ins f0 s0).1
  let s := (stampDelay n ins f0 s0).2
  let s1 :=
    if f.type.sequenced then
      let k := ((port n s).space f.cls).txNext
      putLine n ins f k false (modPort n (fun p => p.modSpace f.cls
        (fun sp => { sp with txNext := (k + 1) % 64, buf := sp.buf ++ [(k, input, f)] })) s)
        |> modPort n (fun p => p.modSpace f.cls (fun sp => { sp with ends := sp.ends ++ [p.endOf ins s.now] }))
    else putLine n ins f 0 false s
  let s2 := refreshRbuf n s1
  if input = 4 then frameLeft f s2 else s2

/-- The first frame of an input in a queue that may leave: its oldest, or the oldest unsequenced one while the oldest is held (R359). -/
def inputHead (p : PortState) (q : List (Nat × Frame)) (i : Nat) : Option Frame :=
  match q.find? (fun e => e.1 == i) with
  | none => none
  | some e =>
    if canSend p e.2 then some e.2
    else (q.find? (fun x => x.1 == i && !x.2.type.sequenced)).map (fun x => x.2)

/-- The input served next in a class, and its frame: the inputs take turns (R398). -/
def nextOf (p : PortState) (cl : Cls) : Option (Nat × Frame) :=
  (List.range 5).findSome? (fun k =>
    let i := (nth p.turn cl.code 4 + 1 + k) % 5
    (inputHead p (p.queue cl) i).map (fun f => (i, f)))

/-- A queue without the first occurrence of an entry. -/
def queueErase (e : Nat × Frame) : List (Nat × Frame) → List (Nat × Frame)
  | [] => []
  | x :: t => if x = e then t else x :: queueErase e t

/-- The credit of a class, in tenths of a bit-time. -/
def PortState.credit (p : PortState) : Cls → Int
  | .b => p.credB
  | .c => p.credC
  | .d => p.credD
  | .a => 0

/-- The credits after a frame of class `k` with line time `t` bit-times (R398): `k` pays the line time, down to −8400, and every class
takes its share, up to 8400. -/
def payCredits (p : PortState) (k : Cls) (t : Nat) : PortState :=
  let pay (cl : Cls) (v : Int) : Int := if cl = k then max (v - 10 * t) (-84000) else v
  { p with
    credB := min (pay .b p.credB + 6 * t) 84000
    credC := min (pay .c p.credC + 3 * t) 84000
    credD := min (pay .d p.credD + 1 * t) 84000 }

/-- The class of B to D that R398 serves: the first ready one with a credit of 0 or more, or the ready one with the largest credit. -/
def chooseClass (p : PortState) : Option Cls :=
  let ready := [Cls.b, Cls.c, Cls.d].filter (fun cl => (nextOf p cl).isSome)
  match ready.find? (fun cl => decide (0 ≤ p.credit cl)) with
  | some cl => some cl
  | none => ready.foldl (fun best cl =>
      match best with
      | none => some cl
      | some o => if p.credit o < p.credit cl then some cl else some o) none

/-- The next frame of a class leaves a port. -/
def serveClass (n : Nat) (ins : Bool) (cl : Cls) (s : State) : State :=
  match nextOf (port n s) cl with
  | none => s
  | some (i, f) =>
    let pay (p : PortState) := if cl = .a then p else payCredits p cl (lineTime f)
    sendNew n ins i f (modPort n (fun p =>
      { (pay p).setQueue cl (queueErase (i, f) (p.queue cl)) with turn := setNth p.turn cl.code i }) s)

/-- An acknowledgement waits at a port (R358). -/
def ackWaits (p : PortState) : Bool := p.spA.ackPend || p.spBd.ackPend || p.spA.nakPend || p.spBd.nakPend

/-- A LACK frame (R353, R358). -/
def lackFrame (s : State) : Frame := ⟨.lack, .a, .linkLocal, 0#32, 0, ownSrc s, 1023, ownEpoch s, 0, []⟩

/-- A LACK leaves a port. -/
def sendLack (n : Nat) (ins : Bool) (s : State) : State := sendNew n ins 4 (lackFrame s) s

/-- A frame will follow the one in transmission within 0.5 µs, so that a pending acknowledgement waits for it (R358). -/
def frameDue (p : PortState) (now : Nat) : Bool :=
  decide (p.stop ≤ now + 500) && ((nextOf p .a).isSome || (chooseClass p).isSome)

/-- The ready class A frames are inserted into the frame in transmission while it has room for them; then, when one still waits and no
frame is due, the acknowledgement in a LACK (R358). -/
def insertReady (n : Nat) : Nat → State → State
  | 0, s => s
  | k + 1, s =>
    let p := port n s
    match nextOf p .a with
    | some (_, f) => if (p.room f s.now).isSome then insertReady n k (serveClass n true .a s) else s
    | none => if ackWaits p && !frameDue p s.now && (p.room (lackFrame s) s.now).isSome then sendLack n true s else s

/-- FRAME_TRANSMIT (R358, R359, R398): while a frame is on the line, class A frames are inserted into it; else class A goes first, then
classes B to D by their credits; with no frame to send, a pending acknowledgement leaves in a LACK, and IDLE codes fill the line. -/
def execFrameTransmit (n : Fin 4) (s : State) : Out :=
  if portUp n s then
    if (port n s).busy s.now then
      let s1 := releaseBroadcasts s
      .next (insertReady n ((port n s1).qa.length + 1) s1)
    else
      let s1 := releaseBroadcasts (modPort n (fun p => p.clearLine s.now) s)
      let p := port n s1
      if (nextOf p .a).isSome then .next (serveClass n false .a s1)
      else
        match chooseClass p with
        | some cl => .next (serveClass n false cl s1)
        | none => .next (if ackWaits p then sendLack n false s1 else s1)
  else .next s

/-! ## The legacy chain -/

/-- P0 and P1 run in legacy mode (R46, R368). -/
def legacyMode (s : State) : Bool := bit Reg.LNK_STAT_LEGACY s

/-- The line levels of bytes in Manchester code, least significant bit first (R368): a 1 as low and then high, a 0 as high and then low (DESIGN CHOICE
notes/assumptions/90.md). -/
def manchester (bs : List Byte) : List Bool := (bytesBits bs).flatMap (fun b => [!b, b])

/-- What a legacy port has on its line; a port that EN 0 or a fence holds in OFF stays silent (R343, R368). -/
def putFrames (n : Nat) (l : List (List Byte)) (s : State) : State :=
  if portState n s = portLegacy then modPort n (fun p => { p with line := l, levels := l.flatMap manchester }) s else s

/-- LEGACY_RESPONSE_FRAME (R371): a response from P1 is repeated to P0. -/
def execLegacyResponseFrame (bytes : List Byte) (s : State) : Out :=
  if linksRun s && legacyMode s && portState 1 s == portLegacy then .next (putFrames 0 [bytes] s) else .next s

end Sys2Proof.Machine
end

