-- ==== Sys2Proof/Machine/Fab.lean ====
section
/-!
DEFINITION. Sys2Proof/Machine/Fab.lean: hoofbeat, failover, streams and event reports (spec/11_fabric_discovery_and_routing.md R385, R403,
R405-R408, R412-R417; spec/12_host_interface.md R452, R455).
-/
namespace Sys2Proof.Machine

/-! ## Who and where -/

/-- This device is the gateway that runs enumeration: it holds the role and no ID (R12, R385). -/
def enumeratesHere (s : State) : Bool := hasRole s && !bit Reg.FAB_ID_VALID s && !s.fab.withdrawn

/-- The partner's ID on a port as its last BEAT gave it: validity and ID (R406, R422). -/
def partnerId (n : Nat) (s : State) : Bool × Nat :=
  let w := getBits (reg s (if n < 2 then Reg.FAB_PNODE01 else Reg.FAB_PNODE23)) (16 * (n % 2)) 16
  (decide (0x8000 ≤ w), w % 1024)

/-- A frame that has been acted on leaves the inbox. -/
def takeInbox (arrival : Nat) (f : Frame) (s : State) : State :=
  match s.fab.inbox.find? (fun e => e.arrival == arrival && e.frame == f) with
  | some e => { s with fab := { s.fab with inbox := s.fab.inbox.erase e } }
  | none => s

/-! ## Hoofbeat frames -/

/-- FLAGS of a HOOF frame (R406). -/
def hoofFlags (s : State) : Nat :=
  b2n (bit Reg.FLT_STAT_SAFE s) + 2 * b2n (bit Reg.FLT_STAT_FENCED s) + 4 * b2n s.sys.ctlBusy + 8 * b2n (hasRole s)
    + 16 * b2n (s.cms.unused == some true)

/-- The number of sources whose sticky bit is set (R406). -/
def stickyCount (s : State) : Nat := ((List.range 4).map (fun j => popCount (reg s (Reg.FLT_STK j)))).sum

/-- PORTS of a HOOF frame: ports UP, ports fenced (R406). -/
def hoofPorts (s : State) : Nat :=
  getF Reg.LNK_STAT_UP s + 16 * ((List.range 4).map (fun n => b2n (port n s).fenced * 2 ^ n)).sum

/-- The four payload words of a HOOF frame (R406): `lport` and `pid` stand for bytes 4 and 6–7, which only LINKDOWN and LINKUP name. -/
def hoofWords (kind lport pid : Nat) (s : State) : List Word :=
  [BitVec.ofNat 32 (kind + 256 * hoofFlags s + 65536 * (if bit Reg.FAB_ID_VALID s then 0x8000 + getF Reg.FAB_ID_ID s else 0)),
   BitVec.ofNat 32 (lport + 65536 * pid),
   BitVec.ofNat 32 ((if kind = 1 then stickyCount s else 0) + 65536 * hoofPorts s),
   BitVec.ofNat 32 s.ft]

/-- KIND of a HOOF frame. -/
def hoofKind (f : Frame) : Nat := getBits (nth f.payload 0 0#32) 0 8

/-- The sender of a HOOF frame as node lists name it: its ID, or 1023 for a node without one (R404, R408). -/
def hoofSender (f : Frame) : Nat :=
  let w := getBits (nth f.payload 0 0#32) 16 16
  if 0x8000 ≤ w then w % 1024 else 1023

/-- The partner that a LINKDOWN or LINKUP notice names. -/
def hoofPartner (f : Frame) : Nat :=
  let w := getBits (nth f.payload 1 0#32) 16 16
  if 0x8000 ≤ w then w % 1024 else 1023

/-- LPORT and PID for a notice about a port. -/
def noticeFields (n cause : Nat) (s : State) : Nat × Nat :=
  let (v, id) := partnerId n s
  (n + 16 * cause, if v then 0x8000 + id else 0)

/-- LINKDOWN_SEND (R406): a LINKDOWN notice leaves while the node holds an ID. -/
def sendLinkdown (n cause : Nat) (s : State) : State :=
  if bit Reg.FAB_ID_VALID s then
    let (l, p) := noticeFields n cause s
    broadcast .hoof .a (hoofWords 2 l p s) s
  else s

/-- LINKUP: the port reached UP and the partner's first BEAT has arrived (R406). -/
def sendLinkup (n : Nat) (s : State) : State :=
  let (l, p) := noticeFields n 0 s
  broadcast .hoof .a (hoofWords 3 l p s) s

/-- LEAVE_SEND (R406). -/
def sendLeave (s : State) : State := broadcast .hoof .a (hoofWords 4 0 0 s) s

/-- ROLEEND (R406): by a gateway that leaves the role with a port UP. -/
def sendRoleend (s : State) : State :=
  if getF Reg.LNK_STAT_UP s ≠ 0 then broadcast .hoof .a (hoofWords 5 0 0 s) s else s

/-- BEAT_SEND (R406): at a whole millisecond of fabric time, up to one core clock past it, at most 6 ns, a link-local BEAT leaves on every UP port. -/
def execBeatSend (s : State) : Out :=
  if linksRun s ∧ s.ft % ms < 6 then
    .next ((List.range 4).foldl (fun t n => if portUp n t then linkLocal n .hoof .a (hoofWords 0 0 0 t) t else t) s)
  else .next s

/-- A STATUS report leaves for the gateway of a home set (R406); without a working route it is dropped. -/
def sendStatus (k : Nat) (s : State) : State :=
  if bit (Reg.FAB_HOME_HCTL_VALID k) s then sendHome k .hoof .a 0 (hoofWords 1 0 0 s) id s else s

/-- STATUS_SEND (R406): RPT × 10 ms after the last reports, or at once after a reset. -/
def execStatusSend (s : State) : Out :=
  if linksRun s && s.fab.statusAt.all (fun t => decide (t + getF Reg.FAB_HOOF_RPT s * 10 * ms ≤ s.now)) then
    .next (sendStatus 1 (sendStatus 0 { s with fab := { s.fab with statusAt := some s.now } }))
  else .next s

/-! ## Sessions -/

/-- A session that has never been opened. -/
def Session.none : Session where
  gw := 0
  div := 0
  fill := 0
  mask := 0#32
  state := 0
  next := 0
  frames := 0#32
  sent := []
  resentTo := 0

/-- A session. -/
def sessionOf (k : Nat) (s : State) : Session := (assoc k s.fab.sessions).getD Session.none

/-- A state with a session set. -/
def setSession (k : Nat) (e : Session) (s : State) : State := { s with fab := { s.fab with sessions := assocPut k e s.fab.sessions } }

/-- Every session changed by a function. -/
def mapSessions (f : Session → Session) (s : State) : State :=
  { s with fab := { s.fab with sessions := s.fab.sessions.map (fun e => (e.1, f e.2)) } }

/-- `a` stands before `b` in the wrapping count of words (R115). -/
def wordBefore (a b : Nat) : Bool := a ≠ b && (b + 2 ^ 32 - a) % 2 ^ 32 < 2 ^ 31

/-- The later of two word indices. -/
def laterWord (a b : Nat) : Nat := if wordBefore a b then b else a

/-- SESSION_REWIND (R413): the open sessions to a gateway send again, with RESENT, every frame first sent within the last
`FAB_SCFG.REWIND`, and then go on. -/
def rewindSessions (k : Nat) (s : State) : State :=
  let since := s.now - getF Reg.FAB_SCFG_REWIND s * 100000
  mapSessions (fun e =>
    if e.gw = k ∧ e.state = 1 then
      { e with
        next := (e.sent.filter (fun x => decide (since ≤ x.2))).foldl (fun a x => if wordBefore x.1 a then x.1 else a) e.next
        resentTo := laterWord e.resentTo e.next }
    else e) s

/-- The sessions to a gateway are suspended and keep their next word (R414). -/
def suspendSessions (k : Nat) (s : State) : State :=
  mapSessions (fun e => if e.gw = k ∧ e.state = 1 then { e with state := 2 } else e) s

/-! ## Failover -/

/-- The node lists of a home set, the gateway before entry 0 (R404, R405). -/
def homeLists (k : Nat) (s : State) : List Nat × List Nat :=
  let gw := getF (Reg.FAB_HOME_HCTL_GWID k) s
  (gw :: listEntries [reg s (Reg.FAB_HOME_PLIST0 k), reg s (Reg.FAB_HOME_PLIST1 k), reg s (Reg.FAB_HOME_PLIST2 k),
      reg s (Reg.FAB_HOME_PLIST3 k), reg s (Reg.FAB_HOME_PLIST4 k)] (getF (Reg.FAB_HOME_HCTL_PHOP k) s),
   gw :: listEntries [reg s (Reg.FAB_HOME_ALIST0 k), reg s (Reg.FAB_HOME_ALIST1 k), reg s (Reg.FAB_HOME_ALIST2 k),
      reg s (Reg.FAB_HOME_ALIST3 k), reg s (Reg.FAB_HOME_ALIST4 k)] (getF (Reg.FAB_HOME_HCTL_AHOP k) s))

/-- A change of USE is counted and reported (R408). -/
def countSwitch (s : State) : State :=
  setEvt .fab 1 (incSat Reg.FAB_FOCNT_SWITCH { s with fab := { s.fab with switches := (s.fab.switches + 1) % 65536 } })

/-- A home set after a failure that `hit` recognises in a node list (R408, R419): source 101 for each route that fails; the other route
where the one in use has failed; source 102 and suspended sessions when both have failed. -/
def failHome (hit : List Nat → Bool) (k : Nat) (s : State) : State :=
  if !bit (Reg.FAB_HOME_HCTL_VALID k) s then s
  else
    let (pl, al) := homeLists k s
    let noAlt := getF (Reg.FAB_HOME_HCTL_AHOP k) s == 0
    let newP := hit pl && !bit (Reg.FAB_HOME_HCTL_PFAIL k) s
    let newA := !noAlt && hit al && !bit (Reg.FAB_HOME_HCTL_AFAIL k) s
    if !newP && !newA then s
    else
      let s1 := if newP then pulse 101 (setB (Reg.FAB_HOME_HCTL_PFAIL k) true s) else s
      let s2 := if newA then pulse 101 (setB (Reg.FAB_HOME_HCTL_AFAIL k) true s1) else s1
      let pf := bit (Reg.FAB_HOME_HCTL_PFAIL k) s2
      let af := noAlt || bit (Reg.FAB_HOME_HCTL_AFAIL k) s2
      let use := bit (Reg.FAB_HOME_HCTL_USE k) s2
      if pf && af then suspendSessions k (pulse 102 s2)
      else if (if use then af else pf) then
        let s3 := countSwitch (setB (Reg.FAB_HOME_HCTL_USE k) (!use) s2)
        rewindSessions k { s3 with fab := { s3.fab with planned := setNth s3.fab.planned k none } }
      else s2

/-- An entry of the route table after a failure (R408): the other route with every outstanding request re-issued, or NOROUTE with every
request completed. -/
def failEntry (hit : List Nat → Bool) (id : Nat) (s : State) : State :=
  let e := entryOf id s
  let m := e.mark hit (listId s)
  if (e.state ≠ 1 ∧ e.state ≠ 3) ∨ m = e then s
  else if m.state = 2 then endRequestsTo id .noRoute 0 (setEvt .fab 2 (setEntry id m s))
  else if m.use ≠ e.use then reissueTo id (countSwitch (setEntry id m s))
  else setEntry id m s

/-- ROUTE_FAILOVER (R408): every home set, and at a gateway every entry of the route table, is tested, and every entry that
is held back (R402, R418). -/
def failRoutes (hit : List Nat → Bool) (s : State) : State :=
  let s0 := failHome hit 1 (failHome hit 0 s)
  let s1 := { s0 with fab := { s0.fab with tableHeld := s0.fab.tableHeld.map (fun e => (e.1, e.2.mark hit (listId s0))) } }
  if hasRole s1 then (s1.fab.table.map (fun e => e.1)).foldl (fun t id => failEntry hit id t) s1 else s1

/-- A link that fails while an enumeration runs is remembered, so that the run tests each route again before it writes it (R418). -/
def noteCut (a : Nat) (b : Option Nat) (s : State) : State :=
  match s.fab.run with
  | some r => { s with fab := { s.fab with run := some { r with cuts := (a, b) :: r.cuts } } }
  | none => s

/-- The routes over a failed link fail (R408). -/
def failLink (a : Nat) (b : Option Nat) (s : State) : State := failRoutes (cutHits a b) (noteCut a b s)

/-! ## Notices -/

/-- A HOOF frame of a kind. -/
def isHoof (kind : Nat) (f : Frame) : Bool := f.type == .hoof && hoofKind f == kind

/-- BEAT_RECEIVE (R406): the partner's ID is stored; the first BEAT since the port reached UP lets the LINKUP notice leave. -/
def execBeatReceive (n : Fin 4) (f : Frame) (s : State) : Out :=
  if isHoof 0 f && linksRun s then
    let v := getBits (nth f.payload 0 0#32) 16 16
    let a := if n.val < 2 then Reg.FAB_PNODE01 else Reg.FAB_PNODE23
    let s1 := modPort n (fun p => { p with beatAt := s.now })
      (setReg a (putBits (reg s a) (16 * (n.val % 2)) 16 (v / 0x8000 * 0x8000 + v % 1024)) (takeInbox n f s))
    if (port n s1).beatSeen then .next s1
    else .next (sendLinkup n (modPort n (fun p => { p with beatSeen := true }) s1))
  else .next s

/-- LINKDOWN_RECEIVE (R408): the routes whose node list crosses the link fail. -/
def execLinkdownReceive (arrival : Fin 4) (f : Frame) (s : State) : Out :=
  if isHoof 2 f && linksRun s then .next (failLink (hoofSender f) (some (hoofPartner f)) (takeInbox arrival f s)) else .next s

/-- LINKUP_RECEIVE (R399, R410): the hold-off of a gateway restarts; no route is taken back. -/
def execLinkupReceive (arrival : Fin 4) (f : Frame) (s : State) : Out :=
  if isHoof 3 f && linksRun s then
    let s1 := takeInbox arrival f s
    .next (if hasRole s1 then { s1 with fab := { s1.fab with holdSince := some s1.now } } else s1)
  else .next s

/-- The sender of a HOOF frame can stand in a node list: it has an ID, or is a gateway (R404, R406). -/
def hoofListed (f : Frame) : Bool := (nth f.payload 0 0#32).getLsbD 31 || (nth f.payload 0 0#32).getLsbD 11

/-- LEAVE_RECEIVE (R408): every link of the sender fails. -/
def execLeaveReceive (arrival : Fin 4) (f : Frame) (s : State) : Out :=
  if isHoof 4 f && linksRun s then
    let s1 := takeInbox arrival f s
    .next (if hoofListed f then failLink (hoofSender f) none s1 else s1)
  else .next s

/-- ROLEEND_RECEIVE (R414): the sessions to that gateway are suspended. -/
def execRoleendReceive (arrival : Fin 4) (f : Frame) (s : State) : Out :=
  if isHoof 5 f && linksRun s then
    let s1 := takeInbox arrival f s
    match homeSet (hoofSender f) s1 with
    | some k => .next (suspendSessions k s1)
    | none => .next s1
  else .next s

/-- A gateway's entry takes an epoch; when it changes, every request still outstanding to the node completes with NODE_RESET (R415). -/
def takeEpoch (id epoch : Nat) (s : State) : State :=
  let e := entryOf id s
  if e.state = 0 ∨ e.epoch = epoch then s
  else
    let s1 := modEntry id (fun x => { x with epoch := epoch }) s
    let s2 := setEvt .fab 16 { s1 with fab := { s1.fab with epochChanges := s1.fab.epochChanges + 1 } }
    endRequestsTo id .nodeReset 0 s2

/-- STATUS_RECEIVE (R404, R406, R407, R415): FLAGS are stored, MISS restarts, SILENT returns to VALID, and the epoch is taken. -/
def execStatusReceive (arrival : Fin 4) (f : Frame) (s : State) : Out :=
  if isHoof 1 f && linksRun s then
    let s1 := takeInbox arrival f s
    let id := hoofSender f
    let e := entryOf id s1
    if hasRole s1 && e.state != 0 then
      .next (takeEpoch id f.epoch (modEntry id (fun x =>
        { x with flags := getBits (nth f.payload 0 0#32) 8 8, miss := 0, state := if x.state = 3 then 1 else x.state }) s1))
    else .next s1
  else .next s

/-- STATUS_MISSED (R407): MISS counts; at 3 the entry becomes SILENT, source 100 is raised and NODELOST set. -/
def execStatusMissed (id : Fin 1023) (s : State) : Out :=
  let e := entryOf id s
  if hasRole s && (e.state == 1 || e.state == 3) then
    let s1 := modEntry id (fun x => { x with miss := min (x.miss + 1) 255, state := if 3 ≤ min (x.miss + 1) 255 ∧ x.state = 1 then 3 else x.state }) s
    .next (if (entryOf id s1).state ≠ e.state then setEvt .fab 8 (pulse 100 s1) else s1)
  else .next s

/-- BROADCAST_PAIR_EXPIRY (R387): a pair has been kept for 2 ms. -/
def execBroadcastPairExpiry (src : Fin 1024) (tag : Fin 256) (s : State) : Out :=
  .next { s with fab := { s.fab with bpairs := s.fab.bpairs.filter (fun e => !(e.1 == src.val && e.2.1 == tag.val && decide (e.2.2 + 2 * ms ≤ s.now))) } }

/-- Stream frames of this node to the gateway of a home set have been sent and await the acknowledgement of their first link (R403). -/
def streamsOut (k : Nat) (s : State) : Bool :=
  s.lnk.ports.any (fun p => p.spBd.buf.any (fun e =>
    e.2.1 == 4 && e.2.2.type == .stream && e.2.2.dst == getF (Reg.FAB_HOME_HCTL_GWID k) s))

/-- PLANNED_SWITCH_RESUME (R403): every frame sent has been acknowledged and a further 200 µs have passed. -/
def execPlannedSwitchResume (k : Fin 2) (s : State) : Out :=
  if !streamsOut k s && (nth s.fab.planned k none).any (fun t => decide (t + 200 * us ≤ s.now)) then
    .next { s with fab := { s.fab with planned := setNth s.fab.planned k none } }
  else .next s

/-- TAG_RELEASE (R395): a TAG kept out of use for a further TMO after a timeout is free again; the run may have waited for it. -/
def execTagRelease (tag : Fin 256) (s : State) : Out :=
  .next (runSend { s with fab := { s.fab with
    tagsHeld := s.fab.tagsHeld.filter (fun h => !(h.1 == tag.val && decide (h.2 + getF Reg.FAB_TCFG_TMO s * 100 * us ≤ s.now))) } })

/-! ## Streams -/

/-- The slot of channel `c`'s record of word `w` (R116). -/
def historySlot (c w : Nat) (s : State) : Nat :=
  s.cms.histBase + ((List.range c).filter (fun k => s.cms.chen.getLsbD k)).length * historyDepth s + w % historyDepth s

/-- The oldest word that is valid in history (R117). -/
def oldestWord (s : State) : Nat :=
  let h := (reg s Reg.CMS_HWIDX).toNat
  let st := (reg s Reg.CMS_HSTART).toNat
  let span := min (historyDepth s) ((h + 2 ^ 32 - st) % 2 ^ 32)
  (h + 2 ^ 32 - span) % 2 ^ 32

/-- The spans of words taken at one setting, oldest first: next word index, latest instant, RATE and NOTCH. -/
def wordSpans (s : State) : List (Nat × Nat × Nat × Nat) :=
  s.cms.spans ++ [((reg s Reg.CMS_HWIDX).toNat, s.cms.lastInstant, rateNow s, notchNow s)]

/-- The represented instant of word `w` of a span (R100). -/
def instantIn (e : Nat × Nat × Nat × Nat) (w : Nat) : Nat :=
  let n := wordsPerInterval e.2.2.1
  let gd := groupDelay e.2.2.1 e.2.2.2
  let last := ((e.2.1 + gd) * n + interval64 - 1) / interval64
  let back := (e.1 + 2 ^ 32 - 1 - w) % 2 ^ 32
  ((last - back) * interval64 / n + 2 ^ 64 - gd) % 2 ^ 64

/-- The fabric time of the represented instant of word `w`, at the setting that was in force (R100, R412). -/
def instantOf (w : Nat) (s : State) : Nat :=
  instantIn (((wordSpans s).find? (fun e => wordBefore w e.1)).getD ((reg s Reg.CMS_HWIDX).toNat, s.cms.lastInstant, rateNow s, notchNow s)) w

/-- The channels of a mask, in ascending order. -/
def maskChannels (m : Word) : List Nat := (List.range 25).filter (fun c => m.getLsbD c)

/-- The payload of a STREAM frame whose instants are the words `ws` (R412). -/
def streamPayload (e : Session) (ws : List Nat) (gap resent : Bool) (s : State) : List Word :=
  let t := instantOf (nth ws 0 0) s
  let chans := maskChannels e.mask
  [BitVec.ofNat 32 t, BitVec.ofNat 32 (t / 2 ^ 32), BitVec.ofNat 32 (nth ws 0 0),
   BitVec.ofNat 32 (chans.length + 256 * ws.length + 65536 * (b2n gap + 2 * b2n resent)
     + 2 ^ 24 * (getF Reg.CMS_STAT_RATEACT s + 4 * getF Reg.CMS_STAT_NOTCHACT s))]
    ++ ws.flatMap (fun w => chans.flatMap (fun c =>
        let r := recordAt (0x10000 + 8 * historySlot c w s) s
        [r.1, r.2]))

/-- The class B queue of the port a frame by route word leaves on has no room for it: its source holds it back (R26, R389). -/
def sourceHolds (f : Frame) (s : State) : Bool :=
  portOpen (routePort f.route) s && decide (16384 < queueBytes (port (routePort f.route) s).qb + frameBytes f)

/-- STREAM_FRAME_SEND (R26, R403, R412, R413, R414, R500): an open session whose FILL instants have completed sends one frame; where its next word
has been overwritten it goes on from the oldest valid word and sets GAP. While the link takes no more, the source holds the records in
history. -/
def execStreamFrameSend (k : Fin 256) (s : State) : Out :=
  let e := sessionOf k s
  if e.state = 1 ∧ linksRun s ∧ historyOut s = false ∧ bit (Reg.FAB_HOME_HCTL_VALID e.gw) s ∧ nth s.fab.planned e.gw none = none then
    match homeRoute e.gw s with
    | none => .next s
    | some (r, h) =>
      let gap := wordBefore e.next (oldestWord s)
      let w0 := if gap then oldestWord s else e.next
      let ws := (List.range e.fill).map (fun i => (w0 + i * (e.div + 1)) % 2 ^ 32)
      if ws.all (fun w => wordBefore w (reg s Reg.CMS_HWIDX).toNat) ∧ e.fill ≠ 0 then
        let resent := wordBefore w0 e.resentTo
        let f : Frame := ⟨.stream, .b, .nodeId, r, h, ownSrc s, getF (Reg.FAB_HOME_HCTL_GWID e.gw) s, ownEpoch s, k,
          streamPayload e ws gap resent s⟩
        let e1 := { e with
          next := (w0 + e.fill * (e.div + 1)) % 2 ^ 32
          frames := e.frames + 1#32
          sent := if resent then e.sent else (w0, s.now) :: e.sent.filter (fun x => decide (s.now ≤ x.2 + getF Reg.FAB_SCFG_REWIND s * 100000)) }
        .next (if sourceHolds f s then s else setSession k e1 (sendRouted f s))
      else .next s
  else .next s

/-! ## Event reports -/

/-- Room has returned in the event queue: the LOSS entry for those discarded follows (R438, R455). -/
def roomEvent (s : State) : State :=
  let n := nth s.hst.lost 2 0
  if n ≠ 0 ∧ s.hst.evq.length < 64 then
    { s with hst := { s.hst with evq := s.hst.evq ++ [⟨1023, 3, 0, s.ft, n, []⟩], lost := setNth s.hst.lost 2 0 } }
  else s

/-- An event entry enters this gateway's event queue (R452, R455): with the ring or Bus Master Enable off in generation 3 it is discarded
and counted; beyond 64 entries the newest is discarded and counted. When room returns, a LOSS entry stands before the next one. -/
def pushEvent (e : EventEntry) (s : State) : State :=
  if !hasRole s then s
  else if !isGen2 s && !(bit (Reg.HST_RCFG_EN 2) s && s.hst.pcie.busMaster) then incSat (Reg.HST_RLOST_LOST 2) s
  else
    let s1 := roomEvent s
    if s1.hst.evq.length < 64 then { s1 with hst := { s1.hst with evq := s1.hst.evq ++ [e] } }
    else pulse 108 (incSat (Reg.HST_RLOST_LOST 2) { s1 with hst := { s1.hst with lost := setNth s1.hst.lost 2 (nth s1.hst.lost 2 0 + 1) } })

/-- The four payload words of an EVENT frame (R417). -/
def eventPayload (block bits t : Nat) : List Word :=
  [BitVec.ofNat 32 block, BitVec.ofNat 32 bits, BitVec.ofNat 32 t, BitVec.ofNat 32 (t / 2 ^ 32)]

/-- An event report for the gateway of a home set; without a working route it is dropped and counted (R417). -/
def sendEvent (k : Nat) (payload : List Word) (s : State) : State :=
  if bit (Reg.FAB_HOME_HCTL_VALID k) s then sendHome k .event .c 0 payload (incSat Reg.FAB_DROP_EVDROP) s
  else incSat Reg.FAB_DROP_EVDROP s

/-- EVENT_FRAME_SEND (R417, R452): the bits of a block that have newly set leave in one frame, at most one in 100 µs, to the gateway that
`FAB_CFG.EVGW` names; a gateway's own bits enter its event queue directly. -/
def execEventFrameSend (block : Fin 6) (s : State) : Out :=
  match assoc block.val s.fab.evPend with
  | none => .next s
  | some (bits, t) =>
    if !linksRun s || (assoc block.val s.fab.evLast).any (fun u => decide (s.now < u + 100 * us)) then .next s
    else
      let s1 := { s with fab := { s.fab with evPend := assocErase block.val s.fab.evPend, evLast := assocPut block.val s.now s.fab.evLast } }
      let p := eventPayload block bits t
      if hasRole s1 then .next (pushEvent ⟨1023, 1, ownEpoch s1, s1.ft, 0, p⟩ s1)
      else
        match getF Reg.FAB_CFG_EVGW s1 with
        | 0 => .next (sendEvent 0 p s1)
        | 1 => .next (sendEvent 1 p s1)
        | _ => .next (sendEvent 1 p (sendEvent 0 p s1))

end Sys2Proof.Machine
end

