-- ==== Sys2Proof/Machine/Tbs.lean ====
section
/-!
DEFINITION. Sys2Proof/Machine/Tbs.lean: fabric time, the delay exchange, parents and holdover, reins and the SNAP pin
(spec/13_timebase_and_snapshot.md R467-R487).
-/
namespace Sys2Proof.Machine

/-! ## The timebase state -/

/-- The state of R472: 0 FREERUN, 1 ACQUIRE, 2 LOCKED, 3 HOLDOVER. -/
def tbState (s : State) : Nat := getF Reg.TBS_STAT_STATE s

/-- Whether this device acts as time root (R467). -/
def isRoot (s : State) : Bool :=
  match getF Reg.TBS_CFG_ROOT s with
  | 0 => enumeratesHere s
  | 1 => true
  | _ => false

/-- A root in the gateway role of generation 3 with the link in L0 references the host's clock, and every other device MOSC (R468). -/
def refersToHost (s : State) : Bool := isRoot s && hasRole s && !isGen2 s && bit Reg.HST_STAT_L0 s

/-- The correction of fabric time's rate in ppb: `TBS_RATE` at a root, else what TPLL follows or holds (R468, R472, R473). -/
def timeRate (s : State) : Int := if isRoot s then signed 32 (reg s Reg.TBS_RATE).toNat else s.tbs.slew

/-- Fabric time advances by one core clock of 5 ns, at the corrected rate (R468, R473). -/
def advanceTime (s : State) : State :=
  let v := (5 * (1000000000 + timeRate s) + s.tbs.frac).toNat
  { s with ft := (s.ft + v / 1000000000) % 2 ^ 64, tbs := { s.tbs with frac := v % 1000000000, hostRef := refersToHost s } }

/-- One core clock: what the block does while no command waits (DESIGN CHOICE notes/assumptions/1.md). Fabric time runs while the timebase
does (R60, R70). -/
def tick (s : State) : State :=
  let s1 := { s with now := s.now + 5 }
  if coreUp s then takeSpread s.now (advanceTime s1) else s1

/-- The four payload words of a DELAY frame of a port (R469). -/
def delayWords (n kind seq t2 turn : Nat) (s : State) : List Word :=
  let plink := s.tbs.parent && getF Reg.TBS_STAT_PARENT s == n
  [BitVec.ofNat 32 (16 * kind + seq + 256 * (getF Reg.TBS_STAT_HOPS s + 32 * b2n plink + 64 * tbState s)),
   BitVec.ofNat 32 t2, BitVec.ofNat 32 (t2 / 2 ^ 32), BitVec.ofNat 32 turn]

/-- An ANNOUNCE on every UP port (R474). -/
def announce (s : State) : State :=
  (List.range 4).foldl (fun t n => if portUp n t then linkLocal n .delay .a (delayWords n 3 0 0 0 t) t else t) s

/-- The node enters a state of R472; a TBLOCK that falls ends an impedance plan with TIME. -/
def enterTb (code : Nat) (s : State) : State :=
  let lock := decide (2 ≤ code)
  let s1 := if bit Reg.CMS_STAT_TBLOCK s && !lock then planAbort 8 s else s
  setB Reg.CMS_STAT_TBLOCK lock (setF Reg.TBS_STAT_STATE code { s1 with tbs := { s1.tbs with good := 0, bad := 0 } })

/-- The parent that R471 chooses: the UP port whose partner reports LOCKED with PLINK 0 and the fewest HOPS, ties to the lower port. -/
def bestParent (s : State) : Option (Nat × Nat) :=
  (List.range 4).foldl (fun best n =>
    match (delayOf n s).report with
    | some (2, false, h) =>
      if portUp n s then
        match best with
        | some (_, b) => if h < b then some (n, h) else best
        | none => some (n, h)
      else best
    | _ => best) none

/-- A parent is chosen (R471, R472, R474): from FREERUN the node acquires; from HOLDOVER it goes straight to LOCKED. -/
def takeParent (n h : Nat) (s : State) : State :=
  let s1 := { s with tbs := { s.tbs with parent := true, changed := some s.now, track := none, ports := s.tbs.ports.map (fun p => { p with better := none }) } }
  let s2 := s1 |> setF Reg.TBS_STAT_PARENT n |> setF Reg.TBS_STAT_HOPS (min (h + 1) 31)
  announce (match tbState s with
    | 0 => enterTb 1 s2
    | 3 => enterTb 2 s2
    | _ => s2)

/-- The node enters FREERUN (R472); source 14 when it comes from LOCKED or HOLDOVER (R476). -/
def enterFreerun (s : State) : State :=
  let s1 := if 2 ≤ tbState s then pulse 14 s else s
  setF Reg.TBS_STAT_HOPS 31 (enterTb 0 { s1 with tbs := { s1.tbs with parent := false, slew := 0 } })

/-- The node enters HOLDOVER and announces it (R472, R474, R476); HOLDMAX 0 enters FREERUN at once. -/
def enterHoldover (s : State) : State :=
  let s1 := { s with tbs := { s.tbs with parent := false, held := s.now } }
  let s2 := announce (pulse 14 (setF Reg.TBS_STAT_HOPS 31 (enterTb 3 s1)))
  if getF Reg.TBS_CFG_HOLDMAX s = 0 then enterFreerun s2 else s2

/-- PARENT_CHANGE (R471, R474): the parent is lost; another eligible one is taken at once, or the node holds over. A node that had not
locked starts again in FREERUN (DESIGN CHOICE notes/assumptions/33.md). -/
def loseParent (s : State) : State :=
  if isRoot s || !s.tbs.parent then s
  else
    match bestParent s with
    | some (n, h) => takeParent n h s
    | none => if tbState s = 2 then enterHoldover s else enterFreerun s

/-- A port has left UP, but for low-power idle, which keeps a parent (R475; DEDUCED notes/assumptions/92.md): what its partner reported no longer counts
(R471). -/
def portLostTime (n : Nat) (s : State) : State :=
  let s1 := modDelay n (fun p => { p with report := none, asked := none, sent := none, better := none }) s
  if s1.tbs.parent && getF Reg.TBS_STAT_PARENT s1 == n then loseParent s1 else s1

/-- ISROOT follows R467; a root is LOCKED with HOPS 0 and has no parent. A device that ceases to be root holds over until it chooses a
parent (DEDUCED notes/assumptions/33.md), with the correction it had as root (R472). -/
def refreshRoot (s : State) : State :=
  let r := isRoot s
  if r = bit Reg.TBS_STAT_ISROOT s then s
  else if r then
    setB Reg.TBS_STAT_ISROOT true (setF Reg.TBS_STAT_HOPS 0 (enterTb 2 { s with tbs := { s.tbs with parent := false } }))
  else
    let s1 := setB Reg.TBS_STAT_ISROOT false { s with tbs := { s.tbs with slew := signed 32 (reg s Reg.TBS_RATE).toNat } }
    match bestParent s1 with
    | some (n, h) => takeParent n h s1
    | none => enterHoldover s1

/-! ## The delay exchange -/

/-- A root hears another root (R476): ROOTCONF and, at each report, source 14, but not while its own run is in progress nor for 10 ms after it. -/
def hearRoot (s : State) : State :=
  let quiet := s.fab.run.isSome || (match s.fab.runEnd with
    | some t => decide (s.now < t + 10 * ms)
    | none => false)
  if quiet then s else pulse 14 (setB Reg.TBS_STAT_ROOTCONF true s)

/-- The HOPS that the parent last reported (R471). -/
def parentHops (s : State) : Nat :=
  match (delayOf (getF Reg.TBS_STAT_PARENT s) s).report with
  | some (_, _, h) => h
  | none => 0

/-- A partner's report is taken (R471, R474, R476). -/
def takeReport (n : Nat) (f : Frame) (s : State) : State :=
  let b := getBits (nth f.payload 0 0#32) 8 8
  let st := b / 64
  let hops := b % 32
  let s1 := modDelay n (fun p => { p with report := some (st, b / 32 % 2 == 1, hops) }) s
  if isRoot s1 then (if hops = 0 then hearRoot s1 else s1)
  else if s1.tbs.parent then
    if getF Reg.TBS_STAT_PARENT s1 = n then
      if st ≠ 2 then loseParent s1 else setF Reg.TBS_STAT_HOPS (min (hops + 1) 31) s1
    else
      let ok := st == 2 && b / 32 % 2 == 0 && decide (hops + 2 ≤ parentHops s1)
      let since := if ok then some ((delayOf n s1).better.getD s1.now) else none
      let s2 := modDelay n (fun p => { p with better := since }) s1
      match since with
      | some t =>
        if t + 1000 * ms ≤ s2.now ∧ (match s2.tbs.changed with | some c => decide (c + 1000 * ms ≤ s2.now) | none => true) = true then
          takeParent n hops s2
        else s2
      | none => s2
  else if tbState s1 = 3 ∧ s1.now < s1.tbs.held + 100 * us then s1
  else
    match bestParent s1 with
    | some (m, h) => takeParent m h s1
    | none => s1

/-- A DELAY frame of a kind. -/
def isDelay (kind : Nat) (f : Frame) : Bool := f.type == .delay && getBits (nth f.payload 0 0#32) 4 4 == kind

/-- DELAY_REQUEST_SEND (R347, R469, R475): on every UP port; in STANDBY on the parent port only, which leaves low-power idle for it. -/
def execDelayRequestSend (s : State) : Out :=
  if linksRun s then
    .next ((List.range 4).foldl (fun t n =>
      let want := if t.sys.phase = .standby then portOpen n t && t.tbs.parent && getF Reg.TBS_STAT_PARENT t == n else portUp n t
      if want then
        let k := (delayOf n t).seq
        linkLocal n .delay .a (delayWords n 1 k 0 0 t) (modDelay n (fun p => { p with seq := (k + 1) % 16, asked := some k, sent := none }) t)
      else t) s)
  else .next s

/-- The fabric time some ns ago (R357). -/
def stampAgo (ago : Nat) (s : State) : Nat := unsigned 64 (s.ft - ago)

/-- DELAY_REQUEST_RECEIVE (R357, R469): T2 is this node's fabric time as the request's first symbol crossed the pin; the response takes its TURN as it
leaves. -/
def execDelayRequestReceive (n : Fin 4) (f : Frame) (ago : Nat) (s : State) : Out :=
  if isDelay 1 f && portUp n s then
    let s1 := takeReport n f (takeInbox n f s)
    .next (linkLocal n .delay .a (delayWords n 2 (getBits (nth f.payload 0 0#32) 0 4) (stampAgo ago s) 0 s1) s1)
  else .next s

/-- `TBS_PDLY` shows the mean delay of a port, 0xFF for 255 ns and above (R470, R486); source 14 once while the mean exceeds 500 ns. -/
def reportDelay (n : Nat) (s : State) : State :=
  let l := (delayOf n s).delays
  let mean := openDiv l.sum l.length
  let s1 := setReg Reg.TBS_PDLY (putBits (reg s Reg.TBS_PDLY) (8 * n) 8 (clampI mean 0 255).toNat) s
  let slow := decide (500 * (l.length : Int) < l.sum)
  let s2 := modDelay n (fun p => { p with slow := slow }) s1
  if slow && !(delayOf n s).slow then pulse 14 s2 else s2

/-- Fabric time steps to a value: the fabric times noted of what goes on in the device move with it (R140), the engine's grid is a new one (R302), and
a rein's T that the step passes is skipped (R483). -/
def moveTime (v : Nat) (s : State) : State :=
  let shift (t : Nat) : Nat := ((t : Int) + (v - s.ft)).toNat
  let passed := s.tbs.latch.any (fun t => decide (t < v) && (decide (s.ft < t) || s.tbs.skipped))
  { s with
    ft := v
    cms := { (closeSpan s).cms with startT := shift s.cms.startT }
    xck := { s.xck with intervalAt := shift s.xck.intervalAt }
    ctl := { s.ctl with stepped := true }
    tbs := { s.tbs with skipped := passed } }

/-- TIME_STEP (R473): fabric time moves by the offset; a step of more than 244 ns moves the modulator clock phase, so R102 applies and an
impedance plan ends with TIME (R198). -/
def stepTime (off : Int) (s : State) : State :=
  let s1 := moveTime (unsigned 64 (s.ft + off)) s
  if 244 < mag off then startSettleAll (planAbort 8 s1) else s1

/-- TPLL is steered (R473): it adds at most ±100 ppm to the rate that tracks the parent, within ±2.5 % of nominal. Both that rate, drawn once for each
parent, and the correction are free values, since the loop's law is not stated (notes/assumptions/80.md). -/
def steerRate (s : State) : State :=
  let steering (v : Int) : Int := clampI v (-25000000) 25000000
  let rate := s.tbs.track.getD (steering (signed 32 (freeWord s).toNat))
  let s1 := if s.tbs.track.isSome then s else useFree s
  { useFree s1 with tbs := { s1.tbs with track := some rate, slew := steering (rate + clampI (signed 32 (freeWord s1).toNat) (-100000) 100000) } }

/-- The node steers by an offset of its parent port (R472, R473). -/
def steer (off : Int) (s : State) : State :=
  let s1 := setReg Reg.TBS_OFFS (BitVec.ofInt 32 off) s
  let s2 := if 1000 ≤ mag off then stepTime off s1 else steerRate s1
  let good := if mag off ≤ 20 then s2.tbs.good + 1 else 0
  let bad := if 250 < mag off then s2.tbs.bad + 1 else 0
  let s3 := { s2 with tbs := { s2.tbs with good := good, bad := bad } }
  if tbState s3 = 1 ∧ 16 ≤ good then enterTb 2 s3
  else if tbState s3 = 2 ∧ 4 ≤ bad then enterTb 1 s3
  else s3

/-- DELAY_RESPONSE_RECEIVE (R357, R470): t1 is the fabric time at which the request left and t4 that at which the response's first symbol crossed the
pin. A response that answers no open request gives no exchange. -/
def execDelayResponseReceive (n : Fin 4) (f : Frame) (ago : Nat) (s : State) : Out :=
  if isDelay 2 f && portUp n s then
    let s1 := takeReport n f (takeInbox n f s)
    match (delayOf n s1).sent with
    | none => .next s1
    | some t1 =>
     if (delayOf n s1).asked = some (getBits (nth f.payload 0 0#32) 0 4) then
      let t4 := stampAgo ago s
      let t2 : Int := (nth f.payload 1 0#32).toNat + 2 ^ 32 * (nth f.payload 2 0#32).toNat
      let turn : Int := (nth f.payload 3 0#32).toNat
      let t3 := t2 + turn
      let delay := openDiv ((t4 - t1) - turn) 2
      let off := openDiv ((t2 - t1) + (t3 - t4)) 2
      let s2 := reportDelay n (modDelay n (fun p => { p with asked := none, sent := none, delays := (delay :: p.delays).take 16 }) s1)
      .next (if !isRoot s2 && s2.tbs.parent && getF Reg.TBS_STAT_PARENT s2 == n then steer off s2 else s2)
     else .next s1
  else .next s

/-- ANNOUNCE_RECEIVE (R474). -/
def execAnnounceReceive (n : Fin 4) (f : Frame) (s : State) : Out :=
  if isDelay 3 f && portUp n s then .next (takeReport n f (takeInbox n f s)) else .next s

/-- HOLDOVER_PARENT_SEARCH (R474): after 100 µs in HOLDOVER the node may choose a parent. -/
def execHoldoverParentSearch (s : State) : Out :=
  if tbState s = 3 ∧ isRoot s = false ∧ s.tbs.held + 100 * us ≤ s.now then
    match bestParent s with
    | some (n, h) => .next (takeParent n h s)
    | none => .next s
  else .next s

/-- HOLDOVER_TIMEOUT (R472): HOLDOVER has lasted HOLDMAX. -/
def execHoldoverTimeout (s : State) : Out :=
  if tbState s = 3 ∧ s.tbs.held + getF Reg.TBS_CFG_HOLDMAX s * 100 * ms ≤ s.now then .next (enterFreerun s) else .next s

/-- ROOT_CONFLICT_DELAY (R476): 10 ms after the root's run has ended, HOPS 0 reports still arrive. -/
def execRootConflictDelay (s : State) : Out :=
  let heard := (List.range 4).any (fun n => portUp n s && (match (delayOf n s).report with | some (_, _, 0) => true | _ => false))
  if isRoot s && heard then .next (hearRoot s) else .next s

/-- A write of 1 to `TBS_TCMD.STEP` (R468): no effect on a device that is not root; it completes with OK. -/
def stepCommand (s : State) : Done := .ok (if isRoot s then { s with tbs := { s.tbs with stepReq := true } } else s)

/-- STEP (R468). -/
def execStep (s : State) : Out := if coreUp s then (stepCommand s).out else .next s

/-- ROOT_TIME_STEP (R468): at the 64 Sa/s boundary the root takes the step value, rounded down to a multiple of 15 625 000 ns. -/
def execRootTimeStep (s : State) : Out :=
  if s.tbs.stepReq && isRoot s then
    let v := (reg s Reg.TBS_SETH).toNat * 2 ^ 32 + (reg s Reg.TBS_SETL).toNat
    .next (moveTime (v / 15625000 * 15625000) { s with tbs := { s.tbs with stepReq := false } })
  else .next s

/-! ## Reins -/

/-- The snapshots of every block but CMS at the present edge (R480). TURN is 0 without a step and is rounded down (DESIGN CHOICE notes/assumptions/60.md). -/
def latchBlocks (s : State) : State :=
  let first := getF Reg.IMP_STAT_POINT s
  let turn := if s.imp.phase = .idle then 0
    else (planFreq first s * (s.ft - s.imp.ts) % 1000000000000 * 65536 / 1000000000000 + planPhase first s) % 65536
  let s1 := s
    |> setReg Reg.IMP_SNAP (BitVec.ofNat 32 (turn + 65536 * getF Reg.IMP_STAT_STATE s + 2 ^ 19 * first + 2 ^ 24 * getF Reg.IMP_STAT_RUN s))
    |> setReg Reg.CNV_SNAP0 (reg s Reg.CNV_STAT)
    |> setReg Reg.CNV_SNAP1 (BitVec.ofNat 32 (getBits (reg s Reg.CNV_ITOT) 0 16 * 65536 + getBits (reg s Reg.CNV_VBS) 0 16))
    |> setReg Reg.CTL_SNAP (reg s Reg.CTL_SP)
    |> setReg Reg.LNK_SNAP (BitVec.ofNat 32 (65536 * s.lnk.errSum + getF Reg.LNK_STAT_UP s))
    |> setReg Reg.FAB_SNAP (BitVec.ofNat 32 (65536 * s.fab.switches + b2n (bit (Reg.FAB_HOME_HCTL_USE 0) s) + 2 * b2n (bit (Reg.FAB_HOME_HCTL_USE 1) s)))
    |> setReg Reg.THM_SNAP (BitVec.ofNat 32 (65536 * getF Reg.THM_STAT_HOT s + getF Reg.THM_STAT_BAND s))
  (List.range 4).foldl (fun t j => setReg (Reg.FLT_SNAP j) (reg s (Reg.FLT_ACT j)) t) s1

/-- The word of the first record at or after a time that the last instants have passed (R100, R121). -/
def wordAt (t : Nat) (s : State) : Nat :=
  let l := wordSpans s
  let k := (l.findIdx? (fun e => atOrAfter e.2.1 t)).getD s.cms.spans.length
  let e := nth l k (0, 0, 0, 0)
  let back := (e.2.1 - t) * wordsPerInterval e.2.2.1 / interval64
  let b := if atOrAfter (instantIn e ((e.1 + 2 ^ 32 - 2 - back) % 2 ^ 32)) t then back + 1
    else if atOrAfter (instantIn e ((e.1 + 2 ^ 32 - 1 - back) % 2 ^ 32)) t then back else back - 1
  let w := (e.1 + 2 ^ 32 - 1 - b) % 2 ^ 32
  if k = 0 then w else laterWord (nth l (k - 1) (0, 0, 0, 0)).1 w

/-- A channel's record for a rein whose time the last instants have passed: from history where it still holds that word, else the last one
(R117, R121; DESIGN CHOICE notes/assumptions/79.md). -/
def lateRecord (c t : Nat) (s : State) : Record :=
  let w := wordAt t s
  let kept := s.cms.chen.getLsbD c && !wordBefore w (oldestWord s)
  match if kept then assoc (historySlot c w s) s.cms.hist else none with
  | some r => r
  | none => ⟨reg s (Reg.CMS_LAST (2 * c)), reg s (Reg.CMS_LAST (2 * c + 1))⟩

/-- The measurement block at a rein's time (R121): with the paths running then, every channel is to latch; records already output are kept
for it. With the paths stopped it has nothing to latch. -/
def latchRecords (t : Nat) (s : State) : State :=
  if s.cms.running ∧ atOrAfter t s.cms.startT then
    let late := atOrAfter s.cms.lastInstant t && atOrAfter s.cms.lastInstant s.cms.startT
    setB Reg.CMS_SNAPSTAT_PEND true { s with cms := { s.cms with
      snapNext := if late then some ((List.range 25).map (fun c => lateRecord c t s)) else none } }
  else s

/-- The blocks latch at the present edge (R480): late when T lies `slack` ns or more before it. -/
def latchRein (t slack : Nat) (s : State) : State :=
  let late := s.ft - t
  let s1 := if late < slack then s else setF Reg.TBS_RID_LATEUS (min (late / 1000) 255) (setB Reg.TBS_RSTAT_LATE true s)
  clearBusy (latchRecords t (latchBlocks { s1 with tbs := { s1.tbs with latch := none, skipped := false } }))

/-- The merge window of `TBS_CFG.MERGE` in ns; none: off (R485). -/
def mergeWindow (s : State) : Option Nat :=
  match getF Reg.TBS_CFG_MERGE s with
  | 0 => none
  | 1 => some 10000
  | 2 => some 100000
  | _ => some 1000000

/-- T of the last taken rein. -/
def lastRein (s : State) : Nat := (reg s Reg.TBS_RTIMEH).toNat * 2 ^ 32 + (reg s Reg.TBS_RTIMEL).toNat

/-- REIN_TAKE (R479, R480): the rein is merged, refused or taken; a taken rein whose T has passed latches at once. `origin` is none for a
node without an ID. DONE of `CMS_SNAPSTAT` clears at the take and PEND sets at T (DESIGN CHOICE notes/assumptions/79.md). -/
def takeRein (t src : Nat) (origin : Option Nat) (count : Nat) (remote : Bool) (s : State) : State :=
  let near := match mergeWindow s with
    | some w => s.tbs.taken && decide (mag ((t : Int) - lastRein s) ≤ w)
    | none => false
  if near then incSat Reg.TBS_RSTAT_MERGECNT s
  else if bit Reg.TBS_RSTAT_BUSY s then incSat Reg.TBS_RSTAT_OVRCNT s
  else if bit Reg.TBS_RSTAT_FULL s && !bit Reg.TBS_CFG_OVRMODE s then incSat Reg.TBS_RSTAT_OVRCNT s
  else
    let s1 := s
      |> setB Reg.TBS_RSTAT_OVR (bit Reg.TBS_RSTAT_FULL s) |> setB Reg.TBS_RSTAT_FULL true |> setB Reg.TBS_RSTAT_BUSY true
      |> setB Reg.TBS_RSTAT_UNSYNC (!bit Reg.CMS_STAT_TBLOCK s) |> setB Reg.TBS_RSTAT_LATE false
      |> setF Reg.TBS_RSTAT_SRC src |> setB Reg.TBS_RSTAT_REMOTE remote
      |> setReg Reg.TBS_RTIMEL (BitVec.ofNat 32 t) |> setReg Reg.TBS_RTIMEH (BitVec.ofNat 32 (t / 2 ^ 32))
      |> setReg Reg.TBS_RID (BitVec.ofNat 32 (256 * (count % 256) + match origin with | some o => 2 ^ 31 + 65536 * o | none => 0))
      |> setB Reg.CMS_SNAPSTAT_DONE false |> setB Reg.CMS_SNAPSTAT_PEND false
    let s2 := { s1 with tbs := { s1.tbs with taken := true, latch := some t, skipped := false }, cms := { s1.cms with snapT := t, snapNext := none } }
    if t < s.ft then latchRein t 1 s2 else s2

/-- This node issues a rein (R477, R478): it takes it locally, and broadcasts it where asked. -/
def issueRein (t src : Nat) (bcast : Bool) (s : State) : State :=
  let origin := if bit Reg.FAB_ID_VALID s then some (getF Reg.FAB_ID_ID s) else none
  let k := s.tbs.rein
  let s1 := takeRein t src origin k false { s with tbs := { s.tbs with rein := (k + 1) % 256 } }
  if bcast then
    broadcast .rein .b
      [BitVec.ofNat 32 t, BitVec.ofNat 32 (t / 2 ^ 32),
       BitVec.ofNat 32 ((match origin with | some o => 0x8000 + o | none => 0) + 65536 * k + 2 ^ 24 * src), 0#32] s1
  else s1

/-- A write of `TBS_REINCMD` with GO (R477). -/
def reinCommand (bcast imm : Bool) (s : State) : Done :=
  let t := if imm then (s.ft + (if bcast then getF Reg.TBS_CFG_LEAD s * 10000 else 0)) % 2 ^ 64
    else (reg s Reg.TBS_REINTH).toNat * 2 ^ 32 + (reg s Reg.TBS_REINTL).toNat
  .ok (issueRein t 3 bcast s)

/-- REIN_GO (R477). -/
def execReinGo (bcast imm : Bool) (s : State) : Out := if coreUp s then (reinCommand bcast imm s).out else .next s

/-- REIN_RECEIVE (R478, R479). -/
def execReinReceive (arrival : Fin 4) (f : Frame) (s : State) : Out :=
  if f.type == .rein && coreUp s then
    let w := nth f.payload 2 0#32
    let t := (nth f.payload 0 0#32).toNat + 2 ^ 32 * (nth f.payload 1 0#32).toNat
    let origin := if 0x8000 ≤ getBits w 0 16 then some (getBits w 0 10) else none
    .next (takeRein t (getBits w 24 3) origin (getBits w 16 8) true (takeInbox arrival f s))
  else .next s

/-- REIN_LATCH (R480): at the first core edge at or after T, at most 6 ns past it at the highest rate of R473; a step of fabric time that skipped T makes
it late (R483). -/
def execReinLatch (s : State) : Out :=
  match s.tbs.latch with
  | some t => if t ≤ s.ft then .next (latchRein t (if s.tbs.skipped then 1 else 6) s) else .next s
  | none => .next s

/-- A W1C write of `TBS_RSTAT.FULL` (R481): it clears only while BUSY is 0. -/
def clearFull (s : State) : Done := .ok (if bit Reg.TBS_RSTAT_BUSY s then s else setB Reg.TBS_RSTAT_FULL false s)

/-- FULL_CLEAR (R481). -/
def execFullClear (s : State) : Out := if coreUp s then (clearFull s).out else .next s

/-! ## The SNAP pin -/

/-- The spacing of `TBS_CFG.SNAPSP` in ns (R485). -/
def snapSpacing (s : State) : Nat := 10 ^ getF Reg.TBS_CFG_SNAPSP s * ms

/-- SNAP_EDGE (R482): a valid edge, whose rising edge stood at the pin `ago` ns before now. -/
def execSnapEdge (ago : Nat) (s : State) : Out :=
  if coreUp s && bit Reg.TBS_CFG_SNAPEN s then
    let t := (s.ft + 2 ^ 64 - ago) % 2 ^ 64
    let s1 := setB Reg.TBS_PINSTAT_SNAPLVL true { s with tbs := { s.tbs with snapAt := some (s.now - ago) } }
    let soon := match s.tbs.edge with
      | some e => decide (s.now < e + ago + snapSpacing s)
      | none => false
    if soon then
      let k := s.tbs.ignored + 1
      let s2 := incSat Reg.TBS_PINSTAT_SNAPIGN { s1 with tbs := { s1.tbs with ignored := k } }
      .next (if k = 8 then pulse 15 s2 else s2)
    else
      .next (issueRein t 1 (bit Reg.TBS_CFG_SNAPBC s) { s1 with tbs := { s1.tbs with edge := some (s.now - ago), ignored := 0 } })
  else .next s

/-- SNAP_STUCK_TIMEOUT (R482): SNAP has been high for SNAPTO seconds, which are not 0. -/
def execSnapStuckTimeout (s : State) : Out :=
  if coreUp s && bit Reg.TBS_CFG_SNAPEN s && getF Reg.TBS_CFG_SNAPTO s != 0 && !bit Reg.TBS_PINSTAT_STUCK s &&
      s.tbs.snapAt.all (fun t => decide (t + getF Reg.TBS_CFG_SNAPTO s * 1000 * ms ≤ s.now)) then
    .next (pulse 15 (setB Reg.TBS_PINSTAT_STUCK true (setB Reg.TBS_PINSTAT_SNAPLVL true s)))
  else .next s

/-- SNAP_STUCK_CLEAR (R482): SNAP has been low for 1 ms; with SNAPEN at 0 the pin is ignored. -/
def execSnapStuckClear (s : State) : Out :=
  if bit Reg.TBS_CFG_SNAPEN s then .next (setB Reg.TBS_PINSTAT_STUCK false (setB Reg.TBS_PINSTAT_SNAPLVL false s)) else .next s

end Sys2Proof.Machine
end

