-- ==== Sys2Proof/Machine/Loss.lean ====
section
/-!
DEFINITION. Sys2Proof/Machine/Loss.lean: reception, acknowledgement, replay, forwarding and link loss (spec/10_izarlink_links.md R360-R367,
R372; spec/11_fabric_discovery_and_routing.md R384-R389, R393, R407).
-/
namespace Sys2Proof.Machine

/-! ## Link loss -/

/-- A frame that link loss hands back to the forwarding layer: its port is not UP, so a routed frame is discarded and counted (R366,
R386); broadcasts and link-local frames are discarded. -/
def handBack (f : Frame) (s : State) : State :=
  match f.mode with
  | .routeWord | .nodeId => incSat Reg.FAB_ERR_NOPORT s
  | _ => s

/-- Every frame that a port holds: retry buffers, then queues. -/
def heldFrames (p : PortState) : List Frame :=
  (p.spA.buf ++ p.spBd.buf).map (fun e => e.2.2) ++ (p.qa ++ p.qb ++ p.qc ++ p.qd).map (fun e => e.2)

/-- LINK_LOSS (R366, R367, R408): the port falls silent for 10 µs, its frames go back to the forwarding layer, the cause is recorded, the source is
raised but for COMMAND, the neighbours are told, and the routes over the link fail. -/
def linkLoss (n cause : Nat) (s : State) : State :=
  let p := port n s
  let partner := partnerId n s
  let s1 := restPort n (modPort n (fun q => { q with hush := s.now + 10 * us }) s)
    |> modPort n (fun q => { freshPort q with line := [], items := [], sending := [], rx := Receiver.reset, qa := [], qb := [], qc := [], qd := [], fromLpi := false, beatSeen := false })
    |> setF (Reg.LNK_RBUF_NOW n) 0
    |> setF (Reg.LNK_LOSS_LASTCAUSE n) cause |> incSat (Reg.LNK_LOSS_LOSSCNT n)
    |> setEvt .lnk (2 ^ (4 + n))
  let s2 := (heldFrames p).foldl (fun t f => handBack f t) s1
  let s3 := if cause = 6 then s2 else pulse (88 + n) s2
  let s4 := sendLinkdown n cause s3
  let s5 := failLink (listId s4) (some (if partner.1 then partner.2 else 1023)) s4
  portLostTime n s5

/-- Whether a port counts as up for link loss: it is UP, or in low-power idle, or retrains from it (R347, R365). -/
def lossPossible (n : Nat) (s : State) : Bool := linksRun s && portOpen n s

/-- SIGNAL_ENERGY_LOSS (R365, cause 0x1). -/
def execSignalEnergyLoss (n : Fin 4) (s : State) : Out := if portUp n s then .next (linkLoss n 1 s) else .next s

/-- RECEIVE_LOCK_LOSS (R365, cause 0x2). -/
def execReceiveLockLoss (n : Fin 4) (s : State) : Out := if portUp n s then .next (linkLoss n 2 s) else .next s

/-- RETRY_BUFFER_PARITY (R365, cause 0x4). -/
def execRetryBufferParity (n : Fin 4) (s : State) : Out := if portUp n s then .next (linkLoss n 4 s) else .next s

/-- LPI_EXIT_TIMEOUT (R347, R365, cause 0x5): 200 µs after the exit began. -/
def execLpiExitTimeout (n : Fin 4) (s : State) : Out :=
  if linksRun s && portState n s == portTrain && (port n s).fromLpi && decide ((port n s).trainAt + 200 * us ≤ s.now) then .next (linkLoss n 5 s) else .next s

/-- A write of 1 to `LNK_PCMDn.RETRAIN` (R365, R372): link loss with COMMAND on a port that is up; in DOWN, TRAIN and WAKE training
restarts from DOWN. -/
def retrain (n : Nat) (s : State) : State :=
  if portState n s = portDown ∨ portState n s = portTrain ∨ portState n s = portWake then
    restPort n (modPort n (fun p => { p with fromLpi := false }) s)
  else if lossPossible n s then linkLoss n 6 s
  else s

/-- RETRAIN (R372). -/
def execRetrain (n : Fin 4) (s : State) : Out := if linksRun s then (Done.ok (retrain n s)).out else .next s

/-- A port is held in OFF, by EN 0 or by a fence (R365, R372): a port that is up first loses its link with COMMAND; a legacy port, which never declares link loss, only falls silent (R343, R371). -/
def closePort (n : Nat) (s : State) : State :=
  if lossPossible n s then linkLoss n 6 s else restPort n s

/-- A port is let out of OFF again: it trains from DOWN. -/
def openPort (n : Nat) (s : State) : State := if linksRun s && portState n s == portOff then restPort n s else s

/-- HOOFBEAT_LOST (R407): no BEAT for 3 ms; the port retrains with cause COMMAND and source 96 + n is raised. -/
def execHoofbeatLost (n : Fin 4) (s : State) : Out :=
  if portUp n s ∧ (port n s).beatAt + 3 * ms ≤ s.now then .next (pulse (96 + n) (linkLoss n 6 s)) else .next s

/-! ## Replay -/

/-- REPLAY (R361, R362): the frames of a space from entry `from_` of its buffer on are sent again with RETX; at the replay that reaches
RETRYLIM the port declares link loss with cause 0x3. -/
def replay (n : Nat) (cl : Cls) (from_ : Nat) (s : State) : State :=
  let sp := (port n s).space cl
  let k := sp.replays + 1
  if getF Reg.LNK_CFG_RETRYLIM s ≤ k then linkLoss n 3 s
  else
    let s1 := modPort n (fun p =>
      (if p.busy s.now then p else p.clearLine s.now).modSpace cl (fun x => { x with replays := k, ends := x.ends.take from_ })) s
    (sp.buf.drop from_).foldl (fun t e =>
      putLine n false e.2.2 e.1 true (incSat (Reg.LNK_RTY_REPLAY n) t)
        |> modPort n (fun p => p.modSpace cl (fun x => { x with ends := x.ends ++ [p.stop] }))) s1

/-- A frame of a space has stood unacknowledged for ACKTO × 0.1 µs since its transmission ended (R361). -/
def ackOverdue (n : Nat) (cl : Cls) (s : State) : Bool :=
  ((port n s).space cl).ends.any (fun e => decide (e + 100 * getF Reg.LNK_CFG_ACKTO s ≤ s.now))

/-- ACK_TIMEOUT (R361): the space replays from its oldest unacknowledged frame. `a`: the class A space. -/
def execAckTimeout (n : Fin 4) (a : Bool) (s : State) : Out :=
  let cl := if a then Cls.a else Cls.b
  if portUp n s && ackOverdue n cl s && !((port n s).space cl).buf.isEmpty then .next (replay n cl 0 (incSat (Reg.LNK_RTY_TIMEOUT n) s)) else .next s

/-- Stream frames to a gateway with a planned switch are outstanding: its 200 µs have not begun (R403). -/
def holdPlanned (s : State) : State :=
  { s with fab := { s.fab with planned := (List.range 2).map (fun k => if streamsOut k s then (nth s.fab.planned k none).map (fun _ => s.now) else nth s.fab.planned k none) } }

/-- An acknowledgement of number `k` covers that frame and every earlier one of its space (R361). -/
def takeAck (n : Nat) (cl : Cls) (k : Nat) (s : State) : State :=
  let sp := (port n s).space cl
  match sp.buf.findIdx? (fun e => e.1 == k) with
  | some i => refreshRbuf n (modPort n (fun p => p.modSpace cl (fun x => { x with buf := x.buf.drop (i + 1), ends := x.ends.drop (i + 1), replays := 0 })) (holdPlanned s))
  | none => s

/-- A NAK for number `k`: the space replays from it; for a frame that is not held it is ignored (R361, R372). -/
def takeNak (n : Nat) (cl : Cls) (k : Nat) (s : State) : State :=
  match ((port n s).space cl).buf.findIdx? (fun e => e.1 == k) with
  | some i => replay n cl i s
  | none => s

/-- The acknowledgement fields of a frame that passes HCRC are acted on (R360). -/
def takeAcks (n : Nat) (l : LinkFields) (s : State) : State :=
  let s1 := if l.akbv then takeAck n .b l.akb s else s
  let s2 := if l.akav then takeAck n .a l.aka s1 else s1
  let s3 := if l.nakb then takeNak n .b ((l.akb + 1) % 64) s2 else s2
  if l.naka && portUp n s3 then takeNak n .a ((l.aka + 1) % 64) s3 else s3

/-! ## Delivery and forwarding -/

/-- Whether a frame is a request of class D (R393). -/
def bulkRequest (f : Frame) : Bool := f.cls == .d && (f.type == .read || f.type == .write)

/-- A frame is delivered at this node: it waits to be acted on (R384, R393). -/
def deliver (arrival : Nat) (f : Frame) (s : State) : State :=
  let held := (s.fab.inbox.filter (fun e => bulkRequest e.frame && !e.tooMany)).length
  let tooMany := bulkRequest f && decide (min (getF Reg.FAB_ARB_DWM s) 32 ≤ held)
  { s with fab := { s.fab with inbox := s.fab.inbox ++ [⟨arrival, s.now, tooMany, f⟩] } }

/-- Whether a node ID names this node (R384, R385). -/
def meant (dst : Nat) (s : State) : Bool :=
  (bit Reg.FAB_ID_VALID s && getF Reg.FAB_ID_ID s == dst) || (dst == 1023 && enumeratesHere s)

/-- FRAME_FORWARD (R386): what a node does with a frame by route word. -/
def routeOn (arrival : Nat) (f : Frame) (s : State) : State :=
  if f.hop = 0 then incSat Reg.FAB_ERR_HOPERR s
  else if f.hop = 1 then
    let g := { f with hop := 0 }
    if f.mode = .routeWord ∨ meant f.dst s then deliver arrival g s else incSat Reg.FAB_ERR_MISDELIV s
  else
    let r := f.route >>> 2
    let out := routePort r
    if out = arrival then incSat Reg.FAB_ERR_LOOP s
    else if portOpen out s then enqueue out arrival { f with route := r, hop := f.hop - 1 } s
    else incSat Reg.FAB_ERR_NOPORT s

/-- What a node does with a broadcast (R387): one whose pair it holds is discarded silently; another is delivered and, with HOP above 1,
flooded. -/
def floodOn (arrival : Nat) (f : Frame) (s : State) : State :=
  if s.fab.bpairs.any (fun e => e.1 == f.src && e.2.1 == f.tag) then s
  else
    let s1 := deliver arrival f { s with fab := { s.fab with bpairs := (f.src, f.tag, s.now) :: s.fab.bpairs } }
    if 1 < f.hop then flood arrival { f with hop := f.hop - 1 } s1 else s1

/-- LPAR, LACK: acted on by the link layer itself (R356, R358). -/
def linkFrame (n : Nat) (f : Frame) (s : State) : State :=
  match f.type with
  | .lack => s
  | .lpar => takeLpar n f.payload s
  | _ => deliver n f s

/-- An accepted frame goes to forwarding or delivery by its MODE (R384). -/
def handOn (n : Nat) (f : Frame) (s : State) : State :=
  match f.mode with
  | .routeWord | .nodeId => routeOn n f s
  | .broadcast => floodOn n f s
  | .linkLocal => linkFrame n f s

/-! ## Reception -/

/-- A link error is counted: its counter, the running total, and one event of source 92 + n (R363, R367, R378). -/
def linkError (n : Nat) (c : Field) (s : State) : State :=
  pulse (92 + n) (incSat c { s with lnk := { s.lnk with errSum := (s.lnk.errSum + 1) % 65536 } })

/-- A NAK is due in a space, once for each frame expected (R360). -/
def wantNak (n : Nat) (cl : Cls) (s : State) : State :=
  modPort n (fun p => p.modSpace cl (fun x => if x.nakSent then x else { x with ackPend := true, nakPend := true })) s

/-- After a frame whose header cannot be trusted, a NAK is due in every space that has frames outstanding towards this port, which the receiver cannot
see: for each space a free value (R360, notes/assumptions/34.md). -/
def wantNaks (n : Nat) (s : State) : State :=
  let w := freeWord s
  let s1 := if w.getLsbD 0 then wantNak n .b (useFree s) else useFree s
  if w.getLsbD 1 then wantNak n .a s1 else s1

/-- The class whose space a received frame was expected in. -/
def spaceOf (bs : List Byte) : Cls := if headerClass bs = .a then .a else .b

/-- A received TYPE is sequenced: every type but LACK, LPAR and DELAY (R353). -/
def sequencedCode (t : Nat) : Bool := !(t == 1 || t == 2 || t == 3)

/-- A sequenced frame arrives in order: the space expects the next one and acknowledges this (R360, R361). -/
def inOrder (n : Nat) (cl : Cls) (s : State) : State :=
  modPort n (fun p => p.modSpace cl (fun x =>
    { x with rxNext := (x.rxNext + 1) % 64, rxAny := true, ackPend := true, nakPend := false, nakSent := false })) s

/-- The copy that cut-through forwarding may have begun of a frame by route word whose header passed HCRC, when the frame then fails a check: it
ends with ABT, stays in no retry buffer, and its number goes to the next frame (R364). Whether the node had begun to forward is a free value
(R364: "may"); it can have begun only on an idle port that may send. -/
def cutCopy (n : Nat) (bytes : List Byte) (s : State) : State :=
  match FrameType.ofCode (typeCode bytes), Mode.ofCode (modeCode bytes) with
  | some t, some m =>
    let f := readFrame bytes t m
    let g := { f with route := f.route >>> 2, hop := f.hop - 1 }
    let out := routePort g.route
    let p := port out s
    if bit Reg.LNK_CFG_CUTEN s && (m == .routeWord || m == .nodeId) && decide (1 < f.hop) && out != n && portUp out s && !p.busy s.now &&
        p.qa.isEmpty && p.qb.isEmpty && p.qc.isEmpty && p.qd.isEmpty && canSend p g then
      let c := (freeWord s, useFree s)
      if c.1.getLsbD 0 then
        let h := headerBytes g (acks p (p.space g.cls).txNext false)
        addSat (Reg.LNK_RTY_NAKTX out) p.naks
          (modPort out (fun q => (q.clearLine s.now).putBytes g (h ++ [crc8 h] ++ bytes.drop 16) codeAbt s.now) c.2)
      else c.2
    else s
  | _, _ => s

/-- A frame that reception ended with is checked in the order of R360: its bytes, whether a code error lay inside it, and whether ABT ended
it. An ABT frame whose header holds is discarded silently, whatever its payload check would say (DEDUCED notes/assumptions/34.md). -/
def receiveFrame (n : Nat) (a : FrameEnd) (s : State) : State :=
  let bytes := a.1
  if !portUp n s then s
  else if a.2.1 then wantNaks n (linkError n (Reg.LNK_ERRB_CODE n) s)
  else if !headerGood bytes then wantNaks n (linkError n (Reg.LNK_ERRA_HCRC n) s)
  else
    let l := readLink bytes
    let s1 := takeAcks n l s
    if !portUp n s1 then s1
    else
      let cl := spaceOf bytes
      let seq := sequencedCode (typeCode bytes)
      let expected := !seq || l.seq == ((port n s1).space cl).rxNext
      let nak (t : State) : State := if seq then wantNak n cl t else t
      let cut (t : State) : State := if expected then cutCopy n bytes t else t
      if a.2.2 then cut s1
      else if payloadBad bytes then nak (linkError n (Reg.LNK_ERRA_PCRC n) (cut s1))
      else if !lengthGood bytes then nak (linkError n (Reg.LNK_ERRB_FRAMING n) (cut s1))
      else if !expected then modPort n (fun p => p.modSpace cl (fun x => { x with ackPend := true })) s1
      else
        let s2 := if seq then inOrder n cl s1 else s1
        match FrameType.ofCode (typeCode bytes), Mode.ofCode (modeCode bytes) with
        | some t, some m => handOn n (readFrame bytes t m) (incWrap (Reg.LNK_RXF n) s2)
        | _, _ => linkError n (Reg.LNK_ERRB_FRAMING n) s2

/-- FRAME_RECEIVE (R337, R358, R360, R364): the symbol pairs received since the last such event are descrambled, and each frame that ends
among them is checked, acknowledged and handed on, or discarded. -/
def execFrameReceive (n : Fin 4) (pairs : List Pair) (s : State) : Out :=
  if !portUp n s then .next s
  else
    let a := (port n s).rx.takePairs pairs
    .next (a.2.foldl (fun t e => receiveFrame n e t)
      (modPort n (fun p => { p with rx := a.1, lastFrame := if a.2.isEmpty then p.lastFrame else max p.lastFrame s.now }) s))

end Sys2Proof.Machine
end

