-- ==== Sys2Proof/Machine/Enum.lean ====
section
/-!
DEFINITION. Sys2Proof/Machine/Enum.lean: enumeration and the completions of fabric requests (spec/11_fabric_discovery_and_routing.md
R391, R394, R395, R399-R402, R410, R415).
-/
namespace Sys2Proof.Machine

/-- The lowest IDs not in a list, `n` of them. -/
def lowestFree (used : List Nat) (n : Nat) : List Nat := ((List.range 1023).filter (fun i => !natMem i used)).take n

/-- The IDs of a run (R399, R402): afresh in the order of discovery, or those that the table already holds and the lowest free ones. -/
def assignIds (mode : Nat) (table : List (Nat × RouteEntry)) (l : List EnumNode) : List EnumNode :=
  let known (n : EnumNode) : Option Nat :=
    if mode = 1 then .none
    else (table.find? (fun e => e.2.uid0 == n.uid0 && e.2.uid1 == n.uid1)).map (fun e => e.1)
  let used := if mode = 1 then [] else table.map (fun e => e.1)
  match l with
  | [] => []
  | g :: ns =>
    let free := lowestFree used ns.length
    g :: (ns.foldl (fun (acc : List EnumNode × List Nat) n =>
      match known n with
      | some id => (acc.1 ++ [{ n with id := some id }], acc.2)
      | .none => (acc.1 ++ [{ n with id := acc.2.head? }], acc.2.tail)) ([], free)).1

/-- An entry of the own table changes, at once or when the requests outstanding to its node have completed (R402). -/
def changeEntry (id : Nat) (new : RouteEntry) (s : State) : State :=
  let old := entryOf id s
  let changes := (new.proute, new.aroute, new.phop, new.ahop, new.use) != (old.proute, old.aroute, old.phop, old.ahop, old.use)
  if changes && s.fab.reqs.any (fun r => r.node == some id) then
    { s with fab := { s.fab with tableHeld := assocPut id new s.fab.tableHeld } }
  else setEntry id new s

/-- Step 4 of R402: the run's entries are written, each in the state it had, with the epochs reported (R415); a full run, which assigns every ID afresh, empties the entries of before. A
node without an alternate route raises source 103 (R402, R419). -/
def writeTable (r : EnumRun) (s : State) : State :=
  let l := runTable r.nodes 0
  let base (id : Nat) : RouteEntry := if r.mode = 1 then RouteEntry.empty else entryOf id s
  let gone := if r.mode = 1 then (s.fab.table.filter (fun e => !l.any (fun x => x.1 == e.1))).map (fun e => (e.1, RouteEntry.empty)) else []
  let entries := l.map (fun e =>
    (e.1, { testedEntry r.cuts (listId s) e.2 with miss := (base e.1).miss, flags := (base e.1).flags, state := (base e.1).state }))
  let s1 := entries.foldl (fun t e => changeEntry e.1 e.2 (takeEpoch e.1 e.2.epoch t)) (gone.foldl (fun t e => changeEntry e.1 e.2 t) s)
  let none' := l.filter (fun e => e.2.noalt)
  none'.foldl (fun t _ => pulse 103 t) (setB Reg.FAB_ENSTAT_NOALT (!none'.isEmpty) s1)

/-- Step 6 of R402: every entry of the run becomes VALID, or NOROUTE where links that failed during the run leave it none (R418). -/
def validateTable (r : EnumRun) (s : State) : State :=
  (runTable r.nodes 0).foldl (fun t e =>
    match assoc e.1 t.fab.tableHeld with
    | some h => { t with fab := { t.fab with tableHeld := assocPut e.1 (testedEntry r.cuts (listId t) h) t.fab.tableHeld } }
    | .none => setEntry e.1 (testedEntry r.cuts (listId t) (entryOf e.1 t)) t) s

/-- Probing has ended (R402, step 2): the IDs are assigned, and ASSIGN goes to each node that has one. -/
def planRun (s : State) : State :=
  match s.fab.run with
  | some r =>
    if r.planned || !r.todo.isEmpty || !r.out.isEmpty then s
    else
      let l := if r.mode = 2 then r.nodes else assignIds r.mode s.fab.table r.nodes
      modRun (fun x => { x with
        planned := true
        nodes := l
        work := if r.mode = 2 then [] else assignWork l
        short := r.short || (r.mode != 2 && l.zipIdx.any (fun e => e.2 != 0 && e.1.id.isNone)) }) s
  | .none => s

/-- Every ASSIGN has been answered: the own table is written, and the other requests of the run follow (R402, steps 4 and 5). -/
def writeRun (s : State) : State :=
  match s.fab.run with
  | some r =>
    if r.planned && !r.written && r.mode != 2 && r.work.isEmpty && (runReqs s).isEmpty then
      modRun (fun x => { x with written := true, work := routeWork r.nodes }) (writeTable r s)
    else s
  | .none => s

/-- The run sends as many requests as it may: up to 16 are outstanding (R402). -/
def runSends (s : State) : State := (List.range 17).foldl (fun t _ => runSend t) s

/-- The run goes on (R402). -/
def advanceRun (s : State) : State := runSends (writeRun (runSends (planRun (runSends s))))

/-! ## Start and end of a run -/

/-- The gateway as node 0 of its run. -/
def selfNode (s : State) : EnumNode :=
  { EnumNode.none with
    uid0 := reg s Reg.FAB_UID0
    uid1 := reg s Reg.FAB_UID1
    role := 1
    enumr := s.fab.enumr
    epoch := ownEpoch s
    ports := (List.range 4).map (fun n => if portUp n s then some (getF (Reg.LNK_PSTAT_PPORT n) s) else .none)
    nbr := List.replicate 4 .none }

/-- A run starts (R399, R400); a verify run changes nothing that it finds. -/
def beginRun (mode : Nat) (tk : Option Ticket) (commanded : Bool) (s : State) : State :=
  let s1 := if commanded && mode != 2 then setB Reg.FAB_ID_VALID false s else s
  let me := selfNode s1
  let todo := ((List.range 4).filter (fun n => portUp n s1)).map (fun n => (0, n))
  let r : EnumRun := ⟨mode, tk, commanded, [me], todo, [], false, false, [], false, []⟩
  let s2 := s1 |> setB Reg.FAB_ENSTAT_RUNNING true |> setB Reg.FAB_ENSTAT_DIFF false |> setF Reg.FAB_ENSTAT_NODES 0
    |> setB Reg.FAB_ENSTAT_NOALT (mode == 2 && bit Reg.FAB_ENSTAT_NOALT s1)
  advanceRun (refreshRoot { s2 with fab := { s2.fab with run := some r, withdrawn := mode == 2 && s2.fab.withdrawn } })

/-- A run ends with a status (R402): its requests are forgotten and its command completes. -/
def endRun (st : Status) (s : State) : State :=
  match s.fab.run with
  | .none => s
  | some r =>
    let s0 := { s with fab := { s.fab with run := .none, runEnd := some s.now, reqs := s.fab.reqs.filter (fun q => q.slot.isSome) } }
    let s1 := s0.fab.tableHeld.foldl (fun t e => applyHeld e.1 t) s0
    let s2 := refreshOut (s1 |> setB Reg.FAB_ENSTAT_RUNNING false |> setF Reg.FAB_ENSTAT_RESULT st.code)
    match r.ticket with
    | some tk => complete tk st [reg s2 Reg.FAB_ENSTAT] 0 s2
    | .none => s2

/-- A run that the gateway started ends INCOMPLETE (R24, R402, R419): source 103. -/
def abandonRun (s : State) : State := if s.fab.run.isSome then pulse 103 (endRun .incomplete s) else s

/-- ENUMERATION_WITHDRAW (R400): the table is emptied and the run completes INCOMPLETE; no source is raised. -/
def withdrawRun (s : State) : State :=
  let s1 := endRun .incomplete s
  refreshRoot { s1 with fab := { s1.fab with table := [], tableHeld := [], withdrawn := true } }

/-- A command to enumerate (R23, R399): without the gateway role it only sets RESULT to 0xFF. While a run is in progress another is
refused (DESIGN CHOICE notes/assumptions/35.md). -/
def enumCommand (mode : Nat) (tk : Ticket) (s : State) : Done :=
  withController s <|
  if !hasRole s then .ok (setF Reg.FAB_ENSTAT_RESULT 0xFF s)
  else if s.fab.run.isSome then .busyFree s
  else .later (beginRun mode (some tk) true s)

/-- ENUM_FULL, ENUM_VERIFY, ENUM_RECOVER (R399): a write of `FAB_ENCMD.OP`. -/
def execEnumFull (tk : Ticket) (s : State) : Out := if coreUp s then (enumCommand 1 tk s).via tk else .next s

def execEnumVerify (tk : Ticket) (s : State) : Out := if coreUp s then (enumCommand 2 tk s).via tk else .next s

def execEnumRecover (tk : Ticket) (s : State) : Out := if coreUp s then (enumCommand 3 tk s).via tk else .next s

/-- A run that this gateway starts by itself (R399, R400): only without an ID. -/
def autoRun (mode : Nat) (s : State) : State :=
  if hasRole s && !bit Reg.FAB_ID_VALID s && s.fab.run.isNone && !s.sys.ctlBusy && !bit Reg.BST_CTLSTAT_ROMBAD s then beginRun mode .none false s else s

/-- ENUM_HOLD_EXPIRY (R399, R410): HOLD has passed since the last LINKUP notice. -/
def execEnumHoldExpiry (s : State) : Out :=
  if s.fab.holdSince.any (fun t => decide (t + getF Reg.FAB_ENCFG_HOLD s * 10 * ms ≤ s.now)) then
    .next (autoRun 3 { s with fab := { s.fab with holdSince := .none } })
  else .next s

/-- Whether a verify run finds a difference from the table (R399). -/
def runDiffers (new old : List (Nat × RouteEntry)) : Bool :=
  let view (e : RouteEntry) := (e.proute, e.aroute, e.phop, e.ahop, e.plist, e.alist, e.noalt, e.uid0, e.uid1)
  new.map (fun e => (e.1, view e.2)) != old.map (fun e => (e.1, view e.2))

/-- ENUMERATION_DONE (R400, R402, R419): when every request of the run has been answered, the entries become VALID, ENUMDONE is set and the command
completed; a run that ends INCOMPLETE raises source 103. -/
def execEnumerationDone (s : State) : Out :=
  match s.fab.run with
  | .none => .next s
  | some r =>
    if !(r.planned && (r.written || r.mode == 2) && r.work.isEmpty && r.out.isEmpty && (runReqs s).isEmpty) then .next s
    else
      let st : Status := if r.short then .incomplete else .ok
      let s1 :=
        if r.mode = 2 then
          let l := assignIds 3 s.fab.table r.nodes
          setB Reg.FAB_ENSTAT_DIFF (runDiffers ((runTable l 0).foldl (fun t e => assocPut e.1 e.2 t) []) s.fab.table) s
        else validateTable r s
      let s2 := setF Reg.FAB_ENSTAT_NODES r.nodes.length
        { s1 with fab := { s1.fab with enumr := s.fab.enumr || (!r.short && enumeratesHere s) } }
      .next (setEvt .fab 4 (endRun st (if r.short then pulse 103 s2 else s2)))

/-! ## Completions -/

/-- The status of a CPL (R7, R391). -/
def cplStatus (f : Frame) : Status := Status.ofCode (getBits (nth f.payload 0 0#32) 0 8)

/-- A CPL reports a request that was performed (R7): OK or DELAYED. -/
def performed (f : Frame) : Bool := cplStatus f == .ok || cplStatus f == .delayed

/-- The time that TUNIT and TVAL give, in ns (R391). -/
def cplTime (f : Frame) : Nat :=
  let w := nth f.payload 0 0#32
  getBits w 16 14 * (match getBits w 30 2 with | 0 => 1000 | 1 => 100000 | 2 => 10000000 | _ => 1000000000)

/-- The CPL that answers a request completes it (R391, R394): the waits at the gateway and at the target add up, and decide between OK
and DELAYED. -/
def answerReq (r : Req) (f : Frame) (s : State) : State :=
  let st := cplStatus f
  let own := r.waited + (match r.sent with | some t => t - r.issued | .none => 0)
  let sum := own + (if st = .delayed ∨ st = .ok then cplTime f else 0)
  let late := decide (getF Reg.FAB_TCFG_DLYTH s * 10000 < sum)
  let st1 := if st = .ok ∨ st = .delayed then (if late then Status.delayed else .ok) else st
  finishReq r st1 (f.payload.drop 1) (if st = .refusedBusy then cplTime f else sum) ((nth f.payload 0 0#32).getLsbD 8) f.epoch s

/-- The report of a PROBE (R401) for node `i`'s port `p`: a node known by its UID gains a link, a new one is probed further. -/
def takeProbe (i p : Nat) (f : Frame) (r : EnumRun) : EnumRun :=
  let w (k : Nat) : Word := nth f.payload k 0#32
  let arrival := getBits (w 1) 8 2
  let link (l : List EnumNode) (a q b : Nat) : List EnumNode := setNth l a { nodeAt l a with nbr := setNth (nodeAt l a).nbr q (some b) }
  match (List.range r.nodes.length).find? (fun j => (nodeAt r.nodes j).uid0 == w 2 && (nodeAt r.nodes j).uid1 == w 3) with
  | some j => { r with nodes := link (link r.nodes i p j) j arrival i }
  | .none =>
    let parent := nodeAt r.nodes i
    let ports := (List.range 4).map (fun q =>
      let b := getBits (w 5) (8 * q) 8
      if b % 2 = 1 then some (b / 2 % 4) else Option.none)
    let n : EnumNode :=
      { uid0 := w 2
        uid1 := w 3
        path := parent.path ++ [p]
        back := arrival :: parent.back
        id := if (w 4).getLsbD 15 then some (getBits (w 4) 0 10) else .none
        role := getBits (w 1) 6 2
        enumr := (w 1).getLsbD 5
        epoch := getBits (w 1) 16 8
        ports := ports
        nbr := List.replicate 4 .none }
    let j := r.nodes.length
    let l := link (link (r.nodes ++ [n]) i p j) j arrival i
    let more := if n.path.length < 16 then ((List.range 4).filter (fun q => q != arrival && (nth ports q .none).isSome)).map (fun q => (j, q)) else []
    { r with nodes := l, todo := r.todo ++ more }

/-- Whether a report makes this gateway withdraw (R400). -/
def mustWithdraw (r : EnumRun) (f : Frame) (s : State) : Bool :=
  let w (k : Nat) : Word := nth f.payload k 0#32
  let other := (w 2).toNat + 2 ^ 32 * (w 3).toNat
  let own := (reg s Reg.FAB_UID0).toNat + 2 ^ 32 * (reg s Reg.FAB_UID1).toNat
  !r.commanded && getBits (w 1) 6 2 == 1 && !(w 4).getLsbD 15 && other != own && !s.fab.enumr
    && ((w 1).getLsbD 5 || decide (other < own))

/-- A probe has been answered or has timed out. -/
def endProbe (tag : Nat) (s : State) : State :=
  modRun (fun x => { x with out := x.out.filter (fun e => e.1 != tag) })
    (refreshOut { s with fab := { s.fab with reqs := s.fab.reqs.filter (fun q => q.tag != tag) } })

/-- A report reaches the run (R402). -/
def takeReport401 (i p : Nat) (f : Frame) (s : State) : State :=
  match s.fab.run with
  | .none => s
  | some r =>
    if !performed f then advanceRun s
    else if mustWithdraw r f s then withdrawRun s
    else
      advanceRun (modRun (takeProbe i p f) s)

/-- The probe of the run that a TAG names. -/
def probeOf (tag : Nat) (s : State) : Option (Nat × Nat) :=
  match s.fab.run with
  | some r => (r.out.find? (fun e => e.1 == tag)).map (fun e => e.2)
  | .none => .none

/-- PROBE_REPORT_RECEIVE (R400, R401, R402). -/
def execProbeReportReceive (arrival : Fin 4) (f : Frame) (s : State) : Out :=
  match probeOf f.tag s with
  | some (i, p) => if f.type = .cpl then .next (takeReport401 i p f (endProbe f.tag (takeInbox arrival f s))) else .next s
  | .none => .next s

/-- A request of the run other than a probe has been answered. -/
def takeRunAnswer (r : Req) (good : Bool) (s : State) : State := advanceRun (runDone r good (dropReq r s))

/-- CPL_RECEIVE (R18, R391, R394, R395, R415): a CPL without request, or after the role has ended, is discarded and counted; so is one of
a stale epoch, unless it carries NODE_RESET. -/
def execCplReceive (arrival : Fin 4) (f : Frame) (s : State) : Out :=
  if f.type ≠ .cpl ∨ coreUp s = false then .next s
  else
    let s1 := takeInbox arrival f s
    if !hasRole s1 then .next (incSat Reg.FAB_LATE_LATE s1)
    else
      match s1.fab.reqs.find? (fun r => r.tag == f.tag && r.frame.mode != .broadcast) with
      | .none => .next (incSat Reg.FAB_LATE_NOTAG s1)
      | some r =>
        if r.slot.isNone then
          match probeOf f.tag s1 with
          | some (i, p) => .next (takeReport401 i p f (endProbe f.tag s1))
          | .none => .next (takeRunAnswer r (performed f) s1)
        else
          match r.node with
          | some id =>
            if cplStatus f = .nodeReset then .next (takeEpoch id f.epoch (answerReq r f s1))
            else if (entryOf id s1).epoch ≠ f.epoch then .next (incSat Reg.FAB_LATE_LATE s1)
            else .next (answerReq r f s1)
          | .none => .next (answerReq r f s1)

/-- TRANSACTION_TIMEOUT (R395): TMO has passed since the request left, or was lost on its way out: it completes with TIMEOUT, and its TAG stays out of use. -/
def execTransactionTimeout (tag : Fin 256) (s : State) : Out :=
  match s.fab.reqs.find? (fun r => r.tag == tag.val &&
      (r.start s).any (fun t => decide (t + getF Reg.FAB_TCFG_TMO s * 100 * us ≤ s.now))) with
  | .none => .next s
  | some r =>
    let s1 := { s with fab := { s.fab with tagsHeld := (tag.val, s.now) :: s.fab.tagsHeld.filter (fun h => h.1 != tag.val) } }
    if r.slot.isNone then
      match probeOf tag s1 with
      | some _ => .next (advanceRun (endProbe tag s1))
      | .none => .next (takeRunAnswer r false s1)
    else .next (finishReq r .timeout [] 0 false 0 s1)

end Sys2Proof.Machine
end

