-- ==== Sys2Proof/Machine/Cal.lean ====
section
/-!
DEFINITION. Sys2Proof/Machine/Cal.lean: the non-volatile memory, the calibration run, the saves and the patch area
(spec/16_calibration_nvm_crc.md R530-R548).
-/
namespace Sys2Proof.Machine

/-! ## The NVM -/

/-- The byte at an NVM offset: vendor trim below 0x400, else what has been programmed; an erased byte reads 0xFF (R537). -/
def nvmAt (o : Nat) (s : State) : Byte := if o < 0x400 then Config.vendorTrim o else (assoc o s.cal.nvm).getD 0xFF#8

/-- The bytes of NVM from an offset up. -/
def nvmBytes (o n : Nat) (s : State) : List Byte := (List.range n).map (fun i => nvmAt (o + i) s)

/-- Bytes of NVM set from an offset up. -/
def nvmFill (o : Nat) (bs : List Byte) (m : List (Nat × Byte)) : List (Nat × Byte) :=
  match bs with
  | [] => m
  | b :: t => nvmFill (o + 1) t (nvmPut o b m)

/-- Programming: a state whose NVM holds bytes from an offset up. -/
def nvmWrite (o : Nat) (bs : List Byte) (s : State) : State := { s with cal := { s.cal with nvm := nvmFill o bs s.cal.nvm } }

/-- Erasing: the sectors of 256 bytes from `first` to `last` (R537). -/
def nvmErase (first last : Nat) (s : State) : State :=
  { s with cal := { s.cal with nvm := s.cal.nvm.filter (fun e => e.1 / 256 < first || last < e.1 / 256) } }

/-- Whether the bytes from an offset up are erased. -/
def nvmErased (o n : Nat) (s : State) : Bool := (nvmBytes o n s).all (fun b => b == 0xFF#8)

/-- Whether a block of bytes ends in the CRC-32C over the bytes before it (R538, R539). -/
def crcGood (bs : List Byte) : Bool :=
  let n := bs.length - 4
  bytesNat (bs.drop n) == (crc32c (bs.take n)).toNat

/-! ## Customer copies -/

/-- The base of copy A, or of copy B. -/
def copyBase (b : Bool) : Nat := if b then 0x800 else 0x400

/-- The GEN register of a copy, and its bad bit. -/
def genReg (b : Bool) : Nat := if b then Reg.CAL_GENB else Reg.CAL_GENA
def badBit (b : Bool) : Field := if b then Reg.CAL_STAT_BBAD else Reg.CAL_STAT_ABAD

/-- Whether the bytes of a copy are valid for this device: MAGIC, CHECK and UID (R540). -/
def copyValid (b : Bool) (s : State) : Bool :=
  let bs := nvmBytes (copyBase b) 1024 s
  bytesNat (bs.take 4) == 0x4C414343 && crcGood bs &&
    bytesNat ((bs.drop 8).take 4) == (reg s Reg.FAB_UID0).toNat && bytesNat ((bs.drop 12).take 4) == (reg s Reg.FAB_UID1).toNat

/-- A word of NVM. -/
def nvmWord (o : Nat) (s : State) : Word := BitVec.ofNat 32 (bytesNat (nvmBytes o 4 s))

/-- The coefficients that a copy holds (R538). -/
def copyCoef (b : Bool) (s : State) : List (Word × Word) :=
  (List.range 113).map (fun k => (nvmWord (copyBase b + 16 + 8 * k) s, nvmWord (copyBase b + 20 + 8 * k) s))

/-- The harness values that a copy holds come into the XCK registers (R540). -/
def loadHarness (hres : List Nat) (rbal : Nat) (s : State) : State :=
  setF Reg.XCK_RBAL_RBAL rbal ((List.range 25).foldl (fun t k => setF ⟨Reg.XCK_HRES k, 0, 16⟩ (nth hres k 0) t) s)

/-- A copy's harness values. -/
def copyHres (b : Bool) (s : State) : List Nat := (List.range 25).map (fun k => bytesNat (nvmBytes (copyBase b + 920 + 2 * k) 2 s))
def copyRbal (b : Bool) (s : State) : Nat := bytesNat (nvmBytes (copyBase b + 970) 2 s)

/-- The harness values in the registers. -/
def presentHres (s : State) : List Nat := (List.range 25).map (fun k => getBits (reg s (Reg.XCK_HRES k)) 0 16)
def presentRbal (s : State) : Nat := getF Reg.XCK_RBAL_RBAL s

/-- A copy is taken into use (R540): coefficients and `CAL_STAT.SRC`. -/
def applyCopy (b : Bool) (s : State) : State :=
  setF Reg.CAL_STAT_SRC (1 + b2n b) (loadHarness (copyHres b s) (copyRbal b s) { s with cal := { s.cal with coef := copyCoef b s } })

/-- The bytes of a customer copy (R538). -/
def copyBytes (gen : Nat) (coef : List (Word × Word)) (hres : List Nat) (rbal : Nat) (s : State) : List Byte :=
  let body := natBytes 4 0x4C414343 ++ natBytes 4 gen ++ wordBytes (reg s Reg.FAB_UID0) ++ wordBytes (reg s Reg.FAB_UID1)
    ++ coef.flatMap (fun c => wordBytes c.1 ++ wordBytes c.2) ++ hres.flatMap (natBytes 2) ++ natBytes 2 rbal ++ List.replicate 48 0#8
  body ++ wordBytes (crc32c body)

/-- The GEN of a copy that may be valid. -/
def genOf (b : Bool) (s : State) : Option Nat := if reg s (genReg b) = 0xFFFFFFFF#32 then none else some (reg s (genReg b)).toNat

/-- The GEN of the next copy: one above the newer copy's (R534, R543). -/
def nextGen (s : State) : Nat := max ((genOf false s).getD 0) ((genOf true s).getD 0) + 1

/-- The copy that a new one replaces: never the copy in use, else the older or invalid one (R534, R541). -/
def olderCopy (s : State) : Bool :=
  match getF Reg.CAL_STAT_SRC s with
  | 1 => true
  | 2 => false
  | _ =>
    match genOf false s, genOf true s with
    | some a, some b => decide (b < a)
    | some _, none => true
    | none, _ => false

/-! ## System records and profiles -/

/-- The bytes of a system record slot. -/
def slotBytes (i : Nat) (s : State) : List Byte := nvmBytes (0xC00 + 64 * i) 64 s

/-- A system record whose CRC passes and whose slot is not erased (R539). -/
def slotGood (i : Nat) (s : State) : Bool := crcGood (slotBytes i s)

/-- SEQ of a slot. -/
def slotSeq (i : Nat) (s : State) : Nat := bytesNat ((slotBytes i s).take 4)

/-- The slot with the highest SEQ whose CRC passes (R539). -/
def recordSlot (s : State) : Option Nat :=
  (List.range 16).foldl (fun best i =>
    if slotGood i s then
      match best with
      | some j => if slotSeq j s < slotSeq i s then some i else best
      | none => some i
    else best) none

/-- EPOCH, PSEL and the four targets of the present record, or what holds without one (R539). -/
def recordEpoch (s : State) : Nat := match recordSlot s with
  | some i => (nth (slotBytes i s) 4 0#8).toNat
  | none => 0
def recordSelect (s : State) : Nat := match recordSlot s with
  | some i => (nth (slotBytes i s) 5 0#8).toNat
  | none => 0xFF
def recordTarget (k : Nat) (s : State) : Nat := match recordSlot s with
  | some i => bytesNat (((slotBytes i s).drop (6 + 2 * k)).take 2)
  | none => (resetOf (Reg.CNV_VTGT k)).toNat % 65536

/-- The bytes of a system record (R539). -/
def recordBytes (seq epoch psel : Nat) (targets : List Nat) : List Byte :=
  let body := natBytes 4 seq ++ natBytes 1 epoch ++ natBytes 1 psel ++ targets.flatMap (natBytes 2) ++ List.replicate 46 0#8
  body ++ wordBytes (crc32c body)

/-- The slot after the present record's, and its SEQ (R539). -/
def nextSlot (s : State) : Nat := match recordSlot s with
  | some i => (i + 1) % 16
  | none => 0
def nextSeq (s : State) : Nat := match recordSlot s with
  | some i => slotSeq i s + 1
  | none => 1

/-- The fields of a register that a configuration profile may replace (the block chapters' notes on the profile, R489, R542). -/
def profileMask (a : Nat) : Word :=
  match rowAt a with
  | none => 0#32
  | some r =>
    let rw := BitVec.ofNat 32 r.rw
    if a = Reg.IMP_CFG then putBits (putBits 0#32 Reg.IMP_CFG_IPOL.lo 1 1) Reg.IMP_CFG_BALHOLD.lo 1 1
    else if a = Reg.IMP_RSHUNT then rw
    else if a = Reg.TBS_CFG ∨ a = Reg.BST_CFG then rw
    else if Reg.FLT_CFG 0 ≤ a ∧ a ≤ Reg.FLT_CFG 127 then BitVec.ofNat 32 r.rwl
    else if (0x1000 ≤ a ∧ a < 0x2000) ∨ (0x2800 ≤ a ∧ a < 0x4800) ∨ (0x6800 ≤ a ∧ a < 0x7000) then rw
    else 0#32

/-- The register rows that hold such fields. -/
def profileRows : List RegRow :=
  rowsCms ++ rowsXck ++ rowsImp ++ rowsCpb ++ rowsCnv ++ rowsCtl ++ rowsLnk ++ rowsTbs ++ rowsFlt ++ rowsThm ++ rowsBst

/-- The registers that hold such fields. -/
def profileAddrs : List Nat :=
  (profileRows.flatMap (fun r => (List.range r.count).map (fun i => r.base + r.stride * i))).filter (fun a => profileMask a != 0#32)

/-- The pairs of a profile save (R543): every such register but those at their reset value outside the always-on domain, whose pair would
change nothing at start-up. DESIGN CHOICE notes/assumptions/36.md. -/
def profilePairs (s : State) : List (Nat × Word) :=
  ((profileAddrs.filter (fun a => (rowAt a).any (fun r => r.aon) || (reg s a &&& profileMask a) != (resetOf a &&& profileMask a))).map
    (fun a => (a, reg s a &&& profileMask a))).take 254

/-- The bytes of a profile (R542). The gain table in use stands for the table registers. -/
def profileBytes (s : State) : List Byte :=
  let inUse := (List.range 64).foldl (fun t k => setReg (Reg.CTL_LUT k) (nth s.ctl.table k 0#32) t) s
  let pairs := profilePairs (setF Reg.CTL_LUTCFG_NENT (s.ctl.nent % 128) inUse)
  let body := natBytes 4 0x50465250 ++ natBytes 4 pairs.length ++ pairs.flatMap (fun p => natBytes 4 p.1 ++ wordBytes p.2)
    ++ List.replicate (8 * (254 - pairs.length)) 0xFF#8
  body ++ wordBytes (crc32c body) ++ natBytes 4 0

/-! ## Writes -/

/-- `CAL_STAT.BUSY`: a run or an NVM write is in progress (R548). -/
def refreshBusy (s : State) : State := setB Reg.CAL_STAT_BUSY (calRunning s || s.cal.op.isSome) s

/-- The offset of the next entry of the event log (R525): slot LSEQ mod 64. -/
def logOffset (s : State) : Nat := 0x3000 + 16 * (getF Reg.THM_LOGSTAT_LSEQ s % 64)

/-- The bytes of an entry of the event log (R525). -/
def logBytes (e : LogEntry) (s : State) : List Byte :=
  let body := natBytes 8 e.time ++ natBytes 2 (getF Reg.THM_LOGSTAT_LSEQ s) ++ natBytes 1 (128 * b2n e.unsync + e.kind) ++ natBytes 1 e.sensor
    ++ natBytes 2 e.temp
  body ++ natBytes 2 (crc16 body).toNat

/-- Where a write goes, and its bytes. -/
def jobBytes (j : NvmJob) (s : State) : Nat × List Byte :=
  let targets := (List.range 4).map (fun k => recordTarget k s)
  let slot := 0xC00 + 64 * nextSlot s
  match j with
  | .epoch e => (slot, recordBytes (nextSeq s) e (recordSelect s) targets)
  | .select v => (slot, recordBytes (nextSeq s) (recordEpoch s) v targets)
  | .targets => (slot, recordBytes (nextSeq s) (recordEpoch s) (recordSelect s) ((List.range 4).map (fun k => getBits (reg s (Reg.CNV_VTGT k)) 0 16)))
  | .profile k => (0x1000 + 0x800 * k, profileBytes s)
  | .harness => (copyBase (olderCopy s), copyBytes (nextGen s) s.cal.coef (presentHres s) (presentRbal s) s)
  | .run =>
    match s.cal.run with
    | some r => (copyBase (olderCopy s), copyBytes (nextGen s) r.coef r.hres r.rbal s)
    | none => (copyBase (olderCopy s), [])
  | .repair b => (copyBase b, nvmBytes (copyBase (!b)) 1024 s)
  | .log e => (logOffset s, logBytes e s)
  | .logClear => (0x3000, List.replicate 1024 0xFF#8)

/-- The bytes of a write that are programmed last, at its end: its check. DESIGN CHOICE notes/assumptions/37.md. -/
def jobTail (j : NvmJob) : Nat :=
  match j with
  | .profile _ => 8
  | .log _ => 2
  | .logClear => 0
  | _ => 4

/-- Whether a write erases its sectors first: always, but for a slot that is erased already (R539, R525). -/
def jobErases (j : NvmJob) (base n : Nat) (s : State) : Bool :=
  match j with
  | .epoch _ | .select _ | .targets | .log _ => !nvmErased base n s
  | _ => true

/-- A write of the NVM begins: sectors are erased and all but the last bytes programmed (R537, R541). -/
def beginJob (j : NvmJob) (tk : Option Ticket) (s : State) : State :=
  let p := jobBytes j s
  let n := p.2.length
  let undo := nvmBytes p.1 n s
  let s1 := if jobErases j p.1 n s then nvmErase (p.1 / 256) ((p.1 + n - 1) / 256) s else s
  let s2 := nvmWrite p.1 (p.2.take (n - jobTail j)) s1
  let s3 := if p.1 = 0x400 then setReg Reg.CAL_GENA 0xFFFFFFFF#32 s2 else if p.1 = 0x800 then setReg Reg.CAL_GENB 0xFFFFFFFF#32 s2 else s2
  refreshBusy { s3 with cal := { s3.cal with op := some ⟨j, p.1, p.2, undo, tk⟩ } }

/-- The controller serves: it neither restarts nor loads a patch, and its ROM has passed (R23, R574). It begins every NVM write. -/
def controllerServes (s : State) : Bool := !s.sys.ctlBusy && !bit Reg.BST_CTLSTAT_ROMBAD s

/-- The next waiting write begins when none is in progress and no epoch write is due (R544), and the controller serves. -/
def nextJob (s : State) : State :=
  if s.cal.op.isSome || s.cal.epochPend.isSome || !controllerServes s then s
  else
    match s.cal.queue with
    | [] => s
    | (j, tk) :: t => beginJob j tk { s with cal := { s.cal with queue := t } }

/-- A write is asked for. -/
def askJob (j : NvmJob) (tk : Option Ticket) (s : State) : State :=
  nextJob { s with cal := { s.cal with queue := s.cal.queue ++ [(j, tk)] } }

/-- Whether a write is a save of R543. -/
def NvmJob.isSave : NvmJob → Bool
  | .select _ | .targets | .profile _ | .harness => true
  | _ => false

/-- Whether a save of R543 is in progress. -/
def saving (s : State) : Bool := s.cal.op.any (fun o => o.job.isSave) || s.cal.queue.any (fun e => e.1.isSave)

/-- A run, a save or a patch load is in progress (R533, R543). -/
def calOccupied (s : State) : Bool := s.cal.run.isSome || saving s || s.cal.patch.isSome

/-- A write failed twice (R547): source 124, the count and the sector. -/
def nvmFailed (sector : Nat) (s : State) : State :=
  pulse 124 (setF Reg.CAL_NVMSTAT_SECT (256 * sector) (incSat Reg.CAL_NVMSTAT_FAILCNT s))

/-- A customer copy has been written and read back: its GEN shows and its bad bit clears. -/
def copyWritten (b : Bool) (s : State) : State := setB (badBit b) false (setReg (genReg b) (nvmWord (copyBase b + 4) s) s)

/-- The end of a write: what its read-back decides for each purpose (R540, R543, R547). -/
def endJob (o : NvmOp) (bad : Option (Fin 128)) (s : State) : State :=
  let s1 := refreshBusy { s with cal := { s.cal with op := none } }
  let tell (st : Status) (t : State) : State := match o.ticket with
    | some tk => complete tk st [] 0 t
    | none => t
  match bad with
  | some n => tell .incomplete (nvmFailed n.val s1)
  | none =>
    let s2 := nvmWrite o.base o.bytes s1
    match o.job with
    | .harness => tell .ok (setF Reg.CAL_STAT_SRC (if o.base = 0x800 then 2 else 1) (copyWritten (o.base = 0x800) s2))
    | .repair b => copyWritten b s2
    | .log _ => setF Reg.THM_LOGSTAT_LSEQ (getF Reg.THM_LOGSTAT_LSEQ s2 + 1) s2
    | _ => tell .ok s2

/-- NVM_WRITE_DONE (R543, R544, R547): a save, an epoch write, a repair or a log write ends with its read-back; `bad` names the sector that
failed twice. -/
def execNvmWriteDone (bad : Option (Fin 128)) (s : State) : Out :=
  match s.cal.op with
  | none => .next s
  | some o => if o.job = .run then .next s else .next (nextJob (endJob o bad s))

/-- EPOCH_WRITE (R73, R544): the held write of the node epoch begins once no other write is in progress and the controller serves. -/
def execEpochWrite (s : State) : Out :=
  match s.cal.epochPend, s.cal.op with
  | some e, none => .next (if controllerServes s then beginJob (.epoch e) none { s with cal := { s.cal with epochPend := none } } else s)
  | _, _ => .next s

/-- COPY_REPAIR (R540): in ACTIVE, the valid copy is written over a bad one. -/
def execCopyRepair (s : State) : Out :=
  let want (b : Bool) : Bool := bit (badBit b) s && (genOf (!b) s).isSome
  let busy := s.cal.op.any (fun o => o.job == .repair true || o.job == .repair false) || s.cal.queue.any (fun e => e.1 == .repair true || e.1 == .repair false)
  if s.sys.phase ≠ .active ∨ busy then .next s
  else if want false then .next (askJob (.repair false) none s)
  else if want true then .next (askJob (.repair true) none s)
  else .next s

/-! ## The calibration run -/

/-- The reference value of input k in its left-aligned code (R531, R534, R109): 256 codes for each µV, 16 for each nV of channel 0. -/
def calRef (k : Nat) (s : State) : Int :=
  let ref (n : Nat) : Int := (reg s (Reg.CAL_REF (n - 1))).toNat
  if k = 0 then 16 * (reg s Reg.CAL_IREF).toNat
  else if k ≤ 24 then 256 * ref k
  else if k ≤ 48 then 256 * ref (k - 24)
  else if k ≤ 72 then 256 * ref (k - 48)
  else if k ≤ 95 then 256 * (ref (k - 72) + ref (k - 71))
  else if k = 96 then 256 * ((List.range 24).map (fun i => ref (i + 1))).sum
  else 256 * (reg s Reg.CAL_AXREF).toNat

/-- Whether a reference register lies outside R532. -/
def refsBad (s : State) : Bool :=
  let out (v : Word) (lo hi : Nat) : Bool := v.toNat < lo || hi < v.toNat
  (List.range 24).any (fun k => out (reg s (Reg.CAL_REF k)) 3900000 4100000) || out (reg s Reg.CAL_IREF) 40000000 60000000 ||
    out (reg s Reg.CAL_AXREF) 1500000 2400000

/-- A unit that R533 names is fenced: a primary path, the pack-current channel, XA or XB. -/
def calFenced (s : State) : Bool := reg s Reg.CMS_FENCE != 0#32 || bit Reg.FLT_FENCE0_CUR s || bit Reg.FLT_FENCE0_XA s || bit Reg.FLT_FENCE0_XB s

/-- A refusal with CHECK_FAIL and its reason in `CAL_STAT.ERR`. -/
def calCheckFail (err : Nat) (s : State) : Done := Done.refuse .checkFail (setF Reg.CAL_STAT_ERR err s)

/-- `CAL_CMD` RUN (R533). -/
def calRunCommand (tk : Ticket) (s : State) : Done :=
  if lifecycle s ≠ 1 then Done.refuse .lifecycleDenied s
  else if calFenced s then Done.refuse .refusedFenced s
  else withController s <|
    if calOccupied s then Done.busyFree s
    else if planActive s || s.xck.harness.isSome then startBusy s
    else if getF Reg.CNV_STAT_STATE s ≠ 0 then calCheckFail 1 s
    else if refsBad s then calCheckFail 2 s
    else if unusedCells s then calCheckFail 3 s
    else Done.later { s with cal := { s.cal with run := some ⟨tk, [], 0, [], [], 0x40000000#32, 0x40000000#32, none, s.now⟩ } }

/-- RUN (R533). -/
def execRun (tk : Ticket) (s : State) : Out := if coreUp s then (calRunCommand tk s).via tk else .next s

/-- CAL_RUN_BEGIN (R534, time 0): at the first 64 Sa/s boundary. -/
def execCalRunBegin (s : State) : Out :=
  match s.cal.run with
  | some r =>
    if s.sys.phase = .active ∧ calRunning s = false then
      let s1 := { s with cal := { s.cal with
        run := some { r with hres := presentHres s, rbal := presentRbal s, begun := s.now }
        span := (s.ft, none) :: s.cal.span.filter (fun e => e.2.any (fun b => decide (s.ft < b + 94062500))) } }
      .next (enforceSwitches (refreshBusy (setF Reg.CAL_STAT_PHASE 1 s1)))
    else .next s
  | none => .next s

/-- So many ms of fabric time have passed since time 0 of a run. -/
def CalRun.past (r : CalRun) (t now : Nat) : Bool := r.begun + leastSpan (t * ms) ≤ now

/-- CAL_ZERO_PHASE_END (R534, 875 ms): the offsets are the zero-phase means over 48 intervals, in the order of R531, after vendor trim; how the
converters share out the 113 inputs in a run is not stated, so the environment gives the means (DESIGN CHOICE notes/assumptions/49.md). -/
def execCalZeroPhaseEnd (zero : List Int) (s : State) : Out :=
  match s.cal.run with
  | some r => if getF Reg.CAL_STAT_PHASE s = 1 ∧ r.past 875 s.now then .next (setF Reg.CAL_STAT_PHASE 2 { s with cal := { s.cal with run := some { r with zero := zero } } }) else .next s
  | none => .next s

/-- The end of a run without its result, or after it (R534-R536): CAL ends, what it wrote is undone unless it came into use, and the command
completes. -/
def endCalRun (st : Status) (err : Option Nat) (s : State) : State :=
  match s.cal.run with
  | none => s
  | some r =>
    let span := match s.cal.span with
      | (a, none) :: l => (a, some s.ft) :: l
      | l => l
    let s1 := setF Reg.CAL_STAT_PHASE 0 { s with cal := { s.cal with run := none, span := span, queue := s.cal.queue.filter (fun e => e.1 != .run) } }
    let s2 := match err with
      | some e => setF Reg.CAL_STAT_ERR e s1
      | none => s1
    let s3 := match s.cal.op with
      | some o => if o.job = .run then
          let t := nvmWrite o.base o.undo { s2 with cal := { s2.cal with op := none } }
          if copyValid (o.base = 0x800) t then copyWritten (o.base = 0x800) t else t
        else s2
      | none => s2
    nextJob (refreshBusy (complete r.ticket st [] 0 s3))

/-- A run ends early: INCOMPLETE and ERR 0x6 (R536). -/
def abortCalRun (s : State) : State := endCalRun .incomplete (some 6) s

/-- Whether input k is calibrated by the run: every input but the auxiliary ones that `CAL_AXMASK` leaves out (R548). -/
def calInput (k : Nat) (s : State) : Bool := k < 97 || regBit Reg.CAL_AXMASK (k - 97) s

/-- The gain of input k from its offset and the two half means of the reference phase, 1.0 = 2^30: to the nearest, as the worked example of
the spec has it. A reading that leaves no positive difference has no gain. -/
def calGain (k : Nat) (ofs a b : Int) (s : State) : Int :=
  let d := a + b - 2 * ofs
  if d ≤ 0 then 0 else roundAway (calRef k s * 2 ^ 31) d

/-- The check that input k fails (R535): 4 RANGE, 5 NOISE, 0 none. -/
def calCheck (k : Nat) (ofs a b : Int) (s : State) : Nat :=
  let g := calGain k ofs a b s
  if (if k = 0 then 320000 else 512000) < mag ofs then 4
  else if g * 1000 < 995 * 2 ^ 30 ∨ 1005 * 2 ^ 30 < g * 1000 then 4
  else if (if k = 0 then 32000 else 25600) < mag (a - b) then 5
  else 0

/-- CAL_REFERENCE_PHASE_END (R534, R535, 2000 ms): the means of the two halves of the reference phase and the ratios of the auxiliary gains; the run
is rejected with the first failing input, or its copy is written. -/
def execCalReferencePhaseEnd (first second : List Int) (r4 r16 : Word) (s : State) : Out :=
  match s.cal.run with
  | none => .next s
  | some r =>
    if getF Reg.CAL_STAT_PHASE s ≠ 2 ∨ r.past 2000 s.now = false then .next s
    else
      let z (k : Nat) : Int := nth r.zero k 0
      let a (k : Nat) : Int := nth first k 0
      let b (k : Nat) : Int := nth second k 0
      match (List.range 113).find? (fun k => calInput k s && calCheck k (z k) (a k) (b k) s != 0) with
      | some k => .next (endCalRun .checkFail (some (calCheck k (z k) (a k) (b k) s)) (setF Reg.CAL_STAT_ERRCH k s))
      | none =>
        let coef := (List.range 113).map (fun k =>
          if calInput k s then (BitVec.ofInt 32 (z k), BitVec.ofInt 32 (calGain k (z k) (a k) (b k) s)) else (s.cal.coef[k]?).getD (0#32, 0x40000000#32))
        let s1 := { s with cal := { s.cal with run := some { r with coef := coef, ratio4 := r4, ratio16 := r16 } } }
        .next (askJob .run none (setF Reg.CAL_STAT_PHASE 4 s1))

/-- CAL_COPY_WRITTEN (R534, R536, from 2050 ms on): the new copy has been programmed and read back, or failed twice. -/
def execCalCopyWritten (bad : Option (Fin 128)) (s : State) : Out :=
  match s.cal.op, s.cal.run with
  | some o, some r =>
    if o.job = .run ∧ r.past 2050 s.now then
      match bad with
      | some n => .next (abortCalRun (nvmFailed n.val s))
      | none =>
        let b : Bool := o.base = 0x800
        let s1 := nvmWrite o.base o.bytes { s with cal := { s.cal with op := none, run := some { r with written := some b } } }
        .next (nextJob (refreshBusy (copyWritten b s1)))
    else .next s
  | _, _ => .next s

/-- CAL_COPY_IN_USE (R102, R534): at the next 64 Sa/s boundary the new copy is in use, SETTLE is marked, CAL ends and the command completes
with OK. -/
def execCalCopyInUse (s : State) : Out :=
  match s.cal.run with
  | some r =>
    match r.written with
    | some b =>
      let s1 := applyCopy b { s with cal := { s.cal with ratio4 := r.ratio4, ratio16 := r.ratio16 } }
      .next (endCalRun .ok none (startSettleAll s1))
    | none => .next s
  | none => .next s

/-! ## Saves and the patch area -/

/-- MANUFACTURE, CALIBRATE or FIELD. -/
def unsealed (s : State) : Bool := lifecycle s != 3

/-- A save of R543: denied in other life-cycle states, and refused while a run, a save or a patch load is in progress. -/
def saveCommand (allowed : Bool) (j : NvmJob) (tk : Ticket) (s : State) : Done :=
  if !allowed then Done.refuse .lifecycleDenied s
  else withController s <| if calOccupied s then Done.busyFree s else Done.later (askJob j (some tk) s)

/-- `CAL_CMD` HSAVE (R543). -/
def hsaveCommand (tk : Ticket) (s : State) : Done :=
  let allowed := lifecycle s == 1 || lifecycle s == 2
  if allowed && !bit Reg.BST_CTLSTAT_ROMBAD s && !s.sys.ctlBusy && !calOccupied s && getF Reg.CAL_STAT_SRC s == 0 then calCheckFail 7 s
  else saveCommand allowed .harness tk s

/-- HSAVE (R543). -/
def execHsave (tk : Ticket) (s : State) : Out := if coreUp s then (hsaveCommand tk s).via tk else .next s

/-- PSAVE (R543). -/
def execPsave (arg : Fin 4) (tk : Ticket) (s : State) : Out := if coreUp s then (saveCommand (unsealed s) (.profile arg.val) tk s).via tk else .next s

/-- PSELECT (R543): ARG 4 and above selects none. -/
def execPselect (arg : Fin 8) (tk : Ticket) (s : State) : Out :=
  if coreUp s then (saveCommand (unsealed s) (.select (if arg.val < 4 then arg.val else 0xFF)) tk s).via tk else .next s

/-- TSAVE (R543). -/
def execTsave (tk : Ticket) (s : State) : Out := if coreUp s then (saveCommand (unsealed s) .targets tk s).via tk else .next s

/-- `CAL_CMD` PATCHWE (R545). -/
def patchOpen (s : State) : Done :=
  if !unsealed s then Done.refuse .lifecycleDenied s
  else withController s (Done.ok (setB Reg.CAL_STAT_PATCHWE true { s with cal := { s.cal with patchErased := [] } }))

/-- PATCHWE (R545). -/
def execPatchwe (s : State) : Out := if coreUp s then (patchOpen s).out else .next s

/-- A word written into the open patch area: its sector is erased before the first write (R545). -/
def patchWord (o : Nat) (w : Word) (s : State) : State :=
  let sec := o / 256
  let s1 := if natMem sec s.cal.patchErased then s else
    let t := nvmErase sec sec s
    { t with cal := { t.cal with patchErased := natPut sec t.cal.patchErased } }
  nvmWrite o (wordBytes w) s1

/-- Commands written to `CAL_CMD` with KEY 0x96; ACTION 0 does nothing. `patch` restarts the controller (R545). -/
def calCommand (action arg : Nat) (tk : Ticket) (patch : Ticket → State → Done) (s : State) : Done :=
  match action with
  | 1 => calRunCommand tk s
  | 2 => hsaveCommand tk s
  | 3 => saveCommand (unsealed s) (.profile arg) tk s
  | 4 => saveCommand (unsealed s) (.select (if arg < 4 then arg else 0xFF)) tk s
  | 5 => saveCommand (unsealed s) .targets tk s
  | 6 => patchOpen s
  | 7 => patch tk s
  | _ => Done.ok s

end Sys2Proof.Machine
end

