-- ==== Sys2Proof/Machine/Thm.lean ====
section
/-!
DEFINITION. Sys2Proof/Machine/Thm.lean: die sensors, thermistors, bands, gallop, the hardware shutdown and the thermal event log
(spec/15_thermal.md R514-R529).
-/
namespace Sys2Proof.Machine

/-! ## The event log -/

/-- An occurrence for the log (R525): SHUTDOWN (4) and RESTART (5) always, any other kind at most once per 60 s. -/
def logOccur (kind sensor temp : Nat) (s : State) : State :=
  let recent : Bool := match assoc kind s.thm.logLast with
    | some t => decide (s.now < t + 60000 * ms)
    | none => false
  if kind ≠ 4 ∧ kind ≠ 5 ∧ recent then incSat Reg.THM_LOGSTAT_SKIP s
  else
    let e : LogEntry := ⟨s.ft, !bit Reg.CMS_STAT_TBLOCK s, kind, sensor, temp⟩
    { s with thm := { s.thm with logQ := s.thm.logQ ++ [e], logLast := assocPut kind s.now s.thm.logLast } }

/-- EVENT_LOG_WRITE (R525, R527): the controller writes the oldest waiting entry; entries wait while it restarts. -/
def execEventLogWrite (s : State) : Out :=
  match s.thm.logQ with
  | [] => .next s
  | e :: t =>
    if s.sys.nvmChecked && !s.sys.ctlBusy && !bit Reg.BST_CTLSTAT_ROMBAD s then
      .next (askJob (.log e) none { s with thm := { s.thm with logQ := t } })
    else .next s

/-- A write of `THM_LOGCMD` with KEY 0x3C and CLEAR 1 (R526). -/
def logClear (tk : Ticket) (s : State) : Done :=
  if lifecycle s = 2 then Done.refuse .lifecycleDenied s else withController s (Done.later (askJob .logClear (some tk) s))

/-- LOG_CLEAR (R526). -/
def execLogClear (tk : Ticket) (s : State) : Out := if coreUp s then (logClear tk s).via tk else .next s

/-- Where the log goes on after start-up (R526): after the entry with the highest LSEQ whose CRC passes. -/
def logResume (s : State) : State :=
  let entry (i : Nat) : List Byte := nvmBytes (0x3000 + 16 * i) 16 s
  let good (i : Nat) : Bool := bytesNat ((entry i).drop 14) == (crc16 ((entry i).take 14)).toNat
  let next := (List.range 64).foldl (fun m i => if good i then max m (bytesNat (((entry i).drop 8).take 2) + 1) else m) 0
  setF Reg.THM_LOGSTAT_LSEQ next s

/-! ## Readings -/

/-- Whether die sensor n has failed. -/
def dieFailed (n : Nat) (s : State) : Bool := (getF Reg.THM_STAT_FAIL s).testBit n

/-- A reading of a die sensor in 0.01 °C as limits see it: a failed sensor reads hottest (R517). -/
def dieSeen (n : Nat) (s : State) : Int := if dieFailed n s then 327670 else nth s.thm.die n 0

/-- The die sensors that have not failed, with their readings. -/
def dieGood (s : State) : List (Nat × Int) := ((List.range 3).filter (fun n => !dieFailed n s)).map (fun n => (n, nth s.thm.die n 0))

/-- One sample of die sensor n: its failure and its register (R514, R515). -/
def takeDie (n : Nat) (v : Int) (biasOk : Bool) (s : State) : State :=
  let out : Bool := v < -6000 || 20000 < v
  let t := s.thm
  let o := if out then min (nth t.outside n 0 + 1) 2 else 0
  let b := if biasOk then 0 else min (nth t.biasBad n 0 + 1) 2
  let g := if out || !biasOk then 0 else min (nth t.good n 0 + 1) 16
  let was := dieFailed n s
  let fails := if was then decide (g < 16) else o == 2 || b == 2
  let s1 := setB ⟨Reg.THM_STAT, 3 + n, 1⟩ fails { s with thm := { t with
    die := setNth t.die n v, outside := setNth t.outside n o, biasBad := setNth t.biasBad n b, good := setNth t.good n (if was then g else 0) } }
  let s2 := setF (Reg.THM_DIE_TEMP n) (if fails then 0x7FFF else unsigned 16 (roundAway v 10)) s1
  if fails && !was then logOccur 3 n 0x7FFF s2 else s2

/-- `THM_STAT.HOT`: the hottest die reading (R517, R529). -/
def reportHot (s : State) : State :=
  let v (n : Nat) : Int := signed 16 (getF (Reg.THM_DIE_TEMP n) s)
  setF Reg.THM_STAT_HOT (unsigned 16 (max (v 0) (max (v 1) (v 2)))) s

/-- The boundary below which band b is left for the next cooler one, in 0.01 °C: the lower boundaries of R521. -/
def bandFloor : Nat → Int
  | 1 => -1000
  | 2 => 4500
  | _ => 7000

/-- The band after a reading, from the band before (R521): up when a boundary is reached, down below it by more than 3 °C. -/
def moveBand (t : Int) (b : Nat) : Nat :=
  let up := if bandFloor 3 ≤ t then 3 else if bandFloor 2 ≤ t then 2 else if bandFloor 1 ≤ t then 1 else 0
  let down := if bandFloor 3 - 300 ≤ t then 3 else if bandFloor 2 - 300 ≤ t then 2 else if bandFloor 1 - 300 ≤ t then 1 else 0
  if b < up then up else if down < b then down else b

/-- The band of a code. -/
def bandOf : Nat → Band
  | 0 => .cold
  | 1 => .normal
  | 2 => .warm
  | _ => .hot

/-- BAND_CHANGE (R517, R521): the band follows the hottest die sensor that has not failed; the first sample sets it without hysteresis, and
with no sensor left it is HOT. -/
def setBand (s : State) : State :=
  let b := match dieGood s with
    | [] => 3
    | (_, t) :: rest =>
      let hot := rest.foldl (fun m e => max m e.2) t
      if s.thm.first then (if bandFloor 3 ≤ hot then 3 else if bandFloor 2 ≤ hot then 2 else if bandFloor 1 ≤ hot then 1 else 0)
      else moveBand hot (getF Reg.THM_STAT_BAND s)
  setF Reg.THM_STAT_BAND b { s with lnk := { s.lnk with band := bandOf b }, thm := { s.thm with first := false } }

/-- The die warning in 0.01 °C. -/
def warnLimit (s : State) : Int := 100 * getF Reg.THM_CFG_WARN s

/-- The die warnings (R522): source 112 + n from WARN, or from a failure, until the reading falls below WARN − 3 °C. -/
def dieWarnings (s : State) : State :=
  (List.range 3).foldl (fun t n =>
    let v := dieSeen n t
    let was := nth t.thm.warned n false
    let is : Bool := if was then decide (warnLimit t - 300 ≤ v) else decide (warnLimit t ≤ v)
    let t1 := follow (112 + n) is { t with thm := { t.thm with warned := setNth t.thm.warned n is } }
    if is && !was then logOccur 1 n (getF (Reg.THM_DIE_TEMP n) t) t1 else t1) s

/-- Whether two die sensors that have not failed differ by more than 30 °C (R518). -/
def diesDiffer (s : State) : Bool := (dieGood s).any (fun a => (dieGood s).any (fun b => 3000 < a.2 - b.2))

/-! ## Thermistors -/

/-- The scale of the logarithm: 2^64. -/
def lnOne : Int := 18446744073709551616

/-- The terms z^(2k+1)/(2k+1) of the inverse hyperbolic tangent, from the given power up. -/
def atanhTerms (zz : Int) : Nat → Nat → Int → Int
  | 0, _, _ => 0
  | m + 1, k, p => p / (2 * k + 1) + atanhTerms zz m (k + 1) (p * zz / lnOne)

/-- ln of a ratio a/b in [1/2, 2], scaled by 2^64: 2·atanh((a − b)/(a + b)). -/
def lnNear (a b : Int) : Int :=
  let z := (a - b) * lnOne / (a + b)
  2 * atanhTerms (z * z / lnOne) 24 0 z

/-- ln of a/b for positive a and b, scaled by 2^64: the ratio is brought near 1 by a power of 2. -/
def lnRatio (a b : Nat) : Int :=
  let e : Int := (Nat.log2 a : Int) - Nat.log2 b
  let la : Int := a * 2 ^ Nat.log2 b
  let lb : Int := b * 2 ^ Nat.log2 a
  lnNear la lb + e * lnNear 2 1

/-- The temperature of a thermistor in 0.1 °C for a result of `v` µV (R516), to the nearest; none where the formula leaves the range of the
register or divides by 0. x / (1 − x) / ratio = v · 4096 / ((2 500 000 − v) · RATIO). -/
def ntcTemp (v ratio beta : Nat) : Option Int :=
  if beta = 0 ∨ ratio = 0 then none
  else
    let l := lnRatio (v * 4096) ((2500000 - v) * ratio)
    -- 1/298.15 + l/beta as a fraction: (20·beta·2^64 + 5963·l) / (5963·beta·2^64)
    let den : Int := 20 * beta * lnOne + 5963 * l
    if den ≤ 0 then none
    else
      -- ten times the temperature in °C, twice: 2·10·(T − 273.15) with T = 5963·beta·2^64 / den
      let t := roundAway (20 * (5963 * beta * lnOne) - 5463 * den) (2 * den)
      if t < -32768 ∨ 32766 < t then none else some t

/-- Whether input k carries a thermistor. -/
def ntcOn (k : Nat) (s : State) : Bool := regBit Reg.THM_NTCCFG (16 + k) s

/-- A thermistor that has failed. -/
def ntcFailed (k : Nat) (s : State) : Bool := getF (Reg.THM_NTC_FAIL k) s == 1

/-- The temperature of a thermistor as limits see it, 0.1 °C (R517). -/
def ntcSeen (k : Nat) (s : State) : Int := signed 16 (getF (Reg.THM_NTC_TEMP k) s)

/-- One thermistor is read from its input's interval result, or in gallop from its fast result (R516, R519). A result without VALID leaves the
register; a temperature that the formula does not give is a free value. -/
def takeNtc (k : Nat) (s : State) : State :=
  let w := reg s (if bit Reg.THM_STAT_GALLOP s then Reg.XCK_AXF k else Reg.XCK_AX k)
  if !ntcOn k s || !resultValid w then s
  else
    let v := getBits w 0 24
    let was := ntcFailed k s
    if v < 62500 ∨ 2437500 < v then
      let s1 := setF (Reg.THM_NTC_TEMP k) 0x7FFF (setF (Reg.THM_NTC_FAIL k) 1 s)
      if was then s1 else logOccur 3 (0x10 + k) 0x7FFF s1
    else
      match ntcTemp v (getF Reg.THM_NTCPAR_RATIO s) (getF Reg.THM_NTCPAR_BETA s) with
      | some t => setF (Reg.THM_NTC_TEMP k) (unsigned 16 t) (setF (Reg.THM_NTC_FAIL k) 0 s)
      | none => setF (Reg.THM_NTC_TEMP k) (freeWord s).toNat (setF (Reg.THM_NTC_FAIL k) 0 (useFree s))

/-- The limits of the thermistors in 0.1 °C. -/
def ntcHi (s : State) : Int := 10 * signed 8 (getF Reg.THM_NTCLIM_HI s)
def ntcLo (s : State) : Int := 10 * signed 8 (getF Reg.THM_NTCLIM_LO s)

/-- The thermistor limits (R522): a reading above HI or below LO stands until it has come back by 3 °C; source 115 follows all of them. -/
def ntcLimits (s : State) : State :=
  let old := s.thm.beyond
  let is (k : Nat) : Bool :=
    let v := ntcSeen k s
    ntcOn k s && (if old.getLsbD k then ntcHi s - 30 < v || v < ntcLo s + 30 else ntcHi s < v || v < ntcLo s)
  let new := (List.range 16).foldl (fun w k => putBits w k 1 (b2n (is k))) 0#32
  let s1 := follow 115 (new != 0#32) { s with thm := { s.thm with beyond := new } }
  ((List.range 16).filter (fun k => new.getLsbD k && !old.getLsbD k)).foldl (fun t k => logOccur 2 (0x10 + k) (getF (Reg.THM_NTC_TEMP k) t) t) s1

/-! ## Gallop -/

/-- The upper limits in 0.01 °C that gallop compares a die sensor with (R520). -/
def dieLimits (n : Nat) (s : State) : List Int :=
  let tlim : Int := bleedLimit s
  [warnLimit s, 16000] ++ (if n = 0 then [tlim, tlim + 1000] else [])

/-- Whether some reading lies within `m` (in 0.01 °C) of one of its limits, or beyond it (R520). -/
def nearLimit (m : Int) (s : State) : Bool :=
  (dieGood s).any (fun e => (dieLimits e.1 s).any (fun l => l - m ≤ e.2)) ||
  (s.sys.phase == .active && (List.range 16).any (fun k => ntcOn k s && !ntcFailed k s &&
    (10 * ntcHi s - m ≤ 10 * ntcSeen k s || 10 * ntcSeen k s ≤ 10 * ntcLo s + m)))

/-- The sensor that brings gallop about, for the log. -/
def gallopSensor (s : State) : Nat × Nat :=
  match (dieGood s).find? (fun e => (dieLimits e.1 s).any (fun l => l - 500 ≤ e.2)) with
  | some e => (e.1, getF (Reg.THM_DIE_TEMP e.1) s)
  | none =>
    match (List.range 16).find? (fun k => ntcOn k s && !ntcFailed k s && (ntcHi s - 50 ≤ ntcSeen k s || ntcSeen k s ≤ ntcLo s + 50)) with
    | some k => (0x10 + k, getF (Reg.THM_NTC_TEMP k) s)
    | none => (0xFF, 0)

/-- Gallop ends. -/
def leaveGallop (s : State) : State := drop 119 (setB Reg.THM_STAT_GALLOP false s)

/-- GALLOP_ENTRY (R517, R520): with GALEN, when a reading comes within 5 °C of a limit; it does not run while all die sensors have failed. -/
def enterGallop (s : State) : State :=
  if dieGood s = [] then (if bit Reg.THM_STAT_GALLOP s then leaveGallop s else s)
  else if bit Reg.THM_CFG_GALEN s && !bit Reg.THM_STAT_GALLOP s && nearLimit 500 s then
    let g := gallopSensor s
    logOccur 6 g.1 g.2 (raise 119 (setB Reg.THM_STAT_GALLOP true s))
  else s

/-- Whether a span that began at a sample has lasted 1 s. -/
def stoodSecond (at? : Option Nat) (s : State) : Bool := at?.any (fun t => decide (t + 1000 * ms ≤ s.now))

/-- GALLOP_EXIT (R520): every reading has stayed more than 8 °C clear for 1 s. -/
def execGallopExit (s : State) : Out :=
  if coreUp s && bit Reg.THM_STAT_GALLOP s && !nearLimit 800 s && stoodSecond s.thm.clearAt s then .next (leaveGallop s) else .next s

/-! ## Samples -/

/-- A sample begins, keeps or ends the spans of R518 and R520. -/
def noteSpans (s : State) : State :=
  let keep (on : Bool) (old : Option Nat) : Option Nat := if on then old.or (some s.now) else none
  { s with thm := { s.thm with
    differAt := keep (diesDiffer s) s.thm.differAt
    clearAt := keep (bit Reg.THM_STAT_GALLOP s && !nearLimit 800 s) s.thm.clearAt } }

/-- TEMPERATURE_SAMPLE (R60, R515-R522, R527): the die readings in 0.01 °C with their self-checks, and in ACTIVE the thermistors; in SENTINEL
only the wake of THWAKE follows, which counts also in the slow-clock cycle in which another source has taken the device out of it (R65). -/
def execTemperatureSample (dies : List Int) (biasOk : List Bool) (s : State) : Out :=
  if coreUp s || s.sys.phase == .sentinel then
    let s1 := (List.range 3).foldl (fun t n => takeDie n (nth dies n 0) (nth biasOk n true) t) s
    if s.sys.phase = .sentinel then
      .next (if (List.range 3).any (fun n => warnLimit s1 ≤ dieSeen n s1) then wakeBy 5 s1 else s1)
    else
      let s2 := dieWarnings (setBand (reportHot s1))
      let s3 := if s.sys.phase = .active then ntcLimits ((List.range 16).foldl (fun t k => takeNtc k t) s2) else s2
      let failed := getF Reg.THM_STAT_FAIL s3 != 0 || (List.range 16).any (fun k => ntcOn k s3 && ntcFailed k s3)
      let s4 := bleedThermal (dieSeen 0 s3) (follow 116 failed s3)
      let s5 := noteSpans (enterGallop s4)
      let s6 := if s5.thm.disagree && !diesDiffer s5 then drop 117 { s5 with thm := { s5.thm with disagree := false } } else s5
      .next (if (List.range 3).any (fun n => warnLimit s6 ≤ dieSeen n s6) then wakeBy 5 s6 else s6)
  else
    let s1 := (List.range 3).foldl (fun t n => takeDie n (nth dies n 0) (nth biasOk n true) t) s
    .next (if (List.range 3).any (fun n => warnLimit s1 ≤ dieSeen n s1) then joinWake 5 s else s)

/-- SENSOR_DISAGREE (R518): two die sensors have differed by more than 30 °C in every sample for 1 s. -/
def execSensorDisagree (s : State) : Out :=
  if coreUp s && diesDiffer s && !s.thm.disagree && stoodSecond s.thm.differAt s then
    .next (logOccur 7 0xFF 0 (raise 117 { s with thm := { s.thm with disagree := true } }))
  else .next s

/-! ## Shutdown -/

/-- The core held in reset by a shutdown: what a device reset makes of the state, with the pins as R48 gives them (R523, R524). -/
def holdInReset (ph : Phase) (s : State) : State :=
  reportSupply (keepOutside s { State.reset with regs := keepAon s.regs, sys := sysAfterReset ph s.sys })

/-- THERMAL_SHUTDOWN (R523, R524, R527): a sensor that has not failed has shown 160 °C for 20 µs; the record is latched, then the core is held
in reset. `temp` is its reading in 0.1 °C. The comparators act from the entry to STANDBY or ACTIVE on (R523, R524). -/
def execThermalShutdown (n : Fin 3) (temp : Fin 65536) (s : State) : Out :=
  if coreUp s && s.sys.phase != .core && !dieFailed n.val s then
    let s1 := s |> setReg Reg.THM_SDTL (BitVec.ofNat 32 s.ft) |> setReg Reg.THM_SDTH (BitVec.ofNat 32 (s.ft / 2 ^ 32))
      |> incSat Reg.THM_SDINFO_SDCNT |> setB Reg.THM_SDINFO_UNSYNC (!bit Reg.CMS_STAT_TBLOCK s) |> setF Reg.THM_SDINFO_SENSOR n.val
      |> setF Reg.THM_SDINFO_TEMP temp.val
    .next (holdInReset .thermal s1)
  else .next s

/-- THERMAL_RESTART (R523-R525, R617): every die sensor that has not failed has read below 135 °C for 50 ms. A THERM reset, after which start-up
runs from the 3.4 ms row; with RSTN low the core stays in reset until RSTN rises, and both causes are recorded. Source 118 and the log
entries SHUTDOWN and RESTART follow. -/
def execThermalRestart (s : State) : Out :=
  if s.sys.phase = .thermal then
    let s1 := deviceReset Reg.SYS_RSTCAUSE_THERM (if s.sys.rstnLow then .rstHeld else .rails) s
    let s2 := if s.sys.rstnLow then setB Reg.SYS_RSTCAUSE_RSTN true s1 else s1
    let sd : LogEntry := ⟨(reg s2 Reg.THM_SDTH).toNat * 2 ^ 32 + (reg s2 Reg.THM_SDTL).toNat, bit Reg.THM_SDINFO_UNSYNC s2, 4,
      getF Reg.THM_SDINFO_SENSOR s2, getF Reg.THM_SDINFO_TEMP s2⟩
    .next (logOccur 5 0xFF 0 { s2 with thm := { s2.thm with restarted := true, logQ := [sd] } })
  else .next s

end Sys2Proof.Machine
end

