-- ==== Sys2Proof/Machine/Bst.lean ====
section
/-!
DEFINITION. Sys2Proof/Machine/Bst.lean: self-test, the life-cycle fuses and the checks of the controller's code
(spec/17_selftest_and_lifecycle.md R553-R576).
-/
namespace Sys2Proof.Machine

/-! ## What is tested, and how long it takes -/

/-- The segments of memory m (R557). -/
def segmentsOf (m : Nat) : Nat := nth [128, 128, 80, 528, 256, 20, 2, 288, 1] m 0

/-- The patterns of partition p (R558). -/
def patternsOf (p : Nat) : Nat := nth [4096, 4096, 2048, 8192, 8192, 65536] p 0

/-- The coverage of partition p, and of the memory algorithms, in 0.01 % (R558, R559). -/
def partitionCover (p : Nat) : Nat := nth [9750, 9750, 9820, 9680, 9600, 9850] p 0
def marchCover (ss : Bool) : Nat := if ss then 9960 else 9900

/-- The operations of one segment of memory m (R560): 64 words; the save buffer is tested without save and restore. -/
def segmentOps (m : Nat) (ss : Bool) : Nat := 64 * ((if ss then 46 else 22) - (if m = 8 then 2 else 0))

/-- The time in ns that an item takes in native mode (R557, R558, R562). -/
def itemTime (item : Nat) (ss : Bool) : Nat :=
  if item < 16 then 10 * (segmentsOf item * segmentOps item ss) else 300 * patternsOf (item - 16)

/-- The time a self-test run in native mode still takes: the rest of its present item and the items to come. -/
def testLeft (r : BstRun) (now : Nat) : Nat :=
  (match r.cur with
    | some i => r.start + itemTime i r.ss - now
    | none => 0) + (r.todo.map (fun i => itemTime i r.ss)).sum

/-- A command refused because a self-test run is in progress (R543, R555, R569). The time left is known in native mode, unless partition 5 has still
to stop service (R565). -/
def testBusy (s : State) : Done :=
  match s.bst.run with
  | some r => if r.compat || r.todo.contains 21 then Done.busyFree s else Done.busy (testLeft r s.now) s
  | none => Done.busyFree s

/-! ## Life-cycle -/

/-- The state that the fuses give (R553). -/
def fuseState (b : BstState) : Nat := if b.fuseRet then 3 else if b.fuseK = 0 then 0 else if b.fuseK % 2 = 1 then 1 else 2

/-- `BST_LCSTAT` shows the fuses (R553, R575). -/
def reportFuses (s : State) : State :=
  s |> setF Reg.BST_LCSTAT_K s.bst.fuseK |> setB Reg.BST_LCSTAT_LCFERR s.bst.fuseErr |> setB Reg.BST_LCSTAT_RETFUSE s.bst.fuseRet
    |> setF Reg.BST_LCSTAT_STATE (fuseState s.bst)

/-- The changes of the table of R555. -/
def changeListed (source target : Nat) : Bool :=
  (source == 0 && target == 1) || (source == 1 && target == 2) || (source == 2 && target == 1) || ((source == 1 || source == 2) && target == 3)

/-- A write of `BST_LCCMD` with KEY 0xE1 (R555). -/
def lifecycleCommand (target : Nat) (force : Bool) (tk : Ticket) (s : State) : Done :=
  let old := lifecycle s
  if !changeListed old target || (old == 2 && target == 1 && s.bst.fuseK == 16) then Done.refuse .lifecycleDenied s
  else withController s <|
    if s.bst.run.isSome then testBusy s
    else if calOccupied s || s.bst.lc.isSome then Done.busyFree s
    else if old = 0 ∧ bit Reg.CAL_STAT_TRIMBAD s then Done.refuse .checkFail s
    else if old = 1 ∧ target = 2 ∧ getF Reg.CAL_STAT_SRC s = 0 ∧ force = false then Done.refuse .checkFail s
    else Done.later { s with bst := { s.bst with lc := some (target, tk) } }

/-- LIFECYCLE_CHANGE (R555). -/
def execLifecycleChange (target : Fin 4) (force : Bool) (tk : Ticket) (s : State) : Out :=
  if coreUp s then (lifecycleCommand target.val force tk s).via tk else .next s

/-- FUSE_PROGRAM_DONE (R556): which of the two copies read burned. -/
def execFuseProgramDone (a b : Bool) (s : State) : Out :=
  match s.bst.lc with
  | none => .next s
  | some (target, tk) =>
    let s1 := { s with bst := { s.bst with lc := none } }
    if a || b then
      let f := { s1.bst with fuseErr := s1.bst.fuseErr || a != b, fuseRet := s1.bst.fuseRet || target == 3,
                             fuseK := if target = 3 then s1.bst.fuseK else s1.bst.fuseK + 1 }
      .next (complete tk .ok [] 0 (reportFuses { s1 with bst := f }))
    else .next (complete tk .incomplete [] 0 s1)

/-! ## Items and records -/

/-- The address of word w of an item's record (R566). -/
def recordWord (item w : Nat) : Nat := if item < 16 then Reg.BST_MREC (4 * item + w) else Reg.BST_LREC (4 * (item - 16) + w)

/-- An item's record (R566): RESULT, DONE, COV, COUNT, the duration from its start, and word 3. -/
def writeRecord (item result : Nat) (done : Bool) (cov count w3 : Nat) (r : BstRun) (s : State) : State :=
  let w0 := result * 2 ^ 30 + b2n done * 2 ^ 29 + b2n (item < 16 && r.ss) * 2 ^ 28 + b2n r.compat * 2 ^ 27 + getF Reg.BST_STAT_RUNS s * 2 ^ 16 + cov
  s |> setReg (recordWord item 0) (BitVec.ofNat 32 w0) |> setReg (recordWord item 1) (BitVec.ofNat 32 count)
    |> setReg (recordWord item 2) (BitVec.ofNat 32 ((s.now - r.start) / 1000)) |> setReg (recordWord item 3) (BitVec.ofNat 32 w3)

/-- An item that a run did not start reads NOTRUN (R570). -/
def clearRecord (item : Nat) (s : State) : State :=
  (List.range 4).foldl (fun t w => setReg (recordWord item w) (resetOf (recordWord item w)) t) s

/-- The next item of a run starts: partition 5 not before service has stopped (R565); with none left the run waits for its end. -/
def nextItem (s : State) : State :=
  match s.bst.run with
  | none => s
  | some r =>
    match r.todo with
    | [] => setF Reg.BST_STAT_CUR 31 { s with bst := { s.bst with run := some { r with cur := none } } }
    | i :: t =>
      if i = 21 then setF Reg.BST_STAT_CUR 31 { s with bst := { s.bst with run := some { r with cur := none } } }
      else setF Reg.BST_STAT_CUR i { s with bst := { s.bst with
        run := some { r with todo := t, cur := some i, start := s.now, segs := 0, fsegs := 0, fword := none } } }

/-- Memory m of a run is judged (R567): a failed segment gives FAIL; the end without one PASS; else INCOMPLETE with the part covered. -/
def judgeMemory (m : Nat) (r : BstRun) (s : State) : State :=
  let done : Bool := r.segs == segmentsOf m
  let cov := marchCover r.ss * r.segs / segmentsOf m
  let result := if r.fsegs ≠ 0 then 2 else if done then 1 else 3
  let s1 := writeRecord m result done cov (r.segs * segmentOps m r.ss) (min r.fsegs 4095 * 2 ^ 20 + (r.fword.getD 0xFFFFF)) r s
  { s1 with bst := { s1.bst with run := some { r with failed := r.failed || result == 2, short := r.short || result == 3 } } }

/-- A partition cut short (R567): INCOMPLETE with COV 0. In native mode COUNT is the patterns that the time since its start holds; in
compatibility mode it is a free value, and so is the signature so far. -/
def cutPartition (p : Nat) (r : BstRun) (s : State) : State :=
  let count := if r.compat then (freeWord s).toNat else min (patternsOf p) ((s.now - r.start) / 300)
  let s1 := if r.compat then useFree s else s
  let s2 := writeRecord (16 + p) 3 false 0 count (freeWord s1).toNat r (useFree s1)
  { s2 with bst := { s2.bst with run := some { r with short := true } } }

/-- The end of a run (R568): RESULT, and source 125 when it is not OK. -/
def endSelfTest (s : State) : State :=
  match s.bst.run with
  | none => s
  | some r =>
    let res := if r.failed then 7 else if r.short then 10 else 0
    let s1 := { s with bst := { s.bst with run := none } }
    let s2 := s1 |> setB Reg.BST_STAT_BUSY false |> setF Reg.BST_STAT_CUR 31 |> setF Reg.BST_STAT_RESULT res
    if res = 0 then s2 else pulse 125 s2

/-- A partition ends and its unit returns: the engine of partition 3, and the stores of partition 4, are reset and keep their registers
(R571). -/
def unitReturns (item : Nat) (s : State) : State :=
  if item = 19 then { s with imp := { ImpState.reset with results := s.imp.results } }
  else if item = 20 then { s with hst := { s.hst with cmds := [], waiting := [], sbuf := [], evq := [], reply := [] } }
  else s

/-- A run ends early (R570): the item in progress is judged and those not started read NOTRUN. -/
def abortSelfTest (s : State) : State :=
  match s.bst.run with
  | none => s
  | some r =>
    let s1 := r.todo.foldl (fun t i => clearRecord i t) s
    let s2 := match r.cur with
      | some i => if i < 16 then judgeMemory i r s1 else unitReturns i (cutPartition (i - 16) r s1)
      | none => s1
    endSelfTest s2

/-- A run ends early when it tests the given item. -/
def abortItem (item : Nat) (s : State) : State := if s.bst.run.any (fun r => r.cur == some item) then abortSelfTest s else s

/-! ## Running a test -/

/-- The items of a selection, in their order (R560, R562): the save buffer first, the memories, then the partitions. -/
def itemsOf (mem log : Nat) : List Nat :=
  8 :: ((List.range 8).filter (fun m => mem.testBit m) ++ ((List.range 6).filter (fun p => log.testBit p)).map (16 + ·))

/-- Whether a selected memory or partition belongs to a fenced unit (R569). -/
def itemFenced (i : Nat) (s : State) : Bool :=
  match i with
  | 0 => (getF Reg.FLT_FENCE0_HBANK s).testBit 0
  | 1 => (getF Reg.FLT_FENCE0_HBANK s).testBit 1
  | 2 | 3 => getF Reg.FLT_FENCE0_PORT s != 0
  | 6 | 16 => bit Reg.FLT_FENCE0_CTL s
  | 7 | 20 => bit Reg.FLT_FENCE0_HST s
  | 17 => bit Reg.FLT_FENCE0_CNV s
  | 19 => bit Reg.FLT_FENCE0_IMP s
  | 21 => getF Reg.FLT_FENCE0_PORT s != 0
  | _ => false

/-- A run starts (R569): the save buffer is its first item. -/
def beginSelfTest (mem log : Nat) (ss compat : Bool) (s : State) : State :=
  let r : BstRun := ⟨ss, compat, itemsOf mem log, none, s.now, 0, 0, none, false, false, false⟩
  let s1 := s |> setB Reg.BST_STAT_BUSY true |> setF Reg.BST_STAT_RUNS (getF Reg.BST_STAT_RUNS s + 1)
  nextItem ((if compat then setF Reg.BST_STAT_SLICES 0 s1 else s1) |> fun t => { t with bst := { t.bst with run := some r, runAt := s.now } })

/-- A write of `BST_CMD` with KEY 0x69 and GO 1 (R569). -/
def selfTestCommand (mem log : Nat) (ss compat : Bool) (s : State) : Done :=
  let chosen := (itemsOf mem log).tail
  if log.testBit 5 && lifecycle s == 2 then Done.refuse .lifecycleDenied s
  else if chosen.any (fun i => itemFenced i s) then Done.refuse .refusedFenced s
  else withController s <|
    if s.sys.phase ≠ .active then Done.busy 0 s
    else if s.bst.run.isSome then testBusy s
    else if calOccupied s then Done.busyFree s
    else if (log.testBit 3 && planActive s) || (log.testBit 4 && hasRole s) then Done.busy 0 s
    else if mem = 0 ∧ log = 0 then Done.ok s
    else Done.ok (beginSelfTest mem log ss compat s)

/-- SELFTEST_GO (R569). -/
def execSelftestGo (mem : Fin 256) (log : Fin 64) (ss compat : Bool) (s : State) : Out :=
  if coreUp s then (selfTestCommand mem.val log.val ss compat s).out else .next s

/-- A write of `BST_CMD` with ABORT (R570). Partition 5, once begun, is followed by its reset however it ends (R565; DEDUCED notes/assumptions/41.md). -/
def abortCommand (s : State) : Done :=
  if s.bst.run.any (fun r => r.cur == some 21) then Done.ok (deviceReset Reg.SYS_RSTCAUSE_SOFT .rails (abortSelfTest s))
  else Done.ok (abortSelfTest s)

/-- SELFTEST_ABORT (R570). -/
def execSelftestAbort (s : State) : Out := if coreUp s then (abortCommand s).out else .next s

/-- The least time in ns from an item's start to the end of so many operations of a memory test, or patterns of a partition (R558, R562, R563): in
native mode 10 ns an operation and 300 ns a pattern; in compatibility mode at least 5 ns each, the gaps between slices apart. -/
def testTime (r : BstRun) (item n : Nat) : Nat := if r.compat then 5 * n else if item < 16 then 10 * n else 300 * n

/-- SEGMENT_TEST_DONE (R559, R561, R567): a segment of the memory under test ends; `fail` is the first word of it that failed. -/
def execSegmentTestDone (fail : Option (Fin 64)) (s : State) : Out :=
  match s.bst.run with
  | some r =>
    match r.cur with
    | some m =>
      if m < 16 ∧ r.start + testTime r m ((r.segs + 1) * segmentOps m r.ss) ≤ s.now then
        let first := match r.fword, fail with
          | some w, _ => some w
          | none, some k => some (64 * r.segs + k.val)
          | none, none => none
        let r1 := { r with segs := r.segs + 1, fsegs := r.fsegs + b2n fail.isSome, fword := first }
        if r1.segs < segmentsOf m then .next { s with bst := { s.bst with run := some r1 } }
        else .next (nextItem (judgeMemory m r1 s))
      else .next s
    | none => .next s
  | none => .next s

/-- PARTITION_DONE (R565, R567, R571): the patterns of the partition under test end with a signature. After partition 5 the device resets as by
a write of `SYS_RSTCMD`. -/
def execPartitionDone (misr : Word) (s : State) : Out :=
  match s.bst.run with
  | some r =>
    match r.cur with
    | some i =>
      if i < 16 ∨ s.now < r.start + testTime r i (patternsOf (i - 16)) then .next s
      else
        let p := i - 16
        let pass : Bool := misr == Config.signature p
        let s1 := writeRecord i (if pass then 1 else 2) true (partitionCover p) (patternsOf p) misr.toNat r s
        let s2 := { s1 with bst := { s1.bst with run := some { r with failed := r.failed || !pass } } }
        if i = 21 then .next (deviceReset Reg.SYS_RSTCAUSE_SOFT .rails s2)
        else .next (nextItem (unitReturns i s2))
    | none => .next s
  | none => .next s

/-- SELFTEST_RUN_END (R568): no item is left. -/
def execSelftestRunEnd (s : State) : Out :=
  match s.bst.run with
  | some r => if r.cur.isNone && r.todo.isEmpty then .next (endSelfTest s) else .next s
  | none => .next s

/-- SLICE_START (R563): in compatibility mode a slice begins where fabric time stands at a whole multiple of 10 ms, up to one core clock past it, at most 6 ns. -/
def execSliceStart (s : State) : Out :=
  match s.bst.run with
  | some r => if r.compat && decide (s.ft % (10 * ms) < 6) then .next (incSat Reg.BST_STAT_SLICES s) else .next s
  | none => .next s

/-- Steps 1 to 3 of R63: a commanded stop of the converter, the end of an impedance plan, and the bleed switches open. -/
def stopService (s : State) : State := enforceSwitches (commandedStop (planAbort 2 s))

/-- OFFLINE_PARTITION_START (R565): partition 5 is next. Service stops and the node leaves; once the converter has stopped, the ports are idle,
the fault pair is at the fault level and the partition begins. -/
def execOfflinePartitionStart (s : State) : Out :=
  match s.bst.run with
  | some r =>
    if r.cur.isSome || r.todo != [21] then .next s
    else if !r.leaving then .next (sendLeave (stopService { s with bst := { s.bst with run := some { r with leaving := true } } }))
    else if switching s then .next s
    else
      let s1 := setF Reg.BST_STAT_CUR 21 { s with bst := { s.bst with run := some { r with todo := [], cur := some 21, start := s.now } } }
      let s2 := (List.range 4).foldl (fun t n => enterPort n portOff .silent t) s1
      .next (driveFaultLevel (enforceSwitches (harnessAbort s2)))
  | none => .next s

/-- Whether an automatic run is due (R572): every AUTOPER × 10 min from the start of the last run or from the device reset, so that one that is
skipped waits for the next of these moments; up to one core clock past it. -/
def autoRunDue (s : State) : Bool :=
  let period := getF Reg.BST_CFG_AUTOPER s * 600000 * ms
  period != 0 && decide (s.bst.runAt + period ≤ s.now) && decide ((s.now - s.bst.runAt) % period < 5)

/-- AUTO_RUN_DUE (R572, R573): an automatic run of all memories and partitions 0 to 2 starts, unless it would be refused. -/
def execAutoRunDue (s : State) : Out :=
  if autoRunDue s = false then .next s
  else .next (selfTestCommand 0xFF 7 (bit Reg.BST_CFG_AUTOALG s) false s |> fun d => if d.status = .ok then d.st else s)

/-! ## Power-state transitions -/

/-- A transition to a low-power state is asked for (R63, R68, R536, R570): runs of calibration and self-test end first; with the slow clock
failed, SENTINEL becomes STANDBY and ABORT is set. -/
def beginTransition (t : LowState) (s : State) : State :=
  let s1 := abortSelfTest (abortCalRun s)
  if t = .sentinel ∧ s.sys.sclkFailed then
    setB Reg.SYS_PWRSTAT_ABORT true { s1 with sys := { s1.sys with transition := some ⟨.standby, false⟩ } }
  else { s1 with sys := { s1.sys with transition := some ⟨t, false⟩ } }

/-- The low-power state of a code (R78, R79). -/
def lowStateOf : Nat → LowState
  | 0 => .shelf
  | 1 => .sentinel
  | _ => .standby

/-! ## The controller's code -/

/-- Whether the patch area holds a patch (R574): its first 16 bytes are not all erased. -/
def patchHeld (s : State) : Bool := !nvmErased 0x3400 16 s

/-- Whether the patch passes its check (R574): MAGIC, ROM version and the CRC over the body, which lies within the area. -/
def patchGood (s : State) : Bool :=
  let word (k : Nat) : Nat := bytesNat (nvmBytes (0x3400 + 4 * k) 4 s)
  word 0 == 0x48544150 && word 1 ≤ 0x4BF0 && word 2 == Config.romVersion.toNat && word 3 == (crc32c (nvmBytes 0x3410 (word 1) s)).toNat

/-- The check at a start of the controller (R574): ROM, then the patch. -/
def checkController (romOk : Bool) (s : State) : State :=
  let s1 := s |> setF Reg.BST_CTLSTAT_ROMVER Config.romVersion.toNat |> setB Reg.BST_CTLSTAT_ROMBAD (!romOk)
    |> setB Reg.BST_CTLSTAT_PATCHBAD false |> setB Reg.BST_CTLSTAT_PATCHED false
  if !romOk then pulse 126 s1
  else if !patchHeld s1 then s1
  else if patchGood s1 then setB Reg.BST_CTLSTAT_PATCHED true s1
  else pulse 126 (setB Reg.BST_CTLSTAT_PATCHBAD true s1)

end Sys2Proof.Machine
end

