-- ==== Sys2Proof/Machine/Hst.lean ====
section
/-!
DEFINITION. Sys2Proof/Machine/Hst.lean: the gateway role, generation 2 SPI, PCI Express, and the rings and queues of a gateway
(spec/12_host_interface.md R424-R466; spec/01_system_view.md R16-R19).
-/
namespace Sys2Proof.Machine

/-! ## Pins that follow other state -/

/-- The commands and events that generation 2 reports through HIRQN (R436): a completion, an event, stream data up to the threshold, or an
error with ERRIEN. -/
def streamUnits (e : StreamEntry) : Nat := if e.kind = 1 then 1 + (e.payload.length + 3) / 4 else 1
def waitingUnits (s : State) : Nat := (s.hst.sbuf.map streamUnits).sum
def gen2Irq (s : State) : Bool :=
  !s.hst.waiting.isEmpty || !s.hst.evq.isEmpty
    || (if getF Reg.HST_G2CFG_STRTH s = 0 then decide (0 < waitingUnits s) else decide (getF Reg.HST_G2CFG_STRTH s * 64 ≤ waitingUnits s * 16))
    || (bit Reg.HST_IRQ_ERRIEN s && reg s Reg.HST_ERR != 0#32)

/-- The host interface's pins are in service: not in reset, and not in STANDBY, which lasts until ACTIVE is entered again (R48, R60; DESIGN CHOICE
notes/assumptions/68.md). -/
def hostPins (s : State) : Bool := s.sys.phase == .active || s.sys.phase == .core

/-- The pins of generation 3 stay inactive (R16, R424): generation 2 holds the role, or generation 1 has settled. -/
def gen3Shut (s : State) : Bool := s.hst.spi == 1 || (hasRole s && isGen2 s)

/-- Whether WAKEN is driven low (R16, R48, R442): PME_Status and PME_En set, and the link neither in L0 nor in L1. -/
def wakenLow (s : State) : Bool := hostPins s && !gen3Shut s && s.hst.pcie.pmeStat && s.hst.pcie.pmeEn && !bit Reg.HST_STAT_L0 s

/-- Whether VAUXREF is driven (R48, R153). -/
def vauxrefDriven (s : State) : Bool := s.sys.phase == .active && bit Reg.XCK_AUXCTL_VAUXEN s

/-! ## The gateway role -/

/-- Generation 3 holds the role. -/
def gen3Holds (s : State) : Bool := hasRole s && getF Reg.HST_STAT_GEN s == 3

/-- The oldest stream entries that a limit of units holds, and the rest. -/
def splitUnits (room : Nat) : List StreamEntry → List StreamEntry × List StreamEntry
  | [] => ([], [])
  | e :: l => if streamUnits e ≤ room then (e :: (splitUnits (room - streamUnits e) l).1, (splitUnits (room - streamUnits e) l).2) else ([], e :: l)

/-- Generation 2 follows generation 3 in the role: of what was left for the rings it holds what R438 allows. Completions go, being of the other host's
commands; stream entries beyond 32 KiB are discarded under R455 (DESIGN CHOICE notes/assumptions/94.md). -/
def leaveRings (s : State) : State :=
  let p := splitUnits 2048 s.hst.sbuf
  p.2.foldl (fun t e => pulse 108 (incSat (Reg.HST_RLOST_LOST (3 + e.ring)) { t with hst := { t.hst with lost := setNth t.hst.lost (3 + e.ring) (nth t.hst.lost (3 + e.ring) 0 + 1) } }))
    { s with hst := { s.hst with waiting := [], sbuf := p.1 } }

/-- GATEWAY_ROLE_TAKE (R16, R399, R570): in ACTIVE, when no generation holds the role. A test of the host interface ends; full enumeration
starts where AUTO is set and the node has no ID. -/
def takeRole (gen : Nat) (s : State) : State :=
  if s.sys.phase ≠ .active ∨ hasRole s then s
  else
    let s0 := if gen = 2 ∧ getF Reg.HST_STAT_GEN s = 3 then leaveRings s else s
    let s1 := refreshRoot (setB Reg.HST_STAT_ROLE true (setF Reg.HST_STAT_GEN gen (abortItem 20 s0)))
    if bit Reg.FAB_ENCFG_AUTO s1 then autoRun 1 s1 else s1

/-- GATEWAY_ROLE_END (R18, R64, R406): host commands not completed are discarded, ROLEEND is sent, a run of enumeration ends, and a recorded
power state is entered. -/
def endRole (s : State) : State :=
  if !hasRole s then s
  else
    let s1 := sendRoleend s
    let s2 := { s1 with hst := { s1.hst with cmds := [], g2busy := false }, fab := { s1.fab with reqs := s1.fab.reqs.filter (fun r => r.slot.isNone) } }
    let s3 := refreshRoot (refreshOut (setB Reg.HST_STAT_ROLE false (abandonRun s2)))
    if bit Reg.SYS_PWRSTAT_PEND s3 then
      beginTransition (lowStateOf (getF Reg.SYS_PWRSTAT_PENDTGT s3)) (setB Reg.SYS_PWRSTAT_PEND false s3)
    else s3

/-! ## Descriptors -/

/-- OP, TMODE and COUNT of a descriptor (R444). -/
def descOp (d : List Word) : Nat := getBits (nth d 0 0#32) 16 8
def descMode (d : List Word) : Nat := getBits (nth d 1 0#32) 14 2
def descCount (d : List Word) : Nat := getBits (nth d 4 0#32) 0 9
def descInline (d : List Word) : Bool := (nth d 0 0#32).getLsbD 28

/-- What R462 lists as host errors of a descriptor: reserved OP or field values (those of R411 within a SESSION among them), ENUM to another node, a broadcast other than WRITE, a COUNT
of 0 or above 256, INLINE with COUNT above 7, or a misaligned data buffer. -/
def descBad (gen2 : Bool) (d : List Word) : Bool :=
  let w (i : Nat) : Word := nth d i 0#32
  let op := descOp d
  let access := op == 1 || op == 2
  decide (4 < op) ||
    getBits (w 0) 29 3 != 0 || getBits (w 1) 10 4 != 0 || getBits (w 1) 29 3 != 0 || getBits (w 3) 20 12 != 0 ||
    getBits (w 4) 9 7 != 0 || getBits (w 4) 21 11 != 0 || (op < 3 && w 7 != 0#32) || (descMode d != 2 && getBits (w 4) 16 5 != 0) ||
    (op == 4 && (descMode d != 0 || getBits (w 7) 2 30 != 0)) || (descMode d == 3 && op != 2) ||
    (op == 3 && (getBits (w 7) 0 8 == 0 || 4 < getBits (w 7) 0 8 || getBits (w 7) 18 14 != 0 || getBits (w 8) 25 7 != 0 || getBits (w 9) 17 15 != 0 ||
      (w 9).getLsbD 15)) ||
    (access && (descCount d == 0 || decide (256 < descCount d))) || (op == 2 && descInline d && decide (7 < descCount d)) ||
    (access && !gen2 && !(op == 2 && descInline d) && getBits (w 5) 0 2 != 0)

/-- Whether a command needs a TAG (R445, R448): a broadcast's is the broadcast counter (R387). -/
def descTag (d : List Word) : Bool := (descOp d == 1 || descOp d == 2 || descOp d == 3) && (descMode d == 1 || descMode d == 2)

/-- A command is fetched or accepted. -/
def storeCommand (d : List Word) (data : List Word) (s : State) : State :=
  refreshOut { s with hst := { s.hst with cmds := s.hst.cmds ++ [⟨s.hst.nextSlot, d, data, false, s.now⟩], nextSlot := s.hst.nextSlot + 1 } }

/-! ## Generation 2 -/

/-- The status word (R434). -/
def g2Status (s : State) : Word :=
  BitVec.ofNat 32 (min (waitingUnits s) 4095 * 2 ^ 20 + s.hst.cseq % 256 * 2 ^ 8 + s.hst.lastErr % 8 * 2 ^ 5 + 16 * b2n (hasRole s) + 8 * b2n s.hst.g2busy
    + 4 * b2n (!s.hst.sbuf.isEmpty) + 2 * b2n (!s.hst.evq.isEmpty) + b2n (!s.hst.waiting.isEmpty))

/-- The result of a generation 2 transaction, for the next status word (R434). -/
def setLastErr (e : Nat) (s : State) : State := { s with hst := { s.hst with lastErr := e } }

/-- The bytes that follow the status word. -/
def sendBytes (bs : List Byte) (s : State) : State := { s with hst := { s.hst with reply := s.hst.reply ++ bs } }

/-- Bytes with the CRC-32C that ends them (R432). -/
def withCrc (bs : List Byte) : List Byte := bs ++ wordBytes (crc32c bs)

/-- A generation 2 transaction with a good header (R16, R424, R432, R437): ignored while generation 3 holds the role, counted as the other
form on pins that have settled generation 1; else it settles the pins, takes the role, and acts. -/
def g2Transaction (act : State → Out) (s : State) : Out :=
  if !hostPins s || gen3Holds s then .next s
  else if s.hst.spi = 1 then .next (incSat Reg.HST_CNT_OTHER s)
  else act (takeRole 2 { s with hst := { s.hst with spi := 2, reply := wordBytes (g2Status s), g2At := s.now } })

/-- One event of source 107 with its count and error bit (R435, R459). -/
def spiError (f : Field) (s : State) : State := pulse 107 (setHostErr f (incSat Reg.HST_CNT_FRERR s))

/-- The bytes that SDI carries, most significant bit first; a partial byte is discarded (R425). -/
def spiBytes : List Bool → List Byte
  | a :: b :: c :: d :: e :: f :: g :: h :: l => BitVec.ofNat 8 ([a, b, c, d, e, f, g, h].foldl (fun v x => 2 * v + b2n x) 0) :: spiBytes l
  | _ => []

/-- CMD (R425, R432, R434, R435, R460): `bits` are what the host sends after the header until CSN rises. A fence is reported before anything else. -/
def execCmd (arg : Fin 256) (bits : List Bool) (s : State) : Out :=
  g2Transaction (fun t =>
    let fenced := bit Reg.FLT_FENCE0_HST t
    let bytes := spiBytes bits
    let d := bytesWords (bytes.take 64)
    let n := if descOp d = 2 ∧ descInline d = false then 4 * descCount d else 0
    if bytes.length < 68 + n then .next (setLastErr (if fenced then 3 else 4) t)
    else if bytesNat ((bytes.drop (64 + n)).take 4) ≠ (crc32c (bytes.take (64 + n))).toNat then
      .next (setLastErr (if fenced then 3 else 2) (spiError Reg.HST_ERR_G2PCRC t))
    else if fenced ∨ t.hst.g2busy then .next (setLastErr 3 t)
    else if descBad true d then .next (upset t)
    else
      let t1 := storeCommand d (bytesWords ((bytes.drop 64).take n)) t
      .next (setLastErr 0 { t1 with hst := { t1.hst with g2busy := true, cseq := arg.val } })) s

/-- The 80 bytes of an event entry (R452). -/
def eventBytes (e : EventEntry) (ph : Bool) : List Byte :=
  let p := (e.payload.take 16)
  natBytes 2 (if e.src = 1023 then 1023 else 0x8000 + e.src) ++ natBytes 1 e.kind ++ natBytes 1 (b2n ph) ++ natBytes 1 e.epoch
    ++ natBytes 1 (4 * p.length) ++ natBytes 2 (min e.lost 65535) ++ natBytes 8 e.rtime ++ wordsBytes p ++ List.replicate (64 - 4 * p.length) 0#8

/-- The bytes of a stream entry of `n` units (R451). -/
def streamBytes (e : StreamEntry) (n : Nat) (ph : Bool) : List Byte :=
  natBytes 2 n ++ natBytes 1 e.kind ++ natBytes 1 (b2n ph) ++ natBytes 2 (if e.kind = 1 ∧ e.src ≠ 1023 then 0x8000 + e.src else e.src)
    ++ natBytes 1 e.sess ++ natBytes 1 e.epoch ++ natBytes 4 e.lost ++ natBytes 4 0
    ++ wordsBytes e.payload ++ List.replicate (16 * streamUnits e - 16 - 4 * e.payload.length) 0#8

/-- Nothing waits for a GET, or the interface is fenced (R432, R434, R460). -/
def getNothing (s : State) : State := setLastErr 6 s

/-- GETCPL (R432, R433): READ data follow, and RDATA, which tells of data at DPTR, reads 0 (R444, R447). -/
def execGetcpl (s : State) : Out :=
  g2Transaction (fun t =>
    match t.hst.waiting with
    | d :: _ =>
      if bit Reg.FLT_FENCE0_HST t then .next (getNothing { t with hst := { t.hst with gotCpl := false } })
      else
        let bs := completionBytes { d with rdata := false } (nth t.hst.phase 1 true) ++ wordsBytes d.data
        .next (setLastErr 0 (sendBytes (withCrc bs) { t with hst := { t.hst with gotCpl := true } }))
    | [] => .next (getNothing { t with hst := { t.hst with gotCpl := false } })) s

/-- GETEVT (R432, R433). -/
def execGetevt (s : State) : Out :=
  g2Transaction (fun t =>
    match t.hst.evq with
    | e :: _ =>
      if bit Reg.FLT_FENCE0_HST t then .next (getNothing { t with hst := { t.hst with gotEvt := false } })
      else .next (setLastErr 0 (sendBytes (withCrc (eventBytes e (nth t.hst.phase 2 true))) { t with hst := { t.hst with gotEvt := true } }))
    | [] => .next (getNothing { t with hst := { t.hst with gotEvt := false } })) s

/-- The oldest whole entries that fit within a number of units (R432). -/
def fitEntries : List StreamEntry → Nat → List StreamEntry
  | [], _ => []
  | e :: l, room => if streamUnits e ≤ room then e :: fitEntries l (room - streamUnits e) else []

/-- GETSTR (R432, R433): ARG is the limit in 64-byte units; 0 is a host error (R6, R462). -/
def execGetstr (arg : Fin 256) (s : State) : Out :=
  g2Transaction (fun t =>
    if arg.val = 0 then .next (upset t)
    else if bit Reg.FLT_FENCE0_HST t ∨ t.hst.sbuf = [] then .next (getNothing { t with hst := { t.hst with gotStr := 0 } })
    else
      let es := fitEntries t.hst.sbuf (4 * arg.val)
      let body := es.flatMap (fun e => streamBytes e (streamUnits e) (nth t.hst.phase (3 + e.ring) true))
      .next (setLastErr 0 (sendBytes (withCrc (natBytes 4 body.length ++ body)) { t with hst := { t.hst with gotStr := es.length } }))) s

/-- ACK (R432, R433, R435): what the last GET of each named kind returned is removed. -/
def execAck (cpl evt str : Bool) (s : State) : Out :=
  g2Transaction (fun t =>
    let h := t.hst
    let h1 := if cpl && h.gotCpl then { h with waiting := h.waiting.tail, gotCpl := false, g2busy := false } else h
    let h2 := if evt && h1.gotEvt then { h1 with evq := h1.evq.tail, gotEvt := false } else h1
    let h3 := if str then { h2 with sbuf := h2.sbuf.drop h2.gotStr, gotStr := 0 } else h2
    .next (setLastErr 0 (roomEvent { t with hst := h3 }))) s

/-- GEN2_HOST_TIMEOUT (R18, R437): no valid header has arrived for HTO. -/
def execGen2HostTimeout (s : State) : Out :=
  if hasRole s && isGen2 s && decide (s.hst.g2At + getF Reg.HST_G2CFG_HTO s * 10 * ms ≤ s.now) then
    let s1 := endRole (pulse 109 s)
    .next { s1 with hst := { s1.hst with waiting := [], evq := [], sbuf := [], lost := List.replicate 11 0, gotCpl := false, gotEvt := false, gotStr := 0 } }
  else .next s

/-- SPI_TRANSACTION_REJECTED (R16, R424, R426, R433-R435): a failed header check, an unknown OP behind a valid header, a header or frame that CSN cuts
short, a failed CRC-16, or the form of the generation that the pins have not settled. -/
def execSpiTransactionRejected (why : SpiReject) (s : State) : Out :=
  if !hostPins s || gen3Holds s then .next s
  else
    let reply2 (t : State) : State := { t with hst := { t.hst with reply := wordBytes (g2Status s) } }
    match why with
    | .headerCheck => if s.hst.spi = 1 then .next (incSat Reg.HST_CNT_OTHER s) else .next (reply2 (setLastErr 1 (spiError Reg.HST_ERR_G2HCRC s)))
    | .unknownOp => g2Transaction (fun t => .next (setLastErr 5 t)) s
    | .cutHeader n =>
      if s.hst.spi = 1 then .next s
      else .next { (setLastErr 4 s) with hst := { (setLastErr 4 s).hst with reply := (wordBytes (g2Status s)).take n.val } }
    | .cutFrame => g2Transaction (fun t => .next (setLastErr (if bit Reg.FLT_FENCE0_HST t then 3 else 4) t)) s
    | .crc16 =>
      if s.hst.spi = 2 then .next (incSat Reg.HST_CNT_OTHER s)
      else .next { (spiError Reg.HST_ERR_G1CRC s) with hst := { (spiError Reg.HST_ERR_G1CRC s).hst with g1crc := true } }
    | .otherForm => if s.hst.spi = 0 then .next s else .next (incSat Reg.HST_CNT_OTHER s)

/-! ## PCI Express -/

/-- The PHY runs and the link may come up (R16, R45, R48, R70, R424): the device is in ACTIVE, PERSTN is released, generation 1 has not settled,
and generation 2 does not hold the role. -/
def pciePresent (s : State) : Bool :=
  s.sys.phase == .active && !s.sys.perstLow && !s.hst.phyDown && !gen3Shut s

/-- A PM_PME message leaves as soon as the link can carry it (R442). -/
def sendPme (s : State) : State :=
  if s.hst.pcie.pmeOwed && bit Reg.HST_STAT_L0 s then
    { s with hst := { s.hst with pcie := { s.hst.pcie with pmeOwed := false, pmeSent := s.hst.pcie.pmeSent + 1 } } }
  else s

/-- GEN3_LINK_UP (R16, R442, R463): the link reaches L0 at 2.5 or 5.0 GT/s. -/
def execGen3LinkUp (fast : Bool) (s : State) : Out :=
  if pciePresent s then
    .next (takeRole 3 <| sendPme (setB Reg.SYS_CLKSTAT_PCIELK true (setB Reg.HST_STAT_L0 true (setF Reg.HST_STAT_LRATE (1 + b2n fast) s))))
  else .next s

/-- EN of every ring and of the writeback block clears (R443, R460). -/
def clearEnables (s : State) : State :=
  setB Reg.HST_WBL_EN false ((List.range 11).foldl (fun t r => setB (Reg.HST_RCFG_EN r) false t) s)

/-- Generation 3 service ends: source 106 where it held the role (R443, R459). -/
def endGen3 (s : State) : State := if gen3Holds s then endRole (pulse 106 s) else s

/-- The link falls to Detect without PERSTN (R18, R443); the PLL of a generation 3 that is not in use does not run (R70, R84). -/
def pcieDown (s : State) : State :=
  if bit Reg.HST_STAT_L0 s then
    let s1 := endGen3 s
    let s2 := setB Reg.HST_ERR_LINKDN true ((List.range 11).foldl (fun t r => setB (Reg.HST_RCFG_EN r) false t) s1)
    setB Reg.SYS_CLKSTAT_PCIELK false (setF Reg.HST_STAT_LRATE 0 (setB Reg.HST_STAT_L0 false s2))
  else s

/-- PCIE_LINK_DOWN (R18, R443). -/
def execPcieLinkDown (s : State) : Out := .next (pcieDown s)

/-- A doubleword of the configuration header (R439, R440). The capability pointer is a free value; what the spec leaves to PCI Express reads
as its base specification has it (PRESUMED notes/assumptions/38.md). -/
def headerWord (d : Nat) (s : State) : Word :=
  match d with
  | 0 => 0x2464F0A5#32
  | 1 => BitVec.ofNat 32 (2 * b2n s.hst.pcie.memEn + 4 * b2n s.hst.pcie.busMaster + 0x100000)
  | 2 => BitVec.ofNat 32 (0x11800000 + getF Reg.SYS_ID_REV s)
  | 4 => BitVec.ofNat 32 (s.hst.pcie.bar / 2 ^ 20 * 2 ^ 20 + 4)
  | 5 => BitVec.ofNat 32 (s.hst.pcie.bar / 2 ^ 32)
  | 11 => 0x0001F0A5#32
  | 13 => freeWord s
  | _ => 0#32

/-- A doubleword of a capability that R439 and R440 name, whose place in configuration space the spec does not give: MSI-X with its table and PBA in BAR0, power
management with D3hot and PME from it, the PCI Express endpoint of R439, and Advanced Error Reporting. What the spec leaves open is free, by
`Config.pcieOpen`, in fields that PCI Express leaves to a device (PRESUMED notes/assumptions/38.md). -/
def capabilityWord (k : Capability) (d : Nat) (s : State) : Word :=
  let p := s.hst.pcie
  let openBits (lo w : Nat) : Nat := getBits (Config.pcieOpen k d) lo w * 2 ^ lo
  match k, d with
  | .power, 0 => BitVec.ofNat 32 (0x40030001 + openBits 8 8)
  | .power, 1 => BitVec.ofNat 32 (3 * b2n p.d3 + 8 + 256 * b2n p.pmeEn + 0x8000 * b2n p.pmeStat)
  | .msix, 0 => BitVec.ofNat 32 (0x00070011 + openBits 8 8 + 2 ^ 30 * b2n p.msixMask + 2 ^ 31 * b2n p.msixEn)
  | .msix, 1 => 0x5400#32
  | .msix, 2 => 0x5600#32
  | .express, 0 => BitVec.ofNat 32 (0x00020010 + openBits 8 8)
  | .express, 1 => BitVec.ofNat 32 (0x8001 + openBits 6 6)
  | .express, 2 => BitVec.ofNat 32 (32 * p.mps + 2 ^ 12 * p.mrrs)
  | .express, 3 => BitVec.ofNat 32 (0x00018812 + openBits 12 3)
  | .express, 4 => BitVec.ofNat 32 (p.aspm + 2 ^ 16 * getF Reg.HST_STAT_LRATE s + 2 ^ 20)
  | .express, 9 => 0x13#32
  | .express, 10 => BitVec.ofNat 32 (p.timeout + 16 * b2n p.timeoutOff)
  | .express, 12 => 2#32
  | .aer, 0 => 0x00010001#32
  | .aer, 1 => p.aer
  | .aer, 2 => p.aerMask
  | .aer, 3 => p.aerSev
  | .aer, _ => Config.pcieOpen k d
  | _, _ => 0#32

/-- CONFIG_REQUEST (R439-R442, R454): the configuration space is answered while the link is up. Bus Master Enable, D0 and a lifted mask
let what waited go out (R461). -/
def execConfigRequest (c : CfgAccess) (s : State) : Out :=
  if !bit Reg.HST_STAT_L0 s then .next s
  else
    let set (p : PcieState) : State := { s with hst := { s.hst with pcie := p } }
    let p := s.hst.pcie
    let resume (t : State) : State := signalDue (flushCompletions t.hst.waiting.length (releaseMasked t))
    match c with
    | .readHeader d => (Done.read [headerWord d.val s] (if d.val = 13 then useFree s else s)).out
    | .readCapability k d => (Done.read [capabilityWord k d.val s] s).out
    | .writeCommand m b => (Done.ok (resume (set { p with memEn := m, busMaster := b }))).out
    | .writeBar v => (Done.ok (set { p with bar := v.val / 2 ^ 20 * 2 ^ 20 })).out
    | .writeMsix e m => (Done.ok (resume (set { p with msixEn := e, msixMask := m }))).out
    | .writePower d e k => (Done.ok (resume (set { p with d3 := d, pmeEn := e, pmeStat := p.pmeStat && !k }))).out
    | .writeDevice a b =>
      if a.val ≤ 1 then (Done.ok (set { p with mps := a.val, mrrs := b.val })).out
      else (Done.ok (useFree (set { p with mps := (freeWord s).toNat % 2, mrrs := b.val }))).out
    | .writeLink a => (Done.ok (set { p with aspm := a.val })).out
    | .clearAer w => (Done.ok (set { p with aer := p.aer &&& ~~~w })).out
    | .writeAer m v => (Done.ok (set { p with aerMask := m, aerSev := v })).out
    | .writeTimeout r off => (Done.ok (set { p with timeout := r.val, timeoutOff := off })).out

/-- PME_REQUEST (R16, R442): in D3hot with PME_En, an event entry has become due: PME_Status sets and a PM_PME message is due. -/
def execPmeRequest (s : State) : Out :=
  if s.hst.pcie.d3 && s.hst.pcie.pmeEn && !gen3Shut s && !s.hst.evq.isEmpty then
    .next (sendPme { s with hst := { s.hst with pcie := { s.hst.pcie with pmeStat := true, pmeOwed := true } } })
  else .next s

/-- AER_UNCORRECTABLE (R459): the error bits are logged. -/
def execAerUncorrectable (bits : Word) (s : State) : Out :=
  if pciePresent s then
    .next (pulse 104 (setHostErr Reg.HST_ERR_AER { s with hst := { s.hst with pcie := { s.hst.pcie with aer := s.hst.pcie.aer ||| bits } } }))
  else .next s

/-- DMA_READ_ERROR (R459): fetching stops until DMAERR is cleared. -/
def execDmaReadError (s : State) : Out := if pciePresent s then .next (pulse 105 (setHostErr Reg.HST_ERR_DMAERR s)) else .next s

/-- HOST_PARITY_ERROR (R459). -/
def execHostParityError (s : State) : Out := if coreUp s then .next (pulse 110 (setHostErr Reg.HST_ERR_PAR s)) else .next s

/-! ## Rings -/

/-- EN of ring r rises (R450, R456): the device index restarts at 0 on a first pass and the ring is empty; completions that waited follow. -/
def ringEnable (r : Nat) (s : State) : State :=
  let s1 := setF (Reg.HST_RDIDX_DIDX r) 0 (setB (Reg.HST_RCFG_EN r) true s)
  let s2 := { s1 with hst := { s1.hst with hidx := setNth s1.hst.hidx r 0, phase := setNth s1.hst.phase r true, unsig := setNth s1.hst.unsig r (0, 0), dirty := s1.hst.dirty || deviceIndex r s != 0 } }
  if r = 1 then flushCompletions s2.hst.waiting.length s2 else s2

/-- EN of the writeback block rises (R453). -/
def writebackEnable (s : State) : State := setB Reg.HST_WBL_EN true { s with hst := { s.hst with writebacks := 0#32 } }

/-- Two ranges of host memory, by base and length, overlap. -/
def overlap (a n b m : Nat) : Bool := decide (a < b + m) && decide (b < a + n)

/-- The range of host memory that a ring, or as number 11 the writeback block, takes (R449, R453). -/
def hostRange (r : Nat) (s : State) : Nat × Nat :=
  if r = 11 then (getF Reg.HST_WBL_ADDR s * 64 + 2 ^ 32 * (reg s Reg.HST_WBH).toNat, 64) else (ringBase r s, unitBytes r * ringSize r s)

/-- Whether a ring, or the writeback block, is in use. -/
def rangeInUse (r : Nat) (s : State) : Bool := if r = 11 then bit Reg.HST_WBL_EN s else bit (Reg.HST_RCFG_EN r) s

/-- A range overlaps another ring in use or the writeback block in use (R462). -/
def rangeClash (r : Nat) (range : Nat × Nat) (s : State) : Bool :=
  (List.range 12).any (fun k => k != r && rangeInUse k s && overlap range.1 range.2 (hostRange k s).1 (hostRange k s).2)

/-- Whether a ring's set-up is one of R462's host errors: SIZE not a power of two or outside R449, a base that is not aligned, or an overlap. -/
def ringBad (r : Nat) (s : State) : Bool :=
  let n := ringSize r s
  let lo := if r < 3 then 16 else 256
  let hi := if r < 3 then 4096 else 65536
  decide (n < lo) || decide (hi < n) || 2 ^ Nat.log2 n != n || ringBase r s % (if r < 3 then 64 else 4096) != 0 || rangeClash r (hostRange r s) s

/-- The data buffer of a generation 3 descriptor overlaps a ring or the writeback block (R462). -/
def bufferBad (d : List Word) (s : State) : Bool :=
  (descOp d == 1 || descOp d == 2) && !(descOp d == 2 && descInline d) &&
    rangeClash 12 ((nth d 5 0#32).toNat + 2 ^ 32 * (nth d 6 0#32).toNat, 4 * descCount d) s

/-- RING_ENABLE (R456, R460, R462): EN of ring 0 to 10, or of the writeback block (11), rises, which a fence of the host interface prevents; a set-up that R462 lists is a host error (R6). -/
def execRingEnable (r : Fin 12) (s : State) : Out :=
  if coreUp s = false ∨ bit Reg.FLT_FENCE0_HST s = true then .next s
  else if rangeInUse r.val s = false ∧ (if r.val = 11 then rangeClash 11 (hostRange 11 s) s else ringBad r.val s) then .next (upset s)
  else if r.val = 11 then (Done.ok (if bit Reg.HST_WBL_EN s then s else writebackEnable s)).out
  else (Done.ok (if bit (Reg.HST_RCFG_EN r.val) s then s else ringEnable r.val s)).out

/-- Whether a doorbell index is one of R462's host errors: SIZE or more, or a head beyond the device's tail. -/
def doorbellBad (r idx : Nat) (s : State) : Bool :=
  decide (ringSize r s ≤ idx) || (r != 0 && decide (ringGap (ringSize r s) (hostIndex r s) (deviceIndex r s) < ringGap (ringSize r s) (hostIndex r s) idx))

/-- A doorbell of a ring acts: EN and Bus Master Enable are 1 (R441, R461). -/
def doorbellActs (r : Nat) (s : State) : Bool := bit (Reg.HST_RCFG_EN r) s && s.hst.pcie.busMaster

/-- A write of `HST_RDBr` (R441, R449, R461): with EN 0 it has no effect. -/
def doorbell (r idx : Nat) (s : State) : State :=
  if !doorbellActs r s then s
  else
    let s1 := { s with hst := { s.hst with hidx := setNth s.hst.hidx r idx } }
    if r = 1 then flushCompletions s1.hst.waiting.length s1 else s1

/-- DOORBELL_WRITE (R449, R461, R462): an index that R462 lists is a host error (R6). -/
def execDoorbellWrite (r : Fin 11) (idx : Fin 1048576) (s : State) : Out :=
  if coreUp s = false then .next s
  else if doorbellActs r.val s && doorbellBad r.val idx.val s then .next (upset s)
  else (Done.ok (doorbell r.val idx.val s)).out

/-- Whether another descriptor may be fetched (R446, R448, R459): ring 0 runs and is not empty, a completion slot is free for it, fewer than 256
commands are out, and a TAG is free where it needs one. -/
def mayFetch (d : List Word) (s : State) : Bool :=
  let out := s.hst.cmds.length + s.hst.waiting.length
  let tagged := (s.hst.cmds.filter (fun c => !c.begun && descTag c.desc)).length
  gen3Holds s && ringRuns 0 s && !bit Reg.HST_ERR_DMAERR s && deviceIndex 0 s != hostIndex 0 s &&
    bit (Reg.HST_RCFG_EN 1) s && decide (out < ringRoom 1 s) && decide (s.hst.cmds.length < 256) &&
    (!descTag d || decide (tagged < (freeTags s).length))

/-- Descriptors are fetched in ring order as far as R448 allows; a descriptor that R462 lists is a host error (R6). -/
def fetchAll : List (List Word) → State → Out
  | [], s => .next s
  | d :: l, s =>
    if mayFetch d s then
      if descBad false d || bufferBad d s then .next (upset s) else fetchAll l (advanceRing 0 1 (storeCommand d [] s))
    else .next s

/-- DESCRIPTOR_FETCH (R448): `descs` are the next descriptors of host memory, of which the gateway takes up to 8. -/
def execDescriptorFetch (descs : List (List Word)) (s : State) : Out := fetchAll (descs.take 8) s

/-! ## Streams and events -/

/-- The stream ring that `HST_SRMAP` names for a session (R464): whether it is enabled, and its number 0 to 7. -/
def sessionRing (k : Nat) (s : State) : Bool × Nat :=
  let v := getBits (reg s (Reg.HST_SRMAP (k / 8))) (4 * (k % 8)) 4
  (decide (8 ≤ v), v % 8)

/-- A stream entry enters the gateway's buffer (R438, R451, R455). -/
def pushStream (ring : Nat) (e : StreamEntry) (s : State) : State :=
  let r := 3 + ring
  if !isGen2 s && !(bit (Reg.HST_RCFG_EN r) s && s.hst.pcie.busMaster) then incSat (Reg.HST_RLOST_LOST r) s
  else
    let size := if isGen2 s then 2048 else 4096
    let n := nth s.hst.lost r 0
    let loss : List StreamEntry := if n ≠ 0 ∧ isGen2 s then [⟨ring, 3, 0, 0, 0, n, []⟩] else []
    if waitingUnits s + loss.length + streamUnits e ≤ size then
      { s with hst := { s.hst with sbuf := s.hst.sbuf ++ loss ++ [e], lost := if loss = [] then s.hst.lost else setNth s.hst.lost r 0 } }
    else pulse 108 (incSat (Reg.HST_RLOST_LOST r) { s with hst := { s.hst with lost := setNth s.hst.lost r (n + 1) } })

/-- STREAM_FRAME_RECEIVE (R18, R451, R455): a frame for a session whose map entry is disabled is discarded and counted; after the role has
ended it is counted as late. -/
def execStreamFrameReceive (arrival : Fin 4) (f : Frame) (s : State) : Out :=
  if f.type ≠ .stream ∨ coreUp s = false then .next s
  else
    let s1 := takeInbox arrival f s
    if !hasRole s1 then .next (incSat Reg.FAB_LATE_LATE s1)
    else
      let m := sessionRing f.tag s1
      if m.1 then .next (pushStream m.2 ⟨m.2, 1, f.src, f.tag, f.epoch, 0, f.payload⟩ s1) else .next (incSat Reg.HST_CNT_NOMAP s1)

/-- The first entry that waits for a ring, and the buffer without it. -/
def takeStream (ring : Nat) : List StreamEntry → Option (StreamEntry × List StreamEntry)
  | [] => none
  | e :: l => if e.ring = ring then some (e, l) else (takeStream ring l).map (fun p => (p.1, e :: p.2))

/-- STREAM_ENTRY_WRITE (R451, R455): a LOSS entry where frames were lost, then the oldest entry of the ring with the PAD it needs, as far as the
free units hold them. -/
def execStreamEntryWrite (k : Fin 8) (s : State) : Out :=
  let r := 3 + k.val
  if isGen2 s || !ringRuns r s then .next s
  else
    match takeStream k.val s.hst.sbuf with
    | none => .next s
    | some (e, rest) =>
      let n := nth s.hst.lost r 0
      let s1 := if n ≠ 0 ∧ 1 ≤ ringRoom r s then
          ringWrite r 1 (streamBytes ⟨k.val, 3, 0, 0, 0, n, []⟩ 1) { s with hst := { s.hst with lost := setNth s.hst.lost r 0 } } else s
      let u := streamUnits e
      let left := ringSize r s1 - deviceIndex r s1
      let pad := if left < u then left else 0
      if nth s1.hst.lost r 0 = 0 ∧ u + pad ≤ ringRoom r s1 then
        let s2 := if pad = 0 then s1 else ringWrite r pad (streamBytes ⟨k.val, 2, 0, 0, 0, 0, []⟩ pad) s1
        .next (ringWrite r u (streamBytes e u) { s2 with hst := { s2.hst with sbuf := rest } })
      else .next s1

/-- An EVENT or ALARM frame enters the event queue with the time of its receipt (R452). -/
def eventIn (kind : Nat) (arrival : Fin 4) (f : Frame) (s : State) : State :=
  let s1 := takeInbox arrival f s
  pushEvent ⟨f.src, kind, f.epoch, s1.ft, 0, f.payload⟩ s1

/-- EVENT_FRAME_RECEIVE (R452). -/
def execEventFrameReceive (arrival : Fin 4) (f : Frame) (s : State) : Out :=
  if f.type ≠ .event ∨ coreUp s = false then .next s else .next (eventIn 1 arrival f s)

/-- ALARM_RECEIVE (R452). -/
def execAlarmReceive (arrival : Fin 4) (f : Frame) (s : State) : Out :=
  if f.type ≠ .alarm ∨ coreUp s = false then .next s else .next (eventIn 2 arrival f s)

/-- EVENT_ENTRY_WRITE (R452, R455): the oldest queued entry, or with an empty queue a LOSS entry, enters the event ring. -/
def execEventEntryWrite (s : State) : Out :=
  if isGen2 s || !ringRuns 2 s || ringRoom 2 s == 0 then .next s
  else
    match s.hst.evq with
    | e :: rest => .next (ringWrite 2 1 (eventBytes e) (roomEvent { s with hst := { s.hst with evq := rest } }))
    | [] =>
      let n := nth s.hst.lost 2 0
      if n = 0 then .next s
      else .next (ringWrite 2 1 (eventBytes ⟨1023, 3, 0, s.ft, n, []⟩) { s with hst := { s.hst with lost := setNth s.hst.lost 2 0 } })

/-- WRITEBACK (R453): WBINT has passed since the last one and an index has changed. -/
def execWriteback (s : State) : Out :=
  if s.hst.dirty && s.hst.wbAt.all (fun t => decide (t + getF Reg.HST_WBCFG_WBINT s * us ≤ s.now)) then .next (writeback s) else .next s

/-- MODERATION_TIMEOUT (R454): `HST_RMODr` µs have passed since the oldest entry not yet signalled was written. -/
def execModerationTimeout (r : Fin 11) (s : State) : Out :=
  let (n, t) := nth s.hst.unsig r.val (0, 0)
  let modt := getF (Reg.HST_RMOD_MODT r.val) s
  if r.val ≠ 0 ∧ bit (Reg.HST_RCFG_IEN r.val) s ∧ dmaAllowed s ∧ modt ≠ 0 ∧ n ≠ 0 ∧ t + modt * us ≤ s.now then .next (signalRing r.val s)
  else .next s

end Sys2Proof.Machine
end

