-- ==== Sys2Proof/Machine/React.lean ====
section
/-!
DEFINITION. Sys2Proof/Machine/React.lean: the fault collector: counting, classification, reactions, fences, degraded running, the safe state,
alarms, rail errors and injection (spec/14_fault_collection_and_reaction.md R488-R513); the communication-loss expiry (R243, R323).
-/
namespace Sys2Proof.Machine

/-! ## Units and targets (R488) -/

/-- Whether a fence reaction of a source has a unit. -/
def hasUnit (src : Nat) : Bool :=
  (16 ≤ src && src ≤ 41) || src == 43 || src == 44 || src == 63 || src == 66 || src == 67 || src == 70 || src == 72 || src == 73 || src == 75 ||
    src == 78 || src == 79 || src == 80 || src == 82 || src == 83 || src == 84 || src == 86 || (88 ≤ src && src ≤ 99) ||
    src == 104 || src == 105 || src == 110 || src == 120 || src == 121

/-- Whether a degrade reaction of a source has a target: the converter, or the control engine. -/
def degradesCnv (src : Nat) : Bool := (72 ≤ src && src ≤ 83) || (112 ≤ src && src ≤ 115)
def degradesCtl (src : Nat) : Bool := 84 ≤ src && src ≤ 87

/-- The reaction that SVR gives a source, as ALARM reports it (R494, R506): without a unit or a target an interrupt. -/
def takenReaction (src svr : Nat) : Nat :=
  if svr = 2 ∧ hasUnit src = false then 1
  else if svr = 3 ∧ degradesCnv src = false ∧ degradesCtl src = false then 1
  else svr

/-- Some severe source of a list fences. -/
def anyFences (l : List Nat) (s : State) : Bool := l.any (fun k => fencedBy k s)

/-- The phases that fences hold (R290). -/
def fencedPhases (s : State) : Nat :=
  [79, 80, 82].foldl (fun m k => if fencedBy k s then m ||| (assoc k s.flt.phases).getD 0 else m) 0

/-- The ports that fences hold: sources 88 + n, 92 + n and 96 + n. -/
def fencedPorts (s : State) : Nat := ((List.range 4).map (fun n => if anyFences [88 + n, 92 + n, 96 + n] s then 2 ^ n else 0)).sum

/-- The phases that `CNV_PHFLT` names for a source (R290). -/
def namedPhases (src : Nat) (s : State) : Nat :=
  match src with
  | 79 => getF Reg.CNV_PHFLT_IMB s
  | 80 => getF Reg.CNV_PHFLT_SENSE s
  | 82 => getF Reg.CNV_PHFLT_RB s
  | _ => 0

/-- What the fence of a source covers as it stands now: cells blamed, and phases named (R290, R497). -/
def noteFenced (src : Nat) (s : State) : State :=
  match src with
  | 40 => { s with flt := { s.flt with blamedP := reg s Reg.XCK_BLAMEP } }
  | 41 => { s with flt := { s.flt with blamedS := reg s Reg.XCK_BLAMES } }
  | 79 | 80 | 82 => { s with flt := { s.flt with phases := assocPut src ((assoc src s.flt.phases).getD 0 ||| namedPhases src s) s.flt.phases } }
  | _ => s

/-! ## Fences come into force and lift (R497-R500) -/

/-- The impedance engine (R198, R499). -/
def fenceImp (on : Bool) (s : State) : State :=
  let s1 := setB Reg.FLT_FENCE0_IMP on s
  if on && !bit Reg.FLT_FENCE0_IMP s then planAbort 3 s1 else s1

/-- The bleed switches (R176, R244, R499). -/
def fenceBleed (on : Bool) (s : State) : State :=
  let s1 := setB Reg.FLT_FENCE0_BLEED on s
  if on == bit Reg.FLT_FENCE0_BLEED s then s1
  else if on then harnessAbort (enforceSwitches s1) else enforceSwitches s1

/-- The converter's phases (R287). -/
def fencePhases (m : Nat) (s : State) : State :=
  if m = getF Reg.FLT_FENCE0_PHASE s then s else refreshPhases (setF Reg.CNV_STAT_PHFEN m (setF Reg.FLT_FENCE0_PHASE m s))

/-- The converter (R198, R277, R288). -/
def fenceConverter (on : Bool) (s : State) : State :=
  let s1 := setB Reg.FLT_FENCE0_CNV on s
  if on && !bit Reg.FLT_FENCE0_CNV s then immediateStop 0 (planAbort 3 s1) else s1

/-- The control engine (R198, R320): a commanded stop of the converter; on the lift the engine starts in reset. -/
def fenceEngine (on : Bool) (s : State) : State :=
  let s1 := setB Reg.CTL_STAT_FEN on (setB Reg.FLT_FENCE0_CTL on s)
  if on == bit Reg.FLT_FENCE0_CTL s then s1
  else if on then commandedStop (planAbort 3 s1) else resetEngine s1

/-- One port (R365, R366). -/
def fencePort (n : Nat) (on : Bool) (s : State) : State :=
  if on == (port n s).fenced then s
  else
    let s1 := modPort n (fun p => { p with fenced := on }) (setF Reg.FLT_FENCE0_PORT
      (if on then getF Reg.FLT_FENCE0_PORT s ||| 2 ^ n else getF Reg.FLT_FENCE0_PORT s &&& (15 - 2 ^ n)) s)
    if on then closePort n s1 else openPort n s1

/-- The host interface (R460). -/
def fenceInterface (on : Bool) (s : State) : State :=
  let s1 := setB Reg.FLT_FENCE0_HST on s
  if on && !bit Reg.FLT_FENCE0_HST s then clearEnables s1 else s1

/-- The history banks (R500): a change is a layout change at the next 64 Sa/s boundary. -/
def fenceBanks (m : Nat) (s : State) : State :=
  if m = getF Reg.FLT_FENCE0_HBANK s then s
  else { (setF Reg.FLT_FENCE0_HBANK m s) with cms := { s.cms with layoutHeld := true } }

/-- Without shedding (R288, R501): an open shed window ends and the full level returns. -/
def endShedding (s : State) : State :=
  if s.cnv.shed.isSome || getF Reg.CNV_STAT_LEVEL s != 0 then setLevel 0 { s with cnv := { s.cnv with shed := none } } else s

/-- Degraded running (R288, R321, R501): not while the target is fenced. -/
def applyDegrades (s : State) : State :=
  let by3 (p : Nat → Bool) : Bool := s.flt.react.any (fun e => e.2 == 3 && p e.1)
  let s1 := s |> setB Reg.CNV_STAT_DEGR (by3 degradesCnv && !bit Reg.FLT_FENCE0_CNV s)
    |> setB Reg.CTL_STAT_DEGR (by3 degradesCtl && !bit Reg.FLT_FENCE0_CTL s)
  if bit Reg.CNV_STAT_DEGR s1 then endShedding s1 else s1

/-- The engine resets (R322, R502), unless it is fenced: then it holds its outputs (R320). -/
def resetUnfenced (s : State) : State := if bit Reg.CTL_STAT_FEN s then s else resetEngine s

/-- The safe state is entered or left (R502, R503). -/
def applySafe (s : State) : State :=
  let safe := s.flt.react.any (fun e => e.2 == 4)
  let s1 := setB Reg.FLT_STAT_SAFE safe s
  if safe == bit Reg.FLT_STAT_SAFE s then s
  else if safe then driveFaultLevel (harnessAbort (enforceSwitches (resetUnfenced (immediateStop 0 (planAbort 3 s1)))))
  else enforceSwitches s1

/-- A run of calibration or self-test ends with a fence of its unit (R536, R570). -/
def endFencedRuns (s : State) : State :=
  let s1 := if calFenced s then abortCalRun s else s
  match s1.bst.run with
  | some r => if r.cur.any (fun i => itemFenced i s1) then abortSelfTest s1 else s1
  | none => s1

/-- Every reaction in force acts, and those that no longer stand lift (R494-R502). -/
def applyReactions (s : State) : State :=
  let s1 := applyCellFences s
  let s2 := fenceImp (anyFences [66, 67] s1) s1
  let s3 := fenceBleed (anyFences [70] s2) s2
  let s4 := fenceConverter (anyFences [72, 73, 75, 78, 83] s3) s3
  let s5 := fenceEngine (anyFences [84, 86] s4) (fencePhases (fencedPhases s4) s4)
  let s6 := (List.range 4).foldl (fun t n => fencePort n ((fencedPorts s).testBit n) t) s5
  let s7 := fenceInterface (anyFences [104, 105, 110] s6) s6
  let s8 := fenceBanks (b2n (fencedBy 120 s7) + 2 * b2n (fencedBy 121 s7)) s7
  let s9 := applySafe (applyDegrades s8)
  endFencedRuns (showFenced s9)

/-! ## Alarms (R506) -/

/-- Injection of a source is in progress. -/
def injecting (src : Nat) (s : State) : Bool := bit Reg.FLT_INJSTAT_ACTIVE s && getF Reg.FLT_INJSTAT_SRC s == src

/-- An ALARM leaves for every gateway whose home set is VALID, and enters a gateway's own event ring; in legacy link mode and host interface
generation 1 none is sent. -/
def sendAlarm (src kind react : Nat) (injOnly : Bool) (count : Nat) (s : State) : State :=
  if legacyMode s || s.hst.spi == 1 then s
  else
    let flags := react + 8 * b2n (injecting src s) + 16 * b2n injOnly
    let p := [BitVec.ofNat 32 (src + 2 ^ 8 * kind + 2 ^ 16 * flags + 2 ^ 24 * count), BitVec.ofNat 32 (getF Reg.FLT_ALCNT_ASEQ s),
              BitVec.ofNat 32 s.ft, BitVec.ofNat 32 (s.ft / 2 ^ 32)]
    let s1 := setF Reg.FLT_ALCNT_ASEQ (getF Reg.FLT_ALCNT_ASEQ s + 1) s
    let homes := (List.range 2).filter (fun k => bit (Reg.FAB_HOME_HCTL_VALID k) s)
    let drop := incSat Reg.FLT_ALCNT_DROP
    let s2 := homes.foldl (fun t k => sendHome k .alarm .a 0 p drop t) s1
    if hasRole s2 then pushEvent ⟨1023, 2, ownEpoch s2, s2.ft, 0, p⟩ s2
    else if homes = [] then drop s2
    else s2

/-- An ALARM of kind EVENT: at most one for each source in a millisecond. -/
def eventAlarm (src : Nat) (injOnly : Bool) (count : Nat) (s : State) : State :=
  match assoc src s.flt.alarmed with
  | some t => if s.now < t + ms then s
      else sendAlarm src 1 0 injOnly count { s with flt := { s.flt with alarmed := assocPut src s.now s.flt.alarmed } }
  | none => sendAlarm src 1 0 injOnly count { s with flt := { s.flt with alarmed := assocPut src s.now s.flt.alarmed } }

/-! ## Counting and classification (R492-R494) -/

/-- The collector runs (chapter opening): in STANDBY and ACTIVE. -/
def collectorRuns (s : State) : Bool :=
  match s.sys.phase with
  | .standby | .resume | .active => true
  | _ => false

/-- The bit of a source in a source array. -/
def srcBit (a : Nat → Nat) (src : Nat) (s : State) : Bool := regBit (a (src / 32)) (src % 32) s

/-- A state with the bit of a source set to a truth value. -/
def setSrc (a : Nat → Nat) (src : Nat) (b : Bool) (s : State) : State := setRegBit (a (src / 32)) (src % 32) b s

/-- `FLT_ACT` shows the accepted state of a source (R490, R491). -/
def showActive (src : Nat) (s : State) : State :=
  setSrc Reg.FLT_ACT src (natMem src s.flt.lines || natMem src s.flt.railErr) s

/-- The window of WIN in cycles of 20 ns (R493, R513). -/
def windowCycles (win : Nat) : Nat := 50000 * nth [1, 2, 5, 10, 20, 50, 100, 200, 500, 1000, 2000, 5000, 10000, 20000, 40000, 64000] win 1

/-- MOSC time in cycles of 20 ns. -/
def moscTime (s : State) : Nat := s.now / 20

/-- The events counted and the window start after one more event (R493). -/
def nextCount (src : Nat) (s : State) : Nat × Nat :=
  let (c, w) := (assoc src s.flt.counts).getD (0, 0)
  if c = 0 ∨ windowCycles (getF (Reg.FLT_CFG_WIN src) s) ≤ moscTime s - w then (1, moscTime s) else (min (c + 1) 15, w)

/-- The events counted in the present window (R506): none once the window has passed (R493). -/
def presentCount (src : Nat) (s : State) : Nat :=
  let (c, w) := (assoc src s.flt.counts).getD (0, 0)
  if windowCycles (getF (Reg.FLT_CFG_WIN src) s) ≤ moscTime s - w then 0 else c

/-- SEVERE (R494): the reaction that SVR selects is taken, a rein where one belongs to it, and the ALARM of kind SEVERE leaves. -/
def becomeSevere (src count : Nat) (s : State) : State :=
  let svr := takenReaction src (getF (Reg.FLT_CFG_SVR src) s)
  let s1 := setSrc Reg.FLT_SEV src true { s with flt := { s.flt with react := assocPut src svr s.flt.react } }
  let s2 := applyReactions (if svr = 2 then noteFenced src s1 else s1)
  let s3 := if bit (Reg.FLT_CFG_REIN src) s || svr == 4 then issueRein s.ft 4 (bit Reg.TBS_CFG_FLTBC s2) s2 else s2
  if svr = 0 then s3 else sendAlarm src 2 svr false count s3

/-- One event of a source is counted (R492, R493). -/
def countEvent (src : Nat) (s : State) : State :=
  if bit (Reg.FLT_CFG_EN src) s then
    let (c, w) := nextCount src s
    let s1 := setF Reg.FLT_STAT_LAST src (setSrc Reg.FLT_STK src true
      { s with flt := { s.flt with counts := assocPut src (c, w) s.flt.counts } })
    if srcBit Reg.FLT_SEV src s then if fencedBy src s && natMem src [79, 80, 82] then applyReactions (noteFenced src s1) else s1
    else if getF (Reg.FLT_CFG_N src) s ≤ c then becomeSevere src c s1
    else if bit (Reg.FLT_CFG_EVI src) s then eventAlarm src false c s1
    else s1
  else s

/-- Sources 51 to 62 are not used and never active (R488). -/
def unusedSource (src : Nat) : Bool := 51 ≤ src && src ≤ 62

/-- An event of a source is accepted: real, and during an injection of the source seen on the complement rail (R508). -/
def acceptEvent (src : Nat) (s : State) : State :=
  countEvent src (showActive src (if injecting src s then setB Reg.FLT_INJSTAT_REAL true s else s))

/-- A parity error in the route table, which source 103 reports (R419): the failing entry reads NOROUTE until an enumeration writes it again. -/
def failParity (src : Nat) (entry : Option (Fin 1023)) (s : State) : State :=
  match entry with
  | some id => if src = 103 ∧ hasRole s then setEntry id.val { entryOf id.val s with state := 2 } s else s
  | none => s

/-- SOURCE_EVENT (R490, R492, R493): the collector accepts an event of a source. The event that a block has reported and that waits is taken. -/
def execSourceEvent (src : Fin 128) (entry : Option (Fin 1023)) (s : State) : Out :=
  if collectorRuns s = false ∨ unusedSource src.val ∨ muted src.val s then .next s
  else .next (acceptEvent src.val { (failParity src.val entry s) with flt := { s.flt with waiting := s.flt.waiting.erase src.val } })

/-- At the collector's first sample each flag bit held in the always-on domain is one event of source 68 or 69 (R492). -/
def collectorStart (s : State) : State :=
  let flags (isOv : Bool) (t : State) : State :=
    if reg t (flagReg isOv) = 0#32 then t
    else (List.range (popCount (reg t (flagReg isOv)))).foldl (fun u _ => pulse (tripSource isOv) u) (setLine (tripSource isOv) true t)
  flags false (flags true s)

/-! ## Rail errors (R491) -/

/-- RAIL_ERROR (R491): suspended for a source under injection (R507). A source that R489 never raises counts no event, nor does source 127 while it is
active (R492). -/
def execRailError (src : Fin 128) (s : State) : Out :=
  if collectorRuns s = false ∨ injecting src.val s ∨ natMem src.val s.flt.railErr then .next s
  else
    let s1 := setSrc Reg.FLT_RAIL src.val true { s with flt := { s.flt with railErr := natPut src.val s.flt.railErr } }
    let s2 := if muted src.val s then s1 else countEvent src.val (showActive src.val s1)
    let s3 := if src.val = 127 then s2 else if natMem 127 s.flt.railErr then setLine 127 true s2 else raise 127 s2
    .next (sendAlarm src.val 3 0 false (presentCount src.val s3) s3)

/-- RAIL_ERROR_END (R491): the pair has shown a valid code for 1 ms. -/
def execRailErrorEnd (src : Fin 128) (s : State) : Out :=
  if natMem src.val s.flt.railErr then
    let s1 := showActive src.val { s with flt := { s.flt with railErr := natErase src.val s.flt.railErr } }
    .next (if s1.flt.railErr.any (fun k => k != 127) then s1 else drop 127 s1)
  else .next s

/-- HISTORY_PARITY_ERROR (R488): bank k of the history SRAM. -/
def execHistoryParityError (k : Fin 2) (s : State) : Out := if coreUp s then .next (pulse (120 + k.val) s) else .next s

/-! ## Clears (R503, R504) -/

/-- Whether the bits of a source may be cleared. -/
def clearable (src : Nat) (s : State) : Bool := !srcBit Reg.FLT_ACT src s && !srcBit Reg.FLT_RAIL src s

/-- The bit of a source in `FLT_STK` or `FLT_SEV` clears where it may, and its count with it. -/
def clearSource (a : Nat → Nat) (src : Nat) (s : State) : State :=
  if srcBit a src s && clearable src s then
    setSrc a src false { s with flt := { s.flt with counts := assocErase src s.flt.counts } }
  else s

/-- The reactions of sources that no longer stand severe lift. -/
def dropReactions (s : State) : State :=
  applyReactions { s with flt := { s.flt with
    react := s.flt.react.filter (fun e => srcBit Reg.FLT_SEV e.1 s)
    phases := s.flt.phases.filter (fun e => srcBit Reg.FLT_SEV e.1 s) } }

/-- The sources 32j to 32j + 31 whose bit a word names. -/
def sourcesOf (j : Nat) (bits : Word) : List Nat := ((List.range 32).filter (fun k => bits.getLsbD k)).map (· + 32 * j)

/-- A W1C write of `FLT_SEVj`. -/
def clearSevere (j : Nat) (bits : Word) (s : State) : State :=
  dropReactions ((sourcesOf j bits).foldl (fun t k => clearSource Reg.FLT_SEV k t) s)

/-- A W1C write of `FLT_STKj`. -/
def clearSticky (j : Nat) (bits : Word) (s : State) : State := (sourcesOf j bits).foldl (fun t k => clearSource Reg.FLT_STK k t) s

/-- A clear in whose clock cycle hardware sets bits of the register (R3): those are not cleared, and stand set. -/
def clearBeside (clear : Word → State → State) (a : Nat) (bits sets : Word) (s : State) : State :=
  let t := clear (bits &&& ~~~sets) s
  setReg a (reg t a ||| sets) t

/-- A W1C write of `FLT_RAILj` (R512): a bit clears only once its rail error has ended. -/
def clearRail (j : Nat) (bits : Word) (s : State) : State :=
  (sourcesOf j bits).foldl (fun t k => if natMem k t.flt.railErr then t else setSrc Reg.FLT_RAIL k false t) s

/-- SEVERE_CLEAR (R3, R503). -/
def execSevereClear (j : Fin 4) (bits sets : Word) (s : State) : Out :=
  if coreUp s then (Done.ok (clearBeside (clearSevere j.val) (Reg.FLT_SEV j.val) bits sets s)).out else .next s

/-- STICKY_CLEAR (R3, R503). -/
def execStickyClear (j : Fin 4) (bits sets : Word) (s : State) : Out :=
  if coreUp s then (Done.ok (clearBeside (clearSticky j.val) (Reg.FLT_STK j.val) bits sets s)).out else .next s

/-- A write of `FLT_CMD` with KEY 0xC3 and CLRALL 1 (R504). -/
def clearAll (s : State) : State :=
  (List.range 4).foldl (fun t j => clearSevere j 0xFFFFFFFF#32 (clearSticky j 0xFFFFFFFF#32 t)) s

/-- CLRALL (R504). -/
def execClrall (s : State) : Out := if coreUp s then (Done.ok (clearAll s)).out else .next s

/-! ## Configuration (R496, R510, R513) -/

/-- A write of `FLT_CFGs`: refused while the fault configuration group is locked; else the source's count becomes 0. -/
def writeFltCfg (src : Nat) (w : Word) (s : State) : State :=
  if bit Reg.SYS_LOCKSTAT_LFLT s then countViolation (Reg.FLT_CFG src) s
  else setReg (Reg.FLT_CFG src) w { s with flt := { s.flt with counts := assocErase src s.flt.counts } }

/-- FLT_CFG_WRITE (R496, R510): a reserved SVR, or N 0, is a host error (R6). -/
def execFltCfgWrite (src : Fin 128) (w : Word) (s : State) : Out :=
  if coreUp s = false then .next s
  else if bit Reg.SYS_LOCKSTAT_LFLT s then (Done.ok (writeFltCfg src.val w s)).out
  else if w &&& 0xFFFF000C#32 ≠ 0#32 then .fault (.reservedWrite (Reg.FLT_CFG src.val))
  else if 4 < getBits w 12 3 ∨ getBits w 4 4 = 0 then .next (upset s)
  else (Done.ok (writeFltCfg src.val w s)).out

/-! ## Injection (R507, R508) -/

/-- What an injection does at its start: a source whose complement rail is inactive shows an injected event. -/
def injectEvent (src : Nat) (full : Bool) (s : State) : State :=
  if natMem src s.flt.lines then setB Reg.FLT_INJSTAT_REAL true s
  else if full then countEvent src s
  else eventAlarm src true (presentCount src s) (setF Reg.FLT_STAT_LAST src (setSrc Reg.FLT_STK src true s))

/-- A write of 1 to `FLT_INJCTL.GO` (R507). -/
def injectionGo (src dur : Nat) (full : Bool) (s : State) : Done :=
  if full && lifecycle s == 2 && getF (Reg.FLT_CFG_SVR src) s == 4 then Done.refuse .lifecycleDenied s
  else if bit Reg.FLT_INJSTAT_ACTIVE s then Done.busy (s.flt.injEnd - s.now) s
  else
    let s1 := s |> setB Reg.FLT_INJCTL_MODE full |> setF Reg.FLT_INJCTL_SRC src |> setF Reg.FLT_INJCTL_DUR dur
      |> setB Reg.FLT_INJSTAT_ACTIVE true |> setF Reg.FLT_INJSTAT_SRC src |> incSat Reg.FLT_INJSTAT_INJCNT
    Done.ok (injectEvent src full { s1 with flt := { s1.flt with injEnd := s.now + dur * 100000 } })

/-- INJECTION_GO (R507, R510): DUR 0, and a source whose EN is 0, are host errors unless the write is refused (R6). -/
def execInjectionGo (src : Fin 128) (dur : Fin 256) (full : Bool) (s : State) : Out :=
  if coreUp s = false then .next s
  else
    let d := injectionGo src.val dur.val full s
    if (dur.val = 0 ∨ bit (Reg.FLT_CFG_EN src.val) s = false) ∧ d.status = .ok then .next (upset s) else d.out

/-- INJECTION_END (R507, R508): DUR has passed and the true rail returns to the detector; a real fault that stands goes on without a new event. -/
def execInjectionEnd (s : State) : Out :=
  if bit Reg.FLT_INJSTAT_ACTIVE s && decide (s.flt.injEnd ≤ s.now) then .next (setB Reg.FLT_INJSTAT_ACTIVE false s) else .next s

/-! ## The communication-loss timer, and a plan's start -/

/-- The communication-loss timer has run out (R242). -/
def timerOver (s : State) : Bool := decide (s.cpb.clStart + (getF Reg.CPB_CLTCFG_PERIOD s + 1) * 10 * ms ≤ s.now)

/-- COMMUNICATION_LOSS_EXPIRY (R242, R243, R323, R429): the switches open, `CPB_BALCMD` clears, the expiry is recorded, a plan and a harness
measurement end, and with CLZERO outside bus regulation the target becomes 0. -/
def execCommunicationLossExpiry (s : State) : Out :=
  if s.sys.phase = .active ∧ timerOver s then
    let s1 := s |> setReg Reg.CPB_BALCMD 0#32 |> setB Reg.CPB_CLTSTAT_CLOST true |> incSat Reg.CPB_CLTSTAT_CNT
    let s2 := enforceSwitches { s1 with cpb := { s1.cpb with balCmd := 0#32 } }
    let s3 := harnessAbort (planAbort 9 (restartTimer (setEvt .cpb 2 (latchG1 none 6 s2))))
    .next (if bit Reg.CTL_CFG_CLZERO s3 && !busRegulation s3 then setEvt .ctl 8 (setB Reg.CTL_STAT_TGTCLP false (setF Reg.CTL_TGT_TGT 0 s3)) else s3)
  else .next s

/-- IMP_START (R195, R570): a test of the phase generators ends first. -/
def execImpStart (s : State) : Out := if coreUp s then (startPlan (abortItem 19 s)).out else .next s

end Sys2Proof.Machine
end

