-- ==== Sys2Proof/Machine/Power.lean ====
section
/-!
DEFINITION. Sys2Proof/Machine/Power.lean: power-state commands and transitions, start-up, the controller's restarts, RSTN and PERSTN
(spec/03_power_states_clocks_reset.md R60-R76, R616, R617; spec/02_pins_and_package.md R45-R48; spec/16_calibration_nvm_crc.md R539-R545).
-/
namespace Sys2Proof.Machine

/-! ## Power-state commands -/

/-- The longest time that a transition into a low-power state can still take, ns: what is left of the converter's ramp (R63, R276) and the maximum of
R62 from there on. From STANDBY R62 gives no time. -/
def transitionLeft (t : Transition) (s : State) : Option Nat :=
  if s.sys.phase = .standby then none
  else
    let stop := softTime s + 100 * us
    let ramp := if cnvState s = 6 then s.cnv.stopT + stop - s.now else if switching s then stop else 0
    some (ramp + if t.target = .standby then 200 * us else ms)

/-- REFUSED_BUSY with the time left in the transition as retry-after (R616): a free value within the bound of `transitionLeft` (DESIGN CHOICE
notes/assumptions/32.md). -/
def busyInTransition (t : Transition) (s : State) : Done :=
  match transitionLeft t s with
  | some m => Done.busy ((freeWord s).toNat % (m + 1)) (useFree s)
  | none => Done.busyFree s

/-- A write of `SYS_PWRCMD` with KEY 0x5A and a target other than ACTIVE (R23, R63, R64, R68, R616): the controller serves it; refused with
REFUSED_BUSY during a transition; from STANDBY the transition goes on to its last step; a gateway records the target. -/
def powerDown (t : LowState) (s : State) : Done :=
  withController s <|
  match s.sys.transition with
  | some u => busyInTransition u s
  | none =>
  if s.sys.phase = .standby then
    if t = .standby then Done.ok s
    else if t = .sentinel ∧ s.sys.sclkFailed then Done.ok (setB Reg.SYS_PWRSTAT_ABORT true s)
    else Done.ok { s with sys := { s.sys with transition := some ⟨t, false⟩ } }
  else if hasRole s then Done.ok (setF Reg.SYS_PWRSTAT_PENDTGT t.code (setB Reg.SYS_PWRSTAT_PEND true s))
  else Done.ok (beginTransition t s)

/-- A write of `SYS_PWRCMD` with KEY 0x5A and TARGET ACTIVE (R23, R60, R64, R65, R616). -/
def powerUp (s : State) : Done := withController s <| Done.ok (wakeBy 7 (setB Reg.SYS_PWRSTAT_PEND false s))

/-- PWRCMD_SHELF (R63, R64, R616). -/
def execPwrcmdShelf (s : State) : Out := if coreUp s then (powerDown .shelf s).out else .next s

/-- PWRCMD_SENTINEL (R63, R64, R68, R616). -/
def execPwrcmdSentinel (s : State) : Out := if coreUp s then (powerDown .sentinel s).out else .next s

/-- PWRCMD_STANDBY (R63, R64, R616). -/
def execPwrcmdStandby (s : State) : Out := if coreUp s then (powerDown .standby s).out else .next s

/-- PWRCMD_ACTIVE (R616). -/
def execPwrcmdActive (s : State) : Out := if coreUp s then (powerUp s).out else .next s

/-- POWER_TRANSITION_START (R63, R176, R406, R616): the completion has left; service stops, and before a state without ports LEAVE is sent. From STANDBY
only that is left to do. -/
def execPowerTransitionStart (s : State) : Out :=
  match s.sys.phase, s.sys.transition with
  | .standby, some t =>
    if t.stopping then .next s else .next (sendLeave { s with sys := { s.sys with transition := some { t with stopping := true } } })
  | .active, some t =>
    if t.stopping then .next s
    else
      let s1 := stopService { s with sys := { s.sys with transition := some { t with stopping := true } } }
      .next (harnessAbort (if t.target = .standby then s1 else sendLeave s1))
  | _, _ => .next s

/-- STANDBY begins (R48, R60, R69, R70, R146, R229, R282): the paths stop and no secondary result holds a measurement, PCI Express and its PLL go down, a crowbar ends, the fault pair goes to the
fault level, and the core runs from MOSC; the link PLL runs while a port needs it. A link wake that led to this ACTIVE is over. -/
def enterStandby (s : State) : State :=
  let s1 := invalidateAll (stopPaths (pcieDown (endRole s)))
  let s2 := if cnvState s1 = 7 then setF Reg.CNV_STAT_STATE 0 (quiet s1) else quiet s1
  let s3 := { s2 with sys := { s2.sys with phase := .standby, transition := none, wakePort := none } }
  driveFaultLevel (s3 |> setF Reg.SYS_PWRSTAT_STATE 2 |> setB Reg.SYS_CLKSTAT_CPLLLK false |> setB Reg.SYS_CLKSTAT_LPLLLK (linkClock s3))

/-- SHELF or SENTINEL begins (R48, R60, R72, R76, R343): what the always-on domain does not keep is lost, and the ports are OFF. The mark of R20 goes on in
SENTINEL (R61, R225). With WAKE high, only its fall and a new edge wake. -/
def enterUnpowered (ph : Phase) (s : State) : State :=
  let r := portsOff (keepOutside s { State.reset with regs := keepAon s.regs, sys := sysAfterReset ph s.sys, pins := Pins.unpowered })
  { r with
    sys := { r.sys with wakeArmed := !s.sys.wakeHigh, nextOv := 0#32, nextUv := 0#32 }
    cms := { r.cms with unused := s.cms.unused } }

/-- POWER_STATE_ENTRY (R63): the stop steps have ended and the converter does not switch. -/
def execPowerStateEntry (s : State) : Out :=
  match s.sys.transition with
  | some t =>
    if !t.stopping || switching s then .next s
    else
      match t.target with
      | .standby => .next (enterStandby s)
      | .sentinel => .next (enterUnpowered .sentinel s)
      | .shelf => .next (enterUnpowered .shelf s)
  | none => .next s

/-- LINK_WAKE_TRAIN_TIMEOUT (R69): the waking port has not trained within 500 ms of ACTIVE entry. -/
def execLinkWakeTrainTimeout (s : State) : Out :=
  match s.sys.phase, s.sys.wakePort with
  | .active, some p =>
    if s.now < s.sys.activeAt + 500 * ms then .next s
    else
      let s1 := countFalseWake p s
      .next (beginTransition .sentinel { s1 with sys := { s1.sys with wakePort := none } })
  | _, _ => .next s

/-! ## Start-up -/

/-- LCM_SAMPLE (R46, R90, R371): with LCM sampled high the device is in legacy mode, which `LNK_STAT` shows. -/
def sampleLcm (s : State) : State :=
  s |> setB Reg.SYS_STRAPSTAT_LCM s.sys.lcmPin |> setB Reg.SYS_STRAPSTAT_LCMNOW s.sys.lcmPin |> setB Reg.LNK_STAT_LEGACY s.sys.lcmPin

/-- EPOCH_INCREMENT at the release of the core reset (R73): 1 for every device reset other than the POR, whose own release is the first. -/
def raiseEpoch (s : State) : State :=
  if s.sys.porReleased then setF Reg.SYS_EPOCH_EPOCH ((getF Reg.SYS_EPOCH_EPOCH s + 1) % 256) s
  else { s with sys := { s.sys with porReleased := true } }

/-- CORE_RESET_RELEASE (R45, R46, R72-R74, R524, R553, R574, R617): the rails are in window. With RSTN low the core stays in reset. `romOk`: the
controller's ROM passes its check. -/
def execCoreResetRelease (romOk : Bool) (s : State) : Out :=
  if s.sys.phase ≠ .rails then .next s
  else if s.sys.rstnLow then .next (setB Reg.SYS_RSTCAUSE_RSTN true { s with sys := { s.sys with phase := .rstHeld } })
  else
    let s1 := raiseEpoch (sampleLcm { s with
      sys := { s.sys with phase := .core, perstSeenHigh := !s.sys.perstLow }
      thm := { s.thm with restarted := false } })
    let s2 := checkController romOk (reportFuses (reportLinkWake (reportSupply (setB Reg.SYS_PINSTAT_WAKELVL s.sys.wakeHigh s1))))
    .next (if s.thm.restarted then pulse 118 s2 else s2)

/-- A customer copy that is neither valid nor erased (R540). -/
def copyBroken (b : Bool) (s : State) : Bool := !copyValid b s && !nvmErased (copyBase b) 1024 s

/-- The GEN registers show the valid copies (R548). -/
def reportGen (b : Bool) (s : State) : State := if copyValid b s then setReg (genReg b) (nvmWord (copyBase b + 4) s) s else s

/-- The choice of a customer copy, and what R540 reports of the others (steps 2 to 5). -/
def chooseCopy (s : State) : State :=
  let va := copyValid false s
  let vb := copyValid true s
  let ga := (nvmWord (copyBase false + 4) s).toNat
  let gb := (nvmWord (copyBase true + 4) s).toNat
  let s1 := reportGen true (reportGen false s)
  let s2 := if vb && copyBroken false s then pulse 122 (setB Reg.CAL_STAT_ABAD true s1) else s1
  let s3 := if va && copyBroken true s then pulse 122 (setB Reg.CAL_STAT_BBAD true s2) else s2
  if va && (!vb || gb ≤ ga) then applyCopy false s3
  else if vb then applyCopy true s3
  else if lifecycle s == 2 || copyBroken false s || copyBroken true s then pulse 123 s3
  else s3

/-- NVM_CHECK_DONE (R73, R74, R526, R539, R540, R597): the controller has checked the NVM; `trimOk`: the vendor trim passes its CRC. After a
POR the new epoch, to which the resets since have added theirs (DEDUCED notes/assumptions/69.md), is due for storage. A controller whose ROM has
failed stays stopped and checks nothing (R574). -/
def execNvmCheckDone (trimOk : Bool) (s : State) : Out :=
  if s.sys.phase ≠ .core ∨ s.sys.nvmChecked ∨ bit Reg.BST_CTLSTAT_ROMBAD s then .next s
  else
    let s1 := { s with sys := { s.sys with nvmChecked := true } }
    let s2 := setReg Reg.FAB_UID1 (Config.uidHigh trimOk) (setReg Reg.FAB_UID0 (Config.uidLow trimOk) s1)
    let s3 := if trimOk then chooseCopy s2 else pulse 123 (setB Reg.CAL_STAT_TRIMBAD true s2)
    let s4 := logResume (setB Reg.CAL_STAT_SYSBAD (recordSlot s3).isNone s3)
    if s.sys.porStart then
      let e := (recordEpoch s4 + 1 + getF Reg.SYS_EPOCH_EPOCH s4) % 256
      .next { (setF Reg.SYS_EPOCH_EPOCH e s4) with cal := { s4.cal with epochPend := some e }, sys := { s4.sys with porStart := false } }
    else .next s4

/-- One pair of a profile (R542, R597): `SYS_LOCK` acts as a write of the controller's; any other pair writes the replaceable fields of its
register. -/
def applyPair (a : Nat) (v : Word) (s : State) : State :=
  if a = Reg.SYS_LOCK then lockWrite .hk (getBits v 8 8) (v.getLsbD 1) (v.getLsbD 0) s
  else
    let m := profileMask a
    let w := (reg s a &&& ~~~m) ||| (v &&& m)
    if m = 0#32 then s
    else if Reg.FLT_CFG 0 ≤ a then
      if a ≤ Reg.FLT_CFG 127 then writeFltCfg ((a - Reg.FLT_CFG 0) / 4) w s else setReg a w s
    else if a = Reg.CPB_CLTCFG then writeTimerPeriod (getBits w 0 10) s
    else if a = Reg.CPB_FPCFG then driveFaultLevel (setReg a w s)
    else if a = Reg.CPB_CELLEN ∨ a = Reg.CPB_CFG then enforceSwitches (dropComparators (setReg a w s))
    else if a = Reg.CNV_VSELSW then writeVselsw (getBits w 0 2) s
    else if a = Reg.TBS_CFG then refreshRoot (setReg a w s)
    else storeCnv a w s

/-- The bytes of profile k (R537, R542). -/
def profileOffset (k : Nat) : Nat := 0x1000 + 0x800 * k

/-- A profile passes its check: MAGIC, 1 to 254 pairs, and the CRC over slots 0 to 254. -/
def profileGood (k : Nat) (s : State) : Bool :=
  let bs := nvmBytes (profileOffset k) 2048 s
  let n := bytesNat ((bs.drop 4).take 4)
  bytesNat (bs.take 4) == 0x50465250 && 1 ≤ n && n ≤ 254 && bytesNat ((bs.drop 2040).take 4) == (crc32c (bs.take 2040)).toNat

/-- The selected profile is applied, pair by pair in slot order, or reported bad (R542). -/
def applyProfile (k : Nat) (s : State) : State :=
  if profileGood k s then
    let n := (nvmWord (profileOffset k + 4) s).toNat
    setF Reg.CAL_STAT_PROF k ((List.range n).foldl (fun t i =>
      applyPair (nvmWord (profileOffset k + 8 * (i + 1)) s).toNat (nvmWord (profileOffset k + 8 * (i + 1) + 4) s) t) s)
  else setB Reg.CAL_STAT_PROFBAD true s

/-- The stored bus targets stand in `CNV_VTGT` (R297, R597). -/
def loadTargets (s : State) : State := (List.range 4).foldl (fun t k => setF (Reg.CNV_VTGT_VT k) (recordTarget k s) t) s

/-- The addresses of a profile's pairs (R542). -/
def profileTouches (k : Nat) (s : State) : List Nat :=
  (List.range (nvmWord (profileOffset k + 4) s).toNat).map (fun i => (nvmWord (profileOffset k + 8 * (i + 1)) s).toNat)

/-- A profile that replaces entries of the gain table, or NENT, brings them into use after its last pair (R314). -/
def profileTable (k : Nat) (s : State) : Bool :=
  (profileTouches k s).any (fun a => a == Reg.CTL_LUTCFG || (Reg.CTL_LUT 0 ≤ a && a ≤ Reg.CTL_LUT 63))

/-- PROFILE_APPLY (R74, 5.5 ms row; R297, R314, R542, R597): the PLLs have locked and the NVM is checked. -/
def execProfileApply (s : State) : Out :=
  if s.sys.phase = .core ∧ s.sys.nvmChecked ∧ s.sys.cpll ∧ s.sys.tpll ∧ s.sys.profileApplied = false then
    let s1 := loadTargets { s with sys := { s.sys with profileApplied := true } }
    let k := recordSelect s1
    .next (if k < 4 then (if profileGood k s1 && profileTable k s1 then copyTable (applyProfile k s1) else applyProfile k s1) else s1)
  else .next s

/-- The disable of link wake ends when ACTIVE is reached by another wake source or by reset (R69). -/
def liftLinkWake (s : State) : State :=
  reportLinkWake { s with sys := { s.sys with
    lwdis0 := s.sys.lwdis0 && s.sys.wakePort == some 0
    lwdis1 := s.sys.lwdis1 && s.sys.wakePort == some 1 } }

/-- The ports leave reset (R343, R349, R368): in legacy mode P0 and P1 run the forerunner's signalling; else each enabled port is DOWN, and one
with WAKETX sends the wake pattern. -/
def startPorts (s : State) : State :=
  (List.range 4).foldl (fun t n => sendWake n (restPort n t)) s

/-- The ports of a device that leaves STANDBY (R347, R349). -/
def resumePorts (s : State) : State :=
  (List.range 4).foldl (fun t n => if portState n t = portLpi then beginTraining n true t else sendWake n t) s

/-- What every entry to ACTIVE does (R20, R74, R102, R150, R242): the modulators and the secondary side start, and the timer restarts. R70 has the
modulators start when TPLL first locks, R74 and R102 at entry to ACTIVE: they start here (DESIGN CHOICE notes/assumptions/73.md). -/
def enterActive (s : State) : State :=
  let s1 := startSecondary { s with sys := { s.sys with phase := .active, activeAt := s.now } }
  let s2 := liftLinkWake (s1 |> setF Reg.SYS_PWRSTAT_STATE 3 |> setB Reg.SYS_CLKSTAT_CPLLLK true |> setB Reg.SYS_CLKSTAT_LPLLLK true)
  restartTimer (startPaths s2)

/-- The controller has done its part of start-up (R73, R74): the profile is applied and no epoch waits to be stored; a controller whose ROM has failed
does neither (R574). -/
def controllerReady (s : State) : Bool :=
  bit Reg.BST_CTLSTAT_ROMBAD s || (s.sys.profileApplied && (pendingEpoch s).isNone)

/-- ACTIVE_ENTRY (R62, R73, R74, R492): after start-up, or from STANDBY. -/
def execActiveEntry (s : State) : Out :=
  let role (t : State) : State := refreshRoot (if bit Reg.HST_STAT_L0 t then takeRole 3 t else t)
  match s.sys.phase with
  | .core =>
    if s.sys.cpll && s.sys.tpll && controllerReady s then
      .next (role (collectorStart (startPorts (enterActive s))))
    else .next s
  | .resume => .next (role (resumePorts (enterActive s)))
  | _ => .next s

/-! ## Resets and restarts -/

/-- DEVICE_RESET_COMMAND (R72, R85). -/
def execDeviceResetCommand (s : State) : Out :=
  if coreUp s then (Done.ok (deviceReset Reg.SYS_RSTCAUSE_SOFT .rails s)).out else .next s

/-- The housekeeping controller restarts (R22, R23, R399, R536, R570): its own runs end; the hardware runs on. -/
def restartController (s : State) : State :=
  abortSelfTest (abortCalRun (abandonRun { s with sys := { s.sys with ctlBusy := true } }))

/-- CONTROLLER_RESTART (R72, R85). -/
def execControllerRestart (s : State) : Out :=
  if coreUp s then (Done.ok (restartController (setB Reg.SYS_RSTCAUSE_CTLRST true s))).out else .next s

/-- CONTROLLER_WATCHDOG_EXPIRY (R59, R72). -/
def execControllerWatchdogExpiry (s : State) : Out :=
  if coreUp s then .next (pulse 11 (restartController (setB Reg.SYS_RSTCAUSE_WDOG true s))) else .next s

/-- CONTROLLER_RESTART_DONE (R23, R545, R574): the checks have run and the controller serves commands; a patch load completes. -/
def execControllerRestartDone (romOk : Bool) (s : State) : Out :=
  if s.sys.ctlBusy && coreUp s then
    let s1 := checkController romOk { s with sys := { s.sys with ctlBusy := false } }
    match s1.cal.patch with
    | some tk =>
      let st := if bit Reg.BST_CTLSTAT_ROMBAD s1 then Status.refusedFenced else if bit Reg.BST_CTLSTAT_PATCHBAD s1 then .checkFail else .ok
      .next (nextJob (complete tk st [] 0 { s1 with cal := { s1.cal with patch := none } }))
    | none => .next (nextJob s1)
  else .next s

/-- `CAL_CMD` PATCH (R543, R545, R573): the area closes and the controller restarts from it. -/
def patchCommand (tk : Ticket) (s : State) : Done :=
  if !unsealed s then Done.refuse .lifecycleDenied s
  else withController s <|
    if s.bst.run.isSome then testBusy s
    else if calOccupied s then Done.busyFree s
    else
      let s1 := restartController (setB Reg.CAL_STAT_PATCHWE false s)
      Done.later { s1 with cal := { s1.cal with patch := some tk } }

/-- PATCH (R545). -/
def execPatch (tk : Ticket) (s : State) : Out := if coreUp s then (patchCommand tk s).via tk else .next s

/-- RSTN_ASSERT (R72, R75, R617): RSTN has been low for 10 µs. It acts while AVDD is in its window; during a thermal shutdown it has no effect
and sets no cause bit. -/
def execRstnAssert (s : State) : Out :=
  let s1 := { s with sys := { s.sys with rstnLow := true } }
  match s.sys.phase with
  | .standby | .resume | .active | .core => .next (deviceReset Reg.SYS_RSTCAUSE_RSTN .rstHeld s1)
  | _ => .next s1

/-- RSTN_RELEASE (R617): a core held in reset starts up from its release on. -/
def execRstnRelease (s : State) : Out :=
  .next { s with sys := { s.sys with rstnLow := false, phase := if s.sys.phase = .rstHeld then .rails else s.sys.phase } }

/-- Every HST register takes its reset value (R443). -/
def resetHstRegs (s : State) : State := { s with regs := s.regs.filter (fun e => !(0x5000 ≤ e.1 && e.1 < 0x5800)) }

/-- PERSTN_ASSERT (R18, R59, R75, R443, R459): the PCI Express function and the HST registers reset, the gateway role ends, and the assertion is
counted; more than 16 in a second raise source 10. What belongs to generation 2 stays: its reply, CSEQ, the result of its last frame, what its GETs
returned and, where it was the last to hold the role, what waits for it. -/
def execPerstnAssert (s : State) : Out :=
  let times := s.now :: s.sys.perstTimes.filter (fun t => decide (s.now < t + 1000 * ms))
  let s1 := { s with sys := { s.sys with perstLow := true, perstAt := s.now, perstTimes := times.take 17 } }
  if s.sys.perstLow then .next s
  else if !coreUp s then .next { s with sys := { s.sys with perstLow := true, perstAt := s.now } }
  else
    let s2 := incSat Reg.SYS_PINSTAT_PERSTCNT (if 16 < times.length then pulse 10 s1 else s1)
    let s3 := endRole (if gen3Holds s2 then pulse 106 s2 else s2)
    let h := { HstState.reset with
      spi := s3.hst.spi, phyDown := s3.hst.phyDown, mem := s3.hst.mem, msi := s3.hst.msi, nextSlot := s3.hst.nextSlot
      reply := s3.hst.reply, cseq := s3.hst.cseq, lastErr := s3.hst.lastErr, gotCpl := s3.hst.gotCpl, gotEvt := s3.hst.gotEvt, gotStr := s3.hst.gotStr
      waiting := if isGen2 s then s3.hst.waiting else [], evq := if isGen2 s then s3.hst.evq else []
      sbuf := if isGen2 s then s3.hst.sbuf else [], lost := if isGen2 s then s3.hst.lost else HstState.reset.lost
      g1crc := s3.hst.g1crc, g1reg := s3.hst.g1reg, g1new := s3.hst.g1new, g1latch := s3.hst.g1latch }
    .next (setB Reg.SYS_CLKSTAT_PCIELK false (resetHstRegs { s3 with hst := h }))

/-- PERSTN_STUCK_TIMEOUT (R45, R75): low for PERSTTO seconds, which are not 0, after it has been high. -/
def execPerstnStuckTimeout (s : State) : Out :=
  if coreUp s && s.sys.perstLow && s.sys.perstSeenHigh && getF Reg.SYS_PINCFG_PERSTTO s != 0 &&
      decide (s.sys.perstAt + getF Reg.SYS_PINCFG_PERSTTO s * 1000 * ms ≤ s.now) then .next (raise 10 s) else .next s

/-- PERSTN_RELEASE (R75): the link starts training and the stuck condition ends. -/
def execPerstnRelease (s : State) : Out :=
  .next (drop 10 { s with sys := { s.sys with perstLow := false, perstSeenHigh := s.sys.perstSeenHigh || coreUp s } })

end Sys2Proof.Machine
end

