-- ==== Sys2Proof/Machine/Access.lean ====
section
/-!
DEFINITION. Sys2Proof/Machine/Access.lean: reads and writes of the local space by any requester
(spec/00_scope.md R1-R9; spec/18_register_map.md R577-R580, R597-R599; spec/12_host_interface.md R441; each block's
register tables).
-/
namespace Sys2Proof.Machine

/-! ## Address classes -/

/-- The address classes of R578. -/
inductive AddrClass
  | register
  | hole
  | window
  | reserved
  deriving DecidableEq, Repr

/-- The class of a local word address (R577, R578). `THM_LOG` at 0x6C00 is a read-only window (R526). -/
def addrClass (a : Nat) : AddrClass :=
  if a < 0x800 ∨ (0x1000 ≤ a ∧ a < 0x8800) then
    if 0x6C00 ≤ a ∧ a < 0x7000 then .window else if (rowAt a).isSome then .register else .hole
  else if (0x10000 ≤ a ∧ a < 0x35000) ∨ (0x40000 ≤ a ∧ a < 0x48000) then .window
  else .reserved

/-- A word of the patch area that a class D WRITE may write (R545). -/
def patchWritable (bulk : Bool) (a : Nat) (s : State) : Bool := bulk && bit Reg.CAL_STAT_PATCHWE s && 0x43400 ≤ a && a < 0x48000

/-- The place of a status in the order of R9. -/
def rank : Status → Nat
  | .noRoute => 1
  | .nodeReset => 2
  | .timeout => 3
  | .badAddress => 4
  | .lifecycleDenied => 5
  | .refusedFenced => 6
  | .refusedBusy => 7
  | .checkFail => 8
  | .incomplete => 9
  | .delayed => 10
  | .ok => 11

/-- Two words' accesses as one: the first status of R9, with its time. -/
def Done.after (d e : Done) : Done :=
  let first := if rank e.status < rank d.status then e else d
  ⟨e.st, first.status, d.data ++ e.data, first.tval, d.held || e.held⟩

/-! ## Reads -/

/-- A read under R1: WO and RSV bits return 0; RC bits return and clear. -/
def plainRead (a : Nat) (s : State) : Word × State :=
  match rowAt a with
  | none => (0#32, s)
  | some r =>
    let v := reg s a
    (v &&& ~~~(BitVec.ofNat 32 r.wo ||| BitVec.ofNat 32 r.rsv), if r.rc = 0 then s else setReg a (v &&& ~~~(BitVec.ofNat 32 r.rc)) s)

/-- `FLT_STAT` (R511). -/
def fltStat (s : State) : Word :=
  let sev := ((List.range 4).map (fun j => popCount (reg s (Reg.FLT_SEV j)))).sum
  putBits (putBits (putBits (reg s Reg.FLT_STAT) 29 1 (b2n !s.flt.railErr.isEmpty)) 16 8 sev) 8 8 (stickyCount s)

/-- The shadows of `TBS_TIMEH` with one requester's used: one for the housekeeping controller, four for others, the least recently used one given up
(R113, R486). -/
def putClock (req : Requester) (hi : Word) (l : List (Requester × Word)) : List (Requester × Word) :=
  let n := (req, hi) :: l.filter (fun e => e.1 != req)
  n.filter (fun e => e.1 == Requester.hk) ++ (n.filter (fun e => e.1 != Requester.hk)).take 4

/-- The upper word of fabric time, and a requester's copy of it (R486). -/
def timeHigh (s : State) : Word := BitVec.ofNat 32 (s.ft / 2 ^ 32)
def clockShadow (req : Requester) (s : State) : Option Word := (s.tbs.shadows.find? (fun e => e.1 == req)).map (fun e => e.2)

/-- A requester's copy is stored or used. -/
def useClock (req : Requester) (hi : Word) (s : State) : State := { s with tbs := { s.tbs with shadows := putClock req hi s.tbs.shadows } }

/-- A word of a read-only window: history (R117), route table (R404), impedance results (R202), session table (R420), NVM (R537). -/
def windowRead (req : Requester) (a : Nat) (s : State) : Word × State :=
  if a < 0x20000 then if a % 8 = 0 then readValue req a s else readTag req (a - 4) s
  else if a < 0x30000 then
    let o := a - 0x20000
    (if hasRole s && o / 64 != 1023 then nth (entryWords (entryOf (o / 64) s)) (o % 64 / 4) 0#32 else 0#32, s)
  else if a < 0x34000 then ((assoc a s.imp.results).getD 0#32, s)
  else if a < 0x35000 then
    let e := sessionOf ((a - 0x34000) / 16) s
    (match a % 16 / 4 with
      | 0 => BitVec.ofNat 32 (e.div * 2 ^ 24 + e.fill * 2 ^ 16 + e.gw * 4 + e.state)
      | 1 => e.mask
      | 2 => BitVec.ofNat 32 e.next
      | _ => e.frames, s)
  else (nvmWord (a - 0x40000) s, s)

/-- `LNK_PSTATn` as it reads: LOCK shows a training receiver locked from 0.6 ms on (R344, R381; DESIGN CHOICE notes/assumptions/91.md); after low-power
idle it shows the lock with UP. -/
def lockShown (n : Nat) (w : Word) (s : State) : Word :=
  if portState n s = portTrain ∧ (port n s).fromLpi = false ∧ (port n s).trainAt + 600 * us ≤ s.now then
    putBits w (Reg.LNK_PSTAT_LOCK n).lo 1 1
  else w

/-- A requester's read of one local word. -/
def readWord (req : Requester) (a : Nat) (s : State) : Word × State :=
  if 0x10000 ≤ a then windowRead req a s
  else if isRecordAddr a then readValue req a s
  else if isRecordAddr (a - 4) then readTag req (a - 4) s
  else if a = Reg.CMS_HWIDX then readHwidx req s
  else if a = Reg.CMS_HTIMEL then (BitVec.ofNat 32 (htime req s), useTime req s)
  else if a = Reg.CMS_HTIMEH then (BitVec.ofNat 32 (htime req s / 2 ^ 32), useTime req s)
  else if a = Reg.CPB_BALSTAT then (putBits (plainRead a s).1 Reg.CPB_BALSTAT_HOLD.lo Reg.CPB_BALSTAT_HOLD.w (holdRow s), (plainRead a s).2)
  else if a = Reg.CPB_CLTSTAT then (putBits (plainRead a s).1 0 10 (timerLeft s), (plainRead a s).2)
  else if a = Reg.TBS_TIMEL then (BitVec.ofNat 32 s.ft, useClock req (timeHigh s) s)
  else if a = Reg.TBS_TIMEH then
    match clockShadow req s with
    | some hi => (hi, useClock req hi s)
    | none => (timeHigh s, s)
  else if a = Reg.FLT_STAT then (fltStat s, s)
  else if 0x4100 ≤ a ∧ a < 0x4200 ∧ a % 0x40 = 8 then (lockShown ((a - 0x4100) / 0x40) (plainRead a s).1 s, (plainRead a s).2)
  else if 0x4100 ≤ a ∧ a < 0x4200 ∧ a % 0x40 = 0x24 then ((plainRead a s).1, refreshRbuf ((a - 0x4100) / 0x40) (plainRead a s).2)
  else if 0x6C00 ≤ a ∧ a < 0x7000 then (nvmWord (0x3000 + (a - 0x6C00)) s, s)
  else if a = Reg.CRC_RESULT then (crcResult s, s)
  else if a = Reg.CRC_VAL ∨ a = Reg.CRC_POLY ∨ a = Reg.CRC_XOROUT then (crcMask (crcWidth s) (reg s a), s)
  else plainRead a s

/-- Consecutive words read in ascending order (R579). -/
def readWords (req : Requester) (a : Nat) : Nat → State → List Word × State
  | 0, s => ([], s)
  | n + 1, s =>
    let w := readWord req a s
    let r := readWords req (a + 4) n w.2
    (w.1 :: r.1, r.2)

/-! ## Writes that R2 and R6 leave unpredictable -/

/-- A field value that the owning chapter lists as reserved (R2), and not as a host error. -/
def reservedValue (a : Nat) (v : Word) : Bool :=
  let f (lo w : Nat) : Nat := getBits v lo w
  if a = Reg.SYS_PWRCMD then 4 ≤ f 0 3
  else if a = Reg.SYS_SUPCFG then f 2 2 == 3 || f 0 2 == 3
  else if a = Reg.SYS_RSTCMD then f 0 2 == 3
  else if a = Reg.SYS_PINCFG then 60 < f 16 8
  else if a = Reg.XCK_AXCFG 0 ∨ a = Reg.XCK_AXCFG 1 then (List.range 8).any (fun j => f (4 * j) 2 == 3)
  else if a = Reg.XCK_BALCFG then f 4 2 == 3 || f 0 2 == 3
  else if a = Reg.CPB_OVTH ∨ a = Reg.CPB_UVTH then f 0 11 < 100 || 1100 < f 0 11
  else if a = Reg.CPB_BALCFG then f 8 4 == 0 || 12 < f 8 4
  else if a = Reg.CPB_CLTCFG then 1000 ≤ f 0 10
  else if a = Reg.CNV_CFG then 2 ≤ f 4 2 || f 0 2 == 3
  else if a = Reg.CNV_SSCFG then f 24 4 == 0 || f 12 4 == 0 || f 0 9 == 0 || 500 < f 0 9
  else if a = Reg.CNV_DROOP then 10000 < f 0 16
  else if a = Reg.LNK_CFG then f 0 4 == 0
  else if a = Reg.FAB_CFG then f 0 2 == 3
  else if a = Reg.HST_G2CFG then f 0 8 == 0
  else if a = Reg.CAL_CMD then f 0 3 == 3 && 4 ≤ f 16 3
  else false

/-- A preset with DE above 0x8 or PK above 0xC (R373). -/
def presetBad (p : Nat) : Bool := 8 < p / 16 || 12 < p % 16

/-- The over-voltage threshold lies less than 100 mV above the under-voltage threshold plus the hysteresis (R247). -/
def thresholdsClose (ov : Nat) (s : State) : Bool :=
  ov * 5 < getF Reg.CPB_UVTH_TH s * 5 + nth [10, 25, 50, 100] (getF Reg.CPB_CFG_HYST s) 10 + 100

/-- NTCEN on an input that is not converted single-ended at gain 1 (R528). -/
def ntcBad (v : Word) (s : State) : Bool :=
  let field (k : Nat) : Nat := getBits (reg s (Reg.XCK_AXCFG (k / 8))) (4 * (k % 8)) 4
  (List.range 16).any (fun k => v.getLsbD (16 + k) && (field k / 8 == 0 || field k % 4 != 0 || (field (k / 2 * 2)).testBit 2))

/-- The ring, of 11, that a register of R465 belongs to. -/
def ringOf (a : Nat) : Nat := (a - Reg.HST_RBASEL 0) / 0x20

/-- A write that a chapter lists as a host error and that the written value shows (R6): the rule that lists it. -/
def hostErrorOf (req : Requester) (a : Nat) (v : Word) (s : State) : Option Nat :=
  let f (lo w : Nat) : Nat := getBits v lo w
  let err (b : Bool) (r : Nat) : Option Nat := if b then some r else none
  if a = Reg.CMS_CHEN then err (streamOpen s) 129
  else if a = Reg.CMS_CFG then err (f 8 2 == 3) 129
  else if a = Reg.XCK_CFG then err (f 0 8 == 0 || f 8 4 == 0) 178
  else if a = Reg.XCK_RBAL then err (f 0 16 == 0) 178
  else if Reg.XCK_HRES 0 ≤ a ∧ a ≤ Reg.XCK_HRES 24 then err (bit Reg.XCK_HRCMD_BUSY s) 178
  else if a = Reg.XCK_AXCFG 0 ∨ a = Reg.XCK_AXCFG 1 then err ((List.range 4).any (fun j => v.getLsbD (8 * j + 6))) 178
  else if a = Reg.IMP_RSHUNT then err (v == 0#32) 212
  else if a = Reg.CPB_OVTH then err (thresholdsClose (f 0 11) s) 247
  else if a = Reg.CNV_CFG then err (f 0 2 != getF Reg.CNV_CFG_CLASS s && cnvState s != 0 && cnvState s != 8) 291
  else if Reg.CNV_CSG 0 ≤ a ∧ a ≤ Reg.CNV_CSG 3 then err (f 0 16 == 0) 291
  else if a = Reg.CNV_DLIM then err (f 16 16 ≤ f 0 16) 291
  else if a = Reg.CNV_PHCFG then err (f 8 1 == 1 && f 0 4 != 0xF) 291
  else if a = Reg.CNV_LL then err (f 24 8 ≤ f 16 8) 291
  else if a = Reg.CTL_SMAX ∨ a = Reg.CTL_AMAX ∨ a = Reg.CTL_JMAX then err (f 0 16 == 0) 326
  else if a = Reg.CTL_LIM then err (640 < f 16 10 || 639 < f 0 10) 326
  else if a = Reg.CTL_CFG then err (f 4 1 == 1 && (getF Reg.CTL_LUTCFG_NENT s < 2 || 64 < getF Reg.CTL_LUTCFG_NENT s || tableFalls s.ctl.nent s.ctl.table)) 326
  else if a = Reg.CTL_LUTCFG then err (bit Reg.CTL_CFG_LUTEN s && (f 0 7 < 2 || 64 < f 0 7)) 326
  else if Reg.CTL_LUT 0 ≤ a ∧ a ≤ Reg.CTL_LUT 63 then err (bit Reg.CTL_STAT_LUTPEND s) 326
  else if a = Reg.LNK_CFG then err (f 16 8 < 0x0A || f 12 4 == 0) 373
  else if a = Reg.LNK_EQCFG then err ((List.range 4).any (fun j => presetBad (f (8 * j) 8))) 373
  else if 0x4100 ≤ a ∧ a < 0x4200 ∧ a % 0x40 = 0 then err (presetBad (f 8 8)) 373
  else if 0x5100 ≤ a ∧ a < 0x5260 ∧ a % 0x20 = 0x0C then err (f 31 1 == 1 && !bit (Reg.HST_RCFG_EN (ringOf a)) s && ringBad (ringOf a) s) 462
  else if a = Reg.HST_WBL then err (f 0 1 == 1 && !bit Reg.HST_WBL_EN s && rangeClash 11 (f 6 26 * 64 + 2 ^ 32 * (reg s Reg.HST_WBH).toNat, 64) s) 462
  else if 0x5100 ≤ a ∧ a < 0x5260 ∧ a % 0x20 = 0x1C then
    err (bit (Reg.HST_RCFG_EN (ringOf a)) s && doorbellBad (ringOf a) (f 0 20) s) 462
  else if (0x5400 ≤ a ∧ a < 0x5480) ∨ (0x5600 ≤ a ∧ a < 0x5608) then err (req != Requester.host && req != Requester.hk) 599
  else if a = Reg.TBS_CFG then err (f 24 4 == 0 || f 0 2 == 3) 484
  else if Reg.FLT_CFG 0 ≤ a ∧ a ≤ Reg.FLT_CFG 127 then err (5 ≤ f 12 3 || f 4 4 == 0) 510
  else if a = Reg.FLT_INJCTL then err (f 8 8 == 0 || !bit (Reg.FLT_CFG_EN (f 16 7)) s) 510
  else if a = Reg.TBS_RATE then err (20000000 < mag (signed 32 v.toNat)) 484
  else if a = Reg.THM_CFG then err (f 16 8 < 80 || 150 < f 16 8) 528
  else if a = Reg.THM_NTCCFG then err (ntcBad v s) 528
  else if a = Reg.THM_NTCPAR then err (f 16 16 == 0 || f 0 16 == 0) 528
  else if a = Reg.THM_NTCLIM then err (signed 8 (f 8 8) ≤ signed 8 (f 0 8)) 528
  else if a = Reg.CRC_CFG then err (f 8 6 < 8 || 32 < f 8 6) 552
  else if a = Reg.CRC_DATA8 ∨ a = Reg.CRC_DATA16 ∨ a = Reg.CRC_DATA32 then err (crcWidth s < 8 || 32 < crcWidth s) 552
  else none

/-- An RWL register that is locked (R4, R513, R597). -/
def lockedWord (a : Nat) (s : State) : Bool :=
  (bit Reg.SYS_LOCKSTAT_LTGT s && Reg.CNV_VTGT 0 ≤ a && a ≤ Reg.CNV_VTGT 3) ||
    (bit Reg.SYS_LOCKSTAT_LFLT s && Reg.FLT_CFG 0 ≤ a && a ≤ Reg.FLT_CFG 127)

/-- Whether a write is one that R2 leaves unpredictable. A write of a locked register has no effect, whatever its value (R4). -/
def illegal (a : Nat) (v : Word) (s : State) : Option Fault :=
  if lockedWord a s then none
  else
    match rowAt a with
    | none => none
    | some r => if v &&& BitVec.ofNat 32 r.rsv ≠ 0#32 ∨ reservedValue a v then some (.reservedWrite a) else none

/-- Whether a write is a host error (R6). -/
def hostErrorAt (req : Requester) (a : Nat) (v : Word) (s : State) : Bool := !lockedWord a s && (hostErrorOf req a v s).isSome

/-! ## Writes -/

/-- A write under R1: RW bits take the value, W1C bits written as 1 clear, other bits keep theirs. -/
def plainWrite (a : Nat) (v : Word) (s : State) : State :=
  match rowAt a with
  | none => s
  | some r =>
    let rw := BitVec.ofNat 32 r.rw
    setReg a (((reg s a &&& ~~~rw) ||| (v &&& rw)) &&& ~~~(v &&& BitVec.ofNat 32 r.w1c)) s

/-- A write of SYS registers. A device reset takes the completion of a fabric request with it (R85). -/
def writeSys (req : Requester) (tk : Ticket) (a : Nat) (v : Word) (s : State) : Done :=
  let key := getBits v 8 8
  if a = Reg.SYS_PWRCMD then
    if key ≠ 0x5A then Done.ok s
    else
      match getBits v 0 3 with
      | 0 => powerDown .shelf s
      | 1 => powerDown .sentinel s
      | 2 => powerDown .standby s
      | _ => powerUp s
  else if a = Reg.SYS_RSTCMD then
    if key ≠ 0xA5 then Done.ok s
    else
      match getBits v 0 2 with
      | 1 =>
        let t := deviceReset Reg.SYS_RSTCAUSE_SOFT .rails s
        if tk = .direct then Done.ok t else Done.later t
      | 2 => Done.ok (restartController (setB Reg.SYS_RSTCAUSE_CTLRST true s))
      | _ => Done.ok s
  else if a = Reg.SYS_LOCK then Done.ok (lockWrite req key (v.getLsbD 1) (v.getLsbD 0) s)
  else if a = Reg.SYS_SUPCFG then Done.ok (selectLeg (plainWrite a v s))
  else Done.ok (plainWrite a v s)

/-- Writes of CMS and XCK registers. -/
def writeMeasure (tk : Ticket) (a : Nat) (v : Word) (s : State) : Done :=
  if a = Reg.CMS_CFG then writeCmsCfg v s
  else if a = Reg.CMS_CHEN then writeCmsChen v s
  else if a = Reg.XCK_HRCMD then if v.getLsbD 0 then startHarness tk s else Done.ok s
  else Done.ok (plainWrite a v s)

/-- IMP registers that a plan in progress protects (R197). -/
def planProtects (a : Nat) : Bool :=
  a == Reg.IMP_CFG || a == Reg.IMP_T0L || a == Reg.IMP_T0H || (Reg.IMP_PAIRCFG ≤ a && a ≤ Reg.IMP_RSHUNT) || Reg.IMP_PLAN_W0 0 ≤ a

/-- A write of IMP registers (R195, R197, R198, R214): STOP acts in place of START. -/
def writeImp (a : Nat) (v : Word) (s : State) : Done :=
  if a = Reg.IMP_CMD then
    if v.getLsbD 1 then Done.ok (planAbort 1 s) else if v.getLsbD 0 then startPlan (abortItem 19 s) else Done.ok s
  else if planActive s && planProtects a then Done.busyFree s
  else Done.ok (plainWrite a v s)

/-- A write of CPB registers (R224, R225, R229, R242). -/
def writeCpb (a : Nat) (v : Word) (s : State) : Done :=
  if a = Reg.CPB_OVFLAG then Done.ok (clearFlags true v s)
  else if a = Reg.CPB_UVFLAG then Done.ok (clearFlags false v s)
  else if a = Reg.CPB_CLTCFG then Done.ok (writeTimerPeriod (getBits v 0 10) s)
  else
    let t := plainWrite a v s
    if a = Reg.CPB_CELLEN ∨ a = Reg.CPB_CFG then Done.ok (enforceSwitches (dropComparators t))
    else if a = Reg.CPB_FPCFG then Done.ok (driveFaultLevel t)
    else Done.ok t

/-- The commands of one write of `CNV_CMD` (R288, R289, R293): CLRFLT first, then STOP in place of START. -/
def writeCnvCmd (v : Word) (s : State) : Done :=
  if cnvRefuses s then Done.refuse .refusedFenced s
  else
    let s1 := if v.getLsbD 3 then { s with cnv := { s.cnv with loadPend := true } } else s
    let s2 := if v.getLsbD 2 then clearConverterFault s1 else s1
    if v.getLsbD 1 then Done.ok (commandedStop s2) else if v.getLsbD 0 then startConverter s2 else Done.ok s2

/-- The converter's state is neither OFF nor FAULT (R296, R304). -/
def stageBusy (s : State) : Bool := cnvState s != 0 && cnvState s != 8

/-- A write of CNV registers (R262, R269, R270, R296, R297). -/
def writeCnv (a : Nat) (v : Word) (s : State) : Done :=
  if a = Reg.CNV_CMD then writeCnvCmd v s
  else if (a = Reg.CNV_PHCFG ∨ (Reg.CNV_CSG 0 ≤ a ∧ a ≤ Reg.CNV_CSG 3)) ∧ stageBusy s then Done.busyFree s
  else if Reg.CNV_VTGT 0 ≤ a ∧ a ≤ Reg.CNV_VTGT 3 then Done.ok (writeVtgt ((a - Reg.CNV_VTGT 0) / 4) (getBits v 0 16) s)
  else if a = Reg.CNV_VSELSW then Done.ok (writeVselsw (getBits v 0 2) s)
  else Done.ok (storeCnv a (reg (plainWrite a v s) a) s)

/-- A write of CTL registers (R304, R309, R314, R320). -/
def writeCtl (a : Nat) (v : Word) (s : State) : Done :=
  if a = Reg.CTL_CFG ∧ stageBusy s then Done.busyFree s
  else if a = Reg.CTL_CMD then if v.getLsbD 0 ∨ bit Reg.CTL_STAT_FEN s then loadLut s else Done.ok s
  else if a = Reg.CTL_TGT then writeTarget (getBits v 0 16) s
  else Done.ok (plainWrite a v s)

/-- A write of LNK registers (R349, R372, R379, R380). -/
def writeLnk (a : Nat) (v : Word) (s : State) : Done :=
  let n := (a - 0x4100) / 0x40
  if a < 0x4100 then Done.ok (plainWrite a v s)
  else if a % 0x40 = 0 then
    let was := bit (Reg.LNK_PCFG_EN n) s
    let t := plainWrite a v s
    if was && !v.getLsbD 0 then Done.ok (closePort n t) else if !was && v.getLsbD 0 then Done.ok (openPort n t) else Done.ok t
  else if a % 0x40 = 4 then
    if linksRun s then
      let s1 := if v.getLsbD 0 then retrain n s else s
      if v.getLsbD 1 then linkWakeCommand n s1 else Done.ok s1
    else Done.ok s
  else Done.ok (plainWrite a v s)

/-- The primary route of a home set is in use and works (R403). -/
def primaryWorks (k : Nat) (s : State) : Bool :=
  bit (Reg.FAB_HOME_HCTL_VALID k) s && !bit (Reg.FAB_HOME_HCTL_PFAIL k) s && !bit (Reg.FAB_HOME_HCTL_USE k) s

/-- A planned switch of a home set begins where its route changes (R403). -/
def planSwitch (other : Bool) (k : Nat) (s : State) : State :=
  if other then { s with fab := { s.fab with planned := setNth s.fab.planned k (some s.now) } } else s

/-- A write of a home set's primary route (R403, R410, R423): PFAIL clears, the primary is in use again, and a change of a route that still
works is a planned switch. -/
def writeProute (k : Nat) (v : Word) (s : State) : State :=
  let s1 := setReg (Reg.FAB_HOME_PROUTE k) v s |> setB (Reg.FAB_HOME_HCTL_PFAIL k) false |> setB (Reg.FAB_HOME_HCTL_USE k) false
  if primaryWorks k s then planSwitch (reg s (Reg.FAB_HOME_PROUTE k) != v) k s1
  else { s1 with fab := { s1.fab with rerouted := setNth s1.fab.rerouted k true } }

/-- A write of a home set's `HCTL` (R403, R423): another number of hops is another route too, unless it belongs to a primary route just written in place of
one that did not work. -/
def writeHctl (k : Nat) (v : Word) (s : State) : State :=
  let other := primaryWorks k s && !nth s.fab.rerouted k false && getF (Reg.FAB_HOME_HCTL_PHOP k) s != getBits v 0 5
  let s1 := plainWrite (Reg.FAB_HOME_HCTL k) v s
  planSwitch (other && v.getLsbD 31) k { s1 with fab := { s1.fab with rerouted := setNth s1.fab.rerouted k false } }

/-- A write of FAB registers (R399, R423). -/
def writeFab (tk : Ticket) (a : Nat) (v : Word) (s : State) : Done :=
  if a = Reg.FAB_ENCMD then if getBits v 0 2 = 0 then Done.ok s else enumCommand (getBits v 0 2) tk s
  else if a = Reg.FAB_HOME_PROUTE 0 ∨ a = Reg.FAB_HOME_PROUTE 1 then Done.ok (writeProute ((a - Reg.FAB_HOME_PROUTE 0) / 0x40) v s)
  else if a = Reg.FAB_HOME_HCTL 0 ∨ a = Reg.FAB_HOME_HCTL 1 then Done.ok (writeHctl ((a - Reg.FAB_HOME_HCTL 0) / 0x40) v s)
  else if a = Reg.FAB_HOME_AROUTE 0 ∨ a = Reg.FAB_HOME_AROUTE 1 then
    Done.ok (setB (Reg.FAB_HOME_HCTL_AFAIL ((a - Reg.FAB_HOME_AROUTE 0) / 0x40)) false (plainWrite a v s))
  else Done.ok (plainWrite a v s)

/-- A configuration write that the host interface refuses (R456). -/
def refuseConfig (s : State) : State := pulse 111 (setHostErr Reg.HST_ERR_CFGERR s)

/-- A write of HST registers (R449, R453, R454, R456, R460, R466): a fence of the host interface keeps EN at 0; EN 0 ends the writeback block's use, as R458 has firmware do (DEDUCED
notes/assumptions/54.md). -/
def writeHst (a : Nat) (v : Word) (s : State) : Done :=
  let r := ringOf a
  if a = Reg.HST_WBL then
    if bit Reg.HST_WBL_EN s then Done.ok (if v.getLsbD 0 then refuseConfig s else setB Reg.HST_WBL_EN false s)
    else
      let t := plainWrite a (v &&& ~~~1#32) s
      Done.ok (if v.getLsbD 0 && !bit Reg.FLT_FENCE0_HST s then writebackEnable t else t)
  else if a = Reg.HST_WBH then Done.ok (if bit Reg.HST_WBL_EN s then refuseConfig s else plainWrite a v s)
  else if 0x5100 ≤ a ∧ a < 0x5260 then
    match a % 0x20 / 4 with
    | 0 | 1 | 2 => Done.ok (if bit (Reg.HST_RCFG_EN r) s then refuseConfig s else plainWrite a v s)
    | 3 =>
      let w := if bit Reg.FLT_FENCE0_HST s then v &&& 0x7FFFFFFF#32 else v
      let t := plainWrite a w s
      let t1 := if w.getLsbD 31 && !bit (Reg.HST_RCFG_EN r) s then ringEnable r t else t
      Done.ok (if r = 0 ∨ dmaAllowed t1 = false then t1 else signalCounted r t1)
    | 7 => Done.ok (doorbell r (getBits v 0 20) s)
    | _ => Done.ok (plainWrite a v s)
  else if 0x5400 ≤ a ∧ a < 0x5480 then Done.ok (releaseMasked (plainWrite a v s))
  else Done.ok (plainWrite a v s)

/-- A write of TBS registers (R467, R468, R477, R481). -/
def writeTbs (a : Nat) (v : Word) (s : State) : Done :=
  if a = Reg.TBS_CFG then Done.ok (refreshRoot (plainWrite a v s))
  else if a = Reg.TBS_TCMD then if v.getLsbD 0 then stepCommand s else Done.ok s
  else if a = Reg.TBS_REINCMD then if v.getLsbD 0 then reinCommand (v.getLsbD 2) (v.getLsbD 1) s else Done.ok s
  else if a = Reg.TBS_RSTAT then if v.getLsbD 0 then clearFull s else Done.ok s
  else Done.ok (plainWrite a v s)

/-- A write of FLT registers (R503, R504, R507, R512, R513). -/
def writeFlt (a : Nat) (v : Word) (s : State) : Done :=
  if a = Reg.FLT_CMD then Done.ok (if getBits v 8 8 = 0xC3 ∧ v.getLsbD 0 then clearAll s else s)
  else if a = Reg.FLT_INJCTL then
    if v.getLsbD 0 then injectionGo (getBits v 16 7) (getBits v 8 8) (v.getLsbD 24) s else Done.ok (plainWrite a v s)
  else if Reg.FLT_STK 0 ≤ a ∧ a ≤ Reg.FLT_STK 3 then Done.ok (clearSticky ((a - Reg.FLT_STK 0) / 4) v s)
  else if Reg.FLT_SEV 0 ≤ a ∧ a ≤ Reg.FLT_SEV 3 then Done.ok (clearSevere ((a - Reg.FLT_SEV 0) / 4) v s)
  else if Reg.FLT_RAIL 0 ≤ a ∧ a ≤ Reg.FLT_RAIL 3 then Done.ok (clearRail ((a - Reg.FLT_RAIL 0) / 4) v s)
  else if Reg.FLT_CFG 0 ≤ a ∧ a ≤ Reg.FLT_CFG 127 then Done.ok (writeFltCfg ((a - Reg.FLT_CFG 0) / 4) v s)
  else Done.ok (plainWrite a v s)

/-- A write of THM, CAL, CRC and BST registers (R526, R543, R549, R555, R569). -/
def writeCheck (tk : Ticket) (a : Nat) (v : Word) (s : State) : Done :=
  let key := getBits v 8 8
  if a = Reg.THM_LOGCMD then if key = 0x3C ∧ v.getLsbD 0 then logClear tk s else Done.ok s
  else if a = Reg.CAL_CMD then if key = 0x96 then calCommand (getBits v 0 3) (getBits v 16 3) tk patchCommand s else Done.ok s
  else if a = Reg.CRC_VAL ∨ a = Reg.CRC_POLY ∨ a = Reg.CRC_XOROUT then Done.ok (setReg a (crcMask (crcWidth s) v) s)
  else if a = Reg.CRC_DATA8 then Done.ok (crcFeed 1 v s)
  else if a = Reg.CRC_DATA16 then Done.ok (crcFeed 2 v s)
  else if a = Reg.CRC_DATA32 then Done.ok (crcFeed 4 v s)
  else if a = Reg.BST_CMD then
    if key ≠ 0x69 then Done.ok s
    else if v.getLsbD 1 then abortCommand s
    else if v.getLsbD 0 then selfTestCommand (getBits v 16 8) (getBits v 24 6) (v.getLsbD 2) (v.getLsbD 3) s
    else Done.ok s
  else if a = Reg.BST_LCCMD then if key = 0xE1 then lifecycleCommand (getBits v 0 2) (v.getLsbD 2) tk s else Done.ok s
  else Done.ok (plainWrite a v s)

/-- A requester's write of one register, or of one word of the patch area, which the controller puts into NVM (R23, R545). -/
def writeWord (req : Requester) (tk : Ticket) (a : Nat) (v : Word) (s : State) : Done :=
  if 0x40000 ≤ a then withController s (Done.ok (patchWord (a - 0x40000) v s))
  else if a < 0x1000 then writeSys req tk a v s
  else if a < 0x2000 then writeMeasure tk a v s
  else if a < 0x2800 then writeImp a v s
  else if a < 0x3000 then writeCpb a v s
  else if a < 0x3800 then writeCnv a v s
  else if a < 0x4000 then writeCtl a v s
  else if a < 0x4800 then writeLnk a v s
  else if a < 0x5000 then writeFab tk a v s
  else if a < 0x5800 then writeHst a v s
  else if a < 0x6000 then writeTbs a v s
  else if a < 0x6800 then writeFlt a v s
  else writeCheck tk a v s

/-! ## Accesses -/

/-- How an access ends: a completion, a stop where R2 makes the result unpredictable, or a host error made in a state (R6). -/
inductive Acc
  | done (d : Done)
  | stop (f : Fault)
  | hostError (s : State)

/-- An access as a command's outcome, its completion delivered by a ticket. -/
def Acc.via (tk : Ticket) : Acc → Out
  | .done d => d.via tk
  | .stop f => .fault f
  | .hostError s => .next (upset s)

/-- Consecutive words written in ascending order (R579). After a write that resets the device nothing more is performed. A host error is one only
where the write is not refused (R9, R304). -/
def writeWords (req : Requester) (tk : Ticket) (a : Nat) : List Word → Done → Acc
  | [], d => .done d
  | v :: l, d =>
    if coreUp d.st = false then .done d
    else
      match illegal a v d.st with
      | some f => .stop f
      | none =>
        let e := writeWord req tk a v d.st
        if hostErrorAt req a v d.st && e.status == .ok then .hostError d.st else writeWords req tk (a + 4) l (d.after e)

/-- The bits of consecutive words from an address that a choice of each register's row names: those bits of `ws` are set. -/
def orWords (mask : RegRow → Nat) (a : Nat) (ws : List Word) (s : State) : State :=
  ws.zipIdx.foldl (fun t e =>
    match rowAt (a + 4 * e.2) with
    | some r => setReg (a + 4 * e.2) (reg t (a + 4 * e.2) ||| (e.1 &&& BitVec.ofNat 32 (mask r))) t
    | none => t) s

/-- What hardware sets in the clock cycle of a write stands after it, and the write does not clear it (R3): the words as they act. -/
def besideSets (a : Nat) (l sets : List Word) : List Word :=
  l.zipIdx.map (fun e =>
    match rowAt (a + 4 * e.2) with
    | some r => e.1 &&& ~~~(nth sets e.2 0#32 &&& BitVec.ofNat 32 r.w1c)
    | none => e.1)

/-- An access that reached the registers, with what hardware does in its clock cycle (R3). -/
def Acc.beside (f : State → State) : Acc → Acc
  | .done d => .done (if d.status = .ok ∧ coreUp d.st then { d with st := f d.st } else d)
  | x => x

/-- The word addresses of an access. -/
def wordAddrs (a n : Nat) : List Nat := (List.range n).map (fun i => a + 4 * i)

/-- A read of `n` words that completes with BAD_ADDRESS (R578, R579). -/
def readRefused (a n : Nat) : Bool := a % 4 != 0 || (wordAddrs a n).any (fun b => addrClass b == .reserved)

/-- A write of `n` words that completes with BAD_ADDRESS (R578, R579); `bulk`: a class D WRITE request, which may reach the patch area (R545). -/
def writeRefused (bulk : Bool) (a n : Nat) (s : State) : Bool :=
  a % 4 != 0 || (wordAddrs a n).any (fun b => addrClass b != .register && !patchWritable bulk b s)

/-- A read of `n` words by the housekeeping controller, by a fabric request or by a descriptor for this device (R578, R579): every word is checked
first. History and `CMS_LAST` read by 8 bytes or more at other than a multiple of 8 are a host error (R129), and so is a fabric read of the MSI-X
table or PBA (R599). -/
def localRead (req : Requester) (a n : Nat) (s : State) : Acc :=
  if readRefused a n then .done (Done.refuse .badAddress s)
  else if 2 ≤ n ∧ a % 8 ≠ 0 ∧ (wordAddrs a n).any (fun b => (0x10000 ≤ b && b < 0x20000) || (0x1100 ≤ b && b < 0x11C8)) then .hostError s
  else if req ≠ .host ∧ req ≠ .hk ∧ (wordAddrs a n).any (fun b => (0x5400 ≤ b && b < 0x5480) || (0x5600 ≤ b && b < 0x5608)) then .hostError s
  else .done (Done.read (readWords req a n s).1 (readWords req a n s).2)

/-- A write of words by the same requesters (R545, R578, R579). -/
def localWrite (req : Requester) (tk : Ticket) (bulk : Bool) (a : Nat) (l : List Word) (s : State) : Acc :=
  if writeRefused bulk a l.length s then .done (Done.refuse .badAddress s)
  else writeWords req tk a l (Done.ok s)

/-- A BAR0 access has an address and a size that R441 accepts: one aligned word, or two aligned to 8 bytes. -/
def barAligned (a n : Nat) : Bool := (n == 1 && a % 4 == 0) || (n == 2 && a % 8 == 0)

/-- Two words of an 8-byte BAR0 access under different rows of R578 (R599). -/
def barMixed (a n : Nat) : Bool := n == 2 && addrClass a != addrClass (a + 4)

/-- A BAR0 read (R441): an undefined address reads 0. Another size or alignment (R462), and two words of different kinds (R599), are host errors. -/
def barRead (a n : Nat) (s : State) : Acc :=
  if !barAligned a n || barMixed a n then .hostError s
  else if addrClass a = .reserved then .done (Done.read (List.replicate n 0#32) s)
  else .done (Done.read (readWords .host a n s).1 (readWords .host a n s).2)

/-- A BAR0 write (R441): a write outside the registers has no effect. -/
def barWrite (a : Nat) (l : List Word) (s : State) : Acc :=
  if !barAligned a l.length || barMixed a l.length then .hostError s
  else if addrClass a = .register then writeWords .host .direct a l (Done.ok s)
  else .done (Done.ok s)

/-- The host can reach BAR0: Memory Space Enable is set and the link is up (R441). -/
def barReachable (s : State) : Bool := pciePresent s && s.hst.pcie.memEn

/-- REGISTER_WRITE (R1, R3, R578, R579): by the housekeeping controller or a fabric node under R578, or by the host through BAR0 under R441. The
W1C bits of `sets` are set by hardware in the same clock cycle: they stand set. -/
def execRegisterWrite (req : Requester) (a : Fin 1048576) (words sets : List Word) (s : State) : Out :=
  let l := besideSets a.val words sets
  let stand := orWords RegRow.w1c a.val (sets.take words.length)
  if coreUp s = false then .next s
  else if req = .host then if barReachable s then ((barWrite a.val l s).beside stand).via .direct else .next s
  else ((localWrite req .direct false a.val l s).beside stand).via .direct

/-- REGISTER_READ_CLEAR (R1, R3, R578, R579): a read of `n` words, which clears RC fields; what `gains` adds to them in the same clock cycle is not in
the words read and stands after the read. -/
def execRegisterReadClear (req : Requester) (a : Fin 1048576) (n : Fin 257) (gains : List Word) (s : State) : Out :=
  let stand := orWords RegRow.rc a.val (gains.take n.val)
  if coreUp s = false then .next s
  else if req = .host then if barReachable s then ((barRead a.val n.val s).beside stand).via .direct else .next s
  else ((localRead req a.val n.val s).beside stand).via .direct

end Sys2Proof.Machine
end

