-- ==== Sys2Proof/Machine/FabReq.lean ====
section
/-!
DEFINITION. Sys2Proof/Machine/FabReq.lean: what a node does with the requests that arrive for it: READ, WRITE, ENUM and SESSION
(spec/11_fabric_discovery_and_routing.md R390-R397, R401, R411-R414; spec/07_cell_protection_and_passive_balancing.md R242).
-/
namespace Sys2Proof.Machine

/-- The fields of a request's payload (R390). -/
structure ReqHead where
  rroute : Word
  rhop : Nat
  expep : Nat
  reissue : Bool
  posted : Bool
  anyep : Bool
  addr : Nat
  count : Nat
  deriving DecidableEq, Repr

/-- The request fields of a frame. -/
def reqHead (f : Frame) : ReqHead where
  rroute := nth f.payload 0 0#32
  rhop := getBits (nth f.payload 1 0#32) 0 5
  expep := getBits (nth f.payload 1 0#32) 8 8
  reissue := (nth f.payload 1 0#32).getLsbD 16
  posted := (nth f.payload 1 0#32).getLsbD 17
  anyep := (nth f.payload 1 0#32).getLsbD 18
  addr := getBits (nth f.payload 2 0#32) 0 20
  count := getBits (nth f.payload 3 0#32) 0 9

/-- The OP of an ENUM or SESSION request (R401, R411). -/
def reqOp (f : Frame) : Nat := getBits (nth f.payload 2 0#32) 0 8

/-- The frames that carry requests (R353, R401, R411); one with an OP that no rule lists is never executed (DESIGN CHOICE
notes/assumptions/56.md). -/
def requestType (f : Frame) : Bool :=
  match f.type with
  | .read | .write => true
  | .session => decide (1 ≤ reqOp f ∧ reqOp f ≤ 4)
  | .enumeration => decide (1 ≤ reqOp f ∧ reqOp f ≤ 3)
  | _ => false

/-- A frame's entry among the delivered frames; one that is not there arrives now. -/
def withArrival (arrival : Nat) (f : Frame) (s : State) : State :=
  if s.fab.inbox.any (fun e => e.arrival == arrival && e.frame == f) then s else deliver arrival f s

/-- The next request that the node acts on (R393): one that arrived at the watermark is refused as it arrives; the others are executed in arrival order within each
class, class C before class D. -/
def nextRequest (s : State) : Option Arrived :=
  let l := s.fab.inbox.filter (fun e => requestType e.frame)
  (l.filter (fun e => e.tooMany) ++ l.filter (fun e => e.frame.cls != .d) ++ l).head?

/-- How the completion of a request reaches its requester; a posted or broadcast request has none (R390, R391). -/
def reqTicket (f : Frame) : Ticket :=
  let h := reqHead f
  .fabric f.src f.tag f.epoch f.cls h.rroute h.rhop (h.posted || f.mode == .broadcast)

/-- A class C request for this node restarts the communication-loss timer (R242). -/
def feedTimer (f : Frame) (s : State) : State := if f.cls = .c ∧ s.sys.phase = .active then restartTimer s else s

/-- What an executed request reports: its wait of 1 µs or more as DELAYED (R391, R394). -/
def reportWait (wait : Nat) (d : Done) : Done :=
  if d.status = .ok ∧ 1000 ≤ wait then { d with status := .delayed, tval := wait }
  else if d.status = .delayed ∨ d.status = .refusedBusy then d else { d with tval := 0 }

/-- The completion that a re-issued request finds in the replay cache (R397): a READ of more than 4 words runs again. -/
def cachedAnswer (f : Frame) (s : State) : Option Cached :=
  if (reqHead f).reissue && !(f.type == .read && decide (4 < (reqHead f).count)) then (cacheOf f.src f.epoch s).find? (fun c => c.tag == f.tag && !c.rerun) else none

/-- A request from a gateway in another epoch empties that gateway's cache (R397). -/
def dropStale (f : Frame) (s : State) : State :=
  { s with fab := { s.fab with caches := s.fab.caches.filter (fun c => c.src != f.src || c.epoch == f.epoch) } }

/-- A refusal of a request, unless performing it would find a status that stands earlier in the order of R9. -/
def refusedRun (d : Done) (ran : Acc) (s : State) : Done :=
  match ran with
  | .done e => if rank e.status < rank d.status then Done.refuse e.status s else d
  | _ => d

/-- A request in its turn (R391-R393, R397): without a way to reply it is discarded; else the epoch is checked, a re-issue is answered from the
cache, a class D request that found the queue at its watermark is refused, and any other is executed by `run`. -/
def serve (e : Arrived) (run : Ticket → State → Acc) (s : State) : Out :=
  let f := e.frame
  let h := reqHead f
  let tk := reqTicket f
  let silent := h.posted || f.mode == .broadcast
  let s1 := dropStale f (feedTimer f (takeInbox e.arrival f s))
  if !silent && h.rhop == 0 && (homeSet f.src s1).isNone then .next (incSat Reg.FAB_ERR_NOPORT s1)
  else if !h.anyep && h.expep != ownEpoch s1 then (refusedRun (Done.refuse .nodeReset s1) (run tk s1) s1).via tk
  else
    match if silent then none else cachedAnswer f s1 with
    | some c => .next (sendCpl f.src f.tag f.cls h.rroute h.rhop (cplWord c.status c.tval true :: c.data) s1)
    | none =>
      if e.tooMany then (refusedRun (Done.busyFree s1) (run tk s1) s1).via tk
      else
        match run tk s1 with
        | .done d => (reportWait (s1.now - e.since) d).via tk
        | a => a.via tk

/-- A request of an expected kind that arrived on a port: it is served when its turn has come. -/
def request (kind : Frame → Bool) (arrival : Nat) (f : Frame) (run : Ticket → State → Acc) (s : State) : Out :=
  if !kind f || !linksRun s then .next s
  else
    let s0 := withArrival arrival f s
    match nextRequest s0 with
    | some e => if e.arrival = arrival ∧ e.frame = f then serve e run s0 else .next s
    | none => .next s

/-- READ_REQUEST (R390-R393, R397, R579). -/
def execReadRequest (arrival : Fin 4) (f : Frame) (s : State) : Out :=
  request (fun g => g.type == .read) arrival.val f (fun _ t => localRead (.node f.src) (reqHead f).addr (reqHead f).count t) s

/-- WRITE_REQUEST (R390-R393, R397, R545, R579). -/
def execWriteRequest (arrival : Fin 4) (f : Frame) (s : State) : Out :=
  request (fun g => g.type == .write) arrival.val f
    (fun tk t => localWrite (.node f.src) tk (f.cls == .d) (reqHead f).addr ((f.payload.drop 4).take (reqHead f).count) t) s

/-! ## Enumeration requests -/

/-- An ENUM request with a given OP. -/
def isEnum (op : Nat) (f : Frame) : Bool := f.type == .enumeration && reqOp f == op

/-- The report of R401 for a request that arrived on a port. -/
def enumReport (arrival : Nat) (s : State) : List Word :=
  let role := if hasRole s then 1 else if getF Reg.HST_STAT_GEN s = 1 then 2 else 0
  let portByte (n : Nat) : Nat := if portUp n s then 1 + 2 * getF (Reg.LNK_PSTAT_PPORT n) s else 0
  [BitVec.ofNat 32 (2 ^ 16 * ownEpoch s + 2 ^ 8 * arrival + 2 ^ 6 * role + 2 ^ 5 * b2n s.fab.enumr),
   reg s Reg.FAB_UID0, reg s Reg.FAB_UID1,
   BitVec.ofNat 32 (0x8000 * b2n (bit Reg.FAB_ID_VALID s) + getF Reg.FAB_ID_ID s),
   BitVec.ofNat 32 (((List.range 4).map (fun n => portByte n * 2 ^ (8 * n))).sum)]

/-- PROBE (R401). -/
def execProbe (arrival : Fin 4) (f : Frame) (s : State) : Out :=
  request (isEnum 1) arrival.val f (fun _ t => .done (Done.read (enumReport arrival.val t) t)) s

/-- A node takes the ID of an ASSIGN with its own UID (R401). -/
def takeId (f : Frame) (s : State) : State :=
  if nth f.payload 3 0#32 = reg s Reg.FAB_UID0 ∧ nth f.payload 4 0#32 = reg s Reg.FAB_UID1 then
    s |> setF Reg.FAB_ID_ID (getBits (nth f.payload 5 0#32) 0 10) |> setB Reg.FAB_ID_VALID true
  else s

/-- ASSIGN (R401, R467): an ID changes which device is the time root under AUTO. -/
def execAssign (arrival : Fin 4) (f : Frame) (s : State) : Out :=
  request (isEnum 2) arrival.val f
    (fun _ t => .done (Done.read (enumReport arrival.val (refreshRoot (takeId f t))) (refreshRoot (takeId f t)))) s

/-- ROUTES (R401): a second gateway writes the entry into its route table; entry 1023 is not used (R404). -/
def execRoutes (arrival : Fin 4) (f : Frame) (s : State) : Out :=
  request (isEnum 3) arrival.val f (fun _ t =>
    let id := getBits (nth f.payload 3 0#32) 0 10
    if hasRole t && !enumeratesHere t && id != 1023 then .done (Done.ok (setEntry id (readEntry ((f.payload.drop 4).take 16)) t)) else .done (Done.ok t)) s

/-! ## Sessions -/

/-- A SESSION request with a given OP. -/
def isSession (op : Nat) (f : Frame) : Bool := f.type == .session && reqOp f == op

/-- A mask and FILL that an OPEN may not have (R411). -/
def maskBad (mask : Word) (fill : Nat) (s : State) : Bool :=
  let n := (maskChannels mask).length
  n == 0 || mask &&& ~~~(reg s Reg.CMS_CHEN) &&& 0x01FFFFFF#32 != 0#32 || fill == 0 || decide (126 / n < fill)

/-- Both routes of a home set have failed; one without alternate counts as its alternate failed (R408, R411). -/
def homeDead (k : Nat) (s : State) : Bool :=
  bit (Reg.FAB_HOME_HCTL_PFAIL k) s && (getF (Reg.FAB_HOME_HCTL_AHOP k) s == 0 || bit (Reg.FAB_HOME_HCTL_AFAIL k) s)

/-- The operation that words 2 to 5 of a SESSION request describe (R411, R413, R414), with its checks in the order of R9. -/
def sessionDone (w2 w3 w4 w5 : Word) (s : State) : Done :=
  let op := getBits w2 0 8
  let k := getBits w2 8 8
  let gw := getBits w2 16 2
  let e := sessionOf k s
  let mask := w3 &&& 0x01FFFFFF#32
  let fill := getBits w4 8 7
  if decide (2 ≤ gw) || !bit (Reg.FAB_HOME_HCTL_VALID gw) s || homeDead gw s then Done.refuse .noRoute s
  else if op ≠ 1 ∧ e.state = 0 then Done.refuse .badAddress s
  else
    match op with
    | 1 =>
      if e.state ≠ 0 ∨ maskBad mask fill s then Done.refuse .checkFail s
      else
        let first := if w4.getLsbD 16 then w5.toNat else (reg s Reg.CMS_HWIDX).toNat
        Done.ok (setSession k ⟨gw, getBits w4 0 8, fill, mask, 1, first, 0#32, [], first⟩ s)
    | 2 => Done.ok (setSession k { e with state := 0 } s)
    | 3 => Done.ok (setSession k { e with gw := gw, state := 1, next := w5.toNat, resentTo := laterWord e.resentTo e.next } s)
    | 4 => Done.ok (setSession k { e with state := 2 } s)
    | _ => Done.ok s

/-- The operation as an access: an OPEN while a change of `CMS_CHEN` waits is a host error (R129, R420). -/
def sessionOp (w2 w3 w4 w5 : Word) (s : State) : Acc :=
  let d := sessionDone w2 w3 w4 w5 s
  if getBits w2 0 8 = 1 ∧ d.status = .ok ∧ (s.cms.layoutHeld = true ∨ s.cms.calChen.isSome = true) then .hostError s else .done d

/-- The session operation of a SESSION request. -/
def sessionRun (f : Frame) (_tk : Ticket) (s : State) : Acc :=
  sessionOp (nth f.payload 2 0#32) (nth f.payload 3 0#32) (nth f.payload 4 0#32) (nth f.payload 5 0#32) s

/-- SESSION_OPEN (R411). -/
def execSessionOpen (arrival : Fin 4) (f : Frame) (s : State) : Out := request (isSession 1) arrival.val f (sessionRun f) s

/-- SESSION_CLOSE (R411). -/
def execSessionClose (arrival : Fin 4) (f : Frame) (s : State) : Out := request (isSession 2) arrival.val f (sessionRun f) s

/-- SESSION_RESUME (R411, R413). -/
def execSessionResume (arrival : Fin 4) (f : Frame) (s : State) : Out := request (isSession 3) arrival.val f (sessionRun f) s

/-- SESSION_SUSPEND (R411, R414). -/
def execSessionSuspend (arrival : Fin 4) (f : Frame) (s : State) : Out := request (isSession 4) arrival.val f (sessionRun f) s

end Sys2Proof.Machine
end

