-- ==== Sys2Proof/Machine/HostCmd.lean ====
section
/-!
DEFINITION. Sys2Proof/Machine/HostCmd.lean: how a gateway carries out the commands of its host
(spec/12_host_interface.md R444-R447; spec/11_fabric_discovery_and_routing.md R390, R394, R395).
-/
namespace Sys2Proof.Machine

/-- The oldest command that has not begun: the gateway takes commands in ring order (R445, R448). -/
def nextCommand (s : State) : Option HostCmd := s.hst.cmds.find? (fun c => !c.begun)

/-- A command has begun. -/
def beginCommand (slot : Nat) (s : State) : State :=
  { s with hst := { s.hst with cmds := s.hst.cmds.map (fun c => if c.slot = slot then { c with begun := true } else c) } }

/-- BULK of a descriptor: class D. SESSION and ENUM are always class C (R444). -/
def descBulk (d : List Word) : Bool := (nth d 0 0#32).getLsbD 24 && (descOp d == 1 || descOp d == 2)

/-- NODE, ADDR and OPW of a descriptor (R444). -/
def descNode (d : List Word) : Nat := getBits (nth d 1 0#32) 0 10
def descAddr (d : List Word) : Nat := getBits (nth d 3 0#32) 0 20
def descOpw (d : List Word) : Word := nth d 7 0#32

/-- Whether the unit whose registers or window lie at a local address is fenced (R446; DEDUCED notes/assumptions/40.md). -/
def unitFenced (a : Nat) (s : State) : Bool :=
  if (0x2000 ≤ a ∧ a < 0x2800) ∨ (0x30000 ≤ a ∧ a < 0x34000) then bit Reg.FLT_FENCE0_IMP s
  else if 0x3000 ≤ a ∧ a < 0x3800 then bit Reg.FLT_FENCE0_CNV s
  else if 0x3800 ≤ a ∧ a < 0x4000 then bit Reg.FLT_FENCE0_CTL s
  else if 0x4100 ≤ a ∧ a < 0x4200 then (getF Reg.FLT_FENCE0_PORT s).testBit ((a - 0x4100) / 0x40)
  else if 0x5000 ≤ a ∧ a < 0x5800 then bit Reg.FLT_FENCE0_HST s
  else false

/-- The class D commands that have begun and not completed, oldest first (R446). -/
def bulkOut (s : State) : List HostCmd := s.hst.cmds.filter (fun c => c.begun && descBulk c.desc)

/-- The data words of a WRITE (R444): in the descriptor, after it in the CMD frame of generation 2, or as the DMA read from DPTR returned
them. -/
def writeData (c : HostCmd) (dma : List Word) : List Word :=
  if descInline c.desc then (c.desc.drop 8).take (descCount c.desc)
  else (if c.data.isEmpty then dma else c.data).take (descCount c.desc)

/-- A READ or WRITE that the gateway performs on its own local space (R445). -/
def ownAccess (dma : List Word) (c : HostCmd) (s : State) : Acc :=
  let d := c.desc
  if descOp d = 1 then localRead .host (descAddr d) (descCount d) s
  else localWrite .host (.host c.slot) (descBulk d) (descAddr d) (writeData c dma) s

/-- Its address, or one of its words, is none that it can reach (R446, R578, R579). -/
def ownBadAddress (d : List Word) (s : State) : Bool :=
  let cls := addrClass (descAddr d)
  cls == .hole || cls == .reserved ||
    (if descOp d = 1 then readRefused (descAddr d) (descCount d) else writeRefused (descBulk d) (descAddr d) (descCount d) s)

/-- The status with which the gateway itself ends a command before it performs or sends anything (R9, R446), and its time; a NOP does neither. With the class D commands at
their watermark, an access of its own space reports what stands before REFUSED_BUSY in the order of R9. -/
def ownCheck (dma : List Word) (c : HostCmd) (s : State) : Option (Status × Nat) :=
  let d := c.desc
  let e := entryOf (descNode d) s
  let byNode := descMode d == 1 && descOp d != 0
  let locally := descMode d == 0 && (descOp d == 1 || descOp d == 2)
  if byNode && e.state == 2 then some (.noRoute, 0)
  else if byNode && (descNode d == 1023 || e.state == 0) then some (.badAddress, 0)
  else if locally && ownBadAddress d s then some (.badAddress, 0)
  else if locally && unitFenced (descAddr d) s then some (.refusedFenced, 0)
  else if descBulk d && decide (getF Reg.HST_DWM_DWM s ≤ (bulkOut s).length) then
    let busy := some (Status.refusedBusy, s.now - (((bulkOut s).map (fun x => x.since)).head?.getD s.now))
    match locally, ownAccess dma c s with
    | true, .done e => if rank e.status < rank .refusedBusy then some (e.status, e.tval) else busy
    | _, _ => busy
  else none

/-- Words 0 and 1 of the request that a descriptor describes (R390, R444). -/
def descPrefix (posted : Bool) (d : List Word) (s : State) : List Word :=
  let w0 := nth d 0 0#32
  let route := descMode d == 2
  let expep := if w0.getLsbD 26 then (entryOf (descNode d) s).epoch else getBits (nth d 1 0#32) 16 8
  [if route then nth d 15 0#32 else 0#32,
   BitVec.ofNat 32 ((if route then getBits (nth d 4 0#32) 16 5 else 0) + 2 ^ 8 * expep + 2 ^ 17 * b2n posted + 2 ^ 18 * b2n (w0.getLsbD 25))]

/-- The frame of a command for another node, with one of the free TAGs (R445). -/
def descFrame (t : FrameType) (payload : List Word) (tag : Nat) (d : List Word) (s : State) : Frame :=
  let cls := if descBulk d then Cls.d else Cls.c
  if descMode d = 2 then
    ⟨t, cls, .routeWord, nth d 2 0#32, getBits (nth d 1 0#32) 24 5, ownSrc s, 1023, ownEpoch s, tag, payload⟩
  else
    let r := (entryOf (descNode d) s).route
    ⟨t, cls, .nodeId, r.1, r.2, ownSrc s, descNode d, ownEpoch s, tag, payload⟩

/-- A command goes out as a request and is outstanding (R445). Without a free TAG it waits (R448). -/
def sendCommand (t : FrameType) (posted : Bool) (body : List Word) (c : HostCmd) (s : State) : State :=
  match pickTag s with
  | none => s
  | some tag =>
    let s1 := useFree (beginCommand c.slot s)
    let f := descFrame t (descPrefix posted c.desc s ++ body) tag c.desc s
    let r : Req := ⟨tag, some c.slot, if descMode c.desc = 1 then some (descNode c.desc) else none, f, descCount c.desc, false, s.now, none, 0⟩
    sendRouted f (refreshOut { s1 with fab := { s1.fab with reqs := s1.fab.reqs ++ [r] } })

/-- A broadcast WRITE (R445): it completes once its frame has left; on no port at all, at once (DEDUCED notes/assumptions/58.md). -/
def sendBroadcast (body : List Word) (c : HostCmd) (s : State) : State :=
  let s1 := beginCommand c.slot s
  let cls := if descBulk c.desc then Cls.d else Cls.c
  let payload := descPrefix true c.desc s ++ body
  let f : Frame := ⟨.write, cls, .broadcast, 0#32, 0, ownSrc s, 1023, ownEpoch s, 0, payload⟩
  let r : Req := ⟨256 + c.slot, some c.slot, none, f, 0, false, s.now, none, 0⟩
  let s2 := broadcast .write cls payload (refreshOut { s1 with fab := { s1.fab with reqs := s1.fab.reqs ++ [r] } })
  if r.waits s2 then s2 else finishReq r .ok [] 0 false 0 s2

/-- The oldest waiting command, when it has a given OP and the device holds the role: the gateway ends it at once (R446), or performs it. -/
def command (op : Nat) (dma : List Word) (run : HostCmd → State → Out) (s : State) : Out :=
  match nextCommand s with
  | none => .next s
  | some c =>
    if !coreUp s || !hasRole s || descOp c.desc != op then .next s
    else
      match ownCheck dma c s with
      | some (st, t) => .next (complete (.host c.slot) st [] t (beginCommand c.slot s))
      | none => run c s

/-- NOP (R445). -/
def execNop (s : State) : Out := command 0 [] (fun c t => .next (complete (.host c.slot) .ok [] 0 (beginCommand c.slot t))) s

/-- READ (R445, R446). -/
def execRead (s : State) : Out :=
  command 1 [] (fun c t =>
    let d := c.desc
    if descMode d = 0 then (ownAccess [] c (beginCommand c.slot t)).via (.host c.slot)
    else .next (sendCommand .read false [BitVec.ofNat 32 (descAddr d), BitVec.ofNat 32 (descCount d)] c t)) s

/-- The data of a WRITE stand at DPTR (R444). -/
def needsDma (c : HostCmd) : Bool := descOp c.desc == 2 && !descInline c.desc && c.data.isEmpty

/-- WRITE (R394, R441, R445, R446, R460): `dma` are the words at DPTR in host memory; while the device may perform no DMA, the command waits for them. -/
def execWrite (dma : List Word) (s : State) : Out :=
  if (nextCommand s).any needsDma && !isGen2 s && !dmaAllowed s then .next s
  else command 2 dma (fun c t =>
    let d := c.desc
    let data := writeData c dma
    let body := [BitVec.ofNat 32 (descAddr d), BitVec.ofNat 32 (descCount d)] ++ data
    if descMode d = 0 then (ownAccess dma c (beginCommand c.slot t)).via (.host c.slot)
    else if descMode d = 3 then .next (sendBroadcast body c t)
    else .next (sendCommand .write ((nth d 0 0#32).getLsbD 27) body c t)) s

/-- SESSION (R411, R445): for the gateway itself the operation acts on its own sessions. -/
def execSession (s : State) : Out :=
  command 3 [] (fun c t =>
    let d := c.desc
    if descMode d = 0 then
      (sessionOp (descOpw d) (nth d 8 0#32) (nth d 9 0#32) (nth d 10 0#32) (beginCommand c.slot t)).via (.host c.slot)
    else .next (sendCommand .session false [descOpw d, nth d 8 0#32, nth d 9 0#32, nth d 10 0#32] c t)) s

/-- ENUM (R399, R445, R446): the command completes at the end of the run, with `FAB_ENSTAT`. -/
def execEnum (s : State) : Out :=
  command 4 [] (fun c t =>
    let mode := getBits (descOpw c.desc) 0 2
    let t1 := beginCommand c.slot t
    let d := if mode = 0 then Done.ok t1 else enumCommand mode (.host c.slot) t1
    { d with data := [reg d.st Reg.FAB_ENSTAT] }.via (.host c.slot)) s

end Sys2Proof.Machine
end

