-- ==== Sys2Proof/Machine/Gen1.lean ====
section
/-!
DEFINITION. Sys2Proof/Machine/Gen1.lean: the two emulated forerunner devices, over generation 1 SPI and over the legacy chain
(spec/12_host_interface.md R424-R431; spec/10_izarlink_links.md R369-R371).
-/
namespace Sys2Proof.Machine

/-! ## Register map of the emulation -/

/-- The cells of an emulated device (R427). -/
def devCells (d : Nat) : List Nat := (List.range 12).map (fun i => 12 * d + i + 1)

/-- Any of a device's cells has its bit set. -/
def devAny (d : Nat) (w : Word) : Bool := (devCells d).any (fun n => w.getLsbD n)

/-- A device's twelve cell bits, cell 1 of the device in bit 0. -/
def devBits (d : Nat) (w : Word) : Nat := getBits w (12 * d + 1) 12

/-- Twelve bits moved to a device's cells. -/
def cellWord (d v : Nat) : Word := BitVec.ofNat 32 ((v % 4096) * 2 ^ (12 * d + 1))

/-- The FAULT register (R429). -/
def g1Fault (d : Nat) (s : State) : Nat :=
  let stands (src : Nat) : Bool := natMem src s.flt.lines
  let blamed := reg s Reg.XCK_BLAMEP ||| reg s Reg.XCK_BLAMES ||| reg s Reg.CMS_FENCE ||| reg s Reg.FLT_FENCE1
  b2n (devAny d (reg s Reg.CPB_OVFLAG)) + 2 * b2n (devAny d (reg s Reg.CPB_UVFLAG))
    + 4 * b2n (getBits (reg s Reg.XCK_OWSTAT) (12 * d) 13 != 0) + 8 * b2n (devAny d (reg s Reg.XCK_XMIS))
    + 16 * b2n (devAny d blamed || stands 45)
    + 32 * b2n (getF Reg.THM_STAT_BAND s == 3 || [112, 113, 114, 115].any stands)
    + (nth s.hst.g1latch d 0 % 1024) / 64 % 4 * 64 + 256 * b2n ((List.range 6).any stands)
    + nth s.hst.g1latch d 0 / 512 % 2 * 512

/-- The STAT byte (R429). -/
def g1Stat (d : Nat) (s : State) : Nat :=
  b2n (g1Fault d s != 0) + 2 * b2n (nth s.hst.g1new d false) + 4 * b2n ((devCells d).any (fun n => conducts n s)) + 8
    + 16 * b2n s.hst.g1crc + 32 * b2n s.hst.g1reg

/-- The stored code of a cell: left-aligned, 256 codes for each µV (R109, R428). -/
def cellCode (n : Nat) (s : State) : Int := (reg s (Reg.CMS_LAST (2 * n))).toInt

/-- A cell in 100 µV units: the floor; 0 when negative, 0xFFFF above 6.5535 V (R428). -/
def g1Cell (n : Nat) (s : State) : Nat := (clampI (cellCode n s / 25600) 0 0xFFFF).toNat

/-- The sum of a device's cells in mV, saturating; a negative sum has no stated value, and it is a free one (R428). -/
def g1Modv (d : Nat) (s : State) : Nat :=
  let sum := ((devCells d).map (fun n => cellCode n s)).sum
  if sum < 0 then (freeWord s).toNat % 65536 else min (openDiv sum 256000).toNat 0xFFFF

/-- An auxiliary input in 100 µV units, or 0xFFFF while VALID is 0; a negative result has no stated value (R428). -/
def g1Aux (k : Nat) (s : State) : Nat :=
  let w := reg s (Reg.XCK_AX k)
  if !resultValid w then 0xFFFF
  else if resultValue w < 0 then (freeWord s).toNat % 65536
  else min (openDiv (resultValue w) 100).toNat 0xFFFF

/-- Whether the map lists a register (R428). -/
def g1Listed (r : Nat) : Bool := decide (r ≤ 0x0B) || (decide (0x10 ≤ r) && decide (r ≤ 0x1C)) || (decide (0x20 ≤ r) && decide (r ≤ 0x27)) || r == 0x30

/-- What a register reads (R428, R430); an unlisted one reads 0. -/
def g1Read (d r : Nat) (s : State) : Nat :=
  if 0x10 ≤ r ∧ r ≤ 0x1B then g1Cell (12 * d + (r - 0x10) + 1) s
  else if 0x20 ≤ r ∧ r ≤ 0x27 then g1Aux (8 * d + (r - 0x20)) s
  else
    match r with
    | 0x00 => 0x1214
    | 0x01 => g1Stat d s
    | 0x02 => g1Fault d s
    | 0x04 => getF Reg.CMS_CFG_RATE s
    | 0x05 => getF Reg.CPB_OVTH_TH s * 5
    | 0x06 => getF Reg.CPB_UVTH_TH s * 5
    | 0x07 => devBits d (reg s Reg.CPB_BALCMD)
    | 0x08 => getF Reg.CPB_CLTCFG_PERIOD s + 1
    | 0x09 => devBits d (reg s Reg.CPB_OVFLAG)
    | 0x0A => devBits d (reg s Reg.CPB_UVFLAG)
    | 0x0B => getBits (reg s Reg.XCK_OWSTAT) (12 * d) 13
    | 0x1C => g1Modv d s
    | 0x30 => getF Reg.THM_STAT_HOT s
    | _ => 0

/-- The threshold that a value in mV sets; a value outside 500 to 5500 has no stated effect on it, and it is free (R428). -/
def g1Threshold (v : Nat) (s : State) : Nat := if 500 ≤ v ∧ v ≤ 5500 then v / 5 else (freeWord s).toNat % 2048

/-- A write of one register (R428, R430). RO and unlisted registers keep their values. -/
def g1Write (d r v : Nat) (s : State) : State :=
  match r with
  | 0x03 => { s with hst := { s.hst with g1latch := setNth s.hst.g1latch d (nth s.hst.g1latch d 0 &&& (0x2C0 ^^^ (v &&& 0x2C0))) } }
  | 0x04 => (writeCmsCfg (putBits (reg s Reg.CMS_CFG) 0 2 (v % 4)) s).st
  | 0x05 => useFree (setF Reg.CPB_OVTH_TH (g1Threshold v s) s)
  | 0x06 => useFree (setF Reg.CPB_UVTH_TH (g1Threshold v s) s)
  | 0x07 => setReg Reg.CPB_BALCMD ((reg s Reg.CPB_BALCMD &&& ~~~(cellWord d 4095)) ||| cellWord d v) s
  | 0x08 => useFree (writeTimerPeriod (if 1 ≤ v ∧ v ≤ 1000 then v - 1 else (freeWord s).toNat % 1000) s)
  | 0x09 => clearFlags true (cellWord d v) s
  | 0x0A => clearFlags false (cellWord d v) s
  | _ => s

/-- Consecutive registers read. -/
def g1ReadMany (d r n : Nat) (s : State) : List Nat := (List.range n).map (fun i => g1Read d (r + i) s)

/-- Consecutive registers written. -/
def g1WriteMany (d r : Nat) : List Nat → State → State
  | [], s => s
  | v :: l, s => g1WriteMany d (r + 1) l (g1Write d r v s)

/-- A write that brings the over-voltage threshold too near the under-voltage threshold is a host error (R6, R247). -/
def g1Bad (d r : Nat) : List Nat → State → Bool
  | [], _ => false
  | v :: l, s => (r == 0x05 && decide (500 ≤ v) && decide (v ≤ 5500) && thresholdsClose (v / 5) s) || g1Bad d (r + 1) l (g1Write d r v s)

/-- An access names a register that the map does not list. -/
def g1Unlisted (r n : Nat) : Bool := (List.range n).any (fun i => !g1Listed (r + i))

/-- The transaction under way names an unlisted register: bit 5 of STAT is set in its own response too (R428; DEDUCED notes/assumptions/61.md). -/
def g1Names (r n : Nat) (s : State) : State := { s with hst := { s.hst with g1reg := s.hst.g1reg || g1Unlisted r n } }

/-- What a transaction leaves for the next STAT: its CRC passed, and whether it named an unlisted register (R428, R429). A read of a CELL
register clears NEW. -/
def g1After (d r n : Nat) (rd : Bool) (s : State) : State :=
  let cell := rd && (List.range n).any (fun i => decide (0x10 ≤ r + i) && decide (r + i ≤ 0x1B))
  { s with hst := { s.hst with
      g1crc := false
      g1reg := g1Unlisted r n
      g1new := if cell then setNth s.hst.g1new d false else s.hst.g1new } }

/-- The response of a transaction: the turnaround byte, STAT, the words of a read, and the CRC-16 over them (R426). -/
def g1Reply (d : Nat) (words : List Nat) (s : State) : List Byte :=
  let bs := natBytes 1 (g1Stat d s) ++ words.flatMap (natBytes 2)
  natBytes 1 0 ++ bs ++ natBytes 2 (crc16 bs).toNat

/-! ## Generation 1 SPI -/

/-- In generation 1, HIRQN is low while FLT is set in either device (R431). -/
def gen1Irq (s : State) : Bool := g1Fault 0 s != 0 || g1Fault 1 s != 0

/-- Whether the device drives HIRQN low (R48, R431, R436): by the generation of the SPI pins, and not while generation 3 holds the role; in
STANDBY and in reset it is released. -/
def hirqnLow (s : State) : Bool :=
  hostPins s && !gen3Holds s && (if s.hst.spi = 1 then gen1Irq s else s.hst.spi == 2 && gen2Irq s)

/-- The pins settle generation 1 (R424): PCI Express stays powered down until the next device reset. -/
def settleGen1 (s : State) : State :=
  if s.hst.spi = 0 then setF Reg.HST_STAT_GEN 1 { s with hst := { s.hst with spi := 1, phyDown := true } } else s

/-- A generation 1 transaction with a good CRC (R242, R424, R426): ignored while generation 3 holds the role, counted on pins that have settled
generation 2; else it acts and restarts the communication-loss timer. A COUNT of 0 or above 16, or bits [4:0] of byte 0 other than 0, is a host error
(R6, R462). -/
def g1Transaction (low count : Nat) (act : State → Out) (s : State) : Out :=
  if !hostPins s || gen3Holds s then .next s
  else if s.hst.spi = 2 then .next (incSat Reg.HST_CNT_OTHER s)
  else if low ≠ 0 ∨ count = 0 ∨ 16 < count then .next (upset s)
  else act (restartTimer (settleGen1 s))

/-- GEN1_READ (R426-R429). -/
def execGen1Read (dev : Fin 2) (low : Fin 32) (r : Fin 256) (count : Fin 256) (s : State) : Out :=
  g1Transaction low.val count.val (fun t0 =>
    let t := g1Names r.val count.val t0
    let words := g1ReadMany dev.val r.val count.val t
    .next (useFree (g1After dev.val r.val count.val true { t with hst := { t.hst with reply := g1Reply dev.val words t } }))) s

/-- GEN1_WRITE (R426-R430): the write acts when CSN rises, after the response. -/
def execGen1Write (dev : Fin 2) (low : Fin 32) (r : Fin 256) (words : List (Fin 65536)) (s : State) : Out :=
  g1Transaction low.val words.length (fun t0 =>
    let t := g1Names r.val words.length t0
    let l := words.map (fun w => w.val)
    if g1Bad dev.val r.val l t then .next (upset t)
    else
      let t1 := g1After dev.val r.val l.length false { t with hst := { t.hst with reply := g1Reply dev.val [] t } }
      .next (g1WriteMany dev.val r.val l t1)) s

/-! ## The legacy chain -/

/-- The bytes of a command frame that its CRC covers: byte 1 to the end of DATA (R369). -/
def legacyBody (bytes : List Byte) : List Byte := (bytes.drop 1).take (bytes.length - 3)

/-- OP, POS, REG, COUNT and the data words of a command frame (R369). -/
def legacyOp (bytes : List Byte) : Nat := byteAt bytes 1 / 64
def legacyPos (bytes : List Byte) : Nat := byteAt bytes 1 % 64
def legacyWords (bytes : List Byte) : List Nat :=
  (List.range (byteAt bytes 3)).map (fun i => numAt bytes (4 + 2 * i) 2)

/-- A command frame that passes its checks: SYNC, CRC, COUNT, and the length that OP and COUNT give (R369, R371). -/
def legacyGood (bytes : List Byte) : Bool :=
  let n := byteAt bytes 3
  let data := if legacyOp bytes = 1 ∨ legacyOp bytes = 2 then 2 * n else 0
  byteAt bytes 0 == 0xA5 && decide (6 ≤ bytes.length) && numAt bytes (bytes.length - 2) 2 == (crc16 (legacyBody bytes)).toNat
    && (legacyOp bytes == 3 || (decide (1 ≤ n) && decide (n ≤ 16) && bytes.length == 6 + data))

/-- An address assignment as it is passed on: POS raised by 2, with the CRC that fits (R371). -/
def legacyPassOn (bytes : List Byte) : List Byte :=
  let body := natBytes 1 (legacyOp bytes * 64 + (legacyPos bytes + 2) % 64) ++ (legacyBody bytes).drop 1
  natBytes 1 0xA5 ++ body ++ natBytes 2 (crc16 body).toNat

/-- A response frame (R369). -/
def legacyResponse (pos d : Nat) (words : List Nat) (s : State) : List Byte :=
  let body := natBytes 1 pos ++ natBytes 1 (g1Stat d s) ++ words.flatMap (natBytes 2)
  natBytes 1 0x5A ++ body ++ natBytes 2 (crc16 body).toNat

/-- Whether a command frame addresses the emulated device `d` of a device whose first position is `first`. -/
def legacyNames (bytes : List Byte) (first d : Nat) : Bool :=
  legacyOp bytes == 2 || legacyPos bytes == first + d || legacyPos bytes == 63

/-- One emulated device acts on a read or a write and answers towards P0; a broadcast write is not answered. -/
def legacyAct (bytes : List Byte) (first d : Nat) (s0 : State) : State :=
  let op := legacyOp bytes
  let r := byteAt bytes 2
  let n := byteAt bytes 3
  let pos := first + d
  if !legacyNames bytes first d then s0
  else
    let s := g1Names r n s0
    let words := if op = 0 then g1ReadMany d r n s else []
    let s1 := if op = 2 then s else putFrames 0 ((port 0 s).line ++ [legacyResponse pos d words s]) s
    let s2 := g1After d r n (op == 0) s1
    if op = 0 then useFree s2 else g1WriteMany d r (legacyWords bytes) s2

/-- A valid command frame in a device that link wake on P0 or P1 has taken out of SENTINEL counts as training (R69, R368). -/
def legacyTrained (s : State) : State :=
  match s.sys.wakePort with
  | some n => clearFalseWake n { s with sys := { s.sys with wakePort := none } }
  | none => clearFalseWake 0 s

/-- LEGACY_COMMAND_FRAME (R27, R242, R247, R369-R371): the frame is passed on to P1; a valid one restarts the timer and is acted on; a failed
one, or a code violation, is counted with an event of source 92. -/
def execLegacyCommandFrame (bytes : List Byte) (codeViolation : Bool) (s : State) : Out :=
  if !(linksRun s && legacyMode s && portState 0 s == portLegacy) then .next s
  else
    let s0 := putFrames 0 [] s
    if codeViolation then .next (linkError 0 (Reg.LNK_ERRB_CODE 0) (putFrames 1 [bytes] s0))
    else if !legacyGood bytes then
      let s1 := linkError 0 (Reg.LNK_ERRA_PCRC 0) (putFrames 1 [bytes] s0)
      .next { s1 with hst := { s1.hst with g1crc := true } }
    else
      let s1 := legacyTrained (restartTimer s0)
      if legacyOp bytes = 3 then
        .next (putFrames 1 [legacyPassOn bytes] { s1 with lnk := { s1.lnk with chain := some (legacyPos bytes) } })
      else
        let s2 := putFrames 1 [bytes] s1
        match s2.lnk.chain with
        | none => .next s2
        | some first =>
          if legacyOp bytes ≠ 0 ∧ [0, 1].any (fun d => legacyNames bytes first d && g1Bad d (byteAt bytes 2) (legacyWords bytes) s2) then .next (upset s2)
          else .next (legacyAct bytes first 1 (legacyAct bytes first 0 s2))

end Sys2Proof.Machine
end

