-- ==== Sys2Proof/Machine/Dispatch.lean ====
section
/-!
DEFINITION. Sys2Proof/Machine/Dispatch.lean: the effect of every command on everything but the queue: one arm for each constructor.
-/
namespace Sys2Proof.Machine

def exec (i : Instr) (s : State) : Host.Outcome State Fault Refusal :=
  match i with
  | .registerWrite req a words sets => Sys2Proof.Machine.execRegisterWrite req a words sets s
  | .registerReadClear req a n gains => Sys2Proof.Machine.execRegisterReadClear req a n gains s
  | .gen3LinkUp fast => Sys2Proof.Machine.execGen3LinkUp fast s
  | .harnessWireChange wire isOpen => Sys2Proof.Machine.execHarnessWireChange wire isOpen s
  | .lcmPinChange level => Sys2Proof.Machine.execLcmPinChange level s
  | .vmodThresholdCross q rising => Sys2Proof.Machine.execVmodThresholdCross q rising s
  | .vinThresholdCross rising => Sys2Proof.Machine.execVinThresholdCross rising s
  | .vinQualified => Sys2Proof.Machine.execVinQualified s
  | .buckLimitTimeout => Sys2Proof.Machine.execBuckLimitTimeout s
  | .railWarning rail outside => Sys2Proof.Machine.execRailWarning rail outside s
  | .referenceMismatch differ => Sys2Proof.Machine.execReferenceMismatch differ s
  | .railBrownOut rail => Sys2Proof.Machine.execRailBrownOut rail s
  | .powerOnReset wakeHigh vinAbove vmodAon vmodOk => Sys2Proof.Machine.execPowerOnReset wakeHigh vinAbove vmodAon vmodOk s
  | .pwrcmdShelf => Sys2Proof.Machine.execPwrcmdShelf s
  | .pwrcmdSentinel => Sys2Proof.Machine.execPwrcmdSentinel s
  | .pwrcmdStandby => Sys2Proof.Machine.execPwrcmdStandby s
  | .pwrcmdActive => Sys2Proof.Machine.execPwrcmdActive s
  | .powerTransitionStart => Sys2Proof.Machine.execPowerTransitionStart s
  | .powerStateEntry => Sys2Proof.Machine.execPowerStateEntry s
  | .wakeRisingEdge => Sys2Proof.Machine.execWakeRisingEdge s
  | .wakeStuckTimeout => Sys2Proof.Machine.execWakeStuckTimeout s
  | .wakeLowClear => Sys2Proof.Machine.execWakeLowClear s
  | .wakeTimerExpiry => Sys2Proof.Machine.execWakeTimerExpiry s
  | .linkWakeDetect port => Sys2Proof.Machine.execLinkWakeDetect port s
  | .linkWakeTrainTimeout => Sys2Proof.Machine.execLinkWakeTrainTimeout s
  | .wakeFilterPass => Sys2Proof.Machine.execWakeFilterPass s
  | .buckSoftStartDone => Sys2Proof.Machine.execBuckSoftStartDone s
  | .coreResetRelease romOk => Sys2Proof.Machine.execCoreResetRelease romOk s
  | .cpllLock => Sys2Proof.Machine.execCpllLock s
  | .tpllLock => Sys2Proof.Machine.execTpllLock s
  | .nvmCheckDone trimOk => Sys2Proof.Machine.execNvmCheckDone trimOk s
  | .profileApply => Sys2Proof.Machine.execProfileApply s
  | .activeEntry => Sys2Proof.Machine.execActiveEntry s
  | .sclkFailure => Sys2Proof.Machine.execSclkFailure s
  | .moscFailure => Sys2Proof.Machine.execMoscFailure s
  | .pllLossOfLock pll => Sys2Proof.Machine.execPllLossOfLock pll s
  | .deviceResetCommand => Sys2Proof.Machine.execDeviceResetCommand s
  | .controllerRestart => Sys2Proof.Machine.execControllerRestart s
  | .controllerWatchdogExpiry => Sys2Proof.Machine.execControllerWatchdogExpiry s
  | .controllerRestartDone romOk => Sys2Proof.Machine.execControllerRestartDone romOk s
  | .rstnAssert => Sys2Proof.Machine.execRstnAssert s
  | .rstnRelease => Sys2Proof.Machine.execRstnRelease s
  | .perstnAssert => Sys2Proof.Machine.execPerstnAssert s
  | .perstnStuckTimeout => Sys2Proof.Machine.execPerstnStuckTimeout s
  | .wordBoundary outs vmodLow => Sys2Proof.Machine.execWordBoundary outs vmodLow s
  | .cmsCfgWrite w => Sys2Proof.Machine.execCmsCfgWrite w s
  | .filterSettingApply => Sys2Proof.Machine.execFilterSettingApply s
  | .cmsChenWrite w => Sys2Proof.Machine.execCmsChenWrite w s
  | .historyLayoutChange => Sys2Proof.Machine.execHistoryLayoutChange s
  | .chopRateChange => Sys2Proof.Machine.execChopRateChange s
  | .recordValueRead req a => Sys2Proof.Machine.execRecordValueRead req a s
  | .recordTagRead req a => Sys2Proof.Machine.execRecordTagRead req a s
  | .hwidxRead req => Sys2Proof.Machine.execHwidxRead req s
  | .cmsSnapshotLatch => Sys2Proof.Machine.execCmsSnapshotLatch s
  | .modulatorOverload c => Sys2Proof.Machine.execModulatorOverload c s
  | .modulatorStuck c => Sys2Proof.Machine.execModulatorStuck c s
  | .filterParityFail c => Sys2Proof.Machine.execFilterParityFail c s
  | .intervalBoundary prim => Sys2Proof.Machine.execIntervalBoundary prim s
  | .xbFrameEnd xa xb => Sys2Proof.Machine.execXbFrameEnd xa xb s
  | .fallbackResult => Sys2Proof.Machine.execFallbackResult s
  | .auxConfigApply => Sys2Proof.Machine.execAuxConfigApply s
  | .converterSelfCheck xb => Sys2Proof.Machine.execConverterSelfCheck xb s
  | .crossCheckComparison => Sys2Proof.Machine.execCrossCheckComparison s
  | .openWireSweepStart => Sys2Proof.Machine.execOpenWireSweepStart s
  | .openWireTest baseLo baseHi withLo withHi => Sys2Proof.Machine.execOpenWireTest baseLo baseHi withLo withHi s
  | .suspectHoldExpiry k => Sys2Proof.Machine.execSuspectHoldExpiry k s
  | .balancingGateStart => Sys2Proof.Machine.execBalancingGateStart s
  | .balancingGateEnd => Sys2Proof.Machine.execBalancingGateEnd s
  | .harnessMeasurementStart tk => Sys2Proof.Machine.execHarnessMeasurementStart tk s
  | .harnessMeasurementDone => Sys2Proof.Machine.execHarnessMeasurementDone s
  | .impStart => Sys2Proof.Machine.execImpStart s
  | .impStop => Sys2Proof.Machine.execImpStop s
  | .planStart => Sys2Proof.Machine.execPlanStart s
  | .stepStart => Sys2Proof.Machine.execStepStart s
  | .windowOpen => Sys2Proof.Machine.execWindowOpen s
  | .windowClose samples => Sys2Proof.Machine.execWindowClose samples s
  | .stepEnd => Sys2Proof.Machine.execStepEnd s
  | .resultsWritten => Sys2Proof.Machine.execResultsWritten s
  | .excitationFadeDone => Sys2Proof.Machine.execExcitationFadeDone s
  | .pairTickReceive src epoch w => Sys2Proof.Machine.execPairTickReceive src epoch w s
  | .pairTickMissing => Sys2Proof.Machine.execPairTickMissing s
  | .impEngineFault results => Sys2Proof.Machine.execImpEngineFault results s
  | .comparatorTrip n isOv => Sys2Proof.Machine.execComparatorTrip n isOv s
  | .comparatorRelease n isOv => Sys2Proof.Machine.execComparatorRelease n isOv s
  | .sentinelComparatorSample ov uv => Sys2Proof.Machine.execSentinelComparatorSample ov uv s
  | .cpbFlagClear isOv bits sets => Sys2Proof.Machine.execCpbFlagClear isOv bits sets s
  | .comparatorCheck ovFlips uvFlips => Sys2Proof.Machine.execComparatorCheck ovFlips uvFlips s
  | .toneResume => Sys2Proof.Machine.execToneResume s
  | .faultPairReadbackError => Sys2Proof.Machine.execFaultPairReadbackError s
  | .neighbourStateChange cause => Sys2Proof.Machine.execNeighbourStateChange cause s
  | .neighbourStuckTimeout => Sys2Proof.Machine.execNeighbourStuckTimeout s
  | .faultPairModeChange => Sys2Proof.Machine.execFaultPairModeChange s
  | .balancingHalfBoundary => Sys2Proof.Machine.execBalancingHalfBoundary s
  | .switchOvercurrent n => Sys2Proof.Machine.execSwitchOvercurrent n s
  | .switchCheck n v => Sys2Proof.Machine.execSwitchCheck n v s
  | .cltcfgWrite period => Sys2Proof.Machine.execCltcfgWrite period s
  | .communicationLossExpiry => Sys2Proof.Machine.execCommunicationLossExpiry s
  | .cnvStart => Sys2Proof.Machine.execCnvStart s
  | .cnvStop => Sys2Proof.Machine.execCnvStop s
  | .cnvClrflt => Sys2Proof.Machine.execCnvClrflt s
  | .cnvLoadc => Sys2Proof.Machine.execCnvLoadc s
  | .coefficientLoad => Sys2Proof.Machine.execCoefficientLoad s
  | .cnvVselswWrite code => Sys2Proof.Machine.execCnvVselswWrite code s
  | .cnvVtgtWrite k mv => Sys2Proof.Machine.execCnvVtgtWrite k mv s
  | .vselCodeAccept code => Sys2Proof.Machine.execVselCodeAccept code s
  | .busPresent vbs => Sys2Proof.Machine.execBusPresent vbs s
  | .busLoss vbs => Sys2Proof.Machine.execBusLoss vbs s
  | .checkSampleEnd means => Sys2Proof.Machine.execCheckSampleEnd means s
  | .driverWakeDone vbs => Sys2Proof.Machine.execDriverWakeDone vbs s
  | .shsTestPartEnd means vbsRise vbs => Sys2Proof.Machine.execShsTestPartEnd means vbsRise vbs s
  | .softStartComplete => Sys2Proof.Machine.execSoftStartComplete s
  | .shortDetect => Sys2Proof.Machine.execShortDetect s
  | .hiccupOffElapsed => Sys2Proof.Machine.execHiccupOffElapsed s
  | .hiccupCountClear => Sys2Proof.Machine.execHiccupCountClear s
  | .rampDownComplete => Sys2Proof.Machine.execRampDownComplete s
  | .switchingPeriod sense valley vbs vmod => Sys2Proof.Machine.execSwitchingPeriod sense valley vbs vmod s
  | .phaseEqualisation => Sys2Proof.Machine.execPhaseEqualisation s
  | .trimLimitTimeout n => Sys2Proof.Machine.execTrimLimitTimeout n s
  | .shedDecision => Sys2Proof.Machine.execShedDecision s
  | .shedWindowEnd => Sys2Proof.Machine.execShedWindowEnd s
  | .loadStepDetect => Sys2Proof.Machine.execLoadStepDetect s
  | .shedHoldExpiry => Sys2Proof.Machine.execShedHoldExpiry s
  | .brakingStart => Sys2Proof.Machine.execBrakingStart s
  | .brakingEnd => Sys2Proof.Machine.execBrakingEnd s
  | .crowbarFire vbs => Sys2Proof.Machine.execCrowbarFire vbs s
  | .cycleLimit n sense => Sys2Proof.Machine.execCycleLimit n sense s
  | .currentLimitSustained => Sys2Proof.Machine.execCurrentLimitSustained s
  | .hardTrip n sense => Sys2Proof.Machine.execHardTrip n sense s
  | .transferOvervoltage vbs => Sys2Proof.Machine.execTransferOvervoltage vbs s
  | .moduleVoltageFault vmod => Sys2Proof.Machine.execModuleVoltageFault vmod s
  | .pinReadbackMismatch n => Sys2Proof.Machine.execPinReadbackMismatch n s
  | .compensatorMismatch => Sys2Proof.Machine.execCompensatorMismatch s
  | .csyncEdge => Sys2Proof.Machine.execCsyncEdge s
  | .syncLoss => Sys2Proof.Machine.execSyncLoss s
  | .csyncStuck => Sys2Proof.Machine.execCsyncStuck s
  | .controlTick vbs vmod itot => Sys2Proof.Machine.execControlTick vbs vmod itot s
  | .summingUpdate => Sys2Proof.Machine.execSummingUpdate s
  | .loadlut => Sys2Proof.Machine.execLoadlut s
  | .targetWrite w => Sys2Proof.Machine.execTargetWrite w s
  | .trackingFault => Sys2Proof.Machine.execTrackingFault s
  | .outputAtLimit => Sys2Proof.Machine.execOutputAtLimit s
  | .ctlEngineFault parity => Sys2Proof.Machine.execCtlEngineFault parity s
  | .partnerTrainingDetect n => Sys2Proof.Machine.execPartnerTrainingDetect n s
  | .linkUp n lpar idles => Sys2Proof.Machine.execLinkUp n lpar idles s
  | .trainingAbandon n cause lpar => Sys2Proof.Machine.execTrainingAbandon n cause lpar s
  | .trainingSignalCycle n => Sys2Proof.Machine.execTrainingSignalCycle n s
  | .presetApply n => Sys2Proof.Machine.execPresetApply n s
  | .lpiEntry n => Sys2Proof.Machine.execLpiEntry n s
  | .lpiReceive n => Sys2Proof.Machine.execLpiReceive n s
  | .lpiExit n => Sys2Proof.Machine.execLpiExit n s
  | .linkWakeCommand n => Sys2Proof.Machine.execLinkWakeCommand n s
  | .wakePatternEnd n => Sys2Proof.Machine.execWakePatternEnd n s
  | .retrain n => Sys2Proof.Machine.execRetrain n s
  | .frameReceive n pairs => Sys2Proof.Machine.execFrameReceive n pairs s
  | .frameTransmit n => Sys2Proof.Machine.execFrameTransmit n s
  | .ackTimeout n a => Sys2Proof.Machine.execAckTimeout n a s
  | .signalEnergyLoss n => Sys2Proof.Machine.execSignalEnergyLoss n s
  | .receiveLockLoss n => Sys2Proof.Machine.execReceiveLockLoss n s
  | .retryBufferParity n => Sys2Proof.Machine.execRetryBufferParity n s
  | .legacyCommandFrame bytes codeViolation => Sys2Proof.Machine.execLegacyCommandFrame bytes codeViolation s
  | .legacyResponseFrame bytes => Sys2Proof.Machine.execLegacyResponseFrame bytes s
  | .readRequest arrival f => Sys2Proof.Machine.execReadRequest arrival f s
  | .writeRequest arrival f => Sys2Proof.Machine.execWriteRequest arrival f s
  | .probe arrival f => Sys2Proof.Machine.execProbe arrival f s
  | .assign arrival f => Sys2Proof.Machine.execAssign arrival f s
  | .routes arrival f => Sys2Proof.Machine.execRoutes arrival f s
  | .sessionOpen arrival f => Sys2Proof.Machine.execSessionOpen arrival f s
  | .sessionClose arrival f => Sys2Proof.Machine.execSessionClose arrival f s
  | .sessionResume arrival f => Sys2Proof.Machine.execSessionResume arrival f s
  | .sessionSuspend arrival f => Sys2Proof.Machine.execSessionSuspend arrival f s
  | .cplReceive arrival f => Sys2Proof.Machine.execCplReceive arrival f s
  | .transactionTimeout tag => Sys2Proof.Machine.execTransactionTimeout tag s
  | .tagRelease tag => Sys2Proof.Machine.execTagRelease tag s
  | .broadcastPairExpiry src tag => Sys2Proof.Machine.execBroadcastPairExpiry src tag s
  | .enumFull tk => Sys2Proof.Machine.execEnumFull tk s
  | .enumVerify tk => Sys2Proof.Machine.execEnumVerify tk s
  | .enumRecover tk => Sys2Proof.Machine.execEnumRecover tk s
  | .enumHoldExpiry => Sys2Proof.Machine.execEnumHoldExpiry s
  | .enumerationDone => Sys2Proof.Machine.execEnumerationDone s
  | .probeReportReceive arrival f => Sys2Proof.Machine.execProbeReportReceive arrival f s
  | .plannedSwitchResume k => Sys2Proof.Machine.execPlannedSwitchResume k s
  | .beatSend => Sys2Proof.Machine.execBeatSend s
  | .statusSend => Sys2Proof.Machine.execStatusSend s
  | .beatReceive n f => Sys2Proof.Machine.execBeatReceive n f s
  | .statusReceive arrival f => Sys2Proof.Machine.execStatusReceive arrival f s
  | .linkdownReceive arrival f => Sys2Proof.Machine.execLinkdownReceive arrival f s
  | .linkupReceive arrival f => Sys2Proof.Machine.execLinkupReceive arrival f s
  | .leaveReceive arrival f => Sys2Proof.Machine.execLeaveReceive arrival f s
  | .roleendReceive arrival f => Sys2Proof.Machine.execRoleendReceive arrival f s
  | .hoofbeatLost n => Sys2Proof.Machine.execHoofbeatLost n s
  | .statusMissed id => Sys2Proof.Machine.execStatusMissed id s
  | .streamFrameSend k => Sys2Proof.Machine.execStreamFrameSend k s
  | .eventFrameSend block => Sys2Proof.Machine.execEventFrameSend block s
  | .gen1Read dev low r count => Sys2Proof.Machine.execGen1Read dev low r count s
  | .gen1Write dev low r words => Sys2Proof.Machine.execGen1Write dev low r words s
  | .cmd arg bits => Sys2Proof.Machine.execCmd arg bits s
  | .getcpl => Sys2Proof.Machine.execGetcpl s
  | .getevt => Sys2Proof.Machine.execGetevt s
  | .getstr arg => Sys2Proof.Machine.execGetstr arg s
  | .ack cpl evt str => Sys2Proof.Machine.execAck cpl evt str s
  | .gen2HostTimeout => Sys2Proof.Machine.execGen2HostTimeout s
  | .doorbellWrite r idx => Sys2Proof.Machine.execDoorbellWrite r idx s
  | .ringEnable r => Sys2Proof.Machine.execRingEnable r s
  | .descriptorFetch descs => Sys2Proof.Machine.execDescriptorFetch descs s
  | .nop => Sys2Proof.Machine.execNop s
  | .read => Sys2Proof.Machine.execRead s
  | .write dma => Sys2Proof.Machine.execWrite dma s
  | .session => Sys2Proof.Machine.execSession s
  | .enum => Sys2Proof.Machine.execEnum s
  | .streamFrameReceive arrival f => Sys2Proof.Machine.execStreamFrameReceive arrival f s
  | .streamEntryWrite k => Sys2Proof.Machine.execStreamEntryWrite k s
  | .eventFrameReceive arrival f => Sys2Proof.Machine.execEventFrameReceive arrival f s
  | .alarmReceive arrival f => Sys2Proof.Machine.execAlarmReceive arrival f s
  | .eventEntryWrite => Sys2Proof.Machine.execEventEntryWrite s
  | .writeback => Sys2Proof.Machine.execWriteback s
  | .moderationTimeout r => Sys2Proof.Machine.execModerationTimeout r s
  | .configRequest c => Sys2Proof.Machine.execConfigRequest c s
  | .pmeRequest => Sys2Proof.Machine.execPmeRequest s
  | .pcieLinkDown => Sys2Proof.Machine.execPcieLinkDown s
  | .aerUncorrectable bits => Sys2Proof.Machine.execAerUncorrectable bits s
  | .dmaReadError => Sys2Proof.Machine.execDmaReadError s
  | .hostParityError => Sys2Proof.Machine.execHostParityError s
  | .delayRequestSend => Sys2Proof.Machine.execDelayRequestSend s
  | .delayRequestReceive n f ago => Sys2Proof.Machine.execDelayRequestReceive n f ago s
  | .delayResponseReceive n f ago => Sys2Proof.Machine.execDelayResponseReceive n f ago s
  | .announceReceive n f => Sys2Proof.Machine.execAnnounceReceive n f s
  | .holdoverParentSearch => Sys2Proof.Machine.execHoldoverParentSearch s
  | .holdoverTimeout => Sys2Proof.Machine.execHoldoverTimeout s
  | .rootConflictDelay => Sys2Proof.Machine.execRootConflictDelay s
  | .step => Sys2Proof.Machine.execStep s
  | .rootTimeStep => Sys2Proof.Machine.execRootTimeStep s
  | .reinGo bcast imm => Sys2Proof.Machine.execReinGo bcast imm s
  | .snapEdge ago => Sys2Proof.Machine.execSnapEdge ago s
  | .reinReceive arrival f => Sys2Proof.Machine.execReinReceive arrival f s
  | .reinLatch => Sys2Proof.Machine.execReinLatch s
  | .fullClear => Sys2Proof.Machine.execFullClear s
  | .snapStuckTimeout => Sys2Proof.Machine.execSnapStuckTimeout s
  | .snapStuckClear => Sys2Proof.Machine.execSnapStuckClear s
  | .sourceEvent src entry => Sys2Proof.Machine.execSourceEvent src entry s
  | .railError src => Sys2Proof.Machine.execRailError src s
  | .railErrorEnd src => Sys2Proof.Machine.execRailErrorEnd src s
  | .historyParityError k => Sys2Proof.Machine.execHistoryParityError k s
  | .severeClear j bits sets => Sys2Proof.Machine.execSevereClear j bits sets s
  | .stickyClear j bits sets => Sys2Proof.Machine.execStickyClear j bits sets s
  | .clrall => Sys2Proof.Machine.execClrall s
  | .fltCfgWrite src w => Sys2Proof.Machine.execFltCfgWrite src w s
  | .injectionGo src dur full => Sys2Proof.Machine.execInjectionGo src dur full s
  | .injectionEnd => Sys2Proof.Machine.execInjectionEnd s
  | .temperatureSample dies biasOk => Sys2Proof.Machine.execTemperatureSample dies biasOk s
  | .gallopExit => Sys2Proof.Machine.execGallopExit s
  | .sensorDisagree => Sys2Proof.Machine.execSensorDisagree s
  | .thermalShutdown n temp => Sys2Proof.Machine.execThermalShutdown n temp s
  | .thermalRestart => Sys2Proof.Machine.execThermalRestart s
  | .eventLogWrite => Sys2Proof.Machine.execEventLogWrite s
  | .logClear tk => Sys2Proof.Machine.execLogClear tk s
  | .run tk => Sys2Proof.Machine.execRun tk s
  | .calRunBegin => Sys2Proof.Machine.execCalRunBegin s
  | .calZeroPhaseEnd zero => Sys2Proof.Machine.execCalZeroPhaseEnd zero s
  | .calReferencePhaseEnd first second r4 r16 => Sys2Proof.Machine.execCalReferencePhaseEnd first second r4 r16 s
  | .calCopyWritten bad => Sys2Proof.Machine.execCalCopyWritten bad s
  | .calCopyInUse => Sys2Proof.Machine.execCalCopyInUse s
  | .hsave tk => Sys2Proof.Machine.execHsave tk s
  | .psave arg tk => Sys2Proof.Machine.execPsave arg tk s
  | .pselect arg tk => Sys2Proof.Machine.execPselect arg tk s
  | .tsave tk => Sys2Proof.Machine.execTsave tk s
  | .patchwe => Sys2Proof.Machine.execPatchwe s
  | .patch tk => Sys2Proof.Machine.execPatch tk s
  | .nvmWriteDone bad => Sys2Proof.Machine.execNvmWriteDone bad s
  | .copyRepair => Sys2Proof.Machine.execCopyRepair s
  | .epochWrite => Sys2Proof.Machine.execEpochWrite s
  | .crcDataWrite size data => Sys2Proof.Machine.execCrcDataWrite size data s
  | .selftestGo mem log ss compat => Sys2Proof.Machine.execSelftestGo mem log ss compat s
  | .selftestAbort => Sys2Proof.Machine.execSelftestAbort s
  | .segmentTestDone fail => Sys2Proof.Machine.execSegmentTestDone fail s
  | .partitionDone misr => Sys2Proof.Machine.execPartitionDone misr s
  | .selftestRunEnd => Sys2Proof.Machine.execSelftestRunEnd s
  | .sliceStart => Sys2Proof.Machine.execSliceStart s
  | .offlinePartitionStart => Sys2Proof.Machine.execOfflinePartitionStart s
  | .autoRunDue => Sys2Proof.Machine.execAutoRunDue s
  | .lifecycleChange target force tk => Sys2Proof.Machine.execLifecycleChange target force tk s
  | .fuseProgramDone a b => Sys2Proof.Machine.execFuseProgramDone a b s
  | .lockArm req flt tgt => Sys2Proof.Machine.execLockArm req flt tgt s
  | .lock req flt tgt => Sys2Proof.Machine.execLock req flt tgt s
  | .lockArmExpiry => Sys2Proof.Machine.execLockArmExpiry s
  | .aonPowerLoss => Sys2Proof.Machine.execAonPowerLoss s
  | .perstnRelease => Sys2Proof.Machine.execPerstnRelease s
  | .lpiExitTimeout n => Sys2Proof.Machine.execLpiExitTimeout n s
  | .continuousConductionStart => Sys2Proof.Machine.execContinuousConductionStart s
  | .spiTransactionRejected why => Sys2Proof.Machine.execSpiTransactionRejected why s

end Sys2Proof.Machine
end

