-- ==== Sys2Proof/Safety.lean ====
section
/-!
DEFINITION. Sys2Proof/Safety.lean: the terms that statements about the device use: the canonical form that every state of a run keeps, and what a
command changes and leaves alone.
-/
namespace Sys2Proof.Machine

/-! ## The canonical form -/

/-- A list of numbers rises strictly. -/
def natSorted : List Nat → Bool
  | [] => true
  | [_] => true
  | a :: b :: t => a < b && natSorted (b :: t)

/-- The canonical form of a byte memory: addresses strictly rise, and no entry equals what an unlisted address reads as. -/
def Memory.wf (d : Byte) (m : List (Nat × Byte)) : Bool := assocSorted m && m.all (fun e => e.2 != d)

/-- The canonical form of a state: the register file lists no register at its reset value, and NVM lists no erased byte. -/
def State.canonical (s : State) : Prop :=
  RegFile.wf s.regs = true ∧ Memory.wf 0xFF#8 s.cal.nvm = true

/-! ## What a command changes -/

/-- The parts of the state beside the register file and the queue. -/
inductive Part
  | now | ft | free | resp | pins | sys | cms | xck | imp | cpb | flt | lnk | fab | hst | cnv | ctl | tbs | cal | thm | bst
  deriving DecidableEq, Repr

/-- A part of the state is the same in two states. -/
def Part.same (s t : State) : Part → Prop
  | .now => t.now = s.now
  | .ft => t.ft = s.ft
  | .free => t.free = s.free
  | .resp => t.resp = s.resp
  | .pins => t.pins = s.pins
  | .sys => t.sys = s.sys
  | .cms => t.cms = s.cms
  | .xck => t.xck = s.xck
  | .imp => t.imp = s.imp
  | .cpb => t.cpb = s.cpb
  | .flt => t.flt = s.flt
  | .lnk => t.lnk = s.lnk
  | .fab => t.fab = s.fab
  | .hst => t.hst = s.hst
  | .cnv => t.cnv = s.cnv
  | .ctl => t.ctl = s.ctl
  | .tbs => t.tbs = s.tbs
  | .cal => t.cal = s.cal
  | .thm => t.thm = s.thm
  | .bst => t.bst = s.bst

/-- From `s` to `t` nothing changes but the named parts and the registers at the addresses that `rs` admits: every other part, every other
register and the queue are the same. -/
def Changes (ps : List Part) (rs : Nat → Prop) (s t : State) : Prop :=
  t.pending = s.pending ∧ (∀ p, p ∉ ps → p.same s t) ∧ ∀ a, ¬ rs a → reg t a = reg s a

/-- What a host error leaves alone (R6): the queue and time, power state and supplies, sense integrity, protection and temperature sensing with
their registers, the mark of R20 and the fault pair. -/
def Sheltered (s t : State) : Prop :=
  t.pending = s.pending ∧ (∀ p ∈ [Part.now, .ft, .sys, .xck, .cpb, .thm], p.same s t) ∧ t.cms.unused = s.cms.unused ∧
    t.pins.fault = s.pins.fault ∧ ∀ a, protectionReg a = true → reg t a = reg s a

/-- The registers of the blocks with the given numbers (R577: block k takes the 2 KiB from k × 0x800). -/
def inBlocks (bs : List Nat) (a : Nat) : Prop := a / 0x800 ∈ bs

/-- Exactly the given registers. -/
def oneOf (as : List Nat) (a : Nat) : Prop := a ∈ as

/-- The registers from one address to below another. -/
def within (lo hi a : Nat) : Prop := lo ≤ a ∧ a < hi

/-- The completion that the device reports for the latest access. -/
def State.answered (s : State) (st : Status) : Prop := s.resp.map Resp.status = some st

end Sys2Proof.Machine
end

