-- ==== Sys2Proof/Certificates/Slice0/Obligations.lean ====
section
/-!
DEFINITION. Sys2Proof/Certificates/Slice0/Obligations.lean: the statements about the device that the provers are asked for, one definition each.
-/
open Sys2Proof Sys2Proof.Machine

/-- Supply and rail events: what the thresholds, the qualification, the rail monitors and the buck limit change. -/
def Obligations.SupplyEvents : Prop := ∀ s : State,
  (∀ r, ∃ t, exec (.vmodThresholdCross .aonSupply r) s = .next t ∧ t.sys = { s.sys with aonFromVin := !r } ∧ Changes [.sys] (fun _ => False) s t) ∧
  (∀ r, ∃ t, exec (.vmodThresholdCross .buckInput r) s = .next t ∧ t.sys.vmodOk = r ∧
    t.sys.leg = legChoice { s with sys := { s.sys with vmodOk := r } } ∧
    Changes [.sys, .flt] (oneOf [Reg.SYS_PWRSTAT, Reg.SYS_SUPSTAT]) s t) ∧
  (∃ t, exec (.vinThresholdCross true) s = .next t ∧ t.sys = { s.sys with vinAbove := true, vinAt := if s.sys.vinAbove then s.sys.vinAt else s.now } ∧
    Changes [.sys] (fun _ => False) s t) ∧
  (∃ t, exec (.vinThresholdCross false) s = .next t ∧ t.sys.vinAbove = false ∧ t.sys.vinQual = false ∧
    t.sys.leg = legChoice { s with sys := { s.sys with vinAbove := false, vinQual := false } } ∧
    Changes [.sys, .flt] (oneOf [Reg.SYS_PWRSTAT, Reg.SYS_SUPSTAT]) s t) ∧
  (s.sys.vinAbove = true → s.sys.vinAt + nth [1, 10, 100] (getF Reg.SYS_SUPCFG_VINQUAL s) 0 * ms ≤ s.now → ∃ t, exec .vinQualified s = .next t ∧ t.sys.vinQual = true ∧
    t.sys.leg = legChoice { s with sys := { s.sys with vinQual := true } } ∧
    Changes [.sys, .flt] (oneOf [Reg.SYS_PWRSTAT, Reg.SYS_SUPSTAT]) s t) ∧
  (coreUp s = true → (∀ r out, ∃ t, exec (.railWarning r out) s = .next t ∧ (natMem (railSource r) t.flt.lines = out) ∧
      Changes [.flt] (oneOf [Reg.FLT_ACT 0]) s t) ∧
    ∀ d, ∃ t, exec (.referenceMismatch d) s = .next t ∧ natMem 3 t.flt.lines = d ∧ Changes [.flt] (oneOf [Reg.FLT_ACT 0]) s t) ∧
  (coreUp s = true → s.sys.leg.isSome = true → ∃ t, exec .buckLimitTimeout s = .next t ∧ bit Reg.SYS_SUPSTAT_BUCKFLT t = true ∧
    t.flt.waiting = s.flt.waiting ++ [4] ∧ Changes [.flt] (oneOf [Reg.SYS_SUPSTAT]) s t)

/-- Harness, strap, clock and stuck-input events: their state, their registers and their fault sources. -/
def Obligations.PinAndClockEvents : Prop := ∀ s : State,
  (∀ w o, ∃ t, exec (.harnessWireChange w o) s = .next t ∧ (natMem w t.sys.openWires = o) ∧ Changes [.sys] (fun _ => False) s t) ∧
  (coreUp s = true → ∀ l, s.sys.lcmPin ≠ l → ∃ t, exec (.lcmPinChange l) s = .next t ∧ t.sys = { s.sys with lcmPin := l } ∧
    bit Reg.SYS_STRAPSTAT_LCMNOW t = l ∧ getF Reg.SYS_STRAPSTAT_LCMCHG t = min (getF Reg.SYS_STRAPSTAT_LCMCHG s + 1) 255 ∧
    bit Reg.SYS_STRAPSTAT_LCM t = bit Reg.SYS_STRAPSTAT_LCM s ∧ (natMem 12 t.flt.lines = (l != bit Reg.SYS_STRAPSTAT_LCM s)) ∧
    Changes [.sys, .flt] (oneOf [Reg.SYS_STRAPSTAT, Reg.FLT_ACT 0]) s t) ∧
  (coreUp s = true → ∃ t, exec .sclkFailure s = .next t ∧ bit Reg.SYS_CLKSTAT_SCLKOK t = false ∧ t.sys.sclkFailed = true ∧
    natMem 6 t.flt.lines = true ∧ Changes [.sys, .flt] (oneOf [Reg.SYS_CLKSTAT]) s t) ∧
  (coreUp s = true → ∃ t, exec .moscFailure s = .next t ∧ bit Reg.SYS_CLKSTAT_MOSCOK t = false ∧ natMem 7 t.flt.lines = true ∧
    Changes [.flt] (oneOf [Reg.SYS_CLKSTAT]) s t) ∧
  (coreUp s = true → ∀ p, bit (pllBit p) s = true → ∃ t, exec (.pllLossOfLock p) s = .next t ∧ bit (pllBit p) t = false ∧
    Changes [.flt] (oneOf [Reg.SYS_CLKSTAT]) s t) ∧
  (s.sys.phase = .core → (∃ t, exec .cpllLock s = .next t ∧ t.sys = { s.sys with cpll := true } ∧ bit Reg.SYS_CLKSTAT_CPLLLK t = true ∧
      Changes [.sys] (oneOf [Reg.SYS_CLKSTAT]) s t) ∧
    ∃ t, exec .tpllLock s = .next t ∧ t.sys = { s.sys with tpll := true } ∧ bit Reg.SYS_CLKSTAT_TPLLLK t = true ∧
      Changes [.sys] (oneOf [Reg.SYS_CLKSTAT]) s t) ∧
  (coreUp s = true → s.sys.wakeHigh = true → getF Reg.SYS_PINCFG_WAKETO s ≠ 0 → s.sys.wakeAt + getF Reg.SYS_PINCFG_WAKETO s * 1000 * ms ≤ s.now → ∃ t, exec .wakeStuckTimeout s = .next t ∧
    natMem 9 t.flt.lines = true ∧ Changes [.flt] (fun _ => False) s t) ∧
  (∃ t, exec .wakeLowClear s = .next t ∧ natMem 9 t.flt.lines = false ∧ t.sys.wakeHigh = false ∧ t.sys.wakeArmed = true ∧
    Changes [.sys, .flt] (oneOf [Reg.SYS_PINSTAT, Reg.FLT_ACT 0]) s t) ∧
  (coreUp s = true → s.sys.perstLow = true → s.sys.perstSeenHigh = true → getF Reg.SYS_PINCFG_PERSTTO s ≠ 0 → s.sys.perstAt + getF Reg.SYS_PINCFG_PERSTTO s * 1000 * ms ≤ s.now →
    ∃ t, exec .perstnStuckTimeout s = .next t ∧ natMem 10 t.flt.lines = true ∧ Changes [.flt] (fun _ => False) s t) ∧
  (∃ t, exec .perstnRelease s = .next t ∧ t.sys.perstLow = false ∧ natMem 10 t.flt.lines = false ∧ Changes [.sys, .flt] (oneOf [Reg.FLT_ACT 0]) s t) ∧
  (s.now < s.sys.wakeAt + getF Reg.SYS_PINCFG_WAKETO s * 1000 * ms → exec .wakeStuckTimeout s = .next s) ∧
  (s.now < s.sys.perstAt + getF Reg.SYS_PINCFG_PERSTTO s * 1000 * ms → exec .perstnStuckTimeout s = .next s)

/-- Wake sources: SHELF and SENTINEL are left through the reset of their exit, and a WAKE edge in ACTIVE is only counted. -/
def Obligations.WakeEvents : Prop := ∀ s : State,
  let apart := s.sys.lastWakeEdge.all (fun e => decide (e + 100 * ms ≤ s.now)) = true
  (s.sys.phase = .shelf → s.sys.wakeArmed = true → apart → ∃ t, exec .wakeRisingEdge s = .next t ∧ t.sys.phase = .wakeFilter ∧
    bit Reg.SYS_RSTCAUSE_SHELFEXIT t = true ∧ t.sys.lastWakeEdge = some s.now ∧ t.pending = s.pending) ∧
  (s.sys.phase = .sentinel → s.sys.wakeArmed = true → apart → ∃ t, exec .wakeRisingEdge s = .next t ∧
    (t.sys.phase = .waitLeg ∨ t.sys.phase = .softStart) ∧ bit Reg.SYS_RSTCAUSE_SENTEXIT t = true ∧ t.sys.wakePort = none ∧ t.pending = s.pending) ∧
  (s.sys.phase = .active → s.sys.transition = none → s.sys.wakeFrom = none → s.sys.wakeArmed = true → apart → ∃ t, exec .wakeRisingEdge s = .next t ∧
    t.sys.phase = .active ∧ getF Reg.SYS_PINSTAT_WAKECNT t = min (getF Reg.SYS_PINSTAT_WAKECNT s + 1) 255 ∧
    Changes [.sys] (oneOf [Reg.SYS_PINSTAT]) s t) ∧
  (s.sys.phase = .sentinel → getF Reg.SYS_PWRCFG_WAKETMR s ≠ 0 → ∃ t, exec .wakeTimerExpiry s = .next t ∧
    (t.sys.phase = .waitLeg ∨ t.sys.phase = .softStart) ∧ bit Reg.SYS_RSTCAUSE_SENTEXIT t = true ∧ t.pending = s.pending) ∧
  (s.sys.phase = .sentinel → bit Reg.SYS_PWRCFG_LW0 s = true → s.sys.lwdis0 = false → ∃ t, exec (.linkWakeDetect 0) s = .next t ∧
    (t.sys.phase = .waitLeg ∨ t.sys.phase = .softStart) ∧ bit Reg.SYS_RSTCAUSE_SENTEXIT t = true ∧ t.sys.wakePort = some 0 ∧ t.pending = s.pending) ∧
  (s.sys.phase = .sentinel → bit Reg.SYS_PWRCFG_LW1 s = true → s.sys.lwdis1 = false → ∃ t, exec (.linkWakeDetect 1) s = .next t ∧
    (t.sys.phase = .waitLeg ∨ t.sys.phase = .softStart) ∧ bit Reg.SYS_RSTCAUSE_SENTEXIT t = true ∧ t.sys.wakePort = some 1 ∧ t.pending = s.pending) ∧
  (s.sys.phase = .sentinel → bit Reg.SYS_PWRCFG_LW0 s = false ∨ s.sys.lwdis0 = true → exec (.linkWakeDetect 0) s = .next s) ∧
  (s.sys.phase = .sentinel → bit Reg.SYS_PWRCFG_LW1 s = false ∨ s.sys.lwdis1 = true → exec (.linkWakeDetect 1) s = .next s) ∧
  (s.sys.phase = .wakeFilter → ∃ t, exec .wakeFilterPass s = .next t ∧ (t.sys.phase = .waitLeg ∨ t.sys.phase = .softStart) ∧
    Changes [.sys] (oneOf [Reg.SYS_PWRSTAT]) s t) ∧
  (s.sys.phase = .active → s.sys.wakePort = some 0 → s.sys.sclkFailed = false → s.sys.transition = none → s.sys.activeAt + 500 * ms ≤ s.now →
    ∃ t, exec .linkWakeTrainTimeout s = .next t ∧ t.sys.transition = some ⟨.sentinel, false⟩ ∧ t.sys.fwake0 = min (s.sys.fwake0 + 1) 15 ∧
      (7 ≤ s.sys.fwake0 → t.sys.lwdis0 = true) ∧ t.pending = s.pending) ∧
  (s.sys.phase = .active → s.sys.wakePort = some 1 → s.sys.sclkFailed = false → s.sys.transition = none → s.sys.activeAt + 500 * ms ≤ s.now →
    ∃ t, exec .linkWakeTrainTimeout s = .next t ∧ t.sys.transition = some ⟨.sentinel, false⟩ ∧ t.sys.fwake1 = min (s.sys.fwake1 + 1) 15 ∧
      (7 ≤ s.sys.fwake1 → t.sys.lwdis1 = true) ∧ t.pending = s.pending) ∧
  (s.sys.phase = .standby → s.sys.transition = none → s.sys.wakeArmed = true → apart → ∃ t, exec .wakeRisingEdge s = .next t ∧
    t.sys.phase = .resume ∧ t.sys.wakeHigh = true ∧ t.sys.lastWakeEdge = some s.now ∧ Changes [.sys] (oneOf [Reg.SYS_PWRSTAT, Reg.SYS_PINSTAT]) s t) ∧
  (coreUp s = true → s.sys.wakeArmed = false ∨ ¬ apart → ∃ t, exec .wakeRisingEdge s = .next t ∧ t.sys = { s.sys with wakeHigh := true, wakeAt := s.now } ∧
    bit Reg.SYS_PINSTAT_WAKELVL t = true ∧ getF Reg.SYS_PINSTAT_WAKECNT t = getF Reg.SYS_PINSTAT_WAKECNT s ∧
    Changes [.sys] (oneOf [Reg.SYS_PINSTAT]) s t)

/-- Start-up from the soft start to ACTIVE. -/
def Obligations.StartUp : Prop := ∀ s : State,
  (s.sys.phase = .softStart → s.sys.leg.isSome = true → exec .buckSoftStartDone s = .next { s with sys := { s.sys with phase := .rails } }) ∧
  (s.sys.phase = .rails → s.sys.rstnLow = false → ∀ ok, ∃ t, exec (.coreResetRelease ok) s = .next t ∧ t.sys.phase = .core ∧
    bit Reg.SYS_STRAPSTAT_LCM t = s.sys.lcmPin ∧ bit Reg.SYS_STRAPSTAT_LCMNOW t = s.sys.lcmPin ∧
    getF Reg.SYS_EPOCH_EPOCH t = (if s.sys.porReleased then (getF Reg.SYS_EPOCH_EPOCH s + 1) % 256 else getF Reg.SYS_EPOCH_EPOCH s) ∧ t.sys.porReleased = true ∧
    t.pending = s.pending) ∧
  (s.sys.phase = .rails → s.sys.rstnLow = true → ∀ ok, ∃ t, exec (.coreResetRelease ok) s = .next t ∧ t.sys.phase = .rstHeld ∧
    bit Reg.SYS_RSTCAUSE_RSTN t = true ∧ Changes [.sys] (oneOf [Reg.SYS_RSTCAUSE]) s t) ∧
  (s.sys.phase = .core → s.sys.nvmChecked = false → bit Reg.BST_CTLSTAT_ROMBAD s = false → ∀ ok, ∃ t, exec (.nvmCheckDone ok) s = .next t ∧
    t.sys.nvmChecked = true ∧ (ok = false → bit Reg.CAL_STAT_TRIMBAD t = true) ∧
    (s.sys.porStart = true → getF Reg.SYS_EPOCH_EPOCH t = (recordEpoch s + 1 + getF Reg.SYS_EPOCH_EPOCH s) % 256 ∧ t.sys.porStart = false ∧
      pendingEpoch t = some (getF Reg.SYS_EPOCH_EPOCH t)) ∧
    (s.sys.porStart = false → getF Reg.SYS_EPOCH_EPOCH t = getF Reg.SYS_EPOCH_EPOCH s) ∧ t.pending = s.pending) ∧
  (s.sys.phase = .core → s.sys.nvmChecked = true → s.sys.cpll = true → s.sys.tpll = true → s.sys.profileApplied = false →
    ∃ t, exec .profileApply s = .next t ∧ t.sys.profileApplied = true ∧ t.pending = s.pending) ∧
  (s.sys.phase = .core → s.sys.cpll = true → s.sys.tpll = true → (bit Reg.BST_CTLSTAT_ROMBAD s = true ∨ s.sys.profileApplied = true ∧ pendingEpoch s = none) →
    ∃ t, exec .activeEntry s = .next t ∧ t.sys.phase = .active ∧ t.pending = s.pending) ∧
  (s.sys.phase = .core → bit Reg.BST_CTLSTAT_ROMBAD s = false → (pendingEpoch s).isSome = true → exec .activeEntry s = .next s) ∧
  (s.sys.phase = .resume → ∃ t, exec .activeEntry s = .next t ∧ t.sys.phase = .active ∧ t.pending = s.pending)

/-- SYS_PWRCMD and the transitions it starts. -/
def Obligations.PowerCommands : Prop := ∀ s : State,
  let served := s.sys.ctlBusy = false ∧ bit Reg.BST_CTLSTAT_ROMBAD s = false
  let kept := fun (code : Nat) (t : State) => bit Reg.SYS_PWRSTAT_PEND t = true ∧ getF Reg.SYS_PWRSTAT_PENDTGT t = code ∧ t.answered .ok ∧
    Changes [.resp] (oneOf [Reg.SYS_PWRSTAT]) s t
  let busy := fun (t : State) => t.answered .refusedBusy ∧ Changes [.resp, .free] (fun _ => False) s t
  (served → s.sys.phase = .active → s.sys.transition = none → hasRole s = false →
    (∃ t, exec .pwrcmdShelf s = .next t ∧ t.sys.transition = some ⟨.shelf, false⟩ ∧ t.answered .ok ∧ t.pending = s.pending) ∧
    (∃ t, exec .pwrcmdStandby s = .next t ∧ t.sys.transition = some ⟨.standby, false⟩ ∧ t.answered .ok ∧ t.pending = s.pending) ∧
    ∃ t, exec .pwrcmdSentinel s = .next t ∧ t.answered .ok ∧ t.pending = s.pending ∧
      (s.sys.sclkFailed = false → t.sys.transition = some ⟨.sentinel, false⟩) ∧
      (s.sys.sclkFailed = true → t.sys.transition = some ⟨.standby, false⟩ ∧ bit Reg.SYS_PWRSTAT_ABORT t = true)) ∧
  (served → s.sys.phase = .active → s.sys.transition = none → hasRole s = true →
    (∃ t, exec .pwrcmdShelf s = .next t ∧ kept 0 t) ∧ (∃ t, exec .pwrcmdSentinel s = .next t ∧ kept 1 t) ∧
    ∃ t, exec .pwrcmdStandby s = .next t ∧ kept 2 t) ∧
  (served → s.sys.phase = .standby → s.sys.transition = none → ∃ t, exec .pwrcmdActive s = .next t ∧ t.sys.phase = .resume ∧ t.answered .ok ∧
    (s.sys.lastWake = none → getF Reg.SYS_PWRSTAT_LASTWAKE t = 7) ∧ Changes [.resp, .sys] (oneOf [Reg.SYS_PWRSTAT]) s t) ∧
  (served → s.sys.phase = .standby → s.sys.transition = none →
    (∃ t, exec .pwrcmdShelf s = .next t ∧ t.sys = { s.sys with transition := some ⟨.shelf, false⟩ } ∧ t.answered .ok ∧
      Changes [.resp, .sys] (fun _ => False) s t) ∧
    (s.sys.sclkFailed = false → ∃ t, exec .pwrcmdSentinel s = .next t ∧ t.sys = { s.sys with transition := some ⟨.sentinel, false⟩ } ∧ t.answered .ok ∧
      Changes [.resp, .sys] (fun _ => False) s t) ∧
    ∃ t, exec .pwrcmdStandby s = .next t ∧ t.answered .ok ∧ Changes [.resp] (fun _ => False) s t) ∧
  (served → s.sys.phase = .active → s.sys.transition = none → s.sys.wakeFrom = none → ∃ t, exec .pwrcmdActive s = .next t ∧ t.answered .ok ∧
    bit Reg.SYS_PWRSTAT_PEND t = false ∧ Changes [.resp] (oneOf [Reg.SYS_PWRSTAT]) s t) ∧
  (served → coreUp s = true → s.sys.transition.isSome = true → (∃ t, exec .pwrcmdShelf s = .next t ∧ busy t) ∧
    (∃ t, exec .pwrcmdSentinel s = .next t ∧ busy t) ∧ ∃ t, exec .pwrcmdStandby s = .next t ∧ busy t) ∧
  (∀ tg, s.sys.phase = .active → s.sys.transition = some ⟨tg, false⟩ → ∃ t, exec .powerTransitionStart s = .next t ∧
    t.sys.transition = some ⟨tg, true⟩ ∧ t.pending = s.pending) ∧
  (∀ tg, s.sys.phase = .standby → s.sys.transition = some ⟨tg, false⟩ → ∃ t, exec .powerTransitionStart s = .next t ∧
    t.sys = { s.sys with transition := some ⟨tg, true⟩ } ∧ Changes [.sys, .lnk, .fab] (fun _ => False) s t) ∧
  (s.sys.transition = some ⟨.shelf, true⟩ → switching s = false → ∃ t, exec .powerStateEntry s = .next t ∧ t.sys.phase = .shelf ∧
    t.sys.transition = none ∧ t.pins = Pins.unpowered ∧ t.cal.nvm = s.cal.nvm ∧ t.pending = s.pending) ∧
  (s.sys.transition = some ⟨.sentinel, true⟩ → switching s = false → ∃ t, exec .powerStateEntry s = .next t ∧ t.sys.phase = .sentinel ∧
    t.sys.transition = none ∧ t.pins = Pins.unpowered ∧ t.cal.nvm = s.cal.nvm ∧ t.pending = s.pending) ∧
  (s.sys.transition = some ⟨.standby, true⟩ → switching s = false → ∃ t, exec .powerStateEntry s = .next t ∧ t.sys.phase = .standby ∧
    t.sys.transition = none ∧ getF Reg.SYS_PWRSTAT_STATE t = 2 ∧ t.pending = s.pending)

/-- What a brown-out, a commanded device reset, RSTN, POR and the loss of the always-on supply reset and keep. -/
def Obligations.DeviceResets : Prop := ∀ s : State,
  let aon := fun a => (rowAt a).any RegRow.aon
  let fresh := fun (nonce : Word) (ep : Option Nat) (t : State) => t.cms = CmsState.reset ∧ t.xck = XckState.reset ∧ t.imp = ImpState.reset ∧
    t.cpb = { CpbState.reset with faultSince := if s.pins.fault = .faultLevel then s.cpb.faultSince else s.now } ∧ t.cnv = CnvState.reset ∧ t.ctl = CtlState.reset ∧ t.lnk = { LnkState.reset with nonce := nonce } ∧
    t.fab = FabState.reset ∧ t.hst = { HstState.reset with mem := s.hst.mem, msi := s.hst.msi } ∧ t.tbs = TbsState.reset ∧ t.flt = FltState.reset ∧
    t.thm = ThmState.reset ∧ t.cal = { CalState.reset with nvm := s.cal.nvm, epochPend := ep } ∧
    t.bst = { BstState.reset with runAt := s.now, fuseK := s.bst.fuseK, fuseRet := s.bst.fuseRet, fuseErr := s.bst.fuseErr } ∧
    t.sys.transition = none ∧ t.sys.ctlBusy = false ∧ t.sys.lockArm = none ∧ t.sys.cpll = false ∧ t.sys.tpll = false ∧
    t.sys.nvmChecked = false ∧ t.sys.profileApplied = false ∧ t.ft = 0 ∧ t.now = s.now ∧ t.pending = s.pending
  let resets := fun (cause : Field) (t : State) => bit cause t = true ∧ (∀ a, aon a = true → a ≠ Reg.SYS_RSTCAUSE → reg t a = reg s a) ∧
    (∀ a, aon a = false → a ≠ Reg.SYS_PWRSTAT → reg t a = resetOf a) ∧ fresh (Config.freeValue s.free) (pendingEpoch s) t ∧ t.pins = Pins.reset
  (∀ r : Rail, s.sys.phase ∈ [.standby, .core, .resume, .active, .rails, .rstHeld, .thermal] → ∃ t, exec (.railBrownOut r) s = .next t ∧
    resets Reg.SYS_RSTCAUSE_BOR t ∧ (t.sys.phase = .waitLeg ∨ t.sys.phase = .softStart)) ∧
  (coreUp s = true → ∃ t, exec .deviceResetCommand s = .next t ∧ resets Reg.SYS_RSTCAUSE_SOFT t ∧ t.sys.phase = .rails ∧ t.answered .ok) ∧
  (coreUp s = true → ∃ t, exec .rstnAssert s = .next t ∧ resets Reg.SYS_RSTCAUSE_RSTN t ∧ t.sys.phase = .rstHeld ∧ t.sys.rstnLow = true) ∧
  (coreUp s = false → exec .rstnAssert s = .next { s with sys := { s.sys with rstnLow := true } }) ∧
  (∀ (w v a m : Bool), ∃ t, exec (.powerOnReset w v a m) s = .next t ∧ (∀ a, a ≠ Reg.SYS_PWRSTAT → (w = false → v = false → ∀ n, n < 4 → a ≠ Reg.LNK_PSTAT n) → reg t a = resetOf a) ∧
    (w = false → v = false → ∀ n : Fin 4, portState n t = 0) ∧ fresh (Config.freeValue s.free) none t ∧ (t.sys.phase = .shelf ↔ w = false ∧ v = false) ∧ t.sys.porStart = true ∧
    t.sys.aonFromVin = !(a || m) ∧ t.sys.vmodOk = m ∧ t.sys.vinAbove = v ∧ t.sys.vinQual = false ∧
    t.pins = (if w = false ∧ v = false then Pins.unpowered else Pins.reset)) ∧
  (∃ t, exec .aonPowerLoss s = .next t ∧ (∀ a, reg t a = resetOf a) ∧ fresh LnkState.reset.nonce none t ∧ t.sys.phase = .off ∧ t.pins = Pins.unpowered) ∧
  (s.sys.phase = .rstHeld → exec .rstnRelease s = .next { s with sys := { s.sys with rstnLow := false, phase := .rails } }) ∧
  (s.sys.phase ≠ .rstHeld → exec .rstnRelease s = .next { s with sys := { s.sys with rstnLow := false } })

/-- Restarts of the housekeeping controller, and PERSTN. -/
def Obligations.ControllerAndPerst : Prop := ∀ s : State, coreUp s = true →
  (∃ t, exec .controllerRestart s = .next t ∧ t.sys.ctlBusy = true ∧ bit Reg.SYS_RSTCAUSE_CTLRST t = true ∧ t.answered .ok ∧ t.pending = s.pending) ∧
  (∃ t, exec .controllerWatchdogExpiry s = .next t ∧ t.sys.ctlBusy = true ∧ bit Reg.SYS_RSTCAUSE_WDOG t = true ∧ 11 ∈ t.flt.waiting ∧
    t.pending = s.pending) ∧
  (s.sys.ctlBusy = true → ∀ ok, ∃ t, exec (.controllerRestartDone ok) s = .next t ∧ t.sys.ctlBusy = false ∧ t.pending = s.pending) ∧
  (s.sys.perstLow = false → ∃ t, exec .perstnAssert s = .next t ∧ t.sys.perstLow = true ∧ bit Reg.SYS_CLKSTAT_PCIELK t = false ∧
    (∀ a, 0x5000 ≤ a → a < 0x5800 → reg t a = resetOf a) ∧ t.pending = s.pending)

/-- Word boundaries of the primary paths: the word index, the sequence numbers, and the frame. -/
def Obligations.PrimaryWords : Prop := ∀ s : State, s.cms.running = true →
  (∀ outs low, ∃ t, exec (.wordBoundary outs low) s = .next t ∧ reg t Reg.CMS_HWIDX = reg s Reg.CMS_HWIDX + 1#32 ∧
    (∀ c, c ≤ 24 → getBits (reg t (Reg.CMS_LAST (2 * c + 1))) 24 8 = (reg s Reg.CMS_HWIDX).toNat % 256) ∧ t.pending = s.pending ∧
    (∀ c, c ≤ 24 → (nth s.cms.overload c none).isSome = true → inWindow (nth s.cms.overload c none) s = true →
      (reg t (Reg.CMS_LAST (2 * c + 1))).getLsbD 22 = true) ∧
    (s.cms.unused.isSome = true → Changes [.free, .cms, .hst, .flt, .imp] (inBlocks [2, 12]) s t)) ∧
  (∃ t, exec .chopRateChange s = .next t ∧ getF Reg.CMS_STAT_CHOP t = getF Reg.THM_STAT_BAND s ∧ Changes [] (oneOf [Reg.CMS_STAT]) s t) ∧
  (∀ c, c ≤ 24 → ∃ t, exec (.modulatorOverload c) s = .next t ∧ t.cms.overload[c]? = some (some s.now) ∧
    (muted (channelSource c) s = false → natMem (channelSource c) t.flt.lines = true) ∧ Changes [.cms, .flt, .imp] (fun _ => False) s t) ∧
  (∀ c, c ≤ 24 → ∃ t, exec (.modulatorStuck c) s = .next t ∧ t.cms.overload[c]? = some (some s.now) ∧
    (muted (channelSource c) s = false → natMem (channelSource c) t.flt.lines = true) ∧ Changes [.cms, .flt, .imp] (fun _ => False) s t) ∧
  (∀ c, c ≤ 24 → muted (channelSource c) s = false → ∃ t, exec (.filterParityFail c) s = .next t ∧
    t.flt.waiting = s.flt.waiting ++ [channelSource c] ∧ Changes [.flt] (fun _ => False) s t)

/-- CMS_CFG and CMS_CHEN: a write, its application at a 64 Sa/s boundary, and the hold of a calibration run. -/
def Obligations.FilterAndLayout : Prop := ∀ s : State,
  let spared := fun t : State => t.sys = s.sys ∧ t.cpb = s.cpb ∧ t.xck = s.xck ∧ t.thm = s.thm ∧ t.pins.fault = s.pins.fault ∧ t.pending = s.pending ∧
    ∀ a, protectionReg a = true → reg t a = reg s a
  (∀ w : Word, coreUp s = true → w &&& 0xFFFFFCCC#32 = 0#32 → getBits w 8 2 ≠ 3 → calRunning s = false → ∃ t, exec (.cmsCfgWrite w) s = .next t ∧
    reg t Reg.CMS_CFG = w ∧ t.answered .ok ∧ t.cms = { s.cms with calCfg := none } ∧ Changes [.resp, .cms] (oneOf [Reg.CMS_CFG]) s t) ∧
  (∀ w : Word, coreUp s = true → w &&& 0xFFFFFCCC#32 = 0#32 → getBits w 8 2 ≠ 3 → calRunning s = true → ∃ t, exec (.cmsCfgWrite w) s = .next t ∧
    t.cms.calCfg = some w ∧ t.answered .ok ∧ Changes [.resp, .cms] (fun _ => False) s t) ∧
  (∀ w : Word, coreUp s = true → w &&& 0xFFFFFCCC#32 ≠ 0#32 → exec (.cmsCfgWrite w) s = .fault (.reservedWrite Reg.CMS_CFG)) ∧
  (∀ w : Word, coreUp s = true → w &&& 0xFFFFFCCC#32 = 0#32 → getBits w 8 2 = 3 → ∃ t, exec (.cmsCfgWrite w) s = .next t ∧ spared t) ∧
  (coreUp s = true → s.cms.running = true → calRunning s = false → s.cms.calCfg = none → ∃ t, exec .filterSettingApply s = .next t ∧
    getF Reg.CMS_STAT_RATEACT t = getF Reg.CMS_CFG_RATE s ∧
    getF Reg.CMS_STAT_NOTCHACT t = (if getF Reg.CMS_CFG_RATE s < 2 then getF Reg.CMS_CFG_NOTCH s else 0) ∧
    Changes [.cms, .imp] (oneOf [Reg.CMS_STAT]) s t) ∧
  (coreUp s = true → s.cms.running = false → calRunning s = false → ∀ w, s.cms.calCfg = some w → ∃ t, exec .filterSettingApply s = .next t ∧
    reg t Reg.CMS_CFG = w ∧ t.cms = { s.cms with calCfg := none } ∧ Changes [.cms] (oneOf [Reg.CMS_CFG]) s t) ∧
  (∀ w : Word, coreUp s = true → w &&& 0xFE000000#32 = 0#32 → streamOpen s = false → calRunning s = false → ∃ t, exec (.cmsChenWrite w) s = .next t ∧
    reg t Reg.CMS_CHEN = w ∧ t.cms = { s.cms with calChen := none, layoutHeld := true } ∧ t.answered .ok ∧ Changes [.resp, .cms] (oneOf [Reg.CMS_CHEN]) s t) ∧
  (∀ w : Word, coreUp s = true → w &&& 0xFE000000#32 = 0#32 → streamOpen s = true → ∃ t, exec (.cmsChenWrite w) s = .next t ∧ spared t) ∧
  (coreUp s = true → calRunning s = false → s.cms.calChen = none → s.cms.layoutHeld = true → ∃ t, exec .historyLayoutChange s = .next t ∧
    t.cms.hist = [] ∧ t.cms.chen = reg s Reg.CMS_CHEN ∧ reg t Reg.CMS_HSTART = reg s Reg.CMS_HWIDX ∧ t.cms.layoutHeld = false ∧
    Changes [.cms] (oneOf [Reg.CMS_HSTART, Reg.CMS_HDEPTH]) s t)

/-- The tag shadow: a value read copies the record's tag, and the requester's next tag read at that address returns it, whatever the record holds by then. -/
def Obligations.TagShadow : Prop := ∀ (req : Requester) (a : Nat) (s : State), coreUp s = true → isRecordAddr a = true →
  ∃ t, exec (.recordValueRead req a) s = .next t ∧ t.resp = some ⟨.ok, [(recordAt a s).1], 0⟩ ∧
    Changes [.cms, .resp] (fun _ => False) s t ∧
    (∀ u : State, coreUp u = true → u.cms.shadows = t.cms.shadows → u.cms.hkShadow = t.cms.hkShadow →
      (∃ v, exec (.recordTagRead req a) u = .next v ∧ v.resp = some ⟨.ok, [(recordAt a s).2], 0⟩ ∧ Changes [.cms, .resp] (fun _ => False) u v) ∧
      (∀ b, isRecordAddr b = true → b ≠ a → ∃ v, exec (.recordTagRead req b) u = .next v ∧ v.resp = some ⟨.ok, [(recordAt b u).2], 0⟩) ∧
      (∀ b, isRecordAddr b = true → ∃ v, exec (.recordValueRead req b) u = .next v ∧ getShadow req v = some (b, (recordAt b u).2)))

/-- HWIDX reads and the snapshot latch. -/
def Obligations.WordIndexRead : Prop := ∀ s : State,
  (coreUp s = true → ∀ req, ∃ t, exec (.hwidxRead req) s = .next t ∧ t.resp = some ⟨.ok, [reg s Reg.CMS_HWIDX], 0⟩ ∧
    (∀ u : State, u.cms.times = t.cms.times → u.cms.hkTime = t.cms.hkTime → htime req u = s.cms.lastInstant) ∧
    Changes [.cms, .resp] (fun _ => False) s t) ∧
  (∀ rs : List Record, s.cms.snapNext = some rs → rs.length = 25 → ∃ t, exec .cmsSnapshotLatch s = .next t ∧
    (∀ c, c < 25 → reg t (Reg.CMS_SNAP (2 * c)) = (nth rs c ⟨0#32, 0#32⟩).value ∧ reg t (Reg.CMS_SNAP (2 * c + 1)) = (nth rs c ⟨0#32, 0#32⟩).tag) ∧ t.cms.snapNext = none ∧ bit Reg.CMS_SNAPSTAT_DONE t = true ∧ bit Reg.CMS_SNAPSTAT_PEND t = false ∧
    Changes [.cms] (inBlocks [2, 11]) s t) ∧
  (s.cms.snapNext = none → exec .cmsSnapshotLatch s = .next s)

/-- Secondary results: fast and fallback results, the auxiliary configuration, and the converters' self-check. -/
def Obligations.SecondaryResults : Prop := ∀ s : State,
  (secondaryRuns s = true → getF Reg.XCK_STAT_MODE s ≠ 3 → ∀ xa xb : List (List Conversion), ∃ t, exec (.xbFrameEnd xa xb) s = .next t ∧
    t.xck.fastChanged = false ∧ t.xck.frame = s.xck.frame + 1 ∧ (∀ k, k < 16 → regBit (Reg.XCK_AXF k) 31 t = auxServed k s) ∧
    (∀ k, k < 16 → auxServed k s = true → getBits (reg t (Reg.XCK_AXF k)) 24 4 = (getBits (reg s (Reg.XCK_AXF k)) 24 4 + 1) % 16 ∧
      regBit (Reg.XCK_AXF k) 28 t = (latestReading (48 + k) 1 t).ovr) ∧
    Changes [.xck, .flt] (within (Reg.XCK_AXF 0) (Reg.XCK_AXF 16)) s t) ∧
  (secondaryRuns s = true → ∃ t, exec .fallbackResult s = .next t ∧ t.xck = { s.xck with fallChanged := false } ∧
    (∀ k, k < 24 → regBit Reg.CMS_FENCE (k + 1) s = true →
      regBit (Reg.XCK_CELL k) 31 t = (cellsServed s && !regBit Reg.FLT_FENCE1 (k + 1) s)) ∧
    (∀ k, k < 24 → regBit Reg.CMS_FENCE (k + 1) s = false → reg t (Reg.XCK_CELL k) = reg s (Reg.XCK_CELL k)) ∧
    Changes [.xck, .free] (within (Reg.XCK_CELL 0) (Reg.XCK_CELL 24)) s t) ∧
  (secondaryRuns s = true → ∃ t, exec .auxConfigApply s = .next t ∧ t.xck.ax0 = reg s (Reg.XCK_AXCFG 0) ∧ t.xck.ax1 = reg s (Reg.XCK_AXCFG 1) ∧
    Changes [.xck] (fun _ => False) s t) ∧
  (secondaryRuns s = true → ∀ xb : Bool, (xb = false → unusedCells s = false) → ∃ t, exec (.converterSelfCheck xb) s = .next t ∧
    natMem (if xb then 44 else 43) t.flt.lines = (if xb then s.xck.checkB else s.xck.checkA).failing ∧ Changes [.flt, .xck] (oneOf [Reg.FLT_ACT 1]) s t)

/-- The 64 Sa/s interval boundary closes the results of the interval, and the cross-check compares them. -/
def Obligations.IntervalResults : Prop := ∀ s : State,
  (secondaryRuns s = true → ∀ prim : List (List Int), ∃ t, exec (.intervalBoundary prim) s = .next t ∧ t.xck.pprev = s.xck.pmean ∧
    t.xck.pmean = (primaryMeans prim (closeBleed (countInterval s))).1 ∧ t.xck.intervals = min (s.xck.intervals + 1) 2 ∧ t.xck.firstInterval = false ∧
    t.xck.modeChanged = false ∧ t.xck.frame = 0 ∧ t.xck.intervalAt = s.ft ∧ t.cal = s.cal ∧ t.sys = s.sys ∧ t.cnv = s.cnv ∧ t.pending = s.pending) ∧
  (∀ k, secondaryRuns s = true → cellsServed s = true → k < 24 → tapOpen 24 s = false → regBit Reg.CMS_FENCE (k + 1) s = false →
    regBit Reg.FLT_FENCE1 (k + 1) s = false → ∀ prim : List (List Int), ∃ t, exec (.intervalBoundary prim) s = .next t ∧
    regBit (Reg.XCK_CELL k) 31 t = true ∧ regBit (Reg.XCK_CELL k) 28 t = (nth s.xck.slots k ⟨0, 0, false, []⟩).ovr ∧
    getBits (reg t (Reg.XCK_CELL k)) 24 4 = (getBits (reg s (Reg.XCK_CELL k)) 24 4 + 1) % 16) ∧
  (∀ k, secondaryRuns s = true → getF Reg.XCK_STAT_MODE s = 3 → k < 24 → tapOpen 24 s = false → ∀ prim : List (List Int),
    ∃ t, exec (.intervalBoundary prim) s = .next t ∧ reg t (Reg.XCK_CELL k) = reg s (Reg.XCK_CELL k)) ∧
  (secondaryRuns s = true → cellsServed s = true → calRunning s = false → s.xck.harness = none →
    fencedBy 40 s = false → fencedBy 41 s = false → fencedPaths s = reg s Reg.CMS_FENCE → fencedSecondaries s = reg s Reg.FLT_FENCE1 →
    ∃ t, exec .crossCheckComparison s = .next t ∧
      (∀ n, 1 ≤ n → n ≤ 24 → compared n s = true → regBit Reg.XCK_XMIS n t = comparisonFails n s) ∧
      (∀ n, regBit Reg.XCK_BLAMEP n s = true → regBit Reg.XCK_BLAMEP n t = true) ∧
      (∀ n, regBit Reg.XCK_BLAMES n s = true → regBit Reg.XCK_BLAMES n t = true) ∧
      (∀ n, comparisonFails n s = false → regBit Reg.XCK_BLAMEP n t = regBit Reg.XCK_BLAMEP n s ∧
        regBit Reg.XCK_BLAMES n t = regBit Reg.XCK_BLAMES n s) ∧ t.pending = s.pending) ∧
  (secondaryRuns s = true → cellsServed s = false → s.xck.intervals < 2 → ∃ t, exec .crossCheckComparison s = .next t ∧
    Changes [.imp] (fun _ => False) s t)

/-- Open sense wires: the sweep, a test of a tap, its declaration, and the end of a suspect's hold. -/
def Obligations.OpenWires : Prop := ∀ s : State,
  let response := fun (n : Nat) (base flow : List Conversion) => windowReading n flow s - windowReading n base s
  (secondaryRuns s = true → cellsServed s = true → getF Reg.XCK_OWCFG_PER s ≠ 3 → s.xck.sweepTap = 0 →
    exec .openWireSweepStart s = .next { s with xck := { s.xck with sweepTap := 1 } }) ∧
  (secondaryRuns s = true → cellsServed s = true → getF Reg.XCK_OWCFG_PER s ≠ 3 → s.xck.sweepTap ≠ 0 →
    exec .openWireSweepStart s = .next { s with xck := { s.xck with sweepPend := true } }) ∧
  (getF Reg.XCK_OWCFG_PER s = 3 → exec .openWireSweepStart s = .next s) ∧
  (∀ k sweep rest, s.xck.due = (k, sweep) :: rest → secondaryRuns s = true → testsSuspended s = false → 1 ≤ k → k ≤ 24 →
    ∀ bl bh wl wh : List Conversion, ∃ t, exec (.openWireTest bl bh wl wh) s = .next t ∧ t.xck.due = rest ∧
    getF Reg.XCK_OWLAST_TAP t = k ∧ t.pending = s.pending ∧
    (12000 ≤ response k bl wl → (k = 24 ∨ response (k + 1) bh wh ≤ -12000) → 1 ≤ nth s.xck.owFail k 0 → tapOpen k t = true) ∧
    (∀ j, j ≤ 24 → j ≠ k → tapOpen j t = tapOpen j s)) ∧
  (∀ (k : Nat) (sweep : Bool) (rest : List (Nat × Bool)) (bl bh wl wh : List Conversion), s.xck.due = (k, sweep) :: rest → secondaryRuns s = true → testsSuspended s = false → 1 ≤ k → k ≤ 24 →
    response k bl wl < 12000 → 1 ≤ nth s.xck.owPass k 0 → tapOpen k s = true →
    ∃ t, exec (.openWireTest bl bh wl wh) s = .next t ∧ tapOpen k t = false) ∧
  (∀ k, s.xck.suspects.any (fun x => x.tap == k && x.hold && decide (x.since + 40 * ms ≤ s.now)) = true → ∃ t, exec (.suspectHoldExpiry k) s = .next t ∧
    t.xck.suspects.any (fun x => x.tap == k && x.hold) = false ∧ t.cal = s.cal ∧ t.sys = s.sys ∧ t.pending = s.pending) ∧
  (∀ k, s.xck.suspects.all (fun x => x.tap != k || decide (s.now < x.since + 40 * ms)) = true → exec (.suspectHoldExpiry k) s = .next s)

/-- The harness measurement and the balancing gate. -/
def Obligations.HarnessMeasurement : Prop := ∀ s : State,
  (coreUp s = true → (lifecycle s = 1 ∨ lifecycle s = 2) → bit Reg.FLT_FENCE0_XB s = false → unusedCells s = false →
    planActive s = false → s.xck.harness = none → bleedStopped s = false → ∀ tk, ∃ t, exec (.harnessMeasurementStart tk) s = .next t ∧
    bit Reg.XCK_HRCMD_BUSY t = true ∧ bit Reg.XCK_HRCMD_FAIL t = false ∧ bit Reg.XCK_HRCMD_DONE t = false ∧
    t.xck.harness.map HarnessRun.ticket = some tk ∧ Changes [.xck, .cms] (oneOf [Reg.XCK_HRCMD, Reg.CPB_BALSTAT]) s t) ∧
  (coreUp s = true → (lifecycle s = 1 ∨ lifecycle s = 2) → bit Reg.FLT_FENCE0_XB s = false → unusedCells s = false →
    planActive s = false → s.xck.harness = none → bleedStopped s = true → ∃ t, exec (.harnessMeasurementStart .direct) s = .next t ∧
    t.answered .incomplete ∧ bit Reg.XCK_HRCMD_FAIL t = true ∧ bit Reg.XCK_HRCMD_DONE t = false ∧ (muted 50 s = false → 50 ∈ t.flt.waiting) ∧
    Changes [.resp, .flt] (oneOf [Reg.XCK_HRCMD]) s t) ∧
  (coreUp s = true → lifecycle s ≠ 1 → lifecycle s ≠ 2 → ∃ t, exec (.harnessMeasurementStart .direct) s = .next t ∧
    t.answered .lifecycleDenied ∧ Changes [.resp] (fun _ => False) s t) ∧
  (coreUp s = true → (lifecycle s = 1 ∨ lifecycle s = 2) → (bit Reg.FLT_FENCE0_XB s = true ∨ unusedCells s = true) →
    ∃ t, exec (.harnessMeasurementStart .direct) s = .next t ∧ t.answered .refusedFenced ∧ Changes [.resp] (fun _ => False) s t) ∧
  (coreUp s = true → (lifecycle s = 1 ∨ lifecycle s = 2) → bit Reg.FLT_FENCE0_XB s = false → unusedCells s = false →
    (planActive s = true ∨ s.xck.harness.isSome = true) → ∃ t, exec (.harnessMeasurementStart .direct) s = .next t ∧
    t.answered .refusedBusy ∧ Changes [.resp, .free] (fun _ => False) s t) ∧
  (∀ h, s.xck.harness = some h → 192 ≤ h.interval → h.ticket = .direct → ∃ t, exec .harnessMeasurementDone s = .next t ∧
    t.xck.harness = none ∧ bit Reg.XCK_HRCMD_BUSY t = false ∧ t.pending = s.pending ∧
    (harnessBad h s.free = true → bit Reg.XCK_HRCMD_FAIL t = true ∧ t.answered .checkFail ∧
      (∀ k, k < 25 → reg t (Reg.XCK_HRES k) = reg s (Reg.XCK_HRES k)) ∧ (muted 50 s = false → 50 ∈ t.flt.waiting)) ∧
    (harnessBad h s.free = false → bit Reg.XCK_HRCMD_DONE t = true ∧ t.answered .ok ∧
      ∀ k, k < 25 → reg t (Reg.XCK_HRES k) = BitVec.ofInt 32 (nth (harnessResult h) k 0))) ∧
  (s.sys.phase = .active → getF Reg.XCK_BALCFG_MODE s = 2 → s.ft % gatePeriod s < 6 → ∃ t, exec .balancingGateStart s = .next t ∧ t.xck.gate = some s.now ∧
    (∀ n, conducts n t = false) ∧ Changes [.xck, .cms] (oneOf [Reg.CPB_BALSTAT]) s t) ∧
  (∀ g : Nat, s.xck.gate = some g → g + leastSpan (gateTime s) ≤ s.now → ∃ t, exec .balancingGateEnd s = .next t ∧ t.xck.gate = none ∧ (∀ n, conducts n t = true → conducts n s = true) ∧
    Changes [.xck, .cms] (oneOf [Reg.CPB_BALSTAT]) s t) ∧
  (s.xck.gate.all (fun g => decide (s.now < g + leastSpan (gateTime s))) = true → exec .balancingGateEnd s = .next s)

/-- START and STOP of an impedance plan, the partner's missing ticks and the end of a fade. -/
def Obligations.ImpedanceCommands : Prop := ∀ s : State,
  let ready := coreUp s = true ∧ s.bst.run.any (fun r => r.cur == some 19) = false
  let idle := ready ∧ bit Reg.FLT_FENCE0_IMP s = false ∧ planActive s = false ∧ s.xck.harness = none ∧ getF Reg.CAL_STAT_PHASE s = 0
  let failed := fun (e p : Nat) (t : State) => getF Reg.IMP_STAT_ERR t = e % 16 ∧ getF Reg.IMP_STAT_ERRPT t = p % 32 ∧
    getF Reg.IMP_STAT_STATE t = getF Reg.IMP_STAT_STATE s ∧ t.answered .checkFail ∧ Changes [.resp] (oneOf [Reg.IMP_STAT]) s t
  (idle → entryError s = none → startError s = 0 → ∃ t, exec .impStart s = .next t ∧ getF Reg.IMP_STAT_STATE t = 1 ∧
    getF Reg.IMP_STAT_ERR t = 0 ∧ t.imp.start = (if planT0 s = 0 then boundaryAfter (s.ft + ms) else planT0 s) ∧ t.imp.passes = 0 ∧ t.imp.next = 0 ∧
    t.imp.missed = 0 ∧ t.imp.waiting = none ∧ t.answered .ok ∧ Changes [.imp, .resp] (oneOf [Reg.IMP_STAT]) s t) ∧
  (∀ e p : Nat, idle → entryError s = some (e, p) → ∃ t, exec .impStart s = .next t ∧ failed e p t) ∧
  (idle → entryError s = none → startError s ≠ 0 → ∃ t, exec .impStart s = .next t ∧ failed (startError s) 0 t) ∧
  (ready → bit Reg.FLT_FENCE0_IMP s = true → ∃ t, exec .impStart s = .next t ∧ t.answered .refusedFenced ∧ Changes [.resp] (fun _ => False) s t) ∧
  (ready → bit Reg.FLT_FENCE0_IMP s = false → (planActive s = true ∨ s.xck.harness.isSome = true ∨ getF Reg.CAL_STAT_PHASE s ≠ 0) →
    ∃ t, exec .impStart s = .next t ∧ t.answered .refusedBusy ∧ Changes [.resp, .free] (fun _ => False) s t) ∧
  (coreUp s = true → s.bst.run.any (fun r => r.cur == some 19) = true → exec .impStart s = exec .impStart (abortSelfTest s)) ∧
  (coreUp s = true → planActive s = true → ∃ t, exec .impStop s = .next t ∧ getF Reg.IMP_STAT_STATE t = 4 ∧ getF Reg.IMP_STAT_ABRT t = 1 ∧
    t.answered .ok ∧ t.imp.results = s.imp.results ∧ t.imp.waiting = none ∧ t.imp.phase = .idle ∧
    Changes [.imp, .resp, .fab, .free] (oneOf [Reg.IMP_STAT, Reg.IMP_EVT]) s t) ∧
  (coreUp s = true → planActive s = false → ∃ t, exec .impStop s = .next t ∧ t.answered .ok ∧ Changes [.resp] (fun _ => False) s t) ∧
  (∀ (b : Nat) (rest : List Nat), planActive s = true → bit Reg.IMP_CFG_PAIR s = true → s.imp.awaited = b :: rest → b + 15625000 ≤ s.ft → s.imp.missed < 2 →
    ∃ t, exec .pairTickMissing s = .next t ∧ t.imp.missed = s.imp.missed + 1 ∧ t.imp.awaited = rest ∧ getF Reg.IMP_STAT_STATE t = getF Reg.IMP_STAT_STATE s ∧ Changes [.imp] (oneOf [Reg.IMP_PAIRSTAT]) s t) ∧
  (∀ (b : Nat) (rest : List Nat), planActive s = true → bit Reg.IMP_CFG_PAIR s = true → s.imp.awaited = b :: rest → b + 15625000 ≤ s.ft → 2 ≤ s.imp.missed →
    ∃ t, exec .pairTickMissing s = .next t ∧
    getF Reg.IMP_STAT_STATE t = 4 ∧ getF Reg.IMP_STAT_ABRT t = 6 ∧ t.imp.results = s.imp.results ∧
    Changes [.imp, .free, .flt, .fab] (oneOf [Reg.IMP_STAT, Reg.IMP_EVT, Reg.IMP_PAIRSTAT]) s t) ∧
  (planActive s = false ∨ bit Reg.IMP_CFG_PAIR s = false ∨ s.imp.awaited.all (fun b => decide (s.ft < b + 15625000)) = true → exec .pairTickMissing s = .next s) ∧
  (∀ (f : Fade) (rest : List Fade), s.imp.fades = f :: rest → f.start + 20 * ms ≤ s.ft → ∃ t, exec .excitationFadeDone s = .next t ∧
    t.imp = { s.imp with fades := rest } ∧ regBit Reg.IMP_EVT 3 t = true ∧ Changes [.imp, .flt, .fab] (oneOf [Reg.IMP_EVT]) s t)

/-- The timeline of an impedance plan, from its start to its results. -/
def Obligations.ImpedanceTimeline : Prop := ∀ s : State,
  (getF Reg.IMP_STAT_STATE s = 1 → bit Reg.IMP_CFG_PAIR s = false → s.imp.start ≤ s.ft → ∃ t, exec .planStart s = .next t ∧ getF Reg.IMP_STAT_STATE t = 2 ∧
    t.imp = { s.imp with next := 0, passes := 0, balHold := bit Reg.IMP_CFG_BALHOLD s } ∧
    Changes [.imp] (oneOf [Reg.IMP_STAT, Reg.CPB_BALSTAT]) s t) ∧
  (getF Reg.IMP_STAT_STATE s = 2 → s.imp.phase = .idle → s.imp.next < 32 → s.imp.stepEnd ≤ boundaryAt s.ft → ∃ t, exec .stepStart s = .next t ∧ t.imp.phase = .rising ∧
    t.imp.ts = boundaryAt s.ft ∧ getF Reg.IMP_STAT_POINT t = s.imp.next ∧
    getF Reg.IMP_STAT_RUN t = (if s.imp.next = 0 then (getF Reg.IMP_STAT_RUN s + 1) % 256 else getF Reg.IMP_STAT_RUN s) ∧
    Changes [.imp] (oneOf [Reg.IMP_STAT]) s t) ∧
  (s.imp.phase = .rising → s.imp.ws ≤ s.ft → ∃ t, exec .windowOpen s = .next t ∧ t.imp.phase = .window ∧ Changes [.imp] (fun _ => False) s t) ∧
  (∀ samples : List ImpSample, s.imp.phase = .window → s.imp.we ≤ s.ft → ∃ t, exec (.windowClose samples) s = .next t ∧ t.imp.phase = .falling ∧
    t.imp.waiting.map Prod.snd = some ((samples.filter (fun x => s.imp.ws ≤ x.t ∧ x.t < s.imp.we)).map ImpSample.t) ∧
    t.imp.waiting.map (fun e => e.1.length) = some (stepEntries (getF Reg.IMP_STAT_POINT s) s).length ∧ Changes [.imp] (fun _ => False) s t) ∧
  (s.imp.phase = .falling → getF Reg.IMP_STAT_STATE s = 2 → s.imp.stepEnd ≤ s.ft → s.imp.last + 1 < planCount s → ∃ t, exec .stepEnd s = .next t ∧
    t.imp = { s.imp with phase := .idle, next := s.imp.last + 1 } ∧ Changes [.imp] (fun _ => False) s t) ∧
  (s.imp.phase = .falling → getF Reg.IMP_STAT_STATE s = 2 → s.imp.stepEnd ≤ s.ft → planCount s ≤ s.imp.last + 1 → getF Reg.IMP_CFG_REPEAT s ≠ 0 →
    getF Reg.IMP_CFG_REPEAT s ≤ s.imp.passes → ∃ t, exec .stepEnd s = .next t ∧ getF Reg.IMP_STAT_STATE t = 3 ∧ t.imp.phase = .idle ∧
    regBit Reg.IMP_EVT 1 t = true ∧ regBit Reg.IMP_EVT 2 t = true ∧ Changes [.imp, .fab] (oneOf [Reg.IMP_STAT, Reg.IMP_EVT]) s t) ∧
  (∀ w, s.imp.waiting = some w → ∃ t, exec .resultsWritten s = .next t ∧ t.imp.waiting = none ∧ regBit Reg.IMP_EVT 0 t = true ∧
    Changes [.imp, .flt, .fab] (oneOf [Reg.IMP_EVT]) s t) ∧
  (∀ (e : Nat) (w : Word), coreUp s = true → bit Reg.IMP_CFG_PAIR s = true → ∃ t, 
    exec (.pairTickReceive (getF Reg.IMP_PAIRCFG_PARTNER s) e w) s = .next t ∧ getF Reg.IMP_PAIRSTAT_PSTATE t = getBits w 16 3 ∧
    getF Reg.IMP_PAIRSTAT_PPOINT t = getBits w 19 5 ∧ getF Reg.IMP_PAIRSTAT_PRUN t = getBits w 24 8 ∧
    (planActive s = false → Changes [.imp] (oneOf [Reg.IMP_PAIRSTAT]) s t)) ∧
  (coreUp s = true → muted 66 s = false → ∀ r, ∃ t, exec (.impEngineFault r) s = .next t ∧
    t.flt.waiting = s.flt.waiting ++ [if r then 67 else 66] ∧ Changes [.flt] (fun _ => False) s t) ∧
  (planActive s = true → s.imp.start ≤ s.ft + ms → ∃ t, exec .continuousConductionStart s = .next t ∧ t.imp = { s.imp with ccm := true } ∧
    t.cnv.shed = none ∧ t.pins = s.pins ∧ t.pending = s.pending)

/-- Comparators: trip, release, SENTINEL sampling, flag clear and self-check. -/
def Obligations.ComparatorTrips : Prop := ∀ s : State,
  (∀ n o, comparatorsRun s = true → comparatorOn n o s = true → reactionsOff n s = false → r20Waits s = false →
    ∃ t, exec (.comparatorTrip n o) s = .next t ∧ regBit (rawReg o) n t = true ∧ regBit (flagReg o) n t = true ∧
    (muted (tripSource o) s = false → tripSource o ∈ t.flt.waiting) ∧ (s.cpb.sense = false → t.pins.fault = .faultLevel) ∧
    (o = false → conducts n t = false) ∧ t.pending = s.pending) ∧
  (∀ n o, s.sys.phase = .active → s.sys.transition = none → s.xck.harness = none → comparatorOn n o s = true → reactionsOff n s = false →
    r20Waits s = false → ∃ t, exec (.comparatorTrip n o) s = .next t ∧
    Changes [.flt, .fab, .pins, .cpb, .cms, .xck, .imp] (oneOf [rawReg o, flagReg o, Reg.CPB_FPSTAT, Reg.CPB_BALSTAT, Reg.CPB_EVT]) s t) ∧
  (∀ n o, comparatorsRun s = true → comparatorOn n o s = true → reactionsOff n s = true →
    ∃ t, exec (.comparatorTrip n o) s = .next t ∧ regBit (rawReg o) n t = true ∧ Changes [] (oneOf [rawReg o]) s t) ∧
  (∀ n o, comparatorsRun s = true → comparatorOn n o s = true → reactionsOff n s = false → r20Waits s = true →
    ∃ t, exec (.comparatorTrip n o) s = .next t ∧ regBit (rawReg o) n t = true ∧
    (if o then t.cpb.waitOv else t.cpb.waitUv).getLsbD n = true ∧ Changes [.cpb] (oneOf [rawReg o]) s t) ∧
  (∀ n o, (comparatorsRun s = false ∨ comparatorOn n o s = false) → exec (.comparatorTrip n o) s = .next s) ∧
  (∀ n o, coreUp s = true → 1 ≤ n → n ≤ 24 → ∃ t, exec (.comparatorRelease n o) s = .next t ∧ regBit (rawReg o) n t = false ∧
    (if o then t.cpb.waitOv else t.cpb.waitUv).getLsbD n = false ∧ Changes [.cpb] (oneOf [rawReg o]) s t) ∧
  (∀ ov uv, s.sys.phase = .sentinel → unusedCells s = false → bit Reg.SYS_PWRCFG_OUVWAKE s = false → r20Waits s = false →
    ∃ t, exec (.sentinelComparatorSample ov uv) s = .next t ∧
    reg t Reg.CPB_OVFLAG = reg s Reg.CPB_OVFLAG ||| (cellMask (fun n => ov.getLsbD n && comparatorOn n true s) &&& s.cpb.prevOv) ∧
    reg t Reg.CPB_UVFLAG = reg s Reg.CPB_UVFLAG ||| (cellMask (fun n => uv.getLsbD n && comparatorOn n false s) &&& s.cpb.prevUv) ∧
    Changes [.cpb] (oneOf [Reg.CPB_OVFLAG, Reg.CPB_UVFLAG]) s t) ∧
  (∀ ov uv, s.sys.phase = .sentinel → unusedCells s = false → r20Waits s = true →
    ∃ t, exec (.sentinelComparatorSample ov uv) s = .next t ∧ Changes [.cpb] (fun _ => False) s t) ∧
  (∀ o bits sets, coreUp s = true → ∃ t, exec (.cpbFlagClear o bits sets) s = .next t ∧ t.answered .ok ∧
    (∀ n, 1 ≤ n → n ≤ 24 → regBit (flagReg o) n t = (sets.getLsbD n || (regBit (flagReg o) n s &&
      !(bits.getLsbD n && !regBit (rawReg o) n s && !(if o then s.xck.pairOv else s.xck.pairUv).getLsbD n)))) ∧
    Changes [.resp, .flt, .cms, .xck, .imp] (oneOf [flagReg o, Reg.CPB_BALSTAT, Reg.FLT_ACT 2]) s t) ∧
  (∀ a b, s.sys.phase = .active → unusedCells s = false → ∃ t, exec (.comparatorCheck a b) s = .next t ∧
    t.cpb.checkCell = s.cpb.checkCell % 24 + 1 ∧ Changes [.cpb, .flt, .fab, .hst] (oneOf [Reg.CPB_CMPFLT, Reg.CPB_EVT]) s t)

/-- The fault pair: tone, readback, the sensed neighbour, and the change of mode. -/
def Obligations.FaultPairEvents : Prop := ∀ s : State,
  (s.cpb.sense = false → pairCause s = false → s.pins.fault = .faultLevel → s.now % ms < 5 → s.cpb.faultSince + 10 * ms ≤ s.now → ∃ t, exec .toneResume s = .next t ∧ t.pins = { s.pins with fault := .tone } ∧
    bit Reg.CPB_FPSTAT_TONE t = true ∧ Changes [.pins] (oneOf [Reg.CPB_FPSTAT]) s t) ∧
  (s.cpb.sense = true ∨ pairCause s = true ∨ s.now < s.cpb.faultSince + 10 * ms ∨ 5 ≤ s.now % ms → exec .toneResume s = .next s) ∧
  (coreUp s = true → s.cpb.sense = false → ∃ t, exec .faultPairReadbackError s = .next t ∧ bit Reg.CPB_FPSTAT_RBERR t = true ∧
    (muted 71 s = false → t.flt.waiting = s.flt.waiting ++ [71]) ∧ Changes [.flt, .hst] (oneOf [Reg.CPB_FPSTAT]) s t) ∧
  (coreUp s = true → s.cpb.sense = true → ∃ t, exec (.neighbourStateChange 0) s = .next t ∧ bit Reg.CPB_FPSTAT_NBROK t = true ∧
    bit Reg.CPB_FPSTAT_STUCK t = false ∧ getF Reg.CPB_FPSTAT_CAUSE t = 0 ∧ Changes [.flt] (oneOf [Reg.CPB_FPSTAT, Reg.FLT_ACT 2]) s t) ∧
  (∀ c : Fin 4, coreUp s = true → s.cpb.sense = true → bit Reg.CPB_FPSTAT_NBROK s = true → c.val ≠ 0 →
    ∃ t, exec (.neighbourStateChange c) s = .next t ∧ bit Reg.CPB_FPSTAT_NBROK t = false ∧ getF Reg.CPB_FPSTAT_CAUSE t = c.val ∧
    getF Reg.CPB_FPSTAT_LOSSCNT t = min (getF Reg.CPB_FPSTAT_LOSSCNT s + 1) (2 ^ Reg.CPB_FPSTAT_LOSSCNT.w - 1) ∧
    regBit Reg.CPB_EVT 2 t = true ∧ Changes [.flt, .hst, .fab, .cpb] (oneOf [Reg.CPB_FPSTAT, Reg.CPB_EVT]) s t) ∧
  (∀ c : Fin 4, coreUp s = true → s.cpb.sense = true → bit Reg.CPB_FPSTAT_NBROK s = false → c.val ≠ 0 →
    exec (.neighbourStateChange c) s = .next (setF Reg.CPB_FPSTAT_CAUSE c.val s)) ∧
  (coreUp s = true → s.cpb.sense = true → bit Reg.CPB_FPSTAT_NBROK s = false → bit Reg.CPB_FPSTAT_STUCK s = false →
    getF Reg.CPB_FPCFG_STUCKTO s ≠ 0 → s.cpb.nbrSince + getF Reg.CPB_FPCFG_STUCKTO s * 1000 * ms ≤ s.now → ∃ t, exec .neighbourStuckTimeout s = .next t ∧ bit Reg.CPB_FPSTAT_STUCK t = true ∧
    Changes [.flt, .hst] (oneOf [Reg.CPB_FPSTAT]) s t) ∧
  (s.cpb.sense = false ∨ bit Reg.CPB_FPSTAT_NBROK s = true ∨ getF Reg.CPB_FPCFG_STUCKTO s = 0 ∨ s.now < s.cpb.nbrSince + getF Reg.CPB_FPCFG_STUCKTO s * 1000 * ms → exec .neighbourStuckTimeout s = .next s) ∧
  (coreUp s = true → s.now % ms < 5 → bit Reg.CPB_FPCFG_MODE s ≠ s.cpb.sense → ∃ t, exec .faultPairModeChange s = .next t ∧
    t.cpb.sense = bit Reg.CPB_FPCFG_MODE s ∧ t.pins.fault = (if bit Reg.CPB_FPCFG_MODE s then .released else .faultLevel) ∧
    t.cpb.faultSince = s.now ∧ t.cpb.nbrSince = s.now ∧ bit Reg.CPB_FPSTAT_NBROK t = false ∧ bit Reg.CPB_FPSTAT_TONE t = false ∧ Changes [.pins, .cpb] (oneOf [Reg.CPB_FPSTAT]) s t) ∧
  (bit Reg.CPB_FPCFG_MODE s = s.cpb.sense ∨ 5 ≤ s.now % ms → exec .faultPairModeChange s = .next s)

/-- Bleed switches: after every half boundary only eligible switches conduct, never two neighbours, and what opens them. -/
def Obligations.BalancingSwitches : Prop := ∀ s : State,
  (coreUp s = true → ∃ t, exec .balancingHalfBoundary s = .next t ∧ t.cpb.balCmd = reg s Reg.CPB_BALCMD ∧ t.cpb.balCfg = reg s Reg.CPB_BALCFG ∧
    (∀ n, conducts n t = true → eligible n t = true) ∧
    (s.xck.harness = none → ∀ n, conducts n t = true → conducts (n + 1) t = false) ∧
    ((List.range 25).filter (fun n => conducts n t)).length ≤ getBits (reg s Reg.CPB_BALCFG) 8 4 ∧
    Changes [.cpb, .cms, .xck, .imp] (oneOf [Reg.CPB_BALSTAT]) s t) ∧
  (∀ n, coreUp s = true → conducts n s = true → ∃ t, exec (.switchOvercurrent n) s = .next t ∧ regBit Reg.CPB_OCFLT n t = true ∧
    conducts n t = false ∧ Changes [.flt, .fab, .hst, .cms, .xck, .imp] (oneOf [Reg.CPB_OCFLT, Reg.CPB_EVT, Reg.CPB_BALSTAT]) s t) ∧
  (∀ (n : Nat) (v : Int), s.sys.phase = .active → 1 ≤ n → n ≤ 24 → regBit Reg.CPB_CELLEN n s = true → unusedCells s = false →
    ∃ t, exec (.switchCheck n v) s = .next t ∧
    regBit Reg.CPB_SWCHK n t = (regBit Reg.CPB_SWCHK n s ||
      (if conducts n s then decide (nth s.xck.pmean (n - 1) 0 < 2 * v) else decide (10 * v < 3 * nth s.xck.pmean (n - 1) 0))) ∧
    (regBit Reg.CPB_SWCHK n s = false → regBit Reg.CPB_SWCHK n t = true → conducts n t = false) ∧
    Changes [.flt, .fab, .hst, .cms, .xck, .imp, .cpb] (oneOf [Reg.CPB_SWCHK, Reg.CPB_EVT, Reg.CPB_BALSTAT]) s t) ∧
  (∀ (n : Nat) (v : Int), regBit Reg.CPB_CELLEN n s = false → exec (.switchCheck n v) s = .next s) ∧
  (s.sys.phase = .active → s.cpb.clStart + (getF Reg.CPB_CLTCFG_PERIOD s + 1) * 10 * ms ≤ s.now → ∃ t, exec .communicationLossExpiry s = .next t ∧ reg t Reg.CPB_BALCMD = 0#32 ∧ (∀ n, conducts n t = false) ∧
    bit Reg.CPB_CLTSTAT_CLOST t = true ∧ regBit Reg.CPB_EVT 1 t = true ∧
    getF Reg.CPB_CLTSTAT_CNT t = min (getF Reg.CPB_CLTSTAT_CNT s + 1) (2 ^ Reg.CPB_CLTSTAT_CNT.w - 1) ∧
    t.cpb.clStart = s.now ∧ t.sys = s.sys ∧ t.cal = s.cal ∧ t.pending = s.pending) ∧
  (s.sys.phase ≠ .active ∨ s.now < s.cpb.clStart + (getF Reg.CPB_CLTCFG_PERIOD s + 1) * 10 * ms → exec .communicationLossExpiry s = .next s) ∧
  (∀ p : Fin 1024, coreUp s = true → p.val < 1000 → ∃ t, exec (.cltcfgWrite p) s = .next t ∧ getF Reg.CPB_CLTCFG_PERIOD t = p.val ∧
    t.cpb.clStart = s.now ∧ t.answered .ok ∧ Changes [.resp, .cpb] (oneOf [Reg.CPB_CLTCFG]) s t) ∧
  (∀ p : Fin 1024, coreUp s = true → 1000 ≤ p.val → exec (.cltcfgWrite p) s = .fault (.reservedWrite Reg.CPB_CLTCFG))

/-- Converter commands: START, STOP, CLRFLT, LOADC, the target code and the stored targets. -/
def Obligations.ConverterCommands : Prop := ∀ s : State,
  let free := bit Reg.FLT_FENCE0_CNV s = false
  let ready := s.sys.phase = .active ∧ s.sys.transition = none ∧ free ∧ converterHeldOff s = false
  (ready → cnvState s = 0 → startReason s = 0 →
    (getF Reg.CNV_CFG_CLASS s = 1 ∨ s.cnv.busOk = true) → ∃ t, exec .cnvStart s = .next t ∧ cnvState t = 2 ∧ t.cnv.part = 1 ∧
    t.cnv.cls = getF Reg.CNV_CFG_CLASS s ∧ t.cnv.hic = 0 ∧ t.pins.gden = .low ∧ getF Reg.CNV_STAT_ERR t = 0 ∧ t.answered .ok ∧
    Changes [.cnv, .pins, .resp] (oneOf [Reg.CNV_STAT, Reg.CNV_TRIMST, Reg.SYS_CLKSTAT]) s t) ∧
  (ready → cnvState s = 0 → startReason s = 0 →
    getF Reg.CNV_CFG_CLASS s = 2 → s.cnv.busOk = false → ∃ t, exec .cnvStart s = .next t ∧ cnvState t = 1 ∧ t.answered .ok ∧
    getF Reg.CNV_STAT_ERR t = 0 ∧ t.pins = s.pins ∧ Changes [.cnv, .resp] (oneOf [Reg.CNV_STAT, Reg.CNV_TRIMST]) s t) ∧
  (ready → cnvState s ≠ 0 → cnvState s ≠ 6 → startReason s = 0 → ∃ t, exec .cnvStart s = .next t ∧ t.answered .ok ∧
    Changes [.resp] (fun _ => False) s t) ∧
  (ready → cnvState s ≠ 6 → startReason s ≠ 0 →
    ∃ t, exec .cnvStart s = .next t ∧ getF Reg.CNV_STAT_ERR t = startReason s ∧ cnvState t = cnvState s ∧ t.answered .checkFail ∧
    Changes [.resp] (oneOf [Reg.CNV_STAT]) s t) ∧
  (coreUp s = true → free → converterHeldOff s = false → cnvState s = 6 → ∃ t, exec .cnvStart s = .next t ∧ t.answered .refusedBusy ∧
    Changes [.resp] (fun _ => False) s t) ∧
  (coreUp s = true → s.sys.phase ≠ .active → s.sys.transition = none → free → converterHeldOff s = false → cnvState s ≠ 6 →
    ∃ t, exec .cnvStart s = .next t ∧ t.answered .ok ∧ Changes [.resp] (fun _ => False) s t) ∧
  (coreUp s = true → (bit Reg.FLT_FENCE0_CNV s = true ∨ converterHeldOff s = true) →
    ∃ t, exec .cnvStart s = .next t ∧ t.answered .refusedFenced ∧ Changes [.resp] (fun _ => False) s t) ∧
  (coreUp s = true → bit Reg.FLT_FENCE0_CNV s = true → cnvState s ≠ 7 →
    (∃ t, exec .cnvStop s = .next t ∧ t.answered .refusedFenced ∧ Changes [.resp] (fun _ => False) s t) ∧
    (∃ t, exec .cnvClrflt s = .next t ∧ t.answered .refusedFenced ∧ Changes [.resp] (fun _ => False) s t) ∧
    ∃ t, exec .cnvLoadc s = .next t ∧ t.answered .refusedFenced ∧ Changes [.resp] (fun _ => False) s t) ∧
  (coreUp s = true → free → (cnvState s = 3 ∨ cnvState s = 4) → ∃ t, exec .cnvStop s = .next t ∧ cnvState t = 6 ∧ t.cnv.hic = 0 ∧
    t.cnv.stopT = s.now ∧ t.cnv.shed = none ∧ t.answered .ok ∧ t.pins = s.pins ∧
    Changes [.cnv, .resp, .imp, .fab, .free] (oneOf [Reg.CNV_STAT, Reg.IMP_STAT, Reg.IMP_EVT]) s t) ∧
  (coreUp s = true → free → (cnvState s = 1 ∨ cnvState s = 2 ∨ cnvState s = 5) → ∃ t, exec .cnvStop s = .next t ∧ cnvState t = 0 ∧
    t.cnv.hic = 0 ∧ t.pins.gden = .low ∧ t.pins.pwm = .low ∧ t.answered .ok ∧
    Changes [.cnv, .resp, .imp, .fab, .flt, .pins, .free] (oneOf [Reg.CNV_STAT, Reg.CNV_TRIMST, Reg.SYS_CLKSTAT, Reg.IMP_STAT, Reg.IMP_EVT]) s t) ∧
  (coreUp s = true → free → (cnvState s = 0 ∨ cnvState s = 6 ∨ cnvState s = 7 ∨ cnvState s = 8) → ∃ t, exec .cnvStop s = .next t ∧
    t.answered .ok ∧ Changes [.resp] (fun _ => False) s t) ∧
  (coreUp s = true → free → cnvState s = 8 → ∃ t, exec .cnvClrflt s = .next t ∧ cnvState t = 0 ∧ t.answered .ok ∧
    Changes [.cnv, .resp, .pins] (oneOf [Reg.CNV_STAT, Reg.CNV_TRIMST, Reg.SYS_CLKSTAT]) s t) ∧
  (coreUp s = true → cnvState s = 7 → getF Reg.CNV_VBS_VBS s % 65536 < busTarget s → ∃ t, exec .cnvClrflt s = .next t ∧ cnvState t = 0 ∧
    t.pins.pwm = .low ∧ t.pins.gden = .low ∧ t.answered .ok ∧ Changes [.cnv, .resp, .pins] (oneOf [Reg.CNV_STAT, Reg.CNV_TRIMST, Reg.SYS_CLKSTAT]) s t) ∧
  (coreUp s = true → cnvState s = 7 → busTarget s ≤ getF Reg.CNV_VBS_VBS s % 65536 → ∃ t, exec .cnvClrflt s = .next t ∧ t.answered .ok ∧
    Changes [.resp] (fun _ => False) s t) ∧
  (coreUp s = true → free → cnvState s ≠ 7 → cnvState s ≠ 8 → ∃ t, exec .cnvClrflt s = .next t ∧ t.answered .ok ∧
    Changes [.resp] (fun _ => False) s t) ∧
  (coreUp s = true → (free ∨ cnvState s = 7) → ∃ t, exec .cnvLoadc s = .next t ∧ t.cnv = { s.cnv with loadPend := true } ∧ t.answered .ok ∧
    Changes [.cnv, .resp] (fun _ => False) s t) ∧
  (s.cnv.loadPend = true → ∃ t, exec .coefficientLoad s = .next t ∧ t.cnv = { s.cnv with loadPend := false, clearPend := 0xE, coef := t.cnv.coef } ∧
    (∀ n, n < 4 → nth t.cnv.coef n [] = (List.range 7).map (fun i => shadowCoef n i s)) ∧ Changes [.cnv] (fun _ => False) s t) ∧
  (∀ c : Fin 4, coreUp s = true → getF Reg.CNV_CFG_VSRC s = 1 → ∃ t, exec (.cnvVselswWrite c) s = .next t ∧
    getF Reg.CNV_VSELSW_CODE t = c.val ∧ getF Reg.CNV_STAT_VSELACT t = c.val ∧ t.answered .ok ∧
    Changes [.cnv, .resp] (oneOf [Reg.CNV_VSELSW, Reg.CNV_STAT]) s t) ∧
  (∀ c : Fin 4, coreUp s = true → getF Reg.CNV_CFG_VSRC s ≠ 1 → ∃ t, exec (.cnvVselswWrite c) s = .next t ∧
    getF Reg.CNV_VSELSW_CODE t = c.val ∧ t.answered .ok ∧ Changes [.resp] (oneOf [Reg.CNV_VSELSW]) s t) ∧
  (∀ (k : Fin 4) (v : Fin 65536), coreUp s = true → bit Reg.SYS_LOCKSTAT_LTGT s = false → ∃ t, exec (.cnvVtgtWrite k v) s = .next t ∧
    getF (Reg.CNV_VTGT_VT k) t = v.val ∧ t.answered .ok ∧ Changes [.cnv, .resp] (oneOf [Reg.CNV_VTGT k]) s t) ∧
  (∀ (k : Fin 4) (v : Fin 65536), coreUp s = true → bit Reg.SYS_LOCKSTAT_LTGT s = true → ∃ t, exec (.cnvVtgtWrite k v) s = .next t ∧
    getF Reg.SYS_LOCKSTAT_ADDR t = Reg.CNV_VTGT k / 4 ∧
    getF Reg.SYS_LOCKSTAT_VIOL t = min (getF Reg.SYS_LOCKSTAT_VIOL s + 1) (2 ^ Reg.SYS_LOCKSTAT_VIOL.w - 1) ∧ t.answered .ok ∧
    Changes [.resp] (oneOf [Reg.SYS_LOCKSTAT]) s t) ∧
  (∀ c : Fin 4, coreUp s = true → getF Reg.CNV_CFG_VSRC s = 0 → ∃ t, exec (.vselCodeAccept c) s = .next t ∧
    getF Reg.CNV_STAT_VSELACT t = c.val ∧ t.cnv.pinCode = c.val ∧ Changes [.cnv] (oneOf [Reg.CNV_STAT]) s t) ∧
  (∀ c : Fin 4, coreUp s = true → getF Reg.CNV_CFG_VSRC s ≠ 0 →
    exec (.vselCodeAccept c) s = .next { s with cnv := { s.cnv with pinCode := c.val } })

/-- The converter's way from the bus check to RUN, its hiccups and its stops. -/
def Obligations.ConverterStates : Prop := ∀ s : State,
  let sound := fun means : List Int => ∀ n < 4, beyondTest n (nth means n 0) s = false ∧ beyondTest n (-(nth means n 0)) s = false
  (∀ v : Nat, s.sys.phase = .active → cnvState s = 1 → getF Reg.CNV_BUS_BUSMIN s ≤ v → ∃ t, exec (.busPresent v) s = .next t ∧ cnvState t = 2 ∧
    t.cnv.part = 1 ∧ t.cnv.busOk = true ∧ t.pins.gden = .low ∧ t.pins.pwm = .startTests ∧
    Changes [.cnv, .pins] (oneOf [Reg.CNV_STAT, Reg.CNV_TRIMST, Reg.SYS_CLKSTAT]) s t) ∧
  (∀ v : Nat, v < getF Reg.CNV_BUS_BUSMIN s → exec (.busPresent v) s = .next s) ∧
  (∀ v : Nat, s.cnv.cls = 2 → (cnvState s = 3 ∨ cnvState s = 4) → v < getF Reg.CNV_BUS_BUSMIN s → ∃ t, exec (.busLoss v) s = .next t ∧
    cnvState t = 1 ∧ t.cnv.busOk = false ∧
    t.pins.gden = .low ∧ t.pins.pwm = .low ∧ (muted 77 s = false → 77 ∈ t.flt.waiting) ∧ regBit Reg.CNV_EVT 1 t = true ∧
    Changes [.cnv, .pins, .imp, .fab, .flt, .free] (oneOf [Reg.CNV_STAT, Reg.CNV_TRIMST, Reg.SYS_CLKSTAT, Reg.CNV_EVT, Reg.IMP_STAT, Reg.IMP_EVT]) s t) ∧
  (∀ v : Nat, getF Reg.CNV_BUS_BUSMIN s ≤ v → exec (.busLoss v) s = .next s) ∧
  (∀ means : List Int, cnvState s = 2 → s.cnv.cls = 1 → s.cnv.part = 1 → s.cnv.stopT + 100 * us ≤ s.now → sound means → availablePhases s ≠ [] →
    ∃ t, exec (.checkSampleEnd means) s = .next t ∧
    t.pins = { s.pins with gden := .high } ∧ t.cnv = { s.cnv with part := 3, stopT := s.now } ∧ Changes [.cnv, .pins] (fun _ => False) s t) ∧
  (∀ means : List Int, cnvState s = 2 → s.cnv.cls = 1 → s.cnv.part = 1 → s.cnv.stopT + 100 * us ≤ s.now → getF Reg.CNV_PHCFG_PHEN s ≠ 0 → getF Reg.CNV_PHCFG_PHEN s < 16 →
    (∀ n < 4, beyondTest n (nth means n 0) s = true ∨ beyondTest n (-(nth means n 0)) s = true) →
    ∃ t, exec (.checkSampleEnd means) s = .next t ∧ cnvState t = 0 ∧ t.pins.gden = .low ∧ t.pins.pwm = .low ∧
    getF Reg.CNV_PHFLT_SENSE t = getF Reg.CNV_PHFLT_SENSE s ||| getF Reg.CNV_PHCFG_PHEN s ∧ (muted 80 s = false → 80 ∈ t.flt.waiting) ∧
    t.pending = s.pending) ∧
  (∀ v : Nat, cnvState s = 2 → s.cnv.part = 3 → s.cnv.stopT + 20 * us ≤ s.now → availablePhases s ≠ [] → ∃ t, exec (.driverWakeDone v) s = .next t ∧ cnvState t = 3 ∧
    t.pins.pwm = .switching ∧
    t.pins.gden = .high ∧ getF Reg.CNV_STAT_ACT t = phaseMask (availablePhases s) ∧ t.cnv.softT = s.now ∧
    t.cnv.rampV = min v (busTarget s) ∧ getF Reg.CNV_VBS_VBS t = min v 65535 ∧
    Changes [.cnv, .pins] (oneOf [Reg.CNV_STAT, Reg.CNV_TRIMST, Reg.SYS_CLKSTAT, Reg.CNV_VBS]) s t) ∧
  (∀ v : Nat, cnvState s = 2 → s.cnv.part = 3 → s.cnv.stopT + 20 * us ≤ s.now → availablePhases s = [] → ∃ t, exec (.driverWakeDone v) s = .next t ∧ cnvState t = 0 ∧
    t.pins.gden = .low ∧ t.pins.pwm = .low ∧
    Changes [.cnv, .pins, .imp, .fab, .flt, .free] (oneOf [Reg.CNV_STAT, Reg.CNV_TRIMST, Reg.SYS_CLKSTAT, Reg.IMP_STAT, Reg.IMP_EVT]) s t) ∧
  (∀ (means : List Int) (r : Int) (v : Nat), cnvState s = 2 → s.cnv.cls = 2 → s.cnv.part = 1 → s.cnv.stopT + 100 * us ≤ s.now → sound means → r ≤ 1000 → availablePhases s ≠ [] →
    ∃ t, exec (.shsTestPartEnd means r v) s = .next t ∧
    t.pins = { s.pins with gden := .high } ∧ t.cnv = { s.cnv with part := 2, stopT := s.now } ∧ Changes [.cnv, .pins] (fun _ => False) s t) ∧
  (∀ (means : List Int) (r : Int) (v : Nat), cnvState s = 2 → s.cnv.cls = 2 → s.cnv.part = 2 → s.cnv.stopT + 50 * us ≤ s.now → sound means → r ≤ 1000 → availablePhases s ≠ [] →
    ∃ t, exec (.shsTestPartEnd means r v) s = .next t ∧ cnvState t = 3 ∧ t.pins.pwm = .switching ∧ getF Reg.CNV_VBS_VBS t = min v 65535 ∧
    Changes [.cnv, .pins] (oneOf [Reg.CNV_STAT, Reg.CNV_TRIMST, Reg.SYS_CLKSTAT, Reg.CNV_VBS]) s t) ∧
  (∀ (means : List Int) (r : Int) (v : Nat), cnvState s = 2 → s.cnv.cls = 2 → (s.cnv.part = 1 ∨ s.cnv.part = 2) → s.cnv.stopT + (if s.cnv.part = 1 then 100 else 50) * us ≤ s.now → 1000 < r →
    getF Reg.CNV_PHCFG_PHEN s ≠ 0 → getF Reg.CNV_PHCFG_PHEN s < 16 →
    ∃ t, exec (.shsTestPartEnd means r v) s = .next t ∧ cnvState t = 8 ∧ t.pins.gden = .low ∧ t.pins.pwm = .low ∧ getF Reg.CNV_PHFLT_SHS t ≠ 0 ∧
    (muted 72 s = false → 72 ∈ t.flt.waiting) ∧ regBit Reg.CNV_EVT 2 t = true ∧ t.pending = s.pending) ∧
  (cnvState s = 3 → s.cnv.softT + softTime s ≤ s.now → ∃ t, exec .softStartComplete s = .next t ∧ cnvState t = 4 ∧ regBit Reg.CNV_EVT 0 t = true ∧
    t.cnv = { s.cnv with softT := s.now } ∧ Changes [.cnv, .fab] (oneOf [Reg.CNV_STAT, Reg.CNV_EVT]) s t) ∧
  (s.cnv.cls = 1 → (cnvState s = 3 ∨ cnvState s = 4) → shortStands s = true → s.cnv.hic < getF Reg.CNV_SSCFG_HICNT s →
    ∃ t, exec .shortDetect s = .next t ∧
    cnvState t = 5 ∧ t.cnv.hic = s.cnv.hic + 1 ∧ t.cnv.stopT = s.now ∧ t.pins.gden = .low ∧ t.pins.pwm = .low ∧
    (muted 77 s = false → 77 ∈ t.flt.waiting ∧ 74 ∈ t.flt.waiting) ∧
    getF Reg.CNV_EVTCNT_HICCUP t = min (getF Reg.CNV_EVTCNT_HICCUP s + 1) (2 ^ Reg.CNV_EVTCNT_HICCUP.w - 1) ∧
    Changes [.cnv, .pins, .imp, .fab, .flt, .free] (oneOf [Reg.CNV_STAT, Reg.CNV_TRIMST, Reg.SYS_CLKSTAT, Reg.CNV_EVTCNT, Reg.IMP_STAT, Reg.IMP_EVT]) s t) ∧
  (s.cnv.cls = 1 → (cnvState s = 3 ∨ cnvState s = 4) → shortStands s = true → getF Reg.CNV_SSCFG_HICNT s ≤ s.cnv.hic →
    ∃ t, exec .shortDetect s = .next t ∧
    cnvState t = 8 ∧ t.pins.gden = .low ∧ t.pins.pwm = .low ∧ regBit Reg.CNV_EVT 2 t = true ∧
    (muted 77 s = false → 77 ∈ t.flt.waiting ∧ 75 ∈ t.flt.waiting) ∧
    Changes [.cnv, .pins, .imp, .fab, .flt, .free] (oneOf [Reg.CNV_STAT, Reg.CNV_TRIMST, Reg.SYS_CLKSTAT, Reg.CNV_EVT, Reg.IMP_STAT, Reg.IMP_EVT]) s t) ∧
  (s.cnv.cls ≠ 1 ∨ shortStands s = false → exec .shortDetect s = .next s) ∧
  (cnvState s = 5 → s.cnv.stopT + max (10 * ms) (10 * softTime s) ≤ s.now → ∃ t, exec .hiccupOffElapsed s = .next t ∧ cnvState t = 2 ∧ t.cnv.part = 1 ∧ t.cnv.stopT = s.now ∧ t.cnv.hic = s.cnv.hic ∧ t.pins.gden = .low ∧
    Changes [.cnv, .pins] (oneOf [Reg.CNV_STAT, Reg.CNV_TRIMST, Reg.SYS_CLKSTAT]) s t) ∧
  (cnvState s = 4 → s.cnv.softT + 1000 * ms ≤ s.now → exec .hiccupCountClear s = .next { s with cnv := { s.cnv with hic := 0 } }) ∧
  (cnvState s = 6 → s.cnv.stopT + softTime s ≤ s.now → ∃ t, exec .rampDownComplete s = .next t ∧ cnvState t = 0 ∧ t.pins.gden = .low ∧ t.pins.pwm = .low ∧
    regBit Reg.CNV_EVT 1 t = true ∧
    Changes [.cnv, .pins, .imp, .fab, .flt, .free] (oneOf [Reg.CNV_STAT, Reg.CNV_TRIMST, Reg.SYS_CLKSTAT, Reg.CNV_EVT, Reg.IMP_STAT, Reg.IMP_EVT]) s t) ∧
  (∀ (means : List Int) (r : Int) (v : Nat), s.now < s.cnv.stopT + 20 * us → exec (.checkSampleEnd means) s = .next s ∧
    exec (.driverWakeDone v) s = .next s ∧ exec (.shsTestPartEnd means r v) s = .next s) ∧
  (s.now < s.cnv.softT + softTime s → s.now < s.cnv.stopT + softTime s → softTime s < 1000 * ms → exec .softStartComplete s = .next s ∧
    exec .rampDownComplete s = .next s ∧ exec .hiccupOffElapsed s = .next s ∧ exec .hiccupCountClear s = .next s)

/-- The switching period, the phase trims, shedding, load steps and braking. -/
def Obligations.ConverterRegulation : Prop := ∀ s : State,
  let total := (s.cnv.samples.map (fun e => e.2.natAbs)).sum
  (∀ (sense valley : List Int) (vbs vmod : Nat), switching s = true → ∃ t, exec (.switchingPeriod sense valley vbs vmod) s = .next t ∧
    (getF Reg.CNV_DLIM_DMIN s ≤ getF Reg.CNV_DLIM_DMAX s → bit Reg.CNV_STAT_BRK s = false →
      ∀ n, n < 4 → (getF Reg.CNV_STAT_ACT s).testBit n = true →
      getF Reg.CNV_DLIM_DMIN s ≤ nth t.cnv.duty n 0 ∧ nth t.cnv.duty n 0 ≤ getF Reg.CNV_DLIM_DMAX s) ∧
    t.cnv.dead = List.replicate 4 (deadTime s) ∧ t.cnv.cutHigh = 0 ∧ t.cnv.cutLow = 0 ∧ t.cnv.vmod = vmod ∧ getF Reg.CNV_VBS_VBS t = min vbs 65535 ∧
    t.cnv.coef = s.cnv.coef ∧ t.cnv.trim = s.cnv.trim ∧
    Changes [.cnv] (oneOf [Reg.CNV_IPH 0, Reg.CNV_IPH 1, Reg.CNV_IPH 2, Reg.CNV_IPH 3, Reg.CNV_ITOT, Reg.CNV_VBS, Reg.CNV_STAT]) s t) ∧
  (∀ (sense valley : List Int) (vbs vmod : Nat), switching s = false → exec (.switchingPeriod sense valley vbs vmod) s = .next s) ∧
  (cnvState s = 4 → ∃ t, exec .phaseEqualisation s = .next t ∧ t.cnv.phSum = [0, 0, 0, 0] ∧ t.cnv.phCnt = 0 ∧
    (bit Reg.CNV_TRIMCFG_EN s = false → t.cnv = { s.cnv with phSum := [0, 0, 0, 0], phCnt := 0 } ∧ t.regs = s.regs) ∧
    Changes [.cnv] (oneOf [Reg.CNV_TRIMST]) s t) ∧
  (∀ (n : Fin 4) (b : Nat), cnvState s = 4 → nth s.cnv.trimSince n.val none = some b → b + 10 * ms ≤ s.now → ∃ t, exec (.trimLimitTimeout n) s = .next t ∧
    (getF Reg.CNV_PHFLT_IMB t).testBit n.val = true ∧
    (muted 79 s = false → 79 ∈ t.flt.waiting) ∧ t.sys = s.sys ∧ t.cal = s.cal ∧ t.pending = s.pending) ∧
  (∀ n : Fin 4, (nth s.cnv.trimSince n.val none).all (fun b => decide (s.now < b + 10 * ms)) = true → exec (.trimLimitTimeout n) s = .next s) ∧
  (mayShed s = false → getF Reg.CNV_STAT_LEVEL s = 0 → exec .shedDecision s = .next s) ∧
  (mayShed s = true → s.cnv.samples ≠ [] → getF Reg.CNV_STAT_LEVEL s = 0 → 2 < (availablePhases s).length →
    total < getF Reg.CNV_LL_SHED2 s * 128 * s.cnv.samples.length →
    exec .shedDecision s = .next { s with cnv := { s.cnv with shed := some (1, 8) } }) ∧
  (cnvState s = 4 → s.cnv.shed = none → s.cnv.samples ≠ [] → getF Reg.CNV_STAT_LEVEL s = 1 → availablePhases s ≠ [] →
    getF Reg.CNV_LL_SHED2 s * 160 * s.cnv.samples.length < total → ∃ t, exec .shedDecision s = .next t ∧ getF Reg.CNV_STAT_LEVEL t = 0 ∧
    getF Reg.CNV_STAT_ACT t = phaseMask (availablePhases s) ∧ Changes [.cnv] (oneOf [Reg.CNV_STAT, Reg.CNV_TRIMST]) s t) ∧
  (∀ l : Nat, s.cnv.shed = some (l, 0) → l < 4 → switching s = true → phasesAtLevel l (availablePhases s) ≠ [] →
    ∃ t, exec .shedWindowEnd s = .next t ∧ t.cnv.shed = none ∧ getF Reg.CNV_STAT_LEVEL t = l ∧
    getF Reg.CNV_STAT_ACT t = phaseMask (phasesAtLevel l (availablePhases s)) ∧
    Changes [.cnv] (oneOf [Reg.CNV_STAT, Reg.CNV_TRIMST]) s t) ∧
  (∀ (l n : Nat), s.cnv.shed = some (l, n + 1) → exec .shedWindowEnd s = .next s) ∧
  (switching s = true → loadStepStands s = true → s.cnv.shed.isSome = true → ∃ t, exec .loadStepDetect s = .next t ∧ t.cnv.shed = none ∧
    t.cnv.shedHold = some (s.now + 10 * ms) ∧ regBit Reg.CNV_EVT 4 t = true ∧ bit Reg.CNV_STAT_BRK t = false ∧
    getF Reg.CNV_EVTCNT_SHEDABT t = min (getF Reg.CNV_EVTCNT_SHEDABT s + 1) (2 ^ Reg.CNV_EVTCNT_SHEDABT.w - 1) ∧
    Changes [.cnv, .fab, .pins] (oneOf [Reg.CNV_STAT, Reg.CNV_EVT, Reg.CNV_EVTCNT]) s t) ∧
  (switching s = true → loadStepStands s = true → s.cnv.shed = none → getF Reg.CNV_STAT_LEVEL s ≠ 0 → availablePhases s ≠ [] →
    ∃ t, exec .loadStepDetect s = .next t ∧ getF Reg.CNV_STAT_LEVEL t = 0 ∧ t.cnv.shedHold = some (s.now + 10 * ms) ∧
    getF Reg.CNV_STAT_ACT t = phaseMask (availablePhases s) ∧ Changes [.cnv, .pins] (oneOf [Reg.CNV_STAT, Reg.CNV_TRIMST]) s t) ∧
  (loadStepStands s = false → exec .loadStepDetect s = .next s) ∧
  (∀ h : Nat, s.cnv.shedHold = some h → h ≤ s.now → exec .shedHoldExpiry s = .next { s with cnv := { s.cnv with shedHold := none } }) ∧
  (∀ h : Nat, s.cnv.shedHold = some h → s.now < h → mayShed s = false ∧ exec .shedHoldExpiry s = .next s) ∧
  (s.cnv.cls = 1 → switching s = true → bit Reg.CNV_LL_BRKEN s = true → bit Reg.CNV_STAT_BRK s = false → busAbove 10 s = true →
    0 < signed 16 (getF Reg.CNV_ITOT_ITOT s % 65536) →
    ∃ t, exec .brakingStart s = .next t ∧ bit Reg.CNV_STAT_BRK t = true ∧ t.pins = { s.pins with pwm := .low } ∧
    t.cnv = { s.cnv with brakeLeft := 64 } ∧
    getF Reg.CNV_EVTCNT_BRAKE t = min (getF Reg.CNV_EVTCNT_BRAKE s + 1) (2 ^ Reg.CNV_EVTCNT_BRAKE.w - 1) ∧
    Changes [.cnv, .pins] (oneOf [Reg.CNV_STAT, Reg.CNV_EVTCNT]) s t) ∧
  (bit Reg.CNV_STAT_BRK s = true → (s.cnv.brakeLeft = 0 ∨ ((busVoltage s : Nat) : Int) < voltageReference s + 5 * getF Reg.CNV_LSD_LSV s) →
    ∃ t, exec .brakingEnd s = .next t ∧ bit Reg.CNV_STAT_BRK t = false ∧ t.pins = { s.pins with pwm := .switching } ∧
    t.cnv = { s.cnv with errs := List.replicate 4 [0, 0, 0], outs := List.replicate 4 [0, 0, 0], brakeLeft := 0 } ∧
    Changes [.cnv, .pins] (oneOf [Reg.CNV_STAT]) s t) ∧
  (s.cnv.brakeLeft ≠ 0 → voltageReference s + 5 * getF Reg.CNV_LSD_LSV s ≤ ((busVoltage s : Nat) : Int) → exec .brakingEnd s = .next s) ∧
  (planActive s = true → s.imp.start ≤ s.ft + ms → cnvState s = 4 → availablePhases s ≠ [] →
    ∃ t, exec .continuousConductionStart s = .next t ∧ t.imp = { s.imp with ccm := true } ∧ diodeEmulation t = false ∧ t.cnv.shed = none ∧
    getF Reg.CNV_STAT_LEVEL t = 0 ∧ getF Reg.CNV_STAT_ACT t = phaseMask (availablePhases s) ∧
    Changes [.cnv, .imp] (oneOf [Reg.CNV_STAT, Reg.CNV_TRIMST]) s t)

/-- The crowbar, the limits, the trips and the readback. -/
def Obligations.ConverterProtections : Prop := ∀ s : State,
  let stop := fun (dest : Nat) (src : Nat) (t : State) => cnvState t = dest ∧ t.pins.gden = .low ∧ t.pins.pwm = .low ∧
    getF Reg.CNV_STAT_ACT t = 0 ∧ (muted src s = false → src ∈ t.flt.waiting) ∧
    Changes [.cnv, .pins, .imp, .fab, .flt, .free] (oneOf [Reg.CNV_STAT, Reg.CNV_TRIMST, Reg.SYS_CLKSTAT, Reg.CNV_EVT, Reg.IMP_STAT, Reg.IMP_EVT]) s t
  let high := fun (v : Nat) => 62000 < v ∨ busTarget s * (200 + getF Reg.CNV_BUS_OVP s) < v * 200
  let fired := fun (v : Nat) (t : State) => cnvState t = 7 ∧ t.pins.pwm = .lowSidesOn (crowbarPhases s) ∧ t.pins.gden = .high ∧
    regBit Reg.CNV_EVT 3 t = true ∧ (muted 76 s = false → 76 ∈ t.flt.waiting) ∧ getF Reg.CNV_VBS_VBS t = min v 65535 ∧
    Changes [.cnv, .pins, .imp, .fab, .flt, .free] (oneOf [Reg.CNV_STAT, Reg.CNV_TRIMST, Reg.SYS_CLKSTAT, Reg.CNV_EVT, Reg.CNV_VBS, Reg.IMP_STAT, Reg.IMP_EVT]) s t
  let limit := fun (n : Fin 4) (i : Nat) => ((i * getF (Reg.CNV_CSG_CSG n.val) s : Nat) : Int)
  (∀ v : Nat, s.sys.phase = .active → converterHeldOff s = false → busRegulation s = true → cnvState s ≠ 8 → cnvState s ≠ 7 → high v → ∃ t, exec (.crowbarFire v) s = .next t ∧ fired v t) ∧
  (∀ v : Nat, s.sys.phase = .active → converterHeldOff s = false → s.cnv.cls = 1 → cnvState s = 8 → s.cnv.faultAt = some s.now → high v →
    ∃ t, exec (.crowbarFire v) s = .next t ∧ fired v t) ∧
  (∀ v : Nat, ¬ high v ∨ converterHeldOff s = true → exec (.crowbarFire v) s = .next s) ∧
  (∀ (n : Fin 4) (v : Int), switching s = true → limit n (getF Reg.CNV_ILIM_IPK s) < v * 10 → ∃ t, exec (.cycleLimit n v) s = .next t ∧
    t.cnv.cutHigh.testBit n.val = true ∧ t.cnv = { s.cnv with cutHigh := t.cnv.cutHigh } ∧ Changes [.cnv] (fun _ => False) s t) ∧
  (∀ (n : Fin 4) (v : Int), switching s = true → v < 0 → v * 10 < -limit n (getF Reg.CNV_ILIM_INEG s) → ∃ t, exec (.cycleLimit n v) s = .next t ∧
    t.cnv.cutLow.testBit n.val = true ∧ t.cnv = { s.cnv with cutLow := t.cnv.cutLow } ∧ Changes [.cnv] (fun _ => False) s t) ∧
  (∀ (n : Fin 4) (v : Int), v * 10 ≤ limit n (getF Reg.CNV_ILIM_IPK s) → -limit n (getF Reg.CNV_ILIM_INEG s) ≤ v * 10 →
    exec (.cycleLimit n v) s = .next s) ∧
  (cnvState s = 4 → limitSustained s = true → ∃ t, exec .currentLimitSustained s = .next t ∧ (muted 73 s = false → 73 ∈ t.flt.waiting) ∧ cnvState t = 4 ∧
    Changes [.imp, .fab, .flt, .free] (oneOf [Reg.IMP_STAT, Reg.IMP_EVT]) s t) ∧
  (∀ (n : Fin 4) (v : Int), s.sys.phase = .active → cnvState s ≠ 0 → cnvState s ≠ 8 → cnvState s ≠ 7 → 3 * limit n (getF Reg.CNV_ILIM_IPK s) < v * 20 →
    ∃ t, exec (.hardTrip n v) s = .next t ∧ stop 8 73 t ∧ regBit Reg.CNV_EVT 2 t = true) ∧
  (∀ (n : Fin 4) (v : Int), s.sys.phase = .active → (cnvState s = 0 ∨ cnvState s = 8 ∨ cnvState s = 7) → v < 0 →
    v * 20 < -(3 * limit n (getF Reg.CNV_ILIM_INEG s)) → exec (.hardTrip n v) s = .next (pulse 73 s)) ∧
  (∀ (n : Fin 4) (v : Int), v * 20 ≤ 3 * limit n (getF Reg.CNV_ILIM_IPK s) → -(3 * limit n (getF Reg.CNV_ILIM_INEG s)) ≤ v * 20 →
    exec (.hardTrip n v) s = .next s) ∧
  (∀ v : Nat, s.cnv.cls = 2 → cnvState s ≠ 0 → cnvState s ≠ 8 → cnvState s ≠ 7 → 62000 < v → ∃ t, exec (.transferOvervoltage v) s = .next t ∧
    stop 0 76 t ∧ (switching s = true → regBit Reg.CNV_EVT 1 t = true)) ∧
  (∀ v : Nat, s.cnv.cls = 1 ∨ v ≤ 62000 → exec (.transferOvervoltage v) s = .next s) ∧
  (∀ v : Nat, cnvState s ≠ 0 → cnvState s ≠ 8 → cnvState s ≠ 7 → (v < 20000 ∨ 145000 < v) → ∃ t, exec (.moduleVoltageFault v) s = .next t ∧ stop 0 78 t) ∧
  (∀ v : Nat, 20000 ≤ v → v ≤ 145000 → exec (.moduleVoltageFault v) s = .next s) ∧
  (∀ n : Fin 4, s.sys.phase = .active → ∃ t, exec (.pinReadbackMismatch n) s = .next t ∧
    (getF Reg.CNV_PHFLT_RB t).testBit n.val = true ∧ (muted 82 s = false → 82 ∈ t.flt.waiting) ∧
    (switching s = true → (getF Reg.CNV_STAT_ACT t).testBit n.val = false) ∧ t.sys = s.sys ∧ t.cal = s.cal ∧ t.pending = s.pending) ∧
  (s.sys.phase = .active → testing 17 s = false → ∃ t, exec .compensatorMismatch s = .next t ∧ (muted 83 s = false → 83 ∈ t.flt.waiting) ∧
    Changes [.flt] (fun _ => False) s t)

/-- CSYNC: edges in and out of range, the lock after sixteen, the loss, and a stuck level. -/
def Obligations.ExternalSynchronisation : Prop := ∀ s : State,
  let on := s.sys.phase = .active ∧ bit Reg.CNV_SYNC_SYNCEN s = true
  let ended := fun t : State => t.cnv = { s.cnv with inRange := 0, outRange := 0, edge := none, tracking := false, alignLeft := 0, slew := true, spreadFrom := (s.now / ms + 1) * ms }
  (on → s.cnv.edge = none → exec .csyncEdge s = .next { s with cnv := { s.cnv with csyncAt := some s.now, edge := some s.now, inRange := 0, outRange := 0 } }) ∧
  (∀ e : Nat, on → s.cnv.edge = some e → 800000 ≤ (s.now - e) * getF Reg.CNV_PHCFG_FSW s → (s.now - e) * getF Reg.CNV_PHCFG_FSW s ≤ 1250000 →
    ∃ t, exec .csyncEdge s = .next t ∧ t.cnv = { s.cnv with csyncAt := some s.now, edge := some s.now, inRange := min (s.cnv.inRange + 1) 16, outRange := 0, csync := s.now - e, tracking := t.cnv.tracking, slew := t.cnv.slew, alignLeft := t.cnv.alignLeft } ∧
    t.cnv.tracking = (s.cnv.tracking || decide (15 ≤ s.cnv.inRange)) ∧ Changes [.cnv, .free] (fun _ => False) s t) ∧
  (∀ e : Nat, on → s.cnv.edge = some e → (s.now - e) * getF Reg.CNV_PHCFG_FSW s < 800000 →
    exec .csyncEdge s = .next { s with cnv := { s.cnv with csyncAt := some s.now, inRange := 0, outRange := s.cnv.outRange + 1 } }) ∧
  (∀ e : Nat, on → s.cnv.edge = some e → 1250000 < (s.now - e) * getF Reg.CNV_PHCFG_FSW s →
    exec .csyncEdge s = .next { s with cnv := { s.cnv with csyncAt := some s.now, edge := some s.now, inRange := 0, outRange := s.cnv.outRange + 1 } }) ∧
  (bit Reg.CNV_SYNC_SYNCEN s = false → exec .csyncEdge s = .next s ∧ exec .csyncStuck s = .next s) ∧
  (s.cnv.tracking = true → syncLost s = true → bit Reg.CNV_STAT_SYNCLK s = true → ∃ t, exec .syncLoss s = .next t ∧ ended t ∧
    bit Reg.CNV_STAT_SYNCLK t = false ∧ regBit Reg.CNV_EVT 5 t = true ∧
    getF Reg.CNV_EVTCNT_SYNCLOSS t = min (getF Reg.CNV_EVTCNT_SYNCLOSS s + 1) (2 ^ Reg.CNV_EVTCNT_SYNCLOSS.w - 1) ∧
    (muted 81 s = false → 81 ∈ t.flt.waiting) ∧
    Changes [.cnv, .flt, .fab] (oneOf [Reg.CNV_STAT, Reg.CNV_EVTCNT, Reg.CNV_EVT]) s t) ∧
  (s.cnv.tracking = true → syncLost s = true → bit Reg.CNV_STAT_SYNCLK s = false → ∃ t, exec .syncLoss s = .next t ∧ ended t ∧
    Changes [.cnv] (fun _ => False) s t) ∧
  (s.cnv.tracking = false ∨ syncLost s = false → exec .syncLoss s = .next s) ∧
  (∀ e : Nat, s.cnv.csyncAt = some e → s.now < e + getF Reg.CNV_SYNC_STUCKTO s * 10 * ms → exec .csyncStuck s = .next s) ∧
  (on → getF Reg.CNV_SYNC_STUCKTO s ≠ 0 → bit Reg.CNV_STAT_SYNCSTK s = false →
    s.cnv.csyncAt.all (fun e => decide (e + getF Reg.CNV_SYNC_STUCKTO s * 10 * ms ≤ s.now)) = true → ∃ t, exec .csyncStuck s = .next t ∧
    bit Reg.CNV_STAT_SYNCSTK t = true ∧ (muted 81 s = false → 81 ∈ t.flt.waiting) ∧ regBit Reg.CNV_EVT 5 t = true ∧
    Changes [.flt, .fab] (oneOf [Reg.CNV_STAT, Reg.CNV_EVT]) s t)

/-- The control tick: the profile, the voltage loop, the frozen and the reset engine, the table copy, and the fence. -/
def Obligations.ControlTick : Prop := ∀ s : State,
  let rises := bit Reg.CTL_STAT_LUTPEND s = false ∨ bit Reg.CTL_CFG_LUTEN s = false ∨
    tableFalls (getF Reg.CTL_LUTCFG_NENT s) (shadowTable s) = false
  let runs := s.sys.phase = .active ∧ tickDue s = true ∧ bit Reg.CTL_STAT_FEN s = false ∧ rises
  (∀ (vbs vmod : Nat) (i : Int), runs → busRegulation s = false → (cnvState s = 3 ∨ cnvState s = 4) → ∃ t, exec (.controlTick vbs vmod i) s = .next t ∧
    t.ctl.x = (nextProfile s).x ∧ t.ctl.v = (nextProfile s).v ∧ t.ctl.a = (nextProfile s).a ∧ t.ctl.base = profileBase (nextProfile s) s ∧
    getF Reg.CTL_STAT_MODE t = 2 ∧ t.ctl.integ = s.ctl.integ ∧ t.ctl.itot = i ∧ t.ctl.lastTick = some s.now ∧ getF Reg.CNV_VBS_VBS t = min vbs 65535 ∧
    Changes [.cnv, .ctl, .fab] (inBlocks [6, 7]) s t) ∧
  (∀ (vbs vmod : Nat) (i : Int), runs → busRegulation s = false → (cnvState s = 3 ∨ cnvState s = 4) → (nextProfile s).x = scaledTarget s →
    s.ctl.x ≠ scaledTarget s →
    ∃ t, exec (.controlTick vbs vmod i) s = .next t ∧ regBit Reg.CTL_EVT 0 t = true ∧ bit Reg.CTL_STAT_PMOVE t = false) ∧
  (∀ (vbs vmod : Nat) (i : Int), runs → busRegulation s = true → (cnvState s = 3 ∨ cnvState s = 4) → bit Reg.CTL_STAT_LUTPEND s = false →
    let e := clampI (voltageReference s) 0 65535
    let err := voltageReference s - vbs
    ∃ t, exec (.controlTick vbs vmod i) s = .next t ∧ t.ctl.integ = nextIntegrator err s ∧
    t.ctl.base = voltageBase err (lutGain err s) (nextIntegrator err s) s ∧ getF Reg.CTL_STAT_MODE t = 1 ∧ getF Reg.CTL_VERR_ERR t = half16 err ∧
    getF Reg.CNV_VREF_VREF t = e.toNat ∧ t.ctl.x = s.ctl.x ∧ Changes [.cnv, .ctl] (inBlocks [6, 7]) s t) ∧
  (∀ (vbs vmod : Nat) (i : Int), runs → cnvState s = 6 → ∃ t, exec (.controlTick vbs vmod i) s = .next t ∧ getF Reg.CTL_STAT_MODE t = 3 ∧ t.ctl.x = s.ctl.x ∧
    t.ctl.v = s.ctl.v ∧ t.ctl.a = s.ctl.a ∧ t.ctl.integ = s.ctl.integ ∧ t.ctl.base = s.ctl.base ∧ Changes [.cnv, .ctl] (inBlocks [6, 7]) s t) ∧
  (∀ (vbs vmod : Nat) (i : Int), runs → switching s = false → ∃ t, exec (.controlTick vbs vmod i) s = .next t ∧ getF Reg.CTL_STAT_MODE t = 0 ∧ t.ctl.x = 0 ∧
    t.ctl.v = 0 ∧ t.ctl.a = 0 ∧ t.ctl.integ = 0 ∧ t.ctl.base = 0 ∧ Changes [.cnv, .ctl] (inBlocks [6, 7]) s t) ∧
  (∀ (vbs vmod : Nat) (i : Int), runs → bit Reg.CTL_STAT_LUTPEND s = true → ∃ t, exec (.controlTick vbs vmod i) s = .next t ∧
    bit Reg.CTL_STAT_LUTPEND t = false ∧ t.ctl.nent = getF Reg.CTL_LUTCFG_NENT s ∧ ∀ k, k < 64 → nth t.ctl.table k 0#32 = reg s (Reg.CTL_LUT k)) ∧
  (∀ (vbs vmod : Nat) (i : Int), s.sys.phase = .active → tickDue s = true → bit Reg.CTL_STAT_FEN s = true → rises →
    ∃ t, exec (.controlTick vbs vmod i) s = .next t ∧
    t.ctl = { s.ctl with table := t.ctl.table, nent := t.ctl.nent, lastTick := some s.now, stepped := false, itot := i, trk := getF Reg.CTL_TRK_TRK s, evten := reg s Reg.CTL_EVTEN } ∧
    (bit Reg.CTL_STAT_LUTPEND s = false → t.ctl.table = s.ctl.table ∧ t.ctl.nent = s.ctl.nent) ∧
    t.cnv.dff = s.cnv.dff ∧ Changes [.cnv, .ctl] (oneOf [Reg.CNV_VBS, Reg.CNV_VREF, Reg.CTL_STAT]) s t) ∧
  (∀ (vbs vmod : Nat) (i : Int), s.sys.phase ≠ .active ∨ tickDue s = false → exec (.controlTick vbs vmod i) s = .next s)

/-- The profile never passes its target and never exceeds the limits in force. -/
def Obligations.ProfileNeverPasses : Prop := ∀ (p : Profile) (xt sw aw jm per : Int), 0 ≤ sw → 0 ≤ aw →
  let q := profileTick p xt sw aw jm per
  0 ≤ (q.x - xt) * (p.x - xt) ∧ (q.x = xt → p.x ≠ xt → q.v = 0 ∧ q.a = 0) ∧ (p.x = xt → q.x = xt) ∧
  -q.smax ≤ q.v ∧ q.v ≤ q.smax ∧ -q.amax ≤ q.a ∧ q.a ≤ q.amax ∧ sw ≤ q.smax ∧ aw ≤ q.amax

/-- The summing stage: its limits, the clamp, and the clip report. -/
def Obligations.SummingStage : Prop := ∀ s : State,
  (s.sys.phase = .active → switching s = true → 0 ≤ setPointClamp s → ∃ t, exec .summingUpdate s = .next t ∧ -(setPointClamp s) ≤ t.cnv.iset ∧
    t.cnv.iset ≤ setPointClamp s ∧ t.cnv = { s.cnv with iset := t.cnv.iset, setPoints := t.cnv.setPoints } ∧ t.ctl.lastBase = s.ctl.base ∧
    t.ctl = { s.ctl with lastBase := s.ctl.base, limited := t.ctl.limited, outs := t.ctl.outs } ∧
    Changes [.cnv, .ctl, .fab, .imp] (oneOf [Reg.CTL_SP, Reg.CTL_STAT, Reg.CTL_CNT, Reg.CTL_EVT]) s t) ∧
  (s.sys.phase = .active → switching s = false → ∃ t, exec .summingUpdate s = .next t ∧ t.cnv.iset = 0 ∧
    Changes [.cnv, .ctl, .fab, .imp] (oneOf [Reg.CTL_SP, Reg.CTL_STAT, Reg.CTL_CNT, Reg.CTL_EVT]) s t) ∧
  (s.sys.phase = .active → ∃ t, exec .summingUpdate s = .next t ∧
    signed 16 (getF Reg.CTL_SP_OUT t) ≤ openDiv (s.ctl.lpos * 512) 10 ∧ -openDiv (s.ctl.lneg * 512) 10 ≤ signed 16 (getF Reg.CTL_SP_OUT t) ∧
    (bit Reg.CTL_STAT_CLIP s = false → bit Reg.CTL_STAT_CLIP t = true → regBit Reg.CTL_EVT 1 t = true ∧
      getF Reg.CTL_CNT_CLIPCNT t = min (getF Reg.CTL_CNT_CLIPCNT s + 1) (2 ^ Reg.CTL_CNT_CLIPCNT.w - 1))) ∧
  (s.sys.phase ≠ .active → exec .summingUpdate s = .next s)

/-- LOADLUT, target writes, the communication-loss expiry at the target, and the engine's sources. -/
def Obligations.ControlCommands : Prop := ∀ s : State,
  let past := s.cpb.clStart + (getF Reg.CPB_CLTCFG_PERIOD s + 1) * 10 * ms ≤ s.now
  (coreUp s = true → bit Reg.CTL_STAT_FEN s = false → ∃ t, exec .loadlut s = .next t ∧ bit Reg.CTL_STAT_LUTPEND t = true ∧ t.answered .ok ∧
    Changes [.resp] (oneOf [Reg.CTL_STAT]) s t) ∧
  (∀ w : Fin 65536, coreUp s = true → bit Reg.CTL_STAT_FEN s = false → ∃ t, exec (.targetWrite w) s = .next t ∧
    getF Reg.CTL_TGT_TGT t = w.val ∧ t.answered .ok ∧
    (bit Reg.CTL_STAT_TGTCLP t = false ↔ -(getF Reg.CTL_LIM_NEG s * 512 : Int) ≤ signed 16 w * 10 ∧ signed 16 w * 10 ≤ getF Reg.CTL_LIM_POS s * 512) ∧
    Changes [.resp] (oneOf [Reg.CTL_TGT, Reg.CTL_STAT]) s t) ∧
  (coreUp s = true → bit Reg.CTL_STAT_FEN s = true →
    (∃ t, exec .loadlut s = .next t ∧ t.answered .refusedFenced ∧ Changes [.resp] (fun _ => False) s t) ∧
    ∀ w, ∃ t, exec (.targetWrite w) s = .next t ∧ t.answered .refusedFenced ∧ Changes [.resp] (fun _ => False) s t) ∧
  (s.sys.phase = .active → past → bit Reg.CTL_CFG_CLZERO s = true → busRegulation s = false → ∃ t, exec .communicationLossExpiry s = .next t ∧
    getF Reg.CTL_TGT_TGT t = 0 ∧ regBit Reg.CTL_EVT 3 t = true ∧ cnvState t = cnvState s) ∧
  (s.sys.phase = .active → past → busRegulation s = true → ∃ t, exec .communicationLossExpiry s = .next t ∧ reg t Reg.CTL_TGT = reg s Reg.CTL_TGT ∧
    t.ctl = s.ctl ∧ cnvState t = cnvState s) ∧
  (cnvState s = 4 → bit Reg.CNV_STAT_BRK s = false → s.cnv.shed = none → bit Reg.CTL_STAT_CLIP s = false → tracksBadly s = true →
    ∃ t, exec .trackingFault s = .next t ∧ t.flt.waiting = s.flt.waiting ++ [85] ∧ regBit Reg.CTL_EVT 2 t = true ∧
    getF Reg.CTL_CNT_TRKCNT t = min (getF Reg.CTL_CNT_TRKCNT s + 1) (2 ^ Reg.CTL_CNT_TRKCNT.w - 1) ∧
    Changes [.flt, .fab] (oneOf [Reg.CTL_CNT, Reg.CTL_EVT]) s t) ∧
  (cnvState s ≠ 4 ∨ bit Reg.CNV_STAT_BRK s = true ∨ s.cnv.shed.isSome = true ∨ bit Reg.CTL_STAT_CLIP s = true ∨ tracksBadly s = false →
    exec .trackingFault s = .next s) ∧
  (cnvState s = 4 → atLimit s = true → ∃ t, exec .outputAtLimit s = .next t ∧ t.flt.waiting = s.flt.waiting ++ [87] ∧ Changes [.flt] (fun _ => False) s t) ∧
  (cnvState s ≠ 4 ∨ atLimit s = false → exec .outputAtLimit s = .next s) ∧
  (∀ parity : Bool, s.sys.phase = .active → (parity = true ∨ testing 16 s = false) → ∃ t, exec (.ctlEngineFault parity) s = .next t ∧
    t.flt.waiting = s.flt.waiting ++ [if parity then 86 else 84] ∧ Changes [.flt] (fun _ => False) s t)

/-- Port states: detection, training, UP, low-power idle, and the wake pattern. -/
def Obligations.LinkStates : Prop := ∀ s : State,
  let only := fun (n : Fin 4) (t : State) => ∀ m, m < 4 → m ≠ n.val → port m t = port m s
  let rest := fun n : Fin 4 =>
    if bit Reg.LNK_STAT_LEGACY s then (if n.val < 2 ∧ bit (Reg.LNK_PCFG_EN n) s = true ∧ (port n s).fenced = false then 5 else 0)
    else if bit (Reg.LNK_PCFG_EN n) s = true ∧ (port n s).fenced = false then 1 else 0
  (∀ n : Fin 4, linksRun s = true → portState n s = 1 → (port n s).hush ≤ s.now → ∃ t, exec (.partnerTrainingDetect n) s = .next t ∧ portState n t = 2 ∧
    getF (Reg.LNK_PSTAT_EQACT n) t = wantedPreset n s ∧ (port n t).slew = getF (Reg.LNK_PCFG_SLEW n) s ∧ (port n t).drive = .training ∧
    only n t ∧ Changes [.lnk] (oneOf [Reg.LNK_PSTAT n, Reg.LNK_STAT, Reg.SYS_CLKSTAT]) s t) ∧
  (∀ n : Fin 4, linksRun s = true → portState n s = 4 → (port n s).hush ≤ s.now → ∃ t, exec (.partnerTrainingDetect n) s = .next t ∧ portState n t = 2 ∧
    getF (Reg.LNK_PSTAT_EQACT n) t = getF (Reg.LNK_PSTAT_EQACT n) s ∧ (port n t).fromLpi = true ∧ only n t ∧
    Changes [.lnk] (oneOf [Reg.LNK_PSTAT n, Reg.LNK_STAT, Reg.SYS_CLKSTAT]) s t) ∧
  (∀ n : Fin 4, s.now < (port n s).hush → exec (.partnerTrainingDetect n) s = .next s) ∧
  (∀ (n : Fin 4) (w : List Word) (l : List Pair), linksRun s = true → portState n s = 2 → lparKnown w = true → lparSelf w s = false →
    ∃ t, exec (.linkUp n w l) s = .next t ∧ portState n t = 3 ∧ regBit Reg.LNK_STAT n t = true ∧
    getF (Reg.LNK_PSTAT_PPORT n) t = getBits (nth w 1 0#32) 0 2 ∧ getF (Reg.LNK_PSTAT_PEPOCH n) t = getBits (nth w 1 0#32) 8 8 ∧
    (port n t).spA = (if (port n s).fromLpi then (port n s).spA.acked else Space.reset) ∧
    (port n t).spBd = (if (port n s).fromLpi then (port n s).spBd.acked else Space.reset) ∧ (port n t).fromLpi = false ∧ (port n t).rx = syncIdles l ∧
    (port n t).line = [frameLine (lparFrame n s) (acks (port n s).comeUp 0 false)] ∧ regBit Reg.LNK_EVT n t = true ∧ only n t ∧
    Changes [.lnk, .sys, .fab] (oneOf [Reg.LNK_PSTAT n, Reg.LNK_STAT, Reg.LNK_RBUF n, Reg.LNK_EVT, Reg.LNK_TXF n, Reg.LNK_RXF n, Reg.LNK_RTY n, Reg.SYS_PWRSTAT, Reg.SYS_CLKSTAT]) s t) ∧
  (∀ (n : Fin 4) (w : List Word) (l : List Pair), lparKnown w = false ∨ lparSelf w s = true → exec (.linkUp n w l) s = .next s) ∧
  (∀ (n : Fin 4) (c : Fin 6) (lp : Option (List Word)), linksRun s = true → portState n s = 2 → (port n s).fromLpi = false →
    (port n s).trainAt + 5000000 ≤ s.now → causeStands (c + 1) lp s = true → ∃ t, exec (.trainingAbandon n c lp) s = .next t ∧
    (∀ w, lp = some w → getF (Reg.LNK_PSTAT_PPORT n) t = getBits (nth w 1 0#32) 0 2 ∧ getF (Reg.LNK_PSTAT_PEPOCH n) t = getBits (nth w 1 0#32) 8 8) ∧
    portState n t = rest n ∧ getF (Reg.LNK_PSTAT_TRCAUSE n) t = c.val + 1 ∧ regBit Reg.LNK_EVT (8 + n) t = true ∧
    getF (Reg.LNK_LOSS_TRFAIL n) t = min (getF (Reg.LNK_LOSS_TRFAIL n) s + 1) (2 ^ (Reg.LNK_LOSS_TRFAIL n).w - 1) ∧ only n t ∧
    Changes [.lnk, .fab] (oneOf [Reg.LNK_PSTAT n, Reg.LNK_STAT, Reg.LNK_LOSS n, Reg.LNK_EVT, Reg.SYS_CLKSTAT]) s t) ∧
  (∀ (n : Fin 4) (c : Fin 6) (lp : Option (List Word)), portState n s ≠ 2 ∨ (port n s).fromLpi = true ∨ s.now < (port n s).trainAt + 5000000 →
    exec (.trainingAbandon n c lp) s = .next s) ∧
  (∀ n : Fin 4, linksRun s = true → portState n s = 1 → ∃ t, exec (.trainingSignalCycle n) s = .next t ∧
    port n t = { port n s with drive := if (port n s).hush ≤ s.now ∧ (s.now - (port n s).downAt) % (50 * ms) < 5 * ms then .training else .silent } ∧
    only n t ∧ Changes [.lnk] (fun _ => False) s t) ∧
  (∀ n : Fin 4, portUp n s = true → ∃ t, exec (.presetApply n) s = .next t ∧ getF (Reg.LNK_PSTAT_EQACT n) t = wantedPreset n s ∧
    portState n t = 3 ∧ Changes [] (oneOf [Reg.LNK_PSTAT n]) s t) ∧
  (∀ n : Fin 4, s.sys.phase = .standby → portUp n s = true → bit (Reg.LNK_PCFG_LPIEN n) s = true → (port n s).quiet = true →
    (port n s).lastFrame + getF Reg.LNK_CFG_LPITO s * 10000 ≤ s.now →
    ∃ t, exec (.lpiEntry n) s = .next t ∧ portState n t = 4 ∧ (port n t).drive = .silent ∧ (port n t).items = List.replicate 3 (.code codeLpi) ∧ only n t ∧
    Changes [.lnk] (oneOf [Reg.LNK_PSTAT n, Reg.LNK_STAT, Reg.SYS_CLKSTAT]) s t) ∧
  (∀ n : Fin 4, s.now < (port n s).lastFrame + getF Reg.LNK_CFG_LPITO s * 10000 → exec (.lpiEntry n) s = .next s) ∧
  (∀ n : Fin 4, portUp n s = true → ∃ t, exec (.lpiReceive n) s = .next t ∧ portState n t = 4 ∧ (port n t).drive = .silent ∧ only n t ∧
    Changes [.lnk] (oneOf [Reg.LNK_PSTAT n, Reg.LNK_STAT, Reg.SYS_CLKSTAT]) s t) ∧
  (∀ n : Fin 4, linksRun s = true → portState n s = 4 → ∃ t, exec (.lpiExit n) s = .next t ∧ portState n t = 2 ∧
    (port n t).fromLpi = true ∧ (port n t).drive = .training ∧ only n t ∧ Changes [.lnk] (oneOf [Reg.LNK_PSTAT n, Reg.LNK_STAT, Reg.SYS_CLKSTAT]) s t) ∧
  (∀ n : Fin 4, linksRun s = true → portState n s = 1 → bit (Reg.LNK_PCFG_WAKETX n) s = true →
    ∃ t, exec (.linkWakeCommand n) s = .next t ∧ portState n t = 6 ∧ (port n t).trainAt = s.now ∧ (port n t).drive = .wakePattern ∧ t.answered .ok ∧ only n t ∧
    Changes [.lnk, .resp] (oneOf [Reg.LNK_PSTAT n, Reg.LNK_STAT, Reg.SYS_CLKSTAT]) s t) ∧
  (∀ n : Fin 4, linksRun s = true → (portState n s ≠ 1 ∨ bit (Reg.LNK_PCFG_WAKETX n) s = false) →
    ∃ t, exec (.linkWakeCommand n) s = .next t ∧ t.answered .ok ∧ Changes [.resp] (fun _ => False) s t) ∧
  (∀ n : Fin 4, portState n s = 6 → (port n s).trainAt + 2 * ms ≤ s.now → ∃ t, exec (.wakePatternEnd n) s = .next t ∧ portState n t = rest n ∧ only n t ∧
    Changes [.lnk] (oneOf [Reg.LNK_PSTAT n, Reg.LNK_STAT, Reg.SYS_CLKSTAT]) s t) ∧
  (∀ n : Fin 4, s.now < (port n s).trainAt + 2 * ms → exec (.wakePatternEnd n) s = .next s)

/-- Link loss: its causes, its record, its source, and the empty port it leaves. -/
def Obligations.LinkLoss : Prop := ∀ s : State,
  let lost := fun (n : Fin 4) (cause : Nat) (t : State) => portUp n t = false ∧ getF (Reg.LNK_LOSS_LASTCAUSE n) t = cause ∧
    getF (Reg.LNK_LOSS_LOSSCNT n) t = min (getF (Reg.LNK_LOSS_LOSSCNT n) s + 1) (2 ^ (Reg.LNK_LOSS_LOSSCNT n).w - 1) ∧
    regBit Reg.LNK_EVT (4 + n) t = true ∧ (port n t).spA.buf = [] ∧ (port n t).spBd.buf = [] ∧ (port n t).qa = [] ∧ (port n t).qb = [] ∧
    (port n t).hush = s.now + 10000 ∧ (port n t).drive ≠ .training ∧ (port n t).drive ≠ .frames ∧
    t.sys = s.sys ∧ t.cal = s.cal ∧ t.cnv = s.cnv ∧ t.pending = s.pending
  (∀ n : Fin 4, portUp n s = true → ∃ t, exec (.signalEnergyLoss n) s = .next t ∧ lost n 1 t ∧ 88 + n.val ∈ t.flt.waiting) ∧
  (∀ n : Fin 4, portUp n s = true → ∃ t, exec (.receiveLockLoss n) s = .next t ∧ lost n 2 t ∧ 88 + n.val ∈ t.flt.waiting) ∧
  (∀ n : Fin 4, portUp n s = true → ∃ t, exec (.retryBufferParity n) s = .next t ∧ lost n 4 t ∧ 88 + n.val ∈ t.flt.waiting) ∧
  (∀ n : Fin 4, linksRun s = true → portState n s = 2 → (port n s).fromLpi = true → (port n s).trainAt + 200 * us ≤ s.now → ∃ t, exec (.lpiExitTimeout n) s = .next t ∧
    lost n 5 t ∧ 88 + n.val ∈ t.flt.waiting) ∧
  (∀ (n : Fin 4) (a : Bool), portUp n s = true → ackOverdue n (if a then .a else .b) s = true → ((port n s).space (if a then .a else .b)).buf ≠ [] →
    getF Reg.LNK_CFG_RETRYLIM s ≤ ((port n s).space (if a then .a else .b)).replays + 1 → ∃ t, exec (.ackTimeout n a) s = .next t ∧
    lost n 3 t ∧ 88 + n.val ∈ t.flt.waiting) ∧
  (∀ n : Fin 4, linksRun s = true → (portState n s = 3 ∨ portState n s = 4) → ∃ t, exec (.retrain n) s = .next t ∧ lost n 6 t ∧ t.answered .ok ∧
    t.flt.waiting.count (88 + n.val) = s.flt.waiting.count (88 + n.val)) ∧
  (∀ n : Fin 4, linksRun s = true → (portState n s = 1 ∨ portState n s = 2) → ∃ t, exec (.retrain n) s = .next t ∧ t.answered .ok ∧ (port n t).downAt = (if portState n t = 1 then s.now else (port n s).downAt) ∧
    Changes [.lnk, .resp] (oneOf [Reg.LNK_PSTAT n, Reg.LNK_STAT, Reg.SYS_CLKSTAT]) s t) ∧
  (∀ n : Fin 4, linksRun s = true → portState n s = 0 → ∃ t, exec (.retrain n) s = .next t ∧ t.answered .ok ∧ Changes [.resp] (fun _ => False) s t) ∧
  (∀ n : Fin 4, portUp n s = true → (port n s).beatAt + 3 * ms ≤ s.now → ∃ t, exec (.hoofbeatLost n) s = .next t ∧ lost n 6 t ∧
    96 + n.val ∈ t.flt.waiting) ∧
  (∀ n : Fin 4, s.now < (port n s).beatAt + 3 * ms → exec (.hoofbeatLost n) s = .next s) ∧
  (∀ n : Fin 4, s.now < (port n s).trainAt + 200 * us → exec (.lpiExitTimeout n) s = .next s)

/-- Every frame reads back from its symbol pairs on the line: scrambling, codes, header, checks, length and payload. -/
def Obligations.FramesReadBack : Prop := ∀ (f : Frame) (l : LinkFields), f.hop < 32 → f.src < 1024 → f.dst < 1024 → f.epoch < 256 → f.tag < 256 →
  f.payload.length ≤ payloadLimit f.cls → l.seq < 64 → l.akb < 64 → l.aka < 64 →
  let bs := frameLine f l
  (∀ x : BitVec 23, ((⟨x, false, none, none⟩ : Receiver).takePairs (linePairs x (frameItems codeSof codeEof bs))).2 = [(bs, false, false)]) ∧
  headerGood bs = true ∧ payloadBad bs = false ∧ lengthGood bs = true ∧ FrameType.ofCode (typeCode bs) = some f.type ∧
  Mode.ofCode (modeCode bs) = some f.mode ∧ headerClass bs = f.cls ∧ readLink bs = l ∧ readFrame bs f.type f.mode = f

/-- The CRC-8, the CRC-32C and the legacy CRC-16 give the spec's values for "123456789". -/
def Obligations.CheckFunctions : Prop :=
  let digits : List Byte := [0x31, 0x32, 0x33, 0x34, 0x35, 0x36, 0x37, 0x38, 0x39]
  crc8 digits = 0xDF#8 ∧ crc32c digits = 0xE3069283#32 ∧ crc16 digits = 0x29B1#16

/-- Reception: errors, frames out of order, and a frame that is delivered. -/
def Obligations.FrameReception : Prop := ∀ s : State,
  let plain := fun l : LinkFields => l.akbv = false ∧ l.nakb = false ∧ l.akav = false ∧ l.naka = false
  let sound := fun (f : Frame) (l : LinkFields) => f.hop < 32 ∧ f.src < 1024 ∧ f.dst < 1024 ∧ f.epoch < 256 ∧ f.tag < 256 ∧
    f.payload.length ≤ payloadLimit f.cls ∧ l.seq < 64 ∧ l.akb < 64 ∧ l.aka < 64
  let ready := fun n : Fin 4 => portUp n s = true ∧ (port n s).rx.pre = false
  let pairs := fun (n : Fin 4) (stop : Nat) (bs : List Byte) => linePairs (port n s).rx.scr (frameItems codeSof stop bs)
  (∀ (n : Fin 4) (bs : List Byte), ready n →
    ∃ t, exec (.frameReceive n (linePairs (port n s).rx.scr (LineItem.code codeSof :: bytesGroups bs ++ [LineItem.code 7, LineItem.code codeEof]))) s = .next t ∧
    getF (Reg.LNK_ERRB_CODE n) t = min (getF (Reg.LNK_ERRB_CODE n) s + 1) (2 ^ (Reg.LNK_ERRB_CODE n).w - 1) ∧
    t.flt.waiting = s.flt.waiting ++ [92 + n.val] ∧ t.lnk.errSum = (s.lnk.errSum + 1) % 65536 ∧ Changes [.lnk, .flt, .free] (oneOf [Reg.LNK_ERRB n]) s t) ∧
  (∀ (n : Fin 4) (bs : List Byte), ready n → headerGood bs = false → ∃ t, exec (.frameReceive n (pairs n codeEof bs)) s = .next t ∧
    getF (Reg.LNK_ERRA_HCRC n) t = min (getF (Reg.LNK_ERRA_HCRC n) s + 1) (2 ^ (Reg.LNK_ERRA_HCRC n).w - 1) ∧
    t.flt.waiting = s.flt.waiting ++ [92 + n.val] ∧ t.lnk.errSum = (s.lnk.errSum + 1) % 65536 ∧ Changes [.lnk, .flt, .free] (oneOf [Reg.LNK_ERRA n]) s t) ∧
  (∀ (n : Fin 4) (f : Frame) (l : LinkFields), ready n → sound f l → plain l → f.type.sequenced = true → l.seq ≠ ((port n s).space f.cls).rxNext →
    ∃ t, exec (.frameReceive n (pairs n codeEof (frameLine f l))) s = .next t ∧ ((port n t).space f.cls).ackPend = true ∧
    ((port n t).space f.cls).rxNext = ((port n s).space f.cls).rxNext ∧ Changes [.lnk] (fun _ => False) s t) ∧
  (∀ (n : Fin 4) (f : Frame) (l : LinkFields), ready n → sound f l → plain l → f.type.sequenced = true → l.seq = ((port n s).space f.cls).rxNext →
    f.mode = .routeWord → f.hop = 1 → ∃ t, exec (.frameReceive n (pairs n codeEof (frameLine f l))) s = .next t ∧
    t.fab.inbox.map Arrived.frame = s.fab.inbox.map Arrived.frame ++ [{ f with hop := 0 }] ∧
    ((port n t).space f.cls).rxNext = (((port n s).space f.cls).rxNext + 1) % 64 ∧ ((port n t).space f.cls).ackPend = true ∧
    reg t (Reg.LNK_RXF n) = reg s (Reg.LNK_RXF n) + 1#32 ∧ Changes [.lnk, .fab] (oneOf [Reg.LNK_RXF n]) s t) ∧
  (∀ (n : Fin 4) (f : Frame) (l : LinkFields), ready n → sound f l → plain l → bit Reg.LNK_CFG_CUTEN s = false →
    ∃ t, exec (.frameReceive n (pairs n codeAbt (frameLine f l))) s = .next t ∧ (port n t).spA = (port n s).spA ∧ (port n t).spBd = (port n s).spBd ∧
    Changes [.lnk] (fun _ => False) s t) ∧
  (∀ (n : Fin 4) (l : List Pair), portUp n s = false → exec (.frameReceive n l) s = .next s)

/-- Transmission: class A goes first, a pending acknowledgement leaves in a LACK, a replay sends the buffer again, and the legacy chain repeats. -/
def Obligations.FrameTransmission : Prop := ∀ s : State,
  let free := fun n : Fin 4 => portUp n s = true ∧ (port n s).busy s.now = false ∧ s.fab.bwait = []
  (∀ (n : Fin 4) (f : Frame), free n → (port n s).qa = [(4, f)] → f.cls = .a →
    f.type.sequenced = true → canSend (port n s) f = true → ∃ t, exec (.frameTransmit n) s = .next t ∧ (port n t).qa = [] ∧
    (port n t).line = [frameLine f (acks (port n s) (port n s).spA.txNext false)] ∧
    (port n t).spA.buf = (port n s).spA.buf ++ [((port n s).spA.txNext, 4, f)] ∧ (port n t).spA.txNext = ((port n s).spA.txNext + 1) % 64 ∧
    (port n t).qb = (port n s).qb ∧ reg t (Reg.LNK_TXF n) = reg s (Reg.LNK_TXF n) + 1#32 ∧
    Changes [.lnk, .fab] (oneOf [Reg.LNK_TXF n, Reg.LNK_RTY n, Reg.LNK_RBUF n]) s t) ∧
  (∀ n : Fin 4, free n → (port n s).qa = [] → (port n s).qb = [] → (port n s).qc = [] →
    (port n s).qd = [] → ackWaits (port n s) = true → ∃ t, exec (.frameTransmit n) s = .next t ∧ ackWaits (port n t) = false ∧
    (port n t).line = [frameLine (lackFrame s) (acks (port n s) 0 false)] ∧ (port n t).spA.buf = (port n s).spA.buf ∧
    Changes [.lnk, .fab] (oneOf [Reg.LNK_TXF n, Reg.LNK_RTY n, Reg.LNK_RBUF n]) s t) ∧
  (∀ n : Fin 4, portUp n s = true → (port n s).busy s.now = true → s.fab.bwait = [] → (port n s).qa = [] → ackWaits (port n s) = false →
    exec (.frameTransmit n) s = .next s) ∧
  (∀ (n : Fin 4) (a : Bool), portUp n s = true → (port n s).busy s.now = false → ackOverdue n (if a then .a else .b) s = true →
    ((port n s).space (if a then .a else .b)).buf ≠ [] →
    ((port n s).space (if a then .a else .b)).replays + 1 < getF Reg.LNK_CFG_RETRYLIM s → ∃ t, exec (.ackTimeout n a) s = .next t ∧
    (port n t).line.length = ((port n s).space (if a then .a else .b)).buf.length ∧
    ((port n t).space (if a then .a else .b)).buf = ((port n s).space (if a then .a else .b)).buf ∧
    ((port n t).space (if a then .a else .b)).replays = ((port n s).space (if a then .a else .b)).replays + 1 ∧
    getF (Reg.LNK_RTY_TIMEOUT n) t = min (getF (Reg.LNK_RTY_TIMEOUT n) s + 1) (2 ^ (Reg.LNK_RTY_TIMEOUT n).w - 1) ∧
    Changes [.lnk] (oneOf [Reg.LNK_TXF n, Reg.LNK_RTY n]) s t) ∧
  (∀ (n : Fin 4) (a : Bool), ackOverdue n (if a then .a else .b) s = false → exec (.ackTimeout n a) s = .next s) ∧
  (∀ bs : List Byte, linksRun s = true → legacyMode s = true → portState 1 s = 5 → portState 0 s = 5 → ∃ t, exec (.legacyResponseFrame bs) s = .next t ∧
    (port 0 t).line = [bs] ∧ (port 0 t).levels = manchester bs ∧ (∀ m, m < 4 → m ≠ 0 → port m t = port m s) ∧ Changes [.lnk] (fun _ => False) s t) ∧
  (∀ bs : List Byte, portState 1 s ≠ 5 ∨ portState 0 s ≠ 5 → exec (.legacyResponseFrame bs) s = .next s)

/-- BEAT, STATUS, STREAM and EVENT frames leave as their rules say. -/
def Obligations.HoofbeatAndStreams : Prop := ∀ s : State,
  let home := fun (k : Fin 2) (r : Word) (h : Nat) => homeRoute k s = some (r, h) ∧ 1 ≤ h ∧ h ≤ 16 ∧ portOpen (routePort r) s = true ∧
    bit (Reg.FAB_HOME_HCTL_VALID k) s = true
  let resting := fun b : Nat => (assoc b s.fab.evLast).all (fun u => decide (u + 100000 ≤ s.now)) = true
  (linksRun s = true → s.ft % ms < 6 → ∃ t, exec .beatSend s = .next t ∧ (∀ n : Fin 4, (port n t).qa = (port n s).qa ++
      (if portUp n s then [(4, ⟨.hoof, .a, .linkLocal, 0#32, 0, ownSrc s, 1023, ownEpoch s, 0, hoofWords 0 0 0 s⟩)] else [])) ∧
    Changes [.lnk] (fun _ => False) s t) ∧
  (6 ≤ s.ft % ms → exec .beatSend s = .next s) ∧
  (∀ (k : Fin 2) (r : Word) (h : Nat), linksRun s = true → bit (Reg.FAB_HOME_HCTL_VALID (1 - k)) s = false → home k r h →
    s.fab.statusAt.all (fun u => decide (u + getF Reg.FAB_HOOF_RPT s * 10 * ms ≤ s.now)) = true → ∃ t, exec .statusSend s = .next t ∧
    (port (routePort r) t).qa = (port (routePort r) s).qa ++
      [(4, ⟨.hoof, .a, .nodeId, r, h, ownSrc s, getF (Reg.FAB_HOME_HCTL_GWID k) s, ownEpoch s, 0, hoofWords 1 0 0 s⟩)] ∧
    t.fab = { s.fab with statusAt := some s.now } ∧ Changes [.lnk, .fab] (fun _ => False) s t) ∧
  (s.fab.statusAt.any (fun u => decide (s.now < u + getF Reg.FAB_HOOF_RPT s * 10 * ms)) = true → exec .statusSend s = .next s) ∧
  (∀ (k : Fin 256) (g : Fin 2) (r : Word) (h : Nat), linksRun s = true → home g r h → (sessionOf k s).state = 1 → (sessionOf k s).gw = g.val →
    (sessionOf k s).fill ≠ 0 → nth s.fab.planned g none = none → (port (routePort r) s).qb = [] → wordBefore (sessionOf k s).next (oldestWord s) = false →
    (maskChannels (sessionOf k s).mask).length * (sessionOf k s).fill ≤ 126 →
    (∀ i, i < (sessionOf k s).fill → wordBefore (((sessionOf k s).next + i * ((sessionOf k s).div + 1)) % 2 ^ 32) (reg s Reg.CMS_HWIDX).toNat = true) →
    ∃ t, exec (.streamFrameSend k) s = .next t ∧ ((port (routePort r) t).qb.map (fun e => e.2.type)) = [.stream] ∧
    ((port (routePort r) t).qb.map (fun e => e.2.tag)) = [k.val] ∧
    (sessionOf k t).next = ((sessionOf k s).next + (sessionOf k s).fill * ((sessionOf k s).div + 1)) % 2 ^ 32 ∧
    (sessionOf k t).frames = (sessionOf k s).frames + 1#32 ∧ (sessionOf k t).state = 1 ∧ Changes [.lnk, .fab] (fun _ => False) s t) ∧
  (∀ k : Fin 256, (sessionOf k s).next < 2 ^ 32 → wordBefore (sessionOf k s).next (oldestWord s) = false →
    wordBefore (sessionOf k s).next (reg s Reg.CMS_HWIDX).toNat = false → exec (.streamFrameSend k) s = .next s) ∧
  (∀ (b : Fin 6) (k : Fin 2) (bits time : Nat) (r : Word) (h : Nat), linksRun s = true → hasRole s = false → home k r h → getF Reg.FAB_CFG_EVGW s = k.val →
    assoc b.val s.fab.evPend = some (bits, time) → resting b → (port (routePort r) s).qc = [] → ∃ t, exec (.eventFrameSend b) s = .next t ∧
    (port (routePort r) t).qc = [(4, ⟨.event, .c, .nodeId, r, h, ownSrc s, getF (Reg.FAB_HOME_HCTL_GWID k) s, ownEpoch s, 0,
      [BitVec.ofNat 32 b.val, BitVec.ofNat 32 bits, BitVec.ofNat 32 time, BitVec.ofNat 32 (time / 2 ^ 32)]⟩)] ∧
    t.fab = { s.fab with evPend := assocErase b.val s.fab.evPend, evLast := assocPut b.val s.now s.fab.evLast } ∧
    Changes [.lnk, .fab] (fun _ => False) s t) ∧
  (∀ (b : Fin 6) (bits time : Nat), linksRun s = true → hasRole s = true → isGen2 s = true → assoc b.val s.fab.evPend = some (bits, time) → resting b →
    s.hst.evq.length < 64 → nth s.hst.lost 2 0 = 0 → ∃ t, exec (.eventFrameSend b) s = .next t ∧
    t.hst.evq = s.hst.evq ++ [⟨1023, 1, ownEpoch s, s.ft, 0,
      [BitVec.ofNat 32 b.val, BitVec.ofNat 32 bits, BitVec.ofNat 32 time, BitVec.ofNat 32 (time / 2 ^ 32)]⟩] ∧
    t.fab.evPend = assocErase b.val s.fab.evPend ∧ Changes [.hst, .fab] (fun _ => False) s t) ∧
  (∀ (b : Fin 6) (u : Nat), assoc b.val s.fab.evLast = some u → s.now < u + 100000 → exec (.eventFrameSend b) s = .next s)

/-- What the HOOF frames that arrive and those that stay away change, and what the timers of the fabric end. -/
def Obligations.HoofbeatNotices : Prop := ∀ s : State,
  let runs := linksRun s = true
  let only := fun (rs : List Nat) (t : State) => Changes [.fab] (oneOf rs) s t
  let failing := fun (k : Fin 2) (hit : List Nat → Bool) => runs ∧ hasRole s = false ∧ bit (Reg.FAB_HOME_HCTL_VALID k) s = true ∧
    bit (Reg.FAB_HOME_HCTL_VALID (1 - k)) s = false ∧ bit (Reg.FAB_HOME_HCTL_PFAIL k) s = false ∧ bit (Reg.FAB_HOME_HCTL_AFAIL k) s = false ∧
    bit (Reg.FAB_HOME_HCTL_USE k) s = false ∧ getF (Reg.FAB_HOME_HCTL_AHOP k) s ≠ 0 ∧ hit (homeLists k s).1 = true ∧ hit (homeLists k s).2 = false
  let failed := fun (k : Fin 2) (t : State) => bit (Reg.FAB_HOME_HCTL_PFAIL k) t = true ∧ bit (Reg.FAB_HOME_HCTL_AFAIL k) t = false ∧
    bit (Reg.FAB_HOME_HCTL_USE k) t = true ∧ t.flt.waiting = s.flt.waiting ++ [101] ∧ regBit Reg.FAB_EVT 0 t = true ∧
    getF Reg.FAB_FOCNT_SWITCH t = min (getF Reg.FAB_FOCNT_SWITCH s + 1) 65535 ∧
    Changes [.fab, .flt] (oneOf [Reg.FAB_HOME_HCTL k, Reg.FAB_FOCNT, Reg.FAB_EVT]) s t
  (∀ (n : Fin 4) (f : Frame), runs → isHoof 0 f = true → (port n s).beatSeen = true → ∃ t, exec (.beatReceive n f) s = .next t ∧
    (hoofSender f ≠ 1023 → partnerId n t = (true, hoofSender f)) ∧ (∀ m : Fin 4, m ≠ n → partnerId m t = partnerId m s) ∧
    port n t = { port n s with beatAt := s.now } ∧ Changes [.lnk, .fab] (oneOf [Reg.FAB_PNODE01, Reg.FAB_PNODE23]) s t) ∧
  (∀ (n : Fin 4) (f : Frame), runs → isHoof 0 f = true → ∃ t, exec (.beatReceive n f) s = .next t ∧
    (port n t).beatSeen = true ∧ (port n t).beatAt = s.now ∧ (hoofSender f ≠ 1023 → partnerId n t = (true, hoofSender f)) ∧
    Changes [.lnk, .fab] (oneOf [Reg.FAB_PNODE01, Reg.FAB_PNODE23]) s t) ∧
  (∀ (n : Fin 4) (f : Frame) (k : Fin 2), failing k (listCrosses (hoofSender f) (hoofPartner f)) → isHoof 2 f = true →
    ∃ t, exec (.linkdownReceive n f) s = .next t ∧ failed k t) ∧
  (∀ (n : Fin 4) (f : Frame) (k : Fin 2), failing k (fun l => l.contains (hoofSender f)) → isHoof 4 f = true → hoofListed f = true →
    ∃ t, exec (.leaveReceive n f) s = .next t ∧ failed k t) ∧
  (∀ (n : Fin 4) (f : Frame), runs → isHoof 4 f = true → hoofListed f = false → ∃ t, exec (.leaveReceive n f) s = .next t ∧ only [] t) ∧
  (∀ (n : Fin 4) (f : Frame), runs → isHoof 3 f = true → ∃ t, exec (.linkupReceive n f) s = .next t ∧
    t.fab.holdSince = (if hasRole s then some s.now else s.fab.holdSince) ∧ only [] t) ∧
  (∀ (n : Fin 4) (f : Frame) (k : Fin 256) (g : Fin 2), runs → isHoof 5 f = true → homeSet (hoofSender f) s = some g.val →
    (sessionOf k s).gw = g.val → (sessionOf k s).state = 1 → ∃ t, exec (.roleendReceive n f) s = .next t ∧
    sessionOf k t = { sessionOf k s with state := 2 } ∧ only [] t) ∧
  (∀ (n : Fin 4) (f : Frame), runs → hasRole s = true → isHoof 1 f = true → (entryOf (hoofSender f) s).state ≠ 0 →
    (entryOf (hoofSender f) s).epoch = f.epoch → ∃ t, exec (.statusReceive n f) s = .next t ∧
    entryOf (hoofSender f) t = { entryOf (hoofSender f) s with miss := 0, flags := getBits (nth f.payload 0 0#32) 8 8, state := if (entryOf (hoofSender f) s).state = 3 then 1 else (entryOf (hoofSender f) s).state } ∧ only [] t) ∧
  (∀ (n : Fin 4) (f : Frame), runs → hasRole s = true → isHoof 1 f = true → (entryOf (hoofSender f) s).state ≠ 0 →
    (entryOf (hoofSender f) s).epoch ≠ f.epoch → s.fab.reqs = [] → ∃ t, exec (.statusReceive n f) s = .next t ∧
    (entryOf (hoofSender f) t).epoch = f.epoch ∧ (entryOf (hoofSender f) t).miss = 0 ∧ regBit Reg.FAB_EVT 4 t = true ∧
    t.fab.epochChanges = s.fab.epochChanges + 1 ∧ t.pending = s.pending) ∧
  (∀ id : Fin 1023, hasRole s = true → (entryOf id s).state = 1 → (entryOf id s).miss = 2 → ∃ t, exec (.statusMissed id) s = .next t ∧
    (entryOf id t).miss = 3 ∧ (entryOf id t).state = 3 ∧ t.flt.waiting = s.flt.waiting ++ [100] ∧ regBit Reg.FAB_EVT 3 t = true ∧
    Changes [.fab, .flt] (oneOf [Reg.FAB_EVT]) s t) ∧
  (∀ id : Fin 1023, hasRole s = true → ((entryOf id s).state = 1 ∧ (entryOf id s).miss < 2 ∨ (entryOf id s).state = 3) →
    ∃ t, exec (.statusMissed id) s = .next t ∧
    entryOf id t = { entryOf id s with miss := min ((entryOf id s).miss + 1) 255 } ∧ only [] t) ∧
  (∀ (src : Fin 1024) (tag : Fin 256) (u : Nat), (src.val, tag.val, u) ∈ s.fab.bpairs → u + 2000000 ≤ s.now →
    ∃ t, exec (.broadcastPairExpiry src tag) s = .next t ∧ (src.val, tag.val, u) ∉ t.fab.bpairs ∧
    (∀ p : Nat × Nat × Nat, (p.1, p.2.1) ≠ (src.val, tag.val) → (p ∈ t.fab.bpairs ↔ p ∈ s.fab.bpairs)) ∧ Changes [.fab] (fun _ => False) s t) ∧
  (∀ (src : Fin 1024) (tag : Fin 256), (∀ p, p ∈ s.fab.bpairs → (p.1, p.2.1) = (src.val, tag.val) → s.now < p.2.2 + 2000000) →
    ∃ t, exec (.broadcastPairExpiry src tag) s = .next t ∧ t.fab.bpairs = s.fab.bpairs ∧ Changes [.fab] (fun _ => False) s t) ∧
  (∀ (k : Fin 2) (u : Nat), streamsOut k s = false → nth s.fab.planned k none = some u → u + 200000 ≤ s.now →
    ∃ t, exec (.plannedSwitchResume k) s = .next t ∧ nth t.fab.planned k none = none ∧
    nth t.fab.planned (1 - k) none = nth s.fab.planned (1 - k) none ∧ Changes [.fab] (fun _ => False) s t) ∧
  (∀ (k : Fin 2) (u : Nat), nth s.fab.planned k none = some u → s.now < u + 200000 → exec (.plannedSwitchResume k) s = .next s) ∧
  (∀ k : Fin 2, streamsOut k s = true → exec (.plannedSwitchResume k) s = .next s) ∧
  (∀ (tag : Fin 256) (u : Nat), s.fab.run = none → (tag.val, u) ∈ s.fab.tagsHeld → u + getF Reg.FAB_TCFG_TMO s * 100000 ≤ s.now →
    ∃ t, exec (.tagRelease tag) s = .next t ∧ (tag.val, u) ∉ t.fab.tagsHeld ∧
    (∀ x : Nat × Nat, x.1 ≠ tag.val → (x ∈ t.fab.tagsHeld ↔ x ∈ s.fab.tagsHeld)) ∧ Changes [.fab] (fun _ => False) s t) ∧
  (∀ tag : Fin 256, s.fab.run = none → (∀ x, x ∈ s.fab.tagsHeld → x.1 = tag.val → s.now < x.2 + getF Reg.FAB_TCFG_TMO s * 100000) →
    ∃ t, exec (.tagRelease tag) s = .next t ∧ t.fab.tagsHeld = s.fab.tagsHeld ∧ Changes [.fab] (fun _ => False) s t) ∧
  (∀ u : Nat, s.fab.holdSince = some u → u + getF Reg.FAB_ENCFG_HOLD s * 10 * ms ≤ s.now → hasRole s = true → bit Reg.FAB_ID_VALID s = false →
    s.fab.run = none → s.sys.ctlBusy = false → bit Reg.BST_CTLSTAT_ROMBAD s = false → ∃ t, exec .enumHoldExpiry s = .next t ∧ t.fab.holdSince = none ∧
    t.fab.run.map EnumRun.mode = some 3 ∧ t.fab.run.map EnumRun.commanded = some false ∧ bit Reg.FAB_ENSTAT_RUNNING t = true ∧ t.pending = s.pending) ∧
  (∀ u : Nat, s.fab.holdSince = some u → s.now < u + getF Reg.FAB_ENCFG_HOLD s * 10 * ms → exec .enumHoldExpiry s = .next s)

/-- A request in its turn is executed and answered with one CPL on its reply route. -/
def Obligations.FabricRequests : Prop := ∀ s : State,
  let path := fun (f : Frame) => linksRun s = true ∧ coreUp s = true ∧ s.fab.inbox = [] ∧ f.mode ≠ .broadcast ∧
    (reqHead f).posted = false ∧ (reqHead f).reissue = false ∧
    1 ≤ (reqHead f).rhop ∧ (reqHead f).rhop ≤ 16 ∧ portOpen (routePort (reqHead f).rroute) s = true ∧
    (port (routePort (reqHead f).rroute) s).queue f.cls = [] ∧ (f.cls = .d → 0 < getF Reg.FAB_ARB_DWM s)
  let turn := fun (f : Frame) => path f ∧ ((reqHead f).anyep = true ∨ (reqHead f).expep = ownEpoch s)
  let answer := fun (f : Frame) (st : Status) (data : List Word) (t : State) =>
    (port (routePort (reqHead f).rroute) t).queue f.cls = [(4, ⟨.cpl, f.cls, .routeWord, (reqHead f).rroute, (reqHead f).rhop,
      ownSrc t, f.src, ownEpoch s, f.tag, cplWord st 0 false :: data⟩)] ∧ t.pending = s.pending
  let words := fun (f : Frame) => wordAddrs (reqHead f).addr (reqHead f).count
  let session := fun (f : Frame) (op : Nat) => turn f ∧ isSession op f = true ∧ getBits (nth f.payload 2 0#32) 16 2 = 0 ∧
    bit (Reg.FAB_HOME_HCTL_VALID 0) s = true ∧ homeDead 0 s = false
  let number := fun (f : Frame) => getBits (nth f.payload 2 0#32) 8 8
  (∀ (n : Fin 4) (f : Frame), turn f → f.type = .read → (reqHead f).addr % 4 = 0 → 
    ((reqHead f).addr % 8 = 0 ∨ (reqHead f).count ≤ 1) → (∀ b, b ∈ words f → addrClass b = .register ∧ (b < 0x5400 ∨ 0x5608 ≤ b)) →
    ∃ t, exec (.readRequest n f) s = .next t ∧ answer f .ok (readWords (.node f.src) (reqHead f).addr (reqHead f).count (feedTimer f s)).1 t) ∧
  (∀ (n : Fin 4) (f : Frame), turn f → f.type = .read → (∃ b, b ∈ words f ∧ addrClass b = .reserved) → ∃ t, exec (.readRequest n f) s = .next t ∧
    answer f .badAddress [] t ∧ Changes [.lnk, .fab, .cpb] (fun _ => False) s t) ∧
  (∀ (n : Fin 4) (f : Frame) (v : Word), turn f → f.type = .write → (reqHead f).addr = Reg.FAB_HOME_AROUTE 0 → (reqHead f).count = 1 →
    f.payload.drop 4 = [v] → ∃ t, exec (.writeRequest n f) s = .next t ∧ answer f .ok [] t ∧ reg t (Reg.FAB_HOME_AROUTE 0) = v ∧
    bit (Reg.FAB_HOME_HCTL_AFAIL 0) t = false ∧ Changes [.lnk, .fab, .cpb] (oneOf [Reg.FAB_HOME_AROUTE 0, Reg.FAB_HOME_HCTL 0]) s t) ∧
  (∀ (n : Fin 4) (f : Frame), turn f → isEnum 1 f = true → ∃ t, exec (.probe n f) s = .next t ∧ answer f .ok (enumReport n s) t ∧
    Changes [.lnk, .fab, .cpb] (fun _ => False) s t) ∧
  (∀ (n : Fin 4) (f : Frame), turn f → isEnum 2 f = true → nth f.payload 3 0#32 = reg s Reg.FAB_UID0 → nth f.payload 4 0#32 = reg s Reg.FAB_UID1 →
    ∃ t, exec (.assign n f) s = .next t ∧ answer f .ok (enumReport n t) t ∧ getF Reg.FAB_ID_ID t = getBits (nth f.payload 5 0#32) 0 10 ∧ bit Reg.FAB_ID_VALID t = true ∧
    Changes [.lnk, .fab, .cpb, .tbs, .flt, .imp, .free] (fun a => a = Reg.FAB_ID ∨ a = Reg.CMS_STAT ∨ a = Reg.IMP_STAT ∨ a = Reg.IMP_EVT ∨ inBlocks [11] a) s t) ∧
  (∀ (n : Fin 4) (f : Frame), turn f → isEnum 3 f = true → hasRole s = true → enumeratesHere s = false → getBits (nth f.payload 3 0#32) 0 10 ≠ 1023 →
    ∃ t, exec (.routes n f) s = .next t ∧ answer f .ok [] t ∧
    entryOf (getBits (nth f.payload 3 0#32) 0 10) t = readEntry ((f.payload.drop 4).take 16) ∧ Changes [.lnk, .fab, .cpb] (fun _ => False) s t) ∧
  (∀ (n : Fin 4) (f : Frame), session f 1 → s.cms.layoutHeld = false → s.cms.calChen = none → (sessionOf (number f) s).state = 0 →
    maskBad (nth f.payload 3 0#32 &&& 0x01FFFFFF#32) (getBits (nth f.payload 4 0#32) 8 7) s = false → ∃ t, exec (.sessionOpen n f) s = .next t ∧
    answer f .ok [] t ∧ (sessionOf (number f) t).state = 1 ∧ (sessionOf (number f) t).mask = nth f.payload 3 0#32 &&& 0x01FFFFFF#32 ∧
    (sessionOf (number f) t).div = getBits (nth f.payload 4 0#32) 0 8 ∧ (sessionOf (number f) t).fill = getBits (nth f.payload 4 0#32) 8 7 ∧
    (sessionOf (number f) t).next = (if (nth f.payload 4 0#32).getLsbD 16 then nth f.payload 5 0#32 else reg s Reg.CMS_HWIDX).toNat ∧
    Changes [.lnk, .fab, .cpb] (fun _ => False) s t) ∧
  (∀ (n : Fin 4) (f : Frame), session f 2 → (sessionOf (number f) s).state ≠ 0 → ∃ t, exec (.sessionClose n f) s = .next t ∧ answer f .ok [] t ∧
    sessionOf (number f) t = { sessionOf (number f) s with state := 0 } ∧ Changes [.lnk, .fab, .cpb] (fun _ => False) s t) ∧
  (∀ (n : Fin 4) (f : Frame), session f 3 → (sessionOf (number f) s).state ≠ 0 → ∃ t, exec (.sessionResume n f) s = .next t ∧ answer f .ok [] t ∧
    (sessionOf (number f) t).state = 1 ∧ (sessionOf (number f) t).next = (nth f.payload 5 0#32).toNat ∧
    (sessionOf (number f) t).gw = 0 ∧ Changes [.lnk, .fab, .cpb] (fun _ => False) s t) ∧
  (∀ (n : Fin 4) (f : Frame), session f 4 → (sessionOf (number f) s).state ≠ 0 → ∃ t, exec (.sessionSuspend n f) s = .next t ∧ answer f .ok [] t ∧
    sessionOf (number f) t = { sessionOf (number f) s with state := 2 } ∧ Changes [.lnk, .fab, .cpb] (fun _ => False) s t) ∧
  (∀ (n : Fin 4) (f : Frame), path f → (reqHead f).anyep = false → (reqHead f).expep ≠ ownEpoch s → f.type = .write →
    ∃ t, exec (.writeRequest n f) s = .next t ∧ answer f .nodeReset [] t ∧ Changes [.lnk, .fab, .cpb] (fun _ => False) s t)

/-- Enumeration commands, the reports of a run, its end, and the completions and timeouts of requests. -/
def Obligations.Enumeration : Prop := ∀ s : State,
  let able := coreUp s = true ∧ s.sys.ctlBusy = false ∧ bit Reg.BST_CTLSTAT_ROMBAD s = false
  let free := able ∧ hasRole s = true ∧ s.fab.run = none
  let began := fun (mode : Nat) (tk : Ticket) (t : State) => t.fab.run.map EnumRun.mode = some mode ∧ t.fab.run.map EnumRun.ticket = some (some tk) ∧
    t.fab.run.map EnumRun.commanded = some true ∧ bit Reg.FAB_ENSTAT_RUNNING t = true ∧ t.fab.table = s.fab.table ∧ t.resp = s.resp ∧
    Changes [.fab, .lnk, .free, .tbs, .flt, .imp] (fun a => a = Reg.FAB_ENSTAT ∨ a = Reg.FAB_ID ∨ a = Reg.FAB_DROP ∨ a = Reg.FAB_ERR ∨ a = Reg.HST_OUT ∨ a = Reg.CMS_STAT ∨ a = Reg.IMP_STAT ∨ a = Reg.IMP_EVT ∨ inBlocks [11] a) s t
  let refused := fun (t : State) => t.answered .refusedBusy ∧ Changes [.resp, .free] (fun _ => False) s t
  let idle := fun (t : State) => getF Reg.FAB_ENSTAT_RESULT t = 0xFF ∧ t.answered .ok ∧ Changes [.resp] (oneOf [Reg.FAB_ENSTAT]) s t
  let ended := fun (r : Req) (tag : Nat) => s.fab.run = none ∧ hasRole s = true ∧ s.fab.reqs = [r] ∧ r.tag = tag ∧ r.node = none ∧ isGen2 s = true ∧
    bit Reg.FLT_FENCE0_HST s = false
  let expired := fun (r : Req) => (r.start s).any (fun u => decide (u + getF Reg.FAB_TCFG_TMO s * 100000 ≤ s.now))
  (∀ tk, free → ∃ t, exec (.enumFull tk) s = .next t ∧ began 1 tk t ∧ bit Reg.FAB_ID_VALID t = false) ∧
  (∀ tk, free → ∃ t, exec (.enumVerify tk) s = .next t ∧ began 2 tk t ∧ bit Reg.FAB_ID_VALID t = bit Reg.FAB_ID_VALID s) ∧
  (∀ tk, free → ∃ t, exec (.enumRecover tk) s = .next t ∧ began 3 tk t ∧ bit Reg.FAB_ID_VALID t = false) ∧
  (able → hasRole s = true → s.fab.run.isSome = true → (∃ t, exec (.enumFull .direct) s = .next t ∧ refused t) ∧
    (∃ t, exec (.enumVerify .direct) s = .next t ∧ refused t) ∧ ∃ t, exec (.enumRecover .direct) s = .next t ∧ refused t) ∧
  (able → hasRole s = false → (∃ t, exec (.enumFull .direct) s = .next t ∧ idle t) ∧
    (∃ t, exec (.enumVerify .direct) s = .next t ∧ idle t) ∧ ∃ t, exec (.enumRecover .direct) s = .next t ∧ idle t) ∧
  (∀ (n : Fin 4) (f : Frame) (i p : Nat) (r : EnumRun), s.fab.run = some r → probeOf f.tag s = some (i, p) → f.type = .cpl →
    (cplStatus f = .ok ∨ cplStatus f = .delayed) → mustWithdraw r f s = false →
    (∀ x, x ∈ r.nodes → ¬ (x.uid0 = nth f.payload 2 0#32 ∧ x.uid1 = nth f.payload 3 0#32)) → ∃ t, exec (.probeReportReceive n f) s = .next t ∧
    t.fab.run.map (fun q => q.nodes.length) = some (r.nodes.length + 1) ∧ t.fab.table = s.fab.table ∧ t.pending = s.pending) ∧
  (∀ (n : Fin 4) (f : Frame) (i p : Nat) (r : EnumRun), s.fab.run = some r → probeOf f.tag s = some (i, p) → f.type = .cpl →
    cplStatus f = .ok → mustWithdraw r f s = true → r.ticket = none → ∃ t, exec (.probeReportReceive n f) s = .next t ∧
    t.fab.run = none ∧ t.fab.table = [] ∧ t.fab.withdrawn = true ∧ getF Reg.FAB_ENSTAT_RESULT t = Status.incomplete.code ∧
    t.flt.waiting = s.flt.waiting ∧ t.pending = s.pending) ∧
  (∀ r : EnumRun, s.fab.run = some r → r.planned = true → (r.written = true ∨ r.mode = 2) → r.work = [] → r.out = [] →
    (∀ q, q ∈ s.fab.reqs → q.slot ≠ none) →
    r.ticket = some .direct → ∃ t, exec .enumerationDone s = .next t ∧ t.fab.run = none ∧ bit Reg.FAB_ENSTAT_RUNNING t = false ∧
    getF Reg.FAB_ENSTAT_RESULT t = (if r.short then Status.incomplete else Status.ok).code ∧ regBit Reg.FAB_EVT 2 t = true ∧
    getF Reg.FAB_ENSTAT_NODES t = r.nodes.length % 2048 ∧ t.answered (if r.short then Status.incomplete else Status.ok) ∧
    t.flt.waiting = s.flt.waiting ++ (if r.short then [103] else []) ∧ t.pending = s.pending) ∧
  (∀ (n : Fin 4) (f : Frame) (r : Req) (c : HostCmd), coreUp s = true → ended r f.tag → f.type = .cpl → r.slot = some c.slot → r.frame.mode ≠ .broadcast →
    s.hst.cmds = [c] → cplStatus f ≠ .ok → cplStatus f ≠ .delayed → ∃ t, exec (.cplReceive n f) s = .next t ∧ t.fab.reqs = [] ∧ t.hst.cmds = [] ∧
    t.hst.waiting.map HostDone.status = s.hst.waiting.map HostDone.status ++ [cplStatus f] ∧ Changes [.fab, .hst] (oneOf [Reg.HST_OUT]) s t) ∧
  (∀ (tag : Fin 256) (r : Req) (c : HostCmd), ended r tag → expired r = true → r.slot = some c.slot → s.hst.cmds = [c] →
    ∃ t, exec (.transactionTimeout tag) s = .next t ∧ t.fab.reqs = [] ∧ (tag.val, s.now) ∈ t.fab.tagsHeld ∧ t.hst.cmds = [] ∧
    t.hst.waiting.map HostDone.status = s.hst.waiting.map HostDone.status ++ [.timeout] ∧ Changes [.fab, .hst] (oneOf [Reg.HST_OUT]) s t) ∧
  (∀ (tag : Fin 256) (r : Req), s.fab.reqs = [r] → expired r = false → exec (.transactionTimeout tag) s = .next s) ∧
  (∀ (n : Fin 4) (f : Frame), coreUp s = true → hasRole s = false → f.type = .cpl → ∃ t, exec (.cplReceive n f) s = .next t ∧
    getF Reg.FAB_LATE_LATE t = min (getF Reg.FAB_LATE_LATE s + 1) 65535 ∧ Changes [.fab] (oneOf [Reg.FAB_LATE]) s t)

/-- Generation 2: the frames of the host, what they return, and what ends the role. -/
def Obligations.FramedSpi : Prop := ∀ s : State,
  let g2 := hostPins s = true ∧ hasRole s = true ∧ isGen2 s = true ∧ s.hst.spi ≠ 1
  let fenced := bit Reg.FLT_FENCE0_HST s = true
  let desc := fun bits : List Bool => bytesWords ((spiBytes bits).take 64)
  let more := fun bits : List Bool => if descOp (desc bits) = 2 ∧ descInline (desc bits) = false then 4 * descCount (desc bits) else 0
  let crc := fun bits : List Bool => bytesNat (((spiBytes bits).drop (64 + more bits)).take 4) = (crc32c ((spiBytes bits).take (64 + more bits))).toNat
  let good := fun bits : List Bool => 68 + more bits ≤ (spiBytes bits).length ∧ crc bits
  let lost := nth s.hst.lost 2 0
  let left := fun e : Bool => if e && s.hst.gotEvt then s.hst.evq.tail else s.hst.evq
  let kept := fun (t : State) => t.hst.cmds = s.hst.cmds ∧ t.hst.waiting = s.hst.waiting ∧ t.hst.evq = s.hst.evq ∧ t.hst.sbuf = s.hst.sbuf ∧
    t.hst.spi = 2 ∧ t.hst.cseq = s.hst.cseq ∧ t.hst.g2busy = s.hst.g2busy ∧ t.hst.g2At = s.now
  let quiet := fun (t : State) => Changes [.hst] (fun _ => False) s t
  let body := fun arg : Fin 256 => (fitEntries s.hst.sbuf (4 * arg.val)).flatMap (fun e => streamBytes e (streamUnits e) (nth s.hst.phase (3 + e.ring) true))
  let nothing := fun (t : State) => kept t ∧ t.hst.lastErr = 6 ∧ t.hst.reply = wordBytes (g2Status s) ∧ quiet t
  (∀ (arg : Fin 256) (bits : List Bool), g2 → ¬ fenced → s.hst.g2busy = false → good bits → descBad true (desc bits) = false →
    ∃ t, exec (.cmd arg bits) s = .next t ∧ t.hst.g2busy = true ∧ t.hst.cseq = arg.val ∧ t.hst.lastErr = 0 ∧
    t.hst.cmds = s.hst.cmds ++ [⟨s.hst.nextSlot, desc bits, bytesWords (((spiBytes bits).drop 64).take (more bits)), false, s.now⟩] ∧
    t.hst.waiting = s.hst.waiting ∧ t.hst.evq = s.hst.evq ∧ t.hst.sbuf = s.hst.sbuf ∧
    t.hst.reply = wordBytes (g2Status s) ∧ Changes [.hst] (oneOf [Reg.HST_OUT]) s t) ∧
  (∀ (arg : Fin 256) (bits : List Bool), g2 → 68 + more bits ≤ (spiBytes bits).length → ¬ crc bits → ∃ t, exec (.cmd arg bits) s = .next t ∧ kept t ∧
    t.hst.lastErr = (if fenced then 3 else 2) ∧ bit Reg.HST_ERR_G2PCRC t = true ∧ getF Reg.HST_CNT_FRERR t = min (getF Reg.HST_CNT_FRERR s + 1) 65535 ∧
    t.flt.waiting = s.flt.waiting ++ [107] ∧ Changes [.hst, .flt] (oneOf [Reg.HST_ERR, Reg.HST_CNT, Reg.HST_PBA 0]) s t) ∧
  (∀ (arg : Fin 256) (bits : List Bool), g2 → (spiBytes bits).length < 68 + more bits → ∃ t, exec (.cmd arg bits) s = .next t ∧ kept t ∧
    t.hst.lastErr = (if fenced then 3 else 4) ∧ quiet t) ∧
  (g2 → ∃ t, exec (.spiTransactionRejected .cutFrame) s = .next t ∧ kept t ∧ t.hst.lastErr = (if fenced then 3 else 4) ∧ quiet t) ∧
  (∀ n : Fin 4, g2 → ∃ t, exec (.spiTransactionRejected (.cutHeader n)) s = .next t ∧ t.hst.lastErr = 4 ∧ t.hst.reply = (wordBytes (g2Status s)).take n.val ∧
    t.hst.g2At = s.hst.g2At ∧ t.hst.cmds = s.hst.cmds ∧ t.hst.waiting = s.hst.waiting ∧ quiet t) ∧
  (∀ (arg : Fin 256) (bits : List Bool), g2 → (s.hst.g2busy = true ∨ fenced) → good bits → ∃ t, exec (.cmd arg bits) s = .next t ∧ kept t ∧
    t.hst.lastErr = 3 ∧ quiet t) ∧
  (∀ (d : HostDone) (l : List HostDone), g2 → ¬ fenced → s.hst.waiting = d :: l → ∃ t, exec .getcpl s = .next t ∧ kept t ∧ t.hst.lastErr = 0 ∧
    t.hst.gotCpl = true ∧ quiet t ∧
    t.hst.reply = wordBytes (g2Status s) ++ withCrc (completionBytes { d with rdata := false } (nth s.hst.phase 1 true) ++ wordsBytes d.data)) ∧
  (∀ (e : EventEntry) (l : List EventEntry), g2 → ¬ fenced → s.hst.evq = e :: l → ∃ t, exec .getevt s = .next t ∧ kept t ∧ t.hst.lastErr = 0 ∧
    t.hst.gotEvt = true ∧ t.hst.reply = wordBytes (g2Status s) ++ withCrc (eventBytes e (nth s.hst.phase 2 true)) ∧ quiet t) ∧
  (∀ arg : Fin 256, g2 → ¬ fenced → arg.val ≠ 0 → s.hst.sbuf ≠ [] → ∃ t, exec (.getstr arg) s = .next t ∧ kept t ∧ t.hst.lastErr = 0 ∧
    t.hst.gotStr = (fitEntries s.hst.sbuf (4 * arg.val)).length ∧ quiet t ∧
    t.hst.reply = wordBytes (g2Status s) ++ withCrc (natBytes 4 (body arg).length ++ body arg)) ∧
  (g2 → (s.hst.waiting = [] ∨ fenced) → ∃ t, exec .getcpl s = .next t ∧ nothing t ∧ t.hst.gotCpl = false) ∧
  (g2 → (s.hst.evq = [] ∨ fenced) → ∃ t, exec .getevt s = .next t ∧ nothing t ∧ t.hst.gotEvt = false) ∧
  (∀ arg : Fin 256, g2 → arg.val ≠ 0 → (s.hst.sbuf = [] ∨ fenced) → ∃ t, exec (.getstr arg) s = .next t ∧ nothing t ∧ t.hst.gotStr = 0) ∧
  (∀ c e r : Bool, g2 → ∃ t, exec (.ack c e r) s = .next t ∧ t.hst.lastErr = 0 ∧
    t.hst.waiting = (if c && s.hst.gotCpl then s.hst.waiting.tail else s.hst.waiting) ∧
    t.hst.evq = left e ++ (if lost ≠ 0 ∧ (left e).length < 64 then [⟨1023, 3, 0, s.ft, lost, []⟩] else []) ∧ t.hst.sbuf = (if r then s.hst.sbuf.drop s.hst.gotStr else s.hst.sbuf) ∧
    t.hst.g2busy = (s.hst.g2busy && !(c && s.hst.gotCpl)) ∧ t.hst.gotCpl = (s.hst.gotCpl && !c) ∧ t.hst.gotEvt = (s.hst.gotEvt && !e) ∧
    t.hst.gotStr = (if r then 0 else s.hst.gotStr) ∧ t.hst.cmds = s.hst.cmds ∧ t.hst.reply = wordBytes (g2Status s) ∧ quiet t) ∧
  (g2 → ∃ t, exec (.getstr 0) s = .next t ∧ Sheltered s t) ∧
  (∀ (arg : Fin 256) (bits : List Bool), g2 → ¬ fenced → s.hst.g2busy = false → good bits → descBad true (desc bits) = true →
    ∃ t, exec (.cmd arg bits) s = .next t ∧ Sheltered s t) ∧
  (hasRole s = true → isGen2 s = true → s.hst.g2At + getF Reg.HST_G2CFG_HTO s * 10 * ms ≤ s.now → ∃ t, exec .gen2HostTimeout s = .next t ∧
    hasRole t = false ∧ 109 ∈ t.flt.waiting ∧ t.hst.waiting = [] ∧ t.hst.evq = [] ∧ t.hst.sbuf = [] ∧ t.hst.cmds = [] ∧
    t.fab.run = none ∧ t.cal = s.cal ∧ t.cpb = s.cpb ∧ t.pending = s.pending) ∧
  (hasRole s = true → isGen2 s = true → s.now < s.hst.g2At + getF Reg.HST_G2CFG_HTO s * 10 * ms → exec .gen2HostTimeout s = .next s)

/-- Generation 1 transactions and settings, rejected transactions, and the generation that the pins settle. -/
def Obligations.SpiGenerations : Prop := ∀ s : State,
  let free := hostPins s = true ∧ gen3Holds s = false
  let off := hostPins s = false ∨ gen3Holds s = true
  let counted := fun (t : State) => getF Reg.HST_CNT_OTHER t = min (getF Reg.HST_CNT_OTHER s + 1) 255 ∧ Changes [] (oneOf [Reg.HST_CNT]) s t
  let failed := fun (f : Field) (t : State) => bit f t = true ∧ getF Reg.HST_CNT_FRERR t = min (getF Reg.HST_CNT_FRERR s + 1) 65535 ∧
    t.flt.waiting = s.flt.waiting ++ [107] ∧ t.hst.spi = s.hst.spi ∧ Changes [.hst, .flt] (oneOf [Reg.HST_ERR, Reg.HST_CNT, Reg.HST_PBA 0]) s t
  let legal := fun (r v : Nat) => (r = 4 ∧ v < 4 ∧ calRunning s = false) ∨ ((r = 5 ∨ r = 6) ∧ 500 ≤ v ∧ v ≤ 5500) ∨ (r = 8 ∧ 1 ≤ v ∧ v ≤ 1000)
  let value := fun (r v : Nat) => if r = 5 ∨ r = 6 then v / 5 * 5 else v
  let home := fun (r : Nat) => if r = 4 then Reg.CMS_CFG else if r = 5 then Reg.CPB_OVTH else if r = 6 then Reg.CPB_UVTH else Reg.CPB_CLTCFG
  (∀ (d : Fin 2) (r n : Fin 256), free → s.hst.spi ≠ 2 → 1 ≤ n.val → n.val ≤ 16 → ∃ t, exec (.gen1Read d 0 r n) s = .next t ∧ t.hst.spi = 1 ∧
    (s.hst.spi = 0 → t.hst.phyDown = true ∧ getF Reg.HST_STAT_GEN t = 1) ∧ t.hst.g1crc = false ∧ t.hst.reply = g1Reply d (g1ReadMany d r n (g1Names r n s)) (g1Names r n s) ∧
    ((∃ i, i < n.val ∧ 0x10 ≤ r.val + i ∧ r.val + i ≤ 0x1B) → nth t.hst.g1new d true = false) ∧
    t.cpb.clStart = s.now ∧ Changes [.hst, .cpb, .free] (oneOf [Reg.HST_STAT]) s t) ∧
  (∀ (d : Fin 2) (r : Fin 256) (l : List (Fin 65536)), free → s.hst.spi ≠ 2 → r.val = 7 → l.length = 1 → ∃ t, exec (.gen1Write d 0 r l) s = .next t ∧
    t.hst.spi = 1 ∧ (∀ i, 1 ≤ i → i ≤ 24 → (reg t Reg.CPB_BALCMD).getLsbD i =
      (if 12 * d.val < i ∧ i ≤ 12 * d.val + 12 then (l.headD 0).val.testBit (i - 12 * d.val - 1) else (reg s Reg.CPB_BALCMD).getLsbD i)) ∧
    t.hst.reply = g1Reply d [] (g1Names r 1 s) ∧ t.cpb.clStart = s.now ∧ Changes [.hst, .cpb] (oneOf [Reg.HST_STAT, Reg.CPB_BALCMD]) s t) ∧
  (∀ (d : Fin 2) (r n : Fin 256), free → s.hst.spi = 2 → ∃ t, exec (.gen1Read d 0 r n) s = .next t ∧ counted t) ∧
  (∀ (d : Fin 2) (r : Fin 256) (l : List (Fin 65536)), free → s.hst.spi = 2 → ∃ t, exec (.gen1Write d 0 r l) s = .next t ∧ counted t) ∧
  (∀ (a : Fin 256) (b : List Bool) (x y z : Bool), free → s.hst.spi = 1 → ∃ t, exec (.cmd a b) s = .next t ∧ exec .getcpl s = .next t ∧
    exec .getevt s = .next t ∧ exec (.getstr a) s = .next t ∧ exec (.ack x y z) s = .next t ∧ exec (.spiTransactionRejected .headerCheck) s = .next t ∧
    exec (.spiTransactionRejected .unknownOp) s = .next t ∧ counted t) ∧
  (free → s.hst.spi ≠ 2 → ∃ t, exec (.spiTransactionRejected .crc16) s = .next t ∧ failed Reg.HST_ERR_G1CRC t ∧ t.hst.g1crc = true) ∧
  (free → s.hst.spi ≠ 1 → ∃ t, exec (.spiTransactionRejected .headerCheck) s = .next t ∧ failed Reg.HST_ERR_G2HCRC t ∧ t.hst.lastErr = 1) ∧
  (free → hasRole s = true → s.hst.spi = 2 → ∃ t, exec (.spiTransactionRejected .unknownOp) s = .next t ∧ t.hst.lastErr = 5 ∧ Changes [.hst] (fun _ => False) s t) ∧
  (free → s.hst.spi ≠ 0 → ∃ t, exec (.spiTransactionRejected .otherForm) s = .next t ∧ counted t) ∧
  (s.sys.phase = .active → hasRole s = false → s.hst.spi ≠ 1 →
    ∃ t, exec (.ack false false false) s = .next t ∧ t.hst.spi = 2 ∧ hasRole t = true ∧ getF Reg.HST_STAT_GEN t = 2 ∧
    t.hst.reply = wordBytes (g2Status s) ∧ t.cpb = s.cpb ∧ t.pending = s.pending) ∧
  (∀ (a : Fin 256) (b : List Bool) (x y : Bool), off → exec (.cmd a b) s = .next s ∧ exec .getcpl s = .next s ∧ exec .getevt s = .next s ∧
    exec (.getstr a) s = .next s ∧ exec (.ack x y true) s = .next s ∧ exec (.ack x y false) s = .next s) ∧
  (∀ (d : Fin 2) (r n : Fin 256) (l : List (Fin 65536)) (why : SpiReject), off →
    exec (.spiTransactionRejected why) s = .next s ∧ exec (.gen1Read d 0 r n) s = .next s ∧ exec (.gen1Write d 0 r l) s = .next s) ∧
  (∀ (d : Fin 2) (low : Fin 32) (r n : Fin 256), free → s.hst.spi ≠ 2 → (n.val = 0 ∨ 16 < n.val ∨ low.val ≠ 0) → ∃ t, exec (.gen1Read d low r n) s = .next t ∧ Sheltered s t) ∧
  (s.hst.spi = 1 → free → (hirqnLow s = true ↔ ∃ d : Fin 2, (g1Stat d s).testBit 0 = true)) ∧
  (∀ (d : Fin 2) (r : Fin 256) (v : Fin 65536), free → s.hst.spi ≠ 2 → legal r v → g1Bad d r [v] s = false →
    ∃ t, exec (.gen1Write d 0 r [v]) s = .next t ∧ (∀ e : Fin 2, g1Read e r t = value r v) ∧
    (r.val = 4 → getF Reg.CMS_CFG_RATE t = v.val) ∧ (r.val = 5 → getF Reg.CPB_OVTH_TH t = v.val / 5) ∧
    (r.val = 6 → getF Reg.CPB_UVTH_TH t = v.val / 5) ∧ (r.val = 8 → getF Reg.CPB_CLTCFG_PERIOD t = v.val - 1) ∧
    Changes [.hst, .cpb, .free] (oneOf [Reg.HST_STAT, home r]) s t)

/-- A device of the legacy chain: address assignment, commands and failed frames. -/
def Obligations.LegacyChain : Prop := ∀ s : State,
  let on := linksRun s = true ∧ legacyMode s = true ∧ portState 0 s = 5
  let good := fun (bytes : List Byte) (op : Nat) => legacyGood bytes = true ∧ legacyOp bytes = op
  let others := fun (t : State) => port 2 t = port 2 s ∧ port 3 t = port 3 s
  let passed := fun (bytes : List Byte) (t : State) => if portState 1 s = 5 then (port 1 t).line = [bytes] ∧ (port 1 t).levels = manchester bytes else port 1 t = port 1 s
  let cells := fun (bytes : List Byte) (d i : Nat) => ((legacyWords bytes).headD 0).testBit (i - 12 * d - 1)
  (∀ bytes : List Byte, on → good bytes 3 → ∃ t, exec (.legacyCommandFrame bytes false) s = .next t ∧
    t.lnk.chain = some (legacyPos bytes) ∧ passed (legacyPassOn bytes) t ∧ t.cpb.clStart = s.now ∧ others t ∧
    Changes [.lnk, .cpb, .sys] (oneOf [Reg.SYS_PINSTAT]) s t) ∧
  (∀ (bytes : List Byte) (first : Nat), on → good bytes 0 → s.lnk.chain = some first → legacyPos bytes = first + 1 →
    first + 1 < 63 → ∃ t, exec (.legacyCommandFrame bytes false) s = .next t ∧ passed bytes t ∧
    (port 0 t).line = [legacyResponse (first + 1) 1 (g1ReadMany 1 (byteAt bytes 2) (byteAt bytes 3) (g1Names (byteAt bytes 2) (byteAt bytes 3) s)) (g1Names (byteAt bytes 2) (byteAt bytes 3) s)] ∧
    t.cpb.clStart = s.now ∧ others t ∧ Changes [.lnk, .cpb, .sys, .hst, .free] (oneOf [Reg.SYS_PINSTAT]) s t) ∧
  (∀ (bytes : List Byte) (first : Nat), on → good bytes 1 → s.lnk.chain = some first → legacyPos bytes = first + 1 → first + 1 < 63 →
    byteAt bytes 2 = 7 → byteAt bytes 3 = 1 → ∃ t, exec (.legacyCommandFrame bytes false) s = .next t ∧ passed bytes t ∧
    (port 0 t).line = [legacyResponse (first + 1) 1 [] s] ∧ (∀ i, 1 ≤ i → i ≤ 24 → (reg t Reg.CPB_BALCMD).getLsbD i =
      (if 12 < i then cells bytes 1 i else (reg s Reg.CPB_BALCMD).getLsbD i)) ∧ t.cpb.clStart = s.now ∧ others t ∧
    Changes [.lnk, .cpb, .sys, .hst] (oneOf [Reg.SYS_PINSTAT, Reg.CPB_BALCMD]) s t) ∧
  (∀ (bytes : List Byte) (first : Nat), on → good bytes 2 → s.lnk.chain = some first → byteAt bytes 2 = 7 → byteAt bytes 3 = 1 →
    ∃ t, exec (.legacyCommandFrame bytes false) s = .next t ∧ passed bytes t ∧ (port 0 t).line = [] ∧
    (∀ i, 1 ≤ i → i ≤ 24 → (reg t Reg.CPB_BALCMD).getLsbD i = cells bytes (if 12 < i then 1 else 0) i) ∧ t.cpb.clStart = s.now ∧ others t ∧
    Changes [.lnk, .cpb, .sys, .hst] (oneOf [Reg.SYS_PINSTAT, Reg.CPB_BALCMD]) s t) ∧
  (∀ bytes : List Byte, on → legacyGood bytes = true → legacyOp bytes ≠ 3 → s.lnk.chain = none → ∃ t, exec (.legacyCommandFrame bytes false) s = .next t ∧
    passed bytes t ∧ (port 0 t).line = [] ∧ t.cpb.clStart = s.now ∧ others t ∧ Changes [.lnk, .cpb, .sys] (oneOf [Reg.SYS_PINSTAT]) s t) ∧
  (∀ bytes : List Byte, on → legacyGood bytes = false → ∃ t, exec (.legacyCommandFrame bytes false) s = .next t ∧ passed bytes t ∧
    getF (Reg.LNK_ERRA_PCRC 0) t = min (getF (Reg.LNK_ERRA_PCRC 0) s + 1) (2 ^ (Reg.LNK_ERRA_PCRC 0).w - 1) ∧ t.flt.waiting = s.flt.waiting ++ [92] ∧ t.lnk.errSum = (s.lnk.errSum + 1) % 65536 ∧
    others t ∧ Changes [.lnk, .hst, .flt] (oneOf [Reg.LNK_ERRA 0]) s t) ∧
  (∀ bytes : List Byte, on → ∃ t, exec (.legacyCommandFrame bytes true) s = .next t ∧ passed bytes t ∧
    getF (Reg.LNK_ERRB_CODE 0) t = min (getF (Reg.LNK_ERRB_CODE 0) s + 1) (2 ^ (Reg.LNK_ERRB_CODE 0).w - 1) ∧ t.flt.waiting = s.flt.waiting ++ [92] ∧ t.lnk.errSum = (s.lnk.errSum + 1) % 65536 ∧
    others t ∧ Changes [.lnk, .flt] (oneOf [Reg.LNK_ERRB 0]) s t) ∧
  (∀ (bytes : List Byte) (v : Bool), (linksRun s = false ∨ legacyMode s = false ∨ portState 0 s ≠ 5) → exec (.legacyCommandFrame bytes v) s = .next s)

/-- PCI Express: link up and down, configuration requests, PME and errors. -/
def Obligations.PcieLink : Prop := ∀ s : State,
  let link := bit Reg.HST_STAT_L0 s = true
  let idle := s.hst.waiting = [] ∧ (∀ v, v < 8 → regBit (Reg.HST_PBA 0) v s = false) ∧
    ∀ r, r < 11 → bit (Reg.HST_RCFG_IEN r) s = false ∨ (nth s.hst.unsig r (0, 0)).1 < max 1 (getF (Reg.HST_RCFG_MODCNT r) s)
  let due := gen3Shut s = false ∧ s.hst.pcie.d3 = true ∧ s.hst.pcie.pmeEn = true ∧ s.hst.evq ≠ []
  let failed := fun (f : Field) (src : Nat) (t : State) => bit f t = true ∧ t.flt.waiting = s.flt.waiting ++ [src] ∧ t.hst.cmds = s.hst.cmds ∧
    t.hst.evq = s.hst.evq ∧ t.hst.waiting = s.hst.waiting ∧ Changes [.hst, .flt] (oneOf [Reg.HST_ERR, Reg.HST_PBA 0]) s t
  let set := fun (p : PcieState) (t : State) => t.hst.pcie = p ∧ t.answered .ok ∧ t.hst.cmds = s.hst.cmds ∧ t.hst.evq = s.hst.evq ∧
    (idle → t.hst = { s.hst with pcie := p }) ∧ Changes [.hst, .resp] (oneOf [Reg.HST_PBA 0, Reg.HST_RDIDX 1]) s t
  (∀ fast : Bool, pciePresent s = true → hasRole s = false → ∃ t, exec (.gen3LinkUp fast) s = .next t ∧ gen3Holds t = true ∧
    bit Reg.HST_STAT_L0 t = true ∧ bit Reg.SYS_CLKSTAT_PCIELK t = true ∧ getF Reg.HST_STAT_LRATE t = (if fast then 2 else 1) ∧
    t.hst.pcie.pmeOwed = false ∧ t.hst.pcie.pmeSent = s.hst.pcie.pmeSent + (if s.hst.pcie.pmeOwed then 1 else 0) ∧ t.hst.evq = s.hst.evq ∧ t.cpb = s.cpb ∧
    t.pending = s.pending) ∧
  (link → ∃ t, exec .pcieLinkDown s = .next t ∧ bit Reg.HST_STAT_L0 t = false ∧ getF Reg.HST_STAT_LRATE t = 0 ∧ bit Reg.HST_ERR_LINKDN t = true ∧
    bit Reg.SYS_CLKSTAT_PCIELK t = false ∧ (∀ r, r < 11 → bit (Reg.HST_RCFG_EN r) t = false ∧ reg t (Reg.HST_RBASEL r) = reg s (Reg.HST_RBASEL r) ∧
      reg t (Reg.HST_RSIZE r) = reg s (Reg.HST_RSIZE r)) ∧ reg t Reg.HST_WBL = reg s Reg.HST_WBL ∧
    (gen3Holds s = true → hasRole t = false ∧ 106 ∈ t.flt.waiting ∧ t.hst.cmds = []) ∧ t.cal = s.cal ∧ t.cpb = s.cpb ∧ t.pending = s.pending) ∧
  (link → exec (.configRequest (.readHeader 0)) s = .next { s with resp := some ⟨.ok, [0x2464F0A5#32], 0⟩ } ∧
    exec (.configRequest (.readHeader 2)) s = .next { s with resp := some ⟨.ok, [BitVec.ofNat 32 (0x11800000 + getF Reg.SYS_ID_REV s)], 0⟩ } ∧
    exec (.configRequest (.readHeader 11)) s = .next { s with resp := some ⟨.ok, [0x0001F0A5#32], 0⟩ }) ∧
  (∀ d : Fin 16, link → ∃ t, exec (.configRequest (.readHeader d)) s = .next t ∧ t.resp = some ⟨.ok, [headerWord d s], 0⟩ ∧
    Changes [.resp, .free] (fun _ => False) s t) ∧
  (∀ m b : Bool, link → ∃ t, exec (.configRequest (.writeCommand m b)) s = .next t ∧ set { s.hst.pcie with memEn := m, busMaster := b } t) ∧
  (∀ v : Fin 18446744073709551616, link → ∃ t, exec (.configRequest (.writeBar v)) s = .next t ∧ set { s.hst.pcie with bar := v.val / 0x100000 * 0x100000 } t ∧
    Changes [.hst, .resp] (fun _ => False) s t) ∧
  (∀ e m : Bool, link → ∃ t, exec (.configRequest (.writeMsix e m)) s = .next t ∧ set { s.hst.pcie with msixEn := e, msixMask := m } t) ∧
  (∀ d e k : Bool, link → ∃ t, exec (.configRequest (.writePower d e k)) s = .next t ∧
    set { s.hst.pcie with d3 := d, pmeEn := e, pmeStat := s.hst.pcie.pmeStat && !k } t) ∧
  (∀ a b : Fin 8, link → a.val ≤ 1 → ∃ t, exec (.configRequest (.writeDevice a b)) s = .next t ∧ set { s.hst.pcie with mps := a.val, mrrs := b.val } t ∧
    Changes [.hst, .resp] (fun _ => False) s t) ∧
  (∀ a b : Fin 8, link → 1 < a.val → ∃ t, exec (.configRequest (.writeDevice a b)) s = .next t ∧ t.hst.pcie.mps ≤ 1 ∧
    t.hst = { s.hst with pcie := { s.hst.pcie with mps := t.hst.pcie.mps, mrrs := b.val } } ∧ t.answered .ok ∧ Changes [.hst, .resp, .free] (fun _ => False) s t) ∧
  (∀ a : Fin 4, link → ∃ t, exec (.configRequest (.writeLink a)) s = .next t ∧ set { s.hst.pcie with aspm := a.val } t ∧
    Changes [.hst, .resp] (fun _ => False) s t) ∧
  (∀ w : Word, link → ∃ t, exec (.configRequest (.clearAer w)) s = .next t ∧ set { s.hst.pcie with aer := s.hst.pcie.aer &&& ~~~w } t ∧
    Changes [.hst, .resp] (fun _ => False) s t) ∧
  (∀ m v : Word, link → ∃ t, exec (.configRequest (.writeAer m v)) s = .next t ∧ set { s.hst.pcie with aerMask := m, aerSev := v } t ∧
    Changes [.hst, .resp] (fun _ => False) s t) ∧
  (∀ (r : Fin 16) (off : Bool), link → ∃ t, exec (.configRequest (.writeTimeout r off)) s = .next t ∧ set { s.hst.pcie with timeout := r.val, timeoutOff := off } t ∧
    Changes [.hst, .resp] (fun _ => False) s t) ∧
  (∀ (k : Capability) (d : Fin 16), link → exec (.configRequest (.readCapability k d)) s = .next { s with resp := some ⟨.ok, [capabilityWord k d s], 0⟩ }) ∧
  (link → exec (.configRequest (.readCapability .msix 1)) s = .next { s with resp := some ⟨.ok, [0x5400#32], 0⟩ } ∧
    exec (.configRequest (.readCapability .msix 2)) s = .next { s with resp := some ⟨.ok, [0x5600#32], 0⟩ } ∧ (capabilityWord .msix 0 s).getLsbD 31 = s.hst.pcie.msixEn ∧
    getBits (capabilityWord .msix 0 s) 16 11 = 7) ∧
  (due → ∃ t, exec .pmeRequest s = .next t ∧ t.hst.pcie.pmeStat = true ∧ t.hst.evq = s.hst.evq ∧ t.hst.pcie.pmeOwed = !bit Reg.HST_STAT_L0 s ∧
    t.hst.pcie.pmeSent = s.hst.pcie.pmeSent + (if bit Reg.HST_STAT_L0 s then 1 else 0) ∧
    (bit Reg.HST_STAT_L0 s = false → hostPins s = true → wakenLow t = true) ∧ Changes [.hst] (fun _ => False) s t) ∧
  (¬ due → exec .pmeRequest s = .next s) ∧
  (∀ w : Word, pciePresent s = true → ∃ t, exec (.aerUncorrectable w) s = .next t ∧ failed Reg.HST_ERR_AER 104 t ∧
    t.hst.pcie = { s.hst.pcie with aer := s.hst.pcie.aer ||| w }) ∧
  (pciePresent s = true → ∃ t, exec .dmaReadError s = .next t ∧ failed Reg.HST_ERR_DMAERR 105 t ∧ t.hst.pcie = s.hst.pcie) ∧
  (coreUp s = true → ∃ t, exec .hostParityError s = .next t ∧ failed Reg.HST_ERR_PAR 110 t ∧ t.hst.pcie = s.hst.pcie) ∧
  (∀ (fast : Bool) (w : Word), pciePresent s = false → exec (.gen3LinkUp fast) s = .next s ∧ exec (.aerUncorrectable w) s = .next s ∧
    exec .dmaReadError s = .next s) ∧
  (∀ c : CfgAccess, ¬ link → exec .pcieLinkDown s = .next s ∧ exec (.configRequest c) s = .next s) ∧
  (coreUp s = false → exec .hostParityError s = .next s)

/-- Rings: set-up, doorbells, fetching, the entries of streams and events, the writeback block and messages. -/
def Obligations.Rings : Prop := ∀ s : State,
  let fenced := bit Reg.FLT_FENCE0_HST s = true
  let quiet := fun (r : Nat) => bit (Reg.HST_RCFG_IEN r) s = false
  let moved := fun (r n : Nat) (t : State) => deviceIndex r t = (deviceIndex r s + n) % ringSize r s
  let wrote := fun (rs : List Nat) (t : State) => Changes [.hst] (oneOf (Reg.HST_PBA 0 :: rs)) s t
  let role2 := coreUp s = true ∧ hasRole s = true ∧ isGen2 s = true
  let inStream := fun (f : Frame) => coreUp s = true ∧ hasRole s = true ∧ f.type = .stream ∧ (sessionRing f.tag s).1 = true
  let lost := fun (r : Nat) => nth s.hst.lost r 0
  let lossOf := fun (r : Nat) => if lost r = 0 then ([] : List StreamEntry) else [⟨r - 3, 3, 0, 0, 0, lost r, []⟩]
  let entry := fun (f : Frame) => (⟨(sessionRing f.tag s).2, 1, f.src, f.tag, f.epoch, 0, f.payload⟩ : StreamEntry)
  let mine := fun (k : Nat) (e : StreamEntry) (l : List StreamEntry) => isGen2 s = false ∧ ringRuns (3 + k) s = true ∧ takeStream k s.hst.sbuf = some (e, l)
  let ready := fun (r : Nat) => r ≠ 0 ∧ bit (Reg.HST_RCFG_IEN r) s = true ∧ getF (Reg.HST_RMOD_MODT r) s ≠ 0 ∧ (nth s.hst.unsig r (0, 0)).1 ≠ 0 ∧
    (nth s.hst.unsig r (0, 0)).2 + getF (Reg.HST_RMOD_MODT r) s * us ≤ s.now ∧ dmaAllowed s = true
  let vec := fun (r : Nat) => getF (Reg.HST_RCFG_VEC r) s
  (∀ r : Fin 11, coreUp s = true → ¬ fenced → bit (Reg.HST_RCFG_EN r) s = false → ringBad r s = false → (r.val = 1 → s.hst.waiting = []) →
    ∃ t, exec (.ringEnable r.castSucc) s = .next t ∧ bit (Reg.HST_RCFG_EN r) t = true ∧ deviceIndex r t = 0 ∧ hostIndex r t = 0 ∧
    nth t.hst.phase r false = true ∧ t.hst.dirty = (s.hst.dirty || deviceIndex r s != 0) ∧ t.answered .ok ∧ Changes [.hst, .resp] (oneOf [Reg.HST_RCFG r, Reg.HST_RDIDX r]) s t) ∧
  (∀ d : HostDone, coreUp s = true → isGen2 s = false → dmaAllowed s = true → bit (Reg.HST_RCFG_EN 1) s = false → ringBad 1 s = false → quiet 1 →
    s.hst.waiting = [d] → ∃ t, exec (.ringEnable 1) s = .next t ∧ bit (Reg.HST_RCFG_EN 1) t = true ∧ t.hst.waiting = [] ∧ deviceIndex 1 t = 1 ∧
    hostIndex 1 t = 0 ∧ t.hst.mem = memPut (ringBase 1 s) (completionBytes d true) (if d.rdata then memPut d.dptr (wordsBytes d.data) s.hst.mem else s.hst.mem) ∧
    t.answered .ok ∧ Changes [.hst, .resp] (oneOf [Reg.HST_RCFG 1, Reg.HST_RDIDX 1]) s t) ∧
  (∀ r : Fin 12, coreUp s = true → ¬ fenced → r.val = 11 → bit Reg.HST_WBL_EN s = false → rangeClash 11 (hostRange 11 s) s = false →
    ∃ t, exec (.ringEnable r) s = .next t ∧ bit Reg.HST_WBL_EN t = true ∧
    t.hst.writebacks = 0#32 ∧ t.answered .ok ∧ Changes [.hst, .resp] (oneOf [Reg.HST_WBL]) s t) ∧
  (∀ r : Fin 12, coreUp s = false ∨ fenced → exec (.ringEnable r) s = .next s) ∧
  (∀ r : Fin 12, coreUp s = true → ¬ fenced → rangeInUse r s = true → ∃ t, exec (.ringEnable r) s = .next t ∧ t.answered .ok ∧ Changes [.resp] (fun _ => False) s t) ∧
  (∀ r : Fin 11, coreUp s = true → ¬ fenced → bit (Reg.HST_RCFG_EN r) s = false → ringBad r s = true → ∃ t, exec (.ringEnable r.castSucc) s = .next t ∧ Sheltered s t) ∧
  (∀ (r : Fin 11) (i : Fin 1048576), coreUp s = true → doorbellActs r s = true → doorbellBad r i s = false → (r.val = 1 → s.hst.waiting = []) →
    ∃ t, exec (.doorbellWrite r i) s = .next t ∧ hostIndex r t = i.val ∧ (∀ q, q ≠ r.val → hostIndex q t = hostIndex q s) ∧ t.answered .ok ∧
    Changes [.hst, .resp] (fun _ => False) s t) ∧
  (∀ (r : Fin 11) (i : Fin 1048576), coreUp s = true → (bit (Reg.HST_RCFG_EN r) s = false ∨ s.hst.pcie.busMaster = false) → ∃ t, exec (.doorbellWrite r i) s = .next t ∧ t.answered .ok ∧
    Changes [.resp] (fun _ => False) s t) ∧
  (∀ (r : Fin 11) (i : Fin 1048576), coreUp s = true → doorbellActs r s = true → doorbellBad r i s = true →
    ∃ t, exec (.doorbellWrite r i) s = .next t ∧ Sheltered s t) ∧
  (∀ d : List Word, mayFetch d s = true → descBad false d = false → bufferBad d s = false → deviceIndex 0 s < ringSize 0 s →
    ∃ t, exec (.descriptorFetch [d]) s = .next t ∧ t.hst.cmds = s.hst.cmds ++ [⟨s.hst.nextSlot, d, [], false, s.now⟩] ∧ moved 0 1 t ∧ t.hst.dirty = true ∧
    Changes [.hst] (oneOf [Reg.HST_OUT, Reg.HST_RDIDX 0]) s t) ∧
  (∀ (d : List Word) (l : List (List Word)), mayFetch d s = false → exec (.descriptorFetch (d :: l)) s = .next s) ∧
  (∀ d : List Word, mayFetch d s = true → descBad false d = true → ∃ t, exec (.descriptorFetch [d]) s = .next t ∧ Sheltered s t) ∧
  (∀ (n : Fin 4) (f : Frame), inStream f → isGen2 s = true → waitingUnits s + (lossOf (3 + (sessionRing f.tag s).2)).length + streamUnits (entry f) ≤ 2048 →
    ∃ t, exec (.streamFrameReceive n f) s = .next t ∧ t.hst.sbuf = s.hst.sbuf ++ lossOf (3 + (sessionRing f.tag s).2) ++ [entry f] ∧
    nth t.hst.lost (3 + (sessionRing f.tag s).2) 0 = 0 ∧ Changes [.hst, .fab] (fun _ => False) s t) ∧
  (∀ (n : Fin 4) (f : Frame), inStream f → isGen2 s = false → bit (Reg.HST_RCFG_EN (3 + (sessionRing f.tag s).2)) s = true → s.hst.pcie.busMaster = true →
    waitingUnits s + streamUnits (entry f) ≤ 4096 → ∃ t, exec (.streamFrameReceive n f) s = .next t ∧ t.hst.sbuf = s.hst.sbuf ++ [entry f] ∧
    t.hst.lost = s.hst.lost ∧ Changes [.hst, .fab] (fun _ => False) s t) ∧
  (∀ (n : Fin 4) (f : Frame), coreUp s = true → hasRole s = true → f.type = .stream → (sessionRing f.tag s).1 = false → ∃ t,
    exec (.streamFrameReceive n f) s = .next t ∧ getF Reg.HST_CNT_NOMAP t = min (getF Reg.HST_CNT_NOMAP s + 1) 255 ∧ t.hst = s.hst ∧
    Changes [.fab] (oneOf [Reg.HST_CNT]) s t) ∧
  (∀ (n : Fin 4) (f : Frame), coreUp s = true → hasRole s = false → f.type = .stream → ∃ t, exec (.streamFrameReceive n f) s = .next t ∧
    getF Reg.FAB_LATE_LATE t = min (getF Reg.FAB_LATE_LATE s + 1) (2 ^ Reg.FAB_LATE_LATE.w - 1) ∧ Changes [.fab] (oneOf [Reg.FAB_LATE]) s t) ∧
  (∀ (k : Fin 8) (e : StreamEntry) (l : List StreamEntry), mine k e l → lost (3 + k) = 0 → deviceIndex (3 + k) s + streamUnits e ≤ ringSize (3 + k) s →
    streamUnits e ≤ ringRoom (3 + k) s → ∃ t, exec (.streamEntryWrite k) s = .next t ∧ t.hst.sbuf = l ∧ moved (3 + k) (streamUnits e) t ∧
    (quiet (3 + k) → t.hst.mem = memPut (ringBase (3 + k) s + 16 * deviceIndex (3 + k) s) (streamBytes e (streamUnits e) (nth s.hst.phase (3 + k) true)) s.hst.mem) ∧
    wrote [Reg.HST_RDIDX (3 + k)] t) ∧
  (∀ (k : Fin 8) (e : StreamEntry) (l : List StreamEntry), mine k e l → lost (3 + k) = 0 → deviceIndex (3 + k) s < ringSize (3 + k) s →
    ringSize (3 + k) s < deviceIndex (3 + k) s + streamUnits e → streamUnits e < ringSize (3 + k) s →
    streamUnits e + (ringSize (3 + k) s - deviceIndex (3 + k) s) ≤ ringRoom (3 + k) s →
    ∃ t, exec (.streamEntryWrite k) s = .next t ∧ t.hst.sbuf = l ∧ deviceIndex (3 + k) t = streamUnits e ∧
    nth t.hst.phase (3 + k) true = !nth s.hst.phase (3 + k) true ∧ wrote [Reg.HST_RDIDX (3 + k)] t) ∧
  (∀ (k : Fin 8) (e : StreamEntry) (l : List StreamEntry), mine k e l → lost (3 + k) ≠ 0 → deviceIndex (3 + k) s + 1 + streamUnits e < ringSize (3 + k) s →
    1 + streamUnits e ≤ ringRoom (3 + k) s → ∃ t, exec (.streamEntryWrite k) s = .next t ∧ t.hst.sbuf = l ∧ moved (3 + k) (1 + streamUnits e) t ∧
    nth t.hst.lost (3 + k) 0 = 0 ∧ (quiet (3 + k) → t.hst.mem = memPut (ringBase (3 + k) s + 16 * (deviceIndex (3 + k) s + 1))
      (streamBytes e (streamUnits e) (nth s.hst.phase (3 + k) true)) (memPut (ringBase (3 + k) s + 16 * deviceIndex (3 + k) s)
        (streamBytes ⟨k, 3, 0, 0, 0, lost (3 + k), []⟩ 1 (nth s.hst.phase (3 + k) true)) s.hst.mem)) ∧ wrote [Reg.HST_RDIDX (3 + k)] t) ∧
  (∀ (n : Fin 4) (f : Frame), role2 → f.type = .event → s.hst.evq.length < 64 → lost 2 = 0 →
    ∃ t, exec (.eventFrameReceive n f) s = .next t ∧ t.hst.evq = s.hst.evq ++ [⟨f.src, 1, f.epoch, s.ft, 0, f.payload⟩] ∧
    Changes [.hst, .fab] (fun _ => False) s t) ∧
  (∀ (n : Fin 4) (f : Frame), role2 → f.type = .alarm → s.hst.evq.length < 64 → lost 2 = 0 →
    ∃ t, exec (.alarmReceive n f) s = .next t ∧ t.hst.evq = s.hst.evq ++ [⟨f.src, 2, f.epoch, s.ft, 0, f.payload⟩] ∧
    Changes [.hst, .fab] (fun _ => False) s t) ∧
  (∀ (n : Fin 4) (f : Frame), role2 → f.type = .event → s.hst.evq.length = 64 → ∃ t, exec (.eventFrameReceive n f) s = .next t ∧
    t.hst.evq = s.hst.evq ∧ nth t.hst.lost 2 0 = lost 2 + 1 ∧ t.flt.waiting = s.flt.waiting ++ [108] ∧
    getF (Reg.HST_RLOST_LOST 2) t = min (getF (Reg.HST_RLOST_LOST 2) s + 1) (2 ^ (Reg.HST_RLOST_LOST 2).w - 1) ∧
    Changes [.hst, .fab, .flt] (oneOf [Reg.HST_RLOST 2]) s t) ∧
  (∀ (e : EventEntry) (l : List EventEntry), isGen2 s = false → ringRuns 2 s = true → ringRoom 2 s ≠ 0 → s.hst.evq = e :: l →
    deviceIndex 2 s < ringSize 2 s → ∃ t, exec .eventEntryWrite s = .next t ∧ nth t.hst.lost 2 0 = (if l.length < 64 then 0 else lost 2) ∧ moved 2 1 t ∧
    t.hst.evq = l ++ (if lost 2 ≠ 0 ∧ l.length < 64 then [⟨1023, 3, 0, s.ft, lost 2, []⟩] else []) ∧
    (quiet 2 → t.hst.mem = memPut (ringBase 2 s + 80 * deviceIndex 2 s) (eventBytes e (nth s.hst.phase 2 true)) s.hst.mem) ∧ wrote [Reg.HST_RDIDX 2] t) ∧
  (isGen2 s = false → ringRuns 2 s = true → ringRoom 2 s ≠ 0 → s.hst.evq = [] → lost 2 ≠ 0 → deviceIndex 2 s < ringSize 2 s →
    ∃ t, exec .eventEntryWrite s = .next t ∧ t.hst.evq = [] ∧ nth t.hst.lost 2 0 = 0 ∧ moved 2 1 t ∧
    (quiet 2 → t.hst.mem = memPut (ringBase 2 s + 80 * deviceIndex 2 s) (eventBytes ⟨1023, 3, 0, s.ft, lost 2, []⟩ (nth s.hst.phase 2 true)) s.hst.mem) ∧
    wrote [Reg.HST_RDIDX 2] t) ∧
  (s.hst.dirty = true → s.hst.wbAt.all (fun u => decide (u + getF Reg.HST_WBCFG_WBINT s * us ≤ s.now)) = true → bit Reg.HST_WBL_EN s = true →
    dmaAllowed s = true → ∃ t, exec .writeback s = .next t ∧ t.hst.dirty = false ∧ t.hst.wbAt = some s.now ∧
    t.hst.writebacks = s.hst.writebacks + 1#32 ∧ t.hst.mem = memPut (getF Reg.HST_WBL_ADDR s * 64 + 2 ^ 32 * (reg s Reg.HST_WBH).toNat)
      (wordsBytes (writebackWords (s.hst.writebacks + 1#32) s)) s.hst.mem ∧ Changes [.hst] (fun _ => False) s t) ∧
  (s.hst.dirty = false ∨ s.hst.wbAt.any (fun u => decide (s.now < u + getF Reg.HST_WBCFG_WBINT s * us)) = true → exec .writeback s = .next s) ∧
  (∀ r : Fin 11, ready r → s.hst.pcie.msixEn = true → vectorMasked (vec r) s = false → ∃ t, exec (.moderationTimeout r) s = .next t ∧
    nth t.hst.unsig r (1, 1) = (0, 0) ∧ nth t.hst.msi (vec r) 0 = nth s.hst.msi (vec r) 0 + 1 ∧ t.hst.evq = s.hst.evq ∧ t.hst.sbuf = s.hst.sbuf ∧
    Changes [.hst] (fun _ => False) s t) ∧
  (∀ r : Fin 11, ready r → s.hst.pcie.msixEn = true → vectorMasked (vec r) s = true → ∃ t, exec (.moderationTimeout r) s = .next t ∧
    nth t.hst.unsig r (1, 1) = (0, 0) ∧ t.hst.msi = s.hst.msi ∧ regBit (Reg.HST_PBA 0) (vec r) t = true ∧ t.hst.evq = s.hst.evq ∧
    t.hst.sbuf = s.hst.sbuf ∧ Changes [.hst] (oneOf [Reg.HST_PBA 0]) s t) ∧
  (∀ r : Fin 11, (¬ ready r ∨ s.hst.pcie.msixEn = false) → exec (.moderationTimeout r) s = .next s)

/-- Commands of the host: NOP, READ, WRITE, SESSION and ENUM. -/
def Obligations.HostCommands : Prop := ∀ s : State,
  let one := fun (c : HostCmd) (op : Nat) => coreUp s = true ∧ hasRole s = true ∧ (isGen2 s = true ∨ ringRuns 1 s = false) ∧
    bit Reg.FLT_FENCE0_HST s = false ∧ 0 < getF Reg.HST_DWM_DWM s ∧ s.hst.cmds = [c] ∧ c.begun = false ∧ descOp c.desc = op
  let here := fun c : HostCmd => descMode c.desc = 0 ∧ ownCheck [] c s = none
  let done := fun (st : Status) (data : List Word) (c : HostCmd) (t : State) => t.hst.cmds = [] ∧ t.hst.waiting = s.hst.waiting ++ [localDone st data 0 c]
  let ended := fun (st : Status) (c : HostCmd) (t : State) => done st [] c t ∧ Changes [.hst] (oneOf [Reg.HST_OUT]) s t
  let byWord := fun c : HostCmd => decide (descMode c.desc = 2)
  let path := fun c : HostCmd => if byWord c then (nth c.desc 2 0#32, getBits (nth c.desc 1 0#32) 24 5) else (entryOf (descNode c.desc) s).route
  let cls := fun c : HostCmd => if descBulk c.desc then Cls.d else Cls.c
  let far := fun c : HostCmd => (descMode c.desc = 2 ∨ (descMode c.desc = 1 ∧ descNode c.desc ≠ 1023 ∧ (entryOf (descNode c.desc) s).state ≠ 0 ∧
      (entryOf (descNode c.desc) s).state ≠ 2)) ∧ freeTags s ≠ [] ∧ 1 ≤ (path c).2 ∧ (path c).2 ≤ 16 ∧ portOpen (routePort (path c).1) s = true ∧
    (port (routePort (path c).1) s).queue (cls c) = []
  let tagOf := fun t : State => (t.fab.reqs.getLast?.map Req.tag).getD 256
  let frame := fun (ty : FrameType) (posted : Bool) (body : List Word) (c : HostCmd) (tag : Nat) => (⟨ty, cls c, if byWord c then .routeWord else .nodeId,
    (path c).1, (path c).2, ownSrc s, if byWord c then 1023 else descNode c.desc, ownEpoch s, tag, descPrefix posted c.desc s ++ body⟩ : Frame)
  let sent := fun (ty : FrameType) (posted : Bool) (body : List Word) (c : HostCmd) (t : State) => t.hst.cmds = [{ c with begun := true }] ∧
    t.hst.waiting = s.hst.waiting ∧ tagOf t ∈ freeTags s ∧ t.fab.reqs = s.fab.reqs ++ [⟨tagOf t, some c.slot,
      if byWord c then none else some (descNode c.desc), frame ty posted body c (tagOf t), descCount c.desc, false, s.now, none, 0⟩] ∧
    (port (routePort (path c).1) t).queue (cls c) = [(4, frame ty posted body c (tagOf t))] ∧
    Changes [.hst, .fab, .lnk, .free] (oneOf [Reg.HST_OUT]) s t
  let fed := fun c : HostCmd => isGen2 s = true ∨ dmaAllowed s = true ∨ needsDma c = false
  let target := fun c : HostCmd => [BitVec.ofNat 32 (descAddr c.desc), BitVec.ofNat 32 (descCount c.desc)]
  let flooded := fun (c : HostCmd) => c.desc.length = 16 ∧ descMode c.desc = 3 ∧ descBulk c.desc = false ∧ broadcastsNow s < 64 ∧ s.fab.bwait = []
  let posted := fun c : HostCmd => (nth c.desc 0 0#32).getLsbD 27
  (∀ c : HostCmd, one c 0 → ∃ t, exec .nop s = .next t ∧ ended .ok c t) ∧
  (∀ c : HostCmd, one c 1 → here c → descAddr c.desc = Reg.FAB_ID → descCount c.desc = 1 → ∃ t, exec .read s = .next t ∧
    done .ok [reg s Reg.FAB_ID &&& 0x83FF#32] c t ∧ Changes [.hst] (oneOf [Reg.HST_OUT]) s t) ∧
  (∀ c : HostCmd, one c 1 → here c → (descCount c.desc < 2 ∨ descAddr c.desc % 8 = 0) → ∃ t, exec .read s = .next t ∧
    done .ok (readWords .host (descAddr c.desc) (descCount c.desc) s).1 c t ∧ t.pending = s.pending) ∧
  (∀ (c : HostCmd) (dma : List Word) (v : Word), one c 2 → fed c → here c → descBulk c.desc = false → descAddr c.desc = Reg.FAB_HOME_AROUTE 0 →
    descCount c.desc = 1 → writeData c dma = [v] → ∃ t, exec (.write dma) s = .next t ∧ done .ok [] c t ∧ reg t (Reg.FAB_HOME_AROUTE 0) = v ∧
    bit (Reg.FAB_HOME_HCTL_AFAIL 0) t = false ∧ Changes [.hst] (oneOf [Reg.HST_OUT, Reg.FAB_HOME_AROUTE 0, Reg.FAB_HOME_HCTL 0]) s t) ∧
  (∀ (c : HostCmd) (dma : List Word) (v w : Word), one c 2 → fed c → here c → descBulk c.desc = false → descAddr c.desc ∈ [Reg.TBS_SETL, Reg.TBS_REINTL, Reg.IMP_T0L] →
    planActive s = false → descCount c.desc = 2 → writeData c dma = [v, w] → ∃ t, exec (.write dma) s = .next t ∧ done .ok [] c t ∧
    reg t (descAddr c.desc) = v ∧ reg t (descAddr c.desc + 4) = w ∧ Changes [.hst] (oneOf [Reg.HST_OUT, descAddr c.desc, descAddr c.desc + 4]) s t) ∧
  (∀ c : HostCmd, one c 1 → far c → ∃ t, exec .read s = .next t ∧ sent .read false (target c) c t) ∧
  (∀ (c : HostCmd) (dma : List Word), one c 2 → fed c → far c → ∃ t, exec (.write dma) s = .next t ∧
    sent .write (posted c) (target c ++ writeData c dma) c t) ∧
  (∀ c : HostCmd, one c 3 → far c → ∃ t, exec .session s = .next t ∧
    sent .session false [descOpw c.desc, nth c.desc 8 0#32, nth c.desc 9 0#32, nth c.desc 10 0#32] c t) ∧
  (∀ (c : HostCmd) (dma : List Word), one c 2 → fed c → flooded c → (∃ n : Fin 4, portOpen n s = true) → (∀ n : Fin 4, (port n s).qc = []) →
    ∃ t, exec (.write dma) s = .next t ∧ t.hst.cmds = [{ c with begun := true }] ∧ t.hst.waiting = s.hst.waiting ∧
    t.fab.reqs.length = s.fab.reqs.length + 1 ∧ (∀ n : Fin 4, (port n t).qc = (if portOpen n s then [(4, ⟨.write, .c, .broadcast, 0#32,
      getF Reg.FAB_CFG_BHOP s, ownSrc s, 1023, ownEpoch s, s.fab.bcount, descPrefix true c.desc s ++ target c ++ writeData c dma⟩)] else [])) ∧
    Changes [.hst, .fab, .lnk] (oneOf [Reg.HST_OUT]) s t) ∧
  (∀ (c : HostCmd) (dma : List Word), one c 2 → fed c → flooded c → (∀ n : Fin 4, portOpen n s = false ∧ (port n s).qa ++ (port n s).qb ++ (port n s).qc ++ (port n s).qd = []) →
    s.fab.reqs = [] → s.lnk.ports.length ≤ 4 → ∃ t, exec (.write dma) s = .next t ∧ t.hst.cmds = [] ∧ t.fab.reqs = [] ∧
    t.hst.waiting.map HostDone.status = s.hst.waiting.map HostDone.status ++ [.ok] ∧ Changes [.hst, .fab] (oneOf [Reg.HST_OUT]) s t) ∧
  (∀ c : HostCmd, one c 1 → descMode c.desc = 1 → (entryOf (descNode c.desc) s).state = 2 → ∃ t, exec .read s = .next t ∧ ended .noRoute c t) ∧
  (∀ c : HostCmd, one c 1 → ((descMode c.desc = 1 ∧ (entryOf (descNode c.desc) s).state = 0) ∨ (descMode c.desc = 0 ∧ ownBadAddress c.desc s = true)) →
    ∃ t, exec .read s = .next t ∧ ended .badAddress c t) ∧
  (∀ c : HostCmd, one c 1 → descMode c.desc = 0 → ownBadAddress c.desc s = false → unitFenced (descAddr c.desc) s = true →
    ∃ t, exec .read s = .next t ∧ ended .refusedFenced c t) ∧
  (∀ c : HostCmd, one c 3 → here c → getBits (descOpw c.desc) 0 8 = 4 → getBits (descOpw c.desc) 16 2 = 0 → bit (Reg.FAB_HOME_HCTL_VALID 0) s = true →
    homeDead 0 s = false → (sessionOf (getBits (descOpw c.desc) 8 8) s).state ≠ 0 → ∃ t, exec .session s = .next t ∧ done .ok [] c t ∧
    sessionOf (getBits (descOpw c.desc) 8 8) t = { sessionOf (getBits (descOpw c.desc) 8 8) s with state := 2 } ∧
    Changes [.hst, .fab] (oneOf [Reg.HST_OUT]) s t) ∧
  (∀ c : HostCmd, one c 4 → here c → getBits (descOpw c.desc) 0 2 ≠ 0 → s.sys.ctlBusy = false → bit Reg.BST_CTLSTAT_ROMBAD s = false →
    s.fab.run = none → ∃ t, exec .enum s = .next t ∧ t.fab.run.map EnumRun.mode = some (getBits (descOpw c.desc) 0 2) ∧
    t.fab.run.map EnumRun.ticket = some (some (.host c.slot)) ∧ t.hst.cmds = [{ c with begun := true }] ∧
    bit Reg.FAB_ENSTAT_RUNNING t = true ∧ t.hst.waiting = s.hst.waiting ∧ t.pending = s.pending) ∧
  (∀ c : HostCmd, one c 4 → here c → getBits (descOpw c.desc) 0 2 = 0 → ∃ t, exec .enum s = .next t ∧ done .ok [reg s Reg.FAB_ENSTAT] c t ∧
    Changes [.hst] (oneOf [Reg.HST_OUT]) s t) ∧
  (∀ (c : HostCmd) (dma : List Word), nextCommand s = some c → needsDma c = true → isGen2 s = false → dmaAllowed s = false → exec (.write dma) s = .next s) ∧
  (∀ dma : List Word, (hasRole s = false ∨ (nextCommand s).all (fun c => decide (4 < descOp c.desc)) = true) → exec .nop s = .next s ∧ exec .read s = .next s ∧
    exec (.write dma) s = .next s ∧ exec .session s = .next s ∧ exec .enum s = .next s)

/-- The delay exchange and the states of the timebase: requests, responses, the delay and the offset, holdover, the conflict of roots and the time step. -/
def Obligations.DelayExchange : Prop := ∀ s : State,
  let report := fun (f : Frame) => getBits (nth f.payload 0 0#32) 8 8
  let child := fun (n : Fin 4) => portUp n s = true ∧ isRoot s = false ∧ s.tbs.parent = true ∧ getF Reg.TBS_STAT_PARENT s = n.val
  let asked := fun (n : Fin 4) (f : Frame) (t1 : Nat) => child n ∧ isDelay 2 f = true ∧ report f / 64 = 2 ∧
    (delayOf n s).asked = some (getBits (nth f.payload 0 0#32) 0 4) ∧ (delayOf n s).sent = some t1
  let stamp := fun (ago : Nat) => (unsigned 64 (s.ft - ago) : Int)
  let leaves := fun (n : Fin 4) (f : Frame) => portUp n s = true ∧ (port n s).busy s.now = false ∧ s.fab.bwait = [] ∧ (port n s).qa = [(4, f)] ∧
    f.type = .delay ∧ f.cls = .a
  let t2 := fun (f : Frame) => ((nth f.payload 1 0#32).toNat + 2 ^ 32 * (nth f.payload 2 0#32).toNat : Int)
  let turn := fun (f : Frame) => ((nth f.payload 3 0#32).toNat : Int)
  let sends := fun n : Fin 4 => if s.sys.phase = .standby then portOpen n s = true ∧ s.tbs.parent = true ∧ getF Reg.TBS_STAT_PARENT s = n.val else portUp n s = true
  let alone := fun (n : Fin 4) => ∀ m : Fin 4, m ≠ n → (delayOf m s).report = none
  let rested := fun (d : Nat) => s.tbs.held + d ≤ s.now
  (linksRun s = true → ∃ t, exec .delayRequestSend s = .next t ∧ (∀ n : Fin 4, sends n →
      (port n t).qa = (port n s).qa ++ [(4, ⟨.delay, .a, .linkLocal, 0#32, 0, ownSrc s, 1023, ownEpoch s, 0, delayWords n 1 (delayOf n s).seq 0 0 s⟩)] ∧
      (delayOf n t).asked = some (delayOf n s).seq ∧ (delayOf n t).seq = ((delayOf n s).seq + 1) % 16) ∧
    (∀ n : Fin 4, ¬ sends n → (port n t).qa = (port n s).qa ∧ delayOf n t = delayOf n s) ∧ Changes [.lnk, .tbs] (fun _ => False) s t) ∧
  (∀ (n : Fin 4) (f : Frame) (ago : Nat), portUp n s = true → isDelay 1 f = true → ((child n ∧ report f / 64 = 2) ∨ (isRoot s = true ∧ report f % 32 ≠ 0)) →
    ∃ t, exec (.delayRequestReceive n f ago) s = .next t ∧
    ((port n t).qa.getLast?.map (fun e => (e.2.payload.drop 1).take 2)) =
      some [BitVec.ofInt 32 (stamp ago), BitVec.ofInt 32 (stamp ago / 2 ^ 32)] ∧
    ((port n t).qa.getLast?.map (fun e => getBits (nth e.2.payload 0 0#32) 0 8)) = some (32 + getBits (nth f.payload 0 0#32) 0 4) ∧
    (port n t).qa.dropLast = (port n s).qa ∧ Changes [.lnk, .tbs, .fab] (oneOf [Reg.TBS_STAT]) s t) ∧
  (∀ (n : Fin 4) (f : Frame), leaves n f → getBits (nth f.payload 0 0#32) 4 4 = 1 → (port n s).stop ≤ s.now → s.ft < 2 ^ 64 →
    ∃ t, exec (.frameTransmit n) s = .next t ∧ (delayOf n t).sent = some s.ft ∧ (port n t).qa = [] ∧
    (port n t).line = [frameLine f (acks (port n s) 0 false)] ∧ t.pending = s.pending) ∧
  (∀ (n : Fin 4) (f : Frame), leaves n f → getBits (nth f.payload 0 0#32) 4 4 = 2 → f.payload.length = 4 → (port n s).stop ≤ s.now → t2 f ≤ s.ft →
    s.ft < t2 f + 2 ^ 32 → s.ft < 2 ^ 64 → ∃ t, exec (.frameTransmit n) s = .next t ∧ t.tbs = s.tbs ∧ (port n t).qa = [] ∧
    (port n t).line = [frameLine { f with payload := f.payload.take 3 ++ [BitVec.ofInt 32 (s.ft - t2 f)] } (acks (port n s) 0 false)] ∧
    t.pending = s.pending) ∧
  (∀ (n : Fin 4) (f : Frame) (t1 ago : Nat) (delay off : Int), asked n f t1 → 2 * delay = (stamp ago - t1) - turn f → 2 * off = (t2 f - t1) + (t2 f + turn f - stamp ago) →
    -1000 < off → off < 1000 → tbState s = 2 → (delayOf n s).delays = [] → s.tbs.bad < 3 → ∃ t, exec (.delayResponseReceive n f ago) s = .next t ∧
    reg t Reg.TBS_OFFS = BitVec.ofInt 32 off ∧ getBits (reg t Reg.TBS_PDLY) (8 * n) 8 = (clampI delay 0 255).toNat ∧
    (delayOf n t).delays = [delay] ∧ (delayOf n t).asked = none ∧ t.ft = s.ft ∧ tbState t = 2 ∧ -25000000 ≤ t.tbs.slew ∧ t.tbs.slew ≤ 25000000 ∧
    (∀ r, s.tbs.track = some r → -25000000 ≤ r → r ≤ 25000000 → t.tbs.track = some r ∧ r - 100000 ≤ t.tbs.slew ∧ t.tbs.slew ≤ r + 100000) ∧
    t.tbs.good = (if mag off ≤ 20 then s.tbs.good + 1 else 0) ∧ t.tbs.bad = (if 250 < mag off then s.tbs.bad + 1 else 0) ∧
    t.flt.waiting = s.flt.waiting ++ (if 500 < delay ∧ (delayOf n s).slow = false then [14] else []) ∧
    Changes [.tbs, .fab, .flt, .free] (oneOf [Reg.TBS_OFFS, Reg.TBS_PDLY, Reg.TBS_STAT]) s t) ∧
  (∀ (n : Fin 4) (f : Frame) (t1 ago : Nat) (off : Int), asked n f t1 → 2 * off = (t2 f - t1) + (t2 f + turn f - stamp ago) → -20 ≤ off → off ≤ 20 →
    tbState s = 1 → s.tbs.good = 15 → ∃ t, exec (.delayResponseReceive n f ago) s = .next t ∧ tbState t = 2 ∧
    bit Reg.CMS_STAT_TBLOCK t = true ∧ t.ft = s.ft ∧ Changes [.tbs, .fab, .flt, .free] (oneOf [Reg.TBS_OFFS, Reg.TBS_PDLY, Reg.TBS_STAT, Reg.CMS_STAT]) s t) ∧
  (∀ (n : Fin 4) (f : Frame) (t1 ago : Nat) (off : Int), asked n f t1 → 2 * off = (t2 f - t1) + (t2 f + turn f - stamp ago) → (off ≤ -1000 ∨ 1000 ≤ off) →
    ∃ t, exec (.delayResponseReceive n f ago) s = .next t ∧ t.ft = unsigned 64 (s.ft + off) ∧ reg t Reg.TBS_OFFS = BitVec.ofInt 32 off ∧
    t.tbs.good = 0 ∧ t.tbs.slew = s.tbs.slew ∧ t.pending = s.pending) ∧
  (∀ (n : Fin 4) (f : Frame), child n → isDelay 3 f = true → report f / 64 ≠ 2 → tbState s = 2 → bit Reg.CMS_STAT_TBLOCK s = true →
    getF Reg.TBS_CFG_HOLDMAX s ≠ 0 → alone n → ∃ t, exec (.announceReceive n f) s = .next t ∧ tbState t = 3 ∧
    t.tbs.parent = false ∧ bit Reg.CMS_STAT_TBLOCK t = true ∧ t.flt.waiting = s.flt.waiting ++ [14] ∧ getF Reg.TBS_STAT_HOPS t = 31 ∧ t.tbs.held = s.now ∧
    t.tbs.slew = s.tbs.slew ∧ Changes [.tbs, .lnk, .fab, .flt] (oneOf [Reg.TBS_STAT, Reg.CMS_STAT]) s t) ∧
  (∀ (n : Fin 4) (f : Frame), child n → isDelay 3 f = true → report f / 64 ≠ 2 → tbState s = 2 → getF Reg.TBS_CFG_HOLDMAX s = 0 → alone n →
    ∃ t, exec (.announceReceive n f) s = .next t ∧ tbState t = 0 ∧ t.tbs.parent = false ∧ bit Reg.CMS_STAT_TBLOCK t = false ∧ 14 ∈ t.flt.waiting ∧
    getF Reg.TBS_STAT_HOPS t = 31 ∧ t.ft = s.ft ∧ t.pending = s.pending) ∧
  (∀ (n : Fin 4) (f : Frame), child n → isDelay 3 f = true → report f / 64 = 2 → ∃ t, exec (.announceReceive n f) s = .next t ∧
    getF Reg.TBS_STAT_HOPS t = min (report f % 32 + 1) 31 ∧ tbState t = tbState s ∧ Changes [.tbs, .fab] (oneOf [Reg.TBS_STAT]) s t) ∧
  (∀ (n : Fin 4) (f : Frame), portUp n s = true → isRoot s = true → isDelay 3 f = true → report f % 32 ≠ 0 → ∃ t, exec (.announceReceive n f) s = .next t ∧
    (delayOf n t).report.map (fun r => r.2.2) = some (report f % 32) ∧ Changes [.tbs, .fab] (fun _ => False) s t) ∧
  (∀ (n : Fin 4) (h : Nat), portUp n s = true → tbState s = 3 → isRoot s = false → (delayOf n s).report = some (2, false, h) → alone n → h < 31 →
    rested (100 * us) → ∃ t, exec .holdoverParentSearch s = .next t ∧ tbState t = 2 ∧
    t.tbs.parent = true ∧ getF Reg.TBS_STAT_PARENT t = n.val ∧ getF Reg.TBS_STAT_HOPS t = h + 1 ∧ bit Reg.CMS_STAT_TBLOCK t = true ∧
    Changes [.tbs, .lnk, .fab] (oneOf [Reg.TBS_STAT, Reg.CMS_STAT]) s t) ∧
  ((¬ rested (100 * us) ∨ bestParent s = none) → exec .holdoverParentSearch s = .next s) ∧
  (tbState s = 3 → rested (getF Reg.TBS_CFG_HOLDMAX s * 100 * ms) → ∃ t, exec .holdoverTimeout s = .next t ∧ tbState t = 0 ∧
    bit Reg.CMS_STAT_TBLOCK t = false ∧ getF Reg.TBS_STAT_HOPS t = 31 ∧ t.tbs.parent = false ∧ 14 ∈ t.flt.waiting ∧ t.ft = s.ft ∧ t.pending = s.pending) ∧
  (¬ rested (getF Reg.TBS_CFG_HOLDMAX s * 100 * ms) → exec .holdoverTimeout s = .next s) ∧
  (∀ n : Fin 4, isRoot s = true → s.fab.run = none → s.fab.runEnd.all (fun u => decide (u + 10 * ms ≤ s.now)) = true → 
    portUp n s = true → (delayOf n s).report = some (2, false, 0) →
    ∃ t, exec .rootConflictDelay s = .next t ∧ bit Reg.TBS_STAT_ROOTCONF t = true ∧ t.flt.waiting = s.flt.waiting ++ [14] ∧
    Changes [.flt] (oneOf [Reg.TBS_STAT]) s t) ∧
  ((isRoot s = false ∨ s.fab.run.isSome = true ∨ s.fab.runEnd.any (fun u => decide (s.now < u + 10 * ms)) = true) → exec .rootConflictDelay s = .next s) ∧
  (coreUp s = true → isRoot s = true → ∃ t, exec .step s = .next t ∧ t.tbs = { s.tbs with stepReq := true } ∧ t.answered .ok ∧
    Changes [.tbs, .resp] (fun _ => False) s t) ∧
  (coreUp s = true → isRoot s = false → ∃ t, exec .step s = .next t ∧ t.answered .ok ∧ Changes [.resp] (fun _ => False) s t) ∧
  (s.tbs.stepReq = true → isRoot s = true → ∃ t, exec .rootTimeStep s = .next t ∧
    t.ft = ((reg s Reg.TBS_SETH).toNat * 2 ^ 32 + (reg s Reg.TBS_SETL).toNat) / 15625000 * 15625000 ∧
    t.tbs = { s.tbs with stepReq := false, skipped := t.tbs.skipped } ∧ t.ctl = { s.ctl with stepped := true } ∧
    Changes [.ft, .tbs, .cms, .xck, .ctl] (fun _ => False) s t) ∧
  (∀ (n : Fin 4) (f : Frame) (ago : Nat), portUp n s = false → exec (.delayRequestReceive n f ago) s = .next s ∧
    exec (.delayResponseReceive n f ago) s = .next s ∧ exec (.announceReceive n f) s = .next s)

/-- Each rein, own or received, is merged, refused or taken, in the order of the rule's table. -/
def Obligations.ReinChecks : Prop := ∀ s : State,
  let when := fun (f : Frame) => (nth f.payload 0 0#32).toNat + 2 ^ 32 * (nth f.payload 1 0#32).toNat
  let own := fun (bcast imm : Bool) => if imm then (s.ft + (if bcast then getF Reg.TBS_CFG_LEAD s * 10000 else 0)) % 2 ^ 64
    else (reg s Reg.TBS_REINTH).toNat * 2 ^ 32 + (reg s Reg.TBS_REINTL).toNat
  let near := fun (t : Nat) => s.tbs.taken = true ∧ (mergeWindow s).any (fun w => decide (mag ((t : Int) - lastRein s) ≤ w)) = true
  let merged := fun (t : State) => getF Reg.TBS_RSTAT_MERGECNT t = min (getF Reg.TBS_RSTAT_MERGECNT s + 1) 255 ∧
    getF Reg.TBS_RSTAT_OVRCNT t = getF Reg.TBS_RSTAT_OVRCNT s
  let refused := fun (t : State) => getF Reg.TBS_RSTAT_OVRCNT t = min (getF Reg.TBS_RSTAT_OVRCNT s + 1) 255 ∧
    getF Reg.TBS_RSTAT_MERGECNT t = getF Reg.TBS_RSTAT_MERGECNT s
  let kept := fun (ps : List Part) (t : State) => t.tbs.latch = s.tbs.latch ∧ t.cms = s.cms ∧ lastRein t = lastRein s ∧
    Changes ps (oneOf [Reg.TBS_RSTAT, Reg.FAB_DROP]) s t
  let busy := bit Reg.TBS_RSTAT_BUSY s = true
  let full := bit Reg.TBS_RSTAT_FULL s = true ∧ bit Reg.TBS_CFG_OVRMODE s = false
  let took := fun (at' : Nat) (src : Nat) (t : State) => bit Reg.TBS_RSTAT_OVR t = bit Reg.TBS_RSTAT_FULL s ∧ bit Reg.TBS_RSTAT_FULL t = true ∧
    bit Reg.TBS_RSTAT_BUSY t = true ∧ lastRein t = at' ∧ getF Reg.TBS_RSTAT_SRC t = src ∧ bit Reg.TBS_RSTAT_UNSYNC t = !bit Reg.CMS_STAT_TBLOCK s ∧
    t.tbs.latch = some at' ∧ t.tbs.taken = true ∧
    Changes [.cms, .tbs, .resp, .fab, .lnk] (oneOf [Reg.TBS_RSTAT, Reg.TBS_RTIMEL, Reg.TBS_RTIMEH, Reg.TBS_RID, Reg.CMS_SNAPSTAT, Reg.FAB_DROP]) s t
  let word := fun (f : Frame) => nth f.payload 2 0#32
  let ours := [Part.tbs, .resp, .fab, .lnk]
  (∀ (n : Fin 4) (f : Frame), coreUp s = true → f.type = .rein → near (when f) → ∃ t, exec (.reinReceive n f) s = .next t ∧ merged t ∧ kept [.fab] t) ∧
  (∀ (n : Fin 4) (f : Frame), coreUp s = true → f.type = .rein → ¬ near (when f) → busy →
    ∃ t, exec (.reinReceive n f) s = .next t ∧ refused t ∧ kept [.fab] t) ∧
  (∀ (n : Fin 4) (f : Frame), coreUp s = true → f.type = .rein → ¬ near (when f) → ¬ busy → full →
    ∃ t, exec (.reinReceive n f) s = .next t ∧ refused t ∧ kept [.fab] t) ∧
  (∀ (n : Fin 4) (f : Frame), coreUp s = true → f.type = .rein → ¬ near (when f) → ¬ busy → ¬ full → s.ft ≤ when f →
    ∃ t, exec (.reinReceive n f) s = .next t ∧ took (when f) (getBits (word f) 24 3) t ∧ bit Reg.TBS_RSTAT_REMOTE t = true ∧
    getF Reg.TBS_RID_COUNT t = getBits (word f) 16 8 ∧ bit Reg.TBS_RID_IDV t = (word f).getLsbD 15 ∧
    ((word f).getLsbD 15 = true → getF Reg.TBS_RID_ORIGIN t = getBits (word f) 0 10)) ∧
  (∀ (n : Fin 4) (f : Frame), coreUp s = true → f.type = .rein → ¬ near (when f) → ¬ busy → ¬ full → when f < s.ft →
    ∃ t, exec (.reinReceive n f) s = .next t ∧ bit Reg.TBS_RSTAT_FULL t = true ∧ bit Reg.TBS_RSTAT_LATE t = true ∧ lastRein t = when f ∧
    getF Reg.TBS_RID_LATEUS t = min ((s.ft - when f) / 1000) 255 ∧ t.tbs.latch = none ∧ (s.cms.running = false → bit Reg.TBS_RSTAT_BUSY t = false) ∧
    reg t Reg.CNV_SNAP0 = reg s Reg.CNV_STAT ∧ t.pending = s.pending) ∧
  (∀ b i : Bool, coreUp s = true → near (own b i) → ∃ t, exec (.reinGo b i) s = .next t ∧ merged t ∧ t.answered .ok ∧ kept ours t) ∧
  (∀ b i : Bool, coreUp s = true → ¬ near (own b i) → busy → ∃ t, exec (.reinGo b i) s = .next t ∧ refused t ∧ t.answered .ok ∧ kept ours t) ∧
  (∀ b i : Bool, coreUp s = true → ¬ near (own b i) → ¬ busy → full → ∃ t, exec (.reinGo b i) s = .next t ∧ refused t ∧ t.answered .ok ∧ kept ours t) ∧
  (∀ b i : Bool, coreUp s = true → ¬ near (own b i) → ¬ busy → ¬ full → s.ft ≤ own b i → ∃ t, exec (.reinGo b i) s = .next t ∧
    took (own b i) 3 t ∧ t.answered .ok ∧ bit Reg.TBS_RSTAT_REMOTE t = false ∧ getF Reg.TBS_RID_COUNT t = s.tbs.rein % 256 ∧
    bit Reg.TBS_RID_IDV t = bit Reg.FAB_ID_VALID s ∧ t.tbs.rein = (s.tbs.rein + 1) % 256) ∧
  (∀ i : Bool, coreUp s = true → broadcastsNow s < 64 → s.fab.bwait = [] → ∃ t, exec (.reinGo true i) s = .next t ∧
    (∀ n : Fin 4, portOpen n s = true → (port n s).qb = [] → (port n t).qb = [(4, ⟨.rein, .b, .broadcast, 0#32, getF Reg.FAB_CFG_BHOP s, ownSrc s, 1023,
      ownEpoch s, s.fab.bcount, [BitVec.ofNat 32 (own true i), BitVec.ofNat 32 (own true i / 2 ^ 32),
        BitVec.ofNat 32 ((if bit Reg.FAB_ID_VALID s then 0x8000 + getF Reg.FAB_ID_ID s else 0) + 65536 * s.tbs.rein + 3 * 2 ^ 24), 0#32]⟩)]) ∧ t.pending = s.pending)

/-- The latch of a taken rein, the clear of FULL, and the SNAP pin. -/
def Obligations.ReinLatches : Prop := ∀ s : State,
  let snaps := [Reg.TBS_RSTAT, Reg.TBS_RID, Reg.IMP_SNAP, Reg.CNV_SNAP0, Reg.CNV_SNAP1, Reg.CTL_SNAP, Reg.LNK_SNAP, Reg.FAB_SNAP, Reg.THM_SNAP,
    Reg.FLT_SNAP 0, Reg.FLT_SNAP 1, Reg.FLT_SNAP 2, Reg.FLT_SNAP 3, Reg.CMS_SNAPSTAT]
  let latched := fun (t : State) => t.tbs.latch = none ∧ reg t Reg.CNV_SNAP0 = reg s Reg.CNV_STAT ∧
    reg t Reg.CTL_SNAP = reg s Reg.CTL_SP ∧ getBits (reg t Reg.LNK_SNAP) 0 4 = getF Reg.LNK_STAT_UP s ∧
    getF Reg.FAB_SNAP_SWITCH t = s.fab.switches % 65536 ∧ (∀ j : Fin 4, reg t (Reg.FLT_SNAP j) = reg s (Reg.FLT_ACT j)) ∧
    (s.cms.running = false → bit Reg.CMS_SNAPSTAT_PEND s = false → bit Reg.TBS_RSTAT_BUSY t = false) ∧ Changes [.tbs, .cms] (oneOf snaps) s t
  (∀ T : Nat, s.tbs.latch = some T → s.tbs.skipped = false → T ≤ s.ft → s.ft < T + 6 → ∃ t, exec .reinLatch s = .next t ∧ latched t ∧
    bit Reg.TBS_RSTAT_LATE t = bit Reg.TBS_RSTAT_LATE s ∧ getF Reg.TBS_RID_LATEUS t = getF Reg.TBS_RID_LATEUS s) ∧
  (∀ T : Nat, s.tbs.latch = some T → ((s.tbs.skipped = true ∧ T < s.ft) ∨ T + 6 ≤ s.ft) → ∃ t, exec .reinLatch s = .next t ∧ latched t ∧
    bit Reg.TBS_RSTAT_LATE t = true ∧ getF Reg.TBS_RID_LATEUS t = min ((s.ft - T) / 1000) 255) ∧
  (∀ T : Nat, s.tbs.latch = some T → T ≤ s.ft → s.cms.running = true → atOrAfter T s.cms.startT = true → ∃ t, exec .reinLatch s = .next t ∧
    bit Reg.CMS_SNAPSTAT_PEND t = true ∧ bit Reg.TBS_RSTAT_BUSY t = bit Reg.TBS_RSTAT_BUSY s ∧ latched t) ∧
  (s.tbs.latch.all (fun T => decide (s.ft < T)) = true → exec .reinLatch s = .next s) ∧
  (coreUp s = true → bit Reg.TBS_RSTAT_BUSY s = false → ∃ t, exec .fullClear s = .next t ∧ bit Reg.TBS_RSTAT_FULL t = false ∧ t.answered .ok ∧
    Changes [.resp] (oneOf [Reg.TBS_RSTAT]) s t) ∧
  (coreUp s = true → bit Reg.TBS_RSTAT_BUSY s = true → ∃ t, exec .fullClear s = .next t ∧ t.answered .ok ∧ Changes [.resp] (fun _ => False) s t) ∧
  (∀ ago : Nat, coreUp s = true → bit Reg.TBS_CFG_SNAPEN s = true → s.tbs.edge.any (fun e => decide (s.now < e + ago + snapSpacing s)) = true →
    ∃ t, exec (.snapEdge ago) s = .next t ∧ getF Reg.TBS_PINSTAT_SNAPIGN t = min (getF Reg.TBS_PINSTAT_SNAPIGN s + 1) 65535 ∧
    t.tbs = { s.tbs with ignored := s.tbs.ignored + 1, snapAt := some (s.now - ago) } ∧ t.flt.waiting = s.flt.waiting ++ (if s.tbs.ignored = 7 then [15] else []) ∧
    Changes [.tbs, .flt] (oneOf [Reg.TBS_PINSTAT]) s t) ∧
  (∀ ago : Nat, coreUp s = true → bit Reg.TBS_CFG_SNAPEN s = true → ago ≤ s.ft → s.ft < 2 ^ 64 → s.tbs.edge.all (fun e => decide (e + ago + snapSpacing s ≤ s.now)) = true →
    s.tbs.taken = false → bit Reg.TBS_RSTAT_BUSY s = false → bit Reg.TBS_RSTAT_FULL s = false → ∃ t, exec (.snapEdge ago) s = .next t ∧
    t.tbs.edge = some (s.now - ago) ∧ t.tbs.snapAt = some (s.now - ago) ∧ t.tbs.ignored = 0 ∧ lastRein t = s.ft - ago ∧ getF Reg.TBS_RSTAT_SRC t = 1 ∧ bit Reg.TBS_RSTAT_FULL t = true ∧
    t.tbs.rein = (s.tbs.rein + 1) % 256 ∧ t.pending = s.pending) ∧
  (coreUp s = true → bit Reg.TBS_CFG_SNAPEN s = true → getF Reg.TBS_CFG_SNAPTO s ≠ 0 → bit Reg.TBS_PINSTAT_STUCK s = false →
    s.tbs.snapAt.all (fun e => decide (e + getF Reg.TBS_CFG_SNAPTO s * 1000 * ms ≤ s.now)) = true → ∃ t, exec .snapStuckTimeout s = .next t ∧ bit Reg.TBS_PINSTAT_STUCK t = true ∧ t.flt.waiting = s.flt.waiting ++ [15] ∧
    Changes [.flt] (oneOf [Reg.TBS_PINSTAT]) s t) ∧
  (bit Reg.TBS_PINSTAT_STUCK s = true ∨ s.tbs.snapAt.any (fun e => decide (s.now < e + getF Reg.TBS_CFG_SNAPTO s * 1000 * ms)) = true → exec .snapStuckTimeout s = .next s) ∧
  (∀ ago : Nat, bit Reg.TBS_CFG_SNAPEN s = false → exec (.snapEdge ago) s = .next s ∧ exec .snapStuckTimeout s = .next s ∧
    exec .snapStuckClear s = .next s) ∧
  (bit Reg.TBS_CFG_SNAPEN s = true → ∃ t, exec .snapStuckClear s = .next t ∧ bit Reg.TBS_PINSTAT_STUCK t = false ∧ bit Reg.TBS_PINSTAT_SNAPLVL t = false ∧
    Changes [] (oneOf [Reg.TBS_PINSTAT]) s t)

/-- The collector counts, classifies and reacts to a source's events, and declares rail errors. -/
def Obligations.SourceEvents : Prop := ∀ s : State,
  let heard := fun (n : Fin 128) => collectorRuns s = true ∧ unusedSource n = false ∧ muted n s = false
  let counted := fun (n : Fin 128) => heard n ∧ injecting n s = false ∧ bit (Reg.FLT_CFG_EN n) s = true
  let mild := fun (n : Fin 128) => counted n ∧ srcBit Reg.FLT_SEV n s = false ∧ (nextCount n s).1 < getF (Reg.FLT_CFG_N n) s
  let severe := fun (n : Fin 128) => counted n ∧ srcBit Reg.FLT_SEV n s = false ∧ getF (Reg.FLT_CFG_N n) s ≤ (nextCount n s).1
  let svr := fun (n : Fin 128) => getF (Reg.FLT_CFG_SVR n) s
  let shown := fun (n : Fin 128) (t : State) => srcBit Reg.FLT_ACT n t = (natMem n s.flt.lines || natMem n s.flt.railErr)
  let noted := fun (n : Fin 128) (t : State) => srcBit Reg.FLT_STK n t = true ∧ getF Reg.FLT_STAT_LAST t = n.val ∧
    assoc n.val t.flt.counts = some (nextCount n s) ∧ shown n t
  let reacted := fun (n : Fin 128) (t : State) => noted n t ∧ srcBit Reg.FLT_SEV n t = true ∧
    t.flt.react = assocPut n.val (takenReaction n (svr n)) s.flt.react ∧ t.pending = s.pending
  let regsOf := fun (n : Fin 128) => [Reg.FLT_STK (n / 32), Reg.FLT_ACT (n / 32), Reg.FLT_STAT]
  let alarm := fun (t : State) => getF Reg.FLT_ALCNT_ASEQ t = (getF Reg.FLT_ALCNT_ASEQ s + 1) % 65536
  let alarms := legacyMode s = false ∧ s.hst.spi ≠ 1
  let recent := fun (n : Fin 128) => (assoc n.val s.flt.alarmed).any (fun u => decide (s.now < u + ms)) = true
  (∀ n : Fin 128, mild n → bit (Reg.FLT_CFG_EVI n) s = false → ∃ t, exec (.sourceEvent n none) s = .next t ∧ noted n t ∧
    t.flt.react = s.flt.react ∧ Changes [.flt] (oneOf (regsOf n)) s t) ∧
  (∀ n : Fin 128, mild n → bit (Reg.FLT_CFG_EVI n) s = true → alarms → ¬ recent n → ∃ t, exec (.sourceEvent n none) s = .next t ∧ noted n t ∧ alarm t ∧
    t.flt.react = s.flt.react ∧ assoc n.val t.flt.alarmed = some s.now ∧ t.pending = s.pending) ∧
  (∀ n : Fin 128, mild n → bit (Reg.FLT_CFG_EVI n) s = true → recent n → ∃ t, exec (.sourceEvent n none) s = .next t ∧ noted n t ∧
    t.flt.react = s.flt.react ∧ t.flt.alarmed = s.flt.alarmed ∧ Changes [.flt] (oneOf (regsOf n)) s t) ∧
  (∀ n : Fin 128, severe n → ∃ t, exec (.sourceEvent n none) s = .next t ∧ reacted n t) ∧
  (∀ n : Fin 128, severe n → takenReaction n (svr n) = 1 → alarms → ∃ t, exec (.sourceEvent n none) s = .next t ∧ reacted n t ∧ alarm t) ∧
  (∀ n : Fin 128, n.val = 66 → severe n → svr n = 2 → ∃ t, exec (.sourceEvent n none) s = .next t ∧ reacted n t ∧
    bit Reg.FLT_FENCE0_IMP t = true ∧ bit Reg.FLT_STAT_FENCED t = true) ∧
  (∀ n : Fin 128, severe n → svr n = 3 → degradesCnv n = true → ∃ t, exec (.sourceEvent n none) s = .next t ∧ reacted n t ∧
    bit Reg.CNV_STAT_DEGR t = !bit Reg.FLT_FENCE0_CNV t) ∧
  (∀ n : Fin 128, severe n → svr n = 4 → bit Reg.FLT_STAT_SAFE s = false → ∃ t, exec (.sourceEvent n none) s = .next t ∧ reacted n t ∧
    bit Reg.FLT_STAT_SAFE t = true ∧ getF Reg.CPB_BALSTAT_ON t = 0 ∧ switching t = false) ∧
  (∀ n : Fin 128, counted n → srcBit Reg.FLT_SEV n s = true → ∃ t, exec (.sourceEvent n none) s = .next t ∧ noted n t ∧
    srcBit Reg.FLT_SEV n t = true ∧ t.flt.react = s.flt.react ∧ t.pending = s.pending ∧ (n.val ∉ [79, 80, 82] → Changes [.flt] (oneOf (regsOf n)) s t)) ∧
  (∀ n : Fin 128, heard n → injecting n s = false → bit (Reg.FLT_CFG_EN n) s = false → ∃ t, exec (.sourceEvent n none) s = .next t ∧ shown n t ∧
    t.flt = { s.flt with waiting := s.flt.waiting.erase n.val } ∧ Changes [.flt] (oneOf [Reg.FLT_ACT (n / 32)]) s t) ∧
  (∀ n : Fin 128, heard n → injecting n s = true → bit (Reg.FLT_CFG_EN n) s = false → ∃ t, exec (.sourceEvent n none) s = .next t ∧ shown n t ∧
    bit Reg.FLT_INJSTAT_REAL t = true ∧ t.flt = { s.flt with waiting := s.flt.waiting.erase n.val } ∧
    Changes [.flt] (oneOf [Reg.FLT_ACT (n / 32), Reg.FLT_INJSTAT]) s t) ∧
  (∀ n : Fin 128, collectorRuns s = true → injecting n s = false → n.val ∉ s.flt.railErr → n.val ≠ 127 → ∃ t, exec (.railError n) s = .next t ∧
    srcBit Reg.FLT_RAIL n t = true ∧ (muted n s = false → srcBit Reg.FLT_ACT n t = true) ∧ n.val ∈ t.flt.railErr ∧ (127 ∉ s.flt.lines → 127 ∉ s.flt.railErr → 127 ∈ t.flt.waiting) ∧
    127 ∈ t.flt.lines ∧ t.pending = s.pending) ∧
  (∀ n : Fin 128, n.val = 127 → collectorRuns s = true → injecting n s = false → 127 ∉ s.flt.railErr → ∃ t, exec (.railError n) s = .next t ∧
    srcBit Reg.FLT_RAIL n t = true ∧ srcBit Reg.FLT_ACT n t = true ∧ 127 ∈ t.flt.railErr ∧ t.pending = s.pending) ∧
  (∀ n : Fin 128, n.val ∈ s.flt.railErr → s.flt.railErr.Nodup → ∃ t, exec (.railErrorEnd n) s = .next t ∧
    (∀ k, k ∈ t.flt.railErr ↔ k ∈ s.flt.railErr ∧ k ≠ n.val) ∧ (n.val ≠ 127 → srcBit Reg.FLT_ACT n t = natMem n s.flt.lines) ∧
    (127 ∈ t.flt.lines ↔ 127 ∈ s.flt.lines ∧ ∃ k ∈ s.flt.railErr, k ≠ n.val ∧ k ≠ 127) ∧ srcBit Reg.FLT_RAIL n t = srcBit Reg.FLT_RAIL n s ∧
    Changes [.flt] (oneOf [Reg.FLT_ACT (n / 32), Reg.FLT_ACT 3]) s t) ∧
  (∀ (n : Fin 128) (id : Fin 1023), (n.val ≠ 103 ∨ hasRole s = false) → exec (.sourceEvent n (some id)) s = exec (.sourceEvent n none) s) ∧
  (∀ id : Fin 1023, heard 103 → hasRole s = true →
    exec (.sourceEvent 103 (some id)) s = exec (.sourceEvent 103 none) (setEntry id { entryOf id s with state := 2 } s)) ∧
  (∀ (n : Fin 128) (k : Fin 2), (¬ heard n → ∀ e, exec (.sourceEvent n e) s = .next s) ∧
    ((collectorRuns s = false ∨ injecting n s = true ∨ n.val ∈ s.flt.railErr) → exec (.railError n) s = .next s) ∧
    (n.val ∉ s.flt.railErr → exec (.railErrorEnd n) s = .next s) ∧ (coreUp s = false → exec (.historyParityError k) s = .next s)) ∧
  (∀ k : Fin 2, coreUp s = true → ∃ t, exec (.historyParityError k) s = .next t ∧ t.flt.waiting = s.flt.waiting ++ [120 + k.val] ∧
    Changes [.flt] (fun _ => False) s t)

/-- Sticky and severe bits clear where they may; the configuration word; injection. -/
def Obligations.SourceClears : Prop := ∀ s : State,
  let core := coreUp s = true
  let free := fun (a : Nat) (j : Fin 4) (k : Nat) => (reg s a).getLsbD k = true ∧
    ¬ ((reg s (Reg.FLT_ACT j)).getLsbD k = false ∧ (reg s (Reg.FLT_RAIL j)).getLsbD k = false)
  let zeroed := fun (a : Nat) (j : Fin 4) (w : Word) (t : State) => ∀ k : Fin 32, w.getLsbD k = true → (reg s a).getLsbD k = true →
    ¬ free a j k → assoc (32 * j.val + k.val) t.flt.counts = none
  let alarm := fun (t : State) => getF Reg.FLT_ALCNT_ASEQ t = (getF Reg.FLT_ALCNT_ASEQ s + 1) % 65536
  let alarms := legacyMode s = false ∧ s.hst.spi ≠ 1
  let runs := fun (n : Fin 128) (d : Fin 256) (t : State) => t.answered .ok ∧ bit Reg.FLT_INJSTAT_ACTIVE t = true ∧ getF Reg.FLT_INJSTAT_SRC t = n.val ∧
    t.flt.injEnd = s.now + d.val * 100000 ∧ t.flt.react = s.flt.react ∧ (∀ i : Fin 4, reg t (Reg.FLT_SEV i) = reg s (Reg.FLT_SEV i)) ∧ t.pending = s.pending
  let fair := fun (n : Fin 128) (d : Fin 256) => d.val ≠ 0 ∧ bit (Reg.FLT_CFG_EN n) s = true
  let denied := fun (n : Fin 128) (full : Bool) => full = true ∧ lifecycle s = 2 ∧ getF (Reg.FLT_CFG_SVR n) s = 4
  (∀ (j : Fin 4) (w h : Word), core → ∃ t, exec (.severeClear j w h) s = .next t ∧ t.answered .ok ∧
    (∀ k : Fin 32, (reg t (Reg.FLT_SEV j)).getLsbD k = true ↔
      h.getLsbD k = true ∨ ((reg s (Reg.FLT_SEV j)).getLsbD k = true ∧ (w.getLsbD k = false ∨ free (Reg.FLT_SEV j) j k))) ∧
    zeroed (Reg.FLT_SEV j) j (w &&& ~~~h) t ∧ (∀ i : Fin 4, i ≠ j → reg t (Reg.FLT_SEV i) = reg s (Reg.FLT_SEV i)) ∧ (∀ i : Fin 4, reg t (Reg.FLT_STK i) = reg s (Reg.FLT_STK i)) ∧
    t.pending = s.pending) ∧
  (∀ (j : Fin 4) (w h : Word), core → ∃ t, exec (.stickyClear j w h) s = .next t ∧ t.answered .ok ∧
    (∀ k : Fin 32, (reg t (Reg.FLT_STK j)).getLsbD k = true ↔
      h.getLsbD k = true ∨ ((reg s (Reg.FLT_STK j)).getLsbD k = true ∧ (w.getLsbD k = false ∨ free (Reg.FLT_STK j) j k))) ∧
    zeroed (Reg.FLT_STK j) j (w &&& ~~~h) t ∧ t.flt = { s.flt with counts := t.flt.counts } ∧
    Changes [.flt, .resp] (oneOf [Reg.FLT_STK j]) s t) ∧
  (core → ∃ t, exec .clrall s = .next t ∧ t.answered .ok ∧ (∀ (j : Fin 4) (k : Fin 32), (reg t (Reg.FLT_STK j)).getLsbD k = true ↔ free (Reg.FLT_STK j) j k) ∧
    (∀ (j : Fin 4) (k : Fin 32), (reg t (Reg.FLT_SEV j)).getLsbD k = true ↔ free (Reg.FLT_SEV j) j k) ∧
    (∀ j : Fin 4, zeroed (Reg.FLT_STK j) j 0xFFFFFFFF#32 t ∧ zeroed (Reg.FLT_SEV j) j 0xFFFFFFFF#32 t) ∧ t.pending = s.pending) ∧
  (∀ (n : Fin 128) (w : Word), core → bit Reg.SYS_LOCKSTAT_LFLT s = false → w &&& 0xFFFF000C#32 = 0#32 → getBits w 12 3 ≤ 4 → getBits w 4 4 ≠ 0 →
    ∃ t, exec (.fltCfgWrite n w) s = .next t ∧ t.answered .ok ∧ reg t (Reg.FLT_CFG n) = w ∧ assoc n.val t.flt.counts = none ∧
    Changes [.flt, .resp] (oneOf [Reg.FLT_CFG n]) s t) ∧
  (∀ (n : Fin 128) (w : Word), core → bit Reg.SYS_LOCKSTAT_LFLT s = true → ∃ t, exec (.fltCfgWrite n w) s = .next t ∧ t.answered .ok ∧
    getF Reg.SYS_LOCKSTAT_VIOL t = min (getF Reg.SYS_LOCKSTAT_VIOL s + 1) 255 ∧ getF Reg.SYS_LOCKSTAT_ADDR t = Reg.FLT_CFG n / 4 ∧
    Changes [.resp] (oneOf [Reg.SYS_LOCKSTAT]) s t) ∧
  (∀ (n : Fin 128) (w : Word), core → bit Reg.SYS_LOCKSTAT_LFLT s = false → w &&& 0xFFFF000C#32 ≠ 0#32 →
    exec (.fltCfgWrite n w) s = .fault (.reservedWrite (Reg.FLT_CFG n))) ∧
  (∀ (n : Fin 128) (w : Word), core → bit Reg.SYS_LOCKSTAT_LFLT s = false → w &&& 0xFFFF000C#32 = 0#32 → (4 < getBits w 12 3 ∨ getBits w 4 4 = 0) →
    ∃ t, exec (.fltCfgWrite n w) s = .next t ∧ Sheltered s t) ∧
  (∀ (n : Fin 128) (d : Fin 256), core → denied n true → ∃ t, exec (.injectionGo n d true) s = .next t ∧ t.answered .lifecycleDenied ∧
    Changes [.resp] (fun _ => False) s t) ∧
  (∀ (n : Fin 128) (d : Fin 256) (m : Bool), core → ¬ denied n m → bit Reg.FLT_INJSTAT_ACTIVE s = true → ∃ t, exec (.injectionGo n d m) s = .next t ∧
    t.resp = some ⟨.refusedBusy, [], s.flt.injEnd - s.now⟩ ∧ Changes [.resp] (fun _ => False) s t) ∧
  (∀ (n : Fin 128) (d : Fin 256), core → fair n d → bit Reg.FLT_INJSTAT_ACTIVE s = false → n.val ∉ s.flt.lines →
    ∃ t, exec (.injectionGo n d false) s = .next t ∧ runs n d t ∧ srcBit Reg.FLT_STK n t = true ∧ t.flt.counts = s.flt.counts ∧
    getF Reg.FLT_STAT_LAST t = n.val ∧ (alarms → assoc n.val s.flt.alarmed = none → alarm t)) ∧
  (∀ (n : Fin 128) (d : Fin 256), core → fair n d → ¬ denied n true → bit Reg.FLT_INJSTAT_ACTIVE s = false → n.val ∉ s.flt.lines →
    srcBit Reg.FLT_SEV n s = false → (nextCount n s).1 < getF (Reg.FLT_CFG_N n) s → ∃ t, exec (.injectionGo n d true) s = .next t ∧ runs n d t ∧
    srcBit Reg.FLT_STK n t = true ∧ assoc n.val t.flt.counts = some (nextCount n s)) ∧
  (∀ (n : Fin 128) (d : Fin 256), core → fair n d → ¬ denied n true → bit Reg.FLT_INJSTAT_ACTIVE s = false → n.val ∉ s.flt.lines →
    srcBit Reg.FLT_SEV n s = false → getF (Reg.FLT_CFG_N n) s ≤ (nextCount n s).1 → ∃ t, exec (.injectionGo n d true) s = .next t ∧ t.answered .ok ∧
    t.flt.injEnd = s.now + d.val * 100000 ∧ srcBit Reg.FLT_STK n t = true ∧ srcBit Reg.FLT_SEV n t = true ∧
    t.flt.react = assocPut n.val (takenReaction n (getF (Reg.FLT_CFG_SVR n) s)) s.flt.react ∧ assoc n.val t.flt.counts = some (nextCount n s) ∧ t.pending = s.pending) ∧
  (∀ (n : Fin 128) (d : Fin 256), core → fair n d → ¬ denied n true → bit Reg.FLT_INJSTAT_ACTIVE s = false → n.val ∉ s.flt.lines →
    srcBit Reg.FLT_SEV n s = true → ∃ t, exec (.injectionGo n d true) s = .next t ∧ runs n d t ∧ srcBit Reg.FLT_STK n t = true ∧
    assoc n.val t.flt.counts = some (nextCount n s)) ∧
  (∀ (n : Fin 128) (d : Fin 256) (m : Bool), core → fair n d → ¬ denied n m → bit Reg.FLT_INJSTAT_ACTIVE s = false → n.val ∈ s.flt.lines →
    ∃ t, exec (.injectionGo n d m) s = .next t ∧ runs n d t ∧ bit Reg.FLT_INJSTAT_REAL t = true ∧
    Changes [.flt, .resp] (oneOf [Reg.FLT_INJCTL, Reg.FLT_INJSTAT]) s t) ∧
  (∀ (n : Fin 128) (d : Fin 256) (m : Bool), core → ¬ fair n d → ¬ denied n m → bit Reg.FLT_INJSTAT_ACTIVE s = false →
    ∃ t, exec (.injectionGo n d m) s = .next t ∧ Sheltered s t) ∧
  (bit Reg.FLT_INJSTAT_ACTIVE s = true → s.flt.injEnd ≤ s.now → ∃ t, exec .injectionEnd s = .next t ∧ bit Reg.FLT_INJSTAT_ACTIVE t = false ∧
    Changes [] (oneOf [Reg.FLT_INJSTAT]) s t) ∧
  (s.now < s.flt.injEnd ∨ bit Reg.FLT_INJSTAT_ACTIVE s = false → exec .injectionEnd s = .next s) ∧
  (∀ (j : Fin 4) (n : Fin 128) (w h : Word) (d : Fin 256) (m : Bool), coreUp s = false → exec (.severeClear j w h) s = .next s ∧ exec (.stickyClear j w h) s = .next s ∧
    exec .clrall s = .next s ∧ exec (.fltCfgWrite n w) s = .next s ∧ exec (.injectionGo n d m) s = .next s)

/-- Die samples, warnings, failures, disagreement, gallop, shutdown and restart. -/
def Obligations.ThermalEvents : Prop := ∀ s : State,
  let rest := coreUp s = true ∧ getF Reg.THM_STAT_FAIL s = 0
  let inside := fun (a b c : Int) => -6000 ≤ a ∧ a ≤ 20000 ∧ -6000 ≤ b ∧ b ≤ 20000 ∧ -6000 ≤ c ∧ c ≤ 20000
  let lasted := fun b : Option Nat => ∃ k, b = some k ∧ k + 1000 * ms ≤ s.now
  let restarted := fun (t : State) => bit Reg.SYS_RSTCAUSE_THERM t = true ∧ t.thm.restarted = true ∧ t.thm.logQ.map LogEntry.kind = [4, 5] ∧
    (∀ j : Fin 4, reg t (Reg.FLT_STK j) = reg s (Reg.FLT_STK j)) ∧ t.pending = s.pending
  (∀ a b c : Int, rest → inside a b c → s.thm.first = true → ∃ t, exec (.temperatureSample [a, b, c] [true, true, true]) s = .next t ∧
    getF (Reg.THM_DIE_TEMP 0) t = unsigned 16 (roundAway a 10) ∧ getF (Reg.THM_DIE_TEMP 1) t = unsigned 16 (roundAway b 10) ∧
    getF (Reg.THM_DIE_TEMP 2) t = unsigned 16 (roundAway c 10) ∧ getF Reg.THM_STAT_FAIL t = 0 ∧
    getF Reg.THM_STAT_HOT t = unsigned 16 (max (roundAway a 10) (max (roundAway b 10) (roundAway c 10))) ∧
    getF Reg.THM_STAT_BAND t = (if 7000 ≤ max a (max b c) then 3 else if 4500 ≤ max a (max b c) then 2 else if -1000 ≤ max a (max b c) then 1 else 0) ∧
    t.thm.differAt = (if 3000 < max a (max b c) - min a (min b c) then s.thm.differAt.or (some s.now) else none) ∧ t.pending = s.pending) ∧
  (∀ a b c : Int, rest → inside a b c → 100 * (getF Reg.THM_CFG_WARN s : Int) ≤ a →
    ∃ t, exec (.temperatureSample [a, b, c] [true, true, true]) s = .next t ∧ 112 ∈ t.flt.lines ∧ t.pending = s.pending) ∧
  (∀ a b c : Int, rest → inside a b c → nth s.thm.biasBad 1 0 = 1 → ∃ t, exec (.temperatureSample [a, b, c] [true, false, true]) s = .next t ∧
    getF (Reg.THM_DIE_TEMP 1) t = 0x7FFF ∧ getF Reg.THM_STAT_HOT t = 0x7FFF ∧ dieFailed 1 t = true ∧ 113 ∈ t.flt.lines ∧ 116 ∈ t.flt.lines ∧
    t.pending = s.pending) ∧
  (coreUp s = true → diesDiffer s = true → s.thm.disagree = false → lasted s.thm.differAt → ∃ t, exec .sensorDisagree s = .next t ∧ 117 ∈ t.flt.lines ∧
    t.thm.disagree = true ∧ Changes [.flt, .thm] (oneOf [Reg.THM_LOGSTAT]) s t) ∧
  (coreUp s = true → bit Reg.THM_STAT_GALLOP s = true → nearLimit 800 s = false → lasted s.thm.clearAt → ∃ t, exec .gallopExit s = .next t ∧
    bit Reg.THM_STAT_GALLOP t = false ∧ (∀ k, k ≠ 119 → (k ∈ t.flt.lines ↔ k ∈ s.flt.lines)) ∧
    Changes [.flt] (oneOf [Reg.THM_STAT, Reg.FLT_ACT 3]) s t) ∧
  (∀ (n : Fin 3) (temp : Fin 65536), coreUp s = true → s.sys.phase ≠ .core → dieFailed n s = false → s.ft < 2 ^ 64 → ∃ t, exec (.thermalShutdown n temp) s = .next t ∧
    t.sys.phase = .thermal ∧ (reg t Reg.THM_SDTH).toNat * 2 ^ 32 + (reg t Reg.THM_SDTL).toNat = s.ft ∧ getF Reg.THM_SDINFO_SENSOR t = n.val ∧
    getF Reg.THM_SDINFO_TEMP t = temp.val ∧ getF Reg.THM_SDINFO_SDCNT t = min (getF Reg.THM_SDINFO_SDCNT s + 1) 255 ∧
    bit Reg.THM_SDINFO_UNSYNC t = !bit Reg.CMS_STAT_TBLOCK s ∧ (∀ j : Fin 4, reg t (Reg.FLT_STK j) = reg s (Reg.FLT_STK j)) ∧
    getF Reg.CNV_STAT_STATE t = 0 ∧ getF Reg.CPB_BALSTAT_ON t = 0 ∧ t.lnk = LnkState.reset ∧ t.fab = FabState.reset ∧ t.cal.nvm = s.cal.nvm ∧
    t.pending = s.pending) ∧
  (s.sys.phase = .thermal → s.sys.rstnLow = false → ∃ t, exec .thermalRestart s = .next t ∧ t.sys.phase = .rails ∧ restarted t) ∧
  (s.sys.phase = .thermal → s.sys.rstnLow = true → ∃ t, exec .thermalRestart s = .next t ∧ t.sys.phase = .rstHeld ∧
    bit Reg.SYS_RSTCAUSE_RSTN t = true ∧ restarted t) ∧
  (∀ a b c : Int, s.sys.phase = .sentinel → inside a b c → 100 * (getF Reg.THM_CFG_WARN s : Int) ≤ a → bit Reg.SYS_PWRCFG_THWAKE s = true → s.sys.lastWake = none →
    ∃ t, exec (.temperatureSample [a, b, c] [true, true, true]) s = .next t ∧ t.sys.phase ∈ [.waitLeg, .softStart] ∧ getF Reg.SYS_PWRSTAT_LASTWAKE t = 5 ∧
    t.pending = s.pending) ∧
  (∀ (d : List Int) (b : List Bool), coreUp s = false → s.sys.phase ≠ .sentinel → ∃ t, exec (.temperatureSample d b) s = .next t ∧
    (s.sys.lastWake = none ∨ s.sys.wakeFrom = none → t = s) ∧ Changes [.sys] (oneOf [Reg.SYS_PWRSTAT]) s t) ∧
  (∀ (n : Fin 3) (temp : Fin 65536),
    ((coreUp s = false ∨ diesDiffer s = false ∨ s.thm.differAt.all (fun b => decide (s.now < b + 1000 * ms)) = true) → exec .sensorDisagree s = .next s) ∧
    ((coreUp s = false ∨ nearLimit 800 s = true ∨ s.thm.clearAt.all (fun b => decide (s.now < b + 1000 * ms)) = true) → exec .gallopExit s = .next s) ∧
    ((coreUp s = false ∨ s.sys.phase = .core ∨ dieFailed n s = true) → exec (.thermalShutdown n temp) s = .next s) ∧
    (s.sys.phase ≠ .thermal → exec .thermalRestart s = .next s))

/-- The end-of-line calibration run, from its command to the copy in use. -/
def Obligations.CalibrationRun : Prop := ∀ s : State,
  let free := coreUp s = true ∧ s.sys.ctlBusy = false ∧ bit Reg.BST_CTLSTAT_ROMBAD s = false ∧ calFenced s = false ∧ calOccupied s = false ∧
    planActive s = false ∧ s.xck.harness = none
  let calm := s.cal.op = none ∧ s.cal.queue = [] ∧ s.cal.epochPend = none
  let serves := controllerServes s = true
  let begun := fun (r : CalRun) (t : Nat) => r.begun + leastSpan (t * ms) ≤ s.now
  let ok := fun (r : CalRun) (a b : List Int) (k : Nat) => calInput k s = true → calCheck k (nth r.zero k 0) (nth a k 0) (nth b k 0) s = 0
  (∀ tk, free → lifecycle s = 1 → getF Reg.CNV_STAT_STATE s = 0 → refsBad s = false → unusedCells s = false → ∃ t, exec (.run tk) s = .next t ∧
    t.cal.run.map CalRun.ticket = some tk ∧ t.cal = { s.cal with run := t.cal.run } ∧ Changes [.cal] (fun _ => False) s t) ∧
  (∀ tk : Ticket, tk = .direct → coreUp s = true → lifecycle s ≠ 1 → ∃ t, exec (.run tk) s = .next t ∧ t.answered .lifecycleDenied ∧
    Changes [.resp] (fun _ => False) s t) ∧
  (∀ tk : Ticket, tk = .direct → free → lifecycle s = 1 → getF Reg.CNV_STAT_STATE s ≠ 0 → ∃ t, exec (.run tk) s = .next t ∧ t.answered .checkFail ∧
    getF Reg.CAL_STAT_ERR t = 1 ∧ Changes [.resp] (oneOf [Reg.CAL_STAT]) s t) ∧
  (∀ tk : Ticket, tk = .direct → free → lifecycle s = 1 → getF Reg.CNV_STAT_STATE s = 0 → refsBad s = true → ∃ t, exec (.run tk) s = .next t ∧
    t.answered .checkFail ∧ getF Reg.CAL_STAT_ERR t = 2 ∧ Changes [.resp] (oneOf [Reg.CAL_STAT]) s t) ∧
  (∀ tk : Ticket, tk = .direct → free → lifecycle s = 1 → getF Reg.CNV_STAT_STATE s = 0 → refsBad s = false → unusedCells s = true →
    ∃ t, exec (.run tk) s = .next t ∧ t.answered .checkFail ∧ getF Reg.CAL_STAT_ERR t = 3 ∧ Changes [.resp] (oneOf [Reg.CAL_STAT]) s t) ∧
  (∀ tk : Ticket, tk = .direct → coreUp s = true → lifecycle s = 1 → calFenced s = true → ∃ t, exec (.run tk) s = .next t ∧
    t.answered .refusedFenced ∧ Changes [.resp] (fun _ => False) s t) ∧
  (∀ r : CalRun, s.cal.run = some r → s.sys.phase = .active → calRunning s = false → ∃ t, exec .calRunBegin s = .next t ∧ getF Reg.CAL_STAT_PHASE t = 1 ∧
    bit Reg.CAL_STAT_BUSY t = true ∧ getF Reg.CPB_BALSTAT_ON t = 0 ∧ t.cal.run.map CalRun.hres = some (presentHres s) ∧
    t.cal.run.map CalRun.rbal = some (presentRbal s) ∧ t.cal.run.map CalRun.begun = some s.now ∧ t.cal.span.head? = some (s.ft, none) ∧ t.cal.nvm = s.cal.nvm ∧ t.pending = s.pending) ∧
  (∀ (r : CalRun) (z : List Int), s.cal.run = some r → getF Reg.CAL_STAT_PHASE s = 1 → begun r 875 → ∃ t, exec (.calZeroPhaseEnd z) s = .next t ∧
    getF Reg.CAL_STAT_PHASE t = 2 ∧ t.cal = { s.cal with run := some { r with zero := z } } ∧ Changes [.cal] (oneOf [Reg.CAL_STAT]) s t) ∧
  (∀ (r : CalRun) (a b : List Int) (r4 r16 : Word) (k : Fin 113), calm → s.cal.run = some r → r.ticket = .direct → getF Reg.CAL_STAT_PHASE s = 2 →
    begun r 2000 → (∀ j, j < k.val → ok r a b j) → ¬ ok r a b k → ∃ t, exec (.calReferencePhaseEnd a b r4 r16) s = .next t ∧ t.answered .checkFail ∧
    getF Reg.CAL_STAT_ERRCH t = k.val ∧ getF Reg.CAL_STAT_ERR t = calCheck k (nth r.zero k 0) (nth a k 0) (nth b k 0) s ∧
    getF Reg.CAL_STAT_PHASE t = 0 ∧ t.cal.run = none ∧ t.cal.nvm = s.cal.nvm ∧ t.cal.coef = s.cal.coef ∧
    Changes [.cal, .resp] (oneOf [Reg.CAL_STAT]) s t) ∧
  (∀ (r : CalRun) (a b : List Int) (r4 r16 : Word), calm → serves → s.cal.run = some r → getF Reg.CAL_STAT_PHASE s = 2 → begun r 2000 → (∀ j, j < 113 → ok r a b j) →
    ∃ t, exec (.calReferencePhaseEnd a b r4 r16) s = .next t ∧ getF Reg.CAL_STAT_PHASE t = 4 ∧ t.cal.op.map NvmOp.job = some .run ∧
    t.cal.op.map NvmOp.base = some (copyBase (olderCopy s)) ∧ (getF Reg.CAL_STAT_SRC s = 1 → copyBase (olderCopy s) = 0x800) ∧
    (getF Reg.CAL_STAT_SRC s = 2 → copyBase (olderCopy s) = 0x400) ∧
    (∀ o, ¬ within (copyBase (olderCopy s)) (copyBase (olderCopy s) + 1024) o → nvmAt o t = nvmAt o s) ∧ t.cal.coef = s.cal.coef ∧
    Changes [.cal] (oneOf [Reg.CAL_STAT, Reg.CAL_GENA, Reg.CAL_GENB]) s t) ∧
  (∀ (o : NvmOp) (r : CalRun), s.cal.op = some o → o.job = .run → s.cal.run = some r → begun r 2050 → s.cal.queue = [] → ∃ t, exec (.calCopyWritten none) s = .next t ∧
    t.cal.op = none ∧ t.cal.run = some { r with written := some (decide (o.base = 0x800)) } ∧ t.cal.nvm = nvmFill o.base o.bytes s.cal.nvm ∧
    reg t (genReg (decide (o.base = 0x800))) = nvmWord (copyBase (decide (o.base = 0x800)) + 4) t ∧
    Changes [.cal] (oneOf [Reg.CAL_STAT, Reg.CAL_GENA, Reg.CAL_GENB]) s t) ∧
  (∀ (r : CalRun) (b : Bool), s.cal.run = some r → r.written = some b → r.ticket = .direct → s.cal.op = none → s.cal.queue = [] → ∃ t,
    exec .calCopyInUse s = .next t ∧ t.answered .ok ∧ getF Reg.CAL_STAT_SRC t = (if b then 2 else 1) ∧ t.cal.coef = copyCoef b s ∧
    t.cal.run = none ∧ getF Reg.CAL_STAT_PHASE t = 0 ∧ bit Reg.CAL_STAT_BUSY t = false ∧ t.cal.nvm = s.cal.nvm ∧ t.pending = s.pending) ∧
  (∀ (r : CalRun) (z a : List Int) (w : Word) (b : Option (Fin 128)), s.cal.run = some r → s.now < r.begun + leastSpan (875 * ms) →
    exec (.calZeroPhaseEnd z) s = .next s ∧ exec (.calReferencePhaseEnd z a w w) s = .next s ∧ exec (.calCopyWritten b) s = .next s)

/-- Saves, the patch area, the event log and the writes of the NVM. -/
def Obligations.NvmCommands : Prop := ∀ s : State,
  let free := coreUp s = true ∧ s.sys.ctlBusy = false ∧ bit Reg.BST_CTLSTAT_ROMBAD s = false
  let calm := s.cal.op = none ∧ s.cal.queue = [] ∧ s.cal.epochPend = none
  let may := free ∧ calm ∧ lifecycle s ≠ 3 ∧ calOccupied s = false
  let writes := fun (j : NvmJob) (base n : Nat) (tk : Option Ticket) (t : State) => t.cal.op.map NvmOp.job = some j ∧ t.cal.op.map NvmOp.base = some base ∧
    t.cal.op.map NvmOp.ticket = some tk ∧ bit Reg.CAL_STAT_BUSY t = true ∧ (∀ o, ¬ within (base / 256 * 256) ((base + n + 255) / 256 * 256) o → nvmAt o t = nvmAt o s) ∧
    t.cal.run = s.cal.run ∧ Changes [.cal, .thm] (oneOf [Reg.CAL_STAT, Reg.CAL_GENA, Reg.CAL_GENB]) s t
  let slot := 0xC00 + 64 * nextSlot s
  (∀ tk, may → (lifecycle s = 1 ∨ lifecycle s = 2) → getF Reg.CAL_STAT_SRC s = 1 → ∃ t, exec (.hsave tk) s = .next t ∧ writes .harness 0x800 1024 (some tk) t) ∧
  (∀ tk : Ticket, tk = .direct → may → (lifecycle s = 1 ∨ lifecycle s = 2) → getF Reg.CAL_STAT_SRC s = 0 → ∃ t, exec (.hsave tk) s = .next t ∧
    t.answered .checkFail ∧ getF Reg.CAL_STAT_ERR t = 7 ∧ Changes [.resp] (oneOf [Reg.CAL_STAT]) s t) ∧
  (∀ (k : Fin 4) tk, may → ∃ t, exec (.psave k tk) s = .next t ∧ writes (.profile k) (0x1000 + 0x800 * k) 2048 (some tk) t) ∧
  (∀ (k : Fin 8) tk, may → ∃ t, exec (.pselect k tk) s = .next t ∧ writes (.select (if k.val < 4 then k.val else 0xFF)) slot 64 (some tk) t) ∧
  (∀ tk, may → ∃ t, exec (.tsave tk) s = .next t ∧ writes .targets slot 64 (some tk) t) ∧
  (∀ tk, free → calm → lifecycle s ≠ 2 → ∃ t, exec (.logClear tk) s = .next t ∧ writes .logClear 0x3000 1024 (some tk) t) ∧
  (∀ tk : Ticket, tk = .direct → coreUp s = true → lifecycle s = 2 → ∃ t, exec (.logClear tk) s = .next t ∧ t.answered .lifecycleDenied ∧
    Changes [.resp] (fun _ => False) s t) ∧
  (∀ e, controllerServes s = true → s.cal.op = none → s.cal.epochPend = some e → ∃ t, exec .epochWrite s = .next t ∧ writes (.epoch e) slot 64 none t ∧ t.cal.epochPend = none) ∧
  (∀ e, controllerServes s = false → s.cal.epochPend = some e → exec .epochWrite s = .next s) ∧
  (calm → controllerServes s = true → s.sys.phase = .active → bit Reg.CAL_STAT_ABAD s = true → reg s Reg.CAL_GENB ≠ 0xFFFFFFFF#32 → ∃ t, exec .copyRepair s = .next t ∧
    writes (.repair false) 0x400 1024 none t) ∧
  (∀ (e : LogEntry) (l : List LogEntry), free → calm → s.sys.nvmChecked = true → s.thm.logQ = e :: l → ∃ t, exec .eventLogWrite s = .next t ∧
    writes (.log e) (0x3000 + 16 * (getF Reg.THM_LOGSTAT_LSEQ s % 64)) 16 none t ∧ t.thm = { s.thm with logQ := l }) ∧
  (∀ o : NvmOp, s.cal.op = some o → o.job.isSave = true → o.job ≠ .harness → o.ticket = some .direct → s.cal.queue = [] → ∃ t,
    exec (.nvmWriteDone none) s = .next t ∧ t.answered .ok ∧ t.cal.op = none ∧ t.cal.nvm = nvmFill o.base o.bytes s.cal.nvm ∧
    Changes [.cal, .resp] (oneOf [Reg.CAL_STAT]) s t) ∧
  (∀ (o : NvmOp) (n : Fin 128), s.cal.op = some o → o.job.isSave = true → o.ticket = some .direct → s.cal.queue = [] → ∃ t,
    exec (.nvmWriteDone (some n)) s = .next t ∧ t.answered .incomplete ∧ t.cal.op = none ∧ t.cal.nvm = s.cal.nvm ∧
    getF Reg.CAL_NVMSTAT_FAILCNT t = min (getF Reg.CAL_NVMSTAT_FAILCNT s + 1) 255 ∧ getF Reg.CAL_NVMSTAT_SECT t = 256 * n.val ∧
    t.flt.waiting = s.flt.waiting ++ [124] ∧ Changes [.cal, .resp, .flt] (oneOf [Reg.CAL_STAT, Reg.CAL_NVMSTAT]) s t) ∧
  (free → lifecycle s ≠ 3 → ∃ t, exec .patchwe s = .next t ∧ t.answered .ok ∧ bit Reg.CAL_STAT_PATCHWE t = true ∧
    t.cal = { s.cal with patchErased := [] } ∧ Changes [.cal, .resp] (oneOf [Reg.CAL_STAT]) s t) ∧
  (∀ tk, may → s.bst.run = none → ∃ t, exec (.patch tk) s = .next t ∧ t.cal.patch = some tk ∧ bit Reg.CAL_STAT_PATCHWE t = false ∧
    t.sys.ctlBusy = true ∧ t.cal.nvm = s.cal.nvm ∧ t.pending = s.pending)

/-- The CRC unit feeds each byte of a data write, lowest-addressed first, and reads its finished value. -/
def Obligations.CrcUnit : Prop := ∀ s : State,
  let w := getF Reg.CRC_CFG_WIDTH s
  let wide := coreUp s = true ∧ 8 ≤ w ∧ w ≤ 32
  let refin := bit Reg.CRC_CFG_REFIN s
  let m := fun (v : Word) => v.toNat % 2 ^ w
  let mirror := fun (v : Nat) => ((List.range w).map (fun k => if v.testBit k then 2 ^ (w - 1 - k) else 0)).sum
  let shift := fun (v : Nat) => if refin then (if v % 2 = 1 then (v / 2) ^^^ mirror (m (reg s Reg.CRC_POLY)) else v / 2)
    else if v.testBit (w - 1) then ((v <<< 1) ^^^ m (reg s Reg.CRC_POLY)) % 2 ^ w else (v <<< 1) % 2 ^ w
  let byte := fun (v b : Nat) => shift (shift (shift (shift (shift (shift (shift (shift (v ^^^ (if refin then b else b <<< (w - 8))))))))))
  (∀ (size : Fin 3) (d : Word), wide → ∃ t, exec (.crcDataWrite size d) s = .next t ∧
    (reg t Reg.CRC_VAL).toNat = ((List.range (2 ^ size.val)).map (fun k => getBits d (8 * k) 8)).foldl byte (m (reg s Reg.CRC_VAL)) ∧
    t.answered .ok ∧ Changes [.resp] (oneOf [Reg.CRC_VAL]) s t) ∧
  (∀ g : List Word, wide → ∃ t, exec (.registerReadClear .hk 0x7810 1 g) s = .next t ∧ (t.resp.map (fun r => r.data.map BitVec.toNat)) =
    some [(if bit Reg.CRC_CFG_REFOUT s = refin then m (reg s Reg.CRC_VAL) else mirror (m (reg s Reg.CRC_VAL))) ^^^ m (reg s Reg.CRC_XOROUT)] ∧
    Changes [.resp] (fun _ => False) s t) ∧
  (∀ (a : Fin 1048576) (g : List Word), wide → (a.val = Reg.CRC_POLY ∨ a.val = Reg.CRC_VAL ∨ a.val = Reg.CRC_XOROUT) → ∃ t, exec (.registerReadClear .hk a 1 g) s = .next t ∧
    (t.resp.map (fun r => r.data.map BitVec.toNat)) = some [m (reg s a)] ∧ Changes [.resp] (fun _ => False) s t) ∧
  (∀ (a : Fin 1048576) (v : Word) (h : List Word), wide → (a.val = Reg.CRC_POLY ∨ a.val = Reg.CRC_VAL ∨ a.val = Reg.CRC_XOROUT) → ∃ t, exec (.registerWrite .hk a [v] h) s = .next t ∧
    (reg t a).toNat = m v ∧ t.answered .ok ∧ Changes [.resp] (oneOf [a.val]) s t)

/-- Changes of the life-cycle state: which are accepted, and what the fuses read back decide. -/
def Obligations.LifecycleChange : Prop := ∀ s : State,
  let listed := fun (a b : Nat) => (a, b) ∈ [(0, 1), (1, 2), (2, 1), (1, 3), (2, 3)]
  let free := coreUp s = true ∧ s.sys.ctlBusy = false ∧ bit Reg.BST_CTLSTAT_ROMBAD s = false ∧ calOccupied s = false ∧ s.bst.run = none ∧ s.bst.lc = none
  let refused := fun (st : Status) (t : State) => t.answered st ∧ Changes [.resp] (fun _ => False) s t
  (∀ (target : Fin 4) (force : Bool) (tk : Ticket), tk = .direct → coreUp s = true → ¬ listed (lifecycle s) target → ∃ t,
    exec (.lifecycleChange target force tk) s = .next t ∧ refused .lifecycleDenied t) ∧
  (∀ (target : Fin 4) (force : Bool) (tk : Ticket), tk = .direct → coreUp s = true → lifecycle s = 2 → target = 1 → s.bst.fuseK = 16 → ∃ t,
    exec (.lifecycleChange target force tk) s = .next t ∧ refused .lifecycleDenied t) ∧
  (∀ (target : Fin 4) (force : Bool) (tk : Ticket), tk = .direct → free → lifecycle s = 0 → target = 1 → bit Reg.CAL_STAT_TRIMBAD s = true → ∃ t,
    exec (.lifecycleChange target force tk) s = .next t ∧ refused .checkFail t) ∧
  (∀ (target : Fin 4) (force : Bool) (tk : Ticket), tk = .direct → free → lifecycle s = 1 → target = 2 → getF Reg.CAL_STAT_SRC s = 0 → force = false →
    ∃ t, exec (.lifecycleChange target force tk) s = .next t ∧ refused .checkFail t) ∧
  (∀ (target : Fin 4) (force : Bool) (tk : Ticket), free → listed (lifecycle s) target → (lifecycle s = 2 ∧ target = 1 → s.bst.fuseK ≠ 16) →
    (lifecycle s = 0 → bit Reg.CAL_STAT_TRIMBAD s = false) → (lifecycle s = 1 ∧ target = 2 → getF Reg.CAL_STAT_SRC s ≠ 0 ∨ force = true) → ∃ t,
    exec (.lifecycleChange target force tk) s = .next t ∧ t.bst = { s.bst with lc := some (target.val, tk) } ∧ Changes [.bst] (fun _ => False) s t) ∧
  (∀ (a b : Bool) (target : Fin 3), s.bst.lc = some (target.val, .direct) → (a || b) = true → s.bst.fuseRet = false → s.bst.fuseK < 16 → ∃ t,
    exec (.fuseProgramDone a b) s = .next t ∧ t.bst = { s.bst with fuseK := s.bst.fuseK + 1, fuseErr := s.bst.fuseErr || a != b, lc := none } ∧
    getF Reg.BST_LCSTAT_K t = s.bst.fuseK + 1 ∧ lifecycle t = (if s.bst.fuseK % 2 = 0 then 1 else 2) ∧
    bit Reg.BST_LCSTAT_LCFERR t = (s.bst.fuseErr || a != b) ∧ t.answered .ok ∧ Changes [.bst, .resp] (oneOf [Reg.BST_LCSTAT]) s t) ∧
  (∀ a b : Bool, s.bst.lc = some (3, .direct) → (a || b) = true → ∃ t, exec (.fuseProgramDone a b) s = .next t ∧
    t.bst = { s.bst with fuseRet := true, fuseErr := s.bst.fuseErr || a != b, lc := none } ∧ lifecycle t = 3 ∧ bit Reg.BST_LCSTAT_RETFUSE t = true ∧
    bit Reg.BST_LCSTAT_LCFERR t = (s.bst.fuseErr || a != b) ∧ t.answered .ok ∧ Changes [.bst, .resp] (oneOf [Reg.BST_LCSTAT]) s t) ∧
  (∀ target : Fin 4, s.bst.lc = some (target.val, .direct) → ∃ t, exec (.fuseProgramDone false false) s = .next t ∧ t.bst = { s.bst with lc := none } ∧
    t.answered .incomplete ∧ Changes [.bst, .resp] (fun _ => False) s t)

/-- A self-test run: its start, its items and their records, its slices, its end and an abort. -/
def Obligations.SelfTestItems : Prop := ∀ s : State,
  let ready := s.sys.phase = .active ∧ s.sys.ctlBusy = false ∧ bit Reg.BST_CTLSTAT_ROMBAD s = false ∧ calOccupied s = false ∧ s.bst.run = none
  let begun := fun (mem log : Nat) (ss compat : Bool) (t : State) =>
    t.bst = { s.bst with runAt := s.now, run := some ⟨ss, compat, (itemsOf mem log).tail, some 8, s.now, 0, 0, none, false, false, false⟩ } ∧
    bit Reg.BST_STAT_BUSY t = true ∧ getF Reg.BST_STAT_CUR t = 8 ∧ getF Reg.BST_STAT_RUNS t = (getF Reg.BST_STAT_RUNS s + 1) % 256 ∧
    (compat = true → getF Reg.BST_STAT_SLICES t = 0)
  let record := fun (i : Nat) (r : BstRun) (result done alg cov count : Nat) (t : State) =>
    reg t (recordWord i 0) = BitVec.ofNat 32 (result * 2 ^ 30 + done * 2 ^ 29 + alg * 2 ^ 28 + b2n r.compat * 2 ^ 27 + getF Reg.BST_STAT_RUNS s * 2 ^ 16 + cov) ∧
    reg t (recordWord i 1) = BitVec.ofNat 32 count ∧ reg t (recordWord i 2) = BitVec.ofNat 32 ((s.now - r.start) / 1000)
  let words := fun (i : Nat) => [recordWord i 0, recordWord i 1, recordWord i 2, recordWord i 3]
  let ended := fun (r : BstRun) (i n : Nat) => r.start + (if r.compat then 5 else if i < 16 then 10 else 300) * n ≤ s.now
  let onward := fun (r : BstRun) (t : State) => getF Reg.BST_STAT_CUR t = (r.todo.head?.filter (· ≠ 21)).getD 31
  (∀ (mem : Fin 256) (log : Fin 64) (ss compat : Bool), ready → ¬ (log.val.testBit 5 = true ∧ lifecycle s = 2) →
    (∀ i ∈ (itemsOf mem log).tail, itemFenced i s = false) → ¬ (log.val.testBit 3 = true ∧ planActive s = true) →
    ¬ (log.val.testBit 4 = true ∧ hasRole s = true) → ¬ (mem.val = 0 ∧ log.val = 0) → ∃ t, exec (.selftestGo mem log ss compat) s = .next t ∧
    begun mem log ss compat t ∧ t.answered .ok ∧ Changes [.bst, .resp] (oneOf [Reg.BST_STAT]) s t) ∧
  (∀ (m : Fin 9) (fail : Option (Fin 64)) (r : BstRun), s.bst.run = some r → r.cur = some m.val → r.segs + 1 < segmentsOf m → ended r m ((r.segs + 1) * segmentOps m r.ss) → ∃ t,
    exec (.segmentTestDone fail) s = .next t ∧
    t.bst = { s.bst with run := some ⟨r.ss, r.compat, r.todo, r.cur, r.start, r.segs + 1, r.fsegs + b2n fail.isSome,
      r.fword.or (fail.map (fun k => 64 * r.segs + k.val)), r.failed, r.short, r.leaving⟩ } ∧ Changes [.bst] (fun _ => False) s t) ∧
  (∀ (m : Fin 9) (fail : Option (Fin 64)) (r : BstRun), s.bst.run = some r → r.cur = some m.val → r.segs + 1 = segmentsOf m → ended r m ((r.segs + 1) * segmentOps m r.ss) → ∃ t,
    exec (.segmentTestDone fail) s = .next t ∧
    record m r (if r.fsegs = 0 ∧ fail = none then 1 else 2) 1 (b2n r.ss) (marchCover r.ss) (segmentsOf m * segmentOps m r.ss) t ∧
    reg t (recordWord m 3) = BitVec.ofNat 32 (min (r.fsegs + b2n fail.isSome) 4095 * 2 ^ 20 +
      (r.fword.or (fail.map (fun k => 64 * r.segs + k.val))).getD 0xFFFFF) ∧
    onward r t ∧ Changes [.bst] (oneOf (Reg.BST_STAT :: words m)) s t) ∧
  (∀ (p : Fin 5) (misr : Word) (r : BstRun), s.bst.run = some r → r.cur = some (16 + p.val) → ended r (16 + p) (patternsOf p) → ∃ t, exec (.partitionDone misr) s = .next t ∧
    record (16 + p) r (if misr = Config.signature p then 1 else 2) 1 0 (partitionCover p) (patternsOf p) t ∧ reg t (recordWord (16 + p) 3) = misr ∧
    onward r t ∧ Changes (if p.val = 3 then [.bst, .imp] else if p.val = 4 then [.bst, .hst] else [.bst]) (oneOf (Reg.BST_STAT :: words (16 + p))) s t) ∧
  (∀ (misr : Word) (r : BstRun), s.bst.run = some r → r.cur = some 21 → ended r 21 65536 → ∃ t, exec (.partitionDone misr) s = .next t ∧
    record 21 r (if misr = Config.signature 5 then 1 else 2) 1 0 9850 65536 t ∧ reg t (recordWord 21 3) = misr ∧ t.bst.run = none ∧
    bit Reg.SYS_RSTCAUSE_SOFT t = true ∧ coreUp t = false ∧ t.pending = s.pending) ∧
  (∀ (mem : Fin 256) (log : Fin 64) (ss compat : Bool), coreUp s = true → (∀ i ∈ (itemsOf mem log).tail, itemFenced i s = false) → s.sys.phase ≠ .active →
    ¬ (log.val.testBit 5 = true ∧ lifecycle s = 2) → s.sys.ctlBusy = false → bit Reg.BST_CTLSTAT_ROMBAD s = false → ∃ t,
    exec (.selftestGo mem log ss compat) s = .next t ∧ t.resp = some ⟨.refusedBusy, [], 0⟩ ∧ Changes [.resp] (fun _ => False) s t) ∧
  (∀ (mem : Fin 256) (log : Fin 64) (ss compat : Bool), coreUp s = true → ¬ (log.val.testBit 5 = true ∧ lifecycle s = 2) →
    (∃ i ∈ (itemsOf mem log).tail, itemFenced i s = true) → ∃ t,
    exec (.selftestGo mem log ss compat) s = .next t ∧ t.answered .refusedFenced ∧ Changes [.resp] (fun _ => False) s t) ∧
  (∀ (mem : Fin 256) (log : Fin 64) (ss compat : Bool), ready → ¬ (log.val.testBit 5 = true ∧ lifecycle s = 2) →
    (∀ i ∈ (itemsOf mem log).tail, itemFenced i s = false) → (log.val.testBit 3 = true ∧ planActive s = true) ∨ (log.val.testBit 4 = true ∧ hasRole s = true) → ∃ t,
    exec (.selftestGo mem log ss compat) s = .next t ∧ t.resp = some ⟨.refusedBusy, [], 0⟩ ∧ Changes [.resp] (fun _ => False) s t) ∧
  (∀ (mem : Fin 256) (log : Fin 64) (ss compat : Bool) (r : BstRun), s.sys.phase = .active → s.sys.ctlBusy = false → bit Reg.BST_CTLSTAT_ROMBAD s = false → s.bst.run = some r →
    r.compat = false → 21 ∉ r.todo → (∀ i ∈ (itemsOf mem log).tail, itemFenced i s = false) → ¬ (log.val.testBit 5 = true ∧ lifecycle s = 2) → ∃ t,
    exec (.selftestGo mem log ss compat) s = .next t ∧ t.resp = some ⟨.refusedBusy, [], testLeft r s.now⟩ ∧ Changes [.resp] (fun _ => False) s t) ∧
  (∀ (mem : Fin 256) (log : Fin 64) (ss compat : Bool), mem.val = 0 → log.val = 0 → ready → ∃ t,
    exec (.selftestGo mem log ss compat) s = .next t ∧ t.answered .ok ∧ Changes [.resp] (fun _ => False) s t) ∧
  (∀ (mem : Fin 256) (log : Fin 64) (ss compat : Bool), coreUp s = true → log.val.testBit 5 = true → lifecycle s = 2 → ∃ t,
    exec (.selftestGo mem log ss compat) s = .next t ∧ t.answered .lifecycleDenied ∧ Changes [.resp] (fun _ => False) s t) ∧
  (s.ft % (10 * ms) < 6 → s.bst.run.map BstRun.compat = some true → ∃ t, exec .sliceStart s = .next t ∧
    getF Reg.BST_STAT_SLICES t = min (getF Reg.BST_STAT_SLICES s + 1) 255 ∧ Changes [] (oneOf [Reg.BST_STAT]) s t) ∧
  ((6 ≤ s.ft % (10 * ms) ∨ s.bst.run.all (fun r => !r.compat) = true) → exec .sliceStart s = .next s) ∧
  (∀ r : BstRun, s.bst.run = some r → r.cur = none → r.todo = [] → ∃ t, exec .selftestRunEnd s = .next t ∧
    getF Reg.BST_STAT_RESULT t = (if r.failed then 7 else if r.short then 10 else 0) ∧ bit Reg.BST_STAT_BUSY t = false ∧
    getF Reg.BST_STAT_CUR t = 31 ∧ t.bst = { s.bst with run := none } ∧
    t.flt.waiting = s.flt.waiting ++ (if r.failed || r.short then [125] else []) ∧ Changes [.bst, .flt] (oneOf [Reg.BST_STAT]) s t) ∧
  (∀ (m : Fin 9) (r : BstRun), coreUp s = true → s.bst.run = some r → r.cur = some m.val → r.fsegs = 0 → r.fword = none → r.segs < segmentsOf m →
    (∀ i ∈ r.todo, i ∈ [16, 17, 18, 19, 20, 21] ∨ (m.val < i ∧ i < 8) ∨ (m.val = 8 ∧ i < 8)) → ∃ t, exec .selftestAbort s = .next t ∧
    record m r 3 0 (b2n r.ss) (marchCover r.ss * r.segs / segmentsOf m) (r.segs * segmentOps m r.ss) t ∧ reg t (recordWord m 3) = 0xFFFFF#32 ∧
    (∀ i ∈ r.todo, ∀ w : Fin 4, reg t (recordWord i w) = (if i < 16 ∧ w.val = 3 then 0xFFFFF#32 else 0#32)) ∧
    getF Reg.BST_STAT_RESULT t = (if r.failed then 7 else 10) ∧ bit Reg.BST_STAT_BUSY t = false ∧ t.flt.waiting = s.flt.waiting ++ [125] ∧
    t.bst = { s.bst with run := none } ∧ t.answered .ok ∧
    Changes [.bst, .flt, .resp] (oneOf (Reg.BST_STAT :: words m ++ r.todo.flatMap words)) s t) ∧
  (getF Reg.BST_CFG_AUTOPER s ≠ 0 → s.bst.runAt + getF Reg.BST_CFG_AUTOPER s * 600000 * ms ≤ s.now →
    (s.now - s.bst.runAt) % (getF Reg.BST_CFG_AUTOPER s * 600000 * ms) < 5 → ready → (∀ i ∈ [0, 1, 2, 3, 4, 5, 6, 7, 16, 17, 18], itemFenced i s = false) → ∃ t, exec .autoRunDue s = .next t ∧
    begun 255 7 (bit Reg.BST_CFG_AUTOALG s) false t ∧ Changes [.bst] (oneOf [Reg.BST_STAT]) s t) ∧
  ((getF Reg.BST_CFG_AUTOPER s = 0 ∨ s.now < s.bst.runAt + getF Reg.BST_CFG_AUTOPER s * 600000 * ms ∨ s.sys.phase ≠ .active ∨ s.bst.run ≠ none) →
    exec .autoRunDue s = .next s) ∧
  (∀ r : BstRun, s.bst.run = some r → r.cur = none → r.todo = [21] → r.leaving = false → (cnvState s = 3 ∨ cnvState s = 4) → ∃ t,
    exec .offlinePartitionStart s = .next t ∧ t.bst = { s.bst with run := some { r with leaving := true } } ∧ cnvState t = 6 ∧ planActive t = false ∧
    t.pending = s.pending) ∧
  (∀ r : BstRun, s.bst.run = some r → r.cur = none → r.todo = [21] → r.leaving = true → switching s = false → ∃ t,
    exec .offlinePartitionStart s = .next t ∧ t.bst = { s.bst with run := some { r with todo := [], cur := some 21, start := s.now } } ∧
    getF Reg.BST_STAT_CUR t = 21 ∧ (∀ n : Fin 4, getF (Reg.LNK_PSTAT_STATE n) t = 0) ∧ (s.cpb.sense = false → t.pins.fault = .faultLevel) ∧
    t.pending = s.pending)

/-- Accesses of the local space: what each class of address and each access code does, and the locks. -/
def Obligations.RegisterAccess : Prop := ∀ s : State,
  let may := fun (r : Requester) => coreUp s = true ∧ r ≠ .host
  let refused := fun (t : State) => t.answered .badAddress ∧ Changes [.resp] (fun _ => False) s t
  let counted := fun (a : Nat) (t : State) => t.answered .ok ∧ getF Reg.SYS_LOCKSTAT_VIOL t = min (getF Reg.SYS_LOCKSTAT_VIOL s + 1) 255 ∧
    getF Reg.SYS_LOCKSTAT_ADDR t = a / 4 ∧ bit Reg.SYS_LOCKSTAT_ARMED t = bit Reg.SYS_LOCKSTAT_ARMED s ∧
    bit Reg.SYS_LOCKSTAT_LFLT t = bit Reg.SYS_LOCKSTAT_LFLT s ∧ bit Reg.SYS_LOCKSTAT_LTGT t = bit Reg.SYS_LOCKSTAT_LTGT s ∧
    Changes [.resp] (oneOf [Reg.SYS_LOCKSTAT]) s t
  let data := fun (t : State) => t.resp.map (fun r => r.data)
  (∀ (r : Requester) (a : Fin 1048576) (l w : List Word) (n : Fin 257), may r → a.val % 4 ≠ 0 → ∃ t, exec (.registerWrite r a l w) s = .next t ∧
    refused t ∧ exec (.registerReadClear r a n w) s = .next t) ∧
  (∀ (r : Requester) (a : Fin 1048576) (l w : List Word), may r → 0x7FC ≤ a.val → a.val < 0x1000 → 2 ≤ l.length → ∃ t,
    exec (.registerWrite r a l w) s = .next t ∧ refused t) ∧
  (∀ (r : Requester) (a : Fin 1048576) (n : Fin 257) (w : List Word), may r → 0x87FC ≤ a.val → a.val < 0x10000 → 2 ≤ n.val → ∃ t,
    exec (.registerReadClear r a n w) s = .next t ∧ refused t) ∧
  (∀ (r : Requester) (a : Fin 1048576) (l w : List Word), may r → 1 ≤ l.length → (addrClass a = .hole ∨ (addrClass a = .window ∧ a.val < 0x40000)) → ∃ t,
    exec (.registerWrite r a l w) s = .next t ∧ refused t) ∧
  (∀ (r : Requester) (a : Fin 1048576) (w : List Word), may r → a.val % 4 = 0 → addrClass a = .hole → ∃ t, exec (.registerReadClear r a 1 w) s = .next t ∧
    data t = some [0#32] ∧ t.answered .ok ∧ Changes [.resp] (fun _ => False) s t) ∧
  (∀ (r : Requester) (a : Fin 1048576) (v w : Word), may r → a.val ∈ [Reg.TBS_SETL, Reg.TBS_REINTL, Reg.IMP_T0L] → ∃ t,
    exec (.registerWrite r a [v, w] []) s = .next t ∧ t.answered .ok ∧ reg t a = v ∧ reg t (a + 4) = w ∧ Changes [.resp] (oneOf [a.val, a.val + 4]) s t) ∧
  (∀ (r : Requester) (a : Fin 1048576) (v : Word) (w : List Word), may r → a.val ∈ [Reg.TBS_TIMEL, Reg.TBS_OFFS, Reg.TBS_PDLY, Reg.FAB_UID0, Reg.IMP_SNAP] → ∃ t,
    exec (.registerWrite r a [v] w) s = .next t ∧ t.answered .ok ∧ Changes [.resp] (fun _ => False) s t) ∧
  (∀ (r : Requester) (v w : Word), may r → v < 512#32 → ∃ t, exec (.registerWrite r 0x24 [v] [w]) s = .next t ∧ t.answered .ok ∧
    reg t Reg.SYS_RSTCAUSE = reg s Reg.SYS_RSTCAUSE &&& ~~~v ||| w &&& 0x1FF#32 ∧ Changes [.resp] (oneOf [Reg.SYS_RSTCAUSE]) s t) ∧
  (∀ (r : Requester) (a : Fin 1048576) (w : List Word), may r → a.val ∈ [Reg.SYS_LOCK, Reg.SYS_PWRCMD, Reg.CNV_CMD, Reg.CAL_CMD, Reg.BST_CMD] → ∃ t,
    exec (.registerReadClear r a 1 w) s = .next t ∧ data t = some [0#32] ∧ Changes [.resp] (fun _ => False) s t) ∧
  (∀ (r : Requester) (w : Word), may r → ∃ t, exec (.registerReadClear r 0x1018 1 [w]) s = .next t ∧
    (data t).map (fun l => getBits (l.headD 0#32) 0 16) = some (getF Reg.CMS_OVRCNT_OVR s) ∧ getF Reg.CMS_OVRCNT_OVR t = getBits w 0 16 ∧
    Changes [.resp] (oneOf [Reg.CMS_OVRCNT]) s t) ∧
  (∀ (a : Fin 1048576) (l w : List Word) (n : Fin 257), coreUp s = false ∨ barReachable s = false →
    exec (.registerWrite .host a l w) s = .next s ∧ exec (.registerReadClear .host a n w) s = .next s) ∧
  (∀ (a : Fin 1048576) (v : Word) (w : List Word), coreUp s = true → barReachable s = true → a.val % 4 = 0 → addrClass a = .reserved →
    (∃ t, exec (.registerWrite .host a [v] w) s = .next t ∧ t.answered .ok ∧ Changes [.resp] (fun _ => False) s t) ∧
    ∃ t, exec (.registerReadClear .host a 1 w) s = .next t ∧ data t = some [0#32] ∧ t.answered .ok ∧ Changes [.resp] (fun _ => False) s t) ∧
  (∀ (r : Requester) (v : Word) (w : List Word), may r → 4 ≤ getBits v 0 3 → exec (.registerWrite r 0x04 [v] w) s = .fault (.reservedWrite 0x04)) ∧
  (∀ (r : Requester) (w : List Word), may r → ∃ t, exec (.registerWrite r 0x2028 [0#32] w) s = .next t ∧ Sheltered s t) ∧
  (∀ (r : Requester) (a : Fin 1048576) (v : Word) (w : List Word), may r → 0x3030 ≤ a.val → a.val ≤ 0x303C → a.val % 4 = 0 → bit Reg.SYS_LOCKSTAT_LTGT s = true →
    ∃ t, exec (.registerWrite r a [v] w) s = .next t ∧ counted a t) ∧
  (∀ (r : Requester) (a : Fin 1048576) (v : Word) (w : List Word), may r → 0x6100 ≤ a.val → a.val ≤ 0x62FC → a.val % 4 = 0 → bit Reg.SYS_LOCKSTAT_LFLT s = true →
    ∃ t, exec (.registerWrite r a [v] w) s = .next t ∧ counted a t) ∧
  (coreUp s = true → ∀ r f g, ∃ t, exec (.lockArm r f g) s = .next t ∧ bit Reg.SYS_LOCKSTAT_ARMED t = true ∧
    t.sys = { s.sys with lockArm := some (r, s.now) } ∧ t.answered .ok ∧
    bit Reg.SYS_LOCKSTAT_LFLT t = bit Reg.SYS_LOCKSTAT_LFLT s ∧ bit Reg.SYS_LOCKSTAT_LTGT t = bit Reg.SYS_LOCKSTAT_LTGT s ∧
    Changes [.sys, .resp] (oneOf [Reg.SYS_LOCKSTAT]) s t) ∧
  (coreUp s = true → ∀ (r : Requester) (f g : Bool) (t0 : Nat), s.sys.lockArm = some (r, t0) → s.now ≤ t0 + 990000 → ∃ t, exec (.lock r f g) s = .next t ∧
    bit Reg.SYS_LOCKSTAT_ARMED t = false ∧ t.sys = { s.sys with lockArm := none } ∧ t.answered .ok ∧
    bit Reg.SYS_LOCKSTAT_LFLT t = (f || bit Reg.SYS_LOCKSTAT_LFLT s) ∧ bit Reg.SYS_LOCKSTAT_LTGT t = (g || bit Reg.SYS_LOCKSTAT_LTGT s) ∧
    Changes [.sys, .resp] (oneOf [Reg.SYS_LOCKSTAT]) s t) ∧
  (coreUp s = true → ∀ (r r' : Requester) (f g : Bool) (t0 : Nat), s.sys.lockArm = some (r', t0) → r' ≠ r → ∃ t, exec (.lock r f g) s = .next t ∧
    bit Reg.SYS_LOCKSTAT_ARMED t = false ∧ t.sys = { s.sys with lockArm := none } ∧ t.answered .ok ∧
    bit Reg.SYS_LOCKSTAT_LFLT t = bit Reg.SYS_LOCKSTAT_LFLT s ∧ bit Reg.SYS_LOCKSTAT_LTGT t = bit Reg.SYS_LOCKSTAT_LTGT s ∧
    Changes [.sys, .resp, .free] (oneOf [Reg.SYS_LOCKSTAT]) s t) ∧
  (coreUp s = true → ∀ (r r' : Requester) (f g : Bool) (t0 : Nat), s.sys.lockArm = some (r', t0) → t0 + 1010000 < s.now → ∃ t, exec (.lock r f g) s = .next t ∧
    bit Reg.SYS_LOCKSTAT_ARMED t = false ∧ t.sys = { s.sys with lockArm := none } ∧ t.answered .ok ∧
    bit Reg.SYS_LOCKSTAT_LFLT t = bit Reg.SYS_LOCKSTAT_LFLT s ∧ bit Reg.SYS_LOCKSTAT_LTGT t = bit Reg.SYS_LOCKSTAT_LTGT s ∧
    Changes [.sys, .resp] (oneOf [Reg.SYS_LOCKSTAT]) s t) ∧
  (∀ (r : Requester) (t0 : Nat), s.sys.lockArm = some (r, t0) → t0 + 990000 < s.now → ∃ t, exec .lockArmExpiry s = .next t ∧ bit Reg.SYS_LOCKSTAT_ARMED t = false ∧
    t.sys = { s.sys with lockArm := none } ∧ Changes [.sys] (oneOf [Reg.SYS_LOCKSTAT]) s t)

/-- A step runs the command at the front of the queue; with none waiting, one core clock passes. -/
def Obligations.StepTakesFront : Prop := ∀ s : State,
  (∀ c : Instr, step { s with pending := c :: s.pending } = exec c s) ∧
  (s.pending = [] → coreUp s = false → ∃ t, step s = .next t ∧ t.now = s.now + 5 ∧ Changes [.now] (fun _ => False) s t) ∧
  (s.pending = [] → coreUp s = true → ∃ t, step s = .next t ∧ t.now = s.now + 5 ∧
    t.ft = (s.ft + (5 * (1000000000 + timeRate s) + s.tbs.frac).toNat / 1000000000) % 2 ^ 64 ∧
    t.tbs = { s.tbs with frac := t.tbs.frac, hostRef := refersToHost s } ∧
    t.sys = { s.sys with coreSpread := t.sys.coreSpread, pwmSpread := t.sys.pwmSpread } ∧
    Changes [.now, .ft, .tbs, .sys] (fun _ => False) s t) ∧
  (s.pending = [] → coreUp s = true → timeRate s = 0 → s.tbs.frac < 1000000000 → ∃ t, step s = .next t ∧ t.ft = (s.ft + 5) % 2 ^ 64 ∧
    t.tbs.frac = s.tbs.frac)

/-- A step takes the front of the queue and keeps the canonical form of the register file and of NVM. -/
def Obligations.StepInvariant : Prop := ∀ s : State,
  (∀ t : State, step s = .next t → t.pending = s.pending.tail ∧ (s.canonical → t.canonical))

/-- What reset leaves: the tables' reset values, and nothing waiting. -/
def Obligations.ResetState : Prop :=
  (∀ e ∈ ([
    (Reg.SYS_ID, 0x24640100#32), (Reg.SYS_PWRSTAT, 0x00000003#32), (Reg.SYS_PWRCFG, 0x0000000F#32), (Reg.SYS_SUPCFG, 0x00000004#32),
    (Reg.SYS_CLKCFG, 0x00000003#32), (Reg.SYS_CLKSTAT, 0x00000307#32), (Reg.SYS_RSTCAUSE, 0x00000001#32), (Reg.SYS_PINCFG, 0x000A0A00#32),
    (Reg.CMS_CFG, 0x00000001#32), (Reg.CMS_CHEN, 0x01FFFFFF#32), (Reg.CMS_STAT, 0x0C011001#32), (Reg.XCK_CFG, 0x32001410#32),
    (Reg.XCK_OWCFG, 0x00000001#32), (Reg.XCK_BALCFG, 0x00000011#32), (Reg.XCK_RBAL, 0x000007D0#32), (Reg.IMP_CFG, 0x00000102#32),
    (Reg.IMP_PAIRCFG, 0x000003FF#32), (Reg.IMP_RSHUNT, 0x000186A0#32), (Reg.CPB_CFG, 0x00000123#32), (Reg.CPB_OVTH, 0x00000352#32),
    (Reg.CPB_UVTH, 0x000001F4#32), (Reg.CPB_CELLEN, 0x01FFFFFE#32), (Reg.CPB_BALCFG, 0x00200C3F#32), (Reg.CPB_CLTCFG, 0x00000063#32),
    (Reg.CPB_CLTSTAT, 0x00000063#32), (Reg.CPB_FPCFG, 0x00000A00#32), (Reg.CNV_PHCFG, 0x00FA000F#32), (Reg.CNV_DT, 0x2D1E2328#32),
    (Reg.CNV_SSCFG, 0x03005032#32), (Reg.CNV_ILIM, 0x00960096#32), (Reg.CNV_IAVG, 0x00000064#32), (Reg.CNV_BUS, 0x2710281E#32),
    (Reg.CNV_LL, 0x2810000B#32), (Reg.CNV_LSD, 0x00001032#32), (Reg.CNV_SYNC, 0x000A0000#32), (Reg.CNV_TRIMCFG, 0x00002001#32),
    (Reg.CNV_DLIM, 0xEB850A3D#32), (Reg.CTL_CFG, 0x000000C0#32), (Reg.CTL_SMAX, 0x000003E8#32), (Reg.CTL_AMAX, 0x000001F4#32),
    (Reg.CTL_JMAX, 0x000003E8#32), (Reg.CTL_KP, 0x00000800#32), (Reg.CTL_KI, 0x00000100#32), (Reg.CTL_LIM, 0x01900190#32),
    (Reg.CTL_LUTCFG, 0x00000040#32), (Reg.CTL_TRK, 0x00000014#32), (Reg.CTL_VERR, 0x00001000#32), (Reg.LNK_CFG, 0x00328102#32),
    (Reg.LNK_EQCFG, 0x4A382604#32), (Reg.FAB_CFG, 0x00180000#32), (Reg.FAB_HOOF, 0x0000000A#32), (Reg.FAB_SCFG, 0x0000000A#32),
    (Reg.FAB_ARB, 0x00000018#32), (Reg.FAB_TCFG, 0x00000A14#32), (Reg.FAB_ENCFG, 0x00006401#32), (Reg.HST_WBCFG, 0x00000008#32),
    (Reg.HST_IRQ, 0x00000007#32), (Reg.HST_DWM, 0x00000010#32), (Reg.HST_G2CFG, 0x00000032#32), (Reg.TBS_CFG, 0x0A14A570#32),
    (Reg.TBS_STAT, 0x000003E0#32), (Reg.TBS_PDLY, 0xFFFFFFFF#32), (Reg.FLT_INJCTL, 0x00000A00#32), (Reg.THM_CFG, 0x007D0001#32),
    (Reg.THM_STAT, 0x00000001#32), (Reg.THM_NTCPAR, 0x0D6B1000#32), (Reg.THM_NTCLIM, 0x00003CEC#32), (Reg.THM_SNAP, 0x00000001#32),
    (Reg.CAL_STAT, 0x0000E000#32), (Reg.CAL_IREF, 0x02FAF080#32), (Reg.CAL_AXREF, 0x001E8480#32), (Reg.CRC_CFG, 0x00002003#32),
    (Reg.CRC_POLY, 0x1EDC6F41#32), (Reg.BST_STAT, 0x1F000000#32)] : List (Nat × Word)), reg State.reset e.1 = e.2) ∧
  State.reset.pending = [] ∧ coreUp State.reset = false ∧ switching State.reset = false ∧ State.reset.pins.gden = .low ∧
  State.reset.canonical ∧ State.reset.cal.nvm = []
end

