-- ==== Sys2Proof/Laws/State.lean ====
section
/-!
SUPPORT. Sys2Proof/Laws/State.lean: what the updates of the register file, of the fault lines and of the event bits leave alone, one lemma for each
part of the state.
-/
namespace Sys2Proof.Machine

/-! ## Updates of the register file -/

@[simp] theorem setReg_now (a : Nat) (v : Word) (s : State) : (setReg a v s).now = s.now := rfl
@[simp] theorem setF_now (f : Field) (v : Nat) (s : State) : (setF f v s).now = s.now := rfl
@[simp] theorem setB_now (f : Field) (b : Bool) (s : State) : (setB f b s).now = s.now := rfl
@[simp] theorem setRegBit_now (a k : Nat) (b : Bool) (s : State) : (setRegBit a k b s).now = s.now := rfl
@[simp] theorem addSat_now (f : Field) (n : Nat) (s : State) : (addSat f n s).now = s.now := rfl
@[simp] theorem incSat_now (f : Field) (s : State) : (incSat f s).now = s.now := rfl
@[simp] theorem incWrap_now (a : Nat) (s : State) : (incWrap a s).now = s.now := rfl
@[simp] theorem setReg_ft (a : Nat) (v : Word) (s : State) : (setReg a v s).ft = s.ft := rfl
@[simp] theorem setF_ft (f : Field) (v : Nat) (s : State) : (setF f v s).ft = s.ft := rfl
@[simp] theorem setB_ft (f : Field) (b : Bool) (s : State) : (setB f b s).ft = s.ft := rfl
@[simp] theorem setRegBit_ft (a k : Nat) (b : Bool) (s : State) : (setRegBit a k b s).ft = s.ft := rfl
@[simp] theorem addSat_ft (f : Field) (n : Nat) (s : State) : (addSat f n s).ft = s.ft := rfl
@[simp] theorem incSat_ft (f : Field) (s : State) : (incSat f s).ft = s.ft := rfl
@[simp] theorem incWrap_ft (a : Nat) (s : State) : (incWrap a s).ft = s.ft := rfl
@[simp] theorem setReg_free (a : Nat) (v : Word) (s : State) : (setReg a v s).free = s.free := rfl
@[simp] theorem setF_free (f : Field) (v : Nat) (s : State) : (setF f v s).free = s.free := rfl
@[simp] theorem setB_free (f : Field) (b : Bool) (s : State) : (setB f b s).free = s.free := rfl
@[simp] theorem setRegBit_free (a k : Nat) (b : Bool) (s : State) : (setRegBit a k b s).free = s.free := rfl
@[simp] theorem addSat_free (f : Field) (n : Nat) (s : State) : (addSat f n s).free = s.free := rfl
@[simp] theorem incSat_free (f : Field) (s : State) : (incSat f s).free = s.free := rfl
@[simp] theorem incWrap_free (a : Nat) (s : State) : (incWrap a s).free = s.free := rfl
@[simp] theorem setReg_resp (a : Nat) (v : Word) (s : State) : (setReg a v s).resp = s.resp := rfl
@[simp] theorem setF_resp (f : Field) (v : Nat) (s : State) : (setF f v s).resp = s.resp := rfl
@[simp] theorem setB_resp (f : Field) (b : Bool) (s : State) : (setB f b s).resp = s.resp := rfl
@[simp] theorem setRegBit_resp (a k : Nat) (b : Bool) (s : State) : (setRegBit a k b s).resp = s.resp := rfl
@[simp] theorem addSat_resp (f : Field) (n : Nat) (s : State) : (addSat f n s).resp = s.resp := rfl
@[simp] theorem incSat_resp (f : Field) (s : State) : (incSat f s).resp = s.resp := rfl
@[simp] theorem incWrap_resp (a : Nat) (s : State) : (incWrap a s).resp = s.resp := rfl
@[simp] theorem setReg_pins (a : Nat) (v : Word) (s : State) : (setReg a v s).pins = s.pins := rfl
@[simp] theorem setF_pins (f : Field) (v : Nat) (s : State) : (setF f v s).pins = s.pins := rfl
@[simp] theorem setB_pins (f : Field) (b : Bool) (s : State) : (setB f b s).pins = s.pins := rfl
@[simp] theorem setRegBit_pins (a k : Nat) (b : Bool) (s : State) : (setRegBit a k b s).pins = s.pins := rfl
@[simp] theorem addSat_pins (f : Field) (n : Nat) (s : State) : (addSat f n s).pins = s.pins := rfl
@[simp] theorem incSat_pins (f : Field) (s : State) : (incSat f s).pins = s.pins := rfl
@[simp] theorem incWrap_pins (a : Nat) (s : State) : (incWrap a s).pins = s.pins := rfl
@[simp] theorem setReg_sys (a : Nat) (v : Word) (s : State) : (setReg a v s).sys = s.sys := rfl
@[simp] theorem setF_sys (f : Field) (v : Nat) (s : State) : (setF f v s).sys = s.sys := rfl
@[simp] theorem setB_sys (f : Field) (b : Bool) (s : State) : (setB f b s).sys = s.sys := rfl
@[simp] theorem setRegBit_sys (a k : Nat) (b : Bool) (s : State) : (setRegBit a k b s).sys = s.sys := rfl
@[simp] theorem addSat_sys (f : Field) (n : Nat) (s : State) : (addSat f n s).sys = s.sys := rfl
@[simp] theorem incSat_sys (f : Field) (s : State) : (incSat f s).sys = s.sys := rfl
@[simp] theorem incWrap_sys (a : Nat) (s : State) : (incWrap a s).sys = s.sys := rfl
@[simp] theorem setReg_cms (a : Nat) (v : Word) (s : State) : (setReg a v s).cms = s.cms := rfl
@[simp] theorem setF_cms (f : Field) (v : Nat) (s : State) : (setF f v s).cms = s.cms := rfl
@[simp] theorem setB_cms (f : Field) (b : Bool) (s : State) : (setB f b s).cms = s.cms := rfl
@[simp] theorem setRegBit_cms (a k : Nat) (b : Bool) (s : State) : (setRegBit a k b s).cms = s.cms := rfl
@[simp] theorem addSat_cms (f : Field) (n : Nat) (s : State) : (addSat f n s).cms = s.cms := rfl
@[simp] theorem incSat_cms (f : Field) (s : State) : (incSat f s).cms = s.cms := rfl
@[simp] theorem incWrap_cms (a : Nat) (s : State) : (incWrap a s).cms = s.cms := rfl
@[simp] theorem setReg_xck (a : Nat) (v : Word) (s : State) : (setReg a v s).xck = s.xck := rfl
@[simp] theorem setF_xck (f : Field) (v : Nat) (s : State) : (setF f v s).xck = s.xck := rfl
@[simp] theorem setB_xck (f : Field) (b : Bool) (s : State) : (setB f b s).xck = s.xck := rfl
@[simp] theorem setRegBit_xck (a k : Nat) (b : Bool) (s : State) : (setRegBit a k b s).xck = s.xck := rfl
@[simp] theorem addSat_xck (f : Field) (n : Nat) (s : State) : (addSat f n s).xck = s.xck := rfl
@[simp] theorem incSat_xck (f : Field) (s : State) : (incSat f s).xck = s.xck := rfl
@[simp] theorem incWrap_xck (a : Nat) (s : State) : (incWrap a s).xck = s.xck := rfl
@[simp] theorem setReg_imp (a : Nat) (v : Word) (s : State) : (setReg a v s).imp = s.imp := rfl
@[simp] theorem setF_imp (f : Field) (v : Nat) (s : State) : (setF f v s).imp = s.imp := rfl
@[simp] theorem setB_imp (f : Field) (b : Bool) (s : State) : (setB f b s).imp = s.imp := rfl
@[simp] theorem setRegBit_imp (a k : Nat) (b : Bool) (s : State) : (setRegBit a k b s).imp = s.imp := rfl
@[simp] theorem addSat_imp (f : Field) (n : Nat) (s : State) : (addSat f n s).imp = s.imp := rfl
@[simp] theorem incSat_imp (f : Field) (s : State) : (incSat f s).imp = s.imp := rfl
@[simp] theorem incWrap_imp (a : Nat) (s : State) : (incWrap a s).imp = s.imp := rfl
@[simp] theorem setReg_cpb (a : Nat) (v : Word) (s : State) : (setReg a v s).cpb = s.cpb := rfl
@[simp] theorem setF_cpb (f : Field) (v : Nat) (s : State) : (setF f v s).cpb = s.cpb := rfl
@[simp] theorem setB_cpb (f : Field) (b : Bool) (s : State) : (setB f b s).cpb = s.cpb := rfl
@[simp] theorem setRegBit_cpb (a k : Nat) (b : Bool) (s : State) : (setRegBit a k b s).cpb = s.cpb := rfl
@[simp] theorem addSat_cpb (f : Field) (n : Nat) (s : State) : (addSat f n s).cpb = s.cpb := rfl
@[simp] theorem incSat_cpb (f : Field) (s : State) : (incSat f s).cpb = s.cpb := rfl
@[simp] theorem incWrap_cpb (a : Nat) (s : State) : (incWrap a s).cpb = s.cpb := rfl
@[simp] theorem setReg_flt (a : Nat) (v : Word) (s : State) : (setReg a v s).flt = s.flt := rfl
@[simp] theorem setF_flt (f : Field) (v : Nat) (s : State) : (setF f v s).flt = s.flt := rfl
@[simp] theorem setB_flt (f : Field) (b : Bool) (s : State) : (setB f b s).flt = s.flt := rfl
@[simp] theorem setRegBit_flt (a k : Nat) (b : Bool) (s : State) : (setRegBit a k b s).flt = s.flt := rfl
@[simp] theorem addSat_flt (f : Field) (n : Nat) (s : State) : (addSat f n s).flt = s.flt := rfl
@[simp] theorem incSat_flt (f : Field) (s : State) : (incSat f s).flt = s.flt := rfl
@[simp] theorem incWrap_flt (a : Nat) (s : State) : (incWrap a s).flt = s.flt := rfl
@[simp] theorem setReg_lnk (a : Nat) (v : Word) (s : State) : (setReg a v s).lnk = s.lnk := rfl
@[simp] theorem setF_lnk (f : Field) (v : Nat) (s : State) : (setF f v s).lnk = s.lnk := rfl
@[simp] theorem setB_lnk (f : Field) (b : Bool) (s : State) : (setB f b s).lnk = s.lnk := rfl
@[simp] theorem setRegBit_lnk (a k : Nat) (b : Bool) (s : State) : (setRegBit a k b s).lnk = s.lnk := rfl
@[simp] theorem addSat_lnk (f : Field) (n : Nat) (s : State) : (addSat f n s).lnk = s.lnk := rfl
@[simp] theorem incSat_lnk (f : Field) (s : State) : (incSat f s).lnk = s.lnk := rfl
@[simp] theorem incWrap_lnk (a : Nat) (s : State) : (incWrap a s).lnk = s.lnk := rfl
@[simp] theorem setReg_fab (a : Nat) (v : Word) (s : State) : (setReg a v s).fab = s.fab := rfl
@[simp] theorem setF_fab (f : Field) (v : Nat) (s : State) : (setF f v s).fab = s.fab := rfl
@[simp] theorem setB_fab (f : Field) (b : Bool) (s : State) : (setB f b s).fab = s.fab := rfl
@[simp] theorem setRegBit_fab (a k : Nat) (b : Bool) (s : State) : (setRegBit a k b s).fab = s.fab := rfl
@[simp] theorem addSat_fab (f : Field) (n : Nat) (s : State) : (addSat f n s).fab = s.fab := rfl
@[simp] theorem incSat_fab (f : Field) (s : State) : (incSat f s).fab = s.fab := rfl
@[simp] theorem incWrap_fab (a : Nat) (s : State) : (incWrap a s).fab = s.fab := rfl
@[simp] theorem setReg_hst (a : Nat) (v : Word) (s : State) : (setReg a v s).hst = s.hst := rfl
@[simp] theorem setF_hst (f : Field) (v : Nat) (s : State) : (setF f v s).hst = s.hst := rfl
@[simp] theorem setB_hst (f : Field) (b : Bool) (s : State) : (setB f b s).hst = s.hst := rfl
@[simp] theorem setRegBit_hst (a k : Nat) (b : Bool) (s : State) : (setRegBit a k b s).hst = s.hst := rfl
@[simp] theorem addSat_hst (f : Field) (n : Nat) (s : State) : (addSat f n s).hst = s.hst := rfl
@[simp] theorem incSat_hst (f : Field) (s : State) : (incSat f s).hst = s.hst := rfl
@[simp] theorem incWrap_hst (a : Nat) (s : State) : (incWrap a s).hst = s.hst := rfl
@[simp] theorem setReg_cnv (a : Nat) (v : Word) (s : State) : (setReg a v s).cnv = s.cnv := rfl
@[simp] theorem setF_cnv (f : Field) (v : Nat) (s : State) : (setF f v s).cnv = s.cnv := rfl
@[simp] theorem setB_cnv (f : Field) (b : Bool) (s : State) : (setB f b s).cnv = s.cnv := rfl
@[simp] theorem setRegBit_cnv (a k : Nat) (b : Bool) (s : State) : (setRegBit a k b s).cnv = s.cnv := rfl
@[simp] theorem addSat_cnv (f : Field) (n : Nat) (s : State) : (addSat f n s).cnv = s.cnv := rfl
@[simp] theorem incSat_cnv (f : Field) (s : State) : (incSat f s).cnv = s.cnv := rfl
@[simp] theorem incWrap_cnv (a : Nat) (s : State) : (incWrap a s).cnv = s.cnv := rfl
@[simp] theorem setReg_ctl (a : Nat) (v : Word) (s : State) : (setReg a v s).ctl = s.ctl := rfl
@[simp] theorem setF_ctl (f : Field) (v : Nat) (s : State) : (setF f v s).ctl = s.ctl := rfl
@[simp] theorem setB_ctl (f : Field) (b : Bool) (s : State) : (setB f b s).ctl = s.ctl := rfl
@[simp] theorem setRegBit_ctl (a k : Nat) (b : Bool) (s : State) : (setRegBit a k b s).ctl = s.ctl := rfl
@[simp] theorem addSat_ctl (f : Field) (n : Nat) (s : State) : (addSat f n s).ctl = s.ctl := rfl
@[simp] theorem incSat_ctl (f : Field) (s : State) : (incSat f s).ctl = s.ctl := rfl
@[simp] theorem incWrap_ctl (a : Nat) (s : State) : (incWrap a s).ctl = s.ctl := rfl
@[simp] theorem setReg_tbs (a : Nat) (v : Word) (s : State) : (setReg a v s).tbs = s.tbs := rfl
@[simp] theorem setF_tbs (f : Field) (v : Nat) (s : State) : (setF f v s).tbs = s.tbs := rfl
@[simp] theorem setB_tbs (f : Field) (b : Bool) (s : State) : (setB f b s).tbs = s.tbs := rfl
@[simp] theorem setRegBit_tbs (a k : Nat) (b : Bool) (s : State) : (setRegBit a k b s).tbs = s.tbs := rfl
@[simp] theorem addSat_tbs (f : Field) (n : Nat) (s : State) : (addSat f n s).tbs = s.tbs := rfl
@[simp] theorem incSat_tbs (f : Field) (s : State) : (incSat f s).tbs = s.tbs := rfl
@[simp] theorem incWrap_tbs (a : Nat) (s : State) : (incWrap a s).tbs = s.tbs := rfl
@[simp] theorem setReg_cal (a : Nat) (v : Word) (s : State) : (setReg a v s).cal = s.cal := rfl
@[simp] theorem setF_cal (f : Field) (v : Nat) (s : State) : (setF f v s).cal = s.cal := rfl
@[simp] theorem setB_cal (f : Field) (b : Bool) (s : State) : (setB f b s).cal = s.cal := rfl
@[simp] theorem setRegBit_cal (a k : Nat) (b : Bool) (s : State) : (setRegBit a k b s).cal = s.cal := rfl
@[simp] theorem addSat_cal (f : Field) (n : Nat) (s : State) : (addSat f n s).cal = s.cal := rfl
@[simp] theorem incSat_cal (f : Field) (s : State) : (incSat f s).cal = s.cal := rfl
@[simp] theorem incWrap_cal (a : Nat) (s : State) : (incWrap a s).cal = s.cal := rfl
@[simp] theorem setReg_thm (a : Nat) (v : Word) (s : State) : (setReg a v s).thm = s.thm := rfl
@[simp] theorem setF_thm (f : Field) (v : Nat) (s : State) : (setF f v s).thm = s.thm := rfl
@[simp] theorem setB_thm (f : Field) (b : Bool) (s : State) : (setB f b s).thm = s.thm := rfl
@[simp] theorem setRegBit_thm (a k : Nat) (b : Bool) (s : State) : (setRegBit a k b s).thm = s.thm := rfl
@[simp] theorem addSat_thm (f : Field) (n : Nat) (s : State) : (addSat f n s).thm = s.thm := rfl
@[simp] theorem incSat_thm (f : Field) (s : State) : (incSat f s).thm = s.thm := rfl
@[simp] theorem incWrap_thm (a : Nat) (s : State) : (incWrap a s).thm = s.thm := rfl
@[simp] theorem setReg_bst (a : Nat) (v : Word) (s : State) : (setReg a v s).bst = s.bst := rfl
@[simp] theorem setF_bst (f : Field) (v : Nat) (s : State) : (setF f v s).bst = s.bst := rfl
@[simp] theorem setB_bst (f : Field) (b : Bool) (s : State) : (setB f b s).bst = s.bst := rfl
@[simp] theorem setRegBit_bst (a k : Nat) (b : Bool) (s : State) : (setRegBit a k b s).bst = s.bst := rfl
@[simp] theorem addSat_bst (f : Field) (n : Nat) (s : State) : (addSat f n s).bst = s.bst := rfl
@[simp] theorem incSat_bst (f : Field) (s : State) : (incSat f s).bst = s.bst := rfl
@[simp] theorem incWrap_bst (a : Nat) (s : State) : (incWrap a s).bst = s.bst := rfl
@[simp] theorem setReg_pending (a : Nat) (v : Word) (s : State) : (setReg a v s).pending = s.pending := rfl
@[simp] theorem setF_pending (f : Field) (v : Nat) (s : State) : (setF f v s).pending = s.pending := rfl
@[simp] theorem setB_pending (f : Field) (b : Bool) (s : State) : (setB f b s).pending = s.pending := rfl
@[simp] theorem setRegBit_pending (a k : Nat) (b : Bool) (s : State) : (setRegBit a k b s).pending = s.pending := rfl
@[simp] theorem addSat_pending (f : Field) (n : Nat) (s : State) : (addSat f n s).pending = s.pending := rfl
@[simp] theorem incSat_pending (f : Field) (s : State) : (incSat f s).pending = s.pending := rfl
@[simp] theorem incWrap_pending (a : Nat) (s : State) : (incWrap a s).pending = s.pending := rfl

/-! ## Updates of the fault lines -/

@[simp] theorem setLine_now (src : Nat) (b : Bool) (s : State) : (setLine src b s).now = s.now := by unfold setLine; split; (split <;> rfl); rfl
@[simp] theorem pulse_now (src : Nat) (s : State) : (pulse src s).now = s.now := by unfold pulse; split <;> rfl
@[simp] theorem raise_now (src : Nat) (s : State) : (raise src s).now = s.now := by unfold raise; split <;> simp
@[simp] theorem drop_now (src : Nat) (s : State) : (drop src s).now = s.now := by simp [drop]
@[simp] theorem follow_now (src : Nat) (b : Bool) (s : State) : (follow src b s).now = s.now := by unfold follow; split <;> simp
@[simp] theorem setLine_ft (src : Nat) (b : Bool) (s : State) : (setLine src b s).ft = s.ft := by unfold setLine; split; (split <;> rfl); rfl
@[simp] theorem pulse_ft (src : Nat) (s : State) : (pulse src s).ft = s.ft := by unfold pulse; split <;> rfl
@[simp] theorem raise_ft (src : Nat) (s : State) : (raise src s).ft = s.ft := by unfold raise; split <;> simp
@[simp] theorem drop_ft (src : Nat) (s : State) : (drop src s).ft = s.ft := by simp [drop]
@[simp] theorem follow_ft (src : Nat) (b : Bool) (s : State) : (follow src b s).ft = s.ft := by unfold follow; split <;> simp
@[simp] theorem setLine_free (src : Nat) (b : Bool) (s : State) : (setLine src b s).free = s.free := by unfold setLine; split; (split <;> rfl); rfl
@[simp] theorem pulse_free (src : Nat) (s : State) : (pulse src s).free = s.free := by unfold pulse; split <;> rfl
@[simp] theorem raise_free (src : Nat) (s : State) : (raise src s).free = s.free := by unfold raise; split <;> simp
@[simp] theorem drop_free (src : Nat) (s : State) : (drop src s).free = s.free := by simp [drop]
@[simp] theorem follow_free (src : Nat) (b : Bool) (s : State) : (follow src b s).free = s.free := by unfold follow; split <;> simp
@[simp] theorem setLine_resp (src : Nat) (b : Bool) (s : State) : (setLine src b s).resp = s.resp := by unfold setLine; split; (split <;> rfl); rfl
@[simp] theorem pulse_resp (src : Nat) (s : State) : (pulse src s).resp = s.resp := by unfold pulse; split <;> rfl
@[simp] theorem raise_resp (src : Nat) (s : State) : (raise src s).resp = s.resp := by unfold raise; split <;> simp
@[simp] theorem drop_resp (src : Nat) (s : State) : (drop src s).resp = s.resp := by simp [drop]
@[simp] theorem follow_resp (src : Nat) (b : Bool) (s : State) : (follow src b s).resp = s.resp := by unfold follow; split <;> simp
@[simp] theorem setLine_pins (src : Nat) (b : Bool) (s : State) : (setLine src b s).pins = s.pins := by unfold setLine; split; (split <;> rfl); rfl
@[simp] theorem pulse_pins (src : Nat) (s : State) : (pulse src s).pins = s.pins := by unfold pulse; split <;> rfl
@[simp] theorem raise_pins (src : Nat) (s : State) : (raise src s).pins = s.pins := by unfold raise; split <;> simp
@[simp] theorem drop_pins (src : Nat) (s : State) : (drop src s).pins = s.pins := by simp [drop]
@[simp] theorem follow_pins (src : Nat) (b : Bool) (s : State) : (follow src b s).pins = s.pins := by unfold follow; split <;> simp
@[simp] theorem setLine_sys (src : Nat) (b : Bool) (s : State) : (setLine src b s).sys = s.sys := by unfold setLine; split; (split <;> rfl); rfl
@[simp] theorem pulse_sys (src : Nat) (s : State) : (pulse src s).sys = s.sys := by unfold pulse; split <;> rfl
@[simp] theorem raise_sys (src : Nat) (s : State) : (raise src s).sys = s.sys := by unfold raise; split <;> simp
@[simp] theorem drop_sys (src : Nat) (s : State) : (drop src s).sys = s.sys := by simp [drop]
@[simp] theorem follow_sys (src : Nat) (b : Bool) (s : State) : (follow src b s).sys = s.sys := by unfold follow; split <;> simp
@[simp] theorem setLine_cms (src : Nat) (b : Bool) (s : State) : (setLine src b s).cms = s.cms := by unfold setLine; split; (split <;> rfl); rfl
@[simp] theorem pulse_cms (src : Nat) (s : State) : (pulse src s).cms = s.cms := by unfold pulse; split <;> rfl
@[simp] theorem raise_cms (src : Nat) (s : State) : (raise src s).cms = s.cms := by unfold raise; split <;> simp
@[simp] theorem drop_cms (src : Nat) (s : State) : (drop src s).cms = s.cms := by simp [drop]
@[simp] theorem follow_cms (src : Nat) (b : Bool) (s : State) : (follow src b s).cms = s.cms := by unfold follow; split <;> simp
@[simp] theorem setLine_xck (src : Nat) (b : Bool) (s : State) : (setLine src b s).xck = s.xck := by unfold setLine; split; (split <;> rfl); rfl
@[simp] theorem pulse_xck (src : Nat) (s : State) : (pulse src s).xck = s.xck := by unfold pulse; split <;> rfl
@[simp] theorem raise_xck (src : Nat) (s : State) : (raise src s).xck = s.xck := by unfold raise; split <;> simp
@[simp] theorem drop_xck (src : Nat) (s : State) : (drop src s).xck = s.xck := by simp [drop]
@[simp] theorem follow_xck (src : Nat) (b : Bool) (s : State) : (follow src b s).xck = s.xck := by unfold follow; split <;> simp
@[simp] theorem setLine_imp (src : Nat) (b : Bool) (s : State) : (setLine src b s).imp = s.imp := by unfold setLine; split; (split <;> rfl); rfl
@[simp] theorem pulse_imp (src : Nat) (s : State) : (pulse src s).imp = s.imp := by unfold pulse; split <;> rfl
@[simp] theorem raise_imp (src : Nat) (s : State) : (raise src s).imp = s.imp := by unfold raise; split <;> simp
@[simp] theorem drop_imp (src : Nat) (s : State) : (drop src s).imp = s.imp := by simp [drop]
@[simp] theorem follow_imp (src : Nat) (b : Bool) (s : State) : (follow src b s).imp = s.imp := by unfold follow; split <;> simp
@[simp] theorem setLine_cpb (src : Nat) (b : Bool) (s : State) : (setLine src b s).cpb = s.cpb := by unfold setLine; split; (split <;> rfl); rfl
@[simp] theorem pulse_cpb (src : Nat) (s : State) : (pulse src s).cpb = s.cpb := by unfold pulse; split <;> rfl
@[simp] theorem raise_cpb (src : Nat) (s : State) : (raise src s).cpb = s.cpb := by unfold raise; split <;> simp
@[simp] theorem drop_cpb (src : Nat) (s : State) : (drop src s).cpb = s.cpb := by simp [drop]
@[simp] theorem follow_cpb (src : Nat) (b : Bool) (s : State) : (follow src b s).cpb = s.cpb := by unfold follow; split <;> simp
@[simp] theorem setLine_lnk (src : Nat) (b : Bool) (s : State) : (setLine src b s).lnk = s.lnk := by unfold setLine; split; (split <;> rfl); rfl
@[simp] theorem pulse_lnk (src : Nat) (s : State) : (pulse src s).lnk = s.lnk := by unfold pulse; split <;> rfl
@[simp] theorem raise_lnk (src : Nat) (s : State) : (raise src s).lnk = s.lnk := by unfold raise; split <;> simp
@[simp] theorem drop_lnk (src : Nat) (s : State) : (drop src s).lnk = s.lnk := by simp [drop]
@[simp] theorem follow_lnk (src : Nat) (b : Bool) (s : State) : (follow src b s).lnk = s.lnk := by unfold follow; split <;> simp
@[simp] theorem setLine_fab (src : Nat) (b : Bool) (s : State) : (setLine src b s).fab = s.fab := by unfold setLine; split; (split <;> rfl); rfl
@[simp] theorem pulse_fab (src : Nat) (s : State) : (pulse src s).fab = s.fab := by unfold pulse; split <;> rfl
@[simp] theorem raise_fab (src : Nat) (s : State) : (raise src s).fab = s.fab := by unfold raise; split <;> simp
@[simp] theorem drop_fab (src : Nat) (s : State) : (drop src s).fab = s.fab := by simp [drop]
@[simp] theorem follow_fab (src : Nat) (b : Bool) (s : State) : (follow src b s).fab = s.fab := by unfold follow; split <;> simp
@[simp] theorem setLine_hst (src : Nat) (b : Bool) (s : State) : (setLine src b s).hst = s.hst := by unfold setLine; split; (split <;> rfl); rfl
@[simp] theorem pulse_hst (src : Nat) (s : State) : (pulse src s).hst = s.hst := by unfold pulse; split <;> rfl
@[simp] theorem raise_hst (src : Nat) (s : State) : (raise src s).hst = s.hst := by unfold raise; split <;> simp
@[simp] theorem drop_hst (src : Nat) (s : State) : (drop src s).hst = s.hst := by simp [drop]
@[simp] theorem follow_hst (src : Nat) (b : Bool) (s : State) : (follow src b s).hst = s.hst := by unfold follow; split <;> simp
@[simp] theorem setLine_cnv (src : Nat) (b : Bool) (s : State) : (setLine src b s).cnv = s.cnv := by unfold setLine; split; (split <;> rfl); rfl
@[simp] theorem pulse_cnv (src : Nat) (s : State) : (pulse src s).cnv = s.cnv := by unfold pulse; split <;> rfl
@[simp] theorem raise_cnv (src : Nat) (s : State) : (raise src s).cnv = s.cnv := by unfold raise; split <;> simp
@[simp] theorem drop_cnv (src : Nat) (s : State) : (drop src s).cnv = s.cnv := by simp [drop]
@[simp] theorem follow_cnv (src : Nat) (b : Bool) (s : State) : (follow src b s).cnv = s.cnv := by unfold follow; split <;> simp
@[simp] theorem setLine_ctl (src : Nat) (b : Bool) (s : State) : (setLine src b s).ctl = s.ctl := by unfold setLine; split; (split <;> rfl); rfl
@[simp] theorem pulse_ctl (src : Nat) (s : State) : (pulse src s).ctl = s.ctl := by unfold pulse; split <;> rfl
@[simp] theorem raise_ctl (src : Nat) (s : State) : (raise src s).ctl = s.ctl := by unfold raise; split <;> simp
@[simp] theorem drop_ctl (src : Nat) (s : State) : (drop src s).ctl = s.ctl := by simp [drop]
@[simp] theorem follow_ctl (src : Nat) (b : Bool) (s : State) : (follow src b s).ctl = s.ctl := by unfold follow; split <;> simp
@[simp] theorem setLine_tbs (src : Nat) (b : Bool) (s : State) : (setLine src b s).tbs = s.tbs := by unfold setLine; split; (split <;> rfl); rfl
@[simp] theorem pulse_tbs (src : Nat) (s : State) : (pulse src s).tbs = s.tbs := by unfold pulse; split <;> rfl
@[simp] theorem raise_tbs (src : Nat) (s : State) : (raise src s).tbs = s.tbs := by unfold raise; split <;> simp
@[simp] theorem drop_tbs (src : Nat) (s : State) : (drop src s).tbs = s.tbs := by simp [drop]
@[simp] theorem follow_tbs (src : Nat) (b : Bool) (s : State) : (follow src b s).tbs = s.tbs := by unfold follow; split <;> simp
@[simp] theorem setLine_cal (src : Nat) (b : Bool) (s : State) : (setLine src b s).cal = s.cal := by unfold setLine; split; (split <;> rfl); rfl
@[simp] theorem pulse_cal (src : Nat) (s : State) : (pulse src s).cal = s.cal := by unfold pulse; split <;> rfl
@[simp] theorem raise_cal (src : Nat) (s : State) : (raise src s).cal = s.cal := by unfold raise; split <;> simp
@[simp] theorem drop_cal (src : Nat) (s : State) : (drop src s).cal = s.cal := by simp [drop]
@[simp] theorem follow_cal (src : Nat) (b : Bool) (s : State) : (follow src b s).cal = s.cal := by unfold follow; split <;> simp
@[simp] theorem setLine_thm (src : Nat) (b : Bool) (s : State) : (setLine src b s).thm = s.thm := by unfold setLine; split; (split <;> rfl); rfl
@[simp] theorem pulse_thm (src : Nat) (s : State) : (pulse src s).thm = s.thm := by unfold pulse; split <;> rfl
@[simp] theorem raise_thm (src : Nat) (s : State) : (raise src s).thm = s.thm := by unfold raise; split <;> simp
@[simp] theorem drop_thm (src : Nat) (s : State) : (drop src s).thm = s.thm := by simp [drop]
@[simp] theorem follow_thm (src : Nat) (b : Bool) (s : State) : (follow src b s).thm = s.thm := by unfold follow; split <;> simp
@[simp] theorem setLine_bst (src : Nat) (b : Bool) (s : State) : (setLine src b s).bst = s.bst := by unfold setLine; split; (split <;> rfl); rfl
@[simp] theorem pulse_bst (src : Nat) (s : State) : (pulse src s).bst = s.bst := by unfold pulse; split <;> rfl
@[simp] theorem raise_bst (src : Nat) (s : State) : (raise src s).bst = s.bst := by unfold raise; split <;> simp
@[simp] theorem drop_bst (src : Nat) (s : State) : (drop src s).bst = s.bst := by simp [drop]
@[simp] theorem follow_bst (src : Nat) (b : Bool) (s : State) : (follow src b s).bst = s.bst := by unfold follow; split <;> simp
@[simp] theorem setLine_pending (src : Nat) (b : Bool) (s : State) : (setLine src b s).pending = s.pending := by unfold setLine; split; (split <;> rfl); rfl
@[simp] theorem pulse_pending (src : Nat) (s : State) : (pulse src s).pending = s.pending := by unfold pulse; split <;> rfl
@[simp] theorem raise_pending (src : Nat) (s : State) : (raise src s).pending = s.pending := by unfold raise; split <;> simp
@[simp] theorem drop_pending (src : Nat) (s : State) : (drop src s).pending = s.pending := by simp [drop]
@[simp] theorem follow_pending (src : Nat) (b : Bool) (s : State) : (follow src b s).pending = s.pending := by unfold follow; split <;> simp

/-! ## Updates of the event bits -/

@[simp] theorem setEvt_now (b : EvtBlock) (bits : Nat) (s : State) : (setEvt b bits s).now = s.now := by unfold setEvt; dsimp only; split; rfl; rfl
@[simp] theorem setEvt_ft (b : EvtBlock) (bits : Nat) (s : State) : (setEvt b bits s).ft = s.ft := by unfold setEvt; dsimp only; split; rfl; rfl
@[simp] theorem setEvt_free (b : EvtBlock) (bits : Nat) (s : State) : (setEvt b bits s).free = s.free := by unfold setEvt; dsimp only; split; rfl; rfl
@[simp] theorem setEvt_resp (b : EvtBlock) (bits : Nat) (s : State) : (setEvt b bits s).resp = s.resp := by unfold setEvt; dsimp only; split; rfl; rfl
@[simp] theorem setEvt_pins (b : EvtBlock) (bits : Nat) (s : State) : (setEvt b bits s).pins = s.pins := by unfold setEvt; dsimp only; split; rfl; rfl
@[simp] theorem setEvt_sys (b : EvtBlock) (bits : Nat) (s : State) : (setEvt b bits s).sys = s.sys := by unfold setEvt; dsimp only; split; rfl; rfl
@[simp] theorem setEvt_cms (b : EvtBlock) (bits : Nat) (s : State) : (setEvt b bits s).cms = s.cms := by unfold setEvt; dsimp only; split; rfl; rfl
@[simp] theorem setEvt_xck (b : EvtBlock) (bits : Nat) (s : State) : (setEvt b bits s).xck = s.xck := by unfold setEvt; dsimp only; split; rfl; rfl
@[simp] theorem setEvt_imp (b : EvtBlock) (bits : Nat) (s : State) : (setEvt b bits s).imp = s.imp := by unfold setEvt; dsimp only; split; rfl; rfl
@[simp] theorem setEvt_cpb (b : EvtBlock) (bits : Nat) (s : State) : (setEvt b bits s).cpb = s.cpb := by unfold setEvt; dsimp only; split; rfl; rfl
@[simp] theorem setEvt_flt (b : EvtBlock) (bits : Nat) (s : State) : (setEvt b bits s).flt = s.flt := by unfold setEvt; dsimp only; split; rfl; rfl
@[simp] theorem setEvt_lnk (b : EvtBlock) (bits : Nat) (s : State) : (setEvt b bits s).lnk = s.lnk := by unfold setEvt; dsimp only; split; rfl; rfl
@[simp] theorem setEvt_hst (b : EvtBlock) (bits : Nat) (s : State) : (setEvt b bits s).hst = s.hst := by unfold setEvt; dsimp only; split; rfl; rfl
@[simp] theorem setEvt_cnv (b : EvtBlock) (bits : Nat) (s : State) : (setEvt b bits s).cnv = s.cnv := by unfold setEvt; dsimp only; split; rfl; rfl
@[simp] theorem setEvt_ctl (b : EvtBlock) (bits : Nat) (s : State) : (setEvt b bits s).ctl = s.ctl := by unfold setEvt; dsimp only; split; rfl; rfl
@[simp] theorem setEvt_tbs (b : EvtBlock) (bits : Nat) (s : State) : (setEvt b bits s).tbs = s.tbs := by unfold setEvt; dsimp only; split; rfl; rfl
@[simp] theorem setEvt_cal (b : EvtBlock) (bits : Nat) (s : State) : (setEvt b bits s).cal = s.cal := by unfold setEvt; dsimp only; split; rfl; rfl
@[simp] theorem setEvt_thm (b : EvtBlock) (bits : Nat) (s : State) : (setEvt b bits s).thm = s.thm := by unfold setEvt; dsimp only; split; rfl; rfl
@[simp] theorem setEvt_bst (b : EvtBlock) (bits : Nat) (s : State) : (setEvt b bits s).bst = s.bst := by unfold setEvt; dsimp only; split; rfl; rfl
@[simp] theorem setEvt_pending (b : EvtBlock) (bits : Nat) (s : State) : (setEvt b bits s).pending = s.pending := by unfold setEvt; dsimp only; split; rfl; rfl

/-! ## Registers do not depend on the other parts -/

@[simp] theorem reg_with_now (s : State) (y : Nat) (a : Nat) : reg { s with now := y } a = reg s a := rfl
@[simp] theorem reg_with_ft (s : State) (y : Nat) (a : Nat) : reg { s with ft := y } a = reg s a := rfl
@[simp] theorem reg_with_free (s : State) (y : Nat) (a : Nat) : reg { s with free := y } a = reg s a := rfl
@[simp] theorem reg_with_resp (s : State) (y : Option Resp) (a : Nat) : reg { s with resp := y } a = reg s a := rfl
@[simp] theorem reg_with_pins (s : State) (y : Pins) (a : Nat) : reg { s with pins := y } a = reg s a := rfl
@[simp] theorem reg_with_sys (s : State) (y : SysState) (a : Nat) : reg { s with sys := y } a = reg s a := rfl
@[simp] theorem reg_with_cms (s : State) (y : CmsState) (a : Nat) : reg { s with cms := y } a = reg s a := rfl
@[simp] theorem reg_with_xck (s : State) (y : XckState) (a : Nat) : reg { s with xck := y } a = reg s a := rfl
@[simp] theorem reg_with_imp (s : State) (y : ImpState) (a : Nat) : reg { s with imp := y } a = reg s a := rfl
@[simp] theorem reg_with_cpb (s : State) (y : CpbState) (a : Nat) : reg { s with cpb := y } a = reg s a := rfl
@[simp] theorem reg_with_flt (s : State) (y : FltState) (a : Nat) : reg { s with flt := y } a = reg s a := rfl
@[simp] theorem reg_with_lnk (s : State) (y : LnkState) (a : Nat) : reg { s with lnk := y } a = reg s a := rfl
@[simp] theorem reg_with_fab (s : State) (y : FabState) (a : Nat) : reg { s with fab := y } a = reg s a := rfl
@[simp] theorem reg_with_hst (s : State) (y : HstState) (a : Nat) : reg { s with hst := y } a = reg s a := rfl
@[simp] theorem reg_with_cnv (s : State) (y : CnvState) (a : Nat) : reg { s with cnv := y } a = reg s a := rfl
@[simp] theorem reg_with_ctl (s : State) (y : CtlState) (a : Nat) : reg { s with ctl := y } a = reg s a := rfl
@[simp] theorem reg_with_tbs (s : State) (y : TbsState) (a : Nat) : reg { s with tbs := y } a = reg s a := rfl
@[simp] theorem reg_with_cal (s : State) (y : CalState) (a : Nat) : reg { s with cal := y } a = reg s a := rfl
@[simp] theorem reg_with_thm (s : State) (y : ThmState) (a : Nat) : reg { s with thm := y } a = reg s a := rfl
@[simp] theorem reg_with_bst (s : State) (y : BstState) (a : Nat) : reg { s with bst := y } a = reg s a := rfl
@[simp] theorem reg_with_pending (s : State) (y : List Instr) (a : Nat) : reg { s with pending := y } a = reg s a := rfl

end Sys2Proof.Machine
end

