-- ==== Sys2Proof/Laws/Regs.lean ====
section
/-!
SUPPORT. Sys2Proof/Laws/Regs.lean: the laws of sorted lists, of the register file and of register fields: a read after a write, and the
canonical form, which every write keeps.
-/
namespace Sys2Proof.Machine

/-! ## Sorted association lists -/

theorem assoc_assocPut {β : Type} (k b : Nat) (v : β) (l : List (Nat × β)) :
    assoc b (assocPut k v l) = if b = k then some v else assoc b l := by
  induction l with
  | nil => by_cases h : k = b <;> simp [assocPut, assoc, h, eq_comm]
  | cons e t ih =>
    obtain ⟨a, w⟩ := e
    simp only [assocPut]
    split
    · simp only [assoc]; by_cases h : k = b <;> simp [h, eq_comm]
    · split
      · rename_i h1 h2; subst h2
        simp only [assoc]; by_cases h : a = b
        · simp [h]
        · simp [h, Ne.symm h]
      · rename_i h1 h2
        simp only [assoc, ih]
        by_cases h : a = b
        · subst h; simp [h2]
        · simp [h]

theorem assoc_assocErase {β : Type} (k b : Nat) (l : List (Nat × β)) :
    assoc b (assocErase k l) = if b = k then none else assoc b l := by
  induction l with
  | nil => simp [assocErase, assoc]
  | cons e t ih =>
    obtain ⟨a, w⟩ := e
    simp only [assocErase]
    split
    · rename_i h; subst h
      simp only [ih, assoc]; by_cases h : b = a <;> simp [h, eq_comm]
    · rename_i h
      simp only [assoc, ih]
      by_cases h2 : a = b
      · subst h2; simp [h]
      · simp [h2]

/-- Every key of a list lies above a bound. -/
def keysAbove {β : Type} (k : Nat) (l : List (Nat × β)) : Prop := ∀ e ∈ l, k < e.1

theorem assocSorted_cons {β : Type} (a : Nat) (v : β) (l : List (Nat × β)) :
    assocSorted ((a, v) :: l) = true ↔ keysAbove a l ∧ assocSorted l = true := by
  induction l generalizing a v with
  | nil => simp [assocSorted, keysAbove]
  | cons e t ih =>
    obtain ⟨b, w⟩ := e
    simp only [assocSorted, Bool.and_eq_true, decide_eq_true_eq, keysAbove, List.mem_cons, forall_eq_or_imp]
    constructor
    · rintro ⟨h1, h2⟩
      refine ⟨⟨h1, fun e he => ?_⟩, h2⟩
      exact lt_trans h1 (((ih b w).1 h2).1 e he)
    · rintro ⟨⟨h1, -⟩, h2⟩
      exact ⟨h1, h2⟩

theorem keysAbove_assocPut {β : Type} {a k : Nat} {v : β} {l : List (Nat × β)} (hk : a < k) (h : keysAbove a l) :
    keysAbove a (assocPut k v l) := by
  induction l with
  | nil => intro e he; simp only [assocPut, List.mem_singleton] at he; subst he; exact hk
  | cons e t ih =>
    obtain ⟨b, w⟩ := e
    have hb : a < b := h (b, w) (by simp)
    have ht : keysAbove a t := fun e he => h e (by simp [he])
    simp only [assocPut]
    split
    · intro e he; simp only [List.mem_cons] at he
      rcases he with rfl | rfl | he
      exacts [hk, hb, ht _ he]
    · split
      · intro e he; simp only [List.mem_cons] at he
        rcases he with rfl | he
        exacts [hk, ht _ he]
      · intro e he; simp only [List.mem_cons] at he
        rcases he with rfl | he
        exacts [hb, ih ht e he]

theorem mem_assocErase {β : Type} {k : Nat} {l : List (Nat × β)} {e : Nat × β} (h : e ∈ assocErase k l) : e ∈ l := by
  induction l with
  | nil => simp [assocErase] at h
  | cons f t ih =>
    obtain ⟨a, w⟩ := f
    simp only [assocErase] at h
    split at h
    · exact List.mem_cons_of_mem _ (ih h)
    · simp only [List.mem_cons] at h ⊢
      exact h.imp id ih

theorem assocSorted_assocPut {β : Type} (k : Nat) (v : β) (l : List (Nat × β)) (h : assocSorted l = true) :
    assocSorted (assocPut k v l) = true := by
  induction l with
  | nil => rfl
  | cons e t ih =>
    obtain ⟨a, w⟩ := e
    obtain ⟨h1, h2⟩ := (assocSorted_cons a w t).1 h
    simp only [assocPut]
    split
    · rename_i hk
      exact (assocSorted_cons k v _).2 ⟨fun e he => by
        simp only [List.mem_cons] at he
        rcases he with rfl | he
        · exact hk
        · exact lt_trans hk (h1 e he), h⟩
    · split
      · rename_i hk; subst hk
        exact (assocSorted_cons _ v t).2 ⟨h1, h2⟩
      · exact (assocSorted_cons a w _).2 ⟨keysAbove_assocPut (by omega) h1, ih h2⟩

theorem assocSorted_assocErase {β : Type} (k : Nat) (l : List (Nat × β)) (h : assocSorted l = true) :
    assocSorted (assocErase k l) = true := by
  induction l with
  | nil => rfl
  | cons e t ih =>
    obtain ⟨a, w⟩ := e
    obtain ⟨h1, h2⟩ := (assocSorted_cons a w t).1 h
    simp only [assocErase]
    split
    · exact ih h2
    · exact (assocSorted_cons a w _).2 ⟨fun e he => h1 e (mem_assocErase he), ih h2⟩

theorem mem_assocPut {β : Type} {k : Nat} {v : β} {l : List (Nat × β)} {e : Nat × β} (h : e ∈ assocPut k v l) : e = (k, v) ∨ e ∈ l := by
  induction l with
  | nil => simpa [assocPut] using h
  | cons f t ih =>
    obtain ⟨a, w⟩ := f
    simp only [assocPut] at h
    split at h
    · simpa using h
    · split at h
      · simp only [List.mem_cons] at h ⊢; tauto
      · simp only [List.mem_cons] at h ⊢
        rcases h with h | h
        · tauto
        · rcases ih h with h | h <;> tauto

theorem assocSorted_filter {β : Type} (p : Nat × β → Bool) (l : List (Nat × β)) (h : assocSorted l = true) :
    assocSorted (l.filter p) = true := by
  induction l with
  | nil => rfl
  | cons e t ih =>
    obtain ⟨a, w⟩ := e
    obtain ⟨h1, h2⟩ := (assocSorted_cons a w t).1 h
    rw [List.filter_cons]
    split
    · exact (assocSorted_cons a w _).2 ⟨fun e he => h1 e (List.mem_of_mem_filter he), ih h2⟩
    · exact ih h2

/-! ## The register file -/

/-- A read after a write of the register file. -/
theorem RegFile.get_set (l : List (Nat × Word)) (a b : Nat) (v : Word) :
    RegFile.get (RegFile.set l a v) b = if b = a then v else RegFile.get l b := by
  unfold RegFile.get RegFile.set
  split
  · rename_i h; rw [assoc_assocErase]; by_cases hb : b = a <;> simp [hb, h]
  · rw [assoc_assocPut]; by_cases hb : b = a <;> simp [hb]

/-- A write keeps the canonical form of the register file. -/
theorem RegFile.wf_set (l : List (Nat × Word)) (a : Nat) (v : Word) (h : RegFile.wf l = true) : RegFile.wf (RegFile.set l a v) = true := by
  simp only [RegFile.wf, Bool.and_eq_true, List.all_eq_true] at h ⊢
  unfold RegFile.set
  split
  · exact ⟨assocSorted_assocErase a l h.1, fun e he => h.2 e (mem_assocErase he)⟩
  · rename_i hv
    refine ⟨assocSorted_assocPut a v l h.1, fun e he => ?_⟩
    rcases mem_assocPut he with rfl | he
    · simpa using hv
    · exact h.2 e he

/-- Registers taken out of the file, back to their reset values, leave it canonical. -/
theorem RegFile.wf_filter (p : Nat × Word → Bool) (l : List (Nat × Word)) (h : RegFile.wf l = true) : RegFile.wf (l.filter p) = true := by
  simp only [RegFile.wf, Bool.and_eq_true, List.all_eq_true] at h ⊢
  exact ⟨assocSorted_filter p l h.1, fun e he => h.2 e (List.mem_of_mem_filter he)⟩

/-- A read after a write of a register. -/
theorem reg_setReg (a b : Nat) (v : Word) (s : State) : reg (setReg a v s) b = if b = a then v else reg s b := RegFile.get_set s.regs a b v

@[simp] theorem reg_setReg_same (a : Nat) (v : Word) (s : State) : reg (setReg a v s) a = v := by simp [reg_setReg]

theorem reg_setReg_other {a b : Nat} (h : b ≠ a) (v : Word) (s : State) : reg (setReg a v s) b = reg s b := by simp [reg_setReg, h]

theorem reg_setF_other {f : Field} {b : Nat} (h : b ≠ f.addr) (v : Nat) (s : State) : reg (setF f v s) b = reg s b := reg_setReg_other h _ s

theorem reg_setB_other {f : Field} {b : Nat} (h : b ≠ f.addr) (v : Bool) (s : State) : reg (setB f v s) b = reg s b := reg_setReg_other h _ s

theorem reg_setRegBit_other {a b : Nat} (h : b ≠ a) (k : Nat) (v : Bool) (s : State) : reg (setRegBit a k v s) b = reg s b :=
  reg_setReg_other h _ s

theorem reg_addSat_other {f : Field} {b : Nat} (h : b ≠ f.addr) (n : Nat) (s : State) : reg (addSat f n s) b = reg s b :=
  reg_setReg_other h _ s

theorem reg_incSat_other {f : Field} {b : Nat} (h : b ≠ f.addr) (s : State) : reg (incSat f s) b = reg s b := reg_setReg_other h _ s

/-! ## Fields -/

/-- The bits of a word with a field replaced. -/
theorem getLsbD_putBits (r : Word) (lo w v i : Nat) :
    (putBits r lo w v).getLsbD i =
      (decide (i < 32) && if lo ≤ i ∧ i < lo + w then v.testBit (i - lo) else r.getLsbD i) := by
  unfold putBits
  simp only [BitVec.getLsbD_or, BitVec.getLsbD_and, BitVec.getLsbD_not, BitVec.getLsbD_shiftLeft, BitVec.getLsbD_ofNat]
  by_cases h32 : i < 32
  · by_cases h1 : lo ≤ i
    · have h2 : ¬ i < lo := by omega
      have h3 : i - lo < 32 := by omega
      by_cases h4 : i - lo < w
      · have h5 : lo ≤ i ∧ i < lo + w := ⟨h1, by omega⟩
        simp [h32, h2, h3, h4, h5]
      · have h5 : ¬ (lo ≤ i ∧ i < lo + w) := by omega
        simp [h32, h2, h3, h4, h5]
    · have h2 : i < lo := by omega
      simp [h32, h1, h2]
  · have h6 : r.getLsbD i = false := BitVec.getLsbD_of_ge r i (by omega)
    simp [h32]

/-- A bit of a field of a word. -/
theorem testBit_getBits (r : Word) (lo w i : Nat) : (getBits r lo w).testBit i = (decide (i < w) && r.getLsbD (lo + i)) := by
  unfold getBits
  rw [Nat.testBit_mod_two_pow, BitVec.testBit_toNat, BitVec.getLsbD_ushiftRight]

/-- A field that has just been set reads as the value, modulo its width. -/
theorem getBits_putBits (r : Word) (lo w v : Nat) (h : lo + w ≤ 32) : getBits (putBits r lo w v) lo w = v % 2 ^ w := by
  apply Nat.eq_of_testBit_eq
  intro i
  rw [testBit_getBits, getLsbD_putBits, Nat.testBit_mod_two_pow]
  by_cases hi : i < w
  · have h1 : lo + i < 32 := by omega
    have h2 : lo ≤ lo + i ∧ lo + i < lo + w := by omega
    simp [hi, h1]
  · simp [hi]

/-- A field beside the one that is set keeps its value. -/
theorem getBits_putBits_other (r : Word) (lo w v lo' w' : Nat) (h : lo' + w' ≤ lo ∨ lo + w ≤ lo') (hw : lo' + w' ≤ 32) :
    getBits (putBits r lo w v) lo' w' = getBits r lo' w' := by
  apply Nat.eq_of_testBit_eq
  intro i
  rw [testBit_getBits, testBit_getBits, getLsbD_putBits]
  by_cases hi : i < w'
  · have h1 : lo' + i < 32 := by omega
    have h2 : ¬ (lo ≤ lo' + i ∧ lo' + i < lo + w) := by omega
    simp [hi, h1, h2]
  · simp [hi]

theorem getF_setF_same (f : Field) (v : Nat) (s : State) (h : f.lo + f.w ≤ 32) : getF f (setF f v s) = v % 2 ^ f.w := by
  simp only [getF, setF, reg_setReg_same]; exact getBits_putBits _ _ _ _ h

theorem getF_setF_other (f g : Field) (v : Nat) (s : State) (h : g.addr ≠ f.addr) : getF g (setF f v s) = getF g s := by
  simp only [getF, setF, reg_setReg_other h]

theorem getF_setF_beside (f g : Field) (v : Nat) (s : State) (h : g.lo + g.w ≤ f.lo ∨ f.lo + f.w ≤ g.lo) (hw : g.lo + g.w ≤ 32) :
    getF g (setF f v s) = getF g s := by
  by_cases ha : g.addr = f.addr
  · simp only [getF, setF, ha, reg_setReg_same]; exact getBits_putBits_other _ _ _ _ _ _ h hw
  · exact getF_setF_other f g v s ha

/-- A counter field saturates. -/
theorem getF_incSat (f : Field) (s : State) (h : f.lo + f.w ≤ 32) : getF f (incSat f s) = min (getF f s + 1) (2 ^ f.w - 1) := by
  have h2 : 0 < 2 ^ f.w := Nat.two_pow_pos _
  simp only [incSat, addSat]
  rw [getF_setF_same f _ s h, Nat.mod_eq_of_lt (by omega)]

/-! ## The canonical form of a state -/

theorem canonical_setReg {s : State} (a : Nat) (v : Word) (h : s.canonical) : (setReg a v s).canonical := ⟨RegFile.wf_set _ _ _ h.1, h.2⟩

theorem canonical_setF {s : State} (f : Field) (v : Nat) (h : s.canonical) : (setF f v s).canonical := canonical_setReg _ _ h

theorem canonical_setB {s : State} (f : Field) (b : Bool) (h : s.canonical) : (setB f b s).canonical := canonical_setReg _ _ h

theorem canonical_setRegBit {s : State} (a k : Nat) (b : Bool) (h : s.canonical) : (setRegBit a k b s).canonical := canonical_setReg _ _ h

theorem canonical_incSat {s : State} (f : Field) (h : s.canonical) : (incSat f s).canonical := canonical_setReg _ _ h

theorem canonical_addSat {s : State} (f : Field) (n : Nat) (h : s.canonical) : (addSat f n s).canonical := canonical_setReg _ _ h

/-! ## What a command changes -/

theorem Changes.refl (ps : List Part) (rs : Nat → Prop) (s : State) : Changes ps rs s s :=
  ⟨rfl, fun p _ => by cases p <;> rfl, fun _ _ => rfl⟩

theorem Changes.trans {ps qs : List Part} {rs rs' : Nat → Prop} {s t u : State} (h1 : Changes ps rs s t) (h2 : Changes qs rs' t u) :
    Changes (ps ++ qs) (fun a => rs a ∨ rs' a) s u := by
  refine ⟨h2.1.trans h1.1, fun p hp => ?_, fun a ha => ?_⟩
  · simp only [List.mem_append, not_or] at hp
    have a1 := h1.2.1 p hp.1
    have a2 := h2.2.1 p hp.2
    cases p <;> exact a2.trans a1
  · simp only [not_or] at ha
    exact (h2.2.2 a ha.2).trans (h1.2.2 a ha.1)

theorem Changes.mono {ps qs : List Part} {rs rs' : Nat → Prop} {s t : State} (h : Changes ps rs s t) (hp : ∀ p ∈ ps, p ∈ qs)
    (hr : ∀ a, rs a → rs' a) : Changes qs rs' s t :=
  ⟨h.1, fun p hq => h.2.1 p (fun hm => hq (hp p hm)), fun a ha => h.2.2 a (fun hm => ha (hr a hm))⟩

theorem Changes.setReg (a : Nat) (v : Word) (s : State) : Changes [] (· = a) s (setReg a v s) :=
  ⟨rfl, fun p _ => by cases p <;> rfl, fun _ hb => reg_setReg_other hb v s⟩

theorem Changes.setF (f : Field) (v : Nat) (s : State) : Changes [] (· = f.addr) s (setF f v s) := Changes.setReg _ _ s

theorem Changes.setB (f : Field) (b : Bool) (s : State) : Changes [] (· = f.addr) s (setB f b s) := Changes.setReg _ _ s

theorem Changes.setRegBit (a k : Nat) (b : Bool) (s : State) : Changes [] (· = a) s (setRegBit a k b s) := Changes.setReg _ _ s

theorem Changes.incSat (f : Field) (s : State) : Changes [] (· = f.addr) s (incSat f s) := Changes.setReg _ _ s

end Sys2Proof.Machine
end

