-- ==== Sys2Proof/Laws/Faults.lean ====
section
/-!
SUPPORT. Sys2Proof/Laws/Faults.lean: what the operations on fault sources and event bits can do: to the fault lines, the waiting events and the registers.
-/
namespace Sys2Proof.Machine

theorem mem_natPut (k b : Nat) (l : List Nat) : b ∈ natPut k l ↔ b = k ∨ b ∈ l := by
  induction l with
  | nil => simp [natPut]
  | cons a t ih =>
    simp only [natPut]
    split
    · simp
    · split
      · rename_i h1 h2; subst h2; simp
      · simp only [List.mem_cons, ih]; tauto

theorem natMem_iff (b : Nat) (l : List Nat) : natMem b l = true ↔ b ∈ l := by simp [natMem]

theorem natMem_natPut (k b : Nat) (l : List Nat) : natMem b (natPut k l) = (natMem b l || b == k) := by
  rw [Bool.eq_iff_iff, natMem_iff, mem_natPut, Bool.or_eq_true, natMem_iff, beq_iff_eq]; tauto

theorem natMem_natErase (k b : Nat) (l : List Nat) : natMem b (natErase k l) = (natMem b l && b != k) := by
  rw [Bool.eq_iff_iff, natMem_iff]; simp [natErase, natMem_iff]

/-! ## Registers -/

@[simp] theorem reg_pulse (src a : Nat) (s : State) : reg (pulse src s) a = reg s a := by unfold pulse; split <;> rfl

@[simp] theorem reg_setLine_true (src a : Nat) (s : State) : reg (setLine src true s) a = reg s a := by
  unfold setLine; rw [if_pos rfl]; split <;> rfl

@[simp] theorem reg_raise (src a : Nat) (s : State) : reg (raise src s) a = reg s a := by unfold raise; split <;> simp

/-- A source that ends touches no register but its word of `FLT_ACT`. -/
theorem reg_drop {src a : Nat} (h : a ≠ Reg.FLT_ACT (src / 32)) (s : State) : reg (drop src s) a = reg s a := by
  simp only [drop, setLine, Bool.false_eq_true, if_false]
  exact reg_setRegBit_other h _ _ _

theorem reg_follow {src a : Nat} (h : a ≠ Reg.FLT_ACT (src / 32)) (b : Bool) (s : State) : reg (follow src b s) a = reg s a := by
  unfold follow; split
  · simp
  · exact reg_drop h s

/-- Event bits touch no register but the block's event register. -/
theorem reg_setEvt {b : EvtBlock} {a : Nat} (h : a ≠ b.evt) (bits : Nat) (s : State) : reg (setEvt b bits s) a = reg s a := by
  unfold setEvt; dsimp only; split
  · exact reg_setReg_other h _ _
  · exact reg_setReg_other h _ _

/-! ## Lines -/

@[simp] theorem muted_setLine (src k : Nat) (b : Bool) (s : State) : muted src (setLine k b s) = muted src s := by
  unfold muted; rw [setLine_cms]

@[simp] theorem pulse_lines (src : Nat) (s : State) : (pulse src s).flt.lines = s.flt.lines := by unfold pulse; split <;> rfl

theorem pulse_waiting (src : Nat) (s : State) (h : muted src s = false) : (pulse src s).flt.waiting = s.flt.waiting ++ [src] := by
  unfold pulse; rw [if_neg (by simp [h])]

@[simp] theorem setLine_waiting (src : Nat) (b : Bool) (s : State) : (setLine src b s).flt.waiting = s.flt.waiting := by
  unfold setLine; split
  · split <;> rfl
  · rfl

theorem setLine_lines (src : Nat) (s : State) (h : muted src s = false) : (setLine src true s).flt.lines = natPut src s.flt.lines := by
  unfold setLine; rw [if_pos rfl, if_neg (by simp [h])]

/-- A source that is raised stands active. -/
theorem natMem_raise (src : Nat) (s : State) (h : muted src s = false) : natMem src (raise src s).flt.lines = true := by
  unfold raise; split
  · assumption
  · rw [pulse_lines, setLine_lines src s h, natMem_natPut]; simp

/-- A source that ends stands inactive. -/
theorem natMem_drop (src : Nat) (s : State) : natMem src (drop src s).flt.lines = false := by
  simp [drop, setLine, natMem_natErase]

/-- A source that becomes active reports one event; one that stands active already reports none (R492). -/
theorem waiting_raise (src : Nat) (s : State) (h : muted src s = false) :
    (raise src s).flt.waiting = if natMem src s.flt.lines then s.flt.waiting else s.flt.waiting ++ [src] := by
  unfold raise; split
  · rfl
  · rw [pulse_waiting _ _ (by simp [h]), setLine_waiting]

/-! ## What they change -/

theorem Changes.pulse (src : Nat) (s : State) : Changes [.flt] (fun _ => False) s (pulse src s) :=
  ⟨by simp, fun p hp => by cases p <;> simp_all [Part.same], fun a _ => by simp⟩

theorem Changes.raise (src : Nat) (s : State) : Changes [.flt] (fun _ => False) s (raise src s) :=
  ⟨by simp, fun p hp => by cases p <;> simp_all [Part.same], fun a _ => by simp⟩

theorem Changes.drop (src : Nat) (s : State) : Changes [.flt] (· = Reg.FLT_ACT (src / 32)) s (drop src s) :=
  ⟨by simp, fun p hp => by cases p <;> simp_all [Part.same], fun a ha => reg_drop ha s⟩

theorem Changes.follow (src : Nat) (b : Bool) (s : State) : Changes [.flt] (· = Reg.FLT_ACT (src / 32)) s (follow src b s) :=
  ⟨by simp, fun p hp => by cases p <;> simp_all [Part.same], fun a ha => reg_follow ha b s⟩

theorem Changes.setEvt (b : EvtBlock) (bits : Nat) (s : State) : Changes [.fab] (· = b.evt) s (setEvt b bits s) :=
  ⟨by simp, fun p hp => by cases p <;> simp_all [Part.same], fun a ha => reg_setEvt ha bits s⟩

/-! ## The canonical form -/

theorem canonical_of_same {s t : State} (hr : t.regs = s.regs) (hc : t.cal = s.cal) (h : s.canonical) : t.canonical := by
  unfold State.canonical; rw [hr, hc]; exact h

theorem canonical_pulse {s : State} (src : Nat) (h : s.canonical) : (pulse src s).canonical := by
  refine canonical_of_same ?_ ?_ h <;> (unfold pulse; split <;> rfl)

theorem canonical_setLine {s : State} (src : Nat) (b : Bool) (h : s.canonical) : (setLine src b s).canonical := by
  unfold setLine; split
  · split
    · exact h
    · exact h
  · exact canonical_setRegBit _ _ _ h

theorem canonical_raise {s : State} (src : Nat) (h : s.canonical) : (raise src s).canonical := by
  unfold raise; split
  · exact h
  · exact canonical_pulse _ (canonical_setLine _ _ h)

theorem canonical_drop {s : State} (src : Nat) (h : s.canonical) : (drop src s).canonical := canonical_setLine _ _ h

theorem canonical_follow {s : State} (src : Nat) (b : Bool) (h : s.canonical) : (follow src b s).canonical := by
  unfold follow; split
  · exact canonical_raise _ h
  · exact canonical_drop _ h

theorem canonical_setEvt {s : State} (b : EvtBlock) (bits : Nat) (h : s.canonical) : (setEvt b bits s).canonical := by
  unfold setEvt; dsimp only; split <;> exact canonical_setReg _ _ h

end Sys2Proof.Machine
end

