-- ==== Sys2Proof/Laws/Nvm.lean ====
section
/-!
SUPPORT. Sys2Proof/Laws/Nvm.lean: what programming and erasing do to the bytes of NVM, and that both keep its canonical form.
-/
namespace Sys2Proof.Machine

theorem nvmPut_get (o a : Nat) (b : Byte) (m : List (Nat × Byte)) :
    (assoc a (nvmPut o b m)).getD 0xFF#8 = if a = o then b else (assoc a m).getD 0xFF#8 := by
  unfold nvmPut
  split
  · next h => by_cases e : a = o <;> simp [assoc_assocErase, e, h]
  · by_cases e : a = o <;> simp [assoc_assocPut, e]

theorem nvmPut_wf (o : Nat) (b : Byte) (m : List (Nat × Byte)) (h : Memory.wf 0xFF#8 m = true) : Memory.wf 0xFF#8 (nvmPut o b m) = true := by
  simp only [Memory.wf, Bool.and_eq_true, List.all_eq_true] at h ⊢
  unfold nvmPut
  split
  · exact ⟨assocSorted_assocErase o m h.1, fun e he => h.2 e (mem_assocErase he)⟩
  · next hb =>
    refine ⟨assocSorted_assocPut o b m h.1, fun e he => ?_⟩
    rcases mem_assocPut he with rfl | hm
    · simpa using hb
    · exact h.2 e hm

theorem nvmFill_wf (o : Nat) (bs : List Byte) (m : List (Nat × Byte)) (h : Memory.wf 0xFF#8 m = true) : Memory.wf 0xFF#8 (nvmFill o bs m) = true := by
  induction bs generalizing o m with
  | nil => exact h
  | cons b t ih => exact ih (o + 1) _ (nvmPut_wf o b m h)

/-- A byte after a fill: the byte written there, else the byte before. -/
theorem nvmFill_get (o a : Nat) (bs : List Byte) (m : List (Nat × Byte)) :
    (assoc a (nvmFill o bs m)).getD 0xFF#8 = if o ≤ a then (bs[a - o]?).getD ((assoc a m).getD 0xFF#8) else (assoc a m).getD 0xFF#8 := by
  induction bs generalizing o m with
  | nil => simp [nvmFill]
  | cons b t ih =>
    simp only [nvmFill, ih, nvmPut_get]
    by_cases h1 : a = o
    · subst h1; simp
    · by_cases h2 : o + 1 ≤ a
      · have h3 : a - o = (a - (o + 1)) + 1 := by omega
        simp [h1, h2, h3, show o ≤ a by omega]
      · simp [h1, h2, show ¬ o ≤ a by omega]

theorem canonical_nvmWrite {s : State} (o : Nat) (bs : List Byte) (h : s.canonical) : (nvmWrite o bs s).canonical :=
  ⟨h.1, nvmFill_wf o bs _ h.2⟩

theorem canonical_nvmErase {s : State} (a b : Nat) (h : s.canonical) : (nvmErase a b s).canonical := by
  have h2 := h.2
  simp only [Memory.wf, Bool.and_eq_true, List.all_eq_true] at h2
  refine ⟨h.1, ?_⟩
  simp only [Memory.wf, nvmErase, Bool.and_eq_true, List.all_eq_true]
  exact ⟨assocSorted_filter _ _ h2.1, fun e he => h2.2 e (List.mem_of_mem_filter he)⟩

theorem canonical_reset : State.reset.canonical := ⟨rfl, rfl⟩

end Sys2Proof.Machine
end

