-- ==== Sys2Proof/Laws/HostErrors.lean ====
section
/-!
SUPPORT. Sys2Proof/Laws/HostErrors.lean: everything a host error can do (R6): what it leaves alone, and that the result keeps the canonical form
whatever the free state is.
-/
namespace Sys2Proof.Machine

theorem assoc_filter {β : Type} (p : Nat → Bool) (a : Nat) (h : p a = true) (l : List (Nat × β)) : assoc a (l.filter (fun e => p e.1)) = assoc a l := by
  induction l with
  | nil => rfl
  | cons e t ih =>
    by_cases hp : p e.1
    · simp only [List.filter_cons, hp, if_true, assoc, ih]
    · have he : e.1 ≠ a := fun he => hp (he ▸ h)
      simpa [List.filter_cons, hp, assoc, he] using ih

theorem get_foldl_set (p : Nat → Bool) (a : Nat) (h : p a = true) (w m : List (Nat × Word)) :
    RegFile.get (w.foldl (fun l e => if p e.1 then l else RegFile.set l e.1 e.2) m) a = RegFile.get m a := by
  induction w generalizing m with
  | nil => rfl
  | cons e t ih =>
    rw [List.foldl_cons, ih]
    split
    · rfl
    · rw [RegFile.get_set, if_neg]
      rintro rfl
      contradiction

/-- A host error leaves alone what R6 keeps in force. -/
theorem upset_sheltered (s : State) : Sheltered s (upset s) := by
  refine ⟨rfl, ?_, rfl, rfl, fun a ha => ?_⟩
  · simp [Part.same, upset]
  · exact (get_foldl_set _ a ha _ _).trans (congrArg (fun o => Option.getD o (resetOf a)) (assoc_filter _ a ha s.regs))

theorem wf_foldl_set (p : Nat → Bool) (w m : List (Nat × Word)) (h : RegFile.wf m = true) :
    RegFile.wf (w.foldl (fun l e => if p e.1 then l else RegFile.set l e.1 e.2) m) = true := by
  induction w generalizing m with
  | nil => exact h
  | cons e t ih =>
    refine ih _ ?_
    dsimp only
    split
    · exact h
    · exact RegFile.wf_set _ _ _ h

theorem wf_foldl_nvmPut (w m : List (Nat × Byte)) (h : Memory.wf 0xFF#8 m = true) : Memory.wf 0xFF#8 (w.foldl (fun m e => nvmPut e.1 e.2 m) m) = true := by
  induction w generalizing m with
  | nil => exact h
  | cons e t ih => exact ih _ (nvmPut_wf _ _ _ h)

/-- A host error keeps the canonical form. -/
theorem canonical_upset {s : State} (h : s.canonical) : (upset s).canonical :=
  ⟨wf_foldl_set _ _ _ (RegFile.wf_filter _ _ h.1), wf_foldl_nvmPut _ _ rfl⟩

end Sys2Proof.Machine
end

