-- ==== Sys2Proof/Laws/Ports.lean ====
section
/-!
SUPPORT. Sys2Proof/Laws/Ports.lean: entries of lists after an update, and the hidden state of a port after an update of a port.
-/
namespace Sys2Proof.Machine

@[simp] theorem nth_setNth_same {α : Type} [Inhabited α] (l : List α) (i : Nat) (v d : α) : nth (setNth l i v) i d = v := by
  induction i generalizing l with
  | zero => cases l <;> rfl
  | succ i ih =>
    cases l with
    | nil => simpa [nth, setNth] using ih []
    | cons a t => simpa [nth, setNth] using ih t

theorem nth_setNth_other {α : Type} [Inhabited α] (l : List α) {i j : Nat} (h : j ≠ i) (v d : α) (hj : j < l.length) :
    nth (setNth l i v) j d = nth l j d := by
  induction l generalizing i j with
  | nil => simp at hj
  | cons a t ih =>
    cases i with
    | zero =>
      cases j with
      | zero => exact absurd rfl h
      | succ j => simp [nth, setNth]
    | succ i =>
      cases j with
      | zero => simp [nth, setNth]
      | succ j => simpa [nth, setNth] using ih (i := i) (j := j) (by omega) (by simpa using hj)

theorem length_setNth {α : Type} [Inhabited α] (l : List α) (i : Nat) (v : α) : (setNth l i v).length = max l.length (i + 1) := by
  induction i generalizing l with
  | zero => cases l <;> simp [setNth]
  | succ i ih =>
    cases l with
    | nil => simp [setNth, ih]
    | cons a t => simp [setNth, ih]

theorem nth_range_map {α : Type} (f : Nat → α) (n m : Nat) (d : α) (h : m < n) : nth ((List.range n).map f) m d = f m := by
  simp [nth, h]

/-- A port's hidden state after a change of a port's. -/
theorem port_modPort (n m : Nat) (h : m < 4) (f : PortState → PortState) (s : State) :
    port m (modPort n f s) = if m = n then f (port n s) else port m s :=
  nth_range_map (fun m => if m = n then f (port n s) else port m s) 4 m _ h

/-- A port's delay state after a change of a port's. -/
theorem delayOf_modDelay (n m : Nat) (h : m < 4) (f : DelayState → DelayState) (s : State) :
    delayOf m (modDelay n f s) = if m = n then f (delayOf n s) else delayOf m s :=
  nth_range_map (fun m => if m = n then f (delayOf n s) else delayOf m s) 4 m _ h

@[simp] theorem reg_modPort (n : Nat) (f : PortState → PortState) (s : State) (a : Nat) : reg (modPort n f s) a = reg s a := rfl
@[simp] theorem reg_modDelay (n : Nat) (f : DelayState → DelayState) (s : State) (a : Nat) : reg (modDelay n f s) a = reg s a := rfl

theorem Changes.modPort (n : Nat) (f : PortState → PortState) (s : State) : Changes [.lnk] (fun _ => False) s (modPort n f s) :=
  ⟨rfl, fun p hp => by cases p <;> first | rfl | simp at hp, fun _ _ => rfl⟩

theorem Changes.modDelay (n : Nat) (f : DelayState → DelayState) (s : State) : Changes [.tbs] (fun _ => False) s (modDelay n f s) :=
  ⟨rfl, fun p hp => by cases p <;> first | rfl | simp at hp, fun _ _ => rfl⟩

end Sys2Proof.Machine
end

