-- ==== Sys2Proof/WellFormed.lean ====
section
/-!
DEFINITION. Sys2Proof/WellFormed.lean: which commands the environment can give: numbers within the ranges that the spec names, and lists of
the length that the spec's channels, cells and sensors have. The meanings are total on every other operand too.
-/
namespace Sys2Proof

/-- The header fields of a frame fit their fields, and its payload the limit of its class (R351, R354). -/
def Frame.wf (f : Frame) : Bool :=
  decide (f.hop < 32) && decide (f.src < 1024) && decide (f.dst < 1024) && decide (f.epoch < 256) && decide (f.tag < 256)
    && decide (f.payload.length ≤ (if f.cls = .a then 16 else 256))

/-- A requester names a node by an ID (R384). -/
def Requester.wf : Requester → Bool
  | .node id => decide (id < 1024)
  | _ => true

/-- A ticket of a fabric request carries header fields that fit (R351, R390). -/
def Ticket.wf : Ticket → Bool
  | .fabric src tag epoch _ _ rhop _ => decide (src < 1024) && decide (tag < 256) && decide (epoch < 256) && decide (rhop < 32)
  | _ => true

/-- A cell number (1 to 24) and a channel number (0 to 24). -/
def cellNo (n : Nat) : Bool := decide (1 ≤ n) && decide (n ≤ 24)
def channelNo (n : Nat) : Bool := decide (n ≤ 24)

/-- A list has the length that the spec gives it. -/
def sized {α : Type} (l : List α) (n : Nat) : Bool := l.length == n

/-- A sample of the internal stream holds the 25 channels (R200, R201). -/
def ImpSample.wf (x : ImpSample) : Bool := sized x.codes 25

/-- A conversion returns a code of 16 bits, unsigned or signed (R142). -/
def Conversion.wf (c : Conversion) : Bool := decide (-32768 ≤ c.raw) && decide (c.raw ≤ 65535)

/-- The slots of a converter in an XB frame (R143, R144): at most 50 slots of 20 conversions. -/
def slotsWf (l : List (List Conversion)) : Bool :=
  decide (l.length ≤ 50) && l.all (fun x => decide (x.length ≤ 20) && x.all Conversion.wf)

/-- Whether a command's operands lie in their ranges. -/
def Instr.wf : Instr → Bool
  | .registerWrite req _ words sets => req.wf && decide (words.length ≤ 256) && decide (sets.length ≤ words.length)
  | .registerReadClear req _ n gains => req.wf && decide (gains.length ≤ n.val)
  | .harnessWireChange wire _ => decide (wire ≤ 24)
  | .linkWakeDetect port => decide (port ≤ 1)
  | .wordBoundary outs _ => sized outs 25
  | .recordValueRead req a => req.wf && decide (a < 0x20000) && a % 8 == 0
  | .recordTagRead req a => req.wf && decide (a < 0x20000) && a % 8 == 0
  | .hwidxRead req => req.wf
  | .modulatorOverload c => channelNo c
  | .modulatorStuck c => channelNo c
  | .filterParityFail c => channelNo c
  | .intervalBoundary prim => sized prim 24
  | .xbFrameEnd xa xb => slotsWf xa && slotsWf xb
  | .suspectHoldExpiry k => cellNo k
  | .harnessMeasurementStart tk => tk.wf
  | .windowClose samples => samples.all ImpSample.wf
  | .pairTickReceive src epoch _ => decide (src < 1024) && decide (epoch < 256)
  | .comparatorTrip n _ => cellNo n
  | .comparatorRelease n _ => cellNo n
  | .switchOvercurrent n => cellNo n
  | .switchCheck n _ => cellNo n
  | .checkSampleEnd means => sized means 4
  | .shsTestPartEnd means _ _ => sized means 4
  | .switchingPeriod sense valley _ _ => sized sense 4 && sized valley 4
  | .readRequest _ f => f.wf
  | .writeRequest _ f => f.wf
  | .probe _ f => f.wf
  | .assign _ f => f.wf
  | .routes _ f => f.wf
  | .sessionOpen _ f => f.wf
  | .sessionClose _ f => f.wf
  | .sessionResume _ f => f.wf
  | .sessionSuspend _ f => f.wf
  | .cplReceive _ f => f.wf
  | .probeReportReceive _ f => f.wf
  | .beatReceive _ f => f.wf
  | .statusReceive _ f => f.wf
  | .linkdownReceive _ f => f.wf
  | .linkupReceive _ f => f.wf
  | .leaveReceive _ f => f.wf
  | .roleendReceive _ f => f.wf
  | .streamFrameReceive _ f => f.wf
  | .eventFrameReceive _ f => f.wf
  | .alarmReceive _ f => f.wf
  | .delayRequestReceive _ f _ => f.wf
  | .delayResponseReceive _ f _ => f.wf
  | .announceReceive _ f => f.wf
  | .reinReceive _ f => f.wf
  | .enumFull tk => tk.wf
  | .enumVerify tk => tk.wf
  | .enumRecover tk => tk.wf
  | .logClear tk => tk.wf
  | .run tk => tk.wf
  | .hsave tk => tk.wf
  | .psave _ tk => tk.wf
  | .pselect _ tk => tk.wf
  | .tsave tk => tk.wf
  | .patch tk => tk.wf
  | .lifecycleChange _ _ tk => tk.wf
  | .lockArm req _ _ => req.wf
  | .lock req _ _ => req.wf
  | .descriptorFetch descs => decide (descs.length ≤ 8) && descs.all (fun d => sized d 16)
  | .write dma => decide (dma.length ≤ 256)
  | .temperatureSample dies biasOk => sized dies 3 && sized biasOk 3
  | .calZeroPhaseEnd zero => sized zero 113
  | .calReferencePhaseEnd first second _ _ => sized first 113 && sized second 113
  | .gen1Write _ _ _ words => decide (1 ≤ words.length) && decide (words.length ≤ 16)
  | _ => true

end Sys2Proof
end

