-- ==== Sys2Proof/Tests/Slice0.lean ====
section
/-!
SUPPORT. Sys2Proof/Tests/Slice0.lean: ill-formed commands that the checks refuse, worked examples of the spec, and for every statement the
states and operands that meet its hypotheses.
-/
open Sys2Proof Sys2Proof.Machine
namespace Sys2Proof.Tests

set_option maxRecDepth 20000

/-! ## Small states -/

/-- The device in ACTIVE, everything else as after reset. -/
def up : State := { State.reset with sys := { State.reset.sys with phase := .active } }

def onSys (f : SysState → SysState) (s : State) : State := { s with sys := f s.sys }
def onCms (f : CmsState → CmsState) (s : State) : State := { s with cms := f s.cms }
def onXck (f : XckState → XckState) (s : State) : State := { s with xck := f s.xck }
def onImp (f : ImpState → ImpState) (s : State) : State := { s with imp := f s.imp }
def onCpb (f : CpbState → CpbState) (s : State) : State := { s with cpb := f s.cpb }
def onFlt (f : FltState → FltState) (s : State) : State := { s with flt := f s.flt }
def onLnk (f : LnkState → LnkState) (s : State) : State := { s with lnk := f s.lnk }
def onFab (f : FabState → FabState) (s : State) : State := { s with fab := f s.fab }
def onHst (f : HstState → HstState) (s : State) : State := { s with hst := f s.hst }
def onCnv (f : CnvState → CnvState) (s : State) : State := { s with cnv := f s.cnv }
def onCtl (f : CtlState → CtlState) (s : State) : State := { s with ctl := f s.ctl }
def onTbs (f : TbsState → TbsState) (s : State) : State := { s with tbs := f s.tbs }
def onCal (f : CalState → CalState) (s : State) : State := { s with cal := f s.cal }
def onThm (f : ThmState → ThmState) (s : State) : State := { s with thm := f s.thm }
def onBst (f : BstState → BstState) (s : State) : State := { s with bst := f s.bst }
def onPins (f : Pins → Pins) (s : State) : State := { s with pins := f s.pins }

/-- A plan of one legal entry, with the converter in RUN in the transfer class. -/
def planOk : State :=
  up |> setF (Reg.IMP_PLAN_W0_FREQ 0) 50 |> setF (Reg.IMP_PLAN_W1_AMP 0) 5000 |> setF (Reg.IMP_PLAN_W2_INTEG 0) 1 |>
    setB Reg.CMS_STAT_TBLOCK true |> setF Reg.CNV_STAT_STATE 4 |> setF Reg.CNV_CFG_CLASS 2

/-- Both comparators of every cell on. -/
def watch : State := onCms ({ · with unused := some false }) up |> setReg Reg.CPB_CELLEN 0x1FFFFFE#32 |> setB Reg.CPB_CFG_OVEN true |> setB Reg.CPB_CFG_UVEN true

/-- A harness measurement whose intervals are over. -/
def doneRun : HarnessRun := ⟨.direct, none, 192, List.replicate 24 0, List.replicate 25 0, List.replicate 25 0, List.replicate 24 0⟩

/-- A converter whose START passes every check but the class. -/
def cnvReady : State := onCnv ({ · with vmod := 96000 }) up

/-- A node whose home set 0 leads over port 3, which is UP, to gateway 7. -/
def homed : State :=
  up |> setF (Reg.LNK_PSTAT_STATE 3) 3 |> setReg (Reg.FAB_HOME_PROUTE 0) 3#32 |> setF (Reg.FAB_HOME_HCTL_PHOP 0) 2 |>
    setF (Reg.FAB_HOME_HCTL_GWID 0) 7 |> setB (Reg.FAB_HOME_HCTL_VALID 0) true

/-- A gateway. -/
def gate : State := setB Reg.HST_STAT_ROLE true up

/-- A request by route word from gateway 7 that its reply reaches over port 3 in one hop. -/
def reqFrame (t : FrameType) (body : List Word) : Frame := ⟨t, .c, .routeWord, 0#32, 0, 7, 1023, 0, 9, [3#32, 0x40001#32] ++ body⟩

/-- A HOOF frame of a kind from node 5. -/
def hoofOf (kind : Nat) (w1 : Word) : Frame :=
  ⟨.hoof, .a, .broadcast, 0#32, 0, 5, 1023, 0, 0, [BitVec.ofNat 32 (kind + 0x80050000), w1, 0#32, 0#32]⟩

/-- An open session of one channel and one instant a frame. -/
def openSession : Session := ⟨0, 0, 1, 1#32, 1, 0, 0#32, [], 0⟩

/-- A run that waits for one probe. -/
def probing : EnumRun := ⟨1, none, false, [⟨0#32, 0#32, [], [], none, 1, false, 0, [none, none, none, some 2], [none, none, none, none]⟩], [], [(5, 0, 3)], false, false, [], false, []⟩

/-- A request of host command 4 that has left with tag 9. -/
def sentReq : Req := ⟨9, some 4, none, reqFrame .read [0#32, 1#32], 1, false, 0, some 0, 0⟩

/-- The host command of `sentReq`. -/
def cmd4 : HostCmd := ⟨4, List.replicate 16 0#32, [], true, 0⟩

/-- A gateway of generation 2. -/
def gate2 : State := onHst ({ · with spi := 2 }) gate |> setF Reg.HST_STAT_GEN 2

/-- A gateway of generation 3 with its link in L0 and Bus Master Enable set. -/
def gate3 : State :=
  onHst (fun h => { h with pcie := { h.pcie with busMaster := true } }) gate |> setF Reg.HST_STAT_GEN 3 |> setB Reg.HST_STAT_L0 true

/-- `gate3` with one ring of 256 entries or units in use. -/
def ring3 (r : Nat) : State := gate3 |> setF (Reg.HST_RSIZE_SIZE r) 256 |> setB (Reg.HST_RCFG_EN r) true

/-- The bytes of a NOP descriptor in a CMD frame. -/
def nopBytes : List Byte := withCrc (List.replicate 64 0#8)

/-- Bytes as the bits that SDI carries. -/
def bitsOf (l : List Byte) : List Bool := l.flatMap (fun b => (List.range 8).map (fun i => b.getLsbD (7 - i)))

/-- A descriptor by its words 0, 1, 3, 4 and 7. -/
def descOf (w0 w1 w3 w4 w7 : Word) : List Word := [w0, w1, 0#32, w3, w4, 0#32, 0#32, w7] ++ List.replicate 8 9#32

/-- A command with a descriptor that has not begun. -/
def cmdOf (d : List Word) : HostCmd := ⟨4, d, [], false, 0⟩

/-- `gate2` with one waiting command. -/
def host (d : List Word) : State := onHst ({ · with cmds := [cmdOf d] }) gate2

/-- A completion that waits. -/
def doneCpl : HostDone := ⟨7, .ok, 0, false, false, false, none, 0, 0, 0, 0#32, [], 0⟩

/-- A device of the legacy chain. -/
def chain : State := up |> setB Reg.LNK_STAT_LEGACY true |> setF (Reg.LNK_PSTAT_STATE 0) 5 |> setF (Reg.LNK_PSTAT_STATE 1) 5

/-- A DELAY frame: KIND and SEQ, STATE/PLINK/HOPS byte, T2 and TURN. -/
def delayFrame (ks b t2 turn : Nat) : Frame :=
  ⟨.delay, .a, .linkLocal, 0#32, 0, 5, 1023, 0, 0, [BitVec.ofNat 32 (ks + 256 * b), BitVec.ofNat 32 t2, BitVec.ofNat 32 (t2 / 2 ^ 32), BitVec.ofNat 32 turn]⟩

/-- A node whose parent is on port 3, at state `c`. -/
def child (c : Nat) : State :=
  onTbs (fun x => { x with parent := true, ports := List.replicate 3 DelayState.reset ++ [{ DelayState.reset with asked := some 4, sent := some 1000000000, seq := 5 }] })
    (up |> setF (Reg.LNK_PSTAT_STATE 3) 3 |> setF Reg.TBS_STAT_PARENT 3 |> setF Reg.TBS_STAT_STATE c |> setF Reg.TBS_STAT_HOPS 3)

/-- A REIN frame from node 5, count 9, source 3. -/
def reinFrame (t : Nat) : Frame :=
  ⟨.rein, .b, .broadcast, 0#32, 0, 5, 1023, 0, 0, [BitVec.ofNat 32 t, BitVec.ofNat 32 (t / 2 ^ 32), 0x03098005#32, 0#32]⟩

/-- A device in life-cycle state CALIBRATE. -/
def bench : State := setF Reg.BST_LCSTAT_STATE 1 up

/-- A calibration run in phase `p`. -/
def calib (p : Nat) (w : Option Bool) : State :=
  onCal ({ · with run := some ⟨.direct, [], 0, [], [], 0x40000000#32, 0x40000000#32, w, 0⟩, span := [(0, none)] }) { bench with now := 2050 * ms } |> setF Reg.CAL_STAT_PHASE p

/-- A write of four bytes of NVM in progress for a job. -/
def writing (j : NvmJob) (base : Nat) : State := onCal ({ · with op := some ⟨j, base, [1#8, 2#8, 3#8, 4#8], [], some .direct⟩ }) bench

/-- A self-test run inside an item. -/
def memRun (i segs : Nat) (w : Option Nat) : BstRun := ⟨false, false, [18], some i, 0, segs, 0, w, false, false, false⟩

/-- A self-test run with no item left. -/
def idleRun : BstRun := ⟨false, false, [], none, 0, 0, 0, none, false, false, false⟩

/-- The profile one unit above its target, with a speed that passes it in one tick, and limits of 0. -/
def arriving : State :=
  onCtl ({ · with x := 1, v := -1000000 }) up |> setF Reg.CNV_STAT_STATE 3 |> setReg Reg.CTL_SMAX 0#32 |> setReg Reg.CTL_AMAX 0#32 |>
    setReg Reg.CTL_JMAX 0#32 |> setReg Reg.CTL_LIM 0#32

/-! ## Ill-formed commands -/

/-- A frame with a hop count that no frame can carry. -/
def badFrame : Frame := ⟨.hoof, .a, .broadcast, 0#32, 32, 5, 1023, 0, 0, []⟩

/-- A frame whose payload is too long, and ones with a number that its field cannot hold. -/
def badFrames : List Frame :=
  [badFrame, { badFrame with hop := 0, src := 1024 }, { badFrame with hop := 0, dst := 1024 }, { badFrame with hop := 0, epoch := 256 },
   { badFrame with hop := 0, tag := 256 }, { badFrame with hop := 0, payload := List.replicate 512 0#32 }]

/-- Tickets with a number that its field cannot hold. -/
def badTickets : List Ticket :=
  [.fabric 1024 0 0 .c 0#32 1 false, .fabric 0 256 0 .c 0#32 1 false, .fabric 0 0 256 .c 0#32 1 false, .fabric 0 0 0 .c 0#32 32 false]

theorem test_refused_frames : badFrames.all (fun f => !f.wf) = true := by decide

theorem test_refused_tickets : badTickets.all (fun t => !t.wf) = true := by decide

theorem test_refused_requester : (Requester.node 1024).wf = false := by decide

theorem test_refused_frame_commands : ([.readRequest 0 badFrame, .writeRequest 0 badFrame, .probe 0 badFrame, .assign 0 badFrame, .routes 0 badFrame,
    .sessionOpen 0 badFrame, .sessionClose 0 badFrame, .sessionResume 0 badFrame, .sessionSuspend 0 badFrame, .cplReceive 0 badFrame,
    .probeReportReceive 0 badFrame, .beatReceive 0 badFrame, .statusReceive 0 badFrame, .linkdownReceive 0 badFrame, .linkupReceive 0 badFrame,
    .leaveReceive 0 badFrame, .roleendReceive 0 badFrame, .streamFrameReceive 0 badFrame, .eventFrameReceive 0 badFrame, .alarmReceive 0 badFrame,
    .delayRequestReceive 0 badFrame 0, .delayResponseReceive 0 badFrame 0, .announceReceive 0 badFrame, .reinReceive 0 badFrame] :
    List Instr).all (fun c => !c.wf) = true := by decide

theorem test_refused_ticket_commands : ([.harnessMeasurementStart (.fabric 1024 0 0 .c 0#32 1 false), .enumFull (.fabric 1024 0 0 .c 0#32 1 false),
    .enumVerify (.fabric 1024 0 0 .c 0#32 1 false), .enumRecover (.fabric 1024 0 0 .c 0#32 1 false), .logClear (.fabric 1024 0 0 .c 0#32 1 false),
    .run (.fabric 1024 0 0 .c 0#32 1 false), .hsave (.fabric 1024 0 0 .c 0#32 1 false), .psave 0 (.fabric 1024 0 0 .c 0#32 1 false),
    .pselect 0 (.fabric 1024 0 0 .c 0#32 1 false), .tsave (.fabric 1024 0 0 .c 0#32 1 false), .patch (.fabric 1024 0 0 .c 0#32 1 false),
    .lifecycleChange 1 false (.fabric 1024 0 0 .c 0#32 1 false)] : List Instr).all (fun c => !c.wf) = true := by decide

theorem test_refused_requester_commands : ([.registerWrite (.node 1024) 0 [] [], .registerReadClear (.node 1024) 0 1 [], .recordValueRead (.node 1024) 0x1100,
    .recordTagRead (.node 1024) 0x1100, .hwidxRead (.node 1024), .lockArm (.node 1024) true true, .lock (.node 1024) true true] : List Instr).all
    (fun c => !c.wf) = true := by decide

theorem test_refused_numbers : ([.registerWrite .hk 0 (List.replicate 257 0#32) [], .registerWrite .hk 0 [0#32] [0#32, 0#32], .registerReadClear .hk 0 1 [0#32, 0#32], .harnessWireChange 25 true, .linkWakeDetect 2, .recordValueRead .hk 0x20000,
    .recordValueRead .hk 0x1104, .recordTagRead .hk 0x20000, .recordTagRead .hk 0x1104, .modulatorOverload 25, .modulatorStuck 25, .filterParityFail 25,
    .suspectHoldExpiry 0, .suspectHoldExpiry 25, .pairTickReceive 1024 0 0#32, .pairTickReceive 0 256 0#32, .comparatorTrip 0 true, .comparatorTrip 25 true,
    .comparatorRelease 0 true, .comparatorRelease 25 true, .switchOvercurrent 0, .switchOvercurrent 25, .switchCheck 0 0, .switchCheck 25 0] :
    List Instr).all (fun c => !c.wf) = true := by decide

theorem test_refused_lengths : ([.wordBoundary [0] false, .intervalBoundary [[0]], .windowClose [⟨0, [0]⟩],
    .xbFrameEnd (List.replicate 51 []) [], .xbFrameEnd [] [List.replicate 21 ⟨0, 0⟩], .xbFrameEnd [[⟨65536, 0⟩]] [], .xbFrameEnd [[⟨-32769, 0⟩]] [],
    .checkSampleEnd [0], .shsTestPartEnd [0] 0 0, .switchingPeriod [0] [0, 0, 0, 0] 0 0, .switchingPeriod [0, 0, 0, 0] [0] 0 0,
    .descriptorFetch (List.replicate 9 (List.replicate 16 0#32)), .descriptorFetch [[0#32]], .write (List.replicate 257 0#32),
    .temperatureSample [0] [true, true, true], .temperatureSample [0, 0, 0] [true], .calZeroPhaseEnd [0],
    .calReferencePhaseEnd [0] (List.replicate 113 0) 0#32 0#32, .calReferencePhaseEnd (List.replicate 113 0) [0] 0#32 0#32,
    .gen1Write 0 0 0 [], .gen1Write 0 0 0 (List.replicate 17 0)] : List Instr).all (fun c => !c.wf) = true := by decide

/-! ## Worked examples of the spec -/

/-- The state that a command leaves; the reset state where it stops, which no test below expects. -/
def after (c : Instr) (s : State) : State :=
  match exec c s with
  | .next t => t
  | _ => State.reset

/-- The words that the latest access returned. -/
def words (s : State) : List Word := (s.resp.map Resp.data).getD []

/-- R598's example: a locked target. -/
theorem test_locked_target_is_counted :
    let t := after (.registerWrite .hk 0x3038 [0xC350#32] []) (up |> setB Reg.SYS_LOCKSTAT_LTGT true |> setReg 0x3038 0xBD74#32)
    reg t 0x3038 = 0xBD74#32 ∧ reg t Reg.SYS_LOCKSTAT = 0x0100C0E1#32 := by decide

theorem test_lockstat_read_clears_viol :
    let t := after (.registerReadClear .hk 0x44 1 []) (setReg Reg.SYS_LOCKSTAT 0x0100C0E1#32 up)
    words t = [0x0100C0E1#32] ∧ reg t Reg.SYS_LOCKSTAT = 0x0000C0E1#32 := by decide

/-- The in-service run of spec/17, cut short at 5 ms. -/
def cutRun : State :=
  onBst ({ · with run := some ⟨false, false, [6, 16, 17], some 4, 1815040, 226, 0, none, false, false, false⟩ })
    (setF Reg.BST_STAT_RUNS 1 { up with now := 5000000 })

theorem test_aborted_route_table_record :
    let t := after .selftestAbort cutRun
    (List.range 4).map (fun w => reg t (Reg.BST_MREC (16 + w))) = [0xC0012223#32, 0x0004DB00#32, 0x00000C70#32, 0x000FFFFF#32] ∧
      getF Reg.BST_STAT_RESULT t = 0x0A := by decide

theorem test_history_bank_record :
    let t := after (.segmentTestDone none) (onBst ({ · with run := some ⟨false, false, [4], some 0, 12800, 127, 0, none, false, false, false⟩ })
      (setF Reg.BST_STAT_RUNS 1 { up with now := 1815040 }))
    (List.range 4).map (fun w => reg t (Reg.BST_MREC w)) = [0x600126AC#32, 0x0002C000#32, 0x0000070A#32, 0x000FFFFF#32] := by decide

/-- The node list of spec/11's cable cut. -/
theorem test_node_list_words : packList [0, 1, 2, 3, 4] = [0xC0200400#32, 0x00000400#32, 0#32, 0#32, 0#32] := by decide

/-- The balancing example of spec/07: cells 3, 4, 5 and 9. -/
def bleeding (half : Nat) : State :=
  { up with ft := half * 7812500 } |> onCms ({ · with unused := some false }) |> setReg Reg.CPB_BALCMD 0x238#32 |> setF Reg.CPB_BALCFG_DUTY 31

theorem test_first_half_closes_3_5_9 : reg (after .balancingHalfBoundary (bleeding 0)) Reg.CPB_BALSTAT = 0x228#32 := by decide

theorem test_second_half_closes_4_9 : reg (after .balancingHalfBoundary (bleeding 1)) Reg.CPB_BALSTAT = 0x210#32 := by decide

/-- The injection example of spec/14. -/
theorem test_report_only_injection_in_field :
    let t := after (.registerWrite .hk 0x6010 [0x00443201#32] []) (setF Reg.BST_LCSTAT_STATE 2 up)
    t.resp.map Resp.status = some .ok ∧ bit Reg.FLT_INJSTAT_ACTIVE t = true := by decide

theorem test_full_injection_denied_in_field :
    let t := after (.registerWrite .hk 0x6010 [0x01443201#32] []) (setF Reg.BST_LCSTAT_STATE 2 up)
    t.resp.map Resp.status = some .lifecycleDenied ∧ bit Reg.FLT_INJSTAT_ACTIVE t = false := by decide

/-- A read of the unknown offset of a block gives 0, and a write BAD_ADDRESS (R578). -/
theorem test_hole_write : (after (.registerWrite (.node 3) 0x0038 [1#32] []) up).resp.map Resp.status = some .badAddress := by decide

/-- The thermistor example of spec/15: 1.000000 V is 35.9 °C. -/
theorem test_thermistor : ntcTemp 1000000 0x1000 0x0D6B = some 359 := by decide

/-! ## The hypotheses of the statements can be met -/

theorem arriving_target : scaledTarget arriving = 0 := by
  have h1 : getF Reg.CTL_TGT_TGT arriving = 0 := by decide
  have h2 : getF Reg.CTL_LIM_NEG arriving = 0 := by decide
  have h3 : getF Reg.CTL_LIM_POS arriving = 0 := by decide
  simp [scaledTarget, h1, h2, h3, clampI, signed]
theorem arriving_next : (nextProfile arriving).x = 0 := by
  have h1 : getF Reg.CTL_SMAX_SMAX arriving = 0 := by decide
  have h2 : getF Reg.CTL_AMAX_AMAX arriving = 0 := by decide
  have h3 : getF Reg.CTL_JMAX_JMAX arriving = 0 := by decide
  have h4 : tickPeriod arriving = 20000 := by decide
  have h6 : isqrt 0 = 0 := by decide
  have h7 : ∀ z : Int, clampI z 0 0 = 0 := by
    intro z
    unfold clampI
    split
    · rfl
    · split <;> omega
  have h5 : arriving.ctl.x = 1 ∧ arriving.ctl.v = -1000000 ∧ arriving.ctl.a = 0 := by decide
  simp [nextProfile, profileTick, arriving_target, h1, h2, h3, h4, h5, h6, h7, fallingLimit, mag, openDiv, openSqrt]
  have h8 : max (0 : Int) 1000000 = 1000000 := by decide
  simp [clampI, h8]

theorem hyps_SupplyEvents :
    (∃ s : State, s.sys.vinAbove = true ∧ s.sys.vinAt + nth [1, 10, 100] (getF Reg.SYS_SUPCFG_VINQUAL s) 0 * ms ≤ s.now) ∧
    (∃ s : State, coreUp s = true) ∧
    (∃ s : State, coreUp s = true ∧ s.sys.leg.isSome = true) :=
    ⟨⟨onSys ({ · with vinAbove := true }) { State.reset with now := 10 * ms }, by decide⟩,
    ⟨up, by decide⟩,
    ⟨onSys ({ · with leg := some .vin }) up, by decide⟩⟩

theorem hyps_PinAndClockEvents :
    (∃ s : State, ∃ l, coreUp s = true ∧ s.sys.lcmPin ≠ l) ∧
    (∃ s : State, coreUp s = true) ∧
    (∃ s : State, coreUp s = true) ∧
    (∃ s : State, ∃ p, coreUp s = true ∧ bit (pllBit p) s = true) ∧
    (∃ s : State, s.sys.phase = .core) ∧
    (∃ s : State, coreUp s = true ∧ s.sys.wakeHigh = true ∧ getF Reg.SYS_PINCFG_WAKETO s ≠ 0 ∧ s.sys.wakeAt + getF Reg.SYS_PINCFG_WAKETO s * 1000 * ms ≤ s.now) ∧
    (∃ s : State, coreUp s = true ∧ s.sys.perstLow = true ∧ s.sys.perstSeenHigh = true ∧ getF Reg.SYS_PINCFG_PERSTTO s ≠ 0 ∧ s.sys.perstAt + getF Reg.SYS_PINCFG_PERSTTO s * 1000 * ms ≤ s.now) ∧
    (∃ s : State, s.now < s.sys.wakeAt + getF Reg.SYS_PINCFG_WAKETO s * 1000 * ms) ∧
    (∃ s : State, s.now < s.sys.perstAt + getF Reg.SYS_PINCFG_PERSTTO s * 1000 * ms) :=
    ⟨⟨up, true, by decide⟩,
    ⟨up, by decide⟩,
    ⟨up, by decide⟩,
    ⟨up |> setB Reg.SYS_CLKSTAT_CPLLLK true, .core, by decide⟩,
    ⟨onSys ({ · with phase := .core }) State.reset, by decide⟩,
    ⟨{ up with now := 1000 * ms } |> onSys ({ · with wakeHigh := true }) |> setF Reg.SYS_PINCFG_WAKETO 1, by decide⟩,
    ⟨{ up with now := 1000 * ms } |> onSys ({ · with perstLow := true, perstSeenHigh := true }) |> setF Reg.SYS_PINCFG_PERSTTO 1, by decide⟩,
    ⟨up, by decide⟩,
    ⟨up, by decide⟩⟩

theorem hyps_WakeEvents :
    (∃ s : State, 
     let apart := s.sys.lastWakeEdge.all (fun e => decide (e + 100 * ms ≤ s.now)) = true
     s.sys.phase = .shelf ∧ s.sys.wakeArmed = true ∧ apart) ∧
    (∃ s : State, 
     let apart := s.sys.lastWakeEdge.all (fun e => decide (e + 100 * ms ≤ s.now)) = true
     s.sys.phase = .sentinel ∧ s.sys.wakeArmed = true ∧ apart) ∧
    (∃ s : State, 
     let apart := s.sys.lastWakeEdge.all (fun e => decide (e + 100 * ms ≤ s.now)) = true
     s.sys.phase = .active ∧ s.sys.transition = none ∧ s.sys.wakeFrom = none ∧ s.sys.wakeArmed = true ∧ apart) ∧
    (∃ s : State, s.sys.phase = .sentinel ∧ getF Reg.SYS_PWRCFG_WAKETMR s ≠ 0) ∧
    (∃ s : State, s.sys.phase = .sentinel ∧ bit Reg.SYS_PWRCFG_LW0 s = true ∧ s.sys.lwdis0 = false) ∧
    (∃ s : State, s.sys.phase = .sentinel ∧ bit Reg.SYS_PWRCFG_LW1 s = true ∧ s.sys.lwdis1 = false) ∧
    (∃ s : State, s.sys.phase = .sentinel ∧ (bit Reg.SYS_PWRCFG_LW0 s = false ∨ s.sys.lwdis0 = true)) ∧
    (∃ s : State, s.sys.phase = .sentinel ∧ (bit Reg.SYS_PWRCFG_LW1 s = false ∨ s.sys.lwdis1 = true)) ∧
    (∃ s : State, s.sys.phase = .wakeFilter) ∧
    (∃ s : State, s.sys.phase = .active ∧ s.sys.wakePort = some 0 ∧ s.sys.sclkFailed = false ∧ s.sys.transition = none ∧ s.sys.activeAt + 500 * ms ≤ s.now) ∧
    (∃ s : State, s.sys.phase = .active ∧ s.sys.wakePort = some 1 ∧ s.sys.sclkFailed = false ∧ s.sys.transition = none ∧ s.sys.activeAt + 500 * ms ≤ s.now) ∧
    (∃ s : State, 
     let apart := s.sys.lastWakeEdge.all (fun e => decide (e + 100 * ms ≤ s.now)) = true
     s.sys.phase = .standby ∧ s.sys.transition = none ∧ s.sys.wakeArmed = true ∧ apart) ∧
    (∃ s : State, 
     let apart := s.sys.lastWakeEdge.all (fun e => decide (e + 100 * ms ≤ s.now)) = true
     coreUp s = true ∧ (s.sys.wakeArmed = false ∨ ¬ apart)) :=
    ⟨⟨onSys ({ · with phase := .shelf, wakeArmed := true }) State.reset, by dsimp only; decide⟩,
    ⟨onSys ({ · with phase := .sentinel, wakeArmed := true }) State.reset, by dsimp only; decide⟩,
    ⟨onSys ({ · with wakeArmed := true, lastWakeEdge := some 0 }) { up with now := 100 * ms }, by dsimp only; decide⟩,
    ⟨onSys ({ · with phase := .sentinel }) State.reset |> setF Reg.SYS_PWRCFG_WAKETMR 1, by decide⟩,
    ⟨onSys ({ · with phase := .sentinel }) State.reset |> setB Reg.SYS_PWRCFG_LW0 true, by decide⟩,
    ⟨onSys ({ · with phase := .sentinel }) State.reset |> setB Reg.SYS_PWRCFG_LW1 true, by decide⟩,
    ⟨onSys ({ · with phase := .sentinel }) State.reset |> setB Reg.SYS_PWRCFG_LW0 false, by decide⟩,
    ⟨onSys ({ · with phase := .sentinel, lwdis1 := true }) State.reset, by decide⟩,
    ⟨onSys ({ · with phase := .wakeFilter }) State.reset, by decide⟩,
    ⟨onSys ({ · with wakePort := some 0, fwake0 := 7 }) { up with now := 500 * ms }, by decide⟩,
    ⟨onSys ({ · with wakePort := some 1, fwake1 := 7 }) { up with now := 500 * ms }, by decide⟩,
    ⟨onSys ({ · with phase := .standby }) State.reset, by dsimp only; decide⟩,
    ⟨onSys ({ · with wakeArmed := false }) up, by dsimp only; decide⟩⟩

theorem hyps_StartUp :
    (∃ s : State, s.sys.phase = .softStart ∧ s.sys.leg.isSome = true) ∧
    (∃ s : State, s.sys.phase = .rails ∧ s.sys.rstnLow = false) ∧
    (∃ s : State, s.sys.phase = .rails ∧ s.sys.rstnLow = true) ∧
    (∃ s : State, s.sys.phase = .core ∧ s.sys.nvmChecked = false ∧ bit Reg.BST_CTLSTAT_ROMBAD s = false) ∧
    (∃ s : State, s.sys.phase = .core ∧ s.sys.nvmChecked = true ∧ s.sys.cpll = true ∧ s.sys.tpll = true ∧ s.sys.profileApplied = false) ∧
    (∃ s : State, s.sys.phase = .core ∧ s.sys.cpll = true ∧ s.sys.tpll = true ∧ ((bit Reg.BST_CTLSTAT_ROMBAD s = true ∨ s.sys.profileApplied = true ∧ pendingEpoch s = none))) ∧
    (∃ s : State, s.sys.phase = .core ∧ bit Reg.BST_CTLSTAT_ROMBAD s = false ∧ (pendingEpoch s).isSome = true) ∧
    (∃ s : State, s.sys.phase = .resume) :=
    ⟨⟨onSys ({ · with phase := .softStart, leg := some .vin }) State.reset, by decide⟩,
    ⟨onSys ({ · with phase := .rails }) State.reset, by decide⟩,
    ⟨onSys ({ · with phase := .rails, rstnLow := true }) State.reset, by decide⟩,
    ⟨onSys ({ · with phase := .core }) State.reset, by decide⟩,
    ⟨onSys ({ · with phase := .core, nvmChecked := true, cpll := true, tpll := true }) State.reset, by decide⟩,
    ⟨onSys ({ · with phase := .core, profileApplied := true, cpll := true, tpll := true }) State.reset, by decide⟩,
    ⟨onCal ({ · with epochPend := some 3 }) (onSys ({ · with phase := .core, profileApplied := true, cpll := true, tpll := true }) State.reset), by decide⟩,
    ⟨onSys ({ · with phase := .resume }) State.reset, by decide⟩⟩

theorem hyps_PowerCommands :
    (∃ s : State, 
     let served := s.sys.ctlBusy = false ∧ bit Reg.BST_CTLSTAT_ROMBAD s = false
     served ∧ s.sys.phase = .active ∧ s.sys.transition = none ∧ hasRole s = false) ∧
    (∃ s : State, 
     let served := s.sys.ctlBusy = false ∧ bit Reg.BST_CTLSTAT_ROMBAD s = false
     served ∧ s.sys.phase = .active ∧ s.sys.transition = none ∧ hasRole s = true) ∧
    (∃ s : State, 
     let served := s.sys.ctlBusy = false ∧ bit Reg.BST_CTLSTAT_ROMBAD s = false
     served ∧ s.sys.phase = .standby ∧ s.sys.transition = none) ∧
    (∃ s : State, 
     let served := s.sys.ctlBusy = false ∧ bit Reg.BST_CTLSTAT_ROMBAD s = false
     served ∧ s.sys.phase = .standby ∧ s.sys.transition = none) ∧
    (∃ s : State, 
     let served := s.sys.ctlBusy = false ∧ bit Reg.BST_CTLSTAT_ROMBAD s = false
     served ∧ s.sys.phase = .active ∧ s.sys.transition = none ∧ s.sys.wakeFrom = none) ∧
    (∃ s : State, 
     let served := s.sys.ctlBusy = false ∧ bit Reg.BST_CTLSTAT_ROMBAD s = false
     served ∧ coreUp s = true ∧ s.sys.transition.isSome = true) ∧
    (∃ s : State, ∃ tg, s.sys.phase = .active ∧ s.sys.transition = some ⟨tg, false⟩) ∧
    (∃ s : State, ∃ tg, s.sys.phase = .standby ∧ s.sys.transition = some ⟨tg, false⟩) ∧
    (∃ s : State, s.sys.transition = some ⟨.shelf, true⟩ ∧ switching s = false) ∧
    (∃ s : State, s.sys.transition = some ⟨.sentinel, true⟩ ∧ switching s = false) ∧
    (∃ s : State, s.sys.transition = some ⟨.standby, true⟩ ∧ switching s = false) :=
    ⟨⟨up, by dsimp only; decide⟩,
    ⟨up |> setB Reg.HST_STAT_ROLE true, by dsimp only; decide⟩,
    ⟨onSys ({ · with phase := .standby }) State.reset, by dsimp only; decide⟩,
    ⟨onSys ({ · with phase := .standby }) State.reset, by dsimp only; decide⟩,
    ⟨up |> setB Reg.SYS_PWRSTAT_PEND true, by dsimp only; decide⟩,
    ⟨onSys ({ · with transition := some ⟨.shelf, true⟩ }) up, by dsimp only; decide⟩,
    ⟨onSys ({ · with transition := some ⟨.standby, false⟩ }) up, .standby, by decide⟩,
    ⟨onSys ({ · with phase := .standby, transition := some ⟨.shelf, false⟩ }) up, .shelf, by decide⟩,
    ⟨onSys ({ · with transition := some ⟨.shelf, true⟩ }) up, by decide⟩,
    ⟨onSys ({ · with transition := some ⟨.sentinel, true⟩ }) up, by decide⟩,
    ⟨onSys ({ · with transition := some ⟨.standby, true⟩ }) up, by decide⟩⟩

theorem hyps_DeviceResets :
    (∃ s : State, s.sys.phase ∈ [.standby, .core, .resume, .active, .rails, .rstHeld, .thermal]) ∧
    (∃ s : State, coreUp s = true) ∧
    (∃ s : State, coreUp s = true) ∧
    (∃ s : State, coreUp s = false) ∧
    (∃ s : State, s.sys.phase = .rstHeld) ∧
    (∃ s : State, s.sys.phase ≠ .rstHeld) :=
    ⟨⟨up, by decide⟩,
    ⟨up, by decide⟩,
    ⟨up, by decide⟩,
    ⟨State.reset, by decide⟩,
    ⟨onSys ({ · with phase := .rstHeld, rstnLow := true }) State.reset, by decide⟩,
    ⟨up |> onSys ({ · with rstnLow := true }), by decide⟩⟩

theorem hyps_ControllerAndPerst :
    (∃ s : State, coreUp s = true) ∧
    (∃ s : State, coreUp s = true) ∧
    (∃ s : State, coreUp s = true ∧ s.sys.ctlBusy = true) ∧
    (∃ s : State, coreUp s = true ∧ s.sys.perstLow = false) :=
    ⟨⟨up, by decide⟩,
    ⟨up, by decide⟩,
    ⟨onSys ({ · with ctlBusy := true }) up, by decide⟩,
    ⟨onSys ({ · with perstLow := false }) up, by decide⟩⟩

theorem hyps_PrimaryWords :
    (∃ s : State, s.cms.running = true) ∧
    (∃ s : State, s.cms.running = true) ∧
    (∃ s : State, ∃ c, s.cms.running = true ∧ c ≤ 24) ∧
    (∃ s : State, ∃ c, s.cms.running = true ∧ c ≤ 24) ∧
    (∃ s : State, ∃ c, s.cms.running = true ∧ c ≤ 24 ∧ muted (channelSource c) s = false) :=
    ⟨⟨onCms ({ · with running := true, unused := some false }) up, by decide⟩,
    ⟨onCms ({ · with running := true }) up, by decide⟩,
    ⟨onCms ({ · with running := true }) up, 24, by decide⟩,
    ⟨onCms ({ · with running := true }) up, 24, by decide⟩,
    ⟨onCms ({ · with running := true }) up, 24, by decide⟩⟩

theorem hyps_FilterAndLayout :
    (∃ s : State, ∃ w : Word, coreUp s = true ∧ w &&& 0xFFFFFCCC#32 = 0#32 ∧ getBits w 8 2 ≠ 3 ∧ calRunning s = false) ∧
    (∃ s : State, ∃ w : Word, coreUp s = true ∧ w &&& 0xFFFFFCCC#32 = 0#32 ∧ getBits w 8 2 ≠ 3 ∧ calRunning s = true) ∧
    (∃ s : State, ∃ w : Word, coreUp s = true ∧ w &&& 0xFFFFFCCC#32 ≠ 0#32) ∧
    (∃ s : State, ∃ w : Word, coreUp s = true ∧ w &&& 0xFFFFFCCC#32 = 0#32 ∧ getBits w 8 2 = 3) ∧
    (∃ s : State, coreUp s = true ∧ s.cms.running = true ∧ calRunning s = false ∧ s.cms.calCfg = none) ∧
    (∃ s : State, ∃ w, coreUp s = true ∧ s.cms.running = false ∧ calRunning s = false ∧ s.cms.calCfg = some w) ∧
    (∃ s : State, ∃ w : Word, coreUp s = true ∧ w &&& 0xFE000000#32 = 0#32 ∧ streamOpen s = false ∧ calRunning s = false) ∧
    (∃ s : State, ∃ w : Word, coreUp s = true ∧ w &&& 0xFE000000#32 = 0#32 ∧ streamOpen s = true) ∧
    (∃ s : State, coreUp s = true ∧ calRunning s = false ∧ s.cms.calChen = none ∧ s.cms.layoutHeld = true) :=
    ⟨⟨up, 0x233#32, by decide⟩,
    ⟨up |> setF Reg.CAL_STAT_PHASE 1, 0x233#32, by decide⟩,
    ⟨up, 0x305#32, by decide⟩,
    ⟨up, 0x301#32, by decide⟩,
    ⟨onCms ({ · with running := true }) up, by decide⟩,
    ⟨onCms ({ · with calCfg := some 0x2#32 }) up, 0x2#32, by decide⟩,
    ⟨up, 0x1FFFFFF#32, by decide⟩,
    ⟨onFab ({ · with sessions := [(0, ⟨0, 0, 0, 0#32, 1, 0, 0#32, [], 0⟩)] }) up, 0x1FFFFFF#32, by decide⟩,
    ⟨onCms ({ · with running := true, layoutHeld := true }) up, by decide⟩⟩

theorem hyps_WordIndexRead :
    (∃ s : State, coreUp s = true) ∧
    (∃ s : State, ∃ rs : List Record, s.cms.snapNext = some rs ∧ rs.length = 25) ∧
    (∃ s : State, s.cms.snapNext = none) :=
    ⟨⟨up, by decide⟩,
    ⟨onCms ({ · with snapNext := some (List.replicate 25 ⟨1#32, 2#32⟩) }) up |> setB Reg.CMS_SNAPSTAT_PEND true, List.replicate 25 ⟨1#32, 2#32⟩, by decide⟩,
    ⟨up, by decide⟩⟩

theorem hyps_SecondaryResults :
    (∃ s : State, secondaryRuns s = true ∧ getF Reg.XCK_STAT_MODE s ≠ 3) ∧
    (∃ s : State, secondaryRuns s = true) ∧
    (∃ s : State, secondaryRuns s = true) ∧
    (∃ s : State, ∃ xb : Bool, secondaryRuns s = true ∧ ((xb = false → unusedCells s = false))) :=
    ⟨⟨onCms ({ · with running := true }) up, by decide⟩,
    ⟨onCms ({ · with running := true }) up, by decide⟩,
    ⟨onCms ({ · with running := true }) up, by decide⟩,
    ⟨onCms ({ · with running := true }) up, true, by decide⟩⟩

theorem hyps_IntervalResults :
    (∃ s : State, secondaryRuns s = true) ∧
    (∃ s : State, ∃ k, secondaryRuns s = true ∧ cellsServed s = true ∧ k < 24 ∧ tapOpen 24 s = false ∧ regBit Reg.CMS_FENCE (k + 1) s = false ∧ regBit Reg.FLT_FENCE1 (k + 1) s = false) ∧
    (∃ s : State, ∃ k, secondaryRuns s = true ∧ getF Reg.XCK_STAT_MODE s = 3 ∧ k < 24 ∧ tapOpen 24 s = false) ∧
    (∃ s : State, secondaryRuns s = true ∧ cellsServed s = true ∧ calRunning s = false ∧ s.xck.harness = none ∧ fencedBy 40 s = false ∧ fencedBy 41 s = false ∧ fencedPaths s = reg s Reg.CMS_FENCE ∧ fencedSecondaries s = reg s Reg.FLT_FENCE1) ∧
    (∃ s : State, secondaryRuns s = true ∧ cellsServed s = false ∧ s.xck.intervals < 2) :=
    ⟨⟨onCms ({ · with running := true }) up, by decide⟩,
    ⟨onCms ({ · with running := true }) up, 23, by decide⟩,
    ⟨onCms ({ · with running := true }) up |> setF Reg.XCK_STAT_MODE 3, 0, by decide⟩,
    ⟨onCms ({ · with running := true }) up, by decide⟩,
    ⟨onCms ({ · with running := true }) up |> setF Reg.XCK_STAT_MODE 3, by decide⟩⟩

theorem hyps_OpenWires :
    (∃ s : State, secondaryRuns s = true ∧ cellsServed s = true ∧ getF Reg.XCK_OWCFG_PER s ≠ 3 ∧ s.xck.sweepTap = 0) ∧
    (∃ s : State, secondaryRuns s = true ∧ cellsServed s = true ∧ getF Reg.XCK_OWCFG_PER s ≠ 3 ∧ s.xck.sweepTap ≠ 0) ∧
    (∃ s : State, getF Reg.XCK_OWCFG_PER s = 3) ∧
    (∃ s : State, ∃ k, ∃ sweep, ∃ rest, s.xck.due = (k, sweep) :: rest ∧ secondaryRuns s = true ∧ testsSuspended s = false ∧ 1 ≤ k ∧ k ≤ 24) ∧
    (∃ s : State, ∃ k : Nat, ∃ sweep : Bool, ∃ rest : List (Nat × Bool), ∃ bl : List Conversion, ∃ wl : List Conversion, 
     let response := fun (n : Nat) (base flow : List Conversion) => windowReading n flow s - windowReading n base s
     s.xck.due = (k, sweep) :: rest ∧ secondaryRuns s = true ∧ testsSuspended s = false ∧ 1 ≤ k ∧ k ≤ 24 ∧ response k bl wl < 12000 ∧ 1 ≤ nth s.xck.owPass k 0 ∧ tapOpen k s = true) ∧
    (∃ s : State, ∃ k, s.xck.suspects.any (fun x => x.tap == k && x.hold && decide (x.since + 40 * ms ≤ s.now)) = true) ∧
    (∃ s : State, ∃ k, s.xck.suspects.all (fun x => x.tap != k || decide (s.now < x.since + 40 * ms)) = true) :=
    ⟨⟨onCms ({ · with running := true }) up, by decide⟩,
    ⟨onCms ({ · with running := true }) up |> onXck ({ · with sweepTap := 24 }), by decide⟩,
    ⟨setF Reg.XCK_OWCFG_PER 3 up, by decide⟩,
    ⟨onCms ({ · with running := true }) up |> onXck ({ · with due := [(24, true)], owFail := List.replicate 25 1 }), 24, true, [], by decide⟩,
    ⟨onCms ({ · with running := true }) up |> onXck ({ · with due := [(1, false)], owPass := List.replicate 25 1 }) |> setReg Reg.XCK_OWSTAT 2#32, 1, false, [], [], [], by dsimp only; refine ⟨by decide, by decide, by decide, by decide, by decide, ?_, by decide, by decide⟩; omega⟩,
    ⟨onXck ({ · with suspects := [⟨24, 1, 1, true, 0⟩] }) { up with now := 40 * ms }, 24, by decide⟩,
    ⟨onXck ({ · with suspects := [⟨24, 1, 1, true, 1⟩] }) { up with now := 40 * ms }, 24, by decide⟩⟩

theorem hyps_HarnessMeasurement :
    (∃ s : State, coreUp s = true ∧ ((lifecycle s = 1 ∨ lifecycle s = 2)) ∧ bit Reg.FLT_FENCE0_XB s = false ∧ unusedCells s = false ∧ planActive s = false ∧ s.xck.harness = none ∧ bleedStopped s = false) ∧
    (∃ s : State, coreUp s = true ∧ ((lifecycle s = 1 ∨ lifecycle s = 2)) ∧ bit Reg.FLT_FENCE0_XB s = false ∧ unusedCells s = false ∧ planActive s = false ∧ s.xck.harness = none ∧ bleedStopped s = true) ∧
    (∃ s : State, coreUp s = true ∧ lifecycle s ≠ 1 ∧ lifecycle s ≠ 2) ∧
    (∃ s : State, coreUp s = true ∧ ((lifecycle s = 1 ∨ lifecycle s = 2)) ∧ ((bit Reg.FLT_FENCE0_XB s = true ∨ unusedCells s = true))) ∧
    (∃ s : State, coreUp s = true ∧ ((lifecycle s = 1 ∨ lifecycle s = 2)) ∧ bit Reg.FLT_FENCE0_XB s = false ∧ unusedCells s = false ∧ ((planActive s = true ∨ s.xck.harness.isSome = true))) ∧
    (∃ s : State, ∃ h, s.xck.harness = some h ∧ 192 ≤ h.interval ∧ h.ticket = .direct) ∧
    (∃ s : State, s.sys.phase = .active ∧ getF Reg.XCK_BALCFG_MODE s = 2 ∧ s.ft % gatePeriod s < 6) ∧
    (∃ s : State, ∃ g : Nat, s.xck.gate = some g ∧ g + leastSpan (gateTime s) ≤ s.now) ∧
    (∃ s : State, s.xck.gate.all (fun g => decide (s.now < g + leastSpan (gateTime s))) = true) :=
    ⟨⟨onCms ({ · with unused := some false }) up |> setF Reg.BST_LCSTAT_STATE 2, by decide⟩,
    ⟨up |> setF Reg.BST_LCSTAT_STATE 2 |> setB Reg.FLT_STAT_SAFE true, by decide⟩,
    ⟨up |> setF Reg.BST_LCSTAT_STATE 3, by decide⟩,
    ⟨up |> setF Reg.BST_LCSTAT_STATE 2 |> setB Reg.FLT_FENCE0_XB true, by decide⟩,
    ⟨up |> setF Reg.BST_LCSTAT_STATE 2 |> setF Reg.IMP_STAT_STATE 2, by decide⟩,
    ⟨onXck ({ · with harness := some doneRun }) up, doneRun, by decide⟩,
    ⟨up |> setF Reg.XCK_BALCFG_MODE 2, by decide⟩,
    ⟨onXck ({ · with gate := some 0 }) { up with now := 1000 * ms }, 0, by decide⟩,
    ⟨onXck ({ · with gate := some 1 }) up, by decide⟩⟩

theorem hyps_ImpedanceCommands :
    (∃ s : State, 
     let ready := coreUp s = true ∧ s.bst.run.any (fun r => r.cur == some 19) = false
     let idle := ready ∧ bit Reg.FLT_FENCE0_IMP s = false ∧ planActive s = false ∧ s.xck.harness = none ∧ getF Reg.CAL_STAT_PHASE s = 0
     idle ∧ entryError s = none ∧ startError s = 0) ∧
    (∃ s : State, ∃ e : Nat, ∃ p : Nat, 
     let ready := coreUp s = true ∧ s.bst.run.any (fun r => r.cur == some 19) = false
     let idle := ready ∧ bit Reg.FLT_FENCE0_IMP s = false ∧ planActive s = false ∧ s.xck.harness = none ∧ getF Reg.CAL_STAT_PHASE s = 0
     idle ∧ entryError s = some (e, p)) ∧
    (∃ s : State, 
     let ready := coreUp s = true ∧ s.bst.run.any (fun r => r.cur == some 19) = false
     let idle := ready ∧ bit Reg.FLT_FENCE0_IMP s = false ∧ planActive s = false ∧ s.xck.harness = none ∧ getF Reg.CAL_STAT_PHASE s = 0
     idle ∧ entryError s = none ∧ startError s ≠ 0) ∧
    (∃ s : State, 
     let ready := coreUp s = true ∧ s.bst.run.any (fun r => r.cur == some 19) = false
     ready ∧ bit Reg.FLT_FENCE0_IMP s = true) ∧
    (∃ s : State, 
     let ready := coreUp s = true ∧ s.bst.run.any (fun r => r.cur == some 19) = false
     ready ∧ bit Reg.FLT_FENCE0_IMP s = false ∧ ((planActive s = true ∨ s.xck.harness.isSome = true ∨ getF Reg.CAL_STAT_PHASE s ≠ 0))) ∧
    (∃ s : State, coreUp s = true ∧ s.bst.run.any (fun r => r.cur == some 19) = true) ∧
    (∃ s : State, coreUp s = true ∧ planActive s = true) ∧
    (∃ s : State, coreUp s = true ∧ planActive s = false) ∧
    (∃ s : State, ∃ b : Nat, ∃ rest : List Nat, planActive s = true ∧ bit Reg.IMP_CFG_PAIR s = true ∧ s.imp.awaited = b :: rest ∧ b + 15625000 ≤ s.ft ∧ s.imp.missed < 2) ∧
    (∃ s : State, ∃ b : Nat, ∃ rest : List Nat, planActive s = true ∧ bit Reg.IMP_CFG_PAIR s = true ∧ s.imp.awaited = b :: rest ∧ b + 15625000 ≤ s.ft ∧ 2 ≤ s.imp.missed) ∧
    (∃ s : State, (planActive s = false ∨ bit Reg.IMP_CFG_PAIR s = false ∨ s.imp.awaited.all (fun b => decide (s.ft < b + 15625000)) = true)) ∧
    (∃ s : State, ∃ f : Fade, ∃ rest : List Fade, s.imp.fades = f :: rest ∧ f.start + 20 * ms ≤ s.ft) :=
    ⟨⟨planOk, by dsimp only; decide⟩,
    ⟨up, 1, 0, by dsimp only; decide⟩,
    ⟨up |> setF (Reg.IMP_PLAN_W0_FREQ 0) 50 |> setF (Reg.IMP_PLAN_W1_AMP 0) 50 |> setF (Reg.IMP_PLAN_W2_INTEG 0) 1, by dsimp only; decide⟩,
    ⟨up |> setB Reg.FLT_FENCE0_IMP true, by dsimp only; decide⟩,
    ⟨up |> setF Reg.IMP_STAT_STATE 1, by dsimp only; decide⟩,
    ⟨onBst ({ · with run := some (memRun 19 0 none) }) up, by decide⟩,
    ⟨up |> setF Reg.IMP_STAT_STATE 2, by decide⟩,
    ⟨up, by decide⟩,
    ⟨{ (up |> setF Reg.IMP_STAT_STATE 2 |> setB Reg.IMP_CFG_PAIR true |> onImp ({ · with missed := 1, awaited := [0] })) with ft := interval64 }, 0, [], by decide⟩,
    ⟨{ (up |> setF Reg.IMP_STAT_STATE 2 |> setB Reg.IMP_CFG_PAIR true |> onImp ({ · with missed := 2, awaited := [0] })) with ft := interval64 }, 0, [], by decide⟩,
    ⟨up, by decide⟩,
    ⟨onImp ({ · with fades := [⟨6, 0, 0, 0, [], false⟩] }) { up with ft := 20 * ms }, ⟨6, 0, 0, 0, [], false⟩, [], by decide⟩⟩

theorem hyps_ImpedanceTimeline :
    (∃ s : State, getF Reg.IMP_STAT_STATE s = 1 ∧ bit Reg.IMP_CFG_PAIR s = false ∧ s.imp.start ≤ s.ft) ∧
    (∃ s : State, getF Reg.IMP_STAT_STATE s = 2 ∧ s.imp.phase = .idle ∧ s.imp.next < 32 ∧ s.imp.stepEnd ≤ boundaryAt s.ft) ∧
    (∃ s : State, s.imp.phase = .rising ∧ s.imp.ws ≤ s.ft) ∧
    (∃ s : State, s.imp.phase = .window ∧ s.imp.we ≤ s.ft) ∧
    (∃ s : State, s.imp.phase = .falling ∧ getF Reg.IMP_STAT_STATE s = 2 ∧ s.imp.stepEnd ≤ s.ft ∧ s.imp.last + 1 < planCount s) ∧
    (∃ s : State, s.imp.phase = .falling ∧ getF Reg.IMP_STAT_STATE s = 2 ∧ s.imp.stepEnd ≤ s.ft ∧ planCount s ≤ s.imp.last + 1 ∧ getF Reg.IMP_CFG_REPEAT s ≠ 0 ∧ getF Reg.IMP_CFG_REPEAT s ≤ s.imp.passes) ∧
    (∃ s : State, ∃ w, s.imp.waiting = some w) ∧
    (∃ s : State, coreUp s = true ∧ bit Reg.IMP_CFG_PAIR s = true) ∧
    (∃ s : State, coreUp s = true ∧ muted 66 s = false) ∧
    (∃ s : State, planActive s = true ∧ s.imp.start ≤ s.ft + ms) :=
    ⟨⟨up |> setF Reg.IMP_STAT_STATE 1, by decide⟩,
    ⟨up |> setF Reg.IMP_STAT_STATE 2 |> onImp ({ · with next := 31 }), by decide⟩,
    ⟨up |> onImp ({ · with phase := .rising }), by decide⟩,
    ⟨up |> onImp ({ · with phase := .window }), by decide⟩,
    ⟨up |> setF Reg.IMP_STAT_STATE 2 |> setF Reg.IMP_CFG_NPTS 1 |> onImp ({ · with phase := .falling }), by decide⟩,
    ⟨up |> setF Reg.IMP_STAT_STATE 2 |> setF Reg.IMP_CFG_REPEAT 1 |> onImp ({ · with phase := .falling, passes := 1 }), by decide⟩,
    ⟨up |> onImp ({ · with waiting := some ([], []) }), ([], []), by decide⟩,
    ⟨up |> setB Reg.IMP_CFG_PAIR true, by decide⟩,
    ⟨up, by decide⟩,
    ⟨up |> setF Reg.IMP_STAT_STATE 2 |> setF Reg.CNV_STAT_STATE 4 |> onCnv ({ · with shed := some (1, 4) }), by decide⟩⟩

theorem hyps_ComparatorTrips :
    (∃ s : State, ∃ n, ∃ o, comparatorsRun s = true ∧ comparatorOn n o s = true ∧ reactionsOff n s = false ∧ r20Waits s = false) ∧
    (∃ s : State, ∃ n, ∃ o, s.sys.phase = .active ∧ s.sys.transition = none ∧ s.xck.harness = none ∧ comparatorOn n o s = true ∧ reactionsOff n s = false ∧ r20Waits s = false) ∧
    (∃ s : State, ∃ n, ∃ o, comparatorsRun s = true ∧ comparatorOn n o s = true ∧ reactionsOff n s = true) ∧
    (∃ s : State, ∃ n, ∃ o, comparatorsRun s = true ∧ comparatorOn n o s = true ∧ reactionsOff n s = false ∧ r20Waits s = true) ∧
    (∃ s : State, ∃ n, ∃ o, ((comparatorsRun s = false ∨ comparatorOn n o s = false))) ∧
    (∃ s : State, ∃ n, coreUp s = true ∧ 1 ≤ n ∧ n ≤ 24) ∧
    (∃ s : State, s.sys.phase = .sentinel ∧ unusedCells s = false ∧ bit Reg.SYS_PWRCFG_OUVWAKE s = false ∧ r20Waits s = false) ∧
    (∃ s : State, s.sys.phase = .sentinel ∧ unusedCells s = false ∧ r20Waits s = true) ∧
    (∃ s : State, coreUp s = true) ∧
    (∃ s : State, s.sys.phase = .active ∧ unusedCells s = false) :=
    ⟨⟨watch, 24, false, by decide⟩,
    ⟨watch, 24, false, by decide⟩,
    ⟨up |> setReg Reg.CPB_CELLEN 0x1FFFFFE#32 |> setB Reg.CPB_CFG_OVEN true |> setReg Reg.XCK_OWSTAT 2#32, 1, true, by decide⟩,
    ⟨watch |> onCms ({ · with unused := none }) |> onSys ({ · with aonFromVin := true }), 24, false, by decide⟩,
    ⟨setReg Reg.CPB_CELLEN 0#32 up, 24, true, by decide⟩,
    ⟨up, 24, by decide⟩,
    ⟨onSys ({ · with phase := .sentinel }) (onCms ({ · with unused := some false }) up) |> setB Reg.SYS_PWRCFG_OUVWAKE false, by decide⟩,
    ⟨onSys ({ · with phase := .sentinel, aonFromVin := true }) up |> onCms ({ · with unused := none }), by decide⟩,
    ⟨up, by decide⟩,
    ⟨up, by decide⟩⟩

theorem hyps_FaultPairEvents :
    (∃ s : State, s.cpb.sense = false ∧ pairCause s = false ∧ s.pins.fault = .faultLevel ∧ s.now % ms < 5 ∧ s.cpb.faultSince + 10 * ms ≤ s.now) ∧
    (∃ s : State, (s.cpb.sense = true ∨ pairCause s = true ∨ s.now < s.cpb.faultSince + 10 * ms ∨ 5 ≤ s.now % ms)) ∧
    (∃ s : State, coreUp s = true ∧ s.cpb.sense = false) ∧
    (∃ s : State, coreUp s = true ∧ s.cpb.sense = true) ∧
    (∃ s : State, ∃ c : Fin 4, coreUp s = true ∧ s.cpb.sense = true ∧ bit Reg.CPB_FPSTAT_NBROK s = true ∧ c.val ≠ 0) ∧
    (∃ s : State, ∃ c : Fin 4, coreUp s = true ∧ s.cpb.sense = true ∧ bit Reg.CPB_FPSTAT_NBROK s = false ∧ c.val ≠ 0) ∧
    (∃ s : State, coreUp s = true ∧ s.cpb.sense = true ∧ bit Reg.CPB_FPSTAT_NBROK s = false ∧ bit Reg.CPB_FPSTAT_STUCK s = false ∧ getF Reg.CPB_FPCFG_STUCKTO s ≠ 0 ∧ s.cpb.nbrSince + getF Reg.CPB_FPCFG_STUCKTO s * 1000 * ms ≤ s.now) ∧
    (∃ s : State, (s.cpb.sense = false ∨ bit Reg.CPB_FPSTAT_NBROK s = true ∨ getF Reg.CPB_FPCFG_STUCKTO s = 0 ∨ s.now < s.cpb.nbrSince + getF Reg.CPB_FPCFG_STUCKTO s * 1000 * ms)) ∧
    (∃ s : State, coreUp s = true ∧ s.now % ms < 5 ∧ bit Reg.CPB_FPCFG_MODE s ≠ s.cpb.sense) ∧
    (∃ s : State, (bit Reg.CPB_FPCFG_MODE s = s.cpb.sense ∨ 5 ≤ s.now % ms)) :=
    ⟨⟨onPins ({ · with fault := .faultLevel }) { up with now := 20000000 }, by decide⟩,
    ⟨onPins ({ · with fault := .faultLevel }) up |> setB Reg.CPB_FPCFG_FORCE true, by decide⟩,
    ⟨up, by decide⟩,
    ⟨onCpb ({ · with sense := true }) up, by decide⟩,
    ⟨onCpb ({ · with sense := true }) up |> setB Reg.CPB_FPSTAT_NBROK true, 3, by decide⟩,
    ⟨onCpb ({ · with sense := true }) up, 3, by decide⟩,
    ⟨onCpb ({ · with sense := true }) { up with now := 1000000000 } |> setF Reg.CPB_FPCFG_STUCKTO 1, by decide⟩,
    ⟨up, by decide⟩,
    ⟨onCpb ({ · with sense := true }) up |> setB Reg.CPB_FPCFG_MODE false, by decide⟩,
    ⟨up, by decide⟩⟩

theorem hyps_BalancingSwitches :
    (∃ s : State, coreUp s = true) ∧
    (∃ s : State, ∃ n, coreUp s = true ∧ conducts n s = true) ∧
    (∃ s : State, ∃ n : Nat, s.sys.phase = .active ∧ 1 ≤ n ∧ n ≤ 24 ∧ regBit Reg.CPB_CELLEN n s = true ∧ unusedCells s = false) ∧
    (∃ s : State, ∃ n : Nat, regBit Reg.CPB_CELLEN n s = false) ∧
    (∃ s : State, s.sys.phase = .active ∧ s.cpb.clStart + (getF Reg.CPB_CLTCFG_PERIOD s + 1) * 10 * ms ≤ s.now) ∧
    (∃ s : State, (s.sys.phase ≠ .active ∨ s.now < s.cpb.clStart + (getF Reg.CPB_CLTCFG_PERIOD s + 1) * 10 * ms)) ∧
    (∃ s : State, ∃ p : Fin 1024, coreUp s = true ∧ p.val < 1000) ∧
    (∃ s : State, ∃ p : Fin 1024, coreUp s = true ∧ 1000 ≤ p.val) :=
    ⟨⟨up, by decide⟩,
    ⟨up |> setF Reg.CPB_BALSTAT_ON 0xFFFFFF, 24, by decide⟩,
    ⟨up |> setReg Reg.CPB_CELLEN 0x1FFFFFE#32 |> setF Reg.CPB_BALSTAT_ON 0xFFFFFF, 24, by decide⟩,
    ⟨setReg Reg.CPB_CELLEN 0#32 up, 24, by decide⟩,
    ⟨{ up with now := 100000000000 }, by decide⟩,
    ⟨onSys ({ · with phase := .standby }) up, by decide⟩,
    ⟨up, 999, by decide⟩,
    ⟨up, 1023, by decide⟩⟩

theorem hyps_ConverterCommands :
    (∃ s : State, 
     let free := bit Reg.FLT_FENCE0_CNV s = false
     let ready := s.sys.phase = .active ∧ s.sys.transition = none ∧ free ∧ converterHeldOff s = false
     ready ∧ cnvState s = 0 ∧ startReason s = 0 ∧ ((getF Reg.CNV_CFG_CLASS s = 1 ∨ s.cnv.busOk = true))) ∧
    (∃ s : State, 
     let free := bit Reg.FLT_FENCE0_CNV s = false
     let ready := s.sys.phase = .active ∧ s.sys.transition = none ∧ free ∧ converterHeldOff s = false
     ready ∧ cnvState s = 0 ∧ startReason s = 0 ∧ getF Reg.CNV_CFG_CLASS s = 2 ∧ s.cnv.busOk = false) ∧
    (∃ s : State, 
     let free := bit Reg.FLT_FENCE0_CNV s = false
     let ready := s.sys.phase = .active ∧ s.sys.transition = none ∧ free ∧ converterHeldOff s = false
     ready ∧ cnvState s ≠ 0 ∧ cnvState s ≠ 6 ∧ startReason s = 0) ∧
    (∃ s : State, 
     let free := bit Reg.FLT_FENCE0_CNV s = false
     let ready := s.sys.phase = .active ∧ s.sys.transition = none ∧ free ∧ converterHeldOff s = false
     ready ∧ cnvState s ≠ 6 ∧ startReason s ≠ 0) ∧
    (∃ s : State, 
     let free := bit Reg.FLT_FENCE0_CNV s = false
     coreUp s = true ∧ free ∧ converterHeldOff s = false ∧ cnvState s = 6) ∧
    (∃ s : State, 
     let free := bit Reg.FLT_FENCE0_CNV s = false
     coreUp s = true ∧ s.sys.phase ≠ .active ∧ s.sys.transition = none ∧ free ∧ converterHeldOff s = false ∧ cnvState s ≠ 6) ∧
    (∃ s : State, coreUp s = true ∧ ((bit Reg.FLT_FENCE0_CNV s = true ∨ converterHeldOff s = true))) ∧
    (∃ s : State, coreUp s = true ∧ bit Reg.FLT_FENCE0_CNV s = true ∧ cnvState s ≠ 7) ∧
    (∃ s : State, 
     let free := bit Reg.FLT_FENCE0_CNV s = false
     coreUp s = true ∧ free ∧ ((cnvState s = 3 ∨ cnvState s = 4))) ∧
    (∃ s : State, 
     let free := bit Reg.FLT_FENCE0_CNV s = false
     coreUp s = true ∧ free ∧ ((cnvState s = 1 ∨ cnvState s = 2 ∨ cnvState s = 5))) ∧
    (∃ s : State, 
     let free := bit Reg.FLT_FENCE0_CNV s = false
     coreUp s = true ∧ free ∧ ((cnvState s = 0 ∨ cnvState s = 6 ∨ cnvState s = 7 ∨ cnvState s = 8))) ∧
    (∃ s : State, 
     let free := bit Reg.FLT_FENCE0_CNV s = false
     coreUp s = true ∧ free ∧ cnvState s = 8) ∧
    (∃ s : State, coreUp s = true ∧ cnvState s = 7 ∧ getF Reg.CNV_VBS_VBS s % 65536 < busTarget s) ∧
    (∃ s : State, coreUp s = true ∧ cnvState s = 7 ∧ busTarget s ≤ getF Reg.CNV_VBS_VBS s % 65536) ∧
    (∃ s : State, 
     let free := bit Reg.FLT_FENCE0_CNV s = false
     coreUp s = true ∧ free ∧ cnvState s ≠ 7 ∧ cnvState s ≠ 8) ∧
    (∃ s : State, 
     let free := bit Reg.FLT_FENCE0_CNV s = false
     coreUp s = true ∧ ((free ∨ cnvState s = 7))) ∧
    (∃ s : State, s.cnv.loadPend = true) ∧
    (∃ s : State, coreUp s = true ∧ getF Reg.CNV_CFG_VSRC s = 1) ∧
    (∃ s : State, coreUp s = true ∧ getF Reg.CNV_CFG_VSRC s ≠ 1) ∧
    (∃ s : State, coreUp s = true ∧ bit Reg.SYS_LOCKSTAT_LTGT s = false) ∧
    (∃ s : State, coreUp s = true ∧ bit Reg.SYS_LOCKSTAT_LTGT s = true) ∧
    (∃ s : State, coreUp s = true ∧ getF Reg.CNV_CFG_VSRC s = 0) ∧
    (∃ s : State, coreUp s = true ∧ getF Reg.CNV_CFG_VSRC s ≠ 0) :=
    ⟨⟨cnvReady |> setF Reg.CNV_CFG_CLASS 1, by dsimp only; decide⟩,
    ⟨cnvReady |> setF Reg.CNV_CFG_CLASS 2, by dsimp only; decide⟩,
    ⟨cnvReady |> setF Reg.CNV_CFG_CLASS 2 |> setF Reg.CNV_STAT_STATE 4, by dsimp only; decide⟩,
    ⟨up, by dsimp only; decide⟩,
    ⟨up |> setF Reg.CNV_STAT_STATE 6, by dsimp only; decide⟩,
    ⟨onSys ({ · with phase := .standby }) up, by dsimp only; decide⟩,
    ⟨up |> setB Reg.FLT_FENCE0_CNV true, by decide⟩,
    ⟨up |> setB Reg.FLT_FENCE0_CNV true, by decide⟩,
    ⟨up |> setF Reg.CNV_STAT_STATE 4, by dsimp only; decide⟩,
    ⟨up |> setF Reg.CNV_STAT_STATE 5, by dsimp only; decide⟩,
    ⟨up |> setF Reg.CNV_STAT_STATE 8, by dsimp only; decide⟩,
    ⟨up |> setF Reg.CNV_STAT_STATE 8, by dsimp only; decide⟩,
    ⟨up |> setF Reg.CNV_STAT_STATE 7 |> setF Reg.CNV_VBS_VBS 100, by decide⟩,
    ⟨up |> setF Reg.CNV_STAT_STATE 7 |> setF Reg.CNV_VBS_VBS 60000, by decide⟩,
    ⟨up |> setF Reg.CNV_STAT_STATE 4, by dsimp only; decide⟩,
    ⟨up, by dsimp only; decide⟩,
    ⟨onCnv ({ · with loadPend := true }) up, by decide⟩,
    ⟨up |> setF Reg.CNV_CFG_VSRC 1, by decide⟩,
    ⟨up, by decide⟩,
    ⟨up, by decide⟩,
    ⟨up |> setB Reg.SYS_LOCKSTAT_LTGT true, by decide⟩,
    ⟨up, by decide⟩,
    ⟨up |> setF Reg.CNV_CFG_VSRC 1, by decide⟩⟩

theorem hyps_ConverterStates :
    (∃ s : State, ∃ v : Nat, s.sys.phase = .active ∧ cnvState s = 1 ∧ getF Reg.CNV_BUS_BUSMIN s ≤ v) ∧
    (∃ s : State, ∃ v : Nat, v < getF Reg.CNV_BUS_BUSMIN s) ∧
    (∃ s : State, ∃ v : Nat, s.cnv.cls = 2 ∧ ((cnvState s = 3 ∨ cnvState s = 4)) ∧ v < getF Reg.CNV_BUS_BUSMIN s) ∧
    (∃ s : State, ∃ v : Nat, getF Reg.CNV_BUS_BUSMIN s ≤ v) ∧
    (∃ s : State, ∃ means : List Int, 
     let sound := fun means : List Int => ∀ n < 4, beyondTest n (nth means n 0) s = false ∧ beyondTest n (-(nth means n 0)) s = false
     cnvState s = 2 ∧ s.cnv.cls = 1 ∧ s.cnv.part = 1 ∧ s.cnv.stopT + 100 * us ≤ s.now ∧ sound means ∧ availablePhases s ≠ []) ∧
    (∃ s : State, ∃ means : List Int, cnvState s = 2 ∧ s.cnv.cls = 1 ∧ s.cnv.part = 1 ∧ s.cnv.stopT + 100 * us ≤ s.now ∧ getF Reg.CNV_PHCFG_PHEN s ≠ 0 ∧ getF Reg.CNV_PHCFG_PHEN s < 16 ∧ ((∀ n < 4, beyondTest n (nth means n 0) s = true ∨ beyondTest n (-(nth means n 0)) s = true))) ∧
    (∃ s : State, cnvState s = 2 ∧ s.cnv.part = 3 ∧ s.cnv.stopT + 20 * us ≤ s.now ∧ availablePhases s ≠ []) ∧
    (∃ s : State, cnvState s = 2 ∧ s.cnv.part = 3 ∧ s.cnv.stopT + 20 * us ≤ s.now ∧ availablePhases s = []) ∧
    (∃ s : State, ∃ means : List Int, ∃ r : Int, 
     let sound := fun means : List Int => ∀ n < 4, beyondTest n (nth means n 0) s = false ∧ beyondTest n (-(nth means n 0)) s = false
     cnvState s = 2 ∧ s.cnv.cls = 2 ∧ s.cnv.part = 1 ∧ s.cnv.stopT + 100 * us ≤ s.now ∧ sound means ∧ r ≤ 1000 ∧ availablePhases s ≠ []) ∧
    (∃ s : State, ∃ means : List Int, ∃ r : Int, 
     let sound := fun means : List Int => ∀ n < 4, beyondTest n (nth means n 0) s = false ∧ beyondTest n (-(nth means n 0)) s = false
     cnvState s = 2 ∧ s.cnv.cls = 2 ∧ s.cnv.part = 2 ∧ s.cnv.stopT + 50 * us ≤ s.now ∧ sound means ∧ r ≤ 1000 ∧ availablePhases s ≠ []) ∧
    (∃ s : State, ∃ r : Int, cnvState s = 2 ∧ s.cnv.cls = 2 ∧ ((s.cnv.part = 1 ∨ s.cnv.part = 2)) ∧ s.cnv.stopT + (if s.cnv.part = 1 then 100 else 50) * us ≤ s.now ∧ 1000 < r ∧ getF Reg.CNV_PHCFG_PHEN s ≠ 0 ∧ getF Reg.CNV_PHCFG_PHEN s < 16) ∧
    (∃ s : State, cnvState s = 3 ∧ s.cnv.softT + softTime s ≤ s.now) ∧
    (∃ s : State, s.cnv.cls = 1 ∧ ((cnvState s = 3 ∨ cnvState s = 4)) ∧ shortStands s = true ∧ s.cnv.hic < getF Reg.CNV_SSCFG_HICNT s) ∧
    (∃ s : State, s.cnv.cls = 1 ∧ ((cnvState s = 3 ∨ cnvState s = 4)) ∧ shortStands s = true ∧ getF Reg.CNV_SSCFG_HICNT s ≤ s.cnv.hic) ∧
    (∃ s : State, (s.cnv.cls ≠ 1 ∨ shortStands s = false)) ∧
    (∃ s : State, cnvState s = 5 ∧ s.cnv.stopT + max (10 * ms) (10 * softTime s) ≤ s.now) ∧
    (∃ s : State, cnvState s = 4 ∧ s.cnv.softT + 1000 * ms ≤ s.now) ∧
    (∃ s : State, cnvState s = 6 ∧ s.cnv.stopT + softTime s ≤ s.now) ∧
    (∃ s : State, s.now < s.cnv.stopT + 20 * us) ∧
    (∃ s : State, s.now < s.cnv.softT + softTime s ∧ s.now < s.cnv.stopT + softTime s ∧ softTime s < 1000 * ms) :=
    ⟨⟨up |> setF Reg.CNV_STAT_STATE 1, 65535, by decide⟩,
    ⟨up, 0, by decide⟩,
    ⟨onCnv ({ · with cls := 2 }) up |> setF Reg.CNV_STAT_STATE 4, 0, by decide⟩,
    ⟨up, 65535, by decide⟩,
    ⟨onCnv ({ · with cls := 1, part := 1 }) { up with now := 100 * us } |> setF Reg.CNV_STAT_STATE 2, [], by dsimp only; decide⟩,
    ⟨onCnv ({ · with cls := 1, part := 1 }) { up with now := 100 * us } |> setF Reg.CNV_STAT_STATE 2, [1000000, 1000000, -1000000, -1000000], by decide⟩,
    ⟨onCnv ({ · with cls := 1, part := 3 }) { up with now := 100 * us } |> setF Reg.CNV_STAT_STATE 2, by decide⟩,
    ⟨onCnv ({ · with cls := 1, part := 3 }) { up with now := 100 * us } |> setF Reg.CNV_STAT_STATE 2 |> setF Reg.CNV_PHCFG_PHEN 0, by decide⟩,
    ⟨onCnv ({ · with cls := 2, part := 1 }) { up with now := 100 * us } |> setF Reg.CNV_STAT_STATE 2, [], 1000, by dsimp only; decide⟩,
    ⟨onCnv ({ · with cls := 2, part := 2 }) { up with now := 100 * us } |> setF Reg.CNV_STAT_STATE 2, [], 1000, by dsimp only; decide⟩,
    ⟨onCnv ({ · with cls := 2, part := 2 }) { up with now := 100 * us } |> setF Reg.CNV_STAT_STATE 2, 1001, by decide⟩,
    ⟨{ up with now := 5000000 } |> setF Reg.CNV_STAT_STATE 3, by decide⟩,
    ⟨onCnv ({ · with cls := 1, hic := 2 }) up |> setF Reg.CNV_STAT_STATE 4 |> setF (Reg.CNV_VTGT_VT 0) 48000, by decide⟩,
    ⟨onCnv ({ · with cls := 1, hic := 3 }) up |> setF Reg.CNV_STAT_STATE 4 |> setF (Reg.CNV_VTGT_VT 0) 48000, by decide⟩,
    ⟨up, by decide⟩,
    ⟨{ up with now := 50000000 } |> setF Reg.CNV_STAT_STATE 5, by decide⟩,
    ⟨{ up with now := 1000000000 } |> setF Reg.CNV_STAT_STATE 4, by decide⟩,
    ⟨{ up with now := 5000000 } |> setF Reg.CNV_STAT_STATE 6, by decide⟩,
    ⟨up, by decide⟩,
    ⟨up |> setF Reg.CNV_STAT_STATE 3, by decide⟩⟩

theorem hyps_ConverterRegulation :
    (∃ s : State, switching s = true) ∧
    (∃ s : State, switching s = false) ∧
    (∃ s : State, cnvState s = 4) ∧
    (∃ s : State, ∃ n : Fin 4, ∃ b : Nat, cnvState s = 4 ∧ nth s.cnv.trimSince n.val none = some b ∧ b + 10 * ms ≤ s.now) ∧
    (∃ s : State, ∃ n : Fin 4, (nth s.cnv.trimSince n.val none).all (fun b => decide (s.now < b + 10 * ms)) = true) ∧
    (∃ s : State, mayShed s = false ∧ getF Reg.CNV_STAT_LEVEL s = 0) ∧
    (∃ s : State, 
     let total := (s.cnv.samples.map (fun e => e.2.natAbs)).sum
     mayShed s = true ∧ s.cnv.samples ≠ [] ∧ getF Reg.CNV_STAT_LEVEL s = 0 ∧ 2 < (availablePhases s).length ∧ total < getF Reg.CNV_LL_SHED2 s * 128 * s.cnv.samples.length) ∧
    (∃ s : State, 
     let total := (s.cnv.samples.map (fun e => e.2.natAbs)).sum
     cnvState s = 4 ∧ s.cnv.shed = none ∧ s.cnv.samples ≠ [] ∧ getF Reg.CNV_STAT_LEVEL s = 1 ∧ availablePhases s ≠ [] ∧ getF Reg.CNV_LL_SHED2 s * 160 * s.cnv.samples.length < total) ∧
    (∃ s : State, ∃ l : Nat, s.cnv.shed = some (l, 0) ∧ l < 4 ∧ switching s = true ∧ phasesAtLevel l (availablePhases s) ≠ []) ∧
    (∃ s : State, ∃ l : Nat, ∃ n : Nat, s.cnv.shed = some (l, n + 1)) ∧
    (∃ s : State, switching s = true ∧ loadStepStands s = true ∧ s.cnv.shed.isSome = true) ∧
    (∃ s : State, switching s = true ∧ loadStepStands s = true ∧ s.cnv.shed = none ∧ getF Reg.CNV_STAT_LEVEL s ≠ 0 ∧ availablePhases s ≠ []) ∧
    (∃ s : State, loadStepStands s = false) ∧
    (∃ s : State, ∃ h : Nat, s.cnv.shedHold = some h ∧ h ≤ s.now) ∧
    (∃ s : State, ∃ h : Nat, s.cnv.shedHold = some h ∧ s.now < h) ∧
    (∃ s : State, s.cnv.cls = 1 ∧ switching s = true ∧ bit Reg.CNV_LL_BRKEN s = true ∧ bit Reg.CNV_STAT_BRK s = false ∧ busAbove 10 s = true ∧ 0 < signed 16 (getF Reg.CNV_ITOT_ITOT s % 65536)) ∧
    (∃ s : State, bit Reg.CNV_STAT_BRK s = true ∧ ((s.cnv.brakeLeft = 0 ∨ ((busVoltage s : Nat) : Int) < voltageReference s + 5 * getF Reg.CNV_LSD_LSV s))) ∧
    (∃ s : State, s.cnv.brakeLeft ≠ 0 ∧ voltageReference s + 5 * getF Reg.CNV_LSD_LSV s ≤ ((busVoltage s : Nat) : Int)) ∧
    (∃ s : State, planActive s = true ∧ s.imp.start ≤ s.ft + ms ∧ cnvState s = 4 ∧ availablePhases s ≠ []) :=
    ⟨⟨up |> setF Reg.CNV_STAT_STATE 4 |> setF Reg.CNV_STAT_ACT 15, by decide⟩,
    ⟨up, by decide⟩,
    ⟨onCnv ({ · with phCnt := 3 }) up |> setF Reg.CNV_STAT_STATE 4 |> setF Reg.CNV_STAT_ACT 3, by decide⟩,
    ⟨onCnv ({ · with trimSince := List.replicate 4 (some 0) }) { up with now := 10000000 } |> setF Reg.CNV_STAT_STATE 4, 3, 0, by decide⟩,
    ⟨up |> setF Reg.CNV_STAT_STATE 4, 3, by decide⟩,
    ⟨onCnv ({ · with samples := [(0, 5119)] }) up |> setF Reg.CNV_STAT_STATE 4 |> setB Reg.CNV_LL_SHEDEN false, by decide⟩,
    ⟨onCnv ({ · with samples := [(0, 5119)] }) up |> setF Reg.CNV_STAT_STATE 4, by dsimp only; decide⟩,
    ⟨onCnv ({ · with samples := [(0, -6401)] }) up |> setF Reg.CNV_STAT_STATE 4 |> setF Reg.CNV_STAT_LEVEL 1, by dsimp only; decide⟩,
    ⟨onCnv ({ · with shed := some (1, 0) }) up |> setF Reg.CNV_STAT_STATE 4, 1, by decide⟩,
    ⟨onCnv ({ · with shed := some (1, 1) }) up, 1, 0, by decide⟩,
    ⟨onCnv ({ · with shed := some (1, 3), cls := 1, rampV := 48000 }) up |> setF Reg.CNV_STAT_STATE 4 |> setF (Reg.CNV_VTGT_VT 0) 48000, by decide⟩,
    ⟨onCnv ({ · with cls := 1, rampV := 48000 }) up |> setF Reg.CNV_STAT_STATE 4 |> setF Reg.CNV_STAT_LEVEL 1 |> setF (Reg.CNV_VTGT_VT 0) 48000, by decide⟩,
    ⟨up, by decide⟩,
    ⟨onCnv ({ · with shedHold := some 10000000 }) { up with now := 10000000 }, 10000000, by decide⟩,
    ⟨onCnv ({ · with shedHold := some 1 }) up, 1, by decide⟩,
    ⟨onCnv ({ · with cls := 1 }) up |> setF Reg.CNV_STAT_STATE 4 |> setB Reg.CNV_LL_BRKEN true |> setF Reg.CNV_VBS_VBS 60000 |> setF Reg.CNV_ITOT_ITOT 1, by decide⟩,
    ⟨up |> setB Reg.CNV_STAT_BRK true, by decide⟩,
    ⟨onCnv ({ · with brakeLeft := 1 }) up |> setB Reg.CNV_STAT_BRK true |> setF Reg.CNV_VBS_VBS 60000, by decide⟩,
    ⟨onImp ({ · with phase := .idle }) (up |> setF Reg.IMP_STAT_STATE 2 |> setF Reg.CNV_STAT_STATE 4), by decide⟩⟩

theorem hyps_ConverterProtections :
    (∃ s : State, ∃ v : Nat, 
     let high := fun (v : Nat) => 62000 < v ∨ busTarget s * (200 + getF Reg.CNV_BUS_OVP s) < v * 200
     s.sys.phase = .active ∧ converterHeldOff s = false ∧ busRegulation s = true ∧ cnvState s ≠ 8 ∧ cnvState s ≠ 7 ∧ high v) ∧
    (∃ s : State, ∃ v : Nat, 
     let high := fun (v : Nat) => 62000 < v ∨ busTarget s * (200 + getF Reg.CNV_BUS_OVP s) < v * 200
     s.sys.phase = .active ∧ converterHeldOff s = false ∧ s.cnv.cls = 1 ∧ cnvState s = 8 ∧ s.cnv.faultAt = some s.now ∧ high v) ∧
    (∃ s : State, ∃ v : Nat, 
     let high := fun (v : Nat) => 62000 < v ∨ busTarget s * (200 + getF Reg.CNV_BUS_OVP s) < v * 200
     (¬ high v ∨ converterHeldOff s = true)) ∧
    (∃ s : State, ∃ n : Fin 4, ∃ v : Int, 
     let limit := fun (n : Fin 4) (i : Nat) => ((i * getF (Reg.CNV_CSG_CSG n.val) s : Nat) : Int)
     switching s = true ∧ limit n (getF Reg.CNV_ILIM_IPK s) < v * 10) ∧
    (∃ s : State, ∃ n : Fin 4, ∃ v : Int, 
     let limit := fun (n : Fin 4) (i : Nat) => ((i * getF (Reg.CNV_CSG_CSG n.val) s : Nat) : Int)
     switching s = true ∧ v < 0 ∧ v * 10 < -limit n (getF Reg.CNV_ILIM_INEG s)) ∧
    (∃ s : State, ∃ n : Fin 4, ∃ v : Int, 
     let limit := fun (n : Fin 4) (i : Nat) => ((i * getF (Reg.CNV_CSG_CSG n.val) s : Nat) : Int)
     v * 10 ≤ limit n (getF Reg.CNV_ILIM_IPK s) ∧ -limit n (getF Reg.CNV_ILIM_INEG s) ≤ v * 10) ∧
    (∃ s : State, cnvState s = 4 ∧ limitSustained s = true) ∧
    (∃ s : State, ∃ n : Fin 4, ∃ v : Int, 
     let limit := fun (n : Fin 4) (i : Nat) => ((i * getF (Reg.CNV_CSG_CSG n.val) s : Nat) : Int)
     s.sys.phase = .active ∧ cnvState s ≠ 0 ∧ cnvState s ≠ 8 ∧ cnvState s ≠ 7 ∧ 3 * limit n (getF Reg.CNV_ILIM_IPK s) < v * 20) ∧
    (∃ s : State, ∃ n : Fin 4, ∃ v : Int, 
     let limit := fun (n : Fin 4) (i : Nat) => ((i * getF (Reg.CNV_CSG_CSG n.val) s : Nat) : Int)
     s.sys.phase = .active ∧ ((cnvState s = 0 ∨ cnvState s = 8 ∨ cnvState s = 7)) ∧ v < 0 ∧ v * 20 < -(3 * limit n (getF Reg.CNV_ILIM_INEG s))) ∧
    (∃ s : State, ∃ n : Fin 4, ∃ v : Int, 
     let limit := fun (n : Fin 4) (i : Nat) => ((i * getF (Reg.CNV_CSG_CSG n.val) s : Nat) : Int)
     v * 20 ≤ 3 * limit n (getF Reg.CNV_ILIM_IPK s) ∧ -(3 * limit n (getF Reg.CNV_ILIM_INEG s)) ≤ v * 20) ∧
    (∃ s : State, ∃ v : Nat, s.cnv.cls = 2 ∧ cnvState s ≠ 0 ∧ cnvState s ≠ 8 ∧ cnvState s ≠ 7 ∧ 62000 < v) ∧
    (∃ s : State, ∃ v : Nat, (s.cnv.cls = 1 ∨ v ≤ 62000)) ∧
    (∃ s : State, ∃ v : Nat, cnvState s ≠ 0 ∧ cnvState s ≠ 8 ∧ cnvState s ≠ 7 ∧ ((v < 20000 ∨ 145000 < v))) ∧
    (∃ s : State, ∃ v : Nat, 20000 ≤ v ∧ v ≤ 145000) ∧
    (∃ s : State, s.sys.phase = .active) ∧
    (∃ s : State, s.sys.phase = .active ∧ testing 17 s = false) :=
    ⟨⟨up |> setF Reg.CNV_CFG_CLASS 1, 62001, by dsimp only; decide⟩,
    ⟨onCnv ({ · with cls := 1, faultAt := some 0 }) up |> setF Reg.CNV_STAT_STATE 8, 62001, by dsimp only; decide⟩,
    ⟨up |> setF (Reg.CNV_VTGT_VT 0) 60000, 60000, by dsimp only; decide⟩,
    ⟨up |> setF Reg.CNV_STAT_STATE 4, 3, 100000000, by dsimp only; decide⟩,
    ⟨up |> setF Reg.CNV_STAT_STATE 4, 3, -100000000, by dsimp only; decide⟩,
    ⟨up |> setF Reg.CNV_STAT_STATE 4, 0, 0, by dsimp only; decide⟩,
    ⟨onCnv ({ · with limits := [(0, 15)] }) up |> setF Reg.CNV_STAT_STATE 4 |> setF Reg.CNV_STAT_ACT 15, by decide⟩,
    ⟨up |> setF Reg.CNV_STAT_STATE 6, 3, 100000000, by dsimp only; decide⟩,
    ⟨up, 0, -100000000, by dsimp only; decide⟩,
    ⟨up |> setF Reg.CNV_STAT_STATE 4, 0, 0, by dsimp only; decide⟩,
    ⟨onCnv ({ · with cls := 2 }) up |> setF Reg.CNV_STAT_STATE 1, 62001, by decide⟩,
    ⟨onCnv ({ · with cls := 2 }) up |> setF Reg.CNV_STAT_STATE 1, 62000, by decide⟩,
    ⟨up |> setF Reg.CNV_STAT_STATE 2, 19999, by decide⟩,
    ⟨up |> setF Reg.CNV_STAT_STATE 2, 145000, by decide⟩,
    ⟨up |> setF Reg.CNV_STAT_STATE 1, by decide⟩,
    ⟨up, by decide⟩⟩

theorem hyps_ExternalSynchronisation :
    (∃ s : State, 
     let on := s.sys.phase = .active ∧ bit Reg.CNV_SYNC_SYNCEN s = true
     on ∧ s.cnv.edge = none) ∧
    (∃ s : State, ∃ e : Nat, 
     let on := s.sys.phase = .active ∧ bit Reg.CNV_SYNC_SYNCEN s = true
     on ∧ s.cnv.edge = some e ∧ 800000 ≤ (s.now - e) * getF Reg.CNV_PHCFG_FSW s ∧ (s.now - e) * getF Reg.CNV_PHCFG_FSW s ≤ 1250000) ∧
    (∃ s : State, ∃ e : Nat, 
     let on := s.sys.phase = .active ∧ bit Reg.CNV_SYNC_SYNCEN s = true
     on ∧ s.cnv.edge = some e ∧ (s.now - e) * getF Reg.CNV_PHCFG_FSW s < 800000) ∧
    (∃ s : State, ∃ e : Nat, 
     let on := s.sys.phase = .active ∧ bit Reg.CNV_SYNC_SYNCEN s = true
     on ∧ s.cnv.edge = some e ∧ 1250000 < (s.now - e) * getF Reg.CNV_PHCFG_FSW s) ∧
    (∃ s : State, bit Reg.CNV_SYNC_SYNCEN s = false) ∧
    (∃ s : State, s.cnv.tracking = true ∧ syncLost s = true ∧ bit Reg.CNV_STAT_SYNCLK s = true) ∧
    (∃ s : State, s.cnv.tracking = true ∧ syncLost s = true ∧ bit Reg.CNV_STAT_SYNCLK s = false) ∧
    (∃ s : State, (s.cnv.tracking = false ∨ syncLost s = false)) ∧
    (∃ s : State, ∃ e : Nat, s.cnv.csyncAt = some e ∧ s.now < e + getF Reg.CNV_SYNC_STUCKTO s * 10 * ms) ∧
    (∃ s : State, 
     let on := s.sys.phase = .active ∧ bit Reg.CNV_SYNC_SYNCEN s = true
     on ∧ getF Reg.CNV_SYNC_STUCKTO s ≠ 0 ∧ bit Reg.CNV_STAT_SYNCSTK s = false ∧ s.cnv.csyncAt.all (fun e => decide (e + getF Reg.CNV_SYNC_STUCKTO s * 10 * ms ≤ s.now)) = true) :=
    ⟨⟨up |> setB Reg.CNV_SYNC_SYNCEN true, by dsimp only; decide⟩,
    ⟨onCnv ({ · with edge := some 0, inRange := 15 }) { up with now := 3200 } |> setB Reg.CNV_SYNC_SYNCEN true, 0, by dsimp only; decide⟩,
    ⟨onCnv ({ · with edge := some 0 }) { up with now := 3199 } |> setB Reg.CNV_SYNC_SYNCEN true, 0, by dsimp only; decide⟩,
    ⟨onCnv ({ · with edge := some 0 }) { up with now := 5001 } |> setB Reg.CNV_SYNC_SYNCEN true, 0, by dsimp only; decide⟩,
    ⟨up |> setB Reg.CNV_SYNC_SYNCEN false, by decide⟩,
    ⟨onCnv ({ · with tracking := true, outRange := 4 }) up |> setB Reg.CNV_STAT_SYNCLK true, by decide⟩,
    ⟨onCnv ({ · with tracking := true, outRange := 4 }) up, by decide⟩,
    ⟨up, by decide⟩,
    ⟨onCnv ({ · with csyncAt := some 1 }) up, 1, by decide⟩,
    ⟨onCnv ({ · with csyncAt := some 0 }) { up with now := 2550000000 } |> setB Reg.CNV_SYNC_SYNCEN true, by dsimp only; decide⟩⟩

theorem hyps_ControlTick :
    (∃ s : State, 
     let rises := bit Reg.CTL_STAT_LUTPEND s = false ∨ bit Reg.CTL_CFG_LUTEN s = false ∨
       tableFalls (getF Reg.CTL_LUTCFG_NENT s) (shadowTable s) = false
     let runs := s.sys.phase = .active ∧ tickDue s = true ∧ bit Reg.CTL_STAT_FEN s = false ∧ rises
     runs ∧ busRegulation s = false ∧ ((cnvState s = 3 ∨ cnvState s = 4))) ∧
    (∃ s : State, 
     let rises := bit Reg.CTL_STAT_LUTPEND s = false ∨ bit Reg.CTL_CFG_LUTEN s = false ∨
       tableFalls (getF Reg.CTL_LUTCFG_NENT s) (shadowTable s) = false
     let runs := s.sys.phase = .active ∧ tickDue s = true ∧ bit Reg.CTL_STAT_FEN s = false ∧ rises
     runs ∧ busRegulation s = false ∧ ((cnvState s = 3 ∨ cnvState s = 4)) ∧ (nextProfile s).x = scaledTarget s ∧ s.ctl.x ≠ scaledTarget s) ∧
    (∃ s : State, 
     let rises := bit Reg.CTL_STAT_LUTPEND s = false ∨ bit Reg.CTL_CFG_LUTEN s = false ∨
       tableFalls (getF Reg.CTL_LUTCFG_NENT s) (shadowTable s) = false
     let runs := s.sys.phase = .active ∧ tickDue s = true ∧ bit Reg.CTL_STAT_FEN s = false ∧ rises
     runs ∧ busRegulation s = true ∧ ((cnvState s = 3 ∨ cnvState s = 4)) ∧ bit Reg.CTL_STAT_LUTPEND s = false) ∧
    (∃ s : State, 
     let rises := bit Reg.CTL_STAT_LUTPEND s = false ∨ bit Reg.CTL_CFG_LUTEN s = false ∨
       tableFalls (getF Reg.CTL_LUTCFG_NENT s) (shadowTable s) = false
     let runs := s.sys.phase = .active ∧ tickDue s = true ∧ bit Reg.CTL_STAT_FEN s = false ∧ rises
     runs ∧ cnvState s = 6) ∧
    (∃ s : State, 
     let rises := bit Reg.CTL_STAT_LUTPEND s = false ∨ bit Reg.CTL_CFG_LUTEN s = false ∨
       tableFalls (getF Reg.CTL_LUTCFG_NENT s) (shadowTable s) = false
     let runs := s.sys.phase = .active ∧ tickDue s = true ∧ bit Reg.CTL_STAT_FEN s = false ∧ rises
     runs ∧ switching s = false) ∧
    (∃ s : State, 
     let rises := bit Reg.CTL_STAT_LUTPEND s = false ∨ bit Reg.CTL_CFG_LUTEN s = false ∨
       tableFalls (getF Reg.CTL_LUTCFG_NENT s) (shadowTable s) = false
     let runs := s.sys.phase = .active ∧ tickDue s = true ∧ bit Reg.CTL_STAT_FEN s = false ∧ rises
     runs ∧ bit Reg.CTL_STAT_LUTPEND s = true) ∧
    (∃ s : State, 
     let rises := bit Reg.CTL_STAT_LUTPEND s = false ∨ bit Reg.CTL_CFG_LUTEN s = false ∨
       tableFalls (getF Reg.CTL_LUTCFG_NENT s) (shadowTable s) = false
     s.sys.phase = .active ∧ tickDue s = true ∧ bit Reg.CTL_STAT_FEN s = true ∧ rises) ∧
    (∃ s : State, (s.sys.phase ≠ .active ∨ tickDue s = false)) :=
    ⟨⟨up |> setF Reg.CNV_STAT_STATE 4, by dsimp only; decide⟩,
    ⟨arriving, by dsimp only; rw [arriving_target, arriving_next]; decide⟩,
    ⟨onCnv ({ · with cls := 1 }) up |> setF Reg.CNV_STAT_STATE 4, by dsimp only; decide⟩,
    ⟨up |> setF Reg.CNV_STAT_STATE 6, by dsimp only; decide⟩,
    ⟨up |> setF Reg.CNV_STAT_STATE 8, by dsimp only; decide⟩,
    ⟨up |> setB Reg.CTL_STAT_LUTPEND true, by dsimp only; decide⟩,
    ⟨up |> setB Reg.CTL_STAT_FEN true, by dsimp only; decide⟩,
    ⟨{ up with ft := 6 }, by decide⟩⟩

theorem hyps_SummingStage :
    (∃ s : State, s.sys.phase = .active ∧ switching s = true ∧ 0 ≤ setPointClamp s) ∧
    (∃ s : State, s.sys.phase = .active ∧ switching s = false) ∧
    (∃ s : State, s.sys.phase = .active) ∧
    (∃ s : State, s.sys.phase ≠ .active) :=
    ⟨⟨onCtl ({ · with lpos := 1023, lneg := 1023 }) up |> setF Reg.CNV_STAT_STATE 4, by decide⟩,
    ⟨up, by decide⟩,
    ⟨up |> setB Reg.CTL_STAT_CLIP false, by decide⟩,
    ⟨onSys ({ · with phase := .standby }) up, by decide⟩⟩

theorem hyps_ControlCommands :
    (∃ s : State, coreUp s = true ∧ bit Reg.CTL_STAT_FEN s = false) ∧
    (∃ s : State, coreUp s = true ∧ bit Reg.CTL_STAT_FEN s = false) ∧
    (∃ s : State, coreUp s = true ∧ bit Reg.CTL_STAT_FEN s = true) ∧
    (∃ s : State, 
     let past := s.cpb.clStart + (getF Reg.CPB_CLTCFG_PERIOD s + 1) * 10 * ms ≤ s.now
     s.sys.phase = .active ∧ past ∧ bit Reg.CTL_CFG_CLZERO s = true ∧ busRegulation s = false) ∧
    (∃ s : State, 
     let past := s.cpb.clStart + (getF Reg.CPB_CLTCFG_PERIOD s + 1) * 10 * ms ≤ s.now
     s.sys.phase = .active ∧ past ∧ busRegulation s = true) ∧
    (∃ s : State, cnvState s = 4 ∧ bit Reg.CNV_STAT_BRK s = false ∧ s.cnv.shed = none ∧ bit Reg.CTL_STAT_CLIP s = false ∧ tracksBadly s = true) ∧
    (∃ s : State, (cnvState s ≠ 4 ∨ bit Reg.CNV_STAT_BRK s = true ∨ s.cnv.shed.isSome = true ∨ bit Reg.CTL_STAT_CLIP s = true ∨ tracksBadly s = false)) ∧
    (∃ s : State, cnvState s = 4 ∧ atLimit s = true) ∧
    (∃ s : State, (cnvState s ≠ 4 ∨ atLimit s = false)) ∧
    (∃ s : State, ∃ parity : Bool, s.sys.phase = .active ∧ ((parity = true ∨ testing 16 s = false))) :=
    ⟨⟨up, by decide⟩,
    ⟨up, by decide⟩,
    ⟨up |> setB Reg.CTL_STAT_FEN true, by decide⟩,
    ⟨{ up with now := 100000000000 } |> setF Reg.CTL_TGT_TGT 5, by dsimp only; decide⟩,
    ⟨onCnv ({ · with cls := 1 }) { up with now := 100000000000 } |> setF Reg.CNV_STAT_STATE 4, by dsimp only; decide⟩,
    ⟨onCtl ({ · with outs := [(0, 32767)] }) (onCnv ({ · with samples := [(0, -32768)] }) up) |> setF Reg.CNV_STAT_STATE 4, by decide⟩,
    ⟨up, by decide⟩,
    ⟨onCtl ({ · with outs := [(0, 0)], lpos := 0 }) up |> setF Reg.CNV_STAT_STATE 4, by decide⟩,
    ⟨up, by decide⟩,
    ⟨up, true, by decide⟩⟩

theorem hyps_LinkStates :
    (∃ s : State, ∃ n : Fin 4, linksRun s = true ∧ portState n s = 1 ∧ (port n s).hush ≤ s.now) ∧
    (∃ s : State, ∃ n : Fin 4, linksRun s = true ∧ portState n s = 4 ∧ (port n s).hush ≤ s.now) ∧
    (∃ s : State, ∃ n : Fin 4, s.now < (port n s).hush) ∧
    (∃ s : State, ∃ n : Fin 4, ∃ w : List Word, linksRun s = true ∧ portState n s = 2 ∧ lparKnown w = true ∧ lparSelf w s = false) ∧
    (∃ s : State, ∃ w : List Word, (lparKnown w = false ∨ lparSelf w s = true)) ∧
    (∃ s : State, ∃ n : Fin 4, ∃ c : Fin 6, ∃ lp : Option (List Word), linksRun s = true ∧ portState n s = 2 ∧ (port n s).fromLpi = false ∧ (port n s).trainAt + 5000000 ≤ s.now ∧ causeStands (c + 1) lp s = true) ∧
    (∃ s : State, ∃ n : Fin 4, (portState n s ≠ 2 ∨ (port n s).fromLpi = true ∨ s.now < (port n s).trainAt + 5000000)) ∧
    (∃ s : State, ∃ n : Fin 4, linksRun s = true ∧ portState n s = 1) ∧
    (∃ s : State, ∃ n : Fin 4, portUp n s = true) ∧
    (∃ s : State, ∃ n : Fin 4, s.sys.phase = .standby ∧ portUp n s = true ∧ bit (Reg.LNK_PCFG_LPIEN n) s = true ∧ (port n s).quiet = true ∧ (port n s).lastFrame + getF Reg.LNK_CFG_LPITO s * 10000 ≤ s.now) ∧
    (∃ s : State, ∃ n : Fin 4, s.now < (port n s).lastFrame + getF Reg.LNK_CFG_LPITO s * 10000) ∧
    (∃ s : State, ∃ n : Fin 4, portUp n s = true) ∧
    (∃ s : State, ∃ n : Fin 4, linksRun s = true ∧ portState n s = 4) ∧
    (∃ s : State, ∃ n : Fin 4, linksRun s = true ∧ portState n s = 1 ∧ bit (Reg.LNK_PCFG_WAKETX n) s = true) ∧
    (∃ s : State, ∃ n : Fin 4, linksRun s = true ∧ ((portState n s ≠ 1 ∨ bit (Reg.LNK_PCFG_WAKETX n) s = false))) ∧
    (∃ s : State, ∃ n : Fin 4, portState n s = 6 ∧ (port n s).trainAt + 2 * ms ≤ s.now) ∧
    (∃ s : State, ∃ n : Fin 4, s.now < (port n s).trainAt + 2 * ms) :=
    ⟨⟨up |> setF (Reg.LNK_PSTAT_STATE 3) 1, 3, by decide⟩,
    ⟨up |> setF (Reg.LNK_PSTAT_STATE 3) 4, 3, by decide⟩,
    ⟨modPort 3 ({ · with hush := 1 }) up, 3, by decide⟩,
    ⟨up |> setF (Reg.LNK_PSTAT_STATE 3) 2, 3, [1#32, 0x1FF03#32, 0#32, 0#32], by decide⟩,
    ⟨up, [0#32, 0x1FF03#32, 0#32, 0#32], by decide⟩,
    ⟨{ up with now := 5 * ms } |> setF (Reg.LNK_PSTAT_STATE 3) 2, 3, 5, some [0#32, 0x1FF03#32, 0#32, 0#32], by decide⟩,
    ⟨modPort 3 ({ · with trainAt := 1 }) { up with now := 5 * ms } |> setF (Reg.LNK_PSTAT_STATE 3) 2, 3, by decide⟩,
    ⟨{ up with now := 5 * ms } |> setF (Reg.LNK_PSTAT_STATE 0) 1, 0, by decide⟩,
    ⟨up |> setF (Reg.LNK_PSTAT_STATE 0) 3, 0, by decide⟩,
    ⟨onSys ({ · with phase := .standby }) { up with now := 1000 * ms } |> setF (Reg.LNK_PSTAT_STATE 2) 3, 2, by decide⟩,
    ⟨onSys ({ · with phase := .standby }) up |> setF (Reg.LNK_PSTAT_STATE 2) 3, 2, by decide⟩,
    ⟨up |> setF (Reg.LNK_PSTAT_STATE 1) 3, 1, by decide⟩,
    ⟨up |> setF (Reg.LNK_PSTAT_STATE 1) 4, 1, by decide⟩,
    ⟨up |> setF (Reg.LNK_PSTAT_STATE 1) 1, 1, by decide⟩,
    ⟨up |> setF (Reg.LNK_PSTAT_STATE 1) 3, 1, by decide⟩,
    ⟨{ up with now := 2 * ms } |> setF (Reg.LNK_PSTAT_STATE 1) 6, 1, by decide⟩,
    ⟨modPort 1 ({ · with trainAt := 1 }) { up with now := 2 * ms } |> setF (Reg.LNK_PSTAT_STATE 1) 6, 1, by decide⟩⟩

theorem hyps_LinkLoss :
    (∃ s : State, ∃ n : Fin 4, portUp n s = true) ∧
    (∃ s : State, ∃ n : Fin 4, portUp n s = true) ∧
    (∃ s : State, ∃ n : Fin 4, portUp n s = true) ∧
    (∃ s : State, ∃ n : Fin 4, linksRun s = true ∧ portState n s = 2 ∧ (port n s).fromLpi = true ∧ (port n s).trainAt + 200 * us ≤ s.now) ∧
    (∃ s : State, ∃ n : Fin 4, ∃ a : Bool, portUp n s = true ∧ ackOverdue n (if a then .a else .b) s = true ∧ ((port n s).space (if a then .a else .b)).buf ≠ [] ∧ getF Reg.LNK_CFG_RETRYLIM s ≤ ((port n s).space (if a then .a else .b)).replays + 1) ∧
    (∃ s : State, ∃ n : Fin 4, linksRun s = true ∧ ((portState n s = 3 ∨ portState n s = 4))) ∧
    (∃ s : State, ∃ n : Fin 4, linksRun s = true ∧ ((portState n s = 1 ∨ portState n s = 2))) ∧
    (∃ s : State, ∃ n : Fin 4, linksRun s = true ∧ portState n s = 0) ∧
    (∃ s : State, ∃ n : Fin 4, portUp n s = true ∧ (port n s).beatAt + 3 * ms ≤ s.now) ∧
    (∃ s : State, ∃ n : Fin 4, s.now < (port n s).beatAt + 3 * ms) ∧
    (∃ s : State, ∃ n : Fin 4, s.now < (port n s).trainAt + 200 * us) :=
    ⟨⟨up |> setF (Reg.LNK_PSTAT_STATE 3) 3, 3, by decide⟩,
    ⟨up |> setF (Reg.LNK_PSTAT_STATE 3) 3, 3, by decide⟩,
    ⟨up |> setF (Reg.LNK_PSTAT_STATE 3) 3, 3, by decide⟩,
    ⟨modPort 2 ({ · with fromLpi := true }) { up with now := 200 * us } |> setF (Reg.LNK_PSTAT_STATE 2) 2, 2, by decide⟩,
    ⟨modPort 3 ({ · with spA := { Space.reset with buf := [(0, 4, ⟨.hoof, .a, .broadcast, 0#32, 1, 0, 1023, 0, 0, []⟩)], ends := [0], replays := 254 } }) { up with now := 1000 * ms } |> setF (Reg.LNK_PSTAT_STATE 3) 3, 3, true, by decide⟩,
    ⟨up |> setF (Reg.LNK_PSTAT_STATE 3) 4, 3, by decide⟩,
    ⟨modPort 0 ({ · with fromLpi := true }) up |> setF (Reg.LNK_PSTAT_STATE 0) 2, 0, by decide⟩,
    ⟨up |> setF (Reg.LNK_PSTAT_STATE 0) 0, 0, by decide⟩,
    ⟨{ up with now := 3 * ms } |> setF (Reg.LNK_PSTAT_STATE 0) 3, 0, by decide⟩,
    ⟨up, 0, by decide⟩,
    ⟨modPort 3 ({ · with trainAt := 1 }) { up with now := 200 * us }, 3, by decide⟩⟩

theorem hyps_FrameReception :
    (∃ s : State, ∃ n : Fin 4, 
     let ready := fun n : Fin 4 => portUp n s = true ∧ (port n s).rx.pre = false
     ready n) ∧
    (∃ s : State, ∃ n : Fin 4, ∃ bs : List Byte, 
     let ready := fun n : Fin 4 => portUp n s = true ∧ (port n s).rx.pre = false
     ready n ∧ headerGood bs = false) ∧
    (∃ s : State, ∃ n : Fin 4, ∃ f : Frame, ∃ l : LinkFields, 
     let plain := fun l : LinkFields => l.akbv = false ∧ l.nakb = false ∧ l.akav = false ∧ l.naka = false
     let sound := fun (f : Frame) (l : LinkFields) => f.hop < 32 ∧ f.src < 1024 ∧ f.dst < 1024 ∧ f.epoch < 256 ∧ f.tag < 256 ∧
       f.payload.length ≤ payloadLimit f.cls ∧ l.seq < 64 ∧ l.akb < 64 ∧ l.aka < 64
     let ready := fun n : Fin 4 => portUp n s = true ∧ (port n s).rx.pre = false
     ready n ∧ sound f l ∧ plain l ∧ f.type.sequenced = true ∧ l.seq ≠ ((port n s).space f.cls).rxNext) ∧
    (∃ s : State, ∃ n : Fin 4, ∃ f : Frame, ∃ l : LinkFields, 
     let plain := fun l : LinkFields => l.akbv = false ∧ l.nakb = false ∧ l.akav = false ∧ l.naka = false
     let sound := fun (f : Frame) (l : LinkFields) => f.hop < 32 ∧ f.src < 1024 ∧ f.dst < 1024 ∧ f.epoch < 256 ∧ f.tag < 256 ∧
       f.payload.length ≤ payloadLimit f.cls ∧ l.seq < 64 ∧ l.akb < 64 ∧ l.aka < 64
     let ready := fun n : Fin 4 => portUp n s = true ∧ (port n s).rx.pre = false
     ready n ∧ sound f l ∧ plain l ∧ f.type.sequenced = true ∧ l.seq = ((port n s).space f.cls).rxNext ∧ f.mode = .routeWord ∧ f.hop = 1) ∧
    (∃ s : State, ∃ n : Fin 4, ∃ f : Frame, ∃ l : LinkFields, 
     let plain := fun l : LinkFields => l.akbv = false ∧ l.nakb = false ∧ l.akav = false ∧ l.naka = false
     let sound := fun (f : Frame) (l : LinkFields) => f.hop < 32 ∧ f.src < 1024 ∧ f.dst < 1024 ∧ f.epoch < 256 ∧ f.tag < 256 ∧
       f.payload.length ≤ payloadLimit f.cls ∧ l.seq < 64 ∧ l.akb < 64 ∧ l.aka < 64
     let ready := fun n : Fin 4 => portUp n s = true ∧ (port n s).rx.pre = false
     ready n ∧ sound f l ∧ plain l ∧ bit Reg.LNK_CFG_CUTEN s = false) ∧
    (∃ s : State, ∃ n : Fin 4, portUp n s = false) :=
    ⟨⟨up |> setF (Reg.LNK_PSTAT_STATE 3) 3, 3, by dsimp only; decide⟩,
    ⟨up |> setF (Reg.LNK_PSTAT_STATE 3) 3, 3, [], by dsimp only; decide⟩,
    ⟨up |> setF (Reg.LNK_PSTAT_STATE 3) 3, 3, ⟨.hoof, .a, .broadcast, 0#32, 1, 0, 1023, 0, 0, []⟩, ⟨63, false, 0, false, false, 0, false, false⟩, by dsimp only; decide⟩,
    ⟨up |> setF (Reg.LNK_PSTAT_STATE 3) 3, 3, ⟨.read, .c, .routeWord, 0#32, 1, 0, 1023, 0, 0, []⟩, ⟨0, false, 0, false, false, 0, false, false⟩, by dsimp only; decide⟩,
    ⟨up |> setF (Reg.LNK_PSTAT_STATE 3) 3 |> setB Reg.LNK_CFG_CUTEN false, 3, ⟨.read, .c, .routeWord, 0#32, 1, 0, 1023, 0, 0, []⟩, ⟨0, false, 0, false, false, 0, false, false⟩, by dsimp only; decide⟩,
    ⟨up, 0, by decide⟩⟩

theorem hyps_FrameTransmission :
    (∃ s : State, ∃ n : Fin 4, ∃ f : Frame, 
     let free := fun n : Fin 4 => portUp n s = true ∧ (port n s).busy s.now = false ∧ s.fab.bwait = []
     free n ∧ (port n s).qa = [(4, f)] ∧ f.cls = .a ∧ f.type.sequenced = true ∧ canSend (port n s) f = true) ∧
    (∃ s : State, ∃ n : Fin 4, 
     let free := fun n : Fin 4 => portUp n s = true ∧ (port n s).busy s.now = false ∧ s.fab.bwait = []
     free n ∧ (port n s).qa = [] ∧ (port n s).qb = [] ∧ (port n s).qc = [] ∧ (port n s).qd = [] ∧ ackWaits (port n s) = true) ∧
    (∃ s : State, ∃ n : Fin 4, portUp n s = true ∧ (port n s).busy s.now = true ∧ s.fab.bwait = [] ∧ (port n s).qa = [] ∧ ackWaits (port n s) = false) ∧
    (∃ s : State, ∃ n : Fin 4, ∃ a : Bool, portUp n s = true ∧ (port n s).busy s.now = false ∧ ackOverdue n (if a then .a else .b) s = true ∧ ((port n s).space (if a then .a else .b)).buf ≠ [] ∧ ((port n s).space (if a then .a else .b)).replays + 1 < getF Reg.LNK_CFG_RETRYLIM s) ∧
    (∃ s : State, ∃ n : Fin 4, ∃ a : Bool, ackOverdue n (if a then .a else .b) s = false) ∧
    (∃ s : State, linksRun s = true ∧ legacyMode s = true ∧ portState 1 s = 5 ∧ portState 0 s = 5) ∧
    (∃ s : State, (portState 1 s ≠ 5 ∨ portState 0 s ≠ 5)) :=
    ⟨⟨modPort 3 ({ · with qa := [(4, ⟨.hoof, .a, .broadcast, 0#32, 1, 0, 1023, 0, 0, []⟩)] }) up |> setF (Reg.LNK_PSTAT_STATE 3) 3, 3, ⟨.hoof, .a, .broadcast, 0#32, 1, 0, 1023, 0, 0, []⟩, by dsimp only; decide⟩,
    ⟨modPort 3 ({ · with spA := { Space.reset with ackPend := true } }) up |> setF (Reg.LNK_PSTAT_STATE 3) 3, 3, by dsimp only; decide⟩,
    ⟨modPort 3 ({ · with sending := [⟨0, 0, 1, 0, 0, none⟩] }) up |> setF (Reg.LNK_PSTAT_STATE 3) 3, 3, by decide⟩,
    ⟨modPort 3 ({ · with spA := { Space.reset with buf := [(0, 4, ⟨.hoof, .a, .broadcast, 0#32, 1, 0, 1023, 0, 0, []⟩)], ends := [0] } }) { up with now := 1000 * ms } |> setF (Reg.LNK_PSTAT_STATE 3) 3, 3, true, by decide⟩,
    ⟨up, 3, true, by decide⟩,
    ⟨up |> setB Reg.LNK_STAT_LEGACY true |> setF (Reg.LNK_PSTAT_STATE 1) 5 |> setF (Reg.LNK_PSTAT_STATE 0) 5, by decide⟩,
    ⟨up, by decide⟩⟩

theorem hyps_HoofbeatAndStreams :
    (∃ s : State, linksRun s = true ∧ s.ft % ms < 6) ∧
    (∃ s : State, 6 ≤ s.ft % ms) ∧
    (∃ s : State, ∃ k : Fin 2, ∃ r : Word, ∃ h : Nat, 
     let home := fun (k : Fin 2) (r : Word) (h : Nat) => homeRoute k s = some (r, h) ∧ 1 ≤ h ∧ h ≤ 16 ∧ portOpen (routePort r) s = true ∧
       bit (Reg.FAB_HOME_HCTL_VALID k) s = true
     linksRun s = true ∧ bit (Reg.FAB_HOME_HCTL_VALID (1 - k)) s = false ∧ home k r h ∧ s.fab.statusAt.all (fun u => decide (u + getF Reg.FAB_HOOF_RPT s * 10 * ms ≤ s.now)) = true) ∧
    (∃ s : State, s.fab.statusAt.any (fun u => decide (s.now < u + getF Reg.FAB_HOOF_RPT s * 10 * ms)) = true) ∧
    (∃ s : State, ∃ k : Fin 256, ∃ g : Fin 2, ∃ r : Word, ∃ h : Nat, 
     let home := fun (k : Fin 2) (r : Word) (h : Nat) => homeRoute k s = some (r, h) ∧ 1 ≤ h ∧ h ≤ 16 ∧ portOpen (routePort r) s = true ∧
       bit (Reg.FAB_HOME_HCTL_VALID k) s = true
     linksRun s = true ∧ home g r h ∧ (sessionOf k s).state = 1 ∧ (sessionOf k s).gw = g.val ∧ (sessionOf k s).fill ≠ 0 ∧ nth s.fab.planned g none = none ∧ (port (routePort r) s).qb = [] ∧ wordBefore (sessionOf k s).next (oldestWord s) = false ∧ (maskChannels (sessionOf k s).mask).length * (sessionOf k s).fill ≤ 126 ∧ ((∀ i, i < (sessionOf k s).fill → wordBefore (((sessionOf k s).next + i * ((sessionOf k s).div + 1)) % 2 ^ 32) (reg s Reg.CMS_HWIDX).toNat = true))) ∧
    (∃ s : State, ∃ k : Fin 256, (sessionOf k s).next < 2 ^ 32 ∧ wordBefore (sessionOf k s).next (oldestWord s) = false ∧ wordBefore (sessionOf k s).next (reg s Reg.CMS_HWIDX).toNat = false) ∧
    (∃ s : State, ∃ b : Fin 6, ∃ k : Fin 2, ∃ bits : Nat, ∃ time : Nat, ∃ r : Word, ∃ h : Nat, 
     let home := fun (k : Fin 2) (r : Word) (h : Nat) => homeRoute k s = some (r, h) ∧ 1 ≤ h ∧ h ≤ 16 ∧ portOpen (routePort r) s = true ∧
       bit (Reg.FAB_HOME_HCTL_VALID k) s = true
     let resting := fun b : Nat => (assoc b s.fab.evLast).all (fun u => decide (u + 100000 ≤ s.now)) = true
     linksRun s = true ∧ hasRole s = false ∧ home k r h ∧ getF Reg.FAB_CFG_EVGW s = k.val ∧ assoc b.val s.fab.evPend = some (bits, time) ∧ resting b ∧ (port (routePort r) s).qc = []) ∧
    (∃ s : State, ∃ b : Fin 6, ∃ bits : Nat, ∃ time : Nat, 
     let resting := fun b : Nat => (assoc b s.fab.evLast).all (fun u => decide (u + 100000 ≤ s.now)) = true
     linksRun s = true ∧ hasRole s = true ∧ isGen2 s = true ∧ assoc b.val s.fab.evPend = some (bits, time) ∧ resting b ∧ s.hst.evq.length < 64 ∧ nth s.hst.lost 2 0 = 0) ∧
    (∃ s : State, ∃ b : Fin 6, ∃ u : Nat, assoc b.val s.fab.evLast = some u ∧ s.now < u + 100000) :=
    ⟨⟨up |> setF (Reg.LNK_PSTAT_STATE 3) 3, by decide⟩,
    ⟨{ up with ft := 6 }, by decide⟩,
    ⟨homed, 0, 3#32, 2, by dsimp only; decide⟩,
    ⟨onFab ({ · with statusAt := some 0 }) homed, by decide⟩,
    ⟨onFab ({ · with sessions := [(8, openSession)] }) homed |> setReg Reg.CMS_HWIDX 5#32 |> setReg Reg.CMS_CHEN 1#32, 8, 0, 3#32, 2, by dsimp only; decide⟩,
    ⟨onFab ({ · with sessions := [(8, openSession)] }) homed, 8, by decide⟩,
    ⟨onFab ({ · with evPend := [(1, 6, 77)] }) homed, 1, 0, 6, 77, 3#32, 2, by dsimp only; decide⟩,
    ⟨onHst ({ · with spi := 2 }) (onFab ({ · with evPend := [(1, 6, 77)] }) gate) |> setF Reg.HST_STAT_GEN 2, 1, 6, 77, by dsimp only; decide⟩,
    ⟨onFab ({ · with evPend := [(1, 6, 77)], evLast := [(1, 0)] }) up, 1, 0, by decide⟩⟩

theorem hyps_HoofbeatNotices :
    (∃ s : State, ∃ n : Fin 4, ∃ f : Frame, 
     let runs := linksRun s = true
     runs ∧ isHoof 0 f = true ∧ (port n s).beatSeen = true) ∧
    (∃ s : State, ∃ f : Frame, 
     let runs := linksRun s = true
     runs ∧ isHoof 0 f = true) ∧
    (∃ s : State, ∃ f : Frame, ∃ k : Fin 2, 
     let runs := linksRun s = true
     let failing := fun (k : Fin 2) (hit : List Nat → Bool) => runs ∧ hasRole s = false ∧ bit (Reg.FAB_HOME_HCTL_VALID k) s = true ∧
       bit (Reg.FAB_HOME_HCTL_VALID (1 - k)) s = false ∧ bit (Reg.FAB_HOME_HCTL_PFAIL k) s = false ∧ bit (Reg.FAB_HOME_HCTL_AFAIL k) s = false ∧
       bit (Reg.FAB_HOME_HCTL_USE k) s = false ∧ getF (Reg.FAB_HOME_HCTL_AHOP k) s ≠ 0 ∧ hit (homeLists k s).1 = true ∧ hit (homeLists k s).2 = false
     failing k (listCrosses (hoofSender f) (hoofPartner f)) ∧ isHoof 2 f = true) ∧
    (∃ s : State, ∃ f : Frame, ∃ k : Fin 2, 
     let runs := linksRun s = true
     let failing := fun (k : Fin 2) (hit : List Nat → Bool) => runs ∧ hasRole s = false ∧ bit (Reg.FAB_HOME_HCTL_VALID k) s = true ∧
       bit (Reg.FAB_HOME_HCTL_VALID (1 - k)) s = false ∧ bit (Reg.FAB_HOME_HCTL_PFAIL k) s = false ∧ bit (Reg.FAB_HOME_HCTL_AFAIL k) s = false ∧
       bit (Reg.FAB_HOME_HCTL_USE k) s = false ∧ getF (Reg.FAB_HOME_HCTL_AHOP k) s ≠ 0 ∧ hit (homeLists k s).1 = true ∧ hit (homeLists k s).2 = false
     failing k (fun l => l.contains (hoofSender f)) ∧ isHoof 4 f = true ∧ hoofListed f = true) ∧
    (∃ s : State, ∃ f : Frame, 
     let runs := linksRun s = true
     runs ∧ isHoof 4 f = true ∧ hoofListed f = false) ∧
    (∃ s : State, ∃ f : Frame, 
     let runs := linksRun s = true
     runs ∧ isHoof 3 f = true) ∧
    (∃ s : State, ∃ f : Frame, ∃ k : Fin 256, ∃ g : Fin 2, 
     let runs := linksRun s = true
     runs ∧ isHoof 5 f = true ∧ homeSet (hoofSender f) s = some g.val ∧ (sessionOf k s).gw = g.val ∧ (sessionOf k s).state = 1) ∧
    (∃ s : State, ∃ f : Frame, 
     let runs := linksRun s = true
     runs ∧ hasRole s = true ∧ isHoof 1 f = true ∧ (entryOf (hoofSender f) s).state ≠ 0 ∧ (entryOf (hoofSender f) s).epoch = f.epoch) ∧
    (∃ s : State, ∃ f : Frame, 
     let runs := linksRun s = true
     runs ∧ hasRole s = true ∧ isHoof 1 f = true ∧ (entryOf (hoofSender f) s).state ≠ 0 ∧ (entryOf (hoofSender f) s).epoch ≠ f.epoch ∧ s.fab.reqs = []) ∧
    (∃ s : State, ∃ id : Fin 1023, hasRole s = true ∧ (entryOf id s).state = 1 ∧ (entryOf id s).miss = 2) ∧
    (∃ s : State, ∃ id : Fin 1023, hasRole s = true ∧ (((entryOf id s).state = 1 ∧ (entryOf id s).miss < 2 ∨ (entryOf id s).state = 3))) ∧
    (∃ s : State, ∃ src : Fin 1024, ∃ tag : Fin 256, ∃ u : Nat, (src.val, tag.val, u) ∈ s.fab.bpairs ∧ u + 2000000 ≤ s.now) ∧
    (∃ s : State, ∃ src : Fin 1024, ∃ tag : Fin 256, ((∀ p, p ∈ s.fab.bpairs → (p.1, p.2.1) = (src.val, tag.val) → s.now < p.2.2 + 2000000))) ∧
    (∃ s : State, ∃ k : Fin 2, ∃ u : Nat, streamsOut k s = false ∧ nth s.fab.planned k none = some u ∧ u + 200000 ≤ s.now) ∧
    (∃ s : State, ∃ k : Fin 2, ∃ u : Nat, nth s.fab.planned k none = some u ∧ s.now < u + 200000) ∧
    (∃ s : State, ∃ k : Fin 2, streamsOut k s = true) ∧
    (∃ s : State, ∃ tag : Fin 256, ∃ u : Nat, s.fab.run = none ∧ (tag.val, u) ∈ s.fab.tagsHeld ∧ u + getF Reg.FAB_TCFG_TMO s * 100000 ≤ s.now) ∧
    (∃ s : State, ∃ tag : Fin 256, s.fab.run = none ∧ ((∀ x, x ∈ s.fab.tagsHeld → x.1 = tag.val → s.now < x.2 + getF Reg.FAB_TCFG_TMO s * 100000))) ∧
    (∃ s : State, ∃ u : Nat, s.fab.holdSince = some u ∧ u + getF Reg.FAB_ENCFG_HOLD s * 10 * ms ≤ s.now ∧ hasRole s = true ∧ bit Reg.FAB_ID_VALID s = false ∧ s.fab.run = none ∧ s.sys.ctlBusy = false ∧ bit Reg.BST_CTLSTAT_ROMBAD s = false) ∧
    (∃ s : State, ∃ u : Nat, s.fab.holdSince = some u ∧ s.now < u + getF Reg.FAB_ENCFG_HOLD s * 10 * ms) :=
    ⟨⟨modPort 3 ({ · with beatSeen := true }) up |> setF (Reg.LNK_PSTAT_STATE 3) 3, 3, hoofOf 0 0#32, by dsimp only; decide⟩,
    ⟨up |> setF (Reg.LNK_PSTAT_STATE 3) 3, hoofOf 0 0#32, by dsimp only; decide⟩,
    ⟨homed |> setReg (Reg.FAB_HOME_PLIST0 0) 5#32 |> setF (Reg.FAB_HOME_HCTL_AHOP 0) 1 |> setReg (Reg.FAB_HOME_ALIST0 0) 6#32, hoofOf 2 0x80070000#32, 0, by dsimp only; decide⟩,
    ⟨homed |> setReg (Reg.FAB_HOME_PLIST0 0) 5#32 |> setF (Reg.FAB_HOME_HCTL_AHOP 0) 1 |> setReg (Reg.FAB_HOME_ALIST0 0) 6#32, hoofOf 4 0#32, 0, by dsimp only; decide⟩,
    ⟨up, ⟨.hoof, .a, .broadcast, 0#32, 1, 1023, 1023, 0, 0, [4#32, 0#32, 0#32, 0#32]⟩, by dsimp only; decide⟩,
    ⟨gate, hoofOf 3 0#32, by dsimp only; decide⟩,
    ⟨onFab ({ · with sessions := [(8, openSession)] }) homed |> setF (Reg.FAB_HOME_HCTL_GWID 0) 5, hoofOf 5 0#32, 8, 0, by dsimp only; decide⟩,
    ⟨onFab ({ · with table := [(5, { RouteEntry.empty with state := 3, miss := 4, phop := 1 })] }) gate, hoofOf 1 0#32, by dsimp only; decide⟩,
    ⟨onFab ({ · with table := [(5, { RouteEntry.empty with state := 3, miss := 4, phop := 1, epoch := 9 })] }) gate, hoofOf 1 0#32, by dsimp only; decide⟩,
    ⟨onFab ({ · with table := [(5, { RouteEntry.empty with state := 1, miss := 2, phop := 1 })] }) gate, 5, by decide⟩,
    ⟨onFab ({ · with table := [(5, { RouteEntry.empty with state := 1, miss := 1, phop := 1 })] }) gate, 5, by decide⟩,
    ⟨onFab ({ · with bpairs := [(5, 6, 0), (5, 7, 0)] }) { up with now := 2000000 }, 5, 6, 0, by decide⟩,
    ⟨onFab ({ · with bpairs := [(5, 6, 0), (5, 7, 0)] }) up, 5, 6, by decide⟩,
    ⟨onFab ({ · with planned := [some 0, some 0] }) { up with now := 200000 }, 0, 0, by decide⟩,
    ⟨onFab ({ · with planned := [some 0, some 0] }) up, 0, 0, by decide⟩,
    ⟨modPort 3 ({ · with spBd := { Space.reset with buf := [(0, 4, ⟨.stream, .b, .nodeId, 0#32, 1, 5, 1023, 0, 0, []⟩)] } }) up, 0, by decide⟩,
    ⟨onFab ({ · with tagsHeld := [(9, 0), (10, 0)] }) { gate with now := 1000000 * ms }, 9, 0, by decide⟩,
    ⟨onFab ({ · with tagsHeld := [(9, 0), (10, 0)] }) gate, 9, by decide⟩,
    ⟨onFab ({ · with holdSince := some 0 }) { gate with now := 1000000 * ms }, 0, by decide⟩,
    ⟨onFab ({ · with holdSince := some 0 }) gate, 0, by decide⟩⟩

theorem hyps_FabricRequests :
    (∃ s : State, ∃ f : Frame, 
     let path := fun (f : Frame) => linksRun s = true ∧ coreUp s = true ∧ s.fab.inbox = [] ∧ f.mode ≠ .broadcast ∧
       (reqHead f).posted = false ∧ (reqHead f).reissue = false ∧
       1 ≤ (reqHead f).rhop ∧ (reqHead f).rhop ≤ 16 ∧ portOpen (routePort (reqHead f).rroute) s = true ∧
       (port (routePort (reqHead f).rroute) s).queue f.cls = [] ∧ (f.cls = .d → 0 < getF Reg.FAB_ARB_DWM s)
     let turn := fun (f : Frame) => path f ∧ ((reqHead f).anyep = true ∨ (reqHead f).expep = ownEpoch s)
     let words := fun (f : Frame) => wordAddrs (reqHead f).addr (reqHead f).count
     turn f ∧ f.type = .read ∧ (reqHead f).addr % 4 = 0 ∧ (((reqHead f).addr % 8 = 0 ∨ (reqHead f).count ≤ 1)) ∧ ((∀ b, b ∈ words f → addrClass b = .register ∧ (b < 0x5400 ∨ 0x5608 ≤ b)))) ∧
    (∃ s : State, ∃ f : Frame, 
     let path := fun (f : Frame) => linksRun s = true ∧ coreUp s = true ∧ s.fab.inbox = [] ∧ f.mode ≠ .broadcast ∧
       (reqHead f).posted = false ∧ (reqHead f).reissue = false ∧
       1 ≤ (reqHead f).rhop ∧ (reqHead f).rhop ≤ 16 ∧ portOpen (routePort (reqHead f).rroute) s = true ∧
       (port (routePort (reqHead f).rroute) s).queue f.cls = [] ∧ (f.cls = .d → 0 < getF Reg.FAB_ARB_DWM s)
     let turn := fun (f : Frame) => path f ∧ ((reqHead f).anyep = true ∨ (reqHead f).expep = ownEpoch s)
     let words := fun (f : Frame) => wordAddrs (reqHead f).addr (reqHead f).count
     turn f ∧ f.type = .read ∧ ((∃ b, b ∈ words f ∧ addrClass b = .reserved))) ∧
    (∃ s : State, ∃ f : Frame, ∃ v : Word, 
     let path := fun (f : Frame) => linksRun s = true ∧ coreUp s = true ∧ s.fab.inbox = [] ∧ f.mode ≠ .broadcast ∧
       (reqHead f).posted = false ∧ (reqHead f).reissue = false ∧
       1 ≤ (reqHead f).rhop ∧ (reqHead f).rhop ≤ 16 ∧ portOpen (routePort (reqHead f).rroute) s = true ∧
       (port (routePort (reqHead f).rroute) s).queue f.cls = [] ∧ (f.cls = .d → 0 < getF Reg.FAB_ARB_DWM s)
     let turn := fun (f : Frame) => path f ∧ ((reqHead f).anyep = true ∨ (reqHead f).expep = ownEpoch s)
     turn f ∧ f.type = .write ∧ (reqHead f).addr = Reg.FAB_HOME_AROUTE 0 ∧ (reqHead f).count = 1 ∧ f.payload.drop 4 = [v]) ∧
    (∃ s : State, ∃ f : Frame, 
     let path := fun (f : Frame) => linksRun s = true ∧ coreUp s = true ∧ s.fab.inbox = [] ∧ f.mode ≠ .broadcast ∧
       (reqHead f).posted = false ∧ (reqHead f).reissue = false ∧
       1 ≤ (reqHead f).rhop ∧ (reqHead f).rhop ≤ 16 ∧ portOpen (routePort (reqHead f).rroute) s = true ∧
       (port (routePort (reqHead f).rroute) s).queue f.cls = [] ∧ (f.cls = .d → 0 < getF Reg.FAB_ARB_DWM s)
     let turn := fun (f : Frame) => path f ∧ ((reqHead f).anyep = true ∨ (reqHead f).expep = ownEpoch s)
     turn f ∧ isEnum 1 f = true) ∧
    (∃ s : State, ∃ f : Frame, 
     let path := fun (f : Frame) => linksRun s = true ∧ coreUp s = true ∧ s.fab.inbox = [] ∧ f.mode ≠ .broadcast ∧
       (reqHead f).posted = false ∧ (reqHead f).reissue = false ∧
       1 ≤ (reqHead f).rhop ∧ (reqHead f).rhop ≤ 16 ∧ portOpen (routePort (reqHead f).rroute) s = true ∧
       (port (routePort (reqHead f).rroute) s).queue f.cls = [] ∧ (f.cls = .d → 0 < getF Reg.FAB_ARB_DWM s)
     let turn := fun (f : Frame) => path f ∧ ((reqHead f).anyep = true ∨ (reqHead f).expep = ownEpoch s)
     turn f ∧ isEnum 2 f = true ∧ nth f.payload 3 0#32 = reg s Reg.FAB_UID0 ∧ nth f.payload 4 0#32 = reg s Reg.FAB_UID1) ∧
    (∃ s : State, ∃ f : Frame, 
     let path := fun (f : Frame) => linksRun s = true ∧ coreUp s = true ∧ s.fab.inbox = [] ∧ f.mode ≠ .broadcast ∧
       (reqHead f).posted = false ∧ (reqHead f).reissue = false ∧
       1 ≤ (reqHead f).rhop ∧ (reqHead f).rhop ≤ 16 ∧ portOpen (routePort (reqHead f).rroute) s = true ∧
       (port (routePort (reqHead f).rroute) s).queue f.cls = [] ∧ (f.cls = .d → 0 < getF Reg.FAB_ARB_DWM s)
     let turn := fun (f : Frame) => path f ∧ ((reqHead f).anyep = true ∨ (reqHead f).expep = ownEpoch s)
     turn f ∧ isEnum 3 f = true ∧ hasRole s = true ∧ enumeratesHere s = false ∧ getBits (nth f.payload 3 0#32) 0 10 ≠ 1023) ∧
    (∃ s : State, ∃ f : Frame, 
     let path := fun (f : Frame) => linksRun s = true ∧ coreUp s = true ∧ s.fab.inbox = [] ∧ f.mode ≠ .broadcast ∧
       (reqHead f).posted = false ∧ (reqHead f).reissue = false ∧
       1 ≤ (reqHead f).rhop ∧ (reqHead f).rhop ≤ 16 ∧ portOpen (routePort (reqHead f).rroute) s = true ∧
       (port (routePort (reqHead f).rroute) s).queue f.cls = [] ∧ (f.cls = .d → 0 < getF Reg.FAB_ARB_DWM s)
     let turn := fun (f : Frame) => path f ∧ ((reqHead f).anyep = true ∨ (reqHead f).expep = ownEpoch s)
     let session := fun (f : Frame) (op : Nat) => turn f ∧ isSession op f = true ∧ getBits (nth f.payload 2 0#32) 16 2 = 0 ∧
       bit (Reg.FAB_HOME_HCTL_VALID 0) s = true ∧ homeDead 0 s = false
     let number := fun (f : Frame) => getBits (nth f.payload 2 0#32) 8 8
     session f 1 ∧ s.cms.layoutHeld = false ∧ s.cms.calChen = none ∧ (sessionOf (number f) s).state = 0 ∧ maskBad (nth f.payload 3 0#32 &&& 0x01FFFFFF#32) (getBits (nth f.payload 4 0#32) 8 7) s = false) ∧
    (∃ s : State, ∃ f : Frame, 
     let path := fun (f : Frame) => linksRun s = true ∧ coreUp s = true ∧ s.fab.inbox = [] ∧ f.mode ≠ .broadcast ∧
       (reqHead f).posted = false ∧ (reqHead f).reissue = false ∧
       1 ≤ (reqHead f).rhop ∧ (reqHead f).rhop ≤ 16 ∧ portOpen (routePort (reqHead f).rroute) s = true ∧
       (port (routePort (reqHead f).rroute) s).queue f.cls = [] ∧ (f.cls = .d → 0 < getF Reg.FAB_ARB_DWM s)
     let turn := fun (f : Frame) => path f ∧ ((reqHead f).anyep = true ∨ (reqHead f).expep = ownEpoch s)
     let session := fun (f : Frame) (op : Nat) => turn f ∧ isSession op f = true ∧ getBits (nth f.payload 2 0#32) 16 2 = 0 ∧
       bit (Reg.FAB_HOME_HCTL_VALID 0) s = true ∧ homeDead 0 s = false
     let number := fun (f : Frame) => getBits (nth f.payload 2 0#32) 8 8
     session f 2 ∧ (sessionOf (number f) s).state ≠ 0) ∧
    (∃ s : State, ∃ f : Frame, 
     let path := fun (f : Frame) => linksRun s = true ∧ coreUp s = true ∧ s.fab.inbox = [] ∧ f.mode ≠ .broadcast ∧
       (reqHead f).posted = false ∧ (reqHead f).reissue = false ∧
       1 ≤ (reqHead f).rhop ∧ (reqHead f).rhop ≤ 16 ∧ portOpen (routePort (reqHead f).rroute) s = true ∧
       (port (routePort (reqHead f).rroute) s).queue f.cls = [] ∧ (f.cls = .d → 0 < getF Reg.FAB_ARB_DWM s)
     let turn := fun (f : Frame) => path f ∧ ((reqHead f).anyep = true ∨ (reqHead f).expep = ownEpoch s)
     let session := fun (f : Frame) (op : Nat) => turn f ∧ isSession op f = true ∧ getBits (nth f.payload 2 0#32) 16 2 = 0 ∧
       bit (Reg.FAB_HOME_HCTL_VALID 0) s = true ∧ homeDead 0 s = false
     let number := fun (f : Frame) => getBits (nth f.payload 2 0#32) 8 8
     session f 3 ∧ (sessionOf (number f) s).state ≠ 0) ∧
    (∃ s : State, ∃ f : Frame, 
     let path := fun (f : Frame) => linksRun s = true ∧ coreUp s = true ∧ s.fab.inbox = [] ∧ f.mode ≠ .broadcast ∧
       (reqHead f).posted = false ∧ (reqHead f).reissue = false ∧
       1 ≤ (reqHead f).rhop ∧ (reqHead f).rhop ≤ 16 ∧ portOpen (routePort (reqHead f).rroute) s = true ∧
       (port (routePort (reqHead f).rroute) s).queue f.cls = [] ∧ (f.cls = .d → 0 < getF Reg.FAB_ARB_DWM s)
     let turn := fun (f : Frame) => path f ∧ ((reqHead f).anyep = true ∨ (reqHead f).expep = ownEpoch s)
     let session := fun (f : Frame) (op : Nat) => turn f ∧ isSession op f = true ∧ getBits (nth f.payload 2 0#32) 16 2 = 0 ∧
       bit (Reg.FAB_HOME_HCTL_VALID 0) s = true ∧ homeDead 0 s = false
     let number := fun (f : Frame) => getBits (nth f.payload 2 0#32) 8 8
     session f 4 ∧ (sessionOf (number f) s).state ≠ 0) ∧
    (∃ s : State, ∃ f : Frame, 
     let path := fun (f : Frame) => linksRun s = true ∧ coreUp s = true ∧ s.fab.inbox = [] ∧ f.mode ≠ .broadcast ∧
       (reqHead f).posted = false ∧ (reqHead f).reissue = false ∧
       1 ≤ (reqHead f).rhop ∧ (reqHead f).rhop ≤ 16 ∧ portOpen (routePort (reqHead f).rroute) s = true ∧
       (port (routePort (reqHead f).rroute) s).queue f.cls = [] ∧ (f.cls = .d → 0 < getF Reg.FAB_ARB_DWM s)
     path f ∧ (reqHead f).anyep = false ∧ (reqHead f).expep ≠ ownEpoch s ∧ f.type = .write) :=
    ⟨⟨up |> setF (Reg.LNK_PSTAT_STATE 3) 3, reqFrame .read [0x4800#32, 2#32], by dsimp only; decide⟩,
    ⟨up |> setF (Reg.LNK_PSTAT_STATE 3) 3, reqFrame .read [0x8800#32, 2#32], by dsimp only; decide⟩,
    ⟨up |> setF (Reg.LNK_PSTAT_STATE 3) 3, reqFrame .write [0x4844#32, 1#32, 27#32], 27#32, by dsimp only; decide⟩,
    ⟨up |> setF (Reg.LNK_PSTAT_STATE 3) 3, reqFrame .enumeration [1#32], by dsimp only; decide⟩,
    ⟨up |> setF (Reg.LNK_PSTAT_STATE 3) 3, reqFrame .enumeration [2#32, 0#32, 0#32, 77#32], by dsimp only; decide⟩,
    ⟨gate |> setF (Reg.LNK_PSTAT_STATE 3) 3 |> setB Reg.FAB_ID_VALID true, reqFrame .enumeration ([3#32, 77#32] ++ List.replicate 16 3#32), by dsimp only; decide⟩,
    ⟨homed |> setReg Reg.CMS_CHEN 3#32, reqFrame .session [0x801#32, 1#32, 0x200#32], by dsimp only; decide⟩,
    ⟨onFab ({ · with sessions := [(8, openSession)] }) homed, reqFrame .session [0x802#32, 1#32, 0x200#32], by dsimp only; decide⟩,
    ⟨onFab ({ · with sessions := [(8, openSession)] }) homed, reqFrame .session [0x803#32, 1#32, 0x200#32, 9#32], by dsimp only; decide⟩,
    ⟨onFab ({ · with sessions := [(8, openSession)] }) homed, reqFrame .session [0x804#32, 1#32, 0x200#32], by dsimp only; decide⟩,
    ⟨up |> setF (Reg.LNK_PSTAT_STATE 3) 3, { reqFrame .write [0x4844#32, 1#32, 27#32] with payload := [3#32, 0x101#32, 0x4844#32, 1#32, 27#32] }, by dsimp only; decide⟩⟩

theorem hyps_Enumeration :
    (∃ s : State, 
     let able := coreUp s = true ∧ s.sys.ctlBusy = false ∧ bit Reg.BST_CTLSTAT_ROMBAD s = false
     let free := able ∧ hasRole s = true ∧ s.fab.run = none
     free) ∧
    (∃ s : State, 
     let able := coreUp s = true ∧ s.sys.ctlBusy = false ∧ bit Reg.BST_CTLSTAT_ROMBAD s = false
     let free := able ∧ hasRole s = true ∧ s.fab.run = none
     free) ∧
    (∃ s : State, 
     let able := coreUp s = true ∧ s.sys.ctlBusy = false ∧ bit Reg.BST_CTLSTAT_ROMBAD s = false
     let free := able ∧ hasRole s = true ∧ s.fab.run = none
     free) ∧
    (∃ s : State, 
     let able := coreUp s = true ∧ s.sys.ctlBusy = false ∧ bit Reg.BST_CTLSTAT_ROMBAD s = false
     able ∧ hasRole s = true ∧ s.fab.run.isSome = true) ∧
    (∃ s : State, 
     let able := coreUp s = true ∧ s.sys.ctlBusy = false ∧ bit Reg.BST_CTLSTAT_ROMBAD s = false
     able ∧ hasRole s = false) ∧
    (∃ s : State, ∃ f : Frame, ∃ i : Nat, ∃ p : Nat, ∃ r : EnumRun, s.fab.run = some r ∧ probeOf f.tag s = some (i, p) ∧ f.type = .cpl ∧ ((cplStatus f = .ok ∨ cplStatus f = .delayed)) ∧ mustWithdraw r f s = false ∧ ((∀ x, x ∈ r.nodes → ¬ (x.uid0 = nth f.payload 2 0#32 ∧ x.uid1 = nth f.payload 3 0#32)))) ∧
    (∃ s : State, ∃ f : Frame, ∃ i : Nat, ∃ p : Nat, ∃ r : EnumRun, s.fab.run = some r ∧ probeOf f.tag s = some (i, p) ∧ f.type = .cpl ∧ cplStatus f = .ok ∧ mustWithdraw r f s = true ∧ r.ticket = none) ∧
    (∃ s : State, ∃ r : EnumRun, s.fab.run = some r ∧ r.planned = true ∧ ((r.written = true ∨ r.mode = 2)) ∧ r.work = [] ∧ r.out = [] ∧ ((∀ q, q ∈ s.fab.reqs → q.slot ≠ none)) ∧ r.ticket = some .direct) ∧
    (∃ s : State, ∃ f : Frame, ∃ r : Req, ∃ c : HostCmd, 
     let ended := fun (r : Req) (tag : Nat) => s.fab.run = none ∧ hasRole s = true ∧ s.fab.reqs = [r] ∧ r.tag = tag ∧ r.node = none ∧ isGen2 s = true ∧
       bit Reg.FLT_FENCE0_HST s = false
     coreUp s = true ∧ ended r f.tag ∧ f.type = .cpl ∧ r.slot = some c.slot ∧ r.frame.mode ≠ .broadcast ∧ s.hst.cmds = [c] ∧ cplStatus f ≠ .ok ∧ cplStatus f ≠ .delayed) ∧
    (∃ s : State, ∃ tag : Fin 256, ∃ r : Req, ∃ c : HostCmd, 
     let ended := fun (r : Req) (tag : Nat) => s.fab.run = none ∧ hasRole s = true ∧ s.fab.reqs = [r] ∧ r.tag = tag ∧ r.node = none ∧ isGen2 s = true ∧
       bit Reg.FLT_FENCE0_HST s = false
     let expired := fun (r : Req) => (r.start s).any (fun u => decide (u + getF Reg.FAB_TCFG_TMO s * 100000 ≤ s.now))
     ended r tag ∧ expired r = true ∧ r.slot = some c.slot ∧ s.hst.cmds = [c]) ∧
    (∃ s : State, ∃ r : Req, 
     let expired := fun (r : Req) => (r.start s).any (fun u => decide (u + getF Reg.FAB_TCFG_TMO s * 100000 ≤ s.now))
     s.fab.reqs = [r] ∧ expired r = false) ∧
    (∃ s : State, ∃ f : Frame, coreUp s = true ∧ hasRole s = false ∧ f.type = .cpl) :=
    ⟨⟨gate |> setF (Reg.LNK_PSTAT_STATE 3) 3 |> setB Reg.FAB_ID_VALID true, by dsimp only; decide⟩,
    ⟨gate |> setF (Reg.LNK_PSTAT_STATE 3) 3 |> setB Reg.FAB_ID_VALID true, by dsimp only; decide⟩,
    ⟨gate |> setF (Reg.LNK_PSTAT_STATE 3) 3 |> setB Reg.FAB_ID_VALID true, by dsimp only; decide⟩,
    ⟨onFab ({ · with run := some probing }) gate, by dsimp only; decide⟩,
    ⟨up, by dsimp only; decide⟩,
    ⟨onFab ({ · with run := some probing }) gate, ⟨.cpl, .c, .routeWord, 0#32, 0, 1023, 1023, 0, 5, [0#32, 0x300#32, 9#32, 9#32, 0#32, 0x101#32]⟩, 0, 3, probing, by decide⟩,
    ⟨onFab ({ · with run := some { probing with commanded := false } }) gate |> setReg Reg.FAB_UID0 7#32, ⟨.cpl, .c, .routeWord, 0#32, 0, 1023, 1023, 0, 5, [0#32, 0x340#32, 1#32, 0#32, 0#32, 0#32]⟩, 0, 3, { probing with commanded := false }, by decide⟩,
    ⟨onFab ({ · with run := some { probing with out := [], planned := true, written := true, ticket := some .direct } }) gate, { probing with out := [], planned := true, written := true, ticket := some .direct }, by decide⟩,
    ⟨onHst ({ · with cmds := [cmd4] }) (onFab ({ · with reqs := [sentReq] }) gate) |> setF Reg.HST_STAT_GEN 2, ⟨.cpl, .c, .routeWord, 0#32, 0, 5, 1023, 0, 9, [BitVec.ofNat 32 Status.badAddress.code, 8#32]⟩, sentReq, cmd4, by dsimp only; decide⟩,
    ⟨onHst ({ · with cmds := [cmd4] }) (onFab ({ · with reqs := [sentReq] }) { gate with now := 1000000 * ms }) |> setF Reg.HST_STAT_GEN 2, 9, sentReq, cmd4, by dsimp only; decide⟩,
    ⟨onHst ({ · with cmds := [cmd4] }) (onFab ({ · with reqs := [sentReq] }) gate) |> setF Reg.HST_STAT_GEN 2, sentReq, by dsimp only; decide⟩,
    ⟨up, ⟨.cpl, .c, .routeWord, 0#32, 0, 5, 1023, 0, 9, [0#32, 8#32]⟩, by decide⟩⟩

theorem hyps_FramedSpi :
    (∃ s : State, ∃ bits : List Bool, 
     let g2 := hostPins s = true ∧ hasRole s = true ∧ isGen2 s = true ∧ s.hst.spi ≠ 1
     let fenced := bit Reg.FLT_FENCE0_HST s = true
     let desc := fun bits : List Bool => bytesWords ((spiBytes bits).take 64)
     let more := fun bits : List Bool => if descOp (desc bits) = 2 ∧ descInline (desc bits) = false then 4 * descCount (desc bits) else 0
     let crc := fun bits : List Bool => bytesNat (((spiBytes bits).drop (64 + more bits)).take 4) = (crc32c ((spiBytes bits).take (64 + more bits))).toNat
     let good := fun bits : List Bool => 68 + more bits ≤ (spiBytes bits).length ∧ crc bits
     g2 ∧ ¬ fenced ∧ s.hst.g2busy = false ∧ good bits ∧ descBad true (desc bits) = false) ∧
    (∃ s : State, ∃ bits : List Bool, 
     let g2 := hostPins s = true ∧ hasRole s = true ∧ isGen2 s = true ∧ s.hst.spi ≠ 1
     let desc := fun bits : List Bool => bytesWords ((spiBytes bits).take 64)
     let more := fun bits : List Bool => if descOp (desc bits) = 2 ∧ descInline (desc bits) = false then 4 * descCount (desc bits) else 0
     let crc := fun bits : List Bool => bytesNat (((spiBytes bits).drop (64 + more bits)).take 4) = (crc32c ((spiBytes bits).take (64 + more bits))).toNat
     g2 ∧ 68 + more bits ≤ (spiBytes bits).length ∧ ¬ crc bits) ∧
    (∃ s : State, ∃ bits : List Bool, 
     let g2 := hostPins s = true ∧ hasRole s = true ∧ isGen2 s = true ∧ s.hst.spi ≠ 1
     let desc := fun bits : List Bool => bytesWords ((spiBytes bits).take 64)
     let more := fun bits : List Bool => if descOp (desc bits) = 2 ∧ descInline (desc bits) = false then 4 * descCount (desc bits) else 0
     g2 ∧ (spiBytes bits).length < 68 + more bits) ∧
    (∃ s : State, 
     let g2 := hostPins s = true ∧ hasRole s = true ∧ isGen2 s = true ∧ s.hst.spi ≠ 1
     g2) ∧
    (∃ s : State, 
     let g2 := hostPins s = true ∧ hasRole s = true ∧ isGen2 s = true ∧ s.hst.spi ≠ 1
     g2) ∧
    (∃ s : State, ∃ bits : List Bool, 
     let g2 := hostPins s = true ∧ hasRole s = true ∧ isGen2 s = true ∧ s.hst.spi ≠ 1
     let fenced := bit Reg.FLT_FENCE0_HST s = true
     let desc := fun bits : List Bool => bytesWords ((spiBytes bits).take 64)
     let more := fun bits : List Bool => if descOp (desc bits) = 2 ∧ descInline (desc bits) = false then 4 * descCount (desc bits) else 0
     let crc := fun bits : List Bool => bytesNat (((spiBytes bits).drop (64 + more bits)).take 4) = (crc32c ((spiBytes bits).take (64 + more bits))).toNat
     let good := fun bits : List Bool => 68 + more bits ≤ (spiBytes bits).length ∧ crc bits
     g2 ∧ ((s.hst.g2busy = true ∨ fenced)) ∧ good bits) ∧
    (∃ s : State, ∃ d : HostDone, ∃ l : List HostDone, 
     let g2 := hostPins s = true ∧ hasRole s = true ∧ isGen2 s = true ∧ s.hst.spi ≠ 1
     let fenced := bit Reg.FLT_FENCE0_HST s = true
     g2 ∧ ¬ fenced ∧ s.hst.waiting = d :: l) ∧
    (∃ s : State, ∃ e : EventEntry, ∃ l : List EventEntry, 
     let g2 := hostPins s = true ∧ hasRole s = true ∧ isGen2 s = true ∧ s.hst.spi ≠ 1
     let fenced := bit Reg.FLT_FENCE0_HST s = true
     g2 ∧ ¬ fenced ∧ s.hst.evq = e :: l) ∧
    (∃ s : State, ∃ arg : Fin 256, 
     let g2 := hostPins s = true ∧ hasRole s = true ∧ isGen2 s = true ∧ s.hst.spi ≠ 1
     let fenced := bit Reg.FLT_FENCE0_HST s = true
     g2 ∧ ¬ fenced ∧ arg.val ≠ 0 ∧ s.hst.sbuf ≠ []) ∧
    (∃ s : State, 
     let g2 := hostPins s = true ∧ hasRole s = true ∧ isGen2 s = true ∧ s.hst.spi ≠ 1
     let fenced := bit Reg.FLT_FENCE0_HST s = true
     g2 ∧ ((s.hst.waiting = [] ∨ fenced))) ∧
    (∃ s : State, 
     let g2 := hostPins s = true ∧ hasRole s = true ∧ isGen2 s = true ∧ s.hst.spi ≠ 1
     let fenced := bit Reg.FLT_FENCE0_HST s = true
     g2 ∧ ((s.hst.evq = [] ∨ fenced))) ∧
    (∃ s : State, ∃ arg : Fin 256, 
     let g2 := hostPins s = true ∧ hasRole s = true ∧ isGen2 s = true ∧ s.hst.spi ≠ 1
     let fenced := bit Reg.FLT_FENCE0_HST s = true
     g2 ∧ arg.val ≠ 0 ∧ ((s.hst.sbuf = [] ∨ fenced))) ∧
    (∃ s : State, 
     let g2 := hostPins s = true ∧ hasRole s = true ∧ isGen2 s = true ∧ s.hst.spi ≠ 1
     g2) ∧
    (∃ s : State, 
     let g2 := hostPins s = true ∧ hasRole s = true ∧ isGen2 s = true ∧ s.hst.spi ≠ 1
     g2) ∧
    (∃ s : State, ∃ bits : List Bool, 
     let g2 := hostPins s = true ∧ hasRole s = true ∧ isGen2 s = true ∧ s.hst.spi ≠ 1
     let fenced := bit Reg.FLT_FENCE0_HST s = true
     let desc := fun bits : List Bool => bytesWords ((spiBytes bits).take 64)
     let more := fun bits : List Bool => if descOp (desc bits) = 2 ∧ descInline (desc bits) = false then 4 * descCount (desc bits) else 0
     let crc := fun bits : List Bool => bytesNat (((spiBytes bits).drop (64 + more bits)).take 4) = (crc32c ((spiBytes bits).take (64 + more bits))).toNat
     let good := fun bits : List Bool => 68 + more bits ≤ (spiBytes bits).length ∧ crc bits
     g2 ∧ ¬ fenced ∧ s.hst.g2busy = false ∧ good bits ∧ descBad true (desc bits) = true) ∧
    (∃ s : State, hasRole s = true ∧ isGen2 s = true ∧ s.hst.g2At + getF Reg.HST_G2CFG_HTO s * 10 * ms ≤ s.now) ∧
    (∃ s : State, hasRole s = true ∧ isGen2 s = true ∧ s.now < s.hst.g2At + getF Reg.HST_G2CFG_HTO s * 10 * ms) :=
    ⟨⟨gate2, bitsOf nopBytes, by dsimp only; decide⟩,
    ⟨gate2, bitsOf (List.replicate 68 1#8), by dsimp only; decide⟩,
    ⟨gate2, bitsOf (List.replicate 67 0#8), by dsimp only; decide⟩,
    ⟨gate2, by dsimp only; decide⟩,
    ⟨gate2, by dsimp only; decide⟩,
    ⟨onHst ({ · with g2busy := true }) gate2, bitsOf nopBytes, by dsimp only; decide⟩,
    ⟨onHst ({ · with waiting := [doneCpl] }) gate2, doneCpl, [], by dsimp only; decide⟩,
    ⟨onHst ({ · with evq := [⟨5, 1, 0, 0, 0, []⟩] }) gate2, ⟨5, 1, 0, 0, 0, []⟩, [], by dsimp only; decide⟩,
    ⟨onHst ({ · with sbuf := [⟨0, 1, 5, 0, 0, 0, []⟩] }) gate2, 1, by dsimp only; decide⟩,
    ⟨gate2, by dsimp only; decide⟩,
    ⟨gate2, by dsimp only; decide⟩,
    ⟨gate2, 3, by dsimp only; decide⟩,
    ⟨onHst ({ · with waiting := [doneCpl], gotCpl := true, gotStr := 1, sbuf := [⟨0, 1, 5, 0, 0, 0, []⟩] }) gate2, by dsimp only; decide⟩,
    ⟨gate2, by dsimp only; decide⟩,
    ⟨gate2, bitsOf (withCrc (List.replicate 64 0xFF#8)), by dsimp only; decide⟩,
    ⟨{ gate2 with now := 10 * ms * 1000 }, by decide⟩,
    ⟨{ gate2 with now := 5 }, by decide⟩⟩

theorem hyps_SpiGenerations :
    (∃ s : State, ∃ n : Fin 256, 
     let free := hostPins s = true ∧ gen3Holds s = false
     free ∧ s.hst.spi ≠ 2 ∧ 1 ≤ n.val ∧ n.val ≤ 16) ∧
    (∃ s : State, ∃ r : Fin 256, ∃ l : List (Fin 65536), 
     let free := hostPins s = true ∧ gen3Holds s = false
     free ∧ s.hst.spi ≠ 2 ∧ r.val = 7 ∧ l.length = 1) ∧
    (∃ s : State, 
     let free := hostPins s = true ∧ gen3Holds s = false
     free ∧ s.hst.spi = 2) ∧
    (∃ s : State, 
     let free := hostPins s = true ∧ gen3Holds s = false
     free ∧ s.hst.spi = 2) ∧
    (∃ s : State, 
     let free := hostPins s = true ∧ gen3Holds s = false
     free ∧ s.hst.spi = 1) ∧
    (∃ s : State, 
     let free := hostPins s = true ∧ gen3Holds s = false
     free ∧ s.hst.spi ≠ 2) ∧
    (∃ s : State, 
     let free := hostPins s = true ∧ gen3Holds s = false
     free ∧ s.hst.spi ≠ 1) ∧
    (∃ s : State, 
     let free := hostPins s = true ∧ gen3Holds s = false
     free ∧ hasRole s = true ∧ s.hst.spi = 2) ∧
    (∃ s : State, 
     let free := hostPins s = true ∧ gen3Holds s = false
     free ∧ s.hst.spi ≠ 0) ∧
    (∃ s : State, s.sys.phase = .active ∧ hasRole s = false ∧ s.hst.spi ≠ 1) ∧
    (∃ s : State, 
     let off := hostPins s = false ∨ gen3Holds s = true
     off) ∧
    (∃ s : State, 
     let off := hostPins s = false ∨ gen3Holds s = true
     off) ∧
    (∃ s : State, ∃ low : Fin 32, ∃ n : Fin 256, 
     let free := hostPins s = true ∧ gen3Holds s = false
     free ∧ s.hst.spi ≠ 2 ∧ ((n.val = 0 ∨ 16 < n.val ∨ low.val ≠ 0))) ∧
    (∃ s : State, 
     let free := hostPins s = true ∧ gen3Holds s = false
     s.hst.spi = 1 ∧ free) ∧
    (∃ s : State, ∃ d : Fin 2, ∃ r : Fin 256, ∃ v : Fin 65536, 
     let free := hostPins s = true ∧ gen3Holds s = false
     let legal := fun (r v : Nat) => (r = 4 ∧ v < 4 ∧ calRunning s = false) ∨ ((r = 5 ∨ r = 6) ∧ 500 ≤ v ∧ v ≤ 5500) ∨ (r = 8 ∧ 1 ≤ v ∧ v ≤ 1000)
     free ∧ s.hst.spi ≠ 2 ∧ legal r v ∧ g1Bad d r [v] s = false) :=
    ⟨⟨up, 3, by dsimp only; decide⟩,
    ⟨up, 0x07, [5], by dsimp only; decide⟩,
    ⟨onHst ({ · with spi := 2 }) up, by dsimp only; decide⟩,
    ⟨onHst ({ · with spi := 2 }) up, by dsimp only; decide⟩,
    ⟨onHst ({ · with spi := 1 }) up, by dsimp only; decide⟩,
    ⟨up, by dsimp only; decide⟩,
    ⟨up, by dsimp only; decide⟩,
    ⟨gate2, by dsimp only; decide⟩,
    ⟨onHst ({ · with spi := 1 }) up, by dsimp only; decide⟩,
    ⟨up, by decide⟩,
    ⟨gate3, by dsimp only; decide⟩,
    ⟨gate3, by dsimp only; decide⟩,
    ⟨up, 3, 1, by dsimp only; decide⟩,
    ⟨onHst ({ · with spi := 1 }) up, by dsimp only; decide⟩,
    ⟨up, 1, 5, 3000, by dsimp only; decide⟩⟩

theorem hyps_LegacyChain :
    (∃ s : State, ∃ bytes : List Byte, 
     let on := linksRun s = true ∧ legacyMode s = true ∧ portState 0 s = 5
     let good := fun (bytes : List Byte) (op : Nat) => legacyGood bytes = true ∧ legacyOp bytes = op
     on ∧ good bytes 3) ∧
    (∃ s : State, ∃ bytes : List Byte, ∃ first : Nat, 
     let on := linksRun s = true ∧ legacyMode s = true ∧ portState 0 s = 5
     let good := fun (bytes : List Byte) (op : Nat) => legacyGood bytes = true ∧ legacyOp bytes = op
     on ∧ good bytes 0 ∧ s.lnk.chain = some first ∧ legacyPos bytes = first + 1 ∧ first + 1 < 63) ∧
    (∃ s : State, ∃ bytes : List Byte, ∃ first : Nat, 
     let on := linksRun s = true ∧ legacyMode s = true ∧ portState 0 s = 5
     let good := fun (bytes : List Byte) (op : Nat) => legacyGood bytes = true ∧ legacyOp bytes = op
     on ∧ good bytes 1 ∧ s.lnk.chain = some first ∧ legacyPos bytes = first + 1 ∧ first + 1 < 63 ∧ byteAt bytes 2 = 7 ∧ byteAt bytes 3 = 1) ∧
    (∃ s : State, ∃ bytes : List Byte, ∃ first : Nat, 
     let on := linksRun s = true ∧ legacyMode s = true ∧ portState 0 s = 5
     let good := fun (bytes : List Byte) (op : Nat) => legacyGood bytes = true ∧ legacyOp bytes = op
     on ∧ good bytes 2 ∧ s.lnk.chain = some first ∧ byteAt bytes 2 = 7 ∧ byteAt bytes 3 = 1) ∧
    (∃ s : State, ∃ bytes : List Byte, 
     let on := linksRun s = true ∧ legacyMode s = true ∧ portState 0 s = 5
     on ∧ legacyGood bytes = true ∧ legacyOp bytes ≠ 3 ∧ s.lnk.chain = none) ∧
    (∃ s : State, ∃ bytes : List Byte, 
     let on := linksRun s = true ∧ legacyMode s = true ∧ portState 0 s = 5
     on ∧ legacyGood bytes = false) ∧
    (∃ s : State, 
     let on := linksRun s = true ∧ legacyMode s = true ∧ portState 0 s = 5
     on) ∧
    (∃ s : State, ((linksRun s = false ∨ legacyMode s = false ∨ portState 0 s ≠ 5))) :=
    ⟨⟨chain, natBytes 1 0xA5 ++ ([0xC3, 0, 0] : List Byte) ++ natBytes 2 (crc16 [0xC3, 0, 0]).toNat, by dsimp only; decide⟩,
    ⟨onLnk ({ · with chain := some 3 }) chain, natBytes 1 0xA5 ++ ([4, 0, 1] : List Byte) ++ natBytes 2 (crc16 [4, 0, 1]).toNat, 3, by dsimp only; decide⟩,
    ⟨onLnk ({ · with chain := some 3 }) chain, natBytes 1 0xA5 ++ ([0x44, 7, 1, 5, 0] : List Byte) ++ natBytes 2 (crc16 [0x44, 7, 1, 5, 0]).toNat, 3, by dsimp only; decide⟩,
    ⟨onLnk ({ · with chain := some 3 }) chain, natBytes 1 0xA5 ++ ([0x80, 7, 1, 5, 0] : List Byte) ++ natBytes 2 (crc16 [0x80, 7, 1, 5, 0]).toNat, 3, by dsimp only; decide⟩,
    ⟨chain, natBytes 1 0xA5 ++ ([4, 0, 1] : List Byte) ++ natBytes 2 (crc16 [4, 0, 1]).toNat, by dsimp only; decide⟩,
    ⟨chain, [1], by dsimp only; decide⟩,
    ⟨chain, by dsimp only; decide⟩,
    ⟨up, by decide⟩⟩

theorem hyps_PcieLink :
    (∃ s : State, pciePresent s = true ∧ hasRole s = false) ∧
    (∃ s : State, 
     let link := bit Reg.HST_STAT_L0 s = true
     link) ∧
    (∃ s : State, 
     let link := bit Reg.HST_STAT_L0 s = true
     link) ∧
    (∃ s : State, 
     let link := bit Reg.HST_STAT_L0 s = true
     link) ∧
    (∃ s : State, 
     let link := bit Reg.HST_STAT_L0 s = true
     link) ∧
    (∃ s : State, 
     let link := bit Reg.HST_STAT_L0 s = true
     link) ∧
    (∃ s : State, 
     let link := bit Reg.HST_STAT_L0 s = true
     link) ∧
    (∃ s : State, 
     let link := bit Reg.HST_STAT_L0 s = true
     link) ∧
    (∃ s : State, ∃ a : Fin 8, 
     let link := bit Reg.HST_STAT_L0 s = true
     link ∧ a.val ≤ 1) ∧
    (∃ s : State, ∃ a : Fin 8, 
     let link := bit Reg.HST_STAT_L0 s = true
     link ∧ 1 < a.val) ∧
    (∃ s : State, 
     let link := bit Reg.HST_STAT_L0 s = true
     link) ∧
    (∃ s : State, 
     let link := bit Reg.HST_STAT_L0 s = true
     link) ∧
    (∃ s : State, 
     let link := bit Reg.HST_STAT_L0 s = true
     link) ∧
    (∃ s : State, 
     let link := bit Reg.HST_STAT_L0 s = true
     link) ∧
    (∃ s : State, 
     let link := bit Reg.HST_STAT_L0 s = true
     link) ∧
    (∃ s : State, 
     let link := bit Reg.HST_STAT_L0 s = true
     link) ∧
    (∃ s : State, 
     let due := gen3Shut s = false ∧ s.hst.pcie.d3 = true ∧ s.hst.pcie.pmeEn = true ∧ s.hst.evq ≠ []
     due) ∧
    (∃ s : State, 
     let due := gen3Shut s = false ∧ s.hst.pcie.d3 = true ∧ s.hst.pcie.pmeEn = true ∧ s.hst.evq ≠ []
     ¬ due) ∧
    (∃ s : State, pciePresent s = true) ∧
    (∃ s : State, pciePresent s = true) ∧
    (∃ s : State, coreUp s = true) ∧
    (∃ s : State, pciePresent s = false) ∧
    (∃ s : State, 
     let link := bit Reg.HST_STAT_L0 s = true
     ¬ link) ∧
    (∃ s : State, coreUp s = false) :=
    ⟨⟨onSys ({ · with perstLow := false }) up, by decide⟩,
    ⟨ring3 3, by dsimp only; decide⟩,
    ⟨gate3, by dsimp only; decide⟩,
    ⟨gate3, by dsimp only; decide⟩,
    ⟨gate3, by dsimp only; decide⟩,
    ⟨gate3, by dsimp only; decide⟩,
    ⟨gate3, by dsimp only; decide⟩,
    ⟨gate3, by dsimp only; decide⟩,
    ⟨gate3, 1, by dsimp only; decide⟩,
    ⟨gate3, 5, by dsimp only; decide⟩,
    ⟨gate3, by dsimp only; decide⟩,
    ⟨gate3, by dsimp only; decide⟩,
    ⟨gate3, by dsimp only; decide⟩,
    ⟨gate3, by dsimp only; decide⟩,
    ⟨gate3, by dsimp only; decide⟩,
    ⟨gate3, by dsimp only; decide⟩,
    ⟨onHst (fun h => { h with evq := [⟨5, 1, 0, 0, 0, []⟩], pcie := { h.pcie with d3 := true, pmeEn := true } }) gate3, by dsimp only; decide⟩,
    ⟨gate3, by dsimp only; decide⟩,
    ⟨onSys ({ · with perstLow := false }) gate3, by decide⟩,
    ⟨onSys ({ · with perstLow := false }) gate3, by decide⟩,
    ⟨gate3, by decide⟩,
    ⟨up, by decide⟩,
    ⟨up, by dsimp only; decide⟩,
    ⟨State.reset, by decide⟩⟩

theorem hyps_Rings :
    (∃ s : State, ∃ r : Fin 11, 
     let fenced := bit Reg.FLT_FENCE0_HST s = true
     coreUp s = true ∧ ¬ fenced ∧ bit (Reg.HST_RCFG_EN r) s = false ∧ ringBad r s = false ∧ ((r.val = 1 → s.hst.waiting = []))) ∧
    (∃ s : State, ∃ d : HostDone, 
     let quiet := fun (r : Nat) => bit (Reg.HST_RCFG_IEN r) s = false
     coreUp s = true ∧ isGen2 s = false ∧ dmaAllowed s = true ∧ bit (Reg.HST_RCFG_EN 1) s = false ∧ ringBad 1 s = false ∧ quiet 1 ∧ s.hst.waiting = [d]) ∧
    (∃ s : State, ∃ r : Fin 12, 
     let fenced := bit Reg.FLT_FENCE0_HST s = true
     coreUp s = true ∧ ¬ fenced ∧ r.val = 11 ∧ bit Reg.HST_WBL_EN s = false ∧ rangeClash 11 (hostRange 11 s) s = false) ∧
    (∃ s : State, 
     let fenced := bit Reg.FLT_FENCE0_HST s = true
     (coreUp s = false ∨ fenced)) ∧
    (∃ s : State, ∃ r : Fin 12, 
     let fenced := bit Reg.FLT_FENCE0_HST s = true
     coreUp s = true ∧ ¬ fenced ∧ rangeInUse r s = true) ∧
    (∃ s : State, ∃ r : Fin 11, 
     let fenced := bit Reg.FLT_FENCE0_HST s = true
     coreUp s = true ∧ ¬ fenced ∧ bit (Reg.HST_RCFG_EN r) s = false ∧ ringBad r s = true) ∧
    (∃ s : State, ∃ r : Fin 11, ∃ i : Fin 1048576, coreUp s = true ∧ doorbellActs r s = true ∧ doorbellBad r i s = false ∧ ((r.val = 1 → s.hst.waiting = []))) ∧
    (∃ s : State, ∃ r : Fin 11, coreUp s = true ∧ ((bit (Reg.HST_RCFG_EN r) s = false ∨ s.hst.pcie.busMaster = false))) ∧
    (∃ s : State, ∃ r : Fin 11, ∃ i : Fin 1048576, coreUp s = true ∧ doorbellActs r s = true ∧ doorbellBad r i s = true) ∧
    (∃ s : State, ∃ d : List Word, mayFetch d s = true ∧ descBad false d = false ∧ bufferBad d s = false ∧ deviceIndex 0 s < ringSize 0 s) ∧
    (∃ s : State, ∃ d : List Word, mayFetch d s = false) ∧
    (∃ s : State, ∃ d : List Word, mayFetch d s = true ∧ descBad false d = true) ∧
    (∃ s : State, ∃ f : Frame, 
     let inStream := fun (f : Frame) => coreUp s = true ∧ hasRole s = true ∧ f.type = .stream ∧ (sessionRing f.tag s).1 = true
     let lost := fun (r : Nat) => nth s.hst.lost r 0
     let lossOf := fun (r : Nat) => if lost r = 0 then ([] : List StreamEntry) else [⟨r - 3, 3, 0, 0, 0, lost r, []⟩]
     let entry := fun (f : Frame) => (⟨(sessionRing f.tag s).2, 1, f.src, f.tag, f.epoch, 0, f.payload⟩ : StreamEntry)
     inStream f ∧ isGen2 s = true ∧ waitingUnits s + (lossOf (3 + (sessionRing f.tag s).2)).length + streamUnits (entry f) ≤ 2048) ∧
    (∃ s : State, ∃ f : Frame, 
     let inStream := fun (f : Frame) => coreUp s = true ∧ hasRole s = true ∧ f.type = .stream ∧ (sessionRing f.tag s).1 = true
     let entry := fun (f : Frame) => (⟨(sessionRing f.tag s).2, 1, f.src, f.tag, f.epoch, 0, f.payload⟩ : StreamEntry)
     inStream f ∧ isGen2 s = false ∧ bit (Reg.HST_RCFG_EN (3 + (sessionRing f.tag s).2)) s = true ∧ s.hst.pcie.busMaster = true ∧ waitingUnits s + streamUnits (entry f) ≤ 4096) ∧
    (∃ s : State, ∃ f : Frame, coreUp s = true ∧ hasRole s = true ∧ f.type = .stream ∧ (sessionRing f.tag s).1 = false) ∧
    (∃ s : State, ∃ f : Frame, coreUp s = true ∧ hasRole s = false ∧ f.type = .stream) ∧
    (∃ s : State, ∃ k : Fin 8, ∃ e : StreamEntry, ∃ l : List StreamEntry, 
     let lost := fun (r : Nat) => nth s.hst.lost r 0
     let mine := fun (k : Nat) (e : StreamEntry) (l : List StreamEntry) => isGen2 s = false ∧ ringRuns (3 + k) s = true ∧ takeStream k s.hst.sbuf = some (e, l)
     mine k e l ∧ lost (3 + k) = 0 ∧ deviceIndex (3 + k) s + streamUnits e ≤ ringSize (3 + k) s ∧ streamUnits e ≤ ringRoom (3 + k) s) ∧
    (∃ s : State, ∃ k : Fin 8, ∃ e : StreamEntry, ∃ l : List StreamEntry, 
     let lost := fun (r : Nat) => nth s.hst.lost r 0
     let mine := fun (k : Nat) (e : StreamEntry) (l : List StreamEntry) => isGen2 s = false ∧ ringRuns (3 + k) s = true ∧ takeStream k s.hst.sbuf = some (e, l)
     mine k e l ∧ lost (3 + k) = 0 ∧ deviceIndex (3 + k) s < ringSize (3 + k) s ∧ ringSize (3 + k) s < deviceIndex (3 + k) s + streamUnits e ∧ streamUnits e < ringSize (3 + k) s ∧ streamUnits e + (ringSize (3 + k) s - deviceIndex (3 + k) s) ≤ ringRoom (3 + k) s) ∧
    (∃ s : State, ∃ k : Fin 8, ∃ e : StreamEntry, ∃ l : List StreamEntry, 
     let lost := fun (r : Nat) => nth s.hst.lost r 0
     let mine := fun (k : Nat) (e : StreamEntry) (l : List StreamEntry) => isGen2 s = false ∧ ringRuns (3 + k) s = true ∧ takeStream k s.hst.sbuf = some (e, l)
     mine k e l ∧ lost (3 + k) ≠ 0 ∧ deviceIndex (3 + k) s + 1 + streamUnits e < ringSize (3 + k) s ∧ 1 + streamUnits e ≤ ringRoom (3 + k) s) ∧
    (∃ s : State, ∃ f : Frame, 
     let role2 := coreUp s = true ∧ hasRole s = true ∧ isGen2 s = true
     let lost := fun (r : Nat) => nth s.hst.lost r 0
     role2 ∧ f.type = .event ∧ s.hst.evq.length < 64 ∧ lost 2 = 0) ∧
    (∃ s : State, ∃ f : Frame, 
     let role2 := coreUp s = true ∧ hasRole s = true ∧ isGen2 s = true
     let lost := fun (r : Nat) => nth s.hst.lost r 0
     role2 ∧ f.type = .alarm ∧ s.hst.evq.length < 64 ∧ lost 2 = 0) ∧
    (∃ s : State, ∃ f : Frame, 
     let role2 := coreUp s = true ∧ hasRole s = true ∧ isGen2 s = true
     role2 ∧ f.type = .event ∧ s.hst.evq.length = 64) ∧
    (∃ s : State, ∃ e : EventEntry, ∃ l : List EventEntry, isGen2 s = false ∧ ringRuns 2 s = true ∧ ringRoom 2 s ≠ 0 ∧ s.hst.evq = e :: l ∧ deviceIndex 2 s < ringSize 2 s) ∧
    (∃ s : State, 
     let lost := fun (r : Nat) => nth s.hst.lost r 0
     isGen2 s = false ∧ ringRuns 2 s = true ∧ ringRoom 2 s ≠ 0 ∧ s.hst.evq = [] ∧ lost 2 ≠ 0 ∧ deviceIndex 2 s < ringSize 2 s) ∧
    (∃ s : State, s.hst.dirty = true ∧ s.hst.wbAt.all (fun u => decide (u + getF Reg.HST_WBCFG_WBINT s * us ≤ s.now)) = true ∧ bit Reg.HST_WBL_EN s = true ∧ dmaAllowed s = true) ∧
    (∃ s : State, (s.hst.dirty = false ∨ s.hst.wbAt.any (fun u => decide (s.now < u + getF Reg.HST_WBCFG_WBINT s * us)) = true)) ∧
    (∃ s : State, ∃ r : Fin 11, 
     let ready := fun (r : Nat) => r ≠ 0 ∧ bit (Reg.HST_RCFG_IEN r) s = true ∧ getF (Reg.HST_RMOD_MODT r) s ≠ 0 ∧ (nth s.hst.unsig r (0, 0)).1 ≠ 0 ∧
       (nth s.hst.unsig r (0, 0)).2 + getF (Reg.HST_RMOD_MODT r) s * us ≤ s.now ∧ dmaAllowed s = true
     let vec := fun (r : Nat) => getF (Reg.HST_RCFG_VEC r) s
     ready r ∧ s.hst.pcie.msixEn = true ∧ vectorMasked (vec r) s = false) ∧
    (∃ s : State, ∃ r : Fin 11, 
     let ready := fun (r : Nat) => r ≠ 0 ∧ bit (Reg.HST_RCFG_IEN r) s = true ∧ getF (Reg.HST_RMOD_MODT r) s ≠ 0 ∧ (nth s.hst.unsig r (0, 0)).1 ≠ 0 ∧
       (nth s.hst.unsig r (0, 0)).2 + getF (Reg.HST_RMOD_MODT r) s * us ≤ s.now ∧ dmaAllowed s = true
     let vec := fun (r : Nat) => getF (Reg.HST_RCFG_VEC r) s
     ready r ∧ s.hst.pcie.msixEn = true ∧ vectorMasked (vec r) s = true) ∧
    (∃ s : State, ∃ r : Fin 11, 
     let ready := fun (r : Nat) => r ≠ 0 ∧ bit (Reg.HST_RCFG_IEN r) s = true ∧ getF (Reg.HST_RMOD_MODT r) s ≠ 0 ∧ (nth s.hst.unsig r (0, 0)).1 ≠ 0 ∧
       (nth s.hst.unsig r (0, 0)).2 + getF (Reg.HST_RMOD_MODT r) s * us ≤ s.now ∧ dmaAllowed s = true
     ((¬ ready r ∨ s.hst.pcie.msixEn = false))) :=
    ⟨⟨gate3 |> setF (Reg.HST_RSIZE_SIZE 3) 256, 3, by dsimp only; decide⟩,
    ⟨onHst ({ · with waiting := [doneCpl] }) gate3 |> setF (Reg.HST_RSIZE_SIZE 1) 256, doneCpl, by dsimp only; decide⟩,
    ⟨gate3, 11, by dsimp only; decide⟩,
    ⟨setB Reg.FLT_FENCE0_HST true gate3, by dsimp only; decide⟩,
    ⟨ring3 3, 3, by dsimp only; decide⟩,
    ⟨gate3, 3, by dsimp only; decide⟩,
    ⟨onHst ({ · with hidx := List.replicate 11 0 }) (ring3 0), 0, 5, by decide⟩,
    ⟨gate3, 0, by decide⟩,
    ⟨ring3 0, 0, 300, by decide⟩,
    ⟨onHst ({ · with hidx := 1 :: List.replicate 10 0 }) (ring3 0) |> setF (Reg.HST_RSIZE_SIZE 1) 256 |> setB (Reg.HST_RCFG_EN 1) true, List.replicate 16 0#32, by decide⟩,
    ⟨gate3, List.replicate 16 0#32, by decide⟩,
    ⟨onHst ({ · with hidx := 1 :: List.replicate 10 0 }) (ring3 0) |> setF (Reg.HST_RSIZE_SIZE 1) 256 |> setB (Reg.HST_RCFG_EN 1) true, List.replicate 16 0xFFFFFFFF#32, by decide⟩,
    ⟨gate2 |> setReg (Reg.HST_SRMAP 1) 0x8#32, ⟨.stream, .b, .nodeId, 0#32, 0, 5, 7, 0, 8, [1#32]⟩, by dsimp only; decide⟩,
    ⟨ring3 3 |> setReg (Reg.HST_SRMAP 1) 0x8#32, ⟨.stream, .b, .nodeId, 0#32, 0, 5, 7, 0, 8, [1#32]⟩, by dsimp only; decide⟩,
    ⟨gate2, ⟨.stream, .b, .nodeId, 0#32, 0, 5, 7, 0, 8, [1#32]⟩, by decide⟩,
    ⟨up, ⟨.stream, .b, .nodeId, 0#32, 0, 5, 7, 0, 8, [1#32]⟩, by decide⟩,
    ⟨onHst ({ · with sbuf := [⟨0, 1, 5, 8, 0, 0, [1#32]⟩] }) (ring3 3), 0, ⟨0, 1, 5, 8, 0, 0, [1#32]⟩, [], by dsimp only; decide⟩,
    ⟨onHst ({ · with sbuf := [⟨0, 1, 5, 8, 0, 0, [1#32, 2#32]⟩], hidx := List.replicate 11 250 }) (ring3 3) |> setF (Reg.HST_RDIDX_DIDX 3) 255, 0, ⟨0, 1, 5, 8, 0, 0, [1#32, 2#32]⟩, [], by dsimp only; decide⟩,
    ⟨onHst ({ · with sbuf := [⟨0, 1, 5, 8, 0, 0, [1#32]⟩], lost := List.replicate 11 7 }) (ring3 3), 0, ⟨0, 1, 5, 8, 0, 0, [1#32]⟩, [], by dsimp only; decide⟩,
    ⟨gate2, ⟨.event, .c, .nodeId, 0#32, 0, 5, 7, 0, 0, [1#32]⟩, by dsimp only; decide⟩,
    ⟨gate2, ⟨.alarm, .a, .nodeId, 0#32, 0, 5, 7, 0, 0, [1#32]⟩, by dsimp only; decide⟩,
    ⟨onHst ({ · with evq := List.replicate 64 ⟨5, 1, 0, 0, 0, []⟩ }) gate2, ⟨.event, .c, .nodeId, 0#32, 0, 5, 7, 0, 0, [1#32]⟩, by dsimp only; decide⟩,
    ⟨onHst ({ · with evq := [⟨5, 1, 0, 9, 0, [1#32]⟩] }) (ring3 2), ⟨5, 1, 0, 9, 0, [1#32]⟩, [], by decide⟩,
    ⟨onHst ({ · with lost := List.replicate 11 7 }) (ring3 2), by dsimp only; decide⟩,
    ⟨onHst ({ · with dirty := true }) gate3 |> setB Reg.HST_WBL_EN true, by decide⟩,
    ⟨up, by decide⟩,
    ⟨onHst (fun h => { h with unsig := [(0, 0), (2, 0)] ++ List.replicate 9 (0, 0), pcie := { h.pcie with msixEn := true } }) { (ring3 1) with now := 5000 } |> setB (Reg.HST_RCFG_IEN 1) true |> setReg (Reg.HST_RMOD 1) 5#32 |> setReg (Reg.HST_MSIXCTL 0) 0#32, 1, by dsimp only; decide⟩,
    ⟨onHst (fun h => { h with unsig := [(0, 0), (2, 0)] ++ List.replicate 9 (0, 0), pcie := { h.pcie with msixEn := true, msixMask := true } }) { (ring3 1) with now := 5000 } |> setB (Reg.HST_RCFG_IEN 1) true |> setReg (Reg.HST_RMOD 1) 5#32, 1, by dsimp only; decide⟩,
    ⟨up, 1, by dsimp only; decide⟩⟩

theorem hyps_HostCommands :
    (∃ s : State, ∃ c : HostCmd, 
     let one := fun (c : HostCmd) (op : Nat) => coreUp s = true ∧ hasRole s = true ∧ (isGen2 s = true ∨ ringRuns 1 s = false) ∧
       bit Reg.FLT_FENCE0_HST s = false ∧ 0 < getF Reg.HST_DWM_DWM s ∧ s.hst.cmds = [c] ∧ c.begun = false ∧ descOp c.desc = op
     one c 0) ∧
    (∃ s : State, ∃ c : HostCmd, 
     let one := fun (c : HostCmd) (op : Nat) => coreUp s = true ∧ hasRole s = true ∧ (isGen2 s = true ∨ ringRuns 1 s = false) ∧
       bit Reg.FLT_FENCE0_HST s = false ∧ 0 < getF Reg.HST_DWM_DWM s ∧ s.hst.cmds = [c] ∧ c.begun = false ∧ descOp c.desc = op
     let here := fun c : HostCmd => descMode c.desc = 0 ∧ ownCheck [] c s = none
     one c 1 ∧ here c ∧ descAddr c.desc = Reg.FAB_ID ∧ descCount c.desc = 1) ∧
    (∃ s : State, ∃ c : HostCmd, 
     let one := fun (c : HostCmd) (op : Nat) => coreUp s = true ∧ hasRole s = true ∧ (isGen2 s = true ∨ ringRuns 1 s = false) ∧
       bit Reg.FLT_FENCE0_HST s = false ∧ 0 < getF Reg.HST_DWM_DWM s ∧ s.hst.cmds = [c] ∧ c.begun = false ∧ descOp c.desc = op
     let here := fun c : HostCmd => descMode c.desc = 0 ∧ ownCheck [] c s = none
     one c 1 ∧ here c ∧ ((descCount c.desc < 2 ∨ descAddr c.desc % 8 = 0))) ∧
    (∃ s : State, ∃ c : HostCmd, ∃ dma : List Word, ∃ v : Word, 
     let one := fun (c : HostCmd) (op : Nat) => coreUp s = true ∧ hasRole s = true ∧ (isGen2 s = true ∨ ringRuns 1 s = false) ∧
       bit Reg.FLT_FENCE0_HST s = false ∧ 0 < getF Reg.HST_DWM_DWM s ∧ s.hst.cmds = [c] ∧ c.begun = false ∧ descOp c.desc = op
     let here := fun c : HostCmd => descMode c.desc = 0 ∧ ownCheck [] c s = none
     let fed := fun c : HostCmd => isGen2 s = true ∨ dmaAllowed s = true ∨ needsDma c = false
     one c 2 ∧ fed c ∧ here c ∧ descBulk c.desc = false ∧ descAddr c.desc = Reg.FAB_HOME_AROUTE 0 ∧ descCount c.desc = 1 ∧ writeData c dma = [v]) ∧
    (∃ s : State, ∃ c : HostCmd, ∃ dma : List Word, ∃ v : Word, ∃ w : Word, 
     let one := fun (c : HostCmd) (op : Nat) => coreUp s = true ∧ hasRole s = true ∧ (isGen2 s = true ∨ ringRuns 1 s = false) ∧
       bit Reg.FLT_FENCE0_HST s = false ∧ 0 < getF Reg.HST_DWM_DWM s ∧ s.hst.cmds = [c] ∧ c.begun = false ∧ descOp c.desc = op
     let here := fun c : HostCmd => descMode c.desc = 0 ∧ ownCheck [] c s = none
     let fed := fun c : HostCmd => isGen2 s = true ∨ dmaAllowed s = true ∨ needsDma c = false
     one c 2 ∧ fed c ∧ here c ∧ descBulk c.desc = false ∧ descAddr c.desc ∈ [Reg.TBS_SETL, Reg.TBS_REINTL, Reg.IMP_T0L] ∧ planActive s = false ∧ descCount c.desc = 2 ∧ writeData c dma = [v, w]) ∧
    (∃ s : State, ∃ c : HostCmd, 
     let one := fun (c : HostCmd) (op : Nat) => coreUp s = true ∧ hasRole s = true ∧ (isGen2 s = true ∨ ringRuns 1 s = false) ∧
       bit Reg.FLT_FENCE0_HST s = false ∧ 0 < getF Reg.HST_DWM_DWM s ∧ s.hst.cmds = [c] ∧ c.begun = false ∧ descOp c.desc = op
     let byWord := fun c : HostCmd => decide (descMode c.desc = 2)
     let path := fun c : HostCmd => if byWord c then (nth c.desc 2 0#32, getBits (nth c.desc 1 0#32) 24 5) else (entryOf (descNode c.desc) s).route
     let cls := fun c : HostCmd => if descBulk c.desc then Cls.d else Cls.c
     let far := fun c : HostCmd => (descMode c.desc = 2 ∨ (descMode c.desc = 1 ∧ descNode c.desc ≠ 1023 ∧ (entryOf (descNode c.desc) s).state ≠ 0 ∧
         (entryOf (descNode c.desc) s).state ≠ 2)) ∧ freeTags s ≠ [] ∧ 1 ≤ (path c).2 ∧ (path c).2 ≤ 16 ∧ portOpen (routePort (path c).1) s = true ∧
       (port (routePort (path c).1) s).queue (cls c) = []
     one c 1 ∧ far c) ∧
    (∃ s : State, ∃ c : HostCmd, 
     let one := fun (c : HostCmd) (op : Nat) => coreUp s = true ∧ hasRole s = true ∧ (isGen2 s = true ∨ ringRuns 1 s = false) ∧
       bit Reg.FLT_FENCE0_HST s = false ∧ 0 < getF Reg.HST_DWM_DWM s ∧ s.hst.cmds = [c] ∧ c.begun = false ∧ descOp c.desc = op
     let byWord := fun c : HostCmd => decide (descMode c.desc = 2)
     let path := fun c : HostCmd => if byWord c then (nth c.desc 2 0#32, getBits (nth c.desc 1 0#32) 24 5) else (entryOf (descNode c.desc) s).route
     let cls := fun c : HostCmd => if descBulk c.desc then Cls.d else Cls.c
     let far := fun c : HostCmd => (descMode c.desc = 2 ∨ (descMode c.desc = 1 ∧ descNode c.desc ≠ 1023 ∧ (entryOf (descNode c.desc) s).state ≠ 0 ∧
         (entryOf (descNode c.desc) s).state ≠ 2)) ∧ freeTags s ≠ [] ∧ 1 ≤ (path c).2 ∧ (path c).2 ≤ 16 ∧ portOpen (routePort (path c).1) s = true ∧
       (port (routePort (path c).1) s).queue (cls c) = []
     let fed := fun c : HostCmd => isGen2 s = true ∨ dmaAllowed s = true ∨ needsDma c = false
     one c 2 ∧ fed c ∧ far c) ∧
    (∃ s : State, ∃ c : HostCmd, 
     let one := fun (c : HostCmd) (op : Nat) => coreUp s = true ∧ hasRole s = true ∧ (isGen2 s = true ∨ ringRuns 1 s = false) ∧
       bit Reg.FLT_FENCE0_HST s = false ∧ 0 < getF Reg.HST_DWM_DWM s ∧ s.hst.cmds = [c] ∧ c.begun = false ∧ descOp c.desc = op
     let byWord := fun c : HostCmd => decide (descMode c.desc = 2)
     let path := fun c : HostCmd => if byWord c then (nth c.desc 2 0#32, getBits (nth c.desc 1 0#32) 24 5) else (entryOf (descNode c.desc) s).route
     let cls := fun c : HostCmd => if descBulk c.desc then Cls.d else Cls.c
     let far := fun c : HostCmd => (descMode c.desc = 2 ∨ (descMode c.desc = 1 ∧ descNode c.desc ≠ 1023 ∧ (entryOf (descNode c.desc) s).state ≠ 0 ∧
         (entryOf (descNode c.desc) s).state ≠ 2)) ∧ freeTags s ≠ [] ∧ 1 ≤ (path c).2 ∧ (path c).2 ≤ 16 ∧ portOpen (routePort (path c).1) s = true ∧
       (port (routePort (path c).1) s).queue (cls c) = []
     one c 3 ∧ far c) ∧
    (∃ s : State, ∃ c : HostCmd, 
     let one := fun (c : HostCmd) (op : Nat) => coreUp s = true ∧ hasRole s = true ∧ (isGen2 s = true ∨ ringRuns 1 s = false) ∧
       bit Reg.FLT_FENCE0_HST s = false ∧ 0 < getF Reg.HST_DWM_DWM s ∧ s.hst.cmds = [c] ∧ c.begun = false ∧ descOp c.desc = op
     let fed := fun c : HostCmd => isGen2 s = true ∨ dmaAllowed s = true ∨ needsDma c = false
     let flooded := fun (c : HostCmd) => c.desc.length = 16 ∧ descMode c.desc = 3 ∧ descBulk c.desc = false ∧ broadcastsNow s < 64 ∧ s.fab.bwait = []
     one c 2 ∧ fed c ∧ flooded c ∧ ((∃ n : Fin 4, portOpen n s = true)) ∧ ((∀ n : Fin 4, (port n s).qc = []))) ∧
    (∃ s : State, ∃ c : HostCmd, 
     let one := fun (c : HostCmd) (op : Nat) => coreUp s = true ∧ hasRole s = true ∧ (isGen2 s = true ∨ ringRuns 1 s = false) ∧
       bit Reg.FLT_FENCE0_HST s = false ∧ 0 < getF Reg.HST_DWM_DWM s ∧ s.hst.cmds = [c] ∧ c.begun = false ∧ descOp c.desc = op
     let fed := fun c : HostCmd => isGen2 s = true ∨ dmaAllowed s = true ∨ needsDma c = false
     let flooded := fun (c : HostCmd) => c.desc.length = 16 ∧ descMode c.desc = 3 ∧ descBulk c.desc = false ∧ broadcastsNow s < 64 ∧ s.fab.bwait = []
     one c 2 ∧ fed c ∧ flooded c ∧ ((∀ n : Fin 4, portOpen n s = false ∧ (port n s).qa ++ (port n s).qb ++ (port n s).qc ++ (port n s).qd = [])) ∧ s.fab.reqs = [] ∧ s.lnk.ports.length ≤ 4) ∧
    (∃ s : State, ∃ c : HostCmd, 
     let one := fun (c : HostCmd) (op : Nat) => coreUp s = true ∧ hasRole s = true ∧ (isGen2 s = true ∨ ringRuns 1 s = false) ∧
       bit Reg.FLT_FENCE0_HST s = false ∧ 0 < getF Reg.HST_DWM_DWM s ∧ s.hst.cmds = [c] ∧ c.begun = false ∧ descOp c.desc = op
     one c 1 ∧ descMode c.desc = 1 ∧ (entryOf (descNode c.desc) s).state = 2) ∧
    (∃ s : State, ∃ c : HostCmd, 
     let one := fun (c : HostCmd) (op : Nat) => coreUp s = true ∧ hasRole s = true ∧ (isGen2 s = true ∨ ringRuns 1 s = false) ∧
       bit Reg.FLT_FENCE0_HST s = false ∧ 0 < getF Reg.HST_DWM_DWM s ∧ s.hst.cmds = [c] ∧ c.begun = false ∧ descOp c.desc = op
     one c 1 ∧ (((descMode c.desc = 1 ∧ (entryOf (descNode c.desc) s).state = 0) ∨ (descMode c.desc = 0 ∧ ownBadAddress c.desc s = true)))) ∧
    (∃ s : State, ∃ c : HostCmd, 
     let one := fun (c : HostCmd) (op : Nat) => coreUp s = true ∧ hasRole s = true ∧ (isGen2 s = true ∨ ringRuns 1 s = false) ∧
       bit Reg.FLT_FENCE0_HST s = false ∧ 0 < getF Reg.HST_DWM_DWM s ∧ s.hst.cmds = [c] ∧ c.begun = false ∧ descOp c.desc = op
     one c 1 ∧ descMode c.desc = 0 ∧ ownBadAddress c.desc s = false ∧ unitFenced (descAddr c.desc) s = true) ∧
    (∃ s : State, ∃ c : HostCmd, 
     let one := fun (c : HostCmd) (op : Nat) => coreUp s = true ∧ hasRole s = true ∧ (isGen2 s = true ∨ ringRuns 1 s = false) ∧
       bit Reg.FLT_FENCE0_HST s = false ∧ 0 < getF Reg.HST_DWM_DWM s ∧ s.hst.cmds = [c] ∧ c.begun = false ∧ descOp c.desc = op
     let here := fun c : HostCmd => descMode c.desc = 0 ∧ ownCheck [] c s = none
     one c 3 ∧ here c ∧ getBits (descOpw c.desc) 0 8 = 4 ∧ getBits (descOpw c.desc) 16 2 = 0 ∧ bit (Reg.FAB_HOME_HCTL_VALID 0) s = true ∧ homeDead 0 s = false ∧ (sessionOf (getBits (descOpw c.desc) 8 8) s).state ≠ 0) ∧
    (∃ s : State, ∃ c : HostCmd, 
     let one := fun (c : HostCmd) (op : Nat) => coreUp s = true ∧ hasRole s = true ∧ (isGen2 s = true ∨ ringRuns 1 s = false) ∧
       bit Reg.FLT_FENCE0_HST s = false ∧ 0 < getF Reg.HST_DWM_DWM s ∧ s.hst.cmds = [c] ∧ c.begun = false ∧ descOp c.desc = op
     let here := fun c : HostCmd => descMode c.desc = 0 ∧ ownCheck [] c s = none
     one c 4 ∧ here c ∧ getBits (descOpw c.desc) 0 2 ≠ 0 ∧ s.sys.ctlBusy = false ∧ bit Reg.BST_CTLSTAT_ROMBAD s = false ∧ s.fab.run = none) ∧
    (∃ s : State, ∃ c : HostCmd, 
     let one := fun (c : HostCmd) (op : Nat) => coreUp s = true ∧ hasRole s = true ∧ (isGen2 s = true ∨ ringRuns 1 s = false) ∧
       bit Reg.FLT_FENCE0_HST s = false ∧ 0 < getF Reg.HST_DWM_DWM s ∧ s.hst.cmds = [c] ∧ c.begun = false ∧ descOp c.desc = op
     let here := fun c : HostCmd => descMode c.desc = 0 ∧ ownCheck [] c s = none
     one c 4 ∧ here c ∧ getBits (descOpw c.desc) 0 2 = 0) ∧
    (∃ s : State, ∃ c : HostCmd, nextCommand s = some c ∧ needsDma c = true ∧ isGen2 s = false ∧ dmaAllowed s = false) ∧
    (∃ s : State, ((hasRole s = false ∨ (nextCommand s).all (fun c => decide (4 < descOp c.desc)) = true))) :=
    ⟨⟨host (descOf 0#32 0#32 0#32 0#32 0#32), cmdOf (descOf 0#32 0#32 0#32 0#32 0#32), by dsimp only; decide⟩,
    ⟨host (descOf 0x10001#32 0#32 0x4804#32 1#32 0#32), cmdOf (descOf 0x10001#32 0#32 0x4804#32 1#32 0#32), by dsimp only; decide⟩,
    ⟨host (descOf 0x10001#32 0#32 0x4804#32 1#32 0#32), cmdOf (descOf 0x10001#32 0#32 0x4804#32 1#32 0#32), by dsimp only; decide⟩,
    ⟨host (descOf 0x10020001#32 0#32 0x4844#32 1#32 0#32), cmdOf (descOf 0x10020001#32 0#32 0x4844#32 1#32 0#32), [], 9#32, by dsimp only; decide⟩,
    ⟨host (descOf 0x20001#32 0#32 0x5810#32 2#32 0#32), cmdOf (descOf 0x20001#32 0#32 0x5810#32 2#32 0#32), [5#32, 6#32], 5#32, 6#32, by dsimp only; decide⟩,
    ⟨onFab ({ · with table := [(5, { RouteEntry.empty with state := 1, phop := 1, proute := 3#32 })] }) (host (descOf 0x10001#32 0x4005#32 0x4804#32 1#32 0#32)) |> setF (Reg.LNK_PSTAT_STATE 3) 3, cmdOf (descOf 0x10001#32 0x4005#32 0x4804#32 1#32 0#32), by dsimp only; decide⟩,
    ⟨host [0x10020001#32, 0x1008000#32, 3#32, 0x4844#32, 0x10001#32, 0#32, 0#32, 0#32, 7#32, 0#32, 0#32, 0#32, 0#32, 0#32, 0#32, 2#32] |> setF (Reg.LNK_PSTAT_STATE 3) 3, cmdOf [0x10020001#32, 0x1008000#32, 3#32, 0x4844#32, 0x10001#32, 0#32, 0#32, 0#32, 7#32, 0#32, 0#32, 0#32, 0#32, 0#32, 0#32, 2#32], by dsimp only; decide⟩,
    ⟨onFab ({ · with table := [(5, { RouteEntry.empty with state := 1, phop := 1, proute := 3#32 })] }) (host (descOf 0x30001#32 0x4005#32 0#32 0#32 0x804#32)) |> setF (Reg.LNK_PSTAT_STATE 3) 3, cmdOf (descOf 0x30001#32 0x4005#32 0#32 0#32 0x804#32), by dsimp only; decide⟩,
    ⟨host (descOf 0x10020001#32 0xC000#32 0x4844#32 1#32 0#32) |> setF (Reg.LNK_PSTAT_STATE 3) 3, cmdOf (descOf 0x10020001#32 0xC000#32 0x4844#32 1#32 0#32), by dsimp only; decide⟩,
    ⟨host (descOf 0x10020001#32 0xC000#32 0x4844#32 1#32 0#32), cmdOf (descOf 0x10020001#32 0xC000#32 0x4844#32 1#32 0#32), by dsimp only; decide⟩,
    ⟨onFab ({ · with table := [(5, { RouteEntry.empty with state := 2 })] }) (host (descOf 0x10001#32 0x4005#32 0x4804#32 1#32 0#32)), cmdOf (descOf 0x10001#32 0x4005#32 0x4804#32 1#32 0#32), by dsimp only; decide⟩,
    ⟨host (descOf 0x10001#32 0x4005#32 0x4804#32 1#32 0#32), cmdOf (descOf 0x10001#32 0x4005#32 0x4804#32 1#32 0#32), by dsimp only; decide⟩,
    ⟨host (descOf 0x10001#32 0#32 0x3000#32 1#32 0#32) |> setB Reg.FLT_FENCE0_CNV true, cmdOf (descOf 0x10001#32 0#32 0x3000#32 1#32 0#32), by dsimp only; decide⟩,
    ⟨onFab ({ · with sessions := [(8, openSession)] }) (host (descOf 0x30001#32 0#32 0#32 0#32 0x804#32)) |> setB (Reg.FAB_HOME_HCTL_VALID 0) true, cmdOf (descOf 0x30001#32 0#32 0#32 0#32 0x804#32), by dsimp only; decide⟩,
    ⟨host (descOf 0x40001#32 0#32 0#32 0#32 1#32), cmdOf (descOf 0x40001#32 0#32 0#32 0#32 1#32), by dsimp only; decide⟩,
    ⟨host (descOf 0x40001#32 0#32 0#32 0#32 0#32), cmdOf (descOf 0x40001#32 0#32 0#32 0#32 0#32), by dsimp only; decide⟩,
    ⟨onHst (fun h => { h with cmds := [cmdOf (descOf 0x20001#32 0#32 0x4844#32 1#32 0#32)], pcie := { h.pcie with busMaster := false } }) gate3, cmdOf (descOf 0x20001#32 0#32 0x4844#32 1#32 0#32), by decide⟩,
    ⟨up, by decide⟩⟩

theorem hyps_DelayExchange :
    (∃ s : State, linksRun s = true) ∧
    (∃ s : State, ∃ n : Fin 4, ∃ f : Frame, 
     let report := fun (f : Frame) => getBits (nth f.payload 0 0#32) 8 8
     let child := fun (n : Fin 4) => portUp n s = true ∧ isRoot s = false ∧ s.tbs.parent = true ∧ getF Reg.TBS_STAT_PARENT s = n.val
     portUp n s = true ∧ isDelay 1 f = true ∧ (((child n ∧ report f / 64 = 2) ∨ (isRoot s = true ∧ report f % 32 ≠ 0)))) ∧
    (∃ s : State, ∃ n : Fin 4, ∃ f : Frame, 
     let leaves := fun (n : Fin 4) (f : Frame) => portUp n s = true ∧ (port n s).busy s.now = false ∧ s.fab.bwait = [] ∧ (port n s).qa = [(4, f)] ∧
       f.type = .delay ∧ f.cls = .a
     leaves n f ∧ getBits (nth f.payload 0 0#32) 4 4 = 1 ∧ (port n s).stop ≤ s.now ∧ s.ft < 2 ^ 64) ∧
    (∃ s : State, ∃ n : Fin 4, ∃ f : Frame, 
     let leaves := fun (n : Fin 4) (f : Frame) => portUp n s = true ∧ (port n s).busy s.now = false ∧ s.fab.bwait = [] ∧ (port n s).qa = [(4, f)] ∧
       f.type = .delay ∧ f.cls = .a
     let t2 := fun (f : Frame) => ((nth f.payload 1 0#32).toNat + 2 ^ 32 * (nth f.payload 2 0#32).toNat : Int)
     leaves n f ∧ getBits (nth f.payload 0 0#32) 4 4 = 2 ∧ f.payload.length = 4 ∧ (port n s).stop ≤ s.now ∧ t2 f ≤ s.ft ∧ s.ft < t2 f + 2 ^ 32 ∧ s.ft < 2 ^ 64) ∧
    (∃ s : State, ∃ n : Fin 4, ∃ f : Frame, ∃ t1 : Nat, ∃ ago : Nat, ∃ delay : Int, ∃ off : Int, 
     let report := fun (f : Frame) => getBits (nth f.payload 0 0#32) 8 8
     let child := fun (n : Fin 4) => portUp n s = true ∧ isRoot s = false ∧ s.tbs.parent = true ∧ getF Reg.TBS_STAT_PARENT s = n.val
     let asked := fun (n : Fin 4) (f : Frame) (t1 : Nat) => child n ∧ isDelay 2 f = true ∧ report f / 64 = 2 ∧
       (delayOf n s).asked = some (getBits (nth f.payload 0 0#32) 0 4) ∧ (delayOf n s).sent = some t1
     let stamp := fun (ago : Nat) => (unsigned 64 (s.ft - ago) : Int)
     let t2 := fun (f : Frame) => ((nth f.payload 1 0#32).toNat + 2 ^ 32 * (nth f.payload 2 0#32).toNat : Int)
     let turn := fun (f : Frame) => ((nth f.payload 3 0#32).toNat : Int)
     asked n f t1 ∧ 2 * delay = (stamp ago - t1) - turn f ∧ 2 * off = (t2 f - t1) + (t2 f + turn f - stamp ago) ∧ -1000 < off ∧ off < 1000 ∧ tbState s = 2 ∧ (delayOf n s).delays = [] ∧ s.tbs.bad < 3) ∧
    (∃ s : State, ∃ n : Fin 4, ∃ f : Frame, ∃ t1 : Nat, ∃ ago : Nat, ∃ off : Int, 
     let report := fun (f : Frame) => getBits (nth f.payload 0 0#32) 8 8
     let child := fun (n : Fin 4) => portUp n s = true ∧ isRoot s = false ∧ s.tbs.parent = true ∧ getF Reg.TBS_STAT_PARENT s = n.val
     let asked := fun (n : Fin 4) (f : Frame) (t1 : Nat) => child n ∧ isDelay 2 f = true ∧ report f / 64 = 2 ∧
       (delayOf n s).asked = some (getBits (nth f.payload 0 0#32) 0 4) ∧ (delayOf n s).sent = some t1
     let stamp := fun (ago : Nat) => (unsigned 64 (s.ft - ago) : Int)
     let t2 := fun (f : Frame) => ((nth f.payload 1 0#32).toNat + 2 ^ 32 * (nth f.payload 2 0#32).toNat : Int)
     let turn := fun (f : Frame) => ((nth f.payload 3 0#32).toNat : Int)
     asked n f t1 ∧ 2 * off = (t2 f - t1) + (t2 f + turn f - stamp ago) ∧ -20 ≤ off ∧ off ≤ 20 ∧ tbState s = 1 ∧ s.tbs.good = 15) ∧
    (∃ s : State, ∃ n : Fin 4, ∃ f : Frame, ∃ t1 : Nat, ∃ ago : Nat, ∃ off : Int, 
     let report := fun (f : Frame) => getBits (nth f.payload 0 0#32) 8 8
     let child := fun (n : Fin 4) => portUp n s = true ∧ isRoot s = false ∧ s.tbs.parent = true ∧ getF Reg.TBS_STAT_PARENT s = n.val
     let asked := fun (n : Fin 4) (f : Frame) (t1 : Nat) => child n ∧ isDelay 2 f = true ∧ report f / 64 = 2 ∧
       (delayOf n s).asked = some (getBits (nth f.payload 0 0#32) 0 4) ∧ (delayOf n s).sent = some t1
     let stamp := fun (ago : Nat) => (unsigned 64 (s.ft - ago) : Int)
     let t2 := fun (f : Frame) => ((nth f.payload 1 0#32).toNat + 2 ^ 32 * (nth f.payload 2 0#32).toNat : Int)
     let turn := fun (f : Frame) => ((nth f.payload 3 0#32).toNat : Int)
     asked n f t1 ∧ 2 * off = (t2 f - t1) + (t2 f + turn f - stamp ago) ∧ ((off ≤ -1000 ∨ 1000 ≤ off))) ∧
    (∃ s : State, ∃ n : Fin 4, ∃ f : Frame, 
     let report := fun (f : Frame) => getBits (nth f.payload 0 0#32) 8 8
     let child := fun (n : Fin 4) => portUp n s = true ∧ isRoot s = false ∧ s.tbs.parent = true ∧ getF Reg.TBS_STAT_PARENT s = n.val
     let alone := fun (n : Fin 4) => ∀ m : Fin 4, m ≠ n → (delayOf m s).report = none
     child n ∧ isDelay 3 f = true ∧ report f / 64 ≠ 2 ∧ tbState s = 2 ∧ bit Reg.CMS_STAT_TBLOCK s = true ∧ getF Reg.TBS_CFG_HOLDMAX s ≠ 0 ∧ alone n) ∧
    (∃ s : State, ∃ n : Fin 4, ∃ f : Frame, 
     let report := fun (f : Frame) => getBits (nth f.payload 0 0#32) 8 8
     let child := fun (n : Fin 4) => portUp n s = true ∧ isRoot s = false ∧ s.tbs.parent = true ∧ getF Reg.TBS_STAT_PARENT s = n.val
     let alone := fun (n : Fin 4) => ∀ m : Fin 4, m ≠ n → (delayOf m s).report = none
     child n ∧ isDelay 3 f = true ∧ report f / 64 ≠ 2 ∧ tbState s = 2 ∧ getF Reg.TBS_CFG_HOLDMAX s = 0 ∧ alone n) ∧
    (∃ s : State, ∃ n : Fin 4, ∃ f : Frame, 
     let report := fun (f : Frame) => getBits (nth f.payload 0 0#32) 8 8
     let child := fun (n : Fin 4) => portUp n s = true ∧ isRoot s = false ∧ s.tbs.parent = true ∧ getF Reg.TBS_STAT_PARENT s = n.val
     child n ∧ isDelay 3 f = true ∧ report f / 64 = 2) ∧
    (∃ s : State, ∃ n : Fin 4, ∃ f : Frame, 
     let report := fun (f : Frame) => getBits (nth f.payload 0 0#32) 8 8
     portUp n s = true ∧ isRoot s = true ∧ isDelay 3 f = true ∧ report f % 32 ≠ 0) ∧
    (∃ s : State, ∃ n : Fin 4, ∃ h : Nat, 
     let alone := fun (n : Fin 4) => ∀ m : Fin 4, m ≠ n → (delayOf m s).report = none
     let rested := fun (d : Nat) => s.tbs.held + d ≤ s.now
     portUp n s = true ∧ tbState s = 3 ∧ isRoot s = false ∧ (delayOf n s).report = some (2, false, h) ∧ alone n ∧ h < 31 ∧ rested (100 * us)) ∧
    (∃ s : State, 
     let rested := fun (d : Nat) => s.tbs.held + d ≤ s.now
     ((¬ rested (100 * us) ∨ bestParent s = none))) ∧
    (∃ s : State, 
     let rested := fun (d : Nat) => s.tbs.held + d ≤ s.now
     tbState s = 3 ∧ rested (getF Reg.TBS_CFG_HOLDMAX s * 100 * ms)) ∧
    (∃ s : State, 
     let rested := fun (d : Nat) => s.tbs.held + d ≤ s.now
     ¬ rested (getF Reg.TBS_CFG_HOLDMAX s * 100 * ms)) ∧
    (∃ s : State, ∃ n : Fin 4, isRoot s = true ∧ s.fab.run = none ∧ s.fab.runEnd.all (fun u => decide (u + 10 * ms ≤ s.now)) = true ∧ portUp n s = true ∧ (delayOf n s).report = some (2, false, 0)) ∧
    (∃ s : State, ((isRoot s = false ∨ s.fab.run.isSome = true ∨ s.fab.runEnd.any (fun u => decide (s.now < u + 10 * ms)) = true))) ∧
    (∃ s : State, coreUp s = true ∧ isRoot s = true) ∧
    (∃ s : State, coreUp s = true ∧ isRoot s = false) ∧
    (∃ s : State, s.tbs.stepReq = true ∧ isRoot s = true) ∧
    (∃ s : State, ∃ n : Fin 4, portUp n s = false) :=
    ⟨⟨child 2, by decide⟩,
    ⟨child 2, 3, delayFrame 0x17 0x82 0 0, by dsimp only; decide⟩,
    ⟨child 2 |> modPort 3 ({ · with qa := [(4, delayFrame 0x14 0x82 0 0)] }), 3, delayFrame 0x14 0x82 0 0, by dsimp only; decide⟩,
    ⟨{ (child 2) with ft := 1000001264 } |> modPort 3 ({ · with qa := [(4, delayFrame 0x24 0x82 1000000064 0)] }), 3, delayFrame 0x24 0x82 1000000064 0, by dsimp only; decide⟩,
    ⟨{ (child 2) with ft := 1000001310 }, 3, delayFrame 0x24 0x82 1000000064 1200, 1000000000, 6, 52, 12, by dsimp only; decide⟩,
    ⟨{ (onTbs ({ · with good := 15 }) (child 1)) with ft := 1000001304 }, 3, delayFrame 0x24 0x82 1000000064 1200, 1000000000, 0, 12, by dsimp only; decide⟩,
    ⟨{ (child 1) with ft := 1000001304 }, 3, delayFrame 0x24 0x82 1000004064 1200, 1000000000, 0, 4012, by dsimp only; decide⟩,
    ⟨setB Reg.CMS_STAT_TBLOCK true (child 2), 3, delayFrame 0x30 0xC2 0 0, by dsimp only; decide⟩,
    ⟨setB Reg.CMS_STAT_TBLOCK true (child 2) |> setF Reg.TBS_CFG_HOLDMAX 0, 3, delayFrame 0x30 0xC2 0 0, by dsimp only; decide⟩,
    ⟨child 2, 3, delayFrame 0x30 0x85 0 0, by dsimp only; decide⟩,
    ⟨up |> setF (Reg.LNK_PSTAT_STATE 3) 3 |> setF Reg.TBS_CFG_ROOT 1, 3, delayFrame 0x30 0x85 0 0, by dsimp only; decide⟩,
    ⟨onTbs (fun x => { x with ports := [⟨0, none, none, some (2, false, 4), [], false, none⟩] ++ List.replicate 3 DelayState.reset }) ({ up with now := 100000 } |> setF (Reg.LNK_PSTAT_STATE 0) 3 |> setF Reg.TBS_STAT_STATE 3), 0, 4, by dsimp only; decide⟩,
    ⟨setF Reg.TBS_STAT_STATE 3 up, by dsimp only; decide⟩,
    ⟨{ (child 3) with now := 2000000000 }, by dsimp only; decide⟩,
    ⟨setF Reg.TBS_STAT_STATE 3 up, by dsimp only; decide⟩,
    ⟨onTbs (fun x => { x with ports := [⟨0, none, none, some (2, false, 0), [], false, none⟩] ++ List.replicate 3 DelayState.reset }) (up |> setF (Reg.LNK_PSTAT_STATE 0) 3 |> setF Reg.TBS_CFG_ROOT 1), 0, by decide⟩,
    ⟨onFab ({ · with runEnd := some 5 }) up |> setF Reg.TBS_CFG_ROOT 1, by decide⟩,
    ⟨setF Reg.TBS_CFG_ROOT 1 up, by decide⟩,
    ⟨up, by decide⟩,
    ⟨onTbs ({ · with stepReq := true }) up |> setF Reg.TBS_CFG_ROOT 1, by decide⟩,
    ⟨up, 3, by decide⟩⟩

theorem hyps_ReinChecks :
    (∃ s : State, ∃ f : Frame, 
     let when := fun (f : Frame) => (nth f.payload 0 0#32).toNat + 2 ^ 32 * (nth f.payload 1 0#32).toNat
     let near := fun (t : Nat) => s.tbs.taken = true ∧ (mergeWindow s).any (fun w => decide (mag ((t : Int) - lastRein s) ≤ w)) = true
     coreUp s = true ∧ f.type = .rein ∧ near (when f)) ∧
    (∃ s : State, ∃ f : Frame, 
     let when := fun (f : Frame) => (nth f.payload 0 0#32).toNat + 2 ^ 32 * (nth f.payload 1 0#32).toNat
     let near := fun (t : Nat) => s.tbs.taken = true ∧ (mergeWindow s).any (fun w => decide (mag ((t : Int) - lastRein s) ≤ w)) = true
     let busy := bit Reg.TBS_RSTAT_BUSY s = true
     coreUp s = true ∧ f.type = .rein ∧ ¬ near (when f) ∧ busy) ∧
    (∃ s : State, ∃ f : Frame, 
     let when := fun (f : Frame) => (nth f.payload 0 0#32).toNat + 2 ^ 32 * (nth f.payload 1 0#32).toNat
     let near := fun (t : Nat) => s.tbs.taken = true ∧ (mergeWindow s).any (fun w => decide (mag ((t : Int) - lastRein s) ≤ w)) = true
     let busy := bit Reg.TBS_RSTAT_BUSY s = true
     let full := bit Reg.TBS_RSTAT_FULL s = true ∧ bit Reg.TBS_CFG_OVRMODE s = false
     coreUp s = true ∧ f.type = .rein ∧ ¬ near (when f) ∧ ¬ busy ∧ full) ∧
    (∃ s : State, ∃ f : Frame, 
     let when := fun (f : Frame) => (nth f.payload 0 0#32).toNat + 2 ^ 32 * (nth f.payload 1 0#32).toNat
     let near := fun (t : Nat) => s.tbs.taken = true ∧ (mergeWindow s).any (fun w => decide (mag ((t : Int) - lastRein s) ≤ w)) = true
     let busy := bit Reg.TBS_RSTAT_BUSY s = true
     let full := bit Reg.TBS_RSTAT_FULL s = true ∧ bit Reg.TBS_CFG_OVRMODE s = false
     coreUp s = true ∧ f.type = .rein ∧ ¬ near (when f) ∧ ¬ busy ∧ ¬ full ∧ s.ft ≤ when f) ∧
    (∃ s : State, ∃ f : Frame, 
     let when := fun (f : Frame) => (nth f.payload 0 0#32).toNat + 2 ^ 32 * (nth f.payload 1 0#32).toNat
     let near := fun (t : Nat) => s.tbs.taken = true ∧ (mergeWindow s).any (fun w => decide (mag ((t : Int) - lastRein s) ≤ w)) = true
     let busy := bit Reg.TBS_RSTAT_BUSY s = true
     let full := bit Reg.TBS_RSTAT_FULL s = true ∧ bit Reg.TBS_CFG_OVRMODE s = false
     coreUp s = true ∧ f.type = .rein ∧ ¬ near (when f) ∧ ¬ busy ∧ ¬ full ∧ when f < s.ft) ∧
    (∃ s : State, ∃ b : Bool, ∃ i : Bool, 
     let own := fun (bcast imm : Bool) => if imm then (s.ft + (if bcast then getF Reg.TBS_CFG_LEAD s * 10000 else 0)) % 2 ^ 64
       else (reg s Reg.TBS_REINTH).toNat * 2 ^ 32 + (reg s Reg.TBS_REINTL).toNat
     let near := fun (t : Nat) => s.tbs.taken = true ∧ (mergeWindow s).any (fun w => decide (mag ((t : Int) - lastRein s) ≤ w)) = true
     coreUp s = true ∧ near (own b i)) ∧
    (∃ s : State, ∃ b : Bool, ∃ i : Bool, 
     let own := fun (bcast imm : Bool) => if imm then (s.ft + (if bcast then getF Reg.TBS_CFG_LEAD s * 10000 else 0)) % 2 ^ 64
       else (reg s Reg.TBS_REINTH).toNat * 2 ^ 32 + (reg s Reg.TBS_REINTL).toNat
     let near := fun (t : Nat) => s.tbs.taken = true ∧ (mergeWindow s).any (fun w => decide (mag ((t : Int) - lastRein s) ≤ w)) = true
     let busy := bit Reg.TBS_RSTAT_BUSY s = true
     coreUp s = true ∧ ¬ near (own b i) ∧ busy) ∧
    (∃ s : State, ∃ b : Bool, ∃ i : Bool, 
     let own := fun (bcast imm : Bool) => if imm then (s.ft + (if bcast then getF Reg.TBS_CFG_LEAD s * 10000 else 0)) % 2 ^ 64
       else (reg s Reg.TBS_REINTH).toNat * 2 ^ 32 + (reg s Reg.TBS_REINTL).toNat
     let near := fun (t : Nat) => s.tbs.taken = true ∧ (mergeWindow s).any (fun w => decide (mag ((t : Int) - lastRein s) ≤ w)) = true
     let busy := bit Reg.TBS_RSTAT_BUSY s = true
     let full := bit Reg.TBS_RSTAT_FULL s = true ∧ bit Reg.TBS_CFG_OVRMODE s = false
     coreUp s = true ∧ ¬ near (own b i) ∧ ¬ busy ∧ full) ∧
    (∃ s : State, ∃ b : Bool, ∃ i : Bool, 
     let own := fun (bcast imm : Bool) => if imm then (s.ft + (if bcast then getF Reg.TBS_CFG_LEAD s * 10000 else 0)) % 2 ^ 64
       else (reg s Reg.TBS_REINTH).toNat * 2 ^ 32 + (reg s Reg.TBS_REINTL).toNat
     let near := fun (t : Nat) => s.tbs.taken = true ∧ (mergeWindow s).any (fun w => decide (mag ((t : Int) - lastRein s) ≤ w)) = true
     let busy := bit Reg.TBS_RSTAT_BUSY s = true
     let full := bit Reg.TBS_RSTAT_FULL s = true ∧ bit Reg.TBS_CFG_OVRMODE s = false
     coreUp s = true ∧ ¬ near (own b i) ∧ ¬ busy ∧ ¬ full ∧ s.ft ≤ own b i) ∧
    (∃ s : State, coreUp s = true ∧ broadcastsNow s < 64 ∧ s.fab.bwait = []) :=
    ⟨⟨onTbs ({ · with taken := true }) up |> setReg Reg.TBS_RTIMEL 500#32, reinFrame 600, by dsimp only; decide⟩,
    ⟨setB Reg.TBS_RSTAT_BUSY true up, reinFrame 600000, by dsimp only; decide⟩,
    ⟨setB Reg.TBS_RSTAT_FULL true up, reinFrame 600000, by dsimp only; decide⟩,
    ⟨up, reinFrame 600000, by dsimp only; decide⟩,
    ⟨{ up with ft := 7000 }, reinFrame 5000, by dsimp only; decide⟩,
    ⟨onTbs ({ · with taken := true }) up |> setReg Reg.TBS_RTIMEL 500#32, true, false, by dsimp only; decide⟩,
    ⟨setB Reg.TBS_RSTAT_BUSY true up, true, true, by dsimp only; decide⟩,
    ⟨setB Reg.TBS_RSTAT_FULL true up, false, true, by dsimp only; decide⟩,
    ⟨setReg Reg.TBS_REINTL 600000#32 up, true, false, by dsimp only; decide⟩,
    ⟨up |> setF (Reg.LNK_PSTAT_STATE 3) 3, by decide⟩⟩

theorem hyps_ReinLatches :
    (∃ s : State, ∃ T : Nat, s.tbs.latch = some T ∧ s.tbs.skipped = false ∧ T ≤ s.ft ∧ s.ft < T + 6) ∧
    (∃ s : State, ∃ T : Nat, s.tbs.latch = some T ∧ (((s.tbs.skipped = true ∧ T < s.ft) ∨ T + 6 ≤ s.ft))) ∧
    (∃ s : State, ∃ T : Nat, s.tbs.latch = some T ∧ T ≤ s.ft ∧ s.cms.running = true ∧ atOrAfter T s.cms.startT = true) ∧
    (∃ s : State, s.tbs.latch.all (fun T => decide (s.ft < T)) = true) ∧
    (∃ s : State, coreUp s = true ∧ bit Reg.TBS_RSTAT_BUSY s = false) ∧
    (∃ s : State, coreUp s = true ∧ bit Reg.TBS_RSTAT_BUSY s = true) ∧
    (∃ s : State, ∃ ago : Nat, coreUp s = true ∧ bit Reg.TBS_CFG_SNAPEN s = true ∧ s.tbs.edge.any (fun e => decide (s.now < e + ago + snapSpacing s)) = true) ∧
    (∃ s : State, ∃ ago : Nat, coreUp s = true ∧ bit Reg.TBS_CFG_SNAPEN s = true ∧ ago ≤ s.ft ∧ s.ft < 2 ^ 64 ∧ s.tbs.edge.all (fun e => decide (e + ago + snapSpacing s ≤ s.now)) = true ∧ s.tbs.taken = false ∧ bit Reg.TBS_RSTAT_BUSY s = false ∧ bit Reg.TBS_RSTAT_FULL s = false) ∧
    (∃ s : State, coreUp s = true ∧ bit Reg.TBS_CFG_SNAPEN s = true ∧ getF Reg.TBS_CFG_SNAPTO s ≠ 0 ∧ bit Reg.TBS_PINSTAT_STUCK s = false ∧ s.tbs.snapAt.all (fun e => decide (e + getF Reg.TBS_CFG_SNAPTO s * 1000 * ms ≤ s.now)) = true) ∧
    (∃ s : State, (bit Reg.TBS_PINSTAT_STUCK s = true ∨ s.tbs.snapAt.any (fun e => decide (s.now < e + getF Reg.TBS_CFG_SNAPTO s * 1000 * ms)) = true)) ∧
    (∃ s : State, bit Reg.TBS_CFG_SNAPEN s = false) ∧
    (∃ s : State, bit Reg.TBS_CFG_SNAPEN s = true) :=
    ⟨⟨onTbs ({ · with latch := some 0 }) up, 0, by decide⟩,
    ⟨onTbs ({ · with latch := some 0, skipped := true }) { up with ft := 1 }, 0, by decide⟩,
    ⟨onTbs ({ · with latch := some 0 }) (onCms ({ · with running := true }) up), 0, by decide⟩,
    ⟨onTbs ({ · with latch := some 9 }) up, by decide⟩,
    ⟨setB Reg.TBS_RSTAT_FULL true up, by decide⟩,
    ⟨setB Reg.TBS_RSTAT_FULL true up |> setB Reg.TBS_RSTAT_BUSY true, by decide⟩,
    ⟨{ (onTbs ({ · with edge := some 100 }) up) with now := 1100 }, 1000, by decide⟩,
    ⟨{ up with ft := 5000, now := 2000 }, 1000, by decide⟩,
    ⟨up, by decide⟩,
    ⟨setB Reg.TBS_PINSTAT_STUCK true up, by decide⟩,
    ⟨setB Reg.TBS_CFG_SNAPEN false up, by decide⟩,
    ⟨setB Reg.TBS_PINSTAT_STUCK true up, by decide⟩⟩

theorem hyps_SourceEvents :
    (∃ s : State, ∃ n : Fin 128, 
     let heard := fun (n : Fin 128) => collectorRuns s = true ∧ unusedSource n = false ∧ muted n s = false
     let counted := fun (n : Fin 128) => heard n ∧ injecting n s = false ∧ bit (Reg.FLT_CFG_EN n) s = true
     let mild := fun (n : Fin 128) => counted n ∧ srcBit Reg.FLT_SEV n s = false ∧ (nextCount n s).1 < getF (Reg.FLT_CFG_N n) s
     mild n ∧ bit (Reg.FLT_CFG_EVI n) s = false) ∧
    (∃ s : State, ∃ n : Fin 128, 
     let heard := fun (n : Fin 128) => collectorRuns s = true ∧ unusedSource n = false ∧ muted n s = false
     let counted := fun (n : Fin 128) => heard n ∧ injecting n s = false ∧ bit (Reg.FLT_CFG_EN n) s = true
     let mild := fun (n : Fin 128) => counted n ∧ srcBit Reg.FLT_SEV n s = false ∧ (nextCount n s).1 < getF (Reg.FLT_CFG_N n) s
     let alarms := legacyMode s = false ∧ s.hst.spi ≠ 1
     let recent := fun (n : Fin 128) => (assoc n.val s.flt.alarmed).any (fun u => decide (s.now < u + ms)) = true
     mild n ∧ bit (Reg.FLT_CFG_EVI n) s = true ∧ alarms ∧ ¬ recent n) ∧
    (∃ s : State, ∃ n : Fin 128, 
     let heard := fun (n : Fin 128) => collectorRuns s = true ∧ unusedSource n = false ∧ muted n s = false
     let counted := fun (n : Fin 128) => heard n ∧ injecting n s = false ∧ bit (Reg.FLT_CFG_EN n) s = true
     let mild := fun (n : Fin 128) => counted n ∧ srcBit Reg.FLT_SEV n s = false ∧ (nextCount n s).1 < getF (Reg.FLT_CFG_N n) s
     let recent := fun (n : Fin 128) => (assoc n.val s.flt.alarmed).any (fun u => decide (s.now < u + ms)) = true
     mild n ∧ bit (Reg.FLT_CFG_EVI n) s = true ∧ recent n) ∧
    (∃ s : State, ∃ n : Fin 128, 
     let heard := fun (n : Fin 128) => collectorRuns s = true ∧ unusedSource n = false ∧ muted n s = false
     let counted := fun (n : Fin 128) => heard n ∧ injecting n s = false ∧ bit (Reg.FLT_CFG_EN n) s = true
     let severe := fun (n : Fin 128) => counted n ∧ srcBit Reg.FLT_SEV n s = false ∧ getF (Reg.FLT_CFG_N n) s ≤ (nextCount n s).1
     severe n) ∧
    (∃ s : State, ∃ n : Fin 128, 
     let heard := fun (n : Fin 128) => collectorRuns s = true ∧ unusedSource n = false ∧ muted n s = false
     let counted := fun (n : Fin 128) => heard n ∧ injecting n s = false ∧ bit (Reg.FLT_CFG_EN n) s = true
     let severe := fun (n : Fin 128) => counted n ∧ srcBit Reg.FLT_SEV n s = false ∧ getF (Reg.FLT_CFG_N n) s ≤ (nextCount n s).1
     let svr := fun (n : Fin 128) => getF (Reg.FLT_CFG_SVR n) s
     let alarms := legacyMode s = false ∧ s.hst.spi ≠ 1
     severe n ∧ takenReaction n (svr n) = 1 ∧ alarms) ∧
    (∃ s : State, ∃ n : Fin 128, 
     let heard := fun (n : Fin 128) => collectorRuns s = true ∧ unusedSource n = false ∧ muted n s = false
     let counted := fun (n : Fin 128) => heard n ∧ injecting n s = false ∧ bit (Reg.FLT_CFG_EN n) s = true
     let severe := fun (n : Fin 128) => counted n ∧ srcBit Reg.FLT_SEV n s = false ∧ getF (Reg.FLT_CFG_N n) s ≤ (nextCount n s).1
     let svr := fun (n : Fin 128) => getF (Reg.FLT_CFG_SVR n) s
     n.val = 66 ∧ severe n ∧ svr n = 2) ∧
    (∃ s : State, ∃ n : Fin 128, 
     let heard := fun (n : Fin 128) => collectorRuns s = true ∧ unusedSource n = false ∧ muted n s = false
     let counted := fun (n : Fin 128) => heard n ∧ injecting n s = false ∧ bit (Reg.FLT_CFG_EN n) s = true
     let severe := fun (n : Fin 128) => counted n ∧ srcBit Reg.FLT_SEV n s = false ∧ getF (Reg.FLT_CFG_N n) s ≤ (nextCount n s).1
     let svr := fun (n : Fin 128) => getF (Reg.FLT_CFG_SVR n) s
     severe n ∧ svr n = 3 ∧ degradesCnv n = true) ∧
    (∃ s : State, ∃ n : Fin 128, 
     let heard := fun (n : Fin 128) => collectorRuns s = true ∧ unusedSource n = false ∧ muted n s = false
     let counted := fun (n : Fin 128) => heard n ∧ injecting n s = false ∧ bit (Reg.FLT_CFG_EN n) s = true
     let severe := fun (n : Fin 128) => counted n ∧ srcBit Reg.FLT_SEV n s = false ∧ getF (Reg.FLT_CFG_N n) s ≤ (nextCount n s).1
     let svr := fun (n : Fin 128) => getF (Reg.FLT_CFG_SVR n) s
     severe n ∧ svr n = 4 ∧ bit Reg.FLT_STAT_SAFE s = false) ∧
    (∃ s : State, ∃ n : Fin 128, 
     let heard := fun (n : Fin 128) => collectorRuns s = true ∧ unusedSource n = false ∧ muted n s = false
     let counted := fun (n : Fin 128) => heard n ∧ injecting n s = false ∧ bit (Reg.FLT_CFG_EN n) s = true
     counted n ∧ srcBit Reg.FLT_SEV n s = true) ∧
    (∃ s : State, ∃ n : Fin 128, 
     let heard := fun (n : Fin 128) => collectorRuns s = true ∧ unusedSource n = false ∧ muted n s = false
     heard n ∧ injecting n s = false ∧ bit (Reg.FLT_CFG_EN n) s = false) ∧
    (∃ s : State, ∃ n : Fin 128, 
     let heard := fun (n : Fin 128) => collectorRuns s = true ∧ unusedSource n = false ∧ muted n s = false
     heard n ∧ injecting n s = true ∧ bit (Reg.FLT_CFG_EN n) s = false) ∧
    (∃ s : State, ∃ n : Fin 128, collectorRuns s = true ∧ injecting n s = false ∧ n.val ∉ s.flt.railErr ∧ n.val ≠ 127) ∧
    (∃ s : State, ∃ n : Fin 128, n.val = 127 ∧ collectorRuns s = true ∧ injecting n s = false ∧ 127 ∉ s.flt.railErr) ∧
    (∃ s : State, ∃ n : Fin 128, n.val ∈ s.flt.railErr ∧ s.flt.railErr.Nodup) ∧
    (∃ s : State, ∃ n : Fin 128, ((n.val ≠ 103 ∨ hasRole s = false))) ∧
    (∃ s : State, 
     let heard := fun (n : Fin 128) => collectorRuns s = true ∧ unusedSource n = false ∧ muted n s = false
     heard 103 ∧ hasRole s = true) ∧
    (∃ s : State, coreUp s = true) :=
    ⟨⟨up |> setReg (Reg.FLT_CFG 71) 0x1C31#32, 71, by dsimp only; decide⟩,
    ⟨up |> setReg (Reg.FLT_CFG 71) 0x1C33#32, 71, by dsimp only; decide⟩,
    ⟨onFlt ({ · with alarmed := [(71, 0)] }) up |> setReg (Reg.FLT_CFG 71) 0x1C33#32, 71, by dsimp only; decide⟩,
    ⟨up |> setReg (Reg.FLT_CFG 71) 0x0C11#32, 71, by dsimp only; decide⟩,
    ⟨up, 6, by dsimp only; decide⟩,
    ⟨up, 66, by dsimp only; decide⟩,
    ⟨up |> setReg (Reg.FLT_CFG 77) 0x3C11#32, 77, by dsimp only; decide⟩,
    ⟨up, 68, by dsimp only; decide⟩,
    ⟨up |> setReg (Reg.FLT_SEV 2) 0x80#32, 71, by dsimp only; decide⟩,
    ⟨up |> setReg (Reg.FLT_CFG 71) 0x1C30#32, 71, by dsimp only; decide⟩,
    ⟨up |> setReg (Reg.FLT_CFG 71) 0x1C30#32 |> setB Reg.FLT_INJSTAT_ACTIVE true |> setF Reg.FLT_INJSTAT_SRC 71, 71, by dsimp only; decide⟩,
    ⟨up, 71, by decide⟩,
    ⟨up, 127, by decide⟩,
    ⟨onFlt ({ · with railErr := [71, 127] }) up, 71, by decide⟩,
    ⟨up, 71, by decide⟩,
    ⟨gate, by dsimp only; decide⟩,
    ⟨up, by decide⟩⟩

theorem hyps_SourceClears :
    (∃ s : State, 
     let core := coreUp s = true
     core) ∧
    (∃ s : State, 
     let core := coreUp s = true
     core) ∧
    (∃ s : State, 
     let core := coreUp s = true
     core) ∧
    (∃ s : State, ∃ w : Word, 
     let core := coreUp s = true
     core ∧ bit Reg.SYS_LOCKSTAT_LFLT s = false ∧ w &&& 0xFFFF000C#32 = 0#32 ∧ getBits w 12 3 ≤ 4 ∧ getBits w 4 4 ≠ 0) ∧
    (∃ s : State, 
     let core := coreUp s = true
     core ∧ bit Reg.SYS_LOCKSTAT_LFLT s = true) ∧
    (∃ s : State, ∃ w : Word, 
     let core := coreUp s = true
     core ∧ bit Reg.SYS_LOCKSTAT_LFLT s = false ∧ w &&& 0xFFFF000C#32 ≠ 0#32) ∧
    (∃ s : State, ∃ w : Word, 
     let core := coreUp s = true
     core ∧ bit Reg.SYS_LOCKSTAT_LFLT s = false ∧ w &&& 0xFFFF000C#32 = 0#32 ∧ ((4 < getBits w 12 3 ∨ getBits w 4 4 = 0))) ∧
    (∃ s : State, ∃ n : Fin 128, 
     let core := coreUp s = true
     let denied := fun (n : Fin 128) (full : Bool) => full = true ∧ lifecycle s = 2 ∧ getF (Reg.FLT_CFG_SVR n) s = 4
     core ∧ denied n true) ∧
    (∃ s : State, ∃ n : Fin 128, ∃ m : Bool, 
     let core := coreUp s = true
     let denied := fun (n : Fin 128) (full : Bool) => full = true ∧ lifecycle s = 2 ∧ getF (Reg.FLT_CFG_SVR n) s = 4
     core ∧ ¬ denied n m ∧ bit Reg.FLT_INJSTAT_ACTIVE s = true) ∧
    (∃ s : State, ∃ n : Fin 128, ∃ d : Fin 256, 
     let core := coreUp s = true
     let fair := fun (n : Fin 128) (d : Fin 256) => d.val ≠ 0 ∧ bit (Reg.FLT_CFG_EN n) s = true
     core ∧ fair n d ∧ bit Reg.FLT_INJSTAT_ACTIVE s = false ∧ n.val ∉ s.flt.lines) ∧
    (∃ s : State, ∃ n : Fin 128, ∃ d : Fin 256, 
     let core := coreUp s = true
     let fair := fun (n : Fin 128) (d : Fin 256) => d.val ≠ 0 ∧ bit (Reg.FLT_CFG_EN n) s = true
     let denied := fun (n : Fin 128) (full : Bool) => full = true ∧ lifecycle s = 2 ∧ getF (Reg.FLT_CFG_SVR n) s = 4
     core ∧ fair n d ∧ ¬ denied n true ∧ bit Reg.FLT_INJSTAT_ACTIVE s = false ∧ n.val ∉ s.flt.lines ∧ srcBit Reg.FLT_SEV n s = false ∧ (nextCount n s).1 < getF (Reg.FLT_CFG_N n) s) ∧
    (∃ s : State, ∃ n : Fin 128, ∃ d : Fin 256, 
     let core := coreUp s = true
     let fair := fun (n : Fin 128) (d : Fin 256) => d.val ≠ 0 ∧ bit (Reg.FLT_CFG_EN n) s = true
     let denied := fun (n : Fin 128) (full : Bool) => full = true ∧ lifecycle s = 2 ∧ getF (Reg.FLT_CFG_SVR n) s = 4
     core ∧ fair n d ∧ ¬ denied n true ∧ bit Reg.FLT_INJSTAT_ACTIVE s = false ∧ n.val ∉ s.flt.lines ∧ srcBit Reg.FLT_SEV n s = false ∧ getF (Reg.FLT_CFG_N n) s ≤ (nextCount n s).1) ∧
    (∃ s : State, ∃ n : Fin 128, ∃ d : Fin 256, 
     let core := coreUp s = true
     let fair := fun (n : Fin 128) (d : Fin 256) => d.val ≠ 0 ∧ bit (Reg.FLT_CFG_EN n) s = true
     let denied := fun (n : Fin 128) (full : Bool) => full = true ∧ lifecycle s = 2 ∧ getF (Reg.FLT_CFG_SVR n) s = 4
     core ∧ fair n d ∧ ¬ denied n true ∧ bit Reg.FLT_INJSTAT_ACTIVE s = false ∧ n.val ∉ s.flt.lines ∧ srcBit Reg.FLT_SEV n s = true) ∧
    (∃ s : State, ∃ n : Fin 128, ∃ d : Fin 256, ∃ m : Bool, 
     let core := coreUp s = true
     let fair := fun (n : Fin 128) (d : Fin 256) => d.val ≠ 0 ∧ bit (Reg.FLT_CFG_EN n) s = true
     let denied := fun (n : Fin 128) (full : Bool) => full = true ∧ lifecycle s = 2 ∧ getF (Reg.FLT_CFG_SVR n) s = 4
     core ∧ fair n d ∧ ¬ denied n m ∧ bit Reg.FLT_INJSTAT_ACTIVE s = false ∧ n.val ∈ s.flt.lines) ∧
    (∃ s : State, ∃ n : Fin 128, ∃ d : Fin 256, ∃ m : Bool, 
     let core := coreUp s = true
     let fair := fun (n : Fin 128) (d : Fin 256) => d.val ≠ 0 ∧ bit (Reg.FLT_CFG_EN n) s = true
     let denied := fun (n : Fin 128) (full : Bool) => full = true ∧ lifecycle s = 2 ∧ getF (Reg.FLT_CFG_SVR n) s = 4
     core ∧ ¬ fair n d ∧ ¬ denied n m ∧ bit Reg.FLT_INJSTAT_ACTIVE s = false) ∧
    (∃ s : State, bit Reg.FLT_INJSTAT_ACTIVE s = true ∧ s.flt.injEnd ≤ s.now) ∧
    (∃ s : State, (s.now < s.flt.injEnd ∨ bit Reg.FLT_INJSTAT_ACTIVE s = false)) ∧
    (∃ s : State, coreUp s = false) :=
    ⟨⟨up |> setReg (Reg.FLT_SEV 2) 0x10#32, by dsimp only; decide⟩,
    ⟨up |> setReg (Reg.FLT_STK 2) 0x30#32 |> setReg (Reg.FLT_ACT 2) 0x20#32, by dsimp only; decide⟩,
    ⟨up |> setReg (Reg.FLT_STK 2) 0x30#32 |> setReg (Reg.FLT_ACT 2) 0x20#32, by dsimp only; decide⟩,
    ⟨up, 0x1911#32, by dsimp only; decide⟩,
    ⟨setB Reg.SYS_LOCKSTAT_LFLT true up, by dsimp only; decide⟩,
    ⟨up, 0x10000#32, by dsimp only; decide⟩,
    ⟨up, 0x1901#32, by dsimp only; decide⟩,
    ⟨setF Reg.BST_LCSTAT_STATE 2 up, 68, by dsimp only; decide⟩,
    ⟨onFlt ({ · with injEnd := 5000 }) (setB Reg.FLT_INJSTAT_ACTIVE true up), 6, true, by dsimp only; decide⟩,
    ⟨up, 6, 10, by dsimp only; decide⟩,
    ⟨up |> setReg (Reg.FLT_CFG 71) 0x1C31#32, 71, 10, by dsimp only; decide⟩,
    ⟨up, 6, 10, by dsimp only; decide⟩,
    ⟨up |> setReg (Reg.FLT_SEV 2) 0x80#32, 71, 10, by dsimp only; decide⟩,
    ⟨onFlt ({ · with lines := [6] }) up, 6, 10, true, by dsimp only; decide⟩,
    ⟨up, 6, 0, false, by dsimp only; decide⟩,
    ⟨setB Reg.FLT_INJSTAT_ACTIVE true up, by decide⟩,
    ⟨onFlt ({ · with injEnd := 5000 }) (setB Reg.FLT_INJSTAT_ACTIVE true up), by decide⟩,
    ⟨State.reset, by decide⟩⟩

theorem hyps_ThermalEvents :
    (∃ s : State, ∃ a : Int, ∃ b : Int, ∃ c : Int, 
     let rest := coreUp s = true ∧ getF Reg.THM_STAT_FAIL s = 0
     let inside := fun (a b c : Int) => -6000 ≤ a ∧ a ≤ 20000 ∧ -6000 ≤ b ∧ b ≤ 20000 ∧ -6000 ≤ c ∧ c ≤ 20000
     rest ∧ inside a b c ∧ s.thm.first = true) ∧
    (∃ s : State, ∃ a : Int, ∃ b : Int, ∃ c : Int, 
     let rest := coreUp s = true ∧ getF Reg.THM_STAT_FAIL s = 0
     let inside := fun (a b c : Int) => -6000 ≤ a ∧ a ≤ 20000 ∧ -6000 ≤ b ∧ b ≤ 20000 ∧ -6000 ≤ c ∧ c ≤ 20000
     rest ∧ inside a b c ∧ 100 * (getF Reg.THM_CFG_WARN s : Int) ≤ a) ∧
    (∃ s : State, ∃ a : Int, ∃ b : Int, ∃ c : Int, 
     let rest := coreUp s = true ∧ getF Reg.THM_STAT_FAIL s = 0
     let inside := fun (a b c : Int) => -6000 ≤ a ∧ a ≤ 20000 ∧ -6000 ≤ b ∧ b ≤ 20000 ∧ -6000 ≤ c ∧ c ≤ 20000
     rest ∧ inside a b c ∧ nth s.thm.biasBad 1 0 = 1) ∧
    (∃ s : State, 
     let lasted := fun b : Option Nat => ∃ k, b = some k ∧ k + 1000 * ms ≤ s.now
     coreUp s = true ∧ diesDiffer s = true ∧ s.thm.disagree = false ∧ lasted s.thm.differAt) ∧
    (∃ s : State, 
     let lasted := fun b : Option Nat => ∃ k, b = some k ∧ k + 1000 * ms ≤ s.now
     coreUp s = true ∧ bit Reg.THM_STAT_GALLOP s = true ∧ nearLimit 800 s = false ∧ lasted s.thm.clearAt) ∧
    (∃ s : State, ∃ n : Fin 3, coreUp s = true ∧ s.sys.phase ≠ .core ∧ dieFailed n s = false ∧ s.ft < 2 ^ 64) ∧
    (∃ s : State, s.sys.phase = .thermal ∧ s.sys.rstnLow = false) ∧
    (∃ s : State, s.sys.phase = .thermal ∧ s.sys.rstnLow = true) ∧
    (∃ s : State, ∃ a : Int, ∃ b : Int, ∃ c : Int, 
     let inside := fun (a b c : Int) => -6000 ≤ a ∧ a ≤ 20000 ∧ -6000 ≤ b ∧ b ≤ 20000 ∧ -6000 ≤ c ∧ c ≤ 20000
     s.sys.phase = .sentinel ∧ inside a b c ∧ 100 * (getF Reg.THM_CFG_WARN s : Int) ≤ a ∧ bit Reg.SYS_PWRCFG_THWAKE s = true ∧ s.sys.lastWake = none) ∧
    (∃ s : State, coreUp s = false ∧ s.sys.phase ≠ .sentinel) :=
    ⟨⟨onSys ({ · with phase := .standby }) up, 2504, -1000, 1996, by dsimp only; decide⟩,
    ⟨onSys ({ · with phase := .standby }) up, 12500, 0, 0, by dsimp only; decide⟩,
    ⟨onThm ({ · with biasBad := [0, 1, 0] }) (onSys ({ · with phase := .standby }) up), 0, 0, 0, by dsimp only; decide⟩,
    ⟨onThm ({ · with die := [4000, 500, 0], differAt := some 0 }) { up with now := 1000 * ms }, by dsimp only; decide⟩,
    ⟨onThm ({ · with clearAt := some 0 }) { up with now := 1000 * ms } |> setB Reg.THM_STAT_GALLOP true, by dsimp only; decide⟩,
    ⟨{ up with ft := 77 }, 1, by decide⟩,
    ⟨onSys ({ · with phase := .thermal }) State.reset, by decide⟩,
    ⟨onSys ({ · with phase := .thermal, rstnLow := true }) State.reset, by decide⟩,
    ⟨onSys ({ · with phase := .sentinel }) up |> setB Reg.SYS_PWRCFG_THWAKE true, 12500, 0, 0, by dsimp only; decide⟩,
    ⟨State.reset, by decide⟩⟩

theorem hyps_CalibrationRun :
    (∃ s : State, 
     let free := coreUp s = true ∧ s.sys.ctlBusy = false ∧ bit Reg.BST_CTLSTAT_ROMBAD s = false ∧ calFenced s = false ∧ calOccupied s = false ∧
       planActive s = false ∧ s.xck.harness = none
     free ∧ lifecycle s = 1 ∧ getF Reg.CNV_STAT_STATE s = 0 ∧ refsBad s = false ∧ unusedCells s = false) ∧
    (∃ s : State, ∃ tk : Ticket, tk = .direct ∧ coreUp s = true ∧ lifecycle s ≠ 1) ∧
    (∃ s : State, ∃ tk : Ticket, 
     let free := coreUp s = true ∧ s.sys.ctlBusy = false ∧ bit Reg.BST_CTLSTAT_ROMBAD s = false ∧ calFenced s = false ∧ calOccupied s = false ∧
       planActive s = false ∧ s.xck.harness = none
     tk = .direct ∧ free ∧ lifecycle s = 1 ∧ getF Reg.CNV_STAT_STATE s ≠ 0) ∧
    (∃ s : State, ∃ tk : Ticket, 
     let free := coreUp s = true ∧ s.sys.ctlBusy = false ∧ bit Reg.BST_CTLSTAT_ROMBAD s = false ∧ calFenced s = false ∧ calOccupied s = false ∧
       planActive s = false ∧ s.xck.harness = none
     tk = .direct ∧ free ∧ lifecycle s = 1 ∧ getF Reg.CNV_STAT_STATE s = 0 ∧ refsBad s = true) ∧
    (∃ s : State, ∃ tk : Ticket, 
     let free := coreUp s = true ∧ s.sys.ctlBusy = false ∧ bit Reg.BST_CTLSTAT_ROMBAD s = false ∧ calFenced s = false ∧ calOccupied s = false ∧
       planActive s = false ∧ s.xck.harness = none
     tk = .direct ∧ free ∧ lifecycle s = 1 ∧ getF Reg.CNV_STAT_STATE s = 0 ∧ refsBad s = false ∧ unusedCells s = true) ∧
    (∃ s : State, ∃ tk : Ticket, tk = .direct ∧ coreUp s = true ∧ lifecycle s = 1 ∧ calFenced s = true) ∧
    (∃ s : State, ∃ r : CalRun, s.cal.run = some r ∧ s.sys.phase = .active ∧ calRunning s = false) ∧
    (∃ s : State, ∃ r : CalRun, 
     let begun := fun (r : CalRun) (t : Nat) => r.begun + leastSpan (t * ms) ≤ s.now
     s.cal.run = some r ∧ getF Reg.CAL_STAT_PHASE s = 1 ∧ begun r 875) ∧
    (∃ s : State, ∃ r : CalRun, ∃ a : List Int, ∃ b : List Int, ∃ k : Fin 113, 
     let calm := s.cal.op = none ∧ s.cal.queue = [] ∧ s.cal.epochPend = none
     let begun := fun (r : CalRun) (t : Nat) => r.begun + leastSpan (t * ms) ≤ s.now
     let ok := fun (r : CalRun) (a b : List Int) (k : Nat) => calInput k s = true → calCheck k (nth r.zero k 0) (nth a k 0) (nth b k 0) s = 0
     calm ∧ s.cal.run = some r ∧ r.ticket = .direct ∧ getF Reg.CAL_STAT_PHASE s = 2 ∧ begun r 2000 ∧ ((∀ j, j < k.val → ok r a b j)) ∧ ¬ ok r a b k) ∧
    (∃ s : State, ∃ r : CalRun, ∃ a : List Int, ∃ b : List Int, 
     let calm := s.cal.op = none ∧ s.cal.queue = [] ∧ s.cal.epochPend = none
     let serves := controllerServes s = true
     let begun := fun (r : CalRun) (t : Nat) => r.begun + leastSpan (t * ms) ≤ s.now
     let ok := fun (r : CalRun) (a b : List Int) (k : Nat) => calInput k s = true → calCheck k (nth r.zero k 0) (nth a k 0) (nth b k 0) s = 0
     calm ∧ serves ∧ s.cal.run = some r ∧ getF Reg.CAL_STAT_PHASE s = 2 ∧ begun r 2000 ∧ ((∀ j, j < 113 → ok r a b j))) ∧
    (∃ s : State, ∃ o : NvmOp, ∃ r : CalRun, 
     let begun := fun (r : CalRun) (t : Nat) => r.begun + leastSpan (t * ms) ≤ s.now
     s.cal.op = some o ∧ o.job = .run ∧ s.cal.run = some r ∧ begun r 2050 ∧ s.cal.queue = []) ∧
    (∃ s : State, ∃ r : CalRun, ∃ b : Bool, s.cal.run = some r ∧ r.written = some b ∧ r.ticket = .direct ∧ s.cal.op = none ∧ s.cal.queue = []) ∧
    (∃ s : State, ∃ r : CalRun, s.cal.run = some r ∧ s.now < r.begun + leastSpan (875 * ms)) :=
    ⟨⟨bench, by dsimp only; decide⟩,
    ⟨up, .direct, by decide⟩,
    ⟨setF Reg.CNV_STAT_STATE 4 bench, .direct, by dsimp only; decide⟩,
    ⟨setReg (Reg.CAL_REF 0) 0#32 bench, .direct, by dsimp only; decide⟩,
    ⟨onCms ({ · with unused := some true }) bench, .direct, by dsimp only; decide⟩,
    ⟨setReg Reg.CMS_FENCE 2#32 bench, .direct, by decide⟩,
    ⟨calib 0 none, ⟨.direct, [], 0, [], [], 0x40000000#32, 0x40000000#32, none, 0⟩, by decide⟩,
    ⟨calib 1 none, ⟨.direct, [], 0, [], [], 0x40000000#32, 0x40000000#32, none, 0⟩, by dsimp only; decide⟩,
    ⟨calib 2 none, ⟨.direct, [], 0, [], [], 0x40000000#32, 0x40000000#32, none, 0⟩, [], [], 0, by dsimp only; decide⟩,
    ⟨calib 2 none, ⟨.direct, [], 0, [], [], 0x40000000#32, 0x40000000#32, none, 0⟩, (List.range 113).map (fun k => calRef k bench), (List.range 113).map (fun k => calRef k bench), by dsimp only; decide⟩,
    ⟨onCal ({ · with op := some ⟨.run, 0x800, [1#8, 2#8], [], none⟩ }) (calib 4 none), ⟨.run, 0x800, [1#8, 2#8], [], none⟩, ⟨.direct, [], 0, [], [], 0x40000000#32, 0x40000000#32, none, 0⟩, by dsimp only; decide⟩,
    ⟨calib 4 (some true), ⟨.direct, [], 0, [], [], 0x40000000#32, 0x40000000#32, some true, 0⟩, true, by decide⟩,
    ⟨{ calib 2 none with now := 0 }, ⟨.direct, [], 0, [], [], 0x40000000#32, 0x40000000#32, none, 0⟩, by decide⟩⟩

theorem hyps_NvmCommands :
    (∃ s : State, 
     let free := coreUp s = true ∧ s.sys.ctlBusy = false ∧ bit Reg.BST_CTLSTAT_ROMBAD s = false
     let calm := s.cal.op = none ∧ s.cal.queue = [] ∧ s.cal.epochPend = none
     let may := free ∧ calm ∧ lifecycle s ≠ 3 ∧ calOccupied s = false
     may ∧ ((lifecycle s = 1 ∨ lifecycle s = 2)) ∧ getF Reg.CAL_STAT_SRC s = 1) ∧
    (∃ s : State, ∃ tk : Ticket, 
     let free := coreUp s = true ∧ s.sys.ctlBusy = false ∧ bit Reg.BST_CTLSTAT_ROMBAD s = false
     let calm := s.cal.op = none ∧ s.cal.queue = [] ∧ s.cal.epochPend = none
     let may := free ∧ calm ∧ lifecycle s ≠ 3 ∧ calOccupied s = false
     tk = .direct ∧ may ∧ ((lifecycle s = 1 ∨ lifecycle s = 2)) ∧ getF Reg.CAL_STAT_SRC s = 0) ∧
    (∃ s : State, 
     let free := coreUp s = true ∧ s.sys.ctlBusy = false ∧ bit Reg.BST_CTLSTAT_ROMBAD s = false
     let calm := s.cal.op = none ∧ s.cal.queue = [] ∧ s.cal.epochPend = none
     let may := free ∧ calm ∧ lifecycle s ≠ 3 ∧ calOccupied s = false
     may) ∧
    (∃ s : State, 
     let free := coreUp s = true ∧ s.sys.ctlBusy = false ∧ bit Reg.BST_CTLSTAT_ROMBAD s = false
     let calm := s.cal.op = none ∧ s.cal.queue = [] ∧ s.cal.epochPend = none
     let may := free ∧ calm ∧ lifecycle s ≠ 3 ∧ calOccupied s = false
     may) ∧
    (∃ s : State, 
     let free := coreUp s = true ∧ s.sys.ctlBusy = false ∧ bit Reg.BST_CTLSTAT_ROMBAD s = false
     let calm := s.cal.op = none ∧ s.cal.queue = [] ∧ s.cal.epochPend = none
     let may := free ∧ calm ∧ lifecycle s ≠ 3 ∧ calOccupied s = false
     may) ∧
    (∃ s : State, 
     let free := coreUp s = true ∧ s.sys.ctlBusy = false ∧ bit Reg.BST_CTLSTAT_ROMBAD s = false
     let calm := s.cal.op = none ∧ s.cal.queue = [] ∧ s.cal.epochPend = none
     free ∧ calm ∧ lifecycle s ≠ 2) ∧
    (∃ s : State, ∃ tk : Ticket, tk = .direct ∧ coreUp s = true ∧ lifecycle s = 2) ∧
    (∃ s : State, ∃ e, controllerServes s = true ∧ s.cal.op = none ∧ s.cal.epochPend = some e) ∧
    (∃ s : State, ∃ e, controllerServes s = false ∧ s.cal.epochPend = some e) ∧
    (∃ s : State, 
     let calm := s.cal.op = none ∧ s.cal.queue = [] ∧ s.cal.epochPend = none
     calm ∧ controllerServes s = true ∧ s.sys.phase = .active ∧ bit Reg.CAL_STAT_ABAD s = true ∧ reg s Reg.CAL_GENB ≠ 0xFFFFFFFF#32) ∧
    (∃ s : State, ∃ e : LogEntry, ∃ l : List LogEntry, 
     let free := coreUp s = true ∧ s.sys.ctlBusy = false ∧ bit Reg.BST_CTLSTAT_ROMBAD s = false
     let calm := s.cal.op = none ∧ s.cal.queue = [] ∧ s.cal.epochPend = none
     free ∧ calm ∧ s.sys.nvmChecked = true ∧ s.thm.logQ = e :: l) ∧
    (∃ s : State, ∃ o : NvmOp, s.cal.op = some o ∧ o.job.isSave = true ∧ o.job ≠ .harness ∧ o.ticket = some .direct ∧ s.cal.queue = []) ∧
    (∃ s : State, ∃ o : NvmOp, s.cal.op = some o ∧ o.job.isSave = true ∧ o.ticket = some .direct ∧ s.cal.queue = []) ∧
    (∃ s : State, 
     let free := coreUp s = true ∧ s.sys.ctlBusy = false ∧ bit Reg.BST_CTLSTAT_ROMBAD s = false
     free ∧ lifecycle s ≠ 3) ∧
    (∃ s : State, 
     let free := coreUp s = true ∧ s.sys.ctlBusy = false ∧ bit Reg.BST_CTLSTAT_ROMBAD s = false
     let calm := s.cal.op = none ∧ s.cal.queue = [] ∧ s.cal.epochPend = none
     let may := free ∧ calm ∧ lifecycle s ≠ 3 ∧ calOccupied s = false
     may ∧ s.bst.run = none) :=
    ⟨⟨setF Reg.CAL_STAT_SRC 1 bench, by dsimp only; decide⟩,
    ⟨bench, .direct, by dsimp only; decide⟩,
    ⟨bench, by dsimp only; decide⟩,
    ⟨bench, by dsimp only; decide⟩,
    ⟨bench, by dsimp only; decide⟩,
    ⟨bench, by dsimp only; decide⟩,
    ⟨setF Reg.BST_LCSTAT_STATE 2 up, .direct, by decide⟩,
    ⟨onCal ({ · with epochPend := some 9 }) up, 9, by decide⟩,
    ⟨onCal ({ · with epochPend := some 9 }) (onSys ({ · with ctlBusy := true }) up), 9, by decide⟩,
    ⟨setReg Reg.CAL_GENB 5#32 up |> setB Reg.CAL_STAT_ABAD true, by dsimp only; decide⟩,
    ⟨onSys ({ · with nvmChecked := true }) (onThm ({ · with logQ := [⟨5, true, 1, 0, 1260⟩] }) up), ⟨5, true, 1, 0, 1260⟩, [], by dsimp only; decide⟩,
    ⟨writing (.select 3) 0xC00, ⟨.select 3, 0xC00, [1#8, 2#8, 3#8, 4#8], [], some .direct⟩, by decide⟩,
    ⟨writing (.select 3) 0xC00, ⟨.select 3, 0xC00, [1#8, 2#8, 3#8, 4#8], [], some .direct⟩, by decide⟩,
    ⟨bench, by dsimp only; decide⟩,
    ⟨bench, by dsimp only; decide⟩⟩

theorem hyps_CrcUnit :
    (∃ s : State, 
     let w := getF Reg.CRC_CFG_WIDTH s
     let wide := coreUp s = true ∧ 8 ≤ w ∧ w ≤ 32
     wide) ∧
    (∃ s : State, 
     let w := getF Reg.CRC_CFG_WIDTH s
     let wide := coreUp s = true ∧ 8 ≤ w ∧ w ≤ 32
     wide) ∧
    (∃ s : State, ∃ a : Fin 1048576, 
     let w := getF Reg.CRC_CFG_WIDTH s
     let wide := coreUp s = true ∧ 8 ≤ w ∧ w ≤ 32
     wide ∧ ((a.val = Reg.CRC_POLY ∨ a.val = Reg.CRC_VAL ∨ a.val = Reg.CRC_XOROUT))) ∧
    (∃ s : State, ∃ a : Fin 1048576, 
     let w := getF Reg.CRC_CFG_WIDTH s
     let wide := coreUp s = true ∧ 8 ≤ w ∧ w ≤ 32
     wide ∧ ((a.val = Reg.CRC_POLY ∨ a.val = Reg.CRC_VAL ∨ a.val = Reg.CRC_XOROUT))) :=
    ⟨⟨up, by dsimp only; decide⟩,
    ⟨up, by dsimp only; decide⟩,
    ⟨up, 0x7808, by dsimp only; decide⟩,
    ⟨up, 0x7808, by dsimp only; decide⟩⟩

theorem hyps_LifecycleChange :
    (∃ s : State, ∃ target : Fin 4, ∃ tk : Ticket, 
     let listed := fun (a b : Nat) => (a, b) ∈ [(0, 1), (1, 2), (2, 1), (1, 3), (2, 3)]
     tk = .direct ∧ coreUp s = true ∧ ¬ listed (lifecycle s) target) ∧
    (∃ s : State, ∃ target : Fin 4, ∃ tk : Ticket, tk = .direct ∧ coreUp s = true ∧ lifecycle s = 2 ∧ target = 1 ∧ s.bst.fuseK = 16) ∧
    (∃ s : State, ∃ target : Fin 4, ∃ tk : Ticket, 
     let free := coreUp s = true ∧ s.sys.ctlBusy = false ∧ bit Reg.BST_CTLSTAT_ROMBAD s = false ∧ calOccupied s = false ∧ s.bst.run = none ∧ s.bst.lc = none
     tk = .direct ∧ free ∧ lifecycle s = 0 ∧ target = 1 ∧ bit Reg.CAL_STAT_TRIMBAD s = true) ∧
    (∃ s : State, ∃ target : Fin 4, ∃ force : Bool, ∃ tk : Ticket, 
     let free := coreUp s = true ∧ s.sys.ctlBusy = false ∧ bit Reg.BST_CTLSTAT_ROMBAD s = false ∧ calOccupied s = false ∧ s.bst.run = none ∧ s.bst.lc = none
     tk = .direct ∧ free ∧ lifecycle s = 1 ∧ target = 2 ∧ getF Reg.CAL_STAT_SRC s = 0 ∧ force = false) ∧
    (∃ s : State, ∃ target : Fin 4, ∃ force : Bool, 
     let listed := fun (a b : Nat) => (a, b) ∈ [(0, 1), (1, 2), (2, 1), (1, 3), (2, 3)]
     let free := coreUp s = true ∧ s.sys.ctlBusy = false ∧ bit Reg.BST_CTLSTAT_ROMBAD s = false ∧ calOccupied s = false ∧ s.bst.run = none ∧ s.bst.lc = none
     free ∧ listed (lifecycle s) target ∧ ((lifecycle s = 2 ∧ target = 1 → s.bst.fuseK ≠ 16)) ∧ ((lifecycle s = 0 → bit Reg.CAL_STAT_TRIMBAD s = false)) ∧ ((lifecycle s = 1 ∧ target = 2 → getF Reg.CAL_STAT_SRC s ≠ 0 ∨ force = true))) ∧
    (∃ s : State, ∃ a : Bool, ∃ b : Bool, ∃ target : Fin 3, s.bst.lc = some (target.val, .direct) ∧ (a || b) = true ∧ s.bst.fuseRet = false ∧ s.bst.fuseK < 16) ∧
    (∃ s : State, ∃ a : Bool, ∃ b : Bool, s.bst.lc = some (3, .direct) ∧ (a || b) = true) ∧
    (∃ s : State, ∃ target : Fin 4, s.bst.lc = some (target.val, .direct)) :=
    ⟨⟨up, 2, .direct, by dsimp only; decide⟩,
    ⟨onBst ({ · with fuseK := 16 }) (setF Reg.BST_LCSTAT_STATE 2 up), 1, .direct, by decide⟩,
    ⟨setB Reg.CAL_STAT_TRIMBAD true up, 1, .direct, by dsimp only; decide⟩,
    ⟨setF Reg.BST_LCSTAT_STATE 1 up, 2, false, .direct, by dsimp only; decide⟩,
    ⟨setF Reg.BST_LCSTAT_STATE 2 up, 1, false, by dsimp only; decide⟩,
    ⟨onBst ({ · with lc := some (1, .direct) }) up, true, false, 1, by decide⟩,
    ⟨onBst ({ · with lc := some (3, .direct) }) up, true, true, by decide⟩,
    ⟨onBst ({ · with lc := some (1, .direct) }) up, 1, by decide⟩⟩

theorem hyps_SelfTestItems :
    (∃ s : State, ∃ mem : Fin 256, ∃ log : Fin 64, 
     let ready := s.sys.phase = .active ∧ s.sys.ctlBusy = false ∧ bit Reg.BST_CTLSTAT_ROMBAD s = false ∧ calOccupied s = false ∧ s.bst.run = none
     ready ∧ ¬ (log.val.testBit 5 = true ∧ lifecycle s = 2) ∧ ((∀ i ∈ (itemsOf mem log).tail, itemFenced i s = false)) ∧ ¬ (log.val.testBit 3 = true ∧ planActive s = true) ∧ ¬ (log.val.testBit 4 = true ∧ hasRole s = true) ∧ ¬ (mem.val = 0 ∧ log.val = 0)) ∧
    (∃ s : State, ∃ m : Fin 9, ∃ r : BstRun, 
     let ended := fun (r : BstRun) (i n : Nat) => r.start + (if r.compat then 5 else if i < 16 then 10 else 300) * n ≤ s.now
     s.bst.run = some r ∧ r.cur = some m.val ∧ r.segs + 1 < segmentsOf m ∧ ended r m ((r.segs + 1) * segmentOps m r.ss)) ∧
    (∃ s : State, ∃ m : Fin 9, ∃ r : BstRun, 
     let ended := fun (r : BstRun) (i n : Nat) => r.start + (if r.compat then 5 else if i < 16 then 10 else 300) * n ≤ s.now
     s.bst.run = some r ∧ r.cur = some m.val ∧ r.segs + 1 = segmentsOf m ∧ ended r m ((r.segs + 1) * segmentOps m r.ss)) ∧
    (∃ s : State, ∃ p : Fin 5, ∃ r : BstRun, 
     let ended := fun (r : BstRun) (i n : Nat) => r.start + (if r.compat then 5 else if i < 16 then 10 else 300) * n ≤ s.now
     s.bst.run = some r ∧ r.cur = some (16 + p.val) ∧ ended r (16 + p) (patternsOf p)) ∧
    (∃ s : State, ∃ r : BstRun, 
     let ended := fun (r : BstRun) (i n : Nat) => r.start + (if r.compat then 5 else if i < 16 then 10 else 300) * n ≤ s.now
     s.bst.run = some r ∧ r.cur = some 21 ∧ ended r 21 65536) ∧
    (∃ s : State, ∃ mem : Fin 256, ∃ log : Fin 64, coreUp s = true ∧ ((∀ i ∈ (itemsOf mem log).tail, itemFenced i s = false)) ∧ s.sys.phase ≠ .active ∧ ¬ (log.val.testBit 5 = true ∧ lifecycle s = 2) ∧ s.sys.ctlBusy = false ∧ bit Reg.BST_CTLSTAT_ROMBAD s = false) ∧
    (∃ s : State, ∃ mem : Fin 256, ∃ log : Fin 64, coreUp s = true ∧ ¬ (log.val.testBit 5 = true ∧ lifecycle s = 2) ∧ ((∃ i ∈ (itemsOf mem log).tail, itemFenced i s = true))) ∧
    (∃ s : State, ∃ mem : Fin 256, ∃ log : Fin 64, 
     let ready := s.sys.phase = .active ∧ s.sys.ctlBusy = false ∧ bit Reg.BST_CTLSTAT_ROMBAD s = false ∧ calOccupied s = false ∧ s.bst.run = none
     ready ∧ ¬ (log.val.testBit 5 = true ∧ lifecycle s = 2) ∧ ((∀ i ∈ (itemsOf mem log).tail, itemFenced i s = false)) ∧ ((log.val.testBit 3 = true ∧ planActive s = true) ∨ (log.val.testBit 4 = true ∧ hasRole s = true))) ∧
    (∃ s : State, ∃ mem : Fin 256, ∃ log : Fin 64, ∃ r : BstRun, s.sys.phase = .active ∧ s.sys.ctlBusy = false ∧ bit Reg.BST_CTLSTAT_ROMBAD s = false ∧ s.bst.run = some r ∧ r.compat = false ∧ 21 ∉ r.todo ∧ ((∀ i ∈ (itemsOf mem log).tail, itemFenced i s = false)) ∧ ¬ (log.val.testBit 5 = true ∧ lifecycle s = 2)) ∧
    (∃ s : State, ∃ mem : Fin 256, ∃ log : Fin 64, 
     let ready := s.sys.phase = .active ∧ s.sys.ctlBusy = false ∧ bit Reg.BST_CTLSTAT_ROMBAD s = false ∧ calOccupied s = false ∧ s.bst.run = none
     mem.val = 0 ∧ log.val = 0 ∧ ready) ∧
    (∃ s : State, ∃ log : Fin 64, coreUp s = true ∧ log.val.testBit 5 = true ∧ lifecycle s = 2) ∧
    (∃ s : State, s.ft % (10 * ms) < 6 ∧ s.bst.run.map BstRun.compat = some true) ∧
    (∃ s : State, ((6 ≤ s.ft % (10 * ms) ∨ s.bst.run.all (fun r => !r.compat) = true))) ∧
    (∃ s : State, ∃ r : BstRun, s.bst.run = some r ∧ r.cur = none ∧ r.todo = []) ∧
    (∃ s : State, ∃ m : Fin 9, ∃ r : BstRun, coreUp s = true ∧ s.bst.run = some r ∧ r.cur = some m.val ∧ r.fsegs = 0 ∧ r.fword = none ∧ r.segs < segmentsOf m ∧ ((∀ i ∈ r.todo, i ∈ [16, 17, 18, 19, 20, 21] ∨ (m.val < i ∧ i < 8) ∨ (m.val = 8 ∧ i < 8)))) ∧
    (∃ s : State, 
     let ready := s.sys.phase = .active ∧ s.sys.ctlBusy = false ∧ bit Reg.BST_CTLSTAT_ROMBAD s = false ∧ calOccupied s = false ∧ s.bst.run = none
     getF Reg.BST_CFG_AUTOPER s ≠ 0 ∧ s.bst.runAt + getF Reg.BST_CFG_AUTOPER s * 600000 * ms ≤ s.now ∧ (s.now - s.bst.runAt) % (getF Reg.BST_CFG_AUTOPER s * 600000 * ms) < 5 ∧ ready ∧ ((∀ i ∈ [0, 1, 2, 3, 4, 5, 6, 7, 16, 17, 18], itemFenced i s = false))) ∧
    (∃ s : State, ((getF Reg.BST_CFG_AUTOPER s = 0 ∨ s.now < s.bst.runAt + getF Reg.BST_CFG_AUTOPER s * 600000 * ms ∨ s.sys.phase ≠ .active ∨ s.bst.run ≠ none))) ∧
    (∃ s : State, ∃ r : BstRun, s.bst.run = some r ∧ r.cur = none ∧ r.todo = [21] ∧ r.leaving = false ∧ ((cnvState s = 3 ∨ cnvState s = 4))) ∧
    (∃ s : State, ∃ r : BstRun, s.bst.run = some r ∧ r.cur = none ∧ r.todo = [21] ∧ r.leaving = true ∧ switching s = false) :=
    ⟨⟨up, 0x51, 3, by dsimp only; decide⟩,
    ⟨onBst ({ · with run := some (memRun 0 3 none) }) { up with now := 20 * ms }, 0, memRun 0 3 none, by dsimp only; decide⟩,
    ⟨onBst ({ · with run := some (memRun 0 127 none) }) { up with now := 20 * ms }, 0, memRun 0 127 none, by dsimp only; decide⟩,
    ⟨onBst ({ · with run := some (memRun 17 0 none) }) { up with now := 20 * ms }, 1, memRun 17 0 none, by dsimp only; decide⟩,
    ⟨onBst ({ · with run := some (memRun 21 0 none) }) { up with now := 20 * ms }, memRun 21 0 none, by dsimp only; decide⟩,
    ⟨onSys ({ · with phase := .standby }) up, 0x51, 3, by decide⟩,
    ⟨setB Reg.FLT_FENCE0_CTL true up, 0x40, 0, by decide⟩,
    ⟨gate, 0, 0x10, by dsimp only; decide⟩,
    ⟨onBst ({ · with run := some (memRun 0 3 none) }) up, 0x51, 3, memRun 0 3 none, by decide⟩,
    ⟨up, 0, 0, by dsimp only; decide⟩,
    ⟨setF Reg.BST_LCSTAT_STATE 2 up, 0x20, by decide⟩,
    ⟨onBst ({ · with run := some { memRun 8 0 none with compat := true } }) up, by decide⟩,
    ⟨up, by decide⟩,
    ⟨onBst ({ · with run := some idleRun }) up, idleRun, by decide⟩,
    ⟨onBst ({ · with run := some (memRun 4 226 none) }) up, 4, memRun 4 226 none, by decide⟩,
    ⟨setF Reg.BST_CFG_AUTOPER 1 { up with now := 600000000000 }, by dsimp only; decide⟩,
    ⟨up, by decide⟩,
    ⟨setF Reg.CNV_STAT_STATE 4 (onBst ({ · with run := some { idleRun with todo := [21] } }) up), { idleRun with todo := [21] }, by decide⟩,
    ⟨onBst ({ · with run := some { idleRun with todo := [21], leaving := true } }) up, { idleRun with todo := [21], leaving := true }, by decide⟩⟩

theorem hyps_RegisterAccess :
    (∃ s : State, ∃ r : Requester, ∃ a : Fin 1048576, 
     let may := fun (r : Requester) => coreUp s = true ∧ r ≠ .host
     may r ∧ a.val % 4 ≠ 0) ∧
    (∃ s : State, ∃ r : Requester, ∃ a : Fin 1048576, ∃ l : List Word, 
     let may := fun (r : Requester) => coreUp s = true ∧ r ≠ .host
     may r ∧ 0x7FC ≤ a.val ∧ a.val < 0x1000 ∧ 2 ≤ l.length) ∧
    (∃ s : State, ∃ r : Requester, ∃ a : Fin 1048576, ∃ n : Fin 257, 
     let may := fun (r : Requester) => coreUp s = true ∧ r ≠ .host
     may r ∧ 0x87FC ≤ a.val ∧ a.val < 0x10000 ∧ 2 ≤ n.val) ∧
    (∃ s : State, ∃ r : Requester, ∃ a : Fin 1048576, ∃ l : List Word, 
     let may := fun (r : Requester) => coreUp s = true ∧ r ≠ .host
     may r ∧ 1 ≤ l.length ∧ ((addrClass a = .hole ∨ (addrClass a = .window ∧ a.val < 0x40000)))) ∧
    (∃ s : State, ∃ r : Requester, ∃ a : Fin 1048576, 
     let may := fun (r : Requester) => coreUp s = true ∧ r ≠ .host
     may r ∧ a.val % 4 = 0 ∧ addrClass a = .hole) ∧
    (∃ s : State, ∃ r : Requester, ∃ a : Fin 1048576, 
     let may := fun (r : Requester) => coreUp s = true ∧ r ≠ .host
     may r ∧ a.val ∈ [Reg.TBS_SETL, Reg.TBS_REINTL, Reg.IMP_T0L]) ∧
    (∃ s : State, ∃ r : Requester, ∃ a : Fin 1048576, 
     let may := fun (r : Requester) => coreUp s = true ∧ r ≠ .host
     may r ∧ a.val ∈ [Reg.TBS_TIMEL, Reg.TBS_OFFS, Reg.TBS_PDLY, Reg.FAB_UID0, Reg.IMP_SNAP]) ∧
    (∃ s : State, ∃ r : Requester, ∃ v : Word, 
     let may := fun (r : Requester) => coreUp s = true ∧ r ≠ .host
     may r ∧ v < 512#32) ∧
    (∃ s : State, ∃ r : Requester, ∃ a : Fin 1048576, 
     let may := fun (r : Requester) => coreUp s = true ∧ r ≠ .host
     may r ∧ a.val ∈ [Reg.SYS_LOCK, Reg.SYS_PWRCMD, Reg.CNV_CMD, Reg.CAL_CMD, Reg.BST_CMD]) ∧
    (∃ s : State, ∃ r : Requester, 
     let may := fun (r : Requester) => coreUp s = true ∧ r ≠ .host
     may r) ∧
    (∃ s : State, (coreUp s = false ∨ barReachable s = false)) ∧
    (∃ s : State, ∃ a : Fin 1048576, coreUp s = true ∧ barReachable s = true ∧ a.val % 4 = 0 ∧ addrClass a = .reserved) ∧
    (∃ s : State, ∃ r : Requester, ∃ v : Word, 
     let may := fun (r : Requester) => coreUp s = true ∧ r ≠ .host
     may r ∧ 4 ≤ getBits v 0 3) ∧
    (∃ s : State, ∃ r : Requester, 
     let may := fun (r : Requester) => coreUp s = true ∧ r ≠ .host
     may r) ∧
    (∃ s : State, ∃ r : Requester, ∃ a : Fin 1048576, 
     let may := fun (r : Requester) => coreUp s = true ∧ r ≠ .host
     may r ∧ 0x3030 ≤ a.val ∧ a.val ≤ 0x303C ∧ a.val % 4 = 0 ∧ bit Reg.SYS_LOCKSTAT_LTGT s = true) ∧
    (∃ s : State, ∃ r : Requester, ∃ a : Fin 1048576, 
     let may := fun (r : Requester) => coreUp s = true ∧ r ≠ .host
     may r ∧ 0x6100 ≤ a.val ∧ a.val ≤ 0x62FC ∧ a.val % 4 = 0 ∧ bit Reg.SYS_LOCKSTAT_LFLT s = true) ∧
    (∃ s : State, coreUp s = true) ∧
    (∃ s : State, ∃ r : Requester, ∃ t0 : Nat, coreUp s = true ∧ s.sys.lockArm = some (r, t0) ∧ s.now ≤ t0 + 990000) ∧
    (∃ s : State, ∃ r : Requester, ∃ r' : Requester, ∃ t0 : Nat, coreUp s = true ∧ s.sys.lockArm = some (r', t0) ∧ r' ≠ r) ∧
    (∃ s : State, ∃ r : Requester, ∃ r' : Requester, ∃ t0 : Nat, coreUp s = true ∧ s.sys.lockArm = some (r', t0) ∧ t0 + 1010000 < s.now) ∧
    (∃ s : State, ∃ r : Requester, ∃ t0 : Nat, s.sys.lockArm = some (r, t0) ∧ t0 + 990000 < s.now) :=
    ⟨⟨up, .hk, 0x5802, by dsimp only; decide⟩,
    ⟨up, .hk, 0x0800, [1#32, 2#32], by dsimp only; decide⟩,
    ⟨up, .hk, 0x88FC, 2, by dsimp only; decide⟩,
    ⟨up, .hk, 0x17FC, [1#32], by dsimp only; decide⟩,
    ⟨up, .hk, 0x17FC, by dsimp only; decide⟩,
    ⟨up, .hk, 0x5810, by dsimp only; decide⟩,
    ⟨up, .hk, 0x5820, by dsimp only; decide⟩,
    ⟨up, .hk, 3#32, by dsimp only; decide⟩,
    ⟨up, .hk, 0x0040, by dsimp only; decide⟩,
    ⟨setF Reg.CMS_OVRCNT_OVR 5 up, .hk, by dsimp only; decide⟩,
    ⟨up, by decide⟩,
    ⟨onSys ({ · with perstLow := false }) (onHst (fun h => { h with pcie := { h.pcie with memEn := true } }) up), 0x800, by decide⟩,
    ⟨up, .hk, 5#32, by dsimp only; decide⟩,
    ⟨up, .hk, by dsimp only; decide⟩,
    ⟨setB Reg.SYS_LOCKSTAT_LTGT true up, .hk, 0x3038, by dsimp only; decide⟩,
    ⟨setB Reg.SYS_LOCKSTAT_LFLT true up, .hk, 0x6124, by dsimp only; decide⟩,
    ⟨up, by decide⟩,
    ⟨onSys ({ · with lockArm := some (.host, 0) }) { up with now := 990000 }, .host, 0, by decide⟩,
    ⟨onSys ({ · with lockArm := some (.host, 0) }) up, .hk, .host, 0, by decide⟩,
    ⟨onSys ({ · with lockArm := some (.host, 0) }) { up with now := 1010001 }, .host, .host, 0, by decide⟩,
    ⟨onSys ({ · with lockArm := some (.host, 0) }) { up with now := 990001 }, .host, 0, by decide⟩⟩

theorem hyps_StepTakesFront :
    (∃ s : State, s.pending = [] ∧ coreUp s = false) ∧
    (∃ s : State, s.pending = [] ∧ coreUp s = true) ∧
    (∃ s : State, s.pending = [] ∧ coreUp s = true ∧ timeRate s = 0 ∧ s.tbs.frac < 1000000000) :=
    ⟨⟨State.reset, by decide⟩,
    ⟨up, by decide⟩,
    ⟨up, by decide⟩⟩

theorem hyps_StepInvariant :
    (∃ s : State, ∃ t : State, step s = .next t) :=
    ⟨up, tick up, rfl⟩

theorem hyps_TagShadow :
    ∃ (req : Requester) (a b : Nat) (s : State), coreUp s = true ∧ isRecordAddr a = true ∧ isRecordAddr b = true ∧ b ≠ a ∧
      ∃ u : State, coreUp u = true ∧ u.cms.shadows = (after (.recordValueRead req a) s).cms.shadows ∧
        u.cms.hkShadow = (after (.recordValueRead req a) s).cms.hkShadow :=
  ⟨.host, 0x1100, 0x10000, up, by decide, by decide, by decide, by decide, after (.recordValueRead .host 0x1100) up, by decide, rfl, rfl⟩

theorem hyps_ProfileNeverPasses : ∃ (p : Profile) (xt sw aw : Int), 0 ≤ sw ∧ 0 ≤ aw ∧ p.x ≠ xt :=
  ⟨⟨0, 0, 0, 0, 0⟩, 5, 0, 0, by decide, by decide, by decide⟩

theorem hyps_FramesReadBack : ∃ (f : Frame) (l : LinkFields), f.hop < 32 ∧ f.src < 1024 ∧ f.dst < 1024 ∧ f.epoch < 256 ∧ f.tag < 256 ∧
    f.payload.length ≤ 256 ∧ l.seq < 64 ∧ l.akb < 64 ∧ l.aka < 64 :=
  ⟨⟨.read, .c, .routeWord, 0#32, 31, 1023, 1023, 255, 255, [1#32]⟩, ⟨63, false, 63, true, false, 63, true, false⟩, by decide⟩

end Sys2Proof.Tests
end

