-- ==== Sys2Proof/Proofs/ScopeRefutations.lean ====
section
/-!
PROOFS. What refutes statements of the family 00_scope: for each a concrete state and command, and what the model answers there.
-/
namespace Sys2Proof.Machine

/-! ## What a command leaves, read off its outcome -/

/-- A view of the next state of an outcome; none where the command stops. -/
def nextView {β : Type} (f : State → β) : Out → Option β
  | .next t => some (f t)
  | _ => none

theorem nextView_exec {β : Type} {c : Instr} {s t : State} (f : State → β) (h : exec c s = .next t) : nextView f (exec c s) = some (f t) := by
  rw [h]; rfl

/-- The device in ACTIVE, with some registers away from their reset values. -/
def activeWith (regs : List (Nat × Word)) : State :=
  { State.reset with regs := regs, sys := { SysState.reset with phase := .active } }

/-! ## STOP with an armed plan -/

/-- The converter in RUN while a plan is ARMED: it waits for its start time, and no tone is on. -/
def runningArmed : State := activeWith [(Reg.IMP_STAT, 1#32), (Reg.CNV_STAT, 4#32)]

/-- R198, R211: the stop ends the plan, and source 64 reports it. -/
theorem cnvStop_runningArmed_waiting : nextView (fun t => t.flt.waiting) (exec .cnvStop runningArmed) = some [64] := by decide

/-- Refutes O21: a STOP in RUN ends an armed impedance plan at once, which raises source 64 (R198, R211); the statement lets the fault collector's
state change only for a stop from WAITBUS, CHECK or HICCUP. -/
theorem not_converterCommands : ¬ Obligations.ConverterCommands := by
  unfold Obligations.ConverterCommands
  intro h
  obtain ⟨-, -, -, -, -, -, -, -, hstop, -⟩ := h runningArmed
  obtain ⟨t, ht, -, -, -, -, -, -, -, hsame, -⟩ := hstop (by decide) (by decide) (by decide)
  have hflt : t.flt = runningArmed.flt := hsame .flt (by decide)
  have hw := cnvStop_runningArmed_waiting
  rw [nextView_exec _ ht, hflt] at hw
  exact absurd hw (by decide)

/-! ## Enumeration of a node without a link -/

/-- A gateway with no port UP, whose route table holds node 5 from an earlier run. -/
def lonelyGateway : State :=
  { activeWith [(Reg.HST_STAT, 0x10#32)] with fab := { FabState.reset with table := [(5, { RouteEntry.empty with state := 1 })] } }

set_option maxRecDepth 20000 in
/-- R402, step 4: the run writes its own table, in which no other node stands. -/
theorem enumFull_lonelyGateway_table : nextView (fun t => t.fab.table.length) (exec (.enumFull .direct) lonelyGateway) = some 0 := by decide

/-- Refutes O39: with no port UP a full run has nothing to probe and comes at once to step 4 of R402, which empties the entries that an earlier run
left; the statement has the table unchanged when the command has started. -/
theorem not_enumeration : ¬ Obligations.Enumeration := by
  unfold Obligations.Enumeration
  intro h
  obtain ⟨hfull, -⟩ := h lonelyGateway
  obtain ⟨t, ht, ⟨-, -, -, -, htable, -⟩, -⟩ := hfull .direct (by decide)
  have hl := enumFull_lonelyGateway_table
  rw [nextView_exec _ ht, htable] at hl
  exact absurd hl (by decide)

/-! ## The host timeout with a power command pending -/

/-- A gateway of generation 2 whose host has been silent for HTO, with STANDBY recorded for the end of the role and a calibration run asked for. -/
def silentHost : State :=
  { activeWith [(Reg.HST_STAT, 0x12#32)] |> setB Reg.SYS_PWRSTAT_PEND true |> setF Reg.SYS_PWRSTAT_PENDTGT 2 with
    now := 500 * ms
    cal := { CalState.reset with run := some ⟨.direct, [], 0, [], [], 0x40000000#32, 0x40000000#32, none, 0⟩ } }

set_option maxRecDepth 20000 in
/-- R18, R64, R536: the role ends, the transition begins, and the run ends with it. -/
theorem gen2HostTimeout_silentHost_run : nextView (fun t => t.cal.run.isSome) (exec .gen2HostTimeout silentHost) = some false := by decide

/-- Refutes O40: the end of the role enters the recorded power state, and a transition to it ends a calibration run first; the statement has the
calibration state unchanged. -/
theorem not_framedSpi : ¬ Obligations.FramedSpi := by
  unfold Obligations.FramedSpi
  intro h
  obtain ⟨-, -, -, -, -, -, -, -, -, -, -, -, -, -, -, htimeout, -⟩ := h silentHost
  obtain ⟨t, ht, -, -, -, -, -, -, -, hcal, -⟩ := htimeout (by decide) (by decide) (by decide)
  have hr := gen2HostTimeout_silentHost_run
  rw [nextView_exec _ ht, hcal] at hr
  exact absurd hr (by decide)

/-! ## A broadcast of the longest data -/

/-- A broadcast WRITE of 256 words, its data with the CMD frame. -/
def longBroadcast : HostCmd := ⟨0, [0x00020000#32, 0x0000C000#32, 0#32, 0#32, 256#32] ++ List.replicate 11 0#32, List.replicate 256 0#32, false, 0⟩

/-- A gateway of generation 2 with port 3 UP, where that command waits. -/
def longWriter : State :=
  { activeWith [(Reg.HST_STAT, 0x12#32)] |> setF (Reg.LNK_PSTAT_STATE 3) 3 with hst := { HstState.reset with spi := 2, cmds := [longBroadcast] } }

/-- The lengths of the payloads that wait in class C at port 3. -/
def queuedPayloads (t : State) : List Nat := (port (3 : Fin 4) t).qc.map (fun e => e.2.payload.length)

set_option maxRecDepth 20000 in
/-- R354: a frame of class C carries at most 256 words. -/
theorem write_longWriter_queued : nextView queuedPayloads (exec (.write []) longWriter) = some [256] := by decide

set_option maxRecDepth 20000 in
/-- Refutes O45: a WRITE of more than 252 words fills more than the 1024 bytes of payload of R354, so the frame that waits at the port carries the
first 256 words of what the statement names. -/
theorem not_hostCommands : ¬ Obligations.HostCommands := by
  unfold Obligations.HostCommands
  intro h
  obtain ⟨-, -, -, -, -, -, -, -, hflood, -⟩ := h longWriter
  obtain ⟨t, ht, -, -, -, hqueue, -⟩ := hflood longBroadcast [] (by decide) (by decide) (by decide) (by decide) (by decide)
  have hq := write_longWriter_queued
  rw [nextView_exec _ ht, queuedPayloads, hqueue 3] at hq
  exact absurd hq (by decide)

/-! ## IMP_T0 while a plan is in progress -/

/-- R197: the plan of an armed start protects its start time. -/
theorem registerWrite_t0_armed :
    nextView (fun t => t.resp.map Resp.status) (exec (.registerWrite .hk ⟨Reg.IMP_T0L, by decide⟩ [0#32, 0#32] []) (activeWith [(Reg.IMP_STAT, 1#32)])) =
      some (some .refusedBusy) := by decide

/-- Refutes O57: while a plan is in progress R197 protects IMP_T0, and a write of the pair is refused; the statement has it taken in every state. -/
theorem not_registerAccess : ¬ Obligations.RegisterAccess := by
  unfold Obligations.RegisterAccess
  intro h
  obtain ⟨-, -, -, -, -, hpair, -⟩ := h (activeWith [(Reg.IMP_STAT, 1#32)])
  obtain ⟨t, ht, hok, -⟩ := hpair .hk ⟨Reg.IMP_T0L, by decide⟩ 0#32 0#32 (by decide) (by decide)
  have hs := registerWrite_t0_armed
  rw [nextView_exec _ ht, hok] at hs
  exact absurd hs (by decide)

end Sys2Proof.Machine
end

