-- ==== Sys2Proof/Proofs/CollectorBooks.lean ====
section
/-!
PROOFS. What every operation behind a reaction, a rein or a host answer leaves alone in the fault collector: its counts, the reactions taken, the
source registers, the injection, and the queue. One lemma for each function of the model, in the order in which they call each other.
-/
namespace Sys2Proof.Machine

/-! ## The books of the fault collector -/

/-- The registers in which the collector keeps its sources, and the injection: FLT_INJSTAT, FLT_ACTj, FLT_STKj, FLT_SEVj and FLT_RAILj (R508, R512). -/
def sourceReg (a : Nat) : Bool := a == Reg.FLT_INJSTAT || (decide (Reg.FLT_ACT 0 ≤ a) && decide (a < Reg.FLT_SNAP 0))

/-- What no reaction touches: the queue, the counts, the reactions taken, the end of an injection, and the source registers. -/
structure Books where
  pending : List Instr
  counts : List (Nat × Nat × Nat)
  react : List (Nat × Nat)
  injEnd : Nat
  regs : Nat → Word

def books (s : State) : Books :=
  ⟨s.pending, s.flt.counts, s.flt.react, s.flt.injEnd, fun a => if sourceReg a then reg s a else 0#32⟩

theorem sourceReg_below {a : Nat} (h : a < Reg.FLT_INJSTAT) : sourceReg a = false := by
  simp only [Reg.FLT_INJSTAT] at h
  simp [sourceReg, Reg.FLT_INJSTAT, Reg.FLT_ACT, Reg.FLT_SNAP]; omega

theorem sourceReg_above {a : Nat} (h : Reg.FLT_SNAP 0 ≤ a) : sourceReg a = false := by
  simp only [Reg.FLT_SNAP] at h
  simp [sourceReg, Reg.FLT_INJSTAT, Reg.FLT_ACT, Reg.FLT_SNAP]; omega

theorem reg_of_books {s t : State} (h : books t = books s) {a : Nat} (ha : sourceReg a = true) : reg t a = reg s a := by
  simpa [books, ha] using congrFun (congrArg Books.regs h) a

/-! ### Updates of a state -/

/-- Every part but the register file, the fault collector and the queue. -/
theorem books_parts (s : State) (now ft free : Nat) (resp : Option Resp) (pins : Pins) (sys : SysState) (cms : CmsState) (xck : XckState) (imp : ImpState)
    (cpb : CpbState) (lnk : LnkState) (fab : FabState) (hst : HstState) (cnv : CnvState) (ctl : CtlState) (tbs : TbsState) (cal : CalState) (thm : ThmState)
    (bst : BstState) :
    books { s with
      now := now, ft := ft, free := free, resp := resp, pins := pins, sys := sys, cms := cms, xck := xck, imp := imp, cpb := cpb, lnk := lnk
      fab := fab, hst := hst, cnv := cnv, ctl := ctl, tbs := tbs, cal := cal, thm := thm, bst := bst } = books s := (rfl)

/-- The rest of the fault collector. -/
theorem books_flt (s : State) (lines waiting : List Nat) (blamedP blamedS : Word) (phases : List (Nat × Nat)) (railErr : List Nat) (alarmed : List (Nat × Nat)) :
    books { s with flt := { s.flt with
      lines := lines, waiting := waiting, blamedP := blamedP, blamedS := blamedS, phases := phases, railErr := railErr, alarmed := alarmed } } = books s := (rfl)

theorem books_setReg {a : Nat} (h : sourceReg a = false) (v : Word) (s : State) : books (setReg a v s) = books s := by
  have hr : (fun b => if sourceReg b then reg (setReg a v s) b else 0#32) = fun b => if sourceReg b then reg s b else 0#32 := by
    funext b
    split
    · next hb => exact reg_setReg_other (fun e => by simp [← e, hb] at h) v s
    · rfl
  simp only [books, hr]; rfl

theorem books_setF {f : Field} (h : sourceReg f.addr = false) (v : Nat) (s : State) : books (setF f v s) = books s := books_setReg h _ s
theorem books_setB {f : Field} (h : sourceReg f.addr = false) (b : Bool) (s : State) : books (setB f b s) = books s := books_setReg h _ s
theorem books_incSat {f : Field} (h : sourceReg f.addr = false) (s : State) : books (incSat f s) = books s := books_setReg h _ s
theorem books_setRegBit {a : Nat} (h : sourceReg a = false) (k : Nat) (b : Bool) (s : State) : books (setRegBit a k b s) = books s := books_setReg h _ s

theorem books_foldl {α : Type} (f : State → α → State) (l : List α) (h : ∀ t, ∀ x ∈ l, books (f t x) = books t) (s : State) :
    books (l.foldl f s) = books s := by
  induction l generalizing s with
  | nil => rfl
  | cons x l ih => exact (ih (fun t y hy => h t y (List.mem_cons_of_mem x hy)) (f s x)).trans (h s x (List.mem_cons_self ..))

theorem books_pulse (src : Nat) (s : State) : books (pulse src s) = books s := by
  simp only [pulse, apply_ite books, books_flt, ite_self]

theorem books_setEvt (b : EvtBlock) (bits : Nat) (s : State) : books (setEvt b bits s) = books s := by
  have h : sourceReg b.evt = false := by cases b <;> decide
  simp only [setEvt, apply_ite books, books_parts, books_setReg h, ite_self]

theorem books_useFree (s : State) : books (useFree s) = books s := (rfl)

/-! ### The host interface -/

theorem books_dmaWrite (a : Nat) (bs : List Byte) (s : State) : books (dmaWrite a bs s) = books s := (rfl)

theorem books_advanceRing {r : Nat} (hr : r < 11) (n : Nat) (s : State) : books (advanceRing r n s) = books s := by
  have h : sourceReg (Reg.HST_RDIDX_DIDX r).addr = false :=
    sourceReg_below (by simp only [Reg.HST_RDIDX_DIDX, Reg.HST_RDIDX, Reg.FLT_INJSTAT]; omega)
  simp only [advanceRing, books_parts, books_setF h]

theorem books_writeback (s : State) : books (writeback s) = books s := by
  simp only [writeback, apply_ite books, books_dmaWrite, books_parts, ite_self]

theorem books_sendVector (v : Nat) (s : State) : books (sendVector v s) = books s := by
  simp only [sendVector, books_dmaWrite, books_parts, books_writeback]

theorem books_message (v : Nat) (s : State) : books (message v s) = books s := by
  simp (disch := decide) only [message, apply_ite books, books_setRegBit, books_sendVector, ite_self]

theorem books_signalRing (r : Nat) (s : State) : books (signalRing r s) = books s := by
  simp only [signalRing, apply_ite books, books_message, books_parts, ite_self]

theorem books_signalCounted (r : Nat) (s : State) : books (signalCounted r s) = books s := by
  simp only [signalCounted, apply_ite books, books_signalRing, ite_self]

theorem books_countEntry (r : Nat) (s : State) : books (countEntry r s) = books s := by
  simp only [countEntry, books_signalCounted, books_parts]

theorem books_ringWrite {r : Nat} (hr : r < 11) (n : Nat) (mk : Bool → List Byte) (s : State) : books (ringWrite r n mk s) = books s := by
  simp only [ringWrite, books_countEntry, books_advanceRing hr, books_dmaWrite]

theorem books_flushCompletions (k : Nat) (s : State) : books (flushCompletions k s) = books s := by
  induction k generalizing s with
  | zero => rfl
  | succ k ih =>
    unfold flushCompletions
    split
    · rfl
    · simp (disch := decide) only [apply_ite books, ih, books_ringWrite, books_parts, books_dmaWrite, ite_self]

theorem books_refreshOut (s : State) : books (refreshOut s) = books s := by
  simp (disch := decide) only [refreshOut, books_setF]

theorem books_finishHost (slot : Nat) (mk : HostCmd → HostDone) (s : State) : books (finishHost slot mk s) = books s := by
  unfold finishHost
  split
  · rfl
  · simp only [books_refreshOut, books_flushCompletions, apply_ite books, books_parts, ite_self]

theorem books_clearEnables (s : State) : books (clearEnables s) = books s := by
  simp (disch := decide) only [clearEnables, books_setB]
  refine books_foldl _ _ (fun t r hr => books_setB (sourceReg_below ?_) _ t) s
  have := List.mem_range.1 hr
  simp only [Reg.HST_RCFG_EN, Reg.HST_RCFG, Reg.FLT_INJSTAT]; omega

theorem books_roomEvent (s : State) : books (roomEvent s) = books s := by
  simp only [roomEvent, apply_ite books, books_parts, ite_self]

theorem books_pushEvent (e : EventEntry) (s : State) : books (pushEvent e s) = books s := by
  simp (disch := decide) only [pushEvent, apply_ite books, books_incSat, books_pulse, books_parts, books_roomEvent, ite_self]

/-! ### Frames -/

theorem books_modPort (n : Nat) (f : PortState → PortState) (s : State) : books (modPort n f s) = books s := (rfl)

theorem books_enqueue (n input : Nat) (g : Frame) (s : State) : books (enqueue n input g s) = books s := by
  simp (disch := decide) only [enqueue, apply_ite books, books_incSat, books_modPort, ite_self]

theorem books_sendRouted (f : Frame) (s : State) : books (sendRouted f s) = books s := by
  simp (disch := decide) only [sendRouted, apply_ite books, books_incSat, books_enqueue, ite_self]

theorem books_flood (input : Nat) (f : Frame) (s : State) : books (flood input f s) = books s :=
  books_foldl _ _ (fun t n _ => by simp only [apply_ite books, books_enqueue, ite_self]) s

theorem books_originate (t : FrameType) (cl : Cls) (p : List Word) (s : State) : books (originate t cl p s) = books s := by
  simp only [originate, books_flood, books_parts]

theorem books_broadcast (t : FrameType) (cl : Cls) (p : List Word) (s : State) : books (broadcast t cl p s) = books s := by
  simp only [broadcast, apply_ite books, books_originate, books_parts, ite_self]

theorem books_linkLocal (n : Nat) (t : FrameType) (cl : Cls) (p : List Word) (s : State) : books (linkLocal n t cl p s) = books s :=
  books_enqueue _ _ _ s

theorem books_sendHome (k : Nat) (t : FrameType) (cl : Cls) (tag : Nat) (p : List Word) {drop : State → State} (s : State)
    (h : books (drop s) = books s) : books (sendHome k t cl tag p drop s) = books s := by
  unfold sendHome
  split
  · exact books_sendRouted _ s
  · exact h

theorem books_sendCpl (src tag : Nat) (cls : Cls) (rroute : Word) (rhop : Nat) (p : List Word) (s : State) :
    books (sendCpl src tag cls rroute rhop p s) = books s := by
  unfold sendCpl
  split
  · exact books_sendRouted _ s
  · split
    · exact books_sendHome _ _ _ _ _ s (books_incSat (by decide) s)
    · exact books_incSat (by decide) s

theorem books_cachePut (src epoch : Nat) (e : Cached) (s : State) : books (cachePut src epoch e s) = books s := (rfl)

theorem books_complete (tk : Ticket) (st : Status) (data : List Word) (tval : Nat) (s : State) : books (complete tk st data tval s) = books s := by
  cases tk with
  | direct => rfl
  | fabric => simp only [complete, apply_ite books, books_cachePut, books_sendCpl, ite_self]
  | host => exact books_finishHost _ _ s

/-! ### The impedance engine and the converter -/

theorem books_finishAbort (code : Nat) (s : State) : books (finishAbort code s) = books s := by
  simp only [finishAbort, books_setEvt, apply_ite books, books_pulse, ite_self]

theorem books_planAbort (code : Nat) (s : State) : books (planAbort code s) = books s := by
  simp (disch := decide) only [planAbort, apply_ite books, books_finishAbort, books_parts, books_setF, books_useFree, ite_self]

theorem books_excitationStops (s : State) : books (excitationStops s) = books s := by
  unfold excitationStops
  split
  · rfl
  · exact books_foldl _ _ (fun t f _ => books_finishAbort f.code t) _

theorem books_clearTrims (s : State) : books (clearTrims s) = books s := by
  simp (disch := decide) only [clearTrims, books_setReg, books_parts]

theorem books_quiet (s : State) : books (quiet s) = books s := by
  simp (disch := decide) only [quiet, books_parts, books_setB, books_setF, books_clearTrims]

theorem books_leaveRunning (dest : Nat) (s : State) : books (leaveRunning dest s) = books s := by
  simp (disch := decide) only [leaveRunning, books_excitationStops, apply_ite books, books_setEvt, books_parts, books_setF, books_quiet, books_planAbort, ite_self]

theorem books_immediateStop (dest : Nat) (s : State) : books (immediateStop dest s) = books s := by
  simp only [immediateStop, apply_ite books, books_leaveRunning, ite_self]

theorem books_commandedStop (s : State) : books (commandedStop s) = books s := by
  unfold commandedStop
  split <;> simp (disch := decide) only [books_leaveRunning, books_setF, books_parts, apply_ite books, books_planAbort, ite_self]

theorem books_placeEdges (s : State) : books (placeEdges s) = books s := (rfl)

theorem books_refreshPhases (s : State) : books (refreshPhases s) = books s := by
  simp (disch := decide) only [refreshPhases, apply_ite books, books_immediateStop, books_placeEdges, books_clearTrims, books_setF, ite_self]

theorem books_setLevel (level : Nat) (s : State) : books (setLevel level s) = books s := by
  simp (disch := decide) only [setLevel, books_refreshPhases, books_setF]

theorem books_resetEngine (s : State) : books (resetEngine s) = books s := by
  simp (disch := decide) only [resetEngine, books_parts, books_setF, books_setReg, books_setB]

/-! ### Balancing, the fault pair, and the measurements -/

theorem books_enforceSwitches (s : State) : books (enforceSwitches s) = books s := by
  simp (disch := decide) only [enforceSwitches, noteBleed, books_setF, books_parts]

theorem books_driveFaultLevel (s : State) : books (driveFaultLevel s) = books s := by
  simp (disch := decide) only [driveFaultLevel, apply_ite books, books_setB, books_parts, ite_self]

theorem books_endHarness (st : Status) (failed : Bool) (s : State) : books (endHarness st failed s) = books s := by
  unfold endHarness
  split
  · rfl
  · simp (disch := decide) only [books_complete, books_enforceSwitches, apply_ite books, books_pulse, books_setB, books_parts, ite_self]

theorem books_harnessAbort (s : State) : books (harnessAbort s) = books s := books_endHarness _ _ s

theorem books_markStream (o : Bool) (p : Nat → Bool) (s : State) : books (markStream o p s) = books s := by
  simp only [markStream, apply_ite books, books_parts, ite_self]

theorem books_noteWindow (s : State) : books (noteWindow s) = books s := by
  simp only [noteWindow, apply_ite books, books_parts, ite_self]

theorem books_startSettle (p : Nat → Bool) (s : State) : books (startSettle p s) = books s := by
  simp (disch := decide) only [startSettle, settleStreams, startCount, reportSettle, books_markStream, books_parts, books_setB, books_setF]

theorem books_invalidate {a : Nat} (h : sourceReg a = false) (s : State) : books (invalidate a s) = books s := books_setRegBit h _ _ s

theorem books_invalidateAll (s : State) : books (invalidateAll s) = books s := by
  have hx {a : Nat} (h : a < Reg.FLT_INJSTAT) : sourceReg a = false := sourceReg_below h
  simp (disch := decide) only [invalidateAll, books_invalidate, books_parts]
  refine (books_foldl _ _ (fun t k hk => ?_) _).trans <| (books_foldl _ _ (fun t k hk => ?_) _).trans <| books_foldl _ _ (fun t k hk => ?_) s
  all_goals have := List.mem_range.1 hk
  · rw [books_invalidate (sourceReg_below (by simp only [Reg.XCK_AXF, Reg.FLT_INJSTAT]; omega)),
      books_invalidate (sourceReg_below (by simp only [Reg.XCK_AX, Reg.FLT_INJSTAT]; omega))]
  · exact books_invalidate (sourceReg_below (by simp only [Reg.XCK_PAIR, Reg.FLT_INJSTAT]; omega)) t
  · exact books_invalidate (sourceReg_below (by simp only [Reg.XCK_CELL, Reg.FLT_INJSTAT]; omega)) t

theorem books_showFenced (s : State) : books (showFenced s) = books s := books_setB (by decide) _ s

theorem books_invalidateCells (w : Word) (s : State) :
    books ((List.range 24).foldl (fun t k => if w.getLsbD (k + 1) then invalidate (Reg.XCK_CELL k) t else t) s) = books s := by
  refine books_foldl _ _ (fun t k hk => ?_) s
  have := List.mem_range.1 hk
  simp only [apply_ite books, books_invalidate (a := Reg.XCK_CELL k) (sourceReg_below (by simp only [Reg.XCK_CELL, Reg.FLT_INJSTAT]; omega)), ite_self]

theorem books_applyCellFences (s : State) : books (applyCellFences s) = books s := by
  unfold applyCellFences
  extract_lets oldP newP oldS newS mode began s1 s2 xck2 s3 xck3 moded s4 lifted s5 s6
  have h1 : books s1 = books s := by simp (disch := decide) only [s1, books_setB, books_setReg]
  have h2 : books s2 = books s := (books_invalidateCells newS s1).trans h1
  have h3 : books s3 = books s := (books_parts ..).trans h2
  have hm : books moded = books s := (books_setF (by decide) _ _).trans ((books_parts ..).trans h3)
  have h4 : books s4 = books s := by simp only [s4, apply_ite books, books_invalidateAll, hm, h3, ite_self]
  have h5 : books s5 = books s := by simp only [s5, apply_ite books, books_startSettle, h4, ite_self]
  have h6 : books s6 = books s := by simp only [s6, apply_ite books, books_planAbort, h5, ite_self]
  simp only [books_showFenced, books_noteWindow, apply_ite books, books_endHarness, h6, ite_self]

/-! ### The route table and the requests -/

theorem books_setEntry (id : Nat) (e : RouteEntry) (s : State) : books (setEntry id e s) = books s := (rfl)

theorem books_modRun (f : EnumRun → EnumRun) (s : State) : books (modRun f s) = books s := (rfl)

theorem books_applyHeld (id : Nat) (s : State) : books (applyHeld id s) = books s := by
  unfold applyHeld
  split
  · rfl
  · split <;> rfl

theorem books_sendRunReq (f : Frame) (tag : Nat) (s : State) : books (sendRunReq f tag s) = books s := by
  simp only [sendRunReq, books_sendRouted, books_refreshOut, books_parts]

theorem books_runSend (s : State) : books (runSend s) = books s := by
  unfold runSend
  split
  · rfl
  · split
    · rfl
    · split <;> split <;> simp only [books_sendRunReq, books_useFree, books_modRun]

theorem books_dropReq (r : Req) (s : State) : books (dropReq r s) = books s := by
  unfold dropReq
  split <;> simp only [books_refreshOut, books_applyHeld, books_parts]

theorem books_finishReq (r : Req) (st : Status) (data : List Word) (tval : Nat) (cached : Bool) (epoch : Nat) (s : State) :
    books (finishReq r st data tval cached epoch s) = books s := by
  unfold finishReq
  split <;> simp only [books_runSend, books_finishHost, runDone, books_modRun, books_dropReq]

theorem books_reissueReq (r : Req) (route : Word × Nat) (s : State) : books (reissueReq r route s) = books s := by
  simp (disch := decide) only [reissueReq, books_sendRouted, apply_ite books, books_incSat, books_parts, ite_self]

theorem books_reissueTo (id : Nat) (s : State) : books (reissueTo id s) = books s :=
  books_foldl _ _ (fun _ _ _ => books_reissueReq _ _ _) s

theorem books_endRequestsTo (id : Nat) (st : Status) (epoch : Nat) (s : State) : books (endRequestsTo id st epoch s) = books s :=
  books_foldl _ _ (fun _ _ _ => books_finishReq _ _ _ _ _ _ _) s

theorem books_mapSessions (f : Session → Session) (s : State) : books (mapSessions f s) = books s := (rfl)

theorem books_countSwitch (s : State) : books (countSwitch s) = books s := by
  simp (disch := decide) only [countSwitch, books_setEvt, books_incSat, books_parts]

theorem books_failHome (hit : List Nat → Bool) {k : Nat} (hk : k < 2) (s : State) : books (failHome hit k s) = books s := by
  have h {a : Nat} (ha : a = Reg.FAB_HOME_HCTL k) : sourceReg a = false :=
    sourceReg_below (by simp only [ha, Reg.FAB_HOME_HCTL, Reg.FLT_INJSTAT]; omega)
  have hp := h (a := (Reg.FAB_HOME_HCTL_PFAIL k).addr) rfl
  have ha := h (a := (Reg.FAB_HOME_HCTL_AFAIL k).addr) rfl
  have hu := h (a := (Reg.FAB_HOME_HCTL_USE k).addr) rfl
  simp only [failHome, apply_ite books, suspendSessions, rewindSessions, books_mapSessions, books_parts, books_countSwitch, books_pulse,
    books_setB hp, books_setB ha, books_setB hu, ite_self]

theorem books_failEntry (hit : List Nat → Bool) (id : Nat) (s : State) : books (failEntry hit id s) = books s := by
  simp only [failEntry, apply_ite books, books_endRequestsTo, books_setEvt, books_setEntry, books_reissueTo, books_countSwitch, ite_self]

theorem books_failRoutes (hit : List Nat → Bool) (s : State) : books (failRoutes hit s) = books s := by
  have hf (l : List Nat) (t : State) : books (l.foldl (fun t id => failEntry hit id t) t) = books t :=
    books_foldl _ _ (fun _ _ _ => books_failEntry _ _ _) t
  simp (disch := decide) only [failRoutes, apply_ite books, hf, books_parts, books_failHome, ite_self]

theorem books_noteCut (a : Nat) (b : Option Nat) (s : State) : books (noteCut a b s) = books s := by
  unfold noteCut
  split <;> rfl

theorem books_failLink (a : Nat) (b : Option Nat) (s : State) : books (failLink a b s) = books s := by
  simp only [failLink, books_failRoutes, books_noteCut]

/-! ### The timebase -/

theorem books_modDelay (n : Nat) (f : DelayState → DelayState) (s : State) : books (modDelay n f s) = books s := (rfl)

theorem books_announce (s : State) : books (announce s) = books s :=
  books_foldl _ _ (fun t n _ => by simp only [apply_ite books, books_linkLocal, ite_self]) s

theorem books_enterTb (code : Nat) (s : State) : books (enterTb code s) = books s := by
  simp (disch := decide) only [enterTb, books_setB, books_setF, books_parts, apply_ite books, books_planAbort, ite_self]

theorem books_takeParent (n h : Nat) (s : State) : books (takeParent n h s) = books s := by
  unfold takeParent
  split <;> simp (disch := decide) only [books_announce, books_enterTb, books_setF, books_parts]

theorem books_enterFreerun (s : State) : books (enterFreerun s) = books s := by
  simp (disch := decide) only [enterFreerun, books_setF, books_enterTb, books_parts, apply_ite books, books_pulse, ite_self]

theorem books_enterHoldover (s : State) : books (enterHoldover s) = books s := by
  simp (disch := decide) only [enterHoldover, apply_ite books, books_enterFreerun, books_announce, books_pulse, books_setF, books_enterTb, books_parts, ite_self]

theorem books_loseParent (s : State) : books (loseParent s) = books s := by
  unfold loseParent
  split
  · rfl
  · split
    · exact books_takeParent _ _ s
    · simp only [apply_ite books, books_enterHoldover, books_enterFreerun, ite_self]

theorem books_portLostTime (n : Nat) (s : State) : books (portLostTime n s) = books s := by
  simp only [portLostTime, apply_ite books, books_loseParent, books_modDelay, ite_self]

theorem books_clearBusy (s : State) : books (clearBusy s) = books s := by
  simp (disch := decide) only [clearBusy, apply_ite books, books_setB, ite_self]

theorem books_latchRecords (t : Nat) (s : State) : books (latchRecords t s) = books s := by
  unfold latchRecords
  split
  · exact (books_setB (by decide) _ _).trans (books_parts ..)
  · rfl

theorem books_latchBlocks (s : State) : books (latchBlocks s) = books s := by
  unfold latchBlocks
  extract_lets first turn s1
  have h1 : books s1 = books s := by simp (disch := decide) only [s1, books_setReg]
  exact (books_foldl _ _ (fun t j _ => books_setReg (sourceReg_above (by simp only [Reg.FLT_SNAP]; omega)) _ t) s1).trans h1

theorem books_latchRein (t slack : Nat) (s : State) : books (latchRein t slack s) = books s := by
  unfold latchRein
  extract_lets late s1 tbs1
  have h1 : books s1 = books s := by simp (disch := decide) only [s1, apply_ite books, books_setB, books_setF, ite_self]
  rw [books_clearBusy, books_latchRecords, books_latchBlocks, books_parts, h1]

theorem books_takeRein (t src : Nat) (origin : Option Nat) (count : Nat) (remote : Bool) (s : State) :
    books (takeRein t src origin count remote s) = books s := by
  unfold takeRein
  extract_lets near s1 tbs1 cms1 s2
  have h1 : books s1 = books s := by simp (disch := decide) only [s1, books_setB, books_setF, books_setReg]
  have h2 : books s2 = books s := (books_parts ..).trans h1
  simp (disch := decide) only [apply_ite books, books_incSat, books_latchRein, h2, ite_self]

theorem books_issueRein (t src : Nat) (bcast : Bool) (s : State) : books (issueRein t src bcast s) = books s := by
  simp only [issueRein, apply_ite books, books_broadcast, books_takeRein, books_parts, ite_self]

/-! ### Ports -/

theorem books_enterPort {n : Nat} (hn : n < 4) (code : Nat) (d : LineDrive) (s : State) : books (enterPort n code d s) = books s := by
  have h {a : Nat} (ha : a = Reg.LNK_PSTAT n) : sourceReg a = false := sourceReg_below (by simp only [ha, Reg.LNK_PSTAT, Reg.FLT_INJSTAT]; omega)
  have hs := h (a := (Reg.LNK_PSTAT_STATE n).addr) rfl
  have hl := h (a := (Reg.LNK_PSTAT_LOCK n).addr) rfl
  unfold enterPort
  extract_lets t
  have ht : books t = books s := by simp (disch := decide) only [t, books_modPort, books_setRegBit, books_setB hl, books_setF hs]
  simp (disch := decide) only [apply_ite books, books_setB, ht, ite_self]

theorem books_restPort {n : Nat} (hn : n < 4) (s : State) : books (restPort n s) = books s := by
  simp only [restPort, enterDown, apply_ite books, books_modPort, books_enterPort hn, ite_self]

theorem books_handBack (f : Frame) (s : State) : books (handBack f s) = books s := by
  unfold handBack
  split
  · exact books_incSat (by decide) s
  · exact books_incSat (by decide) s
  · rfl

theorem books_sendLinkdown (n cause : Nat) (s : State) : books (sendLinkdown n cause s) = books s := by
  simp only [sendLinkdown, apply_ite books, books_broadcast, ite_self]

theorem books_linkLoss {n : Nat} (hn : n < 4) (cause : Nat) (s : State) : books (linkLoss n cause s) = books s := by
  have hr : sourceReg (Reg.LNK_RBUF_NOW n).addr = false := sourceReg_below (by simp only [Reg.LNK_RBUF_NOW, Reg.LNK_RBUF, Reg.FLT_INJSTAT]; omega)
  have hl : sourceReg (Reg.LNK_LOSS_LASTCAUSE n).addr = false :=
    sourceReg_below (by simp only [Reg.LNK_LOSS_LASTCAUSE, Reg.LNK_LOSS, Reg.FLT_INJSTAT]; omega)
  have hc : sourceReg (Reg.LNK_LOSS_LOSSCNT n).addr = false :=
    sourceReg_below (by simp only [Reg.LNK_LOSS_LOSSCNT, Reg.LNK_LOSS, Reg.FLT_INJSTAT]; omega)
  have hb (l : List Frame) (t : State) : books (l.foldl (fun t f => handBack f t) t) = books t := books_foldl _ _ (fun _ _ _ => books_handBack _ _) t
  simp only [linkLoss, books_portLostTime, books_failLink, books_sendLinkdown, apply_ite books, books_pulse, hb, books_setEvt, books_incSat hc,
    books_setF hl, books_setF hr, books_modPort, books_restPort hn, ite_self]

theorem books_closePort {n : Nat} (hn : n < 4) (s : State) : books (closePort n s) = books s := by
  simp only [closePort, apply_ite books, books_linkLoss hn, books_restPort hn, ite_self]

theorem books_openPort {n : Nat} (hn : n < 4) (s : State) : books (openPort n s) = books s := by
  simp only [openPort, apply_ite books, books_restPort hn, ite_self]

/-! ### Calibration and self-test -/

theorem books_nvmWrite (o : Nat) (bs : List Byte) (s : State) : books (nvmWrite o bs s) = books s := (rfl)
theorem books_nvmErase (a b : Nat) (s : State) : books (nvmErase a b s) = books s := (rfl)

theorem books_refreshBusy (s : State) : books (refreshBusy s) = books s := books_setB (by decide) _ s

theorem books_beginJob (j : NvmJob) (tk : Option Ticket) (s : State) : books (beginJob j tk s) = books s := by
  simp (disch := decide) only [beginJob, books_refreshBusy, books_parts, apply_ite books, books_setReg, books_nvmWrite, books_nvmErase, ite_self]

theorem books_nextJob (s : State) : books (nextJob s) = books s := by
  unfold nextJob
  split
  · rfl
  · split
    · rfl
    · simp only [books_beginJob, books_parts]

theorem books_copyWritten (b : Bool) (s : State) : books (copyWritten b s) = books s := by
  cases b <;> simp (disch := decide) only [copyWritten, books_setB, books_setReg]

theorem books_endCalRun (st : Status) (err : Option Nat) (s : State) : books (endCalRun st err s) = books s := by
  unfold endCalRun
  split
  · rfl
  · extract_lets span cal1 s1 s2 cal2 s3
    have h1 : books s1 = books s := (books_setF (by decide) _ _).trans (books_parts ..)
    have h2 : books s2 = books s := by
      cases err with
      | none => exact h1
      | some e => exact (books_setF (by decide) _ _).trans h1
    have h3 : books s3 = books s := by
      simp only [s3]
      split
      · simp only [apply_ite books, books_copyWritten, books_nvmWrite, books_parts, h2, ite_self]
      · exact h2
    rw [books_nextJob, books_refreshBusy, books_complete, h3]

theorem books_writeRecord (item result : Nat) (done : Bool) (cov count w3 : Nat) (r : BstRun) (s : State) :
    books (writeRecord item result done cov count w3 r s) = books s := by
  have h (w : Nat) : sourceReg (recordWord item w) = false :=
    sourceReg_above (by simp only [recordWord, Reg.BST_MREC, Reg.BST_LREC, Reg.FLT_SNAP]; split <;> omega)
  simp only [writeRecord, books_setReg (h _)]

theorem books_clearRecord (item : Nat) (s : State) : books (clearRecord item s) = books s :=
  books_foldl _ _ (fun t w _ => books_setReg
    (sourceReg_above (by simp only [recordWord, Reg.BST_MREC, Reg.BST_LREC, Reg.FLT_SNAP]; split <;> omega)) _ t) s

theorem books_judgeMemory (m : Nat) (r : BstRun) (s : State) : books (judgeMemory m r s) = books s := by
  simp only [judgeMemory, books_parts, books_writeRecord]

theorem books_cutPartition (p : Nat) (r : BstRun) (s : State) : books (cutPartition p r s) = books s := by
  simp only [cutPartition, books_parts, books_writeRecord, books_useFree, apply_ite books, ite_self]

theorem books_unitReturns (item : Nat) (s : State) : books (unitReturns item s) = books s := by
  simp only [unitReturns, apply_ite books, books_parts, ite_self]

theorem books_endSelfTest (s : State) : books (endSelfTest s) = books s := by
  unfold endSelfTest
  split
  · rfl
  · simp (disch := decide) only [apply_ite books, books_pulse, books_setF, books_setB, books_parts, ite_self]

theorem books_abortSelfTest (s : State) : books (abortSelfTest s) = books s := by
  have hc (l : List Nat) (t : State) : books (l.foldl (fun t i => clearRecord i t) t) = books t := books_foldl _ _ (fun _ _ _ => books_clearRecord _ _) t
  unfold abortSelfTest
  split
  · rfl
  · split <;> simp only [books_endSelfTest, apply_ite books, books_judgeMemory, books_unitReturns, books_cutPartition, hc, ite_self]

/-! ### The reactions -/

theorem books_fenceImp (on : Bool) (s : State) : books (fenceImp on s) = books s := by
  simp (disch := decide) only [fenceImp, apply_ite books, books_planAbort, books_setB, ite_self]

theorem books_fenceBleed (on : Bool) (s : State) : books (fenceBleed on s) = books s := by
  simp (disch := decide) only [fenceBleed, apply_ite books, books_harnessAbort, books_enforceSwitches, books_setB, ite_self]

theorem books_fencePhases (m : Nat) (s : State) : books (fencePhases m s) = books s := by
  simp (disch := decide) only [fencePhases, apply_ite books, books_refreshPhases, books_setF, ite_self]

theorem books_fenceConverter (on : Bool) (s : State) : books (fenceConverter on s) = books s := by
  simp (disch := decide) only [fenceConverter, apply_ite books, books_immediateStop, books_planAbort, books_setB, ite_self]

theorem books_fenceEngine (on : Bool) (s : State) : books (fenceEngine on s) = books s := by
  simp (disch := decide) only [fenceEngine, apply_ite books, books_commandedStop, books_planAbort, books_resetEngine, books_setB, ite_self]

theorem books_fencePort {n : Nat} (hn : n < 4) (on : Bool) (s : State) : books (fencePort n on s) = books s := by
  simp (disch := decide) only [fencePort, apply_ite books, books_closePort hn, books_openPort hn, books_modPort, books_setF, ite_self]

theorem books_fenceInterface (on : Bool) (s : State) : books (fenceInterface on s) = books s := by
  simp (disch := decide) only [fenceInterface, apply_ite books, books_clearEnables, books_setB, ite_self]

theorem books_fenceBanks (m : Nat) (s : State) : books (fenceBanks m s) = books s := by
  simp (disch := decide) only [fenceBanks, apply_ite books, books_parts, books_setF, ite_self]

theorem books_applyDegrades (s : State) : books (applyDegrades s) = books s := by
  simp (disch := decide) only [applyDegrades, endShedding, apply_ite books, books_setLevel, books_parts, books_setB, ite_self]

theorem books_applySafe (s : State) : books (applySafe s) = books s := by
  simp (disch := decide) only [applySafe, resetUnfenced, apply_ite books, books_driveFaultLevel, books_harnessAbort, books_enforceSwitches, books_resetEngine,
    books_immediateStop, books_planAbort, books_setB, ite_self]

theorem books_endFencedRuns (s : State) : books (endFencedRuns s) = books s := by
  unfold endFencedRuns
  extract_lets s1
  have h1 : books s1 = books s := by simp only [s1, abortCalRun, apply_ite books, books_endCalRun, ite_self]
  split
  · simp only [apply_ite books, books_abortSelfTest, h1, ite_self]
  · exact h1

/-- Bringing reactions into force, or lifting them, leaves the books of the fault collector alone. -/
theorem books_applyReactions (s : State) : books (applyReactions s) = books s := by
  have hp (m : Nat) (t : State) : books ((List.range 4).foldl (fun t n => fencePort n (m.testBit n) t) t) = books t :=
    books_foldl _ _ (fun u n hn => books_fencePort (List.mem_range.1 hn) _ u) t
  simp only [applyReactions, books_endFencedRuns, books_showFenced, books_applySafe, books_applyDegrades, books_fenceBanks, books_fenceInterface, hp,
    books_fenceEngine, books_fencePhases, books_fenceConverter, books_fenceBleed, books_fenceImp, books_applyCellFences]

theorem books_noteFenced (src : Nat) (s : State) : books (noteFenced src s) = books s := by
  unfold noteFenced
  split <;> rfl

end Sys2Proof.Machine
end

