-- ==== Sys2Proof/Proofs/CollectorEvents.lean ====
section
/-!
PROOFS. What an event of a source enters in the books: the sticky bit, the count, a severe bit with its reaction; and the number an ALARM takes.
-/
namespace Sys2Proof.Machine

/-! ### What follows from equal books -/

section
variable {s t : State} (h : books t = books s)
include h

theorem pending_of_books : t.pending = s.pending := congrArg Books.pending h
theorem counts_of_books : t.flt.counts = s.flt.counts := congrArg Books.counts h
theorem react_of_books : t.flt.react = s.flt.react := congrArg Books.react h
theorem injEnd_of_books : t.flt.injEnd = s.flt.injEnd := congrArg Books.injEnd h

theorem getF_of_books {f : Field} (hf : sourceReg f.addr = true) : getF f t = getF f s := by simp only [getF, reg_of_books h hf]
theorem bit_of_books {f : Field} (hf : sourceReg f.addr = true) : bit f t = bit f s := by simp only [bit, getF_of_books h hf]

end

theorem sourceReg_stk {j : Nat} (h : j < 4) : sourceReg (Reg.FLT_STK j) = true := by
  simp [sourceReg, Reg.FLT_INJSTAT, Reg.FLT_STK, Reg.FLT_ACT, Reg.FLT_SNAP]; omega
theorem sourceReg_sev {j : Nat} (h : j < 4) : sourceReg (Reg.FLT_SEV j) = true := by
  simp [sourceReg, Reg.FLT_INJSTAT, Reg.FLT_SEV, Reg.FLT_ACT, Reg.FLT_SNAP]; omega
theorem sourceReg_act {j : Nat} (h : j < 4) : sourceReg (Reg.FLT_ACT j) = true := by
  simp [sourceReg, Reg.FLT_INJSTAT, Reg.FLT_ACT, Reg.FLT_SNAP]; omega
theorem sourceReg_rail {j : Nat} (h : j < 4) : sourceReg (Reg.FLT_RAIL j) = true := by
  simp [sourceReg, Reg.FLT_INJSTAT, Reg.FLT_RAIL, Reg.FLT_ACT, Reg.FLT_SNAP]; omega

theorem srcBit_of_books {s t : State} (h : books t = books s) {a : Nat → Nat} {n : Nat} (ha : sourceReg (a (n / 32)) = true) :
    srcBit a n t = srcBit a n s := by simp only [srcBit, regBit, reg_of_books h ha]

/-! ### Source bits -/

theorem getLsbD_setRegBit (a k i : Nat) (b : Bool) (s : State) :
    (reg (setRegBit a k b s) a).getLsbD i = if i = k ∧ i < 32 then b else (reg s a).getLsbD i := by
  simp only [setRegBit, reg_setReg_same, getLsbD_putBits]
  by_cases hi : i < 32
  · by_cases hk : i = k
    · subst hk; cases b <;> simp [hi, b2n]
    · rw [if_neg (by omega : ¬ (k ≤ i ∧ i < k + 1)), if_neg (by omega : ¬ (i = k ∧ i < 32)), decide_eq_true hi, Bool.true_and]
  · simp [hi, BitVec.getLsbD_of_ge _ i (Nat.le_of_not_lt hi)]

theorem srcBit_setSrc_same (a : Nat → Nat) (n : Nat) (b : Bool) (s : State) : srcBit a n (setSrc a n b s) = b := by
  unfold srcBit setSrc regBit
  rw [getLsbD_setRegBit, if_pos ⟨rfl, Nat.mod_lt n (by decide)⟩]

theorem srcBit_of_reg {s t : State} {a : Nat → Nat} {n : Nat} (h : reg t (a (n / 32)) = reg s (a (n / 32))) : srcBit a n t = srcBit a n s := by
  simp only [srcBit, regBit, h]

theorem srcBit_word (a : Nat → Nat) (j : Fin 4) (k : Nat) (hk : k < 32) (s : State) : srcBit a (32 * j.val + k) s = (reg s (a j)).getLsbD k := by
  have h1 : (32 * j.val + k) / 32 = j := by omega
  have h2 : (32 * j.val + k) % 32 = k := by omega
  simp only [srcBit, regBit, h1, h2]

/-! ### Becoming severe -/

theorem books_sendAlarm (src kind react : Nat) (o : Bool) (c : Nat) (s : State) : books (sendAlarm src kind react o c s) = books s := by
  have hh (l : List Nat) (p : List Word) (t : State) :
      books (l.foldl (fun t k => sendHome k .alarm .a 0 p (incSat Reg.FLT_ALCNT_DROP) t) t) = books t :=
    books_foldl _ _ (fun _ _ _ => books_sendHome _ _ _ _ _ _ (books_incSat (by decide) _)) t
  unfold sendAlarm
  split
  · rfl
  · simp (disch := decide) only [apply_ite books, books_pushEvent, books_incSat, hh, books_setF, ite_self]

theorem books_eventAlarm (src : Nat) (o : Bool) (c : Nat) (s : State) : books (eventAlarm src o c s) = books s := by
  unfold eventAlarm
  split <;> simp only [apply_ite books, books_sendAlarm, books_flt, ite_self]

/-- A source that has become severe: its reaction taken, and its bit of FLT_SEV (R494). -/
def severed (src svr : Nat) (s : State) : State :=
  setSrc Reg.FLT_SEV src true { s with flt := { s.flt with react := assocPut src svr s.flt.react } }

theorem severed_flt (src svr : Nat) (s : State) : (severed src svr s).flt = { s.flt with react := assocPut src svr s.flt.react } := by
  simp only [severed, setSrc, setRegBit_flt]

theorem severed_pending (src svr : Nat) (s : State) : (severed src svr s).pending = s.pending := by
  simp only [severed, setSrc, setRegBit_pending]

theorem reg_severed {src a : Nat} (h : a ≠ Reg.FLT_SEV (src / 32)) (svr : Nat) (s : State) : reg (severed src svr s) a = reg s a :=
  reg_setRegBit_other h _ _ _

/-- The reaction taken and the severe bit are all that a source's becoming severe enters in the books (R494). -/
theorem books_becomeSevere (src c : Nat) (s : State) :
    books (becomeSevere src c s) = books (severed src (takenReaction src (getF (Reg.FLT_CFG_SVR src) s)) s) := by
  unfold becomeSevere
  extract_lets svr flt1 s1 s2 s3
  have h2 : books s2 = books s1 := by simp only [s2, books_applyReactions, apply_ite books, books_noteFenced, ite_self]
  have h3 : books s3 = books s1 := by simp only [s3, apply_ite books, books_issueRein, h2, ite_self]
  simp only [apply_ite books, books_sendAlarm, h3, ite_self]
  rfl

/-- An event in the collector's registers: the sticky bit and the last source, beside counts that are given. -/
def logged (src : Nat) (counts : List (Nat × Nat × Nat)) (s : State) : State :=
  setF Reg.FLT_STAT_LAST src (setSrc Reg.FLT_STK src true { s with flt := { s.flt with counts := counts } })

theorem logged_same (src : Nat) (s : State) : logged src s.flt.counts s = setF Reg.FLT_STAT_LAST src (setSrc Reg.FLT_STK src true s) := rfl

theorem logged_flt (src : Nat) (counts : List (Nat × Nat × Nat)) (s : State) : (logged src counts s).flt = { s.flt with counts := counts } := by
  simp only [logged, setSrc, setF_flt, setRegBit_flt]

theorem logged_pending (src : Nat) (counts : List (Nat × Nat × Nat)) (s : State) : (logged src counts s).pending = s.pending := by
  simp only [logged, setSrc, setF_pending, setRegBit_pending]

theorem logged_hst (src : Nat) (counts : List (Nat × Nat × Nat)) (s : State) : (logged src counts s).hst = s.hst := by
  simp only [logged, setSrc, setF_hst, setRegBit_hst]

theorem reg_logged {src a : Nat} (h1 : a ≠ Reg.FLT_STAT) (h2 : a ≠ Reg.FLT_STK (src / 32)) (counts : List (Nat × Nat × Nat)) (s : State) :
    reg (logged src counts s) a = reg s a := (reg_setF_other h1 _ _).trans (reg_setRegBit_other h2 _ _ _)

theorem srcBit_logged (src : Nat) (counts : List (Nat × Nat × Nat)) (s : State) : srcBit Reg.FLT_STK src (logged src counts s) = true :=
  (srcBit_of_reg (reg_setF_other (by simp only [Reg.FLT_STK, Reg.FLT_STAT_LAST, Reg.FLT_STAT]; omega) _ _)).trans (srcBit_setSrc_same _ _ _ _)

theorem getF_logged_last {src : Nat} (h : src < 128) (counts : List (Nat × Nat × Nat)) (s : State) :
    getF Reg.FLT_STAT_LAST (logged src counts s) = src := (getF_setF_same _ _ _ (by decide)).trans (Nat.mod_eq_of_lt h)

/-- A counted event: the count, the sticky bit, and the last source (R492, R493). -/
def counted (src : Nat) (s : State) : State := logged src (assocPut src (nextCount src s) s.flt.counts) s

theorem countEvent_severe {src : Nat} {s : State} (he : bit (Reg.FLT_CFG_EN src) s = true) (hs : srcBit Reg.FLT_SEV src s = false)
    (hn : getF (Reg.FLT_CFG_N src) s ≤ (nextCount src s).1) : countEvent src s = becomeSevere src (nextCount src s).1 (counted src s) := by
  unfold countEvent
  rw [if_pos he]
  simp only [hs, Bool.false_eq_true, if_false]
  rw [if_pos hn]
  rfl

/-- An event that does not make its source severe enters the count and the sticky bit, and no more, in the books. -/
theorem books_countEvent {src : Nat} {s : State} (he : bit (Reg.FLT_CFG_EN src) s = true)
    (h : srcBit Reg.FLT_SEV src s = true ∨ (nextCount src s).1 < getF (Reg.FLT_CFG_N src) s) :
    books (countEvent src s) = books (counted src s) := by
  have hc : setF Reg.FLT_STAT_LAST src (setSrc Reg.FLT_STK src true
      { s with flt := { s.flt with counts := assocPut src ((nextCount src s).1, (nextCount src s).2) s.flt.counts } }) = counted src s := rfl
  unfold countEvent
  rw [if_pos he]
  simp only [hc]
  by_cases hs : srcBit Reg.FLT_SEV src s = true
  · simp only [hs, if_true, apply_ite books, books_applyReactions, books_noteFenced, ite_self]
  · have hn : ¬ getF (Reg.FLT_CFG_N src) s ≤ (nextCount src s).1 := Nat.not_le.2 (h.resolve_left hs)
    simp only [hs, if_false, hn, apply_ite books, books_eventAlarm, ite_self, Bool.false_eq_true]

/-! ### The alarm number and the last source -/

theorem reg_enqueue {a : Nat} (ha : Reg.FLT_STAT ≤ a) (n input : Nat) (g : Frame) (s : State) : reg (enqueue n input g s) a = reg s a := by
  unfold enqueue
  extract_lets f q full
  split
  · exact reg_incSat_other (by simp only [Reg.FLT_STAT] at ha; simp only [Reg.FAB_DROP_QFULL, Reg.FAB_DROP]; omega) s
  · rfl

theorem reg_sendRouted {a : Nat} (ha : Reg.FLT_STAT ≤ a) (f : Frame) (s : State) : reg (sendRouted f s) a = reg s a := by
  have h : a ≠ Reg.FAB_ERR := by simp only [Reg.FLT_STAT] at ha; simp only [Reg.FAB_ERR]; omega
  unfold sendRouted
  split
  · exact reg_incSat_other h s
  · split
    · exact reg_enqueue ha _ _ f s
    · exact reg_incSat_other h s

theorem reg_roomEvent (a : Nat) (s : State) : reg (roomEvent s) a = reg s a := by
  unfold roomEvent
  extract_lets n
  split <;> rfl

theorem reg_pushEvent {a : Nat} (ha : Reg.FLT_STAT ≤ a) (e : EventEntry) (s : State) : reg (pushEvent e s) a = reg s a := by
  have h : a ≠ (Reg.HST_RLOST_LOST 2).addr := by
    simp only [Reg.FLT_STAT] at ha; simp only [Reg.HST_RLOST_LOST, Reg.HST_RLOST]; omega
  unfold pushEvent
  split
  · rfl
  · split
    · exact reg_incSat_other h s
    · extract_lets s1 hst1
      split
      · exact reg_roomEvent a s
      · exact (reg_pulse _ _ _).trans ((reg_incSat_other h _).trans (reg_roomEvent a s))

/-- A field of the collector's head registers that the count of dropped alarms leaves alone. -/
def besideDrop (f : Field) : Prop := Reg.FLT_STAT ≤ f.addr ∧ ∀ s, getF f (incSat Reg.FLT_ALCNT_DROP s) = getF f s

theorem besideDrop_last : besideDrop Reg.FLT_STAT_LAST := ⟨by decide, fun _ => getF_setF_other _ _ _ _ (by decide)⟩
theorem besideDrop_aseq : besideDrop Reg.FLT_ALCNT_ASEQ := ⟨by decide, fun _ => getF_setF_beside _ _ _ _ (by decide) (by decide)⟩

theorem getF_sendHomes {f : Field} (hf : besideDrop f) (l : List Nat) (p : List Word) (s : State) :
    getF f (l.foldl (fun t k => sendHome k .alarm .a 0 p (incSat Reg.FLT_ALCNT_DROP) t) s) = getF f s := by
  obtain ⟨hr, hd⟩ := hf
  induction l generalizing s with
  | nil => rfl
  | cons k l ih =>
    rw [List.foldl_cons, ih]
    unfold sendHome
    split
    · simp only [getF, reg_sendRouted hr]
    · exact hd s

/-- An ALARM that leaves takes the next number, and nothing else of such a field (R506). -/
theorem getF_sendAlarm {f : Field} (hf : besideDrop f) (src kind react : Nat) (o : Bool) (c : Nat) {s : State}
    (hs : legacyMode s = false ∧ s.hst.spi ≠ 1) :
    getF f (sendAlarm src kind react o c s) = getF f (setF Reg.FLT_ALCNT_ASEQ (getF Reg.FLT_ALCNT_ASEQ s + 1) s) := by
  obtain ⟨hl, hg⟩ := hs
  unfold sendAlarm
  rw [if_neg (by simp [hl, hg])]
  extract_lets flags p s1 homes drop s2
  have h2 : getF f s2 = getF f s1 := getF_sendHomes hf homes p s1
  split
  · simp only [getF, reg_pushEvent hf.1]; exact h2
  · split
    · exact (hf.2 s2).trans h2
    · exact h2

theorem last_sendAlarm (src kind react : Nat) (o : Bool) (c : Nat) (s : State) :
    getF Reg.FLT_STAT_LAST (sendAlarm src kind react o c s) = getF Reg.FLT_STAT_LAST s := by
  by_cases hs : legacyMode s = false ∧ s.hst.spi ≠ 1
  · rw [getF_sendAlarm besideDrop_last _ _ _ _ _ hs]
    exact getF_setF_other _ _ _ _ (by decide)
  · unfold sendAlarm
    rw [if_pos]
    simp only [not_and, ne_eq, Bool.or_eq_true, beq_iff_eq] at hs ⊢
    cases hl : legacyMode s with
    | true => exact Or.inl rfl
    | false => exact Or.inr (not_not.1 (hs hl))

theorem last_eventAlarm (src : Nat) (o : Bool) (c : Nat) (s : State) :
    getF Reg.FLT_STAT_LAST (eventAlarm src o c s) = getF Reg.FLT_STAT_LAST s := by
  unfold eventAlarm
  split
  · split
    · rfl
    · exact last_sendAlarm _ _ _ _ _ _
  · exact last_sendAlarm _ _ _ _ _ _

/-- The first ALARM of kind EVENT of a source leaves. -/
theorem aseq_eventAlarm (src : Nat) (o : Bool) (c : Nat) {s : State} (ha : assoc src s.flt.alarmed = none)
    (hs : legacyMode s = false ∧ s.hst.spi ≠ 1) :
    getF Reg.FLT_ALCNT_ASEQ (eventAlarm src o c s) = (getF Reg.FLT_ALCNT_ASEQ s + 1) % 65536 := by
  simp only [eventAlarm, ha]
  rw [getF_sendAlarm besideDrop_aseq src 1 0 o c (s := { s with flt := { s.flt with alarmed := assocPut src s.now s.flt.alarmed } }) hs]
  exact getF_setF_same _ _ _ (by decide)

end Sys2Proof.Machine
end

