-- ==== Sys2Proof/Proofs/CollectorClears.lean ====
section
/-!
PROOFS. Clears of the source arrays (R503, R504): SEVERE_CLEAR, STICKY_CLEAR and CLRALL.
-/
namespace Sys2Proof.Machine

/-! ### Replacing one part of a state -/

theorem Changes.withFlt (s : State) (f : FltState) : Changes [.flt] (fun _ => False) s { s with flt := f } :=
  ⟨rfl, fun p hp => by cases p <;> simp_all [Part.same], fun _ _ => rfl⟩

theorem Changes.withResp (s : State) (r : Option Resp) : Changes [.resp] (fun _ => False) s { s with resp := r } :=
  ⟨rfl, fun p hp => by cases p <;> simp_all [Part.same], fun _ _ => rfl⟩

/-! ### Clears -/

/-- The two source arrays whose bits software clears against FLT_ACT and FLT_RAIL (R503). -/
def clearedArray (a : Nat → Nat) : Prop := a = Reg.FLT_STK ∨ a = Reg.FLT_SEV

theorem clearedArray.stk : clearedArray Reg.FLT_STK := Or.inl rfl
theorem clearedArray.sev : clearedArray Reg.FLT_SEV := Or.inr rfl

theorem clearedArray.ne_act {a : Nat → Nat} (ha : clearedArray a) {i j : Nat} (hi : i < 4) (hj : j < 4) : Reg.FLT_ACT i ≠ a j := by
  rcases ha with rfl | rfl <;> simp only [Reg.FLT_ACT, Reg.FLT_STK, Reg.FLT_SEV] <;> omega

theorem clearedArray.ne_rail {a : Nat → Nat} (ha : clearedArray a) {i j : Nat} (hi : i < 4) (hj : j < 4) : Reg.FLT_RAIL i ≠ a j := by
  rcases ha with rfl | rfl <;> simp only [Reg.FLT_RAIL, Reg.FLT_STK, Reg.FLT_SEV] <;> omega

theorem clearedArray.sourceReg {a : Nat → Nat} (ha : clearedArray a) {j : Nat} (hj : j < 4) : sourceReg (a j) = true := by
  rcases ha with rfl | rfl
  · exact sourceReg_stk hj
  · exact sourceReg_sev hj

theorem clearable_congr {s t : State} {n : Nat} (hact : reg t (Reg.FLT_ACT (n / 32)) = reg s (Reg.FLT_ACT (n / 32)))
    (hrail : reg t (Reg.FLT_RAIL (n / 32)) = reg s (Reg.FLT_RAIL (n / 32))) : clearable n t = clearable n s := by
  simp only [clearable, srcBit_of_reg hact, srcBit_of_reg hrail]

theorem clearable_of_books {s t : State} (h : books t = books s) {n : Nat} (hn : n / 32 < 4) : clearable n t = clearable n s :=
  clearable_congr (reg_of_books h (sourceReg_act hn)) (reg_of_books h (sourceReg_rail hn))

/-- What clearing bits of word j of a source array leaves: those that `p` names and that may clear are clear, and the counts of their sources 0. -/
structure Cleared (a : Nat → Nat) (j : Nat) (p : Nat → Bool) (s t : State) : Prop where
  flt : t.flt = { s.flt with counts := t.flt.counts }
  changes : Changes [.flt] (· = a j) s t
  word : ∀ k, k < 32 → (reg t (a j)).getLsbD k = ((reg s (a j)).getLsbD k && !(p k && clearable (32 * j + k) s))
  counts : ∀ k, k < 32 → p k = true → (reg s (a j)).getLsbD k = true → clearable (32 * j + k) s = true → assoc (32 * j + k) t.flt.counts = none
  gone : ∀ m, assoc m s.flt.counts = none → assoc m t.flt.counts = none

section
variable {a : Nat → Nat} {j : Nat} {p q : Nat → Bool} {s t u : State}

theorem Cleared.nothing (hp : ∀ k, p k = false) : Cleared a j p s s :=
  ⟨rfl, Changes.refl _ _ s, fun k _ => by simp [hp], fun k _ h => by simp [hp] at h, fun _ h => h⟩

theorem Cleared.reg_other (h : Cleared a j p s t) {b : Nat} (hb : b ≠ a j) : reg t b = reg s b := h.changes.2.2 b hb

theorem Cleared.clearable_eq (ha : clearedArray a) (hj : j < 4) (h : Cleared a j p s t) {n : Nat} (hn : n / 32 < 4) : clearable n t = clearable n s :=
  clearable_congr (h.reg_other (ha.ne_act hn hj)) (h.reg_other (ha.ne_rail hn hj))

theorem Cleared.trans (ha : clearedArray a) (hj : j < 4) (h1 : Cleared a j p s t) (h2 : Cleared a j q t u) : Cleared a j (fun k => p k || q k) s u := by
  have hc {k : Nat} (hk : k < 32) : clearable (32 * j + k) t = clearable (32 * j + k) s := h1.clearable_eq ha hj (by omega)
  refine ⟨?_, (h1.changes.trans h2.changes).mono (by simp) (by simp), fun k hk => ?_, fun k hk hpq hb hcl => ?_, fun m hm => h2.gone m (h1.gone m hm)⟩
  · rw [h2.flt, h1.flt]
  · rw [h2.word k hk, h1.word k hk, hc hk]
    cases (reg s (a j)).getLsbD k <;> cases p k <;> cases q k <;> cases clearable (32 * j + k) s <;> rfl
  · cases hp : p k with
    | true => exact h2.gone _ (h1.counts k hk hp hb hcl)
    | false =>
      have hq : q k = true := by simpa [hp] using hpq
      exact h2.counts k hk hq (by rw [h1.word k hk, hb, hp]; rfl) ((hc hk).trans hcl)

theorem cleared_clearSource (hj : j < 4) {i : Nat} (hi : i < 32) : Cleared a j (· == i) s (clearSource a (32 * j + i) s) := by
  have hb : srcBit a (32 * j + i) s = (reg s (a j)).getLsbD i := srcBit_word a ⟨j, hj⟩ i hi s
  unfold clearSource
  split
  · next h =>
    rw [hb, Bool.and_eq_true] at h
    have h1 : (32 * j + i) / 32 = j := by omega
    have h2 : (32 * j + i) % 32 = i := by omega
    simp only [setSrc, h1, h2]
    refine ⟨rfl, ((Changes.withFlt s _).trans (Changes.setRegBit _ _ _ _)).mono (by simp) (by simp), fun k hk => ?_, fun k _ hk _ _ => ?_, fun m hm => ?_⟩
    · rw [getLsbD_setRegBit]
      by_cases hki : k = i
      · rw [if_pos ⟨hki, hk⟩, hki, h.2]; simp
      · rw [if_neg (fun e => hki e.1), beq_false_of_ne hki]; simp
    · rw [setRegBit_flt, beq_iff_eq.1 hk, assoc_assocErase, if_pos rfl]
    · rw [setRegBit_flt, assoc_assocErase, hm, ite_self]
  · next h =>
    refine ⟨rfl, Changes.refl _ _ s, fun k _ => ?_, fun k _ hk hbit hcl => ?_, fun _ h => h⟩
    · cases hki : k == i with
      | false => simp
      | true => rw [beq_iff_eq.1 hki, ← hb]; revert h; cases srcBit a (32 * j + i) s <;> cases clearable (32 * j + i) s <;> simp
    · rw [beq_iff_eq.1 hk] at hbit hcl
      exact absurd (by rw [hb, hbit, hcl]; rfl) h

theorem cleared_sources (ha : clearedArray a) (hj : j < 4) (ks : List Nat) (hks : ∀ k ∈ ks, k < 32) (s : State) :
    Cleared a j (fun k => ks.contains k) s ((ks.map (· + 32 * j)).foldl (fun t k => clearSource a k t) s) := by
  induction ks generalizing s with
  | nil => exact Cleared.nothing (fun _ => rfl)
  | cons i ks ih =>
    have h1 : Cleared a j (· == i) s (clearSource a (32 * j + i) s) := cleared_clearSource hj (hks i (List.mem_cons_self ..))
    have h2 := h1.trans ha hj (ih (fun k hk => hks k (List.mem_cons_of_mem i hk)) (clearSource a (32 * j + i) s))
    rw [List.map_cons, List.foldl_cons, Nat.add_comm i]
    simpa only [List.contains_cons] using h2

/-- A write of 1s to word j of a source array clears the bits that may clear (R503). -/
theorem cleared_sourcesOf (ha : clearedArray a) (hj : j < 4) (bits : Word) (s : State) :
    Cleared a j bits.getLsbD s ((sourcesOf j bits).foldl (fun t k => clearSource a k t) s) := by
  have h := cleared_sources ha hj ((List.range 32).filter (fun k => bits.getLsbD k)) (fun k hk => List.mem_range.1 (List.mem_of_mem_filter hk)) s
  have hp : (fun k => ((List.range 32).filter (fun k => bits.getLsbD k)).contains k) = bits.getLsbD := by
    funext k
    by_cases hk : k < 32
    · rw [Bool.eq_iff_iff]; simp [hk]
    · simp [hk, BitVec.getLsbD_of_ge bits k (Nat.le_of_not_lt hk)]
  rwa [hp] at h

end

/-- Lifted reactions leave every word and count, and the queue. -/
theorem books_dropReactions (s : State) :
    books (dropReactions s) = { books s with react := s.flt.react.filter (fun e => srcBit Reg.FLT_SEV e.1 s) } := books_applyReactions _

/-- A W1C write of FLT_SEVj clears as any source array does, and lifts reactions (R503). -/
theorem clearSevere_cleared {j : Nat} (hj : j < 4) (bits : Word) (s : State) : ∃ u, Cleared Reg.FLT_SEV j bits.getLsbD s u ∧
    (∀ b, sourceReg b = true → reg (clearSevere j bits s) b = reg u b) ∧ (clearSevere j bits s).flt.counts = u.flt.counts ∧
    (clearSevere j bits s).pending = s.pending := by
  have hu := cleared_sourcesOf clearedArray.sev hj bits s
  have hb := books_dropReactions ((sourcesOf j bits).foldl (fun t k => clearSource Reg.FLT_SEV k t) s)
  refine ⟨_, hu, fun b hsb => ?_, congrArg Books.counts hb, (congrArg Books.pending hb).trans hu.changes.1⟩
  have h := congrFun (congrArg Books.regs hb) b
  simp only [books, hsb, if_true] at h
  exact h

/-- The bit of a source stays set in a word that software clears: it is set, and its source is active or has a rail error. -/
def heldBit (a : Nat) (j : Fin 4) (k : Nat) (s : State) : Prop :=
  (reg s a).getLsbD k = true ∧ ¬ ((reg s (Reg.FLT_ACT j)).getLsbD k = false ∧ (reg s (Reg.FLT_RAIL j)).getLsbD k = false)

theorem clearable_word (j : Fin 4) {k : Nat} (hk : k < 32) (s : State) :
    clearable (32 * j.val + k) s = true ↔ (reg s (Reg.FLT_ACT j)).getLsbD k = false ∧ (reg s (Reg.FLT_RAIL j)).getLsbD k = false := by
  simp [clearable, srcBit_word _ j k hk]

theorem clearable_of_not_held {a : Nat} {j : Fin 4} {k : Nat} (hk : k < 32) {s : State} (hb : (reg s a).getLsbD k = true) (h : ¬ heldBit a j k s) :
    clearable (32 * j.val + k) s = true := by
  rw [clearable_word j hk]
  simpa [heldBit, hb] using h

/-- A word after a clear beside which hardware sets bits (R3). -/
theorem Cleared.beside {a : Nat → Nat} {j : Fin 4} {w h : Word} {s t : State} (hc : Cleared a j (w &&& ~~~h).getLsbD s t) (k : Fin 32) :
    (reg t (a j) ||| h).getLsbD k = true ↔ h.getLsbD k = true ∨ ((reg s (a j)).getLsbD k = true ∧ (w.getLsbD k = false ∨ heldBit (a j) j k s)) := by
  rw [BitVec.getLsbD_or, hc.word k k.isLt, BitVec.getLsbD_and, BitVec.getLsbD_not, decide_eq_true k.isLt, heldBit, ← clearable_word j k.isLt]
  simp only [Bool.or_eq_true, Bool.and_eq_true, Bool.not_eq_true', Bool.true_and, Bool.and_eq_false_iff, Bool.not_eq_false']
  cases clearable (32 * j.val + k) s <;> simp <;> tauto

theorem reg_clearBeside_same (clear : Word → State → State) (a : Nat) (w h : Word) (s : State) :
    reg (clearBeside clear a w h s) a = reg (clear (w &&& ~~~h) s) a ||| h := reg_setReg_same _ _ _

theorem reg_clearBeside_other (clear : Word → State → State) {a b : Nat} (hb : b ≠ a) (w h : Word) (s : State) :
    reg (clearBeside clear a w h s) b = reg (clear (w &&& ~~~h) s) b := reg_setReg_other hb _ _

/-! ### An access that completes with OK -/

theorem reg_finish_ok (s : State) (a : Nat) : reg (Done.ok s).finish a = reg s a := rfl
theorem getF_finish_ok (s : State) (f : Field) : getF f (Done.ok s).finish = getF f s := rfl
theorem Changes.finish_ok (s : State) : Changes [.resp] (fun _ => False) s (Done.ok s).finish := Changes.withResp _ _

/-! ### SEVERE_CLEAR and STICKY_CLEAR -/

theorem severeClear_clause (j : Fin 4) (w h : Word) {s : State} (hc : coreUp s = true) : ∃ t, exec (.severeClear j w h) s = .next t ∧ t.answered .ok ∧
    (∀ k : Fin 32, (reg t (Reg.FLT_SEV j)).getLsbD k = true ↔
      h.getLsbD k = true ∨ ((reg s (Reg.FLT_SEV j)).getLsbD k = true ∧ (w.getLsbD k = false ∨ heldBit (Reg.FLT_SEV j) j k s))) ∧
    (∀ k : Fin 32, (w &&& ~~~h).getLsbD k = true → (reg s (Reg.FLT_SEV j)).getLsbD k = true → ¬ heldBit (Reg.FLT_SEV j) j k s →
      assoc (32 * j.val + k.val) t.flt.counts = none) ∧
    (∀ i : Fin 4, i ≠ j → reg t (Reg.FLT_SEV i) = reg s (Reg.FLT_SEV i)) ∧ (∀ i : Fin 4, reg t (Reg.FLT_STK i) = reg s (Reg.FLT_STK i)) ∧
    t.pending = s.pending := by
  obtain ⟨u, hu, hreg, hcounts, hpend⟩ := clearSevere_cleared j.isLt (w &&& ~~~h) s
  refine ⟨(Done.ok (clearBeside (clearSevere j.val) (Reg.FLT_SEV j.val) w h s)).finish, ?_, rfl, fun k => ?_, fun k hw hb hf => ?_,
    fun i hi => ?_, fun i => ?_, hpend⟩
  · show execSevereClear j w h s = _
    rw [execSevereClear, if_pos hc]; rfl
  · rw [reg_finish_ok, reg_clearBeside_same, hreg _ (sourceReg_sev j.isLt)]
    exact hu.beside k
  · show assoc _ (clearSevere j.val (w &&& ~~~h) s).flt.counts = none
    rw [hcounts]
    exact hu.counts k k.isLt hw hb (clearable_of_not_held k.isLt hb hf)
  · have hne : Reg.FLT_SEV i ≠ Reg.FLT_SEV j := fun e => hi (Fin.ext (by simp only [Reg.FLT_SEV] at e; omega))
    rw [reg_finish_ok, reg_clearBeside_other _ hne, hreg _ (sourceReg_sev i.isLt), hu.reg_other hne]
  · have hne : Reg.FLT_STK i ≠ Reg.FLT_SEV j := by simp only [Reg.FLT_STK, Reg.FLT_SEV]; omega
    rw [reg_finish_ok, reg_clearBeside_other _ hne, hreg _ (sourceReg_stk i.isLt), hu.reg_other hne]

theorem stickyClear_clause (j : Fin 4) (w h : Word) {s : State} (hc : coreUp s = true) : ∃ t, exec (.stickyClear j w h) s = .next t ∧ t.answered .ok ∧
    (∀ k : Fin 32, (reg t (Reg.FLT_STK j)).getLsbD k = true ↔
      h.getLsbD k = true ∨ ((reg s (Reg.FLT_STK j)).getLsbD k = true ∧ (w.getLsbD k = false ∨ heldBit (Reg.FLT_STK j) j k s))) ∧
    (∀ k : Fin 32, (w &&& ~~~h).getLsbD k = true → (reg s (Reg.FLT_STK j)).getLsbD k = true → ¬ heldBit (Reg.FLT_STK j) j k s →
      assoc (32 * j.val + k.val) t.flt.counts = none) ∧
    t.flt = { s.flt with counts := t.flt.counts } ∧ Changes [.flt, .resp] (oneOf [Reg.FLT_STK j]) s t := by
  have hu : Cleared Reg.FLT_STK j (w &&& ~~~h).getLsbD s (clearSticky j.val (w &&& ~~~h) s) := cleared_sourcesOf clearedArray.stk j.isLt _ s
  refine ⟨(Done.ok (clearBeside (clearSticky j.val) (Reg.FLT_STK j.val) w h s)).finish, ?_, rfl, fun k => ?_, fun k hw hb hf => ?_,
    hu.flt, ((hu.changes.trans (Changes.setReg _ _ _)).trans (Changes.finish_ok _)).mono (by simp) (by simp [oneOf])⟩
  · show execStickyClear j w h s = _
    rw [execStickyClear, if_pos hc]; rfl
  · rw [reg_finish_ok, reg_clearBeside_same]
    exact hu.beside k
  · exact hu.counts k k.isLt hw hb (clearable_of_not_held k.isLt hb hf)

/-! ### CLRALL -/

theorem clearedArray.index_eq {a b : Nat → Nat} (ha : clearedArray a) (hb : clearedArray b) {i j : Nat} (hi : i < 4) (hj : j < 4) (h : a i = b j) :
    i = j := by
  rcases ha with rfl | rfl <;> rcases hb with rfl | rfl <;> simp only [Reg.FLT_STK, Reg.FLT_SEV] at h <;> omega

/-- What clearing whole words of the source arrays, at the addresses of a list, leaves. -/
structure WordsCleared (as : List Nat) (s t : State) : Prop where
  pending : t.pending = s.pending
  lines : ∀ n, n / 32 < 4 → clearable n t = clearable n s
  word : ∀ a i k, clearedArray a → i < 4 → k < 32 →
    (reg t (a i)).getLsbD k = ((reg s (a i)).getLsbD k && !(as.contains (a i) && clearable (32 * i + k) s))
  counts : ∀ a i k, clearedArray a → i < 4 → k < 32 → a i ∈ as → (reg s (a i)).getLsbD k = true → clearable (32 * i + k) s = true →
    assoc (32 * i + k) t.flt.counts = none
  gone : ∀ m, assoc m s.flt.counts = none → assoc m t.flt.counts = none

theorem WordsCleared.nothing (s : State) : WordsCleared [] s s :=
  ⟨rfl, fun _ _ => rfl, fun _ _ _ _ _ _ => by simp, fun _ _ _ _ _ _ h => by simp at h, fun _ h => h⟩

theorem WordsCleared.trans {as bs : List Nat} {s t u : State} (h1 : WordsCleared as s t) (h2 : WordsCleared bs t u) : WordsCleared (as ++ bs) s u := by
  have hc {i k : Nat} (hi : i < 4) (hk : k < 32) : clearable (32 * i + k) t = clearable (32 * i + k) s := h1.lines _ (by omega)
  refine ⟨h2.pending.trans h1.pending, fun n hn => (h2.lines n hn).trans (h1.lines n hn), fun a i k ha hi hk => ?_,
    fun a i k ha hi hk hm hb hcl => ?_, fun m hm => h2.gone m (h1.gone m hm)⟩
  · rw [h2.word a i k ha hi hk, h1.word a i k ha hi hk, hc hi hk, List.contains_append]
    cases as.contains (a i) <;> cases bs.contains (a i) <;> simp
  · by_cases has : a i ∈ as
    · exact h2.gone _ (h1.counts a i k ha hi hk has hb hcl)
    · have hbit : (reg t (a i)).getLsbD k = true := by
        rw [h1.word a i k ha hi hk, hb, List.contains_eq_mem, decide_eq_false has]; rfl
      exact h2.counts a i k ha hi hk ((List.mem_append.1 hm).resolve_left has) hbit ((hc hi hk).trans hcl)

/-- A clear of one whole word, up to what the books do not show. -/
theorem WordsCleared.of_cleared {a : Nat → Nat} (ha : clearedArray a) {j : Nat} (hj : j < 4) {s u t : State}
    (hu : Cleared a j (0xFFFFFFFF#32).getLsbD s u) (hreg : ∀ b, sourceReg b = true → reg t b = reg u b)
    (hcounts : t.flt.counts = u.flt.counts) (hpend : t.pending = s.pending) : WordsCleared [a j] s t := by
  have ones {k : Nat} (hk : k < 32) : (0xFFFFFFFF#32).getLsbD k = true := by
    rw [show 0xFFFFFFFF#32 = BitVec.allOnes 32 from rfl, BitVec.getLsbD_allOnes, decide_eq_true hk]
  refine ⟨hpend, fun n hn => ?_, fun b i k hb hi hk => ?_, fun b i k hb hi hk hm hbit hcl => ?_, fun m hm => hcounts ▸ hu.gone m hm⟩
  · exact (clearable_congr (hreg _ (sourceReg_act hn)) (hreg _ (sourceReg_rail hn))).trans (hu.clearable_eq ha hj hn)
  · rw [hreg _ (hb.sourceReg hi)]
    by_cases he : b i = a j
    · rw [he, hu.word k hk, ones hk, hb.index_eq ha hi hj he]; simp
    · rw [hu.reg_other he]; simp [he]
  · have he : b i = a j := List.mem_singleton.1 hm
    have hij := hb.index_eq ha hi hj he
    rw [hcounts, hij]
    exact hu.counts k hk (ones hk) (he ▸ hbit) (hij ▸ hcl)

/-- The addresses of the words that CLRALL clears, in its order. -/
def clearOrder (js : List Nat) : List Nat := js.flatMap (fun j => [Reg.FLT_STK j, Reg.FLT_SEV j])

theorem wordsCleared_pair {j : Nat} (hj : j < 4) (s : State) :
    WordsCleared [Reg.FLT_STK j, Reg.FLT_SEV j] s (clearSevere j 0xFFFFFFFF#32 (clearSticky j 0xFFFFFFFF#32 s)) := by
  have hstk : Cleared Reg.FLT_STK j (0xFFFFFFFF#32).getLsbD s (clearSticky j 0xFFFFFFFF#32 s) := cleared_sourcesOf clearedArray.stk hj _ s
  obtain ⟨u, hu, hreg, hcounts, hpend⟩ := clearSevere_cleared hj 0xFFFFFFFF#32 (clearSticky j 0xFFFFFFFF#32 s)
  exact (WordsCleared.of_cleared clearedArray.stk hj hstk (fun _ _ => rfl) rfl hstk.changes.1).trans
    (WordsCleared.of_cleared clearedArray.sev hj hu hreg hcounts hpend)

theorem wordsCleared_clearAll (s : State) : WordsCleared (clearOrder (List.range 4)) s (clearAll s) := by
  have h (js : List Nat) (hjs : ∀ j ∈ js, j < 4) (t : State) :
      WordsCleared (clearOrder js) t (js.foldl (fun t j => clearSevere j 0xFFFFFFFF#32 (clearSticky j 0xFFFFFFFF#32 t)) t) := by
    induction js generalizing t with
    | nil => exact WordsCleared.nothing t
    | cons j js ih => exact (wordsCleared_pair (hjs j (List.mem_cons_self ..)) t).trans (ih (fun i hi => hjs i (List.mem_cons_of_mem j hi)) _)
  exact h _ (fun j hj => List.mem_range.1 hj) s

theorem mem_clearOrder {a : Nat → Nat} (ha : clearedArray a) (j : Fin 4) : a j ∈ clearOrder (List.range 4) := by
  rcases ha with rfl | rfl <;> simp only [clearOrder, List.mem_flatMap] <;> exact ⟨j, List.mem_range.2 j.isLt, by simp⟩

theorem clrall_clause {s : State} (hc : coreUp s = true) : ∃ t, exec .clrall s = .next t ∧ t.answered .ok ∧
    (∀ a, clearedArray a → ∀ (j : Fin 4) (k : Fin 32), (reg t (a j)).getLsbD k = true ↔ heldBit (a j) j k s) ∧
    (∀ a, clearedArray a → ∀ (j : Fin 4) (k : Fin 32), (reg s (a j)).getLsbD k = true → ¬ heldBit (a j) j k s →
      assoc (32 * j.val + k.val) t.flt.counts = none) ∧ t.pending = s.pending := by
  have h := wordsCleared_clearAll s
  refine ⟨(Done.ok (clearAll s)).finish, ?_, rfl, fun a ha j k => ?_, fun a ha j k hb hf => ?_, h.pending⟩
  · show execClrall s = _
    rw [execClrall, if_pos hc]; rfl
  · rw [reg_finish_ok, h.word a j k ha j.isLt k.isLt, List.contains_eq_mem, decide_eq_true (mem_clearOrder ha j), Bool.true_and, Bool.and_eq_true,
      heldBit, ← clearable_word j k.isLt]
    simp
  · exact h.counts a j k ha j.isLt k.isLt (mem_clearOrder ha j) hb (clearable_of_not_held k.isLt hb hf)

end Sys2Proof.Machine
end

