-- ==== Sys2Proof/Proofs/SourceClears.lean ====
section
/-!
PROOFS. The configuration write and the injection (R496, R507, R508), and the statement O50.
-/
namespace Sys2Proof.Machine

/-! ### FLT_CFG_WRITE -/

theorem execFltCfgWrite_free {n : Fin 128} {w : Word} {s : State} (hc : coreUp s = true) (hl : bit Reg.SYS_LOCKSTAT_LFLT s = false)
    (hw : w &&& 0xFFFF000C#32 = 0#32) :
    execFltCfgWrite n w s = if 4 < getBits w 12 3 ∨ getBits w 4 4 = 0 then .next (upset s) else
      (Done.ok (setReg (Reg.FLT_CFG n.val) w { s with flt := { s.flt with counts := assocErase n.val s.flt.counts } })).out := by
  simp only [execFltCfgWrite, writeFltCfg, hc, hl, hw, Bool.false_eq_true, if_false, ne_eq, not_true, Bool.true_eq_false]

theorem fltCfgWrite_written {n : Fin 128} {w : Word} {s : State} (hc : coreUp s = true) (hl : bit Reg.SYS_LOCKSTAT_LFLT s = false)
    (hw : w &&& 0xFFFF000C#32 = 0#32) (hr : getBits w 12 3 ≤ 4) (hn : getBits w 4 4 ≠ 0) :
    ∃ t, exec (.fltCfgWrite n w) s = .next t ∧ t.answered .ok ∧ reg t (Reg.FLT_CFG n) = w ∧ assoc n.val t.flt.counts = none ∧
      Changes [.flt, .resp] (oneOf [Reg.FLT_CFG n]) s t := by
  refine ⟨_, (execFltCfgWrite_free hc hl hw).trans (if_neg (not_or.2 ⟨Nat.not_lt.2 hr, hn⟩)), rfl, ?_, ?_,
    (((Changes.withFlt s _).trans (Changes.setReg _ _ _)).trans (Changes.finish_ok _)).mono (by simp) (by simp [oneOf])⟩
  · rw [reg_finish_ok, reg_setReg_same]
  · exact (assoc_assocErase n.val n.val s.flt.counts).trans (if_pos rfl)

theorem fltCfgWrite_locked {n : Fin 128} {w : Word} {s : State} (hc : coreUp s = true) (hl : bit Reg.SYS_LOCKSTAT_LFLT s = true) :
    ∃ t, exec (.fltCfgWrite n w) s = .next t ∧ t.answered .ok ∧ getF Reg.SYS_LOCKSTAT_VIOL t = min (getF Reg.SYS_LOCKSTAT_VIOL s + 1) 255 ∧
      getF Reg.SYS_LOCKSTAT_ADDR t = Reg.FLT_CFG n / 4 ∧ Changes [.resp] (oneOf [Reg.SYS_LOCKSTAT]) s t := by
  have he : execFltCfgWrite n w s = (Done.ok (countViolation (Reg.FLT_CFG n) s)).out := by
    simp only [execFltCfgWrite, writeFltCfg, hc, hl, if_true, Bool.true_eq_false, if_false]
  have hv : getF Reg.SYS_LOCKSTAT_VIOL (countViolation (Reg.FLT_CFG n) s) = min (getF Reg.SYS_LOCKSTAT_VIOL s + 1) 255 :=
    (getF_setF_beside _ _ _ _ (by decide) (by decide)).trans (getF_incSat _ s (by decide))
  have ha : getF Reg.SYS_LOCKSTAT_ADDR (countViolation (Reg.FLT_CFG n) s) = Reg.FLT_CFG n / 4 :=
    (getF_setF_same _ _ _ (by decide)).trans (Nat.mod_eq_of_lt (by simp only [Reg.FLT_CFG, Reg.SYS_LOCKSTAT_ADDR]; omega))
  exact ⟨_, he, rfl, hv, ha, (((Changes.incSat _ s).trans (Changes.setF _ _ _)).trans (Changes.finish_ok _)).mono (by simp)
    (by simp [oneOf, Reg.SYS_LOCKSTAT_VIOL, Reg.SYS_LOCKSTAT_ADDR])⟩

theorem fltCfgWrite_reserved {n : Fin 128} {w : Word} {s : State} (hc : coreUp s = true) (hl : bit Reg.SYS_LOCKSTAT_LFLT s = false)
    (hw : w &&& 0xFFFF000C#32 ≠ 0#32) : exec (.fltCfgWrite n w) s = .fault (.reservedWrite (Reg.FLT_CFG n)) := by
  show execFltCfgWrite n w s = _
  simp only [execFltCfgWrite, hc, hl, Bool.true_eq_false, Bool.false_eq_true, if_false, if_pos hw]

theorem fltCfgWrite_hostError {n : Fin 128} {w : Word} {s : State} (hc : coreUp s = true) (hl : bit Reg.SYS_LOCKSTAT_LFLT s = false)
    (hw : w &&& 0xFFFF000C#32 = 0#32) (he : 4 < getBits w 12 3 ∨ getBits w 4 4 = 0) :
    ∃ t, exec (.fltCfgWrite n w) s = .next t ∧ Sheltered s t :=
  ⟨_, (execFltCfgWrite_free hc hl hw).trans (if_pos he), upset_sheltered s⟩

/-! ### The start of an injection -/

/-- An injection may not run in full mode on a source of the safe state in FIELD (R507). -/
def injectionDenied (n : Nat) (full : Bool) (s : State) : Prop := full = true ∧ lifecycle s = 2 ∧ getF (Reg.FLT_CFG_SVR n) s = 4

/-- The state in which an injection has begun: its registers and its end. -/
def injectionBegun (n d : Nat) (full : Bool) (s : State) : State :=
  let s1 := s |> setB Reg.FLT_INJCTL_MODE full |> setF Reg.FLT_INJCTL_SRC n |> setF Reg.FLT_INJCTL_DUR d
    |> setB Reg.FLT_INJSTAT_ACTIVE true |> setF Reg.FLT_INJSTAT_SRC n |> incSat Reg.FLT_INJSTAT_INJCNT
  { s1 with flt := { s1.flt with injEnd := s.now + d * 100000 } }

theorem getF_withFlt (f : Field) (x : FltState) (s : State) : getF f { s with flt := x } = getF f s := rfl

theorem injectionGo_denied {n d : Nat} {s : State} (h : injectionDenied n true s) : injectionGo n d true s = Done.refuse .lifecycleDenied s := by
  obtain ⟨-, hl, hr⟩ := h
  unfold injectionGo
  rw [if_pos (by simp [hl, hr])]

theorem injectionDenied_iff (n : Nat) (full : Bool) (s : State) :
    (full && lifecycle s == 2 && getF (Reg.FLT_CFG_SVR n) s == 4) = true ↔ injectionDenied n full s := by
  simp [injectionDenied, and_assoc]

theorem injectionGo_busy {n d : Nat} {full : Bool} {s : State} (h : ¬ injectionDenied n full s) (ha : bit Reg.FLT_INJSTAT_ACTIVE s = true) :
    injectionGo n d full s = Done.busy (s.flt.injEnd - s.now) s := by
  unfold injectionGo
  rw [if_neg (mt (injectionDenied_iff n full s).1 h), if_pos ha]

theorem injectionGo_begins {n d : Nat} {full : Bool} {s : State} (h : ¬ injectionDenied n full s) (ha : bit Reg.FLT_INJSTAT_ACTIVE s = false) :
    injectionGo n d full s = Done.ok (injectEvent n full (injectionBegun n d full s)) := by
  unfold injectionGo
  rw [if_neg (mt (injectionDenied_iff n full s).1 h), if_neg (by simp [ha])]
  rfl

theorem injectionBegun_changes (n d : Nat) (full : Bool) (s : State) :
    Changes [.flt] (oneOf [Reg.FLT_INJCTL, Reg.FLT_INJSTAT]) s (injectionBegun n d full s) := by
  have h := (Changes.setB Reg.FLT_INJCTL_MODE full s).trans <| (Changes.setF Reg.FLT_INJCTL_SRC n _).trans <|
    (Changes.setF Reg.FLT_INJCTL_DUR d _).trans <| (Changes.setB Reg.FLT_INJSTAT_ACTIVE true _).trans <|
    (Changes.setF Reg.FLT_INJSTAT_SRC n _).trans <| (Changes.incSat Reg.FLT_INJSTAT_INJCNT _).trans <|
    Changes.withFlt _ { s.flt with injEnd := s.now + d * 100000 }
  exact h.mono (by simp) (fun a => by
    simp only [oneOf, List.mem_cons, List.not_mem_nil, or_false]
    rintro (rfl | rfl | rfl | rfl | rfl | rfl | ⟨⟩)
    · exact Or.inl rfl
    · exact Or.inl rfl
    · exact Or.inl rfl
    · exact Or.inr rfl
    · exact Or.inr rfl
    · exact Or.inr rfl)

theorem injectionBegun_flt (n d : Nat) (full : Bool) (s : State) :
    (injectionBegun n d full s).flt = { s.flt with injEnd := s.now + d * 100000 } := by
  simp only [injectionBegun, incSat_flt, setF_flt, setB_flt]

theorem reg_injectionBegun {a : Nat} (h1 : a ≠ Reg.FLT_INJCTL) (h2 : a ≠ Reg.FLT_INJSTAT) (n d : Nat) (full : Bool) (s : State) :
    reg (injectionBegun n d full s) a = reg s a :=
  (injectionBegun_changes n d full s).2.2 a (by simp [oneOf, h1, h2])

theorem getF_begun_active (n d : Nat) (full : Bool) (s : State) : getF Reg.FLT_INJSTAT_ACTIVE (injectionBegun n d full s) = 1 :=
  (getF_withFlt ..).trans <| (getF_setF_beside Reg.FLT_INJSTAT_INJCNT Reg.FLT_INJSTAT_ACTIVE _ _ (by decide) (by decide)).trans <|
    (getF_setF_beside Reg.FLT_INJSTAT_SRC Reg.FLT_INJSTAT_ACTIVE _ _ (by decide) (by decide)).trans <| getF_setF_same _ _ _ (by decide)

theorem getF_begun_src {n : Nat} (hn : n < 128) (d : Nat) (full : Bool) (s : State) : getF Reg.FLT_INJSTAT_SRC (injectionBegun n d full s) = n :=
  (getF_withFlt ..).trans <| (getF_setF_beside Reg.FLT_INJSTAT_INJCNT Reg.FLT_INJSTAT_SRC _ _ (by decide) (by decide)).trans <|
    (getF_setF_same _ _ _ (by decide)).trans (Nat.mod_eq_of_lt hn)

/-! ### INJECTION_GO -/

/-- What an injection needs beside the register's own refusals (R6, R510). -/
def injectionFair (n : Fin 128) (d : Fin 256) (s : State) : Prop := d.val ≠ 0 ∧ bit (Reg.FLT_CFG_EN n) s = true

theorem injectionGo_out {n : Fin 128} {d : Fin 256} {full : Bool} {s : State} (hc : coreUp s = true)
    (h : injectionFair n d s ∨ (injectionGo n d full s).status ≠ .ok) : exec (.injectionGo n d full) s = (injectionGo n d full s).out := by
  show execInjectionGo n d full s = _
  simp only [execInjectionGo, hc, Bool.true_eq_false, if_false]
  refine if_neg (fun ⟨hu, hok⟩ => ?_)
  rcases h with ⟨hd, he⟩ | hr
  · exact hu.elim hd (fun hf => by simp [he] at hf)
  · exact hr hok

/-- The injection of source n runs from s on for d times 100 us; no reaction is taken, and no source has become severe. -/
def injectionRuns (n : Fin 128) (d : Fin 256) (s t : State) : Prop :=
  t.answered .ok ∧ bit Reg.FLT_INJSTAT_ACTIVE t = true ∧ getF Reg.FLT_INJSTAT_SRC t = n.val ∧ t.flt.injEnd = s.now + d.val * 100000 ∧
    t.flt.react = s.flt.react ∧ (∀ i : Fin 4, reg t (Reg.FLT_SEV i) = reg s (Reg.FLT_SEV i)) ∧ t.pending = s.pending

/-- An injection that enters no more in the books than its sticky bit and its count. -/
theorem injectionRuns_of_books {n : Fin 128} {d : Fin 256} {full : Bool} {s x : State} {c : List (Nat × Nat × Nat)}
    (h : books x = books (logged n c (injectionBegun n d full s))) :
    injectionRuns n d s (Done.ok x).finish ∧ srcBit Reg.FLT_STK n (Done.ok x).finish = true ∧ (Done.ok x).finish.flt.counts = c := by
  have hinj : reg x Reg.FLT_INJSTAT = reg (injectionBegun n d full s) Reg.FLT_INJSTAT :=
    (reg_of_books h (by decide)).trans (reg_logged (by decide) (by simp only [Reg.FLT_STK, Reg.FLT_INJSTAT]; omega) _ _)
  have hsev (i : Fin 4) : reg x (Reg.FLT_SEV i) = reg s (Reg.FLT_SEV i) := by
    rw [reg_of_books h (sourceReg_sev i.isLt), reg_logged, reg_injectionBegun] <;>
      simp only [Reg.FLT_SEV, Reg.FLT_STAT, Reg.FLT_STK, Reg.FLT_INJCTL, Reg.FLT_INJSTAT, ne_eq] <;> omega
  have hactive : bit Reg.FLT_INJSTAT_ACTIVE x = true := by
    simp only [bit, getF, Reg.FLT_INJSTAT_ACTIVE, hinj]
    exact beq_iff_eq.2 (getF_begun_active n d full s)
  have hsrc : getF Reg.FLT_INJSTAT_SRC x = n.val := by
    simp only [getF, Reg.FLT_INJSTAT_SRC, hinj]
    exact getF_begun_src n.isLt d full s
  have hend : x.flt.injEnd = s.now + d.val * 100000 := by rw [injEnd_of_books h, logged_flt, injectionBegun_flt]
  have hreact : x.flt.react = s.flt.react := by rw [react_of_books h, logged_flt, injectionBegun_flt]
  have hpend : x.pending = s.pending := by rw [pending_of_books h, logged_pending, (injectionBegun_changes n d full s).1]
  exact ⟨⟨rfl, hactive, hsrc, hend, hreact, hsev, hpend⟩, (srcBit_of_books h (sourceReg_stk (by omega))).trans (srcBit_logged _ _ _),
    (counts_of_books h).trans (by rw [logged_flt])⟩

theorem nextCount_congr {n : Nat} {s t : State} (hr : reg t (Reg.FLT_CFG n) = reg s (Reg.FLT_CFG n)) (hc : t.flt.counts = s.flt.counts)
    (hn : t.now = s.now) : nextCount n t = nextCount n s := by
  unfold nextCount moscTime getF
  rw [show (Reg.FLT_CFG_WIN n).addr = Reg.FLT_CFG n from rfl, hr, hc, hn]

section
variable {n : Fin 128} {d : Fin 256} {full : Bool} {s : State}

theorem cfg_injectionBegun : reg (injectionBegun n d full s) (Reg.FLT_CFG n) = reg s (Reg.FLT_CFG n) :=
  reg_injectionBegun (by simp only [Reg.FLT_CFG, Reg.FLT_INJCTL]; omega) (by simp only [Reg.FLT_CFG, Reg.FLT_INJSTAT]; omega) _ _ _ _

theorem nextCount_injectionBegun : nextCount n (injectionBegun n d full s) = nextCount n s :=
  nextCount_congr cfg_injectionBegun (by rw [injectionBegun_flt]) ((injectionBegun_changes n d full s).2.1 .now (by simp))

theorem sev_injectionBegun : srcBit Reg.FLT_SEV n (injectionBegun n d full s) = srcBit Reg.FLT_SEV n s :=
  srcBit_of_reg (reg_injectionBegun (by simp only [Reg.FLT_SEV, Reg.FLT_INJCTL]; omega) (by simp only [Reg.FLT_SEV, Reg.FLT_INJSTAT]; omega) _ _ _ _)

theorem enabled_injectionBegun (h : injectionFair n d s) : bit (Reg.FLT_CFG_EN n) (injectionBegun n d full s) = true := by
  simpa only [bit, getF, Reg.FLT_CFG_EN, cfg_injectionBegun] using h.2

theorem threshold_injectionBegun : getF (Reg.FLT_CFG_N n) (injectionBegun n d full s) = getF (Reg.FLT_CFG_N n) s := by
  simp only [getF, Reg.FLT_CFG_N, cfg_injectionBegun]

theorem injectEvent_report (hl : n.val ∉ s.flt.lines) : injectEvent n false (injectionBegun n d false s) =
    eventAlarm n true (presentCount n (injectionBegun n d false s)) (logged n s.flt.counts (injectionBegun n d false s)) := by
  have hlog := logged_same n (injectionBegun n d false s)
  rw [injectionBegun_flt] at hlog
  unfold injectEvent
  rw [injectionBegun_flt, if_neg (by rwa [natMem_iff]), if_neg Bool.false_ne_true, hlog]

theorem injectEvent_full (hl : n.val ∉ s.flt.lines) : injectEvent n true (injectionBegun n d true s) = countEvent n (injectionBegun n d true s) := by
  unfold injectEvent
  rw [injectionBegun_flt, if_neg (by rwa [natMem_iff]), if_pos rfl]

theorem injectEvent_active (hl : n.val ∈ s.flt.lines) : injectEvent n full (injectionBegun n d full s) =
    setB Reg.FLT_INJSTAT_REAL true (injectionBegun n d full s) := by
  unfold injectEvent
  rw [injectionBegun_flt, if_pos (by rwa [natMem_iff])]

theorem injection_denied (hc : coreUp s = true) (h : injectionDenied n true s) :
    ∃ t, exec (.injectionGo n d true) s = .next t ∧ t.answered .lifecycleDenied ∧ Changes [.resp] (fun _ => False) s t := by
  have hg := injectionGo_denied (d := d) h
  refine ⟨(Done.refuse .lifecycleDenied s).finish, ?_, rfl, Changes.withResp _ _⟩
  rw [injectionGo_out hc (Or.inr (by rw [hg]; exact nofun)), hg]; rfl

theorem injection_busy (hc : coreUp s = true) (h : ¬ injectionDenied n full s) (ha : bit Reg.FLT_INJSTAT_ACTIVE s = true) :
    ∃ t, exec (.injectionGo n d full) s = .next t ∧ t.resp = some ⟨.refusedBusy, [], s.flt.injEnd - s.now⟩ ∧ Changes [.resp] (fun _ => False) s t := by
  have hg := injectionGo_busy (d := d) h ha
  refine ⟨(Done.busy (s.flt.injEnd - s.now) s).finish, ?_, rfl, Changes.withResp _ _⟩
  rw [injectionGo_out hc (Or.inr (by rw [hg]; exact nofun)), hg]; rfl

theorem injection_hostError (hc : coreUp s = true) (hf : ¬ injectionFair n d s) (h : ¬ injectionDenied n full s)
    (ha : bit Reg.FLT_INJSTAT_ACTIVE s = false) : ∃ t, exec (.injectionGo n d full) s = .next t ∧ Sheltered s t := by
  refine ⟨upset s, ?_, upset_sheltered s⟩
  have hu : d.val = 0 ∨ bit (Reg.FLT_CFG_EN n) s = false := by
    rw [injectionFair, not_and_or, not_not, Bool.not_eq_true] at hf
    exact hf
  show execInjectionGo n d full s = _
  simp only [execInjectionGo, hc, Bool.true_eq_false, if_false]
  exact if_pos ⟨hu, by rw [injectionGo_begins h ha]; rfl⟩

/-- An injection that starts leaves what its event does to the state in which it has begun. -/
theorem injection_starts (hc : coreUp s = true) (hf : injectionFair n d s) (h : ¬ injectionDenied n full s) (ha : bit Reg.FLT_INJSTAT_ACTIVE s = false) :
    exec (.injectionGo n d full) s = .next (Done.ok (injectEvent n full (injectionBegun n d full s))).finish := by
  rw [injectionGo_out hc (Or.inl hf), injectionGo_begins h ha]; rfl

theorem injection_reports (hc : coreUp s = true) (hf : injectionFair n d s) (ha : bit Reg.FLT_INJSTAT_ACTIVE s = false) (hl : n.val ∉ s.flt.lines) :
    ∃ t, exec (.injectionGo n d false) s = .next t ∧ injectionRuns n d s t ∧ srcBit Reg.FLT_STK n t = true ∧ t.flt.counts = s.flt.counts ∧
      getF Reg.FLT_STAT_LAST t = n.val ∧ (legacyMode s = false ∧ s.hst.spi ≠ 1 → assoc n.val s.flt.alarmed = none →
        getF Reg.FLT_ALCNT_ASEQ t = (getF Reg.FLT_ALCNT_ASEQ s + 1) % 65536) := by
  have hbooks : books (injectEvent n false (injectionBegun n d false s)) = books (logged n s.flt.counts (injectionBegun n d false s)) := by
    rw [injectEvent_report hl, books_eventAlarm]
  obtain ⟨hruns, hstk, hcounts⟩ := injectionRuns_of_books hbooks
  refine ⟨_, injection_starts hc hf (fun h => nomatch h.1) ha, hruns, hstk, hcounts, ?_, fun hs hal => ?_⟩
  · rw [getF_finish_ok, injectEvent_report hl, last_eventAlarm, getF_logged_last n.isLt]
  · have hreg {a : Nat} (h1 : a ≠ Reg.FLT_STAT) (h2 : a < Reg.FLT_STK 0) (h3 : a ≠ Reg.FLT_INJCTL) (h4 : a ≠ Reg.FLT_INJSTAT) :
        reg (logged n s.flt.counts (injectionBegun n d false s)) a = reg s a := by
      rw [reg_logged h1 (by simp only [Reg.FLT_STK] at h2 ⊢; omega), reg_injectionBegun h3 h4]
    have hlegacy : legacyMode (logged n s.flt.counts (injectionBegun n d false s)) = false := by
      rw [legacyMode, bit, getF, hreg (by decide) (by decide) (by decide) (by decide)]
      exact hs.1
    have hspi : (logged n s.flt.counts (injectionBegun n d false s)).hst.spi ≠ 1 := by
      rw [logged_hst, (injectionBegun_changes n d false s).2.1 .hst (by simp)]
      exact hs.2
    have halarmed : assoc n.val (logged n s.flt.counts (injectionBegun n d false s)).flt.alarmed = none := by
      rw [logged_flt, injectionBegun_flt]
      exact hal
    have haseq : getF Reg.FLT_ALCNT_ASEQ (logged n s.flt.counts (injectionBegun n d false s)) = getF Reg.FLT_ALCNT_ASEQ s := by
      rw [getF, getF, hreg (by decide) (by decide) (by decide) (by decide)]
    rw [getF_finish_ok, injectEvent_report hl, aseq_eventAlarm n true _ halarmed ⟨hlegacy, hspi⟩, haseq]

theorem injection_counts (hc : coreUp s = true) (hf : injectionFair n d s) (h : ¬ injectionDenied n true s) (ha : bit Reg.FLT_INJSTAT_ACTIVE s = false)
    (hl : n.val ∉ s.flt.lines) (hm : srcBit Reg.FLT_SEV n s = true ∨ (nextCount n s).1 < getF (Reg.FLT_CFG_N n) s) :
    ∃ t, exec (.injectionGo n d true) s = .next t ∧ injectionRuns n d s t ∧ srcBit Reg.FLT_STK n t = true ∧
      assoc n.val t.flt.counts = some (nextCount n s) := by
  have hmild : srcBit Reg.FLT_SEV n (injectionBegun n d true s) = true ∨
      (nextCount n (injectionBegun n d true s)).1 < getF (Reg.FLT_CFG_N n) (injectionBegun n d true s) := by
    rwa [sev_injectionBegun, nextCount_injectionBegun, threshold_injectionBegun]
  have hbooks : books (injectEvent n true (injectionBegun n d true s)) = books (counted n (injectionBegun n d true s)) := by
    rw [injectEvent_full hl, books_countEvent (enabled_injectionBegun hf) hmild]
  obtain ⟨hruns, hstk, hcounts⟩ := injectionRuns_of_books hbooks
  refine ⟨_, injection_starts hc hf h ha, hruns, hstk, ?_⟩
  rw [hcounts, assoc_assocPut, if_pos rfl, nextCount_injectionBegun]

theorem injection_severe (hc : coreUp s = true) (hf : injectionFair n d s) (h : ¬ injectionDenied n true s) (ha : bit Reg.FLT_INJSTAT_ACTIVE s = false)
    (hl : n.val ∉ s.flt.lines) (hs : srcBit Reg.FLT_SEV n s = false) (hn : getF (Reg.FLT_CFG_N n) s ≤ (nextCount n s).1) :
    ∃ t, exec (.injectionGo n d true) s = .next t ∧ t.answered .ok ∧ t.flt.injEnd = s.now + d.val * 100000 ∧ srcBit Reg.FLT_STK n t = true ∧
      srcBit Reg.FLT_SEV n t = true ∧ t.flt.react = assocPut n.val (takenReaction n (getF (Reg.FLT_CFG_SVR n) s)) s.flt.react ∧
      assoc n.val t.flt.counts = some (nextCount n s) ∧ t.pending = s.pending := by
  have h4 : n.val / 32 < 4 := by omega
  have hcount : getF (Reg.FLT_CFG_N n) (injectionBegun n d true s) ≤ (nextCount n (injectionBegun n d true s)).1 := by
    rwa [threshold_injectionBegun, nextCount_injectionBegun]
  have hsvr : getF (Reg.FLT_CFG_SVR n) (counted n (injectionBegun n d true s)) = getF (Reg.FLT_CFG_SVR n) s := by
    simp only [getF, Reg.FLT_CFG_SVR, counted]
    rw [reg_logged, cfg_injectionBegun] <;> simp only [Reg.FLT_CFG, Reg.FLT_STAT, Reg.FLT_STK, ne_eq] <;> omega
  have hbooks := books_becomeSevere n (nextCount n (injectionBegun n d true s)).1 (counted n (injectionBegun n d true s))
  rw [← countEvent_severe (enabled_injectionBegun hf) (sev_injectionBegun.trans hs) hcount, ← injectEvent_full hl, hsvr] at hbooks
  rw [injection_starts hc hf h ha]
  generalize injectEvent n true (injectionBegun n d true s) = x at hbooks
  have hstk : srcBit Reg.FLT_STK n x = true :=
    (srcBit_of_books hbooks (sourceReg_stk h4)).trans <|
      (srcBit_of_reg (reg_severed (by simp only [Reg.FLT_STK, Reg.FLT_SEV]; omega) _ _)).trans (srcBit_logged _ _ _)
  have hsev : srcBit Reg.FLT_SEV n x = true := (srcBit_of_books hbooks (sourceReg_sev h4)).trans (srcBit_setSrc_same _ _ _ _)
  have hend : x.flt.injEnd = s.now + d.val * 100000 := by rw [injEnd_of_books hbooks, severed_flt, counted, logged_flt, injectionBegun_flt]
  have hreact : x.flt.react = assocPut n.val (takenReaction n (getF (Reg.FLT_CFG_SVR n) s)) s.flt.react := by
    rw [react_of_books hbooks, severed_flt, counted, logged_flt, injectionBegun_flt]
  have hcounts : assoc n.val x.flt.counts = some (nextCount n s) := by
    rw [counts_of_books hbooks, severed_flt, counted, logged_flt, nextCount_injectionBegun]
    exact (assoc_assocPut _ _ _ _).trans (if_pos rfl)
  have hpend : x.pending = s.pending := by
    rw [pending_of_books hbooks, severed_pending, counted, logged_pending, (injectionBegun_changes n d true s).1]
  exact ⟨_, rfl, rfl, hend, hstk, hsev, hreact, hcounts, hpend⟩

theorem injection_real (hc : coreUp s = true) (hf : injectionFair n d s) (h : ¬ injectionDenied n full s) (ha : bit Reg.FLT_INJSTAT_ACTIVE s = false)
    (hl : n.val ∈ s.flt.lines) : ∃ t, exec (.injectionGo n d full) s = .next t ∧ injectionRuns n d s t ∧ bit Reg.FLT_INJSTAT_REAL t = true ∧
      Changes [.flt, .resp] (oneOf [Reg.FLT_INJCTL, Reg.FLT_INJSTAT]) s t := by
  have hch : Changes [.flt] (oneOf [Reg.FLT_INJCTL, Reg.FLT_INJSTAT]) s (setB Reg.FLT_INJSTAT_REAL true (injectionBegun n d full s)) :=
    ((injectionBegun_changes n d full s).trans (Changes.setB _ _ _)).mono (by simp) (by simp [oneOf, Reg.FLT_INJSTAT_REAL])
  have hend : (setB Reg.FLT_INJSTAT_REAL true (injectionBegun n d full s)).flt.injEnd = s.now + d.val * 100000 := by rw [setB_flt, injectionBegun_flt]
  have hreact : (setB Reg.FLT_INJSTAT_REAL true (injectionBegun n d full s)).flt.react = s.flt.react := by rw [setB_flt, injectionBegun_flt]
  have hactive : getF Reg.FLT_INJSTAT_ACTIVE (setB Reg.FLT_INJSTAT_REAL true (injectionBegun n d full s)) = 1 :=
    (getF_setF_beside _ _ _ _ (by decide) (by decide)).trans (getF_begun_active n d full s)
  have hsrc : getF Reg.FLT_INJSTAT_SRC (setB Reg.FLT_INJSTAT_REAL true (injectionBegun n d full s)) = n.val :=
    (getF_setF_beside _ _ _ _ (by decide) (by decide)).trans (getF_begun_src n.isLt d full s)
  have hreal : getF Reg.FLT_INJSTAT_REAL (setB Reg.FLT_INJSTAT_REAL true (injectionBegun n d full s)) = 1 := getF_setF_same _ _ _ (by decide)
  have hsev (i : Fin 4) : reg (setB Reg.FLT_INJSTAT_REAL true (injectionBegun n d full s)) (Reg.FLT_SEV i) = reg s (Reg.FLT_SEV i) :=
    hch.2.2 _ (by simp only [oneOf, List.mem_cons, List.not_mem_nil, or_false, Reg.FLT_SEV, Reg.FLT_INJCTL, Reg.FLT_INJSTAT]; omega)
  rw [injection_starts hc hf h ha, injectEvent_active hl]
  generalize setB Reg.FLT_INJSTAT_REAL true (injectionBegun n d full s) = x at *
  exact ⟨_, rfl, ⟨rfl, beq_iff_eq.2 hactive, hsrc, hend, hreact, hsev, hch.1⟩, beq_iff_eq.2 hreal,
    (hch.trans (Changes.finish_ok _)).mono (by simp) (by simp)⟩

end

/-! ### INJECTION_END, and the core not up -/

theorem injectionEnd_ends {s : State} (ha : bit Reg.FLT_INJSTAT_ACTIVE s = true) (ht : s.flt.injEnd ≤ s.now) :
    ∃ t, exec .injectionEnd s = .next t ∧ bit Reg.FLT_INJSTAT_ACTIVE t = false ∧ Changes [] (oneOf [Reg.FLT_INJSTAT]) s t := by
  refine ⟨setB Reg.FLT_INJSTAT_ACTIVE false s, ?_, ?_, (Changes.setB _ _ s).mono (by simp) (by simp [oneOf, Reg.FLT_INJSTAT_ACTIVE])⟩
  · show execInjectionEnd s = _
    rw [execInjectionEnd, if_pos (by simp [ha, ht])]
  · have h0 : getF Reg.FLT_INJSTAT_ACTIVE (setB Reg.FLT_INJSTAT_ACTIVE false s) = 0 := getF_setF_same _ _ _ (by decide)
    rw [bit, h0]; rfl

theorem injectionEnd_waits {s : State} (h : s.now < s.flt.injEnd ∨ bit Reg.FLT_INJSTAT_ACTIVE s = false) : exec .injectionEnd s = .next s := by
  show execInjectionEnd s = _
  rw [execInjectionEnd, if_neg]
  rcases h with h | h
  · simp [Nat.not_le.2 h]
  · simp [h]

theorem collector_coreDown {s : State} (hc : coreUp s = false) (j : Fin 4) (n : Fin 128) (w h : Word) (d : Fin 256) (m : Bool) :
    exec (.severeClear j w h) s = .next s ∧ exec (.stickyClear j w h) s = .next s ∧ exec .clrall s = .next s ∧
      exec (.fltCfgWrite n w) s = .next s ∧ exec (.injectionGo n d m) s = .next s :=
  ⟨if_neg (by simp [hc]), if_neg (by simp [hc]), if_neg (by simp [hc]), if_pos hc, if_pos hc⟩

/-- Settles O50: the books of the collector change as the clears, the configuration write and the injection say; lifting and taking reactions, reins
and alarms leave them alone (`books_applyReactions`, `books_issueRein`, `books_sendAlarm`). -/
theorem sourceClears : Obligations.SourceClears := by
  unfold Obligations.SourceClears
  intro s core free zeroed alarm alarms runs fair denied
  refine ⟨fun j w h hc => severeClear_clause j w h hc, fun j w h hc => stickyClear_clause j w h hc, fun hc => ?_,
    fun n w hc hl hw hr hn => fltCfgWrite_written hc hl hw hr hn, fun n w hc hl => fltCfgWrite_locked hc hl,
    fun n w hc hl hw => fltCfgWrite_reserved hc hl hw, fun n w hc hl hw he => fltCfgWrite_hostError hc hl hw he,
    fun n d hc hd => injection_denied hc hd, fun n d m hc hd ha => injection_busy hc hd ha,
    fun n d hc hf ha hl => injection_reports hc hf ha hl,
    fun n d hc hf hd ha hl _ hn => injection_counts hc hf hd ha hl (Or.inr hn),
    fun n d hc hf hd ha hl hs hn => injection_severe hc hf hd ha hl hs hn,
    fun n d hc hf hd ha hl hs => injection_counts hc hf hd ha hl (Or.inl hs),
    fun n d m hc hf hd ha hl => injection_real hc hf hd ha hl, fun n d m hc hf hd ha => injection_hostError hc hf hd ha,
    injectionEnd_ends, injectionEnd_waits, fun j n w h d m hc => collector_coreDown hc j n w h d m⟩
  obtain ⟨t, ht, hok, hword, hcounts, hpend⟩ := clrall_clause hc
  exact ⟨t, ht, hok, hword _ clearedArray.stk, hword _ clearedArray.sev,
    fun j => ⟨fun k _ hb hf => hcounts _ clearedArray.stk j k hb hf, fun k _ hb hf => hcounts _ clearedArray.sev j k hb hf⟩, hpend⟩

end Sys2Proof.Machine
end

