-- ==== Sys2Proof/Proofs/ChangeRules.lean ====
section
/-!
PROOFS. Rules of the state that the proofs of the family 01_system_view use: a field from its register, and what `Changes` says of the update of one part.
-/
namespace Sys2Proof.Machine

/-! ### Fields and lists -/

theorem getF_of_reg {f : Field} {s t : State} (h : reg t f.addr = reg s f.addr) : getF f t = getF f s := congrArg (getBits · f.lo f.w) h

theorem bit_of_reg {f : Field} {s t : State} (h : reg t f.addr = reg s f.addr) : bit f t = bit f s := congrArg (· == 1) (getF_of_reg h)

theorem bit_setB_same {f : Field} (h : f.lo + f.w ≤ 32) (hw : f.w = 1) (b : Bool) (s : State) : bit f (setB f b s) = b := by
  simp only [bit, setB, getF_setF_same f _ s h, hw]
  cases b <;> rfl

theorem assoc_filter_out {β : Type} {p : Nat → Bool} {a : Nat} (h : p a = false) (l : List (Nat × β)) :
    assoc a (l.filter (fun e => p e.1)) = none := by
  induction l with
  | nil => rfl
  | cons e t ih =>
    by_cases hp : p e.1
    · have he : e.1 ≠ a := fun he => by simp [he, h] at hp
      simp [hp, assoc, he, ih]
    · simp [hp, ih]

/-! ### Updates of one part -/

theorem Changes.withSys (s : State) (y : SysState) : Changes [.sys] (fun _ => False) s { s with sys := y } :=
  ⟨rfl, fun p hp => by cases p <;> simp_all [Part.same], fun _ _ => rfl⟩

theorem Changes.withImp (s : State) (y : ImpState) : Changes [.imp] (fun _ => False) s { s with imp := y } :=
  ⟨rfl, fun p hp => by cases p <;> simp_all [Part.same], fun _ _ => rfl⟩

theorem Changes.withFab (s : State) (y : FabState) : Changes [.fab] (fun _ => False) s { s with fab := y } :=
  ⟨rfl, fun p hp => by cases p <;> simp_all [Part.same], fun _ _ => rfl⟩

theorem Changes.withHst (s : State) (y : HstState) : Changes [.hst] (fun _ => False) s { s with hst := y } :=
  ⟨rfl, fun p hp => by cases p <;> simp_all [Part.same], fun _ _ => rfl⟩

theorem Changes.withBst (s : State) (y : BstState) : Changes [.bst] (fun _ => False) s { s with bst := y } :=
  ⟨rfl, fun p hp => by cases p <;> simp_all [Part.same], fun _ _ => rfl⟩

theorem Changes.useFree (s : State) : Changes [.free] (fun _ => False) s (useFree s) :=
  ⟨rfl, fun p hp => by cases p <;> simp_all [Part.same, Machine.useFree], fun _ _ => rfl⟩

theorem Changes.foldl {α : Type} {ps : List Part} {rs : Nat → Prop} (f : State → α → State) (l : List α) (h : ∀ t x, Changes ps rs t (f t x)) (s : State) :
    Changes ps rs s (l.foldl f s) := by
  induction l generalizing s with
  | nil => exact Changes.refl ps rs s
  | cons x l ih => exact ((h s x).trans (ih (f s x))).mono (by simp) (by simp)

end Sys2Proof.Machine
end

