-- ==== Sys2Proof/Proofs/SelfTestEnd.lean ====
section
/-!
PROOFS. What the end of a self-test changes: the parts that a test keeps or reports in, and the registers of its own block.
-/
namespace Sys2Proof.Machine

/-- Nothing changes but what a self-test keeps or reports in, and the registers of its own block and of those above it. -/
def TestOnly (s t : State) : Prop := Changes [.free, .imp, .hst, .flt, .bst] (fun a => Reg.BST_CMD ≤ a) s t

theorem TestOnly.refl (s : State) : TestOnly s s := Changes.refl ..

theorem TestOnly.trans {s t u : State} (h : TestOnly s t) (h' : TestOnly t u) : TestOnly s u := (Changes.trans h h').mono (by simp) (by simp)

theorem TestOnly.part {ps : List Part} {s t : State} (h : Changes ps (fun _ => False) s t) (hp : ∀ p ∈ ps, p ∈ [Part.free, .imp, .hst, .flt, .bst]) :
    TestOnly s t := h.mono hp (fun _ hf => hf.elim)

theorem TestOnly.setReg {a : Nat} (h : Reg.BST_CMD ≤ a) (v : Word) (s : State) : TestOnly s (setReg a v s) :=
  (Changes.setReg a v s).mono (by simp) (fun _ hb => hb ▸ h)

theorem TestOnly.of_ite {c : Prop} [Decidable c] {s t u : State} (ht : TestOnly s t) (hu : TestOnly s u) : TestOnly s (if c then t else u) := by
  split
  · exact ht
  · exact hu

theorem le_recordWord (item w : Nat) : Reg.BST_CMD ≤ recordWord item w := by
  simp only [recordWord, Reg.BST_MREC, Reg.BST_LREC, Reg.BST_CMD]; split <;> omega

theorem TestOnly.writeRecord (item result : Nat) (done : Bool) (cov count w3 : Nat) (r : BstRun) (s : State) :
    TestOnly s (writeRecord item result done cov count w3 r s) :=
  (((TestOnly.setReg (le_recordWord item 0) _ _).trans (.setReg (le_recordWord item 1) _ _)).trans (.setReg (le_recordWord item 2) _ _)).trans
    (.setReg (le_recordWord item 3) _ _)

theorem TestOnly.clearRecord (item : Nat) (s : State) : TestOnly s (clearRecord item s) :=
  Changes.foldl _ _ (fun t w => TestOnly.setReg (le_recordWord item w) _ t) s

theorem TestOnly.judgeMemory (m : Nat) (r : BstRun) (s : State) : TestOnly s (judgeMemory m r s) :=
  (TestOnly.writeRecord ..).trans (.part (Changes.withBst _ _) (by simp))

theorem TestOnly.cutPartition (p : Nat) (r : BstRun) (s : State) : TestOnly s (cutPartition p r s) := by
  have hfree (t : State) : TestOnly t (useFree t) := .part (Changes.useFree t) (by simp)
  unfold Machine.cutPartition
  extract_lets count s1 s2
  have h1 : TestOnly s s1 := .of_ite (hfree s) (.refl s)
  have h2 : TestOnly s s2 := (h1.trans (hfree s1)).trans (.writeRecord ..)
  exact h2.trans (.part (Changes.withBst s2 _) (by simp))

theorem TestOnly.unitReturns (item : Nat) (s : State) : TestOnly s (unitReturns item s) :=
  .of_ite (.part (Changes.withImp s _) (by simp)) (.of_ite (.part (Changes.withHst s _) (by simp)) (.refl s))

theorem TestOnly.endSelfTest (s : State) : TestOnly s (endSelfTest s) := by
  unfold Machine.endSelfTest
  split
  · exact .refl s
  · extract_lets res bst1 s1 s2
    have h2 : TestOnly s s2 := (((TestOnly.part (Changes.withBst s _) (by simp)).trans (.setReg (by decide) _ _)).trans (.setReg (by decide) _ _)).trans
      (.setReg (by decide) _ _)
    exact .of_ite h2 (h2.trans (.part (Changes.pulse 125 s2) (by simp)))

/-- A test that ends early writes registers of its own block alone (R566, R568, R570). -/
theorem TestOnly.abortSelfTest (s : State) : TestOnly s (abortSelfTest s) := by
  unfold Machine.abortSelfTest
  split
  · exact .refl s
  · next r _ =>
    extract_lets s1 s2
    have h1 : TestOnly s s1 := Changes.foldl _ _ (fun t i => TestOnly.clearRecord i t) s
    have h2 : TestOnly s s2 := by
      simp only [s2]
      split
      · next i _ => exact .of_ite (h1.trans (.judgeMemory i r s1)) ((h1.trans (.cutPartition _ r s1)).trans (.unitReturns i _))
      · exact h1
    exact h2.trans (.endSelfTest s2)

theorem TestOnly.abortItem (item : Nat) (s : State) : TestOnly s (abortItem item s) := .of_ite (.abortSelfTest s) (.refl s)

theorem TestOnly.reg {s t : State} (h : TestOnly s t) {a : Nat} (ha : a < Reg.BST_CMD) : reg t a = reg s a := h.2.2 a (Nat.not_le.2 ha)

end Sys2Proof.Machine
end

