-- ==== Sys2Proof/Proofs/PowerView.lean ====
section
/-!
PROOFS. What the work of the other blocks leaves alone of the power state, the queue and the reset causes: one lemma for each function of the model, in the
order in which they call each other; and what a transition that is asked for and the end of the gateway role change of it.
-/
namespace Sys2Proof.Machine

/-! ## The power view -/

/-- What the work of the other blocks leaves alone: the power state, the queue, and the reset causes (R85). -/
structure PowerView where
  sys : SysState
  pending : List Instr
  cause : Word

def powerView (s : State) : PowerView := ⟨s.sys, s.pending, reg s Reg.SYS_RSTCAUSE⟩

section
variable {s t : State} (h : powerView t = powerView s)
include h

theorem sys_of_powerView : t.sys = s.sys := congrArg PowerView.sys h
theorem pending_of_powerView : t.pending = s.pending := congrArg PowerView.pending h
theorem cause_of_powerView : reg t Reg.SYS_RSTCAUSE = reg s Reg.SYS_RSTCAUSE := congrArg PowerView.cause h

end

/-! ### Updates of a state -/

/-- Every part but the register file, the power state and the queue. -/
theorem powerView_parts (s : State) (now ft free : Nat) (resp : Option Resp) (pins : Pins) (cms : CmsState) (xck : XckState) (imp : ImpState)
    (cpb : CpbState) (flt : FltState) (lnk : LnkState) (fab : FabState) (hst : HstState) (cnv : CnvState) (ctl : CtlState) (tbs : TbsState)
    (cal : CalState) (thm : ThmState) (bst : BstState) :
    powerView { s with
      now := now, ft := ft, free := free, resp := resp, pins := pins, cms := cms, xck := xck, imp := imp, cpb := cpb, flt := flt, lnk := lnk
      fab := fab, hst := hst, cnv := cnv, ctl := ctl, tbs := tbs, cal := cal, thm := thm, bst := bst } = powerView s := (rfl)

/-- Every register above SYS_RSTCAUSE, as those of every block but the first are. -/
theorem powerView_setReg {a : Nat} (h : Reg.SYS_RSTCAUSE < a) (v : Word) (s : State) : powerView (setReg a v s) = powerView s := by
  simp only [powerView, reg_setReg_other (Nat.ne_of_lt h)]; rfl

theorem powerView_setF {f : Field} (h : Reg.SYS_RSTCAUSE < f.addr) (v : Nat) (s : State) : powerView (setF f v s) = powerView s := powerView_setReg h _ s
theorem powerView_setB {f : Field} (h : Reg.SYS_RSTCAUSE < f.addr) (b : Bool) (s : State) : powerView (setB f b s) = powerView s := powerView_setReg h _ s
theorem powerView_incSat {f : Field} (h : Reg.SYS_RSTCAUSE < f.addr) (s : State) : powerView (incSat f s) = powerView s := powerView_setReg h _ s
theorem powerView_setRegBit {a : Nat} (h : Reg.SYS_RSTCAUSE < a) (k : Nat) (b : Bool) (s : State) : powerView (setRegBit a k b s) = powerView s :=
  powerView_setReg h _ s

/-- SYS_CLKSTAT shows the clocks, below SYS_RSTCAUSE (R84). -/
theorem powerView_clockShown (lo w : Nat) (b : Bool) (s : State) : powerView (setB ⟨Reg.SYS_CLKSTAT, lo, w⟩ b s) = powerView s := by
  simp only [powerView, reg_setB_other (f := ⟨Reg.SYS_CLKSTAT, lo, w⟩) (b := Reg.SYS_RSTCAUSE) (by simp [Reg.SYS_RSTCAUSE, Reg.SYS_CLKSTAT])]; rfl

theorem powerView_foldl {α : Type} (f : State → α → State) (l : List α) (h : ∀ t, ∀ x ∈ l, powerView (f t x) = powerView t) (s : State) :
    powerView (l.foldl f s) = powerView s := by
  induction l generalizing s with
  | nil => rfl
  | cons x l ih => exact (ih (fun t y hy => h t y (List.mem_cons_of_mem x hy)) (f s x)).trans (h s x (List.mem_cons_self ..))

theorem powerView_pulse (src : Nat) (s : State) : powerView (pulse src s) = powerView s := by
  simp only [pulse, apply_ite powerView, powerView_parts, ite_self]

theorem powerView_drop (src : Nat) (s : State) : powerView (drop src s) = powerView s := by
  simp only [drop, setLine, Bool.false_eq_true, if_false]
  exact powerView_setRegBit (by simp only [Reg.SYS_RSTCAUSE, Reg.FLT_ACT]; omega) _ _ _

theorem powerView_setEvt (b : EvtBlock) (bits : Nat) (s : State) : powerView (setEvt b bits s) = powerView s := by
  have h : Reg.SYS_RSTCAUSE < b.evt := by cases b <;> decide
  simp only [setEvt, apply_ite powerView, powerView_parts, powerView_setReg h, ite_self]

theorem powerView_useFree (s : State) : powerView (useFree s) = powerView s := (rfl)

/-! ### The host interface -/

theorem powerView_dmaWrite (a : Nat) (bs : List Byte) (s : State) : powerView (dmaWrite a bs s) = powerView s := (rfl)

theorem powerView_writeback (s : State) : powerView (writeback s) = powerView s := by
  simp only [writeback, apply_ite powerView, powerView_dmaWrite, powerView_parts, ite_self]

theorem powerView_message (v : Nat) (s : State) : powerView (message v s) = powerView s := by
  simp (disch := decide) only [message, sendVector, apply_ite powerView, powerView_setRegBit, powerView_dmaWrite, powerView_parts,
    powerView_writeback, ite_self]

theorem powerView_countEntry (r : Nat) (s : State) : powerView (countEntry r s) = powerView s := by
  simp only [countEntry, signalCounted, signalRing, apply_ite powerView, powerView_message, powerView_parts, ite_self]

theorem powerView_ringWrite (r n : Nat) (mk : Bool → List Byte) (s : State) : powerView (ringWrite r n mk s) = powerView s := by
  have h : Reg.SYS_RSTCAUSE < (Reg.HST_RDIDX_DIDX r).addr := by simp only [Reg.SYS_RSTCAUSE, Reg.HST_RDIDX_DIDX, Reg.HST_RDIDX]; omega
  simp only [ringWrite, powerView_countEntry, advanceRing, powerView_parts, powerView_setF h, powerView_dmaWrite]

theorem powerView_flushCompletions (k : Nat) (s : State) : powerView (flushCompletions k s) = powerView s := by
  induction k generalizing s with
  | zero => rfl
  | succ k ih =>
    unfold flushCompletions
    split
    · rfl
    · simp only [apply_ite powerView, ih, powerView_ringWrite, powerView_parts, powerView_dmaWrite, ite_self]

theorem powerView_refreshOut (s : State) : powerView (refreshOut s) = powerView s := by
  simp (disch := decide) only [refreshOut, powerView_setF]

theorem powerView_finishHost (slot : Nat) (mk : HostCmd → HostDone) (s : State) : powerView (finishHost slot mk s) = powerView s := by
  unfold finishHost
  split
  · rfl
  · simp only [powerView_refreshOut, powerView_flushCompletions, apply_ite powerView, powerView_parts, ite_self]

/-! ### Frames and completions -/

theorem powerView_enqueue (n input : Nat) (g : Frame) (s : State) : powerView (enqueue n input g s) = powerView s := by
  simp (disch := decide) only [enqueue, modPort, apply_ite powerView, powerView_incSat, powerView_parts, ite_self]

theorem powerView_sendRouted (f : Frame) (s : State) : powerView (sendRouted f s) = powerView s := by
  simp (disch := decide) only [sendRouted, apply_ite powerView, powerView_incSat, powerView_enqueue, ite_self]

theorem powerView_broadcast (t : FrameType) (cl : Cls) (p : List Word) (s : State) : powerView (broadcast t cl p s) = powerView s := by
  have hf (input : Nat) (f : Frame) (u : State) : powerView (flood input f u) = powerView u :=
    powerView_foldl _ _ (fun t n _ => by simp only [apply_ite powerView, powerView_enqueue, ite_self]) u
  simp only [broadcast, originate, apply_ite powerView, hf, powerView_parts, ite_self]

theorem powerView_sendCpl (src tag : Nat) (cls : Cls) (rroute : Word) (rhop : Nat) (p : List Word) (s : State) :
    powerView (sendCpl src tag cls rroute rhop p s) = powerView s := by
  unfold sendCpl
  split
  · exact powerView_sendRouted _ s
  · split
    · unfold sendHome
      split
      · exact powerView_sendRouted _ s
      · exact powerView_incSat (by decide) s
    · exact powerView_incSat (by decide) s

theorem powerView_complete (tk : Ticket) (st : Status) (data : List Word) (tval : Nat) (s : State) : powerView (complete tk st data tval s) = powerView s := by
  cases tk with
  | direct => rfl
  | fabric => simp only [complete, cachePut, apply_ite powerView, powerView_parts, powerView_sendCpl, ite_self]
  | host => exact powerView_finishHost _ _ s

theorem powerView_sendLeave (s : State) : powerView (sendLeave s) = powerView s := powerView_broadcast _ _ _ s

theorem powerView_sendRoleend (s : State) : powerView (sendRoleend s) = powerView s := by
  simp only [sendRoleend, apply_ite powerView, powerView_broadcast, ite_self]

/-! ### The impedance engine, the converter, and the measurements -/

theorem powerView_finishAbort (code : Nat) (s : State) : powerView (finishAbort code s) = powerView s := by
  simp only [finishAbort, powerView_setEvt, apply_ite powerView, powerView_pulse, ite_self]

theorem powerView_planAbort (code : Nat) (s : State) : powerView (planAbort code s) = powerView s := by
  simp (disch := decide) only [planAbort, apply_ite powerView, powerView_finishAbort, powerView_parts, powerView_setF, powerView_useFree, ite_self]

theorem powerView_excitationStops (s : State) : powerView (excitationStops s) = powerView s := by
  unfold excitationStops
  split
  · rfl
  · exact powerView_foldl _ _ (fun t f _ => powerView_finishAbort f.code t) _

theorem powerView_quiet (s : State) : powerView (quiet s) = powerView s := by
  simp (disch := decide) only [quiet, clearTrims, powerView_parts, Reg.SYS_CLKSTAT_PPLLLK, powerView_clockShown, powerView_setB,
    powerView_setF, powerView_setReg]

theorem powerView_leaveRunning (dest : Nat) (s : State) : powerView (leaveRunning dest s) = powerView s := by
  simp (disch := decide) only [leaveRunning, powerView_excitationStops, apply_ite powerView, powerView_setEvt, powerView_parts, powerView_setF,
    powerView_quiet, powerView_planAbort, ite_self]

theorem powerView_commandedStop (s : State) : powerView (commandedStop s) = powerView s := by
  unfold commandedStop
  split <;> simp (disch := decide) only [powerView_leaveRunning, powerView_setF, powerView_parts, apply_ite powerView, powerView_planAbort, ite_self]

theorem powerView_enforceSwitches (s : State) : powerView (enforceSwitches s) = powerView s := by
  simp (disch := decide) only [enforceSwitches, noteBleed, powerView_setF, powerView_parts]

theorem powerView_stopService (s : State) : powerView (stopService s) = powerView s := by
  simp only [stopService, powerView_enforceSwitches, powerView_commandedStop, powerView_planAbort]

theorem powerView_driveFaultLevel (s : State) : powerView (driveFaultLevel s) = powerView s := by
  simp (disch := decide) only [driveFaultLevel, apply_ite powerView, powerView_setB, powerView_parts, ite_self]

theorem powerView_harnessAbort (s : State) : powerView (harnessAbort s) = powerView s := by
  unfold harnessAbort endHarness
  split
  · rfl
  · simp (disch := decide) only [powerView_complete, powerView_enforceSwitches, apply_ite powerView, powerView_pulse,
      powerView_setB, powerView_parts, ite_self]

theorem powerView_stopPaths (s : State) : powerView (stopPaths s) = powerView s := by
  have hd : powerView ((List.range 25).foldl (fun t c => if nth t.cms.overMark c false then drop (channelSource c) t else t) s) = powerView s :=
    powerView_foldl _ _ (fun t c _ => by simp only [apply_ite powerView, powerView_drop, ite_self]) s
  simp (disch := decide) only [stopPaths, clearBusy, apply_ite powerView, powerView_setB, powerView_parts, hd, ite_self]

/-! ### The timebase and the runs of the controller -/

theorem powerView_announce (s : State) : powerView (announce s) = powerView s :=
  powerView_foldl _ _ (fun t n _ => by simp only [linkLocal, apply_ite powerView, powerView_enqueue, ite_self]) s

theorem powerView_enterTb (code : Nat) (s : State) : powerView (enterTb code s) = powerView s := by
  simp (disch := decide) only [enterTb, powerView_setB, powerView_setF, powerView_parts, apply_ite powerView, powerView_planAbort, ite_self]

theorem powerView_takeParent (n h : Nat) (s : State) : powerView (takeParent n h s) = powerView s := by
  unfold takeParent
  split <;> simp (disch := decide) only [powerView_announce, powerView_enterTb, powerView_setF, powerView_parts]

theorem powerView_enterHoldover (s : State) : powerView (enterHoldover s) = powerView s := by
  simp (disch := decide) only [enterHoldover, enterFreerun, apply_ite powerView, powerView_announce, powerView_pulse, powerView_setF, powerView_enterTb,
    powerView_parts, ite_self]

theorem powerView_refreshRoot (s : State) : powerView (refreshRoot s) = powerView s := by
  unfold refreshRoot
  extract_lets r tbs1 s1
  have h1 : powerView s1 = powerView s := (powerView_setB (by decide) _ _).trans (powerView_parts ..)
  split
  · rfl
  · split
    · simp (disch := decide) only [powerView_setB, powerView_setF, powerView_enterTb, powerView_parts]
    · split
      · exact (powerView_takeParent _ _ s1).trans h1
      · exact (powerView_enterHoldover s1).trans h1

theorem powerView_applyHeld (id : Nat) (s : State) : powerView (applyHeld id s) = powerView s := by
  unfold applyHeld
  split
  · rfl
  · split <;> rfl

theorem powerView_abandonRun (s : State) : powerView (abandonRun s) = powerView s := by
  have hr : powerView (endRun .incomplete s) = powerView s := by
    unfold endRun
    split
    · rfl
    · extract_lets fab1 s0 s1 s2
      have h1 : powerView s1 = powerView s := (powerView_foldl _ _ (fun t e _ => powerView_applyHeld e.1 t) s0).trans (powerView_parts ..)
      have h2 : powerView s2 = powerView s := by simp (disch := decide) only [s2, powerView_refreshOut, powerView_setF, powerView_setB, h1]
      split
      · exact (powerView_complete _ _ _ _ s2).trans h2
      · exact h2
  simp only [abandonRun, apply_ite powerView, powerView_pulse, hr, ite_self]

theorem powerView_nvmWrite (o : Nat) (bs : List Byte) (s : State) : powerView (nvmWrite o bs s) = powerView s := (rfl)

theorem powerView_refreshBusy (s : State) : powerView (refreshBusy s) = powerView s := powerView_setB (by decide) _ s

theorem powerView_nextJob (s : State) : powerView (nextJob s) = powerView s := by
  unfold nextJob
  split
  · rfl
  · split
    · rfl
    · simp (disch := decide) only [beginJob, powerView_nvmWrite, nvmErase, powerView_refreshBusy, powerView_parts, apply_ite powerView,
        powerView_setReg, ite_self]

theorem powerView_copyWritten (b : Bool) (s : State) : powerView (copyWritten b s) = powerView s := by
  cases b <;> simp (disch := decide) only [copyWritten, powerView_setB, powerView_setReg]

theorem powerView_abortCalRun (s : State) : powerView (abortCalRun s) = powerView s := by
  unfold abortCalRun endCalRun
  split
  · rfl
  · extract_lets span cal1 s1 s2 cal2 s3
    have h2 : powerView s2 = powerView s := (powerView_setF (by decide) _ _).trans ((powerView_setF (by decide) _ _).trans (powerView_parts ..))
    have h3 : powerView s3 = powerView s := by
      simp only [s3]
      split
      · simp only [apply_ite powerView, powerView_copyWritten, powerView_nvmWrite, powerView_parts, h2, ite_self]
      · exact h2
    rw [powerView_nextJob, powerView_refreshBusy, powerView_complete, h3]

/-! ### Self-test and the controller -/

theorem powerView_abortSelfTest (s : State) : powerView (abortSelfTest s) = powerView s := by
  have h := TestOnly.abortSelfTest s
  have hsys : (abortSelfTest s).sys = s.sys := h.2.1 .sys (by decide)
  simp only [powerView, hsys, h.1, h.reg (a := Reg.SYS_RSTCAUSE) (by decide)]

theorem powerView_checkController (romOk : Bool) (s : State) : powerView (checkController romOk s) = powerView s := by
  simp (disch := decide) only [checkController, apply_ite powerView, powerView_pulse, powerView_setB, powerView_setF, ite_self]

/-! ### The end of the gateway role -/

/-- The transition that a request begins: with the slow clock failed, SENTINEL becomes STANDBY (R63, R68). -/
def requested (t : LowState) (s : State) : Transition := ⟨if t = .sentinel ∧ s.sys.sclkFailed then .standby else t, false⟩

/-- A transition that is asked for changes nothing of the power state but the transition itself, and queues nothing (R63). -/
theorem beginTransition_sys (t : LowState) (s : State) : (beginTransition t s).sys = { s.sys with transition := some (requested t s) } := by
  have hv : powerView (abortSelfTest (abortCalRun s)) = powerView s := (powerView_abortSelfTest _).trans (powerView_abortCalRun s)
  unfold beginTransition requested
  split
  · exact congrArg (fun y : SysState => { y with transition := some ⟨.standby, false⟩ }) (sys_of_powerView hv)
  · exact congrArg (fun y : SysState => { y with transition := some ⟨t, false⟩ }) (sys_of_powerView hv)

theorem beginTransition_pending (t : LowState) (s : State) : (beginTransition t s).pending = s.pending := by
  have hv : powerView (abortSelfTest (abortCalRun s)) = powerView s := (powerView_abortSelfTest _).trans (powerView_abortCalRun s)
  unfold beginTransition
  split <;> exact (pending_of_powerView hv :)

/-- The end of the gateway role leaves all of the power state but a transition that it begins, and queues nothing (R18, R64). -/
theorem endRole_keeps (s : State) : (∃ u, (endRole s).sys = { s.sys with transition := u }) ∧ (endRole s).pending = s.pending := by
  unfold endRole
  split
  · exact ⟨⟨s.sys.transition, rfl⟩, rfl⟩
  · extract_lets s1 hst1 fab1 s2 s3
    have hv : powerView s3 = powerView s := by
      simp (disch := decide) only [s3, powerView_refreshRoot, powerView_refreshOut, powerView_setB, powerView_abandonRun, s2, powerView_parts, s1,
        powerView_sendRoleend]
    have hsys := sys_of_powerView hv
    split
    · refine ⟨⟨some (requested (lowStateOf (getF Reg.SYS_PWRSTAT_PENDTGT s3)) (setB Reg.SYS_PWRSTAT_PEND false s3)), ?_⟩,
        (beginTransition_pending _ _).trans (pending_of_powerView hv :)⟩
      rw [beginTransition_sys, setB_sys, hsys]
    · exact ⟨⟨s.sys.transition, hsys⟩, pending_of_powerView hv⟩

end Sys2Proof.Machine
end

