-- ==== Sys2Proof/Proofs/ControllerAndPerst.lean ====
section
/-!
PROOFS. Restarts of the housekeeping controller, and PERSTN (R22, R23, R443, R574).
-/
namespace Sys2Proof.Machine

/-! ### Restarts -/

/-- What a restart of the controller leaves: the power state but for the mark of the restart, the queue, and the reset causes (R22, R23). -/
theorem powerView_restartController (s : State) : powerView (restartController s) = powerView { s with sys := { s.sys with ctlBusy := true } } := by
  simp only [restartController, powerView_abortSelfTest, powerView_abortCalRun, powerView_abandonRun]

/-- A restart with its cause bit set: the controller is busy and nothing is queued. -/
theorem restart_busy {f : Field} (hf : f.addr = Reg.SYS_RSTCAUSE) (hb : f.lo + f.w ≤ 32) (hw : f.w = 1) (s : State) :
    (restartController (setB f true s)).sys.ctlBusy = true ∧ bit f (restartController (setB f true s)) = true ∧
      (restartController (setB f true s)).pending = s.pending := by
  have hv := powerView_restartController (setB f true s)
  have hcause : reg (restartController (setB f true s)) f.addr = reg (setB f true s) f.addr := by rw [hf]; exact (cause_of_powerView hv :)
  exact ⟨congrArg SysState.ctlBusy (sys_of_powerView hv), (bit_of_reg hcause).trans (bit_setB_same hb hw true s), (pending_of_powerView hv :)⟩

theorem controllerRestart_clause {s : State} (hc : coreUp s = true) : ∃ t, exec .controllerRestart s = .next t ∧ t.sys.ctlBusy = true ∧
    bit Reg.SYS_RSTCAUSE_CTLRST t = true ∧ t.answered .ok ∧ t.pending = s.pending := by
  obtain ⟨hbusy, hcause, hpend⟩ := restart_busy (f := Reg.SYS_RSTCAUSE_CTLRST) rfl (by decide) rfl s
  exact ⟨_, if_pos hc, hbusy, hcause, rfl, hpend⟩

/-- Source 11 reports whatever inputs are unused (R489). -/
theorem mem_waiting_pulse_watchdog (s : State) : 11 ∈ (pulse 11 s).flt.waiting := by
  simp [pulse, muted]

theorem controllerWatchdogExpiry_clause {s : State} (hc : coreUp s = true) : ∃ t, exec .controllerWatchdogExpiry s = .next t ∧ t.sys.ctlBusy = true ∧
    bit Reg.SYS_RSTCAUSE_WDOG t = true ∧ 11 ∈ t.flt.waiting ∧ t.pending = s.pending := by
  obtain ⟨hbusy, hcause, hpend⟩ := restart_busy (f := Reg.SYS_RSTCAUSE_WDOG) rfl (by decide) rfl s
  have hv := powerView_pulse 11 (restartController (setB Reg.SYS_RSTCAUSE_WDOG true s))
  exact ⟨_, if_pos hc, (congrArg SysState.ctlBusy (sys_of_powerView hv)).trans hbusy, (bit_of_reg (cause_of_powerView hv)).trans hcause,
    mem_waiting_pulse_watchdog _, (pending_of_powerView hv).trans hpend⟩

/-- What the end of a restart leaves (R23, R545, R574). -/
theorem controllerRestartDone_view {s : State} (hc : coreUp s = true) (hb : s.sys.ctlBusy = true) (ok : Bool) :
    ∃ t, exec (.controllerRestartDone ok) s = .next t ∧ powerView t = powerView { s with sys := { s.sys with ctlBusy := false } } := by
  have hgo : (s.sys.ctlBusy && coreUp s) = true := by simp [hb, hc]
  have hcheck := powerView_checkController ok { s with sys := { s.sys with ctlBusy := false } }
  change ∃ t, execControllerRestartDone ok s = .next t ∧ _
  rw [execControllerRestartDone, if_pos hgo]
  extract_lets sys1 s1
  split
  · exact ⟨_, rfl, (powerView_nextJob _).trans ((powerView_complete _ _ _ _ _).trans ((powerView_parts ..).trans hcheck))⟩
  · exact ⟨_, rfl, (powerView_nextJob _).trans hcheck⟩

theorem controllerRestartDone_clause {s : State} (hc : coreUp s = true) (hb : s.sys.ctlBusy = true) (ok : Bool) :
    ∃ t, exec (.controllerRestartDone ok) s = .next t ∧ t.sys.ctlBusy = false ∧ t.pending = s.pending := by
  obtain ⟨t, ht, hv⟩ := controllerRestartDone_view hc hb ok
  exact ⟨t, ht, congrArg SysState.ctlBusy (sys_of_powerView hv), (pending_of_powerView hv :)⟩

/-! ### PERSTN -/

/-- R443: every HST register reads its reset value. -/
theorem reg_resetHstRegs {a : Nat} (hlo : 0x5000 ≤ a) (hhi : a < 0x5800) (s : State) : reg (resetHstRegs s) a = resetOf a := by
  have hout : assoc a (s.regs.filter (fun e => !(0x5000 ≤ e.1 && e.1 < 0x5800))) = none :=
    assoc_filter_out (p := fun k => !(0x5000 ≤ k && k < 0x5800)) (by simp [hlo, hhi]) _
  simp only [reg, resetHstRegs, RegFile.get, hout, Option.getD_none]

theorem perstnAssert_clause {s : State} (hc : coreUp s = true) (hp : s.sys.perstLow = false) : ∃ t, exec .perstnAssert s = .next t ∧
    t.sys.perstLow = true ∧ bit Reg.SYS_CLKSTAT_PCIELK t = false ∧ (∀ a, 0x5000 ≤ a → a < 0x5800 → reg t a = resetOf a) ∧ t.pending = s.pending := by
  change ∃ t, execPerstnAssert s = .next t ∧ _
  unfold execPerstnAssert
  extract_lets times sys1 s1 s2 s3 hst0 h
  rw [if_neg (by simp [hp]), if_neg (by simp [hc])]
  have h2 : powerView s2 = powerView s1 := by
    simp (disch := decide) only [s2, powerView_incSat, apply_ite powerView, powerView_pulse, ite_self]
  have h2' : powerView (if gen3Holds s2 then pulse 106 s2 else s2) = powerView s1 := by
    simp only [apply_ite powerView, powerView_pulse, h2, ite_self]
  obtain ⟨⟨u, hsys⟩, hpend⟩ := endRole_keeps (if gen3Holds s2 then pulse 106 s2 else s2)
  refine ⟨_, rfl, ?_, bit_setB_same (by decide) rfl false _, fun a hlo hhi => ?_, ?_⟩
  · calc s3.sys.perstLow = (if gen3Holds s2 then pulse 106 s2 else s2).sys.perstLow := (congrArg SysState.perstLow hsys :)
      _ = s1.sys.perstLow := (congrArg SysState.perstLow (sys_of_powerView h2') :)
  · have hne : a ≠ Reg.SYS_CLKSTAT_PCIELK.addr := by simp only [Reg.SYS_CLKSTAT_PCIELK, Reg.SYS_CLKSTAT]; omega
    rw [reg_setB_other hne, reg_resetHstRegs hlo hhi]
  · exact hpend.trans (pending_of_powerView h2' :)

/-- Settles O7: each restart keeps the power view but for its mark and its cause, and the end of the role keeps the mark of PERSTN. -/
theorem controllerAndPerst : Obligations.ControllerAndPerst := by
  unfold Obligations.ControllerAndPerst
  intro s hc
  exact ⟨controllerRestart_clause hc, controllerWatchdogExpiry_clause hc, fun hb ok => controllerRestartDone_clause hc hb ok,
    fun hp => perstnAssert_clause hc hp⟩

end Sys2Proof.Machine
end

