-- ==== Sys2Proof/Proofs/PowerCommands.lean ====
section
/-!
PROOFS. SYS_PWRCMD, the stop steps and the entry to a low-power state (R60 to R65, R616).
-/
namespace Sys2Proof.Machine

/-! ## SYS_PWRCMD -/

section
variable {s : State} (hb : s.sys.ctlBusy = false) (hr : bit Reg.BST_CTLSTAT_ROMBAD s = false)
include hb hr

theorem withController_serves (d : Done) : withController s d = d := by simp [withController, hb, hr]

/-- From STANDBY a transition goes on to its last step; STANDBY itself is reached (R63, R616). -/
theorem powerDown_standby (hp : s.sys.phase = .standby) (ht : s.sys.transition = none) : powerDown .standby s = Done.ok s := by
  simp [powerDown, withController_serves hb hr, ht, hp]

theorem powerDown_fromStandby {t : LowState} (hp : s.sys.phase = .standby) (ht : s.sys.transition = none) (hne : t ≠ .standby)
    (hab : ¬ (t = .sentinel ∧ s.sys.sclkFailed = true)) : powerDown t s = Done.ok { s with sys := { s.sys with transition := some ⟨t, false⟩ } } := by
  simp [powerDown, withController_serves hb hr, ht, hp, hne, hab]

/-- A gateway records the target (R64). -/
theorem powerDown_gateway (t : LowState) (hp : s.sys.phase = .active) (ht : s.sys.transition = none) (hg : hasRole s = true) :
    powerDown t s = Done.ok (setF Reg.SYS_PWRSTAT_PENDTGT t.code (setB Reg.SYS_PWRSTAT_PEND true s)) := by
  simp [powerDown, withController_serves hb hr, ht, hp, hg]

theorem powerDown_active (t : LowState) (hp : s.sys.phase = .active) (ht : s.sys.transition = none) (hg : hasRole s = false) :
    powerDown t s = Done.ok (beginTransition t s) := by
  simp [powerDown, withController_serves hb hr, ht, hp, hg]

theorem powerDown_busy (t : LowState) {u : Transition} (ht : s.sys.transition = some u) : powerDown t s = busyInTransition u s := by
  simp [powerDown, withController_serves hb hr, ht]

theorem powerUp_serves : powerUp s = Done.ok (wakeBy 7 (setB Reg.SYS_PWRSTAT_PEND false s)) := by
  simp [powerUp, withController_serves hb hr]

end

/-- The three commands to a low-power state, with the core up. -/
theorem pwrcmd_out {s : State} (hc : coreUp s = true) : exec .pwrcmdShelf s = (powerDown .shelf s).out ∧
    exec .pwrcmdSentinel s = (powerDown .sentinel s).out ∧ exec .pwrcmdStandby s = (powerDown .standby s).out ∧ exec .pwrcmdActive s = (powerUp s).out :=
  ⟨if_pos hc, if_pos hc, if_pos hc, if_pos hc⟩

theorem coreUp_active {s : State} (hp : s.sys.phase = .active) : coreUp s = true := by simp [coreUp, hp]
theorem coreUp_standby {s : State} (hp : s.sys.phase = .standby) : coreUp s = true := by simp [coreUp, hp]

/-- A target recorded for the end of the role (R64). -/
theorem recorded_clause (t : LowState) (s : State) :
    bit Reg.SYS_PWRSTAT_PEND (setF Reg.SYS_PWRSTAT_PENDTGT t.code (setB Reg.SYS_PWRSTAT_PEND true s)) = true ∧
      getF Reg.SYS_PWRSTAT_PENDTGT (setF Reg.SYS_PWRSTAT_PENDTGT t.code (setB Reg.SYS_PWRSTAT_PEND true s)) = t.code ∧
      Changes [.resp] (oneOf [Reg.SYS_PWRSTAT]) s (Done.ok (setF Reg.SYS_PWRSTAT_PENDTGT t.code (setB Reg.SYS_PWRSTAT_PEND true s))).finish := by
  refine ⟨?_, ?_, (((Changes.setB _ true s).trans (Changes.setF Reg.SYS_PWRSTAT_PENDTGT _ _)).trans (Changes.finish_ok _)).mono (by simp) ?_⟩
  · rw [bit, getF_setF_beside _ _ _ _ (by decide) (by decide)]
    exact bit_setB_same (by decide) rfl true s
  · rw [getF_setF_same _ _ _ (by decide)]
    cases t <;> rfl
  · simp [oneOf, Reg.SYS_PWRSTAT_PEND, Reg.SYS_PWRSTAT_PENDTGT]

/-- A refusal during a transition (R616). -/
theorem busyInTransition_clause (u : Transition) (s : State) :
    (busyInTransition u s).finish.answered .refusedBusy ∧ Changes [.resp, .free] (fun _ => False) s (busyInTransition u s).finish := by
  have hfree (d : Nat) : Changes [.resp, .free] (fun _ => False) s (Done.busy d (useFree s)).finish :=
    ((Changes.useFree s).trans (Changes.withResp (useFree s) _)).mono (by simp) (by simp)
  unfold busyInTransition
  split
  · exact ⟨rfl, hfree _⟩
  · exact ⟨rfl, hfree _⟩


/-- LASTWAKE names the command when no other wake source is in the same slow-clock cycle (R65). -/
theorem wakeBy_standby (s : State) (hp : s.sys.phase = .standby) (ht : s.sys.transition = none) :
    (wakeBy 7 s).sys.phase = .resume ∧ (s.sys.lastWake = none → getF Reg.SYS_PWRSTAT_LASTWAKE (wakeBy 7 s) = 7) ∧
      Changes [.sys] (oneOf [Reg.SYS_PWRSTAT]) s (wakeBy 7 s) := by
  have hw : wakeBy 7 s = recordWakeFrom .standby 7 { s with sys := { s.sys with phase := .resume } } := by simp [wakeBy, hp, ht, wakeSourceOf]
  rw [hw]
  refine ⟨rfl, fun hl => ?_, ((Changes.withSys s _).trans (Changes.setF Reg.SYS_PWRSTAT_LASTWAKE _ _)).mono (by simp) ?_⟩
  · simp only [recordWakeFrom, recordWake, hl]
    exact getF_setF_same _ _ _ (by decide)
  · simp [oneOf, Reg.SYS_PWRSTAT_LASTWAKE]

/-- In ACTIVE that no wake led to, the command wakes nothing (R65). -/
theorem wakeBy_active (s : State) (hp : s.sys.phase = .active) (ht : s.sys.transition = none) (hw : s.sys.wakeFrom = none) : wakeBy 7 s = s := by
  simp only [wakeBy, hp, ht, joinWake, hw]
  cases s.sys.lastWake <;> rfl

section
variable {s : State} (hb : s.sys.ctlBusy = false) (hr : bit Reg.BST_CTLSTAT_ROMBAD s = false)
include hb hr

theorem pwrcmd_active (t : LowState) (hp : s.sys.phase = .active) (ht : s.sys.transition = none) (hg : hasRole s = false) :
    ∃ u, (powerDown t s).out = .next u ∧ u.sys.transition = some (requested t s) ∧ u.answered .ok ∧ u.pending = s.pending ∧
      ∀ f : Field, bit f u = bit f (beginTransition t s) := by
  rw [powerDown_active hb hr t hp ht hg]
  exact ⟨_, rfl, congrArg SysState.transition (beginTransition_sys t s), rfl, beginTransition_pending t s, fun _ => rfl⟩

theorem pwrcmdLow_active (hp : s.sys.phase = .active) (ht : s.sys.transition = none) (hg : hasRole s = false) :
    (∃ t, exec .pwrcmdShelf s = .next t ∧ t.sys.transition = some ⟨.shelf, false⟩ ∧ t.answered .ok ∧ t.pending = s.pending) ∧
    (∃ t, exec .pwrcmdStandby s = .next t ∧ t.sys.transition = some ⟨.standby, false⟩ ∧ t.answered .ok ∧ t.pending = s.pending) ∧
    ∃ t, exec .pwrcmdSentinel s = .next t ∧ t.answered .ok ∧ t.pending = s.pending ∧
      (s.sys.sclkFailed = false → t.sys.transition = some ⟨.sentinel, false⟩) ∧
      (s.sys.sclkFailed = true → t.sys.transition = some ⟨.standby, false⟩ ∧ bit Reg.SYS_PWRSTAT_ABORT t = true) := by
  obtain ⟨hshelf, hsentinel, hstandby, -⟩ := pwrcmd_out (coreUp_active hp)
  rw [hshelf, hsentinel, hstandby]
  obtain ⟨a, ha, hta, hoka, hpa, -⟩ := pwrcmd_active hb hr .shelf hp ht hg
  obtain ⟨b, hb', htb, hokb, hpb, -⟩ := pwrcmd_active hb hr .standby hp ht hg
  obtain ⟨c, hc, htc, hokc, hpc, hbit⟩ := pwrcmd_active hb hr .sentinel hp ht hg
  refine ⟨⟨a, ha, by simpa [requested] using hta, hoka, hpa⟩, ⟨b, hb', by simpa [requested] using htb, hokb, hpb⟩,
    c, hc, hokc, hpc, fun hf => by simpa [requested, hf] using htc, fun hf => ⟨by simpa [requested, hf] using htc, ?_⟩⟩
  rw [hbit, beginTransition, if_pos ⟨rfl, hf⟩]
  exact bit_setB_same (by decide) rfl true _

theorem pwrcmdLow_gateway (hp : s.sys.phase = .active) (ht : s.sys.transition = none) (hg : hasRole s = true) (t : LowState) :
    ∃ u, (powerDown t s).out = .next u ∧ bit Reg.SYS_PWRSTAT_PEND u = true ∧ getF Reg.SYS_PWRSTAT_PENDTGT u = t.code ∧ u.answered .ok ∧
      Changes [.resp] (oneOf [Reg.SYS_PWRSTAT]) s u := by
  obtain ⟨hpend, htgt, hch⟩ := recorded_clause t s
  rw [powerDown_gateway hb hr t hp ht hg]
  exact ⟨_, rfl, hpend, htgt, rfl, hch⟩

theorem pwrcmdActive_standby (hp : s.sys.phase = .standby) (ht : s.sys.transition = none) : ∃ t, exec .pwrcmdActive s = .next t ∧
    t.sys.phase = .resume ∧ t.answered .ok ∧ (s.sys.lastWake = none → getF Reg.SYS_PWRSTAT_LASTWAKE t = 7) ∧
    Changes [.resp, .sys] (oneOf [Reg.SYS_PWRSTAT]) s t := by
  obtain ⟨hphase, hlast, hch⟩ := wakeBy_standby (setB Reg.SYS_PWRSTAT_PEND false s) hp ht
  obtain ⟨-, -, -, hact⟩ := pwrcmd_out (coreUp_standby hp)
  rw [hact, powerUp_serves hb hr]
  exact ⟨_, rfl, hphase, rfl, hlast, (((Changes.setB _ _ s).trans hch).trans (Changes.finish_ok _)).mono (by simp) (by simp [oneOf, Reg.SYS_PWRSTAT_PEND])⟩

theorem pwrcmdLow_standby {t : LowState} (hp : s.sys.phase = .standby) (ht : s.sys.transition = none) (hne : t ≠ .standby)
    (hab : ¬ (t = .sentinel ∧ s.sys.sclkFailed = true)) : ∃ u, (powerDown t s).out = .next u ∧
      u.sys = { s.sys with transition := some ⟨t, false⟩ } ∧ u.answered .ok ∧ Changes [.resp, .sys] (fun _ => False) s u := by
  rw [powerDown_fromStandby hb hr hp ht hne hab]
  exact ⟨_, rfl, rfl, rfl, ((Changes.withSys s _).trans (Changes.finish_ok _)).mono (by simp) (by simp)⟩

theorem pwrcmdStandby_standby (hp : s.sys.phase = .standby) (ht : s.sys.transition = none) :
    ∃ u, (powerDown .standby s).out = .next u ∧ u.answered .ok ∧ Changes [.resp] (fun _ => False) s u := by
  rw [powerDown_standby hb hr hp ht]
  exact ⟨_, rfl, rfl, Changes.finish_ok s⟩

theorem pwrcmdActive_active (hp : s.sys.phase = .active) (ht : s.sys.transition = none) (hw : s.sys.wakeFrom = none) : ∃ t,
    exec .pwrcmdActive s = .next t ∧ t.answered .ok ∧ bit Reg.SYS_PWRSTAT_PEND t = false ∧ Changes [.resp] (oneOf [Reg.SYS_PWRSTAT]) s t := by
  obtain ⟨-, -, -, hact⟩ := pwrcmd_out (coreUp_active hp)
  rw [hact, powerUp_serves hb hr, wakeBy_active (setB Reg.SYS_PWRSTAT_PEND false s) hp ht hw]
  exact ⟨_, rfl, rfl, bit_setB_same (by decide) rfl false s,
    ((Changes.setB _ _ s).trans (Changes.finish_ok _)).mono (by simp) (by simp [oneOf, Reg.SYS_PWRSTAT_PEND])⟩

theorem pwrcmdLow_busy {u : Transition} (ht : s.sys.transition = some u) (t : LowState) :
    ∃ v, (powerDown t s).out = .next v ∧ v.answered .refusedBusy ∧ Changes [.resp, .free] (fun _ => False) s v := by
  rw [powerDown_busy hb hr t ht]
  exact ⟨_, rfl, busyInTransition_clause u s⟩

end

/-! ## The stop steps and the entry -/

/-- A frame of class A, whose queue has always room, waits at a port and nothing else changes (R354, R389). -/
theorem Changes.enqueue_classA {g : Frame} (hg : g.cls = .a) (n input : Nat) (s : State) : Changes [.lnk] (fun _ => False) s (enqueue n input g s) := by
  have hroom : queueRoom (fitPayload g).cls = none := by simp [fitPayload, hg, queueRoom]
  simp only [enqueue, hroom, Bool.false_eq_true, if_false]
  exact Changes.modPort ..

theorem Changes.sendLeave (s : State) : Changes [.lnk, .fab] (fun _ => False) s (sendLeave s) := by
  unfold Machine.sendLeave broadcast originate
  split
  · have hflood (g : Frame) (hg : g.cls = .a) (t : State) : Changes [.lnk] (fun _ => False) t (flood 4 g t) :=
      Changes.foldl _ _ (fun u n => by
        split
        · exact Changes.enqueue_classA hg n 4 u
        · exact Changes.refl ..) t
    exact ((Changes.withFab s _).trans (hflood _ rfl _)).mono (by simp) (by simp)
  · exact (Changes.withFab s _).mono (by simp) (by simp)

/-- The stop steps begin (R63, R406). -/
theorem powerTransitionStart_active {tg : LowState} {s : State} (hp : s.sys.phase = .active) (ht : s.sys.transition = some ⟨tg, false⟩) :
    ∃ t, exec .powerTransitionStart s = .next t ∧ t.sys.transition = some ⟨tg, true⟩ ∧ t.pending = s.pending := by
  change ∃ t, execPowerTransitionStart s = .next t ∧ _
  simp only [execPowerTransitionStart, hp, ht, Bool.false_eq_true, if_false]
  have hv (u : State) : powerView (harnessAbort (if tg = .standby then stopService u else sendLeave (stopService u))) = powerView u := by
    simp only [powerView_harnessAbort, apply_ite powerView, powerView_sendLeave, powerView_stopService, ite_self]
  exact ⟨_, rfl, congrArg SysState.transition (sys_of_powerView (hv _)), (pending_of_powerView (hv _) :)⟩

theorem powerTransitionStart_standby {tg : LowState} {s : State} (hp : s.sys.phase = .standby) (ht : s.sys.transition = some ⟨tg, false⟩) :
    ∃ t, exec .powerTransitionStart s = .next t ∧ t.sys = { s.sys with transition := some ⟨tg, true⟩ } ∧
      Changes [.sys, .lnk, .fab] (fun _ => False) s t := by
  change ∃ t, execPowerTransitionStart s = .next t ∧ _
  simp only [execPowerTransitionStart, hp, ht, Bool.false_eq_true, if_false]
  refine ⟨_, rfl, ?_, ((Changes.withSys s _).trans (Changes.sendLeave _)).mono (by simp) (by simp)⟩
  exact sys_of_powerView (powerView_sendLeave _)

/-- SHELF or SENTINEL begins: what no supply keeps is lost (R60, R61). -/
theorem enterUnpowered_clause (ph : Phase) (s : State) : (enterUnpowered ph s).sys.phase = ph ∧ (enterUnpowered ph s).sys.transition = none ∧
    (enterUnpowered ph s).pins = Pins.unpowered ∧ (enterUnpowered ph s).cal.nvm = s.cal.nvm ∧ (enterUnpowered ph s).pending = s.pending :=
  ⟨rfl, rfl, rfl, rfl, rfl⟩

theorem powerStateEntry_out {tg : LowState} {s : State} (ht : s.sys.transition = some ⟨tg, true⟩) (hs : switching s = false) :
    exec .powerStateEntry s = .next (match tg with
      | .standby => enterStandby s
      | .sentinel => enterUnpowered .sentinel s
      | .shelf => enterUnpowered .shelf s) := by
  change execPowerStateEntry s = _
  simp only [execPowerStateEntry, ht, hs]
  cases tg <;> rfl

theorem pcieDown_pending (s : State) : (pcieDown s).pending = s.pending := by
  have hend : (endGen3 s).pending = s.pending := by
    unfold endGen3
    split
    · exact (endRole_keeps _).2.trans (by simp)
    · rfl
  have hfold (t : State) : ((List.range 11).foldl (fun t r => setB (Reg.HST_RCFG_EN r) false t) t).pending = t.pending := rfl
  unfold pcieDown
  split
  · simp only [setB_pending, setF_pending, hfold, hend]
  · rfl

theorem getF_driveFaultLevel {f : Field} (h : f.addr ≠ Reg.CPB_FPSTAT) (s : State) : getF f (driveFaultLevel s) = getF f s := by
  unfold driveFaultLevel
  split
  · exact getF_of_reg (reg_setB_other (f := Reg.CPB_FPSTAT_TONE) h _ _)
  · rfl

/-- The last step of the entry to STANDBY shows the state and the clocks, and takes the fault pair to the fault level (R60, R70). -/
theorem standbyShown (lock : Bool) (u : State) :
    let t := driveFaultLevel (u |> setF Reg.SYS_PWRSTAT_STATE 2 |> setB Reg.SYS_CLKSTAT_CPLLLK false |> setB Reg.SYS_CLKSTAT_LPLLLK lock)
    t.sys = u.sys ∧ getF Reg.SYS_PWRSTAT_STATE t = 2 ∧ t.pending = u.pending := by
  refine ⟨(sys_of_powerView (powerView_driveFaultLevel _) :), ?_, (pending_of_powerView (powerView_driveFaultLevel _) :)⟩
  rw [getF_driveFaultLevel (by decide), setB, getF_setF_other _ _ _ _ (by decide), setB, getF_setF_other _ _ _ _ (by decide)]
  exact getF_setF_same _ _ _ (by decide)

/-- STANDBY begins: the entry ends with the state shown and the fault pair at the fault level (R48, R60, R78). -/
theorem enterStandby_clause (s : State) : (enterStandby s).sys.phase = .standby ∧ (enterStandby s).sys.transition = none ∧
    getF Reg.SYS_PWRSTAT_STATE (enterStandby s) = 2 ∧ (enterStandby s).pending = s.pending := by
  unfold enterStandby
  extract_lets s1 s2 sys1 s3
  have h1 : s1.pending = s.pending := by
    rw [pending_of_books (books_invalidateAll _), pending_of_powerView (powerView_stopPaths _), pcieDown_pending, (endRole_keeps s).2]
  have hquiet : (quiet s1).pending = s.pending := (pending_of_powerView (powerView_quiet s1)).trans h1
  have h2 : s2.pending = s.pending := by
    simp only [s2]
    split
    · exact (setF_pending _ _ _).trans hquiet
    · exact hquiet
  obtain ⟨hsys, hstate, hpend⟩ := standbyShown (linkClock s3) s3
  exact ⟨congrArg SysState.phase hsys, congrArg SysState.transition hsys, hstate, hpend.trans h2⟩

/-- Settles O5: each command is one access whose outcome its rule names; the stop steps and the entry keep the transition asked for until it is reached. -/
theorem powerCommands : Obligations.PowerCommands := by
  unfold Obligations.PowerCommands
  intro s served kept busy
  refine ⟨fun ⟨hb, hr⟩ hp ht hg => pwrcmdLow_active hb hr hp ht hg, fun ⟨hb, hr⟩ hp ht hg => ?_, fun ⟨hb, hr⟩ hp ht => pwrcmdActive_standby hb hr hp ht,
    fun ⟨hb, hr⟩ hp ht => ?_, fun ⟨hb, hr⟩ hp ht hw => pwrcmdActive_active hb hr hp ht hw, fun ⟨hb, hr⟩ hc ht => ?_,
    fun tg hp ht => powerTransitionStart_active hp ht, fun tg hp ht => powerTransitionStart_standby hp ht,
    fun ht hs => ⟨_, powerStateEntry_out ht hs, enterUnpowered_clause .shelf s⟩,
    fun ht hs => ⟨_, powerStateEntry_out ht hs, enterUnpowered_clause .sentinel s⟩,
    fun ht hs => ⟨_, powerStateEntry_out ht hs, enterStandby_clause s⟩⟩
  · obtain ⟨hshelf, hsentinel, hstandby, -⟩ := pwrcmd_out (coreUp_active hp)
    rw [hshelf, hsentinel, hstandby]
    exact ⟨pwrcmdLow_gateway hb hr hp ht hg .shelf, pwrcmdLow_gateway hb hr hp ht hg .sentinel, pwrcmdLow_gateway hb hr hp ht hg .standby⟩
  · obtain ⟨hshelf, hsentinel, hstandby, -⟩ := pwrcmd_out (coreUp_standby hp)
    rw [hshelf, hsentinel, hstandby]
    exact ⟨pwrcmdLow_standby hb hr hp ht (by decide) (by simp), fun hf => pwrcmdLow_standby hb hr hp ht (by decide) (by simp [hf]),
      pwrcmdStandby_standby hb hr hp ht⟩
  · obtain ⟨hshelf, hsentinel, hstandby, -⟩ := pwrcmd_out hc
    obtain ⟨u, hu⟩ := Option.isSome_iff_exists.1 ht
    rw [hshelf, hsentinel, hstandby]
    exact ⟨pwrcmdLow_busy hb hr hu .shelf, pwrcmdLow_busy hb hr hu .sentinel, pwrcmdLow_busy hb hr hu .standby⟩

end Sys2Proof.Machine
end

