-- ==== Sys2Proof/Proofs/SystemViewRefutations.lean ====
section
/-!
PROOFS. What refutes statements of the family 01_system_view: for each a concrete state and command, and what the model answers there.
-/
namespace Sys2Proof.Machine

/-! ## A trip in the slow-clock cycle of a wake -/

/-- ACTIVE, entered from STANDBY by SYS_PWRCMD in the present slow-clock cycle, with the always-on domain fed from VMOD. -/
def wokenThisCycle : State :=
  { State.reset with sys := { SysState.reset with phase := .active, aonFromVin := false, lastWake := some (0, 7), wakeFrom := some .standby } }

/-- R65: of several wake sources in one slow-clock cycle the lowest code is recorded, and a trip (code 4) stands below SYS_PWRCMD (code 7). -/
theorem comparatorTrip_wokenThisCycle_lastWake :
    nextView (fun t => t.sys.lastWake) (exec (.comparatorTrip 1 true) wokenThisCycle) = some (some (0, 4)) := by decide

/-- Refutes O18: a trip in the slow-clock cycle of the wake that led to ACTIVE is one more wake source, and LASTWAKE takes the lower code (R65); the
statement has the power state and SYS_PWRSTAT unchanged wherever ACTIVE is held without a transition. -/
theorem not_comparatorTrips : ¬ Obligations.ComparatorTrips := by
  unfold Obligations.ComparatorTrips
  intro h
  obtain ⟨-, htrip, -⟩ := h wokenThisCycle
  obtain ⟨t, ht, -, hsame, -⟩ := htrip 1 true (by decide) (by decide) (by decide) (by decide) (by decide) (by decide)
  have hsys : t.sys = wokenThisCycle.sys := hsame .sys (by decide)
  have hw := comparatorTrip_wokenThisCycle_lastWake
  rw [nextView_exec _ ht, hsys] at hw
  exact absurd hw (by decide)

/-! ## A session while both history banks are fenced -/

/-- A node in ACTIVE with port 0 UP and a home over it in one hop, five words in history, both history banks fenced, and session 8 open. -/
def fencedStreamer : State :=
  { activeWith [(Reg.CMS_HWIDX, 5#32), (Reg.FLT_FENCE0, 0x30000#32)] |> setF (Reg.LNK_PSTAT_STATE 0) 3 |> setF (Reg.FAB_HOME_HCTL_PHOP 0) 1
      |> setB (Reg.FAB_HOME_HCTL_VALID 0) true with
    fab := { FabState.reset with sessions := [(8, ⟨0, 0, 1, 1#32, 1, 0, 0#32, [], 0⟩)] } }

/-- R500: with both banks fenced no history is sent. -/
theorem streamFrameSend_fencedStreamer_queue :
    nextView (fun t => (port (routePort 0#32) t).qb.map (fun e => e.2.type)) (exec (.streamFrameSend 8) fencedStreamer) = some [] := by decide

/-- Refutes O36: while both history banks are fenced an open session sends nothing (R500); the statement has its frame leave whatever is fenced. -/
theorem not_hoofbeatAndStreams : ¬ Obligations.HoofbeatAndStreams := by
  unfold Obligations.HoofbeatAndStreams
  intro h
  obtain ⟨-, -, -, -, hstream, -⟩ := h fencedStreamer
  obtain ⟨t, ht, htype, -⟩ := hstream 8 0 0#32 1 (by decide) (by decide) (by decide) (by decide) (by decide) (by decide) (by decide) (by decide)
    (by decide) (by decide)
  have hq := streamFrameSend_fencedStreamer_queue
  rw [nextView_exec _ ht, htype] at hq
  exact absurd hq (by decide)

/-! ## The first frame of generation 2 while the host interface is tested -/

/-- A device that TBS_CFG.ROOT keeps from being the time root, and that is none, stays so. -/
theorem refreshRoot_never {s : State} (hc : getF Reg.TBS_CFG_ROOT s = 2) (hi : bit Reg.TBS_STAT_ISROOT s = false) : refreshRoot s = s := by
  have hr : isRoot s = false := by simp [isRoot, hc]
  simp [refreshRoot, hr, hi]

/-- A device that is never the time root and does not enumerate by itself takes the role of generation 2 with nothing else done than the end of a test
of the host interface (R399, R467, R570). -/
theorem takeRole_plain {s : State} (hp : s.sys.phase = .active) (hr : hasRole s = false) (hg : getF Reg.HST_STAT_GEN s ≠ 3)
    (hc : getF Reg.TBS_CFG_ROOT s = 2) (hi : bit Reg.TBS_STAT_ISROOT s = false) (ha : bit Reg.FAB_ENCFG_AUTO s = false) :
    takeRole 2 s = setB Reg.HST_STAT_ROLE true (setF Reg.HST_STAT_GEN 2 (abortItem 20 s)) := by
  have hreg {a : Nat} (hb : a < Reg.BST_CMD) (hn : a ≠ Reg.HST_STAT) :
      reg (setB Reg.HST_STAT_ROLE true (setF Reg.HST_STAT_GEN 2 (abortItem 20 s))) a = reg s a := by
    rw [reg_setB_other (f := Reg.HST_STAT_ROLE) hn, reg_setF_other (f := Reg.HST_STAT_GEN) hn, (TestOnly.abortItem 20 s).reg hb]
  have hroot : refreshRoot (setB Reg.HST_STAT_ROLE true (setF Reg.HST_STAT_GEN 2 (abortItem 20 s))) =
      setB Reg.HST_STAT_ROLE true (setF Reg.HST_STAT_GEN 2 (abortItem 20 s)) :=
    refreshRoot_never ((getF_of_reg (hreg (by decide) (by decide))).trans hc) ((bit_of_reg (hreg (by decide) (by decide))).trans hi)
  have hauto : bit Reg.FAB_ENCFG_AUTO (setB Reg.HST_STAT_ROLE true (setF Reg.HST_STAT_GEN 2 (abortItem 20 s))) = false :=
    (bit_of_reg (hreg (by decide) (by decide))).trans ha
  simp [takeRole, hp, hr, hg, hroot, hauto]

/-- ACTIVE without a role, never the time root, while self-test runs partition 4, the host interface. -/
def testingHost : State :=
  { activeWith [(Reg.FAB_ENCFG, 0#32), (Reg.TBS_CFG, 2#32)] with
    bst := { BstState.reset with run := some ⟨false, false, [], some 20, 0, 0, 0, none, false, false, false⟩ } }

/-- The same, with the reply that a transaction of generation 2 begins. -/
def replyingHost : State := { testingHost with hst := { testingHost.hst with spi := 2, reply := wordBytes (g2Status testingHost), g2At := testingHost.now } }

/-- R571: the stores of the host interface return reset, the reply of the transaction among them. -/
theorem abortItem_replyingHost_hst : (abortItem 20 replyingHost).hst.reply = [] ∧ (abortItem 20 replyingHost).hst.lost = replyingHost.hst.lost := by decide

/-- R570, R571: the role taken ends the test, and its reply with it. -/
theorem ack_testingHost_reply : nextView (fun t => t.hst.reply) (exec (.ack false false false) testingHost) = some [] := by
  have htake : takeRole 2 replyingHost = setB Reg.HST_STAT_ROLE true (setF Reg.HST_STAT_GEN 2 (abortItem 20 replyingHost)) :=
    takeRole_plain (by decide) (by decide) (by decide) (by decide) (by decide) (by decide)
  have hg2 (act : State → Out) : g2Transaction act testingHost = act (takeRole 2 replyingHost) :=
    (if_neg (by decide)).trans (if_neg (by decide))
  obtain ⟨hreply, hlost⟩ := abortItem_replyingHost_hst
  have hn : nth (abortItem 20 replyingHost).hst.lost 2 0 = 0 := by rw [hlost]; decide
  show nextView _ (execAck false false false testingHost) = _
  rw [execAck, hg2, htake]
  simp [nextView, setLastErr, roomEvent, hn, hreply]

/-- Refutes O41: the frame that takes the role while the host interface is under test ends the test, which resets the stores of the interface and
with them the status word; the statement has the status word as the reply in every state without a role. -/
theorem not_spiGenerations : ¬ Obligations.SpiGenerations := by
  unfold Obligations.SpiGenerations
  intro h
  obtain ⟨-, -, -, -, -, -, -, -, -, hfirst, -⟩ := h testingHost
  obtain ⟨t, ht, -, -, -, hreply, -⟩ := hfirst (by decide) (by decide) (by decide)
  have hr := ack_testingHost_reply
  rw [nextView_exec _ ht, hreply] at hr
  exact absurd hr (by decide)

/-! ## The loss of the link with a power command pending -/

/-- A gateway of generation 3 in L0, with STANDBY recorded for the end of the role and a calibration run asked for. -/
def leavingGateway : State :=
  { activeWith [(Reg.HST_STAT, 0x113#32)] |> setB Reg.SYS_PWRSTAT_PEND true |> setF Reg.SYS_PWRSTAT_PENDTGT 2 with
    cal := { CalState.reset with run := some ⟨.direct, [], 0, [], [], 0x40000000#32, 0x40000000#32, none, 0⟩ } }

set_option maxRecDepth 20000 in
/-- R18, R64, R536: the role ends with the link, the transition begins, and the run ends with it. -/
theorem pcieLinkDown_leavingGateway_run : nextView (fun t => t.cal.run.isSome) (exec .pcieLinkDown leavingGateway) = some false := by decide

/-- Refutes O43: the link down ends the role of generation 3, which enters the recorded power state, and a transition to it ends a calibration run
first; the statement has the calibration state unchanged. -/
theorem not_pcieLink : ¬ Obligations.PcieLink := by
  unfold Obligations.PcieLink
  intro h
  obtain ⟨-, hdown, -⟩ := h leavingGateway
  obtain ⟨t, ht, -, -, -, -, -, -, -, hcal, -⟩ := hdown (by decide)
  have hr := pcieLinkDown_leavingGateway_run
  rw [nextView_exec _ ht, hcal] at hr
  exact absurd hr (by decide)

/-! ## A save of the harness with more coefficients than inputs -/

theorem length_wordBytes (w : Word) : (wordBytes w).length = 4 := by simp [wordBytes]

theorem length_natBytes (n v : Nat) : (natBytes n v).length = n := by simp [natBytes]

/-- A customer copy takes 70 bytes beside its coefficients and its harness values (R538). -/
theorem length_copyBytes (gen : Nat) (coef : List (Word × Word)) (hres : List Nat) (rbal : Nat) (s : State) :
    (copyBytes gen coef hres rbal s).length = 70 + 8 * coef.length + 2 * hres.length := by
  simp [copyBytes, length_wordBytes, length_natBytes, List.length_flatMap]
  omega

/-- A byte in an erased sector of a write that begins, behind what the write programs at first, is erased (R537, R541). -/
theorem nvmAt_beginJob_erased {j : NvmJob} {base o : Nat} {bs : List Byte} {s : State} (tk : Option Ticket) (hj : jobBytes j s = (base, bs))
    (he : jobErases j base bs.length s = true) (ho : 0x400 ≤ o) (hlo : base / 256 ≤ o / 256) (hhi : o / 256 ≤ (base + bs.length - 1) / 256)
    (hpast : base + (bs.length - jobTail j) ≤ o) : nvmAt o (beginJob j tk s) = 0xFF#8 := by
  have hnvm : (beginJob j tk s).cal.nvm = nvmFill base (bs.take (bs.length - jobTail j))
      (s.cal.nvm.filter (fun e => e.1 / 256 < base / 256 || (base + bs.length - 1) / 256 < e.1 / 256)) := by
    simp only [beginJob, hj, he, if_true, refreshBusy, setB_cal]
    split
    · rfl
    · split <;> rfl
  have hout : assoc o (s.cal.nvm.filter (fun e => e.1 / 256 < base / 256 || (base + bs.length - 1) / 256 < e.1 / 256)) = none :=
    assoc_filter_out (p := fun k => k / 256 < base / 256 || (base + bs.length - 1) / 256 < k / 256) (by simp; omega) _
  have htaken : (bs.take (bs.length - jobTail j))[o - base]? = none := List.getElem?_eq_none (by simp; omega)
  simp [nvmAt, Nat.not_lt.2 ho, hnvm, nvmFill_get, htaken, hout]

/-- CALIBRATE with copy A in use and nothing in progress, 114 coefficients where the device has 113 inputs, and one byte of the system records programmed. -/
def overfullCal : State :=
  { activeWith [(Reg.CAL_STAT, 1#32), (Reg.BST_LCSTAT, 1#32)] with
    cal := { CalState.reset with coef := List.replicate 114 (0#32, 0#32), nvm := [(0xCFF, 0#8)] } }

/-- R538, R543: the copy that the save writes has 1032 bytes, from 0x800. -/
theorem jobBytes_overfullCal : ∃ bs, jobBytes .harness { overfullCal with cal := { overfullCal.cal with queue := [] } } = (0x800, bs) ∧ bs.length = 1032 :=
  ⟨_, rfl, by rw [length_copyBytes]; rfl⟩

/-- The controller that serves begins the first write that waits (R544). -/
theorem nextJob_begins {s : State} {j : NvmJob} {tk : Option Ticket} {l : List (NvmJob × Option Ticket)} (hop : s.cal.op = none)
    (he : s.cal.epochPend = none) (hs : controllerServes s = true) (hq : s.cal.queue = (j, tk) :: l) :
    nextJob s = beginJob j tk { s with cal := { s.cal with queue := l } } := by
  have hgo : ¬ (s.cal.op.isSome || s.cal.epochPend.isSome || !controllerServes s) = true := by simp [hop, he, hs]
  rw [nextJob, if_neg hgo, hq]

theorem askJob_idle {s : State} (j : NvmJob) (tk : Option Ticket) (hop : s.cal.op = none) (hq : s.cal.queue = []) (he : s.cal.epochPend = none)
    (hs : controllerServes s = true) : askJob j tk s = beginJob j tk { s with cal := { s.cal with queue := [] } } :=
  nextJob_begins (s := { s with cal := { s.cal with queue := s.cal.queue ++ [(j, tk)] } }) hop he hs (by simp [hq])

theorem hsave_overfullCal :
    exec (.hsave .direct) overfullCal = .next (beginJob .harness (some .direct) { overfullCal with cal := { overfullCal.cal with queue := [] } }) := by
  have hcmd : hsaveCommand .direct overfullCal = Done.later (askJob .harness (some .direct) overfullCal) := by
    have hsrc : (getF Reg.CAL_STAT_SRC overfullCal == 0) = false := by decide
    have hlife : lifecycle overfullCal = 1 := by decide
    have hfree : calOccupied overfullCal = false := by decide
    have hctl (d : Done) : withController overfullCal d = d := (if_neg (by decide)).trans (if_neg (by decide))
    simp only [hsaveCommand, hsrc, Bool.and_false, Bool.false_eq_true, if_false, saveCommand, hlife, hfree, hctl]
    rfl
  calc
    exec (.hsave .direct) overfullCal = (hsaveCommand .direct overfullCal).via .direct := by
        change execHsave .direct overfullCal = _
        rw [execHsave, if_pos (by decide)]
    _ = .next (askJob .harness (some .direct) overfullCal) := by rw [hcmd]; rfl
    _ = _ := by rw [askJob_idle _ _ (by decide) (by decide) (by decide) (by decide)]

/-- Refutes O53: with more coefficients than inputs a save writes more than the 1 KiB of a copy and erases the sector of the system records behind it;
the statement ranges over every state, also over those that no command reaches, and has every byte outside the copy's area unchanged. -/
theorem not_nvmCommands : ¬ Obligations.NvmCommands := by
  unfold Obligations.NvmCommands
  intro h
  obtain ⟨hsave, -⟩ := h overfullCal
  obtain ⟨t, ht, -, -, -, -, hkept, -⟩ := hsave .direct (by decide) (by decide) (by decide)
  obtain ⟨bs, hj, hlen⟩ := jobBytes_overfullCal
  have herased := nvmAt_beginJob_erased (o := 0xCFF) (some .direct) hj rfl (by decide) (by decide) (by rw [hlen]) (by rw [hlen]; decide)
  have hout := hkept 0xCFF (fun hin => absurd hin.2 (by decide))
  rw [hsave_overfullCal] at ht
  injection ht with ht
  rw [← ht, herased] at hout
  exact absurd hout (by decide)

end Sys2Proof.Machine
end

