-- ==== Sys2Proof/Proofs/PinAndClockEvents.lean ====
section
/-!
PROOFS. Harness, strap, clock and stuck-input events (R38, R46, R59, R71, R75, R76, R84, R89, R90).
-/
namespace Sys2Proof.Machine

/-- A register that a command does not change. -/
theorem Changes.reg_eq {ps : List Part} {rs : Nat → Prop} {s t : State} (h : Changes ps rs s t) {a : Nat} (ha : ¬ rs a) : reg t a = reg s a := h.2.2 a ha

/-! ### Fault sources -/

/-- A source that follows a condition stands as the condition does. -/
theorem natMem_follow (src : Nat) (active : Bool) (s : State) (h : muted src s = false) : natMem src (follow src active s).flt.lines = active := by
  cases active with
  | true => exact natMem_raise src s h
  | false => exact natMem_drop src s

/-- The sources below the cells' are never muted (R489). -/
theorem muted_below {src : Nat} (h : src < 16) (s : State) : muted src s = false := by
  simp only [muted, Bool.and_eq_false_iff, Bool.or_eq_false_iff, decide_eq_false_iff_not, beq_eq_false_iff_ne]
  omega

/-! ### Harness wires and the LCM strap -/

/-- R38: the change of a wire is kept as its condition, and does nothing else. -/
theorem harnessWireChange_clause (w : Nat) (o : Bool) (s : State) : ∃ t, exec (.harnessWireChange w o) s = .next t ∧
    natMem w t.sys.openWires = o ∧ Changes [.sys] (fun _ => False) s t := by
  refine ⟨_, rfl, ?_, Changes.withSys s _⟩
  cases o with
  | true => exact (natMem_natPut w w _).trans (by simp)
  | false => exact (natMem_natErase w w _).trans (by simp)

/-- What `SYS_STRAPSTAT` shows of a change of LCM before source 12 follows it (R90). -/
def strapShown (l : Bool) (s : State) : State :=
  setB Reg.SYS_STRAPSTAT_LCMNOW l (incSat Reg.SYS_STRAPSTAT_LCMCHG { s with sys := { s.sys with lcmPin := l } })

theorem lcmPinChange_next {s : State} {l : Bool} (hc : coreUp s = true) (hl : s.sys.lcmPin ≠ l) :
    exec (.lcmPinChange l) s = .next (follow 12 (l != bit Reg.SYS_STRAPSTAT_LCM (strapShown l s)) (strapShown l s)) :=
  (if_neg hl).trans (if_pos hc)

/-- The level sampled at the release of the core reset stays (R46). -/
theorem lcm_strapShown (l : Bool) (s : State) : bit Reg.SYS_STRAPSTAT_LCM (strapShown l s) = bit Reg.SYS_STRAPSTAT_LCM s := by
  simp only [bit, strapShown, setB, incSat, addSat]
  rw [getF_setF_beside _ _ _ _ (by decide) (by decide), getF_setF_beside _ _ _ _ (by decide) (by decide)]
  rfl

theorem lcmchg_strapShown (l : Bool) (s : State) :
    getF Reg.SYS_STRAPSTAT_LCMCHG (strapShown l s) = min (getF Reg.SYS_STRAPSTAT_LCMCHG s + 1) 255 := by
  rw [strapShown, setB, getF_setF_beside _ _ _ _ (by decide) (by decide)]
  exact getF_incSat _ _ (by decide)

/-- R46, R90: the strap is shown and counted, and source 12 follows its difference from the mode sampled. -/
theorem lcmPinChange_clause {s : State} (hc : coreUp s = true) {l : Bool} (hl : s.sys.lcmPin ≠ l) : ∃ t, exec (.lcmPinChange l) s = .next t ∧
    t.sys = { s.sys with lcmPin := l } ∧ bit Reg.SYS_STRAPSTAT_LCMNOW t = l ∧
    getF Reg.SYS_STRAPSTAT_LCMCHG t = min (getF Reg.SYS_STRAPSTAT_LCMCHG s + 1) 255 ∧
    bit Reg.SYS_STRAPSTAT_LCM t = bit Reg.SYS_STRAPSTAT_LCM s ∧ natMem 12 t.flt.lines = (l != bit Reg.SYS_STRAPSTAT_LCM s) ∧
    Changes [.sys, .flt] (oneOf [Reg.SYS_STRAPSTAT, Reg.FLT_ACT 0]) s t := by
  have hstrap (b : Bool) : reg (follow 12 b (strapShown l s)) Reg.SYS_STRAPSTAT = reg (strapShown l s) Reg.SYS_STRAPSTAT := reg_follow (by decide) _ _
  refine ⟨_, lcmPinChange_next hc hl, follow_sys .., ?_, ?_, ?_, ?_, ?_⟩
  · exact (bit_of_reg (f := Reg.SYS_STRAPSTAT_LCMNOW) (hstrap _)).trans (bit_setB_same (by decide) rfl l _)
  · exact (getF_of_reg (f := Reg.SYS_STRAPSTAT_LCMCHG) (hstrap _)).trans (lcmchg_strapShown l s)
  · exact (bit_of_reg (f := Reg.SYS_STRAPSTAT_LCM) (hstrap _)).trans (lcm_strapShown l s)
  · rw [natMem_follow _ _ _ (muted_below (by decide) _), lcm_strapShown]
  · exact ((((Changes.withSys s _).trans (Changes.incSat _ _)).trans (Changes.setB _ l _)).trans (Changes.follow 12 _ _)).mono (by simp)
      (by simp [oneOf, Reg.SYS_STRAPSTAT_LCMCHG, Reg.SYS_STRAPSTAT_LCMNOW])

/-! ### Clocks -/

/-- R59, R71: SENTINEL's functions are timed from MOSC from now on, and source 6 is active. -/
theorem sclkFailure_clause {s : State} (hc : coreUp s = true) : ∃ t, exec .sclkFailure s = .next t ∧ bit Reg.SYS_CLKSTAT_SCLKOK t = false ∧
    t.sys.sclkFailed = true ∧ natMem 6 t.flt.lines = true ∧ Changes [.sys, .flt] (oneOf [Reg.SYS_CLKSTAT]) s t := by
  refine ⟨_, if_pos hc, ?_, congrArg SysState.sclkFailed (raise_sys ..), natMem_raise _ _ (muted_below (by decide) _), ?_⟩
  · exact (bit_of_reg (reg_raise ..)).trans (bit_setB_same (by decide) rfl false _)
  · exact (((Changes.withSys s _).trans (Changes.setB _ false _)).trans (Changes.raise 6 _)).mono (by simp) (by simp [oneOf, Reg.SYS_CLKSTAT_SCLKOK])

/-- R59, R84: source 7 is active. -/
theorem moscFailure_clause {s : State} (hc : coreUp s = true) : ∃ t, exec .moscFailure s = .next t ∧ bit Reg.SYS_CLKSTAT_MOSCOK t = false ∧
    natMem 7 t.flt.lines = true ∧ Changes [.flt] (oneOf [Reg.SYS_CLKSTAT]) s t := by
  refine ⟨_, if_pos hc, ?_, natMem_raise _ _ (muted_below (by decide) _), ?_⟩
  · exact (bit_of_reg (reg_raise ..)).trans (bit_setB_same (by decide) rfl false _)
  · exact ((Changes.setB _ false s).trans (Changes.raise 7 _)).mono (by simp) (by simp [oneOf, Reg.SYS_CLKSTAT_MOSCOK])

/-- The lock bit of each PLL is one bit of `SYS_CLKSTAT` (R84). -/
theorem pllBit_shape (p : Pll) : (pllBit p).addr = Reg.SYS_CLKSTAT ∧ (pllBit p).lo + (pllBit p).w ≤ 32 ∧ (pllBit p).w = 1 := by
  cases p <;> decide

/-- The lock bit of a PLL cleared, before source 8 reports the loss. -/
theorem lockLost_clause (p : Pll) (s : State) : bit (pllBit p) (setB (pllBit p) false s) = false ∧
    Changes [] (oneOf [Reg.SYS_CLKSTAT]) s (setB (pllBit p) false s) := by
  obtain ⟨haddr, hfits, hone⟩ := pllBit_shape p
  exact ⟨bit_setB_same hfits hone false s, (Changes.setB _ false s).mono (by simp) (by simp [oneOf, haddr])⟩

/-- What source 8 reports touches no register, whether it stands (CPLL, TPLL) or is one event (LPLL, PPLL). -/
theorem pllLossOfLock_next {s : State} (hc : coreUp s = true) {p : Pll} (hp : bit (pllBit p) s = true) : ∃ t, exec (.pllLossOfLock p) s = .next t ∧
    Changes [.flt] (fun _ => False) (setB (pllBit p) false s) t := by
  have hgo : (coreUp s && bit (pllBit p) s) = true := by rw [hc, hp]; rfl
  refine ⟨_, if_pos hgo, ?_⟩
  cases p with
  | core | timebase => exact Changes.raise 8 _
  | link | pwm => exact Changes.pulse 8 _

/-- R59, R84: an enabled PLL that loses lock shows so. -/
theorem pllLossOfLock_clause {s : State} (hc : coreUp s = true) {p : Pll} (hp : bit (pllBit p) s = true) : ∃ t,
    exec (.pllLossOfLock p) s = .next t ∧ bit (pllBit p) t = false ∧ Changes [.flt] (oneOf [Reg.SYS_CLKSTAT]) s t := by
  obtain ⟨t, ht, hch⟩ := pllLossOfLock_next hc hp
  obtain ⟨hbit, hlost⟩ := lockLost_clause p s
  exact ⟨t, ht, (bit_of_reg (hch.reg_eq id)).trans hbit, (hlost.trans hch).mono (by simp) (by simp)⟩

/-- R74, R84: in start-up the lock of CPLL and of TPLL is kept and shown. -/
theorem startLock_clause {s : State} (hp : s.sys.phase = .core) :
    (∃ t, exec .cpllLock s = .next t ∧ t.sys = { s.sys with cpll := true } ∧ bit Reg.SYS_CLKSTAT_CPLLLK t = true ∧
      Changes [.sys] (oneOf [Reg.SYS_CLKSTAT]) s t) ∧
    ∃ t, exec .tpllLock s = .next t ∧ t.sys = { s.sys with tpll := true } ∧ bit Reg.SYS_CLKSTAT_TPLLLK t = true ∧
      Changes [.sys] (oneOf [Reg.SYS_CLKSTAT]) s t := by
  have hcpll : exec .cpllLock s = .next (setB Reg.SYS_CLKSTAT_CPLLLK true { s with sys := { s.sys with cpll := true } }) := by
    change execCpllLock s = _
    rw [execCpllLock, hp]
  have htpll : exec .tpllLock s = .next (setB Reg.SYS_CLKSTAT_TPLLLK true { s with sys := { s.sys with tpll := true } }) := by
    change execTpllLock s = _
    rw [execTpllLock, hp]
  exact ⟨⟨_, hcpll, rfl, bit_setB_same (by decide) rfl true _,
      ((Changes.withSys s _).trans (Changes.setB _ true _)).mono (by simp) (by simp [oneOf, Reg.SYS_CLKSTAT_CPLLLK])⟩,
    _, htpll, rfl, bit_setB_same (by decide) rfl true _,
      ((Changes.withSys s _).trans (Changes.setB _ true _)).mono (by simp) (by simp [oneOf, Reg.SYS_CLKSTAT_TPLLLK])⟩

/-! ### Stuck inputs -/

/-- R75: WAKE has been high for WAKETO. -/
theorem wakeStuckTimeout_clause {s : State} (hc : coreUp s = true) (hw : s.sys.wakeHigh = true) (hon : getF Reg.SYS_PINCFG_WAKETO s ≠ 0)
    (ht : s.sys.wakeAt + getF Reg.SYS_PINCFG_WAKETO s * 1000 * ms ≤ s.now) : ∃ t, exec .wakeStuckTimeout s = .next t ∧
    natMem 9 t.flt.lines = true ∧ Changes [.flt] (fun _ => False) s t :=
  ⟨_, if_pos (by simp [hc, hw, hon, ht]), natMem_raise _ _ (muted_below (by decide) _), Changes.raise 9 s⟩

/-- R75: PERSTN has been low for PERSTTO after it has been high. -/
theorem perstnStuckTimeout_clause {s : State} (hc : coreUp s = true) (hp : s.sys.perstLow = true) (hseen : s.sys.perstSeenHigh = true)
    (hon : getF Reg.SYS_PINCFG_PERSTTO s ≠ 0) (ht : s.sys.perstAt + getF Reg.SYS_PINCFG_PERSTTO s * 1000 * ms ≤ s.now) : ∃ t,
    exec .perstnStuckTimeout s = .next t ∧ natMem 10 t.flt.lines = true ∧ Changes [.flt] (fun _ => False) s t :=
  ⟨_, if_pos (by simp [hc, hp, hseen, hon, ht]), natMem_raise _ _ (muted_below (by decide) _), Changes.raise 10 s⟩

/-- The filtered WAKE level is kept, and shown while the core runs (R89). -/
theorem setWakeLevel_clause (h : Bool) (s : State) : (setWakeLevel h s).sys = { s.sys with wakeHigh := h } ∧
    Changes [.sys] (oneOf [Reg.SYS_PINSTAT]) s (setWakeLevel h s) := by
  unfold setWakeLevel
  extract_lets sys1 s1
  have h1 : Changes [.sys] (fun _ => False) s s1 := Changes.withSys s _
  split
  · exact ⟨rfl, (h1.trans (Changes.setB _ h s1)).mono (by simp) (by simp [oneOf, Reg.SYS_PINSTAT_WAKELVL])⟩
  · exact ⟨rfl, h1.mono (by simp) (by simp)⟩

/-- R76: WAKE low ends source 9 and arms wake by WAKE. -/
theorem wakeLowClear_clause (s : State) : ∃ t, exec .wakeLowClear s = .next t ∧ natMem 9 t.flt.lines = false ∧ t.sys.wakeHigh = false ∧
    t.sys.wakeArmed = true ∧ Changes [.sys, .flt] (oneOf [Reg.SYS_PINSTAT, Reg.FLT_ACT 0]) s t := by
  obtain ⟨hlevel, hch⟩ := setWakeLevel_clause false s
  refine ⟨_, rfl, natMem_drop 9 _, ?_, congrArg SysState.wakeArmed (drop_sys ..), ?_⟩
  · exact (congrArg SysState.wakeHigh (drop_sys ..)).trans (congrArg SysState.wakeHigh hlevel :)
  · exact ((hch.trans (Changes.withSys _ _)).trans (Changes.drop 9 _)).mono (by simp) (by simp [oneOf])

/-- R75: the release of PERSTN ends source 10. -/
theorem perstnRelease_clause (s : State) : ∃ t, exec .perstnRelease s = .next t ∧ t.sys.perstLow = false ∧ natMem 10 t.flt.lines = false ∧
    Changes [.sys, .flt] (oneOf [Reg.FLT_ACT 0]) s t :=
  ⟨_, rfl, congrArg SysState.perstLow (drop_sys ..), natMem_drop 10 _,
    ((Changes.withSys s _).trans (Changes.drop 10 _)).mono (by simp) (by simp [oneOf])⟩

/-- Before WAKETO has passed nothing happens (R75). -/
theorem wakeStuckTimeout_early {s : State} (h : s.now < s.sys.wakeAt + getF Reg.SYS_PINCFG_WAKETO s * 1000 * ms) :
    exec .wakeStuckTimeout s = .next s :=
  if_neg (by simp [Nat.not_le.2 h])

/-- Before PERSTTO has passed nothing happens (R75). -/
theorem perstnStuckTimeout_early {s : State} (h : s.now < s.sys.perstAt + getF Reg.SYS_PINCFG_PERSTTO s * 1000 * ms) :
    exec .perstnStuckTimeout s = .next s :=
  if_neg (by simp [Nat.not_le.2 h])

/-- Settles O2: each event changes the parts and registers of the operations that it is made of, and its source stands as its condition does. -/
theorem pinAndClockEvents : Obligations.PinAndClockEvents := by
  unfold Obligations.PinAndClockEvents
  intro s
  exact ⟨fun w o => harnessWireChange_clause w o s, fun hc _ hl => lcmPinChange_clause hc hl, sclkFailure_clause, moscFailure_clause,
    fun hc _ hp => pllLossOfLock_clause hc hp, startLock_clause, wakeStuckTimeout_clause, wakeLowClear_clause s, perstnStuckTimeout_clause,
    perstnRelease_clause s, wakeStuckTimeout_early, perstnStuckTimeout_early⟩

end Sys2Proof.Machine
end

