-- ==== Sys2Proof/Proofs/StartView.lean ====
section
/-!
PROOFS. What the operations of start-up leave alone of the phase, of the mark that the profile is applied, and of the queue: one lemma for each function of the
model, in the order in which they call each other.
-/
namespace Sys2Proof.Machine

/-! ## The start view -/

/-- What start-up moves by its own steps alone: the phase and the mark that the profile is applied; and the queue. -/
structure StartView where
  phase : Phase
  applied : Bool
  pending : List Instr

def startView (s : State) : StartView := ⟨s.sys.phase, s.sys.profileApplied, s.pending⟩

section
variable {s t : State} (h : startView t = startView s)
include h

theorem phase_of_startView : t.sys.phase = s.sys.phase := congrArg StartView.phase h
theorem applied_of_startView : t.sys.profileApplied = s.sys.profileApplied := congrArg StartView.applied h
theorem pending_of_startView : t.pending = s.pending := congrArg StartView.pending h

end

theorem startView_of_powerView {s t : State} (h : powerView t = powerView s) : startView t = startView s := by
  simp only [startView, sys_of_powerView h, pending_of_powerView h]

/-! ### Updates of a state -/

/-- Every part but the power state and the queue. -/
theorem startView_parts (s : State) (regs : List (Nat × Word)) (now ft free : Nat) (resp : Option Resp) (pins : Pins) (cms : CmsState) (xck : XckState)
    (imp : ImpState) (cpb : CpbState) (flt : FltState) (lnk : LnkState) (fab : FabState) (hst : HstState) (cnv : CnvState) (ctl : CtlState)
    (tbs : TbsState) (cal : CalState) (thm : ThmState) (bst : BstState) :
    startView { s with
      regs := regs, now := now, ft := ft, free := free, resp := resp, pins := pins, cms := cms, xck := xck, imp := imp, cpb := cpb, flt := flt
      lnk := lnk, fab := fab, hst := hst, cnv := cnv, ctl := ctl, tbs := tbs, cal := cal, thm := thm, bst := bst } = startView s := (rfl)

theorem startView_setReg (a : Nat) (v : Word) (s : State) : startView (setReg a v s) = startView s := (rfl)
theorem startView_setF (f : Field) (v : Nat) (s : State) : startView (setF f v s) = startView s := (rfl)
theorem startView_setB (f : Field) (b : Bool) (s : State) : startView (setB f b s) = startView s := (rfl)
theorem startView_setRegBit (a k : Nat) (b : Bool) (s : State) : startView (setRegBit a k b s) = startView s := (rfl)
theorem startView_incSat (f : Field) (s : State) : startView (incSat f s) = startView s := (rfl)
theorem startView_useFree (s : State) : startView (useFree s) = startView s := (rfl)

theorem startView_foldl {α : Type} (f : State → α → State) (l : List α) (h : ∀ t x, startView (f t x) = startView t) (s : State) :
    startView (l.foldl f s) = startView s := by
  induction l generalizing s with
  | nil => rfl
  | cons x l ih => exact (ih (f s x)).trans (h s x)

theorem startView_pulse (src : Nat) (s : State) : startView (pulse src s) = startView s := startView_of_powerView (powerView_pulse src s)

theorem startView_setLine (src : Nat) (b : Bool) (s : State) : startView (setLine src b s) = startView s := by
  simp only [startView, setLine_sys, setLine_pending]

theorem startView_setEvt (b : EvtBlock) (bits : Nat) (s : State) : startView (setEvt b bits s) = startView s :=
  startView_of_powerView (powerView_setEvt b bits s)

/-! ### What a profile writes -/

theorem startView_lockWrite (req : Requester) (key : Nat) (flt tgt : Bool) (s : State) : startView (lockWrite req key flt tgt s) = startView s := by
  have hdisarm (t : State) : startView (disarm t) = startView t := (rfl)
  have harm (a : Option (Requester × Nat)) : startView { s with sys := { s.sys with lockArm := a } } = startView s := (rfl)
  unfold lockWrite
  split
  · exact (startView_setB _ _ _).trans (harm _)
  · split
    · rfl
    · simp only [apply_ite startView, startView_setB, hdisarm, startView_useFree, ite_self]

theorem startView_writeFltCfg (src : Nat) (w : Word) (s : State) : startView (writeFltCfg src w s) = startView s := by
  simp only [writeFltCfg, countViolation, apply_ite startView, startView_setF, startView_incSat, startView_setReg, startView_parts, ite_self]

theorem startView_restartTimer (s : State) : startView (restartTimer s) = startView s := (rfl)

theorem startView_enforceSwitches (s : State) : startView (enforceSwitches s) = startView s := startView_of_powerView (powerView_enforceSwitches s)

theorem startView_dropComparators (s : State) : startView (dropComparators s) = startView s := (rfl)

theorem startView_driveFaultLevel (s : State) : startView (driveFaultLevel s) = startView s := startView_of_powerView (powerView_driveFaultLevel s)

theorem startView_refreshRoot (s : State) : startView (refreshRoot s) = startView s := startView_of_powerView (powerView_refreshRoot s)

theorem startView_moveTarget (s0 s : State) : startView (moveTarget s0 s) = startView s := by
  simp only [moveTarget, apply_ite startView, startView_parts, ite_self]

theorem startView_writeVselsw (code : Nat) (s : State) : startView (writeVselsw code s) = startView s := by
  simp only [writeVselsw, acceptCode, apply_ite startView, startView_moveTarget, startView_setF, ite_self]

theorem startView_storeCnv (a : Nat) (w : Word) (s : State) : startView (storeCnv a w s) = startView s := by
  simp only [storeCnv, writeCnvCfg, writeTrimCfg, clearTrims, apply_ite startView, startView_moveTarget, startView_setF, startView_setReg,
    startView_parts, ite_self]

/-- R542: whatever a pair of a profile writes, start-up stands where it stood. -/
theorem startView_applyPair (a : Nat) (v : Word) (s : State) : startView (applyPair a v s) = startView s := by
  simp only [applyPair, writeTimerPeriod, apply_ite startView, startView_lockWrite, startView_writeFltCfg, startView_restartTimer, startView_setF,
    startView_driveFaultLevel, startView_enforceSwitches, startView_dropComparators, startView_writeVselsw, startView_refreshRoot, startView_storeCnv,
    startView_setReg, ite_self]

theorem startView_applyProfile (k : Nat) (s : State) : startView (applyProfile k s) = startView s := by
  have hpairs (l : List Nat) : startView (l.foldl (fun t i =>
      applyPair (nvmWord (profileOffset k + 8 * (i + 1)) s).toNat (nvmWord (profileOffset k + 8 * (i + 1) + 4) s) t) s) = startView s :=
    startView_foldl _ _ (fun _ _ => startView_applyPair _ _ _) s
  simp only [applyProfile, apply_ite startView, startView_setF, startView_setB, hpairs, ite_self]

theorem startView_copyTable (s : State) : startView (copyTable s) = startView s := (rfl)

theorem startView_loadTargets (s : State) : startView (loadTargets s) = startView s := startView_foldl _ _ (fun _ _ => startView_setF _ _ _) s

/-! ### The measurements -/

theorem startView_invalidate (a : Nat) (s : State) : startView (invalidate a s) = startView s := (rfl)

theorem startView_invalidateAll (s : State) : startView (invalidateAll s) = startView s := by
  simp only [invalidateAll, startView_invalidate, startView_parts]
  rw [startView_foldl _ _ (fun _ _ => (startView_invalidate _ _).trans (startView_invalidate _ _)),
    startView_foldl _ _ (fun _ _ => startView_invalidate _ _), startView_foldl _ _ (fun _ _ => startView_invalidate _ _)]

theorem startView_startSecondary (s : State) : startView (startSecondary s) = startView s := startView_invalidateAll _

theorem startView_markStream (overload : Bool) (p : Nat → Bool) (s : State) : startView (markStream overload p s) = startView s := by
  unfold markStream
  split <;> rfl

theorem startView_startSettle (p : Nat → Bool) (s : State) : startView (startSettle p s) = startView s := startView_markStream _ _ _

theorem startView_layoutHistory (s : State) : startView (layoutHistory s) = startView s := (rfl)

theorem startView_startPaths (s : State) : startView (startPaths s) = startView s := by
  unfold startPaths
  extract_lets s1 cms2 s2
  have h2 : startView s2 = startView s := (rfl)
  simp only [startSettleAll, startView_startSettle, apply_ite startView, startView_layoutHistory, h2, ite_self]

/-! ### The ports -/

theorem startView_modPort (n : Nat) (f : PortState → PortState) (s : State) : startView (modPort n f s) = startView s := (rfl)

theorem startView_enterPort (n code : Nat) (d : LineDrive) (s : State) : startView (enterPort n code d s) = startView s := by
  simp only [enterPort, apply_ite startView, startView_setB, startView_modPort, startView_setRegBit, startView_setF, ite_self]

theorem startView_restPort (n : Nat) (s : State) : startView (restPort n s) = startView s := by
  simp only [restPort, enterDown, apply_ite startView, startView_modPort, startView_enterPort, ite_self]

theorem startView_sendWake (n : Nat) (s : State) : startView (sendWake n s) = startView s := by
  simp only [sendWake, apply_ite startView, startView_modPort, startView_enterPort, ite_self]

theorem startView_beginTraining (n : Nat) (fromLpi : Bool) (s : State) : startView (beginTraining n fromLpi s) = startView s := by
  simp only [beginTraining, startView_modPort, apply_ite startView, startView_setF, startView_enterPort, ite_self]

theorem startView_startPorts (s : State) : startView (startPorts s) = startView s :=
  startView_foldl _ _ (fun _ _ => (startView_sendWake _ _).trans (startView_restPort _ _)) s

theorem startView_resumePorts (s : State) : startView (resumePorts s) = startView s :=
  startView_foldl _ _ (fun _ _ => by simp only [apply_ite startView, startView_beginTraining, startView_sendWake, ite_self]) s

/-! ### The run of enumeration -/

theorem startView_modRun (f : EnumRun → EnumRun) (s : State) : startView (modRun f s) = startView s := (rfl)
theorem startView_setEntry (id : Nat) (e : RouteEntry) (s : State) : startView (setEntry id e s) = startView s := (rfl)
theorem startView_modEntry (id : Nat) (f : RouteEntry → RouteEntry) (s : State) : startView (modEntry id f s) = startView s := (rfl)

theorem startView_sendRunReq (f : Frame) (tag : Nat) (s : State) : startView (sendRunReq f tag s) = startView s :=
  startView_of_powerView ((powerView_sendRouted _ _).trans ((powerView_refreshOut _).trans (powerView_parts ..)))

theorem startView_runSend (s : State) : startView (runSend s) = startView s := by
  unfold runSend
  split
  · rfl
  · split
    · rfl
    · split <;> split <;> simp only [startView_sendRunReq, startView_useFree, startView_modRun]

theorem startView_runSends (s : State) : startView (runSends s) = startView s := startView_foldl _ _ (fun t _ => startView_runSend t) s

theorem startView_dropReq (r : Req) (s : State) : startView (dropReq r s) = startView s := by
  apply startView_of_powerView
  unfold dropReq
  split <;> simp only [powerView_refreshOut, powerView_applyHeld, powerView_parts]

theorem startView_finishReq (r : Req) (st : Status) (data : List Word) (tval : Nat) (cached : Bool) (epoch : Nat) (s : State) :
    startView (finishReq r st data tval cached epoch s) = startView s := by
  unfold finishReq
  rw [startView_runSend]
  split
  · exact (startView_of_powerView (powerView_finishHost _ _ _)).trans (startView_dropReq r s)
  · exact (startView_modRun _ _).trans (startView_dropReq r s)

theorem startView_endRequestsTo (id : Nat) (st : Status) (epoch : Nat) (s : State) : startView (endRequestsTo id st epoch s) = startView s :=
  startView_foldl _ _ (fun _ _ => startView_finishReq _ _ _ _ _ _ _) s

theorem startView_takeEpoch (id epoch : Nat) (s : State) : startView (takeEpoch id epoch s) = startView s := by
  simp only [takeEpoch, apply_ite startView, startView_endRequestsTo, startView_setEvt, startView_parts, startView_modEntry, ite_self]

theorem startView_changeEntry (id : Nat) (new : RouteEntry) (s : State) : startView (changeEntry id new s) = startView s := by
  simp only [changeEntry, apply_ite startView, startView_parts, startView_setEntry, ite_self]

theorem startView_writeTable (r : EnumRun) (s : State) : startView (writeTable r s) = startView s := by
  unfold writeTable
  extract_lets l base gone entries s1 none'
  have h1 : startView s1 = startView s :=
    (startView_foldl _ _ (fun _ _ => (startView_changeEntry _ _ _).trans (startView_takeEpoch _ _ _)) _).trans
      (startView_foldl _ _ (fun _ _ => startView_changeEntry _ _ _) s)
  exact (startView_foldl _ _ (fun t _ => startView_pulse 103 t) _).trans ((startView_setB _ _ _).trans h1)

theorem startView_planRun (s : State) : startView (planRun s) = startView s := by
  unfold planRun
  split
  · simp only [apply_ite startView, startView_modRun, ite_self]
  · rfl

theorem startView_writeRun (s : State) : startView (writeRun s) = startView s := by
  unfold writeRun
  split
  · simp only [apply_ite startView, startView_modRun, startView_writeTable, ite_self]
  · rfl

theorem startView_beginRun (mode : Nat) (tk : Option Ticket) (commanded : Bool) (s : State) : startView (beginRun mode tk commanded s) = startView s := by
  simp only [beginRun, advanceRun, startView_runSends, startView_writeRun, startView_planRun, startView_refreshRoot, startView_parts, startView_setB,
    startView_setF, apply_ite startView, ite_self]

/-! ### The gateway role and the collector -/

theorem startView_abortItem (item : Nat) (s : State) : startView (abortItem item s) = startView s := by
  simp only [abortItem, apply_ite startView, startView_of_powerView (powerView_abortSelfTest s), ite_self]

theorem startView_leaveRings (s : State) : startView (leaveRings s) = startView s := by
  refine (startView_foldl _ _ (fun t e => ?_) _).trans (startView_parts ..)
  exact startView_pulse 108 _

theorem startView_takeRole (gen : Nat) (s : State) : startView (takeRole gen s) = startView s := by
  simp only [takeRole, autoRun, apply_ite startView, startView_beginRun, startView_refreshRoot, startView_setB, startView_setF, startView_abortItem,
    startView_leaveRings, ite_self]

theorem startView_collectorStart (s : State) : startView (collectorStart s) = startView s := by
  have hpulses (src : Nat) (l : List Nat) (t : State) : startView (l.foldl (fun u _ => pulse src u) t) = startView t :=
    startView_foldl _ _ (fun u _ => startView_pulse src u) t
  simp only [collectorStart, apply_ite startView, hpulses, startView_setLine, ite_self]

end Sys2Proof.Machine
end

