-- ==== Sys2Proof/Proofs/StartUp.lean ====
section
/-!
PROOFS. Start-up from the soft start to ACTIVE (R46, R72 to R74, R90, R539, R540, R542, R617).
-/
namespace Sys2Proof.Machine

/-! ### The release of the core reset -/

theorem Changes.reportSupply (s : State) : Changes [] (· = Reg.SYS_PWRSTAT) s (reportSupply s) :=
  (((Changes.setF _ _ s).trans (Changes.setB _ _ _)).trans (Changes.setB _ _ _)).mono (by simp)
    (by simp [Reg.SYS_PWRSTAT_SRC, Reg.SYS_PWRSTAT_VINOK, Reg.SYS_PWRSTAT_VMODOK])

theorem Changes.reportLinkWake (s : State) : Changes [] (· = Reg.SYS_PINSTAT) s (reportLinkWake s) :=
  ((((Changes.setF _ _ s).trans (Changes.setF _ _ _)).trans (Changes.setB _ _ _)).trans (Changes.setB _ _ _)).mono (by simp)
    (by simp [Reg.SYS_PINSTAT_FWAKE0, Reg.SYS_PINSTAT_FWAKE1, Reg.SYS_PINSTAT_LWDIS0, Reg.SYS_PINSTAT_LWDIS1])

theorem Changes.reportFuses (s : State) : Changes [] (· = Reg.BST_LCSTAT) s (reportFuses s) :=
  ((((Changes.setF _ _ s).trans (Changes.setB _ _ _)).trans (Changes.setB _ _ _)).trans (Changes.setF _ _ _)).mono (by simp)
    (by simp [Reg.BST_LCSTAT_K, Reg.BST_LCSTAT_LCFERR, Reg.BST_LCSTAT_RETFUSE, Reg.BST_LCSTAT_STATE])

theorem Changes.of_ite {ps : List Part} {rs : Nat → Prop} {c : Prop} [Decidable c] {s t u : State} (ht : Changes ps rs s t) (hu : Changes ps rs s u) :
    Changes ps rs s (if c then t else u) := by
  split
  · exact ht
  · exact hu

/-- R574: the check of the controller shows in its own register and, where it fails, in source 126. -/
theorem Changes.checkController (romOk : Bool) (s : State) : Changes [.flt] (· = Reg.BST_CTLSTAT) s (checkController romOk s) := by
  unfold Machine.checkController
  extract_lets s1
  have h1 : Changes [.flt] (· = Reg.BST_CTLSTAT) s s1 :=
    ((((Changes.setF _ _ s).trans (Changes.setB _ _ _)).trans (Changes.setB _ _ _)).trans (Changes.setB _ _ _)).mono (by simp)
      (by simp [Reg.BST_CTLSTAT_ROMVER, Reg.BST_CTLSTAT_ROMBAD, Reg.BST_CTLSTAT_PATCHBAD, Reg.BST_CTLSTAT_PATCHED])
  have hshow (f : Field) (hf : f.addr = Reg.BST_CTLSTAT) : Changes [.flt] (· = Reg.BST_CTLSTAT) s (Machine.setB f true s1) :=
    (h1.trans (Changes.setB f true s1)).mono (by simp) (by simp [hf])
  refine .of_ite ?_ (.of_ite h1 (.of_ite (hshow _ rfl) ?_))
  · exact (h1.trans (Changes.pulse 126 s1)).mono (by simp) (by simp)
  · exact ((hshow Reg.BST_CTLSTAT_PATCHBAD rfl).trans (Changes.pulse 126 _)).mono (by simp) (by simp)

/-- The registers in which the release of the core reset reports what start-up has found. -/
def releaseReports : Nat → Prop := oneOf [Reg.SYS_PWRSTAT, Reg.SYS_PINSTAT, Reg.BST_LCSTAT, Reg.BST_CTLSTAT]

/-- The core leaves reset (R45, R524). -/
def coreFreed (s : State) : State :=
  { s with sys := { s.sys with phase := .core, perstSeenHigh := !s.sys.perstLow }, thm := { s.thm with restarted := false } }

/-- With that the strap is sampled, and the epoch counts the reset (R46, R73). -/
def coreReleased (s : State) : State := raiseEpoch (sampleLcm (coreFreed s))

theorem coreResetRelease_reports {s : State} (hp : s.sys.phase = .rails) (hr : s.sys.rstnLow = false) (ok : Bool) :
    ∃ t, exec (.coreResetRelease ok) s = .next t ∧ Changes [.flt] releaseReports (coreReleased s) t := by
  have hreports : Changes [.flt] releaseReports (coreReleased s) (checkController ok (reportFuses (reportLinkWake (reportSupply
      (setB Reg.SYS_PINSTAT_WAKELVL s.sys.wakeHigh (coreReleased s)))))) :=
    (((((Changes.setB Reg.SYS_PINSTAT_WAKELVL _ (coreReleased s)).trans (Changes.reportSupply _)).trans (Changes.reportLinkWake _)).trans
      (Changes.reportFuses _)).trans (Changes.checkController ok _)).mono (by simp)
      (by simp only [releaseReports, oneOf, Reg.SYS_PINSTAT_WAKELVL, List.mem_cons]; tauto)
  change ∃ t, execCoreResetRelease ok s = .next t ∧ _
  rw [execCoreResetRelease, if_neg (not_not.2 hp), if_neg (by simp [hr])]
  exact ⟨_, rfl, .of_ite ((hreports.trans (Changes.pulse 118 _)).mono (by simp) (by simp)) hreports⟩

/-- A one-bit field beside the one that is set keeps its value. -/
theorem bit_setB_beside {f g : Field} (h : g.lo + g.w ≤ f.lo ∨ f.lo + f.w ≤ g.lo) (hw : g.lo + g.w ≤ 32) (b : Bool) (s : State) :
    bit g (setB f b s) = bit g s := congrArg (· == 1) (getF_setF_beside f g _ s h hw)

theorem Changes.sampleLcm (s : State) : Changes [] (oneOf [Reg.SYS_STRAPSTAT, Reg.LNK_STAT]) s (sampleLcm s) :=
  (((Changes.setB _ _ s).trans (Changes.setB _ _ _)).trans (Changes.setB _ _ _)).mono (by simp)
    (by simp [oneOf, Reg.SYS_STRAPSTAT_LCM, Reg.SYS_STRAPSTAT_LCMNOW, Reg.LNK_STAT_LEGACY])

/-- R46, R90: mode and level show as the strap stands at the release. -/
theorem strap_sampleLcm (s : State) :
    bit Reg.SYS_STRAPSTAT_LCM (sampleLcm s) = s.sys.lcmPin ∧ bit Reg.SYS_STRAPSTAT_LCMNOW (sampleLcm s) = s.sys.lcmPin := by
  have hlegacy (f : Field) (hf : f.addr = Reg.SYS_STRAPSTAT) (t : State) : bit f (setB Reg.LNK_STAT_LEGACY s.sys.lcmPin t) = bit f t :=
    bit_of_reg (reg_setB_other (by rw [hf]; decide) _ _)
  unfold sampleLcm
  rw [hlegacy _ rfl, hlegacy _ rfl, bit_setB_beside (by decide) (by decide)]
  exact ⟨bit_setB_same (by decide) rfl _ _, bit_setB_same (by decide) rfl _ _⟩

/-- R73: the first release since POR leaves the epoch, every later one counts it up. -/
theorem raiseEpoch_clause (s : State) : (raiseEpoch s).sys = { s.sys with porReleased := true } ∧
    getF Reg.SYS_EPOCH_EPOCH (raiseEpoch s) = (if s.sys.porReleased then (getF Reg.SYS_EPOCH_EPOCH s + 1) % 256 else getF Reg.SYS_EPOCH_EPOCH s) ∧
    Changes [.sys] (· = Reg.SYS_EPOCH) s (raiseEpoch s) := by
  unfold raiseEpoch
  split
  · next h =>
    refine ⟨by rw [setF_sys, ← h], ?_, (Changes.setF _ _ s).mono (by simp) (by simp [Reg.SYS_EPOCH_EPOCH])⟩
    exact (getF_setF_same _ _ s (by decide)).trans (Nat.mod_mod _ _)
  · exact ⟨rfl, rfl, (Changes.withSys s _).mono (by simp) (by simp)⟩

theorem coreReleased_clause (s : State) : (coreReleased s).sys.phase = .core ∧ bit Reg.SYS_STRAPSTAT_LCM (coreReleased s) = s.sys.lcmPin ∧
    bit Reg.SYS_STRAPSTAT_LCMNOW (coreReleased s) = s.sys.lcmPin ∧
    getF Reg.SYS_EPOCH_EPOCH (coreReleased s) = (if s.sys.porReleased then (getF Reg.SYS_EPOCH_EPOCH s + 1) % 256 else getF Reg.SYS_EPOCH_EPOCH s) ∧
    (coreReleased s).sys.porReleased = true ∧ (coreReleased s).pending = s.pending := by
  obtain ⟨hlcm, hnow⟩ := strap_sampleLcm (coreFreed s)
  obtain ⟨hsys, hepoch, hch⟩ := raiseEpoch_clause (sampleLcm (coreFreed s))
  have hstrap : reg (coreReleased s) Reg.SYS_STRAPSTAT = reg (sampleLcm (coreFreed s)) Reg.SYS_STRAPSTAT := hch.reg_eq (by decide)
  have hkept : reg (sampleLcm (coreFreed s)) Reg.SYS_EPOCH = reg (coreFreed s) Reg.SYS_EPOCH :=
    (Changes.sampleLcm _).reg_eq (by unfold oneOf; decide)
  refine ⟨congrArg SysState.phase hsys, (bit_of_reg (f := Reg.SYS_STRAPSTAT_LCM) hstrap).trans hlcm,
    (bit_of_reg (f := Reg.SYS_STRAPSTAT_LCMNOW) hstrap).trans hnow, ?_, congrArg SysState.porReleased hsys, hch.1⟩
  rw [coreReleased, hepoch, getF_of_reg (f := Reg.SYS_EPOCH_EPOCH) hkept]
  rfl

theorem coreResetRelease_clause {s : State} (hp : s.sys.phase = .rails) (hr : s.sys.rstnLow = false) (ok : Bool) :
    ∃ t, exec (.coreResetRelease ok) s = .next t ∧ t.sys.phase = .core ∧
      bit Reg.SYS_STRAPSTAT_LCM t = s.sys.lcmPin ∧ bit Reg.SYS_STRAPSTAT_LCMNOW t = s.sys.lcmPin ∧
      getF Reg.SYS_EPOCH_EPOCH t = (if s.sys.porReleased then (getF Reg.SYS_EPOCH_EPOCH s + 1) % 256 else getF Reg.SYS_EPOCH_EPOCH s) ∧
      t.sys.porReleased = true ∧ t.pending = s.pending := by
  obtain ⟨t, ht, hpend, hparts, hregs⟩ := coreResetRelease_reports hp hr ok
  obtain ⟨hphase, hlcm, hnow, hepoch, hpor, hq⟩ := coreReleased_clause s
  have hsys : t.sys = (coreReleased s).sys := hparts .sys (by decide)
  have hstrap : reg t Reg.SYS_STRAPSTAT = _ := hregs _ (by unfold releaseReports oneOf; decide)
  have hcount : reg t Reg.SYS_EPOCH = _ := hregs _ (by unfold releaseReports oneOf; decide)
  exact ⟨t, ht, hsys ▸ hphase, (bit_of_reg (f := Reg.SYS_STRAPSTAT_LCM) hstrap).trans hlcm,
    (bit_of_reg (f := Reg.SYS_STRAPSTAT_LCMNOW) hstrap).trans hnow, (getF_of_reg (f := Reg.SYS_EPOCH_EPOCH) hcount).trans hepoch,
    hsys ▸ hpor, hpend.trans hq⟩

/-- R617: RSTN low holds the core, and its cause bit is set. -/
theorem coreResetRelease_held {s : State} (hp : s.sys.phase = .rails) (hr : s.sys.rstnLow = true) (ok : Bool) :
    ∃ t, exec (.coreResetRelease ok) s = .next t ∧ t.sys.phase = .rstHeld ∧ bit Reg.SYS_RSTCAUSE_RSTN t = true ∧
      Changes [.sys] (oneOf [Reg.SYS_RSTCAUSE]) s t :=
  ⟨_, (if_neg (not_not.2 hp)).trans (if_pos hr), rfl, bit_setB_same (by decide) rfl true _,
    ((Changes.withSys s _).trans (Changes.setB _ true _)).mono (by simp) (by simp [oneOf, Reg.SYS_RSTCAUSE_RSTN])⟩

/-! ### The check of NVM -/

/-- What the check of NVM changes before the epoch is set: the fault collector, the calibration but the bytes of NVM, and registers above the block SYS. -/
def CheckOnly (s t : State) : Prop := Changes [.cal, .flt] (0x800 ≤ ·) s t ∧ t.cal.nvm = s.cal.nvm

theorem CheckOnly.refl (s : State) : CheckOnly s s := ⟨Changes.refl .., rfl⟩

theorem CheckOnly.trans {s t u : State} (h : CheckOnly s t) (h' : CheckOnly t u) : CheckOnly s u :=
  ⟨(Changes.trans h.1 h'.1).mono (by simp) (by simp), h'.2.trans h.2⟩

theorem CheckOnly.setReg {a : Nat} (h : 0x800 ≤ a) (v : Word) (s : State) : CheckOnly s (setReg a v s) :=
  ⟨(Changes.setReg a v s).mono (by simp) (fun _ hb => hb ▸ h), rfl⟩

theorem CheckOnly.pulse (src : Nat) (s : State) : CheckOnly s (pulse src s) :=
  ⟨(Changes.pulse src s).mono (by simp) (fun _ hf => hf.elim), congrArg CalState.nvm (pulse_cal ..)⟩

theorem CheckOnly.of_ite {c : Prop} [Decidable c] {s t u : State} (ht : CheckOnly s t) (hu : CheckOnly s u) : CheckOnly s (if c then t else u) := by
  split
  · exact ht
  · exact hu

theorem CheckOnly.foldl {α : Type} (f : State → α → State) (l : List α) (h : ∀ t x, CheckOnly t (f t x)) (s : State) : CheckOnly s (l.foldl f s) := by
  induction l generalizing s with
  | nil => exact .refl s
  | cons x l ih => exact (h s x).trans (ih (f s x))

theorem CheckOnly.applyCopy (b : Bool) (s : State) : CheckOnly s (applyCopy b s) := by
  have hcoef : CheckOnly s { s with cal := { s.cal with coef := copyCoef b s } } :=
    ⟨⟨rfl, fun p hp => by cases p <;> simp_all [Part.same], fun _ _ => rfl⟩, rfl⟩
  have hharness (hres : List Nat) (rbal : Nat) (t : State) : CheckOnly t (loadHarness hres rbal t) :=
    (CheckOnly.foldl _ _ (fun u k => CheckOnly.setReg (by simp only [Reg.XCK_HRES]; omega) _ u) t).trans (.setReg (by decide) _ _)
  exact (hcoef.trans (hharness _ _ _)).trans (.setReg (by decide) _ _)

theorem CheckOnly.reportGen (b : Bool) (s : State) : CheckOnly s (reportGen b s) :=
  .of_ite (.setReg (by cases b <;> decide) _ s) (.refl s)

theorem CheckOnly.chooseCopy (s : State) : CheckOnly s (chooseCopy s) := by
  unfold Machine.chooseCopy
  extract_lets va vb ga gb s1 s2 s3
  have h1 : CheckOnly s s1 := (CheckOnly.reportGen false s).trans (.reportGen true _)
  have hbad {f : Field} (hf : 0x800 ≤ f.addr) {t : State} (ht : CheckOnly s t) : CheckOnly s (Machine.pulse 122 (setB f true t)) :=
    (ht.trans (.setReg hf _ t)).trans (.pulse 122 _)
  have h2 : CheckOnly s s2 := .of_ite (hbad (by decide) h1) h1
  have h3 : CheckOnly s s3 := .of_ite (hbad (by decide) h2) h2
  exact .of_ite (h3.trans (.applyCopy false s3)) (.of_ite (h3.trans (.applyCopy true s3)) (.of_ite (h3.trans (.pulse 123 s3)) h3))

/-- The check of NVM is marked as done (R74). -/
def nvmMarked (s : State) : State := { s with sys := { s.sys with nvmChecked := true } }

/-- What the check of NVM has found, before the epoch is set (R526, R539, R540). -/
def nvmFound (trimOk : Bool) (s : State) : State :=
  let s2 := setReg Reg.FAB_UID1 (Config.uidHigh trimOk) (setReg Reg.FAB_UID0 (Config.uidLow trimOk) (nvmMarked s))
  let s3 := if trimOk then chooseCopy s2 else pulse 123 (setB Reg.CAL_STAT_TRIMBAD true s2)
  logResume (setB Reg.CAL_STAT_SYSBAD (recordSlot s3).isNone s3)

theorem nvmFound_checkOnly (ok : Bool) (s : State) : CheckOnly (nvmMarked s) (nvmFound ok s) := by
  unfold nvmFound
  extract_lets s2 s3
  have h2 : CheckOnly (nvmMarked s) s2 := (CheckOnly.setReg (a := Reg.FAB_UID0) (by decide) _ _).trans (.setReg (a := Reg.FAB_UID1) (by decide) _ _)
  have htrim : CheckOnly s2 (setB Reg.CAL_STAT_TRIMBAD true s2) := .setReg (by decide) _ _
  have h3 : CheckOnly (nvmMarked s) s3 := .of_ite (h2.trans (.chooseCopy s2)) ((h2.trans htrim).trans (.pulse 123 _))
  have hsys : CheckOnly s3 (setB Reg.CAL_STAT_SYSBAD (recordSlot s3).isNone s3) := .setReg (by decide) _ _
  exact (h3.trans hsys).trans (.setReg (a := Reg.THM_LOGSTAT) (by decide) _ _)

/-- R539: bad vendor trim is reported. -/
theorem nvmFound_trimBad (s : State) : bit Reg.CAL_STAT_TRIMBAD (nvmFound false s) = true := by
  unfold nvmFound
  extract_lets s2 s3
  have hlog (t : State) : reg (logResume t) Reg.CAL_STAT_TRIMBAD.addr = reg t Reg.CAL_STAT_TRIMBAD.addr := reg_setF_other (by decide) _ _
  rw [bit_of_reg (hlog _), bit_setB_beside (by decide) (by decide)]
  exact (bit_of_reg (reg_pulse ..)).trans (bit_setB_same (by decide) rfl true s2)

/-- The present record rests on the bytes of NVM alone (R539). -/
theorem recordEpoch_of_nvm {s t : State} (h : t.cal.nvm = s.cal.nvm) : recordEpoch t = recordEpoch s := by
  -- the record is a function of the bytes of NVM: with every other part put to its reset value it reads the same
  have hnvm (u : State) : recordEpoch u = recordEpoch { State.reset with cal := { CalState.reset with nvm := u.cal.nvm } } := rfl
  rw [hnvm t, hnvm s, h]

/-- R73: the epoch after a POR is set, and due for storage (that the resets since count in it is DEDUCED notes/assumptions/69.md). -/
def epochSet (e : Nat) (s : State) : State :=
  { setF Reg.SYS_EPOCH_EPOCH e s with cal := { s.cal with epochPend := some e }, sys := { s.sys with porStart := false } }

theorem nvmCheckDone_next {s : State} (hp : s.sys.phase = .core) (hn : s.sys.nvmChecked = false) (hr : bit Reg.BST_CTLSTAT_ROMBAD s = false) (ok : Bool) :
    exec (.nvmCheckDone ok) s = .next (if s.sys.porStart
      then epochSet ((recordEpoch s + 1 + getF Reg.SYS_EPOCH_EPOCH s) % 256) (nvmFound ok s) else nvmFound ok s) := by
  obtain ⟨⟨-, hparts, hregs⟩, hnvm⟩ := nvmFound_checkOnly ok s
  have hstart : (nvmFound ok s).sys.porStart = s.sys.porStart := (congrArg SysState.porStart (hparts .sys (by decide)) :)
  have hepoch : getF Reg.SYS_EPOCH_EPOCH (nvmFound ok s) = getF Reg.SYS_EPOCH_EPOCH s := getF_of_reg (hregs _ (by decide))
  have hrec : recordEpoch (nvmFound ok s) = recordEpoch s := recordEpoch_of_nvm hnvm
  have hgo : ¬ (s.sys.phase ≠ .core ∨ s.sys.nvmChecked = true ∨ bit Reg.BST_CTLSTAT_ROMBAD s = true) := by simp [hp, hn, hr]
  change execNvmCheckDone ok s = _
  rw [execNvmCheckDone, if_neg hgo, ← hstart, ← hepoch, ← hrec, apply_ite Host.Outcome.next]
  rfl

theorem epochSet_clause (n : Nat) (s : State) : getF Reg.SYS_EPOCH_EPOCH (epochSet (n % 256) s) = n % 256 ∧
    pendingEpoch (epochSet (n % 256) s) = some (n % 256) ∧ (epochSet (n % 256) s).sys = { s.sys with porStart := false } ∧
    (epochSet (n % 256) s).pending = s.pending ∧ ∀ a, a ≠ Reg.SYS_EPOCH → reg (epochSet (n % 256) s) a = reg s a :=
  ⟨(getF_setF_same Reg.SYS_EPOCH_EPOCH _ s (by decide)).trans (Nat.mod_mod _ _), rfl, rfl, rfl, fun _ ha => reg_setF_other ha _ s⟩

/-- R73, R74, R526, R539: the check of NVM is done. -/
theorem nvmCheckDone_clause {s : State} (hp : s.sys.phase = .core) (hn : s.sys.nvmChecked = false) (hr : bit Reg.BST_CTLSTAT_ROMBAD s = false) (ok : Bool) :
    ∃ t, exec (.nvmCheckDone ok) s = .next t ∧ t.sys.nvmChecked = true ∧ (ok = false → bit Reg.CAL_STAT_TRIMBAD t = true) ∧
      (s.sys.porStart = true → getF Reg.SYS_EPOCH_EPOCH t = (recordEpoch s + 1 + getF Reg.SYS_EPOCH_EPOCH s) % 256 ∧ t.sys.porStart = false ∧
        pendingEpoch t = some (getF Reg.SYS_EPOCH_EPOCH t)) ∧
      (s.sys.porStart = false → getF Reg.SYS_EPOCH_EPOCH t = getF Reg.SYS_EPOCH_EPOCH s) ∧ t.pending = s.pending := by
  obtain ⟨⟨hpend, hparts, hregs⟩, -⟩ := nvmFound_checkOnly ok s
  have hchecked : (nvmFound ok s).sys.nvmChecked = true := (congrArg SysState.nvmChecked (hparts .sys (by decide)) :)
  have htrim (h : ok = false) : bit Reg.CAL_STAT_TRIMBAD (nvmFound ok s) = true := h ▸ nvmFound_trimBad s
  rw [nvmCheckDone_next hp hn hr]
  cases hstart : s.sys.porStart with
  | true =>
    obtain ⟨hepoch, hdue, hsys, hq, hkept⟩ := epochSet_clause (recordEpoch s + 1 + getF Reg.SYS_EPOCH_EPOCH s) (nvmFound ok s)
    exact ⟨_, rfl, (congrArg SysState.nvmChecked hsys).trans hchecked, fun h => (bit_of_reg (hkept _ (by decide))).trans (htrim h),
      fun _ => ⟨hepoch, congrArg SysState.porStart hsys, hdue.trans (congrArg some hepoch.symm)⟩, nofun, hq.trans hpend⟩
  | false => exact ⟨_, rfl, hchecked, htrim, nofun, fun _ => getF_of_reg (hregs _ (by decide)), hpend⟩

/-! ### The profile -/

/-- R74, R542: the mark is set, and whatever the profile writes leaves it and the queue. -/
theorem profileApply_clause {s : State} (hp : s.sys.phase = .core) (hn : s.sys.nvmChecked = true) (hc : s.sys.cpll = true) (ht : s.sys.tpll = true)
    (ha : s.sys.profileApplied = false) : ∃ t, exec .profileApply s = .next t ∧ t.sys.profileApplied = true ∧ t.pending = s.pending := by
  have hview (b c : Prop) [Decidable b] [Decidable c] (k : Nat) (u : State) :
      startView (if b then (if c then copyTable (applyProfile k u) else applyProfile k u) else u) = startView u := by
    simp only [apply_ite startView, startView_copyTable, startView_applyProfile, ite_self]
  have hmarked := startView_loadTargets { s with sys := { s.sys with profileApplied := true } }
  exact ⟨_, if_pos ⟨hp, hn, hc, ht, ha⟩, (applied_of_startView (hview _ _ _ _)).trans (applied_of_startView hmarked :),
    (pending_of_startView (hview _ _ _ _)).trans (pending_of_startView hmarked :)⟩

/-! ### The entry to ACTIVE -/

theorem startView_liftLinkWake (s : State) : startView (liftLinkWake s) = startView s := (rfl)

/-- The paths start and the phase is ACTIVE (R20, R74). -/
theorem enterActive_clause (s : State) : (enterActive s).sys.phase = .active ∧ (enterActive s).pending = s.pending := by
  have hview : startView (enterActive s) = startView { s with sys := { s.sys with phase := .active, activeAt := s.now } } := by
    simp only [enterActive, startView_restartTimer, startView_startPaths, startView_liftLinkWake, startView_setB, startView_setF,
      startView_startSecondary]
  exact ⟨(phase_of_startView hview :), (pending_of_startView hview :)⟩

/-- What follows on the entry: the gateway role where a link of generation 3 is up, and the choice of the time root (R467). -/
def roleTaken (s : State) : State := refreshRoot (if bit Reg.HST_STAT_L0 s then takeRole 3 s else s)

theorem startView_roleTaken (s : State) : startView (roleTaken s) = startView s := by
  simp only [roleTaken, startView_refreshRoot, apply_ite startView, startView_takeRole, ite_self]

/-- Whatever follows `enterActive` and keeps the start view ends in ACTIVE. -/
theorem active_of_view {s t : State} (h : startView t = startView (enterActive s)) : t.sys.phase = .active ∧ t.pending = s.pending := by
  obtain ⟨hphase, hpend⟩ := enterActive_clause s
  exact ⟨(phase_of_startView h).trans hphase, (pending_of_startView h).trans hpend⟩

section
variable {s : State} (hp : s.sys.phase = .core)
include hp

theorem activeEntry_core : exec .activeEntry s = if s.sys.cpll && s.sys.tpll && controllerReady s
    then .next (roleTaken (collectorStart (startPorts (enterActive s)))) else .next s := by
  change execActiveEntry s = _
  simp only [execActiveEntry, hp]
  rfl

/-- R73, R74: with the profile applied and no epoch to store, or with a bad ROM (DEDUCED notes/assumptions/51.md), start-up ends in ACTIVE. -/
theorem activeEntry_ready (hc : s.sys.cpll = true) (ht : s.sys.tpll = true)
    (hready : bit Reg.BST_CTLSTAT_ROMBAD s = true ∨ s.sys.profileApplied = true ∧ pendingEpoch s = none) :
    ∃ t, exec .activeEntry s = .next t ∧ t.sys.phase = .active ∧ t.pending = s.pending := by
  have hgo : (s.sys.cpll && s.sys.tpll && controllerReady s) = true := by
    rcases hready with hrom | ⟨happlied, hnone⟩
    · simp [controllerReady, hc, ht, hrom]
    · simp [controllerReady, hc, ht, happlied, hnone]
  rw [activeEntry_core hp, if_pos hgo]
  exact ⟨_, rfl, active_of_view ((startView_roleTaken _).trans ((startView_collectorStart _).trans (startView_startPorts _)))⟩

/-- R73: an epoch still to be stored holds start-up back. -/
theorem activeEntry_waits (hr : bit Reg.BST_CTLSTAT_ROMBAD s = false) (he : (pendingEpoch s).isSome = true) : exec .activeEntry s = .next s := by
  have hready : controllerReady s = false := by
    obtain ⟨e, he⟩ := Option.isSome_iff_exists.1 he
    simp [controllerReady, hr, he]
  rw [activeEntry_core hp, hready, Bool.and_false, if_neg Bool.false_ne_true]

end

/-- From STANDBY (R62). -/
theorem activeEntry_resume {s : State} (hp : s.sys.phase = .resume) : ∃ t, exec .activeEntry s = .next t ∧ t.sys.phase = .active ∧ t.pending = s.pending := by
  have hnext : exec .activeEntry s = .next (roleTaken (resumePorts (enterActive s))) := by
    change execActiveEntry s = _
    simp only [execActiveEntry, hp]
    rfl
  exact ⟨_, hnext, active_of_view ((startView_roleTaken _).trans (startView_resumePorts _))⟩

/-- Settles O4: each milestone of R74 is one event, and what the other blocks do at it leaves phase, mark and queue as the event sets them. -/
theorem startUp : Obligations.StartUp := by
  unfold Obligations.StartUp
  intro s
  exact ⟨fun hp hl => if_pos ⟨hp, hl⟩, coreResetRelease_clause, coreResetRelease_held, nvmCheckDone_clause, profileApply_clause,
    activeEntry_ready, activeEntry_waits, activeEntry_resume⟩

end Sys2Proof.Machine
end

