-- ==== Sys2Proof/Proofs/SupplyEvents.lean ====
section
/-!
PROOFS. Supply and rail events: the thresholds and the qualification, the choice of a buck leg, the rail monitors and the buck limit (R54 to R59, R82).
-/
namespace Sys2Proof.Machine

/-! ### The choice of a buck leg -/

/-- The loss of a leg is a record in `SYS_SUPSTAT` and source 5 (R55, R82). -/
theorem Changes.legLost (old : Leg) (s : State) : Changes [.flt] (oneOf [Reg.SYS_SUPSTAT]) s (legLost old s) := by
  cases old with
  | vmod =>
    exact ((Changes.setB Reg.SYS_SUPSTAT_VMODLOSS true s).trans (Changes.pulse 5 _)).mono (by simp) (by simp [oneOf, Reg.SYS_SUPSTAT_VMODLOSS])
  | vin =>
    exact ((Changes.setB Reg.SYS_SUPSTAT_VINLOSS true s).trans (Changes.pulse 5 _)).mono (by simp) (by simp [oneOf, Reg.SYS_SUPSTAT_VINLOSS])

/-- The phase that the choice of a leg leads to: a device that waited for one begins its soft start (R74). -/
def phaseWith (leg : Option Leg) (ph : Phase) : Phase := if ph = .waitLeg ∧ leg ≠ none then .softStart else ph

/-- Where the core is down a choice of a leg moves the supply's own state alone, and `SYS_PWRSTAT` shows it (R55, R56, R79). -/
theorem selectLeg_coreDown {s : State} (hc : coreUp s = false) : selectLeg s = reportSupply { s with sys := { s.sys with
    leg := legChoice s, lostLeg := none, phase := phaseWith (legChoice s) s.sys.phase } } := by
  simp only [selectLeg, hc, Bool.not_false, Bool.or_true, if_true]
  split <;> split <;> rfl

theorem Changes.selectLeg_coreDown {s : State} (hc : coreUp s = false) : Changes [.sys] (oneOf [Reg.SYS_PWRSTAT]) s (selectLeg s) := by
  rw [Machine.selectLeg_coreDown hc]
  exact ((Changes.withSys s _).trans (Changes.reportSupply _)).mono (by simp) (by simp [oneOf])

/-- A device that waits for a leg goes on waiting or begins its soft start (R74). -/
theorem phaseWith_waitLeg (leg : Option Leg) : phaseWith leg .waitLeg = .waitLeg ∨ phaseWith leg .waitLeg = .softStart := by
  cases leg with
  | none => exact .inl rfl
  | some => exact .inr rfl

/-- No choice of a leg leads into SHELF or out of it. -/
theorem phaseWith_shelf (leg : Option Leg) (ph : Phase) : phaseWith leg ph = .shelf ↔ ph = .shelf := by
  unfold phaseWith
  split
  · next h => simp [h.1]
  · rfl

/-- A choice of a leg: the leg is that of R55, and what the core shows of the change are the supply bits, the record in `SYS_SUPSTAT` and source 5. -/
theorem selectLeg_clause (s : State) : (∃ lost, (selectLeg s).sys = { s.sys with
      leg := legChoice s, lostLeg := lost, phase := phaseWith (legChoice s) s.sys.phase }) ∧
    Changes [.sys, .flt] (oneOf [Reg.SYS_PWRSTAT, Reg.SYS_SUPSTAT]) s (selectLeg s) := by
  unfold selectLeg
  extract_lets new before s1 s2 ph
  have h1 : Changes [.flt] (oneOf [Reg.SYS_SUPSTAT]) s s1 := by
    simp only [s1]
    split
    · exact .of_ite (.refl ..) (.legLost _ s)
    · exact .refl ..
  have h2 : Changes [.flt] (oneOf [Reg.SYS_SUPSTAT]) s s2 := by
    clear_value s1 before new
    simp only [s2]
    split
    · exact .of_ite h1 ((h1.trans (Changes.incSat Reg.SYS_SUPSTAT_SWCNT s1)).mono (by simp) (by simp [oneOf, Reg.SYS_SUPSTAT_SWCNT]))
    · exact h1
  have hsys : s2.sys = s.sys := h2.2.1 .sys (by decide)
  let lost := if new.isSome || !coreUp s then none else before
  exact ⟨⟨lost, congrArg (fun y : SysState => { y with leg := new, lostLeg := lost, phase := ph }) hsys⟩,
    ((h2.trans (Changes.withSys s2 _)).trans (Changes.reportSupply _)).mono (by simp) (by simp [oneOf])⟩

/-- The legs chosen anew after a change of the supply's own state. -/
theorem selectLeg_supply (s : State) (y : SysState) : (∃ lost ph, (selectLeg { s with sys := y }).sys = { y with
      leg := legChoice { s with sys := y }, lostLeg := lost, phase := ph }) ∧
    Changes [.sys, .flt] (oneOf [Reg.SYS_PWRSTAT, Reg.SYS_SUPSTAT]) s (selectLeg { s with sys := y }) := by
  obtain ⟨⟨lost, hsys⟩, hch⟩ := selectLeg_clause { s with sys := y }
  exact ⟨⟨lost, _, hsys⟩, ((Changes.withSys s y).trans hch).mono (by simp) (by simp)⟩

/-! ### The events -/

/-- R54, R55: the buck threshold of VMOD decides whether its leg is usable. -/
theorem vmodBuckCross_clause (s : State) (r : Bool) : ∃ t, exec (.vmodThresholdCross .buckInput r) s = .next t ∧ t.sys.vmodOk = r ∧
    t.sys.leg = legChoice { s with sys := { s.sys with vmodOk := r } } ∧ Changes [.sys, .flt] (oneOf [Reg.SYS_PWRSTAT, Reg.SYS_SUPSTAT]) s t := by
  obtain ⟨⟨lost, ph, hsys⟩, hch⟩ := selectLeg_supply s { s.sys with vmodOk := r }
  exact ⟨_, rfl, congrArg SysState.vmodOk hsys, congrArg SysState.leg hsys, hch⟩

/-- R54: a fall of VIN makes its leg unusable at once. -/
theorem vinFall_clause (s : State) : ∃ t, exec (.vinThresholdCross false) s = .next t ∧ t.sys.vinAbove = false ∧ t.sys.vinQual = false ∧
    t.sys.leg = legChoice { s with sys := { s.sys with vinAbove := false, vinQual := false } } ∧
    Changes [.sys, .flt] (oneOf [Reg.SYS_PWRSTAT, Reg.SYS_SUPSTAT]) s t := by
  obtain ⟨⟨lost, ph, hsys⟩, hch⟩ := selectLeg_supply s { s.sys with vinAbove := false, vinQual := false }
  exact ⟨_, rfl, congrArg SysState.vinAbove hsys, congrArg SysState.vinQual hsys, congrArg SysState.leg hsys, hch⟩

/-- R54, R82: with VIN above its threshold for the qualification time its leg is usable. -/
theorem vinQualified_clause {s : State} (ha : s.sys.vinAbove = true) (ht : s.sys.vinAt + vinQualTime s ≤ s.now) : ∃ t,
    exec .vinQualified s = .next t ∧ t.sys.vinQual = true ∧ t.sys.leg = legChoice { s with sys := { s.sys with vinQual := true } } ∧
    Changes [.sys, .flt] (oneOf [Reg.SYS_PWRSTAT, Reg.SYS_SUPSTAT]) s t := by
  obtain ⟨⟨lost, ph, hsys⟩, hch⟩ := selectLeg_supply s { s.sys with vinQual := true }
  exact ⟨_, if_pos ⟨ha, ht⟩, congrArg SysState.vinQual hsys, congrArg SysState.leg hsys, hch⟩

/-- A source of the first word of `FLT_ACT`, never muted, follows its condition (R58, R489). -/
theorem follow_clause {src : Nat} (h : src < 16) (b : Bool) (s : State) : natMem src (follow src b s).flt.lines = b ∧
    Changes [.flt] (oneOf [Reg.FLT_ACT 0]) s (follow src b s) := by
  have hword : src / 32 = 0 := by omega
  exact ⟨natMem_follow src b s (muted_below h s), (Changes.follow src b s).mono (by simp) (by simp [oneOf, hword])⟩

theorem railSource_lt (r : Rail) : railSource r < 16 := by cases r <;> decide

/-- R58: the monitors of the rails and of the reference. -/
theorem railMonitors_clause {s : State} (hc : coreUp s = true) :
    (∀ r out, ∃ t, exec (.railWarning r out) s = .next t ∧ natMem (railSource r) t.flt.lines = out ∧ Changes [.flt] (oneOf [Reg.FLT_ACT 0]) s t) ∧
    ∀ d, ∃ t, exec (.referenceMismatch d) s = .next t ∧ natMem 3 t.flt.lines = d ∧ Changes [.flt] (oneOf [Reg.FLT_ACT 0]) s t :=
  ⟨fun r out => ⟨_, if_pos hc, follow_clause (railSource_lt r) out s⟩, fun d => ⟨_, if_pos hc, follow_clause (by decide) d s⟩⟩

/-- R59, R82: the buck's limit is recorded, and source 4 reports it. -/
theorem buckLimitTimeout_clause {s : State} (hc : coreUp s = true) (hl : s.sys.leg.isSome = true) : ∃ t, exec .buckLimitTimeout s = .next t ∧
    bit Reg.SYS_SUPSTAT_BUCKFLT t = true ∧ t.flt.waiting = s.flt.waiting ++ [4] ∧ Changes [.flt] (oneOf [Reg.SYS_SUPSTAT]) s t := by
  have hgo : (coreUp s && s.sys.leg.isSome) = true := by rw [hc, hl]; rfl
  refine ⟨_, if_pos hgo, ?_, pulse_waiting 4 _ (muted_below (by decide) _), ?_⟩
  · exact (bit_of_reg (reg_pulse ..)).trans (bit_setB_same (by decide) rfl true s)
  · exact ((Changes.setB _ true s).trans (Changes.pulse 4 _)).mono (by simp) (by simp [oneOf, Reg.SYS_SUPSTAT_BUCKFLT])

/-- Settles O1: a threshold changes the usable legs, from which the leg of R55 follows; a monitor's source stands as its condition does. -/
theorem supplyEvents : Obligations.SupplyEvents := by
  unfold Obligations.SupplyEvents
  intro s
  exact ⟨fun _ => ⟨_, rfl, rfl, Changes.withSys s _⟩, vmodBuckCross_clause s, ⟨_, rfl, rfl, Changes.withSys s _⟩, vinFall_clause s,
    vinQualified_clause, railMonitors_clause, buckLimitTimeout_clause⟩

end Sys2Proof.Machine
end

