-- ==== Sys2Proof/Proofs/DeviceResets.lean ====
section
/-!
PROOFS. What a brown-out, a commanded device reset, RSTN, POR and the loss of the always-on supply reset and keep (R58, R61, R72, R75, R85, R86, R617).
-/
namespace Sys2Proof.Machine

/-! ### What every reset leaves of the blocks -/

/-- Nothing that SYS had begun goes on. -/
def SysIdle (y : SysState) : Prop :=
  y.transition = none ∧ y.ctlBusy = false ∧ y.lockArm = none ∧ y.cpll = false ∧ y.tpll = false ∧ y.nvmChecked = false ∧ y.profileApplied = false

/-- From `s` to `t` every block but SYS takes its state after reset, but for what lies outside the device or in NVM and fuses; the NONCE is
`nonce`, and the epoch `ep` is still to be stored. -/
structure FreshBlocks (nonce : Word) (ep : Option Nat) (s t : State) : Prop where
  cms : t.cms = CmsState.reset
  xck : t.xck = XckState.reset
  imp : t.imp = ImpState.reset
  cpb : t.cpb = { CpbState.reset with faultSince := if s.pins.fault = .faultLevel then s.cpb.faultSince else s.now }
  cnv : t.cnv = CnvState.reset
  ctl : t.ctl = CtlState.reset
  lnk : t.lnk = { LnkState.reset with nonce := nonce }
  fab : t.fab = FabState.reset
  hst : t.hst = { HstState.reset with mem := s.hst.mem, msi := s.hst.msi }
  tbs : t.tbs = TbsState.reset
  flt : t.flt = FltState.reset
  thm : t.thm = ThmState.reset
  cal : t.cal = { CalState.reset with nvm := s.cal.nvm, epochPend := ep }
  bst : t.bst = { BstState.reset with runAt := s.now, fuseK := s.bst.fuseK, fuseRet := s.bst.fuseRet, fuseErr := s.bst.fuseErr }
  time : t.ft = 0 ∧ t.now = s.now
  queue : t.pending = s.pending

/-- What `keepOutside` builds on a state after reset (R72, R73). -/
theorem freshBlocks_keepOutside (s : State) (regs : List (Nat × Word)) (y : SysState) (pins : Pins) :
    FreshBlocks LnkState.reset.nonce (pendingEpoch s) s (keepOutside s { State.reset with regs := regs, sys := y, pins := pins }) :=
  ⟨rfl, rfl, rfl, rfl, rfl, rfl, rfl, rfl, rfl, rfl, rfl, rfl, rfl, rfl, ⟨rfl, rfl⟩, rfl⟩

/-- Without supply the epoch still to be stored is lost too. -/
theorem freshBlocks_keepUnpowered (s : State) (y : SysState) (pins : Pins) :
    FreshBlocks LnkState.reset.nonce none s (keepUnpowered s { State.reset with sys := y, pins := pins }) :=
  { freshBlocks_keepOutside { s with cal := { s.cal with op := none, epochPend := none } } [] y pins with }

section
variable {nonce : Word} {ep : Option Nat} {s r t : State} (h : FreshBlocks nonce ep s r)
include h

/-- R356: a NONCE drawn anew. -/
theorem FreshBlocks.drawNonce : FreshBlocks (freeWord r) ep s (drawNonce r) :=
  { h with lnk := congrArg (fun l : LnkState => { l with nonce := freeWord r }) h.lnk }

/-- What changes registers and the power state alone leaves every other block as it is. -/
theorem FreshBlocks.of_changes {rs : Nat → Prop} (hc : Changes [.sys, .resp] rs r t) : FreshBlocks nonce ep s t := by
  obtain ⟨hq, hp, -⟩ := hc
  exact ⟨(hp .cms (by decide)).trans h.cms, (hp .xck (by decide)).trans h.xck, (hp .imp (by decide)).trans h.imp, (hp .cpb (by decide)).trans h.cpb,
    (hp .cnv (by decide)).trans h.cnv, (hp .ctl (by decide)).trans h.ctl, (hp .lnk (by decide)).trans h.lnk, (hp .fab (by decide)).trans h.fab,
    (hp .hst (by decide)).trans h.hst, (hp .tbs (by decide)).trans h.tbs, (hp .flt (by decide)).trans h.flt, (hp .thm (by decide)).trans h.thm,
    (hp .cal (by decide)).trans h.cal, (hp .bst (by decide)).trans h.bst,
    ⟨(hp .ft (by decide)).trans h.time.1, (hp .now (by decide)).trans h.time.2⟩, hq.trans h.queue⟩

end

/-! ### A device reset other than POR -/

/-- Only the registers of the always-on domain keep their content (R72). -/
theorem get_keepAon (l : List (Nat × Word)) (a : Nat) :
    RegFile.get (keepAon l) a = if (rowAt a).any RegRow.aon then RegFile.get l a else resetOf a := by
  split
  · next h => exact congrArg (fun o => Option.getD o (resetOf a)) (assoc_filter (fun k => (rowAt k).any RegRow.aon) a h l)
  · next h => exact congrArg (fun o => Option.getD o (resetOf a)) (assoc_filter_out (p := fun k => (rowAt k).any RegRow.aon) (by simpa using h) l)

/-- The state of a device reset before its cause and the supplies are shown. -/
def resetBase (ph : Phase) (s : State) : State :=
  drawNonce (keepOutside s { State.reset with regs := keepAon s.regs, sys := sysAfterReset ph s.sys })

theorem Changes.deviceReset (cause : Field) (ph : Phase) (s : State) :
    Changes [] (oneOf [cause.addr, Reg.SYS_PWRSTAT]) (resetBase ph s) (deviceReset cause ph s) :=
  ((Changes.setB cause true _).trans (Changes.reportSupply _)).mono (by simp) (by simp [oneOf])

/-- A cause bit of `SYS_RSTCAUSE` (R86). -/
def IsCause (cause : Field) : Prop := cause.addr = Reg.SYS_RSTCAUSE ∧ cause.lo + cause.w ≤ 32 ∧ cause.w = 1

/-- What every device reset but POR does, from `s` to `t` (R72): the cause bit is set, the always-on registers stay but for it, every other one but
`SYS_PWRSTAT` takes its reset value, and so do the blocks and the pins. -/
structure ResetBy (cause : Field) (s t : State) : Prop where
  caused : bit cause t = true
  kept : ∀ a, (rowAt a).any RegRow.aon = true → a ≠ Reg.SYS_RSTCAUSE → reg t a = reg s a
  cleared : ∀ a, (rowAt a).any RegRow.aon = false → a ≠ Reg.SYS_PWRSTAT → reg t a = resetOf a
  fresh : FreshBlocks (Config.freeValue s.free) (pendingEpoch s) s t
  idle : SysIdle t.sys
  pins : t.pins = Pins.reset

theorem sysIdle_sysAfterReset (ph : Phase) (y : SysState) : SysIdle (sysAfterReset ph y) := ⟨rfl, rfl, rfl, rfl, rfl, rfl, rfl⟩

theorem aon_rstcause : (rowAt Reg.SYS_RSTCAUSE).any RegRow.aon = true := by decide
theorem aon_pwrstat : (rowAt Reg.SYS_PWRSTAT).any RegRow.aon = false := by decide

theorem resetBy_deviceReset {cause : Field} (hf : IsCause cause) (ph : Phase) (s : State) : ResetBy cause s (deviceReset cause ph s) := by
  obtain ⟨haddr, hfits, hone⟩ := hf
  have hch := Changes.deviceReset cause ph s
  have hreg {a : Nat} (hc : a ≠ Reg.SYS_RSTCAUSE) (hp : a ≠ Reg.SYS_PWRSTAT) :
      reg (deviceReset cause ph s) a = if (rowAt a).any RegRow.aon then reg s a else resetOf a :=
    (hch.reg_eq (by simp [oneOf, haddr, hc, hp])).trans (get_keepAon s.regs a)
  refine ⟨?_, fun a ha hc => ?_, fun a ha hp => ?_, ?_, sysIdle_sysAfterReset ph s.sys, rfl⟩
  · exact (bit_of_reg ((Changes.reportSupply _).reg_eq (by rw [haddr]; decide))).trans (bit_setB_same hfits hone true _)
  · rw [hreg hc (fun hp => by rw [hp, aon_pwrstat] at ha; contradiction), if_pos ha]
  · rw [hreg (fun hc => by rw [hc, aon_rstcause] at ha; contradiction) hp, if_neg (by simp [ha])]
  · exact (freshBlocks_keepOutside s _ _ _).drawNonce.of_changes (hch.mono (by simp) (fun _ => id))

/-- The choice of a leg after a reset shows in `SYS_PWRSTAT` alone. -/
theorem ResetBy.selectLeg {cause : Field} {s t : State} (h : ResetBy cause s t) (hf : IsCause cause) (hd : coreUp t = false) :
    ResetBy cause s (selectLeg t) := by
  have hch := Changes.selectLeg_coreDown hd
  have hreg {a : Nat} (hp : a ≠ Reg.SYS_PWRSTAT) : reg (Machine.selectLeg t) a = reg t a := hch.reg_eq (by simpa [oneOf] using hp)
  refine ⟨(bit_of_reg (hreg (by rw [hf.1]; decide))).trans h.caused, fun a ha hc => ?_, fun a ha hp => (hreg hp).trans (h.cleared a ha hp),
    h.fresh.of_changes (hch.mono (by simp) (fun _ => id)), ?_, (hch.2.1 .pins (by decide)).trans h.pins⟩
  · exact (hreg (fun hp => by rw [hp, aon_pwrstat] at ha; contradiction)).trans (h.kept a ha hc)
  · rw [selectLeg_coreDown hd]
    exact h.idle

/-- After a reset that leaves the device without a leg it waits for one or begins its soft start (R72, R74). -/
theorem restarted_phase (cause : Field) (s : State) :
    (selectLeg (deviceReset cause .waitLeg s)).sys.phase = .waitLeg ∨ (selectLeg (deviceReset cause .waitLeg s)).sys.phase = .softStart := by
  rw [selectLeg_coreDown rfl]
  exact phaseWith_waitLeg _

/-- R58, R72: a brown-out while the rails run. -/
theorem railBrownOut_clause {s : State} (r : Rail) (hp : s.sys.phase ∈ [.standby, .core, .resume, .active, .rails, .rstHeld, .thermal]) :
    ∃ t, exec (.railBrownOut r) s = .next t ∧ ResetBy Reg.SYS_RSTCAUSE_BOR s t ∧ (t.sys.phase = .waitLeg ∨ t.sys.phase = .softStart) := by
  have hnext : exec (.railBrownOut r) s = .next (selectLeg (deviceReset Reg.SYS_RSTCAUSE_BOR .waitLeg s)) := by
    change execRailBrownOut r s = _
    simp only [List.mem_cons, List.not_mem_nil, or_false] at hp
    rcases hp with hp | hp | hp | hp | hp | hp | hp <;> rw [execRailBrownOut, hp]
  exact ⟨_, hnext, (resetBy_deviceReset (by unfold IsCause; decide) _ s).selectLeg (by unfold IsCause; decide) rfl, restarted_phase _ s⟩

/-- R72, R85: the reset that SYS_RSTCMD commands. -/
theorem deviceResetCommand_clause {s : State} (hc : coreUp s = true) : ∃ t, exec .deviceResetCommand s = .next t ∧
    ResetBy Reg.SYS_RSTCAUSE_SOFT s t ∧ t.sys.phase = .rails ∧ t.answered .ok := by
  obtain ⟨hcaused, hkept, hcleared, hfresh, hidle, hpins⟩ := resetBy_deviceReset (cause := Reg.SYS_RSTCAUSE_SOFT) (by unfold IsCause; decide) .rails s
  exact ⟨_, if_pos hc, ⟨hcaused, hkept, hcleared, hfresh.of_changes ((Changes.finish_ok _).mono (by simp) (fun _ => id)), hidle, hpins⟩, rfl, rfl⟩

/-- RSTN low: only a core that runs is reset (R617). -/
theorem rstnAssert_next (s : State) : exec .rstnAssert s = .next (if coreUp s
    then deviceReset Reg.SYS_RSTCAUSE_RSTN .rstHeld { s with sys := { s.sys with rstnLow := true } } else { s with sys := { s.sys with rstnLow := true } }) := by
  change execRstnAssert s = _
  unfold execRstnAssert coreUp
  cases s.sys.phase <;> rfl

theorem rstnAssert_clause {s : State} (hc : coreUp s = true) : ∃ t, exec .rstnAssert s = .next t ∧ ResetBy Reg.SYS_RSTCAUSE_RSTN s t ∧
    t.sys.phase = .rstHeld ∧ t.sys.rstnLow = true := by
  obtain ⟨hcaused, hkept, hcleared, hfresh, hidle, hpins⟩ := resetBy_deviceReset (cause := Reg.SYS_RSTCAUSE_RSTN) (by unfold IsCause; decide) .rstHeld
    { s with sys := { s.sys with rstnLow := true } }
  refine ⟨_, rstnAssert_next s, ?_⟩
  rw [if_pos hc]
  exact ⟨⟨hcaused, hkept, hcleared, { hfresh with }, hidle, hpins⟩, rfl, rfl⟩

theorem rstnAssert_coreDown {s : State} (hc : coreUp s = false) : exec .rstnAssert s = .next { s with sys := { s.sys with rstnLow := true } } := by
  rw [rstnAssert_next, hc]
  rfl

theorem rstnRelease_held {s : State} (hp : s.sys.phase = .rstHeld) :
    exec .rstnRelease s = .next { s with sys := { s.sys with rstnLow := false, phase := .rails } } := by
  change execRstnRelease s = _
  rw [execRstnRelease, if_pos hp]

theorem rstnRelease_free {s : State} (hp : s.sys.phase ≠ .rstHeld) : exec .rstnRelease s = .next { s with sys := { s.sys with rstnLow := false } } := by
  change execRstnRelease s = _
  rw [execRstnRelease, if_neg hp]

/-! ### POR and the loss of the always-on supply -/

/-- The device as POR leaves it, before its ports are OFF and a leg is chosen (R72). -/
def porState (w v a m : Bool) (s : State) : State :=
  drawNonce (keepUnpowered s { State.reset with
    sys := { SysState.reset with
      phase := if w = false ∧ v = false then .shelf else .waitLeg
      vinAbove := v, vinAt := s.now, vmodOk := m, aonFromVin := !(a || m), wakeHigh := w, wakeAt := s.now
      perstLow := s.sys.perstLow, rstnLow := s.sys.rstnLow, lcmPin := s.sys.lcmPin }
    pins := if w = false ∧ v = false then Pins.unpowered else Pins.reset })

theorem Changes.portsOff (s : State) : Changes [] (fun a => ∃ n, n < 4 ∧ a = Reg.LNK_PSTAT n) s (portsOff s) := by
  have hoff (n : Nat) (hn : n < 4) (t : State) : Changes [] (fun a => ∃ n, n < 4 ∧ a = Reg.LNK_PSTAT n) t (Machine.setF (Reg.LNK_PSTAT_STATE n) 0 t) :=
    (Changes.setF _ 0 t).mono (by simp) (fun _ ha => ⟨n, hn, ha⟩)
  exact (((hoff 0 (by decide) s).trans (hoff 1 (by decide) _)).trans ((hoff 2 (by decide) _).trans (hoff 3 (by decide) _))).mono (by simp) (by simp)

/-- R343: each of the four ports reads OFF. -/
theorem portState_portsOff (n : Fin 4) (s : State) : portState n (portsOff s) = 0 := by
  fin_cases n <;> simp (disch := decide) [portsOff, portState, List.range, List.range.loop, getF_setF_other, getF_setF_same]

/-- The device as POR leaves it, before a leg is chosen: in SHELF the ports are OFF (R343). -/
def porReady (w v a m : Bool) (s : State) : State := if w = false ∧ v = false then portsOff (porState w v a m s) else porState w v a m s

theorem powerOnReset_next (w v a m : Bool) (s : State) : exec (.powerOnReset w v a m) s = .next (selectLeg (porReady w v a m s)) := by
  cases w <;> cases v <;> rfl

theorem porReady_sys (w v a m : Bool) (s : State) : (porReady w v a m s).sys = (porState w v a m s).sys := by
  unfold porReady; split <;> rfl

theorem coreUp_porReady (w v a m : Bool) (s : State) : coreUp (porReady w v a m s) = false := by cases w <;> cases v <;> rfl

theorem freshBlocks_porReady (w v a m : Bool) (s : State) : FreshBlocks (Config.freeValue s.free) none s (porReady w v a m s) := by
  have hstate : FreshBlocks (Config.freeValue s.free) none s (porState w v a m s) := (freshBlocks_keepUnpowered s _ _).drawNonce
  unfold porReady
  split
  · exact hstate.of_changes ((Changes.portsOff _).mono (by simp) (fun _ => id))
  · exact hstate

/-- Every register but those of the ports in SHELF reads as its reset value. -/
theorem reg_porReady {w v : Bool} (a m : Bool) (s : State) {x : Nat} (hx : w = false → v = false → ∀ n, n < 4 → x ≠ Reg.LNK_PSTAT n) :
    reg (porReady w v a m s) x = resetOf x := by
  unfold porReady
  split
  · next h => exact (Changes.portsOff _).reg_eq (fun ⟨n, hn, he⟩ => hx h.1 h.2 n hn he)
  · rfl

/-- R54, R72, R73: SHELF with WAKE low and VIN below its threshold; else the device waits for a leg or begins its soft start. -/
theorem powerOnReset_clause (w v a m : Bool) (s : State) : ∃ t, exec (.powerOnReset w v a m) s = .next t ∧
    (∀ x, x ≠ Reg.SYS_PWRSTAT → (w = false → v = false → ∀ n, n < 4 → x ≠ Reg.LNK_PSTAT n) → reg t x = resetOf x) ∧
    (w = false → v = false → ∀ n : Fin 4, portState n t = 0) ∧ FreshBlocks (Config.freeValue s.free) none s t ∧ SysIdle t.sys ∧
    (t.sys.phase = .shelf ↔ w = false ∧ v = false) ∧ t.sys.porStart = true ∧ t.sys.aonFromVin = !(a || m) ∧ t.sys.vmodOk = m ∧
    t.sys.vinAbove = v ∧ t.sys.vinQual = false ∧ t.pins = (if w = false ∧ v = false then Pins.unpowered else Pins.reset) := by
  have hdown := coreUp_porReady w v a m s
  have hch := Changes.selectLeg_coreDown hdown
  have hsys : (selectLeg (porReady w v a m s)).sys = { (porState w v a m s).sys with
      leg := legChoice (porReady w v a m s), lostLeg := none
      phase := phaseWith (legChoice (porReady w v a m s)) (porState w v a m s).sys.phase } := by
    rw [selectLeg_coreDown hdown, ← porReady_sys]
    rfl
  have hpins : (porReady w v a m s).pins = (porState w v a m s).pins := by unfold porReady; split <;> rfl
  refine ⟨_, powerOnReset_next w v a m s, fun x hp hx => ?_, fun hw hv n => ?_,
    (freshBlocks_porReady w v a m s).of_changes (hch.mono (by simp) (fun _ => id)), ?_⟩
  · exact (hch.reg_eq (by simpa [oneOf] using hp)).trans (reg_porReady a m s hx)
  · have hn : Reg.LNK_PSTAT n ≠ Reg.SYS_PWRSTAT := by simp only [Reg.LNK_PSTAT, Reg.SYS_PWRSTAT]; omega
    rw [portState, getF_of_reg (f := Reg.LNK_PSTAT_STATE n) (hch.reg_eq (fun h => hn (List.mem_singleton.1 h))), porReady, if_pos ⟨hw, hv⟩]
    exact portState_portsOff n _
  · rw [hsys, hch.2.1 .pins (by decide), hpins]
    refine ⟨⟨rfl, rfl, rfl, rfl, rfl, rfl, rfl⟩, (phaseWith_shelf ..).trans ?_, rfl, rfl, rfl, rfl, rfl, rfl⟩
    show (if w = false ∧ v = false then Phase.shelf else .waitLeg) = .shelf ↔ _
    simp

/-- R54, R61: nothing of the device's state survives the loss of the always-on supply. -/
theorem aonPowerLoss_clause (s : State) : ∃ t, exec .aonPowerLoss s = .next t ∧ (∀ a, reg t a = resetOf a) ∧
    FreshBlocks LnkState.reset.nonce none s t ∧ SysIdle t.sys ∧ t.sys.phase = .off ∧ t.pins = Pins.unpowered :=
  ⟨_, rfl, fun _ => rfl, freshBlocks_keepUnpowered s _ _, ⟨rfl, rfl, rfl, rfl, rfl, rfl, rfl⟩, rfl, rfl⟩

/-- Settles O6: each reset is a fresh state, with the always-on registers kept but after a POR and without supply, and what its cause and the supplies show. -/
theorem deviceResets : Obligations.DeviceResets := by
  unfold Obligations.DeviceResets
  intro s aon fresh resets
  have hfresh {nonce : Word} {ep : Option Nat} {t : State} (h : FreshBlocks nonce ep s t) (hi : SysIdle t.sys) : fresh nonce ep t := by
    obtain ⟨ht, hb, hl, hc, hp, hn, ha⟩ := hi
    exact ⟨h.cms, h.xck, h.imp, h.cpb, h.cnv, h.ctl, h.lnk, h.fab, h.hst, h.tbs, h.flt, h.thm, h.cal, h.bst, ht, hb, hl, hc, hp, hn, ha,
      h.time.1, h.time.2, h.queue⟩
  have hresets {cause : Field} {t : State} (h : ResetBy cause s t) : resets cause t :=
    ⟨h.caused, h.kept, h.cleared, hfresh h.fresh h.idle, h.pins⟩
  refine ⟨fun r hp => ?_, fun hc => ?_, fun hc => ?_, rstnAssert_coreDown, fun w v a m => ?_, ?_, rstnRelease_held, rstnRelease_free⟩
  · obtain ⟨t, ht, hr, hphase⟩ := railBrownOut_clause r hp
    exact ⟨t, ht, hresets hr, hphase⟩
  · obtain ⟨t, ht, hr, hphase, hok⟩ := deviceResetCommand_clause hc
    exact ⟨t, ht, hresets hr, hphase, hok⟩
  · obtain ⟨t, ht, hr, hphase, hlow⟩ := rstnAssert_clause hc
    exact ⟨t, ht, hresets hr, hphase, hlow⟩
  · obtain ⟨t, ht, hreg, hoff, hf, hi, hrest⟩ := powerOnReset_clause w v a m s
    exact ⟨t, ht, hreg, hoff, hfresh hf hi, hrest⟩
  · obtain ⟨t, ht, hreg, hf, hi, hrest⟩ := aonPowerLoss_clause s
    exact ⟨t, ht, hreg, hfresh hf hi, hrest⟩

end Sys2Proof.Machine
end

