-- ==== Sys2Proof/Proofs/WakeEvents.lean ====
section
/-!
PROOFS. Wake sources: what leaves SHELF, SENTINEL and STANDBY, what a WAKE edge does in ACTIVE, and false wakes (R60, R65, R69, R72, R75, R76, R80, R89).
-/
namespace Sys2Proof.Machine

/-! ### A wake source becomes valid -/

/-- The record of a wake moves what is kept of the latest wake, and LASTWAKE (R65). -/
theorem recordWakeFrom_clause (st : LowState) (code : Nat) (s : State) :
    (∃ e, (recordWakeFrom st code s).sys = { s.sys with wakeFrom := some st, lastWake := e }) ∧
      Changes [.sys] (oneOf [Reg.SYS_PWRSTAT]) s (recordWakeFrom st code s) :=
  ⟨⟨_, rfl⟩, (((Changes.withSys s _).trans (Changes.withSys _ _)).trans (Changes.setF Reg.SYS_PWRSTAT_LASTWAKE _ _)).mono (by simp)
    (by simp [oneOf, Reg.SYS_PWRSTAT_LASTWAKE])⟩

/-- R60, R72: WAKE leaves SHELF through the reset of its exit, to the WAKE filter. -/
theorem wakeBy_shelf {s : State} (hp : s.sys.phase = .shelf) : (wakeBy 1 s).sys.phase = .wakeFilter ∧
    bit Reg.SYS_RSTCAUSE_SHELFEXIT (wakeBy 1 s) = true ∧ (wakeBy 1 s).sys.lastWakeEdge = s.sys.lastWakeEdge ∧ (wakeBy 1 s).pending = s.pending := by
  have hw : wakeBy 1 s = recordWakeFrom .shelf 1 (deviceReset Reg.SYS_RSTCAUSE_SHELFEXIT .wakeFilter s) := by simp [wakeBy, hp, wakeSourceOf]
  have hreset := resetBy_deviceReset (cause := Reg.SYS_RSTCAUSE_SHELFEXIT) (by unfold IsCause; decide) .wakeFilter s
  obtain ⟨-, hch⟩ := recordWakeFrom_clause .shelf 1 (deviceReset Reg.SYS_RSTCAUSE_SHELFEXIT .wakeFilter s)
  rw [hw]
  exact ⟨rfl, (bit_of_reg (hch.reg_eq (by unfold oneOf; decide))).trans hreset.caused, rfl, rfl⟩

theorem coreUp_waiting {s : State} (h : s.sys.phase = .waitLeg ∨ s.sys.phase = .softStart) : coreUp s = false := by
  rcases h with h | h <;> simp [coreUp, h]

/-- R60, R72, R74: a wake source of SENTINEL leaves it through the reset of its exit, to the wait for a leg or the soft start. -/
theorem wakeBy_sentinel {s : State} (hp : s.sys.phase = .sentinel) {code : Nat} (hw : wakeSourceOf .sentinel code s = true) :
    ((wakeBy code s).sys.phase = .waitLeg ∨ (wakeBy code s).sys.phase = .softStart) ∧ bit Reg.SYS_RSTCAUSE_SENTEXIT (wakeBy code s) = true ∧
      (wakeBy code s).sys.wakePort = none ∧ (wakeBy code s).pending = s.pending := by
  have hnext : wakeBy code s = recordWakeFrom .sentinel code (selectLeg (deviceReset Reg.SYS_RSTCAUSE_SENTEXIT .waitLeg (noteNextTrips s))) := by
    simp [wakeBy, hp, hw]
  have hcause : IsCause Reg.SYS_RSTCAUSE_SENTEXIT := by unfold IsCause; decide
  have hreset := (resetBy_deviceReset hcause .waitLeg (noteNextTrips s)).selectLeg hcause rfl
  have hphase := restarted_phase Reg.SYS_RSTCAUSE_SENTEXIT (noteNextTrips s)
  have hport : (selectLeg (deviceReset Reg.SYS_RSTCAUSE_SENTEXIT .waitLeg (noteNextTrips s))).sys.wakePort = none := by
    rw [selectLeg_coreDown rfl]
    rfl
  obtain ⟨⟨e, hsys⟩, hch⟩ := recordWakeFrom_clause .sentinel code (selectLeg (deviceReset Reg.SYS_RSTCAUSE_SENTEXIT .waitLeg (noteNextTrips s)))
  rw [hnext, hsys]
  exact ⟨hphase, (bit_of_reg (hch.reg_eq (by unfold oneOf; decide))).trans hreset.caused, hport, hch.1.trans hreset.fresh.queue⟩

/-- Nothing is woken by what is no wake source of SENTINEL (R60). -/
theorem wakeBy_sentinel_none {s : State} (hp : s.sys.phase = .sentinel) {code : Nat} (hw : wakeSourceOf .sentinel code s = false) : wakeBy code s = s := by
  simp [wakeBy, hp, hw]

/-- In ACTIVE that no wake led to, with no transition, a wake source wakes nothing (R65). -/
theorem wakeBy_active_none {s : State} (hp : s.sys.phase = .active) (ht : s.sys.transition = none) (hw : s.sys.wakeFrom = none) (code : Nat) :
    wakeBy code s = s := by
  simp only [wakeBy, hp, ht, joinWake, hw]
  cases s.sys.lastWake <;> rfl

/-- R62: WAKE begins the way from STANDBY back to ACTIVE. -/
theorem wakeBy_one_standby {s : State} (hp : s.sys.phase = .standby) (ht : s.sys.transition = none) :
    (∃ e, (wakeBy 1 s).sys = { s.sys with phase := .resume, wakeFrom := some .standby, lastWake := e }) ∧
      Changes [.sys] (oneOf [Reg.SYS_PWRSTAT]) s (wakeBy 1 s) := by
  have hw : wakeBy 1 s = recordWakeFrom .standby 1 { s with sys := { s.sys with phase := .resume } } := by simp [wakeBy, hp, ht, wakeSourceOf]
  obtain ⟨⟨e, hsys⟩, hch⟩ := recordWakeFrom_clause .standby 1 { s with sys := { s.sys with phase := .resume } }
  rw [hw]
  exact ⟨⟨e, hsys⟩, ((Changes.withSys s _).trans hch).mono (by simp) (by simp)⟩

/-! ### The WAKE pin -/

/-- What every rise of WAKE does: the level, and since when it stands (R75, R89). -/
def edgeLevel (s : State) : State := setWakeLevel true { s with sys := { s.sys with wakeAt := s.now } }

/-- A valid edge is kept as the last one (R75). -/
def edgeTaken (s : State) : State := { edgeLevel s with sys := { (edgeLevel s).sys with lastWakeEdge := some s.now } }

/-- The count of edges while the core runs (R89). -/
def edgeCounted (s : State) : State := if coreUp s then incSat Reg.SYS_PINSTAT_WAKECNT s else s

/-- The last valid edge lies 100 ms back (R75). -/
def edgeApart (s : State) : Bool := s.sys.lastWakeEdge.all (fun e => decide (e + 100 * ms ≤ s.now))

/-- R75, R76: an armed edge, 100 ms after the last valid one, wakes and is counted; any other changes the level alone. -/
theorem wakeRisingEdge_next (s : State) : exec .wakeRisingEdge s = .next
    (if s.sys.phase = .off ∨ edgeApart s = false ∨ s.sys.wakeArmed = false then edgeLevel s else edgeCounted (wakeBy 1 (edgeTaken s))) := by
  change execWakeRisingEdge s = _
  unfold execWakeRisingEdge
  extract_lets tooSoon
  have hsoon : tooSoon = !edgeApart s := by
    unfold tooSoon edgeApart
    split
    · next e he => rw [he, Option.all_some, ← decide_not, decide_eq_decide, Nat.not_le]
    · next he => rw [he]; rfl
  have hiff : (s.sys.phase == .off || tooSoon || !s.sys.wakeArmed) = true ↔ s.sys.phase = .off ∨ edgeApart s = false ∨ s.sys.wakeArmed = false := by
    simp [hsoon, or_assoc]
  by_cases h : s.sys.phase = .off ∨ edgeApart s = false ∨ s.sys.wakeArmed = false
  · rw [if_pos (hiff.2 h), if_pos h]
    rfl
  · rw [if_neg (mt hiff.1 h), if_neg h]
    rfl

theorem edgeLevel_sys (s : State) : (edgeLevel s).sys = { s.sys with wakeHigh := true, wakeAt := s.now } := (setWakeLevel_clause true _).1

theorem Changes.edgeLevel (s : State) : Changes [.sys] (oneOf [Reg.SYS_PINSTAT]) s (edgeLevel s) :=
  ((Changes.withSys s _).trans (setWakeLevel_clause true _).2).mono (by simp) (by simp)

theorem Changes.edgeTaken (s : State) : Changes [.sys] (oneOf [Reg.SYS_PINSTAT]) s (edgeTaken s) :=
  ((Changes.edgeLevel s).trans (Changes.withSys _ _)).mono (by simp) (by simp)

theorem edgeTaken_sys (s : State) : (edgeTaken s).sys = { s.sys with wakeHigh := true, wakeAt := s.now, lastWakeEdge := some s.now } :=
  congrArg (fun y : SysState => { y with lastWakeEdge := some s.now }) (edgeLevel_sys s)

/-- With the core up the level shows, and the count stays. -/
theorem edgeLevel_shown {s : State} (hc : coreUp s = true) : bit Reg.SYS_PINSTAT_WAKELVL (edgeLevel s) = true ∧
    getF Reg.SYS_PINSTAT_WAKECNT (edgeLevel s) = getF Reg.SYS_PINSTAT_WAKECNT s := by
  have hset : edgeLevel s = setB Reg.SYS_PINSTAT_WAKELVL true { s with sys := { s.sys with wakeHigh := true, wakeAt := s.now } } := if_pos hc
  rw [hset]
  exact ⟨bit_setB_same (by decide) rfl true _, getF_setF_beside _ _ _ _ (by decide) (by decide)⟩

section
variable {s : State} (ha : s.sys.wakeArmed = true) (hapart : edgeApart s = true)
include ha hapart

theorem wakeRisingEdge_valid (hp : s.sys.phase ≠ .off) : exec .wakeRisingEdge s = .next (edgeCounted (wakeBy 1 (edgeTaken s))) := by
  rw [wakeRisingEdge_next, if_neg (by simp [hp, ha, hapart])]

theorem wakeRisingEdge_shelf (hp : s.sys.phase = .shelf) : ∃ t, exec .wakeRisingEdge s = .next t ∧ t.sys.phase = .wakeFilter ∧
    bit Reg.SYS_RSTCAUSE_SHELFEXIT t = true ∧ t.sys.lastWakeEdge = some s.now ∧ t.pending = s.pending := by
  obtain ⟨hphase, hcause, hedge, hq⟩ := wakeBy_shelf (s := edgeTaken s) (by rw [edgeTaken_sys]; exact hp)
  have hdown : coreUp (wakeBy 1 (edgeTaken s)) = false := by simp [coreUp, hphase]
  refine ⟨_, wakeRisingEdge_valid ha hapart (by simp [hp]), ?_⟩
  rw [edgeCounted, hdown, if_neg Bool.false_ne_true]
  exact ⟨hphase, hcause, hedge, hq.trans (Changes.edgeTaken s).1⟩

theorem wakeRisingEdge_sentinel (hp : s.sys.phase = .sentinel) : ∃ t, exec .wakeRisingEdge s = .next t ∧
    (t.sys.phase = .waitLeg ∨ t.sys.phase = .softStart) ∧ bit Reg.SYS_RSTCAUSE_SENTEXIT t = true ∧ t.sys.wakePort = none ∧ t.pending = s.pending := by
  obtain ⟨hphase, hcause, hport, hq⟩ := wakeBy_sentinel (s := edgeTaken s) (code := 1) (by rw [edgeTaken_sys]; exact hp) rfl
  refine ⟨_, wakeRisingEdge_valid ha hapart (by simp [hp]), ?_⟩
  rw [edgeCounted, coreUp_waiting hphase, if_neg Bool.false_ne_true]
  exact ⟨hphase, hcause, hport, hq.trans (Changes.edgeTaken s).1⟩

/-- R65, R75: in ACTIVE a valid edge is only counted. -/
theorem wakeRisingEdge_active (hp : s.sys.phase = .active) (ht : s.sys.transition = none) (hw : s.sys.wakeFrom = none) : ∃ t,
    exec .wakeRisingEdge s = .next t ∧ t.sys.phase = .active ∧ getF Reg.SYS_PINSTAT_WAKECNT t = min (getF Reg.SYS_PINSTAT_WAKECNT s + 1) 255 ∧
    Changes [.sys] (oneOf [Reg.SYS_PINSTAT]) s t := by
  have hphase : (edgeTaken s).sys.phase = .active := by rw [edgeTaken_sys]; exact hp
  have hsame : wakeBy 1 (edgeTaken s) = edgeTaken s :=
    wakeBy_active_none hphase (by rw [edgeTaken_sys]; exact ht) (by rw [edgeTaken_sys]; exact hw) 1
  refine ⟨_, wakeRisingEdge_valid ha hapart (by simp [hp]), ?_⟩
  rw [hsame, edgeCounted, if_pos (coreUp_active hphase)]
  refine ⟨hphase, (getF_incSat _ _ (by decide)).trans ?_,
    ((Changes.edgeTaken s).trans (Changes.incSat _ _)).mono (by simp) (by simp [oneOf, Reg.SYS_PINSTAT_WAKECNT])⟩
  exact congrArg (fun n => min (n + 1) 255) (edgeLevel_shown (coreUp_active hp)).2

/-- R62, R65: in STANDBY a valid edge starts the way back to ACTIVE. -/
theorem wakeRisingEdge_standby (hp : s.sys.phase = .standby) (ht : s.sys.transition = none) : ∃ t, exec .wakeRisingEdge s = .next t ∧
    t.sys.phase = .resume ∧ t.sys.wakeHigh = true ∧ t.sys.lastWakeEdge = some s.now ∧
    Changes [.sys] (oneOf [Reg.SYS_PWRSTAT, Reg.SYS_PINSTAT]) s t := by
  obtain ⟨⟨e, hsys⟩, hch⟩ := wakeBy_one_standby (s := edgeTaken s) (by rw [edgeTaken_sys]; exact hp) (by rw [edgeTaken_sys]; exact ht)
  rw [edgeTaken_sys] at hsys
  have hup : coreUp (wakeBy 1 (edgeTaken s)) = true := by simp [coreUp, hsys]
  refine ⟨_, wakeRisingEdge_valid ha hapart (by simp [hp]), ?_⟩
  rw [edgeCounted, if_pos hup]
  exact ⟨congrArg SysState.phase hsys, congrArg SysState.wakeHigh hsys, congrArg SysState.lastWakeEdge hsys,
    (((Changes.edgeTaken s).trans hch).trans (Changes.incSat _ _)).mono (by simp) (by simp [oneOf, Reg.SYS_PINSTAT_WAKECNT]; tauto)⟩

end

/-- R75, R76: an edge that is not armed or too soon changes only the level. -/
theorem wakeRisingEdge_ignored {s : State} (hc : coreUp s = true) (h : s.sys.wakeArmed = false ∨ ¬ edgeApart s = true) : ∃ t,
    exec .wakeRisingEdge s = .next t ∧ t.sys = { s.sys with wakeHigh := true, wakeAt := s.now } ∧ bit Reg.SYS_PINSTAT_WAKELVL t = true ∧
    getF Reg.SYS_PINSTAT_WAKECNT t = getF Reg.SYS_PINSTAT_WAKECNT s ∧ Changes [.sys] (oneOf [Reg.SYS_PINSTAT]) s t := by
  obtain ⟨hlevel, hcount⟩ := edgeLevel_shown hc
  refine ⟨_, wakeRisingEdge_next s, ?_⟩
  rw [if_pos (.inr (by simpa [or_comm] using h))]
  exact ⟨edgeLevel_sys s, hlevel, hcount, Changes.edgeLevel s⟩

/-! ### The wake timer, the filter and link wake -/

/-- R60, R80: the wake timer, unless it is off. -/
theorem wakeTimerExpiry_clause {s : State} (hp : s.sys.phase = .sentinel) (hw : getF Reg.SYS_PWRCFG_WAKETMR s ≠ 0) : ∃ t,
    exec .wakeTimerExpiry s = .next t ∧ (t.sys.phase = .waitLeg ∨ t.sys.phase = .softStart) ∧ bit Reg.SYS_RSTCAUSE_SENTEXIT t = true ∧
    t.pending = s.pending := by
  obtain ⟨hphase, hcause, -, hq⟩ := wakeBy_sentinel hp (code := 6) (bne_iff_ne.2 hw)
  exact ⟨_, rfl, hphase, hcause, hq⟩

/-- R74: with the filter passed start-up waits for a leg or begins the soft start. -/
theorem wakeFilterPass_clause {s : State} (hp : s.sys.phase = .wakeFilter) : ∃ t, exec .wakeFilterPass s = .next t ∧
    (t.sys.phase = .waitLeg ∨ t.sys.phase = .softStart) ∧ Changes [.sys] (oneOf [Reg.SYS_PWRSTAT]) s t := by
  have hdown : coreUp { s with sys := { s.sys with phase := .waitLeg } } = false := rfl
  refine ⟨_, if_pos hp, ?_, ((Changes.withSys s _).trans (Changes.selectLeg_coreDown hdown)).mono (by simp) (by simp)⟩
  rw [selectLeg_coreDown hdown]
  exact phaseWith_waitLeg _

section
variable {s : State} (hp : s.sys.phase = .sentinel) {port : Nat} (hlt : port < 2)
include hp hlt

/-- R60, R69: a port whose link wake is a wake source is kept as the waking one. -/
theorem linkWakeDetect_clause (hw : wakeSourceOf .sentinel (2 + port) s = true) : ∃ t, exec (.linkWakeDetect port) s = .next t ∧
    (t.sys.phase = .waitLeg ∨ t.sys.phase = .softStart) ∧ bit Reg.SYS_RSTCAUSE_SENTEXIT t = true ∧ t.sys.wakePort = some port ∧
    t.pending = s.pending := by
  obtain ⟨hphase, hcause, -, hq⟩ := wakeBy_sentinel hp hw
  have hleft : (wakeBy (2 + port) s).sys.phase ≠ .sentinel := by rcases hphase with h | h <;> simp [h]
  refine ⟨_, if_pos hlt, ?_⟩
  rw [if_pos ⟨hp, hleft⟩]
  exact ⟨hphase, hcause, rfl, hq⟩

/-- Link wake that its bit or false wakes disable has no effect (R69, R80). -/
theorem linkWakeDetect_none (hw : wakeSourceOf .sentinel (2 + port) s = false) : exec (.linkWakeDetect port) s = .next s := by
  change execLinkWakeDetect port s = _
  rw [execLinkWakeDetect, if_pos hlt, wakeBy_sentinel_none hp hw]
  simp [hp]

end

theorem lw0_source (s : State) : wakeSourceOf .sentinel 2 s = (bit Reg.SYS_PWRCFG_LW0 s && !s.sys.lwdis0) := rfl
theorem lw1_source (s : State) : wakeSourceOf .sentinel 3 s = (bit Reg.SYS_PWRCFG_LW1 s && !s.sys.lwdis1) := rfl

/-! ### False wakes -/

/-- R69: the eighth false wake in a row disables link wake of its port (DESIGN CHOICE notes/assumptions/67.md: each further one does so anew). -/
theorem countFalseWake_clause (port : Nat) (s : State) : (countFalseWake port s).pending = s.pending ∧ (countFalseWake port s).sys = if port = 0
    then { s.sys with fwake0 := min (s.sys.fwake0 + 1) 15, lwdis0 := s.sys.lwdis0 || decide (8 ≤ s.sys.fwake0 + 1) }
    else { s.sys with fwake1 := min (s.sys.fwake1 + 1) 15, lwdis1 := s.sys.lwdis1 || decide (8 ≤ s.sys.fwake1 + 1) } := by
  unfold countFalseWake
  extract_lets n dis sys1 s1
  have h (u : State) : (reportLinkWake (if dis then pulse 13 u else u)).sys = u.sys ∧ (reportLinkWake (if dis then pulse 13 u else u)).pending = u.pending := by
    split <;> simp [reportLinkWake]
  obtain ⟨hsys, hq⟩ := h s1
  rw [hsys, hq]
  by_cases hport : port = 0 <;> simp [s1, n, dis, hport]

/-- R69: an ACTIVE that a link wake led to, in which the port has not trained, counts a false wake and goes back to SENTINEL, through the ordinary
transition (DEDUCED notes/assumptions/19.md). -/
theorem linkWakeTrainTimeout_clause {s : State} {port : Nat} (hp : s.sys.phase = .active) (hw : s.sys.wakePort = some port)
    (hs : s.sys.sclkFailed = false) (ht : s.sys.activeAt + 500 * ms ≤ s.now) : ∃ t, exec .linkWakeTrainTimeout s = .next t ∧
      t.sys = { (countFalseWake port s).sys with wakePort := none, transition := some ⟨.sentinel, false⟩ } ∧ t.pending = s.pending := by
  obtain ⟨hq, hsys⟩ := countFalseWake_clause port s
  have hnext : exec .linkWakeTrainTimeout s = .next (beginTransition .sentinel { countFalseWake port s with
      sys := { (countFalseWake port s).sys with wakePort := none } }) := by
    change execLinkWakeTrainTimeout s = _
    simp only [execLinkWakeTrainTimeout, hp, hw, Nat.not_lt.2 ht, if_false]
  have hsclk : (countFalseWake port s).sys.sclkFailed = false := by rw [hsys]; split <;> exact hs
  refine ⟨_, hnext, ?_, (beginTransition_pending ..).trans hq⟩
  rw [beginTransition_sys]
  simp [requested, hsclk]

theorem linkWakeTrainTimeout_port0 {s : State} (hp : s.sys.phase = .active) (hw : s.sys.wakePort = some 0) (hs : s.sys.sclkFailed = false)
    (ht : s.sys.activeAt + 500 * ms ≤ s.now) : ∃ t, exec .linkWakeTrainTimeout s = .next t ∧ t.sys.transition = some ⟨.sentinel, false⟩ ∧
      t.sys.fwake0 = min (s.sys.fwake0 + 1) 15 ∧ (7 ≤ s.sys.fwake0 → t.sys.lwdis0 = true) ∧ t.pending = s.pending := by
  obtain ⟨t, hnext, hsys, hq⟩ := linkWakeTrainTimeout_clause hp hw hs ht
  rw [(countFalseWake_clause 0 s).2] at hsys
  exact ⟨t, hnext, congrArg SysState.transition hsys, congrArg SysState.fwake0 hsys,
    fun h => (congrArg SysState.lwdis0 hsys).trans (by simp [h]), hq⟩

theorem linkWakeTrainTimeout_port1 {s : State} (hp : s.sys.phase = .active) (hw : s.sys.wakePort = some 1) (hs : s.sys.sclkFailed = false)
    (ht : s.sys.activeAt + 500 * ms ≤ s.now) : ∃ t, exec .linkWakeTrainTimeout s = .next t ∧ t.sys.transition = some ⟨.sentinel, false⟩ ∧
      t.sys.fwake1 = min (s.sys.fwake1 + 1) 15 ∧ (7 ≤ s.sys.fwake1 → t.sys.lwdis1 = true) ∧ t.pending = s.pending := by
  obtain ⟨t, hnext, hsys, hq⟩ := linkWakeTrainTimeout_clause hp hw hs ht
  rw [(countFalseWake_clause 1 s).2] at hsys
  exact ⟨t, hnext, congrArg SysState.transition hsys, congrArg SysState.fwake1 hsys,
    fun h => (congrArg SysState.lwdis1 hsys).trans (by simp [h]), hq⟩

/-- Settles O3: what a wake source does is decided by the phase it finds, and an edge of WAKE wakes only where it is armed and apart from the last. -/
theorem wakeEvents : Obligations.WakeEvents := by
  unfold Obligations.WakeEvents
  intro s apart
  refine ⟨fun hp ha hs => wakeRisingEdge_shelf ha hs hp, fun hp ha hs => wakeRisingEdge_sentinel ha hs hp,
    fun hp ht hw ha hs => wakeRisingEdge_active ha hs hp ht hw, wakeTimerExpiry_clause, fun hp hl hd => ?_, fun hp hl hd => ?_, fun hp h => ?_,
    fun hp h => ?_, wakeFilterPass_clause, fun hp hw hs _ ht => linkWakeTrainTimeout_port0 hp hw hs ht,
    fun hp hw hs _ ht => linkWakeTrainTimeout_port1 hp hw hs ht, fun hp ht ha hs => wakeRisingEdge_standby ha hs hp ht, wakeRisingEdge_ignored⟩
  · exact linkWakeDetect_clause hp (by decide) ((lw0_source s).trans (by simp [hl, hd]))
  · exact linkWakeDetect_clause hp (by decide) ((lw1_source s).trans (by simp [hl, hd]))
  · exact linkWakeDetect_none hp (by decide) ((lw0_source s).trans (Bool.and_eq_false_iff.2 (h.imp_right (congrArg not))))
  · exact linkWakeDetect_none hp (by decide) ((lw1_source s).trans (Bool.and_eq_false_iff.2 (h.imp_right (congrArg not))))

end Sys2Proof.Machine
end

