-- ==== Sys2Proof/Proofs/LinkStateRefutation.lean ====
section
/-!
PROOFS. What refutes the statement of the port states: a concrete state and command, and what the model answers there.
-/
namespace Sys2Proof.Machine

/-- The device in ACTIVE with port 0 in TRAIN, after three false wakes of that port in a row, as `SYS_PINSTAT` shows. -/
def wokenFalsely : State :=
  { activeWith [(Reg.SYS_PINSTAT, 0x30#32), (Reg.LNK_PSTAT 0, 2#32)] with sys := { SysState.reset with phase := .active, fwake0 := 3 } }

/-- A partner's LPAR payload: its NONCE is another than this device's, and its version is the known one (R356). -/
def partnerLpar : List Word := [1#32, 0x10000#32, 0#32, 0#32]

set_option maxRecDepth 20000 in
/-- R69, R89: a training that completes clears the port's count of false wakes, which `SYS_PINSTAT` shows. -/
theorem linkUp_wokenFalsely_pinstat :
    nextView (fun t => reg t Reg.SYS_PINSTAT) (exec (.linkUp 0 partnerLpar []) wokenFalsely) = some 0#32 := by decide

/-- Refutes O30: a port that reaches UP clears its count of false wakes (R69), and SYS_PINSTAT.FWAKE0 shows it (R89); the statement names SYS_PWRSTAT
among the registers that change, which does not, and leaves SYS_PINSTAT out. -/
theorem not_linkStates : ¬ Obligations.LinkStates := by
  unfold Obligations.LinkStates
  intro h
  obtain ⟨-, -, -, hup, -⟩ := h wokenFalsely
  obtain ⟨t, ht, -, -, -, -, -, -, -, -, -, -, -, hch⟩ := hup 0 partnerLpar [] (by decide) (by decide) (by decide) (by decide)
  have hkept : reg t Reg.SYS_PINSTAT = reg wokenFalsely Reg.SYS_PINSTAT := hch.reg_eq (by unfold oneOf; decide)
  have hp := linkUp_wokenFalsely_pinstat
  rw [nextView_exec _ ht, hkept] at hp
  exact absurd hp (by decide)

end Sys2Proof.Machine
end

