-- ==== Sys2Proof/Proofs/ResetState.lean ====
section
/-!
PROOFS. What reset leaves (R72, R73): an empty register file, so that every register reads as the value its table gives, and every block's state after reset.
-/
namespace Sys2Proof.Machine

/-- At reset the register file lists nothing, and every register reads as its reset value. -/
theorem reg_reset (a : Nat) : reg State.reset a = resetOf a := rfl

/-- Nothing drives the converter (R48). -/
theorem switching_reset : switching State.reset = false := by decide

/-- Settles O60: every register reads as its reset value, which the register map takes from the tables. -/
theorem resetState : Obligations.ResetState := by
  unfold Obligations.ResetState
  simp only [reg_reset]
  exact ⟨by decide, rfl, rfl, switching_reset, rfl, canonical_reset, rfl⟩

end Sys2Proof.Machine
end

