-- ==== Sys2Proof/Proofs/PrimaryWordsRefutation.lean ====
section
/-!
PROOFS. What refutes the statement of the word boundaries: a concrete state and command, and what the model answers there.
-/
namespace Sys2Proof.Machine

/-- The paths run with the test of R20 passed, and the switch of cell 1 is stuck on: as an entry to ACTIVE from STANDBY leaves them, which begins the
secondary side's first interval without conduction. -/
def stuckSwitch : State :=
  { activeWith [] with
    cms := { CmsState.reset with running := true, unused := some false }
    cpb := { CpbState.reset with stuckOn := 2#32 } }

/-- The bleed paths that have conducted in the interval in progress (R170). -/
def conductedInInterval (t : State) : List Bool := t.xck.balInt.map Bled.seen

set_option maxRecDepth 20000 in
/-- R170, R240: the bleed path of cell 1 conducts at the boundary, which marks it in the interval's record of the secondary side. -/
theorem wordBoundary_stuckSwitch_conducted :
    nextView conductedInInterval (exec (.wordBoundary [] false) stuckSwitch) = some (true :: List.replicate 23 false) := by decide

/-- Refutes O8: a word boundary marks the bleed paths that conduct in the interval's record of the secondary side too (R170), and so changes the part
xck; the statement leaves that part out of those that change. -/
theorem not_primaryWords : ¬ Obligations.PrimaryWords := by
  unfold Obligations.PrimaryWords
  intro h
  obtain ⟨hword, -⟩ := h stuckSwitch rfl
  obtain ⟨t, ht, -, -, -, -, hch⟩ := hword [] false
  obtain ⟨-, hsame, -⟩ := hch rfl
  have hxck : t.xck = stuckSwitch.xck := hsame .xck (by decide)
  have hmarked := wordBoundary_stuckSwitch_conducted
  rw [nextView_exec _ ht, conductedInInterval, hxck] at hmarked
  exact absurd hmarked (by decide)

end Sys2Proof.Machine
end

