-- ==== Sys2Proof/Proofs/RecordReads.lean ====
section
/-!
PROOFS. The tag shadow, reads of CMS_HWIDX, and the latch of the kept records (R112, R113, R121, R134, R139, R140).
-/
namespace Sys2Proof.Machine

theorem Changes.withCms (s : State) (y : CmsState) : Changes [.cms] (fun _ => False) s { s with cms := y } :=
  ⟨rfl, fun p hp => by cases p <;> simp_all [Part.same], fun _ _ => rfl⟩

/-- What a read of one word records, beside what the read itself has changed. -/
theorem Changes.finish_read {s t : State} (h : Changes [.cms] (fun _ => False) s t) (d : List Word) :
    Changes [.cms, .resp] (fun _ => False) s (Done.read d t).finish := (h.trans (Changes.withResp t _)).mono (by simp) (by simp)

theorem Changes.part_eq {ps : List Part} {rs : Nat → Prop} {s t : State} (h : Changes ps rs s t) (p : Part) (hp : p ∉ ps) : p.same s t := h.2.1 p hp

theorem Changes.pending_eq {ps : List Part} {rs : Nat → Prop} {s t : State} (h : Changes ps rs s t) : t.pending = s.pending := h.1

/-! ### Tag shadows -/

/-- R112: the requester's shadow holds the tag that was last copied into it. -/
@[simp] theorem getShadow_putShadow (req : Requester) (a : Nat) (tag : Word) (s : State) : getShadow req (putShadow req a tag s) = some (a, tag) := by
  cases req <;> simp [getShadow, putShadow]

theorem Changes.putShadow (req : Requester) (a : Nat) (tag : Word) (s : State) : Changes [.cms] (fun _ => False) s (putShadow req a tag s) := by
  cases req <;> exact Changes.withCms s _

/-- A requester's shadow is among what the measurement keeps of shadows. -/
theorem getShadow_eq_of_shadows {s t : State} (hs : t.cms.shadows = s.cms.shadows) (hk : t.cms.hkShadow = s.cms.hkShadow) (req : Requester) :
    getShadow req t = getShadow req s := by
  cases req <;> simp [getShadow, hs, hk]

/-- R112: a tag read at the shadow's address answers the shadow. -/
theorem readTag_shadowed {req : Requester} {a : Nat} {tag : Word} {s : State} (h : getShadow req s = some (a, tag)) :
    readTag req a s = (tag, putShadow req a tag s) := by simp [readTag, h]

/-- R112: a tag read at another address than the shadow's answers the live tag. -/
theorem readTag_live {req : Requester} {a b : Nat} {tag : Word} {s : State} (h : getShadow req s = some (a, tag)) (hb : b ≠ a) :
    readTag req b s = ((recordAt b s).2, s) := by simp [readTag, h, hb.symm]

section
variable {s : State} (hc : coreUp s = true) {a : Nat} (ha : isRecordAddr a = true)
include hc ha

theorem exec_recordValueRead (req : Requester) :
    exec (.recordValueRead req a) s = .next (Done.read [(recordAt a s).1] (putShadow req a (recordAt a s).2 s)).finish :=
  if_pos (by rw [hc, ha]; rfl)

theorem exec_recordTagRead {req : Requester} {tag : Word} {t : State} (h : readTag req a s = (tag, t)) :
    exec (.recordTagRead req a) s = .next (Done.read [tag] t).finish := by
  change execRecordTagRead req a s = _
  rw [execRecordTagRead, if_pos (by rw [hc, ha]; rfl), h]
  rfl

end

/-- Settles O10: the shadow stands until the requester's next value read, so a tag read at its address finds the tag as it was copied. -/
theorem tagShadow : Obligations.TagShadow := by
  unfold Obligations.TagShadow
  intro req a s hc ha
  refine ⟨_, exec_recordValueRead hc ha req, rfl, (Changes.putShadow req a _ s).finish_read _, fun u hu hshadows hhk => ?_⟩
  have hshadow : getShadow req u = some (a, (recordAt a s).2) :=
    (getShadow_eq_of_shadows hshadows hhk req).trans (getShadow_putShadow req a _ s)
  refine ⟨?_, fun b hb hne => ?_, fun b hb => ?_⟩
  · exact ⟨_, exec_recordTagRead hu ha (readTag_shadowed hshadow), rfl, (Changes.putShadow req a _ u).finish_read _⟩
  · exact ⟨_, exec_recordTagRead hu hb (readTag_live hshadow hne), rfl⟩
  · exact ⟨_, exec_recordValueRead hu hb req, getShadow_putShadow req b _ u⟩

/-! ### The word index -/

/-- R134: the requester's copy holds the time that was last copied into it. -/
theorem timeShadow_putTime (req : Requester) (v : Nat) (s : State) : timeShadow req (putTime req v s) = some v := by
  cases req <;> simp [timeShadow, putTime]

theorem Changes.putTime (req : Requester) (v : Nat) (s : State) : Changes [.cms] (fun _ => False) s (putTime req v s) := by
  cases req <;> exact Changes.withCms s _

theorem timeShadow_eq_of_times {s t : State} (hs : t.cms.times = s.cms.times) (hk : t.cms.hkTime = s.cms.hkTime) (req : Requester) :
    timeShadow req t = timeShadow req s := by
  cases req <;> simp [timeShadow, hs, hk]

/-- R134, R139: a read of `CMS_HWIDX` answers it, and the requester's time stays that of the word that was then the latest. -/
theorem hwidxRead_clause {s : State} (hc : coreUp s = true) (req : Requester) : ∃ t, exec (.hwidxRead req) s = .next t ∧
    t.resp = some ⟨.ok, [reg s Reg.CMS_HWIDX], 0⟩ ∧
    (∀ u : State, u.cms.times = t.cms.times → u.cms.hkTime = t.cms.hkTime → htime req u = s.cms.lastInstant) ∧
    Changes [.cms, .resp] (fun _ => False) s t := by
  refine ⟨_, if_pos hc, rfl, fun u htimes hhk => ?_, (Changes.putTime req _ s).finish_read _⟩
  have hkept : timeShadow req u = some (latestInstant s) := (timeShadow_eq_of_times htimes hhk req).trans (timeShadow_putTime req _ s)
  simp [htime, hkept, latestInstant]

/-! ### The snapshot latch -/

theorem Changes.foldl_mem {α : Type} {ps : List Part} {rs : Nat → Prop} (f : State → α → State) (l : List α)
    (h : ∀ t, ∀ x ∈ l, Changes ps rs t (f t x)) (s : State) : Changes ps rs s (l.foldl f s) := by
  induction l generalizing s with
  | nil => exact Changes.refl ps rs s
  | cons x l ih =>
    exact ((h s x (by simp)).trans (ih (fun t y hy => h t y (by simp [hy])) (f s x))).mono (by simp) (by simp)

/-- One channel's record enters `CMS_SNAP` (R121). -/
def snapRecord (t : State) (e : Record × Nat) : State :=
  setReg (Reg.CMS_SNAP (2 * e.2 + 1)) e.1.tag (setReg (Reg.CMS_SNAP (2 * e.2)) e.1.value t)

theorem snap_inj {m n : Nat} : Reg.CMS_SNAP m = Reg.CMS_SNAP n ↔ m = n := by simp only [Reg.CMS_SNAP]; omega

/-- A register of `CMS_SNAP` after one channel's record has entered. -/
theorem reg_snapRecord (t : State) (e : Record × Nat) (n : Nat) : reg (snapRecord t e) (Reg.CMS_SNAP n) =
    if n = 2 * e.2 + 1 then e.1.tag else if n = 2 * e.2 then e.1.value else reg t (Reg.CMS_SNAP n) := by
  simp only [snapRecord, reg_setReg, snap_inj]

/-- The records of channels above leave a channel's registers alone. -/
theorem reg_snapRecords_above {n k : Nat} (h : n < 2 * k) (rs : List Record) (s : State) :
    reg ((rs.zipIdx k).foldl snapRecord s) (Reg.CMS_SNAP n) = reg s (Reg.CMS_SNAP n) := by
  induction rs generalizing k s with
  | nil => rfl
  | cons r rs ih =>
    rw [List.zipIdx_cons, List.foldl_cons, ih (by omega), reg_snapRecord, if_neg (by simp only; omega), if_neg (by simp only; omega)]

/-- R121: each channel's record stands in its two registers of `CMS_SNAP`. -/
theorem reg_snapRecords {c : Nat} (k : Nat) (rs : List Record) (d : Record) (h : c < rs.length) (s : State) :
    reg ((rs.zipIdx k).foldl snapRecord s) (Reg.CMS_SNAP (2 * (k + c))) = (nth rs c d).value ∧
    reg ((rs.zipIdx k).foldl snapRecord s) (Reg.CMS_SNAP (2 * (k + c) + 1)) = (nth rs c d).tag := by
  induction rs generalizing k c s with
  | nil => simp at h
  | cons r rs ih =>
    rw [List.zipIdx_cons, List.foldl_cons]
    cases c with
    | zero =>
      rw [reg_snapRecords_above (by omega), reg_snapRecords_above (by omega), reg_snapRecord, reg_snapRecord]
      simp [nth]
    | succ c =>
      have hc := ih (k + 1) (c := c) (by simpa using h) (snapRecord s (r, k))
      rw [show k + 1 + c = k + (c + 1) by omega] at hc
      simpa [nth] using hc

/-- The registers of the records lie in the measurement's block. -/
theorem Changes.snapRecords (rs : List Record) (h : rs.length = 25) (s : State) : Changes [] (inBlocks [2]) s (rs.zipIdx.foldl snapRecord s) := by
  refine Changes.foldl_mem snapRecord _ (fun t e he => ?_) s
  have hn : e.2 < 25 := h ▸ List.snd_lt_of_mem_zipIdx he
  refine ((Changes.setReg _ _ t).trans (Changes.setReg _ _ _)).mono (by simp) ?_
  rintro _ (rfl | rfl) <;> simp only [inBlocks, Reg.CMS_SNAP, List.mem_singleton] <;> omega

theorem Changes.clearBusy (s : State) : Changes [] (· = Reg.TBS_RSTAT) s (clearBusy s) := by
  unfold Machine.clearBusy
  split
  · exact Changes.setB _ _ s
  · exact Changes.refl ..

/-- R121, R140: the records kept enter `CMS_SNAP`, and `CMS_SNAPSTAT` shows it. -/
theorem cmsSnapshotLatch_clause {s : State} {rs : List Record} (hk : s.cms.snapNext = some rs) (hl : rs.length = 25) :
    ∃ t, exec .cmsSnapshotLatch s = .next t ∧
    (∀ c, c < 25 → reg t (Reg.CMS_SNAP (2 * c)) = (nth rs c ⟨0#32, 0#32⟩).value ∧
      reg t (Reg.CMS_SNAP (2 * c + 1)) = (nth rs c ⟨0#32, 0#32⟩).tag) ∧
    t.cms.snapNext = none ∧ bit Reg.CMS_SNAPSTAT_DONE t = true ∧ bit Reg.CMS_SNAPSTAT_PEND t = false ∧ Changes [.cms] (inBlocks [2, 11]) s t := by
  let s0 : State := { s with cms := { s.cms with snapNext := none } }
  let s1 : State := rs.zipIdx.foldl snapRecord s0
  let s2 : State := setB Reg.CMS_SNAPSTAT_DONE true (setB Reg.CMS_SNAPSTAT_PEND false s1)
  have hnext : exec .cmsSnapshotLatch s = .next (clearBusy s2) := by
    change execCmsSnapshotLatch s = _
    rw [execCmsSnapshotLatch, hk]
    rfl
  have h1 : Changes [] (inBlocks [2]) s0 s1 := Changes.snapRecords rs hl s0
  have h2 : Changes [] (oneOf [Reg.CMS_SNAPSTAT]) s1 s2 :=
    ((Changes.setB _ _ s1).trans (Changes.setB _ _ _)).mono (by simp) (by simp [oneOf, Reg.CMS_SNAPSTAT_PEND, Reg.CMS_SNAPSTAT_DONE])
  have h3 : Changes [] (· = Reg.TBS_RSTAT) s2 (clearBusy s2) := Changes.clearBusy s2
  have hall : Changes [.cms] (inBlocks [2, 11]) s (clearBusy s2) := by
    refine ((((Changes.withCms s _).trans h1).trans h2).trans h3).mono (by simp) ?_
    rintro a (((hf | hb) | hst) | rfl)
    · exact hf.elim
    · exact List.mem_cons.2 (.inl (List.mem_singleton.1 hb))
    · rw [List.mem_singleton.1 hst]; unfold inBlocks; decide
    · unfold inBlocks; decide
  have hsnap (n : Nat) (hn : n < 50) : reg (clearBusy s2) (Reg.CMS_SNAP n) = reg s1 (Reg.CMS_SNAP n) := by
    rw [h3.reg_eq (by simp only [Reg.CMS_SNAP, Reg.TBS_RSTAT]; omega),
      h2.reg_eq (by simp only [oneOf, List.mem_singleton, Reg.CMS_SNAP, Reg.CMS_SNAPSTAT]; omega)]
  have hstat (f : Field) (hf : f.addr = Reg.CMS_SNAPSTAT) : bit f (clearBusy s2) = bit f s2 :=
    bit_of_reg (h3.reg_eq (by rw [hf]; decide))
  refine ⟨_, hnext, fun c hc => ?_, ?_, ?_, ?_, hall⟩
  · obtain ⟨hvalue, htag⟩ := reg_snapRecords 0 rs ⟨0#32, 0#32⟩ (hl ▸ hc) s0
    rw [Nat.zero_add] at hvalue htag
    exact ⟨(hsnap _ (by omega)).trans hvalue, (hsnap _ (by omega)).trans htag⟩
  · have hcms : (clearBusy s2).cms = s0.cms := ((h1.trans h2).trans h3).part_eq .cms (by simp)
    rw [hcms]
  · exact (hstat Reg.CMS_SNAPSTAT_DONE rfl).trans (bit_setB_same (by decide) rfl true _)
  · rw [hstat Reg.CMS_SNAPSTAT_PEND rfl, bit_setB_beside (by decide) (by decide)]
    exact bit_setB_same (by decide) rfl false s1

/-- Settles O11: the read copies the latest word's time for its requester, and the latch empties what was kept into the registers of the channels. -/
theorem wordIndexRead : Obligations.WordIndexRead := by
  unfold Obligations.WordIndexRead
  intro s
  refine ⟨hwidxRead_clause, fun rs hk hl => cmsSnapshotLatch_clause hk hl, fun hk => ?_⟩
  change execCmsSnapshotLatch s = _
  rw [execCmsSnapshotLatch, hk]

end Sys2Proof.Machine
end

