-- ==== Sys2Proof/Proofs/ReinLatches.lean ====
section
/-!
PROOFS. The latch of a taken rein, the clear of FULL, and the SNAP pin (R121, R479-R483).
-/
namespace Sys2Proof.Machine

theorem Changes.withTbs (s : State) (y : TbsState) : Changes [.tbs] (fun _ => False) s { s with tbs := y } :=
  ⟨rfl, fun p hp => by cases p <;> simp_all [Part.same], fun _ _ => rfl⟩

/-! ### What the steps of a latch change -/

/-- A field that is not BUSY keeps its value when BUSY clears (R480). -/
theorem getF_clearBusy {f : Field} (h : f.addr ≠ Reg.TBS_RSTAT ∨ f.lo + f.w ≤ 1 ∨ 2 ≤ f.lo) (hw : f.lo + f.w ≤ 32) (s : State) :
    getF f (clearBusy s) = getF f s := by
  unfold clearBusy
  split
  · obtain ha | hb := h
    · exact getF_setF_other Reg.TBS_RSTAT_BUSY f _ s ha
    · exact getF_setF_beside Reg.TBS_RSTAT_BUSY f _ s hb hw
  · rfl

/-- R480: with every block latched BUSY clears. -/
theorem busy_clearBusy_done {s : State} (hl : s.tbs.latch = none) (hp : bit Reg.CMS_SNAPSTAT_PEND s = false) :
    bit Reg.TBS_RSTAT_BUSY (clearBusy s) = false := by
  rw [clearBusy, if_pos (by simp [hl, hp])]
  exact bit_setB_same (by decide) rfl false s

/-- R480: while the measurement has still to latch BUSY stays. -/
theorem clearBusy_pending {s : State} (hp : bit Reg.CMS_SNAPSTAT_PEND s = true) : clearBusy s = s := if_neg (by simp [hp])

theorem Changes.latchRecords (t : Nat) (s : State) : Changes [.cms] (· = Reg.CMS_SNAPSTAT) s (latchRecords t s) := by
  unfold Machine.latchRecords
  split
  · exact ((Changes.withCms s _).trans (Changes.setB _ true _)).mono (by simp) (by simp [Reg.CMS_SNAPSTAT_PEND])
  · exact (Changes.refl [.cms] _ s)

/-- R121: with the paths running at T every channel is to latch. -/
theorem pend_latchRecords {t : Nat} {s : State} (hr : s.cms.running = true) (ht : atOrAfter t s.cms.startT = true) :
    bit Reg.CMS_SNAPSTAT_PEND (latchRecords t s) = true := by
  rw [latchRecords, if_pos ⟨hr, ht⟩]
  exact bit_setB_same (by decide) rfl true _

/-- R121: with the paths stopped there is nothing to latch. -/
theorem latchRecords_stopped {s : State} (hr : s.cms.running = false) (t : Nat) : latchRecords t s = s := if_neg (by simp [hr])

/-- The registers that take the values of the blocks at a latch (R480). -/
def blockSnaps : List Nat :=
  [Reg.IMP_SNAP, Reg.CNV_SNAP0, Reg.CNV_SNAP1, Reg.CTL_SNAP, Reg.LNK_SNAP, Reg.FAB_SNAP, Reg.THM_SNAP, Reg.FLT_SNAP 0, Reg.FLT_SNAP 1, Reg.FLT_SNAP 2,
    Reg.FLT_SNAP 3]

theorem Changes.latchBlocks (s : State) : Changes [] (oneOf blockSnaps) s (latchBlocks s) := by
  unfold Machine.latchBlocks
  extract_lets first turn s1
  have h1 : Changes [] (oneOf blockSnaps) s s1 :=
    (((((((Changes.setReg _ _ s).trans (Changes.setReg _ _ _)).trans (Changes.setReg _ _ _)).trans (Changes.setReg _ _ _)).trans
      (Changes.setReg _ _ _)).trans (Changes.setReg _ _ _)).trans (Changes.setReg _ _ _)).mono (by simp)
      (by simp only [oneOf, blockSnaps, List.mem_cons]; tauto)
  have hsource (t : State) (j : Nat) (hj : j ∈ List.range 4) :
      Changes [] (oneOf blockSnaps) t (Machine.setReg (Reg.FLT_SNAP j) (reg s (Reg.FLT_ACT j)) t) := by
    refine (Changes.setReg _ _ t).mono (by simp) ?_
    rintro _ rfl
    have hj4 : j < 4 := List.mem_range.1 hj
    simp only [oneOf, blockSnaps, Reg.FLT_SNAP, List.mem_cons, List.not_mem_nil, or_false]
    omega
  exact (h1.trans (Changes.foldl_mem _ _ hsource s1)).mono (by simp) (by simp)

/-- R480: the snapshots of the converter, of the control engine, of the ports and of the home routes. -/
theorem latchBlocks_values (s : State) : reg (latchBlocks s) Reg.CNV_SNAP0 = reg s Reg.CNV_STAT ∧ reg (latchBlocks s) Reg.CTL_SNAP = reg s Reg.CTL_SP ∧
    reg (latchBlocks s) Reg.LNK_SNAP = BitVec.ofNat 32 (65536 * s.lnk.errSum + getF Reg.LNK_STAT_UP s) ∧
    reg (latchBlocks s) Reg.FAB_SNAP = BitVec.ofNat 32 (65536 * s.fab.switches + b2n (bit (Reg.FAB_HOME_HCTL_USE 0) s) +
      2 * b2n (bit (Reg.FAB_HOME_HCTL_USE 1) s)) := by
  have hfour : List.range 4 = [0, 1, 2, 3] := rfl
  refine ⟨?_, ?_, ?_, ?_⟩ <;>
    simp (disch := decide) only [latchBlocks, hfour, List.foldl_cons, List.foldl_nil, reg_setReg_other, reg_setReg_same]

/-- R480, R512: the snapshots of the fault sources. -/
theorem latchBlocks_sources (s : State) (j : Fin 4) : reg (latchBlocks s) (Reg.FLT_SNAP j) = reg s (Reg.FLT_ACT j) := by
  fin_cases j <;> simp [latchBlocks, List.range_succ, reg_setReg, Reg.FLT_SNAP]

/-- R378: the low half of `LNK_SNAP` is the ports that are UP. -/
theorem getBits_lnkSnap (n : Nat) {up : Nat} (h : up < 16) : getBits (BitVec.ofNat 32 (65536 * n + up)) 0 4 = up := by
  simp only [getBits, BitVec.ushiftRight_zero, BitVec.toNat_ofNat]
  omega

/-- R422: the high half of `FAB_SNAP` is the number of switches. -/
theorem getBits_fabSnap (n : Nat) (a b : Bool) : getBits (BitVec.ofNat 32 (65536 * n + b2n a + 2 * b2n b)) 16 16 = n % 65536 := by
  have h : b2n a + 2 * b2n b < 4 := by cases a <;> cases b <;> decide
  simp only [getBits, BitVec.toNat_ushiftRight, BitVec.toNat_ofNat, Nat.shiftRight_eq_div_pow]
  omega

/-! ### The latch -/

/-- A latch that comes `slack` ns or more after T is marked as late (R480, R483). -/
def markLate (t slack : Nat) (s : State) : State :=
  if s.ft - t < slack then s else setF Reg.TBS_RID_LATEUS (min ((s.ft - t) / 1000) 255) (setB Reg.TBS_RSTAT_LATE true s)

/-- The state in which the blocks latch: the mark is made, and no rein waits any more. -/
def reinDue (t slack : Nat) (s : State) : State :=
  { markLate t slack s with tbs := { (markLate t slack s).tbs with latch := none, skipped := false } }

/-- The state in which the measurement's part of a latch begins: the other blocks have latched. -/
def blocksLatched (t slack : Nat) (s : State) : State := latchBlocks (reinDue t slack s)

theorem latchRein_eq (t slack : Nat) (s : State) : latchRein t slack s = clearBusy (latchRecords t (blocksLatched t slack s)) := rfl

theorem markLate_inTime {t slack : Nat} {s : State} (h : s.ft - t < slack) : markLate t slack s = s := if_pos h

theorem markLate_late {t slack : Nat} {s : State} (h : slack ≤ s.ft - t) : bit Reg.TBS_RSTAT_LATE (markLate t slack s) = true ∧
    getF Reg.TBS_RID_LATEUS (markLate t slack s) = min ((s.ft - t) / 1000) 255 := by
  rw [markLate, if_neg (Nat.not_lt.2 h)]
  refine ⟨(bit_of_reg (reg_setF_other (by decide) _ _)).trans (bit_setB_same (by decide) rfl true s), ?_⟩
  rw [getF_setF_same _ _ _ (by decide)]
  exact Nat.mod_eq_of_lt (Nat.lt_succ_of_le (Nat.min_le_right _ 255))

theorem Changes.markLate (t slack : Nat) (s : State) : Changes [] (oneOf [Reg.TBS_RSTAT, Reg.TBS_RID]) s (markLate t slack s) := by
  unfold Machine.markLate
  split
  · exact Changes.refl ..
  · exact ((Changes.setB _ true s).trans (Changes.setF _ _ _)).mono (by simp) (by simp [oneOf, Reg.TBS_RSTAT_LATE, Reg.TBS_RID_LATEUS])

theorem Changes.reinDue (t slack : Nat) (s : State) : Changes [.tbs] (oneOf [Reg.TBS_RSTAT, Reg.TBS_RID]) s (reinDue t slack s) :=
  ((Changes.markLate t slack s).trans (Changes.withTbs _ _)).mono (by simp) (by simp)

theorem Changes.blocksLatched (t slack : Nat) (s : State) : Changes [] (oneOf blockSnaps) (Machine.reinDue t slack s) (blocksLatched t slack s) :=
  Changes.latchBlocks _

theorem tbs_reinDue (t slack : Nat) (s : State) : (reinDue t slack s).tbs = { s.tbs with latch := none, skipped := false } := by
  have hmark : (markLate t slack s).tbs = s.tbs := (Changes.markLate t slack s).part_eq .tbs (by simp)
  rw [← hmark]
  rfl

theorem tbs_blocksLatched (t slack : Nat) (s : State) : (blocksLatched t slack s).tbs = { s.tbs with latch := none, skipped := false } :=
  ((Changes.blocksLatched t slack s).part_eq .tbs (by simp)).trans (tbs_reinDue t slack s)

theorem cms_blocksLatched (t slack : Nat) (s : State) : (blocksLatched t slack s).cms = s.cms :=
  ((Changes.blocksLatched t slack s).part_eq .cms (by simp)).trans ((Changes.reinDue t slack s).part_eq .cms (by simp))

/-- R480: a latch leaves nothing to latch. -/
theorem tbs_latchRein (t slack : Nat) (s : State) : (latchRein t slack s).tbs = { s.tbs with latch := none, skipped := false } := by
  have hclear := (Changes.clearBusy (latchRecords t (blocksLatched t slack s))).part_eq .tbs (by simp)
  have hrecords := (Changes.latchRecords t (blocksLatched t slack s)).part_eq .tbs (by simp)
  exact (hclear.trans hrecords).trans (tbs_blocksLatched t slack s)

/-- A register that holds no snapshot is after the mark of lateness what it is after the latch, but for BUSY. -/
theorem getF_latchRein {f : Field} (ha : f.addr ≠ Reg.CMS_SNAPSTAT) (hs : f.addr ∉ blockSnaps)
    (hb : f.addr ≠ Reg.TBS_RSTAT ∨ f.lo + f.w ≤ 1 ∨ 2 ≤ f.lo) (hw : f.lo + f.w ≤ 32) (t slack : Nat) (s : State) :
    getF f (latchRein t slack s) = getF f (markLate t slack s) := by
  rw [latchRein_eq, getF_clearBusy hb hw]
  exact getF_of_reg (((Changes.latchRecords t _).reg_eq ha).trans ((Changes.blocksLatched t slack s).reg_eq hs))

/-- The registers that a latch may change (R480, R481). -/
def latchRegs : List Nat := [Reg.TBS_RSTAT, Reg.TBS_RID] ++ blockSnaps ++ [Reg.CMS_SNAPSTAT]

theorem Changes.latchRein (t slack : Nat) (s : State) : Changes [.tbs, .cms] (oneOf latchRegs) s (latchRein t slack s) := by
  refine ((((Changes.reinDue t slack s).trans (Changes.blocksLatched t slack s)).trans (Changes.latchRecords t _)).trans (Changes.clearBusy _)).mono
    (by simp) ?_
  simp only [oneOf, latchRegs, List.mem_append, List.mem_cons, List.not_mem_nil]
  tauto

/-- The blocks' snapshots show what stood, BUSY clears where the measurement has nothing to latch, and nothing else changes but the marks of the rein
(R480). -/
def Latched (s t : State) : Prop :=
  t.tbs.latch = none ∧ reg t Reg.CNV_SNAP0 = reg s Reg.CNV_STAT ∧ reg t Reg.CTL_SNAP = reg s Reg.CTL_SP ∧
    getBits (reg t Reg.LNK_SNAP) 0 4 = getF Reg.LNK_STAT_UP s ∧ getF Reg.FAB_SNAP_SWITCH t = s.fab.switches % 65536 ∧
    (∀ j : Fin 4, reg t (Reg.FLT_SNAP j) = reg s (Reg.FLT_ACT j)) ∧
    (s.cms.running = false → bit Reg.CMS_SNAPSTAT_PEND s = false → bit Reg.TBS_RSTAT_BUSY t = false) ∧ Changes [.tbs, .cms] (oneOf latchRegs) s t

theorem latchRein_latched (t slack : Nat) (s : State) : Latched s (latchRein t slack s) := by
  have hdue := Changes.reinDue t slack s
  have hfabSame : (reinDue t slack s).fab = s.fab := hdue.part_eq .fab (by simp)
  have hsnap {a : Nat} (hp : a ≠ Reg.CMS_SNAPSTAT) (hb : a ≠ Reg.TBS_RSTAT) : reg (latchRein t slack s) a = reg (latchBlocks (reinDue t slack s)) a :=
    ((Changes.clearBusy _).reg_eq hb).trans ((Changes.latchRecords t _).reg_eq hp)
  obtain ⟨hcnv, hctl, hlnk, hfab⟩ := latchBlocks_values (reinDue t slack s)
  refine ⟨congrArg TbsState.latch (tbs_latchRein t slack s), ?_, ?_, ?_, ?_, fun j => ?_, fun hr hp => ?_, Changes.latchRein t slack s⟩
  · exact ((hsnap (by decide) (by decide)).trans hcnv).trans (hdue.reg_eq (by unfold oneOf; decide))
  · exact ((hsnap (by decide) (by decide)).trans hctl).trans (hdue.reg_eq (by unfold oneOf; decide))
  · have hup : getF Reg.LNK_STAT_UP s < 16 := Nat.mod_lt _ (by decide)
    have hports : getF Reg.LNK_STAT_UP (reinDue t slack s) = getF Reg.LNK_STAT_UP s := getF_of_reg (hdue.reg_eq (by unfold oneOf; decide))
    rw [hsnap (by decide) (by decide), hlnk, hports, getBits_lnkSnap _ hup]
  · have hreg := (hsnap (a := Reg.FAB_SNAP) (by decide) (by decide)).trans hfab
    rw [hfabSame] at hreg
    exact (congrArg (getBits · 16 16) hreg).trans (getBits_fabSnap ..)
  · have hp : Reg.FLT_SNAP j ≠ Reg.CMS_SNAPSTAT := by simp only [Reg.FLT_SNAP, Reg.CMS_SNAPSTAT]; omega
    have hb : Reg.FLT_SNAP j ≠ Reg.TBS_RSTAT := by simp only [Reg.FLT_SNAP, Reg.TBS_RSTAT]; omega
    have hact : ¬ oneOf [Reg.TBS_RSTAT, Reg.TBS_RID] (Reg.FLT_ACT j) := by
      simp only [oneOf, Reg.FLT_ACT, List.mem_cons, Reg.TBS_RSTAT, Reg.TBS_RID, List.not_mem_nil, or_false]; omega
    exact ((hsnap hp hb).trans (latchBlocks_sources _ j)).trans (hdue.reg_eq hact)
  · have hpend : bit Reg.CMS_SNAPSTAT_PEND (blocksLatched t slack s) = false :=
      (bit_of_reg (((Changes.blocksLatched t slack s).reg_eq (by unfold oneOf; decide)).trans (hdue.reg_eq (by unfold oneOf; decide)))).trans hp
    rw [latchRein_eq, latchRecords_stopped (by rw [cms_blocksLatched]; exact hr)]
    exact busy_clearBusy_done (congrArg TbsState.latch (tbs_blocksLatched t slack s)) hpend

section
variable {s : State} {T : Nat} (hl : s.tbs.latch = some T) (ht : T ≤ s.ft)
include hl ht

theorem exec_reinLatch : exec .reinLatch s = .next (latchRein T (if s.tbs.skipped then 1 else 6) s) := by
  change execReinLatch s = _
  rw [execReinLatch, hl]
  exact if_pos ht

/-- R480: at the first edge at or after T nothing is late. -/
theorem reinLatch_inTime (hs : s.tbs.skipped = false) (h6 : s.ft < T + 6) : ∃ t, exec .reinLatch s = .next t ∧ Latched s t ∧
    bit Reg.TBS_RSTAT_LATE t = bit Reg.TBS_RSTAT_LATE s ∧ getF Reg.TBS_RID_LATEUS t = getF Reg.TBS_RID_LATEUS s := by
  refine ⟨_, exec_reinLatch hl ht, latchRein_latched T _ s, ?_⟩
  have hmark : markLate T (if s.tbs.skipped then 1 else 6) s = s := markLate_inTime (by rw [hs]; simp only [Bool.false_eq_true, if_false]; omega)
  have hlate := getF_latchRein (f := Reg.TBS_RSTAT_LATE) (by decide) (by decide) (by decide) (by decide) T (if s.tbs.skipped then 1 else 6) s
  have hlateus := getF_latchRein (f := Reg.TBS_RID_LATEUS) (by decide) (by decide) (by decide) (by decide) T (if s.tbs.skipped then 1 else 6) s
  rw [hmark] at hlate hlateus
  exact ⟨congrArg (· == 1) hlate, hlateus⟩

/-- R480, R483: a latch that comes late, as where a step has skipped T, shows by how much. -/
theorem reinLatch_late (h : (s.tbs.skipped = true ∧ T < s.ft) ∨ T + 6 ≤ s.ft) : ∃ t, exec .reinLatch s = .next t ∧ Latched s t ∧
    bit Reg.TBS_RSTAT_LATE t = true ∧ getF Reg.TBS_RID_LATEUS t = min ((s.ft - T) / 1000) 255 := by
  refine ⟨_, exec_reinLatch hl ht, latchRein_latched T _ s, ?_⟩
  have hslack : (if s.tbs.skipped then 1 else 6) ≤ s.ft - T := by
    obtain ⟨hs, hlt⟩ | h6 := h
    · rw [if_pos hs]; omega
    · split <;> omega
  obtain ⟨hlate, hlateus⟩ := markLate_late hslack
  refine ⟨(congrArg (· == 1) (getF_latchRein (f := Reg.TBS_RSTAT_LATE) (by decide) (by decide) (by decide) (by decide) T _ s)).trans hlate, ?_⟩
  exact (getF_latchRein (f := Reg.TBS_RID_LATEUS) (by decide) (by decide) (by decide) (by decide) T _ s).trans hlateus

/-- R121: where the paths ran at T the measurement has still to latch, and BUSY waits for it. -/
theorem reinLatch_pending (hr : s.cms.running = true) (hstart : atOrAfter T s.cms.startT = true) : ∃ t, exec .reinLatch s = .next t ∧
    bit Reg.CMS_SNAPSTAT_PEND t = true ∧ bit Reg.TBS_RSTAT_BUSY t = bit Reg.TBS_RSTAT_BUSY s ∧ Latched s t := by
  refine ⟨_, exec_reinLatch hl ht, ?_⟩
  generalize (if s.tbs.skipped then 1 else 6) = slack
  have hpend : bit Reg.CMS_SNAPSTAT_PEND (latchRecords T (blocksLatched T slack s)) = true :=
    pend_latchRecords (by rw [cms_blocksLatched]; exact hr) (by rw [cms_blocksLatched]; exact hstart)
  have hkept : latchRein T slack s = latchRecords T (blocksLatched T slack s) := clearBusy_pending hpend
  refine ⟨by rw [hkept]; exact hpend, ?_, latchRein_latched T slack s⟩
  have hbusy : bit Reg.TBS_RSTAT_BUSY (latchRecords T (blocksLatched T slack s)) = bit Reg.TBS_RSTAT_BUSY (markLate T slack s) :=
    bit_of_reg (((Changes.latchRecords T _).reg_eq (by decide)).trans ((Changes.blocksLatched T slack s).reg_eq (by unfold oneOf; decide)))
  rw [hkept, hbusy]
  unfold markLate
  split
  · rfl
  · exact (bit_of_reg (reg_setF_other (by decide) _ _)).trans (bit_setB_beside (by decide) (by decide) true s)

end

/-- Before T, and without a rein, nothing latches (R480). -/
theorem reinLatch_early {s : State} (h : s.tbs.latch.all (fun T => decide (s.ft < T)) = true) : exec .reinLatch s = .next s := by
  change execReinLatch s = _
  unfold execReinLatch
  split
  · next T hl =>
    have hlt : s.ft < T := by simpa [hl] using h
    exact if_neg (Nat.not_le.2 hlt)
  · rfl

/-! ### The clear of FULL -/

/-- R481: FULL clears where BUSY is 0. -/
theorem fullClear_clause {s : State} (hc : coreUp s = true) (hb : bit Reg.TBS_RSTAT_BUSY s = false) : ∃ t, exec .fullClear s = .next t ∧
    bit Reg.TBS_RSTAT_FULL t = false ∧ t.answered .ok ∧ Changes [.resp] (oneOf [Reg.TBS_RSTAT]) s t := by
  have hnext : exec .fullClear s = .next (Done.ok (setB Reg.TBS_RSTAT_FULL false s)).finish := by
    change execFullClear s = _
    rw [execFullClear, if_pos hc, clearFull, hb]
    rfl
  exact ⟨_, hnext, bit_setB_same (f := Reg.TBS_RSTAT_FULL) (by decide) rfl false s, rfl,
    ((Changes.setB _ false s).trans (Changes.finish_ok _)).mono (by simp) (by simp [oneOf, Reg.TBS_RSTAT_FULL])⟩

/-- R481: while BUSY stands the clear has no effect. -/
theorem fullClear_busy {s : State} (hc : coreUp s = true) (hb : bit Reg.TBS_RSTAT_BUSY s = true) : ∃ t, exec .fullClear s = .next t ∧
    t.answered .ok ∧ Changes [.resp] (fun _ => False) s t := by
  have hnext : exec .fullClear s = .next (Done.ok s).finish := by
    change execFullClear s = _
    rw [execFullClear, if_pos hc, clearFull, hb]
    rfl
  exact ⟨_, hnext, rfl, Changes.finish_ok s⟩

/-! ### A rein that is taken -/

theorem Changes.enqueue (n input : Nat) (g : Frame) (s : State) : Changes [.lnk] (· = Reg.FAB_DROP) s (enqueue n input g s) := by
  unfold Machine.enqueue
  extract_lets f q full
  split
  · exact (Changes.incSat Reg.FAB_DROP_QFULL s).mono (by simp) (by simp [Reg.FAB_DROP_QFULL])
  · exact (Changes.modPort n _ s).mono (by simp) (by simp)

/-- R387: a broadcast leaves or waits, and may find a queue full. -/
theorem Changes.broadcast (ty : FrameType) (cl : Cls) (p : List Word) (s : State) :
    Changes [.lnk, .fab] (· = Reg.FAB_DROP) s (broadcast ty cl p s) := by
  have hflood (f : Frame) (t : State) : Changes [.lnk] (· = Reg.FAB_DROP) t (flood 4 f t) :=
    Changes.foldl _ _ (fun u n => .of_ite (Changes.enqueue n 4 f u) (.refl ..)) t
  unfold Machine.broadcast originate
  split
  · exact ((Changes.withFab s _).trans (hflood _ _)).mono (by simp) (by simp)
  · exact (Changes.withFab s _).mono (by simp) (by simp)

/-- The registers of a rein that is taken, with the word that names its issuer in `TBS_RID` (R480, R487). -/
def reinShown (t src : Nat) (rid : Word) (remote : Bool) (s : State) : State :=
  s |> setB Reg.TBS_RSTAT_OVR (bit Reg.TBS_RSTAT_FULL s) |> setB Reg.TBS_RSTAT_FULL true |> setB Reg.TBS_RSTAT_BUSY true
    |> setB Reg.TBS_RSTAT_UNSYNC (!bit Reg.CMS_STAT_TBLOCK s) |> setB Reg.TBS_RSTAT_LATE false
    |> setF Reg.TBS_RSTAT_SRC src |> setB Reg.TBS_RSTAT_REMOTE remote
    |> setReg Reg.TBS_RTIMEL (BitVec.ofNat 32 t) |> setReg Reg.TBS_RTIMEH (BitVec.ofNat 32 (t / 2 ^ 32))
    |> setReg Reg.TBS_RID rid |> setB Reg.CMS_SNAPSTAT_DONE false |> setB Reg.CMS_SNAPSTAT_PEND false

/-- A rein that has been shown waits for its T (R480). -/
def reinWaits (t : Nat) (s : State) : State :=
  { s with tbs := { s.tbs with taken := true, latch := some t, skipped := false }, cms := { s.cms with snapT := t, snapNext := none } }

theorem reg_reinWaits (t : Nat) (s : State) (a : Nat) : reg (reinWaits t s) a = reg s a := rfl

/-- R479, R480: with no rein before it, and neither BUSY nor FULL, a rein is taken; one whose T has passed latches at once. -/
theorem takeRein_first {s : State} (ht : s.tbs.taken = false) (hb : bit Reg.TBS_RSTAT_BUSY s = false) (hf : bit Reg.TBS_RSTAT_FULL s = false)
    (t src : Nat) (origin : Option Nat) (count : Nat) (remote : Bool) : ∃ rid, takeRein t src origin count remote s =
      if t < s.ft then latchRein t 1 (reinWaits t (reinShown t src rid remote s)) else reinWaits t (reinShown t src rid remote s) := by
  unfold takeRein
  extract_lets near s1 tbs1 cms1 s2
  have hnear : near = false := by
    simp only [near]
    split
    · rw [ht]; rfl
    · rfl
  obtain ⟨rid, hshown⟩ : ∃ rid, s1 = reinShown t src rid remote s := ⟨_, rfl⟩
  have hwaits : s2 = reinWaits t s1 := rfl
  simp only [hnear, hb, hf, Bool.false_eq_true, Bool.false_and, if_false]
  exact ⟨rid, by rw [← hshown, ← hwaits]⟩

/-- What a rein that is taken leaves to be seen of it (R480, R487): T, its source, FULL, and the timebase's state but for the latch, in which `v` says what
waits. -/
def ShowsRein (t src : Nat) (s u : State) : Prop :=
  lastRein u = t ∧ getF Reg.TBS_RSTAT_SRC u = src ∧ bit Reg.TBS_RSTAT_FULL u = true ∧
    (∃ v, u.tbs = { s.tbs with taken := true, latch := v, skipped := false }) ∧ u.pending = s.pending

theorem getF_setReg_other {f : Field} {a : Nat} (h : f.addr ≠ a) (v : Word) (s : State) : getF f (setReg a v s) = getF f s :=
  getF_of_reg (reg_setReg_other h v s)

/-- The two words of T together. -/
theorem wordPair_toNat {t : Nat} (h : t < 2 ^ 64) : (BitVec.ofNat 32 (t / 2 ^ 32)).toNat * 2 ^ 32 + (BitVec.ofNat 32 t).toNat = t := by
  rw [BitVec.toNat_ofNat, BitVec.toNat_ofNat]
  omega

theorem showsRein_reinWaits {t src : Nat} (ht : t < 2 ^ 64) (hs : src < 8) (rid : Word) (remote : Bool) (s : State) :
    ShowsRein t src s (reinWaits t (reinShown t src rid remote s)) := by
  have hlow : reg (reinShown t src rid remote s) Reg.TBS_RTIMEL = BitVec.ofNat 32 t := by
    simp (disch := decide) only [reinShown, reg_setB_other, reg_setReg_other, reg_setReg_same]
  have hhigh : reg (reinShown t src rid remote s) Reg.TBS_RTIMEH = BitVec.ofNat 32 (t / 2 ^ 32) := by
    simp (disch := decide) only [reinShown, reg_setB_other, reg_setReg_other, reg_setReg_same]
  have hsrc : getF Reg.TBS_RSTAT_SRC (reinShown t src rid remote s) = src := by
    simp (disch := decide) only [reinShown, setB, getF_setF_beside, getF_setReg_other, getF_setF_same]
    exact Nat.mod_eq_of_lt hs
  have hfull : getF Reg.TBS_RSTAT_FULL (reinShown t src rid remote s) = 1 := by
    simp (disch := decide) only [reinShown, setB, getF_setF_other, getF_setF_beside, getF_setReg_other, getF_setF_same]
    rfl
  have htbs : (reinShown t src rid remote s).tbs = s.tbs := by simp only [reinShown, setB_tbs, setReg_tbs, setF_tbs]
  have hpending : (reinShown t src rid remote s).pending = s.pending := by simp only [reinShown, setB_pending, setReg_pending, setF_pending]
  refine ⟨?_, (getF_of_reg (reg_reinWaits ..)).trans hsrc, (bit_of_reg (reg_reinWaits ..)).trans (congrArg (· == 1) hfull), ⟨some t, ?_⟩, hpending⟩
  · rw [lastRein, reg_reinWaits, reg_reinWaits, hhigh, hlow, wordPair_toNat ht]
  · rw [← htbs]; rfl

section
variable {t src : Nat} {s u : State} (h : ShowsRein t src s u)
include h

theorem ShowsRein.latchRein (t' slack : Nat) : ShowsRein t src s (latchRein t' slack u) := by
  obtain ⟨htime, hsrc, hfull, ⟨v, htbs⟩, hpending⟩ := h
  have hch := Changes.latchRein t' slack u
  have hkept {f : Field} (ha : f.addr = Reg.TBS_RSTAT) (hl : f ≠ Reg.TBS_RSTAT_LATE) (hb : f.lo + f.w ≤ 1 ∨ 2 ≤ f.lo)
      (hbl : f.lo + f.w ≤ 3 ∨ 4 ≤ f.lo) (hw : f.lo + f.w ≤ 32) : getF f (Machine.latchRein t' slack u) = getF f u := by
    rw [getF_latchRein (by rw [ha]; decide) (by rw [ha]; decide) (.inr hb) hw, markLate]
    split
    · rfl
    · rw [getF_setF_other _ _ _ _ (by rw [ha]; decide)]
      exact getF_setF_beside _ _ _ _ hbl hw
  refine ⟨?_, (hkept (f := Reg.TBS_RSTAT_SRC) rfl (by decide) (by decide) (by decide) (by decide)).trans hsrc,
    (congrArg (· == 1) (hkept (f := Reg.TBS_RSTAT_FULL) rfl (by decide) (by decide) (by decide) (by decide))).trans hfull,
    ⟨none, by rw [tbs_latchRein, htbs]⟩, hch.pending_eq.trans hpending⟩
  rw [lastRein, hch.reg_eq (by unfold oneOf; decide), hch.reg_eq (by unfold oneOf; decide)]
  exact htime

theorem ShowsRein.broadcast (ty : FrameType) (cl : Cls) (p : List Word) : ShowsRein t src s (broadcast ty cl p u) := by
  obtain ⟨htime, hsrc, hfull, ⟨v, htbs⟩, hpending⟩ := h
  have hch := Changes.broadcast ty cl p u
  refine ⟨?_, (getF_of_reg (hch.reg_eq (by decide))).trans hsrc, (bit_of_reg (hch.reg_eq (by decide))).trans hfull,
    ⟨v, (hch.part_eq .tbs (by simp)).trans htbs⟩, hch.pending_eq.trans hpending⟩
  rw [lastRein, hch.reg_eq (by decide), hch.reg_eq (by decide)]
  exact htime

end

/-- R479, R480: where neither BUSY nor FULL stands and no rein came before, a rein is taken. -/
theorem takeRein_shows {s : State} (ht : s.tbs.taken = false) (hb : bit Reg.TBS_RSTAT_BUSY s = false) (hf : bit Reg.TBS_RSTAT_FULL s = false)
    {t src : Nat} (h64 : t < 2 ^ 64) (hs : src < 8) (origin : Option Nat) (count : Nat) (remote : Bool) :
    ShowsRein t src s (takeRein t src origin count remote s) := by
  obtain ⟨rid, hrein⟩ := takeRein_first ht hb hf t src origin count remote
  have htaken := showsRein_reinWaits h64 hs rid remote s
  rw [hrein]
  split
  · exact htaken.latchRein t 1
  · exact htaken

/-- R477, R478: so is the rein that this node issues, whether it is broadcast or not. -/
theorem issueRein_shows {s : State} (ht : s.tbs.taken = false) (hb : bit Reg.TBS_RSTAT_BUSY s = false) (hf : bit Reg.TBS_RSTAT_FULL s = false)
    {t src : Nat} (h64 : t < 2 ^ 64) (hs : src < 8) (bcast : Bool) :
    ShowsRein t src { s with tbs := { s.tbs with rein := (s.tbs.rein + 1) % 256 } } (issueRein t src bcast s) := by
  have htaken (origin : Option Nat) := takeRein_shows (s := { s with tbs := { s.tbs with rein := (s.tbs.rein + 1) % 256 } }) ht hb hf h64 hs origin
    s.tbs.rein false
  cases bcast with
  | true => exact (htaken _).broadcast _ _ _
  | false => exact htaken _

/-! ### The SNAP pin -/

/-- The edge of SNAP as it is noted before it is judged (R482). -/
def edgeNoted (ago : Nat) (s : State) : State := setB Reg.TBS_PINSTAT_SNAPLVL true { s with tbs := { s.tbs with snapAt := some (s.now - ago) } }

/-- An edge within SNAPSP of the last one is counted (R482). -/
def edgeIgnored (ago : Nat) (s : State) : State :=
  incSat Reg.TBS_PINSTAT_SNAPIGN { edgeNoted ago s with tbs := { (edgeNoted ago s).tbs with ignored := s.tbs.ignored + 1 } }

/-- An edge away from the last one is the last one from then on (R482). -/
def edgeKept (ago : Nat) (s : State) : State :=
  { edgeNoted ago s with tbs := { (edgeNoted ago s).tbs with edge := some (s.now - ago), ignored := 0 } }

theorem Changes.edgeNoted (ago : Nat) (s : State) : Changes [.tbs] (oneOf [Reg.TBS_PINSTAT]) s (edgeNoted ago s) :=
  ((Changes.withTbs s _).trans (Changes.setB _ true _)).mono (by simp) (by simp [oneOf, Reg.TBS_PINSTAT_SNAPLVL])

theorem Changes.edgeIgnored (ago : Nat) (s : State) : Changes [.tbs] (oneOf [Reg.TBS_PINSTAT]) s (edgeIgnored ago s) :=
  (((Changes.edgeNoted ago s).trans (Changes.withTbs _ _)).trans (Changes.incSat _ _)).mono (by simp) (by simp [oneOf, Reg.TBS_PINSTAT_SNAPIGN])

theorem Changes.edgeKept (ago : Nat) (s : State) : Changes [.tbs] (oneOf [Reg.TBS_PINSTAT]) s (edgeKept ago s) :=
  ((Changes.edgeNoted ago s).trans (Changes.withTbs _ _)).mono (by simp) (by simp)

section
variable {s : State} {ago : Nat} (hc : coreUp s = true) (hen : bit Reg.TBS_CFG_SNAPEN s = true)
include hc hen

theorem exec_snapEdge_soon (hsoon : s.tbs.edge.any (fun e => decide (s.now < e + ago + snapSpacing s)) = true) :
    exec (.snapEdge ago) s = .next (if s.tbs.ignored + 1 = 8 then pulse 15 (edgeIgnored ago s) else edgeIgnored ago s) := by
  change execSnapEdge ago s = _
  rw [execSnapEdge, if_pos (by rw [hc, hen]; rfl)]
  extract_lets t tbs1 s1 soon
  have hs : soon = true := by
    simp only [soon]
    split
    · next e he =>
      obtain ⟨e', he', hlt⟩ := (Option.any_eq_true _ _).1 hsoon
      obtain rfl : e' = e := Option.some.inj (he'.symm.trans he)
      exact hlt
    · next he =>
      obtain ⟨e', he', -⟩ := (Option.any_eq_true _ _).1 hsoon
      exact absurd (he'.symm.trans he) (Option.some_ne_none e')
  rw [if_pos hs]
  rfl

theorem exec_snapEdge_away (haway : s.tbs.edge.all (fun e => decide (e + ago + snapSpacing s ≤ s.now)) = true) (hft : ago ≤ s.ft) (h64 : s.ft < 2 ^ 64) :
    exec (.snapEdge ago) s = .next (issueRein (s.ft - ago) 1 (bit Reg.TBS_CFG_SNAPBC s) (edgeKept ago s)) := by
  change execSnapEdge ago s = _
  rw [execSnapEdge, if_pos (by rw [hc, hen]; rfl)]
  extract_lets t tbs1 s1 soon
  have hs : ¬ soon = true := by
    simp only [soon]
    split
    · next e he => exact fun hlt => Nat.not_lt.2 (of_decide_eq_true ((Option.all_eq_true _ _).1 haway e he)) (of_decide_eq_true hlt)
    · exact Bool.false_ne_true
  have ht : t = s.ft - ago := by simp only [t]; omega
  rw [if_neg hs, ht]
  rfl

/-- R482: an edge within SNAPSP of the last one is only counted, the eighth in a row with source 15. -/
theorem snapEdge_ignored (hsoon : s.tbs.edge.any (fun e => decide (s.now < e + ago + snapSpacing s)) = true) : ∃ t, exec (.snapEdge ago) s = .next t ∧
    getF Reg.TBS_PINSTAT_SNAPIGN t = min (getF Reg.TBS_PINSTAT_SNAPIGN s + 1) 65535 ∧
    t.tbs = { s.tbs with ignored := s.tbs.ignored + 1, snapAt := some (s.now - ago) } ∧
    t.flt.waiting = s.flt.waiting ++ (if s.tbs.ignored = 7 then [15] else []) ∧ Changes [.tbs, .flt] (oneOf [Reg.TBS_PINSTAT]) s t := by
  have hcount : getF Reg.TBS_PINSTAT_SNAPIGN (edgeIgnored ago s) = min (getF Reg.TBS_PINSTAT_SNAPIGN s + 1) 65535 := by
    have hlevel : getF Reg.TBS_PINSTAT_SNAPIGN (edgeNoted ago s) = getF Reg.TBS_PINSTAT_SNAPIGN s := getF_setF_beside _ _ _ _ (by decide) (by decide)
    rw [← hlevel]
    exact getF_incSat _ _ (by decide)
  have hch := Changes.edgeIgnored ago s
  have hflt : (edgeIgnored ago s).flt = s.flt := hch.part_eq .flt (by simp)
  refine ⟨_, exec_snapEdge_soon hc hen hsoon, ?_⟩
  by_cases h7 : s.tbs.ignored = 7
  · rw [if_pos (congrArg (· + 1) h7), if_pos h7]
    refine ⟨(getF_of_reg (reg_pulse ..)).trans hcount, pulse_tbs .., ?_, (hch.trans (Changes.pulse 15 _)).mono (by simp) (by simp)⟩
    rw [pulse_waiting _ _ (muted_below (by decide) _), hflt]
  · rw [if_neg (fun h8 => h7 (Nat.succ_injective h8)), if_neg h7, List.append_nil]
    exact ⟨hcount, rfl, congrArg FltState.waiting hflt, hch.mono (by simp) (by simp)⟩

/-- R482: an edge away from the last one issues a rein at its own time. -/
theorem snapEdge_issues (hft : ago ≤ s.ft) (h64 : s.ft < 2 ^ 64) (haway : s.tbs.edge.all (fun e => decide (e + ago + snapSpacing s ≤ s.now)) = true)
    (ht : s.tbs.taken = false) (hb : bit Reg.TBS_RSTAT_BUSY s = false) (hf : bit Reg.TBS_RSTAT_FULL s = false) : ∃ t, exec (.snapEdge ago) s = .next t ∧
    t.tbs.edge = some (s.now - ago) ∧ t.tbs.snapAt = some (s.now - ago) ∧ t.tbs.ignored = 0 ∧ lastRein t = s.ft - ago ∧ getF Reg.TBS_RSTAT_SRC t = 1 ∧
    bit Reg.TBS_RSTAT_FULL t = true ∧ t.tbs.rein = (s.tbs.rein + 1) % 256 ∧ t.pending = s.pending := by
  have hch := Changes.edgeKept ago s
  have hrstat {f : Field} (ha : f.addr = Reg.TBS_RSTAT) : bit f (edgeKept ago s) = bit f s := bit_of_reg (hch.reg_eq (by rw [ha]; unfold oneOf; decide))
  obtain ⟨htime, hsrc, hfull, ⟨v, htbs⟩, hpending⟩ := issueRein_shows (s := edgeKept ago s) ht ((hrstat rfl).trans hb) ((hrstat rfl).trans hf)
    (lt_of_le_of_lt (Nat.sub_le s.ft ago) h64) (src := 1) (by decide) (bit Reg.TBS_CFG_SNAPBC s)
  refine ⟨_, exec_snapEdge_away hc hen haway hft h64, ?_, ?_, ?_, htime, hsrc, hfull, ?_, hpending.trans hch.pending_eq⟩ <;> rw [htbs] <;> rfl

/-- R482: SNAP has been high for SNAPTO, which source 15 reports once. -/
theorem snapStuckTimeout_clause (hon : getF Reg.TBS_CFG_SNAPTO s ≠ 0) (hfirst : bit Reg.TBS_PINSTAT_STUCK s = false)
    (hhigh : s.tbs.snapAt.all (fun e => decide (e + getF Reg.TBS_CFG_SNAPTO s * 1000 * ms ≤ s.now)) = true) : ∃ t, exec .snapStuckTimeout s = .next t ∧
    bit Reg.TBS_PINSTAT_STUCK t = true ∧ t.flt.waiting = s.flt.waiting ++ [15] ∧ Changes [.flt] (oneOf [Reg.TBS_PINSTAT]) s t := by
  have hgo : (coreUp s && bit Reg.TBS_CFG_SNAPEN s && getF Reg.TBS_CFG_SNAPTO s != 0 && !bit Reg.TBS_PINSTAT_STUCK s &&
      s.tbs.snapAt.all (fun e => decide (e + getF Reg.TBS_CFG_SNAPTO s * 1000 * ms ≤ s.now))) = true := by
    rw [hhigh]; simp [hc, hen, hon, hfirst]
  refine ⟨_, if_pos hgo, (bit_of_reg (reg_pulse ..)).trans (bit_setB_same (by decide) rfl true _), pulse_waiting _ _ (muted_below (by decide) _), ?_⟩
  exact (((Changes.setB _ true s).trans (Changes.setB _ true _)).trans (Changes.pulse 15 _)).mono (by simp)
    (by simp [oneOf, Reg.TBS_PINSTAT_SNAPLVL, Reg.TBS_PINSTAT_STUCK])

end

/-- R482: while STUCK stands, and before SNAPTO has passed, nothing happens. -/
theorem snapStuckTimeout_early {s : State} (h : bit Reg.TBS_PINSTAT_STUCK s = true ∨
    s.tbs.snapAt.any (fun e => decide (s.now < e + getF Reg.TBS_CFG_SNAPTO s * 1000 * ms)) = true) : exec .snapStuckTimeout s = .next s := by
  refine if_neg fun hgo => ?_
  simp only [Bool.and_eq_true] at hgo
  obtain ⟨⟨-, hnot⟩, hall⟩ := hgo
  obtain hstuck | hsoon := h
  · simp [hstuck] at hnot
  · obtain ⟨e, he, hlt⟩ := (Option.any_eq_true _ _).1 hsoon
    exact Nat.not_lt.2 (of_decide_eq_true ((Option.all_eq_true _ _).1 hall e he)) (of_decide_eq_true hlt)

/-- R482: with SNAPEN 0 the pin is ignored. -/
theorem snap_disabled {s : State} (h : bit Reg.TBS_CFG_SNAPEN s = false) (ago : Nat) :
    exec (.snapEdge ago) s = .next s ∧ exec .snapStuckTimeout s = .next s ∧ exec .snapStuckClear s = .next s :=
  ⟨if_neg (by simp [h]), if_neg (by simp [h]), if_neg (by simp [h])⟩

/-- R482: SNAP low clears STUCK. -/
theorem snapStuckClear_clause {s : State} (h : bit Reg.TBS_CFG_SNAPEN s = true) : ∃ t, exec .snapStuckClear s = .next t ∧
    bit Reg.TBS_PINSTAT_STUCK t = false ∧ bit Reg.TBS_PINSTAT_SNAPLVL t = false ∧ Changes [] (oneOf [Reg.TBS_PINSTAT]) s t :=
  ⟨_, if_pos h, bit_setB_same (by decide) rfl false _, (bit_setB_beside (by decide) (by decide) false _).trans (bit_setB_same (by decide) rfl false s),
    ((Changes.setB _ false s).trans (Changes.setB _ false _)).mono (by simp) (by simp [oneOf, Reg.TBS_PINSTAT_SNAPLVL, Reg.TBS_PINSTAT_STUCK])⟩

/-- Settles O48: a latch marks how late it is, takes the blocks' values and leaves BUSY to the measurement where that has still to latch; an edge of SNAP
is judged by its distance from the last one. -/
theorem reinLatches : Obligations.ReinLatches := by
  unfold Obligations.ReinLatches
  intro s snaps latched
  refine ⟨fun T hl hs ht h6 => reinLatch_inTime hl ht hs h6, fun T hl h => reinLatch_late hl (by omega) h,
    fun T hl ht hr hstart => reinLatch_pending hl ht hr hstart, reinLatch_early, fullClear_clause, fullClear_busy,
    fun ago hc hen hsoon => snapEdge_ignored hc hen hsoon,
    fun ago hc hen hft h64 haway ht hb hf => snapEdge_issues hc hen hft h64 haway ht hb hf,
    fun hc hen hon hfirst hhigh => snapStuckTimeout_clause hc hen hon hfirst hhigh, snapStuckTimeout_early, fun ago h => snap_disabled h ago,
    snapStuckClear_clause⟩

end Sys2Proof.Machine
end

