-- ==== Sys2Proof/Proofs/SenseRefutations.lean ====
section
/-!
PROOFS. What refutes two statements of the family 05_crosscheck_and_sense_integrity: for each a concrete state and command, and what the model answers
there.
-/
namespace Sys2Proof.Machine

/-! ## A fallback result of a fenced cell -/

/-- The secondary side runs with cells in use, and the primary path of cell 1 is fenced; the latest slot result of its secondary measurement is 3.7 V. -/
def fencedCell : State :=
  { activeWith [(Reg.CMS_FENCE, 2#32)] with
    cms := { CmsState.reset with running := true, unused := some false }
    xck := { XckState.reset with slots := [⟨0, 0, false, [(342 * 256 * 3700000, false)]⟩] } }

/-- The cells for which a fallback result is kept (R160). -/
def keptFallbacks (t : State) : List Bool := t.xck.fall.map Option.isSome

set_option maxRecDepth 20000 in
/-- R160: the result of the fenced cell is kept for the records of its path. -/
theorem fallbackResult_fencedCell_kept :
    nextView keptFallbacks (exec .fallbackResult fencedCell) = some (true :: List.replicate 23 false) := by decide

/-- Refutes O12: a fallback result is kept for the records that the fenced path still forms (R160), so the secondary side's state changes by more than
the mark of a change of converter, which is all that the statement lets change of it. -/
theorem not_secondaryResults : ¬ Obligations.SecondaryResults := by
  unfold Obligations.SecondaryResults
  intro h
  obtain ⟨-, hfallback, -⟩ := h fencedCell
  obtain ⟨t, ht, hxck, -⟩ := hfallback (by decide)
  have hkept := fallbackResult_fencedCell_kept
  rw [nextView_exec _ ht, keptFallbacks, hxck] at hkept
  exact absurd hkept (by decide)

/-! ## A balancing gate in an open integration window -/

/-- Gate mode at the start of a gate period, while the integration window of an impedance plan is open and the switch of cell 1 is stuck on. -/
def gateInWindow : State :=
  { activeWith [(Reg.XCK_BALCFG, 2#32), (Reg.IMP_STAT, 2#32)] with
    imp := { ImpState.reset with phase := .window }
    cpb := { CpbState.reset with stuckOn := 2#32 } }

set_option maxRecDepth 20000 in
/-- R204: the path that conducts as the switches open is marked in the window, for its own cell and the one above. -/
theorem balancingGateStart_gateInWindow_marked :
    nextView (fun t => t.imp.wBal) (exec .balancingGateStart gateInWindow) = some 6#32 := by decide

/-- Refutes O15: a gate that begins in an open integration window leaves the mark of R204 on the cells beside a path that conducts, and so changes the
part imp; the statement leaves that part out of those that change. -/
theorem not_harnessMeasurement : ¬ Obligations.HarnessMeasurement := by
  unfold Obligations.HarnessMeasurement
  intro h
  obtain ⟨-, -, -, -, -, -, hgate, -⟩ := h gateInWindow
  obtain ⟨t, ht, -, -, -, hsame, -⟩ := hgate (by decide) (by decide) (by decide)
  have himp : t.imp = gateInWindow.imp := hsame .imp (by decide)
  have hmarked := balancingGateStart_gateInWindow_marked
  rw [nextView_exec _ ht, himp] at hmarked
  exact absurd hmarked (by decide)

end Sys2Proof.Machine
end

