-- ==== Sys2Proof/Proofs/SenseView.lean ====
section
/-!
PROOFS. What trips, the ends of runs, and the marks of bleed paths and windows leave alone of the secondary side: one lemma for each function of the
model, in the order in which they call each other.
-/
namespace Sys2Proof.Machine

/-! ## The sense view -/

/-- The registers that the secondary side's results, declarations and blames stand in, and the fences of cell paths: XCK without `XCK_HRCMD` and
`XCK_SUMDIFF`, `CMS_FENCE` and `FLT_FENCE1`. -/
def senseReg (a : Nat) : Bool :=
  (decide (Reg.XCK_CFG ≤ a) && decide (a < Reg.IMP_CFG) && a != Reg.XCK_HRCMD && a != Reg.XCK_SUMDIFF) || a == Reg.CMS_FENCE || a == Reg.FLT_FENCE1

/-- What trips and the ends of runs leave alone of the secondary side. What they may change stands at its reset value: other blocks, the events that
wait, and of XCK the marks of bleed paths, the harness measurement, the crossings of R165, and the counts of R154 and R177. -/
def senseView (s : State) : State × (Nat → Word) :=
  ({ State.reset with
      now := s.now, ft := s.ft, sys := s.sys, cnv := s.cnv, cal := s.cal, pending := s.pending
      cms := { CmsState.reset with unused := s.cms.unused }
      flt := { FltState.reset with react := s.flt.react, blamedP := s.flt.blamedP, blamedS := s.flt.blamedS }
      xck := { s.xck with
        balInt := [], balRun := [], halfAt := none, harness := none, pairOv := 0#32, pairUv := 0#32, counted := [], sumFail := 0, sumPass := 0 } },
   fun a => if senseReg a then reg s a else 0#32)

section
variable {s t : State} (h : senseView t = senseView s)
include h

theorem reg_of_senseView {a : Nat} (ha : senseReg a = true) : reg t a = reg s a := by
  simpa [senseView, ha] using congrFun (congrArg Prod.snd h) a

theorem regBit_of_senseView {a : Nat} (ha : senseReg a = true) (k : Nat) : regBit a k t = regBit a k s := by
  unfold regBit; rw [reg_of_senseView h ha]

theorem getF_of_senseView {f : Field} (hf : senseReg f.addr = true) : getF f t = getF f s := getF_of_reg (reg_of_senseView h hf)

theorem tapOpen_of_senseView (k : Nat) : tapOpen k t = tapOpen k s := regBit_of_senseView h (by decide) k

end

/-! ### Updates of a state -/

/-- The parts that the view does not show. -/
theorem senseView_parts (s : State) (free : Nat) (resp : Option Resp) (pins : Pins) (imp : ImpState) (cpb : CpbState) (lnk : LnkState) (fab : FabState)
    (hst : HstState) (ctl : CtlState) (tbs : TbsState) (thm : ThmState) (bst : BstState) :
    senseView { s with
      free := free, resp := resp, pins := pins, imp := imp, cpb := cpb, lnk := lnk, fab := fab, hst := hst, ctl := ctl, tbs := tbs, thm := thm
      bst := bst } = senseView s := (rfl)

/-- What the view does not show of the fault collector. -/
theorem senseView_flt (s : State) (lines waiting : List Nat) : senseView { s with flt := { s.flt with lines := lines, waiting := waiting } } = senseView s :=
  (rfl)

/-- What the view does not show of XCK. -/
theorem senseView_xck (s : State) (balInt : List Bled) (balRun : List (Nat × Nat)) (halfAt : Option Nat) (harness : Option HarnessRun)
    (pairOv pairUv : Word) (counted : List Nat) (sumFail sumPass : Nat) :
    senseView { s with xck := { s.xck with
      balInt := balInt, balRun := balRun, halfAt := halfAt, harness := harness, pairOv := pairOv, pairUv := pairUv, counted := counted
      sumFail := sumFail, sumPass := sumPass } } = senseView s := (rfl)

theorem senseView_setReg {a : Nat} (h : senseReg a = false) (v : Word) (s : State) : senseView (setReg a v s) = senseView s := by
  have hr : (fun b => if senseReg b then reg (setReg a v s) b else 0#32) = fun b => if senseReg b then reg s b else 0#32 := by
    funext b
    split
    · next hb => exact reg_setReg_other (fun e => by simp [← e, hb] at h) v s
    · rfl
  simp only [senseView, hr]; rfl

theorem senseView_setF {f : Field} (h : senseReg f.addr = false) (v : Nat) (s : State) : senseView (setF f v s) = senseView s := senseView_setReg h _ s
theorem senseView_setB {f : Field} (h : senseReg f.addr = false) (b : Bool) (s : State) : senseView (setB f b s) = senseView s := senseView_setReg h _ s
theorem senseView_incSat {f : Field} (h : senseReg f.addr = false) (s : State) : senseView (incSat f s) = senseView s := senseView_setReg h _ s
theorem senseView_setRegBit {a : Nat} (h : senseReg a = false) (k : Nat) (b : Bool) (s : State) : senseView (setRegBit a k b s) = senseView s :=
  senseView_setReg h _ s

theorem senseView_foldl {α : Type} (f : State → α → State) (l : List α) (h : ∀ t, ∀ x ∈ l, senseView (f t x) = senseView t) (s : State) :
    senseView (l.foldl f s) = senseView s := by
  induction l generalizing s with
  | nil => rfl
  | cons x l ih => exact (ih (fun t y hy => h t y (List.mem_cons_of_mem x hy)) (f s x)).trans (h s x (List.mem_cons_self ..))

/-! ### Fault sources and events -/

theorem senseReg_act (n : Nat) : senseReg (Reg.FLT_ACT n) = false := by
  have hhigh : ¬ Reg.FLT_ACT n < Reg.IMP_CFG := by simp only [Reg.FLT_ACT, Reg.IMP_CFG]; omega
  have hcms : Reg.FLT_ACT n ≠ Reg.CMS_FENCE := by simp only [Reg.FLT_ACT, Reg.CMS_FENCE]; omega
  have hsec : Reg.FLT_ACT n ≠ Reg.FLT_FENCE1 := by simp only [Reg.FLT_ACT, Reg.FLT_FENCE1]; omega
  simp [senseReg, hhigh, hcms, hsec]

theorem senseView_pulse (src : Nat) (s : State) : senseView (pulse src s) = senseView s := by
  simp only [pulse, apply_ite senseView, senseView_flt, ite_self]

theorem senseView_setLine (src : Nat) (b : Bool) (s : State) : senseView (setLine src b s) = senseView s := by
  simp only [setLine, apply_ite senseView, senseView_flt, senseView_setRegBit (senseReg_act _), ite_self]

theorem senseView_drop (src : Nat) (s : State) : senseView (drop src s) = senseView s := senseView_setLine src false s

theorem senseView_countOnce (src : Nat) (s : State) : senseView (countOnce src s) = senseView s := by
  simp only [countOnce, apply_ite senseView, senseView_pulse, senseView_xck, senseView_setLine, ite_self]

theorem senseView_setEvt (b : EvtBlock) (bits : Nat) (s : State) : senseView (setEvt b bits s) = senseView s := by
  have h : senseReg b.evt = false := by cases b <;> decide
  simp only [setEvt, apply_ite senseView, senseView_parts, senseView_setReg h, ite_self]

theorem senseView_useFree (s : State) : senseView (useFree s) = senseView s := (rfl)

/-! ### Completions -/

theorem senseView_writeback (s : State) : senseView (writeback s) = senseView s := by
  simp only [writeback, dmaWrite, apply_ite senseView, senseView_parts, ite_self]

theorem senseView_message (v : Nat) (s : State) : senseView (message v s) = senseView s := by
  simp (disch := decide) only [message, sendVector, dmaWrite, apply_ite senseView, senseView_setRegBit, senseView_parts, senseView_writeback, ite_self]

theorem senseView_countEntry (r : Nat) (s : State) : senseView (countEntry r s) = senseView s := by
  simp only [countEntry, signalCounted, signalRing, apply_ite senseView, senseView_message, senseView_parts, ite_self]

theorem senseView_ringWrite (n : Nat) (mk : Bool → List Byte) (s : State) : senseView (ringWrite 1 n mk s) = senseView s := by
  simp (disch := decide) only [ringWrite, senseView_countEntry, advanceRing, dmaWrite, senseView_parts, senseView_setF]

theorem senseView_flushCompletions (k : Nat) (s : State) : senseView (flushCompletions k s) = senseView s := by
  induction k generalizing s with
  | zero => rfl
  | succ k ih =>
    unfold flushCompletions
    split
    · rfl
    · simp only [apply_ite senseView, ih, senseView_ringWrite, dmaWrite, senseView_parts, ite_self]

theorem senseView_finishHost (slot : Nat) (mk : HostCmd → HostDone) (s : State) : senseView (finishHost slot mk s) = senseView s := by
  unfold finishHost
  split
  · rfl
  · simp (disch := decide) only [refreshOut, senseView_setF, senseView_flushCompletions, apply_ite senseView, senseView_parts, ite_self]

theorem senseView_sendRouted (f : Frame) (s : State) : senseView (sendRouted f s) = senseView s := by
  simp (disch := decide) only [sendRouted, enqueue, modPort, apply_ite senseView, senseView_incSat, senseView_parts, ite_self]

theorem senseView_sendCpl (src tag : Nat) (cls : Cls) (rroute : Word) (rhop : Nat) (p : List Word) (s : State) :
    senseView (sendCpl src tag cls rroute rhop p s) = senseView s := by
  have hnone (t : State) : senseView (incSat Reg.FAB_ERR_NOPORT t) = senseView t := senseView_incSat (by decide) t
  unfold sendCpl
  split
  · exact senseView_sendRouted _ s
  · split
    · unfold sendHome
      split
      · exact senseView_sendRouted _ s
      · exact hnone s
    · exact hnone s

theorem senseView_complete (tk : Ticket) (st : Status) (data : List Word) (tval : Nat) (s : State) :
    senseView (complete tk st data tval s) = senseView s := by
  cases tk with
  | direct => rfl
  | fabric => simp only [complete, cachePut, apply_ite senseView, senseView_parts, senseView_sendCpl, ite_self]
  | host => exact senseView_finishHost _ _ s

/-! ### Plans and windows -/

theorem senseView_planAbort (code : Nat) (s : State) : senseView (planAbort code s) = senseView s := by
  simp (disch := decide) only [planAbort, finishAbort, apply_ite senseView, senseView_setEvt, senseView_pulse, senseView_parts, senseView_setF,
    senseView_useFree, ite_self]

theorem senseView_noteWindow (s : State) : senseView (noteWindow s) = senseView s := by
  simp only [noteWindow, apply_ite senseView, senseView_parts, ite_self]

theorem senseView_sendPairTick (s : State) : senseView (sendPairTick s) = senseView s := by
  simp (disch := decide) only [sendPairTick, apply_ite senseView, senseView_sendRouted, senseView_setB, senseView_parts, ite_self]

/-! ### Switches, the harness measurement, and trips -/

theorem senseView_noteBleed (s : State) : senseView (noteBleed s) = senseView s := (rfl)

theorem senseView_enforceSwitches (s : State) : senseView (enforceSwitches s) = senseView s := by
  simp (disch := decide) only [enforceSwitches, senseView_setF, senseView_noteBleed]

theorem senseView_endHarness (st : Status) (failed : Bool) (s : State) : senseView (endHarness st failed s) = senseView s := by
  unfold endHarness
  split
  · rfl
  · simp (disch := decide) only [senseView_complete, senseView_enforceSwitches, apply_ite senseView, senseView_pulse, senseView_setB, senseView_xck, ite_self]

theorem senseView_harnessAbort (s : State) : senseView (harnessAbort s) = senseView s := senseView_endHarness _ _ s

theorem senseView_driveFaultLevel (s : State) : senseView (driveFaultLevel s) = senseView s := by
  simp (disch := decide) only [driveFaultLevel, apply_ite senseView, senseView_setB, senseView_parts, ite_self]

theorem senseView_tripActions (n : Nat) (isOv : Bool) (s : State) : senseView (tripActions n isOv s) = senseView s := by
  have hflag : senseReg (flagReg isOv) = false := by cases isOv <;> decide
  simp only [tripActions, senseView_harnessAbort, senseView_setEvt, senseView_enforceSwitches, senseView_driveFaultLevel, senseView_pulse,
    senseView_setLine, senseView_setRegBit hflag]

theorem senseView_actTripped (n : Nat) (isOv : Bool) (s : State) : senseView (actTripped n isOv s) = senseView s := by
  simp only [actTripped, markWaiting, apply_ite senseView, senseView_tripActions, senseView_parts, ite_self]

theorem senseView_standingTrips (cells : List Nat) (s : State) : senseView (standingTrips cells s) = senseView s :=
  senseView_foldl _ _ (fun t n _ => by simp only [apply_ite senseView, senseView_actTripped, ite_self]) s

end Sys2Proof.Machine
end

