-- ==== Sys2Proof/Proofs/OpenWires.lean ====
section
/-!
PROOFS. Open sense wires: the sweep, the test of a tap, its declaration and its clear, and the end of a suspect's hold (R162-R167, R182).
-/
namespace Sys2Proof.Machine

/-! ## Declarations -/

/-- The declarations after the bit of one tap is set. -/
theorem tapOpen_setRegBit {j : Nat} (hj : j ≤ 24) (k : Nat) (b : Bool) (s : State) :
    tapOpen j (setRegBit Reg.XCK_OWSTAT k b s) = if j = k then b else tapOpen j s := by
  unfold tapOpen regBit setRegBit
  have h32 : j < 32 := by omega
  rw [reg_setReg_same, getLsbD_putBits]
  by_cases h : j = k
  · subst h; cases b <;> simp [b2n, h32]
  · rw [if_neg (by omega), if_neg h]
    simp [h32]

/-- The state in which tap Ck has just been declared open: it is no suspect any more (R164). -/
def tapDeclared (k : Nat) (s : State) : State :=
  setRegBit Reg.XCK_OWSTAT k true { s with xck := { s.xck with suspects := s.xck.suspects.filter (fun x => x.tap != k) } }

theorem senseView_declareOpen (k : Nat) (s : State) : senseView (declareOpen k s) = senseView (tapDeclared k s) := by
  simp only [declareOpen, senseView_noteWindow, senseView_enforceSwitches, senseView_countOnce]; rfl

theorem senseView_clearOpen (k : Nat) (s : State) : senseView (clearOpen k s) = senseView (setRegBit Reg.XCK_OWSTAT k false s) := by
  simp only [clearOpen, senseView_standingTrips, senseView_enforceSwitches, apply_ite senseView, senseView_drop, ite_self]

theorem tapOpen_declareOpen {j : Nat} (hj : j ≤ 24) (k : Nat) (s : State) : tapOpen j (declareOpen k s) = if j = k then true else tapOpen j s :=
  (tapOpen_of_senseView (senseView_declareOpen k s) j).trans (tapOpen_setRegBit hj k true _)

theorem tapOpen_clearOpen {j : Nat} (hj : j ≤ 24) (k : Nat) (s : State) : tapOpen j (clearOpen k s) = if j = k then false else tapOpen j s :=
  (tapOpen_of_senseView (senseView_clearOpen k s) j).trans (tapOpen_setRegBit hj k false _)

/-! ## The sweep -/

/-- R163: a period that expires starts a sweep at C1, or has one follow the one that runs. -/
theorem exec_openWireSweepStart {s : State} (hr : secondaryRuns s = true) (hs : cellsServed s = true) (hp : getF Reg.XCK_OWCFG_PER s ≠ 3) :
    exec .openWireSweepStart s =
      .next { s with xck := if s.xck.sweepTap = 0 then { s.xck with sweepTap := 1 } else { s.xck with sweepPend := true } } :=
  if_pos (by simp [hr, hs, hp])

/-! ## A test -/

/-- Whether a test of tap k fails by its two responses, in µV (R162). -/
def testFails (k : Nat) (dl dh : Int) : Bool := decide (12000 ≤ dl) && (k == 24 || decide (dh ≤ -12000))

/-- Whether a test of tap k shows no response (R177). -/
def testWeak (k : Nat) (dl dh : Int) : Bool := decide (mag dl < 2000) && (k == 24 || decide (mag dh < 2000))

/-- The state in which a test of tap k is recorded: off the schedule, in the counts of R164, in its suspicion, and in `XCK_OWLAST`. -/
def testRecorded (k : Nat) (sweep : Bool) (rest : List (Nat × Bool)) (dl dh : Int) (s : State) : State :=
  { s with
    cms := { s.cms with pulsed := s.cms.pulsed.zipIdx.map (fun e => if e.2 = k ∨ (e.2 = k + 1 ∧ k < 24) then some s.now else e.1) }
    xck := { s.xck with
      due := rest
      suspects := judgeSuspect k (testFails k dl dh) s.xck.suspects
      owFail := bump s.xck.owFail k (testFails k dl dh)
      owPass := bump s.xck.owPass k (!testFails k dl dh)
      owWeak := bump s.xck.owWeak k (testWeak k dl dh)
      sweepTap := if sweep then (if k = 24 then 0 else k + 1) else s.xck.sweepTap } }
  |> setF Reg.XCK_OWLAST_TAP k |> setF Reg.XCK_OWLAST_DLO (unsigned 12 (clampI (dl / 100) (-2048) 2047))
  |> setF Reg.XCK_OWLAST_DHI (unsigned 12 (clampI (dh / 100) (-2048) 2047))

/-- Source 48 follows the tests without response (R177). -/
def weakReported (k : Nat) (s : State) : State :=
  if 2 ≤ nth s.xck.owWeak k 0 then countOnce 48 s else if natMem 48 s.flt.lines && s.xck.owWeak.all (· < 2) then drop 48 s else s

/-- The second failing test in succession declares tap Ck open, the second passing one ends the declaration (R164). -/
def tapJudged (k : Nat) (s : State) : State :=
  if 2 ≤ nth s.xck.owFail k 0 && !tapOpen k s then declareOpen k s
  else if 2 ≤ nth s.xck.owPass k 0 && tapOpen k s then clearOpen k s else s

/-- The first response of a test of tap k: cell k between the slot results of the window, in µV. -/
def lowResponse (k : Nat) (base flow : List Conversion) (s : State) : Int := windowReading k flow s - windowReading k base s

/-- The second: cell k + 1, which the test of the top tap does not have. -/
def highResponse (k : Nat) (base flow : List Conversion) (s : State) : Int :=
  if k = 24 then 0 else windowReading (k + 1) flow s - windowReading (k + 1) base s

theorem senseView_weakReported (k : Nat) (s : State) : senseView (weakReported k s) = senseView s := by
  simp only [weakReported, apply_ite senseView, senseView_countOnce, senseView_drop, ite_self]

section
variable {k : Nat} {sweep : Bool} {rest : List (Nat × Bool)} {s : State}

/-- What a test leaves of the secondary side: the test recorded, source 48 reported, and the tap judged; comparators that stand tripped act once a
suspicion has ended (R226). -/
theorem openWireTest_next (hdue : s.xck.due = (k, sweep) :: rest) (hr : secondaryRuns s = true) (hs : testsSuspended s = false)
    (bl bh wl wh : List Conversion) : ∃ t, exec (.openWireTest bl bh wl wh) s = .next t ∧
    senseView t = senseView (tapJudged k (weakReported k (testRecorded k sweep rest (lowResponse k bl wl s) (highResponse k bh wh s) s))) := by
  change ∃ t, execOpenWireTest bl bh wl wh s = .next t ∧ _
  rw [execOpenWireTest, hdue]
  refine ⟨_, if_neg (by simp [hr, hs]), ?_⟩
  rw [apply_ite senseView, senseView_standingTrips, ite_self]
  rfl

theorem nth_bump_same (l : List Nat) (k : Nat) (b : Bool) : nth (bump l k b) k 0 = if b then min (nth l k 0 + 1) 15 else 0 := nth_setNth_same ..

/-- What judging a tap leaves of the secondary side, but for its own declaration and suspicion. -/
theorem tapJudged_keeps (k : Nat) (u : State) : (tapJudged k u).xck.due = u.xck.due ∧ (tapJudged k u).pending = u.pending ∧
    reg (tapJudged k u) Reg.XCK_OWLAST = reg u Reg.XCK_OWLAST ∧ ∀ j, j ≤ 24 → j ≠ k → tapOpen j (tapJudged k u) = tapOpen j u := by
  have hlast (t : State) (b : Bool) : reg (setRegBit Reg.XCK_OWSTAT k b t) Reg.XCK_OWLAST = reg t Reg.XCK_OWLAST :=
    reg_setRegBit_other (by decide) k b t
  unfold tapJudged
  split
  · have h := senseView_declareOpen k u
    exact ⟨congrArg (fun v => v.1.xck.due) h, congrArg (fun v => v.1.pending) h, (reg_of_senseView h (by decide)).trans (hlast ..),
      fun j hj hne => (tapOpen_declareOpen hj k u).trans (if_neg hne)⟩
  · split
    · have h := senseView_clearOpen k u
      exact ⟨congrArg (fun v => v.1.xck.due) h, congrArg (fun v => v.1.pending) h, (reg_of_senseView h (by decide)).trans (hlast ..),
        fun j hj hne => (tapOpen_clearOpen hj k u).trans (if_neg hne)⟩
    · exact ⟨rfl, rfl, rfl, fun _ _ _ => rfl⟩

/-- R164: a tap with two failing tests in succession stands declared. -/
theorem tapOpen_tapJudged_failed {u : State} (hk : k ≤ 24) (hf : 2 ≤ nth u.xck.owFail k 0) (hp : nth u.xck.owPass k 0 = 0) :
    tapOpen k (tapJudged k u) = true := by
  unfold tapJudged
  cases ho : tapOpen k u with
  | false => rw [if_pos (by simp [hf]), tapOpen_declareOpen hk, if_pos rfl]
  | true => rw [if_neg (by simp), if_neg (by simp [hp]), ho]

/-- R164: a declared tap with two passing tests in succession is declared no longer. -/
theorem tapOpen_tapJudged_passed {u : State} (hk : k ≤ 24) (hp : 2 ≤ nth u.xck.owPass k 0) (ho : tapOpen k u = true) :
    tapOpen k (tapJudged k u) = false := by
  unfold tapJudged
  rw [if_neg (by simp [ho]), if_pos (by simp [hp, ho]), tapOpen_clearOpen hk, if_pos rfl]

/-- The record of a test touches no declaration. -/
theorem tapOpen_testRecorded (j : Nat) (dl dh : Int) (s : State) : tapOpen j (testRecorded k sweep rest dl dh s) = tapOpen j s := by
  have h (f : Field) (v : Nat) (t : State) (hf : f.addr = Reg.XCK_OWLAST) : tapOpen j (setF f v t) = tapOpen j t := by
    unfold tapOpen regBit; rw [reg_setF_other (by rw [hf]; decide)]
  rw [testRecorded, h _ _ _ rfl, h _ _ _ rfl, h _ _ _ rfl]
  rfl

/-- R162, R163: the test shows its tap in `XCK_OWLAST`. -/
theorem owlast_testRecorded (hk : k ≤ 24) (dl dh : Int) (s : State) : getF Reg.XCK_OWLAST_TAP (testRecorded k sweep rest dl dh s) = k := by
  rw [testRecorded, getF_setF_beside _ _ _ _ (by decide) (by decide), getF_setF_beside _ _ _ _ (by decide) (by decide), getF_setF_same _ _ _ (by decide)]
  exact Nat.mod_eq_of_lt (Nat.lt_of_le_of_lt hk (by decide))

section
variable (hdue : s.xck.due = (k, sweep) :: rest) (hr : secondaryRuns s = true) (hs : testsSuspended s = false) (hk : k ≤ 24)
include hdue hr hs hk

/-- R162-R164: a test takes its tap off the schedule and shows it; the second failing one in succession declares it, and no other tap's declaration
changes. -/
theorem openWireTest_clause (bl bh wl wh : List Conversion) : ∃ t, exec (.openWireTest bl bh wl wh) s = .next t ∧ t.xck.due = rest ∧
    getF Reg.XCK_OWLAST_TAP t = k ∧ t.pending = s.pending ∧
    (12000 ≤ windowReading k wl s - windowReading k bl s →
      (k = 24 ∨ windowReading (k + 1) wh s - windowReading (k + 1) bh s ≤ -12000) → 1 ≤ nth s.xck.owFail k 0 → tapOpen k t = true) ∧
    (∀ j, j ≤ 24 → j ≠ k → tapOpen j t = tapOpen j s) := by
  obtain ⟨t, ht, hview⟩ := openWireTest_next hdue hr hs bl bh wl wh
  generalize hu : weakReported k (testRecorded k sweep rest (lowResponse k bl wl s) (highResponse k bh wh s) s) = u at hview
  have hrec : senseView u = senseView (testRecorded k sweep rest (lowResponse k bl wl s) (highResponse k bh wh s) s) := hu ▸ senseView_weakReported ..
  obtain ⟨hdue', hpend, hlast, hother⟩ := tapJudged_keeps k u
  refine ⟨t, ht, ?_, ?_, ?_, fun hlow hhigh hfail => ?_, fun j hj hne => ?_⟩
  · exact (congrArg (fun v => v.1.xck.due) hview).trans (hdue'.trans (congrArg (fun v => v.1.xck.due) hrec))
  · rw [getF_of_senseView hview (by decide), getF_of_reg (f := Reg.XCK_OWLAST_TAP) hlast, getF_of_senseView hrec (by decide), owlast_testRecorded hk]
  · exact (congrArg (fun v => v.1.pending) hview).trans (hpend.trans (congrArg (fun v => v.1.pending) hrec))
  · have hfails : testFails k (lowResponse k bl wl s) (highResponse k bh wh s) = true := by
      have hl : decide (12000 ≤ lowResponse k bl wl s) = true := decide_eq_true hlow
      by_cases h24 : k = 24
      · subst h24
        simp [testFails, hl]
      · have hh : decide (highResponse k bh wh s ≤ -12000) = true := by
          rw [highResponse, if_neg h24]; exact decide_eq_true (hhigh.resolve_left h24)
        simp [testFails, hl, hh]
    have hf : u.xck.owFail = bump s.xck.owFail k true := (congrArg (fun v => v.1.xck.owFail) hrec).trans (congrArg (bump _ k) hfails)
    have hp : u.xck.owPass = bump s.xck.owPass k false := (congrArg (fun v => v.1.xck.owPass) hrec).trans (congrArg (fun b => bump _ k (!b)) hfails)
    rw [tapOpen_of_senseView hview]
    refine tapOpen_tapJudged_failed hk ?_ ?_
    · rw [hf, nth_bump_same, if_pos rfl]; omega
    · rw [hp, nth_bump_same]; rfl
  · rw [tapOpen_of_senseView hview, hother j hj hne, tapOpen_of_senseView hrec, tapOpen_testRecorded]

/-- R164: the second passing test in succession ends the declaration. -/
theorem openWireTest_passes {bl wl : List Conversion} (hlow : windowReading k wl s - windowReading k bl s < 12000) (hpass : 1 ≤ nth s.xck.owPass k 0)
    (ho : tapOpen k s = true) (bh wh : List Conversion) : ∃ t, exec (.openWireTest bl bh wl wh) s = .next t ∧ tapOpen k t = false := by
  obtain ⟨t, ht, hview⟩ := openWireTest_next hdue hr hs bl bh wl wh
  generalize hu : weakReported k (testRecorded k sweep rest (lowResponse k bl wl s) (highResponse k bh wh s) s) = u at hview
  have hrec : senseView u = senseView (testRecorded k sweep rest (lowResponse k bl wl s) (highResponse k bh wh s) s) := hu ▸ senseView_weakReported ..
  have hfails : testFails k (lowResponse k bl wl s) (highResponse k bh wh s) = false := by
    have : ¬ 12000 ≤ lowResponse k bl wl s := Int.not_le.2 hlow
    simp [testFails, this]
  have hp : u.xck.owPass = bump s.xck.owPass k true := (congrArg (fun v => v.1.xck.owPass) hrec).trans (congrArg (fun b => bump _ k (!b)) hfails)
  refine ⟨t, ht, ?_⟩
  rw [tapOpen_of_senseView hview]
  refine tapOpen_tapJudged_passed hk ?_ ?_
  · rw [hp, nth_bump_same, if_pos rfl]; omega
  · rw [tapOpen_of_senseView hrec, tapOpen_testRecorded, ho]

end
end

/-! ## The end of a hold -/

/-- The suspects after the hold of tap k has ended: one whose tests are over is no longer suspect (R163, R166). -/
def holdEnded (k : Nat) (l : List Suspect) : List Suspect :=
  (l.map (fun x => if x.tap = k then { x with hold := false } else x)).filter (fun x => !(x.tap == k && 2 ≤ x.passed + x.failed))

/-- The state in which the hold of tap k has ended. -/
def holdOver (k : Nat) (s : State) : State := { s with xck := { s.xck with suspects := holdEnded k s.xck.suspects } }

theorem holdEnded_holds (k : Nat) (l : List Suspect) : (holdEnded k l).any (fun x => x.tap == k && x.hold) = false := by
  rw [List.any_eq_false]
  intro x hx
  obtain ⟨y, -, rfl⟩ := List.mem_map.1 (List.mem_of_mem_filter hx)
  by_cases hy : y.tap = k <;> simp [hy]

/-- R166, R226: after 40 ms the suspect holds no longer. -/
theorem suspectHoldExpiry_clause {k : Nat} {s : State}
    (h : s.xck.suspects.any (fun x => x.tap == k && x.hold && decide (x.since + 40 * ms ≤ s.now)) = true) :
    ∃ t, exec (.suspectHoldExpiry k) s = .next t ∧
    t.xck.suspects.any (fun x => x.tap == k && x.hold) = false ∧ t.cal = s.cal ∧ t.sys = s.sys ∧ t.pending = s.pending := by
  have hnext : exec (.suspectHoldExpiry k) s = .next (standingTrips (tapCells k) (holdOver k s)) := if_pos h
  have hview : senseView (standingTrips (tapCells k) (holdOver k s)) = senseView (holdOver k s) := senseView_standingTrips _ _
  have hsus : (standingTrips (tapCells k) (holdOver k s)).xck.suspects = holdEnded k s.xck.suspects := congrArg (fun v => v.1.xck.suspects) hview
  refine ⟨_, hnext, ?_, congrArg (fun v => v.1.cal) hview, congrArg (fun v => v.1.sys) hview, congrArg (fun v => v.1.pending) hview⟩
  rw [hsus, holdEnded_holds]

/-- R166: before, the expiry changes nothing. -/
theorem suspectHoldExpiry_early {k : Nat} {s : State} (h : s.xck.suspects.all (fun x => x.tap != k || decide (s.now < x.since + 40 * ms)) = true) :
    exec (.suspectHoldExpiry k) s = .next s := by
  refine if_neg fun hany => ?_
  obtain ⟨x, hx, hdue⟩ := List.any_eq_true.1 hany
  have hkept := List.all_eq_true.1 h x hx
  simp only [Bool.and_eq_true, beq_iff_eq, decide_eq_true_eq] at hdue
  simp only [Bool.or_eq_true, bne_iff_ne, decide_eq_true_eq] at hkept
  omega

/-- Settles O14: a test records itself and judges its own tap by two results in succession; what trips meanwhile leaves the declarations alone. -/
theorem openWires : Obligations.OpenWires := by
  unfold Obligations.OpenWires
  intro s response
  refine ⟨fun hr hc hp h0 => ?_, fun hr hc hp h0 => ?_, fun hp => if_neg (by simp [hp]), fun k sweep rest hdue hr hs _ hk bl bh wl wh => ?_,
    fun k sweep rest bl bh wl wh hdue hr hs _ hk hlow hpass ho => openWireTest_passes hdue hr hs hk hlow hpass ho bh wh,
    fun k h => suspectHoldExpiry_clause h, fun k h => suspectHoldExpiry_early h⟩
  · rw [exec_openWireSweepStart hr hc hp, if_pos h0]
  · rw [exec_openWireSweepStart hr hc hp, if_neg h0]
  · exact openWireTest_clause hdue hr hs hk bl bh wl wh

end Sys2Proof.Machine
end

