-- ==== Sys2Proof/Proofs/CrossCheck.lean ====
section
/-!
PROOFS. The cross-check of one interval: the mismatches and the blame that it records, and what the fences, the suspect check and the rule for C0 leave of
them (R155-R159, R163, R164).
-/
namespace Sys2Proof.Machine

/-! ## Masks of cells -/

theorem getLsbD_maskTo (p : Nat → Bool) (m n : Nat) (hm : m < 32) :
    ((List.range m).foldl (fun w k => if p (k + 1) then w ||| (1#32 <<< (k + 1)) else w) 0#32).getLsbD n =
      (decide (1 ≤ n) && decide (n ≤ m) && p n) := by
  induction m with
  | zero =>
    have h : ¬ (1 ≤ n ∧ n ≤ 0) := by omega
    simp only [List.range_zero, List.foldl_nil, BitVec.getLsbD_zero, ← Bool.decide_and, decide_eq_false h, Bool.false_and]
  | succ m ih =>
    have hone : (1#32 <<< (m + 1)).getLsbD n = decide (n = m + 1) := by
      rw [← BitVec.twoPow_eq, BitVec.getLsbD_twoPow, decide_eq_true hm, Bool.true_and]
      exact decide_eq_decide.2 eq_comm
    rw [List.range_succ, List.foldl_append, List.foldl_cons, List.foldl_nil]
    by_cases hn : n = m + 1
    · subst hn
      have hold := ih (by omega)
      have habove : ¬ m + 1 ≤ m := by omega
      split
      · next hp => simp [hone, hp]
      · next hp => simp [hold, habove, hp]
    · have hle : n ≤ m + 1 ↔ n ≤ m := by omega
      split <;> simp [ih (by omega), hone, hn, hle]

/-- A mask of cells has the bits of the cells that satisfy its condition. -/
theorem getLsbD_cellMask (p : Nat → Bool) (n : Nat) : (cellMask p).getLsbD n = (decide (1 ≤ n) && decide (n ≤ 24) && p n) :=
  getLsbD_maskTo p 24 n (by decide)

/-! ## What the fences leave of mismatches and blame -/

/-- The registers of mismatches and blame (R159). -/
def blameReg (a : Nat) : Prop := a = Reg.XCK_XMIS ∨ a = Reg.XCK_BLAMEP ∨ a = Reg.XCK_BLAMES

theorem senseReg_of_blameReg {a : Nat} (h : blameReg a) : senseReg a = true := by
  obtain rfl | rfl | rfl := h <;> decide

theorem blameReg_below {a : Nat} (h : blameReg a) : a < Reg.XCK_CELL 0 := by
  obtain rfl | rfl | rfl := h <;> decide

theorem blameReg_beside {a b : Nat} (h : blameReg a) (hb : b = Reg.XCK_STAT ∨ b = Reg.CMS_FENCE ∨ b = Reg.FLT_FENCE0 ∨ b = Reg.FLT_FENCE1) : a ≠ b := by
  obtain rfl | rfl | rfl := h <;> obtain rfl | rfl | rfl | rfl := hb <;> decide

/-- What every step of a fold keeps, the fold keeps. -/
theorem foldl_keeps {α β : Type} (g : State → β) (f : State → α → State) (l : List α) (h : ∀ t, ∀ x ∈ l, g (f t x) = g t) (s : State) :
    g (l.foldl f s) = g s := by
  induction l generalizing s with
  | nil => rfl
  | cons x l ih => exact (ih (fun t y hy => h t y (List.mem_cons_of_mem x hy)) (f s x)).trans (h s x (List.mem_cons_self ..))

theorem reg_foldl {α : Type} {a : Nat} (f : State → α → State) (l : List α) (h : ∀ t, ∀ x ∈ l, reg (f t x) a = reg t a) (s : State) :
    reg (l.foldl f s) a = reg s a := foldl_keeps (reg · a) f l h s

theorem reg_withXck (s : State) (x : XckState) (a : Nat) : reg { s with xck := x } a = reg s a := rfl

theorem reg_invalidate {a b : Nat} (h : a < b) (s : State) : reg (invalidate b s) a = reg s a := reg_setRegBit_other (Nat.ne_of_lt h) _ _ s

/-- The words of the results lie above every other register of XCK. -/
theorem reg_invalidateAll {a : Nat} (h : a < Reg.XCK_CELL 0) (s : State) : reg (invalidateAll s) a = reg s a := by
  have hv : a < Reg.XCK_VMOD := Nat.lt_trans h (by decide)
  simp only [Reg.XCK_CELL] at h
  unfold invalidateAll
  extract_lets cells pairs aux
  have hcells : reg cells a = reg s a := reg_foldl _ _ (fun t k _ => reg_invalidate (by simp only [Reg.XCK_CELL]; omega) t) s
  have hpairs : reg pairs a = reg cells a := reg_foldl _ _ (fun t k _ => reg_invalidate (by simp only [Reg.XCK_PAIR]; omega) t) cells
  have haux : reg aux a = reg pairs a := reg_foldl _ _ (fun t k _ =>
    (reg_invalidate (by simp only [Reg.XCK_AXF]; omega) _).trans (reg_invalidate (by simp only [Reg.XCK_AX]; omega) t)) pairs
  rw [reg_invalidate hv, reg_withXck, haux, hpairs, hcells]

theorem senseView_markStream (o : Bool) (p : Nat → Bool) (s : State) : senseView (markStream o p s) = senseView s := by
  simp only [markStream, apply_ite senseView, senseView_parts, ite_self]

theorem senseView_startSettle (p : Nat → Bool) (s : State) : senseView (startSettle p s) = senseView s := by
  have hcount : senseView (startCount p s) = senseView s := by
    simp (disch := decide) only [startCount, reportSettle, senseView_setB, senseView_setF]; rfl
  exact (senseView_markStream false p _).trans hcount

/-- The cells whose primary path or secondary measurement a fence takes now. -/
def fencesBegun (s : State) : Word :=
  cellBits ((fencedPaths s &&& ~~~reg s Reg.CMS_FENCE) ||| (fencedSecondaries s &&& ~~~reg s Reg.FLT_FENCE1))

/-- R157, R159: a fence that begins takes its cell's mismatch with it, and leaves the blame. -/
theorem reg_applyCellFences {a : Nat} (ha : blameReg a) (s : State) :
    reg (applyCellFences s) a = if a = Reg.XCK_XMIS then reg s Reg.XCK_XMIS &&& ~~~fencesBegun s else reg s a := by
  have hs := senseReg_of_blameReg ha
  have hlow := blameReg_below ha
  unfold applyCellFences
  extract_lets oldP newP oldS newS mode began s1 s2 xck2 s3 xck3 moded s4 lifted s5 s6
  have h1 : reg s1 a = if a = Reg.XCK_XMIS then reg s Reg.XCK_XMIS &&& ~~~fencesBegun s else reg s a := by
    simp only [s1, reg_setReg]
    split
    · rfl
    · simp only [setB, setF, reg_setReg, Reg.FLT_FENCE0_XB, Reg.FLT_FENCE0_XA, Reg.FLT_FENCE0_CUR, blameReg_beside ha (.inr (.inl rfl)),
        blameReg_beside ha (.inr (.inr (.inl rfl))), blameReg_beside ha (.inr (.inr (.inr rfl))), if_false]
  have h2 : reg s2 a = reg s1 a := by
    refine reg_foldl _ _ (fun t k _ => ?_) s1
    split
    · exact reg_invalidate (by simp only [Reg.XCK_CELL] at hlow ⊢; omega) t
    · rfl
  have h3 : reg s3 a = reg s2 a := reg_withXck s2 _ a
  have hm : reg moded a = reg s3 a :=
    (reg_setF_other (f := Reg.XCK_STAT_MODE) (blameReg_beside ha (.inl rfl)) _ _).trans (reg_withXck s3 _ a)
  have h4 : reg s4 a = reg s3 a := by
    simp only [s4]
    split
    · rfl
    · split
      · exact (reg_invalidateAll hlow moded).trans hm
      · exact hm
  have h6 : senseView s6 = senseView s4 := by simp only [s6, s5, apply_ite senseView, senseView_planAbort, senseView_startSettle, ite_self]
  refine (reg_setB_other (f := Reg.FLT_STAT_FENCED) ?_ _ _).trans ?_
  · exact fun e => absurd (e ▸ hlow) (by decide)
  · refine (reg_of_senseView ?_ hs).trans (h4.trans (h3.trans (h2.trans h1)))
    simp only [senseView_noteWindow, apply_ite senseView, senseView_endHarness, h6, ite_self]

theorem fencesBegun_none {s : State} (hp : fencedPaths s = reg s Reg.CMS_FENCE) (hs : fencedSecondaries s = reg s Reg.FLT_FENCE1) :
    fencesBegun s = 0#32 := by
  simp [fencesBegun, hp, hs, cellBits]

/-- Where no fence begins, mismatches and blame stand. -/
theorem reg_applyCellFences_settled {a : Nat} (ha : blameReg a) {s : State} (hp : fencedPaths s = reg s Reg.CMS_FENCE)
    (hs : fencedSecondaries s = reg s Reg.FLT_FENCE1) : reg (applyCellFences s) a = reg s a := by
  rw [reg_applyCellFences ha, fencesBegun_none hp hs]
  split
  · next h => subst h; exact BitVec.and_allOnes
  · rfl

/-- While neither source 40 nor source 41 stands by a fence, no cell joins one (R497). -/
theorem extendBlame_unfenced {s : State} (h40 : fencedBy 40 s = false) (h41 : fencedBy 41 s = false) : extendBlame s = applyCellFences s := by
  simp [extendBlame, h40, h41]

/-! ## The comparisons -/

theorem senseView_intervalSource (src : Nat) (active : Bool) (s : State) : senseView (intervalSource src active s) = senseView s := by
  simp only [intervalSource, apply_ite senseView, senseView_pulse, senseView_setLine, senseView_drop, ite_self]

theorem senseView_pairChecks (s : State) : ∃ l, senseView (pairChecks s) = senseView { s with xck := { s.xck with pairFail := l } } := by
  unfold pairChecks
  extract_lets upd active s1
  exact ⟨upd, by simp only [apply_ite senseView, senseView_pulse, senseView_setLine, senseView_drop, ite_self]; rfl⟩

/-- The cells that are compared in this interval, and those whose comparison fails. -/
def comparedCells (s : State) : List Nat := ((List.range 24).map (· + 1)).filter (fun n => compared n s)
def failingCells (s : State) : List Nat := (comparedCells s).filter (fun n => comparisonFails n s)

theorem contains_comparedCells {n : Nat} (h1 : 1 ≤ n) (h24 : n ≤ 24) (s : State) : (comparedCells s).contains n = compared n s := by
  have hrange : ∃ k, k < 24 ∧ k + 1 = n := ⟨n - 1, by omega, by omega⟩
  rw [Bool.eq_iff_iff]
  simp [comparedCells, hrange]

theorem contains_failingCells {n : Nat} (h1 : 1 ≤ n) (h24 : n ≤ 24) (s : State) :
    (failingCells s).contains n = (compared n s && comparisonFails n s) := by
  have h : n ∈ comparedCells s ↔ compared n s = true := by rw [← contains_comparedCells h1 h24, List.contains_iff_mem]
  rw [Bool.eq_iff_iff]
  simp [failingCells, h]

/-- The failing cells whose persistence is over, with the decision of R158. -/
def verdictsOf (fails : List Nat) (s s1 : State) : List (Nat × Blame) :=
  ((failingCells s).filter (fun n => getF Reg.XCK_CFG_PERS s ≤ nth fails (n - 1) 0)).map (fun n => (n, decideBlame n s1))

/-- The cells that the decisions name for a blame. -/
def namedBy (l : List (Nat × Blame)) (b : Blame) : List Nat := (l.filter (fun e => e.2 == b)).map (·.1)

theorem mem_failingCells_of_named {n : Nat} {fails : List Nat} {s s1 : State} {b : Blame} (h : n ∈ namedBy (verdictsOf fails s s1) b) :
    n ∈ failingCells s := by
  obtain ⟨e, he, rfl⟩ := List.mem_map.1 h
  obtain ⟨m, hm, rfl⟩ := List.mem_map.1 (List.mem_of_mem_filter he)
  exact List.mem_of_mem_filter hm

/-- A mask that joins a register of blame adds none but cells whose comparison fails. -/
theorem blame_joined {n : Nat} {fails : List Nat} {s s1 : State} (w : Word) (b : Blame) (hok : comparisonFails n s = false) :
    (w ||| cellMask (fun n => (namedBy (verdictsOf fails s s1) b).contains n)).getLsbD n = w.getLsbD n := by
  have hnot : n ∉ namedBy (verdictsOf fails s s1) b := fun h => by
    have := List.of_mem_filter (mem_failingCells_of_named h)
    simp [hok] at this
  simp [BitVec.getLsbD_or, getLsbD_cellMask, hnot]

/-- What the comparisons of one interval leave, before the fences follow: the mismatches of the compared cells, and blame that none but a failing
comparison adds to (R157-R159). -/
structure CellsCompared (s u : State) : Prop where
  pending : u.pending = s.pending
  react : u.flt.react = s.flt.react
  blamed : u.flt.blamedP = s.flt.blamedP ∧ u.flt.blamedS = s.flt.blamedS
  fences : reg u Reg.CMS_FENCE = reg s Reg.CMS_FENCE ∧ reg u Reg.FLT_FENCE1 = reg s Reg.FLT_FENCE1
  xmis : ∀ n, 1 ≤ n → n ≤ 24 → compared n s = true → regBit Reg.XCK_XMIS n u = comparisonFails n s
  blame : ∀ a, a = Reg.XCK_BLAMEP ∨ a = Reg.XCK_BLAMES → ∀ n, (regBit a n s = true → regBit a n u = true) ∧
    (comparisonFails n s = false → regBit a n u = regBit a n s)

theorem crossCheck_compares (s : State) : ∃ u, crossCheck s = extendBlame u ∧ CellsCompared s u := by
  unfold crossCheck
  extract_lets cells failing x fails passed mis s1 verdicts named s2 s3
  refine ⟨_, rfl, ?_⟩
  obtain ⟨l, hpair⟩ := senseView_pairChecks s3
  have h3 : senseView s3 = senseView s2 := by
    simp only [s3, apply_ite senseView, senseView_intervalSource, ite_self]
  have hreg {a : Nat} (ha : senseReg a = true) : reg (pairChecks s3) a = reg s2 a := by
    rw [reg_of_senseView hpair ha, reg_withXck, reg_of_senseView h3 ha]
  have hp : (pairChecks s3).pending = s.pending := (congrArg (fun v => v.1.pending) hpair).trans (congrArg (fun v => v.1.pending) h3)
  have hr : (pairChecks s3).flt.react = s.flt.react := (congrArg (fun v => v.1.flt.react) hpair).trans (congrArg (fun v => v.1.flt.react) h3)
  have hbp : (pairChecks s3).flt.blamedP = s.flt.blamedP := (congrArg (fun v => v.1.flt.blamedP) hpair).trans (congrArg (fun v => v.1.flt.blamedP) h3)
  have hbs : (pairChecks s3).flt.blamedS = s.flt.blamedS := (congrArg (fun v => v.1.flt.blamedS) hpair).trans (congrArg (fun v => v.1.flt.blamedS) h3)
  have hx : reg s2 Reg.XCK_XMIS = mis := by
    rw [reg_setReg_other (by decide), reg_setReg_other (by decide), reg_setReg_same]
  have hbp2 : reg s2 Reg.XCK_BLAMEP = reg s Reg.XCK_BLAMEP ||| cellMask (fun n => (named .primary).contains n) := by
    rw [reg_setReg_other (by decide), reg_setReg_same, reg_setReg_other (by decide), reg_withXck]
  have hbs2 : reg s2 Reg.XCK_BLAMES = reg s Reg.XCK_BLAMES ||| cellMask (fun n => (named .secondary).contains n) := by
    rw [reg_setReg_same, reg_setReg_other (by decide), reg_withXck]
  have hfence {a : Nat} (ha : a = Reg.CMS_FENCE ∨ a = Reg.FLT_FENCE1) : reg s2 a = reg s a := by
    obtain rfl | rfl := ha <;>
      rw [reg_setReg_other (by decide), reg_setReg_other (by decide), reg_setReg_other (by decide), reg_withXck]
  refine ⟨hp, hr, ⟨hbp, hbs⟩, ⟨(hreg (by decide)).trans (hfence (.inl rfl)), (hreg (by decide)).trans (hfence (.inr rfl))⟩, fun n h1 h24 hc => ?_, ?_⟩
  · have hcell : cells.contains n = true := (contains_comparedCells h1 h24 s).trans hc
    have hfail : failing.contains n = comparisonFails n s := (contains_failingCells h1 h24 s).trans (by rw [hc, Bool.true_and])
    rw [regBit, hreg (by decide), hx, getLsbD_cellMask, decide_eq_true h1, decide_eq_true h24, if_pos hcell, hfail, Bool.and_self, Bool.true_and]
  · rintro a (rfl | rfl) n
    · rw [regBit, regBit, hreg (by decide), hbp2]
      exact ⟨fun h => by simp [h], blame_joined _ _⟩
    · rw [regBit, regBit, hreg (by decide), hbs2]
      exact ⟨fun h => by simp [h], blame_joined _ _⟩

/-! ## The suspect check and the rule for C0 -/

theorem senseView_suspectCheck (s : State) : ∃ l, senseView (suspectCheck s) = senseView { s with xck := { s.xck with suspects := l } } := by
  unfold suspectCheck
  split
  · exact ⟨s.xck.suspects, rfl⟩
  · extract_lets new
    split
    · exact ⟨s.xck.suspects, rfl⟩
    · exact ⟨_, senseView_planAbort _ _⟩

/-- The rule for C0 writes no register of the secondary side but the declarations, and queues nothing (R164). -/
theorem checkC0_keeps (s : State) : (checkC0 s).pending = s.pending ∧
    ∀ a, senseReg a = true → a ≠ Reg.XCK_OWSTAT → reg (checkC0 s) a = reg s a := by
  have hopen (t : State) : (declareOpen 0 t).pending = t.pending ∧ ∀ a, senseReg a = true → a ≠ Reg.XCK_OWSTAT → reg (declareOpen 0 t) a = reg t a :=
    ⟨congrArg (fun v => v.1.pending) (senseView_declareOpen 0 t), fun a ha hne =>
      (reg_of_senseView (senseView_declareOpen 0 t) ha).trans (reg_setRegBit_other hne _ _ _)⟩
  have hclear (t : State) : (clearOpen 0 t).pending = t.pending ∧ ∀ a, senseReg a = true → a ≠ Reg.XCK_OWSTAT → reg (clearOpen 0 t) a = reg t a :=
    ⟨congrArg (fun v => v.1.pending) (senseView_clearOpen 0 t), fun a ha hne =>
      (reg_of_senseView (senseView_clearOpen 0 t) ha).trans (reg_setRegBit_other hne _ _ _)⟩
  unfold checkC0
  split
  · exact ⟨rfl, fun _ _ _ => rfl⟩
  · extract_lets cond f p xck1 s1
    split
    · exact hopen s1
    · split
      · exact hclear s1
      · exact ⟨rfl, fun _ _ _ => rfl⟩

/-! ## CROSS_CHECK_COMPARISON -/

/-- The rules that follow a comparison leave mismatches and blame alone. -/
theorem comparison_follows (u : State) : (noteWindow (checkC0 (suspectCheck u))).pending = u.pending ∧
    ∀ a, blameReg a → reg (noteWindow (checkC0 (suspectCheck u))) a = reg u a := by
  obtain ⟨l, hsus⟩ := senseView_suspectCheck u
  obtain ⟨hpend, hregs⟩ := checkC0_keeps (suspectCheck u)
  have hw := senseView_noteWindow (checkC0 (suspectCheck u))
  refine ⟨(congrArg (fun v => v.1.pending) hw).trans (hpend.trans (congrArg (fun v => v.1.pending) hsus)), fun a ha => ?_⟩
  have hs := senseReg_of_blameReg ha
  have hne : a ≠ Reg.XCK_OWSTAT := by obtain rfl | rfl | rfl := ha <;> decide
  rw [reg_of_senseView hw hs, hregs a hs hne, reg_of_senseView hsus hs, reg_withXck]

/-- R155-R159: the comparison of an interval in which no fence begins. -/
theorem crossCheckComparison_clause {s : State} (hr : secondaryRuns s = true) (hserved : cellsServed s = true) (hcal : calRunning s = false)
    (hh : s.xck.harness = none) (h40 : fencedBy 40 s = false) (h41 : fencedBy 41 s = false) (hp : fencedPaths s = reg s Reg.CMS_FENCE)
    (hs : fencedSecondaries s = reg s Reg.FLT_FENCE1) : ∃ t, exec .crossCheckComparison s = .next t ∧
    (∀ n, 1 ≤ n → n ≤ 24 → compared n s = true → regBit Reg.XCK_XMIS n t = comparisonFails n s) ∧
    (∀ n, regBit Reg.XCK_BLAMEP n s = true → regBit Reg.XCK_BLAMEP n t = true) ∧
    (∀ n, regBit Reg.XCK_BLAMES n s = true → regBit Reg.XCK_BLAMES n t = true) ∧
    (∀ n, comparisonFails n s = false → regBit Reg.XCK_BLAMEP n t = regBit Reg.XCK_BLAMEP n s ∧
      regBit Reg.XCK_BLAMES n t = regBit Reg.XCK_BLAMES n s) ∧ t.pending = s.pending := by
  obtain ⟨u, hu, hc⟩ := crossCheck_compares s
  have hnext : exec .crossCheckComparison s = .next (noteWindow (checkC0 (suspectCheck (applyCellFences u)))) := by
    have hby (src : Nat) : fencedBy src u = fencedBy src s := by rw [fencedBy, fencedBy, hc.react]
    rw [← extendBlame_unfenced ((hby 40).trans h40) ((hby 41).trans h41), ← hu]
    refine (if_pos hr).trans ?_
    rw [if_neg (by simp [hcal, hh, hserved])]
  have hby (src : Nat) : fencedBy src u = fencedBy src s := by rw [fencedBy, fencedBy, hc.react]
  have hpaths : fencedPaths u = reg u Reg.CMS_FENCE := by
    rw [hc.fences.1, ← hp]; simp only [fencedPaths, hby, hc.blamed.1]
  have hsecs : fencedSecondaries u = reg u Reg.FLT_FENCE1 := by
    rw [hc.fences.2, ← hs]; simp only [fencedSecondaries, hby, hc.blamed.2]
  obtain ⟨hpend, hregs⟩ := comparison_follows (applyCellFences u)
  have hbit {a : Nat} (ha : blameReg a) (n : Nat) : regBit a n (noteWindow (checkC0 (suspectCheck (applyCellFences u)))) = regBit a n u := by
    rw [regBit, hregs a ha, reg_applyCellFences_settled ha hpaths hsecs, regBit]
  refine ⟨_, hnext, fun n h1 h24 hn => (hbit (.inl rfl) n).trans (hc.xmis n h1 h24 hn), fun n hn => ?_, fun n hn => ?_, fun n hok => ⟨?_, ?_⟩, ?_⟩
  · exact (hbit (.inr (.inl rfl)) n).trans ((hc.blame _ (.inl rfl) n).1 hn)
  · exact (hbit (.inr (.inr rfl)) n).trans ((hc.blame _ (.inr rfl) n).1 hn)
  · exact (hbit (.inr (.inl rfl)) n).trans ((hc.blame _ (.inl rfl) n).2 hok)
  · exact (hbit (.inr (.inr rfl)) n).trans ((hc.blame _ (.inr rfl) n).2 hok)
  · exact hpend.trans ((pending_of_books (books_applyCellFences u)).trans hc.pending)

theorem Changes.noteWindow (s : State) : Changes [.imp] (fun _ => False) s (noteWindow s) := by
  unfold Machine.noteWindow
  split
  · exact Changes.withImp s _
  · exact Changes.refl ..

/-- R149, R150: without secondary results, and with no two intervals to tell a step by, no cell and no tap is judged. -/
theorem crossCheckComparison_unserved {s : State} (hr : secondaryRuns s = true) (hserved : cellsServed s = false) (hi : s.xck.intervals < 2) :
    ∃ t, exec .crossCheckComparison s = .next t ∧ Changes [.imp] (fun _ => False) s t := by
  have hnext : exec .crossCheckComparison s = .next (noteWindow s) := by
    refine (if_pos hr).trans ?_
    rw [if_pos (by simp [hserved]), suspectCheck, if_pos (by simp [hi]), checkC0, if_pos (by simp [hserved])]
  exact ⟨_, hnext, Changes.noteWindow s⟩

end Sys2Proof.Machine
end

