-- ==== Sys2Proof/Proofs/IntervalBoundary.lean ====
section
/-!
PROOFS. The 64 Sa/s boundary of the secondary side: the counts and the bleed records that close, the results of the cells, and what the supervisions, the
measurements and the schedule that follow leave of them (R143, R145, R146, R149, R154, R155, R165).
-/
namespace Sys2Proof.Machine

/-! ## The means of the primary side -/

/-- What the primary means of an interval rest on: calibration, bleed records and switches, and every register below the fault collector's. -/
def meansView (s : State) : CalState × Nat × Nat × CpbState × XckState × (Nat → Word) :=
  (s.cal, s.free, s.ft, s.cpb, { s.xck with counted := [] }, fun a => if a < Reg.FLT_STAT then reg s a else 0#32)

theorem meansView_flt (s : State) (lines waiting : List Nat) : meansView { s with flt := { s.flt with lines := lines, waiting := waiting } } = meansView s :=
  (rfl)

theorem meansView_counted (s : State) (l : List Nat) : meansView { s with xck := { s.xck with counted := l } } = meansView s := (rfl)

theorem meansView_setLine (src : Nat) (b : Bool) (s : State) : meansView (setLine src b s) = meansView s := by
  have hact (k : Nat) (v : Bool) (t : State) : meansView (setRegBit (Reg.FLT_ACT (src / 32)) k v t) = meansView t := by
    have hr : (fun a => if a < Reg.FLT_STAT then reg (setRegBit (Reg.FLT_ACT (src / 32)) k v t) a else 0#32) =
        fun a => if a < Reg.FLT_STAT then reg t a else 0#32 := by
      funext a
      split
      · next ha => exact reg_setRegBit_other (by simp only [Reg.FLT_STAT, Reg.FLT_ACT] at ha ⊢; omega) k v t
      · rfl
    simp only [meansView, hr]; rfl
  simp only [setLine, apply_ite meansView, meansView_flt, hact, ite_self]

theorem meansView_pulse (src : Nat) (s : State) : meansView (pulse src s) = meansView s := by
  simp only [pulse, apply_ite meansView, meansView_flt, ite_self]

theorem meansView_countOnce (src : Nat) (s : State) : meansView (countOnce src s) = meansView s := by
  simp only [countOnce, apply_ite meansView, meansView_pulse, meansView_counted, meansView_setLine, ite_self]

theorem meansView_countAuxOver (s : State) : meansView (countAuxOver s) = meansView s := by
  simp only [countAuxOver, apply_ite meansView, meansView_countOnce, ite_self]

theorem meansView_countInterval (s : State) : meansView (countInterval s) = meansView s := by
  unfold countInterval
  extract_lets s1 s2
  have h1 : meansView s1 = meansView s := foldl_keeps meansView _ _ (fun t src _ => by simp only [apply_ite meansView, meansView_countOnce, ite_self]) s
  have h2 : meansView s2 = meansView s1 := by simp only [s2, drop, apply_ite meansView, meansView_setLine, ite_self]
  exact (meansView_counted s2 []).trans (h2.trans h1)

/-- The paths that conduct at a moment are marked in the records of the interval (R171). -/
def bleedMarked (flowing : Nat → Bool) (l : List Bled) : List Bled :=
  l.zipIdx.map (fun e => { e.1 with seen := e.1.seen || flowing (e.2 + 1) })

/-- A half that ends counts for the paths that conducted at both its ends (R236). -/
def halfCounted (on : Word) (flowing : Nat → Bool) (l : List Bled) : List Bled :=
  l.zipIdx.map (fun e => if on.getLsbD (e.2 + 1) && flowing (e.2 + 1) then { e.1 with full := e.1.full + 1 }
    else { e.1 with part := e.1.part || on.getLsbD (e.2 + 1) || flowing (e.2 + 1) })

theorem balInt_closeBleed (s : State) : (closeBleed s).xck.balInt =
    if s.xck.halfAt.any (fun t => decide (t + 7812500 ≤ s.ft)) then halfCounted s.xck.halfOn (flows · s) (bleedMarked (flows · s) s.xck.balInt)
    else bleedMarked (flows · s) s.xck.balInt := by
  unfold closeBleed
  split
  · next hover =>
    have hsome : (noteBleed s).xck.halfAt.isNone = false := by
      obtain ⟨e, he, -⟩ := (Option.any_eq_true _ _).1 hover
      exact congrArg Option.isNone he
    rw [closeHalf, if_neg (by simp [hsome])]
    rfl
  · rfl

/-- What the close of the bleed records leaves. -/
theorem closeBleed_keeps (s : State) : (closeBleed s).cal = s.cal ∧ (closeBleed s).free = s.free ∧ (closeBleed s).xck.uncorrected = s.xck.uncorrected ∧
    ∀ a, reg (closeBleed s) a = reg s a := by
  unfold closeBleed closeHalf
  split
  · split <;> exact ⟨rfl, rfl, rfl, fun _ => rfl⟩
  · exact ⟨rfl, rfl, rfl, fun _ => rfl⟩

section
variable {s t : State} (h : meansView t = meansView s)
include h

theorem reg_of_meansView {a : Nat} (ha : a < Reg.FLT_STAT) : reg t a = reg s a := by
  simpa [meansView, ha] using congrFun (congrArg (fun v => v.2.2.2.2.2) h) a

theorem getF_of_meansView {f : Field} (ha : f.addr < Reg.FLT_STAT) : getF f t = getF f s := getF_of_reg (reg_of_meansView h ha)

theorem flows_of_meansView (n : Nat) : flows n t = flows n s := by
  have hcpb : t.cpb = s.cpb := congrArg (fun v => v.2.2.2.1) h
  simp only [flows, conducts, getF_of_meansView h (f := Reg.CPB_BALSTAT_ON) (by decide), hcpb]

/-- The records of the bleed paths close by the same (R171, R236). -/
theorem balInt_closeBleed_of_meansView : (closeBleed t).xck.balInt = (closeBleed s).xck.balInt := by
  have hft : t.ft = s.ft := congrArg (fun v => v.2.2.1) h
  have hint : t.xck.balInt = s.xck.balInt := congrArg (fun v => v.2.2.2.2.1.balInt) h
  have hat : t.xck.halfAt = s.xck.halfAt := congrArg (fun v => v.2.2.2.2.1.halfAt) h
  have hon : t.xck.halfOn = s.xck.halfOn := congrArg (fun v => v.2.2.2.2.1.halfOn) h
  simp only [balInt_closeBleed, hft, hint, hat, hon, flows_of_meansView h]

theorem primaryMeans_closeBleed_of_meansView (prim : List (List Int)) : primaryMeans prim (closeBleed t) = primaryMeans prim (closeBleed s) := by
  have hcal : (closeBleed t).cal = (closeBleed s).cal := by rw [(closeBleed_keeps t).1, (closeBleed_keeps s).1]; exact congrArg Prod.fst h
  have hfree : (closeBleed t).free = (closeBleed s).free := by
    rw [(closeBleed_keeps t).2.1, (closeBleed_keeps s).2.1]; exact congrArg (fun v => v.2.1) h
  have hun : (closeBleed t).xck.uncorrected = (closeBleed s).xck.uncorrected := by
    rw [(closeBleed_keeps t).2.2.1, (closeBleed_keeps s).2.2.1]; exact congrArg (fun v => v.2.2.2.2.1.uncorrected) h
  have hreg (a : Nat) (ha : a < Reg.FLT_STAT) : reg (closeBleed t) a = reg (closeBleed s) a := by
    rw [(closeBleed_keeps t).2.2.2, (closeBleed_keeps s).2.2.2]; exact reg_of_meansView h ha
  have hmode : compensates (closeBleed t) = compensates (closeBleed s) := by rw [compensates, compensates, getF, getF, hreg _ (by decide)]
  have hwire (k : Nat) (hk : k ≤ 24) : wireRes k (closeBleed t) = wireRes k (closeBleed s) := by
    rw [wireRes, wireRes, hreg _ (by simp only [Reg.XCK_HRES, Reg.FLT_STAT]; omega)]
  have hbleed : bleedRes (closeBleed t) = bleedRes (closeBleed s) := by rw [bleedRes, bleedRes, getF, getF, hreg _ (by decide)]
  have hfrac : intervalFraction (closeBleed t) = intervalFraction (closeBleed s) := by
    funext k; simp only [intervalFraction, balInt_closeBleed_of_meansView h, hfree]
  have herr (k : Nat) (hk : k < 24) (f : Nat → Int) : balError (k + 1) f 256 (closeBleed t) = balError (k + 1) f 256 (closeBleed s) := by
    simp only [balError, hun, hbleed, hwire (k + 1) hk, hwire (k + 1 - 1) (by omega)]
  simp only [primaryMeans, calCorrect, hcal, hmode, hfrac, Prod.mk.injEq, and_true]
  refine List.map_congr_left fun k hk => ?_
  rw [herr k (List.mem_range.1 hk)]

end
/-! ## The interval that ends -/

/-- The state in which the interval's events are counted and its bleed records closed (R171, R177, R236). -/
def intervalCounted (s : State) : State := closeBleed (countInterval (countAuxOver s))

theorem senseView_closeHalf (s : State) : senseView (closeHalf s) = senseView s := by
  unfold closeHalf
  split
  · rfl
  · exact senseView_xck ..

theorem senseView_closeBleed (s : State) : senseView (closeBleed s) = senseView s := by
  unfold closeBleed
  extract_lets s1
  have h1 : senseView s1 = senseView s := by simp only [s1, apply_ite senseView, senseView_closeHalf, senseView_noteBleed, ite_self]
  have hrun (t : State) (l : List (Nat × Nat)) : senseView { t with xck := { t.xck with balRun := l } } = senseView t := rfl
  exact (hrun s1 _).trans h1

theorem senseView_countInterval (s : State) : senseView (countInterval s) = senseView s := by
  unfold countInterval
  extract_lets s1 s2
  have h1 : senseView s1 = senseView s := foldl_keeps senseView _ _ (fun t src _ => by simp only [apply_ite senseView, senseView_countOnce, ite_self]) s
  have h2 : senseView s2 = senseView s1 := by simp only [s2, apply_ite senseView, senseView_drop, ite_self]
  have hcounted (t : State) (l : List Nat) : senseView { t with xck := { t.xck with counted := l } } = senseView t := rfl
  exact (hcounted s2 []).trans (h2.trans h1)

theorem senseView_intervalCounted (s : State) : senseView (intervalCounted s) = senseView s := by
  simp only [intervalCounted, countAuxOver, senseView_closeBleed, senseView_countInterval, apply_ite senseView, senseView_countOnce, ite_self]

/-- R155, R171: the count of an auxiliary over-range moves no mean. -/
theorem primaryMeans_intervalCounted (prim : List (List Int)) (s : State) :
    primaryMeans prim (intervalCounted s) = primaryMeans prim (closeBleed (countInterval s)) := by
  refine primaryMeans_closeBleed_of_meansView ?_ prim
  rw [meansView_countInterval, meansView_countAuxOver, meansView_countInterval]

/-! ## Result words -/

/-- The bits and the sequence number of a result that is a measurement (R146). -/
theorem resultWord_valid (old : Word) (settle isOpen ovr : Bool) (value : Int) :
    (resultWord old true settle isOpen ovr value).getLsbD 31 = true ∧ (resultWord old true settle isOpen ovr value).getLsbD 28 = ovr ∧
    getBits (resultWord old true settle isOpen ovr value) 24 4 = (getBits old 24 4 + 1) % 16 := by
  have hs : b2n settle ≤ 1 := by cases settle <;> decide
  have ho : b2n isOpen ≤ 1 := by cases isOpen <;> decide
  have hv : unsigned 24 value < 2 ^ 24 := by unfold unsigned; omega
  have hq : (getBits old 24 4 + 1) % 16 < 16 := Nat.mod_lt _ (by decide)
  simp only [resultWord, if_true]
  generalize b2n settle = a at *
  generalize b2n isOpen = b at *
  generalize unsigned 24 value = v at *
  generalize (getBits old 24 4 + 1) % 16 = q at *
  have hr : b2n ovr ≤ 1 := by cases ovr <;> decide
  have hn : 2 ^ 31 + a * 2 ^ 30 + b * 2 ^ 29 + b2n ovr * 2 ^ 28 + q * 2 ^ 24 + v < 2 ^ 32 := by omega
  refine ⟨?_, ?_, ?_⟩
  · rw [BitVec.getLsbD_ofNat, Nat.testBit_eq_decide_div_mod_eq]
    simp; omega
  · rw [BitVec.getLsbD_ofNat, Nat.testBit_eq_decide_div_mod_eq]
    have hbit : (2 ^ 31 + a * 2 ^ 30 + b * 2 ^ 29 + b2n ovr * 2 ^ 28 + q * 2 ^ 24 + v) / 2 ^ 28 % 2 = b2n ovr := by omega
    rw [hbit]; cases ovr <;> rfl
  · rw [getBits, BitVec.toNat_ushiftRight, BitVec.toNat_ofNat, Nat.mod_eq_of_lt hn, Nat.shiftRight_eq_div_pow]
    omega

/-! ## The results of the cells -/

/-- The interval result of cell k + 1 takes its word, unless the cell's primary path is fenced (R145, R146, R186). -/
def closeCell (rs : List Reading) (t : State) (k : Nat) : State :=
  if regBit Reg.CMS_FENCE (k + 1) t then t
  else setReg (Reg.XCK_CELL k) (resultWord (reg t (Reg.XCK_CELL k)) (cellMeasured (k + 1) t) (cellUnsettled (k + 1) t) (openAt (k + 1) t)
    (nth rs k ⟨0, false⟩).ovr (secondaryValue (k + 1) (nth rs k ⟨0, false⟩) (intervalFraction t) t)) t

theorem closeCells_eq (rs : List Reading) (s : State) : closeCells rs s = (List.range 24).foldl (closeCell rs) (measureCells rs s) := rfl

theorem cell_inj {i j : Nat} : Reg.XCK_CELL i = Reg.XCK_CELL j ↔ i = j := by simp only [Reg.XCK_CELL]; omega

theorem reg_closeCell_other {a k : Nat} (h : a ≠ Reg.XCK_CELL k) (rs : List Reading) (t : State) : reg (closeCell rs t k) a = reg t a := by
  unfold closeCell
  split
  · rfl
  · exact reg_setReg_other h _ t

/-- Closing a cell's result touches the register file alone. -/
theorem senseView_closeCell (rs : List Reading) (t : State) (k : Nat) : (senseView (closeCell rs t k)).1 = (senseView t).1 := by
  unfold closeCell
  split <;> rfl

/-- Of steps that each write one register of an array, the register at an index is what its own step writes. -/
theorem reg_foldl_range {f : State → Nat → State} {addr : Nat → Nat} (hinj : ∀ {i j}, addr i = addr j ↔ i = j)
    (hf : ∀ t i a, a ≠ addr i → reg (f t i) a = reg t a) {k n : Nat} (hk : k < n) (s : State) :
    reg ((List.range n).foldl f s) (addr k) = reg (f ((List.range k).foldl f s) k) (addr k) := by
  induction n with
  | zero => omega
  | succ n ih =>
    rw [List.range_succ, List.foldl_append, List.foldl_cons, List.foldl_nil]
    by_cases h : k = n
    · rw [h]
    · rw [hf _ _ _ (fun e => h (hinj.1 e)), ih (by omega)]

/-- R145, R146: with a converter in service and no fence of the cell, its word is a new measurement. -/
theorem reg_closeCells {k : Nat} (hk : k < 24) (rs : List Reading) {s : State} (hserved : cellsServed s = true)
    (hp : regBit Reg.CMS_FENCE (k + 1) s = false) (hs : regBit Reg.FLT_FENCE1 (k + 1) s = false) : ∃ st op v,
    reg (closeCells rs s) (Reg.XCK_CELL k) = resultWord (reg s (Reg.XCK_CELL k)) true st op (nth rs k ⟨0, false⟩).ovr v := by
  have hbefore {a : Nat} (h : ∀ i, i < k → a ≠ Reg.XCK_CELL i) :
      reg ((List.range k).foldl (closeCell rs) (measureCells rs s)) a = reg s a :=
    (reg_foldl (closeCell rs) _ (fun t i hi => reg_closeCell_other (h i (List.mem_range.1 hi)) rs t) (measureCells rs s)).trans (reg_withXck s _ a)
  have hstate : (senseView ((List.range k).foldl (closeCell rs) (measureCells rs s))).1 = (senseView (measureCells rs s)).1 :=
    foldl_keeps (fun t => (senseView t).1) _ _ (fun t i _ => senseView_closeCell rs t i) _
  rw [closeCells_eq, reg_foldl_range cell_inj (fun t i a h => reg_closeCell_other h rs t) hk]
  generalize (List.range k).foldl (closeCell rs) (measureCells rs s) = t at hbefore hstate
  have hunused : t.cms.unused = s.cms.unused := congrArg (fun v => v.cms.unused) hstate
  have hmode : getF Reg.XCK_STAT_MODE t = getF Reg.XCK_STAT_MODE s :=
    getF_of_reg (hbefore fun i _ => by simp only [Reg.XCK_STAT_MODE, Reg.XCK_STAT, Reg.XCK_CELL]; omega)
  have hsecond : regBit Reg.FLT_FENCE1 (k + 1) t = false := by
    rw [regBit, hbefore fun i hi => by simp only [Reg.XCK_CELL, Reg.FLT_FENCE1]; omega, ← regBit, hs]
  have hmeasured : cellMeasured (k + 1) t = true := by
    rw [cellMeasured, hsecond, cellsServed, unusedCells, hmode, hunused, ← unusedCells, ← cellsServed, hserved]; rfl
  have hfree : ¬ regBit Reg.CMS_FENCE (k + 1) t = true := by
    rw [regBit, hbefore fun i _ => by simp only [Reg.XCK_CELL, Reg.CMS_FENCE]; omega, ← regBit, hp]; decide
  rw [closeCell, if_neg hfree, reg_setReg_same, hmeasured, hbefore fun i hi h => by have := cell_inj.1 h; omega]
  exact ⟨_, _, _, rfl⟩

/-- A register that is no cell's word stands through the cells' results. -/
theorem reg_closeCells_other {a : Nat} (h : ∀ k, k < 24 → a ≠ Reg.XCK_CELL k) (rs : List Reading) (s : State) : reg (closeCells rs s) a = reg s a :=
  (reg_foldl (closeCell rs) _ (fun t k hk => reg_closeCell_other (h k (List.mem_range.1 hk)) rs t) (measureCells rs s)).trans (reg_withXck s _ a)

/-! ## What the results of an interval write -/

/-- From `s` to `t` nothing but the register file may differ. -/
def RegsOnly (s t : State) : Prop := ∃ r, t = { s with regs := r }

theorem RegsOnly.refl (s : State) : RegsOnly s s := ⟨s.regs, rfl⟩

theorem RegsOnly.setReg (a : Nat) (v : Word) (s : State) : RegsOnly s (setReg a v s) := ⟨_, rfl⟩

theorem RegsOnly.trans {s t u : State} (h : RegsOnly s t) (h' : RegsOnly t u) : RegsOnly s u := by
  obtain ⟨r, rfl⟩ := h
  obtain ⟨r', rfl⟩ := h'
  exact ⟨r', rfl⟩

theorem RegsOnly.foldl {α : Type} (f : State → α → State) (l : List α) (h : ∀ t x, RegsOnly t (f t x)) (s : State) : RegsOnly s (l.foldl f s) := by
  induction l generalizing s with
  | nil => exact .refl s
  | cons x l ih => exact (h s x).trans (ih (f s x))

theorem RegsOnly.closeCell (rs : List Reading) (t : State) (k : Nat) : RegsOnly t (closeCell rs t k) := by
  unfold Machine.closeCell
  split
  · exact .refl t
  · exact .setReg _ _ t

theorem closeCells_parts (rs : List Reading) (s : State) :
    ∃ r sec, closeCells rs s = { s with regs := r, xck := { s.xck with second := sec } } := by
  obtain ⟨r, hr⟩ := RegsOnly.foldl (closeCell rs) (List.range 24) (RegsOnly.closeCell rs) (measureCells rs s)
  exact ⟨r, (measureCells rs s).xck.second, (closeCells_eq rs s).trans hr⟩

theorem RegsOnly.withAxChanged {s t : State} (h : RegsOnly s t) (ch : List Bool) :
    ∃ r, { t with xck := { t.xck with axChanged := ch } } = { s with regs := r, xck := { s.xck with axChanged := ch } } := by
  obtain ⟨r, rfl⟩ := h
  exact ⟨r, rfl⟩

theorem closeOthers_parts (rs : List Reading) (s : State) :
    ∃ r ch, closeOthers rs s = { s with regs := r, xck := { s.xck with axChanged := ch } } := by
  unfold closeOthers
  extract_lets settle s1 v s2 s3
  have h1 : RegsOnly s s1 := .foldl _ _ (fun t _ => .setReg _ _ t) s
  have h2 : RegsOnly s1 s2 := .setReg _ _ s1
  have h3 : RegsOnly s2 s3 := .foldl _ _ (fun t _ => .setReg _ _ t) s2
  obtain ⟨r, h⟩ := ((h1.trans h2).trans h3).withAxChanged (List.replicate 16 false)
  exact ⟨r, _, h⟩

/-- The results of the pairs, of VMSNS and of the auxiliary inputs lie above those of the cells. -/
theorem reg_closeOthers {a : Nat} (h : a < Reg.XCK_PAIR 0) (rs : List Reading) (s : State) : reg (closeOthers rs s) a = reg s a := by
  have hv : a ≠ Reg.XCK_VMOD := Nat.ne_of_lt (Nat.lt_trans h (by decide))
  simp only [Reg.XCK_PAIR] at h
  unfold closeOthers
  extract_lets settle s1 v s2 s3
  have h1 : reg s1 a = reg s a := reg_foldl _ _ (fun t k _ => reg_setReg_other (by simp only [Reg.XCK_PAIR]; omega) _ t) s
  have h2 : reg s2 a = reg s1 a := reg_setReg_other hv _ s1
  have h3 : reg s3 a = reg s2 a := reg_foldl _ _ (fun t k _ => reg_setReg_other (by simp only [Reg.XCK_AX]; omega) _ t) s2
  rw [reg_withXck, h3, h2, h1]

/-- The readings of the 64 inputs in the interval that ends (R145). -/
def intervalReadings (s : State) : List Reading := (List.range 64).map (fun j => intervalReading j s)

/-- The state in which the interval's secondary results stand, where a converter is in service (R145, R149). -/
def resultsClosed (s : State) : State :=
  if getF Reg.XCK_STAT_MODE s = 3 then s else closeOthers (intervalReadings s) (closeCells (intervalReadings s) s)

theorem resultsClosed_parts (s : State) :
    ∃ r sec ch, resultsClosed s = { s with regs := r, xck := { s.xck with second := sec, axChanged := ch } } := by
  unfold resultsClosed
  split
  · exact ⟨s.regs, s.xck.second, s.xck.axChanged, rfl⟩
  · obtain ⟨r, sec, hc⟩ := closeCells_parts (intervalReadings s) s
    obtain ⟨r', ch, ho⟩ := closeOthers_parts (intervalReadings s) (closeCells (intervalReadings s) s)
    exact ⟨r', sec, ch, by rw [ho, hc]⟩

/-- Below the words of the cells no register changes as the results close. -/
theorem reg_resultsClosed {a : Nat} (h : a < Reg.XCK_CELL 0) (s : State) : reg (resultsClosed s) a = reg s a := by
  unfold resultsClosed
  split
  · rfl
  · rw [reg_closeOthers (Nat.lt_trans h (by decide)), reg_closeCells_other fun k _ => by simp only [Reg.XCK_CELL] at h ⊢; omega]

theorem tapOpen_resultsClosed (k : Nat) (s : State) : tapOpen k (resultsClosed s) = tapOpen k s := by
  rw [tapOpen, regBit, reg_resultsClosed (by decide), tapOpen, regBit]

/-! ## What follows the results -/

theorem senseView_sumCheck (s : State) : senseView (sumCheck s) = senseView s := by
  unfold sumCheck
  split
  · rfl
  · extract_lets w vm sec fenced sum s1 skip beyond pers f p xck2 s2 s3
    have h1 : senseView s1 = senseView s := senseView_setReg (by decide) _ s
    have h2 : senseView s2 = senseView s1 := senseView_xck ..
    have h3 : senseView s3 = senseView s1 := by simp only [s3, apply_ite senseView, senseView_drop, h2, ite_self]
    simp only [apply_ite senseView, senseView_pulse, senseView_setLine, h3, h1, ite_self]

theorem senseView_supervise (n : Nat) (v parts : Int) (s : State) : senseView (supervise n v parts s) = senseView s := by
  simp only [supervise, apply_ite senseView, senseView_tripActions, senseView_xck, ite_self]

theorem senseView_unsupervise (n : Nat) (s : State) : senseView (unsupervise n s) = senseView s := senseView_xck ..

/-- The pairs stand in for the cells of open taps (R165). -/
def pairsSupervised (s : State) : State :=
  (List.range 23).foldl (fun t k =>
    let n := k + 1
    let w := reg t (Reg.XCK_PAIR k)
    if openAlone n t && resultValid w then supervise n (2 * resultValue w) 2 t else unsupervise n t) s

theorem senseView_pairsSupervised (s : State) : senseView (pairsSupervised s) = senseView s :=
  senseView_foldl _ _ (fun t k _ => by simp only [apply_ite senseView, senseView_supervise, senseView_unsupervise, ite_self]) s

/-- The value that stands in for cell 24, in µV (R165). -/
def substituteValue (s : State) : Int := residue24 s.xck.pmean (getBits (reg s Reg.XCK_VMOD) 0 24)

theorem superviseOpen_eq (s : State) : superviseOpen s =
    if openAlone 24 (pairsSupervised s) && bit Reg.XCK_CFG_VMSW (pairsSupervised s) && resultValid (reg (pairsSupervised s) Reg.XCK_VMOD) then
      supervise 24 (substituteValue (pairsSupervised s)) 1
        (setReg (Reg.XCK_CELL 23) (substituteWord (substituteValue (pairsSupervised s)) (pairsSupervised s)) (pairsSupervised s))
    else unsupervise 24 (pairsSupervised s) := rfl

/-- While C24 is not declared open, the supervision of open taps writes no result (R165). -/
theorem senseView_superviseOpen {s : State} (h : tapOpen 24 s = false) : senseView (superviseOpen s) = senseView s := by
  have hp : senseView (pairsSupervised s) = senseView s := senseView_pairsSupervised s
  have halone : openAlone 24 (pairsSupervised s) = false := by simp [openAlone, tapOpen_of_senseView hp, h]
  rw [superviseOpen_eq, if_neg (by simp [halone]), senseView_unsupervise, hp]

/-- The supervision of open taps changes no state of the secondary side but crossings: the substitute of cell 24 is a register. -/
theorem senseState_superviseOpen (s : State) : (senseView (superviseOpen s)).1 = (senseView s).1 := by
  have hp : senseView (pairsSupervised s) = senseView s := senseView_pairsSupervised s
  have hreg (v : Int) (w : Word) (t : State) : (senseView (supervise 24 v 1 (setReg (Reg.XCK_CELL 23) w t))).1 = (senseView t).1 := by
    rw [senseView_supervise]; rfl
  rw [superviseOpen_eq]
  split
  · exact (hreg _ _ (pairsSupervised s)).trans (congrArg Prod.fst hp)
  · rw [senseView_unsupervise, hp]

theorem senseView_harnessInterval (v : List Int) (s : State) : senseView (harnessInterval v s) = senseView s := by
  unfold harnessInterval
  split
  · rfl
  · split
    · rfl
    · extract_lets i n h1 d est broken h2 xck1 s1 on
      have hs1 : senseView s1 = senseView s := senseView_xck ..
      simp (disch := decide) only [apply_ite senseView, senseView_harnessAbort, senseView_noteBleed, senseView_setF, hs1, ite_self]

theorem scheduleTests_parts (s : State) : ∃ due later tap pend,
    scheduleTests s = { s with xck := { s.xck with due := due, later := later, sweepTap := tap, sweepPend := pend } } := by
  unfold scheduleTests
  extract_lets x per sweep pend frames fresh queue taps
  split
  · exact ⟨[], x.later, sweep, pend, rfl⟩
  · exact ⟨_, _, sweep, pend, rfl⟩

/-! ## The boundary -/

/-- What a boundary settles beside the results: the means, the counts and marks of the interval, and the parts of the state that it leaves. -/
structure IntervalView where
  pprev : List Int
  pmean : List Int
  intervals : Nat
  firstInterval : Bool
  modeChanged : Bool
  frame : Nat
  intervalAt : Nat
  cal : CalState
  sys : SysState
  cnv : CnvState
  pending : List Instr

def intervalView (s : State) : IntervalView :=
  ⟨s.xck.pprev, s.xck.pmean, s.xck.intervals, s.xck.firstInterval, s.xck.modeChanged, s.xck.frame, s.xck.intervalAt, s.cal, s.sys, s.cnv, s.pending⟩

theorem intervalView_of_senseState {s t : State} (h : (senseView t).1 = (senseView s).1) : intervalView t = intervalView s := by
  have hv : intervalView (senseView t).1 = intervalView (senseView s).1 := by rw [h]
  exact hv

theorem ft_of_senseState {s t : State} (h : (senseView t).1 = (senseView s).1) : t.ft = s.ft := by
  have hft : (senseView t).1.ft = (senseView s).1.ft := by rw [h]
  exact hft

theorem intervalView_scheduleTests (s : State) : intervalView (scheduleTests s) = intervalView s := by
  obtain ⟨due, later, tap, pend, h⟩ := scheduleTests_parts s
  rw [h]; rfl

theorem reg_scheduleTests (s : State) (a : Nat) : reg (scheduleTests s) a = reg s a := by
  obtain ⟨due, later, tap, pend, h⟩ := scheduleTests_parts s
  rw [h, reg_withXck]

theorem intervalView_resultsClosed (s : State) : intervalView (resultsClosed s) = intervalView s := by
  obtain ⟨r, sec, ch, h⟩ := resultsClosed_parts s
  rw [h]; rfl

theorem ft_resultsClosed (s : State) : (resultsClosed s).ft = s.ft := by
  obtain ⟨r, sec, ch, h⟩ := resultsClosed_parts s
  rw [h]

/-- The state in which the means of both sides have moved on (R155); `s` as the interval's counts closed, `t` with its results. -/
def meansTaken (prim : List (List Int)) (s t : State) : State :=
  { t with
    free := if compensates t then t.free + 32 else t.free
    xck := { t.xck with
      pprev := t.xck.pmean, pmean := (primaryMeans prim s).1, uncorrected := (primaryMeans prim s).2
      psettle := (List.range 24).map (fun k => t.xck.firstInterval || meanSettles (k + 1) t.ft t)
      pairPrev := t.xck.pairMean
      pairMean := (List.range 23).map (fun k => 2 * resultValue (reg t (Reg.XCK_PAIR k)))
      vmsnsPrev := t.xck.vmsns, vmsns := getBits (reg t Reg.XCK_VMOD) 0 24
      intervals := min (t.xck.intervals + 1) 2 } }

theorem ft_meansTaken (prim : List (List Int)) (s t : State) : (meansTaken prim s t).ft = t.ft := rfl
theorem reg_meansTaken (prim : List (List Int)) (s t : State) (a : Nat) : reg (meansTaken prim s t) a = reg t a := rfl
theorem tapOpen_meansTaken (prim : List (List Int)) (s t : State) (k : Nat) : tapOpen k (meansTaken prim s t) = tapOpen k t := rfl

theorem intervalView_meansTaken (prim : List (List Int)) (s t : State) : intervalView (meansTaken prim s t) =
    { intervalView t with pprev := t.xck.pmean, pmean := (primaryMeans prim s).1, intervals := min (t.xck.intervals + 1) 2 } := rfl

/-- The checks and supervisions of an interval, and then the next one (R143, R154, R165). -/
def nextInterval (s : State) : State := openInterval (superviseOpen (sumCheck s))

/-- What follows the results of an interval; `raw`: the readings for a harness measurement. -/
def intervalFollowed (raw : List Int) (s : State) : State := noteWindow (sendPairTick (scheduleTests (harnessInterval raw (nextInterval s))))

/-- The readings of the cells without compensation, in µV, which a harness measurement takes (R175). -/
def rawReadings (s : State) : List Int :=
  (List.range 24).map (fun k => secondaryCode (k + 1) (nth (intervalReadings s) k ⟨0, false⟩) s / 256)

/-- The state that a boundary leaves; `s` as the interval's counts closed. -/
def boundaryPassed (prim : List (List Int)) (s : State) : State :=
  intervalFollowed (rawReadings s) (meansTaken prim s (resultsClosed s))

theorem exec_intervalBoundary {s : State} (hr : secondaryRuns s = true) (prim : List (List Int)) :
    exec (.intervalBoundary prim) s = .next (boundaryPassed prim (intervalCounted s)) := by
  change execIntervalBoundary prim s = _
  unfold execIntervalBoundary intervalCounted
  rw [if_pos hr]
  generalize closeBleed (countInterval (countAuxOver s)) = s0
  rfl

theorem intervalView_openInterval (s : State) : intervalView (openInterval s) =
    { intervalView s with firstInterval := false, modeChanged := false, frame := 0, intervalAt := s.ft } := rfl

theorem intervalView_nextInterval (s : State) : intervalView (nextInterval s) =
    { intervalView s with firstInterval := false, modeChanged := false, frame := 0, intervalAt := s.ft } := by
  have hstate : (senseView (superviseOpen (sumCheck s))).1 = (senseView s).1 := by rw [senseState_superviseOpen, senseView_sumCheck]
  rw [nextInterval, intervalView_openInterval, intervalView_of_senseState hstate, ft_of_senseState hstate]

theorem senseView_intervalFollowed (raw : List Int) (s : State) :
    senseView (intervalFollowed raw s) = senseView (scheduleTests (harnessInterval raw (nextInterval s))) :=
  (senseView_noteWindow _).trans (senseView_sendPairTick _)

theorem intervalView_intervalFollowed (raw : List Int) (s : State) : intervalView (intervalFollowed raw s) =
    { intervalView s with firstInterval := false, modeChanged := false, frame := 0, intervalAt := s.ft } := by
  rw [intervalView_of_senseState (congrArg Prod.fst (senseView_intervalFollowed raw s)), intervalView_scheduleTests,
    intervalView_of_senseState (congrArg Prod.fst (senseView_harnessInterval raw (nextInterval s))), intervalView_nextInterval]

theorem reg_openInterval (s : State) (a : Nat) : reg (openInterval s) a = reg s a := rfl

/-- R165: while C24 is not declared open, the words of the results stand through what follows them. -/
theorem reg_intervalFollowed {a : Nat} (ha : senseReg a = true) (raw : List Int) {s : State} (h24 : tapOpen 24 s = false) :
    reg (intervalFollowed raw s) a = reg s a := by
  have hopen : tapOpen 24 (sumCheck s) = false := (tapOpen_of_senseView (senseView_sumCheck s) 24).trans h24
  rw [reg_of_senseView (senseView_intervalFollowed raw s) ha, reg_scheduleTests, reg_of_senseView (senseView_harnessInterval raw _) ha,
    nextInterval, reg_openInterval, reg_of_senseView (senseView_superviseOpen hopen) ha, reg_of_senseView (senseView_sumCheck s) ha]

/-- R143, R155: the view of the state after a boundary. -/
theorem intervalView_boundaryPassed (prim : List (List Int)) (s : State) : intervalView (boundaryPassed prim s) =
    { intervalView s with
      pprev := (intervalView s).pmean, pmean := (primaryMeans prim s).1, intervals := min ((intervalView s).intervals + 1) 2
      firstInterval := false, modeChanged := false, frame := 0, intervalAt := s.ft } := by
  rw [boundaryPassed, intervalView_intervalFollowed, ft_meansTaken, ft_resultsClosed, intervalView_meansTaken,
    show (resultsClosed s).xck.pmean = (intervalView s).pmean from congrArg IntervalView.pmean (intervalView_resultsClosed s),
    show (resultsClosed s).xck.intervals = (intervalView s).intervals from congrArg IntervalView.intervals (intervalView_resultsClosed s),
    intervalView_resultsClosed]

/-- What a view says of the parts of the state. -/
theorem intervalView_inj {s t : State} {means : List Int}
    (h : intervalView t = { intervalView s with
      pprev := (intervalView s).pmean, pmean := means, intervals := min ((intervalView s).intervals + 1) 2
      firstInterval := false, modeChanged := false, frame := 0, intervalAt := s.ft }) :
    t.xck.pprev = s.xck.pmean ∧ t.xck.pmean = means ∧ t.xck.intervals = min (s.xck.intervals + 1) 2 ∧ t.xck.firstInterval = false ∧
    t.xck.modeChanged = false ∧ t.xck.frame = 0 ∧ t.xck.intervalAt = s.ft ∧ t.cal = s.cal ∧ t.sys = s.sys ∧ t.cnv = s.cnv ∧
    t.pending = s.pending := by
  simpa [intervalView, and_assoc] using h

/-- R143, R149, R155: the means move on, the interval is counted, and the next one begins. -/
theorem intervalBoundary_counts {s : State} (hr : secondaryRuns s = true) (prim : List (List Int)) :
    ∃ t, exec (.intervalBoundary prim) s = .next t ∧ t.xck.pprev = s.xck.pmean ∧
    t.xck.pmean = (primaryMeans prim (closeBleed (countInterval s))).1 ∧ t.xck.intervals = min (s.xck.intervals + 1) 2 ∧ t.xck.firstInterval = false ∧
    t.xck.modeChanged = false ∧ t.xck.frame = 0 ∧ t.xck.intervalAt = s.ft ∧ t.cal = s.cal ∧ t.sys = s.sys ∧ t.cnv = s.cnv ∧
    t.pending = s.pending := by
  have hstate : (senseView (intervalCounted s)).1 = (senseView s).1 := congrArg Prod.fst (senseView_intervalCounted s)
  refine ⟨_, exec_intervalBoundary hr prim, intervalView_inj ?_⟩
  rw [intervalView_boundaryPassed, intervalView_of_senseState hstate, ft_of_senseState hstate, primaryMeans_intervalCounted]

theorem senseReg_cell {k : Nat} (hk : k < 24) : senseReg (Reg.XCK_CELL k) = true := by
  have h : Reg.XCK_CFG ≤ Reg.XCK_CELL k ∧ Reg.XCK_CELL k < Reg.IMP_CFG ∧ Reg.XCK_CELL k ≠ Reg.XCK_HRCMD ∧ Reg.XCK_CELL k ≠ Reg.XCK_SUMDIFF := by
    simp only [Reg.XCK_CFG, Reg.XCK_CELL, Reg.IMP_CFG, Reg.XCK_HRCMD, Reg.XCK_SUMDIFF]; omega
  simp [senseReg, h]

/-- With C24 not declared open, the words of the cells are those with which their results closed. -/
theorem reg_boundaryPassed_cell {k : Nat} (hk : k < 24) {s : State} (h24 : tapOpen 24 s = false) (prim : List (List Int)) :
    reg (boundaryPassed prim s) (Reg.XCK_CELL k) = reg (resultsClosed s) (Reg.XCK_CELL k) := by
  have hopen : tapOpen 24 (meansTaken prim s (resultsClosed s)) = false := by rw [tapOpen_meansTaken, tapOpen_resultsClosed, h24]
  rw [boundaryPassed, reg_intervalFollowed (senseReg_cell hk) _ hopen, reg_meansTaken]

theorem ovr_intervalReadings {k : Nat} (hk : k < 64) (s : State) :
    (nth (intervalReadings s) k ⟨0, false⟩).ovr = (nth s.xck.slots k ⟨0, 0, false, []⟩).ovr := by
  rw [intervalReadings, nth_range_map _ _ _ _ hk, intervalReading]; rfl

/-- R145, R146: a served cell's result word at a boundary; `s` as the interval's counts closed. -/
theorem reg_boundaryPassed_served {k : Nat} {s : State} (hserved : cellsServed s = true) (hk : k < 24) (h24 : tapOpen 24 s = false)
    (hp : regBit Reg.CMS_FENCE (k + 1) s = false) (hs : regBit Reg.FLT_FENCE1 (k + 1) s = false) (prim : List (List Int)) :
    ∃ st op v, reg (boundaryPassed prim s) (Reg.XCK_CELL k) =
      resultWord (reg s (Reg.XCK_CELL k)) true st op (nth s.xck.slots k ⟨0, 0, false, []⟩).ovr v := by
  have hmode : getF Reg.XCK_STAT_MODE s ≠ 3 := fun h => by simp [cellsServed, h] at hserved
  obtain ⟨st, op, v, hcell⟩ := reg_closeCells hk (intervalReadings s) hserved hp hs
  refine ⟨st, op, v, ?_⟩
  rw [reg_boundaryPassed_cell hk h24, resultsClosed, if_neg hmode, reg_closeOthers (by simp only [Reg.XCK_CELL, Reg.XCK_PAIR]; omega), hcell,
    ovr_intervalReadings (by omega)]

section
variable {s t : State} (h : senseView t = senseView s)
include h

theorem slots_of_senseView : t.xck.slots = s.xck.slots := by
  have hv : (senseView t).1.xck.slots = (senseView s).1.xck.slots := by rw [h]
  exact hv

theorem cellsServed_of_senseView : cellsServed t = cellsServed s := by
  have hv : (senseView t).1.cms.unused = (senseView s).1.cms.unused := by rw [h]
  have hunused : t.cms.unused = s.cms.unused := hv
  simp only [cellsServed, unusedCells, getF_of_senseView h (f := Reg.XCK_STAT_MODE) (by decide), hunused]

end

/-- R145, R146, R165: with a converter in service, no tap of the cell open and no fence of it, its word is a new measurement. -/
theorem intervalBoundary_measures {k : Nat} {s : State} (hr : secondaryRuns s = true) (hserved : cellsServed s = true) (hk : k < 24)
    (h24 : tapOpen 24 s = false) (hp : regBit Reg.CMS_FENCE (k + 1) s = false) (hs : regBit Reg.FLT_FENCE1 (k + 1) s = false)
    (prim : List (List Int)) : ∃ t, exec (.intervalBoundary prim) s = .next t ∧
    regBit (Reg.XCK_CELL k) 31 t = true ∧ regBit (Reg.XCK_CELL k) 28 t = (nth s.xck.slots k ⟨0, 0, false, []⟩).ovr ∧
    getBits (reg t (Reg.XCK_CELL k)) 24 4 = (getBits (reg s (Reg.XCK_CELL k)) 24 4 + 1) % 16 := by
  have hview := senseView_intervalCounted s
  obtain ⟨st, op, v, hword⟩ := reg_boundaryPassed_served (s := intervalCounted s) (by rw [cellsServed_of_senseView hview, hserved]) hk
    (by rw [tapOpen_of_senseView hview, h24]) (by rw [regBit_of_senseView hview (by decide), hp])
    (by rw [regBit_of_senseView hview (by decide), hs]) prim
  rw [slots_of_senseView hview, reg_of_senseView hview (senseReg_cell hk)] at hword
  refine ⟨_, exec_intervalBoundary hr prim, ?_⟩
  rw [regBit, regBit, hword]
  exact resultWord_valid ..

/-- R149: with both converters fenced no result of a cell changes. -/
theorem intervalBoundary_unserved {k : Nat} {s : State} (hr : secondaryRuns s = true) (hmode : getF Reg.XCK_STAT_MODE s = 3) (hk : k < 24)
    (h24 : tapOpen 24 s = false) (prim : List (List Int)) :
    ∃ t, exec (.intervalBoundary prim) s = .next t ∧ reg t (Reg.XCK_CELL k) = reg s (Reg.XCK_CELL k) := by
  have hview := senseView_intervalCounted s
  refine ⟨_, exec_intervalBoundary hr prim, ?_⟩
  rw [reg_boundaryPassed_cell hk (by rw [tapOpen_of_senseView hview, h24]), resultsClosed,
    if_pos ((getF_of_senseView hview (by decide)).trans hmode), reg_of_senseView hview (senseReg_cell hk)]

/-- Settles O13: what follows the results of an interval writes none of them but the substitute of cell 24, and the rules that follow a comparison leave
mismatches and blame alone while no fence begins. -/
theorem intervalResults : Obligations.IntervalResults := by
  unfold Obligations.IntervalResults
  intro s
  exact ⟨fun hr prim => intervalBoundary_counts hr prim, fun k hr hserved hk h24 hp hs prim => intervalBoundary_measures hr hserved hk h24 hp hs prim,
    fun k hr hmode hk h24 prim => intervalBoundary_unserved hr hmode hk h24 prim,
    fun hr hserved hcal hh h40 h41 hp hs => crossCheckComparison_clause hr hserved hcal hh h40 h41 hp hs,
    fun hr hserved hi => crossCheckComparison_unserved hr hserved hi⟩

end Sys2Proof.Machine
end

