-- ==== Sys2Proof/Proofs/ImpedancePlan.lean ====
section
/-!
PROOFS. The commands of an impedance plan: what START checks and records, how a plan ends early, the partner's missing ticks and the end of a fade
(R195, R196, R198, R199, R208, R211, R570).
-/
namespace Sys2Proof.Machine

/-! ## Answers of an access -/

theorem answered_finish {d : Done} (hd : d.held = false) : d.finish.answered d.status := by simp [Done.finish, hd, State.answered]

theorem Changes.finish {d : Done} (hd : d.held = false) : Changes [.resp] (fun _ => False) d.st d.finish := by
  simpa [Done.finish, hd] using Changes.withResp d.st _

theorem getF_finish (f : Field) (d : Done) : getF f d.finish = getF f d.st := by unfold Done.finish; split <;> rfl

/-! ## Event bits -/

theorem reg_setEvt_same (b : EvtBlock) (bits : Nat) (s : State) : reg (setEvt b bits s) b.evt = reg s b.evt ||| BitVec.ofNat 32 bits := by
  unfold setEvt; dsimp only; split <;> exact reg_setReg_same _ _ _

/-- The bits that an event sets stand in the block's event register. -/
theorem regBit_setEvt {b : EvtBlock} {bits k : Nat} (hk : k < 32) (hb : bits.testBit k = true) (s : State) :
    regBit b.evt k (setEvt b bits s) = true := by
  simp only [regBit, reg_setEvt_same, BitVec.getLsbD_or, BitVec.getLsbD_ofNat, hk, hb, decide_true, Bool.and_self, Bool.or_true]

/-! ## START -/

theorem exec_impStart {s : State} (hc : coreUp s = true) : exec .impStart s = (startPlan (abortItem 19 s)).out := if_pos hc

theorem abortItem_untested {item : Nat} {s : State} (h : s.bst.run.any (fun r => r.cur == some item) = false) : abortItem item s = s :=
  if_neg (by simp [h])

theorem abortItem_tested {item : Nat} {s : State} (h : s.bst.run.any (fun r => r.cur == some item) = true) : abortItem item s = abortSelfTest s :=
  if_pos h

theorem endSelfTest_run (s : State) : (endSelfTest s).bst.run = none := by
  unfold endSelfTest
  split
  · assumption
  · extract_lets
    split
    · rfl
    · exact congrArg BstState.run (pulse_bst 125 _)

theorem abortSelfTest_run (s : State) : (abortSelfTest s).bst.run = none := by
  unfold abortSelfTest
  split
  · assumption
  · exact endSelfTest_run _

theorem coreUp_of_sys {s t : State} (h : t.sys = s.sys) : coreUp t = coreUp s := by unfold coreUp; rw [h]

/-- R570: START ends the test of the phase generators first, and acts as it does after that end. -/
theorem impStart_tested {s : State} (hc : coreUp s = true) (h : s.bst.run.any (fun r => r.cur == some 19) = true) :
    exec .impStart s = exec .impStart (abortSelfTest s) := by
  have hsys : (abortSelfTest s).sys = s.sys := (TestOnly.abortSelfTest s).part_eq .sys (by decide)
  rw [exec_impStart hc, exec_impStart ((coreUp_of_sys hsys).trans hc), abortItem_tested h, abortItem_untested (by rw [abortSelfTest_run]; rfl)]

/-- Nothing stands in the way of a START but the checks of the plan (R195, R199). -/
def PlanFree (s : State) : Prop :=
  bit Reg.FLT_FENCE0_IMP s = false ∧ planActive s = false ∧ s.xck.harness = none ∧ getF Reg.CAL_STAT_PHASE s = 0

section
variable {s : State} (h : PlanFree s)
include h

/-- A plan that an entry fails is not checked any further. -/
theorem startPlan_entryFails {e p : Nat} (he : entryError s = some (e, p)) : startPlan s = rejectStart e p s := by
  obtain ⟨hf, ha, hh, hc⟩ := h
  unfold startPlan
  simp only [hf, ha, hh, hc, he, Bool.false_eq_true, Option.isSome_none, ne_eq, not_true_eq_false, or_self, if_false]

theorem startPlan_entriesPass (he : entryError s = none) :
    startPlan s = if startError s ≠ 0 then rejectStart (startError s) 0 s else Done.ok (armPlan s) := by
  obtain ⟨hf, ha, hh, hc⟩ := h
  unfold startPlan
  simp only [hf, ha, hh, hc, he, Bool.false_eq_true, Option.isSome_none, ne_eq, not_true_eq_false, or_self, if_false]

end

theorem startPlan_fenced {s : State} (h : bit Reg.FLT_FENCE0_IMP s = true) : startPlan s = Done.refuse .refusedFenced s := if_pos h

theorem startPlan_busy {s : State} (hf : bit Reg.FLT_FENCE0_IMP s = false)
    (h : planActive s = true ∨ s.xck.harness.isSome = true ∨ getF Reg.CAL_STAT_PHASE s ≠ 0) : startPlan s = startBusy s := by
  unfold startPlan
  rw [if_neg (by simp [hf]), if_pos h]

/-- The retry-after of a busy engine is known, or it is a free value. -/
theorem startBusy_cases (s : State) : (∃ t, startBusy s = Done.busy t s) ∨ startBusy s = Done.busyFree s := by
  unfold startBusy
  split
  · exact .inl ⟨_, rfl⟩
  · split
    · exact .inl ⟨_, rfl⟩
    · split
      · exact .inl ⟨_, rfl⟩
      · split
        · exact .inl ⟨_, rfl⟩
        · exact .inr rfl

/-- R195: a START that fails a check leaves its reason and its entry in IMP_STAT, and the state of the plan as it was. -/
theorem rejectStart_failed (e p : Nat) (s : State) : getF Reg.IMP_STAT_ERR (rejectStart e p s).finish = e % 16 ∧
    getF Reg.IMP_STAT_ERRPT (rejectStart e p s).finish = p % 32 ∧
    getF Reg.IMP_STAT_STATE (rejectStart e p s).finish = getF Reg.IMP_STAT_STATE s ∧
    (rejectStart e p s).finish.answered .checkFail ∧ Changes [.resp] (oneOf [Reg.IMP_STAT]) s (rejectStart e p s).finish := by
  have hst : (rejectStart e p s).st = setF Reg.IMP_STAT_ERRPT p (setF Reg.IMP_STAT_ERR e s) := rfl
  refine ⟨?_, ?_, ?_, answered_finish rfl, ?_⟩
  · rw [getF_finish, hst, getF_setF_beside _ _ _ _ (by decide) (by decide), getF_setF_same _ _ _ (by decide)]; rfl
  · rw [getF_finish, hst, getF_setF_same _ _ _ (by decide)]; rfl
  · rw [getF_finish, hst, getF_setF_beside _ _ _ _ (by decide) (by decide), getF_setF_beside _ _ _ _ (by decide) (by decide)]
  · exact (((Changes.setF _ _ s).trans (.setF _ _ _)).trans (.finish rfl)).mono (by simp) (by simp [oneOf, Reg.IMP_STAT_ERR, Reg.IMP_STAT_ERRPT])

theorem Changes.armPlan (s : State) : Changes [.imp] (oneOf [Reg.IMP_STAT]) s (armPlan s) :=
  (((Changes.setF Reg.IMP_STAT_ERR 0 s).trans (.setF Reg.IMP_STAT_STATE 1 _)).trans (.withImp _ _)).mono (by simp)
    (by simp [oneOf, Reg.IMP_STAT_ERR, Reg.IMP_STAT_STATE])

theorem armPlan_state (s : State) : getF Reg.IMP_STAT_STATE (armPlan s) = 1 := getF_setF_same Reg.IMP_STAT_STATE 1 _ (by decide)

theorem armPlan_err (s : State) : getF Reg.IMP_STAT_ERR (armPlan s) = 0 :=
  (getF_setF_beside Reg.IMP_STAT_STATE Reg.IMP_STAT_ERR 1 _ (by decide) (by decide)).trans (getF_setF_same Reg.IMP_STAT_ERR 0 s (by decide))

section
variable {s : State} (hc : coreUp s = true) (hb : s.bst.run.any (fun r => r.cur == some 19) = false)
include hc hb

theorem exec_impStart_untested : exec .impStart s = .next (startPlan s).finish := by rw [exec_impStart hc, abortItem_untested hb]; rfl

/-- R195: a START whose plan fails a check, for an entry or for none, is refused with its reason. -/
theorem impStart_rejected {e p : Nat} (h : startPlan s = rejectStart e p s) : ∃ t, exec .impStart s = .next t ∧
    getF Reg.IMP_STAT_ERR t = e % 16 ∧ getF Reg.IMP_STAT_ERRPT t = p % 32 ∧ getF Reg.IMP_STAT_STATE t = getF Reg.IMP_STAT_STATE s ∧
    t.answered .checkFail ∧ Changes [.resp] (oneOf [Reg.IMP_STAT]) s t :=
  ⟨_, exec_impStart_untested hc hb, by rw [h]; exact rejectStart_failed e p s⟩

/-- R195, R196: a START whose plan passes every check arms it for its start time. -/
theorem impStart_armed (h : startPlan s = Done.ok (armPlan s)) : ∃ t, exec .impStart s = .next t ∧ getF Reg.IMP_STAT_STATE t = 1 ∧
    getF Reg.IMP_STAT_ERR t = 0 ∧ t.imp.start = (if planT0 s = 0 then boundaryAfter (s.ft + ms) else planT0 s) ∧ t.imp.passes = 0 ∧ t.imp.next = 0 ∧
    t.imp.missed = 0 ∧ t.imp.waiting = none ∧ t.answered .ok ∧ Changes [.imp, .resp] (oneOf [Reg.IMP_STAT]) s t := by
  refine ⟨_, exec_impStart_untested hc hb, ?_⟩
  rw [h]
  exact ⟨armPlan_state s, armPlan_err s, rfl, rfl, rfl, rfl, rfl, rfl, ((Changes.armPlan s).trans (.finish_ok _)).mono (by simp) (by simp)⟩

theorem impStart_fenced (hf : bit Reg.FLT_FENCE0_IMP s = true) : ∃ t, exec .impStart s = .next t ∧ t.answered .refusedFenced ∧
    Changes [.resp] (fun _ => False) s t := by
  refine ⟨_, exec_impStart_untested hc hb, ?_⟩
  rw [startPlan_fenced hf]
  exact ⟨rfl, Changes.finish rfl⟩

theorem impStart_busy (hf : bit Reg.FLT_FENCE0_IMP s = false) (h : planActive s = true ∨ s.xck.harness.isSome = true ∨ getF Reg.CAL_STAT_PHASE s ≠ 0) :
    ∃ t, exec .impStart s = .next t ∧ t.answered .refusedBusy ∧ Changes [.resp, .free] (fun _ => False) s t := by
  refine ⟨_, exec_impStart_untested hc hb, ?_⟩
  rw [startPlan_busy hf h]
  obtain ⟨d, hd⟩ | hd := startBusy_cases s
  · rw [hd]
    exact ⟨rfl, (Changes.finish (d := Done.busy d s) rfl).mono (by simp) (by simp)⟩
  · rw [hd]
    exact ⟨rfl, ((Changes.useFree s).trans (.finish (d := Done.busyFree s) rfl)).mono (by simp) (by simp)⟩

end

/-! ## The early end of a plan -/

/-- The causes of an early end that source 64 reports (R211). -/
def reportsAbort (code : Nat) : Prop := code = 0xA ∨ (4 ≤ code ∧ code ≤ 8)

theorem finishAbort_reported {code : Nat} (h : reportsAbort code) (s : State) : finishAbort code s = setEvt .imp 8 (pulse 64 s) :=
  congrArg (setEvt .imp 8) (if_pos h)

theorem finishAbort_unreported {code : Nat} (h : ¬ reportsAbort code) (s : State) : finishAbort code s = setEvt .imp 8 s :=
  congrArg (setEvt .imp 8) (if_neg h)

@[simp] theorem finishAbort_imp (code : Nat) (s : State) : (finishAbort code s).imp = s.imp := by
  unfold finishAbort; rw [setEvt_imp]; split <;> simp

theorem Changes.finishAbort_unreported {code : Nat} (h : ¬ reportsAbort code) (s : State) :
    Changes [.fab] (oneOf [Reg.IMP_EVT]) s (finishAbort code s) := by
  rw [Machine.finishAbort_unreported h]
  exact (Changes.setEvt .imp 8 s).mono (by simp) (by simp [oneOf, EvtBlock.evt])

theorem Changes.finishAbort (code : Nat) (s : State) : Changes [.flt, .fab] (oneOf [Reg.IMP_EVT]) s (finishAbort code s) := by
  by_cases h : reportsAbort code
  · rw [finishAbort_reported h]
    exact ((Changes.pulse 64 s).trans (.setEvt .imp 8 _)).mono (by simp) (by simp [oneOf, EvtBlock.evt])
  · exact (Changes.finishAbort_unreported h s).mono (by simp) (by simp)

theorem regBit_finishAbort (code : Nat) (s : State) : regBit Reg.IMP_EVT 3 (finishAbort code s) = true :=
  regBit_setEvt (b := .imp) (bits := 8) (by decide) (by decide) _

/-- Whether a step in progress is carried by the converter, so that its envelope falls (R198). -/
def excites (s : State) : Bool := s.imp.phase != .idle && converterSwitches s

/-- The envelope that begins to fall with an early end (R198). -/
def abortFade (code : Nat) (s : State) : Fade :=
  ⟨code, s.ft + (freeWord s).toNat % (ms + 1), s.imp.ts, s.imp.we, stepTones (getF Reg.IMP_STAT_POINT s) s, s.imp.balHold⟩

/-- The plan has ended early with a cause, and the given envelopes fall (R198). -/
def planEnded (code : Nat) (fades : List Fade) (s : State) : State :=
  let s1 := s |> setF Reg.IMP_STAT_ABRT code |> setF Reg.IMP_STAT_STATE 4
  { s1 with imp := { s1.imp with ccm := false, balHold := false, waiting := none, finalTick := bit Reg.IMP_CFG_PAIR s, phase := .idle, fades := fades } }

theorem planAbort_inactive {s : State} (h : planActive s = false) (code : Nat) : planAbort code s = s := if_neg (by simp [h])

theorem planAbort_fading {s : State} (h : planActive s = true) (he : excites s = true) (code : Nat) :
    planAbort code s = planEnded code (s.imp.fades ++ [abortFade code s]) (useFree s) := by
  unfold excites at he
  unfold planAbort
  simp only [h, he, if_true]
  rfl

theorem planAbort_still {s : State} (h : planActive s = true) (he : excites s = false) (code : Nat) :
    planAbort code s = finishAbort code (planEnded code s.imp.fades s) := by
  unfold excites at he
  unfold planAbort
  simp only [h, he, if_true, Bool.false_eq_true, if_false]
  rfl

theorem Changes.planEnded (code : Nat) (fades : List Fade) (s : State) : Changes [.imp] (oneOf [Reg.IMP_STAT]) s (planEnded code fades s) :=
  (((Changes.setF Reg.IMP_STAT_ABRT code s).trans (.setF Reg.IMP_STAT_STATE 4 _)).trans (.withImp _ _)).mono (by simp)
    (by simp [oneOf, Reg.IMP_STAT_ABRT, Reg.IMP_STAT_STATE])

theorem planEnded_state (code : Nat) (fades : List Fade) (s : State) : getF Reg.IMP_STAT_STATE (planEnded code fades s) = 4 :=
  getF_setF_same Reg.IMP_STAT_STATE 4 _ (by decide)

theorem planEnded_cause (code : Nat) (fades : List Fade) (s : State) : getF Reg.IMP_STAT_ABRT (planEnded code fades s) = code % 16 :=
  (getF_setF_beside Reg.IMP_STAT_STATE Reg.IMP_STAT_ABRT 4 _ (by decide) (by decide)).trans (getF_setF_same Reg.IMP_STAT_ABRT code s (by decide))

/-- What an early end leaves (R198, R199): ABORTED with its cause, the results as they were written, and none that waits. -/
structure EndedEarly (code : Nat) (s t : State) : Prop where
  state : getF Reg.IMP_STAT_STATE t = 4
  cause : getF Reg.IMP_STAT_ABRT t = code % 16
  results : t.imp.results = s.imp.results
  waiting : t.imp.waiting = none
  phase : t.imp.phase = .idle

theorem EndedEarly.planEnded (code : Nat) (fades : List Fade) (s : State) : EndedEarly code s (planEnded code fades s) :=
  ⟨planEnded_state .., planEnded_cause .., rfl, rfl, rfl⟩

theorem EndedEarly.finishAbort {code : Nat} {s t : State} (h : EndedEarly code s t) (c : Nat) : EndedEarly code s (finishAbort c t) := by
  have hreg := (Changes.finishAbort c t).reg_eq (a := Reg.IMP_STAT) (by simp [oneOf, Reg.IMP_STAT, Reg.IMP_EVT])
  obtain ⟨hs, hc, hr, hw, hp⟩ := h
  exact ⟨(getF_of_reg hreg).trans hs, (getF_of_reg hreg).trans hc, by simp [hr], by simp [hw], by simp [hp]⟩

theorem EndedEarly.planAbort {s : State} (h : planActive s = true) (code : Nat) : EndedEarly code s (planAbort code s) := by
  cases he : excites s
  · rw [planAbort_still h he]
    exact (EndedEarly.planEnded ..).finishAbort code
  · rw [planAbort_fading h he]
    exact ⟨planEnded_state .., planEnded_cause .., rfl, rfl, rfl⟩

/-- An early end changes the engine, what the end of an excitation changes, and the free values. -/
theorem Changes.planAbort_of {code : Nat} {ps : List Part} (hf : ∀ t, Changes ps (oneOf [Reg.IMP_EVT]) t (Machine.finishAbort code t)) (s : State) :
    Changes (.imp :: .free :: ps) (oneOf [Reg.IMP_STAT, Reg.IMP_EVT]) s (planAbort code s) := by
  cases h : planActive s
  · rw [planAbort_inactive h]
    exact Changes.refl ..
  · cases he : excites s
    · rw [planAbort_still h he]
      exact ((Changes.planEnded ..).trans (hf _)).mono (fun p hp => by
        simp only [List.mem_append, List.mem_cons] at hp ⊢
        tauto) (by simp [oneOf])
    · rw [planAbort_fading h he]
      exact ((Changes.useFree s).trans (.planEnded ..)).mono (by simp) (by simp [oneOf])

theorem Changes.planAbort (code : Nat) (s : State) : Changes [.imp, .free, .flt, .fab] (oneOf [Reg.IMP_STAT, Reg.IMP_EVT]) s (planAbort code s) :=
  .planAbort_of (Changes.finishAbort code) s

/-- R198, R211: the end that STOP asks for is no fault. -/
theorem impStop_active {s : State} (hc : coreUp s = true) (ha : planActive s = true) : ∃ t, exec .impStop s = .next t ∧
    getF Reg.IMP_STAT_STATE t = 4 ∧ getF Reg.IMP_STAT_ABRT t = 1 ∧ t.answered .ok ∧ t.imp.results = s.imp.results ∧ t.imp.waiting = none ∧
    t.imp.phase = .idle ∧ Changes [.imp, .resp, .fab, .free] (oneOf [Reg.IMP_STAT, Reg.IMP_EVT]) s t := by
  obtain ⟨hs, hcause, hr, hw, hp⟩ := EndedEarly.planAbort ha 1
  have hchg := Changes.planAbort_of (code := 1) (Changes.finishAbort_unreported (by simp [reportsAbort])) s
  exact ⟨_, if_pos hc, hs, hcause, rfl, hr, hw, hp, (hchg.trans (.finish_ok _)).mono (by simp) (by simp [oneOf])⟩

theorem impStop_inactive {s : State} (hc : coreUp s = true) (ha : planActive s = false) : ∃ t, exec .impStop s = .next t ∧ t.answered .ok ∧
    Changes [.resp] (fun _ => False) s t := by
  refine ⟨_, if_pos hc, ?_⟩
  rw [planAbort_inactive ha]
  exact ⟨rfl, Changes.finish_ok s⟩

/-! ## The partner's missing ticks -/

/-- A tick that has not come is counted, and none stands for its boundary (R208). -/
def tickMissed (rest : List Nat) (s : State) : State :=
  let s1 := s |> incSat Reg.IMP_PAIRSTAT_MISSED |> setB Reg.IMP_PAIRSTAT_TICKOK false
  { s1 with imp := { s1.imp with missed := s.imp.missed + 1, awaited := rest } }

theorem Changes.tickMissed (rest : List Nat) (s : State) : Changes [.imp] (oneOf [Reg.IMP_PAIRSTAT]) s (tickMissed rest s) :=
  (((Changes.incSat Reg.IMP_PAIRSTAT_MISSED s).trans (.setB Reg.IMP_PAIRSTAT_TICKOK false _)).trans (.withImp _ _)).mono (by simp)
    (by simp [oneOf, Reg.IMP_PAIRSTAT_MISSED, Reg.IMP_PAIRSTAT_TICKOK])

theorem getF_tickMissed {f : Field} (hf : f.addr = Reg.IMP_STAT) (rest : List Nat) (s : State) : getF f (tickMissed rest s) = getF f s :=
  getF_of_reg ((Changes.tickMissed rest s).reg_eq (by rw [hf]; simp [oneOf, Reg.IMP_STAT, Reg.IMP_PAIRSTAT]))

theorem planActive_tickMissed (rest : List Nat) (s : State) : planActive (tickMissed rest s) = planActive s := by
  unfold planActive; rw [getF_tickMissed rfl]

section
variable {s : State} {b : Nat} {rest : List Nat} (hw : s.imp.awaited = b :: rest)
include hw

theorem exec_pairTickMissing : exec .pairTickMissing s = if planActive s ∧ bit Reg.IMP_CFG_PAIR s ∧ b + interval64 ≤ s.ft then
    .next (if 3 ≤ s.imp.missed + 1 then planAbort 6 (tickMissed rest s) else tickMissed rest s) else .next s := by
  show execPairTickMissing s = _
  unfold execPairTickMissing
  rw [hw]
  rfl

/-- R208: a tick that has not come in time counts, and the third in a row ends the plan. -/
theorem exec_pairTickMissing_due (ha : planActive s = true) (hp : bit Reg.IMP_CFG_PAIR s = true) (hb : b + interval64 ≤ s.ft) :
    exec .pairTickMissing s = .next (if 3 ≤ s.imp.missed + 1 then planAbort 6 (tickMissed rest s) else tickMissed rest s) :=
  (exec_pairTickMissing hw).trans (if_pos ⟨ha, hp, hb⟩)

theorem pairTickMissing_counts (ha : planActive s = true) (hp : bit Reg.IMP_CFG_PAIR s = true) (hb : b + interval64 ≤ s.ft) (hm : s.imp.missed < 2) :
    ∃ t, exec .pairTickMissing s = .next t ∧ t.imp.missed = s.imp.missed + 1 ∧ t.imp.awaited = rest ∧
    getF Reg.IMP_STAT_STATE t = getF Reg.IMP_STAT_STATE s ∧ Changes [.imp] (oneOf [Reg.IMP_PAIRSTAT]) s t := by
  refine ⟨tickMissed rest s, ?_, rfl, rfl, getF_tickMissed rfl rest s, Changes.tickMissed rest s⟩
  rw [exec_pairTickMissing_due hw ha hp hb, if_neg (by omega)]

theorem pairTickMissing_aborts (ha : planActive s = true) (hp : bit Reg.IMP_CFG_PAIR s = true) (hb : b + interval64 ≤ s.ft) (hm : 2 ≤ s.imp.missed) :
    ∃ t, exec .pairTickMissing s = .next t ∧ getF Reg.IMP_STAT_STATE t = 4 ∧ getF Reg.IMP_STAT_ABRT t = 6 ∧ t.imp.results = s.imp.results ∧
    Changes [.imp, .free, .flt, .fab] (oneOf [Reg.IMP_STAT, Reg.IMP_EVT, Reg.IMP_PAIRSTAT]) s t := by
  have hend := EndedEarly.planAbort ((planActive_tickMissed rest s).trans ha) 6
  refine ⟨planAbort 6 (tickMissed rest s), ?_, hend.state, hend.cause, hend.results, ?_⟩
  · rw [exec_pairTickMissing_due hw ha hp hb, if_pos (by omega)]
  · exact ((Changes.tickMissed rest s).trans (.planAbort 6 _)).mono (by simp) (by simp [oneOf])

end

/-- R208: a tick that is not due, and one of a plan that is not active or not paired, changes nothing. -/
theorem pairTickMissing_idle {s : State} (h : planActive s = false ∨ bit Reg.IMP_CFG_PAIR s = false ∨
    s.imp.awaited.all (fun b => decide (s.ft < b + interval64)) = true) : exec .pairTickMissing s = .next s := by
  cases hw : s.imp.awaited with
  | nil => show execPairTickMissing s = _; unfold execPairTickMissing; rw [hw]
  | cons b rest =>
    rw [exec_pairTickMissing hw, if_neg]
    rintro ⟨ha, hp, hb⟩
    simp only [hw, ha, hp, List.all_cons, Bool.and_eq_true, decide_eq_true_eq, reduceCtorEq, false_or] at h
    omega

/-! ## The end of a fade -/

/-- R198: 20 ms after its start the fall of an envelope is over, and the engine reports the end. -/
theorem excitationFadeDone_over {s : State} {f : Fade} {rest : List Fade} (hf : s.imp.fades = f :: rest) (ht : f.start + 20 * ms ≤ s.ft) :
    ∃ t, exec .excitationFadeDone s = .next t ∧ t.imp = { s.imp with fades := rest } ∧ regBit Reg.IMP_EVT 3 t = true ∧
    Changes [.imp, .flt, .fab] (oneOf [Reg.IMP_EVT]) s t := by
  refine ⟨finishAbort f.code { s with imp := { s.imp with fades := rest } }, ?_, finishAbort_imp _ _, regBit_finishAbort _ _, ?_⟩
  · show execExcitationFadeDone s = _
    unfold execExcitationFadeDone
    rw [hf]
    exact if_neg (by omega)
  · exact ((Changes.withImp s _).trans (.finishAbort f.code _)).mono (by simp) (by simp)

/-- Settles O16: START is decided by what stands in its way and then by the checks in their order, an early end is one operation for every cause, and what
waits for the partner or for the excitation acts when its time has come. -/
theorem impedanceCommands : Obligations.ImpedanceCommands := by
  unfold Obligations.ImpedanceCommands
  intro s
  dsimp only
  refine ⟨?_, ?_, ?_, fun ⟨hc, hb⟩ hf => impStart_fenced hc hb hf, fun ⟨hc, hb⟩ hf h => impStart_busy hc hb hf h, fun hc h => impStart_tested hc h,
    fun hc ha => impStop_active hc ha, fun hc ha => impStop_inactive hc ha, fun b rest ha hp hw hb hm => pairTickMissing_counts hw ha hp hb hm,
    fun b rest ha hp hw hb hm => pairTickMissing_aborts hw ha hp hb hm, fun h => pairTickMissing_idle h, fun f rest hf ht => excitationFadeDone_over hf ht⟩
  · rintro ⟨⟨hc, hb⟩, hfree⟩ he h0
    exact impStart_armed hc hb ((startPlan_entriesPass hfree he).trans (if_neg (by simp [h0])))
  · rintro e p ⟨⟨hc, hb⟩, hfree⟩ he
    exact impStart_rejected hc hb (startPlan_entryFails hfree he)
  · rintro ⟨⟨hc, hb⟩, hfree⟩ he h0
    exact impStart_rejected hc hb ((startPlan_entriesPass hfree he).trans (if_pos h0))

end Sys2Proof.Machine
end

