-- ==== Sys2Proof/Proofs/ConverterPhases.lean ====
section
/-!
PROOFS. The phases that switch: the shedding level, what the set of switching phases follows, and what every stop of the converter changes (R256, R270,
R277, R279, R287).
-/
namespace Sys2Proof.Machine

/-! ## Updates of one part -/

theorem Changes.withCnv (s : State) (y : CnvState) : Changes [.cnv] (fun _ => False) s { s with cnv := y } :=
  ⟨rfl, fun p hp => by cases p <;> simp_all [Part.same], fun _ _ => rfl⟩

theorem Changes.withPinsCnv (s : State) (x : Pins) (y : CnvState) : Changes [.pins, .cnv] (fun _ => False) s { s with pins := x, cnv := y } :=
  ⟨rfl, fun p hp => by cases p <;> simp_all [Part.same], fun _ _ => rfl⟩

/-! ## Lists of phases -/

theorem mem_phasesOf {n m : Nat} : n ∈ phasesOf m ↔ n < 4 ∧ m.testBit n = true := by simp [phasesOf]

theorem availablePhases_sublist (s : State) : (availablePhases s).Sublist (List.range 4) := List.filter_sublist

theorem phasesAtLevel_sublist (level : Nat) (l : List Nat) : (phasesAtLevel level l).Sublist l := by
  unfold phasesAtLevel
  split
  · exact .refl l
  · split
    · exact List.take_sublist 2 l
    · calc (l.take 1 ++ (l.drop 2).take 1).Sublist (l.take 2 ++ l.drop 2) :=
            (List.take_sublist_take_left (by decide)).append (List.take_sublist 1 _)
        _ = l := List.take_append_drop 2 l
  · exact List.take_sublist 1 l

/-- The mask of phases of the device fits the field that shows it. -/
theorem phaseMask_lt {l : List Nat} (h : l.Sublist (List.range 4)) : phaseMask l < 16 :=
  Nat.lt_of_le_of_lt ((h.map (fun n => 2 ^ n)).sum_le_sum (fun _ _ => Nat.zero_le _)) (by decide)

theorem phaseMask_singleton (n : Nat) : phaseMask [n] = 2 ^ n := by simp [phaseMask]

/-- What may switch depends on the configuration, on the fences and on the faults of the phases (R256, R272, R287). -/
theorem availablePhases_congr {s t : State} (hcfg : reg t Reg.CNV_PHCFG = reg s Reg.CNV_PHCFG) (hfen : getF Reg.CNV_STAT_PHFEN t = getF Reg.CNV_STAT_PHFEN s)
    (hflt : reg t Reg.CNV_PHFLT = reg s Reg.CNV_PHFLT) : availablePhases t = availablePhases s := by
  have hcfg' {f : Field} (hf : f.addr = Reg.CNV_PHCFG) : getF f t = getF f s := getF_of_reg (by rw [hf, hcfg])
  have hflt' {f : Field} (hf : f.addr = Reg.CNV_PHFLT) : getF f t = getF f s := getF_of_reg (by rw [hf, hflt])
  simp only [availablePhases, bit, hfen, hcfg' (f := Reg.CNV_PHCFG_PHEN) rfl, hcfg' (f := Reg.CNV_PHCFG_CPL) rfl,
    hflt' (f := Reg.CNV_PHFLT_SENSE) rfl, hflt' (f := Reg.CNV_PHFLT_RB) rfl, hflt' (f := Reg.CNV_PHFLT_IMB) rfl]

theorem switching_congr {s t : State} (h : cnvState t = cnvState s) : switching t = switching s := by unfold switching; rw [h]

theorem switching_run {s : State} (h : cnvState s = 4) : switching s = true := by simp [switching, h]

/-! ## The set of switching phases -/

@[simp] theorem reg_placeEdges (s : State) (a : Nat) : reg (placeEdges s) a = reg s a := (rfl)

theorem Changes.placeEdges (s : State) : Changes [.cnv] (fun _ => False) s (placeEdges s) := .withCnv s _

theorem Changes.clearTrims (s : State) : Changes [.cnv] (oneOf [Reg.CNV_TRIMST]) s (clearTrims s) :=
  ((Changes.withCnv s _).trans (.setReg Reg.CNV_TRIMST 0#32 _)).mono (by simp) (by simp [oneOf])

/-- The phases that switch from now on take their places in the interleave, without trims (R264, R270). -/
def switchPhases (m : Nat) (s : State) : State := placeEdges (clearTrims (setF Reg.CNV_STAT_ACT m s))

theorem Changes.switchPhases (m : Nat) (s : State) : Changes [.cnv] (oneOf [Reg.CNV_STAT, Reg.CNV_TRIMST]) s (switchPhases m s) :=
  (((Changes.setF Reg.CNV_STAT_ACT m s).trans (.clearTrims _)).trans (.placeEdges _)).mono (by simp) (by simp [oneOf, Reg.CNV_STAT_ACT])

theorem reg_switchPhases_stat (m : Nat) (s : State) : reg (switchPhases m s) Reg.CNV_STAT = reg (setF Reg.CNV_STAT_ACT m s) Reg.CNV_STAT :=
  (reg_placeEdges _ _).trans ((Changes.clearTrims _).reg_eq (by simp [oneOf, Reg.CNV_STAT, Reg.CNV_TRIMST]))

theorem refreshPhases_switching {s : State} (hs : switching s = true)
    (hl : phasesAtLevel (getF Reg.CNV_STAT_LEVEL s) (availablePhases s) ≠ []) :
    refreshPhases s = if phaseMask (phasesAtLevel (getF Reg.CNV_STAT_LEVEL s) (availablePhases s)) = getF Reg.CNV_STAT_ACT s then s
      else switchPhases (phaseMask (phasesAtLevel (getF Reg.CNV_STAT_LEVEL s) (availablePhases s))) s := by
  unfold refreshPhases
  rw [if_pos hs]
  exact if_neg hl

/-- What the level of shedding asks for stands, and nothing else has changed (R270, R279). -/
structure LevelSet (level : Nat) (s t : State) : Prop where
  shown : getF Reg.CNV_STAT_LEVEL t = level
  active : getF Reg.CNV_STAT_ACT t = phaseMask (phasesAtLevel level (availablePhases s))
  shed : t.cnv.shed = s.cnv.shed
  shedHold : t.cnv.shedHold = s.cnv.shedHold
  imp : t.imp = s.imp
  changes : Changes [.cnv] (oneOf [Reg.CNV_STAT, Reg.CNV_TRIMST]) s t

theorem LevelSet.refreshPhases {s : State} (hs : switching s = true)
    (hl : phasesAtLevel (getF Reg.CNV_STAT_LEVEL s) (availablePhases s) ≠ []) : LevelSet (getF Reg.CNV_STAT_LEVEL s) s (refreshPhases s) := by
  rw [refreshPhases_switching hs hl]
  split
  · next h => exact ⟨rfl, h.symm, rfl, rfl, rfl, Changes.refl ..⟩
  · refine ⟨?_, ?_, rfl, rfl, rfl, Changes.switchPhases ..⟩
    · rw [getF_of_reg (reg_switchPhases_stat ..), getF_setF_beside _ _ _ _ (by decide) (by decide)]
    · rw [getF_of_reg (reg_switchPhases_stat ..), getF_setF_same _ _ _ (by decide)]
      exact Nat.mod_eq_of_lt (phaseMask_lt ((phasesAtLevel_sublist _ _).trans (availablePhases_sublist s)))

theorem availablePhases_setLevel (level : Nat) (s : State) : availablePhases (setF Reg.CNV_STAT_LEVEL level s) = availablePhases s :=
  availablePhases_congr (reg_setF_other (by decide) _ _) (getF_setF_beside _ _ _ _ (by decide) (by decide)) (reg_setF_other (by decide) _ _)

/-- R279, R280: a level is taken at once where phases remain for it. -/
theorem LevelSet.setLevel {level : Nat} {s : State} (h4 : level < 4) (hs : switching s = true) (hl : phasesAtLevel level (availablePhases s) ≠ []) :
    LevelSet level s (setLevel level s) := by
  have hlevel : getF Reg.CNV_STAT_LEVEL (setF Reg.CNV_STAT_LEVEL level s) = level :=
    (getF_setF_same _ _ _ (by decide)).trans (Nat.mod_eq_of_lt h4)
  have hswitch : switching (setF Reg.CNV_STAT_LEVEL level s) = true :=
    (switching_congr (getF_setF_beside _ _ _ _ (by decide) (by decide))).trans hs
  have h := LevelSet.refreshPhases hswitch (by rwa [hlevel, availablePhases_setLevel])
  rw [hlevel] at h
  obtain ⟨hlev, hact, hshed, hhold, himp, hchg⟩ := h
  exact ⟨hlev, availablePhases_setLevel level s ▸ hact, hshed, hhold, himp,
    ((Changes.setF Reg.CNV_STAT_LEVEL level s).trans hchg).mono (by simp) (by simp [oneOf, Reg.CNV_STAT_LEVEL])⟩

/-! ## Stops -/

theorem Changes.quiet (s : State) : Changes [.cnv, .pins] (oneOf [Reg.CNV_STAT, Reg.CNV_TRIMST, Reg.SYS_CLKSTAT]) s (quiet s) := by
  unfold Machine.quiet
  extract_lets s1
  have h1 : Changes [.cnv] (oneOf [Reg.CNV_STAT, Reg.CNV_TRIMST, Reg.SYS_CLKSTAT]) s s1 :=
    (((((Changes.clearTrims s).trans (.setF Reg.CNV_STAT_ACT 0 _)).trans (.setF Reg.CNV_STAT_LEVEL 0 _)).trans (.setB Reg.CNV_STAT_BRK false _)).trans
      (.setB Reg.SYS_CLKSTAT_PPLLLK false _)).mono (by simp)
      (by simp [oneOf, Reg.CNV_STAT_ACT, Reg.CNV_STAT_LEVEL, Reg.CNV_STAT_BRK, Reg.SYS_CLKSTAT_PPLLLK]; tauto)
  exact (h1.trans (.withPinsCnv s1 _ _)).mono (by simp) (by simp)

theorem Changes.foldFinishAbort (l : List Fade) (s : State) :
    Changes [.flt, .fab] (oneOf [Reg.IMP_EVT]) s (l.foldl (fun t f => Machine.finishAbort f.code t) s) :=
  .foldl _ l (fun t f => .finishAbort f.code t) s

theorem Changes.excitationStops (s : State) : Changes [.imp, .flt, .fab] (oneOf [Reg.IMP_EVT]) s (excitationStops s) := by
  unfold Machine.excitationStops
  split
  · exact Changes.refl ..
  · have h := (Changes.withImp s { s.imp with fades := [] }).trans (.foldFinishAbort s.imp.fades _)
    exact h.mono (by simp) (by simp)

/-- The registers that a stop of the converter writes (R198, R277, R299). -/
def stopRegs : List Nat := [Reg.CNV_STAT, Reg.CNV_TRIMST, Reg.SYS_CLKSTAT, Reg.CNV_EVT, Reg.IMP_STAT, Reg.IMP_EVT]

/-- A stop changes the converter with its pins, ends the plan and reports both (R198, R277, R299). -/
theorem Changes.leaveRunning (dest : Nat) (s : State) :
    Changes [.cnv, .pins, .imp, .fab, .flt, .free] (oneOf stopRegs) s (leaveRunning dest s) := by
  unfold Machine.leaveRunning
  extract_lets ran s1 s2 s3 c s4
  have h1 : Changes [.imp, .free, .flt, .fab] (oneOf stopRegs) s s1 :=
    .of_ite ((Changes.planAbort 4 s).mono (by simp) (by simp [oneOf, stopRegs])) (.refl ..)
  have h2 : Changes [.cnv, .pins] (oneOf stopRegs) s1 s2 :=
    ((Changes.quiet s1).trans (.setF Reg.CNV_STAT_STATE dest _)).mono (by simp) (by simp [oneOf, stopRegs, Reg.CNV_STAT_STATE]; tauto)
  have hevt (bits : Nat) (t : State) : Changes [.fab] (oneOf stopRegs) t (Machine.setEvt .cnv bits t) :=
    (Changes.setEvt .cnv bits t).mono (by simp) (by simp [oneOf, stopRegs, EvtBlock.evt])
  have h3 : Changes [.fab] (oneOf stopRegs) s2 s3 := .of_ite (hevt 2 s2) (.refl ..)
  have h4 : Changes [.cnv, .fab] (oneOf stopRegs) s3 s4 := .of_ite (((Changes.withCnv s3 _).trans (hevt 4 _)).mono (by simp) (by simp)) (.refl ..)
  have h5 : Changes [.imp, .flt, .fab] (oneOf stopRegs) s4 (Machine.excitationStops s4) :=
    (Changes.excitationStops s4).mono (by simp) (by simp [oneOf, stopRegs])
  exact ((((h1.trans h2).trans h3).trans h4).trans h5).mono (by simp) (by simp)

theorem Changes.immediateStop (dest : Nat) (s : State) :
    Changes [.cnv, .pins, .imp, .fab, .flt, .free] (oneOf stopRegs) s (immediateStop dest s) := .of_ite (.refl ..) (.leaveRunning dest s)

/-- Whatever the phases are, the set that switches changes with what a stop changes at most (R287). -/
theorem Changes.refreshPhases (s : State) : Changes [.cnv, .pins, .imp, .fab, .flt, .free] (oneOf stopRegs) s (refreshPhases s) := by
  have hstop := Changes.immediateStop 0 s
  have hswitch (m : Nat) : Changes [.cnv, .pins, .imp, .fab, .flt, .free] (oneOf stopRegs) s (Machine.switchPhases m s) :=
    (Changes.switchPhases m s).mono (by simp) (by simp [oneOf, stopRegs])
  exact .of_ite (.of_ite hstop (.of_ite (.refl ..) (hswitch _))) (.of_ite hstop (.refl ..))

/-! ## Events that wait for the collector -/

theorem waiting_subset_pulse (src : Nat) (s : State) : s.flt.waiting ⊆ (pulse src s).flt.waiting := by
  unfold pulse
  split
  · exact List.Subset.refl _
  · exact List.subset_append_left _ _

theorem mem_waiting_pulse {src : Nat} {s : State} (h : muted src s = false) : src ∈ (pulse src s).flt.waiting := by
  rw [pulse_waiting src s h]; simp

theorem waiting_subset_finishAbort (code : Nat) (s : State) : s.flt.waiting ⊆ (finishAbort code s).flt.waiting := by
  unfold finishAbort
  rw [setEvt_flt]
  split
  · exact waiting_subset_pulse 64 s
  · exact List.Subset.refl _

theorem waiting_subset_planAbort (code : Nat) (s : State) : s.flt.waiting ⊆ (planAbort code s).flt.waiting := by
  cases h : planActive s
  · rw [planAbort_inactive h]
    exact List.Subset.refl _
  · cases he : excites s
    · rw [planAbort_still h he]
      exact waiting_subset_finishAbort code (planEnded code s.imp.fades s)
    · rw [planAbort_fading h he]
      exact List.Subset.refl _

theorem waiting_subset_excitationStops (s : State) : s.flt.waiting ⊆ (excitationStops s).flt.waiting := by
  have hfold (l : List Fade) (t : State) : t.flt.waiting ⊆ (l.foldl (fun t f => finishAbort f.code t) t).flt.waiting := by
    induction l generalizing t with
    | nil => exact List.Subset.refl _
    | cons f l ih => exact List.Subset.trans (waiting_subset_finishAbort f.code t) (ih _)
  unfold excitationStops
  split
  · exact List.Subset.refl _
  · exact hfold s.imp.fades { s with imp := { s.imp with fades := [] } }

/-- An event that waits goes on waiting when the converter stops. -/
theorem waiting_subset_leaveRunning (dest : Nat) (s : State) : s.flt.waiting ⊆ (leaveRunning dest s).flt.waiting := by
  unfold leaveRunning
  extract_lets ran s1 s2 s3 c s4
  have h1 : s.flt.waiting ⊆ s1.flt.waiting := by
    simp only [s1]
    split
    · exact waiting_subset_planAbort 4 s
    · exact List.Subset.refl _
  have h2 : s2.flt = s1.flt := rfl
  have h3 : s3.flt = s2.flt := by simp only [s3]; split <;> simp
  have h4 : s4.flt = s3.flt := by simp only [s4]; split <;> simp
  exact List.Subset.trans h1 ((h4.trans (h3.trans h2)) ▸ waiting_subset_excitationStops s4)

theorem waiting_subset_immediateStop (dest : Nat) (s : State) : s.flt.waiting ⊆ (immediateStop dest s).flt.waiting := by
  unfold immediateStop
  split
  · exact List.Subset.refl _
  · exact waiting_subset_leaveRunning dest s

theorem waiting_subset_refreshPhases (s : State) : s.flt.waiting ⊆ (refreshPhases s).flt.waiting := by
  unfold refreshPhases
  split
  · dsimp only
    split
    · exact waiting_subset_immediateStop 0 s
    · split <;> exact List.Subset.refl _
  · split
    · exact waiting_subset_immediateStop 0 s
    · exact List.Subset.refl _

end Sys2Proof.Machine
end

