-- ==== Sys2Proof/Proofs/ConverterRegulation.lean ====
section
/-!
PROOFS. The converter while it regulates: the switching period and the trims of its phases, the levels of light load, the load steps and braking (R192,
R264 to R270, R278 to R281, R298).
-/
namespace Sys2Proof.Machine

/-! ## The switching period -/

theorem clampI_le {v lo hi : Int} (h : lo ≤ hi) : clampI v lo hi ≤ hi := by unfold clampI; split <;> [exact h; (split <;> omega)]

theorem le_clampI {v lo hi : Int} (h : lo ≤ hi) : lo ≤ clampI v lo hi := by unfold clampI; split <;> [exact le_rfl; (split <;> omega)]

/-- R266, R268: the duty that a compensator gives lies within its limits. -/
theorem compensate_duty {dmin dmax : Nat} (h : dmin ≤ dmax) (c e u : List Int) (iref imeas dff trim : Int) :
    dmin ≤ (compensate c e u iref imeas dff trim dmin dmax).2.2 ∧ (compensate c e u iref imeas dff trim dmin dmax).2.2 ≤ dmax := by
  have hint : (dmin : Int) ≤ dmax := by exact_mod_cast h
  simp only [compensate]
  exact ⟨Int.toNat_le_toNat (le_clampI hint), Int.toNat_le.2 (clampI_le hint)⟩

/-- The measurements of a period in their registers (R298, R300). -/
def reportPeriod (im : List Int) (tot : Int) (vbs : Nat) (s : State) : State :=
  (List.range 4).foldl (fun t n => setReg (Reg.CNV_IPH n) (BitVec.ofInt 32 (clampI (nth im n 0) (-32768) 32767)) t) s
    |> setReg Reg.CNV_ITOT (BitVec.ofInt 32 (clampI tot (-32768) 32767)) |> setReg Reg.CNV_VBS (BitVec.ofNat 32 (min vbs 65535))

/-- The registers that a period reports its measurements in. -/
def measureRegs : List Nat := [Reg.CNV_IPH 0, Reg.CNV_IPH 1, Reg.CNV_IPH 2, Reg.CNV_IPH 3, Reg.CNV_ITOT, Reg.CNV_VBS]

theorem Changes.reportPeriod (im : List Int) (tot : Int) (vbs : Nat) (s : State) : Changes [] (oneOf measureRegs) s (reportPeriod im tot vbs s) := by
  have hphase (t : State) (n : Nat) (hn : n ∈ List.range 4) (w : Word) : Changes [] (oneOf measureRegs) t (Machine.setReg (Reg.CNV_IPH n) w t) :=
    (Changes.setReg _ w t).mono (by simp) (fun a ha => by
      subst ha
      simp only [List.mem_range, oneOf, measureRegs, Reg.CNV_IPH, List.mem_cons] at hn ⊢
      omega)
  exact (((Changes.foldl_mem _ _ (fun t n hn => hphase t n hn _) s).trans (.setReg Reg.CNV_ITOT _ _)).trans (.setReg Reg.CNV_VBS _ _)).mono (by simp)
    (by simp [oneOf, measureRegs]; tauto)

theorem reg_reportPeriod_vbs (im : List Int) (tot : Int) (vbs : Nat) (s : State) :
    reg (reportPeriod im tot vbs s) Reg.CNV_VBS = BitVec.ofNat 32 (min vbs 65535) := reg_setReg_same ..

theorem Changes.lockSync (s : State) : Changes [] (oneOf [Reg.CNV_STAT]) s (lockSync s) :=
  .of_ite (((Changes.setB Reg.CNV_STAT_SYNCLK true s).trans (.setB Reg.CNV_STAT_SYNCSTK false _)).mono (by simp)
    (by simp [oneOf, Reg.CNV_STAT_SYNCLK, Reg.CNV_STAT_SYNCSTK])) (.refl ..)

/-- What the hidden state of the converter holds at the end of a period (R264, R265, R268, R283). -/
structure PeriodEnd (vmod : Nat) (s : State) (c : CnvState) : Prop where
  duty : getF Reg.CNV_DLIM_DMIN s ≤ getF Reg.CNV_DLIM_DMAX s → bit Reg.CNV_STAT_BRK s = false →
    ∀ n, n < 4 → (getF Reg.CNV_STAT_ACT s).testBit n = true → getF Reg.CNV_DLIM_DMIN s ≤ nth c.duty n 0 ∧ nth c.duty n 0 ≤ getF Reg.CNV_DLIM_DMAX s
  dead : c.dead = List.replicate 4 (deadTime s)
  cutHigh : c.cutHigh = 0
  cutLow : c.cutLow = 0
  vmod : c.vmod = vmod
  coef : c.coef = s.cnv.coef
  trim : c.trim = s.cnv.trim

theorem exec_switchingPeriod {s : State} (hs : switching s = true) (sense valley : List Int) (vbs vmod : Nat) : ∃ c im tot, PeriodEnd vmod s c ∧
    exec (.switchingPeriod sense valley vbs vmod) s = .next (placeEdges (lockSync (reportPeriod im tot vbs { s with cnv := c }))) := by
  refine ⟨_, _, _, ?_, if_pos hs⟩
  refine ⟨fun hlim hbrk n hn hact => ?_, rfl, rfl, rfl, rfl, rfl, rfl⟩
  have hmem : (phasesOf (getF Reg.CNV_STAT_ACT s)).contains n = true := List.contains_iff_mem.2 (mem_phasesOf.2 ⟨hn, hact⟩)
  simp only [List.map_map]
  rw [nth_range_map _ 4 n 0 hn]
  simp only [Function.comp, hmem, hbrk, Bool.not_false, Bool.and_self, if_true]
  exact compensate_duty hlim ..

/-- R264, R265, R298: what a period leaves while the converter switches. -/
theorem switchingPeriod_next {s : State} (hs : switching s = true) (sense valley : List Int) (vbs vmod : Nat) : ∃ t,
    exec (.switchingPeriod sense valley vbs vmod) s = .next t ∧ PeriodEnd vmod s t.cnv ∧ getF Reg.CNV_VBS_VBS t = min vbs 65535 ∧
    Changes [.cnv] (oneOf [Reg.CNV_IPH 0, Reg.CNV_IPH 1, Reg.CNV_IPH 2, Reg.CNV_IPH 3, Reg.CNV_ITOT, Reg.CNV_VBS, Reg.CNV_STAT]) s t := by
  obtain ⟨c, im, tot, ⟨hduty, hdead, hhigh, hlow, hvmod, hcoef, htrim⟩, hnext⟩ := exec_switchingPeriod hs sense valley vbs vmod
  have hreport := Changes.reportPeriod im tot vbs { s with cnv := c }
  have hlock := Changes.lockSync (reportPeriod im tot vbs { s with cnv := c })
  have hcnv : (lockSync (reportPeriod im tot vbs { s with cnv := c })).cnv = c :=
    (hlock.part_eq .cnv (by simp)).trans (hreport.part_eq .cnv (by simp))
  have hvbs := (hlock.reg_eq (a := Reg.CNV_VBS) (by simp [oneOf, Reg.CNV_VBS, Reg.CNV_STAT])).trans (reg_reportPeriod_vbs im tot vbs _)
  refine ⟨_, hnext, ?_, ?_, ?_⟩
  · unfold placeEdges
    rw [hcnv]
    exact ⟨hduty, hdead, hhigh, hlow, hvmod, hcoef, htrim⟩
  · have hword : BitVec.toNat (BitVec.ofNat 32 (min vbs 65535)) = min vbs 65535 := by
      rw [BitVec.toNat_ofNat]; exact Nat.mod_eq_of_lt (by omega)
    have hfield : getF Reg.CNV_VBS_VBS (placeEdges (lockSync (reportPeriod im tot vbs { s with cnv := c }))) =
        getBits (BitVec.ofNat 32 (min vbs 65535)) 0 32 := congrArg (getBits · 0 32) hvbs
    rw [hfield, getBits, BitVec.ushiftRight_zero, hword]
    exact Nat.mod_eq_of_lt (by omega)
  · exact ((((Changes.withCnv s c).trans hreport).trans hlock).trans (.placeEdges _)).mono (by simp) (by simp [oneOf, measureRegs]; tauto)

/-! ## The trims -/

theorem Changes.reportTrims (s : State) : Changes [] (oneOf [Reg.CNV_TRIMST]) s (reportTrims s) :=
  (Changes.setReg Reg.CNV_TRIMST _ s).mono (by simp) (by simp [oneOf])

/-- R270: the equalisation starts its sums anew; where EN is 0 it does nothing else. -/
theorem phaseEqualisation_next (s : State) : ∃ t, exec .phaseEqualisation s = .next t ∧ t.cnv.phSum = [0, 0, 0, 0] ∧ t.cnv.phCnt = 0 ∧
    (bit Reg.CNV_TRIMCFG_EN s = false → t.cnv = { s.cnv with phSum := [0, 0, 0, 0], phCnt := 0 } ∧ t.regs = s.regs) ∧
    Changes [.cnv] (oneOf [Reg.CNV_TRIMST]) s t := by
  show ∃ t, execPhaseEqualisation s = .next t ∧ _
  unfold execPhaseEqualisation
  extract_lets act c restart
  split
  · next h =>
    obtain ⟨-, -, -, hen, -⟩ := h
    exact ⟨_, rfl, rfl, rfl, fun h0 => by simp [h0] at hen, ((Changes.withCnv s _).trans (.reportTrims _)).mono (by simp) (by simp)⟩
  · exact ⟨_, rfl, rfl, rfl, fun _ => ⟨rfl, rfl⟩, (Changes.withCnv s _).mono (by simp) (by simp)⟩

theorem Changes.markPhases (f : Field) (l : List Nat) (s : State) : Changes [] (oneOf [f.addr]) s (markPhases f l s) :=
  (Changes.setF f _ s).mono (by simp) (by simp [oneOf])

theorem testBit_markPhases {f : Field} (hf : f.lo + f.w ≤ 32) {n : Nat} (hn : n < f.w) (s : State) :
    (getF f (markPhases f [n] s)).testBit n = true := by
  rw [markPhases, getF_setF_same f _ s hf, Nat.testBit_mod_two_pow, Nat.testBit_or, phaseMask_singleton]
  simp [hn]

theorem exec_trimLimitTimeout (n : Fin 4) (s : State) : exec (.trimLimitTimeout n) s =
    if cnvState s = 4 ∧ (nth s.cnv.trimSince n.val none).any (fun t => decide (t + 10 * ms ≤ s.now)) then
      .next (refreshPhases (pulse 79 (markPhases Reg.CNV_PHFLT_IMB [n.val] s))) else .next s := by
  show execTrimLimitTimeout n s = _
  rw [execTrimLimitTimeout]

/-- R270: a trim at its limit for 10 ms marks its phase, and the phases that switch follow. -/
theorem trimLimitTimeout_due {s : State} {n : Fin 4} {b : Nat} (hr : cnvState s = 4) (hb : nth s.cnv.trimSince n.val none = some b)
    (ht : b + 10 * ms ≤ s.now) : ∃ t, exec (.trimLimitTimeout n) s = .next t ∧ (getF Reg.CNV_PHFLT_IMB t).testBit n.val = true ∧
    (muted 79 s = false → 79 ∈ t.flt.waiting) ∧ t.sys = s.sys ∧ t.cal = s.cal ∧ t.pending = s.pending := by
  have hmark := (Changes.markPhases Reg.CNV_PHFLT_IMB [n.val] s).trans (.pulse 79 _)
  have hrefresh := Changes.refreshPhases (pulse 79 (markPhases Reg.CNV_PHFLT_IMB [n.val] s))
  have hall := hmark.trans hrefresh
  have hlimit : (nth s.cnv.trimSince n.val none).any (fun t => decide (t + 10 * ms ≤ s.now)) = true := by
    rw [hb, Option.any_some]; exact decide_eq_true ht
  refine ⟨_, (exec_trimLimitTimeout n s).trans (if_pos ⟨hr, hlimit⟩), ?_, fun hm => waiting_subset_refreshPhases _ (mem_waiting_pulse hm),
    hall.part_eq .sys (by simp), hall.part_eq .cal (by simp), hall.pending_eq⟩
  have hreg := (hrefresh.reg_eq (show Reg.CNV_PHFLT ∉ stopRegs by decide)).trans (reg_pulse 79 Reg.CNV_PHFLT _)
  rw [getF_of_reg (f := Reg.CNV_PHFLT_IMB) hreg]
  exact testBit_markPhases (by decide) n.isLt s

theorem trimLimitTimeout_early {s : State} {n : Fin 4} (h : (nth s.cnv.trimSince n.val none).all (fun b => decide (s.now < b + 10 * ms)) = true) :
    exec (.trimLimitTimeout n) s = .next s := by
  refine (exec_trimLimitTimeout n s).trans (if_neg ?_)
  rintro ⟨-, hany⟩
  obtain ⟨b, hb, hdue⟩ := (Option.any_eq_true _ _).1 hany
  have hearly := (Option.all_eq_true _ _).1 h b hb
  rw [decide_eq_true_eq] at hdue hearly
  exact Nat.not_le.2 hearly hdue

/-! ## Shedding -/

theorem mayShed_run {s : State} (h : mayShed s = true) : cnvState s = 4 ∧ s.cnv.shedHold = none ∧ s.cnv.shed = none := by
  simp only [mayShed, Bool.and_eq_true, beq_iff_eq] at h
  obtain ⟨⟨⟨⟨⟨hr, -⟩, -⟩, -⟩, hhold⟩, hshed⟩ := h
  exact ⟨hr, hhold, hshed⟩

/-- R279: in the full level nothing but a shed can follow, and only where one is permitted. -/
theorem shedDecision_forbidden {s : State} (hm : mayShed s = false) (hl : getF Reg.CNV_STAT_LEVEL s = 0) : exec .shedDecision s = .next s := by
  show execShedDecision s = _
  unfold execShedDecision
  simp only [hl, hm, Bool.false_and, Bool.false_eq_true, and_false, if_false, ite_self]

theorem shedDecision_opens {s : State} (hm : mayShed s = true) (hs : s.cnv.samples ≠ []) (hl : getF Reg.CNV_STAT_LEVEL s = 0)
    (hp : 2 < (availablePhases s).length)
    (ht : (s.cnv.samples.map (fun e => e.2.natAbs)).sum < getF Reg.CNV_LL_SHED2 s * 128 * s.cnv.samples.length) :
    exec .shedDecision s = .next { s with cnv := { s.cnv with shed := some (1, 8) } } := by
  obtain ⟨hr, -, hshed⟩ := mayShed_run hm
  show execShedDecision s = _
  unfold execShedDecision
  simp only [hs, hr, hshed, hl, hm, hp, ht, Option.isSome_none, ne_eq, not_true_eq_false, Bool.false_eq_true, or_self, if_false, Bool.true_and,
    decide_true, if_true]

/-- R279: above 1.25 SHED2 the full level returns, whether or not shedding is permitted. -/
theorem shedDecision_restores {s : State} (hr : cnvState s = 4) (hshed : s.cnv.shed = none) (hs : s.cnv.samples ≠ [])
    (hl : getF Reg.CNV_STAT_LEVEL s = 1) (hp : availablePhases s ≠ [])
    (ht : getF Reg.CNV_LL_SHED2 s * 160 * s.cnv.samples.length < (s.cnv.samples.map (fun e => e.2.natAbs)).sum) : ∃ t,
    exec .shedDecision s = .next t ∧ getF Reg.CNV_STAT_LEVEL t = 0 ∧ getF Reg.CNV_STAT_ACT t = phaseMask (availablePhases s) ∧
    Changes [.cnv] (oneOf [Reg.CNV_STAT, Reg.CNV_TRIMST]) s t := by
  have hset := LevelSet.setLevel (level := 0) (by decide) (switching_run hr) hp
  refine ⟨setLevel 0 s, ?_, hset.shown, hset.active, hset.changes⟩
  show execShedDecision s = _
  unfold execShedDecision
  simp only [hs, hr, hshed, hl, ht, Option.isSome_none, ne_eq, not_true_eq_false, Bool.false_eq_true, or_self, if_false, decide_true, if_true]

/-- R279: the level falls when the eight periods of the window are over. -/
theorem shedWindowEnd_over {s : State} {l : Nat} (hw : s.cnv.shed = some (l, 0)) (h4 : l < 4) (hs : switching s = true)
    (hp : phasesAtLevel l (availablePhases s) ≠ []) : ∃ t, exec .shedWindowEnd s = .next t ∧ t.cnv.shed = none ∧ getF Reg.CNV_STAT_LEVEL t = l ∧
    getF Reg.CNV_STAT_ACT t = phaseMask (phasesAtLevel l (availablePhases s)) ∧ Changes [.cnv] (oneOf [Reg.CNV_STAT, Reg.CNV_TRIMST]) s t := by
  have hset := LevelSet.setLevel (s := { s with cnv := { s.cnv with shed := none } }) h4 hs hp
  refine ⟨_, ?_, hset.shed, hset.shown, hset.active, ((Changes.withCnv s _).trans hset.changes).mono (by simp) (by simp)⟩
  show execShedWindowEnd s = _
  unfold execShedWindowEnd
  rw [hw]
  rfl

theorem shedWindowEnd_open {s : State} {l n : Nat} (hw : s.cnv.shed = some (l, n + 1)) : exec .shedWindowEnd s = .next s := by
  show execShedWindowEnd s = _
  unfold execShedWindowEnd
  rw [hw]
  rfl

theorem shedHoldExpiry_over {s : State} {h : Nat} (hh : s.cnv.shedHold = some h) (ht : h ≤ s.now) :
    exec .shedHoldExpiry s = .next { s with cnv := { s.cnv with shedHold := none } } := if_pos (by simp [hh, ht])

/-- R280: until the hold is over nothing is shed. -/
theorem shedHoldExpiry_early {s : State} {h : Nat} (hh : s.cnv.shedHold = some h) (ht : s.now < h) :
    mayShed s = false ∧ exec .shedHoldExpiry s = .next s :=
  ⟨by simp [mayShed, hh], if_neg (by simp [hh]; omega)⟩

/-! ## Braking -/

theorem endBraking_braking {s : State} (h : bit Reg.CNV_STAT_BRK s = true) : endBraking s = { setB Reg.CNV_STAT_BRK false s with
    pins := { s.pins with pwm := .switching }
    cnv := { s.cnv with brakeLeft := 0, errs := List.replicate 4 [0, 0, 0], outs := List.replicate 4 [0, 0, 0] } } := if_pos h

theorem endBraking_idle {s : State} (h : bit Reg.CNV_STAT_BRK s = false) : endBraking s = s := if_neg (by simp [h])

theorem bit_endBraking (s : State) : bit Reg.CNV_STAT_BRK (endBraking s) = false := by
  cases h : bit Reg.CNV_STAT_BRK s
  · rw [endBraking_idle h, h]
  · rw [endBraking_braking h]
    exact bit_setB_same (by decide) rfl false s

theorem Changes.endBraking (s : State) : Changes [.cnv, .pins] (oneOf [Reg.CNV_STAT]) s (endBraking s) :=
  .of_ite (((Changes.setB Reg.CNV_STAT_BRK false s).trans (.withPinsCnv _ _ _)).mono (by simp) (by simp [oneOf, Reg.CNV_STAT_BRK]))
    (.refl ..)

theorem reg_endBraking {a : Nat} (h : a ≠ Reg.CNV_STAT) (s : State) : reg (endBraking s) a = reg s a :=
  (Changes.endBraking s).reg_eq (by simp [oneOf, h])

/-- The end of braking leaves the fields beside BRK as they are. -/
theorem getF_endBraking {f : Field} (h : f.lo + f.w ≤ 20 ∨ 21 ≤ f.lo) (hw : f.lo + f.w ≤ 32) (s : State) : getF f (endBraking s) = getF f s := by
  unfold endBraking
  split
  · exact getF_setF_beside Reg.CNV_STAT_BRK f (b2n false) s h hw
  · rfl

theorem endBraking_shed (s : State) : (endBraking s).cnv.shed = s.cnv.shed := by unfold endBraking; split <;> rfl

theorem availablePhases_endBraking (s : State) : availablePhases (endBraking s) = availablePhases s :=
  availablePhases_congr (reg_endBraking (by decide) s) (getF_endBraking (by decide) (by decide) s) (reg_endBraking (by decide) s)

theorem switching_endBraking (s : State) : switching (endBraking s) = switching s := switching_congr (getF_endBraking (by decide) (by decide) s)

/-- R281: both switches of every active phase are held off, for 64 periods at most. -/
theorem brakingStart_next {s : State} (hcls : s.cnv.cls = 1) (hs : switching s = true) (hen : bit Reg.CNV_LL_BRKEN s = true)
    (hbrk : bit Reg.CNV_STAT_BRK s = false) (hv : busAbove 10 s = true) (hi : 0 < signed 16 (getF Reg.CNV_ITOT_ITOT s % 65536)) : ∃ t,
    exec .brakingStart s = .next t ∧ bit Reg.CNV_STAT_BRK t = true ∧ t.pins = { s.pins with pwm := .low } ∧
    t.cnv = { s.cnv with brakeLeft := 64 } ∧
    getF Reg.CNV_EVTCNT_BRAKE t = min (getF Reg.CNV_EVTCNT_BRAKE s + 1) (2 ^ Reg.CNV_EVTCNT_BRAKE.w - 1) ∧
    Changes [.cnv, .pins] (oneOf [Reg.CNV_STAT, Reg.CNV_EVTCNT]) s t := by
  have hcount : getF Reg.CNV_EVTCNT_BRAKE (setB Reg.CNV_STAT_BRK true s) = getF Reg.CNV_EVTCNT_BRAKE s := getF_of_reg (reg_setB_other (by decide) _ _)
  refine ⟨_, if_pos ⟨hcls, hs, hen, hbrk, hv, hi⟩, ?_, rfl, rfl, ?_, ?_⟩
  · have hstat : reg (incSat Reg.CNV_EVTCNT_BRAKE (setB Reg.CNV_STAT_BRK true s)) Reg.CNV_STAT = reg (setB Reg.CNV_STAT_BRK true s) Reg.CNV_STAT :=
      reg_incSat_other (by decide) _
    exact (bit_of_reg (f := Reg.CNV_STAT_BRK) hstat).trans (bit_setB_same (by decide) rfl true s)
  · exact (getF_incSat Reg.CNV_EVTCNT_BRAKE _ (by decide)).trans (by rw [hcount])
  · exact (((Changes.setB Reg.CNV_STAT_BRK true s).trans (.incSat Reg.CNV_EVTCNT_BRAKE _)).trans (.withPinsCnv _ _ _)).mono (by simp)
      (by simp [oneOf, Reg.CNV_STAT_BRK, Reg.CNV_EVTCNT_BRAKE])

/-- R281: the end of braking clears the histories of the compensators. -/
theorem brakingEnd_over {s : State} (hbrk : bit Reg.CNV_STAT_BRK s = true)
    (h : s.cnv.brakeLeft = 0 ∨ ((busVoltage s : Nat) : Int) < voltageReference s + 5 * getF Reg.CNV_LSD_LSV s) : ∃ t, exec .brakingEnd s = .next t ∧
    bit Reg.CNV_STAT_BRK t = false ∧ t.pins = { s.pins with pwm := .switching } ∧
    t.cnv = { s.cnv with errs := List.replicate 4 [0, 0, 0], outs := List.replicate 4 [0, 0, 0], brakeLeft := 0 } ∧
    Changes [.cnv, .pins] (oneOf [Reg.CNV_STAT]) s t := by
  refine ⟨_, if_pos h, bit_endBraking s, ?_, ?_, Changes.endBraking s⟩
  · rw [endBraking_braking hbrk]
  · rw [endBraking_braking hbrk]

theorem brakingEnd_early {s : State} (hn : s.cnv.brakeLeft ≠ 0) (hv : voltageReference s + 5 * getF Reg.CNV_LSD_LSV s ≤ ((busVoltage s : Nat) : Int)) :
    exec .brakingEnd s = .next s := if_neg (by simp only [hn, false_or]; omega)

/-! ## Load steps -/

theorem exec_loadStepDetect {s : State} (hs : switching s = true) (hl : loadStepStands s = true) : exec .loadStepDetect s =
    if (endBraking s).cnv.shed.isSome then .next (setEvt .cnv 16 (incSat Reg.CNV_EVTCNT_SHEDABT
      { endBraking s with cnv := { (endBraking s).cnv with shed := none, shedHold := some (s.now + 10 * ms) } }))
    else if getF Reg.CNV_STAT_LEVEL (endBraking s) ≠ 0 then
      .next (setLevel 0 { endBraking s with cnv := { (endBraking s).cnv with shedHold := some (s.now + 10 * ms) } })
    else .next (endBraking s) := if_pos (by simp [hs, hl])

/-- R280: a load step ends a shed, which is counted and reported, and the braking with it. -/
theorem loadStepDetect_shed {s : State} (hs : switching s = true) (hl : loadStepStands s = true) (hw : s.cnv.shed.isSome = true) : ∃ t,
    exec .loadStepDetect s = .next t ∧ t.cnv.shed = none ∧ t.cnv.shedHold = some (s.now + 10 * ms) ∧ regBit Reg.CNV_EVT 4 t = true ∧
    bit Reg.CNV_STAT_BRK t = false ∧
    getF Reg.CNV_EVTCNT_SHEDABT t = min (getF Reg.CNV_EVTCNT_SHEDABT s + 1) (2 ^ Reg.CNV_EVTCNT_SHEDABT.w - 1) ∧
    Changes [.cnv, .fab, .pins] (oneOf [Reg.CNV_STAT, Reg.CNV_EVT, Reg.CNV_EVTCNT]) s t := by
  have hnext := (exec_loadStepDetect hs hl).trans (if_pos (by rw [endBraking_shed, hw]))
  have hcount : getF Reg.CNV_EVTCNT_SHEDABT (endBraking s) = getF Reg.CNV_EVTCNT_SHEDABT s := getF_of_reg (reg_endBraking (by decide) s)
  refine ⟨_, hnext, by simp, by simp, regBit_setEvt (b := .cnv) (bits := 16) (by decide) (by decide) _, ?_, ?_, ?_⟩
  · rw [bit_of_reg ((reg_setEvt (by decide) _ _).trans (reg_incSat_other (by decide) _))]
    exact bit_endBraking s
  · rw [getF_of_reg (reg_setEvt (by decide) _ _), getF_incSat _ _ (by decide)]
    exact congrArg (fun n => min (n + 1) _) hcount
  · exact ((((Changes.endBraking s).trans (.withCnv _ _)).trans (.incSat Reg.CNV_EVTCNT_SHEDABT _)).trans (.setEvt .cnv 16 _)).mono (by simp)
      (by simp [oneOf, EvtBlock.evt, Reg.CNV_EVTCNT_SHEDABT]; tauto)

/-- R280: a load step in a lowered level restores the full level at once. -/
theorem loadStepDetect_level {s : State} (hs : switching s = true) (hl : loadStepStands s = true) (hw : s.cnv.shed = none)
    (hlev : getF Reg.CNV_STAT_LEVEL s ≠ 0) (hp : availablePhases s ≠ []) : ∃ t, exec .loadStepDetect s = .next t ∧ getF Reg.CNV_STAT_LEVEL t = 0 ∧
    t.cnv.shedHold = some (s.now + 10 * ms) ∧ getF Reg.CNV_STAT_ACT t = phaseMask (availablePhases s) ∧
    Changes [.cnv, .pins] (oneOf [Reg.CNV_STAT, Reg.CNV_TRIMST]) s t := by
  have hshed : (endBraking s).cnv.shed.isSome = false := by rw [endBraking_shed, hw]; rfl
  have hlevel : getF Reg.CNV_STAT_LEVEL (endBraking s) ≠ 0 := by rwa [getF_endBraking (by decide) (by decide)]
  have hset := LevelSet.setLevel (level := 0)
    (s := { endBraking s with cnv := { (endBraking s).cnv with shedHold := some (s.now + 10 * ms) } }) (by decide) ((switching_endBraking s).trans hs)
    ((availablePhases_endBraking s).symm ▸ hp :)
  refine ⟨_, ?_, hset.shown, hset.shedHold, hset.active.trans (congrArg phaseMask (availablePhases_endBraking s)), ?_⟩
  · rw [exec_loadStepDetect hs hl, hshed, if_neg Bool.false_ne_true, if_pos hlevel]
  · exact (((Changes.endBraking s).trans (.withCnv _ _)).trans hset.changes).mono (by simp) (by simp [oneOf])

theorem loadStepDetect_none {s : State} (hl : loadStepStands s = false) : exec .loadStepDetect s = .next s := if_neg (by simp [hl])

/-! ## Continuous conduction -/

theorem diodeEmulation_held {s : State} (h : s.imp.ccm = true) : diodeEmulation s = false := by simp [diodeEmulation, continuous, h]

/-- R192: before the first step of a plan the converter is held in continuous conduction, with every phase that may switch. -/
theorem continuousConductionStart_next {s : State} (ha : planActive s = true) (ht : s.imp.start ≤ s.ft + ms) (hr : cnvState s = 4)
    (hp : availablePhases s ≠ []) : ∃ t, exec .continuousConductionStart s = .next t ∧ t.imp = { s.imp with ccm := true } ∧ diodeEmulation t = false ∧
    t.cnv.shed = none ∧ getF Reg.CNV_STAT_LEVEL t = 0 ∧ getF Reg.CNV_STAT_ACT t = phaseMask (availablePhases s) ∧
    Changes [.cnv, .imp] (oneOf [Reg.CNV_STAT, Reg.CNV_TRIMST]) s t := by
  have hset := LevelSet.setLevel (level := 0) (s := { s with imp := { s.imp with ccm := true }, cnv := { s.cnv with shed := none } }) (by decide)
    (switching_run hr) hp
  refine ⟨_, if_pos ⟨ha, ht⟩, hset.imp, diodeEmulation_held (congrArg ImpState.ccm hset.imp), hset.shed, hset.shown, hset.active, ?_⟩
  exact (((Changes.withImp s { s.imp with ccm := true }).trans (.withCnv _ { s.cnv with shed := none })).trans hset.changes).mono (by simp) (by simp)

/-- Settles O23: the hidden state at the end of a period is read off its compensators, each change of level is one operation whatever asks for it, and every
other event acts when its condition stands and its time has come. -/
theorem converterRegulation : Obligations.ConverterRegulation := by
  unfold Obligations.ConverterRegulation
  intro s
  refine ⟨fun sense valley vbs vmod hs => ?_, fun sense valley vbs vmod hs => if_neg (by simp [hs]), fun _ => phaseEqualisation_next s,
    fun n b hr hb ht => trimLimitTimeout_due hr hb ht, fun n h => trimLimitTimeout_early h, shedDecision_forbidden, shedDecision_opens,
    shedDecision_restores, fun l hw h4 hs hp => shedWindowEnd_over hw h4 hs hp, fun l n hw => shedWindowEnd_open hw, loadStepDetect_shed,
    loadStepDetect_level, loadStepDetect_none, fun h hh ht => shedHoldExpiry_over hh ht, fun h hh ht => shedHoldExpiry_early hh ht,
    brakingStart_next, brakingEnd_over, brakingEnd_early, continuousConductionStart_next⟩
  obtain ⟨t, hnext, ⟨hduty, hdead, hhigh, hlow, hvmod, hcoef, htrim⟩, hvbs, hchg⟩ := switchingPeriod_next hs sense valley vbs vmod
  exact ⟨t, hnext, hduty, hdead, hhigh, hlow, hvmod, hvbs, hcoef, htrim, hchg⟩

end Sys2Proof.Machine
end

