-- ==== Sys2Proof/Proofs/ProtectionRules.lean ====
section
/-!
PROOFS. Rules of the state that the proofs of the family 07_cell_protection_and_passive_balancing use: updates of one part, the bleed switches that are
shown, and what a completion may change.
-/
namespace Sys2Proof.Machine

/-! ## Updates of one part -/

theorem Changes.withPins (s : State) (y : Pins) : Changes [.pins] (fun _ => False) s { s with pins := y } :=
  ⟨rfl, fun p hp => by cases p <;> simp_all [Part.same], fun _ _ => rfl⟩

theorem Changes.withCpb (s : State) (y : CpbState) : Changes [.cpb] (fun _ => False) s { s with cpb := y } :=
  ⟨rfl, fun p hp => by cases p <;> simp_all [Part.same], fun _ _ => rfl⟩

theorem Changes.withPinsCpb (s : State) (x : Pins) (y : CpbState) : Changes [.pins, .cpb] (fun _ => False) s { s with pins := x, cpb := y } :=
  ⟨rfl, fun p hp => by cases p <;> simp_all [Part.same], fun _ _ => rfl⟩

theorem Changes.withXck (s : State) (y : XckState) : Changes [.xck] (fun _ => False) s { s with xck := y } :=
  ⟨rfl, fun p hp => by cases p <;> simp_all [Part.same], fun _ _ => rfl⟩

theorem Changes.withLnk (s : State) (y : LnkState) : Changes [.lnk] (fun _ => False) s { s with lnk := y } :=
  ⟨rfl, fun p hp => by cases p <;> simp_all [Part.same], fun _ _ => rfl⟩

theorem Changes.reg_other {ps : List Part} {as : List Nat} {s t : State} (h : Changes ps (oneOf as) s t) {a : Nat} (ha : a ∉ as) : reg t a = reg s a :=
  h.2.2 a ha

theorem Changes.latchG1 (d : Option Nat) (k : Nat) (s : State) : Changes [.hst] (fun _ => False) s (latchG1 d k s) := .withHst s _

theorem bit_setF_beside {f g : Field} (h : g.lo + g.w ≤ f.lo ∨ f.lo + f.w ≤ g.lo) (hw : g.lo + g.w ≤ 32) (v : Nat) (s : State) :
    bit g (setF f v s) = bit g s := congrArg (· == 1) (getF_setF_beside f g v s h hw)

theorem regBit_of_reg {a : Nat} {s t : State} (h : reg t a = reg s a) (k : Nat) : regBit a k t = regBit a k s := congrArg (·.getLsbD k) h

theorem regBit_setRegBit_same (a : Nat) {k : Nat} (hk : k < 32) (b : Bool) (s : State) : regBit a k (setRegBit a k b s) = b :=
  (getLsbD_setRegBit a k k b s).trans (if_pos ⟨rfl, hk⟩)

/-! ## Completions -/

/-- What a completion may change: what waits for the host or for a port, and the registers of FAB and of the blocks after it. -/
def Outbound (s t : State) : Prop := Changes [.resp, .lnk, .fab, .hst] (Reg.FAB_CFG ≤ ·) s t

theorem Outbound.refl (s : State) : Outbound s s := Changes.refl ..

theorem Outbound.trans {s t u : State} (h : Outbound s t) (h' : Outbound t u) : Outbound s u := (Changes.trans h h').mono (by simp) (by simp)

theorem Outbound.of_ite {c : Prop} [Decidable c] {s t u : State} (ht : Outbound s t) (hu : Outbound s u) : Outbound s (if c then t else u) :=
  Changes.of_ite ht hu

theorem Outbound.part {ps : List Part} {s t : State} (h : Changes ps (fun _ => False) s t) (hp : ∀ p ∈ ps, p ∈ [Part.resp, .lnk, .fab, .hst]) :
    Outbound s t := h.mono hp (fun _ => False.elim)

theorem Outbound.hst (s : State) (y : HstState) : Outbound s { s with hst := y } := .part (.withHst s y) (by simp)

theorem Outbound.setReg {a : Nat} (h : Reg.FAB_CFG ≤ a) (v : Word) (s : State) : Outbound s (setReg a v s) :=
  (Changes.setReg a v s).mono (by simp) (fun _ hb => hb ▸ h)

theorem Outbound.writeback (s : State) : Outbound s (writeback s) :=
  .of_ite (Changes.trans (.withHst s _) (.withHst _ _) |>.mono (by simp) (by simp)) (.refl s)

theorem Outbound.message (v : Nat) (s : State) : Outbound s (message v s) :=
  .of_ite (.of_ite (.setReg (by decide) _ s) ((Outbound.writeback s).trans ((Outbound.hst _ _).trans (.hst _ _)))) (.refl s)

theorem Outbound.countEntry (r : Nat) (s : State) : Outbound s (countEntry r s) :=
  (Outbound.hst s _).trans (.of_ite (.of_ite ((Outbound.hst _ _).trans (.message _ _)) (.refl _)) (.refl _))

theorem Outbound.ringWrite (n : Nat) (mk : Bool → List Byte) (s : State) : Outbound s (ringWrite 1 n mk s) :=
  (((Outbound.hst s _).trans (.setReg (by decide) _ _)).trans (.hst _ _)).trans (.countEntry 1 _)

theorem Outbound.flushCompletions (k : Nat) (s : State) : Outbound s (flushCompletions k s) := by
  induction k generalizing s with
  | zero => exact .refl s
  | succ k ih =>
    unfold Machine.flushCompletions
    split
    · exact .refl s
    · refine .of_ite ?_ (.refl s)
      exact ((Outbound.of_ite (.hst s _) (.refl s)).trans ((Outbound.hst _ _).trans (.ringWrite _ _ _))).trans (ih _)

theorem Outbound.finishHost (slot : Nat) (mk : HostCmd → HostDone) (s : State) : Outbound s (finishHost slot mk s) := by
  unfold Machine.finishHost
  split
  · exact .refl s
  · refine Outbound.trans ?_ ((Outbound.setReg (by decide) _ _).trans (.setReg (by decide) _ _))
    exact ((Outbound.hst s _).trans (.of_ite (.hst _ _) (.hst _ _))).trans (.flushCompletions _ _)

theorem Outbound.sendRouted (f : Frame) (s : State) : Outbound s (sendRouted f s) :=
  .of_ite (.setReg (by decide) _ s) (.of_ite ((Changes.enqueue _ _ _ s).mono (by simp) (fun _ ha => ha ▸ by decide)) (.setReg (by decide) _ s))

theorem Outbound.sendCpl (src tag : Nat) (cls : Cls) (rroute : Word) (rhop : Nat) (p : List Word) (s : State) :
    Outbound s (sendCpl src tag cls rroute rhop p s) := by
  have hnone : Outbound s (incSat Reg.FAB_ERR_NOPORT s) := .setReg (by decide) _ s
  unfold Machine.sendCpl
  refine .of_ite (.sendRouted _ s) ?_
  split
  · unfold sendHome
    split
    · exact .sendRouted _ s
    · exact hnone
  · exact hnone

theorem Outbound.complete (tk : Ticket) (st : Status) (data : List Word) (tval : Nat) (s : State) : Outbound s (complete tk st data tval s) := by
  cases tk with
  | direct => exact .part (.withResp s _) (by simp)
  | fabric => exact .of_ite (.refl s) ((Outbound.sendCpl ..).trans (.part (.withFab _ _) (by simp)))
  | host => exact .finishHost _ _ s

/-! ## Switches that open -/

theorem Changes.noteBleed (s : State) : Changes [.cms, .xck, .imp] (fun _ => False) s (noteBleed s) :=
  ⟨rfl, fun p hp => by cases p <;> simp_all [Part.same, Machine.noteBleed], fun _ _ => rfl⟩

/-- The state with the switches of a mask shown as conducting, and the row that holds. -/
def showSwitches (mask : Word) (row : Nat) (s : State) : State := setF Reg.CPB_BALSTAT_HOLD row (setF Reg.CPB_BALSTAT_ON (getBits mask 1 24) s)

theorem Changes.showSwitches (mask : Word) (row : Nat) (s : State) : Changes [] (oneOf [Reg.CPB_BALSTAT]) s (showSwitches mask row s) :=
  ((Changes.setF ..).trans (.setF ..)).mono (by simp) (by simp [oneOf, Reg.CPB_BALSTAT_ON, Reg.CPB_BALSTAT_HOLD])

theorem conducts_of_reg {s t : State} (h : reg t Reg.CPB_BALSTAT = reg s Reg.CPB_BALSTAT) (n : Nat) : conducts n t = conducts n s := by
  unfold conducts; rw [getF_of_reg (f := Reg.CPB_BALSTAT_ON) h]

theorem conducts_showSwitches (mask : Word) (row n : Nat) (s : State) :
    conducts n (showSwitches mask row s) = (decide (1 ≤ n) && decide (n ≤ 24) && mask.getLsbD n) := by
  have hon : getF Reg.CPB_BALSTAT_ON (showSwitches mask row s) = getBits mask 1 24 := by
    rw [showSwitches, getF_setF_beside _ _ _ _ (by decide) (by decide), getF_setF_same _ _ _ (by decide)]
    exact Nat.mod_mod ..
  by_cases hn : 1 ≤ n ∧ n ≤ 24
  · have hlt : n - 1 < 24 := by omega
    have hat : 1 + (n - 1) = n := by omega
    simp only [conducts, hon, testBit_getBits, hlt, hat, decide_true, Bool.true_and]
  · have hout : (decide (1 ≤ n) && decide (n ≤ 24)) = false := by rw [← Bool.decide_and]; exact decide_eq_false hn
    simp only [conducts, hout, Bool.false_and]

theorem enforceSwitches_eq (s : State) : enforceSwitches s =
    showSwitches (cellMask (fun n => (getF Reg.CPB_BALSTAT_ON s).testBit (n - 1) && eligible n s)) (holdRow s) (noteBleed s) := rfl

/-- R238, R244: of the switches that conduct, those that are eligible stay closed. -/
theorem conducts_enforceSwitches (n : Nat) (s : State) : conducts n (enforceSwitches s) = (conducts n s && eligible n s) := by
  rw [enforceSwitches_eq, conducts_showSwitches, getLsbD_cellMask, conducts]
  cases decide (1 ≤ n) <;> cases decide (n ≤ 24) <;> simp

theorem Changes.enforceSwitches (s : State) : Changes [.cms, .xck, .imp] (oneOf [Reg.CPB_BALSTAT]) s (enforceSwitches s) :=
  ((Changes.noteBleed s).trans (.showSwitches _ _ _)).mono (by simp) (by simp)

end Sys2Proof.Machine
end

