-- ==== Sys2Proof/Proofs/FaultPair.lean ====
section
/-!
PROOFS. The fault pair (R229-R233): what each of its events does where its condition stands, and that it does nothing where the condition is missing.
-/
namespace Sys2Proof.Machine

/-! ## Source 71 -/

theorem Changes.pairFault (s : State) : Changes [.flt, .hst] (fun _ => False) s (pairFault s) :=
  ((Changes.pulse 71 s).trans (.latchG1 none 9 _)).mono (by simp) (by simp)

@[simp] theorem reg_pairFault (s : State) (a : Nat) : reg (pairFault s) a = reg s a := (Changes.pairFault s).reg_eq id

theorem pairFault_waiting {s : State} (h : muted 71 s = false) : (pairFault s).flt.waiting = s.flt.waiting ++ [71] := pulse_waiting 71 s h

/-! ## DRIVE: the tone and its readback -/

theorem exec_toneResume (s : State) : exec .toneResume s =
    if s.cpb.sense = false ∧ pairCause s = false ∧ s.pins.fault = .faultLevel ∧ s.now % ms < 5 ∧ s.cpb.faultSince + 10 * ms ≤ s.now then
      .next (setB Reg.CPB_FPSTAT_TONE true { s with pins := { s.pins with fault := .tone } })
    else .next s :=
  if_congr (by simp [onMillisecond, and_assoc]) rfl rfl

/-- R229: once no cause stands and the fault level has lasted 10 ms, the tone resumes at a millisecond boundary. -/
theorem toneResume_due {s : State} (hd : s.cpb.sense = false) (hc : pairCause s = false) (hp : s.pins.fault = .faultLevel) (hm : s.now % ms < 5)
    (ht : s.cpb.faultSince + 10 * ms ≤ s.now) : ∃ t, exec .toneResume s = .next t ∧ t.pins = { s.pins with fault := .tone } ∧
    bit Reg.CPB_FPSTAT_TONE t = true ∧ Changes [.pins] (oneOf [Reg.CPB_FPSTAT]) s t := by
  refine ⟨_, (exec_toneResume s).trans (if_pos ⟨hd, hc, hp, hm, ht⟩), rfl, bit_setB_same (by decide) rfl true _, ?_⟩
  exact ((Changes.withPins s _).trans (.setB ..)).mono (by simp) (by simp [oneOf, Reg.CPB_FPSTAT_TONE])

theorem toneResume_waits {s : State}
    (h : s.cpb.sense = true ∨ pairCause s = true ∨ s.now < s.cpb.faultSince + 10 * ms ∨ 5 ≤ s.now % ms) : exec .toneResume s = .next s := by
  rw [exec_toneResume, if_neg]
  rintro ⟨hd, hc, -, hm, ht⟩
  rcases h with h | h | h | h
  · simp [hd] at h
  · simp [hc] at h
  · omega
  · omega

/-- R230: a readback that differs from what DRIVE drives sets RBERR and raises source 71. -/
theorem faultPairReadbackError_next {s : State} (hc : coreUp s = true) (hd : s.cpb.sense = false) : ∃ t, exec .faultPairReadbackError s = .next t ∧
    bit Reg.CPB_FPSTAT_RBERR t = true ∧ (muted 71 s = false → t.flt.waiting = s.flt.waiting ++ [71]) ∧
    Changes [.flt, .hst] (oneOf [Reg.CPB_FPSTAT]) s t := by
  refine ⟨_, if_pos (by simp [hc, hd]), ?_, pairFault_waiting (s := setB Reg.CPB_FPSTAT_RBERR true s), ?_⟩
  · exact (bit_of_reg (reg_pairFault _ _)).trans (bit_setB_same (by decide) rfl true s)
  · exact ((Changes.setB ..).trans (.pairFault _)).mono (by simp) (by simp [oneOf, Reg.CPB_FPSTAT_RBERR])

/-! ## SENSE: the neighbour -/

/-- R231, R232: a return to Healthy. -/
theorem neighbourStateChange_healthy {s : State} (hc : coreUp s = true) (hs : s.cpb.sense = true) : ∃ t, exec (.neighbourStateChange 0) s = .next t ∧
    bit Reg.CPB_FPSTAT_NBROK t = true ∧ bit Reg.CPB_FPSTAT_STUCK t = false ∧ getF Reg.CPB_FPSTAT_CAUSE t = 0 ∧
    Changes [.flt] (oneOf [Reg.CPB_FPSTAT, Reg.FLT_ACT 2]) s t := by
  have hkept (u : State) : reg (drop 71 u) Reg.CPB_FPSTAT = reg u Reg.CPB_FPSTAT := reg_drop (by decide) u
  refine ⟨_, if_pos (by simp [hc, hs]), ?_, ?_, ?_, ?_⟩
  · exact (bit_of_reg (hkept _)).trans ((bit_setB_beside (by decide) (by decide) _ _).trans (bit_setB_same (by decide) rfl true _))
  · exact (bit_of_reg (hkept _)).trans (bit_setB_same (by decide) rfl false _)
  · rw [getF_of_reg (f := Reg.CPB_FPSTAT_CAUSE) (hkept _), setB, getF_setF_beside _ _ _ _ (by decide) (by decide), setB,
      getF_setF_beside _ _ _ _ (by decide) (by decide)]
    exact getF_setF_same Reg.CPB_FPSTAT_CAUSE 0 s (by decide)
  · exact ((((Changes.setF ..).trans (.setB ..)).trans (.setB ..)).trans (.drop ..)).mono (by simp)
      (by simp [oneOf, Reg.CPB_FPSTAT_CAUSE, Reg.CPB_FPSTAT_NBROK, Reg.CPB_FPSTAT_STUCK])

/-- The state in which a loss of Healthy is recorded, before source 71 and the event (R231, R232). -/
def lossRecorded (cause : Nat) (s : State) : State :=
  let r := setB Reg.CPB_FPSTAT_NBROK false (incSat Reg.CPB_FPSTAT_LOSSCNT (setF Reg.CPB_FPSTAT_CAUSE cause s))
  { r with cpb := { r.cpb with nbrSince := r.now } }

theorem neighbourStateChange_loss_next {s : State} {c : Fin 4} (hc : coreUp s = true) (hs : s.cpb.sense = true)
    (hn : bit Reg.CPB_FPSTAT_NBROK s = true) (h0 : c.val ≠ 0) :
    exec (.neighbourStateChange c) s = .next (setEvt .cpb 4 (pairFault (lossRecorded c s))) := by
  refine (if_pos (by simp [hc, hs])).trans ?_
  rw [if_neg h0, if_pos hn]
  rfl

theorem Changes.lossRecorded (cause : Nat) (s : State) : Changes [.cpb] (oneOf [Reg.CPB_FPSTAT]) s (lossRecorded cause s) :=
  ((((Changes.setF ..).trans (.incSat ..)).trans (.setB ..)).trans (.withCpb ..)).mono (by simp)
    (by simp [oneOf, Reg.CPB_FPSTAT_CAUSE, Reg.CPB_FPSTAT_NBROK, Reg.CPB_FPSTAT_LOSSCNT])

/-- R231, R232: a loss of Healthy is counted once. -/
theorem neighbourStateChange_loss {s : State} (c : Fin 4) (hc : coreUp s = true) (hs : s.cpb.sense = true)
    (hn : bit Reg.CPB_FPSTAT_NBROK s = true) (h0 : c.val ≠ 0) : ∃ t, exec (.neighbourStateChange c) s = .next t ∧
    bit Reg.CPB_FPSTAT_NBROK t = false ∧ getF Reg.CPB_FPSTAT_CAUSE t = c.val ∧
    getF Reg.CPB_FPSTAT_LOSSCNT t = min (getF Reg.CPB_FPSTAT_LOSSCNT s + 1) (2 ^ Reg.CPB_FPSTAT_LOSSCNT.w - 1) ∧ regBit Reg.CPB_EVT 2 t = true ∧
    Changes [.flt, .hst, .fab, .cpb] (oneOf [Reg.CPB_FPSTAT, Reg.CPB_EVT]) s t := by
  have hkept : reg (setEvt .cpb 4 (pairFault (lossRecorded c s))) Reg.CPB_FPSTAT = reg (lossRecorded c s) Reg.CPB_FPSTAT :=
    (reg_setEvt (by decide) _ _).trans (reg_pairFault _ _)
  refine ⟨_, neighbourStateChange_loss_next hc hs hn h0, ?_, ?_, ?_, regBit_setEvt (b := .cpb) (by decide) (by decide) _, ?_⟩
  · exact (bit_of_reg hkept).trans (bit_setB_same (f := Reg.CPB_FPSTAT_NBROK) (by decide) rfl false _)
  · calc getF Reg.CPB_FPSTAT_CAUSE (setEvt .cpb 4 (pairFault (lossRecorded c s)))
        = getF Reg.CPB_FPSTAT_CAUSE (lossRecorded c s) := getF_of_reg hkept
      _ = getF Reg.CPB_FPSTAT_CAUSE (incSat Reg.CPB_FPSTAT_LOSSCNT (setF Reg.CPB_FPSTAT_CAUSE c s)) := getF_setF_beside _ _ _ _ (by decide) (by decide)
      _ = getF Reg.CPB_FPSTAT_CAUSE (setF Reg.CPB_FPSTAT_CAUSE c s) := getF_setF_beside _ _ _ _ (by decide) (by decide)
      _ = c.val % 8 := getF_setF_same _ _ _ (by decide)
      _ = c.val := Nat.mod_eq_of_lt (by omega)
  · calc getF Reg.CPB_FPSTAT_LOSSCNT (setEvt .cpb 4 (pairFault (lossRecorded c s)))
        = getF Reg.CPB_FPSTAT_LOSSCNT (lossRecorded c s) := getF_of_reg hkept
      _ = getF Reg.CPB_FPSTAT_LOSSCNT (incSat Reg.CPB_FPSTAT_LOSSCNT (setF Reg.CPB_FPSTAT_CAUSE c s)) := getF_setF_beside _ _ _ _ (by decide) (by decide)
      _ = min (getF Reg.CPB_FPSTAT_LOSSCNT (setF Reg.CPB_FPSTAT_CAUSE c s) + 1) (2 ^ Reg.CPB_FPSTAT_LOSSCNT.w - 1) := getF_incSat _ _ (by decide)
      _ = min (getF Reg.CPB_FPSTAT_LOSSCNT s + 1) (2 ^ Reg.CPB_FPSTAT_LOSSCNT.w - 1) := by rw [getF_setF_beside _ _ _ _ (by decide) (by decide)]
  · exact (((Changes.lossRecorded c s).trans (.pairFault _)).trans (.setEvt .cpb 4 _)).mono (by simp) (by simp [oneOf, EvtBlock.evt])

theorem neighbourStateChange_other {s : State} (c : Fin 4) (hc : coreUp s = true) (hs : s.cpb.sense = true)
    (hn : bit Reg.CPB_FPSTAT_NBROK s = false) (h0 : c.val ≠ 0) :
    exec (.neighbourStateChange c) s = .next (setF Reg.CPB_FPSTAT_CAUSE c.val s) := by
  refine (if_pos (by simp [hc, hs])).trans ?_
  rw [if_neg h0, if_neg (by simp [hn])]

theorem exec_neighbourStuckTimeout (s : State) : exec .neighbourStuckTimeout s =
    if coreUp s = true ∧ s.cpb.sense = true ∧ bit Reg.CPB_FPSTAT_NBROK s = false ∧ bit Reg.CPB_FPSTAT_STUCK s = false ∧ getF Reg.CPB_FPCFG_STUCKTO s ≠ 0 ∧
        s.cpb.nbrSince + getF Reg.CPB_FPCFG_STUCKTO s * 1000 * ms ≤ s.now then
      .next (pairFault (setB Reg.CPB_FPSTAT_STUCK true s))
    else .next s :=
  if_congr (by simp [and_assoc]) rfl rfl

/-- R232: STUCKTO seconds without Healthy. -/
theorem neighbourStuckTimeout_due {s : State} (hc : coreUp s = true) (hs : s.cpb.sense = true) (hn : bit Reg.CPB_FPSTAT_NBROK s = false)
    (hk : bit Reg.CPB_FPSTAT_STUCK s = false) (h0 : getF Reg.CPB_FPCFG_STUCKTO s ≠ 0)
    (ht : s.cpb.nbrSince + getF Reg.CPB_FPCFG_STUCKTO s * 1000 * ms ≤ s.now) : ∃ t, exec .neighbourStuckTimeout s = .next t ∧
    bit Reg.CPB_FPSTAT_STUCK t = true ∧ Changes [.flt, .hst] (oneOf [Reg.CPB_FPSTAT]) s t := by
  refine ⟨_, (exec_neighbourStuckTimeout s).trans (if_pos ⟨hc, hs, hn, hk, h0, ht⟩), ?_, ?_⟩
  · exact (bit_of_reg (reg_pairFault _ _)).trans (bit_setB_same (by decide) rfl true s)
  · exact ((Changes.setB ..).trans (.pairFault _)).mono (by simp) (by simp [oneOf, Reg.CPB_FPSTAT_STUCK])

theorem neighbourStuckTimeout_none {s : State} (h : s.cpb.sense = false ∨ bit Reg.CPB_FPSTAT_NBROK s = true ∨ getF Reg.CPB_FPCFG_STUCKTO s = 0 ∨
    s.now < s.cpb.nbrSince + getF Reg.CPB_FPCFG_STUCKTO s * 1000 * ms) : exec .neighbourStuckTimeout s = .next s := by
  rw [exec_neighbourStuckTimeout, if_neg]
  rintro ⟨-, hs, hn, -, h0, ht⟩
  rcases h with h | h | h | h
  · simp [hs] at h
  · simp [hn] at h
  · exact h0 h
  · omega

/-! ## The change of mode -/

/-- The state in which no mode shows a Healthy state, a tone or a stuck pair. -/
def pairFlagsCleared (s : State) : State :=
  s |> setB Reg.CPB_FPSTAT_NBROK false |> setB Reg.CPB_FPSTAT_TONE false |> setB Reg.CPB_FPSTAT_STUCK false

theorem Changes.pairFlagsCleared (s : State) : Changes [] (oneOf [Reg.CPB_FPSTAT]) s (pairFlagsCleared s) :=
  (((Changes.setB ..).trans (.setB ..)).trans (.setB ..)).mono (by simp)
    (by simp [oneOf, Reg.CPB_FPSTAT_NBROK, Reg.CPB_FPSTAT_TONE, Reg.CPB_FPSTAT_STUCK])

theorem pairFlagsCleared_clear (s : State) : bit Reg.CPB_FPSTAT_NBROK (pairFlagsCleared s) = false ∧ bit Reg.CPB_FPSTAT_TONE (pairFlagsCleared s) = false := by
  constructor
  · calc bit Reg.CPB_FPSTAT_NBROK (pairFlagsCleared s)
        = bit Reg.CPB_FPSTAT_NBROK (setB Reg.CPB_FPSTAT_TONE false (setB Reg.CPB_FPSTAT_NBROK false s)) := bit_setB_beside (by decide) (by decide) _ _
      _ = bit Reg.CPB_FPSTAT_NBROK (setB Reg.CPB_FPSTAT_NBROK false s) := bit_setB_beside (by decide) (by decide) _ _
      _ = false := bit_setB_same (by decide) rfl false s
  · calc bit Reg.CPB_FPSTAT_TONE (pairFlagsCleared s)
        = bit Reg.CPB_FPSTAT_TONE (setB Reg.CPB_FPSTAT_TONE false (setB Reg.CPB_FPSTAT_NBROK false s)) := bit_setB_beside (by decide) (by decide) _ _
      _ = false := bit_setB_same (by decide) rfl false _

theorem applyPairMode_other {s : State} (hd : bit Reg.CPB_FPCFG_MODE s ≠ s.cpb.sense) : applyPairMode s = { pairFlagsCleared s with
    pins := { s.pins with fault := if bit Reg.CPB_FPCFG_MODE s then .released else .faultLevel }
    cpb := { s.cpb with sense := bit Reg.CPB_FPCFG_MODE s, faultSince := s.now, nbrSince := s.now } } := if_neg hd

/-- R233: at a millisecond boundary the pair takes the other mode over, without a Healthy state. -/
theorem faultPairModeChange_next {s : State} (hc : coreUp s = true) (hm : s.now % ms < 5) (hd : bit Reg.CPB_FPCFG_MODE s ≠ s.cpb.sense) : ∃ t,
    exec .faultPairModeChange s = .next t ∧ t.cpb.sense = bit Reg.CPB_FPCFG_MODE s ∧
    t.pins.fault = (if bit Reg.CPB_FPCFG_MODE s then .released else .faultLevel) ∧ t.cpb.faultSince = s.now ∧ t.cpb.nbrSince = s.now ∧
    bit Reg.CPB_FPSTAT_NBROK t = false ∧ bit Reg.CPB_FPSTAT_TONE t = false ∧ Changes [.pins, .cpb] (oneOf [Reg.CPB_FPSTAT]) s t := by
  have hnext : exec .faultPairModeChange s = .next (applyPairMode s) := if_pos (by simp [hc, onMillisecond, hm])
  rw [applyPairMode_other hd] at hnext
  obtain ⟨hok, htone⟩ := pairFlagsCleared_clear s
  exact ⟨_, hnext, rfl, rfl, rfl, rfl, hok, htone, ((Changes.pairFlagsCleared s).trans (.withPinsCpb _ _ _)).mono (by simp) (by simp)⟩

theorem faultPairModeChange_none {s : State} (h : bit Reg.CPB_FPCFG_MODE s = s.cpb.sense ∨ 5 ≤ s.now % ms) : exec .faultPairModeChange s = .next s := by
  have hnext : exec .faultPairModeChange s = if coreUp s && onMillisecond s then .next (applyPairMode s) else .next s := rfl
  rw [hnext]
  rcases h with h | h
  · rw [applyPairMode, if_pos h, ite_self]
  · exact if_neg (by simp [onMillisecond, h])

/-- Settles O19: each event of the pair acts on one register and the pins where its condition stands, and returns the state where it does not. -/
theorem faultPairEvents : Obligations.FaultPairEvents := by
  unfold Obligations.FaultPairEvents
  intro s
  exact ⟨toneResume_due, toneResume_waits, faultPairReadbackError_next, neighbourStateChange_healthy, neighbourStateChange_loss,
    neighbourStateChange_other, neighbourStuckTimeout_due, neighbourStuckTimeout_none, faultPairModeChange_next, faultPairModeChange_none⟩

end Sys2Proof.Machine
end

