-- ==== Sys2Proof/Proofs/Balancing.lean ====
section
/-!
PROOFS. Balancing (R236-R246, R252): which switches conduct after a half boundary, what opens a switch, and the communication-loss timer.
-/
namespace Sys2Proof.Machine

/-! ## Eligibility -/

/-- The registers that rows 1 to 7 of R244 read, but for `CPB_BALSTAT.TOFF`. -/
def rowRegs : List Nat :=
  [Reg.BST_STAT, Reg.FLT_STAT, Reg.FLT_FENCE0, Reg.CAL_STAT, Reg.CPB_CELLEN, Reg.CPB_UVFLAG, Reg.CPB_OCFLT, Reg.CPB_SWCHK, Reg.XCK_OWSTAT]

/-- R244: a row depends on power state, faults, fences, the cell's flags, open taps, the plan, the gate and the over-temperature mark alone. -/
theorem failingRow_congr {s t : State} (hsys : t.sys = s.sys) (hunused : t.cms.unused = s.cms.unused) (hheld : balHeld t = balHeld s)
    (hgate : t.xck.gate = s.xck.gate) (htoff : bit Reg.CPB_BALSTAT_TOFF t = bit Reg.CPB_BALSTAT_TOFF s) (hreg : ∀ a ∈ rowRegs, reg t a = reg s a)
    (n : Nat) : failingRow n t = failingRow n s := by
  have htest : testing 21 t = testing 21 s := congrArg (· == 21) (getF_of_reg (f := Reg.BST_STAT_CUR) (hreg _ (by decide)))
  have hsafe : bit Reg.FLT_STAT_SAFE t = bit Reg.FLT_STAT_SAFE s := bit_of_reg (hreg _ (by decide))
  have hfence : bit Reg.FLT_FENCE0_BLEED t = bit Reg.FLT_FENCE0_BLEED s := bit_of_reg (hreg _ (by decide))
  have hcal : getF Reg.CAL_STAT_PHASE t = getF Reg.CAL_STAT_PHASE s := getF_of_reg (hreg _ (by decide))
  have hen : regBit Reg.CPB_CELLEN n t = regBit Reg.CPB_CELLEN n s := regBit_of_reg (hreg _ (by decide)) n
  have huv : regBit Reg.CPB_UVFLAG n t = regBit Reg.CPB_UVFLAG n s := regBit_of_reg (hreg _ (by decide)) n
  have hoc : regBit Reg.CPB_OCFLT n t = regBit Reg.CPB_OCFLT n s := regBit_of_reg (hreg _ (by decide)) n
  have hchk : regBit Reg.CPB_SWCHK n t = regBit Reg.CPB_SWCHK n s := regBit_of_reg (hreg _ (by decide)) n
  have hopen (k : Nat) : tapOpen k t = tapOpen k s := regBit_of_reg (hreg _ (by decide)) k
  unfold failingRow unusedCells r20Waits openAt
  rw [hsys, htest, hsafe, hfence, hcal, htoff, hen, hunused, huv, hoc, hchk, hopen, hopen, hheld, hgate]

/-- R239, R246: a switch with a fault bit stays open by row 6, if not by a row before it. -/
theorem failingRow_faulty {n : Nat} {s : State} (h : regBit Reg.CPB_OCFLT n s = true ∨ regBit Reg.CPB_SWCHK n s = true) : failingRow n s ≠ 0 := by
  have hsix : regBit Reg.CPB_UVFLAG n s = true ∨ regBit Reg.CPB_OCFLT n s = true ∨ regBit Reg.CPB_SWCHK n s = true := .inr h
  unfold failingRow
  rw [if_pos hsix]
  repeat' split
  all_goals decide

theorem eligible_faulty {n : Nat} {s : State} (h : regBit Reg.CPB_OCFLT n s = true ∨ regBit Reg.CPB_SWCHK n s = true) : eligible n s = false := by
  simp [eligible, failingRow_faulty h]

theorem commanded_none {s : State} (hh : s.xck.harness = none) (hb : s.cpb.balCmd = 0#32) (n : Nat) : commanded n s = false := by
  simp [commanded, hh, hb]

/-- With nothing commanded every switch opens. -/
theorem conducts_enforceSwitches_uncommanded {s : State} (hh : s.xck.harness = none) (hb : s.cpb.balCmd = 0#32) (n : Nat) :
    conducts n (enforceSwitches s) = false := by
  rw [conducts_enforceSwitches, eligible, commanded_none hh hb, Bool.false_and, Bool.and_false]

/-! ## The half that begins -/

theorem Changes.closeHalf (s : State) : Changes [.xck] (fun _ => False) s (closeHalf s) := .of_ite (.refl ..) (.withXck s _)

theorem Changes.openHalf (s : State) : Changes [.xck] (fun _ => False) s (openHalf s) := .withXck s _

/-- The balancing registers come into force (R238). -/
def commandTaken (s : State) : State := { s with cpb := { s.cpb with balCmd := reg s Reg.CPB_BALCMD, balCfg := reg s Reg.CPB_BALCFG } }

/-- The throttle's bits clear where the sensor stayed cool through a period (R241). -/
def throttleCooled (s : State) : State :=
  if s.cpb.cool then s |> setB Reg.CPB_BALSTAT_THROT false |> setB Reg.CPB_BALSTAT_TOFF false else s

/-- A period begins without selections (R237, R241). -/
def periodBegun (s : State) : State :=
  { s with cpb := { s.cpb with
      selFirst := [], selSecond := [], prevFirst := s.cpb.lastFirst, prevSecond := s.cpb.lastSecond, duty2 := bit Reg.CPB_BALSTAT_THROT s, cool := true } }

theorem startHalf_eq (interval : Nat) (second : Bool) (s : State) : startHalf interval second s =
    if interval = 0 ∧ second = false then periodBegun (throttleCooled (commandTaken s)) else commandTaken s := rfl

theorem throttleCooled_cpb (s : State) : (throttleCooled s).cpb = s.cpb := by unfold throttleCooled; split <;> rfl

theorem Changes.throttleCooled (s : State) : Changes [] (oneOf [Reg.CPB_BALSTAT]) s (throttleCooled s) :=
  .of_ite (((Changes.setB ..).trans (.setB ..)).mono (by simp) (by simp [oneOf, Reg.CPB_BALSTAT_THROT, Reg.CPB_BALSTAT_TOFF])) (.refl ..)

/-- R238, R241: the half begins with the values written; only marks of the throttle change beside them. -/
theorem startHalf_clause (interval : Nat) (second : Bool) (s : State) : (startHalf interval second s).cpb.balCmd = reg s Reg.CPB_BALCMD ∧
    (startHalf interval second s).cpb.balCfg = reg s Reg.CPB_BALCFG ∧
    Changes [.cpb] (oneOf [Reg.CPB_BALSTAT]) s (startHalf interval second s) := by
  have htaken : Changes [.cpb] (fun _ => False) s (commandTaken s) := .withCpb s _
  have hcpb := throttleCooled_cpb (commandTaken s)
  rw [startHalf_eq]
  split
  · exact ⟨congrArg CpbState.balCmd hcpb, congrArg CpbState.balCfg hcpb,
      ((htaken.trans (.throttleCooled _)).trans (.withCpb _ _)).mono (by simp) (by simp)⟩
  · exact ⟨rfl, rfl, htaken.mono (by simp) (by simp)⟩

/-- The state in which the half at the present fabric time selects its switches. -/
def halfBegun (s : State) : State := startHalf (balancePosition s.ft).1 (balancePosition s.ft).2 (closeHalf (noteBleed s))

/-- The switches that would conduct in that half. -/
def halfCandidates (s : State) : List Nat :=
  ((List.range 24).map (· + 1)).filter (fun n => wouldConduct n (balancePosition s.ft).1 (balancePosition s.ft).2 (halfBegun s))

theorem halfBegun_clause (s : State) : (halfBegun s).cpb.balCmd = reg s Reg.CPB_BALCMD ∧ (halfBegun s).cpb.balCfg = reg s Reg.CPB_BALCFG ∧
    (halfBegun s).xck.harness = s.xck.harness ∧ Changes [.cpb, .cms, .xck, .imp] (oneOf [Reg.CPB_BALSTAT]) s (halfBegun s) := by
  have hclosed : Changes [.cms, .xck, .imp] (fun _ => False) s (closeHalf (noteBleed s)) :=
    ((Changes.noteBleed s).trans (.closeHalf _)).mono (by simp) (by simp)
  have hharness : (closeHalf (noteBleed s)).xck.harness = s.xck.harness := by unfold closeHalf; split <;> rfl
  obtain ⟨hcmd, hcfg, hchg⟩ := startHalf_clause (balancePosition s.ft).1 (balancePosition s.ft).2 (closeHalf (noteBleed s))
  refine ⟨hcmd.trans (hclosed.reg_eq id), hcfg.trans (hclosed.reg_eq id), ?_, (hclosed.trans hchg).mono (by simp) (by simp)⟩
  exact (congrArg XckState.harness (hchg.part_eq .xck (by decide) : (halfBegun s).xck = _)).trans hharness

theorem mem_limitSwitches {n limit prev : Nat} {cands selected : List Nat} (h : n ∈ limitSwitches cands selected limit prev) : n ∈ cands := by
  unfold limitSwitches at h
  split at h
  · exact h
  · have hin := List.mem_of_mem_take h
    simp only [List.mem_append, List.mem_filter, List.contains_iff_mem, Bool.and_eq_true] at hin
    obtain ⟨-, hc⟩ | ⟨-, hc, -⟩ := hin <;> exact hc

theorem length_limitSwitches (cands selected : List Nat) (limit prev : Nat) : (limitSwitches cands selected limit prev).length ≤ limit := by
  unfold limitSwitches
  split
  · assumption
  · exact List.length_take_le ..

/-- The switches that conduct in that half (R237). -/
def halfSelected (s : State) : List Nat :=
  let c := (halfBegun s).cpb
  let second := (balancePosition s.ft).2
  limitSwitches (halfCandidates s) (if second then c.selSecond else c.selFirst) (getBits c.balCfg 8 4) (if second then c.prevSecond else c.prevFirst)

/-- The selections that the half leaves for the next of its kind (R237). -/
def halfNoted (s : State) : CpbState :=
  let c := (halfBegun s).cpb
  let on := halfSelected s
  let second := (balancePosition s.ft).2
  let sel := if second then c.selSecond else c.selFirst
  let last := ((cyclicFrom (if second then c.prevSecond else c.prevFirst)).filter (fun n => on.contains n)).getLastD
    (if second then c.lastSecond else c.lastFirst)
  if second then { c with selSecond := if (halfCandidates s).length = on.length then sel else on, lastSecond := last }
  else { c with selFirst := if (halfCandidates s).length = on.length then sel else on, lastFirst := last }

/-- The state with the selections of the half noted. -/
def halfChosen (s : State) : State := { halfBegun s with cpb := halfNoted s }

/-- The state after a half boundary. -/
def halfShown (s : State) : State :=
  openHalf (noteBleed (showSwitches (cellMask (fun n => (halfSelected s).contains n)) (holdRow (halfChosen s)) (halfChosen s)))

theorem exec_balancingHalfBoundary {s : State} (hc : coreUp s = true) : exec .balancingHalfBoundary s = .next (halfShown s) := by
  change execBalancingHalfBoundary s = _
  rw [execBalancingHalfBoundary, if_pos hc]
  unfold halfShown halfChosen halfNoted halfSelected halfCandidates halfBegun
  generalize balancePosition s.ft = p
  obtain ⟨interval, second⟩ := p
  rfl

theorem halfNoted_clause (s : State) : (halfNoted s).balCmd = reg s Reg.CPB_BALCMD ∧ (halfNoted s).balCfg = reg s Reg.CPB_BALCFG := by
  obtain ⟨hcmd, hcfg, -, -⟩ := halfBegun_clause s
  unfold halfNoted
  dsimp only
  split <;> exact ⟨hcmd, hcfg⟩

theorem halfSelected_candidates {s : State} {n : Nat} (h : n ∈ halfSelected s) : n ∈ halfCandidates s := mem_limitSwitches h

theorem length_halfSelected (s : State) : (halfSelected s).length ≤ getBits (reg s Reg.CPB_BALCFG) 8 4 := by
  obtain ⟨-, hcfg, -, -⟩ := halfBegun_clause s
  rw [← hcfg]
  exact length_limitSwitches ..

theorem conducts_halfShown (s : State) (n : Nat) :
    conducts n (halfShown s) = (decide (1 ≤ n) && decide (n ≤ 24) && (halfSelected s).contains n) := by
  have hshown : conducts n (halfShown s) = conducts n (showSwitches (cellMask (fun n => (halfSelected s).contains n)) _ (halfChosen s)) :=
    conducts_of_reg rfl n
  rw [hshown, conducts_showSwitches, getLsbD_cellMask, ← Bool.and_assoc, Bool.and_self]

theorem Changes.halfShown (s : State) : Changes [.cpb, .cms, .xck, .imp] (oneOf [Reg.CPB_BALSTAT]) s (halfShown s) := by
  obtain ⟨-, -, -, hbegun⟩ := halfBegun_clause s
  have hchosen : Changes [.cpb] (fun _ => False) (halfBegun s) (halfChosen s) := .withCpb _ _
  exact ((((hbegun.trans hchosen).trans (.showSwitches _ _ _)).trans (.noteBleed _)).trans (.openHalf _)).mono (by simp) (by simp)

theorem balHeld_noteBleed (s : State) : balHeld (noteBleed s) = balHeld s := by unfold balHeld noteBleed; dsimp only; split <;> rfl

/-- No register of the rows is `CPB_BALSTAT`. -/
theorem not_balstat_of_rowRegs {a : Nat} (ha : a ∈ rowRegs) : a ∉ [Reg.CPB_BALSTAT] := by
  have hnot : Reg.CPB_BALSTAT ∉ rowRegs := by decide
  exact fun h => hnot (List.mem_singleton.1 h ▸ ha)

/-- What the half shows changes no switch's eligibility. -/
theorem eligible_taken (mask : Word) (row n : Nat) (s : State) : eligible n (openHalf (noteBleed (showSwitches mask row s))) = eligible n s := by
  have htoff : bit Reg.CPB_BALSTAT_TOFF (showSwitches mask row s) = bit Reg.CPB_BALSTAT_TOFF s :=
    (bit_setF_beside (by decide) (by decide) _ _).trans (bit_setF_beside (by decide) (by decide) _ _)
  have hrow : failingRow n (openHalf (noteBleed (showSwitches mask row s))) = failingRow n s :=
    failingRow_congr (s := s) (t := openHalf (noteBleed (showSwitches mask row s))) rfl rfl (balHeld_noteBleed (showSwitches mask row s)) rfl htoff
      (fun a ha => (Changes.showSwitches mask row s).reg_other (not_balstat_of_rowRegs ha)) n
  exact congrArg (fun r => commanded n s && r == 0) hrow

theorem eligible_withCpb {s : State} {b : CpbState} (hb : b.balCmd = s.cpb.balCmd) (n : Nat) : eligible n { s with cpb := b } = eligible n s := by
  simp only [eligible, commanded, hb]
  rfl

theorem eligible_halfShown (s : State) (n : Nat) : eligible n (halfShown s) = eligible n (halfBegun s) :=
  (eligible_taken _ _ n (halfChosen s)).trans (eligible_withCpb ((halfNoted_clause s).1.trans (halfBegun_clause s).1.symm) n)

theorem wouldConduct_eligible {n interval : Nat} {second : Bool} {s : State} (h : wouldConduct n interval second s = true) : eligible n s = true :=
  (Bool.and_eq_true_iff.1 h).1

/-- R236: of two neighbours that are eligible each conducts in its own half only. -/
theorem wouldConduct_parity {n m interval : Nat} {second : Bool} {s : State} (hh : s.xck.harness = none) (hm : eligible m s = true)
    (hnb : (1 < n ∧ m = n - 1) ∨ (n < 24 ∧ m = n + 1)) (h : wouldConduct n interval second s = true) : n % 2 = if second then 0 else 1 := by
  simp only [wouldConduct, hh, Option.isSome_none, Bool.false_or, Bool.and_eq_true, Bool.or_eq_true, beq_iff_eq, Bool.not_eq_true',
    Bool.and_eq_false_iff, decide_eq_true_eq, decide_eq_false_iff_not] at h
  obtain ⟨-, -, hown | ⟨hbelow, habove⟩⟩ := h
  · exact hown
  · obtain ⟨hlt, rfl⟩ | ⟨hlt, rfl⟩ := hnb
    · simp [hlt, hm] at hbelow
    · simp [hlt, hm] at habove

/-- R236: without a harness measurement no two neighbouring switches are selected. -/
theorem not_neighbours_candidates {s : State} (hh : (halfBegun s).xck.harness = none) {n : Nat} (hn : n ∈ halfCandidates s) :
    n + 1 ∉ halfCandidates s := by
  intro hnext
  simp only [halfCandidates, List.mem_filter, List.mem_map, List.mem_range] at hn hnext
  obtain ⟨⟨i, hi, rfl⟩, hone⟩ := hn
  obtain ⟨⟨j, hj, hij⟩, htwo⟩ := hnext
  have hlow := wouldConduct_parity hh (wouldConduct_eligible htwo) (.inr ⟨by omega, rfl⟩) hone
  have hhigh := wouldConduct_parity hh (wouldConduct_eligible hone) (.inl ⟨by omega, by omega⟩) htwo
  omega

/-- R236-R238: what stands after a half boundary. -/
theorem balancingHalfBoundary_next {s : State} (hc : coreUp s = true) : ∃ t, exec .balancingHalfBoundary s = .next t ∧
    t.cpb.balCmd = reg s Reg.CPB_BALCMD ∧ t.cpb.balCfg = reg s Reg.CPB_BALCFG ∧ (∀ n, conducts n t = true → eligible n t = true) ∧
    (s.xck.harness = none → ∀ n, conducts n t = true → conducts (n + 1) t = false) ∧
    ((List.range 25).filter (fun n => conducts n t)).length ≤ getBits (reg s Reg.CPB_BALCFG) 8 4 ∧
    Changes [.cpb, .cms, .xck, .imp] (oneOf [Reg.CPB_BALSTAT]) s t := by
  obtain ⟨hcmd, hcfg⟩ := halfNoted_clause s
  obtain ⟨-, -, hharness, -⟩ := halfBegun_clause s
  have hon {n : Nat} (h : conducts n (halfShown s) = true) : n ∈ halfSelected s := by
    rw [conducts_halfShown, Bool.and_eq_true_iff, List.contains_iff_mem] at h
    exact h.2
  refine ⟨_, exec_balancingHalfBoundary hc, hcmd, hcfg, fun n hn => ?_, fun hh n hn => ?_, ?_, .halfShown s⟩
  · rw [eligible_halfShown]
    exact wouldConduct_eligible (List.mem_filter.1 (halfSelected_candidates (hon hn))).2
  · have hnot := not_neighbours_candidates (hharness.trans hh) (halfSelected_candidates (hon hn))
    exact Bool.eq_false_iff.2 (fun hup => hnot (halfSelected_candidates (hon hup)))
  · have hsub : ((List.range 25).filter (fun n => conducts n (halfShown s))) ⊆ halfSelected s := fun n hn => hon (List.mem_filter.1 hn).2
    exact ((List.nodup_range.filter _).subperm hsub).length_le.trans (length_halfSelected s)

/-! ## Faulty switches -/

theorem Changes.cellSwitchFault (n : Nat) (s : State) : Changes [.flt, .fab, .hst] (oneOf [Reg.CPB_EVT]) s (cellSwitchFault n s) :=
  (((Changes.pulse 70 s).trans (.setEvt .cpb 8 _)).trans (.latchG1 _ 7 _)).mono (by simp) (by simp [oneOf, EvtBlock.evt])

/-- A switch whose bit sets in `CPB_OCFLT` or `CPB_SWCHK`. -/
def faultRecorded (a n : Nat) (s : State) : State := enforceSwitches (cellSwitchFault n (setRegBit a n true s))

/-- R239, R246: the bit of a faulty switch stands, and the switch is open. -/
theorem faultRecorded_clause {a n : Nat} (ha : a = Reg.CPB_OCFLT ∨ a = Reg.CPB_SWCHK) (hn : n < 32) (s : State) :
    regBit a n (faultRecorded a n s) = true ∧ conducts n (faultRecorded a n s) = false ∧
    Changes [.flt, .fab, .hst, .cms, .xck, .imp] (oneOf [a, Reg.CPB_EVT, Reg.CPB_BALSTAT]) s (faultRecorded a n s) := by
  have hevt : a ≠ Reg.CPB_EVT := by obtain rfl | rfl := ha <;> decide
  have hstat : a ≠ Reg.CPB_BALSTAT := by obtain rfl | rfl := ha <;> decide
  have hset : regBit a n (cellSwitchFault n (setRegBit a n true s)) = true :=
    (regBit_of_reg ((Changes.cellSwitchFault n _).reg_other (by simpa using hevt)) n).trans (regBit_setRegBit_same a hn true s)
  refine ⟨(regBit_of_reg ((Changes.enforceSwitches _).reg_other (by simpa using hstat)) n).trans hset, ?_, ?_⟩
  · rw [faultRecorded, conducts_enforceSwitches, eligible_faulty, Bool.and_false]
    obtain rfl | rfl := ha
    · exact .inl hset
    · exact .inr hset
  · exact (((Changes.setRegBit ..).trans (.cellSwitchFault n _)).trans (.enforceSwitches _)).mono (by simp) (by simp [oneOf, or_assoc])

theorem conducts_le {n : Nat} {s : State} (h : conducts n s = true) : n ≤ 24 := by
  simp only [conducts, Bool.and_eq_true, decide_eq_true_eq] at h
  obtain ⟨⟨-, hle⟩, -⟩ := h
  exact hle

theorem switchOvercurrent_next {s : State} (n : Nat) (hc : coreUp s = true) (hn : conducts n s = true) : ∃ t, exec (.switchOvercurrent n) s = .next t ∧
    regBit Reg.CPB_OCFLT n t = true ∧ conducts n t = false ∧
    Changes [.flt, .fab, .hst, .cms, .xck, .imp] (oneOf [Reg.CPB_OCFLT, Reg.CPB_EVT, Reg.CPB_BALSTAT]) s t :=
  ⟨_, if_pos (by simp [hc, hn]), faultRecorded_clause (.inl rfl) (by have := conducts_le hn; omega) s⟩

/-- Whether a check of switch n fails by the voltage across it (R246). -/
def switchFails (n : Nat) (v : Int) (s : State) : Bool :=
  if conducts n s then decide (nth s.xck.pmean (n - 1) 0 < 2 * v) else decide (10 * v < 3 * nth s.xck.pmean (n - 1) 0)

theorem exec_switchCheck {s : State} {n : Nat} (v : Int) (hp : s.sys.phase = .active) (h1 : 1 ≤ n) (h24 : n ≤ 24)
    (hen : regBit Reg.CPB_CELLEN n s = true) (hu : unusedCells s = false) : ∃ u, Changes [.cpb, .cms, .xck, .imp] (fun _ => False) s u ∧
    exec (.switchCheck n v) s = .next (if switchFails n v s && !regBit Reg.CPB_SWCHK n s then faultRecorded Reg.CPB_SWCHK n u else u) :=
  ⟨_, ((Changes.withCpb s _).trans (.noteBleed _)).mono (by simp) (by simp), if_pos ⟨hp, h1, h24, hen, hu⟩⟩

/-- R240, R246: a check sets the bit of a switch that fails it, and opens the switch with it. -/
theorem switchCheck_next {s : State} (n : Nat) (v : Int) (hp : s.sys.phase = .active) (h1 : 1 ≤ n) (h24 : n ≤ 24)
    (hen : regBit Reg.CPB_CELLEN n s = true) (hu : unusedCells s = false) : ∃ t, exec (.switchCheck n v) s = .next t ∧
    regBit Reg.CPB_SWCHK n t = (regBit Reg.CPB_SWCHK n s || switchFails n v s) ∧
    (regBit Reg.CPB_SWCHK n s = false → regBit Reg.CPB_SWCHK n t = true → conducts n t = false) ∧
    Changes [.flt, .fab, .hst, .cms, .xck, .imp, .cpb] (oneOf [Reg.CPB_SWCHK, Reg.CPB_EVT, Reg.CPB_BALSTAT]) s t := by
  obtain ⟨u, hu, hnext⟩ := exec_switchCheck v hp h1 h24 hen hu
  have hkept : regBit Reg.CPB_SWCHK n u = regBit Reg.CPB_SWCHK n s := regBit_of_reg (hu.reg_eq id) n
  by_cases hbad : (switchFails n v s && !regBit Reg.CPB_SWCHK n s) = true
  · obtain ⟨hset, hopen, hchg⟩ := faultRecorded_clause (a := Reg.CPB_SWCHK) (.inr rfl) (by omega : n < 32) u
    rw [if_pos hbad] at hnext
    refine ⟨_, hnext, ?_, fun _ _ => hopen, (hu.trans hchg).mono (by simp) (by simp)⟩
    rw [hset, (Bool.and_eq_true_iff.1 hbad).1, Bool.or_true]
  · rw [if_neg hbad] at hnext
    refine ⟨_, hnext, ?_, fun hs ht => by simp [hkept, hs] at ht, hu.mono (by simp) (fun _ => False.elim)⟩
    rw [hkept]
    revert hbad
    cases regBit Reg.CPB_SWCHK n s <;> cases switchFails n v s <;> decide

theorem switchCheck_masked {s : State} (n : Nat) (v : Int) (h : regBit Reg.CPB_CELLEN n s = false) : exec (.switchCheck n v) s = .next s :=
  if_neg (by simp [h])

/-! ## The communication-loss timer -/

/-- R175, R176: the end of a harness measurement, but for the completion: what it may change. -/
theorem harnessAbort_changes (s : State) : Changes [.xck, .flt, .cms, .imp, .resp, .lnk, .fab, .hst]
    (fun a => a = Reg.XCK_HRCMD ∨ a = Reg.CPB_BALSTAT ∨ Reg.FAB_CFG ≤ a) s (harnessAbort s) := by
  unfold harnessAbort endHarness
  split
  · exact .refl ..
  · next h _ =>
    have hended : Changes [.xck, .flt] (· = Reg.XCK_HRCMD) s
        (pulse 50 (setB Reg.XCK_HRCMD_FAIL true (setB Reg.XCK_HRCMD_BUSY false { s with xck := { s.xck with harness := none } }))) :=
      ((((Changes.withXck s { s.xck with harness := none }).trans (.setB ..)).trans (.setB ..)).trans (.pulse 50 _)).mono (by simp)
        (by simp [Reg.XCK_HRCMD_FAIL, Reg.XCK_HRCMD_BUSY])
    exact ((hended.trans (.enforceSwitches _)).trans (Outbound.complete h.ticket .incomplete [] 0 _)).mono (by simp) (by simp [oneOf, or_assoc])

/-- Once nothing is commanded, no switch conducts after the end of a harness measurement. -/
theorem conducts_harnessAbort {s : State} (hb : s.cpb.balCmd = 0#32) (h : s.xck.harness = none → ∀ n, conducts n s = false) (n : Nat) :
    conducts n (harnessAbort s) = false := by
  unfold harnessAbort endHarness
  split
  · next hh => exact h hh n
  · exact (conducts_of_reg (Changes.reg_eq (Outbound.complete ..) (by decide)) n).trans
      (conducts_enforceSwitches_uncommanded (by simp) (by simpa using hb) n)

/-- An expiry as `CPB_BALCMD` and `CPB_CLTSTAT` show it. -/
def lossShown (s : State) : State :=
  let r := s |> setReg Reg.CPB_BALCMD 0#32 |> setB Reg.CPB_CLTSTAT_CLOST true |> incSat Reg.CPB_CLTSTAT_CNT
  { r with cpb := { r.cpb with balCmd := 0#32 } }

/-- The expiry with the switches open, its event, and the timer restarted. -/
def lossReported (s : State) : State := restartTimer (setEvt .cpb 2 (latchG1 none 6 (enforceSwitches (lossShown s))))

/-- The target becomes 0 where CLZERO says so, outside bus regulation (R323). -/
def targetZeroed (s : State) : State :=
  if bit Reg.CTL_CFG_CLZERO s && !busRegulation s then setEvt .ctl 8 (setB Reg.CTL_STAT_TGTCLP false (setF Reg.CTL_TGT_TGT 0 s)) else s

theorem exec_communicationLossExpiry (s : State) : exec .communicationLossExpiry s =
    if s.sys.phase = .active ∧ timerOver s = true then .next (targetZeroed (harnessAbort (planAbort 9 (lossReported s)))) else .next s := rfl

theorem targetZeroed_changes (s : State) : Changes [.fab] (oneOf [Reg.CTL_TGT, Reg.CTL_STAT, Reg.CTL_EVT]) s (targetZeroed s) :=
  .of_ite ((((Changes.setF ..).trans (.setB ..)).trans (.setEvt .ctl 8 _)).mono (by simp)
    (by simp [oneOf, Reg.CTL_TGT_TGT, Reg.CTL_STAT_TGTCLP, EvtBlock.evt, or_assoc])) (.refl ..)

/-- The registers of a running expiry that what ends with it leaves alone. -/
theorem reg_lossFollowed {a : Nat} (s : State) (ha : a = Reg.CPB_BALCMD ∨ a = Reg.CPB_CLTSTAT ∨ a = Reg.CPB_EVT) :
    reg (targetZeroed (harnessAbort (planAbort 9 s))) a = reg s a := by
  have hzero : reg (targetZeroed (harnessAbort (planAbort 9 s))) a = reg (harnessAbort (planAbort 9 s)) a :=
    (targetZeroed_changes _).reg_other (by obtain rfl | rfl | rfl := ha <;> decide)
  have habort : reg (harnessAbort (planAbort 9 s)) a = reg (planAbort 9 s) a :=
    (harnessAbort_changes _).reg_eq (by obtain rfl | rfl | rfl := ha <;> decide)
  exact (hzero.trans habort).trans ((Changes.planAbort 9 s).reg_other (by obtain rfl | rfl | rfl := ha <;> decide))

theorem lossFollowed_changes (s : State) : Changes [.imp, .free, .flt, .fab, .xck, .cms, .resp, .lnk, .hst] (fun _ => True) s
    (targetZeroed (harnessAbort (planAbort 9 s))) :=
  (((Changes.planAbort 9 s).trans (harnessAbort_changes _)).trans (targetZeroed_changes _)).mono (by simp) (fun _ _ => trivial)

theorem Changes.lossReported (s : State) : Changes [.cpb, .cms, .xck, .imp, .hst, .fab] (fun _ => True) s (lossReported s) := by
  have hshown : Changes [.cpb] (fun _ => True) s (lossShown s) :=
    ((((Changes.setReg ..).trans (.setB ..)).trans (.incSat ..)).trans (.withCpb _ _)).mono (by simp) (fun _ _ => trivial)
  exact ((((hshown.trans (.enforceSwitches _)).trans (.latchG1 none 6 _)).trans (.setEvt .cpb 2 _)).trans (.withCpb _ _)).mono (by simp)
    (fun _ _ => trivial)

theorem reg_lossReported {a : Nat} (h1 : a ≠ Reg.CPB_BALSTAT) (h2 : a ≠ Reg.CPB_EVT) (s : State) : reg (lossReported s) a = reg (lossShown s) a :=
  (reg_setEvt h2 2 _).trans ((Changes.enforceSwitches _).reg_other (by simpa using h1))

/-- What an expiry shows: the command cleared, the expiry recorded, counted and reported, and the timer restarted (R242, R243, R252). -/
theorem lossReported_clause (s : State) : reg (lossReported s) Reg.CPB_BALCMD = 0#32 ∧ bit Reg.CPB_CLTSTAT_CLOST (lossReported s) = true ∧
    regBit Reg.CPB_EVT 1 (lossReported s) = true ∧
    getF Reg.CPB_CLTSTAT_CNT (lossReported s) = min (getF Reg.CPB_CLTSTAT_CNT s + 1) (2 ^ Reg.CPB_CLTSTAT_CNT.w - 1) ∧
    (lossReported s).cpb.clStart = s.now ∧ (lossReported s).cpb.balCmd = 0#32 := by
  have hstat := reg_lossReported (a := Reg.CPB_CLTSTAT) (by decide) (by decide) s
  refine ⟨?_, ?_, regBit_setEvt (b := .cpb) (by decide) (by decide) _, ?_, ?_, ?_⟩
  · rw [reg_lossReported (by decide) (by decide)]
    exact (reg_incSat_other (by decide) _).trans ((reg_setB_other (by decide) _ _).trans (reg_setReg_same ..))
  · exact (bit_of_reg hstat).trans ((bit_setF_beside (by decide) (by decide) _ _).trans (bit_setB_same (by decide) rfl true _))
  · calc getF Reg.CPB_CLTSTAT_CNT (lossReported s)
        = getF Reg.CPB_CLTSTAT_CNT (incSat Reg.CPB_CLTSTAT_CNT (setB Reg.CPB_CLTSTAT_CLOST true (setReg Reg.CPB_BALCMD 0#32 s))) := getF_of_reg hstat
      _ = min (getF Reg.CPB_CLTSTAT_CNT (setB Reg.CPB_CLTSTAT_CLOST true (setReg Reg.CPB_BALCMD 0#32 s)) + 1) (2 ^ Reg.CPB_CLTSTAT_CNT.w - 1) :=
          getF_incSat _ _ (by decide)
      _ = min (getF Reg.CPB_CLTSTAT_CNT s + 1) (2 ^ Reg.CPB_CLTSTAT_CNT.w - 1) := by
          rw [setB, getF_setF_beside _ _ _ _ (by decide) (by decide), getF_of_reg (f := Reg.CPB_CLTSTAT_CNT) (reg_setReg_other (by decide) _ s)]
  · exact setEvt_now ..
  · exact congrArg CpbState.balCmd (setEvt_cpb ..)

theorem harness_lossReported (s : State) : (lossReported s).xck.harness = s.xck.harness := by
  have hxck : (lossReported s).xck = (enforceSwitches (lossShown s)).xck := setEvt_xck .cpb 2 (latchG1 none 6 (enforceSwitches (lossShown s)))
  rw [hxck]
  rfl

/-- An expiry leaves only the switch that a harness measurement holds. -/
theorem conducts_lossReported {s : State} (hh : s.xck.harness = none) (n : Nat) : conducts n (lossReported s) = false :=
  (conducts_of_reg (reg_setEvt (by decide) 2 _) n).trans (conducts_enforceSwitches_uncommanded (s := lossShown s) hh rfl n)

theorem communicationLossExpiry_over {s : State} (hp : s.sys.phase = .active)
    (ht : s.cpb.clStart + (getF Reg.CPB_CLTCFG_PERIOD s + 1) * 10 * ms ≤ s.now) : ∃ t, exec .communicationLossExpiry s = .next t ∧
    reg t Reg.CPB_BALCMD = 0#32 ∧ (∀ n, conducts n t = false) ∧ bit Reg.CPB_CLTSTAT_CLOST t = true ∧ regBit Reg.CPB_EVT 1 t = true ∧
    getF Reg.CPB_CLTSTAT_CNT t = min (getF Reg.CPB_CLTSTAT_CNT s + 1) (2 ^ Reg.CPB_CLTSTAT_CNT.w - 1) ∧
    t.cpb.clStart = s.now ∧ t.sys = s.sys ∧ t.cal = s.cal ∧ t.pending = s.pending := by
  obtain ⟨hcmd, hlost, hevt, hcnt, hstart, hbal⟩ := lossReported_clause s
  have hreg {a : Nat} (ha : a = Reg.CPB_BALCMD ∨ a = Reg.CPB_CLTSTAT ∨ a = Reg.CPB_EVT) := reg_lossFollowed (lossReported s) ha
  have hchg := (Changes.lossReported s).trans (lossFollowed_changes (lossReported s))
  have hplan := Changes.planAbort 9 (lossReported s)
  have hcpb : (targetZeroed (harnessAbort (planAbort 9 (lossReported s)))).cpb = (lossReported s).cpb :=
    (lossFollowed_changes _).part_eq .cpb (by decide)
  refine ⟨_, (exec_communicationLossExpiry s).trans (if_pos ⟨hp, decide_eq_true ht⟩), (hreg (.inl rfl)).trans hcmd, fun n => ?_,
    (bit_of_reg (hreg (.inr (.inl rfl)))).trans hlost, (regBit_of_reg (hreg (.inr (.inr rfl))) 1).trans hevt,
    (getF_of_reg (hreg (.inr (.inl rfl)))).trans hcnt, (congrArg CpbState.clStart hcpb).trans hstart, hchg.part_eq .sys (by decide),
    hchg.part_eq .cal (by decide), hchg.pending_eq⟩
  rw [conducts_of_reg ((targetZeroed_changes _).reg_other (by decide))]
  refine conducts_harnessAbort ((congrArg CpbState.balCmd (hplan.part_eq .cpb (by decide) : (planAbort 9 (lossReported s)).cpb = _)).trans hbal) ?_ n
  intro hnone m
  rw [conducts_of_reg (hplan.reg_other (by decide))]
  refine conducts_lossReported ?_ m
  rw [(hplan.part_eq .xck (by decide) : (planAbort 9 (lossReported s)).xck = _)] at hnone
  exact (harness_lossReported s).symm.trans hnone

theorem communicationLossExpiry_none {s : State}
    (h : s.sys.phase ≠ .active ∨ s.now < s.cpb.clStart + (getF Reg.CPB_CLTCFG_PERIOD s + 1) * 10 * ms) : exec .communicationLossExpiry s = .next s := by
  rw [exec_communicationLossExpiry, if_neg]
  rintro ⟨hp, ht⟩
  have hover := of_decide_eq_true ht
  exact h.elim (· hp) (fun hlt => by omega)

/-- R242: a legal write of PERIOD restarts the timer. -/
theorem cltcfgWrite_legal {s : State} (p : Fin 1024) (hc : coreUp s = true) (hp : p.val < 1000) : ∃ t, exec (.cltcfgWrite p) s = .next t ∧
    getF Reg.CPB_CLTCFG_PERIOD t = p.val ∧ t.cpb.clStart = s.now ∧ t.answered .ok ∧ Changes [.resp, .cpb] (oneOf [Reg.CPB_CLTCFG]) s t := by
  refine ⟨(Done.ok (writeTimerPeriod p s)).finish, (if_neg (by simp [hc])).trans (if_neg (by omega)), ?_, rfl, rfl, ?_⟩
  · exact (getF_setF_same Reg.CPB_CLTCFG_PERIOD p s (by decide)).trans (Nat.mod_eq_of_lt p.isLt)
  · exact (((Changes.setF ..).trans (.withCpb _ _)).trans (.finish_ok _)).mono (by simp) (by simp [oneOf, Reg.CPB_CLTCFG_PERIOD])

theorem cltcfgWrite_reserved {s : State} (p : Fin 1024) (hc : coreUp s = true) (hp : 1000 ≤ p.val) :
    exec (.cltcfgWrite p) s = .fault (.reservedWrite Reg.CPB_CLTCFG) := (if_neg (by simp [hc])).trans (if_pos hp)

/-- Settles O20: a half boundary lets only selected candidates conduct, a fault bit makes row 6 fail, and an expiry leaves nothing commanded. -/
theorem balancingSwitches : Obligations.BalancingSwitches := by
  unfold Obligations.BalancingSwitches
  intro s
  exact ⟨balancingHalfBoundary_next, switchOvercurrent_next, switchCheck_next, switchCheck_masked, communicationLossExpiry_over,
    communicationLossExpiry_none, cltcfgWrite_legal, cltcfgWrite_reserved⟩

end Sys2Proof.Machine
end

