-- ==== Sys2Proof/Proofs/LegacyChain.lean ====
section
/-!
PROOFS. The legacy chain (R369-R371, R428): what a command frame leaves on the lines of P0 and P1, and what a named emulated device does with it.
-/
namespace Sys2Proof.Machine

/-! ## Frames on a legacy line -/

theorem Changes.putFrames (n : Nat) (l : List (List Byte)) (s : State) : Changes [.lnk] (fun _ => False) s (putFrames n l s) :=
  .of_ite (.modPort n _ s) (.refl ..)

theorem portState_putFrames (m n : Nat) (l : List (List Byte)) (s : State) : portState m (putFrames n l s) = portState m s :=
  getF_of_reg ((Changes.putFrames n l s).reg_eq id)

theorem putFrames_legacy {n : Nat} {s : State} (h : portState n s = 5) (l : List (List Byte)) :
    putFrames n l s = modPort n (fun p => { p with line := l, levels := l.flatMap manchester }) s := if_pos h

theorem putFrames_silent {n : Nat} {s : State} (h : portState n s ≠ 5) (l : List (List Byte)) : putFrames n l s = s := if_neg h

theorem port_putFrames_same {n : Nat} (hn : n < 4) {s : State} (h : portState n s = 5) (l : List (List Byte)) :
    port n (putFrames n l s) = { port n s with line := l, levels := l.flatMap manchester } := by
  rw [putFrames_legacy h, port_modPort n n hn, if_pos rfl]

theorem port_putFrames_other {m n : Nat} (hm : m < 4) (hne : m ≠ n) (l : List (List Byte)) (s : State) : port m (putFrames n l s) = port m s := by
  unfold putFrames
  split
  · rw [port_modPort n m hm, if_neg hne]
  · rfl

theorem chain_putFrames (n : Nat) (l : List (List Byte)) (s : State) : (putFrames n l s).lnk.chain = s.lnk.chain := by
  unfold putFrames; split <;> rfl

theorem errSum_putFrames (n : Nat) (l : List (List Byte)) (s : State) : (putFrames n l s).lnk.errSum = s.lnk.errSum := by
  unfold putFrames; split <;> rfl

/-- From `s` to `t` a frame has been passed on (R371): it stands on the line of P1 where P1 is in the legacy state, and otherwise P1 stays as it is;
P2 and P3 stay as they are. -/
structure PassedOn (bytes : List Byte) (s t : State) : Prop where
  towardsP1 : if portState 1 s = 5 then (port 1 t).line = [bytes] ∧ (port 1 t).levels = manchester bytes else port 1 t = port 1 s
  p2 : port 2 t = port 2 s
  p3 : port 3 t = port 3 s

/-- A frame is put on P1 after changes that leave P1 to P3 alone. -/
theorem PassedOn.of_put {s u : State} (hstate : portState 1 u = portState 1 s) (hports : ∀ m, 1 ≤ m → m < 4 → port m u = port m s) (bytes : List Byte) :
    PassedOn bytes s (putFrames 1 [bytes] u) where
  towardsP1 := by
    split
    · next h =>
      rw [port_putFrames_same (by decide) (hstate.trans h)]
      exact ⟨rfl, List.flatMap_singleton ..⟩
    · next h => rw [putFrames_silent (hstate.trans_ne h), hports 1 (by decide) (by decide)]
  p2 := by rw [port_putFrames_other (by decide) (by decide), hports 2 (by decide) (by decide)]
  p3 := by rw [port_putFrames_other (by decide) (by decide), hports 3 (by decide) (by decide)]

theorem PassedOn.of_ports {bytes : List Byte} {s t u : State} (h : PassedOn bytes s t) (hports : ∀ m, 1 ≤ m → m < 4 → port m u = port m t) :
    PassedOn bytes s u where
  towardsP1 := by rw [hports 1 (by decide) (by decide)]; exact h.towardsP1
  p2 := (hports 2 (by decide) (by decide)).trans h.p2
  p3 := (hports 3 (by decide) (by decide)).trans h.p3

theorem port_of_lnk {s t : State} (h : t.lnk = s.lnk) (m : Nat) : port m t = port m s := by unfold port; rw [h]

/-! ## A valid frame -/

theorem Changes.clearFalseWake (n : Nat) (s : State) : Changes [.sys] (oneOf [Reg.SYS_PINSTAT]) s (clearFalseWake n s) :=
  ((Changes.withSys s _).trans (.reportLinkWake _)).mono (by simp) (by simp [oneOf])

theorem Changes.legacyTrained (s : State) : Changes [.sys] (oneOf [Reg.SYS_PINSTAT]) s (legacyTrained s) := by
  unfold Machine.legacyTrained
  split
  · exact ((Changes.withSys s _).trans (.clearFalseWake _ _)).mono (by simp) (by simp)
  · exact .clearFalseWake 0 s

/-- A valid frame has ended what stood on P0, counted as training, and restarted the timer (R69, R242). -/
def frameTaken (s : State) : State := legacyTrained (restartTimer (putFrames 0 [] s))

theorem frameTaken_changes (s : State) : Changes [.lnk, .cpb, .sys] (oneOf [Reg.SYS_PINSTAT]) s (frameTaken s) :=
  (((Changes.putFrames 0 [] s).trans (.withCpb _ _)).trans (.legacyTrained _)).mono (by simp) (by simp)

theorem frameTaken_lnk (s : State) : (frameTaken s).lnk = (putFrames 0 [] s).lnk :=
  (Changes.legacyTrained (restartTimer (putFrames 0 [] s))).part_eq .lnk (by decide)

theorem frameTaken_clStart (s : State) : (frameTaken s).cpb.clStart = s.now := by
  have hcpb : (frameTaken s).cpb = (restartTimer (putFrames 0 [] s)).cpb := (Changes.legacyTrained _).part_eq .cpb (by decide)
  rw [hcpb]
  exact (Changes.putFrames 0 [] s).part_eq .now (by decide)

theorem port_frameTaken {m : Nat} (h1 : 1 ≤ m) (h4 : m < 4) (s : State) : port m (frameTaken s) = port m s :=
  (port_of_lnk (frameTaken_lnk s) m).trans (port_putFrames_other h4 (by omega) [] s)

theorem portState_frameTaken (m : Nat) (s : State) : portState m (frameTaken s) = portState m s :=
  getF_of_reg ((frameTaken_changes s).reg_other (by simp only [Reg.LNK_PSTAT_STATE, Reg.LNK_PSTAT, Reg.SYS_PINSTAT, List.mem_singleton]; omega))

/-- A valid frame other than an address assignment has been passed on as it is. -/
def frameRelayed (bytes : List Byte) (s : State) : State := putFrames 1 [bytes] (frameTaken s)

/-- What a valid frame that is passed on leaves, whatever it commands. -/
structure Relayed (bytes : List Byte) (s t : State) : Prop where
  passed : PassedOn bytes s t
  timer : t.cpb.clStart = s.now
  chain : t.lnk.chain = s.lnk.chain
  p0 : (port 0 t).line = []
  state0 : portState 0 t = 5
  changes : Changes [.lnk, .cpb, .sys] (oneOf [Reg.SYS_PINSTAT]) s t

theorem relayed_frameRelayed {s : State} (h0 : portState 0 s = 5) (bytes : List Byte) : Relayed bytes s (frameRelayed bytes s) where
  passed := .of_put (portState_frameTaken 1 s) (fun _ h1 h4 => port_frameTaken h1 h4 s) bytes
  timer := (congrArg CpbState.clStart ((Changes.putFrames 1 [bytes] _).part_eq .cpb (by decide) : (frameRelayed bytes s).cpb = _)).trans
    (frameTaken_clStart s)
  chain := (chain_putFrames ..).trans ((congrArg LnkState.chain (frameTaken_lnk s)).trans (chain_putFrames ..))
  p0 := by
    rw [frameRelayed, port_putFrames_other (by decide) (by decide), port_of_lnk (frameTaken_lnk s), port_putFrames_same (by decide) h0]
  state0 := (portState_putFrames ..).trans ((portState_frameTaken 0 s).trans h0)
  changes := ((frameTaken_changes s).trans (.putFrames 1 [bytes] _)).mono (by simp) (by simp)

/-- An address assignment has been taken (R371). -/
def addressTaken (pos : Nat) (s : State) : State := { frameTaken s with lnk := { (frameTaken s).lnk with chain := some pos } }

/-- What a command does in a device with an address: a host error (R6), or the acts of both emulated devices. -/
def commandServed (bytes : List Byte) (first : Nat) (s : State) : Out :=
  if legacyOp bytes ≠ 0 ∧ [0, 1].any (fun d => legacyNames bytes first d && g1Bad d (byteAt bytes 2) (legacyWords bytes) s) then .next (upset s)
  else .next (legacyAct bytes first 1 (legacyAct bytes first 0 s))

/-- P0 serves the legacy chain. -/
def chainOn (s : State) : Prop := linksRun s = true ∧ legacyMode s = true ∧ portState 0 s = 5

theorem chainOn.state0 {s : State} (h : chainOn s) : portState 0 s = 5 := h.2.2

theorem exec_legacyCommandFrame {s : State} (hon : chainOn s) (bytes : List Byte) (v : Bool) : exec (.legacyCommandFrame bytes v) s =
    if v then .next (linkError 0 (Reg.LNK_ERRB_CODE 0) (putFrames 1 [bytes] (putFrames 0 [] s)))
    else if !legacyGood bytes then
      let t := linkError 0 (Reg.LNK_ERRA_PCRC 0) (putFrames 1 [bytes] (putFrames 0 [] s))
      .next { t with hst := { t.hst with g1crc := true } }
    else if legacyOp bytes = 3 then
      .next (putFrames 1 [legacyPassOn bytes] (addressTaken (legacyPos bytes) s))
    else
      match (frameRelayed bytes s).lnk.chain with
      | none => .next (frameRelayed bytes s)
      | some first => commandServed bytes first (frameRelayed bytes s) := by
  obtain ⟨hl, hm, h0⟩ := hon
  have hserved : (!(linksRun s && legacyMode s && portState 0 s == portLegacy)) = false := by simp [hl, hm, h0, portLegacy]
  change execLegacyCommandFrame bytes v s = _
  rw [execLegacyCommandFrame, hserved, if_neg Bool.false_ne_true]
  rfl

theorem legacyCommandFrame_off {s : State} (bytes : List Byte) (v : Bool) (h : linksRun s = false ∨ legacyMode s = false ∨ portState 0 s ≠ 5) :
    exec (.legacyCommandFrame bytes v) s = .next s := by
  refine if_pos ?_
  rcases h with h | h | h <;> simp [h, portLegacy]

/-- R371: an address assignment sets the first position and is passed on with the position raised. -/
theorem addressAssignment_next {s : State} (bytes : List Byte) (hon : chainOn s) (hg : legacyGood bytes = true) (hop : legacyOp bytes = 3) : ∃ t,
    exec (.legacyCommandFrame bytes false) s = .next t ∧ t.lnk.chain = some (legacyPos bytes) ∧ PassedOn (legacyPassOn bytes) s t ∧
    t.cpb.clStart = s.now ∧ Changes [.lnk, .cpb, .sys] (oneOf [Reg.SYS_PINSTAT]) s t := by
  refine ⟨putFrames 1 [legacyPassOn bytes] (addressTaken (legacyPos bytes) s), ?_, chain_putFrames 1 _ (addressTaken (legacyPos bytes) s),
    .of_put (u := addressTaken (legacyPos bytes) s) (portState_frameTaken 1 s) (fun _ h1 h4 => port_frameTaken h1 h4 s) _, ?_, ?_⟩
  · rw [exec_legacyCommandFrame hon, if_neg Bool.false_ne_true, if_neg (by simp [hg]), if_pos hop]
  · have hcpb := (Changes.putFrames 1 [legacyPassOn bytes] (addressTaken (legacyPos bytes) s)).part_eq .cpb (by decide)
    exact (congrArg CpbState.clStart hcpb).trans (frameTaken_clStart s)
  · have htaken : Changes [.lnk] (fun _ => False) (frameTaken s) (addressTaken (legacyPos bytes) s) := .withLnk _ _
    exact (((frameTaken_changes s).trans htaken).trans (.putFrames 1 _ _)).mono (by simp) (by simp)

theorem exec_command {s : State} {bytes : List Byte} (hon : chainOn s) (hg : legacyGood bytes = true) (hop : legacyOp bytes ≠ 3) :
    exec (.legacyCommandFrame bytes false) s =
      match s.lnk.chain with
      | none => .next (frameRelayed bytes s)
      | some first => commandServed bytes first (frameRelayed bytes s) := by
  rw [exec_legacyCommandFrame hon, if_neg Bool.false_ne_true, if_neg (by simp [hg]), if_neg hop, (relayed_frameRelayed hon.state0 bytes).chain]

theorem exec_command_unassigned {s : State} {bytes : List Byte} (hon : chainOn s) (hg : legacyGood bytes = true) (hop : legacyOp bytes ≠ 3)
    (hch : s.lnk.chain = none) : exec (.legacyCommandFrame bytes false) s = .next (frameRelayed bytes s) := by
  rw [exec_command hon hg hop, hch]

/-- A write of BAL alone is no host error (R6, R247). -/
theorem g1Bad_bal (d v : Nat) (s : State) : g1Bad d 7 [v] s = false := rfl

theorem legacyWords_one {bytes : List Byte} (h : byteAt bytes 3 = 1) : legacyWords bytes = [numAt bytes 4 2] := by
  rw [legacyWords, h]
  rfl

theorem headD_legacyWords {bytes : List Byte} (h : byteAt bytes 3 = 1) : (legacyWords bytes).headD 0 = numAt bytes 4 2 := by rw [legacyWords_one h]; rfl

theorem exec_command_assigned {s : State} {bytes : List Byte} {first : Nat} (hon : chainOn s) (hg : legacyGood bytes = true) (hop : legacyOp bytes ≠ 3)
    (hch : s.lnk.chain = some first) (hok : legacyOp bytes = 0 ∨ (byteAt bytes 2 = 7 ∧ byteAt bytes 3 = 1)) :
    exec (.legacyCommandFrame bytes false) s = .next (legacyAct bytes first 1 (legacyAct bytes first 0 (frameRelayed bytes s))) := by
  rw [exec_command hon hg hop, hch]
  refine if_neg ?_
  rintro ⟨hne, hbad⟩
  obtain h0 | ⟨hr, hn⟩ := hok
  · exact hne h0
  · simp [hr, legacyWords_one hn, g1Bad_bal] at hbad

/-! ## What a device reads and answers -/

/-- Two states in which the emulated devices read the same: only registers of SYS and what no read shows differ. -/
structure SameReads (s t : State) : Prop where
  regs : ∀ a, 0x800 ≤ a → reg t a = reg s a
  flt : t.flt = s.flt
  hst : t.hst = s.hst
  free : t.free = s.free

section
variable {s t : State} (h : SameReads s t)
include h

theorem g1Fault_congr (d : Nat) : g1Fault d t = g1Fault d s := by
  simp (disch := decide) only [g1Fault, getF, h.regs, h.flt, h.hst]

theorem g1Stat_congr (d : Nat) : g1Stat d t = g1Stat d s := by
  simp (disch := decide) only [g1Stat, g1Fault_congr h, conducts, getF, h.regs, h.hst]

theorem cellCode_congr (n : Nat) : cellCode n t = cellCode n s := by
  rw [cellCode, cellCode, h.regs _ (by simp only [Reg.CMS_LAST]; omega)]

theorem g1Modv_congr (d : Nat) : g1Modv d t = g1Modv d s := by
  simp only [g1Modv, cellCode_congr h, freeWord, h.free]

theorem g1Aux_congr (k : Nat) : g1Aux k t = g1Aux k s := by
  have hax : reg t (Reg.XCK_AX k) = reg s (Reg.XCK_AX k) := h.regs _ (by simp only [Reg.XCK_AX]; omega)
  simp only [g1Aux, hax, freeWord, h.free]

theorem g1Read_congr (d r : Nat) : g1Read d r t = g1Read d r s := by
  simp (disch := decide) only [g1Read, g1Cell, cellCode_congr h, g1Aux_congr h, g1Stat_congr h, g1Fault_congr h, g1Modv_congr h, getF, h.regs]

theorem g1ReadMany_congr (d r n : Nat) : g1ReadMany d r n t = g1ReadMany d r n s := by simp only [g1ReadMany, g1Read_congr h]

theorem legacyResponse_congr (pos d : Nat) (words : List Nat) : legacyResponse pos d words t = legacyResponse pos d words s := by
  simp only [legacyResponse, g1Stat_congr h]

theorem SameReads.g1Names (r n : Nat) : SameReads (g1Names r n s) (g1Names r n t) where
  regs := h.regs
  flt := h.flt
  hst := by simp only [Machine.g1Names, h.hst]
  free := h.free

end

theorem Relayed.sameReads {bytes : List Byte} {s t : State} (h : Relayed bytes s t) : SameReads s t where
  regs a ha := h.changes.reg_other (by simp only [Reg.SYS_PINSTAT, List.mem_singleton]; omega)
  flt := h.changes.part_eq .flt (by decide)
  hst := h.changes.part_eq .hst (by decide)
  free := h.changes.part_eq .free (by decide)

theorem legacyAct_unnamed {bytes : List Byte} {first d : Nat} (h : legacyNames bytes first d = false) (s : State) : legacyAct bytes first d s = s :=
  if_pos (by simp [h])

/-- A command for the second emulated device does not name the first one. -/
theorem legacyNames_second {bytes : List Byte} {first : Nat} (hop : legacyOp bytes ≠ 2) (hp : legacyPos bytes = first + 1) (hlt : first + 1 < 63) :
    legacyNames bytes first 0 = false ∧ legacyNames bytes first 1 = true := by
  have hall : first ≠ 62 := by omega
  simp [legacyNames, hop, hp, hall]

/-- The state in which an emulated device has answered towards P0 (R371, R426). -/
def deviceAnswered (bytes : List Byte) (first d : Nat) (rd : Bool) (words : List Nat) (s : State) : State :=
  g1After d (byteAt bytes 2) (byteAt bytes 3) rd (putFrames 0 ((port 0 s).line ++ [legacyResponse (first + d) d words s]) s)

theorem legacyAct_read {bytes : List Byte} {first d : Nat} (h : legacyNames bytes first d = true) (hop : legacyOp bytes = 0) (s : State) :
    legacyAct bytes first d s = useFree (deviceAnswered bytes first d true
      (g1ReadMany d (byteAt bytes 2) (byteAt bytes 3) (g1Names (byteAt bytes 2) (byteAt bytes 3) s)) (g1Names (byteAt bytes 2) (byteAt bytes 3) s)) := by
  simp only [legacyAct, h, hop]
  rfl

theorem legacyAct_write {bytes : List Byte} {first d : Nat} (h : legacyNames bytes first d = true) (hop : legacyOp bytes = 1) (s : State) :
    legacyAct bytes first d s = g1WriteMany d (byteAt bytes 2) (legacyWords bytes)
      (deviceAnswered bytes first d false [] (g1Names (byteAt bytes 2) (byteAt bytes 3) s)) := by
  simp only [legacyAct, h, hop]
  rfl

theorem legacyAct_broadcast {bytes : List Byte} (hop : legacyOp bytes = 2) (first d : Nat) (s : State) :
    legacyAct bytes first d s = g1WriteMany d (byteAt bytes 2) (legacyWords bytes)
      (g1After d (byteAt bytes 2) (byteAt bytes 3) false (g1Names (byteAt bytes 2) (byteAt bytes 3) s)) := by
  simp only [legacyAct, legacyNames, hop]
  rfl

theorem g1Names_changes (r n : Nat) (s : State) : Changes [.hst] (fun _ => False) s (g1Names r n s) := .withHst s _

theorem g1After_changes (d r n : Nat) (rd : Bool) (s : State) : Changes [.hst] (fun _ => False) s (g1After d r n rd s) := .withHst s _

/-- The answer of one device stands alone on the line of P0, as the state before the frame gives it. -/
theorem deviceAnswered_clause {bytes : List Byte} {s t : State} (h : Relayed bytes s t) (first d : Nat) (rd : Bool) (words : List Nat) :
    PassedOn bytes s (deviceAnswered bytes first d rd words (g1Names (byteAt bytes 2) (byteAt bytes 3) t)) ∧
    (port 0 (deviceAnswered bytes first d rd words (g1Names (byteAt bytes 2) (byteAt bytes 3) t))).line =
      [legacyResponse (first + d) d words (g1Names (byteAt bytes 2) (byteAt bytes 3) s)] ∧
    (deviceAnswered bytes first d rd words (g1Names (byteAt bytes 2) (byteAt bytes 3) t)).cpb.clStart = s.now ∧
    Changes [.lnk, .cpb, .sys, .hst] (oneOf [Reg.SYS_PINSTAT]) s
      (deviceAnswered bytes first d rd words (g1Names (byteAt bytes 2) (byteAt bytes 3) t)) := by
  have hchg : Changes [.lnk, .hst] (fun _ => False) t (deviceAnswered bytes first d rd words (g1Names (byteAt bytes 2) (byteAt bytes 3) t)) :=
    (((g1Names_changes _ _ t).trans (.putFrames 0 _ _)).trans (g1After_changes _ _ _ _ _)).mono (by simp) (by simp)
  refine ⟨h.passed.of_ports (fun m h1 h4 => ?_), ?_, ?_, (h.changes.trans hchg).mono (by simp) (by simp)⟩
  · exact port_putFrames_other h4 (by omega) _ (g1Names (byteAt bytes 2) (byteAt bytes 3) t)
  · have hline := congrArg PortState.line (port_putFrames_same (by decide) (s := g1Names (byteAt bytes 2) (byteAt bytes 3) t) h.state0
      ((port 0 t).line ++ [legacyResponse (first + d) d words (g1Names (byteAt bytes 2) (byteAt bytes 3) t)]))
    refine hline.trans ?_
    rw [h.p0, List.nil_append, legacyResponse_congr (h.sameReads.g1Names _ _)]
  · exact (congrArg CpbState.clStart (hchg.part_eq .cpb (by decide))).trans h.timer

/-- R371: a read for the second emulated device is passed on, and that device alone answers. -/
theorem secondRead_next {s : State} (bytes : List Byte) (first : Nat) (hon : chainOn s) (hg : legacyGood bytes = true) (hop : legacyOp bytes = 0)
    (hch : s.lnk.chain = some first) (hp : legacyPos bytes = first + 1) (hlt : first + 1 < 63) : ∃ t,
    exec (.legacyCommandFrame bytes false) s = .next t ∧ PassedOn bytes s t ∧
    (port 0 t).line = [legacyResponse (first + 1) 1 (g1ReadMany 1 (byteAt bytes 2) (byteAt bytes 3) (g1Names (byteAt bytes 2) (byteAt bytes 3) s))
      (g1Names (byteAt bytes 2) (byteAt bytes 3) s)] ∧
    t.cpb.clStart = s.now ∧ Changes [.lnk, .cpb, .sys, .hst, .free] (oneOf [Reg.SYS_PINSTAT]) s t := by
  obtain ⟨hfirst, hsecond⟩ := legacyNames_second (by omega) hp hlt
  have hrel := relayed_frameRelayed hon.state0 bytes
  have hnext := exec_command_assigned hon hg (by omega) hch (.inl hop)
  rw [legacyAct_unnamed hfirst, legacyAct_read hsecond hop, g1ReadMany_congr (hrel.sameReads.g1Names _ _)] at hnext
  obtain ⟨hpassed, hline, htimer, hchg⟩ := deviceAnswered_clause hrel first 1 true
    (g1ReadMany 1 (byteAt bytes 2) (byteAt bytes 3) (g1Names (byteAt bytes 2) (byteAt bytes 3) s))
  generalize deviceAnswered bytes first 1 true _ _ = answered at hnext hpassed hline htimer hchg
  exact ⟨_, hnext, hpassed.of_ports (fun _ _ _ => rfl), hline, htimer, (hchg.trans (.useFree _)).mono (by simp) (by simp)⟩

/-! ## BAL -/

theorem getLsbD_cellWord {d : Nat} (hd : d < 2) (v i : Nat) :
    (cellWord d v).getLsbD i = (decide (12 * d < i ∧ i ≤ 12 * d + 12) && v.testBit (i - 12 * d - 1)) := by
  rw [cellWord, BitVec.getLsbD_ofNat, Nat.testBit_mul_two_pow, show 4096 = 2 ^ 12 from rfl, Nat.testBit_mod_two_pow, Nat.sub_sub]
  by_cases hin : 12 * d < i ∧ i ≤ 12 * d + 12
  · have h32 : i < 32 := by omega
    have hlo : 12 * d + 1 ≤ i := by omega
    have hhi : i - (12 * d + 1) < 12 := by omega
    simp [hin, h32, hlo, hhi]
  · by_cases hlo : 12 * d + 1 ≤ i
    · have hhi : ¬ i - (12 * d + 1) < 12 := by omega
      simp [hin, hhi]
    · simp [hin, hlo]

/-- R242, R428: a write of BAL sets the cells of its device and leaves the others. -/
theorem balcmd_g1Write {d : Nat} (hd : d < 2) (v : Nat) {i : Nat} (hi : i ≤ 24) (s : State) : (reg (g1WriteMany d 7 [v] s) Reg.CPB_BALCMD).getLsbD i =
    if 12 * d < i ∧ i ≤ 12 * d + 12 then v.testBit (i - 12 * d - 1) else (reg s Reg.CPB_BALCMD).getLsbD i := by
  have hreg : reg (g1WriteMany d 7 [v] s) Reg.CPB_BALCMD = (reg s Reg.CPB_BALCMD &&& ~~~(cellWord d 4095)) ||| cellWord d v := reg_setReg_same ..
  have h32 : i < 32 := by omega
  rw [hreg, BitVec.getLsbD_or, BitVec.getLsbD_and, BitVec.getLsbD_not, getLsbD_cellWord hd, getLsbD_cellWord hd]
  by_cases hin : 12 * d < i ∧ i ≤ 12 * d + 12
  · have hhi : i - 12 * d - 1 < 12 := by omega
    have hones : (4095 : Nat).testBit (i - 12 * d - 1) = true := (Nat.testBit_two_pow_sub_one 12 _).trans (decide_eq_true hhi)
    simp [hin, hones]
  · simp [hin, h32]

theorem g1WriteMany_bal_changes (d v : Nat) (s : State) : Changes [] (oneOf [Reg.CPB_BALCMD]) s (g1WriteMany d 7 [v] s) :=
  (Changes.setReg Reg.CPB_BALCMD _ s).mono (by simp) (by simp [oneOf])

/-- BAL is a listed register, so naming it alone changes nothing. -/
theorem g1Names_bal (s : State) : g1Names 7 1 s = s := by
  have hlisted : g1Unlisted 7 1 = false := by decide
  rw [g1Names, hlisted, Bool.or_false]

/-- R371: a write of BAL for the second emulated device sets its cells, and that device answers. -/
theorem secondBalWrite_next {s : State} (bytes : List Byte) (first : Nat) (hon : chainOn s) (hg : legacyGood bytes = true) (hop : legacyOp bytes = 1)
    (hch : s.lnk.chain = some first) (hp : legacyPos bytes = first + 1) (hlt : first + 1 < 63) (hr : byteAt bytes 2 = 7) (hn : byteAt bytes 3 = 1) :
    ∃ t, exec (.legacyCommandFrame bytes false) s = .next t ∧ PassedOn bytes s t ∧ (port 0 t).line = [legacyResponse (first + 1) 1 [] s] ∧
    (∀ i, 1 ≤ i → i ≤ 24 → (reg t Reg.CPB_BALCMD).getLsbD i =
      (if 12 < i then ((legacyWords bytes).headD 0).testBit (i - 12 * 1 - 1) else (reg s Reg.CPB_BALCMD).getLsbD i)) ∧
    t.cpb.clStart = s.now ∧ Changes [.lnk, .cpb, .sys, .hst] (oneOf [Reg.SYS_PINSTAT, Reg.CPB_BALCMD]) s t := by
  obtain ⟨hfirst, hsecond⟩ := legacyNames_second (by omega) hp hlt
  have hnext := exec_command_assigned hon hg (by omega) hch (.inr ⟨hr, hn⟩)
  rw [legacyAct_unnamed hfirst, legacyAct_write hsecond hop, legacyWords_one hn] at hnext
  have hans := deviceAnswered_clause (relayed_frameRelayed hon.state0 bytes) first 1 false []
  rw [hr, hn, g1Names_bal] at hnext hans
  rw [g1Names_bal] at hans
  obtain ⟨hpassed, hline, htimer, hchg⟩ := hans
  refine ⟨_, hnext, hpassed.of_ports (fun _ _ _ => rfl), hline, fun i _ h24 => ?_, htimer,
    (hchg.trans (g1WriteMany_bal_changes _ _ _)).mono (by simp) (by simp [oneOf])⟩
  rw [headD_legacyWords hn, balcmd_g1Write (by decide) _ h24, hchg.reg_other (by decide)]
  exact if_congr (by omega) rfl rfl

/-- R371: a broadcast write of BAL sets the cells of both emulated devices, and none answers. -/
theorem broadcastBalWrite_next {s : State} (bytes : List Byte) (first : Nat) (hon : chainOn s) (hg : legacyGood bytes = true) (hop : legacyOp bytes = 2)
    (hch : s.lnk.chain = some first) (hr : byteAt bytes 2 = 7) (hn : byteAt bytes 3 = 1) :
    ∃ t, exec (.legacyCommandFrame bytes false) s = .next t ∧ PassedOn bytes s t ∧ (port 0 t).line = [] ∧
    (∀ i, 1 ≤ i → i ≤ 24 → (reg t Reg.CPB_BALCMD).getLsbD i = ((legacyWords bytes).headD 0).testBit (i - 12 * (if 12 < i then 1 else 0) - 1)) ∧
    t.cpb.clStart = s.now ∧ Changes [.lnk, .cpb, .sys, .hst] (oneOf [Reg.SYS_PINSTAT, Reg.CPB_BALCMD]) s t := by
  have hrel := relayed_frameRelayed hon.state0 bytes
  have hnext := exec_command_assigned hon hg (by omega) hch (.inr ⟨hr, hn⟩)
  rw [legacyAct_broadcast hop, legacyAct_broadcast hop, legacyWords_one hn, hr, hn, g1Names_bal, g1Names_bal] at hnext
  have hchg (d : Nat) (u : State) : Changes [.hst] (oneOf [Reg.CPB_BALCMD]) u (g1WriteMany d 7 [numAt bytes 4 2] (g1After d 7 1 false u)) :=
    ((g1After_changes d 7 1 false u).trans (g1WriteMany_bal_changes _ _ _)).mono (by simp) (by simp)
  refine ⟨_, hnext, hrel.passed.of_ports (fun _ _ _ => rfl), hrel.p0, fun i h1 h24 => ?_, hrel.timer,
    ((hrel.changes.trans (hchg 0 _)).trans (hchg 1 _)).mono (by simp) (by simp [oneOf])⟩
  rw [headD_legacyWords hn, balcmd_g1Write (by decide) _ h24, (g1After_changes ..).reg_eq id, balcmd_g1Write (by decide) _ h24]
  by_cases h12 : 12 < i
  · rw [if_pos (by omega), if_pos h12]
  · rw [if_neg (by omega), if_pos (by omega), if_neg h12]

/-! ## Failed frames -/

theorem linkError_clause {c : Field} (hc : c.lo + c.w ≤ 32) (s : State) : getF c (linkError 0 c s) = min (getF c s + 1) (2 ^ c.w - 1) ∧
    (linkError 0 c s).flt.waiting = s.flt.waiting ++ [92] ∧ (linkError 0 c s).lnk = { s.lnk with errSum := (s.lnk.errSum + 1) % 65536 } ∧
    Changes [.lnk, .flt] (oneOf [c.addr]) s (linkError 0 c s) := by
  have hsum : Changes [.lnk] (fun _ => False) s { s with lnk := { s.lnk with errSum := (s.lnk.errSum + 1) % 65536 } } := .withLnk s _
  refine ⟨?_, pulse_waiting 92 _ (by simp [muted]), pulse_lnk .., ((hsum.trans (.incSat c _)).trans (.pulse 92 _)).mono (by simp) (by simp [oneOf])⟩
  exact (getF_of_reg (reg_pulse 92 _ _)).trans (getF_incSat c _ hc)

/-- R371: a frame that fails is passed on, counted and reported as source 92. -/
theorem failedFrame_clause (bytes : List Byte) {c : Field} (hc : c.lo + c.w ≤ 32) {s t : State}
    (ht : t = linkError 0 c (putFrames 1 [bytes] (putFrames 0 [] s))) : PassedOn bytes s t ∧ getF c t = min (getF c s + 1) (2 ^ c.w - 1) ∧
    t.flt.waiting = s.flt.waiting ++ [92] ∧ t.lnk.errSum = (s.lnk.errSum + 1) % 65536 ∧ Changes [.lnk, .flt] (oneOf [c.addr]) s t := by
  subst ht
  have hput : Changes [.lnk] (fun _ => False) s (putFrames 1 [bytes] (putFrames 0 [] s)) :=
    ((Changes.putFrames 0 [] s).trans (.putFrames 1 [bytes] _)).mono (by simp) (by simp)
  obtain ⟨hcount, hwait, hlnk, hchg⟩ := linkError_clause hc (putFrames 1 [bytes] (putFrames 0 [] s))
  have hpassed : PassedOn bytes s (putFrames 1 [bytes] (putFrames 0 [] s)) :=
    .of_put (portState_putFrames 1 0 [] s) (fun m h1 h4 => port_putFrames_other h4 (by omega) [] s) bytes
  refine ⟨hpassed.of_ports (fun m _ _ => by unfold port; rw [hlnk]), ?_, ?_, ?_, (hput.trans hchg).mono (by simp) (by simp)⟩
  · rw [hcount, getF_of_reg (hput.reg_eq id)]
  · exact hwait.trans (congrArg (fun f => FltState.waiting f ++ [92]) (hput.part_eq .flt (by decide)))
  · rw [hlnk, errSum_putFrames, errSum_putFrames]

theorem badFrame_next {s : State} (bytes : List Byte) (hon : chainOn s) (hg : legacyGood bytes = false) : ∃ t,
    exec (.legacyCommandFrame bytes false) s = .next t ∧ PassedOn bytes s t ∧
    getF (Reg.LNK_ERRA_PCRC 0) t = min (getF (Reg.LNK_ERRA_PCRC 0) s + 1) (2 ^ (Reg.LNK_ERRA_PCRC 0).w - 1) ∧
    t.flt.waiting = s.flt.waiting ++ [92] ∧ t.lnk.errSum = (s.lnk.errSum + 1) % 65536 ∧ Changes [.lnk, .hst, .flt] (oneOf [Reg.LNK_ERRA 0]) s t := by
  have hnext := exec_legacyCommandFrame hon bytes false
  rw [if_neg Bool.false_ne_true, if_pos (by simp [hg])] at hnext
  obtain ⟨hpassed, hcount, hwait, hsum, hchg⟩ := failedFrame_clause bytes (c := Reg.LNK_ERRA_PCRC 0) (by decide) (s := s) rfl
  exact ⟨_, hnext, hpassed.of_ports (fun _ _ _ => rfl), hcount, hwait, hsum, (hchg.trans (.withHst _ _)).mono (by simp) (by simp [Reg.LNK_ERRA_PCRC])⟩

theorem codeViolation_next {s : State} (bytes : List Byte) (hon : chainOn s) : ∃ t,
    exec (.legacyCommandFrame bytes true) s = .next t ∧ PassedOn bytes s t ∧
    getF (Reg.LNK_ERRB_CODE 0) t = min (getF (Reg.LNK_ERRB_CODE 0) s + 1) (2 ^ (Reg.LNK_ERRB_CODE 0).w - 1) ∧
    t.flt.waiting = s.flt.waiting ++ [92] ∧ t.lnk.errSum = (s.lnk.errSum + 1) % 65536 ∧ Changes [.lnk, .flt] (oneOf [Reg.LNK_ERRB 0]) s t := by
  have hnext := exec_legacyCommandFrame hon bytes true
  rw [if_pos rfl] at hnext
  exact ⟨_, hnext, failedFrame_clause bytes (c := Reg.LNK_ERRB_CODE 0) (by decide) rfl⟩

/-- Settles O42: a valid frame first takes P0's line, the timer and P1, then its address or its command acts; a failed frame is counted. -/
theorem legacyChain : Obligations.LegacyChain := by
  unfold Obligations.LegacyChain
  intro s
  extract_lets on good others passed cells
  refine ⟨fun bytes hon ⟨hg, hop⟩ => ?_, fun bytes first hon ⟨hg, hop⟩ hch hp hlt => ?_, fun bytes first hon ⟨hg, hop⟩ hch hp hlt hr hn => ?_,
    fun bytes first hon ⟨hg, hop⟩ hch hr hn => ?_, fun bytes hon hg hop hch => ?_, fun bytes hon hg => ?_, fun bytes hon => ?_,
    legacyCommandFrame_off⟩
  · obtain ⟨t, hnext, hchain, hpass, htimer, hchg⟩ := addressAssignment_next bytes hon hg hop
    exact ⟨t, hnext, hchain, hpass.towardsP1, htimer, ⟨hpass.p2, hpass.p3⟩, hchg⟩
  · obtain ⟨t, hnext, hpass, hline, htimer, hchg⟩ := secondRead_next bytes first hon hg hop hch hp hlt
    exact ⟨t, hnext, hpass.towardsP1, hline, htimer, ⟨hpass.p2, hpass.p3⟩, hchg⟩
  · obtain ⟨t, hnext, hpass, hline, hcells, htimer, hchg⟩ := secondBalWrite_next bytes first hon hg hop hch hp hlt hr hn
    exact ⟨t, hnext, hpass.towardsP1, hline, hcells, htimer, ⟨hpass.p2, hpass.p3⟩, hchg⟩
  · obtain ⟨t, hnext, hpass, hline, hcells, htimer, hchg⟩ := broadcastBalWrite_next bytes first hon hg hop hch hr hn
    exact ⟨t, hnext, hpass.towardsP1, hline, hcells, htimer, ⟨hpass.p2, hpass.p3⟩, hchg⟩
  · have hrel := relayed_frameRelayed (chainOn.state0 hon) bytes
    exact ⟨_, exec_command_unassigned hon hg hop hch, hrel.passed.towardsP1, hrel.p0, hrel.timer, ⟨hrel.passed.p2, hrel.passed.p3⟩, hrel.changes⟩
  · obtain ⟨t, hnext, hpass, hcount, hwait, hsum, hchg⟩ := badFrame_next bytes hon hg
    exact ⟨t, hnext, hpass.towardsP1, hcount, hwait, hsum, ⟨hpass.p2, hpass.p3⟩, hchg⟩
  · obtain ⟨t, hnext, hpass, hcount, hwait, hsum, hchg⟩ := codeViolation_next bytes hon
    exact ⟨t, hnext, hpass.towardsP1, hcount, hwait, hsum, ⟨hpass.p2, hpass.p3⟩, hchg⟩

end Sys2Proof.Machine
end

