-- ==== Sys2Proof/Proofs/ConverterStops.lean ====
section
/-!
PROOFS. What a stop, the entry to CHECK and the entry to SOFTSTART leave: the state code, the outputs, the phases that switch and the events (R271 to R277,
R299), and what follows for the events that wait.
-/
namespace Sys2Proof.Machine

/-! ## Sources that a change does not mute -/

theorem Changes.muted_eq {ps : List Part} {rs : Nat → Prop} {s t : State} (h : Changes ps rs s t) (hp : Part.cms ∉ ps) (src : Nat) :
    muted src t = muted src s := by
  have hcms : t.cms = s.cms := h.part_eq .cms hp
  unfold muted
  rw [hcms]

/-- An event that is reported after a change waits for the collector, unless its source was muted before. -/
theorem Changes.mem_waiting_pulse {ps : List Part} {rs : Nat → Prop} {s t : State} (h : Changes ps rs s t) (hp : Part.cms ∉ ps) {src : Nat}
    (hm : muted src s = false) : src ∈ (Machine.pulse src t).flt.waiting := Machine.mem_waiting_pulse ((h.muted_eq hp src).trans hm)

/-- Sources 63 to 83 are muted together (R489). -/
theorem muted_eq_of_converter {a b : Nat} (ha : 63 ≤ a ∧ a ≤ 83) (hb : 63 ≤ b ∧ b ≤ 83) (s : State) : muted a s = muted b s := by
  simp [muted, ha, hb]

theorem not_oneOf {a : Nat} {as : List Nat} (h : a ∉ as) : ¬ oneOf as a := h

/-! ## Masks of phases -/

theorem testBit_phaseMask {l : List Nat} (h : l.Sublist (List.range 4)) {n : Nat} (hn : n < 4) : (phaseMask l).testBit n = decide (n ∈ l) := by
  have hall : ∀ l ∈ (List.range 4).sublists, ∀ n < 4, (phaseMask l).testBit n = decide (n ∈ l) := by decide
  exact hall l (List.mem_sublists.2 h) n hn

theorem phaseMask_phasesOf {m : Nat} (h : m < 16) : phaseMask (phasesOf m) = m := by
  have hall : ∀ m < 16, phaseMask (phasesOf m) = m := by decide
  exact hall m h

theorem enabledPhases_sublist (s : State) : (enabledPhases s).Sublist (List.range 4) := List.filter_sublist

theorem enabledPhases_ne_nil {s : State} (h0 : getF Reg.CNV_PHCFG_PHEN s ≠ 0) (h16 : getF Reg.CNV_PHCFG_PHEN s < 16) : enabledPhases s ≠ [] := by
  intro hnil
  have hmask := phaseMask_phasesOf h16
  rw [show phasesOf (getF Reg.CNV_PHCFG_PHEN s) = [] from hnil] at hmask
  exact h0 hmask.symm

/-- Every phase that joins a field of `CNV_PHFLT` stands in it. -/
theorem testBit_markPhases_of_mem {f : Field} (hf : f.lo + f.w ≤ 32) (hw : f.w = 4) {l : List Nat} (hl : l.Sublist (List.range 4)) {n : Nat} (hn : n ∈ l)
    (s : State) : (getF f (markPhases f l s)).testBit n = true := by
  have h4 : n < 4 := List.mem_range.1 (hl.subset hn)
  rw [markPhases, getF_setF_same f _ s hf, Nat.testBit_mod_two_pow, Nat.testBit_or, testBit_phaseMask hl h4, hw]
  simp [h4, hn]

/-! ## The bus voltage in its register -/

theorem getF_vbs_of_reg {v : Nat} {t : State} (h : reg t Reg.CNV_VBS = BitVec.ofNat 32 (min v 65535)) : getF Reg.CNV_VBS_VBS t = min v 65535 := by
  have hword : BitVec.toNat (BitVec.ofNat 32 (min v 65535)) = min v 65535 := by
    rw [BitVec.toNat_ofNat]; exact Nat.mod_eq_of_lt (by omega)
  have hfield : getF Reg.CNV_VBS_VBS t = getBits (BitVec.ofNat 32 (min v 65535)) 0 32 := congrArg (getBits · 0 32) h
  rw [hfield, getBits, BitVec.ushiftRight_zero, hword]
  exact Nat.mod_eq_of_lt (by omega)

/-! ## The converter at rest -/

/-- The converter stands in a state with no phase that switches, every PWM output and GDEN low (R277). -/
structure AtRest (dest : Nat) (t : State) : Prop where
  state : cnvState t = dest
  gden : t.pins.gden = .low
  pwm : t.pins.pwm = .low
  active : getF Reg.CNV_STAT_ACT t = 0

theorem AtRest.of_changes {dest : Nat} {ps : List Part} {rs : Nat → Prop} {s t : State} (h : AtRest dest s) (hc : Changes ps rs s t)
    (hp : Part.pins ∉ ps) (hr : ¬ rs Reg.CNV_STAT) : AtRest dest t := by
  have hpins : t.pins = s.pins := hc.part_eq .pins hp
  have hfield {f : Field} (hf : f.addr = Reg.CNV_STAT) : getF f t = getF f s := getF_of_reg (hf ▸ hc.reg_eq hr)
  obtain ⟨hstate, hgden, hpwm, hactive⟩ := h
  exact ⟨(hfield rfl).trans hstate, hpins ▸ hgden, hpins ▸ hpwm, (hfield rfl).trans hactive⟩

theorem AtRest.pulse {dest : Nat} {t : State} (h : AtRest dest t) (src : Nat) : AtRest dest (pulse src t) :=
  h.of_changes (.pulse src t) (by simp) id

theorem getF_clearTrims {f : Field} (hf : f.addr ≠ Reg.CNV_TRIMST) (s : State) : getF f (clearTrims s) = getF f s :=
  getF_of_reg ((Changes.clearTrims s).reg_eq (by simpa [oneOf] using hf))

theorem getF_quiet_act (s : State) : getF Reg.CNV_STAT_ACT (quiet s) = 0 := by
  show getF Reg.CNV_STAT_ACT (setB Reg.SYS_CLKSTAT_PPLLLK false (setB Reg.CNV_STAT_BRK false (setF Reg.CNV_STAT_LEVEL 0
    (setF Reg.CNV_STAT_ACT 0 (clearTrims s))))) = 0
  unfold setB
  rw [getF_setF_other _ _ _ _ (by decide), getF_setF_beside _ _ _ _ (by decide) (by decide), getF_setF_beside _ _ _ _ (by decide) (by decide),
    getF_setF_same _ _ _ (by decide), Nat.zero_mod]

/-! ## The parts of a stop -/

/-- The converter stands in its new state, and a plan in progress has ended (R198, R277). -/
def stoppedIn (dest : Nat) (s : State) : State :=
  setF Reg.CNV_STAT_STATE dest (quiet (if planActive s && cnvState s != 0 then planAbort 4 s else s))

/-- The event of a stop from a switching state, or that of a fault with its time (R282, R299). -/
def noteStop (now : Nat) (ran : Bool) (dest : Nat) (s : State) : State :=
  let s1 := if ran && (dest == 0 || dest == 1) then setEvt .cnv 2 s else s
  if dest = 8 then setEvt .cnv 4 { s1 with cnv := { s1.cnv with faultAt := some now } } else s1

theorem leaveRunning_eq (dest : Nat) (s : State) :
    leaveRunning dest s = excitationStops (noteStop s.now (switching s) dest (stoppedIn dest s)) := (rfl)

theorem noteStop_stop {dest : Nat} (hd : dest = 0 ∨ dest = 1) (now : Nat) (s : State) : noteStop now true dest s = setEvt .cnv 2 s := by
  rcases hd with rfl | rfl <;> rfl

theorem noteStop_fault (now : Nat) (ran : Bool) (s : State) :
    noteStop now ran 8 s = setEvt .cnv 4 { s with cnv := { s.cnv with faultAt := some now } } := by cases ran <;> rfl

theorem noteStop_silent {ran : Bool} {dest : Nat} (hd : ran = false ∨ dest ≠ 0 ∧ dest ≠ 1) (h8 : dest ≠ 8) (now : Nat) (s : State) :
    noteStop now ran dest s = s := by
  have hnot : ¬ (ran && (dest == 0 || dest == 1)) = true := by
    rcases hd with hran | hdest
    · simp [hran]
    · simp [hdest]
  simp only [noteStop, if_neg hnot, if_neg h8]

/-- R299: what a stop reports is an event of the converter at most, and the time of a fault. -/
theorem noteStop_cases (now : Nat) (ran : Bool) (dest : Nat) (s : State) : noteStop now ran dest s = s ∨ noteStop now ran dest s = setEvt .cnv 2 s ∨
    noteStop now ran dest s = setEvt .cnv 4 { s with cnv := { s.cnv with faultAt := some now } } := by
  by_cases h8 : dest = 8
  · exact h8 ▸ .inr (.inr (noteStop_fault now ran s))
  · by_cases hd : ran = true ∧ (dest = 0 ∨ dest = 1)
    · obtain ⟨rfl, hdest⟩ := hd
      exact .inr (.inl (noteStop_stop hdest now s))
    · exact .inl (noteStop_silent (by cases ran <;> simp_all) h8 now s)

theorem Changes.noteStop (now : Nat) (ran : Bool) (dest : Nat) (s : State) : Changes [.cnv, .fab] (oneOf [Reg.CNV_EVT]) s (noteStop now ran dest s) := by
  have hevt (bits : Nat) (t : State) : Changes [.fab] (oneOf [Reg.CNV_EVT]) t (Machine.setEvt .cnv bits t) :=
    (Changes.setEvt .cnv bits t).mono (by simp) (by simp [oneOf, EvtBlock.evt])
  rcases noteStop_cases now ran dest s with h | h | h <;> rw [h]
  · exact .refl ..
  · exact (hevt 2 s).mono (by simp) (fun _ ha => ha)
  · exact ((Changes.withCnv s _).trans (hevt 4 _)).mono (by simp) (by simp)

theorem noteStop_busOk (now : Nat) (ran : Bool) (dest : Nat) (s : State) : (noteStop now ran dest s).cnv.busOk = s.cnv.busOk := by
  rcases noteStop_cases now ran dest s with h | h | h <;> rw [h] <;> simp

theorem Changes.planEndsFirst (s : State) : Changes [.imp, .free, .flt, .fab] (oneOf [Reg.IMP_STAT, Reg.IMP_EVT]) s
    (if planActive s && cnvState s != 0 then Machine.planAbort 4 s else s) := .of_ite (.planAbort 4 s) (.refl ..)

theorem Changes.stoppedIn (dest : Nat) (s : State) : Changes [.cnv, .pins, .imp, .fab, .flt, .free]
    (oneOf [Reg.CNV_STAT, Reg.CNV_TRIMST, Reg.SYS_CLKSTAT, Reg.IMP_STAT, Reg.IMP_EVT]) s (stoppedIn dest s) :=
  (((Changes.planEndsFirst s).trans (.quiet _)).trans (.setF Reg.CNV_STAT_STATE dest _)).mono (by simp)
    (by simp [oneOf, Reg.CNV_STAT_STATE]; tauto)

theorem AtRest.stoppedIn {dest : Nat} (hd : dest < 16) (s : State) : AtRest dest (stoppedIn dest s) :=
  ⟨(getF_setF_same Reg.CNV_STAT_STATE _ _ (by decide)).trans (Nat.mod_eq_of_lt hd), rfl, rfl,
    (getF_setF_beside Reg.CNV_STAT_STATE Reg.CNV_STAT_ACT _ _ (by decide) (by decide)).trans (getF_quiet_act _)⟩

theorem stoppedIn_busOk (dest : Nat) (s : State) : (stoppedIn dest s).cnv.busOk = s.cnv.busOk := by
  have hcnv : (if planActive s && cnvState s != 0 then planAbort 4 s else s).cnv = s.cnv := (Changes.planEndsFirst s).part_eq .cnv (by simp)
  exact (congrArg CnvState.busOk hcnv :)

/-! ## A stop -/

theorem Changes.leaveRunning_end (dest : Nat) (s : State) :
    Changes [.cnv, .fab, .imp, .flt] (oneOf [Reg.CNV_EVT, Reg.IMP_EVT]) (Machine.stoppedIn dest s) (Machine.leaveRunning dest s) :=
  ((Changes.noteStop s.now (switching s) dest _).trans (.excitationStops _)).mono (by simp) (by simp [oneOf])

theorem AtRest.leaveRunning {dest : Nat} (hd : dest < 16) (s : State) : AtRest dest (leaveRunning dest s) :=
  (AtRest.stoppedIn hd s).of_changes (.leaveRunning_end dest s) (by simp) (not_oneOf (by decide))

theorem leaveRunning_busOk (dest : Nat) (s : State) : (leaveRunning dest s).cnv.busOk = s.cnv.busOk := by
  have hend := (Changes.excitationStops (noteStop s.now (switching s) dest (stoppedIn dest s))).part_eq .cnv (by simp)
  exact (congrArg CnvState.busOk hend).trans ((noteStop_busOk ..).trans (stoppedIn_busOk dest s))

/-- R277: a stop that no event of the converter reports. -/
theorem Changes.leaveRunning_silent {dest : Nat} {s : State} (hd : switching s = false ∨ dest ≠ 0 ∧ dest ≠ 1) (h8 : dest ≠ 8) :
    Changes [.cnv, .pins, .imp, .fab, .flt, .free] (oneOf [Reg.CNV_STAT, Reg.CNV_TRIMST, Reg.SYS_CLKSTAT, Reg.IMP_STAT, Reg.IMP_EVT]) s
      (Machine.leaveRunning dest s) := by
  rw [leaveRunning_eq, noteStop_silent hd h8]
  exact ((Changes.stoppedIn dest s).trans (.excitationStops _)).mono (by simp) (by simp [oneOf]; tauto)

theorem regBit_excitationStops (k : Nat) (s : State) : regBit Reg.CNV_EVT k (excitationStops s) = regBit Reg.CNV_EVT k s :=
  regBit_of_reg ((Changes.excitationStops s).reg_other (by decide)) k

/-- R299: a converter that has switched reports its stop. -/
theorem regBit_leaveRunning_stop {dest : Nat} {s : State} (hs : switching s = true) (hd : dest = 0 ∨ dest = 1) :
    regBit Reg.CNV_EVT 1 (leaveRunning dest s) = true := by
  rw [leaveRunning_eq, regBit_excitationStops, hs, noteStop_stop hd]
  exact regBit_setEvt (b := .cnv) (by decide) (by decide) _

/-- R299: the entry to FAULT sets its event. -/
theorem regBit_leaveRunning_fault (s : State) : regBit Reg.CNV_EVT 2 (leaveRunning 8 s) = true := by
  rw [leaveRunning_eq, regBit_excitationStops, noteStop_fault]
  exact regBit_setEvt (b := .cnv) (by decide) (by decide) _

/-- R277: an immediate stop acts from every state but OFF, FAULT and CROWBAR. -/
theorem immediateStop_running {s : State} (h0 : cnvState s ≠ 0) (h8 : cnvState s ≠ 8) (h7 : cnvState s ≠ 7) (dest : Nat) :
    immediateStop dest s = leaveRunning dest s := if_neg (by simp [h0, h8, h7])

theorem immediateStop_resting {s : State} (h : cnvState s = 0 ∨ cnvState s = 8 ∨ cnvState s = 7) (dest : Nat) : immediateStop dest s = s := if_pos h

/-! ## CHECK -/

theorem Changes.enterCheck (s : State) : Changes [.cnv, .pins] (oneOf [Reg.CNV_STAT, Reg.CNV_TRIMST, Reg.SYS_CLKSTAT]) s (enterCheck s) :=
  (((Changes.quiet s).trans (.setF Reg.CNV_STAT_STATE 2 _)).trans (.withPinsCnv _ _ _)).mono (by simp) (by simp [oneOf, Reg.CNV_STAT_STATE]; tauto)

theorem cnvState_enterCheck (s : State) : cnvState (enterCheck s) = 2 := getF_setF_same Reg.CNV_STAT_STATE 2 (quiet s) (by decide)

/-! ## SOFTSTART -/

/-- What the entry to SOFTSTART with VBS at `vbs` mV leaves (R264, R272, R274). -/
structure SoftStarted (vbs : Nat) (s t : State) : Prop where
  state : cnvState t = 3
  pwm : t.pins.pwm = .switching
  gden : t.pins.gden = .high
  active : getF Reg.CNV_STAT_ACT t = phaseMask (availablePhases s)
  softT : t.cnv.softT = s.now
  rampV : t.cnv.rampV = min vbs (busTarget s)
  sensed : getF Reg.CNV_VBS_VBS t = min vbs 65535
  changes : Changes [.cnv, .pins] (oneOf [Reg.CNV_STAT, Reg.CNV_TRIMST, Reg.SYS_CLKSTAT, Reg.CNV_VBS]) s t

/-- The registers at the entry to SOFTSTART. -/
def softStartRegs (vbs : Nat) (s : State) : State :=
  clearTrims s |> setF Reg.CNV_STAT_STATE 3 |> setF Reg.CNV_STAT_ACT (phaseMask (availablePhases s)) |> setF Reg.CNV_STAT_LEVEL 0
    |> setB Reg.SYS_CLKSTAT_PPLLLK true |> setReg Reg.CNV_VBS (BitVec.ofNat 32 (min vbs 65535))

theorem reg_enterSoftStart (vbs : Nat) (s : State) (a : Nat) : reg (enterSoftStart vbs s) a = reg (softStartRegs vbs s) a := (rfl)

theorem Changes.softStartRegs (vbs : Nat) (s : State) :
    Changes [.cnv] (oneOf [Reg.CNV_STAT, Reg.CNV_TRIMST, Reg.SYS_CLKSTAT, Reg.CNV_VBS]) s (softStartRegs vbs s) :=
  ((((((Changes.clearTrims s).trans (.setF Reg.CNV_STAT_STATE 3 _)).trans (.setF Reg.CNV_STAT_ACT _ _)).trans (.setF Reg.CNV_STAT_LEVEL 0 _)).trans
    (.setB Reg.SYS_CLKSTAT_PPLLLK true _)).trans (.setReg Reg.CNV_VBS _ _)).mono (by simp)
    (by simp [oneOf, Reg.CNV_STAT_STATE, Reg.CNV_STAT_ACT, Reg.CNV_STAT_LEVEL, Reg.SYS_CLKSTAT_PPLLLK]; tauto)

/-- The fields of `CNV_STAT` but LEVEL, as the state code and the phases that switch leave them. -/
theorem getF_softStartRegs {f : Field} (ha : f.addr = Reg.CNV_STAT) (h : f.lo + f.w ≤ 18 ∨ 20 ≤ f.lo) (hw : f.lo + f.w ≤ 32) (vbs : Nat) (s : State) :
    getF f (softStartRegs vbs s) =
      getF f (setF Reg.CNV_STAT_ACT (phaseMask (availablePhases s)) (setF Reg.CNV_STAT_STATE 3 (clearTrims s))) := by
  unfold softStartRegs setB
  rw [getF_setReg_other (by rw [ha]; decide), getF_setF_other _ f _ _ (by rw [ha]; decide),
    getF_setF_beside Reg.CNV_STAT_LEVEL f _ _ h hw]

theorem SoftStarted.enterSoftStart (vbs : Nat) (s : State) : SoftStarted vbs s (enterSoftStart vbs s) where
  state := by
    show getF Reg.CNV_STAT_STATE (softStartRegs vbs s) = 3
    rw [getF_softStartRegs rfl (by decide) (by decide), getF_setF_beside _ _ _ _ (by decide) (by decide), getF_setF_same _ _ _ (by decide)]
    rfl
  pwm := rfl
  gden := rfl
  active := by
    show getF Reg.CNV_STAT_ACT (softStartRegs vbs s) = _
    rw [getF_softStartRegs rfl (by decide) (by decide), getF_setF_same _ _ _ (by decide)]
    exact Nat.mod_eq_of_lt (phaseMask_lt (availablePhases_sublist s))
  softT := rfl
  rampV := rfl
  sensed := getF_vbs_of_reg ((reg_enterSoftStart ..).trans (reg_setReg_same ..))
  changes := (((Changes.softStartRegs vbs s).trans (.withPinsCnv _ _ _)).trans (.placeEdges _)).mono (by simp) (by simp)

end Sys2Proof.Machine
end

