-- ==== Sys2Proof/Proofs/ConverterStates.lean ====
section
/-!
PROOFS. The converter's way from the bus check through the start tests to RUN, its hiccups and its stops (R263, R271 to R276, R283, R299).
-/
namespace Sys2Proof.Machine

/-! ## The bus -/

/-- R263, R271: a transfer converter that waits for its bus begins CHECK. -/
theorem busPresent_waiting {s : State} (hp : s.sys.phase = .active) (hw : cnvState s = 1) {v : Nat} (hv : getF Reg.CNV_BUS_BUSMIN s ≤ v) : ∃ t,
    exec (.busPresent v) s = .next t ∧ cnvState t = 2 ∧ t.cnv.part = 1 ∧ t.cnv.busOk = true ∧ t.pins.gden = .low ∧ t.pins.pwm = .startTests ∧
    Changes [.cnv, .pins] (oneOf [Reg.CNV_STAT, Reg.CNV_TRIMST, Reg.SYS_CLKSTAT]) s t := by
  refine ⟨enterCheck { s with cnv := { s.cnv with busOk := true } }, ?_, cnvState_enterCheck _, rfl, rfl, rfl, rfl,
    ((Changes.withCnv s _).trans (.enterCheck _)).mono (by simp) (by simp)⟩
  exact (if_pos ⟨hp, hv⟩).trans (congrArg Host.Outcome.next (if_pos hw))

/-- R271, R283: the loss of the bus stops a transfer converter that runs. -/
theorem busLoss_running {s : State} (hc : s.cnv.cls = 2) (hr : cnvState s = 3 ∨ cnvState s = 4) {v : Nat} (hv : v < getF Reg.CNV_BUS_BUSMIN s) : ∃ t,
    exec (.busLoss v) s = .next t ∧ cnvState t = 1 ∧ t.cnv.busOk = false ∧ t.pins.gden = .low ∧ t.pins.pwm = .low ∧
    (muted 77 s = false → 77 ∈ t.flt.waiting) ∧ regBit Reg.CNV_EVT 1 t = true ∧
    Changes [.cnv, .pins, .imp, .fab, .flt, .free]
      (oneOf [Reg.CNV_STAT, Reg.CNV_TRIMST, Reg.SYS_CLKSTAT, Reg.CNV_EVT, Reg.IMP_STAT, Reg.IMP_EVT]) s t := by
  have hs : switching s = true := by rcases hr with h | h <;> simp [switching, h]
  have hrest := (AtRest.leaveRunning (dest := 1) (by decide) { s with cnv := { s.cnv with busOk := false } }).pulse 77
  have hchg := (Changes.withCnv s { s.cnv with busOk := false }).trans (.leaveRunning 1 _)
  refine ⟨_, (if_neg (Nat.not_le.2 hv)).trans (if_pos ⟨hc, hr⟩), hrest.state, ?_, hrest.gden, hrest.pwm, hchg.mem_waiting_pulse (by simp), ?_,
    (hchg.trans (.pulse 77 _)).mono (by simp) (by simp [stopRegs])⟩
  · rw [pulse_cnv, leaveRunning_busOk]
  · rw [regBit_of_reg (reg_pulse 77 _ _)]
    exact regBit_leaveRunning_stop hs (.inr rfl)

/-! ## Phases that the start tests exclude -/

/-- Every mean sense voltage lies within 5 % of IPK on both sides (R272, R273). -/
def meansInOrder (means : List Int) (s : State) : Prop :=
  ∀ n < 4, beyondTest n (nth means n 0) s = false ∧ beyondTest n (-(nth means n 0)) s = false

theorem mem_enabledPhases_lt {s : State} {n : Nat} (h : n ∈ enabledPhases s) : n < 4 := (mem_phasesOf.1 h).1

/-- A test that no enabled phase fails selects none. -/
theorem filter_enabledPhases_nil {s : State} {p : Nat → Bool} (h : ∀ n < 4, p n = false) : (enabledPhases s).filter p = [] :=
  List.filter_eq_nil_iff.2 (fun n hn => by simp [h n (mem_enabledPhases_lt hn)])

theorem excludePhases_nil (s : State) : excludePhases [] s = s := (rfl)

/-- R256, R272: where every fitted phase has a sense offset, none may switch. -/
theorem availablePhases_excluded (s : State) : availablePhases (markPhases Reg.CNV_PHFLT_SENSE (enabledPhases s) s) = [] := by
  have hcfg : getF Reg.CNV_PHCFG_PHEN (markPhases Reg.CNV_PHFLT_SENSE (enabledPhases s) s) = getF Reg.CNV_PHCFG_PHEN s :=
    getF_setF_other _ _ _ _ (by decide)
  refine List.filter_eq_nil_iff.2 (fun n hn => ?_)
  dsimp only
  by_cases hen : (getF Reg.CNV_PHCFG_PHEN s).testBit n = true
  · have hmem : n ∈ enabledPhases s := mem_phasesOf.2 ⟨List.mem_range.1 hn, hen⟩
    simp [testBit_markPhases_of_mem (f := Reg.CNV_PHFLT_SENSE) (by decide) rfl (enabledPhases_sublist s) hmem s]
  · simp [hcfg, hen]

/-! ## The start test in bus regulation -/

/-- The phases whose first samples lie beyond 5 % of IPK on either side (R272). -/
def offsetPhases (means : List Int) (s : State) : List Nat :=
  (enabledPhases s).filter (fun n => beyondTest n (nth means n 0) s || beyondTest n (-(nth means n 0)) s)

section
variable {s : State} (h2 : cnvState s = 2) (hc : s.cnv.cls = 1) (hp : s.cnv.part = 1) (ht : s.cnv.stopT + 100 * us ≤ s.now) (means : List Int)
include h2 hc hp ht

/-- R272: the state in which the phases with an offset are excluded decides where CHECK leads. -/
theorem exec_checkSampleEnd {s1 : State} (h : excludePhases (offsetPhases means s) s = s1) : exec (.checkSampleEnd means) s = .next
    (if availablePhases s1 = [] then leaveRunning 0 s1
      else { s1 with pins := { s1.pins with gden := .high }, cnv := { s1.cnv with part := 3, stopT := s.now } }) := by
  subst h
  exact if_pos ⟨h2, hc, hp, ht⟩

variable {means}

/-- R272: samples in order raise GDEN, and the drivers wake. -/
theorem checkSampleEnd_sound (hm : meansInOrder means s) (ha : availablePhases s ≠ []) : ∃ t, exec (.checkSampleEnd means) s = .next t ∧
    t.pins = { s.pins with gden := .high } ∧ t.cnv = { s.cnv with part := 3, stopT := s.now } ∧ Changes [.cnv, .pins] (fun _ => False) s t := by
  have hnone : offsetPhases means s = [] := filter_enabledPhases_nil (fun n hn => by simp [hm n hn])
  have hnext := exec_checkSampleEnd h2 hc hp ht means (s1 := s) (by rw [hnone, excludePhases_nil])
  rw [if_neg ha] at hnext
  exact ⟨_, hnext, rfl, rfl, (Changes.withPinsCnv s _ _).mono (by simp) (by simp)⟩

/-- R272: with no phase left the converter returns to OFF. -/
theorem checkSampleEnd_offset (h0 : getF Reg.CNV_PHCFG_PHEN s ≠ 0) (h16 : getF Reg.CNV_PHCFG_PHEN s < 16)
    (hm : ∀ n < 4, beyondTest n (nth means n 0) s = true ∨ beyondTest n (-(nth means n 0)) s = true) : ∃ t,
    exec (.checkSampleEnd means) s = .next t ∧ cnvState t = 0 ∧ t.pins.gden = .low ∧ t.pins.pwm = .low ∧
    getF Reg.CNV_PHFLT_SENSE t = getF Reg.CNV_PHFLT_SENSE s ||| getF Reg.CNV_PHCFG_PHEN s ∧ (muted 80 s = false → 80 ∈ t.flt.waiting) ∧
    t.pending = s.pending := by
  have hall : offsetPhases means s = enabledPhases s := List.filter_eq_self.2 (fun n hn => by simpa using hm n (mem_enabledPhases_lt hn))
  have hexcl : excludePhases (offsetPhases means s) s = pulse 80 (markPhases Reg.CNV_PHFLT_SENSE (enabledPhases s) s) := by
    rw [hall]
    exact if_neg (enabledPhases_ne_nil h0 h16)
  have hnone : availablePhases (pulse 80 (markPhases Reg.CNV_PHFLT_SENSE (enabledPhases s) s)) = [] :=
    (availablePhases_congr (reg_pulse ..) (getF_of_reg (reg_pulse ..)) (reg_pulse ..)).trans (availablePhases_excluded s)
  have hnext := exec_checkSampleEnd h2 hc hp ht means hexcl
  rw [if_pos hnone] at hnext
  have hmark := Changes.markPhases Reg.CNV_PHFLT_SENSE (enabledPhases s) s
  have hstop := (Changes.pulse 80 (markPhases Reg.CNV_PHFLT_SENSE (enabledPhases s) s)).trans (.leaveRunning 0 _)
  have hrest := AtRest.leaveRunning (dest := 0) (by decide) (pulse 80 (markPhases Reg.CNV_PHFLT_SENSE (enabledPhases s) s))
  refine ⟨_, hnext, hrest.state, hrest.gden, hrest.pwm, ?_,
    fun hw => waiting_subset_leaveRunning 0 _ (hmark.mem_waiting_pulse (by simp) hw), (hmark.trans hstop).pending_eq⟩
  have hbits : getF Reg.CNV_PHFLT_SENSE s ||| getF Reg.CNV_PHCFG_PHEN s < 2 ^ 4 := Nat.or_lt_two_pow (Nat.mod_lt _ (by decide)) h16
  rw [getF_of_reg (f := Reg.CNV_PHFLT_SENSE) (hstop.reg_eq (by simp [oneOf, stopRegs]; decide)), markPhases, getF_setF_same _ _ _ (by decide),
    enabledPhases, phaseMask_phasesOf h16]
  exact Nat.mod_eq_of_lt hbits

end

/-! ## The driver wake -/

section
variable {s : State} (h2 : cnvState s = 2) (hp : s.cnv.part = 3) (ht : s.cnv.stopT + 20 * us ≤ s.now) (v : Nat)
include h2 hp ht

theorem exec_driverWakeDone :
    exec (.driverWakeDone v) s = .next (if availablePhases s = [] then leaveRunning 0 s else enterSoftStart v s) := if_pos ⟨h2, hp, ht⟩

/-- R272, R274: when the drivers are awake SOFTSTART begins. -/
theorem driverWakeDone_starts (ha : availablePhases s ≠ []) : ∃ t, exec (.driverWakeDone v) s = .next t ∧ SoftStarted v s t :=
  ⟨_, (exec_driverWakeDone h2 hp ht v).trans (congrArg Host.Outcome.next (if_neg ha)), .enterSoftStart v s⟩

theorem driverWakeDone_none (ha : availablePhases s = []) : ∃ t, exec (.driverWakeDone v) s = .next t ∧ AtRest 0 t ∧
    Changes [.cnv, .pins, .imp, .fab, .flt, .free] (oneOf [Reg.CNV_STAT, Reg.CNV_TRIMST, Reg.SYS_CLKSTAT, Reg.IMP_STAT, Reg.IMP_EVT]) s t :=
  ⟨_, (exec_driverWakeDone h2 hp ht v).trans (congrArg Host.Outcome.next (if_pos ha)), .leaveRunning (by decide) s,
    .leaveRunning_silent (.inl (by simp [switching, h2])) (by decide)⟩

end

/-! ## The start test of the transfer class -/

/-- The time of a part of the start test has passed (R273). -/
def shsPartDue (s : State) : Prop := s.cnv.part = 1 ∧ s.cnv.stopT + 100 * us ≤ s.now ∨ s.cnv.part = 2 ∧ s.cnv.stopT + 50 * us ≤ s.now

/-- The phases that a shorted high side marks: those whose samples show it, or else every fitted phase (R273). -/
def shortedPhases (means : List Int) (s : State) : List Nat :=
  let shown := (enabledPhases s).filter (fun n => beyondTest n (nth means n 0) s)
  if shown = [] then enabledPhases s else shown

theorem shortedPhases_sublist (means : List Int) (s : State) : (shortedPhases means s).Sublist (List.range 4) := by
  unfold shortedPhases
  dsimp only
  split
  · exact enabledPhases_sublist s
  · exact List.filter_sublist.trans (enabledPhases_sublist s)

theorem shortedPhases_ne_nil {s : State} (h : enabledPhases s ≠ []) (means : List Int) : shortedPhases means s ≠ [] := by
  unfold shortedPhases
  dsimp only
  split
  · exact h
  · next hshown => exact hshown

section
variable {s : State} (h2 : cnvState s = 2) (hc : s.cnv.cls = 2) (hdue : shsPartDue s) {means : List Int} {r : Int} (v : Nat)
include h2 hc hdue

/-- R273: a part that finds nothing leads to the next one, or from the second to SOFTSTART. -/
theorem exec_shsTestPartEnd_sound (hm : meansInOrder means s) (hr : r ≤ 1000) (ha : availablePhases s ≠ []) : exec (.shsTestPartEnd means r v) s =
    .next (if s.cnv.part = 1 then { s with pins := { s.pins with gden := .high }, cnv := { s.cnv with part := 2, stopT := s.now } }
      else enterSoftStart v s) := by
  have hshort : (enabledPhases s).filter (fun n => beyondTest n (nth means n 0) s) = [] := filter_enabledPhases_nil (fun n hn => (hm n hn).1)
  have hoffset : (enabledPhases s).filter (fun n => beyondTest n (-(nth means n 0)) s) = [] := filter_enabledPhases_nil (fun n hn => (hm n hn).2)
  have hrose : decide (1000 < r) = false := decide_eq_false (by omega)
  refine (if_pos ⟨h2, hc, hdue⟩).trans ?_
  dsimp only
  rw [hshort, hoffset, hrose, excludePhases_nil, if_neg (by simp), if_neg ha]
  exact (apply_ite Host.Outcome.next _ _ _).symm

/-- R273: a bus that rises by more than 1 V shows a shorted high side. -/
theorem exec_shsTestPartEnd_rose (hr : 1000 < r) : exec (.shsTestPartEnd means r v) s =
    .next (leaveRunning 8 (pulse 72 (markPhases Reg.CNV_PHFLT_SHS (shortedPhases means s) s))) := by
  refine (if_pos ⟨h2, hc, hdue⟩).trans ?_
  dsimp only
  exact if_pos (.inr (decide_eq_true hr))

/-- R271, R273: a shorted high side enters FAULT with source 72. -/
theorem shsTestPartEnd_rose (hr : 1000 < r) (h0 : getF Reg.CNV_PHCFG_PHEN s ≠ 0) (h16 : getF Reg.CNV_PHCFG_PHEN s < 16) : ∃ t,
    exec (.shsTestPartEnd means r v) s = .next t ∧ cnvState t = 8 ∧ t.pins.gden = .low ∧ t.pins.pwm = .low ∧ getF Reg.CNV_PHFLT_SHS t ≠ 0 ∧
    (muted 72 s = false → 72 ∈ t.flt.waiting) ∧ regBit Reg.CNV_EVT 2 t = true ∧ t.pending = s.pending := by
  have hmark := Changes.markPhases Reg.CNV_PHFLT_SHS (shortedPhases means s) s
  have hstop := (Changes.pulse 72 (markPhases Reg.CNV_PHFLT_SHS (shortedPhases means s) s)).trans (.leaveRunning 8 _)
  have hrest := AtRest.leaveRunning (dest := 8) (by decide) (pulse 72 (markPhases Reg.CNV_PHFLT_SHS (shortedPhases means s) s))
  refine ⟨_, exec_shsTestPartEnd_rose h2 hc hdue v hr, hrest.state, hrest.gden, hrest.pwm, fun hzero => ?_,
    fun hw => waiting_subset_leaveRunning 8 _ (hmark.mem_waiting_pulse (by simp) hw), regBit_leaveRunning_fault _, (hmark.trans hstop).pending_eq⟩
  obtain ⟨n, hn⟩ := List.exists_mem_of_ne_nil _ (shortedPhases_ne_nil (enabledPhases_ne_nil h0 h16) means)
  have hbit := testBit_markPhases_of_mem (f := Reg.CNV_PHFLT_SHS) (by decide) rfl (shortedPhases_sublist means s) hn s
  rw [← getF_of_reg (f := Reg.CNV_PHFLT_SHS) (hstop.reg_eq (by simp [oneOf, stopRegs]; decide)), hzero, Nat.zero_testBit] at hbit
  exact Bool.false_ne_true hbit

end

/-! ## The ramp -/

/-- R271, R274: at the end of the ramp the converter is in RUN. -/
theorem softStartComplete_due {s : State} (h3 : cnvState s = 3) (ht : s.cnv.softT + softTime s ≤ s.now) : ∃ t, exec .softStartComplete s = .next t ∧
    cnvState t = 4 ∧ regBit Reg.CNV_EVT 0 t = true ∧ t.cnv = { s.cnv with softT := s.now } ∧
    Changes [.cnv, .fab] (oneOf [Reg.CNV_STAT, Reg.CNV_EVT]) s t := by
  refine ⟨_, if_pos ⟨h3, ht⟩, ?_, regBit_setEvt (b := .cnv) (by decide) (by decide) _, setEvt_cnv .., ?_⟩
  · exact (getF_of_reg (reg_setEvt (by decide) _ _)).trans (getF_setF_same Reg.CNV_STAT_STATE 4 _ (by decide))
  · exact (((Changes.withCnv s _).trans (.setF Reg.CNV_STAT_STATE 4 _)).trans (.setEvt .cnv 1 _)).mono (by simp)
      (by simp [oneOf, Reg.CNV_STAT_STATE, EvtBlock.evt])

/-- R271, R276: the end of the ramp-down is a stop. -/
theorem rampDownComplete_due {s : State} (h6 : cnvState s = 6) (ht : s.cnv.stopT + softTime s ≤ s.now) : ∃ t, exec .rampDownComplete s = .next t ∧
    AtRest 0 t ∧ regBit Reg.CNV_EVT 1 t = true ∧ Changes [.cnv, .pins, .imp, .fab, .flt, .free] (oneOf stopRegs) s t :=
  ⟨_, if_pos ⟨h6, ht⟩, .leaveRunning (by decide) s, regBit_leaveRunning_stop (by simp [switching, h6]) (.inl rfl), .leaveRunning 0 s⟩

/-! ## Shorts and hiccups -/

section
variable {s : State} (hc : s.cnv.cls = 1) (hr : cnvState s = 3 ∨ cnvState s = 4) (hs : shortStands s = true)
include hc hr hs

/-- R275: a short below HICNT is a hiccup, which is counted. -/
theorem shortDetect_hiccup (hn : s.cnv.hic < getF Reg.CNV_SSCFG_HICNT s) : ∃ t, exec .shortDetect s = .next t ∧ AtRest 5 t ∧
    t.cnv.hic = s.cnv.hic + 1 ∧ t.cnv.stopT = s.now ∧ (muted 77 s = false → 77 ∈ t.flt.waiting ∧ 74 ∈ t.flt.waiting) ∧
    getF Reg.CNV_EVTCNT_HICCUP t = min (getF Reg.CNV_EVTCNT_HICCUP s + 1) (2 ^ Reg.CNV_EVTCNT_HICCUP.w - 1) ∧
    Changes [.cnv, .pins, .imp, .fab, .flt, .free]
      (oneOf [Reg.CNV_STAT, Reg.CNV_TRIMST, Reg.SYS_CLKSTAT, Reg.CNV_EVTCNT, Reg.IMP_STAT, Reg.IMP_EVT]) s t := by
  have hstop := (Changes.pulse 77 s).trans (.leaveRunning_silent (dest := 5) (s := pulse 77 s) (.inr (by decide)) (by decide))
  have hcounted := hstop.trans (.incSat Reg.CNV_EVTCNT_HICCUP _)
  have hreport := hcounted.trans (.pulse 74 _)
  have hrest : AtRest 5 (pulse 74 (incSat Reg.CNV_EVTCNT_HICCUP (leaveRunning 5 (pulse 77 s)))) :=
    ((AtRest.leaveRunning (by decide) (pulse 77 s)).of_changes (.incSat Reg.CNV_EVTCNT_HICCUP _) (by simp) (by decide)).pulse 74
  refine ⟨_, (if_pos ⟨hc, hr, hs⟩).trans (if_pos hn), hrest.of_changes (.withCnv _ _) (by simp) id, rfl, rfl, fun hm => ⟨?_, ?_⟩, ?_, ?_⟩
  · exact waiting_subset_pulse 74 _ (waiting_subset_leaveRunning 5 _ (mem_waiting_pulse hm))
  · exact hcounted.mem_waiting_pulse (by simp) ((muted_eq_of_converter (by decide) (by decide) s).trans hm)
  · have hcount := getF_incSat Reg.CNV_EVTCNT_HICCUP (leaveRunning 5 (pulse 77 s)) (by decide)
    have hbefore : getF Reg.CNV_EVTCNT_HICCUP (leaveRunning 5 (pulse 77 s)) = getF Reg.CNV_EVTCNT_HICCUP s :=
      getF_of_reg (hstop.reg_eq (by simp [oneOf]; decide))
    rw [hbefore] at hcount
    exact (getF_of_reg (reg_pulse 74 _ _)).trans hcount
  · exact (hreport.trans (.withCnv _ _)).mono (by simp) (by simp [oneOf, Reg.CNV_EVTCNT_HICCUP]; tauto)

/-- R275: the short after HICNT hiccups enters FAULT. -/
theorem shortDetect_fault (hn : getF Reg.CNV_SSCFG_HICNT s ≤ s.cnv.hic) : ∃ t, exec .shortDetect s = .next t ∧ AtRest 8 t ∧
    regBit Reg.CNV_EVT 2 t = true ∧ (muted 77 s = false → 77 ∈ t.flt.waiting ∧ 75 ∈ t.flt.waiting) ∧
    Changes [.cnv, .pins, .imp, .fab, .flt, .free] (oneOf stopRegs) s t := by
  have hstop := (Changes.pulse 77 s).trans (.leaveRunning 8 _)
  refine ⟨_, (if_pos ⟨hc, hr, hs⟩).trans (if_neg (Nat.not_lt.2 hn)), (AtRest.leaveRunning (by decide) (pulse 77 s)).pulse 75, ?_,
    fun hm => ⟨?_, ?_⟩, (hstop.trans (.pulse 75 _)).mono (by simp) (by simp)⟩
  · exact (regBit_of_reg (reg_pulse 75 _ _) 2).trans (regBit_leaveRunning_fault _)
  · exact waiting_subset_pulse 75 _ (waiting_subset_leaveRunning 8 _ (mem_waiting_pulse hm))
  · exact hstop.mem_waiting_pulse (by simp) ((muted_eq_of_converter (by decide) (by decide) s).trans hm)

end

theorem shortDetect_none {s : State} (h : s.cnv.cls ≠ 1 ∨ shortStands s = false) : exec .shortDetect s = .next s :=
  if_neg (fun ⟨hc, _, hs⟩ => h.elim (· hc) (fun hnot => by simp [hs] at hnot))

/-- R271, R275: after its off time a hiccup ends in CHECK. -/
theorem hiccupOffElapsed_due {s : State} (h5 : cnvState s = 5) (ht : s.cnv.stopT + hiccupTime s ≤ s.now) : ∃ t,
    exec .hiccupOffElapsed s = .next t ∧ cnvState t = 2 ∧ t.cnv.part = 1 ∧ t.cnv.stopT = s.now ∧ t.cnv.hic = s.cnv.hic ∧ t.pins.gden = .low ∧
    Changes [.cnv, .pins] (oneOf [Reg.CNV_STAT, Reg.CNV_TRIMST, Reg.SYS_CLKSTAT]) s t :=
  ⟨_, if_pos ⟨h5, ht⟩, cnvState_enterCheck s, rfl, rfl, rfl, rfl, .enterCheck s⟩

/-! ## Before the times have passed -/

/-- R272, R273: no part of CHECK is shorter than 20 µs. -/
theorem check_early {s : State} (means : List Int) (r : Int) (v : Nat) (h : s.now < s.cnv.stopT + 20 * us) :
    exec (.checkSampleEnd means) s = .next s ∧ exec (.driverWakeDone v) s = .next s ∧ exec (.shsTestPartEnd means r v) s = .next s := by
  have hlate (k : Nat) (hk : 20 ≤ k) : ¬ s.cnv.stopT + k * us ≤ s.now := by
    have := Nat.mul_le_mul_right us hk
    omega
  refine ⟨if_neg (fun ⟨_, _, _, ht⟩ => hlate 100 (by decide) ht), if_neg (fun ⟨_, _, ht⟩ => hlate 20 (by decide) ht), if_neg (fun ⟨_, _, hd⟩ => ?_)⟩
  exact hd.elim (fun hd => hlate 100 (by decide) hd.2) (fun hd => hlate 50 (by decide) hd.2)

theorem ramps_early {s : State} (hsoft : s.now < s.cnv.softT + softTime s) (hstop : s.now < s.cnv.stopT + softTime s) (h1 : softTime s < 1000 * ms) :
    exec .softStartComplete s = .next s ∧ exec .rampDownComplete s = .next s ∧ exec .hiccupOffElapsed s = .next s ∧
    exec .hiccupCountClear s = .next s := by
  have hoff : 10 * softTime s ≤ hiccupTime s := Nat.le_max_right ..
  exact ⟨if_neg (by omega), if_neg (by omega), if_neg (by omega), if_neg (by omega)⟩

/-- Settles O22: a stop, the entry to CHECK and the entry to SOFTSTART are one operation each, and every clause says which of them a command makes, or that its
condition or its time is wanting. -/
theorem converterStates : Obligations.ConverterStates := by
  unfold Obligations.ConverterStates
  intro s
  extract_lets sound
  refine ⟨fun v hp hw hv => busPresent_waiting hp hw hv, fun v hv => if_neg (fun ⟨_, h⟩ => Nat.not_le.2 hv h),
    fun v hc hr hv => busLoss_running hc hr hv, fun v hv => if_pos hv,
    fun means h2 hc hp ht hm ha => checkSampleEnd_sound h2 hc hp ht hm ha,
    fun means h2 hc hp ht h0 h16 hm => checkSampleEnd_offset h2 hc hp ht h0 h16 hm,
    fun v h2 hp ht ha => ?_, fun v h2 hp ht ha => ?_, fun means r v h2 hc hp ht hm hr ha => ?_, fun means r v h2 hc hp ht hm hr ha => ?_,
    fun means r v h2 hc hp ht hr h0 h16 => ?_, softStartComplete_due, fun hc hr hs hn => ?_, fun hc hr hs hn => ?_, shortDetect_none,
    hiccupOffElapsed_due, fun h4 ht => if_pos ⟨h4, ht⟩, fun h6 ht => ?_, fun means r v h => check_early means r v h, ramps_early⟩
  · obtain ⟨t, hnext, hstate, hpwm, hgden, hact, hsoft, hramp, hvbs, hchg⟩ := driverWakeDone_starts h2 hp ht v ha
    exact ⟨t, hnext, hstate, hpwm, hgden, hact, hsoft, hramp, hvbs, hchg⟩
  · obtain ⟨t, hnext, hrest, hchg⟩ := driverWakeDone_none h2 hp ht v ha
    exact ⟨t, hnext, hrest.state, hrest.gden, hrest.pwm, hchg⟩
  · have hnext := exec_shsTestPartEnd_sound h2 hc (.inl ⟨hp, ht⟩) v hm hr ha
    rw [if_pos hp] at hnext
    exact ⟨_, hnext, rfl, rfl, (Changes.withPinsCnv s _ _).mono (by simp) (by simp)⟩
  · have hnext := exec_shsTestPartEnd_sound h2 hc (.inr ⟨hp, ht⟩) v hm hr ha
    rw [if_neg (by simp [hp])] at hnext
    have hsoft := SoftStarted.enterSoftStart v s
    exact ⟨_, hnext, hsoft.state, hsoft.pwm, hsoft.sensed, hsoft.changes⟩
  · have hdue : shsPartDue s := by
      rcases hp with hp | hp
      · exact .inl ⟨hp, by simpa [hp] using ht⟩
      · exact .inr ⟨hp, by simpa [hp] using ht⟩
    exact shsTestPartEnd_rose h2 hc hdue v hr h0 h16
  · obtain ⟨t, hnext, hrest, hhic, hstop, hwait, hcount, hchg⟩ := shortDetect_hiccup hc hr hs hn
    exact ⟨t, hnext, hrest.state, hhic, hstop, hrest.gden, hrest.pwm, hwait, hcount, hchg⟩
  · obtain ⟨t, hnext, hrest, hevt, hwait, hchg⟩ := shortDetect_fault hc hr hs hn
    exact ⟨t, hnext, hrest.state, hrest.gden, hrest.pwm, hevt, hwait, hchg⟩
  · obtain ⟨t, hnext, hrest, hevt, hchg⟩ := rampDownComplete_due h6 ht
    exact ⟨t, hnext, hrest.state, hrest.gden, hrest.pwm, hevt, hchg⟩

end Sys2Proof.Machine
end

