-- ==== Sys2Proof/Proofs/ConverterProtections.lean ====
section
/-!
PROOFS. The converter's protections: the crowbar, the cycle limits, the trips and the pin readback (R271, R277, R282, R283, R289, R290, R299, R571).
-/
namespace Sys2Proof.Machine

/-! ## The crowbar -/

/-- VBS lies above the lower of 62.0 V and the over-voltage limit of the target (R282). -/
def busHigh (v : Nat) (s : State) : Prop := 62000 < v ∨ busTarget s * (200 + getF Reg.CNV_BUS_OVP s) < v * 200

/-- What the crowbar leaves when it fires at `v` mV (R282, R299). -/
structure CrowbarFired (v : Nat) (s t : State) : Prop where
  state : cnvState t = 7
  pwm : t.pins.pwm = .lowSidesOn (crowbarPhases s)
  gden : t.pins.gden = .high
  event : regBit Reg.CNV_EVT 3 t = true
  waiting : muted 76 s = false → 76 ∈ t.flt.waiting
  sensed : getF Reg.CNV_VBS_VBS t = min v 65535
  changes : Changes [.cnv, .pins, .imp, .fab, .flt, .free]
    (oneOf [Reg.CNV_STAT, Reg.CNV_TRIMST, Reg.SYS_CLKSTAT, Reg.CNV_EVT, Reg.CNV_VBS, Reg.IMP_STAT, Reg.IMP_EVT]) s t

/-- R282: the crowbar fires from every state of bus regulation but CROWBAR, and from FAULT only at the time of its entry. -/
theorem crowbarFire_high {v : Nat} {s : State} (hp : s.sys.phase = .active) (hh : converterHeldOff s = false) (hb : busRegulation s = true)
    (h8 : cnvState s ≠ 8 ∨ s.cnv.faultAt = some s.now) (h7 : cnvState s ≠ 7) (hv : busHigh v s) : ∃ t,
    exec (.crowbarFire v) s = .next t ∧ CrowbarFired v s t := by
  have hstop := Changes.leaveRunning 7 s
  have hreport := (Changes.pulse 76 (leaveRunning 7 s)).trans (.setEvt .cnv 8 _)
  have hshown := hreport.trans (.setReg Reg.CNV_VBS (BitVec.ofNat 32 (min v 65535)) _)
  refine ⟨_, if_pos ⟨hp, hh, hb, h8, h7, hv⟩, ?_⟩
  constructor
  case state =>
    exact (getF_of_reg (f := Reg.CNV_STAT_STATE) (hshown.reg_eq (by simp [EvtBlock.evt]; decide))).trans (AtRest.leaveRunning (by decide) s).state
  case pwm => rfl
  case gden => rfl
  case event =>
    refine (regBit_of_reg (reg_setReg_other (by decide) _ _) 3).trans ?_
    exact regBit_setEvt (b := .cnv) (bits := 8) (by decide) (by decide) _
  case waiting =>
    intro hm
    show 76 ∈ (setEvt .cnv 8 (pulse 76 (leaveRunning 7 s))).flt.waiting
    rw [setEvt_flt]
    exact hstop.mem_waiting_pulse (by simp) hm
  case sensed => exact getF_vbs_of_reg (reg_setReg_same ..)
  case changes =>
    exact ((hstop.trans hshown).trans (.withPinsCnv _ _ _)).mono (by simp) (by simp [oneOf, stopRegs, EvtBlock.evt]; tauto)

theorem crowbarFire_none {v : Nat} {s : State} (h : ¬ busHigh v s ∨ converterHeldOff s = true) : exec (.crowbarFire v) s = .next s :=
  if_neg (fun ⟨_, hh, _, _, _, hv⟩ => h.elim (· hv) (fun hheld => by simp [hheld] at hh))

/-! ## The limits -/

/-- The sense voltage of phase n at a current of `i` × 0.1 A, in the unit of the comparisons (R283). -/
def senseLimit (n : Fin 4) (i : Nat) (s : State) : Int := ((i * getF (Reg.CNV_CSG_CSG n.val) s : Nat) : Int)

theorem senseLimit_nonneg (n : Fin 4) (i : Nat) (s : State) : 0 ≤ senseLimit n i s := Int.natCast_nonneg _

theorem exec_cycleLimit (n : Fin 4) (v : Int) (s : State) : exec (.cycleLimit n v) s =
    if switching s = false then .next s
    else if senseLimit n (getF Reg.CNV_ILIM_IPK s) s < v * 10 then .next { s with cnv := { s.cnv with cutHigh := s.cnv.cutHigh ||| 2 ^ n.val } }
    else if v * 10 < -senseLimit n (getF Reg.CNV_ILIM_INEG s) s then .next { s with cnv := { s.cnv with cutLow := s.cnv.cutLow ||| 2 ^ n.val } }
    else .next s := (rfl)

theorem testBit_or_two_pow (m n : Nat) : (m ||| 2 ^ n).testBit n = true := by simp [Nat.testBit_or]

section
variable {s : State} {n : Fin 4} {v : Int}

theorem cycleLimit_high (hs : switching s = true) (hv : senseLimit n (getF Reg.CNV_ILIM_IPK s) s < v * 10) :
    exec (.cycleLimit n v) s = .next { s with cnv := { s.cnv with cutHigh := s.cnv.cutHigh ||| 2 ^ n.val } } := by
  rw [exec_cycleLimit, if_neg (by simp [hs]), if_pos hv]

theorem cycleLimit_low (hs : switching s = true) (h0 : v < 0) (hv : v * 10 < -senseLimit n (getF Reg.CNV_ILIM_INEG s) s) :
    exec (.cycleLimit n v) s = .next { s with cnv := { s.cnv with cutLow := s.cnv.cutLow ||| 2 ^ n.val } } := by
  have hpos := senseLimit_nonneg n (getF Reg.CNV_ILIM_IPK s) s
  rw [exec_cycleLimit, if_neg (by simp [hs]), if_neg (by omega), if_pos hv]

theorem cycleLimit_within (hhigh : v * 10 ≤ senseLimit n (getF Reg.CNV_ILIM_IPK s) s) (hlow : -senseLimit n (getF Reg.CNV_ILIM_INEG s) s ≤ v * 10) :
    exec (.cycleLimit n v) s = .next s := by
  rw [exec_cycleLimit, if_neg (Int.not_lt.2 hhigh), if_neg (Int.not_lt.2 hlow), ite_self]

end

/-- R198, R283: a limit that lasts is reported, ends a plan, and leaves the converter in RUN. -/
theorem currentLimitSustained_run {s : State} (h4 : cnvState s = 4) (hl : limitSustained s = true) : ∃ t,
    exec .currentLimitSustained s = .next t ∧ (muted 73 s = false → 73 ∈ t.flt.waiting) ∧ cnvState t = 4 ∧
    Changes [.imp, .fab, .flt, .free] (oneOf [Reg.IMP_STAT, Reg.IMP_EVT]) s t := by
  have habort := Changes.planAbort 4 s
  have hchg := habort.trans (.pulse 73 _)
  refine ⟨_, if_pos ⟨h4, hl⟩, habort.mem_waiting_pulse (by simp), ?_, hchg.mono (by simp) (by simp)⟩
  exact (getF_of_reg (f := Reg.CNV_STAT_STATE) (hchg.reg_eq (by simp [oneOf]; decide))).trans h4

/-! ## The trips -/

/-- What a trip leaves that stops the converter into a state and reports a source (R277, R299). -/
structure Tripped (dest src : Nat) (s t : State) : Prop where
  rest : AtRest dest t
  waiting : muted src s = false → src ∈ t.flt.waiting
  changes : Changes [.cnv, .pins, .imp, .fab, .flt, .free] (oneOf stopRegs) s t

theorem Tripped.of_stop {dest : Nat} (hd : dest < 16) (src : Nat) (s : State) : Tripped dest src s (pulse src (leaveRunning dest s)) :=
  ⟨(AtRest.leaveRunning hd s).pulse src, (Changes.leaveRunning dest s).mem_waiting_pulse (by simp),
    ((Changes.leaveRunning dest s).trans (.pulse src _)).mono (by simp) (by simp)⟩

theorem exec_hardTrip (n : Fin 4) (v : Int) (s : State) : exec (.hardTrip n v) s =
    if s.sys.phase = .active ∧ (3 * senseLimit n (getF Reg.CNV_ILIM_IPK s) s < v * 20 ∨ v * 20 < -(3 * senseLimit n (getF Reg.CNV_ILIM_INEG s) s)) then
      .next (pulse 73 (immediateStop 8 s)) else .next s := by
  show execHardTrip n v s = _
  unfold execHardTrip senseLimit
  push_cast
  simp only [Int.mul_assoc]

section
variable {s : State} {n : Fin 4} {v : Int}

theorem hardTrip_running (hp : s.sys.phase = .active) (h0 : cnvState s ≠ 0) (h8 : cnvState s ≠ 8) (h7 : cnvState s ≠ 7)
    (hv : 3 * senseLimit n (getF Reg.CNV_ILIM_IPK s) s < v * 20) : ∃ t, exec (.hardTrip n v) s = .next t ∧ Tripped 8 73 s t ∧
    regBit Reg.CNV_EVT 2 t = true := by
  refine ⟨pulse 73 (leaveRunning 8 s), ?_, .of_stop (by decide) 73 s, (regBit_of_reg (reg_pulse 73 _ _) 2).trans (regBit_leaveRunning_fault s)⟩
  rw [exec_hardTrip, if_pos ⟨hp, .inl hv⟩, immediateStop_running h0 h8 h7]

/-- R283: where no immediate stop is left to make, the source alone is reported. -/
theorem hardTrip_resting (hp : s.sys.phase = .active) (hr : cnvState s = 0 ∨ cnvState s = 8 ∨ cnvState s = 7)
    (hv : v * 20 < -(3 * senseLimit n (getF Reg.CNV_ILIM_INEG s) s)) : exec (.hardTrip n v) s = .next (pulse 73 s) := by
  rw [exec_hardTrip, if_pos ⟨hp, .inr hv⟩, immediateStop_resting hr]

theorem hardTrip_within (hhigh : v * 20 ≤ 3 * senseLimit n (getF Reg.CNV_ILIM_IPK s) s)
    (hlow : -(3 * senseLimit n (getF Reg.CNV_ILIM_INEG s) s) ≤ v * 20) : exec (.hardTrip n v) s = .next s := by
  rw [exec_hardTrip, if_neg (fun ⟨_, hv⟩ => hv.elim (Int.not_lt.2 hhigh) (Int.not_lt.2 hlow))]

end

theorem transferOvervoltage_stops {v : Nat} {s : State} (hc : s.cnv.cls = 2) (h0 : cnvState s ≠ 0) (h8 : cnvState s ≠ 8) (h7 : cnvState s ≠ 7)
    (hv : 62000 < v) : ∃ t, exec (.transferOvervoltage v) s = .next t ∧ Tripped 0 76 s t ∧ (switching s = true → regBit Reg.CNV_EVT 1 t = true) := by
  refine ⟨pulse 76 (leaveRunning 0 s), (if_pos ⟨hc, h0, h8, h7, hv⟩).trans (by rw [immediateStop_running h0 h8 h7]), .of_stop (by decide) 76 s,
    fun hs => ?_⟩
  exact (regBit_of_reg (reg_pulse 76 _ _) 1).trans (regBit_leaveRunning_stop hs (.inl rfl))

theorem moduleVoltageFault_stops {v : Nat} {s : State} (h0 : cnvState s ≠ 0) (h8 : cnvState s ≠ 8) (h7 : cnvState s ≠ 7)
    (hv : v < 20000 ∨ 145000 < v) : ∃ t, exec (.moduleVoltageFault v) s = .next t ∧ Tripped 0 78 s t := by
  have hmeasured : Changes [.cnv] (fun _ => False) s { s with cnv := { s.cnv with vmod := v } } := .withCnv s _
  obtain ⟨hrest, hwait, hchg⟩ := Tripped.of_stop (dest := 0) (by decide) 78 { s with cnv := { s.cnv with vmod := v } }
  refine ⟨_, (if_pos ⟨h0, h8, h7, hv⟩).trans ?_, hrest, hwait, (hmeasured.trans hchg).mono (by simp) (by simp)⟩
  rw [immediateStop_running (s := { s with cnv := { s.cnv with vmod := v } }) h0 h8 h7]

/-! ## The pin readback -/

/-- R270, R277: a phase that may not switch does not switch once the set of switching phases has followed. -/
theorem testBit_act_refreshPhases {s : State} {n : Nat} (h4 : n < 4) (hs : switching s = true) (hn : n ∉ availablePhases s) :
    (getF Reg.CNV_STAT_ACT (refreshPhases s)).testBit n = false := by
  by_cases hl : phasesAtLevel (getF Reg.CNV_STAT_LEVEL s) (availablePhases s) = []
  · have hrun : cnvState s ≠ 0 ∧ cnvState s ≠ 8 ∧ cnvState s ≠ 7 := by
      refine ⟨fun h => ?_, fun h => ?_, fun h => ?_⟩ <;> simp [switching, h] at hs
    have hstop : refreshPhases s = leaveRunning 0 s := by
      refine (if_pos hs).trans ((if_pos hl).trans ?_)
      exact immediateStop_running hrun.1 hrun.2.1 hrun.2.2 0
    rw [hstop, (AtRest.leaveRunning (by decide) s).active, Nat.zero_testBit]
  · have hsub := phasesAtLevel_sublist (getF Reg.CNV_STAT_LEVEL s) (availablePhases s)
    rw [(LevelSet.refreshPhases hs hl).active, testBit_phaseMask (hsub.trans (availablePhases_sublist s)) h4]
    exact decide_eq_false (fun hmem => hn (hsub.subset hmem))

/-- R272, R283: a phase whose readback mismatched may not switch. -/
theorem not_mem_availablePhases_readback {s : State} {n : Nat} (h : (getF Reg.CNV_PHFLT_RB s).testBit n = true) : n ∉ availablePhases s := by
  simp [availablePhases, h]

/-- R198, R283: a phase whose outputs read back wrong is held off. -/
theorem pinReadbackMismatch_active {s : State} (hp : s.sys.phase = .active) (n : Fin 4) : ∃ t, exec (.pinReadbackMismatch n) s = .next t ∧
    (getF Reg.CNV_PHFLT_RB t).testBit n.val = true ∧ (muted 82 s = false → 82 ∈ t.flt.waiting) ∧
    (switching s = true → (getF Reg.CNV_STAT_ACT t).testBit n.val = false) ∧ t.sys = s.sys ∧ t.cal = s.cal ∧ t.pending = s.pending := by
  have hmark := (Changes.planAbort 4 s).trans (.markPhases Reg.CNV_PHFLT_RB [n.val] _)
  have hreport := hmark.trans (.pulse 82 _)
  have hrefresh := Changes.refreshPhases (pulse 82 (markPhases Reg.CNV_PHFLT_RB [n.val] (planAbort 4 s)))
  have hall := hreport.trans hrefresh
  have hbit : (getF Reg.CNV_PHFLT_RB (pulse 82 (markPhases Reg.CNV_PHFLT_RB [n.val] (planAbort 4 s)))).testBit n.val = true := by
    rw [getF_of_reg (reg_pulse 82 _ _)]
    exact testBit_markPhases (by decide) n.isLt _
  refine ⟨_, if_pos hp, ?_, fun hm => waiting_subset_refreshPhases _ (hmark.mem_waiting_pulse (by simp) hm), fun hs => ?_,
    hall.part_eq .sys (by simp), hall.part_eq .cal (by simp), hall.pending_eq⟩
  · rw [getF_of_reg (f := Reg.CNV_PHFLT_RB) (hrefresh.reg_other (by decide))]
    exact hbit
  · have hstate : cnvState (pulse 82 (markPhases Reg.CNV_PHFLT_RB [n.val] (planAbort 4 s))) = cnvState s :=
      getF_of_reg (hreport.reg_eq (by simp [oneOf]; decide))
    exact testBit_act_refreshPhases n.isLt ((switching_congr hstate).trans hs) (not_mem_availablePhases_readback hbit)

/-- Settles O24: every trip is a stop with its report, the crowbar adds its outputs to one, and a phase that is marked leaves the set of switching phases. -/
theorem converterProtections : Obligations.ConverterProtections := by
  unfold Obligations.ConverterProtections
  intro s
  extract_lets stop high fired limit
  have hstop {dest src : Nat} {t : State} (h : Tripped dest src s t) : stop dest src t := by
    obtain ⟨⟨hstate, hgden, hpwm, hact⟩, hwait, hchg⟩ := h
    exact ⟨hstate, hgden, hpwm, hact, hwait, hchg⟩
  have hfired {v : Nat} (h : ∃ t, exec (.crowbarFire v) s = .next t ∧ CrowbarFired v s t) : ∃ t, exec (.crowbarFire v) s = .next t ∧ fired v t := by
    obtain ⟨t, hnext, hstate, hpwm, hgden, hevt, hwait, hvbs, hchg⟩ := h
    exact ⟨t, hnext, hstate, hpwm, hgden, hevt, hwait, hvbs, hchg⟩
  refine ⟨fun v hp hh hb h8 h7 hv => hfired (crowbarFire_high hp hh hb (.inl h8) h7 hv), fun v hp hh hc h8 hf hv => ?_, fun v h => crowbarFire_none h,
    fun n v hs hv => ?_, fun n v hs h0 hv => ?_, fun n v hhigh hlow => cycleLimit_within hhigh hlow, currentLimitSustained_run,
    fun n v hp h0 h8 h7 hv => ?_, fun n v hp hr _ hv => hardTrip_resting hp hr hv, fun n v hhigh hlow => hardTrip_within hhigh hlow,
    fun v hc h0 h8 h7 hv => ?_, fun v h => if_neg ?_, fun v h0 h8 h7 hv => ?_, fun v hlow hhigh => if_neg ?_,
    fun n hp => pinReadbackMismatch_active hp n, fun hp ht => ?_⟩
  · have hb : busRegulation s = true := by simp [busRegulation, h8, hc]
    exact hfired (crowbarFire_high hp hh hb (.inr hf) (by omega) hv)
  · exact ⟨_, cycleLimit_high hs hv, testBit_or_two_pow .., rfl, .withCnv s _⟩
  · exact ⟨_, cycleLimit_low hs h0 hv, testBit_or_two_pow .., rfl, .withCnv s _⟩
  · obtain ⟨t, hnext, htrip, hevt⟩ := hardTrip_running hp h0 h8 h7 hv
    exact ⟨t, hnext, hstop htrip, hevt⟩
  · obtain ⟨t, hnext, htrip, hevt⟩ := transferOvervoltage_stops hc h0 h8 h7 hv
    exact ⟨t, hnext, hstop htrip, hevt⟩
  · omega
  · obtain ⟨t, hnext, htrip⟩ := moduleVoltageFault_stops h0 h8 h7 hv
    exact ⟨t, hnext, hstop htrip⟩
  · omega
  · exact ⟨_, if_pos ⟨hp, ht⟩, mem_waiting_pulse, .pulse 83 s⟩

end Sys2Proof.Machine
end

