-- ==== Sys2Proof/Proofs/ExternalSync.lean ====
section
/-!
PROOFS. External synchronisation: the edges of CSYNC, the loss of sync, and a level that is stuck (R284 to R286, R299).
-/
namespace Sys2Proof.Machine

/-- CSYNC is evaluated: in ACTIVE with SYNCEN set (R284). -/
def syncOn (s : State) : Prop := s.sys.phase = .active ∧ bit Reg.CNV_SYNC_SYNCEN s = true

/-! ## Edges -/

section
variable {s : State} (hon : syncOn s)
include hon

theorem csyncEdge_first (he : s.cnv.edge = none) : exec .csyncEdge s =
    .next { s with cnv := { s.cnv with csyncAt := some s.now, edge := some s.now, inRange := 0, outRange := 0 } } := by
  refine (if_pos hon).trans ?_
  dsimp only
  rw [he]

variable {e : Nat} (he : s.cnv.edge = some e)
include he

/-- R284: the edge's distance from the last accepted one decides. -/
theorem exec_csyncEdge : exec .csyncEdge s =
    if (s.now - e) * getF Reg.CNV_PHCFG_FSW s < 800000 then
      .next { s with cnv := { s.cnv with csyncAt := some s.now, inRange := 0, outRange := s.cnv.outRange + 1 } }
    else if 1250000 < (s.now - e) * getF Reg.CNV_PHCFG_FSW s then
      .next { s with cnv := { s.cnv with csyncAt := some s.now, edge := some s.now, inRange := 0, outRange := s.cnv.outRange + 1 } }
    else .next (if 16 ≤ s.cnv.inRange + 1 && !s.cnv.tracking then
        useFree { s with cnv := { s.cnv with csyncAt := some s.now, edge := some s.now, inRange := min (s.cnv.inRange + 1) 16, outRange := 0
                                             csync := s.now - e, tracking := true, slew := false, alignLeft := (freeWord s).toNat % 65 } }
      else { s with cnv := { s.cnv with csyncAt := some s.now, edge := some s.now, inRange := min (s.cnv.inRange + 1) 16, outRange := 0
                                        csync := s.now - e } }) := by
  refine (if_pos hon).trans ?_
  dsimp only
  rw [he]

theorem csyncEdge_early (hd : (s.now - e) * getF Reg.CNV_PHCFG_FSW s < 800000) : exec .csyncEdge s =
    .next { s with cnv := { s.cnv with csyncAt := some s.now, inRange := 0, outRange := s.cnv.outRange + 1 } } := by
  rw [exec_csyncEdge hon he, if_pos hd]

theorem csyncEdge_late (hd : 1250000 < (s.now - e) * getF Reg.CNV_PHCFG_FSW s) : exec .csyncEdge s =
    .next { s with cnv := { s.cnv with csyncAt := some s.now, edge := some s.now, inRange := 0, outRange := s.cnv.outRange + 1 } } := by
  rw [exec_csyncEdge hon he, if_neg (by omega), if_pos hd]

/-- R284: the sixteenth period in range begins the tracking. -/
theorem csyncEdge_inRange (hlow : 800000 ≤ (s.now - e) * getF Reg.CNV_PHCFG_FSW s) (hhigh : (s.now - e) * getF Reg.CNV_PHCFG_FSW s ≤ 1250000) : ∃ t,
    exec .csyncEdge s = .next t ∧
    t.cnv = { s.cnv with csyncAt := some s.now, edge := some s.now, inRange := min (s.cnv.inRange + 1) 16, outRange := 0, csync := s.now - e
                         tracking := t.cnv.tracking, slew := t.cnv.slew, alignLeft := t.cnv.alignLeft } ∧
    t.cnv.tracking = (s.cnv.tracking || decide (15 ≤ s.cnv.inRange)) ∧ Changes [.cnv, .free] (fun _ => False) s t := by
  have hnext := exec_csyncEdge hon he
  rw [if_neg (Nat.not_lt.2 hlow), if_neg (Nat.not_lt.2 hhigh)] at hnext
  by_cases hbegin : (16 ≤ s.cnv.inRange + 1 && !s.cnv.tracking) = true
  · rw [if_pos hbegin] at hnext
    have h15 : 15 ≤ s.cnv.inRange := by simp at hbegin; omega
    exact ⟨_, hnext, rfl, by simp [useFree, h15], ((Changes.withCnv s _).trans (.useFree _)).mono (by simp) (by simp)⟩
  · rw [if_neg hbegin] at hnext
    refine ⟨_, hnext, rfl, ?_, (Changes.withCnv s _).mono (by simp) (by simp)⟩
    cases htrack : s.cnv.tracking
    · have h15 : ¬ 15 ≤ s.cnv.inRange := by simp [htrack] at hbegin; omega
      simp [h15]
    · simp

end

/-! ## The loss of sync -/

/-- The converter's hidden state after a loss of sync: the period stays, slews back, and has no spread before the next whole millisecond (R285; DEDUCED
notes/assumptions/81.md). -/
def syncEnded (s : State) : CnvState :=
  { s.cnv with inRange := 0, outRange := 0, edge := none, tracking := false, alignLeft := 0, slew := true, spreadFrom := (s.now / ms + 1) * ms }

/-- The report of a lost lock (R285, R299). -/
def reportSyncLoss (s : State) : State :=
  s |> setB Reg.CNV_STAT_SYNCLK false |> incSat Reg.CNV_EVTCNT_SYNCLOSS |> pulse 81 |> setEvt .cnv 32

theorem Changes.reportSyncLoss (s : State) : Changes [.flt, .fab] (oneOf [Reg.CNV_STAT, Reg.CNV_EVTCNT, Reg.CNV_EVT]) s (reportSyncLoss s) :=
  ((((Changes.setB Reg.CNV_STAT_SYNCLK false s).trans (.incSat Reg.CNV_EVTCNT_SYNCLOSS _)).trans (.pulse 81 _)).trans (.setEvt .cnv 32 _)).mono
    (by simp) (by simp [oneOf, Reg.CNV_STAT_SYNCLK, Reg.CNV_EVTCNT_SYNCLOSS, EvtBlock.evt]; tauto)

theorem exec_syncLoss {s s1 : State} (ht : s.cnv.tracking = true) (hl : syncLost s = true)
    (h1 : (if bit Reg.CNV_STAT_SYNCLK s then reportSyncLoss s else s) = s1) (hcnv : s1.cnv = s.cnv) :
    exec .syncLoss s = .next { s1 with cnv := syncEnded s } := by
  subst h1
  refine (if_pos (by rw [ht, hl]; rfl)).trans ?_
  exact congrArg (fun c : CnvState => Host.Outcome.next { (if bit Reg.CNV_STAT_SYNCLK s then reportSyncLoss s else s) with cnv :=
    { c with inRange := 0, outRange := 0, edge := none, tracking := false, alignLeft := 0, slew := true, spreadFrom := (s.now / ms + 1) * ms } }) hcnv

/-- R285: the loss of a lock is counted and reported. -/
theorem syncLoss_locked {s : State} (ht : s.cnv.tracking = true) (hl : syncLost s = true) (hlock : bit Reg.CNV_STAT_SYNCLK s = true) : ∃ t,
    exec .syncLoss s = .next t ∧ t.cnv = syncEnded s ∧ bit Reg.CNV_STAT_SYNCLK t = false ∧ regBit Reg.CNV_EVT 5 t = true ∧
    getF Reg.CNV_EVTCNT_SYNCLOSS t = min (getF Reg.CNV_EVTCNT_SYNCLOSS s + 1) (2 ^ Reg.CNV_EVTCNT_SYNCLOSS.w - 1) ∧
    (muted 81 s = false → 81 ∈ t.flt.waiting) ∧ Changes [.cnv, .flt, .fab] (oneOf [Reg.CNV_STAT, Reg.CNV_EVTCNT, Reg.CNV_EVT]) s t := by
  have hcnv : (reportSyncLoss s).cnv = s.cnv := (Changes.reportSyncLoss s).part_eq .cnv (by simp)
  have hnext := exec_syncLoss ht hl (if_pos hlock) hcnv
  have hcounted := (Changes.setB Reg.CNV_STAT_SYNCLK false s).trans (.incSat Reg.CNV_EVTCNT_SYNCLOSS _)
  have hreport := (Changes.pulse 81 (incSat Reg.CNV_EVTCNT_SYNCLOSS (setB Reg.CNV_STAT_SYNCLK false s))).trans (.setEvt .cnv 32 _)
  refine ⟨_, hnext, rfl, ?_, ?_, ?_, fun hm => ?_, ((Changes.reportSyncLoss s).trans (.withCnv _ _)).mono (by simp) (by simp)⟩
  · have hstat := (hreport.reg_eq (a := Reg.CNV_STAT) (by simp [EvtBlock.evt]; decide)).trans (reg_incSat_other (by decide) _)
    exact (bit_of_reg (f := Reg.CNV_STAT_SYNCLK) hstat).trans (bit_setB_same (by decide) rfl false s)
  · exact regBit_setEvt (b := .cnv) (bits := 32) (by decide) (by decide) _
  · have hbefore : getF Reg.CNV_EVTCNT_SYNCLOSS (setB Reg.CNV_STAT_SYNCLK false s) = getF Reg.CNV_EVTCNT_SYNCLOSS s :=
      getF_of_reg (reg_setB_other (by decide) _ _)
    have hcount := getF_incSat Reg.CNV_EVTCNT_SYNCLOSS (setB Reg.CNV_STAT_SYNCLK false s) (by decide)
    rw [hbefore] at hcount
    exact (getF_of_reg (hreport.reg_eq (by simp [EvtBlock.evt]; decide))).trans hcount
  · show 81 ∈ (reportSyncLoss s).flt.waiting
    rw [reportSyncLoss, setEvt_flt]
    exact hcounted.mem_waiting_pulse (by simp) hm

/-- R285: before the lock only the tracking ends. -/
theorem syncLoss_unlocked {s : State} (ht : s.cnv.tracking = true) (hl : syncLost s = true) (hlock : bit Reg.CNV_STAT_SYNCLK s = false) : ∃ t,
    exec .syncLoss s = .next t ∧ t.cnv = syncEnded s ∧ Changes [.cnv] (fun _ => False) s t := by
  exact ⟨_, exec_syncLoss ht hl (if_neg (by simp [hlock])) rfl, rfl, .withCnv s _⟩

theorem syncLoss_none {s : State} (h : s.cnv.tracking = false ∨ syncLost s = false) : exec .syncLoss s = .next s :=
  if_neg (by rcases h with h | h <;> simp [h])

/-! ## A stuck level -/

theorem csyncStuck_early {s : State} {e : Nat} (he : s.cnv.csyncAt = some e) (ht : s.now < e + getF Reg.CNV_SYNC_STUCKTO s * 10 * ms) :
    exec .csyncStuck s = .next s := by
  refine if_neg (fun ⟨_, _, _, _, hall⟩ => ?_)
  rw [he, Option.all_some, decide_eq_true_eq] at hall
  exact Nat.not_le.2 ht hall

/-- R286: a level that has stood for its time is shown and reported. -/
theorem csyncStuck_due {s : State} (hon : syncOn s) (h0 : getF Reg.CNV_SYNC_STUCKTO s ≠ 0) (hstk : bit Reg.CNV_STAT_SYNCSTK s = false)
    (ht : s.cnv.csyncAt.all (fun e => decide (e + getF Reg.CNV_SYNC_STUCKTO s * 10 * ms ≤ s.now)) = true) : ∃ t, exec .csyncStuck s = .next t ∧
    bit Reg.CNV_STAT_SYNCSTK t = true ∧ (muted 81 s = false → 81 ∈ t.flt.waiting) ∧ regBit Reg.CNV_EVT 5 t = true ∧
    Changes [.flt, .fab] (oneOf [Reg.CNV_STAT, Reg.CNV_EVT]) s t := by
  have hshown := Changes.setB Reg.CNV_STAT_SYNCSTK true s
  have hreport := (Changes.pulse 81 (setB Reg.CNV_STAT_SYNCSTK true s)).trans (.setEvt .cnv 32 _)
  refine ⟨_, if_pos ⟨hon.1, hon.2, h0, hstk, ht⟩, ?_, fun hm => ?_, regBit_setEvt (b := .cnv) (bits := 32) (by decide) (by decide) _,
    (hshown.trans hreport).mono (by simp) (by simp [oneOf, Reg.CNV_STAT_SYNCSTK, EvtBlock.evt])⟩
  · exact (bit_of_reg (f := Reg.CNV_STAT_SYNCSTK) (hreport.reg_eq (by simp [EvtBlock.evt]; decide))).trans (bit_setB_same (by decide) rfl true s)
  · rw [setEvt_flt]
    exact hshown.mem_waiting_pulse (by simp) hm

theorem csync_off {s : State} (h : bit Reg.CNV_SYNC_SYNCEN s = false) : exec .csyncEdge s = .next s ∧ exec .csyncStuck s = .next s :=
  ⟨if_neg (by simp [h]), if_neg (by simp [h])⟩

/-- Settles O25: an edge is judged by its distance from the last accepted one, a loss ends the tracking and is reported from a lock alone, and a stuck level is
reported once its time has passed. -/
theorem externalSynchronisation : Obligations.ExternalSynchronisation := by
  unfold Obligations.ExternalSynchronisation
  intro s
  exact ⟨fun hon he => csyncEdge_first hon he, fun e hon he hlow hhigh => csyncEdge_inRange hon he hlow hhigh,
    fun e hon he hd => csyncEdge_early hon he hd, fun e hon he hd => csyncEdge_late hon he hd, csync_off, syncLoss_locked, syncLoss_unlocked,
    syncLoss_none, fun e he ht => csyncStuck_early he ht, csyncStuck_due⟩

end Sys2Proof.Machine
end

