-- ==== Sys2Proof/Proofs/SummingStage.lean ====
section
/-!
PROOFS. The summing stage: the limits of its output, the clamp of the set-point, and the report of clip (R260, R274, R288, R316, R317).
-/
namespace Sys2Proof.Machine

/-! ## Numbers -/

theorem openDiv_nonneg {num den : Int} (hn : 0 ≤ num) (hd : 0 < den) : 0 ≤ openDiv num den := by
  have hq : 0 ≤ num / den := Int.ediv_nonneg hn hd.le
  unfold openDiv
  rw [if_neg hd.ne']
  split
  · exact hq
  · omega

theorem signed_half16 (v : Int) : signed 16 (half16 v) = clampI v (-32768) 32767 := by
  have hlow : -32768 ≤ clampI v (-32768) 32767 := le_clampI (by decide)
  have hhigh : clampI v (-32768) 32767 ≤ 32767 := clampI_le (by decide)
  unfold half16 signed unsigned
  generalize clampI v (-32768) 32767 = w at hlow hhigh
  split <;> omega

theorem half16_lt (v : Int) : half16 v < 2 ^ 16 := by unfold half16 unsigned; omega

/-- A clamp to a range that holds 0 does not leave another range that holds 0. -/
theorem clampI_mem {v a b lo hi : Int} (ha : a ≤ 0) (hb : 0 ≤ b) (hlo : lo ≤ v) (hhi : v ≤ hi) (hlo0 : lo ≤ 0) (hhi0 : 0 ≤ hi) :
    lo ≤ clampI v a b ∧ clampI v a b ≤ hi := by
  unfold clampI
  split
  · omega
  · split <;> omega

/-! ## The report of clip -/

/-- Whether clip holds, as the registers show it, with the event and the count of a span that begins (R317). -/
def showClip (clip : Bool) (s : State) : State := setB Reg.CTL_STAT_CLIP clip
  (if clip && !bit Reg.CTL_STAT_CLIP s then setEvt .ctl 2 (incSat Reg.CTL_CNT_CLIPCNT s) else s)

theorem Changes.showClip (clip : Bool) (s : State) : Changes [.fab] (oneOf [Reg.CTL_STAT, Reg.CTL_CNT, Reg.CTL_EVT]) s (showClip clip s) := by
  have hbegin := ((Changes.incSat Reg.CTL_CNT_CLIPCNT s).trans (.setEvt .ctl 2 _)).mono (qs := [.fab]) (rs' := oneOf [Reg.CTL_CNT, Reg.CTL_EVT])
    (by simp) (by simp [oneOf, Reg.CTL_CNT_CLIPCNT, EvtBlock.evt])
  exact ((Changes.of_ite hbegin (.refl ..)).trans (.setB Reg.CTL_STAT_CLIP clip _)).mono (by simp) (by simp [oneOf, Reg.CTL_STAT_CLIP]; tauto)

/-- Beside the registers, clip in the window of a plan step marks the step (R204). -/
theorem Changes.noteClip_window (clip move : Bool) (s : State) : Changes [.imp] (fun _ => False) (Machine.showClip clip s) (noteClip clip move s) :=
  .of_ite (.refl ..) (.withImp (Machine.showClip clip s) _)

theorem Changes.noteClip (clip move : Bool) (s : State) :
    Changes [.fab, .imp] (oneOf [Reg.CTL_STAT, Reg.CTL_CNT, Reg.CTL_EVT]) s (noteClip clip move s) :=
  ((Changes.showClip clip s).trans (.noteClip_window clip move s)).mono (by simp) (by simp)

theorem reg_noteClip (clip move : Bool) (s : State) (a : Nat) : reg (noteClip clip move s) a = reg (showClip clip s) a :=
  (Changes.noteClip_window clip move s).reg_eq id

/-- R317: a span of clip that begins sets its event and counts. -/
theorem noteClip_begins {clip move : Bool} {s : State} (h0 : bit Reg.CTL_STAT_CLIP s = false) (h1 : bit Reg.CTL_STAT_CLIP (noteClip clip move s) = true) :
    regBit Reg.CTL_EVT 1 (noteClip clip move s) = true ∧
    getF Reg.CTL_CNT_CLIPCNT (noteClip clip move s) = min (getF Reg.CTL_CNT_CLIPCNT s + 1) (2 ^ Reg.CTL_CNT_CLIPCNT.w - 1) := by
  have hclip : clip = true := by
    rw [bit_of_reg (reg_noteClip clip move s _), showClip, bit_setB_same (by decide) rfl] at h1
    exact h1
  have hreg {a : Nat} (ha : a ≠ Reg.CTL_STAT) : reg (noteClip clip move s) a = reg (setEvt .ctl 2 (incSat Reg.CTL_CNT_CLIPCNT s)) a := by
    rw [reg_noteClip, showClip, reg_setB_other ha, if_pos (by simp [hclip, h0])]
  refine ⟨(regBit_of_reg (hreg (by decide)) 1).trans (regBit_setEvt (b := .ctl) (by decide) (by decide) _), ?_⟩
  rw [getF_of_reg (hreg (by decide)), getF_of_reg (reg_setEvt (by decide) _ _), getF_incSat _ _ (by decide)]

/-! ## The update -/

/-- The output of the summing stage within the limits of the last tick (R316). -/
def summingOut (sum : Int) (s : State) : Int := clampI sum (-openDiv (s.ctl.lneg * 512) 10) (openDiv (s.ctl.lpos * 512) 10)

/-- The hidden state after an update whose sum is given (R316): the set-point sent and the output. -/
def summed (sum : Int) (s : State) : State :=
  { s with
    cnv := { s.cnv with
      iset := if switching s then clampI (summingOut sum s) (-(setPointClamp s)) (setPointClamp s) else 0
      setPoints := if switching s then ((s.now, clampI (summingOut sum s) (-(setPointClamp s)) (setPointClamp s)) :: s.cnv.setPoints).filter
        (fun e => s.now ≤ e.1 + 20000) else [] }
    ctl := { s.ctl with
      lastBase := s.ctl.base, limited := if summingOut sum s < sum then 1 else if sum < summingOut sum s then -1 else 0
      outs := ((s.now, summingOut sum s) :: s.ctl.outs).filter (fun e => s.now < e.1 + ms) } }

theorem Changes.withCnvCtl (s : State) (x : CnvState) (y : CtlState) : Changes [.cnv, .ctl] (fun _ => False) s { s with cnv := x, ctl := y } :=
  ⟨rfl, fun p hp => by cases p <;> simp_all [Part.same], fun _ _ => rfl⟩

theorem exec_summingUpdate {s : State} (hp : s.sys.phase = .active) : ∃ sum clip move,
    exec .summingUpdate s = .next (noteClip clip move (setF Reg.CTL_SP_OUT (half16 (summingOut sum s)) (summed sum s))) :=
  ⟨_, _, _, if_neg (not_not.2 hp)⟩

theorem summingOut_limits (sum : Int) (s : State) :
    -openDiv (s.ctl.lneg * 512) 10 ≤ summingOut sum s ∧ summingOut sum s ≤ openDiv (s.ctl.lpos * 512) 10 := by
  have hneg : 0 ≤ openDiv (s.ctl.lneg * 512) 10 := openDiv_nonneg (by omega) (by decide)
  have hpos : 0 ≤ openDiv (s.ctl.lpos * 512) 10 := openDiv_nonneg (by omega) (by decide)
  exact ⟨le_clampI (by omega), clampI_le (by omega)⟩

/-- What an update leaves (R316, R317). -/
structure SummingDone (s t : State) : Prop where
  iset : ∃ out, t.cnv.iset = if switching s then clampI out (-(setPointClamp s)) (setPointClamp s) else 0
  cnv : t.cnv = { s.cnv with iset := t.cnv.iset, setPoints := t.cnv.setPoints }
  ctl : t.ctl = { s.ctl with lastBase := s.ctl.base, limited := t.ctl.limited, outs := t.ctl.outs }
  upper : signed 16 (getF Reg.CTL_SP_OUT t) ≤ openDiv (s.ctl.lpos * 512) 10
  lower : -openDiv (s.ctl.lneg * 512) 10 ≤ signed 16 (getF Reg.CTL_SP_OUT t)
  clip : bit Reg.CTL_STAT_CLIP s = false → bit Reg.CTL_STAT_CLIP t = true → regBit Reg.CTL_EVT 1 t = true ∧
    getF Reg.CTL_CNT_CLIPCNT t = min (getF Reg.CTL_CNT_CLIPCNT s + 1) (2 ^ Reg.CTL_CNT_CLIPCNT.w - 1)
  changes : Changes [.cnv, .ctl, .fab, .imp] (oneOf [Reg.CTL_SP, Reg.CTL_STAT, Reg.CTL_CNT, Reg.CTL_EVT]) s t

theorem summingUpdate_active {s : State} (hp : s.sys.phase = .active) : ∃ t, exec .summingUpdate s = .next t ∧ SummingDone s t := by
  obtain ⟨sum, clip, move, hnext⟩ := exec_summingUpdate hp
  refine ⟨_, hnext, ?_⟩
  have hsum := (Changes.withCnvCtl s (summed sum s).cnv (summed sum s).ctl).trans (.setF Reg.CTL_SP_OUT (half16 (summingOut sum s)) _)
  have hnote := Changes.noteClip clip move (setF Reg.CTL_SP_OUT (half16 (summingOut sum s)) (summed sum s))
  have hcnv := hnote.part_eq .cnv (by simp)
  have hctl := hnote.part_eq .ctl (by simp)
  generalize ht : noteClip clip move (setF Reg.CTL_SP_OUT (half16 (summingOut sum s)) (summed sum s)) = t at hnote hcnv hctl
  have hout : signed 16 (getF Reg.CTL_SP_OUT t) = clampI (summingOut sum s) (-32768) 32767 := by
    rw [getF_of_reg (f := Reg.CTL_SP_OUT) (hnote.reg_other (by decide)), getF_setF_same _ _ _ (by decide), ← signed_half16]
    exact congrArg (signed 16) (Nat.mod_eq_of_lt (half16_lt _))
  have hneg : 0 ≤ openDiv (s.ctl.lneg * 512) 10 := openDiv_nonneg (by omega) (by decide)
  have hpos : 0 ≤ openDiv (s.ctl.lpos * 512) 10 := openDiv_nonneg (by omega) (by decide)
  obtain ⟨hlow, hhigh⟩ := summingOut_limits sum s
  have hrange := clampI_mem (a := -32768) (b := 32767) (by decide) (by decide) hlow hhigh (by omega) hpos
  have hsent : t.cnv.iset = (summed sum s).cnv.iset := congrArg CnvState.iset hcnv
  constructor
  case iset => exact ⟨summingOut sum s, hsent⟩
  case cnv => rw [show t.cnv = (summed sum s).cnv from hcnv]; rfl
  case ctl => rw [show t.ctl = (summed sum s).ctl from hctl]; rfl
  case upper => rw [hout]; exact hrange.2
  case lower => rw [hout]; exact hrange.1
  case clip =>
    intro h0 h1
    have hstat : bit Reg.CTL_STAT_CLIP (setF Reg.CTL_SP_OUT (half16 (summingOut sum s)) (summed sum s)) = bit Reg.CTL_STAT_CLIP s :=
      bit_of_reg (reg_setF_other (by decide) _ _)
    have hcount : getF Reg.CTL_CNT_CLIPCNT (setF Reg.CTL_SP_OUT (half16 (summingOut sum s)) (summed sum s)) = getF Reg.CTL_CNT_CLIPCNT s :=
      getF_of_reg (reg_setF_other (by decide) _ _)
    have hbegin := noteClip_begins (hstat.trans h0) (ht ▸ h1)
    rw [ht, hcount] at hbegin
    exact hbegin
  case changes => exact (hsum.trans hnote).mono (by simp) (by simp [oneOf, Reg.CTL_SP_OUT])

/-- Settles O28: one account of an update gives every clause: the clamp in force while the phases switch, the limits, and the span of clip. -/
theorem summingStage : Obligations.SummingStage := by
  unfold Obligations.SummingStage
  intro s
  refine ⟨fun hp hs h0 => ?_, fun hp hs => ?_, fun hp => ?_, fun hp => if_pos hp⟩
  · obtain ⟨t, hnext, hdone⟩ := summingUpdate_active hp
    obtain ⟨out, hiset⟩ := hdone.iset
    rw [if_pos hs] at hiset
    refine ⟨t, hnext, ?_, ?_, hdone.cnv, ?_, hdone.ctl, hdone.changes⟩
    · rw [hiset]; exact le_clampI (by omega)
    · rw [hiset]; exact clampI_le (by omega)
    · rw [hdone.ctl]
  · obtain ⟨t, hnext, hdone⟩ := summingUpdate_active hp
    obtain ⟨out, hiset⟩ := hdone.iset
    rw [if_neg (by simp [hs])] at hiset
    exact ⟨t, hnext, hiset, hdone.changes⟩
  · obtain ⟨t, hnext, hdone⟩ := summingUpdate_active hp
    exact ⟨t, hnext, hdone.upper, hdone.lower, hdone.clip⟩

end Sys2Proof.Machine
end

