-- ==== Sys2Proof/Proofs/ControlProfile.lean ====
section
/-!
PROOFS. The profile generator: it never passes its target, and its slope and acceleration stay within the limits in force (R306 to R308).
-/
namespace Sys2Proof.Machine

/-- R308: a limit in force does not lie below the written one. -/
theorem le_fallingLimit (written magnitude step : Int) : written ≤ fallingLimit written magnitude step := by
  unfold fallingLimit
  split
  · exact le_rfl
  · exact le_max_left _ _

/-- A value clamped to a symmetric range. -/
theorem clampI_symm {lim : Int} (h : 0 ≤ lim) (v : Int) : -lim ≤ clampI v (-lim) lim ∧ clampI v (-lim) lim ≤ lim :=
  ⟨le_clampI (by omega), clampI_le (by omega)⟩

/-- R306: within limits in force that do not lie below the written ones, a tick moves on or, where that would reach or pass the target, rests there. -/
theorem profileTick_moves (p : Profile) (xt jm per : Int) {sw aw : Int} (hs : 0 ≤ sw) (ha : 0 ≤ aw) : ∃ xn v a smax amax : Int,
    sw ≤ smax ∧ aw ≤ amax ∧ (-smax ≤ v ∧ v ≤ smax) ∧ (-amax ≤ a ∧ a ≤ amax) ∧
    profileTick p xt sw aw jm per = if (xn - xt) * (p.x - xt) ≤ 0 then ⟨xt, 0, 0, smax, amax⟩ else ⟨xn, v, a, smax, amax⟩ :=
  ⟨_, _, _, _, _, le_fallingLimit sw _ _, le_fallingLimit aw _ _, clampI_symm (hs.trans (le_fallingLimit sw _ _)) _,
    clampI_symm (ha.trans (le_fallingLimit aw _ _)) _, rfl⟩

/-- Settles O27: a tick that would reach or pass the target rests on it, and any other stays on its side with slope and acceleration clamped. -/
theorem profileNeverPasses : Obligations.ProfileNeverPasses := by
  unfold Obligations.ProfileNeverPasses
  intro p xt sw aw jm per hs ha
  obtain ⟨xn, v, a, smax, amax, hsw, haw, ⟨hv0, hv1⟩, ⟨ha0, ha1⟩, htick⟩ := profileTick_moves p xt jm per hs ha
  rw [htick]
  by_cases hpass : (xn - xt) * (p.x - xt) ≤ 0
  · rw [if_pos hpass]
    have hsmax : 0 ≤ smax := hs.trans hsw
    have hamax : 0 ≤ amax := ha.trans haw
    exact ⟨by simp, fun _ _ => ⟨rfl, rfl⟩, fun _ => rfl, by simpa using hsmax, hsmax, by simpa using hamax, hamax, hsw, haw⟩
  · rw [if_neg hpass]
    have hside : 0 < (xn - xt) * (p.x - xt) := not_le.1 hpass
    have hleft : xn - xt ≠ 0 := fun h => by simp [h] at hside
    have hoff : p.x - xt ≠ 0 := fun h => by simp [h] at hside
    exact ⟨hside.le, fun h => absurd (sub_eq_zero.2 h) hleft, fun h => absurd (sub_eq_zero.2 h) hoff, hv0, hv1, ha0, ha1, hsw, haw⟩

end Sys2Proof.Machine
end

