-- ==== Sys2Proof/Proofs/ControlCommands.lean ====
section
/-!
PROOFS. The commands of the control engine and the reports of its sources (R303, R309, R314, R320, R323, R325, R571).
-/
namespace Sys2Proof.Machine

/-! ## LOADLUT and the target -/

/-- The target as a write leaves it: the value, and TGTCLP where it lies outside −NEG to +POS (R309). -/
def targetWritten (w : Nat) (s : State) : State :=
  s |> setF Reg.CTL_TGT_TGT w |> setB Reg.CTL_STAT_TGTCLP
    (decide (signed 16 w * 10 < -(getF Reg.CTL_LIM_NEG s * 512 : Nat)) || decide ((getF Reg.CTL_LIM_POS s * 512 : Nat) < signed 16 w * 10))

section
variable {s : State} (hc : coreUp s = true)
include hc

theorem exec_loadlut : exec .loadlut s = (loadLut s).out := if_pos hc

theorem exec_targetWrite (w : Fin 65536) : exec (.targetWrite w) s = (writeTarget w.val s).out := if_pos hc

theorem loadlut_taken (hf : bit Reg.CTL_STAT_FEN s = false) : ∃ t, exec .loadlut s = .next t ∧ bit Reg.CTL_STAT_LUTPEND t = true ∧ t.answered .ok ∧
    Changes [.resp] (oneOf [Reg.CTL_STAT]) s t := by
  have hload : loadLut s = Done.ok (setB Reg.CTL_STAT_LUTPEND true s) := if_neg (by simp [hf])
  refine ⟨_, (exec_loadlut hc).trans (congrArg Done.out hload), bit_setB_same (by decide) rfl true s, rfl, ?_⟩
  exact ((Changes.setB ..).trans (.finish_ok _)).mono (by simp) (by simp [oneOf, Reg.CTL_STAT_LUTPEND])

/-- R309: the value is stored, and TGTCLP shows whether it is limited. -/
theorem targetWrite_taken (hf : bit Reg.CTL_STAT_FEN s = false) (w : Fin 65536) : ∃ t, exec (.targetWrite w) s = .next t ∧
    getF Reg.CTL_TGT_TGT t = w.val ∧ t.answered .ok ∧
    (bit Reg.CTL_STAT_TGTCLP t = false ↔ -(getF Reg.CTL_LIM_NEG s * 512 : Int) ≤ signed 16 w * 10 ∧ signed 16 w * 10 ≤ getF Reg.CTL_LIM_POS s * 512) ∧
    Changes [.resp] (oneOf [Reg.CTL_TGT, Reg.CTL_STAT]) s t := by
  have hwrite : writeTarget w.val s = Done.ok (targetWritten w.val s) := if_neg (by simp [hf])
  have hshown : bit Reg.CTL_STAT_TGTCLP (targetWritten w.val s) = _ := bit_setB_same (by decide) rfl _ _
  refine ⟨_, (exec_targetWrite hc w).trans (congrArg Done.out hwrite), ?_, rfl, ?_, ?_⟩
  · calc getF Reg.CTL_TGT_TGT (targetWritten w.val s)
        = getF Reg.CTL_TGT_TGT (setF Reg.CTL_TGT_TGT w.val s) := getF_of_reg (reg_setB_other (by decide) _ _)
      _ = w.val := (getF_setF_same _ _ _ (by decide)).trans (Nat.mod_eq_of_lt w.isLt)
  · rw [show bit Reg.CTL_STAT_TGTCLP (Done.ok (targetWritten w.val s)).finish = _ from hshown]
    simp [not_lt]
  · exact (((Changes.setF ..).trans (.setB ..)).trans (.finish_ok _)).mono (by simp) (by simp [oneOf, Reg.CTL_TGT_TGT, Reg.CTL_STAT_TGTCLP])

/-- R320: a fenced engine refuses both. -/
theorem engineCommands_fenced (hf : bit Reg.CTL_STAT_FEN s = true) :
    (∃ t, exec .loadlut s = .next t ∧ t.answered .refusedFenced ∧ Changes [.resp] (fun _ => False) s t) ∧
    ∀ w, ∃ t, exec (.targetWrite w) s = .next t ∧ t.answered .refusedFenced ∧ Changes [.resp] (fun _ => False) s t := by
  have hload : loadLut s = Done.refuse .refusedFenced s := if_pos hf
  have hwrite (w : Fin 65536) : writeTarget w.val s = Done.refuse .refusedFenced s := if_pos hf
  exact ⟨⟨_, (exec_loadlut hc).trans (congrArg Done.out hload), rfl, .withResp s _⟩,
    fun w => ⟨_, (exec_targetWrite hc w).trans (congrArg Done.out (hwrite w)), rfl, .withResp s _⟩⟩

end

/-! ## The communication-loss expiry at the target -/

/-- What an expiry does before its effect on the target (R242, R243). -/
def lossAborted (s : State) : State := harnessAbort (planAbort 9 (lossReported s))

theorem lossAborted_changes (s : State) : Changes [.cpb, .cms, .xck, .imp, .hst, .fab, .free, .flt, .resp, .lnk] (fun _ => True) s (lossAborted s) :=
  (((Changes.lossReported s).trans (.planAbort 9 _)).trans (harnessAbort_changes _)).mono (by simp) (fun _ _ => trivial)

/-- It changes no register of the converter and of the engine. -/
theorem reg_lossAborted {a : Nat} (ha : Reg.CNV_CFG ≤ a) (hb : a < Reg.FAB_CFG) (s : State) : reg (lossAborted s) a = reg s a := by
  have hne {b : Nat} (h : b < Reg.CNV_CFG) : a ≠ b := (Nat.lt_of_lt_of_le h ha).ne'
  have himp : a ∉ [Reg.IMP_STAT, Reg.IMP_EVT] := by simpa using ⟨hne (by decide), hne (by decide)⟩
  calc reg (lossAborted s) a
      = reg (planAbort 9 (lossReported s)) a :=
        (harnessAbort_changes _).reg_eq (fun h => h.elim (hne (by decide)) (fun h => h.elim (hne (by decide)) (Nat.not_le.2 hb)))
    _ = reg (lossReported s) a := (Changes.planAbort 9 _).reg_other himp
    _ = reg (lossShown s) a := reg_lossReported (hne (by decide)) (hne (by decide)) s
    _ = reg s a := (reg_incSat_other (hne (by decide)) _).trans ((reg_setB_other (hne (by decide)) _ _).trans (reg_setReg_other (hne (by decide)) _ s))

theorem cnvState_lossAborted (s : State) : cnvState (lossAborted s) = cnvState s := getF_of_reg (reg_lossAborted (by decide) (by decide) s)

theorem busRegulation_congr {s t : State} (hstate : cnvState t = cnvState s) (hcfg : reg t Reg.CNV_CFG = reg s Reg.CNV_CFG)
    (hcls : t.cnv.cls = s.cnv.cls) : busRegulation t = busRegulation s := by
  unfold busRegulation
  rw [hstate, hcls, getF_of_reg (f := Reg.CNV_CFG_CLASS) hcfg]

theorem busRegulation_lossAborted (s : State) : busRegulation (lossAborted s) = busRegulation s :=
  busRegulation_congr (cnvState_lossAborted s) (reg_lossAborted (by decide) (by decide) s)
    (congrArg CnvState.cls ((lossAborted_changes s).part_eq .cnv (by decide)))

/-- R323: outside bus regulation CLZERO has the target become 0. -/
theorem targetZeroed_clears {s : State} (hz : bit Reg.CTL_CFG_CLZERO s = true) (hb : busRegulation s = false) :
    getF Reg.CTL_TGT_TGT (targetZeroed s) = 0 ∧ regBit Reg.CTL_EVT 3 (targetZeroed s) = true := by
  have hzero : targetZeroed s = setEvt .ctl 8 (setB Reg.CTL_STAT_TGTCLP false (setF Reg.CTL_TGT_TGT 0 s)) := if_pos (by simp [hz, hb])
  rw [hzero]
  refine ⟨?_, regBit_setEvt (b := .ctl) (by decide) (by decide) _⟩
  calc getF Reg.CTL_TGT_TGT (setEvt .ctl 8 (setB Reg.CTL_STAT_TGTCLP false (setF Reg.CTL_TGT_TGT 0 s)))
      = getF Reg.CTL_TGT_TGT (setF Reg.CTL_TGT_TGT 0 s) := getF_of_reg ((reg_setEvt (by decide) 8 _).trans (reg_setB_other (by decide) false _))
    _ = 0 := getF_setF_same _ 0 s (by decide)

theorem targetZeroed_regulating {s : State} (hb : busRegulation s = true) : targetZeroed s = s := if_neg (by simp [hb])

section
variable {s : State} (hp : s.sys.phase = .active) (ht : s.cpb.clStart + (getF Reg.CPB_CLTCFG_PERIOD s + 1) * 10 * ms ≤ s.now)
include hp ht

theorem exec_communicationLossExpiry_due : exec .communicationLossExpiry s = .next (targetZeroed (lossAborted s)) :=
  (exec_communicationLossExpiry s).trans (if_pos ⟨hp, decide_eq_true ht⟩)

theorem communicationLossExpiry_zeroes (hz : bit Reg.CTL_CFG_CLZERO s = true) (hb : busRegulation s = false) : ∃ t,
    exec .communicationLossExpiry s = .next t ∧ getF Reg.CTL_TGT_TGT t = 0 ∧ regBit Reg.CTL_EVT 3 t = true ∧ cnvState t = cnvState s := by
  have hz' : bit Reg.CTL_CFG_CLZERO (lossAborted s) = true := (bit_of_reg (reg_lossAborted (by decide) (by decide) s)).trans hz
  obtain ⟨htarget, hevent⟩ := targetZeroed_clears hz' ((busRegulation_lossAborted s).trans hb)
  have hstate : cnvState (targetZeroed (lossAborted s)) = cnvState (lossAborted s) := getF_of_reg ((targetZeroed_changes _).reg_other (by decide))
  exact ⟨_, exec_communicationLossExpiry_due hp ht, htarget, hevent, hstate.trans (cnvState_lossAborted s)⟩

/-- R323: in bus regulation the target stays. -/
theorem communicationLossExpiry_regulating (hb : busRegulation s = true) : ∃ t, exec .communicationLossExpiry s = .next t ∧
    reg t Reg.CTL_TGT = reg s Reg.CTL_TGT ∧ t.ctl = s.ctl ∧ cnvState t = cnvState s := by
  refine ⟨lossAborted s, ?_, reg_lossAborted (by decide) (by decide) s, (lossAborted_changes s).part_eq .ctl (by decide), cnvState_lossAborted s⟩
  rw [exec_communicationLossExpiry_due hp ht, targetZeroed_regulating ((busRegulation_lossAborted s).trans hb)]

end

/-! ## The sources of the engine -/

/-- The engine's sources are never muted (R489). -/
theorem muted_engine {src : Nat} (h : 83 < src) (s : State) : muted src s = false := by
  simp only [muted, Bool.and_eq_false_iff, Bool.or_eq_false_iff, decide_eq_false_iff_not, beq_eq_false_iff_ne]
  omega

/-- An event of one of the engine's sources waits for the collector. -/
theorem engineSource_pulse {src : Nat} (h : 83 < src) (s : State) : (pulse src s).flt.waiting = s.flt.waiting ++ [src] ∧
    Changes [.flt] (fun _ => False) s (pulse src s) := ⟨pulse_waiting src s (muted_engine h s), .pulse src s⟩

/-- R325: bad tracking in RUN, outside braking, a shed window and clip. -/
theorem trackingFault_reports {s : State} (h4 : cnvState s = 4) (hbrk : bit Reg.CNV_STAT_BRK s = false) (hshed : s.cnv.shed = none)
    (hclip : bit Reg.CTL_STAT_CLIP s = false) (hbad : tracksBadly s = true) : ∃ t, exec .trackingFault s = .next t ∧
    t.flt.waiting = s.flt.waiting ++ [85] ∧ regBit Reg.CTL_EVT 2 t = true ∧
    getF Reg.CTL_CNT_TRKCNT t = min (getF Reg.CTL_CNT_TRKCNT s + 1) (2 ^ Reg.CTL_CNT_TRKCNT.w - 1) ∧
    Changes [.flt, .fab] (oneOf [Reg.CTL_CNT, Reg.CTL_EVT]) s t := by
  obtain ⟨hwait, hpulse⟩ := engineSource_pulse (src := 85) (by decide) s
  refine ⟨_, if_pos ⟨h4, hbrk, hshed, hclip, hbad⟩, ?_, regBit_setEvt (b := .ctl) (by decide) (by decide) _, ?_, ?_⟩
  · rw [setEvt_flt, incSat_flt, hwait]
  · calc getF Reg.CTL_CNT_TRKCNT (setEvt .ctl 4 (incSat Reg.CTL_CNT_TRKCNT (pulse 85 s)))
        = getF Reg.CTL_CNT_TRKCNT (incSat Reg.CTL_CNT_TRKCNT (pulse 85 s)) := getF_of_reg (reg_setEvt (by decide) 4 _)
      _ = min (getF Reg.CTL_CNT_TRKCNT (pulse 85 s) + 1) (2 ^ Reg.CTL_CNT_TRKCNT.w - 1) := getF_incSat _ _ (by decide)
      _ = min (getF Reg.CTL_CNT_TRKCNT s + 1) (2 ^ Reg.CTL_CNT_TRKCNT.w - 1) := by rw [getF_of_reg (reg_pulse 85 _ s)]
  · exact ((hpulse.trans (.incSat ..)).trans (.setEvt .ctl 4 _)).mono (by simp) (by simp [oneOf, Reg.CTL_CNT_TRKCNT, EvtBlock.evt])

theorem trackingFault_none {s : State} (h : cnvState s ≠ 4 ∨ bit Reg.CNV_STAT_BRK s = true ∨ s.cnv.shed.isSome = true ∨ bit Reg.CTL_STAT_CLIP s = true ∨
    tracksBadly s = false) : exec .trackingFault s = .next s := by
  refine if_neg (fun ⟨h4, hbrk, hshed, hclip, hbad⟩ => ?_)
  simp [h4, hbrk, hshed, hclip, hbad] at h

theorem outputAtLimit_reports {s : State} (h4 : cnvState s = 4) (hl : atLimit s = true) : ∃ t, exec .outputAtLimit s = .next t ∧
    t.flt.waiting = s.flt.waiting ++ [87] ∧ Changes [.flt] (fun _ => False) s t :=
  ⟨_, if_pos ⟨h4, hl⟩, engineSource_pulse (by decide) s⟩

theorem outputAtLimit_none {s : State} (h : cnvState s ≠ 4 ∨ atLimit s = false) : exec .outputAtLimit s = .next s := by
  refine if_neg (fun ⟨h4, hl⟩ => ?_)
  simp [h4, hl] at h

theorem ctlEngineFault_reports (parity : Bool) {s : State} (hp : s.sys.phase = .active) (h : parity = true ∨ testing 16 s = false) : ∃ t,
    exec (.ctlEngineFault parity) s = .next t ∧ t.flt.waiting = s.flt.waiting ++ [if parity then 86 else 84] ∧ Changes [.flt] (fun _ => False) s t :=
  ⟨_, if_pos ⟨hp, h⟩, engineSource_pulse (by cases parity <;> decide) s⟩

/-- Settles O29: the commands are accesses that a fence refuses, an expiry reaches the engine through CLZERO alone, and each source reports where its condition
stands. -/
theorem controlCommands : Obligations.ControlCommands := by
  unfold Obligations.ControlCommands
  intro s
  exact ⟨loadlut_taken, fun w hc hf => targetWrite_taken hc hf w, engineCommands_fenced, communicationLossExpiry_zeroes,
    communicationLossExpiry_regulating, trackingFault_reports, trackingFault_none, outputAtLimit_reports, outputAtLimit_none,
    fun parity => ctlEngineFault_reports parity⟩

end Sys2Proof.Machine
end

