-- ==== Sys2Proof/Proofs/ControlEngine.lean ====
section
/-!
PROOFS. The control engine in each state of the converter: what it computes from, and what each of its runs writes (R305, R306, R311, R319).
-/
namespace Sys2Proof.Machine

/-! ## What the engine computes from -/

/-- What the engine computes from beside whole registers (R305, R306, R311): its hidden state, the converter's, the time, and whether it is degraded. -/
structure EngineView where
  profile : Profile
  integ : Int
  base : Int
  limited : Int
  cls : Nat
  samples : List (Nat × Int)
  rampV : Nat
  rampT : Nat
  now : Nat
  degraded : Bool

def engineView (s : State) : EngineView where
  profile := ⟨s.ctl.x, s.ctl.v, s.ctl.a, s.ctl.smax, s.ctl.amax⟩
  integ := s.ctl.integ
  base := s.ctl.base
  limited := s.ctl.limited
  cls := s.cnv.cls
  samples := s.cnv.samples
  rampV := s.cnv.rampV
  rampT := s.cnv.rampT
  now := s.now
  degraded := bit Reg.CTL_STAT_DEGR s

/-- The registers that a tick writes before the engine runs. -/
def tickRegs : List Nat := [Reg.CNV_VBS, Reg.CNV_VREF, Reg.CTL_STAT, Reg.CTL_DFF, Reg.CTL_VERR]

/-- Two states from which the engine computes the same. -/
structure SameInputs (s t : State) : Prop where
  view : engineView t = engineView s
  reg : ∀ a, a ∉ tickRegs → reg t a = reg s a

theorem SameInputs.trans {s t u : State} (h : SameInputs s t) (h' : SameInputs t u) : SameInputs s u :=
  ⟨h'.view.trans h.view, fun a ha => (h'.reg a ha).trans (h.reg a ha)⟩

section
variable {s t : State} (h : SameInputs s t)
include h

theorem SameInputs.getF {f : Field} (hf : f.addr ∉ tickRegs) : getF f t = Machine.getF f s := getF_of_reg (h.reg _ hf)

theorem SameInputs.bit {f : Field} (hf : f.addr ∉ tickRegs) : bit f t = Machine.bit f s := bit_of_reg (h.reg _ hf)

theorem SameInputs.degraded : Machine.bit Reg.CTL_STAT_DEGR t = Machine.bit Reg.CTL_STAT_DEGR s := congrArg EngineView.degraded h.view

theorem SameInputs.cnvState : cnvState t = Machine.cnvState s := h.getF (by decide)

theorem SameInputs.switching : switching t = Machine.switching s := switching_congr h.cnvState

theorem SameInputs.busRegulation : busRegulation t = Machine.busRegulation s :=
  busRegulation_congr h.cnvState (h.reg _ (by decide)) (congrArg EngineView.cls h.view)

theorem SameInputs.busTarget : busTarget t = Machine.busTarget s := by
  unfold Machine.busTarget
  rw [h.getF (f := Reg.CNV_STAT_VSELACT) (by decide)]
  have h4 : Machine.getF Reg.CNV_STAT_VSELACT s < 4 := Nat.mod_lt _ (by decide)
  generalize Machine.getF Reg.CNV_STAT_VSELACT s = k at h4
  exact h.getF (by interval_cases k <;> decide)

theorem SameInputs.rampValue : rampValue t = Machine.rampValue s := by
  have hnow : t.now = s.now := congrArg EngineView.now h.view
  have hV : t.cnv.rampV = s.cnv.rampV := congrArg EngineView.rampV h.view
  have hT : t.cnv.rampT = s.cnv.rampT := congrArg EngineView.rampT h.view
  simp only [Machine.rampValue, softTime]
  rw [h.busTarget, hnow, hV, hT, h.getF (f := Reg.CNV_SSCFG_TSS) (by decide)]

theorem SameInputs.voltageReference : voltageReference t = Machine.voltageReference s := by
  have hsamples : t.cnv.samples = s.cnv.samples := congrArg EngineView.samples h.view
  have hmean : meanTotal t = meanTotal s := by unfold meanTotal; rw [hsamples]
  unfold Machine.voltageReference
  rw [hmean, h.rampValue, h.busTarget, h.getF (f := Reg.CNV_DROOP_DROOP) (by decide)]

theorem SameInputs.tickPeriod : tickPeriod t = Machine.tickPeriod s := by
  unfold Machine.tickPeriod
  rw [h.getF (f := Reg.CTL_CFG_RATE) (by decide)]

theorem SameInputs.scaledTarget : scaledTarget t = Machine.scaledTarget s := by
  simp (disch := decide) only [Machine.scaledTarget, h.getF]

theorem SameInputs.nextProfile : nextProfile t = Machine.nextProfile s := by
  have hp : (⟨t.ctl.x, t.ctl.v, t.ctl.a, t.ctl.smax, t.ctl.amax⟩ : Profile) = ⟨s.ctl.x, s.ctl.v, s.ctl.a, s.ctl.smax, s.ctl.amax⟩ :=
    congrArg EngineView.profile h.view
  simp (disch := decide) only [Machine.nextProfile, h.tickPeriod, hp, h.degraded, h.scaledTarget, h.getF]

theorem SameInputs.profileBase (p : Profile) : profileBase p t = Machine.profileBase p s := by
  simp (disch := decide) only [Machine.profileBase, h.getF, h.bit]

theorem SameInputs.integratorFrozen (e : Int) : integratorFrozen e t = Machine.integratorFrozen e s := by
  have hlimited : t.ctl.limited = s.ctl.limited := congrArg EngineView.limited h.view
  unfold Machine.integratorFrozen
  rw [hlimited, h.bit (f := Reg.CNV_STAT_BRK) (by decide), h.cnvState]

theorem SameInputs.nextIntegrator (e : Int) : nextIntegrator e t = Machine.nextIntegrator e s := by
  have hinteg : t.ctl.integ = s.ctl.integ := congrArg EngineView.integ h.view
  unfold Machine.nextIntegrator
  rw [h.integratorFrozen, hinteg, h.tickPeriod, h.getF (f := Reg.CTL_KI_KI) (by decide), h.getF (f := Reg.CTL_LIM_NEG) (by decide),
    h.getF (f := Reg.CTL_LIM_POS) (by decide)]

theorem SameInputs.voltageBase (e g integ : Int) : voltageBase e g integ t = Machine.voltageBase e g integ s := by
  simp (disch := decide) only [Machine.voltageBase, h.getF]

theorem SameInputs.lutGain (htable : t.ctl.table = s.ctl.table) (hnent : t.ctl.nent = s.ctl.nent) (e : Int) : lutGain e t = Machine.lutGain e s := by
  simp (disch := decide) only [Machine.lutGain, htable, hnent, h.degraded, h.bit]

end

/-! ## What the engine does in each state of the converter -/

/-- The registers that the engine writes. -/
def engineRegs : List Nat := [Reg.CTL_STAT, Reg.CTL_SP, Reg.CTL_PSTATE, Reg.CTL_INTEG, Reg.CTL_EVT]

/-- MODE and PMOVE of a tick (R319). -/
def showMode (mode : Nat) (moves : Bool) (s : State) : State := setB Reg.CTL_STAT_PMOVE moves (setF Reg.CTL_STAT_MODE mode s)

/-- What a run of the engine leaves beside its own values: the mode it shows, and a table copy as it stood. -/
structure EngineRan (mode : Nat) (moves : Bool) (ps : List Part) (s t : State) : Prop where
  stat : reg t Reg.CTL_STAT = reg (showMode mode moves s) Reg.CTL_STAT
  ctl : t.ctl = { s.ctl with
    x := t.ctl.x, v := t.ctl.v, a := t.ctl.a, smax := t.ctl.smax, amax := t.ctl.amax, integ := t.ctl.integ, base := t.ctl.base }
  changes : Changes ps (oneOf engineRegs) s t

section
variable {mode : Nat} {moves : Bool} {ps : List Part} {s t : State} (h : EngineRan mode moves ps s t)
include h

theorem EngineRan.mode_shown (hm : mode < 4) : getF Reg.CTL_STAT_MODE t = mode := by
  calc getF Reg.CTL_STAT_MODE t
      = getF Reg.CTL_STAT_MODE (setF Reg.CTL_STAT_MODE mode s) := (getF_of_reg h.stat).trans (getF_setF_beside _ _ _ _ (by decide) (by decide))
    _ = mode := (getF_setF_same _ _ _ (by decide)).trans (Nat.mod_eq_of_lt hm)

theorem EngineRan.pmove : bit Reg.CTL_STAT_PMOVE t = moves := (bit_of_reg h.stat).trans (bit_setB_same (by decide) rfl _ _)

theorem EngineRan.lutpend : bit Reg.CTL_STAT_LUTPEND t = bit Reg.CTL_STAT_LUTPEND s :=
  (bit_of_reg h.stat).trans ((bit_setF_beside (by decide) (by decide) _ _).trans (bit_setF_beside (by decide) (by decide) _ s))

theorem EngineRan.reg_other {a : Nat} (ha : a ∉ engineRegs) : reg t a = reg s a := h.changes.reg_other ha

end

theorem Changes.showMode (mode : Nat) (moves : Bool) (s : State) : Changes [] (oneOf engineRegs) s (showMode mode moves s) :=
  ((Changes.setF ..).trans (.setB ..)).mono (by simp) (by simp [oneOf, engineRegs, Reg.CTL_STAT_MODE, Reg.CTL_STAT_PMOVE])

theorem Changes.withCtl (s : State) (y : CtlState) : Changes [.ctl] (fun _ => False) s { s with ctl := y } :=
  ⟨rfl, fun p hp => by cases p <;> simp_all [Part.same], fun _ _ => rfl⟩

/-- The profile's values, as the engine keeps them. -/
def profileKept (s : State) : CtlState :=
  let p := nextProfile s
  { s.ctl with x := p.x, v := p.v, a := p.a, smax := p.smax, amax := p.amax, base := profileBase p s }

/-- The profile moves: it neither rests nor arrives in this tick. -/
def profileMoves (s : State) : Bool := (nextProfile s).x != s.ctl.x && (nextProfile s).x != scaledTarget s

/-- The profile's values and the registers that show them. -/
def profileShown (s : State) : State :=
  showMode 2 (profileMoves s) { s with ctl := profileKept s } |> setF Reg.CTL_SP_PROF (half16 (profileBase (nextProfile s) s))
    |> setF Reg.CTL_PSTATE_SLOPE (half16 (openDiv ((nextProfile s).v * 100) ctlScale))
    |> setF Reg.CTL_PSTATE_ACC (half16 (openDiv ((nextProfile s).a * 10) ctlScale))

theorem runProfile_eq (s : State) : runProfile s =
    if (nextProfile s).x = scaledTarget s ∧ s.ctl.x ≠ scaledTarget s then setEvt .ctl 1 (profileShown s) else profileShown s := rfl

theorem runProfile_ctl (s : State) : (runProfile s).ctl = profileKept s := by
  rw [runProfile_eq]
  split
  · exact setEvt_ctl ..
  · rfl

theorem EngineRan.runProfile (s : State) : EngineRan 2 (profileMoves s) [.ctl, .fab] s (runProfile s) := by
  have hshown : Changes [.ctl] (oneOf engineRegs) s (profileShown s) :=
    (((((Changes.withCtl s (profileKept s)).trans (.showMode ..)).trans (.setF ..)).trans (.setF ..)).trans (.setF ..)).mono (by simp)
      (by simp [oneOf, engineRegs, Reg.CTL_SP_PROF, Reg.CTL_PSTATE_SLOPE, Reg.CTL_PSTATE_ACC]; tauto)
  have hchg : Changes [.ctl, .fab] (oneOf engineRegs) s (Machine.runProfile s) := by
    rw [runProfile_eq]
    exact .of_ite ((hshown.trans (.setEvt .ctl 1 _)).mono (by simp) (by simp [oneOf, engineRegs, EvtBlock.evt]; tauto))
      (hshown.mono (by simp) (fun _ => id))
  have hstat : reg (profileShown s) Reg.CTL_STAT = reg (Machine.showMode 2 (profileMoves s) s) Reg.CTL_STAT :=
    (reg_setF_other (by decide) _ _).trans ((reg_setF_other (by decide) _ _).trans (reg_setF_other (by decide) _ _))
  refine ⟨?_, by rw [runProfile_ctl]; rfl, hchg⟩
  rw [runProfile_eq]
  split
  · exact (reg_setEvt (by decide) 1 _).trans hstat
  · exact hstat

/-- R306: a profile that reaches its target sets its event. -/
theorem runProfile_arrives {s : State} (hx : (nextProfile s).x = scaledTarget s) (hne : s.ctl.x ≠ scaledTarget s) :
    regBit Reg.CTL_EVT 0 (runProfile s) = true ∧ bit Reg.CTL_STAT_PMOVE (runProfile s) = false := by
  refine ⟨?_, (EngineRan.runProfile s).pmove.trans (by simp [profileMoves, hx])⟩
  rw [runProfile_eq, if_pos ⟨hx, hne⟩]
  exact regBit_setEvt (b := .ctl) (by decide) (by decide) _

theorem EngineRan.runVoltage (e g : Int) (s : State) : EngineRan 1 false [.ctl] s (runVoltage e g s) where
  stat := (reg_setF_other (by decide) _ _).trans (reg_setF_other (by decide) _ _)
  ctl := rfl
  changes := ((((Changes.withCtl s _).trans (.showMode 1 false _)).trans (.setF Reg.CTL_SP_PROF _ _)).trans (.setF Reg.CTL_INTEG_INTEG _ _)).mono
    (by simp) (by simp [oneOf, engineRegs, Reg.CTL_SP_PROF, Reg.CTL_INTEG_INTEG]; tauto)

theorem EngineRan.showMode (mode : Nat) (moves : Bool) (s : State) : EngineRan mode moves [] s (showMode mode moves s) :=
  ⟨rfl, rfl, .showMode mode moves s⟩

theorem EngineRan.resetEngine (s : State) : EngineRan 0 false [.ctl] s (resetEngine s) where
  stat := (reg_setF_other (by decide) _ _).trans ((reg_setReg_other (by decide) _ _).trans (reg_setF_other (by decide) _ _))
  ctl := rfl
  changes := (((((Changes.showMode 0 false s).trans (.setF Reg.CTL_SP_PROF 0 _)).trans (.setReg Reg.CTL_PSTATE 0#32 _)).trans
    (.setF Reg.CTL_INTEG_INTEG 0 _)).trans (.withCtl _ _)).mono (by simp)
    (by simp [oneOf, engineRegs, Reg.CTL_SP_PROF, Reg.CTL_INTEG_INTEG]; tauto)

/-- The error and the gain of the voltage loop in their register (R331). -/
def showError (e g : Int) (s : State) : State := s |> setF Reg.CTL_VERR_ERR (half16 e) |> setF Reg.CTL_VERR_GAIN g.toNat

/-- The engine of the converter's state (R319). -/
def engineRun (e g : Int) (s : State) : State :=
  match cnvState s with
  | 3 | 4 => if busRegulation s then runVoltage e g (showError e g s) else runProfile s
  | 6 => showMode 3 false s
  | _ => resetEngine s

theorem engineRun_transfer {s : State} (hr : cnvState s = 3 ∨ cnvState s = 4) (hb : busRegulation s = false) (e g : Int) :
    engineRun e g s = runProfile s := by
  unfold engineRun
  rcases hr with hr | hr <;> rw [hr] <;> exact if_neg (by simp [hb])

theorem engineRun_regulating {s : State} (hr : cnvState s = 3 ∨ cnvState s = 4) (hb : busRegulation s = true) (e g : Int) :
    engineRun e g s = runVoltage e g (showError e g s) := by
  unfold engineRun
  rcases hr with hr | hr <;> rw [hr] <;> exact if_pos hb

theorem engineRun_stopping {s : State} (hr : cnvState s = 6) (e g : Int) : engineRun e g s = showMode 3 false s := by
  unfold engineRun
  rw [hr]
  rfl

theorem engineRun_resting {s : State} (hs : switching s = false) (e g : Int) : engineRun e g s = resetEngine s := by
  unfold engineRun
  split
  · next h => simp [switching, h] at hs
  · next h => simp [switching, h] at hs
  · next h => simp [switching, h] at hs
  · rfl

/-- A table copy stands in two states as the same (R314). -/
def TableKept (s t : State) : Prop :=
  bit Reg.CTL_STAT_LUTPEND t = bit Reg.CTL_STAT_LUTPEND s ∧ t.ctl.nent = s.ctl.nent ∧ t.ctl.table = s.ctl.table

theorem EngineRan.tableKept {mode : Nat} {moves : Bool} {ps : List Part} {s t : State} (h : EngineRan mode moves ps s t) : TableKept s t :=
  ⟨h.lutpend, by rw [h.ctl], by rw [h.ctl]⟩

/-- Whatever the converter's state, the engine leaves a table copy as it stands. -/
theorem engineRun_tableKept (e g : Int) (s : State) : TableKept s (engineRun e g s) := by
  by_cases hr : cnvState s = 3 ∨ cnvState s = 4
  · cases hb : busRegulation s with
    | false =>
      rw [engineRun_transfer hr hb]
      exact (EngineRan.runProfile s).tableKept
    | true =>
      rw [engineRun_regulating hr hb]
      obtain ⟨hpend, hnent, htable⟩ := (EngineRan.runVoltage e g (showError e g s)).tableKept
      have hstat : reg (showError e g s) Reg.CTL_STAT = reg s Reg.CTL_STAT := (reg_setF_other (by decide) _ _).trans (reg_setF_other (by decide) _ s)
      exact ⟨hpend.trans (bit_of_reg hstat), hnent, htable⟩
  · by_cases h6 : cnvState s = 6
    · rw [engineRun_stopping h6]
      exact (EngineRan.showMode 3 false s).tableKept
    · rw [engineRun_resting (by simp [switching]; tauto)]
      exact (EngineRan.resetEngine s).tableKept

end Sys2Proof.Machine
end

