-- ==== Sys2Proof/Proofs/ControlTick.lean ====
section
/-!
PROOFS. The control tick: the inputs it latches, the copy of the gain table, and the run of the engine (R301 to R306, R309 to R315, R319, R320, R326).
-/
namespace Sys2Proof.Machine

/-! ## The inputs of a tick -/

/-- The inputs that a tick latches, with the bus voltage that it shows (R304, R305). -/
def inputsTaken (vbs vmod : Nat) (itot : Int) (s : State) : State :=
  setReg Reg.CNV_VBS (BitVec.ofNat 32 (min vbs 65535)) { s with
    cnv := { s.cnv with vmod := vmod, busOk := s.cnv.busOk && getF Reg.CNV_BUS_BUSMIN s ≤ vbs }
    ctl := { s.ctl with lastTick := some s.now, stepped := false, itot := itot, trk := getF Reg.CTL_TRK_TRK s, evten := reg s Reg.CTL_EVTEN } }

/-- The reference of a tick: that of R261 where the voltage loop runs. -/
def tickReference (s : State) : Int := if busRegulation s && switching s then voltageReference s else 0

/-- The inputs of a tick with the reference that it shows. -/
def inputsShown (vbs vmod : Nat) (itot : Int) (s : State) : State :=
  let t := inputsTaken vbs vmod itot s
  setReg Reg.CNV_VREF (BitVec.ofNat 32 (clampI (tickReference t) 0 65535).toNat) t

/-- A table copy that is pending takes place (R314). -/
def tableTaken (s : State) : State := if bit Reg.CTL_STAT_LUTPEND s then copyTable s else s

/-- What a tick does before it looks at the fence of the engine. -/
def tickLatched (vbs vmod : Nat) (itot : Int) (s : State) : State := tableTaken (inputsShown vbs vmod itot s)

/-- The duty feed-forward, and the limits and the ratio that the summing stage goes by until the next tick (R315, R316). -/
def tickFed (vref : Int) (vbs vmod : Nat) (s : State) : State :=
  setF Reg.CTL_DFF_DFF (dutyFeedForward vref vbs vmod s) { s with
    cnv := { s.cnv with dff := dutyFeedForward vref vbs vmod s }
    ctl := { s.ctl with
      vbs := vbs, vmod := vmod, ratioNum := (moduleRatio vbs vmod s).1, ratioDen := (moduleRatio vbs vmod s).2
      lneg := getF Reg.CTL_LIM_NEG s, lpos := getF Reg.CTL_LIM_POS s } }

/-- What a tick does before its engine runs. -/
def tickReady (vbs vmod : Nat) (itot : Int) (s : State) : State :=
  tickFed (tickReference s) vbs vmod (tickLatched vbs vmod itot s)

/-! ### They leave alone what the engine computes from -/

theorem SameInputs.setReg {a : Nat} (ha : a ∈ tickRegs) (hne : a ≠ Reg.CTL_STAT) (v : Word) (s : State) : SameInputs s (setReg a v s) where
  view := congrArg (fun d : Bool => { engineView s with degraded := d }) (bit_of_reg (reg_setReg_other hne.symm v s))
  reg b hb := reg_setReg_other (fun h : b = a => hb (h ▸ ha)) v s

theorem SameInputs.inputsTaken (vbs vmod : Nat) (itot : Int) (s : State) : SameInputs s (inputsTaken vbs vmod itot s) :=
  .trans (t := { s with cnv := (Machine.inputsTaken vbs vmod itot s).cnv, ctl := (Machine.inputsTaken vbs vmod itot s).ctl }) ⟨rfl, fun _ _ => rfl⟩
    (.setReg (by decide) (by decide) _ _)

theorem SameInputs.inputsShown (vbs vmod : Nat) (itot : Int) (s : State) : SameInputs s (inputsShown vbs vmod itot s) :=
  (SameInputs.inputsTaken vbs vmod itot s).trans (.setReg (by decide) (by decide) _ _)

theorem SameInputs.tableTaken (s : State) : SameInputs s (tableTaken s) := by
  unfold Machine.tableTaken
  split
  · exact ⟨congrArg (fun d : Bool => { engineView s with degraded := d }) (bit_setF_beside (by decide) (by decide) _ _),
      fun a ha => reg_setB_other (fun h => ha (by rw [h]; decide)) _ _⟩
  · exact ⟨rfl, fun _ _ => rfl⟩

theorem SameInputs.tickLatched (vbs vmod : Nat) (itot : Int) (s : State) : SameInputs s (tickLatched vbs vmod itot s) :=
  (SameInputs.inputsShown vbs vmod itot s).trans (.tableTaken _)

theorem SameInputs.tickFed (vref : Int) (vbs vmod : Nat) (s : State) : SameInputs s (tickFed vref vbs vmod s) :=
  .trans (t := { s with cnv := (Machine.tickFed vref vbs vmod s).cnv, ctl := (Machine.tickFed vref vbs vmod s).ctl }) ⟨rfl, fun _ _ => rfl⟩
    (.setReg (by decide) (by decide) _ _)

theorem SameInputs.tickReady (vbs vmod : Nat) (itot : Int) (s : State) : SameInputs s (tickReady vbs vmod itot s) :=
  (SameInputs.tickLatched vbs vmod itot s).trans (.tickFed ..)

theorem SameInputs.showError (e g : Int) (s : State) : SameInputs s (showError e g s) :=
  (SameInputs.setReg (by decide) (by decide) _ s).trans (.setReg (by decide) (by decide) _ _)

theorem SameInputs.tickReference {s t : State} (h : SameInputs s t) : tickReference t = Machine.tickReference s := by
  unfold Machine.tickReference
  rw [h.busRegulation, h.switching, h.voltageReference]

theorem SameInputs.shadowTable {s t : State} (h : SameInputs s t) : shadowTable t = Machine.shadowTable s := by
  refine List.map_congr_left (fun k _ => h.reg _ ?_)
  have hbelow : ∀ a ∈ tickRegs, a < Reg.CTL_LUT 0 := by decide
  exact fun hk => absurd (hbelow _ hk) (Nat.not_lt.2 (Nat.add_le_add_left (Nat.zero_le _) _))

/-! ### What they change -/

theorem Changes.inputsTaken (vbs vmod : Nat) (itot : Int) (s : State) :
    Changes [.cnv, .ctl] (oneOf [Reg.CNV_VBS]) s (inputsTaken vbs vmod itot s) :=
  ((Changes.withCnvCtl s _ _).trans (.setReg Reg.CNV_VBS _ _)).mono (by simp) (by simp [oneOf])

theorem Changes.inputsShown (vbs vmod : Nat) (itot : Int) (s : State) :
    Changes [.cnv, .ctl] (oneOf [Reg.CNV_VBS, Reg.CNV_VREF]) s (inputsShown vbs vmod itot s) :=
  ((Changes.inputsTaken vbs vmod itot s).trans (.setReg Reg.CNV_VREF _ _)).mono (by simp) (by simp [oneOf])

theorem Changes.tableTaken (s : State) : Changes [.ctl] (oneOf [Reg.CTL_STAT]) s (tableTaken s) :=
  .of_ite (((Changes.withCtl s _).trans (.setB Reg.CTL_STAT_LUTPEND false _)).mono (by simp) (by simp [oneOf, Reg.CTL_STAT_LUTPEND])) (.refl ..)

theorem Changes.tickLatched (vbs vmod : Nat) (itot : Int) (s : State) :
    Changes [.cnv, .ctl] (oneOf [Reg.CNV_VBS, Reg.CNV_VREF, Reg.CTL_STAT]) s (tickLatched vbs vmod itot s) :=
  ((Changes.inputsShown vbs vmod itot s).trans (.tableTaken _)).mono (by simp) (by simp [oneOf]; tauto)

theorem Changes.tickFed (vref : Int) (vbs vmod : Nat) (s : State) : Changes [.cnv, .ctl] (oneOf [Reg.CTL_DFF]) s (tickFed vref vbs vmod s) :=
  ((Changes.withCnvCtl s _ _).trans (.setF Reg.CTL_DFF_DFF _ _)).mono (by simp) (by simp [oneOf, Reg.CTL_DFF_DFF])

theorem Changes.tickReady (vbs vmod : Nat) (itot : Int) (s : State) : Changes [.cnv, .ctl] (oneOf tickRegs) s (tickReady vbs vmod itot s) :=
  ((Changes.tickLatched vbs vmod itot s).trans (.tickFed ..)).mono (by simp) (by simp [oneOf, tickRegs]; tauto)

theorem Changes.showError (e g : Int) (s : State) : Changes [] (oneOf tickRegs) s (showError e g s) :=
  ((Changes.setF ..).trans (.setF ..)).mono (by simp) (by simp [oneOf, tickRegs, Reg.CTL_VERR_ERR, Reg.CTL_VERR_GAIN])

/-- A tick writes registers of CNV and CTL alone. -/
theorem Changes.tickRan {ps qs : List Part} {s u t : State} (h : Changes [.cnv, .ctl] (oneOf tickRegs) s u) (h' : Changes ps (oneOf engineRegs) u t)
    (hq : ∀ p ∈ [.cnv, .ctl] ++ ps, p ∈ qs) : Changes qs (inBlocks [6, 7]) s t :=
  (h.trans h').mono hq (fun a ha => List.forall_mem_append.2
    (by decide : (∀ a ∈ tickRegs, a / 0x800 ∈ [6, 7]) ∧ ∀ a ∈ engineRegs, a / 0x800 ∈ [6, 7]) a (List.mem_append.2 ha))

/-! ### What they show and keep -/

theorem getF_of_word {f : Field} (hlo : f.lo = 0) (hw : f.w = 32) {v : Nat} (hv : v < 2 ^ 32) {t : State} (h : reg t f.addr = BitVec.ofNat 32 v) :
    getF f t = v := by
  rw [getF, h, hlo, hw, getBits, BitVec.ushiftRight_zero, BitVec.toNat_ofNat, Nat.mod_mod, Nat.mod_eq_of_lt hv]

section
variable (vbs vmod : Nat) (itot : Int) (s : State)

theorem getF_vbs_tickReady : getF Reg.CNV_VBS_VBS (tickReady vbs vmod itot s) = min vbs 65535 := by
  refine getF_vbs_of_reg ?_
  calc reg (tickReady vbs vmod itot s) Reg.CNV_VBS
      = reg (inputsShown vbs vmod itot s) Reg.CNV_VBS := ((Changes.tickFed ..).reg_other (by decide)).trans ((Changes.tableTaken _).reg_other (by decide))
    _ = reg (inputsTaken vbs vmod itot s) Reg.CNV_VBS := reg_setReg_other (by decide) _ _
    _ = BitVec.ofNat 32 (min vbs 65535) := reg_setReg_same ..

theorem getF_vref_tickReady : getF Reg.CNV_VREF_VREF (tickReady vbs vmod itot s) = (clampI (tickReference s) 0 65535).toNat := by
  have hmax : (clampI (tickReference s) 0 65535).toNat < 2 ^ 32 := by
    have hclamp : clampI (tickReference s) 0 65535 ≤ 65535 := clampI_le (by decide)
    omega
  refine getF_of_word rfl rfl hmax ?_
  rw [← (SameInputs.inputsTaken vbs vmod itot s).tickReference]
  calc reg (tickReady vbs vmod itot s) Reg.CNV_VREF
      = reg (inputsShown vbs vmod itot s) Reg.CNV_VREF := ((Changes.tickFed ..).reg_other (by decide)).trans ((Changes.tableTaken _).reg_other (by decide))
    _ = BitVec.ofNat 32 (clampI (tickReference (inputsTaken vbs vmod itot s)) 0 65535).toNat := reg_setReg_same ..

theorem nth_shadowTable {k : Nat} (hk : k < 64) : nth (shadowTable s) k 0#32 = reg s (Reg.CTL_LUT k) := by
  simp [nth, shadowTable, hk]

theorem tableTaken_ctl : (tableTaken s).ctl = { s.ctl with table := (tableTaken s).ctl.table, nent := (tableTaken s).ctl.nent } := by
  unfold tableTaken
  split <;> rfl

theorem tableTaken_none {s : State} (h : bit Reg.CTL_STAT_LUTPEND s = false) : tableTaken s = s := if_neg (by simp [h])

theorem tableTaken_pending {s : State} (h : bit Reg.CTL_STAT_LUTPEND s = true) : tableTaken s = copyTable s := if_pos h

theorem lutpend_inputsShown : bit Reg.CTL_STAT_LUTPEND (inputsShown vbs vmod itot s) = bit Reg.CTL_STAT_LUTPEND s :=
  bit_of_reg ((Changes.inputsShown vbs vmod itot s).reg_other (by decide))

theorem fen_tickLatched : bit Reg.CTL_STAT_FEN (tickLatched vbs vmod itot s) = bit Reg.CTL_STAT_FEN s := by
  have htable (t : State) : bit Reg.CTL_STAT_FEN (tableTaken t) = bit Reg.CTL_STAT_FEN t := by
    unfold tableTaken
    split
    · exact bit_setF_beside (by decide) (by decide) _ _
    · rfl
  exact (htable _).trans (bit_of_reg ((Changes.inputsShown vbs vmod itot s).reg_other (by decide)))

/-- The hidden state of the engine as a tick latches it (R302, R304, R305). -/
theorem tickLatched_ctl : (tickLatched vbs vmod itot s).ctl = { s.ctl with
    table := (tickLatched vbs vmod itot s).ctl.table, nent := (tickLatched vbs vmod itot s).ctl.nent, lastTick := some s.now, stepped := false
    itot := itot, trk := getF Reg.CTL_TRK_TRK s, evten := reg s Reg.CTL_EVTEN } := tableTaken_ctl (inputsShown vbs vmod itot s)

theorem tickReady_itot : (tickReady vbs vmod itot s).ctl.itot = itot := by
  show (tickLatched vbs vmod itot s).ctl.itot = itot
  rw [tickLatched_ctl]

theorem tickReady_lastTick : (tickReady vbs vmod itot s).ctl.lastTick = some s.now := by
  show (tickLatched vbs vmod itot s).ctl.lastTick = some s.now
  rw [tickLatched_ctl]

variable {s}

/-- R314: without a pending copy the table in use stays. -/
theorem tickLatched_table_none (h : bit Reg.CTL_STAT_LUTPEND s = false) :
    (tickLatched vbs vmod itot s).ctl.table = s.ctl.table ∧ (tickLatched vbs vmod itot s).ctl.nent = s.ctl.nent := by
  rw [tickLatched, tableTaken_none ((lutpend_inputsShown ..).trans h)]
  exact ⟨rfl, rfl⟩

/-- R314: a pending copy takes the table and its entries, and is no longer pending. -/
theorem tickReady_table_pending (h : bit Reg.CTL_STAT_LUTPEND s = true) : bit Reg.CTL_STAT_LUTPEND (tickReady vbs vmod itot s) = false ∧
    (tickReady vbs vmod itot s).ctl.nent = getF Reg.CTL_LUTCFG_NENT s ∧ (tickReady vbs vmod itot s).ctl.table = shadowTable s := by
  have hshown := SameInputs.inputsShown vbs vmod itot s
  have hcopy : tickLatched vbs vmod itot s = copyTable (inputsShown vbs vmod itot s) := tableTaken_pending ((lutpend_inputsShown ..).trans h)
  have hpend : bit Reg.CTL_STAT_LUTPEND (tickLatched vbs vmod itot s) = false := by rw [hcopy]; exact bit_setB_same (by decide) rfl _ _
  refine ⟨(bit_of_reg ((Changes.tickFed ..).reg_other (by decide))).trans hpend, ?_, ?_⟩
  · show (tickLatched vbs vmod itot s).ctl.nent = _
    rw [hcopy]
    exact hshown.getF (by decide)
  · show (tickLatched vbs vmod itot s).ctl.table = _
    rw [hcopy]
    exact hshown.shadowTable

end

/-- What the voltage loop leaves, run from the inputs of a tick (R311). -/
theorem runVoltage_done {u : State} (hu : SameInputs s u) (hchg : Changes [.cnv, .ctl] (oneOf tickRegs) s u) (e g : Int) :
    let t := runVoltage e g (showError e g u)
    t.ctl.integ = nextIntegrator e s ∧ t.ctl.base = voltageBase e g (nextIntegrator e s) s ∧ getF Reg.CTL_STAT_MODE t = 1 ∧
    getF Reg.CTL_VERR_ERR t = half16 e ∧ getF Reg.CNV_VREF_VREF t = getF Reg.CNV_VREF_VREF u ∧ t.ctl.x = s.ctl.x ∧
    Changes [.cnv, .ctl] (inBlocks [6, 7]) s t := by
  have hran := EngineRan.runVoltage e g (showError e g u)
  have hsame : SameInputs s (showError e g u) := hu.trans (.showError e g u)
  have hinteg := hsame.nextIntegrator e
  refine ⟨hinteg, ?_, hran.mode_shown (by decide), ?_, ?_, congrArg (fun w => w.profile.x) hsame.view, ?_⟩
  · rw [← hinteg, ← hsame.voltageBase]
    rfl
  · calc getF Reg.CTL_VERR_ERR (runVoltage e g (showError e g u))
        = getF Reg.CTL_VERR_ERR (setF Reg.CTL_VERR_ERR (half16 e) u) :=
          (getF_of_reg (hran.reg_other (by decide))).trans (getF_setF_beside _ _ _ _ (by decide) (by decide))
      _ = half16 e := (getF_setF_same _ _ _ (by decide)).trans (Nat.mod_eq_of_lt (half16_lt e))
  · exact (getF_of_reg (hran.reg_other (by decide))).trans (getF_of_reg ((reg_setF_other (by decide) _ _).trans (reg_setF_other (by decide) _ _)))
  · exact ((hchg.trans (.showError e g u)).mono (by simp) (by simp)).tickRan hran.changes (by simp)

/-! ## The tick -/

/-- No table comes into use, or one that rises (R326). -/
def tableRises (s : State) : Prop := bit Reg.CTL_STAT_LUTPEND s = false ∨ bit Reg.CTL_CFG_LUTEN s = false ∨
  tableFalls (getF Reg.CTL_LUTCFG_NENT s) (shadowTable s) = false

/-- R326: a copy of a table that rises is no host error. -/
theorem tableRises_copied {s : State} (h : tableRises s) :
    (bit Reg.CTL_STAT_LUTPEND s && bit Reg.CTL_CFG_LUTEN s && tableFalls (tableTaken s).ctl.nent (tableTaken s).ctl.table) = false := by
  cases hp : bit Reg.CTL_STAT_LUTPEND s with
  | false => rfl
  | true =>
    rw [tableTaken_pending hp]
    obtain hnone | hoff | hrise := h
    · simp [hp] at hnone
    · simp [hoff]
    · have hcopy : tableFalls (copyTable s).ctl.nent (copyTable s).ctl.table = false := hrise
      simp [hcopy]

theorem tableRises_inputsShown {s : State} (h : tableRises s) (vbs vmod : Nat) (itot : Int) : tableRises (inputsShown vbs vmod itot s) := by
  have hshown := SameInputs.inputsShown vbs vmod itot s
  unfold tableRises
  rw [lutpend_inputsShown, hshown.bit (f := Reg.CTL_CFG_LUTEN) (by decide), hshown.getF (f := Reg.CTL_LUTCFG_NENT) (by decide), hshown.shadowTable]
  exact h

theorem exec_controlTick {s : State} (hp : s.sys.phase = .active) (hd : tickDue s = true) (vbs vmod : Nat) (itot : Int) :
    exec (.controlTick vbs vmod itot) s =
      let u := inputsShown vbs vmod itot s
      let t := tickLatched vbs vmod itot s
      let vref := tickReference (inputsTaken vbs vmod itot s)
      if bit Reg.CTL_STAT_LUTPEND u && bit Reg.CTL_CFG_LUTEN u && tableFalls t.ctl.nent t.ctl.table then .next (upset t)
      else if bit Reg.CTL_STAT_FEN t then .next t
      else .next (engineRun (vref - vbs) (lutGain (vref - vbs) t) (tickFed vref vbs vmod t)) :=
  if_neg (by simp [hp, hd])

/-- A tick that is taken with a table that rises: without a fence the engine of the converter's state runs. -/
theorem exec_controlTick_rising {s : State} (hp : s.sys.phase = .active) (hd : tickDue s = true) (hr : tableRises s) (vbs vmod : Nat) (itot : Int) :
    exec (.controlTick vbs vmod itot) s =
      if bit Reg.CTL_STAT_FEN s then .next (tickLatched vbs vmod itot s)
      else .next (engineRun (tickReference s - vbs) (lutGain (tickReference s - vbs) (tickLatched vbs vmod itot s)) (tickReady vbs vmod itot s)) := by
  have hrise : (_ && tableFalls (tickLatched vbs vmod itot s).ctl.nent (tickLatched vbs vmod itot s).ctl.table) = false :=
    tableRises_copied (tableRises_inputsShown hr vbs vmod itot)
  rw [exec_controlTick hp hd]
  dsimp only
  rw [if_neg (by rw [hrise]; decide), fen_tickLatched, (SameInputs.inputsTaken vbs vmod itot s).tickReference]
  rfl

/-- A tick is taken, the engine is not fenced, and no table comes into use that does not rise. -/
def TickRuns (s : State) : Prop := s.sys.phase = .active ∧ tickDue s = true ∧ bit Reg.CTL_STAT_FEN s = false ∧ tableRises s

section
variable {s : State} (hr : TickRuns s) (vbs vmod : Nat) (itot : Int)
include hr

theorem TickRuns.exec_eq : exec (.controlTick vbs vmod itot) s =
    .next (engineRun (tickReference s - vbs) (lutGain (tickReference s - vbs) (tickLatched vbs vmod itot s)) (tickReady vbs vmod itot s)) := by
  obtain ⟨hp, hd, hf, hrise⟩ := hr
  rw [exec_controlTick_rising hp hd hrise, if_neg (by simp [hf])]

theorem TickRuns.exec_transfer (hb : busRegulation s = false) (hc : cnvState s = 3 ∨ cnvState s = 4) :
    exec (.controlTick vbs vmod itot) s = .next (runProfile (tickReady vbs vmod itot s)) := by
  have hsame := SameInputs.tickReady vbs vmod itot s
  rw [hr.exec_eq, engineRun_transfer (by rwa [hsame.cnvState]) (by rwa [hsame.busRegulation])]

/-- R306, R319: the transfer class runs the profile. -/
theorem controlTick_transfer (hb : busRegulation s = false) (hc : cnvState s = 3 ∨ cnvState s = 4) : ∃ t, exec (.controlTick vbs vmod itot) s = .next t ∧
    t.ctl.x = (nextProfile s).x ∧ t.ctl.v = (nextProfile s).v ∧ t.ctl.a = (nextProfile s).a ∧ t.ctl.base = profileBase (nextProfile s) s ∧
    getF Reg.CTL_STAT_MODE t = 2 ∧ t.ctl.integ = s.ctl.integ ∧ t.ctl.itot = itot ∧ t.ctl.lastTick = some s.now ∧
    getF Reg.CNV_VBS_VBS t = min vbs 65535 ∧ Changes [.cnv, .ctl, .fab] (inBlocks [6, 7]) s t := by
  have hsame := SameInputs.tickReady vbs vmod itot s
  have hran := EngineRan.runProfile (tickReady vbs vmod itot s)
  refine ⟨_, hr.exec_transfer vbs vmod itot hb hc, ?_⟩
  rw [runProfile_ctl, profileKept, hsame.nextProfile, hsame.profileBase]
  exact ⟨rfl, rfl, rfl, rfl, hran.mode_shown (by decide), congrArg EngineView.integ hsame.view, tickReady_itot .., tickReady_lastTick ..,
    (getF_of_reg (hran.reg_other (by decide))).trans (getF_vbs_tickReady ..), (Changes.tickReady ..).tickRan hran.changes (by simp)⟩

/-- R306: the profile reaches its target. -/
theorem controlTick_arrives (hb : busRegulation s = false) (hc : cnvState s = 3 ∨ cnvState s = 4) (hx : (nextProfile s).x = scaledTarget s)
    (hne : s.ctl.x ≠ scaledTarget s) : ∃ t, exec (.controlTick vbs vmod itot) s = .next t ∧ regBit Reg.CTL_EVT 0 t = true ∧
    bit Reg.CTL_STAT_PMOVE t = false := by
  have hsame := SameInputs.tickReady vbs vmod itot s
  have hx0 : (tickReady vbs vmod itot s).ctl.x = s.ctl.x := congrArg (fun w => w.profile.x) hsame.view
  refine ⟨_, hr.exec_transfer vbs vmod itot hb hc, runProfile_arrives ?_ ?_⟩
  · rw [hsame.nextProfile, hsame.scaledTarget, hx]
  · rw [hx0, hsame.scaledTarget]
    exact hne

/-- R311, R319: bus regulation runs the voltage loop on the reference minus VBS. -/
theorem controlTick_regulating (hb : busRegulation s = true) (hc : cnvState s = 3 ∨ cnvState s = 4) (hp : bit Reg.CTL_STAT_LUTPEND s = false) : ∃ t,
    exec (.controlTick vbs vmod itot) s = .next t ∧ t.ctl.integ = nextIntegrator (voltageReference s - vbs) s ∧
    t.ctl.base = voltageBase (voltageReference s - vbs) (lutGain (voltageReference s - vbs) s) (nextIntegrator (voltageReference s - vbs) s) s ∧
    getF Reg.CTL_STAT_MODE t = 1 ∧ getF Reg.CTL_VERR_ERR t = half16 (voltageReference s - vbs) ∧
    getF Reg.CNV_VREF_VREF t = (clampI (voltageReference s) 0 65535).toNat ∧ t.ctl.x = s.ctl.x ∧ Changes [.cnv, .ctl] (inBlocks [6, 7]) s t := by
  have hs : switching s = true := by rcases hc with hc | hc <;> simp [switching, hc]
  have href : tickReference s = voltageReference s := if_pos (by simp [hb, hs])
  obtain ⟨htable, hnent⟩ := tickLatched_table_none vbs vmod itot hp
  have hgain := (SameInputs.tickLatched vbs vmod itot s).lutGain htable hnent (voltageReference s - vbs)
  have hready := SameInputs.tickReady vbs vmod itot s
  have hnext := hr.exec_eq vbs vmod itot
  rw [engineRun_regulating (by rwa [hready.cnvState]) (by rwa [hready.busRegulation]), href, hgain] at hnext
  rw [← href, ← getF_vref_tickReady vbs vmod itot s, href]
  exact ⟨_, hnext, runVoltage_done hready (Changes.tickReady ..) _ _⟩

/-- R276, R319: in STOPPING the engine is frozen. -/
theorem controlTick_stopping (hc : cnvState s = 6) : ∃ t, exec (.controlTick vbs vmod itot) s = .next t ∧ getF Reg.CTL_STAT_MODE t = 3 ∧
    t.ctl.x = s.ctl.x ∧ t.ctl.v = s.ctl.v ∧ t.ctl.a = s.ctl.a ∧ t.ctl.integ = s.ctl.integ ∧ t.ctl.base = s.ctl.base ∧
    Changes [.cnv, .ctl] (inBlocks [6, 7]) s t := by
  have hsame := SameInputs.tickReady vbs vmod itot s
  have hran := EngineRan.showMode 3 false (tickReady vbs vmod itot s)
  have hnext := hr.exec_eq vbs vmod itot
  rw [engineRun_stopping (by rwa [hsame.cnvState])] at hnext
  exact ⟨_, hnext, hran.mode_shown (by decide), congrArg (fun w => w.profile.x) hsame.view, congrArg (fun w => w.profile.v) hsame.view,
    congrArg (fun w => w.profile.a) hsame.view, congrArg EngineView.integ hsame.view, congrArg EngineView.base hsame.view,
    (Changes.tickReady ..).tickRan hran.changes (by simp)⟩

/-- R319: in a state without switching the engine is in reset. -/
theorem controlTick_resting (hs : switching s = false) : ∃ t, exec (.controlTick vbs vmod itot) s = .next t ∧ getF Reg.CTL_STAT_MODE t = 0 ∧
    t.ctl.x = 0 ∧ t.ctl.v = 0 ∧ t.ctl.a = 0 ∧ t.ctl.integ = 0 ∧ t.ctl.base = 0 ∧ Changes [.cnv, .ctl] (inBlocks [6, 7]) s t := by
  have hsame := SameInputs.tickReady vbs vmod itot s
  have hran := EngineRan.resetEngine (tickReady vbs vmod itot s)
  have hnext := hr.exec_eq vbs vmod itot
  rw [engineRun_resting (by rwa [hsame.switching])] at hnext
  exact ⟨_, hnext, hran.mode_shown (by decide), rfl, rfl, rfl, rfl, rfl, (Changes.tickReady ..).tickRan hran.changes (by simp)⟩

/-- R314: a pending table copy takes place, whatever the engine does. -/
theorem controlTick_copies (hp : bit Reg.CTL_STAT_LUTPEND s = true) : ∃ t, exec (.controlTick vbs vmod itot) s = .next t ∧
    bit Reg.CTL_STAT_LUTPEND t = false ∧ t.ctl.nent = getF Reg.CTL_LUTCFG_NENT s ∧ ∀ k, k < 64 → nth t.ctl.table k 0#32 = reg s (Reg.CTL_LUT k) := by
  obtain ⟨hpend, hnent, htable⟩ := engineRun_tableKept (tickReference s - vbs)
    (lutGain (tickReference s - vbs) (tickLatched vbs vmod itot s)) (tickReady vbs vmod itot s)
  obtain ⟨hpend0, hnent0, htable0⟩ := tickReady_table_pending vbs vmod itot hp
  refine ⟨_, hr.exec_eq vbs vmod itot, hpend.trans hpend0, hnent.trans hnent0, fun k hk => ?_⟩
  rw [htable, htable0, nth_shadowTable s hk]

end

/-- R303, R320: a fenced engine keeps everything but a pending table copy. -/
theorem controlTick_fenced {s : State} (vbs vmod : Nat) (itot : Int) (hp : s.sys.phase = .active) (hd : tickDue s = true)
    (hf : bit Reg.CTL_STAT_FEN s = true) (hr : tableRises s) : ∃ t, exec (.controlTick vbs vmod itot) s = .next t ∧
    t.ctl = { s.ctl with table := t.ctl.table, nent := t.ctl.nent, lastTick := some s.now, stepped := false, itot := itot
                         trk := getF Reg.CTL_TRK_TRK s, evten := reg s Reg.CTL_EVTEN } ∧
    (bit Reg.CTL_STAT_LUTPEND s = false → t.ctl.table = s.ctl.table ∧ t.ctl.nent = s.ctl.nent) ∧
    t.cnv.dff = s.cnv.dff ∧ Changes [.cnv, .ctl] (oneOf [Reg.CNV_VBS, Reg.CNV_VREF, Reg.CTL_STAT]) s t := by
  have hcnv : (tickLatched vbs vmod itot s).cnv = (inputsShown vbs vmod itot s).cnv := (Changes.tableTaken _).part_eq .cnv (by decide)
  exact ⟨_, (exec_controlTick_rising hp hd hr vbs vmod itot).trans (if_pos hf), tickLatched_ctl .., tickLatched_table_none vbs vmod itot,
    by rw [hcnv]; rfl, .tickLatched ..⟩

/-- R301, R302: a tick that is not due, or outside ACTIVE, is none. -/
theorem controlTick_none {s : State} (vbs vmod : Nat) (itot : Int) (h : s.sys.phase ≠ .active ∨ tickDue s = false) :
    exec (.controlTick vbs vmod itot) s = .next s := if_pos h

/-- Settles O26: what a tick latches leaves alone what the engine computes from, so each clause is the engine of the converter's state, run from `s`. -/
theorem controlTick : Obligations.ControlTick := by
  unfold Obligations.ControlTick
  intro s
  exact ⟨fun vbs vmod i hr hb hc => controlTick_transfer hr vbs vmod i hb hc,
    fun vbs vmod i hr hb hc hx hne => controlTick_arrives hr vbs vmod i hb hc hx hne,
    fun vbs vmod i hr hb hc hp => controlTick_regulating hr vbs vmod i hb hc hp,
    fun vbs vmod i hr hc => controlTick_stopping hr vbs vmod i hc,
    fun vbs vmod i hr hs => controlTick_resting hr vbs vmod i hs,
    fun vbs vmod i hr hp => controlTick_copies hr vbs vmod i hp,
    fun vbs vmod i hp hd hf hr => controlTick_fenced vbs vmod i hp hd hf hr, controlTick_none⟩

end Sys2Proof.Machine
end

