-- ==== Sys2Proof/Proofs/CheckFunctions.lean ====
section
/-!
PROOFS. The check functions of R352 and R370 at the spec's check value.
-/
namespace Sys2Proof.Machine

set_option maxRecDepth 20000 in
/-- Settles O33: the three functions are run on the nine digits. -/
theorem checkFunctions : Obligations.CheckFunctions := by
  unfold Obligations.CheckFunctions
  exact ⟨by decide, by decide, by decide⟩

end Sys2Proof.Machine
end

