-- ==== Sys2Proof/Proofs/LineCode.lean ====
section
/-!
PROOFS. The line code (R336-R338, R350): what a receiver whose descrambler stands at the sender's scrambler takes from the symbol pairs of codes and
groups, and the bytes that it puts together from the groups of a frame.
-/
namespace Sys2Proof.Machine

/-! ## Groups and bytes -/

theorem testBit_group (a b c : Bool) : (List.range 3).map (b2n a + 2 * b2n b + 4 * b2n c).testBit = [a, b, c] := by
  cases a <;> cases b <;> cases c <;> decide

/-- The groups of bits spell the bits again, and after them the padding of the last group. -/
theorem bits_isPrefix_groupsBits (l : List Bool) : l <+: groupsBits (bitsGroups l) := by
  induction l using bitsGroups.induct with
  | case1 => exact List.nil_prefix
  | case2 a => exact ⟨[false, false], by cases a <;> decide⟩
  | case3 a b => exact ⟨[false], by cases a <;> cases b <;> decide⟩
  | case4 a b c t ih =>
    have hsplit : groupsBits (bitsGroups (a :: b :: c :: t)) = [a, b, c] ++ groupsBits (bitsGroups t) := by
      simp [bitsGroups, groupsBits, ← testBit_group a b c]
    rw [hsplit]
    exact (List.prefix_append_right_inj [a, b, c]).2 ih

theorem length_bitsGroups (l : List Bool) : (bitsGroups l).length = (l.length + 2) / 3 := by
  induction l using bitsGroups.induct with
  | case1 => rfl
  | case2 | case3 => simp [bitsGroups]
  | case4 a b c t ih => simp only [bitsGroups, List.length_cons, ih]; omega

theorem b2n_lt (b : Bool) : b2n b < 2 := by cases b <;> decide

theorem lt_of_mem_bitsGroups (l : List Bool) : ∀ g ∈ bitsGroups l, g < 8 := by
  induction l using bitsGroups.induct with
  | case1 => simp [bitsGroups]
  | case2 a => have := b2n_lt a; simp only [bitsGroups, List.mem_singleton, forall_eq]; omega
  | case3 a b => have := b2n_lt a; have := b2n_lt b; simp only [bitsGroups, List.mem_singleton, forall_eq]; omega
  | case4 a b c t ih =>
    have := b2n_lt a; have := b2n_lt b; have := b2n_lt c
    rw [bitsGroups, List.forall_mem_cons]
    exact ⟨by omega, ih⟩

theorem length_bytesBits (bs : List Byte) : (bytesBits bs).length = 8 * bs.length := by
  induction bs with
  | nil => rfl
  | cons b t ih => simp only [bytesBits, List.flatMap_cons, List.length_append, List.length_map, List.length_range, List.length_cons] at ih ⊢; omega

/-- A byte is put together again from its bits. -/
theorem bitsByte_bits (b : Byte) : bitsByte ((List.range 8).map b.getLsbD) = b := by
  revert b; decide

theorem bitsBytes_bytesBits (bs : List Byte) (pad : List Bool) : bitsBytes bs.length (bytesBits bs ++ pad) = bs := by
  induction bs with
  | nil => rfl
  | cons b t ih =>
    have hlen : ((List.range 8).map b.getLsbD).length = 8 := by simp
    have hbits : bytesBits (b :: t) ++ pad = (List.range 8).map b.getLsbD ++ (bytesBits t ++ pad) := by simp [bytesBits]
    rw [hbits, List.length_cons, bitsBytes, List.take_left' hlen, List.drop_left' hlen, bitsByte_bits, ih]

/-- R337, R350: the groups of a frame's bytes spell the bytes, and the padding of the last group is fewer than eight bits. -/
theorem groupsBytes_bitsGroups (bs : List Byte) : groupsBytes (bitsGroups (bytesBits bs)) = bs := by
  obtain ⟨pad, hpad⟩ := bits_isPrefix_groupsBits (bytesBits bs)
  have hcount : 3 * (bitsGroups (bytesBits bs)).length / 8 = bs.length := by rw [length_bitsGroups, length_bytesBits]; omega
  rw [groupsBytes, hcount, ← hpad, bitsBytes_bytesBits]

/-! ## Symbol pairs -/

theorem pairGroup_groupPair {g : Nat} (h : g < 8) : pairGroup (groupPair g) = some g := by
  have hall : ∀ k : Fin 8, pairGroup (groupPair k) = some k.val := by decide
  exact hall ⟨g, h⟩

theorem scramblerGroup_lt (x : BitVec 23) : (scramblerGroup x).1 < 8 := by
  have := b2n_lt (scramblerBit x)
  have := b2n_lt (scramblerBit (scramblerNext x))
  have := b2n_lt (scramblerBit (scramblerNext (scramblerNext x)))
  simp only [scramblerGroup]
  omega

/-- The group of a scrambled pair (R336, R337). -/
theorem pairGroup_scrambled (x : BitVec 23) (g : Nat) : pairGroup (groupPair (g % 8 ^^^ (scramblerGroup x).1)) = some (g % 8 ^^^ (scramblerGroup x).1) :=
  pairGroup_groupPair (Nat.xor_lt_two_pow (n := 3) (Nat.mod_lt g (by decide)) (scramblerGroup_lt x))

/-! ## A receiver in step with the sender -/

/-- What a receiver whose descrambler stands at the sender's scrambler makes of a line item. -/
def Receiver.takeItem (i : LineItem) (r : Receiver) : Receiver × List FrameEnd :=
  let r1 := { r with scr := (scramblerGroup r.scr).2 }
  match i with
  | .code c => r1.takeCode (c % 8)
  | .group g => (r1.takeGroup (g % 8), [])

/-- What it makes of a line: the receiver after it, and the frames that ended on it. -/
def Receiver.takeItems : List LineItem → Receiver → Receiver × List FrameEnd
  | [], r => (r, [])
  | i :: t, r => ((Receiver.takeItems t (r.takeItem i).1).1, (r.takeItem i).2 ++ (Receiver.takeItems t (r.takeItem i).1).2)

theorem takePairs_append (ps qs : List Pair) (r : Receiver) :
    r.takePairs (ps ++ qs) = ((Receiver.takePairs qs (r.takePairs ps).1).1, (r.takePairs ps).2 ++ (Receiver.takePairs qs (r.takePairs ps).1).2) := by
  induction ps generalizing r with
  | nil => rfl
  | cons p t ih => simp [Receiver.takePairs, ih]

theorem takeItems_append (is js : List LineItem) (r : Receiver) :
    r.takeItems (is ++ js) = ((Receiver.takeItems js (r.takeItems is).1).1, (r.takeItems is).2 ++ (Receiver.takeItems js (r.takeItems is).1).2) := by
  induction is generalizing r with
  | nil => rfl
  | cons p t ih => simp [Receiver.takeItems, ih]

/-- The pairs of an item give the receiver the item: scrambling twice with the same bits gives back the group. -/
theorem takePairs_itemPairs {r : Receiver} (h : r.pre = false) (i : LineItem) : r.takePairs (itemPairs r.scr i).1 = r.takeItem i := by
  obtain ⟨x, pre, frame, outer⟩ := r
  obtain rfl : pre = false := h
  cases i with
  | code c =>
    have hprefix : pairGroup prefixPair = none := rfl
    simp [itemPairs, Receiver.takePairs, Receiver.takePair, hprefix, pairGroup_scrambled, Receiver.takeItem]
  | group g => simp [itemPairs, Receiver.takePairs, Receiver.takePair, pairGroup_scrambled, Receiver.takeItem]

/-- A control code leaves the descrambler as it is, and where in a code the receiver stands. -/
theorem takeCode_scr_pre (c : Nat) (r : Receiver) : (r.takeCode c).1.scr = r.scr ∧ (r.takeCode c).1.pre = r.pre := by
  have hfinish (abt : Bool) : (r.finish abt).1.scr = r.scr ∧ (r.finish abt).1.pre = r.pre := by
    unfold Receiver.finish; split <;> exact ⟨rfl, rfl⟩
  unfold Receiver.takeCode
  split_ifs
  exacts [⟨rfl, rfl⟩, hfinish _, hfinish _, ⟨rfl, rfl⟩, ⟨rfl, rfl⟩, ⟨rfl, rfl⟩, ⟨rfl, rfl⟩, ⟨rfl, rfl⟩]

/-- An item moves the descrambler on as it moved the scrambler, and leaves the receiver between items. -/
theorem takeItem_scr_pre {r : Receiver} (h : r.pre = false) (i : LineItem) :
    (r.takeItem i).1.scr = (itemPairs r.scr i).2 ∧ (r.takeItem i).1.pre = false := by
  cases i with
  | code c => exact (takeCode_scr_pre (c % 8) _).imp id (·.trans h)
  | group g => exact ⟨rfl, h⟩

/-- R336, R337: a receiver in step with the sender takes from the pairs of a line its codes and groups. -/
theorem takePairs_linePairs (is : List LineItem) {r : Receiver} (h : r.pre = false) : r.takePairs (linePairs r.scr is) = r.takeItems is := by
  induction is generalizing r with
  | nil => rfl
  | cons i t ih =>
    obtain ⟨hscr, hpre⟩ := takeItem_scr_pre h i
    rw [linePairs, takePairs_append, takePairs_itemPairs h, ← hscr, ih hpre, Receiver.takeItems]

/-! ## A frame -/

/-- Inside a frame the groups collect, and no frame ends. -/
theorem takeItems_groups (gs : List Nat) (hgs : ∀ g ∈ gs, g < 8) (x : BitVec 23) (got : List Nat) (bad : Bool) (outer : Option (List Nat × Bool)) :
    Receiver.takeItems (gs.map .group) ⟨x, false, some (got, bad), outer⟩ = (⟨scramblerSkip gs.length x, false, some (got ++ gs, bad), outer⟩, []) := by
  induction gs generalizing x got with
  | nil => simp [Receiver.takeItems, scramblerSkip]
  | cons g t ih =>
    obtain ⟨hg, ht⟩ := List.forall_mem_cons.1 hgs
    simp [Receiver.takeItems, Receiver.takeItem, Receiver.takeGroup, scramblerSkip, ih ht, Nat.mod_eq_of_lt hg]

/-- R350: between frames, SOF and the groups of bytes leave a receiver inside a frame of these bytes. -/
theorem takeItems_sof (bs : List Byte) (x : BitVec 23) : Receiver.takeItems (.code codeSof :: bytesGroups bs) ⟨x, false, none, none⟩ =
    (⟨scramblerSkip ((bitsGroups (bytesBits bs)).length + 1) x, false, some (bitsGroups (bytesBits bs), false), none⟩, []) := by
  have hsof : Receiver.takeItem (.code codeSof) ⟨x, false, none, none⟩ = (⟨(scramblerGroup x).2, false, some ([], false), none⟩, []) := rfl
  rw [Receiver.takeItems, hsof, bytesGroups, takeItems_groups _ (lt_of_mem_bitsGroups _)]
  rfl

/-- R350: a receiver between frames, in step with the sender, takes from the pairs of a frame its bytes, with no code error and no ABT. -/
theorem takePairs_frameItems (bs : List Byte) (x : BitVec 23) :
    ((⟨x, false, none, none⟩ : Receiver).takePairs (linePairs x (frameItems codeSof codeEof bs))).2 = [(bs, false, false)] := by
  rw [takePairs_linePairs (r := ⟨x, false, none, none⟩) _ rfl, frameItems, takeItems_append, takeItems_sof]
  simp [Receiver.takeItems, Receiver.takeItem, Receiver.takeCode, Receiver.finish, codeSof, codeEof, groupsBytes_bitsGroups]

end Sys2Proof.Machine
end

