-- ==== Sys2Proof/Proofs/FrameBytes.lean ====
section
/-!
PROOFS. The bytes of a frame (R350-R354): what each header field, the payload and the two checks read as in the bytes that the frame is sent as.
-/
namespace Sys2Proof.Machine

/-! ## Numbers and words as bytes -/

theorem natBytes_succ (n v : Nat) : natBytes (n + 1) v = BitVec.ofNat 8 v :: natBytes n (v / 256) := by
  simp [natBytes, List.range_succ_eq_map, Nat.pow_succ', Nat.div_div_eq_div_mul]

theorem bytesNat_natBytes (n v : Nat) : bytesNat (natBytes n v) = v % 256 ^ n := by
  induction n generalizing v with
  | zero => simp [natBytes, bytesNat, Nat.mod_one]
  | succ n ih => rw [natBytes_succ, bytesNat, ih, BitVec.toNat_ofNat, Nat.pow_succ' (m := 256), Nat.mod_mul]

/-- The bytes of a word are those of its number. -/
theorem wordBytes_eq (w : Word) : wordBytes w = natBytes 4 w.toNat := by
  refine List.map_congr_left fun i _ => BitVec.eq_of_toNat_eq ?_
  rw [getBits, BitVec.toNat_ofNat, BitVec.toNat_ofNat, Nat.mod_mod, BitVec.toNat_ushiftRight, Nat.shiftRight_eq_div_pow, Nat.pow_mul]

theorem bytesNat_wordBytes (w : Word) : bytesNat (wordBytes w) = w.toNat := by
  rw [wordBytes_eq, bytesNat_natBytes]
  exact Nat.mod_eq_of_lt w.isLt

theorem length_wordsBytes (l : List Word) : (wordsBytes l).length = 4 * l.length := by
  induction l with
  | nil => rfl
  | cons w t ih =>
    rw [wordsBytes, List.flatMap_cons, List.length_append, length_wordBytes, ← wordsBytes, ih, List.length_cons]
    omega

/-- Words are read back from their bytes. -/
theorem bytesWords_wordsBytes (l : List Word) : bytesWords (wordsBytes l) = l := by
  induction l with
  | nil => rfl
  | cons w t ih =>
    have hword : bytesWords (wordBytes w ++ wordsBytes t) = BitVec.ofNat 32 (bytesNat (wordBytes w)) :: bytesWords (wordsBytes t) := rfl
    rw [wordsBytes, List.flatMap_cons, ← wordsBytes, hword, bytesNat_wordBytes, BitVec.ofNat_toNat, BitVec.setWidth_eq, ih]

/-! ## The parts of a frame -/

/-- What follows the HCRC of a frame: nothing, or the payload and the PCRC. -/
def payloadTail (f : Frame) : List Byte := if f.payload.isEmpty then [] else wordsBytes f.payload ++ wordBytes (crc32c (wordsBytes f.payload))

theorem payloadTail_empty {f : Frame} (h : f.payload = []) : payloadTail f = [] := by simp [payloadTail, h]

theorem payloadTail_words {f : Frame} (h : f.payload ≠ []) : payloadTail f = wordsBytes f.payload ++ wordBytes (crc32c (wordsBytes f.payload)) := by
  simp [payloadTail, h]

section
variable (f : Frame) (l : LinkFields)

theorem frameLine_eq : frameLine f l = headerBytes f l ++ crc8 (headerBytes f l) :: payloadTail f := by simp [frameLine, payloadTail]

theorem length_headerBytes : (headerBytes f l).length = 15 := by simp [headerBytes, length_natBytes, length_wordBytes]

theorem drop_frameLine : (frameLine f l).drop 16 = payloadTail f := by
  have hlen : (headerBytes f l ++ [crc8 (headerBytes f l)]).length = 16 := by rw [List.length_append, length_headerBytes]; rfl
  rw [frameLine_eq, List.append_cons, List.drop_left' hlen]

theorem length_frameLine : (frameLine f l).length = 16 + (payloadTail f).length := by
  rw [frameLine_eq, List.length_append, length_headerBytes, List.length_cons]
  omega

theorem byteAt_frameLine {i : Nat} (h : i < 15) : byteAt (frameLine f l) i = byteAt (headerBytes f l) i := by
  rw [frameLine_eq, byteAt, nth, List.getD_append _ _ _ _ (h.trans_eq (length_headerBytes f l).symm)]
  rfl

theorem numAt_frameLine {i n : Nat} (h : i + n ≤ 15) : numAt (frameLine f l) i n = numAt (headerBytes f l) i n := by
  have hlen := length_headerBytes f l
  rw [frameLine_eq, numAt, List.drop_append_of_le_length (by omega), List.take_append_of_le_length (by rw [List.length_drop]; omega)]
  rfl

theorem headerGood_frameLine : headerGood (frameLine f l) = true := by
  have hlen := length_headerBytes f l
  have hsize : 16 ≤ (frameLine f l).length := by rw [length_frameLine]; exact Nat.le_add_right ..
  have hcrc : nth (frameLine f l) 15 0#8 = crc8 (headerBytes f l) := by
    rw [frameLine_eq, nth, List.getD_append_right _ _ _ _ hlen.le, hlen]
    rfl
  rw [headerGood, hcrc, frameLine_eq, List.take_left' hlen, ← frameLine_eq]
  simp [hsize]

/-- A header byte that is one number below 256 reads as this number. -/
theorem toNat_byte {v : Nat} (h : v < 256) : (BitVec.ofNat 8 (v / 256 ^ 0)).toNat = v := by
  rw [BitVec.toNat_ofNat, Nat.pow_zero, Nat.div_one, Nat.mod_eq_of_lt h]

theorem byteAt_len : byteAt (frameLine f l) 14 = f.payload.length % 256 :=
  (byteAt_frameLine f l (by decide)).trans (toNat_byte (Nat.mod_lt _ (by decide)))

/-- The route word of a frame. -/
theorem numAt_route : numAt (frameLine f l) 4 4 = f.route.toNat := by
  have hroute : numAt (headerBytes f l) 4 4 = bytesNat (wordBytes f.route) := rfl
  rw [numAt_frameLine f l (by decide), hroute, bytesNat_wordBytes]

end

/-! ## Codes and flags -/

theorem frameTypeCode_lt (t : FrameType) : t.code < 32 := by cases t <;> decide

theorem modeCode_lt (m : Mode) : m.code < 4 := by cases m <;> decide

theorem clsCode_lt (k : Cls) : k.code < 4 := by cases k <;> decide

theorem frameType_ofCode_code (t : FrameType) : FrameType.ofCode t.code = some t := by cases t <;> rfl

theorem mode_ofCode_code (m : Mode) : Mode.ofCode m.code = some m := by cases m <;> rfl

theorem cls_ofCode_code (k : Cls) : Cls.ofCode k.code = k := by cases k <;> rfl

theorem payloadLimit_le (k : Cls) : payloadLimit k ≤ 256 := by cases k <;> decide

theorem decide_b2n (b : Bool) : decide (b2n b = 1) = b := by cases b <;> rfl

/-- A number with two flags below it, as the header carries a number with its marks (R351). -/
theorem flagged_byte (a : Nat) (b c : Bool) : (4 * a + 2 * b2n b + b2n c) / 4 = a ∧
    decide ((4 * a + 2 * b2n b + b2n c) / 2 % 2 = 1) = b ∧ decide ((4 * a + 2 * b2n b + b2n c) % 2 = 1) = c := by
  have := b2n_lt b
  have := b2n_lt c
  have hb : (4 * a + 2 * b2n b + b2n c) / 2 % 2 = b2n b := by omega
  have hc : (4 * a + 2 * b2n b + b2n c) % 2 = b2n c := by omega
  rw [hb, hc]
  exact ⟨by omega, decide_b2n b, decide_b2n c⟩

/-! ## The header -/

/-- R351, R354: the fields of a frame's header lie in their ranges, and its payload within the limit of its class. -/
structure SoundFrame (f : Frame) (l : LinkFields) : Prop where
  hop : f.hop < 32
  src : f.src < 1024
  dst : f.dst < 1024
  epoch : f.epoch < 256
  tag : f.tag < 256
  len : f.payload.length ≤ payloadLimit f.cls
  seq : l.seq < 64
  akb : l.akb < 64
  aka : l.aka < 64

namespace SoundFrame
variable {f : Frame} {l : LinkFields} (h : SoundFrame f l)
include h

theorem len_le : f.payload.length ≤ 256 := h.len.trans (payloadLimit_le f.cls)

theorem byteAt_type : byteAt (frameLine f l) 0 = f.type.code + 32 * f.cls.code + 128 * (f.payload.length / 256) := by
  have := frameTypeCode_lt f.type
  have := clsCode_lt f.cls
  have := h.len_le
  exact (byteAt_frameLine f l (by decide)).trans (toNat_byte (by omega))

theorem byteAt_seq : byteAt (frameLine f l) 1 = 4 * l.seq + 2 * b2n l.retx + b2n false := by
  have := b2n_lt l.retx
  have := h.seq
  exact (byteAt_frameLine f l (by decide)).trans (toNat_byte (by omega))

theorem byteAt_akb : byteAt (frameLine f l) 2 = 4 * l.akb + 2 * b2n l.akbv + b2n l.nakb := by
  have := b2n_lt l.akbv
  have := b2n_lt l.nakb
  have := h.akb
  exact (byteAt_frameLine f l (by decide)).trans (toNat_byte (by omega))

theorem byteAt_aka : byteAt (frameLine f l) 3 = 4 * l.aka + 2 * b2n l.akav + b2n l.naka := by
  have := b2n_lt l.akav
  have := b2n_lt l.naka
  have := h.aka
  exact (byteAt_frameLine f l (by decide)).trans (toNat_byte (by omega))

theorem byteAt_hop : byteAt (frameLine f l) 8 = f.hop + 32 * f.mode.code := by
  have := modeCode_lt f.mode
  have := h.hop
  exact (byteAt_frameLine f l (by decide)).trans (toNat_byte (by omega))

theorem byteAt_epoch : byteAt (frameLine f l) 12 = f.epoch := (byteAt_frameLine f l (by decide)).trans (toNat_byte h.epoch)

theorem byteAt_tag : byteAt (frameLine f l) 13 = f.tag := (byteAt_frameLine f l (by decide)).trans (toNat_byte h.tag)

/-- LEN reads as the number of payload words. -/
theorem headerLen_eq : headerLen (frameLine f l) = f.payload.length := by
  have := frameTypeCode_lt f.type
  have := clsCode_lt f.cls
  have := h.len_le
  rw [headerLen, byteAt_len, h.byteAt_type]
  omega

theorem typeCode_eq : typeCode (frameLine f l) = f.type.code := by
  have := frameTypeCode_lt f.type
  rw [typeCode, h.byteAt_type]
  omega

theorem modeCode_eq : modeCode (frameLine f l) = f.mode.code := by
  have := h.hop
  rw [modeCode, h.byteAt_hop]
  omega

theorem headerClass_eq : headerClass (frameLine f l) = f.cls := by
  have := frameTypeCode_lt f.type
  have := clsCode_lt f.cls
  have := h.len_le
  have hcode : byteAt (frameLine f l) 0 / 32 % 4 = f.cls.code := by rw [h.byteAt_type]; omega
  rw [headerClass, hcode, cls_ofCode_code]

theorem readLink_eq : readLink (frameLine f l) = l := by
  obtain ⟨hseq, hretx, -⟩ := flagged_byte l.seq l.retx false
  obtain ⟨hakb, hakbv, hnakb⟩ := flagged_byte l.akb l.akbv l.nakb
  obtain ⟨haka, hakav, hnaka⟩ := flagged_byte l.aka l.akav l.naka
  simp only [readLink, h.byteAt_seq, h.byteAt_akb, h.byteAt_aka, hseq, hretx, hakb, hakbv, hnakb, haka, hakav, hnaka]

theorem numAt_ids : numAt (frameLine f l) 9 3 = f.dst + 1024 * f.src := by
  have hids : numAt (headerBytes f l) 9 3 = bytesNat (natBytes 3 (f.dst % 1024 + 1024 * (f.src % 1024))) := rfl
  have := h.src
  have := h.dst
  rw [numAt_frameLine f l (by decide), hids, bytesNat_natBytes]
  omega

/-! ## The checks -/

/-- LEN names the payload bytes. -/
theorem payloadBytes_eq : payloadBytes (frameLine f l) = wordsBytes f.payload := by
  rw [payloadBytes, h.headerLen_eq, drop_frameLine]
  by_cases hp : f.payload = []
  · rw [payloadTail_empty hp, hp]; rfl
  · rw [payloadTail_words hp, List.take_left' (length_wordsBytes f.payload)]

theorem payloadBad_frameLine : payloadBad (frameLine f l) = false := by
  by_cases hp : f.payload = []
  · simp [payloadBad, h.headerLen_eq, hp]
  · have hcheck : numAt (frameLine f l) (16 + 4 * f.payload.length) 4 = (crc32c (wordsBytes f.payload)).toNat := by
      rw [numAt, ← List.drop_drop, drop_frameLine, payloadTail_words hp, List.drop_left' (length_wordsBytes f.payload),
        List.take_of_length_le (length_wordBytes _).le, bytesNat_wordBytes]
    simp [payloadBad, h.headerLen_eq, h.payloadBytes_eq, hcheck]

theorem lengthGood_frameLine : lengthGood (frameLine f l) = true := by
  have hlen : (frameLine f l).length = if f.payload.length = 0 then 16 else 20 + 4 * f.payload.length := by
    rw [length_frameLine]
    by_cases hp : f.payload = []
    · rw [payloadTail_empty hp, hp]; rfl
    · rw [payloadTail_words hp, List.length_append, length_wordsBytes, length_wordBytes, if_neg (by simpa using hp)]
      omega
  simp [lengthGood, h.headerLen_eq, h.headerClass_eq, h.len, hlen]

/-- R351: the frame that the bytes spell, its type and mode known, is the frame that was sent. -/
theorem readFrame_eq : readFrame (frameLine f l) f.type f.mode = f := by
  have := h.hop
  have := h.src
  have := h.dst
  have hhop : byteAt (frameLine f l) 8 % 32 = f.hop := by rw [h.byteAt_hop]; omega
  have hsrc : numAt (frameLine f l) 9 3 / 1024 % 1024 = f.src := by rw [h.numAt_ids]; omega
  have hdst : numAt (frameLine f l) 9 3 % 1024 = f.dst := by rw [h.numAt_ids]; omega
  simp only [readFrame, h.headerClass_eq, numAt_route, hhop, hsrc, hdst, h.byteAt_epoch, h.byteAt_tag, h.payloadBytes_eq, bytesWords_wordsBytes,
    BitVec.ofNat_toNat, BitVec.setWidth_eq]

end SoundFrame

/-- Settles O32: the receiver takes the frame's bytes from the pairs, and in these bytes every part of the frame reads as it was sent. -/
theorem framesReadBack : Obligations.FramesReadBack := by
  unfold Obligations.FramesReadBack
  intro f l hop src dst epoch tag len seq akb aka
  have h : SoundFrame f l := ⟨hop, src, dst, epoch, tag, len, seq, akb, aka⟩
  refine ⟨takePairs_frameItems _, headerGood_frameLine f l, h.payloadBad_frameLine, h.lengthGood_frameLine, ?_, ?_, h.headerClass_eq, h.readLink_eq,
    h.readFrame_eq⟩
  · rw [h.typeCode_eq, frameType_ofCode_code]
  · rw [h.modeCode_eq, mode_ofCode_code]

end Sys2Proof.Machine
end

