-- ==== Sys2Proof/Proofs/FrameReceptionRefutation.lean ====
section
/-!
PROOFS. What refutes the statement of reception: a port whose receiver stands inside a frame when the pairs of the next one arrive.
-/
namespace Sys2Proof.Machine

/-! ## A frame with a code error inside -/

/-- R360: a frame with a code error inside is counted, and NAKs fall due. -/
theorem receiveFrame_codeError {n : Nat} {s : State} (h : portUp n s = true) (bs : List Byte) (abt : Bool) :
    receiveFrame n (bs, true, abt) s = wantNaks n (linkError n (Reg.LNK_ERRB_CODE n) s) := by
  simp [receiveFrame, h]

theorem errSum_linkError (n : Nat) (c : Field) (s : State) : (linkError n c s).lnk.errSum = (s.lnk.errSum + 1) % 65536 := by
  simp [linkError]

theorem errSum_wantNaks (n : Nat) (s : State) : (wantNaks n s).lnk.errSum = s.lnk.errSum := by
  simp only [wantNaks]
  split_ifs <;> rfl

theorem portUp_of_reg {n : Nat} {s t : State} (h : reg t (Reg.LNK_PSTAT n) = reg s (Reg.LNK_PSTAT n)) : portUp n t = portUp n s := by
  have hstate : portState n t = portState n s := getF_of_reg h
  rw [portUp, hstate, portUp]

theorem reg_wantNaks (n a : Nat) (s : State) : reg (wantNaks n s) a = reg s a := by
  simp only [wantNaks]
  split_ifs <;> rfl

theorem reg_linkError {a : Nat} {c : Field} (h : a ≠ c.addr) (n : Nat) (s : State) : reg (linkError n c s) a = reg s a := by
  rw [linkError, reg_pulse, reg_incSat_other h]
  rfl

/-- Such a frame leaves the port UP and counts one link error, whatever the free values of the NAKs are. -/
theorem receiveFrame_codeError_count {n : Nat} {s : State} (h : portUp n s = true) (bs : List Byte) (abt : Bool) :
    portUp n (receiveFrame n (bs, true, abt) s) = true ∧ (receiveFrame n (bs, true, abt) s).lnk.errSum = (s.lnk.errSum + 1) % 65536 := by
  have haddr : Reg.LNK_PSTAT n ≠ (Reg.LNK_ERRB_CODE n).addr := by simp only [Reg.LNK_PSTAT, Reg.LNK_ERRB_CODE, Reg.LNK_ERRB]; omega
  rw [receiveFrame_codeError h, errSum_wantNaks, errSum_linkError]
  exact ⟨(portUp_of_reg ((reg_wantNaks ..).trans (reg_linkError haddr n s))).trans h, rfl⟩

/-- On a port that is UP the frames that end among the pairs are received one after the other. -/
theorem exec_frameReceive {n : Fin 4} {s : State} (h : portUp n s = true) (pairs : List Pair) : ∃ u, portUp n u = true ∧ u.lnk.errSum = s.lnk.errSum ∧
    exec (.frameReceive n pairs) s = .next (((port n s).rx.takePairs pairs).2.foldl (fun t e => receiveFrame n e t) u) := by
  refine ⟨_, ?_, ?_, if_neg (by simp [h])⟩
  · exact h
  · rfl

/-! ## A start code inside a frame -/

/-- The device in ACTIVE with port 3 UP, whose receiver has taken a SOF and no end code yet. -/
def midFrame : State :=
  modPort 3 (fun p => { p with rx := { p.rx with frame := some ([], false) } }) (activeWith [] |> setF (Reg.LNK_PSTAT_STATE 3) 3)

/-- The pairs of SOF, the code 0b111, which is a code error (R338), and EOF. -/
def faultyPairs : List Pair :=
  linePairs (port (3 : Fin 4) midFrame).rx.scr (LineItem.code codeSof :: bytesGroups [] ++ [LineItem.code 7, LineItem.code codeEof])

/-- R338, R360: SOF breaks off the frame in reception, and both frames end with a code error. -/
theorem takePairs_midFrame : ((port (3 : Fin 4) midFrame).rx.takePairs faultyPairs).2 = [([], true, false), ([], true, false)] := by decide

/-- R360, R378: two link errors are counted. -/
theorem frameReceive_midFrame_errSum : nextView (fun t => t.lnk.errSum) (exec (.frameReceive 3 faultyPairs) midFrame) = some 2 := by
  obtain ⟨u, hup, hsum, hexec⟩ := exec_frameReceive (n := 3) (s := midFrame) (by decide) faultyPairs
  obtain ⟨hup1, hsum1⟩ := receiveFrame_codeError_count hup [] false
  obtain ⟨-, hsum2⟩ := receiveFrame_codeError_count hup1 [] false
  have hzero : midFrame.lnk.errSum = 0 := by decide
  rw [hsum1, hsum, hzero] at hsum2
  rw [hexec, takePairs_midFrame]
  exact congrArg some hsum2

/-- Refutes O34: a port that is UP may stand inside a frame whose EOF was lost, and the SOF of the next frame is a code error in it; the two frames that
then end are two errors, where the statement counts the pairs of the second as one. -/
theorem not_frameReception : ¬ Obligations.FrameReception := by
  unfold Obligations.FrameReception
  intro h
  obtain ⟨hcode, -⟩ := h midFrame
  obtain ⟨t, ht, -, -, hsum, -⟩ := hcode 3 [] (by decide)
  have hnext : exec (.frameReceive 3 faultyPairs) midFrame = .next t := ht
  have hview := frameReceive_midFrame_errSum
  rw [nextView_exec _ hnext, hsum] at hview
  exact absurd hview (by decide)

end Sys2Proof.Machine
end

