-- ==== Sys2Proof/Proofs/KeptOperations.lean ====
section
/-!
PROOFS. What every operation keeps: the queue, and the canonical form of the register file and of NVM. One lemma for each function of the model that
answers a state, an outcome, the end of an access or a value with a state; its proof follows the function's branches and names the lemmas of the
functions it calls. This file holds the relation and the measuring and converting blocks.
-/
namespace Sys2Proof.Machine

-- The many short lemmas are elaborated one after the other: at once, they need more threads than the check's memory holds.
set_option Elab.async false

/-- What every command keeps from one state to another: the queue, and the canonical form of the register file and of NVM. -/
structure Kept (s t : State) : Prop where
  pending : t.pending = s.pending
  canonical : s.canonical → t.canonical

section
variable {s t u : State}

theorem Kept.refl (s : State) : Kept s s := ⟨rfl, id⟩

theorem Kept.trans (h : Kept s t) (k : Kept t u) : Kept s u := ⟨k.pending.trans h.pending, k.canonical ∘ h.canonical⟩

/-- Only the register file, NVM and the queue count. -/
theorem Kept.of_same (h : Kept s t) (hr : u.regs = t.regs) (hn : u.cal.nvm = t.cal.nvm) (hp : u.pending = t.pending) : Kept s u :=
  ⟨hp.trans h.pending, fun hs => by unfold State.canonical; rw [hr, hn]; exact h.canonical hs⟩

/-- Any update of the parts that leaves the registers, the bytes of NVM and the queue. -/
theorem kept_update (h : Kept s t) {now ft free resp pins sys cms xck imp cpb flt lnk fab hst cnv ctl tbs thm bst} {cal : CalState}
    (hn : cal.nvm = t.cal.nvm := by rfl) : Kept s ⟨t.regs, now, ft, free, resp, pins, sys, cms, xck, imp, cpb, flt, lnk, fab, hst, cnv, ctl, tbs, cal, thm, bst, t.pending⟩ :=
  h.of_same rfl hn rfl

theorem kept_setReg (h : Kept s t) (a v) : Kept s (setReg a v t) := h.trans ⟨rfl, canonical_setReg a v⟩

theorem kept_ite {c : Prop} [Decidable c] (h : Kept s t) (k : Kept s u) : Kept s (if c then t else u) := by split <;> assumption

theorem kept_when {c : Prop} [Decidable c] (h : Kept s t) (k : Kept s t → Kept s u) : Kept s (if c then u else t) := kept_ite (k h) h
theorem kept_unless {c : Prop} [Decidable c] (h : Kept s t) (k : Kept s t → Kept s u) : Kept s (if c then t else u) := kept_ite h (k h)

theorem kept_foldl {α : Type} {f : State → α → State} (hf : ∀ t, Kept s t → ∀ x, Kept s (f t x)) (l : List α) (h : Kept s t) : Kept s (l.foldl f t) := by
  induction l generalizing t with
  | nil => exact h
  | cons x l ih => exact ih (hf t h x)

/-- The outcome of a command, if it is a next state, keeps what every command keeps. -/
def KeptOut (s : State) : Out → Prop
  | .next t => Kept s t
  | _ => True

theorem keptOut_next (h : Kept s t) : KeptOut s (.next t) := h
theorem keptOut_fault (r : Fault) : KeptOut s (.fault r) := trivial
theorem keptOut_refused (r : Refusal) : KeptOut s (.refused r) := trivial
theorem keptOut_ite {c : Prop} [Decidable c] {o p : Out} (h : KeptOut s o) (k : KeptOut s p) : KeptOut s (if c then o else p) := by split <;> assumption

/-- The outcome of an access, the ending of one and a value with the state beside it, in the same way. -/
def KeptDone (s : State) (d : Done) : Prop := Kept s d.st
def KeptAcc (s : State) : Acc → Prop
  | .done d => KeptDone s d
  | .stop _ => True
  | .hostError t => Kept s t
def KeptPair {α : Type} (s : State) (p : α × State) : Prop := Kept s p.2

theorem keptDone_mk (h : Kept s t) (a) (b) (c) (d) : KeptDone s ⟨t, a, b, c, d⟩ := h
theorem keptDone_ite {c : Prop} [Decidable c] {d e : Done} (h : KeptDone s d) (k : KeptDone s e) : KeptDone s (if c then d else e) := by split <;> assumption
theorem keptAcc_done {d : Done} (h : KeptDone s d) : KeptAcc s (.done d) := h
theorem keptAcc_stop (f) : KeptAcc s (.stop f) := trivial
theorem keptAcc_hostError (h : Kept s t) : KeptAcc s (.hostError t) := h
theorem keptAcc_ite {c : Prop} [Decidable c] {d e : Acc} (h : KeptAcc s d) (k : KeptAcc s e) : KeptAcc s (if c then d else e) := by split <;> assumption
theorem keptPair_mk {α : Type} (h : Kept s t) (a : α) : KeptPair s (a, t) := h
theorem keptPair_ite {α : Type} {c : Prop} [Decidable c] {d e : α × State} (h : KeptPair s d) (k : KeptPair s e) : KeptPair s (if c then d else e) := by split <;> assumption
theorem kept_st {d : Done} (h : KeptDone s d) : Kept s d.st := h
theorem kept_snd {α : Type} {p : α × State} (h : KeptPair s p) : Kept s p.2 := h

/-! ## Registers, fault sources and event bits -/

theorem kept_setF (h : Kept s t) (f) (v) : Kept s (setF f v t) := kept_setReg h ..
theorem kept_setB (h : Kept s t) (f) (b0) : Kept s (setB f b0 t) := kept_setF h ..
theorem kept_addSat (h : Kept s t) (f) (n) : Kept s (addSat f n t) := kept_setF h ..
theorem kept_incSat (h : Kept s t) (f) : Kept s (incSat f t) := kept_addSat h ..
theorem kept_incWrap (h : Kept s t) (a0) : Kept s (incWrap a0 t) := kept_setReg h ..
theorem kept_setRegBit (h : Kept s t) (a0) (k) (b0) : Kept s (setRegBit a0 k b0 t) := kept_setReg h ..
theorem kept_useFree (h : Kept s t) : Kept s (useFree t) := kept_update h
theorem keptDone_ok (h : Kept s t) : KeptDone s (Done.ok t) := h
theorem keptDone_read (h : Kept s t) (l) : KeptDone s (Done.read l t) := h
theorem keptDone_later (h : Kept s t) : KeptDone s (Done.later t) := h
theorem keptDone_refuse (h : Kept s t) (st) : KeptDone s (Done.refuse st t) := h
theorem keptDone_busy (h : Kept s t) (v) : KeptDone s (Done.busy v t) := h
theorem keptDone_busyFree (h : Kept s t) : KeptDone s (Done.busyFree t) := kept_useFree h
theorem kept_finish {d : Done} (h : KeptDone s d) : Kept s d.finish := kept_ite h (kept_update h)
theorem keptOut_out {d : Done} (h : KeptDone s d) : KeptOut s d.out := kept_finish h
theorem kept_upset (h : Kept s t) : Kept s (upset t) := h.trans ⟨rfl, canonical_upset⟩
theorem kept_setLine (h : Kept s t) (src) (active) : Kept s (setLine src active t) :=
  kept_ite (kept_ite h (kept_update h)) (kept_setRegBit (kept_update h) ..)
theorem kept_pulse (h : Kept s t) (src) : Kept s (pulse src t) := kept_ite h (kept_update h)
theorem kept_raise (h : Kept s t) (src) : Kept s (raise src t) := kept_ite h (kept_pulse (kept_setLine h ..) ..)
theorem kept_drop (h : Kept s t) (src) : Kept s (drop src t) := kept_setLine h ..
theorem kept_follow (h : Kept s t) (src) (active) : Kept s (follow src active t) := kept_ite (kept_raise h ..) (kept_drop h ..)
theorem kept_setEvt (h : Kept s t) (b0) (bits) : Kept s (setEvt b0 bits t) :=
  have h1 : Kept s _ := kept_setReg h ..
  kept_ite h1 (kept_update h1)

/-! ## Rings, the writeback block and messages -/

theorem kept_dmaWrite (h : Kept s t) (a0) (bs) : Kept s (dmaWrite a0 bs t) := kept_update h
theorem kept_advanceRing (h : Kept s t) (r) (n) : Kept s (advanceRing r n t) := kept_update (kept_setF h ..)
theorem kept_writeback (h : Kept s t) : Kept s (writeback t) := kept_ite (kept_dmaWrite (kept_update h) ..) h
theorem kept_sendVector (h : Kept s t) (v) : Kept s (sendVector v t) := kept_dmaWrite (kept_update (kept_writeback h)) ..
theorem kept_message (h : Kept s t) (v) : Kept s (message v t) := kept_ite (kept_ite (kept_setRegBit h ..) (kept_sendVector h ..)) h
theorem kept_releaseMasked (h : Kept s t) : Kept s (releaseMasked t) :=
  kept_foldl (fun _ h _ => kept_ite (kept_sendVector (kept_setRegBit h ..) ..) h) _ h
theorem kept_setHostErr (h : Kept s t) (f) : Kept s (setHostErr f t) := kept_ite h (kept_when (kept_setB h ..) (fun h1 => kept_message h1 ..))
theorem kept_signalRing (h : Kept s t) (r) : Kept s (signalRing r t) := kept_ite (kept_message (kept_update h) ..) h
theorem kept_signalCounted (h : Kept s t) (r) : Kept s (signalCounted r t) := kept_ite (kept_signalRing h ..) h
theorem kept_signalDue (h : Kept s t) : Kept s (signalDue t) := kept_foldl (fun _ h _ => kept_signalCounted h ..) _ h
theorem kept_countEntry (h : Kept s t) (r) : Kept s (countEntry r t) := by
  unfold countEntry; dsimp only
  exact kept_signalCounted (kept_update h) ..
theorem kept_ringWrite (h : Kept s t) (r) (n) (mk) : Kept s (ringWrite r n mk t) := kept_countEntry (kept_advanceRing (kept_dmaWrite h ..) ..) ..
theorem kept_flushCompletions (h : Kept s t) (k) : Kept s (flushCompletions k t) := by
  induction k generalizing t with
  | zero => exact h
  | succ k ih =>
    unfold flushCompletions; split
    · exact h
    · refine kept_ite (ih (kept_ringWrite (kept_update ?_) ..)) h
      exact kept_ite (kept_dmaWrite h ..) h
theorem kept_refreshOut (h : Kept s t) : Kept s (refreshOut t) := kept_setF (kept_setF h ..) ..
theorem kept_finishHost (h : Kept s t) (slot) (mk) : Kept s (finishHost slot mk t) := by
  unfold finishHost; dsimp only
  split
  · exact h
  · exact kept_refreshOut (kept_flushCompletions (kept_ite (kept_update (kept_update h)) (kept_update (kept_update h))) ..)

/-! ## Frames and completions -/

theorem kept_modPort (h : Kept s t) (n) (f) : Kept s (modPort n f t) := kept_update h
theorem kept_enqueue (h : Kept s t) (n) (input) (g) : Kept s (enqueue n input g t) := kept_ite (kept_incSat h ..) (kept_modPort h ..)
theorem kept_sendRouted (h : Kept s t) (f) : Kept s (sendRouted f t) := kept_ite (kept_incSat h ..) (kept_ite (kept_enqueue h ..) (kept_incSat h ..))
theorem kept_flood (h : Kept s t) (input) (f) : Kept s (flood input f t) := kept_foldl (fun _ h _ => kept_ite (kept_enqueue h ..) h) _ h
theorem kept_originate (h : Kept s t) (t0) (cl) (payload) : Kept s (originate t0 cl payload t) := kept_flood (kept_update h) ..
theorem kept_broadcast (h : Kept s t) (t0) (cl) (payload) : Kept s (broadcast t0 cl payload t) := kept_ite (kept_originate h ..) (kept_update h)
theorem kept_releaseBroadcasts (h : Kept s t) : Kept s (releaseBroadcasts t) := kept_foldl (fun _ h _ => kept_originate (kept_update h) ..) _ h
theorem kept_linkLocal (h : Kept s t) (n) (t0) (cl) (payload) : Kept s (linkLocal n t0 cl payload t) := kept_enqueue h ..
theorem kept_sendHome (h : Kept s t) {drop : State → State} (hd : Kept s (drop t)) (k) (ty) (cl) (tag) (payload) :
    Kept s (sendHome k ty cl tag payload drop t) := by
  unfold sendHome; split
  · exact kept_sendRouted h _
  · exact hd
theorem kept_sendCpl (h : Kept s t) (src) (tag) (cls) (rroute) (rhop) (payload) : Kept s (sendCpl src tag cls rroute rhop payload t) := by
  unfold sendCpl
  refine kept_ite (kept_sendRouted h ..) ?_
  split
  · exact kept_sendHome h (kept_incSat h ..) ..
  · exact kept_incSat h ..
theorem kept_cachePut (h : Kept s t) (src) (epoch) (e) : Kept s (cachePut src epoch e t) := kept_update h
theorem kept_complete (h : Kept s t) (tk) (st) (data) (tval) : Kept s (complete tk st data tval t) := by
  unfold complete
  split
  · exact kept_update h
  · exact kept_ite h (kept_cachePut (kept_sendCpl h ..) ..)
  · exact kept_finishHost h ..

/-! ## Supplies, wakes and resets -/

theorem kept_takeSpread (h : Kept s t) (before) : Kept s (takeSpread before t) := kept_update h
theorem kept_reportSupply (h : Kept s t) : Kept s (reportSupply t) := kept_setB (kept_setB (kept_setF h ..) ..) ..
theorem kept_legLost (h : Kept s t) (old) : Kept s (legLost old t) := by
  unfold legLost
  refine kept_pulse ?_ ..
  split
  · exact kept_setB h ..
  · exact kept_setB h ..
theorem kept_selectLeg (h : Kept s t) : Kept s (selectLeg t) := by
  unfold selectLeg; dsimp only
  refine kept_reportSupply (kept_update ?_)
  split
  · refine kept_unless ?_ (fun h1 => kept_incSat h1 ..)
    split
    · exact kept_ite h (kept_legLost h ..)
    · exact h
  · split
    · exact kept_ite h (kept_legLost h ..)
    · exact h
theorem keptOut_vmodThresholdCross (h : Kept s t) (q) (rising) : KeptOut s (execVmodThresholdCross q rising t) := by
  unfold execVmodThresholdCross; dsimp only
  split
  · exact keptOut_next (kept_update h)
  · exact keptOut_next (kept_selectLeg (kept_update h))
theorem keptOut_vinThresholdCross (h : Kept s t) (rising) : KeptOut s (execVinThresholdCross rising t) :=
  keptOut_ite (keptOut_next (kept_update h)) (keptOut_next (kept_selectLeg (kept_update h)))
theorem keptOut_vinQualified (h : Kept s t) : KeptOut s (execVinQualified t) :=
  keptOut_ite (keptOut_next (kept_selectLeg (kept_update h))) (keptOut_next h)
theorem keptOut_buckLimitTimeout (h : Kept s t) : KeptOut s (execBuckLimitTimeout t) :=
  keptOut_ite (keptOut_next (kept_pulse (kept_setB h ..) ..)) (keptOut_next h)
theorem keptOut_railWarning (h : Kept s t) (rail) (outside) : KeptOut s (execRailWarning rail outside t) :=
  keptOut_ite (keptOut_next (kept_follow h ..)) (keptOut_next h)
theorem keptOut_referenceMismatch (h : Kept s t) (differ) : KeptOut s (execReferenceMismatch differ t) :=
  keptOut_ite (keptOut_next (kept_follow h ..)) (keptOut_next h)
theorem kept_keepOutside (h : Kept s t) {r : State} (hr : s.canonical → RegFile.wf r.regs = true) : Kept s (keepOutside t r) :=
  ⟨h.pending, fun hs => ⟨hr hs, (h.canonical hs).2⟩⟩

theorem wf_keepAon (h : Kept s t) (hs : s.canonical) : RegFile.wf (keepAon t.regs) = true := RegFile.wf_filter _ _ (h.canonical hs).1
theorem kept_keepUnpowered (h : Kept s t) {r : State} (hr : s.canonical → RegFile.wf r.regs = true) : Kept s (keepUnpowered t r) :=
  kept_keepOutside (kept_update h) hr
theorem kept_drawNonce (h : Kept s t) : Kept s (drawNonce t) := kept_update (kept_useFree h)
theorem kept_deviceReset (h : Kept s t) (cause) (ph) : Kept s (deviceReset cause ph t) :=
  kept_reportSupply (kept_setB (kept_drawNonce (kept_keepOutside h (wf_keepAon h))) ..)
theorem keptOut_railBrownOut (h : Kept s t) (_rail) : KeptOut s (execRailBrownOut _rail t) := by
  unfold execRailBrownOut
  split
  · exact keptOut_next (kept_selectLeg (kept_deviceReset h ..))
  · exact keptOut_next (kept_selectLeg (kept_deviceReset h ..))
  · exact keptOut_next (kept_selectLeg (kept_deviceReset h ..))
  · exact keptOut_next (kept_selectLeg (kept_deviceReset h ..))
  · exact keptOut_next (kept_selectLeg (kept_deviceReset h ..))
  · exact keptOut_next (kept_selectLeg (kept_deviceReset h ..))
  · exact keptOut_next (kept_selectLeg (kept_deviceReset h ..))
  · exact keptOut_next h
theorem keptOut_aonPowerLoss (h : Kept s t) : KeptOut s (execAonPowerLoss t) := keptOut_next (kept_keepUnpowered h (fun _ => rfl))
theorem kept_portsOff (h : Kept s t) : Kept s (portsOff t) := kept_foldl (fun _ h _ => kept_setF h ..) _ h
theorem keptOut_powerOnReset (h : Kept s t) (wakeHigh) (vinAbove) (vmodAon) (vmodOk) : KeptOut s (execPowerOnReset wakeHigh vinAbove vmodAon vmodOk t)
    :=
  have h1 : Kept s _ := kept_keepUnpowered h (fun _ => rfl)
  keptOut_next (kept_selectLeg (kept_drawNonce (kept_ite (kept_portsOff h1) h1)))
theorem keptOut_harnessWireChange (h : Kept s t) (wire) (isOpen) : KeptOut s (execHarnessWireChange wire isOpen t) := keptOut_next (kept_update h)
theorem keptOut_lcmPinChange (h : Kept s t) (level) : KeptOut s (execLcmPinChange level t) :=
  have h1 : Kept s _ := kept_update h
  keptOut_ite (keptOut_next h) (keptOut_ite (keptOut_next (kept_follow (kept_setB (kept_incSat h1 ..) ..) ..)) (keptOut_next h1))
theorem kept_recordWake (h : Kept s t) (code) : Kept s (recordWake code t) := kept_setF (kept_update h) ..
theorem kept_recordWakeFrom (h : Kept s t) (st) (code) : Kept s (recordWakeFrom st code t) := kept_recordWake (kept_update h) ..
theorem kept_abandonEntry (h : Kept s t) (st) (code) : Kept s (abandonEntry st code t) := kept_recordWakeFrom (kept_setB (kept_update h) ..) ..
theorem kept_joinWake (h : Kept s t) (code) : Kept s (joinWake code t) := by
  unfold joinWake
  split
  · exact kept_ite (kept_recordWake h ..) h
  · exact h
theorem kept_noteNextTrips (h : Kept s t) : Kept s (noteNextTrips t) := kept_update h
theorem kept_wakeBy (h : Kept s t) (code) : Kept s (wakeBy code t) := by
  unfold wakeBy; dsimp only
  split
  · exact kept_ite (kept_recordWakeFrom (kept_deviceReset h ..) ..) h
  · exact kept_ite (kept_recordWakeFrom (kept_selectLeg (kept_deviceReset (kept_noteNextTrips h) ..)) ..) h
  · split
    · exact kept_ite (kept_recordWakeFrom (kept_update h) ..) h
    · exact kept_ite (kept_abandonEntry (kept_update h) ..) h
  · split
    · exact kept_ite (kept_abandonEntry h ..) h
    · exact kept_joinWake h ..
  · split
    · exact kept_ite (kept_abandonEntry h ..) h
    · exact kept_joinWake h ..
  · split
    · exact kept_ite (kept_abandonEntry h ..) h
    · exact kept_joinWake h ..
  · exact kept_joinWake h ..
theorem kept_setWakeLevel (h : Kept s t) (h0) : Kept s (setWakeLevel h0 t) :=
  have h1 : Kept s _ := kept_update h
  kept_ite (kept_setB h1 ..) h1
theorem keptOut_wakeRisingEdge (h : Kept s t) : KeptOut s (execWakeRisingEdge t) :=
  have h1 : Kept s _ := kept_setWakeLevel (kept_update h) ..
  keptOut_ite (keptOut_next h1)
      (have h2 : Kept s _ := kept_wakeBy (kept_update h1) ..
       keptOut_next (kept_ite (kept_incSat h2 ..) h2))
theorem keptOut_wakeStuckTimeout (h : Kept s t) : KeptOut s (execWakeStuckTimeout t) := keptOut_ite (keptOut_next (kept_raise h ..)) (keptOut_next h)
theorem keptOut_wakeLowClear (h : Kept s t) : KeptOut s (execWakeLowClear t) := keptOut_next (kept_drop (kept_update (kept_setWakeLevel h ..)) ..)
theorem keptOut_wakeTimerExpiry (h : Kept s t) : KeptOut s (execWakeTimerExpiry t) := keptOut_next (kept_wakeBy h ..)
theorem keptOut_linkWakeDetect (h : Kept s t) (port) : KeptOut s (execLinkWakeDetect port t) :=
  keptOut_ite
      (have h1 : Kept s _ := kept_wakeBy h ..
       keptOut_next (kept_ite (kept_update h1) h1)) (keptOut_next h)
theorem kept_reportLinkWake (h : Kept s t) : Kept s (reportLinkWake t) := kept_setB (kept_setB (kept_setF (kept_setF h ..) ..) ..) ..
theorem kept_countFalseWake (h : Kept s t) (port) : Kept s (countFalseWake port t) :=
  have h1 : Kept s _ := kept_ite (kept_update h) (kept_update h)
  kept_reportLinkWake (kept_ite (kept_pulse h1 ..) h1)
theorem kept_clearFalseWake (h : Kept s t) (port) : Kept s (clearFalseWake port t) := kept_reportLinkWake (kept_update h)
theorem keptOut_wakeFilterPass (h : Kept s t) : KeptOut s (execWakeFilterPass t) :=
  keptOut_ite (keptOut_next (kept_selectLeg (kept_update h))) (keptOut_next h)
theorem keptOut_buckSoftStartDone (h : Kept s t) : KeptOut s (execBuckSoftStartDone t) := keptOut_ite (keptOut_next (kept_update h)) (keptOut_next h)
theorem keptOut_cpllLock (h : Kept s t) : KeptOut s (execCpllLock t) := by
  unfold execCpllLock; dsimp only
  split
  · exact keptOut_next (kept_setB (kept_update h) ..)
  · exact keptOut_next (kept_drop (kept_setB h ..) ..)
  · exact keptOut_next h
theorem keptOut_tpllLock (h : Kept s t) : KeptOut s (execTpllLock t) := by
  unfold execTpllLock; dsimp only
  split
  · exact keptOut_next (kept_setB (kept_update h) ..)
  · exact keptOut_next (kept_drop (kept_setB h ..) ..)
  · exact keptOut_next (kept_drop (kept_setB h ..) ..)
  · exact keptOut_next h
theorem keptOut_sclkFailure (h : Kept s t) : KeptOut s (execSclkFailure t) :=
  keptOut_ite (keptOut_next (kept_raise (kept_setB (kept_update h) ..) ..)) (keptOut_next h)
theorem keptOut_moscFailure (h : Kept s t) : KeptOut s (execMoscFailure t) :=
  keptOut_ite (keptOut_next (kept_raise (kept_setB h ..) ..)) (keptOut_next h)
theorem keptOut_pllLossOfLock (h : Kept s t) (pll) : KeptOut s (execPllLossOfLock pll t) := by
  unfold execPllLossOfLock
  refine keptOut_ite (keptOut_next ?_) (keptOut_next h)
  split
  · exact kept_raise (kept_setB h ..) ..
  · exact kept_raise (kept_setB h ..) ..
  · exact kept_pulse (kept_setB h ..) ..
  · exact kept_pulse (kept_setB h ..) ..
theorem keptDone_withController {d : Done} (h : Kept s t) (hd : KeptDone s d) : KeptDone s (withController t d) :=
  keptDone_ite (keptDone_refuse h _) (keptDone_ite (keptDone_busyFree h) hd)
theorem kept_disarm (h : Kept s t) : Kept s (disarm t) := kept_setB (kept_update h) ..
theorem kept_lockWrite (h : Kept s t) (req) (key) (flt) (tgt) : Kept s (lockWrite req key flt tgt t) := by
  unfold lockWrite; dsimp only
  refine kept_ite (kept_setB (kept_update h) ..) ?_
  split
  · exact h
  · exact kept_when (kept_disarm (kept_ite (kept_useFree h) h)) (fun h1 => kept_setB (kept_setB h1 ..) ..)
theorem keptOut_lockArm (h : Kept s t) (req) (flt) (tgt) : KeptOut s (execLockArm req flt tgt t) :=
  keptOut_ite (keptOut_out (keptDone_ok (kept_lockWrite h ..))) (keptOut_next h)
theorem keptOut_lock (h : Kept s t) (req) (flt) (tgt) : KeptOut s (execLock req flt tgt t) :=
  keptOut_ite (keptOut_out (keptDone_ok (kept_lockWrite h ..))) (keptOut_next h)
theorem keptOut_lockArmExpiry (h : Kept s t) : KeptOut s (execLockArmExpiry t) := keptOut_ite (keptOut_next (kept_disarm h)) (keptOut_next h)

/-! ## Cell protection and balancing -/

theorem kept_noteBleed (h : Kept s t) : Kept s (noteBleed t) := kept_update h
theorem kept_closeHalf (h : Kept s t) : Kept s (closeHalf t) := kept_ite h (kept_update h)
theorem kept_openHalf (h : Kept s t) : Kept s (openHalf t) := kept_update h
theorem kept_enforceSwitches (h : Kept s t) : Kept s (enforceSwitches t) := kept_setF (kept_setF (kept_noteBleed h) ..) ..
theorem kept_driveFaultLevel (h : Kept s t) : Kept s (driveFaultLevel t) := kept_ite (kept_setB (kept_update h) ..) h
theorem keptOut_toneResume (h : Kept s t) : KeptOut s (execToneResume t) := keptOut_ite (keptOut_next (kept_setB (kept_update h) ..)) (keptOut_next h)
theorem kept_latchG1 (h : Kept s t) (d0) (k) : Kept s (latchG1 d0 k t) := kept_update h
theorem kept_pairFault (h : Kept s t) : Kept s (pairFault t) := kept_latchG1 (kept_pulse h ..) ..
theorem keptOut_faultPairReadbackError (h : Kept s t) : KeptOut s (execFaultPairReadbackError t) :=
  keptOut_ite (keptOut_next (kept_pairFault (kept_setB h ..))) (keptOut_next h)
theorem keptOut_neighbourStateChange (h : Kept s t) (cause) : KeptOut s (execNeighbourStateChange cause t) :=
  keptOut_ite
      (have h1 : Kept s _ := kept_setF h ..
       keptOut_ite (keptOut_next (kept_drop (kept_setB (kept_setB h1 ..) ..) ..)) (keptOut_ite (keptOut_next (kept_setEvt (kept_pairFault (kept_update
           (kept_setB (kept_incSat h1 ..) ..))) ..)) (keptOut_next h1))) (keptOut_next h)
theorem keptOut_neighbourStuckTimeout (h : Kept s t) : KeptOut s (execNeighbourStuckTimeout t) :=
  keptOut_ite (keptOut_next (kept_pairFault (kept_setB h ..))) (keptOut_next h)
theorem kept_applyPairMode (h : Kept s t) : Kept s (applyPairMode t) := kept_ite h (kept_update (kept_setB (kept_setB (kept_setB h ..) ..) ..))
theorem keptOut_faultPairModeChange (h : Kept s t) : KeptOut s (execFaultPairModeChange t) :=
  keptOut_ite (keptOut_next (kept_applyPairMode h)) (keptOut_next h)
theorem kept_endHarness (h : Kept s t) (st) (failed) : Kept s (endHarness st failed t) := by
  unfold endHarness; dsimp only
  split
  · exact h
  · exact kept_complete (kept_enforceSwitches (kept_when (kept_setB (kept_update h) ..) (fun h1 => kept_pulse (kept_setB h1 ..) ..))) ..
theorem kept_harnessAbort (h : Kept s t) : Kept s (harnessAbort t) := kept_endHarness h ..
theorem kept_tripActions (h : Kept s t) (n) (isOv) : Kept s (tripActions n isOv t) :=
  kept_harnessAbort (kept_setEvt (kept_enforceSwitches (kept_driveFaultLevel (kept_pulse (kept_setLine (kept_setRegBit h ..) ..) ..))) ..)
theorem kept_markWaiting (h : Kept s t) (n) (isOv) (w) : Kept s (markWaiting n isOv w t) := kept_update h
theorem kept_actTripped (h : Kept s t) (n) (isOv) : Kept s (actTripped n isOv t) :=
  kept_ite h (kept_ite (kept_markWaiting h ..) (kept_tripActions h ..))
theorem keptOut_comparatorTrip (h : Kept s t) (n) (isOv) : KeptOut s (execComparatorTrip n isOv t) :=
  keptOut_ite
      (have h1 : Kept s _ := kept_actTripped (kept_setRegBit h ..) ..
       keptOut_next (kept_ite h1 (kept_wakeBy h1 ..))) (keptOut_next h)
theorem keptOut_comparatorRelease (h : Kept s t) (n) (isOv) : KeptOut s (execComparatorRelease n isOv t) :=
  keptOut_ite (keptOut_next (kept_markWaiting (kept_setRegBit h ..) ..)) (keptOut_next h)
theorem kept_standingTrips (h : Kept s t) (cells) : Kept s (standingTrips cells t) :=
  kept_foldl (fun _ h _ => have h2 : Kept s _ := kept_ite (kept_actTripped h ..) h
  kept_ite (kept_actTripped h2 ..) h2) _ h
theorem kept_waitingTrips (h : Kept s t) : Kept s (waitingTrips t) :=
  kept_foldl (fun _ h _ => have h2 : Kept s _ := kept_ite (kept_actTripped h ..) h
  kept_ite (kept_actTripped h2 ..) h2) _ (kept_update h)
theorem kept_dropComparators (h : Kept s t) : Kept s (dropComparators t) := kept_update (kept_setReg (kept_setReg h ..) ..)
theorem keptOut_sentinelComparatorSample (h : Kept s t) (ov) (uv) : KeptOut s (execSentinelComparatorSample ov uv t) :=
  keptOut_ite
      (have h1 : Kept s _ := kept_update h
       have h2 : Kept s _ := kept_setReg (kept_setReg h1 ..) ..
       keptOut_next (kept_ite h1 (kept_ite h2 (kept_wakeBy h2 ..)))) (keptOut_ite (keptOut_next h) (keptOut_next (kept_ite h (kept_joinWake h ..))))
theorem kept_clearFlags (h : Kept s t) (isOv) (bits) : Kept s (clearFlags isOv bits t) :=
  have h1 : Kept s _ := kept_setReg h ..
  kept_enforceSwitches (kept_ite (kept_drop h1 ..) h1)
theorem keptOut_cpbFlagClear (h : Kept s t) (isOv) (bits) (sets) : KeptOut s (execCpbFlagClear isOv bits sets t) :=
  keptOut_ite (keptOut_out (keptDone_ok (kept_clearFlags (kept_setReg h ..) ..))) (keptOut_next h)
theorem kept_switchFault (h : Kept s t) : Kept s (switchFault t) := kept_setEvt (kept_pulse h ..) ..
theorem kept_cellSwitchFault (h : Kept s t) (n) : Kept s (cellSwitchFault n t) := kept_latchG1 (kept_switchFault h) ..
theorem keptOut_comparatorCheck (h : Kept s t) (ovFlips) (uvFlips) : KeptOut s (execComparatorCheck ovFlips uvFlips t) :=
  have h1 : Kept s _ := kept_update h
  keptOut_ite (keptOut_next h) (keptOut_ite (keptOut_next h1)
      (have h2 : Kept s _ := kept_update h1
       keptOut_ite (keptOut_next (kept_cellSwitchFault (kept_setRegBit h2 ..) ..)) (keptOut_next h2)))
theorem kept_startHalf (h : Kept s t) (interval) (second) : Kept s (startHalf interval second t) :=
  have h1 : Kept s _ := kept_update h
  kept_ite (kept_update (kept_ite (kept_setB (kept_setB h1 ..) ..) h1)) h1
theorem keptOut_balancingHalfBoundary (h : Kept s t) : KeptOut s (execBalancingHalfBoundary t) := by
  unfold execBalancingHalfBoundary; dsimp only
  exact keptOut_ite (keptOut_next (kept_openHalf (kept_noteBleed (kept_setF (kept_setF (kept_update (kept_startHalf (kept_closeHalf (kept_noteBleed
      h)) ..)) ..) ..)))) (keptOut_next h)
theorem keptOut_switchOvercurrent (h : Kept s t) (n) : KeptOut s (execSwitchOvercurrent n t) :=
  keptOut_ite (keptOut_next (kept_enforceSwitches (kept_cellSwitchFault (kept_setRegBit h ..) ..))) (keptOut_next h)
theorem keptOut_switchCheck (h : Kept s t) (n) (v) : KeptOut s (execSwitchCheck n v t) :=
  keptOut_ite
      (have h1 : Kept s _ := kept_noteBleed (kept_update h)
       keptOut_next (kept_ite (kept_enforceSwitches (kept_cellSwitchFault (kept_setRegBit h1 ..) ..)) h1)) (keptOut_next h)
theorem kept_bleedThermal (h : Kept s t) (ts0) : Kept s (bleedThermal ts0 t) :=
  have h1 : Kept s _ := kept_ite (kept_setB h ..) h
  have h2 : Kept s _ := kept_ite (kept_enforceSwitches (kept_switchFault (kept_setB h1 ..))) h1
  kept_ite h2 (kept_update h2)
theorem kept_restartTimer (h : Kept s t) : Kept s (restartTimer t) := kept_update h
theorem kept_writeTimerPeriod (h : Kept s t) (period) : Kept s (writeTimerPeriod period t) := kept_restartTimer (kept_setF h ..)
theorem keptOut_cltcfgWrite (h : Kept s t) (period) : KeptOut s (execCltcfgWrite period t) :=
  keptOut_ite (keptOut_next h) (keptOut_ite (keptOut_fault _) (keptOut_out (keptDone_ok (kept_writeTimerPeriod h ..))))

/-! ## The impedance engine -/

theorem keptDone_rejectStart (h : Kept s t) (err) (pt) : KeptDone s (rejectStart err pt t) := keptDone_refuse (kept_setF (kept_setF h ..) ..) ..
theorem keptDone_startBusy (h : Kept s t) : KeptDone s (startBusy t) := by
  unfold startBusy
  refine keptDone_ite (keptDone_busy h ..) (keptDone_ite (keptDone_busy h ..) (keptDone_ite (keptDone_busy h ..) ?_))
  split
  · exact keptDone_busy h ..
  · exact keptDone_busyFree h
theorem kept_armPlan (h : Kept s t) : Kept s (armPlan t) := kept_update (kept_setF (kept_setF h ..) ..)
theorem keptDone_startPlan (h : Kept s t) : KeptDone s (startPlan t) := by
  unfold startPlan
  refine keptDone_ite (keptDone_refuse h ..) (keptDone_ite (keptDone_startBusy h) ?_)
  split
  · exact keptDone_rejectStart h ..
  · exact keptDone_ite (keptDone_rejectStart h ..) (keptDone_ok (kept_armPlan h))
theorem kept_finishAbort (h : Kept s t) (code) : Kept s (finishAbort code t) := kept_setEvt (kept_ite (kept_pulse h ..) h) ..
theorem kept_planAbort (h : Kept s t) (code) : Kept s (planAbort code t) :=
  kept_ite
      (have h1 : Kept s _ := kept_update (kept_setF (kept_setF (kept_ite (kept_useFree h) h) ..) ..)
       kept_ite h1 (kept_finishAbort h1 ..)) h
theorem kept_excitationStops (h : Kept s t) : Kept s (excitationStops t) :=
  kept_ite h (kept_foldl (fun _ h _ => kept_finishAbort h ..) _ (kept_update h))
theorem keptOut_impStop (h : Kept s t) : KeptOut s (execImpStop t) := keptOut_ite (keptOut_out (keptDone_ok (kept_planAbort h ..))) (keptOut_next h)
theorem keptOut_excitationFadeDone (h : Kept s t) : KeptOut s (execExcitationFadeDone t) := by
  unfold execExcitationFadeDone; dsimp only
  split
  · exact keptOut_next h
  · exact keptOut_ite (keptOut_next h) (keptOut_next (kept_finishAbort (kept_update h) ..))
theorem keptOut_planStart (h : Kept s t) : KeptOut s (execPlanStart t) :=
  keptOut_ite (keptOut_next h) (keptOut_ite (keptOut_next (kept_planAbort h ..)) (keptOut_next (kept_enforceSwitches (kept_update (kept_setF h ..)))))
theorem keptOut_stepStart (h : Kept s t) : KeptOut s (execStepStart t) :=
  keptOut_ite
      (have h1 : Kept s _ := kept_setF h ..
       keptOut_next (kept_update (kept_ite (kept_setF h1 ..) h1))) (keptOut_next h)
theorem kept_markStream (h : Kept s t) (overload) (p) : Kept s (markStream overload p t) := by
  unfold markStream; dsimp only
  exact kept_ite h (kept_update h)
theorem kept_noteWindow (h : Kept s t) : Kept s (noteWindow t) := kept_ite (kept_update h) h
theorem keptOut_windowOpen (h : Kept s t) : KeptOut s (execWindowOpen t) :=
  keptOut_ite (keptOut_next (kept_noteWindow (kept_update h))) (keptOut_next h)
theorem keptOut_windowClose (h : Kept s t) (samples) : KeptOut s (execWindowClose samples t) :=
  keptOut_ite (keptOut_next (kept_update (kept_noteWindow h))) (keptOut_next h)
theorem keptOut_stepEnd (h : Kept s t) : KeptOut s (execStepEnd t) :=
  keptOut_ite
      (have h1 : Kept s _ := kept_update h
       keptOut_ite (keptOut_next (kept_update h1))
           (have h2 : Kept s _ := kept_setEvt (kept_update h1) ..
            keptOut_ite (keptOut_next (kept_update (kept_setEvt (kept_setF h2 ..) ..))) (keptOut_next h2))) (keptOut_next h)
theorem keptOut_resultsWritten (h : Kept s t) : KeptOut s (execResultsWritten t) := by
  unfold execResultsWritten; dsimp only
  split
  · exact keptOut_next h
  · exact keptOut_next (kept_setEvt (kept_foldl (fun _ h _ => kept_ite (kept_pulse h ..) h) _ (kept_update h)) ..)
theorem kept_sendPairTick (h : Kept s t) : Kept s (sendPairTick t) := kept_ite (kept_sendRouted (kept_setB (kept_update h) ..) ..) h
theorem keptOut_pairTickReceive (h : Kept s t) (src) (epoch) (w) : KeptOut s (execPairTickReceive src epoch w t) := by
  unfold execPairTickReceive; dsimp only
  refine keptOut_ite ?_ (keptOut_next h)
  split
  · exact keptOut_next (kept_setF (kept_setF (kept_setF h ..) ..) ..)
  · exact keptOut_next (kept_when (kept_when (kept_update (kept_setF (kept_setF (kept_setF h ..) ..) ..)) (fun h1 => kept_setB h1 ..)) (fun h1 =>
        kept_planAbort h1 ..))
theorem keptOut_pairTickMissing (h : Kept s t) : KeptOut s (execPairTickMissing t) := by
  unfold execPairTickMissing; dsimp only
  split
  · exact keptOut_ite (keptOut_next (kept_when (kept_update (kept_setB (kept_incSat h ..) ..)) (fun h1 => kept_planAbort h1 ..))) (keptOut_next h)
  · exact keptOut_next h
theorem keptOut_impEngineFault (h : Kept s t) (results) : KeptOut s (execImpEngineFault results t) :=
  keptOut_ite (keptOut_next (kept_pulse h ..)) (keptOut_next h)

/-! ## Cell measurement -/

theorem kept_reportSettle (h : Kept s t) : Kept s (reportSettle t) := kept_setB (kept_setF h ..) ..
theorem kept_startCount (h : Kept s t) (p) : Kept s (startCount p t) := kept_reportSettle (kept_update h)
theorem kept_settleStreams (h : Kept s t) (overload) (p) : Kept s (settleStreams overload p t) := kept_markStream (kept_update h) ..
theorem kept_startSettle (h : Kept s t) (p) : Kept s (startSettle p t) := kept_settleStreams (kept_startCount h ..) ..
theorem kept_startSettleAll (h : Kept s t) : Kept s (startSettleAll t) := kept_startSettle h ..
theorem kept_closeSpan (h : Kept s t) : Kept s (closeSpan t) := kept_update h
theorem kept_applyFilter (h : Kept s t) : Kept s (applyFilter t) := kept_ite h (kept_startCount (kept_setF (kept_setF (kept_closeSpan h) ..) ..) ..)
theorem keptOut_filterSettingApply (h : Kept s t) : KeptOut s (execFilterSettingApply t) := by
  unfold execFilterSettingApply; dsimp only
  refine keptOut_ite (keptOut_next (kept_when ?_ (fun h1 => kept_applyFilter h1))) (keptOut_next h)
  split
  · exact kept_update (kept_setReg h ..)
  · exact h
theorem keptDone_writeCmsCfg (h : Kept s t) (w) : KeptDone s (writeCmsCfg w t) :=
  keptDone_ite (keptDone_ok (kept_update h)) (keptDone_ok (kept_update (kept_setReg h ..)))
theorem keptOut_cmsCfgWrite (h : Kept s t) (w) : KeptOut s (execCmsCfgWrite w t) :=
  keptOut_ite (keptOut_next h) (keptOut_ite (keptOut_fault _) (keptOut_ite (keptOut_next (kept_upset h)) (keptOut_out (keptDone_writeCmsCfg h ..))))
theorem keptDone_writeCmsChen (h : Kept s t) (w) : KeptDone s (writeCmsChen w t) :=
  keptDone_ite (keptDone_ok (kept_update h)) (keptDone_ok (kept_update (kept_setReg h ..)))
theorem keptOut_cmsChenWrite (h : Kept s t) (w) : KeptOut s (execCmsChenWrite w t) :=
  keptOut_ite (keptOut_next h) (keptOut_ite (keptOut_fault _) (keptOut_ite (keptOut_next (kept_upset h)) (keptOut_out (keptDone_writeCmsChen h ..))))
theorem kept_layoutHistory (h : Kept s t) : Kept s (layoutHistory t) := by
  unfold layoutHistory; dsimp only
  exact kept_setF (kept_setF (kept_setReg (kept_update h) ..) ..) ..
theorem keptOut_historyLayoutChange (h : Kept s t) : KeptOut s (execHistoryLayoutChange t) := by
  unfold execHistoryLayoutChange; dsimp only
  refine keptOut_ite (keptOut_next (kept_when ?_ (fun h1 => kept_layoutHistory h1))) (keptOut_next h)
  split
  · exact kept_update (kept_setReg h ..)
  · exact h
theorem keptOut_chopRateChange (h : Kept s t) : KeptOut s (execChopRateChange t) := keptOut_ite (keptOut_next (kept_setF h ..)) (keptOut_next h)
theorem kept_writeHistory (h : Kept s t) (c0) (r) : Kept s (writeHistory c0 r t) := kept_ite (kept_update h) h
theorem kept_writeLast (h : Kept s t) (c0) (r) : Kept s (writeLast c0 r t) := kept_setReg (kept_setReg h ..) ..
theorem kept_markOverload (h : Kept s t) (c0) : Kept s (markOverload c0 t) := kept_setLine (kept_update h) ..
theorem kept_countOverload (h : Kept s t) (c0) : Kept s (countOverload c0 t) := kept_ite (kept_pulse (kept_incSat (kept_markOverload h ..) ..) ..) h
theorem kept_endOverload (h : Kept s t) (c0) : Kept s (endOverload c0 t) := kept_ite (kept_startCount (kept_drop (kept_update h) ..) ..) h
theorem kept_testUnused (h : Kept s t) (rs) (vmodLow) : Kept s (testUnused rs vmodLow t) :=
  kept_ite h
      (have h1 : Kept s _ := kept_update h
       kept_ite
           (have h2 : Kept s _ := kept_enforceSwitches (kept_update h1)
            kept_ite (kept_dropComparators h2) (kept_waitingTrips h2)) h1)
theorem kept_catchSnapshot (h : Kept s t) (rs) : Kept s (catchSnapshot rs t) := kept_ite (kept_update h) h
theorem kept_wordBoundary (h : Kept s t) (outs) (vmodLow) : Kept s (wordBoundary outs vmodLow t) :=
  kept_noteWindow (kept_testUnused (kept_catchSnapshot (kept_reportSettle (kept_incWrap (kept_update (kept_foldl (fun _ h _ => kept_countOverload
      h ..) _ (kept_foldl (fun _ h _ => kept_writeLast (kept_writeHistory h ..) ..) _ (kept_foldl (fun _ h _ => kept_endOverload h ..) _
      (kept_noteBleed h))))) ..)) ..) ..)
theorem kept_clearBusy (h : Kept s t) : Kept s (clearBusy t) := kept_ite (kept_setB h ..) h
theorem keptOut_cmsSnapshotLatch (h : Kept s t) : KeptOut s (execCmsSnapshotLatch t) := by
  unfold execCmsSnapshotLatch; dsimp only
  split
  · exact keptOut_next h
  · exact keptOut_next (kept_clearBusy (kept_setB (kept_setB (kept_foldl (fun _ h _ => kept_setReg (kept_setReg h ..) ..) _ (kept_update h)) ..) ..))
theorem kept_stopPaths (h : Kept s t) : Kept s (stopPaths t) :=
  have h1 : Kept s _ := kept_update (kept_foldl (fun _ h _ => kept_ite (kept_drop h ..) h) _ h)
  kept_clearBusy (kept_ite h1 (kept_setB h1 ..))
theorem kept_startPaths (h : Kept s t) : Kept s (startPaths t) :=
  have h1 : Kept s _ := kept_update (kept_setF (kept_setF (kept_closeSpan h) ..) ..)
  kept_startSettleAll (kept_ite h1 (kept_layoutHistory h1))
theorem kept_overloadChannel (h : Kept s t) (c0) : Kept s (overloadChannel c0 t) := kept_settleStreams (kept_markOverload (kept_update h) ..) ..
theorem keptOut_modulatorOverload (h : Kept s t) (c0) : KeptOut s (execModulatorOverload c0 t) :=
  keptOut_ite (keptOut_next (kept_overloadChannel h ..)) (keptOut_next h)
theorem keptOut_modulatorStuck (h : Kept s t) (c0) : KeptOut s (execModulatorStuck c0 t) :=
  keptOut_ite (keptOut_next (kept_overloadChannel h ..)) (keptOut_next h)
theorem keptOut_filterParityFail (h : Kept s t) (c0) : KeptOut s (execFilterParityFail c0 t) :=
  keptOut_ite (keptOut_next (kept_pulse h ..)) (keptOut_next h)
theorem kept_putShadow (h : Kept s t) (req) (a0) (tag) : Kept s (putShadow req a0 tag t) := by
  unfold putShadow; dsimp only
  split
  · exact kept_update h
  · exact kept_update h
theorem keptPair_readValue (h : Kept s t) (req) (a0) : KeptPair s (readValue req a0 t) := keptPair_mk (kept_putShadow h ..) _
theorem keptPair_readTag (h : Kept s t) (req) (a0) : KeptPair s (readTag req a0 t) := by
  unfold readTag
  split
  · exact keptPair_ite (keptPair_mk (kept_putShadow h ..) _) (keptPair_mk h _)
  · exact keptPair_mk h _
theorem keptOut_recordValueRead (h : Kept s t) (req) (a0) : KeptOut s (execRecordValueRead req a0 t) :=
  keptOut_ite (keptOut_out (keptDone_read (kept_snd (keptPair_readValue h ..)) ..)) (keptOut_next h)
theorem keptOut_recordTagRead (h : Kept s t) (req) (a0) : KeptOut s (execRecordTagRead req a0 t) :=
  keptOut_ite (keptOut_out (keptDone_read (kept_snd (keptPair_readTag h ..)) ..)) (keptOut_next h)
theorem kept_putTime (h : Kept s t) (req) (t0) : Kept s (putTime req t0 t) := by
  unfold putTime; dsimp only
  split
  · exact kept_update h
  · exact kept_update h
theorem kept_useTime (h : Kept s t) (req) : Kept s (useTime req t) := by
  unfold useTime
  split
  · exact kept_putTime h ..
  · exact h
theorem keptPair_readHwidx (h : Kept s t) (req) : KeptPair s (readHwidx req t) := keptPair_mk (kept_putTime h ..) _
theorem keptOut_hwidxRead (h : Kept s t) (req) : KeptOut s (execHwidxRead req t) :=
  keptOut_ite (keptOut_out (keptDone_read (kept_snd (keptPair_readHwidx h ..)) ..)) (keptOut_next h)

/-! ## The secondary side and sense integrity -/

theorem kept_invalidate (h : Kept s t) (a0) : Kept s (invalidate a0 t) := kept_setRegBit h ..
theorem kept_invalidateAll (h : Kept s t) : Kept s (invalidateAll t) :=
  kept_invalidate (kept_update (kept_foldl (fun _ h _ => kept_invalidate (kept_invalidate h ..) ..) _ (kept_foldl (fun _ h _ => kept_invalidate h ..)
      _ (kept_foldl (fun _ h _ => kept_invalidate h ..) _ h)))) ..
theorem kept_showFenced (h : Kept s t) : Kept s (showFenced t) := kept_setB h ..
theorem kept_applyCellFences (h : Kept s t) : Kept s (applyCellFences t) :=
  have h1 : Kept s _ := kept_update (kept_foldl (fun _ h _ => kept_ite (kept_invalidate h ..) h) _ (kept_setReg (kept_setB (kept_setB (kept_setB
      (kept_setReg (kept_setReg h ..) ..) ..) ..) ..) ..))
  have h2 : Kept s _ := kept_ite h1
      (have h2 : Kept s _ := kept_setF (kept_update h1) ..
       kept_ite (kept_invalidateAll h2) h2)
  have h3 : Kept s _ := kept_ite h2 (kept_startSettle h2 ..)
  have h4 : Kept s _ := kept_ite (kept_planAbort h3 ..) h3
  kept_showFenced (kept_noteWindow (kept_ite (kept_endHarness h4 ..) h4))
theorem kept_extendBlame (h : Kept s t) : Kept s (extendBlame t) := kept_applyCellFences (kept_update h)
theorem kept_countOnce (h : Kept s t) (src) : Kept s (countOnce src t) :=
  have h1 : Kept s _ := kept_setLine h ..
  kept_ite h1 (kept_pulse (kept_update h1) ..)
theorem kept_walkSlots (h : Kept s t) (xb) (l) : Kept s (walkSlots xb l t) := kept_update h
theorem keptOut_xbFrameEnd (h : Kept s t) (xa) (xb) : KeptOut s (execXbFrameEnd xa xb t) :=
  keptOut_ite
      (have h1 : Kept s _ := kept_update (kept_foldl (fun _ h _ => kept_setReg h ..) _ (kept_walkSlots (kept_walkSlots h ..) ..))
       keptOut_next (kept_ite (kept_countOnce h1 ..) h1)) (keptOut_next h)
theorem keptOut_auxConfigApply (h : Kept s t) : KeptOut s (execAuxConfigApply t) :=
  keptOut_ite (keptOut_next (kept_update (kept_update h))) (keptOut_next h)
theorem kept_measureCells (h : Kept s t) (rs) : Kept s (measureCells rs t) := kept_update h
theorem kept_closeCells (h : Kept s t) (rs) : Kept s (closeCells rs t) :=
  kept_foldl (fun _ h _ => kept_ite h (kept_setReg h ..)) _ (kept_measureCells h ..)
theorem kept_closeOthers (h : Kept s t) (rs) : Kept s (closeOthers rs t) :=
  kept_update (kept_foldl (fun _ h _ => kept_setReg h ..) _ (kept_setReg (kept_foldl (fun _ h _ => kept_setReg h ..) _ h) ..))
theorem kept_sumCheck (h : Kept s t) : Kept s (sumCheck t) :=
  kept_ite h
      (have h1 : Kept s _ := kept_setReg h ..
       kept_ite h1
           (have h2 : Kept s _ := kept_update h1
            have h3 : Kept s _ := kept_ite (kept_drop h2 ..) h2
            kept_ite (kept_pulse (kept_setLine h3 ..) ..) h3))
theorem kept_supervise (h : Kept s t) (n) (v) (parts) : Kept s (supervise n v parts t) :=
  have h1 : Kept s _ := kept_update h
  have h2 : Kept s _ := kept_ite (kept_tripActions h1 ..) h1
  kept_ite (kept_tripActions h2 ..) h2
theorem kept_unsupervise (h : Kept s t) (n) : Kept s (unsupervise n t) := kept_update h
theorem kept_superviseOpen (h : Kept s t) : Kept s (superviseOpen t) :=
  have h1 : Kept s _ := kept_foldl (fun _ h _ => kept_ite (kept_supervise h ..) (kept_unsupervise h ..)) _ h
  kept_ite (kept_supervise (kept_setReg h1 ..) ..) (kept_unsupervise h1 ..)
theorem kept_harnessInterval (h : Kept s t) (v) : Kept s (harnessInterval v t) := by
  unfold harnessInterval; dsimp only
  split
  · exact h
  · exact kept_ite h (kept_ite (kept_harnessAbort h) (kept_noteBleed (kept_setF (kept_setF (kept_update h) ..) ..)))
theorem keptDone_startHarness (h : Kept s t) (tk) : KeptDone s (startHarness tk t) := by
  unfold startHarness; dsimp only
  refine keptDone_ite (keptDone_refuse h ..) (keptDone_ite (keptDone_refuse h ..) (keptDone_ite (keptDone_startBusy h) ?_))
  split
  · exact keptDone_busy h ..
  · exact keptDone_ite (keptDone_refuse (kept_pulse (kept_setB (kept_setB (kept_setB h ..) ..) ..) ..) ..) (keptDone_later (kept_enforceSwitches
        (kept_setB (kept_update (kept_setB (kept_setB h ..) ..)) ..)))
theorem keptOut_via {d : Done} (h : KeptDone s d) (tk) : KeptOut s (d.via tk) := keptOut_next (kept_ite h (kept_complete h ..))
theorem keptOut_harnessMeasurementStart (h : Kept s t) (tk) : KeptOut s (execHarnessMeasurementStart tk t) :=
  keptOut_ite (keptOut_via (keptDone_startHarness h ..) ..) (keptOut_next h)
theorem keptOut_harnessMeasurementDone (h : Kept s t) : KeptOut s (execHarnessMeasurementDone t) := by
  unfold execHarnessMeasurementDone; dsimp only
  split
  · exact keptOut_next h
  · exact keptOut_ite (keptOut_next h) (keptOut_ite (keptOut_next (kept_complete (kept_pulse (kept_setB (kept_enforceSwitches (kept_setB (kept_update
        h) ..)) ..) ..) ..)) (keptOut_next (kept_complete (kept_setB (kept_foldl (fun _ h _ => kept_setReg h ..) _ (kept_enforceSwitches (kept_setB
        (kept_update h) ..))) ..) ..)))
theorem kept_scheduleTests (h : Kept s t) : Kept s (scheduleTests t) := kept_ite (kept_update h) (kept_update h)
theorem keptOut_openWireSweepStart (h : Kept s t) : KeptOut s (execOpenWireSweepStart t) :=
  keptOut_ite (keptOut_next (kept_update h)) (keptOut_next h)
theorem kept_declareOpen (h : Kept s t) (k) : Kept s (declareOpen k t) :=
  kept_noteWindow (kept_enforceSwitches (kept_countOnce (kept_setRegBit (kept_update h) ..) ..))
theorem kept_clearOpen (h : Kept s t) (k) : Kept s (clearOpen k t) :=
  have h1 : Kept s _ := kept_setRegBit h ..
  kept_standingTrips (kept_enforceSwitches (kept_ite (kept_drop h1 ..) h1)) ..
theorem keptOut_openWireTest (h : Kept s t) (baseLo) (baseHi) (withLo) (withHi) : KeptOut s (execOpenWireTest baseLo baseHi withLo withHi t) := by
  unfold execOpenWireTest; dsimp only
  split
  · exact keptOut_next h
  · exact keptOut_ite (keptOut_next h) (keptOut_next (kept_when (kept_ite (kept_declareOpen (kept_ite (kept_countOnce (kept_setF (kept_setF (kept_setF
        (kept_update h) ..) ..) ..) ..) (kept_when (kept_setF (kept_setF (kept_setF (kept_update h) ..) ..) ..) (fun h1 => kept_drop h1 ..))) ..)
        (kept_when (kept_ite (kept_countOnce (kept_setF (kept_setF (kept_setF (kept_update h) ..) ..) ..) ..) (kept_when (kept_setF (kept_setF
        (kept_setF (kept_update h) ..) ..) ..) (fun h1 => kept_drop h1 ..))) (fun h1 => kept_clearOpen h1 ..))) (fun h1 => kept_standingTrips h1 ..)))
theorem keptOut_suspectHoldExpiry (h : Kept s t) (k) : KeptOut s (execSuspectHoldExpiry k t) :=
  keptOut_ite (keptOut_next (kept_standingTrips (kept_update h) ..)) (keptOut_next h)
theorem kept_suspectCheck (h : Kept s t) : Kept s (suspectCheck t) := kept_ite h (kept_ite h (kept_planAbort (kept_update h) ..))
theorem kept_checkC0 (h : Kept s t) : Kept s (checkC0 t) :=
  kept_ite h
      (have h1 : Kept s _ := kept_update h
       kept_ite (kept_declareOpen h1 ..) (kept_ite (kept_clearOpen h1 ..) h1))
theorem kept_countInterval (h : Kept s t) : Kept s (countInterval t) :=
  have h1 : Kept s _ := kept_foldl (fun _ h _ => kept_ite (kept_countOnce h ..) h) _ h
  kept_update (kept_ite h1 (kept_drop h1 ..))
theorem kept_closeBleed (h : Kept s t) : Kept s (closeBleed t) := kept_update (kept_when (kept_noteBleed h) (fun h1 => kept_closeHalf h1))
theorem kept_countAuxOver (h : Kept s t) : Kept s (countAuxOver t) := kept_ite (kept_countOnce h ..) h
theorem kept_openInterval (h : Kept s t) : Kept s (openInterval t) := kept_noteBleed (kept_update h)
theorem kept_startSecondary (h : Kept s t) : Kept s (startSecondary t) := kept_invalidateAll (kept_update h)
theorem keptOut_intervalBoundary (h : Kept s t) (prim) : KeptOut s (execIntervalBoundary prim t) := by
  unfold execIntervalBoundary; dsimp only
  exact keptOut_ite
      (have h1 : Kept s _ := kept_closeBleed (kept_countInterval (kept_countAuxOver h))
       keptOut_next (kept_noteWindow (kept_sendPairTick (kept_scheduleTests (kept_harnessInterval (kept_openInterval (kept_superviseOpen
           (kept_sumCheck (kept_update (kept_ite h1 (kept_closeOthers (kept_closeCells h1 ..) ..)))))) ..))))) (keptOut_next h)
theorem keptOut_fallbackResult (h : Kept s t) : KeptOut s (execFallbackResult t) :=
  keptOut_ite (keptOut_next (kept_update (kept_foldl (fun _ h _ => kept_ite (kept_setReg (kept_update h) ..) h) _ h))) (keptOut_next h)
theorem keptOut_converterSelfCheck (h : Kept s t) (xb) : KeptOut s (execConverterSelfCheck xb t) :=
  keptOut_ite (keptOut_next (kept_ite (kept_countOnce h ..) (kept_drop h ..))) (keptOut_next h)
theorem kept_pairChecks (h : Kept s t) : Kept s (pairChecks t) :=
  have h1 : Kept s _ := kept_update h
  kept_ite (kept_pulse (kept_setLine h1 ..) ..) (kept_drop h1 ..)
theorem kept_intervalSource (h : Kept s t) (src) (active) : Kept s (intervalSource src active t) :=
  kept_ite (kept_pulse (kept_setLine h ..) ..) (kept_drop h ..)
theorem kept_crossCheck (h : Kept s t) : Kept s (crossCheck t) :=
  have h1 : Kept s _ := kept_setReg (kept_setReg (kept_setReg (kept_update h) ..) ..) ..
  kept_extendBlame (kept_pairChecks (kept_ite h1 (kept_intervalSource (kept_intervalSource (kept_intervalSource h1 ..) ..) ..)))
theorem keptOut_crossCheckComparison (h : Kept s t) : KeptOut s (execCrossCheckComparison t) :=
  keptOut_ite (keptOut_next (kept_noteWindow (kept_checkC0 (kept_suspectCheck (kept_ite h (kept_crossCheck h)))))) (keptOut_next h)
theorem keptOut_balancingGateStart (h : Kept s t) : KeptOut s (execBalancingGateStart t) :=
  keptOut_ite (keptOut_next (kept_enforceSwitches (kept_update h))) (keptOut_next h)
theorem keptOut_balancingGateEnd (h : Kept s t) : KeptOut s (execBalancingGateEnd t) :=
  keptOut_ite (keptOut_next (kept_enforceSwitches (kept_update h))) (keptOut_next h)

/-! ## The converter -/

theorem kept_moveTarget (h : Kept s t) (s0) : Kept s (moveTarget s0 t) := kept_ite (kept_update h) h
theorem kept_acceptCode (h : Kept s t) (code) : Kept s (acceptCode code t) := kept_moveTarget (kept_setF h ..) _
theorem kept_clearTrims (h : Kept s t) : Kept s (clearTrims t) := kept_setReg (kept_update h) ..
theorem kept_quiet (h : Kept s t) : Kept s (quiet t) := kept_update (kept_setB (kept_setB (kept_setF (kept_setF (kept_clearTrims h) ..) ..) ..) ..)
theorem kept_leaveRunning (h : Kept s t) (dest) : Kept s (leaveRunning dest t) :=
  have h1 : Kept s _ := kept_setF (kept_quiet (kept_ite (kept_planAbort h ..) h)) ..
  have h2 : Kept s _ := kept_ite (kept_setEvt h1 ..) h1
  kept_excitationStops (kept_ite (kept_setEvt (kept_update h2) ..) h2)
theorem kept_immediateStop (h : Kept s t) (dest) : Kept s (immediateStop dest t) := kept_ite h (kept_leaveRunning h ..)
theorem kept_commandedStop (h : Kept s t) : Kept s (commandedStop t) := by
  unfold commandedStop; dsimp only
  split
  · exact kept_leaveRunning (kept_update h) ..
  · exact kept_leaveRunning (kept_update h) ..
  · exact kept_leaveRunning (kept_update h) ..
  · exact kept_setF (kept_update (kept_when (kept_update h) (fun h1 => kept_planAbort h1 ..))) ..
  · exact kept_setF (kept_update (kept_when (kept_update h) (fun h1 => kept_planAbort h1 ..))) ..
  · exact h
theorem kept_enterCheck (h : Kept s t) : Kept s (enterCheck t) := kept_update (kept_setF (kept_quiet h) ..)
theorem kept_placeEdges (h : Kept s t) : Kept s (placeEdges t) := kept_update h
theorem kept_enterSoftStart (h : Kept s t) (vbs) : Kept s (enterSoftStart vbs t) :=
  kept_placeEdges (kept_update (kept_setReg (kept_setB (kept_setF (kept_setF (kept_setF (kept_clearTrims h) ..) ..) ..) ..) ..))
theorem keptDone_startConverter (h : Kept s t) : KeptDone s (startConverter t) :=
  keptDone_ite (keptDone_refuse h ..) (keptDone_ite (keptDone_busy h ..) (keptDone_ite (keptDone_busyFree h) (keptDone_ite (keptDone_ok h)
      (keptDone_ite (keptDone_refuse (kept_setF h ..) ..) (keptDone_ite (keptDone_ok h)
      (have h1 : Kept s _ := kept_clearTrims (kept_update (kept_setF h ..))
       keptDone_ite (keptDone_ok (kept_enterCheck h1)) (keptDone_ok (kept_setF h1 ..))))))))
theorem kept_clearConverterFault (h : Kept s t) : Kept s (clearConverterFault t) :=
  kept_unless (kept_setF (kept_quiet h) ..) (fun h1 => kept_ite h1 h)
theorem keptOut_cnvStart (h : Kept s t) : KeptOut s (execCnvStart t) := keptOut_ite (keptOut_out (keptDone_startConverter h)) (keptOut_next h)
theorem keptOut_cnvStop (h : Kept s t) : KeptOut s (execCnvStop t) :=
  keptOut_ite (keptOut_next h) (keptOut_ite (keptOut_out (keptDone_refuse h ..)) (keptOut_out (keptDone_ok (kept_commandedStop h))))
theorem keptOut_cnvClrflt (h : Kept s t) : KeptOut s (execCnvClrflt t) :=
  keptOut_ite (keptOut_next h) (keptOut_ite (keptOut_out (keptDone_refuse h ..)) (keptOut_out (keptDone_ok (kept_clearConverterFault h))))
theorem keptOut_cnvLoadc (h : Kept s t) : KeptOut s (execCnvLoadc t) :=
  keptOut_ite (keptOut_next h) (keptOut_ite (keptOut_out (keptDone_refuse h ..)) (keptOut_out (keptDone_ok (kept_update h))))
theorem keptOut_coefficientLoad (h : Kept s t) : KeptOut s (execCoefficientLoad t) := keptOut_ite (keptOut_next (kept_update h)) (keptOut_next h)
theorem kept_writeCnvCfg (h : Kept s t) (w) : Kept s (writeCnvCfg w t) :=
  have h1 : Kept s _ := kept_setReg h ..
  kept_ite h1 (kept_moveTarget (kept_setF h1 ..) _)
theorem kept_writeTrimCfg (h : Kept s t) (w) : Kept s (writeTrimCfg w t) :=
  have h1 : Kept s _ := kept_setReg h ..
  kept_ite h1 (kept_clearTrims h1)
theorem kept_storeCnv (h : Kept s t) (a0) (w) : Kept s (storeCnv a0 w t) :=
  kept_ite (kept_writeCnvCfg h ..) (kept_ite (kept_writeTrimCfg h ..) (kept_ite (kept_setReg h ..) (kept_setReg h ..)))
theorem kept_writeVselsw (h : Kept s t) (code) : Kept s (writeVselsw code t) :=
  have h1 : Kept s _ := kept_setF h ..
  kept_ite (kept_acceptCode h1 ..) h1
theorem keptOut_cnvVselswWrite (h : Kept s t) (code) : KeptOut s (execCnvVselswWrite code t) :=
  keptOut_ite (keptOut_out (keptDone_ok (kept_writeVselsw h ..))) (keptOut_next h)
theorem kept_countViolation (h : Kept s t) (a0) : Kept s (countViolation a0 t) := kept_setF (kept_incSat h ..) ..
theorem kept_writeVtgt (h : Kept s t) (k) (mv) : Kept s (writeVtgt k mv t) :=
  kept_ite (kept_countViolation h ..)
      (have h1 : Kept s _ := kept_setF h ..
       kept_ite (kept_moveTarget h1 _) h1)
theorem keptOut_cnvVtgtWrite (h : Kept s t) (k) (mv) : KeptOut s (execCnvVtgtWrite k mv t) :=
  keptOut_ite (keptOut_out (keptDone_ok (kept_writeVtgt h ..))) (keptOut_next h)
theorem keptOut_vselCodeAccept (h : Kept s t) (code) : KeptOut s (execVselCodeAccept code t) :=
  keptOut_ite
      (have h1 : Kept s _ := kept_update h
       keptOut_next (kept_ite (kept_acceptCode h1 ..) h1)) (keptOut_next h)
theorem keptOut_busPresent (h : Kept s t) (vbs) : KeptOut s (execBusPresent vbs t) :=
  keptOut_ite
      (have h1 : Kept s _ := kept_update h
       keptOut_next (kept_ite (kept_enterCheck h1) h1)) (keptOut_next h)
theorem keptOut_busLoss (h : Kept s t) (vbs) : KeptOut s (execBusLoss vbs t) :=
  have h1 : Kept s _ := kept_update h
  keptOut_ite (keptOut_next h) (keptOut_ite (keptOut_next (kept_pulse (kept_leaveRunning h1 ..) ..)) (keptOut_next h1))
theorem kept_markPhases (h : Kept s t) (f) (l) : Kept s (markPhases f l t) := kept_setF h ..
theorem kept_excludePhases (h : Kept s t) (l) : Kept s (excludePhases l t) := kept_ite h (kept_pulse (kept_markPhases h ..) ..)
theorem keptOut_checkSampleEnd (h : Kept s t) (means) : KeptOut s (execCheckSampleEnd means t) :=
  keptOut_ite
      (have h1 : Kept s _ := kept_excludePhases h ..
       keptOut_next (kept_ite (kept_leaveRunning h1 ..) (kept_update h1))) (keptOut_next h)
theorem keptOut_driverWakeDone (h : Kept s t) (vbs) : KeptOut s (execDriverWakeDone vbs t) :=
  keptOut_ite (keptOut_next (kept_ite (kept_leaveRunning h ..) (kept_enterSoftStart h ..))) (keptOut_next h)
theorem keptOut_shsTestPartEnd (h : Kept s t) (means) (vbsRise) (vbs) : KeptOut s (execShsTestPartEnd means vbsRise vbs t) :=
  keptOut_ite (keptOut_ite (keptOut_next (kept_leaveRunning (kept_pulse (kept_markPhases h ..) ..) ..))
      (have h1 : Kept s _ := kept_excludePhases h ..
       keptOut_ite (keptOut_next (kept_leaveRunning h1 ..)) (keptOut_ite (keptOut_next (kept_update h1)) (keptOut_next (kept_enterSoftStart h1 ..)))))
      (keptOut_next h)
theorem keptOut_softStartComplete (h : Kept s t) : KeptOut s (execSoftStartComplete t) :=
  keptOut_ite (keptOut_next (kept_setEvt (kept_setF (kept_update h) ..) ..)) (keptOut_next h)
theorem keptOut_shortDetect (h : Kept s t) : KeptOut s (execShortDetect t) :=
  keptOut_ite
      (have h1 : Kept s _ := kept_pulse h ..
       keptOut_ite (keptOut_next (kept_update (kept_pulse (kept_incSat (kept_leaveRunning h1 ..) ..) ..))) (keptOut_next (kept_pulse
           (kept_leaveRunning h1 ..) ..))) (keptOut_next h)
theorem keptOut_hiccupOffElapsed (h : Kept s t) : KeptOut s (execHiccupOffElapsed t) :=
  keptOut_ite (keptOut_next (kept_enterCheck h)) (keptOut_next h)
theorem keptOut_hiccupCountClear (h : Kept s t) : KeptOut s (execHiccupCountClear t) := keptOut_ite (keptOut_next (kept_update h)) (keptOut_next h)
theorem keptOut_rampDownComplete (h : Kept s t) : KeptOut s (execRampDownComplete t) :=
  keptOut_ite (keptOut_next (kept_leaveRunning h ..)) (keptOut_next h)
theorem kept_refreshPhases (h : Kept s t) : Kept s (refreshPhases t) :=
  kept_ite (kept_ite (kept_immediateStop h ..) (kept_ite h (kept_placeEdges (kept_clearTrims (kept_setF h ..))))) (kept_ite (kept_immediateStop h ..)
      h)
theorem kept_lockSync (h : Kept s t) : Kept s (lockSync t) := kept_ite (kept_setB (kept_setB h ..) ..) h
theorem keptOut_switchingPeriod (h : Kept s t) (sense) (valley) (vbs) (vmod) : KeptOut s (execSwitchingPeriod sense valley vbs vmod t) :=
  keptOut_ite (keptOut_next (kept_placeEdges (kept_lockSync (kept_setReg (kept_setReg (kept_foldl (fun _ h _ => kept_setReg h ..) _ (kept_update
      h)) ..) ..)))) (keptOut_next h)
theorem kept_reportTrims (h : Kept s t) : Kept s (reportTrims t) := kept_setReg h ..
theorem keptOut_phaseEqualisation (h : Kept s t) : KeptOut s (execPhaseEqualisation t) :=
  keptOut_ite (keptOut_next (kept_reportTrims (kept_update (kept_update h)))) (keptOut_next (kept_update h))
theorem keptOut_trimLimitTimeout (h : Kept s t) (n) : KeptOut s (execTrimLimitTimeout n t) :=
  keptOut_ite (keptOut_next (kept_refreshPhases (kept_pulse (kept_markPhases h ..) ..))) (keptOut_next h)
theorem kept_setLevel (h : Kept s t) (level) : Kept s (setLevel level t) := kept_refreshPhases (kept_setF h ..)
theorem keptOut_shedDecision (h : Kept s t) : KeptOut s (execShedDecision t) := by
  unfold execShedDecision; dsimp only
  refine keptOut_ite (keptOut_next h) ?_
  split
  · exact keptOut_ite (keptOut_ite (keptOut_next (kept_update h)) (keptOut_next h)) (keptOut_ite (keptOut_next (kept_update h)) (keptOut_next h))
  · exact keptOut_ite (keptOut_next (kept_setLevel h ..)) (keptOut_ite (keptOut_next (kept_update h)) (keptOut_next h))
  · exact keptOut_ite (keptOut_next (kept_setLevel h ..)) (keptOut_next h)
theorem keptOut_shedWindowEnd (h : Kept s t) : KeptOut s (execShedWindowEnd t) := by
  unfold execShedWindowEnd; dsimp only
  split
  · exact keptOut_next (kept_setLevel (kept_update h) ..)
  · exact keptOut_next h
theorem kept_endBraking (h : Kept s t) : Kept s (endBraking t) := kept_ite (kept_update (kept_setB h ..)) h
theorem keptOut_loadStepDetect (h : Kept s t) : KeptOut s (execLoadStepDetect t) :=
  keptOut_ite
      (have h1 : Kept s _ := kept_endBraking h
       keptOut_ite (keptOut_next (kept_setEvt (kept_incSat (kept_update h1) ..) ..)) (keptOut_ite (keptOut_next (kept_setLevel (kept_update h1) ..))
           (keptOut_next h1))) (keptOut_next h)
theorem keptOut_shedHoldExpiry (h : Kept s t) : KeptOut s (execShedHoldExpiry t) := keptOut_ite (keptOut_next (kept_update h)) (keptOut_next h)
theorem keptOut_brakingStart (h : Kept s t) : KeptOut s (execBrakingStart t) :=
  keptOut_ite (keptOut_next (kept_update (kept_incSat (kept_setB h ..) ..))) (keptOut_next h)
theorem keptOut_brakingEnd (h : Kept s t) : KeptOut s (execBrakingEnd t) := keptOut_ite (keptOut_next (kept_endBraking h)) (keptOut_next h)
theorem keptOut_continuousConductionStart (h : Kept s t) : KeptOut s (execContinuousConductionStart t) :=
  keptOut_ite (keptOut_next (kept_setLevel (kept_update h) ..)) (keptOut_next h)
theorem keptOut_crowbarFire (h : Kept s t) (vbs) : KeptOut s (execCrowbarFire vbs t) :=
  keptOut_ite (keptOut_next (kept_update (kept_setReg (kept_setEvt (kept_pulse (kept_leaveRunning h ..) ..) ..) ..))) (keptOut_next h)
theorem keptOut_cycleLimit (h : Kept s t) (n) (sense) : KeptOut s (execCycleLimit n sense t) :=
  keptOut_ite (keptOut_next h) (keptOut_ite (keptOut_next (kept_update h)) (keptOut_ite (keptOut_next (kept_update h)) (keptOut_next h)))
theorem keptOut_currentLimitSustained (h : Kept s t) : KeptOut s (execCurrentLimitSustained t) :=
  keptOut_ite (keptOut_next (kept_pulse (kept_planAbort h ..) ..)) (keptOut_next h)
theorem keptOut_hardTrip (h : Kept s t) (n) (sense) : KeptOut s (execHardTrip n sense t) :=
  keptOut_ite (keptOut_next (kept_pulse (kept_immediateStop h ..) ..)) (keptOut_next h)
theorem keptOut_transferOvervoltage (h : Kept s t) (vbs) : KeptOut s (execTransferOvervoltage vbs t) :=
  keptOut_ite (keptOut_next (kept_pulse (kept_immediateStop h ..) ..)) (keptOut_next h)
theorem keptOut_moduleVoltageFault (h : Kept s t) (vmod) : KeptOut s (execModuleVoltageFault vmod t) :=
  keptOut_ite (keptOut_next (kept_pulse (kept_immediateStop (kept_update h) ..) ..)) (keptOut_next h)
theorem keptOut_pinReadbackMismatch (h : Kept s t) (n) : KeptOut s (execPinReadbackMismatch n t) :=
  keptOut_ite (keptOut_next (kept_refreshPhases (kept_pulse (kept_markPhases (kept_planAbort h ..) ..) ..))) (keptOut_next h)
theorem keptOut_compensatorMismatch (h : Kept s t) : KeptOut s (execCompensatorMismatch t) :=
  keptOut_ite (keptOut_next (kept_pulse h ..)) (keptOut_next h)
theorem keptOut_csyncEdge (h : Kept s t) : KeptOut s (execCsyncEdge t) := by
  unfold execCsyncEdge; dsimp only
  refine keptOut_ite ?_ (keptOut_next h)
  split
  · exact keptOut_next (kept_update h)
  · exact keptOut_ite (keptOut_next (kept_update h)) (keptOut_ite (keptOut_next (kept_update h)) (keptOut_next (kept_when (kept_update h) (fun h1 =>
        kept_useFree (kept_update h1)))))
theorem keptOut_syncLoss (h : Kept s t) : KeptOut s (execSyncLoss t) :=
  keptOut_ite (keptOut_next (kept_update (kept_ite (kept_setEvt (kept_pulse (kept_incSat (kept_setB h ..) ..) ..) ..) h))) (keptOut_next h)
theorem keptOut_csyncStuck (h : Kept s t) : KeptOut s (execCsyncStuck t) :=
  keptOut_ite (keptOut_next (kept_setEvt (kept_pulse (kept_setB h ..) ..) ..)) (keptOut_next h)
theorem keptOut_wordBoundary (h : Kept s t) (outs) (vmodLow) : KeptOut s (execWordBoundary outs vmodLow t) :=
  keptOut_ite
      (have h1 : Kept s _ := kept_wordBoundary h ..
       keptOut_next (kept_ite (kept_immediateStop h1 ..) h1)) (keptOut_next h)

/-! ## The control engine -/

theorem kept_copyTable (h : Kept s t) : Kept s (copyTable t) := kept_setB (kept_update h) ..
theorem kept_resetEngine (h : Kept s t) : Kept s (resetEngine t) :=
  kept_update (kept_setF (kept_setReg (kept_setF (kept_setB (kept_setF h ..) ..) ..) ..) ..)
theorem kept_runProfile (h : Kept s t) : Kept s (runProfile t) :=
  have h1 : Kept s _ := kept_setF (kept_setF (kept_setF (kept_setB (kept_setF (kept_update h) ..) ..) ..) ..) ..
  kept_ite (kept_setEvt h1 ..) h1
theorem kept_runVoltage (h : Kept s t) (e) (g) : Kept s (runVoltage e g t) :=
  kept_setF (kept_setF (kept_setB (kept_setF (kept_update h) ..) ..) ..) ..
theorem keptOut_controlTick (h : Kept s t) (vbs) (vmod) (itot) : KeptOut s (execControlTick vbs vmod itot t) := by
  unfold execControlTick; dsimp only
  refine keptOut_ite (keptOut_next h) (keptOut_ite (keptOut_next (kept_upset (kept_when (kept_setReg (kept_setReg (kept_update h) ..) ..) (fun h1 =>
      kept_copyTable h1)))) (keptOut_ite (keptOut_next (kept_when (kept_setReg (kept_setReg (kept_update h) ..) ..) (fun h1 => kept_copyTable h1)))
      ?_))
  refine keptOut_next ?_
  split
  · exact kept_ite (kept_runVoltage (kept_setF (kept_setF (kept_setF (kept_update (kept_when (kept_setReg (kept_setReg (kept_update h) ..) ..) (fun h1
        => kept_copyTable h1))) ..) ..) ..) ..) (kept_runProfile (kept_setF (kept_update (kept_when (kept_setReg (kept_setReg (kept_update h) ..) ..)
        (fun h1 => kept_copyTable h1))) ..))
  · exact kept_ite (kept_runVoltage (kept_setF (kept_setF (kept_setF (kept_update (kept_when (kept_setReg (kept_setReg (kept_update h) ..) ..) (fun h1
        => kept_copyTable h1))) ..) ..) ..) ..) (kept_runProfile (kept_setF (kept_update (kept_when (kept_setReg (kept_setReg (kept_update h) ..) ..)
        (fun h1 => kept_copyTable h1))) ..))
  · exact kept_setB (kept_setF (kept_setF (kept_update (kept_when (kept_setReg (kept_setReg (kept_update h) ..) ..) (fun h1 => kept_copyTable
        h1))) ..) ..) ..
  · exact kept_resetEngine (kept_setF (kept_update (kept_when (kept_setReg (kept_setReg (kept_update h) ..) ..) (fun h1 => kept_copyTable h1))) ..)
theorem kept_noteClip (h : Kept s t) (clip) (move) : Kept s (noteClip clip move t) :=
  have h1 : Kept s _ := kept_setB (kept_ite (kept_setEvt (kept_incSat h ..) ..) h) ..
  kept_ite h1 (kept_update h1)
theorem keptOut_summingUpdate (h : Kept s t) : KeptOut s (execSummingUpdate t) :=
  keptOut_ite (keptOut_next h) (keptOut_next (kept_noteClip (kept_setF (kept_update h) ..) ..))
theorem keptDone_loadLut (h : Kept s t) : KeptDone s (loadLut t) := keptDone_ite (keptDone_refuse h ..) (keptDone_ok (kept_setB h ..))
theorem keptOut_loadlut (h : Kept s t) : KeptOut s (execLoadlut t) := keptOut_ite (keptOut_out (keptDone_loadLut h)) (keptOut_next h)
theorem keptDone_writeTarget (h : Kept s t) (w) : KeptDone s (writeTarget w t) :=
  keptDone_ite (keptDone_refuse h ..) (keptDone_ok (kept_setB (kept_setF h ..) ..))
theorem keptOut_targetWrite (h : Kept s t) (w) : KeptOut s (execTargetWrite w t) :=
  keptOut_ite (keptOut_out (keptDone_writeTarget h ..)) (keptOut_next h)
theorem keptOut_trackingFault (h : Kept s t) : KeptOut s (execTrackingFault t) :=
  keptOut_ite (keptOut_next (kept_setEvt (kept_incSat (kept_pulse h ..) ..) ..)) (keptOut_next h)
theorem keptOut_outputAtLimit (h : Kept s t) : KeptOut s (execOutputAtLimit t) := keptOut_ite (keptOut_next (kept_pulse h ..)) (keptOut_next h)
theorem keptOut_ctlEngineFault (h : Kept s t) (parity) : KeptOut s (execCtlEngineFault parity t) :=
  keptOut_ite (keptOut_next (kept_pulse h ..)) (keptOut_next h)

end

end Sys2Proof.Machine
end

