-- ==== Sys2Proof/Proofs/KeptFabric.lean ====
section
/-!
PROOFS. What the operations of the links, the fabric and the timebase keep.
-/
namespace Sys2Proof.Machine

-- The many short lemmas are elaborated one after the other: at once, they need more threads than the check's memory holds.
set_option Elab.async false

section
variable {s t u : State}

/-! ## The CRC unit -/

theorem kept_crcFeed (h : Kept s t) (n) (data) : Kept s (crcFeed n data t) := kept_setReg h ..
theorem keptOut_crcDataWrite (h : Kept s t) (size) (data) : KeptOut s (execCrcDataWrite size data t) :=
  keptOut_ite (keptOut_next h) (keptOut_ite (keptOut_next (kept_upset h)) (keptOut_out (keptDone_ok (kept_crcFeed h ..))))

/-! ## Routes, sessions and home sets -/

theorem kept_setEntry (h : Kept s t) (id) (e) : Kept s (setEntry id e t) := kept_update h

/-! ## Requests of a gateway -/

theorem kept_modEntry (h : Kept s t) (id) (f) : Kept s (modEntry id f t) := kept_setEntry (kept_update h) ..
theorem kept_applyHeld (h : Kept s t) (id) : Kept s (applyHeld id t) := by
  unfold applyHeld; dsimp only
  refine kept_ite h ?_
  split
  · exact kept_setEntry (kept_update h) ..
  · exact h
theorem kept_sendRunReq (h : Kept s t) (f) (tag) : Kept s (sendRunReq f tag t) := kept_sendRouted (kept_refreshOut (kept_update h)) ..
theorem kept_modRun (h : Kept s t) (f) : Kept s (modRun f t) := kept_update h
theorem kept_runSend (h : Kept s t) : Kept s (runSend t) := by
  unfold runSend
  split
  · exact h
  · refine kept_ite h (kept_ite ?_ ?_)
    · split
      · exact kept_sendRunReq (kept_useFree (kept_modRun h ..)) ..
      · exact h
    · split
      · exact kept_modRun h ..
      · exact kept_sendRunReq (kept_useFree (kept_modRun h ..)) ..
      · exact h
theorem kept_runDone (h : Kept s t) (r) (good) : Kept s (runDone r good t) := kept_modRun h ..
theorem kept_dropReq (h : Kept s t) (r) : Kept s (dropReq r t) := by
  unfold dropReq; dsimp only
  refine kept_refreshOut ?_
  split
  · exact kept_applyHeld (kept_update h) ..
  · exact kept_update h
theorem kept_finishReq (h : Kept s t) (r) (st) (data) (tval) (cached) (epoch) : Kept s (finishReq r st data tval cached epoch t) := by
  unfold finishReq; dsimp only
  refine kept_runSend ?_
  split
  · exact kept_finishHost (kept_dropReq h ..) ..
  · exact kept_runDone (kept_dropReq h ..) ..
theorem kept_frameLeft (h : Kept s t) (f) : Kept s (frameLeft f t) := by
  unfold frameLeft; dsimp only
  split
  · exact h
  · exact kept_ite (kept_finishReq h ..) (kept_update h)
theorem kept_reissueReq (h : Kept s t) (r) (route) : Kept s (reissueReq r route t) :=
  have h1 : Kept s _ := kept_update h
  kept_sendRouted (kept_ite (kept_incSat h1 ..) h1) ..
theorem kept_reissueTo (h : Kept s t) (id) : Kept s (reissueTo id t) := kept_foldl (fun _ h _ => kept_reissueReq h ..) _ h
theorem kept_endRequestsTo (h : Kept s t) (id) (st) (epoch) : Kept s (endRequestsTo id st epoch t) :=
  kept_foldl (fun _ h _ => kept_finishReq h ..) _ h

/-! ## Ports and links -/

theorem kept_enterPort (h : Kept s t) (n) (code) (d0) : Kept s (enterPort n code d0 t) :=
  have h1 : Kept s _ := kept_modPort (kept_setRegBit (kept_setB (kept_setF h ..) ..) ..) ..
  kept_ite (kept_setB h1 ..) h1
theorem kept_beginTraining (h : Kept s t) (n) (fromLpi) : Kept s (beginTraining n fromLpi t) :=
  kept_modPort (kept_unless (kept_enterPort h ..) (fun h1 => kept_setF h1 ..)) ..
theorem kept_enterDown (h : Kept s t) (n) : Kept s (enterDown n t) := kept_modPort (kept_enterPort h ..) ..
theorem kept_restPort (h : Kept s t) (n) : Kept s (restPort n t) :=
  kept_ite (kept_ite (kept_enterPort h ..) (kept_enterPort h ..)) (kept_ite (kept_enterDown h ..) (kept_enterPort h ..))
theorem keptOut_partnerTrainingDetect (h : Kept s t) (n) : KeptOut s (execPartnerTrainingDetect n t) :=
  keptOut_ite (keptOut_next h) (keptOut_ite (keptOut_next (kept_beginTraining h ..)) (keptOut_ite (keptOut_next (kept_beginTraining h ..))
      (keptOut_next h)))
theorem kept_putLine (h : Kept s t) (n) (ins) (f) (seq) (retx) : Kept s (putLine n ins f seq retx t) :=
  kept_addSat (kept_incWrap (kept_modPort h ..) ..) ..
theorem kept_takeLpar (h : Kept s t) (n) (w) : Kept s (takeLpar n w t) := kept_setF (kept_setF h ..) ..
theorem keptOut_linkUp (h : Kept s t) (n) (lpar) (idles) : KeptOut s (execLinkUp n lpar idles t) :=
  keptOut_ite (keptOut_next (kept_clearFalseWake (kept_setEvt (kept_incWrap (kept_putLine (kept_modPort (kept_setF (kept_takeLpar (kept_enterPort
      h ..) ..) ..) ..) ..) ..) ..) ..)) (keptOut_next h)
theorem keptOut_trainingAbandon (h : Kept s t) (n) (cause) (lpar) : KeptOut s (execTrainingAbandon n cause lpar t) := by
  unfold execTrainingAbandon
  refine keptOut_ite (keptOut_next (kept_setEvt (kept_setF (kept_incSat (kept_restPort ?_ ..) ..) ..) ..)) (keptOut_next h)
  split
  · exact kept_takeLpar h ..
  · exact h
theorem keptOut_trainingSignalCycle (h : Kept s t) (n) : KeptOut s (execTrainingSignalCycle n t) :=
  keptOut_ite (keptOut_next (kept_modPort h ..)) (keptOut_next h)
theorem keptOut_presetApply (h : Kept s t) (n) : KeptOut s (execPresetApply n t) := keptOut_ite (keptOut_next (kept_setF h ..)) (keptOut_next h)
theorem keptOut_lpiEntry (h : Kept s t) (n) : KeptOut s (execLpiEntry n t) :=
  keptOut_ite (keptOut_next (kept_modPort (kept_enterPort h ..) ..)) (keptOut_next h)
theorem keptOut_lpiReceive (h : Kept s t) (n) : KeptOut s (execLpiReceive n t) := keptOut_ite (keptOut_next (kept_enterPort h ..)) (keptOut_next h)
theorem keptOut_lpiExit (h : Kept s t) (n) : KeptOut s (execLpiExit n t) := keptOut_ite (keptOut_next (kept_beginTraining h ..)) (keptOut_next h)
theorem kept_sendWake (h : Kept s t) (n) : Kept s (sendWake n t) := kept_ite (kept_modPort (kept_enterPort h ..) ..) h
theorem keptDone_linkWakeCommand (h : Kept s t) (n) : KeptDone s (linkWakeCommand n t) := keptDone_ok (kept_sendWake h ..)
theorem keptOut_linkWakeCommand (h : Kept s t) (n) : KeptOut s (execLinkWakeCommand n t) :=
  keptOut_ite (keptOut_out (keptDone_linkWakeCommand h ..)) (keptOut_next h)
theorem keptOut_wakePatternEnd (h : Kept s t) (n) : KeptOut s (execWakePatternEnd n t) :=
  keptOut_ite (keptOut_next (kept_restPort h ..)) (keptOut_next h)
theorem kept_refreshRbuf (h : Kept s t) (n) : Kept s (refreshRbuf n t) := kept_setF (kept_setF h ..) ..
theorem kept_modDelay (h : Kept s t) (n) (f) : Kept s (modDelay n f t) := kept_update h
theorem keptPair_stampDelay (h : Kept s t) (n) (ins) (f) : KeptPair s (stampDelay n ins f t) := by
  unfold stampDelay; dsimp only
  refine keptPair_ite (keptPair_mk h _) ?_
  split
  · exact keptPair_mk (kept_modDelay h ..) _
  · exact keptPair_mk h _
  · exact keptPair_mk h _
theorem kept_sendNew (h : Kept s t) (n) (ins) (input) (f0) : Kept s (sendNew n ins input f0 t) :=
  have h1 : Kept s _ := kept_snd (keptPair_stampDelay h ..)
  have h2 : Kept s _ := kept_refreshRbuf (kept_ite (kept_modPort (kept_putLine (kept_modPort h1 ..) ..) ..) (kept_putLine h1 ..)) ..
  kept_ite (kept_frameLeft h2 ..) h2
theorem kept_serveClass (h : Kept s t) (n) (ins) (cl) : Kept s (serveClass n ins cl t) := by
  unfold serveClass; dsimp only
  split
  · exact h
  · exact kept_sendNew (kept_modPort h ..) ..
theorem kept_sendLack (h : Kept s t) (n) (ins) : Kept s (sendLack n ins t) := kept_sendNew h ..
theorem kept_insertReady (h : Kept s t) (n) (k) : Kept s (insertReady n k t) := by
  induction k generalizing t with
  | zero => exact h
  | succ k ih =>
    unfold insertReady; dsimp only; split
    · exact kept_ite (ih (kept_serveClass h ..)) h
    · exact kept_ite (kept_sendLack h ..) h
theorem keptOut_frameTransmit (h : Kept s t) (n) : KeptOut s (execFrameTransmit n t) := by
  unfold execFrameTransmit; dsimp only
  refine keptOut_ite (keptOut_ite (keptOut_next (kept_insertReady (kept_releaseBroadcasts h) ..)) (keptOut_ite (keptOut_next (kept_serveClass
      (kept_releaseBroadcasts (kept_modPort h ..)) ..)) ?_)) (keptOut_next h)
  split
  · exact keptOut_next (kept_serveClass (kept_releaseBroadcasts (kept_modPort h ..)) ..)
  · exact keptOut_next (kept_when (kept_releaseBroadcasts (kept_modPort h ..)) (fun h1 => kept_sendLack h1 ..))
theorem kept_putFrames (h : Kept s t) (n) (l) : Kept s (putFrames n l t) := kept_ite (kept_modPort h ..) h
theorem keptOut_legacyResponseFrame (h : Kept s t) (bytes) : KeptOut s (execLegacyResponseFrame bytes t) :=
  keptOut_ite (keptOut_next (kept_putFrames h ..)) (keptOut_next h)

/-! ## The fabric -/

theorem kept_takeInbox (h : Kept s t) (arrival) (f) : Kept s (takeInbox arrival f t) := by
  unfold takeInbox; dsimp only
  split
  · exact kept_update h
  · exact h
theorem kept_sendLinkdown (h : Kept s t) (n) (cause) : Kept s (sendLinkdown n cause t) := by
  unfold sendLinkdown; dsimp only
  exact kept_ite (kept_broadcast h ..) h
theorem kept_sendLinkup (h : Kept s t) (n) : Kept s (sendLinkup n t) := by
  unfold sendLinkup; dsimp only
  exact kept_broadcast h ..
theorem kept_sendLeave (h : Kept s t) : Kept s (sendLeave t) := kept_broadcast h ..
theorem kept_sendRoleend (h : Kept s t) : Kept s (sendRoleend t) := kept_ite (kept_broadcast h ..) h
theorem keptOut_beatSend (h : Kept s t) : KeptOut s (execBeatSend t) :=
  keptOut_ite (keptOut_next (kept_foldl (fun _ h _ => kept_ite (kept_linkLocal h ..) h) _ h)) (keptOut_next h)
theorem kept_sendStatus (h : Kept s t) (k) : Kept s (sendStatus k t) := kept_ite (kept_sendHome h h ..) h
theorem keptOut_statusSend (h : Kept s t) : KeptOut s (execStatusSend t) :=
  keptOut_ite (keptOut_next (kept_sendStatus (kept_sendStatus (kept_update h) ..) ..)) (keptOut_next h)
theorem kept_setSession (h : Kept s t) (k) (e) : Kept s (setSession k e t) := kept_update h
theorem kept_mapSessions (h : Kept s t) (f) : Kept s (mapSessions f t) := kept_update h
theorem kept_rewindSessions (h : Kept s t) (k) : Kept s (rewindSessions k t) := kept_update h
theorem kept_suspendSessions (h : Kept s t) (k) : Kept s (suspendSessions k t) := kept_mapSessions h ..
theorem kept_countSwitch (h : Kept s t) : Kept s (countSwitch t) := kept_setEvt (kept_incSat (kept_update h) ..) ..
theorem kept_failHome (h : Kept s t) (hit) (k) : Kept s (failHome hit k t) := by
  unfold failHome; dsimp only
  exact kept_ite h (kept_ite h
      (have h1 : Kept s _ := kept_ite (kept_pulse (kept_setB h ..) ..) h
       have h2 : Kept s _ := kept_ite (kept_pulse (kept_setB h1 ..) ..) h1
       kept_ite (kept_suspendSessions (kept_pulse h2 ..) ..) (kept_ite (kept_rewindSessions (kept_update (kept_countSwitch (kept_setB h2 ..))) ..) h2)))
theorem kept_failEntry (h : Kept s t) (hit) (id) : Kept s (failEntry hit id t) :=
  kept_ite h (kept_ite (kept_endRequestsTo (kept_setEvt (kept_setEntry h ..) ..) ..) (kept_when (kept_setEntry h ..) (fun h1 => kept_reissueTo
      (kept_countSwitch h1) ..)))
theorem kept_failRoutes (h : Kept s t) (hit) : Kept s (failRoutes hit t) :=
  have h1 : Kept s _ := kept_update (kept_failHome (kept_failHome h ..) ..)
  kept_ite (kept_foldl (fun _ h _ => kept_failEntry h ..) _ h1) h1
theorem kept_noteCut (h : Kept s t) (a0) (b0) : Kept s (noteCut a0 b0 t) := by
  unfold noteCut; dsimp only
  split
  · exact kept_update h
  · exact h
theorem kept_failLink (h : Kept s t) (a0) (b0) : Kept s (failLink a0 b0 t) := kept_failRoutes (kept_noteCut h ..) ..
theorem keptOut_beatReceive (h : Kept s t) (n) (f) : KeptOut s (execBeatReceive n f t) :=
  keptOut_ite
      (have h1 : Kept s _ := kept_modPort (kept_setReg (kept_takeInbox h ..) ..) ..
       keptOut_ite (keptOut_next h1) (keptOut_next (kept_sendLinkup (kept_modPort h1 ..) ..))) (keptOut_next h)
theorem keptOut_linkdownReceive (h : Kept s t) (arrival) (f) : KeptOut s (execLinkdownReceive arrival f t) :=
  keptOut_ite (keptOut_next (kept_failLink (kept_takeInbox h ..) ..)) (keptOut_next h)
theorem keptOut_linkupReceive (h : Kept s t) (arrival) (f) : KeptOut s (execLinkupReceive arrival f t) :=
  keptOut_ite
      (have h1 : Kept s _ := kept_takeInbox h ..
       keptOut_next (kept_ite (kept_update h1) h1)) (keptOut_next h)
theorem keptOut_leaveReceive (h : Kept s t) (arrival) (f) : KeptOut s (execLeaveReceive arrival f t) :=
  keptOut_ite
      (have h1 : Kept s _ := kept_takeInbox h ..
       keptOut_next (kept_ite (kept_failLink h1 ..) h1)) (keptOut_next h)
theorem keptOut_roleendReceive (h : Kept s t) (arrival) (f) : KeptOut s (execRoleendReceive arrival f t) := by
  unfold execRoleendReceive; dsimp only
  refine keptOut_ite ?_ (keptOut_next h)
  split
  · exact keptOut_next (kept_suspendSessions (kept_takeInbox h ..) ..)
  · exact keptOut_next (kept_takeInbox h ..)
theorem kept_takeEpoch (h : Kept s t) (id) (epoch) : Kept s (takeEpoch id epoch t) :=
  kept_ite h (kept_endRequestsTo (kept_setEvt (kept_update (kept_modEntry h ..)) ..) ..)
theorem keptOut_statusReceive (h : Kept s t) (arrival) (f) : KeptOut s (execStatusReceive arrival f t) :=
  keptOut_ite
      (have h1 : Kept s _ := kept_takeInbox h ..
       keptOut_ite (keptOut_next (kept_takeEpoch (kept_modEntry h1 ..) ..)) (keptOut_next h1)) (keptOut_next h)
theorem keptOut_statusMissed (h : Kept s t) (id) : KeptOut s (execStatusMissed id t) :=
  keptOut_ite
      (have h1 : Kept s _ := kept_modEntry h ..
       keptOut_next (kept_ite (kept_setEvt (kept_pulse h1 ..) ..) h1)) (keptOut_next h)
theorem keptOut_broadcastPairExpiry (h : Kept s t) (src) (tag) : KeptOut s (execBroadcastPairExpiry src tag t) := keptOut_next (kept_update h)
theorem keptOut_plannedSwitchResume (h : Kept s t) (k) : KeptOut s (execPlannedSwitchResume k t) :=
  keptOut_ite (keptOut_next (kept_update h)) (keptOut_next h)
theorem keptOut_tagRelease (h : Kept s t) (tag) : KeptOut s (execTagRelease tag t) := keptOut_next (kept_runSend (kept_update h))
theorem keptOut_streamFrameSend (h : Kept s t) (k) : KeptOut s (execStreamFrameSend k t) := by
  unfold execStreamFrameSend; dsimp only
  refine keptOut_ite ?_ (keptOut_next h)
  split
  · exact keptOut_next h
  · exact keptOut_ite (keptOut_next (kept_ite h (kept_setSession (kept_sendRouted h ..) ..))) (keptOut_next h)
theorem kept_roomEvent (h : Kept s t) : Kept s (roomEvent t) := kept_ite (kept_update h) h
theorem kept_pushEvent (h : Kept s t) (e) : Kept s (pushEvent e t) :=
  kept_ite h (kept_ite (kept_incSat h ..)
      (have h1 : Kept s _ := kept_roomEvent h
       kept_ite (kept_update h1) (kept_pulse (kept_incSat (kept_update h1) ..) ..)))
theorem kept_sendEvent (h : Kept s t) (k) (payload) : Kept s (sendEvent k payload t) :=
  kept_ite (kept_sendHome h (kept_incSat h ..) ..) (kept_incSat h ..)
theorem keptOut_eventFrameSend (h : Kept s t) (block) : KeptOut s (execEventFrameSend block t) := by
  unfold execEventFrameSend; dsimp only
  split
  · exact keptOut_next h
  · refine keptOut_ite (keptOut_next h) (keptOut_ite (keptOut_next (kept_pushEvent (kept_update h) ..)) ?_)
    split
    · exact keptOut_next (kept_sendEvent (kept_update h) ..)
    · exact keptOut_next (kept_sendEvent (kept_update h) ..)
    · exact keptOut_next (kept_sendEvent (kept_sendEvent (kept_update h) ..) ..)

/-! ## The timebase and reins -/

theorem kept_advanceTime (h : Kept s t) : Kept s (advanceTime t) := kept_update h
theorem kept_tick (h : Kept s t) : Kept s (tick t) := kept_ite (kept_takeSpread (kept_advanceTime (kept_update h)) _) (kept_update h)
theorem kept_announce (h : Kept s t) : Kept s (announce t) := kept_foldl (fun _ h _ => kept_ite (kept_linkLocal h ..) h) _ h
theorem kept_enterTb (h : Kept s t) (code) : Kept s (enterTb code t) := kept_setB (kept_setF (kept_update (kept_ite (kept_planAbort h ..) h)) ..) ..
theorem kept_takeParent (h : Kept s t) (n) (h0) : Kept s (takeParent n h0 t) := by
  unfold takeParent; dsimp only
  refine kept_announce ?_
  split
  · exact kept_enterTb (kept_setF (kept_setF (kept_update h) ..) ..) ..
  · exact kept_enterTb (kept_setF (kept_setF (kept_update h) ..) ..) ..
  · exact kept_setF (kept_setF (kept_update h) ..) ..
theorem kept_enterFreerun (h : Kept s t) : Kept s (enterFreerun t) := kept_setF (kept_enterTb (kept_update (kept_ite (kept_pulse h ..) h)) ..) ..
theorem kept_enterHoldover (h : Kept s t) : Kept s (enterHoldover t) :=
  have h1 : Kept s _ := kept_announce (kept_pulse (kept_setF (kept_enterTb (kept_update h) ..) ..) ..)
  kept_ite (kept_enterFreerun h1) h1
theorem kept_loseParent (h : Kept s t) : Kept s (loseParent t) := by
  unfold loseParent
  refine kept_ite h ?_
  split
  · exact kept_takeParent h ..
  · exact kept_ite (kept_enterHoldover h) (kept_enterFreerun h)
theorem kept_portLostTime (h : Kept s t) (n) : Kept s (portLostTime n t) :=
  have h1 : Kept s _ := kept_modDelay h ..
  kept_ite (kept_loseParent h1) h1
theorem kept_refreshRoot (h : Kept s t) : Kept s (refreshRoot t) := by
  unfold refreshRoot; dsimp only
  refine kept_ite h (kept_ite (kept_setB (kept_setF (kept_enterTb (kept_update h) ..) ..) ..) ?_)
  split
  · exact kept_takeParent (kept_setB (kept_update h) ..) ..
  · exact kept_enterHoldover (kept_setB (kept_update h) ..)
theorem kept_hearRoot (h : Kept s t) : Kept s (hearRoot t) := kept_ite h (kept_pulse (kept_setB h ..) ..)
theorem kept_takeReport (h : Kept s t) (n) (f) : Kept s (takeReport n f t) := by
  unfold takeReport; dsimp only
  refine kept_ite (kept_when (kept_modDelay h ..) (fun h1 => kept_hearRoot h1)) (kept_ite (kept_ite (kept_ite (kept_loseParent (kept_modDelay h ..))
      (kept_setF (kept_modDelay h ..) ..)) ?_) (kept_ite (kept_modDelay h ..) ?_))
  · split
    · exact kept_when (kept_modDelay (kept_modDelay h ..) ..) (fun h1 => kept_takeParent h1 ..)
    · exact kept_modDelay (kept_modDelay h ..) ..
  · split
    · exact kept_takeParent (kept_modDelay h ..) ..
    · exact kept_modDelay h ..
theorem keptOut_delayRequestSend (h : Kept s t) : KeptOut s (execDelayRequestSend t) :=
  keptOut_ite (keptOut_next (kept_foldl (fun _ h _ => kept_ite (kept_linkLocal (kept_modDelay h ..) ..) h) _ h)) (keptOut_next h)
theorem keptOut_delayRequestReceive (h : Kept s t) (n) (f) (ago) : KeptOut s (execDelayRequestReceive n f ago t) :=
  keptOut_ite (keptOut_next (kept_linkLocal (kept_takeReport (kept_takeInbox h ..) ..) ..)) (keptOut_next h)
theorem kept_reportDelay (h : Kept s t) (n) : Kept s (reportDelay n t) :=
  have h1 : Kept s _ := kept_modDelay (kept_setReg h ..) ..
  kept_ite (kept_pulse h1 ..) h1
theorem kept_moveTime (h : Kept s t) (v) : Kept s (moveTime v t) := kept_update h
theorem kept_stepTime (h : Kept s t) (off) : Kept s (stepTime off t) :=
  have h1 : Kept s _ := kept_moveTime h ..
  kept_ite (kept_startSettleAll (kept_planAbort h1 ..)) h1
theorem kept_steerRate (h : Kept s t) : Kept s (steerRate t) := kept_update (kept_useFree (kept_ite h (kept_useFree h)))
theorem kept_steer (h : Kept s t) (off) : Kept s (steer off t) :=
  have h1 : Kept s _ := kept_setReg h ..
  have h2 : Kept s _ := kept_update (kept_ite (kept_stepTime h1 ..) (kept_steerRate h1))
  kept_ite (kept_enterTb h2 ..) (kept_ite (kept_enterTb h2 ..) h2)
theorem keptOut_delayResponseReceive (h : Kept s t) (n) (f) (ago) : KeptOut s (execDelayResponseReceive n f ago t) := by
  unfold execDelayResponseReceive; dsimp only
  refine keptOut_ite ?_ (keptOut_next h)
  split
  · exact keptOut_next (kept_takeReport (kept_takeInbox h ..) ..)
  · exact keptOut_ite (keptOut_next (kept_when (kept_reportDelay (kept_modDelay (kept_takeReport (kept_takeInbox h ..) ..) ..) ..) (fun h1 =>
        kept_steer h1 ..))) (keptOut_next (kept_takeReport (kept_takeInbox h ..) ..))
theorem keptOut_announceReceive (h : Kept s t) (n) (f) : KeptOut s (execAnnounceReceive n f t) :=
  keptOut_ite (keptOut_next (kept_takeReport (kept_takeInbox h ..) ..)) (keptOut_next h)
theorem keptOut_holdoverParentSearch (h : Kept s t) : KeptOut s (execHoldoverParentSearch t) := by
  unfold execHoldoverParentSearch
  refine keptOut_ite ?_ (keptOut_next h)
  split
  · exact keptOut_next (kept_takeParent h ..)
  · exact keptOut_next h
theorem keptOut_holdoverTimeout (h : Kept s t) : KeptOut s (execHoldoverTimeout t) :=
  keptOut_ite (keptOut_next (kept_enterFreerun h)) (keptOut_next h)
theorem keptOut_rootConflictDelay (h : Kept s t) : KeptOut s (execRootConflictDelay t) :=
  keptOut_ite (keptOut_next (kept_hearRoot h)) (keptOut_next h)
theorem keptDone_stepCommand (h : Kept s t) : KeptDone s (stepCommand t) := keptDone_ok (kept_ite (kept_update h) h)
theorem keptOut_step (h : Kept s t) : KeptOut s (execStep t) := keptOut_ite (keptOut_out (keptDone_stepCommand h)) (keptOut_next h)
theorem keptOut_rootTimeStep (h : Kept s t) : KeptOut s (execRootTimeStep t) :=
  keptOut_ite (keptOut_next (kept_moveTime (kept_update h) ..)) (keptOut_next h)
theorem kept_latchBlocks (h : Kept s t) : Kept s (latchBlocks t) :=
  kept_foldl (fun _ h _ => kept_setReg h ..) _ (kept_setReg (kept_setReg (kept_setReg (kept_setReg (kept_setReg (kept_setReg (kept_setReg
      h ..) ..) ..) ..) ..) ..) ..)
theorem kept_latchRecords (h : Kept s t) (t0) : Kept s (latchRecords t0 t) := kept_ite (kept_setB (kept_update h) ..) h
theorem kept_latchRein (h : Kept s t) (t0) (slack) : Kept s (latchRein t0 slack t) :=
  kept_clearBusy (kept_latchRecords (kept_latchBlocks (kept_update (kept_ite h (kept_setF (kept_setB h ..) ..)))) ..)
theorem kept_takeRein (h : Kept s t) (t0) (src) (origin) (count) (remote) : Kept s (takeRein t0 src origin count remote t) :=
  kept_ite (kept_incSat h ..) (kept_unless (kept_incSat h ..) (fun h1 => kept_ite h1
      (have h2 : Kept s _ := kept_update (kept_setB (kept_setB (kept_setReg (kept_setReg (kept_setReg (kept_setB (kept_setF (kept_setB (kept_setB
           (kept_setB (kept_setB (kept_setB h ..) ..) ..) ..) ..) ..) ..) ..) ..) ..) ..) ..)
       kept_ite (kept_latchRein h2 ..) h2)))
theorem kept_issueRein (h : Kept s t) (t0) (src) (bcast) : Kept s (issueRein t0 src bcast t) :=
  have h1 : Kept s _ := kept_takeRein (kept_update h) ..
  kept_ite (kept_broadcast h1 ..) h1
theorem keptDone_reinCommand (h : Kept s t) (bcast) (imm) : KeptDone s (reinCommand bcast imm t) := keptDone_ok (kept_issueRein h ..)
theorem keptOut_reinGo (h : Kept s t) (bcast) (imm) : KeptOut s (execReinGo bcast imm t) :=
  keptOut_ite (keptOut_out (keptDone_reinCommand h ..)) (keptOut_next h)
theorem keptOut_reinReceive (h : Kept s t) (arrival) (f) : KeptOut s (execReinReceive arrival f t) :=
  keptOut_ite (keptOut_next (kept_takeRein (kept_takeInbox h ..) ..)) (keptOut_next h)
theorem keptOut_reinLatch (h : Kept s t) : KeptOut s (execReinLatch t) := by
  unfold execReinLatch
  split
  · exact keptOut_ite (keptOut_next (kept_latchRein h ..)) (keptOut_next h)
  · exact keptOut_next h
theorem keptDone_clearFull (h : Kept s t) : KeptDone s (clearFull t) := keptDone_ok (kept_ite h (kept_setB h ..))
theorem keptOut_fullClear (h : Kept s t) : KeptOut s (execFullClear t) := keptOut_ite (keptOut_out (keptDone_clearFull h)) (keptOut_next h)
theorem keptOut_snapEdge (h : Kept s t) (ago) : KeptOut s (execSnapEdge ago t) :=
  keptOut_ite
      (have h1 : Kept s _ := kept_setB (kept_update h) ..
       keptOut_ite
           (have h2 : Kept s _ := kept_incSat (kept_update h1) ..
            keptOut_next (kept_ite (kept_pulse h2 ..) h2)) (keptOut_next (kept_issueRein (kept_update h1) ..))) (keptOut_next h)
theorem keptOut_snapStuckTimeout (h : Kept s t) : KeptOut s (execSnapStuckTimeout t) :=
  keptOut_ite (keptOut_next (kept_pulse (kept_setB (kept_setB h ..) ..) ..)) (keptOut_next h)
theorem keptOut_snapStuckClear (h : Kept s t) : KeptOut s (execSnapStuckClear t) :=
  keptOut_ite (keptOut_next (kept_setB (kept_setB h ..) ..)) (keptOut_next h)

/-! ## The loss of a link -/

theorem kept_handBack (h : Kept s t) (f) : Kept s (handBack f t) := by
  unfold handBack
  split
  · exact kept_incSat h ..
  · exact kept_incSat h ..
  · exact h
theorem kept_linkLoss (h : Kept s t) (n) (cause) : Kept s (linkLoss n cause t) :=
  have h1 : Kept s _ := kept_foldl (fun _ h _ => kept_handBack h ..) _ (kept_setEvt (kept_incSat (kept_setF (kept_setF (kept_modPort (kept_restPort
      (kept_modPort h ..) ..) ..) ..) ..) ..) ..)
  kept_portLostTime (kept_failLink (kept_sendLinkdown (kept_ite h1 (kept_pulse h1 ..)) ..) ..) ..
theorem keptOut_signalEnergyLoss (h : Kept s t) (n) : KeptOut s (execSignalEnergyLoss n t) :=
  keptOut_ite (keptOut_next (kept_linkLoss h ..)) (keptOut_next h)
theorem keptOut_receiveLockLoss (h : Kept s t) (n) : KeptOut s (execReceiveLockLoss n t) :=
  keptOut_ite (keptOut_next (kept_linkLoss h ..)) (keptOut_next h)
theorem keptOut_retryBufferParity (h : Kept s t) (n) : KeptOut s (execRetryBufferParity n t) :=
  keptOut_ite (keptOut_next (kept_linkLoss h ..)) (keptOut_next h)
theorem keptOut_lpiExitTimeout (h : Kept s t) (n) : KeptOut s (execLpiExitTimeout n t) :=
  keptOut_ite (keptOut_next (kept_linkLoss h ..)) (keptOut_next h)
theorem kept_retrain (h : Kept s t) (n) : Kept s (retrain n t) := kept_ite (kept_restPort (kept_modPort h ..) ..) (kept_ite (kept_linkLoss h ..) h)
theorem keptOut_retrain (h : Kept s t) (n) : KeptOut s (execRetrain n t) :=
  keptOut_ite (keptOut_out (keptDone_ok (kept_retrain h ..))) (keptOut_next h)
theorem kept_closePort (h : Kept s t) (n) : Kept s (closePort n t) := kept_ite (kept_linkLoss h ..) (kept_restPort h ..)
theorem kept_openPort (h : Kept s t) (n) : Kept s (openPort n t) := kept_ite (kept_restPort h ..) h
theorem keptOut_hoofbeatLost (h : Kept s t) (n) : KeptOut s (execHoofbeatLost n t) :=
  keptOut_ite (keptOut_next (kept_pulse (kept_linkLoss h ..) ..)) (keptOut_next h)
theorem kept_replay (h : Kept s t) (n) (cl) (from_) : Kept s (replay n cl from_ t) :=
  kept_ite (kept_linkLoss h ..) (kept_foldl (fun _ h _ => kept_modPort (kept_putLine (kept_incSat h ..) ..) ..) _ (kept_modPort h ..))
theorem keptOut_ackTimeout (h : Kept s t) (n) (a0) : KeptOut s (execAckTimeout n a0 t) :=
  keptOut_ite (keptOut_next (kept_replay (kept_incSat h ..) ..)) (keptOut_next h)
theorem kept_holdPlanned (h : Kept s t) : Kept s (holdPlanned t) := kept_update h
theorem kept_takeAck (h : Kept s t) (n) (cl) (k) : Kept s (takeAck n cl k t) := by
  unfold takeAck; dsimp only
  split
  · exact kept_refreshRbuf (kept_modPort (kept_holdPlanned h) ..) ..
  · exact h
theorem kept_takeNak (h : Kept s t) (n) (cl) (k) : Kept s (takeNak n cl k t) := by
  unfold takeNak
  split
  · exact kept_replay h ..
  · exact h
theorem kept_takeAcks (h : Kept s t) (n) (l) : Kept s (takeAcks n l t) :=
  have h1 : Kept s _ := kept_ite (kept_takeAck h ..) h
  have h2 : Kept s _ := kept_ite (kept_takeAck h1 ..) h1
  have h3 : Kept s _ := kept_ite (kept_takeNak h2 ..) h2
  kept_ite (kept_takeNak h3 ..) h3
theorem kept_deliver (h : Kept s t) (arrival) (f) : Kept s (deliver arrival f t) := kept_update h
theorem kept_routeOn (h : Kept s t) (arrival) (f) : Kept s (routeOn arrival f t) :=
  kept_ite (kept_incSat h ..) (kept_ite (kept_ite (kept_deliver h ..) (kept_incSat h ..)) (kept_ite (kept_incSat h ..) (kept_ite (kept_enqueue h ..)
      (kept_incSat h ..))))
theorem kept_floodOn (h : Kept s t) (arrival) (f) : Kept s (floodOn arrival f t) :=
  kept_ite h
      (have h1 : Kept s _ := kept_deliver (kept_update h) ..
       kept_ite (kept_flood h1 ..) h1)
theorem kept_linkFrame (h : Kept s t) (n) (f) : Kept s (linkFrame n f t) := by
  unfold linkFrame
  split
  · exact h
  · exact kept_takeLpar h ..
  · exact kept_deliver h ..
theorem kept_handOn (h : Kept s t) (n) (f) : Kept s (handOn n f t) := by
  unfold handOn
  split
  · exact kept_routeOn h ..
  · exact kept_routeOn h ..
  · exact kept_floodOn h ..
  · exact kept_linkFrame h ..
theorem kept_linkError (h : Kept s t) (n) (c0) : Kept s (linkError n c0 t) := kept_pulse (kept_incSat (kept_update h) ..) ..
theorem kept_wantNak (h : Kept s t) (n) (cl) : Kept s (wantNak n cl t) := kept_modPort h ..
theorem kept_wantNaks (h : Kept s t) (n) : Kept s (wantNaks n t) :=
  have h1 : Kept s _ := kept_when (kept_useFree h) (fun h1 => kept_wantNak h1 ..)
  kept_ite (kept_wantNak h1 ..) h1
theorem kept_inOrder (h : Kept s t) (n) (cl) : Kept s (inOrder n cl t) := kept_modPort h ..
theorem kept_cutCopy (h : Kept s t) (n) (bytes) : Kept s (cutCopy n bytes t) := by
  unfold cutCopy; dsimp only
  split
  · exact kept_when h (fun h => kept_when (kept_useFree h) (fun h1 => kept_addSat (kept_modPort h1 ..) ..))
  · exact h
theorem kept_receiveFrame (h : Kept s t) (n) (a0) : Kept s (receiveFrame n a0 t) := by
  unfold receiveFrame; dsimp only
  refine kept_ite h (kept_ite (kept_wantNaks (kept_linkError h ..) ..) (kept_ite (kept_wantNaks (kept_linkError h ..) ..) (kept_ite (kept_takeAcks
      h ..) (kept_ite (kept_when (kept_takeAcks h ..) (fun h1 => kept_cutCopy h1 ..)) (kept_ite (kept_when (kept_linkError (kept_when (kept_takeAcks
      h ..) (fun h1 => kept_cutCopy h1 ..)) ..) (fun h1 => kept_wantNak h1 ..)) (kept_ite (kept_when (kept_linkError (kept_when (kept_takeAcks h ..)
      (fun h1 => kept_cutCopy h1 ..)) ..) (fun h1 => kept_wantNak h1 ..)) (kept_ite (kept_modPort (kept_takeAcks h ..) ..) ?_)))))))
  split
  · exact kept_handOn (kept_incWrap (kept_when (kept_takeAcks h ..) (fun h1 => kept_inOrder h1 ..)) ..) ..
  · exact kept_linkError (kept_when (kept_takeAcks h ..) (fun h1 => kept_inOrder h1 ..)) ..
theorem keptOut_frameReceive (h : Kept s t) (n) (pairs) : KeptOut s (execFrameReceive n pairs t) :=
  keptOut_ite (keptOut_next h) (keptOut_next (kept_foldl (fun _ h _ => kept_receiveFrame h ..) _ (kept_modPort h ..)))

/-! ## Enumeration -/

theorem kept_changeEntry (h : Kept s t) (id) (new) : Kept s (changeEntry id new t) := kept_ite (kept_update h) (kept_setEntry h ..)
theorem kept_writeTable (h : Kept s t) (r) : Kept s (writeTable r t) :=
  kept_foldl (fun _ h _ => kept_pulse h ..) _ (kept_setB (kept_foldl (fun _ h _ => kept_changeEntry (kept_takeEpoch h ..) ..) _ (kept_foldl
      (fun _ h _ => kept_changeEntry h ..) _ h)) ..)
theorem kept_validateTable (h : Kept s t) (r) : Kept s (validateTable r t) := by
  refine kept_foldl (fun _ h _ => ?_) _ h
  split
  · exact kept_update h
  · exact kept_setEntry h ..
theorem kept_planRun (h : Kept s t) : Kept s (planRun t) := by
  unfold planRun; dsimp only
  split
  · exact kept_ite h (kept_modRun h ..)
  · exact h
theorem kept_writeRun (h : Kept s t) : Kept s (writeRun t) := by
  unfold writeRun
  split
  · exact kept_ite (kept_modRun (kept_writeTable h ..) ..) h
  · exact h
theorem kept_runSends (h : Kept s t) : Kept s (runSends t) := kept_foldl (fun _ h _ => kept_runSend h) _ h
theorem kept_advanceRun (h : Kept s t) : Kept s (advanceRun t) := kept_runSends (kept_writeRun (kept_runSends (kept_planRun (kept_runSends h))))
theorem kept_beginRun (h : Kept s t) (mode) (tk) (commanded) : Kept s (beginRun mode tk commanded t) :=
  kept_advanceRun (kept_refreshRoot (kept_update (kept_setB (kept_setF (kept_setB (kept_setB (kept_ite (kept_setB h ..) h) ..) ..) ..) ..)))
theorem kept_endRun (h : Kept s t) (st) : Kept s (endRun st t) := by
  unfold endRun; dsimp only
  split
  · exact h
  · split
    · exact kept_complete (kept_refreshOut (kept_setF (kept_setB (kept_foldl (fun _ h _ => kept_applyHeld h ..) _ (kept_update h)) ..) ..)) ..
    · exact kept_refreshOut (kept_setF (kept_setB (kept_foldl (fun _ h _ => kept_applyHeld h ..) _ (kept_update h)) ..) ..)
theorem kept_abandonRun (h : Kept s t) : Kept s (abandonRun t) := kept_ite (kept_pulse (kept_endRun h ..) ..) h
theorem kept_withdrawRun (h : Kept s t) : Kept s (withdrawRun t) := kept_refreshRoot (kept_update (kept_endRun h ..))
theorem keptDone_enumCommand (h : Kept s t) (mode) (tk) : KeptDone s (enumCommand mode tk t) :=
  keptDone_withController h (keptDone_ite (keptDone_ok (kept_setF h ..)) (keptDone_ite (keptDone_busyFree h) (keptDone_later (kept_beginRun h ..))))
theorem keptOut_enumFull (h : Kept s t) (tk) : KeptOut s (execEnumFull tk t) :=
  keptOut_ite (keptOut_via (keptDone_enumCommand h ..) ..) (keptOut_next h)
theorem keptOut_enumVerify (h : Kept s t) (tk) : KeptOut s (execEnumVerify tk t) :=
  keptOut_ite (keptOut_via (keptDone_enumCommand h ..) ..) (keptOut_next h)
theorem keptOut_enumRecover (h : Kept s t) (tk) : KeptOut s (execEnumRecover tk t) :=
  keptOut_ite (keptOut_via (keptDone_enumCommand h ..) ..) (keptOut_next h)
theorem kept_autoRun (h : Kept s t) (mode) : Kept s (autoRun mode t) := kept_ite (kept_beginRun h ..) h
theorem keptOut_enumHoldExpiry (h : Kept s t) : KeptOut s (execEnumHoldExpiry t) :=
  keptOut_ite (keptOut_next (kept_autoRun (kept_update h) ..)) (keptOut_next h)
theorem keptOut_enumerationDone (h : Kept s t) : KeptOut s (execEnumerationDone t) := by
  unfold execEnumerationDone; dsimp only
  split
  · exact keptOut_next h
  · exact keptOut_ite (keptOut_next h) (keptOut_next (kept_setEvt (kept_endRun (kept_when (kept_setF (kept_update (kept_ite (kept_setB h ..)
        (kept_validateTable h ..))) ..) (fun h1 => kept_pulse h1 ..)) ..) ..))
theorem kept_answerReq (h : Kept s t) (r) (f) : Kept s (answerReq r f t) := kept_finishReq h ..
theorem kept_endProbe (h : Kept s t) (tag) : Kept s (endProbe tag t) := kept_modRun (kept_refreshOut (kept_update h)) ..
theorem kept_takeReport401 (h : Kept s t) (i) (p) (f) : Kept s (takeReport401 i p f t) := by
  unfold takeReport401
  split
  · exact h
  · exact kept_ite (kept_advanceRun h) (kept_ite (kept_withdrawRun h) (kept_advanceRun (kept_modRun h ..)))
theorem keptOut_probeReportReceive (h : Kept s t) (arrival) (f) : KeptOut s (execProbeReportReceive arrival f t) := by
  unfold execProbeReportReceive
  split
  · exact keptOut_ite (keptOut_next (kept_takeReport401 (kept_endProbe (kept_takeInbox h ..) ..) ..)) (keptOut_next h)
  · exact keptOut_next h
theorem kept_takeRunAnswer (h : Kept s t) (r) (good) : Kept s (takeRunAnswer r good t) := kept_advanceRun (kept_runDone (kept_dropReq h ..) ..)
theorem keptOut_cplReceive (h : Kept s t) (arrival) (f) : KeptOut s (execCplReceive arrival f t) := by
  unfold execCplReceive; dsimp only
  refine keptOut_ite (keptOut_next h) (keptOut_ite (keptOut_next (kept_incSat (kept_takeInbox h ..) ..)) ?_)
  split
  · exact keptOut_next (kept_incSat (kept_takeInbox h ..) ..)
  · refine keptOut_ite ?_ ?_
    · split
      · exact keptOut_next (kept_takeReport401 (kept_endProbe (kept_takeInbox h ..) ..) ..)
      · exact keptOut_next (kept_takeRunAnswer (kept_takeInbox h ..) ..)
    · split
      · exact keptOut_ite (keptOut_next (kept_takeEpoch (kept_answerReq (kept_takeInbox h ..) ..) ..)) (keptOut_ite (keptOut_next (kept_incSat
            (kept_takeInbox h ..) ..)) (keptOut_next (kept_answerReq (kept_takeInbox h ..) ..)))
      · exact keptOut_next (kept_answerReq (kept_takeInbox h ..) ..)
theorem keptOut_transactionTimeout (h : Kept s t) (tag) : KeptOut s (execTransactionTimeout tag t) := by
  unfold execTransactionTimeout; dsimp only
  split
  · exact keptOut_next h
  · refine keptOut_ite ?_ (keptOut_next (kept_finishReq (kept_update h) ..))
    split
    · exact keptOut_next (kept_advanceRun (kept_endProbe (kept_update h) ..))
    · exact keptOut_next (kept_takeRunAnswer (kept_update h) ..)

end

end Sys2Proof.Machine
end

