-- ==== Sys2Proof/Proofs/KeptServices.lean ====
section
/-!
PROOFS. What the operations of calibration, temperature sensing, self-test, the host interface, the collector, power and accesses keep.
-/
namespace Sys2Proof.Machine

-- The many short lemmas are elaborated one after the other: at once, they need more threads than the check's memory holds.
set_option Elab.async false

section
variable {s t u : State}

/-! ## Calibration and NVM -/

theorem kept_nvmWrite (h : Kept s t) (o) (bs) : Kept s (nvmWrite o bs t) := h.trans ⟨rfl, canonical_nvmWrite o bs⟩
theorem kept_nvmErase (h : Kept s t) (a) (b) : Kept s (nvmErase a b t) := h.trans ⟨rfl, canonical_nvmErase a b⟩
theorem kept_loadHarness (h : Kept s t) (hres) (rbal) : Kept s (loadHarness hres rbal t) :=
  kept_setF (kept_foldl (fun _ h _ => kept_setF h ..) _ h) ..
theorem kept_applyCopy (h : Kept s t) (b0) : Kept s (applyCopy b0 t) := kept_setF (kept_loadHarness (kept_update h) ..) ..
theorem kept_refreshBusy (h : Kept s t) : Kept s (refreshBusy t) := kept_setB h ..
theorem kept_beginJob (h : Kept s t) (j) (tk) : Kept s (beginJob j tk t) :=
  have h1 : Kept s _ := kept_nvmWrite (kept_ite (kept_nvmErase h ..) h) ..
  kept_refreshBusy (kept_update (kept_ite (kept_setReg h1 ..) (kept_ite (kept_setReg h1 ..) h1)))
theorem kept_nextJob (h : Kept s t) : Kept s (nextJob t) := by
  unfold nextJob; dsimp only
  refine kept_ite h ?_
  split
  · exact h
  · exact kept_beginJob (kept_update h) ..
theorem kept_askJob (h : Kept s t) (j) (tk) : Kept s (askJob j tk t) := kept_nextJob (kept_update h)
theorem kept_nvmFailed (h : Kept s t) (sector) : Kept s (nvmFailed sector t) := kept_pulse (kept_setF (kept_incSat h ..) ..) ..
theorem kept_copyWritten (h : Kept s t) (b0) : Kept s (copyWritten b0 t) := kept_setB (kept_setReg h ..) ..
theorem kept_endJob (h : Kept s t) (o) (bad) : Kept s (endJob o bad t) := by
  unfold endJob; dsimp only
  split
  · split
    · exact kept_complete (kept_nvmFailed (kept_refreshBusy (kept_update h)) ..) ..
    · exact kept_nvmFailed (kept_refreshBusy (kept_update h)) ..
  · split
    · split
      · exact kept_complete (kept_setF (kept_copyWritten (kept_nvmWrite (kept_refreshBusy (kept_update h)) ..) ..) ..) ..
      · exact kept_setF (kept_copyWritten (kept_nvmWrite (kept_refreshBusy (kept_update h)) ..) ..) ..
    · exact kept_copyWritten (kept_nvmWrite (kept_refreshBusy (kept_update h)) ..) ..
    · exact kept_setF (kept_nvmWrite (kept_refreshBusy (kept_update h)) ..) ..
    · split
      · exact kept_complete (kept_nvmWrite (kept_refreshBusy (kept_update h)) ..) ..
      · exact kept_nvmWrite (kept_refreshBusy (kept_update h)) ..
theorem keptOut_nvmWriteDone (h : Kept s t) (bad) : KeptOut s (execNvmWriteDone bad t) := by
  unfold execNvmWriteDone
  split
  · exact keptOut_next h
  · exact keptOut_ite (keptOut_next h) (keptOut_next (kept_nextJob (kept_endJob h ..)))
theorem keptOut_epochWrite (h : Kept s t) : KeptOut s (execEpochWrite t) := by
  unfold execEpochWrite; dsimp only
  split
  · exact keptOut_next (kept_ite (kept_beginJob (kept_update h) ..) h)
  · exact keptOut_next h
theorem keptOut_copyRepair (h : Kept s t) : KeptOut s (execCopyRepair t) :=
  keptOut_ite (keptOut_next h) (keptOut_ite (keptOut_next (kept_askJob h ..)) (keptOut_ite (keptOut_next (kept_askJob h ..)) (keptOut_next h)))
theorem keptDone_calCheckFail (h : Kept s t) (err) : KeptDone s (calCheckFail err t) := keptDone_refuse (kept_setF h ..) ..
theorem keptDone_calRunCommand (h : Kept s t) (tk) : KeptDone s (calRunCommand tk t) :=
  keptDone_ite (keptDone_refuse h ..) (keptDone_ite (keptDone_refuse h ..) (keptDone_withController h (keptDone_ite (keptDone_busyFree h)
      (keptDone_ite (keptDone_startBusy h) (keptDone_ite (keptDone_calCheckFail h ..) (keptDone_ite (keptDone_calCheckFail h ..) (keptDone_ite
      (keptDone_calCheckFail h ..) (keptDone_later (kept_update h)))))))))
theorem keptOut_run (h : Kept s t) (tk) : KeptOut s (execRun tk t) := keptOut_ite (keptOut_via (keptDone_calRunCommand h ..) ..) (keptOut_next h)
theorem keptOut_calRunBegin (h : Kept s t) : KeptOut s (execCalRunBegin t) := by
  unfold execCalRunBegin; dsimp only
  split
  · exact keptOut_ite (keptOut_next (kept_enforceSwitches (kept_refreshBusy (kept_setF (kept_update h) ..)))) (keptOut_next h)
  · exact keptOut_next h
theorem keptOut_calZeroPhaseEnd (h : Kept s t) (zero) : KeptOut s (execCalZeroPhaseEnd zero t) := by
  unfold execCalZeroPhaseEnd; dsimp only
  split
  · exact keptOut_ite (keptOut_next (kept_setF (kept_update h) ..)) (keptOut_next h)
  · exact keptOut_next h
theorem kept_endCalRun (h : Kept s t) (st) (err) : Kept s (endCalRun st err t) := by
  unfold endCalRun; dsimp only
  split
  · exact h
  · refine kept_nextJob (kept_refreshBusy (kept_complete ?_ ..))
    split
    · refine kept_when ?_ (fun h1 => kept_when (kept_nvmWrite (kept_update h1) ..) (fun h2 => kept_copyWritten h2 ..))
      split
      · exact kept_setF (kept_setF (kept_update h) ..) ..
      · exact kept_setF (kept_update h) ..
    · split
      · exact kept_setF (kept_setF (kept_update h) ..) ..
      · exact kept_setF (kept_update h) ..
theorem kept_abortCalRun (h : Kept s t) : Kept s (abortCalRun t) := kept_endCalRun h ..
theorem keptOut_calReferencePhaseEnd (h : Kept s t) (first) (second) (r4) (r16) : KeptOut s (execCalReferencePhaseEnd first second r4 r16 t) := by
  unfold execCalReferencePhaseEnd; dsimp only
  split
  · exact keptOut_next h
  · refine keptOut_ite (keptOut_next h) ?_
    split
    · exact keptOut_next (kept_endCalRun (kept_setF h ..) ..)
    · exact keptOut_next (kept_askJob (kept_setF (kept_update h) ..) ..)
theorem keptOut_calCopyWritten (h : Kept s t) (bad) : KeptOut s (execCalCopyWritten bad t) := by
  unfold execCalCopyWritten; dsimp only
  split
  · refine keptOut_ite ?_ (keptOut_next h)
    split
    · exact keptOut_next (kept_abortCalRun (kept_nvmFailed h ..))
    · exact keptOut_next (kept_nextJob (kept_refreshBusy (kept_copyWritten (kept_nvmWrite (kept_update h) ..) ..)))
  · exact keptOut_next h
theorem keptOut_calCopyInUse (h : Kept s t) : KeptOut s (execCalCopyInUse t) := by
  unfold execCalCopyInUse; dsimp only
  split
  · split
    · exact keptOut_next (kept_endCalRun (kept_startSettleAll (kept_applyCopy (kept_update h) ..)) ..)
    · exact keptOut_next h
  · exact keptOut_next h
theorem keptDone_saveCommand (h : Kept s t) (allowed) (j) (tk) : KeptDone s (saveCommand allowed j tk t) :=
  keptDone_ite (keptDone_refuse h ..) (keptDone_withController h (keptDone_ite (keptDone_busyFree h) (keptDone_later (kept_askJob h ..))))
theorem keptDone_hsaveCommand (h : Kept s t) (tk) : KeptDone s (hsaveCommand tk t) :=
  keptDone_ite (keptDone_calCheckFail h ..) (keptDone_saveCommand h ..)
theorem keptOut_hsave (h : Kept s t) (tk) : KeptOut s (execHsave tk t) := keptOut_ite (keptOut_via (keptDone_hsaveCommand h ..) ..) (keptOut_next h)
theorem keptOut_psave (h : Kept s t) (arg) (tk) : KeptOut s (execPsave arg tk t) :=
  keptOut_ite (keptOut_via (keptDone_saveCommand h ..) ..) (keptOut_next h)
theorem keptOut_pselect (h : Kept s t) (arg) (tk) : KeptOut s (execPselect arg tk t) :=
  keptOut_ite (keptOut_via (keptDone_saveCommand h ..) ..) (keptOut_next h)
theorem keptOut_tsave (h : Kept s t) (tk) : KeptOut s (execTsave tk t) := keptOut_ite (keptOut_via (keptDone_saveCommand h ..) ..) (keptOut_next h)
theorem keptDone_patchOpen (h : Kept s t) : KeptDone s (patchOpen t) :=
  keptDone_ite (keptDone_refuse h ..) (keptDone_withController h (keptDone_ok (kept_setB (kept_update h) ..)))
theorem keptOut_patchwe (h : Kept s t) : KeptOut s (execPatchwe t) := keptOut_ite (keptOut_out (keptDone_patchOpen h)) (keptOut_next h)
theorem kept_patchWord (h : Kept s t) (o) (w) : Kept s (patchWord o w t) := kept_nvmWrite (kept_ite h (kept_update (kept_nvmErase h ..))) ..
theorem keptDone_calCommand (h : Kept s t) {patch : Ticket → State → Done} (hp : ∀ tk, KeptDone s (patch tk t)) (action) (arg) (tk) :
    KeptDone s (calCommand action arg tk patch t) := by
  unfold calCommand; split
  · exact keptDone_calRunCommand h tk
  · exact keptDone_hsaveCommand h tk
  · exact keptDone_saveCommand h ..
  · exact keptDone_saveCommand h ..
  · exact keptDone_saveCommand h ..
  · exact keptDone_patchOpen h
  · exact hp tk
  · exact h

/-! ## Temperature sensing -/

theorem kept_logOccur (h : Kept s t) (kind) (sensor) (temp) : Kept s (logOccur kind sensor temp t) := kept_ite (kept_incSat h ..) (kept_update h)
theorem keptOut_eventLogWrite (h : Kept s t) : KeptOut s (execEventLogWrite t) := by
  unfold execEventLogWrite; dsimp only
  split
  · exact keptOut_next h
  · exact keptOut_ite (keptOut_next (kept_askJob (kept_update h) ..)) (keptOut_next h)
theorem keptDone_logClear (h : Kept s t) (tk) : KeptDone s (logClear tk t) :=
  keptDone_ite (keptDone_refuse h ..) (keptDone_withController h (keptDone_later (kept_askJob h ..)))
theorem keptOut_logClear (h : Kept s t) (tk) : KeptOut s (execLogClear tk t) := keptOut_ite (keptOut_via (keptDone_logClear h ..) ..) (keptOut_next h)
theorem kept_logResume (h : Kept s t) : Kept s (logResume t) := kept_setF h ..
theorem kept_takeDie (h : Kept s t) (n) (v) (biasOk) : Kept s (takeDie n v biasOk t) :=
  have h1 : Kept s _ := kept_setF (kept_setB (kept_update h) ..) ..
  kept_ite (kept_logOccur h1 ..) h1
theorem kept_reportHot (h : Kept s t) : Kept s (reportHot t) := kept_setF h ..
theorem kept_setBand (h : Kept s t) : Kept s (setBand t) := kept_setF (kept_update h) ..
theorem kept_dieWarnings (h : Kept s t) : Kept s (dieWarnings t) :=
  kept_foldl (fun _ h _ => have h2 : Kept s _ := kept_follow (kept_update h) ..
  kept_ite (kept_logOccur h2 ..) h2) _ h
theorem kept_takeNtc (h : Kept s t) (k) : Kept s (takeNtc k t) := by
  unfold takeNtc; dsimp only
  refine kept_ite h (kept_ite (kept_unless (kept_setF (kept_setF h ..) ..) (fun h1 => kept_logOccur h1 ..)) ?_)
  split
  · exact kept_setF (kept_setF h ..) ..
  · exact kept_setF (kept_setF (kept_useFree h) ..) ..
theorem kept_ntcLimits (h : Kept s t) : Kept s (ntcLimits t) := kept_foldl (fun _ h _ => kept_logOccur h ..) _ (kept_follow (kept_update h) ..)
theorem kept_leaveGallop (h : Kept s t) : Kept s (leaveGallop t) := kept_drop (kept_setB h ..) ..
theorem kept_enterGallop (h : Kept s t) : Kept s (enterGallop t) :=
  kept_ite (kept_ite (kept_leaveGallop h) h) (kept_ite (kept_logOccur (kept_raise (kept_setB h ..) ..) ..) h)
theorem keptOut_gallopExit (h : Kept s t) : KeptOut s (execGallopExit t) := keptOut_ite (keptOut_next (kept_leaveGallop h)) (keptOut_next h)
theorem kept_noteSpans (h : Kept s t) : Kept s (noteSpans t) := kept_update h
theorem keptOut_temperatureSample (h : Kept s t) (dies) (biasOk) : KeptOut s (execTemperatureSample dies biasOk t) :=
  keptOut_ite
      (have h1 : Kept s _ := kept_foldl (fun _ h _ => kept_takeDie h ..) _ h
       keptOut_ite (keptOut_next (kept_ite (kept_wakeBy h1 ..) h1))
           (have h2 : Kept s _ := kept_dieWarnings (kept_setBand (kept_reportHot h1))
            have h3 : Kept s _ := kept_noteSpans (kept_enterGallop (kept_bleedThermal (kept_follow (kept_ite (kept_ntcLimits (kept_foldl (fun _ h _ =>
                kept_takeNtc h ..) _ h2)) h2) ..) ..))
            have h4 : Kept s _ := kept_ite (kept_drop (kept_update h3) ..) h3
            keptOut_next (kept_ite (kept_wakeBy h4 ..) h4))) (keptOut_next (kept_ite (kept_joinWake h ..) h))
theorem keptOut_sensorDisagree (h : Kept s t) : KeptOut s (execSensorDisagree t) :=
  keptOut_ite (keptOut_next (kept_logOccur (kept_raise (kept_update h) ..) ..)) (keptOut_next h)
theorem kept_holdInReset (h : Kept s t) (ph) : Kept s (holdInReset ph t) := kept_reportSupply (kept_keepOutside h (wf_keepAon h))
theorem keptOut_thermalShutdown (h : Kept s t) (n) (temp) : KeptOut s (execThermalShutdown n temp t) :=
  keptOut_ite (keptOut_next (kept_holdInReset (kept_setF (kept_setF (kept_setB (kept_incSat (kept_setReg (kept_setReg h ..) ..) ..) ..) ..) ..) ..))
      (keptOut_next h)
theorem keptOut_thermalRestart (h : Kept s t) : KeptOut s (execThermalRestart t) :=
  keptOut_ite
      (have h1 : Kept s _ := kept_deviceReset h ..
       keptOut_next (kept_logOccur (kept_update (kept_ite (kept_setB h1 ..) h1)) ..)) (keptOut_next h)

/-! ## Self-test and the life cycle -/

theorem keptDone_testBusy (h : Kept s t) : KeptDone s (testBusy t) := by
  unfold testBusy
  split
  · exact keptDone_ite (keptDone_busyFree h) (keptDone_busy h ..)
  · exact keptDone_busyFree h
theorem kept_reportFuses (h : Kept s t) : Kept s (reportFuses t) := kept_setF (kept_setB (kept_setB (kept_setF h ..) ..) ..) ..
theorem keptDone_lifecycleCommand (h : Kept s t) (target) (force) (tk) : KeptDone s (lifecycleCommand target force tk t) :=
  keptDone_ite (keptDone_refuse h ..) (keptDone_withController h (keptDone_ite (keptDone_testBusy h) (keptDone_ite (keptDone_busyFree h) (keptDone_ite
      (keptDone_refuse h ..) (keptDone_ite (keptDone_refuse h ..) (keptDone_later (kept_update h)))))))
theorem keptOut_lifecycleChange (h : Kept s t) (target) (force) (tk) : KeptOut s (execLifecycleChange target force tk t) :=
  keptOut_ite (keptOut_via (keptDone_lifecycleCommand h ..) ..) (keptOut_next h)
theorem keptOut_fuseProgramDone (h : Kept s t) (a0) (b0) : KeptOut s (execFuseProgramDone a0 b0 t) := by
  unfold execFuseProgramDone; dsimp only
  split
  · exact keptOut_next h
  · exact keptOut_ite (keptOut_next (kept_complete (kept_reportFuses (kept_update (kept_update h))) ..)) (keptOut_next (kept_complete (kept_update
        h) ..))
theorem kept_writeRecord (h : Kept s t) (item) (result) (done) (cov) (count) (w3) (r) : Kept s (writeRecord item result done cov count w3 r t) :=
  kept_setReg (kept_setReg (kept_setReg (kept_setReg h ..) ..) ..) ..
theorem kept_clearRecord (h : Kept s t) (item) : Kept s (clearRecord item t) := kept_foldl (fun _ h _ => kept_setReg h ..) _ h
theorem kept_nextItem (h : Kept s t) : Kept s (nextItem t) := by
  unfold nextItem; dsimp only
  split
  · exact h
  · split
    · exact kept_setF (kept_update h) ..
    · exact kept_ite (kept_setF (kept_update h) ..) (kept_setF (kept_update h) ..)
theorem kept_judgeMemory (h : Kept s t) (m) (r) : Kept s (judgeMemory m r t) := kept_update (kept_writeRecord h ..)
theorem kept_cutPartition (h : Kept s t) (p) (r) : Kept s (cutPartition p r t) :=
  kept_update (kept_writeRecord (kept_useFree (kept_ite (kept_useFree h) h)) ..)
theorem kept_endSelfTest (h : Kept s t) : Kept s (endSelfTest t) := by
  unfold endSelfTest; dsimp only
  split
  · exact h
  · exact kept_unless (kept_setF (kept_setF (kept_setB (kept_update h) ..) ..) ..) (fun h1 => kept_pulse h1 ..)
theorem kept_unitReturns (h : Kept s t) (item) : Kept s (unitReturns item t) := kept_ite (kept_update h) (kept_ite (kept_update h) h)
theorem kept_abortSelfTest (h : Kept s t) : Kept s (abortSelfTest t) := by
  unfold abortSelfTest; dsimp only
  split
  · exact h
  · refine kept_endSelfTest ?_
    split
    · exact kept_ite (kept_judgeMemory (kept_foldl (fun _ h _ => kept_clearRecord h ..) _ h) ..) (kept_unitReturns (kept_cutPartition (kept_foldl
          (fun _ h _ => kept_clearRecord h ..) _ h) ..) ..)
    · exact kept_foldl (fun _ h _ => kept_clearRecord h ..) _ h
theorem kept_abortItem (h : Kept s t) (item) : Kept s (abortItem item t) := kept_ite (kept_abortSelfTest h) h
theorem kept_beginSelfTest (h : Kept s t) (mem) (log) (ss) (compat) : Kept s (beginSelfTest mem log ss compat t) := by
  unfold beginSelfTest; dsimp only
  exact kept_nextItem (kept_update (kept_when (kept_setF (kept_setB h ..) ..) (fun h1 => kept_setF h1 ..)))
theorem keptDone_selfTestCommand (h : Kept s t) (mem) (log) (ss) (compat) : KeptDone s (selfTestCommand mem log ss compat t) :=
  keptDone_ite (keptDone_refuse h ..) (keptDone_ite (keptDone_refuse h ..) (keptDone_withController h (keptDone_ite (keptDone_busy h ..) (keptDone_ite
      (keptDone_testBusy h) (keptDone_ite (keptDone_busyFree h) (keptDone_ite (keptDone_busy h ..) (keptDone_ite (keptDone_ok h) (keptDone_ok
      (kept_beginSelfTest h ..)))))))))
theorem keptOut_selftestGo (h : Kept s t) (mem) (log) (ss) (compat) : KeptOut s (execSelftestGo mem log ss compat t) :=
  keptOut_ite (keptOut_out (keptDone_selfTestCommand h ..)) (keptOut_next h)
theorem keptDone_abortCommand (h : Kept s t) : KeptDone s (abortCommand t) :=
  keptDone_ite (keptDone_ok (kept_deviceReset (kept_abortSelfTest h) ..)) (keptDone_ok (kept_abortSelfTest h))
theorem keptOut_selftestAbort (h : Kept s t) : KeptOut s (execSelftestAbort t) := keptOut_ite (keptOut_out (keptDone_abortCommand h)) (keptOut_next h)
theorem keptOut_segmentTestDone (h : Kept s t) (fail) : KeptOut s (execSegmentTestDone fail t) := by
  unfold execSegmentTestDone; dsimp only
  split
  · split
    · exact keptOut_ite (keptOut_ite (keptOut_next (kept_update h)) (keptOut_next (kept_nextItem (kept_judgeMemory h ..)))) (keptOut_next h)
    · exact keptOut_next h
  · exact keptOut_next h
theorem keptOut_partitionDone (h : Kept s t) (misr) : KeptOut s (execPartitionDone misr t) := by
  unfold execPartitionDone; dsimp only
  split
  · split
    · exact keptOut_ite (keptOut_next h) (keptOut_ite (keptOut_next (kept_deviceReset (kept_update (kept_writeRecord h ..)) ..)) (keptOut_next
          (kept_nextItem (kept_unitReturns (kept_update (kept_writeRecord h ..)) ..))))
    · exact keptOut_next h
  · exact keptOut_next h
theorem keptOut_selftestRunEnd (h : Kept s t) : KeptOut s (execSelftestRunEnd t) := by
  unfold execSelftestRunEnd
  split
  · exact keptOut_ite (keptOut_next (kept_endSelfTest h)) (keptOut_next h)
  · exact keptOut_next h
theorem keptOut_sliceStart (h : Kept s t) : KeptOut s (execSliceStart t) := by
  unfold execSliceStart
  split
  · exact keptOut_ite (keptOut_next (kept_incSat h ..)) (keptOut_next h)
  · exact keptOut_next h
theorem kept_stopService (h : Kept s t) : Kept s (stopService t) := kept_enforceSwitches (kept_commandedStop (kept_planAbort h ..))
theorem keptOut_offlinePartitionStart (h : Kept s t) : KeptOut s (execOfflinePartitionStart t) := by
  unfold execOfflinePartitionStart; dsimp only
  split
  · exact keptOut_ite (keptOut_next h) (keptOut_ite (keptOut_next (kept_sendLeave (kept_stopService (kept_update h)))) (keptOut_ite (keptOut_next h)
        (keptOut_next (kept_driveFaultLevel (kept_enforceSwitches (kept_harnessAbort (kept_foldl (fun _ h _ => kept_enterPort h ..) _ (kept_setF
        (kept_update h) ..))))))))
  · exact keptOut_next h
theorem keptOut_autoRunDue (h : Kept s t) : KeptOut s (execAutoRunDue t) :=
  keptOut_ite (keptOut_next h) (keptOut_next (kept_ite (kept_st (keptDone_selfTestCommand h ..)) h))
theorem kept_beginTransition (h : Kept s t) (t0) : Kept s (beginTransition t0 t) :=
  have h1 : Kept s _ := kept_abortSelfTest (kept_abortCalRun h)
  kept_ite (kept_setB (kept_update h1) ..) (kept_update h1)
theorem kept_checkController (h : Kept s t) (romOk) : Kept s (checkController romOk t) :=
  have h1 : Kept s _ := kept_setB (kept_setB (kept_setB (kept_setF h ..) ..) ..) ..
  kept_ite (kept_pulse h1 ..) (kept_ite h1 (kept_ite (kept_setB h1 ..) (kept_pulse (kept_setB h1 ..) ..)))

/-! ## The host interface -/

theorem kept_leaveRings (h : Kept s t) : Kept s (leaveRings t) :=
  kept_foldl (fun _ h _ => kept_pulse (kept_incSat (kept_update h) ..) ..) _ (kept_update h)
theorem kept_takeRole (h : Kept s t) (gen) : Kept s (takeRole gen t) :=
  kept_ite h
      (have h1 : Kept s _ := kept_refreshRoot (kept_setB (kept_setF (kept_abortItem (kept_ite (kept_leaveRings h) h) ..) ..) ..)
       kept_ite (kept_autoRun h1 ..) h1)
theorem kept_endRole (h : Kept s t) : Kept s (endRole t) :=
  kept_ite h
      (have h1 : Kept s _ := kept_refreshRoot (kept_refreshOut (kept_setB (kept_abandonRun (kept_update (kept_sendRoleend h))) ..))
       kept_ite (kept_beginTransition (kept_setB h1 ..) ..) h1)
theorem kept_storeCommand (h : Kept s t) (d0) (data) : Kept s (storeCommand d0 data t) := kept_refreshOut (kept_update h)
theorem kept_setLastErr (h : Kept s t) (e) : Kept s (setLastErr e t) := kept_update h
theorem kept_sendBytes (h : Kept s t) (bs) : Kept s (sendBytes bs t) := kept_update h
theorem keptOut_g2Transaction (h : Kept s t) {act : State → Out} (ha : ∀ u, Kept s u → KeptOut s (act u)) : KeptOut s (g2Transaction act t) := by
  unfold g2Transaction
  exact keptOut_ite h (keptOut_ite (kept_incSat h _) (ha _ (kept_takeRole (kept_update h) _)))
theorem kept_spiError (h : Kept s t) (f) : Kept s (spiError f t) := kept_pulse (kept_setHostErr (kept_incSat h ..) ..) ..
theorem keptOut_cmd (h : Kept s t) (arg) (bits) : KeptOut s (execCmd arg bits t) :=
  keptOut_g2Transaction h (fun _ h => keptOut_ite (keptOut_next (kept_setLastErr h ..))
    (keptOut_ite (keptOut_next (kept_setLastErr (kept_spiError h ..) ..)) (keptOut_ite (keptOut_next (kept_setLastErr h ..))
      (keptOut_ite (keptOut_next (kept_upset h)) (keptOut_next (kept_setLastErr (kept_update (kept_storeCommand h ..)) ..))))))
theorem kept_getNothing (h : Kept s t) : Kept s (getNothing t) := kept_setLastErr h ..
theorem keptOut_getcpl (h : Kept s t) : KeptOut s (execGetcpl t) := by
  refine keptOut_g2Transaction h (fun _ h => ?_)
  split
  · exact keptOut_ite (keptOut_next (kept_getNothing (kept_update h))) (keptOut_next (kept_setLastErr (kept_sendBytes (kept_update h) ..) ..))
  · exact keptOut_next (kept_getNothing (kept_update h))
theorem keptOut_getevt (h : Kept s t) : KeptOut s (execGetevt t) := by
  refine keptOut_g2Transaction h (fun _ h => ?_)
  split
  · exact keptOut_ite (keptOut_next (kept_getNothing (kept_update h))) (keptOut_next (kept_setLastErr (kept_sendBytes (kept_update h) ..) ..))
  · exact keptOut_next (kept_getNothing (kept_update h))
theorem keptOut_getstr (h : Kept s t) (arg) : KeptOut s (execGetstr arg t) :=
  keptOut_g2Transaction h (fun _ h => keptOut_ite (keptOut_next (kept_upset h)) (keptOut_ite (keptOut_next (kept_getNothing (kept_update h)))
    (keptOut_next (kept_setLastErr (kept_sendBytes (kept_update h) ..) ..))))
theorem keptOut_ack (h : Kept s t) (cpl) (evt) (str) : KeptOut s (execAck cpl evt str t) :=
  keptOut_g2Transaction h (fun _ h => keptOut_next (kept_setLastErr (kept_roomEvent (kept_update h)) ..))
theorem keptOut_gen2HostTimeout (h : Kept s t) : KeptOut s (execGen2HostTimeout t) :=
  keptOut_ite (keptOut_next (kept_update (kept_endRole (kept_pulse h ..)))) (keptOut_next h)
theorem keptOut_spiTransactionRejected (h : Kept s t) (why) : KeptOut s (execSpiTransactionRejected why t) := by
  unfold execSpiTransactionRejected; dsimp only
  refine keptOut_ite (keptOut_next h) ?_
  split
  · exact keptOut_ite (keptOut_next (kept_incSat h ..)) (keptOut_next (kept_update (kept_setLastErr (kept_spiError h ..) ..)))
  · exact keptOut_g2Transaction h (fun _ h => keptOut_next (kept_setLastErr h ..)) ..
  · exact keptOut_ite (keptOut_next h) (keptOut_next (kept_update (kept_setLastErr h ..)))
  · exact keptOut_g2Transaction h (fun _ h => keptOut_next (kept_setLastErr h ..)) ..
  · exact keptOut_ite (keptOut_next (kept_incSat h ..)) (keptOut_next (kept_update (kept_spiError h ..)))
  · exact keptOut_ite (keptOut_next h) (keptOut_next (kept_incSat h ..))
theorem kept_sendPme (h : Kept s t) : Kept s (sendPme t) := kept_ite (kept_update h) h
theorem keptOut_gen3LinkUp (h : Kept s t) (fast) : KeptOut s (execGen3LinkUp fast t) :=
  keptOut_ite (keptOut_next (kept_takeRole (kept_sendPme (kept_setB (kept_setB (kept_setF h ..) ..) ..)) ..)) (keptOut_next h)
theorem kept_clearEnables (h : Kept s t) : Kept s (clearEnables t) := kept_setB (kept_foldl (fun _ h _ => kept_setB h ..) _ h) ..
theorem kept_endGen3 (h : Kept s t) : Kept s (endGen3 t) := kept_ite (kept_endRole (kept_pulse h ..)) h
theorem kept_pcieDown (h : Kept s t) : Kept s (pcieDown t) :=
  kept_ite (kept_setB (kept_setF (kept_setB (kept_setB (kept_foldl (fun _ h _ => kept_setB h ..) _ (kept_endGen3 h)) ..) ..) ..) ..) h
theorem keptOut_pcieLinkDown (h : Kept s t) : KeptOut s (execPcieLinkDown t) := keptOut_next (kept_pcieDown h)
theorem keptOut_configRequest (h : Kept s t) (c0) : KeptOut s (execConfigRequest c0 t) := by
  unfold execConfigRequest; dsimp only
  refine keptOut_ite (keptOut_next h) ?_
  split
  · exact keptOut_out (keptDone_read (kept_ite (kept_useFree h) h) ..)
  · exact keptOut_out (keptDone_read h ..)
  · exact keptOut_out (keptDone_ok (kept_signalDue (kept_flushCompletions (kept_releaseMasked (kept_update h)) ..)))
  · exact keptOut_out (keptDone_ok (kept_update h))
  · exact keptOut_out (keptDone_ok (kept_signalDue (kept_flushCompletions (kept_releaseMasked (kept_update h)) ..)))
  · exact keptOut_out (keptDone_ok (kept_signalDue (kept_flushCompletions (kept_releaseMasked (kept_update h)) ..)))
  · exact keptOut_ite (keptOut_out (keptDone_ok (kept_update h))) (keptOut_out (keptDone_ok (kept_useFree (kept_update h))))
  · exact keptOut_out (keptDone_ok (kept_update h))
  · exact keptOut_out (keptDone_ok (kept_update h))
  · exact keptOut_out (keptDone_ok (kept_update h))
  · exact keptOut_out (keptDone_ok (kept_update h))
theorem keptOut_pmeRequest (h : Kept s t) : KeptOut s (execPmeRequest t) := keptOut_ite (keptOut_next (kept_sendPme (kept_update h))) (keptOut_next h)
theorem keptOut_aerUncorrectable (h : Kept s t) (bits) : KeptOut s (execAerUncorrectable bits t) :=
  keptOut_ite (keptOut_next (kept_pulse (kept_setHostErr (kept_update h) ..) ..)) (keptOut_next h)
theorem keptOut_dmaReadError (h : Kept s t) : KeptOut s (execDmaReadError t) :=
  keptOut_ite (keptOut_next (kept_pulse (kept_setHostErr h ..) ..)) (keptOut_next h)
theorem keptOut_hostParityError (h : Kept s t) : KeptOut s (execHostParityError t) :=
  keptOut_ite (keptOut_next (kept_pulse (kept_setHostErr h ..) ..)) (keptOut_next h)
theorem kept_ringEnable (h : Kept s t) (r) : Kept s (ringEnable r t) :=
  have h1 : Kept s _ := kept_update (kept_setF (kept_setB h ..) ..)
  kept_ite (kept_flushCompletions h1 ..) h1
theorem kept_writebackEnable (h : Kept s t) : Kept s (writebackEnable t) := kept_setB (kept_update h) ..
theorem keptOut_ringEnable (h : Kept s t) (r) : KeptOut s (execRingEnable r t) :=
  keptOut_ite (keptOut_next h) (keptOut_ite (keptOut_next (kept_upset h)) (keptOut_ite (keptOut_out (keptDone_ok (kept_ite h (kept_writebackEnable
      h)))) (keptOut_out (keptDone_ok (kept_ite h (kept_ringEnable h ..))))))
theorem kept_doorbell (h : Kept s t) (r) (idx) : Kept s (doorbell r idx t) :=
  kept_ite h
      (have h1 : Kept s _ := kept_update h
       kept_ite (kept_flushCompletions h1 ..) h1)
theorem keptOut_doorbellWrite (h : Kept s t) (r) (idx) : KeptOut s (execDoorbellWrite r idx t) :=
  keptOut_ite (keptOut_next h) (keptOut_ite (keptOut_next (kept_upset h)) (keptOut_out (keptDone_ok (kept_doorbell h ..))))
theorem keptOut_fetchAll (h : Kept s t) (l) : KeptOut s (fetchAll l t) := by
  induction l generalizing t with
  | nil => exact h
  | cons d l ih =>
    unfold fetchAll
    exact keptOut_ite (keptOut_ite (kept_upset h) (ih (kept_advanceRing (kept_storeCommand h ..) ..))) h
theorem keptOut_descriptorFetch (h : Kept s t) (descs) : KeptOut s (execDescriptorFetch descs t) := keptOut_fetchAll h ..
theorem kept_pushStream (h : Kept s t) (ring) (e) : Kept s (pushStream ring e t) :=
  kept_ite (kept_incSat h ..) (kept_ite (kept_update h) (kept_pulse (kept_incSat (kept_update h) ..) ..))
theorem keptOut_streamFrameReceive (h : Kept s t) (arrival) (f) : KeptOut s (execStreamFrameReceive arrival f t) :=
  keptOut_ite (keptOut_next h)
      (have h1 : Kept s _ := kept_takeInbox h ..
       keptOut_ite (keptOut_next (kept_incSat h1 ..)) (keptOut_ite (keptOut_next (kept_pushStream h1 ..)) (keptOut_next (kept_incSat h1 ..))))
theorem keptOut_streamEntryWrite (h : Kept s t) (k) : KeptOut s (execStreamEntryWrite k t) := by
  unfold execStreamEntryWrite; dsimp only
  refine keptOut_ite (keptOut_next h) ?_
  split
  · exact keptOut_next h
  · exact keptOut_ite (keptOut_next (kept_ringWrite (kept_update (kept_unless (kept_ite (kept_ringWrite (kept_update h) ..) h) (fun h1 =>
        kept_ringWrite h1 ..))) ..)) (keptOut_next (kept_ite (kept_ringWrite (kept_update h) ..) h))
theorem kept_eventIn (h : Kept s t) (kind) (arrival) (f) : Kept s (eventIn kind arrival f t) := kept_pushEvent (kept_takeInbox h ..) ..
theorem keptOut_eventFrameReceive (h : Kept s t) (arrival) (f) : KeptOut s (execEventFrameReceive arrival f t) :=
  keptOut_ite (keptOut_next h) (keptOut_next (kept_eventIn h ..))
theorem keptOut_alarmReceive (h : Kept s t) (arrival) (f) : KeptOut s (execAlarmReceive arrival f t) :=
  keptOut_ite (keptOut_next h) (keptOut_next (kept_eventIn h ..))
theorem keptOut_eventEntryWrite (h : Kept s t) : KeptOut s (execEventEntryWrite t) := by
  unfold execEventEntryWrite; dsimp only
  refine keptOut_ite (keptOut_next h) ?_
  split
  · exact keptOut_next (kept_ringWrite (kept_roomEvent (kept_update h)) ..)
  · exact keptOut_ite (keptOut_next h) (keptOut_next (kept_ringWrite (kept_update h) ..))
theorem keptOut_writeback (h : Kept s t) : KeptOut s (execWriteback t) := keptOut_ite (keptOut_next (kept_writeback h)) (keptOut_next h)
theorem keptOut_moderationTimeout (h : Kept s t) (r) : KeptOut s (execModerationTimeout r t) := by
  unfold execModerationTimeout; dsimp only
  exact keptOut_ite (keptOut_next (kept_signalRing h ..)) (keptOut_next h)

/-! ## The reactions of the collector -/

theorem kept_noteFenced (h : Kept s t) (src) : Kept s (noteFenced src t) := by
  unfold noteFenced; dsimp only
  split
  · exact kept_update h
  · exact kept_update h
  · exact kept_update h
  · exact kept_update h
  · exact kept_update h
  · exact h
theorem kept_fenceImp (h : Kept s t) (on) : Kept s (fenceImp on t) :=
  have h1 : Kept s _ := kept_setB h ..
  kept_ite (kept_planAbort h1 ..) h1
theorem kept_fenceBleed (h : Kept s t) (on) : Kept s (fenceBleed on t) :=
  have h1 : Kept s _ := kept_setB h ..
  kept_ite h1 (kept_when (kept_enforceSwitches h1) (fun h2 => kept_harnessAbort h2))
theorem kept_fencePhases (h : Kept s t) (m) : Kept s (fencePhases m t) := kept_ite h (kept_refreshPhases (kept_setF (kept_setF h ..) ..))
theorem kept_fenceConverter (h : Kept s t) (on) : Kept s (fenceConverter on t) :=
  have h1 : Kept s _ := kept_setB h ..
  kept_ite (kept_immediateStop (kept_planAbort h1 ..) ..) h1
theorem kept_fenceEngine (h : Kept s t) (on) : Kept s (fenceEngine on t) :=
  have h1 : Kept s _ := kept_setB (kept_setB h ..) ..
  kept_ite h1 (kept_ite (kept_commandedStop (kept_planAbort h1 ..)) (kept_resetEngine h1))
theorem kept_fencePort (h : Kept s t) (n) (on) : Kept s (fencePort n on t) :=
  kept_ite h
      (have h1 : Kept s _ := kept_modPort (kept_setF h ..) ..
       kept_ite (kept_closePort h1 ..) (kept_openPort h1 ..))
theorem kept_fenceInterface (h : Kept s t) (on) : Kept s (fenceInterface on t) :=
  have h1 : Kept s _ := kept_setB h ..
  kept_ite (kept_clearEnables h1) h1
theorem kept_fenceBanks (h : Kept s t) (m) : Kept s (fenceBanks m t) := kept_ite h (kept_update (kept_setF h ..))
theorem kept_endShedding (h : Kept s t) : Kept s (endShedding t) := kept_ite (kept_setLevel (kept_update h) ..) h
theorem kept_applyDegrades (h : Kept s t) : Kept s (applyDegrades t) :=
  have h1 : Kept s _ := kept_setB (kept_setB h ..) ..
  kept_ite (kept_endShedding h1) h1
theorem kept_resetUnfenced (h : Kept s t) : Kept s (resetUnfenced t) := kept_ite h (kept_resetEngine h)
theorem kept_applySafe (h : Kept s t) : Kept s (applySafe t) :=
  have h1 : Kept s _ := kept_setB h ..
  kept_ite h (kept_ite (kept_driveFaultLevel (kept_harnessAbort (kept_enforceSwitches (kept_resetUnfenced (kept_immediateStop (kept_planAbort
      h1 ..) ..))))) (kept_enforceSwitches h1))
theorem kept_endFencedRuns (h : Kept s t) : Kept s (endFencedRuns t) := by
  unfold endFencedRuns; dsimp only
  split
  · exact kept_when (kept_ite (kept_abortCalRun h) h) (fun h1 => kept_abortSelfTest h1)
  · exact kept_ite (kept_abortCalRun h) h
theorem kept_applyReactions (h : Kept s t) : Kept s (applyReactions t) :=
  kept_endFencedRuns (kept_showFenced (kept_applySafe (kept_applyDegrades (kept_fenceBanks (kept_fenceInterface (kept_foldl (fun _ h _ =>
      kept_fencePort h ..) _ (kept_fenceEngine (kept_fencePhases (kept_fenceConverter (kept_fenceBleed (kept_fenceImp (kept_applyCellFences
      h) ..) ..) ..) ..) ..)) ..) ..))))
theorem kept_sendAlarm (h : Kept s t) (src) (kind) (react) (injOnly) (count) : Kept s (sendAlarm src kind react injOnly count t) :=
  kept_ite h
      (have h1 : Kept s _ := kept_foldl (fun _ h _ => kept_sendHome h (kept_incSat h ..) ..) _ (kept_setF h ..)
       kept_ite (kept_pushEvent h1 ..) (kept_ite (kept_incSat h1 ..) h1))
theorem kept_eventAlarm (h : Kept s t) (src) (injOnly) (count) : Kept s (eventAlarm src injOnly count t) := by
  unfold eventAlarm; dsimp only
  split
  · exact kept_ite h (kept_sendAlarm (kept_update h) ..)
  · exact kept_sendAlarm (kept_update h) ..
theorem kept_setSrc (h : Kept s t) (a0) (src) (b0) : Kept s (setSrc a0 src b0 t) := kept_setRegBit h ..
theorem kept_showActive (h : Kept s t) (src) : Kept s (showActive src t) := kept_setSrc h ..
theorem kept_becomeSevere (h : Kept s t) (src) (count) : Kept s (becomeSevere src count t) :=
  have h1 : Kept s _ := kept_setSrc (kept_update h) ..
  have h2 : Kept s _ := kept_applyReactions (kept_ite (kept_noteFenced h1 ..) h1)
  have h3 : Kept s _ := kept_ite (kept_issueRein h2 ..) h2
  kept_ite h3 (kept_sendAlarm h3 ..)
theorem kept_countEvent (h : Kept s t) (src) : Kept s (countEvent src t) := by
  unfold countEvent; dsimp only
  exact kept_ite
      (have h1 : Kept s _ := kept_setF (kept_setSrc (kept_update h) ..) ..
       kept_ite (kept_ite (kept_applyReactions (kept_noteFenced h1 ..)) h1) (kept_ite (kept_becomeSevere h1 ..) (kept_ite (kept_eventAlarm h1 ..) h1)))
      h
theorem kept_acceptEvent (h : Kept s t) (src) : Kept s (acceptEvent src t) := kept_countEvent (kept_showActive (kept_ite (kept_setB h ..) h) ..) ..
theorem kept_failParity (h : Kept s t) (src) (entry) : Kept s (failParity src entry t) := by
  unfold failParity; dsimp only
  split
  · exact kept_ite (kept_setEntry h ..) h
  · exact h
theorem keptOut_sourceEvent (h : Kept s t) (src) (entry) : KeptOut s (execSourceEvent src entry t) :=
  keptOut_ite (keptOut_next h) (keptOut_next (kept_acceptEvent (kept_update (kept_failParity h ..)) ..))
theorem kept_collectorStart (h : Kept s t) : Kept s (collectorStart t) :=
  kept_unless (kept_ite h (kept_foldl (fun _ h _ => kept_pulse h ..) _ (kept_setLine h ..))) (fun h1 => kept_foldl (fun _ h _ => kept_pulse h ..) _
      (kept_setLine h1 ..))
theorem keptOut_railError (h : Kept s t) (src) : KeptOut s (execRailError src t) :=
  keptOut_ite (keptOut_next h)
      (have h1 : Kept s _ := kept_setSrc (kept_update h) ..
       have h2 : Kept s _ := kept_ite h1 (kept_countEvent (kept_showActive h1 ..) ..)
       keptOut_next (kept_sendAlarm (kept_ite h2 (kept_ite (kept_setLine h2 ..) (kept_raise h2 ..))) ..))
theorem keptOut_railErrorEnd (h : Kept s t) (src) : KeptOut s (execRailErrorEnd src t) :=
  keptOut_ite
      (have h1 : Kept s _ := kept_showActive (kept_update h) ..
       keptOut_next (kept_ite h1 (kept_drop h1 ..))) (keptOut_next h)
theorem keptOut_historyParityError (h : Kept s t) (k) : KeptOut s (execHistoryParityError k t) :=
  keptOut_ite (keptOut_next (kept_pulse h ..)) (keptOut_next h)
theorem kept_clearSource (h : Kept s t) (a0) (src) : Kept s (clearSource a0 src t) := kept_ite (kept_setSrc (kept_update h) ..) h
theorem kept_dropReactions (h : Kept s t) : Kept s (dropReactions t) := kept_applyReactions (kept_update h)
theorem kept_clearSevere (h : Kept s t) (j) (bits) : Kept s (clearSevere j bits t) :=
  kept_dropReactions (kept_foldl (fun _ h _ => kept_clearSource h ..) _ h)
theorem kept_clearSticky (h : Kept s t) (j) (bits) : Kept s (clearSticky j bits t) := kept_foldl (fun _ h _ => kept_clearSource h ..) _ h
theorem kept_clearBeside {clear : Word → State → State} (hc : ∀ w, Kept s (clear w t)) (a) (bits) (sets) : Kept s (clearBeside clear a bits sets t) :=
  kept_setReg (hc _) ..
theorem kept_clearRail (h : Kept s t) (j) (bits) : Kept s (clearRail j bits t) := kept_foldl (fun _ h _ => kept_ite h (kept_setSrc h ..)) _ h
theorem keptOut_severeClear (h : Kept s t) (j) (bits) (sets) : KeptOut s (execSevereClear j bits sets t) :=
  keptOut_ite (keptOut_out (keptDone_ok (kept_clearBeside (fun _ => kept_clearSevere h ..) ..))) (keptOut_next h)
theorem keptOut_stickyClear (h : Kept s t) (j) (bits) (sets) : KeptOut s (execStickyClear j bits sets t) :=
  keptOut_ite (keptOut_out (keptDone_ok (kept_clearBeside (fun _ => kept_clearSticky h ..) ..))) (keptOut_next h)
theorem kept_clearAll (h : Kept s t) : Kept s (clearAll t) := kept_foldl (fun _ h _ => kept_clearSevere (kept_clearSticky h ..) ..) _ h
theorem keptOut_clrall (h : Kept s t) : KeptOut s (execClrall t) := keptOut_ite (keptOut_out (keptDone_ok (kept_clearAll h))) (keptOut_next h)
theorem kept_writeFltCfg (h : Kept s t) (src) (w) : Kept s (writeFltCfg src w t) :=
  kept_ite (kept_countViolation h ..) (kept_setReg (kept_update h) ..)
theorem keptOut_fltCfgWrite (h : Kept s t) (src) (w) : KeptOut s (execFltCfgWrite src w t) :=
  keptOut_ite (keptOut_next h) (keptOut_ite (keptOut_out (keptDone_ok (kept_writeFltCfg h ..))) (keptOut_ite (keptOut_fault _) (keptOut_ite
      (keptOut_next (kept_upset h)) (keptOut_out (keptDone_ok (kept_writeFltCfg h ..))))))
theorem kept_injectEvent (h : Kept s t) (src) (full) : Kept s (injectEvent src full t) :=
  kept_ite (kept_setB h ..) (kept_ite (kept_countEvent h ..) (kept_eventAlarm (kept_setF (kept_setSrc h ..) ..) ..))
theorem keptDone_injectionGo (h : Kept s t) (src) (dur) (full) : KeptDone s (injectionGo src dur full t) :=
  keptDone_ite (keptDone_refuse h ..) (keptDone_ite (keptDone_busy h ..) (keptDone_ok (kept_injectEvent (kept_update (kept_incSat (kept_setF
      (kept_setB (kept_setF (kept_setF (kept_setB h ..) ..) ..) ..) ..) ..)) ..)))
theorem keptOut_injectionGo (h : Kept s t) (src) (dur) (full) : KeptOut s (execInjectionGo src dur full t) :=
  keptOut_ite (keptOut_next h) (keptOut_ite (keptOut_next (kept_upset h)) (keptOut_out (keptDone_injectionGo h ..)))
theorem keptOut_injectionEnd (h : Kept s t) : KeptOut s (execInjectionEnd t) := keptOut_ite (keptOut_next (kept_setB h ..)) (keptOut_next h)
theorem keptOut_communicationLossExpiry (h : Kept s t) : KeptOut s (execCommunicationLossExpiry t) :=
  keptOut_ite
      (have h1 : Kept s _ := kept_harnessAbort (kept_planAbort (kept_restartTimer (kept_setEvt (kept_latchG1 (kept_enforceSwitches (kept_update
           (kept_incSat (kept_setB (kept_setReg h ..) ..) ..))) ..) ..)) ..)
       keptOut_next (kept_ite (kept_setEvt (kept_setB (kept_setF h1 ..) ..) ..) h1)) (keptOut_next h)
theorem keptOut_impStart (h : Kept s t) : KeptOut s (execImpStart t) :=
  keptOut_ite (keptOut_out (keptDone_startPlan (kept_abortItem h ..))) (keptOut_next h)

/-! ## Power states and resets -/

theorem keptDone_busyInTransition (h : Kept s t) (t0) : KeptDone s (busyInTransition t0 t) := by
  unfold busyInTransition
  split
  · exact keptDone_busy (kept_useFree h) ..
  · exact keptDone_busyFree h
theorem keptDone_powerDown (h : Kept s t) (t0) : KeptDone s (powerDown t0 t) := by
  unfold powerDown; dsimp only
  refine keptDone_withController h ?_
  split
  · exact keptDone_busyInTransition h ..
  · exact keptDone_ite (keptDone_ite (keptDone_ok h) (keptDone_ite (keptDone_ok (kept_setB h ..)) (keptDone_ok (kept_update h)))) (keptDone_ite
        (keptDone_ok (kept_setF (kept_setB h ..) ..)) (keptDone_ok (kept_beginTransition h ..)))
theorem keptDone_powerUp (h : Kept s t) : KeptDone s (powerUp t) := keptDone_withController h (keptDone_ok (kept_wakeBy (kept_setB h ..) ..))
theorem keptOut_pwrcmdShelf (h : Kept s t) : KeptOut s (execPwrcmdShelf t) := keptOut_ite (keptOut_out (keptDone_powerDown h ..)) (keptOut_next h)
theorem keptOut_pwrcmdSentinel (h : Kept s t) : KeptOut s (execPwrcmdSentinel t) :=
  keptOut_ite (keptOut_out (keptDone_powerDown h ..)) (keptOut_next h)
theorem keptOut_pwrcmdStandby (h : Kept s t) : KeptOut s (execPwrcmdStandby t) := keptOut_ite (keptOut_out (keptDone_powerDown h ..)) (keptOut_next h)
theorem keptOut_pwrcmdActive (h : Kept s t) : KeptOut s (execPwrcmdActive t) := keptOut_ite (keptOut_out (keptDone_powerUp h)) (keptOut_next h)
theorem keptOut_powerTransitionStart (h : Kept s t) : KeptOut s (execPowerTransitionStart t) := by
  unfold execPowerTransitionStart; dsimp only
  split
  · exact keptOut_ite (keptOut_next h) (keptOut_next (kept_sendLeave (kept_update h)))
  · exact keptOut_ite (keptOut_next h) (keptOut_next (kept_harnessAbort (kept_unless (kept_stopService (kept_update h)) (fun h1 => kept_sendLeave
        h1))))
  · exact keptOut_next h
theorem kept_enterStandby (h : Kept s t) : Kept s (enterStandby t) :=
  kept_driveFaultLevel (kept_setB (kept_setB (kept_setF (kept_update (kept_when (kept_quiet (kept_invalidateAll (kept_stopPaths (kept_pcieDown
      (kept_endRole h))))) (fun h1 => kept_setF h1 ..))) ..) ..) ..)
theorem kept_enterUnpowered (h : Kept s t) (ph) : Kept s (enterUnpowered ph t) := kept_update (kept_portsOff (kept_keepOutside h (wf_keepAon h)))
theorem keptOut_powerStateEntry (h : Kept s t) : KeptOut s (execPowerStateEntry t) := by
  unfold execPowerStateEntry
  split
  · refine keptOut_ite (keptOut_next h) ?_
    split
    · exact keptOut_next (kept_enterStandby h)
    · exact keptOut_next (kept_enterUnpowered h ..)
    · exact keptOut_next (kept_enterUnpowered h ..)
  · exact keptOut_next h
theorem keptOut_linkWakeTrainTimeout (h : Kept s t) : KeptOut s (execLinkWakeTrainTimeout t) := by
  unfold execLinkWakeTrainTimeout; dsimp only
  split
  · exact keptOut_ite (keptOut_next h) (keptOut_next (kept_beginTransition (kept_update (kept_countFalseWake h ..)) ..))
  · exact keptOut_next h
theorem kept_sampleLcm (h : Kept s t) : Kept s (sampleLcm t) := kept_setB (kept_setB (kept_setB h ..) ..) ..
theorem kept_raiseEpoch (h : Kept s t) : Kept s (raiseEpoch t) := kept_ite (kept_setF h ..) (kept_update h)
theorem keptOut_coreResetRelease (h : Kept s t) (romOk) : KeptOut s (execCoreResetRelease romOk t) :=
  keptOut_ite (keptOut_next h) (keptOut_ite (keptOut_next (kept_setB (kept_update h) ..))
      (have h1 : Kept s _ := kept_checkController (kept_reportFuses (kept_reportLinkWake (kept_reportSupply (kept_setB (kept_raiseEpoch
           (kept_sampleLcm (kept_update h))) ..)))) ..
       keptOut_next (kept_ite (kept_pulse h1 ..) h1)))
theorem kept_reportGen (h : Kept s t) (b0) : Kept s (reportGen b0 t) := kept_ite (kept_setReg h ..) h
theorem kept_chooseCopy (h : Kept s t) : Kept s (chooseCopy t) := by
  have h1 : Kept s (reportGen true (reportGen false t)) := kept_reportGen (kept_reportGen h ..) ..
  unfold chooseCopy; dsimp only
  refine kept_ite (kept_applyCopy ?_ _) (kept_ite (kept_applyCopy ?_ _) (kept_when ?_ (fun h2 => kept_pulse h2 _))) <;>
    exact kept_when (kept_when h1 (fun h2 => kept_pulse (kept_setB h2 ..) _)) (fun h2 => kept_pulse (kept_setB h2 ..) _)
theorem keptOut_nvmCheckDone (h : Kept s t) (trimOk) : KeptOut s (execNvmCheckDone trimOk t) :=
  keptOut_ite (keptOut_next h)
      (have h1 : Kept s _ := kept_setReg (kept_setReg (kept_update h) ..) ..
       have h2 : Kept s _ := kept_logResume (kept_setB (kept_ite (kept_chooseCopy h1) (kept_pulse (kept_setB h1 ..) ..)) ..)
       keptOut_ite (keptOut_next (kept_update (kept_setF h2 ..))) (keptOut_next h2))
theorem kept_applyPair (h : Kept s t) (a0) (v) : Kept s (applyPair a0 v t) :=
  kept_ite (kept_lockWrite h ..) (kept_ite h (kept_ite (kept_ite (kept_writeFltCfg h ..) (kept_setReg h ..)) (kept_ite (kept_writeTimerPeriod h ..)
      (kept_ite (kept_driveFaultLevel (kept_setReg h ..)) (kept_ite (kept_enforceSwitches (kept_dropComparators (kept_setReg h ..))) (kept_ite
      (kept_writeVselsw h ..) (kept_ite (kept_refreshRoot (kept_setReg h ..)) (kept_storeCnv h ..))))))))
theorem kept_applyProfile (h : Kept s t) (k) : Kept s (applyProfile k t) :=
  kept_ite (kept_setF (kept_foldl (fun _ h _ => kept_applyPair h ..) _ h) ..) (kept_setB h ..)
theorem kept_loadTargets (h : Kept s t) : Kept s (loadTargets t) := kept_foldl (fun _ h _ => kept_setF h ..) _ h
theorem keptOut_profileApply (h : Kept s t) : KeptOut s (execProfileApply t) :=
  keptOut_ite
      (have h1 : Kept s _ := kept_loadTargets (kept_update h)
       keptOut_next (kept_ite (kept_when (kept_applyProfile h1 ..) (fun h2 => kept_copyTable h2)) h1)) (keptOut_next h)
theorem kept_liftLinkWake (h : Kept s t) : Kept s (liftLinkWake t) := kept_reportLinkWake (kept_update h)
theorem kept_startPorts (h : Kept s t) : Kept s (startPorts t) := kept_foldl (fun _ h _ => kept_sendWake (kept_restPort h ..) ..) _ h
theorem kept_resumePorts (h : Kept s t) : Kept s (resumePorts t) :=
  kept_foldl (fun _ h _ => kept_ite (kept_beginTraining h ..) (kept_sendWake h ..)) _ h
theorem kept_enterActive (h : Kept s t) : Kept s (enterActive t) :=
  kept_restartTimer (kept_startPaths (kept_liftLinkWake (kept_setB (kept_setB (kept_setF (kept_startSecondary (kept_update h)) ..) ..) ..)))
theorem keptOut_activeEntry (h : Kept s t) : KeptOut s (execActiveEntry t) := by
  unfold execActiveEntry; dsimp only
  split
  · exact keptOut_ite (keptOut_next (kept_refreshRoot (kept_when (kept_collectorStart (kept_startPorts (kept_enterActive h))) (fun h1 => kept_takeRole
        h1 ..)))) (keptOut_next h)
  · exact keptOut_next (kept_refreshRoot (kept_when (kept_resumePorts (kept_enterActive h)) (fun h1 => kept_takeRole h1 ..)))
  · exact keptOut_next h
theorem keptOut_deviceResetCommand (h : Kept s t) : KeptOut s (execDeviceResetCommand t) :=
  keptOut_ite (keptOut_out (keptDone_ok (kept_deviceReset h ..))) (keptOut_next h)
theorem kept_restartController (h : Kept s t) : Kept s (restartController t) :=
  kept_abortSelfTest (kept_abortCalRun (kept_abandonRun (kept_update h)))
theorem keptOut_controllerRestart (h : Kept s t) : KeptOut s (execControllerRestart t) :=
  keptOut_ite (keptOut_out (keptDone_ok (kept_restartController (kept_setB h ..)))) (keptOut_next h)
theorem keptOut_controllerWatchdogExpiry (h : Kept s t) : KeptOut s (execControllerWatchdogExpiry t) :=
  keptOut_ite (keptOut_next (kept_pulse (kept_restartController (kept_setB h ..)) ..)) (keptOut_next h)
theorem keptOut_controllerRestartDone (h : Kept s t) (romOk) : KeptOut s (execControllerRestartDone romOk t) := by
  unfold execControllerRestartDone; dsimp only
  refine keptOut_ite ?_ (keptOut_next h)
  split
  · exact keptOut_next (kept_nextJob (kept_complete (kept_update (kept_checkController (kept_update h) ..)) ..))
  · exact keptOut_next (kept_nextJob (kept_checkController (kept_update h) ..))
theorem keptDone_patchCommand (h : Kept s t) (tk) : KeptDone s (patchCommand tk t) :=
  keptDone_ite (keptDone_refuse h ..) (keptDone_withController h (keptDone_ite (keptDone_testBusy h) (keptDone_ite (keptDone_busyFree h)
      (keptDone_later (kept_update (kept_restartController (kept_setB h ..)))))))
theorem keptOut_patch (h : Kept s t) (tk) : KeptOut s (execPatch tk t) := keptOut_ite (keptOut_via (keptDone_patchCommand h ..) ..) (keptOut_next h)
theorem keptOut_rstnAssert (h : Kept s t) : KeptOut s (execRstnAssert t) := by
  unfold execRstnAssert; dsimp only
  split
  · exact keptOut_next (kept_deviceReset (kept_update h) ..)
  · exact keptOut_next (kept_deviceReset (kept_update h) ..)
  · exact keptOut_next (kept_deviceReset (kept_update h) ..)
  · exact keptOut_next (kept_deviceReset (kept_update h) ..)
  · exact keptOut_next (kept_update h)
theorem keptOut_rstnRelease (h : Kept s t) : KeptOut s (execRstnRelease t) := keptOut_next (kept_update h)
theorem kept_resetHstRegs (h : Kept s t) : Kept s (resetHstRegs t) :=
  ⟨h.pending, fun hs => ⟨RegFile.wf_filter _ _ (h.canonical hs).1, (h.canonical hs).2⟩⟩
theorem keptOut_perstnAssert (h : Kept s t) : KeptOut s (execPerstnAssert t) :=
  have h1 : Kept s _ := kept_update h
  keptOut_ite (keptOut_next h) (keptOut_ite (keptOut_next (kept_update h))
      (have h2 : Kept s _ := kept_incSat (kept_ite (kept_pulse h1 ..) h1) ..
       keptOut_next (kept_setB (kept_resetHstRegs (kept_update (kept_endRole (kept_ite (kept_pulse h2 ..) h2)))) ..)))
theorem keptOut_perstnStuckTimeout (h : Kept s t) : KeptOut s (execPerstnStuckTimeout t) :=
  keptOut_ite (keptOut_next (kept_raise h ..)) (keptOut_next h)
theorem keptOut_perstnRelease (h : Kept s t) : KeptOut s (execPerstnRelease t) := keptOut_next (kept_drop (kept_update h) ..)

/-! ## Accesses of the local space -/

theorem keptDone_after {e : Done} (h : KeptDone s e) (d : Done) : KeptDone s (d.after e) := h
theorem keptPair_plainRead (h : Kept s t) (a0) : KeptPair s (plainRead a0 t) := by
  unfold plainRead; dsimp only
  split
  · exact keptPair_mk h _
  · exact keptPair_mk (kept_ite h (kept_setReg h ..)) _
theorem kept_useClock (h : Kept s t) (req) (hi) : Kept s (useClock req hi t) := kept_update h
theorem keptPair_windowRead (h : Kept s t) (req) (a0) : KeptPair s (windowRead req a0 t) :=
  keptPair_ite (keptPair_ite (keptPair_readValue h ..) (keptPair_readTag h ..)) (keptPair_ite (keptPair_mk h _) (keptPair_ite (keptPair_mk h _)
      (keptPair_ite (keptPair_mk h _) (keptPair_mk h _))))
theorem keptPair_readWord (h : Kept s t) (req) (a0) : KeptPair s (readWord req a0 t) := by
  unfold readWord
  refine keptPair_ite (keptPair_windowRead h ..) (keptPair_ite (keptPair_readValue h ..) (keptPair_ite (keptPair_readTag h ..) (keptPair_ite
      (keptPair_readHwidx h ..) (keptPair_ite (keptPair_mk (kept_useTime h ..) _) (keptPair_ite (keptPair_mk (kept_useTime h ..) _) (keptPair_ite
      (keptPair_mk (kept_snd (keptPair_plainRead h ..)) _) (keptPair_ite (keptPair_mk (kept_snd (keptPair_plainRead h ..)) _) (keptPair_ite
      (keptPair_mk (kept_useClock h ..) _) (keptPair_ite ?_ (keptPair_ite (keptPair_mk h _) (keptPair_ite (keptPair_mk (kept_snd (keptPair_plainRead
      h ..)) _) (keptPair_ite (keptPair_mk (kept_refreshRbuf (kept_snd (keptPair_plainRead h ..)) ..) _) (keptPair_ite (keptPair_mk h _) (keptPair_ite
      (keptPair_mk h _) (keptPair_ite (keptPair_mk h _) (keptPair_plainRead h ..))))))))))))))))
  split
  · exact keptPair_mk (kept_useClock h ..) _
  · exact keptPair_mk h _
theorem keptPair_readWords (h : Kept s t) (req) (a) (n) : KeptPair s (readWords req a n t) := by
  induction n generalizing a t with
  | zero => exact h
  | succ n ih => exact ih (keptPair_readWord h ..) _
theorem kept_plainWrite (h : Kept s t) (a0) (v) : Kept s (plainWrite a0 v t) := by
  unfold plainWrite; dsimp only
  split
  · exact h
  · exact kept_setReg h ..
theorem keptDone_writeSys (h : Kept s t) (req) (tk) (a0) (v) : KeptDone s (writeSys req tk a0 v t) := by
  unfold writeSys; dsimp only
  refine keptDone_ite (keptDone_ite (keptDone_ok h) ?_) (keptDone_ite (keptDone_ite (keptDone_ok h) ?_) (keptDone_ite (keptDone_ok (kept_lockWrite
      h ..)) (keptDone_ite (keptDone_ok (kept_selectLeg (kept_plainWrite h ..))) (keptDone_ok (kept_plainWrite h ..)))))
  · split
    · exact keptDone_powerDown h ..
    · exact keptDone_powerDown h ..
    · exact keptDone_powerDown h ..
    · exact keptDone_powerUp h
  · split
    · exact keptDone_ite (keptDone_ok (kept_deviceReset h ..)) (keptDone_later (kept_deviceReset h ..))
    · exact keptDone_ok (kept_restartController (kept_setB h ..))
    · exact keptDone_ok h
theorem keptDone_writeMeasure (h : Kept s t) (tk) (a0) (v) : KeptDone s (writeMeasure tk a0 v t) :=
  keptDone_ite (keptDone_writeCmsCfg h ..) (keptDone_ite (keptDone_writeCmsChen h ..) (keptDone_ite (keptDone_ite (keptDone_startHarness h ..)
      (keptDone_ok h)) (keptDone_ok (kept_plainWrite h ..))))
theorem keptDone_writeImp (h : Kept s t) (a0) (v) : KeptDone s (writeImp a0 v t) :=
  keptDone_ite (keptDone_ite (keptDone_ok (kept_planAbort h ..)) (keptDone_ite (keptDone_startPlan (kept_abortItem h ..)) (keptDone_ok h)))
      (keptDone_ite (keptDone_busyFree h) (keptDone_ok (kept_plainWrite h ..)))
theorem keptDone_writeCpb (h : Kept s t) (a0) (v) : KeptDone s (writeCpb a0 v t) :=
  keptDone_ite (keptDone_ok (kept_clearFlags h ..)) (keptDone_ite (keptDone_ok (kept_clearFlags h ..)) (keptDone_ite (keptDone_ok
      (kept_writeTimerPeriod h ..))
      (have h1 : Kept s _ := kept_plainWrite h ..
       keptDone_ite (keptDone_ok (kept_enforceSwitches (kept_dropComparators h1))) (keptDone_ite (keptDone_ok (kept_driveFaultLevel h1)) (keptDone_ok
           h1)))))
theorem keptDone_writeCnvCmd (h : Kept s t) (v) : KeptDone s (writeCnvCmd v t) :=
  keptDone_ite (keptDone_refuse h ..)
      (have h1 : Kept s _ := kept_ite (kept_update h) h
       have h2 : Kept s _ := kept_ite (kept_clearConverterFault h1) h1
       keptDone_ite (keptDone_ok (kept_commandedStop h2)) (keptDone_ite (keptDone_startConverter h2) (keptDone_ok h2)))
theorem keptDone_writeCnv (h : Kept s t) (a0) (v) : KeptDone s (writeCnv a0 v t) :=
  keptDone_ite (keptDone_writeCnvCmd h ..) (keptDone_ite (keptDone_busyFree h) (keptDone_ite (keptDone_ok (kept_writeVtgt h ..)) (keptDone_ite
      (keptDone_ok (kept_writeVselsw h ..)) (keptDone_ok (kept_storeCnv h ..)))))
theorem keptDone_writeCtl (h : Kept s t) (a0) (v) : KeptDone s (writeCtl a0 v t) :=
  keptDone_ite (keptDone_busyFree h) (keptDone_ite (keptDone_ite (keptDone_loadLut h) (keptDone_ok h)) (keptDone_ite (keptDone_writeTarget h ..)
      (keptDone_ok (kept_plainWrite h ..))))
theorem keptDone_writeLnk (h : Kept s t) (a0) (v) : KeptDone s (writeLnk a0 v t) :=
  keptDone_ite (keptDone_ok (kept_plainWrite h ..)) (keptDone_ite
      (have h1 : Kept s _ := kept_plainWrite h ..
       keptDone_ite (keptDone_ok (kept_closePort h1 ..)) (keptDone_ite (keptDone_ok (kept_openPort h1 ..)) (keptDone_ok h1))) (keptDone_ite (keptDone_ite
      (have h1 : Kept s _ := kept_ite (kept_retrain h ..) h
       keptDone_ite (keptDone_linkWakeCommand h1 ..) (keptDone_ok h1)) (keptDone_ok h)) (keptDone_ok (kept_plainWrite h ..))))
theorem kept_planSwitch (h : Kept s t) (other) (k) : Kept s (planSwitch other k t) := kept_ite (kept_update h) h
theorem kept_writeProute (h : Kept s t) (k) (v) : Kept s (writeProute k v t) :=
  have h1 : Kept s _ := kept_setB (kept_setB (kept_setReg h ..) ..) ..
  kept_ite (kept_planSwitch h1 ..) (kept_update h1)
theorem kept_writeHctl (h : Kept s t) (k) (v) : Kept s (writeHctl k v t) := kept_planSwitch (kept_update (kept_plainWrite h ..)) ..
theorem keptDone_writeFab (h : Kept s t) (tk) (a0) (v) : KeptDone s (writeFab tk a0 v t) :=
  keptDone_ite (keptDone_ite (keptDone_ok h) (keptDone_enumCommand h ..)) (keptDone_ite (keptDone_ok (kept_writeProute h ..)) (keptDone_ite
      (keptDone_ok (kept_writeHctl h ..)) (keptDone_ite (keptDone_ok (kept_setB (kept_plainWrite h ..) ..)) (keptDone_ok (kept_plainWrite h ..)))))
theorem kept_refuseConfig (h : Kept s t) : Kept s (refuseConfig t) := kept_pulse (kept_setHostErr h ..) ..
theorem keptDone_writeHst (h : Kept s t) (a0) (v) : KeptDone s (writeHst a0 v t) := by
  unfold writeHst; dsimp only
  refine keptDone_ite (keptDone_ite (keptDone_ok (kept_ite (kept_refuseConfig h) (kept_setB h ..))) (keptDone_ok (kept_when (kept_plainWrite h ..)
      (fun h1 => kept_writebackEnable h1)))) (keptDone_ite (keptDone_ok (kept_ite (kept_refuseConfig h) (kept_plainWrite h ..))) (keptDone_ite ?_
      (keptDone_ite (keptDone_ok (kept_releaseMasked (kept_plainWrite h ..))) (keptDone_ok (kept_plainWrite h ..)))))
  split
  · exact keptDone_ok (kept_ite (kept_refuseConfig h) (kept_plainWrite h ..))
  · exact keptDone_ok (kept_ite (kept_refuseConfig h) (kept_plainWrite h ..))
  · exact keptDone_ok (kept_ite (kept_refuseConfig h) (kept_plainWrite h ..))
  · exact keptDone_ok (kept_unless (kept_when (kept_plainWrite h ..) (fun h1 => kept_ringEnable h1 ..)) (fun h1 => kept_signalCounted h1 ..))
  · exact keptDone_ok (kept_doorbell h ..)
  · exact keptDone_ok (kept_plainWrite h ..)
theorem keptDone_writeTbs (h : Kept s t) (a0) (v) : KeptDone s (writeTbs a0 v t) :=
  keptDone_ite (keptDone_ok (kept_refreshRoot (kept_plainWrite h ..))) (keptDone_ite (keptDone_ite (keptDone_stepCommand h) (keptDone_ok h))
      (keptDone_ite (keptDone_ite (keptDone_reinCommand h ..) (keptDone_ok h)) (keptDone_ite (keptDone_ite (keptDone_clearFull h) (keptDone_ok h))
      (keptDone_ok (kept_plainWrite h ..)))))
theorem keptDone_writeFlt (h : Kept s t) (a0) (v) : KeptDone s (writeFlt a0 v t) :=
  keptDone_ite (keptDone_ok (kept_ite (kept_clearAll h) h)) (keptDone_ite (keptDone_ite (keptDone_injectionGo h ..) (keptDone_ok (kept_plainWrite
      h ..))) (keptDone_ite (keptDone_ok (kept_clearSticky h ..)) (keptDone_ite (keptDone_ok (kept_clearSevere h ..)) (keptDone_ite (keptDone_ok
      (kept_clearRail h ..)) (keptDone_ite (keptDone_ok (kept_writeFltCfg h ..)) (keptDone_ok (kept_plainWrite h ..)))))))
theorem keptDone_writeCheck (h : Kept s t) (tk) (a0) (v) : KeptDone s (writeCheck tk a0 v t) :=
  keptDone_ite (keptDone_ite (keptDone_logClear h ..) (keptDone_ok h)) (keptDone_ite (keptDone_ite (keptDone_calCommand h (fun _ =>
      keptDone_patchCommand h ..) ..) (keptDone_ok h)) (keptDone_ite (keptDone_ok (kept_setReg h ..)) (keptDone_ite (keptDone_ok (kept_crcFeed h ..))
      (keptDone_ite (keptDone_ok (kept_crcFeed h ..)) (keptDone_ite (keptDone_ok (kept_crcFeed h ..)) (keptDone_ite (keptDone_ite (keptDone_ok h)
      (keptDone_ite (keptDone_abortCommand h) (keptDone_ite (keptDone_selfTestCommand h ..) (keptDone_ok h)))) (keptDone_ite (keptDone_ite
      (keptDone_lifecycleCommand h ..) (keptDone_ok h)) (keptDone_ok (kept_plainWrite h ..)))))))))
theorem keptDone_writeWord (h : Kept s t) (req) (tk) (a0) (v) : KeptDone s (writeWord req tk a0 v t) :=
  keptDone_ite (keptDone_withController h (keptDone_ok (kept_patchWord h ..))) (keptDone_ite (keptDone_writeSys h ..) (keptDone_ite
      (keptDone_writeMeasure h ..) (keptDone_ite (keptDone_writeImp h ..) (keptDone_ite (keptDone_writeCpb h ..) (keptDone_ite (keptDone_writeCnv
      h ..) (keptDone_ite (keptDone_writeCtl h ..) (keptDone_ite (keptDone_writeLnk h ..) (keptDone_ite (keptDone_writeFab h ..) (keptDone_ite
      (keptDone_writeHst h ..) (keptDone_ite (keptDone_writeTbs h ..) (keptDone_ite (keptDone_writeFlt h ..) (keptDone_writeCheck h ..))))))))))))
theorem keptOut_accVia {a : Acc} (h : KeptAcc s a) (tk) : KeptOut s (a.via tk) := by
  cases a with
  | done d => exact keptOut_via h tk
  | stop f => trivial
  | hostError t => exact kept_upset h
theorem keptAcc_writeWords {d : Done} (h : KeptDone s d) (req) (tk) (a) (l) : KeptAcc s (writeWords req tk a l d) := by
  induction l generalizing a d with
  | nil => exact h
  | cons v l ih =>
    unfold writeWords
    refine keptAcc_ite h ?_
    split
    · trivial
    · exact keptAcc_ite h (ih (keptDone_after (keptDone_writeWord h ..) _) _)
theorem kept_orWords (h : Kept s t) (mask) (a) (ws) : Kept s (orWords mask a ws t) := by
  refine kept_foldl (fun _ h _ => ?_) _ h
  split
  · exact kept_setReg h ..
  · exact h
theorem keptAcc_beside {a : Acc} (h : KeptAcc s a) {f : State → State} (hf : ∀ t, Kept s t → Kept s (f t)) : KeptAcc s (a.beside f) := by
  cases a with
  | done d => exact keptDone_ite (hf _ h) h
  | stop f => trivial
  | hostError t => exact h
theorem keptAcc_localRead (h : Kept s t) (req) (a0) (n) : KeptAcc s (localRead req a0 n t) :=
  keptAcc_ite (keptAcc_done (keptDone_refuse h ..)) (keptAcc_ite (keptAcc_hostError h) (keptAcc_ite (keptAcc_hostError h) (keptAcc_done (keptDone_read
      (kept_snd (keptPair_readWords h ..)) ..))))
theorem keptAcc_localWrite (h : Kept s t) (req) (tk) (bulk) (a0) (l) : KeptAcc s (localWrite req tk bulk a0 l t) :=
  keptAcc_ite (keptAcc_done (keptDone_refuse h ..)) (keptAcc_writeWords (keptDone_ok h) ..)
theorem keptAcc_barRead (h : Kept s t) (a0) (n) : KeptAcc s (barRead a0 n t) :=
  keptAcc_ite (keptAcc_hostError h) (keptAcc_ite (keptAcc_done (keptDone_read h ..)) (keptAcc_done (keptDone_read (kept_snd (keptPair_readWords
      h ..)) ..)))
theorem keptAcc_barWrite (h : Kept s t) (a0) (l) : KeptAcc s (barWrite a0 l t) :=
  keptAcc_ite (keptAcc_hostError h) (keptAcc_ite (keptAcc_writeWords (keptDone_ok h) ..) (keptAcc_done (keptDone_ok h)))
theorem keptOut_registerWrite (h : Kept s t) (req) (a0) (words) (sets) : KeptOut s (execRegisterWrite req a0 words sets t) :=
  keptOut_ite (keptOut_next h) (keptOut_ite (keptOut_ite (keptOut_accVia (keptAcc_beside (keptAcc_barWrite h ..) (fun _ h => kept_orWords
      h ..) ..) ..) (keptOut_next h)) (keptOut_accVia (keptAcc_beside (keptAcc_localWrite h ..) (fun _ h => kept_orWords h ..) ..) ..))
theorem keptOut_registerReadClear (h : Kept s t) (req) (a0) (n) (gains) : KeptOut s (execRegisterReadClear req a0 n gains t) :=
  keptOut_ite (keptOut_next h) (keptOut_ite (keptOut_ite (keptOut_accVia (keptAcc_beside (keptAcc_barRead h ..) (fun _ h => kept_orWords h ..) ..) ..)
      (keptOut_next h)) (keptOut_accVia (keptAcc_beside (keptAcc_localRead h ..) (fun _ h => kept_orWords h ..) ..) ..))

end

end Sys2Proof.Machine
end

