-- ==== Sys2Proof/Proofs/StepInvariant.lean ====
section
/-!
PROOFS. Every command keeps the queue and the canonical form, and so does a step.
-/
namespace Sys2Proof.Machine

-- The many short lemmas are elaborated one after the other: at once, they need more threads than the check's memory holds.
set_option Elab.async false

section
variable {s t u : State}

/-! ## Requests of the fabric -/

theorem kept_withArrival (h : Kept s t) (arrival) (f) : Kept s (withArrival arrival f t) := kept_ite h (kept_deliver h ..)
theorem kept_feedTimer (h : Kept s t) (f) : Kept s (feedTimer f t) := kept_ite (kept_restartTimer h) h
theorem keptDone_reportWait {d : Done} (h : KeptDone s d) (wait) : KeptDone s (reportWait wait d) := keptDone_ite h (keptDone_ite h h)
theorem kept_dropStale (h : Kept s t) (f) : Kept s (dropStale f t) := kept_update h
theorem keptDone_refusedRun {d : Done} (h : Kept s t) (hd : KeptDone s d) (ran) : KeptDone s (refusedRun d ran t) := by
  unfold refusedRun; split
  · exact keptDone_ite h hd
  · exact hd
theorem keptOut_serve (h : Kept s t) (e) {run : Ticket → State → Acc} (hr : ∀ tk u, Kept s u → KeptAcc s (run tk u)) : KeptOut s (serve e run t) := by
  have h1 : Kept s (dropStale e.frame (feedTimer e.frame (takeInbox e.arrival e.frame t))) := kept_dropStale (kept_feedTimer (kept_takeInbox h ..) _)
      _
  unfold serve; dsimp only
  refine keptOut_ite (kept_incSat h1 _) (keptOut_ite (keptOut_via (keptDone_refusedRun h1 (keptDone_refuse h1 _) _) _) ?_)
  split
  · exact kept_sendCpl h1 ..
  · refine keptOut_ite (keptOut_via (keptDone_refusedRun h1 (keptDone_busyFree h1) _) _) ?_
    have h2 := hr (reqTicket e.frame) _ h1
    split
    · next d hd => exact keptOut_via (keptDone_reportWait (by rw [hd] at h2; exact h2) _) _
    · exact keptOut_accVia h2 _
theorem keptOut_request (h : Kept s t) {run : Ticket → State → Acc} (hr : ∀ tk u, Kept s u → KeptAcc s (run tk u)) (kind) (arrival) (f) :
    KeptOut s (request kind arrival f run t) := by
  unfold request
  refine keptOut_ite h ?_
  dsimp only
  split
  · exact keptOut_ite (keptOut_serve (kept_withArrival h ..) _ hr) h
  · exact h
theorem keptOut_readRequest (h : Kept s t) (arrival) (f) : KeptOut s (execReadRequest arrival f t) :=
  keptOut_request h (fun _ _ h => keptAcc_localRead h ..) ..
theorem keptOut_writeRequest (h : Kept s t) (arrival) (f) : KeptOut s (execWriteRequest arrival f t) :=
  keptOut_request h (fun _ _ h => keptAcc_localWrite h ..) ..
theorem keptOut_probe (h : Kept s t) (arrival) (f) : KeptOut s (execProbe arrival f t) :=
  keptOut_request h (fun _ _ h => keptAcc_done (keptDone_read h _)) ..
theorem kept_takeId (h : Kept s t) (f) : Kept s (takeId f t) := kept_ite (kept_setB (kept_setF h ..) ..) h
theorem keptOut_assign (h : Kept s t) (arrival) (f) : KeptOut s (execAssign arrival f t) :=
  keptOut_request h (fun _ _ h => keptAcc_done (keptDone_read (kept_refreshRoot (kept_takeId h _)) _)) ..
theorem keptOut_routes (h : Kept s t) (arrival) (f) : KeptOut s (execRoutes arrival f t) :=
  keptOut_request h (fun _ _ h => keptAcc_ite (keptAcc_done (keptDone_ok (kept_setEntry h ..))) (keptAcc_done (keptDone_ok h))) ..
theorem keptDone_sessionDone (h : Kept s t) (w2) (w3) (w4) (w5) : KeptDone s (sessionDone w2 w3 w4 w5 t) := by
  unfold sessionDone; dsimp only
  refine keptDone_ite (keptDone_refuse h ..) (keptDone_ite (keptDone_refuse h ..) ?_)
  split
  · exact keptDone_ite (keptDone_refuse h ..) (keptDone_ok (kept_setSession h ..))
  · exact keptDone_ok (kept_setSession h ..)
  · exact keptDone_ok (kept_setSession h ..)
  · exact keptDone_ok (kept_setSession h ..)
  · exact keptDone_ok h
theorem keptAcc_sessionOp (h : Kept s t) (w2) (w3) (w4) (w5) : KeptAcc s (sessionOp w2 w3 w4 w5 t) :=
  keptAcc_ite (keptAcc_hostError h) (keptAcc_done (keptDone_sessionDone h ..))
theorem keptAcc_sessionRun (h : Kept s t) (f) (_tk) : KeptAcc s (sessionRun f _tk t) := keptAcc_sessionOp h ..
theorem keptOut_sessionOpen (h : Kept s t) (arrival) (f) : KeptOut s (execSessionOpen arrival f t) :=
  keptOut_request h (fun _ _ h => keptAcc_sessionRun h ..) ..
theorem keptOut_sessionClose (h : Kept s t) (arrival) (f) : KeptOut s (execSessionClose arrival f t) :=
  keptOut_request h (fun _ _ h => keptAcc_sessionRun h ..) ..
theorem keptOut_sessionResume (h : Kept s t) (arrival) (f) : KeptOut s (execSessionResume arrival f t) :=
  keptOut_request h (fun _ _ h => keptAcc_sessionRun h ..) ..
theorem keptOut_sessionSuspend (h : Kept s t) (arrival) (f) : KeptOut s (execSessionSuspend arrival f t) :=
  keptOut_request h (fun _ _ h => keptAcc_sessionRun h ..) ..

/-! ## Commands of the host -/

theorem kept_beginCommand (h : Kept s t) (slot) : Kept s (beginCommand slot t) := kept_update h
theorem keptAcc_ownAccess (h : Kept s t) (dma) (c0) : KeptAcc s (ownAccess dma c0 t) := keptAcc_ite (keptAcc_localRead h ..) (keptAcc_localWrite h ..)
theorem kept_sendCommand (h : Kept s t) (t0) (posted) (body) (c0) : Kept s (sendCommand t0 posted body c0 t) := by
  unfold sendCommand; dsimp only
  split
  · exact h
  · exact kept_sendRouted (kept_refreshOut (kept_update (kept_useFree (kept_beginCommand h ..)))) ..
theorem kept_sendBroadcast (h : Kept s t) (body) (c0) : Kept s (sendBroadcast body c0 t) :=
  have h1 : Kept s _ := kept_broadcast (kept_refreshOut (kept_update (kept_beginCommand h ..))) ..
  kept_ite h1 (kept_finishReq h1 ..)
theorem keptOut_command (h : Kept s t) {run : HostCmd → State → Out} (hr : ∀ c, KeptOut s (run c t)) (op) (dma) : KeptOut s (command op dma run t) :=
    by
  unfold command; split
  · exact h
  · refine keptOut_ite h ?_
    split
    · exact kept_complete (kept_beginCommand h _) ..
    · exact hr _
theorem keptOut_nop (h : Kept s t) : KeptOut s (execNop t) := by
  refine keptOut_command h (fun _ => ?_) ..
  exact keptOut_next (kept_complete (kept_beginCommand h ..) ..)
theorem keptOut_read (h : Kept s t) : KeptOut s (execRead t) :=
  keptOut_command h (fun _ => keptOut_ite (keptOut_accVia (keptAcc_ownAccess (kept_beginCommand h ..) ..) _) (keptOut_next (kept_sendCommand
      h ..))) ..
theorem keptOut_write (h : Kept s t) (dma) : KeptOut s (execWrite dma t) :=
  keptOut_ite (keptOut_next h) (keptOut_command h (fun _ => keptOut_ite (keptOut_accVia (keptAcc_ownAccess (kept_beginCommand h ..) ..) _)
    (keptOut_ite (keptOut_next (kept_sendBroadcast h ..)) (keptOut_next (kept_sendCommand h ..)))) ..)
theorem keptOut_session (h : Kept s t) : KeptOut s (execSession t) :=
  keptOut_command h (fun _ => keptOut_ite (keptOut_accVia (keptAcc_sessionOp (kept_beginCommand h ..) ..) _) (keptOut_next (kept_sendCommand
      h ..))) ..
theorem keptOut_enum (h : Kept s t) : KeptOut s (execEnum t) :=
  keptOut_command h (fun _ => keptOut_via (keptDone_mk (kept_st (keptDone_ite (keptDone_ok (kept_beginCommand h ..))
    (keptDone_enumCommand (kept_beginCommand h ..) ..))) ..) _) ..

/-! ## Generation 1 and the legacy chain -/

theorem kept_g1Write (h : Kept s t) (d0) (r) (v) : Kept s (g1Write d0 r v t) := by
  unfold g1Write; dsimp only
  split
  · exact kept_update h
  · exact kept_st (keptDone_writeCmsCfg h ..)
  · exact kept_useFree (kept_setF h ..)
  · exact kept_useFree (kept_setF h ..)
  · exact kept_setReg h ..
  · exact kept_useFree (kept_writeTimerPeriod h ..)
  · exact kept_clearFlags h ..
  · exact kept_clearFlags h ..
  · exact h
theorem kept_g1WriteMany (h : Kept s t) (d) (r) (l) : Kept s (g1WriteMany d r l t) := by
  induction l generalizing r t with
  | nil => exact h
  | cons v l ih => exact ih (kept_g1Write h ..) _
theorem kept_g1Names (h : Kept s t) (r) (n) : Kept s (g1Names r n t) := kept_update h
theorem kept_g1After (h : Kept s t) (d0) (r) (n) (rd) : Kept s (g1After d0 r n rd t) := kept_update h
theorem kept_settleGen1 (h : Kept s t) : Kept s (settleGen1 t) := kept_ite (kept_setF (kept_update h) ..) h
theorem keptOut_g1Transaction (h : Kept s t) {act : State → Out} (ha : ∀ u, Kept s u → KeptOut s (act u)) (low) (count) : KeptOut s (g1Transaction low
    count act t) := by
  unfold g1Transaction
  exact keptOut_ite h (keptOut_ite (kept_incSat h _) (keptOut_ite (kept_upset h) (ha _ (kept_restartTimer (kept_settleGen1 h)))))
theorem keptOut_gen1Read (h : Kept s t) (dev) (low) (r) (count) : KeptOut s (execGen1Read dev low r count t) :=
  keptOut_g1Transaction h (fun _ h => keptOut_next (kept_useFree (kept_g1After (kept_update (kept_g1Names h ..)) ..))) ..
theorem keptOut_gen1Write (h : Kept s t) (dev) (low) (r) (words) : KeptOut s (execGen1Write dev low r words t) :=
  keptOut_g1Transaction h (fun _ h => keptOut_ite (keptOut_next (kept_upset (kept_g1Names h ..)))
    (keptOut_next (kept_g1WriteMany (kept_g1After (kept_update (kept_g1Names h ..)) ..) ..))) ..
theorem kept_legacyAct (h : Kept s t) (bytes) (first) (d0) : Kept s (legacyAct bytes first d0 t) :=
  kept_ite h
      (have h1 : Kept s _ := kept_g1Names h ..
       have h2 : Kept s _ := kept_g1After (kept_ite h1 (kept_putFrames h1 ..)) ..
       kept_ite (kept_useFree h2) (kept_g1WriteMany h2 ..))
theorem kept_legacyTrained (h : Kept s t) : Kept s (legacyTrained t) := by
  unfold legacyTrained; dsimp only
  split
  · exact kept_clearFalseWake (kept_update h) ..
  · exact kept_clearFalseWake h ..
theorem keptOut_legacyCommandFrame (h : Kept s t) (bytes) (codeViolation) : KeptOut s (execLegacyCommandFrame bytes codeViolation t) := by
  unfold execLegacyCommandFrame; dsimp only
  refine keptOut_ite (keptOut_next h) (keptOut_ite (keptOut_next (kept_linkError (kept_putFrames (kept_putFrames h ..) ..) ..)) (keptOut_ite
      (keptOut_next (kept_update (kept_linkError (kept_putFrames (kept_putFrames h ..) ..) ..))) (keptOut_ite (keptOut_next (kept_putFrames
      (kept_update (kept_legacyTrained (kept_restartTimer (kept_putFrames h ..)))) ..)) ?_)))
  split
  · exact keptOut_next (kept_putFrames (kept_legacyTrained (kept_restartTimer (kept_putFrames h ..))) ..)
  · exact keptOut_ite (keptOut_next (kept_upset (kept_putFrames (kept_legacyTrained (kept_restartTimer (kept_putFrames h ..))) ..))) (keptOut_next
        (kept_legacyAct (kept_legacyAct (kept_putFrames (kept_legacyTrained (kept_restartTimer (kept_putFrames h ..))) ..) ..) ..))

/-! ## Every command -/

theorem keptOut_exec (h : Kept s t) (i) : KeptOut s (exec i t) := by
  unfold exec
  split
  · exact keptOut_registerWrite h ..
  · exact keptOut_registerReadClear h ..
  · exact keptOut_gen3LinkUp h ..
  · exact keptOut_harnessWireChange h ..
  · exact keptOut_lcmPinChange h ..
  · exact keptOut_vmodThresholdCross h ..
  · exact keptOut_vinThresholdCross h ..
  · exact keptOut_vinQualified h
  · exact keptOut_buckLimitTimeout h
  · exact keptOut_railWarning h ..
  · exact keptOut_referenceMismatch h ..
  · exact keptOut_railBrownOut h ..
  · exact keptOut_powerOnReset h ..
  · exact keptOut_pwrcmdShelf h
  · exact keptOut_pwrcmdSentinel h
  · exact keptOut_pwrcmdStandby h
  · exact keptOut_pwrcmdActive h
  · exact keptOut_powerTransitionStart h
  · exact keptOut_powerStateEntry h
  · exact keptOut_wakeRisingEdge h
  · exact keptOut_wakeStuckTimeout h
  · exact keptOut_wakeLowClear h
  · exact keptOut_wakeTimerExpiry h
  · exact keptOut_linkWakeDetect h ..
  · exact keptOut_linkWakeTrainTimeout h
  · exact keptOut_wakeFilterPass h
  · exact keptOut_buckSoftStartDone h
  · exact keptOut_coreResetRelease h ..
  · exact keptOut_cpllLock h
  · exact keptOut_tpllLock h
  · exact keptOut_nvmCheckDone h ..
  · exact keptOut_profileApply h
  · exact keptOut_activeEntry h
  · exact keptOut_sclkFailure h
  · exact keptOut_moscFailure h
  · exact keptOut_pllLossOfLock h ..
  · exact keptOut_deviceResetCommand h
  · exact keptOut_controllerRestart h
  · exact keptOut_controllerWatchdogExpiry h
  · exact keptOut_controllerRestartDone h ..
  · exact keptOut_rstnAssert h
  · exact keptOut_rstnRelease h
  · exact keptOut_perstnAssert h
  · exact keptOut_perstnStuckTimeout h
  · exact keptOut_wordBoundary h ..
  · exact keptOut_cmsCfgWrite h ..
  · exact keptOut_filterSettingApply h
  · exact keptOut_cmsChenWrite h ..
  · exact keptOut_historyLayoutChange h
  · exact keptOut_chopRateChange h
  · exact keptOut_recordValueRead h ..
  · exact keptOut_recordTagRead h ..
  · exact keptOut_hwidxRead h ..
  · exact keptOut_cmsSnapshotLatch h
  · exact keptOut_modulatorOverload h ..
  · exact keptOut_modulatorStuck h ..
  · exact keptOut_filterParityFail h ..
  · exact keptOut_intervalBoundary h ..
  · exact keptOut_xbFrameEnd h ..
  · exact keptOut_fallbackResult h
  · exact keptOut_auxConfigApply h
  · exact keptOut_converterSelfCheck h ..
  · exact keptOut_crossCheckComparison h
  · exact keptOut_openWireSweepStart h
  · exact keptOut_openWireTest h ..
  · exact keptOut_suspectHoldExpiry h ..
  · exact keptOut_balancingGateStart h
  · exact keptOut_balancingGateEnd h
  · exact keptOut_harnessMeasurementStart h ..
  · exact keptOut_harnessMeasurementDone h
  · exact keptOut_impStart h
  · exact keptOut_impStop h
  · exact keptOut_planStart h
  · exact keptOut_stepStart h
  · exact keptOut_windowOpen h
  · exact keptOut_windowClose h ..
  · exact keptOut_stepEnd h
  · exact keptOut_resultsWritten h
  · exact keptOut_excitationFadeDone h
  · exact keptOut_pairTickReceive h ..
  · exact keptOut_pairTickMissing h
  · exact keptOut_impEngineFault h ..
  · exact keptOut_comparatorTrip h ..
  · exact keptOut_comparatorRelease h ..
  · exact keptOut_sentinelComparatorSample h ..
  · exact keptOut_cpbFlagClear h ..
  · exact keptOut_comparatorCheck h ..
  · exact keptOut_toneResume h
  · exact keptOut_faultPairReadbackError h
  · exact keptOut_neighbourStateChange h ..
  · exact keptOut_neighbourStuckTimeout h
  · exact keptOut_faultPairModeChange h
  · exact keptOut_balancingHalfBoundary h
  · exact keptOut_switchOvercurrent h ..
  · exact keptOut_switchCheck h ..
  · exact keptOut_cltcfgWrite h ..
  · exact keptOut_communicationLossExpiry h
  · exact keptOut_cnvStart h
  · exact keptOut_cnvStop h
  · exact keptOut_cnvClrflt h
  · exact keptOut_cnvLoadc h
  · exact keptOut_coefficientLoad h
  · exact keptOut_cnvVselswWrite h ..
  · exact keptOut_cnvVtgtWrite h ..
  · exact keptOut_vselCodeAccept h ..
  · exact keptOut_busPresent h ..
  · exact keptOut_busLoss h ..
  · exact keptOut_checkSampleEnd h ..
  · exact keptOut_driverWakeDone h ..
  · exact keptOut_shsTestPartEnd h ..
  · exact keptOut_softStartComplete h
  · exact keptOut_shortDetect h
  · exact keptOut_hiccupOffElapsed h
  · exact keptOut_hiccupCountClear h
  · exact keptOut_rampDownComplete h
  · exact keptOut_switchingPeriod h ..
  · exact keptOut_phaseEqualisation h
  · exact keptOut_trimLimitTimeout h ..
  · exact keptOut_shedDecision h
  · exact keptOut_shedWindowEnd h
  · exact keptOut_loadStepDetect h
  · exact keptOut_shedHoldExpiry h
  · exact keptOut_brakingStart h
  · exact keptOut_brakingEnd h
  · exact keptOut_crowbarFire h ..
  · exact keptOut_cycleLimit h ..
  · exact keptOut_currentLimitSustained h
  · exact keptOut_hardTrip h ..
  · exact keptOut_transferOvervoltage h ..
  · exact keptOut_moduleVoltageFault h ..
  · exact keptOut_pinReadbackMismatch h ..
  · exact keptOut_compensatorMismatch h
  · exact keptOut_csyncEdge h
  · exact keptOut_syncLoss h
  · exact keptOut_csyncStuck h
  · exact keptOut_controlTick h ..
  · exact keptOut_summingUpdate h
  · exact keptOut_loadlut h
  · exact keptOut_targetWrite h ..
  · exact keptOut_trackingFault h
  · exact keptOut_outputAtLimit h
  · exact keptOut_ctlEngineFault h ..
  · exact keptOut_partnerTrainingDetect h ..
  · exact keptOut_linkUp h ..
  · exact keptOut_trainingAbandon h ..
  · exact keptOut_trainingSignalCycle h ..
  · exact keptOut_presetApply h ..
  · exact keptOut_lpiEntry h ..
  · exact keptOut_lpiReceive h ..
  · exact keptOut_lpiExit h ..
  · exact keptOut_linkWakeCommand h ..
  · exact keptOut_wakePatternEnd h ..
  · exact keptOut_retrain h ..
  · exact keptOut_frameReceive h ..
  · exact keptOut_frameTransmit h ..
  · exact keptOut_ackTimeout h ..
  · exact keptOut_signalEnergyLoss h ..
  · exact keptOut_receiveLockLoss h ..
  · exact keptOut_retryBufferParity h ..
  · exact keptOut_legacyCommandFrame h ..
  · exact keptOut_legacyResponseFrame h ..
  · exact keptOut_readRequest h ..
  · exact keptOut_writeRequest h ..
  · exact keptOut_probe h ..
  · exact keptOut_assign h ..
  · exact keptOut_routes h ..
  · exact keptOut_sessionOpen h ..
  · exact keptOut_sessionClose h ..
  · exact keptOut_sessionResume h ..
  · exact keptOut_sessionSuspend h ..
  · exact keptOut_cplReceive h ..
  · exact keptOut_transactionTimeout h ..
  · exact keptOut_tagRelease h ..
  · exact keptOut_broadcastPairExpiry h ..
  · exact keptOut_enumFull h ..
  · exact keptOut_enumVerify h ..
  · exact keptOut_enumRecover h ..
  · exact keptOut_enumHoldExpiry h
  · exact keptOut_enumerationDone h
  · exact keptOut_probeReportReceive h ..
  · exact keptOut_plannedSwitchResume h ..
  · exact keptOut_beatSend h
  · exact keptOut_statusSend h
  · exact keptOut_beatReceive h ..
  · exact keptOut_statusReceive h ..
  · exact keptOut_linkdownReceive h ..
  · exact keptOut_linkupReceive h ..
  · exact keptOut_leaveReceive h ..
  · exact keptOut_roleendReceive h ..
  · exact keptOut_hoofbeatLost h ..
  · exact keptOut_statusMissed h ..
  · exact keptOut_streamFrameSend h ..
  · exact keptOut_eventFrameSend h ..
  · exact keptOut_gen1Read h ..
  · exact keptOut_gen1Write h ..
  · exact keptOut_cmd h ..
  · exact keptOut_getcpl h
  · exact keptOut_getevt h
  · exact keptOut_getstr h ..
  · exact keptOut_ack h ..
  · exact keptOut_gen2HostTimeout h
  · exact keptOut_doorbellWrite h ..
  · exact keptOut_ringEnable h ..
  · exact keptOut_descriptorFetch h ..
  · exact keptOut_nop h
  · exact keptOut_read h
  · exact keptOut_write h ..
  · exact keptOut_session h
  · exact keptOut_enum h
  · exact keptOut_streamFrameReceive h ..
  · exact keptOut_streamEntryWrite h ..
  · exact keptOut_eventFrameReceive h ..
  · exact keptOut_alarmReceive h ..
  · exact keptOut_eventEntryWrite h
  · exact keptOut_writeback h
  · exact keptOut_moderationTimeout h ..
  · exact keptOut_configRequest h ..
  · exact keptOut_pmeRequest h
  · exact keptOut_pcieLinkDown h
  · exact keptOut_aerUncorrectable h ..
  · exact keptOut_dmaReadError h
  · exact keptOut_hostParityError h
  · exact keptOut_delayRequestSend h
  · exact keptOut_delayRequestReceive h ..
  · exact keptOut_delayResponseReceive h ..
  · exact keptOut_announceReceive h ..
  · exact keptOut_holdoverParentSearch h
  · exact keptOut_holdoverTimeout h
  · exact keptOut_rootConflictDelay h
  · exact keptOut_step h
  · exact keptOut_rootTimeStep h
  · exact keptOut_reinGo h ..
  · exact keptOut_snapEdge h ..
  · exact keptOut_reinReceive h ..
  · exact keptOut_reinLatch h
  · exact keptOut_fullClear h
  · exact keptOut_snapStuckTimeout h
  · exact keptOut_snapStuckClear h
  · exact keptOut_sourceEvent h ..
  · exact keptOut_railError h ..
  · exact keptOut_railErrorEnd h ..
  · exact keptOut_historyParityError h ..
  · exact keptOut_severeClear h ..
  · exact keptOut_stickyClear h ..
  · exact keptOut_clrall h
  · exact keptOut_fltCfgWrite h ..
  · exact keptOut_injectionGo h ..
  · exact keptOut_injectionEnd h
  · exact keptOut_temperatureSample h ..
  · exact keptOut_gallopExit h
  · exact keptOut_sensorDisagree h
  · exact keptOut_thermalShutdown h ..
  · exact keptOut_thermalRestart h
  · exact keptOut_eventLogWrite h
  · exact keptOut_logClear h ..
  · exact keptOut_run h ..
  · exact keptOut_calRunBegin h
  · exact keptOut_calZeroPhaseEnd h ..
  · exact keptOut_calReferencePhaseEnd h ..
  · exact keptOut_calCopyWritten h ..
  · exact keptOut_calCopyInUse h
  · exact keptOut_hsave h ..
  · exact keptOut_psave h ..
  · exact keptOut_pselect h ..
  · exact keptOut_tsave h ..
  · exact keptOut_patchwe h
  · exact keptOut_patch h ..
  · exact keptOut_nvmWriteDone h ..
  · exact keptOut_copyRepair h
  · exact keptOut_epochWrite h
  · exact keptOut_crcDataWrite h ..
  · exact keptOut_selftestGo h ..
  · exact keptOut_selftestAbort h
  · exact keptOut_segmentTestDone h ..
  · exact keptOut_partitionDone h ..
  · exact keptOut_selftestRunEnd h
  · exact keptOut_sliceStart h
  · exact keptOut_offlinePartitionStart h
  · exact keptOut_autoRunDue h
  · exact keptOut_lifecycleChange h ..
  · exact keptOut_fuseProgramDone h ..
  · exact keptOut_lockArm h ..
  · exact keptOut_lock h ..
  · exact keptOut_lockArmExpiry h
  · exact keptOut_aonPowerLoss h
  · exact keptOut_perstnRelease h
  · exact keptOut_lpiExitTimeout h ..
  · exact keptOut_continuousConductionStart h
  · exact keptOut_spiTransactionRejected h ..

end

/-- Settles O59: whatever command runs, and the passing of a clock, keep the queue and the canonical form. -/
theorem stepInvariant : Obligations.StepInvariant := by
  unfold Obligations.StepInvariant
  intro s t ht
  unfold step at ht
  split at ht
  · next hq =>
    cases ht
    have hk := kept_tick (Kept.refl s)
    exact ⟨by rw [hk.pending, hq]; rfl, hk.canonical⟩
  · next c rest hq =>
    have hk := keptOut_exec (Kept.refl { s with pending := rest }) c
    rw [ht] at hk
    exact ⟨by rw [hk.pending, hq]; rfl, hk.canonical⟩

end Sys2Proof.Machine
end

