-- ==== Sys2Proof/Proofs/StepTakesFront.lean ====
section
/-!
PROOFS. One step: the command at the front of the queue, or one core clock (R70, R71, R468, R473, R580).
-/
namespace Sys2Proof.Machine

/-! ## The step's two arms -/

theorem step_cons (c : Instr) (s : State) : step { s with pending := c :: s.pending } = exec c s := rfl

theorem step_idle {s : State} (h : s.pending = []) : step s = .next (tick s) := by unfold step; rw [h]

/-! ## One core clock -/

theorem tick_down {s : State} (h : coreUp s = false) : tick s = { s with now := s.now + 5 } := by
  unfold tick; rw [if_neg (by simp [h])]

theorem tick_up {s : State} (h : coreUp s = true) : tick s = takeSpread s.now (advanceTime { s with now := s.now + 5 }) := by
  unfold tick; rw [if_pos h]

/-- At rate 0 a core clock is 5 ns of fabric time and leaves the part of a nanosecond. -/
theorem fiveNs_div (f : Nat) (h : f < 1000000000) :
    (5 * (1000000000 + (0 : Int)) + f).toNat / 1000000000 = 5 ∧ (5 * (1000000000 + (0 : Int)) + f).toNat % 1000000000 = f := by
  omega

/-- Settles O58: the step's two arms; an idle step is a core clock, which touches the times and the spread in force. -/
theorem stepTakesFront : Obligations.StepTakesFront := by
  unfold Obligations.StepTakesFront
  intro s
  refine ⟨fun c => step_cons c s, fun hq hd => ?_, fun hq hu => ?_, fun hq hu h0 hf => ?_⟩
  · exact ⟨_, step_idle hq, by rw [tick_down hd], by rw [tick_down hd]; exact ⟨rfl, fun p _ => by cases p <;> trivial, fun _ _ => rfl⟩⟩
  · refine ⟨_, step_idle hq, ?_⟩
    rw [tick_up hu]
    exact ⟨rfl, rfl, rfl, rfl, rfl, fun p _ => by cases p <;> trivial, fun _ _ => rfl⟩
  · obtain ⟨hdiv, hmod⟩ := fiveNs_div s.tbs.frac hf
    refine ⟨_, step_idle hq, ?_⟩
    rw [tick_up hu]
    have hrate : timeRate { s with now := s.now + 5 } = 0 := h0
    constructor
    · simp only [takeSpread, advanceTime, hrate, hdiv]
    · simp only [takeSpread, advanceTime, hrate, hmod]

end Sys2Proof.Machine
end

