-- ==== Sys2Proof/Proofs/ServiceRefutations.lean ====
section
/-!
PROOFS. What refutes statements of the families 11_fabric_discovery_and_routing, 16_calibration_nvm_crc and
17_selftest_and_lifecycle: for each a concrete state and command, and what the model answers there.
-/
namespace Sys2Proof.Machine

/-! ## A READ whose answer is longer than a frame of its class -/

/-- The device in ACTIVE with port 3 UP. -/
def linked : State := activeWith [] |> setF (Reg.LNK_PSTAT_STATE 3) 3

/-- A READ, in class A, of the 16 words from `FLT_CFG0` on, its reply route over port 3. -/
def longRead : Frame := ⟨.read, .a, .routeWord, 0#32, 0, 7, 1023, 0, 9, [3#32, 0x40001#32, 0x6100#32, 16#32]⟩

/-- The lengths of the payloads that wait in class A at port 3. -/
def queuedUrgent (t : State) : List Nat := (port (3 : Fin 4) t).qa.map (fun e => e.2.payload.length)

set_option maxRecDepth 20000 in
/-- R354: a frame of class A carries at most 64 bytes of payload. -/
theorem readRequest_longRead_queued : nextView queuedUrgent (exec (.readRequest 3 longRead) linked) = some [16] := by decide

/-- A read answers as many words as it was asked for. -/
theorem readWords_length (req : Requester) (a n : Nat) (s : State) : (readWords req a n s).1.length = n := by
  induction n generalizing a s with
  | zero => rfl
  | succ n ih => simp only [readWords, List.length_cons, ih]

set_option maxRecDepth 20000 in
/-- Refutes O38: the completion takes the class of its request, and the statement leaves the class free. The answer to a READ of 16 words in class A
would fill 17 words of payload, of which R354 lets 16 leave. -/
theorem not_fabricRequests : ¬ Obligations.FabricRequests := by
  unfold Obligations.FabricRequests
  intro h
  obtain ⟨hread, -⟩ := h linked
  obtain ⟨t, ht, hans, -⟩ := hread 3 longRead ⟨by decide, Or.inl (by decide)⟩ rfl (by decide) (Or.inl (by decide)) (by decide)
  have hq := readRequest_longRead_queued
  have hlen : queuedUrgent t = [1 + (reqHead longRead).count] := by
    have hqa : (port (3 : Fin 4) t).qa = _ := hans
    rw [queuedUrgent, hqa]
    simp only [List.map_cons, List.map_nil, List.length_cons, readWords_length, Nat.add_comm]
  rw [nextView_exec _ ht, hlen] at hq
  exact absurd hq (by decide)

/-! ## A calibration run with more harness values than inputs -/

/-- A run at the end of its reference phase, with 30 harness values where the device has 25. -/
def overlongRun : CalRun :=
  { ticket := .direct, hres := List.replicate 30 0, rbal := 0, zero := [], coef := [], ratio4 := 0#32, ratio16 := 0#32, written := none, begun := 0 }

/-- CALIBRATE with copy A in use and that run in progress, each cell reference at 4 V, and one byte of the system records programmed. -/
def overlongCal : State :=
  { activeWith ([(Reg.CAL_STAT, 0x29#32)] ++ (List.range 24).map (fun k => (Reg.CAL_REF k, 4000000#32)) ++ [(Reg.BST_LCSTAT, 1#32)]) with
    now := 3000 * ms
    cal := { CalState.reset with run := some overlongRun, nvm := [(0xCFF, 0#8)] } }

/-- Half means that give every input an offset of 0 and a gain of 1. -/
def exactMeans : List Int := (List.range 113).map (fun k => calRef k overlongCal)

set_option maxRecDepth 20000 in
theorem exactMeans_ok (k : Nat) (hk : k < 113) :
    calCheck k (nth overlongRun.zero k 0) (nth exactMeans k 0) (nth exactMeans k 0) overlongCal = 0 := by
  revert k; decide

/-- The coefficients of the run. -/
def exactCoef : List (Word × Word) :=
  (List.range 113).map (fun k => if calInput k overlongCal then
    (BitVec.ofInt 32 (nth overlongRun.zero k 0), BitVec.ofInt 32 (calGain k (nth overlongRun.zero k 0) (nth exactMeans k 0) (nth exactMeans k 0) overlongCal))
    else (overlongCal.cal.coef[k]?).getD (0#32, 0x40000000#32))

/-- The state in which the run asks for its write. -/
def overlongAsk : State :=
  setF Reg.CAL_STAT_PHASE 4 { overlongCal with cal := { overlongCal.cal with
    run := some { overlongRun with coef := exactCoef, ratio4 := 0#32, ratio16 := 0#32 } } }

theorem calReferencePhaseEnd_overlongCal :
    exec (.calReferencePhaseEnd exactMeans exactMeans 0#32 0#32) overlongCal = .next (askJob .run none overlongAsk) := by
  have hgood : (List.range 113).find? (fun k => calInput k overlongCal &&
      calCheck k (nth overlongRun.zero k 0) (nth exactMeans k 0) (nth exactMeans k 0) overlongCal != 0) = none := by
    rw [List.find?_eq_none]
    intro k hk
    simp [exactMeans_ok k (List.mem_range.1 hk)]
  have hrun : overlongCal.cal.run = some overlongRun := rfl
  change execCalReferencePhaseEnd exactMeans exactMeans 0#32 0#32 overlongCal = _
  simp only [execCalReferencePhaseEnd, hrun, hgood]
  exact if_neg (by decide)

theorem olderCopy_overlongAsk : olderCopy overlongAsk = true := by
  have hsrc : getF Reg.CAL_STAT_SRC overlongAsk = 1 :=
    (getF_setF_beside Reg.CAL_STAT_PHASE Reg.CAL_STAT_SRC 4 _ (by decide) (by decide)).trans (by decide)
  simp [olderCopy, hsrc]

/-- R534, R538: the copy that the run writes has 1034 bytes, from 0x800. -/
theorem jobBytes_overlongAsk :
    ∃ bs, jobBytes .run { overlongAsk with cal := { overlongAsk.cal with queue := [] } } = (0x800, bs) ∧ bs.length = 1034 := by
  refine ⟨copyBytes (nextGen overlongAsk) exactCoef overlongRun.hres 0 overlongAsk, ?_, ?_⟩
  · change (copyBase (olderCopy overlongAsk), _) = _
    rw [olderCopy_overlongAsk]
    rfl
  · rw [length_copyBytes, exactCoef, List.length_map, List.length_range]
    rfl

/-- Refutes O52: with more harness values than cell inputs the run's copy is longer than its 1 KiB, and its write erases the sector of the system records
behind it; the statement ranges over every state, also over those that no command reaches, and has every byte outside the copy's area unchanged. -/
theorem not_calibrationRun : ¬ Obligations.CalibrationRun := by
  unfold Obligations.CalibrationRun
  intro h
  obtain ⟨-, -, -, -, -, -, -, -, -, hwrite, -⟩ := h overlongCal
  obtain ⟨t, ht, -, -, -, -, -, hkept, -⟩ := hwrite overlongRun exactMeans exactMeans 0#32 0#32 ⟨rfl, rfl, rfl⟩ (by decide) rfl (by decide) (by decide)
    (fun k hk _ => exactMeans_ok k hk)
  obtain ⟨bs, hj, hlen⟩ := jobBytes_overlongAsk
  have herased := nvmAt_beginJob_erased (o := 0xCFF) none hj rfl (by decide) (by decide) (by rw [hlen]) (by rw [hlen]; decide)
  have hout := hkept 0xCFF (fun hin => absurd hin.2 (by decide))
  rw [calReferencePhaseEnd_overlongCal, askJob_idle _ _ rfl rfl rfl (by decide)] at ht
  injection ht with ht
  rw [← ht, herased] at hout
  exact absurd hout (by decide)

/-! ## A run with an item that CUR cannot show -/

/-- The save buffer at the end of its only segment, in a run whose next item has number 32. -/
def wideItemRun : State :=
  { activeWith [] with
    now := 20 * ms
    bst := { BstState.reset with run := some ⟨false, false, [32], some 8, 0, 0, 0, none, false, false, false⟩ } }

set_option maxRecDepth 20000 in
/-- R568: CUR has five bits, so item 32 shows as 0. -/
theorem segmentTestDone_wideItemRun_cur :
    nextView (getF Reg.BST_STAT_CUR) (exec (.segmentTestDone none) wideItemRun) = some 0 := by decide

/-- Refutes O56: after the last segment of a memory CUR shows the next item of the run. The statement names no bound for an item's number, and CUR
has five bits: with an item of number 32 next in the run it reads 0. -/
theorem not_selfTestItems : ¬ Obligations.SelfTestItems := by
  unfold Obligations.SelfTestItems
  intro h
  obtain ⟨-, -, hlast, -⟩ := h wideItemRun
  obtain ⟨t, ht, -, -, honward, -⟩ := hlast 8 none _ rfl rfl rfl (by decide)
  have hcur := segmentTestDone_wideItemRun_cur
  rw [nextView_exec _ ht, honward] at hcur
  exact absurd hcur (by decide)

end Sys2Proof.Machine
end

