-- ==== Sys2Proof/Proofs/CrcUnit.lean ====
section
/-!
PROOFS. The CRC unit (R549): a data write byte by byte, the result, and what the upper bits read.
-/
namespace Sys2Proof.Machine

/-! ## The feed on numbers -/

/-- The bits of a number below `w` in reverse order: bit k stands for 2^(w - 1 - k). -/
def mirrorNat (w v : Nat) : Nat := ((List.range w).map (fun k => if v.testBit k then 2 ^ (w - 1 - k) else 0)).sum

/-- One bit of a feed, on the numbers that the words stand for. -/
def shiftNat (refin : Bool) (w p v : Nat) : Nat :=
  if refin then (if v % 2 = 1 then (v / 2) ^^^ mirrorNat w p else v / 2)
  else if v.testBit (w - 1) then ((v <<< 1) ^^^ p) % 2 ^ w else (v <<< 1) % 2 ^ w

/-- One byte of a feed, on numbers. -/
def byteNat (refin : Bool) (w p v b : Nat) : Nat :=
  (shiftNat refin w p)^[8] (v ^^^ (if refin then b else b <<< (w - 8)))

/-- The words' OR of the first `n` mirrored bits is the numbers' sum, and leaves free the bits of those to come. -/
theorem reflect_prefix (w n : Nat) (v : Word) (hw : w ≤ 32) (hn : n ≤ w) :
    ((List.range n).foldl (fun r k => if v.getLsbD k then r ||| (1#32 <<< (w - 1 - k)) else r) 0#32).toNat =
      ((List.range n).map (fun k => if v.toNat.testBit k then 2 ^ (w - 1 - k) else 0)).sum ∧
    2 ^ (w - n) ∣ ((List.range n).map (fun k => if v.toNat.testBit k then 2 ^ (w - 1 - k) else 0)).sum := by
  induction n with
  | zero => simp
  | succ n ih =>
    obtain ⟨heq, a, ha⟩ := ih (by omega)
    have hhalf : 2 ^ (w - n) = 2 ^ (w - (n + 1)) * 2 := by rw [← Nat.pow_succ]; congr 1; omega
    have hbit : (1#32 <<< (w - 1 - n)).toNat = 2 ^ (w - 1 - n) := by
      rw [BitVec.toNat_shiftLeft, Nat.shiftLeft_eq]
      have h32 : 2 ^ (w - 1 - n) < 2 ^ 32 := Nat.pow_lt_pow_right (by omega) (by omega)
      simpa using Nat.mod_eq_of_lt h32
    have hlast : w - 1 - n = w - (n + 1) := by omega
    rw [List.range_succ, List.foldl_append, List.map_append, List.sum_append]
    simp only [List.foldl_cons, List.foldl_nil, List.map_cons, List.map_nil, List.sum_cons, List.sum_nil, Nat.add_zero]
    constructor
    · by_cases hv : v.getLsbD n
      · have hv' : v.toNat.testBit n = true := hv
        have hlt : 2 ^ (w - 1 - n) < 2 ^ (w - n) := Nat.pow_lt_pow_right (by omega) (by omega)
        simp only [hv, hv', if_true]
        rw [BitVec.toNat_or, heq, hbit, ha, Nat.two_pow_add_eq_or_of_lt hlt]
      · have hv' : v.toNat.testBit n = false := by simpa [BitVec.getLsbD] using hv
        simp only [hv, hv', Bool.false_eq_true, if_false, Nat.add_zero, heq]
    · rw [ha, hhalf, hlast, Nat.mul_assoc]
      refine Dvd.dvd.add (Nat.dvd_mul_right _ _) ?_
      split
      · exact Nat.dvd_refl _
      · exact Nat.dvd_zero _

theorem reflect_toNat (w : Nat) (v : Word) (hw : w ≤ 32) : (reflect w v).toNat = mirrorNat w v.toNat :=
  (reflect_prefix w w v hw (Nat.le_refl w)).1

theorem crcMask_toNat (w : Nat) (v : Word) : (crcMask w v).toNat = v.toNat % 2 ^ w := by
  rw [crcMask, BitVec.toNat_ofNat]
  exact Nat.mod_eq_of_lt (Nat.lt_of_le_of_lt (Nat.mod_le _ _) v.isLt)

/-- What lies above 32 bits lies above the width too. -/
theorem mod_word_mod_width {w : Nat} (x : Nat) (hw : w ≤ 32) : x % 2 ^ 32 % 2 ^ w = x % 2 ^ w :=
  Nat.mod_mod_of_dvd x (Nat.pow_dvd_pow 2 hw)

theorem crcBit_toNat (refin : Bool) (w : Nat) (p v : Word) (hw : w ≤ 32) :
    (crcBit refin w p v).toNat = shiftNat refin w p.toNat v.toNat := by
  unfold crcBit shiftNat
  cases refin with
  | true =>
    have hlow : v.getLsbD 0 = decide (v.toNat % 2 = 1) := by simp [BitVec.getLsbD, Nat.testBit_zero]
    simp only [if_true, hlow, decide_eq_true_eq]
    split
    · rw [BitVec.toNat_xor, BitVec.toNat_ushiftRight, reflect_toNat w p hw, Nat.shiftRight_eq_div_pow, pow_one]
    · rw [BitVec.toNat_ushiftRight, Nat.shiftRight_eq_div_pow, pow_one]
  | false =>
    simp only [Bool.false_eq_true, if_false, BitVec.getLsbD]
    rw [crcMask_toNat]
    split
    · have hp : p.toNat % 2 ^ w = p.toNat % 2 ^ 32 % 2 ^ w := by rw [mod_word_mod_width _ hw]
      rw [BitVec.toNat_xor, BitVec.toNat_shiftLeft, Nat.xor_mod_two_pow, mod_word_mod_width _ hw, Nat.xor_mod_two_pow]
    · rw [BitVec.toNat_shiftLeft, mod_word_mod_width _ hw]

theorem crcBits_toNat (refin : Bool) (w : Nat) (p : Word) (hw : w ≤ 32) (n : Nat) (v : Word) :
    (crcBits refin w p n v).toNat = (shiftNat refin w p.toNat)^[n] v.toNat := by
  induction n generalizing v with
  | zero => rfl
  | succ n ih => rw [crcBits, ih, crcBit_toNat refin w p v hw, Function.iterate_succ_apply]

theorem crcByte_toNat (refin : Bool) (w : Nat) (p v : Word) (b : Nat) (hlo : 8 ≤ w) (hw : w ≤ 32) (hb : b < 256) :
    (crcByte refin w p v b).toNat = byteNat refin w p.toNat v.toNat b := by
  have hbyte : (BitVec.ofNat 32 b).toNat = b := by rw [BitVec.toNat_ofNat]; omega
  have htop : (BitVec.ofNat 32 b <<< (w - 8)).toNat = b <<< (w - 8) := by
    rw [BitVec.toNat_shiftLeft, hbyte, Nat.shiftLeft_eq]
    refine Nat.mod_eq_of_lt ?_
    calc b * 2 ^ (w - 8) < 2 ^ 8 * 2 ^ (w - 8) := Nat.mul_lt_mul_of_pos_right hb (Nat.two_pow_pos _)
      _ = 2 ^ w := by rw [← Nat.pow_add]; congr 1; omega
      _ ≤ 2 ^ 32 := Nat.pow_le_pow_right (by omega) hw
  rw [crcByte, crcBits_toNat refin w p hw, byteNat, BitVec.toNat_xor]
  cases refin with
  | true => simp only [if_true, hbyte]
  | false => simp only [Bool.false_eq_true, if_false, htop]

/-- The bytes of a write of data, from the lowest on. -/
def dataBytes (n : Nat) (d : Word) : List Nat := (List.range n).map (fun k => getBits d (8 * k) 8)

theorem dataBytes_lt {n b : Nat} {d : Word} (h : b ∈ dataBytes n d) : b < 256 := by
  simp only [dataBytes, List.mem_map] at h
  obtain ⟨k, -, rfl⟩ := h
  exact Nat.mod_lt _ (by decide)

theorem crcBytes_toNat (refin : Bool) (w : Nat) (p : Word) (hlo : 8 ≤ w) (hw : w ≤ 32) (bs : List Nat) (hbs : ∀ b ∈ bs, b < 256) (v : Word) :
    (bs.foldl (crcByte refin w p) v).toNat = bs.foldl (byteNat refin w p.toNat) v.toNat := by
  induction bs generalizing v with
  | nil => rfl
  | cons b bs ih =>
    rw [List.foldl_cons, List.foldl_cons, ih (fun c hc => hbs c (List.mem_cons_of_mem _ hc)),
      crcByte_toNat refin w p v b hlo hw (hbs b List.mem_cons_self)]

/-! ## The unit's registers -/

/-- What a write of data leaves in `CRC_VAL`. -/
theorem crcVal_crcFeed (n : Nat) (d : Word) (s : State) (hlo : 8 ≤ crcWidth s) (hw : crcWidth s ≤ 32) :
    (reg (crcFeed n d s) Reg.CRC_VAL).toNat = (dataBytes n d).foldl
      (byteNat (bit Reg.CRC_CFG_REFIN s) (crcWidth s) ((reg s Reg.CRC_POLY).toNat % 2 ^ crcWidth s)) ((reg s Reg.CRC_VAL).toNat % 2 ^ crcWidth s) := by
  rw [crcFeed, reg_setReg_same, ← List.foldl_map (f := fun k => getBits d (8 * k) 8)
    (g := crcByte (bit Reg.CRC_CFG_REFIN s) (crcWidth s) (crcMask (crcWidth s) (reg s Reg.CRC_POLY)))]
  exact (crcBytes_toNat _ _ _ hlo hw _ (fun _ hb => dataBytes_lt hb) _).trans (by rw [crcMask_toNat, crcMask_toNat])

theorem crcResult_toNat (s : State) (hw : crcWidth s ≤ 32) : (crcResult s).toNat =
    (if bit Reg.CRC_CFG_REFOUT s = bit Reg.CRC_CFG_REFIN s then (reg s Reg.CRC_VAL).toNat % 2 ^ crcWidth s
      else mirrorNat (crcWidth s) ((reg s Reg.CRC_VAL).toNat % 2 ^ crcWidth s)) ^^^ ((reg s Reg.CRC_XOROUT).toNat % 2 ^ crcWidth s) := by
  simp only [crcResult]
  split <;> simp only [BitVec.toNat_xor, crcMask_toNat, reflect_toNat _ _ hw]

/-! ## Accesses of one word -/

/-- The words that hardware adds to a register whose row names no such bits leave every register as it was. -/
theorem orWords_plain {mask : RegRow → Nat} {a : Nat} (hrow : ∀ r, rowAt a = some r → mask r = 0) (w : Word) (s : State) :
    Changes [] (fun _ => False) s (orWords mask a [w] s) := by
  simp only [orWords, List.zipIdx_cons, List.zipIdx_nil, List.foldl_cons, List.foldl_nil, Nat.mul_zero, Nat.add_zero]
  split
  · next r hr =>
    refine ⟨rfl, fun p _ => by cases p <;> rfl, fun b _ => ?_⟩
    rw [hrow r hr, reg_setReg]
    split
    · next hb => subst hb; simp
    · rfl
  · exact Changes.refl ..

theorem orWords_take_plain {mask : RegRow → Nat} {a : Nat} (hrow : ∀ r, rowAt a = some r → mask r = 0) (ws : List Word) (s : State) :
    Changes [] (fun _ => False) s (orWords mask a (ws.take 1) s) := by
  cases ws with
  | nil => exact Changes.refl ..
  | cons w ws => exact orWords_plain hrow w s

/-- An access by the housekeeping controller that completed, beside what hardware adds to registers whose rows name no such bits. -/
theorem accessBeside_ok {mask : RegRow → Nat} {a : Nat} (hrow : ∀ r, rowAt a = some r → mask r = 0) (ws : List Word) {s : State} (d : List Word) :
    ∃ t, ((Acc.done (Done.read d s)).beside (orWords mask a (ws.take 1))).via .direct = .next t ∧ t.resp = some ⟨.ok, d, 0⟩ ∧
      Changes [.resp] (fun _ => False) s t := by
  have hfin (u : State) : Changes [.resp] (fun _ => False) u { u with resp := some ⟨.ok, d, 0⟩ } := Changes.withResp _ _
  by_cases hup : coreUp s = true
  · exact ⟨{ orWords mask a (ws.take 1) s with resp := some ⟨.ok, d, 0⟩ }, by simp [Acc.beside, Acc.via, Done.via, Done.read, complete, hup], rfl,
      ((orWords_take_plain hrow ws s).trans (hfin _)).mono (by simp) (by simp)⟩
  · exact ⟨{ s with resp := some ⟨.ok, d, 0⟩ }, by simp [Acc.beside, Acc.via, Done.via, Done.read, complete, hup], rfl, hfin s⟩

/-- A read of one register that clears nothing, by the housekeeping controller. -/
theorem registerRead_plain {a : Fin 1048576} (g : List Word) {s : State} {v : Word} (hup : coreUp s = true) (ha : a.val % 4 = 0)
    (hclass : addrClass a.val = .register) (hrow : ∀ r, rowAt a.val = some r → r.rc = 0) (hread : readWord .hk a.val s = (v, s)) :
    ∃ t, exec (.registerReadClear .hk a 1 g) s = .next t ∧ t.resp = some ⟨.ok, [v], 0⟩ ∧ Changes [.resp] (fun _ => False) s t := by
  have hok : readRefused a.val 1 = false := by simp [readRefused, ha, wordAddrs, hclass]
  have hlocal : localRead .hk a.val 1 s = .done (Done.read [v] s) := by simp [localRead, hok, readWords, hread]
  obtain ⟨t, ht, hresp, hchg⟩ := accessBeside_ok (mask := RegRow.rc) hrow g (s := s) [v]
  refine ⟨t, ?_, hresp, hchg⟩
  rw [← ht]
  change execRegisterReadClear .hk a 1 g s = _
  simp [execRegisterReadClear, hup, hlocal]

/-- The registers of the unit that keep what they are given, over the width in force. -/
def crcValueRegs : List Nat := [Reg.CRC_POLY, Reg.CRC_VAL, Reg.CRC_XOROUT]

theorem mem_crcValueRegs {a : Nat} : a ∈ crcValueRegs ↔ a = Reg.CRC_POLY ∨ a = Reg.CRC_VAL ∨ a = Reg.CRC_XOROUT := by simp [crcValueRegs]

/-- What the accesses of the unit's registers turn on: aligned registers whose rows have neither reserved bits nor bits that hardware clears. -/
theorem crcRegs_rows {a : Nat} (h : a ∈ Reg.CRC_RESULT :: crcValueRegs) :
    a % 4 = 0 ∧ addrClass a = .register ∧ (∀ r, rowAt a = some r → r.rc = 0 ∧ r.w1c = 0 ∧ r.rsv = 0) := by
  have hrows : ∀ a ∈ Reg.CRC_RESULT :: crcValueRegs,
      a % 4 = 0 ∧ addrClass a = .register ∧ (rowAt a).all (fun r => r.rc == 0 && r.w1c == 0 && r.rsv == 0) = true := by decide
  obtain ⟨h4, hclass, hall⟩ := hrows a h
  refine ⟨h4, hclass, fun r hr => ?_⟩
  simpa [hr, and_assoc] using hall

theorem readWord_crcResult (req : Requester) (s : State) : readWord req Reg.CRC_RESULT s = (crcResult s, s) := rfl

theorem readWord_crcValue {a : Nat} (h : a ∈ crcValueRegs) (req : Requester) (s : State) : readWord req a s = (crcMask (crcWidth s) (reg s a), s) := by
  rcases mem_crcValueRegs.1 h with rfl | rfl | rfl <;> rfl

/-- A write of one of these registers takes the bits below the width and completes. -/
theorem localWrite_crcValue {a : Nat} (h : a ∈ crcValueRegs) (v : Word) {s : State} (hup : coreUp s = true) :
    localWrite .hk .direct false a [v] s = .done (Done.ok (setReg a (crcMask (crcWidth s) v) s)) := by
  obtain ⟨h4, hclass, hrow⟩ := crcRegs_rows (List.mem_cons_of_mem _ h)
  have hok : writeRefused false a 1 s = false := by simp [writeRefused, h4, wordAddrs, hclass]
  have hlegal : illegal a v s = none := by
    unfold illegal
    split
    · rfl
    · split
      · rfl
      · next r hr =>
        have hres : reservedValue a v = false := by rcases mem_crcValueRegs.1 h with rfl | rfl | rfl <;> rfl
        simp [(hrow r hr).2.2, hres]
  have herr : hostErrorAt .hk a v s = false := by
    have hnone : hostErrorOf .hk a v s = none := by rcases mem_crcValueRegs.1 h with rfl | rfl | rfl <;> rfl
    simp [hostErrorAt, hnone]
  have hword : writeWord .hk .direct a v s = Done.ok (setReg a (crcMask (crcWidth s) v) s) := by
    rcases mem_crcValueRegs.1 h with rfl | rfl | rfl <;> rfl
  simp [localWrite, hok, writeWords, Done.ok, hup, hlegal, hword, herr, Done.after, rank]

theorem registerWrite_crcValue {a : Fin 1048576} (h : a.val ∈ crcValueRegs) (v : Word) (g : List Word) {s : State} (hup : coreUp s = true) :
    ∃ t, exec (.registerWrite .hk a [v] g) s = .next t ∧ (reg t a).toNat = v.toNat % 2 ^ crcWidth s ∧ t.answered .ok ∧
      Changes [.resp] (oneOf [a.val]) s t := by
  obtain ⟨-, -, hrow⟩ := crcRegs_rows (List.mem_cons_of_mem _ h)
  have hwords : besideSets a.val [v] g = [v] := by
    simp only [besideSets, List.zipIdx_cons, List.zipIdx_nil, List.map_cons, List.map_nil, Nat.mul_zero, Nat.add_zero]
    split
    · next r hr => rw [(hrow r hr).2.1, BitVec.and_zero, BitVec.not_zero, BitVec.and_allOnes]
    · rfl
  obtain ⟨t, ht, hresp, hchg⟩ := accessBeside_ok (mask := RegRow.w1c) (fun r hr => (hrow r hr).2.1) g
    (s := setReg a.val (crcMask (crcWidth s) v) s) []
  refine ⟨t, ?_, ?_, ?_, ((Changes.setReg _ _ s).trans hchg).mono (by simp) (by simp [oneOf])⟩
  · rw [← ht]
    change execRegisterWrite .hk a [v] g s = _
    simp only [execRegisterWrite, hwords, hup, localWrite_crcValue h v hup]
    rfl
  · rw [hchg.reg_eq (by simp), reg_setReg_same, crcMask_toNat]
  · rw [State.answered, hresp]; rfl

/-- Settles O54: a feed and a mirror are the same on words and on the numbers that they stand for, bit by bit. -/
theorem crcUnit : Obligations.CrcUnit := by
  unfold Obligations.CrcUnit
  intro s
  refine ⟨fun size d ⟨hup, hlo, hhi⟩ => ?_, fun g ⟨hup, hlo, hhi⟩ => ?_, fun a g ⟨hup, _, _⟩ ha => ?_, fun a v h ⟨hup, _, _⟩ ha => ?_⟩
  · refine ⟨(Done.ok (crcFeed (2 ^ size.val) d s)).finish, ?_, crcVal_crcFeed _ d s hlo hhi, rfl, ?_⟩
    · change execCrcDataWrite size d s = _
      have hwide : ¬ (crcWidth s < 8 ∨ 32 < crcWidth s) := by unfold crcWidth; omega
      simp only [execCrcDataWrite, hup, hwide, Bool.true_eq_false, if_false, Done.out]
    · exact ((Changes.setReg _ _ s).trans (Changes.finish_ok _)).mono (by simp) (by simp [oneOf])
  · obtain ⟨h4, hclass, hrow⟩ := crcRegs_rows (a := Reg.CRC_RESULT) (by simp)
    obtain ⟨t, ht, hresp, hchg⟩ := registerRead_plain (a := ⟨Reg.CRC_RESULT, by decide⟩) g hup h4 hclass (fun r hr => (hrow r hr).1)
      (readWord_crcResult .hk s)
    exact ⟨t, ht, by rw [hresp]; exact congrArg (fun n => some [n]) (crcResult_toNat s hhi), hchg⟩
  · have hmem := mem_crcValueRegs.2 ha
    obtain ⟨h4, hclass, hrow⟩ := crcRegs_rows (List.mem_cons_of_mem _ hmem)
    obtain ⟨t, ht, hresp, hchg⟩ := registerRead_plain g hup h4 hclass (fun r hr => (hrow r hr).1) (readWord_crcValue hmem .hk s)
    exact ⟨t, ht, by rw [hresp]; exact congrArg (fun n => some [n]) (crcMask_toNat _ _), hchg⟩
  · exact registerWrite_crcValue (mem_crcValueRegs.2 ha) v h hup

end Sys2Proof.Machine
end

