-- ==== Sys2Proof/Proofs/LifecycleChange.lean ====
section
/-!
PROOFS. The changes of the life-cycle state and the fuses that are read back (R553 to R556).
-/
namespace Sys2Proof.Machine

/-! ## The command -/

/-- The changes that R555 lists. -/
def listedChanges : List (Nat × Nat) := [(0, 1), (1, 2), (2, 1), (1, 3), (2, 3)]

theorem changeListed_iff (a b : Nat) : changeListed a b = true ↔ (a, b) ∈ listedChanges := by
  simp only [changeListed, listedChanges, Bool.or_eq_true, Bool.and_eq_true, beq_iff_eq, List.mem_cons, Prod.mk.injEq, List.not_mem_nil, or_false]
  tauto

/-- The controller is free and nothing occupies it (R543, R555). -/
def changeFree (s : State) : Prop :=
  s.sys.ctlBusy = false ∧ bit Reg.BST_CTLSTAT_ROMBAD s = false ∧ calOccupied s = false ∧ s.bst.run = none ∧ s.bst.lc = none

/-- A change that the table does not list, or one back to CALIBRATE with every bit burned, is denied. -/
theorem lifecycleCommand_denied {target : Nat} (force : Bool) (tk : Ticket) {s : State}
    (h : ¬ (lifecycle s, target) ∈ listedChanges ∨ (lifecycle s = 2 ∧ target = 1 ∧ s.bst.fuseK = 16)) :
    lifecycleCommand target force tk s = Done.refuse .lifecycleDenied s := by
  have hden : (!changeListed (lifecycle s) target || (lifecycle s == 2 && target == 1 && s.bst.fuseK == 16)) = true := by
    rcases h with h | ⟨h2, h1, hk⟩
    · rw [← changeListed_iff] at h; simp [h]
    · simp [h2, h1, hk]
  simp only [lifecycleCommand, hden, if_true]

/-- A listed change with the controller free turns on the two checks alone. -/
theorem lifecycleCommand_listed {target : Nat} (force : Bool) (tk : Ticket) {s : State} (hl : (lifecycle s, target) ∈ listedChanges)
    (hk : ¬ (lifecycle s = 2 ∧ target = 1 ∧ s.bst.fuseK = 16)) (hf : changeFree s) :
    lifecycleCommand target force tk s =
      if lifecycle s = 0 ∧ bit Reg.CAL_STAT_TRIMBAD s then Done.refuse .checkFail s
      else if lifecycle s = 1 ∧ target = 2 ∧ getF Reg.CAL_STAT_SRC s = 0 ∧ force = false then Done.refuse .checkFail s
      else Done.later { s with bst := { s.bst with lc := some (target, tk) } } := by
  obtain ⟨hbusy, hrom, hocc, hrun, hlc⟩ := hf
  have hden : (!changeListed (lifecycle s) target || (lifecycle s == 2 && target == 1 && s.bst.fuseK == 16)) = false := by
    rw [(changeListed_iff _ _).2 hl]
    simpa [and_assoc] using hk
  simp only [lifecycleCommand, hden, Bool.false_eq_true, if_false, withController_serves hbusy hrom, hrun, hocc, hlc, Option.isSome_none, Bool.or_self]

theorem lifecycleChange_refused {target : Fin 4} {force : Bool} {st : Status} {s : State} (hup : coreUp s = true)
    (h : lifecycleCommand target.val force .direct s = Done.refuse st s) :
    ∃ t, exec (.lifecycleChange target force .direct) s = .next t ∧ t.answered st ∧ Changes [.resp] (fun _ => False) s t := by
  refine ⟨{ s with resp := some ⟨st, [], 0⟩ }, ?_, rfl, Changes.withResp _ _⟩
  change execLifecycleChange target force .direct s = _
  rw [execLifecycleChange, if_pos hup, h]
  rfl

/-! ## The fuses read back -/

/-- The fuses as one more that reads burned leaves them (R553, R556). -/
def fusesBurned (a b : Bool) (target : Nat) (f : BstState) : BstState :=
  { f with
    lc := none
    fuseErr := f.fuseErr || a != b
    fuseRet := f.fuseRet || target == 3
    fuseK := if target = 3 then f.fuseK else f.fuseK + 1 }

theorem fuseProgramDone_burned {a b : Bool} {target : Nat} {s : State} (hlc : s.bst.lc = some (target, .direct)) (hab : (a || b) = true) :
    exec (.fuseProgramDone a b) s =
      .next { reportFuses { s with bst := fusesBurned a b target s.bst } with resp := some ⟨.ok, [], 0⟩ } := by
  change execFuseProgramDone a b s = _
  simp only [execFuseProgramDone, hlc, hab, if_true]
  rfl

/-- `BST_LCSTAT` after a report. -/
theorem reportFuses_shown (s : State) :
    getF Reg.BST_LCSTAT_K (reportFuses s) = s.bst.fuseK % 32 ∧ bit Reg.BST_LCSTAT_LCFERR (reportFuses s) = s.bst.fuseErr ∧
    bit Reg.BST_LCSTAT_RETFUSE (reportFuses s) = s.bst.fuseRet ∧ lifecycle (reportFuses s) = fuseState s.bst := by
  have hstate : fuseState s.bst < 4 := by unfold fuseState; split <;> (try split) <;> (try split) <;> omega
  unfold reportFuses
  refine ⟨?_, ?_, ?_, ?_⟩
  · rw [getF_setF_beside _ _ _ _ (by decide) (by decide), setB, getF_setF_beside _ _ _ _ (by decide) (by decide), setB,
      getF_setF_beside _ _ _ _ (by decide) (by decide), getF_setF_same _ _ _ (by decide)]
    rfl
  · rw [bit_setF_beside (by decide) (by decide), bit_setB_beside (by decide) (by decide), bit_setB_same (by decide) rfl]
  · rw [bit_setF_beside (by decide) (by decide), bit_setB_same (by decide) rfl]
  · rw [lifecycle, getF_setF_same _ _ _ (by decide)]
    exact Nat.mod_eq_of_lt hstate

/-- The fuses and `BST_LCSTAT` with them, and the answer of the change. -/
def fusesShown (f : BstState) (s : State) : State :=
  { reportFuses { s with bst := f } with resp := some ⟨.ok, [], 0⟩ }

theorem Changes.fusesShown (f : BstState) (s : State) : Changes [.bst, .resp] (oneOf [Reg.BST_LCSTAT]) s (fusesShown f s) := by
  have h := ((Changes.withBst s f).trans (Changes.reportFuses { s with bst := f })).trans
    (Changes.withResp (Machine.reportFuses { s with bst := f }) (some ⟨.ok, [], 0⟩))
  exact h.mono (fun p hp => by simpa using hp) (fun a ha => by simpa [oneOf] using ha)

/-- Settles O55: the command's refusals in their order, and what one more fuse that reads burned makes of the state. -/
theorem lifecycleChange : Obligations.LifecycleChange := by
  unfold Obligations.LifecycleChange
  intro s
  refine ⟨?_, ?_, ?_, ?_, ?_, ?_, ?_, ?_⟩
  · rintro target force tk rfl hup hl
    exact lifecycleChange_refused hup (lifecycleCommand_denied force _ (.inl hl))
  · rintro target force tk rfl hup h2 rfl hk
    exact lifecycleChange_refused hup (lifecycleCommand_denied force _ (.inr ⟨h2, rfl, hk⟩))
  · rintro target force tk rfl ⟨hup, hf⟩ h0 rfl htrim
    refine lifecycleChange_refused hup ?_
    rw [lifecycleCommand_listed force _ (by rw [h0]; decide) (by simp [h0]) hf, if_pos ⟨h0, htrim⟩]
  · rintro target force tk rfl ⟨hup, hf⟩ h1 rfl hsrc rfl
    refine lifecycleChange_refused hup ?_
    rw [lifecycleCommand_listed false _ (by rw [h1]; decide) (by simp [h1]) hf, if_neg (by simp [h1]), if_pos ⟨h1, rfl, hsrc, rfl⟩]
  · rintro target force tk ⟨hup, hf⟩ hl hk htrim hsrc
    refine ⟨{ s with bst := { s.bst with lc := some (target.val, tk) } }, ?_, rfl, Changes.withBst _ _⟩
    change execLifecycleChange target force tk s = _
    have hpass0 : ¬ (lifecycle s = 0 ∧ bit Reg.CAL_STAT_TRIMBAD s = true) := fun ⟨h0, ht⟩ => by simp [htrim h0] at ht
    have hpass1 : ¬ (lifecycle s = 1 ∧ target.val = 2 ∧ getF Reg.CAL_STAT_SRC s = 0 ∧ force = false) := fun ⟨h1, h2, h0, hf⟩ => by
      rcases hsrc ⟨h1, Fin.ext h2⟩ with h | h
      · exact h h0
      · simp [h] at hf
    rw [execLifecycleChange, if_pos hup, lifecycleCommand_listed force tk hl (fun ⟨h2, h1, h16⟩ => hk ⟨h2, Fin.ext h1⟩ h16) hf, if_neg hpass0,
      if_neg hpass1]
    rfl
  · rintro a b target hlc hab hret hk
    have hne : target.val ≠ 3 := by omega
    have hb : fusesBurned a b target.val s.bst = { s.bst with fuseK := s.bst.fuseK + 1, fuseErr := s.bst.fuseErr || a != b, lc := none } := by
      simp [fusesBurned, hne]
    obtain ⟨hK, hErr, -, hState⟩ := reportFuses_shown { s with bst := fusesBurned a b target.val s.bst }
    refine ⟨_, fuseProgramDone_burned hlc hab, hb, ?_, ?_, hErr, rfl, Changes.fusesShown _ s⟩
    · refine hK.trans ?_
      rw [hb]
      exact Nat.mod_eq_of_lt (by simp only; omega)
    · refine hState.trans ?_
      rw [hb]
      simp only [fuseState, hret, Bool.false_eq_true, if_false, Nat.succ_ne_zero]
      split <;> split <;> omega
  · rintro a b hlc hab
    have hb : fusesBurned a b 3 s.bst = { s.bst with fuseRet := true, fuseErr := s.bst.fuseErr || a != b, lc := none } := by
      simp [fusesBurned]
    obtain ⟨-, hErr, hRet, hState⟩ := reportFuses_shown { s with bst := fusesBurned a b 3 s.bst }
    exact ⟨_, fuseProgramDone_burned hlc hab, hb, hState.trans (by rw [hb]; rfl), hRet.trans (by rw [hb]), hErr, rfl, Changes.fusesShown _ s⟩
  · rintro target hlc
    refine ⟨{ s with bst := { s.bst with lc := none }, resp := some ⟨.incomplete, [], 0⟩ }, ?_, rfl, rfl, ?_⟩
    · change execFuseProgramDone false false s = _
      simp only [execFuseProgramDone, hlc]
      rfl
    · have h := (Changes.withBst s { s.bst with lc := none }).trans
        (Changes.withResp { s with bst := { s.bst with lc := none } } (some ⟨.incomplete, [], 0⟩))
      exact h.mono (fun p hp => by simpa using hp) (fun a ha => by simp at ha)

end Sys2Proof.Machine
end

