-- ==== Sys2Proof/Proofs/ReinChecks.lean ====
section
/-!
PROOFS. The outcomes of a rein (R477 to R480, R487) and the frame that broadcasts it (R387, R389).
-/
namespace Sys2Proof.Machine

/-! ### The four outcomes of a rein (R479) -/

/-- A rein for `t` falls within MERGE of the last taken one (R479, R485). -/
def reinNear (t : Nat) (s : State) : Prop :=
  s.tbs.taken = true ∧ (mergeWindow s).any (fun w => decide (mag ((t : Int) - lastRein s) ≤ w)) = true

/-- FULL stands, and OVRMODE keeps the old rein (R479). -/
def reinKeptFull (s : State) : Prop := bit Reg.TBS_RSTAT_FULL s = true ∧ bit Reg.TBS_CFG_OVRMODE s = false

/-- The word of `TBS_RID` for a rein (R487). -/
def reinId (origin : Option Nat) (count : Nat) : Word :=
  BitVec.ofNat 32 (256 * (count % 256) + match origin with | some o => 2 ^ 31 + 65536 * o | none => 0)

/-- A rein in its place: it is shown, waits for T, and latches at once where T has passed. -/
def reinTaken (t src : Nat) (rid : Word) (remote : Bool) (s : State) : State :=
  if t < s.ft then latchRein t 1 (reinWaits t (reinShown t src rid remote s)) else reinWaits t (reinShown t src rid remote s)

theorem withinWindow_iff (taken : Bool) (d : Int) (window : Option Nat) : ((match window with
    | some w => taken && decide (d ≤ w)
    | none => false) = true) ↔ taken = true ∧ (do let w ← window; pure (w : Int)).any (fun w => decide (d ≤ w)) = true := by
  cases window with
  | none => simp
  | some w => simp

/-- R479: the outcome by the rows of the table. -/
theorem takeRein_eq (t src : Nat) (origin : Option Nat) (count : Nat) (remote : Bool) (s : State) [Decidable (reinNear t s)]
    [Decidable (reinKeptFull s)] :
    takeRein t src origin count remote s =
      if reinNear t s then incSat Reg.TBS_RSTAT_MERGECNT s
      else if bit Reg.TBS_RSTAT_BUSY s = true then incSat Reg.TBS_RSTAT_OVRCNT s
      else if reinKeptFull s then incSat Reg.TBS_RSTAT_OVRCNT s
      else reinTaken t src (reinId origin count) remote s := by
  unfold takeRein
  extract_lets near s1 tbs1 cms1 s2
  have hnear : near = true ↔ reinNear t s := withinWindow_iff ..
  have hfull : (bit Reg.TBS_RSTAT_FULL s && !bit Reg.TBS_CFG_OVRMODE s) = true ↔ reinKeptFull s := by simp [reinKeptFull]
  have hid : ∃ rid, rid = reinId origin count ∧ s1 = reinShown t src rid remote s := by
    refine ⟨_, ?_, rfl⟩
    cases origin <;> simp only [reinId]
  obtain ⟨rid, rfl, hshown⟩ := hid
  have hwaits : s2 = reinWaits t s1 := rfl
  rw [hwaits, hshown]
  simp only [hnear, hfull, reinTaken]

/-- A saturating counter of the status word counts, and another field keeps its value. -/
def Counted (f g : Field) (s t : State) : Prop := getF f t = min (getF f s + 1) 255 ∧ getF g t = getF g s

/-- A rein that is not taken leaves the latch, the measurement and the last rein. -/
def ReinUntouched (ps : List Part) (s t : State) : Prop :=
  t.tbs.latch = s.tbs.latch ∧ t.cms = s.cms ∧ lastRein t = lastRein s ∧ Changes ps (oneOf [Reg.TBS_RSTAT, Reg.FAB_DROP]) s t

theorem counted_merge (s : State) : Counted Reg.TBS_RSTAT_MERGECNT Reg.TBS_RSTAT_OVRCNT s (incSat Reg.TBS_RSTAT_MERGECNT s) :=
  ⟨getF_incSat _ _ (by decide), getF_setF_beside _ _ _ _ (by decide) (by decide)⟩

theorem counted_refusal (s : State) : Counted Reg.TBS_RSTAT_OVRCNT Reg.TBS_RSTAT_MERGECNT s (incSat Reg.TBS_RSTAT_OVRCNT s) :=
  ⟨getF_incSat _ _ (by decide), getF_setF_beside _ _ _ _ (by decide) (by decide)⟩

/-! ### What a taken rein shows -/

/-- The registers in which a rein is shown. -/
def reinRegs : List Nat := [Reg.TBS_RSTAT, Reg.TBS_RTIMEL, Reg.TBS_RTIMEH, Reg.TBS_RID, Reg.CMS_SNAPSTAT]

theorem Changes.reinShown (t src : Nat) (rid : Word) (remote : Bool) (s : State) : Changes [] (oneOf reinRegs) s (reinShown t src rid remote s) := by
  have h := ((((((((((((Changes.setB Reg.TBS_RSTAT_OVR (bit Reg.TBS_RSTAT_FULL s) s).trans (Changes.setB Reg.TBS_RSTAT_FULL true _)).trans
    (Changes.setB Reg.TBS_RSTAT_BUSY true _)).trans (Changes.setB Reg.TBS_RSTAT_UNSYNC (!bit Reg.CMS_STAT_TBLOCK s) _)).trans
    (Changes.setB Reg.TBS_RSTAT_LATE false _)).trans (Changes.setF Reg.TBS_RSTAT_SRC src _)).trans (Changes.setB Reg.TBS_RSTAT_REMOTE remote _)).trans
    (Changes.setReg Reg.TBS_RTIMEL (BitVec.ofNat 32 t) _)).trans (Changes.setReg Reg.TBS_RTIMEH (BitVec.ofNat 32 (t / 2 ^ 32)) _)).trans
    (Changes.setReg Reg.TBS_RID rid _)).trans (Changes.setB Reg.CMS_SNAPSTAT_DONE false _)).trans (Changes.setB Reg.CMS_SNAPSTAT_PEND false _))
  refine h.mono (fun p hp => by simp at hp) (fun a ha => ?_)
  simpa [oneOf, reinRegs, Reg.TBS_RSTAT_OVR, Reg.TBS_RSTAT_FULL, Reg.TBS_RSTAT_BUSY, Reg.TBS_RSTAT_UNSYNC, Reg.TBS_RSTAT_LATE, Reg.TBS_RSTAT_SRC,
    Reg.TBS_RSTAT_REMOTE, Reg.CMS_SNAPSTAT_DONE, Reg.CMS_SNAPSTAT_PEND, or_assoc] using ha

theorem Changes.reinWaits (t : Nat) (s : State) : Changes [.tbs, .cms] (fun _ => False) s (reinWaits t s) :=
  ((Changes.withTbs s { s.tbs with taken := true, latch := some t, skipped := false }).trans
    (Changes.withCms _ { s.cms with snapT := t, snapNext := none })).mono (fun p hp => by simpa using hp) (fun a ha => by simp at ha)

theorem Changes.reinTaken (t src : Nat) (rid : Word) (remote : Bool) (s : State) :
    Changes [.tbs, .cms] (oneOf (reinRegs ++ latchRegs)) s (reinTaken t src rid remote s) := by
  have hwaits := (Changes.reinShown t src rid remote s).trans (Changes.reinWaits t _)
  refine .of_ite ((hwaits.trans (Changes.latchRein t 1 _)).mono (by simp) (fun a ha => ?_)) (hwaits.mono (by simp) (fun a ha => ?_))
  · simpa [oneOf] using ha
  · have hshown : a ∈ reinRegs := by simpa [oneOf] using ha
    simp [oneOf, hshown]

theorem Changes.takeRein (t src : Nat) (origin : Option Nat) (count : Nat) (remote : Bool) (s : State) :
    Changes [.tbs, .cms] (oneOf (reinRegs ++ latchRegs)) s (takeRein t src origin count remote s) := by
  classical
  have hcount (f : Field) (hf : f.addr = Reg.TBS_RSTAT) : Changes [.tbs, .cms] (oneOf (reinRegs ++ latchRegs)) s (Machine.incSat f s) :=
    (Changes.incSat f s).mono (by simp) (fun a ha => by rw [ha, hf]; simp [oneOf, reinRegs])
  rw [takeRein_eq]
  exact .of_ite (hcount _ rfl) (.of_ite (hcount _ rfl) (.of_ite (hcount _ rfl) (.reinTaken ..)))

/-- The marks and the name of a rein that has been shown. -/
def ReinMarks (rid : Word) (remote : Bool) (s t : State) : Prop :=
  bit Reg.TBS_RSTAT_OVR t = bit Reg.TBS_RSTAT_FULL s ∧ bit Reg.TBS_RSTAT_BUSY t = true ∧ bit Reg.TBS_RSTAT_UNSYNC t = !bit Reg.CMS_STAT_TBLOCK s ∧
    bit Reg.TBS_RSTAT_REMOTE t = remote ∧ reg t Reg.TBS_RID = rid

theorem reinMarks_reinShown (t src : Nat) (rid : Word) (remote : Bool) (s : State) : ReinMarks rid remote s (reinShown t src rid remote s) := by
  unfold reinShown
  refine ⟨?_, ?_, ?_, ?_, ?_⟩
  · simp (disch := decide) only [bit, setB, getF_setF_other, getF_setReg_other, getF_setF_beside, getF_setF_same]
    cases getF Reg.TBS_RSTAT_FULL s == 1 <;> rfl
  · simp (disch := decide) only [bit, setB, getF_setF_other, getF_setReg_other, getF_setF_beside, getF_setF_same]
    rfl
  · simp (disch := decide) only [bit, setB, getF_setF_other, getF_setReg_other, getF_setF_beside, getF_setF_same]
    cases getF Reg.CMS_STAT_TBLOCK s == 1 <;> rfl
  · simp (disch := decide) only [bit, setB, getF_setF_other, getF_setReg_other, getF_setF_same]
    cases remote <;> rfl
  · simp (disch := decide) only [reg_setB_other, reg_setReg_same]

/-- A rein that waits for its T. -/
def ReinTook (t src : Nat) (s u : State) : Prop :=
  bit Reg.TBS_RSTAT_OVR u = bit Reg.TBS_RSTAT_FULL s ∧ bit Reg.TBS_RSTAT_FULL u = true ∧ bit Reg.TBS_RSTAT_BUSY u = true ∧ lastRein u = t ∧
    getF Reg.TBS_RSTAT_SRC u = src ∧ bit Reg.TBS_RSTAT_UNSYNC u = (!bit Reg.CMS_STAT_TBLOCK s) ∧ u.tbs.latch = some t ∧ u.tbs.taken = true ∧
    Changes [.cms, .tbs, .resp, .fab, .lnk] (oneOf [Reg.TBS_RSTAT, Reg.TBS_RTIMEL, Reg.TBS_RTIMEH, Reg.TBS_RID, Reg.CMS_SNAPSTAT, Reg.FAB_DROP]) s u

/-- The parts that carry a rein: the frames, and the answer of its command. -/
def carrierParts : List Part := [.resp, .fab, .lnk]

theorem lastRein_of_carrier {ps : List Part} {u v : State} (h : Changes ps (· = Reg.FAB_DROP) u v) : lastRein v = lastRein u := by
  rw [lastRein, h.reg_eq (by decide), h.reg_eq (by decide), lastRein]

section
variable {ps : List Part} (hps : ∀ p ∈ ps, p ∈ carrierParts)
include hps

theorem tbs_of_carrier {u v : State} (h : Changes ps (· = Reg.FAB_DROP) u v) : v.tbs = u.tbs :=
  h.part_eq .tbs (fun hp => by simpa [carrierParts] using hps _ hp)

/-- A rein that has been taken waits, where its T has not passed. -/
theorem reinTook_of {t src : Nat} {s u v : State} (h64 : t < 2 ^ 64) (hs : src < 8) (ht : u.ft ≤ t) {rid : Word} {remote : Bool}
    (hu : Changes [.fab, .tbs] (fun _ => False) s u) (h : Changes ps (· = Reg.FAB_DROP) (reinTaken t src rid remote u) v) :
    ReinTook t src s v ∧ bit Reg.TBS_RSTAT_REMOTE v = remote ∧ reg v Reg.TBS_RID = rid ∧ v.tbs.rein = u.tbs.rein := by
  rw [reinTaken, if_neg (Nat.not_lt.2 ht)] at h
  obtain ⟨htime, hsrc, hfull, ⟨w, htbs⟩, -⟩ := showsRein_reinWaits h64 hs rid remote u
  obtain ⟨hovr, hbusy, hunsync, hremote, hrid⟩ := reinMarks_reinShown t src rid remote u
  have hstat {f : Field} (hf : f.addr = Reg.TBS_RSTAT) : bit f v = bit f (reinShown t src rid remote u) :=
    bit_of_reg ((h.reg_eq (by rw [hf]; decide)).trans (reg_reinWaits ..))
  have hbase (f : Field) : bit f u = bit f s := bit_of_reg (hu.reg_eq (by simp))
  have hv := tbs_of_carrier hps h
  refine ⟨⟨((hstat rfl).trans hovr).trans (hbase _), (bit_of_reg (h.reg_eq (by decide))).trans hfull, (hstat rfl).trans hbusy, (lastRein_of_carrier h).trans htime,
    (getF_of_reg (h.reg_eq (by decide))).trans hsrc, ((hstat rfl).trans hunsync).trans (by rw [hbase]), by rw [hv]; rfl, by rw [hv]; rfl, ?_⟩,
    (hstat rfl).trans hremote, ((h.reg_eq (by decide)).trans (reg_reinWaits ..)).trans hrid, by rw [hv, htbs]⟩
  refine (((hu.trans (Changes.reinShown t src rid remote u)).trans (Changes.reinWaits t _)).trans h).mono (fun p hp => ?_) (fun a ha => ?_)
  · have hp' : p = .fab ∨ p = .tbs ∨ p = .cms ∨ p ∈ ps := by simpa [or_assoc, or_comm, or_left_comm] using hp
    obtain rfl | rfl | rfl | hc := hp'
    · simp
    · simp
    · simp
    · exact List.mem_cons_of_mem _ (List.mem_cons_of_mem _ (hps p hc))
  · simpa [oneOf, reinRegs, or_assoc] using ha

/-- A rein that is only counted changes the status word, and what carried it. -/
theorem reinUntouched_of {f : Field} {qs : List Part} {s u v : State} (hf : f.addr = Reg.TBS_RSTAT) (hu : Changes qs (fun _ => False) s u)
    (hlatch : u.tbs.latch = s.tbs.latch) (hcms : u.cms = s.cms) (h : Changes ps (· = Reg.FAB_DROP) (incSat f u) v) :
    ReinUntouched (qs ++ ps) s v := by
  have hinc := Changes.incSat f u
  refine ⟨?_, ?_, ?_, ((hu.trans hinc).trans h).mono (by simp) (fun a ha => by simpa [oneOf, hf] using ha)⟩
  · rw [tbs_of_carrier hps h]
    exact hlatch
  · exact ((h.part_eq .cms (fun hp => by simpa [carrierParts] using hps _ hp)).trans rfl).trans hcms
  · rw [lastRein_of_carrier h, lastRein, hinc.reg_eq (by rw [hf]; decide), hinc.reg_eq (by rw [hf]; decide), hu.reg_eq (by simp), hu.reg_eq (by simp),
      lastRein]

end

theorem counted_of {f g : Field} {ps qs : List Part} {s u v : State} (hf : f.addr = Reg.TBS_RSTAT) (hg : g.addr = Reg.TBS_RSTAT)
    (hu : Changes qs (fun _ => False) s u) (hc : Counted f g u (incSat f u)) (h : Changes ps (· = Reg.FAB_DROP) (incSat f u) v) : Counted f g s v := by
  have hcarry {k : Field} (hk : k.addr = Reg.TBS_RSTAT) : getF k v = getF k (incSat f u) := getF_of_reg (h.reg_eq (by rw [hk]; decide))
  have hbase (k : Field) : getF k u = getF k s := getF_of_reg (hu.reg_eq (by simp))
  obtain ⟨hcount, hkeep⟩ := hc
  exact ⟨((hcarry hf).trans hcount).trans (by rw [hbase]), ((hcarry hg).trans hkeep).trans (hbase g)⟩

/-! ### The state a rein comes to -/

/-- A state in which a rein is judged as in `s`: only what carries the rein differs. -/
structure ReinCase (qs : List Part) (s u : State) : Prop where
  changes : Changes qs (fun _ => False) s u
  taken : u.tbs.taken = s.tbs.taken
  latch : u.tbs.latch = s.tbs.latch
  ft : u.ft = s.ft
  cms : u.cms = s.cms

section
variable {qs : List Part} {s u : State} (hu : ReinCase qs s u)
include hu

theorem ReinCase.bit_eq (f : Field) : bit f u = bit f s := bit_of_reg (hu.changes.reg_eq (by simp))

theorem ReinCase.near_iff (t : Nat) : reinNear t u ↔ reinNear t s := by
  have hreg (a : Nat) : reg u a = reg s a := hu.changes.reg_eq (by simp)
  have hmerge : getF Reg.TBS_CFG_MERGE u = getF Reg.TBS_CFG_MERGE s := getF_of_reg (hreg _)
  have hlast : lastRein u = lastRein s := by rw [lastRein, hreg, hreg, lastRein]
  rw [reinNear, hu.taken, mergeWindow, hmerge, hlast, reinNear, mergeWindow]

theorem ReinCase.keptFull_iff : reinKeptFull u ↔ reinKeptFull s := by rw [reinKeptFull, hu.bit_eq, hu.bit_eq, reinKeptFull]

section
variable {ps : List Part} (hps : ∀ p ∈ ps, p ∈ carrierParts) {t src count : Nat} {origin : Option Nat} {remote : Bool} {v : State}
  (h : Changes ps (· = Reg.FAB_DROP) (takeRein t src origin count remote u) v)
include hps h

/-- R479: within MERGE the rein is merged. -/
theorem ReinCase.merged (hn : reinNear t s) : Counted Reg.TBS_RSTAT_MERGECNT Reg.TBS_RSTAT_OVRCNT s v ∧ ReinUntouched (qs ++ ps) s v := by
  classical
  rw [takeRein_eq, if_pos ((hu.near_iff t).2 hn)] at h
  exact ⟨counted_of rfl rfl hu.changes (counted_merge u) h, reinUntouched_of hps rfl hu.changes hu.latch hu.cms h⟩

/-- R479: while BUSY stands, or FULL that is kept, the rein is refused. -/
theorem ReinCase.refused (hn : ¬ reinNear t s) (hb : bit Reg.TBS_RSTAT_BUSY s = true ∨ reinKeptFull s) :
    Counted Reg.TBS_RSTAT_OVRCNT Reg.TBS_RSTAT_MERGECNT s v ∧ ReinUntouched (qs ++ ps) s v := by
  classical
  have hrefuse : takeRein t src origin count remote u = incSat Reg.TBS_RSTAT_OVRCNT u := by
    rw [takeRein_eq, if_neg (fun hn' => hn ((hu.near_iff t).1 hn')), hu.bit_eq, hu.keptFull_iff]
    obtain hb | hf := hb
    · rw [if_pos hb]
    · rw [if_pos hf, ite_self]
  rw [hrefuse] at h
  exact ⟨counted_of rfl rfl hu.changes (counted_refusal u) h, reinUntouched_of hps rfl hu.changes hu.latch hu.cms h⟩

end

/-- R479: any other rein is taken. -/
theorem ReinCase.takeRein_taken {t : Nat} (hn : ¬ reinNear t s) (hb : ¬ bit Reg.TBS_RSTAT_BUSY s = true) (hf : ¬ reinKeptFull s) (src : Nat)
    (origin : Option Nat) (count : Nat) (remote : Bool) :
    takeRein t src origin count remote u = reinTaken t src (reinId origin count) remote u := by
  classical
  rw [takeRein_eq, if_neg (fun hn' => hn ((hu.near_iff t).1 hn')), hu.bit_eq, if_neg hb, if_neg (fun hf' => hf (hu.keptFull_iff.1 hf'))]

end

/-- R487: the fields of `TBS_RID`. -/
theorem reinId_shown {origin : Option Nat} {count : Nat} {v : State} (h : reg v Reg.TBS_RID = reinId origin count) (ho : ∀ o ∈ origin, o < 1024) :
    getF Reg.TBS_RID_COUNT v = count % 256 ∧ bit Reg.TBS_RID_IDV v = origin.isSome ∧ ∀ o ∈ origin, getF Reg.TBS_RID_ORIGIN v = o := by
  have hcount : count % 256 < 256 := Nat.mod_lt _ (by decide)
  cases origin with
  | none =>
    refine ⟨?_, ?_, by simp⟩
    · simp only [getF, h, reinId, getBits, Reg.TBS_RID_COUNT, BitVec.toNat_ushiftRight, BitVec.toNat_ofNat, Nat.shiftRight_eq_div_pow]
      omega
    · simp only [bit, getF, h, reinId, getBits, Reg.TBS_RID_IDV, BitVec.toNat_ushiftRight, BitVec.toNat_ofNat, Nat.shiftRight_eq_div_pow, Option.isSome_none,
        beq_eq_false_iff_ne]
      omega
  | some o =>
    have hlt : o < 1024 := ho o rfl
    refine ⟨?_, ?_, ?_⟩
    · simp only [getF, h, reinId, getBits, Reg.TBS_RID_COUNT, BitVec.toNat_ushiftRight, BitVec.toNat_ofNat, Nat.shiftRight_eq_div_pow]
      omega
    · simp only [bit, getF, h, reinId, getBits, Reg.TBS_RID_IDV, BitVec.toNat_ushiftRight, BitVec.toNat_ofNat, Nat.shiftRight_eq_div_pow, Option.isSome_some,
        beq_iff_eq]
      omega
    · intro o' ho'
      rw [← Option.some.inj ho']
      simp only [getF, h, reinId, getBits, Reg.TBS_RID_ORIGIN, BitVec.toNat_ushiftRight, BitVec.toNat_ofNat, Nat.shiftRight_eq_div_pow]
      omega

/-! ### Received reins -/

/-- T of a REIN frame (R478). -/
def frameTime (f : Frame) : Nat := (nth f.payload 0 0#32).toNat + 2 ^ 32 * (nth f.payload 1 0#32).toNat

/-- The word of a REIN frame that names its issuer (R478). -/
def frameIssuer (f : Frame) : Word := nth f.payload 2 0#32

/-- The node that issued a REIN frame, where it has an ID (R478). -/
def frameOrigin (f : Frame) : Option Nat := if 0x8000 ≤ getBits (frameIssuer f) 0 16 then some (getBits (frameIssuer f) 0 10) else none

theorem frameTime_lt (f : Frame) : frameTime f < 2 ^ 64 := by
  have h0 := (nth f.payload 0 0#32).isLt
  have h1 := (nth f.payload 1 0#32).isLt
  unfold frameTime
  omega

theorem frameOrigin_lt (f : Frame) : ∀ o ∈ frameOrigin f, o < 1024 := by
  unfold frameOrigin
  split
  · rintro o ⟨⟩
    exact Nat.mod_lt _ (by decide)
  · rintro o ⟨⟩

theorem isSome_frameOrigin (f : Frame) : (frameOrigin f).isSome = (frameIssuer f).getLsbD 15 := by
  have hbit : 0x8000 ≤ getBits (frameIssuer f) 0 16 ↔ (frameIssuer f).getLsbD 15 = true := by
    rw [BitVec.getLsbD, Nat.testBit_eq_decide_div_mod_eq, decide_eq_true_iff, getBits, BitVec.ushiftRight_zero]
    omega
  unfold frameOrigin
  split
  · next hge => exact (hbit.1 hge).symm
  · next hlt => exact (Bool.eq_false_iff.2 fun hb => hlt (hbit.2 hb)).symm

theorem takeInbox_withFab (n : Nat) (f : Frame) (s : State) : ∃ y, takeInbox n f s = { s with fab := y } := by
  unfold takeInbox
  split
  · exact ⟨_, rfl⟩
  · exact ⟨s.fab, rfl⟩

theorem reinCase_takeInbox (n : Nat) (f : Frame) (s : State) : ReinCase [.fab] s (takeInbox n f s) := by
  obtain ⟨y, hy⟩ := takeInbox_withFab n f s
  rw [hy]
  exact ⟨Changes.withFab s y, rfl, rfl, rfl, rfl⟩

theorem exec_reinReceive (n : Fin 4) {f : Frame} {s : State} (hup : coreUp s = true) (hf : f.type = .rein) : exec (.reinReceive n f) s =
    .next (takeRein (frameTime f) (getBits (frameIssuer f) 24 3) (frameOrigin f) (getBits (frameIssuer f) 16 8) true (takeInbox n f s)) := by
  change execReinReceive n f s = _
  rw [execReinReceive, if_pos (by rw [hf, hup]; rfl)]
  rfl

/-- R480: a rein whose T has passed is taken and latches at once, with LATE. -/
theorem reinTaken_late {t src : Nat} {u : State} (h64 : t < 2 ^ 64) (hs : src < 8) (ht : t < u.ft) (rid : Word) (remote : Bool) :
    bit Reg.TBS_RSTAT_FULL (reinTaken t src rid remote u) = true ∧ bit Reg.TBS_RSTAT_LATE (reinTaken t src rid remote u) = true ∧
      lastRein (reinTaken t src rid remote u) = t ∧ getF Reg.TBS_RID_LATEUS (reinTaken t src rid remote u) = min ((u.ft - t) / 1000) 255 ∧
      (reinTaken t src rid remote u).tbs.latch = none ∧ (u.cms.running = false → bit Reg.TBS_RSTAT_BUSY (reinTaken t src rid remote u) = false) ∧
      reg (reinTaken t src rid remote u) Reg.CNV_SNAP0 = reg u Reg.CNV_STAT ∧ (reinTaken t src rid remote u).pending = u.pending := by
  have hbefore := (Changes.reinShown t src rid remote u).trans (Changes.reinWaits t (reinShown t src rid remote u))
  have hft : (reinWaits t (reinShown t src rid remote u)).ft = u.ft := by simp only [reinWaits, reinShown, setB_ft, setReg_ft, setF_ft]
  have hrun : (reinWaits t (reinShown t src rid remote u)).cms.running = u.cms.running := by
    simp only [reinWaits, reinShown, setB_cms, setReg_cms, setF_cms]
  have hpend : bit Reg.CMS_SNAPSTAT_PEND (reinWaits t (reinShown t src rid remote u)) = false :=
    (bit_of_reg (reg_reinWaits ..)).trans (bit_setB_same (by decide) rfl false _)
  have hlatch : reinTaken t src rid remote u = latchRein t 1 (reinWaits t (reinShown t src rid remote u)) := if_pos ht
  obtain ⟨hnone, hcnv, -, -, -, -, hbusy, -⟩ := latchRein_latched t 1 (reinWaits t (reinShown t src rid remote u))
  obtain ⟨htime, -, hfull, -, hpending⟩ := (showsRein_reinWaits h64 hs rid remote u).latchRein t 1
  obtain ⟨hlate, hlateus⟩ := markLate_late (t := t) (slack := 1) (s := reinWaits t (reinShown t src rid remote u)) (by rw [hft]; omega)
  rw [hlatch]
  refine ⟨hfull, ?_, htime, ?_, hnone, fun hr => hbusy (hrun.trans hr) hpend, hcnv.trans (hbefore.reg_eq (by unfold oneOf; decide)), hpending⟩
  · exact (congrArg (· == 1) (getF_latchRein (f := Reg.TBS_RSTAT_LATE) (by decide) (by decide) (by decide) (by decide) t 1 _)).trans hlate
  · rw [getF_latchRein (f := Reg.TBS_RID_LATEUS) (by decide) (by decide) (by decide) (by decide) t 1 _, hlateus, hft]

/-! ### Reins of this node -/

/-- T of a rein that this node issues: the preset time, or the present with the lead of a broadcast (R477). -/
def ownTime (bcast imm : Bool) (s : State) : Nat :=
  if imm then (s.ft + (if bcast then getF Reg.TBS_CFG_LEAD s * 10000 else 0)) % 2 ^ 64
  else (reg s Reg.TBS_REINTH).toNat * 2 ^ 32 + (reg s Reg.TBS_REINTL).toNat

theorem ownTime_lt (bcast imm : Bool) (s : State) : ownTime bcast imm s < 2 ^ 64 := by
  unfold ownTime
  split
  · exact Nat.mod_lt _ (by decide)
  · have hh := (reg s Reg.TBS_REINTH).isLt
    have hl := (reg s Reg.TBS_REINTL).isLt
    omega

/-- The ID of this node, where it has one (R385). -/
def ownOrigin (s : State) : Option Nat := if bit Reg.FAB_ID_VALID s then some (getF Reg.FAB_ID_ID s) else none

theorem ownOrigin_lt (s : State) : ∀ o ∈ ownOrigin s, o < 1024 := by
  unfold ownOrigin
  split
  · rintro o ⟨⟩
    exact Nat.mod_lt _ (by decide)
  · rintro o ⟨⟩

theorem isSome_ownOrigin (s : State) : (ownOrigin s).isSome = bit Reg.FAB_ID_VALID s := by
  unfold ownOrigin
  split
  · next h => exact h.symm
  · next h => exact (Bool.eq_false_iff.2 h).symm

/-- The next number of this node's reins is in use (R478). -/
def reinNumbered (s : State) : State := { s with tbs := { s.tbs with rein := (s.tbs.rein + 1) % 256 } }

theorem reinCase_numbered (s : State) : ReinCase [.tbs] s (reinNumbered s) :=
  ⟨Changes.withTbs s _, rfl, rfl, rfl, rfl⟩

/-- The rein of a command, as this node takes it. -/
def ownTaken (b i : Bool) (s : State) : State := takeRein (ownTime b i s) 3 (ownOrigin s) s.tbs.rein false (reinNumbered s)

/-- The payload of the REIN frame of a command (R478). -/
def ownPayload (b i : Bool) (s : State) : List Word :=
  [BitVec.ofNat 32 (ownTime b i s), BitVec.ofNat 32 (ownTime b i s / 2 ^ 32),
    BitVec.ofNat 32 ((match ownOrigin s with | some o => 0x8000 + o | none => 0) + 65536 * s.tbs.rein + 2 ^ 24 * 3), 0#32]

/-- The state after the command of a rein. -/
def reinGone (b i : Bool) (s : State) : State :=
  (Done.ok (if b then broadcast .rein .b (ownPayload b i s) (ownTaken b i s) else ownTaken b i s)).finish

theorem exec_reinGo (b i : Bool) {s : State} (hup : coreUp s = true) : exec (.reinGo b i) s = .next (reinGone b i s) := by
  change execReinGo b i s = _
  rw [execReinGo, if_pos hup]
  rfl

/-- R477: a rein's command is answered with OK, and a broadcast leaves besides. -/
theorem Changes.reinGone (b i : Bool) (s : State) : Changes carrierParts (· = Reg.FAB_DROP) (ownTaken b i s) (reinGone b i s) := by
  cases b with
  | true => exact ((Changes.broadcast .rein .b _ _).trans (Changes.finish_ok _)).mono (by simp [carrierParts]) (by simp)
  | false => exact (Changes.finish_ok _).mono (by simp [carrierParts]) (by simp)

/-! ### The broadcast of a rein -/

/-- One port's turn of a flood (R387). -/
def floodStep (f : Frame) (t : State) (n : Nat) : State := if n ≠ 4 ∧ portOpen n t then enqueue n 4 f t else t

theorem portOpen_of {n : Nat} {s t : State} (hreg : reg t (Reg.LNK_PSTAT n) = reg s (Reg.LNK_PSTAT n)) (hport : port n t = port n s) :
    portOpen n t = portOpen n s := by
  have hstate : portState n t = portState n s := getF_of_reg (f := Reg.LNK_PSTAT_STATE n) hreg
  have hlpi : (nth t.lnk.ports n PortState.reset).fromLpi = (nth s.lnk.ports n PortState.reset).fromLpi := congrArg PortState.fromLpi hport
  rw [portOpen, portOpen, portUp, portUp, hstate, hlpi]

theorem port_enqueue_other {m n : Nat} (hm : m < 4) (hne : m ≠ n) (input : Nat) (g : Frame) (s : State) : port m (enqueue n input g s) = port m s := by
  unfold enqueue
  extract_lets f q full
  split
  · exact port_of_lnk rfl m
  · exact (port_modPort n m hm _ s).trans (if_neg hne)

/-- A port that a flood's turns leave out is as it was. -/
theorem foldl_floodStep_other {m : Nat} (hm : m < 4) (f : Frame) (l : List Nat) (hl : m ∉ l) (s : State) :
    port m (l.foldl (floodStep f) s) = port m s ∧ portOpen m (l.foldl (floodStep f) s) = portOpen m s := by
  induction l generalizing s with
  | nil => exact ⟨rfl, rfl⟩
  | cons n rest ih =>
    have hne : m ≠ n := fun h => hl (h ▸ List.mem_cons_self)
    have hrest : m ∉ rest := fun h => hl (List.mem_cons_of_mem _ h)
    have hstep : port m (floodStep f s n) = port m s := by
      unfold floodStep
      split
      · exact port_enqueue_other hm hne 4 f s
      · rfl
    have hreg : reg (floodStep f s n) (Reg.LNK_PSTAT m) = reg s (Reg.LNK_PSTAT m) := by
      have hdrop : Reg.LNK_PSTAT m ≠ Reg.FAB_DROP := by simp only [Reg.LNK_PSTAT, Reg.FAB_DROP]; omega
      unfold floodStep
      split
      · exact (Changes.enqueue n 4 f s).reg_eq hdrop
      · rfl
    obtain ⟨hport, hopen⟩ := ih hrest (floodStep f s n)
    exact ⟨hport.trans hstep, hopen.trans (portOpen_of hreg hstep)⟩

/-- R387, R389: a class B frame of a flood with room in an empty queue stands alone in it at every open port. -/
theorem qb_flood {f : Frame} (hc : f.cls = .b) (hlen : f.payload.length = 4) {n : Nat} (hn : n < 4) {s : State} (ho : portOpen n s = true)
    (hq : (port n s).qb = []) : (port n (flood 4 f s)).qb = [(4, f)] := by
  obtain ⟨l1, l2, hsplit⟩ := List.append_of_mem (List.mem_range.2 hn)
  have hnodup : (l1 ++ n :: l2).Nodup := hsplit ▸ List.nodup_range
  have h1 : n ∉ l1 := fun hmem => (List.nodup_append.1 hnodup).2.2 n hmem n List.mem_cons_self rfl
  have h2 : n ∉ l2 := (List.nodup_cons.1 (List.nodup_append.1 hnodup).2.1).1
  have hfold : flood 4 f s = (List.range 4).foldl (floodStep f) s := rfl
  obtain ⟨hport, hopen⟩ := foldl_floodStep_other hn f l1 h1 s
  rw [hfold, hsplit, List.foldl_append, List.foldl_cons, (foldl_floodStep_other hn f l2 h2 _).1]
  generalize l1.foldl (floodStep f) s = u at hport hopen
  have htake : f.payload.take (payloadLimit f.cls) = f.payload := List.take_of_length_le (by rw [hlen, hc]; decide)
  have hfit : fitPayload f = f := by rw [fitPayload, htake]
  have hempty : (port n u).queue .b = [] := by rw [hport]; exact hq
  have hroom : ¬ (16384 < frameBytes f) := by rw [frameBytes, hlen]; decide
  have hput : enqueue n 4 f u = modPort n (fun p => p.setQueue .b [(4, f)]) u := by
    simp only [enqueue, hfit, hc, hempty, queueRoom, queueBytes, List.map_nil, List.sum_nil, Nat.zero_add, hroom, decide_false, Bool.false_eq_true, if_false,
      List.nil_append]
  rw [floodStep, if_pos ⟨by omega, hopen.trans ho⟩, hput, port_modPort n n hn, if_pos rfl]
  rfl

/-- R387: the REIN frame of a command stands alone in the empty queue of every open port. -/
theorem qb_ownBroadcast (i : Bool) {s : State} (hroom : broadcastsNow s < 64) (hwait : s.fab.bwait = []) {n : Nat} (hn : n < 4)
    (ho : portOpen n s = true) (hq : (port n s).qb = []) :
    (port n (broadcast .rein .b (ownPayload true i s) (ownTaken true i s))).qb =
      [(4, ⟨.rein, .b, .broadcast, 0#32, getF Reg.FAB_CFG_BHOP s, ownSrc s, 1023, ownEpoch s, s.fab.bcount, ownPayload true i s⟩)] := by
  have htaken : Changes [.tbs, .cms] (oneOf (reinRegs ++ latchRegs)) s (ownTaken true i s) :=
    ((reinCase_numbered s).changes.trans (Changes.takeRein ..)).mono (by simp) (by simp)
  generalize ownTaken true i s = u at htaken
  have hfab : u.fab = s.fab := htaken.part_eq .fab (by simp)
  have hport : port n u = port n s := port_of_lnk (htaken.part_eq .lnk (by simp)) n
  have hstat : reg u (Reg.LNK_PSTAT n) = reg s (Reg.LNK_PSTAT n) := by
    have hout : ∀ m < 4, Reg.LNK_PSTAT m ∉ reinRegs ++ latchRegs := by decide
    exact htaken.reg_eq (hout n hn)
  have hnow : broadcastsNow u = broadcastsNow s := by
    have htime : u.now = s.now := htaken.part_eq .now (by simp)
    rw [broadcastsNow, hfab, htime, broadcastsNow]
  have hbhop : getF Reg.FAB_CFG_BHOP u = getF Reg.FAB_CFG_BHOP s := getF_of_reg (htaken.reg_eq (by unfold oneOf; decide))
  have hid (f : Field) (hf : f.addr = Reg.FAB_ID) : getF f u = getF f s := getF_of_reg (htaken.reg_eq (by rw [hf]; unfold oneOf; decide))
  have hsrc : ownSrc u = ownSrc s := by rw [ownSrc, bit, hid _ rfl, hid _ rfl, ownSrc, bit]
  have hepoch : ownEpoch u = ownEpoch s := getF_of_reg (htaken.reg_eq (by unfold oneOf; decide))
  have hsend : broadcast .rein .b (ownPayload true i s) u = originate .rein .b (ownPayload true i s) u :=
    if_pos ⟨by rw [hnow]; exact hroom, by rw [hfab]; exact hwait⟩
  rw [hsend, originate, hbhop, hsrc, hepoch, hfab]
  refine qb_flood rfl rfl hn ?_ ?_
  · rw [← ho]
    exact portOpen_of hstat hport
  · rw [← hq]
    exact congrArg PortState.qb hport

/-! ### The obligation -/

/-- What a received rein shows of the frame that brought it (R478, R487). -/
theorem reinReceive_taken {n : Fin 4} {f : Frame} {s : State} (hup : coreUp s = true) (hf : f.type = .rein) (hn : ¬ reinNear (frameTime f) s)
    (hb : ¬ bit Reg.TBS_RSTAT_BUSY s = true) (hfull : ¬ reinKeptFull s) (ht : s.ft ≤ frameTime f) :
    ∃ t, exec (.reinReceive n f) s = .next t ∧ ReinTook (frameTime f) (getBits (frameIssuer f) 24 3) s t ∧ bit Reg.TBS_RSTAT_REMOTE t = true ∧
      getF Reg.TBS_RID_COUNT t = getBits (frameIssuer f) 16 8 ∧ bit Reg.TBS_RID_IDV t = (frameIssuer f).getLsbD 15 ∧
      ((frameIssuer f).getLsbD 15 = true → getF Reg.TBS_RID_ORIGIN t = getBits (frameIssuer f) 0 10) := by
  have hu := reinCase_takeInbox n f s
  have htake := hu.takeRein_taken hn hb hfull (getBits (frameIssuer f) 24 3) (frameOrigin f) (getBits (frameIssuer f) 16 8) true
  obtain ⟨htook, hremote, hrid, -⟩ := reinTook_of (ps := []) (by simp) (frameTime_lt f) (Nat.mod_lt _ (by decide)) (by rw [hu.ft]; exact ht)
    (hu.changes.mono (by simp) (by simp)) (Changes.refl [] _ (reinTaken (frameTime f) (getBits (frameIssuer f) 24 3) (reinId (frameOrigin f)
      (getBits (frameIssuer f) 16 8)) true (takeInbox n f s)))
  obtain ⟨hcount, hidv, horigin⟩ := reinId_shown hrid (frameOrigin_lt f)
  refine ⟨_, exec_reinReceive n hup hf, ?_⟩
  rw [htake]
  refine ⟨htook, hremote, hcount.trans (Nat.mod_eq_of_lt (Nat.mod_lt _ (by decide))), hidv.trans (isSome_frameOrigin f), fun h15 => horigin _ ?_⟩
  have hsome : (frameOrigin f).isSome = true := (isSome_frameOrigin f).trans h15
  unfold frameOrigin at hsome ⊢
  split at hsome
  · next hge => rw [if_pos hge]; rfl
  · simp at hsome

/-- R480: a received rein whose T has passed latches at once. -/
theorem reinReceive_late {n : Fin 4} {f : Frame} {s : State} (hup : coreUp s = true) (hf : f.type = .rein) (hn : ¬ reinNear (frameTime f) s)
    (hb : ¬ bit Reg.TBS_RSTAT_BUSY s = true) (hfull : ¬ reinKeptFull s) (ht : frameTime f < s.ft) :
    ∃ t, exec (.reinReceive n f) s = .next t ∧ bit Reg.TBS_RSTAT_FULL t = true ∧ bit Reg.TBS_RSTAT_LATE t = true ∧ lastRein t = frameTime f ∧
      getF Reg.TBS_RID_LATEUS t = min ((s.ft - frameTime f) / 1000) 255 ∧ t.tbs.latch = none ∧
      (s.cms.running = false → bit Reg.TBS_RSTAT_BUSY t = false) ∧ reg t Reg.CNV_SNAP0 = reg s Reg.CNV_STAT ∧ t.pending = s.pending := by
  have hu := reinCase_takeInbox n f s
  have htake := hu.takeRein_taken hn hb hfull (getBits (frameIssuer f) 24 3) (frameOrigin f) (getBits (frameIssuer f) 16 8) true
  have hlate := reinTaken_late (u := takeInbox n f s) (frameTime_lt f) (src := getBits (frameIssuer f) 24 3) (Nat.mod_lt _ (by decide))
    (by rw [hu.ft]; exact ht) (reinId (frameOrigin f) (getBits (frameIssuer f) 16 8)) true
  rw [hu.ft, hu.cms, hu.changes.reg_eq (by simp), hu.changes.pending_eq] at hlate
  refine ⟨_, exec_reinReceive n hup hf, ?_⟩
  rw [htake]
  exact hlate

/-- What a rein of this node shows (R477, R487). -/
theorem reinGo_taken {b i : Bool} {s : State} (hup : coreUp s = true) (hn : ¬ reinNear (ownTime b i s) s) (hb : ¬ bit Reg.TBS_RSTAT_BUSY s = true)
    (hfull : ¬ reinKeptFull s) (ht : s.ft ≤ ownTime b i s) :
    ∃ t, exec (.reinGo b i) s = .next t ∧ ReinTook (ownTime b i s) 3 s t ∧ t.answered .ok ∧ bit Reg.TBS_RSTAT_REMOTE t = false ∧
      getF Reg.TBS_RID_COUNT t = s.tbs.rein % 256 ∧ bit Reg.TBS_RID_IDV t = bit Reg.FAB_ID_VALID s ∧ t.tbs.rein = (s.tbs.rein + 1) % 256 := by
  have hu := reinCase_numbered s
  have hch := Changes.reinGone b i s
  rw [ownTaken, hu.takeRein_taken hn hb hfull] at hch
  obtain ⟨htook, hremote, hrid, hrein⟩ := reinTook_of (fun _ hp => hp) (ownTime_lt b i s) (by decide) (by rw [hu.ft]; exact ht) (hu.changes.mono (by simp) (by simp)) hch
  obtain ⟨hcount, hidv, -⟩ := reinId_shown hrid (ownOrigin_lt s)
  exact ⟨_, exec_reinGo b i hup, htook, rfl, hremote, hcount, hidv.trans (isSome_ownOrigin s), hrein⟩

/-- The word of a command's REIN frame that names its issuer (R478). -/
theorem ownPayload_issuer (b i : Bool) (s : State) : ownPayload b i s = [BitVec.ofNat 32 (ownTime b i s), BitVec.ofNat 32 (ownTime b i s / 2 ^ 32),
    BitVec.ofNat 32 ((if bit Reg.FAB_ID_VALID s then 0x8000 + getF Reg.FAB_ID_ID s else 0) + 65536 * s.tbs.rein + 3 * 2 ^ 24), 0#32] := by
  rw [ownPayload, ownOrigin]
  split <;> simp_all

/-- Settles O47: a rein is judged by the rows of R479 in their order, whatever brought it. -/
theorem reinChecks : Obligations.ReinChecks := by
  unfold Obligations.ReinChecks
  intro s when own near merged refused kept busy full took word ours
  have hrecv (n : Fin 4) (f : Frame) := reinCase_takeInbox n f s
  have hown := reinCase_numbered s
  have hrefl (u : State) : Changes [] (· = Reg.FAB_DROP) u u := Changes.refl ..
  have hall : ∀ p ∈ carrierParts, p ∈ carrierParts := fun _ hp => hp
  have hnone : ∀ p ∈ ([] : List Part), p ∈ carrierParts := by simp
  refine ⟨?_, ?_, ?_, fun n f => reinReceive_taken, fun n f => reinReceive_late, ?_, ?_, ?_, fun b i => reinGo_taken, ?_⟩
  · intro n f hup hf hn
    exact ⟨_, exec_reinReceive n hup hf, (hrecv n f).merged hnone (hrefl _) hn⟩
  · intro n f hup hf hn hb
    exact ⟨_, exec_reinReceive n hup hf, (hrecv n f).refused hnone (hrefl _) hn (.inl hb)⟩
  · intro n f hup hf hn hb hfull
    exact ⟨_, exec_reinReceive n hup hf, (hrecv n f).refused hnone (hrefl _) hn (.inr hfull)⟩
  · intro b i hup hn
    obtain ⟨hcount, hsame⟩ := hown.merged hall (.reinGone b i s) hn
    exact ⟨_, exec_reinGo b i hup, hcount, rfl, hsame⟩
  · intro b i hup hn hb
    obtain ⟨hcount, hsame⟩ := hown.refused hall (.reinGone b i s) hn (.inl hb)
    exact ⟨_, exec_reinGo b i hup, hcount, rfl, hsame⟩
  · intro b i hup hn hb hfull
    obtain ⟨hcount, hsame⟩ := hown.refused hall (.reinGone b i s) hn (.inr hfull)
    exact ⟨_, exec_reinGo b i hup, hcount, rfl, hsame⟩
  · intro i hup hroom hwait
    refine ⟨_, exec_reinGo true i hup, fun n ho hq => (qb_ownBroadcast i hroom hwait n.isLt ho hq).trans ?_,
      (Changes.reinGone true i s).pending_eq.trans (Changes.takeRein ..).pending_eq⟩
    rw [ownPayload_issuer]
    rfl

end Sys2Proof.Machine
end

