-- ==== Sys2Proof/Proofs/RunFrames.lean ====
section
/-!
PROOFS. What names the run in progress (R399 to R402), and that the steps of a run and of the timebase keep it.
-/
namespace Sys2Proof.Machine

/-! ### What names the run in progress -/

/-- A run's mode and whether a command asked for it, the start of the hold-off, and RUNNING of `FAB_ENSTAT`. -/
def runView (s : State) : Option (Nat × Bool) × Option Nat × Bool :=
  (s.fab.run.map (fun r => (r.mode, r.commanded)), s.fab.holdSince, bit Reg.FAB_ENSTAT_RUNNING s)

/-- Every part but the register file and the fabric's. -/
theorem runView_parts (s : State) (now ft free : Nat) (resp : Option Resp) (pins : Pins) (sys : SysState) (cms : CmsState) (xck : XckState) (imp : ImpState)
    (cpb : CpbState) (flt : FltState) (lnk : LnkState) (hst : HstState) (cnv : CnvState) (ctl : CtlState) (tbs : TbsState)
    (cal : CalState) (thm : ThmState) (bst : BstState) (pending : List Instr) :
    runView { s with
      now := now, ft := ft, free := free, resp := resp, pins := pins, sys := sys, cms := cms, xck := xck, imp := imp, cpb := cpb, flt := flt, lnk := lnk
      hst := hst, cnv := cnv, ctl := ctl, tbs := tbs, cal := cal, thm := thm, bst := bst, pending := pending } = runView s := (rfl)

theorem runView_of {s t : State} (hrun : t.fab.run = s.fab.run) (hhold : t.fab.holdSince = s.fab.holdSince)
    (hreg : reg t Reg.FAB_ENSTAT = reg s Reg.FAB_ENSTAT) : runView t = runView s := by
  rw [runView, hrun, hhold, bit_of_reg hreg, runView]

/-- A register other than `FAB_ENSTAT`. -/
theorem runView_setReg {a : Nat} (h : Reg.FAB_ENSTAT ≠ a) (v : Word) (s : State) : runView (setReg a v s) = runView s :=
  runView_of rfl rfl (reg_setReg_other h v s)

theorem runView_setF {f : Field} (h : Reg.FAB_ENSTAT ≠ f.addr) (v : Nat) (s : State) : runView (setF f v s) = runView s := runView_setReg h _ s
theorem runView_setB {f : Field} (h : Reg.FAB_ENSTAT ≠ f.addr) (b : Bool) (s : State) : runView (setB f b s) = runView s := runView_setReg h _ s
theorem runView_incSat {f : Field} (h : Reg.FAB_ENSTAT ≠ f.addr) (s : State) : runView (incSat f s) = runView s := runView_setReg h _ s
theorem runView_setRegBit {a : Nat} (h : Reg.FAB_ENSTAT ≠ a) (k : Nat) (b : Bool) (s : State) : runView (setRegBit a k b s) = runView s :=
  runView_setReg h _ s

theorem runView_foldl {α : Type} (f : State → α → State) (l : List α) (h : ∀ t x, runView (f t x) = runView t) (s : State) :
    runView (l.foldl f s) = runView s := by
  induction l generalizing s with
  | nil => rfl
  | cons x l ih => exact (ih (f s x)).trans (h s x)

theorem runView_pulse (src : Nat) (s : State) : runView (pulse src s) = runView s := by
  simp only [pulse, apply_ite runView, runView_parts, ite_self]

theorem runView_setEvt (b : EvtBlock) (bits : Nat) (s : State) : runView (setEvt b bits s) = runView s := by
  have h : Reg.FAB_ENSTAT ≠ b.evt := by cases b <;> decide
  unfold setEvt
  extract_lets old rep s1 e
  have h1 : runView s1 = runView s := runView_setReg h _ s
  split
  · exact h1
  · exact h1

theorem runView_useFree (s : State) : runView (useFree s) = runView s := (rfl)

/-! ### The host interface -/

theorem runView_dmaWrite (a : Nat) (bs : List Byte) (s : State) : runView (dmaWrite a bs s) = runView s := (rfl)

theorem runView_writeback (s : State) : runView (writeback s) = runView s := by
  simp only [writeback, apply_ite runView, runView_dmaWrite, runView_parts, ite_self]

theorem runView_message (v : Nat) (s : State) : runView (message v s) = runView s := by
  simp (disch := decide) only [message, sendVector, apply_ite runView, runView_setRegBit, runView_dmaWrite, runView_parts,
    runView_writeback, ite_self]

theorem runView_countEntry (r : Nat) (s : State) : runView (countEntry r s) = runView s := by
  simp only [countEntry, signalCounted, signalRing, apply_ite runView, runView_message, runView_parts, ite_self]

theorem runView_ringWrite (r n : Nat) (mk : Bool → List Byte) (s : State) : runView (ringWrite r n mk s) = runView s := by
  have h : Reg.FAB_ENSTAT ≠ (Reg.HST_RDIDX_DIDX r).addr := by simp only [Reg.FAB_ENSTAT, Reg.HST_RDIDX_DIDX, Reg.HST_RDIDX]; omega
  simp only [ringWrite, runView_countEntry, advanceRing, runView_parts, runView_setF h, runView_dmaWrite]

theorem runView_flushCompletions (k : Nat) (s : State) : runView (flushCompletions k s) = runView s := by
  induction k generalizing s with
  | zero => rfl
  | succ k ih =>
    unfold flushCompletions
    split
    · rfl
    · simp only [apply_ite runView, ih, runView_ringWrite, runView_parts, runView_dmaWrite, ite_self]

theorem runView_refreshOut (s : State) : runView (refreshOut s) = runView s := by
  simp (disch := decide) only [refreshOut, runView_setF]

theorem runView_finishHost (slot : Nat) (mk : HostCmd → HostDone) (s : State) : runView (finishHost slot mk s) = runView s := by
  unfold finishHost
  split
  · rfl
  · simp only [runView_refreshOut, runView_flushCompletions, apply_ite runView, runView_parts, ite_self]

/-! ### Frames and requests -/

theorem runView_enqueue (n input : Nat) (g : Frame) (s : State) : runView (enqueue n input g s) = runView s := by
  simp (disch := decide) only [enqueue, modPort, apply_ite runView, runView_incSat, runView_parts, ite_self]

theorem runView_sendRouted (f : Frame) (s : State) : runView (sendRouted f s) = runView s := by
  simp (disch := decide) only [sendRouted, apply_ite runView, runView_incSat, runView_enqueue, ite_self]

theorem runView_setEntry (id : Nat) (e : RouteEntry) (s : State) : runView (setEntry id e s) = runView s := (rfl)

theorem runView_modEntry (id : Nat) (f : RouteEntry → RouteEntry) (s : State) : runView (modEntry id f s) = runView s := (rfl)

theorem runView_applyHeld (id : Nat) (s : State) : runView (applyHeld id s) = runView s := by
  unfold applyHeld
  split
  · rfl
  · split <;> rfl

theorem runView_changeEntry (id : Nat) (e : RouteEntry) (s : State) : runView (changeEntry id e s) = runView s := by
  unfold changeEntry
  extract_lets old changes
  split <;> rfl

/-- A change of the run that leaves its mode and its origin. -/
theorem runView_modRun {f : EnumRun → EnumRun} (hm : ∀ r, (f r).mode = r.mode) (hc : ∀ r, (f r).commanded = r.commanded) (s : State) :
    runView (modRun f s) = runView s := by
  have hrun : (s.fab.run.map f).map (fun r => (r.mode, r.commanded)) = s.fab.run.map (fun r => (r.mode, r.commanded)) := by
    cases s.fab.run with
    | none => rfl
    | some r => simp [hm, hc]
  exact congrArg (·, s.fab.holdSince, bit Reg.FAB_ENSTAT_RUNNING s) hrun

theorem runView_sendRunReq (f : Frame) (tag : Nat) (s : State) : runView (sendRunReq f tag s) = runView s :=
  (runView_sendRouted ..).trans ((runView_refreshOut _).trans rfl)

theorem runView_runSend (s : State) : runView (runSend s) = runView s := by
  have hmod (f : EnumRun → EnumRun) (hm : ∀ r, (f r).mode = r.mode) (hc : ∀ r, (f r).commanded = r.commanded) := runView_modRun hm hc s
  unfold runSend
  split
  · rfl
  · split
    · rfl
    · split
      · split
        · exact (runView_sendRunReq ..).trans (hmod _ (fun _ => rfl) (fun _ => rfl))
        · rfl
      · split
        · exact hmod _ (fun _ => rfl) (fun _ => rfl)
        · exact (runView_sendRunReq ..).trans (hmod _ (fun _ => rfl) (fun _ => rfl))
        · rfl

theorem runView_runDone (r : Req) (good : Bool) (s : State) : runView (runDone r good s) = runView s := by
  unfold runDone
  apply runView_modRun
  · exact fun _ => rfl
  · exact fun _ => rfl

theorem runView_dropReq (r : Req) (s : State) : runView (dropReq r s) = runView s := by
  unfold dropReq
  split
  · exact (runView_refreshOut _).trans ((runView_applyHeld ..).trans rfl)
  · exact (runView_refreshOut _).trans rfl

theorem runView_finishReq (r : Req) (st : Status) (data : List Word) (tval : Nat) (cached : Bool) (epoch : Nat) (s : State) :
    runView (finishReq r st data tval cached epoch s) = runView s := by
  unfold finishReq
  split
  · exact (runView_runSend _).trans ((runView_finishHost ..).trans (runView_dropReq ..))
  · exact (runView_runSend _).trans ((runView_runDone ..).trans (runView_dropReq ..))

theorem runView_takeEpoch (id epoch : Nat) (s : State) : runView (takeEpoch id epoch s) = runView s := by
  unfold takeEpoch
  extract_lets e s1 fab1 s2
  have h2 : runView s2 = runView s := (runView_setEvt ..).trans rfl
  split
  · rfl
  · exact (runView_foldl _ _ (fun t r => runView_finishReq r _ _ _ _ _ t) s2).trans h2

/-! ### The timebase -/

theorem runView_planAbort (code : Nat) (s : State) : runView (planAbort code s) = runView s := by
  simp (disch := decide) only [planAbort, finishAbort, apply_ite runView, runView_setEvt, runView_pulse, runView_parts, runView_setF, runView_useFree,
    ite_self]

theorem runView_announce (s : State) : runView (announce s) = runView s :=
  runView_foldl _ _ (fun t n => by simp only [linkLocal, apply_ite runView, runView_enqueue, ite_self]) s

theorem runView_enterTb (code : Nat) (s : State) : runView (enterTb code s) = runView s := by
  simp (disch := decide) only [enterTb, runView_setB, runView_setF, runView_parts, apply_ite runView, runView_planAbort, ite_self]

theorem runView_takeParent (n h : Nat) (s : State) : runView (takeParent n h s) = runView s := by
  unfold takeParent
  split <;> simp (disch := decide) only [runView_announce, runView_enterTb, runView_setF, runView_parts]

theorem runView_enterHoldover (s : State) : runView (enterHoldover s) = runView s := by
  simp (disch := decide) only [enterHoldover, enterFreerun, apply_ite runView, runView_announce, runView_pulse, runView_setF, runView_enterTb,
    runView_parts, ite_self]

theorem runView_refreshRoot (s : State) : runView (refreshRoot s) = runView s := by
  unfold refreshRoot
  extract_lets r tbs1 s1
  have h1 : runView s1 = runView s := (runView_setB (by decide) _ _).trans (runView_parts ..)
  split
  · rfl
  · split
    · simp (disch := decide) only [runView_setB, runView_setF, runView_enterTb, runView_parts]
    · split
      · exact (runView_takeParent ..).trans h1
      · exact (runView_enterHoldover _).trans h1

/-! ### A run that goes on -/

theorem runView_runSends (s : State) : runView (runSends s) = runView s := runView_foldl _ _ (fun t _ => runView_runSend t) s

theorem runView_planRun (s : State) : runView (planRun s) = runView s := by
  unfold planRun
  split
  · next r hr =>
    split
    · rfl
    · extract_lets l
      apply runView_modRun
      · exact fun _ => rfl
      · exact fun _ => rfl
  · rfl

theorem runView_writeTable (r : EnumRun) (s : State) : runView (writeTable r s) = runView s := by
  unfold writeTable
  extract_lets l base gone entries s1 none'
  have h1 : runView s1 = runView s :=
    (runView_foldl _ _ (fun t e => (runView_changeEntry ..).trans (runView_takeEpoch ..)) _).trans (runView_foldl _ _ (fun t e => runView_changeEntry ..) s)
  have hnoalt : runView (setB Reg.FAB_ENSTAT_NOALT (!none'.isEmpty) s1) = runView s1 := by
    rw [runView, bit_setB_beside (by decide) (by decide), runView]
    rfl
  exact (runView_foldl _ _ (fun t _ => runView_pulse 103 t) _).trans (hnoalt.trans h1)

theorem runView_writeRun (s : State) : runView (writeRun s) = runView s := by
  unfold writeRun
  split
  · split
    · next r hr _ =>
      refine Eq.trans ?_ (runView_writeTable r s)
      apply runView_modRun
      · exact fun _ => rfl
      · exact fun _ => rfl
    · rfl
  · rfl

theorem runView_advanceRun (s : State) : runView (advanceRun s) = runView s := by
  rw [advanceRun, runView_runSends, runView_writeRun, runView_runSends, runView_planRun, runView_runSends]

/-- A run that starts without a command stands in progress (R399, R400). -/
theorem runView_beginRun (mode : Nat) (tk : Option Ticket) (s : State) :
    runView (beginRun mode tk false s) = (some (mode, false), s.fab.holdSince, true) := by
  unfold beginRun
  extract_lets s1 me todo r s2
  have hrunning : bit Reg.FAB_ENSTAT_RUNNING s2 = true := by
    simp only [s2]
    rw [bit_setB_beside (by decide) (by decide), bit_setF_beside (by decide) (by decide), bit_setB_beside (by decide) (by decide),
      bit_setB_same (by decide) rfl]
  rw [runView_advanceRun, runView_refreshRoot]
  exact congrArg (some (mode, false), s.fab.holdSince, ·) hrunning

end Sys2Proof.Machine
end

