-- ==== Sys2Proof/Proofs/HoofbeatNotices.lean ====
section
/-!
PROOFS. HOOF frames and the timers of the fabric (R387, R395, R399, R403, R406 to R408, R410, R414, R415).
-/
namespace Sys2Proof.Machine

/-! ### BEATs (R406) -/

/-- A frame of class A is broadcast on every open port or waits, and nothing else changes (R387, R389). -/
theorem Changes.broadcast_classA (ty : FrameType) (p : List Word) (s : State) : Changes [.lnk, .fab] (fun _ => False) s (Machine.broadcast ty .a p s) := by
  have hflood (g : Frame) (hg : g.cls = .a) (t : State) : Changes [.lnk] (fun _ => False) t (flood 4 g t) :=
    Changes.foldl _ _ (fun u n => .of_ite (Changes.enqueue_classA hg n 4 u) (Changes.refl ..)) t
  unfold Machine.broadcast originate
  split
  · exact ((Changes.withFab s _).trans (hflood _ rfl _)).mono (by simp) (by simp)
  · exact (Changes.withFab s _).mono (by simp) (by simp)

/-- What a port knows of its partner's BEATs. -/
def beatsOf (n : Nat) (s : State) : Bool × Nat := ((port n s).beatSeen, (port n s).beatAt)

theorem beatsOf_of_lnk {s t : State} (h : t.lnk = s.lnk) (n : Nat) : beatsOf n t = beatsOf n s := by rw [beatsOf, port_of_lnk h, beatsOf]

theorem beatsOf_enqueue {n : Nat} (hn : n < 4) (m input : Nat) (g : Frame) (s : State) : beatsOf n (enqueue m input g s) = beatsOf n s := by
  unfold enqueue
  extract_lets f q full
  split
  · exact beatsOf_of_lnk rfl n
  · rw [beatsOf, port_modPort m n hn]
    split
    · next h => subst h; cases f.cls <;> rfl
    · rfl

theorem beatsOf_broadcast {n : Nat} (hn : n < 4) (ty : FrameType) (cl : Cls) (p : List Word) (s : State) :
    beatsOf n (broadcast ty cl p s) = beatsOf n s := by
  have hflood (g : Frame) (t : State) : beatsOf n (flood 4 g t) = beatsOf n t := by
    unfold flood
    generalize List.range 4 = l
    induction l generalizing t with
    | nil => rfl
    | cons m rest ih =>
      refine (ih _).trans ?_
      dsimp only
      split
      · exact beatsOf_enqueue hn m 4 g t
      · rfl
  unfold broadcast originate
  split
  · exact hflood _ _
  · rfl

/-- The field of the partner's ID on a port (R422). -/
def partnerField (n : Nat) : Field := ⟨if n < 2 then Reg.FAB_PNODE01 else Reg.FAB_PNODE23, 16 * (n % 2), 16⟩

/-- The value of the field that a BEAT stores (R406). -/
def partnerValue (f : Frame) : Nat :=
  getBits (nth f.payload 0 0#32) 16 16 / 0x8000 * 0x8000 + getBits (nth f.payload 0 0#32) 16 16 % 1024

/-- A BEAT as it is stored: the sender's ID and the time (R406). -/
def beatStored (n : Nat) (f : Frame) (s : State) : State :=
  modPort n (fun p => { p with beatAt := s.now }) (setF (partnerField n) (partnerValue f) (takeInbox n f s))

theorem partnerId_eq (n : Nat) (s : State) :
    partnerId n s = (decide (0x8000 ≤ getF (partnerField n) s), getF (partnerField n) s % 1024) := rfl

theorem partnerValue_lt (f : Frame) : partnerValue f < 2 ^ 16 := by
  have h : getBits (nth f.payload 0 0#32) 16 16 < 2 ^ 16 := Nat.mod_lt _ (by decide)
  unfold partnerValue
  omega

/-- The parts of an ID and its validity, as they are stored. -/
theorem partnerValue_sender {f : Frame} (h : hoofSender f ≠ 1023) :
    0x8000 ≤ partnerValue f ∧ partnerValue f % 1024 = hoofSender f := by
  have hlt : getBits (nth f.payload 0 0#32) 16 16 < 2 ^ 16 := Nat.mod_lt _ (by decide)
  simp only [hoofSender] at h ⊢
  split at h
  · next hge =>
    rw [if_pos hge, partnerValue]
    omega
  · exact absurd rfl h

theorem Changes.takeInbox (n : Nat) (f : Frame) (s : State) : Changes [.fab] (fun _ => False) s (takeInbox n f s) := (reinCase_takeInbox n f s).changes

theorem Changes.beatStored (n : Nat) (f : Frame) (s : State) :
    Changes [.lnk, .fab] (oneOf [Reg.FAB_PNODE01, Reg.FAB_PNODE23]) s (beatStored n f s) := by
  refine (((Changes.takeInbox n f s).trans (Changes.setF (partnerField n) _ _)).trans (Changes.modPort n _ _)).mono (by simp) (fun a ha => ?_)
  have haddr : a = (partnerField n).addr := by simpa using ha
  rw [haddr, partnerField]
  dsimp only
  split <;> simp [oneOf]

theorem port_beatStored {n : Nat} (hn : n < 4) (f : Frame) (s : State) : port n (beatStored n f s) = { port n s with beatAt := s.now } := by
  rw [beatStored, port_modPort n n hn, if_pos rfl]
  exact congrArg (fun p : PortState => { p with beatAt := s.now }) (port_of_lnk ((Changes.takeInbox n f s).part_eq .lnk (by simp)) n)

/-- The partner of the port is known by the sender's ID. -/
theorem partnerId_beatStored {f : Frame} (h : hoofSender f ≠ 1023) (n : Nat) (s : State) : partnerId n (beatStored n f s) = (true, hoofSender f) := by
  obtain ⟨hvalid, hid⟩ := partnerValue_sender h
  have hfit : 16 * (n % 2) + 16 ≤ 32 := by omega
  have hfield : getF (partnerField n) (beatStored n f s) = partnerValue f :=
    (getF_setF_same (partnerField n) _ (Machine.takeInbox n f s) hfit).trans (Nat.mod_eq_of_lt (partnerValue_lt f))
  rw [partnerId_eq, hfield, hid, decide_eq_true hvalid]

/-- Another port's partner stays. -/
theorem partnerId_beatStored_other {m n : Fin 4} (h : m ≠ n) (f : Frame) (s : State) : partnerId m (beatStored n f s) = partnerId m s := by
  have hfield : getF (partnerField m) (beatStored n f s) = getF (partnerField m) (Machine.takeInbox n f s) := by
    have hne : m.val ≠ n.val := fun e => h (Fin.ext e)
    by_cases haddr : (partnerField m).addr = (partnerField n).addr
    · refine getF_setF_beside _ _ _ _ ?_ ?_
      · simp only [partnerField] at haddr ⊢
        split at haddr <;> split at haddr
        · omega
        · exact absurd haddr (by decide)
        · exact absurd haddr (by decide)
        · omega
      · simp only [partnerField]; omega
    · exact getF_setF_other _ _ _ _ haddr
  have hinbox : getF (partnerField m) (Machine.takeInbox n f s) = getF (partnerField m) s := getF_of_reg ((Changes.takeInbox n f s).reg_eq (by simp))
  rw [partnerId_eq, hfield, hinbox, partnerId_eq]

/-- The first BEAT since the port reached UP is noted (R406). -/
def beatFirst (n : Nat) (f : Frame) (s : State) : State := modPort n (fun p => { p with beatSeen := true }) (beatStored n f s)

theorem execBeatReceive_eq (n : Fin 4) (f : Frame) (s : State) : execBeatReceive n f s =
    if isHoof 0 f && linksRun s then
      if (port n (beatStored n f s)).beatSeen then .next (beatStored n f s) else .next (sendLinkup n (beatFirst n f s))
    else .next s := by
  have hreg (a : Nat) : reg (takeInbox n f s) a = reg s a := (Changes.takeInbox n f s).reg_eq (by simp)
  simp only [execBeatReceive, beatFirst, beatStored, setF, partnerField, partnerValue, hreg]

theorem exec_beatReceive_again (n : Fin 4) {f : Frame} {s : State} (hrun : linksRun s = true) (hf : isHoof 0 f = true)
    (hseen : (port n s).beatSeen = true) : exec (.beatReceive n f) s = .next (beatStored n f s) := by
  have hport : (port n (beatStored n f s)).beatSeen = true := by rw [port_beatStored n.isLt]; exact hseen
  change execBeatReceive n f s = _
  rw [execBeatReceive_eq, if_pos (by rw [hf, hrun]; rfl), if_pos hport]

theorem exec_beatReceive_first (n : Fin 4) {f : Frame} {s : State} (hrun : linksRun s = true) (hf : isHoof 0 f = true)
    (hseen : ¬ (port n s).beatSeen = true) : exec (.beatReceive n f) s = .next (sendLinkup n (beatFirst n f s)) := by
  have hport : ¬ (port n (beatStored n f s)).beatSeen = true := by rw [port_beatStored n.isLt]; exact hseen
  change execBeatReceive n f s = _
  rw [execBeatReceive_eq, if_pos (by rw [hf, hrun]; rfl), if_neg hport]

theorem Changes.sendLinkup (n : Nat) (s : State) : Changes [.lnk, .fab] (fun _ => False) s (sendLinkup n s) := Changes.broadcast_classA ..

theorem beatsOf_sendLinkup_beatFirst (n : Fin 4) (f : Frame) (s : State) : beatsOf n (sendLinkup n (beatFirst n f s)) = (true, s.now) := by
  refine (beatsOf_broadcast n.isLt _ _ _ _).trans ?_
  rw [beatsOf, beatFirst, port_modPort n n n.isLt, if_pos rfl, port_beatStored n.isLt]

/-- R406: a BEAT stores its sender and its time, and the first since UP marks the partner as heard. -/
theorem beatReceive_marks (n : Fin 4) {f : Frame} {s : State} (hrun : linksRun s = true) (hf : isHoof 0 f = true) :
    ∃ t, exec (.beatReceive n f) s = .next t ∧ (port n t).beatSeen = true ∧ (port n t).beatAt = s.now ∧
      (hoofSender f ≠ 1023 → partnerId n t = (true, hoofSender f)) ∧ Changes [.lnk, .fab] (oneOf [Reg.FAB_PNODE01, Reg.FAB_PNODE23]) s t := by
  have hport := port_beatStored n.isLt f s
  have hstored := Changes.beatStored n f s
  by_cases hseen : (port n s).beatSeen = true
  · exact ⟨_, exec_beatReceive_again n hrun hf hseen, by rw [hport]; exact hseen, by rw [hport], fun h => partnerId_beatStored h n s, hstored⟩
  · have hsend := (Changes.modPort n (fun p => { p with beatSeen := true }) (Machine.beatStored n f s)).trans (Changes.sendLinkup n (beatFirst n f s))
    have hbeats := beatsOf_sendLinkup_beatFirst n f s
    refine ⟨_, exec_beatReceive_first n hrun hf hseen, congrArg Prod.fst hbeats, congrArg Prod.snd hbeats, fun h => ?_,
      (hstored.trans hsend).mono (by simp) (by simp)⟩
    have hsame : getF (partnerField n) (Machine.sendLinkup n (beatFirst n f s)) = getF (partnerField n) (beatStored n f s) :=
      getF_of_reg (hsend.reg_eq (by simp))
    rw [← partnerId_beatStored h n s, partnerId_eq, hsame, partnerId_eq]

/-! ### Failover of a home set (R408) -/

/-- A set whose intact primary route is in use and is the one that fails: it is the only valid set, and its alternate is not touched. -/
def PrimaryFails (hit : List Nat → Bool) (k : Nat) (s : State) : Prop :=
  bit (Reg.FAB_HOME_HCTL_VALID k) s = true ∧ bit (Reg.FAB_HOME_HCTL_PFAIL k) s = false ∧ bit (Reg.FAB_HOME_HCTL_AFAIL k) s = false ∧
    bit (Reg.FAB_HOME_HCTL_USE k) s = false ∧ getF (Reg.FAB_HOME_HCTL_AHOP k) s ≠ 0 ∧ hit (homeLists k s).1 = true ∧ hit (homeLists k s).2 = false

/-- The set after its primary route has failed, with the failure reported. -/
def primaryFailed (k : Nat) (s : State) : State := pulse 101 (setB (Reg.FAB_HOME_HCTL_PFAIL k) true s)

/-- The alternate route is in use, and the switch is counted. -/
def homeSwitched (k : Nat) (s : State) : State := countSwitch (setB (Reg.FAB_HOME_HCTL_USE k) true (primaryFailed k s))

/-- The sessions of the set go on over the other route. -/
def homeResumed (k : Nat) (s : State) : State :=
  rewindSessions k { s with fab := { s.fab with planned := setNth s.fab.planned k none } }

theorem muted_route (s : State) : muted 101 s = false := by simp [muted]

theorem failHome_primary {hit : List Nat → Bool} {k : Nat} {s : State} (h : PrimaryFails hit k s) :
    failHome hit k s = homeResumed k (homeSwitched k s) := by
  obtain ⟨hvalid, hp, ha, huse, hhop, hhit, hmiss⟩ := h
  have hp' : bit (Reg.FAB_HOME_HCTL_PFAIL k) (primaryFailed k s) = true :=
    (bit_of_reg (reg_pulse ..)).trans (bit_setB_same (f := Reg.FAB_HOME_HCTL_PFAIL k) (Nat.le_of_ble_eq_true rfl) rfl true s)
  have ha' : bit (Reg.FAB_HOME_HCTL_AFAIL k) (primaryFailed k s) = false :=
    (bit_of_reg (reg_pulse ..)).trans ((bit_setB_beside (f := Reg.FAB_HOME_HCTL_PFAIL k) (.inr (Nat.le_of_ble_eq_true rfl)) (Nat.le_of_ble_eq_true rfl) true s).trans ha)
  have huse' : bit (Reg.FAB_HOME_HCTL_USE k) (primaryFailed k s) = false :=
    (bit_of_reg (reg_pulse ..)).trans ((bit_setB_beside (f := Reg.FAB_HOME_HCTL_PFAIL k) (.inl (Nat.le_of_ble_eq_true rfl)) (Nat.le_of_ble_eq_true rfl) true s).trans huse)
  unfold primaryFailed at hp' ha' huse'
  have hhop' : (getF (Reg.FAB_HOME_HCTL_AHOP k) s == 0) = false := by simp [hhop]
  simp only [failHome, hvalid, hhit, hmiss, hp, ha, hhop', Bool.not_true, Bool.not_false, Bool.false_eq_true, if_false, if_true, Bool.and_self, Bool.and_false,
    Bool.false_and, hp', ha', huse', Bool.or_false]
  rfl

/-- A set that is not valid has no route that could fail. -/
theorem failHome_invalid {k : Nat} {s : State} (h : bit (Reg.FAB_HOME_HCTL_VALID k) s = false) (hit : List Nat → Bool) : failHome hit k s = s := by
  simp only [failHome, h, Bool.not_false, if_true]

/-- The address of a set's status and control word is no other register's of a switch. -/
theorem hctl_ne (k : Fin 2) : Reg.FAB_HOME_HCTL k ≠ Reg.FAB_FOCNT ∧ Reg.FAB_HOME_HCTL k ≠ Reg.FAB_EVT := by
  revert k; decide

/-- The registers that a switch of a set's route changes hold neither this device's role nor the other set. -/
theorem switchRegs_others (k : Fin 2) : Reg.HST_STAT ∉ [Reg.FAB_HOME_HCTL k, Reg.FAB_FOCNT, Reg.FAB_EVT] ∧
    Reg.FAB_HOME_HCTL (1 - k) ∉ [Reg.FAB_HOME_HCTL k, Reg.FAB_FOCNT, Reg.FAB_EVT] := by
  revert k; decide

/-- What a failed primary route leaves. -/
def SwitchedHome (k : Nat) (s t : State) : Prop :=
  bit (Reg.FAB_HOME_HCTL_PFAIL k) t = true ∧ bit (Reg.FAB_HOME_HCTL_AFAIL k) t = false ∧ bit (Reg.FAB_HOME_HCTL_USE k) t = true ∧
    t.flt.waiting = s.flt.waiting ++ [101] ∧ regBit Reg.FAB_EVT 0 t = true ∧
    getF Reg.FAB_FOCNT_SWITCH t = min (getF Reg.FAB_FOCNT_SWITCH s + 1) 65535 ∧
    Changes [.fab, .flt] (oneOf [Reg.FAB_HOME_HCTL k, Reg.FAB_FOCNT, Reg.FAB_EVT]) s t

theorem Changes.countSwitch (s : State) : Changes [.fab] (oneOf [Reg.FAB_FOCNT, Reg.FAB_EVT]) s (countSwitch s) :=
  (((Changes.withFab s _).trans (Changes.incSat Reg.FAB_FOCNT_SWITCH _)).trans (Changes.setEvt .fab 1 _)).mono (by simp)
    (fun a ha => by simpa [oneOf, Reg.FAB_FOCNT_SWITCH, EvtBlock.evt] using ha)

theorem Changes.homeResumed (k : Nat) (s : State) : Changes [.fab] (fun _ => False) s (homeResumed k s) :=
  ((Changes.withFab s { s.fab with planned := setNth s.fab.planned k none }).trans (Changes.withFab _ _)).mono (by simp) (by simp)

/-- A status bit of a set after the switch of its route. -/
theorem hctl_homeSwitched (k : Fin 2) {f : Field} (hf : f.addr = Reg.FAB_HOME_HCTL k) (s : State) :
    bit f (homeSwitched k s) = bit f (setB (Reg.FAB_HOME_HCTL_USE k) true (setB (Reg.FAB_HOME_HCTL_PFAIL k) true s)) := by
  have hcount : reg (homeSwitched k s) f.addr = reg (setB (Reg.FAB_HOME_HCTL_USE k) true (primaryFailed k s)) f.addr :=
    (Changes.countSwitch _).reg_other (by rw [hf]; simpa using hctl_ne k)
  have hsame : bit f (setB (Reg.FAB_HOME_HCTL_USE k) true (primaryFailed k s)) =
      bit f (setB (Reg.FAB_HOME_HCTL_USE k) true (setB (Reg.FAB_HOME_HCTL_PFAIL k) true s)) := by
    refine bit_of_reg ?_
    have haddr : (Reg.FAB_HOME_HCTL_USE k).addr = f.addr := hf.symm
    simp only [setB, setF, haddr, reg_setReg_same, primaryFailed, reg_pulse]
  exact (bit_of_reg hcount).trans hsame

theorem homeSwitched_shows (k : Fin 2) {s : State} (ha : bit (Reg.FAB_HOME_HCTL_AFAIL k) s = false) : SwitchedHome k s (homeSwitched k s) := by
  have hfailed := Changes.pulse 101 (setB (Reg.FAB_HOME_HCTL_PFAIL k) true s)
  have hset := (Changes.setB (Reg.FAB_HOME_HCTL_PFAIL k) true s).trans hfailed
  have hch := (hset.trans (Changes.setB (Reg.FAB_HOME_HCTL_USE k) true _)).trans (Changes.countSwitch _)
  have hcnt (f : Field) (hf : f.addr = Reg.FAB_FOCNT) : getF f (setB (Reg.FAB_HOME_HCTL_USE k) true (primaryFailed k s)) = getF f s := by
    refine getF_of_reg ((reg_setB_other ?_ _ _).trans (hset.reg_eq ?_))
    · rw [hf]; exact (hctl_ne k).1.symm
    · rw [hf]
      rintro (h | h)
      · exact (hctl_ne k).1 h.symm
      · exact h
  refine ⟨?_, ?_, ?_, ?_, regBit_setEvt (b := .fab) (by decide) (by decide) _, ?_, hch.mono (by simp) (fun a h => ?_)⟩
  · rw [hctl_homeSwitched k rfl, bit_setB_beside (.inr (Nat.le_of_ble_eq_true rfl)) (Nat.le_of_ble_eq_true rfl)]
    exact bit_setB_same (f := Reg.FAB_HOME_HCTL_PFAIL k) (Nat.le_of_ble_eq_true rfl) rfl true s
  · rw [hctl_homeSwitched k rfl, bit_setB_beside (.inr (Nat.le_of_ble_eq_true rfl)) (Nat.le_of_ble_eq_true rfl), bit_setB_beside (.inr (Nat.le_of_ble_eq_true rfl)) (Nat.le_of_ble_eq_true rfl)]
    exact ha
  · rw [hctl_homeSwitched k rfl]
    exact bit_setB_same (f := Reg.FAB_HOME_HCTL_USE k) (Nat.le_of_ble_eq_true rfl) rfl true _
  · rw [homeSwitched, (Changes.countSwitch _).part_eq .flt (by simp), setB_flt, primaryFailed, pulse_waiting _ _ (muted_route _), setB_flt]
  · have hinc := getF_incSat Reg.FAB_FOCNT_SWITCH { setB (Reg.FAB_HOME_HCTL_USE k) true (primaryFailed k s) with
      fab := { (setB (Reg.FAB_HOME_HCTL_USE k) true (primaryFailed k s)).fab with
        switches := ((setB (Reg.FAB_HOME_HCTL_USE k) true (primaryFailed k s)).fab.switches + 1) % 65536 } } (by decide)
    refine (getF_of_reg ((Changes.setEvt .fab 1 _).reg_eq (by decide))).trans (hinc.trans ?_)
    rw [← hcnt Reg.FAB_FOCNT_SWITCH rfl]
    rfl
  · simpa [oneOf, Reg.FAB_HOME_HCTL_PFAIL, Reg.FAB_HOME_HCTL_USE, or_assoc] using h

/-- A state whose registers and sources are those of `s` leads to the same set. -/
theorem SwitchedHome.of {k : Nat} {s u v t : State} (h : SwitchedHome k u v) (hu : Changes [.fab] (fun _ => False) s u)
    (hv : Changes [.fab] (fun _ => False) v t) : SwitchedHome k s t := by
  obtain ⟨hp, ha, huse, hwait, hevt, hcount, hch⟩ := h
  have hflt : u.flt = s.flt := hu.part_eq .flt (by simp)
  have hswitch : getF Reg.FAB_FOCNT_SWITCH u = getF Reg.FAB_FOCNT_SWITCH s := getF_of_reg (hu.reg_eq (by simp))
  have hreg (a : Nat) : reg t a = reg v a := hv.reg_eq (by simp)
  refine ⟨(bit_of_reg (hreg _)).trans hp, (bit_of_reg (hreg _)).trans ha, (bit_of_reg (hreg _)).trans huse, ?_, ?_, ?_,
    ((hu.trans hch).trans hv).mono (by simp) (by simp)⟩
  · rw [hv.part_eq .flt (by simp), hwait, hflt]
  · rw [regBit, hreg]; exact hevt
  · rw [getF_of_reg (hreg _), hcount, hswitch]

theorem homeLists_of_reg {s t : State} (h : ∀ a, reg t a = reg s a) (k : Nat) : homeLists k t = homeLists k s := by
  have hf (f : Field) : getF f t = getF f s := getF_of_reg (h _)
  simp only [homeLists, h, hf]

theorem PrimaryFails.of_reg {hit : List Nat → Bool} {k : Nat} {s t : State} (h : PrimaryFails hit k s) (hreg : ∀ a, reg t a = reg s a) :
    PrimaryFails hit k t := by
  have hb (f : Field) : bit f t = bit f s := bit_of_reg (hreg _)
  have hg (f : Field) : getF f t = getF f s := getF_of_reg (hreg _)
  rw [PrimaryFails, hb, hb, hb, hb, hg, homeLists_of_reg hreg]
  exact h

/-- The held entries of a gateway's table are tested too (R402). -/
theorem failRoutes_noRole {hit : List Nat → Bool} {s : State} (h : hasRole (failHome hit 1 (failHome hit 0 s)) = false) :
    Changes [.fab] (fun _ => False) (failHome hit 1 (failHome hit 0 s)) (failRoutes hit s) := by
  unfold failRoutes
  extract_lets s0 fab1 s1
  have h1 : hasRole s1 = false := h
  rw [h1, if_neg (by simp)]
  exact Changes.withFab _ _

/-- R408: the failure of the one valid set's primary route. -/
theorem failRoutes_primary {hit : List Nat → Bool} (k : Fin 2) {s : State} (hr : hasRole s = false) (h : PrimaryFails hit k s)
    (hother : bit (Reg.FAB_HOME_HCTL_VALID (1 - k)) s = false) : SwitchedHome k s (failRoutes hit s) := by
  have hswitched := (homeSwitched_shows k h.2.2.1).of (Changes.refl [.fab] _ s) (Changes.homeResumed k _)
  have hch := hswitched.2.2.2.2.2.2
  have hrole : hasRole (homeResumed k (homeSwitched k s)) = false :=
    (bit_of_reg (hch.reg_other (switchRegs_others k).1)).trans hr
  have hhomes : failHome hit 1 (failHome hit 0 s) = homeResumed k (homeSwitched k s) := by
    have hinvalid : bit (Reg.FAB_HOME_HCTL_VALID (1 - k)) (homeResumed k (homeSwitched k s)) = false :=
      (bit_of_reg (hch.reg_other (switchRegs_others k).2)).trans hother
    match k with
    | 0 => exact (congrArg _ (failHome_primary h)).trans (failHome_invalid hinvalid hit)
    | 1 => exact (congrArg _ (failHome_invalid hother hit)).trans (failHome_primary h)
  exact hswitched.of (Changes.refl [.fab] _ s) (hhomes ▸ failRoutes_noRole (by rw [hhomes]; exact hrole))

theorem Changes.noteCut (a : Nat) (b : Option Nat) (s : State) : Changes [.fab] (fun _ => False) s (noteCut a b s) := by
  unfold Machine.noteCut
  split
  · exact Changes.withFab ..
  · exact Changes.refl ..

/-- A link or a node named in a frame fails the set's route. -/
theorem failLink_primary (k : Fin 2) (a : Nat) (b : Option Nat) {s u : State} (hu : Changes [.fab] (fun _ => False) s u) (hr : hasRole s = false)
    (h : PrimaryFails (cutHits a b) k s) (hother : bit (Reg.FAB_HOME_HCTL_VALID (1 - k)) s = false) : SwitchedHome k s (failLink a b u) := by
  have hcut := (hu.trans (Changes.noteCut a b u)).mono (qs := [.fab]) (by simp) (rs' := fun _ => False) (by simp)
  have hreg (x : Nat) : reg (Machine.noteCut a b u) x = reg s x := hcut.reg_eq (by simp)
  exact (failRoutes_primary k ((bit_of_reg (hreg _)).trans hr) (h.of_reg hreg) ((bit_of_reg (hreg _)).trans hother)).of hcut (Changes.refl ..)

theorem exec_linkdownReceive (n : Fin 4) {f : Frame} {s : State} (hrun : linksRun s = true) (hf : isHoof 2 f = true) :
    exec (.linkdownReceive n f) s = .next (failLink (hoofSender f) (some (hoofPartner f)) (takeInbox n f s)) := by
  change execLinkdownReceive n f s = _
  rw [execLinkdownReceive, if_pos (by rw [hf, hrun]; rfl)]

theorem exec_leaveReceive (n : Fin 4) {f : Frame} {s : State} (hrun : linksRun s = true) (hf : isHoof 4 f = true) :
    exec (.leaveReceive n f) s = .next (if hoofListed f then failLink (hoofSender f) none (takeInbox n f s) else takeInbox n f s) := by
  change execLeaveReceive n f s = _
  rw [execLeaveReceive, if_pos (by rw [hf, hrun]; rfl)]

/-! ### LINKUP and ROLEEND (R399, R414) -/

/-- R399: a LINKUP restarts the hold-off of a gateway alone. -/
theorem linkupReceive_restarts (n : Fin 4) {f : Frame} {s : State} (hrun : linksRun s = true) (hf : isHoof 3 f = true) :
    ∃ t, exec (.linkupReceive n f) s = .next t ∧ t.fab.holdSince = (if hasRole s then some s.now else s.fab.holdSince) ∧
      Changes [.fab] (fun _ => False) s t := by
  have hin := Changes.takeInbox n f s
  have hrole : hasRole (takeInbox n f s) = hasRole s := bit_of_reg (hin.reg_eq (by simp))
  have hhold : (takeInbox n f s).fab.holdSince = s.fab.holdSince := by
    unfold takeInbox
    split <;> rfl
  have hexec : exec (.linkupReceive n f) s = .next (if hasRole (takeInbox n f s) then { takeInbox n f s with
      fab := { (takeInbox n f s).fab with holdSince := some (takeInbox n f s).now } } else takeInbox n f s) := by
    change execLinkupReceive n f s = _
    rw [execLinkupReceive, if_pos (by rw [hf, hrun]; rfl)]
  refine ⟨_, hexec, ?_, ?_⟩
  · rw [hrole]
    split
    · exact congrArg some (hin.part_eq .now (by simp))
    · exact hhold
  · split
    · exact (hin.trans (Changes.withFab _ _)).mono (by simp) (by simp)
    · exact hin

theorem assoc_map {β : Type} (g : β → β) (k : Nat) (l : List (Nat × β)) : assoc k (l.map (fun e => (e.1, g e.2))) = (assoc k l).map g := by
  induction l with
  | nil => rfl
  | cons e rest ih =>
    obtain ⟨a, v⟩ := e
    simp only [List.map_cons, assoc]
    split
    · rfl
    · exact ih

/-- A session that is open is one of those that a change of every session reaches. -/
theorem sessionOf_mapSessions {k : Nat} {s : State} (h : (sessionOf k s).state ≠ 0) (g : Session → Session) :
    sessionOf k (mapSessions g s) = g (sessionOf k s) := by
  have hassoc := assoc_map g k s.fab.sessions
  cases hk : assoc k s.fab.sessions with
  | none =>
    rw [sessionOf, hk] at h
    exact absurd rfl h
  | some e =>
    rw [hk] at hassoc
    rw [sessionOf, sessionOf, hk]
    exact congrArg (·.getD Session.none) hassoc

/-- R414: a ROLEEND suspends an open session to its gateway. -/
theorem roleendReceive_suspends (n : Fin 4) {f : Frame} {k g : Nat} {s : State} (hrun : linksRun s = true) (hf : isHoof 5 f = true)
    (hset : homeSet (hoofSender f) s = some g) (hgw : (sessionOf k s).gw = g) (hopen : (sessionOf k s).state = 1) :
    ∃ t, exec (.roleendReceive n f) s = .next t ∧ sessionOf k t = { sessionOf k s with state := 2 } ∧ Changes [.fab] (fun _ => False) s t := by
  have hin := Changes.takeInbox n f s
  have hset' : homeSet (hoofSender f) (takeInbox n f s) = some g := by
    have hb (x : Field) : bit x (takeInbox n f s) = bit x s := bit_of_reg (hin.reg_eq (by simp))
    have hg (x : Field) : getF x (takeInbox n f s) = getF x s := getF_of_reg (hin.reg_eq (by simp))
    rw [← hset]
    simp only [homeSet, hb, hg]
  have hsession : sessionOf k (takeInbox n f s) = sessionOf k s := by
    unfold takeInbox
    split <;> rfl
  have hexec : exec (.roleendReceive n f) s = .next (suspendSessions g (takeInbox n f s)) := by
    change execRoleendReceive n f s = _
    rw [execRoleendReceive, if_pos (by rw [hf, hrun]; rfl)]
    simp only [hset']
  refine ⟨_, hexec, ?_, (hin.trans (Changes.withFab _ _)).mono (by simp) (by simp)⟩
  rw [suspendSessions, sessionOf_mapSessions (by rw [hsession, hopen]; decide), hsession, if_pos ⟨hgw, hopen⟩]

/-! ### STATUS reports at a gateway (R406, R407, R415) -/

theorem assoc_tablePut (id b : Nat) (e : RouteEntry) (l : List (Nat × RouteEntry)) :
    (assoc b (tablePut id e l)).getD RouteEntry.empty = if b = id then e else (assoc b l).getD RouteEntry.empty := by
  unfold tablePut
  split
  · next he =>
    rw [assoc_assocErase, he]
    split <;> rfl
  · rw [assoc_assocPut]
    split <;> rfl

theorem entryOf_modEntry (id : Nat) (g : RouteEntry → RouteEntry) (s : State) : entryOf id (modEntry id g s) = g (entryOf id s) :=
  (assoc_tablePut id id _ _).trans (if_pos rfl)

theorem Changes.modEntry (id : Nat) (g : RouteEntry → RouteEntry) (s : State) : Changes [.fab] (fun _ => False) s (modEntry id g s) :=
  ((Changes.withFab s _).trans (Changes.withFab _ _)).mono (by simp) (by simp)

/-- An entry as a STATUS report renews it (R406, R407). -/
def statusHeard (f : Frame) (x : RouteEntry) : RouteEntry :=
  { x with flags := getBits (nth f.payload 0 0#32) 8 8, miss := 0, state := if x.state = 3 then 1 else x.state }

theorem entryOf_takeInbox (id n : Nat) (f : Frame) (s : State) : entryOf id (takeInbox n f s) = entryOf id s := by
  unfold takeInbox
  split <;> rfl

theorem exec_statusReceive (n : Fin 4) {f : Frame} {s : State} (hrun : linksRun s = true) (hrole : hasRole s = true) (hf : isHoof 1 f = true)
    (hstate : (entryOf (hoofSender f) s).state ≠ 0) : exec (.statusReceive n f) s =
    .next (takeEpoch (hoofSender f) f.epoch (modEntry (hoofSender f) (statusHeard f) (takeInbox n f s))) := by
  have hrole' : hasRole (takeInbox n f s) = true := (bit_of_reg ((Changes.takeInbox n f s).reg_eq (by simp))).trans hrole
  change execStatusReceive n f s = _
  rw [execStatusReceive, if_pos (by rw [hf, hrun]; rfl)]
  simp only [entryOf_takeInbox, hrole', Bool.true_and]
  rw [if_pos (by simpa using hstate)]
  rfl

theorem entryOf_heard (n : Fin 4) (f : Frame) (s : State) :
    entryOf (hoofSender f) (modEntry (hoofSender f) (statusHeard f) (takeInbox n f s)) = statusHeard f (entryOf (hoofSender f) s) := by
  rw [entryOf_modEntry, entryOf_takeInbox]

/-- R407: a STATUS report of the epoch known renews the entry alone. -/
theorem statusReceive_renews (n : Fin 4) {f : Frame} {s : State} (hrun : linksRun s = true) (hrole : hasRole s = true) (hf : isHoof 1 f = true)
    (hstate : (entryOf (hoofSender f) s).state ≠ 0) (hepoch : (entryOf (hoofSender f) s).epoch = f.epoch) :
    ∃ t, exec (.statusReceive n f) s = .next t ∧ entryOf (hoofSender f) t = statusHeard f (entryOf (hoofSender f) s) ∧
      Changes [.fab] (fun _ => False) s t := by
  have hheard := entryOf_heard n f s
  have hsame : takeEpoch (hoofSender f) f.epoch (modEntry (hoofSender f) (statusHeard f) (takeInbox n f s)) =
      modEntry (hoofSender f) (statusHeard f) (takeInbox n f s) := by
    rw [takeEpoch, hheard]
    exact if_pos (.inr hepoch)
  refine ⟨_, exec_statusReceive n hrun hrole hf hstate, ?_, ?_⟩
  · rw [hsame, hheard]
  · rw [hsame]
    exact ((Changes.takeInbox n f s).trans (Changes.modEntry ..)).mono (by simp) (by simp)

/-- An entry takes another epoch, and the event is set (R415). -/
def epochNoted (id epoch : Nat) (s : State) : State :=
  setEvt .fab 16 { modEntry id (fun x => { x with epoch := epoch }) s with
    fab := { (modEntry id (fun x => { x with epoch := epoch }) s).fab with
      epochChanges := (modEntry id (fun x => { x with epoch := epoch }) s).fab.epochChanges + 1 } }

/-- With no request outstanding, another epoch is taken, and nothing more. -/
theorem takeEpoch_noted {id epoch : Nat} {s : State} (hstate : (entryOf id s).state ≠ 0) (hepoch : (entryOf id s).epoch ≠ epoch)
    (hreqs : s.fab.reqs = []) : takeEpoch id epoch s = epochNoted id epoch s := by
  have hnone : (epochNoted id epoch s).fab.reqs = [] := by
    unfold epochNoted setEvt
    dsimp only
    split
    · exact hreqs
    · exact hreqs
  have hend : takeEpoch id epoch s = endRequestsTo id .nodeReset 0 (epochNoted id epoch s) := if_neg (by simp [hstate, hepoch])
  rw [hend, endRequestsTo, hnone]
  rfl

/-- An event of a block changes, of the fabric's part, what waits for its EVENT frame alone. -/
theorem fab_setEvt (b : EvtBlock) (bits : Nat) (s : State) : ∃ l, (setEvt b bits s).fab = { s.fab with evPend := l } := by
  unfold setEvt
  dsimp only
  split
  · exact ⟨s.fab.evPend, rfl⟩
  · exact ⟨_, rfl⟩

theorem epochNoted_shows (id epoch : Nat) (s : State) :
    entryOf id (epochNoted id epoch s) = { entryOf id s with epoch := epoch } ∧ regBit Reg.FAB_EVT 4 (epochNoted id epoch s) = true ∧
      (epochNoted id epoch s).fab.epochChanges = s.fab.epochChanges + 1 ∧ (epochNoted id epoch s).pending = s.pending := by
  obtain ⟨l, hfab⟩ := fab_setEvt .fab 16 { modEntry id (fun x => { x with epoch := epoch }) s with
    fab := { (modEntry id (fun x => { x with epoch := epoch }) s).fab with
      epochChanges := (modEntry id (fun x => { x with epoch := epoch }) s).fab.epochChanges + 1 } }
  refine ⟨?_, regBit_setEvt (b := .fab) (by decide) (by decide) _, ?_, ?_⟩
  · rw [entryOf, epochNoted, hfab]
    exact entryOf_modEntry id (fun x => { x with epoch := epoch }) s
  · rw [epochNoted, hfab]
    rfl
  · rw [epochNoted, setEvt_pending]
    rfl

/-- R415: a STATUS report of another epoch gives it to the entry. -/
theorem statusReceive_epoch (n : Fin 4) {f : Frame} {s : State} (hrun : linksRun s = true) (hrole : hasRole s = true) (hf : isHoof 1 f = true)
    (hstate : (entryOf (hoofSender f) s).state ≠ 0) (hepoch : (entryOf (hoofSender f) s).epoch ≠ f.epoch) (hreqs : s.fab.reqs = []) :
    ∃ t, exec (.statusReceive n f) s = .next t ∧ (entryOf (hoofSender f) t).epoch = f.epoch ∧ (entryOf (hoofSender f) t).miss = 0 ∧
      regBit Reg.FAB_EVT 4 t = true ∧ t.fab.epochChanges = s.fab.epochChanges + 1 ∧ t.pending = s.pending := by
  have hheard := entryOf_heard n f s
  have hin : ∃ l, (takeInbox n f s).fab = { s.fab with inbox := l } := by
    unfold takeInbox
    split
    · exact ⟨_, rfl⟩
    · exact ⟨s.fab.inbox, rfl⟩
  obtain ⟨l, hl⟩ := hin
  have hreqs' : (modEntry (hoofSender f) (statusHeard f) (takeInbox n f s)).fab.reqs = [] := by
    change (takeInbox n f s).fab.reqs = []
    rw [hl]; exact hreqs
  have hcount : (modEntry (hoofSender f) (statusHeard f) (takeInbox n f s)).fab.epochChanges = s.fab.epochChanges := by
    change (takeInbox n f s).fab.epochChanges = s.fab.epochChanges
    rw [hl]
  have hstate' : (statusHeard f (entryOf (hoofSender f) s)).state ≠ 0 := by
    unfold statusHeard
    dsimp only
    split
    · decide
    · exact hstate
  obtain ⟨hentry, hevt, hchanges, hpending⟩ := epochNoted_shows (hoofSender f) f.epoch (modEntry (hoofSender f) (statusHeard f) (takeInbox n f s))
  refine ⟨_, exec_statusReceive n hrun hrole hf hstate, ?_⟩
  rw [takeEpoch_noted (by rw [hheard]; exact hstate') (by rw [hheard]; exact hepoch) hreqs']
  refine ⟨by rw [hentry], by rw [hentry, hheard]; rfl, hevt, hchanges.trans (by rw [hcount]), hpending.trans (Changes.takeInbox n f s).pending_eq⟩

/-- An entry whose STATUS report is missed (R407). -/
def statusLacking (x : RouteEntry) : RouteEntry :=
  { x with miss := min (x.miss + 1) 255, state := if 3 ≤ min (x.miss + 1) 255 ∧ x.state = 1 then 3 else x.state }

theorem exec_statusMissed (id : Fin 1023) {s : State} (hrole : hasRole s = true) (hstate : (entryOf id s).state = 1 ∨ (entryOf id s).state = 3) :
    exec (.statusMissed id) s = .next (if (statusLacking (entryOf id s)).state ≠ (entryOf id s).state
      then setEvt .fab 8 (pulse 100 (modEntry id statusLacking s)) else modEntry id statusLacking s) := by
  have hgo : (hasRole s && ((entryOf id s).state == 1 || (entryOf id s).state == 3)) = true := by
    rw [hrole]
    simpa using hstate
  change execStatusMissed id s = _
  unfold execStatusMissed
  extract_lets e s1
  have he : entryOf id s1 = statusLacking (entryOf id s) := entryOf_modEntry id statusLacking s
  rw [if_pos hgo, he]
  rfl

/-- R407: the third report missed makes the entry SILENT. -/
theorem statusMissed_third (id : Fin 1023) {s : State} (hrole : hasRole s = true) (hstate : (entryOf id s).state = 1) (hmiss : (entryOf id s).miss = 2) :
    ∃ t, exec (.statusMissed id) s = .next t ∧ (entryOf id t).miss = 3 ∧ (entryOf id t).state = 3 ∧ t.flt.waiting = s.flt.waiting ++ [100] ∧
      regBit Reg.FAB_EVT 3 t = true ∧ Changes [.fab, .flt] (oneOf [Reg.FAB_EVT]) s t := by
  have hlack : (statusLacking (entryOf id s)).miss = 3 ∧ (statusLacking (entryOf id s)).state = 3 := by
    simp only [statusLacking, hmiss, hstate]
    decide
  obtain ⟨hm, hs⟩ := hlack
  have hentry : entryOf id (setEvt .fab 8 (pulse 100 (modEntry id statusLacking s))) = statusLacking (entryOf id s) := by
    obtain ⟨l, hfab⟩ := fab_setEvt .fab 8 (pulse 100 (modEntry id statusLacking s))
    rw [entryOf, hfab, (Changes.pulse 100 _).part_eq .fab (by simp)]
    exact entryOf_modEntry id statusLacking s
  refine ⟨setEvt .fab 8 (pulse 100 (modEntry id statusLacking s)), ?_, by rw [hentry, hm], by rw [hentry, hs], ?_,
    regBit_setEvt (b := .fab) (by decide) (by decide) _, ?_⟩
  · rw [exec_statusMissed id hrole (.inl hstate), if_pos (by rw [hs, hstate]; decide)]
  · rw [setEvt_flt, pulse_waiting _ _ (by simp [muted])]
    rfl
  · exact (((Changes.modEntry id statusLacking s).trans (Changes.pulse 100 _)).trans (Changes.setEvt .fab 8 _)).mono (by simp)
      (fun a ha => by simpa [oneOf, EvtBlock.evt] using ha)

/-- R407: any other report missed only counts. -/
theorem statusMissed_counts (id : Fin 1023) {s : State} (hrole : hasRole s = true)
    (h : (entryOf id s).state = 1 ∧ (entryOf id s).miss < 2 ∨ (entryOf id s).state = 3) :
    ∃ t, exec (.statusMissed id) s = .next t ∧ entryOf id t = { entryOf id s with miss := min ((entryOf id s).miss + 1) 255 } ∧
      Changes [.fab] (fun _ => False) s t := by
  have hlack : statusLacking (entryOf id s) = { entryOf id s with miss := min ((entryOf id s).miss + 1) 255 } := by
    unfold statusLacking
    rw [if_neg (by omega)]
  have hstate : (entryOf id s).state = 1 ∨ (entryOf id s).state = 3 := h.imp And.left fun h3 => h3
  refine ⟨modEntry id statusLacking s, ?_, (entryOf_modEntry id statusLacking s).trans hlack, Changes.modEntry ..⟩
  rw [exec_statusMissed id hrole hstate, if_neg (by rw [hlack]; simp)]

/-! ### What the fabric's timers end -/

theorem exec_broadcastPairExpiry (src : Fin 1024) (tag : Fin 256) (s : State) : exec (.broadcastPairExpiry src tag) s =
    .next { s with fab := { s.fab with
      bpairs := s.fab.bpairs.filter (fun e => !(e.1 == src.val && e.2.1 == tag.val && decide (e.2.2 + 2000000 ≤ s.now))) } } := rfl

/-- R387: a pair that has been kept for 2 ms goes, and no other. -/
theorem broadcastPairExpiry_due (src : Fin 1024) (tag : Fin 256) {u : Nat} {s : State} (hu : u + 2000000 ≤ s.now) :
    ∃ t, exec (.broadcastPairExpiry src tag) s = .next t ∧ (src.val, tag.val, u) ∉ t.fab.bpairs ∧
      (∀ p : Nat × Nat × Nat, (p.1, p.2.1) ≠ (src.val, tag.val) → (p ∈ t.fab.bpairs ↔ p ∈ s.fab.bpairs)) ∧ Changes [.fab] (fun _ => False) s t := by
  refine ⟨_, exec_broadcastPairExpiry src tag s, ?_, fun p hp => ?_, Changes.withFab ..⟩
  · simp [hu]
  · have hkeep : ¬ (p.1 = src.val ∧ p.2.1 = tag.val) := fun ⟨h1, h2⟩ => hp (by rw [h1, h2])
    simp only [List.mem_filter, Bool.not_eq_true', Bool.and_eq_false_iff, beq_eq_false_iff_ne, decide_eq_false_iff_not]
    tauto

/-- R387: none goes before. -/
theorem broadcastPairExpiry_early (src : Fin 1024) (tag : Fin 256) {s : State}
    (h : ∀ p, p ∈ s.fab.bpairs → (p.1, p.2.1) = (src.val, tag.val) → s.now < p.2.2 + 2000000) :
    ∃ t, exec (.broadcastPairExpiry src tag) s = .next t ∧ t.fab.bpairs = s.fab.bpairs ∧ Changes [.fab] (fun _ => False) s t := by
  refine ⟨_, exec_broadcastPairExpiry src tag s, List.filter_eq_self.2 fun p hp => ?_, Changes.withFab ..⟩
  have hp' := h p hp
  simp only [Bool.not_eq_true', Bool.and_eq_false_iff, beq_eq_false_iff_ne, decide_eq_false_iff_not, Nat.not_le]
  by_cases h1 : p.1 = src.val
  · by_cases h2 : p.2.1 = tag.val
    · exact .inr (hp' (by rw [h1, h2]))
    · exact .inl (.inr h2)
  · exact .inl (.inl h1)

/-- The entries of a list that is filled up with the default are the default. -/
theorem nth_setNth_default {α : Type} [Inhabited α] (l : List α) {i j : Nat} (h : j ≠ i) (v : α) :
    nth (setNth l i v) j default = nth l j default := by
  induction i generalizing l j with
  | zero =>
    obtain ⟨j, rfl⟩ := Nat.exists_eq_succ_of_ne_zero h
    cases l <;> simp [nth, setNth]
  | succ i ih =>
    cases l with
    | nil =>
      cases j with
      | zero => rfl
      | succ j => simpa [nth, setNth] using ih [] (j := j) (by omega)
    | cons a t =>
      cases j with
      | zero => rfl
      | succ j => simpa [nth, setNth] using ih t (j := j) (by omega)

/-- R403: a planned switch ends 200 µs after the last acknowledgement. -/
theorem plannedSwitchResume_due (k : Fin 2) {u : Nat} {s : State} (hout : streamsOut k s = false) (hu : nth s.fab.planned k none = some u)
    (hdue : u + 200000 ≤ s.now) : ∃ t, exec (.plannedSwitchResume k) s = .next t ∧ nth t.fab.planned k none = none ∧
      nth t.fab.planned (1 - k) none = nth s.fab.planned (1 - k) none ∧ Changes [.fab] (fun _ => False) s t := by
  have hexec : exec (.plannedSwitchResume k) s = .next { s with fab := { s.fab with planned := setNth s.fab.planned k none } } := by
    change execPlannedSwitchResume k s = _
    have hus : u + 200 * us ≤ s.now := hdue
    rw [execPlannedSwitchResume, hout, hu, if_pos (by simp [hus])]
  refine ⟨_, hexec, nth_setNth_same .., nth_setNth_default s.fab.planned ?_ none, Changes.withFab ..⟩
  omega

theorem plannedSwitchResume_held (k : Fin 2) {s : State} (h : streamsOut k s = true ∨ ∃ u, nth s.fab.planned k none = some u ∧ s.now < u + 200000) :
    exec (.plannedSwitchResume k) s = .next s := by
  refine if_neg fun hgo => ?_
  simp only [Bool.and_eq_true, Bool.not_eq_true'] at hgo
  obtain ⟨hfree, hdue⟩ := hgo
  obtain hout | ⟨u, hu, hlt⟩ := h
  · simp [hout] at hfree
  · rw [hu, Option.any_some, decide_eq_true_iff] at hdue
    have hus : u + 200000 ≤ s.now := hdue
    omega

theorem exec_tagRelease (tag : Fin 256) {s : State} (hrun : s.fab.run = none) : exec (.tagRelease tag) s =
    .next { s with fab := { s.fab with
      tagsHeld := s.fab.tagsHeld.filter (fun h => !(h.1 == tag.val && decide (h.2 + getF Reg.FAB_TCFG_TMO s * 100000 ≤ s.now))) } } := by
  change execTagRelease tag s = _
  have htime : getF Reg.FAB_TCFG_TMO s * 100 * us = getF Reg.FAB_TCFG_TMO s * 100000 := Nat.mul_assoc _ 100 1000
  unfold execTagRelease runSend
  rw [htime]
  simp only [hrun]

/-- R395: a TAG is free again TMO after its timeout. -/
theorem tagRelease_due (tag : Fin 256) {u : Nat} {s : State} (hrun : s.fab.run = none) (hu : u + getF Reg.FAB_TCFG_TMO s * 100000 ≤ s.now) :
    ∃ t, exec (.tagRelease tag) s = .next t ∧ (tag.val, u) ∉ t.fab.tagsHeld ∧
      (∀ x : Nat × Nat, x.1 ≠ tag.val → (x ∈ t.fab.tagsHeld ↔ x ∈ s.fab.tagsHeld)) ∧ Changes [.fab] (fun _ => False) s t := by
  refine ⟨_, exec_tagRelease tag hrun, ?_, fun x hx => ?_, Changes.withFab ..⟩
  · simp [hu]
  · simp [List.mem_filter, hx]

theorem tagRelease_early (tag : Fin 256) {s : State} (hrun : s.fab.run = none)
    (h : ∀ x, x ∈ s.fab.tagsHeld → x.1 = tag.val → s.now < x.2 + getF Reg.FAB_TCFG_TMO s * 100000) :
    ∃ t, exec (.tagRelease tag) s = .next t ∧ t.fab.tagsHeld = s.fab.tagsHeld ∧ Changes [.fab] (fun _ => False) s t := by
  refine ⟨_, exec_tagRelease tag hrun, List.filter_eq_self.2 fun x hx => ?_, Changes.withFab ..⟩
  have hx' := h x hx
  simp only [Bool.not_eq_true', Bool.and_eq_false_iff, beq_eq_false_iff_ne, decide_eq_false_iff_not, Nat.not_le]
  by_cases h1 : x.1 = tag.val
  · exact .inr (hx' h1)
  · exact .inl h1

/-- R399, R410: the end of the hold-off starts a recover run. -/
theorem enumHoldExpiry_due {u : Nat} {s : State} (hu : s.fab.holdSince = some u) (hdue : u + getF Reg.FAB_ENCFG_HOLD s * 10 * ms ≤ s.now)
    (hrole : hasRole s = true) (hid : bit Reg.FAB_ID_VALID s = false) (hrun : s.fab.run = none) (hbusy : s.sys.ctlBusy = false)
    (hrom : bit Reg.BST_CTLSTAT_ROMBAD s = false) : ∃ t, exec .enumHoldExpiry s = .next t ∧ runView t = (some (3, false), none, true) ∧
      t.pending = s.pending := by
  have hauto : autoRun 3 { s with fab := { s.fab with holdSince := none } } = beginRun 3 none false { s with fab := { s.fab with holdSince := none } } := by
    refine if_pos ?_
    change (hasRole s && !bit Reg.FAB_ID_VALID s && s.fab.run.isNone && !s.sys.ctlBusy && !bit Reg.BST_CTLSTAT_ROMBAD s) = true
    simp [hrole, hid, hrun, hbusy, hrom]
  refine ⟨autoRun 3 { s with fab := { s.fab with holdSince := none } }, ?_, ?_, ?_⟩
  · change execEnumHoldExpiry s = _
    rw [execEnumHoldExpiry, hu, Option.any_some, decide_eq_true hdue, if_pos rfl]
  · rw [hauto, runView_beginRun]
  · exact (kept_autoRun (kept_update (Kept.refl s)) 3).pending

theorem enumHoldExpiry_early {u : Nat} {s : State} (hu : s.fab.holdSince = some u) (h : s.now < u + getF Reg.FAB_ENCFG_HOLD s * 10 * ms) :
    exec .enumHoldExpiry s = .next s := by
  refine if_neg ?_
  rw [hu, Option.any_some, decide_eq_true_iff]
  omega

/-- Settles O37: each notice changes what it names, and each timer ends what it holds and nothing sooner. -/
theorem hoofbeatNotices : Obligations.HoofbeatNotices := by
  unfold Obligations.HoofbeatNotices
  intro s runs only failing failed
  have honly {t : State} (h : Changes [.fab] (fun _ => False) s t) : only [] t := h.mono (by simp) (by simp)
  refine ⟨?_, ?_, ?_, ?_, ?_, ?_, ?_, ?_, ?_, ?_, ?_, ?_, ?_, ?_, ?_, ?_, ?_, ?_, ?_, ?_⟩
  · intro n f hrun hf hseen
    exact ⟨_, exec_beatReceive_again n hrun hf hseen, fun h => partnerId_beatStored h n s, fun m hm => partnerId_beatStored_other hm f s,
      port_beatStored n.isLt f s, Changes.beatStored n f s⟩
  · intro n f hrun hf
    exact beatReceive_marks n hrun hf
  · rintro n f k ⟨hrun, hrole, hvalid, hother, hrest⟩ hf
    exact ⟨_, exec_linkdownReceive n hrun hf, failLink_primary k _ _ (Changes.takeInbox n f s) hrole ⟨hvalid, hrest⟩ hother⟩
  · rintro n f k ⟨hrun, hrole, hvalid, hother, hrest⟩ hf hlisted
    refine ⟨_, exec_leaveReceive n hrun hf, ?_⟩
    rw [if_pos hlisted]
    exact failLink_primary k _ _ (Changes.takeInbox n f s) hrole ⟨hvalid, hrest⟩ hother
  · intro n f hrun hf hlisted
    refine ⟨_, exec_leaveReceive n hrun hf, ?_⟩
    rw [if_neg (by simp [hlisted])]
    exact honly (Changes.takeInbox n f s)
  · intro n f hrun hf
    obtain ⟨t, hexec, hhold, hch⟩ := linkupReceive_restarts n hrun hf
    exact ⟨t, hexec, hhold, honly hch⟩
  · intro n f k g hrun hf hset hgw hopen
    obtain ⟨t, hexec, hsession, hch⟩ := roleendReceive_suspends n hrun hf hset hgw hopen
    exact ⟨t, hexec, hsession, honly hch⟩
  · intro n f hrun hrole hf hstate hepoch
    obtain ⟨t, hexec, hentry, hch⟩ := statusReceive_renews n hrun hrole hf hstate hepoch
    exact ⟨t, hexec, hentry, honly hch⟩
  · intro n f hrun hrole hf hstate hepoch hreqs
    exact statusReceive_epoch n hrun hrole hf hstate hepoch hreqs
  · intro id hrole hstate hmiss
    exact statusMissed_third id hrole hstate hmiss
  · intro id hrole h
    obtain ⟨t, hexec, hentry, hch⟩ := statusMissed_counts id hrole h
    exact ⟨t, hexec, hentry, honly hch⟩
  · intro src tag u _ hdue
    exact broadcastPairExpiry_due src tag hdue
  · intro src tag h
    exact broadcastPairExpiry_early src tag h
  · intro k u hout hu hdue
    exact plannedSwitchResume_due k hout hu hdue
  · intro k u hu hlt
    exact plannedSwitchResume_held k (.inr ⟨u, hu, hlt⟩)
  · intro k hout
    exact plannedSwitchResume_held k (.inl hout)
  · intro tag u hrun _ hdue
    exact tagRelease_due tag hrun hdue
  · intro tag hrun h
    exact tagRelease_early tag hrun h
  · intro u hu hdue hrole hid hrun hbusy hrom
    obtain ⟨t, hexec, hview, hpending⟩ := enumHoldExpiry_due hu hdue hrole hid hrun hbusy hrom
    have hmode : t.fab.run.map (fun r => (r.mode, r.commanded)) = some (3, false) := congrArg Prod.fst hview
    obtain ⟨r, hr, hmc⟩ := Option.map_eq_some_iff.1 hmode
    refine ⟨t, hexec, congrArg (fun v => v.2.1) hview, ?_, ?_, congrArg (fun v => v.2.2) hview, hpending⟩
    · rw [hr]; exact congrArg some (congrArg Prod.fst hmc)
    · rw [hr]; exact congrArg some (congrArg Prod.snd hmc)
  · intro u hu hlt
    exact enumHoldExpiry_early hu hlt

end Sys2Proof.Machine
end

