-- ==== Sys2Proof/Proofs/Rings.lean ====
section
/-!
PROOFS. The rings of the host interface (R438, R446, R448 to R456, R462, R464): set-up, doorbells, descriptors, entries, the writeback block
and messages.
-/
namespace Sys2Proof.Machine

/-! ### The queues behind the rings -/

/-- What the host interface holds of entries, of losses and of the rings' indices and passes. -/
def ringView (s : State) : List StreamEntry × List EventEntry × List Nat × List Bool × List Nat × List HostDone :=
  (s.hst.sbuf, s.hst.evq, s.hst.lost, s.hst.phase, s.hst.hidx, s.hst.waiting)

theorem ringView_dmaWrite (a : Nat) (bs : List Byte) (s : State) : ringView (dmaWrite a bs s) = ringView s := (rfl)

theorem ringView_noted (s : State) (n : Word) (u : Option Nat) :
    ringView { s with hst := { s.hst with writebacks := n, wbAt := u, dirty := false } } = ringView s := (rfl)

theorem ringView_writeback (s : State) : ringView (writeback s) = ringView s := by
  simp only [writeback, apply_ite ringView, ringView_dmaWrite, ringView_noted, ite_self]

theorem ringView_sendVector (v : Nat) (s : State) : ringView (sendVector v s) = ringView s := ringView_writeback s

theorem ringView_message (v : Nat) (s : State) : ringView (message v s) = ringView s := by
  unfold message
  split
  · split
    · rfl
    · exact ringView_sendVector v s
  · rfl

theorem ringView_signalRing (r : Nat) (s : State) : ringView (signalRing r s) = ringView s := by
  unfold signalRing
  split
  · exact (ringView_message ..).trans rfl
  · rfl

theorem ringView_signalCounted (r : Nat) (s : State) : ringView (signalCounted r s) = ringView s := by
  unfold signalCounted
  split
  · exact ringView_signalRing r s
  · rfl

theorem ringView_countEntry (r : Nat) (s : State) : ringView (countEntry r s) = ringView s := by
  unfold countEntry
  exact (ringView_signalCounted r _).trans rfl

/-! ### What a message changes (R453, R454) -/

theorem Changes.dmaWrite (a : Nat) (bs : List Byte) (s : State) : Changes [.hst] (fun _ => False) s (dmaWrite a bs s) := .withHst s _

theorem Changes.writeback (s : State) : Changes [.hst] (fun _ => False) s (writeback s) := by
  unfold Machine.writeback
  exact .of_ite ((Changes.withHst s _).trans (Changes.dmaWrite ..) |>.mono (by simp) (by simp)) (.refl ..)

theorem Changes.sendVector (v : Nat) (s : State) : Changes [.hst] (fun _ => False) s (sendVector v s) :=
  (((Changes.writeback s).trans (Changes.withHst _ _)).trans (Changes.dmaWrite ..)).mono (by simp) (by simp)

theorem Changes.message (v : Nat) (s : State) : Changes [.hst] (oneOf [Reg.HST_PBA 0]) s (message v s) := by
  unfold Machine.message
  refine .of_ite (.of_ite ?_ ?_) (.refl ..)
  · exact (Changes.setRegBit (Reg.HST_PBA 0) v true s).mono (by simp) (by simp [oneOf])
  · exact (Changes.sendVector v s).mono (by simp) (by simp)

theorem Changes.signalRing (r : Nat) (s : State) : Changes [.hst] (oneOf [Reg.HST_PBA 0]) s (signalRing r s) := by
  unfold Machine.signalRing
  exact .of_ite (((Changes.withHst s _).trans (Changes.message ..)).mono (by simp) (by simp)) (.refl ..)

theorem Changes.countEntry (r : Nat) (s : State) : Changes [.hst] (oneOf [Reg.HST_PBA 0]) s (countEntry r s) := by
  unfold Machine.countEntry signalCounted
  exact ((Changes.withHst s _).trans (.of_ite (Changes.signalRing ..) (.refl ..))).mono (by simp) (by simp)

/-- R454: a ring with IEN 0 only counts. -/
theorem countEntry_quiet {r : Nat} {s : State} (h : bit (Reg.HST_RCFG_IEN r) s = false) :
    ∃ u, countEntry r s = { s with hst := { s.hst with unsig := u } } := by
  unfold countEntry signalCounted
  have hsame (u : List (Nat × Nat)) : bit (Reg.HST_RCFG_IEN r) { s with hst := { s.hst with unsig := u } } = false := h
  dsimp only
  rw [if_neg (by rw [hsame]; simp)]
  exact ⟨_, rfl⟩

/-! ### An entry of a ring (R449, R450) -/

/-- The index that follows `n` units after a ring's device index. -/
def nextIndex (r n : Nat) (s : State) : Nat :=
  if ringSize r s ≤ deviceIndex r s + n then deviceIndex r s + n - ringSize r s else deviceIndex r s + n

theorem ringSize_lt (r : Nat) (s : State) : ringSize r s < 2 ^ 17 := Nat.mod_lt _ (Nat.two_pow_pos 17)

theorem deviceIndex_setF (r i : Nat) (s : State) : deviceIndex r (setF (Reg.HST_RDIDX_DIDX r) i s) = i % 2 ^ 20 :=
  getF_setF_same (Reg.HST_RDIDX_DIDX r) i s (Nat.le_of_ble_eq_true rfl)

theorem Changes.advanceRing (r n : Nat) (s : State) : Changes [.hst] (oneOf [Reg.HST_RDIDX r]) s (advanceRing r n s) :=
  ((Changes.setF (Reg.HST_RDIDX_DIDX r) _ s).trans (Changes.withHst _ _)).mono (by simp) (fun a ha => by simpa [oneOf, Reg.HST_RDIDX_DIDX] using ha)

theorem deviceIndex_advanceRing {r n : Nat} {s : State} (h : nextIndex r n s < 2 ^ 20) : deviceIndex r (advanceRing r n s) = nextIndex r n s := by
  refine (deviceIndex_setF r _ s).trans ?_
  have hnext : (if decide (ringSize r s ≤ deviceIndex r s + n) = true then deviceIndex r s + n - ringSize r s else deviceIndex r s + n) = nextIndex r n s := by
    simp only [decide_eq_true_iff, nextIndex]
  rw [hnext]
  exact Nat.mod_eq_of_lt h

/-- A ring after `n` units have been written at its device index with the bytes that `mk` gives for PH. -/
structure RingWritten (r n : Nat) (mk : Bool → List Byte) (s t : State) : Prop where
  sbuf : t.hst.sbuf = s.hst.sbuf
  evq : t.hst.evq = s.hst.evq
  lost : t.hst.lost = s.hst.lost
  hidx : t.hst.hidx = s.hst.hidx
  waiting : t.hst.waiting = s.hst.waiting
  phase : nth t.hst.phase r true = if ringSize r s ≤ deviceIndex r s + n then !nth s.hst.phase r true else nth s.hst.phase r true
  index : nextIndex r n s < 2 ^ 20 → deviceIndex r t = nextIndex r n s
  mem : bit (Reg.HST_RCFG_IEN r) s = false →
    t.hst.mem = memPut (ringBase r s + unitBytes r * deviceIndex r s) (mk (nth s.hst.phase r true)) s.hst.mem
  quiet : bit (Reg.HST_RCFG_IEN r) s = false → Changes [.hst] (oneOf [Reg.HST_RDIDX r]) s t
  changes : Changes [.hst] (oneOf [Reg.HST_PBA 0, Reg.HST_RDIDX r]) s t

/-- No ring's device index stands in the pending bits. -/
theorem rdidx_ne_pba (r : Nat) : Reg.HST_RDIDX r ≠ Reg.HST_PBA 0 ∨ 11 ≤ r := by
  simp only [Reg.HST_RDIDX, Reg.HST_PBA]
  omega

theorem ringWrite_written {r : Nat} (hr : r < 11) (n : Nat) (mk : Bool → List Byte) (s : State) : RingWritten r n mk s (ringWrite r n mk s) := by
  have hbefore := (Changes.dmaWrite (ringBase r s + unitBytes r * deviceIndex r s) (mk (nth s.hst.phase r true)) s).trans (Changes.advanceRing r n
    (Machine.dmaWrite (ringBase r s + unitBytes r * deviceIndex r s) (mk (nth s.hst.phase r true)) s))
  have hview := ringView_countEntry r (advanceRing r n (dmaWrite (ringBase r s + unitBytes r * deviceIndex r s) (mk (nth s.hst.phase r true)) s))
  have hcount := Changes.countEntry r (advanceRing r n (dmaWrite (ringBase r s + unitBytes r * deviceIndex r s) (mk (nth s.hst.phase r true)) s))
  have hindex : reg (ringWrite r n mk s) (Reg.HST_RDIDX r) =
      reg (advanceRing r n (dmaWrite (ringBase r s + unitBytes r * deviceIndex r s) (mk (nth s.hst.phase r true)) s)) (Reg.HST_RDIDX r) := by
    refine hcount.reg_other ?_
    have hne := rdidx_ne_pba r
    simp only [List.mem_singleton]
    omega
  have hien {f : Field} (hf : f.addr = Reg.HST_RCFG r) :
      bit f (advanceRing r n (dmaWrite (ringBase r s + unitBytes r * deviceIndex r s) (mk (nth s.hst.phase r true)) s)) = bit f s := by
    refine bit_of_reg (hbefore.reg_eq ?_)
    simp only [hf, oneOf, Reg.HST_RCFG, Reg.HST_RDIDX, List.mem_singleton, false_or]
    omega
  refine ⟨congrArg (fun v => v.1) hview, congrArg (fun v => v.2.1) hview, congrArg (fun v => v.2.2.1) hview, congrArg (fun v => v.2.2.2.2.1) hview,
    congrArg (fun v => v.2.2.2.2.2) hview, ?_, fun h => ?_, fun h => ?_, fun h => ?_, ?_⟩
  · refine (congrArg (fun v => nth v.2.2.2.1 r true) hview).trans ?_
    change nth (if decide (ringSize r s ≤ deviceIndex r s + n) = true then setNth s.hst.phase r (!(nth s.hst.phase r true)) else s.hst.phase) r true = _
    by_cases hw : ringSize r s ≤ deviceIndex r s + n
    · rw [if_pos (decide_eq_true hw), if_pos hw, nth_setNth_same]
    · rw [if_neg (by simpa using hw), if_neg hw]
  · exact (getF_of_reg (f := Reg.HST_RDIDX_DIDX r) hindex).trans (deviceIndex_advanceRing h)
  · obtain ⟨u, hu⟩ := countEntry_quiet ((hien (f := Reg.HST_RCFG_IEN r) rfl).trans h)
    rw [ringWrite, hu]
    rfl
  · obtain ⟨u, hu⟩ := countEntry_quiet ((hien (f := Reg.HST_RCFG_IEN r) rfl).trans h)
    rw [ringWrite, hu]
    exact (hbefore.trans (Changes.withHst _ _)).mono (by simp) (by simp)
  · exact (hbefore.trans hcount).mono (by simp) (fun a ha => by simpa [oneOf, or_comm] using ha)

/-! ### Set-up and doorbells (R441, R449, R456, R462) -/

/-- A ring that starts empty at slot 0 with PH 1 (R450, R456). -/
def ringStarted (r : Nat) (s : State) : State :=
  { setF (Reg.HST_RDIDX_DIDX r) 0 (setB (Reg.HST_RCFG_EN r) true s) with
    hst := { s.hst with
      hidx := setNth s.hst.hidx r 0
      phase := setNth s.hst.phase r true
      unsig := setNth s.hst.unsig r (0, 0)
      dirty := s.hst.dirty || deviceIndex r s != 0 } }

theorem ringEnable_eq (r : Nat) (s : State) :
    ringEnable r s = if r = 1 then flushCompletions s.hst.waiting.length (ringStarted r s) else ringStarted r s := rfl

theorem ringStarted_shows (r : Nat) (s : State) :
    bit (Reg.HST_RCFG_EN r) (ringStarted r s) = true ∧ deviceIndex r (ringStarted r s) = 0 ∧ hostIndex r (ringStarted r s) = 0 ∧
      (∀ d, nth (ringStarted r s).hst.phase r d = true) ∧ (ringStarted r s).hst.dirty = (s.hst.dirty || deviceIndex r s != 0) ∧
      Changes [.hst] (oneOf [Reg.HST_RCFG r, Reg.HST_RDIDX r]) s (ringStarted r s) := by
  have hne : Reg.HST_RCFG r ≠ Reg.HST_RDIDX r := by simp only [Reg.HST_RCFG, Reg.HST_RDIDX]; omega
  refine ⟨?_, (deviceIndex_setF r 0 _).trans rfl, nth_setNth_same .., fun d => nth_setNth_same .., rfl, ?_⟩
  · exact (bit_of_reg (reg_setF_other (f := Reg.HST_RDIDX_DIDX r) hne 0 _)).trans
      (bit_setB_same (f := Reg.HST_RCFG_EN r) (Nat.le_of_ble_eq_true rfl) rfl true s)
  · exact (((Changes.setB (Reg.HST_RCFG_EN r) true s).trans (Changes.setF (Reg.HST_RDIDX_DIDX r) 0 _)).trans (Changes.withHst _ _)).mono (by simp)
      (fun a ha => by simpa [oneOf, Reg.HST_RCFG_EN, Reg.HST_RDIDX_DIDX] using ha)

/-- R462: a set-up that is good, or in use already, is no host error. -/
theorem exec_ringEnable (r : Fin 11) {s : State} (hup : coreUp s = true) (hf : ¬ bit Reg.FLT_FENCE0_HST s = true)
    (hen : bit (Reg.HST_RCFG_EN r) s = false) (hbad : ringBad r s = false) :
    exec (.ringEnable r.castSucc) s = .next (Done.ok (ringEnable r s)).finish := by
  have h11 : r.castSucc.val ≠ 11 := by
    have hlt := r.isLt
    simp only [Fin.val_castSucc]
    omega
  change execRingEnable r.castSucc s = _
  rw [execRingEnable, if_neg (by simp [hup, hf]), if_neg (by rw [if_neg h11]; simp [hbad]), if_neg h11]
  simp only [Fin.val_castSucc, hen, Bool.false_eq_true, if_false]
  rfl

/-- R456: a ring that is enabled starts empty. -/
theorem ringEnable_starts (r : Fin 11) {s : State} (hup : coreUp s = true) (hf : ¬ bit Reg.FLT_FENCE0_HST s = true)
    (hen : bit (Reg.HST_RCFG_EN r) s = false) (hbad : ringBad r s = false) (hw : r.val = 1 → s.hst.waiting = []) :
    ∃ t, exec (.ringEnable r.castSucc) s = .next t ∧ bit (Reg.HST_RCFG_EN r) t = true ∧ deviceIndex r t = 0 ∧ hostIndex r t = 0 ∧
      nth t.hst.phase r false = true ∧ t.hst.dirty = (s.hst.dirty || deviceIndex r s != 0) ∧ t.answered .ok ∧
      Changes [.hst, .resp] (oneOf [Reg.HST_RCFG r, Reg.HST_RDIDX r]) s t := by
  have hstart : ringEnable r s = ringStarted r s := by
    rw [ringEnable_eq]
    split
    · next h1 => rw [hw h1]; rfl
    · rfl
  obtain ⟨hon, hdev, hhost, hphase, hdirty, hch⟩ := ringStarted_shows r s
  refine ⟨_, exec_ringEnable r hup hf hen hbad, ?_⟩
  rw [hstart]
  exact ⟨hon, hdev, hhost, hphase false, hdirty, rfl, (hch.trans (Changes.finish_ok _)).mono (by simp) (by simp)⟩

theorem ringSize_of_reg {r : Nat} {s t : State} (h : reg t (Reg.HST_RSIZE r) = reg s (Reg.HST_RSIZE r)) : ringSize r t = ringSize r s :=
  getF_of_reg (f := Reg.HST_RSIZE_SIZE r) h

theorem ringGap_empty (size i : Nat) : ringGap size i i = 0 := by
  unfold ringGap
  split
  · rfl
  · next h =>
    have hpos : 0 < size := Nat.pos_of_ne_zero h
    have hmod : i % size < size := Nat.mod_lt _ hpos
    have hsplit : i + size - i % size = size * (i / size + 1) := by
      have hdiv := Nat.div_add_mod i size
      rw [Nat.mul_add]
      omega
    rw [hsplit, Nat.mul_mod_right]

/-- A completion as it enters host memory, after its READ data (R445, R447). -/
def readDelivered (d : HostDone) (s : State) : State :=
  { (if d.rdata then dmaWrite d.dptr (wordsBytes d.data) s else s) with
    hst := { (if d.rdata then dmaWrite d.dptr (wordsBytes d.data) s else s).hst with waiting := [] } }

/-- R445: the one completion that waits enters a ring with room. -/
theorem flushCompletions_one {d : HostDone} {s : State} (hw : s.hst.waiting = [d]) (hg : isGen2 s = false) (hr : ringRuns 1 s = true)
    (hroom : 0 < ringRoom 1 s) : flushCompletions 1 s = ringWrite 1 1 (completionBytes d) (readDelivered d s) := by
  simp only [flushCompletions, hw, hg, hr, hroom, decide_true, Bool.not_false, Bool.and_self, if_true, readDelivered]

theorem mem_readDelivered (d : HostDone) (s : State) :
    (readDelivered d s).hst.mem = if d.rdata then memPut d.dptr (wordsBytes d.data) s.hst.mem else s.hst.mem := by
  unfold readDelivered
  split <;> rfl

theorem Changes.readDelivered (d : HostDone) (s : State) : Changes [.hst] (fun _ => False) s (readDelivered d s) := by
  have h : Changes [.hst] (fun _ => False) s (if d.rdata then Machine.dmaWrite d.dptr (wordsBytes d.data) s else s) :=
    .of_ite (.dmaWrite ..) (.refl ..)
  exact (h.trans (Changes.withHst _ _)).mono (by simp) (by simp)

/-- The indices and passes are those of before. -/
theorem indices_readDelivered (d : HostDone) (s : State) : (readDelivered d s).hst.hidx = s.hst.hidx ∧ (readDelivered d s).hst.phase = s.hst.phase := by
  unfold readDelivered
  split <;> exact ⟨rfl, rfl⟩

theorem size_of_ringGood {r : Nat} {s : State} (h : ringBad r s = false) : 16 ≤ ringSize r s := by
  simp only [ringBad, Bool.or_eq_false_iff, decide_eq_false_iff_not] at h
  obtain ⟨⟨⟨⟨hlo, -⟩, -⟩, -⟩, -⟩ := h
  split at hlo <;> omega

/-- R456: a completion that waited for ring 1 enters it. -/
theorem ringEnable_completes {d : HostDone} {s : State} (hup : coreUp s = true) (hg : isGen2 s = false) (hdma : dmaAllowed s = true)
    (hen : bit (Reg.HST_RCFG_EN 1) s = false) (hbad : ringBad 1 s = false) (hq : bit (Reg.HST_RCFG_IEN 1) s = false) (hw : s.hst.waiting = [d]) :
    ∃ t, exec (.ringEnable 1) s = .next t ∧ bit (Reg.HST_RCFG_EN 1) t = true ∧ t.hst.waiting = [] ∧ deviceIndex 1 t = 1 ∧ hostIndex 1 t = 0 ∧
      t.hst.mem = memPut (ringBase 1 s) (completionBytes d true) (if d.rdata then memPut d.dptr (wordsBytes d.data) s.hst.mem else s.hst.mem) ∧
      t.answered .ok ∧ Changes [.hst, .resp] (oneOf [Reg.HST_RCFG 1, Reg.HST_RDIDX 1]) s t := by
  obtain ⟨hon, hdev, hhost, hphase, -, hch⟩ := ringStarted_shows 1 s
  have hf : ¬ bit Reg.FLT_FENCE0_HST s = true := by
    simp only [dmaAllowed, Bool.and_eq_true, Bool.not_eq_true'] at hdma
    simp [hdma.2]
  have hsize : ringSize 1 (ringStarted 1 s) = ringSize 1 s := ringSize_of_reg (hch.reg_other (by decide))
  have h16 := size_of_ringGood hbad
  have hroom : 0 < ringRoom 1 (ringStarted 1 s) := by
    rw [ringRoom, hsize, hhost, hdev, ringGap_empty]
    omega
  have hgen : isGen2 (ringStarted 1 s) = false := by
    rw [← hg]
    simp only [isGen2]
    rw [getF_of_reg (hch.reg_other (by decide))]
  have hruns : ringRuns 1 (ringStarted 1 s) = true := by
    have hfence : bit Reg.FLT_FENCE0_HST (ringStarted 1 s) = bit Reg.FLT_FENCE0_HST s := bit_of_reg (hch.reg_other (by decide))
    rw [ringRuns, hon, dmaAllowed, hfence]
    exact hdma
  have henabled : ringEnable 1 s = ringWrite 1 1 (completionBytes d) (readDelivered d (ringStarted 1 s)) := by
    rw [ringEnable_eq, if_pos rfl, hw]
    exact flushCompletions_one hw hgen hruns hroom
  have hread := Changes.readDelivered d (ringStarted 1 s)
  obtain ⟨hidx, hpass⟩ := indices_readDelivered d (ringStarted 1 s)
  have hput := ringWrite_written (r := 1) (by decide) 1 (completionBytes d) (readDelivered d (ringStarted 1 s))
  have hdev' : deviceIndex 1 (readDelivered d (ringStarted 1 s)) = 0 := (getF_of_reg (hread.reg_eq (by simp))).trans hdev
  have hsize' : ringSize 1 (readDelivered d (ringStarted 1 s)) = ringSize 1 s := (ringSize_of_reg (hread.reg_eq (by simp))).trans hsize
  have hquiet : bit (Reg.HST_RCFG_IEN 1) (readDelivered d (ringStarted 1 s)) = false := by
    refine (bit_of_reg (hread.reg_eq (by simp))).trans (Eq.trans ?_ hq)
    refine (bit_of_reg (reg_setF_other (f := Reg.HST_RDIDX_DIDX 1) (by decide) 0 _)).trans ?_
    exact bit_setB_beside (f := Reg.HST_RCFG_EN 1) (by decide) (by decide) true s
  have hbase : ringBase 1 (readDelivered d (ringStarted 1 s)) = ringBase 1 s := by
    rw [ringBase, hread.reg_eq (by simp), hread.reg_eq (by simp), hch.reg_other (by decide), hch.reg_other (by decide), ringBase]
  have hnext : nextIndex 1 1 (readDelivered d (ringStarted 1 s)) = 1 := by
    rw [nextIndex, hdev', hsize', if_neg (by omega)]
  have hallch := ((hch.trans hread).trans (hput.quiet hquiet)).mono (qs := [.hst]) (rs' := oneOf [Reg.HST_RCFG 1, Reg.HST_RDIDX 1]) (by simp)
    (fun a ha => by simp only [oneOf, List.mem_cons] at ha ⊢; tauto)
  have hexec : exec (.ringEnable 1) s = .next (Done.ok (ringEnable 1 s)).finish := exec_ringEnable 1 hup hf hen hbad
  refine ⟨_, hexec, ?_⟩
  rw [henabled]
  refine ⟨(bit_of_reg ((hput.quiet hquiet).reg_other (by decide))).trans ((bit_of_reg (hread.reg_eq (by simp))).trans hon), hput.waiting.trans rfl,
    (hput.index (by rw [hnext]; decide)).trans hnext, ?_, ?_, rfl, (hallch.trans (Changes.finish_ok _)).mono (by simp) (by simp)⟩
  · change nth (ringWrite 1 1 (completionBytes d) (readDelivered d (ringStarted 1 s))).hst.hidx 1 0 = 0
    rw [hput.hidx, hidx]
    exact hhost
  · change (ringWrite 1 1 (completionBytes d) (readDelivered d (ringStarted 1 s))).hst.mem = _
    rw [hput.mem hquiet, hbase, hdev', hpass, hphase true, mem_readDelivered]
    rfl

/-- R453: the writeback block is in use with its count at 0. -/
theorem ringEnable_writeback (r : Fin 12) {s : State} (hup : coreUp s = true) (hf : ¬ bit Reg.FLT_FENCE0_HST s = true) (h11 : r.val = 11)
    (hen : bit Reg.HST_WBL_EN s = false) (hclash : rangeClash 11 (hostRange 11 s) s = false) :
    ∃ t, exec (.ringEnable r) s = .next t ∧ bit Reg.HST_WBL_EN t = true ∧ t.hst.writebacks = 0#32 ∧ t.answered .ok ∧
      Changes [.hst, .resp] (oneOf [Reg.HST_WBL]) s t := by
  have hexec : exec (.ringEnable r) s = .next (Done.ok (writebackEnable s)).finish := by
    change execRingEnable r s = _
    rw [execRingEnable, if_neg (by simp [hup, hf]), if_neg (by rw [if_pos h11]; simp [hclash]), if_pos h11, hen]
    rfl
  refine ⟨_, hexec, bit_setB_same (f := Reg.HST_WBL_EN) (by decide) rfl true _, rfl, rfl, ?_⟩
  exact (((Changes.withHst s _).trans (Changes.setB Reg.HST_WBL_EN true _)).trans (Changes.finish_ok _)).mono (by simp)
    (fun a ha => by simpa [oneOf, Reg.HST_WBL_EN] using ha)

/-- R456: a range in use is not set up again. -/
theorem ringEnable_inUse (r : Fin 12) {s : State} (hup : coreUp s = true) (hf : ¬ bit Reg.FLT_FENCE0_HST s = true) (hin : rangeInUse r s = true) :
    ∃ t, exec (.ringEnable r) s = .next t ∧ t.answered .ok ∧ Changes [.resp] (fun _ => False) s t := by
  have hexec : exec (.ringEnable r) s = .next (Done.ok s).finish := by
    change execRingEnable r s = _
    rw [execRingEnable, if_neg (by simp [hup, hf]), if_neg (by simp [hin])]
    unfold rangeInUse at hin
    split
    · next h11 =>
      rw [if_pos h11] at hin
      rw [if_pos hin]
      rfl
    · next h11 =>
      rw [if_neg h11] at hin
      rw [if_pos hin]
      rfl
  exact ⟨_, hexec, rfl, Changes.finish_ok s⟩

/-- R462: a bad set-up is a host error. -/
theorem ringEnable_bad (r : Fin 11) {s : State} (hup : coreUp s = true) (hf : ¬ bit Reg.FLT_FENCE0_HST s = true)
    (hen : bit (Reg.HST_RCFG_EN r) s = false) (hbad : ringBad r s = true) : ∃ t, exec (.ringEnable r.castSucc) s = .next t ∧ Sheltered s t := by
  have h11 : r.castSucc.val ≠ 11 := by
    have hlt := r.isLt
    simp only [Fin.val_castSucc]
    omega
  have hfree : rangeInUse r.castSucc s = false := by
    rw [rangeInUse, if_neg h11]
    exact hen
  refine ⟨upset s, ?_, upset_sheltered s⟩
  change execRingEnable r.castSucc s = _
  rw [execRingEnable, if_neg (by simp [hup, hf]), if_pos ⟨hfree, by rw [if_neg h11]; exact hbad⟩]

theorem exec_doorbellWrite (r : Fin 11) (i : Fin 1048576) {s : State} (hup : coreUp s = true) (hgood : (doorbellActs r s && doorbellBad r i s) = false) :
    exec (.doorbellWrite r i) s = .next (Done.ok (doorbell r i s)).finish := by
  change execDoorbellWrite r i s = _
  rw [execDoorbellWrite, if_neg (by simp [hup]), hgood]
  rfl

/-- R441: a good doorbell moves the host's index of its ring alone. -/
theorem doorbellWrite_moves (r : Fin 11) (i : Fin 1048576) {s : State} (hup : coreUp s = true) (hacts : doorbellActs r s = true)
    (hgood : doorbellBad r i s = false) (hw : r.val = 1 → s.hst.waiting = []) :
    ∃ t, exec (.doorbellWrite r i) s = .next t ∧ hostIndex r t = i.val ∧ (∀ q, q ≠ r.val → hostIndex q t = hostIndex q s) ∧ t.answered .ok ∧
      Changes [.hst, .resp] (fun _ => False) s t := by
  have hmove : doorbell r i s = { s with hst := { s.hst with hidx := setNth s.hst.hidx r i } } := by
    rw [doorbell, hacts]
    simp only [Bool.not_true, Bool.false_eq_true, if_false]
    split
    · next h1 => rw [hw h1]; rfl
    · rfl
  refine ⟨_, exec_doorbellWrite r i hup (by simp [hgood]), ?_⟩
  rw [hmove]
  exact ⟨nth_setNth_same .., fun q hq => nth_setNth_default s.hst.hidx hq i.val, rfl,
    ((Changes.withHst s _).trans (Changes.finish_ok _)).mono (by simp) (by simp)⟩

/-- R461: a doorbell of a ring that is not in use has no effect. -/
theorem doorbellWrite_idle (r : Fin 11) (i : Fin 1048576) {s : State} (hup : coreUp s = true)
    (hidle : bit (Reg.HST_RCFG_EN r) s = false ∨ s.hst.pcie.busMaster = false) :
    ∃ t, exec (.doorbellWrite r i) s = .next t ∧ t.answered .ok ∧ Changes [.resp] (fun _ => False) s t := by
  have hacts : doorbellActs r s = false := by
    obtain h | h := hidle <;> simp [doorbellActs, h]
  have hsame : doorbell r i s = s := by
    rw [doorbell, hacts]
    rfl
  refine ⟨_, exec_doorbellWrite r i hup (by simp [hacts]), ?_⟩
  rw [hsame]
  exact ⟨rfl, Changes.finish_ok s⟩

/-- R462: a bad index is a host error. -/
theorem doorbellWrite_bad (r : Fin 11) (i : Fin 1048576) {s : State} (hup : coreUp s = true) (hacts : doorbellActs r s = true)
    (hbad : doorbellBad r i s = true) : ∃ t, exec (.doorbellWrite r i) s = .next t ∧ Sheltered s t := by
  refine ⟨upset s, ?_, upset_sheltered s⟩
  change execDoorbellWrite r i s = _
  rw [execDoorbellWrite, if_neg (by simp [hup]), if_pos (by rw [hacts, hbad]; rfl)]

/-! ### Descriptors (R448) -/

theorem nextIndex_one {r : Nat} {s : State} (h : deviceIndex r s < ringSize r s) : nextIndex r 1 s = (deviceIndex r s + 1) % ringSize r s := by
  unfold nextIndex
  split
  · have heq : deviceIndex r s + 1 = ringSize r s := by omega
    rw [heq, Nat.mod_self, Nat.sub_self]
  · rw [Nat.mod_eq_of_lt (by omega)]

theorem Changes.storeCommand (d data : List Word) (s : State) : Changes [.hst] (oneOf [Reg.HST_OUT]) s (storeCommand d data s) :=
  (((Changes.withHst s _).trans (Changes.setF Reg.HST_OUT_FETCHED _ _)).trans (Changes.setF Reg.HST_OUT_TAGS _ _)).mono (by simp)
    (fun a ha => by simpa [oneOf, Reg.HST_OUT_FETCHED, Reg.HST_OUT_TAGS] using ha)

/-- R448: a good descriptor is taken, and the device index moves on. -/
theorem descriptorFetch_takes {d : List Word} {s : State} (hm : mayFetch d s = true) (hd : descBad false d = false) (hb : bufferBad d s = false)
    (hi : deviceIndex 0 s < ringSize 0 s) : ∃ t, exec (.descriptorFetch [d]) s = .next t ∧
      t.hst.cmds = s.hst.cmds ++ [⟨s.hst.nextSlot, d, [], false, s.now⟩] ∧ deviceIndex 0 t = (deviceIndex 0 s + 1) % ringSize 0 s ∧ t.hst.dirty = true ∧
      Changes [.hst] (oneOf [Reg.HST_OUT, Reg.HST_RDIDX 0]) s t := by
  have hexec : exec (.descriptorFetch [d]) s = .next (advanceRing 0 1 (storeCommand d [] s)) := by
    change fetchAll [d] s = _
    rw [fetchAll, if_pos hm, if_neg (by simp [hd, hb])]
    rfl
  have hstore := Changes.storeCommand d [] s
  have hdev : deviceIndex 0 (storeCommand d [] s) = deviceIndex 0 s := getF_of_reg (hstore.reg_other (by decide))
  have hsize : ringSize 0 (storeCommand d [] s) = ringSize 0 s := ringSize_of_reg (hstore.reg_other (by decide))
  have hnext : nextIndex 0 1 (storeCommand d [] s) = (deviceIndex 0 s + 1) % ringSize 0 s := by
    rw [nextIndex_one (by rw [hdev, hsize]; exact hi), hdev, hsize]
  have hlt : (deviceIndex 0 s + 1) % ringSize 0 s < 2 ^ 20 :=
    (Nat.mod_lt _ (by omega)).trans ((ringSize_lt 0 s).trans (by decide))
  refine ⟨_, hexec, rfl, ?_, rfl, (hstore.trans (Changes.advanceRing 0 1 _)).mono (by simp) (fun a ha => by simpa [oneOf] using ha)⟩
  rw [deviceIndex_advanceRing (by rw [hnext]; exact hlt), hnext]

theorem descriptorFetch_none {d : List Word} {s : State} (l : List (List Word)) (h : mayFetch d s = false) : exec (.descriptorFetch (d :: l)) s = .next s := by
  change fetchAll ((d :: l).take 8) s = _
  rw [List.take_succ_cons, fetchAll, if_neg (by simp [h])]

theorem descriptorFetch_bad {d : List Word} {s : State} (hm : mayFetch d s = true) (hd : descBad false d = true) :
    ∃ t, exec (.descriptorFetch [d]) s = .next t ∧ Sheltered s t := by
  refine ⟨upset s, ?_, upset_sheltered s⟩
  change fetchAll [d] s = _
  rw [fetchAll, if_pos hm, if_pos (by rw [hd]; rfl)]

/-! ### Frames that arrive (R438, R451, R452, R455) -/

/-- The LOSS entry that stands before the next entry of a stream ring in generation 2 (R438). -/
def streamLoss (ring : Nat) (s : State) : List StreamEntry :=
  if nth s.hst.lost (3 + ring) 0 = 0 then [] else [⟨ring, 3, 0, 0, 0, nth s.hst.lost (3 + ring) 0, []⟩]

/-- The entry of a STREAM frame (R451). -/
def streamEntry (f : Frame) (s : State) : StreamEntry := ⟨(sessionRing f.tag s).2, 1, f.src, f.tag, f.epoch, 0, f.payload⟩

/-- R438: in generation 2 an entry with room follows the LOSS entry. -/
theorem pushStream_gen2 {ring : Nat} {e : StreamEntry} {s : State} (hg : isGen2 s = true)
    (hroom : waitingUnits s + (streamLoss ring s).length + streamUnits e ≤ 2048) :
    (pushStream ring e s).hst.sbuf = s.hst.sbuf ++ streamLoss ring s ++ [e] ∧ nth (pushStream ring e s).hst.lost (3 + ring) 0 = 0 ∧
      Changes [.hst] (fun _ => False) s (pushStream ring e s) := by
  have hloss : (if nth s.hst.lost (3 + ring) 0 ≠ 0 ∧ isGen2 s = true then [(⟨ring, 3, 0, 0, 0, nth s.hst.lost (3 + ring) 0, []⟩ : StreamEntry)] else []) =
      streamLoss ring s := by
    unfold streamLoss
    by_cases h0 : nth s.hst.lost (3 + ring) 0 = 0
    · rw [if_neg (by simp [h0]), if_pos h0]
    · rw [if_pos ⟨h0, hg⟩, if_neg h0]
  have hpush : pushStream ring e s = { s with hst := { s.hst with
      sbuf := s.hst.sbuf ++ streamLoss ring s ++ [e]
      lost := if streamLoss ring s = [] then s.hst.lost else setNth s.hst.lost (3 + ring) 0 } } := by
    unfold pushStream
    extract_lets r size n loss
    have hl : loss = streamLoss ring s := hloss
    have hs : size = 2048 := if_pos hg
    rw [if_neg (by simp [hg]), hl, hs, if_pos hroom]
  rw [hpush]
  refine ⟨rfl, ?_, Changes.withHst s _⟩
  change nth (if streamLoss ring s = [] then s.hst.lost else setNth s.hst.lost (3 + ring) 0) (3 + ring) 0 = 0
  unfold streamLoss
  split
  · next h0 => rw [if_pos rfl, h0]
  · next h0 => rw [if_neg (by simp), nth_setNth_same]

/-- R451: in generation 3 an entry with room waits for its ring while that runs. -/
theorem pushStream_gen3 {ring : Nat} {e : StreamEntry} {s : State} (hg : isGen2 s = false) (hen : bit (Reg.HST_RCFG_EN (3 + ring)) s = true)
    (hbus : s.hst.pcie.busMaster = true) (hroom : waitingUnits s + streamUnits e ≤ 4096) :
    pushStream ring e s = { s with hst := { s.hst with sbuf := s.hst.sbuf ++ [e] } } := by
  simp only [pushStream, hg, hen, hbus, Bool.not_false, Bool.and_self, Bool.not_true, Bool.and_false, Bool.false_eq_true, if_false, and_false,
    List.length_nil, Nat.add_zero, hroom, if_true, List.append_nil]

theorem hst_takeInbox (n : Nat) (f : Frame) (s : State) : (takeInbox n f s).hst = s.hst := (Changes.takeInbox n f s).part_eq .hst (by simp)

theorem sessionRing_takeInbox (k n : Nat) (f : Frame) (s : State) : sessionRing k (takeInbox n f s) = sessionRing k s := by
  have hreg (a : Nat) : reg (takeInbox n f s) a = reg s a := (Changes.takeInbox n f s).reg_eq (by simp)
  rw [sessionRing, hreg, sessionRing]

theorem exec_streamFrameReceive (n : Fin 4) {f : Frame} {s : State} (hup : coreUp s = true) (hf : f.type = .stream) : exec (.streamFrameReceive n f) s =
    .next (if hasRole s then
      if (sessionRing f.tag s).1 then pushStream (sessionRing f.tag s).2 (streamEntry f s) (takeInbox n f s)
      else incSat Reg.HST_CNT_NOMAP (takeInbox n f s)
    else incSat Reg.FAB_LATE_LATE (takeInbox n f s)) := by
  have hrole : hasRole (takeInbox n f s) = hasRole s := bit_of_reg ((Changes.takeInbox n f s).reg_eq (by simp))
  change execStreamFrameReceive n f s = _
  rw [execStreamFrameReceive, if_neg (by simp [hf, hup])]
  simp only [hrole, sessionRing_takeInbox]
  cases hasRole s
  · rfl
  · cases (sessionRing f.tag s).1 <;> rfl

theorem isGen2_takeInbox (n : Nat) (f : Frame) (s : State) : isGen2 (takeInbox n f s) = isGen2 s := by
  have hreg : getF Reg.HST_STAT_GEN (takeInbox n f s) = getF Reg.HST_STAT_GEN s := getF_of_reg ((Changes.takeInbox n f s).reg_eq (by simp))
  rw [isGen2, hreg, isGen2]

/-- R451: a STREAM frame of a mapped session in generation 2. -/
theorem streamFrameReceive_gen2 (n : Fin 4) {f : Frame} {s : State} (hup : coreUp s = true) (hrole : hasRole s = true) (hf : f.type = .stream)
    (hmap : (sessionRing f.tag s).1 = true) (hg : isGen2 s = true)
    (hroom : waitingUnits s + (streamLoss (sessionRing f.tag s).2 s).length + streamUnits (streamEntry f s) ≤ 2048) :
    ∃ t, exec (.streamFrameReceive n f) s = .next t ∧ t.hst.sbuf = s.hst.sbuf ++ streamLoss (sessionRing f.tag s).2 s ++ [streamEntry f s] ∧
      nth t.hst.lost (3 + (sessionRing f.tag s).2) 0 = 0 ∧ Changes [.hst, .fab] (fun _ => False) s t := by
  have hhst := hst_takeInbox n f s
  have hloss : streamLoss (sessionRing f.tag s).2 (takeInbox n f s) = streamLoss (sessionRing f.tag s).2 s := by rw [streamLoss, hhst, streamLoss]
  have hunits : waitingUnits (takeInbox n f s) = waitingUnits s := by rw [waitingUnits, hhst, waitingUnits]
  obtain ⟨hbuf, hlost, hch⟩ := pushStream_gen2 (ring := (sessionRing f.tag s).2) (e := streamEntry f s) ((isGen2_takeInbox n f s).trans hg)
    (by rw [hunits, hloss]; exact hroom)
  refine ⟨pushStream (sessionRing f.tag s).2 (streamEntry f s) (takeInbox n f s), ?_, ?_, hlost,
    ((Changes.takeInbox n f s).trans hch).mono (by simp) (by simp)⟩
  · rw [exec_streamFrameReceive n hup hf, if_pos hrole, if_pos hmap]
  · rw [hbuf, hloss, hhst]

/-- R451: a STREAM frame of a mapped session in generation 3. -/
theorem streamFrameReceive_gen3 (n : Fin 4) {f : Frame} {s : State} (hup : coreUp s = true) (hrole : hasRole s = true) (hf : f.type = .stream)
    (hmap : (sessionRing f.tag s).1 = true) (hg : isGen2 s = false) (hen : bit (Reg.HST_RCFG_EN (3 + (sessionRing f.tag s).2)) s = true)
    (hbus : s.hst.pcie.busMaster = true) (hroom : waitingUnits s + streamUnits (streamEntry f s) ≤ 4096) :
    ∃ t, exec (.streamFrameReceive n f) s = .next t ∧ t.hst.sbuf = s.hst.sbuf ++ [streamEntry f s] ∧ t.hst.lost = s.hst.lost ∧
      Changes [.hst, .fab] (fun _ => False) s t := by
  have hhst := hst_takeInbox n f s
  have hunits : waitingUnits (takeInbox n f s) = waitingUnits s := by rw [waitingUnits, hhst, waitingUnits]
  have hen' : bit (Reg.HST_RCFG_EN (3 + (sessionRing f.tag s).2)) (takeInbox n f s) = true :=
    (bit_of_reg ((Changes.takeInbox n f s).reg_eq (by simp))).trans hen
  have hpush := pushStream_gen3 (ring := (sessionRing f.tag s).2) (e := streamEntry f s) ((isGen2_takeInbox n f s).trans hg) hen'
    (by rw [hhst]; exact hbus) (by rw [hunits]; exact hroom)
  refine ⟨pushStream (sessionRing f.tag s).2 (streamEntry f s) (takeInbox n f s), ?_, ?_, ?_, ?_⟩
  · rw [exec_streamFrameReceive n hup hf, if_pos hrole, if_pos hmap]
  · rw [hpush]
    change (takeInbox n f s).hst.sbuf ++ [streamEntry f s] = _
    rw [hhst]
  · rw [hpush]
    change (takeInbox n f s).hst.lost = _
    rw [hhst]
  · rw [hpush]
    exact ((Changes.takeInbox n f s).trans (Changes.withHst _ _)).mono (by simp) (by simp)

/-- R455: a frame whose session's map entry is disabled is counted. -/
theorem streamFrameReceive_unmapped (n : Fin 4) {f : Frame} {s : State} (hup : coreUp s = true) (hrole : hasRole s = true) (hf : f.type = .stream)
    (hmap : (sessionRing f.tag s).1 = false) : ∃ t, exec (.streamFrameReceive n f) s = .next t ∧
      getF Reg.HST_CNT_NOMAP t = min (getF Reg.HST_CNT_NOMAP s + 1) 255 ∧ t.hst = s.hst ∧ Changes [.fab] (oneOf [Reg.HST_CNT]) s t := by
  have hin := Changes.takeInbox n f s
  have hcount : getF Reg.HST_CNT_NOMAP (takeInbox n f s) = getF Reg.HST_CNT_NOMAP s := getF_of_reg (hin.reg_eq (by simp))
  refine ⟨incSat Reg.HST_CNT_NOMAP (takeInbox n f s), ?_, ?_, hst_takeInbox n f s, ?_⟩
  · rw [exec_streamFrameReceive n hup hf, if_pos hrole, if_neg (by simp [hmap])]
  · rw [getF_incSat _ _ (by decide), hcount]
    rfl
  · exact (hin.trans (Changes.incSat Reg.HST_CNT_NOMAP _)).mono (by simp) (fun a ha => by simpa [oneOf, Reg.HST_CNT_NOMAP] using ha)

/-- R18: without the role a STREAM frame is late. -/
theorem streamFrameReceive_late (n : Fin 4) {f : Frame} {s : State} (hup : coreUp s = true) (hrole : hasRole s = false) (hf : f.type = .stream) :
    ∃ t, exec (.streamFrameReceive n f) s = .next t ∧
      getF Reg.FAB_LATE_LATE t = min (getF Reg.FAB_LATE_LATE s + 1) (2 ^ Reg.FAB_LATE_LATE.w - 1) ∧ Changes [.fab] (oneOf [Reg.FAB_LATE]) s t := by
  have hin := Changes.takeInbox n f s
  have hcount : getF Reg.FAB_LATE_LATE (takeInbox n f s) = getF Reg.FAB_LATE_LATE s := getF_of_reg (hin.reg_eq (by simp))
  refine ⟨incSat Reg.FAB_LATE_LATE (takeInbox n f s), ?_, ?_, ?_⟩
  · rw [exec_streamFrameReceive n hup hf, if_neg (by simp [hrole])]
  · rw [getF_incSat _ _ (by decide), hcount]
  · exact (hin.trans (Changes.incSat Reg.FAB_LATE_LATE _)).mono (by simp) (fun a ha => by simpa [oneOf, Reg.FAB_LATE_LATE] using ha)

/-- With nothing lost before, no LOSS entry returns. -/
theorem roomEvent_none {s : State} (h : nth s.hst.lost 2 0 = 0 ∨ 64 ≤ s.hst.evq.length) : roomEvent s = s := by
  rw [roomEvent, if_neg (by omega)]

/-- R452: an event entry of generation 2 with room. -/
theorem pushEvent_room {e : EventEntry} {s : State} (hrole : hasRole s = true) (hg : isGen2 s = true) (hroom : s.hst.evq.length < 64)
    (hlost : nth s.hst.lost 2 0 = 0) : pushEvent e s = { s with hst := { s.hst with evq := s.hst.evq ++ [e] } } := by
  simp only [pushEvent, hrole, hg, roomEvent_none (.inl hlost), hroom, Bool.not_true, Bool.false_and, Bool.false_eq_true, if_false, if_true]

/-- R455: an event entry of generation 2 without room is lost with a count. -/
theorem pushEvent_full {e : EventEntry} {s : State} (hrole : hasRole s = true) (hg : isGen2 s = true) (hfull : s.hst.evq.length = 64) :
    pushEvent e s = pulse 108 (incSat (Reg.HST_RLOST_LOST 2)
      { s with hst := { s.hst with lost := setNth s.hst.lost 2 (nth s.hst.lost 2 0 + 1) } }) := by
  simp only [pushEvent, hrole, hg, roomEvent_none (.inr (Nat.le_of_eq hfull.symm)), hfull, Nat.lt_irrefl, Bool.not_true, Bool.false_and, Bool.false_eq_true,
    if_false]

section
variable (n : Fin 4) (f : Frame) (s : State)

theorem hasRole_takeInbox : hasRole (takeInbox n f s) = hasRole s := bit_of_reg ((Changes.takeInbox n f s).reg_eq (by simp))

variable {n f s} (hrole : hasRole s = true) (hg : isGen2 s = true)
include hrole hg

theorem eventIn_room (kind : Nat) (hroom : s.hst.evq.length < 64) (hlost : nth s.hst.lost 2 0 = 0) :
    (eventIn kind n f s).hst.evq = s.hst.evq ++ [⟨f.src, kind, f.epoch, s.ft, 0, f.payload⟩] ∧
      Changes [.hst, .fab] (fun _ => False) s (eventIn kind n f s) := by
  have hhst := hst_takeInbox n f s
  have hft : (takeInbox n f s).ft = s.ft := (Changes.takeInbox n f s).part_eq .ft (by simp)
  have hpush := pushEvent_room (e := ⟨f.src, kind, f.epoch, (takeInbox n f s).ft, 0, f.payload⟩) ((hasRole_takeInbox n f s).trans hrole)
    ((isGen2_takeInbox n f s).trans hg) (by rw [hhst]; exact hroom) (by rw [hhst]; exact hlost)
  rw [eventIn, hpush]
  refine ⟨?_, ((Changes.takeInbox n f s).trans (Changes.withHst _ _)).mono (by simp) (by simp)⟩
  change (takeInbox n f s).hst.evq ++ [⟨f.src, kind, f.epoch, (takeInbox n f s).ft, 0, f.payload⟩] = _
  rw [hhst, hft]

theorem eventIn_full (kind : Nat) (hfull : s.hst.evq.length = 64) :
    (eventIn kind n f s).hst.evq = s.hst.evq ∧ nth (eventIn kind n f s).hst.lost 2 0 = nth s.hst.lost 2 0 + 1 ∧
      (eventIn kind n f s).flt.waiting = s.flt.waiting ++ [108] ∧
      getF (Reg.HST_RLOST_LOST 2) (eventIn kind n f s) = min (getF (Reg.HST_RLOST_LOST 2) s + 1) (2 ^ (Reg.HST_RLOST_LOST 2).w - 1) ∧
      Changes [.hst, .fab, .flt] (oneOf [Reg.HST_RLOST 2]) s (eventIn kind n f s) := by
  have hin := Changes.takeInbox n f s
  have hhst := hst_takeInbox n f s
  have hflt : (takeInbox n f s).flt = s.flt := hin.part_eq .flt (by simp)
  have hcount : getF (Reg.HST_RLOST_LOST 2) (takeInbox n f s) = getF (Reg.HST_RLOST_LOST 2) s := getF_of_reg (hin.reg_eq (by simp))
  have hpush := pushEvent_full (e := ⟨f.src, kind, f.epoch, (takeInbox n f s).ft, 0, f.payload⟩) ((hasRole_takeInbox n f s).trans hrole)
    ((isGen2_takeInbox n f s).trans hg) (by rw [hhst]; exact hfull)
  rw [eventIn, hpush]
  refine ⟨?_, ?_, ?_, ?_, ?_⟩
  · rw [(Changes.pulse 108 _).part_eq .hst (by simp)]
    change (takeInbox n f s).hst.evq = _
    rw [hhst]
  · rw [(Changes.pulse 108 _).part_eq .hst (by simp)]
    change nth (setNth (takeInbox n f s).hst.lost 2 (nth (takeInbox n f s).hst.lost 2 0 + 1)) 2 0 = _
    rw [nth_setNth_same, hhst]
  · rw [pulse_waiting _ _ (by simp [muted])]
    change (takeInbox n f s).flt.waiting ++ [108] = _
    rw [hflt]
  · rw [getF_of_reg (reg_pulse ..), getF_incSat _ _ (by decide)]
    change min (getF (Reg.HST_RLOST_LOST 2) (takeInbox n f s) + 1) _ = _
    rw [hcount]
  · exact (((hin.trans (Changes.withHst _ _)).trans (Changes.incSat (Reg.HST_RLOST_LOST 2) _)).trans (Changes.pulse 108 _)).mono (by simp)
      (fun a ha => by simpa [oneOf, Reg.HST_RLOST_LOST] using ha)

end

/-! ### Entries that leave for the rings (R451, R452, R455) -/

/-- A state with the host interface's queues changed has the rings of before. -/
theorem ring_withHst (r : Nat) (s : State) (h : HstState) (hh : h.hidx = s.hst.hidx) :
    ringSize r { s with hst := h } = ringSize r s ∧ deviceIndex r { s with hst := h } = deviceIndex r s ∧ ringBase r { s with hst := h } = ringBase r s ∧
      ringRoom r { s with hst := h } = ringRoom r s := by
  refine ⟨rfl, rfl, rfl, ?_⟩
  have hi : hostIndex r { s with hst := h } = hostIndex r s := congrArg (nth · r 0) hh
  rw [ringRoom, hi, ringRoom]
  rfl

/-- The registers of a ring that its entries do not change. -/
theorem RingWritten.ring_eq {r n : Nat} (hr : r < 11) {mk : Bool → List Byte} {s t : State} (h : RingWritten r n mk s t) :
    ringSize r t = ringSize r s ∧ ringBase r t = ringBase r s ∧ bit (Reg.HST_RCFG_IEN r) t = bit (Reg.HST_RCFG_IEN r) s := by
  have hreg {a : Nat} (ha : a ≠ Reg.HST_PBA 0) (ha' : a ≠ Reg.HST_RDIDX r) : reg t a = reg s a := h.changes.reg_other (by simp [ha, ha'])
  refine ⟨ringSize_of_reg (hreg ?_ ?_), ?_, bit_of_reg (hreg ?_ ?_)⟩
  · simp only [Reg.HST_RSIZE, Reg.HST_PBA]; omega
  · simp only [Reg.HST_RSIZE, Reg.HST_RDIDX]; omega
  · rw [ringBase, hreg (by simp only [Reg.HST_RBASEL, Reg.HST_PBA]; omega) (by simp only [Reg.HST_RBASEL, Reg.HST_RDIDX]; omega),
      hreg (by simp only [Reg.HST_RBASEH, Reg.HST_PBA]; omega) (by simp only [Reg.HST_RBASEH, Reg.HST_RDIDX]; omega), ringBase]
  · simp only [Reg.HST_RCFG_IEN, Reg.HST_RCFG, Reg.HST_PBA]; omega
  · simp only [Reg.HST_RCFG_IEN, Reg.HST_RCFG, Reg.HST_RDIDX]; omega

/-- With an entry more, a ring has one unit less of room. -/
theorem ringGap_succ {size lo hi : Nat} (h : ringGap size lo hi + 1 < size) : ringGap size lo (hi + 1) = ringGap size lo hi + 1 := by
  have hpos : size ≠ 0 := by omega
  have hlo : lo % size < size := Nat.mod_lt _ (by omega)
  simp only [ringGap, if_neg hpos] at h ⊢
  have hshift : hi + 1 + size - lo % size = (hi + size - lo % size) + 1 := by omega
  rw [hshift, Nat.add_mod, Nat.mod_eq_of_lt (a := 1) (by omega), Nat.mod_eq_of_lt h]

/-- R452: the LOSS entry that the first entry's room lets return. -/
def eventLoss (l : List EventEntry) (s : State) : List EventEntry :=
  if nth s.hst.lost 2 0 ≠ 0 ∧ l.length < 64 then [⟨1023, 3, 0, s.ft, nth s.hst.lost 2 0, []⟩] else []

/-- The event queue without its first entry, and with the LOSS entry for which there is room (R455). -/
def eventTaken (l : List EventEntry) (s : State) : State := roomEvent { s with hst := { s.hst with evq := l } }

theorem eventTaken_shows (l : List EventEntry) (s : State) : (eventTaken l s).hst.evq = l ++ eventLoss l s ∧
    nth (eventTaken l s).hst.lost 2 0 = (if l.length < 64 then 0 else nth s.hst.lost 2 0) ∧ (eventTaken l s).hst.hidx = s.hst.hidx ∧
    (eventTaken l s).hst.phase = s.hst.phase ∧ (eventTaken l s).hst.mem = s.hst.mem ∧ Changes [.hst] (fun _ => False) s (eventTaken l s) := by
  by_cases h : nth s.hst.lost 2 0 ≠ 0 ∧ l.length < 64
  · have ht : eventTaken l s = { s with hst := { s.hst with evq := l ++ [⟨1023, 3, 0, s.ft, nth s.hst.lost 2 0, []⟩], lost := setNth s.hst.lost 2 0 } } :=
      if_pos h
    rw [ht, eventLoss, if_pos h, if_pos h.2]
    exact ⟨rfl, nth_setNth_same .., rfl, rfl, rfl, Changes.withHst s _⟩
  · have ht : eventTaken l s = { s with hst := { s.hst with evq := l } } := if_neg h
    rw [ht, eventLoss, if_neg h, List.append_nil]
    refine ⟨rfl, ?_, rfl, rfl, rfl, Changes.withHst s _⟩
    change nth s.hst.lost 2 0 = _
    split
    · next hl => omega
    · rfl

theorem nextIndex_of {r n : Nat} {s u : State} (hu : Changes [.hst] (fun _ => False) s u) : nextIndex r n u = nextIndex r n s := by
  have hsize : ringSize r u = ringSize r s := ringSize_of_reg (hu.reg_eq (by simp))
  have hdev : deviceIndex r u = deviceIndex r s := getF_of_reg (hu.reg_eq (by simp))
  rw [nextIndex, hsize, hdev, nextIndex]

section
variable {r n : Nat} {mk : Bool → List Byte} {s u : State} (hr : r < 11) (hu : Changes [.hst] (fun _ => False) s u)
include hr hu

/-- An entry written in a state whose ring is that of `s`. -/
theorem ringWrite_changes : Changes [.hst] (oneOf [Reg.HST_PBA 0, Reg.HST_RDIDX r]) s (ringWrite r n mk u) :=
  (hu.trans (ringWrite_written hr n mk u).changes).mono (by simp) (by simp)

theorem ringWrite_mem (hq : bit (Reg.HST_RCFG_IEN r) s = false) (hp : u.hst.phase = s.hst.phase) (hm : u.hst.mem = s.hst.mem) :
    (ringWrite r n mk u).hst.mem = memPut (ringBase r s + unitBytes r * deviceIndex r s) (mk (nth s.hst.phase r true)) s.hst.mem := by
  have hreg (a : Nat) : reg u a = reg s a := hu.reg_eq (by simp)
  have hdev : deviceIndex r u = deviceIndex r s := getF_of_reg (hreg _)
  rw [(ringWrite_written hr n mk u).mem ((bit_of_reg (hreg _)).trans hq), ringBase, hreg, hreg, hdev, hp, hm, ringBase]

end

theorem mod_ringSize_lt {r i : Nat} {s : State} (h : 0 < ringSize r s) : i % ringSize r s < 2 ^ 20 :=
  ((Nat.mod_lt _ h).trans (ringSize_lt r s)).trans (by decide)

/-- R452: the oldest event entry is written, and a LOSS entry takes the room that it leaves. -/
theorem eventEntryWrite_oldest {e : EventEntry} {l : List EventEntry} {s : State} (hg : isGen2 s = false) (hruns : ringRuns 2 s = true)
    (hroom : ringRoom 2 s ≠ 0) (hq : s.hst.evq = e :: l) (hi : deviceIndex 2 s < ringSize 2 s) : ∃ t, exec .eventEntryWrite s = .next t ∧
      nth t.hst.lost 2 0 = (if l.length < 64 then 0 else nth s.hst.lost 2 0) ∧ deviceIndex 2 t = (deviceIndex 2 s + 1) % ringSize 2 s ∧
      t.hst.evq = l ++ eventLoss l s ∧ (bit (Reg.HST_RCFG_IEN 2) s = false →
        t.hst.mem = memPut (ringBase 2 s + 80 * deviceIndex 2 s) (eventBytes e (nth s.hst.phase 2 true)) s.hst.mem) ∧
      Changes [.hst] (oneOf [Reg.HST_PBA 0, Reg.HST_RDIDX 2]) s t := by
  obtain ⟨hevq, hlost, -, hphase, hmem, hch⟩ := eventTaken_shows l s
  have hput := ringWrite_written (r := 2) (by decide) 1 (eventBytes e) (eventTaken l s)
  have hnext : nextIndex 2 1 (eventTaken l s) = (deviceIndex 2 s + 1) % ringSize 2 s := (nextIndex_of hch).trans (nextIndex_one hi)
  refine ⟨ringWrite 2 1 (eventBytes e) (eventTaken l s), ?_, by rw [hput.lost, hlost], (hput.index ?_).trans hnext, by rw [hput.evq, hevq],
    fun hquiet => ringWrite_mem (by decide) hch hquiet hphase hmem, ringWrite_changes (by decide) hch⟩
  · change execEventEntryWrite s = _
    rw [execEventEntryWrite, if_neg (by simp [hg, hruns, hroom])]
    simp only [hq]
    rfl
  · rw [hnext]
    exact mod_ringSize_lt (by omega)

/-- R455: with an empty queue the LOSS entry is written. -/
theorem eventEntryWrite_loss {s : State} (hg : isGen2 s = false) (hruns : ringRuns 2 s = true) (hroom : ringRoom 2 s ≠ 0) (hq : s.hst.evq = [])
    (hlost : nth s.hst.lost 2 0 ≠ 0) (hi : deviceIndex 2 s < ringSize 2 s) : ∃ t, exec .eventEntryWrite s = .next t ∧ t.hst.evq = [] ∧
      nth t.hst.lost 2 0 = 0 ∧ deviceIndex 2 t = (deviceIndex 2 s + 1) % ringSize 2 s ∧ (bit (Reg.HST_RCFG_IEN 2) s = false →
        t.hst.mem = memPut (ringBase 2 s + 80 * deviceIndex 2 s) (eventBytes ⟨1023, 3, 0, s.ft, nth s.hst.lost 2 0, []⟩ (nth s.hst.phase 2 true)) s.hst.mem) ∧
      Changes [.hst] (oneOf [Reg.HST_PBA 0, Reg.HST_RDIDX 2]) s t := by
  have hch := Changes.withHst s { s.hst with lost := setNth s.hst.lost 2 0 }
  have hput := ringWrite_written (r := 2) (by decide) 1 (eventBytes ⟨1023, 3, 0, s.ft, nth s.hst.lost 2 0, []⟩)
    { s with hst := { s.hst with lost := setNth s.hst.lost 2 0 } }
  have hnext : nextIndex 2 1 { s with hst := { s.hst with lost := setNth s.hst.lost 2 0 } } = (deviceIndex 2 s + 1) % ringSize 2 s :=
    (nextIndex_of hch).trans (nextIndex_one hi)
  refine ⟨ringWrite 2 1 (eventBytes ⟨1023, 3, 0, s.ft, nth s.hst.lost 2 0, []⟩) { s with hst := { s.hst with lost := setNth s.hst.lost 2 0 } }, ?_,
    hput.evq.trans hq, by rw [hput.lost]; exact nth_setNth_same .., (hput.index ?_).trans hnext,
    fun hquiet => ringWrite_mem (by decide) hch hquiet rfl rfl, ringWrite_changes (by decide) hch⟩
  · change execEventEntryWrite s = _
    rw [execEventEntryWrite, if_neg (by simp [hg, hruns, hroom])]
    simp only [hq, if_neg hlost]
  · rw [hnext]
    exact mod_ringSize_lt (by omega)

/-! ### Stream entries (R451, R455) -/

/-- The LOSS entry of a stream ring that has lost frames leaves first, where the ring has room (R455). -/
def lossFirst (k : Nat) (s : State) : State :=
  if nth s.hst.lost (3 + k) 0 ≠ 0 ∧ 1 ≤ ringRoom (3 + k) s then
    ringWrite (3 + k) 1 (streamBytes ⟨k, 3, 0, 0, 0, nth s.hst.lost (3 + k) 0, []⟩ 1)
      { s with hst := { s.hst with lost := setNth s.hst.lost (3 + k) 0 } }
  else s

/-- The units of the PAD that an entry needs which would wrap (R451). -/
def padUnits (k : Nat) (e : StreamEntry) (s : State) : Nat :=
  if ringSize (3 + k) s - deviceIndex (3 + k) s < streamUnits e then ringSize (3 + k) s - deviceIndex (3 + k) s else 0

/-- The PAD is written where one is needed. -/
def padded (k : Nat) (e : StreamEntry) (s : State) : State :=
  if padUnits k e s = 0 then s else ringWrite (3 + k) (padUnits k e s) (streamBytes ⟨k, 2, 0, 0, 0, 0, []⟩ (padUnits k e s)) s

/-- An entry leaves the buffer for its ring. -/
def entryWritten (k : Nat) (e : StreamEntry) (l : List StreamEntry) (s : State) : State :=
  ringWrite (3 + k) (streamUnits e) (streamBytes e (streamUnits e)) { s with hst := { s.hst with sbuf := l } }

section
variable {k : Fin 8} {e : StreamEntry} {l : List StreamEntry} {s : State} (hg : isGen2 s = false) (hruns : ringRuns (3 + k) s = true)
  (htake : takeStream k s.hst.sbuf = some (e, l))
include hg hruns htake

theorem exec_streamEntryWrite (hlost : nth (lossFirst k s).hst.lost (3 + k) 0 = 0)
    (hroom : streamUnits e + padUnits k e (lossFirst k s) ≤ ringRoom (3 + k) (lossFirst k s)) :
    exec (.streamEntryWrite k) s = .next (entryWritten k e l (padded k e (lossFirst k s))) := by
  change execStreamEntryWrite k s = _
  unfold execStreamEntryWrite
  extract_lets r
  rw [if_neg (by simp [r, hg, hruns]), htake]
  exact if_pos ⟨hlost, hroom⟩

end

section
variable {k : Fin 8} {e : StreamEntry} {l : List StreamEntry} {s : State}

theorem streamRing_lt (k : Fin 8) : 3 + k.val < 11 := by omega

/-- With nothing lost the entry comes first. -/
theorem lossFirst_none (h : nth s.hst.lost (3 + k) 0 = 0) : lossFirst k s = s := if_neg (by simp [h])

theorem streamUnits_pos (e : StreamEntry) : 0 < streamUnits e := by
  unfold streamUnits
  split <;> omega

/-- An entry that fits without wrapping needs no PAD. -/
theorem padded_none (h : deviceIndex (3 + k) s + streamUnits e ≤ ringSize (3 + k) s) : padUnits k e s = 0 ∧ padded k e s = s := by
  have h0 : padUnits k e s = 0 := if_neg (by omega)
  exact ⟨h0, if_pos h0⟩

theorem nextIndex_within {r n : Nat} {s : State} (h : deviceIndex r s + n ≤ ringSize r s) :
    nextIndex r n s = (deviceIndex r s + n) % ringSize r s := by
  unfold nextIndex
  split
  · have heq : deviceIndex r s + n = ringSize r s := by omega
    rw [heq, Nat.mod_self, Nat.sub_self]
  · rw [Nat.mod_eq_of_lt (by omega)]

/-- An entry as it is written in the ring's state. -/
theorem entryWritten_shows (k : Fin 8) (e : StreamEntry) (l : List StreamEntry) (s : State) :
    RingWritten (3 + k) (streamUnits e) (streamBytes e (streamUnits e)) { s with hst := { s.hst with sbuf := l } } (entryWritten k e l s) :=
  ringWrite_written (streamRing_lt k) _ _ _

theorem Changes.entryWritten (k : Fin 8) (e : StreamEntry) (l : List StreamEntry) (s : State) :
    Changes [.hst] (oneOf [Reg.HST_PBA 0, Reg.HST_RDIDX (3 + k)]) s (entryWritten k e l s) :=
  ringWrite_changes (streamRing_lt k) (Changes.withHst s _)

variable (hg : isGen2 s = false) (hruns : ringRuns (3 + k) s = true) (htake : takeStream k s.hst.sbuf = some (e, l))
include hg hruns htake

/-- R451: an entry that fits is written at the ring's device index. -/
theorem streamEntryWrite_fits (hlost : nth s.hst.lost (3 + k) 0 = 0) (hfit : deviceIndex (3 + k) s + streamUnits e ≤ ringSize (3 + k) s)
    (hroom : streamUnits e ≤ ringRoom (3 + k) s) : ∃ t, exec (.streamEntryWrite k) s = .next t ∧ t.hst.sbuf = l ∧
      deviceIndex (3 + k) t = (deviceIndex (3 + k) s + streamUnits e) % ringSize (3 + k) s ∧
      (bit (Reg.HST_RCFG_IEN (3 + k)) s = false → t.hst.mem = memPut (ringBase (3 + k) s + 16 * deviceIndex (3 + k) s)
        (streamBytes e (streamUnits e) (nth s.hst.phase (3 + k) true)) s.hst.mem) ∧
      Changes [.hst] (oneOf [Reg.HST_PBA 0, Reg.HST_RDIDX (3 + k)]) s t := by
  have hfirst := lossFirst_none hlost
  obtain ⟨hpad, hpadded⟩ := padded_none hfit
  have hput := entryWritten_shows k e l s
  have hpos : 0 < ringSize (3 + k) s := by have := streamUnits_pos e; omega
  have hnext : nextIndex (3 + k) (streamUnits e) { s with hst := { s.hst with sbuf := l } } =
      (deviceIndex (3 + k) s + streamUnits e) % ringSize (3 + k) s := nextIndex_within hfit
  refine ⟨entryWritten k e l s, ?_, hput.sbuf, (hput.index ?_).trans hnext, fun hq => ?_, Changes.entryWritten k e l s⟩
  · have hexec := exec_streamEntryWrite hg hruns htake (by rw [hfirst]; exact hlost) (by rw [hfirst, hpad]; exact hroom)
    rw [hfirst, hpadded] at hexec
    exact hexec
  · rw [hnext]
    exact mod_ringSize_lt hpos
  · refine (hput.mem hq).trans ?_
    have hunit : unitBytes (3 + k) = 16 := by
      unfold unitBytes
      rw [if_neg (by omega), if_neg (by omega), if_neg (by omega)]
    rw [hunit]
    rfl

/-- R451: an entry that would wrap comes after a PAD, at the start of the next pass. -/
theorem streamEntryWrite_wraps (hlost : nth s.hst.lost (3 + k) 0 = 0) (hi : deviceIndex (3 + k) s < ringSize (3 + k) s)
    (hwrap : ringSize (3 + k) s < deviceIndex (3 + k) s + streamUnits e) (hsmall : streamUnits e < ringSize (3 + k) s)
    (hroom : streamUnits e + (ringSize (3 + k) s - deviceIndex (3 + k) s) ≤ ringRoom (3 + k) s) :
    ∃ t, exec (.streamEntryWrite k) s = .next t ∧ t.hst.sbuf = l ∧ deviceIndex (3 + k) t = streamUnits e ∧
      nth t.hst.phase (3 + k) true = (!nth s.hst.phase (3 + k) true) ∧ Changes [.hst] (oneOf [Reg.HST_PBA 0, Reg.HST_RDIDX (3 + k)]) s t := by
  have hfirst := lossFirst_none hlost
  have hpad : padUnits k e s = ringSize (3 + k) s - deviceIndex (3 + k) s := if_pos (by omega)
  have hpadded : padded k e s = ringWrite (3 + k) (ringSize (3 + k) s - deviceIndex (3 + k) s)
      (streamBytes ⟨k, 2, 0, 0, 0, 0, []⟩ (ringSize (3 + k) s - deviceIndex (3 + k) s)) s := by
    rw [padded, hpad, if_neg (by omega)]
  have hfill := ringWrite_written (streamRing_lt k) (ringSize (3 + k) s - deviceIndex (3 + k) s)
    (streamBytes ⟨k, 2, 0, 0, 0, 0, []⟩ (ringSize (3 + k) s - deviceIndex (3 + k) s)) s
  rw [← hpadded] at hfill
  obtain ⟨hsize, -, -⟩ := hfill.ring_eq (streamRing_lt k)
  have hstart : nextIndex (3 + k) (ringSize (3 + k) s - deviceIndex (3 + k) s) s = 0 := by
    rw [nextIndex, if_pos (by omega)]
    omega
  have hdev : deviceIndex (3 + k) (padded k e s) = 0 := (hfill.index (by rw [hstart]; decide)).trans hstart
  have hput := entryWritten_shows k e l (padded k e s)
  have hnowrap : ¬ ringSize (3 + k) (padded k e s) ≤ deviceIndex (3 + k) (padded k e s) + streamUnits e := by
    rw [hsize, hdev]
    omega
  have hnext : nextIndex (3 + k) (streamUnits e) { padded k e s with hst := { (padded k e s).hst with sbuf := l } } = streamUnits e := by
    refine (if_neg hnowrap).trans ?_
    change deviceIndex (3 + k) (padded k e s) + streamUnits e = _
    rw [hdev, Nat.zero_add]
  have hbound := (hsmall.trans (ringSize_lt (3 + k) s)).trans (show (2 : Nat) ^ 17 < 2 ^ 20 by decide)
  refine ⟨entryWritten k e l (padded k e s), ?_, hput.sbuf, (hput.index (by rw [hnext]; exact hbound)).trans hnext, ?_,
    (hfill.changes.trans (Changes.entryWritten k e l _)).mono (by simp) (by simp)⟩
  · have hexec := exec_streamEntryWrite hg hruns htake (by rw [hfirst]; exact hlost) (by rw [hfirst, hpad]; exact hroom)
    rw [hfirst] at hexec
    exact hexec
  · refine (hput.phase.trans (if_neg hnowrap)).trans (hfill.phase.trans (if_pos ?_))
    omega

/-- R455: where frames were lost the LOSS entry comes first. -/
theorem streamEntryWrite_afterLoss (hlost : nth s.hst.lost (3 + k) 0 ≠ 0)
    (hfit : deviceIndex (3 + k) s + 1 + streamUnits e < ringSize (3 + k) s) (hroom : 1 + streamUnits e ≤ ringRoom (3 + k) s) :
    ∃ t, exec (.streamEntryWrite k) s = .next t ∧ t.hst.sbuf = l ∧
      deviceIndex (3 + k) t = (deviceIndex (3 + k) s + (1 + streamUnits e)) % ringSize (3 + k) s ∧ nth t.hst.lost (3 + k) 0 = 0 ∧
      (bit (Reg.HST_RCFG_IEN (3 + k)) s = false → t.hst.mem = memPut (ringBase (3 + k) s + 16 * (deviceIndex (3 + k) s + 1))
        (streamBytes e (streamUnits e) (nth s.hst.phase (3 + k) true)) (memPut (ringBase (3 + k) s + 16 * deviceIndex (3 + k) s)
          (streamBytes ⟨k, 3, 0, 0, 0, nth s.hst.lost (3 + k) 0, []⟩ 1 (nth s.hst.phase (3 + k) true)) s.hst.mem)) ∧
      Changes [.hst] (oneOf [Reg.HST_PBA 0, Reg.HST_RDIDX (3 + k)]) s t := by
  have hunit : unitBytes (3 + k) = 16 := by
    unfold unitBytes
    rw [if_neg (by omega), if_neg (by omega), if_neg (by omega)]
  have hfirst : lossFirst k s = ringWrite (3 + k) 1 (streamBytes ⟨k, 3, 0, 0, 0, nth s.hst.lost (3 + k) 0, []⟩ 1)
      { s with hst := { s.hst with lost := setNth s.hst.lost (3 + k) 0 } } := if_pos ⟨hlost, by omega⟩
  have hloss := ringWrite_written (streamRing_lt k) 1 (streamBytes ⟨k, 3, 0, 0, 0, nth s.hst.lost (3 + k) 0, []⟩ 1)
    { s with hst := { s.hst with lost := setNth s.hst.lost (3 + k) 0 } }
  rw [← hfirst] at hloss
  obtain ⟨hsize, hbase, hien⟩ := hloss.ring_eq (streamRing_lt k)
  have hsize' : ringSize (3 + k) (lossFirst k s) = ringSize (3 + k) s := hsize
  have hnext1 : nextIndex (3 + k) 1 { s with hst := { s.hst with lost := setNth s.hst.lost (3 + k) 0 } } = deviceIndex (3 + k) s + 1 := by
    refine if_neg ?_
    change ¬ ringSize (3 + k) s ≤ deviceIndex (3 + k) s + 1
    omega
  have hsizelt := ringSize_lt (3 + k) s
  have hdev : deviceIndex (3 + k) (lossFirst k s) = deviceIndex (3 + k) s + 1 := by
    refine (hloss.index ?_).trans hnext1
    rw [hnext1]
    omega
  have hnone : nth (lossFirst k s).hst.lost (3 + k) 0 = 0 := by
    rw [hloss.lost]
    exact nth_setNth_same ..
  have hhost : hostIndex (3 + k) (lossFirst k s) = hostIndex (3 + k) s := congrArg (nth · (3 + k.val) 0) hloss.hidx
  have hpass : nth (lossFirst k s).hst.phase (3 + k) true = nth s.hst.phase (3 + k) true := by
    refine hloss.phase.trans (if_neg ?_)
    change ¬ ringSize (3 + k) s ≤ deviceIndex (3 + k) s + 1
    omega
  obtain ⟨hpad, hpadded⟩ := padded_none (k := k) (e := e) (s := lossFirst k s) (by rw [hdev, hsize']; omega)
  have hroom' : streamUnits e ≤ ringRoom (3 + k) (lossFirst k s) := by
    have hpos := streamUnits_pos e
    rw [ringRoom] at hroom ⊢
    rw [hsize', hhost, hdev, ringGap_succ (by omega)]
    omega
  have hput := entryWritten_shows k e l (lossFirst k s)
  have hnext : nextIndex (3 + k) (streamUnits e) { lossFirst k s with hst := { (lossFirst k s).hst with sbuf := l } } =
      (deviceIndex (3 + k) s + (1 + streamUnits e)) % ringSize (3 + k) s := by
    refine (nextIndex_within (s := { lossFirst k s with hst := { (lossFirst k s).hst with sbuf := l } }) ?_).trans ?_
    · change deviceIndex (3 + k) (lossFirst k s) + streamUnits e ≤ ringSize (3 + k) (lossFirst k s)
      rw [hdev, hsize']
      omega
    · change (deviceIndex (3 + k) (lossFirst k s) + streamUnits e) % ringSize (3 + k) (lossFirst k s) = _
      rw [hdev, hsize', Nat.add_assoc]
  refine ⟨entryWritten k e l (lossFirst k s), ?_, hput.sbuf, (hput.index ?_).trans hnext, ?_, fun hq => ?_,
    (((Changes.withHst s _).trans hloss.changes).trans (Changes.entryWritten k e l _)).mono (by simp) (by simp)⟩
  · have hexec := exec_streamEntryWrite hg hruns htake hnone (by rw [hpad]; exact hroom')
    rw [hpadded] at hexec
    exact hexec
  · rw [hnext]
    exact mod_ringSize_lt (by omega)
  · rw [hput.lost]
    exact hnone
  · refine (hput.mem (hien.trans hq)).trans ?_
    change memPut (ringBase (3 + k) (lossFirst k s) + unitBytes (3 + k) * deviceIndex (3 + k) (lossFirst k s))
      (streamBytes e (streamUnits e) (nth (lossFirst k s).hst.phase (3 + k) true)) (lossFirst k s).hst.mem = _
    rw [hbase, hdev, hpass, hloss.mem hq, hunit]
    rfl

end

/-! ### The writeback block and moderation (R453, R454) -/

theorem mem_dmaWrite (a : Nat) (bs : List Byte) (s : State) : (dmaWrite a bs s).hst.mem = memPut a bs s.hst.mem := rfl

/-- R453: the writeback block is written. -/
theorem writeback_due {s : State} (hd : s.hst.dirty = true)
    (ht : s.hst.wbAt.all (fun u => decide (u + getF Reg.HST_WBCFG_WBINT s * us ≤ s.now)) = true) (hen : bit Reg.HST_WBL_EN s = true)
    (hdma : dmaAllowed s = true) : ∃ t, exec .writeback s = .next t ∧ t.hst.dirty = false ∧ t.hst.wbAt = some s.now ∧
      t.hst.writebacks = s.hst.writebacks + 1#32 ∧ t.hst.mem = memPut (getF Reg.HST_WBL_ADDR s * 64 + 2 ^ 32 * (reg s Reg.HST_WBH).toNat)
        (wordsBytes (writebackWords (s.hst.writebacks + 1#32) s)) s.hst.mem ∧ Changes [.hst] (fun _ => False) s t := by
  have hwrite : writeback s = dmaWrite (getF Reg.HST_WBL_ADDR s * 64 + 2 ^ 32 * (reg s Reg.HST_WBH).toNat)
      (wordsBytes (writebackWords (s.hst.writebacks + 1#32) s))
      { s with hst := { s.hst with writebacks := s.hst.writebacks + 1#32, wbAt := some s.now, dirty := false } } :=
    if_pos (by rw [hen, hdma]; rfl)
  refine ⟨writeback s, ?_, ?_⟩
  · change execWriteback s = _
    rw [execWriteback, if_pos (by rw [hd, ht]; rfl)]
  · rw [hwrite]
    exact ⟨rfl, rfl, rfl, mem_dmaWrite .., ((Changes.withHst s _).trans (Changes.dmaWrite ..)).mono (by simp) (by simp)⟩

theorem writeback_early {s : State} (h : s.hst.dirty = false ∨ s.hst.wbAt.any (fun u => decide (s.now < u + getF Reg.HST_WBCFG_WBINT s * us)) = true) :
    exec .writeback s = .next s := by
  refine if_neg fun hgo => ?_
  simp only [Bool.and_eq_true] at hgo
  obtain ⟨hdirty, hall⟩ := hgo
  obtain hclean | hsoon := h
  · simp [hclean] at hdirty
  · obtain ⟨u, hu, hlt⟩ := (Option.any_eq_true _ _).1 hsoon
    exact Nat.not_lt.2 (of_decide_eq_true ((Option.all_eq_true _ _).1 hall u hu)) (of_decide_eq_true hlt)

/-- A ring whose moderation time has passed, with a message that may be sent or counted (R454). -/
def moderationDue (r : Nat) (s : State) : Prop :=
  r ≠ 0 ∧ bit (Reg.HST_RCFG_IEN r) s = true ∧ getF (Reg.HST_RMOD_MODT r) s ≠ 0 ∧ (nth s.hst.unsig r (0, 0)).1 ≠ 0 ∧
    (nth s.hst.unsig r (0, 0)).2 + getF (Reg.HST_RMOD_MODT r) s * us ≤ s.now ∧ dmaAllowed s = true

theorem exec_moderationTimeout_due (r : Fin 11) {s : State} (h : moderationDue r s) : exec (.moderationTimeout r) s = .next (signalRing r s) := by
  obtain ⟨h0, hien, hmodt, hn, ht, hdma⟩ := h
  exact if_pos ⟨h0, hien, hdma, hmodt, hn, ht⟩

theorem exec_moderationTimeout_early (r : Fin 11) {s : State} (h : ¬ moderationDue r s) : exec (.moderationTimeout r) s = .next s := by
  refine if_neg fun hgo => h ?_
  obtain ⟨h0, hien, hdma, hmodt, hn, ht⟩ := hgo
  exact ⟨h0, hien, hmodt, hn, ht, hdma⟩

/-- The count of a ring clears as its message leaves. -/
def countCleared (r : Nat) (s : State) : State := { s with hst := { s.hst with unsig := setNth s.hst.unsig r (0, 0) } }

theorem signalRing_sends {r : Nat} {s : State} (hm : s.hst.pcie.msixEn = true) (hdma : dmaAllowed s = true) :
    signalRing r s = if vectorMasked (getF (Reg.HST_RCFG_VEC r) s) s then setRegBit (Reg.HST_PBA 0) (getF (Reg.HST_RCFG_VEC r) s) true (countCleared r s)
      else sendVector (getF (Reg.HST_RCFG_VEC r) s) (countCleared r s) := by
  have hgo : (s.hst.pcie.msixEn && dmaAllowed s) = true := by rw [hm, hdma]; rfl
  have hgo' : ((countCleared r s).hst.pcie.msixEn && dmaAllowed (countCleared r s)) = true := hgo
  have hmask : vectorMasked (getF (Reg.HST_RCFG_VEC r) s) (countCleared r s) = vectorMasked (getF (Reg.HST_RCFG_VEC r) s) s := rfl
  rw [signalRing, if_pos hgo]
  change message (getF (Reg.HST_RCFG_VEC r) s) (countCleared r s) = _
  rw [message, if_pos hgo', hmask]

theorem signalRing_silent {r : Nat} {s : State} (hm : s.hst.pcie.msixEn = false) : signalRing r s = s := if_neg (by simp [hm])

/-- The counts of the rings and of the messages of each vector. -/
def messageView (s : State) : List (Nat × Nat) × List Nat := (s.hst.unsig, s.hst.msi)

theorem messageView_dmaWrite (a : Nat) (bs : List Byte) (s : State) : messageView (dmaWrite a bs s) = messageView s := (rfl)

theorem messageView_noted (s : State) (n : Word) (u : Option Nat) :
    messageView { s with hst := { s.hst with writebacks := n, wbAt := u, dirty := false } } = messageView s := (rfl)

theorem messageView_writeback (s : State) : messageView (writeback s) = messageView s := by
  simp only [writeback, apply_ite messageView, messageView_dmaWrite, messageView_noted, ite_self]

theorem messageView_sendVector (v : Nat) (s : State) :
    messageView (sendVector v s) = (s.hst.unsig, setNth s.hst.msi v (nth s.hst.msi v 0 + 1)) := by
  have hview := messageView_writeback s
  have hunsig : (writeback s).hst.unsig = s.hst.unsig := congrArg Prod.fst hview
  have hmsi : (writeback s).hst.msi = s.hst.msi := congrArg Prod.snd hview
  rw [sendVector, messageView_dmaWrite]
  change ((writeback s).hst.unsig, setNth (writeback s).hst.msi v (nth (writeback s).hst.msi v 0 + 1)) = _
  rw [hunsig, hmsi]

/-- R454: a moderation time that has passed sends the ring's message. -/
theorem moderationTimeout_sends (r : Fin 11) {s : State} (h : moderationDue r s) (hm : s.hst.pcie.msixEn = true)
    (hmask : vectorMasked (getF (Reg.HST_RCFG_VEC r) s) s = false) : ∃ t, exec (.moderationTimeout r) s = .next t ∧
      nth t.hst.unsig r (1, 1) = (0, 0) ∧ nth t.hst.msi (getF (Reg.HST_RCFG_VEC r) s) 0 = nth s.hst.msi (getF (Reg.HST_RCFG_VEC r) s) 0 + 1 ∧
      t.hst.evq = s.hst.evq ∧ t.hst.sbuf = s.hst.sbuf ∧ Changes [.hst] (fun _ => False) s t := by
  have hsend : signalRing r s = sendVector (getF (Reg.HST_RCFG_VEC r) s) (countCleared r s) := by
    rw [signalRing_sends hm h.2.2.2.2.2, hmask]
    rfl
  have hview := messageView_sendVector (getF (Reg.HST_RCFG_VEC r) s) (countCleared r s)
  have hqueues := ringView_sendVector (getF (Reg.HST_RCFG_VEC r) s) (countCleared r s)
  refine ⟨signalRing r s, exec_moderationTimeout_due r h, ?_⟩
  rw [hsend]
  refine ⟨?_, ?_, congrArg (fun v => v.2.1) hqueues, congrArg (fun v => v.1) hqueues,
    ((Changes.withHst s _).trans (Changes.sendVector ..)).mono (by simp) (by simp)⟩
  · exact (congrArg (fun v => nth v.1 r.val (1, 1)) hview).trans (nth_setNth_same ..)
  · exact (congrArg (fun v => nth v.2 (getF (Reg.HST_RCFG_VEC r) s) 0) hview).trans (nth_setNth_same ..)

/-- R454: a masked vector's bit is set instead. -/
theorem moderationTimeout_masked (r : Fin 11) {s : State} (h : moderationDue r s) (hm : s.hst.pcie.msixEn = true)
    (hmask : vectorMasked (getF (Reg.HST_RCFG_VEC r) s) s = true) : ∃ t, exec (.moderationTimeout r) s = .next t ∧
      nth t.hst.unsig r (1, 1) = (0, 0) ∧ t.hst.msi = s.hst.msi ∧ regBit (Reg.HST_PBA 0) (getF (Reg.HST_RCFG_VEC r) s) t = true ∧
      t.hst.evq = s.hst.evq ∧ t.hst.sbuf = s.hst.sbuf ∧ Changes [.hst] (oneOf [Reg.HST_PBA 0]) s t := by
  have hset : signalRing r s = setRegBit (Reg.HST_PBA 0) (getF (Reg.HST_RCFG_VEC r) s) true (countCleared r s) := by
    rw [signalRing_sends hm h.2.2.2.2.2, hmask]
    rfl
  have hvec : getF (Reg.HST_RCFG_VEC r) s < 32 := (Nat.mod_lt _ (Nat.two_pow_pos 3)).trans (by decide)
  refine ⟨signalRing r s, exec_moderationTimeout_due r h, ?_⟩
  rw [hset]
  exact ⟨nth_setNth_same .., rfl, regBit_setRegBit_same _ hvec true _, rfl, rfl,
    ((Changes.withHst s _).trans (Changes.setRegBit (Reg.HST_PBA 0) _ true _)).mono (by simp) (fun a ha => by simpa [oneOf] using ha)⟩

/-- Settles O44: the rings' set-up and doorbells by what R462 lists, and each entry by its place in its ring. -/
theorem rings : Obligations.Rings := by
  unfold Obligations.Rings
  intro s fenced quiet moved wrote role2 inStream lost lossOf entry mine ready vec
  have hlossOf (ring : Nat) : lossOf (3 + ring) = streamLoss ring s := by
    simp only [lossOf, lost, streamLoss, Nat.add_sub_cancel_left]
  refine ⟨?_, ?_, ?_, ?_, ?_, ?_, ?_, ?_, ?_, ?_, ?_, ?_, ?_, ?_, ?_, ?_, ?_, ?_, ?_, ?_, ?_, ?_, ?_, ?_, ?_, ?_, ?_, ?_, ?_⟩
  · intro r hup hf hen hbad hw
    exact ringEnable_starts r hup hf hen hbad hw
  · intro d hup hg hdma hen hbad hq hw
    exact ringEnable_completes hup hg hdma hen hbad hq hw
  · intro r hup hf h11 hen hclash
    exact ringEnable_writeback r hup hf h11 hen hclash
  · intro r h
    exact if_pos h
  · intro r hup hf hin
    exact ringEnable_inUse r hup hf hin
  · intro r hup hf hen hbad
    exact ringEnable_bad r hup hf hen hbad
  · intro r i hup hacts hgood hw
    exact doorbellWrite_moves r i hup hacts hgood hw
  · intro r i hup hidle
    exact doorbellWrite_idle r i hup hidle
  · intro r i hup hacts hbad
    exact doorbellWrite_bad r i hup hacts hbad
  · intro d hm hd hb hi
    exact descriptorFetch_takes hm hd hb hi
  · intro d l h
    exact descriptorFetch_none l h
  · intro d hm hd
    exact descriptorFetch_bad hm hd
  · rintro n f ⟨hup, hrole, hf, hmap⟩ hg hroom
    rw [hlossOf] at hroom ⊢
    exact streamFrameReceive_gen2 n hup hrole hf hmap hg hroom
  · rintro n f ⟨hup, hrole, hf, hmap⟩ hg hen hbus hroom
    exact streamFrameReceive_gen3 n hup hrole hf hmap hg hen hbus hroom
  · intro n f hup hrole hf hmap
    exact streamFrameReceive_unmapped n hup hrole hf hmap
  · intro n f hup hrole hf
    exact streamFrameReceive_late n hup hrole hf
  · rintro k e l ⟨hg, hruns, htake⟩ hlost hfit hroom
    exact streamEntryWrite_fits hg hruns htake hlost hfit hroom
  · rintro k e l ⟨hg, hruns, htake⟩ hlost hi hwrap hsmall hroom
    exact streamEntryWrite_wraps hg hruns htake hlost hi hwrap hsmall hroom
  · rintro k e l ⟨hg, hruns, htake⟩ hlost hfit hroom
    exact streamEntryWrite_afterLoss hg hruns htake hlost hfit hroom
  · rintro n f ⟨hup, hrole, hg⟩ hf hroom hlost
    exact ⟨eventIn 1 n f s, if_neg (by simp [hf, hup]), eventIn_room hrole hg 1 hroom hlost⟩
  · rintro n f ⟨hup, hrole, hg⟩ hf hroom hlost
    exact ⟨eventIn 2 n f s, if_neg (by simp [hf, hup]), eventIn_room hrole hg 2 hroom hlost⟩
  · rintro n f ⟨hup, hrole, hg⟩ hf hfull
    exact ⟨eventIn 1 n f s, if_neg (by simp [hf, hup]), eventIn_full hrole hg 1 hfull⟩
  · intro e l hg hruns hroom hq hi
    exact eventEntryWrite_oldest hg hruns hroom hq hi
  · intro hg hruns hroom hq hlost hi
    exact eventEntryWrite_loss hg hruns hroom hq hlost hi
  · intro hd ht hen hdma
    exact writeback_due hd ht hen hdma
  · intro h
    exact writeback_early h
  · intro r h hm hmask
    exact moderationTimeout_sends r h hm hmask
  · intro r h hm hmask
    exact moderationTimeout_masked r h hm hmask
  · rintro r h
    by_cases hdue : moderationDue r s
    · have hm : s.hst.pcie.msixEn = false := h.resolve_left fun hn => hn hdue
      rw [exec_moderationTimeout_due r hdue, signalRing_silent hm]
    · exact exec_moderationTimeout_early r hdue

end Sys2Proof.Machine
end

