-- ==== Sys2Proof/Proofs/TimebaseStates.lean ====
section
/-!
PROOFS. The states of the timebase, the choice of a parent and what partners report (R467, R468, R471, R472, R474, R476).
-/
namespace Sys2Proof.Machine

/-! ### Folds over the ports -/

theorem foldl_fixed {α β : Type} {f : β → α → β} {l : List α} {b : β} (h : ∀ x ∈ l, f b x = b) : l.foldl f b = b := by
  induction l with
  | nil => rfl
  | cons x rest ih => rw [List.foldl_cons, h x List.mem_cons_self, ih fun y hy => h y (List.mem_cons_of_mem _ hy)]

/-- The ports before and after one port. -/
theorem range_split {n : Nat} (hn : n < 4) : ∃ l1 l2 : List Nat, List.range 4 = l1 ++ n :: l2 ∧ (∀ m ∈ l1, m < 4 ∧ m ≠ n) ∧ (∀ m ∈ l2, m < 4 ∧ m ≠ n) := by
  obtain ⟨l1, l2, hsplit⟩ := List.append_of_mem (List.mem_range.2 hn)
  have hnodup : (l1 ++ n :: l2).Nodup := hsplit ▸ List.nodup_range
  have hlt : ∀ m ∈ l1 ++ n :: l2, m < 4 := fun m hm => List.mem_range.1 (hsplit ▸ hm)
  refine ⟨l1, l2, hsplit, fun m hm => ⟨hlt m (by simp [hm]), ?_⟩, fun m hm => ⟨hlt m (by simp [hm]), ?_⟩⟩
  · exact fun h => (List.nodup_append.1 hnodup).2.2 m hm n List.mem_cons_self h
  · exact fun h => (List.nodup_cons.1 (List.nodup_append.1 hnodup).2.1).1 (h ▸ hm)

/-- A fold over the ports to which one port alone contributes. -/
theorem foldl_range_only {β : Type} {f : β → Nat → β} {n : Nat} (hn : n < 4) (h : ∀ b m, m < 4 → m ≠ n → f b m = b) (b : β) :
    (List.range 4).foldl f b = f b n := by
  obtain ⟨l1, l2, hsplit, h1, h2⟩ := range_split hn
  rw [hsplit, List.foldl_append, foldl_fixed fun m hm => h b m (h1 m hm).1 (h1 m hm).2, List.foldl_cons,
    foldl_fixed fun m hm => h _ m (h2 m hm).1 (h2 m hm).2]

/-! ### The states of the timebase (R472) -/

theorem isRoot_of {s t : State} (hcfg : reg t Reg.TBS_CFG = reg s Reg.TBS_CFG) (hstat : reg t Reg.HST_STAT = reg s Reg.HST_STAT)
    (hid : reg t Reg.FAB_ID = reg s Reg.FAB_ID) (hw : t.fab.withdrawn = s.fab.withdrawn) : isRoot t = isRoot s := by
  have hroot : getF Reg.TBS_CFG_ROOT t = getF Reg.TBS_CFG_ROOT s := getF_of_reg hcfg
  have hrole : hasRole t = hasRole s := bit_of_reg hstat
  have hvalid : bit Reg.FAB_ID_VALID t = bit Reg.FAB_ID_VALID s := bit_of_reg hid
  simp only [isRoot, enumeratesHere, hroot, hrole, hvalid, hw]

/-- What the end of a plan with TIME changes where TBLOCK falls (R472). -/
def unlockEnd (code : Nat) (s : State) : State := if bit Reg.CMS_STAT_TBLOCK s && !decide (2 ≤ code) then planAbort 8 s else s

theorem Changes.unlockEnd (code : Nat) (s : State) :
    Changes [.imp, .free, .flt, .fab] (oneOf [Reg.IMP_STAT, Reg.IMP_EVT]) s (unlockEnd code s) :=
  .of_ite (.planAbort 8 s) (.refl ..)

theorem unlockEnd_locked {code : Nat} (h : 2 ≤ code) (s : State) : unlockEnd code s = s := by simp [unlockEnd, h]

theorem waiting_subset_unlockEnd (code : Nat) (s : State) : s.flt.waiting ⊆ (unlockEnd code s).flt.waiting := by
  unfold unlockEnd
  split
  · exact waiting_subset_planAbort 8 s
  · exact List.Subset.refl _

theorem enterTb_eq (code : Nat) (s : State) : enterTb code s = setB Reg.CMS_STAT_TBLOCK (decide (2 ≤ code)) (setF Reg.TBS_STAT_STATE code
    { unlockEnd code s with tbs := { (unlockEnd code s).tbs with good := 0, bad := 0 } }) := rfl

theorem tbState_enterTb {code : Nat} (h : code < 4) (s : State) : tbState (enterTb code s) = code :=
  (getF_of_reg (reg_setB_other (by decide) _ _)).trans ((getF_setF_same Reg.TBS_STAT_STATE _ _ (by decide)).trans (Nat.mod_eq_of_lt h))

theorem tblock_enterTb (code : Nat) (s : State) : bit Reg.CMS_STAT_TBLOCK (enterTb code s) = decide (2 ≤ code) := bit_setB_same (by decide) rfl _ _

theorem tbs_enterTb (code : Nat) (s : State) : (enterTb code s).tbs = { s.tbs with good := 0, bad := 0 } :=
  congrArg (fun x : TbsState => { x with good := 0, bad := 0 }) ((Changes.unlockEnd code s).part_eq .tbs (by simp))

/-- A field of `TBS_STAT` beside STATE. -/
theorem getF_enterTb {g : Field} (ha : g.addr = Reg.TBS_STAT) (h : g.lo + g.w ≤ 0 ∨ 2 ≤ g.lo) (hw : g.lo + g.w ≤ 32) (code : Nat) (s : State) :
    getF g (enterTb code s) = getF g s := by
  have hlock : getF g (enterTb code s) = getF g (setF Reg.TBS_STAT_STATE code
      { unlockEnd code s with tbs := { (unlockEnd code s).tbs with good := 0, bad := 0 } }) := getF_of_reg (reg_setB_other (by rw [ha]; decide) _ _)
  rw [hlock, getF_setF_beside _ _ _ _ h hw]
  exact getF_of_reg ((Changes.unlockEnd code s).reg_eq (by rw [ha]; unfold oneOf; decide))

theorem Changes.enterTb (code : Nat) (s : State) :
    Changes [.tbs, .imp, .free, .flt, .fab] (oneOf [Reg.TBS_STAT, Reg.CMS_STAT, Reg.IMP_STAT, Reg.IMP_EVT]) s (enterTb code s) :=
  ((((Changes.unlockEnd code s).trans (.withTbs _ _)).trans (.setF Reg.TBS_STAT_STATE code _)).trans (.setB Reg.CMS_STAT_TBLOCK _ _)).mono (by simp)
    (by simp only [oneOf, Reg.TBS_STAT_STATE, Reg.CMS_STAT_TBLOCK, List.mem_cons, List.not_mem_nil]; tauto)

/-- A state that keeps TBLOCK, or sets it, ends no plan. -/
theorem Changes.enterTb_locked {code : Nat} (h : 2 ≤ code) (s : State) : Changes [.tbs] (oneOf [Reg.TBS_STAT, Reg.CMS_STAT]) s (Machine.enterTb code s) := by
  rw [enterTb_eq, unlockEnd_locked h]
  exact (((Changes.withTbs s _).trans (.setF Reg.TBS_STAT_STATE code _)).trans (.setB Reg.CMS_STAT_TBLOCK _ _)).mono (by simp)
    (by simp [oneOf, Reg.TBS_STAT_STATE, Reg.CMS_STAT_TBLOCK])

theorem Changes.announce (s : State) : Changes [.lnk] (fun _ => False) s (announce s) :=
  .foldl _ _ (fun t n => .of_ite (.enqueue_classA rfl n 4 t) (.refl ..)) s

/-- What FREERUN is (R471, R472). -/
structure Freeruns (s t : State) : Prop where
  state : tbState t = 0
  lock : bit Reg.CMS_STAT_TBLOCK t = false
  hops : getF Reg.TBS_STAT_HOPS t = 31
  parent : t.tbs.parent = false
  time : t.ft = s.ft

/-- A node as it gives up its time (R472, R476). -/
def giveUp (s : State) : State :=
  let s1 := if 2 ≤ tbState s then pulse 14 s else s
  { s1 with tbs := { s1.tbs with parent := false, slew := 0 } }

theorem enterFreerun_eq (s : State) : enterFreerun s = setF Reg.TBS_STAT_HOPS 31 (enterTb 0 (giveUp s)) := rfl

theorem Changes.giveUp (s : State) : Changes [.tbs, .flt] (fun _ => False) s (giveUp s) :=
  ((Changes.of_ite (.pulse 14 s) (.refl ..)).trans (.withTbs _ _)).mono (by simp) (by simp)

theorem enterFreerun_freeruns (s : State) : Freeruns s (enterFreerun s) := by
  rw [enterFreerun_eq]
  refine ⟨?_, ?_, getF_setF_same Reg.TBS_STAT_HOPS 31 _ (by decide), ?_, ?_⟩
  · have hhops : tbState (setF Reg.TBS_STAT_HOPS 31 (enterTb 0 (giveUp s))) = tbState (enterTb 0 (giveUp s)) :=
      getF_setF_beside Reg.TBS_STAT_HOPS Reg.TBS_STAT_STATE 31 _ (by decide) (by decide)
    rw [hhops, tbState_enterTb (by decide)]
  · have hhops : bit Reg.CMS_STAT_TBLOCK (setF Reg.TBS_STAT_HOPS 31 (enterTb 0 (giveUp s))) = bit Reg.CMS_STAT_TBLOCK (enterTb 0 (giveUp s)) :=
      bit_of_reg (reg_setF_other (by decide) 31 _)
    rw [hhops, tblock_enterTb]
    rfl
  · rw [setF_tbs, tbs_enterTb]
    rfl
  · have hft : (enterTb 0 (giveUp s)).ft = (giveUp s).ft := (Changes.enterTb 0 _).part_eq .ft (by simp)
    rw [setF_ft, hft]
    exact (Changes.giveUp s).part_eq .ft (by simp)

/-- R476: a node that was LOCKED or held over raises source 14. -/
theorem waiting_enterFreerun {s : State} (h : 2 ≤ tbState s) : 14 ∈ (enterFreerun s).flt.waiting := by
  have hin : 14 ∈ (giveUp s).flt.waiting := by
    simp only [giveUp, if_pos h, pulse_waiting 14 s (muted_below (by decide) s), List.mem_append, List.mem_singleton, or_true]
  rw [enterFreerun_eq, setF_flt]
  exact waiting_subset_unlockEnd 0 (giveUp s) hin

/-- A node that has lost its parent, in HOLDOVER (R472, R474), before it announces it. -/
def heldOver (s : State) : State := setF Reg.TBS_STAT_HOPS 31 (enterTb 3 { s with tbs := { s.tbs with parent := false, held := s.now } })

/-- HOLDOVER, announced (R472, R474, R476), before its limit is looked at. -/
def holdover (s : State) : State := announce (pulse 14 (heldOver s))

theorem enterHoldover_eq (s : State) : enterHoldover s = if getF Reg.TBS_CFG_HOLDMAX s = 0 then enterFreerun (holdover s) else holdover s := rfl

theorem Changes.heldOver (s : State) : Changes [.tbs] (oneOf [Reg.TBS_STAT, Reg.CMS_STAT]) s (heldOver s) :=
  (((Changes.withTbs s _).trans (.enterTb_locked (by decide) _)).trans (.setF Reg.TBS_STAT_HOPS 31 _)).mono (by simp)
    (by simp only [oneOf, Reg.TBS_STAT_HOPS, List.mem_cons, List.not_mem_nil]; tauto)

/-- What tells of HOLDOVER changes no register. -/
theorem Changes.toldOver (s : State) : Changes [.lnk, .flt] (fun _ => False) (Machine.heldOver s) (holdover s) :=
  ((Changes.pulse 14 _).trans (.announce _)).mono (by simp) (by simp)

theorem Changes.holdover (s : State) : Changes [.tbs, .lnk, .flt] (oneOf [Reg.TBS_STAT, Reg.CMS_STAT]) s (holdover s) :=
  ((Changes.heldOver s).trans (.toldOver s)).mono (by simp) (by simp)

theorem tbs_holdover (s : State) : (holdover s).tbs = { s.tbs with parent := false, held := s.now, good := 0, bad := 0 } := by
  have htold : (holdover s).tbs = (heldOver s).tbs := (Changes.toldOver s).part_eq .tbs (by simp)
  rw [htold, heldOver, setF_tbs, tbs_enterTb]

theorem tbState_holdover (s : State) : tbState (holdover s) = 3 := by
  have htold : tbState (holdover s) = tbState (heldOver s) := getF_of_reg ((Changes.toldOver s).reg_eq (by simp))
  have hheld : tbState (heldOver s) = tbState (enterTb 3 _) := getF_setF_beside Reg.TBS_STAT_HOPS Reg.TBS_STAT_STATE 31 _ (by decide) (by decide)
  rw [htold, hheld, tbState_enterTb (by decide)]

theorem tblock_holdover (s : State) : bit Reg.CMS_STAT_TBLOCK (holdover s) = true := by
  have htold : bit Reg.CMS_STAT_TBLOCK (holdover s) = bit Reg.CMS_STAT_TBLOCK (heldOver s) := bit_of_reg ((Changes.toldOver s).reg_eq (by simp))
  have hheld : bit Reg.CMS_STAT_TBLOCK (heldOver s) = bit Reg.CMS_STAT_TBLOCK (enterTb 3 _) := bit_of_reg (reg_setF_other (by decide) 31 _)
  rw [htold, hheld, tblock_enterTb]
  rfl

theorem hops_holdover (s : State) : getF Reg.TBS_STAT_HOPS (holdover s) = 31 :=
  (getF_of_reg ((Changes.toldOver s).reg_eq (by simp))).trans (getF_setF_same Reg.TBS_STAT_HOPS 31 _ (by decide))

theorem waiting_holdover (s : State) : (holdover s).flt.waiting = s.flt.waiting ++ [14] := by
  have htold : (holdover s).flt = (pulse 14 (heldOver s)).flt := (Changes.announce _).part_eq .flt (by simp)
  have hheld : (heldOver s).flt = s.flt := (Changes.heldOver s).part_eq .flt (by simp)
  rw [htold, pulse_waiting 14 _ (muted_below (by decide) _), hheld]

/-! ### The choice of a parent (R471, R474) -/

/-- One port's turn in the choice of a parent. -/
def bestStep (s : State) (best : Option (Nat × Nat)) (n : Nat) : Option (Nat × Nat) :=
  match (delayOf n s).report with
  | some (2, false, h) =>
    if portUp n s then
      match best with
      | some (_, b) => if h < b then some (n, h) else best
      | none => some (n, h)
    else best
  | _ => best

theorem bestParent_eq (s : State) : bestParent s = (List.range 4).foldl (bestStep s) none := rfl

theorem bestStep_none {s : State} {n : Nat} (h : (delayOf n s).report = none) (best : Option (Nat × Nat)) : bestStep s best n = best := by
  rw [bestStep, h]

/-- The one partner that has reported. -/
theorem bestParent_alone {s : State} {n : Nat} (hn : n < 4) (h : ∀ m : Fin 4, m.val ≠ n → (delayOf m s).report = none) :
    bestParent s = bestStep s none n :=
  foldl_range_only hn (fun best m hm hne => bestStep_none (h ⟨m, hm⟩ hne) best) none

theorem bestStep_eligible {s : State} {n h : Nat} (hup : portUp n s = true) (hr : (delayOf n s).report = some (2, false, h)) :
    bestStep s none n = some (n, h) := by
  rw [bestStep, hr]
  exact if_pos hup

/-- A partner that is not LOCKED is not eligible. -/
theorem bestStep_unlocked {s : State} {n st h : Nat} {pl : Bool} (hst : st ≠ 2) (hr : (delayOf n s).report = some (st, pl, h)) :
    bestStep s none n = none := by
  rw [bestStep, hr]
  split
  · next heq => exact absurd (congrArg Prod.fst (Option.some.inj heq)) hst
  · rfl

/-- A parent as it is noted (R471). -/
def parentNoted (n h : Nat) (s : State) : State :=
  let s1 := { s with tbs := { s.tbs with parent := true, changed := some s.now, track := none, ports := s.tbs.ports.map (fun p => { p with better := none }) } }
  s1 |> setF Reg.TBS_STAT_PARENT n |> setF Reg.TBS_STAT_HOPS (min (h + 1) 31)

theorem Changes.parentNoted (n h : Nat) (s : State) : Changes [.tbs] (oneOf [Reg.TBS_STAT]) s (parentNoted n h s) :=
  (((Changes.withTbs s _).trans (.setF Reg.TBS_STAT_PARENT n _)).trans (.setF Reg.TBS_STAT_HOPS _ _)).mono (by simp)
    (by simp [oneOf, Reg.TBS_STAT_PARENT, Reg.TBS_STAT_HOPS])

/-- R474: a node that held over is LOCKED with its new parent at once. -/
theorem takeParent_held {s : State} (n h : Nat) (hst : tbState s = 3) : takeParent n h s = announce (enterTb 2 (parentNoted n h s)) := by
  simp only [takeParent, hst]
  rfl

theorem parent_parentNoted {n : Nat} (hn : n < 4) (h : Nat) (s : State) : getF Reg.TBS_STAT_PARENT (parentNoted n h s) = n :=
  (getF_setF_beside Reg.TBS_STAT_HOPS Reg.TBS_STAT_PARENT _ _ (by decide) (by decide)).trans
    ((getF_setF_same Reg.TBS_STAT_PARENT n _ (by decide)).trans (Nat.mod_eq_of_lt hn))

theorem hops_parentNoted (n : Nat) {h : Nat} (hh : h < 31) (s : State) : getF Reg.TBS_STAT_HOPS (parentNoted n h s) = h + 1 := by
  have hmin : min (h + 1) 31 = h + 1 := by omega
  rw [parentNoted, hmin]
  exact (getF_setF_same Reg.TBS_STAT_HOPS _ _ (by decide)).trans (Nat.mod_eq_of_lt (by change _ < 32; omega))

/-! ### A partner's report (R471, R474) -/

/-- What the first payload word reports of the partner: its state, PLINK and HOPS. -/
def reportOf (f : Frame) : Nat × Bool × Nat :=
  let b := getBits (nth f.payload 0 0#32) 8 8
  (b / 64, b / 32 % 2 == 1, b % 32)

/-- The state with the partner's report. -/
def noteReport (n : Nat) (f : Frame) (s : State) : State := modDelay n (fun p => { p with report := some (reportOf f) }) s

theorem isRoot_noteReport (n : Nat) (f : Frame) (s : State) : isRoot (noteReport n f s) = isRoot s := rfl

theorem delayOf_noteReport (n m : Nat) (hm : m < 4) (f : Frame) (s : State) :
    delayOf m (noteReport n f s) = if m = n then { delayOf n s with report := some (reportOf f) } else delayOf m s := delayOf_modDelay n m hm _ s

/-- R471: the report of the parent. -/
theorem takeReport_parent {n : Nat} {s : State} (hroot : isRoot s = false) (hp : s.tbs.parent = true) (hport : getF Reg.TBS_STAT_PARENT s = n)
    (f : Frame) : takeReport n f s = if getBits (nth f.payload 0 0#32) 8 8 / 64 ≠ 2 then loseParent (noteReport n f s)
      else setF Reg.TBS_STAT_HOPS (min (getBits (nth f.payload 0 0#32) 8 8 % 32 + 1) 31) (noteReport n f s) := by
  have hroot' : ¬ isRoot (noteReport n f s) = true := by
    rw [isRoot_noteReport, hroot]
    decide
  exact (if_neg hroot').trans ((if_pos hp).trans (if_pos hport))

/-- R471: a parent that is LOCKED. -/
theorem takeReport_locked {n : Nat} {f : Frame} {s : State} (hroot : isRoot s = false) (hp : s.tbs.parent = true) (hport : getF Reg.TBS_STAT_PARENT s = n)
    (hst : getBits (nth f.payload 0 0#32) 8 8 / 64 = 2) :
    takeReport n f s = setF Reg.TBS_STAT_HOPS (min (getBits (nth f.payload 0 0#32) 8 8 % 32 + 1) 31) (noteReport n f s) := by
  rw [takeReport_parent hroot hp hport, if_neg (not_not_intro hst)]

/-- A root hears of a node that is none. -/
theorem takeReport_root {n : Nat} {f : Frame} {s : State} (hroot : isRoot s = true) (hh : getBits (nth f.payload 0 0#32) 8 8 % 32 ≠ 0) :
    takeReport n f s = noteReport n f s := by
  have hroot' : isRoot (noteReport n f s) = true := hroot
  exact (if_pos hroot').trans (if_neg hh)

/-- R471, R474: a parent that is not LOCKED, where no other partner has reported. -/
theorem takeReport_lost {n : Nat} {f : Frame} {s : State} (hn : n < 4) (hroot : isRoot s = false) (hp : s.tbs.parent = true)
    (hport : getF Reg.TBS_STAT_PARENT s = n) (hst : getBits (nth f.payload 0 0#32) 8 8 / 64 ≠ 2) (hlocked : tbState s = 2)
    (halone : ∀ m : Fin 4, m.val ≠ n → (delayOf m s).report = none) : takeReport n f s = enterHoldover (noteReport n f s) := by
  have hown : (delayOf n (noteReport n f s)).report = some (reportOf f) := by rw [delayOf_noteReport n n hn, if_pos rfl]
  have hbest : bestParent (noteReport n f s) = none := by
    rw [bestParent_alone hn fun m hm => ?_]
    · exact bestStep_unlocked (st := getBits (nth f.payload 0 0#32) 8 8 / 64) hst hown
    · rw [delayOf_noteReport n m m.isLt, if_neg hm]
      exact halone m hm
  have hkeeps : ¬ (isRoot (noteReport n f s) || !(noteReport n f s).tbs.parent) = true := by
    have hp' : (noteReport n f s).tbs.parent = true := hp
    rw [isRoot_noteReport, hroot, hp']
    decide
  rw [takeReport_parent hroot hp hport, if_pos hst, loseParent, if_neg hkeeps, hbest]
  exact if_pos hlocked

/-! ### A frame that has arrived -/

theorem isRoot_takeInbox (n : Nat) (f : Frame) (s : State) : isRoot (takeInbox n f s) = isRoot s := by
  unfold takeInbox
  split <;> rfl

theorem delayOf_takeInbox (m n : Nat) (f : Frame) (s : State) : delayOf m (takeInbox n f s) = delayOf m s := by
  obtain ⟨y, hy⟩ := takeInbox_withFab n f s
  rw [hy]
  rfl

/-- A report that has left the inbox. -/
def heardReport (n : Nat) (f : Frame) (s : State) : State := noteReport n f (takeInbox n f s)

theorem Changes.heardReport (n : Nat) (f : Frame) (s : State) : Changes [.tbs, .fab] (fun _ => False) s (heardReport n f s) :=
  ((Changes.takeInbox n f s).trans (.modDelay n _ _)).mono (by simp) (by simp)

theorem delayOf_heardReport (n m : Nat) (hm : m < 4) (f : Frame) (s : State) :
    delayOf m (heardReport n f s) = if m = n then { delayOf n s with report := some (reportOf f) } else delayOf m s := by
  rw [heardReport, delayOf_noteReport n m hm, delayOf_takeInbox, delayOf_takeInbox]

theorem tbs_heardReport (n : Nat) (f : Frame) (s : State) : (heardReport n f s).tbs = (noteReport n f s).tbs := by
  obtain ⟨y, hy⟩ := takeInbox_withFab n f s
  rw [heardReport, hy]
  rfl


/-! ### ANNOUNCE frames (R471, R474) -/

/-- The port is that of the parent, and the node no root. -/
structure Child (n : Fin 4) (s : State) : Prop where
  up : portUp n s = true
  root : isRoot s = false
  parent : s.tbs.parent = true
  port : getF Reg.TBS_STAT_PARENT s = n.val

theorem Child.takeInbox {n : Fin 4} {s : State} (h : Child n s) (f : Frame) : Child n (takeInbox n f s) := by
  obtain ⟨y, hy⟩ := takeInbox_withFab n f s
  refine ⟨?_, ?_, ?_, ?_⟩
  · rw [hy]
    exact h.up
  · exact (isRoot_takeInbox n f s).trans h.root
  · rw [hy]
    exact h.parent
  · rw [hy]
    exact h.port

/-- The report of a frame, as it arrives. -/
def hear (n : Nat) (f : Frame) (s : State) : State := takeReport n f (takeInbox n f s)

theorem hear_locked {n : Fin 4} {s : State} (h : Child n s) {f : Frame} (hst : getBits (nth f.payload 0 0#32) 8 8 / 64 = 2) :
    hear n f s = setF Reg.TBS_STAT_HOPS (min (getBits (nth f.payload 0 0#32) 8 8 % 32 + 1) 31) (heardReport n f s) :=
  takeReport_locked (h.takeInbox f).root (h.takeInbox f).parent (h.takeInbox f).port hst

theorem hear_root {n : Nat} {f : Frame} {s : State} (hroot : isRoot s = true) (hh : getBits (nth f.payload 0 0#32) 8 8 % 32 ≠ 0) :
    hear n f s = heardReport n f s :=
  takeReport_root ((isRoot_takeInbox n f s).trans hroot) hh

theorem hear_lost {n : Fin 4} {s : State} (h : Child n s) {f : Frame} (hst : getBits (nth f.payload 0 0#32) 8 8 / 64 ≠ 2) (hlocked : tbState s = 2)
    (halone : ∀ m : Fin 4, m.val ≠ n.val → (delayOf m s).report = none) : hear n f s = enterHoldover (heardReport n f s) := by
  refine takeReport_lost n.isLt (h.takeInbox f).root (h.takeInbox f).parent (h.takeInbox f).port hst ?_ ?_
  · exact (getF_of_reg ((Changes.takeInbox n f s).reg_eq (by simp))).trans hlocked
  · intro m hm
    rw [delayOf_takeInbox]
    exact halone m hm

theorem exec_announceReceive {n : Fin 4} {f : Frame} {s : State} (hup : portUp n s = true) (hk : isDelay 3 f = true) :
    exec (.announceReceive n f) s = .next (hear n f s) := if_pos (by rw [hk, hup]; rfl)

theorem pending_hear (n : Nat) (f : Frame) (s : State) : (hear n f s).pending = s.pending :=
  (kept_takeReport (kept_takeInbox (.refl s) n f) n f).pending

/-- R472, R474, R476: the parent has lost its lock. -/
theorem announce_holdover {n : Fin 4} {f : Frame} {s : State} (h : Child n s) (hk : isDelay 3 f = true)
    (hst : getBits (nth f.payload 0 0#32) 8 8 / 64 ≠ 2) (hlocked : tbState s = 2) (hmax : getF Reg.TBS_CFG_HOLDMAX s ≠ 0)
    (halone : ∀ m : Fin 4, m.val ≠ n.val → (delayOf m s).report = none) : ∃ t, exec (.announceReceive n f) s = .next t ∧ tbState t = 3 ∧
    t.tbs.parent = false ∧ bit Reg.CMS_STAT_TBLOCK t = true ∧ t.flt.waiting = s.flt.waiting ++ [14] ∧ getF Reg.TBS_STAT_HOPS t = 31 ∧ t.tbs.held = s.now ∧
    t.tbs.slew = s.tbs.slew ∧ Changes [.tbs, .lnk, .fab, .flt] (oneOf [Reg.TBS_STAT, Reg.CMS_STAT]) s t := by
  have hchg := Changes.heardReport n f s
  have hmax' : getF Reg.TBS_CFG_HOLDMAX (heardReport n f s) ≠ 0 := by rwa [getF_of_reg (hchg.reg_eq (by simp))]
  have hnow : (heardReport n f s).now = s.now := hchg.part_eq .now (by simp)
  have hflt : (heardReport n f s).flt = s.flt := hchg.part_eq .flt (by simp)
  have hslew : (heardReport n f s).tbs.slew = s.tbs.slew := by rw [tbs_heardReport]; rfl
  refine ⟨_, exec_announceReceive h.up hk, ?_⟩
  rw [hear_lost h hst hlocked halone, enterHoldover_eq, if_neg hmax']
  refine ⟨tbState_holdover _, ?_, tblock_holdover _, ?_, hops_holdover _, ?_, ?_, (hchg.trans (.holdover _)).mono (by simp) (by simp)⟩
  · rw [tbs_holdover]
  · rw [waiting_holdover, hflt]
  · rw [tbs_holdover]
    exact hnow
  · rw [tbs_holdover]
    exact hslew

/-- R472: with HOLDMAX 0 the node starts anew at once. -/
theorem announce_freerun {n : Fin 4} {f : Frame} {s : State} (h : Child n s) (hk : isDelay 3 f = true)
    (hst : getBits (nth f.payload 0 0#32) 8 8 / 64 ≠ 2) (hlocked : tbState s = 2) (hmax : getF Reg.TBS_CFG_HOLDMAX s = 0)
    (halone : ∀ m : Fin 4, m.val ≠ n.val → (delayOf m s).report = none) : ∃ t, exec (.announceReceive n f) s = .next t ∧ tbState t = 0 ∧
    t.tbs.parent = false ∧ bit Reg.CMS_STAT_TBLOCK t = false ∧ 14 ∈ t.flt.waiting ∧ getF Reg.TBS_STAT_HOPS t = 31 ∧ t.ft = s.ft ∧ t.pending = s.pending := by
  have hchg := (Changes.heardReport n f s).trans (.holdover _)
  have hmax' : getF Reg.TBS_CFG_HOLDMAX (heardReport n f s) = 0 := by rwa [getF_of_reg ((Changes.heardReport n f s).reg_eq (by simp))]
  refine ⟨_, exec_announceReceive h.up hk, ?_⟩
  have hpend := pending_hear n f s
  rw [hear_lost h hst hlocked halone, enterHoldover_eq, if_pos hmax'] at hpend ⊢
  obtain ⟨hstate, hlock, hhops, hparent, htime⟩ := enterFreerun_freeruns (holdover (heardReport n f s))
  have hlast : 2 ≤ tbState (holdover (heardReport n f s)) := by rw [tbState_holdover]; decide
  exact ⟨hstate, hparent, hlock, waiting_enterFreerun hlast, hhops, htime.trans (hchg.part_eq .ft (by simp)), hpend⟩

/-- R471: the parent's HOPS. -/
theorem announce_locked {n : Fin 4} {f : Frame} {s : State} (h : Child n s) (hk : isDelay 3 f = true)
    (hst : getBits (nth f.payload 0 0#32) 8 8 / 64 = 2) : ∃ t, exec (.announceReceive n f) s = .next t ∧
    getF Reg.TBS_STAT_HOPS t = min (getBits (nth f.payload 0 0#32) 8 8 % 32 + 1) 31 ∧ tbState t = tbState s ∧
    Changes [.tbs, .fab] (oneOf [Reg.TBS_STAT]) s t := by
  have hchg := Changes.heardReport n f s
  refine ⟨_, exec_announceReceive h.up hk, ?_⟩
  rw [hear_locked h hst]
  refine ⟨(getF_setF_same Reg.TBS_STAT_HOPS _ _ (by decide)).trans (Nat.mod_eq_of_lt (by change _ < 32; omega)), ?_, ?_⟩
  · exact (getF_setF_beside Reg.TBS_STAT_HOPS Reg.TBS_STAT_STATE _ _ (by decide) (by decide)).trans (getF_of_reg (hchg.reg_eq (by simp)))
  · exact (hchg.trans (.setF Reg.TBS_STAT_HOPS _ _)).mono (by simp) (by simp [oneOf, Reg.TBS_STAT_HOPS])

theorem announce_root {n : Fin 4} {f : Frame} {s : State} (hup : portUp n s = true) (hroot : isRoot s = true) (hk : isDelay 3 f = true)
    (hh : getBits (nth f.payload 0 0#32) 8 8 % 32 ≠ 0) : ∃ t, exec (.announceReceive n f) s = .next t ∧
    (delayOf n t).report.map (fun r => r.2.2) = some (getBits (nth f.payload 0 0#32) 8 8 % 32) ∧ Changes [.tbs, .fab] (fun _ => False) s t := by
  refine ⟨_, exec_announceReceive hup hk, ?_⟩
  rw [hear_root hroot hh]
  refine ⟨?_, Changes.heardReport n f s⟩
  rw [delayOf_heardReport n n n.isLt, if_pos rfl]
  rfl

/-! ### HOLDOVER's search and its limit (R472, R474) -/

theorem search_eligible {n : Fin 4} {h : Nat} {s : State} (hup : portUp n s = true) (hst : tbState s = 3) (hroot : isRoot s = false)
    (hr : (delayOf n s).report = some (2, false, h)) (halone : ∀ m : Fin 4, m.val ≠ n.val → (delayOf m s).report = none) (hh : h < 31)
    (hrest : s.tbs.held + 100 * us ≤ s.now) : ∃ t, exec .holdoverParentSearch s = .next t ∧ tbState t = 2 ∧
    t.tbs.parent = true ∧ getF Reg.TBS_STAT_PARENT t = n.val ∧ getF Reg.TBS_STAT_HOPS t = h + 1 ∧ bit Reg.CMS_STAT_TBLOCK t = true ∧
    Changes [.tbs, .lnk, .fab] (oneOf [Reg.TBS_STAT, Reg.CMS_STAT]) s t := by
  have hbest : bestParent s = some (n.val, h) := (bestParent_alone n.isLt halone).trans (bestStep_eligible hup hr)
  have hexec : exec .holdoverParentSearch s = .next (takeParent n h s) := by
    change execHoldoverParentSearch s = _
    rw [execHoldoverParentSearch, if_pos ⟨hst, hroot, hrest⟩, hbest]
  refine ⟨_, hexec, ?_⟩
  rw [takeParent_held n h hst]
  have hreg (f : Field) : getF f (announce (enterTb 2 (parentNoted n h s))) = getF f (enterTb 2 (parentNoted n h s)) :=
    getF_of_reg ((Changes.announce _).reg_eq (by simp))
  have htbs : (announce (enterTb 2 (parentNoted n h s))).tbs = (enterTb 2 (parentNoted n h s)).tbs := (Changes.announce _).part_eq .tbs (by simp)
  refine ⟨(hreg _).trans (tbState_enterTb (by decide) _), ?_, ?_, ?_, (congrArg (· == 1) (hreg _)).trans (tblock_enterTb 2 _), ?_⟩
  · rw [htbs, tbs_enterTb]
    rfl
  · exact (hreg _).trans ((getF_enterTb rfl (by decide) (by decide) 2 _).trans (parent_parentNoted n.isLt h s))
  · exact (hreg _).trans ((getF_enterTb rfl (by decide) (by decide) 2 _).trans (hops_parentNoted n hh s))
  · exact (((Changes.parentNoted n h s).trans (.enterTb_locked (by decide) _)).trans (.announce _)).mono (by simp) (by simp [oneOf])

theorem search_idle {s : State} (h : ¬ s.tbs.held + 100 * us ≤ s.now ∨ bestParent s = none) : exec .holdoverParentSearch s = .next s := by
  change execHoldoverParentSearch s = _
  unfold execHoldoverParentSearch
  split
  · next hc =>
    rw [h.resolve_left (not_not_intro hc.2.2)]
  · rfl

theorem holdover_ends {s : State} (hst : tbState s = 3) (hrest : s.tbs.held + getF Reg.TBS_CFG_HOLDMAX s * 100 * ms ≤ s.now) :
    ∃ t, exec .holdoverTimeout s = .next t ∧ tbState t = 0 ∧
    bit Reg.CMS_STAT_TBLOCK t = false ∧ getF Reg.TBS_STAT_HOPS t = 31 ∧ t.tbs.parent = false ∧ 14 ∈ t.flt.waiting ∧ t.ft = s.ft ∧ t.pending = s.pending := by
  obtain ⟨hstate, hlock, hhops, hparent, htime⟩ := enterFreerun_freeruns s
  exact ⟨_, if_pos ⟨hst, hrest⟩, hstate, hlock, hhops, hparent, waiting_enterFreerun (by rw [hst]; decide), htime, (kept_enterFreerun (.refl s)).pending⟩

/-! ### Roots (R468, R476) -/

/-- Whether a run goes on here or has just ended (R476). -/
def rootQuiet (s : State) : Bool := s.fab.run.isSome || s.fab.runEnd.any (fun u => decide (s.now < u + 10 * ms))

theorem hearRoot_eq (s : State) : hearRoot s = if rootQuiet s then s else pulse 14 (setB Reg.TBS_STAT_ROOTCONF true s) := by
  unfold hearRoot
  extract_lets quiet
  have h : quiet = rootQuiet s := by
    simp only [quiet, rootQuiet]
    split
    · next t ht => rw [ht, Option.any_some]
    · next ht => rw [ht, Option.any_none]
  rw [h]

theorem rootConflict_heard {n : Fin 4} {s : State} (hroot : isRoot s = true) (hquiet : rootQuiet s = false) (hup : portUp n s = true)
    (hr : (delayOf n s).report = some (2, false, 0)) : ∃ t, exec .rootConflictDelay s = .next t ∧ bit Reg.TBS_STAT_ROOTCONF t = true ∧
    t.flt.waiting = s.flt.waiting ++ [14] ∧ Changes [.flt] (oneOf [Reg.TBS_STAT]) s t := by
  have hexec : exec .rootConflictDelay s = .next (pulse 14 (setB Reg.TBS_STAT_ROOTCONF true s)) := by
    change execRootConflictDelay s = _
    unfold execRootConflictDelay
    extract_lets heard
    have hheard : heard = true := List.any_eq_true.2 ⟨n, List.mem_range.2 n.isLt, by simp only [hup, hr, Bool.and_self]⟩
    rw [hroot, hheard, Bool.and_self, if_pos rfl, hearRoot_eq, hquiet]
    rfl
  refine ⟨_, hexec, ?_⟩
  refine ⟨(bit_of_reg (reg_pulse ..)).trans (bit_setB_same (by decide) rfl true s), pulse_waiting 14 _ (muted_below (by decide) _), ?_⟩
  exact ((Changes.setB Reg.TBS_STAT_ROOTCONF true s).trans (.pulse 14 _)).mono (by simp) (by simp [oneOf, Reg.TBS_STAT_ROOTCONF])

theorem rootConflict_quiet {s : State} (h : isRoot s = false ∨ rootQuiet s = true) : exec .rootConflictDelay s = .next s := by
  change execRootConflictDelay s = _
  unfold execRootConflictDelay
  extract_lets heard
  split
  · next hc =>
    rw [Bool.and_eq_true] at hc
    rw [hearRoot_eq, if_pos (h.resolve_left (by rw [hc.1]; decide))]
  · rfl

theorem Changes.moveTime (v : Nat) (s : State) : Changes [.ft, .tbs, .cms, .xck, .ctl] (fun _ => False) s (moveTime v s) :=
  ⟨rfl, fun p hp => by cases p <;> simp_all [Part.same, Machine.moveTime], fun _ _ => rfl⟩

/-- R468: STEP on a root. -/
theorem step_root {s : State} (hup : coreUp s = true) (hroot : isRoot s = true) : ∃ t, exec .step s = .next t ∧
    t.tbs = { s.tbs with stepReq := true } ∧ t.answered .ok ∧ Changes [.tbs, .resp] (fun _ => False) s t := by
  have hcmd : stepCommand s = .ok { s with tbs := { s.tbs with stepReq := true } } := congrArg Done.ok (if_pos hroot)
  have hexec : exec .step s = .next (Done.ok { s with tbs := { s.tbs with stepReq := true } }).finish := by
    change execStep s = _
    rw [execStep, if_pos hup, hcmd]
    rfl
  exact ⟨_, hexec, rfl, rfl, ((Changes.withTbs s _).trans (.finish_ok _)).mono (by simp) (by simp)⟩

theorem step_other {s : State} (hup : coreUp s = true) (hroot : isRoot s = false) : ∃ t, exec .step s = .next t ∧ t.answered .ok ∧
    Changes [.resp] (fun _ => False) s t := by
  have hcmd : stepCommand s = .ok s := congrArg Done.ok (if_neg (by rw [hroot]; decide))
  have hexec : exec .step s = .next (Done.ok s).finish := by
    change execStep s = _
    rw [execStep, if_pos hup, hcmd]
    rfl
  exact ⟨_, hexec, rfl, Changes.finish_ok s⟩

theorem rootTimeStep_taken {s : State} (hreq : s.tbs.stepReq = true) (hroot : isRoot s = true) : ∃ t, exec .rootTimeStep s = .next t ∧
    t.ft = ((reg s Reg.TBS_SETH).toNat * 2 ^ 32 + (reg s Reg.TBS_SETL).toNat) / 15625000 * 15625000 ∧
    t.tbs = { s.tbs with stepReq := false, skipped := t.tbs.skipped } ∧ t.ctl = { s.ctl with stepped := true } ∧
    Changes [.ft, .tbs, .cms, .xck, .ctl] (fun _ => False) s t :=
  ⟨_, if_pos (by rw [hreq, hroot]; rfl), rfl, rfl, rfl, ((Changes.withTbs s _).trans (.moveTime _ _)).mono (by simp) (by simp)⟩

theorem delayFrames_down {n : Fin 4} {s : State} (h : portUp n s = false) (f : Frame) (ago : Nat) :
    exec (.delayRequestReceive n f ago) s = .next s ∧ exec (.delayResponseReceive n f ago) s = .next s ∧ exec (.announceReceive n f) s = .next s :=
  ⟨if_neg (by simp [h]), if_neg (by simp [h]), if_neg (by simp [h])⟩

end Sys2Proof.Machine
end

