-- ==== Sys2Proof/Proofs/DelayFrames.lean ====
section
/-!
PROOFS. The requests and responses of the delay exchange: what waits at a port, and what leaves it with its timestamp (R357, R469, R475).
-/
namespace Sys2Proof.Machine

/-! ### Link-local frames of class A (R384, R389) -/

/-- A frame for a port's partner. -/
def partnerFrame (ty : FrameType) (p : List Word) (s : State) : Frame := ⟨ty, .a, .linkLocal, 0#32, 0, ownSrc s, 1023, ownEpoch s, 0, p⟩

theorem linkLocal_classA {p : List Word} (hlen : p.length ≤ 16) (n : Nat) (ty : FrameType) (s : State) :
    linkLocal n ty .a p s = modPort n (fun q => { q with qa := (port n s).qa ++ [(4, partnerFrame ty p s)] }) s := by
  have hfit : fitPayload (partnerFrame ty p s) = partnerFrame ty p s := by
    have htake : (partnerFrame ty p s).payload.take (payloadLimit (partnerFrame ty p s).cls) = (partnerFrame ty p s).payload := List.take_of_length_le hlen
    rw [fitPayload, htake]
  change enqueue n 4 (partnerFrame ty p s) s = _
  rw [enqueue, hfit]
  rfl

/-! ### DELAY requests (R469, R475) -/

/-- Whether a request goes out on a port. -/
def asks (n : Nat) (s : State) : Bool :=
  if s.sys.phase = .standby then portOpen n s && s.tbs.parent && getF Reg.TBS_STAT_PARENT s == n else portUp n s

theorem delayOf_of_tbs {s t : State} (h : t.tbs = s.tbs) (n : Nat) : delayOf n t = delayOf n s := by rw [delayOf, h, delayOf]

/-- A request waits at a port. -/
def askPartner (n : Nat) (s : State) : State :=
  linkLocal n .delay .a (delayWords n 1 (delayOf n s).seq 0 0 s)
    (modDelay n (fun p => { p with seq := ((delayOf n s).seq + 1) % 16, asked := some (delayOf n s).seq, sent := none }) s)

/-- One port's turn. -/
def askStep (s : State) (n : Nat) : State := if asks n s then askPartner n s else s

theorem exec_delayRequestSend {s : State} (h : linksRun s = true) : exec .delayRequestSend s = .next ((List.range 4).foldl askStep s) := if_pos h

/-- What the turns of other ports leave to a port. -/
structure Beside (n : Nat) (s t : State) : Prop where
  changes : Changes [.lnk, .tbs] (fun _ => False) s t
  port : port n t = port n s
  delay : delayOf n t = delayOf n s
  parent : t.tbs.parent = s.tbs.parent

theorem Beside.refl (n : Nat) (s : State) : Beside n s s := ⟨.refl .., rfl, rfl, rfl⟩

theorem Beside.trans {n : Nat} {s t u : State} (h : Beside n s t) (h' : Beside n t u) : Beside n s u :=
  ⟨(h.changes.trans h'.changes).mono (by simp) (by simp), h'.port.trans h.port, h'.delay.trans h.delay, h'.parent.trans h.parent⟩

theorem Changes.askPartner (n : Nat) (s : State) : Changes [.lnk, .tbs] (fun _ => False) s (askPartner n s) :=
  ((Changes.modDelay n _ s).trans (.enqueue_classA rfl n 4 _)).mono (by simp) (by simp)

theorem beside_askStep {n m : Nat} (hn : n < 4) (hne : m ≠ n) (s : State) : Beside n s (askStep s m) := by
  unfold askStep
  split
  · refine ⟨Changes.askPartner m s, ?_, ?_, rfl⟩
    · exact (port_enqueue_other hn hne.symm 4 _ _).trans (port_of_lnk rfl n)
    · exact (delayOf_of_tbs ((Changes.enqueue_classA rfl m 4 _).part_eq .tbs (by simp)) n).trans ((delayOf_modDelay m n hn _ s).trans (if_neg hne.symm))
  · exact .refl ..

theorem beside_askSteps {n : Nat} (hn : n < 4) (l : List Nat) (hl : ∀ m ∈ l, m < 4 ∧ m ≠ n) (s : State) : Beside n s (l.foldl askStep s) := by
  induction l generalizing s with
  | nil => exact .refl ..
  | cons m rest ih => exact (beside_askStep hn (hl m List.mem_cons_self).2 s).trans (ih (fun x hx => hl x (List.mem_cons_of_mem _ hx)) _)

/-- The request of a port is as it would be alone. -/
theorem Beside.asks {n : Nat} {s t : State} (h : Beside n s t) : asks n t = asks n s := by
  have hreg (a : Nat) : reg t a = reg s a := h.changes.reg_eq (by simp)
  have hphase : t.sys = s.sys := h.changes.part_eq .sys (by simp)
  have hstate : portState n t = portState n s := getF_of_reg (hreg _)
  have hparent : getF Reg.TBS_STAT_PARENT t = getF Reg.TBS_STAT_PARENT s := getF_of_reg (hreg _)
  rw [Machine.asks, hphase, portOpen_of (hreg _) h.port, h.parent, hparent, portUp, hstate, Machine.asks, portUp]

theorem Beside.frame {n : Nat} {s t : State} (h : Beside n s t) :
    partnerFrame .delay (delayWords n 1 (delayOf n t).seq 0 0 t) t = partnerFrame .delay (delayWords n 1 (delayOf n s).seq 0 0 s) s := by
  have hget (f : Field) : getF f t = getF f s := getF_of_reg (h.changes.reg_eq (by simp))
  have hsrc : ownSrc t = ownSrc s := by rw [ownSrc, bit, hget, hget, ownSrc, bit]
  have hepoch : ownEpoch t = ownEpoch s := hget _
  simp only [partnerFrame, hsrc, hepoch, delayWords, tbState, hget, h.delay, h.parent]

theorem asks_iff {n : Fin 4} {s : State} : asks n s = true ↔
    if s.sys.phase = .standby then portOpen n s = true ∧ s.tbs.parent = true ∧ getF Reg.TBS_STAT_PARENT s = n.val else portUp n s = true := by
  unfold asks
  split
  · simp only [Bool.and_eq_true, beq_iff_eq, and_assoc]
  · rfl

/-- R469: the request of one port, among those of the others. -/
theorem requests_port {n : Nat} (hn : n < 4) (s : State) : ∃ u t, (List.range 4).foldl askStep s = t ∧ Beside n s u ∧ Beside n (askStep u n) t := by
  obtain ⟨l1, l2, hsplit, h1, h2⟩ := range_split hn
  refine ⟨l1.foldl askStep s, _, ?_, beside_askSteps hn l1 h1 s, beside_askSteps hn l2 h2 _⟩
  rw [hsplit, List.foldl_append, List.foldl_cons]

theorem askPartner_port {n : Nat} (hn : n < 4) (s : State) :
    (port n (askPartner n s)).qa = (port n s).qa ++ [(4, partnerFrame .delay (delayWords n 1 (delayOf n s).seq 0 0 s) s)] ∧
    (delayOf n (askPartner n s)).asked = some (delayOf n s).seq ∧ (delayOf n (askPartner n s)).seq = ((delayOf n s).seq + 1) % 16 := by
  have hdelay := delayOf_modDelay n n hn (fun p => { p with seq := ((delayOf n s).seq + 1) % 16, asked := some (delayOf n s).seq, sent := none }) s
  rw [if_pos rfl] at hdelay
  rw [askPartner, linkLocal_classA (by simp [delayWords]), port_modPort n n hn, if_pos rfl]
  refine ⟨rfl, (congrArg DelayState.asked hdelay).trans rfl, (congrArg DelayState.seq hdelay).trans rfl⟩

theorem requests_sent {s : State} (h : linksRun s = true) : ∃ t, exec .delayRequestSend s = .next t ∧ (∀ n : Fin 4, asks n s = true →
      (port n t).qa = (port n s).qa ++ [(4, partnerFrame .delay (delayWords n 1 (delayOf n s).seq 0 0 s) s)] ∧
      (delayOf n t).asked = some (delayOf n s).seq ∧ (delayOf n t).seq = ((delayOf n s).seq + 1) % 16) ∧
    (∀ n : Fin 4, ¬ asks n s = true → (port n t).qa = (port n s).qa ∧ delayOf n t = delayOf n s) ∧ Changes [.lnk, .tbs] (fun _ => False) s t := by
  refine ⟨_, exec_delayRequestSend h, fun n ha => ?_, fun n ha => ?_, ?_⟩
  · obtain ⟨u, t, ht, hu, hafter⟩ := requests_port n.isLt s
    rw [askStep, if_pos (hu.asks.trans ha)] at hafter
    obtain ⟨hqa, hasked, hseq⟩ := askPartner_port n.isLt u
    rw [hu.frame, hu.port] at hqa
    rw [hu.delay] at hasked hseq
    rw [ht, hafter.port, hafter.delay]
    exact ⟨hqa, hasked, hseq⟩
  · obtain ⟨u, t, ht, hu, hafter⟩ := requests_port n.isLt s
    rw [askStep, if_neg (by rw [hu.asks]; exact ha)] at hafter
    rw [ht, hafter.port, hafter.delay, hu.port, hu.delay]
    exact ⟨rfl, rfl⟩
  · refine Changes.foldl _ _ (fun t n => ?_) s
    exact .of_ite (.askPartner n t) (.refl ..)

/-! ### Responses (R469) -/

theorem Changes.hear {n : Fin 4} {f : Frame} {s : State}
    (h : (Child n s ∧ getBits (nth f.payload 0 0#32) 8 8 / 64 = 2) ∨ (isRoot s = true ∧ getBits (nth f.payload 0 0#32) 8 8 % 32 ≠ 0)) :
    Changes [.tbs, .fab] (oneOf [Reg.TBS_STAT]) s (hear n f s) := by
  rcases h with ⟨hc, hst⟩ | ⟨hroot, hh⟩
  · rw [hear_locked hc hst]
    exact ((Changes.heardReport n f s).trans (.setF Reg.TBS_STAT_HOPS _ _)).mono (by simp) (by simp [oneOf, Reg.TBS_STAT_HOPS])
  · rw [hear_root hroot hh]
    exact (Changes.heardReport n f s).mono (by simp) (by simp)

/-- The first byte of the payload of a response. -/
theorem getBits_response {k : Nat} (hk : k < 16) (b : Nat) : getBits (BitVec.ofNat 32 (16 * 2 + k + 256 * b)) 0 8 = 32 + k := by
  simp only [getBits, BitVec.toNat_ushiftRight, BitVec.toNat_ofNat, Nat.shiftRight_zero]
  omega

theorem response_sent {n : Fin 4} {f : Frame} {s : State} (ago : Nat) (hup : portUp n s = true) (hk : isDelay 1 f = true)
    (h : (Child n s ∧ getBits (nth f.payload 0 0#32) 8 8 / 64 = 2) ∨ (isRoot s = true ∧ getBits (nth f.payload 0 0#32) 8 8 % 32 ≠ 0)) :
    ∃ t, exec (.delayRequestReceive n f ago) s = .next t ∧
    ((port n t).qa.getLast?.map (fun e => (e.2.payload.drop 1).take 2)) =
      some [BitVec.ofInt 32 (unsigned 64 (s.ft - ago) : Int), BitVec.ofInt 32 ((unsigned 64 (s.ft - ago) : Int) / 2 ^ 32)] ∧
    ((port n t).qa.getLast?.map (fun e => getBits (nth e.2.payload 0 0#32) 0 8)) = some (32 + getBits (nth f.payload 0 0#32) 0 4) ∧
    (port n t).qa.dropLast = (port n s).qa ∧ Changes [.lnk, .tbs, .fab] (oneOf [Reg.TBS_STAT]) s t := by
  have hhear := Changes.hear h
  have hport : port n (hear n f s) = port n s := port_of_lnk (hhear.part_eq .lnk (by simp)) n
  have hexec : exec (.delayRequestReceive n f ago) s =
      .next (linkLocal n .delay .a (delayWords n 2 (getBits (nth f.payload 0 0#32) 0 4) (stampAgo ago s) 0 (hear n f s)) (hear n f s)) :=
    if_pos (by rw [hk, hup]; rfl)
  have hqa : ∀ p : List Word, p.length ≤ 16 →
      (port n (linkLocal n .delay .a p (hear n f s))).qa = (port n s).qa ++ [(4, partnerFrame .delay p (hear n f s))] := by
    intro p hp
    rw [linkLocal_classA hp, port_modPort n n n.isLt, if_pos rfl, hport]
  refine ⟨_, hexec, ?_, ?_, ?_, (hhear.trans (.enqueue_classA rfl n 4 _)).mono (by simp) (by simp)⟩
  · rw [hqa _ (by simp [delayWords]), List.getLast?_concat]
    have hint (x : Nat) : BitVec.ofInt 32 (x : Int) = BitVec.ofNat 32 x := BitVec.ofInt_natCast ..
    have hhigh : BitVec.ofInt 32 ((unsigned 64 (s.ft - ago) : Int) / 2 ^ 32) = BitVec.ofNat 32 (stampAgo ago s / 2 ^ 32) := by
      rw [← hint]
      rfl
    rw [hhigh, hint]
    rfl
  · rw [hqa _ (by simp [delayWords]), List.getLast?_concat]
    exact congrArg some (getBits_response (Nat.mod_lt _ (by decide)) _)
  · rw [hqa _ (by simp [delayWords]), List.dropLast_concat]


/-! ### What follows a frame that has left (R394, R395, R402) -/

/-- A port's class A queue, what it has on the line, and the timebase. -/
def lineView (n : Nat) (s : State) : TbsState × List (Nat × Frame) × List (List Byte) := (s.tbs, (port n s).qa, (port n s).line)

section
variable (n : Nat)

/-- Every part but the timebase's and the ports'. -/
theorem lineView_parts (s : State) (regs : List (Nat × Word)) (now ft free : Nat) (resp : Option Resp) (pins : Pins) (sys : SysState) (cms : CmsState)
    (xck : XckState) (imp : ImpState) (cpb : CpbState) (flt : FltState) (fab : FabState) (hst : HstState) (cnv : CnvState) (ctl : CtlState)
    (cal : CalState) (thm : ThmState) (bst : BstState) (pending : List Instr) :
    lineView n { s with
      regs := regs, now := now, ft := ft, free := free, resp := resp, pins := pins, sys := sys, cms := cms, xck := xck, imp := imp, cpb := cpb
      flt := flt, fab := fab, hst := hst, cnv := cnv, ctl := ctl, cal := cal, thm := thm, bst := bst, pending := pending } = lineView n s := (rfl)

theorem lineView_setReg (a : Nat) (v : Word) (s : State) : lineView n (setReg a v s) = lineView n s := (rfl)
theorem lineView_setF (f : Field) (v : Nat) (s : State) : lineView n (setF f v s) = lineView n s := (rfl)
theorem lineView_setRegBit (a k : Nat) (b : Bool) (s : State) : lineView n (setRegBit a k b s) = lineView n s := (rfl)
theorem lineView_incSat (f : Field) (s : State) : lineView n (incSat f s) = lineView n s := (rfl)
theorem lineView_dmaWrite (a : Nat) (bs : List Byte) (s : State) : lineView n (dmaWrite a bs s) = lineView n s := (rfl)

theorem lineView_writeback (s : State) : lineView n (writeback s) = lineView n s := by
  simp only [writeback, apply_ite (lineView n), lineView_dmaWrite, lineView_parts, ite_self]

theorem lineView_message (v : Nat) (s : State) : lineView n (message v s) = lineView n s := by
  simp only [message, sendVector, apply_ite (lineView n), lineView_setRegBit, lineView_dmaWrite, lineView_parts, lineView_writeback, ite_self]

theorem lineView_countEntry (r : Nat) (s : State) : lineView n (countEntry r s) = lineView n s := by
  simp only [countEntry, signalCounted, signalRing, apply_ite (lineView n), lineView_message, lineView_parts, ite_self]

theorem lineView_ringWrite (r k : Nat) (mk : Bool → List Byte) (s : State) : lineView n (ringWrite r k mk s) = lineView n s := by
  simp only [ringWrite, lineView_countEntry, advanceRing, lineView_parts, lineView_setF, lineView_dmaWrite]

theorem lineView_flushCompletions (k : Nat) (s : State) : lineView n (flushCompletions k s) = lineView n s := by
  induction k generalizing s with
  | zero => rfl
  | succ k ih =>
    unfold flushCompletions
    split
    · rfl
    · simp only [apply_ite (lineView n), ih, lineView_ringWrite, lineView_parts, lineView_dmaWrite, ite_self]

theorem lineView_refreshOut (s : State) : lineView n (refreshOut s) = lineView n s := (rfl)

theorem lineView_finishHost (slot : Nat) (mk : HostCmd → HostDone) (s : State) : lineView n (finishHost slot mk s) = lineView n s := by
  unfold finishHost
  split
  · rfl
  · simp only [lineView_refreshOut, lineView_flushCompletions, apply_ite (lineView n), lineView_parts, ite_self]

theorem lineView_modRun (f : EnumRun → EnumRun) (s : State) : lineView n (modRun f s) = lineView n s := (rfl)

theorem lineView_applyHeld (id : Nat) (s : State) : lineView n (applyHeld id s) = lineView n s := by
  unfold applyHeld
  split
  · rfl
  · split <;> rfl

theorem lineView_dropReq (r : Req) (s : State) : lineView n (dropReq r s) = lineView n s := by
  unfold dropReq
  split
  · exact (lineView_refreshOut ..).trans ((lineView_applyHeld ..).trans rfl)
  · exact (lineView_refreshOut ..).trans rfl

end

section
variable {n : Nat} (hn : n < 4)
include hn

/-- A frame of another class waits in its own queue. -/
theorem lineView_enqueue {g : Frame} (hg : g.cls ≠ .a) (m input : Nat) (s : State) : lineView n (enqueue m input g s) = lineView n s := by
  have hcls : (fitPayload g).cls ≠ .a := hg
  unfold enqueue
  extract_lets f q full
  split
  · rfl
  · have hqa (p : PortState) (l : List (Nat × Frame)) : (p.setQueue f.cls l).qa = p.qa ∧ (p.setQueue f.cls l).line = p.line := by
      cases hc : f.cls with
      | a => exact absurd hc hcls
      | b => exact ⟨rfl, rfl⟩
      | c => exact ⟨rfl, rfl⟩
      | d => exact ⟨rfl, rfl⟩
    rw [lineView, port_modPort m n hn]
    split
    · next h =>
      subst h
      rw [(hqa _ _).1, (hqa _ _).2]
      rfl
    · rfl

theorem lineView_sendRouted {f : Frame} (hf : f.cls ≠ .a) (s : State) : lineView n (sendRouted f s) = lineView n s := by
  simp only [sendRouted, apply_ite (lineView n), lineView_incSat, lineView_enqueue hn hf, ite_self]

theorem lineView_sendRunReq {f : Frame} (hf : f.cls ≠ .a) (tag : Nat) (s : State) : lineView n (sendRunReq f tag s) = lineView n s :=
  (lineView_sendRouted hn (f := { f with tag := tag }) hf _).trans rfl

omit hn in
/-- The requests of a run's work are of class C. -/
theorem popWork_cls {l : List EnumNode} {cuts : List (Nat × Option Nat)} {s : State} {w : List RunItem} {f : Frame} {rest : List RunItem}
    (h : popWork l cuts s w = some (f, rest)) : f.cls = .c := by
  induction w with
  | nil => exact absurd h (by simp [popWork])
  | cons item w ih =>
    cases item with
    | assign i =>
      obtain ⟨rfl, -⟩ := Prod.mk.inj (Option.some.inj h)
      rfl
    | entry id =>
      simp only [popWork] at h
      split at h
      · obtain ⟨rfl, -⟩ := Prod.mk.inj (Option.some.inj h)
        rfl
      · exact ih h
    | home k t listed =>
      have hhome (lists : Bool) (g gwid : Nat) (p : RunPath) (pick : Nat) : (homeFrame lists l g k t gwid p pick s).cls = .c := by cases lists <;> rfl
      rw [popWork] at h
      generalize (if k = 0 then 0 else (secondGateway l).getD 0) = g at h
      generalize (if k = 0 then 1023 else (nodeAt l g).id.getD 1023) = gwid at h
      split at h
      · extract_lets pick at h
        split at h
        · exact ih h
        · split at h
          · obtain ⟨rfl, -⟩ := Prod.mk.inj (Option.some.inj h)
            exact hhome ..
          · obtain ⟨rfl, -⟩ := Prod.mk.inj (Option.some.inj h)
            exact hhome ..
      · exact ih h

theorem lineView_runSend (s : State) : lineView n (runSend s) = lineView n s := by
  have hprobe (l : List EnumNode) (i p : Nat) : (probeFrame l i p s).cls = .c := rfl
  unfold runSend
  split
  · rfl
  · split
    · rfl
    · split
      · split
        · exact (lineView_sendRunReq hn (by rw [hprobe]; decide) _ _).trans rfl
        · rfl
      · split
        · rfl
        · next hw _ => exact (lineView_sendRunReq hn (by rw [popWork_cls hw]; decide) _ _).trans rfl
        · rfl

theorem lineView_finishReq (r : Req) (st : Status) (data : List Word) (tval : Nat) (cached : Bool) (epoch : Nat) (s : State) :
    lineView n (finishReq r st data tval cached epoch s) = lineView n s := by
  unfold finishReq
  split
  · exact (lineView_runSend hn _).trans ((lineView_finishHost ..).trans (lineView_dropReq ..))
  · exact (lineView_runSend hn _).trans ((lineView_modRun ..).trans (lineView_dropReq ..))

theorem lineView_frameLeft (f : Frame) (s : State) : lineView n (frameLeft f s) = lineView n s := by
  unfold frameLeft
  split
  · rfl
  · split
    · exact lineView_finishReq hn ..
    · rfl

end

/-! ### A DELAY frame that leaves an idle port (R357, R469) -/

/-- An idle port with one frame of its own in the class A queue, and no broadcast that waits. -/
structure Leaves (n : Fin 4) (f : Frame) (s : State) : Prop where
  up : portUp n s = true
  idle : (port n s).busy s.now = false
  bwait : s.fab.bwait = []
  queue : (port n s).qa = [(4, f)]
  type : f.type = .delay
  cls : f.cls = .a

/-- The port once the line is clear. -/
def lineCleared (n : Nat) (s : State) : State := modPort n (fun p => p.clearLine s.now) s

/-- The port as the frame has left its queue. -/
def queueLeft (n : Nat) (f : Frame) (s : State) : State :=
  modPort n (fun p => { p.setQueue .a (queueErase (4, f) (p.queue .a)) with turn := setNth p.turn Cls.a.code 4 }) (lineCleared n s)

theorem port_lineCleared (n : Fin 4) (s : State) : port n (lineCleared n s) = (port n s).clearLine s.now :=
  (port_modPort n n n.isLt _ s).trans (if_pos rfl)

theorem port_queueLeft {n : Fin 4} {f : Frame} {s : State} (h : Leaves n f s) :
    port n (queueLeft n f s) = { (port n s).clearLine s.now with qa := [], turn := setNth (port n s).turn Cls.a.code 4 } := by
  have hqueue : ((port n s).clearLine s.now).queue .a = [(4, f)] := h.queue
  have herase : queueErase (4, f) [(4, f)] = [] := if_pos rfl
  rw [queueLeft, port_modPort n n n.isLt, if_pos rfl, port_lineCleared, hqueue, herase]
  rfl

theorem findSome_of_hit {α β : Type} {g : α → Option β} {v : β} {l : List α} (h : ∀ x ∈ l, g x = none ∨ g x = some v) (hit : ∃ x ∈ l, g x = some v) :
    l.findSome? g = some v := by
  induction l with
  | nil => simp at hit
  | cons x rest ih =>
    rw [List.findSome?_cons]
    rcases h x List.mem_cons_self with hx | hx
    · rw [hx]
      refine ih (fun y hy => h y (List.mem_cons_of_mem _ hy)) ?_
      obtain ⟨y, hy, hv⟩ := hit
      rcases List.mem_cons.1 hy with rfl | hmem
      · exact absurd (hx.symm.trans hv) (by simp)
      · exact ⟨y, hmem, hv⟩
    · rw [hx]

/-- R359: the one class A frame is next, whoever was served last. -/
theorem nextOf_single {p : PortState} {f : Frame} (hq : p.qa = [(4, f)]) (ht : f.type.sequenced = false) : nextOf p .a = some (4, f) := by
  have hhead (i : Nat) : inputHead p (p.queue .a) i = if i = 4 then some f else none := by
    have hqueue : p.queue .a = [(4, f)] := hq
    have hcan : canSend p f = true := by rw [canSend, ht]; rfl
    rw [inputHead, hqueue]
    by_cases hi : i = 4
    · simp [hi, hcan]
    · have hi' : (4 == i) = false := by simpa using Ne.symm hi
      simp [hi', hi]
  have hturn (k : Nat) : ∃ j ∈ List.range 5, (k + 1 + j) % 5 = 4 := ⟨(3 + 4 * k) % 5, List.mem_range.2 (by omega), by omega⟩
  refine findSome_of_hit (fun k _ => ?_) ?_
  · simp only [hhead]
    split
    · next h4 => exact .inr (by rw [h4]; rfl)
    · exact .inl rfl
  · obtain ⟨j, hj, h4⟩ := hturn (nth p.turn Cls.a.code 4)
    refine ⟨j, hj, ?_⟩
    simp only [hhead, h4, if_true, Option.map_some]

theorem releaseBroadcasts_none {s : State} (h : s.fab.bwait = []) : releaseBroadcasts s = s := by
  rw [releaseBroadcasts, h, List.take_nil, List.foldl_nil]

theorem exec_frameTransmit_single {n : Fin 4} {f : Frame} {s : State} (h : Leaves n f s) :
    exec (.frameTransmit n) s = .next (sendNew n false 4 f (queueLeft n f s)) := by
  have hclear : releaseBroadcasts (lineCleared n s) = lineCleared n s := releaseBroadcasts_none h.bwait
  have hnext : nextOf (port n (lineCleared n s)) .a = some (4, f) :=
    nextOf_single (by rw [port_lineCleared]; exact h.queue) (by rw [h.type]; rfl)
  have hserve : serveClass n false .a (lineCleared n s) = sendNew n false 4 f (queueLeft n f s) := by
    rw [serveClass, hnext]
    rfl
  change execFrameTransmit n s = _
  unfold execFrameTransmit
  rw [if_pos h.up, if_neg (by rw [h.idle]; decide)]
  extract_lets s1 p
  have hs1 : s1 = lineCleared n s := hclear
  have hp : (nextOf p .a).isSome = true := by
    simp only [p, hs1, hnext, Option.isSome_some]
  rw [if_pos hp, hs1, hserve]

/-- What a frame of this node's own leaves at an idle port: the frame, stamped, with the acknowledgements that waited. -/
theorem lineView_sendNew {n : Nat} (hn : n < 4) {f0 f : Frame} {u v : State} (hst : stampDelay n false f0 u = (f, v)) (ht : f.type.sequenced = false) :
    lineView n (sendNew n false 4 f0 u) = (v.tbs, (port n v).qa, (port n v).line ++ [frameLine f (acks (port n v) 0 false)]) := by
  have hput : lineView n (putLine n false f 0 false v) = (v.tbs, (port n v).qa, (port n v).line ++ [frameLine f (acks (port n v) 0 false)]) := by
    have hport : port n (modPort n (fun q => q.put f 0 false v.now) v) = (port n v).put f 0 false v.now := (port_modPort n n hn _ v).trans (if_pos rfl)
    change lineView n (modPort n (fun q => q.put f 0 false v.now) v) = _
    rw [lineView, hport]
    rfl
  unfold sendNew
  rw [hst]
  extract_lets f1 v1 k s1 s2
  have hseq : ¬ f.type.sequenced = true := by rw [ht]; decide
  have hs1 : s1 = putLine n false f 0 false v := if_neg hseq
  have hs2 : lineView n s2 = lineView n s1 := rfl
  rw [if_pos rfl, lineView_frameLeft hn, hs2, hs1, hput]

/-- R357: a frame that leaves a clear line crosses the pin at once. -/
theorem leaveTime_clear {n : Nat} {f : Frame} {u : State} (hstop : (port n u).sending = []) (hft : u.ft < 2 ^ 64) : leaveTime n false f u = u.ft := by
  have h0 : (port n u).stop = 0 := by rw [PortState.stop, hstop]; rfl
  have hwait : leaveTime n false f u = (u.ft + ((port n u).stop - u.now)) % 2 ^ 64 := rfl
  rw [hwait, h0, Nat.zero_sub, Nat.add_zero, Nat.mod_eq_of_lt hft]

theorem stampDelay_request {n : Nat} {f : Frame} {u : State} (ht : f.type = .delay) (hk : getBits (nth f.payload 0 0#32) 4 4 = 1)
    (hstop : (port n u).sending = []) (hft : u.ft < 2 ^ 64) :
    stampDelay n false f u = (f, modDelay n (fun d => { d with sent := some u.ft }) u) := by
  rw [stampDelay, leaveTime_clear hstop hft, hk]
  exact if_neg (not_not_intro ht)

theorem stampDelay_response {n : Nat} {f : Frame} {u : State} (ht : f.type = .delay) (hk : getBits (nth f.payload 0 0#32) 4 4 = 2)
    (hstop : (port n u).sending = []) (hft : u.ft < 2 ^ 64) :
    stampDelay n false f u = (⟨f.type, f.cls, f.mode, f.route, f.hop, f.src, f.dst, f.epoch, f.tag, setNth f.payload 3
      (BitVec.ofNat 32 (u.ft + 2 ^ 64 - ((nth f.payload 1 0#32).toNat + 2 ^ 32 * (nth f.payload 2 0#32).toNat)))⟩, u) := by
  rw [stampDelay, leaveTime_clear hstop hft, hk]
  exact if_neg (not_not_intro ht)

theorem pending_exec {i : Instr} {s t : State} (h : exec i s = .next t) : t.pending = s.pending := by
  have hkept := keptOut_exec (.refl s) i
  rw [h] at hkept
  exact hkept.pending

/-- R357, R469: the sender of a request keeps t1. -/
theorem request_leaves {n : Fin 4} {f : Frame} {s : State} (h : Leaves n f s) (hk : getBits (nth f.payload 0 0#32) 4 4 = 1) (hft : s.ft < 2 ^ 64) :
    ∃ t, exec (.frameTransmit n) s = .next t ∧ (delayOf n t).sent = some s.ft ∧ (port n t).qa = [] ∧
    (port n t).line = [frameLine f (acks (port n s) 0 false)] ∧ t.pending = s.pending := by
  have hexec := exec_frameTransmit_single h
  have hport := port_queueLeft h
  have hstamp := stampDelay_request h.type hk (n := n) (u := queueLeft n f s) (by rw [hport]; rfl) hft
  have hview := lineView_sendNew n.isLt hstamp (by rw [h.type]; rfl)
  obtain ⟨htbs, hqa, hline⟩ : _ ∧ _ ∧ _ := ⟨congrArg (·.1) hview, congrArg (·.2.1) hview, congrArg (·.2.2) hview⟩
  have hv : port n (modDelay n (fun d => { d with sent := some (queueLeft n f s).ft }) (queueLeft n f s)) = _ := hport
  rw [hv] at hqa hline
  refine ⟨_, hexec, ?_, hqa, hline.trans rfl, pending_exec hexec⟩
  rw [delayOf_of_tbs htbs, delayOf_modDelay n n n.isLt, if_pos rfl]
  rfl

/-- The TURN of a response. -/
theorem turn_word {ft t2 : Nat} (h : t2 ≤ ft) : BitVec.ofNat 32 (ft + 2 ^ 64 - t2) = BitVec.ofInt 32 ((ft : Int) - t2) := by
  have hcast : (ft : Int) - t2 = ((ft - t2 : Nat) : Int) := (Nat.cast_sub h).symm
  rw [hcast, BitVec.ofInt_natCast]
  apply BitVec.eq_of_toNat_eq
  simp only [BitVec.toNat_ofNat]
  omega

theorem setNth_last {l : List Word} (h : l.length = 4) (v : Word) : setNth l 3 v = l.take 3 ++ [v] := by
  match l, h with
  | [_, _, _, _], _ => rfl

/-- R357, R470: a response takes its TURN. -/
theorem response_leaves {n : Fin 4} {f : Frame} {s : State} (h : Leaves n f s) (hk : getBits (nth f.payload 0 0#32) 4 4 = 2)
    (hlen : f.payload.length = 4) (ht2 : ((nth f.payload 1 0#32).toNat + 2 ^ 32 * (nth f.payload 2 0#32).toNat : Int) ≤ s.ft) (hft : s.ft < 2 ^ 64) :
    ∃ t, exec (.frameTransmit n) s = .next t ∧ t.tbs = s.tbs ∧ (port n t).qa = [] ∧
    (port n t).line = [frameLine { f with payload := f.payload.take 3 ++
      [BitVec.ofInt 32 (s.ft - ((nth f.payload 1 0#32).toNat + 2 ^ 32 * (nth f.payload 2 0#32).toNat : Int))] } (acks (port n s) 0 false)] ∧
    t.pending = s.pending := by
  have hexec := exec_frameTransmit_single h
  have hport := port_queueLeft h
  have hturn := turn_word (t2 := (nth f.payload 1 0#32).toNat + 2 ^ 32 * (nth f.payload 2 0#32).toNat) (ft := s.ft) (by exact_mod_cast ht2)
  have hstamp := stampDelay_response h.type hk (n := n) (u := queueLeft n f s) (by rw [hport]; rfl) hft
  have hft' : (queueLeft n f s).ft = s.ft := rfl
  rw [hft', hturn, setNth_last hlen] at hstamp
  have hview := lineView_sendNew n.isLt hstamp (by rw [h.type]; rfl)
  obtain ⟨htbs, hqa, hline⟩ : _ ∧ _ ∧ _ := ⟨congrArg (·.1) hview, congrArg (·.2.1) hview, congrArg (·.2.2) hview⟩
  rw [hport] at hqa hline
  push_cast at hline
  exact ⟨_, hexec, htbs, hqa, hline, pending_exec hexec⟩

end Sys2Proof.Machine
end

