-- ==== Sys2Proof/Proofs/DelayExchange.lean ====
section
/-!
PROOFS. The delay and the offset of a response, and what they do to fabric time and its lock (R470, R472, R473).
-/
namespace Sys2Proof.Machine

/-! ### The delay of a port (R470, R486) -/

theorem openDiv_double (x : Int) : openDiv (2 * x) 2 = x := by
  have hmod : 2 * x % 2 = 0 := by omega
  rw [openDiv, if_neg (by decide), if_pos hmod]
  omega

theorem openDiv_one (x : Int) : openDiv x 1 = x := by
  rw [openDiv, if_neg (by decide), if_pos (Int.emod_one x), Int.ediv_one]

theorem clampI_bounds {lo hi : Int} (h : lo ≤ hi) (v : Int) : lo ≤ clampI v lo hi ∧ clampI v lo hi ≤ hi := by
  unfold clampI
  split
  · omega
  · split <;> omega

/-- What the delay of a port leaves of the timebase: what steers, and the parent. -/
structure Steady (s t : State) : Prop where
  good : t.tbs.good = s.tbs.good
  bad : t.tbs.bad = s.tbs.bad
  slew : t.tbs.slew = s.tbs.slew
  track : t.tbs.track = s.tbs.track
  parent : t.tbs.parent = s.tbs.parent

theorem Steady.trans {s t u : State} (h : Steady s t) (h' : Steady t u) : Steady s u :=
  ⟨h'.good.trans h.good, h'.bad.trans h.bad, h'.slew.trans h.slew, h'.track.trans h.track, h'.parent.trans h.parent⟩

theorem Steady.of_tbs {s t : State} (h : t.tbs = s.tbs) : Steady s t := by
  constructor <;> rw [h]

theorem Steady.modDelay (n : Nat) (f : DelayState → DelayState) (s : State) : Steady s (modDelay n f s) := ⟨rfl, rfl, rfl, rfl, rfl⟩

/-- Whether a port's mean delay exceeds 500 ns. -/
def slowPort (n : Nat) (s : State) : Bool := decide (500 * ((delayOf n s).delays.length : Int) < (delayOf n s).delays.sum)

/-- The byte of `TBS_PDLY` of a port. -/
def delayField (n : Nat) : Field := ⟨Reg.TBS_PDLY, 8 * n, 8⟩

/-- A port's mean delay as it is shown. -/
def shownDelay (n : Nat) (s : State) : Nat := (clampI (openDiv (delayOf n s).delays.sum (delayOf n s).delays.length) 0 255).toNat

/-- The state with the mean delay shown, before source 14. -/
def delayShown (n : Nat) (s : State) : State :=
  modDelay n (fun p => { p with slow := slowPort n s }) (setF (delayField n) (shownDelay n s) s)

theorem reportDelay_eq (n : Nat) (s : State) :
    reportDelay n s = if slowPort n s && !(delayOf n s).slow then pulse 14 (delayShown n s) else delayShown n s := rfl

theorem Changes.delayShown (n : Nat) (s : State) : Changes [.tbs] (· = Reg.TBS_PDLY) s (delayShown n s) :=
  ((Changes.setF (delayField n) _ s).trans (.modDelay n _ _)).mono (by simp) (by simp [delayField])

theorem Steady.delayShown (n : Nat) (s : State) : Steady s (delayShown n s) := ⟨rfl, rfl, rfl, rfl, rfl⟩

/-- Source 14 apart, the mean delay changes no more than it shows. -/
theorem Changes.reportDelay (n : Nat) (s : State) : Changes [.tbs, .flt] (· = Reg.TBS_PDLY) s (reportDelay n s) := by
  rw [reportDelay_eq]
  exact .of_ite (((Changes.delayShown n s).trans (.pulse 14 _)).mono (by simp) (by simp)) ((Changes.delayShown n s).mono (by simp) (by simp))

theorem tbs_reportDelay (n : Nat) (s : State) : (reportDelay n s).tbs = (delayShown n s).tbs := by
  rw [reportDelay_eq]
  split
  · exact (Changes.pulse 14 _).part_eq .tbs (by simp)
  · rfl

theorem waiting_reportDelay (n : Nat) (s : State) :
    (reportDelay n s).flt.waiting = s.flt.waiting ++ if slowPort n s && !(delayOf n s).slow then [14] else [] := by
  rw [reportDelay_eq]
  split
  · exact pulse_waiting 14 _ (muted_below (by decide) _)
  · exact (List.append_nil _).symm

theorem shown_reportDelay {n : Nat} (hn : n < 4) (s : State) : getF (delayField n) (reportDelay n s) = shownDelay n s := by
  have hlt : shownDelay n s < 2 ^ 8 := by
    obtain ⟨h0, h255⟩ := clampI_bounds (lo := 0) (hi := 255) (by decide) (openDiv (delayOf n s).delays.sum (delayOf n s).delays.length)
    unfold shownDelay
    omega
  have hfit : (delayField n).lo + (delayField n).w ≤ 32 := by simp only [delayField]; omega
  have hset : getF (delayField n) (delayShown n s) = shownDelay n s := (getF_setF_same (delayField n) _ s hfit).trans (Nat.mod_eq_of_lt hlt)
  rw [reportDelay_eq]
  split
  · exact (getF_of_reg (reg_pulse ..)).trans hset
  · exact hset

/-! ### A response that answers the open request (R357, R470) -/

/-- A response from the parent, LOCKED, to the open request that left at `t1`. -/
structure Answers (n : Fin 4) (f : Frame) (t1 : Nat) (s : State) : Prop where
  child : Child n s
  kind : isDelay 2 f = true
  locked : getBits (nth f.payload 0 0#32) 8 8 / 64 = 2
  asked : (delayOf n s).asked = some (getBits (nth f.payload 0 0#32) 0 4)
  sent : (delayOf n s).sent = some t1

/-- A delay is added to a port's last 16. -/
def delayTaken (n : Nat) (delay : Int) (s : State) : State :=
  modDelay n (fun p => { p with asked := none, sent := none, delays := (delay :: p.delays).take 16 }) s

/-- The state after a delay is taken and shown. -/
def exchanged (n : Nat) (f : Frame) (delay : Int) (s : State) : State := reportDelay n (delayTaken n delay (hear n f s))

/-- T2 and the TURN of a response. -/
def frameT2 (f : Frame) : Int := (nth f.payload 1 0#32).toNat + 2 ^ 32 * (nth f.payload 2 0#32).toNat
def frameTurn (f : Frame) : Int := (nth f.payload 3 0#32).toNat

section
variable {n : Fin 4} {f : Frame} {t1 : Nat} {s : State} (h : Answers n f t1 s)
include h

theorem delayOf_heard : delayOf n (hear n f s) = { delayOf n s with report := some (reportOf f) } := by
  rw [hear_locked h.child h.locked]
  exact (delayOf_heardReport n n n.isLt f s).trans (if_pos rfl)

theorem Changes.heard : Changes [.tbs, .fab] (oneOf [Reg.TBS_STAT]) s (Machine.hear n f s) := .hear (.inl ⟨h.child, h.locked⟩)

theorem delayOf_delayTaken (delay : Int) : delayOf n (delayTaken n delay (hear n f s)) =
    { delayOf n s with report := some (reportOf f), asked := none, sent := none, delays := (delay :: (delayOf n s).delays).take 16 } := by
  rw [delayTaken, delayOf_modDelay n n n.isLt, if_pos rfl, delayOf_heard h]

theorem steady_heard : Steady s (hear n f s) := by
  rw [hear_locked h.child h.locked]
  have htbs : (setF Reg.TBS_STAT_HOPS (min (getBits (nth f.payload 0 0#32) 8 8 % 32 + 1) 31) (heardReport n f s)).tbs = (noteReport n f s).tbs :=
    tbs_heardReport n f s
  exact (Steady.modDelay n _ s).trans (.of_tbs htbs)

theorem steady_exchanged (delay : Int) : Steady s (exchanged n f delay s) :=
  ((steady_heard h).trans (Steady.modDelay n _ _)).trans ((Steady.delayShown n (delayTaken n delay (hear n f s))).trans (.of_tbs (tbs_reportDelay n _)))

theorem Changes.exchanged (delay : Int) : Changes [.tbs, .fab, .flt] (oneOf [Reg.TBS_PDLY, Reg.TBS_STAT]) s (exchanged n f delay s) :=
  (((Changes.heard h).trans (.modDelay n _ _)).trans (.reportDelay n _)).mono (by simp) (by
    intro a ha
    simp only [oneOf, List.mem_singleton, or_false] at ha
    simp only [oneOf, List.mem_cons, List.not_mem_nil, or_false]
    exact ha.symm)

/-- A field of `TBS_STAT` beside HOPS. -/
theorem getF_exchanged {g : Field} (ha : g.addr = Reg.TBS_STAT) (hb : g.lo + g.w ≤ Reg.TBS_STAT_HOPS.lo ∨ Reg.TBS_STAT_HOPS.lo + Reg.TBS_STAT_HOPS.w ≤ g.lo)
    (hw : g.lo + g.w ≤ 32) (delay : Int) : getF g (exchanged n f delay s) = getF g s := by
  have hreport : getF g (exchanged n f delay s) = getF g (hear n f s) :=
    getF_of_reg ((Changes.reportDelay n _).reg_eq (by rw [ha]; decide))
  rw [hreport, hear_locked h.child h.locked, getF_setF_beside _ _ _ _ hb hw]
  exact getF_of_reg ((Changes.heardReport n f s).reg_eq (by simp))

theorem isRoot_exchanged (delay : Int) : isRoot (exchanged n f delay s) = false := by
  have hreport : isRoot (exchanged n f delay s) = isRoot (hear n f s) := by
    have hchg := ((Changes.modDelay n (fun p => { p with asked := none, sent := none, delays := (delay :: p.delays).take 16 }) (hear n f s)).trans
      (.reportDelay n _))
    refine isRoot_of (hchg.reg_eq (by decide)) (hchg.reg_eq (by decide)) (hchg.reg_eq (by decide)) ?_
    exact congrArg FabState.withdrawn (hchg.part_eq .fab (by simp))
  rw [hreport, hear_locked h.child h.locked]
  refine (isRoot_of (reg_setF_other (by decide) _ _) (reg_setF_other (by decide) _ _) (reg_setF_other (by decide) _ _) rfl).trans ?_
  exact (isRoot_takeInbox n f s).trans h.child.root

/-- R470, R472: the response steers the node. -/
theorem exec_delayResponse (ago : Nat) {off : Int}
    (hoff : 2 * off = (frameT2 f - t1) + (frameT2 f + frameTurn f - (unsigned 64 (s.ft - ago) : Int))) :
    exec (.delayResponseReceive n f ago) s =
      .next (steer off (exchanged n f (openDiv (((unsigned 64 (s.ft - ago) : Int) - t1) - frameTurn f) 2) s)) := by
  have hopen := delayOf_heard h
  have hsent : (delayOf n (hear n f s)).sent = some t1 := by rw [hopen]; exact h.sent
  have hasked : (delayOf n (hear n f s)).asked = some (getBits (nth f.payload 0 0#32) 0 4) := by rw [hopen]; exact h.asked
  have hdiv : openDiv ((frameT2 f - t1) + (frameT2 f + frameTurn f - (unsigned 64 (s.ft - ago) : Int))) 2 = off := by rw [← hoff, openDiv_double]
  have hparent (delay : Int) : (!isRoot (exchanged n f delay s) && (exchanged n f delay s).tbs.parent &&
      getF Reg.TBS_STAT_PARENT (exchanged n f delay s) == n.val) = true := by
    rw [isRoot_exchanged h, (steady_exchanged h delay).parent, h.child.parent, getF_exchanged h rfl (by decide) (by decide), h.child.port]
    exact beq_self_eq_true _
  change execDelayResponseReceive n f ago s = _
  unfold execDelayResponseReceive
  rw [if_pos (by rw [h.kind, h.child.up]; rfl)]
  change (match (delayOf n (hear n f s)).sent with | none => _ | some t1 => _) = _
  rw [hsent]
  refine (if_pos hasked).trans ((congrArg Host.Outcome.next (if_pos (hparent _))).trans ?_)
  rw [← hdiv]
  rfl

end


/-! ### Steering and stepping (R473) -/

/-- What an offset does to fabric time and its rate. -/
def corrected (off : Int) (s : State) : State :=
  if 1000 ≤ mag off then stepTime off (setReg Reg.TBS_OFFS (BitVec.ofInt 32 off) s) else steerRate (setReg Reg.TBS_OFFS (BitVec.ofInt 32 off) s)

/-- The offsets in a row that count for and against the lock. -/
def goodCount (off : Int) (s : State) : Nat := if mag off ≤ 20 then s.tbs.good + 1 else 0
def badCount (off : Int) (s : State) : Nat := if 250 < mag off then s.tbs.bad + 1 else 0

/-- The state with its offset offsetCounted. -/
def offsetCounted (off : Int) (s : State) : State :=
  { corrected off s with tbs := { (corrected off s).tbs with good := goodCount off (corrected off s), bad := badCount off (corrected off s) } }

theorem steer_eq (off : Int) (s : State) : steer off s =
    if tbState (offsetCounted off s) = 1 ∧ 16 ≤ goodCount off (corrected off s) then enterTb 2 (offsetCounted off s)
    else if tbState (offsetCounted off s) = 2 ∧ 4 ≤ badCount off (corrected off s) then enterTb 1 (offsetCounted off s)
    else offsetCounted off s := rfl

/-- The state of TPLL's range. -/
def steering (v : Int) : Int := clampI v (-25000000) 25000000

theorem steering_fits {v : Int} (hlo : -25000000 ≤ v) (hhi : v ≤ 25000000) : steering v = v := by
  unfold steering clampI
  rw [if_neg (by omega), if_neg (by omega)]

theorem steering_near {r c : Int} (hlo : -25000000 ≤ r) (hhi : r ≤ 25000000) (h : -100000 ≤ c ∧ c ≤ 100000) :
    r - 100000 ≤ steering (r + c) ∧ steering (r + c) ≤ r + 100000 := by
  obtain ⟨h0, h1⟩ := h
  unfold steering clampI
  split
  · omega
  · split <;> omega

/-- What a steered rate is (R473). -/
structure Steered (s t : State) : Prop where
  changes : Changes [.tbs, .free] (fun _ => False) s t
  good : t.tbs.good = s.tbs.good
  bad : t.tbs.bad = s.tbs.bad
  ports : t.tbs.ports = s.tbs.ports
  range : -25000000 ≤ t.tbs.slew ∧ t.tbs.slew ≤ 25000000
  near : ∀ r, s.tbs.track = some r → -25000000 ≤ r → r ≤ 25000000 → t.tbs.track = some r ∧ r - 100000 ≤ t.tbs.slew ∧ t.tbs.slew ≤ r + 100000

theorem steered_steerRate (s : State) : Steered s (steerRate s) := by
  have hrange (v : Int) : -25000000 ≤ steering v ∧ steering v ≤ 25000000 := clampI_bounds (by decide) v
  unfold steerRate
  extract_lets steering' rate s1 fab1
  have h1 : Changes [.free] (fun _ => False) s s1 := .of_ite (.refl ..) (.useFree s)
  have htbs : s1.tbs = s.tbs := h1.part_eq .tbs (by simp)
  have hgood : s1.tbs.good = s.tbs.good := congrArg TbsState.good htbs
  have hbad : s1.tbs.bad = s.tbs.bad := congrArg TbsState.bad htbs
  have hports : s1.tbs.ports = s.tbs.ports := congrArg TbsState.ports htbs
  refine ⟨((h1.trans (.useFree s1)).trans (.withTbs _ _)).mono (by simp) (by simp), hgood, hbad, hports, hrange _, fun r hr hlo hhi => ?_⟩
  have hrate : rate = r := by simp only [rate, hr, Option.getD_some]
  rw [hrate]
  exact ⟨rfl, steering_near hlo hhi (clampI_bounds (by decide) _)⟩

theorem Changes.startSettleAll (s : State) : Changes [.cms, .imp] (· = Reg.CMS_STAT) s (startSettleAll s) := by
  have hmark (p : Nat → Bool) (u : State) : Changes [.imp] (fun _ => False) u (markStream false p u) := .of_ite (.refl ..) (.withImp u _)
  have hreport (u : State) : Changes [] (· = Reg.CMS_STAT) u (reportSettle u) :=
    ((Changes.setF Reg.CMS_STAT_SETLEFT _ u).trans (.setB Reg.CMS_STAT_SETTLING _ _)).mono (by simp)
      (by simp [Reg.CMS_STAT_SETLEFT, Reg.CMS_STAT_SETTLING])
  exact (((Changes.withCms s _).trans (hreport _)).trans ((Changes.withCms _ _).trans (hmark _ _))).mono (by simp) (by simp)

/-- What a time step leaves of the timebase. -/
structure Stepped (off : Int) (s t : State) : Prop where
  time : t.ft = unsigned 64 (s.ft + off)
  slew : t.tbs.slew = s.tbs.slew
  offs : reg t Reg.TBS_OFFS = reg s Reg.TBS_OFFS

theorem stepped_stepTime (off : Int) (s : State) : Stepped off s (stepTime off s) := by
  unfold stepTime
  extract_lets s1
  have h1 : Stepped off s s1 := ⟨rfl, rfl, rfl⟩
  split
  · have hchg := (Changes.planAbort 8 s1).trans (.startSettleAll _)
    refine ⟨(hchg.part_eq .ft (by simp)).trans h1.time, (congrArg TbsState.slew (hchg.part_eq .tbs (by simp))).trans h1.slew, ?_⟩
    exact (hchg.reg_eq (by unfold oneOf; decide)).trans h1.offs
  · exact h1

/-- Offsets below 1 µs. -/
theorem corrected_small {off : Int} (h : mag off < 1000) (s : State) : corrected off s = steerRate (setReg Reg.TBS_OFFS (BitVec.ofInt 32 off) s) :=
  if_neg (by omega)

theorem Changes.offsetCounted_small {off : Int} (h : mag off < 1000) (s : State) : Changes [.tbs, .free] (· = Reg.TBS_OFFS) s (offsetCounted off s) := by
  have hcorr : Changes [.tbs, .free] (· = Reg.TBS_OFFS) s (corrected off s) := by
    rw [corrected_small h]
    exact ((Changes.setReg _ _ s).trans (steered_steerRate _).changes).mono (by simp) (by simp)
  exact (hcorr.trans (.withTbs _ _)).mono (by simp) (by simp)

theorem tbState_offsetCounted_small {off : Int} (h : mag off < 1000) (s : State) : tbState (offsetCounted off s) = tbState s :=
  getF_of_reg ((Changes.offsetCounted_small h s).reg_eq (by decide))

theorem offs_offsetCounted_small {off : Int} (h : mag off < 1000) (s : State) : reg (offsetCounted off s) Reg.TBS_OFFS = BitVec.ofInt 32 off := by
  have hcorr : reg (corrected off s) Reg.TBS_OFFS = BitVec.ofInt 32 off := by
    rw [corrected_small h]
    exact ((steered_steerRate _).changes.reg_eq (by simp)).trans (reg_setReg_same ..)
  exact hcorr

theorem goodCount_small {off : Int} (h : mag off < 1000) (s : State) : goodCount off (corrected off s) = if mag off ≤ 20 then s.tbs.good + 1 else 0 := by
  have hgood : (corrected off s).tbs.good = s.tbs.good := by
    rw [corrected_small h]
    exact (steered_steerRate _).good
  rw [goodCount, hgood]

theorem badCount_small {off : Int} (h : mag off < 1000) (s : State) : badCount off (corrected off s) = if 250 < mag off then s.tbs.bad + 1 else 0 := by
  have hbad : (corrected off s).tbs.bad = s.tbs.bad := by
    rw [corrected_small h]
    exact (steered_steerRate _).bad
  rw [badCount, hbad]

/-- R472: a LOCKED node keeps its lock where fewer than four offsets in a row exceed 250 ns. -/
theorem steer_locked {off : Int} (h : mag off < 1000) {s : State} (hst : tbState s = 2) (hbad : s.tbs.bad < 3) : steer off s = offsetCounted off s := by
  have hfew : ¬ 4 ≤ badCount off (corrected off s) := by
    rw [badCount_small h]
    split <;> omega
  rw [steer_eq, tbState_offsetCounted_small h, hst, if_neg (by simp), if_neg fun hc => hfew hc.2]

/-- R472: the sixteenth offset of at most 20 ns locks a node that acquires. -/
theorem steer_acquires {off : Int} (h : mag off ≤ 20) {s : State} (hst : tbState s = 1) (hgood : s.tbs.good = 15) :
    steer off s = enterTb 2 (offsetCounted off s) := by
  have hmany : 16 ≤ goodCount off (corrected off s) := by
    rw [goodCount_small (by omega), if_pos h, hgood]
  rw [steer_eq, tbState_offsetCounted_small (by omega), if_pos ⟨hst, hmany⟩]

theorem mag_lt {off : Int} (hlo : -1000 < off) (hhi : off < 1000) : mag off < 1000 := by
  unfold mag
  omega

theorem mag_le {off : Int} (hlo : -20 ≤ off) (hhi : off ≤ 20) : mag off ≤ 20 := by
  unfold mag
  omega

theorem le_mag {off : Int} (h : off ≤ -1000 ∨ 1000 ≤ off) : 1000 ≤ mag off := by
  unfold mag
  omega

theorem stepped_corrected {off : Int} (h : 1000 ≤ mag off) (s : State) :
    (corrected off s).ft = unsigned 64 (s.ft + off) ∧ (corrected off s).tbs.slew = s.tbs.slew ∧
    reg (corrected off s) Reg.TBS_OFFS = BitVec.ofInt 32 off := by
  rw [corrected, if_pos h]
  obtain ⟨htime, hslew, hoffs⟩ := stepped_stepTime off (setReg Reg.TBS_OFFS (BitVec.ofInt 32 off) s)
  exact ⟨htime, hslew, hoffs.trans (reg_setReg_same ..)⟩

/-- R473: from 1 µs up fabric time steps, and no offset counts for the lock. -/
theorem steer_steps {off : Int} (h : 1000 ≤ mag off) (s : State) :
    (steer off s).ft = unsigned 64 (s.ft + off) ∧ reg (steer off s) Reg.TBS_OFFS = BitVec.ofInt 32 off ∧ (steer off s).tbs.good = 0 ∧
    (steer off s).tbs.slew = s.tbs.slew := by
  obtain ⟨htime, hslew, hoffs⟩ := stepped_corrected h s
  have hnone : goodCount off (corrected off s) = 0 := if_neg (by omega)
  have hbase : (offsetCounted off s).ft = unsigned 64 (s.ft + off) ∧ reg (offsetCounted off s) Reg.TBS_OFFS = BitVec.ofInt 32 off ∧ (offsetCounted off s).tbs.good = 0 ∧
    (offsetCounted off s).tbs.slew = s.tbs.slew := ⟨htime, hoffs, hnone, hslew⟩
  have henter (code : Nat) (u : State) : (enterTb code u).ft = u.ft ∧ reg (enterTb code u) Reg.TBS_OFFS = reg u Reg.TBS_OFFS ∧
      (enterTb code u).tbs.good = 0 ∧ (enterTb code u).tbs.slew = u.tbs.slew := by
    refine ⟨(Changes.enterTb code u).part_eq .ft (by simp), (Changes.enterTb code u).reg_eq (by unfold oneOf; decide), ?_, ?_⟩
    · rw [tbs_enterTb]
    · rw [tbs_enterTb]
  obtain ⟨ht, ho, -, hs⟩ := hbase
  rw [steer_eq]
  split
  · obtain ⟨et, eo, eg, es⟩ := henter 2 (offsetCounted off s)
    exact ⟨et.trans ht, eo.trans ho, eg, es.trans hs⟩
  · split
    · obtain ⟨et, eo, eg, es⟩ := henter 1 (offsetCounted off s)
      exact ⟨et.trans ht, eo.trans ho, eg, es.trans hs⟩
    · exact ⟨ht, ho, hnone, hs⟩

/-! ### The outcomes of a response (R470, R472, R473) -/

section
variable {n : Fin 4} {f : Frame} {t1 : Nat} {s : State} (h : Answers n f t1 s) (ago : Nat)
include h

/-- Below 1 µs, in LOCKED. -/
theorem response_steers {delay off : Int} (hdelay : 2 * delay = ((unsigned 64 (s.ft - ago) : Int) - t1) - frameTurn f)
    (hoff : 2 * off = (frameT2 f - t1) + (frameT2 f + frameTurn f - (unsigned 64 (s.ft - ago) : Int)))
    (hlo : -1000 < off) (hhi : off < 1000) (hst : tbState s = 2) (hfirst : (delayOf n s).delays = []) (hbad : s.tbs.bad < 3) :
    ∃ t, exec (.delayResponseReceive n f ago) s = .next t ∧
    reg t Reg.TBS_OFFS = BitVec.ofInt 32 off ∧ getBits (reg t Reg.TBS_PDLY) (8 * n) 8 = (clampI delay 0 255).toNat ∧
    (delayOf n t).delays = [delay] ∧ (delayOf n t).asked = none ∧ t.ft = s.ft ∧ tbState t = 2 ∧ -25000000 ≤ t.tbs.slew ∧ t.tbs.slew ≤ 25000000 ∧
    (∀ r, s.tbs.track = some r → -25000000 ≤ r → r ≤ 25000000 → t.tbs.track = some r ∧ r - 100000 ≤ t.tbs.slew ∧ t.tbs.slew ≤ r + 100000) ∧
    t.tbs.good = (if mag off ≤ 20 then s.tbs.good + 1 else 0) ∧ t.tbs.bad = (if 250 < mag off then s.tbs.bad + 1 else 0) ∧
    t.flt.waiting = s.flt.waiting ++ (if 500 < delay ∧ (delayOf n s).slow = false then [14] else []) ∧
    Changes [.tbs, .fab, .flt, .free] (oneOf [Reg.TBS_OFFS, Reg.TBS_PDLY, Reg.TBS_STAT]) s t := by
  have hsmall := mag_lt hlo hhi
  have hd : openDiv (((unsigned 64 (s.ft - ago) : Int) - t1) - frameTurn f) 2 = delay := by rw [← hdelay, openDiv_double]
  have hexec := exec_delayResponse h ago hoff
  rw [hd] at hexec
  have hsteady := steady_exchanged h delay
  have hstate : tbState (exchanged n f delay s) = 2 := (getF_exchanged h rfl (by decide) (by decide) delay).trans hst
  rw [steer_locked hsmall hstate (by rw [hsteady.bad]; exact hbad)] at hexec
  have hopen := delayOf_delayTaken h delay
  rw [hfirst] at hopen
  have hdelays : (delayOf n (delayTaken n delay (hear n f s))).delays = [delay] := by rw [hopen]; rfl
  have hslow : slowPort n (delayTaken n delay (hear n f s)) = decide (500 < delay) := by
    rw [slowPort, hdelays, List.sum_singleton, List.length_singleton, Nat.cast_one, Int.mul_one]
  have hshown : shownDelay n (delayTaken n delay (hear n f s)) = (clampI delay 0 255).toNat := by
    rw [shownDelay, hdelays, List.sum_singleton, List.length_singleton, Nat.cast_one, openDiv_one]
  have hchg := Changes.exchanged h delay
  have hcount := Changes.offsetCounted_small hsmall (exchanged n f delay s)
  have hsteer : Steered (setReg Reg.TBS_OFFS (BitVec.ofInt 32 off) (exchanged n f delay s)) (corrected off (exchanged n f delay s)) := by
    rw [corrected_small hsmall]
    exact steered_steerRate _
  have hports : (offsetCounted off (exchanged n f delay s)).tbs.ports = (delayShown n (delayTaken n delay (hear n f s))).tbs.ports :=
    hsteer.ports.trans (congrArg TbsState.ports (tbs_reportDelay n _))
  have hport : delayOf n (offsetCounted off (exchanged n f delay s)) = delayOf n (delayShown n (delayTaken n delay (hear n f s))) := by
    rw [delayOf, hports, delayOf]
  have hshow : delayOf n (delayShown n (delayTaken n delay (hear n f s))) =
      { delayOf n (delayTaken n delay (hear n f s)) with slow := slowPort n (delayTaken n delay (hear n f s)) } := by
    rw [delayShown, delayOf_modDelay n n n.isLt, if_pos rfl]
    rfl
  refine ⟨_, hexec, offs_offsetCounted_small hsmall _, ?_, ?_, ?_, ?_, ?_, hsteer.range.1, hsteer.range.2, ?_, ?_, ?_, ?_, ?_⟩
  · have hbyte : getF (delayField n) (offsetCounted off (exchanged n f delay s)) = shownDelay n (delayTaken n delay (hear n f s)) :=
      (getF_of_reg (hcount.reg_eq (a := Reg.TBS_PDLY) (by decide))).trans (shown_reportDelay n.isLt _)
    exact hbyte.trans hshown
  · rw [hport, hshow]
    exact hdelays
  · rw [hport, hshow, hopen]
  · exact (hcount.part_eq .ft (by simp)).trans (hchg.part_eq .ft (by simp))
  · exact (tbState_offsetCounted_small hsmall _).trans hstate
  · intro r hr
    exact hsteer.near r (hsteady.track.trans hr)
  · exact (goodCount_small hsmall _).trans (by rw [hsteady.good])
  · exact (badCount_small hsmall _).trans (by rw [hsteady.bad])
  · have hwait : (offsetCounted off (exchanged n f delay s)).flt = (exchanged n f delay s).flt := hcount.part_eq .flt (by simp)
    have hheard : (delayTaken n delay (hear n f s)).flt = s.flt := (Changes.heard h).part_eq .flt (by simp)
    rw [hwait, exchanged, waiting_reportDelay, hheard, hslow, hopen]
    simp only [Bool.and_eq_true, decide_eq_true_eq, Bool.not_eq_true']
  · exact (hchg.trans hcount).mono (by simp) (fun a ha => by
      simp only [oneOf, List.mem_cons, List.not_mem_nil, or_false] at ha ⊢
      omega)

/-- The sixteenth good offset. -/
theorem response_locks {off : Int} (hoff : 2 * off = (frameT2 f - t1) + (frameT2 f + frameTurn f - (unsigned 64 (s.ft - ago) : Int)))
    (hlo : -20 ≤ off) (hhi : off ≤ 20) (hst : tbState s = 1) (hgood : s.tbs.good = 15) :
    ∃ t, exec (.delayResponseReceive n f ago) s = .next t ∧ tbState t = 2 ∧
    bit Reg.CMS_STAT_TBLOCK t = true ∧ t.ft = s.ft ∧ Changes [.tbs, .fab, .flt, .free] (oneOf [Reg.TBS_OFFS, Reg.TBS_PDLY, Reg.TBS_STAT, Reg.CMS_STAT]) s t := by
  have hexec := exec_delayResponse h ago hoff
  generalize openDiv (((unsigned 64 (s.ft - ago) : Int) - t1) - frameTurn f) 2 = delay at hexec
  have hstate : tbState (exchanged n f delay s) = 1 := (getF_exchanged h rfl (by decide) (by decide) delay).trans hst
  have hsmall : mag off ≤ 20 := mag_le hlo hhi
  rw [steer_acquires hsmall hstate ((steady_exchanged h delay).good.trans hgood)] at hexec
  have hcount := Changes.offsetCounted_small (show mag off < 1000 by omega) (exchanged n f delay s)
  have hchg := (Changes.exchanged h delay).trans (hcount.trans (.enterTb_locked (code := 2) (by decide) _))
  refine ⟨_, hexec, tbState_enterTb (by decide) _, tblock_enterTb 2 _, hchg.part_eq .ft (by simp), ?_⟩
  exact hchg.mono (by simp) (fun a ha => by
      simp only [oneOf, List.mem_cons, List.not_mem_nil, or_false] at ha ⊢
      omega)

/-- From 1 µs up. -/
theorem response_steps {off : Int} (hoff : 2 * off = (frameT2 f - t1) + (frameT2 f + frameTurn f - (unsigned 64 (s.ft - ago) : Int)))
    (hbig : off ≤ -1000 ∨ 1000 ≤ off) : ∃ t, exec (.delayResponseReceive n f ago) s = .next t ∧ t.ft = unsigned 64 (s.ft + off) ∧
    reg t Reg.TBS_OFFS = BitVec.ofInt 32 off ∧ t.tbs.good = 0 ∧ t.tbs.slew = s.tbs.slew ∧ t.pending = s.pending := by
  have hexec := exec_delayResponse h ago hoff
  generalize openDiv (((unsigned 64 (s.ft - ago) : Int) - t1) - frameTurn f) 2 = delay at hexec
  obtain ⟨htime, hoffs, hgood, hslew⟩ := steer_steps (le_mag hbig) (exchanged n f delay s)
  have hft : (exchanged n f delay s).ft = s.ft := (Changes.exchanged h delay).part_eq .ft (by simp)
  rw [hft] at htime
  exact ⟨_, hexec, htime, hoffs, hgood, hslew.trans (steady_exchanged h delay).slew, pending_exec hexec⟩

end

/-- Settles O46: the exchange of delays and the states of the timebase (R467 to R476). -/
theorem delayExchange : Obligations.DelayExchange := by
  unfold Obligations.DelayExchange
  intro s report child asked stamp leaves t2 turn sends alone rested
  have hchild {n : Fin 4} (h : child n) : Child n s := ⟨h.1, h.2.1, h.2.2.1, h.2.2.2⟩
  have hasked {n : Fin 4} {f : Frame} {t1 : Nat} (h : asked n f t1) : Answers n f t1 s :=
    ⟨hchild h.1, h.2.1, h.2.2.1, h.2.2.2.1, h.2.2.2.2⟩
  have hleaves {n : Fin 4} {f : Frame} (h : leaves n f) : Leaves n f s :=
    ⟨h.1, h.2.1, h.2.2.1, h.2.2.2.1, h.2.2.2.2.1, h.2.2.2.2.2⟩
  have halone {n : Fin 4} (h : alone n) : ∀ m : Fin 4, m.val ≠ n.val → (delayOf m s).report = none := fun m hm => h m fun heq => hm (congrArg Fin.val heq)
  have hquiet (h : s.fab.run = none) (he : s.fab.runEnd.all (fun u => decide (u + 10 * ms ≤ s.now)) = true) : rootQuiet s = false := by
    rw [rootQuiet, h, Option.isSome_none, Bool.false_or]
    cases hre : s.fab.runEnd with
    | none => rw [Option.any_none]
    | some u =>
      rw [hre, Option.all_some, decide_eq_true_eq] at he
      rw [Option.any_some]
      exact decide_eq_false (Nat.not_lt.2 he)
  refine ⟨fun hl => ?_, fun n f ago hup hk hr => response_sent ago hup hk (hr.imp_left fun hc => ⟨hchild hc.1, hc.2⟩),
    fun n f hl hk _ hft => request_leaves (hleaves hl) hk hft, fun n f hl hk hlen _ ht2 _ hft => response_leaves (hleaves hl) hk hlen ht2 hft,
    fun n f t1 ago delay off ha hd ho hlo hhi hst hfirst hbad => response_steers (hasked ha) ago hd ho hlo hhi hst hfirst hbad,
    fun n f t1 ago off ha ho hlo hhi hst hgood => response_locks (hasked ha) ago ho hlo hhi hst hgood,
    fun n f t1 ago off ha ho hbig => response_steps (hasked ha) ago ho hbig,
    fun n f hc hk hst hl hlock hmax ha => announce_holdover (hchild hc) hk hst hl hmax (halone ha),
    fun n f hc hk hst hl hmax ha => announce_freerun (hchild hc) hk hst hl hmax (halone ha),
    fun n f hc hk hst => announce_locked (hchild hc) hk hst, fun n f hup hroot hk hh => announce_root hup hroot hk hh,
    fun n h hup hst hroot hr ha hh hrest => search_eligible hup hst hroot hr (halone ha) hh hrest, search_idle, holdover_ends,
    fun hrest => if_neg fun hc => hrest hc.2, fun n hroot hrun he hup hr => rootConflict_heard hroot (hquiet hrun he) hup hr, fun h => ?_,
    step_root, step_other, rootTimeStep_taken, fun n f ago h => delayFrames_down h f ago⟩
  · obtain ⟨t, hexec, hasks, hrest, hchg⟩ := requests_sent hl
    exact ⟨t, hexec, fun n hn => hasks n (asks_iff.2 hn), fun n hn => hrest n fun ha => hn (asks_iff.1 ha), hchg⟩
  · refine rootConflict_quiet (h.imp_right fun hr => ?_)
    rw [rootQuiet, Bool.or_eq_true]
    exact hr

end Sys2Proof.Machine
end

