-- ==== Sys2Proof/Proofs/ThermalShutdown.lean ====
section
/-!
PROOFS. Thermal sources, the event log, disagreement, gallop, the shutdown and the restart (R490, R518, R520, R523 to R525, R617).
-/
namespace Sys2Proof.Machine

/-! ### Sources that follow the temperature (R490, R492) -/

/-- The sources of the thermal monitor are never muted (R489). -/
theorem muted_thermal {src : Nat} (h : 84 ≤ src) (s : State) : muted src s = false := by
  have hout : ((decide (16 ≤ src) && decide (src ≤ 43)) || (decide (45 ≤ src) && decide (src ≤ 48)) || src == 50 ||
      (decide (63 ≤ src) && decide (src ≤ 83))) = false := by
    simp only [Bool.or_eq_false_iff, Bool.and_eq_false_iff, decide_eq_false_iff_not, beq_eq_false_iff_ne]
    omega
  rw [muted, hout, Bool.and_false]

theorem mem_lines_raise_other {k src : Nat} (h : k ≠ src) (s : State) : k ∈ (raise src s).flt.lines ↔ k ∈ s.flt.lines := by
  unfold raise
  split
  · rfl
  · have hput : (setLine src true s).flt.lines = if muted src s then s.flt.lines else natPut src s.flt.lines := by
      unfold setLine
      rw [if_pos rfl]
      split <;> rfl
    rw [pulse_lines, hput]
    split
    · rfl
    · simp [mem_natPut, h]

theorem mem_lines_drop {k src : Nat} (s : State) : k ∈ (drop src s).flt.lines ↔ k ∈ s.flt.lines ∧ k ≠ src := by
  have herase : (drop src s).flt.lines = natErase src s.flt.lines := rfl
  rw [herase, natErase, List.mem_filter]
  simp

theorem mem_lines_follow_other {k src : Nat} (h : k ≠ src) (b : Bool) (s : State) : k ∈ (follow src b s).flt.lines ↔ k ∈ s.flt.lines := by
  cases b with
  | true => exact mem_lines_raise_other h s
  | false => exact (mem_lines_drop s).trans (and_iff_left h)

theorem mem_lines_raise {src : Nat} (h : 84 ≤ src) (s : State) : src ∈ (raise src s).flt.lines :=
  (natMem_iff _ _).1 (natMem_raise src s (muted_thermal h s))

theorem Changes.withThm (s : State) (y : ThmState) : Changes [.thm] (fun _ => False) s { s with thm := y } :=
  ⟨rfl, fun p hp => by cases p <;> simp_all [Part.same], fun _ _ => rfl⟩

/-! ### The event log (R525) -/

theorem Changes.logOccur (kind sensor temp : Nat) (s : State) : Changes [.thm] (oneOf [Reg.THM_LOGSTAT]) s (logOccur kind sensor temp s) :=
  .of_ite ((Changes.incSat Reg.THM_LOGSTAT_SKIP s).mono (by simp) (by simp [oneOf, Reg.THM_LOGSTAT_SKIP]))
    ((Changes.withThm s _).mono (by simp) (by simp))

/-- An occurrence moves the log alone. -/
theorem logOccur_thm (kind sensor temp : Nat) (s : State) :
    ∃ q l, (logOccur kind sensor temp s).thm = { s.thm with logQ := q, logLast := l } := by
  unfold logOccur
  extract_lets recent
  split
  · exact ⟨_, _, rfl⟩
  · exact ⟨_, _, rfl⟩

/-- A shutdown's restart is always logged. -/
theorem logOccur_restart (sensor temp : Nat) (s : State) : (logOccur 5 sensor temp s).thm.logQ = s.thm.logQ ++
    [⟨s.ft, !bit Reg.CMS_STAT_TBLOCK s, 5, sensor, temp⟩] := by
  unfold logOccur
  rw [if_neg (fun h => h.2.1 rfl)]

/-! ### Disagreement and the end of gallop (R518, R520) -/

/-- A condition that began at a sample 1 s ago or more. -/
theorem stoodSecond_of {o : Option Nat} {s : State} (h : ∃ k, o = some k ∧ k + 1000 * ms ≤ s.now) : stoodSecond o s = true := by
  obtain ⟨k, rfl, hk⟩ := h
  rw [stoodSecond, Option.any_some]
  exact decide_eq_true hk

theorem not_stoodSecond_of {o : Option Nat} {s : State} (h : o.all (fun b => decide (s.now < b + 1000 * ms)) = true) : stoodSecond o s = false := by
  cases o with
  | none => rw [stoodSecond, Option.any_none]
  | some k =>
    rw [Option.all_some, decide_eq_true_eq] at h
    rw [stoodSecond, Option.any_some]
    exact decide_eq_false (Nat.not_le.2 h)

/-- R518: two sensors have differed for 1 s. -/
theorem sensorDisagree_raised {s : State} (hup : coreUp s = true) (hd : diesDiffer s = true) (hnew : s.thm.disagree = false)
    (hlast : ∃ k, s.thm.differAt = some k ∧ k + 1000 * ms ≤ s.now) : ∃ t, exec .sensorDisagree s = .next t ∧ 117 ∈ t.flt.lines ∧
    t.thm.disagree = true ∧ Changes [.flt, .thm] (oneOf [Reg.THM_LOGSTAT]) s t := by
  have hlog := Changes.logOccur 7 0xFF 0 (raise 117 { s with thm := { s.thm with disagree := true } })
  have hkeeps : (logOccur 7 0xFF 0 (raise 117 { s with thm := { s.thm with disagree := true } })).thm.disagree = true := by
    have hraise : (raise 117 { s with thm := { s.thm with disagree := true } }).thm.disagree = true :=
      congrArg ThmState.disagree ((Changes.raise 117 _).part_eq .thm (by simp))
    obtain ⟨q, l, hthm⟩ := logOccur_thm 7 0xFF 0 (raise 117 { s with thm := { s.thm with disagree := true } })
    rw [hthm]
    exact hraise
  refine ⟨_, if_pos (by rw [hup, hd, hnew, stoodSecond_of hlast]; rfl), ?_, hkeeps, ?_⟩
  · rw [hlog.part_eq .flt (by simp)]
    exact mem_lines_raise (by decide) _
  · exact (((Changes.withThm s _).trans (.raise 117 _)).trans hlog).mono (by simp) (by simp)

theorem sensorDisagree_idle {s : State}
    (h : coreUp s = false ∨ diesDiffer s = false ∨ s.thm.differAt.all (fun b => decide (s.now < b + 1000 * ms)) = true) :
    exec .sensorDisagree s = .next s := by
  refine if_neg fun hc => ?_
  simp only [Bool.and_eq_true] at hc
  obtain ⟨⟨⟨hup, hd⟩, -⟩, hlast⟩ := hc
  rcases h with h | h | h
  · exact absurd (hup.symm.trans h) (by decide)
  · exact absurd (hd.symm.trans h) (by decide)
  · exact absurd (hlast.symm.trans (not_stoodSecond_of h)) (by decide)

/-- R520: gallop ends. -/
theorem gallopExit_left {s : State} (hup : coreUp s = true) (hg : bit Reg.THM_STAT_GALLOP s = true) (hclear : nearLimit 800 s = false)
    (hlast : ∃ k, s.thm.clearAt = some k ∧ k + 1000 * ms ≤ s.now) : ∃ t, exec .gallopExit s = .next t ∧
    bit Reg.THM_STAT_GALLOP t = false ∧ (∀ k, k ≠ 119 → (k ∈ t.flt.lines ↔ k ∈ s.flt.lines)) ∧
    Changes [.flt] (oneOf [Reg.THM_STAT, Reg.FLT_ACT 3]) s t := by
  refine ⟨_, if_pos (by rw [hup, hg, hclear, stoodSecond_of hlast]; rfl), ?_, fun k hk => ?_, ?_⟩
  · exact (bit_of_reg ((Changes.drop 119 _).reg_eq (by decide))).trans (bit_setB_same (by decide) rfl false s)
  · exact (mem_lines_drop _).trans (and_iff_left hk)
  · exact ((Changes.setB Reg.THM_STAT_GALLOP false s).trans (.drop 119 _)).mono (by simp) (by simp [oneOf, Reg.THM_STAT_GALLOP])

theorem gallopExit_idle {s : State}
    (h : coreUp s = false ∨ nearLimit 800 s = true ∨ s.thm.clearAt.all (fun b => decide (s.now < b + 1000 * ms)) = true) :
    exec .gallopExit s = .next s := by
  refine if_neg fun hc => ?_
  simp only [Bool.and_eq_true, Bool.not_eq_true'] at hc
  obtain ⟨⟨⟨hup, -⟩, hclear⟩, hlast⟩ := hc
  rcases h with h | h | h
  · exact absurd (hup.symm.trans h) (by decide)
  · exact absurd (h.symm.trans hclear) (by decide)
  · exact absurd (hlast.symm.trans (not_stoodSecond_of h)) (by decide)

/-! ### The shutdown (R523, R524) -/

/-- The record that a shutdown latches. -/
def shutdownRecord (n : Fin 3) (temp : Fin 65536) (s : State) : State :=
  s |> setReg Reg.THM_SDTL (BitVec.ofNat 32 s.ft) |> setReg Reg.THM_SDTH (BitVec.ofNat 32 (s.ft / 2 ^ 32))
    |> incSat Reg.THM_SDINFO_SDCNT |> setB Reg.THM_SDINFO_UNSYNC (!bit Reg.CMS_STAT_TBLOCK s) |> setF Reg.THM_SDINFO_SENSOR n.val
    |> setF Reg.THM_SDINFO_TEMP temp.val

theorem Changes.shutdownRecord (n : Fin 3) (temp : Fin 65536) (s : State) :
    Changes [] (oneOf [Reg.THM_SDTL, Reg.THM_SDTH, Reg.THM_SDINFO]) s (shutdownRecord n temp s) :=
  ((((((Changes.setReg Reg.THM_SDTL _ s).trans (.setReg Reg.THM_SDTH _ _)).trans (.incSat Reg.THM_SDINFO_SDCNT _)).trans
    (.setB Reg.THM_SDINFO_UNSYNC _ _)).trans (.setF Reg.THM_SDINFO_SENSOR _ _)).trans (.setF Reg.THM_SDINFO_TEMP _ _)).mono (by simp)
    (fun a ha => by
      simp only [Reg.THM_SDINFO_SDCNT, Reg.THM_SDINFO_UNSYNC, Reg.THM_SDINFO_SENSOR, Reg.THM_SDINFO_TEMP] at ha
      simp only [oneOf, List.mem_cons, List.not_mem_nil, or_false]
      omega)

/-- The counter before the fields beside it are written. -/
theorem sdcnt_shutdownRecord (n : Fin 3) (temp : Fin 65536) (s : State) :
    getF Reg.THM_SDINFO_SDCNT (shutdownRecord n temp s) = min (getF Reg.THM_SDINFO_SDCNT s + 1) 255 := by
  have hinc (u : State) : getF Reg.THM_SDINFO_SDCNT (incSat Reg.THM_SDINFO_SDCNT u) = min (getF Reg.THM_SDINFO_SDCNT u + 1) 255 :=
    getF_incSat Reg.THM_SDINFO_SDCNT u (by decide)
  unfold shutdownRecord
  rw [getF_setF_beside _ _ _ _ (by decide) (by decide), getF_setF_beside _ _ _ _ (by decide) (by decide), setB,
    getF_setF_beside _ _ _ _ (by decide) (by decide), hinc, getF_of_reg (reg_setReg_other (by decide) _ _),
    getF_of_reg (reg_setReg_other (by decide) _ _)]

theorem unsync_shutdownRecord (n : Fin 3) (temp : Fin 65536) (s : State) :
    bit Reg.THM_SDINFO_UNSYNC (shutdownRecord n temp s) = !bit Reg.CMS_STAT_TBLOCK s := by
  unfold shutdownRecord
  rw [bit_setF_beside (by decide) (by decide), bit_setF_beside (by decide) (by decide), bit_setB_same (by decide) rfl]

theorem sensor_shutdownRecord (n : Fin 3) (temp : Fin 65536) (s : State) : getF Reg.THM_SDINFO_SENSOR (shutdownRecord n temp s) = n.val := by
  have hn : n.val < 2 ^ 2 := by omega
  unfold shutdownRecord
  rw [getF_setF_beside _ _ _ _ (by decide) (by decide), getF_setF_same _ _ _ (by decide)]
  exact Nat.mod_eq_of_lt hn

theorem temp_shutdownRecord (n : Fin 3) (temp : Fin 65536) (s : State) : getF Reg.THM_SDINFO_TEMP (shutdownRecord n temp s) = temp.val :=
  (getF_setF_same _ _ _ (by decide)).trans (Nat.mod_eq_of_lt temp.isLt)

theorem time_shutdownRecord (n : Fin 3) (temp : Fin 65536) {s : State} (hft : s.ft < 2 ^ 64) :
    (reg (shutdownRecord n temp s) Reg.THM_SDTH).toNat * 2 ^ 32 + (reg (shutdownRecord n temp s) Reg.THM_SDTL).toNat = s.ft := by
  have hinfo : Changes [] (· = Reg.THM_SDINFO) (setReg Reg.THM_SDTH (BitVec.ofNat 32 (s.ft / 2 ^ 32)) (setReg Reg.THM_SDTL (BitVec.ofNat 32 s.ft) s))
      (shutdownRecord n temp s) :=
    ((((Changes.incSat Reg.THM_SDINFO_SDCNT _).trans (.setB Reg.THM_SDINFO_UNSYNC _ _)).trans (.setF Reg.THM_SDINFO_SENSOR _ _)).trans
      (.setF Reg.THM_SDINFO_TEMP _ _)).mono (by simp)
      (by simp [Reg.THM_SDINFO_SDCNT, Reg.THM_SDINFO_UNSYNC, Reg.THM_SDINFO_SENSOR, Reg.THM_SDINFO_TEMP])
  have hlow : reg (shutdownRecord n temp s) Reg.THM_SDTL = BitVec.ofNat 32 s.ft :=
    (hinfo.reg_eq (by decide)).trans ((reg_setReg_other (by decide) _ _).trans (reg_setReg_same ..))
  have hhigh : reg (shutdownRecord n temp s) Reg.THM_SDTH = BitVec.ofNat 32 (s.ft / 2 ^ 32) := (hinfo.reg_eq (by decide)).trans (reg_setReg_same ..)
  rw [hlow, hhigh, BitVec.toNat_ofNat, BitVec.toNat_ofNat]
  omega

/-- What a shutdown holds in reset. -/
theorem reg_holdInReset {a : Nat} (ph : Phase) (s : State) (hp : a ≠ Reg.SYS_PWRSTAT) :
    reg (holdInReset ph s) a = if (rowAt a).any RegRow.aon then reg s a else resetOf a :=
  ((Changes.reportSupply _).reg_eq (by simpa [oneOf] using hp)).trans (get_keepAon s.regs a)

/-- R72: an always-on register. -/
theorem reg_holdInReset_kept {a : Nat} (ph : Phase) (s : State) (ha : (rowAt a).any RegRow.aon = true) : reg (holdInReset ph s) a = reg s a := by
  rw [reg_holdInReset ph s (fun hp => by rw [hp, aon_pwrstat] at ha; contradiction), if_pos ha]

theorem aon_flt_stk (j : Fin 4) : (rowAt (Reg.FLT_STK j)).any RegRow.aon = true := by fin_cases j <;> decide

theorem exec_thermalShutdown {n : Fin 3} {s : State} (temp : Fin 65536) (hup : coreUp s = true) (hcore : s.sys.phase ≠ .core)
    (hgood : dieFailed n s = false) : exec (.thermalShutdown n temp) s = .next (holdInReset .thermal (shutdownRecord n temp s)) := by
  have hgo : (coreUp s && s.sys.phase != .core && !dieFailed n.val s) = true := by
    rw [hup, bne_iff_ne.2 hcore, hgood]
    rfl
  exact if_pos hgo

theorem thermalShutdown_latched {n : Fin 3} {s : State} (temp : Fin 65536) (hup : coreUp s = true) (hcore : s.sys.phase ≠ .core)
    (hgood : dieFailed n s = false) (hft : s.ft < 2 ^ 64) : ∃ t, exec (.thermalShutdown n temp) s = .next t ∧
    t.sys.phase = .thermal ∧ (reg t Reg.THM_SDTH).toNat * 2 ^ 32 + (reg t Reg.THM_SDTL).toNat = s.ft ∧ getF Reg.THM_SDINFO_SENSOR t = n.val ∧
    getF Reg.THM_SDINFO_TEMP t = temp.val ∧ getF Reg.THM_SDINFO_SDCNT t = min (getF Reg.THM_SDINFO_SDCNT s + 1) 255 ∧
    bit Reg.THM_SDINFO_UNSYNC t = !bit Reg.CMS_STAT_TBLOCK s ∧ (∀ j : Fin 4, reg t (Reg.FLT_STK j) = reg s (Reg.FLT_STK j)) ∧
    getF Reg.CNV_STAT_STATE t = 0 ∧ getF Reg.CPB_BALSTAT_ON t = 0 ∧ t.lnk = LnkState.reset ∧ t.fab = FabState.reset ∧ t.cal.nvm = s.cal.nvm ∧
    t.pending = s.pending := by
  have hrec := Changes.shutdownRecord n temp s
  have hinfo : reg (holdInReset .thermal (shutdownRecord n temp s)) Reg.THM_SDINFO = reg (shutdownRecord n temp s) Reg.THM_SDINFO :=
    reg_holdInReset_kept _ _ (by decide)
  have hlow : reg (holdInReset .thermal (shutdownRecord n temp s)) Reg.THM_SDTL = reg (shutdownRecord n temp s) Reg.THM_SDTL :=
    reg_holdInReset_kept _ _ (by decide)
  have hhigh : reg (holdInReset .thermal (shutdownRecord n temp s)) Reg.THM_SDTH = reg (shutdownRecord n temp s) Reg.THM_SDTH :=
    reg_holdInReset_kept _ _ (by decide)
  refine ⟨_, exec_thermalShutdown temp hup hcore hgood, rfl, ?_, (getF_of_reg hinfo).trans (sensor_shutdownRecord ..),
    (getF_of_reg hinfo).trans (temp_shutdownRecord ..), (getF_of_reg hinfo).trans (sdcnt_shutdownRecord ..),
    (bit_of_reg hinfo).trans (unsync_shutdownRecord ..), fun j => ?_, ?_, ?_, rfl, rfl, rfl, rfl⟩
  · rw [hlow, hhigh]
    exact time_shutdownRecord n temp hft
  · refine (reg_holdInReset_kept _ _ (aon_flt_stk j)).trans (hrec.reg_other ?_)
    fin_cases j <;> decide
  · have hreg : reg (holdInReset .thermal (shutdownRecord n temp s)) Reg.CNV_STAT = resetOf Reg.CNV_STAT := by
      rw [reg_holdInReset _ _ (by decide), if_neg (by decide)]
    rw [getF, show Reg.CNV_STAT_STATE.addr = Reg.CNV_STAT from rfl, hreg]
    decide
  · have hreg : reg (holdInReset .thermal (shutdownRecord n temp s)) Reg.CPB_BALSTAT = resetOf Reg.CPB_BALSTAT := by
      rw [reg_holdInReset _ _ (by decide), if_neg (by decide)]
    rw [getF, show Reg.CPB_BALSTAT_ON.addr = Reg.CPB_BALSTAT from rfl, hreg]
    decide

theorem thermalShutdown_none {n : Fin 3} {s : State} (temp : Fin 65536) (h : coreUp s = false ∨ s.sys.phase = .core ∨ dieFailed n s = true) :
    exec (.thermalShutdown n temp) s = .next s := by
  refine if_neg fun hc => ?_
  simp only [Bool.and_eq_true, Bool.not_eq_true', bne_iff_ne] at hc
  obtain ⟨⟨hup, hcore⟩, hgood⟩ := hc
  rcases h with h | h | h
  · exact absurd (hup.symm.trans h) (by decide)
  · exact hcore h
  · exact absurd (h.symm.trans hgood) (by decide)

/-! ### The restart (R523 to R525, R617) -/

/-- What follows the reset of a restart: source 118 and the two entries of the log. -/
def restartLogged (s : State) : State :=
  logOccur 5 0xFF 0 { s with thm := { s.thm with restarted := true, logQ := [⟨(reg s Reg.THM_SDTH).toNat * 2 ^ 32 + (reg s Reg.THM_SDTL).toNat,
    bit Reg.THM_SDINFO_UNSYNC s, 4, getF Reg.THM_SDINFO_SENSOR s, getF Reg.THM_SDINFO_TEMP s⟩] } }

/-- The state after a restart's reset, before the log. -/
def restartReset (s : State) : State :=
  let s1 := deviceReset Reg.SYS_RSTCAUSE_THERM (if s.sys.rstnLow then .rstHeld else .rails) s
  if s.sys.rstnLow then setB Reg.SYS_RSTCAUSE_RSTN true s1 else s1

theorem exec_thermalRestart {s : State} (h : s.sys.phase = .thermal) : exec .thermalRestart s = .next (restartLogged (restartReset s)) := if_pos h

theorem Changes.restartLogged (s : State) : Changes [.thm] (oneOf [Reg.THM_LOGSTAT]) s (restartLogged s) :=
  ((Changes.withThm s _).trans (.logOccur 5 0xFF 0 _)).mono (by simp) (by simp)

theorem restartLogged_thm (s : State) : (restartLogged s).thm.restarted = true ∧ (restartLogged s).thm.logQ.map LogEntry.kind = [4, 5] := by
  refine ⟨?_, ?_⟩
  · unfold restartLogged logOccur
    rw [if_neg (fun h => h.2.1 rfl)]
  · rw [restartLogged, logOccur_restart]
    rfl

theorem isCause_therm : IsCause Reg.SYS_RSTCAUSE_THERM := by unfold IsCause; decide

theorem restartReset_kept (s : State) (a : Nat) (ha : (rowAt a).any RegRow.aon = true) (hc : a ≠ Reg.SYS_RSTCAUSE) :
    reg (restartReset s) a = reg s a := by
  have hreset := resetBy_deviceReset isCause_therm (if s.sys.rstnLow then .rstHeld else .rails) s
  unfold restartReset
  extract_lets s1
  split
  · exact (reg_setB_other hc true s1).trans (hreset.kept a ha hc)
  · exact hreset.kept a ha hc

theorem restartReset_caused (s : State) : bit Reg.SYS_RSTCAUSE_THERM (restartReset s) = true := by
  have hreset := resetBy_deviceReset isCause_therm (if s.sys.rstnLow then .rstHeld else .rails) s
  unfold restartReset
  extract_lets s1
  split
  · exact (bit_setB_beside (by decide) (by decide) true s1).trans hreset.caused
  · exact hreset.caused

theorem thermalRestart_restarted {s : State} (h : s.sys.phase = .thermal) : ∃ t, exec .thermalRestart s = .next t ∧ t = restartLogged (restartReset s) ∧
    bit Reg.SYS_RSTCAUSE_THERM t = true ∧ t.thm.restarted = true ∧ t.thm.logQ.map LogEntry.kind = [4, 5] ∧
    (∀ j : Fin 4, reg t (Reg.FLT_STK j) = reg s (Reg.FLT_STK j)) ∧ t.pending = s.pending := by
  have hlog := Changes.restartLogged (restartReset s)
  obtain ⟨hres, hq⟩ := restartLogged_thm (restartReset s)
  refine ⟨_, exec_thermalRestart h, rfl, (bit_of_reg (hlog.reg_eq (by unfold oneOf; decide))).trans (restartReset_caused s), hres, hq, fun j => ?_,
    pending_exec (exec_thermalRestart h)⟩
  have hout : ∀ j : Fin 4, Reg.FLT_STK j ∉ [Reg.THM_LOGSTAT] ∧ Reg.FLT_STK j ≠ Reg.SYS_RSTCAUSE := by decide
  exact (hlog.reg_other (hout j).1).trans (restartReset_kept s _ (aon_flt_stk j) (hout j).2)

/-! ### Samples with the core not up (R60, R65) -/

/-- What a die sensor's sample can move. -/
theorem Changes.takeDie (n : Nat) (v : Int) (ok : Bool) (s : State) :
    Changes [.thm] (oneOf [Reg.THM_STAT, Reg.THM_DIE n, Reg.THM_LOGSTAT]) s (takeDie n v ok s) := by
  unfold Machine.takeDie
  extract_lets out t o b g was fails s1 s2
  have h2 : Changes [.thm] (oneOf [Reg.THM_STAT, Reg.THM_DIE n, Reg.THM_LOGSTAT]) s s2 :=
    (((Changes.withThm s _).trans (.setB ⟨Reg.THM_STAT, 3 + n, 1⟩ fails _)).trans (.setF (Reg.THM_DIE_TEMP n) _ s1)).mono (by simp)
      (by simp [oneOf, Reg.THM_DIE_TEMP])
  refine .of_ite ((h2.trans (.logOccur 3 n 0x7FFF s2)).mono (by simp) (fun a ha => ?_)) h2
  simp only [oneOf, List.mem_cons, List.not_mem_nil, or_false] at ha ⊢
  omega

/-- The three die sensors' samples. -/
def takeDies (dies : List Int) (biasOk : List Bool) (s : State) : State :=
  (List.range 3).foldl (fun t n => takeDie n (nth dies n 0) (nth biasOk n true) t) s

theorem Changes.takeDies (dies : List Int) (biasOk : List Bool) (s : State) :
    Changes [.thm] (oneOf [Reg.THM_STAT, Reg.THM_DIE 0, Reg.THM_DIE 1, Reg.THM_DIE 2, Reg.THM_LOGSTAT]) s (takeDies dies biasOk s) :=
  (((Changes.takeDie 0 _ _ s).trans (.takeDie 1 _ _ _)).trans (.takeDie 2 _ _ _)).mono (by simp) (fun a ha => by
    simp only [oneOf, List.mem_cons, List.not_mem_nil, or_false] at ha ⊢
    omega)

/-- A further wake source joins a wake under way, or none. -/
theorem joinWake_cases (code : Nat) (s : State) : joinWake code s = s ∨ joinWake code s = recordWake code s := by
  unfold joinWake
  split
  · split
    · exact .inr rfl
    · exact .inl rfl
  · exact .inl rfl

theorem Changes.joinWake (code : Nat) (s : State) : Changes [.sys] (oneOf [Reg.SYS_PWRSTAT]) s (joinWake code s) := by
  rcases joinWake_cases code s with h | h
  · rw [h]
    exact .refl ..
  · rw [h]
    exact ((Changes.withSys s _).trans (.setF Reg.SYS_PWRSTAT_LASTWAKE _ _)).mono (by simp) (by simp [oneOf, Reg.SYS_PWRSTAT_LASTWAKE])

theorem sample_down {s : State} (dies : List Int) (biasOk : List Bool) (hup : coreUp s = false) (hs : s.sys.phase ≠ .sentinel) :
    ∃ t, exec (.temperatureSample dies biasOk) s = .next t ∧
    (s.sys.lastWake = none ∨ s.sys.wakeFrom = none → t = s) ∧ Changes [.sys] (oneOf [Reg.SYS_PWRSTAT]) s t := by
  have hnone (h : s.sys.lastWake = none ∨ s.sys.wakeFrom = none) : joinWake 5 s = s := by
    unfold joinWake
    split
    · next h1 h2 =>
      rcases h with h | h
      · exact absurd (h1.symm.trans h) (by simp)
      · exact absurd (h2.symm.trans h) (by simp)
    · rfl
  refine ⟨_, if_neg (by rw [hup, Bool.false_or, beq_iff_eq]; exact hs), fun h => ?_, ?_⟩
  · rw [hnone h, ite_self]
  · exact .of_ite (.joinWake 5 s) (.refl ..)

end Sys2Proof.Machine
end

