-- ==== Sys2Proof/Proofs/DieSamples.lean ====
section
/-!
PROOFS. What a sample of the die sensors shows, and what the later steps of a sample keep of it (R514 to R517, R520 to R522, R241).
-/
namespace Sys2Proof.Machine

/-! ### The sample of a die sensor (R514, R515) -/

/-- Whether a sample leaves a sensor failed. -/
def dieFails (n : Nat) (v : Int) (ok : Bool) (s : State) : Bool :=
  let out : Bool := v < -6000 || 20000 < v
  let o := if out then min (nth s.thm.outside n 0 + 1) 2 else 0
  let b := if ok then 0 else min (nth s.thm.biasBad n 0 + 1) 2
  let g := if out || !ok then 0 else min (nth s.thm.good n 0 + 1) 16
  if dieFailed n s then decide (g < 16) else o == 2 || b == 2

/-- The state before the log. -/
def dieShown (n : Nat) (v : Int) (ok : Bool) (s : State) : State :=
  let out : Bool := v < -6000 || 20000 < v
  let t := s.thm
  let o := if out then min (nth t.outside n 0 + 1) 2 else 0
  let b := if ok then 0 else min (nth t.biasBad n 0 + 1) 2
  let g := if out || !ok then 0 else min (nth t.good n 0 + 1) 16
  setF (Reg.THM_DIE_TEMP n) (if dieFails n v ok s then 0x7FFF else unsigned 16 (roundAway v 10))
    (setB ⟨Reg.THM_STAT, 3 + n, 1⟩ (dieFails n v ok s) { s with thm := { t with
      die := setNth t.die n v, outside := setNth t.outside n o, biasBad := setNth t.biasBad n b
      good := setNth t.good n (if dieFailed n s then g else 0) } })

theorem takeDie_eq (n : Nat) (v : Int) (ok : Bool) (s : State) : takeDie n v ok s =
    if dieFails n v ok s && !dieFailed n s then logOccur 3 n 0x7FFF (dieShown n v ok s) else dieShown n v ok s := rfl

/-- The log moves nothing else of the thermal monitor. -/
theorem takeDie_thm (n : Nat) (v : Int) (ok : Bool) (s : State) : ∃ o b g q l, (takeDie n v ok s).thm = { s.thm with
    die := setNth s.thm.die n v, outside := setNth s.thm.outside n o, biasBad := setNth s.thm.biasBad n b, good := setNth s.thm.good n g
    logQ := q, logLast := l } := by
  rw [takeDie_eq]
  split
  · obtain ⟨q, l, hthm⟩ := logOccur_thm 3 n 0x7FFF (dieShown n v ok s)
    rw [hthm]
    exact ⟨_, _, _, _, _, rfl⟩
  · exact ⟨_, _, _, _, _, rfl⟩

theorem reg_takeDie {a : Nat} (h : a ≠ Reg.THM_LOGSTAT) (n : Nat) (v : Int) (ok : Bool) (s : State) :
    reg (takeDie n v ok s) a = reg (dieShown n v ok s) a := by
  rw [takeDie_eq]
  split
  · exact (Changes.logOccur ..).reg_eq (by simpa [oneOf] using h)
  · rfl

theorem dieFailed_setB (n : Nat) {m : Nat} (hm : m < 3) (b : Bool) (s : State) :
    dieFailed m (setB ⟨Reg.THM_STAT, 3 + n, 1⟩ b s) = if m = n then b else dieFailed m s := by
  have hword : reg (setB ⟨Reg.THM_STAT, 3 + n, 1⟩ b s) Reg.THM_STAT = putBits (reg s Reg.THM_STAT) (3 + n) 1 (b2n b) := reg_setReg_same ..
  have hbit (u : State) : dieFailed m u = (reg u Reg.THM_STAT).getLsbD (3 + m) := by
    have hfield : dieFailed m u = (decide (m < 3) && (reg u Reg.THM_STAT).getLsbD (3 + m)) := testBit_getBits ..
    rw [hfield, decide_eq_true hm, Bool.true_and]
  rw [hbit, hword, getLsbD_putBits, hbit, decide_eq_true (show 3 + m < 32 by omega), Bool.true_and]
  by_cases h : m = n
  · subst h
    rw [if_pos rfl, if_pos (by omega), Nat.sub_self]
    cases b <;> rfl
  · rw [if_neg h, if_neg (by omega)]

theorem dieFailed_of_reg {s t : State} (h : reg t Reg.THM_STAT = reg s Reg.THM_STAT) (m : Nat) : dieFailed m t = dieFailed m s :=
  congrArg (Nat.testBit · m) (getF_of_reg (f := Reg.THM_STAT_FAIL) h)

theorem dieFailed_takeDie (n : Nat) {m : Nat} (hm : m < 3) (v : Int) (ok : Bool) (s : State) :
    dieFailed m (takeDie n v ok s) = if m = n then dieFails n v ok s else dieFailed m s := by
  have hdie : Reg.THM_STAT ≠ (Reg.THM_DIE_TEMP n).addr := by simp only [Reg.THM_STAT, Reg.THM_DIE_TEMP, Reg.THM_DIE]; omega
  rw [dieFailed_of_reg (reg_takeDie (by decide) n v ok s), dieShown, dieFailed_of_reg (reg_setF_other hdie _ _), dieFailed_setB n hm]
  rfl

/-- What a sensor shows after its sample. -/
def dieShows (n : Nat) (v : Int) (ok : Bool) (s : State) : Nat := if dieFails n v ok s then 0x7FFF else unsigned 16 (roundAway v 10)

theorem temp_takeDie {n : Nat} (hn : n < 3) (v : Int) (ok : Bool) (s : State) :
    getF (Reg.THM_DIE_TEMP n) (takeDie n v ok s) = dieShows n v ok s := by
  have hlog : (Reg.THM_DIE_TEMP n).addr ≠ Reg.THM_LOGSTAT := by simp only [Reg.THM_LOGSTAT, Reg.THM_DIE_TEMP, Reg.THM_DIE]; omega
  have hlt : dieShows n v ok s < 2 ^ 16 := by
    unfold dieShows unsigned
    split
    · decide
    · have := Int.emod_lt_of_pos (roundAway v 10) (show (0 : Int) < 2 ^ 16 by decide)
      have := Int.emod_nonneg (roundAway v 10) (show (2 : Int) ^ 16 ≠ 0 by decide)
      omega
  rw [getF_of_reg (reg_takeDie hlog n v ok s)]
  exact (getF_setF_same (Reg.THM_DIE_TEMP n) _ _ (by simp [Reg.THM_DIE_TEMP])).trans (Nat.mod_eq_of_lt hlt)

theorem temp_takeDie_other {n m : Nat} (h : m ≠ n) (hm : m < 3) (v : Int) (ok : Bool) (s : State) :
    getF (Reg.THM_DIE_TEMP m) (takeDie n v ok s) = getF (Reg.THM_DIE_TEMP m) s := by
  refine getF_of_reg ((Changes.takeDie n v ok s).reg_eq ?_)
  simp only [oneOf, Reg.THM_STAT, Reg.THM_LOGSTAT, Reg.THM_DIE_TEMP, Reg.THM_DIE, List.mem_cons, List.not_mem_nil, or_false]
  omega

/-- R514: a good sensor in its range, with its self-check passed. -/
theorem dieFails_good {n : Nat} {v : Int} {s : State} (hf : dieFailed n s = false) (hlo : -6000 ≤ v) (hhi : v ≤ 20000) : dieFails n v true s = false := by
  have hout : (decide (v < -6000) || decide (20000 < v)) = false := by
    rw [Bool.or_eq_false_iff, decide_eq_false_iff_not, decide_eq_false_iff_not]
    omega
  simp [dieFails, hf, hout]

/-- R514: a second self-check in a row that fails. -/
theorem dieFails_bias {n : Nat} {v : Int} {s : State} (hf : dieFailed n s = false) (hb : nth s.thm.biasBad n 0 = 1) : dieFails n v false s = true := by
  simp [dieFails, hf, hb]

/-! ### The three sensors of a sample -/

section
variable {a b c : Int} {oks : List Bool} {s : State}

theorem takeDies_eq (a b c : Int) (x y z : Bool) (s : State) :
    takeDies [a, b, c] [x, y, z] s = takeDie 2 c z (takeDie 1 b y (takeDie 0 a x s)) := rfl

/-- The readings as they are kept. -/
theorem die_takeDies (a b c : Int) (x y z : Bool) (s : State) : ∀ n < 3, nth (takeDies [a, b, c] [x, y, z] s).thm.die n 0 = nth [a, b, c] n 0 := by
  obtain ⟨o0, b0, g0, q0, l0, h0⟩ := takeDie_thm 0 a x s
  obtain ⟨o1, b1, g1, q1, l1, h1⟩ := takeDie_thm 1 b y (takeDie 0 a x s)
  obtain ⟨o2, b2, g2, q2, l2, h2⟩ := takeDie_thm 2 c z (takeDie 1 b y (takeDie 0 a x s))
  have hdie : (takeDies [a, b, c] [x, y, z] s).thm.die = setNth (setNth (setNth s.thm.die 0 a) 1 b) 2 c := by
    rw [takeDies_eq, h2, h1, h0]
  have hdef : (0 : Int) = default := rfl
  intro n hn
  rw [hdie, hdef]
  have hcase : n = 0 ∨ n = 1 ∨ n = 2 := by omega
  rcases hcase with rfl | rfl | rfl
  · rw [nth_setNth_default _ (by decide), nth_setNth_default _ (by decide), nth_setNth_same]
    rfl
  · rw [nth_setNth_default _ (by decide), nth_setNth_same]
    rfl
  · rw [nth_setNth_same]
    rfl

/-- What the thermal monitor keeps beside the readings. -/
theorem differAt_takeDies (a b c : Int) (x y z : Bool) (s : State) :
    (takeDies [a, b, c] [x, y, z] s).thm.differAt = s.thm.differAt ∧ (takeDies [a, b, c] [x, y, z] s).thm.first = s.thm.first := by
  obtain ⟨o0, b0, g0, q0, l0, h0⟩ := takeDie_thm 0 a x s
  obtain ⟨o1, b1, g1, q1, l1, h1⟩ := takeDie_thm 1 b y (takeDie 0 a x s)
  obtain ⟨o2, b2, g2, q2, l2, h2⟩ := takeDie_thm 2 c z (takeDie 1 b y (takeDie 0 a x s))
  rw [takeDies_eq, h2, h1, h0]
  exact ⟨rfl, rfl⟩

end

/-- A reading in the sensors' range. -/
def InRange (v : Int) : Prop := -6000 ≤ v ∧ v ≤ 20000

/-- Three good sensors. -/
structure DiesGood (a b c : Int) (t : State) : Prop where
  failed : ∀ n < 3, dieFailed n t = false
  temp0 : getF (Reg.THM_DIE_TEMP 0) t = unsigned 16 (roundAway a 10)
  temp1 : getF (Reg.THM_DIE_TEMP 1) t = unsigned 16 (roundAway b 10)
  temp2 : getF (Reg.THM_DIE_TEMP 2) t = unsigned 16 (roundAway c 10)

theorem diesGood_takeDies {a b c : Int} {s : State} (hf : ∀ n < 3, dieFailed n s = false) (ha : InRange a) (hb : InRange b) (hc : InRange c) :
    DiesGood a b c (takeDies [a, b, c] [true, true, true] s) := by
  have f0 : dieFails 0 a true s = false := dieFails_good (hf 0 (by decide)) ha.1 ha.2
  have h1 : dieFailed 1 (takeDie 0 a true s) = false := (dieFailed_takeDie 0 (by decide) a true s).trans (hf 1 (by decide))
  have f1 : dieFails 1 b true (takeDie 0 a true s) = false := dieFails_good h1 hb.1 hb.2
  have h2 : dieFailed 2 (takeDie 1 b true (takeDie 0 a true s)) = false :=
    (dieFailed_takeDie 1 (by decide) b true _).trans ((dieFailed_takeDie 0 (by decide) a true s).trans (hf 2 (by decide)))
  have f2 : dieFails 2 c true (takeDie 1 b true (takeDie 0 a true s)) = false := dieFails_good h2 hc.1 hc.2
  rw [takeDies_eq]
  refine ⟨fun n hn => ?_, ?_, ?_, ?_⟩
  · rw [dieFailed_takeDie 2 hn, dieFailed_takeDie 1 hn, dieFailed_takeDie 0 hn, f0, f1, f2, hf n hn, ite_self, ite_self, ite_self]
  · rw [temp_takeDie_other (by decide) (by decide), temp_takeDie_other (by decide) (by decide), temp_takeDie (by decide), dieShows, f0]
    rfl
  · rw [temp_takeDie_other (by decide) (by decide), temp_takeDie (by decide), dieShows, f1]
    rfl
  · rw [temp_takeDie (by decide), dieShows, f2]
    rfl

/-- The middle sensor fails. -/
structure DieLost (a c : Int) (t : State) : Prop where
  failed : dieFailed 1 t = true
  temp0 : getF (Reg.THM_DIE_TEMP 0) t = unsigned 16 (roundAway a 10)
  temp1 : getF (Reg.THM_DIE_TEMP 1) t = 0x7FFF
  temp2 : getF (Reg.THM_DIE_TEMP 2) t = unsigned 16 (roundAway c 10)

theorem dieLost_takeDies {a b c : Int} {s : State} (hf : ∀ n < 3, dieFailed n s = false) (ha : InRange a) (hc : InRange c)
    (hbias : nth s.thm.biasBad 1 0 = 1) : DieLost a c (takeDies [a, b, c] [true, false, true] s) := by
  have f0 : dieFails 0 a true s = false := dieFails_good (hf 0 (by decide)) ha.1 ha.2
  have h1 : dieFailed 1 (takeDie 0 a true s) = false := (dieFailed_takeDie 0 (by decide) a true s).trans (hf 1 (by decide))
  have hbias' : nth (takeDie 0 a true s).thm.biasBad 1 0 = 1 := by
    obtain ⟨o, b, g, q, l, h⟩ := takeDie_thm 0 a true s
    have hdef : (0 : Nat) = default := rfl
    rw [h, hdef, nth_setNth_default _ (by decide), ← hdef]
    exact hbias
  have f1 : dieFails 1 b false (takeDie 0 a true s) = true := dieFails_bias h1 hbias'
  have h2 : dieFailed 2 (takeDie 1 b false (takeDie 0 a true s)) = false :=
    (dieFailed_takeDie 1 (by decide) b false _).trans ((dieFailed_takeDie 0 (by decide) a true s).trans (hf 2 (by decide)))
  have f2 : dieFails 2 c true (takeDie 1 b false (takeDie 0 a true s)) = false := dieFails_good h2 hc.1 hc.2
  rw [takeDies_eq]
  refine ⟨?_, ?_, ?_, ?_⟩
  · rw [dieFailed_takeDie 2 (by decide), if_neg (by decide), dieFailed_takeDie 1 (by decide), if_pos rfl, f1]
  · rw [temp_takeDie_other (by decide) (by decide), temp_takeDie_other (by decide) (by decide), temp_takeDie (by decide), dieShows, f0]
    rfl
  · rw [temp_takeDie_other (by decide) (by decide), temp_takeDie (by decide), dieShows, f1]
    rfl
  · rw [temp_takeDie (by decide), dieShows, f2]
    rfl

/-! ### The hottest sensor and the band (R517, R521) -/

theorem roundAway_bounds {v : Int} (h : InRange v) : -600 ≤ roundAway v 10 ∧ roundAway v 10 ≤ 2000 := by
  obtain ⟨hlo, hhi⟩ := h
  unfold roundAway
  split
  · omega
  · omega

theorem signed_unsigned {v : Int} (hlo : -32768 ≤ v) (hhi : v < 32768) : signed 16 (unsigned 16 v) = v := by
  unfold signed unsigned
  split
  · omega
  · omega

/-- The band that the first sample sets (R521). -/
def bandFirst (hot : Int) : Nat := if 7000 ≤ hot then 3 else if 4500 ≤ hot then 2 else if -1000 ≤ hot then 1 else 0

theorem dieGood_of {s : State} (h : ∀ n < 3, dieFailed n s = false) : dieGood s = [(0, nth s.thm.die 0 0), (1, nth s.thm.die 1 0), (2, nth s.thm.die 2 0)] := by
  have hfilter : (List.range 3).filter (fun n => !dieFailed n s) = [0, 1, 2] := by
    rw [List.filter_eq_self.2 fun n hn => by rw [h n (List.mem_range.1 hn)]; rfl]
    rfl
  rw [dieGood, hfilter]
  rfl

/-- What the sensors of a sample show. -/
def shown (s : State) : State := setBand (reportHot s)

/-- A band in force. -/
def noteBand (b : Nat) (s : State) : State := { s with lnk := { s.lnk with band := bandOf b }, thm := { s.thm with first := false } }

theorem Changes.noteBand (b : Nat) (s : State) : Changes [.lnk, .thm] (fun _ => False) s (noteBand b s) :=
  ((Changes.withLnk s { s.lnk with band := bandOf b }).trans (.withThm _ { s.thm with first := false })).mono (by simp) (by simp)

theorem shown_eq (s : State) : ∃ b, shown s = setF Reg.THM_STAT_BAND b (noteBand b (reportHot s)) := ⟨_, rfl⟩

/-- Only HOT and BAND of `THM_STAT` move. -/
theorem Changes.shown (s : State) : Changes [.lnk, .thm] (· = Reg.THM_STAT) s (shown s) := by
  obtain ⟨b, hb⟩ := shown_eq s
  have hhot : Changes [] (· = Reg.THM_STAT) s (reportHot s) := .setF Reg.THM_STAT_HOT _ s
  have hband : Changes [] (· = Reg.THM_STAT) (Machine.noteBand b (reportHot s)) (Machine.shown s) := hb ▸ .setF Reg.THM_STAT_BAND b _
  exact ((hhot.trans (.noteBand b _)).trans hband).mono (by simp) (by simp)

theorem thm_shown (s : State) : (shown s).thm = { s.thm with first := false } := by
  obtain ⟨b, hb⟩ := shown_eq s
  rw [hb]
  rfl

/-- A field of `THM_STAT` between BAND and HOT. -/
theorem getF_shown {f : Field} (hlo : 2 ≤ f.lo) (hhi : f.lo + f.w ≤ 16) (s : State) : getF f (shown s) = getF f s := by
  obtain ⟨b, hb⟩ := shown_eq s
  have hhot : getF f (reportHot s) = getF f s := getF_setF_beside Reg.THM_STAT_HOT f _ s (.inl hhi) (by omega)
  rw [hb]
  exact (getF_setF_beside Reg.THM_STAT_BAND f b _ (.inr hlo) (by omega)).trans hhot

theorem dieFailed_shown (n : Nat) (s : State) : dieFailed n (shown s) = dieFailed n s :=
  congrArg (Nat.testBit · n) (getF_shown (f := Reg.THM_STAT_FAIL) (by decide) (by decide) s)

/-- `THM_STAT.HOT` of three readings that fit. -/
theorem hot_shown {x y z : Int} {s : State} (hx : signed 16 (getF (Reg.THM_DIE_TEMP 0) s) = x) (hy : signed 16 (getF (Reg.THM_DIE_TEMP 1) s) = y)
    (hz : signed 16 (getF (Reg.THM_DIE_TEMP 2) s) = z) : getF Reg.THM_STAT_HOT (shown s) = unsigned 16 (max x (max y z)) := by
  have hlt : unsigned 16 (max x (max y z)) < 2 ^ 16 := by
    unfold unsigned
    omega
  obtain ⟨b, hb⟩ := shown_eq s
  rw [hb, getF_setF_beside _ _ _ _ (by decide) (by decide)]
  have hhot : getF Reg.THM_STAT_HOT (reportHot s) = unsigned 16 (max x (max y z)) := by
    unfold reportHot
    extract_lets v
    have hv : max (v 0) (max (v 1) (v 2)) = max x (max y z) := by simp only [v, hx, hy, hz]
    rw [hv, getF_setF_same _ _ _ (by decide)]
    exact Nat.mod_eq_of_lt hlt
  exact hhot

theorem band_shown {a b c : Int} {s : State} (hgood : ∀ n < 3, dieFailed n s = false) (hdie : ∀ n < 3, nth s.thm.die n 0 = nth [a, b, c] n 0)
    (hfirst : s.thm.first = true) : getF Reg.THM_STAT_BAND (shown s) = bandFirst (max a (max b c)) := by
  have hlt : bandFirst (max a (max b c)) < 2 ^ 2 := by
    unfold bandFirst
    split_ifs <;> decide
  have hfails (n : Nat) : dieFailed n (reportHot s) = dieFailed n s :=
    congrArg (Nat.testBit · n) (getF_setF_beside Reg.THM_STAT_HOT Reg.THM_STAT_FAIL _ s (by decide) (by decide))
  have hlist : dieGood (reportHot s) = [(0, a), (1, b), (2, c)] := by
    rw [dieGood_of fun n hn => (hfails n).trans (hgood n hn)]
    have h0 : nth (reportHot s).thm.die 0 0 = a := hdie 0 (by decide)
    have h1 : nth (reportHot s).thm.die 1 0 = b := hdie 1 (by decide)
    have h2 : nth (reportHot s).thm.die 2 0 = c := hdie 2 (by decide)
    rw [h0, h1, h2]
  have hfirst' : (reportHot s).thm.first = true := hfirst
  have hmax : max (max a b) c = max a (max b c) := max_assoc ..
  unfold shown setBand
  rw [hlist]
  simp only [List.foldl_cons, List.foldl_nil, hfirst', if_true, hmax]
  exact (getF_setF_same _ _ _ (by decide)).trans (Nat.mod_eq_of_lt hlt)


/-! ### What follows the sensors of a sample (R516, R517, R520, R522, R241) -/

/-- The registers of the die sensors and of the warning. -/
def dieRegs : List Nat := [Reg.THM_DIE 0, Reg.THM_DIE 1, Reg.THM_DIE 2, Reg.THM_CFG]

/-- What later steps of a sample keep of its sensors: what they show, the band, and every line from 84 up but those in a list, which may end. -/
structure Aftermath (ks : List Nat) (s t : State) : Prop where
  regs : ∀ a ∈ dieRegs, reg t a = reg s a
  fail : getF Reg.THM_STAT_FAIL t = getF Reg.THM_STAT_FAIL s
  hot : getF Reg.THM_STAT_HOT t = getF Reg.THM_STAT_HOT s
  band : getF Reg.THM_STAT_BAND t = getF Reg.THM_STAT_BAND s
  die : t.thm.die = s.thm.die
  differ : t.thm.differAt = s.thm.differAt
  now : t.now = s.now
  sys : t.sys = s.sys
  lines : ∀ k, k ∉ ks → k ∈ s.flt.lines → k ∈ t.flt.lines

theorem Aftermath.refl (ks : List Nat) (s : State) : Aftermath ks s s := ⟨fun _ _ => rfl, rfl, rfl, rfl, rfl, rfl, rfl, rfl, fun _ _ => id⟩

theorem Aftermath.trans {ks ks' : List Nat} {s t u : State} (h : Aftermath ks s t) (h' : Aftermath ks' t u) : Aftermath (ks ++ ks') s u :=
  ⟨fun a ha => (h'.regs a ha).trans (h.regs a ha), h'.fail.trans h.fail, h'.hot.trans h.hot, h'.band.trans h.band, h'.die.trans h.die,
    h'.differ.trans h.differ, h'.now.trans h.now, h'.sys.trans h.sys, fun k hk hin => h'.lines k (fun h0 => hk (List.mem_append_right _ h0))
      (h.lines k (fun h0 => hk (List.mem_append_left _ h0)) hin)⟩

theorem Aftermath.mono {ks ks' : List Nat} {s t : State} (h : Aftermath ks s t) (hk : ks ⊆ ks') : Aftermath ks' s t :=
  { h with lines := fun k hout => h.lines k fun hin => hout (hk hin) }

theorem Aftermath.of_ite {ks : List Nat} {c : Prop} [Decidable c] {s t u : State} (ht : Aftermath ks s t) (hu : Aftermath ks s u) :
    Aftermath ks s (if c then t else u) := by
  split
  · exact ht
  · exact hu

theorem Aftermath.foldl_mem {α : Type} {ks : List Nat} (f : State → α → State) (l : List α) (h : ∀ t, ∀ x ∈ l, Aftermath ks t (f t x)) (s : State) :
    Aftermath ks s (l.foldl f s) := by
  induction l generalizing s with
  | nil => exact .refl ..
  | cons x rest ih =>
    exact ((h s x List.mem_cons_self).trans (ih (fun t y hy => h t y (List.mem_cons_of_mem _ hy)) _)).mono (by simp)

/-- Steps that change neither the sensors' registers nor the power state. -/
theorem Aftermath.of_changes {ks : List Nat} {ps : List Part} {rs : Nat → Prop} {s t : State} (h : Changes ps rs s t)
    (hps : ∀ p ∈ ps, p ≠ .now ∧ p ≠ .sys) (hrs : ∀ a ∈ Reg.THM_STAT :: dieRegs, ¬ rs a) (hdie : t.thm.die = s.thm.die)
    (hdiffer : t.thm.differAt = s.thm.differAt) (hlines : ∀ k, k ∉ ks → k ∈ s.flt.lines → k ∈ t.flt.lines) : Aftermath ks s t := by
  have hstat : reg t Reg.THM_STAT = reg s Reg.THM_STAT := h.reg_eq (hrs _ List.mem_cons_self)
  exact ⟨fun a ha => h.reg_eq (hrs a (List.mem_cons_of_mem _ ha)), getF_of_reg hstat, getF_of_reg hstat, getF_of_reg hstat, hdie, hdiffer,
    h.part_eq .now (fun hin => (hps _ hin).1 rfl), h.part_eq .sys (fun hin => (hps _ hin).2 rfl), hlines⟩

theorem Aftermath.logOccur (kind sensor temp : Nat) (s : State) : Aftermath [] s (logOccur kind sensor temp s) := by
  have hchg := Changes.logOccur kind sensor temp s
  obtain ⟨q, l, hthm⟩ := logOccur_thm kind sensor temp s
  refine .of_changes hchg (by simp) (by unfold oneOf; decide) (by rw [hthm]) (by rw [hthm]) (fun k _ hin => ?_)
  rw [hchg.part_eq .flt (by simp)]
  exact hin

/-- The words of `FLT_ACT` are none of the sensors' registers. -/
theorem flt_act_not_die {src : Nat} (h : src < 128) : ∀ a ∈ Reg.THM_STAT :: dieRegs, ¬ a = Reg.FLT_ACT (src / 32) := by
  have hlt : src / 32 < 4 := by omega
  have hout : ∀ i < 4, ∀ a ∈ Reg.THM_STAT :: dieRegs, ¬ a = Reg.FLT_ACT i := by decide
  exact hout _ hlt

theorem Aftermath.follow {src : Nat} (h : src < 128) (b : Bool) (s : State) : Aftermath [src] s (follow src b s) := by
  have hchg := Changes.follow src b s
  have hthm : (Machine.follow src b s).thm = s.thm := hchg.part_eq .thm (by simp)
  exact .of_changes hchg (by simp) (flt_act_not_die h) (by rw [hthm]) (by rw [hthm])
    (fun k hk hin => (mem_lines_follow_other (fun heq => hk (by rw [heq]; exact List.mem_singleton_self _)) b s).2 hin)

/-- The warnings of the sensors. -/
def warnStep (t : State) (n : Nat) : State :=
  let v := dieSeen n t
  let was := nth t.thm.warned n false
  let is : Bool := if was then decide (warnLimit t - 300 ≤ v) else decide (warnLimit t ≤ v)
  let t1 := follow (112 + n) is { t with thm := { t.thm with warned := setNth t.thm.warned n is } }
  if is && !was then logOccur 1 n (getF (Reg.THM_DIE_TEMP n) t) t1 else t1

theorem dieWarnings_eq (s : State) : dieWarnings s = warnStep (warnStep (warnStep s 0) 1) 2 := rfl

theorem Aftermath.withWarned (s : State) (w : List Bool) : Aftermath [] s { s with thm := { s.thm with warned := w } } :=
  .of_changes (.withThm s _) (by simp) (by simp) rfl rfl (fun _ _ => id)

theorem Aftermath.warnStep {n : Nat} (h : n < 3) (s : State) : Aftermath [112 + n] s (warnStep s n) := by
  unfold Machine.warnStep
  extract_lets v was is thm1 t1
  have h1 : Aftermath [112 + n] s t1 := (Aftermath.withWarned s _).trans (.follow (by omega) is _)
  exact .of_ite ((h1.trans (.logOccur ..)).mono (by simp)) h1

/-- R522: a sensor at its warning makes its source active. -/
theorem warned_warnStep {n : Nat} (h : n < 3) {s : State} (hw : warnLimit s ≤ dieSeen n s) : 112 + n ∈ (warnStep s n).flt.lines := by
  unfold warnStep
  extract_lets v was is thm1 t1
  have his : is = true := by
    have hw' : warnLimit s ≤ v := hw
    simp only [is]
    split
    · exact decide_eq_true (by omega)
    · exact decide_eq_true hw'
  have h1 : 112 + n ∈ t1.flt.lines := by
    simp only [t1, his, follow, if_true]
    exact mem_lines_raise (by omega) _
  split
  · exact (Aftermath.logOccur ..).lines _ (by simp) h1
  · exact h1

theorem Aftermath.dieWarnings (s : State) : Aftermath [112, 113, 114] s (dieWarnings s) := by
  rw [dieWarnings_eq]
  exact ((Aftermath.warnStep (n := 0) (by decide) s).trans (.warnStep (n := 1) (by decide) _)).trans (.warnStep (n := 2) (by decide) _)

/-- A sensor's reading and its limit are those of the sample. -/
theorem Aftermath.dieSeen {ks : List Nat} {s t : State} (h : Aftermath ks s t) (n : Nat) : dieSeen n t = dieSeen n s := by
  rw [Machine.dieSeen, dieFailed, h.fail, h.die, Machine.dieSeen, dieFailed]

theorem Aftermath.warnLimit {ks : List Nat} {s t : State} (h : Aftermath ks s t) : warnLimit t = warnLimit s := by
  have hcfg : getF Reg.THM_CFG_WARN t = getF Reg.THM_CFG_WARN s := getF_of_reg (h.regs Reg.THM_CFG (by unfold dieRegs; decide))
  rw [Machine.warnLimit, hcfg, Machine.warnLimit]

theorem warned_dieWarnings {n : Nat} (h : n < 3) {s : State} (hw : warnLimit s ≤ dieSeen n s) : 112 + n ∈ (dieWarnings s).flt.lines := by
  have h0 := Aftermath.warnStep (n := 0) (by decide) s
  have h1 := h0.trans (Aftermath.warnStep (n := 1) (by decide) (warnStep s 0))
  have h2 (t : State) := Aftermath.warnStep (n := 2) (by decide) t
  rw [dieWarnings_eq]
  have hcase : n = 0 ∨ n = 1 ∨ n = 2 := by omega
  rcases hcase with rfl | rfl | rfl
  · exact (h2 _).lines _ (by decide) ((Aftermath.warnStep (n := 1) (by decide) _).lines _ (by decide) (warned_warnStep (by decide) hw))
  · exact (h2 _).lines _ (by decide) (warned_warnStep (by decide) (by rw [h0.warnLimit, h0.dieSeen]; exact hw))
  · exact warned_warnStep (by decide) (by rw [h1.warnLimit, h1.dieSeen]; exact hw)

/-! ### Thermistors -/

/-- The registers of the thermistors are none of the die sensors'. -/
theorem ntc_not_die {k : Nat} (h : k < 16) : ∀ a ∈ Reg.THM_STAT :: dieRegs, ¬ (a = Reg.THM_NTC k) := by
  have hout : ∀ i < 16, ∀ a ∈ Reg.THM_STAT :: dieRegs, ¬ a = Reg.THM_NTC i := by decide
  exact hout k h

theorem Aftermath.setNtc {f : Field} {k : Nat} (h : k < 16) (hf : f.addr = Reg.THM_NTC k) (v : Nat) (s : State) : Aftermath [] s (setF f v s) :=
  .of_changes (.setF f v s) (by simp) (fun a ha => by rw [hf]; exact ntc_not_die h a ha) rfl rfl (fun _ _ => id)

theorem Aftermath.useFree (s : State) : Aftermath [] s (useFree s) := .of_changes (.useFree s) (by simp) (by simp) rfl rfl (fun _ _ => id)

theorem Aftermath.takeNtc {k : Nat} (h : k < 16) (s : State) : Aftermath [] s (takeNtc k s) := by
  have hfail (v : Nat) (t : State) : Aftermath [] t (setF (Reg.THM_NTC_FAIL k) v t) := .setNtc h rfl v t
  have htemp (v : Nat) (t : State) : Aftermath [] t (setF (Reg.THM_NTC_TEMP k) v t) := .setNtc h rfl v t
  unfold Machine.takeNtc
  extract_lets w v was s1
  split
  · exact .refl ..
  · split
    · have h1 : Aftermath [] s s1 := (hfail 1 s).trans (htemp _ _)
      exact .of_ite h1 (h1.trans (.logOccur ..))
    · split
      · exact (hfail 0 s).trans (htemp _ _)
      · exact ((Aftermath.useFree s).trans (hfail 0 _)).trans (htemp _ _)

theorem Aftermath.ntcLimits (s : State) : Aftermath [115] s (ntcLimits s) := by
  have hbeyond (w : BitVec 32) : Aftermath [] s { s with thm := { s.thm with beyond := w } } :=
    .of_changes (.withThm s _) (by simp) (by simp) rfl rfl (fun _ _ => id)
  unfold Machine.ntcLimits
  extract_lets old is new thm1 s1
  have h1 : Aftermath [115] s s1 := (hbeyond new).trans (.follow (by decide) _ _)
  exact (h1.trans (.foldl_mem (ks := []) _ _ (fun t k _ => .logOccur ..) s1)).mono (by simp)

/-! ### The bleed switches and gallop -/

theorem Changes.switchFault (s : State) : Changes [.flt, .fab] (· = Reg.CPB_EVT) s (switchFault s) :=
  ((Changes.pulse 70 s).trans (.setEvt .cpb 8 _)).mono (by simp) (by simp [EvtBlock.evt])

theorem lines_switchFault (s : State) : (switchFault s).flt.lines = s.flt.lines := by
  have hevt : (switchFault s).flt = (pulse 70 s).flt := (Changes.setEvt .cpb 8 _).part_eq .flt (by simp)
  rw [hevt, pulse_lines]

theorem Changes.bleedThermal (ts0 : Int) (s : State) :
    Changes [.cpb, .cms, .xck, .imp, .flt, .fab] (oneOf [Reg.CPB_BALSTAT, Reg.CPB_EVT]) s (bleedThermal ts0 s) := by
  unfold Machine.bleedThermal
  extract_lets tlim s1 s2 cpb1
  have h1 : Changes [] (oneOf [Reg.CPB_BALSTAT]) s s1 :=
    .of_ite ((Changes.setB Reg.CPB_BALSTAT_THROT true s).mono (by simp) (by simp [oneOf, Reg.CPB_BALSTAT_THROT])) (.refl ..)
  have h2 : Changes [.cms, .xck, .imp, .flt, .fab] (oneOf [Reg.CPB_BALSTAT, Reg.CPB_EVT]) s s2 := by
    refine .of_ite ?_ (h1.mono (by simp) (by simp [oneOf]))
    refine (((h1.trans (.setB Reg.CPB_BALSTAT_TOFF true s1)).trans (.switchFault _)).trans (.enforceSwitches _)).mono (by simp) (fun a ha => ?_)
    simp only [Reg.CPB_BALSTAT_TOFF, oneOf, List.mem_cons, List.not_mem_nil, or_false] at ha ⊢
    omega
  have h3 : Changes [.cpb, .cms, .xck, .imp, .flt, .fab] (oneOf [Reg.CPB_BALSTAT, Reg.CPB_EVT]) s s2 := h2.mono (by simp) (fun _ => id)
  refine .of_ite h3 ((h2.trans (Changes.withCpb s2 _)).mono (by simp) (by simp))

theorem lines_bleedThermal (ts0 : Int) (s : State) : (bleedThermal ts0 s).flt.lines = s.flt.lines := by
  unfold bleedThermal
  extract_lets tlim s1 s2 cpb1
  have h1 : s1.flt.lines = s.flt.lines := by
    simp only [s1]
    split <;> rfl
  have h2 : s2.flt.lines = s.flt.lines := by
    simp only [s2]
    split
    · rw [(Changes.enforceSwitches _).part_eq .flt (by simp), lines_switchFault]
      exact h1
    · exact h1
  split
  · exact h2
  · exact h2

theorem Aftermath.bleedThermal (ts0 : Int) (s : State) : Aftermath [] s (bleedThermal ts0 s) := by
  have hchg := Changes.bleedThermal ts0 s
  have hthm : (Machine.bleedThermal ts0 s).thm = s.thm := hchg.part_eq .thm (by simp)
  exact .of_changes hchg (by simp) (by unfold oneOf; decide) (by rw [hthm]) (by rw [hthm]) (fun k _ hin => by rw [lines_bleedThermal]; exact hin)

theorem Aftermath.setGallop (b : Bool) (s : State) : Aftermath [] s (setB Reg.THM_STAT_GALLOP b s) := by
  have hbeside {f : Field} (h : f.lo + f.w ≤ 6 ∨ 7 ≤ f.lo) (hw : f.lo + f.w ≤ 32) : getF f (setB Reg.THM_STAT_GALLOP b s) = getF f s :=
    getF_setF_beside Reg.THM_STAT_GALLOP f _ s h hw
  have hout : ∀ a ∈ dieRegs, a ≠ Reg.THM_STAT := by unfold dieRegs; decide
  exact ⟨fun a ha => reg_setB_other (hout a ha) _ _, hbeside (by decide) (by decide), hbeside (by decide) (by decide),
    hbeside (by decide) (by decide), rfl, rfl, rfl, rfl, fun _ _ => id⟩

theorem Aftermath.raise {src : Nat} (s : State) : Aftermath [] s (raise src s) := by
  have hchg := Changes.raise src s
  have hthm : (Machine.raise src s).thm = s.thm := hchg.part_eq .thm (by simp)
  refine .of_changes hchg (by simp) (by simp) (by rw [hthm]) (by rw [hthm]) (fun k _ hin => ?_)
  by_cases h : k = src
  · subst h
    unfold Machine.raise
    rw [if_pos ((natMem_iff _ _).2 hin)]
    exact hin
  · exact (mem_lines_raise_other h s).2 hin

theorem Aftermath.drop {src : Nat} (h : src < 128) (s : State) : Aftermath [src] s (drop src s) := .follow h false s

theorem Aftermath.enterGallop (s : State) : Aftermath [119] s (enterGallop s) := by
  unfold Machine.enterGallop
  split
  · exact .of_ite ((Aftermath.setGallop false s).trans (.drop (by decide) _)) (.refl ..)
  · refine .of_ite ?_ (.refl ..)
    exact (((Aftermath.setGallop true s).trans (.raise _)).trans (.logOccur ..)).mono (by simp)

end Sys2Proof.Machine
end

