-- ==== Sys2Proof/Proofs/ThermalEvents.lean ====
section
/-!
PROOFS. Temperature samples with the core up and in SENTINEL, and the thermal events (R60, R65, R514 to R525).
-/
namespace Sys2Proof.Machine

/-! ### The end of a sample (R60, R65, R518, R520) -/

theorem dieGood_eq {s t : State} (hf : getF Reg.THM_STAT_FAIL t = getF Reg.THM_STAT_FAIL s) (hd : t.thm.die = s.thm.die) : dieGood t = dieGood s := by
  have hfail (n : Nat) : dieFailed n t = dieFailed n s := congrArg (Nat.testBit · n) hf
  simp only [dieGood, hfail, hd]

theorem diesDiffer_eq {s t : State} (hf : getF Reg.THM_STAT_FAIL t = getF Reg.THM_STAT_FAIL s) (hd : t.thm.die = s.thm.die) :
    diesDiffer t = diesDiffer s := by rw [diesDiffer, dieGood_eq hf hd, diesDiffer]

/-- With the core up a wake moves the power state and LASTWAKE alone. -/
theorem Changes.wakeBy_coreUp {s : State} (hup : coreUp s = true) (code : Nat) : Changes [.sys] (oneOf [Reg.SYS_PWRSTAT]) s (wakeBy code s) := by
  have hrecord (st : LowState) (y : SysState) : Changes [.sys] (oneOf [Reg.SYS_PWRSTAT]) s (recordWakeFrom st code { s with sys := y }) :=
    ((Changes.withSys s y).trans (recordWakeFrom_clause st code _).2).mono (by simp) (by simp)
  have habort (st : LowState) (y : SysState) : Changes [.sys] (oneOf [Reg.SYS_PWRSTAT]) s (abandonEntry st code { s with sys := y }) :=
    (((Changes.withSys s y).trans ((Changes.withSys _ _).trans (.setB Reg.SYS_PWRSTAT_ABORT true _))).trans
      (recordWakeFrom_clause st code _).2).mono (by simp) (by simp [oneOf, Reg.SYS_PWRSTAT_ABORT])
  have hjoin := Changes.joinWake code s
  unfold wakeBy
  split
  case h_1 hp | h_2 hp => simp [coreUp, hp] at hup
  case h_3 =>
    split
    · exact .of_ite (hrecord .standby _) (.refl ..)
    · exact .of_ite (habort _ _) (.refl ..)
  case h_4 | h_5 | h_6 =>
    split
    · exact .of_ite (habort _ s.sys) (.refl ..)
    · exact hjoin
  case h_7 => exact hjoin

/-- The limits of a sample. -/
def sampleLimits (u : State) : State :=
  if u.sys.phase = .active then ntcLimits ((List.range 16).foldl (fun t k => takeNtc k t) (dieWarnings u)) else dieWarnings u

/-- The sensors that have failed, the bleed switches and gallop. -/
def sampleFollows (w : State) : State :=
  enterGallop (bleedThermal (dieSeen 0 w)
    (follow 116 (getF Reg.THM_STAT_FAIL w != 0 || (List.range 16).any (fun k => ntcOn k w && ntcFailed k w)) w))

/-- The end of a disagreement. -/
def sampleAgrees (v : State) : State := if v.thm.disagree && !diesDiffer v then drop 117 { v with thm := { v.thm with disagree := false } } else v

/-- What a sample leaves with the core up, before its wake. -/
def sampled (u : State) : State := sampleAgrees (noteSpans (sampleFollows (sampleLimits u)))

/-- What a sample leaves in SENTINEL and with the core up: the wake of a sensor at its warning. -/
def sampleWakes (z : State) : State := if (List.range 3).any (fun n => warnLimit z ≤ dieSeen n z) then wakeBy 5 z else z

theorem phase_takeDies (dies : List Int) (oks : List Bool) (s : State) : (shown (takeDies dies oks s)).sys.phase = s.sys.phase := by
  rw [(Changes.shown _).part_eq .sys (by simp), (Changes.takeDies dies oks s).part_eq .sys (by simp)]

theorem exec_sample_up {s : State} (hup : coreUp s = true) (dies : List Int) (oks : List Bool) :
    exec (.temperatureSample dies oks) s = .next (sampleWakes (sampled (shown (takeDies dies oks s)))) := by
  have hsent : s.sys.phase ≠ .sentinel := fun h => by simp [coreUp, h] at hup
  have hgo : exec (.temperatureSample dies oks) s = _ := if_pos (by rw [hup, Bool.true_or])
  rw [hgo, if_neg hsent, sampled, sampleLimits, phase_takeDies]
  rfl

theorem Aftermath.sampleLimits (u : State) : Aftermath [115] (Machine.dieWarnings u) (sampleLimits u) := by
  have hntc : Aftermath [] (Machine.dieWarnings u) ((List.range 16).foldl (fun t k => Machine.takeNtc k t) (Machine.dieWarnings u)) :=
    .foldl_mem _ _ (fun t k hk => .takeNtc (List.mem_range.1 hk) t) _
  exact .of_ite (hntc.trans (.ntcLimits _)) (.refl ..)

theorem Aftermath.sampleFollows (w : State) : Aftermath [116, 119] w (sampleFollows w) :=
  ((Aftermath.follow (src := 116) (by decide) _ w).trans (.bleedThermal _ _)).trans (.enterGallop _)

/-- R515: a sensor that has failed makes source 116 active. -/
theorem failed_sampleFollows {w : State} (h : getF Reg.THM_STAT_FAIL w ≠ 0) : 116 ∈ (sampleFollows w).flt.lines := by
  refine (Aftermath.enterGallop _).lines _ (by simp) ((Aftermath.bleedThermal _ _).lines _ (by simp) ?_)
  rw [bne_iff_ne.2 h, Bool.true_or]
  exact mem_lines_raise (by decide) _

theorem Aftermath.sampleAgrees (v : State) : Aftermath [117] v (sampleAgrees v) := by
  have hagree : Aftermath [] v { v with thm := { v.thm with disagree := false } } := .of_changes (.withThm v _) (by simp) (by simp) rfl rfl (fun _ _ => id)
  exact .of_ite (hagree.trans (.drop (by decide) _)) (.refl ..)

/-- What a sample shows at its end, from what its sensors show. -/
structure SampleEnd (u t : State) : Prop where
  regs : ∀ a ∈ dieRegs, reg t a = reg u a
  fail : getF Reg.THM_STAT_FAIL t = getF Reg.THM_STAT_FAIL u
  hot : getF Reg.THM_STAT_HOT t = getF Reg.THM_STAT_HOT u
  band : getF Reg.THM_STAT_BAND t = getF Reg.THM_STAT_BAND u
  differ : t.thm.differAt = if diesDiffer u then u.thm.differAt.or (some u.now) else none
  warned : ∀ n < 3, warnLimit u ≤ dieSeen n u → 112 + n ∈ t.flt.lines
  failed : getF Reg.THM_STAT_FAIL u ≠ 0 → 116 ∈ t.flt.lines

theorem sampleEnd_sampled (u : State) : SampleEnd u (sampled u) := by
  have hw := Aftermath.dieWarnings u
  have hl := Aftermath.sampleLimits u
  have hf := Aftermath.sampleFollows (sampleLimits u)
  have hv := (hw.trans hl).trans hf
  have ha := Aftermath.sampleAgrees (noteSpans (sampleFollows (sampleLimits u)))
  have hdiffer : diesDiffer (sampleFollows (sampleLimits u)) = diesDiffer u := diesDiffer_eq hv.fail hv.die
  refine ⟨fun a h => (ha.regs a h).trans (hv.regs a h), ha.fail.trans hv.fail, ha.hot.trans hv.hot, ha.band.trans hv.band, ?_, fun n hn hlim => ?_,
    fun h => ?_⟩
  · refine ha.differ.trans ?_
    rw [← hdiffer, ← hv.differ, ← hv.now]
    rfl
  · refine ha.lines _ (by simp; omega) (hf.lines _ (by simp; omega) (hl.lines _ (by simp; omega) (warned_dieWarnings hn hlim)))
  · refine ha.lines _ (by simp) (failed_sampleFollows ?_)
    rw [hl.fail, hw.fail]
    exact h

theorem SampleEnd.wakes {u z : State} (h : SampleEnd u z) (hup : coreUp z = true) : SampleEnd u (sampleWakes z) := by
  have hchg : Changes [.sys] (oneOf [Reg.SYS_PWRSTAT]) z (sampleWakes z) := .of_ite (.wakeBy_coreUp hup 5) (.refl ..)
  have hstat : reg (sampleWakes z) Reg.THM_STAT = reg z Reg.THM_STAT := hchg.reg_eq (by unfold oneOf; decide)
  have hout : ∀ a ∈ dieRegs, a ∉ [Reg.SYS_PWRSTAT] := by unfold dieRegs; decide
  refine ⟨fun a ha => (hchg.reg_eq (hout a ha)).trans (h.regs a ha), (getF_of_reg hstat).trans h.fail, (getF_of_reg hstat).trans h.hot,
    (getF_of_reg hstat).trans h.band, ?_, fun n hn hlim => ?_, fun hf => ?_⟩
  · rw [hchg.part_eq .thm (by simp)]
    exact h.differ
  · rw [hchg.part_eq .flt (by simp)]
    exact h.warned n hn hlim
  · rw [hchg.part_eq .flt (by simp)]
    exact h.failed hf

theorem sample_up {s : State} (hup : coreUp s = true) (dies : List Int) (oks : List Bool) :
    ∃ t, exec (.temperatureSample dies oks) s = .next t ∧ SampleEnd (shown (takeDies dies oks s)) t := by
  refine ⟨_, exec_sample_up hup dies oks, (sampleEnd_sampled _).wakes ?_⟩
  have hsys : (sampled (shown (takeDies dies oks s))).sys = s.sys := by
    have hu := ((Aftermath.dieWarnings (shown (takeDies dies oks s))).trans (.sampleLimits _)).trans (.sampleFollows _)
    rw [sampled, (Aftermath.sampleAgrees _).sys]
    refine hu.sys.trans ?_
    rw [(Changes.shown _).part_eq .sys (by simp), (Changes.takeDies dies oks s).part_eq .sys (by simp)]
  unfold coreUp
  rw [hsys]
  exact hup

/-! ### Samples that the sensors pass, and one that a sensor fails -/

theorem dieFailed_of_zero {s : State} (h : getF Reg.THM_STAT_FAIL s = 0) (n : Nat) : dieFailed n s = false := by
  rw [dieFailed, h, Nat.zero_testBit]

theorem failed_zero {s : State} (h : ∀ n < 3, dieFailed n s = false) : getF Reg.THM_STAT_FAIL s = 0 := by
  refine Nat.eq_of_testBit_eq fun i => ?_
  rw [Nat.zero_testBit]
  have hlt : getF Reg.THM_STAT_FAIL s < 2 ^ 3 := Nat.mod_lt _ (by decide)
  by_cases hi : i < 3
  · exact h i hi
  · exact Nat.testBit_lt_two_pow (Nat.lt_of_lt_of_le hlt (Nat.pow_le_pow_right (by decide) (by omega)))

theorem failed_ne_zero {s : State} {n : Nat} (h : dieFailed n s = true) : getF Reg.THM_STAT_FAIL s ≠ 0 := fun h0 =>
  absurd (h.symm.trans (dieFailed_of_zero h0 n)) (by decide)

theorem temp_shown (n : Nat) (s : State) : getF (Reg.THM_DIE_TEMP n) (shown s) = getF (Reg.THM_DIE_TEMP n) s :=
  getF_of_reg ((Changes.shown s).reg_eq (by simp only [Reg.THM_DIE_TEMP, Reg.THM_DIE, Reg.THM_STAT]; omega))

/-- R518 over three good sensors. -/
theorem diesDiffer_iff {u : State} {a b c : Int} (h : dieGood u = [(0, a), (1, b), (2, c)]) :
    diesDiffer u = decide (3000 < max a (max b c) - min a (min b c)) := by
  rw [Bool.eq_iff_iff, diesDiffer, h]
  simp only [List.any_cons, List.any_nil, Bool.or_false, Bool.or_eq_true, decide_eq_true_eq]
  omega

section
variable {a b c : Int} {s : State}

theorem inRange_of (h : -6000 ≤ a ∧ a ≤ 20000 ∧ -6000 ≤ b ∧ b ≤ 20000 ∧ -6000 ≤ c ∧ c ≤ 20000) : InRange a ∧ InRange b ∧ InRange c := by
  obtain ⟨h1, h2, h3, h4, h5, h6⟩ := h
  exact ⟨⟨h1, h2⟩, ⟨h3, h4⟩, ⟨h5, h6⟩⟩

/-- A reading as its register shows it. -/
theorem signed_reading (h : InRange a) : signed 16 (unsigned 16 (roundAway a 10)) = roundAway a 10 := by
  obtain ⟨hlo, hhi⟩ := roundAway_bounds h
  exact signed_unsigned (by omega) (by omega)

theorem warnLimit_shown (d : List Int) (oks : List Bool) : warnLimit (shown (takeDies d oks s)) = 100 * (getF Reg.THM_CFG_WARN s : Int) := by
  have h1 : reg (shown (takeDies d oks s)) Reg.THM_CFG = reg (takeDies d oks s) Reg.THM_CFG := (Changes.shown _).reg_eq (by decide)
  have h2 : reg (takeDies d oks s) Reg.THM_CFG = reg s Reg.THM_CFG := (Changes.takeDies d oks s).reg_eq (by unfold oneOf; decide)
  rw [warnLimit, getF_of_reg (f := Reg.THM_CFG_WARN) (h1.trans h2)]

theorem dieSeen_shown {n : Nat} (hn : n < 3) (x y z : Bool) (hf : dieFailed n (takeDies [a, b, c] [x, y, z] s) = false) :
    dieSeen n (shown (takeDies [a, b, c] [x, y, z] s)) = nth [a, b, c] n 0 := by
  have hf' : dieFailed n (shown (takeDies [a, b, c] [x, y, z] s)) = false := (dieFailed_shown n _).trans hf
  have hdie : (shown (takeDies [a, b, c] [x, y, z] s)).thm.die = (takeDies [a, b, c] [x, y, z] s).thm.die := by rw [thm_shown]
  rw [dieSeen, hf', hdie]
  exact die_takeDies a b c x y z s n hn

theorem die_regs (n : Fin 3) : Reg.THM_DIE n ∈ dieRegs := by revert n; unfold dieRegs; decide

/-- R514, R517, R518, R521: what a sample with three good sensors shows. -/
theorem sample_good (hup : coreUp s = true) (hf : getF Reg.THM_STAT_FAIL s = 0) (hin : InRange a ∧ InRange b ∧ InRange c) :
    ∃ t, exec (.temperatureSample [a, b, c] [true, true, true]) s = .next t ∧
    SampleEnd (shown (takeDies [a, b, c] [true, true, true] s)) t ∧ DiesGood a b c (takeDies [a, b, c] [true, true, true] s) := by
  obtain ⟨ha, hb, hc⟩ := hin
  obtain ⟨t, hnext, hend⟩ := sample_up hup [a, b, c] [true, true, true]
  exact ⟨t, hnext, hend, diesGood_takeDies (fun n _ => dieFailed_of_zero hf n) ha hb hc⟩

theorem sample_shows (hup : coreUp s = true) (hf : getF Reg.THM_STAT_FAIL s = 0) (hin : InRange a ∧ InRange b ∧ InRange c) (hfirst : s.thm.first = true) :
    ∃ t, exec (.temperatureSample [a, b, c] [true, true, true]) s = .next t ∧
    getF (Reg.THM_DIE_TEMP 0) t = unsigned 16 (roundAway a 10) ∧ getF (Reg.THM_DIE_TEMP 1) t = unsigned 16 (roundAway b 10) ∧
    getF (Reg.THM_DIE_TEMP 2) t = unsigned 16 (roundAway c 10) ∧ getF Reg.THM_STAT_FAIL t = 0 ∧
    getF Reg.THM_STAT_HOT t = unsigned 16 (max (roundAway a 10) (max (roundAway b 10) (roundAway c 10))) ∧
    getF Reg.THM_STAT_BAND t = bandFirst (max a (max b c)) ∧
    t.thm.differAt = (if 3000 < max a (max b c) - min a (min b c) then s.thm.differAt.or (some s.now) else none) ∧ t.pending = s.pending := by
  obtain ⟨ha, hb, hc⟩ := hin
  obtain ⟨t, hnext, hend, hgood⟩ := sample_good hup hf ⟨ha, hb, hc⟩
  obtain ⟨hdiffer, hfirst'⟩ := differAt_takeDies a b c true true true s
  have htemp (n : Fin 3) : getF (Reg.THM_DIE_TEMP n) t = getF (Reg.THM_DIE_TEMP n) (takeDies [a, b, c] [true, true, true] s) :=
    (getF_of_reg (f := Reg.THM_DIE_TEMP n) (hend.regs _ (die_regs n))).trans (temp_shown ..)
  have hfail : ∀ n < 3, dieFailed n (shown (takeDies [a, b, c] [true, true, true] s)) = false :=
    fun n hn => (dieFailed_shown n _).trans (hgood.failed n hn)
  have hdie := die_takeDies a b c true true true s
  have hlist : dieGood (shown (takeDies [a, b, c] [true, true, true] s)) = [(0, a), (1, b), (2, c)] := by
    rw [dieGood_of hfail, thm_shown]
    simp only [hdie 0 (by decide), hdie 1 (by decide), hdie 2 (by decide)]
    rfl
  have hnow : (shown (takeDies [a, b, c] [true, true, true] s)).now = s.now := by
    rw [(Changes.shown _).part_eq .now (by simp), (Changes.takeDies _ _ s).part_eq .now (by simp)]
  refine ⟨t, hnext, (htemp 0).trans hgood.temp0, (htemp 1).trans hgood.temp1, (htemp 2).trans hgood.temp2,
    hend.fail.trans (failed_zero hfail), ?_, ?_, ?_, pending_exec hnext⟩
  · exact hend.hot.trans (hot_shown (by rw [hgood.temp0, signed_reading ha]) (by rw [hgood.temp1, signed_reading hb])
      (by rw [hgood.temp2, signed_reading hc]))
  · exact hend.band.trans (band_shown hgood.failed hdie (hfirst'.trans hfirst))
  · rw [hend.differ, diesDiffer_iff hlist, hnow, thm_shown, ← hdiffer]
    simp only [decide_eq_true_eq]

/-- R522: the first sensor at its warning. -/
theorem sample_warns (hup : coreUp s = true) (hf : getF Reg.THM_STAT_FAIL s = 0) (hin : InRange a ∧ InRange b ∧ InRange c)
    (hw : 100 * (getF Reg.THM_CFG_WARN s : Int) ≤ a) :
    ∃ t, exec (.temperatureSample [a, b, c] [true, true, true]) s = .next t ∧ 112 ∈ t.flt.lines ∧ t.pending = s.pending := by
  obtain ⟨t, hnext, hend, hgood⟩ := sample_good hup hf hin
  refine ⟨t, hnext, hend.warned 0 (by decide) ?_, pending_exec hnext⟩
  rw [warnLimit_shown, dieSeen_shown (by decide) _ _ _ (hgood.failed 0 (by decide))]
  exact hw

/-- R515: a sensor whose self-check fails for the second time. -/
theorem sample_fails (hup : coreUp s = true) (hf : getF Reg.THM_STAT_FAIL s = 0) (hin : InRange a ∧ InRange b ∧ InRange c) (hbias : nth s.thm.biasBad 1 0 = 1) :
    ∃ t, exec (.temperatureSample [a, b, c] [true, false, true]) s = .next t ∧
    getF (Reg.THM_DIE_TEMP 1) t = 0x7FFF ∧ getF Reg.THM_STAT_HOT t = 0x7FFF ∧ dieFailed 1 t = true ∧ 113 ∈ t.flt.lines ∧ 116 ∈ t.flt.lines ∧
    t.pending = s.pending := by
  obtain ⟨ha, -, hc⟩ := hin
  obtain ⟨t, hnext, hend⟩ := sample_up hup [a, b, c] [true, false, true]
  have hlost : DieLost a c (takeDies [a, b, c] [true, false, true] s) := dieLost_takeDies (fun n _ => dieFailed_of_zero hf n) ha hc hbias
  have hfail : dieFailed 1 (shown (takeDies [a, b, c] [true, false, true] s)) = true := (dieFailed_shown 1 _).trans hlost.failed
  have hlim : warnLimit (shown (takeDies [a, b, c] [true, false, true] s)) ≤ dieSeen 1 (shown (takeDies [a, b, c] [true, false, true] s)) := by
    have hlt : getF Reg.THM_CFG_WARN s < 2 ^ 8 := Nat.mod_lt _ (by decide)
    rw [warnLimit_shown, dieSeen, hfail, if_pos rfl]
    omega
  have hhot : getF Reg.THM_STAT_HOT (shown (takeDies [a, b, c] [true, false, true] s)) = 0x7FFF := by
    obtain ⟨-, ha'⟩ := roundAway_bounds ha
    obtain ⟨-, hc'⟩ := roundAway_bounds hc
    rw [hot_shown (by rw [hlost.temp0, signed_reading ha]) (by rw [hlost.temp1]) (by rw [hlost.temp2, signed_reading hc])]
    have hmax : max (roundAway a 10) (max (signed 16 0x7FFF) (roundAway c 10)) = 0x7FFF := by
      have hsig : signed 16 0x7FFF = 0x7FFF := by decide
      omega
    rw [hmax]
    decide
  refine ⟨t, hnext, ?_, hend.hot.trans hhot, (congrArg (Nat.testBit · 1) hend.fail).trans hfail, hend.warned 1 (by decide) hlim,
    hend.failed (failed_ne_zero hfail), pending_exec hnext⟩
  exact (getF_of_reg (f := Reg.THM_DIE_TEMP 1) (hend.regs _ (die_regs 1))).trans ((temp_shown 1 _).trans hlost.temp1)

/-! ### The wake from SENTINEL (R60, R65) -/

theorem lastWake_sentinel {u : State} (hp : u.sys.phase = .sentinel) {code : Nat} (hw : wakeSourceOf .sentinel code u = true) (hn : u.sys.lastWake = none)
    (hc : code < 16) : getF Reg.SYS_PWRSTAT_LASTWAKE (wakeBy code u) = code := by
  have hnext : wakeBy code u = recordWakeFrom .sentinel code (selectLeg (deviceReset Reg.SYS_RSTCAUSE_SENTEXIT .waitLeg (noteNextTrips u))) := by
    simp [wakeBy, hp, hw]
  have hnone : (selectLeg (deviceReset Reg.SYS_RSTCAUSE_SENTEXIT .waitLeg (noteNextTrips u))).sys.lastWake = none := by
    rw [selectLeg_coreDown rfl]
    exact hn
  rw [hnext, recordWakeFrom, recordWake]
  simp only [hnone]
  exact (getF_setF_same _ _ _ (by decide)).trans (Nat.mod_eq_of_lt hc)

theorem sample_sentinel (hs : s.sys.phase = .sentinel) (hw : 100 * (getF Reg.THM_CFG_WARN s : Int) ≤ a)
    (hth : bit Reg.SYS_PWRCFG_THWAKE s = true) (hn : s.sys.lastWake = none) :
    ∃ t, exec (.temperatureSample [a, b, c] [true, true, true]) s = .next t ∧ t.sys.phase ∈ [.waitLeg, .softStart] ∧
    getF Reg.SYS_PWRSTAT_LASTWAKE t = 5 ∧ t.pending = s.pending := by
  have hchg := Changes.takeDies [a, b, c] [true, true, true] s
  have hsys : (takeDies [a, b, c] [true, true, true] s).sys = s.sys := hchg.part_eq .sys (by simp)
  have hwake : wakeSourceOf .sentinel 5 (takeDies [a, b, c] [true, true, true] s) = true :=
    (bit_of_reg (f := Reg.SYS_PWRCFG_THWAKE) (hchg.reg_eq (by unfold oneOf; decide))).trans hth
  have hphase : (takeDies [a, b, c] [true, true, true] s).sys.phase = .sentinel := by rw [hsys, hs]
  have hlim : warnLimit (takeDies [a, b, c] [true, true, true] s) ≤ dieSeen 0 (takeDies [a, b, c] [true, true, true] s) := by
    have hcfg : getF Reg.THM_CFG_WARN (takeDies [a, b, c] [true, true, true] s) = getF Reg.THM_CFG_WARN s :=
      getF_of_reg (hchg.reg_eq (by unfold oneOf; decide))
    have hlt : getF Reg.THM_CFG_WARN s < 2 ^ 8 := Nat.mod_lt _ (by decide)
    have hdie : nth (takeDies [a, b, c] [true, true, true] s).thm.die 0 0 = a := die_takeDies a b c true true true s 0 (by decide)
    rw [warnLimit, hcfg, dieSeen, hdie]
    split
    · omega
    · exact hw
  have hnext : exec (.temperatureSample [a, b, c] [true, true, true]) s = .next (wakeBy 5 (takeDies [a, b, c] [true, true, true] s)) := by
    have hgo : exec (.temperatureSample [a, b, c] [true, true, true]) s = _ := if_pos (by rw [hs, beq_self_eq_true, Bool.or_true])
    have hany : (List.range 3).any (fun n => decide (warnLimit (takeDies [a, b, c] [true, true, true] s) ≤
        dieSeen n (takeDies [a, b, c] [true, true, true] s))) = true :=
      List.any_eq_true.2 ⟨0, by decide, decide_eq_true hlim⟩
    rw [hgo, if_pos hs]
    exact congrArg Host.Outcome.next (if_pos hany)
  obtain ⟨hph, -⟩ := wakeBy_sentinel hphase hwake
  refine ⟨_, hnext, ?_, lastWake_sentinel hphase hwake (by rw [hsys]; exact hn) (by decide), pending_exec hnext⟩
  simpa using hph

end

/-! ### The state that a restart leads to (R523, R617) -/

theorem sys_restartLogged (s : State) : (restartLogged s).sys = s.sys := (Changes.restartLogged s).part_eq .sys (by simp)

theorem restartReset_rails {s : State} (h : s.sys.rstnLow = false) : (restartReset s).sys.phase = .rails := by
  unfold restartReset
  rw [h]
  rfl

/-- With RSTN low the core stays in reset, and RSTCAUSE holds both causes. -/
theorem restartReset_held {s : State} (h : s.sys.rstnLow = true) :
    (restartReset s).sys.phase = .rstHeld ∧ bit Reg.SYS_RSTCAUSE_RSTN (restartReset s) = true := by
  unfold restartReset
  rw [h]
  exact ⟨rfl, bit_setB_same (by decide) rfl true _⟩

theorem thermalRestart_none {s : State} (h : s.sys.phase ≠ .thermal) : exec .thermalRestart s = .next s := if_neg h

/-- Settles O51: a sample with the core up is cut into the three sensors, what they show, and steps that keep what the sensors show
(`Aftermath`); the shutdown and the restart follow from what a hold in reset and a reset keep. -/
theorem thermalEvents : Obligations.ThermalEvents := by
  unfold Obligations.ThermalEvents
  intro s rest inside lasted restarted
  refine ⟨fun a b c hrest hin hfirst => sample_shows hrest.1 hrest.2 (inRange_of hin) hfirst,
    fun a b c hrest hin hw => sample_warns hrest.1 hrest.2 (inRange_of hin) hw,
    fun a b c hrest hin hbias => sample_fails hrest.1 hrest.2 (inRange_of hin) hbias,
    fun hup hd hnew hlast => sensorDisagree_raised hup hd hnew hlast, fun hup hg hclear hlast => gallopExit_left hup hg hclear hlast,
    fun n temp hup hcore hgood hft => thermalShutdown_latched temp hup hcore hgood hft, fun h hlow => ?_, fun h hlow => ?_,
    fun a b c hs _ hw hth hn => sample_sentinel hs hw hth hn, fun d b hup hs => sample_down d b hup hs,
    fun n temp => ⟨sensorDisagree_idle, gallopExit_idle, thermalShutdown_none temp, thermalRestart_none⟩⟩
  · obtain ⟨t, hnext, rfl, hrestarted⟩ := thermalRestart_restarted h
    refine ⟨_, hnext, ?_, hrestarted⟩
    rw [sys_restartLogged]
    exact restartReset_rails hlow
  · obtain ⟨t, hnext, rfl, hrestarted⟩ := thermalRestart_restarted h
    obtain ⟨hphase, hcause⟩ := restartReset_held hlow
    refine ⟨_, hnext, ?_, ?_, hrestarted⟩
    · rw [sys_restartLogged]
      exact hphase
    · exact (bit_of_reg ((Changes.restartLogged _).reg_eq (by unfold oneOf; decide))).trans hcause

end Sys2Proof.Machine
end

