-- ==== Sys2Proof/Proofs/HeadView.lean ====
section
/-!
PROOFS. What the operations behind a reaction leave alone of the collector's own fields (R492 to R502, R511), and what the reactions move of them: one
lemma for each function of the model, in the order in which they call each other.
-/
namespace Sys2Proof.Machine

/-! ## The head view -/

/-- Fields that the fault collector shows of its own, and what it reads of other blocks: LAST and SAFE of FLT_STAT, the number of the next ALARM, the
fences of the impedance engine and the converter, LEGACY and DEGR; and in the wide view also FENCED, the bleed switches that are on and the converter's state. -/
def headFields (wide : Bool) : List Field :=
  [Reg.FLT_STAT_LAST, Reg.FLT_STAT_SAFE, Reg.FLT_ALCNT_ASEQ, Reg.FLT_FENCE0_IMP, Reg.FLT_FENCE0_CNV, Reg.LNK_STAT_LEGACY,
    Reg.CNV_STAT_DEGR] ++ if wide then [Reg.FLT_STAT_FENCED, Reg.CPB_BALSTAT_ON, Reg.CNV_STAT_STATE] else []

/-- Their registers. -/
def headRegs : List Nat := [Reg.FLT_STAT, Reg.FLT_ALCNT, Reg.FLT_FENCE0, Reg.LNK_STAT, Reg.CNV_STAT, Reg.CPB_BALSTAT]

/-- What the operations behind a reaction leave alone: those fields, the generation of the host interface, the condition lines and the rail errors. -/
structure HeadView where
  fields : List Nat
  spi : Nat
  lines : List Nat
  railErr : List Nat

def headView (wide : Bool) (s : State) : HeadView := ⟨(headFields wide).map (getF · s), s.hst.spi, s.flt.lines, s.flt.railErr⟩

section
variable {w : Bool} {s t : State} (h : headView w t = headView w s)
include h

theorem getF_of_headView {f : Field} (hf : f ∈ headFields w) : getF f t = getF f s := by
  have hfields : (headFields w).map (getF · t) = (headFields w).map (getF · s) := congrArg HeadView.fields h
  exact List.map_inj_left.1 hfields f hf
theorem bit_of_headView {f : Field} (hf : f ∈ headFields w) : bit f t = bit f s := by rw [bit, getF_of_headView h hf, bit]
theorem spi_of_headView : t.hst.spi = s.hst.spi := congrArg HeadView.spi h
theorem lines_of_headView : t.flt.lines = s.flt.lines := congrArg HeadView.lines h
theorem railErr_of_headView : t.flt.railErr = s.flt.railErr := congrArg HeadView.railErr h

end

/-- Two fields with no bit in common. -/
def besides (f g : Field) : Bool := f.addr != g.addr || decide (g.lo + g.w ≤ f.lo) || decide (f.lo + f.w ≤ g.lo)

/-- A field beside those of the view. -/
def spares (wide : Bool) (f : Field) : Bool := (headFields wide).all (besides f)

theorem headFields_fit (wide : Bool) : ∀ g ∈ headFields wide, g.lo + g.w ≤ 32 ∧ g.addr ∈ headRegs := by cases wide <;> decide

theorem getF_setF_besides {f g : Field} (h : besides f g = true) (hg : g.lo + g.w ≤ 32) (v : Nat) (s : State) : getF g (setF f v s) = getF g s := by
  simp only [besides, Bool.or_eq_true, bne_iff_ne, decide_eq_true_eq, or_assoc] at h
  rcases h with h | h
  · exact getF_setF_other _ _ _ _ h.symm
  · exact getF_setF_beside f g v s h hg

theorem spares_wide {f : Field} (h : spares true f = true) (w : Bool) : spares w f = true := by
  rw [spares, List.all_eq_true] at h ⊢
  refine fun g hg => h g ?_
  cases w with
  | true => exact hg
  | false => exact List.mem_append_left _ hg

theorem not_headRegs {a : Nat} (h : a ≠ 0x6000 ∧ a ≠ 0x6018 ∧ a ≠ 0x6008 ∧ a ≠ 0x4004 ∧ a ≠ 0x3008 ∧ a ≠ 0x2828) : a ∉ headRegs := by
  simpa [headRegs, Reg.FLT_STAT, Reg.FLT_ALCNT, Reg.FLT_FENCE0, Reg.LNK_STAT, Reg.CNV_STAT, Reg.CPB_BALSTAT] using h

theorem spares_out {f : Field} (h : f.addr ∉ headRegs) : spares true f = true := by
  rw [spares, List.all_eq_true]
  intro g hg
  have hne : f.addr ≠ g.addr := fun e => h (e ▸ (headFields_fit true g hg).2)
  rw [besides, bne_iff_ne.2 hne, Bool.true_or, Bool.true_or]

/-! ### Updates of a state -/

/-- A field beside those of the narrow view. -/
theorem headView_narrow {w : Bool} {f : Field} (h : spares w f = true) (v : Nat) (s : State) : headView w (setF f v s) = headView w s := by
  have hfields : (headFields w).map (getF · (setF f v s)) = (headFields w).map (getF · s) := by
    refine List.map_congr_left fun g hg => getF_setF_besides ?_ (headFields_fit w g hg).1 v s
    rw [spares, List.all_eq_true] at h
    exact h g hg
  simp only [headView, hfields]
  rfl

theorem headView_narrowB {w : Bool} {f : Field} (h : spares w f = true) (b : Bool) (s : State) : headView w (setB f b s) = headView w s :=
  headView_narrow h _ s

section
variable {w : Bool}

/-- Every part but the register file, the host interface and the fault collector. -/
theorem headView_parts (s : State) (now ft free : Nat) (resp : Option Resp) (pins : Pins) (sys : SysState) (cms : CmsState) (xck : XckState)
    (imp : ImpState) (cpb : CpbState) (lnk : LnkState) (fab : FabState) (cnv : CnvState) (ctl : CtlState) (tbs : TbsState) (cal : CalState)
    (thm : ThmState) (bst : BstState) (pending : List Instr) :
    headView w { s with
      now := now, ft := ft, free := free, resp := resp, pins := pins, sys := sys, cms := cms, xck := xck, imp := imp, cpb := cpb, lnk := lnk
      fab := fab, cnv := cnv, ctl := ctl, tbs := tbs, cal := cal, thm := thm, bst := bst, pending := pending } = headView w s := (rfl)

/-- The rest of the fault collector. -/
theorem headView_flt (s : State) (waiting : List Nat) (react : List (Nat × Nat)) (counts : List (Nat × Nat × Nat)) (blamedP blamedS : Word)
    (phases alarmed : List (Nat × Nat)) (injEnd : Nat) :
    headView w { s with flt := { s.flt with
      waiting := waiting, react := react, counts := counts, blamedP := blamedP, blamedS := blamedS, phases := phases, alarmed := alarmed
      injEnd := injEnd } } = headView w s := (rfl)

/-- Every part of the host interface but its generation. -/
theorem headView_host (s : State) (phyDown : Bool) (cmds : List HostCmd) (nextSlot : Nat) (waiting : List HostDone) (mem : List (Nat × Byte))
    (hidx : List Nat) (phase : List Bool) (unsig : List (Nat × Nat)) (dirty : Bool) (writebacks : Word) (wbAt : Option Nat) (msi : List Nat)
    (sbuf : List StreamEntry) (evq : List EventEntry) (lost : List Nat) (pcie : PcieState) (lastErr cseq g2At : Nat) (g2busy gotCpl gotEvt : Bool)
    (gotStr : Nat) (reply : List Byte) (g1crc g1reg : Bool) (g1new : List Bool) (g1latch : List Nat) :
    headView w { s with hst := { s.hst with
      phyDown := phyDown, cmds := cmds, nextSlot := nextSlot, waiting := waiting, mem := mem, hidx := hidx, phase := phase, unsig := unsig, dirty := dirty
      writebacks := writebacks, wbAt := wbAt, msi := msi, sbuf := sbuf, evq := evq, lost := lost, pcie := pcie, lastErr := lastErr, cseq := cseq
      g2At := g2At, g2busy := g2busy, gotCpl := gotCpl, gotEvt := gotEvt, gotStr := gotStr, reply := reply, g1crc := g1crc, g1reg := g1reg
      g1new := g1new, g1latch := g1latch } } = headView w s := (rfl)

theorem headView_setReg {a : Nat} (h : a ∉ headRegs) (v : Word) (s : State) : headView w (setReg a v s) = headView w s := by
  have hfields : (headFields w).map (getF · (setReg a v s)) = (headFields w).map (getF · s) :=
    List.map_congr_left fun g hg => getF_of_reg (reg_setReg_other (fun e : g.addr = a => h (e ▸ (headFields_fit w g hg).2)) v s)
  simp only [headView, hfields]
  rfl

theorem headView_setF {f : Field} (h : spares true f = true) (v : Nat) (s : State) : headView w (setF f v s) = headView w s :=
  headView_narrow (spares_wide h w) v s
theorem headView_setB {f : Field} (h : spares true f = true) (b : Bool) (s : State) : headView w (setB f b s) = headView w s := headView_setF h _ s
theorem headView_incSat {f : Field} (h : spares true f = true) (s : State) : headView w (incSat f s) = headView w s := headView_setF h _ s
theorem headView_setRegBit {a : Nat} (h : a ∉ headRegs) (k : Nat) (b : Bool) (s : State) : headView w (setRegBit a k b s) = headView w s :=
  headView_setReg h _ s

theorem headView_foldl {α : Type} (f : State → α → State) (l : List α) (h : ∀ t, ∀ x ∈ l, headView w (f t x) = headView w t) (s : State) :
    headView w (l.foldl f s) = headView w s := by
  induction l generalizing s with
  | nil => rfl
  | cons x l ih => exact (ih (fun t y hy => h t y (List.mem_cons_of_mem x hy)) (f s x)).trans (h s x (List.mem_cons_self ..))

theorem headView_pulse (src : Nat) (s : State) : headView w (pulse src s) = headView w s := by
  simp only [pulse, apply_ite (headView w), headView_flt, ite_self]

theorem headView_setEvt (b : EvtBlock) (bits : Nat) (s : State) : headView w (setEvt b bits s) = headView w s := by
  have h : b.evt ∉ headRegs := by cases b <;> decide
  simp only [setEvt, apply_ite (headView w), headView_parts, headView_setReg h, ite_self]

theorem headView_useFree (s : State) : headView w (useFree s) = headView w s := (rfl)

/-! ### The host interface -/

theorem headView_dmaWrite (a : Nat) (bs : List Byte) (s : State) : headView w (dmaWrite a bs s) = headView w s := (rfl)

theorem headView_advanceRing {r : Nat} (hr : r < 11) (n : Nat) (s : State) : headView w (advanceRing r n s) = headView w s := by
  have h : spares true (Reg.HST_RDIDX_DIDX r) = true := spares_out (not_headRegs (by simp only [Reg.HST_RDIDX_DIDX, Reg.HST_RDIDX]; omega))
  simp only [advanceRing, headView_host, headView_setF h]

theorem headView_writeback (s : State) : headView w (writeback s) = headView w s := by
  simp only [writeback, apply_ite (headView w), headView_dmaWrite, headView_host, ite_self]

theorem headView_sendVector (v : Nat) (s : State) : headView w (sendVector v s) = headView w s := by
  simp only [sendVector, headView_dmaWrite, headView_host, headView_writeback]

theorem headView_message (v : Nat) (s : State) : headView w (message v s) = headView w s := by
  simp (disch := decide) only [message, apply_ite (headView w), headView_setRegBit, headView_sendVector, ite_self]

theorem headView_signalRing (r : Nat) (s : State) : headView w (signalRing r s) = headView w s := by
  simp only [signalRing, apply_ite (headView w), headView_message, headView_host, ite_self]

theorem headView_signalCounted (r : Nat) (s : State) : headView w (signalCounted r s) = headView w s := by
  simp only [signalCounted, apply_ite (headView w), headView_signalRing, ite_self]

theorem headView_countEntry (r : Nat) (s : State) : headView w (countEntry r s) = headView w s := by
  simp only [countEntry, headView_signalCounted, headView_host]

theorem headView_ringWrite {r : Nat} (hr : r < 11) (n : Nat) (mk : Bool → List Byte) (s : State) : headView w (ringWrite r n mk s) = headView w s := by
  simp only [ringWrite, headView_countEntry, headView_advanceRing hr, headView_dmaWrite]

theorem headView_flushCompletions (k : Nat) (s : State) : headView w (flushCompletions k s) = headView w s := by
  induction k generalizing s with
  | zero => rfl
  | succ k ih =>
    unfold flushCompletions
    split
    · rfl
    · simp (disch := decide) only [apply_ite (headView w), ih, headView_ringWrite, headView_host, headView_dmaWrite, ite_self]

theorem headView_refreshOut (s : State) : headView w (refreshOut s) = headView w s := by
  simp (disch := decide) only [refreshOut, headView_setF]

theorem headView_finishHost (slot : Nat) (mk : HostCmd → HostDone) (s : State) : headView w (finishHost slot mk s) = headView w s := by
  unfold finishHost
  split
  · rfl
  · simp only [headView_refreshOut, headView_flushCompletions, apply_ite (headView w), headView_host, ite_self]

theorem headView_clearEnables (s : State) : headView w (clearEnables s) = headView w s := by
  simp (disch := decide) only [clearEnables, headView_setB]
  refine headView_foldl _ _ (fun t r hr => headView_setB (spares_out (not_headRegs ?_)) _ t) s
  have := List.mem_range.1 hr
  simp only [Reg.HST_RCFG_EN, Reg.HST_RCFG]
  omega

theorem headView_roomEvent (s : State) : headView w (roomEvent s) = headView w s := by
  simp only [roomEvent, apply_ite (headView w), headView_host, ite_self]

theorem headView_pushEvent (e : EventEntry) (s : State) : headView w (pushEvent e s) = headView w s := by
  simp (disch := decide) only [pushEvent, apply_ite (headView w), headView_incSat, headView_pulse, headView_host, headView_roomEvent, ite_self]

/-! ### Frames -/

theorem headView_modPort (n : Nat) (f : PortState → PortState) (s : State) : headView w (modPort n f s) = headView w s := (rfl)

theorem headView_enqueue (n input : Nat) (g : Frame) (s : State) : headView w (enqueue n input g s) = headView w s := by
  simp (disch := decide) only [enqueue, apply_ite (headView w), headView_incSat, headView_modPort, ite_self]

theorem headView_sendRouted (f : Frame) (s : State) : headView w (sendRouted f s) = headView w s := by
  simp (disch := decide) only [sendRouted, apply_ite (headView w), headView_incSat, headView_enqueue, ite_self]

theorem headView_flood (input : Nat) (f : Frame) (s : State) : headView w (flood input f s) = headView w s :=
  headView_foldl _ _ (fun t n _ => by simp only [apply_ite (headView w), headView_enqueue, ite_self]) s

theorem headView_originate (t : FrameType) (cl : Cls) (p : List Word) (s : State) : headView w (originate t cl p s) = headView w s := by
  simp only [originate, headView_flood, headView_parts]

theorem headView_broadcast (t : FrameType) (cl : Cls) (p : List Word) (s : State) : headView w (broadcast t cl p s) = headView w s := by
  simp only [broadcast, apply_ite (headView w), headView_originate, headView_parts, ite_self]

theorem headView_linkLocal (n : Nat) (t : FrameType) (cl : Cls) (p : List Word) (s : State) : headView w (linkLocal n t cl p s) = headView w s :=
  headView_enqueue _ _ _ s

theorem headView_sendHome (k : Nat) (t : FrameType) (cl : Cls) (tag : Nat) (p : List Word) {drop : State → State} (s : State)
    (h : headView w (drop s) = headView w s) : headView w (sendHome k t cl tag p drop s) = headView w s := by
  unfold sendHome
  split
  · exact headView_sendRouted _ s
  · exact h

theorem headView_sendCpl (src tag : Nat) (cls : Cls) (rroute : Word) (rhop : Nat) (p : List Word) (s : State) :
    headView w (sendCpl src tag cls rroute rhop p s) = headView w s := by
  unfold sendCpl
  split
  · exact headView_sendRouted _ s
  · split
    · exact headView_sendHome _ _ _ _ _ s (headView_incSat (by decide) s)
    · exact headView_incSat (by decide) s

theorem headView_cachePut (src epoch : Nat) (e : Cached) (s : State) : headView w (cachePut src epoch e s) = headView w s := (rfl)

theorem headView_complete (tk : Ticket) (st : Status) (data : List Word) (tval : Nat) (s : State) : headView w (complete tk st data tval s) = headView w s := by
  cases tk with
  | direct => rfl
  | fabric => simp only [complete, apply_ite (headView w), headView_cachePut, headView_sendCpl, ite_self]
  | host => exact headView_finishHost _ _ s

/-! ### The impedance engine and the converter -/

theorem headView_finishAbort (code : Nat) (s : State) : headView w (finishAbort code s) = headView w s := by
  simp only [finishAbort, headView_setEvt, apply_ite (headView w), headView_pulse, ite_self]

theorem headView_planAbort (code : Nat) (s : State) : headView w (planAbort code s) = headView w s := by
  simp (disch := decide) only [planAbort, apply_ite (headView w), headView_finishAbort, headView_parts, headView_setF, headView_useFree, ite_self]

theorem headView_excitationStops (s : State) : headView w (excitationStops s) = headView w s := by
  unfold excitationStops
  split
  · rfl
  · refine (headView_foldl _ _ (fun t f _ => ?_) _).trans (headView_parts ..)
    exact headView_finishAbort f.code t

theorem headView_clearTrims (s : State) : headView w (clearTrims s) = headView w s := by
  simp (disch := decide) only [clearTrims, headView_setReg, headView_parts]

theorem headView_quiet (s : State) : headView w (quiet s) = headView w s := by
  unfold quiet
  extract_lets s1
  have h1 : headView w s1 = headView w s := by simp (disch := decide) only [s1, headView_setB, headView_setF, headView_clearTrims]
  exact (headView_parts ..).trans h1

/-- The converter's state is in the wide view alone. -/
theorem headView_leaveRunning (dest : Nat) (s : State) : headView false (leaveRunning dest s) = headView false s := by
  unfold leaveRunning
  extract_lets ran s1 s2 s3 cnv1 s4
  have h1 : headView false s1 = headView false s := by simp only [s1, apply_ite (headView false), headView_planAbort, ite_self]
  have h2 : headView false s2 = headView false s := (headView_narrow (by decide) _ _).trans ((headView_quiet s1).trans h1)
  have h3 : headView false s3 = headView false s := by simp only [s3, apply_ite (headView false), headView_setEvt, h2, ite_self]
  have h4 : headView false s4 = headView false s := by
    simp only [s4, apply_ite (headView false), headView_setEvt, headView_parts, h3, ite_self]
  rw [headView_excitationStops, h4]

theorem headView_immediateStop (dest : Nat) (s : State) : headView false (immediateStop dest s) = headView false s := by
  simp only [immediateStop, apply_ite (headView false), headView_leaveRunning, ite_self]

theorem headView_commandedStop (s : State) : headView false (commandedStop s) = headView false s := by
  unfold commandedStop
  split <;> simp (disch := decide) only [headView_leaveRunning, headView_narrow, headView_parts, apply_ite (headView false), headView_planAbort,
    ite_self]

theorem headView_placeEdges (s : State) : headView w (placeEdges s) = headView w s := (rfl)

theorem headView_refreshPhases (s : State) : headView false (refreshPhases s) = headView false s := by
  simp (disch := decide) only [refreshPhases, apply_ite (headView false), headView_immediateStop, headView_placeEdges, headView_clearTrims,
    headView_setF, ite_self]

theorem headView_setLevel (level : Nat) (s : State) : headView false (setLevel level s) = headView false s := by
  simp (disch := decide) only [setLevel, headView_refreshPhases, headView_setF]

theorem headView_resetEngine (s : State) : headView w (resetEngine s) = headView w s := by
  simp (disch := decide) only [resetEngine, headView_parts, headView_setF, headView_setReg, headView_setB]

/-! ### Balancing, the fault pair, and the measurements -/

/-- The switches that are on are in the wide view alone. -/
theorem headView_enforceSwitches (s : State) : headView false (enforceSwitches s) = headView false s := by
  simp (disch := decide) only [enforceSwitches, noteBleed, headView_narrow, headView_parts]

theorem headView_driveFaultLevel (s : State) : headView w (driveFaultLevel s) = headView w s := by
  simp (disch := decide) only [driveFaultLevel, apply_ite (headView w), headView_setB, headView_parts, ite_self]

theorem headView_endHarness (st : Status) (failed : Bool) (s : State) : headView false (endHarness st failed s) = headView false s := by
  unfold endHarness
  split
  · rfl
  · simp (disch := decide) only [headView_complete, headView_enforceSwitches, apply_ite (headView false), headView_pulse, headView_setB,
      headView_parts, ite_self]

theorem headView_harnessAbort (s : State) : headView false (harnessAbort s) = headView false s := headView_endHarness _ _ s

theorem headView_markStream (o : Bool) (p : Nat → Bool) (s : State) : headView w (markStream o p s) = headView w s := by
  simp only [markStream, apply_ite (headView w), headView_parts, ite_self]

theorem headView_noteWindow (s : State) : headView w (noteWindow s) = headView w s := by
  simp only [noteWindow, apply_ite (headView w), headView_parts, ite_self]

theorem headView_startSettle (p : Nat → Bool) (s : State) : headView w (startSettle p s) = headView w s := by
  simp (disch := decide) only [startSettle, settleStreams, startCount, reportSettle, headView_markStream, headView_parts, headView_setB,
    headView_setF]

theorem headView_invalidate {a : Nat} (h : a ∉ headRegs) (s : State) : headView w (invalidate a s) = headView w s := headView_setRegBit h _ _ s

theorem headView_invalidateAll (s : State) : headView w (invalidateAll s) = headView w s := by
  simp (disch := decide) only [invalidateAll, headView_invalidate, headView_parts]
  refine (headView_foldl _ _ (fun t k hk => ?_) _).trans <| (headView_foldl _ _ (fun t k hk => ?_) _).trans <| headView_foldl _ _ (fun t k hk => ?_) s
  all_goals have := List.mem_range.1 hk
  · rw [headView_invalidate (not_headRegs (by simp only [Reg.XCK_AXF]; omega)), headView_invalidate (not_headRegs (by simp only [Reg.XCK_AX]; omega))]
  · exact headView_invalidate (not_headRegs (by simp only [Reg.XCK_PAIR]; omega)) t
  · exact headView_invalidate (not_headRegs (by simp only [Reg.XCK_CELL]; omega)) t

theorem headView_invalidateCells (v : Word) (s : State) :
    headView w ((List.range 24).foldl (fun t k => if v.getLsbD (k + 1) then invalidate (Reg.XCK_CELL k) t else t) s) = headView w s := by
  refine headView_foldl _ _ (fun t k hk => ?_) s
  have := List.mem_range.1 hk
  simp only [apply_ite (headView w), headView_invalidate (a := Reg.XCK_CELL k) (not_headRegs (by simp only [Reg.XCK_CELL]; omega)), ite_self]

theorem headView_showFenced (s : State) : headView false (showFenced s) = headView false s := headView_narrowB (by decide) _ s

theorem headView_applyCellFences (s : State) : headView false (applyCellFences s) = headView false s := by
  unfold applyCellFences
  extract_lets oldP newP oldS newS mode began s1 s2 xck2 s3 xck3 moded s4 lifted s5 s6
  have h1 : headView false s1 = headView false s := by simp (disch := decide) only [s1, headView_narrowB, headView_setReg]
  have h2 : headView false s2 = headView false s := (headView_invalidateCells newS s1).trans h1
  have h3 : headView false s3 = headView false s := (headView_parts ..).trans h2
  have hm : headView false moded = headView false s := (headView_setF (by decide) _ _).trans ((headView_parts ..).trans h3)
  have h4 : headView false s4 = headView false s := by simp only [s4, apply_ite (headView false), headView_invalidateAll, hm, h3, ite_self]
  have h5 : headView false s5 = headView false s := by simp only [s5, apply_ite (headView false), headView_startSettle, h4, ite_self]
  have h6 : headView false s6 = headView false s := by simp only [s6, apply_ite (headView false), headView_planAbort, h5, ite_self]
  simp only [headView_showFenced, headView_noteWindow, apply_ite (headView false), headView_endHarness, h6, ite_self]

/-! ### The route table and the requests -/

theorem headView_setEntry (id : Nat) (e : RouteEntry) (s : State) : headView w (setEntry id e s) = headView w s := (rfl)

theorem headView_modRun (f : EnumRun → EnumRun) (s : State) : headView w (modRun f s) = headView w s := (rfl)

theorem headView_applyHeld (id : Nat) (s : State) : headView w (applyHeld id s) = headView w s := by
  unfold applyHeld
  split
  · rfl
  · split <;> rfl

theorem headView_sendRunReq (f : Frame) (tag : Nat) (s : State) : headView w (sendRunReq f tag s) = headView w s := by
  simp only [sendRunReq, headView_sendRouted, headView_refreshOut, headView_parts]

theorem headView_runSend (s : State) : headView w (runSend s) = headView w s := by
  unfold runSend
  split
  · rfl
  · split
    · rfl
    · split <;> split <;> simp only [headView_sendRunReq, headView_useFree, headView_modRun]

theorem headView_dropReq (r : Req) (s : State) : headView w (dropReq r s) = headView w s := by
  unfold dropReq
  split <;> simp only [headView_refreshOut, headView_applyHeld, headView_parts]

theorem headView_finishReq (r : Req) (st : Status) (data : List Word) (tval : Nat) (cached : Bool) (epoch : Nat) (s : State) :
    headView w (finishReq r st data tval cached epoch s) = headView w s := by
  unfold finishReq
  split <;> simp only [headView_runSend, headView_finishHost, runDone, headView_modRun, headView_dropReq]

theorem headView_reissueReq (r : Req) (route : Word × Nat) (s : State) : headView w (reissueReq r route s) = headView w s := by
  simp (disch := decide) only [reissueReq, headView_sendRouted, apply_ite (headView w), headView_incSat, headView_parts, ite_self]

theorem headView_reissueTo (id : Nat) (s : State) : headView w (reissueTo id s) = headView w s :=
  headView_foldl _ _ (fun _ _ _ => headView_reissueReq _ _ _) s

theorem headView_endRequestsTo (id : Nat) (st : Status) (epoch : Nat) (s : State) : headView w (endRequestsTo id st epoch s) = headView w s :=
  headView_foldl _ _ (fun _ _ _ => headView_finishReq _ _ _ _ _ _ _) s

theorem headView_mapSessions (f : Session → Session) (s : State) : headView w (mapSessions f s) = headView w s := (rfl)

theorem headView_countSwitch (s : State) : headView w (countSwitch s) = headView w s := by
  simp (disch := decide) only [countSwitch, headView_setEvt, headView_incSat, headView_parts]

theorem headView_failHome (hit : List Nat → Bool) {k : Nat} (hk : k < 2) (s : State) : headView w (failHome hit k s) = headView w s := by
  have h {f : Field} (hf : f.addr = Reg.FAB_HOME_HCTL k) : spares true f = true :=
    spares_out (not_headRegs (by simp only [hf, Reg.FAB_HOME_HCTL]; omega))
  have hp : spares true (Reg.FAB_HOME_HCTL_PFAIL k) = true := h rfl
  have ha : spares true (Reg.FAB_HOME_HCTL_AFAIL k) = true := h rfl
  have hu : spares true (Reg.FAB_HOME_HCTL_USE k) = true := h rfl
  simp only [failHome, apply_ite (headView w), suspendSessions, rewindSessions, headView_mapSessions, headView_parts, headView_countSwitch,
    headView_pulse, headView_setB hp, headView_setB ha, headView_setB hu, ite_self]

theorem headView_failEntry (hit : List Nat → Bool) (id : Nat) (s : State) : headView w (failEntry hit id s) = headView w s := by
  simp only [failEntry, apply_ite (headView w), headView_endRequestsTo, headView_setEvt, headView_setEntry, headView_reissueTo,
    headView_countSwitch, ite_self]

theorem headView_failRoutes (hit : List Nat → Bool) (s : State) : headView w (failRoutes hit s) = headView w s := by
  have hf (l : List Nat) (t : State) : headView w (l.foldl (fun t id => failEntry hit id t) t) = headView w t :=
    headView_foldl _ _ (fun _ _ _ => headView_failEntry _ _ _) t
  simp (disch := decide) only [failRoutes, apply_ite (headView w), hf, headView_parts, headView_failHome, ite_self]

theorem headView_noteCut (a : Nat) (b : Option Nat) (s : State) : headView w (noteCut a b s) = headView w s := by
  unfold noteCut
  split <;> rfl

theorem headView_failLink (a : Nat) (b : Option Nat) (s : State) : headView w (failLink a b s) = headView w s := by
  simp only [failLink, headView_failRoutes, headView_noteCut]

/-! ### The timebase -/

theorem headView_modDelay (n : Nat) (f : DelayState → DelayState) (s : State) : headView w (modDelay n f s) = headView w s := (rfl)

theorem headView_announce (s : State) : headView w (announce s) = headView w s :=
  headView_foldl _ _ (fun t n _ => by simp only [apply_ite (headView w), headView_linkLocal, ite_self]) s

theorem headView_enterTb (code : Nat) (s : State) : headView w (enterTb code s) = headView w s := by
  simp (disch := decide) only [enterTb, headView_setB, headView_setF, headView_parts, apply_ite (headView w), headView_planAbort, ite_self]

theorem headView_takeParent (n h : Nat) (s : State) : headView w (takeParent n h s) = headView w s := by
  unfold takeParent
  split <;> simp (disch := decide) only [headView_announce, headView_enterTb, headView_setF, headView_parts]

theorem headView_enterFreerun (s : State) : headView w (enterFreerun s) = headView w s := by
  simp (disch := decide) only [enterFreerun, headView_setF, headView_enterTb, headView_parts, apply_ite (headView w), headView_pulse, ite_self]

theorem headView_enterHoldover (s : State) : headView w (enterHoldover s) = headView w s := by
  simp (disch := decide) only [enterHoldover, apply_ite (headView w), headView_enterFreerun, headView_announce, headView_pulse, headView_setF,
    headView_enterTb, headView_parts, ite_self]

theorem headView_loseParent (s : State) : headView w (loseParent s) = headView w s := by
  unfold loseParent
  split
  · rfl
  · split
    · exact headView_takeParent _ _ s
    · simp only [apply_ite (headView w), headView_enterHoldover, headView_enterFreerun, ite_self]

theorem headView_portLostTime (n : Nat) (s : State) : headView w (portLostTime n s) = headView w s := by
  simp only [portLostTime, apply_ite (headView w), headView_loseParent, headView_modDelay, ite_self]

theorem headView_clearBusy (s : State) : headView w (clearBusy s) = headView w s := by
  simp (disch := decide) only [clearBusy, apply_ite (headView w), headView_setB, ite_self]

theorem headView_latchRecords (t : Nat) (s : State) : headView w (latchRecords t s) = headView w s := by
  unfold latchRecords
  split
  · exact (headView_setB (by decide) _ _).trans (headView_parts ..)
  · rfl

theorem headView_latchBlocks (s : State) : headView w (latchBlocks s) = headView w s := by
  unfold latchBlocks
  extract_lets first turn s1
  have h1 : headView w s1 = headView w s := by simp (disch := decide) only [s1, headView_setReg]
  exact (headView_foldl _ _ (fun t j _ => headView_setReg (not_headRegs (by simp only [Reg.FLT_SNAP]; omega)) _ t) s1).trans h1

theorem headView_latchRein (t slack : Nat) (s : State) : headView w (latchRein t slack s) = headView w s := by
  unfold latchRein
  extract_lets late s1 tbs1
  have h1 : headView w s1 = headView w s := by simp (disch := decide) only [s1, apply_ite (headView w), headView_setB, headView_setF, ite_self]
  rw [headView_clearBusy, headView_latchRecords, headView_latchBlocks, headView_parts, h1]

theorem headView_takeRein (t src : Nat) (origin : Option Nat) (count : Nat) (remote : Bool) (s : State) :
    headView w (takeRein t src origin count remote s) = headView w s := by
  unfold takeRein
  extract_lets near s1 tbs1 cms1 s2
  have h1 : headView w s1 = headView w s := by simp (disch := decide) only [s1, headView_setB, headView_setF, headView_setReg]
  have h2 : headView w s2 = headView w s := (headView_parts ..).trans h1
  simp (disch := decide) only [apply_ite (headView w), headView_incSat, headView_latchRein, h2, ite_self]

theorem headView_issueRein (t src : Nat) (bcast : Bool) (s : State) : headView w (issueRein t src bcast s) = headView w s := by
  simp only [issueRein, apply_ite (headView w), headView_broadcast, headView_takeRein, headView_parts, ite_self]

/-! ### Ports -/

theorem headView_enterPort {n : Nat} (hn : n < 4) (code : Nat) (d : LineDrive) (s : State) : headView w (enterPort n code d s) = headView w s := by
  have h {f : Field} (hf : f.addr = Reg.LNK_PSTAT n) : spares true f = true := spares_out (not_headRegs (by simp only [hf, Reg.LNK_PSTAT]; omega))
  have hs : spares true (Reg.LNK_PSTAT_STATE n) = true := h rfl
  have hl : spares true (Reg.LNK_PSTAT_LOCK n) = true := h rfl
  have hup (b : Bool) (u : State) : headView w (setRegBit Reg.LNK_STAT n b u) = headView w u := by
    have hbit : ∀ m < 4, spares true ⟨Reg.LNK_STAT, m, 1⟩ = true := by decide
    exact headView_setB (f := ⟨Reg.LNK_STAT, n, 1⟩) (hbit n hn) b u
  unfold enterPort
  extract_lets t
  have ht : headView w t = headView w s := by simp (disch := decide) only [t, headView_modPort, hup, headView_setB hl, headView_setF hs]
  simp (disch := decide) only [apply_ite (headView w), headView_setB, ht, ite_self]

theorem headView_restPort {n : Nat} (hn : n < 4) (s : State) : headView w (restPort n s) = headView w s := by
  simp only [restPort, enterDown, apply_ite (headView w), headView_modPort, headView_enterPort hn, ite_self]

theorem headView_handBack (f : Frame) (s : State) : headView w (handBack f s) = headView w s := by
  unfold handBack
  split
  · exact headView_incSat (by decide) s
  · exact headView_incSat (by decide) s
  · rfl

theorem headView_sendLinkdown (n cause : Nat) (s : State) : headView w (sendLinkdown n cause s) = headView w s := by
  simp only [sendLinkdown, apply_ite (headView w), headView_broadcast, ite_self]

theorem headView_linkLoss {n : Nat} (hn : n < 4) (cause : Nat) (s : State) : headView w (linkLoss n cause s) = headView w s := by
  have hr : spares true (Reg.LNK_RBUF_NOW n) = true := spares_out (not_headRegs (by simp only [Reg.LNK_RBUF_NOW, Reg.LNK_RBUF]; omega))
  have hl : spares true (Reg.LNK_LOSS_LASTCAUSE n) = true := spares_out (not_headRegs (by simp only [Reg.LNK_LOSS_LASTCAUSE, Reg.LNK_LOSS]; omega))
  have hc : spares true (Reg.LNK_LOSS_LOSSCNT n) = true := spares_out (not_headRegs (by simp only [Reg.LNK_LOSS_LOSSCNT, Reg.LNK_LOSS]; omega))
  have hb (l : List Frame) (t : State) : headView w (l.foldl (fun t f => handBack f t) t) = headView w t := headView_foldl _ _ (fun _ _ _ => headView_handBack _ _) t
  simp only [linkLoss, headView_portLostTime, headView_failLink, headView_sendLinkdown, apply_ite (headView w), headView_pulse, hb, headView_setEvt,
    headView_incSat hc, headView_setF hl, headView_setF hr, headView_modPort, headView_restPort hn, ite_self]

theorem headView_closePort {n : Nat} (hn : n < 4) (s : State) : headView w (closePort n s) = headView w s := by
  simp only [closePort, apply_ite (headView w), headView_linkLoss hn, headView_restPort hn, ite_self]

theorem headView_openPort {n : Nat} (hn : n < 4) (s : State) : headView w (openPort n s) = headView w s := by
  simp only [openPort, apply_ite (headView w), headView_restPort hn, ite_self]

/-! ### Calibration and self-test -/

theorem headView_nvmWrite (o : Nat) (bs : List Byte) (s : State) : headView w (nvmWrite o bs s) = headView w s := (rfl)
theorem headView_nvmErase (a b : Nat) (s : State) : headView w (nvmErase a b s) = headView w s := (rfl)

theorem headView_refreshBusy (s : State) : headView w (refreshBusy s) = headView w s := headView_setB (by decide) _ s

theorem headView_beginJob (j : NvmJob) (tk : Option Ticket) (s : State) : headView w (beginJob j tk s) = headView w s := by
  simp (disch := decide) only [beginJob, headView_refreshBusy, headView_parts, apply_ite (headView w), headView_setReg, headView_nvmWrite,
    headView_nvmErase, ite_self]

theorem headView_nextJob (s : State) : headView w (nextJob s) = headView w s := by
  unfold nextJob
  split
  · rfl
  · split
    · rfl
    · simp only [headView_beginJob, headView_parts]

theorem headView_copyWritten (b : Bool) (s : State) : headView w (copyWritten b s) = headView w s := by
  cases b <;> simp (disch := decide) only [copyWritten, headView_setB, headView_setReg]

theorem headView_endCalRun (st : Status) (err : Option Nat) (s : State) : headView w (endCalRun st err s) = headView w s := by
  unfold endCalRun
  split
  · rfl
  · extract_lets span cal1 s1 s2 cal2 s3
    have h1 : headView w s1 = headView w s := (headView_setF (by decide) _ _).trans (headView_parts ..)
    have h2 : headView w s2 = headView w s := by
      cases err with
      | none => exact h1
      | some e => exact (headView_setF (by decide) _ _).trans h1
    have h3 : headView w s3 = headView w s := by
      simp only [s3]
      split
      · simp only [apply_ite (headView w), headView_copyWritten, headView_nvmWrite, headView_parts, h2, ite_self]
      · exact h2
    rw [headView_nextJob, headView_refreshBusy, headView_complete, h3]

/-- The records of the items are none of the view's registers. -/
theorem recordWord_out (item k : Nat) : recordWord item k ∉ headRegs := by
  refine not_headRegs ?_
  simp only [recordWord, Reg.BST_MREC, Reg.BST_LREC]
  split <;> omega

theorem headView_writeRecord (item result : Nat) (done : Bool) (cov count w3 : Nat) (r : BstRun) (s : State) :
    headView w (writeRecord item result done cov count w3 r s) = headView w s := by
  simp only [writeRecord, headView_setReg (recordWord_out item _)]

theorem headView_clearRecord (item : Nat) (s : State) : headView w (clearRecord item s) = headView w s :=
  headView_foldl _ _ (fun t k _ => headView_setReg (recordWord_out item k) _ t) s

theorem headView_judgeMemory (m : Nat) (r : BstRun) (s : State) : headView w (judgeMemory m r s) = headView w s := by
  simp only [judgeMemory, headView_parts, headView_writeRecord]

theorem headView_cutPartition (p : Nat) (r : BstRun) (s : State) : headView w (cutPartition p r s) = headView w s := by
  simp only [cutPartition, headView_parts, headView_writeRecord, headView_useFree, apply_ite (headView w), ite_self]

theorem headView_unitReturns (item : Nat) (s : State) : headView w (unitReturns item s) = headView w s := by
  simp only [unitReturns, apply_ite (headView w), headView_parts, headView_host, ite_self]

theorem headView_endSelfTest (s : State) : headView w (endSelfTest s) = headView w s := by
  unfold endSelfTest
  split
  · rfl
  · simp (disch := decide) only [apply_ite (headView w), headView_pulse, headView_setF, headView_setB, headView_parts, ite_self]

theorem headView_abortSelfTest (s : State) : headView w (abortSelfTest s) = headView w s := by
  have hc (l : List Nat) (t : State) : headView w (l.foldl (fun t i => clearRecord i t) t) = headView w t := headView_foldl _ _ (fun _ _ _ => headView_clearRecord _ _) t
  unfold abortSelfTest
  split
  · rfl
  · split <;> simp only [headView_endSelfTest, apply_ite (headView w), headView_judgeMemory, headView_unitReturns, headView_cutPartition, hc,
      ite_self]

/-! ### The reactions -/

/-- The calm view: what no reaction changes. -/
def calmFields : List Field := [Reg.FLT_STAT_LAST, Reg.FLT_ALCNT_ASEQ, Reg.LNK_STAT_LEGACY]

def calmView (s : State) : HeadView := ⟨calmFields.map (getF · s), s.hst.spi, s.flt.lines, s.flt.railErr⟩

theorem calmView_of_headView {s t : State} (h : headView w t = headView w s) : calmView t = calmView s := by
  have hsub : ∀ f ∈ calmFields, f ∈ headFields w := by cases w <;> decide
  have hfields : calmFields.map (getF · t) = calmFields.map (getF · s) := List.map_congr_left fun f hf => getF_of_headView h (hsub f hf)
  simp only [calmView, hfields, spi_of_headView h, lines_of_headView h, railErr_of_headView h]

theorem getF_of_calmView {s t : State} (h : calmView t = calmView s) {f : Field} (hf : f ∈ calmFields) : getF f t = getF f s := by
  have hfields : calmFields.map (getF · t) = calmFields.map (getF · s) := congrArg HeadView.fields h
  exact List.map_inj_left.1 hfields f hf

theorem calmView_setB {f : Field} (h : calmFields.all (besides f) = true) (b : Bool) (s : State) : calmView (setB f b s) = calmView s := by
  have hfit : ∀ g ∈ calmFields, g.lo + g.w ≤ 32 := by decide
  have hfields : calmFields.map (getF · (setB f b s)) = calmFields.map (getF · s) :=
    List.map_congr_left fun g hg => getF_setF_besides (List.all_eq_true.1 h g hg) (hfit g hg) _ s
  simp only [calmView, hfields]
  rfl

/-- A fence of the impedance engine moves its bit of FLT_FENCE0 in the view. -/
theorem headView_fenceImp (on : Bool) (s : State) : headView w (fenceImp on s) = headView w (setB Reg.FLT_FENCE0_IMP on s) := by
  simp only [fenceImp, apply_ite (headView w), headView_planAbort, ite_self]

theorem headView_fenceBleed (on : Bool) (s : State) : headView false (fenceBleed on s) = headView false s := by
  simp (disch := decide) only [fenceBleed, apply_ite (headView false), headView_harnessAbort, headView_enforceSwitches, headView_setB, ite_self]

theorem headView_fencePhases (m : Nat) (s : State) : headView false (fencePhases m s) = headView false s := by
  simp (disch := decide) only [fencePhases, apply_ite (headView false), headView_refreshPhases, headView_setF, ite_self]

/-- A fence of the converter moves its bit of FLT_FENCE0 in the view. -/
theorem headView_fenceConverter (on : Bool) (s : State) : headView false (fenceConverter on s) = headView false (setB Reg.FLT_FENCE0_CNV on s) := by
  simp only [fenceConverter, apply_ite (headView false), headView_immediateStop, headView_planAbort, ite_self]

theorem headView_fenceEngine (on : Bool) (s : State) : headView false (fenceEngine on s) = headView false s := by
  simp (disch := decide) only [fenceEngine, apply_ite (headView false), headView_commandedStop, headView_planAbort, headView_resetEngine,
    headView_setB, ite_self]

theorem headView_fencePort {n : Nat} (hn : n < 4) (on : Bool) (s : State) : headView w (fencePort n on s) = headView w s := by
  simp (disch := decide) only [fencePort, apply_ite (headView w), headView_closePort hn, headView_openPort hn, headView_modPort, headView_setF,
    ite_self]

theorem headView_fenceInterface (on : Bool) (s : State) : headView w (fenceInterface on s) = headView w s := by
  simp (disch := decide) only [fenceInterface, apply_ite (headView w), headView_clearEnables, headView_setB, ite_self]

theorem headView_fenceBanks (m : Nat) (s : State) : headView w (fenceBanks m s) = headView w s := by
  simp (disch := decide) only [fenceBanks, apply_ite (headView w), headView_parts, headView_setF, ite_self]

/-- Whether a severe source runs the converter degraded. -/
def degradeStands (s : State) : Bool := s.flt.react.any (fun e => e.2 == 3 && degradesCnv e.1) && !bit Reg.FLT_FENCE0_CNV s

/-- Degraded running moves DEGR in the view. -/
theorem headView_applyDegrades (s : State) : headView false (applyDegrades s) = headView false (setB Reg.CNV_STAT_DEGR (degradeStands s) s) := by
  simp (disch := decide) only [applyDegrades, endShedding, apply_ite (headView false), headView_setLevel, headView_parts, headView_setB, ite_self]
  rfl

/-- The safe state, where it is entered. -/
def safeEntered (s : State) : State :=
  driveFaultLevel (harnessAbort (enforceSwitches (resetUnfenced (immediateStop 0 (planAbort 3 (setB Reg.FLT_STAT_SAFE true s))))))

theorem applySafe_entered {s : State} (h : s.flt.react.any (fun e => e.2 == 4) = true) (hs : bit Reg.FLT_STAT_SAFE s = false) :
    applySafe s = safeEntered s := by
  unfold applySafe
  simp only [h, hs]
  rfl

theorem headView_safeEntered (s : State) : headView false (safeEntered s) = headView false (setB Reg.FLT_STAT_SAFE true s) := by
  simp only [safeEntered, resetUnfenced, apply_ite (headView false), headView_driveFaultLevel, headView_harnessAbort, headView_enforceSwitches,
    headView_resetEngine, headView_immediateStop, headView_planAbort, ite_self]

/-- The safe state, entered or left, moves SAFE in the view. -/
theorem headView_applySafe (s : State) : ∃ u, (u = s ∨ ∃ b, u = setB Reg.FLT_STAT_SAFE b s) ∧ headView false (applySafe s) = headView false u := by
  unfold applySafe
  extract_lets safe s1
  split
  · exact ⟨s, .inl rfl, rfl⟩
  · refine ⟨s1, .inr ⟨safe, rfl⟩, ?_⟩
    simp only [resetUnfenced, apply_ite (headView false), headView_driveFaultLevel, headView_harnessAbort, headView_enforceSwitches,
      headView_resetEngine, headView_immediateStop, headView_planAbort, ite_self]

theorem headView_endFencedRuns (s : State) : headView w (endFencedRuns s) = headView w s := by
  unfold endFencedRuns
  extract_lets s1
  have h1 : headView w s1 = headView w s := by simp only [s1, abortCalRun, apply_ite (headView w), headView_endCalRun, ite_self]
  split
  · simp only [apply_ite (headView w), headView_abortSelfTest, h1, ite_self]
  · exact h1

theorem headView_noteFenced (src : Nat) (s : State) : headView w (noteFenced src s) = headView w s := by
  unfold noteFenced
  split <;> rfl

end

/-! ### All reactions -/

/-- The fences up to the bleed switches. -/
def bleedFenced (s : State) : State :=
  let s1 := applyCellFences s
  let s2 := fenceImp (anyFences [66, 67] s1) s1
  fenceBleed (anyFences [70] s2) s2

/-- The fences up to the converter. -/
def cnvFenced (s : State) : State := fenceConverter (anyFences [72, 73, 75, 78, 83] (bleedFenced s)) (bleedFenced s)

/-- The fences of all units, before degraded running and the safe state. -/
def fencesApplied (s : State) : State :=
  let s5 := fenceEngine (anyFences [84, 86] (cnvFenced s)) (fencePhases (fencedPhases (cnvFenced s)) (cnvFenced s))
  let s6 := (List.range 4).foldl (fun t n => fencePort n ((fencedPorts s).testBit n) t) s5
  let s7 := fenceInterface (anyFences [104, 105, 110] s6) s6
  fenceBanks (b2n (fencedBy 120 s7) + 2 * b2n (fencedBy 121 s7)) s7

theorem applyReactions_eq (s : State) : applyReactions s = endFencedRuns (showFenced (applySafe (applyDegrades (fencesApplied s)))) := rfl

theorem headView_bleedFenced (s : State) :
    headView false (bleedFenced s) = headView false (setB Reg.FLT_FENCE0_IMP (anyFences [66, 67] (applyCellFences s)) (applyCellFences s)) :=
  (headView_fenceBleed _ _).trans (headView_fenceImp _ _)

/-- What the fences move in the view: the bits of the impedance engine and of the converter. -/
theorem headView_fencesApplied (s : State) : headView false (fencesApplied s) =
    headView false (setB Reg.FLT_FENCE0_CNV (anyFences [72, 73, 75, 78, 83] (bleedFenced s)) (bleedFenced s)) := by
  have hports (m : Nat) (t : State) : headView false ((List.range 4).foldl (fun t n => fencePort n (m.testBit n) t) t) = headView false t :=
    headView_foldl _ _ (fun u n hn => headView_fencePort (List.mem_range.1 hn) _ u) t
  simp only [fencesApplied, headView_fenceBanks, headView_fenceInterface, hports, headView_fenceEngine, headView_fencePhases]
  exact headView_fenceConverter _ _

theorem calmView_fencesApplied (s : State) : calmView (fencesApplied s) = calmView s := by
  rw [calmView_of_headView (headView_fencesApplied s), calmView_setB (by decide), calmView_of_headView (headView_bleedFenced s),
    calmView_setB (by decide),
    calmView_of_headView (headView_applyCellFences s)]

/-- A field of the view, other than those that fences move. -/
theorem bit_fencesApplied {f : Field} (hf : f ∈ [Reg.FLT_STAT_SAFE, Reg.CNV_STAT_DEGR]) (s : State) : bit f (fencesApplied s) = bit f s := by
  have hin : f ∈ headFields false := by
    simp only [List.mem_cons, List.not_mem_nil, or_false] at hf
    rcases hf with rfl | rfl <;> decide
  have hbeside : ∀ b v, bit f (setB Reg.FLT_FENCE0_CNV b v) = bit f v ∧ bit f (setB Reg.FLT_FENCE0_IMP b v) = bit f v := by
    simp only [List.mem_cons, List.not_mem_nil, or_false] at hf
    rcases hf with rfl | rfl <;>
      exact fun b v => ⟨bit_of_reg (reg_setB_other (by decide) _ _), bit_of_reg (reg_setB_other (by decide) _ _)⟩
  rw [bit_of_headView (headView_fencesApplied s) hin, (hbeside _ _).1, bit_of_headView (headView_bleedFenced s) hin, (hbeside _ _).2,
    bit_of_headView (headView_applyCellFences s) hin]

theorem imp_fencesApplied (s : State) : bit Reg.FLT_FENCE0_IMP (fencesApplied s) = anyFences [66, 67] (applyCellFences s) := by
  rw [bit_of_headView (headView_fencesApplied s) (by decide), bit_setB_beside (by decide) (by decide),
    bit_of_headView (headView_bleedFenced s) (by decide), bit_setB_same (by decide) rfl]

/-- What degraded running and the safe state leave alone. -/
theorem bit_applySafe {f : Field} (hf : f ∈ [Reg.FLT_FENCE0_IMP, Reg.FLT_FENCE0_CNV, Reg.CNV_STAT_DEGR]) (s : State) : bit f (applySafe s) = bit f s := by
  have hin : f ∈ headFields false ∧ f.addr ≠ Reg.FLT_STAT := by
    simp only [List.mem_cons, List.not_mem_nil, or_false] at hf
    rcases hf with rfl | rfl | rfl <;> decide
  obtain ⟨u, hu, hview⟩ := headView_applySafe s
  rw [bit_of_headView hview hin.1]
  rcases hu with rfl | ⟨b, rfl⟩
  · rfl
  · exact bit_of_reg (reg_setB_other hin.2 _ _)

theorem calmView_applySafe (s : State) : calmView (applySafe s) = calmView s := by
  obtain ⟨u, hu, hview⟩ := headView_applySafe s
  rw [calmView_of_headView hview]
  rcases hu with rfl | ⟨b, rfl⟩
  · rfl
  · exact calmView_setB (by decide) _ _

/-- Bringing reactions into force, or lifting them, changes nothing of the calm view. -/
theorem calmView_applyReactions (s : State) : calmView (applyReactions s) = calmView s := by
  rw [applyReactions_eq, calmView_of_headView (headView_endFencedRuns (w := false) _), calmView_of_headView (headView_showFenced _),
    calmView_applySafe,
    calmView_of_headView (headView_applyDegrades _), calmView_setB (by decide), calmView_fencesApplied]

/-- After the reactions the bits of the impedance engine, of the converter and of degraded running are those that the safe state has found. -/
theorem bit_applyReactions {f : Field} (hf : f ∈ [Reg.FLT_FENCE0_IMP, Reg.FLT_FENCE0_CNV, Reg.CNV_STAT_DEGR]) (s : State) :
    bit f (applyReactions s) = bit f (setB Reg.CNV_STAT_DEGR (degradeStands (fencesApplied s)) (fencesApplied s)) := by
  have hin : f ∈ headFields false := by
    simp only [List.mem_cons, List.not_mem_nil, or_false] at hf
    rcases hf with rfl | rfl | rfl <;> decide
  rw [applyReactions_eq, bit_of_headView (headView_endFencedRuns (w := false) _) hin, bit_of_headView (headView_showFenced _) hin, bit_applySafe hf,
    bit_of_headView (headView_applyDegrades _) hin]

theorem imp_applyReactions (s : State) : bit Reg.FLT_FENCE0_IMP (applyReactions s) = anyFences [66, 67] (applyCellFences s) :=
  (bit_applyReactions (by simp) s).trans ((bit_of_reg (reg_setB_other (by decide) _ _)).trans (imp_fencesApplied s))

theorem degr_applyReactions (s : State) : bit Reg.CNV_STAT_DEGR (applyReactions s) = degradeStands (fencesApplied s) :=
  (bit_applyReactions (by simp) s).trans (bit_setB_same (by decide) rfl _ _)

theorem cnv_applyReactions (s : State) : bit Reg.FLT_FENCE0_CNV (applyReactions s) = bit Reg.FLT_FENCE0_CNV (fencesApplied s) :=
  (bit_applyReactions (by simp) s).trans (bit_of_reg (reg_setB_other (by decide) _ _))

/-- A fenced impedance engine shows in FLT_STAT. -/
theorem fenced_applyReactions {s : State} (h : bit Reg.FLT_FENCE0_IMP (applyReactions s) = true) : bit Reg.FLT_STAT_FENCED (applyReactions s) = true := by
  have himp : bit Reg.FLT_FENCE0_IMP (applySafe (applyDegrades (fencesApplied s))) = true := by
    rw [applyReactions_eq, bit_of_headView (headView_endFencedRuns (w := false) _) (by decide),
      bit_of_headView (headView_showFenced _) (by decide)] at h
    exact h
  have hreg : reg (applySafe (applyDegrades (fencesApplied s))) Reg.FLT_FENCE0 ≠ 0#32 := by
    intro h0
    rw [bit, getF, show Reg.FLT_FENCE0_IMP.addr = Reg.FLT_FENCE0 from rfl, h0] at himp
    exact absurd himp (by decide)
  rw [applyReactions_eq, bit_of_headView (headView_endFencedRuns (w := true) _) (by decide), showFenced, bit_setB_same (by decide) rfl,
    bne_iff_ne.2 hreg,
    Bool.true_or, Bool.true_or]

end Sys2Proof.Machine
end

