-- ==== Sys2Proof/Proofs/SevereSources.lean ====
section
/-!
PROOFS. The safe state, alarms, and a source that becomes severe: what its reaction shows after the rein and the ALARM (R494, R499, R501, R502, R506).
-/
namespace Sys2Proof.Machine

/-! ### The safe state (R502) -/

theorem switching_of_headView {s t : State} (h : headView true t = headView true s) : switching t = switching s :=
  switching_congr (getF_of_headView h (by decide))

theorem switching_immediateStop (s : State) : switching (immediateStop 0 s) = false := by
  unfold immediateStop
  split
  · next h => rcases h with h | h | h <;> simp [switching, h]
  · have hstate : cnvState (leaveRunning 0 s) = 0 := (AtRest.leaveRunning (by decide) s).state
    simp [switching, hstate]

/-- R238, R244: no switch stays on of which none was, or none is eligible. -/
theorem on_enforceSwitches {s : State} (h : ∀ n, ((getF Reg.CPB_BALSTAT_ON s).testBit (n - 1) && eligible n s) = false) :
    getF Reg.CPB_BALSTAT_ON (enforceSwitches s) = 0 := by
  have hnone : cellMask (fun n => (getF Reg.CPB_BALSTAT_ON s).testBit (n - 1) && eligible n s) = 0#32 := by
    have hfun : (fun n => (getF Reg.CPB_BALSTAT_ON s).testBit (n - 1) && eligible n s) = fun _ => false := funext h
    rw [hfun]
    decide
  rw [enforceSwitches_eq, hnone, showSwitches, getF_setF_beside _ _ _ _ (by decide) (by decide), getF_setF_same _ _ _ (by decide)]
  decide

theorem on_enforceSwitches_none {s : State} (h : getF Reg.CPB_BALSTAT_ON s = 0) : getF Reg.CPB_BALSTAT_ON (enforceSwitches s) = 0 :=
  on_enforceSwitches fun n => by rw [h, Nat.zero_testBit, Bool.false_and]

/-- Row 2 of R244. -/
theorem eligible_safe {s : State} (h : bit Reg.FLT_STAT_SAFE s = true) (n : Nat) : eligible n s = false := by
  have hrow : failingRow n s ≠ 0 := by
    have htwo : bit Reg.FLT_STAT_SAFE s = true ∨ bit Reg.FLT_FENCE0_BLEED s = true := .inl h
    unfold failingRow
    rw [if_pos htwo]
    split <;> decide
  rw [eligible, beq_eq_false_iff_ne.2 hrow, Bool.and_false]

/-- The end of a harness measurement closes no switch and starts no phase. -/
theorem endHarness_off {s : State} (st : Status) (failed : Bool) (h : getF Reg.CPB_BALSTAT_ON s = 0 ∧ switching s = false) :
    getF Reg.CPB_BALSTAT_ON (endHarness st failed s) = 0 ∧ switching (endHarness st failed s) = false := by
  obtain ⟨hon, hsw⟩ := h
  unfold endHarness
  split
  · exact ⟨hon, hsw⟩
  · next hr _ =>
    extract_lets xck1 s1 s2
    have h2 : headView true s2 = headView true s := by
      simp (disch := decide) only [s2, s1, apply_ite (headView true), headView_pulse, headView_setB, headView_parts, ite_self]
    have hend (u : State) : headView true (complete hr.ticket st [] 0 u) = headView true u := headView_complete ..
    have hswitch : switching (enforceSwitches s2) = switching s2 := switching_congr (getF_of_reg ((Changes.enforceSwitches s2).reg_other (by decide)))
    refine ⟨(getF_of_headView (hend _) (by decide)).trans (on_enforceSwitches_none ((getF_of_headView h2 (by decide)).trans hon)), ?_⟩
    rw [switching_of_headView (hend _), hswitch, switching_of_headView h2, hsw]

/-- R502: in the safe state no switch is on and no phase switches. -/
structure SafeOff (t : State) : Prop where
  safe : bit Reg.FLT_STAT_SAFE t = true
  on : getF Reg.CPB_BALSTAT_ON t = 0
  still : switching t = false

theorem SafeOff.of_headView {s t : State} (h : SafeOff s) (ht : headView true t = headView true s) : SafeOff t :=
  ⟨(bit_of_headView ht (by decide)).trans h.safe, (getF_of_headView ht (by decide)).trans h.on, (switching_of_headView ht).trans h.still⟩

theorem safeOff_entered (s : State) : SafeOff (safeEntered s) := by
  have hstop : switching (resetUnfenced (immediateStop 0 (planAbort 3 (setB Reg.FLT_STAT_SAFE true s)))) = false := by
    have hreset (u : State) : headView true (resetUnfenced u) = headView true u := by
      simp only [resetUnfenced, apply_ite (headView true), headView_resetEngine, ite_self]
    rw [switching_of_headView (hreset _), switching_immediateStop]
  have hsafe : bit Reg.FLT_STAT_SAFE (resetUnfenced (immediateStop 0 (planAbort 3 (setB Reg.FLT_STAT_SAFE true s)))) = true := by
    have hview : headView false (resetUnfenced (immediateStop 0 (planAbort 3 (setB Reg.FLT_STAT_SAFE true s)))) =
        headView false (setB Reg.FLT_STAT_SAFE true s) := by
      simp only [resetUnfenced, apply_ite (headView false), headView_resetEngine, headView_immediateStop, headView_planAbort, ite_self]
    rw [bit_of_headView hview (by decide), bit_setB_same (by decide) rfl]
  have hswitches : getF Reg.CPB_BALSTAT_ON (enforceSwitches (resetUnfenced (immediateStop 0 (planAbort 3 (setB Reg.FLT_STAT_SAFE true s))))) = 0 :=
    on_enforceSwitches fun n => by rw [eligible_safe hsafe, Bool.and_false]
  have hstill : switching (enforceSwitches (resetUnfenced (immediateStop 0 (planAbort 3 (setB Reg.FLT_STAT_SAFE true s))))) = false :=
    (switching_congr (getF_of_reg ((Changes.enforceSwitches _).reg_other (by decide)))).trans hstop
  obtain ⟨hon, hsw⟩ := endHarness_off .incomplete true ⟨hswitches, hstill⟩
  refine ⟨?_, ?_, ?_⟩
  · rw [bit_of_headView (headView_safeEntered s) (by decide), bit_setB_same (by decide) rfl]
  · exact (getF_of_headView (headView_driveFaultLevel (w := true) _) (by decide)).trans hon
  · exact (switching_of_headView (headView_driveFaultLevel _)).trans hsw

/-- The fences and degraded running leave the books alone. -/
theorem books_fencesApplied (s : State) : books (fencesApplied s) = books s := by
  have hports (m : Nat) (t : State) : books ((List.range 4).foldl (fun t n => fencePort n (m.testBit n) t) t) = books t :=
    books_foldl _ _ (fun u n hn => books_fencePort (List.mem_range.1 hn) _ u) t
  simp only [fencesApplied, cnvFenced, bleedFenced, books_fenceBanks, books_fenceInterface, hports, books_fenceEngine, books_fencePhases, books_fenceConverter,
    books_fenceBleed, books_fenceImp, books_applyCellFences]

theorem safeOff_applyReactions {s : State} (h : s.flt.react.any (fun e => e.2 == 4) = true) (hs : bit Reg.FLT_STAT_SAFE s = false) :
    SafeOff (applyReactions s) := by
  have hreact : (applyDegrades (fencesApplied s)).flt.react = s.flt.react :=
    react_of_books ((books_applyDegrades _).trans (books_fencesApplied s))
  have hclear : bit Reg.FLT_STAT_SAFE (applyDegrades (fencesApplied s)) = false := by
    rw [bit_of_headView (headView_applyDegrades _) (by decide), bit_of_reg (reg_setB_other (by decide) _ _), bit_fencesApplied (by simp)]
    exact hs
  have hentered : SafeOff (applySafe (applyDegrades (fencesApplied s))) := by
    rw [applySafe_entered (by rw [hreact]; exact h) hclear]
    exact safeOff_entered _
  have hshown : SafeOff (showFenced (applySafe (applyDegrades (fencesApplied s)))) := by
    obtain ⟨hsafe, hon, hstill⟩ := hentered
    refine ⟨(bit_setB_beside (by decide) (by decide) _ _).trans hsafe, (getF_of_reg (reg_setB_other (by decide) _ _)).trans hon, ?_⟩
    exact (switching_congr (getF_of_reg (reg_setB_other (by decide) _ _))).trans hstill
  exact hshown.of_headView (headView_endFencedRuns _)

/-! ### Alarms (R506) -/

/-- In the view an ALARM moves its number at most. -/
theorem headView_sendAlarm {w : Bool} (src kind react : Nat) (o : Bool) (c : Nat) (s : State) : ∃ u, (u = s ∨ ∃ v, u = setF Reg.FLT_ALCNT_ASEQ v s) ∧
    headView w (sendAlarm src kind react o c s) = headView w u := by
  have hhomes (l : List Nat) (p : List Word) (t : State) :
      headView w (l.foldl (fun t k => sendHome k .alarm .a 0 p (incSat Reg.FLT_ALCNT_DROP) t) t) = headView w t :=
    headView_foldl _ _ (fun _ _ _ => headView_sendHome _ _ _ _ _ _ (headView_incSat (by decide) _)) t
  unfold sendAlarm
  split
  · exact ⟨s, .inl rfl, rfl⟩
  · refine ⟨_, .inr ⟨getF Reg.FLT_ALCNT_ASEQ s + 1, rfl⟩, ?_⟩
    simp (disch := decide) only [apply_ite (headView w), headView_pushEvent, headView_incSat, hhomes, ite_self]

/-- A field of the view other than the number. -/
theorem getF_sendAlarm_other {f : Field} (hf : f ∈ headFields true) (hn : f.addr ≠ Reg.FLT_ALCNT) (src kind react : Nat) (o : Bool) (c : Nat) (s : State) :
    getF f (sendAlarm src kind react o c s) = getF f s := by
  obtain ⟨u, hu, hview⟩ := headView_sendAlarm (w := true) src kind react o c s
  rw [getF_of_headView hview hf]
  rcases hu with rfl | ⟨v, rfl⟩
  · rfl
  · exact getF_setF_other _ _ _ _ hn

theorem bit_sendAlarm_other {f : Field} (hf : f ∈ headFields true) (hn : f.addr ≠ Reg.FLT_ALCNT) (src kind react : Nat) (o : Bool) (c : Nat) (s : State) :
    bit f (sendAlarm src kind react o c s) = bit f s := by rw [bit, getF_sendAlarm_other hf hn, bit]

theorem SafeOff.sendAlarm {s : State} (h : SafeOff s) (src kind react : Nat) (o : Bool) (c : Nat) : SafeOff (sendAlarm src kind react o c s) :=
  ⟨(bit_sendAlarm_other (by decide) (by decide) ..).trans h.safe, (getF_sendAlarm_other (by decide) (by decide) ..).trans h.on,
    (switching_congr (getF_sendAlarm_other (by decide) (by decide) ..)).trans h.still⟩

/-- Of the fault collector an ALARM can add an event that waits. -/
structure FltGrows (s t : State) : Prop where
  waiting : s.flt.waiting ⊆ t.flt.waiting
  rest : t.flt = { s.flt with waiting := t.flt.waiting }

theorem FltGrows.of_eq {s t : State} (h : t.flt = s.flt) : FltGrows s t := ⟨by rw [h]; exact List.Subset.refl _, by rw [h]⟩

theorem FltGrows.trans {s t u : State} (h : FltGrows s t) (h' : FltGrows t u) : FltGrows s u := by
  refine ⟨List.Subset.trans h.waiting h'.waiting, ?_⟩
  rw [h'.rest, h.rest]

theorem FltGrows.of_ite {c : Prop} [Decidable c] {s t u : State} (ht : FltGrows s t) (hu : FltGrows s u) : FltGrows s (if c then t else u) := by
  split
  · exact ht
  · exact hu

theorem FltGrows.pulse (src : Nat) (s : State) : FltGrows s (pulse src s) := by
  refine ⟨waiting_subset_pulse src s, ?_⟩
  unfold Machine.pulse
  split <;> rfl

theorem FltGrows.roomEvent (s : State) : FltGrows s (roomEvent s) := by
  unfold Machine.roomEvent
  extract_lets n
  exact .of_ite (.of_eq rfl) (.of_eq rfl)

theorem FltGrows.pushEvent (e : EventEntry) (s : State) : FltGrows s (pushEvent e s) := by
  unfold Machine.pushEvent
  refine .of_ite (.of_eq rfl) (.of_ite (.of_eq rfl) ?_)
  extract_lets s1 hst1
  refine (FltGrows.roomEvent s).trans (.of_ite (.of_eq rfl) ?_)
  refine FltGrows.trans ?_ (.pulse 108 _)
  exact .of_eq rfl

theorem FltGrows.sendHome (k : Nat) (p : List Word) (s : State) : FltGrows s (sendHome k .alarm .a 0 p (incSat Reg.FLT_ALCNT_DROP) s) := by
  unfold Machine.sendHome
  split
  · exact .of_eq (Changes.part_eq (Outbound.sendRouted _ s) .flt (by simp))
  · exact .of_eq rfl

theorem FltGrows.sendAlarm (src kind react : Nat) (o : Bool) (c : Nat) (s : State) : FltGrows s (sendAlarm src kind react o c s) := by
  unfold Machine.sendAlarm
  refine .of_ite (.of_eq rfl) ?_
  extract_lets flags p s1 homes drop s2
  have h2 : ∀ (l : List Nat) (t : State), FltGrows t (l.foldl (fun t k => Machine.sendHome k .alarm .a 0 p drop t) t) := by
    intro l
    induction l with
    | nil => exact fun t => .of_eq rfl
    | cons k rest ih => exact fun t => (FltGrows.sendHome k p t).trans (ih _)
  have h1 : FltGrows s s1 := .of_eq rfl
  have hs2 : FltGrows s s2 := h1.trans (h2 homes s1)
  exact .of_ite (hs2.trans (.pushEvent _ _)) (.of_ite (hs2.trans (.of_eq rfl)) hs2)


/-! ### A source becomes severe (R494) -/

theorem assocPut_mem {β : Type} (k : Nat) (v : β) (l : List (Nat × β)) : (k, v) ∈ assocPut k v l := by
  induction l with
  | nil => exact List.mem_singleton_self _
  | cons e rest ih =>
    obtain ⟨a, w⟩ := e
    unfold assocPut
    split
    · exact List.mem_cons_self
    · split
      · next h => exact h ▸ List.mem_cons_self
      · exact List.mem_cons_of_mem _ ih

/-- The reactions in force once a source has become severe. -/
def reacted (src : Nat) (v : State) : State :=
  let svr := takenReaction src (getF (Reg.FLT_CFG_SVR src) v)
  applyReactions (if svr = 2 then noteFenced src (severed src svr v) else severed src svr v)

/-- What follows them: a rein at most, and then, of a source with a reaction, an ALARM. -/
theorem becomeSevere_ends (src c : Nat) (v : State) : ∃ z, headView true z = headView true (reacted src v) ∧ becomeSevere src c v =
    if takenReaction src (getF (Reg.FLT_CFG_SVR src) v) = 0 then z else sendAlarm src 2 (takenReaction src (getF (Reg.FLT_CFG_SVR src) v)) false c z :=
  ⟨if bit (Reg.FLT_CFG_REIN src) v || takenReaction src (getF (Reg.FLT_CFG_SVR src) v) == 4 then
      issueRein v.ft 4 (bit Reg.TBS_CFG_FLTBC (reacted src v)) (reacted src v) else reacted src v,
    by simp only [apply_ite (headView true), headView_issueRein, ite_self], rfl⟩

section
variable {src : Nat} (v : State)

theorem flt_sev_out : Reg.FLT_SEV (src / 32) ∉ headRegs := not_headRegs (by simp only [Reg.FLT_SEV]; omega)

theorem headView_severed {w : Bool} (svr : Nat) : headView w (severed src svr v) = headView w v :=
  (headView_setRegBit flt_sev_out _ _ _).trans (headView_flt ..)

/-- What the reactions find: the source's own among those taken. -/
theorem toReact_view {w : Bool} (svr : Nat) :
    headView w (if svr = 2 then noteFenced src (severed src svr v) else severed src svr v) = headView w v := by
  simp only [apply_ite (headView w), headView_noteFenced, headView_severed v, ite_self]

theorem toReact_react (svr : Nat) :
    (if svr = 2 then noteFenced src (severed src svr v) else severed src svr v).flt.react = assocPut src svr v.flt.react := by
  have hs : (severed src svr v).flt.react = assocPut src svr v.flt.react := by rw [severed_flt]
  split
  · exact (react_of_books (books_noteFenced ..)).trans hs
  · exact hs

theorem calmView_reacted : calmView (reacted src v) = calmView v := by
  unfold reacted
  extract_lets svr
  rw [calmView_applyReactions, calmView_of_headView (toReact_view (w := true) v svr)]

theorem last_becomeSevere (c : Nat) : getF Reg.FLT_STAT_LAST (becomeSevere src c v) = getF Reg.FLT_STAT_LAST v := by
  obtain ⟨z, hz, hends⟩ := becomeSevere_ends src c v
  have hcalm : calmView z = calmView v := (calmView_of_headView hz).trans (calmView_reacted v)
  have hlast : getF Reg.FLT_STAT_LAST z = getF Reg.FLT_STAT_LAST v := getF_of_calmView hcalm (by decide)
  rw [hends]
  split
  · exact hlast
  · exact (last_sendAlarm ..).trans hlast

theorem lines_becomeSevere (c : Nat) :
    (becomeSevere src c v).flt.lines = v.flt.lines ∧ (becomeSevere src c v).flt.railErr = v.flt.railErr := by
  obtain ⟨z, hz, hends⟩ := becomeSevere_ends src c v
  have hcalm : calmView z = calmView v := (calmView_of_headView hz).trans (calmView_reacted v)
  have hl : z.flt.lines = v.flt.lines := congrArg HeadView.lines hcalm
  have hr : z.flt.railErr = v.flt.railErr := congrArg HeadView.railErr hcalm
  rw [hends]
  split
  · exact ⟨hl, hr⟩
  · rw [(FltGrows.sendAlarm ..).rest]
    exact ⟨hl, hr⟩

/-- R506: the ALARM of kind SEVERE. -/
theorem aseq_becomeSevere (c : Nat) (hr : takenReaction src (getF (Reg.FLT_CFG_SVR src) v) ≠ 0)
    (ha : legacyMode v = false ∧ v.hst.spi ≠ 1) : getF Reg.FLT_ALCNT_ASEQ (becomeSevere src c v) = (getF Reg.FLT_ALCNT_ASEQ v + 1) % 65536 := by
  obtain ⟨z, hz, hends⟩ := becomeSevere_ends src c v
  have hcalm : calmView z = calmView v := (calmView_of_headView hz).trans (calmView_reacted v)
  have haseq : getF Reg.FLT_ALCNT_ASEQ z = getF Reg.FLT_ALCNT_ASEQ v := getF_of_calmView hcalm (by decide)
  have hlegacy : legacyMode z = legacyMode v := by rw [legacyMode, bit, getF_of_calmView hcalm (by decide), legacyMode, bit]
  have hspi : z.hst.spi = v.hst.spi := congrArg HeadView.spi hcalm
  rw [hends, if_neg hr, getF_sendAlarm besideDrop_aseq _ _ _ _ _ ⟨hlegacy.trans ha.1, hspi ▸ ha.2⟩, haseq]
  exact getF_setF_same _ _ _ (by decide)

/-- The bits that fences and degraded running show stand after the rein and the ALARM. -/
theorem bit_becomeSevere {f : Field} (hf : f ∈ headFields true) (hn : f.addr ≠ Reg.FLT_ALCNT) (c : Nat) :
    bit f (becomeSevere src c v) = bit f (reacted src v) := by
  obtain ⟨z, hz, hends⟩ := becomeSevere_ends src c v
  rw [hends]
  split
  · exact bit_of_headView hz hf
  · exact (bit_sendAlarm_other hf hn ..).trans (bit_of_headView hz hf)

/-- R499: a fence under source 66. -/
theorem imp_becomeSevere (c : Nat) (hs : takenReaction 66 (getF (Reg.FLT_CFG_SVR 66) v) = 2) :
    bit Reg.FLT_FENCE0_IMP (becomeSevere 66 c v) = true ∧ bit Reg.FLT_STAT_FENCED (becomeSevere 66 c v) = true := by
  have himp : bit Reg.FLT_FENCE0_IMP (reacted 66 v) = true := by
    rw [reacted, imp_applyReactions]
    have hreact : (applyCellFences (if takenReaction 66 (getF (Reg.FLT_CFG_SVR 66) v) = 2
        then noteFenced 66 (severed 66 (takenReaction 66 (getF (Reg.FLT_CFG_SVR 66) v)) v)
        else severed 66 (takenReaction 66 (getF (Reg.FLT_CFG_SVR 66) v)) v)).flt.react = assocPut 66 2 v.flt.react := by
      rw [react_of_books (books_applyCellFences _), toReact_react, hs]
    rw [anyFences, List.any_cons, fencedBy, hreact, assoc_assocPut, if_pos rfl]
    rfl
  have hfenced : bit Reg.FLT_STAT_FENCED (reacted 66 v) = true := fenced_applyReactions himp
  rw [bit_becomeSevere v (by decide) (by decide), bit_becomeSevere v (by decide) (by decide)]
  exact ⟨himp, hfenced⟩

/-- R501: degraded running under a source of the converter. -/
theorem degr_becomeSevere (c : Nat) (hs : takenReaction src (getF (Reg.FLT_CFG_SVR src) v) = 3) (hd : degradesCnv src = true) :
    bit Reg.CNV_STAT_DEGR (becomeSevere src c v) = !bit Reg.FLT_FENCE0_CNV (becomeSevere src c v) := by
  rw [bit_becomeSevere v (by decide) (by decide), bit_becomeSevere v (by decide) (by decide), reacted, degr_applyReactions, cnv_applyReactions,
    degradeStands, react_of_books (books_fencesApplied _), toReact_react, hs]
  have hany : (assocPut src 3 v.flt.react).any (fun e => e.2 == 3 && degradesCnv e.1) = true :=
    List.any_eq_true.2 ⟨_, assocPut_mem .., by simp [hd]⟩
  rw [hany, Bool.true_and]

/-- R502: the safe state. -/
theorem safe_becomeSevere (c : Nat) (hs : takenReaction src (getF (Reg.FLT_CFG_SVR src) v) = 4) (hsafe : bit Reg.FLT_STAT_SAFE v = false) :
    SafeOff (becomeSevere src c v) := by
  have hreacted : SafeOff (reacted src v) := by
    refine safeOff_applyReactions ?_ ?_
    · rw [toReact_react, hs]
      exact List.any_eq_true.2 ⟨_, assocPut_mem .., rfl⟩
    · exact (bit_of_headView (toReact_view (w := true) v _) (by decide)).trans hsafe
  obtain ⟨z, hz, hends⟩ := becomeSevere_ends src c v
  rw [hends]
  split
  · exact hreacted.of_headView hz
  · exact (hreacted.of_headView hz).sendAlarm ..

end

end Sys2Proof.Machine
end

