-- ==== Sys2Proof/Proofs/SourceEvents.lean ====
section
/-!
PROOFS. Events of sources that count, and rail errors (R488 to R494, R506, R508, R419).
-/
namespace Sys2Proof.Machine

/-! ### One event in the collector (R490, R492, R493) -/

section
variable {n : Nat} {s t u : State}

theorem nextCount_of (hc : t.flt.counts = s.flt.counts) (hn : t.now = s.now) (hw : getF (Reg.FLT_CFG_WIN n) t = getF (Reg.FLT_CFG_WIN n) s) :
    nextCount n t = nextCount n s := by rw [nextCount, nextCount, hc, hw, moscTime, moscTime, hn]

/-- An event that enters the count and the sticky bit alone. -/
theorem countEvent_silent (he : bit (Reg.FLT_CFG_EN n) u = true) (hs : srcBit Reg.FLT_SEV n u = false) (hn : (nextCount n u).1 < getF (Reg.FLT_CFG_N n) u)
    (hevi : bit (Reg.FLT_CFG_EVI n) u = false) : countEvent n u = counted n u := by
  unfold countEvent
  rw [if_pos he]
  simp only [hs, hevi, Nat.not_le.2 hn, Bool.false_eq_true, if_false]
  rfl

theorem countEvent_alarms (he : bit (Reg.FLT_CFG_EN n) u = true) (hs : srcBit Reg.FLT_SEV n u = false) (hn : (nextCount n u).1 < getF (Reg.FLT_CFG_N n) u)
    (hevi : bit (Reg.FLT_CFG_EVI n) u = true) : countEvent n u = eventAlarm n false (nextCount n u).1 (counted n u) := by
  unfold countEvent
  rw [if_pos he]
  simp only [hs, hevi, Nat.not_le.2 hn, Bool.false_eq_true, if_false, if_true]
  rfl

/-- A source that is severe already: what its fence covers may grow (R290). -/
theorem countEvent_again (he : bit (Reg.FLT_CFG_EN n) u = true) (hs : srcBit Reg.FLT_SEV n u = true) :
    countEvent n u = if fencedBy n u && natMem n [79, 80, 82] then applyReactions (noteFenced n (counted n u)) else counted n u := by
  unfold countEvent
  rw [if_pos he]
  simp only [hs, if_true]
  rfl

theorem countEvent_off (he : bit (Reg.FLT_CFG_EN n) u = false) : countEvent n u = u := if_neg (by rw [he]; decide)

/-- What an event that counts leads to. -/
theorem countEvent_cases (he : bit (Reg.FLT_CFG_EN n) u = true) : countEvent n u = counted n u ∨ countEvent n u = applyReactions (noteFenced n (counted n u)) ∨
    (∃ c, countEvent n u = becomeSevere n c (counted n u)) ∨ ∃ c, countEvent n u = eventAlarm n false c (counted n u) := by
  cases hs : srcBit Reg.FLT_SEV n u with
  | true =>
    rw [countEvent_again he hs]
    split
    · exact .inr (.inl rfl)
    · exact .inl rfl
  | false =>
    by_cases hn : getF (Reg.FLT_CFG_N n) u ≤ (nextCount n u).1
    · exact .inr (.inr (.inl ⟨_, countEvent_severe he hs hn⟩))
    · cases hevi : bit (Reg.FLT_CFG_EVI n) u with
      | false => exact .inl (countEvent_silent he hs (Nat.lt_of_not_le hn) hevi)
      | true => exact .inr (.inr (.inr ⟨_, countEvent_alarms he hs (Nat.lt_of_not_le hn) hevi⟩))

theorem calmView_again (n : Nat) (u : State) : calmView (applyReactions (noteFenced n u)) = calmView u :=
  (calmView_applyReactions _).trans (calmView_of_headView (headView_noteFenced (w := true) n u))

theorem last_countEvent (h : n < 128) (he : bit (Reg.FLT_CFG_EN n) u = true) : getF Reg.FLT_STAT_LAST (countEvent n u) = n := by
  have hlast : getF Reg.FLT_STAT_LAST (counted n u) = n := getF_logged_last h _ u
  rcases countEvent_cases he with hc | hc | ⟨c, hc⟩ | ⟨c, hc⟩
  · rw [hc, hlast]
  · rw [hc, getF_of_calmView (calmView_again n _) (by decide), hlast]
  · rw [hc, last_becomeSevere, hlast]
  · rw [hc, last_eventAlarm, hlast]

/-- The books after an event: the count with the sticky bit, and a severe bit with its reaction where the count has reached N. -/
theorem books_event (he : bit (Reg.FLT_CFG_EN n) u = true) :
    books (countEvent n u) = books (counted n u) ∨ ∃ svr, books (countEvent n u) = books (severed n svr (counted n u)) := by
  rcases countEvent_cases he with hc | hc | ⟨c, hc⟩ | ⟨c, hc⟩
  · exact .inl (by rw [hc])
  · exact .inl (by rw [hc, books_applyReactions, books_noteFenced])
  · exact .inr ⟨_, by rw [hc, books_becomeSevere]⟩
  · exact .inl (by rw [hc, books_eventAlarm])

/-- A source register other than the sticky and the severe bits. -/
theorem reg_countEvent {a : Nat} (ha : sourceReg a = true) (hstk : a ≠ Reg.FLT_STK (n / 32)) (hsev : a ≠ Reg.FLT_SEV (n / 32)) (u : State) :
    reg (countEvent n u) a = reg u a := by
  have hstat : a ≠ Reg.FLT_STAT := fun h => by rw [h] at ha; exact absurd ha (by decide)
  cases he : bit (Reg.FLT_CFG_EN n) u with
  | false => rw [countEvent_off he]
  | true =>
    rcases books_event he with h | ⟨svr, h⟩
    · rw [reg_of_books h ha, counted, reg_logged hstat hstk]
    · rw [reg_of_books h ha, reg_severed hsev, counted, reg_logged hstat hstk]

/-- The condition lines and the rail errors. -/
def conditions (s : State) : List Nat × List Nat := (s.flt.lines, s.flt.railErr)

theorem conditions_of_calmView (h : calmView t = calmView s) : conditions t = conditions s :=
  Prod.ext (congrArg HeadView.lines h) (congrArg HeadView.railErr h)

theorem conditions_sendAlarm (src kind react : Nat) (o : Bool) (c : Nat) (s : State) : conditions (sendAlarm src kind react o c s) = conditions s := by
  rw [conditions, (FltGrows.sendAlarm ..).rest, conditions]

theorem conditions_eventAlarm (src : Nat) (o : Bool) (c : Nat) (s : State) : conditions (eventAlarm src o c s) = conditions s := by
  unfold eventAlarm
  split
  · split
    · rfl
    · exact conditions_sendAlarm ..
  · exact conditions_sendAlarm ..

theorem conditions_countEvent (n : Nat) (u : State) : conditions (countEvent n u) = conditions u := by
  have hcounted : conditions (counted n u) = conditions u := by
    rw [conditions, counted, logged_flt]
    rfl
  cases he : bit (Reg.FLT_CFG_EN n) u with
  | false => rw [countEvent_off he]
  | true =>
    rcases countEvent_cases he with hc | hc | ⟨c, hc⟩ | ⟨c, hc⟩
    · rw [hc, hcounted]
    · rw [hc, conditions_of_calmView (calmView_again n _), hcounted]
    · rw [hc, conditions, (lines_becomeSevere _ c).1, (lines_becomeSevere _ c).2]
      exact hcounted
    · rw [hc, conditions_eventAlarm, hcounted]

end

/-! ### The event of a source, accepted -/

/-- The event that waits is taken, and FLT_ACT shows its source (R490). -/
def eventShown (n : Nat) (s : State) : State := showActive n { s with flt := { s.flt with waiting := s.flt.waiting.erase n } }

theorem Changes.eventShown (n : Nat) (s : State) : Changes [.flt] (· = Reg.FLT_ACT (n / 32)) s (eventShown n s) :=
  ((Changes.withFlt s { s.flt with waiting := s.flt.waiting.erase n }).trans (.setRegBit _ _ _ _)).mono (by simp) (by simp)

theorem flt_eventShown (n : Nat) (s : State) : (eventShown n s).flt = { s.flt with waiting := s.flt.waiting.erase n } := by
  simp only [eventShown, showActive, setSrc, setRegBit_flt]

theorem act_eventShown (n : Nat) (s : State) : srcBit Reg.FLT_ACT n (eventShown n s) = (natMem n s.flt.lines || natMem n s.flt.railErr) :=
  srcBit_setSrc_same ..

/-- Where the collector hears a source (R488, R489). -/
def Heard (n : Fin 128) (s : State) : Prop := collectorRuns s = true ∧ unusedSource n = false ∧ muted n s = false

/-- What every counted event leaves (R492). -/
def Noted (n : Fin 128) (s t : State) : Prop := srcBit Reg.FLT_STK n t = true ∧ getF Reg.FLT_STAT_LAST t = n.val ∧
  assoc n.val t.flt.counts = some (nextCount n s) ∧ srcBit Reg.FLT_ACT n t = (natMem n s.flt.lines || natMem n s.flt.railErr)

section
variable {n : Fin 128} {s : State}

theorem getF_eventShown {f : Field} (h : f.addr ≠ Reg.FLT_ACT (n.val / 32)) (s : State) : getF f (eventShown n s) = getF f s :=
  getF_of_reg ((Changes.eventShown n s).reg_eq h)

theorem bit_eventShown {f : Field} (h : f.addr ≠ Reg.FLT_ACT (n.val / 32)) (s : State) : bit f (eventShown n s) = bit f s := by
  rw [bit, getF_eventShown h, bit]

theorem cfg_out (n : Fin 128) : Reg.FLT_CFG n ≠ Reg.FLT_ACT (n.val / 32) := by simp only [Reg.FLT_CFG, Reg.FLT_ACT]; omega

theorem head_out {a : Nat} (h : a ∈ headRegs) (n : Fin 128) : a ≠ Reg.FLT_ACT (n.val / 32) := by
  rintro rfl
  exact absurd h (not_headRegs (by simp only [Reg.FLT_ACT]; omega))

theorem sev_eventShown (n : Fin 128) (s : State) : srcBit Reg.FLT_SEV n (eventShown n s) = srcBit Reg.FLT_SEV n s :=
  srcBit_of_reg ((Changes.eventShown n s).reg_eq (by simp only [Reg.FLT_SEV, Reg.FLT_ACT]; omega))

theorem nextCount_eventShown (n : Fin 128) (s : State) : nextCount n (eventShown n s) = nextCount n s :=
  nextCount_of (by rw [flt_eventShown]) ((Changes.eventShown n s).part_eq .now (by simp)) (getF_eventShown (cfg_out n) s)

theorem exec_sourceEvent (h : Heard n s) (e : Option (Fin 1023)) : exec (.sourceEvent n e) s =
    .next (acceptEvent n { (failParity n e s) with flt := { s.flt with waiting := s.flt.waiting.erase n } }) := by
  obtain ⟨hr, hu, hm⟩ := h
  exact if_neg (by rw [hr, hu, hm]; decide)

theorem exec_event (h : Heard n s) (hi : injecting n s = false) : exec (.sourceEvent n none) s = .next (countEvent n (eventShown n s)) := by
  rw [exec_sourceEvent h]
  have hi' : injecting n { s with flt := { s.flt with waiting := s.flt.waiting.erase n } } = false := hi
  rw [failParity, acceptEvent, hi', if_neg Bool.false_ne_true]
  rfl

theorem noted_countEvent (he : bit (Reg.FLT_CFG_EN n) s = true) : Noted n s (countEvent n (eventShown n s)) := by
  have he' : bit (Reg.FLT_CFG_EN n) (eventShown n s) = true := (bit_eventShown (cfg_out n) s).trans he
  have hword : n.val / 32 < 4 := by omega
  have hcount : (counted n (eventShown n s)).flt.counts = assocPut n.val (nextCount n s) s.flt.counts := by
    rw [counted, logged_flt, nextCount_eventShown, flt_eventShown]
  refine ⟨?_, last_countEvent n.isLt he', ?_, ?_⟩
  · have hstk : srcBit Reg.FLT_STK n (counted n (eventShown n s)) = true := srcBit_logged ..
    rcases books_event he' with h | ⟨svr, h⟩
    · exact (srcBit_of_books h (sourceReg_stk hword)).trans hstk
    · have hne : Reg.FLT_STK (n.val / 32) ≠ Reg.FLT_SEV (n.val / 32) := by simp only [Reg.FLT_STK, Reg.FLT_SEV]; omega
      exact (srcBit_of_books h (sourceReg_stk hword)).trans ((srcBit_of_reg (reg_severed hne _ _)).trans hstk)
  · have hcounts : (countEvent n (eventShown n s)).flt.counts = assocPut n.val (nextCount n s) s.flt.counts := by
      rcases books_event he' with h | ⟨svr, h⟩
      · exact (counts_of_books h).trans hcount
      · rw [counts_of_books h, severed_flt]
        exact hcount
    rw [hcounts, assoc_assocPut, if_pos rfl]
  · have hact : reg (countEvent n (eventShown n s)) (Reg.FLT_ACT (n.val / 32)) = reg (eventShown n s) (Reg.FLT_ACT (n.val / 32)) :=
      reg_countEvent (sourceReg_act hword) (by simp only [Reg.FLT_ACT, Reg.FLT_STK]; omega) (by simp only [Reg.FLT_ACT, Reg.FLT_SEV]; omega) _
    exact (srcBit_of_reg hact).trans (act_eventShown n s)

end


section
variable {n : Fin 128} {s : State}

/-! ### Events below the count that makes severe (R492, R506) -/

theorem Changes.counted (n : Nat) (u : State) : Changes [.flt] (oneOf [Reg.FLT_STK (n / 32), Reg.FLT_STAT]) u (counted n u) :=
  (((Changes.withFlt u _).trans (.setRegBit (Reg.FLT_STK (n / 32)) (n % 32) true _)).trans (.setF Reg.FLT_STAT_LAST n _)).mono (by simp)
    (by simp [oneOf, Reg.FLT_STAT_LAST])

/-- The count of an event, after FLT_ACT. -/
def eventCounted (n : Nat) (s : State) : State := counted n (eventShown n s)

theorem Changes.eventCounted (n : Nat) (s : State) :
    Changes [.flt] (oneOf [Reg.FLT_STK (n / 32), Reg.FLT_ACT (n / 32), Reg.FLT_STAT]) s (eventCounted n s) :=
  ((Changes.eventShown n s).trans (.counted n _)).mono (by simp) (fun a ha => by
    simp only [oneOf, List.mem_cons, List.not_mem_nil, or_false] at ha ⊢
    omega)

theorem flt_eventCounted (n : Fin 128) (s : State) : (eventCounted n s).flt =
    { s.flt with waiting := s.flt.waiting.erase n, counts := assocPut n.val (nextCount n s) s.flt.counts } := by
  rw [eventCounted, counted, logged_flt, nextCount_eventShown, flt_eventShown]

theorem getF_eventCounted {f : Field} (h : f.addr ∉ [Reg.FLT_STK (n.val / 32), Reg.FLT_ACT (n.val / 32), Reg.FLT_STAT]) :
    getF f (eventCounted n s) = getF f s := getF_of_reg ((Changes.eventCounted n s).reg_other h)

theorem cfg_regs_out (n : Fin 128) : Reg.FLT_CFG n ∉ [Reg.FLT_STK (n.val / 32), Reg.FLT_ACT (n.val / 32), Reg.FLT_STAT] := by
  simp only [Reg.FLT_CFG, Reg.FLT_STK, Reg.FLT_ACT, Reg.FLT_STAT, List.mem_cons, List.not_mem_nil, or_false]
  omega

theorem head_regs_out {a : Nat} (h : a = Reg.FLT_ALCNT ∨ a = Reg.LNK_STAT) (n : Fin 128) :
    a ∉ [Reg.FLT_STK (n.val / 32), Reg.FLT_ACT (n.val / 32), Reg.FLT_STAT] := by
  rcases h with rfl | rfl <;>
    simp only [Reg.FLT_ALCNT, Reg.LNK_STAT, Reg.FLT_STK, Reg.FLT_ACT, Reg.FLT_STAT, List.mem_cons, List.not_mem_nil, or_false] <;> omega

/-- An event of a source of which one counts (R492). -/
structure Counts (n : Fin 128) (s : State) : Prop where
  heard : Heard n s
  real : injecting n s = false
  on : bit (Reg.FLT_CFG_EN n) s = true

theorem Counts.exec (h : Counts n s) : exec (.sourceEvent n none) s = .next (countEvent n (eventShown n s)) := exec_event h.heard h.real

/-- One that leaves its source below the count that makes it severe. -/
structure Mild (n : Fin 128) (s : State) : Prop extends Counts n s where
  sev : srcBit Reg.FLT_SEV n s = false
  below : (nextCount n s).1 < getF (Reg.FLT_CFG_N n) s

/-- One that makes its source severe. -/
structure Severe (n : Fin 128) (s : State) : Prop extends Counts n s where
  sev : srcBit Reg.FLT_SEV n s = false
  reached : getF (Reg.FLT_CFG_N n) s ≤ (nextCount n s).1

theorem Counts.shownOn (h : Counts n s) : bit (Reg.FLT_CFG_EN n) (eventShown n s) = true := (bit_eventShown (cfg_out n) s).trans h.on

theorem Mild.silent (h : Mild n s) (hevi : bit (Reg.FLT_CFG_EVI n) s = false) : countEvent n (eventShown n s) = eventCounted n s :=
  countEvent_silent h.shownOn ((sev_eventShown n s).trans h.sev)
    (by rw [nextCount_eventShown, getF_eventShown (f := Reg.FLT_CFG_N n) (cfg_out n)]; exact h.below) ((bit_eventShown (cfg_out n) s).trans hevi)

theorem Mild.alarms (h : Mild n s) (hevi : bit (Reg.FLT_CFG_EVI n) s = true) :
    countEvent n (eventShown n s) = eventAlarm n false (nextCount n (eventShown n s)).1 (eventCounted n s) :=
  countEvent_alarms h.shownOn ((sev_eventShown n s).trans h.sev)
    (by rw [nextCount_eventShown, getF_eventShown (f := Reg.FLT_CFG_N n) (cfg_out n)]; exact h.below) ((bit_eventShown (cfg_out n) s).trans hevi)

/-- R506: a source whose last ALARM of kind EVENT is less than 1 ms past. -/
def Recent (n : Fin 128) (s : State) : Prop := (assoc n.val s.flt.alarmed).any (fun u => decide (s.now < u + ms)) = true

theorem Recent.of_eq {u : State} (hf : u.flt.alarmed = s.flt.alarmed) (hn : u.now = s.now) : Recent n u ↔ Recent n s := by
  rw [Recent, Recent, hf, hn]

theorem eventAlarm_recent {u : State} (h : Recent n u) (o : Bool) (c : Nat) : eventAlarm n o c u = u := by
  unfold Recent at h
  unfold eventAlarm
  split
  · next t ht =>
    rw [ht, Option.any_some, decide_eq_true_eq] at h
    exact if_pos h
  · next ht =>
    rw [ht, Option.any_none] at h
    exact absurd h (by decide)

/-- The time of the ALARM is kept. -/
def alarmNoted (n : Nat) (u : State) : State := { u with flt := { u.flt with alarmed := assocPut n u.now u.flt.alarmed } }

theorem eventAlarm_due {u : State} (h : ¬ Recent n u) (o : Bool) (c : Nat) : eventAlarm n o c u = sendAlarm n 1 0 o c (alarmNoted n u) := by
  unfold Recent at h
  unfold eventAlarm
  split
  · next t ht =>
    rw [ht, Option.any_some, decide_eq_true_eq] at h
    exact if_neg h
  · rfl

theorem mild_silent (h : Mild n s) (hevi : bit (Reg.FLT_CFG_EVI n) s = false) : ∃ t, exec (.sourceEvent n none) s = .next t ∧ Noted n s t ∧
    t.flt.react = s.flt.react ∧ Changes [.flt] (oneOf [Reg.FLT_STK (n.val / 32), Reg.FLT_ACT (n.val / 32), Reg.FLT_STAT]) s t := by
  refine ⟨_, h.exec, noted_countEvent h.on, ?_, ?_⟩
  · rw [h.silent hevi, flt_eventCounted]
  · rw [h.silent hevi]
    exact .eventCounted n s

theorem mild_recent (h : Mild n s) (hevi : bit (Reg.FLT_CFG_EVI n) s = true) (hr : Recent n s) : ∃ t, exec (.sourceEvent n none) s = .next t ∧ Noted n s t ∧
    t.flt.react = s.flt.react ∧ t.flt.alarmed = s.flt.alarmed ∧
    Changes [.flt] (oneOf [Reg.FLT_STK (n.val / 32), Reg.FLT_ACT (n.val / 32), Reg.FLT_STAT]) s t := by
  have hrecent : Recent n (eventCounted n s) :=
    (Recent.of_eq (by rw [flt_eventCounted]) ((Changes.eventCounted n s).part_eq .now (by simp))).2 hr
  have hend : countEvent n (eventShown n s) = eventCounted n s := (h.alarms hevi).trans (eventAlarm_recent hrecent ..)
  refine ⟨_, h.exec, noted_countEvent h.on, ?_, ?_, ?_⟩
  · rw [hend, flt_eventCounted]
  · rw [hend, flt_eventCounted]
  · rw [hend]
    exact .eventCounted n s

theorem mild_alarm (h : Mild n s) (hevi : bit (Reg.FLT_CFG_EVI n) s = true) (ha : legacyMode s = false ∧ s.hst.spi ≠ 1) (hr : ¬ Recent n s) :
    ∃ t, exec (.sourceEvent n none) s = .next t ∧ Noted n s t ∧ getF Reg.FLT_ALCNT_ASEQ t = (getF Reg.FLT_ALCNT_ASEQ s + 1) % 65536 ∧
    t.flt.react = s.flt.react ∧ assoc n.val t.flt.alarmed = some s.now ∧ t.pending = s.pending := by
  have hchg := Changes.eventCounted n s
  have hnow : (eventCounted n s).now = s.now := hchg.part_eq .now (by simp)
  have hrecent : ¬ Recent n (eventCounted n s) := fun hc => hr ((Recent.of_eq (by rw [flt_eventCounted]) hnow).1 hc)
  have hend := (h.alarms hevi).trans (eventAlarm_due hrecent false _)
  have hsends : legacyMode (alarmNoted n (eventCounted n s)) = false ∧ (alarmNoted n (eventCounted n s)).hst.spi ≠ 1 := by
    refine ⟨?_, ?_⟩
    · have hlegacy : bit Reg.LNK_STAT_LEGACY (eventCounted n s) = bit Reg.LNK_STAT_LEGACY s := by
        rw [bit, getF_eventCounted (head_regs_out (.inr rfl) n), bit]
      exact hlegacy.trans ha.1
    · have hspi : (eventCounted n s).hst = s.hst := hchg.part_eq .hst (by simp)
      exact fun h1 => ha.2 (hspi ▸ h1)
  have haseq : getF Reg.FLT_ALCNT_ASEQ (alarmNoted n (eventCounted n s)) = getF Reg.FLT_ALCNT_ASEQ s :=
    getF_eventCounted (f := Reg.FLT_ALCNT_ASEQ) (head_regs_out (.inl rfl) n)
  have hflt := (FltGrows.sendAlarm n 1 0 false (nextCount n (eventShown n s)).1 (alarmNoted n (eventCounted n s))).rest
  refine ⟨_, h.exec, noted_countEvent h.on, ?_, ?_, ?_, pending_exec h.exec⟩
  · rw [hend, getF_sendAlarm besideDrop_aseq _ _ _ _ _ hsends, haseq]
    exact getF_setF_same _ _ _ (by decide)
  · rw [hend, hflt, alarmNoted, flt_eventCounted]
  · rw [hend, hflt, alarmNoted, hnow]
    exact (assoc_assocPut ..).trans (if_pos rfl)

/-! ### Events that make a source severe, and those of a severe source (R494) -/

theorem Severe.becomes (h : Severe n s) : countEvent n (eventShown n s) = becomeSevere n (nextCount n (eventShown n s)).1 (eventCounted n s) :=
  countEvent_severe h.shownOn ((sev_eventShown n s).trans h.sev)
    (by rw [nextCount_eventShown, getF_eventShown (f := Reg.FLT_CFG_N n) (cfg_out n)]; exact h.reached)

theorem svr_eventCounted (n : Fin 128) (s : State) : getF (Reg.FLT_CFG_SVR n) (eventCounted n s) = getF (Reg.FLT_CFG_SVR n) s :=
  getF_eventCounted (cfg_regs_out n)

/-- What every event that makes its source severe leaves. -/
def Reacted (n : Fin 128) (s t : State) : Prop := Noted n s t ∧ srcBit Reg.FLT_SEV n t = true ∧
  t.flt.react = assocPut n.val (takenReaction n (getF (Reg.FLT_CFG_SVR n) s)) s.flt.react ∧ t.pending = s.pending

theorem Severe.reacted (h : Severe n s) : Reacted n s (countEvent n (eventShown n s)) := by
  have hword : n.val / 32 < 4 := by omega
  refine ⟨noted_countEvent h.on, ?_, ?_, pending_exec h.exec⟩
  · rw [h.becomes, srcBit_of_books (books_becomeSevere ..) (sourceReg_sev hword)]
    exact srcBit_setSrc_same ..
  · rw [h.becomes, react_of_books (books_becomeSevere ..), severed_flt, svr_eventCounted, flt_eventCounted]

theorem severe_alarm (h : Severe n s) (hr : takenReaction n (getF (Reg.FLT_CFG_SVR n) s) = 1) (ha : legacyMode s = false ∧ s.hst.spi ≠ 1) :
    getF Reg.FLT_ALCNT_ASEQ (countEvent n (eventShown n s)) = (getF Reg.FLT_ALCNT_ASEQ s + 1) % 65536 := by
  have hchg := Changes.eventCounted n s
  have hlegacy : legacyMode (eventCounted n s) = legacyMode s := by
    rw [legacyMode, bit, getF_eventCounted (head_regs_out (.inr rfl) n), legacyMode, bit]
  have hspi : (eventCounted n s).hst = s.hst := hchg.part_eq .hst (by simp)
  have haseq : getF Reg.FLT_ALCNT_ASEQ (eventCounted n s) = getF Reg.FLT_ALCNT_ASEQ s := getF_eventCounted (head_regs_out (.inl rfl) n)
  rw [h.becomes, aseq_becomeSevere _ _ (by rw [svr_eventCounted, hr]; decide) ⟨hlegacy.trans ha.1, by rw [hspi]; exact ha.2⟩, haseq]

theorem severe_imp (h66 : n.val = 66) (h : Severe n s) (hr : getF (Reg.FLT_CFG_SVR n) s = 2) :
    bit Reg.FLT_FENCE0_IMP (countEvent n (eventShown n s)) = true ∧ bit Reg.FLT_STAT_FENCED (countEvent n (eventShown n s)) = true := by
  obtain rfl : n = 66 := Fin.ext h66
  have htaken : takenReaction 66 (getF (Reg.FLT_CFG_SVR 66) (eventCounted 66 s)) = 2 := by
    have hsvr : getF (Reg.FLT_CFG_SVR 66) (eventCounted 66 s) = 2 := (svr_eventCounted 66 s).trans hr
    rw [hsvr]
    decide
  rw [h.becomes]
  exact imp_becomeSevere _ _ htaken

theorem severe_degr (h : Severe n s) (hr : getF (Reg.FLT_CFG_SVR n) s = 3) (hd : degradesCnv n = true) :
    bit Reg.CNV_STAT_DEGR (countEvent n (eventShown n s)) = !bit Reg.FLT_FENCE0_CNV (countEvent n (eventShown n s)) := by
  have htaken : takenReaction n (getF (Reg.FLT_CFG_SVR n) (eventCounted n s)) = 3 := by
    rw [svr_eventCounted, hr]
    simp [takenReaction, hd]
  rw [h.becomes]
  exact degr_becomeSevere _ _ htaken hd

theorem severe_safe (h : Severe n s) (hr : getF (Reg.FLT_CFG_SVR n) s = 4) (hs : bit Reg.FLT_STAT_SAFE s = false) :
    SafeOff (countEvent n (eventShown n s)) := by
  have htaken : takenReaction n (getF (Reg.FLT_CFG_SVR n) (eventCounted n s)) = 4 := by
    rw [svr_eventCounted, hr]
    rfl
  have hsafe : bit Reg.FLT_STAT_SAFE (eventCounted n s) = false := by
    have hshown : bit Reg.FLT_STAT_SAFE (eventShown n s) = bit Reg.FLT_STAT_SAFE s := bit_eventShown (head_out (by decide) n) s
    have hstk : Reg.FLT_STAT ≠ Reg.FLT_STK (n.val / 32) := by simp only [Reg.FLT_STAT, Reg.FLT_STK]; omega
    rw [eventCounted, counted, logged, bit_setF_beside (by decide) (by decide), bit_of_reg (reg_setRegBit_other hstk _ _ _)]
    exact hshown.trans hs
  rw [h.becomes]
  exact safe_becomeSevere _ _ htaken hsafe

/-- A severe source takes no other reaction (R496). -/
theorem again_noted (h : Counts n s) (hs : srcBit Reg.FLT_SEV n s = true) : srcBit Reg.FLT_SEV n (countEvent n (eventShown n s)) = true ∧
    (countEvent n (eventShown n s)).flt.react = s.flt.react ∧
    (n.val ∉ [79, 80, 82] → Changes [.flt] (oneOf [Reg.FLT_STK (n.val / 32), Reg.FLT_ACT (n.val / 32), Reg.FLT_STAT]) s (countEvent n (eventShown n s))) := by
  have hs' : srcBit Reg.FLT_SEV n (eventShown n s) = true := (sev_eventShown n s).trans hs
  have hbooks : books (countEvent n (eventShown n s)) = books (eventCounted n s) := books_countEvent h.shownOn (.inl hs')
  have hout : Reg.FLT_SEV (n.val / 32) ∉ [Reg.FLT_STK (n.val / 32), Reg.FLT_ACT (n.val / 32), Reg.FLT_STAT] := by
    simp only [Reg.FLT_SEV, Reg.FLT_STK, Reg.FLT_ACT, Reg.FLT_STAT, List.mem_cons, List.not_mem_nil, or_false]
    omega
  refine ⟨?_, ?_, fun hn => ?_⟩
  · rw [srcBit_of_books hbooks (sourceReg_sev (by omega)), srcBit_of_reg ((Changes.eventCounted n s).reg_other hout), hs]
  · rw [react_of_books hbooks, flt_eventCounted]
  · have hmem : natMem n [79, 80, 82] = false := by rw [← Bool.not_eq_true, natMem_iff]; exact hn
    rw [countEvent_again h.shownOn hs', hmem, Bool.and_false, if_neg Bool.false_ne_true]
    exact .eventCounted n s

/-! ### Events that do not count (R492, R508) -/

theorem event_off (h : Heard n s) (hi : injecting n s = false) (he : bit (Reg.FLT_CFG_EN n) s = false) : ∃ t, exec (.sourceEvent n none) s = .next t ∧
    srcBit Reg.FLT_ACT n t = (natMem n s.flt.lines || natMem n s.flt.railErr) ∧
    t.flt = { s.flt with waiting := s.flt.waiting.erase n.val } ∧ Changes [.flt] (oneOf [Reg.FLT_ACT (n.val / 32)]) s t := by
  have hoff : countEvent n (eventShown n s) = eventShown n s := countEvent_off ((bit_eventShown (cfg_out n) s).trans he)
  refine ⟨_, exec_event h hi, ?_, ?_, ?_⟩
  · rw [hoff, act_eventShown]
  · rw [hoff, flt_eventShown]
  · rw [hoff]
    exact (Changes.eventShown n s).mono (by simp) (by simp [oneOf])

theorem event_injected (h : Heard n s) (hi : injecting n s = true) (he : bit (Reg.FLT_CFG_EN n) s = false) : ∃ t, exec (.sourceEvent n none) s = .next t ∧
    srcBit Reg.FLT_ACT n t = (natMem n s.flt.lines || natMem n s.flt.railErr) ∧ bit Reg.FLT_INJSTAT_REAL t = true ∧
    t.flt = { s.flt with waiting := s.flt.waiting.erase n.val } ∧ Changes [.flt] (oneOf [Reg.FLT_ACT (n.val / 32), Reg.FLT_INJSTAT]) s t := by
  have hreal := Changes.setB Reg.FLT_INJSTAT_REAL true s
  have hchg := Changes.eventShown n (setB Reg.FLT_INJSTAT_REAL true s)
  have hinj : Reg.FLT_INJSTAT ≠ Reg.FLT_ACT (n.val / 32) := by simp only [Reg.FLT_INJSTAT, Reg.FLT_ACT]; omega
  have hcfg : Reg.FLT_CFG n ≠ Reg.FLT_INJSTAT := by simp only [Reg.FLT_CFG, Reg.FLT_INJSTAT]; omega
  have hoff : bit (Reg.FLT_CFG_EN n) (eventShown n (setB Reg.FLT_INJSTAT_REAL true s)) = false :=
    ((bit_eventShown (cfg_out n) _).trans (bit_of_reg (reg_setB_other hcfg _ _))).trans he
  have hnext : exec (.sourceEvent n none) s = .next (eventShown n (setB Reg.FLT_INJSTAT_REAL true s)) := by
    have hi' : injecting n { s with flt := { s.flt with waiting := s.flt.waiting.erase n } } = true := hi
    rw [exec_sourceEvent h, failParity, acceptEvent, hi', if_pos rfl]
    exact congrArg Host.Outcome.next (countEvent_off hoff)
  refine ⟨_, hnext, ?_, ?_, ?_, ?_⟩
  · rw [act_eventShown]
    rfl
  · rw [bit_eventShown hinj, bit_setB_same (by decide) rfl]
  · rw [flt_eventShown]
    rfl
  · exact (hreal.trans hchg).mono (by simp) (by simp [oneOf, Reg.FLT_INJSTAT_REAL])

end


section
variable {n : Fin 128} {s : State}

/-! ### Rail errors (R491) -/

/-- The bit of FLT_RAIL, and the rail error that stands. -/
def railMarked (n : Nat) (s : State) : State := setSrc Reg.FLT_RAIL n true { s with flt := { s.flt with railErr := natPut n s.flt.railErr } }

/-- FLT_ACT shows the source, and one event of it counts. -/
def railCounted (n : Nat) (s : State) : State := if muted n s then railMarked n s else countEvent n (showActive n (railMarked n s))

/-- Source 127 stands with every other rail error. -/
def railRaised (n : Nat) (s : State) : State :=
  if n = 127 then railCounted n s else if natMem 127 s.flt.railErr then setLine 127 true (railCounted n s) else raise 127 (railCounted n s)

theorem exec_railError (hr : collectorRuns s = true) (hi : injecting n s = false) (hn : n.val ∉ s.flt.railErr) :
    exec (.railError n) s = .next (sendAlarm n 3 0 false (presentCount n (railRaised n s)) (railRaised n s)) := by
  have hmem : natMem n.val s.flt.railErr = false := by rw [← Bool.not_eq_true, natMem_iff]; exact hn
  exact if_neg (by rw [hr, hi, hmem]; decide)

theorem flt_railMarked (n : Nat) (s : State) : (railMarked n s).flt = { s.flt with railErr := natPut n s.flt.railErr } := by
  simp only [railMarked, setSrc, setRegBit_flt]

theorem rail_railMarked (n : Nat) (s : State) : srcBit Reg.FLT_RAIL n (railMarked n s) = true := srcBit_setSrc_same ..

theorem act_railMarked (n : Nat) (s : State) : srcBit Reg.FLT_ACT n (showActive n (railMarked n s)) = true := by
  have hshow : srcBit Reg.FLT_ACT n (showActive n (railMarked n s)) = (natMem n (railMarked n s).flt.lines || natMem n (railMarked n s).flt.railErr) :=
    srcBit_setSrc_same ..
  rw [hshow, flt_railMarked, natMem_natPut, beq_self_eq_true, Bool.or_true, Bool.or_true]

theorem rail_railCounted (n : Fin 128) (s : State) : srcBit Reg.FLT_RAIL n (railCounted n s) = true := by
  unfold railCounted
  split
  · exact rail_railMarked ..
  · have hcount := reg_countEvent (n := n) (sourceReg_rail (show n.val / 32 < 4 by omega)) (by simp only [Reg.FLT_RAIL, Reg.FLT_STK]; omega)
      (by simp only [Reg.FLT_RAIL, Reg.FLT_SEV]; omega) (showActive n (railMarked n s))
    have hshow : reg (showActive n (railMarked n s)) (Reg.FLT_RAIL (n.val / 32)) = reg (railMarked n s) (Reg.FLT_RAIL (n.val / 32)) :=
      reg_setRegBit_other (by simp only [Reg.FLT_RAIL, Reg.FLT_ACT]; omega) _ _ _
    exact (srcBit_of_reg (hcount.trans hshow)).trans (rail_railMarked ..)

theorem act_railCounted (n : Fin 128) (hm : muted n s = false) : srcBit Reg.FLT_ACT n (railCounted n s) = true := by
  have hcount := reg_countEvent (n := n) (sourceReg_act (show n.val / 32 < 4 by omega)) (by simp only [Reg.FLT_ACT, Reg.FLT_STK]; omega)
    (by simp only [Reg.FLT_ACT, Reg.FLT_SEV]; omega) (showActive n (railMarked n s))
  rw [railCounted, if_neg (by rw [hm]; decide)]
  exact (srcBit_of_reg hcount).trans (act_railMarked ..)

theorem conditions_railCounted (n : Nat) (s : State) : conditions (railCounted n s) = (s.flt.lines, natPut n s.flt.railErr) := by
  have hmarked : conditions (railMarked n s) = (s.flt.lines, natPut n s.flt.railErr) := by rw [conditions, flt_railMarked]
  unfold railCounted
  split
  · exact hmarked
  · have hshow : conditions (showActive n (railMarked n s)) = conditions (railMarked n s) := by
      rw [conditions, showActive, setSrc, setRegBit_flt, conditions]
    rw [conditions_countEvent, hshow, hmarked]

/-- Source 127 changes no register. -/
theorem Changes.railRaised (n : Nat) (s : State) : Changes [.flt] (fun _ => False) (railCounted n s) (railRaised n s) := by
  refine .of_ite (.refl ..) (.of_ite ?_ (.raise 127 _))
  unfold setLine
  rw [if_pos rfl]
  exact .of_ite (.refl ..) (.withFlt _ _)

theorem setLine_rest (src : Nat) (u : State) : (setLine src true u).flt.railErr = u.flt.railErr := by
  unfold setLine
  rw [if_pos rfl]
  split <;> rfl

theorem railErr_raise (src : Nat) (u : State) : (raise src u).flt.railErr = u.flt.railErr := by
  unfold raise
  split
  · rfl
  · exact (congrArg FltState.railErr (FltGrows.pulse src _).rest).trans (setLine_rest src u)

theorem railErr_railRaised (n : Nat) (s : State) : (railRaised n s).flt.railErr = natPut n s.flt.railErr := by
  have hcounted : (railCounted n s).flt.railErr = natPut n s.flt.railErr := congrArg Prod.snd (conditions_railCounted n s)
  unfold railRaised
  split
  · exact hcounted
  · split
    · exact (setLine_rest ..).trans hcounted
    · exact (railErr_raise ..).trans hcounted

theorem source127_raised {m : Nat} (hn : m ≠ 127) : 127 ∈ (railRaised m s).flt.lines := by
  rw [railRaised, if_neg hn]
  split
  · rw [setLine_lines 127 _ (muted_thermal (by decide) _), ← natMem_iff, natMem_natPut, beq_self_eq_true, Bool.or_true]
  · exact mem_lines_raise (by decide) _

theorem source127_reported {m : Nat} (hn : m ≠ 127) (hl : 127 ∉ s.flt.lines) (hr : 127 ∉ s.flt.railErr) : 127 ∈ (railRaised m s).flt.waiting := by
  have hmem (l : List Nat) (h : 127 ∉ l) : natMem 127 l = false := by rw [← Bool.not_eq_true, natMem_iff]; exact h
  have hlines : (railCounted m s).flt.lines = s.flt.lines := congrArg Prod.fst (conditions_railCounted m s)
  rw [railRaised, if_neg hn, hmem _ hr, if_neg Bool.false_ne_true, waiting_raise 127 _ (muted_thermal (by decide) _), hlines, hmem _ hl,
    if_neg Bool.false_ne_true]
  simp

/-- R491: what every rail error leaves. -/
theorem railError_shown (hr : collectorRuns s = true) (hi : injecting n s = false) (hn : n.val ∉ s.flt.railErr) : ∃ t, exec (.railError n) s = .next t ∧
    t = sendAlarm n 3 0 false (presentCount n (railRaised n s)) (railRaised n s) ∧
    srcBit Reg.FLT_RAIL n t = true ∧ (muted n s = false → srcBit Reg.FLT_ACT n t = true) ∧ n.val ∈ t.flt.railErr ∧ t.pending = s.pending := by
  have hnext := exec_railError hr hi hn
  have hbooks := books_sendAlarm n 3 0 false (presentCount n (railRaised n s)) (railRaised n s)
  have hraised := Changes.railRaised n s
  refine ⟨_, hnext, rfl, ?_, fun hm => ?_, ?_, pending_exec hnext⟩
  · rw [srcBit_of_books hbooks (sourceReg_rail (by omega)), srcBit_of_reg (hraised.reg_eq id), rail_railCounted]
  · rw [srcBit_of_books hbooks (sourceReg_act (by omega)), srcBit_of_reg (hraised.reg_eq id), act_railCounted n hm]
  · rw [(FltGrows.sendAlarm ..).rest, railErr_railRaised, mem_natPut]
    exact .inl rfl

theorem railError_other (hr : collectorRuns s = true) (hi : injecting n s = false) (hn : n.val ∉ s.flt.railErr) (h127 : n.val ≠ 127) :
    ∃ t, exec (.railError n) s = .next t ∧
    srcBit Reg.FLT_RAIL n t = true ∧ (muted n s = false → srcBit Reg.FLT_ACT n t = true) ∧ n.val ∈ t.flt.railErr ∧
    (127 ∉ s.flt.lines → 127 ∉ s.flt.railErr → 127 ∈ t.flt.waiting) ∧ 127 ∈ t.flt.lines ∧ t.pending = s.pending := by
  obtain ⟨t, hnext, ht, hrail, hact, hin, hpending⟩ := railError_shown hr hi hn
  have hflt := FltGrows.sendAlarm n 3 0 false (presentCount n (railRaised n s)) (railRaised n s)
  refine ⟨t, hnext, hrail, hact, hin, fun hl hre => ?_, ?_, hpending⟩
  · rw [ht]
    exact hflt.waiting (source127_reported h127 hl hre)
  · rw [ht, hflt.rest]
    exact source127_raised h127

theorem railError_none (h : collectorRuns s = false ∨ injecting n s = true ∨ n.val ∈ s.flt.railErr) : exec (.railError n) s = .next s := by
  refine if_pos ?_
  rcases h with h | h | h
  · exact .inl h
  · exact .inr (.inl h)
  · exact .inr (.inr ((natMem_iff _ _).2 h))

/-! ### The end of a rail error (R491) -/

/-- FLT_ACT shows the source's condition again. -/
def railEnded (n : Nat) (s : State) : State := showActive n { s with flt := { s.flt with railErr := natErase n s.flt.railErr } }

theorem exec_railErrorEnd (hn : n.val ∈ s.flt.railErr) : exec (.railErrorEnd n) s =
    .next (if (railEnded n s).flt.railErr.any (fun k => k != 127) then railEnded n s else drop 127 (railEnded n s)) :=
  if_pos ((natMem_iff _ _).2 hn)

theorem railErrorEnd_none (hn : n.val ∉ s.flt.railErr) : exec (.railErrorEnd n) s = .next s := if_neg (fun h => hn ((natMem_iff _ _).1 h))

theorem flt_railEnded (n : Nat) (s : State) : (railEnded n s).flt = { s.flt with railErr := natErase n s.flt.railErr } := by
  simp only [railEnded, showActive, setSrc, setRegBit_flt]

theorem Changes.railEnded (n : Nat) (s : State) : Changes [.flt] (· = Reg.FLT_ACT (n / 32)) s (railEnded n s) :=
  ((Changes.withFlt s { s.flt with railErr := natErase n s.flt.railErr }).trans (.setRegBit _ _ _ _)).mono (by simp) (by simp)

theorem act_railEnded (n : Nat) (s : State) : srcBit Reg.FLT_ACT n (railEnded n s) = natMem n s.flt.lines := by
  have hshow : srcBit Reg.FLT_ACT n (railEnded n s) = (natMem n s.flt.lines || natMem n (natErase n s.flt.railErr)) := srcBit_setSrc_same ..
  rw [hshow, natMem_natErase, bne_self_eq_false, Bool.and_false, Bool.or_false]

/-- A source's end shows in its own bit of FLT_ACT. -/
theorem act_drop_other {m src : Nat} (h : m ≠ src) (u : State) : srcBit Reg.FLT_ACT m (drop src u) = srcBit Reg.FLT_ACT m u := by
  have hdrop : drop src u = setRegBit (Reg.FLT_ACT (src / 32)) (src % 32) (natMem src u.flt.railErr)
      { u with flt := { u.flt with lines := natErase src u.flt.lines } } := rfl
  have hreg : reg { u with flt := { u.flt with lines := natErase src u.flt.lines } } = reg u := rfl
  rw [hdrop]
  by_cases hw : m / 32 = src / 32
  · have hbit : ¬ (m % 32 = src % 32 ∧ m % 32 < 32) := by omega
    unfold srcBit regBit
    rw [hw, getLsbD_setRegBit, if_neg hbit, hreg]
  · exact srcBit_of_reg (reg_setRegBit_other (by simp only [Reg.FLT_ACT]; omega) _ _ _)

theorem mem_railEnded (k : Nat) : k ∈ (railEnded n s).flt.railErr ↔ k ∈ s.flt.railErr ∧ k ≠ n.val := by
  rw [flt_railEnded, natErase, List.mem_filter, bne_iff_ne]

/-- Whether another rail error than one of source 127 stands. -/
theorem others_railEnded : (railEnded n s).flt.railErr.any (fun k => k != 127) = true ↔ ∃ k ∈ s.flt.railErr, k ≠ n.val ∧ k ≠ 127 := by
  simp only [List.any_eq_true, mem_railEnded, bne_iff_ne, and_assoc]

theorem railErrorEnd_shown (hn : n.val ∈ s.flt.railErr) : ∃ t, exec (.railErrorEnd n) s = .next t ∧
    (∀ k, k ∈ t.flt.railErr ↔ k ∈ s.flt.railErr ∧ k ≠ n.val) ∧ (n.val ≠ 127 → srcBit Reg.FLT_ACT n t = natMem n s.flt.lines) ∧
    (127 ∈ t.flt.lines ↔ 127 ∈ s.flt.lines ∧ ∃ k ∈ s.flt.railErr, k ≠ n.val ∧ k ≠ 127) ∧ srcBit Reg.FLT_RAIL n t = srcBit Reg.FLT_RAIL n s ∧
    Changes [.flt] (oneOf [Reg.FLT_ACT (n.val / 32), Reg.FLT_ACT 3]) s t := by
  have hchg := Changes.railEnded n s
  have hlines : (railEnded n s).flt.lines = s.flt.lines := by rw [flt_railEnded]
  have hrail {t : State} (h : Changes [.flt] (oneOf [Reg.FLT_ACT (n.val / 32), Reg.FLT_ACT 3]) s t) : srcBit Reg.FLT_RAIL n t = srcBit Reg.FLT_RAIL n s :=
    srcBit_of_reg (h.reg_other (by simp only [Reg.FLT_RAIL, Reg.FLT_ACT, List.mem_cons, List.not_mem_nil, or_false]; omega))
  refine ⟨_, exec_railErrorEnd hn, ?_⟩
  split
  · next hany =>
    have hc : Changes [.flt] (oneOf [Reg.FLT_ACT (n.val / 32), Reg.FLT_ACT 3]) s (railEnded n s) := hchg.mono (by simp) (by simp [oneOf])
    refine ⟨mem_railEnded, fun _ => act_railEnded n s, ?_, hrail hc, hc⟩
    rw [hlines, ← others_railEnded]
    exact (and_iff_left hany).symm
  · next hany =>
    have hc : Changes [.flt] (oneOf [Reg.FLT_ACT (n.val / 32), Reg.FLT_ACT 3]) s (drop 127 (railEnded n s)) :=
      (hchg.trans (.drop 127 _)).mono (by simp) (by simp [oneOf])
    have hdrop : (drop 127 (railEnded n s)).flt.railErr = (railEnded n s).flt.railErr := rfl
    refine ⟨fun k => ?_, fun h127 => (act_drop_other h127 _).trans (act_railEnded n s), ?_, hrail hc, hc⟩
    · rw [hdrop, mem_railEnded]
    · rw [mem_lines_drop, ← others_railEnded]
      exact iff_of_false (fun h => h.2 rfl) (fun h => hany h.2)

/-! ### History parity, and the entry that a route table's parity error names (R419, R488) -/

theorem historyParityError_reported (k : Fin 2) (hup : coreUp s = true) : ∃ t, exec (.historyParityError k) s = .next t ∧
    t.flt.waiting = s.flt.waiting ++ [120 + k.val] ∧ Changes [.flt] (fun _ => False) s t :=
  ⟨_, if_pos hup, pulse_waiting _ _ (muted_thermal (by omega) s), .pulse _ s⟩

theorem historyParityError_none (k : Fin 2) (hup : coreUp s = false) : exec (.historyParityError k) s = .next s := if_neg (by rw [hup]; decide)

theorem sourceEvent_none (h : ¬ Heard n s) (e : Option (Fin 1023)) : exec (.sourceEvent n e) s = .next s := by
  refine if_pos ?_
  by_contra hc
  obtain ⟨hr, hc⟩ := not_or.1 hc
  obtain ⟨hu, hm⟩ := not_or.1 hc
  exact h ⟨Bool.not_eq_false _ ▸ hr, Bool.not_eq_true _ ▸ hu, Bool.not_eq_true _ ▸ hm⟩

theorem failParity_none (id : Fin 1023) (h : n.val ≠ 103 ∨ hasRole s = false) : failParity n (some id) s = s := by
  refine if_neg fun hc => ?_
  rcases h with h | h
  · exact h hc.1
  · exact absurd (h.symm.trans hc.2) (by decide)

theorem sourceEvent_entry (id : Fin 1023) (h : n.val ≠ 103 ∨ hasRole s = false) : exec (.sourceEvent n (some id)) s = exec (.sourceEvent n none) s := by
  by_cases hh : Heard n s
  · rw [exec_sourceEvent hh, exec_sourceEvent hh, failParity_none id h]
    rfl
  · rw [sourceEvent_none hh, sourceEvent_none hh]

theorem sourceEvent_parity (id : Fin 1023) (hh : Heard 103 s) (hr : hasRole s = true) :
    exec (.sourceEvent 103 (some id)) s = exec (.sourceEvent 103 none) (setEntry id { entryOf id s with state := 2 } s) := by
  have hh' : Heard 103 (setEntry id { entryOf id s with state := 2 } s) := hh
  have hfail : failParity 103 (some id) s = setEntry id { entryOf id s with state := 2 } s := if_pos ⟨rfl, hr⟩
  rw [exec_sourceEvent hh, exec_sourceEvent hh']
  exact congrArg (fun u : State => Host.Outcome.next (acceptEvent 103 { u with flt := { s.flt with waiting := s.flt.waiting.erase 103 } })) hfail

end

/-- Settles O49: an event enters the count, and the source's reaction is brought into force by `applyReactions`, of which the head view says what it moves
in the collector's own fields; the books say what it keeps. -/
theorem sourceEvents : Obligations.SourceEvents := by
  unfold Obligations.SourceEvents
  intro s heard counted mild severe svr shown noted reacted regsOf alarm alarms recent
  have hcounts {n : Fin 128} (h : counted n) : Counts n s := ⟨h.1, h.2.1, h.2.2⟩
  have hmild {n : Fin 128} (h : mild n) : Mild n s := ⟨hcounts h.1, h.2.1, h.2.2⟩
  have hsevere {n : Fin 128} (h : severe n) : Severe n s := ⟨hcounts h.1, h.2.1, h.2.2⟩
  refine ⟨fun n h hevi => mild_silent (hmild h) hevi, fun n h hevi ha hr => mild_alarm (hmild h) hevi ha hr,
    fun n h hevi hr => mild_recent (hmild h) hevi hr, fun n h => ⟨_, (hsevere h).exec, (hsevere h).reacted⟩,
    fun n h hr ha => ⟨_, (hsevere h).exec, (hsevere h).reacted, severe_alarm (hsevere h) hr ha⟩,
    fun n h66 h hr => ⟨_, (hsevere h).exec, (hsevere h).reacted, severe_imp h66 (hsevere h) hr⟩,
    fun n h hr hd => ⟨_, (hsevere h).exec, (hsevere h).reacted, severe_degr (hsevere h) hr hd⟩, fun n h hr hs => ?_, fun n h hs => ?_,
    fun n h hi he => event_off h hi he, fun n h hi he => event_injected h hi he,
    fun n hr hi hn h127 => railError_other hr hi hn h127, fun n h127 hr hi hn => ?_, fun n hn _ => railErrorEnd_shown hn,
    fun n id h => sourceEvent_entry id h, fun id hh hr => sourceEvent_parity id hh hr,
    fun n k => ⟨fun h e => sourceEvent_none h e, railError_none, railErrorEnd_none, historyParityError_none k⟩,
    fun k hup => historyParityError_reported k hup⟩
  · obtain ⟨hsafe, hon, hstill⟩ := severe_safe (hsevere h) hr hs
    exact ⟨_, (hsevere h).exec, (hsevere h).reacted, hsafe, hon, hstill⟩
  · obtain ⟨hsev, hreact, hchg⟩ := again_noted (hcounts h) hs
    exact ⟨_, (hcounts h).exec, noted_countEvent (hcounts h).on, hsev, hreact, pending_exec (hcounts h).exec, hchg⟩
  · obtain ⟨t, hnext, -, hrail, hact, hin, hpending⟩ := railError_shown hr hi (h127 ▸ hn)
    exact ⟨t, hnext, hrail, hact (muted_thermal (by omega) s), h127 ▸ hin, hpending⟩

end Sys2Proof.Machine
end
